-- ==== Sys2Proof/Word.lean ====
section
/-! DEFINITION. The words of the block and the small operand types of its commands: register words, bytes, the two access paths of R25, and the frames of the line (R270). -/

namespace Sys2Proof

/-- A 16-bit register word (R23 pages hold words of 16 bits). -/
abbrev Word := BitVec 16

/-- A byte of a line frame or of the flash. -/
abbrev Byte := BitVec 8

/-- The two access paths of R25: the host port and remote register access over the line. -/
inductive Path where
  | host
  | remote
deriving DecidableEq, Repr, Inhabited

/-- The four shadowed registers of R123. -/
inductive ShadowReg where
  | per
  | cmpa
  | cmpb
  | fine
deriving DecidableEq, Repr, Inhabited

/-- The global trip sources of R137 that end by themselves (R140). -/
inductive GlobalSrc where
  | linkuv
  | linkov
  | ot
deriving DecidableEq, Repr, Inhabited

/-- One engine of PWR_STALLEN (R406), in the order of its bits. -/
inductive Engine where
  | fde | lmp | cur | hlt | phy | mac | cmd | vlt | sec | log
deriving DecidableEq, Repr, Inhabited

/-- A COMMAND or REPORT frame as the command engine reads it (R270, R287): the fields of the MAC header that a
rule of *Line commands and reports* uses, the key identifier of the security header (SEC = 1), and the payload
after its opcode byte (TAG first in a command). A frame held in a ring has the opcode byte at the front of `args`. -/
structure LineFrame where
  typ    : BitVec 4 := 0
  urg    : Bool := false
  ackreq : Bool := false
  dir    : Bool := false
  dmode  : BitVec 2 := 0
  hops   : BitVec 4 := 0
  dst    : BitVec 10 := 0
  src    : BitVec 10 := 0
  hopdst : BitVec 10 := 0
  seg    : Word := 0
  seq    : BitVec 12 := 0
  ttier  : BitVec 4 := 0
  hopsrc : BitVec 10 := 0
  sec    : Bool := true
  kid    : BitVec 8 := 0
  args   : List Byte := []
deriving DecidableEq, Repr, Inhabited

end Sys2Proof
end

