-- ==== Sys2Proof/Syntax.lean ====
section
/-! DEFINITION. The commands of the block: one constructor per row of spec/opcode_table.json, in the table's order,
each with the row's rule. An operand of a command is what reaches the block from outside with it: an access path and a
written word, a measured level, a count of a foreign clock, the bytes of a frame (log entry 18). Units: a level of
VDRV is in 0.1 V, of AVDD in 10 mV, of VLSNS in 0.25 V; VSTORE and the cell in mV; the temperature of KEEP_SENSE in
1/16 degC; the ratio of MPP_UPDATE in 1/1024; the energy of GAUGE_SECOND in uJ, its class the one of R419. The count
of a PWM event is the channel's count at that event, bstLow says that the bootstrap comparator is active then, and oc,
ov and pins are the comparators and TRIP pins that are active. The count of XO_WINDOW is in XO cycles, of IRC_CHECK in
IRC cycles, of KXO_WINDOW in SYSCLK cycles over 32768 KXO periods. VSTORE of KEEP_ENTRY is the level after the burst.
A line command's frame holds in args its TAG and the bytes after it, the opcode being the row's own. The word of a
beacon comes with the course and position of its reference instant on the bench grid, that instant's age in 20 ns and
the SNR in 0.25 dB. The us of ZCS_EDGE is the age of the edge in microseconds; robo says that a frame came in a ROBO
mode. The mask of COURSE_START names the positions of the past course in which a preamble was detected. -/

namespace Sys2Proof

inductive Instr where
  /-- R21: A write on either access path to a register field that has no row of its own takes effect under its access code. -/
  | registerWrite (p : Path) (off : BitVec 7) (v : Word)
  /-- R29: A read of NAME_LO returns bits [15:0] and latches bits [31:16] in the path's read latch, tagged with the pair and its select. -/
  | pairLoRead (p : Path) (off : BitVec 7)
  /-- R29: A read of NAME_HI returns the latched half when the tag matches, and the live half otherwise. -/
  | pairHiRead (p : Path) (off : BitVec 7)
  /-- R30: A write of NAME_HI is placed in the path's write stage, tagged with the pair. -/
  | pairHiWrite (p : Path) (off : BitVec 7) (v : Word)
  /-- R30: A write of NAME_LO commits both halves when the stage tag matches, and otherwise commits bits [15:0] only. -/
  | pairLoWrite (p : Path) (off : BitVec 7) (v : Word)
  /-- R28: A read of a table data register returns the addressed word and increments the address, or returns 0x0000 past the end. -/
  | tableDataRead (p : Path) (off : BitVec 7)
  /-- R28: A write of a table data register writes the addressed word when permitted and increments the address, or marks the port past the end. -/
  | tableDataWrite (p : Path) (off : BitVec 7) (v : Word)
  /-- R28: A write to a table address register sets the address and clears the past-end mark. -/
  | tableAddrWrite (p : Path) (off : BitVec 7) (v : Word)
  /-- R32: A write to SYS_UNLOCK advances, completes or breaks the path's unlock sequence, and opens or closes the unlock. -/
  | unlockWrite (p : Path) (v : Word)
  /-- R32: 1 s after the last opening or LK write, the path's SYS_UNLOCK closes. -/
  | unlockTimeout (p : Path)
  /-- R38: A source event reaches its routed destinations through the event fabric and each destination acts once. -/
  | eventFabricPulse (src : Byte)
  /-- R344: After 4 SYSCLK cycles, the complemented GTn pin level ends and the pin returns to OUT. -/
  | gtPinPulseEnd (n : Fin 8)
  /-- R144: After 4 SYSCLK cycles, the SYNCO pulse ends. -/
  | syncoPulseEnd
  /-- R43: A GO write to SYS_CTL ends the hosted wait, sets SYS_MODE.HOST and starts the host watchdog with expected kick 0x5A5A. -/
  | go (p : Path) (v : Word)
  /-- R404: SYS_CTL.SOFTRST with KEY = 0xC5 resets the core registers and reruns start-up from vault recovery, without restarting the clocks. -/
  | softReset (p : Path) (v : Word)
  /-- R39: SYS_CTL.HOLD, or a JTAG hold request with JTAGEN = 1, activates hold, and each block freezes as configured. -/
  | holdBegin (jtag : Bool)
  /-- R39: Hold ends and each frozen block resumes from the state it held. -/
  | holdEnd (jtag : Bool)
  /-- R40: A write to HWD_KICK restarts the armed watchdog when it is the expected kick, and otherwise sets BADK. -/
  | hwdKick (p : Path) (v : Word)
  /-- R42: When the armed host watchdog expires, level-4 lamps are released, HOST clears, HWDF and EXP set and event 0x0:0x001 is posted. -/
  | hwdExpiry
  /-- R42: When HWD_BOOT_T passes with no GO, the hosted node fails over and starts standalone, posting event 0x2:0x009. -/
  | hwdBootTimeout
  /-- R48: A write to LMP_MAP stages the channel map of the selected lamp. -/
  | lmpMapWrite (p : Path) (v : Word)
  /-- R48: A write to LMP_CFG submits LMP_CFG with the staged LMP_MAP for checking on the next fade tick. -/
  | lmpCfgWrite (p : Path) (v : Word)
  /-- R53: OPEN on LMP_TCTL copies the active solver tables into the edit copy and sets EDIT. -/
  | lmpTabOpen (p : Path)
  /-- R54: CLOSE on LMP_TCTL checks the edit copy, then either sets TABPEND or records a TABERR code. -/
  | lmpTabClose (p : Path)
  /-- R56: SAVE on LMP_TCTL queues the active solver tables for the TAB bank. -/
  | lmpTabSave (p : Path)
  /-- R74: Each 1 ms fade tick empties slots, starts due fades, writes requests, decides winners, evaluates fades and runs the colour solver. -/
  | fadeTick
  /-- R95: At second 0 of each local minute, active schedule entries whose fire minute matches apply their plates at level 1. -/
  | scheduleMinute
  /-- R89: A pending request timed for an instant starts on the first tick at or after that instant. -/
  | timedStartDue (l : Fin 8)
  /-- R86: When a slot's hold ends, the slot is emptied and the lamp cross-fades. -/
  | slotHoldExpiry (l : Fin 8) (lvl : Fin 8)
  /-- R100: At a rule's hold end, the rule empties its tagged level-2 slots with its REVERT fade word. -/
  | ruleHoldEnd (r : Fin 32)
  /-- R102: GES_HOLD minutes after a level-6 slot was written, the slot is emptied. -/
  | gestureHoldExpiry (l : Fin 8)
  /-- R425: 2 s after a mains return with no further interruption, a gesture completes, HC39 rises and GES_MAP acts on it. -/
  | gestureComplete
  /-- R105: When MAC_BSINCE reaches LOSST on a node that is not head, the LOSS plate is applied at level 7. -/
  | lossEntry
  /-- R110: FDE_RCMD code 0b001 applies the request values now, at level 4 from the host or level 3 from the remote path. -/
  | fdeRcmdApply (p : Path)
  /-- R110: FDE_RCMD code 0b010 queues the request values for the instant in FDE_RTIME and FDE_RMS. -/
  | fdeRcmdApplyAt (p : Path)
  /-- R110: FDE_RCMD code 0b011 queues the request values for destination 0x22. -/
  | fdeRcmdApplyEvr (p : Path)
  /-- R110: FDE_RCMD code 0b100 applies PLATE now to the masked lamps. -/
  | fdeRcmdPlate (p : Path) (plate : Byte)
  /-- R110: FDE_RCMD code 0b101 queues PLATE for the instant in FDE_RTIME and FDE_RMS. -/
  | fdeRcmdPlateAt (p : Path) (plate : Byte)
  /-- R110: FDE_RCMD code 0b110 queues PLATE for destination 0x22. -/
  | fdeRcmdPlateEvr (p : Path) (plate : Byte)
  /-- R110: FDE_RCMD code 0b111 releases the path's level on the masked lamps with a cross-fade. -/
  | fdeRcmdRelease (p : Path)
  /-- R107: OPEN on FDE_TCTL copies the fade table group into the edit copy. -/
  | fdeTabOpen (p : Path)
  /-- R107: CLOSE on FDE_TCTL checks the fade table group and either sets TABPEND or records TABERR. -/
  | fdeTabClose (p : Path)
  /-- R107: SAVE on FDE_TCTL queues the fade table group for the TAB bank. -/
  | fdeTabSave (p : Path)
  /-- R129: A PWM_ENA write starts or stops channels, with counters starting at PWM_PHS on a common edge. -/
  | pwmEnaWrite (p : Path) (v : Word)
  /-- R123: A write to PER, CMPA, CMPB or FINE fills the shadow set and arms it for the next load point. -/
  | pwmShadowWrite (p : Path) (r : ShadowReg) (v : Word)
  /-- R112: At the period boundary the count returns to 0, the shadow set loads, the burst gate is sampled and the period starts, possibly as a burnish period. -/
  | pwmZero (n : Fin 16) (bstLow : Bool)
  /-- R127: At the mid-period load point the armed set loads, and a new PER at or below the count cuts the period. -/
  | pwmMidLoad (n : Fin 16)
  /-- R143: When the count steps onto PER, the PERIOD event fires and the voltage hold captures. -/
  | pwmPeriod (n : Fin 16)
  /-- R114: When the count reaches CMPA, HG is commanded off with the fine delay, and the CMPA event fires. -/
  | pwmCmpa (n : Fin 16)
  /-- R116: When the count steps onto CMPB, blanking ends, the comparators are armed and the CMPB event fires. -/
  | pwmCmpb (n : Fin 16)
  /-- R151: After blanking, the sense voltage reaches the falling threshold and the peak comparator ends HG. -/
  | peakComparatorEnd (n : Fin 16) (cnt : Word)
  /-- R119: SW is sensed below 1.0 V after HG off, and LG turns on. -/
  | swSensedLow (n : Fin 16) (cnt : Word)
  /-- R119: LG is sensed below 1.0 V at or after count 0, which starts the DTMIN wait for HG. -/
  | lgSensedLow (n : Fin 16) (cnt : Word)
  /-- R119: DTMIN ticks after LG is sensed low, HG turns on unless CMPA has passed or a trip intervenes. -/
  | hgTurnOn (n : Fin 16) (cnt : Word)
  /-- R120: A pending turn-on that has waited DTMAX ticks turns on regardless and sets DTCAP. -/
  | dtmaxExpiry (n : Fin 16) (cnt : Word)
  /-- R118: With ZCD = 1, the sense voltage falling to 0.5 mV during the off-time turns LG off until the next period. -/
  | zeroCurrentDetect (n : Fin 16) (cnt : Word)
  /-- R131: BRN_W ticks into a burnish pulse, LG is commanded off, and HG follows under the dead-time rule. -/
  | burnishEnd (n : Fin 16) (bstLow : Bool)
  /-- R133: The bootstrap UVLO comparator becomes active, which blocks HG, sets BSTLOW and makes the following periods burnish periods. -/
  | bootstrapUvlo (n : Fin 16)
  /-- R136: A PWM_FORCE write arms a gate force, or is refused with FERR. -/
  | pwmForceWrite (p : Path) (v : Word)
  /-- R134: At edge W + 2, or at the first boundary after it, the armed force takes effect under the interlock. -/
  | forceEffect (n : Fin 16)
  /-- R137: The over-current comparator trips after blanking and latches OC; the channel goes to its safe levels. -/
  | overcurrentTrip (n : Fin 16)
  /-- R137: CSNn rises above CUR_OV, and OV latches on the channel. -/
  | stringOvervoltageTrip (n : Fin 16)
  /-- R137: A TRIP pin held active for FILT + 1 samples outside its blanking window trips the masked channels. -/
  | tripPinActive (t : Fin 4)
  /-- R390: VLSNS stays below PWR_LINKUV for 2 µs and trips all channels with LINKUV. -/
  | linkUndervoltage (level : Byte)
  /-- R390: VLSNS stays above PWR_LINKOV for 2 µs and trips all channels with LINKOV. -/
  | linkOvervoltage (level : Byte)
  /-- R526: The die reaches the over-temperature limit and trips all channels with OT. -/
  | overtemperature
  /-- R140: A write of 1 to PWM_TRIPCLR clears the channel's latch and restarts it, or is refused with CLRREF. -/
  | tripClear (p : Path) (oc ov : Word) (pins : BitVec 4)
  /-- R140: With AUTO = 1, 1 ms after the source ends, LINKUV, LINKOV or OT clears itself when no other bit is latched. -/
  | globalTripAutoClear
  /-- R141: Without bench timing, the trip count restarts every 640 ms. -/
  | stormWindowRestart
  /-- R142: PWM_HOLDTO ticks into a freeze, the channel goes to its safe levels and HOLDSAFE reads 1. -/
  | pwmHoldTimeout (n : Fin 16)
  /-- R144: A SYNCI rising edge reloads the masked channel counters with PWM_PHS and serves as a dimming-period source. -/
  | synciEdge
  /-- R336: TIM_PHREF pulses when the scaled network time reaches a multiple of CUR_DPER. -/
  | phrefPulse
  /-- R158: At a lamp's dimming-period start, the realiser takes DRIVE, applies the soft-start ceiling and computes amplitude, burst and stipple. -/
  | dimmingPeriodStart (g : Fin 9)
  /-- R173: When a retry wait ends, the channel's latch is cleared and the channel restarts, or the refusal is counted. -/
  | retryDue (n : Fin 16) (oc ov : Bool) (pins : BitVec 4)
  /-- R174: After 60 s of running with an empty latch, RCNT returns to 0. -/
  | retryCountReset (n : Fin 16)
  /-- R175: A write of 1 to CUR_LOCKCLR ends the channel's lock and clears its latch, or is refused. -/
  | lockClear (p : Path) (oc ov : Word) (pins : BitVec 4)
  /-- R180: At mid on-time of an eligible period, the armed current hold captures CSPn − CSNn. -/
  | currentHoldCapture (n : Fin 16)
  /-- R180: A captured value that has waited 8 µs without conversion is discarded and HLOST sets. -/
  | holdCaptureTimeout (n : Fin 16) (volt : Bool)
  /-- R183: A converter slot completes its conversion and delivers the result to its consumer. -/
  | conversionDone (raw : BitVec 14)
  /-- R185: The user sequence ends, source 0x68 fires, and with Q7AUTO its results are pushed to Q7. -/
  | userSeqEnd
  /-- R187: At the end of each 1 ms survey round, the analyser forms round results, classes, temperatures, maintenance and energy. -/
  | roundEnd
  /-- R199: A channel mask written to HLT_PRF requests proof runs, which start or are deferred. -/
  | proofRunRequest (p : Path) (v : Word)
  /-- R199: Every AUTOD days of lit time, a proof run is requested. -/
  | proofAutoDue (n : Fin 16)
  /-- R191: Each 125 ms, a proof slot starts at its amplitude point, lit or dark. -/
  | proofSlotStart (n : Fin 16)
  /-- R197: After its last slot, the run is fitted and accepted or rejected. -/
  | proofRunEnd (n : Fin 16)
  /-- R194: A run that has not completed 600 s after its start is abandoned. -/
  | proofRunTimeout (n : Fin 16)
  /-- R201: HLT_CCTL.LEDRST sets LEDCNT to 0. -/
  | ledrst (p : Path)
  /-- R190: HLT_CCTL.MCLR invalidates the channel's string model. -/
  | mclr (p : Path)
  /-- R204: HLT_CCTL.DTREF restarts learning of the dead-time baseline. -/
  | dtrefRelearn (p : Path)
  /-- R213: OPEN on HLT_TCTL copies the HLT table group into the edit copy. -/
  | hltTabOpen (p : Path)
  /-- R213: CLOSE on HLT_TCTL checks the HLT table group. -/
  | hltTabClose (p : Path)
  /-- R213: SAVE on HLT_TCTL queues the HLT table group for the TAB bank. -/
  | hltTabSave (p : Path)
  /-- R207: After each 24 h of lit time, the stress hours are committed as a native record. -/
  | stressRecordDue
  /-- R210: Each whole hour with non-zero effective DRIVE increments the channel's on-hours counter. -/
  | channelOnHour (n : Fin 16)
  /-- R225: A ZCS edge updates the filtered mains period and the zero-crossing grid, and can make ZCS valid. -/
  | zcsEdge (rising : Bool) (us : Nat)
  /-- R225: No ZCS edge within 1.5 courses makes ZCS invalid and sets ZCLOSS. -/
  | zcsTimeout
  /-- R221: A course starts on the grid, source 0x6A fires and scheduled transmissions in the course begin. -/
  | courseStart (pre : BitVec 24)
  /-- R255: Course 0 begins, the bench number rises, and pending bench-aligned changes take effect. -/
  | benchStart
  /-- R261: A relay sends a relay beacon in its tier's relay slot. -/
  | relayBeaconSend
  /-- R233: A located preamble's header is decoded and is either accepted or discarded with HDRERR or TMERR. -/
  | headerReceive (hdr : BitVec 40)
  /-- R272: A decoded frame passes the checks in order and is acknowledged, delivered to its ring or relayed. -/
  | frameReceive (robo : Bool) (bytes : List Byte)
  /-- R262: A beacon is judged valid, resets MAC_BSINCE, sets bench timing and gives θ to network time. -/
  | beaconReceive (short : BitVec 29) (course : BitVec 6) (posn : BitVec 5) (ago : Nat) (snr : Byte)
  /-- R279: A deputy whose course-0 window closes without a head beacon counts a miss. -/
  | beaconMiss
  /-- R262: When MAC_BSINCE exceeds 16 or 64 benches, BVALID clears. -/
  | bvalidTimeout
  /-- R278: After MAC_DEP.LISTEN benches, a HEAD that heard no notice starts beaconing. -/
  | headListenEnd
  /-- R265: After n idle slots, the node begins transmitting its highest-ranked waiting frame. -/
  | contentionTxStart (n : Nat)
  /-- R266: The addressed node sends an ACK, BUSY or REFUSED acknowledgement in the acknowledgement span. -/
  | ackSend
  /-- R267: An acknowledgement with a matching CHK ends, repeats or drops the sender's attempt. -/
  | ackReceive (short : BitVec 29)
  /-- R267: An acknowledgement span ends with no matching acknowledgement, and the attempt fails and is retried or dropped. -/
  | ackSpanEnd
  /-- R216: VLD falls below its threshold, and frames due to start are not sent. -/
  | vldUndervoltage (level : Byte)
  /-- R245: A transmit map becomes invalid LIFE minutes after it was written. -/
  | toneMapExpiry (e : Fin 32)
  /-- R305: With TMAUTO, a node holding no valid map for its parent sends TM_REQ to it. -/
  | tmAutoRequest
  /-- R275: A join request with no response is repeated after a doubling wait. -/
  | joinRetryDue
  /-- R538: A write to MAC_ROLE.ROLE in LIT schedules the role change for the next bench start. -/
  | roleWrite (p : Path) (v : Word)
  /-- R283: A read of MAC_RDATA returns the next word of the selected ring's oldest entry. -/
  | ringDataRead (p : Path)
  /-- R283: A write of MAC_RDATA adds a word to the Q5 entry being built. -/
  | ringDataWrite (p : Path) (v : Word)
  /-- R283: POP on MAC_RCTL removes the oldest entry of the selected ring. -/
  | ringPop (p : Path)
  /-- R283: PUSH on MAC_RCTL completes the Q5 entry, or refuses it with FMTERR, and loops commands under LOOP. -/
  | ringPush (p : Path)
  /-- R283: ABORT on MAC_RCTL discards a partly written Q5 entry. -/
  | ringAbort (p : Path)
  /-- R294: Line command SET writes request values to the masked lamps at level 3 or 5. -/
  | setCmd (f : LineFrame)
  /-- R294: Line command SET_AT queues request values for a network-time instant. -/
  | setAt (f : LineFrame)
  /-- R294: Line command SET_EVR queues request values for destination 0x22. -/
  | setEvr (f : LineFrame)
  /-- R294: Line command PLATE applies a plate to the masked lamps. -/
  | plate (f : LineFrame)
  /-- R294: Line command PLATE_AT queues a plate for a network-time instant. -/
  | plateAt (f : LineFrame)
  /-- R294: Line command PLATE_EVR queues a plate for destination 0x22. -/
  | plateEvr (f : LineFrame)
  /-- R294: Line command RELEASE empties its own level on the masked lamps with fade word T. -/
  | release (f : LineFrame)
  /-- R295: Line command EVENT carries a network event that the event rules test on the next tick. -/
  | event (f : LineFrame)
  /-- R296: Line command GRP_SET writes all group bits. -/
  | grpSet (f : LineFrame)
  /-- R296: Line command GRP_ADD sets one group bit. -/
  | grpAdd (f : LineFrame)
  /-- R296: Line command GRP_DEL clears one group bit. -/
  | grpDel (f : LineFrame)
  /-- R296: Line command POS_SET writes MAC_POS. -/
  | posSet (f : LineFrame)
  /-- R297: Line command TAB_OPEN opens the edit copy of a page's tables. -/
  | tabOpen (f : LineFrame)
  /-- R297: Line command TAB_WRITE writes words to a page's edit copy in bursts. -/
  | tabWrite (f : LineFrame)
  /-- R297: Line command TAB_CLOSE checks a page's edit copy and returns CHECK on failure. -/
  | tabClose (f : LineFrame)
  /-- R297: Line command TAB_SAVE saves a page's active tables. -/
  | tabSave (f : LineFrame)
  /-- R297: Line command PLATE_WR writes and checks one plate. -/
  | plateWr (f : LineFrame)
  /-- R296: Line command CFG_SAVE starts the configuration save. -/
  | cfgSave (f : LineFrame)
  /-- R298: Query Q_STATUS returns the status body. -/
  | qStatus (f : LineFrame)
  /-- R298: Query Q_LAMP returns a lamp's solved output and ownership. -/
  | qLamp (f : LineFrame)
  /-- R298: Query Q_HEALTH returns the health body of the masked channels. -/
  | qHealth (f : LineFrame)
  /-- R298: Query Q_ENERGY returns the energy body. -/
  | qEnergy (f : LineFrame)
  /-- R298: Query Q_HATCH returns N hatch counter values. -/
  | qHatch (f : LineFrame)
  /-- R496: Query Q_EVENTS returns N event records from slot FROM. -/
  | qEvents (f : LineFrame)
  /-- R298: Query Q_GAUGE returns the gauge values. -/
  | qGauge (f : LineFrame)
  /-- R298: Query Q_TIME returns network time and TIM_STAT. -/
  | qTime (f : LineFrame)
  /-- R298: Query Q_VERSION returns identity, revision, boot status and HC3. -/
  | qVersion (f : LineFrame)
  /-- R298: Query Q_LINK returns link status. -/
  | qLink (f : LineFrame)
  /-- R299: Remote command RD reads N registers as one burst. -/
  | rd (f : LineFrame)
  /-- R300: Remote command WR writes N registers as one burst and reports the words not applied. -/
  | wr (f : LineFrame)
  /-- R300: Remote command WRL writes a list of page, offset and value entries as one burst. -/
  | wrl (f : LineFrame)
  /-- R302: A JOIN_REQ report at the acting head enters Q4 for address assignment. -/
  | joinReq (f : LineFrame)
  /-- R302: A joining node takes its short address and segment from a matching JOIN_RESP, or returns to UNJOINED. -/
  | joinResp (f : LineFrame)
  /-- R303: Command ADDR_SET is answered with the old address, and the new address applies once the response has left Q2. -/
  | addrSet (f : LineFrame)
  /-- R301: Command ROLE_SET sets the node's configured role. -/
  | roleSet (f : LineFrame)
  /-- R304: The acting head grants, refuses or revokes a reservation and queues RSV_SET. -/
  | rsvGrant (f : LineFrame)
  /-- R304: The target writes a granted reservation into its MAC_RSV entry. -/
  | rsvSet (f : LineFrame)
  /-- R305: A neighbour builds a receive map from a TM_REQ and answers with TM_RESP. -/
  | tmReq (f : LineFrame)
  /-- R305: The requester stores the map carried in a TM_RESP as a transmit map. -/
  | tmResp (f : LineFrame)
  /-- R337: Command OFFSET_SET sets the local offset when OFSN = 1. -/
  | offsetSet (f : LineFrame)
  /-- R303: Command LEAVE returns the node to UNJOINED once its response has left Q2. -/
  | leave (f : LineFrame)
  /-- R305: Command TM_ASK makes the node send TM_REQ to NEIGH at once. -/
  | tmAsk (f : LineFrame)
  /-- R307: Command B_BEGIN opens a bundle transfer, or is refused. -/
  | bBegin (f : LineFrame)
  /-- R307: Command B_BLOCK stores one bundle block into staging, or is discarded. -/
  | bBlock (f : LineFrame)
  /-- R306: Command B_REPAIR returns the received count and the missing-block bitmap. -/
  | bRepair (f : LineFrame)
  /-- R308: Command B_COMMIT hands a complete bundle to the security engine, or is refused with BMISSING. -/
  | bCommit (f : LineFrame)
  /-- R476: Bundle verification completes, and the bundle is applied with OK or refused with its code. -/
  | bCommitDone
  /-- R308: Command B_ABORT releases the open transfer. -/
  | bAbort (f : LineFrame)
  /-- R477: 1 s after the OK of an APPLY CFG bundle has left Q2, the node makes a soft reset. -/
  | bundleApplyReset
  /-- R309: Line command PROOF hands a challenge to the security engine for signing. -/
  | proof (f : LineFrame)
  /-- R480: The proof signature completes, and the proof body is returned as a PROOF report or in table 0x4. -/
  | proofSignDone
  /-- R309: Command CERT returns N bytes of the vendor certificate. -/
  | cert (f : LineFrame)
  /-- R310: Command MB_STAT returns the host presence and the Q4 and Q5 fills. -/
  | mbStat (f : LineFrame)
  /-- R313: When an alarm gap ends with a count above 0, one alarm carrying the last record and the count is sent. -/
  | alarmGapEnd (b : Fin 13)
  /-- R315: At a matching network minute, an ENERGY or HEALTH report is made. -/
  | periodicReportMinute
  /-- R325: When HOB expected beacons in a row give no θ, the node enters HOLDOVER. -/
  | holdoverEntry
  /-- R328: TIM_CMD SET loads TIM_SETS and TIM_SETF into network time. -/
  | timeSet (p : Path)
  /-- R328: TIM_CMD SETCAP arms a load of TIM_SETS at the next capture edge. -/
  | timeSetcap (p : Path)
  /-- R328: TIM_CMD cancel SETCAP drops a waiting SETCAP. -/
  | setcapCancel (p : Path)
  /-- R328: Capture edges that stop arriving 1 s ± 100 µs apart clear PPSV. -/
  | ppsLost
  /-- R321: A read of TIM_SEC_LO latches the seconds half and snapshots the fraction. -/
  | timSecRead (p : Path)
  /-- R335: A TIM_ALnCTL write with EN = 1 arms alarm n at the written time. -/
  | alarmArm (p : Path) (n : Fin 4) (v : Word)
  /-- R335: When network time reaches the alarm time, the alarm pulses its source and re-arms or disarms. -/
  | alarmFire (n : Fin 4)
  /-- R331: At the end of each 64 s window, the keep-alive counter's deviation refines E0 and the counter is reloaded. -/
  | kaCalibrationWindow
  /-- R330: Every 60 s in KEEP, the domain reads its temperature and VSTORE. -/
  | keepSense (temp : Word) (vstore : Word)
  /-- R333: At the first KXO edge after the PLL locks on XO, the main counter resumes counting SYSCLK. -/
  | timeCountResume
  /-- R343: A GTU_ENA write starts or stops timer channels, with prescalers in phase. -/
  | gtuEnaWrite (p : Path) (v : Word)
  /-- R348: A written compare or TOP value takes effect on the second timer tick after its write, which can force a wrap. -/
  | gtValueEffect (n : Fin 8)
  /-- R350: A compare match applies the pin, survey, Q7 and trigger actions and sets CM0 or CM1. -/
  | gtCompareMatch (n : Fin 8) (m0 m1 : Bool)
  /-- R346: A pulse on a channel's trigger input counts, resets or starts the channel according to SMODE. -/
  | gtTrigger (n : Fin 8)
  /-- R345: A write of 1 to a GTU_TRG bit pulses that channel's trigger input. -/
  | gtuTrgWrite (p : Path) (v : Word)
  /-- R344: The pin filter accepts a new level on GTn, which counts, gates or captures. -/
  | gtPinEdge (n : Fin 8) (level : Bool)
  /-- R356: On wake, a STOP or SLOW channel's count is advanced by the elapsed keep-alive time, setting CATCH and MISS. -/
  | gtCatchUp (n : Fin 8)
  /-- R363: Each 1024-IRC-cycle window counts XO cycles for qualification or monitoring. -/
  | xoWindow (cnt : Word)
  /-- R364: The reference handover to XO ends, ROOTSRC becomes 1 and the PHY may resume. -/
  | handoverDone
  /-- R365: 100 ms without qualification sets XOTO. -/
  | xoTimeout
  /-- R369: The missing-edge detector fires, channels go safe, the PLL holds and the node falls back to IRC. -/
  | xoMissingEdge
  /-- R370: With IRC_KEEP = 0, the restarted IRC is accepted as reference after 10 µs and NMI CLKF is raised. -/
  | ircAccepted
  /-- R362: The PLL locks on IRC at start-up, and every divided clock runs. -/
  | pllLocked
  /-- R371: After fallback the PLL locks on IRC, the clock-loss latch clears and channels restart. -/
  | clockGood
  /-- R367: Every 4 KXO periods, IRC is counted against KXO, and a failure sets IRCF. -/
  | ircCheck (cnt : Word)
  /-- R372: After 4 clock-fatal resets, the node retries once per second. -/
  | fatalRetry
  /-- R374: The PLL loses lock with a good reference, and channels go safe. -/
  | pllLockLoss
  /-- R374: A PLL that has not relocked within 100 µs makes the node clock-fatal. -/
  | pllRelockTimeout
  /-- R375: CLK_CMD RETXO hands the reference back to a qualified XO. -/
  | retxo (p : Path)
  /-- R376: No KXO edge for 2 KRC periods moves the keep-alive domain to KRC. -/
  | kxoFail
  /-- R377: Each 1 s window checks KXO against SYSCLK, and 4 good windows return the domain to KXO. -/
  | kxoWindow (cnt : Nat)
  /-- R379: A CLK_SPREAD write takes effect at the next modulation cycle and triggers self-mask recomputation. -/
  | spreadApply
  /-- R396: VAUX good starts LIT entry: the core regulator comes up, and the start-up sequence and interruption timing follow. -/
  | vauxGood (strap : Bool)
  /-- R362: IRC comes up and the core reset is released, enabling XO. -/
  | coreResetRelease
  /-- R333: At the first KXO edge after IRC is up, the main counter loads from the keep-alive counter. -/
  | kaTimeLoad
  /-- R440: Vault recovery completes or rolls back the last commit, settles banks and hatch, and starts the recorder. -/
  | vaultRecoveryEnd
  /-- R396: Configuration replay ends; a standalone node leaves START, while a hosted node waits for GO. -/
  | replayEnd
  /-- R400: Mains loss is declared: VAUXW is raised, gates close and the line transmission is abandoned. -/
  | mainsLoss (zcs : Bool)
  /-- R332: At the first KXO edge after the power stage stops, the keep-alive counter takes network time and a reservation is requested. -/
  | keepTimeLoad
  /-- R421: The gauge grants or refuses the commit reservation. -/
  | reservationAnswer (vstore : Word)
  /-- R400: After the burst or its refusal, the node enters KEEP and applies CLK_GATE_DEEP. -/
  | keepEntry (vstore : Word)
  /-- R403: A VCORE brown-out resets the core and puts the node in KEEP. -/
  | coreBrownout
  /-- R403: The core buck input falls below 2.6 V, and NMI BOR is raised. -/
  | borWarning
  /-- R404: RST# held low for 1 µs holds the core in reset with the gates low. -/
  | rstAssert
  /-- R404: RST# is released, and the start-up sequence runs. -/
  | rstRelease (strap : Bool)
  /-- R404: VKA below 1.5 V resets the keep-alive domain, clearing keep RAM and time. -/
  | kaPowerOnReset
  /-- R389: VDRV falls below 4.2 V, and every channel holds both gates low. -/
  | vdrvUndervoltage (level : Byte)
  /-- R389: VDRV is good again for 100 µs, and channels restart with a burnish pulse and a soft start. -/
  | vdrvGood
  /-- R391: AVDD leaves its range, and survey rounds are not measured. -/
  | avddOutOfRange (level : Word)
  /-- R406: An engine that overruns its work time is restarted, and light is held. -/
  | engineStall (e : Engine)
  /-- R412: VSTORE falls below 2.3 V, and the cell is selected when it is good. -/
  | cellSelect (vstore vcell : Word)
  /-- R412: VSTORE rises above 2.8 V, and the cell is released. -/
  | cellRelease (vstore : Word)
  /-- R414: VSTORE reaches KEEP_VMAX, and charging stops. -/
  | storeFull (vstore : Word)
  /-- R414: VSTORE falls 50 mV below KEEP_VMAX, and charging resumes. -/
  | storeChargeResume (vstore : Word)
  /-- R415: Every 64 s, the MPPS ratio is read and VMPP is set. -/
  | mppUpdate (ratio : Word)
  /-- R419: Each second, the domain classes its load and updates the gauge. -/
  | gaugeSecond (cls : Fin 16) (uj : Nat)
  /-- R537: Every 3600 s of keep-alive time, an hour tick increments HC0. -/
  | hourTick
  /-- R451: Each whole 3600 s in LIT increments HC2. -/
  | litHour
  /-- R436: CDLY after the oldest entry, or at 2 KiB of entries, a commit starts. -/
  | commitDelayExpiry
  /-- R437: A commit's journal is programmed; the buffer entries are freed and VLTDONE sets. -/
  | commitDone
  /-- R441: A sector rewrite through scratch completes with SCRDONE. -/
  | sectorRewriteDone
  /-- R442: A bank build commits its BANKSEL and swaps the banks. -/
  | bankBuildDone
  /-- R453: A hatch fold completes, moving the counters to the other hatch sector. -/
  | foldDone
  /-- R457: A program or erase fails verify three times, and the vault sets INTEG and NMI VLTF. -/
  | flashVerifyFail
  /-- R436: VLT_CMD COMMIT starts a commit now. -/
  | vltCommit (p : Path)
  /-- R444: VLT_CMD PGWR queues the USR page buffer. -/
  | pgwr (p : Path)
  /-- R444: VLT_CMD ERASE erases the USR sector at VLT_RADDR. -/
  | vltErase (p : Path)
  /-- R449: VLT_CMD LEGWR writes the LEG edit buffer to the losing copy with the next SEQ. -/
  | legwr (p : Path)
  /-- R445: VLT_CMD LOCK closes the selected region on the path. -/
  | vltLock (p : Path)
  /-- R445: VLT_CMD SETPWD commits the last password words as the region's new password. -/
  | setpwd (p : Path)
  /-- R447: VLT_CMD LEGLOAD loads the LEG edit buffer from the winning copy. -/
  | legload (p : Path)
  /-- R445: A write to VLT_PWD adds a password word and opens the region, or counts a wrong entry with lockout. -/
  | passwordWord (p : Path) (v : Word)
  /-- R446: The password lockout delay ends, and VLT_PWD accepts writes again. -/
  | passwordLockoutEnd
  /-- R445: After 600 s without access, an open region closes on the path. -/
  | regionTimeout (p : Path) (r : Fin 3)
  /-- R445: A write to VLT_RSEL selects the raw region and restarts the password sequence. -/
  | rawRegionSelect (p : Path) (v : Word)
  /-- R452: A write to HAT_INC increments a host hatch counter, or is refused with code 0x7. -/
  | hatInc (p : Path)
  /-- R465: SEC_CMD LOADKEY wraps and commits a key loaded in clear into the selected slot. -/
  | loadkey (p : Path)
  /-- R466: SEC_CMD ERASEKEY commits an empty blob for the selected slot. -/
  | erasekey (p : Path)
  /-- R462: SEC_CMD COMMISSION burns the fuse from SHIPPED to COMMISSIONED. -/
  | commission (p : Path) (v : Word)
  /-- R462: SEC_CMD RETIRE burns the fuse to RETIRED and erases every slot. -/
  | retire (p : Path) (v : Word)
  /-- R462: A lifecycle fuse burn completes, and the new state applies. -/
  | fuseBurnDone
  /-- R480: SEC_CMD PROOF starts signing the challenge in table 0x3. -/
  | secProof (p : Path)
  /-- R482: SEC_CMD SELFTEST runs the known-answer tests in parts between frames. -/
  | selftest (p : Path)
  /-- R481: The known-answer tests end, setting STOK or entering the failed state. -/
  | selftestEnd (fail : Option (Fin 6))
  /-- R471: SEC_CMD SAVEDIR queues a TAB bank build holding the address directory. -/
  | savedir (p : Path)
  /-- R465: A write to SEC_KDATA adds one key word for LOADKEY. -/
  | secKdataWrite (p : Path) (v : Word)
  /-- R465: A write to SEC_SLOT_SEL selects a slot and clears SEC_KDATA. -/
  | secSlotSelect (p : Path) (v : Word)
  /-- R479: The noise-source repetition count test fails, and STFAIL sets. -/
  | healthTestFail
  /-- R489: The recorder takes the next record and programs it at LOG_HEAD and, while there is room, into the sealed region. -/
  | recorderTake
  /-- R492: A write of 0x5EA1 to LOG_SEAL erases the sealed region and posts event 0x003. -/
  | sealReset (p : Path) (v : Word)
  /-- R495: A write to LOG_HPOST posts a class 0xA event with the LOG_HDET detail. -/
  | hostEventPost (p : Path) (v : Word)
  /-- R387: VLD rises above 7.8 V again, PWR_STAT.VLDG returns to 1 and frames may again be sent. -/
  | vldGood
  /-- R391: AVDD returns within 3.1 to 3.5 V, AVDDG reads 1 and survey rounds are measured again. -/
  | avddGood
  /-- R387: VHIO falls below 1.6 V, VHIOG clears, port inputs are ignored and port outputs go high-impedance. -/
  | vhioLoss
  /-- R387: VHIO rises above 1.6 V, VHIOG sets and the host port accepts inputs and drives outputs again. -/
  | vhioGood
  /-- R140: A link under- or over-voltage or over-temperature condition ends, the live flag clears and the 1 ms self-clear wait begins. -/
  | globalTripSourceInactive (src : GlobalSrc)
  /-- R262: While the node has no bench timing, one nominal bench length of 640 ms (533.3 ms) passes and MAC_BSINCE counts one bench. -/
  | nominalBenchElapsed
  /-- R447: A LEG copy write ends, the new copy becomes the winner and VLTDONE sets when enabled. -/
  | legWriteDone
  /-- R444: A sector erase ends, whether a USR ERASE, a compaction erase or an erase deferred from recovery, and the vault is no longer busy. -/
  | sectorEraseDone
  /-- R215: The line driver's output current limit acts during a transmission and PHY_STAT.ILIM sets. -/
  | driverCurrentLimit
  /-- R512: EXTEST, or another instruction that drives boundary cells, becomes active or ends; while it is active, every channel holds HG and LG low and the line driver is high-impedance. -/
  | jtagExtest (active : Bool)
deriving DecidableEq, Repr

end Sys2Proof
end

