-- ==== Sys2Proof/Machine/Crypto.lean ====
section
/-! DEFINITION. The checks and ciphers that the spec names by their standards: CRC-8, CRC-16, CRC-32, SHA-256
(FIPS 180-4), HMAC-SHA-256 and the counter-mode KDF (SP 800-108), AES-128 and AES-256 (FIPS 197), CCM
(SP 800-38C), key unwrap (RFC 3394) and ECDSA verification over P-256 (FIPS 186). -/

namespace Sys2Proof.Machine

/-- A number as `n` bytes, most significant first. -/
def toBytes (n v : Nat) : List Byte := (List.range n).map (fun i => BitVec.ofNat 8 (v / 256 ^ (n - 1 - i)))

/-- Bytes, most significant first, as a number. -/
def ofBytes (l : List Byte) : Nat := l.foldl (fun a b => a * 256 + b.toNat) 0

/-- `n` bytes of a list from place `i` on as a number, most significant first. -/
def numAt (l : List Byte) (i n : Nat) : Nat := ofBytes ((l.drop i).take n)

/-- A 16-bit word as two bytes, high byte first. -/
def wordBytes (w : Word) : List Byte := toBytes 2 w.toNat

/-- The bytes of words, high byte first. -/
def wordsBytes (l : List Word) : List Byte := l.flatMap wordBytes

/-- Bytes in pairs as words, high byte first; an odd last byte is the high byte of a word. -/
def bytesWords : List Byte → List Word
  | [] => []
  | [a] => [BitVec.ofNat 16 (a.toNat * 256)]
  | a :: b :: l => BitVec.ofNat 16 (a.toNat * 256 + b.toNat) :: bytesWords l

/-! Cyclic redundancy checks. -/

/-- `k` shift steps of a CRC register of `n` bits, most significant bit first. -/
def crcShift (n poly : Nat) : Nat → Nat → Nat
  | 0, r => r
  | k + 1, r => crcShift n poly k (if r.testBit (n - 1) then ((r * 2) % 2 ^ n) ^^^ poly else (r * 2) % 2 ^ n)

/-- A CRC of `n` bits, most significant bit first, over bytes. -/
def crcMsb (n poly init : Nat) (l : List Byte) : Nat :=
  l.foldl (fun r b => crcShift n poly 8 (r ^^^ (b.toNat * 2 ^ (n - 8)))) init

/-- `k` shift steps of a reflected CRC register. -/
def crcShiftR (poly : Nat) : Nat → Nat → Nat
  | 0, r => r
  | k + 1, r => crcShiftR poly k (if r.testBit 0 then (r / 2) ^^^ poly else r / 2)

/-- CRC-16 of R447: polynomial 0x1021, initial value 0xFFFF. -/
def crc16 (l : List Byte) : Nat := crcMsb 16 0x1021 0xFFFF l

/-! SHA-256. -/

/-- Rotation of a 32-bit word to the right. -/
def rotr (x : BitVec 32) (n : Nat) : BitVec 32 := x.rotateRight n

/-- The first `n` bits of the integer `k`-th root of `v`, searched from the top, added to `r`. -/
def rootFrom (k v : Nat) : Nat → Nat → Nat
  | 0, r => r
  | n + 1, r => rootFrom k v n (if (r + 2 ^ n) ^ k ≤ v then r + 2 ^ n else r)

/-- A number with no divisor but 1 and itself. -/
def isPrime (p : Nat) : Bool := decide (2 ≤ p) && (List.range p).all (fun d => decide (d < 2) || p % d != 0)

/-- FIPS 180-4 takes its constants from roots of the first primes: here the first 32 bits of the fraction of the `k`-th
root of each prime up to `top`. -/
def rootFractions (k top : Nat) : List (BitVec 32) :=
  ((List.range (top + 1)).filter isPrime).map (fun p => BitVec.ofNat 32 (rootFrom k (p * 2 ^ (32 * k)) 37 0))

/-- The 64 round constants, from cube roots. -/
def shaK : List (BitVec 32) := rootFractions 3 311

/-- The initial hash value, from square roots. -/
def shaH0 : List (BitVec 32) := rootFractions 2 19

/-- The message schedule: 48 words appended to the block's 16, the newest first in the list held. -/
def shaSched : Nat → List (BitVec 32) → List (BitVec 32)
  | 0, w => w
  | n + 1, w =>
    let w2 := w.getD 1 0
    let w7 := w.getD 6 0
    let w15 := w.getD 14 0
    let w16 := w.getD 15 0
    let s0 := rotr w15 7 ^^^ rotr w15 18 ^^^ (w15 >>> 3)
    let s1 := rotr w2 17 ^^^ rotr w2 19 ^^^ (w2 >>> 10)
    shaSched n ((s1 + w7 + s0 + w16) :: w)

/-- One round on the eight working words. -/
def shaRound (v : List (BitVec 32)) (kw : BitVec 32) : List (BitVec 32) :=
  match v with
  | [a, b, c, d, e, f, g, h] =>
    let t1 := h + (rotr e 6 ^^^ rotr e 11 ^^^ rotr e 25) + ((e &&& f) ^^^ (~~~ e &&& g)) + kw
    let t2 := (rotr a 2 ^^^ rotr a 13 ^^^ rotr a 22) + ((a &&& b) ^^^ (a &&& c) ^^^ (b &&& c))
    [t1 + t2, a, b, c, d + t1, e, f, g]
  | _ => v

/-- A 64-byte block taken into the hash value. -/
def shaBlock (h : List (BitVec 32)) (blk : List Byte) : List (BitVec 32) :=
  let w0 := (List.range 16).map (fun i => BitVec.ofNat 32 (ofBytes ((blk.drop (4 * i)).take 4)))
  let w := (shaSched 48 w0.reverse).reverse
  let v := (List.zipWith (· + ·) shaK w).foldl shaRound h
  List.zipWith (· + ·) h v

/-- The blocks of a padded message, `n` of them. -/
def shaBlocks : Nat → List Byte → List (BitVec 32) → List (BitVec 32)
  | 0, _, h => h
  | n + 1, m, h => shaBlocks n (m.drop 64) (shaBlock h (m.take 64))

/-- SHA-256 of a message: 32 bytes. -/
def sha256 (m : List Byte) : List Byte :=
  let zeros := (119 - m.length % 64) % 64
  let p := m ++ [0x80] ++ List.replicate zeros 0 ++ toBytes 8 (8 * m.length)
  (shaBlocks (p.length / 64) p shaH0).flatMap (fun w => toBytes 4 w.toNat)

/-- HMAC-SHA-256. -/
def hmac256 (key msg : List Byte) : List Byte :=
  let k0 := if 64 < key.length then sha256 key else key
  let k := k0 ++ List.replicate (64 - k0.length) 0
  sha256 (k.map (· ^^^ 0x5c) ++ sha256 (k.map (· ^^^ 0x36) ++ msg))

/-! AES (FIPS 197). -/

/-- Multiplication by x in GF(2^8). -/
def xtime (b : Byte) : Byte := if b.getLsbD 7 then (b <<< 1) ^^^ 0x1b else b <<< 1

/-- Multiplication in GF(2^8), over the `n` low bits of the second operand. -/
def gmulN : Nat → Byte → Byte → Byte
  | 0, _, _ => 0
  | n + 1, a, b => (if b.getLsbD 0 then a else 0) ^^^ gmulN n (xtime a) (b >>> 1)

def gmul (a b : Byte) : Byte := gmulN 8 a b

/-- The S-box of FIPS 197, as one number: entry i is byte 255 - i of it. -/
def sboxNum : Nat := 0x637c777bf26b6fc53001672bfed7ab76ca82c97dfa5947f0add4a2af9ca472c0b7fd9326363ff7cc34a5e5f171d8311504c723c31896059a071280e2eb27b27509832c1a1b6e5aa0523bd6b329e32f8453d100ed20fcb15b6acbbe394a4c58cfd0efaafb434d338545f9027f503c9fa851a3408f929d38f5bcb6da2110fff3d2cd0c13ec5f974417c4a77e3d645d197360814fdc222a908846eeb814de5e0bdbe0323a0a4906245cc2d3ac629195e479e7c8376d8dd54ea96c56f4ea657aae08ba78252e1ca6b4c6e8dd741f4bbd8b8a703eb5664803f60e613557b986c11d9ee1f8981169d98e949b1e87e9ce5528df8ca1890dbfe6426841992d0fb054bb16

def sbox (b : Byte) : Byte := BitVec.ofNat 8 (sboxNum / 256 ^ (255 - b.toNat))

/-- The position of a byte in the S-box, searched over `n` values from the top. -/
def invSboxN : Nat → Byte → Byte
  | 0, _ => 0
  | n + 1, b => if sbox (BitVec.ofNat 8 n) = b then BitVec.ofNat 8 n else invSboxN n b

def invSbox (b : Byte) : Byte := invSboxN 256 b

/-- The key schedule: words appended until `n` more stand, the newest first. -/
def aesExpand (nk : Nat) : Nat → Nat → List (List Byte) → List (List Byte)
  | 0, _, w => w
  | n + 1, i, w =>
    let prev := w.getD 0 []
    let back := w.getD (nk - 1) []
    let rcon : Byte := (List.range (i / nk - 1)).foldl (fun r _ => xtime r) 1
    let t :=
      if i % nk = 0 then
        match prev with
        | [a, b, c, d] => [sbox b ^^^ rcon, sbox c, sbox d, sbox a]
        | _ => prev
      else if nk = 8 ∧ i % nk = 4 then prev.map sbox else prev
    aesExpand nk n (i + 1) (List.zipWith (· ^^^ ·) back t :: w)

/-- The round keys of a 16- or 32-byte key, 16 bytes each. -/
def aesKeys (key : List Byte) : List (List Byte) :=
  let nk := key.length / 4
  let w0 := (List.range nk).map (fun i => (key.drop (4 * i)).take 4)
  let ws := (aesExpand nk (4 * (nk + 7) - nk) nk w0.reverse).reverse
  (List.range (nk + 7)).map (fun r => ((ws.drop (4 * r)).take 4).flatten)

def xorBytes (a b : List Byte) : List Byte := List.zipWith (· ^^^ ·) a b

/-- Row shift: byte 4c + r comes from column c + r (or c - r). -/
def shiftRows (s : List Byte) (dir : Nat) : List Byte :=
  (List.range 16).map (fun i => s.getD (4 * ((i / 4 + dir * (i % 4)) % 4) + i % 4) 0)

/-- Column mix with the coefficients of one row. -/
def mixCols (m : List Byte) (s : List Byte) : List Byte :=
  (List.range 16).map (fun i =>
    (List.range 4).foldl (fun a j => a ^^^ gmul (m.getD ((j + 4 - i % 4) % 4) 0) (s.getD (4 * (i / 4) + j) 0)) 0)

/-- Rounds 1 to the last. -/
def aesRounds : List (List Byte) → List Byte → List Byte
  | [], s => s
  | [k], s => xorBytes (shiftRows (s.map sbox) 1) k
  | k :: ks, s => aesRounds ks (xorBytes (mixCols [2, 3, 1, 1] (shiftRows (s.map sbox) 1)) k)

/-- AES encryption of a 16-byte block. -/
def aesEnc (key blk : List Byte) : List Byte :=
  match aesKeys key with
  | [] => blk
  | k0 :: ks => aesRounds ks (xorBytes blk k0)

/-- Inverse rounds, with the round keys in falling order. -/
def aesInvRounds : List (List Byte) → List Byte → List Byte
  | [], s => s
  | [k], s => xorBytes ((shiftRows s 3).map invSbox) k
  | k :: ks, s => aesInvRounds ks (mixCols [14, 11, 13, 9] (xorBytes ((shiftRows s 3).map invSbox) k))

/-- AES decryption of a 16-byte block. -/
def aesDec (key blk : List Byte) : List Byte :=
  match (aesKeys key).reverse with
  | [] => blk
  | k0 :: ks => aesInvRounds ks (xorBytes blk k0)

/-! CCM with a 2-byte length field (SP 800-38C, q = 2, a 13-byte nonce). -/

/-- Bytes padded with zeros to a multiple of 16. -/
def pad16 (l : List Byte) : List Byte := l ++ List.replicate ((16 - l.length % 16) % 16) 0

/-- CBC-MAC over `n` blocks. -/
def cbcMac (key : List Byte) : Nat → List Byte → List Byte → List Byte
  | 0, _, x => x
  | n + 1, m, x => cbcMac key n (m.drop 16) (aesEnc key (xorBytes x (m.take 16)))

/-- The tag of CCM, `t` bytes, before its mask. -/
def ccmMac (key nonce aad msg : List Byte) (t : Nat) : List Byte :=
  let b0 : List Byte :=
    [BitVec.ofNat 8 ((if aad.isEmpty then 0 else 64) + 8 * ((t - 2) / 2) + 1)] ++ nonce ++ toBytes 2 msg.length
  let a := if aad.isEmpty then [] else pad16 (toBytes 2 aad.length ++ aad)
  let m := b0 ++ a ++ pad16 msg
  (cbcMac key (m.length / 16) m (List.replicate 16 0)).take t

/-- The counter-mode stream of `n` blocks from counter `i`. -/
def ctrStream (key nonce : List Byte) : Nat → Nat → List Byte
  | 0, _ => []
  | n + 1, i => aesEnc key ([1] ++ nonce ++ toBytes 2 i) ++ ctrStream key nonce n (i + 1)

/-- A message under the counter stream from counter 1 (encryption and decryption alike). -/
def ccmCrypt (key nonce msg : List Byte) : List Byte :=
  xorBytes msg (ctrStream key nonce ((msg.length + 15) / 16) 1)

/-- The masked tag. -/
def ccmTag (key nonce aad msg : List Byte) (t : Nat) : List Byte :=
  xorBytes (ccmMac key nonce aad msg t) ((ctrStream key nonce 1 0).take t)

/-! Key wrap (RFC 3394, SP 800-38F). -/

/-- `n` unwrap steps from step `t` down, on A and the blocks R, newest step first. -/
def kwUnwrapN (key : List Byte) (cnt : Nat) : Nat → List Byte × List (List Byte) → List Byte × List (List Byte)
  | 0, st => st
  | t + 1, (a, r) =>
    let i := t % cnt
    let b := aesDec key (xorBytes a (toBytes 8 (t + 1)) ++ r.getD i [])
    kwUnwrapN key cnt t (b.take 8, r.set i (b.drop 8))

/-- AES key unwrap: the key data, where the integrity value is right. -/
def kwUnwrap (key blob : List Byte) : Option (List Byte) :=
  let cnt := blob.length / 8 - 1
  let r := (List.range cnt).map (fun i => (blob.drop (8 * (i + 1))).take 8)
  let (a, r') := kwUnwrapN key cnt (6 * cnt) (blob.take 8, r)
  if a = List.replicate 8 0xA6 then some r'.flatten else none

/-- `n` wrap steps from step `t` on, the inverse of the unwrap steps. -/
def kwWrapN (key : List Byte) (cnt : Nat) : Nat → Nat → List Byte × List (List Byte) → List Byte × List (List Byte)
  | 0, _, st => st
  | n + 1, t, (a, r) =>
    let i := t % cnt
    let b := aesEnc key (a ++ r.getD i [])
    kwWrapN key cnt n (t + 1) (xorBytes (b.take 8) (toBytes 8 (t + 1)), r.set i (b.drop 8))

/-- AES key wrap of key data of whole 8-byte blocks. -/
def kwWrap (key data : List Byte) : List Byte :=
  let cnt := data.length / 8
  let r := (List.range cnt).map (fun i => (data.drop (8 * i)).take 8)
  let (a, r') := kwWrapN key cnt (6 * cnt) 0 (List.replicate 8 0xA6, r)
  a ++ r'.flatten

/-- The KDF of R460: counter mode over HMAC-SHA-256 with one 256-bit block, a four-byte label and a context. -/
def kdf256 (key label ctx : List Byte) : List Byte := hmac256 key (toBytes 4 1 ++ label ++ [0] ++ ctx ++ toBytes 4 256)

/-! P-256 (FIPS 186): verification of an ECDSA signature. -/

def p256P : Nat := 0xffffffff00000001000000000000000000000000ffffffffffffffffffffffff
def p256N : Nat := 0xffffffff00000000ffffffffffffffffbce6faada7179e84f3b9cac2fc632551
def p256B : Nat := 0x5ac635d8aa3a93e7b3ebbd55769886bc651d06b0cc53b0f63bce3c3e27d2604b
def p256Gx : Nat := 0x6b17d1f2e12c4247f8bce6e563a440f277037d812deb33a0f4a13945d898c296
def p256Gy : Nat := 0x4fe342e2fe1a7f9b8ee7eb4a7c0f9e162bce33576b315ececbb6406837bf51f5

/-- `b ^ e mod m` over `n` bits of the exponent. -/
def powMod (m : Nat) : Nat → Nat → Nat → Nat → Nat
  | 0, _, _, acc => acc
  | n + 1, b, e, acc => powMod m n (b * b % m) (e / 2) (if e % 2 = 1 then acc * b % m else acc)

/-- The inverse modulo a prime. -/
def invMod (m a : Nat) : Nat := powMod m 256 (a % m) (m - 2) 1

/-- A point of the curve, none at infinity. -/
abbrev EPoint := Option (Nat × Nat)

/-- The sum of two points. -/
def ecAdd (a b : EPoint) : EPoint :=
  match a, b with
  | none, q => q
  | q, none => q
  | some (x1, y1), some (x2, y2) =>
    if x1 = x2 ∧ (y1 + y2) % p256P = 0 then none
    else
      let l := if x1 = x2 then (3 * x1 * x1 + 3 * (p256P - 1)) * invMod p256P (2 * y1) % p256P
               else (y2 + p256P - y1) * invMod p256P (x2 + p256P - x1) % p256P
      let x3 := (l * l + 2 * p256P - x1 - x2) % p256P
      some (x3, (l * (x1 + p256P - x3) + p256P - y1) % p256P)

/-- A multiple of a point over `n` bits. -/
def ecMulN : Nat → Nat → EPoint → EPoint → EPoint
  | 0, _, _, acc => acc
  | n + 1, k, q, acc => ecMulN n (k / 2) (ecAdd q q) (if k % 2 = 1 then ecAdd acc q else acc)

def ecMul (k : Nat) (q : EPoint) : EPoint := ecMulN 256 k q none

/-- A public key lies on the curve. -/
def onCurve (x y : Nat) : Bool :=
  decide (x < p256P) && decide (y < p256P) &&
    decide (y * y % p256P = (x * x * x + (p256P - 3) * x + p256B) % p256P)

/-- ECDSA verification of a 64-byte signature (r, s) over a digest, under a 64-byte public key (x, y). -/
def ecdsaVerify (pub digest sig : List Byte) : Bool :=
  let x := ofBytes (pub.take 32)
  let y := ofBytes (pub.drop 32)
  let r := ofBytes (sig.take 32)
  let t := ofBytes (sig.drop 32)
  if pub.length = 64 ∧ sig.length = 64 ∧ onCurve x y ∧ 0 < r ∧ r < p256N ∧ 0 < t ∧ t < p256N then
    let w := invMod p256N t
    let z := ofBytes digest
    match ecAdd (ecMul (z * w % p256N) (some (p256Gx, p256Gy))) (ecMul (r * w % p256N) (some (x, y))) with
    | none => false
    | some (vx, _) => decide (vx % p256N = r)
  else false

/-- An ECDSA signature under scalar `d` with nonce `k`, as 64 bytes. -/
def ecdsaSign (d k : Nat) (digest : List Byte) : List Byte :=
  let r := match ecMul (k % p256N) (some (p256Gx, p256Gy)) with
    | some (x, _) => x % p256N
    | none => 0
  let z := ofBytes digest
  toBytes 32 r ++ toBytes 32 (invMod p256N k * (z + r * d) % p256N)

/-- CRC-32 of IEEE 802.3 (R270). -/
def crc32 (l : List Byte) : Nat :=
  (l.foldl (fun r b => crcShiftR 0xEDB88320 8 (r ^^^ b.toNat)) 0xFFFFFFFF) ^^^ 0xFFFFFFFF

end Sys2Proof.Machine
end

