-- ==== Sys2Proof/Config.lean ====
section
/-! DEFINITION. What one part fixes for good and what the spec leaves open: fused values and free values. Each is an
opaque constant: nothing can evaluate it, and a statement about it holds for every value. -/

namespace Sys2Proof.Config

/-- The fused EUI-64 of the part (R47, SYS_EUI0 to SYS_EUI3), bits [63:48] first. -/
opaque eui : Nat → Word

/-- The fused trim of IRC (R386, CLK_IRCTRIM). -/
opaque ircTrim : BitVec 8

/-- The nominal code of the calibration reference VREF (R182), which the spec does not give. -/
opaque vrefCode : Nat

/-- The n-th free value: a value that the spec leaves open after a step that goes on. The counter `free` of State
names n, so each use is a value of its own. -/
opaque freeValue : Nat → Nat

/-- The 256-bit root burnt into the fuses (R459), which no register returns. -/
opaque root : Nat

/-- The 40 bytes of the wrapped identity scalar (R459, R463), which only the engine unwraps. -/
opaque idWrapped : Nat

/-- The identity public key as 64 bytes, x then y (R463). -/
opaque idPublic : Nat

/-- The vendor certificate (R463): its length in bytes and its bytes. -/
opaque certLen : Nat
opaque cert : Nat → Byte

end Sys2Proof.Config
end

