-- ==== Sys2Proof/Machine/Regs.lean ====
section
/-! DEFINITION. The register map: every register of every page with its page, offset, index count and fields (R23, R47, R73, R111, R147, R178, R213, R254, R286, R318, R340, R360, R386, R410, R431, R458, R485, R499), the key under which the register file of State holds it, and the merge of a written word by access code (R2). -/

namespace Sys2Proof

/-- The access codes of R2. -/
inductive Acc where
  | rw | ro | w1c | wt | lk
deriving DecidableEq, Repr

/-- One field of a register: bits [hi:lo], its access code and its reset value. -/
structure FieldDef where
  hi  : Nat
  lo  : Nat
  acc : Acc
  rst : Nat
deriving DecidableEq, Repr

/-- One register: its offset in its page, the number of its indexes (1: not indexed, R27), whether it is stored in
the CFG replay banks, and its fields; bits of no field are reserved and read as 0 (R3). -/
structure RegDef where
  off   : Nat
  count : Nat
  cfg   : Bool
  flds  : List FieldDef
deriving DecidableEq, Repr

/-- A named field: the key of its register and its bits. -/
structure Fld where
  key : Nat
  hi  : Nat
  lo  : Nat
deriving DecidableEq, Repr

namespace R

abbrev SYS_ID : Nat := 64
abbrev SYS_REV : Nat := 128
abbrev SYS_MODE : Nat := 192
abbrev SYS_CTL : Nat := 256
abbrev SYS_RSTC : Nat := 320
abbrev SYS_BOOT : Nat := 384
abbrev IRQ_STAT_LO : Nat := 512
abbrev IRQ_STAT_HI : Nat := 576
abbrev IRQ_EN_LO : Nat := 640
abbrev IRQ_EN_HI : Nat := 704
abbrev NMI_STAT : Nat := 768
abbrev EVR_ROUTE0 : Nat := 1024
abbrev EVR_ROUTE1 : Nat := 1088
abbrev EVR_ROUTE2 : Nat := 1152
abbrev EVR_ROUTE3 : Nat := 1216
abbrev EVR_ROUTE4 : Nat := 1280
abbrev EVR_ROUTE5 : Nat := 1344
abbrev EVR_ROUTE6 : Nat := 1408
abbrev EVR_ROUTE7 : Nat := 1472
abbrev EVR_ROUTE8 : Nat := 1536
abbrev EVR_ROUTE9 : Nat := 1600
abbrev EVR_ROUTE10 : Nat := 1664
abbrev EVR_ROUTE11 : Nat := 1728
abbrev EVR_ROUTE12 : Nat := 1792
abbrev EVR_ROUTE13 : Nat := 1856
abbrev EVR_ROUTE14 : Nat := 1920
abbrev EVR_ROUTE15 : Nat := 1984
abbrev EVR_ROUTE16 : Nat := 2048
abbrev EVR_ROUTE17 : Nat := 2112
abbrev EVR_ROUTE18 : Nat := 2176
abbrev EVR_ROUTE19 : Nat := 2240
abbrev EVR_ROUTE20 : Nat := 2304
abbrev EVR_ROUTE21 : Nat := 2368
abbrev EVR_ROUTE22 : Nat := 2432
abbrev EVR_ROUTE23 : Nat := 2496
abbrev EVR_ROUTE24 : Nat := 2560
abbrev EVR_ROUTE25 : Nat := 2624
abbrev EVR_ROUTE26 : Nat := 2688
abbrev EVR_ROUTE27 : Nat := 2752
abbrev EVR_ROUTE28 : Nat := 2816
abbrev EVR_ROUTE29 : Nat := 2880
abbrev EVR_ROUTE30 : Nat := 2944
abbrev EVR_ROUTE31 : Nat := 3008
abbrev HOLD_CTL : Nat := 3072
abbrev HWD_CTL : Nat := 3136
abbrev HWD_KICK : Nat := 3200
abbrev HWD_T : Nat := 3264
abbrev HWD_BOOT_T : Nat := 3328
abbrev SYS_EUI0 : Nat := 3584
abbrev SYS_EUI1 : Nat := 3648
abbrev SYS_EUI2 : Nat := 3712
abbrev SYS_EUI3 : Nat := 3776
abbrev SYS_UNLOCK : Nat := 3840
abbrev CLK_CTL : Nat := 8256
abbrev CLK_STAT : Nat := 8320
abbrev CLK_IRQEN : Nat := 8384
abbrev CLK_CMD : Nat := 8448
abbrev CLK_SPREAD : Nat := 8512
abbrev CLK_XOCNT : Nat := 8576
abbrev CLK_IRCCNT : Nat := 8640
abbrev CLK_IRCTRIM : Nat := 8704
abbrev CLK_GATE_RUN : Nat := 8768
abbrev CLK_GATE_SLP : Nat := 8832
abbrev CLK_GATE_DEEP : Nat := 8896
abbrev CLK_LAST : Nat := 8960
abbrev CLK_FALLCNT : Nat := 9024
abbrev PWR_CTL : Nat := 16448
abbrev PWR_STAT : Nat := 16512
abbrev PWR_IRQEN : Nat := 16576
abbrev PWR_LRST : Nat := 16640
abbrev PWR_LINKUV : Nat := 16704
abbrev PWR_LINKOV : Nat := 16768
abbrev PWR_STALLEN : Nat := 16832
abbrev PWR_TFL : Nat := 16896
abbrev PWR_TREC : Nat := 16960
abbrev PWR_TRPL : Nat := 17024
abbrev KEEP_CTL : Nat := 24640
abbrev KEEP_STAT : Nat := 24704
abbrev KEEP_IRQEN : Nat := 24768
abbrev KEEP_VMAX : Nat := 24832
abbrev KEEP_CAP : Nat := 24896
abbrev KEEP_RESERVE : Nat := 24960
abbrev KEEP_MPP : Nat := 25024
abbrev KEEP_ESTORE_LO : Nat := 25088
abbrev KEEP_ESTORE_HI : Nat := 25152
abbrev KEEP_QCELL_LO : Nat := 25216
abbrev KEEP_QCELL_HI : Nat := 25280
abbrev KEEP_EHARV_LO : Nat := 25344
abbrev KEEP_EHARV_HI : Nat := 25408
abbrev KEEP_VSTORE : Nat := 25472
abbrev KEEP_VCELL : Nat := 25536
abbrev KEEP_RSVREQ_LO : Nat := 25600
abbrev KEEP_RSVREQ_HI : Nat := 25664
abbrev KEEP_RSVUSE_LO : Nat := 25728
abbrev KEEP_RSVUSE_HI : Nat := 25792
abbrev KEEP_LOAD : Nat := 25856
abbrev KEEP_OFFT : Nat := 25920
abbrev PWM_SEL : Nat := 32832
abbrev PWM_ENA : Nat := 32896
abbrev PWM_TRIPSUM : Nat := 32960
abbrev PWM_IRQEN : Nat := 33024
abbrev PWM_STORM : Nat := 33088
abbrev PWM_GTRIP : Nat := 33152
abbrev PWM_TRIPSRC0 : Nat := 33280
abbrev PWM_TRIPSRC1 : Nat := 33344
abbrev PWM_TRIPSRC2 : Nat := 33408
abbrev PWM_TRIPSRC3 : Nat := 33472
abbrev PWM_TRIPMSK0 : Nat := 33536
abbrev PWM_TRIPMSK1 : Nat := 33600
abbrev PWM_TRIPMSK2 : Nat := 33664
abbrev PWM_TRIPMSK3 : Nat := 33728
abbrev PWM_SYNC : Nat := 33792
abbrev PWM_SYNCMSK : Nat := 33856
abbrev PWM_CTL : Nat := 34816
abbrev PWM_PER : Nat := 34880
abbrev PWM_CMPA : Nat := 34944
abbrev PWM_CMPB : Nat := 35008
abbrev PWM_FINE : Nat := 35072
abbrev PWM_PHS : Nat := 35136
abbrev PWM_DT : Nat := 35200
abbrev PWM_BRN : Nat := 35264
abbrev PWM_FORCE : Nat := 35328
abbrev PWM_SAFE : Nat := 35392
abbrev PWM_HOLDTO : Nat := 35456
abbrev PWM_EVCTL : Nat := 35520
abbrev PWM_STAT : Nat := 35584
abbrev PWM_TRIPLAT : Nat := 35648
abbrev PWM_TRIPCLR : Nat := 35712
abbrev PWM_DTMEAS : Nat := 35776
abbrev PWM_CNT : Nat := 35840
abbrev CUR_SEL : Nat := 41024
abbrev CUR_CTL : Nat := 41088
abbrev CUR_STAT : Nat := 41152
abbrev CUR_IRQEN : Nat := 41216
abbrev CUR_DPER : Nat := 41280
abbrev CUR_PHASE : Nat := 41344
abbrev CUR_SS : Nat := 41408
abbrev CUR_LOFS0 : Nat := 41472
abbrev CUR_LOFS1 : Nat := 41536
abbrev CUR_LOFS2 : Nat := 41600
abbrev CUR_LOFS3 : Nat := 41664
abbrev CUR_LOFS4 : Nat := 41728
abbrev CUR_LOFS5 : Nat := 41792
abbrev CUR_LOFS6 : Nat := 41856
abbrev CUR_LOFS7 : Nat := 41920
abbrev CUR_CCFG : Nat := 43008
abbrev CUR_VR : Nat := 43072
abbrev CUR_FLOOR : Nat := 43136
abbrev CUR_SLOPE : Nat := 43200
abbrev CUR_TRIMLIM : Nat := 43264
abbrev CUR_OC : Nat := 43328
abbrev CUR_OV : Nat := 43392
abbrev CUR_MDRV_LO : Nat := 43520
abbrev CUR_MDRV_HI : Nat := 43584
abbrev CUR_DRIVE_LO : Nat := 43648
abbrev CUR_DRIVE_HI : Nat := 43712
abbrev CUR_AMP : Nat := 43776
abbrev CUR_BURST : Nat := 43840
abbrev CUR_FINAL : Nat := 43904
abbrev CUR_KP : Nat := 43968
abbrev CUR_TRIMV : Nat := 44032
abbrev CUR_CSTAT : Nat := 44096
abbrev CUR_LOCKCLR : Nat := 44160
abbrev LMP_SEL : Nat := 49216
abbrev LMP_CTL : Nat := 49280
abbrev LMP_STAT : Nat := 49344
abbrev LMP_IRQEN : Nat := 49408
abbrev LMP_TERR : Nat := 49472
abbrev LMP_TADDR : Nat := 49664
abbrev LMP_TDATA : Nat := 49728
abbrev LMP_TCTL : Nat := 49792
abbrev LMP_CFG : Nat := 50176
abbrev LMP_MAP : Nat := 50240
abbrev LMP_CEIL : Nat := 50304
abbrev LMP_FREF : Nat := 50368
abbrev LMP_WU : Nat := 50432
abbrev LMP_WV : Nat := 50496
abbrev LMP_FREFA : Nat := 50688
abbrev LMP_BOUT : Nat := 50752
abbrev LMP_UOUT : Nat := 50816
abbrev LMP_VOUT : Nat := 50880
abbrev LMP_TEMP : Nat := 50944
abbrev LMP_RATIO : Nat := 51008
abbrev LMP_LSTAT : Nat := 51072
abbrev FDE_SEL : Nat := 57408
abbrev FDE_CTL : Nat := 57472
abbrev FDE_STAT : Nat := 57536
abbrev FDE_IRQEN : Nat := 57600
abbrev FDE_TERR : Nat := 57664
abbrev FDE_TERRA : Nat := 57728
abbrev FDE_TSEL : Nat := 57792
abbrev FDE_TADDR : Nat := 57856
abbrev FDE_TDATA : Nat := 57920
abbrev FDE_TCTL : Nat := 57984
abbrev FDE_PON : Nat := 58048
abbrev FDE_LOSS : Nat := 58112
abbrev FDE_LOSSM : Nat := 58176
abbrev FDE_REL : Nat := 58240
abbrev FDE_GES : Nat := 58304
abbrev FDE_RB : Nat := 58368
abbrev FDE_RC1 : Nat := 58432
abbrev FDE_RC2 : Nat := 58496
abbrev FDE_RT : Nat := 58560
abbrev FDE_RFLG : Nat := 58624
abbrev FDE_RHOLD : Nat := 58688
abbrev FDE_RTIME_LO : Nat := 58752
abbrev FDE_RTIME_HI : Nat := 58816
abbrev FDE_RMS : Nat := 58880
abbrev FDE_RCMD : Nat := 58944
abbrev FDE_RMASK : Nat := 59008
abbrev FDE_RSTAT : Nat := 59072
abbrev FDE_OWN : Nat := 59392
abbrev FDE_LSTAT : Nat := 59456
abbrev FDE_PROG : Nat := 59520
abbrev FDE_TGTB : Nat := 59584
abbrev FDE_TODAY : Nat := 59904
abbrev FDE_SUNR : Nat := 59968
abbrev FDE_SUNS : Nat := 60032
abbrev HLT_SEL : Nat := 65600
abbrev HLT_CTL : Nat := 65664
abbrev HLT_STAT : Nat := 65728
abbrev HLT_IRQEN : Nat := 65792
abbrev HLT_SCFG : Nat := 65856
abbrev HLT_LOCKM : Nat := 65920
abbrev HLT_PROOF : Nat := 65984
abbrev HLT_PRF : Nat := 66048
abbrev HLT_PRFACT : Nat := 66112
abbrev HLT_PRFDEF : Nat := 66176
abbrev HLT_PPT0 : Nat := 66304
abbrev HLT_PPT1 : Nat := 66368
abbrev HLT_PPT2 : Nat := 66432
abbrev HLT_PPT3 : Nat := 66496
abbrev HLT_USCTL : Nat := 66560
abbrev HLT_TERR : Nat := 66624
abbrev HLT_TADDR : Nat := 66816
abbrev HLT_TDATA : Nat := 66880
abbrev HLT_TCTL : Nat := 66944
abbrev HLT_NTC0 : Nat := 67072
abbrev HLT_NTC1 : Nat := 67136
abbrev HLT_NTC2 : Nat := 67200
abbrev HLT_NTC3 : Nat := 67264
abbrev HLT_TDIE : Nat := 67328
abbrev HLT_NTCB : Nat := 67392
abbrev HLT_NTCK : Nat := 67456
abbrev HLT_LSHUNT : Nat := 67584
abbrev HLT_PLINK_LO : Nat := 67712
abbrev HLT_PLINK_HI : Nat := 67776
abbrev HLT_ELINKR : Nat := 67840
abbrev HLT_CCFG : Nat := 68608
abbrev HLT_RS : Nat := 68672
abbrev HLT_LEDW : Nat := 68736
abbrev HLT_DLIM : Nat := 68800
abbrev HLT_DRVLIM : Nat := 68864
abbrev HLT_ULIM : Nat := 68928
abbrev HLT_TLIM : Nat := 68992
abbrev HLT_L70 : Nat := 69056
abbrev HLT_V0 : Nat := 69120
abbrev HLT_R : Nat := 69184
abbrev HLT_KT : Nat := 69248
abbrev HLT_MDL : Nat := 69312
abbrev HLT_ION : Nat := 69376
abbrev HLT_VS : Nat := 69440
abbrev HLT_RESID : Nat := 69504
abbrev HLT_CRES : Nat := 69568
abbrev HLT_CCLS : Nat := 69632
abbrev HLT_LEDCNT : Nat := 69696
abbrev HLT_MFR : Nat := 69760
abbrev HLT_STRS_LO : Nat := 69824
abbrev HLT_STRS_HI : Nat := 69888
abbrev HLT_POUT_LO : Nat := 69952
abbrev HLT_POUT_HI : Nat := 70016
abbrev HLT_EOUTR : Nat := 70080
abbrev HLT_CCTL : Nat := 70144
abbrev HLT_DTREF : Nat := 70208
abbrev PHY_CTL : Nat := 73792
abbrev PHY_STAT : Nat := 73856
abbrev PHY_IRQEN : Nat := 73920
abbrev PHY_BAND : Nat := 73984
abbrev PHY_TXLVL : Nat := 74048
abbrev PHY_AGC : Nat := 74112
abbrev PHY_ZCOFS : Nat := 74176
abbrev PHY_MPER : Nat := 74240
abbrev PHY_CP : Nat := 74304
abbrev PHY_PHS : Nat := 74368
abbrev PHY_SMCFG : Nat := 74432
abbrev PHY_NCFG : Nat := 74496
abbrev PHY_TMCFG : Nat := 74560
abbrev PHY_THRL : Nat := 74624
abbrev PHY_THRH : Nat := 74688
abbrev PHY_TXLAT : Nat := 74752
abbrev PHY_RXLAT : Nat := 74816
abbrev PHY_NMASK_LO : Nat := 74880
abbrev PHY_NMASK_HI : Nat := 74944
abbrev PHY_TSEL : Nat := 75008
abbrev PHY_TADDR : Nat := 75072
abbrev PHY_TDATA : Nat := 75136
abbrev MAC_CTL : Nat := 81984
abbrev MAC_STAT : Nat := 82048
abbrev MAC_IRQEN : Nat := 82112
abbrev MAC_ROLE : Nat := 82176
abbrev MAC_SEG : Nat := 82240
abbrev MAC_SHORT : Nat := 82304
abbrev MAC_PARENT : Nat := 82368
abbrev MAC_POS : Nat := 82432
abbrev MAC_DEP : Nat := 82496
abbrev MAC_AGE : Nat := 82560
abbrev MAC_TXCFG : Nat := 82624
abbrev MAC_BENCH_LO : Nat := 82688
abbrev MAC_BENCH_HI : Nat := 82752
abbrev MAC_GRID : Nat := 82816
abbrev MAC_HEAD : Nat := 82880
abbrev MAC_DEPA : Nat := 82944
abbrev MAC_BSINCE : Nat := 83008
abbrev MAC_GRP0 : Nat := 83200
abbrev MAC_GRP1 : Nat := 83264
abbrev MAC_GRP2 : Nat := 83328
abbrev MAC_GRP3 : Nat := 83392
abbrev MAC_RMAP0 : Nat := 83456
abbrev MAC_RMAP1 : Nat := 83520
abbrev MAC_RMAP2 : Nat := 83584
abbrev MAC_RMAP3 : Nat := 83648
abbrev MAC_RSVSEL : Nat := 83712
abbrev MAC_RSV : Nat := 83776
abbrev MAC_RSEL : Nat := 83968
abbrev MAC_RDATA : Nat := 84032
abbrev MAC_RCTL : Nat := 84096
abbrev MAC_RLVL0 : Nat := 84480
abbrev MAC_RLVL1 : Nat := 84544
abbrev MAC_RLVL2 : Nat := 84608
abbrev MAC_RLVL3 : Nat := 84672
abbrev MAC_RLVL4 : Nat := 84736
abbrev MAC_RLVL5 : Nat := 84800
abbrev MAC_RLVL6 : Nat := 84864
abbrev MAC_RLVL7 : Nat := 84928
abbrev MAC_TXCNT : Nat := 84992
abbrev MAC_RXCNT : Nat := 85056
abbrev MAC_ACKFCNT : Nat := 85120
abbrev MAC_DROPCNT : Nat := 85184
abbrev MAC_RXERR : Nat := 85248
abbrev CMD_CTL : Nat := 90176
abbrev CMD_STAT : Nat := 90240
abbrev CMD_IRQEN : Nat := 90304
abbrev CMD_SPER : Nat := 90368
abbrev CMD_EPER : Nat := 90432
abbrev CMD_HPER : Nat := 90496
abbrev CMD_ALM : Nat := 90560
abbrev CMD_ALMGAP : Nat := 90624
abbrev CMD_LAST : Nat := 90688
abbrev CMD_CNT : Nat := 90752
abbrev CMD_REFCNT : Nat := 90816
abbrev CMD_RSEQ : Nat := 90880
abbrev CMD_BHDL : Nat := 91136
abbrev CMD_BLEN_LO : Nat := 91200
abbrev CMD_BLEN_HI : Nat := 91264
abbrev CMD_BRCV : Nat := 91328
abbrev CMD_BNBLK : Nat := 91392
abbrev CMD_BCODE : Nat := 91456
abbrev TIM_CTL : Nat := 98368
abbrev TIM_STAT : Nat := 98432
abbrev TIM_IRQEN : Nat := 98496
abbrev TIM_EVT : Nat := 98560
abbrev TIM_FLG : Nat := 98624
abbrev TIM_OFFSET : Nat := 98688
abbrev TIM_LOOP : Nat := 98752
abbrev TIM_LIM : Nat := 98816
abbrev TIM_STEPLIM : Nat := 98880
abbrev TIM_PDLY : Nat := 98944
abbrev TIM_THETA : Nat := 99008
abbrev TIM_KFERR : Nat := 99072
abbrev TIM_KTC : Nat := 99136
abbrev TIM_CAPSRC : Nat := 99200
abbrev TIM_CMD : Nat := 99264
abbrev TIM_SEC_LO : Nat := 99328
abbrev TIM_SEC_HI : Nat := 99392
abbrev TIM_SNAPF_LO : Nat := 99456
abbrev TIM_SNAPF_HI : Nat := 99520
abbrev TIM_SETS_LO : Nat := 99584
abbrev TIM_SETS_HI : Nat := 99648
abbrev TIM_SETF_LO : Nat := 99712
abbrev TIM_SETF_HI : Nat := 99776
abbrev TIM_FREQ_LO : Nat := 99840
abbrev TIM_FREQ_HI : Nat := 99904
abbrev TIM_STEPL_LO : Nat := 99968
abbrev TIM_STEPL_HI : Nat := 100032
abbrev TIM_STEPH_LO : Nat := 100096
abbrev TIM_STEPH_HI : Nat := 100160
abbrev TIM_CAPS_LO : Nat := 100352
abbrev TIM_CAPS_HI : Nat := 100416
abbrev TIM_CAPF_LO : Nat := 100480
abbrev TIM_CAPF_HI : Nat := 100544
abbrev TIM_AL0S_LO : Nat := 100864
abbrev TIM_AL0S_HI : Nat := 100928
abbrev TIM_AL0F_LO : Nat := 100992
abbrev TIM_AL0F_HI : Nat := 101056
abbrev TIM_AL0CTL : Nat := 101120
abbrev TIM_AL1S_LO : Nat := 101376
abbrev TIM_AL1S_HI : Nat := 101440
abbrev TIM_AL1F_LO : Nat := 101504
abbrev TIM_AL1F_HI : Nat := 101568
abbrev TIM_AL1CTL : Nat := 101632
abbrev TIM_AL2S_LO : Nat := 101888
abbrev TIM_AL2S_HI : Nat := 101952
abbrev TIM_AL2F_LO : Nat := 102016
abbrev TIM_AL2F_HI : Nat := 102080
abbrev TIM_AL2CTL : Nat := 102144
abbrev TIM_AL3S_LO : Nat := 102400
abbrev TIM_AL3S_HI : Nat := 102464
abbrev TIM_AL3F_LO : Nat := 102528
abbrev TIM_AL3F_HI : Nat := 102592
abbrev TIM_AL3CTL : Nat := 102656
abbrev GTU_SEL : Nat := 106560
abbrev GTU_ENA : Nat := 106624
abbrev GTU_SLEEP : Nat := 106688
abbrev GTU_PINS : Nat := 106752
abbrev GTU_TRG : Nat := 106816
abbrev GTU_CTL : Nat := 107520
abbrev GTU_PIN : Nat := 107584
abbrev GTU_CAPCTL : Nat := 107648
abbrev GTU_ACT0 : Nat := 107712
abbrev GTU_ACT1 : Nat := 107776
abbrev GTU_IE : Nat := 107840
abbrev GTU_CNT_LO : Nat := 107904
abbrev GTU_CNT_HI : Nat := 107968
abbrev GTU_TOP_LO : Nat := 108032
abbrev GTU_TOP_HI : Nat := 108096
abbrev GTU_CMP0_LO : Nat := 108160
abbrev GTU_CMP0_HI : Nat := 108224
abbrev GTU_CMP1_LO : Nat := 108288
abbrev GTU_CMP1_HI : Nat := 108352
abbrev GTU_CAP_LO : Nat := 108416
abbrev GTU_CAP_HI : Nat := 108480
abbrev GTU_CSTAT : Nat := 108544
abbrev VLT_CTL : Nat := 114752
abbrev VLT_STAT : Nat := 114816
abbrev VLT_IRQEN : Nat := 114880
abbrev VLT_CMD : Nat := 114944
abbrev VLT_ERR : Nat := 115008
abbrev VLT_FILL : Nat := 115072
abbrev VLT_CNUM_LO : Nat := 115200
abbrev VLT_CNUM_HI : Nat := 115264
abbrev VLT_RSEL : Nat := 115328
abbrev VLT_RADDR : Nat := 115392
abbrev VLT_RDATA : Nat := 115456
abbrev VLT_PWD : Nat := 115520
abbrev VLT_PWST : Nat := 115584
abbrev VLT_LEGSEQ : Nat := 115648
abbrev HAT_SEL : Nat := 115712
abbrev HAT_VAL_LO : Nat := 115776
abbrev HAT_VAL_HI : Nat := 115840
abbrev HAT_INC : Nat := 115904
abbrev HAT_EPOCH_LO : Nat := 115968
abbrev HAT_EPOCH_HI : Nat := 116032
abbrev SEC_CTL : Nat := 122944
abbrev SEC_STAT : Nat := 123008
abbrev SEC_IRQEN : Nat := 123072
abbrev SEC_CMD : Nat := 123136
abbrev SEC_RESULT : Nat := 123200
abbrev SEC_SLOT_SEL : Nat := 123264
abbrev SEC_SLOT : Nat := 123328
abbrev SEC_KID : Nat := 123392
abbrev SEC_KDATA : Nat := 123456
abbrev SEC_TXG0 : Nat := 123520
abbrev SEC_TXG1 : Nat := 123584
abbrev SEC_FCNT_LO : Nat := 123648
abbrev SEC_FCNT_HI : Nat := 123712
abbrev SEC_TSEL : Nat := 123776
abbrev SEC_TADDR : Nat := 123840
abbrev SEC_TDATA : Nat := 123904
abbrev SEC_CERTLEN : Nat := 123968
abbrev SEC_DROPKEY : Nat := 124032
abbrev SEC_DROPSRC : Nat := 124096
abbrev SEC_DROPRPL : Nat := 124160
abbrev SEC_DROPMIC : Nat := 124224
abbrev LOG_STAT : Nat := 131136
abbrev LOG_IRQEN : Nat := 131200
abbrev LOG_HEAD : Nat := 131264
abbrev LOG_SFILL : Nat := 131328
abbrev LOG_WCNT_LO : Nat := 131392
abbrev LOG_WCNT_HI : Nat := 131456
abbrev LOG_DROP : Nat := 131520
abbrev LOG_SEAL : Nat := 131584
abbrev LOG_HDET : Nat := 131648
abbrev LOG_HPOST : Nat := 131712

end R

namespace F

abbrev SYS_ID_ID : Fld := ⟨64, 15, 0⟩
abbrev SYS_REV_MAJOR : Fld := ⟨128, 15, 8⟩
abbrev SYS_REV_MINOR : Fld := ⟨128, 7, 0⟩
abbrev SYS_MODE_HOLD : Fld := ⟨192, 5, 5⟩
abbrev SYS_MODE_STRAP : Fld := ⟨192, 4, 4⟩
abbrev SYS_MODE_HOST : Fld := ⟨192, 3, 3⟩
abbrev SYS_MODE_STATE : Fld := ⟨192, 1, 0⟩
abbrev SYS_CTL_KEY : Fld := ⟨256, 15, 8⟩
abbrev SYS_CTL_HOLD : Fld := ⟨256, 2, 2⟩
abbrev SYS_CTL_SOFTRST : Fld := ⟨256, 1, 1⟩
abbrev SYS_CTL_GO : Fld := ⟨256, 0, 0⟩
abbrev SYS_RSTC_STALLPG : Fld := ⟨320, 12, 8⟩
abbrev SYS_RSTC_STALL : Fld := ⟨320, 5, 5⟩
abbrev SYS_RSTC_HWDF : Fld := ⟨320, 4, 4⟩
abbrev SYS_RSTC_BOR : Fld := ⟨320, 3, 3⟩
abbrev SYS_RSTC_PIN : Fld := ⟨320, 2, 2⟩
abbrev SYS_RSTC_VRET : Fld := ⟨320, 1, 1⟩
abbrev SYS_RSTC_KPOR : Fld := ⟨320, 0, 0⟩
abbrev SYS_BOOT_STFAIL : Fld := ⟨384, 9, 9⟩
abbrev SYS_BOOT_KATIME : Fld := ⟨384, 8, 8⟩
abbrev SYS_BOOT_RETLOST : Fld := ⟨384, 7, 7⟩
abbrev SYS_BOOT_TABDEF : Fld := ⟨384, 6, 6⟩
abbrev SYS_BOOT_CFGDEF : Fld := ⟨384, 5, 5⟩
abbrev SYS_BOOT_STANDALONE : Fld := ⟨384, 4, 4⟩
abbrev SYS_BOOT_VREC : Fld := ⟨384, 3, 2⟩
abbrev SYS_BOOT_TABBANK : Fld := ⟨384, 1, 1⟩
abbrev SYS_BOOT_CFGBANK : Fld := ⟨384, 0, 0⟩
abbrev IRQ_STAT_LO_Q6_to_Q0 : Fld := ⟨512, 15, 9⟩
abbrev IRQ_STAT_LO_PHY : Fld := ⟨512, 8, 8⟩
abbrev IRQ_STAT_LO_HLT : Fld := ⟨512, 7, 7⟩
abbrev IRQ_STAT_LO_FDE : Fld := ⟨512, 6, 6⟩
abbrev IRQ_STAT_LO_LMP : Fld := ⟨512, 5, 5⟩
abbrev IRQ_STAT_LO_CUR : Fld := ⟨512, 4, 4⟩
abbrev IRQ_STAT_LO_PWMTRIP : Fld := ⟨512, 3, 3⟩
abbrev IRQ_STAT_LO_KEEP : Fld := ⟨512, 2, 2⟩
abbrev IRQ_STAT_LO_PWR : Fld := ⟨512, 1, 1⟩
abbrev IRQ_STAT_LO_CLK : Fld := ⟨512, 0, 0⟩
abbrev IRQ_STAT_HI_EVRU : Fld := ⟨576, 15, 15⟩
abbrev IRQ_STAT_HI_LOG : Fld := ⟨576, 14, 14⟩
abbrev IRQ_STAT_HI_SEC : Fld := ⟨576, 13, 13⟩
abbrev IRQ_STAT_HI_VLTERR : Fld := ⟨576, 12, 12⟩
abbrev IRQ_STAT_HI_VLTDONE : Fld := ⟨576, 11, 11⟩
abbrev IRQ_STAT_HI_GT7_to_GT0 : Fld := ⟨576, 10, 3⟩
abbrev IRQ_STAT_HI_TIMLK : Fld := ⟨576, 2, 2⟩
abbrev IRQ_STAT_HI_TIMAL : Fld := ⟨576, 1, 1⟩
abbrev IRQ_STAT_HI_Q7 : Fld := ⟨576, 0, 0⟩
abbrev IRQ_EN_LO_Q6_to_Q0 : Fld := ⟨640, 15, 9⟩
abbrev IRQ_EN_LO_PHY : Fld := ⟨640, 8, 8⟩
abbrev IRQ_EN_LO_HLT : Fld := ⟨640, 7, 7⟩
abbrev IRQ_EN_LO_FDE : Fld := ⟨640, 6, 6⟩
abbrev IRQ_EN_LO_LMP : Fld := ⟨640, 5, 5⟩
abbrev IRQ_EN_LO_CUR : Fld := ⟨640, 4, 4⟩
abbrev IRQ_EN_LO_PWMTRIP : Fld := ⟨640, 3, 3⟩
abbrev IRQ_EN_LO_KEEP : Fld := ⟨640, 2, 2⟩
abbrev IRQ_EN_LO_PWR : Fld := ⟨640, 1, 1⟩
abbrev IRQ_EN_LO_CLK : Fld := ⟨640, 0, 0⟩
abbrev IRQ_EN_HI_EVRU : Fld := ⟨704, 15, 15⟩
abbrev IRQ_EN_HI_LOG : Fld := ⟨704, 14, 14⟩
abbrev IRQ_EN_HI_SEC : Fld := ⟨704, 13, 13⟩
abbrev IRQ_EN_HI_VLTERR : Fld := ⟨704, 12, 12⟩
abbrev IRQ_EN_HI_VLTDONE : Fld := ⟨704, 11, 11⟩
abbrev IRQ_EN_HI_GT7_to_GT0 : Fld := ⟨704, 10, 3⟩
abbrev IRQ_EN_HI_TIMLK : Fld := ⟨704, 2, 2⟩
abbrev IRQ_EN_HI_TIMAL : Fld := ⟨704, 1, 1⟩
abbrev IRQ_EN_HI_Q7 : Fld := ⟨704, 0, 0⟩
abbrev NMI_STAT_VLTF : Fld := ⟨768, 4, 4⟩
abbrev NMI_STAT_STORM : Fld := ⟨768, 3, 3⟩
abbrev NMI_STAT_BOR : Fld := ⟨768, 2, 2⟩
abbrev NMI_STAT_VAUXW : Fld := ⟨768, 1, 1⟩
abbrev NMI_STAT_CLKF : Fld := ⟨768, 0, 0⟩
abbrev EVR_ROUTE0_DST : Fld := ⟨1024, 15, 8⟩
abbrev EVR_ROUTE0_SRC : Fld := ⟨1024, 7, 0⟩
abbrev EVR_ROUTE1_DST : Fld := ⟨1088, 15, 8⟩
abbrev EVR_ROUTE1_SRC : Fld := ⟨1088, 7, 0⟩
abbrev EVR_ROUTE2_DST : Fld := ⟨1152, 15, 8⟩
abbrev EVR_ROUTE2_SRC : Fld := ⟨1152, 7, 0⟩
abbrev EVR_ROUTE3_DST : Fld := ⟨1216, 15, 8⟩
abbrev EVR_ROUTE3_SRC : Fld := ⟨1216, 7, 0⟩
abbrev EVR_ROUTE4_DST : Fld := ⟨1280, 15, 8⟩
abbrev EVR_ROUTE4_SRC : Fld := ⟨1280, 7, 0⟩
abbrev EVR_ROUTE5_DST : Fld := ⟨1344, 15, 8⟩
abbrev EVR_ROUTE5_SRC : Fld := ⟨1344, 7, 0⟩
abbrev EVR_ROUTE6_DST : Fld := ⟨1408, 15, 8⟩
abbrev EVR_ROUTE6_SRC : Fld := ⟨1408, 7, 0⟩
abbrev EVR_ROUTE7_DST : Fld := ⟨1472, 15, 8⟩
abbrev EVR_ROUTE7_SRC : Fld := ⟨1472, 7, 0⟩
abbrev EVR_ROUTE8_DST : Fld := ⟨1536, 15, 8⟩
abbrev EVR_ROUTE8_SRC : Fld := ⟨1536, 7, 0⟩
abbrev EVR_ROUTE9_DST : Fld := ⟨1600, 15, 8⟩
abbrev EVR_ROUTE9_SRC : Fld := ⟨1600, 7, 0⟩
abbrev EVR_ROUTE10_DST : Fld := ⟨1664, 15, 8⟩
abbrev EVR_ROUTE10_SRC : Fld := ⟨1664, 7, 0⟩
abbrev EVR_ROUTE11_DST : Fld := ⟨1728, 15, 8⟩
abbrev EVR_ROUTE11_SRC : Fld := ⟨1728, 7, 0⟩
abbrev EVR_ROUTE12_DST : Fld := ⟨1792, 15, 8⟩
abbrev EVR_ROUTE12_SRC : Fld := ⟨1792, 7, 0⟩
abbrev EVR_ROUTE13_DST : Fld := ⟨1856, 15, 8⟩
abbrev EVR_ROUTE13_SRC : Fld := ⟨1856, 7, 0⟩
abbrev EVR_ROUTE14_DST : Fld := ⟨1920, 15, 8⟩
abbrev EVR_ROUTE14_SRC : Fld := ⟨1920, 7, 0⟩
abbrev EVR_ROUTE15_DST : Fld := ⟨1984, 15, 8⟩
abbrev EVR_ROUTE15_SRC : Fld := ⟨1984, 7, 0⟩
abbrev EVR_ROUTE16_DST : Fld := ⟨2048, 15, 8⟩
abbrev EVR_ROUTE16_SRC : Fld := ⟨2048, 7, 0⟩
abbrev EVR_ROUTE17_DST : Fld := ⟨2112, 15, 8⟩
abbrev EVR_ROUTE17_SRC : Fld := ⟨2112, 7, 0⟩
abbrev EVR_ROUTE18_DST : Fld := ⟨2176, 15, 8⟩
abbrev EVR_ROUTE18_SRC : Fld := ⟨2176, 7, 0⟩
abbrev EVR_ROUTE19_DST : Fld := ⟨2240, 15, 8⟩
abbrev EVR_ROUTE19_SRC : Fld := ⟨2240, 7, 0⟩
abbrev EVR_ROUTE20_DST : Fld := ⟨2304, 15, 8⟩
abbrev EVR_ROUTE20_SRC : Fld := ⟨2304, 7, 0⟩
abbrev EVR_ROUTE21_DST : Fld := ⟨2368, 15, 8⟩
abbrev EVR_ROUTE21_SRC : Fld := ⟨2368, 7, 0⟩
abbrev EVR_ROUTE22_DST : Fld := ⟨2432, 15, 8⟩
abbrev EVR_ROUTE22_SRC : Fld := ⟨2432, 7, 0⟩
abbrev EVR_ROUTE23_DST : Fld := ⟨2496, 15, 8⟩
abbrev EVR_ROUTE23_SRC : Fld := ⟨2496, 7, 0⟩
abbrev EVR_ROUTE24_DST : Fld := ⟨2560, 15, 8⟩
abbrev EVR_ROUTE24_SRC : Fld := ⟨2560, 7, 0⟩
abbrev EVR_ROUTE25_DST : Fld := ⟨2624, 15, 8⟩
abbrev EVR_ROUTE25_SRC : Fld := ⟨2624, 7, 0⟩
abbrev EVR_ROUTE26_DST : Fld := ⟨2688, 15, 8⟩
abbrev EVR_ROUTE26_SRC : Fld := ⟨2688, 7, 0⟩
abbrev EVR_ROUTE27_DST : Fld := ⟨2752, 15, 8⟩
abbrev EVR_ROUTE27_SRC : Fld := ⟨2752, 7, 0⟩
abbrev EVR_ROUTE28_DST : Fld := ⟨2816, 15, 8⟩
abbrev EVR_ROUTE28_SRC : Fld := ⟨2816, 7, 0⟩
abbrev EVR_ROUTE29_DST : Fld := ⟨2880, 15, 8⟩
abbrev EVR_ROUTE29_SRC : Fld := ⟨2880, 7, 0⟩
abbrev EVR_ROUTE30_DST : Fld := ⟨2944, 15, 8⟩
abbrev EVR_ROUTE30_SRC : Fld := ⟨2944, 7, 0⟩
abbrev EVR_ROUTE31_DST : Fld := ⟨3008, 15, 8⟩
abbrev EVR_ROUTE31_SRC : Fld := ⟨3008, 7, 0⟩
abbrev HOLD_CTL_HACT : Fld := ⟨3072, 15, 15⟩
abbrev HOLD_CTL_SRV : Fld := ⟨3072, 2, 2⟩
abbrev HOLD_CTL_FDE : Fld := ⟨3072, 1, 1⟩
abbrev HOLD_CTL_JTAGEN : Fld := ⟨3072, 0, 0⟩
abbrev HWD_CTL_ARMED : Fld := ⟨3136, 3, 3⟩
abbrev HWD_CTL_EXP : Fld := ⟨3136, 2, 2⟩
abbrev HWD_CTL_BADK : Fld := ⟨3136, 1, 1⟩
abbrev HWD_CTL_EN : Fld := ⟨3136, 0, 0⟩
abbrev HWD_KICK_KICK : Fld := ⟨3200, 15, 0⟩
abbrev HWD_T_T : Fld := ⟨3264, 15, 0⟩
abbrev HWD_BOOT_T_T : Fld := ⟨3328, 15, 0⟩
abbrev SYS_EUI0_EUI : Fld := ⟨3584, 15, 0⟩
abbrev SYS_EUI1_EUI : Fld := ⟨3648, 15, 0⟩
abbrev SYS_EUI2_EUI : Fld := ⟨3712, 15, 0⟩
abbrev SYS_EUI3_EUI : Fld := ⟨3776, 15, 0⟩
abbrev SYS_UNLOCK_OPEN : Fld := ⟨3840, 0, 0⟩
abbrev CLK_CTL_XORET : Fld := ⟨8256, 2, 2⟩
abbrev CLK_CTL_IRC_KEEP : Fld := ⟨8256, 0, 0⟩
abbrev CLK_STAT_ROOTSRC : Fld := ⟨8320, 15, 15⟩
abbrev CLK_STAT_XOQ : Fld := ⟨8320, 14, 14⟩
abbrev CLK_STAT_PLLLK : Fld := ⟨8320, 13, 13⟩
abbrev CLK_STAT_IRCON : Fld := ⟨8320, 12, 12⟩
abbrev CLK_STAT_KSRC : Fld := ⟨8320, 11, 11⟩
abbrev CLK_STAT_IRCQ : Fld := ⟨8320, 10, 10⟩
abbrev CLK_STAT_XOTO : Fld := ⟨8320, 5, 5⟩
abbrev CLK_STAT_KXOF : Fld := ⟨8320, 4, 4⟩
abbrev CLK_STAT_IRCF : Fld := ⟨8320, 3, 3⟩
abbrev CLK_STAT_RET : Fld := ⟨8320, 2, 2⟩
abbrev CLK_STAT_PLLF : Fld := ⟨8320, 1, 1⟩
abbrev CLK_STAT_XOF : Fld := ⟨8320, 0, 0⟩
abbrev CLK_IRQEN_STAT : Fld := ⟨8384, 5, 0⟩
abbrev CLK_CMD_CMD : Fld := ⟨8448, 1, 0⟩
abbrev CLK_SPREAD_EN : Fld := ⟨8512, 15, 15⟩
abbrev CLK_SPREAD_SHAPE : Fld := ⟨8512, 14, 14⟩
abbrev CLK_SPREAD_DEPTH : Fld := ⟨8512, 12, 8⟩
abbrev CLK_SPREAD_RATE : Fld := ⟨8512, 5, 0⟩
abbrev CLK_XOCNT_N : Fld := ⟨8576, 15, 0⟩
abbrev CLK_IRCCNT_N : Fld := ⟨8640, 15, 0⟩
abbrev CLK_IRCTRIM_TRIM : Fld := ⟨8704, 7, 0⟩
abbrev CLK_GATE_RUN_LOG : Fld := ⟨8768, 11, 11⟩
abbrev CLK_GATE_RUN_SEC : Fld := ⟨8768, 10, 10⟩
abbrev CLK_GATE_RUN_VLT : Fld := ⟨8768, 9, 9⟩
abbrev CLK_GATE_RUN_GTU : Fld := ⟨8768, 8, 8⟩
abbrev CLK_GATE_RUN_TIM : Fld := ⟨8768, 7, 7⟩
abbrev CLK_GATE_RUN_LINE : Fld := ⟨8768, 5, 5⟩
abbrev CLK_GATE_RUN_HLT : Fld := ⟨8768, 4, 4⟩
abbrev CLK_GATE_RUN_FDE : Fld := ⟨8768, 3, 3⟩
abbrev CLK_GATE_RUN_LMP : Fld := ⟨8768, 2, 2⟩
abbrev CLK_GATE_RUN_CUR : Fld := ⟨8768, 1, 1⟩
abbrev CLK_GATE_RUN_PWM : Fld := ⟨8768, 0, 0⟩
abbrev CLK_GATE_SLP_LOG : Fld := ⟨8832, 11, 11⟩
abbrev CLK_GATE_SLP_SEC : Fld := ⟨8832, 10, 10⟩
abbrev CLK_GATE_SLP_VLT : Fld := ⟨8832, 9, 9⟩
abbrev CLK_GATE_SLP_GTU : Fld := ⟨8832, 8, 8⟩
abbrev CLK_GATE_SLP_TIM : Fld := ⟨8832, 7, 7⟩
abbrev CLK_GATE_SLP_LINE : Fld := ⟨8832, 5, 5⟩
abbrev CLK_GATE_SLP_HLT : Fld := ⟨8832, 4, 4⟩
abbrev CLK_GATE_SLP_FDE : Fld := ⟨8832, 3, 3⟩
abbrev CLK_GATE_SLP_LMP : Fld := ⟨8832, 2, 2⟩
abbrev CLK_GATE_SLP_CUR : Fld := ⟨8832, 1, 1⟩
abbrev CLK_GATE_SLP_PWM : Fld := ⟨8832, 0, 0⟩
abbrev CLK_GATE_DEEP_KTS : Fld := ⟨8896, 2, 2⟩
abbrev CLK_GATE_DEEP_GES : Fld := ⟨8896, 1, 1⟩
abbrev CLK_GATE_DEEP_HARV : Fld := ⟨8896, 0, 0⟩
abbrev CLK_LAST_FCNT : Fld := ⟨8960, 15, 8⟩
abbrev CLK_LAST_FATAL : Fld := ⟨8960, 0, 0⟩
abbrev CLK_FALLCNT_N : Fld := ⟨9024, 15, 0⟩
abbrev PWR_CTL_DROP : Fld := ⟨16448, 11, 8⟩
abbrev PWR_CTL_ZCSML : Fld := ⟨16448, 0, 0⟩
abbrev PWR_STAT_VAUXG : Fld := ⟨16512, 15, 15⟩
abbrev PWR_STAT_VDRVG : Fld := ⟨16512, 14, 14⟩
abbrev PWR_STAT_VLDG : Fld := ⟨16512, 13, 13⟩
abbrev PWR_STAT_VHIOG : Fld := ⟨16512, 12, 12⟩
abbrev PWR_STAT_AVDDG : Fld := ⟨16512, 11, 11⟩
abbrev PWR_STAT_LINKUVL : Fld := ⟨16512, 10, 10⟩
abbrev PWR_STAT_LINKOVL : Fld := ⟨16512, 9, 9⟩
abbrev PWR_STAT_FALL : Fld := ⟨16512, 8, 8⟩
abbrev PWR_STAT_AVDDF : Fld := ⟨16512, 4, 4⟩
abbrev PWR_STAT_LINKOV : Fld := ⟨16512, 3, 3⟩
abbrev PWR_STAT_LINKUV : Fld := ⟨16512, 2, 2⟩
abbrev PWR_STAT_VLDUV : Fld := ⟨16512, 1, 1⟩
abbrev PWR_STAT_VDRVUV : Fld := ⟨16512, 0, 0⟩
abbrev PWR_IRQEN_STAT : Fld := ⟨16576, 4, 0⟩
abbrev PWR_LRST_PREV : Fld := ⟨16640, 11, 8⟩
abbrev PWR_LRST_CAUSE : Fld := ⟨16640, 3, 0⟩
abbrev PWR_LINKUV_UV : Fld := ⟨16704, 7, 0⟩
abbrev PWR_LINKOV_OV : Fld := ⟨16768, 7, 0⟩
abbrev PWR_STALLEN_EN : Fld := ⟨16832, 9, 0⟩
abbrev PWR_TFL_T : Fld := ⟨16896, 15, 0⟩
abbrev PWR_TREC_T : Fld := ⟨16960, 15, 0⟩
abbrev PWR_TRPL_T : Fld := ⟨17024, 15, 0⟩
abbrev KEEP_CTL_ICHG : Fld := ⟨24640, 7, 5⟩
abbrev KEEP_CTL_CELLEN : Fld := ⟨24640, 2, 2⟩
abbrev KEEP_CTL_CHGEN : Fld := ⟨24640, 1, 1⟩
abbrev KEEP_CTL_HEN : Fld := ⟨24640, 0, 0⟩
abbrev KEEP_STAT_SRC : Fld := ⟨24704, 15, 14⟩
abbrev KEEP_STAT_HACT : Fld := ⟨24704, 13, 13⟩
abbrev KEEP_STAT_CHG : Fld := ⟨24704, 12, 12⟩
abbrev KEEP_STAT_FULL : Fld := ⟨24704, 11, 11⟩
abbrev KEEP_STAT_KRAMERR : Fld := ⟨24704, 5, 5⟩
abbrev KEEP_STAT_CELLLOW : Fld := ⟨24704, 4, 4⟩
abbrev KEEP_STAT_CELLSW : Fld := ⟨24704, 3, 3⟩
abbrev KEEP_STAT_RSVREF : Fld := ⟨24704, 2, 2⟩
abbrev KEEP_STAT_MPPERR : Fld := ⟨24704, 1, 1⟩
abbrev KEEP_STAT_STLOW : Fld := ⟨24704, 0, 0⟩
abbrev KEEP_IRQEN_STAT : Fld := ⟨24768, 5, 0⟩
abbrev KEEP_VMAX_V : Fld := ⟨24832, 8, 0⟩
abbrev KEEP_CAP_C : Fld := ⟨24896, 15, 0⟩
abbrev KEEP_RESERVE_E : Fld := ⟨24960, 15, 0⟩
abbrev KEEP_MPP_V : Fld := ⟨25024, 15, 0⟩
abbrev KEEP_ESTORE_LO_V : Fld := ⟨25088, 15, 0⟩
abbrev KEEP_ESTORE_HI_V : Fld := ⟨25152, 15, 0⟩
abbrev KEEP_QCELL_LO_V : Fld := ⟨25216, 15, 0⟩
abbrev KEEP_QCELL_HI_V : Fld := ⟨25280, 15, 0⟩
abbrev KEEP_EHARV_LO_V : Fld := ⟨25344, 15, 0⟩
abbrev KEEP_EHARV_HI_V : Fld := ⟨25408, 15, 0⟩
abbrev KEEP_VSTORE_V : Fld := ⟨25472, 15, 0⟩
abbrev KEEP_VCELL_V : Fld := ⟨25536, 15, 0⟩
abbrev KEEP_RSVREQ_LO_E : Fld := ⟨25600, 15, 0⟩
abbrev KEEP_RSVREQ_HI_E : Fld := ⟨25664, 15, 0⟩
abbrev KEEP_RSVUSE_LO_E : Fld := ⟨25728, 15, 0⟩
abbrev KEEP_RSVUSE_HI_E : Fld := ⟨25792, 15, 0⟩
abbrev KEEP_LOAD_CLASS : Fld := ⟨25856, 3, 0⟩
abbrev KEEP_OFFT_CLS : Fld := ⟨25920, 15, 14⟩
abbrev KEEP_OFFT_T : Fld := ⟨25920, 13, 0⟩
abbrev PWM_SEL_CH : Fld := ⟨32832, 4, 0⟩
abbrev PWM_ENA_EN : Fld := ⟨32896, 15, 0⟩
abbrev PWM_TRIPSUM_T : Fld := ⟨32960, 15, 0⟩
abbrev PWM_IRQEN_TRIP : Fld := ⟨33024, 6, 6⟩
abbrev PWM_IRQEN_STAT : Fld := ⟨33024, 5, 0⟩
abbrev PWM_STORM_CNT : Fld := ⟨33088, 15, 8⟩
abbrev PWM_STORM_TRIP_STORM : Fld := ⟨33088, 7, 0⟩
abbrev PWM_GTRIP_AUTO : Fld := ⟨33152, 3, 3⟩
abbrev PWM_GTRIP_LINKOV : Fld := ⟨33152, 1, 1⟩
abbrev PWM_GTRIP_LINKUV : Fld := ⟨33152, 0, 0⟩
abbrev PWM_TRIPSRC0_EN : Fld := ⟨33280, 15, 15⟩
abbrev PWM_TRIPSRC0_POL : Fld := ⟨33280, 14, 14⟩
abbrev PWM_TRIPSRC0_FILT : Fld := ⟨33280, 11, 8⟩
abbrev PWM_TRIPSRC0_BLKEN : Fld := ⟨33280, 3, 3⟩
abbrev PWM_TRIPSRC0_GT : Fld := ⟨33280, 2, 0⟩
abbrev PWM_TRIPSRC1_EN : Fld := ⟨33344, 15, 15⟩
abbrev PWM_TRIPSRC1_POL : Fld := ⟨33344, 14, 14⟩
abbrev PWM_TRIPSRC1_FILT : Fld := ⟨33344, 11, 8⟩
abbrev PWM_TRIPSRC1_BLKEN : Fld := ⟨33344, 3, 3⟩
abbrev PWM_TRIPSRC1_GT : Fld := ⟨33344, 2, 0⟩
abbrev PWM_TRIPSRC2_EN : Fld := ⟨33408, 15, 15⟩
abbrev PWM_TRIPSRC2_POL : Fld := ⟨33408, 14, 14⟩
abbrev PWM_TRIPSRC2_FILT : Fld := ⟨33408, 11, 8⟩
abbrev PWM_TRIPSRC2_BLKEN : Fld := ⟨33408, 3, 3⟩
abbrev PWM_TRIPSRC2_GT : Fld := ⟨33408, 2, 0⟩
abbrev PWM_TRIPSRC3_EN : Fld := ⟨33472, 15, 15⟩
abbrev PWM_TRIPSRC3_POL : Fld := ⟨33472, 14, 14⟩
abbrev PWM_TRIPSRC3_FILT : Fld := ⟨33472, 11, 8⟩
abbrev PWM_TRIPSRC3_BLKEN : Fld := ⟨33472, 3, 3⟩
abbrev PWM_TRIPSRC3_GT : Fld := ⟨33472, 2, 0⟩
abbrev PWM_TRIPMSK0_CH : Fld := ⟨33536, 15, 0⟩
abbrev PWM_TRIPMSK1_CH : Fld := ⟨33600, 15, 0⟩
abbrev PWM_TRIPMSK2_CH : Fld := ⟨33664, 15, 0⟩
abbrev PWM_TRIPMSK3_CH : Fld := ⟨33728, 15, 0⟩
abbrev PWM_SYNC_SOEN : Fld := ⟨33792, 15, 15⟩
abbrev PWM_SYNC_SIEN : Fld := ⟨33792, 14, 14⟩
abbrev PWM_SYNC_MASTER : Fld := ⟨33792, 3, 0⟩
abbrev PWM_SYNCMSK_CH : Fld := ⟨33856, 15, 0⟩
abbrev PWM_CTL_ZCD : Fld := ⟨34816, 7, 7⟩
abbrev PWM_CTL_MODE : Fld := ⟨34816, 6, 6⟩
abbrev PWM_CTL_HOLDM : Fld := ⟨34816, 5, 5⟩
abbrev PWM_CTL_GRP : Fld := ⟨34816, 4, 4⟩
abbrev PWM_CTL_UPD : Fld := ⟨34816, 1, 0⟩
abbrev PWM_PER_PER : Fld := ⟨34880, 15, 0⟩
abbrev PWM_CMPA_CMPA : Fld := ⟨34944, 15, 0⟩
abbrev PWM_CMPB_CMPB : Fld := ⟨35008, 15, 0⟩
abbrev PWM_FINE_FINE : Fld := ⟨35072, 3, 0⟩
abbrev PWM_PHS_PHS : Fld := ⟨35136, 15, 0⟩
abbrev PWM_DT_DTMAX : Fld := ⟨35200, 15, 8⟩
abbrev PWM_DT_DTMIN : Fld := ⟨35200, 5, 0⟩
abbrev PWM_BRN_BRN_INT : Fld := ⟨35264, 15, 8⟩
abbrev PWM_BRN_BRN_W : Fld := ⟨35264, 7, 0⟩
abbrev PWM_FORCE_FORCE_AT : Fld := ⟨35328, 4, 4⟩
abbrev PWM_FORCE_HGF : Fld := ⟨35328, 3, 2⟩
abbrev PWM_FORCE_LGF : Fld := ⟨35328, 1, 0⟩
abbrev PWM_SAFE_HGS : Fld := ⟨35392, 1, 1⟩
abbrev PWM_SAFE_LGS : Fld := ⟨35392, 0, 0⟩
abbrev PWM_HOLDTO_TO : Fld := ⟨35456, 10, 0⟩
abbrev PWM_EVCTL_PRESC : Fld := ⟨35520, 15, 8⟩
abbrev PWM_EVCTL_CMPBE : Fld := ⟨35520, 3, 3⟩
abbrev PWM_EVCTL_CMPAE : Fld := ⟨35520, 2, 2⟩
abbrev PWM_EVCTL_PERE : Fld := ⟨35520, 1, 1⟩
abbrev PWM_EVCTL_ZEROE : Fld := ⟨35520, 0, 0⟩
abbrev PWM_STAT_GATED : Fld := ⟨35584, 10, 10⟩
abbrev PWM_STAT_DROPOUT : Fld := ⟨35584, 9, 9⟩
abbrev PWM_STAT_HOLDSAFE : Fld := ⟨35584, 8, 8⟩
abbrev PWM_STAT_TRIPPED : Fld := ⟨35584, 7, 7⟩
abbrev PWM_STAT_PEND : Fld := ⟨35584, 6, 6⟩
abbrev PWM_STAT_PCLAMP : Fld := ⟨35584, 5, 5⟩
abbrev PWM_STAT_CLRREF : Fld := ⟨35584, 4, 4⟩
abbrev PWM_STAT_FERR : Fld := ⟨35584, 3, 3⟩
abbrev PWM_STAT_BSTLOW : Fld := ⟨35584, 2, 2⟩
abbrev PWM_STAT_DTCAP : Fld := ⟨35584, 1, 1⟩
abbrev PWM_STAT_PCUT : Fld := ⟨35584, 0, 0⟩
abbrev PWM_TRIPLAT_CLK : Fld := ⟨35648, 9, 9⟩
abbrev PWM_TRIPLAT_OT : Fld := ⟨35648, 8, 8⟩
abbrev PWM_TRIPLAT_LINKOV : Fld := ⟨35648, 7, 7⟩
abbrev PWM_TRIPLAT_LINKUV : Fld := ⟨35648, 6, 6⟩
abbrev PWM_TRIPLAT_TRIP3_to_TRIP0 : Fld := ⟨35648, 5, 2⟩
abbrev PWM_TRIPLAT_OV : Fld := ⟨35648, 1, 1⟩
abbrev PWM_TRIPLAT_OC : Fld := ⟨35648, 0, 0⟩
abbrev PWM_TRIPCLR_CLR : Fld := ⟨35712, 0, 0⟩
abbrev PWM_DTMEAS_DTLH : Fld := ⟨35776, 15, 8⟩
abbrev PWM_DTMEAS_DTHL : Fld := ⟨35776, 7, 0⟩
abbrev PWM_CNT_CNT : Fld := ⟨35840, 15, 0⟩
abbrev CUR_SEL_CH : Fld := ⟨41024, 4, 0⟩
abbrev CUR_CTL_RMAX : Fld := ⟨41088, 3, 0⟩
abbrev CUR_STAT_PHCH : Fld := ⟨41152, 2, 2⟩
abbrev CUR_STAT_PHSRC : Fld := ⟨41152, 1, 0⟩
abbrev CUR_IRQEN_PHCH : Fld := ⟨41216, 6, 6⟩
abbrev CUR_IRQEN_CSTAT : Fld := ⟨41216, 5, 1⟩
abbrev CUR_DPER_DPER : Fld := ⟨41280, 15, 0⟩
abbrev CUR_PHASE_LOCK : Fld := ⟨41344, 15, 15⟩
abbrev CUR_PHASE_SYNCF : Fld := ⟨41344, 14, 14⟩
abbrev CUR_PHASE_SDIV : Fld := ⟨41344, 7, 0⟩
abbrev CUR_SS_T : Fld := ⟨41408, 4, 0⟩
abbrev CUR_LOFS0_OFS : Fld := ⟨41472, 15, 0⟩
abbrev CUR_LOFS1_OFS : Fld := ⟨41536, 15, 0⟩
abbrev CUR_LOFS2_OFS : Fld := ⟨41600, 15, 0⟩
abbrev CUR_LOFS3_OFS : Fld := ⟨41664, 15, 0⟩
abbrev CUR_LOFS4_OFS : Fld := ⟨41728, 15, 0⟩
abbrev CUR_LOFS5_OFS : Fld := ⟨41792, 15, 0⟩
abbrev CUR_LOFS6_OFS : Fld := ⟨41856, 15, 0⟩
abbrev CUR_LOFS7_OFS : Fld := ⟨41920, 15, 0⟩
abbrev CUR_CCFG_MAN : Fld := ⟨43008, 15, 15⟩
abbrev CUR_CCFG_TRIMEN : Fld := ⟨43008, 14, 14⟩
abbrev CUR_CCFG_KI : Fld := ⟨43008, 11, 8⟩
abbrev CUR_VR_VR : Fld := ⟨43072, 9, 0⟩
abbrev CUR_FLOOR_FLOOR : Fld := ⟨43136, 11, 0⟩
abbrev CUR_SLOPE_S : Fld := ⟨43200, 7, 0⟩
abbrev CUR_TRIMLIM_LIM : Fld := ⟨43264, 10, 0⟩
abbrev CUR_OC_OC : Fld := ⟨43328, 7, 0⟩
abbrev CUR_OV_OV : Fld := ⟨43392, 7, 0⟩
abbrev CUR_MDRV_LO_D : Fld := ⟨43520, 15, 0⟩
abbrev CUR_MDRV_HI_D : Fld := ⟨43584, 15, 0⟩
abbrev CUR_DRIVE_LO_D : Fld := ⟨43648, 15, 0⟩
abbrev CUR_DRIVE_HI_D : Fld := ⟨43712, 15, 0⟩
abbrev CUR_AMP_REGB : Fld := ⟨43776, 15, 15⟩
abbrev CUR_AMP_A : Fld := ⟨43776, 11, 0⟩
abbrev CUR_BURST_STIP : Fld := ⟨43840, 15, 12⟩
abbrev CUR_BURST_K : Fld := ⟨43840, 9, 0⟩
abbrev CUR_FINAL_AF : Fld := ⟨43904, 11, 0⟩
abbrev CUR_KP_KP : Fld := ⟨43968, 9, 0⟩
abbrev CUR_TRIMV_E : Fld := ⟨44032, 15, 0⟩
abbrev CUR_CSTAT_OPENL : Fld := ⟨44096, 15, 15⟩
abbrev CUR_CSTAT_LOCKL : Fld := ⟨44096, 14, 14⟩
abbrev CUR_CSTAT_SSL : Fld := ⟨44096, 13, 13⟩
abbrev CUR_CSTAT_WAITL : Fld := ⟨44096, 12, 12⟩
abbrev CUR_CSTAT_RCNT : Fld := ⟨44096, 11, 8⟩
abbrev CUR_CSTAT_TLIM : Fld := ⟨44096, 5, 5⟩
abbrev CUR_CSTAT_LOCKED : Fld := ⟨44096, 4, 4⟩
abbrev CUR_CSTAT_OPEN : Fld := ⟨44096, 3, 3⟩
abbrev CUR_CSTAT_RETRY : Fld := ⟨44096, 2, 2⟩
abbrev CUR_CSTAT_RREF : Fld := ⟨44096, 1, 1⟩
abbrev CUR_LOCKCLR_CLR : Fld := ⟨44160, 0, 0⟩
abbrev LMP_SEL_LAMP : Fld := ⟨49216, 2, 0⟩
abbrev LMP_CTL_MAINT : Fld := ⟨49280, 1, 1⟩
abbrev LMP_CTL_TCOMP : Fld := ⟨49280, 0, 0⟩
abbrev LMP_STAT_SAVEPEND : Fld := ⟨49344, 3, 3⟩
abbrev LMP_STAT_TABERR : Fld := ⟨49344, 2, 2⟩
abbrev LMP_STAT_TABPEND : Fld := ⟨49344, 1, 1⟩
abbrev LMP_STAT_EDIT : Fld := ⟨49344, 0, 0⟩
abbrev LMP_IRQEN_TABERR : Fld := ⟨49408, 6, 6⟩
abbrev LMP_IRQEN_LSTAT : Fld := ⟨49408, 5, 0⟩
abbrev LMP_TERR_CODE : Fld := ⟨49472, 15, 12⟩
abbrev LMP_TERR_ADDR : Fld := ⟨49472, 9, 0⟩
abbrev LMP_TADDR_ADDR : Fld := ⟨49664, 9, 0⟩
abbrev LMP_TDATA_DATA : Fld := ⟨49728, 15, 0⟩
abbrev LMP_TCTL_CMD : Fld := ⟨49792, 1, 0⟩
abbrev LMP_CFG_NTC : Fld := ⟨50176, 10, 8⟩
abbrev LMP_CFG_LAW : Fld := ⟨50176, 5, 4⟩
abbrev LMP_CFG_KIND : Fld := ⟨50176, 2, 0⟩
abbrev LMP_MAP_CHD : Fld := ⟨50240, 15, 12⟩
abbrev LMP_MAP_CHC : Fld := ⟨50240, 11, 8⟩
abbrev LMP_MAP_CHB : Fld := ⟨50240, 7, 4⟩
abbrev LMP_MAP_CHA : Fld := ⟨50240, 3, 0⟩
abbrev LMP_CEIL_CEIL : Fld := ⟨50304, 15, 0⟩
abbrev LMP_FREF_FREF : Fld := ⟨50368, 15, 0⟩
abbrev LMP_WU_W : Fld := ⟨50432, 15, 0⟩
abbrev LMP_WV_W : Fld := ⟨50496, 15, 0⟩
abbrev LMP_FREFA_FREF : Fld := ⟨50688, 15, 0⟩
abbrev LMP_BOUT_B : Fld := ⟨50752, 15, 0⟩
abbrev LMP_UOUT_C : Fld := ⟨50816, 15, 0⟩
abbrev LMP_VOUT_C : Fld := ⟨50880, 15, 0⟩
abbrev LMP_TEMP_T : Fld := ⟨50944, 15, 0⟩
abbrev LMP_RATIO_R : Fld := ⟨51008, 15, 0⟩
abbrev LMP_LSTAT_DEGRL : Fld := ⟨51072, 13, 13⟩
abbrev LMP_LSTAT_TINVL : Fld := ⟨51072, 11, 11⟩
abbrev LMP_LSTAT_CEILRL : Fld := ⟨51072, 10, 10⟩
abbrev LMP_LSTAT_SATL : Fld := ⟨51072, 9, 9⟩
abbrev LMP_LSTAT_GAMUTL : Fld := ⟨51072, 8, 8⟩
abbrev LMP_LSTAT_DEGR : Fld := ⟨51072, 5, 5⟩
abbrev LMP_LSTAT_MAPERR : Fld := ⟨51072, 4, 4⟩
abbrev LMP_LSTAT_TINV : Fld := ⟨51072, 3, 3⟩
abbrev LMP_LSTAT_CEILR : Fld := ⟨51072, 2, 2⟩
abbrev LMP_LSTAT_SAT : Fld := ⟨51072, 1, 1⟩
abbrev LMP_LSTAT_GAMUT : Fld := ⟨51072, 0, 0⟩
abbrev FDE_SEL_LAMP : Fld := ⟨57408, 2, 0⟩
abbrev FDE_CTL_RELC : Fld := ⟨57472, 15, 12⟩
abbrev FDE_CTL_GESEN : Fld := ⟨57472, 3, 3⟩
abbrev FDE_CTL_RULEN : Fld := ⟨57472, 2, 2⟩
abbrev FDE_CTL_SCHEN : Fld := ⟨57472, 1, 1⟩
abbrev FDE_CTL_ALIGN : Fld := ⟨57472, 0, 0⟩
abbrev FDE_STAT_TVALID : Fld := ⟨57536, 7, 7⟩
abbrev FDE_STAT_LOSS : Fld := ⟨57536, 6, 6⟩
abbrev FDE_STAT_PLTERR : Fld := ⟨57536, 5, 5⟩
abbrev FDE_STAT_TABERR : Fld := ⟨57536, 4, 4⟩
abbrev FDE_STAT_SAVEPEND : Fld := ⟨57536, 3, 3⟩
abbrev FDE_STAT_TABPEND : Fld := ⟨57536, 2, 2⟩
abbrev FDE_STAT_EDIT : Fld := ⟨57536, 1, 1⟩
abbrev FDE_STAT_LOSSCH : Fld := ⟨57536, 0, 0⟩
abbrev FDE_IRQEN_PLTERR : Fld := ⟨57600, 5, 5⟩
abbrev FDE_IRQEN_TABERR : Fld := ⟨57600, 4, 4⟩
abbrev FDE_IRQEN_LOSSCH : Fld := ⟨57600, 3, 3⟩
abbrev FDE_IRQEN_LSTAT : Fld := ⟨57600, 2, 0⟩
abbrev FDE_TERR_CODE : Fld := ⟨57664, 15, 12⟩
abbrev FDE_TERR_TSEL : Fld := ⟨57664, 3, 0⟩
abbrev FDE_TERRA_ADDR : Fld := ⟨57728, 12, 0⟩
abbrev FDE_TSEL_TSEL : Fld := ⟨57792, 3, 0⟩
abbrev FDE_TADDR_ADDR : Fld := ⟨57856, 12, 0⟩
abbrev FDE_TDATA_DATA : Fld := ⟨57920, 15, 0⟩
abbrev FDE_TCTL_CMD : Fld := ⟨57984, 1, 0⟩
abbrev FDE_PON_LAST : Fld := ⟨58048, 15, 15⟩
abbrev FDE_PON_PLATE : Fld := ⟨58048, 7, 0⟩
abbrev FDE_LOSS_LOSST : Fld := ⟨58112, 15, 8⟩
abbrev FDE_LOSS_PLATE : Fld := ⟨58112, 7, 0⟩
abbrev FDE_LOSSM_LAMPS : Fld := ⟨58176, 7, 0⟩
abbrev FDE_REL_T : Fld := ⟨58240, 15, 0⟩
abbrev FDE_GES_HOLD : Fld := ⟨58304, 15, 8⟩
abbrev FDE_GES_LAMPS : Fld := ⟨58304, 7, 0⟩
abbrev FDE_RB_V : Fld := ⟨58368, 15, 0⟩
abbrev FDE_RC1_V : Fld := ⟨58432, 15, 0⟩
abbrev FDE_RC2_V : Fld := ⟨58496, 15, 0⟩
abbrev FDE_RT_V : Fld := ⟨58560, 15, 0⟩
abbrev FDE_RFLG_CONTOUR : Fld := ⟨58624, 15, 12⟩
abbrev FDE_RFLG_CMODE : Fld := ⟨58624, 11, 11⟩
abbrev FDE_RFLG_KEEPC : Fld := ⟨58624, 10, 10⟩
abbrev FDE_RFLG_KEEPB : Fld := ⟨58624, 9, 9⟩
abbrev FDE_RHOLD_HOLD : Fld := ⟨58688, 15, 0⟩
abbrev FDE_RTIME_LO_SEC : Fld := ⟨58752, 15, 0⟩
abbrev FDE_RTIME_HI_SEC : Fld := ⟨58816, 15, 0⟩
abbrev FDE_RMS_MS : Fld := ⟨58880, 9, 0⟩
abbrev FDE_RCMD_CMD : Fld := ⟨58944, 15, 13⟩
abbrev FDE_RCMD_PLATE : Fld := ⟨58944, 7, 0⟩
abbrev FDE_RMASK_LAMPS : Fld := ⟨59008, 7, 0⟩
abbrev FDE_RSTAT_REFM : Fld := ⟨59072, 15, 8⟩
abbrev FDE_RSTAT_CODE : Fld := ⟨59072, 2, 0⟩
abbrev FDE_OWN_HELD : Fld := ⟨59392, 15, 8⟩
abbrev FDE_OWN_WIN : Fld := ⟨59392, 2, 0⟩
abbrev FDE_LSTAT_PENDL : Fld := ⟨59456, 10, 10⟩
abbrev FDE_LSTAT_XFADEL : Fld := ⟨59456, 9, 9⟩
abbrev FDE_LSTAT_FADEL : Fld := ⟨59456, 8, 8⟩
abbrev FDE_LSTAT_DROP : Fld := ⟨59456, 2, 2⟩
abbrev FDE_LSTAT_LATE : Fld := ⟨59456, 1, 1⟩
abbrev FDE_LSTAT_OWNED : Fld := ⟨59456, 0, 0⟩
abbrev FDE_PROG_C : Fld := ⟨59520, 15, 0⟩
abbrev FDE_TGTB_B : Fld := ⟨59584, 15, 0⟩
abbrev FDE_TODAY_WDAY : Fld := ⟨59904, 15, 13⟩
abbrev FDE_TODAY_DAY : Fld := ⟨59904, 8, 0⟩
abbrev FDE_SUNR_MIN : Fld := ⟨59968, 10, 0⟩
abbrev FDE_SUNS_MIN : Fld := ⟨60032, 10, 0⟩
abbrev HLT_SEL_CH : Fld := ⟨65600, 4, 0⟩
abbrev HLT_CTL_CLSEN : Fld := ⟨65664, 15, 8⟩
abbrev HLT_CTL_Q7AUTO : Fld := ⟨65664, 0, 0⟩
abbrev HLT_STAT_SAVEPEND : Fld := ⟨65728, 8, 8⟩
abbrev HLT_STAT_TABPEND : Fld := ⟨65728, 7, 7⟩
abbrev HLT_STAT_EDIT : Fld := ⟨65728, 6, 6⟩
abbrev HLT_STAT_TABERR : Fld := ⟨65728, 5, 5⟩
abbrev HLT_STAT_CALFRZ : Fld := ⟨65728, 4, 4⟩
abbrev HLT_STAT_CALERR : Fld := ⟨65728, 3, 3⟩
abbrev HLT_STAT_Q7OVF : Fld := ⟨65728, 2, 2⟩
abbrev HLT_STAT_SOVR : Fld := ⟨65728, 1, 1⟩
abbrev HLT_STAT_HLOST : Fld := ⟨65728, 0, 0⟩
abbrev HLT_IRQEN_CLS : Fld := ⟨65792, 15, 8⟩
abbrev HLT_IRQEN_TABERR : Fld := ⟨65792, 5, 5⟩
abbrev HLT_IRQEN_STAT : Fld := ⟨65792, 3, 0⟩
abbrev HLT_SCFG_NCONF : Fld := ⟨65856, 11, 8⟩
abbrev HLT_SCFG_CRATE : Fld := ⟨65856, 1, 0⟩
abbrev HLT_LOCKM_CLS : Fld := ⟨65920, 7, 0⟩
abbrev HLT_PROOF_DARKOK : Fld := ⟨65984, 15, 15⟩
abbrev HLT_PROOF_PCYC : Fld := ⟨65984, 10, 8⟩
abbrev HLT_PROOF_AUTOD : Fld := ⟨65984, 7, 0⟩
abbrev HLT_PRF_CH : Fld := ⟨66048, 15, 0⟩
abbrev HLT_PRFACT_CH : Fld := ⟨66112, 15, 0⟩
abbrev HLT_PRFDEF_CH : Fld := ⟨66176, 15, 0⟩
abbrev HLT_PPT0_P : Fld := ⟨66304, 11, 0⟩
abbrev HLT_PPT1_P : Fld := ⟨66368, 11, 0⟩
abbrev HLT_PPT2_P : Fld := ⟨66432, 11, 0⟩
abbrev HLT_PPT3_P : Fld := ⟨66496, 11, 0⟩
abbrev HLT_USCTL_BUSY : Fld := ⟨66560, 15, 15⟩
abbrev HLT_USCTL_LEN : Fld := ⟨66560, 3, 0⟩
abbrev HLT_TERR_CODE : Fld := ⟨66624, 15, 12⟩
abbrev HLT_TERR_ADDR : Fld := ⟨66624, 4, 0⟩
abbrev HLT_TADDR_ADDR : Fld := ⟨66816, 4, 0⟩
abbrev HLT_TDATA_DATA : Fld := ⟨66880, 15, 0⟩
abbrev HLT_TCTL_CMD : Fld := ⟨66944, 1, 0⟩
abbrev HLT_NTC0_T : Fld := ⟨67072, 15, 0⟩
abbrev HLT_NTC1_T : Fld := ⟨67136, 15, 0⟩
abbrev HLT_NTC2_T : Fld := ⟨67200, 15, 0⟩
abbrev HLT_NTC3_T : Fld := ⟨67264, 15, 0⟩
abbrev HLT_TDIE_T : Fld := ⟨67328, 15, 0⟩
abbrev HLT_NTCB_B : Fld := ⟨67392, 15, 0⟩
abbrev HLT_NTCK_K : Fld := ⟨67456, 15, 0⟩
abbrev HLT_LSHUNT_RSH : Fld := ⟨67584, 15, 0⟩
abbrev HLT_PLINK_LO_P : Fld := ⟨67712, 15, 0⟩
abbrev HLT_PLINK_HI_P : Fld := ⟨67776, 15, 0⟩
abbrev HLT_ELINKR_E : Fld := ⟨67840, 9, 0⟩
abbrev HLT_CCFG_VSHORT : Fld := ⟨68608, 7, 0⟩
abbrev HLT_RS_RS : Fld := ⟨68672, 15, 0⟩
abbrev HLT_LEDW_HI : Fld := ⟨68736, 15, 8⟩
abbrev HLT_LEDW_LO : Fld := ⟨68736, 7, 0⟩
abbrev HLT_DLIM_DLIM : Fld := ⟨68800, 7, 0⟩
abbrev HLT_DRVLIM_DTDEV : Fld := ⟨68864, 15, 8⟩
abbrev HLT_DRVLIM_RHO : Fld := ⟨68864, 7, 0⟩
abbrev HLT_ULIM_U : Fld := ⟨68928, 7, 0⟩
abbrev HLT_TLIM_T : Fld := ⟨68992, 7, 0⟩
abbrev HLT_L70_L : Fld := ⟨69056, 15, 0⟩
abbrev HLT_V0_V0 : Fld := ⟨69120, 15, 0⟩
abbrev HLT_R_R : Fld := ⟨69184, 15, 0⟩
abbrev HLT_KT_KT : Fld := ⟨69248, 15, 0⟩
abbrev HLT_MDL_VALID : Fld := ⟨69312, 15, 15⟩
abbrev HLT_MDL_TRUN : Fld := ⟨69312, 7, 0⟩
abbrev HLT_ION_V : Fld := ⟨69376, 15, 0⟩
abbrev HLT_VS_V : Fld := ⟨69440, 15, 0⟩
abbrev HLT_RESID_V : Fld := ⟨69504, 15, 0⟩
abbrev HLT_CRES_MEAS : Fld := ⟨69568, 15, 15⟩
abbrev HLT_CRES_DUTY : Fld := ⟨69568, 14, 8⟩
abbrev HLT_CRES_VBST : Fld := ⟨69568, 7, 0⟩
abbrev HLT_CCLS_LVL : Fld := ⟨69632, 15, 8⟩
abbrev HLT_CCLS_STK : Fld := ⟨69632, 7, 0⟩
abbrev HLT_LEDCNT_N : Fld := ⟨69696, 7, 0⟩
abbrev HLT_MFR_M : Fld := ⟨69760, 15, 0⟩
abbrev HLT_STRS_LO_H : Fld := ⟨69824, 15, 0⟩
abbrev HLT_STRS_HI_H : Fld := ⟨69888, 15, 0⟩
abbrev HLT_POUT_LO_P : Fld := ⟨69952, 15, 0⟩
abbrev HLT_POUT_HI_P : Fld := ⟨70016, 15, 0⟩
abbrev HLT_EOUTR_E : Fld := ⟨70080, 9, 0⟩
abbrev HLT_CCTL_LEDRST : Fld := ⟨70144, 2, 2⟩
abbrev HLT_CCTL_MCLR : Fld := ⟨70144, 1, 1⟩
abbrev HLT_CCTL_DTREF : Fld := ⟨70144, 0, 0⟩
abbrev HLT_DTREF_DTLH : Fld := ⟨70208, 15, 8⟩
abbrev HLT_DTREF_DTHL : Fld := ⟨70208, 7, 0⟩
abbrev PHY_CTL_TXDIS : Fld := ⟨73792, 4, 4⟩
abbrev PHY_CTL_SMEN : Fld := ⟨73792, 3, 3⟩
abbrev PHY_CTL_PLAN : Fld := ⟨73792, 2, 1⟩
abbrev PHY_STAT_ZCV : Fld := ⟨73856, 15, 15⟩
abbrev PHY_STAT_PLANA : Fld := ⟨73856, 14, 13⟩
abbrev PHY_STAT_TX : Fld := ⟨73856, 12, 12⟩
abbrev PHY_STAT_RX : Fld := ⟨73856, 11, 11⟩
abbrev PHY_STAT_MASKCH : Fld := ⟨73856, 7, 7⟩
abbrev PHY_STAT_PHSERR : Fld := ⟨73856, 6, 6⟩
abbrev PHY_STAT_ZCLOSS : Fld := ⟨73856, 5, 5⟩
abbrev PHY_STAT_ILIM : Fld := ⟨73856, 4, 4⟩
abbrev PHY_STAT_CLIP : Fld := ⟨73856, 3, 3⟩
abbrev PHY_STAT_HDRERR : Fld := ⟨73856, 2, 2⟩
abbrev PHY_STAT_TMERR : Fld := ⟨73856, 1, 1⟩
abbrev PHY_STAT_VLDUV : Fld := ⟨73856, 0, 0⟩
abbrev PHY_IRQEN_STAT : Fld := ⟨73920, 7, 0⟩
abbrev PHY_BAND_X : Fld := ⟨73984, 2, 2⟩
abbrev PHY_BAND_BCD : Fld := ⟨73984, 1, 1⟩
abbrev PHY_BAND_A : Fld := ⟨73984, 0, 0⟩
abbrev PHY_TXLVL_ATTX : Fld := ⟨74048, 14, 10⟩
abbrev PHY_TXLVL_ATTB : Fld := ⟨74048, 9, 5⟩
abbrev PHY_TXLVL_ATTA : Fld := ⟨74048, 4, 0⟩
abbrev PHY_AGC_MAN : Fld := ⟨74112, 15, 15⟩
abbrev PHY_AGC_MGAIN : Fld := ⟨74112, 12, 8⟩
abbrev PHY_AGC_GAIN : Fld := ⟨74112, 4, 0⟩
abbrev PHY_ZCOFS_OFS : Fld := ⟨74176, 15, 0⟩
abbrev PHY_MPER_T : Fld := ⟨74240, 15, 0⟩
abbrev PHY_CP_GAP : Fld := ⟨74304, 12, 8⟩
abbrev PHY_CP_CP : Fld := ⟨74304, 7, 0⟩
abbrev PHY_PHS_LRN : Fld := ⟨74368, 15, 15⟩
abbrev PHY_PHS_POL : Fld := ⟨74368, 14, 14⟩
abbrev PHY_PHS_LPH : Fld := ⟨74368, 13, 12⟩
abbrev PHY_PHS_FINE : Fld := ⟨74368, 11, 0⟩
abbrev PHY_SMCFG_GUARD : Fld := ⟨74432, 4, 0⟩
abbrev PHY_NCFG_THR : Fld := ⟨74496, 7, 0⟩
abbrev PHY_TMCFG_LIFE : Fld := ⟨74560, 15, 10⟩
abbrev PHY_TMCFG_CODE : Fld := ⟨74560, 9, 8⟩
abbrev PHY_TMCFG_MARGIN : Fld := ⟨74560, 7, 0⟩
abbrev PHY_THRL_HI : Fld := ⟨74624, 15, 8⟩
abbrev PHY_THRL_LO : Fld := ⟨74624, 7, 0⟩
abbrev PHY_THRH_HI : Fld := ⟨74688, 15, 8⟩
abbrev PHY_THRH_LO : Fld := ⟨74688, 7, 0⟩
abbrev PHY_TXLAT_LAT : Fld := ⟨74752, 15, 0⟩
abbrev PHY_RXLAT_LAT : Fld := ⟨74816, 15, 0⟩
abbrev PHY_NMASK_LO_N : Fld := ⟨74880, 15, 0⟩
abbrev PHY_NMASK_HI_N : Fld := ⟨74944, 15, 0⟩
abbrev PHY_TSEL_TSEL : Fld := ⟨75008, 3, 0⟩
abbrev PHY_TADDR_ADDR : Fld := ⟨75072, 10, 0⟩
abbrev PHY_TDATA_DATA : Fld := ⟨75136, 15, 0⟩
abbrev MAC_CTL_HPH : Fld := ⟨81984, 7, 6⟩
abbrev MAC_CTL_JOINEN : Fld := ⟨81984, 1, 1⟩
abbrev MAC_CTL_EN : Fld := ⟨81984, 0, 0⟩
abbrev MAC_STAT_JST : Fld := ⟨82048, 15, 14⟩
abbrev MAC_STAT_BVALID : Fld := ⟨82048, 13, 13⟩
abbrev MAC_STAT_JOINCH : Fld := ⟨82048, 7, 7⟩
abbrev MAC_STAT_TKOVR : Fld := ⟨82048, 6, 6⟩
abbrev MAC_STAT_YIELD : Fld := ⟨82048, 5, 5⟩
abbrev MAC_STAT_BMISS : Fld := ⟨82048, 4, 4⟩
abbrev MAC_STAT_OVF : Fld := ⟨82048, 3, 3⟩
abbrev MAC_STAT_TXFAIL : Fld := ⟨82048, 2, 2⟩
abbrev MAC_STAT_FMTERR : Fld := ⟨82048, 1, 1⟩
abbrev MAC_STAT_TIERX : Fld := ⟨82048, 0, 0⟩
abbrev MAC_IRQEN_STAT : Fld := ⟨82112, 7, 0⟩
abbrev MAC_ROLE_APH : Fld := ⟨82176, 13, 12⟩
abbrev MAC_ROLE_ACT : Fld := ⟨82176, 9, 8⟩
abbrev MAC_ROLE_ROLE : Fld := ⟨82176, 1, 0⟩
abbrev MAC_SEG_SEG : Fld := ⟨82240, 15, 0⟩
abbrev MAC_SHORT_SHORT : Fld := ⟨82304, 9, 0⟩
abbrev MAC_PARENT_PTIER : Fld := ⟨82368, 15, 12⟩
abbrev MAC_PARENT_PARENT : Fld := ⟨82368, 9, 0⟩
abbrev MAC_POS_POS : Fld := ⟨82432, 15, 0⟩
abbrev MAC_DEP_LISTEN : Fld := ⟨82496, 7, 4⟩
abbrev MAC_DEP_MISS : Fld := ⟨82496, 3, 0⟩
abbrev MAC_AGE_MAX : Fld := ⟨82560, 7, 0⟩
abbrev MAC_TXCFG_NINT : Fld := ⟨82624, 11, 8⟩
abbrev MAC_TXCFG_RETRY : Fld := ⟨82624, 3, 0⟩
abbrev MAC_BENCH_LO_B : Fld := ⟨82688, 15, 0⟩
abbrev MAC_BENCH_HI_B : Fld := ⟨82752, 15, 0⟩
abbrev MAC_GRID_COURSE : Fld := ⟨82816, 13, 8⟩
abbrev MAC_GRID_POSN : Fld := ⟨82816, 4, 0⟩
abbrev MAC_HEAD_A : Fld := ⟨82880, 9, 0⟩
abbrev MAC_DEPA_A : Fld := ⟨82944, 9, 0⟩
abbrev MAC_BSINCE_N : Fld := ⟨83008, 15, 0⟩
abbrev MAC_GRP0_G : Fld := ⟨83200, 15, 0⟩
abbrev MAC_GRP1_G : Fld := ⟨83264, 15, 0⟩
abbrev MAC_GRP2_G : Fld := ⟨83328, 15, 0⟩
abbrev MAC_GRP3_G : Fld := ⟨83392, 15, 0⟩
abbrev MAC_RMAP0_M : Fld := ⟨83456, 15, 0⟩
abbrev MAC_RMAP1_M : Fld := ⟨83520, 15, 0⟩
abbrev MAC_RMAP2_M : Fld := ⟨83584, 15, 0⟩
abbrev MAC_RMAP3_M : Fld := ⟨83648, 7, 0⟩
abbrev MAC_RSVSEL_SEL : Fld := ⟨83712, 1, 0⟩
abbrev MAC_RSV_VALID : Fld := ⟨83776, 15, 15⟩
abbrev MAC_RSV_LEN : Fld := ⟨83776, 11, 8⟩
abbrev MAC_RSV_START : Fld := ⟨83776, 5, 0⟩
abbrev MAC_RSEL_RING : Fld := ⟨83968, 2, 0⟩
abbrev MAC_RDATA_DATA : Fld := ⟨84032, 15, 0⟩
abbrev MAC_RCTL_CMD : Fld := ⟨84096, 1, 0⟩
abbrev MAC_RLVL0_FILL : Fld := ⟨84480, 8, 0⟩
abbrev MAC_RLVL1_FILL : Fld := ⟨84544, 8, 0⟩
abbrev MAC_RLVL2_FILL : Fld := ⟨84608, 8, 0⟩
abbrev MAC_RLVL3_FILL : Fld := ⟨84672, 8, 0⟩
abbrev MAC_RLVL4_FILL : Fld := ⟨84736, 8, 0⟩
abbrev MAC_RLVL5_FILL : Fld := ⟨84800, 8, 0⟩
abbrev MAC_RLVL6_FILL : Fld := ⟨84864, 8, 0⟩
abbrev MAC_RLVL7_FILL : Fld := ⟨84928, 8, 0⟩
abbrev MAC_TXCNT_N : Fld := ⟨84992, 15, 0⟩
abbrev MAC_RXCNT_N : Fld := ⟨85056, 15, 0⟩
abbrev MAC_ACKFCNT_N : Fld := ⟨85120, 15, 0⟩
abbrev MAC_DROPCNT_N : Fld := ⟨85184, 15, 0⟩
abbrev MAC_RXERR_N : Fld := ⟨85248, 15, 0⟩
abbrev CMD_CTL_TMAUTO : Fld := ⟨90176, 4, 4⟩
abbrev CMD_CTL_LOOP : Fld := ⟨90176, 3, 3⟩
abbrev CMD_CTL_ALMEN : Fld := ⟨90176, 2, 2⟩
abbrev CMD_CTL_RPTEN : Fld := ⟨90176, 1, 1⟩
abbrev CMD_CTL_EN : Fld := ⟨90176, 0, 0⟩
abbrev CMD_STAT_BST : Fld := ⟨90240, 15, 12⟩
abbrev CMD_STAT_ALMDROP : Fld := ⟨90240, 7, 7⟩
abbrev CMD_STAT_RSKIP : Fld := ⟨90240, 6, 6⟩
abbrev CMD_STAT_BNDFAIL : Fld := ⟨90240, 5, 5⟩
abbrev CMD_STAT_BNDOK : Fld := ⟨90240, 4, 4⟩
abbrev CMD_STAT_REFUSED : Fld := ⟨90240, 3, 3⟩
abbrev CMD_STAT_DISP : Fld := ⟨90240, 2, 2⟩
abbrev CMD_IRQEN_STAT : Fld := ⟨90304, 7, 2⟩
abbrev CMD_SPER_P : Fld := ⟨90368, 15, 0⟩
abbrev CMD_EPER_P : Fld := ⟨90432, 15, 0⟩
abbrev CMD_HPER_P : Fld := ⟨90496, 15, 0⟩
abbrev CMD_ALM_EN : Fld := ⟨90560, 12, 0⟩
abbrev CMD_ALMGAP_GAP : Fld := ⟨90624, 15, 0⟩
abbrev CMD_LAST_OPC : Fld := ⟨90688, 15, 8⟩
abbrev CMD_LAST_CODE : Fld := ⟨90688, 7, 0⟩
abbrev CMD_CNT_N : Fld := ⟨90752, 15, 0⟩
abbrev CMD_REFCNT_N : Fld := ⟨90816, 15, 0⟩
abbrev CMD_RSEQ_RSEQ : Fld := ⟨90880, 7, 0⟩
abbrev CMD_BHDL_HDL : Fld := ⟨91136, 7, 0⟩
abbrev CMD_BLEN_LO_LEN : Fld := ⟨91200, 15, 0⟩
abbrev CMD_BLEN_HI_LEN : Fld := ⟨91264, 15, 0⟩
abbrev CMD_BRCV_N : Fld := ⟨91328, 8, 0⟩
abbrev CMD_BNBLK_N : Fld := ⟨91392, 8, 0⟩
abbrev CMD_BCODE_CODE : Fld := ⟨91456, 7, 0⟩
abbrev TIM_CTL_MAN : Fld := ⟨98368, 3, 3⟩
abbrev TIM_CTL_OFSN : Fld := ⟨98368, 2, 2⟩
abbrev TIM_CTL_PPS : Fld := ⟨98368, 1, 1⟩
abbrev TIM_STAT_STATE : Fld := ⟨98432, 15, 14⟩
abbrev TIM_STAT_TIER : Fld := ⟨98432, 13, 10⟩
abbrev TIM_STAT_FERR : Fld := ⟨98432, 9, 0⟩
abbrev TIM_IRQEN_SETDONE : Fld := ⟨98496, 6, 6⟩
abbrev TIM_IRQEN_STEP : Fld := ⟨98496, 5, 5⟩
abbrev TIM_IRQEN_LOCKCH : Fld := ⟨98496, 4, 4⟩
abbrev TIM_IRQEN_AL3_to_AL0 : Fld := ⟨98496, 3, 0⟩
abbrev TIM_EVT_SETDONE : Fld := ⟨98560, 6, 6⟩
abbrev TIM_EVT_STEP : Fld := ⟨98560, 5, 5⟩
abbrev TIM_EVT_LOCKCH : Fld := ⟨98560, 4, 4⟩
abbrev TIM_EVT_AL3_to_AL0 : Fld := ⟨98560, 3, 0⟩
abbrev TIM_FLG_KRC : Fld := ⟨98624, 4, 4⟩
abbrev TIM_FLG_IRCF : Fld := ⟨98624, 3, 3⟩
abbrev TIM_FLG_PPSV : Fld := ⟨98624, 2, 2⟩
abbrev TIM_FLG_KAV : Fld := ⟨98624, 1, 1⟩
abbrev TIM_FLG_SETP : Fld := ⟨98624, 0, 0⟩
abbrev TIM_OFFSET_OFS : Fld := ⟨98688, 15, 0⟩
abbrev TIM_LOOP_KP : Fld := ⟨98752, 15, 12⟩
abbrev TIM_LOOP_KI : Fld := ⟨98752, 11, 8⟩
abbrev TIM_LIM_LOCKTH : Fld := ⟨98816, 15, 8⟩
abbrev TIM_LIM_HOB : Fld := ⟨98816, 7, 4⟩
abbrev TIM_STEPLIM_LIM : Fld := ⟨98880, 15, 0⟩
abbrev TIM_PDLY_D : Fld := ⟨98944, 15, 0⟩
abbrev TIM_THETA_TH : Fld := ⟨99008, 15, 0⟩
abbrev TIM_KFERR_E0 : Fld := ⟨99072, 15, 0⟩
abbrev TIM_KTC_T0 : Fld := ⟨99136, 15, 8⟩
abbrev TIM_KTC_K : Fld := ⟨99136, 7, 0⟩
abbrev TIM_CAPSRC_EN : Fld := ⟨99200, 15, 15⟩
abbrev TIM_CAPSRC_GT : Fld := ⟨99200, 2, 0⟩
abbrev TIM_CMD_CMD : Fld := ⟨99264, 1, 0⟩
abbrev TIM_SEC_LO_V : Fld := ⟨99328, 15, 0⟩
abbrev TIM_SEC_HI_V : Fld := ⟨99392, 15, 0⟩
abbrev TIM_SNAPF_LO_V : Fld := ⟨99456, 15, 0⟩
abbrev TIM_SNAPF_HI_V : Fld := ⟨99520, 15, 0⟩
abbrev TIM_SETS_LO_V : Fld := ⟨99584, 15, 0⟩
abbrev TIM_SETS_HI_V : Fld := ⟨99648, 15, 0⟩
abbrev TIM_SETF_LO_V : Fld := ⟨99712, 15, 0⟩
abbrev TIM_SETF_HI_V : Fld := ⟨99776, 15, 0⟩
abbrev TIM_FREQ_LO_V : Fld := ⟨99840, 15, 0⟩
abbrev TIM_FREQ_HI_V : Fld := ⟨99904, 15, 0⟩
abbrev TIM_STEPL_LO_V : Fld := ⟨99968, 15, 0⟩
abbrev TIM_STEPL_HI_V : Fld := ⟨100032, 15, 0⟩
abbrev TIM_STEPH_LO_V : Fld := ⟨100096, 15, 0⟩
abbrev TIM_STEPH_HI_V : Fld := ⟨100160, 15, 0⟩
abbrev TIM_CAPS_LO_V : Fld := ⟨100352, 15, 0⟩
abbrev TIM_CAPS_HI_V : Fld := ⟨100416, 15, 0⟩
abbrev TIM_CAPF_LO_V : Fld := ⟨100480, 15, 0⟩
abbrev TIM_CAPF_HI_V : Fld := ⟨100544, 15, 0⟩
abbrev TIM_AL0S_LO_V : Fld := ⟨100864, 15, 0⟩
abbrev TIM_AL0S_HI_V : Fld := ⟨100928, 15, 0⟩
abbrev TIM_AL0F_LO_V : Fld := ⟨100992, 15, 0⟩
abbrev TIM_AL0F_HI_V : Fld := ⟨101056, 15, 0⟩
abbrev TIM_AL0CTL_EN : Fld := ⟨101120, 15, 15⟩
abbrev TIM_AL0CTL_REP : Fld := ⟨101120, 13, 0⟩
abbrev TIM_AL1S_LO_V : Fld := ⟨101376, 15, 0⟩
abbrev TIM_AL1S_HI_V : Fld := ⟨101440, 15, 0⟩
abbrev TIM_AL1F_LO_V : Fld := ⟨101504, 15, 0⟩
abbrev TIM_AL1F_HI_V : Fld := ⟨101568, 15, 0⟩
abbrev TIM_AL1CTL_EN : Fld := ⟨101632, 15, 15⟩
abbrev TIM_AL1CTL_REP : Fld := ⟨101632, 13, 0⟩
abbrev TIM_AL2S_LO_V : Fld := ⟨101888, 15, 0⟩
abbrev TIM_AL2S_HI_V : Fld := ⟨101952, 15, 0⟩
abbrev TIM_AL2F_LO_V : Fld := ⟨102016, 15, 0⟩
abbrev TIM_AL2F_HI_V : Fld := ⟨102080, 15, 0⟩
abbrev TIM_AL2CTL_EN : Fld := ⟨102144, 15, 15⟩
abbrev TIM_AL2CTL_REP : Fld := ⟨102144, 13, 0⟩
abbrev TIM_AL3S_LO_V : Fld := ⟨102400, 15, 0⟩
abbrev TIM_AL3S_HI_V : Fld := ⟨102464, 15, 0⟩
abbrev TIM_AL3F_LO_V : Fld := ⟨102528, 15, 0⟩
abbrev TIM_AL3F_HI_V : Fld := ⟨102592, 15, 0⟩
abbrev TIM_AL3CTL_EN : Fld := ⟨102656, 15, 15⟩
abbrev TIM_AL3CTL_REP : Fld := ⟨102656, 13, 0⟩
abbrev GTU_SEL_CH : Fld := ⟨106560, 4, 0⟩
abbrev GTU_ENA_EN : Fld := ⟨106624, 7, 0⟩
abbrev GTU_SLEEP_MODE : Fld := ⟨106688, 15, 0⟩
abbrev GTU_PINS_OUT : Fld := ⟨106752, 15, 8⟩
abbrev GTU_PINS_PAD : Fld := ⟨106752, 7, 0⟩
abbrev GTU_TRG_T : Fld := ⟨106816, 7, 0⟩
abbrev GTU_CTL_PSC : Fld := ⟨107520, 15, 12⟩
abbrev GTU_CTL_MSTR : Fld := ⟨107520, 10, 8⟩
abbrev GTU_CTL_SMODE : Fld := ⟨107520, 7, 6⟩
abbrev GTU_CTL_GSRC : Fld := ⟨107520, 5, 5⟩
abbrev GTU_CTL_GPOL : Fld := ⟨107520, 4, 4⟩
abbrev GTU_CTL_BLKW : Fld := ⟨107520, 3, 3⟩
abbrev GTU_CTL_HOLDM : Fld := ⟨107520, 2, 2⟩
abbrev GTU_CTL_CLKSRC : Fld := ⟨107520, 1, 0⟩
abbrev GTU_PIN_OE : Fld := ⟨107584, 15, 15⟩
abbrev GTU_PIN_INV : Fld := ⟨107584, 14, 14⟩
abbrev GTU_PIN_INIT : Fld := ⟨107584, 13, 13⟩
abbrev GTU_CAPCTL_EN : Fld := ⟨107648, 15, 15⟩
abbrev GTU_CAPCTL_SRC : Fld := ⟨107648, 14, 14⟩
abbrev GTU_CAPCTL_EDGE : Fld := ⟨107648, 13, 12⟩
abbrev GTU_CAPCTL_FILT : Fld := ⟨107648, 11, 8⟩
abbrev GTU_CAPCTL_EPS : Fld := ⟨107648, 7, 0⟩
abbrev GTU_ACT0_IRQ : Fld := ⟨107712, 15, 15⟩
abbrev GTU_ACT0_SRV : Fld := ⟨107712, 14, 14⟩
abbrev GTU_ACT0_Q7 : Fld := ⟨107712, 13, 13⟩
abbrev GTU_ACT0_TEN : Fld := ⟨107712, 12, 12⟩
abbrev GTU_ACT0_TCH : Fld := ⟨107712, 10, 8⟩
abbrev GTU_ACT0_PIN : Fld := ⟨107712, 1, 0⟩
abbrev GTU_ACT1_IRQ : Fld := ⟨107776, 15, 15⟩
abbrev GTU_ACT1_SRV : Fld := ⟨107776, 14, 14⟩
abbrev GTU_ACT1_Q7 : Fld := ⟨107776, 13, 13⟩
abbrev GTU_ACT1_TEN : Fld := ⟨107776, 12, 12⟩
abbrev GTU_ACT1_TCH : Fld := ⟨107776, 10, 8⟩
abbrev GTU_ACT1_PIN : Fld := ⟨107776, 1, 0⟩
abbrev GTU_IE_CATCH : Fld := ⟨107840, 6, 6⟩
abbrev GTU_IE_MISS : Fld := ⟨107840, 5, 5⟩
abbrev GTU_IE_TCUT : Fld := ⟨107840, 4, 4⟩
abbrev GTU_IE_CAPOVR : Fld := ⟨107840, 3, 3⟩
abbrev GTU_IE_CAP : Fld := ⟨107840, 2, 2⟩
abbrev GTU_CNT_LO_C : Fld := ⟨107904, 15, 0⟩
abbrev GTU_CNT_HI_C : Fld := ⟨107968, 15, 0⟩
abbrev GTU_TOP_LO_T : Fld := ⟨108032, 15, 0⟩
abbrev GTU_TOP_HI_T : Fld := ⟨108096, 15, 0⟩
abbrev GTU_CMP0_LO_V : Fld := ⟨108160, 15, 0⟩
abbrev GTU_CMP0_HI_V : Fld := ⟨108224, 15, 0⟩
abbrev GTU_CMP1_LO_V : Fld := ⟨108288, 15, 0⟩
abbrev GTU_CMP1_HI_V : Fld := ⟨108352, 15, 0⟩
abbrev GTU_CAP_LO_V : Fld := ⟨108416, 15, 0⟩
abbrev GTU_CAP_HI_V : Fld := ⟨108480, 15, 0⟩
abbrev GTU_CSTAT_RUN : Fld := ⟨108544, 15, 15⟩
abbrev GTU_CSTAT_OUT : Fld := ⟨108544, 14, 14⟩
abbrev GTU_CSTAT_BLK : Fld := ⟨108544, 13, 13⟩
abbrev GTU_CSTAT_CATCH : Fld := ⟨108544, 6, 6⟩
abbrev GTU_CSTAT_MISS : Fld := ⟨108544, 5, 5⟩
abbrev GTU_CSTAT_TCUT : Fld := ⟨108544, 4, 4⟩
abbrev GTU_CSTAT_CAPOVR : Fld := ⟨108544, 3, 3⟩
abbrev GTU_CSTAT_CAP : Fld := ⟨108544, 2, 2⟩
abbrev GTU_CSTAT_CM1 : Fld := ⟨108544, 1, 1⟩
abbrev GTU_CSTAT_CM0 : Fld := ⟨108544, 0, 0⟩
abbrev VLT_CTL_CDLY : Fld := ⟨114752, 15, 8⟩
abbrev VLT_STAT_BUSY : Fld := ⟨114816, 15, 15⟩
abbrev VLT_STAT_SRW : Fld := ⟨114816, 14, 14⟩
abbrev VLT_STAT_PEND : Fld := ⟨114816, 13, 13⟩
abbrev VLT_STAT_LEGDEF : Fld := ⟨114816, 12, 12⟩
abbrev VLT_STAT_LEGWIN : Fld := ⟨114816, 11, 11⟩
abbrev VLT_STAT_PLOCK : Fld := ⟨114816, 10, 10⟩
abbrev VLT_STAT_TIE : Fld := ⟨114816, 6, 6⟩
abbrev VLT_STAT_WEAR : Fld := ⟨114816, 5, 5⟩
abbrev VLT_STAT_ROLLB : Fld := ⟨114816, 4, 4⟩
abbrev VLT_STAT_PWERR : Fld := ⟨114816, 3, 3⟩
abbrev VLT_STAT_REFUSED : Fld := ⟨114816, 2, 2⟩
abbrev VLT_STAT_INTEG : Fld := ⟨114816, 1, 1⟩
abbrev VLT_STAT_HATREC : Fld := ⟨114816, 0, 0⟩
abbrev VLT_IRQEN_DONE : Fld := ⟨114880, 7, 7⟩
abbrev VLT_IRQEN_STAT : Fld := ⟨114880, 6, 0⟩
abbrev VLT_CMD_CMD : Fld := ⟨114944, 3, 0⟩
abbrev VLT_ERR_CODE : Fld := ⟨115008, 3, 0⟩
abbrev VLT_FILL_BYTES : Fld := ⟨115072, 12, 0⟩
abbrev VLT_CNUM_LO_C : Fld := ⟨115200, 15, 0⟩
abbrev VLT_CNUM_HI_C : Fld := ⟨115264, 15, 0⟩
abbrev VLT_RSEL_REG : Fld := ⟨115328, 1, 0⟩
abbrev VLT_RADDR_ADDR : Fld := ⟨115392, 15, 0⟩
abbrev VLT_RDATA_DATA : Fld := ⟨115456, 15, 0⟩
abbrev VLT_PWD_W : Fld := ⟨115520, 15, 0⟩
abbrev VLT_PWST_LOGO : Fld := ⟨115584, 14, 14⟩
abbrev VLT_PWST_LEGO : Fld := ⟨115584, 13, 13⟩
abbrev VLT_PWST_USRO : Fld := ⟨115584, 12, 12⟩
abbrev VLT_PWST_WAIT : Fld := ⟨115584, 11, 0⟩
abbrev VLT_LEGSEQ_SEQ : Fld := ⟨115648, 15, 0⟩
abbrev HAT_SEL_HC : Fld := ⟨115712, 5, 0⟩
abbrev HAT_VAL_LO_V : Fld := ⟨115776, 15, 0⟩
abbrev HAT_VAL_HI_V : Fld := ⟨115840, 15, 0⟩
abbrev HAT_INC_INC : Fld := ⟨115904, 0, 0⟩
abbrev HAT_EPOCH_LO_E : Fld := ⟨115968, 15, 0⟩
abbrev HAT_EPOCH_HI_E : Fld := ⟨116032, 15, 0⟩
abbrev SEC_CTL_LEARN : Fld := ⟨122944, 0, 0⟩
abbrev SEC_STAT_LIFE : Fld := ⟨123008, 15, 14⟩
abbrev SEC_STAT_STOK : Fld := ⟨123008, 13, 13⟩
abbrev SEC_STAT_BUSY : Fld := ⟨123008, 12, 12⟩
abbrev SEC_STAT_FCEXH : Fld := ⟨123008, 5, 5⟩
abbrev SEC_STAT_STFAIL : Fld := ⟨123008, 4, 4⟩
abbrev SEC_STAT_DIRMISS : Fld := ⟨123008, 3, 3⟩
abbrev SEC_STAT_REPLAY : Fld := ⟨123008, 2, 2⟩
abbrev SEC_STAT_MICERR : Fld := ⟨123008, 1, 1⟩
abbrev SEC_STAT_KEYERR : Fld := ⟨123008, 0, 0⟩
abbrev SEC_IRQEN_DONE : Fld := ⟨123072, 6, 6⟩
abbrev SEC_IRQEN_STAT : Fld := ⟨123072, 5, 0⟩
abbrev SEC_CMD_KEY : Fld := ⟨123136, 15, 8⟩
abbrev SEC_CMD_CMD : Fld := ⟨123136, 2, 0⟩
abbrev SEC_RESULT_DONE : Fld := ⟨123200, 15, 15⟩
abbrev SEC_RESULT_CODE : Fld := ⟨123200, 7, 0⟩
abbrev SEC_SLOT_SEL_SLOT : Fld := ⟨123264, 2, 0⟩
abbrev SEC_SLOT_VALID : Fld := ⟨123328, 15, 15⟩
abbrev SEC_SLOT_RES : Fld := ⟨123328, 14, 14⟩
abbrev SEC_SLOT_BAD : Fld := ⟨123328, 13, 13⟩
abbrev SEC_SLOT_KID : Fld := ⟨123328, 7, 0⟩
abbrev SEC_KID_KID : Fld := ⟨123392, 7, 0⟩
abbrev SEC_KDATA_DATA : Fld := ⟨123456, 15, 0⟩
abbrev SEC_TXG0_ADMIN : Fld := ⟨123520, 14, 10⟩
abbrev SEC_TXG0_GROUP : Fld := ⟨123520, 9, 5⟩
abbrev SEC_TXG0_NET : Fld := ⟨123520, 4, 0⟩
abbrev SEC_TXG1_HOST : Fld := ⟨123584, 4, 0⟩
abbrev SEC_FCNT_LO_C : Fld := ⟨123648, 15, 0⟩
abbrev SEC_FCNT_HI_C : Fld := ⟨123712, 15, 0⟩
abbrev SEC_TSEL_TSEL : Fld := ⟨123776, 3, 0⟩
abbrev SEC_TADDR_ADDR : Fld := ⟨123840, 11, 0⟩
abbrev SEC_TDATA_DATA : Fld := ⟨123904, 15, 0⟩
abbrev SEC_CERTLEN_LEN : Fld := ⟨123968, 9, 0⟩
abbrev SEC_DROPKEY_N : Fld := ⟨124032, 15, 0⟩
abbrev SEC_DROPSRC_N : Fld := ⟨124096, 15, 0⟩
abbrev SEC_DROPRPL_N : Fld := ⟨124160, 15, 0⟩
abbrev SEC_DROPMIC_N : Fld := ⟨124224, 15, 0⟩
abbrev LOG_STAT_KLOST : Fld := ⟨131136, 4, 4⟩
abbrev LOG_STAT_TORN : Fld := ⟨131136, 3, 3⟩
abbrev LOG_STAT_SFULL : Fld := ⟨131136, 2, 2⟩
abbrev LOG_STAT_WRAP : Fld := ⟨131136, 1, 1⟩
abbrev LOG_STAT_Q6OVF : Fld := ⟨131136, 0, 0⟩
abbrev LOG_IRQEN_STAT : Fld := ⟨131200, 4, 0⟩
abbrev LOG_HEAD_SLOT : Fld := ⟨131264, 12, 0⟩
abbrev LOG_SFILL_N : Fld := ⟨131328, 6, 0⟩
abbrev LOG_WCNT_LO_N : Fld := ⟨131392, 15, 0⟩
abbrev LOG_WCNT_HI_N : Fld := ⟨131456, 15, 0⟩
abbrev LOG_DROP_N : Fld := ⟨131520, 15, 0⟩
abbrev LOG_SEAL_KEY : Fld := ⟨131584, 15, 0⟩
abbrev LOG_HDET_DETAIL : Fld := ⟨131648, 15, 0⟩
abbrev LOG_HPOST_EVENT : Fld := ⟨131712, 11, 0⟩

end F

/-- The registers of page SYS. A reset value the spec gives as fused, from keep, from vault, live or a pin stands as 0 here (LOG_HEAD as 64, the first ring slot): the word is computed or loaded where its chapter says. -/
def layoutSYS : List RegDef :=
  [ ⟨0x01, 1, false, [⟨15, 0, .ro, 5732⟩]⟩,
    ⟨0x02, 1, false, [⟨15, 8, .ro, 2⟩, ⟨7, 0, .ro, 0⟩]⟩,
    ⟨0x03, 1, false, [⟨5, 5, .ro, 0⟩, ⟨4, 4, .ro, 0⟩, ⟨3, 3, .ro, 0⟩, ⟨1, 0, .ro, 0⟩]⟩,
    ⟨0x04, 1, false, [⟨15, 8, .wt, 0⟩, ⟨2, 2, .rw, 0⟩, ⟨1, 1, .wt, 0⟩, ⟨0, 0, .wt, 0⟩]⟩,
    ⟨0x05, 1, false, [⟨12, 8, .ro, 0⟩, ⟨5, 5, .w1c, 0⟩, ⟨4, 4, .w1c, 0⟩, ⟨3, 3, .w1c, 0⟩, ⟨2, 2, .w1c, 0⟩, ⟨1, 1, .w1c, 0⟩, ⟨0, 0, .w1c, 0⟩]⟩,
    ⟨0x06, 1, false, [⟨9, 9, .ro, 0⟩, ⟨8, 8, .ro, 0⟩, ⟨7, 7, .ro, 0⟩, ⟨6, 6, .ro, 0⟩, ⟨5, 5, .ro, 0⟩, ⟨4, 4, .ro, 0⟩, ⟨3, 2, .ro, 0⟩, ⟨1, 1, .ro, 0⟩, ⟨0, 0, .ro, 0⟩]⟩,
    ⟨0x08, 1, false, [⟨15, 9, .w1c, 0⟩, ⟨8, 8, .w1c, 0⟩, ⟨7, 7, .w1c, 0⟩, ⟨6, 6, .w1c, 0⟩, ⟨5, 5, .w1c, 0⟩, ⟨4, 4, .w1c, 0⟩, ⟨3, 3, .w1c, 0⟩, ⟨2, 2, .w1c, 0⟩, ⟨1, 1, .w1c, 0⟩, ⟨0, 0, .w1c, 0⟩]⟩,
    ⟨0x09, 1, false, [⟨15, 15, .w1c, 0⟩, ⟨14, 14, .w1c, 0⟩, ⟨13, 13, .w1c, 0⟩, ⟨12, 12, .w1c, 0⟩, ⟨11, 11, .w1c, 0⟩, ⟨10, 3, .w1c, 0⟩, ⟨2, 2, .w1c, 0⟩, ⟨1, 1, .w1c, 0⟩, ⟨0, 0, .w1c, 0⟩]⟩,
    ⟨0x0A, 1, false, [⟨15, 9, .rw, 0⟩, ⟨8, 8, .rw, 0⟩, ⟨7, 7, .rw, 0⟩, ⟨6, 6, .rw, 0⟩, ⟨5, 5, .rw, 0⟩, ⟨4, 4, .rw, 0⟩, ⟨3, 3, .rw, 0⟩, ⟨2, 2, .rw, 0⟩, ⟨1, 1, .rw, 0⟩, ⟨0, 0, .rw, 0⟩]⟩,
    ⟨0x0B, 1, false, [⟨15, 15, .rw, 0⟩, ⟨14, 14, .rw, 0⟩, ⟨13, 13, .rw, 0⟩, ⟨12, 12, .rw, 0⟩, ⟨11, 11, .rw, 0⟩, ⟨10, 3, .rw, 0⟩, ⟨2, 2, .rw, 0⟩, ⟨1, 1, .rw, 0⟩, ⟨0, 0, .rw, 0⟩]⟩,
    ⟨0x0C, 1, false, [⟨4, 4, .w1c, 0⟩, ⟨3, 3, .w1c, 0⟩, ⟨2, 2, .w1c, 0⟩, ⟨1, 1, .w1c, 0⟩, ⟨0, 0, .w1c, 0⟩]⟩,
    ⟨0x10, 1, false, [⟨15, 8, .rw, 0⟩, ⟨7, 0, .rw, 0⟩]⟩,
    ⟨0x11, 1, false, [⟨15, 8, .rw, 0⟩, ⟨7, 0, .rw, 0⟩]⟩,
    ⟨0x12, 1, false, [⟨15, 8, .rw, 0⟩, ⟨7, 0, .rw, 0⟩]⟩,
    ⟨0x13, 1, false, [⟨15, 8, .rw, 0⟩, ⟨7, 0, .rw, 0⟩]⟩,
    ⟨0x14, 1, false, [⟨15, 8, .rw, 0⟩, ⟨7, 0, .rw, 0⟩]⟩,
    ⟨0x15, 1, false, [⟨15, 8, .rw, 0⟩, ⟨7, 0, .rw, 0⟩]⟩,
    ⟨0x16, 1, false, [⟨15, 8, .rw, 0⟩, ⟨7, 0, .rw, 0⟩]⟩,
    ⟨0x17, 1, false, [⟨15, 8, .rw, 0⟩, ⟨7, 0, .rw, 0⟩]⟩,
    ⟨0x18, 1, false, [⟨15, 8, .rw, 0⟩, ⟨7, 0, .rw, 0⟩]⟩,
    ⟨0x19, 1, false, [⟨15, 8, .rw, 0⟩, ⟨7, 0, .rw, 0⟩]⟩,
    ⟨0x1A, 1, false, [⟨15, 8, .rw, 0⟩, ⟨7, 0, .rw, 0⟩]⟩,
    ⟨0x1B, 1, false, [⟨15, 8, .rw, 0⟩, ⟨7, 0, .rw, 0⟩]⟩,
    ⟨0x1C, 1, false, [⟨15, 8, .rw, 0⟩, ⟨7, 0, .rw, 0⟩]⟩,
    ⟨0x1D, 1, false, [⟨15, 8, .rw, 0⟩, ⟨7, 0, .rw, 0⟩]⟩,
    ⟨0x1E, 1, false, [⟨15, 8, .rw, 0⟩, ⟨7, 0, .rw, 0⟩]⟩,
    ⟨0x1F, 1, false, [⟨15, 8, .rw, 0⟩, ⟨7, 0, .rw, 0⟩]⟩,
    ⟨0x20, 1, false, [⟨15, 8, .rw, 0⟩, ⟨7, 0, .rw, 0⟩]⟩,
    ⟨0x21, 1, false, [⟨15, 8, .rw, 0⟩, ⟨7, 0, .rw, 0⟩]⟩,
    ⟨0x22, 1, false, [⟨15, 8, .rw, 0⟩, ⟨7, 0, .rw, 0⟩]⟩,
    ⟨0x23, 1, false, [⟨15, 8, .rw, 0⟩, ⟨7, 0, .rw, 0⟩]⟩,
    ⟨0x24, 1, false, [⟨15, 8, .rw, 0⟩, ⟨7, 0, .rw, 0⟩]⟩,
    ⟨0x25, 1, false, [⟨15, 8, .rw, 0⟩, ⟨7, 0, .rw, 0⟩]⟩,
    ⟨0x26, 1, false, [⟨15, 8, .rw, 0⟩, ⟨7, 0, .rw, 0⟩]⟩,
    ⟨0x27, 1, false, [⟨15, 8, .rw, 0⟩, ⟨7, 0, .rw, 0⟩]⟩,
    ⟨0x28, 1, false, [⟨15, 8, .rw, 0⟩, ⟨7, 0, .rw, 0⟩]⟩,
    ⟨0x29, 1, false, [⟨15, 8, .rw, 0⟩, ⟨7, 0, .rw, 0⟩]⟩,
    ⟨0x2A, 1, false, [⟨15, 8, .rw, 0⟩, ⟨7, 0, .rw, 0⟩]⟩,
    ⟨0x2B, 1, false, [⟨15, 8, .rw, 0⟩, ⟨7, 0, .rw, 0⟩]⟩,
    ⟨0x2C, 1, false, [⟨15, 8, .rw, 0⟩, ⟨7, 0, .rw, 0⟩]⟩ ] ++
  [ ⟨0x2D, 1, false, [⟨15, 8, .rw, 0⟩, ⟨7, 0, .rw, 0⟩]⟩,
    ⟨0x2E, 1, false, [⟨15, 8, .rw, 0⟩, ⟨7, 0, .rw, 0⟩]⟩,
    ⟨0x2F, 1, false, [⟨15, 8, .rw, 0⟩, ⟨7, 0, .rw, 0⟩]⟩,
    ⟨0x30, 1, false, [⟨15, 15, .ro, 0⟩, ⟨2, 2, .rw, 0⟩, ⟨1, 1, .rw, 0⟩, ⟨0, 0, .rw, 1⟩]⟩,
    ⟨0x31, 1, false, [⟨3, 3, .ro, 0⟩, ⟨2, 2, .w1c, 0⟩, ⟨1, 1, .w1c, 0⟩, ⟨0, 0, .lk, 1⟩]⟩,
    ⟨0x32, 1, false, [⟨15, 0, .wt, 0⟩]⟩,
    ⟨0x33, 1, true, [⟨15, 0, .lk, 1000⟩]⟩,
    ⟨0x34, 1, true, [⟨15, 0, .lk, 500⟩]⟩,
    ⟨0x38, 1, false, [⟨15, 0, .ro, 0⟩]⟩,
    ⟨0x39, 1, false, [⟨15, 0, .ro, 0⟩]⟩,
    ⟨0x3A, 1, false, [⟨15, 0, .ro, 0⟩]⟩,
    ⟨0x3B, 1, false, [⟨15, 0, .ro, 0⟩]⟩,
    ⟨0x3C, 1, false, [⟨0, 0, .ro, 0⟩]⟩ ]

/-- The registers of page CLK. A reset value the spec gives as fused, from keep, from vault, live or a pin stands as 0 here (LOG_HEAD as 64, the first ring slot): the word is computed or loaded where its chapter says. -/
def layoutCLK : List RegDef :=
  [ ⟨0x01, 1, true, [⟨2, 2, .rw, 1⟩, ⟨0, 0, .lk, 1⟩]⟩,
    ⟨0x02, 1, false, [⟨15, 15, .ro, 0⟩, ⟨14, 14, .ro, 0⟩, ⟨13, 13, .ro, 0⟩, ⟨12, 12, .ro, 1⟩, ⟨11, 11, .ro, 0⟩, ⟨10, 10, .ro, 0⟩, ⟨5, 5, .w1c, 0⟩, ⟨4, 4, .w1c, 0⟩, ⟨3, 3, .w1c, 0⟩, ⟨2, 2, .w1c, 0⟩, ⟨1, 1, .w1c, 0⟩, ⟨0, 0, .w1c, 0⟩]⟩,
    ⟨0x03, 1, false, [⟨5, 0, .rw, 0⟩]⟩,
    ⟨0x04, 1, false, [⟨1, 0, .wt, 0⟩]⟩,
    ⟨0x05, 1, true, [⟨15, 15, .rw, 0⟩, ⟨14, 14, .rw, 0⟩, ⟨12, 8, .rw, 0⟩, ⟨5, 0, .rw, 15⟩]⟩,
    ⟨0x06, 1, false, [⟨15, 0, .ro, 0⟩]⟩,
    ⟨0x07, 1, false, [⟨15, 0, .ro, 0⟩]⟩,
    ⟨0x08, 1, false, [⟨7, 0, .lk, 0⟩]⟩,
    ⟨0x09, 1, true, [⟨11, 11, .ro, 1⟩, ⟨10, 10, .ro, 1⟩, ⟨9, 9, .ro, 1⟩, ⟨8, 8, .rw, 1⟩, ⟨7, 7, .ro, 1⟩, ⟨5, 5, .rw, 1⟩, ⟨4, 4, .ro, 1⟩, ⟨3, 3, .ro, 1⟩, ⟨2, 2, .ro, 1⟩, ⟨1, 1, .ro, 1⟩, ⟨0, 0, .ro, 1⟩]⟩,
    ⟨0x0A, 1, true, [⟨11, 11, .ro, 1⟩, ⟨10, 10, .ro, 1⟩, ⟨9, 9, .ro, 1⟩, ⟨8, 8, .rw, 1⟩, ⟨7, 7, .ro, 1⟩, ⟨5, 5, .rw, 1⟩, ⟨4, 4, .rw, 1⟩, ⟨3, 3, .ro, 1⟩, ⟨2, 2, .ro, 1⟩, ⟨1, 1, .ro, 0⟩, ⟨0, 0, .ro, 0⟩]⟩,
    ⟨0x0B, 1, true, [⟨2, 2, .rw, 1⟩, ⟨1, 1, .rw, 1⟩, ⟨0, 0, .rw, 1⟩]⟩,
    ⟨0x0C, 1, false, [⟨15, 8, .ro, 0⟩, ⟨0, 0, .w1c, 0⟩]⟩,
    ⟨0x0D, 1, false, [⟨15, 0, .ro, 0⟩]⟩ ]

/-- The registers of page PWR. A reset value the spec gives as fused, from keep, from vault, live or a pin stands as 0 here (LOG_HEAD as 64, the first ring slot): the word is computed or loaded where its chapter says. -/
def layoutPWR : List RegDef :=
  [ ⟨0x01, 1, true, [⟨11, 8, .rw, 5⟩, ⟨0, 0, .rw, 1⟩]⟩,
    ⟨0x02, 1, false, [⟨15, 15, .ro, 1⟩, ⟨14, 14, .ro, 0⟩, ⟨13, 13, .ro, 0⟩, ⟨12, 12, .ro, 1⟩, ⟨11, 11, .ro, 0⟩, ⟨10, 10, .ro, 0⟩, ⟨9, 9, .ro, 0⟩, ⟨8, 8, .ro, 0⟩, ⟨4, 4, .w1c, 0⟩, ⟨3, 3, .w1c, 0⟩, ⟨2, 2, .w1c, 0⟩, ⟨1, 1, .w1c, 0⟩, ⟨0, 0, .w1c, 0⟩]⟩,
    ⟨0x03, 1, false, [⟨4, 0, .rw, 0⟩]⟩,
    ⟨0x04, 1, false, [⟨11, 8, .ro, 0⟩, ⟨3, 0, .ro, 0⟩]⟩,
    ⟨0x05, 1, true, [⟨7, 0, .lk, 38⟩]⟩,
    ⟨0x06, 1, true, [⟨7, 0, .lk, 230⟩]⟩,
    ⟨0x07, 1, true, [⟨9, 0, .lk, 1023⟩]⟩,
    ⟨0x08, 1, false, [⟨15, 0, .ro, 0⟩]⟩,
    ⟨0x09, 1, false, [⟨15, 0, .ro, 0⟩]⟩,
    ⟨0x0A, 1, false, [⟨15, 0, .ro, 0⟩]⟩ ]

/-- The registers of page KEEP. A reset value the spec gives as fused, from keep, from vault, live or a pin stands as 0 here (LOG_HEAD as 64, the first ring slot): the word is computed or loaded where its chapter says. -/
def layoutKEEP : List RegDef :=
  [ ⟨0x01, 1, true, [⟨7, 5, .rw, 7⟩, ⟨2, 2, .rw, 1⟩, ⟨1, 1, .rw, 1⟩, ⟨0, 0, .rw, 1⟩]⟩,
    ⟨0x02, 1, false, [⟨15, 14, .ro, 0⟩, ⟨13, 13, .ro, 0⟩, ⟨12, 12, .ro, 0⟩, ⟨11, 11, .ro, 0⟩, ⟨5, 5, .w1c, 0⟩, ⟨4, 4, .w1c, 0⟩, ⟨3, 3, .w1c, 0⟩, ⟨2, 2, .w1c, 0⟩, ⟨1, 1, .w1c, 0⟩, ⟨0, 0, .w1c, 0⟩]⟩,
    ⟨0x03, 1, false, [⟨5, 0, .rw, 0⟩]⟩,
    ⟨0x04, 1, true, [⟨8, 0, .rw, 500⟩]⟩,
    ⟨0x05, 1, true, [⟨15, 0, .rw, 100⟩]⟩,
    ⟨0x06, 1, true, [⟨15, 0, .lk, 20⟩]⟩,
    ⟨0x07, 1, false, [⟨15, 0, .ro, 0⟩]⟩,
    ⟨0x08, 1, false, [⟨15, 0, .ro, 0⟩]⟩,
    ⟨0x09, 1, false, [⟨15, 0, .ro, 0⟩]⟩,
    ⟨0x0A, 1, false, [⟨15, 0, .ro, 0⟩]⟩,
    ⟨0x0B, 1, false, [⟨15, 0, .ro, 0⟩]⟩,
    ⟨0x0C, 1, false, [⟨15, 0, .ro, 0⟩]⟩,
    ⟨0x0D, 1, false, [⟨15, 0, .ro, 0⟩]⟩,
    ⟨0x0E, 1, false, [⟨15, 0, .ro, 0⟩]⟩,
    ⟨0x0F, 1, false, [⟨15, 0, .ro, 0⟩]⟩,
    ⟨0x10, 1, false, [⟨15, 0, .ro, 0⟩]⟩,
    ⟨0x11, 1, false, [⟨15, 0, .ro, 0⟩]⟩,
    ⟨0x12, 1, false, [⟨15, 0, .ro, 0⟩]⟩,
    ⟨0x13, 1, false, [⟨15, 0, .ro, 0⟩]⟩,
    ⟨0x14, 1, false, [⟨3, 0, .ro, 0⟩]⟩,
    ⟨0x15, 1, false, [⟨15, 14, .ro, 3⟩, ⟨13, 0, .ro, 16383⟩]⟩ ]

/-- The registers of page PWM. A reset value the spec gives as fused, from keep, from vault, live or a pin stands as 0 here (LOG_HEAD as 64, the first ring slot): the word is computed or loaded where its chapter says. -/
def layoutPWM : List RegDef :=
  [ ⟨0x01, 1, false, [⟨4, 0, .rw, 0⟩]⟩,
    ⟨0x02, 1, true, [⟨15, 0, .rw, 0⟩]⟩,
    ⟨0x03, 1, false, [⟨15, 0, .ro, 0⟩]⟩,
    ⟨0x04, 1, false, [⟨6, 6, .rw, 0⟩, ⟨5, 0, .rw, 0⟩]⟩,
    ⟨0x05, 1, false, [⟨15, 8, .ro, 0⟩, ⟨7, 0, .rw, 16⟩]⟩,
    ⟨0x06, 1, true, [⟨3, 3, .rw, 1⟩, ⟨1, 1, .rw, 1⟩, ⟨0, 0, .rw, 1⟩]⟩,
    ⟨0x08, 1, true, [⟨15, 15, .rw, 0⟩, ⟨14, 14, .rw, 0⟩, ⟨11, 8, .rw, 3⟩, ⟨3, 3, .rw, 0⟩, ⟨2, 0, .rw, 0⟩]⟩,
    ⟨0x09, 1, true, [⟨15, 15, .rw, 0⟩, ⟨14, 14, .rw, 0⟩, ⟨11, 8, .rw, 3⟩, ⟨3, 3, .rw, 0⟩, ⟨2, 0, .rw, 0⟩]⟩,
    ⟨0x0A, 1, true, [⟨15, 15, .rw, 0⟩, ⟨14, 14, .rw, 0⟩, ⟨11, 8, .rw, 3⟩, ⟨3, 3, .rw, 0⟩, ⟨2, 0, .rw, 0⟩]⟩,
    ⟨0x0B, 1, true, [⟨15, 15, .rw, 0⟩, ⟨14, 14, .rw, 0⟩, ⟨11, 8, .rw, 3⟩, ⟨3, 3, .rw, 0⟩, ⟨2, 0, .rw, 0⟩]⟩,
    ⟨0x0C, 1, true, [⟨15, 0, .rw, 65535⟩]⟩,
    ⟨0x0D, 1, true, [⟨15, 0, .rw, 65535⟩]⟩,
    ⟨0x0E, 1, true, [⟨15, 0, .rw, 65535⟩]⟩,
    ⟨0x0F, 1, true, [⟨15, 0, .rw, 65535⟩]⟩,
    ⟨0x10, 1, true, [⟨15, 15, .rw, 0⟩, ⟨14, 14, .rw, 0⟩, ⟨3, 0, .rw, 0⟩]⟩,
    ⟨0x11, 1, true, [⟨15, 0, .rw, 0⟩]⟩,
    ⟨0x20, 16, true, [⟨7, 7, .rw, 1⟩, ⟨6, 6, .rw, 0⟩, ⟨5, 5, .rw, 0⟩, ⟨4, 4, .rw, 1⟩, ⟨1, 0, .rw, 0⟩]⟩,
    ⟨0x21, 16, true, [⟨15, 0, .rw, 613⟩]⟩,
    ⟨0x22, 16, true, [⟨15, 0, .rw, 0⟩]⟩,
    ⟨0x23, 16, true, [⟨15, 0, .rw, 30⟩]⟩,
    ⟨0x24, 16, true, [⟨3, 0, .rw, 0⟩]⟩,
    ⟨0x25, 16, true, [⟨15, 0, .rw, 0⟩]⟩,
    ⟨0x26, 16, true, [⟨15, 8, .rw, 48⟩, ⟨5, 0, .rw, 8⟩]⟩,
    ⟨0x27, 16, true, [⟨15, 8, .rw, 15⟩, ⟨7, 0, .rw, 62⟩]⟩,
    ⟨0x28, 16, true, [⟨4, 4, .rw, 0⟩, ⟨3, 2, .rw, 0⟩, ⟨1, 0, .rw, 0⟩]⟩,
    ⟨0x29, 16, true, [⟨1, 1, .ro, 0⟩, ⟨0, 0, .rw, 0⟩]⟩,
    ⟨0x2A, 16, true, [⟨10, 0, .rw, 64⟩]⟩,
    ⟨0x2B, 16, true, [⟨15, 8, .rw, 0⟩, ⟨3, 3, .rw, 0⟩, ⟨2, 2, .rw, 0⟩, ⟨1, 1, .rw, 0⟩, ⟨0, 0, .rw, 0⟩]⟩,
    ⟨0x2C, 16, false, [⟨10, 10, .ro, 0⟩, ⟨9, 9, .ro, 0⟩, ⟨8, 8, .ro, 0⟩, ⟨7, 7, .ro, 0⟩, ⟨6, 6, .ro, 0⟩, ⟨5, 5, .w1c, 0⟩, ⟨4, 4, .w1c, 0⟩, ⟨3, 3, .w1c, 0⟩, ⟨2, 2, .w1c, 0⟩, ⟨1, 1, .w1c, 0⟩, ⟨0, 0, .w1c, 0⟩]⟩,
    ⟨0x2D, 16, false, [⟨9, 9, .ro, 0⟩, ⟨8, 8, .ro, 0⟩, ⟨7, 7, .ro, 0⟩, ⟨6, 6, .ro, 0⟩, ⟨5, 2, .ro, 0⟩, ⟨1, 1, .ro, 0⟩, ⟨0, 0, .ro, 0⟩]⟩,
    ⟨0x2E, 16, false, [⟨0, 0, .wt, 0⟩]⟩,
    ⟨0x2F, 16, false, [⟨15, 8, .ro, 0⟩, ⟨7, 0, .ro, 0⟩]⟩,
    ⟨0x30, 16, false, [⟨15, 0, .ro, 0⟩]⟩ ]

/-- The registers of page CUR. A reset value the spec gives as fused, from keep, from vault, live or a pin stands as 0 here (LOG_HEAD as 64, the first ring slot): the word is computed or loaded where its chapter says. -/
def layoutCUR : List RegDef :=
  [ ⟨0x01, 1, false, [⟨4, 0, .rw, 0⟩]⟩,
    ⟨0x02, 1, true, [⟨3, 0, .rw, 8⟩]⟩,
    ⟨0x03, 1, false, [⟨2, 2, .w1c, 0⟩, ⟨1, 0, .ro, 0⟩]⟩,
    ⟨0x04, 1, false, [⟨6, 6, .rw, 0⟩, ⟨5, 1, .rw, 0⟩]⟩,
    ⟨0x05, 1, true, [⟨15, 0, .rw, 6400⟩]⟩,
    ⟨0x06, 1, true, [⟨15, 15, .rw, 0⟩, ⟨14, 14, .rw, 0⟩, ⟨7, 0, .rw, 0⟩]⟩,
    ⟨0x07, 1, true, [⟨4, 0, .rw, 4⟩]⟩,
    ⟨0x08, 1, true, [⟨15, 0, .rw, 0⟩]⟩,
    ⟨0x09, 1, true, [⟨15, 0, .rw, 0⟩]⟩,
    ⟨0x0A, 1, true, [⟨15, 0, .rw, 0⟩]⟩,
    ⟨0x0B, 1, true, [⟨15, 0, .rw, 0⟩]⟩,
    ⟨0x0C, 1, true, [⟨15, 0, .rw, 0⟩]⟩,
    ⟨0x0D, 1, true, [⟨15, 0, .rw, 0⟩]⟩,
    ⟨0x0E, 1, true, [⟨15, 0, .rw, 0⟩]⟩,
    ⟨0x0F, 1, true, [⟨15, 0, .rw, 0⟩]⟩,
    ⟨0x20, 16, true, [⟨15, 15, .rw, 0⟩, ⟨14, 14, .rw, 1⟩, ⟨11, 8, .rw, 4⟩]⟩,
    ⟨0x21, 16, true, [⟨9, 0, .lk, 500⟩]⟩,
    ⟨0x22, 16, true, [⟨11, 0, .rw, 82⟩]⟩,
    ⟨0x23, 16, true, [⟨7, 0, .rw, 16⟩]⟩,
    ⟨0x24, 16, true, [⟨10, 0, .rw, 2047⟩]⟩,
    ⟨0x25, 16, true, [⟨7, 0, .lk, 190⟩]⟩,
    ⟨0x26, 16, true, [⟨7, 0, .lk, 208⟩]⟩,
    ⟨0x28, 16, false, [⟨15, 0, .rw, 0⟩]⟩,
    ⟨0x29, 16, false, [⟨15, 0, .rw, 0⟩]⟩,
    ⟨0x2A, 16, false, [⟨15, 0, .ro, 0⟩]⟩,
    ⟨0x2B, 16, false, [⟨15, 0, .ro, 0⟩]⟩,
    ⟨0x2C, 16, false, [⟨15, 15, .ro, 0⟩, ⟨11, 0, .ro, 0⟩]⟩,
    ⟨0x2D, 16, false, [⟨15, 12, .ro, 0⟩, ⟨9, 0, .ro, 0⟩]⟩,
    ⟨0x2E, 16, false, [⟨11, 0, .ro, 0⟩]⟩,
    ⟨0x2F, 16, false, [⟨9, 0, .ro, 0⟩]⟩,
    ⟨0x30, 16, false, [⟨15, 0, .ro, 0⟩]⟩,
    ⟨0x31, 16, false, [⟨15, 15, .ro, 0⟩, ⟨14, 14, .ro, 0⟩, ⟨13, 13, .ro, 0⟩, ⟨12, 12, .ro, 0⟩, ⟨11, 8, .ro, 0⟩, ⟨5, 5, .w1c, 0⟩, ⟨4, 4, .w1c, 0⟩, ⟨3, 3, .w1c, 0⟩, ⟨2, 2, .w1c, 0⟩, ⟨1, 1, .w1c, 0⟩]⟩,
    ⟨0x32, 16, false, [⟨0, 0, .wt, 0⟩]⟩ ]

/-- The registers of page LMP. A reset value the spec gives as fused, from keep, from vault, live or a pin stands as 0 here (LOG_HEAD as 64, the first ring slot): the word is computed or loaded where its chapter says. -/
def layoutLMP : List RegDef :=
  [ ⟨0x01, 1, false, [⟨2, 0, .rw, 0⟩]⟩,
    ⟨0x02, 1, true, [⟨1, 1, .rw, 1⟩, ⟨0, 0, .rw, 1⟩]⟩,
    ⟨0x03, 1, false, [⟨3, 3, .ro, 0⟩, ⟨2, 2, .w1c, 0⟩, ⟨1, 1, .ro, 0⟩, ⟨0, 0, .ro, 0⟩]⟩,
    ⟨0x04, 1, false, [⟨6, 6, .rw, 0⟩, ⟨5, 0, .rw, 0⟩]⟩,
    ⟨0x05, 1, false, [⟨15, 12, .ro, 0⟩, ⟨9, 0, .ro, 0⟩]⟩,
    ⟨0x08, 1, false, [⟨9, 0, .rw, 0⟩]⟩,
    ⟨0x09, 1, false, [⟨15, 0, .rw, 0⟩]⟩,
    ⟨0x0A, 1, false, [⟨1, 0, .lk, 0⟩]⟩,
    ⟨0x10, 8, true, [⟨10, 8, .lk, 7⟩, ⟨5, 4, .lk, 0⟩, ⟨2, 0, .lk, 0⟩]⟩,
    ⟨0x11, 8, true, [⟨15, 12, .lk, 0⟩, ⟨11, 8, .lk, 0⟩, ⟨7, 4, .lk, 0⟩, ⟨3, 0, .lk, 0⟩]⟩,
    ⟨0x12, 8, true, [⟨15, 0, .rw, 55706⟩]⟩,
    ⟨0x13, 8, true, [⟨15, 0, .rw, 0⟩]⟩,
    ⟨0x14, 8, true, [⟨15, 0, .rw, 0⟩]⟩,
    ⟨0x15, 8, true, [⟨15, 0, .rw, 0⟩]⟩,
    ⟨0x18, 8, false, [⟨15, 0, .ro, 0⟩]⟩,
    ⟨0x19, 8, false, [⟨15, 0, .ro, 0⟩]⟩,
    ⟨0x1A, 8, false, [⟨15, 0, .ro, 0⟩]⟩,
    ⟨0x1B, 8, false, [⟨15, 0, .ro, 0⟩]⟩,
    ⟨0x1C, 8, false, [⟨15, 0, .ro, 400⟩]⟩,
    ⟨0x1D, 8, false, [⟨15, 0, .ro, 32768⟩]⟩,
    ⟨0x1E, 8, false, [⟨13, 13, .ro, 0⟩, ⟨11, 11, .ro, 0⟩, ⟨10, 10, .ro, 0⟩, ⟨9, 9, .ro, 0⟩, ⟨8, 8, .ro, 0⟩, ⟨5, 5, .w1c, 0⟩, ⟨4, 4, .w1c, 0⟩, ⟨3, 3, .w1c, 0⟩, ⟨2, 2, .w1c, 0⟩, ⟨1, 1, .w1c, 0⟩, ⟨0, 0, .w1c, 0⟩]⟩ ]

/-- The registers of page FDE. A reset value the spec gives as fused, from keep, from vault, live or a pin stands as 0 here (LOG_HEAD as 64, the first ring slot): the word is computed or loaded where its chapter says. -/
def layoutFDE : List RegDef :=
  [ ⟨0x01, 1, false, [⟨2, 0, .rw, 0⟩]⟩,
    ⟨0x02, 1, true, [⟨15, 12, .rw, 1⟩, ⟨3, 3, .rw, 1⟩, ⟨2, 2, .rw, 1⟩, ⟨1, 1, .rw, 1⟩, ⟨0, 0, .rw, 1⟩]⟩,
    ⟨0x03, 1, false, [⟨7, 7, .ro, 0⟩, ⟨6, 6, .ro, 0⟩, ⟨5, 5, .w1c, 0⟩, ⟨4, 4, .w1c, 0⟩, ⟨3, 3, .ro, 0⟩, ⟨2, 2, .ro, 0⟩, ⟨1, 1, .ro, 0⟩, ⟨0, 0, .w1c, 0⟩]⟩,
    ⟨0x04, 1, false, [⟨5, 5, .rw, 0⟩, ⟨4, 4, .rw, 0⟩, ⟨3, 3, .rw, 0⟩, ⟨2, 0, .rw, 0⟩]⟩,
    ⟨0x05, 1, false, [⟨15, 12, .ro, 0⟩, ⟨3, 0, .ro, 0⟩]⟩,
    ⟨0x06, 1, false, [⟨12, 0, .ro, 0⟩]⟩,
    ⟨0x07, 1, false, [⟨3, 0, .rw, 0⟩]⟩,
    ⟨0x08, 1, false, [⟨12, 0, .rw, 0⟩]⟩,
    ⟨0x09, 1, false, [⟨15, 0, .rw, 0⟩]⟩,
    ⟨0x0A, 1, false, [⟨1, 0, .lk, 0⟩]⟩,
    ⟨0x0B, 1, true, [⟨15, 15, .rw, 0⟩, ⟨7, 0, .rw, 0⟩]⟩,
    ⟨0x0C, 1, true, [⟨15, 8, .rw, 0⟩, ⟨7, 0, .rw, 0⟩]⟩,
    ⟨0x0D, 1, true, [⟨7, 0, .rw, 255⟩]⟩,
    ⟨0x0E, 1, true, [⟨15, 0, .rw, 16434⟩]⟩,
    ⟨0x0F, 1, true, [⟨15, 8, .rw, 0⟩, ⟨7, 0, .rw, 255⟩]⟩,
    ⟨0x10, 1, false, [⟨15, 0, .rw, 0⟩]⟩,
    ⟨0x11, 1, false, [⟨15, 0, .rw, 0⟩]⟩,
    ⟨0x12, 1, false, [⟨15, 0, .rw, 0⟩]⟩,
    ⟨0x13, 1, false, [⟨15, 0, .rw, 0⟩]⟩,
    ⟨0x14, 1, false, [⟨15, 12, .rw, 0⟩, ⟨11, 11, .rw, 0⟩, ⟨10, 10, .rw, 0⟩, ⟨9, 9, .rw, 0⟩]⟩,
    ⟨0x15, 1, false, [⟨15, 0, .rw, 0⟩]⟩,
    ⟨0x16, 1, false, [⟨15, 0, .rw, 0⟩]⟩,
    ⟨0x17, 1, false, [⟨15, 0, .rw, 0⟩]⟩,
    ⟨0x18, 1, false, [⟨9, 0, .rw, 0⟩]⟩,
    ⟨0x19, 1, false, [⟨15, 13, .wt, 0⟩, ⟨7, 0, .wt, 0⟩]⟩,
    ⟨0x1A, 1, false, [⟨7, 0, .rw, 0⟩]⟩,
    ⟨0x1B, 1, false, [⟨15, 8, .ro, 0⟩, ⟨2, 0, .ro, 0⟩]⟩,
    ⟨0x20, 8, false, [⟨15, 8, .ro, 1⟩, ⟨2, 0, .ro, 0⟩]⟩,
    ⟨0x21, 8, false, [⟨10, 10, .ro, 0⟩, ⟨9, 9, .ro, 0⟩, ⟨8, 8, .ro, 0⟩, ⟨2, 2, .w1c, 0⟩, ⟨1, 1, .w1c, 0⟩, ⟨0, 0, .w1c, 0⟩]⟩,
    ⟨0x22, 8, false, [⟨15, 0, .ro, 65535⟩]⟩,
    ⟨0x23, 8, false, [⟨15, 0, .ro, 0⟩]⟩,
    ⟨0x28, 1, false, [⟨15, 13, .ro, 0⟩, ⟨8, 0, .ro, 0⟩]⟩,
    ⟨0x29, 1, false, [⟨10, 0, .ro, 0⟩]⟩,
    ⟨0x2A, 1, false, [⟨10, 0, .ro, 0⟩]⟩ ]

/-- The registers of page HLT. A reset value the spec gives as fused, from keep, from vault, live or a pin stands as 0 here (LOG_HEAD as 64, the first ring slot): the word is computed or loaded where its chapter says. -/
def layoutHLT : List RegDef :=
  [ ⟨0x01, 1, false, [⟨4, 0, .rw, 0⟩]⟩,
    ⟨0x02, 1, true, [⟨15, 8, .rw, 255⟩, ⟨0, 0, .rw, 0⟩]⟩,
    ⟨0x03, 1, false, [⟨8, 8, .ro, 0⟩, ⟨7, 7, .ro, 0⟩, ⟨6, 6, .ro, 0⟩, ⟨5, 5, .w1c, 0⟩, ⟨4, 4, .ro, 0⟩, ⟨3, 3, .w1c, 0⟩, ⟨2, 2, .w1c, 0⟩, ⟨1, 1, .w1c, 0⟩, ⟨0, 0, .w1c, 0⟩]⟩,
    ⟨0x04, 1, false, [⟨15, 8, .rw, 0⟩, ⟨5, 5, .rw, 0⟩, ⟨3, 0, .rw, 0⟩]⟩,
    ⟨0x05, 1, true, [⟨11, 8, .rw, 8⟩, ⟨1, 0, .rw, 2⟩]⟩,
    ⟨0x06, 1, true, [⟨7, 0, .lk, 0⟩]⟩,
    ⟨0x07, 1, true, [⟨15, 15, .rw, 0⟩, ⟨10, 8, .rw, 4⟩, ⟨7, 0, .rw, 0⟩]⟩,
    ⟨0x08, 1, false, [⟨15, 0, .wt, 0⟩]⟩,
    ⟨0x09, 1, false, [⟨15, 0, .ro, 0⟩]⟩,
    ⟨0x0A, 1, false, [⟨15, 0, .ro, 0⟩]⟩,
    ⟨0x0C, 1, true, [⟨11, 0, .rw, 512⟩]⟩,
    ⟨0x0D, 1, true, [⟨11, 0, .rw, 1024⟩]⟩,
    ⟨0x0E, 1, true, [⟨11, 0, .rw, 2048⟩]⟩,
    ⟨0x0F, 1, true, [⟨11, 0, .rw, 4095⟩]⟩,
    ⟨0x10, 1, false, [⟨15, 15, .ro, 0⟩, ⟨3, 0, .rw, 0⟩]⟩,
    ⟨0x11, 1, false, [⟨15, 12, .ro, 0⟩, ⟨4, 0, .ro, 0⟩]⟩,
    ⟨0x14, 1, false, [⟨4, 0, .rw, 0⟩]⟩,
    ⟨0x15, 1, false, [⟨15, 0, .rw, 0⟩]⟩,
    ⟨0x16, 1, false, [⟨1, 0, .lk, 0⟩]⟩,
    ⟨0x18, 1, false, [⟨15, 0, .ro, 400⟩]⟩,
    ⟨0x19, 1, false, [⟨15, 0, .ro, 400⟩]⟩,
    ⟨0x1A, 1, false, [⟨15, 0, .ro, 400⟩]⟩,
    ⟨0x1B, 1, false, [⟨15, 0, .ro, 400⟩]⟩,
    ⟨0x1C, 1, false, [⟨15, 0, .ro, 400⟩]⟩,
    ⟨0x1D, 1, true, [⟨15, 0, .rw, 3950⟩]⟩,
    ⟨0x1E, 1, true, [⟨15, 0, .rw, 4096⟩]⟩,
    ⟨0x20, 1, true, [⟨15, 0, .rw, 10000⟩]⟩,
    ⟨0x22, 1, false, [⟨15, 0, .ro, 0⟩]⟩,
    ⟨0x23, 1, false, [⟨15, 0, .ro, 0⟩]⟩,
    ⟨0x24, 1, false, [⟨9, 0, .ro, 0⟩]⟩,
    ⟨0x30, 16, true, [⟨7, 0, .rw, 20⟩]⟩,
    ⟨0x31, 16, true, [⟨15, 0, .rw, 1000⟩]⟩,
    ⟨0x32, 16, true, [⟨15, 8, .rw, 68⟩, ⟨7, 0, .rw, 48⟩]⟩,
    ⟨0x33, 16, true, [⟨7, 0, .rw, 100⟩]⟩,
    ⟨0x34, 16, true, [⟨15, 8, .rw, 6⟩, ⟨7, 0, .rw, 38⟩]⟩,
    ⟨0x35, 16, true, [⟨7, 0, .rw, 32⟩]⟩,
    ⟨0x36, 16, true, [⟨7, 0, .rw, 90⟩]⟩,
    ⟨0x37, 16, true, [⟨15, 0, .rw, 1000⟩]⟩,
    ⟨0x38, 16, false, [⟨15, 0, .ro, 0⟩]⟩,
    ⟨0x39, 16, false, [⟨15, 0, .ro, 0⟩]⟩ ] ++
  [ ⟨0x3A, 16, true, [⟨15, 0, .rw, 0⟩]⟩,
    ⟨0x3B, 16, false, [⟨15, 15, .ro, 0⟩, ⟨7, 0, .ro, 0⟩]⟩,
    ⟨0x3C, 16, false, [⟨15, 0, .ro, 0⟩]⟩,
    ⟨0x3D, 16, false, [⟨15, 0, .ro, 0⟩]⟩,
    ⟨0x3E, 16, false, [⟨15, 0, .ro, 0⟩]⟩,
    ⟨0x3F, 16, false, [⟨15, 15, .ro, 0⟩, ⟨14, 8, .ro, 0⟩, ⟨7, 0, .ro, 0⟩]⟩,
    ⟨0x40, 16, false, [⟨15, 8, .ro, 0⟩, ⟨7, 0, .w1c, 0⟩]⟩,
    ⟨0x41, 16, false, [⟨7, 0, .ro, 0⟩]⟩,
    ⟨0x42, 16, false, [⟨15, 0, .ro, 32768⟩]⟩,
    ⟨0x43, 16, false, [⟨15, 0, .ro, 0⟩]⟩,
    ⟨0x44, 16, false, [⟨15, 0, .ro, 0⟩]⟩,
    ⟨0x45, 16, false, [⟨15, 0, .ro, 0⟩]⟩,
    ⟨0x46, 16, false, [⟨15, 0, .ro, 0⟩]⟩,
    ⟨0x47, 16, false, [⟨9, 0, .ro, 0⟩]⟩,
    ⟨0x48, 16, false, [⟨2, 2, .wt, 0⟩, ⟨1, 1, .wt, 0⟩, ⟨0, 0, .wt, 0⟩]⟩,
    ⟨0x49, 16, false, [⟨15, 8, .ro, 0⟩, ⟨7, 0, .ro, 0⟩]⟩ ]

/-- The registers of page PHY. A reset value the spec gives as fused, from keep, from vault, live or a pin stands as 0 here (LOG_HEAD as 64, the first ring slot): the word is computed or loaded where its chapter says. -/
def layoutPHY : List RegDef :=
  [ ⟨0x01, 1, true, [⟨4, 4, .rw, 0⟩, ⟨3, 3, .rw, 1⟩, ⟨2, 1, .lk, 0⟩]⟩,
    ⟨0x02, 1, false, [⟨15, 15, .ro, 0⟩, ⟨14, 13, .ro, 1⟩, ⟨12, 12, .ro, 0⟩, ⟨11, 11, .ro, 0⟩, ⟨7, 7, .w1c, 0⟩, ⟨6, 6, .w1c, 0⟩, ⟨5, 5, .w1c, 0⟩, ⟨4, 4, .w1c, 0⟩, ⟨3, 3, .w1c, 0⟩, ⟨2, 2, .w1c, 0⟩, ⟨1, 1, .w1c, 0⟩, ⟨0, 0, .w1c, 0⟩]⟩,
    ⟨0x03, 1, false, [⟨7, 0, .rw, 0⟩]⟩,
    ⟨0x04, 1, true, [⟨2, 2, .lk, 0⟩, ⟨1, 1, .lk, 0⟩, ⟨0, 0, .ro, 1⟩]⟩,
    ⟨0x05, 1, true, [⟨14, 10, .lk, 6⟩, ⟨9, 5, .lk, 6⟩, ⟨4, 0, .lk, 6⟩]⟩,
    ⟨0x06, 1, false, [⟨15, 15, .rw, 0⟩, ⟨12, 8, .rw, 8⟩, ⟨4, 0, .ro, 0⟩]⟩,
    ⟨0x07, 1, true, [⟨15, 0, .rw, 0⟩]⟩,
    ⟨0x08, 1, false, [⟨15, 0, .ro, 0⟩]⟩,
    ⟨0x09, 1, false, [⟨12, 8, .ro, 0⟩, ⟨7, 0, .ro, 128⟩]⟩,
    ⟨0x0A, 1, false, [⟨15, 15, .ro, 0⟩, ⟨14, 14, .ro, 0⟩, ⟨13, 12, .ro, 0⟩, ⟨11, 0, .ro, 0⟩]⟩,
    ⟨0x0B, 1, true, [⟨4, 0, .rw, 3⟩]⟩,
    ⟨0x0C, 1, true, [⟨7, 0, .rw, 12⟩]⟩,
    ⟨0x0D, 1, true, [⟨15, 10, .rw, 10⟩, ⟨9, 8, .rw, 1⟩, ⟨7, 0, .rw, 12⟩]⟩,
    ⟨0x0E, 1, true, [⟨15, 8, .rw, 28⟩, ⟨7, 0, .rw, 16⟩]⟩,
    ⟨0x0F, 1, true, [⟨15, 8, .rw, 58⟩, ⟨7, 0, .rw, 48⟩]⟩,
    ⟨0x10, 1, false, [⟨15, 0, .ro, 240⟩]⟩,
    ⟨0x11, 1, false, [⟨15, 0, .ro, 460⟩]⟩,
    ⟨0x12, 1, false, [⟨15, 0, .ro, 0⟩]⟩,
    ⟨0x13, 1, false, [⟨15, 0, .ro, 0⟩]⟩,
    ⟨0x14, 1, false, [⟨3, 0, .rw, 0⟩]⟩,
    ⟨0x15, 1, false, [⟨10, 0, .rw, 0⟩]⟩,
    ⟨0x16, 1, false, [⟨15, 0, .rw, 0⟩]⟩ ]

/-- The registers of page MAC. A reset value the spec gives as fused, from keep, from vault, live or a pin stands as 0 here (LOG_HEAD as 64, the first ring slot): the word is computed or loaded where its chapter says. -/
def layoutMAC : List RegDef :=
  [ ⟨0x01, 1, true, [⟨7, 6, .rw, 3⟩, ⟨1, 1, .rw, 1⟩, ⟨0, 0, .lk, 1⟩]⟩,
    ⟨0x02, 1, false, [⟨15, 14, .ro, 0⟩, ⟨13, 13, .ro, 0⟩, ⟨7, 7, .w1c, 0⟩, ⟨6, 6, .w1c, 0⟩, ⟨5, 5, .w1c, 0⟩, ⟨4, 4, .w1c, 0⟩, ⟨3, 3, .w1c, 0⟩, ⟨2, 2, .w1c, 0⟩, ⟨1, 1, .w1c, 0⟩, ⟨0, 0, .w1c, 0⟩]⟩,
    ⟨0x03, 1, false, [⟨7, 0, .rw, 0⟩]⟩,
    ⟨0x04, 1, true, [⟨13, 12, .ro, 3⟩, ⟨9, 8, .ro, 0⟩, ⟨1, 0, .lk, 0⟩]⟩,
    ⟨0x05, 1, true, [⟨15, 0, .lk, 65535⟩]⟩,
    ⟨0x06, 1, true, [⟨9, 0, .lk, 1023⟩]⟩,
    ⟨0x07, 1, true, [⟨15, 12, .ro, 0⟩, ⟨9, 0, .ro, 1023⟩]⟩,
    ⟨0x08, 1, true, [⟨15, 0, .rw, 0⟩]⟩,
    ⟨0x09, 1, true, [⟨7, 4, .rw, 2⟩, ⟨3, 0, .rw, 1⟩]⟩,
    ⟨0x0A, 1, true, [⟨7, 0, .rw, 8⟩]⟩,
    ⟨0x0B, 1, true, [⟨11, 8, .rw, 3⟩, ⟨3, 0, .rw, 3⟩]⟩,
    ⟨0x0C, 1, false, [⟨15, 0, .ro, 0⟩]⟩,
    ⟨0x0D, 1, false, [⟨15, 0, .ro, 0⟩]⟩,
    ⟨0x0E, 1, false, [⟨13, 8, .ro, 0⟩, ⟨4, 0, .ro, 0⟩]⟩,
    ⟨0x0F, 1, false, [⟨9, 0, .ro, 1023⟩]⟩,
    ⟨0x10, 1, false, [⟨9, 0, .ro, 1023⟩]⟩,
    ⟨0x11, 1, false, [⟨15, 0, .ro, 0⟩]⟩,
    ⟨0x14, 1, true, [⟨15, 0, .rw, 0⟩]⟩,
    ⟨0x15, 1, true, [⟨15, 0, .rw, 0⟩]⟩,
    ⟨0x16, 1, true, [⟨15, 0, .rw, 0⟩]⟩,
    ⟨0x17, 1, true, [⟨15, 0, .rw, 0⟩]⟩,
    ⟨0x18, 1, false, [⟨15, 0, .ro, 65535⟩]⟩,
    ⟨0x19, 1, false, [⟨15, 0, .ro, 65535⟩]⟩,
    ⟨0x1A, 1, false, [⟨15, 0, .ro, 65535⟩]⟩,
    ⟨0x1B, 1, false, [⟨7, 0, .ro, 255⟩]⟩,
    ⟨0x1C, 1, false, [⟨1, 0, .rw, 0⟩]⟩,
    ⟨0x1D, 4, false, [⟨15, 15, .ro, 0⟩, ⟨11, 8, .ro, 0⟩, ⟨5, 0, .ro, 0⟩]⟩,
    ⟨0x20, 1, false, [⟨2, 0, .rw, 0⟩]⟩,
    ⟨0x21, 1, false, [⟨15, 0, .rw, 0⟩]⟩,
    ⟨0x22, 1, false, [⟨1, 0, .wt, 0⟩]⟩,
    ⟨0x28, 1, false, [⟨8, 0, .ro, 0⟩]⟩,
    ⟨0x29, 1, false, [⟨8, 0, .ro, 0⟩]⟩,
    ⟨0x2A, 1, false, [⟨8, 0, .ro, 0⟩]⟩,
    ⟨0x2B, 1, false, [⟨8, 0, .ro, 0⟩]⟩,
    ⟨0x2C, 1, false, [⟨8, 0, .ro, 0⟩]⟩,
    ⟨0x2D, 1, false, [⟨8, 0, .ro, 0⟩]⟩,
    ⟨0x2E, 1, false, [⟨8, 0, .ro, 0⟩]⟩,
    ⟨0x2F, 1, false, [⟨8, 0, .ro, 0⟩]⟩,
    ⟨0x30, 1, false, [⟨15, 0, .ro, 0⟩]⟩,
    ⟨0x31, 1, false, [⟨15, 0, .ro, 0⟩]⟩ ] ++
  [ ⟨0x32, 1, false, [⟨15, 0, .ro, 0⟩]⟩,
    ⟨0x33, 1, false, [⟨15, 0, .ro, 0⟩]⟩,
    ⟨0x34, 1, false, [⟨15, 0, .ro, 0⟩]⟩ ]

/-- The registers of page CMD. A reset value the spec gives as fused, from keep, from vault, live or a pin stands as 0 here (LOG_HEAD as 64, the first ring slot): the word is computed or loaded where its chapter says. -/
def layoutCMD : List RegDef :=
  [ ⟨0x01, 1, true, [⟨4, 4, .rw, 1⟩, ⟨3, 3, .rw, 1⟩, ⟨2, 2, .rw, 1⟩, ⟨1, 1, .rw, 1⟩, ⟨0, 0, .lk, 1⟩]⟩,
    ⟨0x02, 1, false, [⟨15, 12, .ro, 0⟩, ⟨7, 7, .w1c, 0⟩, ⟨6, 6, .w1c, 0⟩, ⟨5, 5, .w1c, 0⟩, ⟨4, 4, .w1c, 0⟩, ⟨3, 3, .w1c, 0⟩, ⟨2, 2, .w1c, 0⟩]⟩,
    ⟨0x03, 1, false, [⟨7, 2, .rw, 0⟩]⟩,
    ⟨0x04, 1, true, [⟨15, 0, .rw, 0⟩]⟩,
    ⟨0x05, 1, true, [⟨15, 0, .rw, 0⟩]⟩,
    ⟨0x06, 1, true, [⟨15, 0, .rw, 0⟩]⟩,
    ⟨0x07, 1, true, [⟨12, 0, .rw, 255⟩]⟩,
    ⟨0x08, 1, true, [⟨15, 0, .rw, 60⟩]⟩,
    ⟨0x09, 1, false, [⟨15, 8, .ro, 0⟩, ⟨7, 0, .ro, 0⟩]⟩,
    ⟨0x0A, 1, false, [⟨15, 0, .ro, 0⟩]⟩,
    ⟨0x0B, 1, false, [⟨15, 0, .ro, 0⟩]⟩,
    ⟨0x0C, 1, false, [⟨7, 0, .ro, 0⟩]⟩,
    ⟨0x10, 1, false, [⟨7, 0, .ro, 0⟩]⟩,
    ⟨0x11, 1, false, [⟨15, 0, .ro, 0⟩]⟩,
    ⟨0x12, 1, false, [⟨15, 0, .ro, 0⟩]⟩,
    ⟨0x13, 1, false, [⟨8, 0, .ro, 0⟩]⟩,
    ⟨0x14, 1, false, [⟨8, 0, .ro, 0⟩]⟩,
    ⟨0x15, 1, false, [⟨7, 0, .ro, 0⟩]⟩ ]

/-- The registers of page TIM. A reset value the spec gives as fused, from keep, from vault, live or a pin stands as 0 here (LOG_HEAD as 64, the first ring slot): the word is computed or loaded where its chapter says. -/
def layoutTIM : List RegDef :=
  [ ⟨0x01, 1, true, [⟨3, 3, .rw, 0⟩, ⟨2, 2, .rw, 1⟩, ⟨1, 1, .rw, 0⟩]⟩,
    ⟨0x02, 1, false, [⟨15, 14, .ro, 0⟩, ⟨13, 10, .ro, 15⟩, ⟨9, 0, .ro, 0⟩]⟩,
    ⟨0x03, 1, false, [⟨6, 6, .rw, 0⟩, ⟨5, 5, .rw, 0⟩, ⟨4, 4, .rw, 0⟩, ⟨3, 0, .rw, 0⟩]⟩,
    ⟨0x04, 1, false, [⟨6, 6, .w1c, 0⟩, ⟨5, 5, .w1c, 0⟩, ⟨4, 4, .w1c, 0⟩, ⟨3, 0, .w1c, 0⟩]⟩,
    ⟨0x05, 1, false, [⟨4, 4, .ro, 0⟩, ⟨3, 3, .ro, 1⟩, ⟨2, 2, .ro, 0⟩, ⟨1, 1, .ro, 0⟩, ⟨0, 0, .ro, 0⟩]⟩,
    ⟨0x06, 1, true, [⟨15, 0, .rw, 0⟩]⟩,
    ⟨0x07, 1, true, [⟨15, 12, .rw, 1⟩, ⟨11, 8, .rw, 4⟩]⟩,
    ⟨0x08, 1, true, [⟨15, 8, .rw, 50⟩, ⟨7, 4, .rw, 2⟩]⟩,
    ⟨0x09, 1, true, [⟨15, 0, .rw, 1000⟩]⟩,
    ⟨0x0A, 1, true, [⟨15, 0, .rw, 0⟩]⟩,
    ⟨0x0B, 1, false, [⟨15, 0, .ro, 0⟩]⟩,
    ⟨0x0C, 1, false, [⟨15, 0, .ro, 0⟩]⟩,
    ⟨0x0D, 1, true, [⟨15, 8, .rw, 25⟩, ⟨7, 0, .rw, 34⟩]⟩,
    ⟨0x0E, 1, true, [⟨15, 15, .rw, 0⟩, ⟨2, 0, .rw, 0⟩]⟩,
    ⟨0x0F, 1, false, [⟨1, 0, .lk, 0⟩]⟩,
    ⟨0x10, 1, false, [⟨15, 0, .ro, 0⟩]⟩,
    ⟨0x11, 1, false, [⟨15, 0, .ro, 0⟩]⟩,
    ⟨0x12, 1, false, [⟨15, 0, .ro, 0⟩]⟩,
    ⟨0x13, 1, false, [⟨15, 0, .ro, 0⟩]⟩,
    ⟨0x14, 1, false, [⟨15, 0, .rw, 0⟩]⟩,
    ⟨0x15, 1, false, [⟨15, 0, .rw, 0⟩]⟩,
    ⟨0x16, 1, false, [⟨15, 0, .rw, 0⟩]⟩,
    ⟨0x17, 1, false, [⟨15, 0, .rw, 0⟩]⟩,
    ⟨0x18, 1, false, [⟨15, 0, .rw, 0⟩]⟩,
    ⟨0x19, 1, false, [⟨15, 0, .rw, 0⟩]⟩,
    ⟨0x1A, 1, false, [⟨15, 0, .ro, 0⟩]⟩,
    ⟨0x1B, 1, false, [⟨15, 0, .ro, 0⟩]⟩,
    ⟨0x1C, 1, false, [⟨15, 0, .ro, 0⟩]⟩,
    ⟨0x1D, 1, false, [⟨15, 0, .ro, 0⟩]⟩,
    ⟨0x20, 1, false, [⟨15, 0, .ro, 0⟩]⟩,
    ⟨0x21, 1, false, [⟨15, 0, .ro, 0⟩]⟩,
    ⟨0x22, 1, false, [⟨15, 0, .ro, 0⟩]⟩,
    ⟨0x23, 1, false, [⟨15, 0, .ro, 0⟩]⟩,
    ⟨0x28, 1, false, [⟨15, 0, .rw, 0⟩]⟩,
    ⟨0x29, 1, false, [⟨15, 0, .rw, 0⟩]⟩,
    ⟨0x2A, 1, false, [⟨15, 0, .rw, 0⟩]⟩,
    ⟨0x2B, 1, false, [⟨15, 0, .rw, 0⟩]⟩,
    ⟨0x2C, 1, false, [⟨15, 15, .rw, 0⟩, ⟨13, 0, .rw, 0⟩]⟩,
    ⟨0x30, 1, false, [⟨15, 0, .rw, 0⟩]⟩,
    ⟨0x31, 1, false, [⟨15, 0, .rw, 0⟩]⟩ ] ++
  [ ⟨0x32, 1, false, [⟨15, 0, .rw, 0⟩]⟩,
    ⟨0x33, 1, false, [⟨15, 0, .rw, 0⟩]⟩,
    ⟨0x34, 1, false, [⟨15, 15, .rw, 0⟩, ⟨13, 0, .rw, 0⟩]⟩,
    ⟨0x38, 1, false, [⟨15, 0, .rw, 0⟩]⟩,
    ⟨0x39, 1, false, [⟨15, 0, .rw, 0⟩]⟩,
    ⟨0x3A, 1, false, [⟨15, 0, .rw, 0⟩]⟩,
    ⟨0x3B, 1, false, [⟨15, 0, .rw, 0⟩]⟩,
    ⟨0x3C, 1, false, [⟨15, 15, .rw, 0⟩, ⟨13, 0, .rw, 0⟩]⟩,
    ⟨0x40, 1, false, [⟨15, 0, .rw, 0⟩]⟩,
    ⟨0x41, 1, false, [⟨15, 0, .rw, 0⟩]⟩,
    ⟨0x42, 1, false, [⟨15, 0, .rw, 0⟩]⟩,
    ⟨0x43, 1, false, [⟨15, 0, .rw, 0⟩]⟩,
    ⟨0x44, 1, false, [⟨15, 15, .rw, 0⟩, ⟨13, 0, .rw, 0⟩]⟩ ]

/-- The registers of page GTU. A reset value the spec gives as fused, from keep, from vault, live or a pin stands as 0 here (LOG_HEAD as 64, the first ring slot): the word is computed or loaded where its chapter says. -/
def layoutGTU : List RegDef :=
  [ ⟨0x01, 1, false, [⟨4, 0, .rw, 0⟩]⟩,
    ⟨0x02, 1, true, [⟨7, 0, .rw, 0⟩]⟩,
    ⟨0x03, 1, true, [⟨15, 0, .rw, 0⟩]⟩,
    ⟨0x04, 1, false, [⟨15, 8, .ro, 0⟩, ⟨7, 0, .ro, 0⟩]⟩,
    ⟨0x05, 1, false, [⟨7, 0, .wt, 0⟩]⟩,
    ⟨0x10, 8, true, [⟨15, 12, .rw, 0⟩, ⟨10, 8, .rw, 0⟩, ⟨7, 6, .rw, 0⟩, ⟨5, 5, .rw, 0⟩, ⟨4, 4, .rw, 0⟩, ⟨3, 3, .rw, 0⟩, ⟨2, 2, .rw, 0⟩, ⟨1, 0, .rw, 0⟩]⟩,
    ⟨0x11, 8, true, [⟨15, 15, .rw, 0⟩, ⟨14, 14, .rw, 0⟩, ⟨13, 13, .rw, 0⟩]⟩,
    ⟨0x12, 8, true, [⟨15, 15, .rw, 0⟩, ⟨14, 14, .rw, 0⟩, ⟨13, 12, .rw, 1⟩, ⟨11, 8, .rw, 0⟩, ⟨7, 0, .rw, 0⟩]⟩,
    ⟨0x13, 8, true, [⟨15, 15, .rw, 0⟩, ⟨14, 14, .rw, 0⟩, ⟨13, 13, .rw, 0⟩, ⟨12, 12, .rw, 0⟩, ⟨10, 8, .rw, 0⟩, ⟨1, 0, .rw, 0⟩]⟩,
    ⟨0x14, 8, true, [⟨15, 15, .rw, 0⟩, ⟨14, 14, .rw, 0⟩, ⟨13, 13, .rw, 0⟩, ⟨12, 12, .rw, 0⟩, ⟨10, 8, .rw, 0⟩, ⟨1, 0, .rw, 0⟩]⟩,
    ⟨0x15, 8, true, [⟨6, 6, .rw, 0⟩, ⟨5, 5, .rw, 0⟩, ⟨4, 4, .rw, 0⟩, ⟨3, 3, .rw, 0⟩, ⟨2, 2, .rw, 0⟩]⟩,
    ⟨0x16, 8, true, [⟨15, 0, .rw, 0⟩]⟩,
    ⟨0x17, 8, true, [⟨15, 0, .rw, 0⟩]⟩,
    ⟨0x18, 8, true, [⟨15, 0, .rw, 65535⟩]⟩,
    ⟨0x19, 8, true, [⟨15, 0, .rw, 65535⟩]⟩,
    ⟨0x1A, 8, true, [⟨15, 0, .rw, 0⟩]⟩,
    ⟨0x1B, 8, true, [⟨15, 0, .rw, 0⟩]⟩,
    ⟨0x1C, 8, true, [⟨15, 0, .rw, 0⟩]⟩,
    ⟨0x1D, 8, true, [⟨15, 0, .rw, 0⟩]⟩,
    ⟨0x1E, 8, false, [⟨15, 0, .ro, 0⟩]⟩,
    ⟨0x1F, 8, false, [⟨15, 0, .ro, 0⟩]⟩,
    ⟨0x20, 8, false, [⟨15, 15, .ro, 0⟩, ⟨14, 14, .ro, 0⟩, ⟨13, 13, .ro, 0⟩, ⟨6, 6, .w1c, 0⟩, ⟨5, 5, .w1c, 0⟩, ⟨4, 4, .w1c, 0⟩, ⟨3, 3, .w1c, 0⟩, ⟨2, 2, .w1c, 0⟩, ⟨1, 1, .w1c, 0⟩, ⟨0, 0, .w1c, 0⟩]⟩ ]

/-- The registers of page VLT. A reset value the spec gives as fused, from keep, from vault, live or a pin stands as 0 here (LOG_HEAD as 64, the first ring slot): the word is computed or loaded where its chapter says. -/
def layoutVLT : List RegDef :=
  [ ⟨0x01, 1, true, [⟨15, 8, .rw, 10⟩]⟩,
    ⟨0x02, 1, false, [⟨15, 15, .ro, 0⟩, ⟨14, 14, .ro, 0⟩, ⟨13, 13, .ro, 0⟩, ⟨12, 12, .ro, 0⟩, ⟨11, 11, .ro, 0⟩, ⟨10, 10, .ro, 0⟩, ⟨6, 6, .w1c, 0⟩, ⟨5, 5, .w1c, 0⟩, ⟨4, 4, .w1c, 0⟩, ⟨3, 3, .w1c, 0⟩, ⟨2, 2, .w1c, 0⟩, ⟨1, 1, .w1c, 0⟩, ⟨0, 0, .w1c, 0⟩]⟩,
    ⟨0x03, 1, false, [⟨7, 7, .rw, 0⟩, ⟨6, 0, .rw, 0⟩]⟩,
    ⟨0x04, 1, false, [⟨3, 0, .wt, 0⟩]⟩,
    ⟨0x05, 1, false, [⟨3, 0, .ro, 0⟩]⟩,
    ⟨0x06, 1, false, [⟨12, 0, .ro, 0⟩]⟩,
    ⟨0x08, 1, false, [⟨15, 0, .ro, 0⟩]⟩,
    ⟨0x09, 1, false, [⟨15, 0, .ro, 0⟩]⟩,
    ⟨0x0A, 1, false, [⟨1, 0, .rw, 0⟩]⟩,
    ⟨0x0B, 1, false, [⟨15, 0, .rw, 0⟩]⟩,
    ⟨0x0C, 1, false, [⟨15, 0, .rw, 0⟩]⟩,
    ⟨0x0D, 1, false, [⟨15, 0, .wt, 0⟩]⟩,
    ⟨0x0E, 1, false, [⟨14, 14, .ro, 0⟩, ⟨13, 13, .ro, 0⟩, ⟨12, 12, .ro, 0⟩, ⟨11, 0, .ro, 0⟩]⟩,
    ⟨0x0F, 1, false, [⟨15, 0, .ro, 0⟩]⟩,
    ⟨0x10, 1, false, [⟨5, 0, .rw, 0⟩]⟩,
    ⟨0x11, 64, false, [⟨15, 0, .ro, 0⟩]⟩,
    ⟨0x12, 64, false, [⟨15, 0, .ro, 0⟩]⟩,
    ⟨0x13, 64, false, [⟨0, 0, .wt, 0⟩]⟩,
    ⟨0x14, 1, false, [⟨15, 0, .ro, 0⟩]⟩,
    ⟨0x15, 1, false, [⟨15, 0, .ro, 0⟩]⟩ ]

/-- The registers of page SEC. A reset value the spec gives as fused, from keep, from vault, live or a pin stands as 0 here (LOG_HEAD as 64, the first ring slot): the word is computed or loaded where its chapter says. -/
def layoutSEC : List RegDef :=
  [ ⟨0x01, 1, true, [⟨0, 0, .rw, 1⟩]⟩,
    ⟨0x02, 1, false, [⟨15, 14, .ro, 0⟩, ⟨13, 13, .ro, 0⟩, ⟨12, 12, .ro, 0⟩, ⟨5, 5, .w1c, 0⟩, ⟨4, 4, .w1c, 0⟩, ⟨3, 3, .w1c, 0⟩, ⟨2, 2, .w1c, 0⟩, ⟨1, 1, .w1c, 0⟩, ⟨0, 0, .w1c, 0⟩]⟩,
    ⟨0x03, 1, false, [⟨6, 6, .rw, 0⟩, ⟨5, 0, .rw, 0⟩]⟩,
    ⟨0x04, 1, false, [⟨15, 8, .wt, 0⟩, ⟨2, 0, .lk, 0⟩]⟩,
    ⟨0x05, 1, false, [⟨15, 15, .ro, 0⟩, ⟨7, 0, .ro, 0⟩]⟩,
    ⟨0x06, 1, false, [⟨2, 0, .rw, 0⟩]⟩,
    ⟨0x07, 8, false, [⟨15, 15, .ro, 0⟩, ⟨14, 14, .ro, 0⟩, ⟨13, 13, .ro, 0⟩, ⟨7, 0, .ro, 0⟩]⟩,
    ⟨0x08, 1, false, [⟨7, 0, .rw, 0⟩]⟩,
    ⟨0x09, 1, false, [⟨15, 0, .wt, 0⟩]⟩,
    ⟨0x0A, 1, true, [⟨14, 10, .rw, 0⟩, ⟨9, 5, .rw, 0⟩, ⟨4, 0, .rw, 0⟩]⟩,
    ⟨0x0B, 1, true, [⟨4, 0, .rw, 0⟩]⟩,
    ⟨0x0C, 1, false, [⟨15, 0, .ro, 0⟩]⟩,
    ⟨0x0D, 1, false, [⟨15, 0, .ro, 0⟩]⟩,
    ⟨0x0E, 1, false, [⟨3, 0, .rw, 0⟩]⟩,
    ⟨0x0F, 1, false, [⟨11, 0, .rw, 0⟩]⟩,
    ⟨0x10, 1, false, [⟨15, 0, .rw, 0⟩]⟩,
    ⟨0x11, 1, false, [⟨9, 0, .ro, 0⟩]⟩,
    ⟨0x12, 1, false, [⟨15, 0, .ro, 0⟩]⟩,
    ⟨0x13, 1, false, [⟨15, 0, .ro, 0⟩]⟩,
    ⟨0x14, 1, false, [⟨15, 0, .ro, 0⟩]⟩,
    ⟨0x15, 1, false, [⟨15, 0, .ro, 0⟩]⟩ ]

/-- The registers of page LOG. A reset value the spec gives as fused, from keep, from vault, live or a pin stands as 0 here (LOG_HEAD as 64, the first ring slot): the word is computed or loaded where its chapter says. -/
def layoutLOG : List RegDef :=
  [ ⟨0x01, 1, false, [⟨4, 4, .w1c, 0⟩, ⟨3, 3, .w1c, 0⟩, ⟨2, 2, .w1c, 0⟩, ⟨1, 1, .w1c, 0⟩, ⟨0, 0, .w1c, 0⟩]⟩,
    ⟨0x02, 1, false, [⟨4, 0, .rw, 0⟩]⟩,
    ⟨0x03, 1, false, [⟨12, 0, .ro, 64⟩]⟩,
    ⟨0x04, 1, false, [⟨6, 0, .ro, 0⟩]⟩,
    ⟨0x05, 1, false, [⟨15, 0, .ro, 0⟩]⟩,
    ⟨0x06, 1, false, [⟨15, 0, .ro, 0⟩]⟩,
    ⟨0x07, 1, false, [⟨15, 0, .ro, 0⟩]⟩,
    ⟨0x08, 1, false, [⟨15, 0, .lk, 0⟩]⟩,
    ⟨0x09, 1, false, [⟨15, 0, .rw, 0⟩]⟩,
    ⟨0x0A, 1, false, [⟨11, 0, .wt, 0⟩]⟩ ]

/-- The layout of a page by number; a reserved page has none (R4). -/
def layout (page : Nat) : List RegDef :=
  match page with

  | 0 => layoutSYS
  | 1 => layoutCLK
  | 2 => layoutPWR
  | 3 => layoutKEEP
  | 4 => layoutPWM
  | 5 => layoutCUR
  | 6 => layoutLMP
  | 7 => layoutFDE
  | 8 => layoutHLT
  | 9 => layoutPHY
  | 10 => layoutMAC
  | 11 => layoutCMD
  | 12 => layoutTIM
  | 13 => layoutGTU
  | 14 => layoutVLT
  | 15 => layoutSEC
  | 16 => layoutLOG
  | _ => []

/-- The key of index `n`, at most 63, of the register whose first key is `k`. -/
def cell (k n : Nat) : Nat := k + n % 64

/-- The key of register (page, off) at an index. -/
def regKey (page off idx : Nat) : Nat := cell ((page * 128 + off) * 64) idx

/-- The register at an offset of a page, if the page assigns one (R26). -/
def regDef (page off : Nat) : Option RegDef := (layout page).find? (fun r => r.off == off)

/-- The mask of bits [hi:lo]. -/
def fieldMask (hi lo : Nat) : Word := (BitVec.ofNat 16 (2 ^ (hi - lo + 1) - 1)) <<< lo

/-- The field of register index `i` (R27). -/
def Fld.at (f : Fld) (i : Nat) : Fld := { f with key := cell f.key i }

/-- The bits of a field within its word. -/
def Fld.mask (f : Fld) : Word := fieldMask f.hi f.lo

/-- Bits [hi:lo] of a word. -/
def getBits (w : Word) (hi lo : Nat) : Nat := (w >>> lo).toNat % 2 ^ (hi - lo + 1)

/-- The word with bits [hi:lo] replaced. -/
def setBits (w : Word) (hi lo : Nat) (v : Nat) : Word :=
  (w &&& ~~~ fieldMask hi lo) ||| ((BitVec.ofNat 16 v <<< lo) &&& fieldMask hi lo)

/-- The bits of a register under one access code. -/
def accMask (fs : List FieldDef) (a : Acc) : Word :=
  (fs.filter (fun f => f.acc == a)).foldl (fun m f => m ||| fieldMask f.hi f.lo) 0

/-- The reset word of a register (R5). -/
def resetWord (fs : List FieldDef) : Word := fs.foldl (fun w f => setBits w f.hi f.lo f.rst) 0

/-- The reset value under a key of the register file; the fused registers read what the part holds (R47, R386). -/
def regReset (k : Nat) : Word :=
  if R.SYS_EUI0 ≤ k ∧ k ≤ R.SYS_EUI3 then Config.eui ((k - R.SYS_EUI0) / 64)
  else if k = R.CLK_IRCTRIM then Config.ircTrim.setWidth 16
  else match regDef (k / 64 / 128) (k / 64 % 128) with
  | some r => resetWord r.flds
  | none => 0

/-- A write merged by access code (R2): RW bits take the value, LK bits take it while the path's SYS_UNLOCK is
open, W1C bits clear where 1 is written, RO and WT bits and reserved bits keep what they hold. -/
def mergeWrite (fs : List FieldDef) (unlocked : Bool) (old v : Word) : Word :=
  let wr := accMask fs .rw ||| (if unlocked then accMask fs .lk else 0)
  let kept := old &&& ~~~ wr
  (kept ||| (v &&& wr)) &&& ~~~ (v &&& accMask fs .w1c)

end Sys2Proof
end

