-- ==== Sys2Proof/Machine/Sparse.lean ====
section
/-! DEFINITION. Sparse stores: a list of (key, value) pairs with strictly rising keys that lists no entry equal to
what an unlisted key reads as. The register file, the tables and the flash of State are held in this one form. -/

namespace Sys2Proof.Machine

/-- What key `k` reads as: its entry, or the default `d k` where none is listed. -/
def spGet {α : Type} (d : Nat → α) : List (Nat × α) → Nat → α
  | [], k => d k
  | (j, v) :: l, k => if j = k then v else spGet d l k

/-- Removal of key `k`. -/
def spDrop {α : Type} : List (Nat × α) → Nat → List (Nat × α)
  | [], _ => []
  | (j, v) :: l, k => if j = k then spDrop l k else (j, v) :: spDrop l k

/-- Entry of (k, v) at its place. -/
def spPut {α : Type} : List (Nat × α) → Nat → α → List (Nat × α)
  | [], k, v => [(k, v)]
  | (j, w) :: l, k, v =>
    if j = k then (k, v) :: l else if k < j then (k, v) :: (j, w) :: l else (j, w) :: spPut l k v

/-- A write: the default value removes the entry, so that equal stores are equal lists. -/
def spSet {α : Type} [DecidableEq α] (d : Nat → α) (l : List (Nat × α)) (k : Nat) (v : α) : List (Nat × α) :=
  if v = d k then spDrop l k else spPut l k v

/-- The keys rise strictly and all lie at or above `lo`. -/
def spRising {α : Type} : Nat → List (Nat × α) → Bool
  | _, [] => true
  | lo, (k, _) :: l => decide (lo ≤ k) && spRising (k + 1) l

/-- The canonical form. -/
def spWf {α : Type} [DecidableEq α] (d : Nat → α) (l : List (Nat × α)) : Bool :=
  spRising 0 l && l.all (fun e => decide (e.2 ≠ d e.1))

/-- Removal of every key in [lo, lo + n). -/
def spClear {α : Type} (l : List (Nat × α)) (lo n : Nat) : List (Nat × α) :=
  l.filter (fun e => decide (e.1 < lo) || decide (lo + n ≤ e.1))

/-- The words `vs` written from key `k` on. -/
def spSetAll {α : Type} [DecidableEq α] (d : Nat → α) : List (Nat × α) → Nat → List α → List (Nat × α)
  | l, _, [] => l
  | l, k, v :: vs => spSetAll d (spSet d l k v) (k + 1) vs

/-- The keys from `k` on read the values `vs`. -/
def spBlock {α : Type} [DecidableEq α] (d : Nat → α) (l : List (Nat × α)) (k : Nat) (vs : List α) : List (Nat × α) :=
  l.filter (fun e => decide (e.1 < k)) ++
    ((vs.zipIdx k).map (fun e => (e.2, e.1))).filter (fun e => decide (e.2 ≠ d e.1)) ++
    l.filter (fun e => decide (k + vs.length ≤ e.1))

/-- The `n` values from key `k` on. -/
def spRead {α : Type} (d : Nat → α) (l : List (Nat × α)) (k n : Nat) : List α :=
  (List.range n).map (fun i => spGet d l (k + i))

/-- Element `i` of a list of a fixed number of like things; `i` past the end reads the default. -/
def nthOf {α : Type} [Inhabited α] (l : List α) (i : Nat) : α := l.getD i default

/-- Element `i` changed by `f`. -/
def modNth {α : Type} (l : List α) (i : Nat) (f : α → α) : List α :=
  match l, i with
  | [], _ => []
  | x :: xs, 0 => f x :: xs
  | x :: xs, i + 1 => x :: modNth xs i f

end Sys2Proof.Machine
end

