-- ==== Sys2Proof/Machine/State.lean ====
section
/-! DEFINITION. The state of the block: every register, table, FIFO, buffer, counter, mode and pin the spec gives it,
and the queue of the commands that wait, with its value right after reset, and the reasons a step can stop. -/

namespace Sys2Proof.Machine

/-- Why a step stops with a fault. -/
inductive Fault where
  /-- The host wrote an offset other than 0x00 of a reserved page, 0x11 to 0x1F: R4 forbids the write and gives it no
  effect. Raised on the host path by REGISTER_WRITE, PAIR_HI_WRITE, PAIR_LO_WRITE, TABLE_DATA_WRITE and
  TABLE_ADDR_WRITE, whose offset is an operand. Safe: the model stops where the part would go on. -/
  | reservedPageWrite
deriving DecidableEq, Repr

/-- Why a command has no meaning. -/
inductive Refusal where
  /-- The command is not modelled. Raised by no meaning; kept for an arm that is rejected by name. Safe. -/
  | notModelled (mnemonic : String)
deriving DecidableEq, Repr

/-- What one access path holds of its own (R25): page, pair latches, unlock state, the fraction snapshot of R321, the
password entry and region state of R445, and the word its last read returned. -/
structure PathState where
  page     : Nat := 0
  latch    : Word := 0
  latchTag : Option Nat := none
  stage    : Option (Nat × Word) := none
  armed    : Bool := false
  opened   : Bool := false
  snapF    : Nat := 0
  last     : Word := 0
  pwWords  : List Word := []
  regOpen  : List Nat := []
  /-- FDE_RSTAT as this path reads it (R110). -/
  rstat    : Word := 0
deriving DecidableEq, Repr, Inhabited

/-- An event record of R486, before it is laid out as eight words. -/
structure EvRec where
  cls    : Nat := 0
  ev     : Nat := 0
  detail : Nat := 0
  opsec  : Nat := 0
  pcc    : Nat := 0
  tv     : Bool := false
  lk     : Bool := false
  kh     : Bool := false
  st     : Nat := 0
  netsec : Nat := 0
deriving DecidableEq, Repr, Inhabited

/-- Clock generation (R361 to R386) beyond its registers. -/
structure ClkState where
  /-- Consecutive good windows of R363. -/
  xoRun      : Nat := 0
  /-- The count of the window before, if there was one. -/
  xoPrev     : Option Nat := none
  /-- A handover of R364 to XO is in progress; `ret`: it is a return under R375. -/
  handover   : Bool := false
  ret        : Bool := false
  /-- A RETXO that waits for the PLL to lock again (R374, R375). -/
  retDue     : Bool := false
  /-- The node has fallen back since the last start (R375). -/
  fellBack   : Bool := false
  /-- IRC is restarted and not yet accepted (R370). -/
  ircSettling : Bool := false
  /-- The clock is declared good (R371). -/
  good       : Bool := false
  /-- The next IRC check is the first after a fallback with IRC_KEEP = 0 (R372). -/
  firstCheck : Bool := false
  /-- PLL relock pending after a loss of lock (R374). -/
  relock     : Bool := false
  /-- Clock-fatal resets in a row without first light, and the hold that follows 4 of them (R372). -/
  fatalRow   : Nat := 0
  fatalHeld  : Bool := false
  /-- The IRC count that event 0x004 of the next start carries after a clock-fatal reset (R372). -/
  fatalEv    : Option Nat := none
  /-- Consecutive good KXO windows of R377. -/
  kxoRun     : Nat := 0
  /-- The spread in force (R379), written at the start of a modulation cycle. -/
  spread     : Word := 0x000F
  /-- The SYSCLK edge on which IRC came up (event 0x001 detail). -/
  ircAt      : Nat := 0
deriving DecidableEq, Repr, Inhabited

/-- Network time (R319 to R340) beyond its registers. Instants are in units of 2^-72 s modulo 2^104. -/
structure TimState where
  now       : Nat := 0
  /-- The extra rate of R324 step 2 in units of 2^-40, and the instant at which it ends. -/
  slewF     : Int := 0
  slewEnd   : Nat := 0
  /-- The instant of the last accepted offset. -/
  lastTheta : Option Nat := none
  /-- No offset has been taken since LIT entry; or since a SET or SETCAP. -/
  firstLit  : Bool := true
  afterSet  : Bool := false
  /-- The state HOLDOVER was loaded from the keep-alive counter. -/
  fromKeep  : Bool := false
  /-- Accepted offsets in a row within LOCKTH (R325). -/
  lockRun   : Nat := 0
  /-- The last offset was discarded while LOCKED. -/
  discarded : Bool := false
  /-- The captured instant of the last PPS edge. -/
  ppsLast   : Option Nat := none
  /-- The alarm instants of R335 as armed, and the milliseconds that REP has added to each. -/
  alarmAt   : List Nat := [0, 0, 0, 0]
  alarmMs   : List Nat := [0, 0, 0, 0]
  /-- An offset has been taken since the bench start, and the beacons in a row that were expected and gave none (R325). -/
  thetaGot  : Bool := false
  noTheta   : Nat := 0
  /-- A jump of more than 60 s since the last fade tick: schedule replay is due (R334, R96). -/
  jump      : Bool := false
  /-- The counter has been stepped or set since the last fade tick (R334). -/
  moved     : Bool := false
  /-- The SYSCLK edge of the last TIM_PHREF pulse (R336). -/
  phrefAt   : Option Nat := none
deriving DecidableEq, Repr, Inhabited

/-- Supplies, modes and start-up (R387 to R410) beyond the registers. -/
structure PwrState where
  /-- The step of R396 that the start-up has passed: 0 no VAUX or KEEP, 1 core regulator, 2 core reset released,
  3 time loaded, 4 PLL locked and port up, 5 vault recovered, 6 replay ended, 7 START left. -/
  boot      : Nat := 0
  /-- The SYSCLK edges of VAUX good, of the GO or time-out that first light is timed from, of LIT entry (HWD_BOOT_T)
  and of the last restart of the watchdog (HWD_T). -/
  vauxAt    : Nat := 0
  goAt      : Nat := 0
  litAt     : Nat := 0
  kickAt    : Nat := 0
  /-- The kick the host watchdog expects (R40). -/
  kick      : Word := 0x5A5A
  /-- GO or a time-out was taken while START: STATE leaves START on the next fade tick. -/
  leave     : Bool := false
  /-- First light has been reached since the last start. -/
  light     : Bool := false
  /-- RST# is low; a soft reset's replay has not ended. -/
  rstLow    : Bool := false
  softRst   : Bool := false
  /-- The mains-loss sequence of R400: the step reached, 0 when none runs; VAUX came back in it; the answer. -/
  loss      : Nat := 0
  lossZcs   : Bool := false
  vauxBack  : Bool := false
  granted   : Bool := false
  asked     : Bool := false
  /-- E_S before the burst, in uJ (R423). -/
  energy    : Nat := 0
  /-- Requests for hold by JTAG, and gates forced by EXTEST (R39, R512). -/
  jtagHold  : Bool := false
  extest    : Bool := false
  /-- VAUX results of the last 16 survey rounds, newest first (R398). -/
  vauxHist  : List Nat := []
  /-- The core buck's input has fallen below 2.6 V (R403). -/
  borLow    : Bool := false
  /-- VDRV has been under-voltage since the last reset and is not good again (R408). -/
  vdrvUv    : Bool := false
  /-- The strap as last sampled. -/
  strap     : Bool := false
  /-- The reset cause that the coming start-up has (R404). -/
  cause     : Nat := 0
deriving DecidableEq, Repr, Inhabited

/-- One channel of the switching generator and the realiser (R112 to R178) beyond its registers. Counts are in ticks of
the channel's counter. -/
structure Chan where
  /-- The counter runs (R129), and its count. -/
  run     : Bool := false
  cnt     : Nat := 0
  /-- The count has stepped onto CMPA, CMPB, the mid-period load point and PER in this period, or has been loaded past
  them (R143). -/
  aHit    : Bool := false
  bHit    : Bool := false
  mHit    : Bool := false
  pHit    : Bool := false
  /-- The active set (R123) and the active UPD (R125). -/
  per     : Nat := 0x265
  cmpa    : Nat := 0
  cmpb    : Nat := 0x1E
  fine    : Nat := 0
  upd     : Nat := 0
  /-- The gates as the timing and the forces drive them, and the turn-ons that are pending. -/
  hg      : Bool := false
  lg      : Bool := false
  hgDue   : Bool := false
  lgDue   : Bool := false
  /-- The count at which the DTMIN wait of a pending HG ends, once LG has been sensed low (R119). Counts of an earlier
  period stand below 0. -/
  hgAt    : Option Int := none
  /-- The count at which LG, now off, has been sensed below 1.0 V; none while it has not (R119, R135). -/
  lgLow   : Option Int := some 0
  /-- LG was commanded off in this period: DTLH is measured from `lgOff` (R122). -/
  lgFell  : Bool := false
  /-- The counts of the last off commands and of the last rises; 0 for an HG that was on as the period began. -/
  hgOff   : Int := 0
  lgOff   : Int := 0
  hgOn    : Int := 0
  lgOn    : Int := 0
  /-- In this period: HG was on as it began; HG rose; how HG ended (0 not, 1 CMPA, 2 peak comparator, 3 trip or force, 4
  cut, 5 hold timeout or VDRV); a trip or force acted; the comparators are past blanking; zero current ended LG, and the ticks from HG off to
  it; the fine delay of the last fall by compare. -/
  entered : Bool := false
  rose    : Bool := false
  ended   : Nat := 0
  /-- The mid on-time of this period has passed (R154). -/
  cap     : Bool := false
  hurt    : Bool := false
  armed   : Bool := false
  zcd     : Bool := false
  td      : Nat := 0
  fineEnd : Nat := 0
  /-- Burnish (R131 to R133): this period, the next one, dropout periods since HG last fell; bootstrap lows make the
  periods burnish periods; the bootstrap comparator is active. -/
  burn    : Bool := false
  burnDue : Bool := false
  dropRun : Nat := 0
  bst     : Bool := false
  bstOn   : Bool := false
  /-- Forces in effect, and one that is armed (R134). -/
  fHg     : Nat := 0
  fLg     : Nat := 0
  fNew    : Option (Nat × Nat) := none
  /-- The event prescaler (R143). -/
  psc     : Nat := 0
  /-- Frozen in hold (R142); a restart waits for the next boundary (R140), or for the channel to run (R504); a boundary
  since the declaration of a mains loss has shut the gates (R400 step 2). -/
  frozen  : Bool := false
  restart : Bool := false
  closed  : Bool := false
  /-- Periods in a row, not gated off, that HG ended by CMPA or that were dropout (R171). -/
  cmpaRun : Nat := 0
  /-- The on-time of the last period in which HG rose (R154), and of this one. -/
  tPrev   : Option Nat := none
  tOn     : Nat := 0
  /-- The realiser: region A open with its amplitude; the burst running and the one that waits, as whole cycles and
  final amplitude; this period is a final cycle; the DAC code; count-0 edges in this dimming period; the first dimming
  period after a start or a change. -/
  openA   : Bool := false
  ampA    : Nat := 0
  bk      : Nat := 0
  bf      : Nat := 0
  nk      : Nat := 0
  nf      : Nat := 0
  fin     : Bool := false
  thr     : Nat := 0
  kCount  : Nat := 0
  kFirst  : Bool := true
  /-- The SYSCLK edge on which the soft start began (R169). -/
  ssAt    : Nat := 0
  /-- The amplitude of this period; probe cycles left in the dimming period and their amplitude (R192); this period is
  the last probe cycle. -/
  amp     : Nat := 0
  pk      : Nat := 0
  pa      : Nat := 0
  probe   : Bool := false
deriving DecidableEq, Repr, Inhabited

/-- A colour as the fade engine holds it: u' and v', or CCT in kelvin and Duv (R60, R76 to R78). -/
structure Colour where
  cct : Bool := true
  x   : Rat := 4000
  y   : Rat := 0
  /-- A CCT that u' and v' come from was clamped (R60). -/
  clamped : Bool := false
deriving DecidableEq, Repr, Inhabited

/-- What a lamp shows: brightness and colour. -/
structure Shown where
  b : Nat := 0
  c : Colour := {}
deriving DecidableEq, Repr, Inhabited

/-- A fade under way (R76 to R79): ticks run, duration in ticks, its contour, and the contour's values where a table
swap has replaced them since the fade began (R108). -/
structure Fade where
  start : Shown := {}
  n     : Nat := 0
  dur   : Nat := 0
  k     : Nat := 0
  old   : Option (List Word) := none
deriving DecidableEq, Repr, Inhabited

/-- A held slot of an owner level (R81): its fade, its target, its hold as a fade word (0: until released), the rule
that wrote it (R100), the keep-alive time of the write (R103), and the ticks since (R86). -/
structure Slot where
  fade : Fade := {}
  age  : Nat := 0
  tgt  : Shown := {}
  hold : Nat := 0
  rule : Option Nat := none
  wrote : Nat := 0
deriving DecidableEq, Repr, Inhabited

/-- One lamp's part of a request (R90, R110): targets or the present values, fade word, contour and hold. -/
structure LampReq where
  b     : Nat := 0
  keepB : Bool := false
  c     : Colour := {}
  keepC : Bool := false
  t     : Nat := 0
  k     : Nat := 0
  hold  : Nat := 0
  rule  : Option Nat := none
  /-- The start instant that a rule's hold is counted from (R99). -/
  since : Option Nat := none
  /-- The plate whose entry the request is, and the fade word in place of the entry's own: a start that waits reads the
  plate again (R93). -/
  plate : Option Nat := none
  pfade : Option Nat := none
deriving DecidableEq, Repr, Inhabited

/-- When a request starts (R88): now, at a network-time instant, or on destination 0x22. -/
inductive StartAt where
  | now
  | instant (t : Nat)
  | evr
deriving DecidableEq, Repr, Inhabited

/-- Where the answer to a line command goes, and what it copies (R290, R291): the opcode and TAG of the command, URG,
DMODE short, and whether it was looped. -/
structure Reply where
  opc   : Nat := 0
  tag   : Byte := 0
  urg   : Bool := false
  short : Bool := false
  loop  : Bool := false
  /-- The SNR measured over the command's frame (R244). -/
  snr   : Option (Nat × Nat) := none
deriving DecidableEq, Repr, Inhabited

/-- A network event that the rules test on the next tick (R98, R99, R295): its type, its position, its own instant, and
the reception instant with whether network time was valid then. -/
structure NetEvent where
  typ   : Nat := 0
  pos   : Nat := 0
  at_   : Option Nat := none
  rx    : Nat := 0
  valid : Bool := false
deriving DecidableEq, Repr, Inhabited

/-- A plate that a request applies (R92, R93): its number, lamp mask, the fade word in place of the entries' own, and
the hold; the rule that applies it and the start instant of its hold (R99). -/
structure PlateRef where
  plate : Nat := 0
  mask  : Nat := 0
  fade  : Option Nat := none
  hold  : Nat := 0
  rule  : Option Nat := none
  since : Option Nat := none
deriving DecidableEq, Repr, Inhabited

/-- A request queued for the next tick (R87): its level, its start, its lamps, and the path that reads its result. -/
structure QReq where
  lvl   : Nat := 0
  start : StartAt := .now
  lamps : List (Nat × LampReq) := []
  /-- A plate whose words are read when the request is taken (R93). -/
  plate : Option PlateRef := none
  by_   : Option Path := none
  /-- The line command that is answered when the request is taken. -/
  reply : Option Reply := none
  /-- The instant had passed when the request arrived (R89). -/
  late  : Bool := false
deriving DecidableEq, Repr, Inhabited

/-- A lamp in the fade engine (R81 to R89): its slots by level, the cross-fade of R85, what it showed on the last tick,
each slot's state on that tick (R84), and its pending request; `due`: a pulse or its instant has come. -/
structure FLamp where
  slots : List (Option Slot) := [some {}, none, none, none, none, none, none, none]
  xf    : Option Fade := none
  shown : Shown := {}
  was   : List (Option Shown) := []
  pend  : Option (Nat × StartAt × LampReq) := none
  due   : Bool := false
deriving DecidableEq, Repr, Inhabited

/-- The keep-alive domain: counters, keep RAM contents and the interruption timer (R330, R411 to R431, R537). -/
structure KeepState where
  /-- The keep-alive counter, units of 2^-48 s modulo 2^80 (R330). -/
  ka        : Nat := 0
  /-- The elapsed-time count of R537, units of 2^-48 s, and the hour ticks that have fallen in it. -/
  elapsed   : Nat := 0
  hours     : Nat := 0
  /-- E0 in units of 10^-10. -/
  e0        : Int := 0
  /-- The temperature T of R330, 1/16 degC, signed, and its sum and count over the window of R331. -/
  temp      : Int := 400
  tempSum   : Int := 0
  tempN     : Nat := 0
  /-- The window of R331: its start in network time and the edges counted in it. -/
  winStart  : Nat := 0
  winEdges  : Nat := 0
  /-- SYSCLK cycles since the last KXO edge. -/
  phase     : Nat := 0
  /-- SYSCLK seconds of LIT counted towards HC2, in KXO edges. -/
  litEdges  : Nat := 0
  /-- Area 3: an interruption under way, its start, its edges and those on KRC; the tap count and the last return. -/
  off       : Bool := false
  offStart  : Nat := 0
  offEdges  : Nat := 0
  offKrc    : Nat := 0
  taps      : Nat := 0
  lastRet   : Nat := 0
  /-- What is handed to the fade engine at LIT entry (R425): the class, and the taps of a gesture that the interruption
  discarded (R101). -/
  handed    : Nat := 3
  dropped   : Nat := 0
  /-- The cell is admitted (R412); CLK_GATE_DEEP as applied at KEEP entry (R382), and TIM_KTC as it stood then (R330). -/
  cell      : Bool := false
  deep      : Word := 0x0007
  ktc       : Word := 0x1922
  /-- Area 2: the last shown state and the level-6 slot of each lamp (R104). -/
  fdeShown  : List Shown := List.replicate 8 {}
  fdeL6     : List (Option Slot) := List.replicate 8 none
  /-- Area 6: records held for Q6, those not held, those lost, and the fill of Q6. -/
  held      : List EvRec := []
  missed    : Nat := 0
  lost      : Nat := 0
  /-- Area 4: cell charge in units of 0.5 uA s below 0.1 mAh, harvested energy in uJ below 36 J. -/
  cellPart  : Nat := 0
  harvPart  : Nat := 0
  /-- Area 7: consecutive wrong passwords, the lockout that runs and the elapsed time at which it ends (R446). -/
  pwWrong   : Nat := 0
  pwLock    : Bool := false
  pwUntil   : Nat := 0
  /-- The keep RAM areas that are not retained, and those whose contents do not match their CRC-32 word (R427). -/
  bad       : List Nat := [0, 1, 2, 3, 4, 5, 6, 7, 8]
  corrupt   : List Nat := []
deriving DecidableEq, Repr, Inhabited

/-- The fade engine (R74 to R111) beyond its registers. -/
structure FdeState where
  lamps   : List FLamp := List.replicate 8 {}
  /-- Requests and releases that the next tick takes; a release is (level, lamp mask, fade word, path, reply). -/
  reqs    : List QReq := []
  rels    : List (Nat × Nat × Nat × Option Path × Option Reply) := []
  events  : List NetEvent := []
  /-- Line commands decided on the last tick, not yet answered: code of R110 and lamps refused. -/
  results : List (Reply × Nat × Nat) := []
  /-- The lamps that LOSS took (R105). -/
  lossM   : Nat := 0
  /-- The tables in force and the edit copy, by table * 8192 + word address. -/
  active  : List (Nat × Word) := []
  edit    : List (Nat × Word) := []
  /-- The plate buffer of R93. -/
  pltBuf  : Option (Nat × List Word) := none
  /-- The last local minute evaluated (R334, R95), and whether replay is due (R96). -/
  minute  : Option Int := none
  replay  : Bool := false
  /-- Level 0 has been written since LIT entry (R103). -/
  level0  : Bool := false
deriving DecidableEq, Repr, Inhabited

/-- A captured value that waits for conversion (R180): its channel, which hold, its SYSCLK edge, the commanded
amplitude, and, once its period has ended, how: HG ended by 1 CMPA, 2 peak comparator, 3 trip or force; ticks HG was
on; ticks from HG off to zero current, where that ended LG (R155). -/
structure Capture where
  ch    : Nat := 0
  volt  : Bool := false
  at_   : Nat := 0
  amp   : Nat := 0
  thr   : Nat := 0
  past  : Bool := false
  /-- The trim takes the sample: CUR_CCFG.TRIMEN was 1 and PWM_CTL.MODE 0 in its period (R156). -/
  trim  : Bool := true
  ended : Nat := 0
  ton   : Nat := 0
  td    : Option Nat := none
  per   : Nat := 0
  proof : Bool := false
  /-- The converted code, where the conversion came before the period's end. -/
  code  : Option Int := none
deriving DecidableEq, Repr, Inhabited

/-- What a proof run has at one amplitude point: captures of each hold, their sums as codes (currents in 1/256), and the
sum and count of rho in units of 2^-20. -/
structure ProofPoint where
  nI   : Nat := 0
  sumI : Int := 0
  nV   : Nat := 0
  sumV : Nat := 0
  rho  : Nat := 0
  nRho : Nat := 0
deriving DecidableEq, Repr, Inhabited

/-- A proof run in progress (R190 to R199). -/
structure ProofRun where
  dark    : Bool := false
  startAt : Nat := 0
  /-- The points of the slots still to come, in order. -/
  plan    : List Nat := [0, 1, 2, 3, 0, 1, 2, 3, 0, 1, 2, 3, 0, 1, 2, 3]
  /-- The slot in progress: its point, rounds left, dimming periods seen and those in which it was unreachable, and what
  it has measured. -/
  slot    : Option Nat := none
  rounds  : Nat := 0
  periods : Nat := 0
  unreach : Nat := 0
  now     : ProofPoint := {}
  /-- The counted slots of each point, and the temperature, 1/16 degC, over them. -/
  points  : List ProofPoint := [{}, {}, {}, {}]
  tSum    : Int := 0
  tN      : Nat := 0
deriving DecidableEq, Repr, Inhabited

/-- The analyser's working values of one channel (R187 to R210). -/
structure HChan where
  /-- Re-arming instants of the round that each hold has used (R181). -/
  armI    : Nat := 0
  armV    : Nat := 0
  /-- This round: current captures, the sum of their period averages in 1/256 codes and of the commanded amplitudes;
  voltage captures and their sum; the BSTn - SWn code; t_on sum, duty sum in 2^-20 and periods; alternation sum and
  count over t_on; dead-time sums and count; amplitude-cycles commanded; count-0 edges; rho sum in 2^-20 and count. -/
  nI      : Nat := 0
  sumI    : Int := 0
  aSum    : Nat := 0
  nV      : Nat := 0
  sumV    : Nat := 0
  bst     : Option Nat := none
  onSum   : Nat := 0
  duty    : Nat := 0
  nOn     : Nat := 0
  lastOn  : Option Nat := none
  altSum  : Nat := 0
  nAlt    : Nat := 0
  dhl     : Nat := 0
  dlh     : Nat := 0
  nDt     : Nat := 0
  qSum    : Nat := 0
  edges   : Nat := 0
  rho     : Nat := 0
  nRho    : Nat := 0
  bstSet  : Bool := false
  /-- Of the last round with current captures that was measured: their sum in 1/256 codes, their number, and the sum of
  their commanded amplitudes (I_on and A_c of R187). -/
  lastSum : Int := 0
  lastN   : Nat := 0
  lastA   : Nat := 0
  /-- Residuals in uV of the measured rounds, newest first, at most 4096 (R200), and those of the baseline of R201, at
  most 64. -/
  res     : List Int := []
  base    : List Int := []
  /-- For each n from 1 to 4, the rounds in a row whose step fits n LEDs and the sum of those steps in uV; and the residuals
  of the longest of these runs, newest first, which the baseline does not hold yet (R201). -/
  ledC    : List (Nat × Int) := List.replicate 4 (0, 0)
  ledRes  : List Int := []
  /-- For each class, rounds in a row with its condition, and without. -/
  with_   : List Nat := List.replicate 8 0
  less    : List Nat := List.replicate 8 0
  /-- The last accepted run's V0 differed by more than HLT_DLIM (R200 DRIFT). -/
  v0Jump  : Bool := false
  /-- Stress hours in units of 2^-40 h, the maintenance estimate in 2^-16 (R206), milliseconds with a DRIVE towards the
  next hour (R210), output energy in uW ms below 1 Wh. -/
  stress  : Nat := 0
  maint   : Nat := 65536
  onMs    : Nat := 0
  energy  : Int := 0
  /-- The baseline of dead times being learned: rounds and sums (R204). -/
  learn   : Option (Nat × Nat × Nat) := none
  /-- rho_ref in 2^-20; the last accepted run's intercept in mV and its temperature in 1/16 degC, and its V0 in mV
  (R198, R200, R202). -/
  rhoRef  : Option Nat := none
  fitA    : Option (Int × Int) := none
  fitV0   : Option Int := none
  run     : Option ProofRun := none
deriving DecidableEq, Repr, Inhabited

/-- The health analyser (R179 to R213) beyond its registers. -/
structure HltState where
  /-- For NTC0 to NTC3: a valid reading has been published since LIT entry; the last reading is invalid; an invalid one
  posts event 0x009 (R188); the filters of NTC0 to NTC3 and the die in 2^-16 of 1/16 degC. -/
  ntcSeen : List Bool := [false, false, false, false]
  ntcBad  : List Bool := [false, false, false, false]
  ntcArm  : List Bool := [true, true, true, true]
  filt    : List Int := [0, 0, 0, 0, 0]
  dieSeen : Bool := false
  chans   : List HChan := List.replicate 16 {}
  /-- Converter slots since the round began, and the SYSCLK edge on which it did. -/
  slot    : Nat := 0
  roundAt : Nat := 0
  /-- Captures that wait, oldest first, those that are converted and wait for their period to end (R155), and the number
  lost in this round. -/
  waiting : List Capture := []
  held    : List Capture := []
  lost    : Nat := 0
  /-- Round schedule conversions due, and the place of the next in the schedule of 92 (R183). -/
  due     : Nat := 92
  pos     : Nat := 0
  /-- The last 16 zero and reference results, newest first; the corrections in force: offset in 1/16 codes, gain in
  2^-20 (R182). -/
  zeros   : List Int := []
  refs    : List Nat := []
  offset  : Int := 0
  gain    : Nat := 1048576
  nextRef : Bool := false
  /-- The user sequence: inputs not yet converted, results made, and the last result as a Q7 word (R185, R186). -/
  user    : List Nat := []
  made    : Nat := 0
  lastUs  : Nat := 0
  /-- This round: results of NTC0 to NTC3, the die, VAUX; the sum of the link's products and the pairs. -/
  ntcRes  : List (Option Nat) := [none, none, none, none]
  dieRes  : Option Int := none
  vauxRes : Option Nat := none
  vlsns   : Nat := 0
  link    : Int := 0
  pairs   : Nat := 0
  /-- Link energy in uW ms below 1 Wh. -/
  energy  : Int := 0
  /-- The first entry to LIT-RUN since LIT entry has been (R199). -/
  litSeen : Bool := false
  /-- The tables in force and the edit copy, by word address. -/
  active  : List (Nat × Word) := []
  edit    : List (Nat × Word) := []
deriving DecidableEq, Repr, Inhabited

/-- The solver (R48 to R73) beyond its registers. -/
structure LmpState where
  /-- Staged LMP_MAP words, and LMP_CFG words that wait for the check with the one staged when they were written (R48). -/
  smap    : List (Option Word) := List.replicate 8 none
  scfg    : List (Option (Word × Option Word)) := List.replicate 8 none
  /-- The tables in force and the edit copy, by word address. -/
  active  : List (Nat × Word) := []
  edit    : List (Nat × Word) := []
deriving DecidableEq, Repr, Inhabited

/-- The switching generator and the realiser as a whole. -/
structure PwmState where
  chans   : List Chan := List.replicate 16 {}
  /-- SYNCO is high (R144). -/
  synco   : Bool := false
  /-- STORM has been raised in this bench (R141). -/
  stormed : Bool := false
  /-- The die is over-temperature; the global sources that are active or not yet inactive for 1 ms: LINKUV, LINKOV, OT
  as bits 6 to 8. -/
  otLive  : Bool := false
  waiting : List Nat := []
  /-- Global sources that have been inactive for 1 ms (R140). -/
  quiet   : List Nat := []
  /-- DRIVE of each channel as the solver last handed it over (R8), and as the realiser took it last. -/
  drive   : List Nat := List.replicate 16 0
  /-- Stipple index of each lamp; the ninth is that of channels in no lamp (R162, R167). -/
  stip    : List Nat := List.replicate 9 0
  /-- The SYSCLK edge of the last SYNCI edge, and edges since the source was taken up (R167). -/
  synciAt : Option Nat := none
  synciN  : Nat := 0
  /-- For each lamp and for the channels of none: the SYSCLK edge on which its dimming period began, the edge on which
  the next start of an external source is due (R167), and that the source has changed since the period began (R168). -/
  dimAt   : List (Option Nat) := List.replicate 9 none
  dimDue  : List (Option Nat) := List.replicate 9 none
  dimNew  : List Bool := List.replicate 9 false
  /-- The length of each dimming period in SYSCLK cycles, taken at its start (R166). -/
  dimLen  : List Nat := List.replicate 9 6400
  /-- The realiser has been restarted at this SYSCLK edge, and the lamps whose next period repeats the last (R406). -/
  stallAt : Nat := 0
  dimRep  : List Bool := List.replicate 9 false
deriving DecidableEq, Repr, Inhabited

/-- A native record of R435 that is valid: its kind, its commit, its payload and its place in its ring. -/
structure NRec where
  typ     : Nat := 0
  seq     : Nat := 0
  payload : List Byte := []
  unit    : Nat := 0
deriving DecidableEq, Repr, Inhabited

/-- A CFG or TAB bank (R442): header and body. A CFG body is a list of (register, value) in replay order, a register
being page * 128 + offset; a TAB body is a list of sections (page * 256 + table, words). -/
structure Bank where
  version : Nat := 0
  saves   : Nat := 0
  digest  : List Byte := []
  cfg     : List (Nat × Word) := []
  tab     : List (Nat × List Word) := []
deriving DecidableEq, Repr, Inhabited

/-- An entry of the commit buffer (R434): what waits until it is done. -/
inductive VEntry where
  /-- A native record. -/
  | record (typ : Nat) (payload : List Byte)
  /-- A plate write of R93. -/
  | plate (p : Nat) (words : List Word)
  /-- A USR page of R444: word addresses and words. -/
  | usrPage (cells : List (Nat × Word))
  /-- The erase of a USR sector. -/
  | usrErase (sector : Nat)
  /-- A forerunner write of R447: the buffer's words 0 to 509. -/
  | legWrite (words : List Word)
  /-- A bank build of R442; `owner` is the page whose SAVEPEND clears, 0 for none. -/
  | bank (cfg : Bool) (owner : Nat) (b : Bank)
  /-- The seal reset of R492; `remote`: detail of event 0x003. -/
  | sealReset (remote : Bool)
  /-- The rewrite of LOG sector 0 that keeps slots 0 to 63 (R490). -/
  | logSector0
deriving DecidableEq, Repr, Inhabited

/-- The vault (R432 to R458) beyond its registers. `flash` lists the bytes of the regions that a path or an engine reads
as bytes, PLT, LOG, LEG, the bundle staging and USR; `own` those of the regions that the vault alone reads, CFG, TAB, REC,
HAT, KEY and scratch (R433). What the latter say is held beside them, as the vault works with it: banks, records, hatch
state. -/
structure VltState where
  flash    : List Host.Cell := []
  own      : List Host.Cell := []
  /-- The byte addresses that the last direct write programmed, and the SYSCLK edge of the last hatch increment (R457,
  R454). -/
  last     : List Nat := []
  hatAt    : Nat := 0
  recs     : List NRec := []
  keys     : List NRec := []
  /-- Write points and erase points of the REC and KEY rings, in 16-byte units counted without wrapping (R439). -/
  recHead  : Nat := 0
  recTail  : Nat := 0
  keyHead  : Nat := 0
  keyTail  : Nat := 0
  /-- The last complete commit (VLT_CNUM), and the highest commit number with a journal or a VOID (R440). -/
  cnum     : Nat := 0
  vnum     : Nat := 0
  /-- The newest complete journal says CLEAN (R437, R438). -/
  clean    : Bool := true
  /-- A commit is begun in flash and its journal is not complete; the number of its records that stood in flash where it
  was cut (R440). -/
  begun    : Bool := false
  cutAt    : Nat := 0
  /-- The commit buffer (keep RAM area 0), oldest entry first. -/
  buf      : List VEntry := []
  /-- Records that engines hold until the buffer has room for them (R434). -/
  wait     : List (Nat × List Byte) := []
  /-- The commit in progress: the number of its entries at the front of the record entries. -/
  commit   : Option Nat := none
  /-- The entry that a sector operation, bank build or LEG write is carrying out. -/
  op       : Option VEntry := none
  /-- An SCR without its SCRDONE: the target is finished at recovery (R440 step 7). -/
  scr      : Option VEntry := none
  cfgBank  : List (Option Bank) := [none, none]
  tabBank  : List (Option Bank) := [none, none]
  /-- The commit buffer was lost while the newest journal said CLEAN = 0 (R424, R440 step 8). -/
  lostBuf  : Bool := false
  /-- A TAB bank swapped in by a bundle takes effect on the next fade tick (R477). -/
  tabDue   : Bool := false
  /-- A bank of the kind has passed before (R456, event 0x006 detail 2). -/
  cfgSeen  : Bool := false
  tabSeen  : Bool := false
  /-- The passwords of USR, LEG and LOG (R445). -/
  pw       : List (BitVec 64) := [0, 0, 0]
  /-- The LEG edit buffer of 512 words. -/
  legBuf   : List (Nat × Word) := []
  /-- The USR page buffer: words written at their addresses. -/
  usrBuf   : List (Nat × Word) := []
  /-- Table ports marked past the end (R28), by the key of their address register. -/
  past     : List Nat := []
  /-- Hatch counters: bases, marked cells, and held increments with the base epoch they are tagged with; those that arose
  in a fold are tagged with the epoch that it makes (R450 to R453). -/
  hatBase  : List (Nat × Nat) := []
  hatMark  : List (Nat × Nat) := []
  hatHeld  : List (Nat × Nat) := []
  hatTag   : Nat := 1
  hatNext  : List (Nat × Nat) := []
  /-- The new bases of a fold in progress (R453). -/
  fold     : Option (List (Nat × Nat)) := none
  epoch    : Nat := 1
  /-- The active hatch sector, 0 X and 1 Y, and the place of the next base set in the base area (R450). -/
  hatSec   : Nat := 0
  basePos  : Nat := 0
  /-- The erase of R454 that is put off: 0 none, 1 the other sector, 3 the active sector, whose header follows. -/
  hatCut   : Nat := 0
  /-- No valid base set in a region that is not blank: counters read 0 (R454). -/
  hatBad   : Bool := false
  /-- The recorder: started (R489); a seal reset runs (R492); the Q6 count dropped since the last event 0x002. -/
  recUp    : Bool := false
  sealing  : Bool := false
  dropped  : Nat := 0
  /-- Torn slots left by a cut write of the recorder (R493). -/
  torn     : List Nat := []
deriving DecidableEq, Repr, Inhabited

/-- The line PHY (R214 to R253) beyond its registers. Instants are SYSCLK edges; a carrier set is a number whose bit i is
carrier index i = k - 12. -/
structure PhyState where
  /-- The filtered mains period in 2^-16 us, 0 before the first; periods in a row within 2 %; the filtered phase of the
  rising zero crossings; the SYSCLK edges of the last rising edge and of the last edge; ZCS has been valid since LIT entry
  (R223, R225). -/
  zcPer    : Nat := 0
  zcGood   : Nat := 0
  zcAt     : Option Nat := none
  zcRaw    : Option Nat := none
  zcEdge   : Nat := 0
  zcSeen   : Bool := false
  /-- The start of the present course, its length in ADC samples (R221), and the number of its position 0 among all
  positions since LIT entry. -/
  courseAt : Nat := 0
  nc       : Nat := 15360
  posBase  : Nat := 0
  /-- Phase learning (R226, R227): the last multiple of 60 degrees and how many beacons in a row gave it, beacons in a
  row beyond 15 degrees once learned, the multiple learned, and FINE in 2^-8 us. -/
  lrnM     : Nat := 0
  lrnN     : Nat := 0
  badN     : Nat := 0
  lrn      : Nat := 0
  fineQ    : Int := 0
  /-- The bands in use (R220), the position at which they came into use and the bands before them, the static mask in use
  and as written (R248), the self mask in use (R249). -/
  band     : Nat := 1
  bandPos  : Nat := 0
  bandWas  : Nat := 1
  mask     : Nat := 0
  maskNew  : Nat := 0
  self     : Nat := 0
  /-- The filtered noise of each position in 2^-6 of 1/8 dB (R247). -/
  noise    : List Int := List.replicate 24 0
  /-- The first free value of the SNR of the last payload, and its carriers (table 0x4). -/
  snr      : Option (Nat × Nat) := none
  /-- Receive and transmit maps by word address (R243), the instant at which each was written, and last used. -/
  rxMaps   : List (Nat × Word) := []
  txMaps   : List (Nat × Word) := []
  rxAt     : List (Nat × Nat) := []
  rxUse    : List (Nat × Nat) := []
  txAt     : List (Nat × Nat) := []
  txUse    : List (Nat × Nat) := []
  /-- Frames of this bench in which the driver's current limit acted, and the end of the last of them (R252). -/
  ilim     : Nat := 0
  ilimAt   : Nat := 0
  /-- The transmission in progress or last made: the bands with which it began, its header, its bytes, the map it was sent
  under, the position at which it began and the one that follows it; and those two of the transmission before. -/
  txBand   : Nat := 1
  txHdr    : Nat := 0
  txBytes  : List Byte := []
  txMap    : List Word := []
  txFrom   : Nat := 0
  txEnd    : Nat := 0
  txWas    : Nat × Nat := (0, 0)
  /-- The header last accepted, the position that follows the last symbol received, and the one that follows the busy span
  (R265). -/
  rxHdr    : Option Nat := none
  rxEnd    : Nat := 0
  busyEnd  : Nat := 0
  /-- The gain has settled on a preamble whose header has not been decoded (R246). -/
  agcHeld  : Bool := false
deriving DecidableEq, Repr, Inhabited

/-- A frame in a ring. In Q3 `raw` holds what follows the MAC header as it was received; `kid` is the key identifier of
a received frame that was verified. For a frame that waits for the line: bench starts since it entered, attempts made
and the bytes as protected for the first attempt. `after` is what its leaving Q2 starts: 1 an address change to `arg`,
2 leaving the segment, 3 the wait before the reset of an applied bundle (R303, R477). -/
structure Ent where
  f     : LineFrame := {}
  raw   : List Byte := []
  kid   : Option Byte := none
  loop  : Bool := false
  age   : Nat := 0
  tries : Nat := 0
  sent  : Option (List Byte) := none
  /-- The mode of the first attempt (0 a map, 1 ROBO4), and PHY_BAND bits a TM_REQ is sent on, 0 for all enabled. -/
  mode  : Option Nat := none
  bands : Nat := 0
  after : Nat := 0
  arg   : Nat := 0
  /-- The SNR measured over a received frame (R244). -/
  snr   : Option (Nat × Nat) := none
deriving DecidableEq, Repr, Inhabited

/-- A valid beacon of a bench (R260): the bench, the counter at its located instant, FRAC, the half positions from the
head beacon's reference instant to its own, the whole seconds that lie nearest, and whether their θ has been given. -/
structure BeaconHeard where
  bench : Nat := 0
  at_   : Nat := 0
  frac  : Nat := 0
  place : Nat × Nat := (0, 0)
  sec   : Option Nat := none
  given : Bool := false
deriving DecidableEq, Repr, Inhabited

/-- A bench notice received (R263), and the bench in which it ended. -/
structure Notice where
  bench : Nat := 0
  secs  : Nat := 0
  ofs   : Nat := 0
  dep   : Nat := 0x3FF
  rmap  : Nat := 0
  flags : Nat := 0
  src   : Nat := 0
deriving DecidableEq, Repr, Inhabited

/-- Line access (R255 to R285) beyond its registers. -/
structure MacState where
  q0 : List Ent := []
  q1 : List Ent := []
  q2 : List Ent := []
  q3 : List Ent := []
  q4 : List Ent := []
  q5 : List Ent := []
  /-- Words of the oldest Q4 and Q7 entry already read through MAC_RDATA, and the Q5 entry being built (R283). -/
  rd       : Nat := 0
  rd7      : Nat := 0
  build    : List Word := []
  /-- The 12-bit sequence counter, and whether it has been started from the EUI (R270, R302). -/
  seq      : Nat := 0
  /-- The last 32 pairs of SRC and sequence accepted, newest first (R272). -/
  seen     : List (Nat × Nat) := []
  /-- The acknowledgement that is due: STAT, CHK and the position at which its span begins (R266). -/
  ackDue   : Option (Nat × Nat × Nat) := none
  /-- Frames whose acknowledgement is awaited: ring, CHK and the position that follows the span, oldest first (R267). -/
  waitAck  : List (Nat × Nat × Nat) := []
  /-- The position from which the next frame of a reservation may begin (R269), and the one at which the frame that
  contends drew its number of idle slots (R265). -/
  resAt    : Option Nat := none
  drawAt   : Nat := 0
  /-- Course 0 has begun, and its bench has not (R255). -/
  benchDue : Bool := false
  /-- A notice that takes effect at the next bench start, the first has come since LIT entry, the HPH it gave. -/
  notice   : Option Notice := none
  noticed  : Bool := false
  hph      : Nat := 3
  /-- The bench number modulo 4 is known (R262). -/
  counted  : Bool := false
  /-- Valid beacons whose bench's notice may still come, newest first (R260); the seconds of the own head beacon of this
  bench (R263). -/
  bWait    : List BeaconHeard := []
  headSecs : Nat := 0
  /-- SNR of the last valid beacon in 0.25 dB. -/
  snr      : Nat := 0
  /-- This bench: own head beacon sent; a head beacon located in course 0; a miss counted. Consecutive misses (R279). -/
  sentHead : Bool := false
  heard    : Bool := false
  missed   : Bool := false
  misses   : Nat := 0
  /-- A takeover beacon waits for its place in course 1; the SYSCLK edge of its reference instant; the acting head became
  so in this bench (R279). -/
  takeDue  : Bool := false
  takeAt   : Option Nat := none
  newHead  : Bool := false
  /-- Bench starts since a HEAD began to listen, and the place in the bench at which it began; a role that waits for the
  bench start (R278, R538). -/
  listen   : Option Nat := none
  listenAt : Nat := 0
  roleNew  : Option Nat := none
  /-- Beacons heard while unjoined as (tier, best SNR), and addresses heard as (tier, address) (R275). -/
  cands    : List (Nat × Nat) := []
  addrs    : List (Nat × Nat) := []
  /-- The wait of a join request in benches, and benches since it was made; benches left after a refusal (R302). -/
  joinWait : Nat := 8
  joinAge  : Nat := 0
  barred   : Nat := 0
  /-- The member table of a relay (R276). -/
  members  : List Nat := []
  /-- Own reservations that a notice in effect has shown (R304). -/
  rsvOk    : List Bool := [false, false, false, false]
  /-- Grants of an acting head: target, index, first course, length; the map of its next notice; its version. -/
  grants   : List (Nat × Nat × Nat × Nat) := []
  mapNext  : Nat := 0
  mapVer   : Nat := 0
  /-- SYSCLK edge of the last TM_REQ to the parent (R305), and the neighbours asked that have not answered (R301). -/
  tmAt     : Option Nat := none
  asked    : List Nat := []
deriving DecidableEq, Repr, Inhabited

/-- A general timer channel (R341 to R359) beyond its registers: its count and prescaler phase, the values in effect and
those that wait, OUT, blanking output, counting, filtered pad level, a pulse on the pin, a trigger pulse that has
arrived, edges since the last capture, the fraction of a count in 2^-16, and catch-up. -/
structure GtChan where
  run    : Bool := false
  cnt    : Nat := 0
  sub    : Nat := 0
  top    : Nat := 0xFFFFFFFF
  c0     : Nat := 0
  c1     : Nat := 0
  /-- Written values of TOP, CMP0 and CMP1 that are not yet in force, with the timer ticks since the write (R348). -/
  nTop   : Option (Nat × Nat) := none
  n0     : Option (Nat × Nat) := none
  n1     : Option (Nat × Nat) := none
  out    : Bool := false
  blk    : Bool := false
  going  : Bool := false
  /-- The level that the pin filter has accepted; with OE = 1 the pad's own level synchronised, after one and after two
  SYSCLK cycles, and the samples in a row that differ from the accepted level (R344). -/
  level  : Bool := false
  sync1  : Bool := false
  sync2  : Bool := false
  differ : Nat := 0
  pulse  : Bool := false
  trig   : Bool := false
  edges  : Nat := 0
  /-- The counts that the last change of the count stepped over or onto; 0 after a load, or once its match has acted
  (R347). -/
  adv    : Nat := 0
  frac   : Nat := 0
  stop   : Bool := false
  k0     : Option Nat := none
  /-- The count is held in keep RAM for the next LIT entry (R355). -/
  held   : Bool := false
deriving DecidableEq, Repr, Inhabited

/-- A proof or bundle commit that runs (R289): the line command it answers, or none for the host's own proof. -/
structure SecJob where
  reply : Option Reply := none
  /-- A proof's body before its signature (R480). -/
  body  : List Byte := []
deriving DecidableEq, Repr, Inhabited

/-- The security engine (R459 to R482) beyond its registers. -/
structure SecState where
  /-- The lifecycle code of R461 (fuses), and the burn in progress. -/
  life   : Nat := 1
  burn   : Option Nat := none
  /-- Slots unwrapped in the cache, the most recently used first, and slots whose unwrap failed (R467). -/
  cache  : List Nat := []
  bad    : List Nat := []
  /-- Words written to SEC_KDATA. -/
  kdata  : List Word := []
  /-- The address directory, the challenge, and the last proof body (tables 0x0, 0x3, 0x4). -/
  dir    : List (Nat × Word) := []
  chal   : List (Nat × Word) := []
  body   : List Byte := []
  /-- The replay window of each address: H, the counters seen of the 32 up to H, floor and delta (R473, R474). -/
  h      : List (Nat × Nat) := []
  seen   : List (Nat × Nat) := []
  floor  : List (Nat × Nat) := []
  delta  : List (Nat × Nat) := []
  /-- n of the frame counter (R470), in keep RAM area 7. -/
  fcn    : Nat := 0
  /-- Frames refused in this bench, and the check of the last (R483). -/
  fails  : Nat := 0
  check  : Nat := 0
  /-- Known-answer tests that run: at LIT entry 1, on command 2; the failed state (R481). -/
  tests  : Nat := 0
  failed : Bool := false
  proof  : Option SecJob := none
  commit : Option SecJob := none
  /-- The bank build that a running bundle commit comes to: its bank is CFG, and what HC3 is raised by (R442, R476). -/
  building : Option (Bool × Nat) := none
  /-- A retirement's slot erasure has still to be made (R462). -/
  wipe   : Bool := false
  /-- A SEC_CMD command that takes time runs (SEC_STAT.BUSY). -/
  cmdRun : Bool := false
deriving DecidableEq, Repr, Inhabited

/-- An alarm source of R313: its gap runs, matching events counted in it, the last of them, and whether that one went
into the sealed region. -/
structure Alarm where
  gap  : Bool := false
  n    : Nat := 0
  last : EvRec := {}
  sl   : Bool := false
deriving DecidableEq, Repr, Inhabited

/-- The command engine (R287 to R316) beyond its registers. -/
structure CmdState where
  /-- The words of a TAB_WRITE that later bursts write (R297): the page, and whom to answer. -/
  rest     : List Word := []
  restPage : Nat := 0
  restTo   : Option Reply := none
  alarms : List Alarm := List.replicate 13 {}
  /-- Blocks of the open transfer that have been received (R307). -/
  got    : List Nat := []
  /-- The minutes for ENERGY and HEALTH reports last taken. -/
  minute : Option Nat := none
  /-- The OK of an APPLY bundle has left Q2 (R477). -/
  apply  : Bool := false
deriving DecidableEq, Repr, Inhabited

/-- The state of the block. -/
structure State where
  /-- The register file, by key; an unlisted register holds its reset value. -/
  regs    : List (Nat × Word) := []
  host    : PathState := {}
  remote  : PathState := {}
  /-- Event sources that have pulsed and are not yet delivered (R38), oldest first, each with its SYSCLK edge; the
  destinations that have acted on pulses of edge `actedAt`. -/
  fabric  : List (Nat × Nat) := []
  acted   : List Nat := []
  actedAt : Nat := 0
  /-- The sources that have pulsed within the last 2 SYSCLK cycles, each with its SYSCLK edge (R38). -/
  pulses  : List (Nat × Nat) := []
  /-- Records posted on the present edge, not yet in Q6 (R488). -/
  posted  : List EvRec := []
  /-- Ring Q6, and ring Q7 as its words of 32 bits. -/
  q6      : List EvRec := []
  q7      : List Nat := []
  clk     : ClkState := {}
  tim     : TimState := {}
  keep    : KeepState := {}
  pwr     : PwrState := {}
  vlt     : VltState := {}
  pwm     : PwmState := {}
  lmp     : LmpState := {}
  fde     : FdeState := {}
  hlt     : HltState := {}
  phy     : PhyState := {}
  mac     : MacState := {}
  gtu     : List GtChan := List.replicate 8 {}
  sec     : SecState := {}
  cmd     : CmdState := {}
  /-- SYSCLK edges that have passed. -/
  cyc     : Nat := 0
  /-- The model's own count of the free values used (no state of the part). -/
  free    : Nat := 0
  /-- The commands that wait, first in, first out. -/
  pending : List Instr := []
deriving DecidableEq, Repr

/-- The state right after reset: the keep-alive power-on reset of R404 has ended and VAUX is not yet declared good. -/
def State.reset : State := {}

end Sys2Proof.Machine
end

