-- ==== Sys2Proof/Machine/Ops.lean ====
section
/-! DEFINITION. The operations every block shares: reading and writing registers and fields, raising interrupts,
pulsing the event fabric, posting event records into Q6, and ending a command. -/

namespace Sys2Proof.Machine

/-! Registers. -/

/-- The word of a register. -/
def State.reg (s : State) (k : Nat) : Word := spGet regReset s.regs k

/-- A register set to a word. -/
def State.setReg (s : State) (k : Nat) (v : Word) : State := { s with regs := spSet regReset s.regs k v }

/-- A field's value. -/
def State.fld (s : State) (f : Fld) : Nat := getBits (s.reg f.key) f.hi f.lo

/-- A field set. -/
def State.setFld (s : State) (f : Fld) (v : Nat) : State := s.setReg f.key (setBits (s.reg f.key) f.hi f.lo v)

/-- A one-bit field as a Bool; a wider one is true when it is not zero. -/
def State.flag (s : State) (f : Fld) : Bool := s.fld f != 0

/-- A one-bit field set. -/
def State.setFlag (s : State) (f : Fld) (b : Bool) : State := s.setFld f (if b then 1 else 0)

/-- Bit `i` of a register. -/
def State.bit (s : State) (k i : Nat) : Bool := (s.reg k).getLsbD i

/-- Bit `i` of a register set to `b`. -/
def State.setBit (s : State) (k i : Nat) (b : Bool) : State := s.setReg k (setBits (s.reg k) i i (if b then 1 else 0))

/-- The 32-bit value of a pair (R29), by the key of its LO half. -/
def State.pair (s : State) (k : Nat) : Nat := (s.reg k).toNat + 65536 * (s.reg (k + 64)).toNat

/-- A pair set to a value modulo 2^32. -/
def State.setPair (s : State) (k : Nat) (v : Nat) : State :=
  (s.setReg k (BitVec.ofNat 16 v)).setReg (k + 64) (BitVec.ofNat 16 (v / 65536))

/-- The value of `n` bits read as a signed number. -/
def signed (n v : Nat) : Int := if v % 2 ^ n < 2 ^ (n - 1) then (v % 2 ^ n : Nat) else (v % 2 ^ n : Nat) - 2 ^ n

/-- A signed number within [lo, hi]. -/
def clampInt (lo hi v : Int) : Int := if v < lo then lo else if hi < v then hi else v

/-- A number within [lo, hi]. -/
def clampNat (lo hi v : Nat) : Nat := if v < lo then lo else if hi < v then hi else v

/-- The two's complement code of a signed number in `n` bits, saturating. -/
def satCode (n : Nat) (v : Int) : Nat :=
  ((clampInt (-(2 ^ (n - 1) : Nat)) ((2 ^ (n - 1) : Nat) - 1) v) % (2 ^ n : Nat)).toNat

/-- `a / b` rounded to the nearest integer, halves away from zero; 0 where `b` is 0. -/
def divRound (a b : Int) : Int :=
  if b = 0 then 0
  else
    let n := a.natAbs
    let d := b.natAbs
    let q : Int := ((2 * n + d) / (2 * d) : Nat)
    if (decide (a < 0)) == (decide (b < 0)) then q else -q

/-- A field that is one more, saturating at its largest value. -/
def State.satInc (s : State) (f : Fld) : State :=
  let v := s.fld f
  if v + 1 < 2 ^ (f.hi - f.lo + 1) then s.setFld f (v + 1) else s

/-- A whole 16-bit counter register that wraps. -/
def State.incReg (s : State) (k : Nat) : State := s.setReg k (s.reg k + 1)

/-- A free value of the part: one that the spec leaves open. -/
def State.freeNat (s : State) : Nat := Config.freeValue s.free

/-- The free value is used. -/
def State.useFree (s : State) : State := { s with free := s.free + 1 }

/-! Paths. -/

/-- What a path holds. -/
def State.path (s : State) : Path → PathState
  | .host => s.host
  | .remote => s.remote

/-- What a path holds, changed. -/
def State.modPath (s : State) (p : Path) (f : PathState → PathState) : State :=
  match p with
  | .host => { s with host := f s.host }
  | .remote => { s with remote := f s.remote }

/-- The path reaches the registers: the core runs, and for the host port, R22 and R405: the PLL is locked on IRC, RST#
is high, and VHIO is good (R387). -/
def State.pathUp (s : State) : Path → Bool
  | .host => decide (4 ≤ s.pwr.boot) && !s.pwr.rstLow && s.flag F.PWR_STAT_VHIOG
  | .remote => decide (4 ≤ s.pwr.boot) && !s.pwr.rstLow

/-- A register write made by a path (R32): it abandons an unlock sequence under way; lost where the port does not
respond (R22). -/
def State.onWrite (s : State) (p : Path) (f : State → State) : State :=
  if s.pathUp p then f (s.modPath p (fun q => { q with armed := false })) else s

/-- SYS_UNLOCK is open on the path. -/
def State.unlocked (s : State) (p : Path) : Bool := (s.path p).opened

/-! Interrupts (R33 to R36). -/

/-- IRQ bit `n` of the 32 set. -/
def State.irq (s : State) (n : Nat) : State :=
  if n < 16 then s.setBit R.IRQ_STAT_LO n true else s.setBit R.IRQ_STAT_HI (n - 16) true

/-- The bit numbers of the interrupt sources (R47). -/
def irqClk : Nat := 0
def irqPwr : Nat := 1
def irqKeep : Nat := 2
def irqPwmTrip : Nat := 3
def irqCur : Nat := 4
def irqLmp : Nat := 5
def irqFde : Nat := 6
def irqHlt : Nat := 7
def irqPhy : Nat := 8
def irqRing (r : Nat) : Nat := 9 + r
def irqTimAl : Nat := 17
def irqTimLk : Nat := 18
def irqGt (n : Nat) : Nat := 19 + n
def irqVltDone : Nat := 27
def irqVltErr : Nat := 28
def irqSec : Nat := 29
def irqLog : Nat := 30
def irqEvr : Nat := 31

/-- An NMI source sets its bit (R36). -/
def State.nmi (s : State) (f : Fld) : State := s.setFlag f true

/-- Sticky bits `m` of a status register set; the interrupt rises when one goes from 0 to 1 while its enable, at the
same place of the enable register, is 1. -/
def State.stick (s : State) (stat en irq : Nat) (m : Word) : State :=
  let fresh := m &&& ~~~ s.reg stat
  let t := s.setReg stat (s.reg stat ||| m)
  if fresh &&& s.reg en = 0 then t else t.irq irq

/-- HIRQ# is driven low (R33). -/
def State.hirqLow (s : State) : Bool :=
  (s.reg R.IRQ_STAT_LO &&& s.reg R.IRQ_EN_LO != 0) || (s.reg R.IRQ_STAT_HI &&& s.reg R.IRQ_EN_HI != 0)

/-- HNMI# is driven low (R36). -/
def State.hnmiLow (s : State) : Bool := s.reg R.NMI_STAT != 0

/-- A source of the event fabric pulses (R37); events less than 2 SYSCLK cycles apart arrive as one pulse, delivered yet
or not (R38). -/
def State.pulse (s : State) (src : Nat) : State :=
  let near := s.pulses.filter (fun e => decide (s.cyc < e.2 + 2))
  if near.any (fun e => e.1 == src) then s
  else { s with fabric := s.fabric ++ [(src, s.cyc)], pulses := near ++ [(src, s.cyc)] }

/-! Time and hatch values that a record carries. -/

/-- Network seconds and the 32-bit fraction (R319) of an instant in units of 2^-72 s. -/
def secOf (t : Nat) : Nat := t / 2 ^ 72 % 2 ^ 32
def fracOf (t : Nat) : Nat := t / 2 ^ 40 % 2 ^ 32

/-- The instant of seconds and a 32-bit fraction. -/
def instant (sec frac : Nat) : Nat := (sec * 2 ^ 72 + frac * 2 ^ 40) % 2 ^ 104

/-- The keep-alive counter as seconds and as an instant. -/
def kaSec (ka : Nat) : Nat := ka / 2 ^ 48 % 2 ^ 32
def kaInstant (ka : Nat) : Nat := ka * 2 ^ 24 % 2 ^ 104

/-- A sparse count's default. -/
def zeroNat (_ : Nat) : Nat := 0

/-- The held increments that still count: those tagged below the base epoch are in the bases (R454). -/
def VltState.held (v : VltState) : List (Nat × Nat) := if v.hatTag < v.epoch then [] else v.hatHeld

/-- The count of a hatch counter: base, marked cells and held increments (R450). -/
def VltState.count (v : VltState) (n : Nat) : Nat :=
  spGet zeroNat v.hatBase n + spGet zeroNat v.hatMark n + spGet zeroNat v.held n + spGet zeroNat v.hatNext n

/-- The value of a hatch counter; 0 when no base set is valid (R454). -/
def State.hat (s : State) (n : Nat) : Nat := if s.vlt.hatBad then 0 else s.vlt.count n % 2 ^ 32

/-- SYS_MODE.STATE as a record carries it: 0b11 in KEEP (R486). -/
def State.mode (s : State) : Nat := if s.pwr.boot = 0 then 3 else s.fld F.SYS_MODE_STATE

/-- Network time is valid (R322). -/
def State.timeValid (s : State) : Bool := s.fld F.TIM_STAT_STATE != 0

/-- Seconds since the last keep-alive hour tick (R537). -/
def State.sinceHour (s : State) : Nat := s.keep.elapsed / 2 ^ 48 - 3600 * s.keep.hours

/-- The record of an event with the stamps of the present edge (R486). -/
def State.stamp (s : State) (cls ev detail : Nat) : EvRec :=
  { cls := cls, ev := ev, detail := detail % 65536,
    opsec := (s.hat 0 * 3600 + s.sinceHour) % 2 ^ 32, pcc := s.hat 1 % 2 ^ 24,
    tv := s.timeValid, lk := s.fld F.TIM_STAT_STATE == 2, kh := false, st := s.mode,
    netsec := if s.timeValid then secOf s.tim.now else 0xFFFFFFFF }

/-- A block posts an event (R486). -/
def State.post (s : State) (cls ev detail : Nat) : State := { s with posted := s.posted ++ [s.stamp cls ev detail] }

/-- The stamps of the keep-alive domain (R429): STATE 0b11, KH = 1, and the keep-alive counter with TV = KAV. -/
def State.keepStamp (s : State) (cls ev detail : Nat) : EvRec :=
  { cls := cls, ev := ev, detail := detail % 65536,
    opsec := (s.hat 0 * 3600 + s.sinceHour) % 2 ^ 32, pcc := s.hat 1 % 2 ^ 24,
    tv := s.flag F.TIM_FLG_KAV, lk := false, kh := true, st := 3,
    netsec := if s.flag F.TIM_FLG_KAV then kaSec s.keep.ka else 0xFFFFFFFF }

/-- A record is held in keep RAM area 6, which holds 15; past that it is counted (R494). -/
def State.holdRec (s : State) (r : EvRec) : State :=
  if s.keep.held.length < 15 then { s with keep := { s.keep with held := s.keep.held ++ [{ r with kh := true }] } }
  else { s with keep := { s.keep with missed := s.keep.missed + 1 } }

/-- The eight words of a record (R486); `sl`: it is also written to the sealed region. -/
def EvRec.words (r : EvRec) (sl : Bool) : List Word :=
  let b (x : Bool) (n : Nat) : Nat := if x then 2 ^ n else 0
  [ BitVec.ofNat 16 (r.cls * 4096 + r.ev % 4096), BitVec.ofNat 16 r.detail,
    BitVec.ofNat 16 (r.opsec / 65536), BitVec.ofNat 16 r.opsec,
    BitVec.ofNat 16 (r.pcc / 256),
    BitVec.ofNat 16 (r.pcc % 256 * 256 + b r.tv 7 + b r.lk 6 + b r.kh 5 + b sl 4 + r.st % 4),
    BitVec.ofNat 16 (r.netsec / 65536), BitVec.ofNat 16 r.netsec ]

/-- A record enters Q6, or is dropped where Q6 holds 64 entries (R494); an entry sets the ring's interrupt (R35). -/
def State.enterQ6 (s : State) (r : EvRec) : State :=
  if s.q6.length < 64 then ({ s with q6 := s.q6 ++ [r] }).irq (irqRing 6)
  else
    let t := (s.satInc F.LOG_DROP_N).stick R.LOG_STAT R.LOG_IRQEN irqLog F.LOG_STAT_Q6OVF.mask
    { t with vlt := { t.vlt with dropped := t.vlt.dropped + 1 } }

/-- A record placed among records by class and then event (R488), after its equals. -/
def insertRec (r : EvRec) : List EvRec → List EvRec
  | [] => [r]
  | x :: l => if r.cls < x.cls ∨ (r.cls = x.cls ∧ r.ev < x.ev) then r :: x :: l else x :: insertRec r l

/-- Records in ascending order of class and then event (R488). -/
def sortRecs (l : List EvRec) : List EvRec := l.foldl (fun acc r => insertRec r acc) []

/-- The records posted on the present edge enter Q6 (R488). -/
def settle (s : State) : State := (sortRecs s.posted).foldl State.enterQ6 { s with posted := [] }

/-- A command ends in its next state. -/
def done (s : State) : Host.Outcome State Fault Refusal := .next (settle s)

/-! The hold of R39. -/

/-- Hold is active: SYS_CTL.HOLD, or the JTAG request where HOLD_CTL.JTAGEN honours it. -/
def State.holdActive (s : State) : Bool :=
  s.flag F.SYS_CTL_HOLD || (s.pwr.jtagHold && s.flag F.HOLD_CTL_JTAGEN)

end Sys2Proof.Machine
end

