-- ==== Sys2Proof/Machine/Vault.lean ====
section
/-! DEFINITION. The vault (R432 to R457): flash bytes, native records and commits, sector operations, hatch
counters, and the direct writes of other engines. -/

namespace Sys2Proof.Machine

/-- The vault, changed. -/
def State.modVlt (s : State) (f : VltState → VltState) : State := { s with vlt := f s.vlt }

/-! Flash bytes (R432): an erased byte reads 0xFF. -/

def erasedByte (_ : Nat) : Byte := 0xFF

/-- The flash is in its canonical form: addresses strictly rising, no erased byte listed. -/
abbrev Memory.wf (m : List Host.Cell) : Bool := spWf erasedByte m

/-- The byte at a flash byte address. -/
def VltState.byte (v : VltState) (a : Nat) : Byte := spGet erasedByte v.flash a

/-- The word at a flash byte address, high byte first (R486). -/
def VltState.word (v : VltState) (a : Nat) : Word :=
  BitVec.ofNat 16 ((v.byte a).toNat * 256 + (v.byte (a + 1)).toNat)

/-- A word programmed, high byte first. -/
def VltState.putWord (v : VltState) (a : Nat) (w : Word) : VltState :=
  let f := spSet erasedByte v.flash a (BitVec.ofNat 8 (w.toNat / 256))
  { v with flash := spSet erasedByte f (a + 1) (BitVec.ofNat 8 w.toNat) }

/-- Words programmed from an address on. -/
def VltState.putWords (v : VltState) : Nat → List Word → VltState
  | _, [] => v
  | a, w :: ws => VltState.putWords (v.putWord a w) (a + 2) ws

/-- Words at given word offsets from a base. -/
def VltState.putCells (v : VltState) (base : Nat) : List (Nat × Word) → VltState
  | [] => v
  | (o, w) :: l => VltState.putCells (v.putWord (base + 2 * o) w) base l

/-- Bytes programmed from an address on. -/
def VltState.putBytes (v : VltState) (a : Nat) (l : List Byte) : VltState :=
  { v with flash := spSetAll erasedByte v.flash a l }

/-- `n` words from an address on. -/
def VltState.words (v : VltState) (a n : Nat) : List Word := (List.range n).map (fun i => v.word (a + 2 * i))

/-- `n` bytes from an address on. -/
def VltState.bytes (v : VltState) (a n : Nat) : List Byte := (List.range n).map (fun i => v.byte (a + i))

/-- Bytes erased: nothing listed there. -/
def VltState.erase (v : VltState) (a n : Nat) : VltState := { v with flash := spClear v.flash a n }

/-- Every byte of a range is blank. -/
def VltState.blank (v : VltState) (a n : Nat) : Bool := v.flash.all (fun e => decide (e.1 < a) || decide (a + n ≤ e.1))

/-- Region bases (R433). The spare above USR is never programmed. -/
def fltCfg : Nat := 0x00000
def fltTab : Nat := 0x08000
def fltPlt : Nat := 0x20000
def fltRec : Nat := 0x24000
def fltLog : Nat := 0x28000
def fltHat : Nat := 0x48000
def fltKey : Nat := 0x50000
def fltLegA : Nat := 0x52000
def fltLegB : Nat := 0x53000
def fltStg : Nat := 0x54000
def fltScr : Nat := 0x6A000
def fltUsr : Nat := 0x6C000

/-! The regions that the vault alone reads. -/

/-- The byte at a flash byte address of the vault's own regions, and `n` bytes from one on. -/
def VltState.ownByte (v : VltState) (a : Nat) : Byte := spGet erasedByte v.own a
def VltState.ownBytes (v : VltState) (a n : Nat) : List Byte := (List.range n).map (fun i => v.ownByte (a + i))

/-- Bytes programmed from an address on, bytes erased, and a range that is blank. -/
def VltState.putOwn (v : VltState) (a : Nat) (l : List Byte) : VltState := { v with own := spBlock erasedByte v.own a l }
def VltState.eraseOwn (v : VltState) (a n : Nat) : VltState := { v with own := spClear v.own a n }
def VltState.ownBlank (v : VltState) (a n : Nat) : Bool := v.own.all (fun e => decide (e.1 < a) || decide (a + n ≤ e.1))

/-! Native records and commits (R435 to R439). -/

/-- Record kinds (R435). -/
def recJournal : Nat := 0x01
def recVoid : Nat := 0x02
def recBankSel : Nat := 0x03
def recScr : Nat := 0x04
def recScrDone : Nat := 0x05
def recPwd : Nat := 0x06
def recModel : Nat := 0x10
def recStress : Nat := 0x20
def recBxfer : Nat := 0x21
def recHbase : Nat := 0x30
def recKeyBlob : Nat := 0x50
def recFloor : Nat := 0x60

/-- The record lives in the KEY region (R435). -/
def isKeyRec (typ : Nat) : Bool := decide (0x50 ≤ typ) && decide (typ ≤ 0x57)

/-- The 16-byte units of a record with a payload of `n` bytes. -/
def recUnits (n : Nat) : Nat := (n + 10 + 15) / 16

/-- The start unit of a record of `n` units written at `h`: a record never crosses a sector of 256 units (R435). -/
def placeAt (h n : Nat) : Nat := if h % 256 + n ≤ 256 then h else (h / 256 + 1) * 256

/-- The bytes of a record (R435). -/
def recBytes (typ seq : Nat) (p : List Byte) : List Byte :=
  let b := toBytes 1 typ ++ toBytes 1 p.length ++ toBytes 4 seq ++ p
  b ++ toBytes 4 (crc32 b)

/-- The flash address of a unit of the KEY ring or of the REC ring. -/
def unitAddr (key : Bool) (u : Nat) : Nat := if key then fltKey + 16 * (u % 512) else fltRec + 16 * (u % 1024)

/-- A record's address and bytes. -/
def NRec.addr (r : NRec) : Nat := unitAddr (isKeyRec r.typ) r.unit
def NRec.bytes (r : NRec) : List Byte := recBytes r.typ r.seq r.payload

/-- Where a commit's records go: rings, heads, and the unit ranges programmed as (ring is KEY, start, units). -/
structure CommitPlan where
  recs   : List NRec := []
  keys   : List NRec := []
  recH   : Nat := 0
  keyH   : Nat := 0
  ranges : List (Bool × Nat × Nat) := []
deriving DecidableEq, Repr, Inhabited

/-- One record placed. -/
def CommitPlan.add (seq : Nat) (p : CommitPlan) (e : Nat × List Byte) : CommitPlan :=
  let n := recUnits e.2.length
  if isKeyRec e.1 then
    let u := placeAt p.keyH n
    { p with keys := p.keys ++ [⟨e.1, seq, e.2, u⟩], keyH := u + n, ranges := p.ranges ++ [(true, u, n)] }
  else
    let u := placeAt p.recH n
    { p with recs := p.recs ++ [⟨e.1, seq, e.2, u⟩], recH := u + n, ranges := p.ranges ++ [(false, u, n)] }

/-- A run of units grows by the next, or a new one begins: address and units. No run goes on past a sector, which is
erased whole (DESIGN CHOICE, log entry 21). -/
def addRun (l : List (Nat × Nat)) (r : Nat × Nat) : List (Nat × Nat) :=
  match l.getLast? with
  | some (a, n) => if a + 16 * n = r.1 ∧ r.1 % 4096 ≠ 0 then l.dropLast ++ [(a, n + r.2)] else l ++ [r]
  | none => [r]

/-- The extents of a commit: runs of consecutive units, in either ring (R436). -/
def extents (l : List (Bool × Nat × Nat)) : List (Nat × Nat) :=
  [true, false].flatMap (fun k => ((l.filter (fun r => r.1 == k)).map (fun r => (unitAddr k r.2.1, r.2.2))).foldl addRun [])

def extentCount (l : List (Bool × Nat × Nat)) : Nat := (extents l).length

/-- The places of records at the write points. -/
def recPlan (v : VltState) (es : List (Nat × List Byte)) : CommitPlan :=
  es.foldl (CommitPlan.add (v.vnum + 1)) { recH := v.recHead, keyH := v.keyHead }

/-- The plan of a commit with its journal of 2 + 7 bytes an extent (R437). -/
def commitPlan (v : VltState) (es : List (Nat × List Byte)) : CommitPlan :=
  let p := recPlan v es
  let n := recUnits (2 + 7 * extentCount p.ranges)
  let u := placeAt p.recH n
  { p with recH := u + n, ranges := p.ranges ++ [(false, u, n)] }

/-- The 128-byte pages that unit ranges touch, each once: P of R439. -/
def rangePages (l : List (Bool × Nat × Nat)) : Nat :=
  (l.flatMap (fun r => (List.range (r.2.2 + 7)).filterMap (fun i =>
    if i / 8 * 8 ≤ r.2.1 % 8 + r.2.2 - 1 ∧ i % 8 = 0 then some (r.1, (r.2.1 / 8) + i / 8) else none))).eraseDups.length

/-- A record's kind: its TYPE, and for PWD and the scratch records the region or sector in its first byte, which
each have a newest record of their own (R435, R440 step 7, R445). -/
def NRec.kind (r : NRec) : Nat :=
  if r.typ = recPwd ∨ r.typ = recScr ∨ r.typ = recScrDone then r.typ + 256 * ((r.payload.headD 0).toNat + 1) else r.typ

/-- A record that wins in its ring: the newest of its kind (R435). -/
def winnerOf (l : List NRec) (kind : Nat) : Option NRec :=
  l.foldl (fun b r => if r.kind = kind then
    match b with
    | some x => if x.seq ≤ r.seq then some r else b
    | none => some r else b) none

/-- The newest record of a TYPE (R435). -/
def winner (l : List NRec) (typ : Nat) : Option NRec :=
  l.foldl (fun b r => if r.typ = typ then
    match b with
    | some x => if x.seq ≤ r.seq then some r else b
    | none => some r else b) none

/-- The record entries of the buffer, oldest first. -/
def bufRecords (b : List VEntry) : List (Nat × List Byte) :=
  b.filterMap (fun e => match e with | .record t p => some (t, p) | _ => none)

/-- The buffer without its first `n` record entries. -/
def dropRecords : Nat → List VEntry → List VEntry
  | _, [] => []
  | 0, l => l
  | n + 1, .record _ _ :: l => dropRecords n l
  | n + 1, e :: l => e :: dropRecords (n + 1) l

/-- The bytes an entry holds in the commit buffer: a record its native length, the others their data (the
spec gives no figures: DESIGN CHOICE, log entry 29). -/
def VEntry.size : VEntry → Nat
  | .record _ p => 10 + p.length
  | .plate _ _ => 64
  | .usrPage _ => 128
  | .usrErase _ => 2
  | .legWrite _ => 1020
  | .bank _ _ _ => 2
  | .sealReset _ => 2
  | .logSector0 => 2

/-- VLT_FILL: bytes held in the commit buffer. -/
def bufFill (b : List VEntry) : Nat := (b.map VEntry.size).sum

/-- The buffer has room for `n` more bytes of its 4 KiB (R434). -/
def State.vRoom (s : State) (n : Nat) : Bool := decide (s.pwr.loss < 2) && decide (bufFill s.vlt.buf + n ≤ 4096)

/-- A record is programmed at its place. -/
def VltState.program (v : VltState) (r : NRec) : VltState := v.putOwn r.addr r.bytes

/-- The payload of a JOURNAL (R437): FLAGS with CLEAN, COUNT, and the extents. -/
def VltState.journalPayload (v : VltState) (clean : Bool) (l : List (Nat × Nat)) : List Byte :=
  [if clean then 1 else 0] ++ toBytes 1 l.length ++
    l.flatMap (fun e => toBytes 2 (e.1 / 16) ++ toBytes 1 (e.2 - 1) ++ toBytes 4 (crc32 (v.ownBytes e.1 (16 * e.2))))

/-- The JOURNAL of the next commit number is written over the units given: its records are valid from now on (R437). -/
def VltState.journal (v : VltState) (ranges : List (Bool × Nat × Nat)) (clean : Bool) : VltState :=
  let p := v.journalPayload clean (extents ranges)
  let u := placeAt v.recHead (recUnits p.length)
  let r : NRec := ⟨recJournal, v.vnum + 1, p, u⟩
  { v.program r with
    recs := v.recs ++ [r], recHead := u + recUnits p.length, cnum := v.vnum + 1, vnum := v.vnum + 1, begun := false,
    cutAt := 0, clean := clean }

/-- Records programmed at the write points under the next commit number, and the units that they take. -/
def VltState.place (v : VltState) (es : List (Nat × List Byte)) : VltState × List (Bool × Nat × Nat) :=
  let p := recPlan v es
  ({ (p.recs ++ p.keys).foldl VltState.program v with
     recs := v.recs ++ p.recs, keys := v.keys ++ p.keys, recHead := p.recH, keyHead := p.keyH }, p.ranges)

/-- A whole commit: its records, then its journal, CLEAN where `left` is all that the buffer then holds (R437). -/
def VltState.commitNow (v : VltState) (es : List (Nat × List Byte)) (left : List VEntry) : VltState :=
  let p := v.place es
  p.1.journal p.2 left.isEmpty

/-- Records of a commit of the vault's own, written at once with their journal (R437). -/
def VltState.ownCommit (v : VltState) (typ : Nat) (payload : List Byte) (left : List VEntry) : VltState :=
  v.commitNow [(typ, payload)] left

/-- Compaction of the REC ring (R439): the winners of the oldest sector are copied in one commit and the sector is
erased. Journals and VOIDs are not copied: the newest commit number stands in a later sector. -/
def VltState.compactRec (v : VltState) : VltState :=
  let old := v.recs.filter (fun r => decide (r.unit < v.recTail + 256))
  let keep := old.filter (fun r => r.typ != recJournal && r.typ != recVoid && winnerOf v.recs r.kind == some r)
  let w := (v.commitNow (keep.map (fun r => (r.typ, r.payload))) v.buf).eraseOwn (unitAddr false v.recTail) 4096
  { w with recs := w.recs.filter (fun r => decide (v.recTail + 256 ≤ r.unit)), recTail := v.recTail + 256 }

/-- Compaction of the KEY ring (R439). -/
def VltState.compactKey (v : VltState) : VltState :=
  let old := v.keys.filter (fun r => decide (r.unit < v.keyTail + 256))
  let keep := old.filter (fun r => winnerOf v.keys r.kind == some r)
  let w := (v.commitNow (keep.map (fun r => (r.typ, r.payload))) v.buf).eraseOwn (unitAddr true v.keyTail) 4096
  { w with keys := w.keys.filter (fun r => decide (v.keyTail + 256 ≤ r.unit)), keyTail := v.keyTail + 256 }

/-- Compaction where due: less than 8 KiB of REC or 4 KiB of KEY erased (R439). -/
def VltState.compact (v : VltState) : VltState :=
  let a := if v.recTail + 1024 < v.recHead + 512 ∧ v.recTail + 256 ≤ v.recHead then v.compactRec else v
  if a.keyTail + 512 < a.keyHead + 256 ∧ a.keyTail + 256 ≤ a.keyHead then a.compactKey else a

/-- The vault writes in LIT: configuration replay has ended (R440) and no mains loss is under way. -/
def State.vaultFree (s : State) : Bool := decide (6 ≤ s.pwr.boot) && decide (s.pwr.loss = 0)

/-- Compaction follows a commit where it is due, in LIT (R439). -/
def State.compactDue (s : State) : State := if s.vaultFree then s.modVlt VltState.compact else s

/-- An entry enters the commit buffer, which mains loss closes (R400); the first to enter an empty buffer makes the vault
write a JOURNAL with COUNT = 0 and CLEAN = 0 (R438). -/
def State.vEnter (s : State) (e : VEntry) : State :=
  if 2 ≤ s.pwr.loss then s
  else
    let t := if s.vlt.buf.isEmpty ∧ !s.vlt.begun then (s.modVlt (fun v => v.journal [] false)).compactDue else s
    t.modVlt (fun v => { v with buf := v.buf ++ [e], clean := false })

/-- VLTDONE at the end of a commit, rewrite, bank build or LEG write, where enabled (R458). -/
def State.vDone (s : State) : State := if s.flag F.VLT_IRQEN_DONE then s.irq irqVltDone else s

/-- Records that engines hold enter the buffer while it has room, in their order. -/
def State.vWaiting (s : State) : State :=
  s.vlt.wait.foldl (fun t e =>
    if t.vlt.wait = [] ∧ t.vRoom (10 + e.2.length) then t.vEnter (.record e.1 e.2)
    else t.modVlt (fun v => { v with wait := v.wait ++ [e] })) (s.modVlt (fun v => { v with wait := [] }))

/-- A commit ends (R437): its records are valid, its entries are freed, VLTDONE rises when enabled; compaction
follows in LIT where due. -/
def State.commitEnd (s : State) (n : Nat) : State :=
  let t := s.modVlt (fun v =>
    let b := dropRecords n v.buf
    { v.commitNow ((bufRecords v.buf).take n) b with buf := b, commit := none })
  t.compactDue.vWaiting.vDone

/-- A commit starts with every record entry then in the buffer, when there is one and none runs (R436). -/
def State.commitStart (s : State) : State :=
  let n := (bufRecords s.vlt.buf).length
  if s.vlt.commit = none ∧ n ≠ 0 then s.modVlt (fun v => { v with commit := some n, begun := true }) else s

/-- A commit starts at 2 KiB of record entries (R436). -/
def State.commitFull (s : State) : State :=
  if 2048 ≤ bufFill (s.vlt.buf.filter (fun e => match e with | .record _ _ => true | _ => false)) ∧ s.vaultFree
  then s.commitStart else s

/-- A record entry enters the buffer, or waits until there is room for it; a commit starts at 2 KiB of record entries
(R434, R436). -/
def State.vRecord (s : State) (typ : Nat) (payload : List Byte) : State :=
  if s.vRoom (10 + payload.length) && s.vlt.wait.isEmpty then (s.vEnter (.record typ payload)).commitFull
  else s.modVlt (fun v => { v with wait := v.wait ++ [(typ, payload)] })

/-- VLTERR: a sticky VLT_STAT bit (R457). -/
def State.vStick (s : State) (f : Fld) : State := s.stick R.VLT_STAT R.VLT_IRQEN irqVltErr f.mask

/-- A vault command is refused with its reason (VLT_ERR, VLT_STAT.REFUSED). -/
def State.vRefuse (s : State) (code : Nat) : State := (s.setFld F.VLT_ERR_CODE code).vStick F.VLT_STAT_REFUSED

/-- An integrity failure (R457). -/
def State.vIntegrity (s : State) (detail : Nat) : State :=
  ((s.vStick F.VLT_STAT_INTEG).nmi F.NMI_STAT_VLTF).post 7 6 detail

/-! Sector operations (R441 to R447). -/

/-- The USR page cells of an entry may be programmed directly: every word they change is blank (R444). -/
def usrDirect (v : VltState) (cells : List (Nat × Word)) : Bool :=
  cells.all (fun c => v.word (fltUsr + 2 * c.1) == 0xFFFF || v.word (fltUsr + 2 * c.1) == c.2)

/-- The entry is a sector operation, bank build or LEG write: not a record. -/
def VEntry.isOp : VEntry → Bool
  | .record _ _ => false
  | _ => true

/-- The first operation entry is taken out of the buffer list. -/
def dropFirstOp : List VEntry → List VEntry
  | [] => []
  | e :: l => if e.isOp then l else e :: dropFirstOp l

/-- Whether the vault carries an entry out at once as a direct program of blank words (R441, R444). -/
def VEntry.direct (v : VltState) : VEntry → Bool
  | .plate p _ => v.blank (fltPlt + 64 * p) 64
  | .usrPage cells => usrDirect v cells
  | _ => false

/-- A word with its bytes exchanged: plate words are stored low byte first (*Plates*). -/
def swapBytes (w : Word) : Word := (w <<< 8) ||| (w >>> 8)

/-- The flash after an entry's words are programmed. -/
def VltState.apply (v : VltState) : VEntry → VltState
  | .plate p ws => v.putWords (fltPlt + 64 * p) (ws.map swapBytes)
  | .usrPage cells => v.putCells fltUsr cells
  | .usrErase k => v.erase (fltUsr + 4096 * k) 4096
  | .sealReset _ => v.erase fltLog 1024
  | .logSector0 => v.erase (fltLog + 1024) 3072
  | _ => v

/-- The sector number (address / 4096) that an entry's rewrite targets (R435 kind SCR). -/
def VEntry.sector : VEntry → Nat
  | .plate p _ => (fltPlt + 64 * p) / 4096
  | .usrPage cells => (fltUsr + 2 * (cells.headD (0, 0)).1) / 4096
  | .usrErase k => fltUsr / 4096 + k
  | _ => fltLog / 4096

/-- The bytes that a direct entry programs: those of its words that are blank. -/
def VEntry.cells (v : VltState) : VEntry → List Nat
  | .plate p _ => (List.range 64).map (fun i => fltPlt + 64 * p + i)
  | .usrPage cells => (cells.filter (fun c => v.word (fltUsr + 2 * c.1) == 0xFFFF)).flatMap (fun c => [fltUsr + 2 * c.1, fltUsr + 2 * c.1 + 1])
  | _ => []

/-- Direct operation entries at the front are carried out; the next other one is begun when none runs. A rewrite that is
redone goes through scratch again (R440 step 7). -/
def kickN : Nat → VltState → VltState
  | 0, v => v
  | n + 1, v =>
    match v.op, v.buf.find? VEntry.isOp with
    | none, some e =>
      if e.direct v ∧ v.scr.isNone then
        let b := dropFirstOp v.buf
        kickN n { v.apply e with buf := b, last := e.cells v }
      else { v with op := some e }
    | _, _ => v

/-- The vault goes on with its waiting operations, in the order in which they entered (R440 step 9). -/
def State.vKick (s : State) : State :=
  if s.vaultFree then s.modVlt (fun v => kickN v.buf.length v) else s

/-- An operation entry enters the buffer and is begun when the vault is free. -/
def State.vOperate (s : State) (e : VEntry) : State := (s.vEnter e).vKick

/-- The operation in progress is done: its entry leaves the buffer and the next begins. -/
def State.opEnd (s : State) : State :=
  (s.modVlt (fun v => { v with op := none, scr := none, buf := dropFirstOp v.buf })).compactDue.vWaiting.vKick

/-! Banks (R433, R442). -/

/-- The base and the size of a bank. -/
def bankAt (cfg : Bool) (n : Nat) : Nat := if cfg then fltCfg + 0x4000 * n else fltTab + 0xC000 * n
def bankSize (cfg : Bool) : Nat := if cfg then 0x4000 else 0xC000

/-- The bank of a kind in place `n`. -/
def VltState.setBank (v : VltState) (cfg : Bool) (n : Nat) (b : Option Bank) : VltState :=
  if cfg then { v with cfgBank := v.cfgBank.set n b } else { v with tabBank := v.tabBank.set n b }

/-- A bank's sectors are erased: no bank stands there. -/
def VltState.bankClear (v : VltState) (cfg : Bool) (n : Nat) : VltState :=
  (v.eraseOwn (bankAt cfg n) (bankSize cfg)).setBank cfg n none

/-- The place of a kind that is not active. -/
def State.bankFree (s : State) (cfg : Bool) : Nat :=
  1 - s.fld (if cfg then F.SYS_BOOT_CFGBANK else F.SYS_BOOT_TABBANK)

/-! Hatch counters (R450 to R455). -/

/-- The cells of a ring, and the places for base sets in the base area: 384 bytes from a page boundary, ten to a sector
(R450). -/
def hatRing : Nat := 31
def basePlaces : Nat := 60

/-- The address of hatch sector X (0) or Y (1), of a cell of a counter's ring, and of a place in the base area. -/
def hatSecAt (x : Nat) : Nat := fltHat + 4096 * (6 + x % 2)
def hatCellAt (x n i : Nat) : Nat := hatSecAt x + 62 * n + 2 * i
def baseSetAt (i : Nat) : Nat := fltHat + 4096 * (i / 10 % 6) + 384 * (i % 10)

/-- The header of a hatch sector, at 0xF80 of it. -/
def hatHeader (epoch : Nat) : List Byte :=
  let b := [0x48, 0x54] ++ toBytes 4 epoch
  b ++ toBytes 4 (crc32 b)

/-- An HBASE record: half 0 holds counters 0 to 31, half 1 counters 32 to 63. Its SEQ is its epoch, no commit writes it
(DESIGN CHOICE, log entry 21). -/
def hbase (half epoch sec : Nat) (nb : List (Nat × Nat)) : List Byte :=
  recBytes (recHbase + half) epoch
    (toBytes 4 epoch ++ [BitVec.ofNat 8 sec, 0, 0, 0] ++ (List.range 32).flatMap (fun i => toBytes 4 (spGet zeroNat nb (32 * half + i))))

/-- A base set: HBASE0, and HBASE1 from byte 192 of its place on. -/
def baseSet (epoch sec : Nat) (nb : List (Nat × Nat)) : List Byte :=
  hbase 0 epoch sec nb ++ List.replicate 46 0xFF ++ hbase 1 epoch sec nb

/-- The new bases of a fold: base, marked cells and held increments of every counter (R453 step 1). -/
def foldBases (v : VltState) : List (Nat × Nat) :=
  (List.range 64).foldl (fun l n =>
    spSet zeroNat l n (spGet zeroNat v.hatBase n + spGet zeroNat v.hatMark n + spGet zeroNat v.held n)) []

/-- A fold begins when an increment is held for a full ring in LIT and none runs (R453). -/
def State.foldStart (s : State) : State :=
  if s.vaultFree ∧ s.vlt.fold = none ∧ (s.vlt.held.any (fun e => decide (spGet zeroNat s.vlt.hatMark e.1 = hatRing))) then
    s.modVlt (fun v => { v with fold := some (foldBases v) })
  else s

/-- Increments held, tagged with the base epoch. -/
def VltState.hold (v : VltState) (n k : Nat) : VltState :=
  { v with hatHeld := spSet zeroNat v.held n (spGet zeroNat v.held n + k), hatTag := v.epoch }

/-- `k` increments of a counter in cells and held: the lowest blank cells of its ring take what they can, the rest is held
(R452). -/
def VltState.hatMarkUp (v : VltState) (n k : Nat) : VltState :=
  let m := spGet zeroNat v.hatMark n
  let j := min k (hatRing - m)
  let w := v.putOwn (hatCellAt v.hatSec n m) (List.replicate (2 * j) 0)
  { w with hatMark := spSet zeroNat v.hatMark n (m + j),
           last := (List.range (2 * j)).map (fun i => hatCellAt v.hatSec n m + i) }.hold n (k - j)

/-- The hatch cells are programmed now: vault recovered, no mains loss, no fold, no header to write (R452 to R454). -/
def State.hatLive (s : State) : Bool :=
  decide (5 ≤ s.pwr.boot) && decide (s.pwr.loss = 0) && s.vlt.fold.isNone && decide (s.vlt.hatCut ≠ 3)

/-- A counter is incremented `k` times (R451, R452). -/
def State.hatInc (s : State) (n k : Nat) : State :=
  if s.hatLive ∧ spGet zeroNat s.vlt.held n = 0 then
    (s.modVlt (fun v => { v.hatMarkUp n k with hatAt := s.cyc })).foldStart
  else if s.vlt.fold.isSome then
    s.modVlt (fun v => { v with hatNext := spSet zeroNat v.hatNext n (spGet zeroNat v.hatNext n + k) })
  else (s.modVlt (fun v => v.hold n k)).foldStart

/-- Held increments are programmed as far as their rings take them (R452, R454). -/
def VltState.hatFlush (v : VltState) : VltState :=
  v.held.foldl (fun w e => { w with hatHeld := spSet zeroNat w.held e.1 0, hatTag := w.epoch }.hatMarkUp e.1 e.2) v

/-- The base set of a fold is written: the fold counts as done, and what is tagged below its epoch no longer counts (R453
step 3). -/
def VltState.foldSet (v : VltState) (nb : List (Nat × Nat)) : VltState :=
  let x := 1 - v.hatSec
  let w := if v.basePos % 10 = 0 then v.eraseOwn (baseSetAt v.basePos) 4096 else v
  let w := (w.eraseOwn (hatSecAt x) 4096).putOwn (baseSetAt v.basePos) (baseSet (v.epoch + 1) x nb)
  { w with
    hatBase := nb, hatMark := [], fold := none, epoch := v.epoch + 1, hatSec := x, hatCut := 0, last := [],
    basePos := (v.basePos + 1) % basePlaces }

/-- Increments of a fold join the held ones, under the base epoch that stands. -/
def VltState.heldAll (v : VltState) : VltState :=
  { v with
    hatHeld := v.hatNext.foldl (fun l e => spSet zeroNat l e.1 (spGet zeroNat l e.1 + e.2)) v.held, hatTag := v.epoch,
    hatNext := [] }

/-- The active sector's header is written (R450). -/
def VltState.hatHead (v : VltState) : VltState := v.putOwn (hatSecAt v.hatSec + 0xF80) (hatHeader v.epoch)

/-- Steps 4 and 5 of a fold (R453): the header of the new sector, and the erase of the old one and of the next base sector
where it is needed; what arose in the fold goes into the new cells. -/
def VltState.foldEnd (v : VltState) (nb : List (Nat × Nat)) : VltState :=
  let w := v.foldSet nb
  let w := w.hatHead.eraseOwn (hatSecAt (1 - w.hatSec)) 4096
  let w := if w.basePos % 10 = 0 then w.eraseOwn (baseSetAt w.basePos) 4096 else w
  w.heldAll.hatFlush

/-- The erase of R454 that was put off is made, and with that of the active sector its header is written. -/
def VltState.hatErase (v : VltState) : VltState :=
  let o := hatSecAt (1 - v.hatSec)
  let w := if v.hatCut = 3 then
      { (v.eraseOwn (hatSecAt v.hatSec) 4096).hatHead with hatCut := if v.ownBlank o 4096 then 0 else 1 }
    else { v.eraseOwn o 4096 with hatCut := 0 }
  w.hatFlush

/-- The last direct write is taken back: the node goes on without it (R457). -/
def VltState.unwrite (v : VltState) : VltState :=
  let cells := v.last.filter (fun a => decide (hatSecAt 0 ≤ a) && decide (a < hatSecAt 0 + 8192) && a % 2 == 0)
  { v with
    flash := v.flash.filter (fun e => !v.last.contains e.1), own := v.own.filter (fun e => !v.last.contains e.1), last := [],
    hatMark := cells.foldl (fun l a =>
      let n := (a - hatSecAt v.hatSec) / 62
      spSet zeroNat l n (spGet zeroNat l n - 1)) v.hatMark }

/-- HC3 is raised by `k`: the bundle version floor (R455). -/
def State.floorRaise (s : State) (k : Nat) : State := s.hatInc 3 k

end Sys2Proof.Machine
end

