-- ==== Sys2Proof/Machine/Time.lean ====
section
/-! DEFINITION. Network time and the keep-alive counters (R319 to R340, R537): the counter and its rate, offsets from
beacons and PPS edges, sets, alarms, and one edge of the keep-alive clock. -/

namespace Sys2Proof.Machine

/-- The network time state, changed. -/
def State.modTim (s : State) (f : TimState → TimState) : State := { s with tim := f s.tim }

/-- The keep-alive domain, changed. -/
def State.modKeep (s : State) (f : KeepState → KeepState) : State := { s with keep := f s.keep }

/-- TIM_STAT.STATE codes (R322). -/
def timUnset : Nat := 0
def timAcquire : Nat := 1
def timLocked : Nat := 2
def timHoldover : Nat := 3

def State.timSt (s : State) : Nat := s.fld F.TIM_STAT_STATE

/-- The node is the acting head: MAC_ROLE.ACT is HEAD. -/
def State.isHead (s : State) : Bool := s.fld F.MAC_ROLE_ACT == 3

/-- TIM_STAT.TIER (R322): 0 at the acting head, 15 with no parent, else the parent's tier plus one. -/
def State.tier (s : State) : Nat :=
  if s.isHead then 0
  else if s.fld F.MAC_PARENT_PARENT = 0x3FF then 15
  else min 15 (s.fld F.MAC_PARENT_PTIER + 1)

/-- F of TIM_FREQ, signed, in units of 2^-40 (R320). -/
def State.freqF (s : State) : Int := signed 32 (s.pair R.TIM_FREQ_LO)

/-- TIM_STEP in units of 2^-72 s a SYSCLK edge (R320), for a correction of `f` in units of 2^-40. -/
def stepOf (f : Int) : Nat := (divRound ((2 ^ 72 : Nat) * ((2 ^ 40 : Nat) + f)) (61440000 * 2 ^ 40)).toNat

def State.timStep (s : State) : Nat := stepOf s.freqF

/-- The extra step of a slew in progress (R324 step 2). -/
def slewStep (f : Int) : Int := divRound ((2 ^ 72 : Nat) * f) (61440000 * 2 ^ 40)

/-- TIM_STAT.FERR: -F in 0.1 ppm, saturating at 51.1 ppm (R320). -/
def State.ferr (s : State) : Nat :=
  ((clampInt (-511) 511 (divRound (-s.freqF * 10000000) (2 ^ 40))) % 1024).toNat

/-- A TIM_EVT bit other than an alarm (R339). -/
def State.timEvt (s : State) (f : Fld) : State := s.stick R.TIM_EVT R.TIM_IRQEN irqTimLk f.mask

/-- The state of R322 changes: LOCKCH on every entry to and exit from LOCKED, and the events of R338. -/
def State.timSet (s : State) (st : Nat) : State :=
  let old := s.timSt
  if st = old then s
  else
    let t := s.setFld F.TIM_STAT_STATE st
    let t := if (old == timLocked) != (st == timLocked) then t.timEvt F.TIM_EVT_LOCKCH else t
    if st = timLocked then t.post 6 1 t.tier
    else if st = timHoldover then (t.modTim (fun m => { m with lockRun := 0 })).post 6 2 old
    else t

/-- The counter is moved to an instant on one edge, and with it the instants from which local intervals run; while it follows the keep-alive counter, that one is moved too
(R333). A move of more than 60 s makes schedule replay due (R334). -/
def State.moveTime (s : State) (t : Nat) : State :=
  let d := (t + 2 ^ 104 - s.tim.now) % 2 ^ 104
  let far := decide (60 * 2 ^ 72 < d) && decide (d < 2 ^ 104 - 60 * 2 ^ 72)
  let shift (x : Nat) : Nat := (x + d) % 2 ^ 104
  let r := s.modTim (fun m => { m with
    now := t % 2 ^ 104, jump := m.jump || far, moved := true,
    slewEnd := shift m.slewEnd, lastTheta := m.lastTheta.map shift, ppsLast := m.ppsLast.map shift })
  let waits := r.mac.bWait.map (fun b : BeaconHeard => { b with at_ := shift b.at_ })
  let r := { r with mac := { r.mac with bWait := waits } }
  let r := r.modKeep (fun k => { k with winStart := 2 ^ 72, winEdges := 0, tempSum := 0, tempN := 0 })
  if r.flag F.TIM_FLG_IRCF then r.modKeep (fun k => { k with ka := t / 2 ^ 24 % 2 ^ 80 }) else r

/-- An acting head without PPSV: nothing disciplines its counter, and a valid time is in HOLDOVER (R328). -/
def State.headFree (s : State) : Bool := s.isHead && !s.flag F.TIM_FLG_PPSV

/-- An offset is applied as a step (R324 step 1). Units of 2^-72 s. -/
def State.timStepBy (s : State) (theta : Int) : State :=
  let r := s.moveTime ((((s.tim.now : Int) + theta) % (2 ^ 104 : Nat)).toNat)
  let r := r.modTim (fun m => { m with
    slewF := 0, slewEnd := 0, firstLit := false, afterSet := false,
    fromKeep := false, lockRun := 0, discarded := false, lastTheta := some m.now })
  let r := r.timEvt F.TIM_EVT_STEP
  let r := r.post 6 3 (satCode 16 (divRound (theta * 1000) (2 ^ 72 : Nat)))
  r.timSet (if r.headFree then timHoldover else timAcquire)

/-- LOCKTH in units of 2^-72 s (R325). -/
def State.lockTh (s : State) : Nat := s.fld F.TIM_LIM_LOCKTH * 2 ^ 72 / 10000000

/-- An offset is accepted and disciplines the rate (R324 step 2, R325); `i` is the interval I. -/
def State.timAccept (s : State) (theta : Int) (i : Int) : State :=
  let corr (k : Nat) : Int := divRound (theta * (2 ^ 40 : Nat)) (i * (2 ^ k : Nat))
  let r := if s.flag F.TIM_CTL_MAN then s
           else s.setPair R.TIM_FREQ_LO (satCode 32 (s.freqF + corr (s.fld F.TIM_LOOP_KI)))
  let near := decide (theta.natAbs ≤ s.lockTh)
  let r := r.modTim (fun m => { m with
    slewF := corr (s.fld F.TIM_LOOP_KP),
    slewEnd := (m.now + i.toNat) % 2 ^ 104, discarded := false, lastTheta := some m.now })
  let r := if r.timSt = timHoldover ∧ !r.headFree then r.timSet timAcquire else r
  let r := r.modTim (fun m => { m with lockRun := if near then m.lockRun + 1 else 0 })
  if 2 ≤ r.tim.lockRun ∧ r.timSt = timAcquire then r.timSet timLocked else r

/-- An offset from a beacon or a PPS edge (R323 to R325); `i`: the interval I where the source fixes it. -/
def State.timTheta (s : State) (theta : Int) (i : Option Nat) : State :=
  let s := s.setFld F.TIM_THETA_TH (satCode 16 (divRound (theta * 1000000000) (2 ^ 72 : Nat)))
  let s := s.modTim (fun m => { m with thetaGot := true, noTheta := 0 })
  if s.timSt = timUnset ∨ s.tim.fromKeep ∨ s.tim.firstLit ∨ (s.tim.afterSet ∧ !s.isHead) ∨
      s.fld F.TIM_STEPLIM_LIM * 2 ^ 72 / 1000000 < theta.natAbs then
    s.timStepBy theta
  else if s.timSt = timLocked ∧ !s.tim.discarded ∧ 4 * s.lockTh < theta.natAbs then
    s.modTim (fun m => { m with discarded := true })
  else
    let gap : Nat := match i, s.tim.lastTheta with
      | some x, _ => x
      | none, some l => (s.tim.now + 2 ^ 104 - l) % 2 ^ 104
      | none, none => 0
    s.timAccept theta gap

/-- The time is set to an instant by SET or SETCAP (R328): event detail `d`. -/
def State.timLoad (s : State) (t d : Nat) : State :=
  let r := s.moveTime t
  let r := r.modTim (fun m => { m with
    fromKeep := false, discarded := false, lockRun := 0, afterSet := !s.isHead })
  let r := r.timEvt F.TIM_EVT_SETDONE
  let r := r.post 6 5 d
  r.timSet (if s.headFree then timHoldover else timAcquire)

/-- The node becomes the acting head: without PPSV, a valid time is in HOLDOVER (R328). -/
def State.timHeadNow (s : State) : State :=
  if s.timeValid ∧ s.headFree then s.timSet timHoldover else s

/-- A write of TIM_CMD (R328, R340): SET, SETCAP or the cancel of SETCAP, while SYS_UNLOCK is open. -/
def State.timCmd (s : State) (p : Path) (code : Nat) : State :=
  if !s.unlocked p then s
  else match code with
    | 1 => s.timLoad (instant (s.pair R.TIM_SETS_LO) (s.pair R.TIM_SETF_LO)) 0
    | 2 => s.setFlag F.TIM_FLG_SETP true
    | 3 => s.setFlag F.TIM_FLG_SETP false
    | _ => s

/-- A capture of the selected timer channel (R329): it latches network time, serves a waiting SETCAP, and with
TIM_CTL.PPS at an acting head runs the loop on the edge (R328). -/
def State.timCapture (s : State) (n : Nat) : State :=
  if s.flag F.TIM_CAPSRC_EN ∧ s.fld F.TIM_CAPSRC_GT = n then
    let t := s.tim.now
    let r := (s.setPair R.TIM_CAPS_LO (secOf t)).setPair R.TIM_CAPF_LO (fracOf t)
    let r := if r.flag F.TIM_FLG_SETP then
        (r.setFlag F.TIM_FLG_SETP false).timLoad (instant (r.pair R.TIM_SETS_LO) 0) 1
      else r
    let t := r.tim.now
    if r.flag F.TIM_CTL_PPS ∧ r.isHead then
      let gap := match r.tim.ppsLast with
        | some l => (t + 2 ^ 104 - l) % 2 ^ 104
        | none => 0
      let good := decide (2 ^ 72 ≤ gap + 2 ^ 72 / 10000) && decide (gap ≤ 2 ^ 72 + 2 ^ 72 / 10000)
      let lost := r.flag F.TIM_FLG_PPSV && !good
      let r := (r.setFlag F.TIM_FLG_PPSV good).modTim (fun m => { m with ppsLast := some t })
      let r := if lost then (r.post 6 6 0).timHeadNow else r
      let frac : Nat := t % 2 ^ 72
      let theta : Int := if 2 * frac < 2 ^ 72 then -(frac : Int) else ((2 ^ 72 - frac : Nat) : Int)
      r.timTheta theta (some (2 ^ 72))
    else r
  else s

/-- TIM_OFFSET has moved local time from where `old` put it: by more than 60 s schedule replay follows (R96, R337),
else the minutes passed over (R334). -/
def State.offsetMoved (s : State) (old : Word) : State :=
  let d := signed 16 (s.reg R.TIM_OFFSET).toNat - signed 16 old.toNat
  if d = 0 then s else s.modTim (fun m => { m with jump := m.jump || decide (1 < d.natAbs), moved := true })

/-- TIM_OFFSET taken from a notice or a command (R337), stored within its bounds (R340). -/
def State.offsetTake (s : State) (v : Word) : State := 
  (s.setReg R.TIM_OFFSET (BitVec.ofInt 16 (clampInt (-900) 900 (signed 16 v.toNat)))).offsetMoved (s.reg R.TIM_OFFSET)

/-! Alarms (R335). -/

/-- The key of the control register of alarm `n`. -/
def alCtl (n : Nat) : Nat := R.TIM_AL0CTL + 64 * 8 * (n % 4)

/-- A write of TIM_ALnCTL: EN = 1 arms with the values of TIM_ALnS and TIM_ALnF at the write. -/
def State.alarmWrite (s : State) (n : Nat) (v : Word) : State :=
  let r := s.setReg (alCtl n) (v &&& 0xBFFF)
  if v.getLsbD 15 then
    let t := instant (s.pair (R.TIM_AL0S_LO + 512 * n)) (s.pair (R.TIM_AL0F_LO + 512 * n))
    r.modTim (fun m => { m with alarmAt := m.alarmAt.set n t, alarmMs := m.alarmMs.set n 0 })
  else r

/-- Network time is at or past an alarm time of `t` plus `ms` milliseconds. -/
def alarmDue (now t ms : Nat) : Bool := decide (t * 1000 + ms * 2 ^ 72 ≤ now * 1000)

/-- Alarm `n` fires (R335), when it is armed and due. -/
def State.alarmFire (s : State) (n : Nat) : State :=
  let t := s.tim.alarmAt.getD n 0
  let ms := s.tim.alarmMs.getD n 0
  if s.bit (alCtl n) 15 ∧ alarmDue s.tim.now t ms then
    let r := s.pulse (0x6E + n)
    let r := r.stick R.TIM_EVT R.TIM_IRQEN irqTimAl (fieldMask n n)
    let rep := (s.reg (alCtl n)).toNat % 2 ^ 14
    if rep = 0 then r.setBit (alCtl n) 15 false
    else
      let k := ((s.tim.now - t) * 1000 - ms * 2 ^ 72) / (rep * 2 ^ 72) + 1
      r.modTim (fun m => { m with alarmMs := m.alarmMs.set n (ms + k * rep) })
  else s

/-! The keep-alive clock (R330, R331). -/

/-- TIM_KTC as the keep-alive domain uses it (R330): the register, or what it was where the core has lost it. -/
def State.ktc (s : State) : Word := if 6 ≤ s.pwr.boot then s.reg R.TIM_KTC else s.keep.ktc

/-- The increment of a keep-alive edge: 2^33 (1 - e(T)) in units of 2^-48 s, e(T) = E0 - k (T - T0)^2 (R330). -/
def State.kaStep (s : State) : Nat :=
  let d := s.keep.temp - 16 * signed 8 (getBits s.ktc 15 8)
  let e := 256 * s.keep.e0 - 10 * (getBits s.ktc 7 0 : Int) * d * d
  ((2 ^ 33 : Nat) - divRound ((2 ^ 33 : Nat) * e) (256 * 10000000000)).toNat

/-- One edge of KXO or KRC: the keep-alive counter and the elapsed-time count advance (R330, R537), interruptions
are timed (R425), and a main counter that follows is reloaded (R333 step 2). -/
def State.kaEdge (s : State) : State :=
  let st := s.kaStep
  let krc := if s.flag F.CLK_STAT_KSRC then 1 else 0
  let r := s.modKeep (fun k => { k with
    ka := (k.ka + st) % 2 ^ 80, elapsed := k.elapsed + st, phase := 0,
    winEdges := k.winEdges + 1,
    offEdges := if k.off then k.offEdges + 1 else k.offEdges,
    offKrc := if k.off then k.offKrc + krc else k.offKrc,
    litEdges := if s.pwr.boot = 0 then k.litEdges else k.litEdges + 1 })
  if r.flag F.TIM_FLG_IRCF ∧ 3 ≤ r.pwr.boot then
    r.modTim (fun m => { m with now := kaInstant r.keep.ka })
  else r

/-- The refinement of E0 after a window (R331), in units of 10^-10: a filter of weight 1/16 on the measured rate error
with the temperature term at the window's mean taken out. -/
def refineE0 (e0 tempSum : Int) (tempN edges elapsed : Nat) (t0 k : Int) : Int :=
  if elapsed = 0 ∨ edges = 0 then e0
  else
    let m := divRound (((edges * 2 ^ 57 : Nat) - (elapsed : Int)) * 10000000000) elapsed
    let d := divRound tempSum (if tempN = 0 then 1 else tempN) - 16 * t0
    let e := m + divRound (10 * k * d * d) 256
    e0 + divRound (e - e0) 16

/-- The end of a calibration window (R331): while LOCKED or HOLDOVER on XO, the keep-alive counter takes network time,
and E0 is refined where the window was a whole one with no step or set in it. Windows begin at the multiples of 64 s of
network time; one ends at the first edge of KXO at or past the next multiple. -/
def State.kaCalibrate (s : State) : State :=
  let span : Nat := 64 * 2 ^ 72
  let edge (t : Nat) : Bool := decide (t % span < 2 ^ 72 / 16384)
  if (s.timSt = timLocked ∨ s.timSt = timHoldover) ∧ !s.flag F.TIM_FLG_IRCF ∧ edge s.tim.now ∧
      s.tim.now / span ≠ s.keep.winStart / span then
    let k := s.keep
    let w := (s.tim.now + 2 ^ 104 - k.winStart) % 2 ^ 104
    let whole := edge k.winStart && decide ((k.winStart / span + 1) % 2 ^ 26 = s.tim.now / span)
    let e := if !whole then k.e0 else refineE0 k.e0 (if k.tempN = 0 then k.temp else k.tempSum) k.tempN k.winEdges
      w (signed 8 (s.fld F.TIM_KTC_T0)) (s.fld F.TIM_KTC_K)
    let r := s.modKeep (fun q => { q with
      e0 := e, ka := s.tim.now / 2 ^ 24 % 2 ^ 80, winStart := s.tim.now,
      winEdges := 0, tempSum := 0, tempN := 0 })
    r.setReg R.TIM_KFERR (BitVec.ofNat 16 (satCode 16 (divRound e 1000)))
  else s

/-- One SYSCLK edge of network time (R320): the counter adds TIM_STEP, and a slew in progress its part, unless it
follows the keep-alive counter. -/
def State.timEdge (s : State) : State :=
  if s.flag F.TIM_FLG_IRCF then s
  else
    let m := s.tim
    let live := m.slewF != 0 && decide ((m.slewEnd + 2 ^ 104 - m.now) % 2 ^ 104 < 2 ^ 103)
    let d : Int := s.timStep + (if live then slewStep m.slewF else 0)
    { s with tim := { m with now := (((m.now : Int) + d) % (2 ^ 104 : Nat)).toNat, slewF := if live then m.slewF else 0 } }

/-! The keep-alive domain's live views (R411, R414, R416). -/

/-- VAUX is taken: it is good, and no mains loss stands (R411). -/
def State.vauxUsed (s : State) : Bool :=
  decide (1 ≤ s.pwr.boot) && s.flag F.PWR_STAT_VAUXG && (decide (s.pwr.loss = 0) || s.pwr.vauxBack)

/-- The harvester may transfer (R416), but for its input voltage. -/
def State.harvests (s : State) : Bool :=
  let v := (s.reg R.KEEP_VSTORE).toNat
  s.flag F.KEEP_CTL_HEN && (decide (s.pwr.boot ≠ 0) || s.keep.deep.getLsbD 0) && decide (1900 ≤ v) &&
    decide (v < 10 * s.fld F.KEEP_VMAX_V)

/-- KEEP_STAT.SRC: VAUX where it is taken, else the store, or the cell where it is admitted and higher (R411). CHG: the store
is charged from VAUX, which a mains loss ends (R414). HACT: a transfer goes on while its conditions hold (R416). -/
def State.keepLive (s : State) : State :=
  let hi := decide (s.reg R.KEEP_VSTORE < s.reg R.KEEP_VCELL)
  let t := s.setFld F.KEEP_STAT_SRC (if s.vauxUsed then 0 else if s.keep.cell && hi then 2 else 1)
  let t := t.setFlag F.KEEP_STAT_CHG
    (s.vauxUsed && decide (s.pwr.loss = 0) && s.flag F.KEEP_CTL_CHGEN && !s.flag F.KEEP_STAT_FULL)
  t.setFlag F.KEEP_STAT_HACT (s.flag F.KEEP_STAT_HACT && s.harvests)

/-! TIM_PHREF (R336). -/

/-- N of R336 at an instant. -/
def phrefN (t : Nat) : Nat := t * 61440000 / 2 ^ 72

/-- N has reached a multiple of CUR_DPER on this edge: of SYSCLK, or of KXO while the counter follows the keep-alive
counter. What a jump passes over gives no pulse. -/
def State.phrefDue (s : State) : Bool :=
  let kxo := s.flag F.TIM_FLG_IRCF
  let step := if kxo then s.kaStep * 2 ^ 24 else s.timStep
  let d := max 1 (s.fld F.CUR_DPER_DPER)
  let fresh := !s.tim.phrefAt.any (fun a => a == s.cyc)
  fresh && (!kxo || s.keep.phase == 0) && phrefN (s.tim.now - step) / d != phrefN s.tim.now / d

/-! Commands of network time. -/

/-- TIME_SET (R328). -/
def execTimeSet (p : Path) (s : State) : Host.Outcome State Fault Refusal := done (s.onWrite p (fun t => t.timCmd p 1))

/-- TIME_SETCAP (R328). -/
def execTimeSetcap (p : Path) (s : State) : Host.Outcome State Fault Refusal := done (s.onWrite p (fun t => t.timCmd p 2))

/-- SETCAP_CANCEL (R328). -/
def execSetcapCancel (p : Path) (s : State) : Host.Outcome State Fault Refusal := done (s.onWrite p (fun t => t.timCmd p 3))

/-- More than 1 s + 100 us have passed since the last PPS edge (R328). -/
def State.ppsLate (s : State) : Bool :=
  match s.tim.ppsLast with
  | some l => decide (2 ^ 72 + 2 ^ 72 / 10000 < (s.tim.now + 2 ^ 104 - l) % 2 ^ 104)
  | none => true

/-- PPS_LOST (R328, R338): no edge comes within 1 s + 100 us; the head is in HOLDOVER again. -/
def execPpsLost (s : State) : Host.Outcome State Fault Refusal :=
  done (if s.flag F.TIM_FLG_PPSV ∧ s.ppsLate then
    let r := (s.setFlag F.TIM_FLG_PPSV false).post 6 6 0
    if r.isHead then r.timHeadNow else r
  else s)

/-- The parent's beacon was expected in the bench that ends: a head's in every bench, a relay's every 4 (R261, R325). -/
def State.beaconExpected (s : State) (bench : Nat) : Bool :=
  let pt := s.fld F.MAC_PARENT_PTIER
  !s.isHead && s.fld F.MAC_PARENT_PARENT != 0x3FF && (pt == 0 || bench % 4 == (pt - 1) / 2 % 4)

/-- A bench that ends is counted where its expected beacon gave no offset (R325). -/
def State.thetaBench (s : State) (bench : Nat) : State :=
  let miss := s.beaconExpected bench && !s.tim.thetaGot
  s.modTim (fun m => { m with thetaGot := false, noTheta := if miss then m.noTheta + 1 else m.noTheta })

/-- HOLDOVER_ENTRY (R325): TIM_LIM.HOB expected beacons in a row gave no offset. -/
def execHoldoverEntry (s : State) : Host.Outcome State Fault Refusal :=
  done (if (s.timSt = timLocked ∨ s.timSt = timAcquire) ∧ !s.isHead ∧ s.fld F.TIM_LIM_HOB ≤ s.tim.noTheta then s.timSet timHoldover else s)

/-- ALARM_ARM (R335). -/
def execAlarmArm (p : Path) (n : Fin 4) (v : Word) (s : State) : Host.Outcome State Fault Refusal :=
  done (s.onWrite p (fun t => t.alarmWrite n v))

/-- ALARM_FIRE (R335). -/
def execAlarmFire (n : Fin 4) (s : State) : Host.Outcome State Fault Refusal := done (s.alarmFire n)

/-- KA_CALIBRATION_WINDOW (R331). -/
def execKaCalibrationWindow (s : State) : Host.Outcome State Fault Refusal := done s.kaCalibrate

/-- TIM_SEC_READ (R321, R29): the LO half is returned, the HI half latched under the pair's tag, and the whole
fraction copied into the path's snapshot. -/
def State.readTimSec (s : State) (p : Path) : State :=
  s.modPath p (fun q => { q with
    last := BitVec.ofNat 16 (secOf s.tim.now),
    latch := BitVec.ofNat 16 (secOf s.tim.now / 65536), latchTag := some R.TIM_SEC_LO, snapF := fracOf s.tim.now })

def execTimSecRead (p : Path) (s : State) : Host.Outcome State Fault Refusal :=
  done (if s.pathUp p then s.readTimSec p else s)

end Sys2Proof.Machine
end

