-- ==== Sys2Proof/Machine/Pwm.lean ====
section
/-! DEFINITION. The switching generator (R112 to R147, R503, R504, R539): the periods of a channel, dead time, burnish
pulses, forces, trips and hold. -/

namespace Sys2Proof.Machine

/-- Channel `n`. -/
def State.chan (s : State) (n : Nat) : Chan := nthOf s.pwm.chans n

/-- Channel `n` changed. -/
def State.modChan (s : State) (n : Nat) (f : Chan → Chan) : State :=
  { s with pwm := { s.pwm with chans := modNth s.pwm.chans n f } }

/-- The generator as a whole, changed. -/
def State.modPwm (s : State) (f : PwmState → PwmState) : State := { s with pwm := f s.pwm }

/-- A state changed for each channel in turn. -/
def State.forChans (s : State) (f : Nat → State → State) : State := (List.range 16).foldl (fun t n => f n t) s

/-- The channels that a write to an indexed register reaches: the selected one, or all under 0x1F (R27). -/
def chanSel (sel : Nat) : List Nat := if sel = 0x1F then List.range 16 else if sel < 16 then [sel] else []

/-- A sticky PWM_STAT bit of channel `n` (R146). -/
def State.pwmStick (s : State) (n : Nat) (f : Fld) : State := s.stick (cell R.PWM_STAT n) R.PWM_IRQEN irqPwmTrip f.mask

/-- PWM_TRIPLAT of channel `n`. -/
def State.lat (s : State) (n : Nat) : Word := s.reg (R.PWM_TRIPLAT + n)

/-- The channel is locked off: OPEN (R172) or after its retries (R174). -/
def State.lockedOff (s : State) (n : Nat) : Bool :=
  s.flag (F.CUR_CSTAT_OPENL.at n) || s.flag (F.CUR_CSTAT_LOCKL.at n)

/-- SYS_MODE.STATE is LIT-RUN. -/
def State.litRun (s : State) : Bool := decide (4 ≤ s.pwr.boot) && decide (s.fld F.SYS_MODE_STATE = 1)

/-- Both gates of channel `n` are low whatever else holds: order 1 of R503 (R389, R400, R405, R512, disabled,
LIT-IDLE). In a mains loss they are from the channel's next boundary on. -/
def State.gatesOff (s : State) (n : Nat) : Bool :=
  !s.flag F.PWR_STAT_VDRVG || s.pwr.rstLow || s.pwr.softRst || decide (2 ≤ s.pwr.loss) || s.pwr.extest
    || !s.bit R.PWM_ENA n || !s.litRun || (decide (1 ≤ s.pwr.loss) && (s.chan n).closed)

/-- The channel is at its safe levels: order 2 of R503 (R138, R142). -/
def State.chanSafe (s : State) (n : Nat) : Bool := s.lat n != 0 || s.flag (F.PWM_STAT_HOLDSAFE.at n)

/-- The levels of HGn and LGn (R503). -/
def State.gates (s : State) (n : Nat) : Bool × Bool :=
  if s.gatesOff n then (false, false)
  else if s.chanSafe n then (false, s.flag (F.PWM_SAFE_LGS.at n))
  else ((s.chan n).hg, (s.chan n).lg)

/-- The conditions under which a held channel restarts (R504). -/
def State.mayRestart (s : State) (n : Nat) : Bool :=
  !s.gatesOff n && s.lat n == 0 && !s.lockedOff n && s.clk.good && !s.flag (F.PWM_STAT_HOLDSAFE.at n)

/-- The conditions of R504 for channel `n` but those that LIT-RUN and the mains-loss sequence set: the node's entry to
LIT-RUN makes a restart that waits (R14). -/
def State.mayWake (s : State) (n : Nat) : Bool :=
  s.bit R.PWM_ENA n && s.flag F.PWR_STAT_VDRVG && s.lat n == 0 && !s.lockedOff n && s.clk.good &&
    !s.flag (F.PWM_STAT_HOLDSAFE.at n)

/-- LG is commanded to a level: its fall has still to be sensed (R119). -/
def Chan.lgSet (c : Chan) (b : Bool) : Chan := { c with lg := b, lgLow := if c.lg || b then none else c.lgLow }

/-- The channel is at its stepped count `t`: past the mid-period load point from there on. A frozen counter stays. -/
def Chan.goto (c : Chan) (t : Nat) : Chan :=
  if c.frozen then c else { c with cnt := t, mHit := c.mHit || decide (c.per / 2 ≤ t) }

/-- The instants of channel `n` reckoned from a count `d` ticks later. -/
def Chan.shift (c : Chan) (d : Int) : Chan :=
  { c with
    hgOff := c.hgOff - d, lgOff := c.lgOff - d, hgOn := c.hgOn - d, lgOn := c.lgOn - d, hgAt := c.hgAt.map (· - d),
    lgLow := c.lgLow.map (· - d) }

/-- The count that a load or a jump sets: a compare at or below a count above 0 is passed in this period (R143). -/
def Chan.passed (c : Chan) (t : Nat) : Chan :=
  { c with
    aHit := t != 0 && decide (c.cmpa ≤ t), bHit := t != 0 && decide (c.cmpb ≤ t), mHit := decide (c.per / 2 ≤ t),
    pHit := decide (c.per ≤ t) }

/-- A gate is forced to 1. -/
def Chan.forced1 (c : Chan) : Bool := c.fHg == 2 || c.fLg == 2

/-- The counter of channel `n` runs and is not frozen. -/
def State.ticking (s : State) (n : Nat) : Bool := (s.chan n).run && !(s.chan n).frozen

/-- The timing governs the gates of channel `n`: neither order 1 nor order 2 of R503 does, and the channel is not frozen
but for a force (R134, R142). -/
def State.timed (s : State) (n : Nat) : Bool :=
  (s.chan n).run && (!(s.chan n).frozen || (s.chan n).forced1) && !s.gatesOff n && !s.chanSafe n

/-- The count of mid on-time (R154), where it has not passed: half the last on-time after HG rose in this period. -/
def Chan.midOn (c : Chan) : Option Nat :=
  match c.tPrev with
  | some p =>
    let t := c.hgOn + ((p / 2 : Nat) : Int)
    if c.rose ∧ !c.cap ∧ (c.cnt : Int) ≤ t then some t.toNat else none
  | none => none

/-- The armed set of channel `n` waits for the mid-period load point of this period (R125). -/
def State.midWaits (s : State) (n : Nat) : Bool :=
  !(s.chan n).mHit && (s.chan n).upd != 0 && s.flag (F.PWM_STAT_PEND.at n)

/-- The counts of this period at which channel `n` has something to do that has not been done: its compares, a pending
turn-on whose wait ends (R119, R120), the end of a burnish pulse (R131), mid on-time (R154). -/
def State.stops (s : State) (n : Nat) : List Nat :=
  let c := s.chan n
  let at_ (b : Bool) (x : Int) : List Nat := if b then [max c.cnt x.toNat] else []
  let cap : Int := s.fld (F.PWM_DT_DTMAX.at n)
  let t := s.timed n
  (c.midOn.toList ++ at_ (!c.aHit) c.cmpa ++ at_ (!c.bHit) c.cmpb ++ at_ (t && c.hgDue && c.hgAt.isSome) (c.hgAt.getD 0) ++
    at_ (t && c.hgDue) (c.lgOff + cap) ++ at_ (t && c.lgDue && !c.zcd) (c.hgOff + cap) ++
    at_ (t && c.burn && c.lg && !c.rose && c.fLg != 2) (c.lgOn + s.fld (F.PWM_BRN_BRN_W.at n))).filter (· ≤ c.per)

/-- The highest count that channel `n` may step to before something else is due. -/
def State.limit (s : State) (n : Nat) : Nat :=
  let c := s.chan n
  min ((s.stops n).foldl min c.per) (if s.midWaits n then c.per / 2 - 1 else c.per)

/-- Channel `n` comes to count `t` with nothing due before. -/
def State.reach (s : State) (n t : Nat) : Bool :=
  let c := s.chan n
  c.run && decide (c.cnt ≤ t) && (if c.frozen then c.forced1 else decide (t ≤ s.limit n))

/-- Four PWMCLK edges, one SYSCLK edge: the counter steps on, but not past what is due. -/
def State.pwmEdge (s : State) (n : Nat) : State :=
  let c := s.chan n
  if s.ticking n then s.modChan n (fun x => x.goto (max c.cnt (min (c.cnt + 4) (s.limit n)))) else s

/-! The analyser's account of a channel's periods (R187). -/

/-- The analyser, changed. -/
def State.modHlt (s : State) (f : HltState → HltState) : State := { s with hlt := f s.hlt }

/-- Channel `n` of the analyser. -/
def State.hchan (s : State) (n : Nat) : HChan := nthOf s.hlt.chans n

/-- Channel `n` of the analyser, changed. -/
def State.modHchan (s : State) (n : Nat) (f : HChan → HChan) : State :=
  s.modHlt (fun h => { h with chans := modNth h.chans n f })

/-- A period of channel `n` begins: its count-0 edge and the amplitude it carries (R187). -/
def State.hltPeriodBegin (s : State) (n : Nat) : State :=
  let c := s.chan n
  s.modHchan n (fun h =>
    { h with edges := h.edges + 1, qSum := h.qSum + (if s.flag (F.PWM_STAT_GATED.at n) then 0 else c.amp) })

/-- A soft start of channel `n` begins (R169). -/
def State.softStart (s : State) (n : Nat) : State :=
  (s.setFlag (F.CUR_CSTAT_SSL.at n) true).modChan n (fun c => { c with ssAt := s.cyc })

/-! Events (R143). -/

/-- An event of channel `n` passes to the fabric when its enable is 1 and the prescaler reads 0. -/
def State.chanEvent (s : State) (n : Nat) (en : Fld) (base : Nat) : State :=
  if s.flag (en.at n) ∧ (s.chan n).psc = 0 then s.pulse (base + n) else s

/-- ZERO of channel `n`: the prescaler counts it, the fabric gets it, and SYNCO where `n` is the chain master (R143,
R144). -/
def State.zeroEvent (s : State) (n : Nat) : State :=
  let p := s.fld (F.PWM_EVCTL_PRESC.at n)
  let r := s.modChan n (fun c => { c with psc := (c.psc + 1) % (p + 1) })
  let r := r.chanEvent n F.PWM_EVCTL_ZEROE 0x10
  if r.flag F.PWM_SYNC_SOEN ∧ r.fld F.PWM_SYNC_MASTER = n then r.modPwm (fun q => { q with synco := true }) else r

/-! Gate transitions. -/

/-- HG is commanded off at count `t`; `how` ends the pulse (R114); LG waits for SW (R119). -/
def Chan.hgEnd (c : Chan) (t how : Nat) : Chan :=
  { c with
    hg := false, hgOff := t, lgDue := c.fLg != 1, ended := how, dropRun := 0, tOn := (t - c.hgOn).toNat,
    fineEnd := if how = 1 then c.fine else 0 }

/-- LG rises at count `t`; DTHL is measured from where HG went off (R122), or taken as `cap`. -/
def State.lgRise (s : State) (n t : Nat) (cap : Option Nat) : State :=
  let d := cap.getD (t - (s.chan n).hgOff).toNat
  let r := s.modChan n (fun c => { (c.goto t).lgSet true with lgDue := false, lgOn := t })
  r.setFld (F.PWM_DTMEAS_DTHL.at n) (min d 255)

/-- HG rises at count `t`; DTLH is measured where LG was commanded off in this period (R122), or taken as `cap`. -/
def State.hgRise (s : State) (n t : Nat) (cap : Option Nat) : State :=
  let c := s.chan n
  let d := cap.getD (t - c.lgOff).toNat
  let r := s.modChan n (fun c => { c.goto t with hg := true, hgDue := false, hgAt := none, rose := true, cap := false, ended := 0, hgOn := t })
  if c.lgFell then r.setFld (F.PWM_DTMEAS_DTLH.at n) (min d 255) else r

/-- The HG turn-on is forgone at a count at or above CMPA (R121); outside a burnish period LG turns on again (R539). -/
def State.hgForgo (s : State) (n t : Nat) : State :=
  s.modChan n (fun c => { c.goto t with hgDue := false, hgAt := none, lgDue := c.fLg != 1 && !c.burn, hgOff := t })

/-- The HG turn-on condition is met at count `t` (R119, R121). -/
def State.hgMeet (s : State) (n t : Nat) (cap : Option Nat) : State :=
  let c := s.chan n
  if c.fHg ≠ 2 ∧ c.cmpa ≤ t then s.hgForgo n t else s.hgRise n t cap

/-! Shadow loading (R123 to R128). -/

/-- The active PER of a written one (R113). -/
def clampPer (v : Nat) : Nat := clampNat 204 1637 v

/-- The shadow set of channel `n` is loaded. -/
def State.shadowLoad (s : State) (n : Nat) : State :=
  let p := (s.reg (R.PWM_PER + n)).toNat
  let r := if clampPer p = p then s else s.pwmStick n F.PWM_STAT_PCLAMP
  let r := r.setFlag (F.PWM_STAT_PEND.at n) false
  let a := (s.reg (R.PWM_CMPA + n)).toNat
  let b := (s.reg (R.PWM_CMPB + n)).toNat
  let f := s.fld (F.PWM_FINE_FINE.at n)
  let r := r.modChan n (fun c =>
    { c with
      kFirst := c.kFirst || c.per != clampPer p, per := clampPer p, cmpa := a, cmpb := b, fine := f })
  r.setFlag (F.PWM_STAT_DROPOUT.at n) (decide (clampPer p + 1 ≤ a))

/-- The UPD code in force: 0b11 is treated as 0b00 (R147). -/
def State.updOf (s : State) (n : Nat) : Nat :=
  let u := s.fld (F.PWM_CTL_UPD.at n)
  if u = 3 then 0 else u

/-- The shadowed register of an operand. -/
def shadowKey : ShadowReg → Nat
  | .per => R.PWM_PER
  | .cmpa => R.PWM_CMPA
  | .cmpb => R.PWM_CMPB
  | .fine => R.PWM_FINE

/-- A write of a shadowed register of channel `n` (R123, R128). -/
def State.shadowWrite (s : State) (n : Nat) (q : ShadowReg) (v : Word) : State :=
  let r := s.setReg (cell (shadowKey q) n) (if q = .fine then v &&& 0xF else v)
  if q = .cmpa ∨ !s.flag (F.PWM_CTL_GRP.at n) then
    if s.bit R.PWM_ENA n then r.setFlag (F.PWM_STAT_PEND.at n) true else r.shadowLoad n
  else r

/-! The burst gate (R117, R164). -/

/-- The burst gate at count 0: open or closed for the period, with the amplitude it carries; probe cycles (R192) and a
running burst first, then region A, then the burst that waits. -/
def Chan.gate (c : Chan) (floor : Nat) : Chan × Option Nat :=
  if 0 < c.pk then ({ c with pk := c.pk - 1, fin := false, probe := c.pk == 1 }, some c.pa)
  else if 0 < c.bk then ({ c with bk := c.bk - 1, fin := false }, some floor)
  else if 0 < c.bf then ({ c with bf := 0, fin := true }, some c.bf)
  else if c.openA then ({ c with fin := false }, some c.ampA)
  else if 0 < c.nk then ({ c with bk := c.nk - 1, bf := c.nf, nk := 0, nf := 0, fin := false }, some floor)
  else if 0 < c.nf then ({ c with bf := 0, nk := 0, nf := 0, fin := true }, some c.nf)
  else ({ c with fin := false }, none)

/-- The integer square root of `n` by `k` halvings of the digit 2^k. -/
def isqrtN : Nat → Nat → Nat → Nat
  | 0, _, r => r
  | k + 1, n, r => if (r + 2 ^ k) * (r + 2 ^ k) ≤ n then isqrtN k n (r + 2 ^ k) else isqrtN k n r

/-- The integer square root of a number below 2^128. -/
def isqrt (n : Nat) : Nat := isqrtN 64 n 0

/-- The trim correction E of channel `n` in sixteenths of a DAC code (R155). -/
def State.trimE (s : State) (n : Nat) : Int := signed 16 (s.reg (R.CUR_TRIMV + n)).toNat

/-- The DAC code of amplitude `a` on channel `n` (R150). -/
def State.thrOf (s : State) (n a : Nat) : Nat :=
  let thr0 : Int := divRound (a * s.fld (F.CUR_VR_VR.at n) : Nat) 1000
  (clampInt 0 4095 (thr0 + divRound (s.trimE n) 16)).toNat

/-- The DAC code of a final cycle of amplitude `a` (R163): THR_F sqrt(a / FLOOR), to the nearest code. -/
def State.thrFinal (s : State) (n a : Nat) : Nat :=
  let f := s.fld (F.CUR_FLOOR_FLOOR.at n)
  let t := s.thrOf n f
  (isqrt (4 * t * t * a / (if f = 0 then 1 else f)) + 1) / 2

/-- The channel's burst gate is kept closed: locked off (R172, R174), or mains loss (R400). -/
def State.gateShut (s : State) (n : Nat) : Bool := s.lockedOff n || decide (1 ≤ s.pwr.loss)

/-! Forces (R134, R135). -/

/-- The forces `h` and `l` take effect at the present count, under the interlock of R135: a forced-1 HG waits until LG has
been sensed low for `wait` ticks, DTMIN; `gated`: the period is gated off. -/
def Chan.forceApply (c : Chan) (gated : Bool) (wait h l : Nat) : Chan :=
  let t := c.cnt
  let (oh, ol) := (c.fHg, c.fLg)
  let c := { c with fHg := h, fLg := l, hurt := true }
  let c :=
    if h = 2 then
      { c.lgSet false with
        lgDue := false, lgOff := if c.lg then t else c.lgOff, lgFell := c.lgFell || c.lg, hgDue := !c.hg && !c.bstOn,
        hgAt := (c.lgSet false).lgLow.map (· + (wait : Int)) }
    else if h = 1 then
      if c.hg then c.hgEnd t 3
      else if c.hgDue then { c with hgDue := false, hgAt := none, hgOff := t, lgDue := c.fLg != 1 && !c.burn && !gated }
      else c
    else if oh = 2 then
      if c.hg ∧ (c.cmpa ≤ t ∨ gated) then c.hgEnd t 1 else { c with hgDue := false, hgAt := none }
    else c
  let c :=
    if l = 2 then
      let c := if c.hg then c.hgEnd t 3 else { c with hgOff := if c.lg || c.lgDue then c.hgOff else t }
      { c with hgDue := false, hgAt := none, lgDue := !c.lg, zcd := false }
    else if l = 1 then
      { c.lgSet false with lgDue := false, lgOff := if c.lg then t else c.lgOff, lgFell := c.lgFell || c.lg }
    else if ol = 1 ∧ !c.hg ∧ !c.hgDue ∧ !c.zcd ∧ !c.lg ∧ !c.lgDue then
      { c with lgDue := h != 2, hgOff := t }
    else c
  if gated then
    { c.lgSet (c.lg && c.fLg == 2) with
      hg := c.hg && c.fHg == 2, hgDue := c.hgDue && c.fHg == 2,
      lgDue := c.lgDue && c.fLg == 2 }
  else c

/-- The forces of channel `n` take effect; where a trip or its supplies hold its gates they are only kept (R136). -/
def State.forceTake (s : State) (n h l : Nat) : State :=
  if s.chanSafe n ∨ s.gatesOff n ∨ !(s.chan n).run then s.modChan n (fun c => { c with fHg := h, fLg := l })
  else s.modChan n (fun c => c.forceApply (s.flag (F.PWM_STAT_GATED.at n)) (s.fld (F.PWM_DT_DTMIN.at n)) h l)

/-- The forces in place on channel `n` act again: a trip has been cleared (R136), or the channel has started. -/
def State.forceAgain (s : State) (n : Nat) : State :=
  let c := s.chan n
  if c.fHg = 0 ∧ c.fLg = 0 then s else (s.modChan n (fun c => { c with fHg := 0, fLg := 0 })).forceTake n c.fHg c.fLg

/-! The period boundary. -/

/-- The period that ends at a boundary, as later rules count it (R132, R154, R171). -/
def State.periodEnd (s : State) (n : Nat) : State :=
  let c := s.chan n
  let gated := s.flag (F.PWM_STAT_GATED.at n)
  let drop := decide (c.per + 1 ≤ c.cmpa)
  s.modChan n (fun c =>
    { c with
      cmpaRun := if gated then c.cmpaRun
        else if c.ended = 1 ∨ (drop ∧ c.ended ≠ 2) then min 8 (c.cmpaRun + 1) else 0,
      dropRun := if drop ∧ !gated ∧ (c.hg ∨ c.burn) then c.dropRun + 1 else c.dropRun,
      tPrev := if c.rose then some (if c.hg then (c.cnt + 1 - c.hgOn).toNat else c.tOn) else c.tPrev })

/-- The gates at count 0 where the timing governs them: a forced 1 first, then a period gated off (R117), a burnish
period (R131), one without an HG pulse (R539), one entered with HG on, and the others (R119). `wait`: DTMIN. -/
def Chan.zeroGates (c : Chan) (gated bstLow : Bool) (wait : Nat) : Chan :=
  if c.fHg = 2 then
    { c.lgSet false with
      lgDue := false, lgOff := if c.lg then 0 else c.lgOff, lgFell := c.lg, entered := c.hg,
      hgOn := if c.hg then 0 else c.hgOn, hgDue := !c.hg && !bstLow,
      hgAt := (c.lgSet false).lgLow.map (· + (wait : Int)) }
  else if c.fLg = 2 then
    { c with
      hg := false, hgDue := false, hgAt := none, lgDue := !c.lg,
      hgOff := if c.hg then 0 else if c.lgDue then c.hgOff else 0 }
  else if gated then { c.lgSet false with hg := false, hgDue := false, lgDue := false, hgAt := none }
  else if c.burn ∨ c.cmpa = 0 ∨ c.fHg = 1 then
    { c.lgSet (c.lg && c.fLg != 1) with
      hg := false, hgDue := false, hgAt := none, hgOff := 0, lgDue := !c.lg && c.fLg != 1, lgOn := 0,
      lgOff := if c.lg && c.fLg == 1 then 0 else c.lgOff, lgFell := c.lg && c.fLg == 1 }
  else if c.hg then { c with entered := true, hgOn := 0, lgDue := false }
  else
    { c.lgSet false with
      lgFell := c.lg, lgOff := 0, lgDue := false, hgDue := !bstLow,
      hgAt := if (c.lgSet false).lgLow.isSome then some wait else none }

/-- Neither gate of the channel is forced. -/
def Chan.free (c : Chan) : Bool := c.fHg == 0 && c.fLg == 0

/-- The counter becomes 0. Where it goes from PER to 0, `edge`, an armed set loads, a change of UPD takes effect (R125)
and a force with FORCE_AT = 1 acts (R134). -/
def State.zeroLoad (s : State) (n : Nat) (edge : Bool) : State :=
  let up := (s.chan n).upd
  let s := if s.flag (F.PWM_STAT_PEND.at n) ∧ up ≠ 1 ∧ edge then s.shadowLoad n else s
  let s := s.modChan n (fun c =>
    { c.shift (c.cnt + 1) with
      upd := if edge then s.updOf n else up, cnt := 0, aHit := false, bHit := false, mHit := false, pHit := false })
  match (s.chan n).fNew with
  | some (h, l) =>
    if s.flag (F.PWM_FORCE_FORCE_AT.at n) ∧ edge then s.modChan n (fun c => { c with fHg := h, fLg := l, fNew := none })
    else s
  | none => s

/-- A restart that waits is made where it may be and no gate is forced: with a soft start and a burnish pulse (R135, R140,
R504). The spec does not say what a released gate does while a force on the other holds the restart back: it switches
under the timing, without soft start or burnish pulse (DESIGN CHOICE, log entry 60). -/
def State.zeroRestart (s : State) (n : Nat) : State :=
  if (s.chan n).restart ∧ s.mayRestart n ∧ (s.chan n).free then
    (s.softStart n).modChan n (fun c =>
      { c with
        restart := false, burnDue := true, tPrev := none, dropRun := 0,
        bk := 0, bf := 0, nk := 0, nf := 0, pk := 0, openA := false })
  else s

/-- The burst gate is sampled (R117): the DAC code of the period, GATED and DROPOUT. -/
def State.zeroGate (s : State) (n : Nat) : State :=
  let (c, open_) := ({ s.chan n with probe := false } : Chan).gate (s.fld (F.CUR_FLOOR_FLOOR.at n))
  let amp := if s.gateShut n then none else open_
  let thr := match amp with
    | none => 0
    | some a => if c.fin then s.thrFinal n a else s.thrOf n a
  let s := s.modChan n (fun _ => { c with kCount := c.kCount + 1, thr := thr, amp := amp.getD 0 })
  (s.setFlag (F.PWM_STAT_GATED.at n) amp.isNone).setFlag (F.PWM_STAT_DROPOUT.at n) (decide (c.per + 1 ≤ c.cmpa))

/-- The gates of the period that begins (R114, R117, R119, R131 to R135, R400). Where BRN_INT + 1 dropout periods have run
and a load at this boundary makes the period no dropout period, it is no burnish period (DESIGN CHOICE, log entry 60). -/
def State.zeroDrive (s : State) (n : Nat) (bstLow : Bool) : State :=
  let c := s.chan n
  let gated := s.flag (F.PWM_STAT_GATED.at n)
  let due := decide (c.per + 1 ≤ c.cmpa) && decide (s.fld (F.PWM_BRN_BRN_INT.at n) + 1 ≤ c.dropRun)
  let held := s.gatesOff n || s.chanSafe n
  let burn := !gated && !held && c.fHg == 0 && c.fLg != 2 && (c.burnDue || due || (c.bst && bstLow))
  let c : Chan := { c with
    burn := burn, burnDue := c.burnDue && !burn, bst := c.bst && bstLow, bstOn := bstLow, entered := false, rose := false,
    ended := 0, hurt := !c.free || held, armed := false, zcd := false, lgFell := false }
  let d := if held ∨ 1 ≤ s.pwr.loss then
      { c.lgSet (s.chanSafe n && s.flag (F.PWM_SAFE_LGS.at n)) with
        hg := false, hgDue := false, lgDue := false, hgAt := none, closed := decide (1 ≤ s.pwr.loss) }
    else c.zeroGates gated bstLow (s.fld (F.PWM_DT_DTMIN.at n))
  s.modChan n (fun _ => { d with dropRun := if burn ∨ (c.hg ∧ !d.hg) then 0 else d.dropRun })

/-- Count 0 of channel `n` (R112, R117, R125, R131 to R134, R140, R143). `bstLow`: the bootstrap comparator then;
`edge`: the count goes from PER to 0. -/
def State.zeroCore (s : State) (n : Nat) (bstLow edge : Bool) : State :=
  let s := (((s.periodEnd n).zeroLoad n edge).zeroRestart n).zeroGate n
  ((s.zeroDrive n bstLow).zeroEvent n).hltPeriodBegin n

/-- The conditions under which an enabled channel starts (R129, R138, R389, R394). -/
def State.mayStart (s : State) (n : Nat) : Bool :=
  s.bit R.PWM_ENA n && s.litRun && s.clk.good && s.lat n == 0 && s.flag F.PWR_STAT_VDRVG && !s.pwr.rstLow &&
    decide (s.pwr.loss < 2)

/-- A channel starts (R129): the counter starts at PWM_PHS modulo PER + 1 with a soft start (R169); ZERO fires where
that is 0 (R130). Forces in place act from the start (R134). -/
def State.chanStart (s : State) (n : Nat) : State :=
  let c0 := (s.reg (R.PWM_PHS + n)).toNat % ((s.chan n).per + 1)
  let s := s.modChan n (fun c =>
    ({ c with
      run := true, cnt := c0, hg := false, lg := false, hgDue := false, lgDue := false, hgAt := none, lgFell := false,
      lgLow := if c.lg then none else c.lgLow.map (fun _ => (c0 : Int)), closed := false,
      hgOff := c0, lgOff := c0, hgOn := 0, lgOn := 0, burnDue := true, burn := false, dropRun := 0,
      tPrev := none, kFirst := true, kCount := 0, frozen := s.holdActive && s.flag (F.PWM_CTL_HOLDM.at n),
      entered := false, rose := false, ended := 0, hurt := false, armed := false, zcd := false,
      bk := 0, bf := 0, nk := 0, nf := 0, pk := 0, openA := false, restart := s.lockedOff n } : Chan).passed c0)
  let s := s.softStart n
  if c0 = 0 then s.zeroCore n (s.chan n).bstOn false else s.forceAgain n

/-- An enabled channel that does not run starts where it may. -/
def State.tryStart (s : State) (n : Nat) : State := if !(s.chan n).run ∧ s.mayStart n then s.chanStart n else s

/-- Both gates of a channel fall and no turn-on is pending; `how` ends an HG that was on. -/
def Chan.drop (c : Chan) (how : Nat) (lgs : Bool) : Chan :=
  { c.lgSet lgs with
    hg := false, hgDue := false, lgDue := false, hgAt := none, ended := if c.hg then how else c.ended,
    tOn := if c.hg then (c.cnt - c.hgOn).toNat else c.tOn, dropRun := if c.hg then 0 else c.dropRun }

/-- A channel stops: both gates low (R129, R394). -/
def State.chanStop (s : State) (n : Nat) : State :=
  s.modChan n (fun c =>
    { c.lgSet false with
      run := false, hg := false, hgDue := false, lgDue := false, hgAt := none, frozen := false, burn := false })

/-- Every enabled channel starts together (R129, R394). -/
def State.startAll (s : State) : State := s.forChans (fun n t => if t.mayStart n then t.chanStart n else t)

/-- PWMCLK stops: every channel holds both gates low (R394, R400). -/
def State.stopAll (s : State) : State := s.forChans (fun n t => t.chanStop n)

/-- A write of PWM_ENA (R129, R169): channels whose bit rises start on one edge, with a soft start; channels whose bit
falls stop. -/
def State.enaWrite (s : State) (v : Word) : State :=
  let old := s.reg R.PWM_ENA
  let r := s.setReg R.PWM_ENA v
  r.forChans (fun n t =>
    if v.getLsbD n ∧ !old.getLsbD n then (t.softStart n).tryStart n
    else if !v.getLsbD n ∧ old.getLsbD n then t.chanStop n
    else t)

/-- PWM_MID_LOAD (R125, R126) where the period goes on: the armed set loads; a CMPA at or below the count ends HG on the
next edge (R114). The spec does not say what blanking does under a CMPB that the load moves (R116): comparators that were
armed stay armed, and a CMPB that the count has passed leaves them blanked to the boundary (DESIGN CHOICE, log entry 60). -/
def State.midLoad (s : State) (n : Nat) : State :=
  let m := (s.chan n).per / 2
  let s := s.modChan n (fun c => c.goto m)
  let s := s.shadowLoad n
  let s := s.modChan n (fun c => c.passed m)
  let c := s.chan n
  if c.hg ∧ c.fHg ≠ 2 ∧ c.cmpa ≤ m then s.modChan n (fun c => (c.hgEnd (m + 1) 1).goto (m + 1)) else s

/-- PWM_CMPA (R114, R115): the count steps onto CMPA, HG is commanded off, the event fires. -/
def State.cmpaHit (s : State) (n : Nat) : State :=
  let c := s.chan n
  if s.ticking n ∧ !c.aHit ∧ s.reach n c.cmpa then
    let s := s.modChan n (fun c => { c.goto c.cmpa with aHit := true })
    let s := if c.hg ∧ c.fHg ≠ 2 ∧ s.timed n then s.modChan n (fun c => c.hgEnd c.cmpa 1) else s
    s.chanEvent n F.PWM_EVCTL_CMPAE 0x30
  else s

/-- PWM_CMPB (R116): the count steps onto CMPB, blanking ends, the event fires. -/
def State.cmpbHit (s : State) (n : Nat) : State :=
  let c := s.chan n
  if s.ticking n ∧ !c.bHit ∧ s.reach n c.cmpb then
    let s := s.modChan n (fun c => { c.goto c.cmpb with bHit := true, armed := !c.burn })
    s.chanEvent n F.PWM_EVCTL_CMPBE 0x40
  else s

/-- The over-current and peak comparators of channel `n` are past blanking at count `t`: after CMPB, or in a burnish
period CMPB ticks after HG rose (R116, R131). -/
def Chan.unblanked (c : Chan) (t : Nat) : Bool := if c.burn then c.rose && decide (c.hgOn + c.cmpb ≤ t) else c.armed

/-- PEAK_COMPARATOR_END (R116, R151): the peak comparator ends HG at count `t`. -/
def State.peakEnd (s : State) (n t : Nat) : State :=
  let c := s.chan n
  if s.timed n ∧ s.reach n t ∧ c.hg ∧ c.fHg ≠ 2 ∧ !s.flag (F.PWM_CTL_MODE.at n) ∧ c.unblanked t ∧
      (c.burn ∨ c.cmpb < c.cmpa) then
    s.modChan n (fun c => (c.hgEnd t 2).goto t)
  else s

/-- SW_SENSED_LOW (R119): SW is sensed below 1.0 V and a pending LG turns on. -/
def State.swLow (s : State) (n t : Nat) : State :=
  let c := s.chan n
  if s.timed n ∧ s.reach n t ∧ c.lgDue ∧ !c.zcd then s.lgRise n t none else s

/-- LG, off, has been sensed below 1.0 V at count `t`: the DTMIN wait of a pending HG begins (R119). -/
def Chan.sense (c : Chan) (t wait : Nat) : Chan :=
  { c with lgLow := some (t : Int), hgAt := if c.hgDue then some ((t + wait : Nat) : Int) else c.hgAt }

/-- LG_SENSED_LOW (R119): LG is sensed below 1.0 V for the first time since it was commanded off; a counter that stands
still stays at its count. -/
def State.lgSensed (s : State) (n t : Nat) : State :=
  let c := s.chan n
  if c.lg ∨ c.lgLow.isSome then s
  else if !c.run ∨ (c.frozen ∧ !c.forced1) then s.modChan n (fun c => c.sense c.cnt (s.fld (F.PWM_DT_DTMIN.at n)))
  else if s.reach n t then s.modChan n (fun c => (c.goto t).sense t (s.fld (F.PWM_DT_DTMIN.at n)))
  else s

/-- HG_TURN_ON (R119, R121): the DTMIN wait has run at count `t`. -/
def State.hgTurnOn (s : State) (n t : Nat) : State :=
  let c := s.chan n
  match c.hgAt with
  | some a =>
    if s.timed n ∧ s.reach n t ∧ c.hgDue ∧ t = max c.cnt a.toNat then s.hgMeet n t none else s
  | none => s

/-- DTMAX_EXPIRY (R120): a pending turn-on has waited DTMAX ticks at count `t` and turns on regardless. -/
def State.dtMax (s : State) (n t : Nat) : State :=
  let c := s.chan n
  let m := s.fld (F.PWM_DT_DTMAX.at n)
  if !(s.timed n && s.reach n t) then s
  else if c.lgDue ∧ !c.zcd ∧ t = max c.cnt (c.hgOff + m).toNat then (s.lgRise n t (some m)).pwmStick n F.PWM_STAT_DTCAP
  else if c.hgDue ∧ t = max c.cnt (c.lgOff + m).toNat then (s.hgMeet n t (some m)).pwmStick n F.PWM_STAT_DTCAP
  else s

/-- ZERO_CURRENT_DETECT (R118): LG is commanded off until the next period. -/
def State.zeroCurrent (s : State) (n t : Nat) : State :=
  let c := s.chan n
  if s.timed n ∧ s.reach n t ∧ s.flag (F.PWM_CTL_ZCD.at n) ∧ c.lg ∧ !(c.burn && !c.rose) ∧ c.fLg ≠ 2 then
    s.modChan n (fun c =>
      { (c.goto t).lgSet false with lgDue := false, zcd := true, td := (t - c.hgOff).toNat, lgOff := t })
  else s

/-- BURNISH_END (R131, R133): the burnish pulse has lasted BRN_W ticks; LG is commanded off and HG follows, unless the
bootstrap comparator is still active then. -/
def State.burnEnd (s : State) (n : Nat) (bstLow : Bool) : State :=
  let c := s.chan n
  let t := max c.cnt (c.lgOn + s.fld (F.PWM_BRN_BRN_W.at n)).toNat
  if s.timed n ∧ s.reach n t ∧ c.burn ∧ c.lg ∧ !c.rose ∧ c.fLg ≠ 2 then
    s.modChan n (fun c =>
      { (c.goto t).lgSet false with
        lgOff := t, lgFell := true, bstOn := bstLow, hgAt := none,
        hgDue := c.cmpa != 0 && c.fHg != 1 && !bstLow })
  else s

/-- BOOTSTRAP_UVLO (R133): the comparator becomes active: HG does not turn on. -/
def State.bstUvlo (s : State) (n : Nat) : State :=
  let s := s.modChan n (fun c => { c with bst := true, bstOn := true, hgDue := false, hgAt := none })
  (s.pwmStick n F.PWM_STAT_BSTLOW).post 3 7 n

/-! Writes of a force (R134, R136). -/

/-- A write of PWM_FORCE of channel `n`. -/
def State.forceWrite (s : State) (n : Nat) (v : Word) : State :=
  let h := getBits v 3 2
  let l := getBits v 1 0
  if h = 3 ∨ l = 3 ∨ (h = 2 ∧ l = 2) then (s.pwmStick n F.PWM_STAT_FERR).post 3 4 n
  else (s.setReg (cell R.PWM_FORCE n) (v &&& 0x1F)).modChan n (fun c => { c with fNew := some (h, l) })

/-- An armed force takes effect: with FORCE_AT = 1 a running channel takes it at its boundary. -/
def State.forceEffect (s : State) (n : Nat) : State :=
  match (s.chan n).fNew with
  | none => s
  | some (h, l) =>
    if s.flag (F.PWM_FORCE_FORCE_AT.at n) ∧ (s.chan n).run then s
    else (s.forceTake n h l).modChan n (fun c => { c with fNew := none })

/-! Trips (R137 to R141, R171 to R174). -/

/-- A trip is counted (R141): PWM_STORM.CNT, HC40, and NMI STORM past the limit once per bench. -/
def State.countTrip (s : State) : State :=
  let r := (s.satInc F.PWM_STORM_CNT).hatInc 40 1
  let lim := r.fld F.PWM_STORM_TRIP_STORM
  let r := r.pulse 0x74
  if lim ≠ 0 ∧ lim < r.fld F.PWM_STORM_CNT ∧ !r.pwm.stormed then
    ((r.nmi F.NMI_STAT_STORM).post 3 3 (r.fld F.PWM_STORM_CNT)).modPwm (fun q => { q with stormed := true })
  else r

/-- The trip count restarts (R141). -/
def State.stormRestart (s : State) : State :=
  (s.setFld F.PWM_STORM_CNT 0).modPwm (fun q => { q with stormed := false })

/-- The latch bit of channel `n` sets and the channel goes to its safe levels without a clock (R138, R139). -/
def State.latchBit (s : State) (n b : Nat) : State :=
  let r := s.setBit (cell R.PWM_TRIPLAT n) b true
  let r := r.setFlag (F.PWM_STAT_TRIPPED.at n) true
  let r := r.setBit R.PWM_TRIPSUM n true
  r.modChan n (fun c => { c.drop 3 (s.flag (F.PWM_SAFE_LGS.at n)) with restart := false, hurt := true })

/-- A sticky CUR_CSTAT bit of channel `n` (R177). -/
def State.curStick (s : State) (n : Nat) (f : Fld) : State := s.stick (cell R.CUR_CSTAT n) R.CUR_IRQEN irqCur f.mask

/-- Channel `n` is locked off after its retries (R174). -/
def State.lockOff (s : State) (n : Nat) : State :=
  (((s.setFlag (F.CUR_CSTAT_LOCKL.at n) true).setFlag (F.CUR_CSTAT_WAITL.at n) false).curStick n F.CUR_CSTAT_LOCKED).post
    3 0x43 n

/-- Channel `n` is marked OPEN and locked off (R171, R172). -/
def State.openMark (s : State) (n : Nat) : State :=
  (((s.setFlag (F.CUR_CSTAT_OPENL.at n) true).setFlag (F.CUR_CSTAT_WAITL.at n) false).curStick n F.CUR_CSTAT_OPEN).post
    3 0x40 n

/-- The retry policy at a latch of an own source (R173, R174). -/
def State.retryArm (s : State) (n : Nat) : State :=
  if s.lockedOff n ∨ s.flag (F.CUR_CSTAT_WAITL.at n) then s
  else if s.fld F.CUR_CTL_RMAX ≤ s.fld (F.CUR_CSTAT_RCNT.at n) then s.lockOff n
  else s.setFlag (F.CUR_CSTAT_WAITL.at n) true

/-- The bits of a latch that are the channel's own: OC, OV and the TRIP pins. -/
def ownBits : Word := 0x003F

/-- A source of channel `n`'s own latches bit `b` (R138, R145, R146, R171, R173). -/
def State.ownTrip (s : State) (n b : Nat) : State :=
  if (s.lat n).getLsbD b then s
  else
    let empty := s.lat n == 0
    let isOpen := b == 1 && decide (8 ≤ (s.chan n).cmpaRun)
    let r := s.latchBit n b
    let r := if empty then
        let r := (r.post 3 1 (n * 4096 + (r.lat n).toNat % 1024)).countTrip
        if r.flag F.PWM_IRQEN_TRIP then r.irq irqPwmTrip else r
      else r
    if isOpen then r.openMark n else r.retryArm n

/-- A global source acts on all channels (R137, R145): it counts as one trip and posts one event 0x006. -/
def State.globalTrip (s : State) (b : Nat) : State :=
  if (List.range 16).all (fun n => (s.lat n).getLsbD b) then s
  else
    let fresh := (List.range 16).any (fun n => s.lat n == 0)
    let r := s.forChans (fun n t => if (t.lat n).getLsbD b then t else t.latchBit n b)
    if fresh then
      let sum : Word := (List.range 16).foldl (fun m n => m ||| r.lat n) 0
      let r := (r.post 3 6 (sum &&& 0x03C0).toNat).countTrip
      if r.flag F.PWM_IRQEN_TRIP then r.irq irqPwmTrip else r
    else r

/-- The latch of channel `n` is emptied: its forces act again (R136), a running channel restarts at the next boundary
(R140), one that waited for its latch starts, at once or with the node's entry to LIT-RUN (R14, R138, R169). -/
def State.latchClear (s : State) (n : Nat) : State :=
  let r := s.setReg (cell R.PWM_TRIPLAT n) 0
  let r := r.setFlag (F.PWM_STAT_TRIPPED.at n) false
  let r := r.setBit R.PWM_TRIPSUM n false
  let r := r.setFlag (F.CUR_CSTAT_WAITL.at n) false
  let r := r.modChan n (fun c => { c with restart := true })
  if (r.chan n).run then r.forceAgain n else r.tryStart n

/-- The latched sources of channel `n` that are still active (R140): the over-current comparators `oc`, the string
over-voltage comparators `ov` and the filtered pins at their active levels, and the live global conditions. A link source
whose PWM_GTRIP enable has been cleared since it latched is still active while its level is (DESIGN CHOICE, log entry
60). -/
def State.activeBits (s : State) (n : Nat) (oc ov : Word) (pins : BitVec 4) : Word :=
  let b (x : Bool) (k : Nat) : Word := if x then BitVec.ofNat 16 (2 ^ k) else 0
  s.lat n &&& (b (oc.getLsbD n) 0 ||| b (ov.getLsbD n) 1 ||| (pins.setWidth 16 <<< 2) |||
    b (s.flag F.PWR_STAT_LINKUVL) 6 ||| b (s.flag F.PWR_STAT_LINKOVL) 7 ||| b s.pwm.otLive 8 ||| b (!s.clk.good) 9)

/-- A clear of channel `n` under R140: made, or refused with CLRREF and event 0x002. -/
def State.tryClear (s : State) (n : Nat) (oc ov : Word) (pins : BitVec 4) : State × Bool :=
  let a := s.activeBits n oc ov pins
  if a = 0 then (s.latchClear n, true)
  else ((s.pwmStick n F.PWM_STAT_CLRREF).post 3 2 (n * 4096 + a.toNat), false)

/-- A write of PWM_TRIPCLR to channel `n`. -/
def State.tripClr (s : State) (n : Nat) (oc ov : Word) (pins : BitVec 4) : State :=
  if s.lat n = 0 then s else (s.tryClear n oc ov pins).1

/-- GLOBAL_TRIP_AUTO_CLEAR (R140): the source that has been inactive longest has been so for 1 ms; latches that hold only
sources of which that is true clear. -/
def State.autoClear (s : State) : State :=
  let s := s.modPwm (fun q => { q with quiet := q.quiet ++ q.waiting.take 1, waiting := q.waiting.drop 1 })
  if s.flag F.PWM_GTRIP_AUTO then
    let inact : Word := s.pwm.quiet.foldl (fun m b => m ||| BitVec.ofNat 16 (2 ^ b)) 0
    s.forChans (fun n t =>
      let l := t.lat n
      if l ≠ 0 ∧ l &&& ~~~ (inact &&& 0x01C0) = 0 ∧ s.activeBits n 0 0 0 = 0 then t.latchClear n else t)
  else s

/-- The clock-loss bit clears itself once the clock is good (R371): channels with nothing else latched restart. -/
def State.clockClear (s : State) : State :=
  s.forChans (fun n t =>
    if (t.lat n).getLsbD 9 then
      if t.lat n = 0x0200 then t.latchClear n else t.setBit (cell R.PWM_TRIPLAT n) 9 false
    else t)

/-! Hold (R142). -/

/-- Channel `n` freezes. -/
def State.chanFreeze (s : State) (n : Nat) : State :=
  if (s.chan n).run then s.modChan n (fun c => { c with frozen := true }) else s

/-- Channel `n` goes on: the counter resumes, and a channel made safe restarts at the next boundary, or as it runs. -/
def State.chanResume (s : State) (n : Nat) : State :=
  let r := s.modChan n (fun c => { c with frozen := false })
  if r.flag (F.PWM_STAT_HOLDSAFE.at n) then
    (r.setFlag (F.PWM_STAT_HOLDSAFE.at n) false).modChan n (fun c => { c with restart := true })
  else r

/-- Hold begins for the channels: those with HOLDM = FREEZE stop. -/
def State.pwmHold (s : State) : State :=
  s.forChans (fun n t => if t.flag (F.PWM_CTL_HOLDM.at n) then t.chanFreeze n else t)

/-- Hold ends for the channels. -/
def State.pwmResume (s : State) : State := s.forChans (fun n t => t.chanResume n)

/-- PWM_HOLD_TIMEOUT (R142): a frozen channel goes to its safe levels. -/
def State.holdTimeout (s : State) (n : Nat) : State :=
  if (s.chan n).frozen ∧ !s.flag (F.PWM_STAT_HOLDSAFE.at n) then
    let r := s.setFlag (F.PWM_STAT_HOLDSAFE.at n) true
    let r := r.modChan n (fun c => { c.drop 5 (s.flag (F.PWM_SAFE_LGS.at n)) with hurt := true })
    r.post 3 5 n
  else s

/-! SYNCI (R144). -/

/-- A SYNCI edge loads the count `t`, not 0, into the counter of channel `n`: HG does not rise before the next count 0
(R130), and a CMPA at or below the count ends it (R114). -/
def Chan.syncLoad (c : Chan) (t : Nat) : Chan :=
  let c := ({ c.shift (c.cnt + 1 - t) with cnt := t, hgDue := c.hgDue && c.fHg == 2, burn := false } : Chan).passed t
  if c.hg ∧ c.fHg ≠ 2 ∧ c.cmpa ≤ t then c.hgEnd t 1 else c

end Sys2Proof.Machine
end

