-- ==== Sys2Proof/Machine/Cur.lean ====
section
/-! DEFINITION. Current regulation and dimming (R148 to R178): the trim, the realiser's split of DRIVE into amplitude,
burst and stipple, the dimming period and its phase, soft starts, retries and lock-off. -/

namespace Sys2Proof.Machine

/-! The realiser (R158 to R165). -/

/-- The four bits of a stipple index reversed (R162). -/
def bitrev4 (m : Nat) : Nat := m / 8 % 2 + 2 * (m / 4 % 2) + 4 * (m / 2 % 2) + 8 * (m % 2)

/-- The stipple bit of index `m` for a count `s` (R162). -/
def stippleBit (m s : Nat) : Nat := if bitrev4 (m % 16) < s then 1 else 0

/-- The soft-start ceiling after `el` SYSCLK cycles of `t` ms (R169). -/
def ssCeiling (el t : Nat) : Nat := min 0xFFFFF (0xFFFFF * el / (61440 * (if t = 0 then 1 else t)))

/-- K_prev of the first dimming period (R161). -/
def kFormula (dper per : Nat) : Nat := 4 * dper / (per + 1)

/-- What the realiser gives a channel for one dimming period: region B, base amplitude or floor, stipple count, whole
cycles, final amplitude, and whether the gate is open throughout. -/
structure Split where
  regB : Bool := false
  amp  : Nat := 0
  base : Nat := 0
  s    : Nat := 0
  k    : Nat := 0
  af   : Nat := 0
  openA : Bool := false
deriving DecidableEq, Repr, Inhabited

/-- The split of an effective DRIVE `d` (R158 to R163), with CUR_FLOOR `floor`, K_prev `kp` and stipple index `m`. -/
def splitDrive (d floor kp m : Nat) : Split :=
  if d = 0 then {}
  else if floor * 256 ≤ d then
    let a := d / 256
    let s := d / 16 % 16
    { amp := min 4095 (a + stippleBit m s), base := a, s := s, openA := true }
  else
    let u := d * kp / 16
    let f := if floor = 0 then 1 else floor
    let k := u / (16 * f)
    let rem := u - 16 * k * f
    let s := rem % 16
    { regB := true, amp := floor, base := floor, s := s, k := k, af := rem / 16 + stippleBit m s }

/-- The slots that a lamp kind uses (R48, *Lamp kinds and channel mapping*). -/
def kindSlots (kind : Nat) : Nat := if 1 ≤ kind ∧ kind ≤ 4 then kind else 0

/-- The channels of the first `n` slots of an LMP_MAP word. -/
def mapChans (m : Word) (n : Nat) : List Nat := (List.range n).map (fun i => getBits m (4 * i + 3) (4 * i))

/-- The channels of a lamp by the mapping in use (R48). -/
def State.lampChans (s : State) (l : Nat) : List Nat :=
  mapChans (s.reg (R.LMP_MAP + l)) (kindSlots (s.fld (F.LMP_CFG_KIND.at l)))

/-- The lamp group of a channel: the lamp whose mapping in use holds it, or 8 for none (R167). -/
def State.groupOf (s : State) (n : Nat) : Nat := ((List.range 8).find? (fun l => (s.lampChans l).contains n)).getD 8

/-- The DRIVE that the realiser takes for channel `n` (R158): CUR_MDRV in manual mode, else the solver's. -/
def State.takenDrive (s : State) (n : Nat) : Nat :=
  if s.flag (F.CUR_CCFG_MAN.at n) then s.pair (R.CUR_MDRV_LO + n) % 2 ^ 20 else s.pwm.drive.getD n 0

/-- The soft-start ceiling of channel `n` at a period start; at 0xFFFFF the soft start ends (R169). -/
def State.ceiling (s : State) (n : Nat) : Nat :=
  if s.flag (F.CUR_CSTAT_SSL.at n) then ssCeiling (s.cyc - (s.chan n).ssAt) (s.fld F.CUR_SS_T) else 0xFFFFF

/-- The results of a split shown and given to the burst gate (R160 to R164). -/
def State.realise (s : State) (n d : Nat) (x : Split) (kp : Nat) : State :=
  let r := s.setPair (cell R.CUR_DRIVE_LO n) d
  let r := r.setReg (cell R.CUR_AMP n) (BitVec.ofNat 16 ((if x.regB then 32768 else 0) + x.base % 4096))
  let r := r.setReg (cell R.CUR_BURST n) (BitVec.ofNat 16 (x.s * 4096 + x.k % 1024))
  let r := r.setReg (cell R.CUR_FINAL n) (BitVec.ofNat 16 x.af)
  let r := r.setReg (cell R.CUR_KP n) (BitVec.ofNat 16 (kp % 1024))
  r.modChan n (fun c =>
    { c with
      openA := x.openA, ampA := x.amp, kFirst := false, kCount := 0,
      nk := if x.regB then x.k else 0, nf := if x.regB then x.af else 0,
      bk := if d = 0 then 0 else c.bk, bf := if d = 0 then 0 else c.bf })

/-- The dimming-period start of channel `n` with stipple index `m` (R158 to R163); `force`: the DRIVE that a proof
slot sets in place of the channel's own (R192). -/
def State.dimChannel (s : State) (n m : Nat) (force : Option Nat) : State :=
  let c := s.chan n
  let kp := if c.kFirst then kFormula (s.fld F.CUR_DPER_DPER) c.per else c.kCount
  let ceil := s.ceiling n
  let d := match force with
    | some x => x
    | none => min (s.takenDrive n) ceil
  let r := if ceil = 0xFFFFF then s.setFlag (F.CUR_CSTAT_SSL.at n) false else s
  r.realise n d (splitDrive d (s.fld (F.CUR_FLOOR_FLOOR.at n)) kp m) kp

/-! The phase source (R167, R168). -/

/-- SYNCI edges are recent: one within the last 2 (SDIV + 1) dimming periods (R167). -/
def State.synciRecent (s : State) : Bool :=
  match s.pwm.synciAt with
  | none => false
  | some t => decide (s.cyc - t ≤ 2 * (s.fld F.CUR_PHASE_SDIV + 1) * s.fld F.CUR_DPER_DPER)

/-- The source of R167 that is available: 1 TIM_PHREF, 2 SYNCI, 0 free-running. -/
def State.phaseAvail (s : State) : Nat :=
  if s.flag F.CUR_PHASE_LOCK ∧ (s.timSt = timLocked ∨ s.timSt = timHoldover) then 1
  else if s.flag F.CUR_PHASE_SYNCF ∧ s.synciRecent then 2
  else 0

/-- The phase source changes where another is available (R168, R176, R177). -/
def State.phaseUpdate (s : State) : State :=
  let a := s.phaseAvail
  if a = s.fld F.CUR_STAT_PHSRC then s
  else
    let r := s.setFld F.CUR_STAT_PHSRC a
    let fresh := !r.flag F.CUR_STAT_PHCH
    let r := r.setFlag F.CUR_STAT_PHCH true
    let r := if fresh ∧ r.flag F.CUR_IRQEN_PHCH then r.irq irqCur else r
    (r.modPwm (fun q =>
      { q with synciN := 0, dimDue := List.replicate 9 none, dimNew := List.replicate 9 true })).post 3 0x46 a

/-- CUR_LOFS of lamp `g` modulo CUR_DPER; 0 for the channels of no lamp (R167). -/
def State.dimOffset (s : State) (g : Nat) : Nat :=
  if g < 8 then (s.reg (R.CUR_LOFS0 + 64 * g)).toNat % max 1 (s.fld F.CUR_DPER_DPER) else 0

/-- An external source marks a start: each lamp's follows after its offset (R167). -/
def State.dimMark (s : State) : State :=
  s.modPwm (fun q => { q with dimDue := (List.range 9).map (fun g => some (s.cyc + s.dimOffset g)) })

/-- A TIM_PHREF pulse as a source of period starts (R167). -/
def State.phrefMark (s : State) : State :=
  let r := s.phaseUpdate
  if r.fld F.CUR_STAT_PHSRC = 1 then r.dimMark else r

/-- A SYNCI edge as a source of period starts (R167): every (SDIV + 1)-th, counted from the first after the edge that takes
the source up. -/
def State.synciMark (s : State) : State :=
  let r := (s.modPwm (fun q => { q with synciAt := some s.cyc })).phaseUpdate
  if r.fld F.CUR_STAT_PHSRC = 2 ∧ s.fld F.CUR_STAT_PHSRC = 2 then
    let r := r.modPwm (fun q => { q with synciN := q.synciN + 1 })
    if r.pwm.synciN % (r.fld F.CUR_PHASE_SDIV + 1) = 0 then r.dimMark else r
  else r

/-- A start of lamp `g`'s dimming period is due from the source in use (R166, R167): a free-running period starts once
the one before has had its length, or where none has been. -/
def State.dimDueNow (s : State) (g : Nat) : Bool :=
  if s.fld F.CUR_STAT_PHSRC = 0 then
    match s.pwm.dimAt.getD g none with
    | some a => decide (a + s.pwm.dimLen.getD g 0 ≤ s.cyc)
    | none => true
  else match s.pwm.dimDue.getD g none with
    | some d => decide (d ≤ s.cyc)
    | none => false

/-- A start of a source that is new is passed over within CUR_DPER / 2 cycles of the period's beginning (R168). -/
def State.dimPass (s : State) (g : Nat) : Bool :=
  s.pwm.dimNew.getD g false && s.fld F.CUR_STAT_PHSRC != 0 && (match s.pwm.dimAt.getD g none with
    | some a => decide (2 * (s.cyc - a) < s.fld F.CUR_DPER_DPER)
    | none => false)

/-- CUR_DPER is written (R161, R166): the next K_prev of each channel comes from its formula. -/
def State.dperMoved (s : State) (old : Word) : State :=
  if s.reg R.CUR_DPER = old then s else s.forChans (fun n t => t.modChan n (fun c => { c with kFirst := true }))

/-! The trim (R155, R156). -/

/-- The trim update of channel `n` on a sample (R155): `avg`: the period average in 1/256 codes of 15.625 uV, `a`: the
commanded amplitude; `skip`: the period is one that R156 ignores. E is kept in sixteenths of a code. Event 0x045 is posted
where the clamp takes TLIM from 0 to 1; the spec does not say whether it repeats (DESIGN CHOICE, log entry 60). -/
def State.trimUpdate (s : State) (n : Nat) (avg : Int) (a : Nat) (skip : Bool) : State :=
  if skip then s
  else
    let vr : Int := s.fld (F.CUR_VR_VR.at n)
    let ki := s.fld (F.CUR_CCFG_KI.at n)
    -- A * VR - m * VR, with m * VR = 4095 V_avg, in units of 1 / 25600 of 0.1 mV: 15.625 uV is 5/32 of 0.1 mV
    let d := divRound (16 * (256 * 32 * (a : Int) * vr - 4095 * 5 * avg)) (256 * 32 * 1000 * (2 ^ ki : Nat))
    let lim : Int := 16 * s.fld (F.CUR_TRIMLIM_LIM.at n)
    let e := s.trimE n + d
    let e' := clampInt (-lim) lim e
    let r := s.setReg (cell R.CUR_TRIMV n) (BitVec.ofNat 16 (satCode 16 e'))
    if e' = e then r
    else
      let was := r.flag (F.CUR_CSTAT_TLIM.at n)
      let r := r.curStick n F.CUR_CSTAT_TLIM
      if was then r else r.post 3 0x45 n

/-! Retries and the lock clear (R173 to R175). -/

/-- RETRY_DUE (R173): the wait of the next retry has run; past CUR_CTL.RMAX there is none. -/
def State.retry (s : State) (n : Nat) (oc ov : Bool) (pins : BitVec 4) : State :=
  let k := s.fld (F.CUR_CSTAT_RCNT.at n) + 1
  let own := s.lat n &&& ownBits
  if !s.flag (F.CUR_CSTAT_WAITL.at n) ∨ own = 0 ∨ s.lockedOff n then s
  else if s.fld F.CUR_CTL_RMAX < k then s.setFlag (F.CUR_CSTAT_WAITL.at n) false
  else
    let w (b : Bool) : Word := if b then 0xFFFF else 0
    let r := s.setFld (F.CUR_CSTAT_RCNT.at n) k
    let (r, ok) := r.tryClear n (w oc) (w ov) pins
    if ok then (r.curStick n F.CUR_CSTAT_RETRY).post 3 0x41 (n * 4096 + k)
    else
      let r := (r.curStick n F.CUR_CSTAT_RREF).post 3 0x42 (n * 4096 + k)
      r.setFlag (F.CUR_CSTAT_WAITL.at n) (decide (k < s.fld F.CUR_CTL_RMAX))

/-- RETRY_COUNT_RESET (R174): 60 s of running with an empty latch. -/
def State.retryReset (s : State) (n : Nat) : State :=
  if s.lat n = 0 ∧ (s.chan n).run then s.setFld (F.CUR_CSTAT_RCNT.at n) 0 else s

/-- A write of 1 to CUR_LOCKCLR of channel `n` (R175). -/
def State.lockClr (s : State) (n : Nat) (oc ov : Word) (pins : BitVec 4) : State :=
  let (r, ok) := if s.lat n = 0 then (s, true) else s.tryClear n oc ov pins
  if ok then
    let was := s.lockedOff n
    let r := (r.setFlag (F.CUR_CSTAT_OPENL.at n) false).setFlag (F.CUR_CSTAT_LOCKL.at n) false
    let r := r.setFld (F.CUR_CSTAT_RCNT.at n) 0
    let r := r.setReg (cell R.CUR_TRIMV n) 0
    if was then
      (r.modChan n (fun c => { c with restart := c.run || c.restart, tPrev := none })).post 3 0x44 n
    else r
  else r

end Sys2Proof.Machine
end

