-- ==== Sys2Proof/Machine/Lmp.lean ====
section
/-! DEFINITION. Lamps and the colour solver (R48 to R73): mapping and table checks, the solve of one lamp, and the
DRIVE values of a tick. -/

namespace Sys2Proof.Machine

/-! Tables (R51, R52, R536). -/

/-- Entry j of the default brightness law: round(0xFFFFFF j / 256). -/
def lawDefault (j : Nat) : Nat := (0xFFFFFF * j * 2 + 256) / 512

/-- The defaults of R536, by word address. -/
def lmpDefault (a : Nat) : Word :=
  if a < 0x100 then
    match a % 16 with
    | 0 => 0x3000
    | 1 => 0x7800
    | 6 => 0x8000
    | 7 => 0x8000
    | 8 => 0x8000
    | 9 => 0x8000
    | 10 => 0x8000
    | 11 => 0x8000
    | 12 => 0x8000
    | 13 => 0x8000
    | _ => 0
  else if a < 0x302 then
    BitVec.ofNat 16 (if a % 2 = 0 then lawDefault ((a - 0x100) / 2) else lawDefault ((a - 0x100) / 2) / 65536)
  else 0

/-- The words of the LMP table (R51). -/
def lmpWords : Nat := 0x302

/-- A table word. -/
def lmpAt (t : List (Nat × Word)) (a : Nat) : Word := spGet lmpDefault t a

/-- Entry j of the law. -/
def lawAt (t : List (Nat × Word)) (j : Nat) : Nat :=
  (lmpAt t (0x100 + 2 * j)).toNat + 65536 * ((lmpAt t (0x101 + 2 * j)).toNat % 256)

/-- A point of the u'v' diagram. -/
structure UV where
  u : Rat := 0
  v : Rat := 0
deriving DecidableEq, Repr, Inhabited

/-- An emitter at a temperature (R66). -/
structure Emitter where
  p    : UV := {}
  flux : Rat := 0
deriving DecidableEq, Repr, Inhabited

def rat (n : Nat) : Rat := (n : Rat)

/-- Emitter n of a table, `dt` kelvin above 25 degC (R66). -/
def emitterAt (t : List (Nat × Word)) (n : Nat) (dt : Rat) : Emitter :=
  let w (i : Nat) : Nat := (lmpAt t (16 * n + i)).toNat
  let sg (i : Nat) : Rat := ((signed 16 (w i) : Int) : Rat)
  { p := { u := rat (w 0) / 65536 + sg 4 * dt / 16777216, v := rat (w 1) / 65536 + sg 5 * dt / 16777216 },
    flux := rat (w 2) * (1 + sg 3 * dt / 100000) }

/-! Geometry (R48, R61 to R65). -/

/-- The signed double area of a triangle. -/
def area2 (a b c : UV) : Rat := (b.u - a.u) * (c.v - a.v) - (c.u - a.u) * (b.v - a.v)

/-- The barycentric weights of `p` in a triangle (R63). -/
def bary (a b c p : UV) : List Rat :=
  let d := area2 a b c
  let b1 := area2 p b c / d
  let b2 := area2 a p c / d
  [b1, b2, 1 - b1 - b2]

/-- The weighted mean of three points. -/
def mixUV (w : List Rat) (ps : List UV) : UV :=
  { u := (List.zipWith (fun x p => x * p.u) w ps).sum, v := (List.zipWith (fun x p => x * p.v) w ps).sum }

def ratMin (a b : Rat) : Rat := if a ≤ b then a else b
def ratMax (a b : Rat) : Rat := if a ≤ b then b else a

/-- The white point of a lamp (R59) with its emitters; `wu`, `wv`: LMP_WU and LMP_WV. -/
def whitePoint (kind wu wv : Nat) (es : List Emitter) : UV :=
  let p (i : Nat) : UV := (nthOf es i).p
  if kind = 2 then { u := ((p 0).u + (p 1).u) / 2, v := ((p 0).v + (p 1).v) / 2 }
  else if kind = 3 then
    if wu = 0 ∧ wv = 0 then mixUV [1 / 3, 1 / 3, 1 / 3] [p 0, p 1, p 2] else { u := rat wu / 65536, v := rat wv / 65536 }
  else if kind = 4 then p 3
  else p 0

/-! The check of R48. -/

/-- The conditions of R48 on a mapping with a table: `chs` the channels of the used slots, `taken` those of other lamps
whose KIND is not OFF. -/
def mapOk (t : List (Nat × Word)) (kind ntc : Nat) (chs taken : List Nat) (wu wv : Nat) : Bool :=
  let es := chs.map (fun n => emitterAt t n 0)
  let p (i : Nat) : UV := (nthOf es i).p
  let inside (q : UV) : Bool := (bary (p 0) (p 1) (p 2) q).all (fun x => decide (1 / 100 ≤ x))
  decide (kind ≤ 4) && (decide (ntc ≤ 4) || decide (ntc = 7)) && decide chs.Nodup &&
    chs.all (fun n => !taken.contains n) && es.all (fun e => decide (0 < e.flux)) &&
    (decide (kind ≠ 2) ||
      decide (25 / 1000000 ≤ ((p 1).u - (p 0).u) * ((p 1).u - (p 0).u) + ((p 1).v - (p 0).v) * ((p 1).v - (p 0).v))) &&
    (decide (kind ≠ 3) ||
      (decide (2 / 10000 ≤ ratMax (area2 (p 0) (p 1) (p 2)) (-(area2 (p 0) (p 1) (p 2)))) &&
        (decide (wu = 0 ∧ wv = 0) || inside { u := rat wu / 65536, v := rat wv / 65536 }))) &&
    (decide (kind ≠ 4) || (decide (area2 (p 0) (p 1) (p 2) ≠ 0) && inside (p 3)))

/-- The channels that lamps other than `l` use. -/
def State.takenChans (s : State) (l : Nat) : List Nat :=
  (List.range 8).flatMap (fun k => if k = l then [] else s.lampChans k)

/-- The used channels of a lamp under a configuration and mapping word pass R48 with a table. -/
def State.lampOk (s : State) (t : List (Nat × Word)) (l : Nat) (cfg map : Word) : Bool :=
  let kind := getBits cfg 2 0
  mapOk t kind (getBits cfg 10 8) (mapChans map (kindSlots kind)) (s.takenChans l)
    (s.reg (R.LMP_WU + l)).toNat (s.reg (R.LMP_WV + l)).toNat

/-- A sticky LMP_LSTAT bit of lamp `l` (R540), with the event of R72 where it goes from 0 to 1. -/
def State.lampStick (s : State) (l : Nat) (f : Fld) (ev : Option (Nat × Nat)) : State :=
  let was := s.flag (f.at l)
  let r := s.stick (cell R.LMP_LSTAT l) R.LMP_IRQEN irqLmp f.mask
  match was, ev with
  | false, some (e, d) => r.post 9 e d
  | _, _ => r

/-- The lamp solver's state, changed. -/
def State.modLmp (s : State) (f : LmpState → LmpState) : State := { s with lmp := f s.lmp }

/-- A write of LMP_MAP is staged (R48). -/
def State.lmpMapWrite (s : State) (l : Nat) (v : Word) : State :=
  s.modLmp (fun m => { m with smap := m.smap.set l (some v) })

/-- A write of LMP_CFG takes the staged LMP_MAP with it to the next tick (R48): the one staged since, or the one that an
earlier LMP_CFG write of the same tick took. -/
def State.lmpCfgWrite (s : State) (l : Nat) (v : Word) : State :=
  s.modLmp (fun m =>
    let map := (m.smap.getD l none).or ((m.scfg.getD l none).bind Prod.snd)
    { m with scfg := m.scfg.set l (some (v &&& 0x0737, map)), smap := m.smap.set l none })

/-- The check of a submitted mapping of lamp `l` (R48): applied, or refused with MAPERR. -/
def State.mapCheck (s : State) (l : Nat) : State :=
  match s.lmp.scfg.getD l none with
  | none => s
  | some (cfg, staged) =>
    let map := staged.getD (s.reg (R.LMP_MAP + l))
    let r := s.modLmp (fun m => { m with scfg := m.scfg.set l none })
    if s.lampOk s.lmp.active l cfg map then (r.setReg (cell R.LMP_CFG l) cfg).setReg (cell R.LMP_MAP l) map
    else r.lampStick l F.LMP_LSTAT_MAPERR (some (0x40, l))

/-! The table port commands (R53 to R56). -/

/-- The check codes that word `a` of an edit copy fails, lowest first (R54). -/
def lmpWordFail (t : List (Nat × Word)) (a : Nat) : Option Nat :=
  let w := (lmpAt t a).toNat
  if a < 0x100 then
    match a % 16 with
    | 0 => if 0xA000 ≤ w then some 1 else none
    | 1 => if w < 0x0CCD ∨ 0xA000 ≤ w then some 1 else none
    | 14 => if w ≠ 0 then some 7 else none
    | 15 => if w ≠ 0 then some 7 else none
    | i =>
      if 6 ≤ i then
        if w < 0x2000 then some 2
        else if 7 ≤ i ∧ 2 * w ≤ (lmpAt t (a - 1)).toNat then some 3
        else if i = 13 ∧ w ≠ 0x8000 then some 4
        else none
      else none
  else if a % 2 = 0 then
    let j := (a - 0x100) / 2
    if 1 ≤ j ∧ lawAt t j < lawAt t (j - 1) then some 5
    else if (j = 0 ∧ lawAt t j ≠ 0) ∨ (j = 256 ∧ lawAt t j ≠ 0xFFFFFF) then some 6
    else none
  else if 256 ≤ w then some 7
  else none

/-- The first failure of an edit copy: code and address (R54). Code 0x8 where no used record differs from the active copy
has address 0 (DESIGN CHOICE, log entry 59). -/
def State.lmpFail (s : State) (t : List (Nat × Word)) : Option (Nat × Nat) :=
  match (List.range lmpWords).findSome? (fun a => (lmpWordFail t a).map (fun c => (c, a))) with
  | some x => some x
  | none =>
    (List.range 8).findSome? (fun l =>
      let cfg := s.reg (R.LMP_CFG + l)
      if getBits cfg 2 0 ≠ 0 ∧ !s.lampOk t l cfg (s.reg (R.LMP_MAP + l)) then
        let ch := (List.range 16).find? (fun n => (s.lampChans l).contains n &&
          (List.range 16).any (fun i => lmpAt t (16 * n + i) != lmpAt s.lmp.active (16 * n + i)))
        some (8, 16 * ch.getD 0)
      else none)

/-- OPEN of page LMP (R53). -/
def State.lmpOpen (s : State) : State :=
  (s.modLmp (fun m => { m with edit := m.active })).setFlag F.LMP_STAT_EDIT true

/-- CLOSE of page LMP (R54). -/
def State.lmpClose (s : State) : State :=
  if !s.flag F.LMP_STAT_EDIT then s
  else match s.lmpFail s.lmp.edit with
    | none => s.setFlag F.LMP_STAT_TABPEND true
    | some (c, a) =>
      let v := BitVec.ofNat 16 (c * 4096 + a)
      let r := (s.setReg R.LMP_TERR v).setFlag F.LMP_STAT_TABPEND false
      let was := r.flag F.LMP_STAT_TABERR
      let r := r.setFlag F.LMP_STAT_TABERR true
      let r := if !was ∧ r.flag F.LMP_IRQEN_TABERR then r.irq irqLmp else r
      if was then r else r.post 9 0x41 v.toNat

/-- The swap of checked tables at the start of a tick (R54). Words written since the CLOSE that passed are swapped in
unchecked (DESIGN CHOICE, log entry 59). -/
def State.lmpSwap (s : State) : State :=
  if s.flag F.LMP_STAT_TABPEND then
    ((s.modLmp (fun m => { m with active := m.edit })).setFlag F.LMP_STAT_EDIT false).setFlag F.LMP_STAT_TABPEND false
  else s

/-! Brightness (R57). -/

/-- A value between 0 and 1 carried to 24 bits. -/
def to24 (y : Rat) : Rat := rat ((y * 16777215 + 1 / 2).floor.toNat) / 16777215

/-- The relative luminance of a brightness under a law (R57). -/
def lawY (t : List (Nat × Word)) (law b : Nat) : Rat :=
  match law with
  | 0 =>
    let l : Rat := 100 * rat b / 65535
    if 8 < l then
      let x := (l + 16) / 116
      to24 (x * x * x)
    else to24 (l * 27 / 24389)
  | 1 => to24 (rat b * rat b / (65535 * 65535))
  | 2 => to24 (rat b / 65535)
  | _ =>
    let p := b * 256
    let j := p / 65535
    let f : Rat := rat (p % 65535) / 65535
    to24 ((rat (lawAt t j) + (rat (lawAt t (j + 1)) - rat (lawAt t j)) * (if j = 256 then 0 else f)) / 16777215)

/-! CCT (R60). -/

/-- A square root of a non-negative rational, to about 2^-40 of its unit. -/
def ratSqrt (x : Rat) : Rat := rat (isqrt ((x * 1208925819614629174706176).floor.toNat)) / 1099511627776

/-- The 64 points of R60 from 1000 mired down to 50, u' and v' in units of 2^-16 (PRESUMED, log entry 11: computed as R60
says from the CIE 1931 functions, which the spec names and does not print). -/
def planckTable : List (Nat × Nat) :=
   [(29361, 34861), (29128, 34891), (28891, 34921), (28652, 34952), (28409, 34982), (28163, 35012), (27913, 35042),
    (27660, 35071), (27404, 35101), (27145, 35130), (26882, 35158), (26616, 35186), (26347, 35214), (26075, 35240),
    (25800, 35266), (25521, 35291), (25240, 35314), (24955, 35336), (24667, 35357), (24377, 35376), (24083, 35393),
    (23787, 35408), (23488, 35421), (23186, 35431), (22881, 35438), (22574, 35441), (22265, 35441), (21953, 35438),
    (21639, 35429), (21324, 35416), (21006, 35397), (20686, 35373)] ++
   [(20365, 35342), (20043, 35304), (19719, 35259), (19395, 35205), (19070, 35142), (18744, 35069), (18419, 34985),
    (18094, 34890), (17769, 34783), (17446, 34661), (17124, 34526), (16805, 34375), (16488, 34207), (16174, 34022),
    (15864, 33818), (15559, 33594), (15259, 33349), (14965, 33082), (14678, 32793), (14399, 32481), (14129, 32144),
    (13869, 31783), (13621, 31398), (13384, 30990), (13161, 30560), (12953, 30110), (12760, 29642), (12583, 29162),
    (12424, 28675), (12283, 28187), (12158, 27705), (12051, 27239)]

/-- Point i of the Planckian table. -/
def planckUV (i : Nat) : UV :=
  let p := planckTable.getD i (0, 0)
  { u := rat p.1 / 65536, v := rat p.2 / 65536 }

/-- The chromaticity of a CCT in kelvin and a Duv, and whether the CCT was clamped (R60). On a point of the table the
segment toward higher CCT is the local one (DESIGN CHOICE, log entry 59). -/
def cctUV (k duv : Rat) : UV × Bool :=
  let kc := ratMin 20000 (ratMax 1000 k)
  let m := 1000000 / kc
  let q := (1000 - m) * 63 / 950
  let i := min 62 q.floor.toNat
  let f := q - rat i
  let a := planckUV i
  let b := planckUV (i + 1)
  let u := a.u + (b.u - a.u) * f
  let v := (a.v + (b.v - a.v) * f) * 2 / 3
  let du := b.u - a.u
  let dv := (b.v - a.v) * 2 / 3
  let len := ratSqrt (du * du + dv * dv)
  let sgn : Rat := if 0 ≤ du then 1 else -1
  let nu := -dv * sgn / len
  let nv := du * sgn / len
  ({ u := u + nu * duv, v := (v + nv * duv) * 3 / 2 }, decide (kc ≠ k))

/-- The chromaticity of a colour, and whether a CCT it comes from was clamped. -/
def Colour.uv (c : Colour) : UV × Bool := if c.cct then cctUV c.x c.y else ({ u := c.x, v := c.y }, c.clamped)

/-! One lamp (R61 to R70). -/

/-- Flux shares of the emitters for unit flux, the chromaticity solved, and whether the target moved (R61 to R65). Where a
divisor is 0 the value is free (`chromStated`, `sharesStated`, log entry 13). -/
def shares (kind : Nat) (es : List Emitter) (wp t : UV) : List Rat × UV × Bool :=
  let p (i : Nat) : UV := (nthOf es i).p
  match kind with
  | 1 => ([1], p 0, false)
  | 2 =>
    let dx := (p 1).u - (p 0).u
    let dy := (p 1).v - (p 0).v
    let d2 := dx * dx + dy * dy
    let a0 := ((t.u - (p 0).u) * dx + (t.v - (p 0).v) * dy) / d2
    let a := ratMin 1 (ratMax 0 a0)
    let cr := (t.u - (p 0).u) * dy - (t.v - (p 0).v) * dx
    let q : UV := { u := (p 0).u + a * dx, v := (p 0).v + a * dy }
    ([(1 - a) * (p 0).v / q.v, a * (p 1).v / q.v], q, decide (a ≠ a0) || decide (4 / 1000000 * d2 < cr * cr))
  | _ =>
    let bt := bary (p 0) (p 1) (p 2) t
    let bw := bary (p 0) (p 1) (p 2) wp
    let moved := bt.any (fun x => decide (x < 0))
    let lam := (List.zipWith (fun x w => if x < 0 then -x / (w - x) else 0) bt bw).foldl ratMax 0
    let be := if moved then List.zipWith (fun x w => x + lam * (w - x)) bt bw else bt
    let q := if moved then mixUV be [p 0, p 1, p 2] else t
    if kind = 3 then (List.zipWith (fun x e => x * e.p.v / q.v) be es, q, moved)
    else
      let w := bary (p 0) (p 1) (p 2) (p 3)
      let s := ratMin 1 ((List.zipWith (fun x y => x / y) be w).foldl ratMin 1)
      let cs := List.zipWith (fun x e => x * e.p.v / q.v) (List.zipWith (fun x y => ratMax 0 (x - s * y)) be w) es
      (cs ++ [s * (p 3).v / q.v], q, moved)

/-- The base-2 logarithm of x in [1, 2), as `n` more bits of a fraction: x is m / 2^32. -/
def log2Bits : Nat → Nat → Nat → Nat
  | 0, _, acc => acc
  | n + 1, m, acc =>
    let q := m * m / 4294967296
    if 8589934592 ≤ q then log2Bits n (q / 2) (2 * acc + 1) else log2Bits n q (2 * acc)

/-- The efficacy of channel `n` at DRIVE `d`, in units of 1 / (0x8000 * 2^24) (R52, R70). -/
def etaOf (t : List (Nat × Word)) (n d : Nat) : Nat :=
  let e (i : Nat) : Nat := (lmpAt t (16 * n + 6 + i)).toNat
  let x := d * 128
  if x < 0xFFFFF then e 0 * 16777216
  else
    let k := ((List.range 8).filter (fun i => decide (0xFFFFF * 2 ^ i ≤ x))).length - 1
    if 7 ≤ k then e 7 * 16777216
    else
      let f := log2Bits 24 (x * 4294967296 / (0xFFFFF * 2 ^ k)) 0
      e k * (16777216 - f) + e (k + 1) * f

/-- DRIVE `d` of channel `n` reaches a flux fraction (R70). -/
def reaches (t : List (Nat × Word)) (n d : Nat) (x : Rat) : Bool :=
  decide (x ≤ rat (d * etaOf t n d) / (0xFFFFF * 32768 * 16777216))

/-- The DRIVE at which the flux of channel `n` peaks between `lo` and `hi`, where it has one peak, by `k` halvings. -/
def fluxPeak (t : List (Nat × Word)) (n : Nat) : Nat → Nat → Nat → Nat
  | 0, _, hi => hi
  | k + 1, lo, hi =>
    let m := (lo + hi) / 2
    if hi ≤ lo then hi
    else if m * etaOf t n m < (m + 1) * etaOf t n (m + 1) then fluxPeak t n k (m + 1) hi else fluxPeak t n k lo m

/-- The smallest DRIVE that reaches a fraction, by `k` halvings below `hi`, up to which the flux rises. -/
def droopInv (t : List (Nat × Word)) (n : Nat) (x : Rat) : Nat → Nat → Nat → Nat
  | 0, _, hi => hi
  | k + 1, lo, hi =>
    let m := (lo + hi) / 2
    if reaches t n m x then droopInv t n x k lo m else droopInv t n x k (m + 1) hi

/-- The spans of DRIVE between the points of the droop table (R52), lowest first: in each the flux rises to one peak. -/
def droopSpans : List (Nat × Nat) :=
  let at_ (i : Nat) : Nat := (0xFFFFF * 2 ^ i + 127) / 128
  (0, at_ 0 - 1) :: (List.range 7).map (fun i => (at_ i, at_ (i + 1) - 1)) ++ [(0xFFFFF, 0xFFFFF)]

/-- The DRIVE of channel `n` for a flux fraction (R70): the smallest of the first span that reaches it. -/
def driveFor (t : List (Nat × Word)) (n : Nat) (x : Rat) : Nat :=
  if x ≤ 0 then 0
  else (droopSpans.findSome? (fun lh =>
    let p := fluxPeak t n 20 lh.1 lh.2
    if reaches t n p x then some (droopInv t n x 20 lh.1 p) else none)).getD 0xFFFFF

/-- The reference flux of lamp `l` (R59), in lumens. A TRIO white point that a later write has put outside the triangle
has negative shares, which are passed over here, and a divisor of 0 in R65 gives 0 (DESIGN CHOICE, log entry 59). -/
def State.fref (s : State) (l : Nat) : Rat :=
  let f := (s.reg (R.LMP_FREF + l)).toNat
  if f ≠ 0 then rat f
  else
    let kind := s.fld (F.LMP_CFG_KIND.at l)
    let es := (s.lampChans l).map (fun n => emitterAt s.lmp.active n 0)
    let wp := whitePoint kind (s.reg (R.LMP_WU + l)).toNat (s.reg (R.LMP_WV + l)).toNat es
    let sh := (shares kind es wp wp).1
    let best := (List.zipWith (fun (x : Rat) (e : Emitter) => (x, e.flux)) sh es).foldl
      (fun (m : Option Rat) (xe : Rat × Rat) =>
        if 0 < xe.1 then
          match m with
          | none => some (xe.2 / xe.1)
          | some y => some (ratMin y (xe.2 / xe.1))
        else m) none
    best.getD 0 * rat (s.reg (R.LMP_CEIL + l)).toNat / 65536

/-- The temperature that lamp `l` uses, in 1/16 degC, and whether its reading is invalid (R66, R67). -/
def State.lampTemp (s : State) (l : Nat) : Int × Bool :=
  let src := s.fld (F.LMP_CFG_NTC.at l)
  if src < 4 then
    let seen := s.hlt.ntcSeen.getD src false
    let bad := s.hlt.ntcBad.getD src false || !seen
    let t : Int := if seen then signed 16 (s.reg (R.HLT_NTC0 + 64 * src)).toNat else 400
    (if s.flag F.LMP_CTL_TCOMP then t else 400, bad)
  else if src = 4 then (if s.flag F.LMP_CTL_TCOMP then signed 16 (s.reg R.HLT_TDIE).toNat else 400, false)
  else (400, false)

/-- A value as a 16-bit code of 1/65536, to the nearest (DESIGN CHOICE, log entry 59). -/
def code16 (x : Rat) : Word := BitVec.ofNat 16 (min 65535 (x * 65536 + 1 / 2).floor.toNat)

/-- DRIVE of a channel handed to the realiser (R8). -/
def State.setDrive (s : State) (n d : Nat) : State := s.modPwm (fun q => { q with drive := q.drive.set n d })

/-- A mapped channel of lamp `l` that is tripped or locked off (R50). -/
def State.degraded (s : State) (l : Nat) : Option Nat :=
  (s.lampChans l).find? (fun n => s.lat n != 0 || s.lockedOff n)

/-- The spec states the chromaticity solved for a target `t` (R62 to R65): no divisor of it is 0. A chord has length, a
triangle area, and the move of R65 a finite fraction (log entry 13). -/
def chromStated (kind : Nat) (es : List Emitter) (wp t : UV) : Bool :=
  let p (i : Nat) : UV := (nthOf es i).p
  if kind < 2 then true
  else if kind = 2 then decide (p 0 ≠ p 1)
  else
    decide (area2 (p 0) (p 1) (p 2) ≠ 0) &&
      (List.zipWith (fun x w => decide (0 ≤ x) || decide (w ≠ x)) (bary (p 0) (p 1) (p 2) t)
        (bary (p 0) (p 1) (p 2) wp)).all id

/-- The spec states the flux shares of R61 and R64 for a solved point `q`: no divisor of them is 0 (log entry 13). -/
def sharesStated (kind : Nat) (es : List Emitter) (q : UV) : Bool :=
  let p (i : Nat) : UV := (nthOf es i).p
  decide (kind < 2) || (decide (q.v ≠ 0) &&
    (decide (kind ≠ 4) || (bary (p 0) (p 1) (p 2) (p 3)).all (fun x => decide (x ≠ 0))))

/-- A free value as a fraction of 2^-16 (log entry 13). -/
def State.freeFrac (s : State) (i : Nat) : Rat := rat (Config.freeValue (s.free + i)) / 65536

/-- `n` free values are used. -/
def State.useFrees (s : State) (n : Nat) : State := { s with free := s.free + n }

/-- What R61 to R65 solve for a target: the shares, the point and whether it moved, with free values in place of those
that the spec does not state (log entry 13). -/
def State.solved (s : State) (kind : Nat) (es : List Emitter) (wp t : UV) : (List Rat × UV × Bool) × State :=
  let (sh, q, moved) := shares kind es wp t
  let (q, moved, r) := if chromStated kind es wp t then (q, moved, s)
    else ({ u := s.freeFrac 0, v := s.freeFrac 1 }, Config.freeValue (s.free + 2) % 2 == 1, s.useFrees 3)
  if chromStated kind es wp t && sharesStated kind es q then ((sh, q, moved), r)
  else (((List.range es.length).map r.freeFrac, q, moved), r.useFrees es.length)

/-- The flux fractions of R68: `ys` the fluxes asked, `ms` the maintenance estimates, `r` the lamp ratio. A channel asked
for none has 0; where FLUX(T) is not above 0 or the estimate is 0, the spec states no fraction and it is free (log entry
13). -/
def State.fractions (s : State) (ys : List Rat) (es : List Emitter) (ms : List Rat) (r : Rat) : List Rat × State :=
  let l := List.zip ys (List.zip es ms)
  let stated (x : Rat × Emitter × Rat) : Bool := decide (x.1 = 0) || (decide (0 < x.2.1.flux) && decide (x.2.2 ≠ 0))
  (l.mapIdx (fun i x => if x.1 = 0 then 0 else if stated x then x.1 / x.2.1.flux * r / x.2.2 else s.freeFrac i),
    if l.all stated then s else s.useFrees l.length)

/-- What a solve shows first: the lamp's temperature and whether it is valid, a degraded channel, the brightness and the
reference flux (R66, R67). -/
def State.lampTold (s : State) (l b : Nat) (t16 : Int) (bad : Bool) : State :=
  let s := (s.setReg (cell R.LMP_TEMP l) (BitVec.ofNat 16 (satCode 16 t16))).setFlag (F.LMP_LSTAT_TINVL.at l) bad
  let s := if bad then s.lampStick l F.LMP_LSTAT_TINV (some (0x43, l + 256 * s.fld (F.LMP_CFG_NTC.at l))) else s
  let s := match s.degraded l with
    | some n => s.lampStick l F.LMP_LSTAT_DEGR (some (0x44, l + 256 * n))
    | none => s
  (s.setReg (cell R.LMP_BOUT l) (BitVec.ofNat 16 b)).setReg (cell R.LMP_FREFA l)
    (BitVec.ofNat 16 (min 65535 (s.fref l + 1 / 2).floor.toNat))

/-- The chromaticity solved, and whether it was moved into the gamut (R65). -/
def State.lampGamut (s : State) (l : Nat) (q : UV) (gam : Bool) : State :=
  let s := s.setFlag (F.LMP_LSTAT_GAMUTL.at l) gam
  let s := if gam then s.lampStick l F.LMP_LSTAT_GAMUT none else s
  (s.setReg (cell R.LMP_UOUT l) (code16 q.u)).setReg (cell R.LMP_VOUT l) (code16 q.v)

/-- The maintenance ratio of the lamp (R68). -/
def State.lampRatio (s : State) (l : Nat) (r : Rat) : State :=
  let s := s.setReg (cell R.LMP_RATIO l) (BitVec.ofNat 16 (r * 32768 + 1 / 2).floor.toNat)
  let s := s.setFlag (F.LMP_LSTAT_CEILRL.at l) (decide (r < 1))
  if r < 1 then
    s.lampStick l F.LMP_LSTAT_CEILR (some (0x42, l * 8192 + (s.reg (R.LMP_RATIO + l)).toNat / 8))
  else s

/-- The drives of the channels from their flux fractions, scaled where one is above 1 (R69, R70). -/
def State.lampDrive (s : State) (l : Nat) (dark : Bool) (fr : List Rat) : State :=
  let chs := s.lampChans l
  let top := fr.foldl ratMax 0
  let sat := decide (1 < top)
  let s := s.setFlag (F.LMP_LSTAT_SATL.at l) sat
  let s := if sat then s.lampStick l F.LMP_LSTAT_SAT none else s
  let fr2 := if sat then fr.map (fun a => a / top) else fr
  if s.fld (F.LMP_CFG_KIND.at l) = 0 then s
  else if dark then chs.foldl (fun t n => t.setDrive n 0) s
  else (List.zip chs fr2).foldl (fun t nf => t.setDrive nf.1 (driveFor s.lmp.active nf.1 nf.2)) s

/-- The ratio of R68: the least of the asked channels' estimates against the ceiling, at most 1. -/
def State.lampHeld (s : State) (l : Nat) (ys ms : List Rat) : Rat :=
  let ceil := rat (s.reg (R.LMP_CEIL + l)).toNat / 65536
  if s.flag F.LMP_CTL_MAINT then
    (List.zipWith (fun a m => if 0 < a then ratMin 1 (m / ceil) else 1) ys ms).foldl ratMin 1
  else 1

/-- The solve of lamp `l` for what the fade engine shows (R57 to R71). DEGR is set at the tick, for the first tripped slot,
and a lamp whose KIND is OFF takes its temperature and shows its state like any other (DESIGN CHOICE, log entry 59). -/
def State.solveLamp (s : State) (l : Nat) (x : Shown) : State :=
  let kind := s.fld (F.LMP_CFG_KIND.at l)
  let chs := s.lampChans l
  let temp := s.lampTemp l
  let es := chs.map (fun n => emitterAt s.lmp.active n (((temp.1 - 400 : Int) : Rat) / 16))
  let wp := whitePoint kind (s.reg (R.LMP_WU + l)).toNat (s.reg (R.LMP_WV + l)).toNat es
  let y := if x.b = 0 then 0 else lawY s.lmp.active (s.fld (F.LMP_CFG_LAW.at l)) x.b * s.fref l
  let ms := chs.map (fun n => if s.flag F.LMP_CTL_MAINT then rat (nthOf s.hlt.chans n).maint / 65536 else 1)
  let a := (s.lampTold l x.b temp.1 temp.2).solved kind es wp x.c.uv.1
  let s := a.2.lampGamut l a.1.2.1 (decide (1 < kind) && (a.1.2.2 || x.c.uv.2))
  let ys := a.1.1.map (fun f => f * y)
  let r := s.lampHeld l ys ms
  let b := (s.lampRatio l r).fractions ys es ms r
  b.2.lampDrive l (x.b = 0) b.1

/-- The solver's part of a tick (R49, R71): channels in no lamp get 0, then each lamp in turn. -/
def State.solve (s : State) (show_ : List Shown) : State :=
  let s := s.forChans (fun n t => if t.groupOf n = 8 then t.setDrive n 0 else t)
  (List.range 8).foldl (fun t l => t.solveLamp l (show_.getD l {})) s

end Sys2Proof.Machine
end

