-- ==== Sys2Proof/Machine/Fde.lean ====
section
/-! DEFINITION. The fade engine (R74 to R111): contours, fades, owner slots, plates, schedules, event rules, gestures,
LOSS, requests, and the engine's part of a fade tick. -/

namespace Sys2Proof.Machine

/-! Tables (R79, R106). -/

/-- CT1 at entry j (R79): round(65535 (3 p^2 - 2 p^3)), p = j / 256. -/
def easeAt (j : Nat) : Nat := (2 * 65535 * (3 * j * j * 256 - 2 * j * j * j) + 256 ^ 3) / (2 * 256 ^ 3)

/-- A contour value `c` of CT2 lies at or below round(65535 (2^(10 p) - 1) / 1023), p = j / 256. -/
def expLe (j c : Nat) : Bool := decide ((131070 + 2 * 1023 * c - 1023) ^ 128 ≤ 2 ^ (5 * j) * 131070 ^ 128)

/-- CT2 at entry j (R79), by `k` halvings of [lo, hi]. -/
def expFind (j : Nat) : Nat → Nat → Nat → Nat
  | 0, lo, _ => lo
  | k + 1, lo, hi =>
    let m := (lo + hi + 1) / 2
    if expLe j m then expFind j k m hi else expFind j k lo (m - 1)

/-- The ROM contours CT0 to CT2 (R79). -/
def romContour (k j : Nat) : Nat :=
  match k with
  | 1 => easeAt j
  | 2 => if j = 0 then 0 else expFind j 17 0 65535
  | _ => (2 * 65535 * j + 256) / 512

/-- The words of each table of R106. -/
def fdeLen (tsel : Nat) : Nat :=
  match tsel with
  | 0 => 4112
  | 1 => 8192
  | 2 => 1024
  | 3 => 256
  | 4 => 732
  | 5 => 32
  | 6 => 4
  | _ => 0

/-- The key of a table word. -/
def fdeKey (tsel a : Nat) : Nat := tsel * 8192 + a

/-- The contents of the tables under TABDEF (R536): contours hold CT0 to CT2 and copies of CT0 (R79), every day's
sunrise is 360 and sunset 1080, the others are 0. -/
def fdeDefault (k : Nat) : Word :=
  if k < 4112 then BitVec.ofNat 16 (romContour (if k / 257 < 3 then k / 257 else 0) (k % 257))
  else if 4 * 8192 ≤ k ∧ k < 4 * 8192 + 732 then (if k % 2 = 0 then 360 else 1080)
  else 0

/-- A word of a table group. -/
def fdeAt (t : List (Nat × Word)) (tsel a : Nat) : Word := spGet fdeDefault t (fdeKey tsel a)

/-- The values of contour `k`. -/
def contourOf (t : List (Nat × Word)) (k : Nat) : List Word := spRead fdeDefault t (257 * k) 257

/-- The fade engine, changed. -/
def State.modFde (s : State) (f : FdeState → FdeState) : State := { s with fde := f s.fde }

/-- Lamp `l` of the fade engine. -/
def State.flamp (s : State) (l : Nat) : FLamp := nthOf s.fde.lamps l

/-- Lamp `l` of the fade engine, changed. -/
def State.modFlamp (s : State) (l : Nat) (f : FLamp → FLamp) : State :=
  s.modFde (fun d => { d with lamps := modNth d.lamps l f })

/-! One fade (R76 to R78). -/

/-- The ticks of a fade word (R76). -/
def fadeTicks (w : Nat) : Nat :=
  let c := w % 16384
  match w / 16384 % 4 with
  | 0 => c
  | 1 => 10 * c
  | 2 => 100 * c
  | _ => 1000 * c

/-- The contour value at progress n of N, `at_ j` giving its entries (R77). -/
def contourVal (at_ : Nat → Nat) (n dur : Nat) : Rat :=
  let d := if dur = 0 then 1 else dur
  let j := 256 * n / d
  let f : Rat := rat (256 * n % d) / rat d
  let c0 := rat (at_ (min j 256))
  c0 + (rat (at_ (min (j + 1) 256)) - c0) * f

/-- 10^6 divided by a CCT: mired, or kelvin of mired. -/
def mired (k : Rat) : Rat := 1000000 / ratMax 1 k

/-- The state between `a` and `b` at contour value `c` (R77, R78). -/
def mixShown (a b : Shown) (c : Rat) : Shown :=
  let x := c / 65535
  let bb := (rat a.b + (rat b.b - rat a.b) * x).floor.toNat
  if a.b = 0 then { b := bb, c := b.c }
  else if a.c.cct ∧ b.c.cct then
    let m := mired a.c.x + (mired b.c.x - mired a.c.x) * x
    { b := bb, c := { cct := true, x := rat (mired m + 1 / 2).floor.toNat, y := a.c.y + (b.c.y - a.c.y) * x } }
  else
    let (p, cp) := a.c.uv
    let (q, cq) := b.c.uv
    { b := bb, c := { cct := false, x := p.u + (q.u - p.u) * x, y := p.v + (q.v - p.v) * x, clamped := cp || cq } }

/-- A state as a start or a target holds it: that a CCT behind it was clamped belongs to the tick that converted it (R60). -/
def Shown.held (x : Shown) : Shown := { x with c := { x.c with clamped := false } }

/-- An entry of the contour that a fade runs on (R108). -/
def State.fadeEntry (s : State) (f : Fade) (j : Nat) : Nat :=
  match f.old with
  | some l => (l.getD j 0).toNat
  | none => (fdeAt s.fde.active 0 (257 * f.k + j)).toNat

/-- The contour value of a fade now. -/
def State.fadeC (s : State) (f : Fade) : Rat := if f.dur ≤ f.n then 65535 else contourVal (s.fadeEntry f) f.n f.dur

/-- The state of a fade toward a target (R77, R78): before its first tick its start, from tick N on its target. -/
def State.fadeState (s : State) (f : Fade) (tgt : Shown) : Shown :=
  if f.n = 0 then f.start else if f.dur ≤ f.n then tgt else mixShown f.start tgt (s.fadeC f)

/-- A fade one tick on; it ends at its duration. -/
def Fade.next (f : Fade) : Fade := { f with n := min (f.n + 1) (max f.dur 1) }

/-- The state of a slot. -/
def State.slotState (s : State) (x : Slot) : Shown := s.fadeState x.fade x.tgt

/-! Slots and precedence (R81 to R87). -/

/-- The highest held level, or 0 with none (R82). -/
def FLamp.win (l : FLamp) : Nat := ((List.range 8).reverse.find? (fun k => (l.slots.getD k none).isSome)).getD 0

/-- The slot at a level. -/
def FLamp.slot (l : FLamp) (k : Nat) : Option Slot := l.slots.getD k none

/-- The slot's hold has ended: as many ticks as its word says have passed since the start of its fade (R86). -/
def Slot.holdOver (x : Slot) : Bool := decide (x.hold ≠ 0) && decide (fadeTicks x.hold ≤ x.age)

/-- A sticky FDE_LSTAT bit of lamp `l`, and the interrupt of R109. -/
def State.fdeLstick (s : State) (l : Nat) (f : Fld) : State := s.stick (cell R.FDE_LSTAT l) R.FDE_IRQEN irqFde f.mask

/-- A sticky FDE_STAT bit with its enable (R109). -/
def State.fdeStick (s : State) (f en : Fld) : State :=
  let was := s.flag f
  let r := s.setFlag f true
  if !was ∧ r.flag en then r.irq irqFde else r

/-- The slot at level `k` of lamp `l` is emptied; a change of winner cross-fades over fade word `w` (R85). -/
def State.slotEmpty (s : State) (l k w : Nat) : State :=
  let x := s.flamp l
  if (x.slot k).isNone then s
  else
    let t := s.modFlamp l (fun y => { y with slots := y.slots.set k none })
    if x.win = k then
      t.modFlamp l (fun y =>
        { y with
          xf := some { start := y.shown.held, n := 0, dur := fadeTicks w, k := s.fld F.FDE_CTL_RELC, old := none } })
    else t

/-- The whole milliseconds since an instant; none before it, or while TVALID = 0 (R86, R89, R99). -/
def State.ticksSince (s : State) (t : Nat) : Nat :=
  let d := (s.tim.now + 2 ^ 104 - t) % 2 ^ 104
  if s.flag F.FDE_STAT_TVALID ∧ d < 2 ^ 103 then d * 1000 / 2 ^ 72 else 0

/-- The state that a request for level `k` starts from where no cross-fade rules it (R84): that of the slot on the tick
before, also where it has been emptied since, else that of a slot written on this tick, else what the lamp showed. -/
def State.writeFrom (s : State) (l k : Nat) : Shown :=
  let x := s.flamp l
  match x.was.getD k none with
  | some a => a
  | none => match x.slot k with
    | some y => s.slotState y
    | none => x.shown

/-- A request is written into level `k` of lamp `l` (R83 to R85, R91); true where it is refused: not shown. It is judged
against the winner at its own write, before those that follow on the tick (R87 step 3): one below a level that is first
held on the same tick is not refused, though step 4 does not show it (DESIGN CHOICE, log entry 61). -/
def State.slotWrite (s : State) (l k : Nat) (q : LampReq) : State × Bool :=
  let x := s.flamp l
  let held := x.slots.any Option.isSome
  let low := held && decide (k < x.win)
  let start := (if x.xf.isSome ∧ !low then x.shown else s.writeFrom l k).held
  let tgt : Shown := { b := if q.keepB then start.b else q.b, c := if q.keepC then start.c else q.c }
  let y : Slot :=
    { fade := { start := start, n := 0, dur := fadeTicks q.t, k := q.k, old := none },
      age := match q.since with
        | some t => s.ticksSince t
        | none => 0
      tgt := tgt, hold := q.hold, rule := q.rule, wrote := s.keep.elapsed }
  let r := s.modFlamp l (fun z => { z with slots := z.slots.set k (some y), xf := if low then z.xf else none })
  (if low then r.fdeLstick l F.FDE_LSTAT_OWNED else r, low)

/-! Requests (R83, R87 to R92). -/

/-- The instant of a request has come, or network time has not been valid since LIT entry (R89). -/
def State.dueNow (s : State) : StartAt → Bool
  | .now => true
  | .evr => false
  | .instant t => !s.flag F.FDE_STAT_TVALID || decide ((s.tim.now + 2 ^ 104 - t) % 2 ^ 104 < 2 ^ 103)

/-- One lamp's part of a request on a tick: written now, or pending (R88, R89); the result is whether it was refused and
whether it waits. -/
def State.takeLamp (s : State) (q : QReq) (l : Nat) (r : LampReq) : State × Bool × Bool :=
  if s.dueNow q.start then
    let t := if q.late ∧ s.flag F.FDE_STAT_TVALID then s.fdeLstick l F.FDE_LSTAT_LATE else s
    let (t, ref) := t.slotWrite l q.lvl r
    (t, ref, false)
  else
    let t := if (s.flamp l).pend.isSome then s.fdeLstick l F.FDE_LSTAT_DROP else s
    (t.modFlamp l (fun y => { y with pend := some (q.lvl, q.start, r), due := false }), false, true)

/-- The result of a request or release is given to the path or the line command that made it: code of R111 and the lamps
refused. `late`: a line command answers LATE (R292). -/
def State.answer (s : State) (by_ : Option Path) (reply : Option Reply) (code refm : Nat) (late : Bool) : State :=
  let r := match by_ with
    | some p => s.modPath p (fun h => { h with rstat := BitVec.ofNat 16 (refm * 256 + code) })
    | none => s
  match reply with
  | some a => r.modFde (fun d => { d with results := d.results ++ [(a, if late ∧ code = 2 then 7 else code, refm)] })
  | none => r

/-- Requests with lower levels before higher ones, in order of arrival within a level (R87). -/
def sortReqs (l : List QReq) : List QReq := (List.range 8).flatMap (fun k => l.filter (fun q => q.lvl == k))

/-- The lamps of a mask. -/
def maskLamps (m : Nat) : List Nat := (List.range 8).filter (fun l => (m / 2 ^ l) % 2 == 1)

/-- The words of plate `p`: what waits in the commit buffer, else the flash (R93). -/
def State.plateWords (s : State) (p : Nat) : List Word :=
  let hit := s.vlt.buf.foldl (fun (b : Option (List Word)) e =>
    match e with
    | .plate q ws => if q = p then some ws else b
    | _ => b) none
  hit.getD ((s.vlt.words (fltPlt + 64 * p) 32).map swapBytes)

/-- The request of a plate's entry for lamp `l` (R90, R91), unless it is marked SKIP; `fade`: a word in place of the
entry's own. -/
def plateEntry (ws : List Word) (l : Nat) (fade : Option Nat) (hold : Nat) (rule : Option Nat) : Option LampReq :=
  let w (i : Nat) : Word := ws.getD (4 * l + i) 0xFFFF
  if (w 1).getLsbD 8 then none
  else
    let c1 := getBits (w 1) 7 0 * 16 + getBits (w 2) 15 12
    let c2 := getBits (w 2) 11 0
    let d := if c1 = 0 then 1 else c1
    let c : Colour :=
      if (w 1).getLsbD 11 then
        { cct := true, x := rat ((8000000 + d) / (2 * d)), y := ((signed 12 c2 : Int) : Rat) / 65536 }
      else { cct := false, x := rat c1 / 4096, y := rat c2 / 4096 }
    some { b := (w 0).toNat, keepB := (w 1).getLsbD 9, c := c, keepC := (w 1).getLsbD 10,
           t := fade.getD (w 3).toNat, k := getBits (w 1) 15 12, hold := hold, rule := rule }

/-- The requests of a plate for a lamp mask (R92), by its words as they are now (R93). -/
def State.plateReqs (s : State) (p : PlateRef) : List (Nat × LampReq) :=
  let ws := s.plateWords p.plate
  (maskLamps p.mask).filterMap (fun l =>
    (plateEntry ws l p.fade p.hold p.rule).map (fun q =>
      (l, { q with since := p.since, plate := some p.plate, pfade := p.fade })))

/-- The lamps of a request (R92, R93). -/
def State.reqLamps (s : State) (q : QReq) : List (Nat × LampReq) :=
  match q.plate with
  | some p => s.plateReqs p
  | none => q.lamps

/-- What a request that waited writes into lamp `l` as it starts: a plate's words as they are then, nothing where its entry
is marked SKIP by then (R92, R93). The lamps that wait are those whose entries were not marked SKIP as the request was
taken (DESIGN CHOICE, log entry 61). -/
def State.startReq (s : State) (l : Nat) (q : LampReq) : Option LampReq :=
  match q.plate with
  | some p => (plateEntry (s.plateWords p) l q.pfade q.hold q.rule).map (fun r => { r with since := q.since })
  | none => some q

/-- A whole request is taken on a tick (R87 step 3, R110). -/
def State.takeReq (s : State) (q : QReq) : State :=
  let (t, refm, wait) := (s.reqLamps q).foldl
    (fun (acc : State × Nat × Bool) (e : Nat × LampReq) =>
      let (t, ref, w) := acc.1.takeLamp q e.1 e.2
      (t, acc.2.1 + (if ref then 2 ^ e.1 else 0), acc.2.2 || w)) (s, 0, false)
  t.answer q.by_ q.reply (if refm ≠ 0 then 3 else if wait then 4 else 2) refm q.late

/-- A request is queued for the next tick; it is late where its instant has passed on arrival (R89). -/
def State.request (s : State) (q : QReq) : State :=
  let late := match q.start with
    | .instant t => (s.timeValid || s.flag F.FDE_STAT_TVALID) && decide (0 < (s.tim.now + 2 ^ 104 - t) % 2 ^ 104) &&
        decide ((s.tim.now + 2 ^ 104 - t) % 2 ^ 104 < 2 ^ 103)
    | _ => false
  s.modFde (fun d => { d with reqs := d.reqs ++ [{ q with late := late }] })

/-- A release is queued for the next tick (R87). -/
def State.releaseReq (s : State) (lvl mask w : Nat) (by_ : Option Path) (reply : Option Reply) : State :=
  s.modFde (fun d => { d with rels := d.rels ++ [(lvl, mask, w, by_, reply)] })

/-- The instant of seconds and milliseconds. -/
def instantMs (sec ms : Nat) : Nat := (sec * 2 ^ 72 + (ms * 2 ^ 72 + 999) / 1000) % 2 ^ 104

/-- A request of values for every lamp of a mask (R110, R293). -/
def valueReq (b c1 c2 : Word) (t : Nat) (flg : Word) (hold : Nat) : LampReq :=
  let c : Colour :=
    if flg.getLsbD 11 then { cct := true, x := rat c1.toNat, y := ((signed 16 c2.toNat : Int) : Rat) / 1048576 }
    else { cct := false, x := rat c1.toNat / 65536, y := rat c2.toNat / 65536 }
  { b := b.toNat, keepB := flg.getLsbD 9, c := c, keepC := flg.getLsbD 10, t := t, k := getBits flg 15 12, hold := hold }

/-- The owner level of FDE_RCMD on a path (R110). -/
def pathLevel : Path → Nat
  | .host => 4
  | .remote => 3

/-- FDE_RSTAT of path `p` gives the result of the last FDE_RCMD (R111): commands before it no longer write it. -/
def FdeState.forget (d : FdeState) (p : Path) : FdeState :=
  { d with
    reqs := d.reqs.map (fun q => if q.by_ = some p then { q with by_ := none } else q),
    rels := d.rels.map (fun r => if r.2.2.2.1 = some p then (r.1, r.2.1, r.2.2.1, none, r.2.2.2.2) else r) }

/-- A write of FDE_RCMD (R110): NOHOST and INVALID are decided at once, anything else is taken on the next tick. -/
def State.rcmd (s : State) (p : Path) (cmd plate : Nat) : State :=
  let stat (c : Nat) : State :=
    (s.modFde (fun d => d.forget p)).modPath p (fun h => { h with rstat := BitVec.ofNat 16 c })
  let mask := s.fld F.FDE_RMASK_LAMPS
  let ms := s.fld F.FDE_RMS_MS
  if cmd = 0 then s
  else if p = .host ∧ !s.flag F.SYS_MODE_HOST then stat 6
  else if mask = 0 ∨ ((cmd = 2 ∨ cmd = 5) ∧ 999 < ms) then stat 5
  else
    let r := stat 1
    let t := (s.reg R.FDE_RT).toNat
    let start : StartAt :=
      if cmd = 2 ∨ cmd = 5 then .instant (instantMs (s.pair R.FDE_RTIME_LO) ms)
      else if cmd = 3 ∨ cmd = 6 then .evr else .now
    let hold := (s.reg R.FDE_RHOLD).toNat
    if cmd = 7 then r.releaseReq (pathLevel p) mask t (some p) none
    else if 4 ≤ cmd then
      r.request
        { lvl := pathLevel p, start := start, by_ := some p,
          plate := some { plate := plate, mask := mask, fade := if t = 65535 then none else some t, hold := hold } }
    else
      let q := valueReq (s.reg R.FDE_RB) (s.reg R.FDE_RC1) (s.reg R.FDE_RC2) t (s.reg R.FDE_RFLG) hold
      r.request { lvl := pathLevel p, start := start, by_ := some p, lamps := (maskLamps mask).map (fun l => (l, q)) }

/-! Plate writes (R93). -/

/-- The first failing word of a plate (R93). -/
def plateFail (ws : List Word) : Option Nat :=
  (List.range 8).findSome? (fun l =>
    let w (i : Nat) : Word := ws.getD (4 * l + i) 0
    if (w 1).getLsbD 8 then none
    else
      let c1 := getBits (w 1) 7 0 * 16 + getBits (w 2) 15 12
      let c2 := getBits (w 2) 11 0
      if (w 1).getLsbD 11 then (if 200 ≤ c1 ∧ c1 ≤ 4000 then none else some (4 * l + 1))
      else if 2560 ≤ c1 then some (4 * l + 1)
      else if c2 < 205 ∨ 2559 < c2 then some (4 * l + 2)
      else none)

/-- The end of a plate's entry (R93): queued for the commit buffer, or discarded with PLTERR. -/
def State.plateCheck (s : State) (p : Nat) (ws : List Word) : State :=
  match plateFail ws with
  | none => if s.vRoom 64 then s.vOperate (.plate p ws) else s.vRefuse 3
  | some i =>
    let r := s.setReg R.FDE_TERR 0x9001
    let r := r.setReg R.FDE_TERRA (BitVec.ofNat 16 (32 * p + i))
    (r.fdeStick F.FDE_STAT_PLTERR F.FDE_IRQEN_PLTERR).post 9 7 p

/-- A write of word `a` of the plate table, SYS_UNLOCK being open (R93). -/
def State.plateWrite (s : State) (a : Nat) (v : Word) : State :=
  let p := a / 32
  let ws := match s.fde.pltBuf with
    | some (q, l) => if q = p then l else s.plateWords p
    | none => s.plateWords p
  let ws := ws.set (a % 32) v
  if a % 32 = 31 then (s.modFde (fun d => { d with pltBuf := none })).plateCheck p ws
  else s.modFde (fun d => { d with pltBuf := some (p, ws) })

/-! The table group (R107, R108). -/

/-- The lowest check code that word `a` of a table fails (R80, R107). R94 calls TO the last day index and gives 0 no
meaning: it passes, as a TO below any FROM (DESIGN CHOICE, log entry 61). -/
def fdeWordFail (t : List (Nat × Word)) (ts a : Nat) : Option Nat :=
  let w := (fdeAt t ts a).toNat
  match ts with
  | 0 =>
    let j := a % 257
    if a < 771 then none
    else if 1 ≤ j ∧ w < (fdeAt t 0 (a - 1)).toNat then some 1
    else if (j = 0 ∧ w ≠ 0) ∨ (j = 256 ∧ w ≠ 0xFFFF) then some 2
    else none
  | 2 =>
    let v := fdeAt t 2 a
    match a % 8 with
    | 0 => if getBits v 14 13 = 3 ∨ getBits v 12 11 = 3 then some 3 else if getBits v 10 8 ≠ 0 then some 8 else none
    | 1 => if v.getLsbD 7 then some 8 else none
    | 2 =>
      let ok := if getBits (fdeAt t 2 (a - 2)) 14 13 = 0 then decide (w ≤ 1439)
        else decide (-720 ≤ signed 16 w) && decide (signed 16 w ≤ 720)
      if ok then none else some 3
    | 3 => if 366 < w % 512 then some 3 else if 512 ≤ w then some 8 else none
    | 4 => if 366 < w % 512 then some 3 else if 512 ≤ w then some 8 else none
    | 5 => none
    | _ => if w ≠ 0 then some 8 else none
  | 3 =>
    let v := fdeAt t 3 a
    match a % 8 with
    | 0 => if getBits v 14 13 = 3 then some 6 else if getBits v 12 8 ≠ 0 then some 8 else none
    | 7 => if w ≠ 0 then some 8 else none
    | _ => none
  | 4 => if 1439 < w ∨ (a % 2 = 1 ∧ w ≤ (fdeAt t 4 (a - 1)).toNat) then some 4 else none
  | 5 => if 366 < w then some 5 else none
  | 6 => if 3 < w / 4096 then some 7 else if w / 256 % 16 ≠ 0 then some 8 else none
  | _ => none

/-- The first failure of the edit copy: code, table, address (R54, R107). -/
def fdeFail (t : List (Nat × Word)) : Option (Nat × Nat × Nat) :=
  [0, 2, 3, 4, 5, 6].findSome? (fun ts =>
    (List.range (fdeLen ts)).findSome? (fun a => (fdeWordFail t ts a).map (fun c => (c, ts, a))))

/-- OPEN of page FDE (R107). -/
def State.fdeOpen (s : State) : State := (s.modFde (fun d => { d with edit := d.active })).setFlag F.FDE_STAT_EDIT true

/-- CLOSE of page FDE (R54, R107): a copy that fails waits for no swap, so the active tables stay in use. -/
def State.fdeClose (s : State) : State :=
  if !s.flag F.FDE_STAT_EDIT then s
  else match fdeFail s.fde.edit with
    | none => s.setFlag F.FDE_STAT_TABPEND true
    | some (c, ts, a) =>
      let r := (s.setFlag F.FDE_STAT_TABPEND false).setReg R.FDE_TERR (BitVec.ofNat 16 (c * 4096 + ts))
      let r := r.setReg R.FDE_TERRA (BitVec.ofNat 16 a)
      (r.fdeStick F.FDE_STAT_TABERR F.FDE_IRQEN_TABERR).post 9 6 (c * 4096 + ts)

/-- A fade keeps the values of its contour over a swap (R108). -/
def keepContour (t : List (Nat × Word)) (f : Fade) : Fade :=
  if f.k < 3 ∨ f.old.isSome ∨ f.dur ≤ f.n then f else { f with old := some (contourOf t f.k) }

/-- The fade engine's lamps keep their contours (R108). -/
def FLamp.keepContours (t : List (Nat × Word)) (l : FLamp) : FLamp :=
  { l with
    slots := l.slots.map (fun o => o.map (fun x => { x with fade := keepContour t x.fade })),
    xf := l.xf.map (keepContour t) }

/-- The swap of a checked table group at the start of a tick (R108): schedule replay runs on that tick. -/
def State.fdeSwap (s : State) : State :=
  if s.flag F.FDE_STAT_TABPEND then
    let t := s.modFde (fun d =>
      { d with lamps := d.lamps.map (FLamp.keepContours d.active), active := d.edit, replay := true })
    (t.setFlag F.FDE_STAT_EDIT false).setFlag F.FDE_STAT_TABPEND false
  else s

/-! Local time, days and schedules (R94 to R97). -/

/-- The local minute number of the present (R337). -/
def State.localMinute (s : State) : Int :=
  ((secOf s.tim.now : Int) + 60 * signed 16 (s.reg R.TIM_OFFSET).toNat) / 60

/-- The days before month m of a leap year, m from 0. -/
def monthStart (m : Nat) : Nat := [0, 31, 60, 91, 121, 152, 182, 213, 244, 274, 305, 335, 366].getD m 366

/-- Years since 2000 and the day in the year from 0, of a day number from 2000-01-01. -/
def yearOf (d : Nat) : Nat × Nat :=
  let c := d / 146097
  let r := d % 146097
  -- the first century of each 400 years begins with a leap year; the others do not
  let (h, q) := if r < 36525 then (0, r) else ((r - 36525) / 36524 + 1, (r - 36525) % 36524)
  let long := decide (h = 0)
  let (b, z) :=
    if long then (q / 1461, q % 1461)
    else if q < 1460 then (0, q) else ((q - 1460) / 1461 + 1, (q - 1460) % 1461)
  let leap := long || decide (1 ≤ b)
  let (y, n) := if leap then (if z < 366 then (0, z) else ((z - 366) / 365 + 1, (z - 366) % 365)) else (z / 365, z % 365)
  (400 * c + 100 * h + 4 * b + y, n)

/-- A year after 2000 is a leap year. -/
def leapYear (y : Nat) : Bool := y % 4 == 0 && (y % 100 != 0 || y % 400 == 0)

/-- The day index of a day number from 2000-01-01: dates numbered as in a leap year (*Schedules*). -/
def dayIndex (d : Nat) : Nat :=
  let (y, n) := yearOf d
  if leapYear y ∨ n < 59 then n + 1 else n + 2

/-- The weekday, 0 Monday: 2000-01-01 is a Saturday. -/
def weekday (d : Nat) : Nat := (d + 5) % 7

/-- The fire minute of schedule entry `e` on a day, if it fires then (R94, R95). FROM = 0 is no limit whatever TO holds
(DESIGN CHOICE, log entry 59); TO = 0 under another FROM spans the year end like any TO below FROM (DESIGN CHOICE, log
entry 61). -/
def fireMinute (t : List (Nat × Word)) (e d : Nat) : Option Nat :=
  let w (i : Nat) : Word := fdeAt t 2 (8 * e + i)
  let di := dayIndex d
  let hol := (List.range 32).any (fun i => (fdeAt t 5 i).toNat == di)
  let base := getBits (w 0) 14 13
  let dayOk : Bool := match getBits (w 0) 12 11 with
    | 0 => (w 1).getLsbD (weekday d)
    | 1 => (w 1).getLsbD (weekday d) && !hol
    | 2 => hol
    | _ => false
  let from_ := getBits (w 3) 8 0
  let to_ := getBits (w 4) 8 0
  let inRange := decide (from_ = 0) ||
    (if from_ ≤ to_ then decide (from_ ≤ di) && decide (di ≤ to_) else decide (from_ ≤ di) || decide (di ≤ to_))
  let m : Int :=
    if base = 0 then ((w 2).toNat : Int)
    else ((fdeAt t 4 (2 * (di - 1) + base - 1)).toNat : Int) + signed 16 (w 2).toNat
  if (w 0).getLsbD 15 ∧ dayOk ∧ inRange ∧ base ≠ 3 ∧ 0 ≤ m ∧ m ≤ 1439 then some m.toNat else none

/-- The plate of schedule entry `e` for a lamp mask (R94). -/
def State.entryPlate (s : State) (e mask : Nat) : PlateRef :=
  let f := (fdeAt s.fde.active 2 (8 * e + 5)).toNat
  { plate := getBits (fdeAt s.fde.active 2 (8 * e)) 7 0, mask := mask, fade := if f = 65535 then none else some f }

/-- The lamps that schedule entry `e` writes (R92, R94). -/
def State.entryReqs (s : State) (e mask : Nat) : List (Nat × LampReq) :=
  s.reqLamps { plate := some (s.entryPlate e mask) }

/-- Local minute `m` is evaluated (R95): each entry that fires then applies its plate at level 1. -/
def State.minuteEval (s : State) (m : Int) : State :=
  if s.flag F.FDE_CTL_SCHEN ∧ 0 ≤ m then
    let d := m.toNat / 1440
    (List.range 128).foldl (fun t e =>
      if fireMinute s.fde.active e d = some (m.toNat % 1440) then
        t.request { lvl := 1, plate := some (t.entryPlate e (getBits (fdeAt s.fde.active 2 (8 * e + 1)) 15 8)) }
      else t) s
  else s

/-- Minutes `m` on, `n` of them. -/
def State.minutesEval (s : State) (m : Int) : Nat → State
  | 0 => s
  | n + 1 => State.minutesEval (s.minuteEval m) (m + 1) n

/-- Every local minute not yet evaluated up to the present one (R95, R334); none while TVALID = 0, nor where replay
follows on the next tick (R96), as it does while no minute has been evaluated. -/
def State.minutesDue (s : State) : State :=
  if !s.flag F.FDE_STAT_TVALID ∨ s.tim.jump ∨ s.fde.replay then s
  else
    let cur := s.localMinute
    match s.fde.minute with
    | none => s
    | some last =>
      if last < cur then (s.minutesEval (last + 1) (cur - last).toNat).modFde (fun d => { d with minute := some cur })
      else s

/-- The latest fire instant at or before the present of the entries that name lamp `l`, on the present day or the day
before, with its entry (R96). -/
def State.replayEntry (s : State) (l : Nat) : Option (Nat × Nat) :=
  let cur := s.localMinute.toNat
  let d := cur / 1440
  let days := if d = 0 then [0] else [d - 1, d]
  days.foldl (fun (b : Option (Nat × Nat)) day =>
    (List.range 128).foldl (fun (b : Option (Nat × Nat)) e =>
      if (fdeAt s.fde.active 2 (8 * e + 1)).getLsbD (8 + l) then
        match fireMinute s.fde.active e day, b with
        | some m, some (x, _) => if 1440 * day + m ≤ cur ∧ x ≤ 1440 * day + m then some (1440 * day + m, e) else b
        | some m, none => if 1440 * day + m ≤ cur then some (1440 * day + m, e) else b
        | none, _ => b
      else b) b) none

/-- Schedule replay (R96, R109). -/
def State.scheduleReplay (s : State) : State :=
  if !s.flag F.FDE_CTL_SCHEN then s
  else
    let rs := (List.range 8).flatMap (fun l =>
      match s.replayEntry l with
      | some (_, e) => s.entryReqs e (2 ^ l)
      | none => [])
    let t := s.post 9 5 rs.length
    if rs.isEmpty then t else t.request { lvl := 1, lamps := rs }

/-- FDE_STAT.TVALID sets while network time is valid (R89, R111). -/
def State.tvalidSet (s : State) : State := if s.timeValid then s.setFlag F.FDE_STAT_TVALID true else s

/-- The schedules' part of a tick: replay where it is due (R96), else the minutes that a jump passed over (R334). -/
def State.scheduleTick (s : State) : State :=
  let first := s.timeValid && s.fde.minute.isNone
  let s := s.tvalidSet
  let due := first || s.fde.replay || s.tim.jump
  let moved := s.tim.moved
  let s := s.modTim (fun m => { m with jump := false, moved := false })
  if !s.flag F.FDE_STAT_TVALID then s
  else if due then
    (s.modFde (fun d => { d with replay := false, minute := some s.localMinute })).scheduleReplay
  else if moved ∧ s.fde.minute.isSome then s.minutesDue
  else s

/-! Event rules (R98 to R100). -/

/-- The distance and the start instant of rule `r` for an event, where it fires (R99). -/
def State.ruleStart (s : State) (e : NetEvent) (r : Nat) : Option Nat :=
  let w (i : Nat) : Word := fdeAt s.fde.active 3 (8 * r + i)
  let me := (s.reg R.MAC_POS).toNat
  let d := if me < e.pos then e.pos - me else me - e.pos
  let dirOk : Bool := match getBits (w 0) 14 13 with
    | 0 => true
    | 1 => decide (e.pos < me)
    | 2 => decide (me < e.pos)
    | _ => false
  let range := (w 5).toNat
  if (w 0).getLsbD 15 ∧ getBits (w 0) 7 0 = e.typ ∧ dirOk ∧ (range = 0 ∨ d ≤ range) then
    let t0 := match e.at_ with
      | some t => if e.valid then t else e.rx
      | none => e.rx
    some ((t0 + (((w 2).toNat * 1000 + d * (w 3).toNat) * 2 ^ 72 + 999999) / 1000000) % 2 ^ 104)
  else none

/-- A rule that fires applies its plate at level 2 (R99); where its hold end has passed on arrival it does not, and LATE
sets. -/
def State.ruleFire (s : State) (e : NetEvent) (r : Nat) : State :=
  match s.ruleStart e r with
  | none => s
  | some t =>
    let w (i : Nat) : Word := fdeAt s.fde.active 3 (8 * r + i)
    let hold := (w 4).toNat
    let end_ := (t + fadeTicks hold * 2 ^ 72 / 1000) % 2 ^ 104
    let mask := getBits (w 1) 15 8
    let past (x : Nat) : Bool := decide (0 < (e.rx + 2 ^ 104 - x) % 2 ^ 104) &&
      decide ((e.rx + 2 ^ 104 - x) % 2 ^ 104 < 2 ^ 103)
    if hold ≠ 0 ∧ e.valid ∧ past end_ then
      (maskLamps mask).foldl (fun u l => u.fdeLstick l F.FDE_LSTAT_LATE) s
    else
      s.modFde (fun d =>
        { d with
          reqs := d.reqs ++ [{ lvl := 2, start := .instant t, late := e.valid && past t,
                               plate := some { plate := getBits (w 1) 7 0, mask := mask, hold := hold,
                                               rule := some r, since := some t } }] })

/-- The events that came since the last tick are tested on each rule (R295, R99), the rules in ascending index (R87). -/
def State.rulesTick (s : State) : State :=
  let es := s.fde.events
  let s := s.modFde (fun d => { d with events := [] })
  if !s.flag F.FDE_CTL_RULEN then s
  else (List.range 32).foldl (fun t r => es.foldl (fun u e => u.ruleFire e r) t) s

/-- The end of rule `r`'s hold (R100): the level-2 slots that still carry its tag are emptied with its REVERT word. -/
def State.ruleHoldEnd (s : State) (r : Nat) : State :=
  let w := (fdeAt s.fde.active 3 (8 * r + 6)).toNat
  let w := if w = 65535 then (s.reg R.FDE_REL).toNat else w
  (List.range 8).foldl (fun t l =>
    match (s.flamp l).slot 2 with
    | some x => if x.rule = some r ∧ x.holdOver then t.slotEmpty l 2 w else t
    | none => t) s

/-- The end of a slot's hold (R86). -/
def State.holdEnd (s : State) (l k : Nat) : State :=
  match (s.flamp l).slot k with
  | some x =>
    if !x.holdOver then s
    else
      let w := match x.rule with
        | some r => (fdeAt s.fde.active 3 (8 * r + 6)).toNat
        | none => 65535
      s.slotEmpty l k (if w = 65535 then (s.reg R.FDE_REL).toNat else w)
  | none => s

/-! Gestures and LOSS (R101, R102, R105). -/

/-- A completed gesture of `n` taps acts on GES_MAP (R101, R102, R109). -/
def State.gestureAct (s : State) (n : Nat) : State :=
  if 4 < n then s.post 9 4 n
  else if n = 0 ∨ !s.flag F.FDE_CTL_GESEN then s
  else
    let w := fdeAt s.fde.active 6 (n - 1)
    let code := getBits w 15 12
    let mask := s.fld F.FDE_GES_LAMPS
    let any6 := (maskLamps mask).any (fun l => ((s.flamp l).slot 6).isSome)
    let plate := s.request { lvl := 6, plate := some { plate := getBits w 7 0, mask := mask } }
    let empty := s.releaseReq 6 mask (s.reg R.FDE_REL).toNat none none
    match code with
    | 1 => plate.post 9 3 (n * 256 + 1)
    | 2 => empty.post 9 3 (n * 256 + 2)
    | 3 => (if any6 then empty else plate).post 9 3 (n * 256 + 3)
    | _ => s

/-- LOSS is entered (R105). -/
def State.lossEnter (s : State) : State :=
  let n := s.fld F.FDE_LOSS_LOSST
  if n ≠ 0 ∧ !s.isHead ∧ n ≤ (s.reg R.MAC_BSINCE).toNat ∧ !s.flag F.FDE_STAT_LOSS then
    let m := s.fld F.FDE_LOSSM_LAMPS
    let r := s.request { lvl := 7, plate := some { plate := s.fld F.FDE_LOSS_PLATE, mask := m } }
    let r := (r.modFde (fun d => { d with lossM := m })).setFlag F.FDE_STAT_LOSS true
    (r.fdeStick F.FDE_STAT_LOSSCH F.FDE_IRQEN_LOSSCH).post 9 1 m
  else s

/-- LOSS is left on the first valid beacon (R105). -/
def State.lossExit (s : State) : State :=
  if s.flag F.FDE_STAT_LOSS then
    let m := s.fde.lossM
    let r := s.modFde (fun d => { d with reqs := d.reqs.filter (fun q => q.lvl != 7) })
    let r := (r.releaseReq 7 m (s.reg R.FDE_REL).toNat none none).setFlag F.FDE_STAT_LOSS false
    (r.fdeStick F.FDE_STAT_LOSSCH F.FDE_IRQEN_LOSSCH).post 9 2 m
  else s

/-! Power-on (R103). -/

/-- The GES_HOLD of a level-6 slot has passed since the write at elapsed-time count `w` (R102, R103, R537). -/
def State.gesExpired (s : State) (w : Nat) : Bool :=
  let m := s.fld F.FDE_GES_HOLD
  decide (m ≠ 0) && decide (w + m * 60 * 2 ^ 48 ≤ s.keep.elapsed)

/-- Level 0 and the kept level-6 slots are written on the first tick after START (R103); `ret`: keep RAM area 2 was
retained; `short`: the interruption was shorter than a true off. A gesture that the interruption discarded is logged
(R101, R109). -/
def State.powerOn (s : State) (ret short : Bool) : State :=
  let s := if s.keep.dropped = 0 then s else (s.post 9 4 s.keep.dropped).modKeep (fun k => { k with dropped := 0 })
  let s := if s.flag F.FDE_PON_LAST ∧ ret then
      (List.range 8).foldl (fun t l =>
        let x := s.keep.fdeShown.getD l {}
        (t.slotWrite l 0 { b := x.b, c := x.c }).1) s
    else
      let rs := s.plateReqs { plate := s.fld F.FDE_PON_PLATE, mask := 0xFF }
      (List.range 8).foldl (fun t l =>
        let t := t.modFlamp l (fun y => { y with slots := y.slots.set 0 none, shown := { y.shown with b := 0 } })
        match rs.find? (fun e => e.1 == l) with
        | some e => (t.slotWrite l 0 e.2).1
        | none => (t.slotWrite l 0 {}).1) s
  let s := if short ∧ ret then
      (List.range 8).foldl (fun t l =>
        match s.keep.fdeL6.getD l none with
        | some x => if t.gesExpired x.wrote then t else t.modFlamp l (fun y => { y with slots := y.slots.set 6 (some x) })
        | none => t) s
    else s
  s.modFde (fun d => { d with level0 := true })

/-! The tick (R87). -/

/-- Step 1: releases (R87). -/
def State.tickReleases (s : State) : State :=
  let rs := s.fde.rels
  rs.foldl (fun t r =>
    let u := (maskLamps r.2.1).foldl (fun v l => v.slotEmpty l r.1 r.2.2.1) t
    u.answer r.2.2.2.1 r.2.2.2.2 2 0 false) (s.modFde (fun d => { d with rels := [] }))

/-- Step 2: pending fades that are due (R88, R89). One that is then refused sets FDE_LSTAT.OWNED; FDE_RSTAT keeps
PENDING, whether it is shown or refused (DESIGN CHOICE, log entry 59). -/
def State.tickPending (s : State) : State :=
  (List.range 8).foldl (fun t l =>
    match (t.flamp l).pend with
    | some (k, st, q) =>
      if (t.flamp l).due ∨ t.dueNow st then
        let u := t.modFlamp l (fun y => { y with pend := none, due := false })
        match u.startReq l q with
        | some r => (u.slotWrite l k r).1
        | none => u
      else t
    | none => t) s

/-- Step 3: new requests (R87). -/
def State.tickRequests (s : State) : State :=
  (sortReqs s.fde.reqs).foldl State.takeReq (s.modFde (fun d => { d with reqs := [] }))

/-- Steps 4 and 5 for lamp `l`: every slot's fade goes on by one tick, the winner is decided and evaluated, with the
cross-fade where one runs (R75, R82, R85). -/
def State.tickShow (s : State) (l : Nat) : State :=
  let s := s.modFlamp l (fun y =>
    { y with slots := y.slots.map (fun o => o.map (fun x => { x with fade := x.fade.next, age := x.age + 1 })), xf := y.xf.map Fade.next })
  let x := s.flamp l
  let (live, c, tb) := match x.slot x.win with
    | some y => (s.slotState y, s.fadeC y.fade, y.tgt.b)
    | none => (({ b := 0, c := x.shown.c } : Shown), (65535 : Rat), 0)
  let (live, c, xf) := match x.xf with
    | some f => if f.dur ≤ f.n then (live, c, none) else (mixShown f.start live (s.fadeC f), s.fadeC f, some f)
    | none => (live, c, none)
  let r := s.modFlamp l (fun y => { y with
    shown := live, xf := xf, was := y.slots.map (fun o => o.map (fun z => s.slotState z)) })
  (r.setReg (cell R.FDE_PROG l) (BitVec.ofNat 16 c.floor.toNat)).setReg (cell R.FDE_TGTB l) (BitVec.ofNat 16 tb)

/-- The shown states and the level-6 slots go into keep RAM (R104). -/
def State.keepShown (s : State) : State :=
  s.modKeep (fun k => { k with
    fdeShown := s.fde.lamps.map (fun x => x.shown.held), fdeL6 := s.fde.lamps.map (fun x => x.slot 6),
    bad := k.bad.filter (fun a => a != 2) })

/-- The fade engine's part of a tick after the table swaps: schedules, rules, steps 1 to 5, keep RAM (R87, R104). -/
def State.fdeTick (s : State) : State :=
  let s := s.scheduleTick.rulesTick
  let s := s.tickReleases.tickPending.tickRequests
  let s := (List.range 8).foldl State.tickShow s
  s.keepShown

/-! Live registers (R111). -/

/-- FDE_OWN of lamp `l`. -/
def State.fdeOwn (s : State) (l : Nat) : Word :=
  let x := s.flamp l
  let held := (List.range 8).foldl (fun a k => if (x.slot k).isSome then a + 2 ^ (8 + k) else a) 0
  BitVec.ofNat 16 (held + x.win)

/-- FDE_LSTAT of lamp `l` with its live bits. -/
def State.fdeLstat (s : State) (l : Nat) : Word :=
  let x := s.flamp l
  let fading := match x.slot x.win with
    | some y => decide (y.fade.n < y.fade.dur)
    | none => false
  let b (c : Bool) (n : Nat) : Word := if c then BitVec.ofNat 16 (2 ^ n) else 0
  (s.reg (R.FDE_LSTAT + l) &&& 7) ||| b x.pend.isSome 10 ||| b x.xf.isSome 9 ||| b fading 8

/-- FDE_STAT with TVALID live (R111). -/
def State.fdeStat (s : State) : Word := s.tvalidSet.reg R.FDE_STAT

/-- FDE_TODAY, FDE_SUNR and FDE_SUNS: 0 while TVALID = 0 (R111). -/
def State.fdeToday (s : State) : Word :=
  if s.tvalidSet.flag F.FDE_STAT_TVALID then
    let d := s.localMinute.toNat / 1440
    BitVec.ofNat 16 (weekday d * 8192 + dayIndex d)
  else 0

def State.fdeSun (s : State) (i : Nat) : Word :=
  if s.tvalidSet.flag F.FDE_STAT_TVALID then
    fdeAt s.fde.active 4 (2 * (dayIndex (s.localMinute.toNat / 1440) - 1) + i) &&& 0x07FF
  else 0

/-! Commands of the fade engine. -/

/-- SCHEDULE_MINUTE (R95). -/
def execScheduleMinute (s : State) : Host.Outcome State Fault Refusal := done s.minutesDue

/-- TIMED_START_DUE (R89): the instant of lamp `l`'s pending request has come; it starts on the next tick. -/
def execTimedStartDue (l : Fin 8) (s : State) : Host.Outcome State Fault Refusal :=
  done (match (s.flamp l).pend with
    | some (_, .instant i, _) => if s.dueNow (.instant i) then s.modFlamp l (fun y => { y with due := true }) else s
    | _ => s)

/-- SLOT_HOLD_EXPIRY (R86). -/
def execSlotHoldExpiry (l lvl : Fin 8) (s : State) : Host.Outcome State Fault Refusal := done (s.holdEnd l lvl)

/-- RULE_HOLD_END (R100). -/
def execRuleHoldEnd (r : Fin 32) (s : State) : Host.Outcome State Fault Refusal := done (s.ruleHoldEnd r)

/-- GESTURE_HOLD_EXPIRY (R102): GES_HOLD minutes after lamp `l`'s level-6 slot was written. -/
def execGestureHoldExpiry (l : Fin 8) (s : State) : Host.Outcome State Fault Refusal :=
  done (match (s.flamp l).slot 6 with
    | some x => if s.gesExpired x.wrote then s.slotEmpty l 6 (s.reg R.FDE_REL).toNat else s
    | none => s)

/-- LOSS_ENTRY (R105). -/
def execLossEntry (s : State) : Host.Outcome State Fault Refusal := done s.lossEnter

/-- FDE_RCMD_APPLY (R110). -/
def execFdeRcmdApply (p : Path) (s : State) : Host.Outcome State Fault Refusal := done (s.onWrite p (fun t => t.rcmd p 1 0))

/-- FDE_RCMD_APPLY_AT (R110). -/
def execFdeRcmdApplyAt (p : Path) (s : State) : Host.Outcome State Fault Refusal := done (s.onWrite p (fun t => t.rcmd p 2 0))

/-- FDE_RCMD_APPLY_EVR (R110). -/
def execFdeRcmdApplyEvr (p : Path) (s : State) : Host.Outcome State Fault Refusal :=
  done (s.onWrite p (fun t => t.rcmd p 3 0))

/-- FDE_RCMD_PLATE (R110). -/
def execFdeRcmdPlate (p : Path) (plate : Byte) (s : State) : Host.Outcome State Fault Refusal :=
  done (s.onWrite p (fun t => t.rcmd p 4 plate.toNat))

/-- FDE_RCMD_PLATE_AT (R110). -/
def execFdeRcmdPlateAt (p : Path) (plate : Byte) (s : State) : Host.Outcome State Fault Refusal :=
  done (s.onWrite p (fun t => t.rcmd p 5 plate.toNat))

/-- FDE_RCMD_PLATE_EVR (R110). -/
def execFdeRcmdPlateEvr (p : Path) (plate : Byte) (s : State) : Host.Outcome State Fault Refusal :=
  done (s.onWrite p (fun t => t.rcmd p 6 plate.toNat))

/-- FDE_RCMD_RELEASE (R110). -/
def execFdeRcmdRelease (p : Path) (s : State) : Host.Outcome State Fault Refusal := done (s.onWrite p (fun t => t.rcmd p 7 0))

/-- FDE_TAB_OPEN (R107). -/
def execFdeTabOpen (p : Path) (s : State) : Host.Outcome State Fault Refusal :=
  done (s.onWrite p (fun t => if t.unlocked p then t.fdeOpen else t))

/-- FDE_TAB_CLOSE (R107). -/
def execFdeTabClose (p : Path) (s : State) : Host.Outcome State Fault Refusal :=
  done (s.onWrite p (fun t => if t.unlocked p then t.fdeClose else t))

/-- LMP_MAP_WRITE (R48). -/
def execLmpMapWrite (p : Path) (v : Word) (s : State) : Host.Outcome State Fault Refusal :=
  done (s.onWrite p (fun t => if t.unlocked p then t.lmpMapWrite (t.fld F.LMP_SEL_LAMP) v else t))

/-- LMP_CFG_WRITE (R48). -/
def execLmpCfgWrite (p : Path) (v : Word) (s : State) : Host.Outcome State Fault Refusal :=
  done (s.onWrite p (fun t => if t.unlocked p then t.lmpCfgWrite (t.fld F.LMP_SEL_LAMP) v else t))

/-- LMP_TAB_OPEN (R53). -/
def execLmpTabOpen (p : Path) (s : State) : Host.Outcome State Fault Refusal :=
  done (s.onWrite p (fun t => if t.unlocked p then t.lmpOpen else t))

/-- LMP_TAB_CLOSE (R54). -/
def execLmpTabClose (p : Path) (s : State) : Host.Outcome State Fault Refusal :=
  done (s.onWrite p (fun t => if t.unlocked p then t.lmpClose else t))

end Sys2Proof.Machine
end

