-- ==== Sys2Proof/Machine/Hlt.lean ====
section
/-! DEFINITION. The health analyser and metering (R179 to R213): holds and conversions, rounds, string models and proof
runs, failure classes, maintenance and energy. -/

namespace Sys2Proof.Machine

/-- A sticky HLT_STAT bit (R212). -/
def State.hltStick (s : State) (f : Fld) : State := s.stick R.HLT_STAT R.HLT_IRQEN irqHlt f.mask

/-- The survey converter is clocked: in LIT with its gate open (R184, R381, R398). -/
def State.surveyClk (s : State) : Bool :=
  decide (4 ≤ s.pwr.boot) && (s.fld F.SYS_MODE_STATE != 2 || s.flag F.CLK_GATE_SLP_HLT)

/-- The converter runs: clocked, and not stopped by hold (R39, R184). -/
def State.hltOn (s : State) : Bool := s.surveyClk && !(s.holdActive && s.flag F.HOLD_CTL_SRV)

/-! Tables (R213). -/

/-- The F table of R207, 0.4 eV referred to 25 degC, in units of 1/256, from -30 degC on (R536). -/
def stressTable : List Nat := [8, 16, 32, 62, 112, 196, 331, 540, 854, 1314, 1972, 2892, 4154, 5851, 8095, 11017]

/-- The defaults of R536. -/
def hltDefault (a : Nat) : Word := if a < 16 then BitVec.ofNat 16 (stressTable.getD a 0) else 0

/-- The words of the table. -/
def hltWords : Nat := 32

/-- The check code that word `a` of an edit copy fails. -/
def hltWordFail (t : List (Nat × Word)) (a : Nat) : Option Nat :=
  let w := (spGet hltDefault t a).toNat
  if a < 16 then
    if w = 0 ∨ (1 ≤ a ∧ w < (spGet hltDefault t (a - 1)).toNat) then some 1 else none
  else if 64 ≤ w then some 2
  else none

/-- OPEN of page HLT (R213, R53). -/
def State.hltOpen (s : State) : State := (s.modHlt (fun h => { h with edit := h.active })).setFlag F.HLT_STAT_EDIT true

/-- CLOSE of page HLT (R213, R54). -/
def State.hltClose (s : State) : State :=
  if !s.flag F.HLT_STAT_EDIT then s
  else match (List.range hltWords).findSome? (fun a => (hltWordFail s.hlt.edit a).map (fun c => (c, a))) with
    | none => s.setFlag F.HLT_STAT_TABPEND true
    | some (c, a) =>
      ((s.setReg R.HLT_TERR (BitVec.ofNat 16 (c * 4096 + a))).setFlag F.HLT_STAT_TABPEND false).hltStick
        F.HLT_STAT_TABERR

/-- The swap of a checked table at the start of a round (R213). -/
def State.hltSwap (s : State) : State :=
  if s.flag F.HLT_STAT_TABPEND then
    ((s.modHlt (fun h => { h with active := h.edit })).setFlag F.HLT_STAT_EDIT false).setFlag F.HLT_STAT_TABPEND false
  else s

/-! Arithmetic. -/

/-- ln 2 in units of 2^-60. -/
def ln2c : Nat := 799144290325165979

/-- The natural logarithm of num / den, both not 0, in units of 2^-60 from a 32-bit binary logarithm. -/
def lnFix (num den : Nat) : Int :=
  let k : Int := (Nat.log2 num : Int) - Nat.log2 den
  let (a, b) := if 0 ≤ k then (num, den * 2 ^ k.toNat) else (num * 2 ^ (-k).toNat, den)
  let (a, k) := if a < b then (2 * a, k - 1) else (a, k)
  let m := a * 4294967296 / b
  (k * 4294967296 + log2Bits 32 m 0) * ln2c / 4294967296

/-- 2^-(e / 2^32) in units of 2^-60, by square roots of 1/2. -/
def exp2Neg (e : Nat) : Nat :=
  let f := e % 4294967296
  let x := (List.range 32).foldl (fun (acc : Nat × Nat) i =>
    let r := isqrt (acc.1 * 2 ^ 60)
    (r, if f.testBit (31 - i) then acc.2 * r / 2 ^ 60 else acc.2)) (2 ^ 59, 2 ^ 60)
  x.2 / 2 ^ (e / 4294967296)

/-- 0.7^(h / l) in units of 2^-16, to the nearest (R206). -/
def maintOf (h l : Nat) : Nat :=
  -- log2 (10 / 7) in units of 2^-32
  let e := h * 2210074949 / (if l = 0 then 1 else l)
  (exp2Neg e + 2 ^ 43) / 2 ^ 44

/-- The temperature of a thermistor code `x` of 2^-14 in 1/16 degC (R188), or none where R188 gives no value: a divisor or a
logarithm of 0. -/
def ntcTemp (x k b : Nat) : Option Int :=
  if k = 0 ∨ b = 0 ∨ x = 0 ∨ 16384 ≤ x then none
  else
    let l := lnFix (k * x) (4096 * (16384 - x))
    -- 1/T in units of 2^-60 per kelvin
    let inv : Int := (2 ^ 60 : Nat) * 100 / 29815 + l / b
    if inv = 0 then none
    else some (divRound (16 * 100 * (2 ^ 60 : Nat) - 16 * 27315 * inv) (100 * inv))

/-! Temperatures (R189). -/

/-- The temperature of channel `n`, 1/16 degC. -/
def State.chanTemp (s : State) (n : Nat) : Int :=
  let g := s.groupOf n
  let src := if g = 8 then 7 else s.fld (F.LMP_CFG_NTC.at g)
  if src < 4 then signed 16 (s.reg (R.HLT_NTC0 + 64 * src)).toNat else signed 16 (s.reg R.HLT_TDIE).toNat

/-- Thermistor input `k` is in use (R188). -/
def State.ntcUsed (s : State) (k : Nat) : Bool :=
  (List.range 8).any (fun l => s.fld (F.LMP_CFG_KIND.at l) != 0 && s.fld (F.LMP_CFG_NTC.at l) == k)

/-! Proof runs: where one is (R190 to R196). -/

/-- Channel `n` is in a proof slot. -/
def State.inSlot (s : State) (n : Nat) : Option Nat :=
  match (s.hchan n).run with
  | some r => if s.holdActive then none else r.slot
  | none => none

/-- The run of channel `n` is in the dark. -/
def State.darkRun (s : State) (n : Nat) : Bool :=
  match (s.hchan n).run with
  | some r => r.dark
  | none => false

/-- The amplitude of proof point `k` (R190). -/
def State.proofAmp (s : State) (k : Nat) : Nat := s.fld { F.HLT_PPT0_P with key := R.HLT_PPT0 + 64 * k }

/-- A run of channel `n` ends without being accepted: the model stays (R196). -/
def State.proofDrop (s : State) (n : Nat) : State :=
  ((s.modHchan n (fun h => { h with run := none })).setBit R.HLT_PRFACT n false).modChan n (fun c => { c with pk := 0 })

/-- A run of channel `n` is abandoned (R194, R196). -/
def State.proofAbandon (s : State) (n : Nat) : State :=
  if (s.hchan n).run.isSome then (s.proofDrop n).post 4 5 n else s

/-- Runs on channels with a latch or locked off are abandoned (R196). -/
def State.proofTrips (s : State) : State :=
  s.forChans (fun n t => if t.lat n ≠ 0 ∨ t.lockedOff n then t.proofAbandon n else t)

/-- Every run is abandoned: the node leaves LIT (R196). -/
def State.proofAllOff (s : State) : State := s.forChans (fun n t => t.proofAbandon n)

/-- The effective DRIVE of channel `n`. -/
def State.effDrive (s : State) (n : Nat) : Nat := s.pair (R.CUR_DRIVE_LO + n)

/-- A run starts. -/
def State.proofStart (s : State) (n : Nat) (dark : Bool) : State :=
  let r := s.modHchan n (fun h => { h with run := some { dark := dark, startAt := s.cyc } })
  (r.setBit R.HLT_PRFACT n true).setBit R.HLT_PRFDEF n false

/-- A run may start on channel `n`: none is in progress, no trip is latched, it is not locked off, and the points are in
order from CUR_FLOOR up (R196, R199, HLT_PPT0 to HLT_PPT3). -/
def State.proofMay (s : State) (n : Nat) : Bool :=
  let p (k : Nat) : Nat := s.proofAmp k
  (s.hchan n).run.isNone && s.lat n == 0 && !s.lockedOff n && decide (p 0 < p 1) && decide (p 1 < p 2) &&
    decide (p 2 < p 3) && decide (s.fld (F.CUR_FLOOR_FLOOR.at n) ≤ p 0)

/-- A proof run of channel `n` is requested (R195, R199): it starts, is deferred, or is ignored. -/
def State.proofRequest (s : State) (n : Nat) : State :=
  if !s.proofMay n then s
  else if s.litRun ∧ s.effDrive n ≠ 0 then s.proofStart n false
  else if s.flag F.HLT_PROOF_DARKOK then s.proofStart n true
  else if s.bit R.HLT_PRFDEF n then s
  else (s.setBit R.HLT_PRFDEF n true).post 4 6 n

/-- The first entry to LIT-RUN requests a run for each channel with no model (R199). -/
def State.proofFirst (s : State) : State :=
  if s.hlt.litSeen then s
  else
    (s.modHlt (fun h => { h with litSeen := true })).forChans (fun n t =>
      if t.flag (F.HLT_MDL_VALID.at n) then t else t.proofRequest n)

/-! Holds (R180, R181). -/

/-- The re-arming instants of a round that have come, at `rate` a round. -/
def State.armsDue (s : State) (rate : Nat) : Nat := min rate ((s.cyc - s.hlt.roundAt) * rate / 61440 + 1)

/-- The period of channel `n` may be captured (R180). -/
def State.mayCapture (s : State) (n : Nat) : Bool :=
  let c := s.chan n
  s.hltOn && s.litRun && s.timed n && !s.flag (F.PWM_STAT_GATED.at n) && !c.burn && !c.fin && !c.hurt

/-- A capture of channel `n` made now. -/
def State.capture (s : State) (n : Nat) (volt : Bool) : State :=
  let c := s.chan n
  s.modHlt (fun h =>
    { h with
      waiting := h.waiting ++
        [{ ch := n, volt := volt, at_ := s.cyc, amp := c.amp, thr := c.thr, per := c.per,
           trim := s.flag (F.CUR_CCFG_TRIMEN.at n) && !s.flag (F.PWM_CTL_MODE.at n), proof := (s.inSlot n).isSome }] })

/-- A hold of channel `n` captures where it is armed: in a slot in the last probe cycle (in the dark every cycle of the
dimming period is a probe cycle), otherwise at the re-arming
instants (R181, R191). -/
def State.holdCapture (s : State) (n : Nat) (volt : Bool) : State :=
  if !s.mayCapture n then s
  else if (s.inSlot n).isSome then
    if (s.chan n).probe then s.capture n volt else s
  else
    let rate := if volt then 8 else 8 * 2 ^ s.fld F.HLT_SCFG_CRATE
    let due := s.armsDue rate
    let used := if volt then (s.hchan n).armV else (s.hchan n).armI
    if used < due then
      (s.modHchan n (fun h => if volt then { h with armV := due } else { h with armI := due })).capture n volt
    else s

/-- CURRENT_HOLD_CAPTURE (R154, R180): the count is at mid on-time, in a period in which HG rose after an earlier one; once
a period. -/
def State.currentCapture (s : State) (n : Nat) : State :=
  let c := s.chan n
  match c.midOn with
  | some t =>
    if s.ticking n ∧ s.reach n t then (s.modChan n (fun c => { c.goto t with cap := true })).holdCapture n false else s
  | none => s

/-- What the captures of channel `n` must know of the period that ends (R155, R156). -/
def Capture.close (c : Chan) (n : Nat) (x : Capture) : Capture :=
  if x.ch = n ∧ !x.past then
    { x with past := true, ended := c.ended, ton := c.tOn, td := if c.zcd then some c.td else none, per := c.per }
  else x

/-! Conversions (R182, R183). -/

/-- A corrected result: the raw one less the offset, times the gain (R182). -/
def HltState.correct (h : HltState) (x : Int) : Int := divRound ((16 * x - h.offset) * h.gain) (16 * 1048576)

/-- A calibration slot converts zero or the reference (R182). The error is compared in units of 2^-24 codes. -/
def State.calibrate (s : State) (raw : BitVec 14) : State :=
  if !s.hlt.nextRef then
    let s := s.modHlt (fun h => { h with nextRef := true })
    if s.flag F.HLT_STAT_CALFRZ then s
    else
      s.modHlt (fun h =>
        let zs := (signed 14 raw.toNat :: h.zeros).take 16
        { h with zeros := zs, offset := divRound (16 * zs.sum) zs.length })
  else
    let s := s.modHlt (fun h => { h with nextRef := false })
    let x : Int := 16 * (raw.toNat : Int) - s.hlt.offset
    let nom : Int := Config.vrefCode * (16 * 1048576)
    let off : Nat := (x * s.hlt.gain - nom).natAbs
    let frozen := s.flag F.HLT_STAT_CALFRZ
    if 2 * nom < 100 * off ∨ x ≤ 0 then
      if frozen then s.hltStick F.HLT_STAT_CALERR
      else
        ((s.setFlag F.HLT_STAT_CALFRZ true).hltStick F.HLT_STAT_CALERR).post 4 8
          (if nom = 0 then 0 else (divRound (1000 * off) nom.toNat).toNat)
    else if frozen ∧ nom < 100 * off then s
    else
      let s := if frozen then (s.setFlag F.HLT_STAT_CALFRZ false).setFlag F.HLT_STAT_CALERR false else s
      let g : Nat := (divRound nom x).toNat
      s.modHlt (fun h =>
        let gs := (g :: h.refs).take 16
        { h with refs := gs, gain := (2 * gs.sum + gs.length) / (2 * gs.length) })

/-- A current capture whose period has ended is delivered to the trim and the analyser (R155, R181, R187, R202). -/
def State.deliverI (s : State) (f : Capture) (code : Int) : State :=
  let x := f
  let n := x.ch
  let avg : Int := match f.td with
    | some td => divRound (256 * code * ((f.ton + td : Nat) : Int)) (f.per + 1 : Nat)
    | none => 256 * code
  let slope := s.fld (F.CUR_SLOPE_S.at n)
  let vth : Int := max 0 (divRound (x.thr * 100000 : Nat) 4096 - divRound (slope * 500 * f.ton * 100 : Nat) 24576)
  let rho : Option Nat :=
    if f.ended = 2 ∧ 1024 ≤ x.amp ∧ 0 < avg then some (divRound (vth * 1048576 * 256 * 1000) (avg * 15625)).toNat
    else none
  let r := s.modHchan n (fun h =>
    let h := { h with nI := h.nI + 1, sumI := h.sumI + avg, aSum := h.aSum + x.amp }
    match rho with
    | some q => { h with rho := h.rho + q, nRho := h.nRho + 1 }
    | none => h)
  if x.proof then
    r.modHchan n (fun h => { h with
      run := h.run.map (fun p =>
      { p with
        now := { p.now with
        nI := p.now.nI + 1, sumI := p.now.sumI + avg,
        rho := p.now.rho + rho.getD 0, nRho := p.now.nRho + (if rho.isSome then 1 else 0) } }) })
  else r.trimUpdate n avg x.amp (f.ended == 3 || !f.trim)

/-- A voltage capture is delivered to the analyser (R187). -/
def State.deliverV (s : State) (x : Capture) (code : Int) : State :=
  s.modHchan x.ch (fun h =>
    let h := { h with nV := h.nV + 1, sumV := h.sumV + code.toNat }
    if x.proof then
      { h with run := h.run.map (fun p => { p with
        now := { p.now with
        nV := p.now.nV + 1, sumV := p.now.sumV + code.toNat } }) }
    else h)

/-- The captures of channel `n` take the facts of the period that ends, and those that are converted are delivered. -/
def State.capturesClose (s : State) (n : Nat) : State :=
  let c := s.chan n
  let done := s.hlt.held.filter (fun x => x.ch == n)
  let s := s.modHlt (fun h =>
    { h with waiting := h.waiting.map (Capture.close c n), held := h.held.filter (fun x => x.ch != n) })
  done.foldl (fun t x => t.deliverI (Capture.close c n x) (x.code.getD 0)) s

/-- The analyser's account of the period of channel `n` that ends (R187, R203). -/
def State.hltPeriodEnd (s : State) (n : Nat) : State :=
  let c := s.chan n
  let on := if !(c.rose || c.entered) then 0 else if c.hg then (c.cnt + 1 - c.hgOn).toNat else c.tOn
  let live := c.run && !s.flag (F.PWM_STAT_GATED.at n)
  let s := s.capturesClose n
  if !live then s.modHchan n (fun h => { h with lastOn := none })
  else
    s.modHchan n (fun h =>
      let h := { h with
        onSum := h.onSum + on, nOn := h.nOn + 1, duty := h.duty + on * 1048576 / (c.per + 1),
        dhl := h.dhl + s.fld (F.PWM_DTMEAS_DTHL.at n), dlh := h.dlh + s.fld (F.PWM_DTMEAS_DTLH.at n), nDt := h.nDt + 1 }
      if c.burn then { h with lastOn := none }
      else match h.lastOn with
        | some u => { h with lastOn := some on, altSum := h.altSum + (on - u) + (u - on), nAlt := h.nAlt + 1 }
        | none => { h with lastOn := some on })

/-- The input of place `k` of the round schedule (R183). -/
def schedInput (k : Nat) : Nat :=
  if k < 16 then 0x20 + k else if k < 20 then 0x30 + (k - 16) else if k < 28 then 0x36 + (k - 20)
  else 0x34 + (k - 28) % 2

/-- The result of an input's raw code: signed inputs in two's complement (R179), corrected. -/
def State.resultOf (s : State) (input : Nat) (raw : BitVec 14) : Int :=
  let sg := decide (input < 0x10) || decide (input = 0x35) || decide (input = 0x39) || decide (input = 0x3E)
  s.hlt.correct (if sg then signed 14 raw.toNat else (raw.toNat : Int))

/-- A round schedule result is delivered. -/
def State.deliverSched (s : State) (input : Nat) (v : Int) : State :=
  if input < 0x30 then s.modHchan (input - 0x20) (fun h => { h with bst := some v.toNat })
  else if input < 0x34 then s.modHlt (fun h => { h with ntcRes := h.ntcRes.set (input - 0x30) (some v.toNat) })
  else if input = 0x34 then s.modHlt (fun h => { h with vlsns := v.toNat })
  else if input = 0x35 then s.modHlt (fun h => { h with link := h.link + h.vlsns * v, pairs := h.pairs + 1 })
  else if input = 0x36 then s.modHlt (fun h => { h with vauxRes := some v.toNat })
  else if input = 0x39 then s.modHlt (fun h => { h with dieRes := some v })
  else if input = 0x3C then (s.setReg R.KEEP_VSTORE (BitVec.ofNat 16 (v.toNat / 2))).keepLive
  else if input = 0x3D then (s.setReg R.KEEP_VCELL (BitVec.ofNat 16 (v.toNat / 2))).keepLive
  else s

/-- Microseconds since the round began, 0 to 1023 (R186). -/
def State.roundUs (s : State) : Nat := min 1023 ((s.cyc - s.hlt.roundAt) * 100 / 6144)

/-- A word is pushed into ring Q7, or dropped with Q7OVF (R186). -/
def State.pushQ7 (s : State) (w : Nat) : State :=
  if s.q7.length < 256 then { s with q7 := s.q7 ++ [w] }.irq (irqRing 7) else s.hltStick F.HLT_STAT_Q7OVF

/-- One converter slot completes (R183): calibration in slot 63 of 64, else the first that waits of captures, user
sequence and round schedule. -/
def State.conversion (s : State) (raw : BitVec 14) : State :=
  let m := s.hlt.slot
  let r := s.modHlt (fun h => { h with slot := m + 1 })
  if m % 64 = 63 then r.calibrate raw
  else match s.hlt.waiting with
    | x :: l =>
      let r := r.modHlt (fun h => { h with waiting := l })
      if x.volt then r.deliverV x (s.resultOf (0x10 + x.ch) raw)
      else
        let v := s.resultOf x.ch raw
        if x.past then r.deliverI x v else r.modHlt (fun h => { h with held := h.held ++ [{ x with code := some v }] })
    | [] =>
      match s.hlt.user with
      | i :: l =>
        let c := (s.resultOf i raw % 16384).toNat
        let w := (if s.hlt.made = 0 then 2 ^ 31 else 0) + s.roundUs * 2 ^ 20 + i * 2 ^ 14 + c
        let r := r.modHlt (fun h => { h with user := l, made := h.made + 1, lastUs := w })
        if r.flag F.HLT_CTL_Q7AUTO then r.pushQ7 w else r
      | [] =>
        if s.hlt.due = 0 then r
        else
          let i := schedInput s.hlt.pos
          (r.modHlt (fun h => { h with due := h.due - 1, pos := (h.pos + 1) % 92 })).deliverSched i (s.resultOf i raw)

/-! The user sequence and ring Q7 (R185, R186). -/

/-- A start of the user sequence; while it runs it is ignored and SOVR sets. -/
def State.userStart (s : State) : State :=
  if s.flag F.HLT_USCTL_BUSY then s.hltStick F.HLT_STAT_SOVR
  else if !s.hltOn then s
  else
    let l := (List.range (s.fld F.HLT_USCTL_LEN + 1)).map (fun i => (spGet hltDefault s.hlt.active (16 + i)).toNat % 64)
    (s.modHlt (fun h => { h with user := l, made := 0 })).setFlag F.HLT_USCTL_BUSY true

/-- The push of the latest user-sequence result (R186, destination 0x02). -/
def State.pushLatest (s : State) : State := s.pushQ7 s.hlt.lastUs

/-- The user sequence ends when its last input has been converted (R185, R186). -/
def State.userEnd (s : State) : State :=
  if s.flag F.HLT_USCTL_BUSY ∧ s.hlt.user.isEmpty then
    (s.setFlag F.HLT_USCTL_BUSY false).pulse 0x68
  else s

/-! Proof slots (R191 to R195). -/

/-- A proof slot of channel `n` starts at its point (R191). -/
def State.slotStart (s : State) (n : Nat) : State :=
  match (s.hchan n).run with
  | none => s
  | some r =>
    match r.slot, r.plan with
    | none, p :: l =>
      if s.holdActive then s
      else
        s.modHchan n (fun h => { h with
          run := some { r with
          slot := some p, plan := l, rounds := 8, periods := 0, unreach := 0, now := {} } })
    | _, _ => s

/-- The sum of what two measurements hold. -/
def ProofPoint.add (a b : ProofPoint) : ProofPoint :=
  { nI := a.nI + b.nI, sumI := a.sumI + b.sumI, nV := a.nV + b.nV, sumV := a.sumV + b.sumV,
    rho := a.rho + b.rho, nRho := a.nRho + b.nRho }

/-- A round of a slot ends; after 8 of them the slot ends: counted, or appended again where its point was unreachable in
more than half of its dimming periods (R194). -/
def ProofRun.round (t : Int) (r : ProofRun) : ProofRun :=
  match r.slot with
  | none => r
  | some p =>
    if 1 < r.rounds then { r with rounds := r.rounds - 1 }
    else if r.periods < 2 * r.unreach then { r with slot := none, rounds := 0, plan := r.plan ++ [p] }
    else
      { r with
               slot := none, rounds := 0, points := modNth r.points p (ProofPoint.add r.now), tSum := r.tSum + t,
               tN := r.tN + 1 }

/-- The efficacy of amplitude `a` on channel `n`, relative to 1 (R192). -/
def State.etaAmp (s : State) (n a : Nat) : Rat := rat (etaOf s.lmp.active n (a * 0xFFFFF / 4095)) / (32768 * 16777216)

/-- The residue R of R192 for j probe cycles at amplitude `p`. -/
def State.residue (s : State) (n : Nat) (q : Rat) (j p : Nat) : Rat := q - rat (j * p) * s.etaAmp n p

/-- The dimming-period start of channel `n` (R158 to R163), in a proof slot under R192. -/
def State.dimStart (s : State) (n m : Nat) : State :=
  let c := s.chan n
  let kp := if c.kFirst then kFormula (s.fld F.CUR_DPER_DPER) c.per else c.kCount
  let was := s.bit R.HLT_PRFDEF n
  let r := s.dimChannel n m none
  let r := r.modChan n (fun c => { c with pk := 0 })
  let r := if was ∧ r.effDrive n ≠ 0 ∧ r.proofMay n then r.proofStart n false else r
  match r.inSlot n with
  | none => r
  | some k =>
    let p := r.proofAmp k
    if r.darkRun n then
      (r.modHchan n (fun h => { h with run := h.run.map (fun x => { x with periods := x.periods + 1 }) })).modChan n
        (fun c => { c with openA := true, ampA := p, nk := 0, nf := 0, pk := kp, pa := p })
    else
      let fl := r.fld (F.CUR_FLOOR_FLOOR.at n)
      let x := splitDrive (r.effDrive n) fl kp m
      let q : Rat :=
        if x.openA then rat (kp * x.amp) * r.etaAmp n x.amp
        else rat (x.k * fl) * r.etaAmp n fl + rat x.af * r.etaAmp n x.af
      let top := max 1 (r.fld F.HLT_PROOF_PCYC)
      let ok (j : Nat) : Bool := decide (j ≤ kp) && decide (0 ≤ r.residue n q j p) &&
        decide (r.residue n q j p ≤ rat (4095 * (kp - j)))
      match ((List.range top).map (fun i => top - i)).find? ok with
      | none =>
        r.modHchan n (fun h => { h with
          run := h.run.map (fun y =>
          { y with periods := y.periods + 1, unreach := y.unreach + 1 }) })
      | some j =>
        let d := min 0xFFFFF (r.residue n q j p * 256 / rat (kp - j)).floor.toNat
        let y := splitDrive d fl (kp - j) m
        (r.modHchan n (fun h => { h with run := h.run.map (fun z => { z with periods := z.periods + 1 }) })).modChan n
          (fun c => { c with
                             pk := j, pa := p, openA := y.openA, ampA := y.amp,
                             nk := if y.regB then y.k else 0, nf := if y.regB then y.af else 0 })

/-! The end of a run (R197, R198). -/

/-- The mean current of a point in uA, and its mean voltage in uV. -/
def ProofPoint.pair (rs : Nat) (p : ProofPoint) : Int × Int :=
  (divRound (p.sumI * 156250) (256 * rs * p.nI : Nat), divRound (p.sumV * 4000 : Nat) p.nV)

/-- The least-squares line of four points: intercept in uV and slope in uohm (uV per A), by exact sums. -/
def fitLine (ps : List (Int × Int)) : Option (Rat × Rat) :=
  let n : Rat := rat ps.length
  let sx : Rat := ((ps.map (fun p => p.1)).sum : Int)
  let sy : Rat := ((ps.map (fun p => p.2)).sum : Int)
  let sxx : Rat := ((ps.map (fun p => p.1 * p.1)).sum : Int)
  let sxy : Rat := ((ps.map (fun p => p.1 * p.2)).sum : Int)
  let d := n * sxx - sx * sx
  if d = 0 then none
  else
    let b := (n * sxy - sx * sy) / d
    some ((sy - b * sx) / n, b)

/-- A rational to the nearest integer, halves up. -/
def ratRound (x : Rat) : Int := (x + 1 / 2).floor

/-- The payload of a MODEL record of channel `n`: V0, r, kT, HLT_MDL, and of the last accepted run its intercept and
temperature, its V0 and rho_ref, where there are any (R435 gives the layout to this chapter, which gives none). -/
def State.modelBytes (s : State) (n : Nat) : List Byte :=
  let h := s.hchan n
  let w (x : Int) : List Word := [BitVec.ofInt 16 x, BitVec.ofInt 16 (x / 65536)]
  let (a, t) := h.fitA.getD (0, 0)
  let has := (if h.fitA.isSome then 1 else 0) + (if h.fitV0.isSome then 2 else 0) + (if h.rhoRef.isSome then 4 else 0)
  wordsBytes ([s.reg (R.HLT_V0 + n), s.reg (R.HLT_R + n), s.reg (R.HLT_KT + n), s.reg (R.HLT_MDL + n),
    BitVec.ofNat 16 has] ++ w a ++ w t ++ w (h.fitV0.getD 0) ++ w (h.rhoRef.getD 0 : Nat))

/-- The four bytes of two words as a signed number, the low word first. -/
def wordsInt (ws : List Word) (i : Nat) : Int := signed 32 ((ws.getD i 0).toNat + 65536 * (ws.getD (i + 1) 0).toNat)

/-- A MODEL record of channel `n` taken: the model's registers, and what later runs need of the accepted one. -/
def State.modelTake (s : State) (n : Nat) (p : List Byte) : State :=
  let ws := bytesWords p
  let t := (s.setReg (cell R.HLT_V0 n) (ws.getD 0 0)).setReg (cell R.HLT_R n) (ws.getD 1 0)
  let t := (t.setReg (cell R.HLT_KT n) (ws.getD 2 0)).setReg (cell R.HLT_MDL n) (ws.getD 3 0)
  let has := ws.getD 4 0
  t.modHchan n (fun h =>
    { h with
      fitA := if has.getLsbD 0 then some (wordsInt ws 5, wordsInt ws 7) else none,
      fitV0 := if has.getLsbD 1 then some (wordsInt ws 9) else none,
      rhoRef := if has.getLsbD 2 then some (wordsInt ws 11).toNat else none })

/-- The run of channel `n` ends after its last slot (R197, R198): accepted or rejected. -/
def State.proofEnd (s : State) (n : Nat) : State :=
  match (s.hchan n).run with
  | none => s
  | some r =>
    if r.slot.isSome ∨ !r.plan.isEmpty then s
    else
      let full := r.points.all (fun p => decide (16 ≤ p.nI) && decide (16 ≤ p.nV))
      let rs := max 1 (s.reg (R.HLT_RS + n)).toNat
      let ps := r.points.map (ProofPoint.pair rs)
      let t : Int := divRound r.tSum (if r.tN = 0 then 1 else r.tN)
      let s := s.proofDrop n
      match (if full then fitLine ps else none) with
      | none => s.post 4 4 n
      | some (a, b) =>
        let near := ps.all (fun p =>
          let e := (p.2 : Rat) - (a + b * p.1)
          decide (ratMax e (-e) * 100 ≤ (p.2 : Rat)))
        if 0 ≤ b ∧ near then
          let auv : Int := ratRound a
          let old := s.hchan n
          -- kT in 0.1 mV/K (R198)
          let (kt, learned) : Int × Bool := match old.fitA with
            | some (a1, t1) =>
              if 160 ≤ (t - t1).natAbs then (clampInt (-2500) 2500 (divRound (16 * (auv - a1)) (100 * (t - t1))), true)
              else (signed 16 (s.reg (R.HLT_KT + n)).toNat, false)
            | none => (signed 16 (s.reg (R.HLT_KT + n)).toNat, false)
          let v0 : Int := ratRound ((a - (kt * 100 * (t - 400) : Int) / 16) / 1000)
          let lim : Int := 10 * s.fld (F.HLT_DLIM_DLIM.at n)
          let jump := match old.fitV0 with
            | some prev => decide (lim < (v0 - prev).natAbs)
            | none => false
          let p4 := nthOf r.points 3
          let s := s.setReg (cell R.HLT_V0 n) (BitVec.ofNat 16 (clampInt 0 65535 v0).toNat)
          let s := s.setReg (cell R.HLT_R n) (BitVec.ofNat 16 (clampInt 0 65535 (ratRound (b * 1000))).toNat)
          let s := s.setReg (cell R.HLT_KT n) (BitVec.ofNat 16 (satCode 16 kt))
          let s := s.setReg (cell R.HLT_MDL n) (BitVec.ofNat 16 (32768 + satCode 8 (divRound t 16)))
          let s := s.setFld (F.HLT_LEDCNT_N.at n) 0
          let s := s.modHchan n (fun h =>
            { h with
                     fitA := some (auv, t), fitV0 := some v0,
                     rhoRef := if p4.nRho = 0 then none else some (p4.rho / p4.nRho),
                     learn := some (0, 0, 0), v0Jump := jump })
          let s := s.post 4 3 n
          let s := if learned then s.post 4 0xA n else s
          s.vRecord (recModel + n) (s.modelBytes n)
        else s.post 4 4 n

/-! Rounds (R187 to R208). -/

/-- The round's filter of a published temperature: the first valid reading as it is, then 1/16 (R188). -/
def State.publish (s : State) (k reg : Nat) (t : Int) (seen : Bool) : State :=
  let f := if seen then s.hlt.filt.getD k 0 + divRound (t * 65536 - s.hlt.filt.getD k 0) 16 else t * 65536
  (s.modHlt (fun h => { h with filt := h.filt.set k f })).setReg reg (BitVec.ofNat 16 (satCode 16 (divRound f 65536)))

/-- The thermistor result of input `k` of the round (R188). -/
def State.ntcPublish (s : State) (k : Nat) : State :=
  let s := if s.ntcUsed k then s else s.modHlt (fun h => { h with ntcArm := h.ntcArm.set k true })
  match s.hlt.ntcRes.getD k none with
  | none => s
  | some x =>
    let valid := decide (328 ≤ x) && decide (x ≤ 16056)
    if valid then
      let (t, s) := match ntcTemp x (s.reg R.HLT_NTCK).toNat (s.reg R.HLT_NTCB).toNat with
        | some t => (t, s)
        | none => (signed 16 s.freeNat, s.useFree)
      let r := s.publish k (R.HLT_NTC0 + 64 * (k % 4)) t (s.hlt.ntcSeen.getD k false)
      r.modHlt (fun h => { h with ntcSeen := h.ntcSeen.set k true, ntcBad := h.ntcBad.set k false, ntcArm := h.ntcArm.set k true })
    else
      let r := s.modHlt (fun h => { h with ntcBad := h.ntcBad.set k true })
      if s.ntcUsed k ∧ s.hlt.ntcArm.getD k true then
        (r.modHlt (fun h => { h with ntcArm := h.ntcArm.set k false })).post 4 9 k
      else r

/-- The die temperature of the round (R188), which the keep-alive domain takes as well (R330). -/
def State.diePublish (s : State) : State :=
  let s := match s.hlt.dieRes with
    | some t => (s.publish 4 R.HLT_TDIE t s.hlt.dieSeen).modHlt (fun h => { h with dieSeen := true })
    | none => s
  let t := signed 16 (s.reg R.HLT_TDIE).toNat
  s.modKeep (fun k => { k with temp := t, tempSum := k.tempSum + t, tempN := k.tempN + 1 })

/-- The event and sticky bit of a class asserted on channel `n` (R200, R205, R211, R212). -/
def State.classAssert (s : State) (n k : Nat) : State :=
  if s.bit (R.HLT_CCLS + n) (8 + k) then s
  else
    let was := s.bit (R.HLT_CCLS + n) k
    let r := (s.setBit (cell R.HLT_CCLS n) (8 + k) true).setBit (cell R.HLT_CCLS n) k true
    let r := if !was ∧ r.bit R.HLT_IRQEN (8 + k) then r.irq irqHlt else r
    let d := if k = 6 then (divRound (s.chanTemp n) 16 % 256).toNat else s.fld (F.HLT_LEDCNT_N.at n)
    let r := r.post 4 1 (n * 4096 + k * 256 + d % 256)
    if r.bit R.HLT_LOCKM k ∧ !r.flag (F.CUR_CSTAT_LOCKL.at n) then (r.lockOff n).proofAbandon n else r

/-- A class cleared on channel `n`. -/
def State.classClear (s : State) (n k : Nat) : State :=
  if s.bit (R.HLT_CCLS + n) (8 + k) then (s.setBit (cell R.HLT_CCLS n) (8 + k) false).post 4 2 (n * 4096 + k * 256) else s

/-- NCONF (R200). -/
def State.nconf (s : State) : Nat := max 1 (s.fld F.HLT_SCFG_NCONF)

/-- One round of class `k` on channel `n`: its condition holds, or the condition to clear it does; the class follows once
either has held NCONF rounds (R200). -/
def State.classRound (s : State) (n k : Nat) (cond clear : Bool) : State :=
  if !s.bit R.HLT_CTL (8 + k) then s
  else
    let r := s.modHchan n (fun h => { h with
      with_ := h.with_.set k (if cond then min 16 (h.with_.getD k 0 + 1) else 0),
      less := h.less.set k (if clear then min 16 (h.less.getD k 0 + 1) else 0) })
    let h := r.hchan n
    if r.nconf ≤ h.with_.getD k 0 then r.classAssert n k
    else if r.nconf ≤ h.less.getD k 0 then r.classClear n k
    else r

/-- The mean of the newest `m` residuals, in uV. -/
def meanRes (l : List Int) (m : Nat) : Int :=
  let x := l.take m
  divRound x.sum (if x.isEmpty then 1 else x.length)

/-- Residuals join the baseline of R201, which holds the newest 64. -/
def HChan.baseAdd (h : HChan) (l : List Int) : HChan := { h with base := (l ++ h.base).take 64 }

/-- The confirmation of a step ends without one: its residuals join the baseline. -/
def HChan.ledDrop (h : HChan) : HChan :=
  { h.baseAdd h.ledRes with ledC := List.replicate 4 (0, 0), ledRes := [] }

/-- A measured round joins the runs of R201: each n whose window from n `lo` to n `hi` holds the step goes on, the others
end, and residuals that no run needs join the baseline. -/
def HChan.ledRun (h : HChan) (lo hi step res : Int) : HChan :=
  let runs := h.ledC.mapIdx (fun i x =>
    if ((i : Int) + 1) * lo ≤ step ∧ step ≤ ((i : Int) + 1) * hi then (x.1 + 1, x.2 + step) else (0, 0))
  let m := (runs.map Prod.fst).foldl max 0
  let l := res :: h.ledRes
  { h.baseAdd (l.drop m) with ledC := runs, ledRes := l.take m }

/-- The LEDSHORT step of a measured round of channel `n` (R201): `base` the baseline and `res` the residual in uV. Where two
windows hold every step of NCONF rounds, the smaller n counts (DESIGN CHOICE, log entry 50). -/
def State.ledStep (s : State) (n : Nat) (base res : Int) : State :=
  let lo : Int := 50000 * s.fld (F.HLT_LEDW_LO.at n)
  let hi : Int := 50000 * s.fld (F.HLT_LEDW_HI.at n)
  let r := s.modHchan n (fun h => h.ledRun lo hi (base - res) res)
  match (r.hchan n).ledC.zipIdx.find? (fun x => decide (r.nconf ≤ x.1.1)) with
  | none => r
  | some ((k, sum), i) =>
    let mean := divRound sum k
    let v0 : Int := ((r.reg (R.HLT_V0 + n)).toNat : Int) - divRound mean 1000
    let r := r.setFld (F.HLT_LEDCNT_N.at n) (min 255 (r.fld (F.HLT_LEDCNT_N.at n) + (i + 1)))
    let r := r.setReg (cell R.HLT_V0 n) (BitVec.ofNat 16 (clampInt 0 65535 v0).toNat)
    let r := r.modHchan n (fun h =>
      { h with ledC := List.replicate 4 (0, 0), ledRes := [], base := [res + mean] })
    r.classAssert n 2

/-- The stress factor F at a temperature in 1/16 degC, in units of 1/4096 (R206). -/
def State.stressF (s : State) (t : Int) : Nat :=
  let f (i : Nat) : Nat := (spGet hltDefault s.hlt.active i).toNat
  if t ≤ -480 then 16 * f 0
  else if 1920 ≤ t then 16 * f 15
  else
    let x := (t + 480).toNat
    let i := x / 160
    (f i * (160 - x % 160) + f (i + 1) * (x % 160)) * 16 / 160

/-- One Wh in nJ, and one mWh. -/
def oneWh : Int := 3600000000000
def oneMwh : Int := 3600000000

/-- Energy of `nj` nJ is added to an accumulator; whole Wh go to hatch counter `hc` (R208). -/
def State.energyAdd (s : State) (acc : Int) (nj : Int) (hc : Nat) : State × Int :=
  let e := max 0 (acc + nj)
  let w := (e / oneWh).toNat
  (if w = 0 then s else s.hatInc hc w, e - oneWh * w)

/-- A current of x / k in units of 1/256 code as microamperes through the sense resistor of channel `n`. -/
def State.microAmp (s : State) (n : Nat) (x : Int) (k : Nat) : Int :=
  divRound (x * 156250) (256 * max 1 (s.reg (R.HLT_RS + n)).toNat * k : Nat)

/-- DRIFT of channel `n` (R200): `drift` its condition, `within` the mean within HLT_DLIM, which clears it at once. -/
def State.driftRound (s : State) (n : Nat) (drift within : Bool) : State :=
  if !s.bit R.HLT_CTL 11 then s
  else if s.bit (R.HLT_CCLS + n) 11 ∧ within then
    (s.classClear n 3).modHchan n (fun h => { h with with_ := h.with_.set 3 0, v0Jump := false })
  else s.classRound n 3 drift false

/-- SHORT, LEDSHORT and DRIFT of channel `n` from the round's values `h` and residual `res` (R200, R201). -/
def State.modelRound (s : State) (n : Nat) (h : HChan) (res : Int) : State :=
  let model := s.flag (F.HLT_MDL_VALID.at n)
  let nom : Int := 4095 * h.sumI * 5
  let frac : Int := 256 * 32 * s.fld (F.CUR_VR_VR.at n) * h.nI
  let short := decide (4 * h.sumV < 100 * s.fld (F.HLT_CCFG_VSHORT.at n) * h.nV) && decide (4095 * frac ≤ 20 * nom) && model
  let s := s.classRound n 1 short (!short)
  let s := if model ∧ s.bit R.HLT_CTL 10 ∧ !s.bit (R.HLT_CCLS + n) 9 ∧ !(s.hchan n).base.isEmpty ∧
      s.proofAmp 0 * frac ≤ 2 * nom ∧ nom ≤ s.proofAmp 3 * frac then
      s.ledStep n (meanRes (s.hchan n).base 64) res
    else s.modHchan n (fun g => g.ledDrop.baseAdd [res])
  let s := s.modHchan n (fun g => { g with res := (res :: g.res).take 4096 })
  let lim : Int := 10000 * s.fld (F.HLT_DLIM_DLIM.at n)
  let l := (s.hchan n).res
  let full := decide (4096 ≤ l.length)
  let far := full && decide (lim < (meanRes l 4096).natAbs)
  s.driftRound n (model && (far || (s.hchan n).v0Jump)) (full && !far)

/-- DRIVER of channel `n` from the round's values `h` (R202). -/
def State.driverRound (s : State) (n : Nat) (h : HChan) : State :=
  match (s.hchan n).rhoRef with
  | some ref =>
    if h.nRho = 0 ∨ !s.flag (F.HLT_MDL_VALID.at n) then s
    else
      let d := decide ((ref + 4096 * s.fld (F.HLT_DRVLIM_RHO.at n)) * h.nRho < h.rho)
      s.classRound n 4 d (!d)
  | none => s

/-- The dead times of channel `n` learned over 64 rounds, in units of 2^-16 ticks (R204), and GATE (R200, R204). -/
def State.gateRound (s : State) (n : Nat) (h : HChan) : State :=
  let mean (x : Nat) : Nat := x * 65536 / (if h.nDt = 0 then 1 else h.nDt)
  let s := match (s.hchan n).learn with
    | some (k, x, y) =>
      if h.nDt = 0 then s
      else if k + 1 < 64 then s.modHchan n (fun g => { g with learn := some (k + 1, x + mean h.dhl, y + mean h.dlh) })
      else
        let r := s.modHchan n (fun g => { g with learn := none })
        let out (v : Nat) : Nat := (v + 32 * 65536) / (64 * 65536)
        (r.setFld (F.HLT_DTREF_DTHL.at n) (out (x + mean h.dhl))).setFld (F.HLT_DTREF_DTLH.at n) (out (y + mean h.dlh))
    | none => s
  let dev := s.fld (F.HLT_DRVLIM_DTDEV.at n)
  let off (x y : Nat) : Bool := decide (dev * h.nDt < x - y * h.nDt) || decide (dev * h.nDt < y * h.nDt - x)
  let gate := (decide (0 < h.nDt) &&
      (off h.dhl (s.fld (F.HLT_DTREF_DTHL.at n)) || off h.dlh (s.fld (F.HLT_DTREF_DTLH.at n))))
    || decide (h.bst.getD 8000 < 8000) || h.bstSet
  s.classRound n 5 gate (!gate)

/-- The round of channel `n` where it measured the channel: the values it publishes and the classes it judges. -/
def State.measuredRound (s : State) (n : Nat) (h : HChan) (temp : Int) : State :=
  let vs := divRound (h.sumV * 4 : Nat) h.nV
  let ion := s.microAmp n h.sumI h.nI
  let res : Int := divRound (h.sumV * 4000 : Nat) h.nV -
    (1000 * ((s.reg (R.HLT_V0 + n)).toNat : Int) + divRound ((s.reg (R.HLT_R + n)).toNat * ion) 1000 +
      divRound (100 * signed 16 (s.reg (R.HLT_KT + n)).toNat * (temp - 400)) 16)
  let s := s.modHchan n (fun g => { g with lastSum := h.sumI, lastN := h.nI, lastA := h.aSum })
  let s := s.setReg (cell R.HLT_ION n) (BitVec.ofNat 16 (clampInt 0 65535 (divRound ion 100)).toNat)
  let s := s.setReg (cell R.HLT_VS n) (BitVec.ofNat 16 (clampInt 0 65535 vs).toNat)
  let s := s.setReg (cell R.HLT_RESID n) (BitVec.ofNat 16 (satCode 16 (divRound res 1000)))
  let s := ((s.modelRound n h res).driverRound n h).gateRound n h
  let uns := decide (410 * h.nI ≤ h.aSum) && decide (0 < h.nAlt) &&
    decide (s.fld (F.HLT_ULIM_U.at n) * h.onSum * h.nAlt < 256 * h.altSum * h.nOn)
  s.classRound n 7 uns (!uns)

/-- The stress hours of channel `n` shown, and the maintenance estimate that follows from them (R206). -/
def State.stressShow (s : State) (n : Nat) : State :=
  let st := (s.hchan n).stress
  let m := maintOf (st / 2 ^ 20) (max 1 (s.reg (R.HLT_L70 + n)).toNat * 100 * 2 ^ 20)
  let s := (s.modHchan n (fun g => { g with maint := m })).setPair (cell R.HLT_STRS_LO n) (st * 100 / 2 ^ 40)
  s.setReg (cell R.HLT_MFR n) (BitVec.ofNat 16 (m / 2))

/-- The stress hours of channel `n` taken from a stored value in 0.01 h (R207). -/
def State.stressTake (s : State) (n v : Nat) : State :=
  (s.modHchan n (fun g => { g with stress := (v * 2 ^ 40 + 99) / 100 })).stressShow n

/-- The round of channel `n` (R187 to R208). -/
def State.chanRound (s : State) (n : Nat) : State :=
  let h := s.hchan n
  let meas := decide (2 ≤ h.nI) && decide (2 ≤ h.nV) && s.flag F.PWR_STAT_AVDDG
  let temp := s.chanTemp n
  let s := if meas then s.measuredRound n h temp else s
  -- I_m = I_on Q_r / (A_c N_r) as a fraction of 1/256 codes (R187)
  let g := s.hchan n
  let imN : Int := g.lastSum * h.qSum
  let imD : Nat := g.lastA * h.edges
  let (imN, imD) := if imD = 0 then (0, 1) else (imN, imD)
  let s := s.setReg (cell R.HLT_CRES n) (BitVec.ofNat 16 ((if meas then 32768 else 0) +
    (if h.nOn = 0 then 0 else min 127 (h.duty * 128 / (h.nOn * 1048576))) * 256 + min 255 (h.bst.getD 0 / 100)))
  -- OPEN and LEDSHORT need no round count to clear (R200)
  let s := if s.bit R.HLT_CTL 8 then
      (if s.flag (F.CUR_CSTAT_OPENL.at n) then s.classAssert n 0 else s.classClear n 0) else s
  let s := if s.fld (F.HLT_LEDCNT_N.at n) = 0 then s.classClear n 2 else s
  -- THERMAL in every round (R200)
  let tl : Int := 16 * s.fld (F.HLT_TLIM_T.at n)
  let s := s.classRound n 6 (decide (tl ≤ temp)) (decide (temp < tl - 80))
  -- maintenance (R206)
  let vr := max 1 (s.fld (F.CUR_VR_VR.at n))
  let add := imN.toNat * 15625 * s.stressF temp * 2 ^ 40 / (imD * (25600 * 1000 * vr * 4096 * 3600000))
  let s := (s.modHchan n (fun g => { g with stress := g.stress + add })).stressShow n
  -- energy (R208), and the time with a DRIVE (R210)
  let nw : Int := ((s.reg (R.HLT_VS + n)).toNat : Int) * s.microAmp n imN imD
  let s := s.setPair (cell R.HLT_POUT_LO n) ((divRound nw 1000000) % (2 ^ 32 : Nat)).toNat
  let (s, e) := s.energyAdd (s.hchan n).energy (divRound nw 1000) (20 + n)
  let s := (s.modHchan n (fun g => { g with energy := e })).setReg (cell R.HLT_EOUTR n) (BitVec.ofNat 16 (e / oneMwh).toNat)
  s.modHchan n (fun g =>
    { g with
             onMs := if s.litRun ∧ s.effDrive n ≠ 0 then g.onMs + 1 else g.onMs,
             armI := 0, armV := 0, nI := 0, sumI := 0, aSum := 0, nV := 0, sumV := 0, bst := none, onSum := 0, duty := 0,
             nOn := 0, altSum := 0, nAlt := 0, dhl := 0, dlh := 0, nDt := 0, qSum := 0, edges := 0, rho := 0, nRho := 0,
             bstSet := false,
             run := if s.holdActive then g.run else g.run.map (ProofRun.round temp) })

/-- The link's power and energy of the round (R208). -/
def State.linkRound (s : State) : State :=
  let h := s.hlt
  if h.pairs = 0 then s
  else
    let sh := (s.reg R.HLT_LSHUNT).toNat
    -- 4 mV times 7.8125 uV over uohm, in uW
    let (uw, s) : Int × State :=
      if sh = 0 then (signed 32 s.freeNat, s.useFree) else (divRound (h.link * 31250) (h.pairs * sh : Nat), s)
    let s := s.setPair R.HLT_PLINK_LO ((divRound uw 1000) % (2 ^ 32 : Nat)).toNat
    let (s, e) := s.energyAdd h.energy uw 36
    (s.modHlt (fun g => { g with energy := e })).setReg R.HLT_ELINKR (BitVec.ofNat 16 (e / oneMwh).toNat)

/-- VAUX is compared with the 16 rounds before (R398). -/
def State.vauxRound (s : State) : State :=
  match s.hlt.vauxRes with
  | none => s
  | some v =>
    let top := s.pwr.vauxHist.foldl max 0
    let drop := max 1 (s.fld F.PWR_CTL_DROP)
    let s := s.setFlag F.PWR_STAT_FALL (decide (v * 100 < top * (100 - drop)))
    { s with pwr := { s.pwr with vauxHist := (v :: s.pwr.vauxHist).take 16 } }

/-- The end of a survey round, and the start of the next (R184, R187). -/
def State.roundEnd (s : State) : State :=
  if !s.hltOn then s
  else
    let s := (List.range 4).foldl State.ntcPublish s
    let s := s.diePublish.vauxRound
    let s := s.forChans (fun n t => t.chanRound n)
    let s := s.linkRound
    let s := if s.hlt.lost ≠ 0 then s.post 4 7 s.hlt.lost else s
    let s := if s.hlt.due ≠ 0 then s.hltStick F.HLT_STAT_SOVR else s
    let s := s.modHlt (fun h =>
      { h with
               slot := 0, roundAt := s.cyc, lost := 0, due := h.due + 92, ntcRes := [none, none, none, none],
               dieRes := none, vauxRes := none, link := 0, pairs := 0 })
    s.hltSwap

/-- The stress record of R207: 4 bytes a channel. -/
def State.stressBytes (s : State) : List Byte :=
  (List.range 16).flatMap (fun n => wordsBytes [s.reg (R.HLT_STRS_HI + n), s.reg (R.HLT_STRS_LO + n)])

/-- The channels that a write to an HLT indexed register reaches (R27). -/
def State.hltSel (s : State) : List Nat := chanSel (s.fld F.HLT_SEL_CH)

/-! Commands of the analyser. -/

/-- CURRENT_HOLD_CAPTURE (R154, R180). -/
def execCurrentHoldCapture (n : Fin 16) (s : State) : Host.Outcome State Fault Refusal := done (s.currentCapture n)

/-- HOLD_CAPTURE_TIMEOUT (R180): the oldest waiting value of the hold is discarded. -/
def execHoldCaptureTimeout (n : Fin 16) (volt : Bool) (s : State) : Host.Outcome State Fault Refusal :=
  done (match s.hlt.waiting.find? (fun x => x.ch == n.val && x.volt == volt) with
    | some x =>
      (s.modHlt (fun h => { h with waiting := h.waiting.erase x, lost := h.lost + 1 })).hltStick F.HLT_STAT_HLOST
    | none => s)

/-- CONVERSION_DONE (R182, R183). -/
def execConversionDone (raw : BitVec 14) (s : State) : Host.Outcome State Fault Refusal :=
  done (if s.hltOn then s.conversion raw else s)

/-- USER_SEQ_END (R185). -/
def execUserSeqEnd (s : State) : Host.Outcome State Fault Refusal := done s.userEnd

/-- ROUND_END (R187). -/
def execRoundEnd (s : State) : Host.Outcome State Fault Refusal := done s.roundEnd

/-- PROOF_RUN_REQUEST (R199). -/
def execProofRunRequest (p : Path) (v : Word) (s : State) : Host.Outcome State Fault Refusal :=
  done (s.onWrite p (fun t => t.forChans (fun n u => if v.getLsbD n then u.proofRequest n else u)))

/-- PROOF_AUTO_DUE (R199). -/
def execProofAutoDue (n : Fin 16) (s : State) : Host.Outcome State Fault Refusal :=
  done (if s.fld F.HLT_PROOF_AUTOD = 0 then s else s.proofRequest n)

/-- PROOF_SLOT_START (R191). -/
def execProofSlotStart (n : Fin 16) (s : State) : Host.Outcome State Fault Refusal := done (s.slotStart n)

/-- PROOF_RUN_END (R197). -/
def execProofRunEnd (n : Fin 16) (s : State) : Host.Outcome State Fault Refusal := done (s.proofEnd n)

/-- PROOF_RUN_TIMEOUT (R194). -/
def execProofRunTimeout (n : Fin 16) (s : State) : Host.Outcome State Fault Refusal := done (s.proofAbandon n)

/-- LEDRST (R201): LEDCNT becomes 0. -/
def State.ledRst (s : State) (n : Nat) : State := (s.setFld (F.HLT_LEDCNT_N.at n) 0).classClear n 2

def execLedrst (p : Path) (s : State) : Host.Outcome State Fault Refusal :=
  done (s.onWrite p (fun t => t.hltSel.foldl State.ledRst t))

/-- MCLR (R190): the model is invalid. -/
def State.modelClr (s : State) (n : Nat) : State := s.setFlag (F.HLT_MDL_VALID.at n) false

def execMclr (p : Path) (s : State) : Host.Outcome State Fault Refusal :=
  done (s.onWrite p (fun t => t.hltSel.foldl State.modelClr t))

/-- DTREF_RELEARN (R204). -/
def State.dtRelearn (s : State) (n : Nat) : State := s.modHchan n (fun h => { h with learn := some (0, 0, 0) })

def execDtrefRelearn (p : Path) (s : State) : Host.Outcome State Fault Refusal :=
  done (s.onWrite p (fun t => t.hltSel.foldl State.dtRelearn t))

/-- HLT_TAB_OPEN (R213). -/
def execHltTabOpen (p : Path) (s : State) : Host.Outcome State Fault Refusal :=
  done (s.onWrite p (fun t => if t.unlocked p then t.hltOpen else t))

/-- HLT_TAB_CLOSE (R213). -/
def execHltTabClose (p : Path) (s : State) : Host.Outcome State Fault Refusal :=
  done (s.onWrite p (fun t => if t.unlocked p then t.hltClose else t))

/-- STRESS_RECORD_DUE (R207). -/
def execStressRecordDue (s : State) : Host.Outcome State Fault Refusal := done (s.vRecord recStress s.stressBytes)

/-- CHANNEL_ON_HOUR (R210): a whole hour with a DRIVE has been counted. -/
def execChannelOnHour (n : Fin 16) (s : State) : Host.Outcome State Fault Refusal :=
  done (if 3600000 ≤ (s.hchan n).onMs then
    (s.hatInc (4 + n) 1).modHchan n (fun h => { h with onMs := h.onMs - 3600000 })
  else s)

end Sys2Proof.Machine
end

