-- ==== Sys2Proof/Machine/Phy.lean ====
section
/-! DEFINITION. The Dwepen Line PHY (R214 to R253): carriers and bands, the course grid, zero crossing and phase
learning, headers, payload coding, tone maps, noise and masks. -/

namespace Sys2Proof.Machine

/-- The PHY's state, changed. -/
def State.modPhy (s : State) (f : PhyState → PhyState) : State := { s with phy := f s.phy }

/-- A sticky PHY_STAT bit (R253). -/
def State.phyStick (s : State) (f : Fld) : State := s.stick R.PHY_STAT R.PHY_IRQEN irqPhy f.mask

/-- The clock of the line runs: the gating set in force has LINE = 1 (R380, R381). -/
def State.lineGate (s : State) : Bool :=
  if s.fld F.SYS_MODE_STATE = 2 then s.flag F.CLK_GATE_SLP_LINE else s.flag F.CLK_GATE_RUN_LINE

/-- The PHY runs (R214, R366, R381): in LIT-RUN or LIT-IDLE, on XO with no handover under way, and clocked. -/
def State.phyOn (s : State) : Bool :=
  decide (4 ≤ s.pwr.boot) && decide (s.pwr.loss = 0) && !s.pwr.rstLow &&
    (decide (s.fld F.SYS_MODE_STATE = 1) || decide (s.fld F.SYS_MODE_STATE = 2)) &&
    s.flag F.CLK_STAT_ROOTSRC && !s.clk.handover && s.lineGate

/-- Line access has bench timing: a beacon has given it and it stands (R262), and the PHY runs (R366). -/
def State.benchTimed (s : State) : Bool := s.flag F.MAC_STAT_BVALID && s.phyOn

/-! Carriers (R218, R219). Carrier index i stands for k = i + 12. -/

/-- The carrier indexes of bands as bits [2] X, [1] BCD, [0] A (PHY_BAND). -/
def bandIdx (b : Nat) : List Nat :=
  (if b.testBit 0 then List.range 20 else [])
    ++ (if b.testBit 1 then (List.range 17).map (· + 21) else [])
    ++ (if b.testBit 2 then (List.range 112).map (· + 39) else [])

/-- BANDS of a header or a map, [2] A, [1] BCD, [0] X, as PHY_BAND bits (R231). -/
def bandsOf (h : Nat) : Nat := h / 4 % 2 + 2 * (h / 2 % 2) + 4 * (h % 2)

/-- The carriers of bands that are not statically masked, in ascending order. -/
def usable (band mask : Nat) : List Nat := (bandIdx band).filter (fun i => !mask.testBit i)

/-! The course grid (R221 to R224). -/

/-- P: positions in the plan in use. -/
def State.npos (s : State) : Nat := if s.fld F.PHY_STAT_PLANA = 2 then 20 else 24

/-- The nominal course of the plan in use, ADC samples (R224). -/
def State.nomCourse (s : State) : Nat := if s.npos = 20 then 12800 else 15360

/-- A nominal bench in SYSCLK cycles: 64 courses of samples of 40 cycles. -/
def State.nomBench (s : State) : Nat := 64 * 40 * s.nomCourse

/-- The length of a position, samples: 512 and the cyclic prefix of the present course (R221). -/
def State.posLen (s : State) : Nat := 512 + (s.phy.nc - 512 * s.npos) / s.npos

/-- Positions of the present course that have begun; in the gap at its end, all of them. -/
def State.posIn (s : State) : Nat := min s.npos ((s.cyc - s.phy.courseAt) / (40 * s.posLen))

/-- The present position of the course (MAC_GRID.POSN). -/
def State.posn (s : State) : Nat := min (s.npos - 1) s.posIn

/-- The present position, numbered over all courses. A frame keeps its number of positions over a course's end and its
gap, and each symbol takes the prefix of the course in which it lies (R222). -/
def State.posNow (s : State) : Nat := s.phy.posBase + s.posIn

/-- The present edge lies in the first sample of a position. -/
def State.atStart (s : State) : Bool :=
  decide ((s.cyc - s.phy.courseAt) / (40 * s.posLen) < s.npos) && decide ((s.cyc - s.phy.courseAt) % (40 * s.posLen) < 40)

/-- A course of `nc` samples starts at SYSCLK edge `at_`: CP and the gap (R221). PHY_CP shows the low 8 bits of a longer
prefix (DESIGN CHOICE, log entry 41). -/
def State.courseLen (s : State) (nc at_ base : Nat) : State :=
  let cp := (nc - 512 * s.npos) / s.npos
  let t := s.setFld F.PHY_CP_CP cp
  let t := t.setFld F.PHY_CP_GAP (nc - s.npos * (512 + cp))
  t.modPhy (fun p => { p with nc := nc, courseAt := at_, posBase := base })

/-- The plan of R223 at a bench start. -/
def State.planPick (s : State) : State :=
  match s.fld F.PHY_CTL_PLAN with
  | 1 => s.setFld F.PHY_STAT_PLANA 1
  | 2 => s.setFld F.PHY_STAT_PLANA 2
  | _ =>
    if s.flag F.PHY_STAT_ZCV then
      s.setFld F.PHY_STAT_PLANA (if 1000000 * 65536 < 55 * s.phy.zcPer then 1 else 2)
    else if !s.phy.zcSeen then s.setFld F.PHY_STAT_PLANA 1 else s

/-! Zero crossing (R225). -/

/-- SYSCLK cycles of a time in 2^-16 us: 61.44 in a microsecond. -/
def zcCycles (x : Int) : Int := x * 6144 / 6553600

/-- A time in 2^-16 us of a number of SYSCLK cycles. -/
def cyclesZc (c : Nat) : Nat := c * 6553600 / 6144

/-- ZCS becomes invalid: ZCLOSS and event 0x001 with the last period. -/
def State.zcLost (s : State) : State :=
  if s.flag F.PHY_STAT_ZCV then
    let t := s.post 5 1 (s.fld F.PHY_MPER_T)
    let t := (t.setFlag F.PHY_STAT_ZCV false).setFld F.PHY_MPER_T 0
    t.phyStick F.PHY_STAT_ZCLOSS
  else s

/-- A rising edge of ZCS: the filter of 16 periods, the three conditions of validity, and the filtered phase, PHY_ZCOFS
taken off. -/
def State.zcRise (s : State) (e : Nat) : State :=
  let at_ : Nat := ((e : Int) - signed 16 (s.fld F.PHY_ZCOFS_OFS) * 6144 / 100).toNat
  match s.phy.zcRaw with
  | none => s.modPhy (fun p => { p with zcAt := some at_, zcRaw := some e, zcGood := 0 })
  | some raw =>
    let x := cyclesZc (e - raw)
    let per := if s.phy.zcPer = 0 then x else ((s.phy.zcPer : Int) + divRound ((x : Int) - (s.phy.zcPer : Int)) 16).toNat
    let near := decide (50 * ((x : Int) - per).natAbs ≤ per)
    let gap := decide (2 * x ≤ 3 * per)
    let good := if near ∧ gap then min 8 (s.phy.zcGood + 1) else 0
    let expect : Int := ((s.phy.zcAt.getD at_ : Nat) : Int) + zcCycles per
    let phase : Nat := if s.flag F.PHY_STAT_ZCV then (expect + divRound ((at_ : Int) - expect) 16).toNat else at_
    let t := s.modPhy (fun p => { p with zcPer := per, zcGood := good, zcAt := some phase, zcRaw := some e })
    let hz := decide (1000000 * 65536 ≤ 65 * per) && decide (45 * per ≤ 1000000 * 65536)
    if good = 8 ∧ hz then
      let m := (per + 32768) / 65536
      let u := t.setFld F.PHY_MPER_T m
      if s.flag F.PHY_STAT_ZCV then u
      else ((u.setFlag F.PHY_STAT_ZCV true).modPhy (fun p => { p with zcSeen := true })).post 5 2 m
    else t.zcLost

/-- No edge within 1.5 courses (R225). -/
def State.zcTimeout (s : State) : State :=
  if s.phy.zcEdge + 60 * s.phy.nc ≤ s.cyc then
    s.zcLost.modPhy (fun p => { p with zcPer := 0, zcGood := 0, zcAt := none, zcRaw := none })
  else s

/-! Phase learning (R226, R227). -/

/-- LPH and POL of a multiple of 60 degrees. -/
def phaseLabel (m : Nat) : Nat × Nat :=
  match m with
  | 0 => (0, 0) | 2 => (1, 0) | 4 => (2, 0) | 3 => (0, 1) | 5 => (1, 1) | _ => (2, 1)

/-- A beacon that implies a course start at SYSCLK edge `start`: its delay after the node's own last rising zero
crossing, modulo the period. Angles are in units of 2^-8 degrees. -/
def State.phaseLearn (s : State) (start : Int) : State :=
  if s.flag F.PHY_STAT_ZCV ∧ s.phy.zcPer ≠ 0 ∧ s.phy.zcAt.isSome then
    let per : Int := max 1 (zcCycles s.phy.zcPer)
    let deg : Int := divRound ((start - (s.phy.zcAt.getD 0 : Nat)) % per * 360 * 256) per
    let toUs (d : Int) : Int := divRound (d * s.phy.zcPer) (360 * 65536)
    if s.flag F.PHY_PHS_LRN then
      let full : Int := 360 * 256
      let r0 := (deg - 60 * 256 * (s.phy.lrn : Int)) % full
      let r := if full < 2 * r0 then r0 - full else r0
      let n := if 15 * 256 < r.natAbs then s.phy.badN + 1 else 0
      if 4 ≤ n then
        let t := s.modPhy (fun p => { p with badN := 0, lrnN := 0, fineQ := 0 })
        let t := (t.setFlag F.PHY_PHS_LRN false).setFld F.PHY_PHS_FINE 0
        (t.phyStick F.PHY_STAT_PHSERR).post 5 4 (satCode 16 (divRound r 256))
      else
        let q := s.phy.fineQ + divRound (toUs r - s.phy.fineQ) 8
        (s.modPhy (fun p => { p with badN := n, fineQ := q })).setFld F.PHY_PHS_FINE (satCode 12 (divRound q 256))
    else
      let m := (divRound deg (60 * 256)).toNat % 6
      let r := deg - divRound deg (60 * 256) * (60 * 256)
      let n := if r.natAbs ≤ 15 * 256 then (if m = s.phy.lrnM then s.phy.lrnN + 1 else 1) else 0
      if 4 ≤ n then
        let l := phaseLabel m
        let q := toUs r
        let t := s.modPhy (fun p => { p with lrn := m, lrnM := m, lrnN := 0, badN := 0, fineQ := q })
        let t := (t.setFlag F.PHY_PHS_LRN true).setFld F.PHY_PHS_LPH l.1
        let t := (t.setFld F.PHY_PHS_POL l.2).setFld F.PHY_PHS_FINE (satCode 12 (divRound q 256))
        t.post 5 3 (l.1 + 4 * l.2)
      else s.modPhy (fun p => { p with lrnM := m, lrnN := n })
  else s

/-! The starts of courses (R221, R224, R227, R228, R255). -/

/-- An instant at which a course of the node's own zero-crossing grid starts: the acting head's without offset, that of
a node whose phase is learned shifted by the multiple of 60 degrees modulo 180 and by FINE; none where the grid follows
beacons or runs free. -/
def State.gridBase (s : State) : Option Int :=
  if s.flag F.PHY_STAT_ZCV then
    s.phy.zcAt.bind (fun z =>
      if s.isHead then some (z : Int)
      else if s.flag F.PHY_PHS_LRN then
        some (z + zcCycles (((s.phy.lrn % 3 * s.phy.zcPer / 6 : Nat) : Int) + 256 * s.phy.fineQ))
      else none)
  else none

/-- The SYSCLK edge at which the next course starts: the one of the grid nearest the end of the present course, or that
end. -/
def State.courseNext (s : State) : Nat :=
  let end_ : Int := ((s.phy.courseAt + 40 * s.phy.nc : Nat) : Int)
  match s.gridBase with
  | some g =>
    let half := max 1 (zcCycles s.phy.zcPer / 2)
    (g + zcCycles (divRound (end_ - g) half * s.phy.zcPer) / 2).toNat
  | none => end_.toNat

/-- N_c of a course that starts now: a half period, in samples of 1.536 MS/s; the nominal course while ZCS is not valid,
but the length in use while a frame that began before is on the line (`busy`). -/
def State.courseSamples (s : State) (busy : Bool) : Nat :=
  if s.flag F.PHY_STAT_ZCV then s.phy.zcPer * 768 / 65536000 else if busy then s.phy.nc else s.nomCourse

/-- The half positions from the start of a beacon's course to its reference instant (R230, R257): the beacon begins at
position 0, a takeover beacon and the relay beacon of slot 1 at position 3 (9). -/
def State.refHalf (s : State) (kind course : Nat) : Nat :=
  if kind = 1 ∨ (kind = 2 ∧ course = 61) then (if s.npos = 20 then 35 else 23) else 17

/-- The course start that a beacon implies (R226): the located reference instant, `ago` units of 20 ns before now, less
the beacon's place in its course and PHY_RXLAT. -/
def State.impliedStart (s : State) (kind course ago : Nat) : Int :=
  (s.cyc : Int) - ((ago + s.fld F.PHY_RXLAT_LAT) * 768 / 625 : Nat) - (20 * s.posLen * s.refHalf kind course : Nat)

/-! Payload coding (R234 to R241). -/

/-- The bits of bytes, most significant first. -/
def bitsOf (l : List Byte) : List Bool := l.flatMap (fun b => (List.range 8).map (fun i => b.getLsbD (7 - i)))

/-- Bits as bytes, most significant first, `n` of them. -/
def bytesOf : Nat → List Bool → List Byte
  | 0, _ => []
  | n + 1, l =>
    BitVec.ofNat 8 ((l.take 8).foldl (fun a b => 2 * a + (if b then 1 else 0)) 0) :: bytesOf n (l.drop 8)

/-- Scrambling by x^7 + x^4 + 1 from the state `r`, all ones at first (R234). -/
def scramble : Nat → List Bool → List Bool
  | _, [] => []
  | r, b :: l =>
    let f := r.testBit 6 != r.testBit 3
    (b != f) :: scramble ((2 * r) % 128 + (if f then 1 else 0)) l

/-- Multiplication by x in GF(2^8) of R235. -/
def rsX (b : Byte) : Byte := if b.getLsbD 7 then (b <<< 1) ^^^ 0x1D else b <<< 1

/-- Multiplication in GF(2^8) of R235, over the `n` low bits of the second operand. -/
def rsMulN : Nat → Byte → Byte → Byte
  | 0, _, _ => 0
  | n + 1, a, b => (if b.getLsbD 0 then a else 0) ^^^ rsMulN n (rsX a) (b >>> 1)

def rsMul (a b : Byte) : Byte := rsMulN 8 a b

/-- The generator polynomial with roots alpha^0 to alpha^(n-1), highest power first without its leading 1. -/
def rsGen : Nat → List Byte
  | 0 => []
  | n + 1 =>
    let g := rsGen n
    let root : Byte := (List.range n).foldl (fun a _ => rsX a) 1
    List.zipWith (· ^^^ ·) (g ++ [0]) (((1 : Byte) :: g).map (rsMul root))

/-- The 16 parity bytes of a codeword (R235). -/
def rsParity (msg : List Byte) : List Byte :=
  let g := rsGen 16
  msg.foldl (fun r b =>
    let f := b ^^^ r.headD 0
    List.zipWith (· ^^^ ·) (r.drop 1 ++ [0]) (g.map (rsMul f))) (List.replicate 16 0)

/-- The codewords of a payload, `n` of them at most. -/
def rsCode : Nat → List Byte → List Byte
  | 0, _ => []
  | n + 1, l => if l.isEmpty then [] else l.take 239 ++ rsParity (l.take 239) ++ rsCode n (l.drop 239)

/-- The two output bits of R236 for the six bits before and the present bit. -/
def convOut (r : Nat) : Bool × Bool :=
  let x (i : Nat) : Bool := r.testBit i
  ((x 6 != x 4) != ((x 3 != x 1) != x 0), ((x 6 != x 5) != (x 4 != x 3)) != x 0)

/-- Convolutional coding from a state of six bits: the newest bit is the most significant of seven. -/
def convCode : Nat → List Bool → List (Bool × Bool)
  | _, [] => []
  | st, b :: l =>
    let r := st + (if b then 64 else 0)
    convOut r :: convCode (r / 2) l

/-- The coded bits kept by CODE, from input bit `i` on (R236). -/
def puncture (code : Nat) : Nat → List (Bool × Bool) → List Bool
  | _, [] => []
  | i, (a, b) :: l =>
    let kept :=
      match code with
      | 1 => if i % 2 = 0 then [a, b] else [a]
      | 2 => if i % 3 = 0 then [a, b] else if i % 3 = 1 then [a] else [b]
      | _ => [a, b]
    kept ++ puncture code (i + 1) l

/-- The coded bits that `b` input bits give under CODE. -/
def codedLen (code b : Nat) : Nat :=
  match code with
  | 1 => b + (b + 1) / 2
  | 2 => b + (b + 2) / 3
  | _ => 2 * b

/-- The coded bits of a payload: Reed-Solomon in tone-map mode, six tail bits, puncturing (R234). -/
def payloadBits (map : Bool) (code : Nat) (l : List Byte) : List Bool :=
  let sc := bytesOf l.length (scramble 127 (bitsOf l))
  let coded := if map then rsCode 3 sc else sc
  puncture code 0 (convCode 0 (bitsOf coded ++ List.replicate 6 false))

/-- The 80 coded bits of a header, tail-biting (R232). -/
def headerBits (h : Nat) : List Bool :=
  let bits := (List.range 40).map (fun i => h.testBit (39 - i))
  puncture 0 0 (convCode ((List.range 6).foldl (fun a i => a + (if h.testBit i then 2 ^ (5 - i) else 0)) 0) bits)

/-- The interleaver of R239: rows of 8 columns read column by column. -/
def interleave (l : List Bool) : List Bool :=
  let rows := (l.length + 7) / 8
  (List.range 8).flatMap (fun c => (List.range rows).map (fun r => l.getD (8 * r + c) false))

/-- What a carrier sends in a symbol: a phase in units of pi/8, or a point of 16-QAM. -/
structure CarrierVal where
  i   : Nat := 0
  ph  : Nat := 0
  qam : Option (Int × Int) := none
deriving DecidableEq, Repr, Inhabited

/-- phi_k of R229 in units of pi/8. -/
def phiK (i : Nat) : Nat := (i + 12) * (i + 11) / 2 % 16

/-- The symbols of a ROBO stream with repetition `rep` (R237), as advances of the carriers' phases. -/
def roboSymbols (rep : Nat) (cs : List Nat) (bits : List Bool) : List (List CarrierVal) :=
  let n := cs.length
  if n = 0 then []
  else
    let sy := (bits.length + n - 1) / n
    (List.range (rep * sy)).map (fun q =>
      let r := q / sy
      (List.range n).map (fun j =>
        let t := (j + n - r * (n / rep) % n) % n
        { i := cs.getD j 0, ph := if bits.getD (q % sy * n + t) false then 8 else 0 }))

/-- The carrier on which copy `r` of bit `t` of a ROBO stream stands (R237). -/
def roboCarrier (rep : Nat) (cs : List Nat) (t r : Nat) : Nat := cs.getD ((t % cs.length + r * (cs.length / rep)) % cs.length) 0

/-- The copies of bit `t` that a receiver combines: its own self-masked carriers are erasures (R237, R250). -/
def roboCopies (rep : Nat) (cs : List Nat) (self t : Nat) : List Nat :=
  (List.range rep).filter (fun r => !self.testBit (roboCarrier rep cs t r))

/-- DBPSK (R237): advances added up on each carrier, from the phases `ph0` that it had before. -/
def dbpsk : (Nat → Nat) → List (List CarrierVal) → List (List CarrierVal)
  | _, [] => []
  | ph0, sym :: l =>
    let now := sym.map (fun c => { c with ph := (ph0 c.i + c.ph) % 16 })
    now :: dbpsk (fun i => ((now.find? (fun c => c.i == i)).map CarrierVal.ph).getD (ph0 i)) l

/-- The phase of a carrier in SYNCM, the negative of SYNCP (R229): the reference of its first symbol (R237). -/
def syncmPh (i : Nat) : Nat := (phiK i + 8) % 16

/-- The 4-bit code of carrier index `i` in a tone map of 40 words (R243). -/
def mapCode (m : List Word) (i : Nat) : Nat := getBits (m.getD (2 + i / 4) 0) (4 * (i % 4) + 3) (4 * (i % 4))

/-- The bits that a modulation carries. -/
def modBits (c : Nat) : Nat := if c ≤ 4 then c else 0

/-- The data carriers of payload symbol `n` with their codes (R238, R241). -/
def dataCarriers (m : List Word) (cs : List Nat) (n : Nat) : List (Nat × Nat) :=
  cs.filterMap (fun i =>
    if (i + 12 + n) % 6 = 0 ∨ modBits (mapCode m i) = 0 then none else some (i, modBits (mapCode m i)))

/-- The point of a carrier's bits (R240). -/
def carrierPoint (i : Nat) (b : List Bool) : CarrierVal :=
  match b with
  | [x] => { i := i, ph := if x then 8 else 0 }
  | [x, y] => { i := i, ph := if x then (if y then 10 else 6) else (if y then 14 else 2) }
  | [x, y, z] =>
    let m := (if x then 4 else 0) + (if x != y then 2 else 0) + (if (x != y) != z then 1 else 0)
    { i := i, ph := 2 * m + 1 }
  | [w, x, y, z] =>
    let lvl (a c : Bool) : Int := if a then (if c then -1 else -3) else (if c then 1 else 3)
    { i := i, qam := some (lvl w x, lvl y z) }
  | _ => { i := i }

/-- The symbols of a tone-map payload, `n` at most, from symbol `q`: slots plane by plane, and the pilots. -/
def mapSymbols (m : List Word) (cs : List Nat) : Nat → Nat → List Bool → List (List CarrierVal)
  | 0, _, _ => []
  | f + 1, q, bits =>
    if bits.isEmpty then []
    else
      let ds := dataCarriers m cs q
      let slots := (List.range 4).flatMap (fun p => ds.filterMap (fun d => if p < d.2 then some (d.1, p) else none))
      let bitAt (i p : Nat) : Bool :=
        match slots.findIdx? (fun x => x == (i, p)) with
        | some j => bits.getD j false
        | none => false
      let sym := cs.filterMap (fun i =>
        if (i + 12 + q) % 6 = 0 then some { i := i, ph := phiK i }
        else match ds.find? (fun d => d.1 == i) with
          | some d => some (carrierPoint i ((List.range d.2).map (bitAt i)))
          | none => none)
      sym :: mapSymbols m cs f (q + 1) (bits.drop slots.length)

/-- The payload symbols that `b` coded bits fill under a map, `f` at most. -/
def mapSymCount (m : List Word) (cs : List Nat) : Nat → Nat → Nat → Nat
  | 0, _, _ => 0
  | f + 1, q, b =>
    if b = 0 then 0
    else 1 + mapSymCount m cs f (q + 1) (b - ((dataCarriers m cs q).map Prod.snd).sum)

/-- NSYM of a payload of `len` bytes (R233, R237, R238): MODE 0 ROBO8, 1 ROBO4, 2 tone map. -/
def nsymOf (mode code len : Nat) (cs : List Nat) (m : List Word) : Nat :=
  if mode = 2 then
    let b := codedLen code (8 * (len + 16 * ((len + 238) / 239)) + 6)
    mapSymCount m cs 2048 0 (8 * ((b + 7) / 8))
  else
    let rep := if mode = 0 then 8 else 4
    if cs.length = 0 then 0 else rep * ((2 * (8 * len + 6) + cs.length - 1) / cs.length)

/-! Headers (R231 to R233). -/

/-- The CRC of a header's bits [39:8]. -/
def headerCrc (h : Nat) : Nat := crcMsb 8 0x07 0xFF (toBytes 4 (h / 256))

/-- A header with its CRC. -/
def headerOf (mode bands code tmid nsym len : Nat) : Nat :=
  let h := mode * 2 ^ 37 + bands % 8 * 2 ^ 34 + code % 4 * 2 ^ 32 + tmid % 8 * 2 ^ 29 + nsym % 2048 * 2 ^ 18 + (len - 1) % 512 * 2 ^ 9
  h + headerCrc h

/-- The header of a SHORT frame that carries 29 bits. -/
def shortHeader (x : Nat) : Nat :=
  let h := 4 * 2 ^ 37 + x % 2 ^ 29 * 256
  h + headerCrc h

/-- Header symbols: ROBO4 on band A (R232). -/
def headerSyms (mask : Nat) : Nat :=
  let n := (usable 1 mask).length
  if n = 0 then 0 else 4 * ((80 + n - 1) / n)

/-- The positions of a frame of `nsym` payload symbols: preamble, header and payload. -/
def State.framePos (s : State) (nsym : Nat) : Nat := 10 + headerSyms s.phy.mask + nsym

/-- The symbols that the driver sends after the preamble of the frame last started (R229 to R241). -/
def State.lineSymbols (s : State) : List (List CarrierVal) :=
  let p := s.phy
  let h := p.txHdr
  let hdr := roboSymbols 4 (usable 1 p.mask) (headerBits h)
  let mode := h / 2 ^ 37
  let cs := usable (bandsOf (h / 2 ^ 34 % 8)) p.mask
  let code := h / 2 ^ 32 % 4
  if mode = 2 then dbpsk syncmPh hdr ++ mapSymbols p.txMap cs 2048 0 (interleave (payloadBits true code p.txBytes))
  else if mode = 4 then dbpsk syncmPh hdr
  else dbpsk syncmPh (hdr ++ roboSymbols (if mode = 0 then 8 else 4) cs (payloadBits false 0 p.txBytes))

/-- A term of a sample: (i cos a - q sin a) with a = angle * 2 pi / 512, over the root of 10 where `root10`. A sample is
the sum of its terms, each carrier's mean power being the same (R218, R240). -/
structure Tone where
  i      : Int := 1
  q      : Int := 0
  angle  : Nat := 0
  root10 : Bool := false
deriving DecidableEq, Repr, Inhabited

/-- Sample `n` of the 512-point inverse FFT of a symbol's carrier values (R218). -/
def ifftSample (sym : List CarrierVal) (n : Nat) : List Tone :=
  sym.map (fun c =>
    match c.qam with
    | some (x, y) => { i := x, q := y, angle := (c.i + 12) * n % 512, root10 := true }
    | none => { angle := ((c.i + 12) * n + 32 * c.ph) % 512 })

/-- The samples of a symbol: the cyclic prefix, the last `cp` of the 512, and the 512 (R218, R221). -/
def symbolSamples (cp : Nat) (sym : List CarrierVal) : List (List Tone) :=
  ((List.range cp).map (fun j => ifftSample sym (512 - cp + j))) ++ (List.range 512).map (ifftSample sym)

/-- Sample `n` of the preamble from its start (R229), positions being `len` samples: half a position of silence, 8 of
SYNCP, the continuous sum of the enabled carriers that are not statically masked, and 1.5 of SYNCM, its negative. -/
def preambleSample (cs : List Nat) (len n : Nat) : List Tone :=
  if 2 * n < len then []
  else
    let k := n - (len + 1) / 2
    let sym := cs.map (fun i => ({ i := i, ph := if k < 8 * len then phiK i else syncmPh i } : CarrierVal))
    ifftSample sym (k % 512)

/-- What the driver sends in sample `n` of position `q` of the frame on the line, in a course with the present prefix. -/
def State.lineSample (s : State) (q n : Nat) : List Tone :=
  if q < 10 then preambleSample (usable s.phy.txBand s.phy.mask) s.posLen (q * s.posLen + n)
  else ((s.lineSymbols[q - 10]?).bind (fun sym => (symbolSamples (s.posLen - 512) sym)[n]?)).getD []

/-- The line driver is on (R214): a transmission is in progress. -/
def State.transmitting (s : State) : Bool := s.phyOn && !s.pwr.extest && decide (s.posNow < s.phy.txEnd)

/-- A frame is being received (PHY_STAT.RX). -/
def State.receiving (s : State) : Bool := s.phyOn && !s.transmitting && decide (s.posNow < s.phy.rxEnd)

/-- A transmission may begin now (R217): none is in progress, and a full position has passed since the last symbol
received. -/
def State.lineFree (s : State) : Bool := !s.transmitting && (s.phy.rxEnd == 0 || decide (s.phy.rxEnd + 1 ≤ s.posNow))

/-- A transmission of `pos` positions begins with the present one: its header, bytes and map. -/
def State.txBegin (s : State) (hdr : Nat) (bytes : List Byte) (map : List Word) (pos : Nat) : State :=
  s.modPhy (fun p => { p with
    txBand := p.band, txHdr := hdr, txBytes := bytes, txMap := map, txWas := (p.txFrom, p.txEnd), txFrom := s.posNow, txEnd := s.posNow + pos })

/-- The driver lets go of what it sends. -/
def State.txStop (s : State) : State := s.modPhy (fun p => { p with txEnd := min p.txEnd s.posNow })

/-- The first slot boundary at or after a place (R256), in positions of a course or a bench. -/
def slotFrom (p a : Nat) : Nat := if p ≤ (a % p + 2) / 3 * 3 then (a / p + 1) * p else a / p * p + (a % p + 2) / 3 * 3

/-- The first slot boundary at or after position `a`, in the numbering over all courses. -/
def State.slotAbs (s : State) (a : Nat) : Nat := slotFrom s.npos (a + 64 * s.npos - s.phy.posBase) + s.phy.posBase - 64 * s.npos

/-- The acknowledgement span of a frame whose last symbol ends before position `e` begins here, and lasts 26 positions
(R266). -/
def State.ackSpan (s : State) (e : Nat) : Nat := s.slotAbs (e + 1)

/-- The busy span up to one full position after an acknowledgement span (R265). -/
def State.busyAck (s : State) (e : Nat) : State :=
  s.modPhy (fun p => { p with busyEnd := max p.busyEnd (s.ackSpan e + 27) })

/-- A receive map by its slot, of 40 words. -/
def zeroWord (_ : Nat) : Word := 0
def rxMap (p : PhyState) (k : Nat) : List Word := spRead zeroWord p.rxMaps (40 * k) 40
def txMapOf (p : PhyState) (e : Nat) : List Word := spRead zeroWord p.txMaps (40 * e) 40

/-- VALID of a map. -/
def mapValid (m : List Word) : Bool := (m.getD 0 0).getLsbD 15

/-- The busy span that a header announces begins now (R265). -/
def State.busyFor (s : State) (n : Nat) : State := s.modPhy (fun p => { p with busyEnd := max p.busyEnd (s.posNow + n) })

/-- A symbol received ends now. -/
def State.rxNow (s : State) : State := s.modPhy (fun p => { p with rxEnd := s.posNow })

/-- The gain on a preamble, and between frames (R246): what it settles to the line decides. -/
def State.gainSettle (s : State) : State :=
  if s.flag F.PHY_AGC_MAN then s else (s.setFld F.PHY_AGC_GAIN (s.freeNat % 17)).useFree

/-- The gain that a frame's preamble settles, seen where its header is decoded, and held until its last symbol; one that
settled before the present course stands (R246). -/
def State.gainFrame (s : State) : State :=
  let t := if s.phy.agcHeld then s else s.gainSettle
  t.modPhy (fun p => { p with agcHeld := false })

/-- More than 1 % of the samples of the frame that ends clipped, or not, as the line decides (R246). -/
def State.clipDraw (s : State) : State :=
  if s.freeNat % 2 = 1 then s.useFree.phyStick F.PHY_STAT_CLIP else s.useFree

/-- The bands of a frame that is received and whose header ends now: those in use as it began (R220). -/
def State.rxBand (s : State) : Nat :=
  if s.posNow < s.phy.bandPos + 10 + headerSyms s.phy.mask then s.phy.bandWas else s.phy.band

/-- A header is decoded (R233). One that is discarded leaves the payload symbols that its NSYM announces as busy line. -/
def State.headerRx (s : State) (h : Nat) : State :=
  let mode := h / 2 ^ 37 % 8
  let bands := bandsOf (h / 2 ^ 34 % 8)
  let code := h / 2 ^ 32 % 4
  let nsym := h / 2 ^ 18 % 2048
  let t := ((s.modPhy (fun p => { p with rxHdr := none })).gainFrame).rxNow
  let ok := headerCrc h == h % 256
  if mode = 4 then (if ok then t.clipDraw else t.clipDraw.phyStick F.PHY_STAT_HDRERR)
  else if !ok then (t.clipDraw.busyFor nsym).phyStick F.PHY_STAT_HDRERR
  else
    let t := t.busyFor nsym
    let t := if mode = 2 then t.busyAck (t.posNow + nsym) else t
    if 2 < mode ∨ code = 3 ∨ (mode < 2 ∧ code ≠ 0) ∨ bands = 0 ∨ bands &&& s.rxBand ≠ bands then
      t.clipDraw.phyStick F.PHY_STAT_HDRERR
    else if mode = 2 ∧ (!mapValid (rxMap s.phy (h / 2 ^ 29 % 8)) ∨
        nsymOf 2 code (h / 512 % 512 + 1) (usable bands s.phy.mask) (rxMap s.phy (h / 2 ^ 29 % 8)) ≠ nsym) then
      t.clipDraw.phyStick F.PHY_STAT_TMERR
    else t.modPhy (fun p => { p with
      rxHdr := some h, rxEnd := t.posNow + nsym,
      rxUse := if mode = 2 then spSet zeroNat p.rxUse (h / 2 ^ 29 % 8) (s.cyc + 1) else p.rxUse })

/-- The payload of the accepted header has been decoded: SNR of its carriers, measured where the node does not mask
them itself, and clipping, both of which the line decides (R246, table 0x4). -/
def State.payloadRx (s : State) : State :=
  match s.phy.rxHdr with
  | none => s
  | some h =>
    let cs := (usable (bandsOf (h / 2 ^ 34 % 8)) s.phy.mask).foldl (fun a i => if s.phy.self.testBit i then a else a + 2 ^ i) 0
    let t := s.modPhy (fun p => { p with rxHdr := none, snr := some (s.free, cs) })
    State.clipDraw { t with free := s.free + 152 }

/-- The SNR of carrier index `i` in 1/8 dB, none where it was not measured. -/
def PhyState.snrAt (p : PhyState) (i : Nat) : Option Int :=
  match p.snr with
  | some (b, cs) => if cs.testBit i then some (signed 16 (Config.freeValue (b + i))) else none
  | none => none

/-! Masks (R248 to R250). -/

/-- Carrier index `i` lies within a harmonic of a channel of modulus `m`, with guard `g` kHz and depth `d` in 0.5 %. -/
def harmonicHits (m g d i : Nat) : Bool :=
  (List.range 4).any (fun j =>
    let h := j + 1
    decide (h * 245760 * (400 - d) ≤ 1200 * (i + 12) * m + 400 * m * g) &&
      decide (1200 * (i + 12) * m ≤ h * 245760 * (400 + d) + 400 * m * g))

/-- The self mask of R249. -/
def State.selfMask (s : State) : Nat :=
  if s.flag F.PHY_CTL_SMEN then
    let g := s.fld F.PHY_SMCFG_GUARD
    let d := if s.clk.spread.getLsbD 15 then getBits s.clk.spread 12 8 else 0
    let ms := (List.range 16).filterMap (fun n => if s.bit R.PWM_ENA n then some ((s.chan n).per + 1) else none)
    (bandIdx s.phy.band).foldl (fun a i => if ms.any (fun m => harmonicHits m g d i) then a + 2 ^ i else a) 0
  else 0

/-- The number of bits set of the low `n`. -/
def popCount (n v : Nat) : Nat := ((List.range n).filter (fun i => v.testBit i)).length

/-- The self mask is applied at a bench start (R250). -/
def State.selfApply (s : State) : State :=
  let m := s.selfMask
  if m = s.phy.self then s
  else ((s.modPhy (fun p => { p with self := m })).phyStick F.PHY_STAT_MASKCH).post 5 6 (popCount 152 m)

/-- Word `w` of a mask of 160 bits. -/
def maskWord (m w : Nat) : Word := BitVec.ofNat 16 (m / 2 ^ (16 * w))

/-- The static mask with word `w` written: the bits of no carrier stay 0 (R248). -/
def maskPut (m w : Nat) (v : Word) : Nat :=
  (List.range 152).foldl (fun a i =>
    let b := if i / 16 = w then v.getLsbD (i % 16) else m.testBit i
    if b ∧ i ≠ 20 ∧ i ≠ 38 ∧ i ≠ 151 then a + 2 ^ i else a) 0

/-! Noise (R247) and gain (R246). -/

/-- Position `i` of the present course lies in a transmission of the node's own. -/
def State.sentIn (s : State) (i : Nat) : Bool :=
  let a := s.phy.posBase + i
  (decide (s.phy.txFrom ≤ a) && decide (a < s.phy.txEnd)) || (decide (s.phy.txWas.1 ≤ a) && decide (a < s.phy.txWas.2))

/-- The noise of the course that ends taken into the filter, but for positions in which the node transmitted or detected
a preamble (`pre`): what each position measures, and the gain that follows it between frames, the line decides. Where a
preamble so near the end of the course that its header is not decoded yet was detected, the gain is the one that it settled
(R246). -/
def State.noiseCourse (s : State) (pre : Nat) : State :=
  let t := s.modPhy (fun p => { p with
    noise := (List.range 24).map (fun i =>
      let x := p.noise.getD i 0
      if s.npos ≤ i then 0
      else if s.sentIn i || pre.testBit i then x
      else x + divRound (64 * signed 16 (Config.freeValue (s.free + i)) - x) 64) })
  let t := { t with free := s.free + 24 }
  let late := (List.range s.npos).any (fun i =>
    pre.testBit i && decide (s.npos < i + 10 + headerSyms s.phy.mask))
  if t.receiving then t else t.gainSettle.modPhy (fun p => { p with agcHeld := late && !t.transmitting })

/-- Insertion into a rising list. -/
def insertInt (x : Int) : List Int → List Int
  | [] => [x]
  | y :: l => if x ≤ y then x :: y :: l else y :: insertInt x l

/-- The flags of noisy positions, at a bench start (R247); of an even number of positions the median is the mean of the
middle two. -/
def State.noiseFlags (s : State) : State :=
  let l := (s.phy.noise.take s.npos).foldl (fun a x => insertInt x a) []
  let med2 := l.getD (s.npos / 2 - 1) 0 + l.getD (s.npos / 2) 0
  let thr : Int := 2 * 64 * 4 * s.fld F.PHY_NCFG_THR
  let f := (List.range s.npos).foldl (fun a i => if med2 + thr < 2 * s.phy.noise.getD i 0 then a + 2 ^ i else a) 0
  (s.setFld F.PHY_NMASK_LO_N f).setFld F.PHY_NMASK_HI_N (f / 65536)

/-! Tone maps (R243 to R245). -/

/-- The bands of a map that are all enabled. -/
def mapBandsOk (p : PhyState) (m : List Word) : Bool :=
  let b := bandsOf (getBits (m.getD 0 0) 9 7)
  decide (b ≠ 0) && decide (b &&& p.band = b)

/-- The age of a map in minutes, saturating as its field does. -/
def mapAge (now at_ : Nat) : Nat := min 63 ((now - at_) / (60 * 61440000))

/-- The transmit map that applies to a neighbour (R245): its entry. -/
def State.txMapFor (s : State) (a : Nat) : Option Nat :=
  (List.range 32).find? (fun e =>
    let m := txMapOf s.phy e
    mapValid m && decide (getBits (m.getD 1 0) 9 0 = a) && mapBandsOk s.phy m)

/-- A transmit map is made invalid. -/
def State.txMapDrop (s : State) (e : Nat) : State :=
  s.modPhy (fun p => { p with txMaps := spSet zeroWord p.txMaps (40 * e) (setBits (spGet zeroWord p.txMaps (40 * e)) 15 15 0) })

/-- Maps whose bands are no longer all enabled become invalid (R245). -/
def State.txMapsCheck (s : State) : State :=
  (List.range 32).foldl (fun t e =>
    if mapValid (txMapOf t.phy e) && !mapBandsOk t.phy (txMapOf t.phy e) then t.txMapDrop e else t) s

/-- The index below `n` whose stamp is lowest. -/
def oldest (l : List (Nat × Nat)) (n : Nat) : Nat :=
  (List.range n).foldl (fun b i => if spGet zeroNat l i < spGet zeroNat l b then i else b) 0

/-- The modulation that an SNR in 1/8 dB allows with the margin (R244). -/
def State.modFor (s : State) (snr : Int) : Nat :=
  let ok (thr : Nat) : Bool := decide ((2 * (thr + s.fld F.PHY_TMCFG_MARGIN) : Nat) ≤ snr)
  if !ok (s.fld F.PHY_THRL_LO) then 0
  else if ok (s.fld F.PHY_THRH_HI) then 4
  else if ok (s.fld F.PHY_THRH_LO) then 3
  else if ok (s.fld F.PHY_THRL_HI) then 2
  else 1

/-- Code rate as numerator and denominator. -/
def codeRate (c : Nat) : Nat × Nat := if c = 1 then (2, 3) else if c = 2 then (3, 4) else (1, 2)

/-- A receive map for neighbour `a` over PHY_BAND bits `bands` (R244), from the SNR of the last payload: the 40 words
advertised, or none; and the state with the map stored. -/
def State.buildMap (s : State) (a bands : Nat) : State × Option (List Word) :=
  let p := s.phy
  let cs := usable (bands &&& p.band) p.mask
  let codeAt (i : Nat) : Nat :=
    if cs.contains i && !p.self.testBit i then
      match p.snrAt i with
      | some x => s.modFor x
      | none => 0
    else 0
  let on (lo hi : Nat) : Bool := cs.any (fun i => decide (lo ≤ i) && decide (i ≤ hi) && decide (codeAt i ≠ 0))
  let bits := (if on 0 19 then 4 else 0) + (if on 21 37 then 2 else 0) + (if on 39 150 then 1 else 0)
  let code := s.fld F.PHY_TMCFG_CODE
  let r := codeRate code
  let sum := (cs.map codeAt).sum
  let n := (usable (bandsOf bits) p.mask).length
  if sum * 5 * r.1 * 239 * 8 ≤ n * 6 * r.2 * 255 then (s, none)
  else
    let slot := ((List.range 8).find? (fun k => !mapValid (rxMap p k))).getD (oldest p.rxUse 8)
    let w0 : Word := BitVec.ofNat 16 (32768 + slot * 4096 + code * 1024 + bits * 128)
    let ws := w0 :: BitVec.ofNat 16 a ::
      (List.range 38).map (fun w => BitVec.ofNat 16
        (codeAt (4 * w) + 16 * codeAt (4 * w + 1) + 256 * codeAt (4 * w + 2) + 4096 * codeAt (4 * w + 3)))
    (s.modPhy (fun q => { q with
      rxMaps := spSetAll zeroWord q.rxMaps (40 * slot) ws,
      rxAt := spSet zeroNat q.rxAt slot s.cyc, rxUse := spSet zeroNat q.rxUse slot (s.cyc + 1) }), some ws)

/-- A transmit map for neighbour `a` is written (R305): over an entry of the same neighbour, else an invalid one, else
the least recently used. -/
def State.txMapStore (s : State) (a : Nat) (ws : List Word) : State :=
  let p := s.phy
  let e := match (List.range 32).find? (fun e => mapValid (txMapOf p e) && decide (getBits ((txMapOf p e).getD 1 0) 9 0 = a)) with
    | some e => e
    | none => ((List.range 32).find? (fun e => !mapValid (txMapOf p e))).getD (oldest p.txUse 32)
  let ws := ws.set 1 (BitVec.ofNat 16 a)
  s.modPhy (fun q => { q with
    txMaps := spSetAll zeroWord q.txMaps (40 * e) ws,
    txAt := spSet zeroNat q.txAt e s.cyc, txUse := spSet zeroNat q.txUse e (s.cyc + 1) })

/-- A map expires LIFE minutes after it was written (R245). -/
def State.txMapExpire (s : State) (e : Nat) : State :=
  let life := s.fld F.PHY_TMCFG_LIFE
  if life = 0 ∨ s.cyc < spGet zeroNat s.phy.txAt e + life * 60 * 61440000 then s else s.txMapDrop e

/-- A word of the PHY tables (R254). -/
def State.phyTable (s : State) (tsel a : Nat) : Word :=
  let p := s.phy
  let aged (w : Word) (at_ : Nat) : Word := if a % 40 = 1 then setBits w 15 10 (mapAge s.cyc at_) else w
  match tsel with
  | 0 => if a < 10 then maskWord p.maskNew a else 0
  | 1 => if a < 10 then maskWord p.self a else 0
  | 2 => if a < 10 then maskWord (p.mask ||| p.self) a else 0
  | 3 => if a < 24 then BitVec.ofNat 16 (satCode 16 (divRound (p.noise.getD a 0) 64)) else 0
  | 4 => if a < 152 then
      match p.snrAt a with
      | some x => BitVec.ofNat 16 (satCode 16 x)
      | none => 0x8000
    else 0
  | 5 => if a < 320 then aged (spGet zeroWord p.rxMaps a) (spGet zeroNat p.rxAt (a / 40)) else 0
  | 6 => if a < 1280 then aged (spGet zeroWord p.txMaps a) (spGet zeroNat p.txAt (a / 40)) else 0
  | _ => 0

/-- The words of a PHY table. -/
def phyLen (tsel : Nat) : Nat :=
  match tsel with
  | 0 => 10 | 1 => 10 | 2 => 10 | 3 => 24 | 4 => 152 | 5 => 320 | 6 => 1280 | _ => 0

/-- The static mask as written comes into use where the node has no bench timing and no frame is in progress (R248). -/
def State.maskTake (s : State) : State :=
  if s.benchTimed || s.transmitting || s.receiving then s else s.modPhy (fun p => { p with mask := p.maskNew })

/-- A word of the PHY tables written: the static mask while SYS_UNLOCK is open (R248); a transmit map. -/
def State.phyTablePut (s : State) (unlocked : Bool) (tsel a : Nat) (v : Word) : State :=
  match tsel with
  | 0 =>
    if unlocked ∧ a < 10 then
      let m := maskPut s.phy.maskNew a v
      (s.modPhy (fun p => { p with maskNew := m })).maskTake
    else s
  | 6 =>
    if a < 1280 then
      s.modPhy (fun p => { p with
        txMaps := spSet zeroWord p.txMaps a v,
        txAt := spSet zeroNat p.txAt (a / 40) s.cyc, txUse := spSet zeroNat p.txUse (a / 40) (s.cyc + 1) })
    else s
  | _ => s

/-- Event 0x005 for the frames of the bench that ends in which the driver's current limit acted (R252). -/
def State.ilimReport (s : State) : State :=
  if s.phy.ilim = 0 then s else (s.post 5 5 s.phy.ilim).modPhy (fun p => { p with ilim := 0 })

/-- The bench-aligned changes of the PHY (R220, R247, R248, R250). The plan changes where course 0 is formed (R223). -/
def State.phyBench (s : State) : State :=
  let t := s.modPhy (fun p => { p with
    band := s.fld F.PHY_BAND_A + 2 * s.fld F.PHY_BAND_BCD + 4 * s.fld F.PHY_BAND_X,
    bandWas := p.band, bandPos := s.posNow })
  let t := if t.benchTimed then t.modPhy (fun p => { p with mask := p.maskNew }) else t.maskTake
  t.ilimReport.noiseFlags.txMapsCheck.selfApply

/-- A frame due while VLD is below its threshold is not sent (R216). -/
def State.vldShort (s : State) : State := s.phyStick F.PHY_STAT_VLDUV

/-! Commands of the PHY. -/

/-- The cycle in which an edge of ZCS stood that the comparator reports `us` microseconds later. -/
def State.zcCyc (s : State) (us : Nat) : Nat := s.cyc - us * 6144 / 100

/-- An edge of ZCS in cycle `e` (R225): a falling one keeps the input alive, the period is taken from rising edges. -/
def State.zcEdge (s : State) (rising : Bool) (e : Nat) : State :=
  let t := s.modPhy (fun p => { p with zcEdge := e })
  if rising then t.zcRise e else t

/-- ZCS_EDGE (R225). -/
def execZcsEdge (rising : Bool) (us : Nat) (s : State) : Host.Outcome State Fault Refusal :=
  done (if 4 ≤ s.pwr.boot then s.zcEdge rising (s.zcCyc us) else s)

/-- ZCS_TIMEOUT (R225). -/
def execZcsTimeout (s : State) : Host.Outcome State Fault Refusal := done s.zcTimeout

/-- HEADER_RECEIVE (R233): nothing is received while the node transmits (R217). -/
def execHeaderReceive (hdr : BitVec 40) (s : State) : Host.Outcome State Fault Refusal :=
  done (if s.phyOn && !s.transmitting then s.headerRx hdr.toNat else s)

/-- DRIVER_CURRENT_LIMIT (R215, R252): the frame goes on to its end and is counted once. -/
def execDriverCurrentLimit (s : State) : Host.Outcome State Fault Refusal :=
  done (if s.transmitting then
    (s.phyStick F.PHY_STAT_ILIM).modPhy (fun p =>
      if p.ilimAt = p.txEnd then p else { p with ilim := p.ilim + 1, ilimAt := p.txEnd })
  else s)

/-- VLD_UNDERVOLTAGE (R214, R216, R252, R387): VLD falls below 7.5 V, to `level` in 0.1 V, and the driver lets go. -/
def execVldUndervoltage (level : Byte) (s : State) : Host.Outcome State Fault Refusal :=
  done (let t := s.setFlag F.PWR_STAT_VLDG false
        if 2 ≤ s.pwr.boot ∧ !s.pwr.rstLow then
          ((t.stick R.PWR_STAT R.PWR_IRQEN irqPwr F.PWR_STAT_VLDUV.mask).txStop).post 5 7 level.toNat
        else t)

/-- VLD_GOOD (R387). -/
def execVldGood (s : State) : Host.Outcome State Fault Refusal := done (s.setFlag F.PWR_STAT_VLDG true)

/-- TONE_MAP_EXPIRY (R245). -/
def execToneMapExpiry (e : Fin 32) (s : State) : Host.Outcome State Fault Refusal := done (s.txMapExpire e)

end Sys2Proof.Machine
end

