-- ==== Sys2Proof/Machine/Trips.lean ====
section
/-! DEFINITION. The commands of the switching generator and the realiser (R112 to R178, R389, R390, R526): writes, the
steps of a period, forces, trips and their clears, hold timeouts, phase sources, dimming periods, retries. -/

namespace Sys2Proof.Machine

/-- The core runs: its reset is released and RST# is high. -/
def State.coreOn (s : State) : Bool := decide (2 ≤ s.pwr.boot) && !s.pwr.rstLow

/-- The channel that an indexed write of page PWM reaches, and of page CUR (R27). -/
def State.pwmSel (s : State) : List Nat := chanSel (s.fld F.PWM_SEL_CH)
def State.curSel (s : State) : List Nat := chanSel (s.fld F.CUR_SEL_CH)

/-- A write of PWM_ENA; the captures of a channel that it stops take the facts known then (R155). -/
def State.enaSet (s : State) (v : Word) : State :=
  (s.forChans (fun n t => if (t.chan n).run ∧ !v.getLsbD n then t.capturesClose n else t)).enaWrite v

/-- PWM_ENA_WRITE (R129). -/
def execPwmEnaWrite (p : Path) (v : Word) (s : State) : Host.Outcome State Fault Refusal :=
  done (s.onWrite p (fun t => t.enaSet v))

/-- PWM_SHADOW_WRITE (R123, R124, R128). -/
def execPwmShadowWrite (p : Path) (r : ShadowReg) (v : Word) (s : State) : Host.Outcome State Fault Refusal :=
  done (s.onWrite p (fun t => t.pwmSel.foldl (fun u n => u.shadowWrite n r v) t))

/-- Count 0 of channel `n` with the analyser's account of the period that ends; `edge`: the count goes from PER to 0. -/
def State.boundary (s : State) (n : Nat) (bstLow edge : Bool) : State := (s.hltPeriodEnd n).zeroCore n bstLow edge

/-- PWM_ZERO (R112, R117, R126, R131 to R134): the count stands at PER and nothing else of the period is due. -/
def execPwmZero (n : Fin 16) (bstLow : Bool) (s : State) : Host.Outcome State Fault Refusal :=
  done (if s.ticking n ∧ (s.chan n).pHit ∧ (s.stops n).isEmpty ∧ !s.midWaits n then s.boundary n bstLow true else s)

/-- The mid-period load of channel `n` cuts the period (R127). -/
def State.midCut (s : State) (n : Nat) : Bool :=
  decide (clampPer (s.reg (R.PWM_PER + n)).toNat ≤ (s.chan n).per / 2)

/-- The mid-period load point of channel `n` may come: an armed set waits for it and nothing before it is due. -/
def State.midMay (s : State) (n : Nat) : Bool :=
  s.ticking n && s.midWaits n && (s.stops n).all (fun x => decide ((s.chan n).per / 2 ≤ x))

/-- The period of channel `n` is cut at the mid-period load point (R127): the set loads, HG ends on the cut edge. -/
def State.cutAt (s : State) (n m : Nat) : State :=
  let r := (s.modChan n (fun c => c.goto m)).shadowLoad n
  let r := r.pwmStick n F.PWM_STAT_PCUT
  let r := r.modChan n (fun c => if c.hg ∧ c.fHg ≠ 2 then c.hgEnd (m + 1) 4 else c)
  r.boundary n (r.chan n).bstOn false

/-- PWM_MID_LOAD (R125 to R127). -/
def execPwmMidLoad (n : Fin 16) (s : State) : Host.Outcome State Fault Refusal :=
  done (if !s.midMay n then s else if s.midCut n then s.cutAt n ((s.chan n).per / 2) else s.midLoad n)

/-- PWM_PERIOD (R143, R180): the count steps onto PER; the voltage hold captures. -/
def State.perHit (s : State) (n : Nat) : State :=
  let c := s.chan n
  if s.ticking n ∧ !c.pHit ∧ s.reach n c.per then
    let r := s.modChan n (fun c => { c.goto c.per with pHit := true })
    (r.chanEvent n F.PWM_EVCTL_PERE 0x20).holdCapture n true
  else s

/-- PWM_PERIOD (R143, R180). -/
def execPwmPeriod (n : Fin 16) (s : State) : Host.Outcome State Fault Refusal := done (s.perHit n)

/-- PWM_CMPA (R114, R115). -/
def execPwmCmpa (n : Fin 16) (s : State) : Host.Outcome State Fault Refusal := done (s.cmpaHit n)

/-- PWM_CMPB (R116). -/
def execPwmCmpb (n : Fin 16) (s : State) : Host.Outcome State Fault Refusal := done (s.cmpbHit n)

/-- PEAK_COMPARATOR_END (R114, R151). -/
def execPeakComparatorEnd (n : Fin 16) (cnt : Word) (s : State) : Host.Outcome State Fault Refusal :=
  done (s.peakEnd n cnt.toNat)

/-- SW_SENSED_LOW (R119). -/
def execSwSensedLow (n : Fin 16) (cnt : Word) (s : State) : Host.Outcome State Fault Refusal := done (s.swLow n cnt.toNat)

/-- LG_SENSED_LOW (R119). -/
def execLgSensedLow (n : Fin 16) (cnt : Word) (s : State) : Host.Outcome State Fault Refusal :=
  done (s.lgSensed n cnt.toNat)

/-- HG_TURN_ON (R119, R121). -/
def execHgTurnOn (n : Fin 16) (cnt : Word) (s : State) : Host.Outcome State Fault Refusal :=
  done (s.hgTurnOn n cnt.toNat)

/-- DTMAX_EXPIRY (R120). -/
def execDtmaxExpiry (n : Fin 16) (cnt : Word) (s : State) : Host.Outcome State Fault Refusal := done (s.dtMax n cnt.toNat)

/-- ZERO_CURRENT_DETECT (R118). -/
def execZeroCurrentDetect (n : Fin 16) (cnt : Word) (s : State) : Host.Outcome State Fault Refusal :=
  done (s.zeroCurrent n cnt.toNat)

/-- BURNISH_END (R131). -/
def execBurnishEnd (n : Fin 16) (bstLow : Bool) (s : State) : Host.Outcome State Fault Refusal :=
  done (s.burnEnd n bstLow)

/-- BOOTSTRAP_UVLO (R133): GATE counts it (R203). -/
def execBootstrapUvlo (n : Fin 16) (s : State) : Host.Outcome State Fault Refusal :=
  done (if s.coreOn then (s.bstUvlo n).modHchan n (fun h => { h with bstSet := true }) else s)

/-- PWM_FORCE_WRITE (R134, R136). -/
def execPwmForceWrite (p : Path) (v : Word) (s : State) : Host.Outcome State Fault Refusal :=
  done (s.onWrite p (fun t => t.pwmSel.foldl (fun u n => u.forceWrite n v) t))

/-- FORCE_EFFECT (R134, R135). -/
def execForceEffect (n : Fin 16) (s : State) : Host.Outcome State Fault Refusal := done (s.forceEffect n)

/-! Trips (R137 to R141). -/

/-- The count at which the over-current comparator of channel `n` may trip next: the present one past blanking, frozen or
not, or in a burnish period the end of blanking (R116, R131, R142). -/
def State.ocAt (s : State) (n : Nat) : Option Nat :=
  let c := s.chan n
  if !c.run then none
  else if !c.burn then (if c.armed then some c.cnt else none)
  else if c.rose then
    let t := max c.cnt (c.hgOn + c.cmpb).toNat
    if t = c.cnt ∨ (s.ticking n ∧ s.reach n t) then some t else none
  else none

/-- OVERCURRENT_TRIP (R116, R137): past blanking. -/
def execOvercurrentTrip (n : Fin 16) (s : State) : Host.Outcome State Fault Refusal :=
  done (match s.ocAt n with
    | some t => ((s.modChan n (fun c => c.goto t)).ownTrip n 0).proofTrips
    | none => s)

/-- STRING_OVERVOLTAGE_TRIP (R137, R171). -/
def execStringOvervoltageTrip (n : Fin 16) (s : State) : Host.Outcome State Fault Refusal :=
  done (if s.coreOn then (s.ownTrip n 1).proofTrips else s)

/-- PWMCLK runs: START or LIT-RUN, not held by RST# or past step 2 of a mains loss (R137, R400). -/
def State.pwmClk (s : State) : Bool :=
  decide (4 ≤ s.pwr.boot) && !s.pwr.rstLow && decide (s.pwr.loss < 2) && s.fld F.SYS_MODE_STATE != 2

/-- TRIP pin `t` is inside its blanking window (R137, R352). -/
def State.tripBlanked (s : State) (t : Nat) : Bool :=
  let c := s.reg (R.PWM_TRIPSRC0 + 64 * t)
  c.getLsbD 3 && (nthOf s.gtu (getBits c 2 0)).blk

/-- TRIP_PIN_ACTIVE (R137). -/
def execTripPinActive (t : Fin 4) (s : State) : Host.Outcome State Fault Refusal :=
  done (if s.pwmClk ∧ s.bit (R.PWM_TRIPSRC0 + 64 * t.val) 15 ∧ !s.tripBlanked t then
    (s.forChans (fun n u => if s.bit (R.PWM_TRIPMSK0 + 64 * t.val) n then u.ownTrip n (2 + t) else u)).proofTrips
  else s)

/-- A sticky PWR_STAT bit (R409). -/
def State.pwrStick (s : State) (f : Fld) : State := s.stick R.PWR_STAT R.PWR_IRQEN irqPwr f.mask

/-- A global condition is active again: its wait under R140 ends, and it is not inactive any more. -/
def State.globalLive (s : State) (b : Nat) : State :=
  s.modPwm (fun q => { q with waiting := q.waiting.filter (· != b), quiet := q.quiet.filter (· != b) })

/-- The global sources whose level stands and whose enable is 1 trip (R137): at a crossing, where the core comes out of a
reset, and at a write that enables one, on which the spec is silent (DESIGN CHOICE, log entry 60). -/
def State.globalLevels (s : State) : State :=
  let r := if s.flag F.PWR_STAT_LINKUVL ∧ s.flag F.PWM_GTRIP_LINKUV then s.globalTrip 6 else s
  let r := if s.flag F.PWR_STAT_LINKOVL ∧ s.flag F.PWM_GTRIP_LINKOV then r.globalTrip 7 else r
  let r := if s.pwm.otLive then r.globalTrip 8 else r
  r.proofTrips

/-- LINK_UNDERVOLTAGE (R390, R408): `level`: VLSNS in 0.25 V. The comparator is analog: its level is live whether the core
runs or not. -/
def execLinkUndervoltage (level : Byte) (s : State) : Host.Outcome State Fault Refusal :=
  done (
    let r := (s.setFlag F.PWR_STAT_LINKUVL true).globalLive 6
    if r.coreOn then ((r.pwrStick F.PWR_STAT_LINKUV).post 2 6 level.toNat).globalLevels else r)

/-- LINK_OVERVOLTAGE (R390, R408). -/
def execLinkOvervoltage (level : Byte) (s : State) : Host.Outcome State Fault Refusal :=
  done (
    let r := (s.setFlag F.PWR_STAT_LINKOVL true).globalLive 7
    if r.coreOn then ((r.pwrStick F.PWR_STAT_LINKOV).post 2 7 level.toNat).globalLevels else r)

/-- OVERTEMPERATURE (R137, R526). -/
def execOvertemperature (s : State) : Host.Outcome State Fault Refusal :=
  done (
    let r := (s.modPwm (fun q => { q with otLive := true })).globalLive 8
    if r.coreOn then r.globalLevels else r)

/-- The latch bit of a global source. -/
def globalBit : GlobalSrc → Nat
  | .linkuv => 6
  | .linkov => 7
  | .ot => 8

/-- GLOBAL_TRIP_SOURCE_INACTIVE (R140, R390): the live flag clears and the 1 ms wait begins. -/
def execGlobalTripSourceInactive (src : GlobalSrc) (s : State) : Host.Outcome State Fault Refusal :=
  done (
    let r := match src with
      | .linkuv => s.setFlag F.PWR_STAT_LINKUVL false
      | .linkov => s.setFlag F.PWR_STAT_LINKOVL false
      | .ot => s.modPwm (fun q => { q with otLive := false })
    (r.globalLive (globalBit src)).modPwm (fun q => { q with waiting := q.waiting ++ [globalBit src] }))

/-- TRIP_CLEAR (R140): `oc`, `ov`: comparators active by channel; `pins`: filtered TRIP pins at their active level. -/
def execTripClear (p : Path) (oc ov : Word) (pins : BitVec 4) (s : State) : Host.Outcome State Fault Refusal :=
  done (s.onWrite p (fun t => t.pwmSel.foldl (fun u n => u.tripClr n oc ov pins) t))

/-- GLOBAL_TRIP_AUTO_CLEAR (R140). -/
def execGlobalTripAutoClear (s : State) : Host.Outcome State Fault Refusal := done (if s.coreOn then s.autoClear else s)

/-- STORM_WINDOW_RESTART (R141): without bench timing. -/
def execStormWindowRestart (s : State) : Host.Outcome State Fault Refusal :=
  done (if s.coreOn ∧ !s.benchTimed then s.stormRestart else s)

/-- PWM_HOLD_TIMEOUT (R142). -/
def execPwmHoldTimeout (n : Fin 16) (s : State) : Host.Outcome State Fault Refusal := done (s.holdTimeout n)

/-! Phase sources and dimming periods. -/

/-- A SYNCI edge loads PWM_PHS modulo PER + 1 into the counter of each masked channel (R144). It resets the prescaler, and
where the count is 0 its ZERO is counted from there, so the prescaler reads 1 modulo PRESC + 1 (DESIGN CHOICE, log entry
60). -/
def State.syncLoad (s : State) : State :=
  if s.flag F.PWM_SYNC_SIEN then
    s.forChans (fun n t =>
      if t.bit R.PWM_SYNCMSK n ∧ t.ticking n then
        let c0 := (t.reg (R.PWM_PHS + n)).toNat % ((t.chan n).per + 1)
        let t := t.modChan n (fun c => { c with psc := 0 })
        if c0 = 0 then t.boundary n (t.chan n).bstOn false else t.modChan n (fun c => c.syncLoad c0)
      else t)
  else s

/-- SYNCI_EDGE (R144, R167). -/
def execSynciEdge (s : State) : Host.Outcome State Fault Refusal :=
  done (if s.coreOn then s.syncLoad.synciMark else s)

/-- SYNCO_PULSE_END (R144). -/
def execSyncoPulseEnd (s : State) : Host.Outcome State Fault Refusal := done (s.modPwm (fun q => { q with synco := false }))

/-- PHREF_PULSE (R336). -/
def execPhrefPulse (s : State) : Host.Outcome State Fault Refusal :=
  done (if s.coreOn ∧ s.phrefDue then ((s.modTim (fun m => { m with phrefAt := some s.cyc })).pulse 0x6D).phrefMark else s)

/-- The soft start of channel `n` limits no lamp any more, or it has none to make: disabled, or locked off. A channel
that has not started, or waits for a restart, has its ceiling still to come (R397). -/
def State.lightOf (s : State) (n : Nat) : Bool :=
  !s.bit R.PWM_ENA n || s.lockedOff n ||
    ((s.chan n).run && !(s.chan n).restart && !s.flag (F.CUR_CSTAT_SSL.at n))

/-- FIRST_LIGHT (R396 step 8, R397): every ceiling has reached 0xFFFFF. -/
def State.firstLight (s : State) : State :=
  if s.litRun ∧ !s.pwr.light ∧ (List.range 16).all s.lightOf then
    let base := if s.flag F.SYS_MODE_STRAP then s.pwr.goAt else s.pwr.vauxAt
    let t := min 0xFFFF (max 1 ((s.cyc - base + 6143) / 6144))
    { s.setFld F.PWR_TFL_T t with pwr := { s.pwr with light := true }, clk := { s.clk with fatalRow := 0 } }
  else s

/-- A realiser that was restarted repeats the last dimming period of channel `n` (R406): its burst once more, as
CUR_BURST and CUR_FINAL show it. -/
def State.dimAgain (s : State) (n : Nat) : State :=
  let b := (s.reg (R.CUR_AMP + n)).getLsbD 15
  s.modChan n (fun c => { c with
    kCount := 0, nk := if b then (s.reg (R.CUR_BURST + n)).toNat % 1024 else 0,
    nf := if b then (s.reg (R.CUR_FINAL + n)).toNat else 0 })

/-- A dimming period of lamp `g` begins: each of its channels takes its DRIVE, running or not, and the stipple index
advances (R158 to R165); within 1 ms of a restart of the realiser it repeats the last (R406). -/
def State.dimPeriod (s : State) (g : Nat) : State :=
  let m := s.pwm.stip.getD g 0
  let again := s.pwm.dimRep.getD g false && decide (s.cyc ≤ s.pwm.stallAt + 61440)
  let r := s.forChans (fun n t => if t.groupOf n ≠ g then t else if again then t.dimAgain n else t.dimStart n m)
  let r := r.modPwm (fun q =>
    { q with stip := q.stip.set g ((m + 1) % 16), dimAt := q.dimAt.set g (some s.cyc), dimNew := q.dimNew.set g false,
              dimLen := q.dimLen.set g (s.fld F.CUR_DPER_DPER), dimRep := q.dimRep.set g false })
  r.firstLight

/-- DIMMING_PERIOD_START (R158 to R165, R167, R168): lamp `g`, or the channels of no lamp for 8. A start that the source in
use does not mark, and one that a change of source passes over, begin no period. -/
def execDimmingPeriodStart (g : Fin 9) (s : State) : Host.Outcome State Fault Refusal :=
  done (if s.litRun then
    let r := s.phaseUpdate
    if !r.dimDueNow g then r
    else
      let p := r.modPwm (fun q => { q with dimDue := q.dimDue.set g none })
      if r.dimPass g then p else p.dimPeriod g
  else s)

/-! Retries. -/

/-- RETRY_DUE (R173). -/
def execRetryDue (n : Fin 16) (oc ov : Bool) (pins : BitVec 4) (s : State) : Host.Outcome State Fault Refusal :=
  done (if s.coreOn then s.retry n oc ov pins else s)

/-- RETRY_COUNT_RESET (R174). -/
def execRetryCountReset (n : Fin 16) (s : State) : Host.Outcome State Fault Refusal := done (s.retryReset n)

/-- LOCK_CLEAR (R175). -/
def execLockClear (p : Path) (oc ov : Word) (pins : BitVec 4) (s : State) : Host.Outcome State Fault Refusal :=
  done (s.onWrite p (fun t => t.curSel.foldl (fun u n => u.lockClr n oc ov pins) t))

end Sys2Proof.Machine
end

