-- ==== Sys2Proof/Machine/Gtu.lean ====
section
/-! DEFINITION. The general timers (R341 to R359): counting, compares, triggers, captures, pins, sleep and catch-up. -/

namespace Sys2Proof.Machine

/-- Timer channel `n`. -/
def State.gt (s : State) (n : Nat) : GtChan := nthOf s.gtu n

/-- Timer channel `n` changed. -/
def State.modGt (s : State) (n : Nat) (f : GtChan → GtChan) : State := { s with gtu := modNth s.gtu n f }

/-- A state changed for each timer channel in turn. -/
def State.forGts (s : State) (f : Nat → State → State) : State := (List.range 8).foldl (fun t n => f n t) s

/-- The channels that an indexed write of page GTU reaches (R27). -/
def State.gtuSel (s : State) : List Nat :=
  let c := s.fld F.GTU_SEL_CH
  if c = 0x1F then List.range 8 else if c < 8 then [c] else []

/-- A sticky GTU_CSTAT bit of channel `n`; its interrupt rises where `en` (R354). -/
def State.gtStick (s : State) (n : Nat) (f : Fld) (en : Bool) : State :=
  let was := s.flag (f.at n)
  let r := s.setFlag (f.at n) true
  if !was ∧ en then r.irq (irqGt n) else r

/-- The sleep code of channel `n` (R355). -/
def State.gtMode (s : State) (n : Nat) : Nat :=
  let m := getBits (s.reg R.GTU_SLEEP) (2 * n + 1) (2 * n)
  if m = 3 then 0 else m

/-- The slave mode in force: RESET and START are NONE under CLKSRC = 0b11 (R346). -/
def State.gtSmode (s : State) (n : Nat) : Nat :=
  let m := s.fld (F.GTU_CTL_SMODE.at n)
  if s.fld (F.GTU_CTL_CLKSRC.at n) = 3 ∧ m % 2 = 1 then 0 else m

/-- STOP and SLOW apply to channel `n` (R355). -/
def State.gtSleeps (s : State) (n : Nat) : Bool :=
  let m := s.gtSmode n
  s.fld (F.GTU_CTL_CLKSRC.at n) == 0 && (m == 0 || (m == 3 && (s.gt n).going)) && s.gtMode n != 0

/-- Channel `n` is frozen by hold (R358). -/
def State.gtFrozen (s : State) (n : Nat) : Bool := s.holdActive && s.flag (F.GTU_CTL_HOLDM.at n)

/-- The gate level of channel `n` (R346). -/
def State.gtGate (s : State) (n : Nat) : Bool :=
  let v := if s.flag (F.GTU_CTL_GSRC.at n) then (s.gt (s.fld (F.GTU_CTL_MSTR.at n))).out else (s.gt n).level
  v != s.flag (F.GTU_CTL_GPOL.at n)

/-- The timer unit's clock runs for channel `n` (R355, R380, R381): in LIT-IDLE an AWAKE channel needs CLK_GATE_SLP,
and a STOP channel runs until the KXO edge that stops it. -/
def State.gtClock (s : State) (n : Nat) : Bool :=
  let c := s.gt n
  if s.fld F.SYS_MODE_STATE = 2 then
    (s.gtMode n == 0 && s.flag F.CLK_GATE_SLP_GTU && !c.stop) || (s.gtMode n == 1 && s.gtSleeps n && c.k0.isNone)
  else s.flag F.CLK_GATE_RUN_GTU && (!c.stop || (s.gtMode n == 1 && c.k0.isNone))

/-- Channel `n` steps from KXO (R357): SLOW in LIT-IDLE. -/
def State.gtSlow (s : State) (n : Nat) : Bool :=
  let c := s.gt n
  s.fld F.SYS_MODE_STATE == 2 && s.gtMode n == 2 && c.run && c.stop && c.k0.isNone && !s.gtFrozen n

/-- Channel `n` takes count events: GTU_CSTAT.RUN (R346). -/
def State.gtRuns (s : State) (n : Nat) : Bool :=
  let m := s.gtSmode n
  (s.gt n).run && !s.gtFrozen n && s.gtClock n && (m != 2 || s.gtGate n) && (m != 3 || (s.gt n).going)

/-- One step of the count (R341, R349): above TOP the step is a wrap; START stops at its CMP1 value (R346). -/
def GtChan.step (c : GtChan) (start : Bool) : GtChan :=
  let v := if c.top ≤ c.cnt then 0 else c.cnt + 1
  { c with cnt := v, adv := 1, going := c.going && !(start && v == c.c1) }

/-- The last change of the count stepped onto a value or over it (R347). -/
def GtChan.reached (c : GtChan) (v : Nat) : Bool :=
  decide (v ≤ c.top) && decide ((c.cnt + (c.top + 1) - v) % (c.top + 1) < c.adv)

/-- The steps that bring the count onto a value, at least one. -/
def GtChan.stepsTo (c : GtChan) (v : Nat) : Nat :=
  let x := (v + (c.top + 1) - c.cnt % (c.top + 1)) % (c.top + 1)
  if x = 0 then c.top + 1 else x

/-- `a` steps of the count at once (R357): from above TOP the first is a wrap. -/
def GtChan.pass (c : GtChan) (a : Nat) : GtChan :=
  { c with cnt := (if c.top < c.cnt then a - 1 else c.cnt + a) % (c.top + 1), adv := a }

/-- A count event of channel `n`. -/
def State.gtStep (s : State) (n : Nat) : State :=
  if s.gtRuns n then s.modGt n (fun c => c.step (s.gtSmode n == 3)) else s

/-- The prescaler's period in SYSCLK cycles (R342). -/
def State.gtPre (s : State) (n : Nat) : Nat := 2 ^ s.fld (F.GTU_CTL_PSC.at n)

/-- The level of pin GTn where it is driven (R344). -/
def State.gtOut (s : State) (n : Nat) : Option Bool :=
  if s.flag (F.GTU_PIN_OE.at n) then some (((s.gt n).out != s.flag (F.GTU_PIN_INV.at n)) != (s.gt n).pulse) else none

/-- Channel `n` takes triggers and capture edges: enabled, not frozen, not asleep. -/
def State.gtAlive (s : State) (n : Nat) : Bool := (s.gt n).run && !s.gtFrozen n && s.gtClock n

/-- A pulse arrives at the trigger input of channel `n` (R345); one that is disabled, frozen or stopped ignores it (R343,
R358). -/
def State.gtKick (s : State) (n : Nat) : State :=
  if s.gtAlive n ∨ s.gtSlow n then s.modGt n (fun c => { c with trig := true }) else s

/-- A timer tick: written values wait for two of them, and the pin filter samples the channel's own output (R344, R348). -/
def GtChan.tick (c : GtChan) (own : Bool) : GtChan :=
  let age := Option.map (fun (e : Nat × Nat) => (e.1, min 2 (e.2 + 1)))
  { c with
    sub := 0, nTop := age c.nTop, n0 := age c.n0, n1 := age c.n1,
    differ := if own && c.sync2 != c.level then min 16 (c.differ + 1) else 0 }

/-- One SYSCLK edge of channel `n`: its prescaler, and a count event under CLKSRC = 0b00 (R342). -/
def State.gtEdge (s : State) (n : Nat) : State :=
  if s.gtAlive n then
    let s := match s.gtOut n with
      | some b => s.modGt n (fun c => { c with sync1 := b, sync2 := c.sync1 })
      | none => s
    if (s.gt n).sub + 1 < s.gtPre n then s.modGt n (fun c => { c with sub := c.sub + 1 })
    else
      let r := s.modGt n (fun c => c.tick (s.gtOut n).isSome)
      if r.fld (F.GTU_CTL_CLKSRC.at n) = 0 then r.gtStep n else r
  else s

/-- Counts in 2^-16 that a time `d` of 2^-48 s amounts to (R356, R357). -/
def State.gtScaled (s : State) (n d : Nat) : Nat := d * 61440000 * 65536 / (2 ^ 48 * s.gtPre n)

/-- The fraction of a count that channel `n` has, in 2^-16. -/
def State.gtFrac (s : State) (n : Nat) : Nat := (s.gt n).frac + (s.gt n).sub * 65536 / s.gtPre n

/-- Channels enter LIT-IDLE (R355). -/
def State.gtuIdle (s : State) : State :=
  s.forGts (fun n t => if (t.gt n).run ∧ t.gtSleeps n then
    t.modGt n (fun c => if t.gtMode n = 2 then { c with stop := true, k0 := none, frac := t.gtFrac n, sub := 0 } else { c with stop := true, k0 := none }) else t)

/-- A KXO edge of channel `n` in a sleep (R356 step 1, R357); `d`: the edge's keep-alive increment. START stops at its
CMP1 value (R346). -/
def State.gtKxo (s : State) (n d : Nat) : State :=
  let c := s.gt n
  let idle := s.fld F.SYS_MODE_STATE == 2 && s.gtSleeps n
  if !c.run ∨ c.k0.isSome ∨ (!c.stop ∧ !idle) then s
  else if s.gtMode n = 1 ∧ (idle ∨ s.fld F.SYS_MODE_STATE ≠ 2) then
    s.modGt n (fun c => { c with stop := true, k0 := some s.keep.ka, frac := s.gtFrac n, sub := 0 })
  else if !idle then s.modGt n (fun c => { c with stop := false, sub := 0 })
  else if s.gtFrozen n then s
  else if !c.stop then s.modGt n (fun c => { c with stop := true, frac := s.gtFrac n, sub := 0 })
  else
    let f := c.frac + s.gtScaled n d
    if s.gtSmode n = 3 ∧ c.stepsTo c.c1 ≤ f / 65536 ∧ c.c1 ≤ c.top then
      s.modGt n (fun c => { c.pass (c.stepsTo c.c1) with frac := 0, going := false })
    else s.modGt n (fun c => { c.pass (f / 65536) with frac := f % 65536 })

/-- The keep-alive edge that ends the main counter's run stops the STOP and SLOW channels (R332, R355, R356); the
count of an AWAKE channel is lost. A channel that STOP and SLOW do not apply to holds its count, and one that replay has
not taken up yet stays held. -/
def State.gtuKeep (s : State) : State :=
  s.forGts (fun n t =>
    if (t.gt n).held then t
    else if (t.gt n).run ∧ (t.gtSleeps n ∨ (t.gt n).k0.isSome ∨ t.gtSlow n) then
      t.modGt n (fun c => { c with
                                   stop := true, held := true, k0 := some (c.k0.getD t.keep.ka),
                                   frac := if c.k0.isNone then t.gtFrac n else c.frac, sub := 0 })
    else if (t.gt n).run ∧ t.gtMode n ≠ 0 then t.modGt n (fun c => { c with held := true, adv := 0 })
    else if t.gtMode n = 0 then t.modGt n (fun c => { c with cnt := 0, adv := 0, k0 := none }) else t)

/-- Channel `n` starts (R343). -/
def State.gtStart (s : State) (n : Nat) : State :=
  s.modGt n (fun c => { c with
                               run := true, sub := 0, edges := 0, adv := 0, going := false, trig := false, blk := false,
                               out := s.flag (F.GTU_PIN_INIT.at n) })

/-- A write of GTU_ENA (R343). -/
def State.gtuEna (s : State) (v : Word) : State :=
  let old := s.reg R.GTU_ENA
  (s.setReg R.GTU_ENA (v &&& 0xFF)).forGts (fun n t =>
    if v.getLsbD n ∧ !old.getLsbD n then t.gtStart n
    else if !v.getLsbD n then t.modGt n (fun c => { c with run := false, stop := false, k0 := none })
    else t)

/-- The channels enabled by the replayed GTU_ENA start (R360): one that held its count in KEEP under STOP or SLOW
(`kept`) waits to be caught up, or goes on from it where it is not (R355), the others start at 0; a channel that is off keeps its replayed count. -/
def State.gtuReplay (s : State) (kept : List GtChan) : State :=
  s.forGts (fun n t =>
    let k := nthOf kept n
    let on := t.bit R.GTU_ENA n
    let held := on && k.held && t.gtMode n != 0
    let due := held && k.k0.isSome
    let t := t.modGt n (fun c => { c with
                                          top := t.pair (R.GTU_TOP_LO + n), c0 := t.pair (R.GTU_CMP0_LO + n),
                                          c1 := t.pair (R.GTU_CMP1_LO + n),
                                          cnt := if held then k.cnt else if on then 0 else c.cnt, adv := 0,
                                          frac := if held then k.frac else 0,
                                          k0 := if held then k.k0 else none, stop := false, held := false })
    if on then (t.gtStart n).modGt n (fun c => { c with stop := due, going := due && t.gtSmode n == 3 })
    else t.modGt n (fun c => { c with run := false }))

/-- A pending value, and the value in force once it has waited for two timer ticks. -/
def pendTake (p : Option (Nat × Nat)) (v : Nat) : Nat × Option (Nat × Nat) :=
  match p with
  | some (w, 2) => (w, none)
  | _ => (v, p)

/-- GT_VALUE_EFFECT (R348, R349): each pending value whose second timer tick has come is in force; a TOP below the count
forces a wrap. -/
def State.gtEffect (s : State) (n : Nat) : State :=
  let c := s.gt n
  let top := pendTake c.nTop c.top
  let r := s.modGt n (fun c => { c with
    top := top.1, nTop := top.2, c0 := (pendTake c.n0 c.c0).1, n0 := (pendTake c.n0 c.c0).2,
    c1 := (pendTake c.n1 c.c1).1, n1 := (pendTake c.n1 c.c1).2 })
  if top.2 ≠ c.nTop ∧ top.1 < c.cnt then r.gtStick n F.GTU_CSTAT_TCUT (r.flag (F.GTU_IE_TCUT.at n)) else r

/-- A committed write of GTU_CNT, GTU_TOP, GTU_CMP0 or GTU_CMP1 of channel `n` (R343, R348, R359); `which`: 0 to 3. A
disabled channel takes it at once. -/
def State.gtValue (s : State) (n which v : Nat) : State :=
  let age := if (s.gt n).run then 0 else 2
  let t := s.modGt n (fun c => match which with
    | 0 => { c with cnt := v, adv := 0 }
    | 1 => { c with nTop := some (v, age) }
    | 2 => { c with n0 := some (v, age) }
    | _ => { c with n1 := some (v, age) })
  if which = 0 ∨ (s.gt n).run then t else t.gtEffect n

/-! Compares (R347, R350 to R352). -/

/-- OUT after the PIN action of a compare (R350). -/
def pinAct (a : Nat) (out : Bool) : Bool := match a with
  | 1 => true
  | 2 => false
  | 3 => !out
  | _ => out

/-- The actions of a match of compare `k` of channel `n` (R350). -/
def State.gtActs (s : State) (n k : Nat) : State :=
  let a := s.reg ((if k = 0 then R.GTU_ACT0 else R.GTU_ACT1) + n)
  let r := s.modGt n (fun c => { c with
    out := pinAct (getBits a 1 0) c.out,
    blk := if s.flag (F.GTU_CTL_BLKW.at n) then k == 0 else false,
    going := c.going && !(k == 1 && s.gtSmode n == 3) })
  let r := if a.getLsbD 14 then r.userStart else r
  let r := if a.getLsbD 13 then r.pushLatest else r
  let r := if a.getLsbD 12 then r.gtKick (getBits a 10 8) else r
  let r := r.gtStick n (if k = 0 then F.GTU_CSTAT_CM0 else F.GTU_CSTAT_CM1) (a.getLsbD 15)
  r.pulse ((if k = 0 then 0x50 else 0x58) + n)

/-- GT_COMPARE_MATCH (R347, R350, R351, R357): the last step came onto a compare value at or below TOP, or over it under
SLOW. Compares that the same step meets both act, once. -/
def State.gtMatch (s : State) (n : Nat) (m0 m1 : Bool) : State :=
  let c := s.gt n
  if ((m0 ∧ c.reached c.c0) ∨ (m1 ∧ c.reached c.c1)) ∧ c.run ∧ !s.gtFrozen n then
    let r := s.modGt n (fun c => { c with adv := 0 })
    let r := if c.reached c.c0 then r.gtActs n 0 else r
    if c.reached c.c1 then r.gtActs n 1 else r
  else s

/-! Captures, triggers and pins (R344 to R346, R353). -/

/-- A qualifying capture edge of channel `n` (R353, R329). -/
def State.gtCapture (s : State) (n : Nat) : State :=
  let c := s.gt n
  if c.edges < s.fld (F.GTU_CAPCTL_EPS.at n) then s.modGt n (fun c => { c with edges := c.edges + 1 })
  else
    let unread := s.flag (F.GTU_CSTAT_CAP.at n)
    let r := (s.setPair (cell R.GTU_CAP_LO n) c.cnt).modGt n (fun c => { c with edges := 0 })
    let r := (r.pulse (0x60 + n)).gtStick n F.GTU_CSTAT_CAP (r.flag (F.GTU_IE_CAP.at n))
    let r := if unread then r.gtStick n F.GTU_CSTAT_CAPOVR (r.flag (F.GTU_IE_CAPOVR.at n)) else r
    r.timCapture n

/-- A pulse on the trigger input of channel `n` acts (R346, R353). -/
def State.gtTrig (s : State) (n : Nat) : State :=
  let s := s.modGt n (fun c => { c with trig := false })
  if !s.gtAlive n ∧ !s.gtSlow n then s
  else
    let s := if s.gtAlive n ∧ s.flag (F.GTU_CAPCTL_EN.at n) ∧ s.flag (F.GTU_CAPCTL_SRC.at n) then s.gtCapture n else s
    let s := if s.fld (F.GTU_CTL_CLKSRC.at n) = 3 then s.gtStep n else s
    match s.gtSmode n with
    | 1 => s.modGt n (fun c => { c with cnt := 0, adv := 0, sub := 0 })
    | 3 => s.modGt n (fun c => { c with cnt := 0, adv := 0, sub := 0, going := true })
    | _ => s

/-- The pin filter of channel `n` may accept a level now (R344): with OE = 1 the pad carries the channel's own output, and
FILT + 1 samples of it agree. -/
def State.gtAccepts (s : State) (n : Nat) : Bool :=
  (s.gtOut n).isNone || decide (s.fld (F.GTU_CAPCTL_FILT.at n) < (s.gt n).differ)

/-- The pin filter of channel `n` accepts a level (R344). -/
def State.gtPin (s : State) (n : Nat) (level : Bool) : State :=
  if (s.gt n).level = level ∨ !s.gtAccepts n then s
  else
    let s := s.modGt n (fun c => { c with level := level, differ := 0 })
    if !s.gtAlive n then s
    else
      let e := s.fld (F.GTU_CAPCTL_EDGE.at n)
      let takes := if level then e % 2 == 1 else decide (2 ≤ e)
      let s := if s.flag (F.GTU_CAPCTL_EN.at n) ∧ !s.flag (F.GTU_CAPCTL_SRC.at n) ∧ takes then s.gtCapture n else s
      if s.fld (F.GTU_CTL_CLKSRC.at n) = (if level then 1 else 2) then s.gtStep n else s

/-- Destination 0x30 + n: the pin pulses where it is driven (R344); a disabled or frozen channel holds its pin (R343, R358). -/
def State.gtPulse (s : State) (n : Nat) : State :=
  if s.flag (F.GTU_PIN_OE.at n) ∧ (s.gt n).run ∧ !s.gtFrozen n then s.modGt n (fun c => { c with pulse := true }) else s

/-- A compare value lay in the `d` counts that a catch-up from `c` skipped (R356). -/
def gtSkipped (c : GtChan) (v d : Nat) : Bool :=
  decide (v ≤ c.top) && decide (c.stepsTo v ≤ d)

/-- GT_CATCH_UP (R356 steps 3 and 4). -/
def State.gtCatch (s : State) (n : Nat) : State :=
  let c := s.gt n
  match c.k0 with
  | none => s
  | some k =>
    if !c.run ∨ !c.stop ∨ s.pwr.boot < 6 ∨ s.fld F.SYS_MODE_STATE = 2 then s
    else
      let f := s.gtScaled n ((s.keep.ka + 2 ^ 80 - k) % 2 ^ 80) + c.frac
      let d := f / 65536
      let r := s.modGt n (fun c => { c with
                                            cnt := (c.cnt + d) % (c.top + 1), adv := 0, frac := f % 65536, sub := 0,
                                            stop := false, k0 := none })
      let r := if d ≠ 0 ∧ (gtSkipped c c.c0 d ∨ gtSkipped c c.c1 d) then
          r.gtStick n F.GTU_CSTAT_MISS (r.flag (F.GTU_IE_MISS.at n)) else r
      r.gtStick n F.GTU_CSTAT_CATCH (r.flag (F.GTU_IE_CATCH.at n))

/-- The live words GTU_PINS and GTU_CSTAT (R360). -/
def State.gtuPins (s : State) : Word :=
  BitVec.ofNat 16 ((List.range 8).foldl (fun a n =>
    a + (if (s.gt n).out then 2 ^ (8 + n) else 0) + (if (s.gt n).level then 2 ^ n else 0)) 0)

def State.gtuCstat (s : State) (n : Nat) : Word :=
  let b (x : Bool) (k : Nat) : Word := if x then BitVec.ofNat 16 (2 ^ k) else 0
  (s.reg (R.GTU_CSTAT + n) &&& 0x7F) ||| b (s.gtRuns n) 15 ||| b (s.gt n).out 14 ||| b (s.gt n).blk 13

/-! Commands of the timers. -/

/-- GTU_ENA_WRITE (R343). -/
def execGtuEnaWrite (p : Path) (v : Word) (s : State) : Host.Outcome State Fault Refusal :=
  done (s.onWrite p (fun t => t.gtuEna v))

/-- GT_VALUE_EFFECT (R348, R349). -/
def execGtValueEffect (n : Fin 8) (s : State) : Host.Outcome State Fault Refusal := done (s.gtEffect n)

/-- GT_COMPARE_MATCH (R347, R350 to R352). -/
def execGtCompareMatch (n : Fin 8) (m0 m1 : Bool) (s : State) : Host.Outcome State Fault Refusal := done (s.gtMatch n m0 m1)

/-- GT_TRIGGER (R345, R346): a pulse that has arrived acts. -/
def execGtTrigger (n : Fin 8) (s : State) : Host.Outcome State Fault Refusal :=
  done (if (s.gt n).trig then s.gtTrig n else s)

/-- GTU_TRG_WRITE (R345). -/
def State.gtuTrg (s : State) (v : Word) : State :=
  s.forGts (fun n t => if v.getLsbD n then t.gtKick n else t)

def execGtuTrgWrite (p : Path) (v : Word) (s : State) : Host.Outcome State Fault Refusal :=
  done (s.onWrite p (fun t => t.gtuTrg v))

/-- GT_PIN_EDGE (R344, R353). -/
def execGtPinEdge (n : Fin 8) (level : Bool) (s : State) : Host.Outcome State Fault Refusal :=
  done (if s.coreOn then s.gtPin n level else s)

/-- GT_PIN_PULSE_END (R344). -/
def execGtPinPulseEnd (n : Fin 8) (s : State) : Host.Outcome State Fault Refusal :=
  done (s.modGt n (fun c => { c with pulse := false }))

/-- GT_CATCH_UP (R356). -/
def execGtCatchUp (n : Fin 8) (s : State) : Host.Outcome State Fault Refusal := done (s.gtCatch n)

end Sys2Proof.Machine
end

