-- ==== Sys2Proof/Machine/Sec.lean ====
section
/-! DEFINITION. The security engine (R459 to R485): derived keys, slots, frame protection, the address directory and
replay windows, and its commands. -/

namespace Sys2Proof.Machine

/-- Response codes of R292 that SEC_RESULT, the line commands and line access use. -/
def cOk : Nat := 0x00
def cPending : Nat := 0x01
def cOwned : Nat := 0x02
def cLate : Nat := 0x03
def cBadOpc : Nat := 0x10
def cBadLen : Nat := 0x11
def cRange : Nat := 0x12
def cUnsup : Nat := 0x13
def cKey : Nat := 0x20
def cDenied : Nat := 0x21
def cLocked : Nat := 0x22
def cBusy : Nat := 0x30
def cNoSpace : Nat := 0x31
def cState : Nat := 0x32
def cCheck : Nat := 0x33
def cNoHost : Nat := 0x34
def cBVerify : Nat := 0x40
def cBRoll : Nat := 0x41
def cBTarget : Nat := 0x42
def cBMissing : Nat := 0x43

/-- The engine's state, changed. -/
def State.modSec (s : State) (f : SecState → SecState) : State := { s with sec := f s.sec }

/-- A sticky SEC_STAT bit (R484). -/
def State.secStick (s : State) (f : Fld) : State := s.stick R.SEC_STAT R.SEC_IRQEN irqSec f.mask

/-- The node's EUI-64 as bytes. -/
def euiBytes : List Byte := (List.range 4).flatMap (fun i => wordBytes (Config.eui i))

/-! Keys (R460, R464 to R467). -/

/-- The KEK of R460. -/
def kekBytes : List Byte := kdf256 (toBytes 32 Config.root) [0x4B, 0x45, 0x4B, 0x31] euiBytes

/-- The IDW key of R460, and the identity scalar: the fuses hold it wrapped under that key (R459). -/
def idwBytes : List Byte := kdf256 (toBytes 32 Config.root) [0x49, 0x44, 0x57, 0x31] euiBytes

def idScalar : Nat := ((kwUnwrap idwBytes (toBytes 40 Config.idWrapped)).map ofBytes).getD 0

/-- Key classes (R464). -/
def clsNet : Nat := 0
def clsGroup : Nat := 1
def clsAdmin : Nat := 2
def clsVerify : Nat := 3
def clsHost : Nat := 4
def clsBundle : Nat := 5

/-- The class of a KID, and the key bytes of a class. -/
def kidClass (kid : Nat) : Nat := kid / 32
def keyLen (cls : Nat) : Nat := if cls = clsBundle then 32 else if cls = clsVerify then 64 else 16

/-- The blob of slot `n`: its KID and the wrapped key; none where the slot is empty (R466). -/
def VltState.blob (v : VltState) (n : Nat) : Option (Nat × List Byte) :=
  match winner v.keys (recKeyBlob + n) with
  | some r => match r.payload with
    | k :: _ :: w => some (k.toNat, w)
    | _ => none
  | none => none

/-- The slot that holds a KID. -/
def State.slotOf (s : State) (kid : Nat) : Option Nat :=
  (List.range 8).find? (fun n => match s.vlt.blob n with
    | some (k, _) => k == kid
    | none => false)

/-- A slot holds a key of a class. -/
def State.holdsClass (s : State) (cls : Nat) : Bool :=
  (List.range 8).any (fun n => match s.vlt.blob n with
    | some (k, _) => kidClass k == cls
    | none => false)

/-- The key of a slot is asked for (R467): it is in the cache or unwrapped into it; a blob that fails makes the slot
unusable. -/
def State.slotKey (s : State) (n : Nat) : State × Option (List Byte) :=
  if s.sec.bad.contains n then (s, none)
  else match s.vlt.blob n with
    | none => (s, none)
    | some (_, w) =>
      match kwUnwrap kekBytes w with
      | some key => (s.modSec (fun q => { q with cache := (n :: q.cache.filter (· != n)).take 4 }), some key)
      | none =>
        let t := s.modSec (fun q => { q with bad := n :: q.bad, cache := q.cache.filter (· != n) })
        ((t.nmi F.NMI_STAT_VLTF).post 8 3 n, none)

/-- A slot is erased or reloaded: it leaves the cache on that edge, and is not BAD any more (R467). -/
def State.slotFresh (s : State) (n : Nat) : State :=
  s.modSec (fun q => { q with cache := q.cache.filter (· != n), bad := q.bad.filter (· != n) })

/-- The KID under which the node sends in a class (R469). -/
def State.txKid (s : State) (cls : Nat) : Nat :=
  32 * cls + (if cls = clsNet then s.fld F.SEC_TXG0_NET
    else if cls = clsGroup then s.fld F.SEC_TXG0_GROUP
    else if cls = clsAdmin then s.fld F.SEC_TXG0_ADMIN
    else s.fld F.SEC_TXG1_HOST)

/-! The frame counter (R470). -/

/-- HC62 counts the epoch; n is restarted. -/
def State.fcEpoch (s : State) : State :=
  if 1023 ≤ s.hat 62 then
    let t := s.modSec (fun q => { q with fcn := 2 ^ 22 })
    if t.flag F.SEC_STAT_FCEXH then t else (t.secStick F.SEC_STAT_FCEXH).post 8 0xB 0
  else
    let t := (s.hatInc 62 1).modSec (fun q => { q with fcn := 0 })
    t.post 8 6 (t.hat 62 % 65536)

/-- The next frame counter (SEC_FCNT). -/
def State.fcNext (s : State) : Nat := s.hat 62 % 1024 * 2 ^ 22 + s.sec.fcn % 2 ^ 22

/-- A protected frame can be sent: the tests have passed, the counter is not exhausted and its epoch is programmed. -/
def State.mayProtect (s : State) : Bool :=
  decide (s.sec.tests = 0) && !s.sec.failed && s.flag F.SEC_STAT_STOK && decide (s.sec.fcn < 2 ^ 22) &&
    decide (spGet zeroNat s.vlt.held 62 = 0) && decide (spGet zeroNat s.vlt.hatNext 62 = 0) && decide (s.hat 62 < 1024)

/-- A counter value is used. -/
def State.fcUse (s : State) : State :=
  let t := s.modSec (fun q => { q with fcn := q.fcn + 1 })
  if t.sec.fcn = 2 ^ 22 then t.fcEpoch else t

/-! Frames (R468, R270). -/

/-- The 12-byte MAC header. -/
def frameHdr (f : LineFrame) : List Byte :=
  let b (x : Bool) (n : Nat) : Nat := if x then 2 ^ n else 0
  let w0 := f.typ.toNat * 4096 + b f.sec 11 + b f.ackreq 10 + b f.urg 9 + b f.dir 8 + f.dmode.toNat * 64 + f.hops.toNat * 4
  let w2 := f.seq.toNat / 64 * 1024 + f.dst.toNat
  let w3 := f.seq.toNat % 64 * 1024 + f.src.toNat
  let w4 := f.ttier.toNat * 4096 + f.hopsrc.toNat
  toBytes 2 w0 ++ toBytes 2 f.seg.toNat ++ toBytes 2 w2 ++ toBytes 2 w3 ++ toBytes 2 w4 ++ toBytes 2 f.hopdst.toNat

/-- A MAC header read from its bytes, with the bytes after it. -/
def parseHdr (l : List Byte) : Option (LineFrame × List Byte) :=
  if l.length < 12 then none
  else
    let w (i : Nat) : Nat := ofBytes ((l.drop (2 * i)).take 2)
    some ({ typ := BitVec.ofNat 4 (w 0 / 4096), sec := (w 0).testBit 11, ackreq := (w 0).testBit 10,
            urg := (w 0).testBit 9, dir := (w 0).testBit 8, dmode := BitVec.ofNat 2 (w 0 / 64),
            hops := BitVec.ofNat 4 (w 0 / 4), seg := BitVec.ofNat 16 (w 1),
            seq := BitVec.ofNat 12 (w 2 / 1024 * 64 + w 3 / 1024), dst := BitVec.ofNat 10 (w 2),
            src := BitVec.ofNat 10 (w 3), ttier := BitVec.ofNat 4 (w 4 / 4096), hopsrc := BitVec.ofNat 10 (w 4),
            hopdst := BitVec.ofNat 10 (w 5) }, l.drop 12)

/-- The associated data of R468: the header with HOPS, word 4 and word 5 zero, and the security header. -/
def frameAad (f : LineFrame) (sh : List Byte) : List Byte := frameHdr { f with hops := 0, ttier := 0, hopsrc := 0, hopdst := 0 } ++ sh

/-- A frame of the node's own is protected (R468, R469): security header, ciphertext and MIC under a KID; none where
no slot holds it. -/
def State.protectFrame (s : State) (f : LineFrame) (kid : Nat) : State × Option (List Byte) :=
  match s.slotOf kid with
  | none => (s, none)
  | some n =>
    match s.slotKey n with
    | (t, none) => (t, none)
    | (t, some key) =>
      let sh := toBytes 4 t.fcNext ++ toBytes 1 kid
      let nonce := euiBytes ++ sh
      let aad := frameAad f sh
      (t.fcUse, some (sh ++ ccmCrypt key nonce f.args ++ ccmTag key nonce aad f.args 8))

/-! The address directory and the replay windows (R471, R473, R474). -/

/-- An unknown entry's words. -/
def dirDefault (_ : Nat) : Word := 0xFFFF

/-- The EUI-64 of a short address, none where it is unknown. -/
def State.dirEui (s : State) (a : Nat) : Option (List Byte) :=
  let ws := spRead dirDefault s.sec.dir (4 * a) 4
  if ws.all (· == 0xFFFF) then none else some (wordsBytes ws)

/-- Every counter up to H counts as seen. -/
def seenDefault (_ : Nat) : Nat := 2 ^ 32 - 1

/-- The FLOOR record that holds address `a` (R474). -/
def State.floorBytes (s : State) (a : Nat) : List Byte :=
  (List.range 32).flatMap (fun i => toBytes 4 (spGet zeroNat s.sec.floor (a / 32 * 32 + i)))

def State.floorQueue (s : State) (a : Nat) : State := s.vRecord (recFloor + a / 32) (s.floorBytes a)

/-- The window of an address whose entry changed is cleared (R473). -/
def State.windowClear (s : State) (a : Nat) : State :=
  let had := spGet zeroNat s.sec.floor a
  let t := s.modSec (fun q => { q with
    h := spSet zeroNat q.h a 0, seen := spSet seenDefault q.seen a 0,
    floor := spSet zeroNat q.floor a 0, delta := spSet zeroNat q.delta a 0 })
  if had = 0 then t else t.floorQueue a

/-- One word of the directory written (R471). -/
def State.dirPut (s : State) (w : Nat) (v : Word) : State :=
  if spGet dirDefault s.sec.dir w = v then s
  else (s.modSec (fun q => { q with dir := spSet dirDefault q.dir w v })).windowClear (w / 4)

/-- An entry of the directory written. -/
def State.dirSet (s : State) (a : Nat) (eui : List Byte) : State :=
  (List.range 4).foldl (fun t i => t.dirPut (4 * a + i) ((bytesWords eui).getD i 0xFFFF)) s

/-- MAC_SHORT changes, and the node's own entry is written (R471). -/
def State.setShort (s : State) (a : Nat) : State :=
  let t := s.setFld F.MAC_SHORT_SHORT a
  if a = 0x3FF then t else t.dirSet a euiBytes

/-- The window admits a counter (R473). -/
def State.admits (s : State) (a c : Nat) : Bool :=
  let h := spGet zeroNat s.sec.h a
  decide (h < c) || (decide (h - c ≤ 31) && !(spGet seenDefault s.sec.seen a).testBit (h - c))

/-- The window moves to take a verified counter, and H is kept as floor and delta (R473, R474). -/
def State.windowMove (s : State) (a c : Nat) : State :=
  let h := spGet zeroNat s.sec.h a
  let m := spGet seenDefault s.sec.seen a
  if h < c then
    let m2 := if c - h < 32 then (m * 2 ^ (c - h) + 1) % 2 ^ 32 else 1
    let t := s.modSec (fun q => { q with h := spSet zeroNat q.h a c, seen := spSet seenDefault q.seen a m2 })
    let d := c - spGet zeroNat t.sec.floor a
    if 32768 ≤ d then
      (t.modSec (fun q => { q with floor := spSet zeroNat q.floor a c, delta := spSet zeroNat q.delta a 0 })).floorQueue a
    else t.modSec (fun q => { q with delta := spSet zeroNat q.delta a d })
  else s.modSec (fun q => { q with seen := spSet seenDefault q.seen a (m ||| 2 ^ (h - c)) })

/-- A frame fails check `i` of R472. -/
def State.secFail (s : State) (i : Nat) : State :=
  let t := match i with
    | 1 => (s.incReg R.SEC_DROPKEY).secStick F.SEC_STAT_KEYERR
    | 2 => (s.incReg R.SEC_DROPSRC).secStick F.SEC_STAT_DIRMISS
    | 3 => (s.incReg R.SEC_DROPRPL).secStick F.SEC_STAT_REPLAY
    | _ => (s.incReg R.SEC_DROPMIC).secStick F.SEC_STAT_MICERR
  t.modSec (fun q => { q with fails := q.fails + 1, check := i })

/-- Event 0x005 of the bench that ends (R472, R483). -/
def State.secBench (s : State) : State :=
  if s.sec.fails = 0 then s
  else (s.post 8 5 (s.sec.check * 4096 + min 4095 s.sec.fails)).modSec (fun q => { q with fails := 0 })

/-- A protected frame is checked (R472): the plain payload and the KID where it passes. `rest` follows the header. -/
def State.verifyFrame (s : State) (f : LineFrame) (rest : List Byte) : State × Option (List Byte × Nat) :=
  if s.sec.tests = 1 ∨ s.sec.failed ∨ !s.flag F.SEC_STAT_STOK ∨ rest.length < 13 then (s, none)
  else
    let sh := rest.take 5
    let kid := ofBytes (sh.drop 4)
    let c := ofBytes (sh.take 4)
    let body := rest.drop 5
    let n := body.length - 8
    match (if 6 ≤ kidClass kid then none else s.slotOf kid) with
    | none => (s.secFail 1, none)
    | some sl =>
      match s.slotKey sl with
      | (t, none) => (t.secFail 1, none)
      | (t, some key) =>
        match t.dirEui f.src.toNat with
        | none => (t.secFail 2, none)
        | some eui =>
          if !t.admits f.src.toNat c then (t.secFail 3, none)
          else
            let nonce := eui ++ sh
            let msg := ccmCrypt key nonce (body.take n)
            if ccmTag key nonce (frameAad f sh) msg 8 ≠ body.drop n then (t.secFail 4, none)
            else (t.windowMove f.src.toNat c, some (msg, kid))

/-- No usable slot: a frame of the node's own is discarded (R469). -/
def State.protectFail (s : State) : State :=
  ((s.stick R.MAC_STAT R.MAC_IRQEN irqPhy F.MAC_STAT_FMTERR.mask)).modSec (fun q => { q with fails := q.fails + 1, check := 1 })

end Sys2Proof.Machine
end

