-- ==== Sys2Proof/Machine/Mac.lean ====
section
/-! DEFINITION. Line access and network (R255 to R285): courses and benches, beacons, notices, contention,
acknowledgements, reservations, reception, joining, roles, rings and the ring port. -/

namespace Sys2Proof.Machine

/-- Line access, changed. -/
def State.modMac (s : State) (f : MacState → MacState) : State := { s with mac := f s.mac }

/-- A sticky MAC_STAT bit (R285). -/
def State.macStick (s : State) (f : Fld) : State := s.stick R.MAC_STAT R.MAC_IRQEN irqPhy f.mask

/-- Line access runs: the PHY does, and MAC_CTL.EN = 1. -/
def State.macOn (s : State) : Bool := s.phyOn && s.flag F.MAC_CTL_EN

/-- Own short address, acting role and present bench number. -/
def State.short (s : State) : Nat := s.fld F.MAC_SHORT_SHORT
def State.act (s : State) : Nat := s.fld F.MAC_ROLE_ACT
def State.bench (s : State) : Nat := s.pair R.MAC_BENCH_LO

/-- The tier that the node's frames carry (R270): 0 the head, t a relay, 15 a member. -/
def State.macTier (s : State) : Nat := if s.isHead then 0 else if s.act = 1 then s.fld F.MAC_PARENT_PTIER + 1 else 15

/-! Rings (R281). -/

/-- The entries of ring Q0 to Q5. -/
def State.ring (s : State) (r : Nat) : List Ent :=
  match r with
  | 0 => s.mac.q0 | 1 => s.mac.q1 | 2 => s.mac.q2 | 3 => s.mac.q3 | 4 => s.mac.q4 | 5 => s.mac.q5 | _ => []

def State.setRing (s : State) (r : Nat) (l : List Ent) : State :=
  s.modMac (fun m =>
    match r with
    | 0 => { m with q0 := l } | 1 => { m with q1 := l } | 2 => { m with q2 := l } | 3 => { m with q3 := l }
    | 4 => { m with q4 := l } | 5 => { m with q5 := l } | _ => m)

/-- The depth of a ring. -/
def ringDepth (r : Nat) : Nat :=
  match r with
  | 0 => 8 | 1 => 32 | 2 => 32 | 3 => 32 | 4 => 16 | 5 => 16 | 6 => 64 | _ => 256

/-- MAC_RLVL of a ring. -/
def State.ringFill (s : State) (r : Nat) : Nat :=
  if r = 6 then s.q6.length else if r = 7 then s.q7.length else (s.ring r).length

def State.ringFull (s : State) (r : Nat) : Bool := decide (ringDepth r ≤ s.ringFill r)

/-! Ranks (R264, R282). -/

/-- The rank of a frame in a ring. -/
def State.rankOf (s : State) (r : Nat) (e : Ent) : Nat :=
  let mx := s.fld F.MAC_AGE_MAX
  if e.f.urg then 12
  else if mx ≠ 0 ∧ mx ≤ e.age then 8
  else min 7 ((if r = 3 then 6 else if r = 2 then 4 else 2) + e.age)

/-- The queues that compete: 0 and 1 are the urgent and the routine queue of Q2, 3 is Q3, 5 is Q5. -/
def State.queueHead (s : State) (k : Nat) : Option Ent :=
  match k with
  | 0 => s.mac.q2.find? (fun e => e.f.urg)
  | 1 => s.mac.q2.find? (fun e => !e.f.urg)
  | _ => (s.ring k).head?

/-- The ring of a queue. -/
def queueRing (k : Nat) : Nat := if k ≤ 1 then 2 else k

/-- The frames that compete: the first of each queue that awaits no acknowledgement, with its queue and rank (R282). -/
def State.rivals (s : State) : List (Nat × Nat × Ent) :=
  [0, 1, 3, 5].filterMap (fun k =>
    if s.mac.waitAck.any (fun w => w.1 == k) then none else (s.queueHead k).map (fun e => (k, s.rankOf (queueRing k) e, e)))

/-- The first of the highest rank. -/
def topRank (l : List (Nat × Nat × Ent)) : Option (Nat × Nat × Ent) :=
  l.foldl (fun b x => if b.any (fun y => decide (x.2.1 ≤ y.2.1)) then b else some x) none

/-- The frame of highest rank that waits: its queue, rank and entry (R282). -/
def State.pick (s : State) : Option (Nat × Nat × Ent) := topRank s.rivals

/-- The frame that contends draws its number of idle slots now (R264, R265). -/
def State.draw (s : State) : State := s.modMac (fun m => { m with drawAt := s.posNow })

/-- An entry is added: the ring's interrupt bit (R35), and source 0x73 for Q0, Q1, Q3 and Q4 (R284). A frame that is now
the one to send draws afresh (R282). -/
def State.ringAdd (s : State) (r : Nat) (e : Ent) : State :=
  let t := (s.setRing r (s.ring r ++ [e])).irq (irqRing r)
  let t := if t.pick = s.pick then t else t.draw
  if r = 0 ∨ r = 1 ∨ r = 3 ∨ r = 4 then t.pulse 0x73 else t

/-- A frame from the line enters a ring, or is dropped where the ring is full. -/
def State.ringIn (s : State) (r : Nat) (e : Ent) : State :=
  if s.ringFull r then (s.macStick F.MAC_STAT_OVF).post 5 0x45 r else s.ringAdd r e

/-! Frames of the node's own. -/

/-- The HOPDST of a frame of the node's own (R277): the parent toward the head, else every node that hears it. -/
def State.hopDst (s : State) (dir : Bool) : Nat := if dir then s.fld F.MAC_PARENT_PARENT else 0x3FF

/-- A frame completed as the originator does (R270, R283): SEG, SRC, sequence, HOPS, TTIER, HOPSRC and HOPDST. -/
def State.originate (s : State) (f : LineFrame) (hopdst : Nat) : State × LineFrame :=
  (s.modMac (fun m => { m with seq := (m.seq + 1) % 4096 }),
   { f with
     hops := 0, seg := s.reg R.MAC_SEG, src := BitVec.ofNat 10 s.short, seq := BitVec.ofNat 12 s.mac.seq,
     ttier := BitVec.ofNat 4 s.macTier, hopsrc := BitVec.ofNat 10 s.short, hopdst := BitVec.ofNat 10 hopdst })

/-- A frame of the command engine enters Q2; it is lost where Q2 is full. -/
def State.toQ2 (s : State) (e : Ent) : State := if s.ringFull 2 then s else s.ringAdd 2 e

/-- The sequence counter of a node without an address starts from its EUI (R302). -/
def State.seqStart (s : State) : State :=
  if s.short = 0x3FF then s.modMac (fun m => { m with seq := (Config.eui 3).toNat % 4096 }) else s

/-- MAC_STAT.JST changes (R275): JOINCH, and event 0x043 on JOINED. -/
def State.joinState (s : State) (j : Nat) : State :=
  if s.fld F.MAC_STAT_JST = j then s
  else
    let t := (s.setFld F.MAC_STAT_JST j).macStick F.MAC_STAT_JOINCH
    if j = 2 then t.post 5 0x43 (s.fld F.MAC_PARENT_PARENT) else t

/-- What the leaving of a frame from Q2 starts (R303, R477). -/
def State.leftQ2 (s : State) (e : Ent) : State :=
  match e.after with
  | 1 => s.setShort e.arg
  | 2 =>
    let t := (s.setShort 0x3FF).joinState 0
    t.seqStart.modMac (fun m => { m with cands := [], addrs := [], joinWait := 8, joinAge := 0 })
  | 3 => { s with cmd := { s.cmd with apply := true } }
  | _ => s

/-! Places (R257, R258). -/

/-- The first entry of a list that holds, changed or removed. -/
def modFirst (p : Ent → Bool) (f : Ent → Option Ent) : List Ent → List Ent
  | [] => []
  | e :: l => if p e then (f e).toList ++ l else e :: modFirst p f l

/-- The head of a queue changed, or removed. -/
def State.modHead (s : State) (k : Nat) (f : Ent → Option Ent) : State :=
  let p (e : Ent) : Bool := match k with
    | 0 => e.f.urg
    | 1 => !e.f.urg
    | _ => true
  s.setRing (queueRing k) (modFirst p f (s.ring (queueRing k)))

/-- The head of a queue leaves its ring. -/
def State.dropHead (s : State) (k : Nat) : State :=
  match s.queueHead k with
  | none => s
  | some e => ((s.modHead k (fun _ => none)).leftQ2 e).draw

/-- A course is reserved (MAC_RMAP). -/
def State.reserved (s : State) (c : Nat) : Bool :=
  decide (4 ≤ c) && decide (c ≤ 59) && s.bit (R.MAC_RMAP0 + 64 * ((c - 4) / 16)) ((c - 4) % 16)

/-- The acting head holds the standing reservation, from the bench after it became so on (R279). -/
def State.standing (s : State) : Bool := s.isHead && !s.mac.newHead

/-- The node's own reservation `i` may be used (R304). -/
def State.rsvUsable (s : State) (i : Nat) : Bool := nthOf s.mac.rsvOk i && s.flag (F.MAC_RSV_VALID.at i)

/-- The course lies in a reservation of the node's own that may be used (R268, R304), the head's standing one
included. -/
def State.ownCourse (s : State) (c : Nat) : Bool :=
  (s.standing && decide (50 ≤ c) && decide (c ≤ 59)) ||
    (List.range 4).any (fun i =>
      s.rsvUsable i && decide (s.fld (F.MAC_RSV_START.at i) ≤ c) &&
        decide (c ≤ s.fld (F.MAC_RSV_START.at i) + s.fld (F.MAC_RSV_LEN.at i)))

/-- A reservation of the node's own begins with the course (R269). -/
def State.ownStart (s : State) (c : Nat) : Bool :=
  (s.standing && c == 50) || (List.range 4).any (fun i => s.rsvUsable i && s.fld (F.MAC_RSV_START.at i) == c)

/-- The first place after absolute position `a` of the bench that a transmission must not reach (R258). -/
def State.limitAfter (s : State) (a : Nat) : Nat :=
  let p := s.npos
  let slot1 := 61 * p + (if p = 20 then 9 else 3)
  let fixed := [60 * p, slot1, 64 * p]
  let rs := (List.range 64).filterMap (fun c => if s.reserved c && !s.ownCourse c then some (c * p) else none)
  (fixed ++ rs).foldl (fun b x => if a < x ∧ x < b then x else b) (64 * p)

/-- Where the acknowledgement span of a frame that ends at `a` ends (R266). -/
def ackEnd (p a : Nat) : Nat := slotFrom p (a + 1) + 26

/-- A frame of `n` positions that begins at `a` fits (R258). -/
def State.fits (s : State) (a n : Nat) (ackreq : Bool) : Bool :=
  decide ((if ackreq then ackEnd s.npos (a + n) else a + n) + 1 ≤ s.limitAfter a)

/-- A frame of rank `r` may begin in contention at absolute position `a` (R257, R264). -/
def State.mayBegin (s : State) (a r : Nat) : Bool :=
  let p := s.npos
  let c := a / p
  if c = 0 then false
  else if c ≤ 3 then
    decide (8 ≤ r) && decide ((if s.mac.sentHead || s.mac.heard then p + (if p = 20 then 9 else 3)
      else 2 * p + (if p = 20 then 18 else 6)) ≤ a)
  else if c ≤ 59 then !s.reserved c
  else decide (62 * p + (if p = 20 then 18 else 6) ≤ a)

/-- The present place in the bench, positions from 0:0. -/
def State.benchPos (s : State) : Nat := s.fld F.MAC_GRID_COURSE * s.npos + s.posn

/-- The slot boundary before place `a` of the bench (R256). -/
def slotBefore (p a : Nat) : Nat := if a % p = 0 then a - p + (p - 1) / 3 * 3 else a - 3

/-- The idle slots that end at place `a`, `f` at most (R265): each begins at a place where the frame may begin (`ok`), and
not before `lim`. -/
def idleSlots (p : Nat) (ok : Nat → Bool) (lim : Nat) : Nat → Nat → Nat
  | 0, _ => 0
  | f + 1, a =>
    let b := slotBefore p a
    if a = 0 ∨ b < lim ∨ !ok b then 0 else 1 + idleSlots p ok lim f b

/-- The number of idle slots waited may be `n` at rank `r` (R264). -/
def slotsOk (r n : Nat) : Bool :=
  if r = 12 then decide (n ≤ 3)
  else if r = 8 then decide (4 ≤ n) && decide (n ≤ 7)
  else decide (8 + 2 * (7 - r) ≤ n) && decide (n ≤ 15 + 2 * (7 - r))

/-! Transmission (R229, R266 to R269). -/

/-- The node may transmit frames: running, with bench timing or as acting head (R262), not switched off, and not
listening as a HEAD (R278, R505). -/
def State.mayTx (s : State) : Bool :=
  s.macOn && (s.flag F.MAC_STAT_BVALID || s.isHead) && !s.flag F.PHY_CTL_TXDIS && s.mac.listen.isNone

/-- A SHORT frame is sent: its 29 bits (R231). Nothing is sent while VLD is low (R216), nor before the line is free
(R217). -/
def State.sendShort (s : State) (x : Nat) : State × Bool :=
  if !s.macOn ∨ s.flag F.PHY_CTL_TXDIS ∨ s.pwr.extest ∨ s.mac.listen.isSome ∨ !s.lineFree then (s, false)
  else if !s.flag F.PWR_STAT_VLDG then (s.vldShort, false)
  else (s.txBegin (shortHeader x) [] [] (s.framePos 0), true)

/-- The key class under which a frame of the node's own is protected (R469). -/
def classOf (f : LineFrame) : Nat :=
  if f.typ = 2 then clsHost
  else if f.typ = 0 then
    let opc := (f.args.headD 0).toNat
    if opc < 0x20 then (if f.dmode = 1 then clsGroup else clsNet)
    else if opc < 0x40 ∨ (0x60 ≤ opc ∧ opc < 0x70) then clsAdmin
    else clsNet
  else clsNet

/-- The bytes that a frame leaves its ring with (R468, R469), without header and FCS; none where it is discarded. -/
def State.frameBytes (s : State) (e : Ent) (raw : Bool) : State × Option (List Byte) :=
  match e.sent with
  | some b => (s, some b)
  | none =>
    if raw then (s, some e.raw)
    else if e.f.sec then s.protectFrame e.f (s.txKid (classOf e.f))
    else (s, some e.f.args)

/-- How the next attempt of a frame is sent (R267): MODE, PHY_BAND bits, CODE, TMID and the map's entry. -/
def State.txMode (s : State) (e : Ent) : Nat × Nat × Nat × Nat × Option Nat :=
  let robo : Nat × Nat × Nat × Nat × Option Nat := (1, (if e.bands = 0 then s.phy.band else e.bands), 0, 0, none)
  let m := if e.f.hopdst = 0x3FF ∨ e.bands ≠ 0 then none else s.txMapFor e.f.hopdst.toNat
  let first := e.mode.getD (if m.isSome then 0 else 1)
  match first + e.tries, m with
  | 0, some i =>
    let w := (txMapOf s.phy i).getD 0 0
    (2, bandsOf (getBits w 9 7), getBits w 11 10, getBits w 14 12, some i)
  | 0, none => robo
  | 1, _ => robo
  | _, _ => (0, robo.2.1, 0, 0, none)

/-- The positions that a frame of `len` bytes takes in a mode. -/
def State.txPos (s : State) (md : Nat × Nat × Nat × Nat × Option Nat) (len : Nat) : Nat × Nat :=
  let (mode, bands, code, _, i) := md
  let n := nsymOf mode code len (usable bands s.phy.mask) (match i with
    | some k => txMapOf s.phy k
    | none => [])
  (n, s.framePos n)

/-- The length of an entry's frame in bytes: header, payload as protected, FCS. -/
def Ent.len (e : Ent) (raw : Bool) : Nat :=
  16 + (match e.sent with
    | some b => b.length
    | none => if raw then e.raw.length else if e.f.sec then e.f.args.length + 13 else e.f.args.length)

/-- A frame begins on the line (R229 to R231); a tone-map frame, and one that asks for an acknowledgement, make the line
busy up to a position after the acknowledgement span (R265). -/
def State.lineTx (s : State) (md : Nat × Nat × Nat × Nat × Option Nat) (bytes : List Byte) (ackreq : Bool) : State :=
  let (mode, bands, code, tmid, i) := md
  let (n, pos) := s.txPos md bytes.length
  let t := s.txBegin (headerOf mode (bandsOf bands) code tmid n bytes.length) bytes (match i with
      | some k => txMapOf s.phy k
      | none => []) pos
  let t := t.modPhy (fun p => { p with txUse := (match i with
      | some k => spSet zeroNat p.txUse k (s.cyc + 1)
      | none => p.txUse) })
  (if mode = 2 ∨ ackreq then t.busyAck (s.posNow + pos) else t).incReg R.MAC_TXCNT

/-- An attempt of the head of a queue has failed (R267): it contends again, or is dropped. -/
def State.attemptFailed (s : State) (k : Nat) : State :=
  match s.queueHead k with
  | none => s
  | some e =>
    if s.fld F.MAC_TXCFG_RETRY ≤ e.tries then
      let t := ((s.macStick F.MAC_STAT_TXFAIL).incReg R.MAC_ACKFCNT).post 5 0x46 e.f.dst.toNat
      t.dropHead k
    else (s.modHead k (fun x => some { x with tries := x.tries + 1 })).draw

/-- The head of a queue is sent now. -/
def State.sendHead (s : State) (k : Nat) : State :=
  match s.queueHead k with
  | none => s
  | some e =>
    let raw := decide (k = 3)
    if !s.flag F.PWR_STAT_VLDG then s.vldShort.attemptFailed k
    else if e.f.sec && !raw && e.sent.isNone && !s.mayProtect then s
    else match s.frameBytes e raw with
      | (t, none) => (t.modHead k (fun _ => none)).protectFail.leftQ2 e
      | (t, some b) =>
        let md := t.txMode e
        let plain := frameHdr e.f ++ b
        let fcs := crc32 plain
        let u := t.lineTx md (plain ++ toBytes 4 fcs) e.f.ackreq
        if e.f.ackreq then
          let first := e.mode.getD (if md.1 = 2 then 0 else 1)
          (u.modHead k (fun x => some { x with sent := some b, mode := some first })).modMac
            (fun m => { m with waitAck := m.waitAck ++ [(k, fcs % 65536, u.ackSpan u.phy.txEnd + 26)] })
        else u.dropHead k

/-- CONTENTION_TX_START: at a slot boundary, the frame of highest rank begins where it may and fits (R257, R258), the line
being free, at the end of `n` idle slots since it drew or since the line was last busy (R264, R265). -/
def State.contend (s : State) (n : Nat) : State :=
  if !s.mayTx ∨ !s.lineFree ∨ s.posNow < s.phy.busyEnd ∨ !s.atStart ∨ s.posn % 3 ≠ 0 then s
  else match s.pick with
    | none => s
    | some (k, r, e) =>
      let pos := (s.txPos (s.txMode e) (e.len (decide (k = 3)))).2
      let ok (a : Nat) : Bool := s.mayBegin a r && s.fits a pos e.f.ackreq
      -- a slot is idle only after the draw, the busy span, the own transmission and the reception that end last
      let lim := s.benchPos + max s.mac.drawAt (max s.phy.busyEnd (max s.phy.txEnd s.phy.rxEnd)) - s.posNow
      if slotsOk r n && decide (idleSlots s.npos ok lim (n + 1) s.benchPos = n) && ok s.benchPos then s.sendHead k else s

/-- The next frame of a reservation may begin at the first slot boundary that lies a full position after place `a`
(R269). -/
def State.reserveAt (s : State) (a : Nat) : State := s.modMac (fun m => { m with resAt := some (s.slotAbs (a + 1)) })

/-- The next frame of a reservation begins now: of the frames that fit, the one of highest rank (R269, R282). A line that
is not free yet, and an acknowledgement that is awaited, are waited for. -/
def State.reserveNext (s : State) : State :=
  let t := s.modMac (fun m => { m with resAt := none })
  if !t.mayTx ∨ !t.ownCourse (t.fld F.MAC_GRID_COURSE) then t
  else if t.mac.waitAck.any (fun w => decide (t.posNow < w.2.2)) then t.reserveAt (t.mac.waitAck.foldl (fun b w => max b w.2.2) 0)
  else if !t.lineFree then t.reserveAt (max t.phy.txEnd t.phy.rxEnd)
  else match topRank (t.rivals.filter (fun x =>
      t.fits t.benchPos (t.txPos (t.txMode x.2.2) (x.2.2.len (decide (x.1 = 3)))).2 x.2.2.f.ackreq)) with
    | none => t
    | some (k, _, e) =>
      let u := t.sendHead k
      if u.transmitting then u.reserveAt (if e.f.ackreq then u.ackSpan u.phy.txEnd + 26 else u.phy.txEnd) else u

/-! Beacons (R259 to R262). -/

/-- The instant of a beacon's reference at the pins, when it begins now (R230, R260). -/
def State.refInstant (s : State) : Nat :=
  (s.tim.now + (17 * s.posLen * 2 ^ 72 / (2 * 1536000)) + s.fld F.PHY_TXLAT_LAT * 2 ^ 72 / 50000000) % 2 ^ 104

/-- The 29 bits of a beacon of a kind. -/
def State.beaconBits (s : State) (kind : Nat) : Nat :=
  let t := (s.refInstant + 2 ^ 47) % 2 ^ 104
  kind * 2 ^ 27 + s.bench % 4 * 2 ^ 25 + secOf t % 2 * 2 ^ 24 + t / 2 ^ 48 % 2 ^ 24

/-- Line timing is valid from now on (R262). -/
def State.beaconCounts (s : State) : State := (s.setFld F.MAC_BSINCE_N 0).setFlag F.MAC_STAT_BVALID true

/-- The acting head shows its own address as the head (R273). -/
def State.headAddr (s : State) : State := if s.isHead then s.setFld F.MAC_HEAD_A s.short else s

/-- The acting head sends its head beacon; it counts as valid, and ends LOSS (R105, R260, R262). -/
def State.headBeacon (s : State) : State :=
  let r := (s.modMac (fun m => { m with headSecs := secOf s.refInstant })).sendShort (s.beaconBits 0)
  if r.2 then ((r.1.beaconCounts).lossExit).modMac (fun m => { m with sentHead := true }) else r.1

/-- The place of a parent's beacon in the bench (R262): its kind and course, and whether the position fits. -/
def State.parentBeacon (s : State) (kind blo course posn : Nat) : Bool :=
  let pt := s.fld F.MAC_PARENT_PTIER
  if s.fld F.MAC_PARENT_PARENT = 0x3FF then false
  else if pt = 0 then (kind == 0 && course == 0 && decide (posn ≤ 11)) || (kind == 1 && course == 1)
  else kind == 2 && course == 60 + (pt - 1) % 2 && blo == (pt - 1) / 2

/-- θ of a beacon (R323): the sender's instant `tb`, the counter `l` at the located instant. -/
def State.thetaOf (s : State) (tb l : Nat) : Int :=
  let pd : Int := (s.fld F.TIM_PDLY_D * 2 ^ 72 / 50000000 : Nat)
  let rx : Int := (s.fld F.PHY_RXLAT_LAT * 2 ^ 72 / 50000000 : Nat)
  let raw := ((tb : Int) + pd - ((l : Int) - rx)) % (2 ^ 104 : Nat)
  if raw < (2 ^ 103 : Nat) then raw else raw - (2 ^ 104 : Nat)

/-- An offset from a beacon. -/
def State.beaconTheta (s : State) (tb l : Nat) : State := s.timTheta (s.thetaOf tb l) none

/-- The whole seconds and the fraction of a beacon as an instant. -/
def beaconInstant (sec frac : Nat) : Nat := sec % 2 ^ 32 * 2 ^ 72 + frac * 2 ^ 48

/-- The whole seconds that agree with SEC0 and lie nearest the node's own estimate (R260), where θ lies within 0.4 s. -/
def State.nearSec (s : State) (l sec0 frac : Nat) : Option Nat :=
  let sec := secOf l
  [sec + 2 ^ 32 - 1, sec, sec + 1].find? (fun x =>
    decide (x % 2 = sec0) && decide (5 * (s.thetaOf (beaconInstant x frac) l).natAbs ≤ 2 * 2 ^ 72))

/-- The course grid follows the last beacon received while the phase is not learned or ZCS is not valid (R228): the
course start it implies, continued at the course length in use. -/
def State.gridFrom (s : State) (start : Int) (course : Nat) : State :=
  if (s.flag F.PHY_PHS_LRN ∧ s.flag F.PHY_STAT_ZCV) ∨ s.phy.nc = 0 then s
  else
    let past := ((s.cyc : Int) - start).toNat
    let k := past / (40 * s.phy.nc)
    let at_ := (start + (k * (40 * s.phy.nc) : Nat)).toNat
    let in_ := min s.npos ((s.cyc - at_) / (40 * s.posLen))
    (s.modPhy (fun p => { p with courseAt := at_, posBase := s.posNow - in_ })).setFld F.MAC_GRID_COURSE ((course + k) % 64)

/-- The best SNR heard for a tier, kept (R275). -/
def bestSnr (l : List (Nat × Nat)) (tier snr : Nat) : List (Nat × Nat) :=
  if l.any (fun c => c.1 == tier) then l.map (fun c => if c.1 = tier then (tier, max c.2 snr) else c) else l ++ [(tier, snr)]

/-- The tier of a beacon's sender, where its place tells it. -/
def beaconTier (kind blo course : Nat) : Option Nat :=
  if kind = 0 ∨ kind = 1 then some 0
  else if kind = 2 ∧ (course = 60 ∨ course = 61) then some (2 * blo + 1 + (course - 60)) else none

/-- A notice is due in the present bench as the node counts it (R263). -/
def State.noticeBench (s : State) : Bool := s.mac.noticed && s.bench % (s.fld F.MAC_TXCFG_NINT + 1) == 0

/-- The whole seconds of a beacon from its notice's SECS and its place in the bench (R260). -/
def State.noticeSec (s : State) (secs : Nat) (b : BeaconHeard) : Nat :=
  let samples := b.place.1 * s.phy.nc + b.place.2 * s.posLen / 2
  let place := samples * 2 ^ 24 / 1536000
  (if place % 2 ^ 24 ≤ b.frac then secs + place / 2 ^ 24 else secs + place / 2 ^ 24 + 1) % 2 ^ 32

/-- A valid beacon (R262): the count of benches, timing, the end of LOSS, and θ (R260): of the seconds of a notice of the
bench that has ended already, else of the nearest seconds, at once where no notice is due in the bench, and where one is
due when it ends, or at the bench's end where none came (DESIGN CHOICE, log entry 43). `half`: half positions from the head beacon's place in its course; `ago`: units of 20 ns since the located
instant. -/
def State.beaconValid (s : State) (blo sec0 frac course half ago snr : Nat) : State :=
  let t := if s.mac.noticed then s else
    s.setPair R.MAC_BENCH_LO (s.bench / 4 * 4 + blo)
  let t := ((t.beaconCounts).modMac (fun m => { m with counted := true, snr := snr })).lossExit
  let l := (t.tim.now + 2 ^ 104 - ago * 2 ^ 72 / 50000000 % 2 ^ 104) % 2 ^ 104
  let b : BeaconHeard := { bench := s.bench / 4 * 4 + blo, at_ := l, frac := frac, place := (course, half),
                           sec := if t.timeValid then t.nearSec l sec0 frac else none, given := !t.noticeBench }
  match t.mac.notice.filter (fun n => if t.mac.noticed then n.bench == b.bench else n.bench % 4 == blo) with
  | some n => t.beaconTheta (beaconInstant (t.noticeSec n.secs b) frac) l
  | none =>
    let t := t.modMac (fun m => { m with bWait := b :: m.bWait.filter (fun b => b.bench % 4 != blo) })
    match b.sec.filter (fun _ => b.given) with
    | some x => t.beaconTheta (beaconInstant x frac) l
    | none => t

/-- The bench ends, and its notice has not come: the beacon gives θ of the nearest seconds (R260). -/
def State.beaconLate (s : State) : State :=
  match s.mac.bWait.find? (fun b => !b.given) with
  | none => s
  | some b =>
    let t := s.modMac (fun m => { m with bWait := m.bWait.map (fun b => { b with given := true }) })
    match b.sec with
    | some x => t.beaconTheta (beaconInstant x b.frac) b.at_
    | none => t

/-- The role that a HEAD takes that hears another head while it listens (R278, R505). -/
def State.listenYield (s : State) (src : Nat) : State :=
  if s.mac.listen.isSome then
    (((s.modMac (fun m => { m with listen := none })).setFld F.MAC_ROLE_ACT 2).macStick F.MAC_STAT_YIELD).post 5 0x42 src
  else s

/-- BEACON_RECEIVE: 29 bits whose reference instant, `ago` units of 20 ns before now, lies in position `posn` of a course;
SNR in 0.25 dB. The grid follows any beacon (R228); one that is valid does more (R262). -/
def State.beaconRx (s : State) (x course posn ago snr : Nat) : State :=
  let kind := x / 2 ^ 27
  let blo := x / 2 ^ 25 % 4
  let sec0 := x / 2 ^ 24 % 2
  let frac := x % 2 ^ 24
  if kind = 3 then s
  else if s.isHead then
    if s.mac.listen.isSome then (if kind ≤ 1 then s.listenYield (s.fld F.MAC_DEPA_A) else s)
    else if kind = 1 ∧ course = 1 ∧ s.mac.sentHead then
      (((s.setFld F.MAC_ROLE_ACT 2).macStick F.MAC_STAT_YIELD).post 5 0x42 (s.fld F.MAC_DEPA_A))
    else s
  else if kind = 1 ∧ s.mac.heard then s
  else
    let start := s.impliedStart kind course ago
    let t := (s.phaseLearn start).gridFrom start course
    let t := if kind = 0 ∧ course = 0 ∧ posn ≤ 11 then t.modMac (fun m => { m with heard := true, misses := 0 }) else t
    let t := if t.short = 0x3FF then
        match beaconTier kind blo course with
        | some tier => t.modMac (fun m => { m with cands := bestSnr m.cands tier snr })
        | none => t
      else t
    if t.parentBeacon kind blo course posn && (!t.mac.noticed || blo == t.bench % 4) then
      t.beaconValid blo sec0 frac course (s.refHalf kind course - 17) ago snr
    else t

/-! Notices (R263). -/

/-- The reserved courses of a map as the 7 bytes of RMAP. -/
def rmapBytes (m : Nat) : List Byte := (List.range 7).map (fun i => BitVec.ofNat 8 (m / 2 ^ (8 * i)))

/-- The bits of a run of courses. -/
def courseBits (start len : Nat) : Nat := (List.range 56).foldl (fun a i => if start ≤ i + 4 ∧ i + 4 < start + len then a + 2 ^ i else a) 0

/-- The map in MAC_RMAP. -/
def State.rmap (s : State) : Nat :=
  (List.range 4).foldl (fun a i => a + (s.reg (R.MAC_RMAP0 + 64 * i)).toNat * 2 ^ (16 * i)) 0

def State.setRmap (s : State) (m : Nat) : State :=
  (List.range 4).foldl (fun t i => t.setReg (R.MAC_RMAP0 + 64 * (i % 4)) (BitVec.ofNat 16 (m % 2 ^ 56 / 2 ^ (16 * i)))) s

/-- The acting head's notice of this bench: its payload. -/
def State.noticePayload (s : State) : List Byte :=
  toBytes 4 s.bench ++ toBytes 4 s.mac.headSecs ++
    wordBytes (s.reg R.TIM_OFFSET) ++ toBytes 2 (s.fld F.MAC_DEPA_A) ++
    rmapBytes (s.mac.mapNext ||| courseBits 50 10) ++
    [BitVec.ofNat 8 (s.mac.mapVer % 16 * 16 + (if s.npos = 20 then 8 else 0) + s.fld F.MAC_CTL_HPH)]

/-- A notice is due in this bench (R263). -/
def State.noticeDue (s : State) : Bool := s.standing && s.mayTx && s.bench % (s.fld F.MAC_TXCFG_NINT + 1) == 0

/-- The head sends its notice at the start of its standing reservation (R263) where it fits (R258), and takes it as its
own; with VLD low it is not sent (R216). -/
def State.noticeSend (s : State) : State :=
  if !s.noticeDue ∨ !s.lineFree ∨ !s.mayProtect ∨ !s.fits s.benchPos (s.txPos (1, s.phy.band, 0, 0, none) 49).2 false then s
  else if !s.flag F.PWR_STAT_VLDG then s.vldShort
  else
    let pay := s.noticePayload
    let r := s.originate { typ := 3, sec := true, dmode := 2, dst := 0x3FF, args := pay } 0x3FF
    match r.1.protectFrame r.2 (s.txKid clsNet) with
    | (t, none) => t.protectFail
    | (t, some b) =>
      let plain := frameHdr r.2 ++ b
      (t.lineTx (1, t.phy.band, 0, 0, none) (plain ++ toBytes 4 (crc32 plain)) false).modMac (fun m => { m with
        notice := some { bench := s.bench, secs := 0, ofs := 0, dep := s.fld F.MAC_DEPA_A,
                         rmap := s.mac.mapNext ||| courseBits 50 10, flags := 0, src := s.short } })

/-- A notice read from its 20 bytes. -/
def parseNotice (src : Nat) (l : List Byte) : Option Notice :=
  if l.length = 20 then
    let n (i k : Nat) : Nat := ofBytes ((l.drop i).take k)
    some { bench := n 0 4, secs := n 4 4, ofs := n 8 2, dep := n 10 2 % 1024,
           rmap := (List.range 7).foldl (fun a i => a + (l.getD (12 + i) 0).toNat * 2 ^ (8 * i)) 0,
           flags := n 19 1, src := src }
  else none

/-- The acting role of a node with ROLE RELAY whose parent's tier is known (R276): a relay, but a member, with TIERX,
where its tier would exceed 8. -/
def State.relayTier (s : State) : State :=
  let pt := s.fld F.MAC_PARENT_PTIER
  if s.fld F.MAC_ROLE_ROLE ≠ 1 ∨ 1 < s.act then s
  else if 8 ≤ pt ∧ s.fld F.MAC_PARENT_PARENT ≠ 0x3FF then
    if s.act = 1 ∨ !s.flag F.MAC_STAT_TIERX then ((s.setFld F.MAC_ROLE_ACT 0).macStick F.MAC_STAT_TIERX).post 5 0x47 pt else s
  else if s.act = 0 ∧ s.mac.roleNew.isNone then s.setFld F.MAC_ROLE_ACT 1
  else s

/-- The join request of R302: a REPORT through the chosen parent, unprotected, in Q2 routine. -/
def State.joinRequest (s : State) : State :=
  let rs := s.fld F.CMD_RSEQ_RSEQ
  let psnr := ((s.mac.cands.find? (fun c => c.1 == s.fld F.MAC_PARENT_PTIER)).map Prod.snd).getD 0
  let args := toBytes 1 0x70 ++ toBytes 1 rs ++ euiBytes ++ toBytes 1 psnr ++ toBytes 2 (s.fld F.MAC_PARENT_PARENT)
  let t := s.setFld F.CMD_RSEQ_RSEQ (rs + 1)
  let r := t.originate { typ := 1, sec := false, ackreq := true, dir := true, args := args } (t.hopDst true)
  (r.1.toQ2 { f := r.2 }).modMac (fun m => { m with joinAge := 0 })

/-- Joining begins when a notice has told the address of the head or relay whose beacon was received with the highest SNR,
relays of tier 8 apart: it is the parent (R275). -/
def State.joinFrom (s : State) (f : LineFrame) : State :=
  if s.short = 0x3FF ∧ s.flag F.MAC_CTL_JOINEN ∧ s.fld F.MAC_STAT_JST = 0 ∧ s.mac.barred = 0 then
    let addrs := (f.ttier.toNat, f.hopsrc.toNat) :: s.mac.addrs.filter (fun a => a.1 != f.ttier.toNat)
    let t := s.modMac (fun m => { m with addrs := addrs })
    let best := s.mac.cands.foldl (fun b c =>
      if c.1 < 8 then
        match b with
        | some (x : Nat × Nat) => if x.2 < c.2 then some c else some x
        | none => some c
      else b) none
    match best with
    | none => t
    | some (tier, _) =>
      match addrs.find? (fun a => a.1 == tier) with
      | none => t
      | some (_, a) =>
        let u := ((t.setFld F.MAC_PARENT_PTIER tier).setFld F.MAC_PARENT_PARENT a).relayTier
        ((u.joinState 1).modMac (fun m => { m with joinWait := 8 })).joinRequest
  else s

/-- The segment whose notices an unjoined node takes (R275). -/
def State.segWanted (s : State) (f : LineFrame) : Bool := s.reg R.MAC_SEG == 0xFFFF || f.seg == s.reg R.MAC_SEG

/-- A notice resolves the beacon of its bench (R260): the θ it gives is applied whatever its size, unless the beacon gave
the same θ already. -/
def State.noticeTheta (s : State) (n : Notice) : State :=
  match s.mac.bWait.find? (fun b =>
    if s.mac.noticed then b.bench == n.bench else b.bench % 4 == n.bench % 4 && decide (s.bench < b.bench + 4)) with
  | none => s
  | some b =>
    let t := s.modMac (fun m => { m with bWait := m.bWait.filter (· != b) })
    let sec := t.noticeSec n.secs b
    if b.given ∧ b.sec.map (· % 2 ^ 32) = some sec then t else t.beaconTheta (beaconInstant sec b.frac) b.at_

/-- A notice of the segment has been received (R260, R263, R278). -/
def State.noticeRx (s : State) (f : LineFrame) (pay : List Byte) : State :=
  match if s.segWanted f then parseNotice f.src.toNat pay else none with
  | none => s
  | some n =>
    if s.isHead ∧ s.mac.listen.isNone then s
    else
      let t := s.listenYield n.src
      let t := (t.modMac (fun m => { m with notice := some n })).setFld F.MAC_HEAD_A n.src
      (t.joinFrom f).noticeTheta n

/-- The notice that takes effect at a bench start (R263): the bench number before the start, offset, deputy, map, and
the own reservations that the map shows (R304). -/
def State.noticeEffect (s : State) : State :=
  match s.mac.notice with
  | none => s
  | some n =>
    let first := !s.mac.noticed
    let b := if s.isHead then s.bench
             else if first ∧ s.mac.counted then n.bench + (s.bench % 4 + 4 - n.bench % 4) % 4
             else if first ∨ n.bench % 4 ≠ s.bench % 4 then n.bench
             else s.bench
    let t := s.setPair R.MAC_BENCH_LO b
    let t := if t.isHead then t else
      ((if t.flag F.TIM_CTL_OFSN then t.offsetTake (BitVec.ofNat 16 n.ofs) else t).setFld F.MAC_DEPA_A n.dep).modMac
        (fun m => { m with hph := n.flags % 4 })
    let t := t.setRmap n.rmap
    t.modMac (fun m => { m with
      notice := none, noticed := true, counted := true, bWait := if b = s.bench then m.bWait else [],
      rsvOk := (List.range 4).map (fun i =>
        let c := courseBits (s.fld (F.MAC_RSV_START.at i)) (s.fld (F.MAC_RSV_LEN.at i) + 1)
        s.flag (F.MAC_RSV_VALID.at i) && decide (c &&& n.rmap = c)) })

/-! Roles (R274 to R280, R538). -/

/-- A configured role takes effect as the acting role; a HEAD listens first. -/
def State.applyRole (s : State) (r : Nat) : State :=
  if r = 3 then
    if s.act = 3 then s
    else (s.setFld F.MAC_ROLE_ACT 0).modMac (fun m => { m with listen := some 0, listenAt := s.benchPos })
  else ((s.setFld F.MAC_ROLE_ACT r).modMac (fun m => { m with listen := none })).relayTier

/-- A write of MAC_ROLE (R538): the field while SYS_UNLOCK is open, and the acting role at the next bench start, or at
once while the node has no bench timing. -/
def State.roleWrite (s : State) (unlocked : Bool) (v : Nat) : State :=
  let r := v % 4
  if !unlocked ∨ s.fld F.MAC_ROLE_ROLE = r then s
  else
    let t := s.setFld F.MAC_ROLE_ROLE r
    if r = 3 ∧ s.act = 3 then t.modMac (fun m => { m with roleNew := none })
    else if t.benchTimed then t.modMac (fun m => { m with roleNew := some r })
    else t.applyRole r

/-- A role that waits is taken now (R538). -/
def State.roleTake (s : State) : State :=
  match s.mac.roleNew with
  | some r => (s.modMac (fun m => { m with roleNew := none })).applyRole r
  | none => s

/-- The acting head from now on: its address, its count of benches, the time state of R328; beacons and notices from the
next bench on (R278, R279). -/
def State.becomeHead (s : State) : State :=
  (((s.setFld F.MAC_ROLE_ACT 3).headAddr).timHeadNow).modMac (fun m => { m with newHead := true })

/-- HEAD_LISTEN_END (R278, R505): LISTEN benches have passed since the node began to listen, and no other head was
heard. -/
def State.listenEnd (s : State) : State :=
  match s.mac.listen with
  | none => s
  | some n =>
    if n < max 1 (s.fld F.MAC_DEP_LISTEN) ∨ (n = max 1 (s.fld F.MAC_DEP_LISTEN) ∧ s.benchPos < s.mac.listenAt) then s
    else if s.isHead then s.modMac (fun m => { m with listen := none, newHead := true })
    else (s.modMac (fun m => { m with listen := none, mapNext := courseBits 50 10, grants := [] })).becomeHead

/-- BEACON_MISS (R279): once in a bench, where the window of course 0 has closed; the MISS-th in a row makes the takeover
beacon due. -/
def State.beaconMiss (s : State) : State :=
  if s.act = 2 ∧ s.flag F.MAC_STAT_BVALID ∧ !s.mac.heard ∧ !s.mac.missed ∧ s.fld F.MAC_GRID_COURSE = 0 ∧ 12 ≤ s.posn then
    let n := s.mac.misses + 1
    ((s.macStick F.MAC_STAT_BMISS).post 5 0x40 (s.bench % 65536)).modMac (fun m => { m with
      missed := true, misses := n, takeDue := decide (max 1 (s.fld F.MAC_DEP_MISS) ≤ n) })
  else s

/-- The slot boundary of 1:3 (1:9), 60:0 apart: takeover beacons and relay slot 1 (R257). -/
def State.lateSlot (s : State) : Nat := if s.npos = 20 then 9 else 3

/-- The takeover beacon begins at 1:3 (1:9) of the same bench (R279). -/
def State.takeoverSend (s : State) : State :=
  if s.mac.takeDue ∧ s.fld F.MAC_GRID_COURSE = 1 ∧ s.posn = s.lateSlot then
    let t := s.modMac (fun m => { m with takeDue := false, takeAt := some (s.cyc + 20 * 17 * s.posLen) })
    (t.sendShort (t.beaconBits 1)).1
  else s

/-- The deputy takes over at its beacon's reference instant (R279). The beacon counts as valid, and ends LOSS (R105,
R262). -/
def State.takeover (s : State) : State :=
  if s.mac.takeAt.any (fun a => decide (a ≤ s.cyc)) then
    let t := s.modMac (fun m => { m with takeAt := none, misses := 0, grants := [], mapNext := s.rmap })
    let t := (t.becomeHead.beaconCounts).lossExit
    ((t.macStick F.MAC_STAT_TKOVR).hatInc 41 1).post 5 0x41 s.short
  else s

/-! Reception (R266, R272, R277). -/

/-- A frame is for this node by its DST (R273). -/
def State.forMe (s : State) (f : LineFrame) : Bool :=
  match f.dmode.toNat with
  | 0 => decide (f.dst.toNat = s.short ∧ s.short ≠ 0x3FF) || decide (f.dst = 0x3FF) || (decide (f.dst = 0) && s.isHead)
  | 1 => s.bit (R.MAC_GRP0 + 64 * (f.dst.toNat / 16 % 4)) (f.dst.toNat % 16)
  | _ => true

/-- The ring to which a frame for this node goes, none where it is not delivered (R281, R310). -/
def State.destRing (s : State) (f : LineFrame) : Option Nat :=
  if f.typ = 0 then some (if f.urg then 0 else 1)
  else if f.typ = 1 then (if s.isHead ∧ s.flag F.SYS_MODE_HOST then some 4 else none)
  else if f.typ = 2 then (if s.flag F.SYS_MODE_HOST then some 4 else none)
  else none

/-- The node is the one that a hop addresses (R266). -/
def State.hopMine (s : State) (f : LineFrame) : Bool :=
  (decide (f.hopdst.toNat = s.short) && decide (s.short ≠ 0x3FF)) || (decide (f.hopdst = 0) && s.isHead)

/-- The acknowledgement due for a frame that passed the checks up to the fourth (R266). -/
def State.ackFor (s : State) (f : LineFrame) (chk : Nat) (dup : Bool) : Option (Nat × Nat × Nat) :=
  if f.ackreq ∧ f.dmode = 0 ∧ f.dst ≠ 0x3FF ∧ (s.hopMine f ∨ (f.hopdst = 0x3FF ∧ s.forMe f)) then
    let st :=
      if dup then 0
      else if 3 < f.typ.toNat then 2
      else if s.forMe f then
        if f.typ = 2 ∧ !s.flag F.SYS_MODE_HOST then 2
        else match s.destRing f with
          | some r => if s.ringFull r then 1 else 0
          | none => 0
      else if s.ringFull 3 then 1 else 0
    some (st, chk, s.ackSpan s.phy.rxEnd)
  else none

/-- The frame is relayed (R277): where to. A frame for this node alone goes no further. -/
def State.relayTo (s : State) (f : LineFrame) : Option Nat :=
  let fromParent := decide (f.hopsrc.toNat = s.fld F.MAC_PARENT_PARENT)
  let one := decide (f.dmode = 0) && decide (f.dst ≠ 0x3FF)
  if s.act ≠ 1 ∨ 8 ≤ f.hops.toNat ∨ (one && s.forMe f) then none
  else if f.dir ∧ decide (f.hopdst.toNat = s.short) then some (s.fld F.MAC_PARENT_PARENT)
  else if one then (if !f.dir ∧ fromParent ∧ s.mac.members.contains f.dst.toNat then some 0x3FF else none)
  else if fromParent then some 0x3FF
  else none

/-- A frame passes to Q3 with its hop fields rewritten (R270); one that a deeper node sent to this node on its way to the
head enters its source in the member table (R276). -/
def State.relay (s : State) (f : LineFrame) (raw : List Byte) (dst : Nat) : State :=
  let g := { f with
    hops := f.hops + 1, ttier := BitVec.ofNat 4 s.macTier, hopsrc := BitVec.ofNat 10 s.short, hopdst := BitVec.ofNat 10 dst,
    ackreq := f.ackreq }
  let t := if f.dir ∧ f.hopdst.toNat = s.short ∧ !s.ringFull 3 ∧ !s.mac.members.contains f.src.toNat then
      s.modMac (fun m => { m with members := f.src.toNat :: m.members })
    else s
  t.ringIn 3 { f := g, raw := raw }

/-- The directory learns from joins (R471). -/
def State.learnJoin (s : State) (f : LineFrame) (pay : List Byte) (viaNet : Bool) : State :=
  if !s.flag F.SEC_CTL_LEARN then s
  else if f.typ = 1 ∧ pay.headD 0 = 0x70 ∧ pay.length = 13 then s.dirSet f.src.toNat ((pay.drop 2).take 8)
  else if f.typ = 0 ∧ pay.headD 0 = 0x71 ∧ pay.length = 15 ∧ pay.getD 10 0 = 0 ∧ viaNet then
    s.dirSet (ofBytes ((pay.drop 11).take 2) % 1024) ((pay.drop 2).take 8)
  else s

/-- A frame without protection is taken on only where R288 asks for none: joining, and opcodes that no group holds. -/
def plainOk (s : State) (f : LineFrame) (pay : List Byte) : Bool :=
  let opc := (pay.headD 0).toNat
  (f.typ == 1 && opc == 0x70) || (f.typ == 0 && opc == 0x71 && s.fld F.MAC_STAT_JST == 1) ||
    (f.typ == 0 && (decide (0xF0 ≤ opc) || (decide (0xB0 ≤ opc) && decide (opc < 0xC0)) || (decide (0xE0 ≤ opc) && decide (opc < 0xF0))))

/-- The key class of a frame that the command engine does not read is the one of its group (R288): HOST for MAILBOX
frames, NET for REPORT frames, which JOIN_REQ may do without. -/
def classOk (f : LineFrame) (kid : Option Nat) : Bool :=
  if f.typ = 2 then kid.map kidClass == some clsHost
  else if f.typ = 1 then kid.isNone || kid.map kidClass == some clsNet
  else true

/-- The code with which a REPORT or MAILBOX frame is refused (R288): an opcode of another TYPE's group or of none, the key
class, and reports that do not go toward DST 0. -/
def badType (f : LineFrame) (pay : List Byte) (kid : Option Nat) : Option Nat :=
  let opc := (pay.headD 0).toNat
  let own := if f.typ = 1 then opc == 0x70 || (decide (0xC0 ≤ opc) && decide (opc < 0xE0)) else decide (0xA0 ≤ opc) && decide (opc < 0xAF)
  if f.typ ≠ 1 ∧ f.typ ≠ 2 then none
  else if !own ∧ pay ≠ [] then some (if 0xF0 ≤ opc then cUnsup else cBadOpc)
  else if !classOk f kid then some cKey
  else if f.typ = 1 ∧ opc ≠ 0x70 ∧ (f.dmode ≠ 0 ∨ f.dst ≠ 0) then some cDenied
  else none

/-- A frame is refused with a code (R288, R292, R316). -/
def State.frameRefuse (s : State) (opc code : Nat) : State :=
  ((s.incReg R.CMD_REFCNT).stick R.CMD_STAT R.CMD_IRQEN irqPhy F.CMD_STAT_REFUSED.mask).post 5 0x80 (opc * 256 + code)

/-- A frame that has passed every check is delivered (R281). Mailbox traffic with no host present is dropped; where it asked
for an acknowledgement it is refused with NOHOST (R292, R310). -/
def State.deliver (s : State) (f : LineFrame) (pay : List Byte) (kid : Option Nat) : State :=
  let e : Ent := { f := { f with args := pay, sec := kid.isSome, kid := BitVec.ofNat 8 (kid.getD 0) }, kid := kid.map (BitVec.ofNat 8),
                   snr := s.phy.snr }
  if f.typ = 3 then (if kid.isSome then s.noticeRx f pay else s)
  else if !s.forMe f then s
  else match badType f pay kid with
    | some c => s.frameRefuse (pay.headD 0).toNat c
    | none => match s.destRing f with
      | some r => s.ringIn r e
      | none =>
        if f.typ = 1 then (if s.isHead then s.incReg R.MAC_DROPCNT else s)
        else if f.ackreq then s.frameRefuse (pay.headD 0).toNat cNoHost
        else s

/-- A frame that passed the checks is accepted (R272): some ring that it goes to has room, or it goes to none. -/
def State.accepts (s : State) (f : LineFrame) : Bool :=
  let own : Option Nat := if s.forMe f then s.destRing f else none
  let fwd := (s.relayTo f).isSome
  own.any (fun r => !s.ringFull r) || (fwd && !s.ringFull 3) || (own.isNone && !fwd)

/-- FRAME_RECEIVE: the checks of R272 in order. A frame that asks for an acknowledgement makes the line busy over its
span (R265). -/
def State.frameRx (s : State) (bytes : List Byte) : State :=
  let n := bytes.length - 4
  let fcs := crc32 (bytes.take n)
  if bytes.length < 16 ∨ fcs ≠ ofBytes (bytes.drop n) then s.incReg R.MAC_RXERR
  else match parseHdr (bytes.take n) with
    | none => s.incReg R.MAC_RXERR
    | some (f, rest) =>
      let s := if f.ackreq then s.busyAck s.phy.rxEnd else s
      let segOk := f.seg = s.reg R.MAC_SEG ∨ (s.short = 0x3FF ∧ f.typ = 3)
      let hopOk := s.hopMine f ∨ f.hopdst = 0x3FF
      if !segOk ∨ !hopOk then s
      else
        let pair := (f.src.toNat, f.seq.toNat)
        let dup := s.mac.seen.contains pair
        let t := s.modMac (fun m => { m with
          ackDue := match s.ackFor f (fcs % 65536) dup with
            | some a => some a
            | none => m.ackDue })
        if dup then t
        else if 3 < f.typ.toNat ∨ f.dmode = 3 then t.macStick F.MAC_STAT_FMTERR
        else
          let v := if f.sec then t.verifyFrame f rest
                   else (t, if plainOk t f rest then some (rest, 256) else none)
          match v with
          | (t, none) => t
          | (t, some (pay, kid)) =>
            let k := if f.sec then some kid else none
            if !t.accepts f then
              -- dropped, a ring being full: neither the pair nor the frame counter is taken as accepted
              let u := ({ t with sec := s.sec }).deliver f pay k
              match u.relayTo f with
              | some d => u.relay f rest d
              | none => u
            else
              let t := (t.modMac (fun m => { m with seen := (pair :: m.seen).take 32 })).incReg R.MAC_RXCNT
              let t := t.learnJoin f pay (f.sec && kidClass kid == clsNet)
              let t := t.deliver f pay k
              match t.relayTo f with
              | some d => t.relay f rest d
              | none => t

/-- The acknowledgement that is due is sent where its span begins; later it is not (R266). -/
def State.ackTx (s : State) : State :=
  match s.mac.ackDue with
  | none => s
  | some (st, chk, at_) =>
    if s.posNow < at_ then s
    else
      let t := s.modMac (fun m => { m with ackDue := none })
      if s.posNow = at_ ∧ s.atStart then (t.sendShort (3 * 2 ^ 27 + st * 2 ^ 25 + chk % 65536 * 2 ^ 9)).1 else t

/-- An acknowledgement is received in the span of the frame that it names (R267). -/
def State.ackRx (s : State) (x : Nat) : State :=
  let s := s.rxNow
  let st := x / 2 ^ 25 % 4
  match s.mac.waitAck.find? (fun w => w.2.1 == x / 2 ^ 9 % 65536 && decide (s.posNow ≤ w.2.2)) with
  | none => s
  | some w =>
    if x / 2 ^ 27 ≠ 3 ∨ st = 3 then s
    else
      let t := s.modMac (fun m => { m with waitAck := m.waitAck.filter (· != w) })
      if st = 1 then t.attemptFailed w.1 else t.dropHead w.1

/-- The attempt of the frame that has waited longest for an acknowledgement has failed (R267). -/
def State.ackNone (s : State) : State :=
  match s.mac.waitAck with
  | [] => s
  | w :: l => (s.modMac (fun m => { m with waitAck := l })).attemptFailed w.1

/-- An acknowledgement span ends with nothing (R267). -/
def State.ackOver (s : State) : State :=
  match s.mac.waitAck with
  | [] => s
  | w :: _ => if s.posNow < w.2.2 then s else s.ackNone

/-- A transmission is abandoned (R366, R400): what awaits an acknowledgement has failed. -/
def State.lineAbandon (s : State) : State :=
  let busy := s.transmitting
  let t := (s.txStop).modPhy (fun p => { p with rxHdr := none, rxEnd := min p.rxEnd s.posNow, busyEnd := min p.busyEnd s.posNow })
  let t := t.modMac (fun m => { m with resAt := none, takeDue := false })
  if busy then t.ackNone else t

/-- The PHY stops (R366, R381): a frame in progress is abandoned, and with bench timing a role ends its wait for a bench
start (R538). -/
def State.lineStop (s : State) : State := s.lineAbandon.roleTake

/-! Benches. -/

/-- One more bench since the last valid beacon (R262). -/
def State.bsinceUp (s : State) : State := s.satInc F.MAC_BSINCE_N

/-- The bench-aligned work of line access at a bench start (R255, R262, R263, R278, R282, R538), before the head's
beacon. -/
def State.macBench (s : State) : State :=
  let t := s.beaconLate.noticeEffect
  let t := (t.thetaBench t.bench).setPair R.MAC_BENCH_LO (t.bench + 1)
  let t := if t.flag F.MAC_STAT_BVALID ∧ t.phyOn then t.bsinceUp else t
  let up (l : List Ent) : List Ent := l.map (fun e => { e with age := e.age + 1 })
  let t := t.modMac (fun m => { m with
    q2 := up m.q2, q3 := up m.q3, q5 := up m.q5, heard := false, sentHead := false, missed := false, takeDue := false,
    newHead := false, benchDue := false, joinAge := m.joinAge + 1, barred := m.barred - 1, listen := m.listen.map (· + 1) })
  let t := t.roleTake
  if t.isHead ∧ t.benchPos = 0 ∧ t.atStart then t.headBeacon else t

/-- A course starts (R221, R223, R224): the noise of the one that ends, the plan where it is course 0, its length. -/
def State.courseForm (s : State) (pre : Nat) : State :=
  let c := (s.fld F.MAC_GRID_COURSE + 1) % 64
  let at_ := s.courseNext
  let base := s.phy.posBase + s.npos
  let nc := s.courseSamples (decide (base < s.phy.txEnd) || decide (base < s.phy.rxEnd))
  let t := s.noiseCourse pre
  let t := if c = 0 then t.planPick.modMac (fun m => { m with benchDue := true }) else t
  let nc := if t.npos = s.npos ∨ t.flag F.PHY_STAT_ZCV then nc else t.nomCourse
  (t.courseLen nc at_ base).setFld F.MAC_GRID_COURSE c

/-- A course starts, and the transmissions that begin with it (R263, R269). -/
def State.courseBegin (s : State) (pre : Nat) : State :=
  let t := (s.courseForm pre).pulse 0x6A
  if !t.macOn ∨ !t.ownStart (t.fld F.MAC_GRID_COURSE) then t
  else if t.fld F.MAC_GRID_COURSE = 50 ∧ t.noticeDue then
    let u := t.noticeSend
    if u.transmitting then u.reserveAt u.phy.txEnd else u.reserveNext
  else t.reserveNext

/-- What line access does at an edge of SYSCLK by itself: the takeover beacon and the takeover (R279), the next frame of
a reservation (R269), and a static mask written while a frame was in progress (R248). -/
def State.lineEdge (s : State) : State :=
  let s := if s.phy.mask = s.phy.maskNew then s else s.maskTake
  if !s.macOn then s
  else
    let t := (s.takeoverSend).takeover
    if t.mac.resAt.any (fun a => decide (a ≤ t.posNow)) && t.atStart then t.reserveNext else t

/-! The ring port (R283). -/

/-- The words of a Q4 or Q5 entry: the descriptor and the bytes. -/
def Ent.words (e : Ent) : List Word :=
  let b := frameHdr e.f ++ e.f.args
  BitVec.ofNat 16 ((b.length - 1) % 256 * 256 + (if e.kid.isSome then 128 else 0) + (if e.f.urg then 64 else 0)) :: bytesWords b

/-- MAC_RDATA is read. -/
def State.rdataRead (s : State) (p : Path) : State :=
  let ring := s.fld F.MAC_RSEL_RING
  let give (w : Word) (t : State) : State := t.modPath p (fun q => { q with last := w })
  if p = .host ∧ ring = 4 then
    match s.mac.q4 with
    | e :: _ => give (e.words.getD s.mac.rd 0) (s.modMac (fun m => { m with rd := m.rd + 1 }))
    | [] => give 0 s
  else if p = .host ∧ ring = 7 then
    match s.q7 with
    | w :: _ => give (if s.mac.rd7 = 0 then BitVec.ofNat 16 (w / 65536) else if s.mac.rd7 = 1 then BitVec.ofNat 16 w else 0)
        (s.modMac (fun m => { m with rd7 := m.rd7 + 1 }))
    | [] => give 0 s
  else give 0 s

/-- MAC_RDATA is written. -/
def State.rdataWrite (s : State) (p : Path) (v : Word) : State :=
  if p = .host ∧ s.fld F.MAC_RSEL_RING = 5 then s.modMac (fun m => { m with build := m.build ++ [v] }) else s

/-- POP. -/
def State.popRing (s : State) (p : Path) : State :=
  let ring := s.fld F.MAC_RSEL_RING
  if p = .host ∧ ring = 4 then s.modMac (fun m => { m with q4 := m.q4.drop 1, rd := 0 })
  else if p = .host ∧ ring = 7 then { s with q7 := s.q7.drop 1, mac := { s.mac with rd7 := 0 } }
  else s

/-- PUSH: the entry is completed and enters Q5, or is refused; commands to this node loop back (R291). -/
def State.pushRing (s : State) (p : Path) : State :=
  if p = .host ∧ s.fld F.MAC_RSEL_RING = 5 then
    let n := getBits (s.mac.build.headD 0) 15 8 + 1
    let b := (wordsBytes (s.mac.build.drop 1)).take n
    let t := s.modMac (fun m => { m with build := [] })
    match parseHdr b with
    | none => t.macStick F.MAC_STAT_FMTERR
    | some (f, pay) =>
      if 2 < f.typ.toNat ∨ 220 < pay.length ∨ t.ringFull 5 then t.macStick F.MAC_STAT_FMTERR
      else
        let r := t.originate { f with args := pay } (t.hopDst f.dir)
        let self := f.dmode = 0 ∧ (f.dst.toNat = t.short ∨ (f.dst = 0 ∧ t.isHead))
        let wide := f.dmode = 1 ∨ f.dmode = 2
        if f.typ = 0 ∧ t.flag F.CMD_CTL_LOOP ∧ (self ∨ wide) then
          let u := r.1.ringIn (if f.urg then 0 else 1) { f := r.2, loop := true }
          if self then u else u.ringAdd 5 { f := r.2 }
        else r.1.ringAdd 5 { f := r.2 }
  else s

/-- ABORT. -/
def State.abortRing (s : State) (p : Path) : State :=
  if p = .host ∧ s.fld F.MAC_RSEL_RING = 5 then s.modMac (fun m => { m with build := [] }) else s

/-- A write of MAC_RCTL. -/
def State.rctlWrite (s : State) (p : Path) (c : Nat) : State :=
  match c % 4 with
  | 1 => s.popRing p
  | 2 => s.pushRing p
  | 3 => s.abortRing p
  | _ => s

/-! Tone-map requests (R305). -/

/-- TM_REQ to a neighbour on PHY_BAND bits. -/
def State.tmRequest (s : State) (a bands : Nat) : State :=
  let up := decide (a = s.fld F.MAC_PARENT_PARENT)
  let args := [0x76, 0, BitVec.ofNat 8 (bandsOf bands)] ++ List.replicate 32 (0 : Byte)
  let r := s.originate { typ := 0, sec := true, ackreq := true, dir := up, dst := BitVec.ofNat 10 a, args := args } a
  (r.1.toQ2 { f := r.2, bands := bands }).modMac (fun m => { m with asked := (a :: m.asked.filter (· != a)) })

/-- TM_AUTO_REQUEST. -/
def State.tmAuto (s : State) : State :=
  let pa := s.fld F.MAC_PARENT_PARENT
  let life := s.fld F.PHY_TMCFG_LIFE
  let gap := (if life = 0 then 10 else life) * 60 * 61440000
  let due := match s.mac.tmAt with
    | some t => decide (t + gap ≤ s.cyc)
    | none => true
  if s.macOn && s.flag F.CMD_CTL_TMAUTO && decide (pa ≠ 0x3FF) && (s.txMapFor pa).isNone && due then
    (s.tmRequest pa s.phy.band).modMac (fun m => { m with tmAt := some s.cyc })
  else s

/-! Commands of line access. -/

/-- COURSE_START (R221): the node's grid runs while its PHY does. `pre`: the positions of the course that ends in which
a preamble was detected. -/
def execCourseStart (pre : BitVec 24) (s : State) : Host.Outcome State Fault Refusal :=
  done (if s.phyOn ∧ s.courseNext ≤ s.cyc then s.courseBegin pre.toNat else s)

/-- The relay slot of the node's tier is now (R257, R261). -/
def State.inRelaySlot (s : State) : Bool :=
  let t := s.fld F.MAC_PARENT_PTIER + 1
  decide (t ≤ 8) && s.bench % 4 == (t - 1) / 2 && s.atStart &&
    (if t % 2 = 1 then s.fld F.MAC_GRID_COURSE == 60 && s.posn == 0
     else s.fld F.MAC_GRID_COURSE == 61 && s.posn == s.lateSlot)

/-- RELAY_BEACON_SEND (R261). -/
def execRelayBeaconSend (s : State) : Host.Outcome State Fault Refusal :=
  done (if s.act = 1 ∧ s.mayTx ∧ s.inRelaySlot then (s.sendShort (s.beaconBits 2)).1 else s)

/-- A header announces `n` payload bytes, in a ROBO mode (0 and 1) where `robo` and in the tone-map mode where not. -/
def hdrAnnounces (robo : Bool) (n h : Nat) : Bool := h / 512 % 512 + 1 == n && decide (h / 2 ^ 37 % 8 < 2) == robo

/-- FRAME_RECEIVE (R272): the payload of the header accepted last, of the mode and the length that it announces. -/
def execFrameReceive (robo : Bool) (bytes : List Byte) (s : State) : Host.Outcome State Fault Refusal :=
  done (if s.macOn && !s.transmitting && s.phy.rxHdr.any (hdrAnnounces robo bytes.length) then
    (s.payloadRx).frameRx bytes
  else s)

/-- BEACON_RECEIVE (R262). -/
def execBeaconReceive (short : BitVec 29) (course : BitVec 6) (posn : BitVec 5) (ago : Nat) (snr : Byte) (s : State) :
    Host.Outcome State Fault Refusal :=
  done (if s.macOn && !s.transmitting then (s.rxNow).beaconRx short.toNat course.toNat posn.toNat ago snr.toNat else s)

/-- BEACON_MISS (R279). -/
def execBeaconMiss (s : State) : Host.Outcome State Fault Refusal := done (if s.macOn then s.beaconMiss else s)

/-- BVALID_TIMEOUT (R262); a role that waits for a bench start is taken (R538). -/
def execBvalidTimeout (s : State) : Host.Outcome State Fault Refusal :=
  done (let lim := if s.fld F.MAC_PARENT_PTIER = 0 then 16 else 64
        if s.flag F.MAC_STAT_BVALID ∧ lim < s.fld F.MAC_BSINCE_N then
          ((s.setFlag F.MAC_STAT_BVALID false).post 5 0x44 (s.fld F.MAC_BSINCE_N)).roleTake
        else s)

/-- HEAD_LISTEN_END (R278). -/
def execHeadListenEnd (s : State) : Host.Outcome State Fault Refusal := done (if s.macOn then s.listenEnd else s)

/-- CONTENTION_TX_START (R265). -/
def execContentionTxStart (n : Nat) (s : State) : Host.Outcome State Fault Refusal := done (s.contend n)

/-- ACK_SEND (R266). -/
def execAckSend (s : State) : Host.Outcome State Fault Refusal := done s.ackTx

/-- ACK_RECEIVE (R267): nothing is received while the node transmits (R217). -/
def execAckReceive (short : BitVec 29) (s : State) : Host.Outcome State Fault Refusal :=
  done (if s.macOn && !s.transmitting then s.ackRx short.toNat else s)

/-- ACK_SPAN_END (R267). -/
def execAckSpanEnd (s : State) : Host.Outcome State Fault Refusal := done (if s.macOn then s.ackOver else s)

/-- TM_AUTO_REQUEST (R305). -/
def execTmAutoRequest (s : State) : Host.Outcome State Fault Refusal := done s.tmAuto

/-- JOIN_RETRY_DUE (R275): the request is repeated and its wait doubles up to 256 benches. -/
def execJoinRetryDue (s : State) : Host.Outcome State Fault Refusal :=
  done (if s.macOn ∧ s.fld F.MAC_STAT_JST = 1 ∧ s.flag F.MAC_CTL_JOINEN ∧ s.mac.joinWait ≤ s.mac.joinAge then
    (s.modMac (fun m => { m with joinWait := min 256 (2 * m.joinWait) })).joinRequest
  else s)

/-- ROLE_WRITE (R538). -/
def execRoleWrite (p : Path) (v : Word) (s : State) : Host.Outcome State Fault Refusal :=
  done (s.onWrite p (fun t => t.roleWrite (t.unlocked p) v.toNat))

/-- RING_DATA_READ (R283). -/
def execRingDataRead (p : Path) (s : State) : Host.Outcome State Fault Refusal := done (if s.pathUp p then s.rdataRead p else s)

/-- RING_DATA_WRITE (R283). -/
def execRingDataWrite (p : Path) (v : Word) (s : State) : Host.Outcome State Fault Refusal :=
  done (s.onWrite p (fun t => t.rdataWrite p v))

/-- RING_POP (R283). -/
def execRingPop (p : Path) (s : State) : Host.Outcome State Fault Refusal := done (s.onWrite p (fun t => t.popRing p))

/-- RING_PUSH (R283). -/
def execRingPush (p : Path) (s : State) : Host.Outcome State Fault Refusal := done (s.onWrite p (fun t => t.pushRing p))

/-- RING_ABORT (R283). -/
def execRingAbort (p : Path) (s : State) : Host.Outcome State Fault Refusal := done (s.onWrite p (fun t => t.abortRing p))

/-- NOMINAL_BENCH_ELAPSED (R262): with no bench timing, which a node with its PHY stopped has not (R366): there the
beacons expected give no offset either (R325, R381). -/
def execNominalBenchElapsed (s : State) : Host.Outcome State Fault Refusal :=
  done (if 4 ≤ s.pwr.boot ∧ !s.benchTimed then
    let t := s.bsinceUp
    if t.phyOn then t else t.thetaBench (t.bench + t.fld F.MAC_BSINCE_N)
  else s)

end Sys2Proof.Machine
end

