-- ==== Sys2Proof/Machine/VaultCmd.lean ====
section
/-! DEFINITION. The commands of the vault (R436 to R457): commits, rewrites, the raw regions and their passwords, the
forerunner copies, hatch increments and folds. -/

namespace Sys2Proof.Machine

/-! Raw regions and passwords (R444 to R446). -/

/-- Region `r` (0 USR, 1 LEG, 2 LOG) is open on a path (R445). -/
def State.rawOpen (s : State) (p : Path) (r : Nat) : Bool := s.vlt.pw.getD r 0 == 0 || (s.path p).regOpen.contains r

/-- The region of VLT_RSEL. -/
def State.rsel (s : State) : Nat := s.fld F.VLT_RSEL_REG

/-- The words of a region. -/
def rawWords (r : Nat) : Nat := if r = 0 then 0x8000 else if r = 1 then 0x200 else 0x10000

/-- A blank word, which an unlisted word of the LEG edit buffer reads. -/
def blankWord (_ : Nat) : Word := 0xFFFF

/-- Word `a` of the raw region `r` (R444). -/
def State.rawRead (s : State) (r a : Nat) : Word :=
  match r with
  | 0 => s.vlt.word (fltUsr + 2 * a)
  | 1 => spGet blankWord s.vlt.legBuf a
  | _ => s.vlt.word (fltLog + 2 * a)

/-- The page of the USR page buffer: that of its first write, or of the write at `a` where it is empty (R444). -/
def VltState.usrPage (v : VltState) (a : Nat) : Nat := (v.usrBuf.headD (a, 0)).1 / 64

/-- A write of word `a` of region `r` (R444): USR writes fill the page buffer, which stays in the page of its first
write; the LOG region is only read. -/
def State.rawWrite (s : State) (r a : Nat) (v : Word) : State :=
  s.modVlt (fun q => match r with
    | 0 =>
      let at_ := 64 * q.usrPage a + a % 64
      { q with usrBuf := q.usrBuf.filter (fun c => c.1 != at_) ++ [(at_, v)] }
    | 1 => { q with legBuf := spSet blankWord q.legBuf a v }
    | _ => q)

/-- A write to VLT_RSEL (R445): 0b11 is stored as 0b00; the password sequence restarts, on either path. -/
def State.rselWrite (s : State) (v : Word) : State :=
  let r := v.toNat % 4
  let t := s.setFld F.VLT_RSEL_REG (if r = 3 then 0 else r)
  (t.modPath .host (fun q => { q with pwWords := [] })).modPath .remote (fun q => { q with pwWords := [] })

/-- Four password words as one number, the first written highest (R445). -/
def pwOf (l : List Word) : BitVec 64 := BitVec.ofNat 64 (l.foldl (fun a w => a * 65536 + w.toNat) 0)

/-- A completed entry of region `r` is wrong (R446): the lockout runs. -/
def State.pwWrong (s : State) (r : Nat) : State :=
  let n := s.keep.pwWrong + 1
  let d := min (2 ^ min (n - 1) 12) 3600
  let t := s.modKeep (fun k => { k with pwWrong := n, pwLock := true, pwUntil := k.elapsed + d * 2 ^ 48 })
  (t.vStick F.VLT_STAT_PWERR).post 7 8 r

/-- A write to VLT_PWD (R445, R446). A completed entry is judged where the region is closed on the path. -/
def State.pwdWrite (s : State) (p : Path) (v : Word) : State :=
  if s.keep.pwLock then s
  else
    let l := (s.path p).pwWords ++ [v]
    let l := if l.length = 8 then l.drop 4 else l
    let r := s.rsel
    let t := s.modPath p (fun q => { q with pwWords := l })
    if l.length ≠ 4 ∨ t.rawOpen p r then t
    else if pwOf l = t.vlt.pw.getD r 0 then
      (t.modKeep (fun k => { k with pwWrong := 0 })).modPath p (fun q => { q with regOpen := q.regOpen ++ [r] })
    else t.pwWrong r

/-- SETPWD (R445): region and SYS_UNLOCK open, four words written. -/
def State.setPwd (s : State) (p : Path) : State :=
  let r := s.rsel
  let l := (s.path p).pwWords
  if !s.unlocked p then s.vRefuse 2
  else if !s.rawOpen p r then s.vRefuse 1
  else if l.length < 4 then s.vRefuse 5
  else if !s.vRoom 19 then s.vRefuse 3
  else
    let w := pwOf (l.drop (l.length - 4))
    let t := s.modVlt (fun q => { q with pw := q.pw.set r w })
    let t := t.modPath p (fun q => { q with regOpen := if q.regOpen.contains r then q.regOpen else q.regOpen ++ [r] })
    t.vRecord recPwd (BitVec.ofNat 8 r :: toBytes 8 w.toNat)

/-- LOCK (R445). -/
def State.vltLock (s : State) (p : Path) : State :=
  s.modPath p (fun q => { q with regOpen := q.regOpen.filter (· != s.rsel) })

/-! Commands on the raw regions (R444, R447, R449). -/

/-- A command that needs region `r` selected and open: otherwise it is refused (VLT_ERR). -/
def State.rawCmd (s : State) (p : Path) (r : Nat) (f : State → State) : State :=
  if s.rsel ≠ r then s.vRefuse 5 else if !s.rawOpen p r then s.vRefuse 1 else f s

/-- PGWR (R444). -/
def State.pageWrite (s : State) (p : Path) : State :=
  s.rawCmd p 0 (fun t =>
    if t.vlt.usrBuf.isEmpty then t
    else if !t.vRoom 128 then t.vRefuse 3
    else
      let c := t.vlt.usrBuf
      (t.modVlt (fun q => { q with usrBuf := [] })).vOperate (.usrPage c))

/-- ERASE (R444). -/
def State.sectorErase (s : State) (p : Path) : State :=
  if !s.unlocked p then s.vRefuse 2
  else s.rawCmd p 0 (fun t =>
    let a := (t.reg R.VLT_RADDR).toNat
    if rawWords 0 ≤ a then t.vRefuse 4
    else if !t.vRoom 2 then t.vRefuse 3
    else t.vOperate (.usrErase (a / 2048)))

/-- The byte address of forerunner copy `c`: 0 A, 1 B (R433). -/
def legBase (c : Nat) : Nat := if c = 0 then fltLegA else fltLegB

/-- The CRC-16 of the words of a copy (R447). -/
def legCrc (ws : List Word) : Nat := crc16 (wordsBytes ws)

/-- The addresses of a copy's sequence number and CRC, its words 510 and 511 (R447). -/
def legSeqAt (c : Nat) : Nat := legBase c + 1020
def legCrcAt (c : Nat) : Nat := legBase c + 1022

/-- Copy `c` is valid: its CRC passes (R447). -/
def VltState.legValid (v : VltState) (c : Nat) : Bool :=
  decide (legCrc (v.words (legBase c) 511) = (v.word (legCrcAt c)).toNat)

def VltState.legSeq (v : VltState) (c : Nat) : Word := v.word (legSeqAt c)

/-- The winning copy and whether the copies are tied (R448). -/
def VltState.legWinner (v : VltState) : Option Nat × Bool :=
  match v.legValid 0, v.legValid 1 with
  | false, false => (none, false)
  | true, false => (some 0, false)
  | false, true => (some 1, false)
  | true, true =>
    let d := (v.legSeq 1 - v.legSeq 0).toNat
    if d = 0 then (some 0, true) else if d ≤ 32767 then (some 1, false) else (some 0, false)

/-- VLT_STAT.LEGDEF and LEGWIN and VLT_LEGSEQ show the winner (R448). -/
def State.legShow (s : State) : State :=
  let w := s.vlt.legWinner.1
  ((s.setFlag F.VLT_STAT_LEGDEF w.isNone).setFlag F.VLT_STAT_LEGWIN (w == some 1)).setReg R.VLT_LEGSEQ
    (match w with
      | none => s.reg R.VLT_LEGSEQ
      | some c => s.vlt.legSeq c)

/-- The copies are judged at recovery (R440 step 6, R448). -/
def State.legJudge (s : State) : State :=
  let w := s.vlt.legWinner
  let t := s.legShow
  if w.2 then (t.vStick F.VLT_STAT_TIE).post 7 3 (s.vlt.legSeq 0).toNat else t

/-- LEGLOAD (R447). -/
def State.legLoad (s : State) (p : Path) : State :=
  s.rawCmd p 1 (fun t =>
    let ws := match t.vlt.legWinner.1 with
      | some c => t.vlt.words (legBase c) 512
      | none => []
    t.modVlt (fun q => { q with legBuf := spSetAll blankWord [] 0 ws }))

/-- A LEG write waits or runs. -/
def legBusy (b : List VEntry) : Bool := b.any (fun e => match e with | .legWrite _ => true | _ => false)

/-- LEGWR (R447). -/
def State.legWrite (s : State) (p : Path) : State :=
  s.rawCmd p 1 (fun t =>
    if legBusy t.vlt.buf ∨ !t.vRoom 1020 then t.vRefuse 3
    else t.vOperate (.legWrite (spRead blankWord t.vlt.legBuf 0 510)))

/-- The copy and SEQ of the next LEG write (R449). -/
def VltState.legTarget (v : VltState) : Nat × Word :=
  match v.legWinner.1 with
  | none => (0, 1)
  | some c => (1 - c, v.legSeq c + 1)

/-- The target copy is written (R447). -/
def VltState.legProgram (v : VltState) (ws : List Word) : VltState :=
  let c := v.legTarget.1
  let all := ws ++ [v.legTarget.2]
  ((v.erase (legBase c) 4096).putWords (legBase c) all).putWord (legCrcAt c) (BitVec.ofNat 16 (legCrc all))

/-- LEG_WRITE_DONE. -/
def State.legDone (s : State) : State :=
  match s.vlt.op with
  | some (.legWrite ws) => if s.vaultFree then (s.modVlt (fun v => v.legProgram ws)).opEnd.legShow.vDone else s
  | _ => s

/-! Sector operations and commits. -/

/-- An entry that replaces a sector through scratch (R441). -/
def VEntry.isRewrite : VEntry → Bool
  | .plate _ _ | .usrPage _ | .sealReset _ | .logSector0 => true
  | _ => false

/-- The effect of a seal reset's rewrite (R492): LOG_SFILL is 0 and event 0x003 opens the sealed region. -/
def State.sealDone (s : State) (remote : Bool) : State :=
  ((s.setFld F.LOG_SFILL_N 0).modVlt (fun v => { v with sealing := false })).post 0 3 (if remote then 1 else 0)

/-- The new image of an entry's sector, and scratch erased and programmed with its first `n` bytes (R441 steps 1 and 2). -/
def VltState.image (v : VltState) (e : VEntry) : List Byte := (v.apply e).bytes (4096 * e.sector) 4096

def VltState.scratch (v : VltState) (e : VEntry) (n : Nat) : VltState :=
  (v.eraseOwn fltScr 4096).putOwn fltScr ((v.image e).take n)

/-- The image stands in scratch and the SCR record of a rewrite is committed (R441 step 3). -/
def VltState.scrCommit (v : VltState) (e : VEntry) : VltState :=
  (v.scratch e 4096).ownCommit recScr (BitVec.ofNat 8 e.sector :: toBytes 4 (crc32 (v.image e))) v.buf

/-- SECTOR_REWRITE_DONE (R441): SCR and SCRDONE are committed and the sector holds its new image; `redo`: a rewrite
finished after recovery, which has served its image since (R440 step 7, R456). -/
def State.rewriteDone (s : State) : State :=
  match s.vlt.op with
  | some e =>
    if e.isRewrite ∧ s.vaultFree then
      let redo := s.vlt.scr.isSome
      let sec := e.sector
      let r := s.modVlt (fun v =>
        let w := if redo then v else (v.scrCommit e).apply e
        w.ownCommit recScrDone [BitVec.ofNat 8 sec] (dropFirstOp w.buf))
      let r := if redo then r.post 7 9 sec else r
      let r := match e with
        | .sealReset q => r.sealDone q
        | _ => r
      r.opEnd.vDone
    else s
  | none => s

/-- SECTOR_ERASE_DONE (R444, R454): a USR erase, or an erase deferred from recovery. -/
def State.eraseDone (s : State) : State :=
  if !s.vaultFree then s
  else match s.vlt.op with
    | some (.usrErase k) => (s.modVlt (fun v => v.apply (.usrErase k))).opEnd
    | _ => if s.vlt.hatCut = 0 then s else (s.modVlt VltState.hatErase).foldStart

/-- A fold counts as done: its event, and WEAR at the epoch 180 000 (R453, R455, R456). -/
def State.foldPost (s : State) : State :=
  let r := s.post 7 5 s.vlt.epoch
  if 180000 ≤ r.vlt.epoch then r.vStick F.VLT_STAT_WEAR else r

/-- FOLD_DONE (R453). -/
def State.foldDone (s : State) : State :=
  match s.vlt.fold with
  | none => s
  | some nb =>
    if !s.vaultFree then s
    else (s.modVlt (fun v => v.foldEnd nb)).foldPost.foldStart

/-- A save of page `owner` waits in the commit buffer or is being built. -/
def VltState.saves (v : VltState) (owner : Nat) : Bool :=
  v.buf.any (fun e => match e with | .bank false o _ => o == owner | _ => false)

/-- SAVEPEND of pages LMP, FDE and HLT (R56, R107, R213): 1 until no save of the page waits. -/
def State.saveShow (s : State) : State :=
  ((s.setFlag F.LMP_STAT_SAVEPEND (s.vlt.saves 6)).setFlag F.FDE_STAT_SAVEPEND (s.vlt.saves 7)).setFlag F.HLT_STAT_SAVEPEND
    (s.vlt.saves 8)

/-- A seal reset is no longer in progress when its entry is dropped. -/
def State.sealClear (s : State) : VEntry → State
  | .sealReset _ => s.modVlt (fun v => { v with sealing := false })
  | _ => s

/-- FLASH_VERIFY_FAIL (R457): the vault goes on without the write: the operation in progress, else the fold, else the
commit, else the erase that R454 put off, else the last direct write. A hatch sector that stays without its header goes on
holding its increments. -/
def State.verifyFail (s : State) : State :=
  let r := (s.setFld F.VLT_ERR_CODE 6).vIntegrity 1
  match r.vlt.op with
  | some e => (r.sealClear e).opEnd.saveShow
  | none =>
    if r.vlt.fold.isSome then r.modVlt (fun v => { v.heldAll with fold := none })
    else match r.vlt.commit with
      | some n => (r.modVlt (fun v => { v with buf := dropRecords n v.buf, commit := none, begun := false, cutAt := 0 })).vWaiting
      | none =>
        if r.vaultFree ∧ r.vlt.hatCut ≠ 0 then r.modVlt (fun v => { v with hatCut := if v.hatCut = 3 then 3 else 0 })
        else r.modVlt VltState.unwrite

/-- COMMIT_DONE (R437): in LIT, or within the granted burst of a mains loss, where a new commit follows a paused one
(R436). Key slots are read afresh (R466). -/
def State.commitDone (s : State) : State :=
  match s.vlt.commit with
  | none => s
  | some n =>
    if s.vaultFree then (s.commitEnd n).commitFull
    else if s.pwr.granted then (s.commitEnd n).commitStart
    else s

/-! Commands. -/

/-- COMMIT_DELAY_EXPIRY (R436). -/
def execCommitDelayExpiry (s : State) : Host.Outcome State Fault Refusal :=
  done (if s.vaultFree then s.commitStart else s)

/-- SECTOR_REWRITE_DONE (R441). -/
def execSectorRewriteDone (s : State) : Host.Outcome State Fault Refusal := done s.rewriteDone

/-- FOLD_DONE (R453). -/
def execFoldDone (s : State) : Host.Outcome State Fault Refusal := done s.foldDone

/-- FLASH_VERIFY_FAIL (R457). -/
def execFlashVerifyFail (s : State) : Host.Outcome State Fault Refusal := done (if 4 ≤ s.pwr.boot then s.verifyFail else s)

/-- A command code written to VLT_CMD (R458), but for the bank builds. -/
def State.vltCmd (s : State) (p : Path) (code : Nat) : State :=
  match code with
  | 1 => if s.vlt.commit.isSome then s.vRefuse 3 else if s.vaultFree then s.commitStart else s
  | 2 => s.pageWrite p
  | 3 => s.sectorErase p
  | 4 => s.legWrite p
  | 5 => s.vltLock p
  | 6 => s.setPwd p
  | 7 => s.legLoad p
  | _ => s

/-- VLT_COMMIT (R436). -/
def execVltCommit (p : Path) (s : State) : Host.Outcome State Fault Refusal := done (s.onWrite p (fun t => t.vltCmd p 1))

/-- PGWR (R444). -/
def execPgwr (p : Path) (s : State) : Host.Outcome State Fault Refusal := done (s.onWrite p (fun t => t.vltCmd p 2))

/-- VLT_ERASE (R444). -/
def execVltErase (p : Path) (s : State) : Host.Outcome State Fault Refusal := done (s.onWrite p (fun t => t.vltCmd p 3))

/-- LEGWR (R447, R449). -/
def execLegwr (p : Path) (s : State) : Host.Outcome State Fault Refusal := done (s.onWrite p (fun t => t.vltCmd p 4))

/-- VLT_LOCK (R445). -/
def execVltLock (p : Path) (s : State) : Host.Outcome State Fault Refusal := done (s.onWrite p (fun t => t.vltCmd p 5))

/-- SETPWD (R445). -/
def execSetpwd (p : Path) (s : State) : Host.Outcome State Fault Refusal := done (s.onWrite p (fun t => t.vltCmd p 6))

/-- LEGLOAD (R447). -/
def execLegload (p : Path) (s : State) : Host.Outcome State Fault Refusal := done (s.onWrite p (fun t => t.vltCmd p 7))

/-- PASSWORD_WORD (R445, R446). -/
def execPasswordWord (p : Path) (v : Word) (s : State) : Host.Outcome State Fault Refusal :=
  done (s.onWrite p (fun t => t.pwdWrite p v))

/-- PASSWORD_LOCKOUT_END (R446). -/
def execPasswordLockoutEnd (s : State) : Host.Outcome State Fault Refusal :=
  done (s.modKeep (fun k => { k with pwLock := false }))

/-- REGION_TIMEOUT (R445). -/
def execRegionTimeout (p : Path) (r : Fin 3) (s : State) : Host.Outcome State Fault Refusal :=
  done (s.modPath p (fun q => { q with regOpen := q.regOpen.filter (· != r.val) }))

/-- RAW_REGION_SELECT (R445). -/
def execRawRegionSelect (p : Path) (v : Word) (s : State) : Host.Outcome State Fault Refusal :=
  done (s.onWrite p (fun t => t.rselWrite v))

/-- A write of 1 to HAT_INC (R452); HC62 is the epoch of the frame counter (R470, R483). -/
def State.hatWrite (s : State) : State :=
  let n := s.fld F.HAT_SEL_HC
  if 42 ≤ n then
    let t := s.hatInc n 1
    if n ≠ 62 then t
    else if t.hat 62 < 1024 then t.post 8 6 (t.hat 62)
    else if t.flag F.SEC_STAT_FCEXH then t
    else (t.stick R.SEC_STAT R.SEC_IRQEN irqSec F.SEC_STAT_FCEXH.mask).post 8 0xB 0
  else s.vRefuse 7

/-- HAT_INC (R452). -/
def execHatInc (p : Path) (s : State) : Host.Outcome State Fault Refusal := done (s.onWrite p (fun t => t.hatWrite))

/-- LEG_WRITE_DONE (R447). -/
def execLegWriteDone (s : State) : Host.Outcome State Fault Refusal := done s.legDone

/-- SECTOR_ERASE_DONE (R444). -/
def execSectorEraseDone (s : State) : Host.Outcome State Fault Refusal := done s.eraseDone

end Sys2Proof.Machine
end

