-- ==== Sys2Proof/Machine/Recorder.lean ====
section
/-! DEFINITION. The event recorder (R486 to R497): records from Q6 into the ring and the sealed region of the LOG region,
the recorder's start after a reset, seal resets and host events. -/

namespace Sys2Proof.Machine

/-- A sticky LOG_STAT bit (R498). -/
def State.logStick (s : State) (f : Fld) : State := s.stick R.LOG_STAT R.LOG_IRQEN irqLog f.mask

/-- The flash address of record slot `n`. -/
def slotAddr (n : Nat) : Nat := fltLog + 16 * n

/-- The ring slot after `n` (R489). -/
def nextSlot (n : Nat) : Nat := if 8191 ≤ n then 64 else n + 1

/-- The words of record slot `n` (R496). -/
def State.logSlot (s : State) (n : Nat) : List Word := s.vlt.words (slotAddr n) 8

/-- The rewrite of LOG sector 0 waits or runs. -/
def hasLog0 (b : List VEntry) : Bool := b.any (fun e => match e with | .logSector0 => true | _ => false)

/-- The head enters the sector of slot `h`: the sector that follows is erased (R490). -/
def State.logAhead (s : State) (h : Nat) : State :=
  if h % 256 ≠ 0 ∧ h ≠ 64 then s
  else
    let k := (h / 256 + 1) % 32
    let base := if k = 0 then slotAddr 64 else slotAddr (256 * k)
    let n := if k = 0 then 3072 else 4096
    if s.vlt.blank base n then s
    else
      let r := s.logStick F.LOG_STAT_WRAP
      if k = 0 then (if hasLog0 r.vlt.buf then r else r.vOperate .logSector0)
      else r.modVlt (fun v => v.erase base n)

/-- A record is programmed at LOG_HEAD and, while there is room, into the sealed region (R489 to R491). -/
def State.logWrite (s : State) (x : EvRec) : State :=
  let h := s.fld F.LOG_HEAD_SLOT
  let f := s.fld F.LOG_SFILL_N
  let sl := decide (f < 64) && !s.vlt.sealing
  let ws := x.words sl
  let at_ (n : Nat) : List Nat := (List.range 16).map (fun i => slotAddr n + i)
  let r := s.modVlt (fun v => { v.putWords (slotAddr h) ws with last := at_ h ++ if sl then at_ f else [] })
  let r := if sl then (r.modVlt (fun v => v.putWords (slotAddr f) ws)).setFld F.LOG_SFILL_N (f + 1) else r
  let r := if sl ∧ f = 63 then r.logStick F.LOG_STAT_SFULL else r
  let r := r.setPair R.LOG_WCNT_LO (r.pair R.LOG_WCNT_LO + 1)
  (r.setFld F.LOG_HEAD_SLOT (nextSlot h)).logAhead (nextSlot h)

/-- The recorder runs: started, no mains loss (R489, R494). -/
def State.recRuns (s : State) : Bool := s.vlt.recUp && decide (s.pwr.loss = 0) && !s.pwr.rstLow

/-- The end of an overflow (R494): Q6 holds 32 records or fewer after a drop. -/
def State.overflowEnd (s : State) : State :=
  if s.vlt.dropped ≠ 0 ∧ s.q6.length ≤ 32 then
    (s.post 0 2 (min s.vlt.dropped 0xFFFF)).modVlt (fun v => { v with dropped := 0 })
  else s

/-- The recorder takes the oldest record of Q6 (R489); it waits where the slot of the head is not yet erased. -/
def State.recTake (s : State) : State × Option EvRec :=
  match s.q6 with
  | [] => (s, none)
  | x :: l =>
    if !s.recRuns ∨ !s.vlt.blank (slotAddr (s.fld F.LOG_HEAD_SLOT)) 16 then (s, none)
    else (({ s with q6 := l }.logWrite x).overflowEnd, some x)

/-- The recorder's start (R488, R489, R493, R494): records held in keep RAM enter Q6 before what it holds, torn slots
are passed, and what was lost is posted. -/
def State.recStart (s : State) : State :=
  let k := s.keep
  let r := s.modKeep (fun q => { q with held := [], lost := 0, missed := 0 })
  let q := r.q6
  let r := (k.held ++ q).foldl State.enterQ6 { r with q6 := [] }
  let r := r.modVlt (fun v => { v with
                                       recUp := true,
                                       sealing := v.buf.any (fun e => match e with | .sealReset _ => true | _ => false) })
  let r := r.vlt.torn.foldl (fun t n =>
    if t.fld F.LOG_HEAD_SLOT = n then
      (((t.setFld F.LOG_HEAD_SLOT (nextSlot n)).logAhead (nextSlot n)).logStick F.LOG_STAT_TORN).post 0 6 n
    else t) r
  let r := r.modVlt (fun v => { v with torn := [] })
  let r := if k.lost ≠ 0 then (r.logStick F.LOG_STAT_KLOST).post 0 4 (min k.lost 0xFFFF) else r
  if k.missed ≠ 0 then (r.logStick F.LOG_STAT_KLOST).post 0 5 (min k.missed 0xFFFF) else r

/-- The records in Q6 are lost and counted in keep RAM area 6 (R494). -/
def State.q6Lost (s : State) : State :=
  { s.modKeep (fun k => { k with lost := k.lost + s.q6.length }) with q6 := [] }

/-- The pages that the records in Q6 take in a commit burst (R439, R494). -/
def State.q6Pages (s : State) : Nat :=
  let n := s.q6.length
  let ring := ((List.range n).foldl (fun (a : List Nat × Nat) _ => (a.1 ++ [a.2], nextSlot a.2)) ([], s.fld F.LOG_HEAD_SLOT)).1
  let f := s.fld F.LOG_SFILL_N
  let sealed_ := if s.vlt.sealing then [] else (List.range (min n (64 - f))).map (· + f)
  ((ring ++ sealed_).map (· / 8)).eraseDups.length

/-- The records in Q6 are programmed within the granted burst (R494). -/
def State.q6Burst (s : State) : State := s.q6.foldl State.logWrite { s with q6 := [] }

/-- A write to LOG_SEAL (R492). -/
def State.sealWrite (s : State) (p : Path) (v : Word) : State :=
  if s.unlocked p ∧ v = 0x5EA1 ∧ !s.vlt.sealing then
    (s.modVlt (fun q => { q with sealing := true })).vOperate (.sealReset (p == .remote))
  else s

/-- SEAL_RESET (R492). -/
def execSealReset (p : Path) (v : Word) (s : State) : Host.Outcome State Fault Refusal :=
  done (s.onWrite p (fun t => t.sealWrite p v))

/-- HOST_EVENT_POST (R495). -/
def State.hostPost (s : State) (v : Word) : State := s.post 0xA (v.toNat % 4096) (s.reg R.LOG_HDET).toNat

def execHostEventPost (p : Path) (v : Word) (s : State) : Host.Outcome State Fault Refusal :=
  done (s.onWrite p (fun t => t.hostPost v))

end Sys2Proof.Machine
end

