-- ==== Sys2Proof/Machine/Reset.lean ====
section
/-! DEFINITION. Core resets (R392, R404, R405): what each leaves of the registers, the engines and the vault's
operations, and what every LIT entry begins with. -/

namespace Sys2Proof.Machine

/-- The clocks, changed. -/
def State.modClk (s : State) (f : ClkState → ClkState) : State := { s with clk := f s.clk }

/-- The supplies' and modes' state, changed. -/
def State.modPwr (s : State) (f : PwrState → PwrState) : State := { s with pwr := f s.pwr }

/-! What a cut leaves in flash (R441, R447, R454). -/

/-- A fold that is cut leaves flash at stage `k`; what was cut in two is `x` (R453, R454). 0: nothing is written. 1: the
erase of the other sector is torn. 2: the base set is torn. 3: it is complete, and the new sector has no header. 4: the
header is torn, and the held increments are dropped. 5: the erase of the old sector is torn. -/
def VltState.foldTorn (v : VltState) (nb : List (Nat × Nat)) (k x : Nat) : VltState :=
  let o := hatSecAt (1 - v.hatSec)
  let stay := { v.heldAll with fold := none }
  let new := v.foldSet nb
  match k with
  | 0 => stay
  | 1 => if v.ownBlank o 4096 then stay else { stay.putOwn o (toBytes 4096 x) with hatCut := 1 }
  | 2 => (stay.eraseOwn o 4096).putOwn (baseSetAt v.basePos) ((baseSet (v.epoch + 1) (1 - v.hatSec) nb).take (x % 338))
  | 3 => { new with hatCut := 3 }
  | 4 => { new.heldAll.putOwn (hatSecAt new.hatSec + 0xF80) ((hatHeader new.epoch).take (x % 10)) with hatCut := 3 }
  | _ => { new.heldAll.hatHead.putOwn (hatSecAt v.hatSec) (toBytes 4096 x) with hatCut := 1 }

/-- A fold is cut at a stage that a free value says; from its base set on it counts as done. -/
def State.foldCut (s : State) : State :=
  match s.vlt.fold with
  | none => s
  | some nb =>
    let k := s.freeNat % 6
    let t := s.useFree
    let u := t.useFree.modVlt (fun v => v.foldTorn nb k t.freeNat)
    if 3 ≤ k then u.foldPost else u

/-- A running commit is cut after as many of its records as a free value says; they stand in flash (R436, R440). -/
def State.commitCut (s : State) : State :=
  match s.vlt.commit with
  | none => s
  | some n =>
    if s.vaultFree ∨ s.pwr.granted then
      s.useFree.modVlt (fun v =>
        let k := v.cutAt + s.freeNat % (n - v.cutAt + 1)
        { v with own := (v.place ((bufRecords v.buf).take k)).1.own, cutAt := k })
    else s

/-- The operation in progress is cut and its entry stays in the buffer: a rewrite has committed its SCR or stands before
it, with scratch in part programmed, as a free value says; a LEG copy that is being written is invalid, and a bank that is
being built is no bank. -/
def State.opCut (s : State) (e : VEntry) : State :=
  match e with
  | .legWrite _ => s.modVlt (fun v => { v.erase (legBase v.legTarget.1) 4096 with op := none })
  | .bank cfg _ _ => s.modVlt (fun v => { v.bankClear cfg (s.bankFree cfg) with op := none })
  | _ =>
    if e.isRewrite ∧ s.vlt.scr.isNone then
      let k := s.freeNat
      s.useFree.modVlt (fun v =>
        if k % 2 = 1 then { v.scrCommit e with op := none, scr := some e }
        else { v.scratch e (k / 2 % 4097) with op := none })
    else s.modVlt (fun v => { v with op := none })

/-- What the vault is doing is cut. -/
def State.vaultCut (s : State) : State :=
  let t := match s.vlt.op with
    | none => s
    | some e => s.opCut e
  t.commitCut.foldCut

/-- The last hatch cell is programmed with `w` in place of 0x0000, blank or torn; a blank one leaves its increment held. -/
def VltState.cellTear (v : VltState) (w : Nat) : VltState :=
  match v.last.reverse with
  | b :: a :: _ =>
    if b < hatSecAt v.hatSec ∨ hatSecAt v.hatSec + 0xF80 ≤ b then v
    else
      let n := (b - hatSecAt v.hatSec) / 62
      let t := { v.putOwn a (toBytes 2 w) with last := [] }
      if w % 65536 = 65535 then { t with hatMark := spSet zeroNat t.hatMark n (spGet zeroNat t.hatMark n - 1) }.hold n 1 else t
  | _ => v

/-- A reset that stops the core within the 1 ms of an increment's programming may leave its cell torn, by a free value
(R452, R454). -/
def State.cellCut (s : State) : State :=
  if s.cyc < s.vlt.hatAt + 61440 then s.useFree.modVlt (fun v => v.cellTear s.freeNat) else s

/-- The write points stand past what a commit that was cut has left in flash, and the commit is given up (R440). -/
def VltState.orphan (v : VltState) : VltState :=
  let p := recPlan v ((bufRecords v.buf).take v.cutAt)
  if v.begun then { v with recHead := p.recH, keyHead := p.keyH, commit := none } else v

/-! Core resets. -/

/-- The registers that a core reset leaves as they are: the keep-alive domain's (R431), SYS_RSTC (R47), CLK_LAST
(R386), PWR_LRST, those held in keep RAM (R331), and those that show the vault's contents. -/
def keptReg (k : Nat) : Bool :=
  (k / 8192 == 3 && k != R.KEEP_IRQEN) ||
    [R.SYS_RSTC, R.CLK_LAST, R.PWR_LRST, R.TIM_FREQ_LO, R.TIM_FREQ_HI, R.TIM_KFERR,
      R.LOG_HEAD, R.LOG_SFILL, R.VLT_LEGSEQ].contains k

/-- What the vault was doing is cut; where the core loses its supply, so is the cell being programmed (R441, R454). -/
def State.cutOff (s : State) (soft : Bool) : State := if soft then s.vaultCut else s.vaultCut.cellCut

/-- A core reset (R404): the registers of the core take their reset values, live views of the supplies and of the
keep-alive domain stand, the engines start afresh, and the records in Q6 are lost and counted (R405, R494). A soft
reset (`soft`) leaves the clock tree and network time running. -/
def State.coreReset (s : State) (soft : Bool) : State :=
  let t := s.cutOff soft
  let gone := t.q6.length + t.posted.length
  let gt := t.gtu.map (fun c => if c.held then { cnt := c.cnt, frac := c.frac, k0 := c.k0, stop := true, held := true } else {})
  let life := match t.sec.burn with
    | some c => if t.freeNat % 2 = 1 then c else t.sec.life
    | none => t.sec.life
  let u : State := { t with
    regs := t.regs.filter (fun e => keptReg e.1), host := {}, remote := {}, fabric := [], acted := [], pulses := [], posted := [], q6 := [], q7 := [],
    clk := if soft then t.clk else { fatalRow := t.clk.fatalRow, fatalHeld := t.clk.fatalHeld, fatalEv := t.clk.fatalEv },
    tim := if soft then { t.tim with firstLit := true, afterSet := false, alarmAt := [0, 0, 0, 0], alarmMs := [0, 0, 0, 0] }
      else {},
    keep := { t.keep with lost := t.keep.lost + gone, ktc := t.ktc },
    pwr := { vauxAt := t.pwr.vauxAt, goAt := t.pwr.goAt, litAt := t.pwr.litAt, rstLow := t.pwr.rstLow,
             jtagHold := t.pwr.jtagHold, extest := t.pwr.extest, strap := t.pwr.strap, cause := t.pwr.cause },
    vlt := { t.vlt with usrBuf := [], legBuf := [], wait := [], past := [], recUp := false, sealing := false, tabDue := false,
                          dropped := 0 },
    pwm := { otLive := t.pwm.otLive }, lmp := {}, fde := {}, hlt := {}, phy := {}, mac := {}, gtu := gt,
    sec := { life := life, fcn := t.sec.fcn, floor := t.sec.floor, delta := t.sec.delta }, cmd := {},
    free := if t.sec.burn.isSome then t.free + 1 else t.free }
  let u := u.setReg R.PWR_STAT (t.reg R.PWR_STAT &&& 0xFE00)
  let u := u.setReg R.CLK_STAT (if soft then t.reg R.CLK_STAT &&& 0xFC00 else 0x1000 ||| (t.reg R.CLK_STAT &&& 0x0800))
  let u := u.setReg R.TIM_FLG (if soft then t.reg R.TIM_FLG &&& 0x001A else t.reg R.TIM_FLG &&& 0x0012 ||| 0x0008)
  let u := if soft then u.setFld F.TIM_STAT_STATE (t.fld F.TIM_STAT_STATE) else u
  (u.setFlag F.SYS_MODE_STRAP u.pwr.strap).saveShow

/-- PWR_LRST takes the cause of a reset (R404). -/
def State.lrst (s : State) (cause : Nat) : State :=
  (s.setFld F.PWR_LRST_PREV (s.fld F.PWR_LRST_CAUSE)).setFld F.PWR_LRST_CAUSE cause

/-- SYS_CTL.SOFTRST with KEY = 0xC5 in the same write. -/
def softKey (v : Word) : Bool := decide (getBits v 15 8 = 0xC5) && v.getLsbD 1

/-- The commit buffer is lost, and with it the entries of a commit that was begun (R424, R440). -/
def VltState.bufLost (v : VltState) : VltState :=
  { v.orphan with buf := [], lostBuf := v.lostBuf || !v.clean, clean := true }

/-- The contents of a keep RAM area are lost (R427); the areas of the fade engine, of the interruption timer and of the
replay deltas are not read then. -/
def State.areaClear (s : State) (a : Nat) : State :=
  match a with
  | 0 => s.modVlt VltState.bufLost
  | 1 =>
    let t := s.modKeep (fun k => { k with ka := 0, e0 := 0 })
    let t := ((t.setReg R.TIM_FREQ_LO 0).setReg R.TIM_FREQ_HI 0).setReg R.TIM_KFERR 0
    t.setFlag F.TIM_FLG_KAV false
  | 4 => (s.modVlt (fun v => { v with hatHeld := [], hatNext := [] })).modKeep (fun k => { k with cellPart := 0, harvPart := 0, litEdges := 0 })
  | 5 => { s with gtu := s.gtu.map (fun c => if c.held then {} else c) }
  | 6 => s.modKeep (fun k => { k with held := [], lost := 0, missed := 0 })
  | 7 => (s.modKeep (fun k => { k with pwWrong := 0, pwLock := false, pwUntil := 0 })).modSec (fun q => { q with fcn := 0 })
  | _ => s

/-- The check of the keep RAM areas at a LIT entry (R427): one that fails is not retained. -/
def State.kramCheck (s : State) : State :=
  let l := s.keep.corrupt
  if l = [] then s
  else
    let t := l.foldl State.areaClear (s.modKeep (fun k => { k with bad := l ++ k.bad.filter (fun a => !l.contains a), corrupt := [] }))
    (l.foldl (fun u a => u.holdRec (u.keepStamp 0xB 6 a)) t).stick R.KEEP_STAT R.KEEP_IRQEN irqKeep F.KEEP_STAT_KRAMERR.mask

/-- IRC runs always with IRC_KEEP = 1, and stops with 0 while the PLL is on XO (R370). -/
def State.ircKeep (s : State) : State :=
  if s.flag F.CLK_CTL_IRC_KEEP then s.setFlag F.CLK_STAT_IRCON true
  else if s.flag F.CLK_STAT_ROOTSRC ∧ !s.clk.handover then s.setFlag F.CLK_STAT_IRCON false
  else s

/-- A LIT entry (R392): the keep RAM areas are checked, and the instant from which the start-up is timed, at start-up step `b` of R396. -/
def State.litEntry (s : State) (b : Nat) : State :=
  s.kramCheck.modPwr (fun p => { p with boot := b, vauxAt := s.cyc, litAt := s.cyc, goAt := s.cyc })

/-- The sticky bits of link levels that are live as the core starts (R390). -/
def State.linkSticky (s : State) : State :=
  let t := if s.flag F.PWR_STAT_LINKUVL then s.pwrStick F.PWR_STAT_LINKUV else s
  if t.flag F.PWR_STAT_LINKOVL then t.pwrStick F.PWR_STAT_LINKOV else t

/-- SOFT_RESET (R404, R405): the core registers reset, and start-up runs from vault recovery with the clocks going on.
Levels that are live drive their trips again (R390), and IRC runs again where CLK_CTL's reset value asks for it (R370). -/
def State.softReset (s : State) : State :=
  let r := ((s.coreReset true).litEntry 4).modPwr (fun p => { p with softRst := true })
  ((r.lrst 5).post 2 3 5).ircKeep.linkSticky.globalLevels

/-- A clock-fatal reset (R372): it is counted, and the node starts afresh from IRC, or is held after the fourth in a
row without first light. -/
def State.clockFatal (s : State) : State :=
  let c := (s.reg R.CLK_IRCCNT).toNat % 4096
  let t := (s.setFlag F.CLK_LAST_FATAL true).satInc F.CLK_LAST_FCNT
  let r := ((t.coreReset false).litEntry 1).lrst 6
  r.modClk (fun k => { k with fatalRow := k.fatalRow + 1, fatalHeld := decide (4 ≤ k.fatalRow + 1), fatalEv := some c })

/-- The keep-alive power-on reset (R404): the core, the keep-alive domain and keep RAM are reset; what the vault shows
and the live supply flags stand. -/
def State.kaReset (s : State) : State :=
  let r := s.coreReset false
  let live := r.reg R.PWR_STAT
  let r : State := { r with
    regs := r.regs.filter (fun e => [R.LOG_HEAD, R.LOG_SFILL, R.VLT_LEGSEQ].contains e.1), keep := {}, clk := {}, tim := {},
    vlt := { r.vlt.bufLost with hatHeld := [], hatNext := [], dropped := 0 },
    gtu := List.replicate 8 {}, sec := { life := r.sec.life, floor := r.sec.floor } }
  let r := r.setReg R.PWR_STAT live
  r.modPwr (fun p => { p with boot := 0, cause := 0 })

/-! Commands. -/

/-- KA_POWER_ON_RESET (R404): VKA falls below 1.5 V. -/
def execKaPowerOnReset (s : State) : Host.Outcome State Fault Refusal := done s.kaReset

/-- RST_ASSERT (R404, R405): RST# is low; the core is held in reset where VAUX is good. -/
def execRstAssert (s : State) : Host.Outcome State Fault Refusal :=
  done (if s.pwr.rstLow then s
    else
      let t := if s.pwr.boot = 0 then s else (s.coreReset false).modPwr (fun p => { p with boot := 1 })
      t.modPwr (fun p => { p with rstLow := true }))

/-- RST_RELEASE (R392, R395, R404): the reset ends, and the start-up runs from its release; in KEEP nothing starts. -/
def execRstRelease (strap : Bool) (s : State) : Host.Outcome State Fault Refusal :=
  done (if !s.pwr.rstLow then s
    else
      let t := s.modPwr (fun p => { p with rstLow := false })
      if t.pwr.boot = 0 then t
      else
        let t := ((t.litEntry 1).modPwr (fun p => { p with strap := strap })).setFlag F.SYS_MODE_STRAP strap
        (t.setFlag F.SYS_RSTC_PIN true).lrst 3)

/-- CORE_BROWNOUT (R403, R404, R501): the core is reset and the node is in KEEP; the cause stands to the next start. -/
def execCoreBrownout (s : State) : Host.Outcome State Fault Refusal :=
  done (if s.pwr.boot = 0 then s
    else
      let deep := s.reg R.CLK_GATE_DEEP
      let t := (s.coreReset false).modPwr (fun p => { p with boot := 0, cause := 4 })
      let t := t.modKeep (fun k => { k with deep := deep })
      ((t.setFlag F.SYS_RSTC_BOR true).lrst 4).keepLive)

/-- BOR_WARNING (R403): the core buck's input falls below 2.6 V. -/
def execBorWarning (s : State) : Host.Outcome State Fault Refusal :=
  done (if s.coreOn then (s.modPwr (fun p => { p with borLow := true })).nmi F.NMI_STAT_BOR else s)

/-- CORE_RESET_RELEASE (R362, R396 step 2): IRC is up and the core runs; XO is enabled. Link levels that are live drive
their trips (R390). -/
def execCoreResetRelease (s : State) : Host.Outcome State Fault Refusal :=
  done (if s.pwr.boot = 1 ∧ !s.pwr.rstLow ∧ !s.clk.fatalHeld then
    let t := (s.modPwr (fun p => { p with boot := 2 })).modClk (fun k => { k with ircAt := s.cyc, fatalEv := none })
    let t := (t.post 2 3 (t.fld F.PWR_LRST_CAUSE)).linkSticky.globalLevels
    match s.clk.fatalEv with
    | some c => t.post 1 4 (2 ^ 15 + c)
    | none => t
  else s)

/-- FATAL_RETRY (R372): a second of keep-alive time after the node was held, it starts again. -/
def execFatalRetry (s : State) : Host.Outcome State Fault Refusal :=
  done (if s.clk.fatalHeld ∧ s.pwr.boot = 1 ∧ !s.pwr.rstLow ∧ s.pwr.loss = 0 then (s.modClk (fun k => { k with fatalHeld := false })).litEntry 1 else s)

end Sys2Proof.Machine
end

