-- ==== Sys2Proof/Machine/Clk.lean ====
section
/-! DEFINITION. Clocks (R361 to R386): qualification and handover of XO, the watchers, fallback to IRC and the return,
the keep-alive sources, and spread. -/

namespace Sys2Proof.Machine

/-- A sticky CLK_STAT bit (R385). -/
def State.clkStick (s : State) (f : Fld) : State := s.stick R.CLK_STAT R.CLK_IRQEN irqClk f.mask

/-- An event with the stamps of the core where it runs, held in keep RAM where it does not (R429). -/
def State.postOrHold (s : State) (cls ev detail : Nat) : State :=
  if s.coreOn then s.post cls ev detail else s.holdRec (s.keepStamp cls ev detail)

/-- The handover to XO begins (R364); `ret`: it is a return under R375. The PHY stops (R366). -/
def State.handover (s : State) (ret : Bool) : State :=
  (s.lineStop).modClk (fun k => { k with handover := true, ret := ret, retDue := false })

/-- XO is qualified (R364, R375): the reference is handed over, on a return where XORET allows. -/
def State.xoQualified (s : State) : State :=
  let t := s.setFlag F.CLK_STAT_XOQ true
  if !t.clk.good then t
  else if !t.clk.fellBack then t.handover false
  else if t.flag F.CLK_CTL_XORET ∨ t.clk.retDue then t.handover true
  else t

/-- The main counter follows the keep-alive counter, and a LOCKED state becomes HOLDOVER (R333). -/
def State.timFollow (s : State) : State :=
  let t := s.setFlag F.TIM_FLG_IRCF true
  if t.timSt = timLocked then t.timSet timHoldover else t

/-- XO is declared failed (R369, R370): every channel goes safe, the PLL holds, and the reference moves to IRC. -/
def State.xoFail (s : State) (detail : Nat) : State :=
  let t := (s.globalTrip 9).proofTrips.lineStop
  let keep := t.flag F.CLK_CTL_IRC_KEEP
  let irc := t.flag F.CLK_STAT_IRCON
  let t := t.modClk (fun k => { k with
    handover := false, ret := false, retDue := false, fellBack := true, xoRun := 0, xoPrev := none, good := false, relock := false,
    ircSettling := !irc, firstCheck := !keep })
  let t := (t.setFlag F.CLK_STAT_ROOTSRC false).setFlag F.CLK_STAT_XOQ false
  let t := ((t.setFlag F.CLK_STAT_PLLLK false).setFlag F.CLK_STAT_IRCON true).incReg R.CLK_FALLCNT
  let t := (t.clkStick F.CLK_STAT_XOF).post 1 2 detail
  let t := if irc then t.nmi F.NMI_STAT_CLKF else t
  t.timFollow

/-- XO_WINDOW (R363, R368, R369): `n` XO cycles in 1024 cycles of IRC. -/
def State.xoWindow (s : State) (n : Nat) : State :=
  if !s.coreOn ∨ !s.flag F.CLK_STAT_IRCON ∨ s.clk.ircSettling then s
  else
    let t := s.setReg R.CLK_XOCNT (BitVec.ofNat 16 n)
    let band := decide (1004 ≤ n) && decide (n ≤ 1044)
    let near : Bool := match s.clk.xoPrev with
      | some p => decide (n ≤ p + 1) && decide (p ≤ n + 1)
      | none => true
    let t := t.modClk (fun k => { k with xoPrev := some n })
    if s.flag F.CLK_STAT_ROOTSRC then (if band then t else t.xoFail 1)
    else if s.clk.handover then t
    else if band ∧ near then
      let t := t.modClk (fun k => { k with xoRun := min 8 (k.xoRun + 1) })
      if s.clk.xoRun = 7 then t.xoQualified else t
    else (t.modClk (fun k => { k with xoRun := 0 })).setFlag F.CLK_STAT_XOQ false

/-- The handover ends (R364, R370, R375): with IRC_KEEP = 0 IRC stops; an acting head listens (R505). -/
def State.handoverEnd (s : State) : State :=
  let ret := s.clk.ret
  let t := (s.modClk (fun k => { k with handover := false, ret := false, fellBack := false })).setFlag F.CLK_STAT_ROOTSRC true
  let t := if t.flag F.CLK_CTL_IRC_KEEP then t else t.setFlag F.CLK_STAT_IRCON false
  let t := if ret then (t.clkStick F.CLK_STAT_RET).post 1 3 (t.reg R.CLK_FALLCNT).toNat
           else t.post 1 1 (min 0xFFFF ((s.cyc - s.clk.ircAt) / 6144))
  if t.isHead then t.modMac (fun m => { m with listen := some 0, listenAt := t.benchPos }) else t

/-- RETXO (R375): the reference is handed back to an XO that is qualified, once the PLL is locked. -/
def State.retXo (s : State) : State :=
  if s.flag F.CLK_STAT_XOQ ∧ !s.flag F.CLK_STAT_ROOTSRC ∧ !s.clk.handover ∧ s.clk.fellBack then
    if s.clk.good then s.handover true else s.modClk (fun k => { k with retDue := true })
  else s

/-- A write of CLK_CMD (R386). -/
def State.clkCmd (s : State) (v : Word) : State := if v.toNat % 4 = 1 then s.retXo else s

/-- IRC_CHECK (R367, R372): `n` IRC cycles in 4 KXO periods. -/
def State.ircCheck (s : State) (n : Nat) : State :=
  if !s.coreOn ∨ !s.flag F.CLK_STAT_IRCON ∨ s.clk.ircSettling ∨ s.flag F.CLK_STAT_KSRC then s
  else
    let t := (s.setReg R.CLK_IRCCNT (BitVec.ofNat 16 n)).modClk (fun k => { k with firstCheck := false })
    if 2940 ≤ n ∧ n ≤ 3060 then t.setFlag F.CLK_STAT_IRCQ true
    else
      let t := (t.clkStick F.CLK_STAT_IRCF).setFlag F.CLK_STAT_IRCQ false
      if s.clk.firstCheck then t.clockFatal else t.post 1 4 (n % 4096)

/-- CLK_SPREAD takes effect (R379). The self mask follows at the next bench start, where it is recomputed (R250). -/
def State.spreadNow (s : State) : State := s.modClk (fun k => { k with spread := s.reg R.CLK_SPREAD })

/-! Commands. -/

/-- XO_WINDOW (R363). -/
def execXoWindow (cnt : Word) (s : State) : Host.Outcome State Fault Refusal := done (s.xoWindow cnt.toNat)

/-- HANDOVER_DONE (R364). -/
def execHandoverDone (s : State) : Host.Outcome State Fault Refusal := done (if s.clk.handover then s.handoverEnd else s)

/-- XO_TIMEOUT (R365). -/
def execXoTimeout (s : State) : Host.Outcome State Fault Refusal :=
  done (if s.coreOn ∧ !s.flag F.CLK_STAT_XOQ ∧ !s.flag F.CLK_STAT_ROOTSRC ∧ !s.clk.fellBack then
    (s.clkStick F.CLK_STAT_XOTO).post 1 7 0 else s)

/-- XO_MISSING_EDGE (R369): an XO that is not the reference only has to qualify again. -/
def execXoMissingEdge (s : State) : Host.Outcome State Fault Refusal :=
  done (if !s.coreOn then s
    else if s.flag F.CLK_STAT_ROOTSRC ∨ s.clk.handover then s.xoFail 0
    else (s.modClk (fun k => { k with xoRun := 0, xoPrev := none })).setFlag F.CLK_STAT_XOQ false)

/-- IRC_ACCEPTED (R370). -/
def execIrcAccepted (s : State) : Host.Outcome State Fault Refusal :=
  done (if s.clk.ircSettling then (s.modClk (fun k => { k with ircSettling := false })).nmi F.NMI_STAT_CLKF else s)

/-- PLL_LOCKED (R362, R396 step 4): every divided clock runs, the host port responds, vault recovery begins. -/
def execPllLocked (s : State) : Host.Outcome State Fault Refusal :=
  done (if s.pwr.boot = 3 then
    let t := ((s.modPwr (fun p => { p with boot := 4 })).modClk (fun k => { k with good := true })).setFlag F.CLK_STAT_PLLLK true
    if t.flag F.CLK_STAT_XOQ then t.xoQualified else t
  else s)

/-- CLOCK_GOOD (R371, R374): the PLL is locked again; the clock-loss latch clears itself and the channels restart. -/
def execClockGood (s : State) : Host.Outcome State Fault Refusal :=
  done (if 4 ≤ s.pwr.boot ∧ !s.clk.good ∧ !s.clk.ircSettling then
    let t := (s.modClk (fun k => { k with good := true, relock := false })).setFlag F.CLK_STAT_PLLLK true
    let t := t.clockClear
    let t := if t.flag F.CLK_STAT_XOQ ∧ !t.flag F.CLK_STAT_ROOTSRC then t.xoQualified else t
    if s.clk.relock then t.post 1 8 0 else t
  else s)

/-- IRC_CHECK (R367). -/
def execIrcCheck (cnt : Word) (s : State) : Host.Outcome State Fault Refusal := done (s.ircCheck cnt.toNat)

/-- PLL_LOCK_LOSS (R374): the PLL loses lock with its reference good. -/
def execPllLockLoss (s : State) : Host.Outcome State Fault Refusal :=
  done (if 4 ≤ s.pwr.boot ∧ s.clk.good then
    let t := (s.globalTrip 9).proofTrips
    let t := (t.modClk (fun k => { k with good := false, relock := true })).setFlag F.CLK_STAT_PLLLK false
    t.clkStick F.CLK_STAT_PLLF
  else s)

/-- PLL_RELOCK_TIMEOUT (R374): clock-fatal. -/
def execPllRelockTimeout (s : State) : Host.Outcome State Fault Refusal :=
  done (if s.clk.relock then (s.post 1 8 1).clockFatal else s)

/-- RETXO (R375). -/
def execRetxo (p : Path) (s : State) : Host.Outcome State Fault Refusal := done (s.onWrite p (fun t => t.clkCmd 1))

/-- KXO_FAIL (R376): the keep-alive domain moves to KRC. -/
def execKxoFail (s : State) : Host.Outcome State Fault Refusal :=
  done (if s.flag F.CLK_STAT_KSRC then s
    else
      let t := (s.setFlag F.CLK_STAT_KSRC true).setFlag F.TIM_FLG_KRC true
      let t := t.modClk (fun k => { k with kxoRun := 0 })
      let t := if t.coreOn then t.clkStick F.CLK_STAT_KXOF else t
      t.postOrHold 1 5 0)

/-- KXO_WINDOW (R377): `cnt` SYSCLK cycles in 32 768 KXO periods; four windows within 100 ppm return the domain. -/
def execKxoWindow (cnt : Nat) (s : State) : Host.Outcome State Fault Refusal :=
  done (if 4 ≤ s.pwr.boot ∧ s.flag F.CLK_STAT_ROOTSRC ∧ s.flag F.CLK_STAT_KSRC then
    if 61440000 - 6144 ≤ cnt ∧ cnt ≤ 61440000 + 6144 then
      if s.clk.kxoRun = 3 then
        let t := (s.setFlag F.CLK_STAT_KSRC false).setFlag F.TIM_FLG_KRC false
        (t.modClk (fun k => { k with kxoRun := 0 })).post 1 6 0
      else s.modClk (fun k => { k with kxoRun := k.kxoRun + 1 })
    else s.modClk (fun k => { k with kxoRun := 0 })
  else s)

/-- SPREAD_APPLY (R379). -/
def execSpreadApply (s : State) : Host.Outcome State Fault Refusal := done (if 4 ≤ s.pwr.boot then s.spreadNow else s)

/-- KA_TIME_LOAD (R333 step 1, R396 step 3): the main counter takes the keep-alive counter; a time
that is not valid counts from 0 (R329). -/
def execKaTimeLoad (s : State) : Host.Outcome State Fault Refusal :=
  done (if s.pwr.boot = 2 then
    let kav := s.flag F.TIM_FLG_KAV
    let t := s.modPwr (fun p => { p with boot := 3 })
    let t := if kav then t
      else (t.forGts (fun n u => u.modGt n (fun c => { c with k0 := c.k0.map (fun x => (x + 2 ^ 80 - s.keep.ka) % 2 ^ 80) }))).modKeep
        (fun k => { k with ka := 0 })
    let t := t.modTim (fun m => { m with now := kaInstant t.keep.ka, fromKeep := kav })
    let t := t.modKeep (fun k => { k with bad := k.bad.filter (· != 1) })
    let t := (t.setFld F.TIM_STAT_STATE (if kav then timHoldover else timUnset)).setFlag F.SYS_BOOT_KATIME kav
    (t.setFlag F.TIM_FLG_IRCF true).post 6 4 (if kav then 1 else 0)
  else s)

/-- TIME_COUNT_RESUME (R333 step 3): on XO, the main counter counts SYSCLK again. -/
def execTimeCountResume (s : State) : Host.Outcome State Fault Refusal :=
  done (if 4 ≤ s.pwr.boot ∧ s.flag F.CLK_STAT_ROOTSRC ∧ !s.clk.handover ∧ s.flag F.TIM_FLG_IRCF then
    let t := s.setFlag F.TIM_FLG_IRCF false
    t.modKeep (fun k => { k with winStart := 2 ^ 72, winEdges := 0, tempSum := 0, tempN := 0 })
  else s)

end Sys2Proof.Machine
end

