-- ==== Sys2Proof/Machine/Power.lean ====
section
/-! DEFINITION. Supplies, modes, hold and the host watchdog (R39 to R43, R387 to R410): VAUX good, the mains-loss
sequence, the rails, hold, GO and failover. -/

namespace Sys2Proof.Machine

/-! The keep-alive domain's registers that the supplies move (R411 to R426). -/

/-- A sticky KEEP_STAT bit (R430). -/
def State.keepStick (s : State) (f : Fld) : State := s.stick R.KEEP_STAT R.KEEP_IRQEN irqKeep f.mask

/-- Store energy E_S in uJ above the 2.6 V level, at `v` mV (R418). -/
def State.storeEnergy (s : State) (v : Nat) : Nat :=
  if v < 2600 then 0 else (s.reg R.KEEP_CAP).toNat * (v * v - 2600 * 2600) / 2000

/-- An interruption ends (R101, R425, R426): classed, its off-time shown, its tap counted or its gesture discarded;
what is handed to the fade engine. `ges`: CLK_GATE_DEEP.GES. Where none was declared nothing is classed. A true off
that a shorter interruption follows before any fade tick has left the level-6 copy in keep RAM, which the last class then
restores (DESIGN CHOICE, log entry 61). -/
def State.interruptEnd (s : State) (ges : Bool) : State :=
  let k := s.keep
  let lost := k.bad.contains 3
  let none_ := s.modKeep (fun q => { q with handed := 3, dropped := 0, lastRet := q.elapsed })
  if !k.off ∧ !lost then none_
  else
    let ms := (k.elapsed - k.offStart) * 1000 / 2 ^ 48
    let cls := if lost ∨ !ges ∨ k.offEdges < 2 * k.offKrc ∨ 3000 < ms then 3
      else if ms < 150 then 0 else if ms ≤ 900 then 1 else 2
    let t10 := if lost then 0x3FFF else min 0x3FFF (ms / 10)
    let taps := if cls = 0 then k.taps else if cls = 1 then k.taps + 1 else 0
    let dropped := if 2 ≤ cls ∧ !lost then k.taps else 0
    let t := s.modKeep (fun q => { q with
      off := false, taps := taps, lastRet := q.elapsed, handed := cls, dropped := dropped, bad := q.bad.filter (· != 3) })
    let t := (t.setFld F.KEEP_OFFT_CLS cls).setFld F.KEEP_OFFT_T t10
    t.holdRec (t.keepStamp 0xB 8 (cls * 16384 + t10))

/-- The start of a LIT entry at VAUX good (R392, R395, R404, R451): cause, flags, strap, power cycles. A core brown-out has
shown its cause, and it stands (R501). -/
def State.vauxStart (s : State) (cause : Nat) (strap : Bool) : State :=
  let t := (s.litEntry 1).modPwr (fun p => { p with strap := strap, cause := 1 })
  let t := ((t.setFlag F.SYS_MODE_STRAP strap).setFlag F.PWR_STAT_VAUXG true).modClk (fun k => { k with fatalHeld := false })
  let t := if cause = 4 then t
    else ((t.setFlag (if cause = 0 then F.SYS_RSTC_KPOR else F.SYS_RSTC_VRET) true).lrst cause).hatInc 1 1
  t.keepLive

/-! Mains loss (R398 to R402). -/

/-- A bank build is abandoned (R442, R456). -/
def State.buildGone (s : State) (cfg : Bool) : State := s.post 7 7 (if cfg then 0 else 1)

/-- A bundle commit is cut: before step 8 of R476, after it with the build abandoned that waited or had begun, or between
the two, as a free value says. -/
def State.bundleCut (s : State) : State :=
  match s.sec.building with
  | none => s
  | some (cfg, k) =>
    let j := s.freeNat % 4
    let t := s.useFree.modSec (fun q => { q with building := none })
    let t := if j = 0 ∨ k = 0 then t else t.floorRaise k
    let t := if 2 ≤ j then t.buildGone cfg else t
    if j = 3 then t.modVlt (fun v => v.bankClear cfg (t.bankFree cfg)) else t

/-- Every bank build that has not committed its BANKSEL is abandoned (R442). -/
def State.buildsAbandon (s : State) : State :=
  let t := s.vlt.buf.foldl (fun t e => match e with
    | .bank cfg _ _ => t.buildGone cfg
    | _ => t) s.bundleCut
  let t := match t.vlt.op with
    | some (.bank cfg _ _) => t.modVlt (fun v => { v.bankClear cfg (s.bankFree cfg) with op := none })
    | _ => t
  State.saveShow <| t.modVlt (fun v => { v with buf := v.buf.filter (fun e => match e with | .bank _ _ _ => false | _ => true) })

/-- An interruption begins (R425). -/
def State.offBegin (s : State) : State :=
  if s.keep.off then s else s.modKeep (fun k => { k with off := true, offStart := k.elapsed, offEdges := 0, offKrc := 0 })

/-- MAINS_LOSS (R398, R400 steps 1 to 3). -/
def State.mainsLoss (s : State) (zcs : Bool) : State :=
  let t := (s.buildsAbandon.vaultCut.nmi F.NMI_STAT_VAUXW).offBegin
  let t := t.holdRec (t.stamp 2 1 (if zcs then 1 else 0))
  let t := t.modPwr (fun p => { p with loss := 1, lossZcs := zcs, vauxBack := false, granted := false, asked := false })
  let t := if zcs then t else t.setFlag F.PWR_STAT_VAUXG false
  t.lineAbandon.proofAllOff.keepLive

/-- The declaration holds (R398): the comparator, or a loss of ZCS with VAUX falling where ZCSML asks for it. -/
def State.lossHolds (s : State) (zcs : Bool) : Bool :=
  decide (1 ≤ s.pwr.boot) && decide (s.pwr.loss = 0) &&
    (!zcs || (s.flag F.PWR_CTL_ZCSML && s.phy.zcSeen && !s.flag F.PHY_STAT_ZCV && s.flag F.PWR_STAT_FALL && s.surveyClk))

/-- The pages of the hatch cells that held increments take in a burst (R439, R452). -/
def VltState.hatPages (v : VltState) : Nat :=
  if v.hatCut = 3 then 0
  else (v.held.flatMap (fun e =>
    let m := spGet zeroNat v.hatMark e.1
    (List.range (min e.2 (hatRing - m))).map (fun i => (62 * e.1 + 2 * (m + i)) / 128))).eraseDups.length

/-- The pages of the commits of a burst: the rest of the paused commit with its journal, and the new commit (R436, R439). -/
def VltState.burstPages (v : VltState) : Nat :=
  let es := bufRecords v.buf
  let (rest, w) : Nat × VltState := match v.commit with
    | some n => (rangePages ((commitPlan v (es.take n)).ranges.drop v.cutAt), v.commitNow (es.take n) v.buf)
    | none => (0, v)
  let new := es.drop (v.commit.getD 0)
  rest + if new.isEmpty then 0 else rangePages (commitPlan w new).ranges

/-- The request for the commit burst (R421, R436, R439): KEEP_RSVREQ. -/
def State.reserve (s : State) : State :=
  let p := s.vlt.burstPages + s.q6Pages + s.vlt.hatPages
  (s.setPair R.KEEP_RSVREQ_LO (2400 + 300 * p)).modPwr (fun q => { q with asked := true })

/-- KEEP_TIME_LOAD (R332, R400 steps 4 and 5): the keep-alive counter takes network time, but for a start that has not
loaded it yet (R401); the power stage has stopped; the vault asks for its commit where the buffer holds anything, and closes
the buffer (DESIGN CHOICE, log entry 62: what would enter it from then on is refused). -/
def State.keepTimeLoad (s : State) : State :=
  let t := s.stopAll
  let t := if t.pwr.boot < 3 then t
    else (if t.flag F.TIM_FLG_IRCF then t else t.modKeep (fun k => { k with ka := t.tim.now / 2 ^ 24 % 2 ^ 80 })).setFlag
      F.TIM_FLG_KAV t.timeValid
  let t := t.gtuKeep
  let t := if t.vlt.buf.isEmpty then t.q6Lost else (t.vRecord recStress t.stressBytes).reserve
  t.modPwr (fun p => { p with loss := 2 })

/-- RESERVATION_ANSWER (R400 step 6, R421 to R423, R494). -/
def State.reserveAnswer (s : State) (vstore : Word) : State :=
  let t := (s.setReg R.KEEP_VSTORE vstore).keepLive
  let need := t.pair R.KEEP_RSVREQ_LO + (t.reg R.KEEP_RESERVE).toNat * 1000
  if need ≤ t.storeEnergy vstore.toNat then
    let u := (t.q6Burst).modVlt (fun v => if v.hatCut = 3 then v else v.hatFlush)
    let u := u.modPwr (fun p => { p with loss := 3, granted := true, energy := t.storeEnergy vstore.toNat })
    if u.vlt.commit.isSome then u else u.commitStart
  else
    let u := (t.keepStick F.KEEP_STAT_RSVREF).modPwr (fun p => { p with loss := 3 })
    (u.holdRec (u.keepStamp 0xB 3 (min 0xFFFF (t.pair R.KEEP_RSVREQ_LO / 1000)))).q6Lost

/-- The sequence's step 6 has ended: nothing was asked, the answer was a refusal, or the granted burst is done. -/
def State.burstEnded (s : State) : Bool :=
  (decide (s.pwr.loss = 2) && !s.pwr.asked) || (decide (s.pwr.loss = 3) && (!s.pwr.granted || s.vlt.commit.isNone))

/-- KEEP_ENTRY (R400 step 7, R402, R423): KEEP, or a start without it where VAUX has come back. -/
def State.keepEnter (s : State) (vstore : Word) : State :=
  let t := s.setReg R.KEEP_VSTORE vstore
  let t := if t.pwr.granted then t.setPair R.KEEP_RSVUSE_LO (t.pwr.energy - t.storeEnergy vstore.toNat) else t
  let how := if t.pwr.granted then 0 else if t.pwr.asked then 1 else 2
  let back := t.pwr.vauxBack
  if back then (t.coreReset false).vauxStart 2 t.pwr.strap
  else
    let t := (t.holdRec (t.keepStamp 2 2 how)).modKeep (fun k => { k with deep := t.reg R.CLK_GATE_DEEP })
    ((t.coreReset false).modPwr (fun p => { p with boot := 0, cause := 1 })).keepLive

/-! Hold (R39, R142, R358). -/

/-- A change of what asks for hold: the channels freeze as hold begins and go on as it ends. -/
def State.holdChange (s : State) (f : State → State) : State :=
  let t := f s
  if !s.holdActive && t.holdActive then t.pwmHold
  else if s.holdActive && !t.holdActive then t.pwmResume
  else t

/-! The host watchdog (R40 to R43). -/

/-- The watchdog is armed (R40). -/
def State.hwdArmed (s : State) : Bool := s.flag F.HWD_CTL_EN && s.flag F.SYS_MODE_HOST && !s.holdActive

/-- A write to HWD_KICK on the host port (R40, R41). -/
def State.hwdKick (s : State) (v : Word) : State :=
  if !s.hwdArmed then s
  else if v = s.pwr.kick then s.modPwr (fun p => { p with kickAt := s.cyc, kick := if v = 0x5A5A then 0xA5A5 else 0x5A5A })
  else s.setFlag F.HWD_CTL_BADK true

/-- A GO write (R43, R395): a host is declared, and a node that waits for it leaves START on the next fade tick. -/
def State.goWrite (s : State) : State :=
  if s.flag F.SYS_MODE_HOST then s
  else
    let t := s.setFlag F.SYS_MODE_HOST true
    t.modPwr (fun p => { p with
      kick := 0x5A5A, kickAt := s.cyc, leave := if s.fld F.SYS_MODE_STATE = 0 then true else p.leave,
      goAt := if s.fld F.SYS_MODE_STATE = 0 then s.cyc else p.goAt })

/-- A write to SYS_CTL (R39, R43, R46, R404). -/
def State.sysCtl (s : State) (p : Path) (v : Word) : State :=
  let t := if p = .host then s.holdChange (fun u => u.setFlag F.SYS_CTL_HOLD (v.getLsbD 2)) else s
  let t := if p = .host ∧ v.getLsbD 0 then t.goWrite else t
  if softKey v then t.softReset else t

/-- Failover (R42): level 4 is released, no host is present any more. -/
def State.failover (s : State) : State :=
  let t := (List.range 8).foldl (fun t l => t.slotEmpty l 4 (s.reg R.FDE_REL).toNat) s
  ((t.setFlag F.SYS_MODE_HOST false).setFlag F.SYS_RSTC_HWDF true).setFlag F.HWD_CTL_EXP true

/-- A hosted node still waits for GO (R42, R395). -/
def State.awaitsGo (s : State) : Bool :=
  decide (2 ≤ s.pwr.boot) && s.flag F.SYS_MODE_STRAP && decide (s.fld F.SYS_MODE_STATE = 0) && !s.pwr.leave

/-! Commands. -/

/-- VAUX_GOOD (R392, R396, R402, R404, R425): LIT entry, or the end of the interruption in a mains-loss sequence, or after a
core reset that ended the sequence. -/
def execVauxGood (strap : Bool) (s : State) : Host.Outcome State Fault Refusal :=
  done (if s.pwr.boot = 0 then
      let t := s.kramCheck.interruptEnd (s.keep.deep.getLsbD 1)
      t.vauxStart t.pwr.cause strap
    else if 1 ≤ s.pwr.loss ∧ !s.pwr.vauxBack then
      let t := s.interruptEnd (s.flag F.CLK_GATE_DEEP_GES)
      ((t.modPwr (fun p => { p with vauxBack := true, strap := strap })).setFlag F.PWR_STAT_VAUXG true).keepLive
    else if s.keep.off ∧ s.pwr.loss = 0 then
      ((s.interruptEnd (s.flag F.CLK_GATE_DEEP_GES)).setFlag F.PWR_STAT_VAUXG true).keepLive
    else s)

/-- VAUX falls below 4.2 V while a sequence runs, or in KEEP after a loss that ZCS declared (R387): it is good no more. A
second fall in a sequence is an interruption of its own, and the sequence ends in KEEP (DESIGN CHOICE, log entry 62). -/
def State.vauxFall (s : State) : State :=
  let t := if 1 ≤ s.pwr.loss ∧ s.pwr.vauxBack then
      let u := (s.modPwr (fun p => { p with vauxBack := false })).offBegin
      u.holdRec (u.stamp 2 1 0)
    else s
  (t.setFlag F.PWR_STAT_VAUXG false).keepLive

/-- MAINS_LOSS (R398, R400): the loss is declared, or VAUX falls after the declaration. -/
def execMainsLoss (zcs : Bool) (s : State) : Host.Outcome State Fault Refusal :=
  done (if s.lossHolds zcs then s.mainsLoss zcs else if !zcs then s.vauxFall else s)

/-- KEEP_TIME_LOAD (R332). -/
def execKeepTimeLoad (s : State) : Host.Outcome State Fault Refusal := done (if s.pwr.loss = 1 then s.keepTimeLoad else s)

/-- RESERVATION_ANSWER (R421). -/
def execReservationAnswer (vstore : Word) (s : State) : Host.Outcome State Fault Refusal :=
  done (if s.pwr.loss = 2 ∧ s.pwr.asked then s.reserveAnswer vstore else s)

/-- KEEP_ENTRY (R400). -/
def execKeepEntry (vstore : Word) (s : State) : Host.Outcome State Fault Refusal :=
  done (if s.burstEnded then s.keepEnter vstore else s)

/-- VDRV_UNDERVOLTAGE (R389, R408): `level` is VDRV in 0.1 V. Both gates of every channel fall and stay low. -/
def execVdrvUndervoltage (level : Byte) (s : State) : Host.Outcome State Fault Refusal :=
  done (let t := s.setFlag F.PWR_STAT_VDRVG false
        let t := t.forChans (fun n u => u.modChan n (fun c => { c.drop 5 false with hurt := true }))
        if t.coreOn then
          ((t.pwrStick F.PWR_STAT_VDRVUV).post 2 4 level.toNat).modPwr (fun p => { p with vdrvUv := true })
        else t)

/-- VDRV_GOOD (R389, R408): each enabled channel restarts at its next boundary, or starts, at once or with the node's entry
to LIT-RUN (R14). -/
def execVdrvGood (s : State) : Host.Outcome State Fault Refusal :=
  done (if s.flag F.PWR_STAT_VDRVG then s
    else
      let t := s.setFlag F.PWR_STAT_VDRVG true
      let t := t.forChans (fun n u =>
        (u.modChan n (fun c => { c with restart := c.restart || c.run || s.pwr.vdrvUv })).tryStart n)
      if t.coreOn ∧ t.pwr.vdrvUv then (t.post 2 5 0).modPwr (fun p => { p with vdrvUv := false }) else t)

/-- AVDD_OUT_OF_RANGE (R391, R408): `level` is AVDD in 10 mV. -/
def execAvddOutOfRange (level : Word) (s : State) : Host.Outcome State Fault Refusal :=
  done (let t := s.setFlag F.PWR_STAT_AVDDG false
        if t.coreOn then (t.pwrStick F.PWR_STAT_AVDDF).post 2 0xA level.toNat else t)

/-- AVDD_GOOD (R391). -/
def execAvddGood (s : State) : Host.Outcome State Fault Refusal := done (s.setFlag F.PWR_STAT_AVDDG true)

/-- VHIO_LOSS (R387): port inputs are ignored from here on. -/
def execVhioLoss (s : State) : Host.Outcome State Fault Refusal := done (s.setFlag F.PWR_STAT_VHIOG false)

/-- VHIO_GOOD (R387). -/
def execVhioGood (s : State) : Host.Outcome State Fault Refusal := done (s.setFlag F.PWR_STAT_VHIOG true)

/-- HOLD_BEGIN (R39): a JTAG hold request, or SYS_CTL.HOLD. -/
def execHoldBegin (jtag : Bool) (s : State) : Host.Outcome State Fault Refusal :=
  done (if !s.coreOn then s
    else s.holdChange (fun t => if jtag then t.modPwr (fun p => { p with jtagHold := true }) else t.setFlag F.SYS_CTL_HOLD true))

/-- HOLD_END (R39). -/
def execHoldEnd (jtag : Bool) (s : State) : Host.Outcome State Fault Refusal :=
  done (if !s.coreOn then s
    else s.holdChange (fun t => if jtag then t.modPwr (fun p => { p with jtagHold := false }) else t.setFlag F.SYS_CTL_HOLD false))

/-- GO (R43, R46): a SYS_CTL word, whole; its GO and HOLD act on the host port alone. -/
def execGo (p : Path) (v : Word) (s : State) : Host.Outcome State Fault Refusal := done (s.onWrite p (fun t => t.sysCtl p v))

/-- SOFT_RESET (R404, R46): a SYS_CTL word, whole. -/
def execSoftReset (p : Path) (v : Word) (s : State) : Host.Outcome State Fault Refusal :=
  done (s.onWrite p (fun t => t.sysCtl p v))

/-- HWD_KICK (R40, R41, R46). -/
def execHwdKick (p : Path) (v : Word) (s : State) : Host.Outcome State Fault Refusal :=
  done (s.onWrite p (fun t => if p = .host then t.hwdKick v else t))

/-- HWD_EXPIRY (R42): HWD_T has passed with no valid kick. -/
def execHwdExpiry (s : State) : Host.Outcome State Fault Refusal :=
  done (if s.hwdArmed ∧ s.coreOn then (s.failover).post 0 1 (s.reg R.HWD_T).toNat else s)

/-- HWD_BOOT_TIMEOUT (R42, R395): no GO within HWD_BOOT_T of LIT entry. -/
def execHwdBootTimeout (s : State) : Host.Outcome State Fault Refusal :=
  done (if s.awaitsGo then
    let t := ((s.failover).post 2 9 (s.reg R.HWD_BOOT_T).toNat).setFlag F.SYS_BOOT_STANDALONE true
    t.modPwr (fun p => { p with leave := true, goAt := s.cyc })
  else s)

/-- JTAG_EXTEST (R512): while it is active every channel holds both gates low and the line driver is off. -/
def execJtagExtest (active : Bool) (s : State) : Host.Outcome State Fault Refusal :=
  done (if active && !s.coreOn then s else s.modPwr (fun p => { p with extest := active }))

end Sys2Proof.Machine
end

