-- ==== Sys2Proof/Machine/Keep.lean ====
section
/-! DEFINITION. The keep-alive domain and its energy path (R411 to R431, R537): the store and the cell, the harvester,
the gauge, hour ticks, and gestures. -/

namespace Sys2Proof.Machine

/-- Cell charge of 0.1 mAh in units of 0.5 uA s (R419, R420). -/
def cellUnit : Nat := 720000

/-- 36 J in uJ (R420). -/
def harvUnit : Nat := 36000000

/-- A second of the gauge (R418 to R420): the load class, cell charge, harvested energy and what they add to HC37 and
HC38. -/
def State.gaugeTick (s : State) (cls uj : Nat) : State :=
  let t := s.setFld F.KEEP_LOAD_CLASS cls
  let cell := t.keep.cellPart + (if t.fld F.KEEP_STAT_SRC = 2 then cls + 1 else 0)
  let e := if t.harvests then uj else 0
  let harv := t.keep.harvPart + e
  let t := t.modKeep (fun k => { k with cellPart := cell % cellUnit, harvPart := harv % harvUnit })
  let t := (t.setPair R.KEEP_EHARV_LO ((t.pair R.KEEP_EHARV_LO + e) % 2 ^ 32)).setFlag F.KEEP_STAT_HACT (e != 0)
  let t := if cell / cellUnit = 0 then t else t.hatInc 38 (cell / cellUnit)
  if harv / harvUnit = 0 then t else t.hatInc 37 (harv / harvUnit)

/-- VSTORE has fallen below 2.3 V (R412): the cell is selected where it can carry the domain; with VCELL below 2.5 V it is
not, nor any longer. -/
def State.cellNeeded (s : State) (vstore vcell : Word) : State :=
  let t := ((s.setReg R.KEEP_VSTORE vstore).setReg R.KEEP_VCELL vcell).keepStick F.KEEP_STAT_STLOW
  if vcell.toNat < 2500 then
    (((t.modKeep (fun k => { k with cell := false })).keepLive).keepStick F.KEEP_STAT_CELLLOW).postOrHold 0xB 5 (vcell.toNat / 10)
  else if t.flag F.KEEP_CTL_CELLEN ∧ !t.keep.cell then
    let u := (t.modKeep (fun k => { k with cell := true })).keepStick F.KEEP_STAT_CELLSW
    (u.keepLive).postOrHold 0xB 1 (vstore.toNat / 10)
  else t.keepLive

/-- A reading of the MPPS ratio in 1/1024 (R415). -/
def State.mppRead (s : State) (x : Nat) : State :=
  if 1024 ≤ 50 * x ∧ 10 * x ≤ 4096 then s.setReg R.KEEP_MPP (BitVec.ofNat 16 ((5000 * x + 512) / 1024))
  else
    let t := s.setReg R.KEEP_MPP (if 50 * x < 1024 then 100 else 2000)
    (t.keepStick F.KEEP_STAT_MPPERR).postOrHold 0xB 7 x

/-! Commands. -/

/-- KEEP_SENSE (R330, R418): in KEEP with KTS = 1, `temp` in 1/16 degC and VSTORE in mV. -/
def execKeepSense (temp vstore : Word) (s : State) : Host.Outcome State Fault Refusal :=
  done (if s.pwr.boot = 0 ∧ s.keep.deep.getLsbD 2 then
    ((s.setReg R.KEEP_VSTORE vstore).modKeep (fun k => { k with temp := signed 16 temp.toNat })).keepLive
  else s)

/-- CELL_SELECT (R412): VSTORE below 2.3 V, both in mV. -/
def execCellSelect (vstore vcell : Word) (s : State) : Host.Outcome State Fault Refusal :=
  done (if vstore.toNat < 2300 then s.cellNeeded vstore vcell else s)

/-- CELL_RELEASE (R412): VSTORE above 2.8 V. -/
def execCellRelease (vstore : Word) (s : State) : Host.Outcome State Fault Refusal :=
  done (if 2800 < vstore.toNat ∧ s.keep.cell then
    let t := (s.setReg R.KEEP_VSTORE vstore).modKeep (fun k => { k with cell := false })
    (t.keepLive).postOrHold 0xB 2 (vstore.toNat / 10)
  else s)

/-- STORE_FULL (R414, R416). -/
def execStoreFull (vstore : Word) (s : State) : Host.Outcome State Fault Refusal :=
  done (if 10 * s.fld F.KEEP_VMAX_V ≤ vstore.toNat then
    (((s.setReg R.KEEP_VSTORE vstore).setFlag F.KEEP_STAT_FULL true).setFlag F.KEEP_STAT_HACT false).keepLive
  else s)

/-- STORE_CHARGE_RESUME (R414). -/
def execStoreChargeResume (vstore : Word) (s : State) : Host.Outcome State Fault Refusal :=
  done (if vstore.toNat + 50 ≤ 10 * s.fld F.KEEP_VMAX_V then
    ((s.setReg R.KEEP_VSTORE vstore).setFlag F.KEEP_STAT_FULL false).keepLive
  else s)

/-- MPP_UPDATE (R415): while the harvester is enabled. -/
def execMppUpdate (ratio : Word) (s : State) : Host.Outcome State Fault Refusal :=
  done (if s.flag F.KEEP_CTL_HEN ∧ (s.pwr.boot ≠ 0 ∨ s.keep.deep.getLsbD 0) then s.mppRead ratio.toNat else s)

/-- GAUGE_SECOND (R419): the load class, and the energy harvested in the second in uJ. -/
def execGaugeSecond (cls : Fin 16) (uj : Nat) (s : State) : Host.Outcome State Fault Refusal := done (s.gaugeTick cls uj)

/-- HOUR_TICK (R451, R537): the elapsed-time count has reached the next multiple of 3600 s. -/
def execHourTick (s : State) : Host.Outcome State Fault Refusal :=
  done (if s.keep.hours < s.keep.elapsed / (3600 * 2 ^ 48) then (s.modKeep (fun k => { k with hours := k.hours + 1 })).hatInc 0 1
    else s)

/-- LIT_HOUR (R451): 3600 s of keep-alive edges in LIT have been counted. -/
def execLitHour (s : State) : Host.Outcome State Fault Refusal :=
  done (if s.pwr.boot = 0 ∨ s.keep.litEdges < 3600 * 32768 then s
    else (s.hatInc 2 1).modKeep (fun k => { k with litEdges := k.litEdges - 3600 * 32768 }))

/-- GESTURE_COMPLETE (R101, R102, R425): 2 s of keep-alive time after a return with no further declaration. -/
def execGestureComplete (s : State) : Host.Outcome State Fault Refusal :=
  done (let n := s.keep.taps
        if n = 0 ∨ s.keep.off ∨ s.pwr.boot = 0 ∨ s.keep.elapsed < s.keep.lastRet + 2 * 2 ^ 48 then s
        else
          let t := s.modKeep (fun k => { k with taps := 0 })
          let t := if n ≤ 4 then t.hatInc 39 1 else t
          t.gestureAct n)

end Sys2Proof.Machine
end

