-- ==== Sys2Proof/Machine/Save.lean ====
section
/-! DEFINITION. The saves of tables and configuration (R56, R442, R535): what a CFG or TAB bank holds, in which order, and
the bank builds that TAB_SAVE, SAVEDIR and CFG_SAVE queue. -/

namespace Sys2Proof.Machine

/-! Registers by page and offset. -/

/-- The select register that addresses the indexed block of a page (R27). -/
def pageSel (page : Nat) : Fld :=
  match page with
  | 4 => F.PWM_SEL_CH
  | 5 => F.CUR_SEL_CH
  | 6 => F.LMP_SEL_LAMP
  | 7 => F.FDE_SEL_LAMP
  | 8 => F.HLT_SEL_CH
  | 10 => F.MAC_RSVSEL_SEL
  | 13 => F.GTU_SEL_CH
  | 14 => F.HAT_SEL_HC
  | _ => F.SEC_SLOT_SEL_SLOT

/-- The bits of a register that a write sets: RW and LK (R2). -/
def writableBits (r : RegDef) : Word := accMask r.flds .rw ||| accMask r.flds .lk

/-! The CFG body (R535). -/

/-- The value in use of a register that a CFG bank stores: the active set of a switching channel (R123), the count and the
values in effect of a timer (R348), the bands in use (R220), else what the register holds. -/
def State.inUse (s : State) (page off i : Nat) : Word :=
  let k := regKey page off i
  let half (v : Nat) : Word := BitVec.ofNat 16 (if off % 2 = 0 then v else v / 65536)
  if k = R.PWM_PER + i then BitVec.ofNat 16 (s.chan i).per
  else if k = R.PWM_CMPA + i then BitVec.ofNat 16 (s.chan i).cmpa
  else if k = R.PWM_CMPB + i then BitVec.ofNat 16 (s.chan i).cmpb
  else if k = R.PWM_FINE + i then BitVec.ofNat 16 (s.chan i).fine
  else if page = 13 ∧ (off = 0x16 ∨ off = 0x17) then half (s.gt i).cnt
  else if page = 13 ∧ (off = 0x18 ∨ off = 0x19) then half (s.gt i).top
  else if page = 13 ∧ (off = 0x1A ∨ off = 0x1B) then half (s.gt i).c0
  else if page = 13 ∧ (off = 0x1C ∨ off = 0x1D) then half (s.gt i).c1
  else if k = R.PHY_BAND then BitVec.ofNat 16 (s.phy.band % 8 / 2 * 2)
  else s.reg k

/-- One entry of a CFG body: the register's place and its value in use. MAC_PARENT, which no write reaches, is stored
whole. -/
def State.cfgEntry (s : State) (page off i : Nat) : Nat × Word :=
  (page * 128 + off, match regDef page off with
    | some r => if page = 10 ∧ off = 7 then s.inUse page off i else s.inUse page off i &&& writableBits r
    | none => 0)

/-- The stored registers of a page that no select addresses, ascending, without PWM_ENA and GTU_ENA. -/
def cfgPlain (page : Nat) : List Nat :=
  ((layout page).filter (fun r => r.cfg && r.count == 1 && !((page == 4 || page == 13) && r.off == 2))).map RegDef.off

/-- The stored registers of one index of a page's block, in the order of R535. -/
def cfgIndexed (page : Nat) : List Nat :=
  match page with
  | 4 => [0x20, 0x21, 0x23, 0x24, 0x22, 0x25, 0x26, 0x27, 0x28, 0x29, 0x2A, 0x2B]
  | 6 => [0x11, 0x10, 0x12, 0x13, 0x14, 0x15]
  | 13 => [0x10, 0x11, 0x12, 0x13, 0x14, 0x15, 0x17, 0x16, 0x19, 0x18, 0x1B, 0x1A, 0x1D, 0x1C]
  | _ => ((layout page).filter (fun r => r.cfg && r.count != 1)).map RegDef.off

/-- The indexes of a page's block that a CFG bank stores. -/
def cfgCount (page : Nat) : Nat :=
  match page with
  | 4 => 16 | 5 => 16 | 6 => 8 | 8 => 16 | 13 => 8 | _ => 0

/-- The static mask (R248) as entries that write it through the table port. -/
def State.cfgMask (s : State) : List (Nat × Word) :=
  [(R.PHY_TSEL / 64, 0), (R.PHY_TADDR / 64, 0)] ++
    (List.range 10).map (fun w => (R.PHY_TDATA / 64, maskWord s.phy.mask w))

/-- The entries of one page. -/
def State.cfgPage (s : State) (page : Nat) : List (Nat × Word) :=
  (cfgPlain page).map (fun o => s.cfgEntry page o 0) ++
  (if page = 9 then s.cfgMask else []) ++
  (List.range (cfgCount page)).flatMap (fun i =>
    ((pageSel page).key / 64, BitVec.ofNat 16 i) :: (cfgIndexed page).map (fun o => s.cfgEntry page o i)) ++
  (if page = 4 ∨ page = 13 then [s.cfgEntry page 2 0] else [])

/-- The CFG body of the configuration in use. -/
def State.cfgBody (s : State) : List (Nat × Word) := (List.range 17).flatMap s.cfgPage

/-! The TAB body. -/

/-- The sections of a page, by page * 256 + table select: its active tables (R56), the plates apart (R107); the address
directory (R471). -/
def State.tabSections (s : State) (page : Nat) : List (Nat × List Word) :=
  match page with
  | 6 => [(0x600, spRead lmpDefault s.lmp.active 0 lmpWords)]
  | 7 => [0, 2, 3, 4, 5, 6].map (fun ts => (0x700 + ts, spRead fdeDefault s.fde.active (fdeKey ts 0) (fdeLen ts)))
  | 8 => [(0x800, spRead hltDefault s.hlt.active 0 hltWords)]
  | 15 => [(0xF00, spRead dirDefault s.sec.dir 0 4096)]
  | _ => []

/-- A body with the sections of a page replaced; pages ascend. -/
def tabMerge (old new : List (Nat × List Word)) (page : Nat) : List (Nat × List Word) :=
  old.filter (fun x => decide (x.1 / 256 < page)) ++ new ++ old.filter (fun x => decide (page < x.1 / 256))

/-! Bodies as bytes (R442). -/

/-- The bytes of a CFG body. -/
def cfgBytes (l : List (Nat × Word)) : List Byte :=
  l.flatMap (fun e => toBytes 1 (e.1 / 128) ++ toBytes 1 (e.1 % 128) ++ wordBytes e.2) ++ List.replicate 4 0xFF

/-- The bytes of a TAB body. -/
def tabBytes (l : List (Nat × List Word)) : List Byte :=
  l.flatMap (fun x => toBytes 2 x.1 ++ toBytes 2 x.2.length ++ wordsBytes x.2) ++ [0xFF]

/-- The entries of a CFG body given as bytes, up to its end; an offset past 0x7F addresses nothing. -/
def cfgParse : Nat → List Byte → Option (List (Nat × Word))
  | 0, _ => none
  | n + 1, p :: o :: h :: l :: rest =>
    if p = 0xFF ∧ o = 0xFF ∧ h = 0xFF ∧ l = 0xFF then some []
    else (cfgParse n rest).map (fun t =>
      if o.toNat < 128 then (p.toNat * 128 + o.toNat, BitVec.ofNat 16 (h.toNat * 256 + l.toNat)) :: t else t)
  | _, _ => none

/-- The sections of a TAB body given as bytes, up to its end. -/
def tabParse : Nat → List Byte → Option (List (Nat × List Word))
  | 0, _ => none
  | _, [] => none
  | n + 1, p :: rest =>
    if p = 0xFF then some []
    else match rest with
      | ts :: h :: l :: body =>
        let c := h.toNat * 256 + l.toNat
        if body.length < 2 * c then none
        else (tabParse n (body.drop (2 * c))).map (fun t => (p.toNat * 256 + ts.toNat, bytesWords (body.take (2 * c))) :: t)
      | _ => none

/-- The header of a bank whose body has `n` bytes. -/
def Bank.header (b : Bank) (cfg : Bool) (n : Nat) : List Byte :=
  let h := toBytes 2 (if cfg then 0x4346 else 0x5442) ++ toBytes 2 b.saves ++ toBytes 4 b.version ++ toBytes 4 n ++ b.digest
  h ++ toBytes 4 (crc32 h)

/-- A bank is built in place `n`: the sectors erased, the body from byte 128 on, then the header. -/
def VltState.bankPut (v : VltState) (cfg : Bool) (n : Nat) (b : Bank) (body : List Byte) : VltState :=
  (((v.bankClear cfg n).putOwn (bankAt cfg n + 128) body).putOwn (bankAt cfg n) (b.header cfg body.length)).setBank cfg n (some b)

/-- The bytes of a bank that the node builds itself. -/
def Bank.body (b : Bank) (cfg : Bool) : List Byte := if cfg then cfgBytes b.cfg else tabBytes b.tab

/-- A bank with its digest (R442). -/
def cfgBankOf (version saves : Nat) (l : List (Nat × Word)) : Bank :=
  { version := version, saves := saves, digest := sha256 (cfgBytes l), cfg := l }

def tabBankOf (version saves : Nat) (l : List (Nat × List Word)) : Bank :=
  { version := version, saves := saves, digest := sha256 (tabBytes l), tab := l }

/-! Builds. -/

/-- The active bank of a kind; none while defaults apply (R443). -/
def State.activeBank (s : State) (cfg : Bool) : Option Bank :=
  if cfg then (if s.flag F.SYS_BOOT_CFGDEF then none else s.vlt.cfgBank.getD (s.fld F.SYS_BOOT_CFGBANK) none)
  else (if s.flag F.SYS_BOOT_TABDEF then none else s.vlt.tabBank.getD (s.fld F.SYS_BOOT_TABBANK) none)

/-- The bank that a local save builds from the active one (R442): `b` holds what was captured. -/
def State.localBank (s : State) (cfg : Bool) (owner : Nat) (b : Bank) : Bank :=
  let a := (s.activeBank cfg).getD {}
  let n := min (a.saves + 1) 0xFFFF
  if cfg then cfgBankOf a.version n b.cfg else tabBankOf a.version n (tabMerge a.tab b.tab owner)

/-- A save waits for the vault: its entry needs room in the commit buffer (R434). -/
def State.queueSave (s : State) (cfg : Bool) (owner : Nat) (b : Bank) : State :=
  if s.vRoom 2 then (s.vOperate (.bank cfg owner b)).saveShow else s.vRefuse 3

/-- SAVE of page LMP (R56). -/
def State.lmpSave (s : State) : State :=
  s.queueSave false 6 { tab := s.tabSections 6 }

/-- SAVE of page FDE (R107). -/
def State.fdeSave (s : State) : State :=
  s.queueSave false 7 { tab := s.tabSections 7 }

/-- SAVE of page HLT (R213). -/
def State.hltSave (s : State) : State :=
  s.queueSave false 8 { tab := s.tabSections 8 }

/-- SAVEDIR (R471). -/
def State.dirSave (s : State) : State := s.queueSave false 15 { tab := s.tabSections 15 }

/-- The configuration save (R442). -/
def State.cfgSaveStart (s : State) : State := s.queueSave true 0 { cfg := s.cfgBody }

/-- A bank is built in the inactive place and BANKSEL names it: the banks are swapped (R442, R443). -/
def State.bankInstall (s : State) (cfg : Bool) (b : Bank) (body : List Byte) : State :=
  let n := s.bankFree cfg
  let t := s.modVlt (fun v => { v.bankPut cfg n b body with cfgSeen := v.cfgSeen || cfg, tabSeen := v.tabSeen || !cfg })
  let t := if cfg then (t.setFld F.SYS_BOOT_CFGBANK n).setFlag F.SYS_BOOT_CFGDEF false
    else (t.setFld F.SYS_BOOT_TABBANK n).setFlag F.SYS_BOOT_TABDEF false
  t.modVlt (fun v => v.ownCommit recBankSel [BitVec.ofNat 8 (t.fld F.SYS_BOOT_CFGBANK), BitVec.ofNat 8 (t.fld F.SYS_BOOT_TABBANK)]
    (dropFirstOp v.buf))

/-- BANK_BUILD_DONE (R442): the local save that runs is built and swapped in. -/
def State.bankDone (s : State) : State :=
  match s.vlt.op with
  | some (.bank cfg owner b) =>
    if s.vaultFree then
      let x := s.localBank cfg owner b
      (s.bankInstall cfg x (x.body cfg)).opEnd.saveShow.vDone
    else s
  | _ => s

/-! Commands. -/

/-- LMP_TAB_SAVE (R56). -/
def execLmpTabSave (p : Path) (s : State) : Host.Outcome State Fault Refusal :=
  done (s.onWrite p (fun t => if t.unlocked p then t.lmpSave else t))

/-- FDE_TAB_SAVE (R107). -/
def execFdeTabSave (p : Path) (s : State) : Host.Outcome State Fault Refusal :=
  done (s.onWrite p (fun t => if t.unlocked p then t.fdeSave else t))

/-- HLT_TAB_SAVE (R213). -/
def execHltTabSave (p : Path) (s : State) : Host.Outcome State Fault Refusal :=
  done (s.onWrite p (fun t => if t.unlocked p then t.hltSave else t))

/-- BANK_BUILD_DONE (R442). -/
def execBankBuildDone (s : State) : Host.Outcome State Fault Refusal := done s.bankDone

end Sys2Proof.Machine
end

