-- ==== Sys2Proof/Machine/SecCmd.lean ====
section
/-! DEFINITION. The commands of the security engine (R461 to R485): key load and erase, the lifecycle, the host's proof, the
self-tests, and the end of a vault commit with the slots it changes. -/

namespace Sys2Proof.Machine

/-- A SEC_CMD command completes with a result (R484, R485). -/
def State.secDone (s : State) (code : Nat) : State :=
  let t := (s.setReg R.SEC_RESULT (BitVec.ofNat 16 (32768 + code))).modSec (fun q => { q with cmdRun := false })
  if t.flag F.SEC_IRQEN_DONE then t.irq irqSec else t

/-- A SEC_CMD command that takes time begins: DONE reads 0 until it has completed. -/
def State.secBegin (s : State) : State := (s.setReg R.SEC_RESULT 0).modSec (fun q => { q with cmdRun := true })

/-- SEC_STAT.BUSY: a command, proof or bundle commit is running. -/
def State.secBusy (s : State) : Bool := s.sec.cmdRun || s.sec.proof.isSome || s.sec.commit.isSome

/-! Key slots (R465, R466). -/

/-- The KEYBLOB payload of a key: KID, reserved, and the key wrapped under KEK (R466). -/
def blobPayload (kid : Nat) (key : List Byte) : List Byte := [BitVec.ofNat 8 kid, 0] ++ kwWrap kekBytes key

/-- The slots that the record entries of a commit load or erase. -/
def keySlots (es : List (Nat × List Byte)) : List (Nat × List Byte) :=
  (es.filter (fun e => decide (recKeyBlob ≤ e.1) && decide (e.1 < recKeyBlob + 8))).map (fun e => (e.1 - recKeyBlob, e.2))

/-- Slots change when their commit is done (R466, R467): each leaves the cache and event 0x002 is posted with the KID
loaded, or the KID that the erased slot held; `v`: the vault before the commit. -/
def State.slotsDone (s : State) (v : VltState) (l : List (Nat × List Byte)) : State :=
  l.foldl (fun t e =>
    let kid := match e.2 with
      | k :: _ => k.toNat
      | [] => ((v.blob e.1).map Prod.fst).getD 0
    (t.slotFresh e.1).post 8 2 (e.1 * 256 + kid)) s

/-- COMMIT_DONE (R437, R466): a command that waits for its slot's commit completes. -/
def State.commitKeys (s : State) : State :=
  let t := s.commitDone
  if t.vlt.cnum = s.vlt.cnum then t
  else
    let l := keySlots ((bufRecords s.vlt.buf).take (s.vlt.commit.getD 0))
    let u := t.slotsDone s.vlt l
    if u.sec.cmdRun ∧ l ≠ [] ∧ keySlots (bufRecords u.vlt.buf) = [] then u.secDone cOk else u

/-- The key words of SEC_KDATA fit a class: 8 words, 16 for BUNDLE, 32 for OPERATOR-VERIFY, whose point lies on the
curve (R465). -/
def keyFits (cls : Nat) (ws : List Word) : Bool :=
  let b := wordsBytes ws
  decide (cls ≤ 5) && decide (b.length = keyLen cls) &&
    (cls != clsVerify || onCurve (ofBytes (b.take 32)) (ofBytes (b.drop 32)))

/-- A record entry of a slot is queued, or BUSY where the commit buffer has no room. -/
def State.slotRecord (s : State) (n : Nat) (payload : List Byte) : State :=
  if s.vRoom (10 + payload.length) then s.secBegin.vRecord (recKeyBlob + n) payload else s.secDone cBusy

/-- LOADKEY (R465). -/
def State.loadKey (s : State) (ws : List Word) : State :=
  let n := s.fld F.SEC_SLOT_SEL_SLOT
  let kid := s.fld F.SEC_KID_KID
  if s.sec.life ≠ 1 then s.secDone cState
  else if !keyFits (kidClass kid) ws ∨ (s.slotOf kid).any (· != n) then s.secDone cRange
  else s.slotRecord n (blobPayload kid (wordsBytes ws))

/-- ERASEKEY (R466). -/
def State.eraseKey (s : State) : State := s.slotRecord (s.fld F.SEC_SLOT_SEL_SLOT) []

/-! Lifecycle (R461, R462). -/

/-- COMMISSION (R462). -/
def State.commission (s : State) : State :=
  if s.sec.life ≠ 1 ∨ !s.holdsClass clsAdmin ∨ !s.holdsClass clsVerify ∨ !s.holdsClass clsBundle then s.secDone cState
  else s.secBegin.modSec (fun q => { q with burn := some 2 })

/-- RETIRE (R462). -/
def State.retire (s : State) : State :=
  if s.sec.life ≠ 1 ∧ s.sec.life ≠ 2 then s.secDone cState
  else s.secBegin.modSec (fun q => { q with burn := some 3 })

/-- The slots that hold a blob. -/
def State.loadedSlots (s : State) : List Nat := (List.range 8).filter (fun n => (s.vlt.blob n).isSome)

/-- Every loaded slot is erased after a retirement (R462); where the commit buffer has no room, at the next LIT entry. -/
def State.wipeSlots (s : State) : State :=
  let l := s.loadedSlots
  if s.vRoom (10 * l.length) then (l.foldl (fun t n => t.vRecord (recKeyBlob + n) []) s).modSec (fun q => { q with wipe := false })
  else s.modSec (fun q => { q with wipe := true })

/-- FUSE_BURN_DONE (R462). -/
def State.burnDone (s : State) : State :=
  match s.sec.burn with
  | none => s
  | some c =>
    let t := (s.modSec (fun q => { q with life := c, burn := none })).post 8 4 c
    if c ≠ 3 then t.secDone cOk
    else
      let l := t.loadedSlots
      let u := t.wipeSlots
      if l = [] ∨ u.sec.wipe then u.secDone cOk else u

/-! Proof (R480). -/

/-- The DIGEST of the active bank of a kind, zeros where defaults apply. -/
def State.bankDigest (s : State) (cfg : Bool) : List Byte :=
  match s.activeBank cfg with
  | some b => b.digest
  | none => List.replicate 32 0

def State.bankVersion (s : State) (cfg : Bool) : Nat :=
  match s.activeBank cfg with
  | some b => b.version
  | none => 0

/-- Bytes 0 to 115 of a proof body (R480). -/
def State.proofBody (s : State) (chal : List Byte) : List Byte :=
  chal ++ euiBytes ++ wordBytes (s.reg R.SYS_ID) ++ wordBytes (s.reg R.SYS_REV) ++ s.bankDigest true ++ s.bankDigest false ++
    toBytes 4 (s.bankVersion true) ++ toBytes 4 (s.bankVersion false) ++ toBytes 4 (s.hat 3) ++ toBytes 4 (s.hat 0) ++
    toBytes 4 (s.hat 1) ++ wordBytes (s.reg R.SYS_BOOT) ++ toBytes 1 s.sec.life ++ [0]

/-- A proof or a bundle commit runs (R289, R480). -/
def State.signBusy (s : State) : Bool := s.sec.proof.isSome || s.sec.commit.isSome

/-- The self-tests stand failed (R481). -/
def State.testsFailed (s : State) : Bool := s.sec.failed

/-- A proof is asked for: BUSY, STATE, or it begins (R480). -/
def State.signStart (s : State) (reply : Option Reply) (chal : List Byte) : State × Nat :=
  if s.signBusy then (s, cBusy)
  else if s.sec.life = 0 ∨ s.testsFailed then (s, cState)
  else (s.modSec (fun q => { q with proof := some { reply := reply, body := s.proofBody chal } }), cOk)

/-- The signed body: a signature over the SHA-256 of "PRF1" and the body, with a nonce that is a free value (R479,
R480). -/
def State.proofSigned (s : State) (body : List Byte) : List Byte :=
  body ++ ecdsaSign idScalar (s.freeNat % (p256N - 1) + 1) (sha256 ([0x50, 0x52, 0x46, 0x31] ++ body))

/-- The challenge of table 0x3. -/
def State.challenge (s : State) : List Byte := wordsBytes (spRead zeroWord s.sec.chal 0 8)

/-- PROOF by SEC_CMD (R480). -/
def State.secProofCmd (s : State) : State :=
  match s.signStart none s.challenge with
  | (t, 0) => t.secBegin
  | (t, c) => t.secDone c

/-! Self-tests (R481, R482). -/

/-- SELFTEST (R482). -/
def State.selfTest (s : State) : State :=
  if s.sec.tests ≠ 0 then s.secDone cBusy else s.secBegin.modSec (fun q => { q with tests := 2 })

/-- The known-answer tests end (R481, R482). -/
def State.testsEnd (s : State) (fail : Option (Fin 6)) : State :=
  if s.sec.tests = 0 then s
  else
    let cmd := decide (s.sec.tests = 2)
    let t := match fail with
      | none => (s.setFlag F.SEC_STAT_STOK true).modSec (fun q => { q with failed := false })
      | some k =>
        let r := (s.setFlag F.SEC_STAT_STOK false).modSec (fun q => { q with failed := true })
        let r := if cmd then r else r.setFlag F.SYS_BOOT_STFAIL true
        (r.secStick F.SEC_STAT_STFAIL).post 8 1 k.val
    let t := t.modSec (fun q => { q with tests := 0 })
    if cmd then t.secDone cOk else t

/-! SEC_CMD. -/

/-- Commands that only the host port may give (R462, R465). -/
def hostOnlySec (code : Nat) : Bool := code == 1 || code == 3 || code == 4

/-- A write to SEC_CMD (R485): `v` the word written. It clears SEC_KDATA; a command needs SYS_UNLOCK open on the path. -/
def State.secCmd (s : State) (p : Path) (unlocked : Bool) (v : Word) : State :=
  let code := v.toNat % 8
  if hostOnlySec code ∧ p = .remote then s
  else
    let ws := s.sec.kdata
    let t := s.modSec (fun q => { q with kdata := [] })
    if code = 0 ∨ !unlocked then t
    else if (code = 3 ∨ code = 4) ∧ getBits v 15 8 ≠ 0xA7 then t
    else if t.secBusy then t.secDone cBusy |>.modSec (fun q => { q with cmdRun := s.sec.cmdRun })
    else match code with
      | 1 => t.loadKey ws
      | 2 => t.eraseKey
      | 3 => t.commission
      | 4 => t.retire
      | 5 => t.secProofCmd
      | 6 => t.selfTest
      | _ => if t.vRoom 2 then t.dirSave.secDone cOk else t.secDone cBusy

/-- A write to SEC_KDATA (R465). Words past the longest key are not counted apart. -/
def State.kdataWrite (s : State) (v : Word) : State :=
  s.modSec (fun q => { q with kdata := if q.kdata.length < 33 then q.kdata ++ [v] else q.kdata })

/-- A write to SEC_SLOT_SEL (R465). -/
def State.slotSelect (s : State) (v : Word) : State :=
  (s.setFld F.SEC_SLOT_SEL_SLOT v.toNat).modSec (fun q => { q with kdata := [] })

/-- SEC_CMD of a path with a command code and no key byte. -/
def State.secWrite (s : State) (p : Path) (v : Word) : State := s.onWrite p (fun t => t.secCmd p (t.unlocked p) v)

/-- LOADKEY (R465). -/
def execLoadkey (p : Path) (s : State) : Host.Outcome State Fault Refusal := done (s.secWrite p 1)

/-- ERASEKEY (R466). -/
def execErasekey (p : Path) (s : State) : Host.Outcome State Fault Refusal := done (s.secWrite p 2)

/-- COMMISSION (R462): a write of code 0b011 to SEC_CMD with the KEY byte of `v`. -/
def execCommission (p : Path) (v : Word) (s : State) : Host.Outcome State Fault Refusal :=
  done (s.secWrite p (setBits v 2 0 3))

/-- RETIRE (R462): a write of code 0b100 to SEC_CMD with the KEY byte of `v`. -/
def execRetire (p : Path) (v : Word) (s : State) : Host.Outcome State Fault Refusal :=
  done (s.secWrite p (setBits v 2 0 4))

/-- FUSE_BURN_DONE (R462). -/
def execFuseBurnDone (s : State) : Host.Outcome State Fault Refusal := done s.burnDone

/-- PROOF written to SEC_CMD (R480). -/
def execSecProof (p : Path) (s : State) : Host.Outcome State Fault Refusal := done (s.secWrite p 5)

/-- SELFTEST (R482). -/
def execSelftest (p : Path) (s : State) : Host.Outcome State Fault Refusal := done (s.secWrite p 6)

/-- SELFTEST_END (R481, R482). -/
def execSelftestEnd (fail : Option (Fin 6)) (s : State) : Host.Outcome State Fault Refusal := done (s.testsEnd fail)

/-- SAVEDIR (R471). -/
def execSavedir (p : Path) (s : State) : Host.Outcome State Fault Refusal := done (s.secWrite p 7)

/-- SEC_KDATA_WRITE (R465). -/
def execSecKdataWrite (p : Path) (v : Word) (s : State) : Host.Outcome State Fault Refusal :=
  done (s.onWrite p (fun t => t.kdataWrite v))

/-- SEC_SLOT_SELECT (R465). -/
def execSecSlotSelect (p : Path) (v : Word) (s : State) : Host.Outcome State Fault Refusal :=
  done (s.onWrite p (fun t => t.slotSelect v))

/-- HEALTH_TEST_FAIL (R479). -/
def execHealthTestFail (s : State) : Host.Outcome State Fault Refusal := done (if s.coreOn then s.secStick F.SEC_STAT_STFAIL else s)

/-- COMMIT_DONE (R437). -/
def execCommitDone (s : State) : Host.Outcome State Fault Refusal := done s.commitKeys

end Sys2Proof.Machine
end

