-- ==== Sys2Proof/Machine/Access.lean ====
section
/-! DEFINITION. Register access (R2 to R4, R21 to R32, R44 to R46): what a read of a register returns, what a write of one
does, pairs, indexed blocks, table ports and the unlock sequence; the commands of the two access paths. -/

namespace Sys2Proof.Machine

/-! Places. -/

/-- The LO half of a pair (R29): the registers NAME_LO with NAME_HI at the next offset. -/
def pairLo (page off : Nat) : Bool :=
  match page with
  | 0 => [0x08, 0x0A].contains off
  | 3 => [0x08, 0x0A, 0x0C, 0x10, 0x12].contains off
  | 5 => [0x28, 0x2A].contains off
  | 7 => off == 0x16
  | 8 => [0x22, 0x43, 0x45].contains off
  | 9 => off == 0x12
  | 10 => off == 0x0C
  | 11 => off == 0x11
  | 12 => [0x10, 0x12, 0x14, 0x16, 0x18, 0x1A, 0x1C, 0x20, 0x22, 0x28, 0x2A, 0x30, 0x32, 0x38, 0x3A, 0x40, 0x42].contains off
  | 13 => [0x16, 0x18, 0x1A, 0x1C, 0x1E].contains off
  | 14 => [0x08, 0x11, 0x14].contains off
  | 15 => off == 0x0C
  | 16 => off == 0x05
  | _ => false

/-- The HI half of a pair. -/
def pairHi (page off : Nat) : Bool := decide (1 ≤ off) && pairLo page (off - 1)

/-- The table ports (R28): the offset of the data register of a page, its address field and the bits of the address. -/
def tablePort (page : Nat) : Option (Nat × Fld × Nat) :=
  match page with
  | 6 => some (0x09, F.LMP_TADDR_ADDR, 10)
  | 7 => some (0x09, F.FDE_TADDR_ADDR, 13)
  | 8 => some (0x15, F.HLT_TADDR_ADDR, 5)
  | 9 => some (0x16, F.PHY_TADDR_ADDR, 11)
  | 14 => some (0x0C, F.VLT_RADDR_ADDR, 16)
  | 15 => some (0x10, F.SEC_TADDR_ADDR, 12)
  | _ => none

/-- What a page's select register holds. -/
def State.select (s : State) (page : Nat) : Nat := s.fld (pageSel page)

/-- The pages whose select takes the broadcast code (R27). -/
def broadcasts (page : Nat) : Bool := [4, 5, 8, 13].contains page

/-- The indexes that an access to an indexed register reaches (R27). -/
def State.indexes (s : State) (page count : Nat) : List Nat :=
  let v := s.select page
  if count = 1 then [0]
  else if broadcasts page ∧ v = 0x1F then List.range count
  else if v < count then [v] else []

/-- The tag of a pair (R29): the pair and, for an indexed pair, the select value. -/
def State.pairTag (s : State) (page off : Nat) : Nat :=
  match regDef page off with
  | some r => regKey page off (if r.count = 1 then 0 else s.select page)
  | none => regKey page off 0

/-! Live words. -/

/-- A flag at a bit of a word. -/
def bitAt (b : Bool) (n : Nat) : Word := if b then BitVec.ofNat 16 (2 ^ n) else 0

/-- VLT_STAT with its live bits. -/
def State.vltStat (s : State) : Word :=
  let v := s.vlt
  let erase (e : VEntry) : Bool := match e with | .usrErase _ => true | _ => false
  let srw := v.op.any (fun e => !erase e) || v.fold.isSome
  let busy := srw || v.op.isSome || v.commit.isSome || (s.vaultFree && decide (v.hatCut ≠ 0))
  (s.reg R.VLT_STAT &&& 0x18FF) ||| bitAt busy 15 ||| bitAt srw 14 |||
    bitAt (!v.buf.isEmpty) 13 ||| bitAt s.keep.pwLock 10

/-- VLT_PWST as a path reads it (R445, R446). -/
def State.vltPwst (s : State) (p : Path) : Word :=
  let left := if s.keep.pwLock then (s.keep.pwUntil - s.keep.elapsed + 2 ^ 48 - 1) / 2 ^ 48 else 0
  bitAt (s.rawOpen p 2) 14 ||| bitAt (s.rawOpen p 1) 13 ||| bitAt (s.rawOpen p 0) 12 ||| BitVec.ofNat 16 (min left 4095)

/-- SEC_SLOT of slot `n`. -/
def State.secSlot (s : State) (n : Nat) : Word :=
  match s.vlt.blob n with
  | none => bitAt (s.sec.bad.contains n) 13
  | some (kid, _) => 0x8000 ||| bitAt (s.sec.cache.contains n) 14 ||| bitAt (s.sec.bad.contains n) 13 ||| BitVec.ofNat 16 kid

/-- The own phase label (R286): the head's label advanced by the learned phase. -/
def State.aph (s : State) : Nat :=
  let h := if s.isHead then s.fld F.MAC_CTL_HPH else s.mac.hph
  if h = 3 ∨ (!s.isHead ∧ !s.flag F.PHY_PHS_LRN) then 3 else (h + (if s.isHead then 0 else s.fld F.PHY_PHS_LPH)) % 3

/-- The bits of a register that its fields hold; the others are reserved and read 0 (R3). -/
def fieldsMask (l : List FieldDef) : Word := l.foldl (fun m f => m ||| fieldMask f.hi f.lo) 0

/-- The word that register `off` of a page, index `i`, holds as path `p` reads it: live registers first, else the register
file. The two halves of a live 32-bit value are computed alike. -/
def State.word (s : State) (p : Path) (page off i : Nat) : Word :=
  let k := regKey page off i
  let lo (v : Nat) : Word := BitVec.ofNat 16 v
  let hi (v : Nat) : Word := BitVec.ofNat 16 (v / 65536)
  match page, off with
  | 0, 0x03 => (s.reg k &&& 0x001B) ||| bitAt s.holdActive 5
  | 0, 0x30 => (s.reg k &&& 0x7FFF) ||| bitAt s.holdActive 15
  | 0, 0x31 => (s.reg k &&& 0xFFF7) ||| bitAt s.hwdArmed 3
  | 0, 0x3C => bitAt (s.unlocked p) 0
  | 2, 0x02 => if s.surveyClk then s.reg k else s.reg k &&& ~~~ F.PWR_STAT_FALL.mask
  | 3, 0x08 => lo (s.storeEnergy (s.reg R.KEEP_VSTORE).toNat)
  | 3, 0x09 => hi (s.storeEnergy (s.reg R.KEEP_VSTORE).toNat)
  | 3, 0x0A => lo (s.hat 38)
  | 3, 0x0B => hi (s.hat 38)
  | 4, 0x30 => lo (s.chan i).cnt
  | 6, 0x1E => (s.reg k &&& 0xDFFF) ||| bitAt ((s.lampChans i).any (fun n => s.lat n != 0 || s.lockedOff n)) 13
  | 7, 0x1B => (s.path p).rstat
  | 7, 0x20 => s.fdeOwn i
  | 7, 0x03 => s.fdeStat
  | 7, 0x21 => s.fdeLstat i
  | 7, 0x28 => s.fdeToday
  | 7, 0x29 => s.fdeSun 0
  | 7, 0x2A => s.fdeSun 1
  | 9, 0x02 => (s.reg k &&& 0xE7FF) ||| bitAt s.transmitting 12 ||| bitAt s.receiving 11
  | 9, 0x06 => if s.flag F.PHY_AGC_MAN then setBits (s.reg k) 4 0 (s.fld F.PHY_AGC_MGAIN) else s.reg k
  | 10, 0x04 => setBits (s.reg k) 13 12 s.aph
  | 10, 0x0E => setBits (s.reg k) 4 0 s.posn
  | 12, 0x02 => setBits (setBits (s.reg k) 13 10 s.tier) 9 0 s.ferr
  | 12, 0x10 => lo (secOf s.tim.now)
  | 12, 0x11 => hi (secOf s.tim.now)
  | 12, 0x12 => lo (s.path p).snapF
  | 12, 0x13 => hi (s.path p).snapF
  | 12, 0x1A => lo s.timStep
  | 12, 0x1B => hi s.timStep
  | 12, 0x1C => lo (s.timStep / 2 ^ 32)
  | 12, 0x1D => hi (s.timStep / 2 ^ 32)
  | 13, 0x04 => s.gtuPins
  | 13, 0x16 => lo (s.gt i).cnt
  | 13, 0x17 => hi (s.gt i).cnt
  | 13, 0x20 => s.gtuCstat i
  | 14, 0x02 => s.vltStat
  | 14, 0x06 => lo (min 0x1FFF (bufFill s.vlt.buf))
  | 14, 0x08 => lo s.vlt.cnum
  | 14, 0x09 => hi s.vlt.cnum
  | 14, 0x0E => s.vltPwst p
  | 14, 0x11 => lo (s.hat i)
  | 14, 0x12 => hi (s.hat i)
  | 14, 0x14 => lo s.vlt.epoch
  | 14, 0x15 => hi s.vlt.epoch
  | 15, 0x02 => setBits (s.reg k &&& 0x2FFF) 15 14 s.sec.life ||| bitAt s.secBusy 12
  | 15, 0x07 => s.secSlot (s.fld F.SEC_SLOT_SEL_SLOT)
  | 15, 0x0C => lo s.fcNext
  | 15, 0x0D => hi s.fcNext
  | 15, 0x11 => lo (min Config.certLen 768)
  | _, _ =>
    if page = 10 ∧ 0x28 ≤ off ∧ off ≤ 0x2F then lo (s.ringFill (off - 0x28))
    else match regDef page off with
      | some r => s.reg k &&& ~~~ accMask r.flds .wt
      | none => 0

/-! Table ports (R28). -/

/-- The words of the SEC tables (R485). -/
def secLen (tsel : Nat) : Nat :=
  match tsel with
  | 0 => 4096 | 1 => 384 | 2 => 32 | 3 => 8 | 4 => 90 | _ => 0

/-- Byte `i` of the vendor certificate; past its length 0. -/
def certByte (i : Nat) : Byte := if i < min Config.certLen 768 then Config.cert i else 0

/-- A word of the SEC tables. -/
def State.secTable (s : State) (tsel a : Nat) : Word :=
  match tsel with
  | 0 => spGet dirDefault s.sec.dir a
  | 1 => BitVec.ofNat 16 ((certByte (2 * a)).toNat * 256 + (certByte (2 * a + 1)).toNat)
  | 2 => BitVec.ofNat 16 (Config.idPublic / 65536 ^ (31 - a))
  | 3 => spGet zeroWord s.sec.chal a
  | 4 => (bytesWords s.sec.body).getD a 0
  | _ => 0

/-- The words of the table that a page's port reaches. -/
def State.tableLen (s : State) (page : Nat) : Nat :=
  match page with
  | 6 => lmpWords
  | 7 => fdeLen (s.fld F.FDE_TSEL_TSEL)
  | 8 => hltWords
  | 9 => phyLen (s.fld F.PHY_TSEL_TSEL)
  | 14 => rawWords s.rsel
  | _ => secLen (s.fld F.SEC_TSEL_TSEL)

/-- Word `a` of that table as a path reads it (R53, R93, R106, R213, R444). -/
def State.tableWord (s : State) (p : Path) (page a : Nat) : Word :=
  match page with
  | 6 => lmpAt (if s.flag F.LMP_STAT_EDIT then s.lmp.edit else s.lmp.active) a
  | 7 =>
    let ts := s.fld F.FDE_TSEL_TSEL
    if ts = 1 then (s.plateWords (a / 32)).getD (a % 32) 0xFFFF
    else fdeAt (if s.flag F.FDE_STAT_EDIT then s.fde.edit else s.fde.active) ts a
  | 8 => spGet hltDefault (if s.flag F.HLT_STAT_EDIT then s.hlt.edit else s.hlt.active) a
  | 9 => s.phyTable (s.fld F.PHY_TSEL_TSEL) a
  | 14 => if s.rawOpen p s.rsel then s.rawRead s.rsel a else 0
  | _ => s.secTable (s.fld F.SEC_TSEL_TSEL) a

/-- A word of a lamp table, of a fade table and of an analyser table, into the edit copy where it is open. -/
def State.lmpPut (s : State) (a : Nat) (v : Word) : State :=
  if s.flag F.LMP_STAT_EDIT then s.modLmp (fun m => { m with edit := spSet lmpDefault m.edit a v }) else s
def State.fdePut (s : State) (p : Path) (a : Nat) (v : Word) : State :=
  let ts := s.fld F.FDE_TSEL_TSEL
  if ts = 1 then (if s.unlocked p then s.plateWrite a v else s)
  else if s.flag F.FDE_STAT_EDIT ∧ !(ts = 0 ∧ a < 771) then
    s.modFde (fun d => { d with edit := spSet fdeDefault d.edit (fdeKey ts a) v })
  else s
def State.hltPut (s : State) (a : Nat) (v : Word) : State :=
  if s.flag F.HLT_STAT_EDIT then s.modHlt (fun h => { h with edit := spSet hltDefault h.edit a v }) else s

/-- The word written, where the owning chapter takes it (R53, R93, R107, R213, R244, R248, R444, R485). -/
def State.tablePut (s : State) (p : Path) (page a : Nat) (v : Word) : State :=
  match page with
  | 6 => s.lmpPut a v
  | 7 => s.fdePut p a v
  | 8 => s.hltPut a v
  | 9 => s.phyTablePut (s.unlocked p) (s.fld F.PHY_TSEL_TSEL) a v
  | 14 => if s.rawOpen p s.rsel then s.rawWrite s.rsel a v else s
  | _ =>
    match s.fld F.SEC_TSEL_TSEL with
    | 0 => if s.unlocked p then s.dirPut a v else s
    | 3 => s.modSec (fun q => { q with chal := spSet zeroWord q.chal a v })
    | _ => s

/-- VLT_ERR shows a closed region (R445). -/
def State.rawMark (s : State) (p : Path) (page : Nat) : State :=
  if page = 14 ∧ !s.rawOpen p s.rsel then s.setFld F.VLT_ERR_CODE 1 else s

/-- The address after a data access: one more, or a mark past the end where the register cannot hold it. -/
def State.portStep (s : State) (f : Fld) (width a : Nat) : State :=
  if a + 1 < 2 ^ width then s.setFld f (a + 1) else s.modVlt (fun v => { v with past := f.key :: v.past })

/-- The port's address names no word of its table. -/
def State.portPast (s : State) (page : Nat) (f : Fld) : Bool :=
  s.vlt.past.contains f.key || decide (s.tableLen page ≤ s.fld f)

/-- A read of a table data register. -/
def State.tableRead (s : State) (p : Path) (page : Nat) (f : Fld) (width : Nat) : State × Word :=
  let t := s.rawMark p page
  if t.portPast page f then (t, 0) else (t.portStep f width (t.fld f), t.tableWord p page (t.fld f))

/-- A write of a table data register; in the USR region the address stays in the page of the buffer (R444). -/
def State.tableWrite (s : State) (p : Path) (page : Nat) (f : Fld) (width : Nat) (v : Word) : State :=
  let t := s.rawMark p page
  if t.portPast page f then t
  else
    let a := t.fld f
    (if page = 14 ∧ t.rsel = 0 then t.setFld f (64 * (t.vlt.usrPage a) + (a + 1) % 64) else t.portStep f width a).tablePut p page a v

/-! Reads. -/

/-- A read of register `off` of a page on a path (R24, R26 to R29): the state after it and the word. -/
def State.readReg (s : State) (p : Path) (page off : Nat) : State × Word :=
  let live (t : State) (o : Nat) : Word :=
    match regDef page o with
    | none => 0
    | some r =>
      match t.indexes page r.count with
      | [i] => t.word p page o i &&& fieldsMask r.flds
      | _ => 0
  if off = 0 then (s, BitVec.ofNat 16 (s.path p).page)
  else if 0x11 ≤ page then (s, 0)
  else if (tablePort page).any (fun t => t.1 == off) then
    match tablePort page with
    | some (_, f, w) => s.tableRead p page f w
    | none => (s, 0)
  else if page = 10 ∧ off = 0x21 then
    let t := s.rdataRead p
    (t, (t.path p).last)
  else if page = 12 ∧ off = 0x10 then
    let t := s.readTimSec p
    (t, (t.path p).last)
  else if pairLo page off then
    (s.modPath p (fun q => { q with latch := live s (off + 1), latchTag := some (s.pairTag page off) }), live s off)
  else if pairHi page off then
    if (s.path p).latchTag = some (s.pairTag page (off - 1)) then (s, (s.path p).latch) else (s, live s off)
  else (s, live s off)

/-- The word of a read is what the path's last read returned. -/
def State.readPath (s : State) (p : Path) (page off : Nat) : State :=
  let (t, w) := s.readReg p page off
  t.modPath p (fun q => { q with last := w })

/-! Writes. -/

/-- The stored value of a written word, where the field's Effect column bounds it. -/
def State.bound (s : State) (page off : Nat) (w : Word) : Word :=
  let put (hi lo : Nat) (f : Nat → Nat) : Word := setBits w hi lo (f (getBits w hi lo))
  let one (n : Nat) : Nat := max 1 n
  let sgn (m : Int) : Word := BitVec.ofInt 16 (clampInt (-m) m (signed 16 w.toNat))
  match page, off with
  | 0, 0x33 => put 15 0 (max 10)
  | 0, 0x34 => put 15 0 (max 10)
  | 1, 0x05 => put 12 8 (min 16)
  | 2, 0x01 => put 11 8 one
  | 2, 0x05 => put 7 0 (clampNat 0x20 0xE0)
  | 2, 0x06 => put 7 0 (clampNat (max 0x28 (s.fld F.PWR_LINKUV_UV + 4)) 0xF0)
  | 3, 0x04 => put 8 0 (clampNat 330 500)
  | 3, 0x05 => put 15 0 one
  | 4, 0x20 => put 1 0 (fun n => if n = 3 then 0 else n)
  | 4, 0x26 => put 15 8 (max 4)
  | 4, 0x27 => put 7 0 one
  | 4, 0x2A => put 10 0 (clampNat 1 1024)
  | 5, 0x02 => put 3 0 (min 8)
  | 5, 0x05 => put 15 0 (clampNat 1536 51200)
  | 5, 0x07 => put 4 0 (clampNat 1 16)
  | 5, 0x20 => put 11 8 (max 2)
  | 5, 0x21 => put 9 0 (clampNat 200 800)
  | 5, 0x22 => put 11 0 (clampNat 0x029 0x19A)
  | 5, 0x25 => put 7 0 (min 0xF0)
  | 5, 0x26 => put 7 0 (clampNat 0x14 0xE0)
  | 5, 0x29 => w &&& 0x000F
  | 6, 0x12 => put 15 0 (max 0x8000)
  | 8, 0x05 => put 11 8 one
  | 8, 0x07 => put 10 8 one
  | 8, 0x31 => put 15 0 one
  | 8, 0x37 => put 15 0 one
  | 9, 0x01 => put 2 1 (fun n => if n = 3 then 0 else n)
  | 9, 0x06 => put 12 8 (min 16)
  | 9, 0x07 => sgn 5000
  | 10, 0x09 => setBits (put 7 4 one) 3 0 (one (getBits w 3 0))
  | 11, 0x08 => put 15 0 one
  | 12, 0x06 => sgn 900
  | 12, 0x08 => setBits (put 15 8 one) 7 4 (one (getBits w 7 4))
  | 13, 0x03 => (List.range 8).foldl (fun x n => if getBits x (2 * n + 1) (2 * n) = 3 then setBits x (2 * n + 1) (2 * n) 0 else x) w
  | 14, 0x01 => put 15 8 one
  | _, _ => w

/-- The bits of a register that a write on a path may change: RW, and LK while SYS_UNLOCK is open (R2). -/
def writeMask (l : List FieldDef) (opened : Bool) : Word := accMask l .rw ||| (if opened then accMask l .lk else 0)

/-- What a register holds after a write: the word merged by access code, its written fields bounded (R2). -/
def State.mergedWord (s : State) (p : Path) (page off i : Nat) (r : RegDef) (v : Word) : Word :=
  let m := writeMask r.flds (s.unlocked p)
  let w := mergeWrite r.flds (s.unlocked p) (s.reg (regKey page off i)) v
  (s.bound page off w &&& m) ||| (w &&& ~~~ m)

/-- A register word merged by access code (R2). -/
def State.mergeReg (s : State) (p : Path) (page off i : Nat) (v : Word) : State :=
  match regDef page off with
  | none => s
  | some r => s.setReg (regKey page off i) (s.mergedWord p page off i r v)

/-- A write to SYS_UNLOCK (R32). -/
def State.unlockWrite (s : State) (p : Path) (v : Word) : State :=
  s.modPath p (fun q =>
    if v = 0x5A17 then { q with armed := true }
    else if v = 0xC3E8 ∧ q.armed then { q with armed := false, opened := true }
    else { q with armed := false, opened := false })

/-- A write to NMI_STAT (R36): a source whose condition still stands sets its bit again. Whether the core buck's input has
risen again since the warning is a free value. The spec does not say when the condition of VAUXW has ended: here it stands
for the whole mains-loss sequence, also once VAUX is good again (DESIGN CHOICE, log entry 62). -/
def State.nmiClear (s : State) (p : Path) (v : Word) : State :=
  let t := s.mergeReg p 0 0x0C 0 v
  let t := if s.pwr.borLow ∧ v &&& F.NMI_STAT_BOR.mask ≠ 0 then
      let u := t.useFree
      if s.freeNat % 2 = 0 then u.modPwr (fun q => { q with borLow := false }) else u.nmi F.NMI_STAT_BOR
    else t
  let t := if s.vlt.hatBad ∨ !s.sec.bad.isEmpty then t.nmi F.NMI_STAT_VLTF else t
  let t := if s.pwr.loss ≠ 0 then t.nmi F.NMI_STAT_VAUXW else t
  let lim := s.fld F.PWM_STORM_TRIP_STORM
  let t := if lim ≠ 0 ∧ lim < s.fld F.PWM_STORM_CNT then t.nmi F.NMI_STAT_STORM else t
  if s.clk.fellBack ∧ !s.flag F.CLK_STAT_ROOTSRC then t.nmi F.NMI_STAT_CLKF else t

/-- A TCTL command (R53, R107, R213): OPEN, CLOSE or SAVE of a page, while SYS_UNLOCK is open. -/
def State.tctl (s : State) (p : Path) (page code : Nat) : State :=
  if !s.unlocked p then s
  else match page, code with
    | 6, 1 => s.lmpOpen
    | 6, 2 => s.lmpClose
    | 6, 3 => s.lmpSave
    | 7, 1 => s.fdeOpen
    | 7, 2 => s.fdeClose
    | 7, 3 => s.fdeSave
    | 8, 1 => s.hltOpen
    | 8, 2 => s.hltClose
    | 8, 3 => s.hltSave
    | _, _ => s

/-- The comparators and pins as a clear by a register write meets them are free values. -/
def State.clearFree (s : State) (f : State → Word → Word → BitVec 4 → State) : State :=
  f s.useFree (BitVec.ofNat 16 s.freeNat) (BitVec.ofNat 16 (s.freeNat / 65536)) (BitVec.ofNat 4 (s.freeNat / 2 ^ 32))

/-- A table address register written (R28). -/
def State.portAddr (s : State) (p : Path) (page off : Nat) (v : Word) : State :=
  (s.mergeReg p page off 0 v).modVlt (fun q => { q with past := q.past.filter (· != regKey page off 0) })

/-- HLT_CCTL of channel `n` (R190, R201, R204). -/
def State.cctl (s : State) (n : Nat) (v : Word) : State :=
  let t := if v.getLsbD 2 then s.ledRst n else s
  let t := if v.getLsbD 1 then t.modelClr n else t
  if v.getLsbD 0 then t.dtRelearn n else t

/-- A written MAC_SHORT (R275): a node that has a short address is JOINED. -/
def State.shortWrite (s : State) (a : Nat) : State :=
  if a = s.short then s
  else
    let t := s.setShort a
    if a = 0x3FF then (t.joinState 0).seqStart else t.joinState 2

/-- The writes of page SYS that do more than store a value. -/
def State.writeSys (s : State) (p : Path) (off : Nat) (v : Word) : State :=
  match off with
  | 0x04 => s.sysCtl p v
  | 0x0C => s.nmiClear p v
  | 0x30 => if p = .host then s.holdChange (fun t => t.mergeReg p 0 0x30 0 v) else s
  | 0x31 => if p = .host then s.mergeReg p 0 0x31 0 v else s
  | 0x32 => if p = .host then s.hwdKick v else s
  | 0x33 => if p = .host then s.mergeReg p 0 0x33 0 v else s
  | 0x34 => if p = .host then s.mergeReg p 0 0x34 0 v else s
  | 0x3C => s.unlockWrite p v
  | _ => s.mergeReg p 0 off 0 v

/-- A write of CLK_GATE_RUN or CLK_GATE_SLP (R381): line work that it stops is abandoned. -/
def State.gateWrite (s : State) (p : Path) (off : Nat) (v : Word) : State :=
  let t := s.mergeReg p 1 off 0 v
  if s.phyOn && !t.phyOn then t.lineStop else t

/-- The writes of page CLK that do more than store a value. -/
def State.writeClk (s : State) (p : Path) (off : Nat) (v : Word) : State :=
  match off with
  | 0x01 => (s.mergeReg p 1 0x01 0 v).ircKeep
  | 0x04 => s.clkCmd v
  | 0x05 =>
    let t := s.mergeReg p 1 0x05 0 v
    if s.clk.spread.getLsbD 15 then t else t.spreadNow
  | 0x09 => s.gateWrite p 0x09 v
  | 0x0A => s.gateWrite p 0x0A v
  | _ => s.mergeReg p 1 off 0 v

/-- The writes of page PWR that do more than store a value: PWR_LINKOV stays at least UV + 4 (R410). -/
def State.writePwr (s : State) (p : Path) (off : Nat) (v : Word) : State :=
  match off with
  | 0x05 =>
    let t := s.mergeReg p 2 0x05 0 v
    t.setFld F.PWR_LINKOV_OV (max (t.fld F.PWR_LINKOV_OV) (t.fld F.PWR_LINKUV_UV + 4))
  | _ => s.mergeReg p 2 off 0 v

/-- The writes of page KEEP that do more than store a value. -/
def State.writeKeep (s : State) (p : Path) (off : Nat) (v : Word) : State :=
  match off with
  | 0x01 =>
    (s.mergeReg p 3 0x01 0 v).keepLive
  | 0x04 => (s.mergeReg p 3 0x04 0 v).keepLive
  | _ => s.mergeReg p 3 off 0 v

/-- The writes of page PWM that do more than store a value. -/
def State.writePwm (s : State) (p : Path) (off : Nat) (v : Word) : State :=
  match off with
  | 0x02 => s.enaSet v
  | 0x06 => (s.mergeReg p 4 0x06 0 v).globalLevels
  | _ => s.mergeReg p 4 off 0 v

/-- The writes of page CUR that do more than store a value. -/
def State.writeCur (s : State) (p : Path) (off : Nat) (v : Word) : State :=
  match off with
  | 0x05 => (s.mergeReg p 5 0x05 0 v).dperMoved (s.reg R.CUR_DPER)
  | _ => s.mergeReg p 5 off 0 v

/-- The writes of page LMP that do more than store a value. -/
def State.writeLmp (s : State) (p : Path) (off : Nat) (v : Word) : State :=
  match off with
  | 0x08 => s.portAddr p 6 0x08 v
  | 0x0A => s.tctl p 6 (v.toNat % 4)
  | _ => s.mergeReg p 6 off 0 v

/-- The writes of page FDE that do more than store a value. -/
def State.writeFde (s : State) (p : Path) (off : Nat) (v : Word) : State :=
  match off with
  | 0x02 =>
    let t := s.mergeReg p 7 0x02 0 v
    if !s.flag F.FDE_CTL_SCHEN ∧ t.flag F.FDE_CTL_SCHEN ∧ t.timeValid then t.modFde (fun d => { d with replay := true }) else t
  | 0x08 => s.portAddr p 7 0x08 v
  | 0x0A => s.tctl p 7 (v.toNat % 4)
  | 0x19 => s.rcmd p (v.toNat / 8192) (v.toNat % 256)
  | _ => s.mergeReg p 7 off 0 v

/-- The writes of page HLT that do more than store a value. -/
def State.writeHlt (s : State) (p : Path) (off : Nat) (v : Word) : State :=
  match off with
  | 0x08 => s.forChans (fun n u => if v.getLsbD n then u.proofRequest n else u)
  | 0x14 => s.portAddr p 8 0x14 v
  | 0x16 => s.tctl p 8 (v.toNat % 4)
  | _ => s.mergeReg p 8 off 0 v

/-- The writes of page PHY that do more than store a value. -/
def State.writePhy (s : State) (p : Path) (off : Nat) (v : Word) : State :=
  match off with
  | 0x15 => s.portAddr p 9 0x15 v
  | _ => s.mergeReg p 9 off 0 v

/-- The writes of page MAC that do more than store a value. -/
def State.writeMac (s : State) (p : Path) (off : Nat) (v : Word) : State :=
  match off with
  | 0x04 => s.roleWrite (s.unlocked p) v.toNat
  | 0x06 => if s.unlocked p then s.shortWrite (v.toNat % 1024) else s
  | 0x21 => s.rdataWrite p v
  | 0x22 => s.rctlWrite p (v.toNat % 4)
  | _ => s.mergeReg p 10 off 0 v

/-- The writes of page TIM that do more than store a value. -/
def State.writeTim (s : State) (p : Path) (off : Nat) (v : Word) : State :=
  match off with
  | 0x06 => (s.mergeReg p 12 0x06 0 v).offsetMoved (s.reg R.TIM_OFFSET)
  | 0x0F => s.timCmd p (v.toNat % 4)
  | 0x2C => s.alarmWrite 0 v
  | 0x34 => s.alarmWrite 1 v
  | 0x3C => s.alarmWrite 2 v
  | 0x44 => s.alarmWrite 3 v
  | _ => s.mergeReg p 12 off 0 v

/-- The writes of page GTU that do more than store a value. -/
def State.writeGtu (s : State) (p : Path) (off : Nat) (v : Word) : State :=
  match off with
  | 0x02 => s.gtuEna v
  | 0x05 => s.gtuTrg v
  | _ => s.mergeReg p 13 off 0 v

/-- The writes of page VLT that do more than store a value. -/
def State.writeVlt (s : State) (p : Path) (off : Nat) (v : Word) : State :=
  match off with
  | 0x04 => s.vltCmd p (v.toNat % 16)
  | 0x0A => s.rselWrite v
  | 0x0B => s.portAddr p 14 0x0B v
  | 0x0D => s.pwdWrite p v
  | _ => s.mergeReg p 14 off 0 v

/-- The writes of page SEC that do more than store a value. -/
def State.writeSec (s : State) (p : Path) (off : Nat) (v : Word) : State :=
  match off with
  | 0x04 => s.secCmd p (s.unlocked p) v
  | 0x06 => s.slotSelect v
  | 0x09 => s.kdataWrite v
  | 0x0F => s.portAddr p 15 0x0F v
  | _ => s.mergeReg p 15 off 0 v

/-- The writes of page LOG that do more than store a value. -/
def State.writeLog (s : State) (p : Path) (off : Nat) (v : Word) : State :=
  match off with
  | 0x08 => s.sealWrite p v
  | 0x0A => s.hostPost v
  | _ => s.mergeReg p 16 off 0 v

/-- The registers that no select addresses, with what their writes do beside storing a value. -/
def State.plainWrite (s : State) (p : Path) (page off : Nat) (v : Word) : State :=
  match page with
  | 0 => s.writeSys p off v
  | 1 => s.writeClk p off v
  | 2 => s.writePwr p off v
  | 3 => s.writeKeep p off v
  | 4 => s.writePwm p off v
  | 5 => s.writeCur p off v
  | 6 => s.writeLmp p off v
  | 7 => s.writeFde p off v
  | 8 => s.writeHlt p off v
  | 9 => s.writePhy p off v
  | 10 => s.writeMac p off v
  | 12 => s.writeTim p off v
  | 13 => s.writeGtu p off v
  | 14 => s.writeVlt p off v
  | 15 => s.writeSec p off v
  | 16 => s.writeLog p off v
  | _ => s.mergeReg p page off 0 v

/-- A register of index `i` of a page's block written. -/
def State.indexWrite (s : State) (p : Path) (page off i : Nat) (v : Word) : State :=
  match page, off with
  | 4, 0x20 =>
    let t := s.mergeReg p 4 0x20 i v
    if !t.holdActive then t else if t.flag (F.PWM_CTL_HOLDM.at i) then t.chanFreeze i else t.chanResume i
  | 4, 0x21 => s.shadowWrite i .per v
  | 4, 0x22 => s.shadowWrite i .cmpa v
  | 4, 0x23 => s.shadowWrite i .cmpb v
  | 4, 0x24 => s.shadowWrite i .fine v
  | 4, 0x28 => s.forceWrite i v
  | 4, 0x2B => (s.mergeReg p 4 0x2B i v).modChan i (fun c => { c with psc := 0 })
  | 4, 0x2E => if v.getLsbD 0 then s.clearFree (fun t oc ov pins => t.tripClr i oc ov pins) else s
  | 5, 0x21 => if s.unlocked p then (s.mergeReg p 5 0x21 i v).setReg (cell R.CUR_TRIMV i) 0 else s
  | 5, 0x32 => if v.getLsbD 0 then s.clearFree (fun t oc ov pins => t.lockClr i oc ov pins) else s
  | 6, 0x10 => if s.unlocked p then s.lmpCfgWrite i v else s
  | 6, 0x11 => if s.unlocked p then s.lmpMapWrite i v else s
  | 8, 0x48 => s.cctl i v
  | 13, 0x10 =>
    let t := s.mergeReg p 13 0x10 i v
    if v.getLsbD 3 then t else t.modGt i (fun c => { c with blk := false })
  | 13, 0x12 => (s.mergeReg p 13 0x12 i v).modGt i (fun c => { c with edges := 0 })
  | 14, 0x13 => if v.getLsbD 0 then s.hatWrite else s
  | _, _ => s.mergeReg p page off i v

/-- A pair written for one index (R30): the LO half, and the HI half where one was staged. -/
def State.pairWrite (s : State) (p : Path) (page off i : Nat) (lo : Word) (hi : Option Word) : State :=
  let t := s.mergeReg p page off i lo
  let t := match hi with
    | some h => t.mergeReg p page (off + 1) i h
    | none => t
  if page = 13 ∧ 0x16 ≤ off ∧ off ≤ 0x1C then
    let cur := if off = 0x16 then (s.gt i).cnt / 65536 else (s.reg (regKey 13 (off + 1) i)).toNat
    let v := lo.toNat + 65536 * (match hi with
      | some h => h.toNat
      | none => cur)
    t.gtValue i ((off - 0x16) / 2) v
  else t

/-- A write of register `off` of a page on a path (R24, R26 to R30). Writes to reserved pages have no effect here. -/
def State.writeReg (s : State) (p : Path) (page off : Nat) (v : Word) : State :=
  if off = 0 then s.modPath p (fun q => { q with page := v.toNat % 32 })
  else
    let s := if page = 0 ∧ off = 0x3C then s else s.modPath p (fun q => { q with armed := false })
    if (tablePort page).any (fun t => t.1 == off) then
      match tablePort page with
      | some (_, f, w) => s.tableWrite p page f w v
      | none => s
    else match regDef page off with
      | none => s
      | some r =>
        if pairHi page off then s.modPath p (fun q => { q with stage := some (s.pairTag page (off - 1), v) })
        else if pairLo page off then
          let hi := match (s.path p).stage with
            | some (t, h) => if t = s.pairTag page off then some h else none
            | none => none
          let s1 := if hi.isSome then s.modPath p (fun q => { q with stage := none }) else s
          (s1.indexes page r.count).foldl (fun t i => t.pairWrite p page off i v hi) s1
        else if r.count = 1 then s.plainWrite p page off v
        else if page = 14 then s.indexWrite p page off 0 v
        else (s.indexes page r.count).foldl (fun t i => t.indexWrite p page off i v) s

/-- Why a remote write is not applied, if it is not (R46, R300): DENIED before LOCKED. -/
def State.remoteMark (s : State) (page off : Nat) (v : Word) : Option Nat :=
  let ctl := page == 0 && off == 0x04 && (v.getLsbD 0 || v.getLsbD 2 != s.flag F.SYS_CTL_HOLD)
  if 0x11 ≤ page ∧ off ≠ 0 then some cDenied
  else if ctl ∨ (page = 0 ∧ 0x30 ≤ off ∧ off ≤ 0x34) ∨ (page = 15 ∧ off = 0x04 ∧ hostOnlySec (v.toNat % 8)) then some cDenied
  else match regDef page off with
    | some r => if off ≠ 0 ∧ accMask r.flds .lk ≠ 0 ∧ !s.unlocked .remote then some cLocked else none
    | none => none

/-! Commands. -/

/-- A write of the host port or of the remote path at an offset of its page: a host write to a reserved page stops
(R4), a remote one is not applied (R300) but abandons an unlock sequence (R32); none reaches a port that does not respond
(R22). -/
def hostWrite (p : Path) (off : BitVec 7) (v : Word) (s : State) : Host.Outcome State Fault Refusal :=
  let page := (s.path p).page
  if !s.pathUp p then done s
  else if 0x11 ≤ page ∧ off ≠ 0 then
    (if p = .host then .fault .reservedPageWrite else done (s.modPath p (fun q => { q with armed := false })))
  else done (s.writeReg p page off.toNat v)

/-- A read of a path at an offset of its page. -/
def State.pathRead (s : State) (p : Path) (off : BitVec 7) : State :=
  if s.pathUp p then s.readPath p (s.path p).page off.toNat else s

/-- REGISTER_WRITE (R2, R21, R24 to R27). -/
def execRegisterWrite (p : Path) (off : BitVec 7) (v : Word) (s : State) : Host.Outcome State Fault Refusal :=
  hostWrite p off v s

/-- PAIR_LO_READ (R29). -/
def execPairLoRead (p : Path) (off : BitVec 7) (s : State) : Host.Outcome State Fault Refusal := done (s.pathRead p off)

/-- PAIR_HI_READ (R29). -/
def execPairHiRead (p : Path) (off : BitVec 7) (s : State) : Host.Outcome State Fault Refusal := done (s.pathRead p off)

/-- PAIR_HI_WRITE (R30). -/
def execPairHiWrite (p : Path) (off : BitVec 7) (v : Word) (s : State) : Host.Outcome State Fault Refusal :=
  hostWrite p off v s

/-- PAIR_LO_WRITE (R30, R31). -/
def execPairLoWrite (p : Path) (off : BitVec 7) (v : Word) (s : State) : Host.Outcome State Fault Refusal :=
  hostWrite p off v s

/-- TABLE_DATA_READ (R28). -/
def execTableDataRead (p : Path) (off : BitVec 7) (s : State) : Host.Outcome State Fault Refusal := done (s.pathRead p off)

/-- TABLE_DATA_WRITE (R28). -/
def execTableDataWrite (p : Path) (off : BitVec 7) (v : Word) (s : State) : Host.Outcome State Fault Refusal :=
  hostWrite p off v s

/-- TABLE_ADDR_WRITE (R28). -/
def execTableAddrWrite (p : Path) (off : BitVec 7) (v : Word) (s : State) : Host.Outcome State Fault Refusal :=
  hostWrite p off v s

/-- UNLOCK_WRITE (R32). -/
def execUnlockWrite (p : Path) (v : Word) (s : State) : Host.Outcome State Fault Refusal :=
  done (if s.pathUp p then s.unlockWrite p v else s)

/-- UNLOCK_TIMEOUT (R32). -/
def execUnlockTimeout (p : Path) (s : State) : Host.Outcome State Fault Refusal :=
  done (s.modPath p (fun q => { q with opened := false }))

end Sys2Proof.Machine
end

