-- ==== Sys2Proof/Machine/Recover.lean ====
section
/-! DEFINITION. Vault recovery and configuration replay (R396 steps 5 and 6, R440, R443, R454, R535): what the node takes up
again from flash and keep RAM at a start, the bundle transfer state that survives one, and stalled engines (R406). -/

namespace Sys2Proof.Machine

/-! The newest record of a kind. -/

/-- The newest record entry of a TYPE in the buffer. -/
def bufLatest (b : List VEntry) (typ : Nat) : Option (List Byte) :=
  (((bufRecords b).filter (fun e => e.1 == typ)).getLast?).map Prod.snd

/-- The newest payload of a TYPE: what waits in the buffer is newer than what flash holds (R435, R440 step 9). -/
def VltState.latest (v : VltState) (typ : Nat) : Option (List Byte) :=
  match bufLatest v.buf typ with
  | some p => some p
  | none => (winner (if isKeyRec typ then v.keys else v.recs) typ).map NRec.payload

/-- The newest password of region `r` (R445), 0 where there is none. -/
def VltState.latestPw (v : VltState) (r : Nat) : BitVec 64 :=
  let ofRegion (p : List Byte) : Bool := (p.headD 0).toNat == r
  let b := (((bufRecords v.buf).filter (fun e => e.1 == recPwd && ofRegion e.2)).getLast?).map Prod.snd
  let w := match b with
    | some p => some p
    | none => (winnerOf v.recs (recPwd + 256 * (r + 1))).map NRec.payload
  match w with
  | some p => BitVec.ofNat 64 (ofBytes (p.drop 1))
  | none => 0

/-! The bundle transfer's record (R307, R435). -/

/-- The command engine, changed. -/
def State.modCmd (s : State) (f : CmdState → CmdState) : State := { s with cmd := f s.cmd }

/-- NB of a transfer of `len` bytes. -/
def blockCount (len : Nat) : Nat := (len + 191) / 192

/-- The transfer state and received-block map as a BXFER payload; nothing while IDLE. -/
def State.bxferBytes (s : State) : List Byte :=
  if s.fld F.CMD_STAT_BST = 0 then []
  else toBytes 1 (s.fld F.CMD_BHDL_HDL) ++ toBytes 4 (s.pair R.CMD_BLEN_LO) ++
    bytesOf 43 ((List.range 344).map (fun i => s.cmd.got.contains i))

/-- The transfer read from a BXFER payload. -/
def State.bxferLoad (s : State) (l : List Byte) : State :=
  match l with
  | [] => s
  | h :: rest =>
    let len := ofBytes (rest.take 4)
    let map := bitsOf (rest.drop 4)
    let got := (List.range (blockCount len)).filter (fun i => map.getD i false)
    let t := (s.setFld F.CMD_BHDL_HDL h.toNat).setPair R.CMD_BLEN_LO len
    let t := (t.setFld F.CMD_BRCV_N got.length).setFld F.CMD_BNBLK_N (blockCount len)
    (t.setFld F.CMD_STAT_BST (if got.length = blockCount len then 2 else 1)).modCmd (fun c => { c with got := got })

/-- Record entries of a TYPE after the first `n` record entries are dropped: a newer one takes their place. -/
def dropKind (typ : Nat) : Nat → List VEntry → List VEntry
  | _, [] => []
  | n + 1, .record t p :: l => .record t p :: dropKind typ n l
  | 0, .record t p :: l => if t = typ then dropKind typ 0 l else .record t p :: dropKind typ 0 l
  | n, e :: l => e :: dropKind typ n l

/-- The transfer's record is queued; it stands once in the buffer beside one that a running commit takes. -/
def State.bxferPut (s : State) : State :=
  let p := s.bxferBytes
  let t := s.modVlt (fun v => { v with buf := dropKind recBxfer (v.commit.getD 0) v.buf })
  if t.vRoom (10 + p.length) then t.vRecord recBxfer p else t

/-- The transfer is IDLE and its staging is released (R308). -/
def State.bxferIdle (s : State) : State :=
  let t := (s.setFld F.CMD_BHDL_HDL 0).setPair R.CMD_BLEN_LO 0
  let t := ((t.setFld F.CMD_BRCV_N 0).setFld F.CMD_BNBLK_N 0).setFld F.CMD_STAT_BST 0
  (t.modCmd (fun c => { c with got := [] })).bxferPut

/-! Recovery (R440). -/

/-- The extents that a JOURNAL lists: address, units, CRC-32 (R437). -/
def journalExtents (p : List Byte) : List (Nat × Nat × Nat) :=
  (List.range (numAt p 1 1)).map (fun i => (16 * numAt p (2 + 7 * i) 2, numAt p (4 + 7 * i) 1 + 1, numAt p (5 + 7 * i) 4))

/-- A record is valid (R435): its bytes stand in flash, its CRC among them, and a journal of its commit lists the extent
that holds it with a CRC that matches. One whose journal a compaction has erased counts (DESIGN CHOICE, log entry 21). -/
def VltState.valid (v : VltState) (r : NRec) : Bool :=
  v.ownBytes r.addr r.bytes.length == r.bytes &&
    match v.recs.find? (fun j => j.typ == recJournal && j.seq == r.seq) with
    | none => true
    | some j => r == j || (journalExtents j.payload).any (fun x =>
        decide (x.1 ≤ r.addr) && decide (r.addr < x.1 + 16 * x.2.1) && crc32 (v.ownBytes x.1 (16 * x.2.1)) == x.2.2)

/-- Step 1: the rings are scanned; only valid records and VOIDs count. -/
def VltState.scan (v : VltState) : VltState :=
  { v with recs := v.recs.filter v.valid, keys := v.keys.filter v.valid }

/-- Step 2: every extent that stands whole in flash is kept, every other record is programmed afresh past what was, and
the journal follows. -/
def VltState.resume (v : VltState) (es : List (Nat × List Byte)) (left : List VEntry) : VltState :=
  let all := (recPlan v es).ranges
  let k := recPlan v (es.take v.cutAt)
  let whole := (extents all).filter (extents k.ranges).contains
  let kept (r : Bool × Nat × Nat) : Bool :=
    whole.any (fun x => decide (x.1 ≤ unitAddr r.1 r.2.1) && decide (unitAddr r.1 r.2.1 < x.1 + 16 * x.2))
  let (old, new) := (es.zip all).partition (fun e => kept e.2)
  let rs : List NRec := old.map (fun e => ⟨e.1.1, v.vnum + 1, e.1.2, e.2.2.1⟩)
  let isKey (r : NRec) : Bool := isKeyRec r.typ
  let q := { v with
    recs := v.recs ++ rs.filter (fun r => !isKey r), keys := v.keys ++ rs.filter isKey, recHead := k.recH, keyHead := k.keyH }.place (new.map Prod.fst)
  q.1.journal (old.map Prod.snd ++ q.2) left.isEmpty

/-- Step 2: the commit begun before the reset is ended from keep RAM. -/
def State.recoverCommit (s : State) (n : Nat) : State :=
  let es := (bufRecords s.vlt.buf).take n
  let t := s.modVlt (fun v =>
    let b := dropRecords n v.buf
    { v.resume es b with buf := b, commit := none })
  ((t.setFld F.SYS_BOOT_VREC 1).post 7 1 t.vlt.cnum).slotsDone s.vlt (keySlots es)

/-- A VOID of the next commit number is written (R435, R440). -/
def VltState.voidNext (v : VltState) : VltState :=
  let u := placeAt v.recHead 1
  let r : NRec := ⟨recVoid, v.vnum + 1, toBytes 4 (v.vnum + 1), u⟩
  { v.program r with recs := v.recs ++ [r], recHead := u + 1, vnum := v.vnum + 1, begun := false, cutAt := 0 }

/-- Step 3: where a record of the commit begun stands in flash, it is voided. -/
def State.rollBack (s : State) : State :=
  let t := s.modVlt VltState.orphan
  if s.vlt.cutAt = 0 then t.modVlt (fun v => { v with begun := false, commit := none })
  else
    let u := t.modVlt VltState.voidNext
    ((u.setFld F.SYS_BOOT_VREC 2).vStick F.VLT_STAT_ROLLB).post 7 2 u.vlt.vnum

/-- Step 4 for one kind of bank (R443). -/
def State.settleBank (s : State) (cfg : Bool) : State :=
  let v := s.vlt
  let sel := (v.latest recBankSel).getD []
  let n := (sel.getD (if cfg then 0 else 1) 0).toNat % 2
  let banks := if cfg then v.cfgBank else v.tabBank
  let seen := if cfg then v.cfgSeen else v.tabSeen
  let bank := if cfg then F.SYS_BOOT_CFGBANK else F.SYS_BOOT_TABBANK
  let dflt := if cfg then F.SYS_BOOT_CFGDEF else F.SYS_BOOT_TABDEF
  if (banks.getD n none).isSome then (s.setFld bank n).setFlag dflt false
  else if (banks.getD (1 - n) none).isSome then (s.setFld bank (1 - n)).setFlag dflt false
  else
    let t := (s.setFld bank n).setFlag dflt true
    if seen then t.vIntegrity 2 else t

/-! Step 5: the hatch state as a cut left it (R454). -/

/-- The epoch of a hatch sector's header, where it is valid (R450). -/
def VltState.hatEpoch (v : VltState) (x : Nat) : Option Nat :=
  let b := v.ownBytes (hatSecAt x + 0xF80) 10
  let e := numAt b 2 4
  if b = hatHeader e then some e else none

/-- The cells of the active sector that read neither 0xFFFF nor 0x0000. -/
def VltState.hatTorn (v : VltState) : List Nat :=
  let a := hatSecAt v.hatSec
  (v.own.filter (fun e => decide (a ≤ e.1) && decide (e.1 < a + 0xF80) &&
    (e.2 != 0 || v.ownByte (if e.1 % 2 = 0 then e.1 + 1 else e.1 - 1) != 0))).map (fun e => e.1 / 2 * 2)

/-- The cases of R454 that the flash shows, by their number in table order; a new part and a region without a base set
apart. -/
def VltState.hatCases (v : VltState) : List Nat :=
  let other := !v.ownBlank (hatSecAt (1 - v.hatSec)) 4096
  let head := v.hatEpoch v.hatSec == some v.epoch
  let has (b : Bool) (n : Nat) : List Nat := if b then [n] else []
  has (other && (v.hatEpoch (1 - v.hatSec)).isNone) 1 ++ has (!v.ownBlank (baseSetAt v.basePos) 384) 2 ++ has (!head) 3 ++
    has (other && (v.hatEpoch (1 - v.hatSec)).isSome) 4 ++ has (head && !v.hatTorn.isEmpty) 5 ++
    has (decide (v.hatTag < v.epoch) && !v.hatHeld.isEmpty) 6

/-- Base places and torn cells are put right, with what was held (R454 cases 2 and 5). -/
def VltState.hatCells (v : VltState) (cases : List Nat) : VltState :=
  let w := if cases.contains 5 then v.hatTorn.foldl (fun u a => u.putOwn a [0, 0]) v.heldAll else v.heldAll
  if cases.contains 2 then
    { w with basePos := (((List.range basePlaces).map (fun i => (v.basePos + i) % basePlaces)).find?
      (fun p => v.ownBlank (baseSetAt p) 384)).getD v.basePos }
  else w

/-- What the cases found call for: torn cells are marked, a missing header is written where its sector is blank, erases are
put off, and the next base set goes to a blank place. -/
def VltState.hatMend (v : VltState) (cases : List Nat) : VltState :=
  let w := v.hatCells cases
  let stale := cases.contains 1 || cases.contains 4
  if cases.contains 3 then
    if v.ownBlank (hatSecAt v.hatSec) 4096 then { w.hatHead with hatMark := [], hatCut := if stale then 1 else 0 }
    else { w with hatMark := [], hatCut := 3 }
  else { w with hatCut := if stale then 1 else 0 }

/-- A new part: epoch 1, every base 0, and X active. -/
def VltState.hatNew (v : VltState) : VltState :=
  { v.putOwn (baseSetAt 0) (baseSet 1 0 []) with
    epoch := 1, hatBase := [], hatMark := [], hatSec := 0, basePos := 1, hatCut := 0 }.hatHead.heldAll

/-- The hatch state is repaired and what is held is programmed. A case after the base set of a fold may be the one that
brought the epoch to 180 000 (R455). -/
def State.hatRepair (s : State) : State :=
  if s.vlt.hatBad then ((s.vStick F.VLT_STAT_HATREC).vIntegrity 0).post 7 4 8
  else if s.vlt.ownBlank fltHat 0x8000 then s.modVlt (fun v => v.hatNew.hatFlush)
  else
    let l := s.vlt.hatCases
    let t := (l.foldl (fun u c => u.post 7 4 c) s).modVlt (fun v => v.hatMend l)
    let t := if l.any (· != 1) then t.vStick F.VLT_STAT_HATREC else t
    let t := if l.any (fun c => c == 1 || c == 3 || c == 4) ∧ 180000 ≤ t.vlt.epoch then t.vStick F.VLT_STAT_WEAR else t
    if t.vlt.hatCut = 3 then t else t.modVlt VltState.hatFlush

/-- Step 7: an SCR without its SCRDONE. Reads of its sector show the scratch image from now on, and its rewrite stands
first in the buffer. -/
def State.scrServe (s : State) : State :=
  match s.vlt.scr with
  | none => s
  | some e => s.modVlt (fun v =>
      let w := v.apply e
      if v.buf.find? VEntry.isOp = some e then w else { w with buf := e :: w.buf, clean := false })

/-- Step 8: a commit buffer that was lost is reported once (R424). -/
def State.retentionLost (s : State) (kept : Bool) : State :=
  if s.vlt.lostBuf ∨ (!kept ∧ !s.vlt.clean) then
    let t := (s.setFlag F.SYS_BOOT_RETLOST true).post 0xB 4 0
    let t := t.modVlt (fun v => { v.journal [] true with lostBuf := false })
    if (t.vlt.latest recBxfer).getD [] = [] then t else t.bxferPut
  else match s.vlt.latest recBxfer with
    | some p => s.bxferLoad p
    | none => s

/-- The replay floors of the FLOOR records (R474). -/
def VltState.floors (v : VltState) : List (Nat × Nat) :=
  (List.range 32).foldl (fun l i =>
    match v.latest (recFloor + i) with
    | some p => spSetAll zeroNat l (32 * i) ((List.range 32).map (fun j => ofBytes ((p.drop (4 * j)).take 4)))
    | none => l) []

/-- The window positions at a LIT entry (R473, R474): floor and delta, or beyond all that the address can have had. -/
def State.windowsLoad (s : State) (kept : Bool) : State :=
  let fl := s.vlt.floors
  if kept then
    s.modSec (fun q => { q with
      floor := fl, seen := [],
      h := (fl ++ q.delta).foldl (fun l e => spSet zeroNat l e.1 (spGet zeroNat fl e.1 + spGet zeroNat q.delta e.1)) [] })
  else
    s.modSec (fun q => { q with
      floor := fl, seen := [], delta := spSetAll zeroNat [] 1 (List.replicate 1022 65536),
      h := spSetAll zeroNat [] 1 ((List.range 1022).map (fun i => spGet zeroNat fl (i + 1) + 65536)) })

/-- The stress hours of the STRESS record (R207), from which the totals go on (R206). -/
def State.stressLoad (s : State) : State :=
  match s.vlt.latest recStress with
  | some p =>
    let ws := bytesWords p
    s.forChans (fun n t => t.stressTake n ((ws.getD (2 * n) 0).toNat * 65536 + (ws.getD (2 * n + 1) 0).toNat))
  | none => s

/-- PWR_TREC, PWR_TRPL: the time from the start in 0.1 ms, 1 at least (R397). -/
def State.sinceStart (s : State) : Word := BitVec.ofNat 16 (min 0xFFFF (max 1 ((s.cyc - s.pwr.litAt + 6143) / 6144)))

/-- VAULT_RECOVERY_END (R396 step 5, R440). -/
def State.recover (s : State) : State :=
  let kept (a : Nat) : Bool := !s.keep.bad.contains a
  let t := s.modVlt VltState.scan
  let t := if s.vlt.begun then
      (match s.vlt.commit with
       | some n => if kept 0 && kept 7 then t.recoverCommit n else t.rollBack
       | none => t.rollBack)
    else t
  let t := ((t.settleBank true).settleBank false).hatRepair.legJudge.scrServe
  let t := t.retentionLost (kept 0)
  let t := t.modVlt (fun v => { v with pw := [0, 1, 2].map v.latestPw })
  let t := (t.windowsLoad (kept 8)).stressLoad
  let t := t.modPwr (fun p => { p with boot := 5 })
  let t := if kept 7 then t else t.fcEpoch
  let t := if t.sec.life = 3 ∧ t.loadedSlots ≠ [] then t.wipeSlots else t
  let t := t.modSec (fun q => { q with tests := 1 })
  let t := t.recStart
  let t := t.setReg R.PWR_TREC t.sinceStart
  t.modKeep (fun k => { k with bad := k.bad.filter (fun a => !([0, 4, 6, 7, 8].contains a)) })

/-! Replay (R396 step 6, R535, R536). -/

/-- The words of a section, up to `n`; none where the bank does not hold it. -/
def sectionOf (l : List (Nat × List Word)) (k n : Nat) : List Word :=
  ((l.find? (fun e => e.1 == k)).map (fun e => e.2.take n)).getD []

/-- The tables of page FDE that a TAB body gives; the contours that are not tables stand. -/
def fdeTables (l : List (Nat × List Word)) : List (Nat × Word) :=
  [0, 2, 3, 4, 5, 6].foldl (fun acc ts =>
    let ws := sectionOf l (0x700 + ts) (fdeLen ts)
    if ts = 0 then spSetAll fdeDefault acc 771 (ws.drop 771) else spSetAll fdeDefault acc (fdeKey ts 0) ws) []

/-- The tables of pages LMP, FDE and HLT that a TAB body gives, defaults where it holds no section (R536). -/
def State.tablesLoad (s : State) (l : List (Nat × List Word)) : State :=
  let t := s.modLmp (fun m => { m with active := spSetAll lmpDefault [] 0 (sectionOf l 0x600 lmpWords) })
  let t := t.modFde (fun d => { d with active := fdeTables l })
  t.modHlt (fun h => { h with active := spSetAll hltDefault [] 0 (sectionOf l 0x800 hltWords) })

/-- The address directory of a TAB body (R471). -/
def dirTable (l : List (Nat × List Word)) : List (Nat × Word) := spSetAll dirDefault [] 0 (sectionOf l 0xF00 4096)

/-- One entry of a CFG body as replay writes it, on a path of its own with SYS_UNLOCK open (R535). The enables of the
channels and timers take their values and start nothing yet; resets and slot commands are no configuration. -/
def State.replayEntry1 (s : State) (e : Nat × Word) : State :=
  let page := e.1 / 128
  let off := e.1 % 128
  if (page = 0 ∧ off = 4 ∧ softKey e.2) ∨ (page = 15 ∧ off = 4 ∧ hostOnlySec (e.2.toNat % 8)) then s
  else if page = 4 ∧ off = 2 then s.setReg R.PWM_ENA e.2
  else if page = 13 ∧ off = 2 then s.setReg R.GTU_ENA (e.2 &&& 0xFF)
  else if page = 10 ∧ off = 7 then (s.setReg R.MAC_PARENT (e.2 &&& 0xF3FF)).relayTier
  else if page = 10 ∧ off = 6 then
    let a := e.2.toNat % 1024
    let t := s.setShort a
    if a = 0x3FF then t else t.setFld F.MAC_STAT_JST 2
  else (s.modPath .host (fun q => { q with opened := true })).writeReg .host page off e.2

/-- The select registers and table addresses that replay leaves as they were. -/
def keptSelects : List Nat := [4, 5, 6, 7, 8, 10, 13, 14, 15].map (fun p => (pageSel p).key) ++ [R.PHY_TSEL, R.PHY_TADDR]

/-- The configuration of a CFG body written. -/
def State.replayCfg (s : State) (l : List (Nat × Word)) : State :=
  let t := l.foldl State.replayEntry1 { s with host := { opened := true } }
  let t := keptSelects.foldl (fun u k => u.setReg k (s.reg k)) t
  ({ t with host := s.host }).modVlt (fun v => { v with past := s.vlt.past })

/-- The string models of the MODEL records. -/
def State.modelsLoad (s : State) : State :=
  (List.range 16).foldl (fun t n =>
    match t.vlt.latest (recModel + n) with
    | some p => t.modelTake n p
    | none => t) s

/-- The bands and the static mask in use follow their registers at once: the node has no bench timing yet (R220, R248). -/
def State.phyLoad (s : State) : State :=
  s.modPhy (fun p => { p with
    band := s.fld F.PHY_BAND_A + 2 * s.fld F.PHY_BAND_BCD + 4 * s.fld F.PHY_BAND_X, mask := p.maskNew })

/-- What the vault put off until replay has ended goes on (R440). -/
def State.vaultResume (s : State) : State :=
  let t := s.vKick.foldStart.compactDue
  let n := bufFill (t.vlt.buf.filter (fun e => !e.isOp))
  if 2048 ≤ n then t.commitStart else t

/-- REPLAY_END (R395, R396 step 6). -/
def State.replay (s : State) : State :=
  let kept := s.gtu
  let tab := ((s.activeBank false).map Bank.tab).getD []
  let cfg := ((s.activeBank true).map Bank.cfg).getD []
  let t := (s.tablesLoad tab).modSec (fun q => { q with dir := dirTable tab })
  let t := ((t.replayCfg cfg).phyLoad).modelsLoad
  let t := if t.short = 0x3FF then t.seqStart else t.dirSet t.short euiBytes
  let t := t.gtuReplay kept
  let t := t.modPwr (fun p => { p with boot := 6, softRst := false, leave := !s.flag F.SYS_MODE_STRAP || p.leave })
  let t := if s.flag F.SYS_MODE_STRAP then t else t.setFlag F.SYS_BOOT_STANDALONE true
  let t := t.setReg R.PWR_TRPL t.sinceStart
  (t.modKeep (fun k => { k with bad := k.bad.filter (· != 5) })).vaultResume

/-! Commands. -/

/-- VAULT_RECOVERY_END (R440). -/
def execVaultRecoveryEnd (s : State) : Host.Outcome State Fault Refusal :=
  done (if s.pwr.boot = 4 ∧ s.pwr.loss = 0 ∧ !s.pwr.rstLow then s.recover else s)

/-- REPLAY_END (R396). -/
def execReplayEnd (s : State) : Host.Outcome State Fault Refusal :=
  done (if s.pwr.boot = 5 ∧ s.pwr.loss = 0 ∧ !s.pwr.rstLow then s.replay else s)

/-! Stalled engines (R406). -/

/-- The page and the PWR_STALLEN bit of an engine. -/
def enginePage : Engine → Nat
  | .fde => 7
  | .lmp => 6
  | .cur => 5
  | .hlt => 8
  | .phy => 9
  | .mac => 10
  | .cmd => 11
  | .vlt => 14
  | .sec => 15
  | .log => 16

def engineBit : Engine → Nat
  | .fde => 0
  | .lmp => 1
  | .cur => 2
  | .hlt => 3
  | .phy => 4
  | .mac => 5
  | .cmd => 6
  | .vlt => 7
  | .sec => 8
  | .log => 9

/-- The fade engine restarts (R406): each lamp holds what it shows as a step of level 0, every other level is empty,
and schedule replay follows. -/
def FdeState.restart (d : FdeState) : FdeState :=
  { d with
    lamps := d.lamps.map (fun x =>
      { slots := [some { fade := { start := x.shown.held }, tgt := x.shown.held }, none, none, none, none, none, none, none], shown := x.shown }),
    reqs := [], rels := [], events := [], results := [], pltBuf := none, minute := none, replay := true }

/-- An engine's internal state returns to reset; registers and tables stand (R406). -/
def State.engineRestart (s : State) (e : Engine) : State :=
  match e with
  | .fde => s.modFde FdeState.restart
  | .lmp => s.modLmp (fun m => { m with smap := List.replicate 8 none, scfg := List.replicate 8 none })
  | .cur => s.modPwm (fun q =>
      { q with
        stip := List.replicate 9 0, synciN := 0, dimDue := List.replicate 9 none, dimNew := List.replicate 9 true,
        stallAt := s.cyc, dimRep := List.replicate 9 true })
  | .hlt => (s.proofAllOff).modHlt (fun h => { h with
      slot := 0, roundAt := s.cyc, waiting := [], lost := 0, due := 92, pos := 0, user := [],
      ntcRes := [none, none, none, none], dieRes := none, vauxRes := none, link := 0, pairs := 0 })
  | .phy => s.lineAbandon
  | .mac => (s.ackNone).modMac (fun m => { m with ackDue := none, build := [] })
  | .cmd => { s with cmd := { s.cmd with alarms := List.replicate 13 {}, minute := none } }
  | .vlt =>
    let t := s.vaultCut.modVlt (fun v => { v with usrBuf := [], legBuf := [] })
    if 5 ≤ s.pwr.boot then t.hatRepair.scrServe.vKick.foldStart else t
  | .sec => s.modSec (fun q => { q with cache := [], kdata := [] })
  | .log => s.modVlt (fun v => { v with dropped := 0 })

/-- ENGINE_STALL (R406, R408). -/
def execEngineStall (e : Engine) (s : State) : Host.Outcome State Fault Refusal :=
  done (if 4 ≤ s.pwr.boot ∧ !s.pwr.rstLow ∧ s.bit R.PWR_STALLEN (engineBit e) then
    let t := (s.setFlag F.SYS_RSTC_STALL true).setFld F.SYS_RSTC_STALLPG (enginePage e)
    (t.engineRestart e).post 2 8 (enginePage e)
  else s)

end Sys2Proof.Machine
end

