-- ==== Sys2Proof/Machine/Cmd.lean ====
section
/-! DEFINITION. The command engine (R287 to R300, R311, R312): how a line command is taken, checked and answered, and the
groups of lamp commands, configuration and tables, queries, and remote register access. -/

namespace Sys2Proof.Machine

/-! Responses and refusals (R290 to R292, R316, R317). -/

/-- A sticky CMD_STAT bit (R317). -/
def State.cmdStick (s : State) (f : Fld) : State := s.stick R.CMD_STAT R.CMD_IRQEN irqPhy f.mask

/-- The command engine takes commands: the core runs, and CMD_CTL.EN = 1. -/
def State.cmdOn (s : State) : Bool := s.pathUp .remote && s.flag F.CMD_CTL_EN

/-- Opcodes that never receive a response (R295, R301, R306). -/
def neverAnswered : List Nat := [0x08, 0x71, 0x75, 0x76, 0x77, 0x81]

/-- A REPORT frame toward the head (R290, R311). -/
def reportFrame (urg : Bool) (args : List Byte) : LineFrame :=
  { typ := 1, sec := true, ackreq := true, urg := urg, dir := true, args := args }

/-- A response is sent where R290 calls for one; `after` and `arg` are what its leaving Q2 starts, at once where it does
not wait there. The response to a looped command, and what the acting head reports, enter its own Q4 (R291, R311). -/
def State.respond (s : State) (r : Reply) (code : Nat) (data : List Byte) (after arg : Nat) : State :=
  let stub : Ent := { after := after, arg := arg }
  if !r.short ∨ neverAnswered.contains r.opc then s.leftQ2 stub
  else
    let args := [0xC0, r.tag, BitVec.ofNat 8 r.opc, BitVec.ofNat 8 code] ++ data
    let o := s.originate (reportFrame r.urg args) (s.hopDst true)
    if r.loop then (o.1.ringIn 4 { f := o.2 }).leftQ2 stub
    else if s.isHead then (if s.flag F.SYS_MODE_HOST then o.1.ringIn 4 { f := o.2 } else s).leftQ2 stub
    else if s.ringFull 2 then s.leftQ2 stub
    else o.1.ringAdd 2 { f := o.2, after := after, arg := arg }

/-- A command ends with its code (R292, R316): CMD_LAST, and for a refusal its count, sticky bit and event. -/
def State.cmdFinish (s : State) (r : Reply) (code : Nat) (data : List Byte) (after arg : Nat) : State :=
  let t := if s.fld F.CMD_LAST_OPC = r.opc then s.setFld F.CMD_LAST_CODE code else s
  let t := if 0x10 ≤ code then ((t.incReg R.CMD_REFCNT).cmdStick F.CMD_STAT_REFUSED).post 5 0x80 (r.opc * 256 + code) else t
  t.respond r code data after arg

/-- What a command's own rule makes of it: the state, its code (none: answered later), the response's DATA, and what
the response's leaving Q2 starts. -/
structure CmdOut where
  s     : State
  code  : Option Nat := some 0
  data  : List Byte := []
  after : Nat := 0
  arg   : Nat := 0

/-- Refused with a code, nothing applied. -/
def refuse (s : State) (code : Nat) : CmdOut := { s := s, code := some code }

/-- The payload has its layout's length (R290). -/
def sized (s : State) (a : List Byte) (n : Nat) (k : CmdOut) : CmdOut := if a.length = n then k else refuse s cBadLen

/-! Bursts on the remote path (R45, R297, R300). -/

/-- A register written on the remote path, its page written first (R300). -/
def State.remoteWrite (s : State) (page off : Nat) (v : Word) : State :=
  (s.modPath .remote (fun q => { q with page := page })).writeReg .remote page off v

/-- A burst with SYS_UNLOCK taken as open; the unlock state of the path is left as it was (R297). -/
def State.openBurst (s : State) (f : State → State) : State :=
  let t := f (s.modPath .remote (fun q => { q with opened := true }))
  t.modPath .remote (fun q => { q with opened := s.remote.opened, armed := s.remote.armed })

/-- A data word of TAB_WRITE through the data port of its page: LMP, FDE or HLT (R297). -/
def State.tabWord (s : State) (page : Nat) (w : Word) : State :=
  let t := s.modPath .remote (fun q => { q with page := page, armed := false })
  match page with
  | 6 =>
    let a := t.fld F.LMP_TADDR_ADDR
    if t.portPast 6 F.LMP_TADDR_ADDR then t else (t.portStep F.LMP_TADDR_ADDR 10 a).lmpPut a w
  | 7 =>
    let a := t.fld F.FDE_TADDR_ADDR
    if t.portPast 7 F.FDE_TADDR_ADDR then t else (t.portStep F.FDE_TADDR_ADDR 13 a).fdePut .remote a w
  | _ =>
    let a := t.fld F.HLT_TADDR_ADDR
    if t.portPast 8 F.HLT_TADDR_ADDR then t else (t.portStep F.HLT_TADDR_ADDR 5 a).hltPut a w

/-- The next 32 words of a TAB_WRITE as one burst; the command is answered after the last (R297). -/
def State.tabBurst (s : State) : State :=
  if s.cmd.rest = [] ∨ !s.pathUp .remote then s
  else
    let ws := s.cmd.rest
    let t := { s with cmd := { s.cmd with rest := ws.drop 32 } }
    let t := t.openBurst (fun u => (ws.take 32).foldl (fun v w => v.tabWord u.cmd.restPage w) u)
    match t.cmd.restTo with
    | some r => if ws.drop 32 = [] then { t with cmd := { t.cmd with restTo := none } }.cmdFinish r cOk [] 0 0 else t
    | none => t

/-- The command that the engine has taken is completed before the next (R289). -/
def State.tabFlush (s : State) : State := s.tabBurst.tabBurst.tabBurst

/-! Taking a command (R288, R289, R291). -/

/-- The opcodes of the command groups that a rule defines (R293, R296, R298, R299, R301, R306, R309, R310). -/
def definedOpc (o : Nat) : Bool :=
  [0x00, 0x01, 0x02, 0x03, 0x04, 0x05, 0x06, 0x08, 0x20, 0x21, 0x22, 0x23, 0x28, 0x29, 0x2A, 0x2B, 0x2C, 0x2D,
    0x40, 0x41, 0x42, 0x43, 0x44, 0x45, 0x46, 0x47, 0x48, 0x49, 0x60, 0x61, 0x62,
    0x71, 0x72, 0x73, 0x74, 0x75, 0x76, 0x77, 0x78, 0x79, 0x7A, 0x80, 0x81, 0x82, 0x83, 0x84, 0x90, 0x91, 0xAF].contains o

/-- The frame is for one node: its DMODE is short, and it is no broadcast (R273, R290). -/
def toOne (f : LineFrame) : Bool := f.dmode == 0 && f.dst != 0x3FF

/-- The reply that a ring entry's command would get. -/
def Ent.reply (e : Ent) : Reply :=
  { opc := (e.f.args.headD 0).toNat, tag := e.f.args.getD 1 0, urg := e.f.urg, short := toOne e.f, loop := e.loop }

/-- The frame that stands next in Q0, else in Q1 (R289): its ring and entry. -/
def State.nextCmd (s : State) : Option (Nat × Ent) :=
  match s.mac.q0, s.mac.q1 with
  | e :: _, _ => some (0, e)
  | [], e :: _ => some (1, e)
  | [], [] => none

/-- The next frame, where no rule defines its opcode, is refused: vendor test opcodes with UNSUP, others with BADOPC
(R288, R293), and a payload without an opcode with BADLEN (R290). -/
def State.refuseUndefined (s : State) : State :=
  match (if s.cmdOn then s.nextCmd else none) with
  | none => s
  | some (r, e) =>
    let o := (e.f.args.headD 0).toNat
    if definedOpc o && !e.f.args.isEmpty then s
    else
      let t := (s.setRing r ((s.ring r).drop 1)).incReg R.CMD_CNT
      ((t.setFld F.CMD_LAST_OPC o).setFld F.CMD_LAST_CODE 0).cmdFinish e.reply
        (if e.f.args.isEmpty then cBadLen else if 0xF0 ≤ o then cUnsup else cBadOpc) [] 0 0

/-- The same for the frames in front of one that is taken. -/
def State.refuseAhead : Nat → State → State
  | 0, s => s
  | n + 1, s => State.refuseAhead n s.refuseUndefined

/-- The entry holds the frame of a command with an opcode: what a row's frame carries stands behind the opcode byte. -/
def Ent.holds (e : Ent) (opc : Nat) (f : LineFrame) : Bool :=
  decide (e.f.args = BitVec.ofNat 8 opc :: f.args) && e.f.src == f.src && e.f.seq == f.seq && e.f.dst == f.dst

/-- The engine takes a command (R289): one that stands next in Q0 or Q1 leaves its ring, and behind empty rings it is one
just delivered; while another frame stands next it is not its turn. Whether it was looped (R291), and the SNR of its
frame. -/
def State.takeFrame (s : State) (opc : Nat) (f : LineFrame) : State × Option (Bool × Option (Nat × Nat)) :=
  let t := State.refuseAhead (s.mac.q0.length + s.mac.q1.length) s
  match t.nextCmd with
  | some (r, e) =>
    if e.holds opc f then (t.setRing r ((t.ring r).drop 1), some (e.loop, e.snr)) else (t, none)
  | none => (t, some (t.flag F.CMD_CTL_LOOP && decide (f.src.toNat = t.short), t.phy.snr))

/-- A line command with opcode `opc`: taken, checked by TYPE, key class and sender (R288), then by its own rule.
`cls`: the key classes accepted; `head`: only the acting head may send it; `plain`: it needs no protection. A frame
without the protection that its group asks for is dropped. -/
def State.lineCmd (s : State) (opc : Nat) (cls : List Nat) (head plain : Bool) (f : LineFrame)
    (body : State → Reply → List Byte → CmdOut) : State :=
  if !s.cmdOn then s
  else match s.tabFlush.takeFrame opc f with
  | (t, none) => t
  | (t, some (loop, snr)) =>
    if !f.sec ∧ !loop ∧ !plain then t
    else
      let r : Reply := { opc := opc, tag := f.args.headD 0, urg := f.urg, short := toOne f, loop := loop, snr := snr }
      let t := ((t.incReg R.CMD_CNT).setFld F.CMD_LAST_OPC opc).setFld F.CMD_LAST_CODE 0
      if f.typ ≠ 0 then t.cmdFinish r cBadOpc [] 0 0
      else if !loop ∧ f.sec ∧ !cls.contains (kidClass f.kid.toNat) then t.cmdFinish r cKey [] 0 0
      else if head ∧ !loop ∧ f.src.toNat ≠ t.fld F.MAC_HEAD_A then t.cmdFinish r cDenied [] 0 0
      else if f.args = [] then t.cmdFinish r cBadLen [] 0 0
      else
        let o := body t r (f.args.drop 1)
        if o.s.pwr.softRst ∧ !t.pwr.softRst then o.s
        else match o.code with
          | none => o.s
          | some c => o.s.cmdFinish r c o.data o.after o.arg

/-! Lamp commands and events (R293 to R295). -/

/-- The level of a lamp command (R294). -/
def Reply.level (r : Reply) : Nat := if r.urg then 5 else 3

/-- The start of a SET or PLATE command: 0 now, 1 at the SEC and MS that stand at place `i`, 2 on destination 0x22. -/
def startOf (kind : Nat) (a : List Byte) (i : Nat) : StartAt :=
  match kind with
  | 0 => .now
  | 1 => .instant (instantMs (numAt a i 4) (numAt a (i + 4) 2))
  | _ => .evr

/-- SET, SET_AT and SET_EVR (R293, R294). -/
def setLine (kind : Nat) (s : State) (r : Reply) (a : List Byte) : CmdOut :=
  sized s a (if kind = 1 then 19 else 13)
    (let w (i : Nat) : Nat := numAt a (1 + 2 * i) 2
     let mask := numAt a 0 1
     if mask = 0 ∨ (kind = 1 ∧ 999 < numAt a 17 2) ∨ w 4 % 512 ≠ 0 then refuse s cRange
     else
       let v (i : Nat) : Word := BitVec.ofNat 16 (w i)
       let q := valueReq (v 0) (v 1) (v 2) (w 3) (v 4) (w 5)
       { s := s.request { lvl := r.level, start := startOf kind a 13, reply := some r, lamps := (maskLamps mask).map (fun l => (l, q)) },
         code := none })

/-- PLATE, PLATE_AT and PLATE_EVR (R293, R294). -/
def plateLine (kind : Nat) (s : State) (r : Reply) (a : List Byte) : CmdOut :=
  sized s a (if kind = 1 then 12 else 6)
    (let mask := numAt a 0 1
     if mask = 0 ∨ (kind = 1 ∧ 999 < numAt a 10 2) then refuse s cRange
     else
       let fade := numAt a 4 2
       { s := s.request { lvl := r.level, start := startOf kind a 6, reply := some r,
                          plate := some { plate := numAt a 1 1, mask := mask, fade := if fade = 65535 then none else some fade,
                                          hold := numAt a 2 2 } },
         code := none })

/-- RELEASE (R294). -/
def releaseLine (s : State) (r : Reply) (a : List Byte) : CmdOut :=
  sized s a 3
    (if numAt a 0 1 = 0 then refuse s cRange
     else { s := s.releaseReq r.level (numAt a 0 1) (numAt a 1 2) none (some r), code := none })

/-- EVENT (R295): the rules test it on the next tick. -/
def eventLine (s : State) (_ : Reply) (a : List Byte) : CmdOut :=
  sized s a 10
    (let flg := numAt a 3 1
     let sec := numAt a 4 4
     let ms := numAt a 8 2
     if 2 ≤ flg ∨ 999 < ms ∨ (flg = 0 ∧ (sec ≠ 0 ∨ ms ≠ 0)) then refuse s cRange
     else
       { s := s.modFde (fun d => { d with
           events := d.events ++ [{ typ := numAt a 0 1, pos := numAt a 1 2,
                                    at_ := if flg = 1 then some (instantMs sec ms) else none,
                                    rx := s.tim.now, valid := s.timeValid }] }) })

/-- The answer to a lamp command, decided on a tick (R292): OK, OWNED with the lamps refused, PENDING or LATE. -/
def State.lampAnswer (s : State) (r : Reply) (code refm : Nat) : State :=
  match code with
  | 3 => s.cmdFinish r cOwned [BitVec.ofNat 8 refm] 0 0
  | 4 => s.cmdFinish r cPending [] 0 0
  | 7 => s.cmdFinish r cLate [] 0 0
  | _ => s.cmdFinish r cOk [] 0 0

/-! Configuration and tables (R296, R297). -/

/-- GRP_SET. -/
def grpSetLine (s : State) (_ : Reply) (a : List Byte) : CmdOut :=
  sized s a 8
    { s := s.openBurst (fun t => (List.range 4).foldl (fun u i =>
        u.remoteWrite 10 (0x14 + i) (BitVec.ofNat 16 (numAt a (6 - 2 * i) 2))) t) }

/-- GRP_ADD and GRP_DEL. -/
def grpBitLine (on : Bool) (s : State) (_ : Reply) (a : List Byte) : CmdOut :=
  sized s a 1
    (let g := numAt a 0 1
     if 64 ≤ g then refuse s cRange
     else
       let w := s.reg (R.MAC_GRP0 + 64 * (g / 16))
       { s := s.openBurst (fun t => t.remoteWrite 10 (0x14 + g / 16) (setBits w (g % 16) (g % 16) (if on then 1 else 0))) })

/-- POS_SET. -/
def posSetLine (s : State) (_ : Reply) (a : List Byte) : CmdOut :=
  sized s a 2 { s := s.openBurst (fun t => t.remoteWrite 10 0x08 (BitVec.ofNat 16 (numAt a 0 2))) }

/-- The pages whose tables line commands reach (R296). -/
def tabPage (p : Nat) : Bool := p == 6 || p == 7 || p == 8

/-- The offset of a page's TCTL. -/
def tctlOff (p : Nat) : Nat := if p = 8 then 0x16 else 0x0A

/-- The page's edit copy is open. -/
def State.editOpen (s : State) (p : Nat) : Bool :=
  if p = 6 then s.flag F.LMP_STAT_EDIT else if p = 7 then s.flag F.FDE_STAT_EDIT else s.flag F.HLT_STAT_EDIT

/-- The failure words of a page: TERR, and FDE_TERRA on page FDE (R297). -/
def State.failWords (s : State) (p : Nat) : List Byte :=
  if p = 6 then wordBytes (s.reg R.LMP_TERR)
  else if p = 7 then wordsBytes [s.reg R.FDE_TERR, s.reg R.FDE_TERRA]
  else wordBytes (s.reg R.HLT_TERR)

/-- The page's edit copy passes its CLOSE check. -/
def State.editPasses (s : State) (p : Nat) : Bool :=
  if p = 6 then (s.lmpFail s.lmp.edit).isNone
  else if p = 7 then (fdeFail s.fde.edit).isNone
  else ((List.range hltWords).findSome? (fun a => hltWordFail s.hlt.edit a)).isNone

/-- TAB_OPEN. -/
def tabOpenLine (s : State) (_ : Reply) (a : List Byte) : CmdOut :=
  sized s a 1
    (let p := numAt a 0 1
     if !tabPage p then refuse s cRange else { s := s.openBurst (fun t => t.remoteWrite p (tctlOff p) 1) })

/-- TAB_WRITE: the first 32 words in one burst; the rest follows in bursts of its own (R297). -/
def tabWriteLine (s : State) (r : Reply) (a : List Byte) : CmdOut :=
  let p := numAt a 0 1
  let ts := numAt a 1 1
  let n := numAt a 4 1
  if a.length < 5 ∨ a.length ≠ 5 + 2 * n then refuse s cBadLen
  else if !tabPage p ∨ n = 0 ∨ 96 < n ∨ (p ≠ 7 ∧ ts ≠ 0) ∨ 15 < ts then refuse s cRange
  else if !s.editOpen p then refuse s cState
  else
    let base := if p = 8 then 0x14 else 0x08
    let ws := bytesWords (a.drop 5)
    let t := s.openBurst (fun t =>
        let t := if p = 7 then t.remoteWrite 7 0x07 (BitVec.ofNat 16 ts) else t
        let t := t.remoteWrite p base (BitVec.ofNat 16 (numAt a 2 2))
        (ws.take 32).foldl (fun u w => u.tabWord p w) t)
    if n ≤ 32 then { s := t }
    else { s := { t with cmd := { t.cmd with rest := ws.drop 32, restPage := p, restTo := some r } }, code := none }

/-- TAB_CLOSE. -/
def tabCloseLine (s : State) (_ : Reply) (a : List Byte) : CmdOut :=
  sized s a 1
    (let p := numAt a 0 1
     if !tabPage p then refuse s cRange
     else if !s.editOpen p then refuse s cState
     else
       let t := s.openBurst (fun t => t.remoteWrite p (tctlOff p) 2)
       if s.editPasses p then { s := t } else { s := t, code := some cCheck, data := t.failWords p })

/-- TAB_SAVE; BUSY where the commit buffer has no room. -/
def tabSaveLine (s : State) (_ : Reply) (a : List Byte) : CmdOut :=
  sized s a 1
    (let p := numAt a 0 1
     if !tabPage p then refuse s cRange
     else if !s.vRoom 2 then refuse s cBusy
     else { s := s.openBurst (fun t => t.remoteWrite p (tctlOff p) 3) })

/-- PLATE_WR (R93, R297). -/
def plateWrLine (s : State) (_ : Reply) (a : List Byte) : CmdOut :=
  sized s a 65
    (let p := numAt a 0 1
     let ws := bytesWords (a.drop 1)
     if !s.vRoom 64 then refuse s cBusy
     else
       let t := s.openBurst (fun t =>
         let t := (t.remoteWrite 7 0x07 1).remoteWrite 7 0x08 (BitVec.ofNat 16 (32 * p))
         ws.foldl (fun u w => u.remoteWrite 7 0x09 w) t)
       if (plateFail ws).isNone then { s := t } else { s := t, code := some cCheck, data := t.failWords 7 })

/-- CFG_SAVE (R296, R442). -/
def cfgSaveLine (s : State) (_ : Reply) (a : List Byte) : CmdOut :=
  sized s a 0 (if s.vRoom 2 then { s := s.cfgSaveStart } else refuse s cBusy)

/-! Report bodies and queries (R298, R311, R312). -/

/-- The channels for which a condition holds, as a mask of 16 bits. -/
def chanMask (f : Nat → Bool) : Nat := (List.range 16).foldl (fun a n => if f n then a + 2 ^ n else a) 0

/-- The STATUS body. -/
def State.statusBody (s : State) : List Byte :=
  let b (x : Bool) (n : Nat) : Nat := if x then 2 ^ n else 0
  toBytes 1 (s.fld F.SYS_MODE_STATE + b (s.flag F.SYS_MODE_HOST) 2 + b (s.flag F.MAC_STAT_BVALID) 3) ++ [0] ++
    (List.range 8).flatMap (fun l => wordBytes (s.reg (R.LMP_BOUT + l)) ++ toBytes 1 (s.flamp l).win) ++
    wordBytes (s.reg R.PWM_TRIPSUM) ++ toBytes 2 (chanMask (fun n => s.fld (F.HLT_CCLS_LVL.at n) != 0)) ++
    toBytes 2 (chanMask (fun n => s.flag (F.CUR_CSTAT_OPENL.at n) || s.flag (F.CUR_CSTAT_LOCKL.at n))) ++
    wordBytes (s.reg R.SYS_BOOT) ++ toBytes 2 (min 0xFFFF (s.storeEnergy (s.reg R.KEEP_VSTORE).toNat / 10000)) ++
    wordBytes (s.reg R.MAC_BSINCE)

/-- The ENERGY body. -/
def State.energyBody (s : State) : List Byte :=
  ([0, 2, 36] ++ (List.range 16).map (· + 20) ++ [37, 38]).flatMap (fun n => toBytes 4 (s.hat n)) ++
    toBytes 4 (s.pair R.HLT_PLINK_LO)

/-- The HEALTH body of the channels in a mask. -/
def State.healthBody (s : State) (mask : Nat) : List Byte :=
  toBytes 2 mask ++ ((List.range 16).filter (fun n => mask.testBit n)).flatMap (fun n =>
    toBytes 1 (s.fld (F.HLT_CCLS_LVL.at n)) ++ toBytes 1 (s.fld (F.HLT_LEDCNT_N.at n)) ++
      wordBytes (s.reg (R.HLT_MFR + n)) ++ wordBytes (s.reg (R.HLT_V0 + n)) ++
      toBytes 1 (if s.flag (F.HLT_MDL_VALID.at n) then 128 else 0))

/-- The EVENTS body: `n` record slots from `from_` on (R496). -/
def State.eventsBody (s : State) (from_ n : Nat) : List Byte :=
  let slots := ((List.range n).foldl (fun (a : List Nat × Nat) _ => (a.1 ++ [a.2], nextSlot a.2)) ([], from_)).1
  toBytes 2 from_ ++ toBytes 1 n ++ slots.flatMap (fun k => wordsBytes (s.logSlot k))

/-- A report with its RSEQ and SECS (R311); at the acting head it enters its own Q4 where a host is present. -/
def State.makeReport (s : State) (opc : Nat) (urg : Bool) (body : List Byte) : State :=
  let secs := if s.timeValid then secOf s.tim.now else 0xFFFFFFFF
  let args := toBytes 1 opc ++ toBytes 1 (s.fld F.CMD_RSEQ_RSEQ) ++ toBytes 4 secs ++ body
  let t := s.setFld F.CMD_RSEQ_RSEQ (s.fld F.CMD_RSEQ_RSEQ + 1)
  let o := t.originate (reportFrame urg args) (t.hopDst true)
  if s.isHead then (if s.flag F.SYS_MODE_HOST then o.1.ringIn 4 { f := o.2 } else t) else o.1.toQ2 { f := o.2 }

/-- A query with `n` argument bytes whose answer is a body. -/
def query (n : Nat) (ok : List Byte → Bool) (f : State → List Byte → List Byte) (s : State) (_ : Reply) (a : List Byte) : CmdOut :=
  sized s a n (if ok a then { s := s, data := f s a } else refuse s cRange)

/-- Q_STATUS. -/
def qStatusLine : State → Reply → List Byte → CmdOut := query 0 (fun _ => true) (fun s _ => s.statusBody)

/-- Q_LAMP. -/
def qLampLine : State → Reply → List Byte → CmdOut := query 1 (fun a => decide (numAt a 0 1 < 8)) (fun s a =>
  let l := numAt a 0 1
  wordsBytes [s.reg (R.LMP_BOUT + l), s.reg (R.LMP_UOUT + l), s.reg (R.LMP_VOUT + l), s.fdeOwn l])

/-- Q_HEALTH. -/
def qHealthLine : State → Reply → List Byte → CmdOut := query 2 (fun _ => true) (fun s a => s.healthBody (numAt a 0 2))

/-- Q_ENERGY. -/
def qEnergyLine : State → Reply → List Byte → CmdOut := query 0 (fun _ => true) (fun s _ => s.energyBody)

/-- Q_HATCH. -/
def qHatchLine : State → Reply → List Byte → CmdOut :=
  query 2 (fun a => decide (1 ≤ numAt a 1 1) && decide (numAt a 1 1 ≤ 16) && decide (numAt a 0 1 + numAt a 1 1 ≤ 64))
    (fun s a => (List.range (numAt a 1 1)).flatMap (fun i => toBytes 4 (s.hat (numAt a 0 1 + i))))

/-- Q_EVENTS (R496). -/
def qEventsLine : State → Reply → List Byte → CmdOut :=
  query 3 (fun a => decide (numAt a 0 2 < 8192) && decide (1 ≤ numAt a 2 1) && decide (numAt a 2 1 ≤ 12))
    (fun s a => s.eventsBody (numAt a 0 2) (numAt a 2 1))

/-- Q_GAUGE. -/
def qGaugeLine : State → Reply → List Byte → CmdOut := query 0 (fun _ => true) (fun s _ =>
  toBytes 4 (s.storeEnergy (s.reg R.KEEP_VSTORE).toNat) ++ toBytes 4 (s.hat 38) ++ toBytes 4 (s.pair R.KEEP_EHARV_LO) ++
    wordBytes (s.reg R.KEEP_VSTORE) ++ wordBytes (s.reg R.KEEP_VCELL))

/-- Q_TIME. -/
def qTimeLine : State → Reply → List Byte → CmdOut := query 0 (fun _ => true) (fun s _ =>
  toBytes 4 (secOf s.tim.now) ++ toBytes 4 (fracOf s.tim.now) ++ wordBytes (s.word .remote 12 0x02 0))

/-- Q_VERSION. -/
def qVersionLine : State → Reply → List Byte → CmdOut := query 0 (fun _ => true) (fun s _ =>
  wordBytes (s.reg R.SYS_ID) ++ wordBytes (s.reg R.SYS_REV) ++ euiBytes ++ wordBytes (s.reg R.SYS_BOOT) ++ toBytes 4 (s.hat 3))

/-- Q_LINK. -/
def qLinkLine : State → Reply → List Byte → CmdOut := query 0 (fun _ => true) (fun s _ =>
  wordsBytes [s.word .remote 10 0x04 0, s.reg R.MAC_PARENT, s.reg R.MAC_BSINCE, s.reg R.PHY_PHS, s.reg R.MAC_RXERR, s.reg R.MAC_ACKFCNT] ++
    toBytes 1 s.mac.snr)

/-! Remote register access (R299, R300). -/

/-- A block of RD or WR is in range: page, count, mode, and the offsets that it passes. -/
def blockOk (a : List Byte) : Bool :=
  let ofs := numAt a 1 1
  let n := numAt a 2 1
  let mode := numAt a 3 1
  decide (numAt a 0 1 ≤ 0x1F) && decide (1 ≤ n) && decide (n ≤ 32) && decide (mode ≤ 1) &&
    decide ((if mode = 1 then ofs else ofs + (n - 1)) ≤ 0x7F)

/-- RD. -/
def rdLine (s : State) (_ : Reply) (a : List Byte) : CmdOut :=
  sized s a 4
    (if !blockOk a then refuse s cRange
     else
       let page := numAt a 0 1
       let (t, ws) := (List.range (numAt a 2 1)).foldl (fun (acc : State × List Word) i =>
         let off := if numAt a 3 1 = 1 then numAt a 1 1 else numAt a 1 1 + i
         let (u, w) := (acc.1.modPath .remote (fun q => { q with page := page })).readReg .remote page off
         (u.modPath .remote (fun q => { q with last := w }), acc.2 ++ [w])) (s, [])
       { s := t, data := wordsBytes ws })

/-- The words of a burst applied in order: what is not applied is marked with the code of R300; nothing follows a soft
reset. The result is the marks and the page of the first word applied. -/
def State.applyWords (s : State) (l : List (Nat × Nat × Word)) : State × List (Option Nat) × Option Nat :=
  l.foldl (fun (acc : State × List (Option Nat) × Option Nat) e =>
    let (t, marks, first) := acc
    if t.pwr.softRst ∧ !s.pwr.softRst then acc
    else
      let m := t.remoteMark e.1 e.2.1 e.2.2
      (t.remoteWrite e.1 e.2.1 e.2.2, marks ++ [m],
       match first, m with
       | none, none => some e.1
       | x, _ => x)) (s, [], none)

/-- The outcome of a burst of writes: event 0x081, IGN and the code of the lowest word not applied. -/
def writesOut (s : State) (x : State × List (Option Nat) × Option Nat) : CmdOut :=
  let (t, marks, first) := x
  let t := match first with
    | some p => if t.pwr.softRst && !s.pwr.softRst then t else t.post 5 0x81 p
    | none => t
  let ign := (List.range marks.length).foldl (fun a i => if (marks.getD i none).isSome then a + 2 ^ i else a) 0
  { s := t, code := some ((marks.findSome? id).getD cOk), data := toBytes 4 ign }

/-- WR. -/
def wrLine (s : State) (_ : Reply) (a : List Byte) : CmdOut :=
  let n := numAt a 2 1
  if a.length < 4 ∨ a.length ≠ 4 + 2 * n then refuse s cBadLen
  else if !blockOk a then refuse s cRange
  else
    writesOut s (s.applyWords ((List.range n).map (fun i =>
      (numAt a 0 1, (if numAt a 3 1 = 1 then numAt a 1 1 else numAt a 1 1 + i), BitVec.ofNat 16 (numAt a (4 + 2 * i) 2)))))

/-- WRL. -/
def wrlLine (s : State) (_ : Reply) (a : List Byte) : CmdOut :=
  let n := numAt a 0 1
  if a.length < 1 ∨ a.length ≠ 1 + 4 * n then refuse s cBadLen
  else
    let es := (List.range n).map (fun i => (numAt a (1 + 4 * i) 1, numAt a (2 + 4 * i) 1, BitVec.ofNat 16 (numAt a (3 + 4 * i) 2)))
    if n = 0 ∨ 32 < n ∨ es.any (fun e => decide (0x1F < e.1) || decide (0x7F < e.2.1)) then refuse s cRange
    else writesOut s (s.applyWords es)

/-! Commands. -/

/-- Group 0x00 to 0x1F: NET or GROUP, from any node. -/
def lampCmd (opc : Nat) (body : State → Reply → List Byte → CmdOut) (f : LineFrame) (s : State) : Host.Outcome State Fault Refusal :=
  done (s.lineCmd opc [clsNet, clsGroup] false false f body)

/-- Groups 0x20 to 0x3F and 0x60 to 0x6F: ADMIN, from the acting head. -/
def adminCmd (opc : Nat) (body : State → Reply → List Byte → CmdOut) (f : LineFrame) (s : State) : Host.Outcome State Fault Refusal :=
  done (s.lineCmd opc [clsAdmin] true false f body)

/-- Groups 0x40 to 0x5F, 0x80 to 0x9F and what R301 lists: NET, from the acting head. -/
def headCmd (opc : Nat) (body : State → Reply → List Byte → CmdOut) (f : LineFrame) (s : State) : Host.Outcome State Fault Refusal :=
  done (s.lineCmd opc [clsNet] true false f body)

/-- NET, from any node. -/
def netCmd (opc : Nat) (body : State → Reply → List Byte → CmdOut) (f : LineFrame) (s : State) : Host.Outcome State Fault Refusal :=
  done (s.lineCmd opc [clsNet] false false f body)

/-- SET (R294). -/
def execSetCmd (f : LineFrame) (s : State) : Host.Outcome State Fault Refusal := lampCmd 0x00 (setLine 0) f s

/-- SET_AT (R294). -/
def execSetAt (f : LineFrame) (s : State) : Host.Outcome State Fault Refusal := lampCmd 0x01 (setLine 1) f s

/-- SET_EVR (R294). -/
def execSetEvr (f : LineFrame) (s : State) : Host.Outcome State Fault Refusal := lampCmd 0x02 (setLine 2) f s

/-- PLATE (R294). -/
def execPlate (f : LineFrame) (s : State) : Host.Outcome State Fault Refusal := lampCmd 0x03 (plateLine 0) f s

/-- PLATE_AT (R294). -/
def execPlateAt (f : LineFrame) (s : State) : Host.Outcome State Fault Refusal := lampCmd 0x04 (plateLine 1) f s

/-- PLATE_EVR (R294). -/
def execPlateEvr (f : LineFrame) (s : State) : Host.Outcome State Fault Refusal := lampCmd 0x05 (plateLine 2) f s

/-- RELEASE (R294). -/
def execRelease (f : LineFrame) (s : State) : Host.Outcome State Fault Refusal := lampCmd 0x06 releaseLine f s

/-- EVENT (R295). -/
def execEvent (f : LineFrame) (s : State) : Host.Outcome State Fault Refusal := lampCmd 0x08 eventLine f s

/-- GRP_SET (R296). -/
def execGrpSet (f : LineFrame) (s : State) : Host.Outcome State Fault Refusal := adminCmd 0x20 grpSetLine f s

/-- GRP_ADD (R296). -/
def execGrpAdd (f : LineFrame) (s : State) : Host.Outcome State Fault Refusal := adminCmd 0x21 (grpBitLine true) f s

/-- GRP_DEL (R296). -/
def execGrpDel (f : LineFrame) (s : State) : Host.Outcome State Fault Refusal := adminCmd 0x22 (grpBitLine false) f s

/-- POS_SET (R296). -/
def execPosSet (f : LineFrame) (s : State) : Host.Outcome State Fault Refusal := adminCmd 0x23 posSetLine f s

/-- TAB_OPEN (R297). -/
def execTabOpen (f : LineFrame) (s : State) : Host.Outcome State Fault Refusal := adminCmd 0x28 tabOpenLine f s

/-- TAB_WRITE (R297). -/
def execTabWrite (f : LineFrame) (s : State) : Host.Outcome State Fault Refusal := adminCmd 0x29 tabWriteLine f s

/-- TAB_CLOSE (R297). -/
def execTabClose (f : LineFrame) (s : State) : Host.Outcome State Fault Refusal := adminCmd 0x2A tabCloseLine f s

/-- TAB_SAVE (R297). -/
def execTabSave (f : LineFrame) (s : State) : Host.Outcome State Fault Refusal := adminCmd 0x2B tabSaveLine f s

/-- PLATE_WR (R297). -/
def execPlateWr (f : LineFrame) (s : State) : Host.Outcome State Fault Refusal := adminCmd 0x2C plateWrLine f s

/-- CFG_SAVE (R296). -/
def execCfgSave (f : LineFrame) (s : State) : Host.Outcome State Fault Refusal := adminCmd 0x2D cfgSaveLine f s

/-- Q_STATUS (R298). -/
def execQStatus (f : LineFrame) (s : State) : Host.Outcome State Fault Refusal := headCmd 0x40 qStatusLine f s

/-- Q_LAMP (R298). -/
def execQLamp (f : LineFrame) (s : State) : Host.Outcome State Fault Refusal := headCmd 0x41 qLampLine f s

/-- Q_HEALTH (R298). -/
def execQHealth (f : LineFrame) (s : State) : Host.Outcome State Fault Refusal := headCmd 0x42 qHealthLine f s

/-- Q_ENERGY (R298). -/
def execQEnergy (f : LineFrame) (s : State) : Host.Outcome State Fault Refusal := headCmd 0x43 qEnergyLine f s

/-- Q_HATCH (R298). -/
def execQHatch (f : LineFrame) (s : State) : Host.Outcome State Fault Refusal := headCmd 0x44 qHatchLine f s

/-- Q_EVENTS (R496). -/
def execQEvents (f : LineFrame) (s : State) : Host.Outcome State Fault Refusal := headCmd 0x45 qEventsLine f s

/-- Q_GAUGE (R298). -/
def execQGauge (f : LineFrame) (s : State) : Host.Outcome State Fault Refusal := headCmd 0x46 qGaugeLine f s

/-- Q_TIME (R298). -/
def execQTime (f : LineFrame) (s : State) : Host.Outcome State Fault Refusal := headCmd 0x47 qTimeLine f s

/-- Q_VERSION (R298). -/
def execQVersion (f : LineFrame) (s : State) : Host.Outcome State Fault Refusal := headCmd 0x48 qVersionLine f s

/-- Q_LINK (R298). -/
def execQLink (f : LineFrame) (s : State) : Host.Outcome State Fault Refusal := headCmd 0x49 qLinkLine f s

/-- RD (R299). -/
def execRd (f : LineFrame) (s : State) : Host.Outcome State Fault Refusal := adminCmd 0x60 rdLine f s

/-- WR (R300). -/
def execWr (f : LineFrame) (s : State) : Host.Outcome State Fault Refusal := adminCmd 0x61 wrLine f s

/-- WRL (R300). -/
def execWrl (f : LineFrame) (s : State) : Host.Outcome State Fault Refusal := adminCmd 0x62 wrlLine f s

end Sys2Proof.Machine
end

