-- ==== Sys2Proof/Machine/Net.lean ====
section
/-! DEFINITION. Network management by line commands (R301 to R305, R337): joining, addresses, roles, reservations, and
tone-map exchange; and MB_STAT (R310). -/

namespace Sys2Proof.Machine

/-! Joining and addresses (R302, R303). -/

/-- JOIN_REQ (R302): at the acting head the request enters Q4 where a host is present, and is dropped otherwise. -/
def State.joinReq (s : State) (f : LineFrame) : State :=
  if !s.pathUp .remote ∨ !s.isHead ∨ f.typ ≠ 1 then s
  else
    let pay := 0x70 :: f.args
    let kid := if f.sec then some f.kid.toNat else none
    (s.learnJoin f pay (f.sec && kidClass f.kid.toNat == clsNet)).deliver f pay kid

/-- JOIN_RESP (R302): taken only by the node it names, while that is JOINING. -/
def joinRespLine (s : State) (_ : Reply) (a : List Byte) : CmdOut :=
  sized s a 13
    (if a.take 8 ≠ euiBytes ∨ s.fld F.MAC_STAT_JST ≠ 1 then { s := s }
     else if numAt a 8 1 = 0 then
       let t := if s.reg R.MAC_SEG = 0xFFFF then s.setReg R.MAC_SEG (BitVec.ofNat 16 (numAt a 11 2)) else s
       { s := (t.setShort (numAt a 9 2 % 1024)).joinState 2 }
     else if numAt a 8 1 = 1 then
       { s := (s.joinState 0).modMac (fun m => { m with barred := 256, cands := [], addrs := [] }) }
     else { s := s })

/-- ADDR_SET (R303): answered with the old address. -/
def addrSetLine (s : State) (_ : Reply) (a : List Byte) : CmdOut :=
  sized s a 2
    (let n := numAt a 0 2
     if n = 0 ∨ 1022 < n then refuse s cRange else { s := s, after := 1, arg := n })

/-- LEAVE (R303). -/
def leaveLine (s : State) (_ : Reply) (a : List Byte) : CmdOut := sized s a 0 { s := s, after := 2 }

/-- ROLE_SET (R301, R538). -/
def roleSetLine (s : State) (_ : Reply) (a : List Byte) : CmdOut :=
  sized s a 1 (if 3 < numAt a 0 1 then refuse s cRange else { s := s.roleWrite true (numAt a 0 1) })

/-- OFFSET_SET (R337): a node that is not the acting head takes it when TIM_CTL.OFSN = 1. -/
def offsetSetLine (s : State) (_ : Reply) (a : List Byte) : CmdOut :=
  sized s a 2
    { s := if s.flag F.TIM_CTL_OFSN ∧ !s.isHead then s.offsetTake (BitVec.ofNat 16 (numAt a 0 2)) else s }

/-! Reservations (R268, R304). -/

/-- The maximal runs of a map of courses, as start and length. -/
def courseRuns (m : Nat) : List (Nat × Nat) :=
  (List.range 56).foldl (fun l i =>
    if m.testBit i then
      match l.getLast? with
      | some (st, n) => if st + n = i + 4 then l.dropLast ++ [(st, n + 1)] else l ++ [(i + 4, 1)]
      | none => [(i + 4, 1)]
    else l) []

/-- The courses of grants, as a map. -/
def grantBits (l : List (Nat × Nat × Nat × Nat)) : Nat := l.foldl (fun m g => m ||| courseBits g.2.2.1 g.2.2.2) 0

/-- The reserved courses that no grant of this head holds: what it took over with the map (R304). -/
def State.inheritedBits (s : State) : Nat :=
  let own := grantBits s.mac.grants ||| courseBits 50 10
  (List.range 56).foldl (fun a i => if s.mac.mapNext.testBit i && !own.testBit i then a + 2 ^ i else a) 0

/-- A map of courses without those of another. -/
def courseSub (a b : Nat) : Nat := (List.range 56).foldl (fun m i => if a.testBit i && !b.testBit i then m + 2 ^ i else m) 0

/-- The grants and the inherited courses become the map of the next notice. -/
def State.setGrants (s : State) (l : List (Nat × Nat × Nat × Nat)) (inherited : Nat) : State :=
  s.modMac (fun m => { m with grants := l, mapNext := grantBits l ||| inherited ||| courseBits 50 10, mapVer := m.mapVer + 1 })

/-- A reservation in the node's MAC_RSV entry (R304): it waits for a notice that shows it. -/
def State.rsvPut (s : State) (i start len : Nat) : State :=
  let t := (s.setFld (F.MAC_RSV_START.at i) start).setFld (F.MAC_RSV_LEN.at i) (len - 1)
  (t.setFlag (F.MAC_RSV_VALID.at i) (len != 0)).modMac (fun m => { m with rsvOk := m.rsvOk.set i false })

/-- RSV_SET goes to the target; the head's own reservation it enters at once. -/
def State.rsvSend (s : State) (target i start len : Nat) : State :=
  if target = s.short ∨ target = 0 then s.rsvPut i start len
  else
    let args := [0x75, 0, BitVec.ofNat 8 i, BitVec.ofNat 8 start, BitVec.ofNat 8 len]
    let o := s.originate { typ := 0, sec := true, ackreq := true, dst := BitVec.ofNat 10 target, args := args } (s.hopDst false)
    o.1.toQ2 { f := o.2 }

/-- A grant is refused (R316). -/
def grantRefused (s : State) (target code : Nat) : CmdOut := { s := s.post 5 0x88 target, code := some code }

/-- RSV_GRANT (R304). -/
def rsvGrantLine (s : State) (_ : Reply) (a : List Byte) : CmdOut :=
  sized s a 5
    (let tg := numAt a 0 2
     let ix := numAt a 2 1
     let st := numAt a 3 1
     let ln := numAt a 4 1
     if !s.isHead then refuse s cState
     else if 1023 ≤ tg ∨ 3 < ix ∨ 16 < ln then grantRefused s tg cRange
     else
       let others := s.mac.grants.filter (fun g => !(g.1 == tg && g.2.1 == ix))
       let inh := s.inheritedBits
       if ln = 0 then
         let held := s.mac.grants.length ≠ others.length
         let run := (courseRuns inh).find? (fun r => decide (r.1 ≤ st) && decide (st < r.1 + r.2))
         let inh := match run with
           | some r => if held then inh else courseSub inh (courseBits r.1 r.2)
           | none => inh
         let t := s.setGrants others inh
         { s := match s.mac.grants.find? (fun g => g.1 == tg && g.2.1 == ix) with
             | some g => t.rsvSend tg ix g.2.2.1 0
             | none => t }
       else if st < 4 ∨ 60 < st + ln then grantRefused s tg cRange
       else
         let new := courseBits st ln
         let inh := if (courseRuns inh).contains (st, ln) then courseSub inh new else inh
         if (grantBits others ||| inh ||| courseBits 50 10) &&& new ≠ 0 ∨ 28 < others.length + (courseRuns inh).length + 2 then
           grantRefused s tg cNoSpace
         else { s := (s.setGrants (others ++ [(tg, ix, st, ln)]) inh).rsvSend tg ix st ln })

/-- RSV_SET (R304). -/
def rsvSetLine (s : State) (_ : Reply) (a : List Byte) : CmdOut :=
  sized s a 3
    (let i := numAt a 0 1
     let st := numAt a 1 1
     let ln := numAt a 2 1
     if 3 < i ∨ 16 < ln ∨ (ln ≠ 0 ∧ (st < 4 ∨ 60 < st + ln)) then refuse s cRange else { s := s.rsvPut i st ln })

/-! Tone maps (R305). -/

/-- The frame reached this node alone, in one hop (R301). -/
def State.oneHop (s : State) (f : LineFrame) : Bool :=
  f.hops == 0 && f.dmode == 0 && decide (f.hopdst.toNat = s.short)

/-- TM_REQ (R305): a receive map is built, and TM_RESP goes back with it or without. -/
def tmReqLine (f : LineFrame) (s : State) (r : Reply) (a : List Byte) : CmdOut :=
  if !s.oneHop f then { s := s }
  else sized s a 33
    (if 7 < numAt a 0 1 ∨ (a.drop 1).any (· != 0) then refuse s cRange
     else
       let who := f.src.toNat
       let (t, m) := ({ s with phy := { s.phy with snr := r.snr } }).buildMap who (bandsOf (numAt a 0 1))
       let body := match m with
         | some ws => 1 :: wordsBytes ws
         | none => [0]
       let o := t.originate { typ := 0, sec := true, ackreq := true, dst := f.src,
                              dir := decide (who = t.fld F.MAC_PARENT_PARENT), args := [0x77, r.tag] ++ body } who
       { s := o.1.toQ2 { f := o.2 } })

/-- TM_RESP (R305), from the neighbour asked alone (R288, R301). -/
def tmRespLine (f : LineFrame) (s : State) (_ : Reply) (a : List Byte) : CmdOut :=
  if !s.oneHop f then { s := s }
  else if !s.mac.asked.contains f.src.toNat then refuse s cDenied
  else
    let s := s.modMac (fun m => { m with asked := m.asked.filter (· != f.src.toNat) })
    let flg := numAt a 0 1
    if a.length ≠ (if flg = 1 then 81 else 1) then refuse s cBadLen
    else if 1 < flg then refuse s cRange
    else if flg = 1 then { s := s.txMapStore f.src.toNat (bytesWords (a.drop 1)) }
    else { s := s }

/-- TM_ASK (R305). -/
def tmAskLine (s : State) (_ : Reply) (a : List Byte) : CmdOut :=
  sized s a 2
    (let n := numAt a 0 2
     if n = 0 ∨ 1022 < n then refuse s cRange else { s := s.tmRequest n s.phy.band })

/-- MB_STAT (R310). -/
def mbStatLine : State → Reply → List Byte → CmdOut := query 0 (fun _ => true) (fun s _ =>
  toBytes 1 (s.fld F.SYS_MODE_HOST) ++ toBytes 1 (s.ringFill 4) ++ toBytes 1 (s.ringFill 5))

/-! Commands. -/

/-- JOIN_REQ (R302). -/
def execJoinReq (f : LineFrame) (s : State) : Host.Outcome State Fault Refusal := done (s.joinReq f)

/-- JOIN_RESP (R302): from the head's host (R301), without protection only while JST is JOINING. -/
def execJoinResp (f : LineFrame) (s : State) : Host.Outcome State Fault Refusal :=
  done (s.lineCmd 0x71 [clsNet] true (s.fld F.MAC_STAT_JST == 1) f joinRespLine)

/-- ADDR_SET (R303). -/
def execAddrSet (f : LineFrame) (s : State) : Host.Outcome State Fault Refusal := headCmd 0x72 addrSetLine f s

/-- ROLE_SET (R301). -/
def execRoleSet (f : LineFrame) (s : State) : Host.Outcome State Fault Refusal := headCmd 0x73 roleSetLine f s

/-- RSV_GRANT (R304). -/
def execRsvGrant (f : LineFrame) (s : State) : Host.Outcome State Fault Refusal := headCmd 0x74 rsvGrantLine f s

/-- RSV_SET (R304). -/
def execRsvSet (f : LineFrame) (s : State) : Host.Outcome State Fault Refusal := headCmd 0x75 rsvSetLine f s

/-- TM_REQ (R305). -/
def execTmReq (f : LineFrame) (s : State) : Host.Outcome State Fault Refusal := netCmd 0x76 (tmReqLine f) f s

/-- TM_RESP (R305). -/
def execTmResp (f : LineFrame) (s : State) : Host.Outcome State Fault Refusal := netCmd 0x77 (tmRespLine f) f s

/-- OFFSET_SET (R337). -/
def execOffsetSet (f : LineFrame) (s : State) : Host.Outcome State Fault Refusal := headCmd 0x78 offsetSetLine f s

/-- LEAVE (R303). -/
def execLeave (f : LineFrame) (s : State) : Host.Outcome State Fault Refusal := headCmd 0x79 leaveLine f s

/-- TM_ASK (R305). -/
def execTmAsk (f : LineFrame) (s : State) : Host.Outcome State Fault Refusal := headCmd 0x7A tmAskLine f s

/-- MB_STAT (R310). -/
def execMbStat (f : LineFrame) (s : State) : Host.Outcome State Fault Refusal := netCmd 0xAF mbStatLine f s

end Sys2Proof.Machine
end

