-- ==== Sys2Proof/Machine/Bundle.lean ====
section
/-! DEFINITION. Bundles and proofs by line command (R306 to R309, R475 to R480), reports and alarms (R311 to R315), and the
start of a bench. -/

namespace Sys2Proof.Machine

/-! Bundle transfer (R306 to R308). -/

/-- A transfer with this handle is open. -/
def State.bxferIs (s : State) (h : Nat) : Bool := s.fld F.CMD_STAT_BST != 0 && decide (s.fld F.CMD_BHDL_HDL = h)

/-- B_BEGIN: the staging is erased for a new transfer. -/
def bBeginLine (s : State) (_ : Reply) (a : List Byte) : CmdOut :=
  sized s a 5
    (let h := numAt a 0 1
     let len := numAt a 1 4
     if len = 0 ∨ 65536 < len then refuse s cRange
     else if s.bxferIs h then (if s.pair R.CMD_BLEN_LO = len then { s := s } else refuse s cRange)
     else if s.fld F.CMD_STAT_BST ≠ 0 then refuse s cBusy
     else if !s.vRoom 58 then refuse s cNoSpace
     else
       let t := s.modVlt (fun v => v.erase fltStg 65536)
       let t := (t.setFld F.CMD_BHDL_HDL h).setPair R.CMD_BLEN_LO len
       let t := ((t.setFld F.CMD_BRCV_N 0).setFld F.CMD_BNBLK_N (blockCount len)).setFld F.CMD_STAT_BST 1
       { s := ((t.modCmd (fun c => { c with got := [] })).bxferPut).post 5 0x82 h })

/-- B_BLOCK: stored, or discarded (R307). -/
def bBlockLine (s : State) (_ : Reply) (a : List Byte) : CmdOut :=
  let i := numAt a 1 2
  let len := s.pair R.CMD_BLEN_LO
  let nb := blockCount len
  let want := if i + 1 = nb then len - 192 * i else 192
  if a.length < 3 ∨ !s.bxferIs (numAt a 0 1) ∨ s.fld F.CMD_STAT_BST ≠ 1 ∨ nb ≤ i ∨ a.length ≠ 3 + want ∨ s.cmd.got.contains i then { s := s }
  else
    let at_ := fltStg + 192 * i
    let t := s.modVlt (fun v => { v.putBytes at_ (a.drop 3) with last := (List.range want).map (at_ + ·) })
    let t := t.modCmd (fun c => { c with got := c.got ++ [i] })
    let t := t.setFld F.CMD_BRCV_N t.cmd.got.length
    let t := if t.cmd.got.length = nb then t.setFld F.CMD_STAT_BST 2 else t
    { s := t.bxferPut }

/-- B_REPAIR: the blocks received, and a bitmap of those missing. -/
def bRepairLine (s : State) (_ : Reply) (a : List Byte) : CmdOut :=
  sized s a 1
    (if !s.bxferIs (numAt a 0 1) then refuse s cState
     else
       let nb := s.fld F.CMD_BNBLK_N
       let n := (nb + 7) / 8
       let miss := (List.range (8 * n)).map (fun i => decide (i < nb) && !s.cmd.got.contains i)
       { s := s, data := toBytes 2 (s.fld F.CMD_BRCV_N) ++ bytesOf n miss })

/-- B_ABORT: the open transfer is released at once, also while it is verified; with no transfer under the handle nothing
is released. -/
def bAbortLine (s : State) (_ : Reply) (a : List Byte) : CmdOut :=
  sized s a 1 { s := if s.bxferIs (numAt a 0 1) then s.bxferIdle else s }

/-! Bundle verification (R475 to R478). -/

/-- The header fields of a staged bundle. -/
structure BundleHdr where
  typ     : Nat
  sysid   : Nat
  revmin  : Nat
  revmax  : Nat
  version : Nat
  length  : Nat
  target  : List Byte
  sigkid  : Nat
  apply   : Bool
  digest  : List Byte

/-- The header, where its form is right (R476 step 2). `b`: the whole bundle. -/
def bundleHdr (b : List Byte) : Option BundleHdr :=
  let h : BundleHdr :=
    { typ := numAt b 3 1, sysid := numAt b 4 2, revmin := numAt b 6 2, revmax := numAt b 8 2, version := numAt b 10 4,
      length := numAt b 14 4, target := (b.drop 18).take 8, sigkid := numAt b 26 1, apply := numAt b 27 1 == 1,
      digest := (b.drop 32).take 32 }
  if 128 ≤ b.length ∧ numAt b 0 2 = 0x4B59 ∧ numAt b 2 1 = 1 ∧ 1 ≤ h.typ ∧ h.typ ≤ 3 ∧ numAt b 27 1 ≤ 1 ∧ numAt b 28 4 = 0 ∧
      h.length + 128 = b.length ∧ (h.typ ≠ 1 ∨ h.length ≤ 16256) ∧ (h.typ ≠ 2 ∨ h.length ≤ 49024) then some h
  else none

/-- The key of the slot that holds `kid`, where its class is `cls`. -/
def State.kidKey (s : State) (kid cls : Nat) : State × Option (List Byte) :=
  if kidClass kid ≠ cls then (s, none)
  else match s.slotOf kid with
    | none => (s, none)
    | some n => s.slotKey n

/-- A section of a TAB body names a table that the bank holds, within its length (R477). -/
def sectionOk (e : Nat × List Word) : Bool :=
  let n := e.2.length
  match e.1 / 256, e.1 % 256 with
  | 6, 0 => decide (n ≤ lmpWords)
  | 7, ts => ts != 1 && decide (ts ≤ 6) && decide (n ≤ fdeLen ts)
  | 8, 0 => decide (n ≤ hltWords)
  | 15, 0 => n == 4096
  | _, _ => false

/-- The failure of a TAB body (R477): the TERR word of the page that fails, or nothing where a section is out of place. -/
def State.tabFail (s : State) (l : List (Nat × List Word)) : Option (List Byte) :=
  if !l.all sectionOk then some []
  else match s.lmpFail (spSetAll lmpDefault [] 0 (sectionOf l 0x600 lmpWords)) with
    | some (c, a) => some (toBytes 2 (c * 4096 + a))
    | none => match fdeFail (fdeTables l) with
      | some (c, ts, _) => some (toBytes 2 (c * 4096 + ts))
      | none =>
        let h := spSetAll hltDefault [] 0 (sectionOf l 0x800 hltWords)
        ((List.range hltWords).findSome? (fun a => (hltWordFail h a).map (fun c => (c, a)))).map (fun x => toBytes 2 (x.1 * 4096 + x.2))

/-- The slots of a KEYS body after each entry (R478): per slot its KID, and the records that the body commits. None
where an entry is refused. -/
def State.keysParse : Nat → State → List Byte → List (Option Nat) → Option (State × List (Option Nat) × List (Nat × List Byte))
  | 0, _, _, _ => none
  | _, _, [], _ => none
  | n + 1, s, sl :: rest, kids =>
    if sl = 0xFF then some (s, kids, [])
    else match rest with
      | op :: kid :: wkid :: body =>
        if 7 < sl.toNat ∨ 1 < op.toNat then none
        else match s.kidKey wkid.toNat clsBundle with
          | (_, none) => none
          | (t, some bk) =>
            if op = 1 then
              (State.keysParse n t body (kids.set sl.toNat none)).map (fun x => (x.1, x.2.1, (recKeyBlob + sl.toNat, []) :: x.2.2))
            else
              let m := keyLen (kidClass kid.toNat) + 8
              if 5 < kidClass kid.toNat ∨ body.length < m then none
              else match kwUnwrap bk (body.take m) with
                | none => none
                | some key =>
                  (State.keysParse n t (body.drop m) (kids.set sl.toNat (some kid.toNat))).map (fun x =>
                    (x.1, x.2.1, (recKeyBlob + sl.toNat, blobPayload kid.toNat key) :: x.2.2))
      | _ => none

/-- The KIDs of the slots. -/
def State.slotKids (s : State) : List (Option Nat) := (List.range 8).map (fun n => (s.vlt.blob n).map Prod.fst)

/-- What a KEYS body leaves holds no KID twice, and an OPERATOR-VERIFY key (R478). -/
def kidsOk (kids : List (Option Nat)) : Bool :=
  let l := kids.filterMap id
  decide (l.eraseDups.length = l.length) && l.any (fun k => kidClass k == clsVerify)

/-- Steps 1 to 7 of R476: the state, the header and what is to be applied, or the code and DATA of the step that fails. -/
inductive BundleBody where
  | cfg (l : List (Nat × Word))
  | tab (l : List (Nat × List Word))
  | keys (l : List (Nat × List Byte))

def State.bundleCheck (s : State) (b : List Byte) : State × (Nat × List Byte ⊕ BundleHdr × BundleBody) :=
  if (s.sec.life ≠ 1 ∧ s.sec.life ≠ 2) ∨ s.sec.failed ∨ !s.flag F.SEC_STAT_STOK then (s, .inl (cState, []))
  else match bundleHdr b with
    | none => (s, .inl (cBVerify, []))
    | some h =>
      let rev := (s.reg R.SYS_REV).toNat
      if h.sysid ≠ 0x1664 ∨ rev < h.revmin ∨ h.revmax < rev ∨ (h.target ≠ List.replicate 8 0xFF ∧ h.target ≠ euiBytes) then
        (s, .inl (cBTarget, []))
      else
        let body := (b.drop 64).take h.length
        match s.kidKey h.sigkid clsVerify with
        | (t, none) => (t, .inl (cBVerify, []))
        | (t, some pub) =>
          if sha256 body ≠ h.digest ∨ !ecdsaVerify pub (sha256 (b.take 64)) (b.drop (64 + h.length)) then (t, .inl (cBVerify, []))
          else if h.version < t.hat 3 then (t, .inl (cBRoll, []))
          else if 256 < h.version - t.hat 3 then (t, .inl (cRange, []))
          else if h.typ = 1 then
            match cfgParse (h.length + 1) body with
            | some l => (t, .inr (h, .cfg l))
            | none => (t, .inl (cCheck, []))
          else if h.typ = 2 then
            match tabParse (h.length + 1) body with
            | none => (t, .inl (cCheck, []))
            | some l => match t.tabFail l with
              | some d => (t, .inl (cCheck, d))
              | none => (t, .inr (h, .tab l))
          else match State.keysParse (h.length + 1) t body t.slotKids with
            | some (u, kids, recs) => if kidsOk kids then (u, .inr (h, .keys recs)) else (u, .inl (cCheck, []))
            | none => (t, .inl (cCheck, []))

/-- The bytes of the staged bundle. -/
def State.staged (s : State) : List Byte := s.vlt.bytes fltStg (s.pair R.CMD_BLEN_LO)

/-- B_COMMIT (R289, R308): the security engine takes it. Refused with BUSY or STATE it returns an open transfer to IDLE, as
every result but BMISSING does; one that is being verified goes on. What it comes to is known to the vault, which abandons a
bank build at mains loss (R442). -/
def bCommitLine (s : State) (r : Reply) (a : List Byte) : CmdOut :=
  sized s a 1
    (let no (c : Nat) (t : State) : CmdOut := { s := t.setFld F.CMD_BCODE_CODE c, code := some c }
     let idle := if s.fld F.CMD_STAT_BST = 0 ∨ s.fld F.CMD_STAT_BST = 3 then s else s.bxferIdle
     if s.signBusy then no cBusy idle
     else if !s.bxferIs (numAt a 0 1) then no cState idle
     else if s.fld F.CMD_STAT_BST ≠ 2 then no cBMissing s
     else
       let building := match (s.bundleCheck s.staged).2 with
         | .inl _ => none
         | .inr (_, .keys _) => none
         | .inr (h, _) => some (h.typ == 1, h.version - s.hat 3)
       { s := (s.setFld F.CMD_STAT_BST 3).modSec (fun q => { q with commit := some { reply := some r }, building := building }), code := none })

/-- What a verified bundle enters into the commit buffer: the last record of each slot, or one bank entry. -/
def BundleBody.records : BundleBody → List (Nat × List Byte)
  | .keys l => (List.range 8).filterMap (fun n => (l.filter (fun e => e.1 == recKeyBlob + n)).getLast?)
  | _ => []

def BundleBody.size : BundleBody → Nat
  | .keys l => (((BundleBody.keys l).records).map (fun e => 10 + e.2.length)).sum
  | _ => 2

/-- The vault can take a verified bundle up now: room in the buffer, no commit and no operation before it. -/
def State.bundleReady (s : State) (b : BundleBody) : Bool :=
  s.vRoom b.size && s.vlt.wait.isEmpty && s.vlt.commit.isNone && s.vlt.op.isNone && !s.vlt.buf.any VEntry.isOp

/-- A bank of a bundle is built and swapped in (R442, R476 step 9). -/
def State.bundleBank (s : State) (cfg : Bool) (b : Bank) (body : List Byte) : State :=
  let t := (s.vEnter (.bank cfg 0 b)).modVlt (fun v => { v with op := some (.bank cfg 0 b) })
  (t.bankInstall cfg b body).opEnd.vDone

/-- Keys of a bundle are committed with what the buffer then holds, in one commit (R478); a command that waits for its
slot's commit completes. -/
def State.bundleKeys (s : State) (l : List (Nat × List Byte)) : State :=
  let own := keySlots (bufRecords s.vlt.buf)
  let t := l.foldl (fun u e => u.vRecord e.1 e.2) s
  let es := bufRecords t.vlt.buf
  let u := (t.commitEnd es.length).slotsDone t.vlt (keySlots es)
  if u.sec.cmdRun ∧ own ≠ [] then u.secDone cOk else u

/-- Steps 8 and 9 (R476): the floor is raised, then the bundle is applied. `body`: its bytes. -/
def State.bundleApply (s : State) (h : BundleHdr) (b : BundleBody) (body : List Byte) : State :=
  let k := h.version - s.hat 3
  let t := if k = 0 then s else s.floorRaise k
  match b with
  | .cfg l => t.bundleBank true { version := h.version, saves := 0, digest := h.digest, cfg := l } body
  | .tab l =>
    (t.bundleBank false { version := h.version, saves := 0, digest := h.digest, tab := l } body).modVlt (fun v => { v with tabDue := true })
  | .keys l => t.bundleKeys (BundleBody.keys l).records

/-- A bundle commit ends with a result and its DATA (R476): the result is shown and answered, and the transfer is IDLE
(R308). -/
def State.bundleResult (s : State) (j : SecJob) (c after : Nat) (d : List Byte) : State :=
  let t := s.modSec (fun q => { q with commit := none, building := none })
  let t := if t.fld F.CMD_STAT_BST = 3 then t.bxferIdle else t
  (t.setFld F.CMD_BCODE_CODE c).cmdFinish (j.reply.getD {}) c d after 0

/-- B_COMMIT_DONE (R476), once the vault can take the bundle up. A transfer aborted meanwhile has no bundle left to
verify. -/
def State.bundleDone (s : State) : State :=
  match s.sec.commit with
  | none => s
  | some j =>
    let hdl := s.fld F.CMD_BHDL_HDL
    let b := if s.fld F.CMD_STAT_BST = 3 then s.staged else []
    if !s.vaultFree then s
    else match s.bundleCheck b with
      | (t, .inl (c, d)) => (((t.post 8 8 c).cmdStick F.CMD_STAT_BNDFAIL).post 5 0x84 c).bundleResult j c 0 d
      | (t, .inr (h, body)) =>
        if !t.bundleReady body then s
        else
          let t := (t.bundleApply h body ((b.drop 64).take h.length)).post 8 7 (h.typ * 4096 + h.version % 4096)
          ((t.cmdStick F.CMD_STAT_BNDOK).post 5 0x83 hdl).bundleResult j cOk (if h.typ = 1 ∧ h.apply then 3 else 0) []

/-! Proof and certificate (R309, R480). -/

/-- PROOF (0x90). -/
def proofLine (s : State) (r : Reply) (a : List Byte) : CmdOut :=
  sized s a 16
    (match s.signStart (some r) a with
     | (t, 0) => { s := t, code := none }
     | (t, c) => refuse t c)

/-- A PROOF report in place of a response (R309): its RSEQ is the command's TAG. -/
def State.proofReport (s : State) (r : Reply) (body : List Byte) : State :=
  if !r.short then s
  else
    let secs := if s.timeValid then secOf s.tim.now else 0xFFFFFFFF
    let o := s.originate (reportFrame r.urg ([0xC5, r.tag] ++ toBytes 4 secs ++ body)) (s.hopDst true)
    if r.loop then o.1.ringIn 4 { f := o.2 }
    else if s.isHead then (if s.flag F.SYS_MODE_HOST then o.1.ringIn 4 { f := o.2 } else s)
    else o.1.toQ2 { f := o.2 }

/-- PROOF_SIGN_DONE (R480): into table 0x4 for the host, into the report for the line. -/
def State.proofDone (s : State) : State :=
  match s.sec.proof with
  | none => s
  | some j =>
    let body := s.proofSigned j.body
    let t := s.useFree.modSec (fun q => { q with proof := none })
    match j.reply with
    | none => ((t.modSec (fun q => { q with body := body })).post 8 9 1).secDone cOk
    | some r => (t.post 8 9 0).proofReport r body

/-- CERT (R309). -/
def certLine (s : State) (_ : Reply) (a : List Byte) : CmdOut :=
  sized s a 3
    (let o := numAt a 0 2
     let n := numAt a 2 1
     if n = 0 ∨ 192 < n ∨ min Config.certLen 768 < o + n then refuse s cRange
     else { s := s, data := (List.range n).map (fun i => certByte (o + i)) })

/-! Alarms and periodic reports (R313 to R315). -/

/-- The alarm bits that an event matches (R313). -/
def alarmBits (x : EvRec) : List Nat :=
  let is (c e : Nat) : Bool := x.cls == c && x.ev == e
  [is 4 1, is 3 1 || is 3 6, is 3 3, is 3 0x43, is 3 0x40, is 9 1, is 5 0x41, is 5 1,
    x.cls == 1, x.cls == 2, x.cls == 7, x.cls == 8, x.cls == 0xB].zipIdx.filterMap (fun e => if e.1 then some e.2 else none)

/-- The newest routine frame of Q2 goes (R314). -/
def State.dropRoutine (s : State) : State :=
  let rs := (s.mac.q2.filter (fun e => !e.f.urg))
  match rs.getLast? with
  | none => s
  | some e =>
    let keep := (modFirst (fun x => !x.f.urg) (fun _ => none) s.mac.q2.reverse).reverse
    let t := s.setRing 2 keep
    let t := if rs.length = 1 then t.modMac (fun m => { m with waitAck := m.waitAck.filter (fun w => w.1 != 1) }) else t
    t.leftQ2 e

/-- An alarm is sent (R313, R314): room is made for it in Q2, or it is dropped. -/
def State.alarmSend (s : State) (b n : Nat) (x : EvRec) (sl : Bool) : State :=
  let body := toBytes 1 b ++ toBytes 2 (min n 0xFFFF) ++ wordsBytes (x.words sl)
  if s.isHead ∨ !s.ringFull 2 then s.makeReport 0xC2 true body
  else if s.mac.q2.all (fun e => e.f.urg) then (s.cmdStick F.CMD_STAT_ALMDROP).post 5 0x87 b
  else ((((s.dropRoutine).cmdStick F.CMD_STAT_DISP).post 5 0x86 b)).makeReport 0xC2 true body

/-- An alarm source, changed. -/
def State.modAlarm (s : State) (b : Nat) (f : Alarm → Alarm) : State := s.modCmd (fun c => { c with alarms := modNth c.alarms b f })

/-- An event meets an alarm bit (R313): a fresh alarm, or one more counted in the gap. -/
def State.alarmMeet (s : State) (x : EvRec) (sl : Bool) (b : Nat) : State :=
  if (nthOf s.cmd.alarms b).gap then s.modAlarm b (fun a => { a with n := a.n + 1, last := x, sl := sl })
  else (s.alarmSend b 1 x sl).modAlarm b (fun a => { a with gap := true, n := 0 })

/-- The alarms that a record makes. -/
def State.alarms (s : State) (x : EvRec) (sl : Bool) : State :=
  if s.flag F.CMD_CTL_ALMEN then
    ((alarmBits x).filter (fun b => s.bit R.CMD_ALM b)).foldl (fun t b => t.alarmMeet x sl b) s
  else s

/-- RECORDER_TAKE (R313, R489). -/
def State.recorderTake (s : State) : State :=
  let sl := decide (s.fld F.LOG_SFILL_N < 64) && !s.vlt.sealing
  match s.recTake with
  | (t, some x) => t.alarms x sl
  | (t, none) => t

/-- ALARM_GAP_END (R313): one alarm with the last record and the count, which opens a new gap; none while alarms or this
source are off. -/
def State.alarmGapEnd (s : State) (b : Nat) : State :=
  let a := nthOf s.cmd.alarms b
  if !a.gap then s
  else if a.n = 0 ∨ !s.flag F.CMD_CTL_ALMEN ∨ !s.bit R.CMD_ALM b then s.modAlarm b (fun x => { x with gap := false })
  else (s.alarmSend b a.n a.last a.sl).modAlarm b (fun x => { x with n := 0 })

/-- A periodic report is made, or skipped where Q2 is full (R314). -/
def State.periodic (s : State) (opc : Nat) (body : List Byte) : State :=
  if !s.isHead ∧ s.ringFull 2 then (s.cmdStick F.CMD_STAT_RSKIP).post 5 0x85 opc else s.makeReport opc false body

/-- Periodic reports are made (R315). -/
def State.reports (s : State) : Bool :=
  s.flag F.CMD_CTL_RPTEN && decide (s.fld F.MAC_STAT_JST = 2) && s.flag F.MAC_STAT_BVALID

/-- The STATUS report of a bench start (R315). -/
def State.statusDue (s : State) : State :=
  let p := (s.reg R.CMD_SPER).toNat
  if s.reports ∧ p ≠ 0 ∧ s.bench % p = s.short % p then s.periodic 0xC1 s.statusBody else s

/-- PERIODIC_REPORT_MINUTE (R315): by network minutes while network time is valid, else by minutes from the LIT entry. -/
def State.minuteReports (s : State) : State :=
  let m := if s.timeValid then secOf s.tim.now / 60 else (s.cyc - s.pwr.litAt) / (60 * 61440000)
  let ph := if s.timeValid then s.short else 0
  if !s.reports ∨ s.cmd.minute = some m ∨ (!s.timeValid ∧ m = 0) then s
  else
    let t := s.modCmd (fun c => { c with minute := some m })
    let e := (s.reg R.CMD_EPER).toNat
    let h := (s.reg R.CMD_HPER).toNat
    let t := if e ≠ 0 ∧ m % e = ph % e then t.periodic 0xC3 t.energyBody else t
    if h ≠ 0 ∧ m % h = ph % h then t.periodic 0xC4 (t.healthBody 0xFFFF) else t

/-! The start of a bench (R255). -/

/-- BENCH_START: course 0 has begun; the bench-aligned work of the PHY, of line access and of the engines that count in
benches. -/
def State.benchStart (s : State) : State :=
  if !s.phyOn ∨ !s.mac.benchDue then s
  else
  let t := s.phyBench.macBench
  let t := if t.flag F.MAC_STAT_BVALID then t.stormRestart else t
  (t.secBench.statusDue).pulse 0x6B

/-! Commands. -/

/-- B_BEGIN (R307). -/
def execBBegin (f : LineFrame) (s : State) : Host.Outcome State Fault Refusal := headCmd 0x80 bBeginLine f s

/-- B_BLOCK (R307). -/
def execBBlock (f : LineFrame) (s : State) : Host.Outcome State Fault Refusal := headCmd 0x81 bBlockLine f s

/-- B_REPAIR (R306). -/
def execBRepair (f : LineFrame) (s : State) : Host.Outcome State Fault Refusal := headCmd 0x82 bRepairLine f s

/-- B_COMMIT (R308). -/
def execBCommit (f : LineFrame) (s : State) : Host.Outcome State Fault Refusal := headCmd 0x83 bCommitLine f s

/-- B_ABORT (R308). -/
def execBAbort (f : LineFrame) (s : State) : Host.Outcome State Fault Refusal := headCmd 0x84 bAbortLine f s

/-- B_COMMIT_DONE (R476). -/
def execBCommitDone (s : State) : Host.Outcome State Fault Refusal := done s.bundleDone

/-- BUNDLE_APPLY_RESET (R477). -/
def execBundleApplyReset (s : State) : Host.Outcome State Fault Refusal := done (if s.cmd.apply then s.softReset else s)

/-- PROOF (R309). -/
def execProof (f : LineFrame) (s : State) : Host.Outcome State Fault Refusal := headCmd 0x90 proofLine f s

/-- PROOF_SIGN_DONE (R480). -/
def execProofSignDone (s : State) : Host.Outcome State Fault Refusal := done s.proofDone

/-- CERT (R309). -/
def execCert (f : LineFrame) (s : State) : Host.Outcome State Fault Refusal := headCmd 0x91 certLine f s

/-- RECORDER_TAKE (R489). -/
def execRecorderTake (s : State) : Host.Outcome State Fault Refusal := done s.recorderTake

/-- ALARM_GAP_END (R313). -/
def execAlarmGapEnd (b : Fin 13) (s : State) : Host.Outcome State Fault Refusal := done (s.alarmGapEnd b)

/-- PERIODIC_REPORT_MINUTE (R315). -/
def execPeriodicReportMinute (s : State) : Host.Outcome State Fault Refusal := done s.minuteReports

/-- BENCH_START (R255). -/
def execBenchStart (s : State) : Host.Outcome State Fault Refusal := done (if 4 ≤ s.pwr.boot then s.benchStart else s)

end Sys2Proof.Machine
end

