-- ==== Sys2Proof/Machine/Tick.lean ====
section
/-! DEFINITION. The event fabric's delivery (R37, R38) and the fade tick (R14, R74, R87, R103, R108, R394, R477). -/

namespace Sys2Proof.Machine

/-! The event fabric. -/

/-- The sources of R37. -/
def fabricSource (c : Nat) : Bool := decide (0x10 ≤ c) && decide (c ≤ 0x74)

/-- The destinations of the active routes that carry a source, each once (R37, R38). -/
def State.routed (s : State) (src : Nat) : List Nat :=
  ((List.range 32).filterMap (fun i =>
    let w := s.reg (R.EVR_ROUTE0 + 64 * i)
    if getBits w 7 0 = src then some (getBits w 15 8) else none)).eraseDups

/-- A pulse at a destination (R37); a code of none does nothing. -/
def State.fabricDest (s : State) (d : Nat) : State :=
  if d = 0x01 then s.userStart
  else if d = 0x02 then s.pushLatest
  else if 0x10 ≤ d ∧ d ≤ 0x17 then s.gtKick (d - 0x10)
  else if d = 0x20 then s.modPwm (fun q => { q with synco := true })
  else if d = 0x21 then s.irq irqEvr
  else if d = 0x22 then
    (List.range 8).foldl (fun t l =>
      t.modFlamp l (fun y => match y.pend with
        | some (_, .evr, _) => { y with due := true }
        | _ => y)) s
  else if 0x30 ≤ d ∧ d ≤ 0x37 then s.gtPulse (d - 0x30)
  else s

/-- The pulse `e` leaves the fabric; destinations that pulses of another SYSCLK cycle moved may act again. -/
def State.fabricTake (s : State) (e : Nat × Nat) : State :=
  { s with fabric := s.fabric.erase e, acted := if e.2 = s.actedAt then s.acted else [], actedAt := e.2 }

/-- EVENT_FABRIC_PULSE (R38): the source's oldest pulse that waits, or one made now, reaches its destinations; pulses of
one SYSCLK cycle are ORed, and a destination acts once for it. -/
def State.fabricPulse (s : State) (src : Nat) : State :=
  if fabricSource src then
    let t := if s.fabric.any (fun e => e.1 == src) then s else s.pulse src
    match t.fabric.find? (fun e => e.1 == src) with
    | none => t
    | some e =>
      let u := t.fabricTake e
      let l := (u.routed src).filter (fun d => !u.acted.contains d)
      l.foldl State.fabricDest { u with acted := u.acted ++ l }
  else s

/-- EVENT_FABRIC_PULSE (R38). -/
def execEventFabricPulse (src : Byte) (s : State) : Host.Outcome State Fault Refusal :=
  done (if 4 ≤ s.pwr.boot ∧ !s.pwr.rstLow then s.fabricPulse src.toNat else s)

/-! The fade tick. -/

/-- The directory of a swapped bank: the window of each address whose entry changes is cleared (R471, R473). -/
def State.dirSwap (s : State) (new : List (Nat × Word)) : State :=
  let old := s.sec.dir
  let touched := ((old ++ new).map (fun e => e.1 / 4)).eraseDups.filter (fun a =>
    decide (spRead dirDefault old (4 * a) 4 ≠ spRead dirDefault new (4 * a) 4))
  let t := touched.foldl (fun u a => u.windowClear a) (s.modSec (fun q => { q with dir := new }))
  if t.short = 0x3FF then t else t.dirSet t.short euiBytes

/-- A TAB bank that a bundle swapped in takes effect for all pages (R108, R477). -/
def State.tabSwap (s : State) : State :=
  if s.vlt.tabDue then
    let l := ((s.activeBank false).map Bank.tab).getD []
    let t := s.modFde (fun d => { d with lamps := d.lamps.map (FLamp.keepContours d.active), replay := true })
    ((t.tablesLoad l).dirSwap (dirTable l)).modVlt (fun v => { v with tabDue := false })
  else s

/-- What keeps the node in LIT-RUN or brings it there (R14): a DRIVE, a soft start in progress or pending with a restart of
a channel that runs or is stopped, a proof run, or a burnish pulse. -/
def State.busyLight (s : State) : Bool :=
  (List.range 16).any (fun n =>
    s.takenDrive n != 0 || (s.bit R.PWM_ENA n && s.flag (F.CUR_CSTAT_SSL.at n)) || (s.hchan n).run.isSome ||
      ((s.chan n).run && (s.chan n).burn) || ((s.chan n).restart && s.mayWake n))

/-- LIT-RUN or LIT-IDLE from this tick on (R14, R394). `old`: the state before the tick. -/
def State.litDecide (s : State) (old : Nat) : State :=
  let new := if s.busyLight then 1 else 2
  if new = old then s
  else
    let line := s.phyOn
    let t := s.setFld F.SYS_MODE_STATE new
    let t := if new = 1 then t.startAll.proofFirst else (t.forChans (fun n u => u.capturesClose n)).stopAll.gtuIdle
    if line && !t.phyOn then t.lineStop else t

/-- The fade engine's tick; what keep RAM shows stands from the declaration of a mains loss on (R104). -/
def State.lampTick (s : State) : State :=
  let t := s.fdeTick
  if s.pwr.loss = 0 then t
  else t.modKeep (fun k => { k with fdeShown := s.keep.fdeShown, fdeL6 := s.keep.fdeL6, bad := s.keep.bad })

/-- The line commands decided on this tick are answered (R292). -/
def State.lampAnswers (s : State) : State :=
  s.fde.results.foldl (fun t r => t.lampAnswer r.1 r.2.1 r.2.2) (s.modFde (fun d => { d with results := [] }))

/-- The mappings submitted are checked and applied, lamp 0 first, each seeing those applied before it (DESIGN CHOICE, log
entry 59); the run of a channel that leaves its lamp is abandoned
(R48, R49, R196). -/
def State.mappings (s : State) : State :=
  let t := (List.range 8).foldl State.mapCheck s
  t.forChans (fun n u => if s.groupOf n < 8 ∧ t.groupOf n ≠ s.groupOf n then u.proofAbandon n else u)

/-- FADE_TICK: table swaps and submitted mappings, level 0 on the first tick after START, the fade engine, the solver,
the answers, and the choice of LIT-RUN or LIT-IDLE. In START only the swaps and mappings are made. A LIT entry that no
interruption preceded, by a soft reset, RST# or a clock-fatal reset, restores level 6 by the class of the last one
(DESIGN CHOICE, log entry 61). -/
def State.fadeTick (s : State) : State :=
  let old := s.fld F.SYS_MODE_STATE
  let t := (s.pulse 0x69).tabSwap.lmpSwap.fdeSwap
  let t := t.mappings
  if old = 0 ∧ !s.pwr.leave then t.tvalidSet
  else
    let t := if old = 0 then
        (t.modPwr (fun p => { p with leave := false })).powerOn (!s.keep.bad.contains 2) (decide (s.keep.handed < 3))
      else t
    let t := t.lampTick
    ((t.solve (t.fde.lamps.map FLamp.shown)).lampAnswers).litDecide old

/-- FADE_TICK (R74): once replay has ended, and not in a hold that stops the fade engine (R39). -/
def execFadeTick (s : State) : Host.Outcome State Fault Refusal :=
  done (if 6 ≤ s.pwr.boot ∧ s.pwr.loss ≤ 1 ∧ !s.pwr.rstLow ∧ !(s.holdActive && s.flag F.HOLD_CTL_FDE) then s.fadeTick else s)

end Sys2Proof.Machine
end

