-- ==== Sys2Proof/Machine/Dispatch.lean ====
section
/-! DEFINITION. One arm for each command, in the order of spec/opcode_table.json: a direct call of its meaning. -/

namespace Sys2Proof.Machine

/-- The effect of a command on everything but the queue. -/
def exec (i : Instr) (s : State) : Host.Outcome State Fault Refusal :=
  match i with
  | .registerWrite p off v => Sys2Proof.Machine.execRegisterWrite p off v s
  | .pairLoRead p off => Sys2Proof.Machine.execPairLoRead p off s
  | .pairHiRead p off => Sys2Proof.Machine.execPairHiRead p off s
  | .pairHiWrite p off v => Sys2Proof.Machine.execPairHiWrite p off v s
  | .pairLoWrite p off v => Sys2Proof.Machine.execPairLoWrite p off v s
  | .tableDataRead p off => Sys2Proof.Machine.execTableDataRead p off s
  | .tableDataWrite p off v => Sys2Proof.Machine.execTableDataWrite p off v s
  | .tableAddrWrite p off v => Sys2Proof.Machine.execTableAddrWrite p off v s
  | .unlockWrite p v => Sys2Proof.Machine.execUnlockWrite p v s
  | .unlockTimeout p => Sys2Proof.Machine.execUnlockTimeout p s
  | .eventFabricPulse src => Sys2Proof.Machine.execEventFabricPulse src s
  | .gtPinPulseEnd n => Sys2Proof.Machine.execGtPinPulseEnd n s
  | .syncoPulseEnd => Sys2Proof.Machine.execSyncoPulseEnd s
  | .go p v => Sys2Proof.Machine.execGo p v s
  | .softReset p v => Sys2Proof.Machine.execSoftReset p v s
  | .holdBegin jtag => Sys2Proof.Machine.execHoldBegin jtag s
  | .holdEnd jtag => Sys2Proof.Machine.execHoldEnd jtag s
  | .hwdKick p v => Sys2Proof.Machine.execHwdKick p v s
  | .hwdExpiry => Sys2Proof.Machine.execHwdExpiry s
  | .hwdBootTimeout => Sys2Proof.Machine.execHwdBootTimeout s
  | .lmpMapWrite p v => Sys2Proof.Machine.execLmpMapWrite p v s
  | .lmpCfgWrite p v => Sys2Proof.Machine.execLmpCfgWrite p v s
  | .lmpTabOpen p => Sys2Proof.Machine.execLmpTabOpen p s
  | .lmpTabClose p => Sys2Proof.Machine.execLmpTabClose p s
  | .lmpTabSave p => Sys2Proof.Machine.execLmpTabSave p s
  | .fadeTick => Sys2Proof.Machine.execFadeTick s
  | .scheduleMinute => Sys2Proof.Machine.execScheduleMinute s
  | .timedStartDue l => Sys2Proof.Machine.execTimedStartDue l s
  | .slotHoldExpiry l lvl => Sys2Proof.Machine.execSlotHoldExpiry l lvl s
  | .ruleHoldEnd r => Sys2Proof.Machine.execRuleHoldEnd r s
  | .gestureHoldExpiry l => Sys2Proof.Machine.execGestureHoldExpiry l s
  | .gestureComplete => Sys2Proof.Machine.execGestureComplete s
  | .lossEntry => Sys2Proof.Machine.execLossEntry s
  | .fdeRcmdApply p => Sys2Proof.Machine.execFdeRcmdApply p s
  | .fdeRcmdApplyAt p => Sys2Proof.Machine.execFdeRcmdApplyAt p s
  | .fdeRcmdApplyEvr p => Sys2Proof.Machine.execFdeRcmdApplyEvr p s
  | .fdeRcmdPlate p plate => Sys2Proof.Machine.execFdeRcmdPlate p plate s
  | .fdeRcmdPlateAt p plate => Sys2Proof.Machine.execFdeRcmdPlateAt p plate s
  | .fdeRcmdPlateEvr p plate => Sys2Proof.Machine.execFdeRcmdPlateEvr p plate s
  | .fdeRcmdRelease p => Sys2Proof.Machine.execFdeRcmdRelease p s
  | .fdeTabOpen p => Sys2Proof.Machine.execFdeTabOpen p s
  | .fdeTabClose p => Sys2Proof.Machine.execFdeTabClose p s
  | .fdeTabSave p => Sys2Proof.Machine.execFdeTabSave p s
  | .pwmEnaWrite p v => Sys2Proof.Machine.execPwmEnaWrite p v s
  | .pwmShadowWrite p r v => Sys2Proof.Machine.execPwmShadowWrite p r v s
  | .pwmZero n bstLow => Sys2Proof.Machine.execPwmZero n bstLow s
  | .pwmMidLoad n => Sys2Proof.Machine.execPwmMidLoad n s
  | .pwmPeriod n => Sys2Proof.Machine.execPwmPeriod n s
  | .pwmCmpa n => Sys2Proof.Machine.execPwmCmpa n s
  | .pwmCmpb n => Sys2Proof.Machine.execPwmCmpb n s
  | .peakComparatorEnd n cnt => Sys2Proof.Machine.execPeakComparatorEnd n cnt s
  | .swSensedLow n cnt => Sys2Proof.Machine.execSwSensedLow n cnt s
  | .lgSensedLow n cnt => Sys2Proof.Machine.execLgSensedLow n cnt s
  | .hgTurnOn n cnt => Sys2Proof.Machine.execHgTurnOn n cnt s
  | .dtmaxExpiry n cnt => Sys2Proof.Machine.execDtmaxExpiry n cnt s
  | .zeroCurrentDetect n cnt => Sys2Proof.Machine.execZeroCurrentDetect n cnt s
  | .burnishEnd n bstLow => Sys2Proof.Machine.execBurnishEnd n bstLow s
  | .bootstrapUvlo n => Sys2Proof.Machine.execBootstrapUvlo n s
  | .pwmForceWrite p v => Sys2Proof.Machine.execPwmForceWrite p v s
  | .forceEffect n => Sys2Proof.Machine.execForceEffect n s
  | .overcurrentTrip n => Sys2Proof.Machine.execOvercurrentTrip n s
  | .stringOvervoltageTrip n => Sys2Proof.Machine.execStringOvervoltageTrip n s
  | .tripPinActive t => Sys2Proof.Machine.execTripPinActive t s
  | .linkUndervoltage level => Sys2Proof.Machine.execLinkUndervoltage level s
  | .linkOvervoltage level => Sys2Proof.Machine.execLinkOvervoltage level s
  | .overtemperature => Sys2Proof.Machine.execOvertemperature s
  | .tripClear p oc ov pins => Sys2Proof.Machine.execTripClear p oc ov pins s
  | .globalTripAutoClear => Sys2Proof.Machine.execGlobalTripAutoClear s
  | .stormWindowRestart => Sys2Proof.Machine.execStormWindowRestart s
  | .pwmHoldTimeout n => Sys2Proof.Machine.execPwmHoldTimeout n s
  | .synciEdge => Sys2Proof.Machine.execSynciEdge s
  | .phrefPulse => Sys2Proof.Machine.execPhrefPulse s
  | .dimmingPeriodStart g => Sys2Proof.Machine.execDimmingPeriodStart g s
  | .retryDue n oc ov pins => Sys2Proof.Machine.execRetryDue n oc ov pins s
  | .retryCountReset n => Sys2Proof.Machine.execRetryCountReset n s
  | .lockClear p oc ov pins => Sys2Proof.Machine.execLockClear p oc ov pins s
  | .currentHoldCapture n => Sys2Proof.Machine.execCurrentHoldCapture n s
  | .holdCaptureTimeout n volt => Sys2Proof.Machine.execHoldCaptureTimeout n volt s
  | .conversionDone raw => Sys2Proof.Machine.execConversionDone raw s
  | .userSeqEnd => Sys2Proof.Machine.execUserSeqEnd s
  | .roundEnd => Sys2Proof.Machine.execRoundEnd s
  | .proofRunRequest p v => Sys2Proof.Machine.execProofRunRequest p v s
  | .proofAutoDue n => Sys2Proof.Machine.execProofAutoDue n s
  | .proofSlotStart n => Sys2Proof.Machine.execProofSlotStart n s
  | .proofRunEnd n => Sys2Proof.Machine.execProofRunEnd n s
  | .proofRunTimeout n => Sys2Proof.Machine.execProofRunTimeout n s
  | .ledrst p => Sys2Proof.Machine.execLedrst p s
  | .mclr p => Sys2Proof.Machine.execMclr p s
  | .dtrefRelearn p => Sys2Proof.Machine.execDtrefRelearn p s
  | .hltTabOpen p => Sys2Proof.Machine.execHltTabOpen p s
  | .hltTabClose p => Sys2Proof.Machine.execHltTabClose p s
  | .hltTabSave p => Sys2Proof.Machine.execHltTabSave p s
  | .stressRecordDue => Sys2Proof.Machine.execStressRecordDue s
  | .channelOnHour n => Sys2Proof.Machine.execChannelOnHour n s
  | .zcsEdge rising us => Sys2Proof.Machine.execZcsEdge rising us s
  | .zcsTimeout => Sys2Proof.Machine.execZcsTimeout s
  | .courseStart pre => Sys2Proof.Machine.execCourseStart pre s
  | .benchStart => Sys2Proof.Machine.execBenchStart s
  | .relayBeaconSend => Sys2Proof.Machine.execRelayBeaconSend s
  | .headerReceive hdr => Sys2Proof.Machine.execHeaderReceive hdr s
  | .frameReceive robo bytes => Sys2Proof.Machine.execFrameReceive robo bytes s
  | .beaconReceive short course posn ago snr => Sys2Proof.Machine.execBeaconReceive short course posn ago snr s
  | .beaconMiss => Sys2Proof.Machine.execBeaconMiss s
  | .bvalidTimeout => Sys2Proof.Machine.execBvalidTimeout s
  | .headListenEnd => Sys2Proof.Machine.execHeadListenEnd s
  | .contentionTxStart n => Sys2Proof.Machine.execContentionTxStart n s
  | .ackSend => Sys2Proof.Machine.execAckSend s
  | .ackReceive short => Sys2Proof.Machine.execAckReceive short s
  | .ackSpanEnd => Sys2Proof.Machine.execAckSpanEnd s
  | .vldUndervoltage level => Sys2Proof.Machine.execVldUndervoltage level s
  | .toneMapExpiry e => Sys2Proof.Machine.execToneMapExpiry e s
  | .tmAutoRequest => Sys2Proof.Machine.execTmAutoRequest s
  | .joinRetryDue => Sys2Proof.Machine.execJoinRetryDue s
  | .roleWrite p v => Sys2Proof.Machine.execRoleWrite p v s
  | .ringDataRead p => Sys2Proof.Machine.execRingDataRead p s
  | .ringDataWrite p v => Sys2Proof.Machine.execRingDataWrite p v s
  | .ringPop p => Sys2Proof.Machine.execRingPop p s
  | .ringPush p => Sys2Proof.Machine.execRingPush p s
  | .ringAbort p => Sys2Proof.Machine.execRingAbort p s
  | .setCmd f => Sys2Proof.Machine.execSetCmd f s
  | .setAt f => Sys2Proof.Machine.execSetAt f s
  | .setEvr f => Sys2Proof.Machine.execSetEvr f s
  | .plate f => Sys2Proof.Machine.execPlate f s
  | .plateAt f => Sys2Proof.Machine.execPlateAt f s
  | .plateEvr f => Sys2Proof.Machine.execPlateEvr f s
  | .release f => Sys2Proof.Machine.execRelease f s
  | .event f => Sys2Proof.Machine.execEvent f s
  | .grpSet f => Sys2Proof.Machine.execGrpSet f s
  | .grpAdd f => Sys2Proof.Machine.execGrpAdd f s
  | .grpDel f => Sys2Proof.Machine.execGrpDel f s
  | .posSet f => Sys2Proof.Machine.execPosSet f s
  | .tabOpen f => Sys2Proof.Machine.execTabOpen f s
  | .tabWrite f => Sys2Proof.Machine.execTabWrite f s
  | .tabClose f => Sys2Proof.Machine.execTabClose f s
  | .tabSave f => Sys2Proof.Machine.execTabSave f s
  | .plateWr f => Sys2Proof.Machine.execPlateWr f s
  | .cfgSave f => Sys2Proof.Machine.execCfgSave f s
  | .qStatus f => Sys2Proof.Machine.execQStatus f s
  | .qLamp f => Sys2Proof.Machine.execQLamp f s
  | .qHealth f => Sys2Proof.Machine.execQHealth f s
  | .qEnergy f => Sys2Proof.Machine.execQEnergy f s
  | .qHatch f => Sys2Proof.Machine.execQHatch f s
  | .qEvents f => Sys2Proof.Machine.execQEvents f s
  | .qGauge f => Sys2Proof.Machine.execQGauge f s
  | .qTime f => Sys2Proof.Machine.execQTime f s
  | .qVersion f => Sys2Proof.Machine.execQVersion f s
  | .qLink f => Sys2Proof.Machine.execQLink f s
  | .rd f => Sys2Proof.Machine.execRd f s
  | .wr f => Sys2Proof.Machine.execWr f s
  | .wrl f => Sys2Proof.Machine.execWrl f s
  | .joinReq f => Sys2Proof.Machine.execJoinReq f s
  | .joinResp f => Sys2Proof.Machine.execJoinResp f s
  | .addrSet f => Sys2Proof.Machine.execAddrSet f s
  | .roleSet f => Sys2Proof.Machine.execRoleSet f s
  | .rsvGrant f => Sys2Proof.Machine.execRsvGrant f s
  | .rsvSet f => Sys2Proof.Machine.execRsvSet f s
  | .tmReq f => Sys2Proof.Machine.execTmReq f s
  | .tmResp f => Sys2Proof.Machine.execTmResp f s
  | .offsetSet f => Sys2Proof.Machine.execOffsetSet f s
  | .leave f => Sys2Proof.Machine.execLeave f s
  | .tmAsk f => Sys2Proof.Machine.execTmAsk f s
  | .bBegin f => Sys2Proof.Machine.execBBegin f s
  | .bBlock f => Sys2Proof.Machine.execBBlock f s
  | .bRepair f => Sys2Proof.Machine.execBRepair f s
  | .bCommit f => Sys2Proof.Machine.execBCommit f s
  | .bCommitDone => Sys2Proof.Machine.execBCommitDone s
  | .bAbort f => Sys2Proof.Machine.execBAbort f s
  | .bundleApplyReset => Sys2Proof.Machine.execBundleApplyReset s
  | .proof f => Sys2Proof.Machine.execProof f s
  | .proofSignDone => Sys2Proof.Machine.execProofSignDone s
  | .cert f => Sys2Proof.Machine.execCert f s
  | .mbStat f => Sys2Proof.Machine.execMbStat f s
  | .alarmGapEnd b => Sys2Proof.Machine.execAlarmGapEnd b s
  | .periodicReportMinute => Sys2Proof.Machine.execPeriodicReportMinute s
  | .holdoverEntry => Sys2Proof.Machine.execHoldoverEntry s
  | .timeSet p => Sys2Proof.Machine.execTimeSet p s
  | .timeSetcap p => Sys2Proof.Machine.execTimeSetcap p s
  | .setcapCancel p => Sys2Proof.Machine.execSetcapCancel p s
  | .ppsLost => Sys2Proof.Machine.execPpsLost s
  | .timSecRead p => Sys2Proof.Machine.execTimSecRead p s
  | .alarmArm p n v => Sys2Proof.Machine.execAlarmArm p n v s
  | .alarmFire n => Sys2Proof.Machine.execAlarmFire n s
  | .kaCalibrationWindow => Sys2Proof.Machine.execKaCalibrationWindow s
  | .keepSense temp vstore => Sys2Proof.Machine.execKeepSense temp vstore s
  | .timeCountResume => Sys2Proof.Machine.execTimeCountResume s
  | .gtuEnaWrite p v => Sys2Proof.Machine.execGtuEnaWrite p v s
  | .gtValueEffect n => Sys2Proof.Machine.execGtValueEffect n s
  | .gtCompareMatch n m0 m1 => Sys2Proof.Machine.execGtCompareMatch n m0 m1 s
  | .gtTrigger n => Sys2Proof.Machine.execGtTrigger n s
  | .gtuTrgWrite p v => Sys2Proof.Machine.execGtuTrgWrite p v s
  | .gtPinEdge n level => Sys2Proof.Machine.execGtPinEdge n level s
  | .gtCatchUp n => Sys2Proof.Machine.execGtCatchUp n s
  | .xoWindow cnt => Sys2Proof.Machine.execXoWindow cnt s
  | .handoverDone => Sys2Proof.Machine.execHandoverDone s
  | .xoTimeout => Sys2Proof.Machine.execXoTimeout s
  | .xoMissingEdge => Sys2Proof.Machine.execXoMissingEdge s
  | .ircAccepted => Sys2Proof.Machine.execIrcAccepted s
  | .pllLocked => Sys2Proof.Machine.execPllLocked s
  | .clockGood => Sys2Proof.Machine.execClockGood s
  | .ircCheck cnt => Sys2Proof.Machine.execIrcCheck cnt s
  | .fatalRetry => Sys2Proof.Machine.execFatalRetry s
  | .pllLockLoss => Sys2Proof.Machine.execPllLockLoss s
  | .pllRelockTimeout => Sys2Proof.Machine.execPllRelockTimeout s
  | .retxo p => Sys2Proof.Machine.execRetxo p s
  | .kxoFail => Sys2Proof.Machine.execKxoFail s
  | .kxoWindow cnt => Sys2Proof.Machine.execKxoWindow cnt s
  | .spreadApply => Sys2Proof.Machine.execSpreadApply s
  | .vauxGood strap => Sys2Proof.Machine.execVauxGood strap s
  | .coreResetRelease => Sys2Proof.Machine.execCoreResetRelease s
  | .kaTimeLoad => Sys2Proof.Machine.execKaTimeLoad s
  | .vaultRecoveryEnd => Sys2Proof.Machine.execVaultRecoveryEnd s
  | .replayEnd => Sys2Proof.Machine.execReplayEnd s
  | .mainsLoss zcs => Sys2Proof.Machine.execMainsLoss zcs s
  | .keepTimeLoad => Sys2Proof.Machine.execKeepTimeLoad s
  | .reservationAnswer vstore => Sys2Proof.Machine.execReservationAnswer vstore s
  | .keepEntry vstore => Sys2Proof.Machine.execKeepEntry vstore s
  | .coreBrownout => Sys2Proof.Machine.execCoreBrownout s
  | .borWarning => Sys2Proof.Machine.execBorWarning s
  | .rstAssert => Sys2Proof.Machine.execRstAssert s
  | .rstRelease strap => Sys2Proof.Machine.execRstRelease strap s
  | .kaPowerOnReset => Sys2Proof.Machine.execKaPowerOnReset s
  | .vdrvUndervoltage level => Sys2Proof.Machine.execVdrvUndervoltage level s
  | .vdrvGood => Sys2Proof.Machine.execVdrvGood s
  | .avddOutOfRange level => Sys2Proof.Machine.execAvddOutOfRange level s
  | .engineStall e => Sys2Proof.Machine.execEngineStall e s
  | .cellSelect vstore vcell => Sys2Proof.Machine.execCellSelect vstore vcell s
  | .cellRelease vstore => Sys2Proof.Machine.execCellRelease vstore s
  | .storeFull vstore => Sys2Proof.Machine.execStoreFull vstore s
  | .storeChargeResume vstore => Sys2Proof.Machine.execStoreChargeResume vstore s
  | .mppUpdate ratio => Sys2Proof.Machine.execMppUpdate ratio s
  | .gaugeSecond cls uj => Sys2Proof.Machine.execGaugeSecond cls uj s
  | .hourTick => Sys2Proof.Machine.execHourTick s
  | .litHour => Sys2Proof.Machine.execLitHour s
  | .commitDelayExpiry => Sys2Proof.Machine.execCommitDelayExpiry s
  | .commitDone => Sys2Proof.Machine.execCommitDone s
  | .sectorRewriteDone => Sys2Proof.Machine.execSectorRewriteDone s
  | .bankBuildDone => Sys2Proof.Machine.execBankBuildDone s
  | .foldDone => Sys2Proof.Machine.execFoldDone s
  | .flashVerifyFail => Sys2Proof.Machine.execFlashVerifyFail s
  | .vltCommit p => Sys2Proof.Machine.execVltCommit p s
  | .pgwr p => Sys2Proof.Machine.execPgwr p s
  | .vltErase p => Sys2Proof.Machine.execVltErase p s
  | .legwr p => Sys2Proof.Machine.execLegwr p s
  | .vltLock p => Sys2Proof.Machine.execVltLock p s
  | .setpwd p => Sys2Proof.Machine.execSetpwd p s
  | .legload p => Sys2Proof.Machine.execLegload p s
  | .passwordWord p v => Sys2Proof.Machine.execPasswordWord p v s
  | .passwordLockoutEnd => Sys2Proof.Machine.execPasswordLockoutEnd s
  | .regionTimeout p r => Sys2Proof.Machine.execRegionTimeout p r s
  | .rawRegionSelect p v => Sys2Proof.Machine.execRawRegionSelect p v s
  | .hatInc p => Sys2Proof.Machine.execHatInc p s
  | .loadkey p => Sys2Proof.Machine.execLoadkey p s
  | .erasekey p => Sys2Proof.Machine.execErasekey p s
  | .commission p v => Sys2Proof.Machine.execCommission p v s
  | .retire p v => Sys2Proof.Machine.execRetire p v s
  | .fuseBurnDone => Sys2Proof.Machine.execFuseBurnDone s
  | .secProof p => Sys2Proof.Machine.execSecProof p s
  | .selftest p => Sys2Proof.Machine.execSelftest p s
  | .selftestEnd fail => Sys2Proof.Machine.execSelftestEnd fail s
  | .savedir p => Sys2Proof.Machine.execSavedir p s
  | .secKdataWrite p v => Sys2Proof.Machine.execSecKdataWrite p v s
  | .secSlotSelect p v => Sys2Proof.Machine.execSecSlotSelect p v s
  | .healthTestFail => Sys2Proof.Machine.execHealthTestFail s
  | .recorderTake => Sys2Proof.Machine.execRecorderTake s
  | .sealReset p v => Sys2Proof.Machine.execSealReset p v s
  | .hostEventPost p v => Sys2Proof.Machine.execHostEventPost p v s
  | .vldGood => Sys2Proof.Machine.execVldGood s
  | .avddGood => Sys2Proof.Machine.execAvddGood s
  | .vhioLoss => Sys2Proof.Machine.execVhioLoss s
  | .vhioGood => Sys2Proof.Machine.execVhioGood s
  | .globalTripSourceInactive src => Sys2Proof.Machine.execGlobalTripSourceInactive src s
  | .nominalBenchElapsed => Sys2Proof.Machine.execNominalBenchElapsed s
  | .legWriteDone => Sys2Proof.Machine.execLegWriteDone s
  | .sectorEraseDone => Sys2Proof.Machine.execSectorEraseDone s
  | .driverCurrentLimit => Sys2Proof.Machine.execDriverCurrentLimit s
  | .jtagExtest active => Sys2Proof.Machine.execJtagExtest active s

end Sys2Proof.Machine
end

