-- ==== Sys2Proof/Machine/Idle.lean ====
section
/-! DEFINITION. What passes of itself while no command waits: one edge of SYSCLK in LIT, one of the keep-alive clock in
KEEP. Every other effect of time is a command. -/

namespace Sys2Proof.Machine

/-- SYSCLK edges in a KXO period: 61.44 MHz over 32.768 kHz (R361). -/
def kxoCycles : Nat := 1875

/-- An edge of the keep-alive clock in LIT (R330, R357). -/
def State.kxoEdge (s : State) : State :=
  let d := s.kaStep
  s.kaEdge.forGts (fun n t => t.gtKxo n d)

/-- The part of a SYSCLK edge that needs the PLL locked (R362): network time (R320), the counters of the switching generator and the timer channels. -/
def State.sysEdge (s : State) : State :=
  let t := s.timEdge
  (if s.pwmClk ∧ s.clk.good then t.forChans (fun n u => u.pwmEdge n) else t).forGts (fun n u => u.gtEdge n)

/-- A SYSCLK edge in LIT: the edge count, the clocked counters, every 1875 edges one of the keep-alive clock, what line
access does by itself, the next burst of a TAB_WRITE (R297), and the refusal of a frame in front of Q0 or Q1 whose opcode no rule defines (R288, R293). -/
def State.litEdge (s : State) : State :=
  let t := { s with cyc := s.cyc + 1 }
  let t := if 4 ≤ t.pwr.boot ∧ !t.pwr.rstLow then t.sysEdge else t
  let t := if t.keep.phase + 1 < kxoCycles then t.modKeep (fun k => { k with phase := k.phase + 1 }) else t.kxoEdge
  t.lineEdge.tabBurst.refuseUndefined

/-- The block with no command waiting. -/
def State.idle (s : State) : State := settle (if s.pwr.boot = 0 then s.kaEdge else s.litEdge)

end Sys2Proof.Machine
end

