-- ==== Sys2Proof/Machine/Pins.lean ====
section
/-! DEFINITION. What the output pins of the AVDD and VHIO domains carry (R18, R19, R22, R33, R36, R144, R344, R509, R510);
the gates HGn and LGn are `State.gates`. -/

namespace Sys2Proof.Machine

/-- What an output pin carries. -/
inductive Pin where
  /-- Driven low. -/
  | low
  /-- Driven high. -/
  | high
  /-- High-impedance. -/
  | off
deriving DecidableEq, Repr

/-- A driven level. -/
def Pin.of (b : Bool) : Pin := if b then .high else .low

/-- The pins of the AVDD domain are powered: in LIT with AVDD good (R510). -/
def State.avddPins (s : State) : Bool := decide (1 ≤ s.pwr.boot) && s.flag F.PWR_STAT_AVDDG

/-- From VAUX good until configuration replay ends, and while RST# is low (R509). -/
def State.starting (s : State) : Bool := decide (s.pwr.boot < 6) || s.pwr.rstLow

/-- HD15 to HD0 with HCS# and HRD# at the given levels: the word of the read, or none for high-impedance (R18, R22,
R510). -/
def State.hdPins (s : State) (hcs hrd : Bool) : Option Word :=
  if !hcs && !hrd && s.pathUp .host then some s.host.last else none

/-- HWAIT# with HCS# at the given level (R19, R22, R510). An access is one command, and is complete when it ends. -/
def State.hwaitPin (s : State) (hcs : Bool) : Pin := if !hcs && s.pathUp .host then .high else .off

/-- HIRQ# and HNMI# (R33, R36, R509, R510). -/
def State.hirqPin (s : State) : Pin := if s.pathUp .host then .of (!s.hirqLow) else .off
def State.hnmiPin (s : State) : Pin := if s.pathUp .host then .of (!s.hnmiLow) else .off

/-- SYNCO (R144, R509, R510). -/
def State.syncoPin (s : State) : Pin :=
  if !s.avddPins then .off else if s.starting then .low else .of s.pwm.synco

/-- GTn (R344, R509, R510): an input is high-impedance. -/
def State.gtPad (s : State) (n : Nat) : Pin :=
  if !s.avddPins || s.starting then .off
  else match s.gtOut n with
    | some b => .of b
    | none => .off

end Sys2Proof.Machine
end

