-- ==== Sys2Proof/Safety.lean ====
section
/-! DEFINITION. What a well-kept state is, and what it is for a command to end: the terms the statements use. -/

namespace Sys2Proof.Machine

/-- The state keeps its form: the register file and both parts of the flash are canonical, ring Q6 holds at most its 64 records (R494),
and the fixed lists have their numbers of members: 16 switching channels, 8 lamps, 16 analyser channels, 8 timers. -/
structure State.Shape (s : State) : Prop where
  regs  : spWf regReset s.regs = true
  flash : Memory.wf s.vlt.flash = true
  own   : Memory.wf s.vlt.own = true
  q6    : s.q6.length ≤ 64
  chans : s.pwm.chans.length = 16
  lamps : s.fde.lamps.length = 8
  hlt   : s.hlt.chans.length = 16
  gtu   : s.gtu.length = 8

/-- No record waits between commands: every record posted has entered Q6 or been counted as dropped (R488, R494). -/
def State.Settled (s : State) : Prop := s.posted = []

/-- The command ends in a next state of which `P` holds. -/
def Ends (c : Instr) (s : State) (P : State → Prop) : Prop := ∃ t, exec c s = .next t ∧ P t

/-- A pulse of source `src` waits in the event fabric (R37). -/
def State.pulsed (s : State) (src : Nat) : Bool := s.fabric.any (fun e => e.1 == src)

/-- Source `src` has not pulsed within the last 2 SYSCLK cycles: its next pulse is one of its own (R38). -/
def State.rested (s : State) (src : Nat) : Bool := s.pulses.all (fun e => e.1 != src || decide (e.2 + 2 ≤ s.cyc))

/-- The parts of the state beside the register file and the queue. The vault is four: the bytes of the flash that others
read, the addresses that the last direct write programmed, the count of records dropped, and the rest. -/
inductive Part where
  | host | remote | fabric | acted | actedAt | pulses | posted | q6 | q7 | clk | tim | keep | pwr | flash | last | drops | vlt | pwm | lmp | fde | hlt | phy
  | mac | gtu | sec | cmd | cyc | free
deriving DecidableEq, Repr

/-- The part holds in `t` what it holds in `s`. -/
def Part.same (s t : State) : Part → Prop
  | .host => t.host = s.host
  | .remote => t.remote = s.remote
  | .fabric => t.fabric = s.fabric
  | .acted => t.acted = s.acted
  | .actedAt => t.actedAt = s.actedAt
  | .pulses => t.pulses = s.pulses
  | .posted => t.posted = s.posted
  | .q6 => t.q6 = s.q6
  | .q7 => t.q7 = s.q7
  | .clk => t.clk = s.clk
  | .tim => t.tim = s.tim
  | .keep => t.keep = s.keep
  | .pwr => t.pwr = s.pwr
  | .flash => t.vlt.flash = s.vlt.flash
  | .last => t.vlt.last = s.vlt.last
  | .drops => t.vlt.dropped = s.vlt.dropped
  | .vlt => { t.vlt with flash := [], last := [], dropped := 0 } = { s.vlt with flash := [], last := [], dropped := 0 }
  | .pwm => t.pwm = s.pwm
  | .lmp => t.lmp = s.lmp
  | .fde => t.fde = s.fde
  | .hlt => t.hlt = s.hlt
  | .phy => t.phy = s.phy
  | .mac => t.mac = s.mac
  | .gtu => t.gtu = s.gtu
  | .sec => t.sec = s.sec
  | .cmd => t.cmd = s.cmd
  | .cyc => t.cyc = s.cyc
  | .free => t.free = s.free

/-- Between `s` and `t` no register changes but those named, each by its first key with all its indexes, and no part but
those named. -/
def OnlyTouches (regs : List Nat) (parts : List Part) (s t : State) : Prop :=
  (∀ k, k < 17 * 8192 → (∀ r ∈ regs, k / 64 ≠ r / 64) → t.reg k = s.reg k) ∧ ∀ p, p ∉ parts → p.same s t

/-- What the entry of records into Q6 may change, at the end of any command that posts one (R35, R488, R494): the
interrupt bits, the count of dropped records with its status bit, and Q6 itself. -/
abbrev recordRegs : List Nat := [R.IRQ_STAT_LO, R.IRQ_STAT_HI, R.LOG_DROP, R.LOG_STAT]
abbrev recordParts : List Part := [.posted, .q6, .drops]

/-- What words of a TAB_WRITE that still wait may change when the next line command completes it first (R289, R297): the
table's address register, its edit copy or the plates, and the command's answer. Nothing where no word waits. -/
def State.tabRegs (s : State) : List Nat :=
  if s.cmd.rest = [] then [] else
    [R.LMP_TADDR, R.FDE_TADDR, R.HLT_TADDR, R.FDE_STAT, R.FDE_IRQEN, R.FDE_TERR, R.FDE_TERRA, R.MAC_STAT, R.MAC_SHORT,
      R.CMD_STAT, R.CMD_LAST, R.CMD_REFCNT, R.VLT_STAT, R.VLT_ERR]
def State.tabParts (s : State) : List Part :=
  if s.cmd.rest = [] then [] else
    [.host, .remote, .fabric, .pulses, .flash, .last, .vlt, .lmp, .fde, .hlt, .mac, .sec, .cmd]

/-- A register whose write is the merge of R2 and nothing else: no half of a pair, no table port, no register that a rule
gives an effect of its own. -/
def PlainRegister (page off : Nat) : Bool :=
  !pairLo page off && !pairHi page off && !(tablePort page).any (fun q => q.1 == off) &&
  match page with
  | 0 => !([0x04, 0x0C, 0x30, 0x31, 0x32, 0x33, 0x34, 0x3C].contains off)
  | 1 => !([0x01, 0x04, 0x05, 0x09, 0x0A].contains off)
  | 2 => !([0x05].contains off)
  | 3 => !([0x01, 0x04].contains off)
  | 4 => !([0x02, 0x06, 0x20, 0x21, 0x22, 0x23, 0x24, 0x28, 0x2B, 0x2E].contains off)
  | 5 => !([0x05, 0x21, 0x32].contains off)
  | 6 => !([0x08, 0x0A, 0x10, 0x11].contains off)
  | 7 => !([0x02, 0x08, 0x0A, 0x19].contains off)
  | 8 => !([0x08, 0x14, 0x16, 0x48].contains off)
  | 9 => !([0x15].contains off)
  | 10 => !([0x04, 0x06, 0x21, 0x22].contains off)
  | 12 => !([0x06, 0x0F, 0x2C, 0x34, 0x3C, 0x44].contains off)
  | 13 => !([0x02, 0x05, 0x10, 0x12].contains off)
  | 14 => !([0x04, 0x0A, 0x0B, 0x0D, 0x13].contains off)
  | 15 => !([0x04, 0x06, 0x09, 0x0F].contains off)
  | 16 => !([0x08, 0x0A].contains off)
  | _ => true

/-- The command engine takes a line command and finds nothing against it (R288, R291): a COMMAND frame with a payload that
was looped here, or that is protected under an accepted key class and, where `head`, comes from the acting head. -/
def State.passes (s : State) (opc : Nat) (cls : List Nat) (head : Bool) (f : LineFrame) : Bool :=
  let x := s.tabFlush.takeFrame opc f
  s.cmdOn && f.typ == 0 && !f.args.isEmpty && x.2.any (fun y =>
    y.1 || (f.sec && cls.contains (kidClass f.kid.toNat) && (!head || decide (f.src.toNat = x.1.fld F.MAC_HEAD_A))))

/-- The state with the command taken: out of its ring, counted, and shown in CMD_LAST with code 0 (R289, R317). -/
def State.took (s : State) (opc : Nat) (f : LineFrame) : State :=
  (((s.tabFlush.takeFrame opc f).1.incReg R.CMD_CNT).setFld F.CMD_LAST_OPC opc).setFld F.CMD_LAST_CODE 0

/-- The answer that a command taken in state `s` would get. -/
def State.replyTo (s : State) (opc : Nat) (f : LineFrame) : Reply :=
  let x := ((s.tabFlush.takeFrame opc f).2).getD (false, none)
  { opc := opc, tag := f.args.headD 0, urg := f.urg, short := toOne f, loop := x.1, snr := x.2 }

/-- Between the state `u` with the command taken and its end `t` the command ends with `code` (R290, R292, R316):
CMD_LAST shows it, a refusal is counted and sets its sticky bit, and a command of its own to this node that is answered
has its response as the last frame of Q2, where that has room and the node is not the acting head. -/
def Answers (u t : State) (r : Reply) (code : Nat) (data : List Byte) : Prop :=
  t.reg R.CMD_LAST = BitVec.ofNat 16 (r.opc * 256 + code) ∧
  (code < 0x10 → t.reg R.CMD_REFCNT = u.reg R.CMD_REFCNT) ∧
  (0x10 ≤ code → t.reg R.CMD_REFCNT = u.reg R.CMD_REFCNT + 1 ∧ t.flag F.CMD_STAT_REFUSED = true) ∧
  (r.short = true → neverAnswered.contains r.opc = false → r.loop = false → u.isHead = false → u.ringFull 2 = false →
    ∃ e, t.mac.q2 = u.mac.q2 ++ [e] ∧ e.f.args = [0xC0, r.tag, BitVec.ofNat 8 r.opc, BitVec.ofNat 8 code] ++ data)

end Sys2Proof.Machine
end

