-- ==== Sys2Proof/Certificates/Slice0/Obligations.lean ====
section
/-! DEFINITION. The statements about the block, from the rules of spec/: what every step keeps, what each command does and
what it leaves alone. -/

open Sys2Proof Sys2Proof.Machine

/-- For every command c, every queue cs behind it and every state, a step of the state whose queue is c followed by cs
is exec of c on the state whose queue is cs. That the block has a queue is the model's choice (log entry 6).
(spec/95_what_each_step_holds.md, R6) -/
def Obligations.StepTakesFrontCommand : Prop :=
  ∀ (c : Instr) (cs : List Instr) (s : State), step { s with pending := c :: cs } = exec c { s with pending := cs }

/-- With an empty queue and no record unsettled a step answers a next state with an empty queue: in KEEP the
keep-alive counter advances by its step of R330 modulo 2^80 and the elapsed-time count by the same; in LIT the count
of SYSCLK edges advances by one. That an edge passes when nothing waits is the model's choice (log entry 1). (R330,
R361, R537) -/
def Obligations.IdleStepLetsAnEdgePass : Prop :=
  ∀ s : State, s.pending = [] → s.Settled →
    (s.pwr.boot = 0 → ∃ t, step s = .next t ∧ t.pending = [] ∧ t.keep.ka = (s.keep.ka + s.kaStep) % 2 ^ 80 ∧
      t.keep.elapsed = s.keep.elapsed + s.kaStep ∧ t.cyc = s.cyc) ∧
    (s.pwr.boot ≠ 0 → ∃ t, step s = .next t ∧ t.pending = [] ∧ t.cyc = s.cyc + 1)

/-- State.reset has its form: register file and flash canonical, Q6 within 64 records, 16 channels, 8 lamps, 16
analyser channels, 8 timers, no record unsettled, an empty queue. The content of State.reset is the model's choice
(log entries 7 and 8). (R432, R494, 16_vault_storage.md) -/
def Obligations.ResetStateIsWellKept : Prop :=
  State.reset.Shape ∧ State.reset.Settled ∧ State.reset.pending = []

/-- For every state that has its form (register file and flash canonical, Q6 within its 64 records, the fixed lists of
their lengths), if a step answers a next state, then that state has its form, no record posted is left unsettled, and
its queue is the old queue without its front. (R488, R494, R432, R434, 18_event_recorder.md) -/
def Obligations.EveryStepKeepsTheState : Prop :=
  ∀ s t : State, s.Shape → step s = .next t → t.Shape ∧ t.Settled ∧ t.pending = s.pending.tail

/-- For every command and state, exec answers a next state, except that it answers the fault reservedPageWrite exactly
where one of the five write rows of the register port runs on the host path, the path responds, the path's page is
0x11 to 0x1F and the offset is not 0x00. No command is refused. That this write stops is the model's choice (log entry
5). (R4, R22, 00_scope.md) -/
def Obligations.OnlyReservedPageWritesStop : Prop :=
  ∀ (c : Instr) (s : State),
    ((∃ t, exec c s = .next t) ∨ exec c s = .fault .reservedPageWrite) ∧
    (exec c s = .fault .reservedPageWrite ↔
      ∃ (off : BitVec 7) (v : Word), off ≠ 0 ∧ 0x11 ≤ s.host.page ∧ s.pathUp .host = true ∧
        (c = .registerWrite .host off v ∨ c = .pairHiWrite .host off v ∨ c = .pairLoWrite .host off v ∨
          c = .tableDataWrite .host off v ∨ c = .tableAddrWrite .host off v))

/-- For every register of every page, every field of it, and every old and written word: an RW field takes the written
bits; an LK field takes them where SYS_UNLOCK is open and keeps its own where it is closed; an RO or WT field keeps
its own; a W1C field keeps its own with each bit cleared where 1 is written. Bits of no field keep what they hold. In
the word that a write then stores, the bits of an RO or WT field and of an LK field under a closed SYS_UNLOCK are
those the register held, a W1C bit is cleared where 1 is written, and, where the Effect column of the register's table
(State.bound) changes nothing of the merged word, the merged word is stored whole. (R2, R3) -/
def Obligations.FieldsMergeByAccessCode : Prop :=
  (∀ (page off : Nat) (r : RegDef), regDef page off = some r → ∀ (open_ : Bool) (old v : Word),
    (∀ f ∈ r.flds, ∀ i, f.lo ≤ i → i ≤ f.hi → (mergeWrite r.flds open_ old v).getLsbD i =
      (match f.acc with
        | .rw => v.getLsbD i
        | .lk => if open_ then v.getLsbD i else old.getLsbD i
        | .ro => old.getLsbD i
        | .wt => old.getLsbD i
        | .w1c => old.getLsbD i && !v.getLsbD i)) ∧
    (∀ i, (∀ f ∈ r.flds, ¬ (f.lo ≤ i ∧ i ≤ f.hi)) → (mergeWrite r.flds open_ old v).getLsbD i = old.getLsbD i)) ∧
  (∀ (s : State) (p : Path) (page off i : Nat) (v : Word), ∀ r, regDef page off = some r →
    let old := s.reg (regKey page off i)
    let w := s.mergedWord p page off i r v
    (∀ f ∈ r.flds, ∀ b, f.lo ≤ b → b ≤ f.hi →
      (f.acc = .ro ∨ f.acc = .wt ∨ (f.acc = .lk ∧ s.unlocked p = false) → w.getLsbD b = old.getLsbD b) ∧
      (f.acc = .w1c → w.getLsbD b = (old.getLsbD b && !v.getLsbD b))) ∧
    (s.bound page off (mergeWrite r.flds (s.unlocked p) old v) = mergeWrite r.flds (s.unlocked p) old v →
      w = mergeWrite r.flds (s.unlocked p) old v))

/-- On a path that responds, with no record unsettled: a write to offset 0x00 sets the path's page to the low five
bits; a write to an offset that the page does not assign changes no register; a write to a register that no index
addresses and that no own rule takes stores the merge of R2 within the bounds of the field's Effect column and leaves
every other register as it was; a write to an indexed register that no own rule takes does so for the index that the
page's select names, for every index under the broadcast select 0x1F, and for none where the select is past the last
index. (R2, R21, R24, R26, R27, R32, 02_register_model.md) -/
def Obligations.RegisterWriteTakesEffect : Prop :=
  ∀ (p : Path) (off : BitVec 7) (v : Word) (s : State), s.Settled → s.pathUp p = true →
    (off = 0 → Ends (.registerWrite p off v) s (fun t => (t.path p).page = v.toNat % 32 ∧ t.regs = s.regs)) ∧
    (off ≠ 0 → (s.path p).page < 0x11 → regDef (s.path p).page off.toNat = none →
      (tablePort (s.path p).page).any (fun q => q.1 == off.toNat) = false →
      Ends (.registerWrite p off v) s (fun t => t.regs = s.regs)) ∧
    (off ≠ 0 → (s.path p).page < 0x11 → ∀ r, regDef (s.path p).page off.toNat = some r →
      PlainRegister (s.path p).page off.toNat = true → r.count = 1 →
      Ends (.registerWrite p off v) s (fun t =>
        let k := regKey (s.path p).page off.toNat 0
        t.reg k = s.mergedWord p (s.path p).page off.toNat 0 r v ∧
        (∀ j, j ≠ k → t.reg j = s.reg j) ∧ (t.path p).armed = false)) ∧
    (off ≠ 0 → (s.path p).page < 0x11 → ∀ r, regDef (s.path p).page off.toNat = some r →
      PlainRegister (s.path p).page off.toNat = true → r.count ≠ 1 →
      (broadcasts (s.path p).page = true ∧ s.select (s.path p).page = 0x1F →
        Ends (.registerWrite p off v) s (fun t =>
          (∀ i, i < r.count → t.reg (regKey (s.path p).page off.toNat i) =
            s.mergedWord p (s.path p).page off.toNat i r v) ∧
          ∀ j, (∀ i, i < r.count → j ≠ regKey (s.path p).page off.toNat i) → t.reg j = s.reg j)) ∧
      (¬ (broadcasts (s.path p).page = true ∧ s.select (s.path p).page = 0x1F) →
      Ends (.registerWrite p off v) s (fun t =>
        let i := s.select (s.path p).page
        let k := regKey (s.path p).page off.toNat i
        (i < r.count → t.reg k = s.mergedWord p (s.path p).page off.toNat i r v) ∧
        (∀ j, i < r.count → j ≠ k → t.reg j = s.reg j) ∧ (r.count ≤ i → t.regs = s.regs))))

/-- On a path that responds, for a pair of its page: a read of NAME_LO returns the low half, latches the high half and
tags the latch with the pair and, for an indexed pair, the select value; a read of NAME_HI returns the latch where the
tag matches the pair and the live high half where it does not, and leaves latch and tag in place; bits of no field
read 0 (R3). With the broadcast select the LO read returns and latches 0x0000 under that tag. (R29) -/
def Obligations.PairReadsLatchTheHighHalf : Prop :=
  ∀ (p : Path) (off : BitVec 7) (s : State), s.Settled → s.pathUp p = true → (s.path p).page < 0x11 →
    ∀ r, regDef (s.path p).page off.toNat = some r →
    (pairLo (s.path p).page off.toNat = true → ∀ h, regDef (s.path p).page (off.toNat + 1) = some h →
      (∀ i, s.indexes (s.path p).page r.count = [i] → s.indexes (s.path p).page h.count = [i] →
        Ends (.pairLoRead p off) s (fun t =>
          (t.path p).last = s.word p (s.path p).page off.toNat i &&& fieldsMask r.flds ∧
          (t.path p).latch = s.word p (s.path p).page (off.toNat + 1) i &&& fieldsMask h.flds ∧
          (t.path p).latchTag = some (s.pairTag (s.path p).page off.toNat) ∧ t.regs = s.regs)) ∧
      (broadcasts (s.path p).page = true → r.count ≠ 1 → h.count = r.count → s.select (s.path p).page = 0x1F →
        Ends (.pairLoRead p off) s (fun t => (t.path p).last = 0 ∧ (t.path p).latch = 0 ∧
          (t.path p).latchTag = some (s.pairTag (s.path p).page off.toNat) ∧ t.regs = s.regs))) ∧
    (pairHi (s.path p).page off.toNat = true → pairLo (s.path p).page off.toNat = false →
      ((s.path p).latchTag = some (s.pairTag (s.path p).page (off.toNat - 1)) →
        Ends (.pairHiRead p off) s (fun t => (t.path p).last = (s.path p).latch ∧
          (t.path p).latch = (s.path p).latch ∧ (t.path p).latchTag = (s.path p).latchTag ∧ t.regs = s.regs)) ∧
      ((s.path p).latchTag ≠ some (s.pairTag (s.path p).page (off.toNat - 1)) →
        Ends (.pairHiRead p off) s (fun t =>
          (∀ i, s.indexes (s.path p).page r.count = [i] → (t.path p).last = s.word p (s.path p).page off.toNat i &&& fieldsMask r.flds) ∧
          (broadcasts (s.path p).page = true → r.count ≠ 1 → s.select (s.path p).page = 0x1F → (t.path p).last = 0) ∧
          (t.path p).latch = (s.path p).latch ∧ (t.path p).latchTag = (s.path p).latchTag ∧ t.regs = s.regs)))

/-- On a path that responds, for a pair of a page other than the timers' that no index addresses: a write of NAME_HI
stages the word under the pair's tag and changes no register; a write of NAME_LO whose tag matches stores both halves
by the access codes of their fields and empties the stage; one whose tag does not match stores the low half alone,
leaves the high half and leaves the stage as it was. (R29 has the select in the tag of an indexed pair.) (R30, R31,
R32) -/
def Obligations.PairWritesCommitTogether : Prop :=
  ∀ (p : Path) (off : BitVec 7) (v : Word) (s : State), s.Settled → s.pathUp p = true →
    (s.path p).page < 0x11 → (s.path p).page ≠ 13 → ∀ r, regDef (s.path p).page off.toNat = some r →
    (pairHi (s.path p).page off.toNat = true →
      Ends (.pairHiWrite p off v) s (fun t =>
        (t.path p).stage = some (s.pairTag (s.path p).page (off.toNat - 1), v) ∧ t.regs = s.regs)) ∧
    (pairLo (s.path p).page off.toNat = true → pairHi (s.path p).page off.toNat = false →
      ∀ h, regDef (s.path p).page (off.toNat + 1) = some h → r.count = 1 → h.count = 1 →
      (∀ hi, (s.path p).stage = some (s.pairTag (s.path p).page off.toNat, hi) →
        Ends (.pairLoWrite p off v) s (fun t =>
          let k := regKey (s.path p).page off.toNat 0
          let l := regKey (s.path p).page (off.toNat + 1) 0
          t.reg k = s.mergedWord p (s.path p).page off.toNat 0 r v ∧
          t.reg l = s.mergedWord p (s.path p).page (off.toNat + 1) 0 h hi ∧
          (t.path p).stage = none ∧ ∀ j, j ≠ k → j ≠ l → t.reg j = s.reg j)) ∧
      ((∀ hi, (s.path p).stage ≠ some (s.pairTag (s.path p).page off.toNat, hi)) →
        Ends (.pairLoWrite p off v) s (fun t =>
          let k := regKey (s.path p).page off.toNat 0
          t.reg k = s.mergedWord p (s.path p).page off.toNat 0 r v ∧
          (t.path p).stage = (s.path p).stage ∧ ∀ j, j ≠ k → t.reg j = s.reg j)))

/-- On a path that responds, on a page with a table port other than the raw vault port: while the address names a
word, a data read returns the table's word, and a data read or write makes the address one more, or, where the
register cannot hold that, leaves it and marks the port; a data write to an open edit copy of LMP or HLT stores the
word. Past the end or marked, a read returns 0x0000 and neither access changes a register. A write to the address
register stores its bits and clears the mark. (R28, R53, R213, 02_register_model.md) -/
def Obligations.TablePortStepsAndStopsAtTheEnd : Prop :=
  ∀ (p : Path) (v : Word) (s : State) (off : BitVec 7), s.Settled → s.pathUp p = true →
    (s.path p).page ≠ 14 → ∀ (f : Fld) (w : Nat), tablePort (s.path p).page = some (off.toNat, f, w) →
    (s.portPast (s.path p).page f = false →
      Ends (.tableDataRead p off) s (fun t =>
        (t.path p).last = s.tableWord p (s.path p).page (s.fld f) ∧
        (if s.fld f + 1 < 2 ^ w then t.fld f = s.fld f + 1 else t.fld f = s.fld f ∧ f.key ∈ t.vlt.past)) ∧
      Ends (.tableDataWrite p off v) s (fun t =>
        (if s.fld f + 1 < 2 ^ w then t.fld f = s.fld f + 1 else t.fld f = s.fld f ∧ f.key ∈ t.vlt.past) ∧
        ((s.path p).page = 6 → s.flag F.LMP_STAT_EDIT = true → lmpAt t.lmp.edit (s.fld f) = v) ∧
        ((s.path p).page = 8 → s.flag F.HLT_STAT_EDIT = true → spGet hltDefault t.hlt.edit (s.fld f) = v))) ∧
    (s.portPast (s.path p).page f = true →
      Ends (.tableDataRead p off) s (fun t => (t.path p).last = 0 ∧ t.regs = s.regs) ∧
      Ends (.tableDataWrite p off v) s (fun t => t.regs = s.regs)) ∧
    Ends (.tableAddrWrite p (off - 1) v) s (fun t =>
      t.fld f = v.toNat % 2 ^ w ∧ f.key ∉ t.vlt.past)

/-- On a path that responds, with no record unsettled: 0x5A17 arms the path's sequence and leaves the unlock as it
was; 0xC3E8 on an armed sequence opens it; 0xC3E8 unarmed, and any other word, close it. A write of PAGE leaves the
sequence; a write of a register of another page ends it and leaves the unlock. UNLOCK_TIMEOUT closes it. The other
path's unlock and all registers stay as they were. (R32) -/
def Obligations.UnlockSequenceOpensOnePath : Prop :=
  ∀ (p : Path) (v : Word) (s : State), s.Settled →
    (s.pathUp p = true →
      (v = 0x5A17 → Ends (.unlockWrite p v) s (fun t => (t.path p).armed = true ∧
        (t.path p).opened = (s.path p).opened ∧ t.regs = s.regs)) ∧
      (v = 0xC3E8 → (s.path p).armed = true → Ends (.unlockWrite p v) s (fun t => (t.path p).opened = true ∧
        (t.path p).armed = false ∧ t.regs = s.regs)) ∧
      (v ≠ 0x5A17 → (v ≠ 0xC3E8 ∨ (s.path p).armed = false) → Ends (.unlockWrite p v) s (fun t =>
        (t.path p).opened = false ∧ (t.path p).armed = false ∧ t.regs = s.regs)) ∧
      (∀ off : BitVec 7, (off = 0 → Ends (.registerWrite p off v) s (fun t =>
          (t.path p).armed = (s.path p).armed ∧ (t.path p).opened = (s.path p).opened)) ∧
        (off ≠ 0 → (s.path p).page ≠ 0 → (s.path p).page < 0x11 ∨ p = .remote → Ends (.registerWrite p off v) s (fun t =>
          (t.path p).armed = false ∧ (t.path p).opened = (s.path p).opened)))) ∧
    Ends (.unlockTimeout p) s (fun t => (t.path p).opened = false ∧ t.regs = s.regs ∧
      ∀ q, q ≠ p → t.path q = s.path q)

/-- With no record unsettled, from boot step 4 on while RST# is high. A pulse whose code is a source that waits in the
fabric leaves it; it belongs to the SYSCLK edge that it carries. For every route of that source whose destination has
not acted on that edge, the destination acts: the trigger of a timer that runs and is not frozen is set (0x10 to
0x17), SYNCO pulses (0x20), interrupt EVRU sets (0x21), every lamp's request that waits for the event falls due
(0x22), the output pin of such a timer pulses (0x30 to 0x37). A destination that has acted on that edge does not act
again. A source that waits nowhere pulses on the present edge, unless it has pulsed less than 2 edges before, when
nothing happens. A code that is no source leaves the state. GT_PIN_PULSE_END and SYNCO_PULSE_END end their pulses and
change nothing else. (R37, R38, R352, 02_register_model.md) -/
def Obligations.EventPulsesReachTheirDestinations : Prop :=
  ∀ s : State, s.Settled →
    (4 ≤ s.pwr.boot → s.pwr.rstLow = false → ∀ src : Byte,
      (fabricSource src.toNat = false → exec (.eventFabricPulse src) s = .next s) ∧
      (fabricSource src.toNat = true →
        (∀ e, s.fabric.find? (fun x => x.1 == src.toNat) = some e →
          Ends (.eventFabricPulse src) s (fun t => t.fabric = s.fabric.erase e ∧ t.actedAt = e.2 ∧
            ∀ i, i < 32 → getBits (s.reg (R.EVR_ROUTE0 + 64 * i)) 7 0 = src.toNat →
              let d := getBits (s.reg (R.EVR_ROUTE0 + 64 * i)) 15 8
              d ∈ t.acted ∧
              (d ∉ s.acted ∨ e.2 ≠ s.actedAt →
                (d = 0x20 → t.pwm.synco = true) ∧ (d = 0x21 → t.flag F.IRQ_STAT_HI_EVRU = true) ∧
                (s.gtu.length = 8 → 0x10 ≤ d → d ≤ 0x17 →
                  s.gtAlive (d - 0x10) = true ∨ s.gtSlow (d - 0x10) = true → (t.gt (d - 0x10)).trig = true) ∧
                (s.gtu.length = 8 → 0x30 ≤ d → d ≤ 0x37 → s.flag (F.GTU_PIN_OE.at (d - 0x30)) = true →
                  (s.gt (d - 0x30)).run = true → s.gtFrozen (d - 0x30) = false → (t.gt (d - 0x30)).pulse = true) ∧
                (s.fde.lamps.length = 8 → d = 0x22 → ∀ l, l < 8 → ∀ y, (s.flamp l).pend = some y → y.2.1 = .evr →
                  (t.flamp l).due = true)) ∧
              (d ∈ s.acted → e.2 = s.actedAt →
                (d = 0x20 → t.pwm.synco = s.pwm.synco) ∧
                (d = 0x21 → t.flag F.IRQ_STAT_HI_EVRU = s.flag F.IRQ_STAT_HI_EVRU) ∧
                (0x10 ≤ d → d ≤ 0x17 → (t.gt (d - 0x10)).trig = (s.gt (d - 0x10)).trig)))) ∧
        (s.fabric.find? (fun x => x.1 == src.toNat) = none →
          s.rested src.toNat = false →
          exec (.eventFabricPulse src) s = .next s) ∧
        (s.fabric.find? (fun x => x.1 == src.toNat) = none →
          s.rested src.toNat = true →
          Ends (.eventFabricPulse src) s (fun t => t.actedAt = s.cyc ∧ t.fabric = s.fabric ∧
            ∀ i, i < 32 → getBits (s.reg (R.EVR_ROUTE0 + 64 * i)) 7 0 = src.toNat →
              let d := getBits (s.reg (R.EVR_ROUTE0 + 64 * i)) 15 8
              (d ∉ s.acted ∨ s.cyc ≠ s.actedAt → (d = 0x20 → t.pwm.synco = true) ∧
                (d = 0x21 → t.flag F.IRQ_STAT_HI_EVRU = true)))))) ∧
    (s.pwr.boot < 4 ∨ s.pwr.rstLow = true → ∀ src : Byte, exec (.eventFabricPulse src) s = .next s) ∧
    (∀ n : Fin 8, s.gtu.length = 8 → Ends (.gtPinPulseEnd n) s (fun t => (t.gt n).pulse = false ∧
      (∀ m, m ≠ n.val → t.gt m = s.gt m) ∧ t.regs = s.regs ∧ { t with gtu := s.gtu } = s)) ∧
    exec .syncoPulseEnd s = .next { s with pwm := { s.pwm with synco := false } }

/-- With no record unsettled, on a path that responds. A SYS_CTL word with the reset key resets on both paths, and a
live trip condition acts again; without the key a word with GO on the host path sets HOST where it was 0, starts the
watchdog with 0x5A5A and ends the hosted wait, and does nothing to HOST and the watchdog where HOST is 1, where GO is
0 or on the remote path. The HOLD bit of a host word without the key is stored, that of a remote one is not. Hold
begins and ends by SYS_CTL or by JTAG; where it becomes active a channel that HOLDM names and that runs freezes, where
it ends none is frozen. The expected kick restarts the armed watchdog and alternates, any other sets BADK, and an
unarmed watchdog and the remote path take none. At its expiry and at the end of a hosted wait host level slots empty
and HOST clears; the commands do nothing where their condition is not met. (R39, R40, R41, R42, R43, R46, R404) -/
def Obligations.PortAndHoldCommandsTakeEffect : Prop :=
  ∀ s : State, s.Settled →
    (∀ (p : Path) (v : Word), s.pathUp p = true →
      (softKey v = false →
        (p = .host → v.getLsbD 0 = true → s.flag F.SYS_MODE_HOST = false →
          Ends (.go p v) s (fun t => t.flag F.SYS_MODE_HOST = true ∧ t.pwr.kick = 0x5A5A ∧ t.pwr.kickAt = s.cyc ∧
            (s.fld F.SYS_MODE_STATE = 0 → t.pwr.leave = true ∧ t.pwr.goAt = s.cyc))) ∧
        (p = .remote ∨ v.getLsbD 0 = false ∨ s.flag F.SYS_MODE_HOST = true →
          Ends (.go p v) s (fun t => t.flag F.SYS_MODE_HOST = s.flag F.SYS_MODE_HOST ∧ t.pwr = s.pwr)) ∧
        (p = .host → Ends (.go p v) s (fun t => t.flag F.SYS_CTL_HOLD = v.getLsbD 2)) ∧
        (p = .remote → Ends (.go p v) s (fun t => t.regs = s.regs))) ∧
      (softKey v = true → Ends (.softReset p v) s (fun t => t.pwr.boot = 4 ∧ t.pwr.softRst = true ∧ t.q7 = [] ∧
        (∀ e ∈ t.fabric, e.1 = 0x74) ∧ t.fde = {} ∧ t.mac = {} ∧ t.fld F.PWR_LRST_CAUSE = 5)) ∧
      (softKey v = false → p = .remote → Ends (.softReset p v) s (fun t => t.regs = s.regs ∧ t.pwr = s.pwr)) ∧
      (softKey v = false → p = .host → Ends (.softReset p v) s (fun t => t.flag F.SYS_CTL_HOLD = v.getLsbD 2 ∧
        t.pwr.boot = s.pwr.boot)) ∧
      (p = .host → s.hwdArmed = true → v = s.pwr.kick →
        Ends (.hwdKick p v) s (fun t => t.pwr.kickAt = s.cyc ∧ t.pwr.kick = (if v = 0x5A5A then 0xA5A5 else 0x5A5A) ∧
          t.regs = s.regs)) ∧
      (p = .host → s.hwdArmed = true → v ≠ s.pwr.kick →
        Ends (.hwdKick p v) s (fun t => t.flag F.HWD_CTL_BADK = true ∧ t.pwr = s.pwr)) ∧
      (p = .remote ∨ s.hwdArmed = false → Ends (.hwdKick p v) s (fun t => t.regs = s.regs ∧ t.pwr = s.pwr))) ∧
    (s.coreOn = true →
      Ends (.holdBegin false) s (fun t => t.flag F.SYS_CTL_HOLD = true) ∧
      Ends (.holdBegin true) s (fun t => t.pwr.jtagHold = true) ∧
      Ends (.holdEnd false) s (fun t => t.flag F.SYS_CTL_HOLD = false) ∧
      Ends (.holdEnd true) s (fun t => t.pwr.jtagHold = false) ∧
      (∀ n, n < 16 → s.pwm.chans.length = 16 → s.holdActive = false → s.flag (F.PWM_CTL_HOLDM.at n) = true →
        (s.chan n).run = true → Ends (.holdBegin false) s (fun t => (t.chan n).frozen = true)) ∧
      (∀ n, n < 16 → s.pwm.chans.length = 16 → s.flag F.SYS_CTL_HOLD = true → s.pwr.jtagHold = false →
        Ends (.holdEnd false) s (fun t => (t.chan n).frozen = false)) ∧
      (s.hwdArmed = true → Ends .hwdExpiry s (fun t => t.flag F.SYS_MODE_HOST = false ∧ t.flag F.SYS_RSTC_HWDF = true ∧
        t.flag F.HWD_CTL_EXP = true ∧ (s.fde.lamps.length = 8 → ∀ l, l < 8 → ((t.flamp l).slot 4) = none)))) ∧
    (s.coreOn = false → ∀ b, exec (.holdBegin b) s = .next s ∧ exec (.holdEnd b) s = .next s) ∧
    (s.hwdArmed = false ∨ s.coreOn = false → exec .hwdExpiry s = .next s) ∧
    (s.awaitsGo = true → Ends .hwdBootTimeout s (fun t => t.flag F.SYS_MODE_HOST = false ∧
      t.flag F.SYS_BOOT_STANDALONE = true ∧ t.flag F.SYS_RSTC_HWDF = true ∧ t.pwr.leave = true ∧ t.pwr.goAt = s.cyc)) ∧
    (s.awaitsGo = false → exec .hwdBootTimeout s = .next s)

/-- For every state. HD15 to HD0 carry the word last read on the host path while HCS# and HRD# are low and the port is
up, and are high-impedance otherwise. HWAIT# is high-impedance exactly while HCS# is high or the port is not up. HIRQ#
and HNMI# are low exactly where an enabled interrupt bit or an NMI bit is set, and high-impedance while the port is
not up. In KEEP or without good AVDD SYNCO and every timer pin are high-impedance; in LIT with good AVDD, before
replay ends or with RST# low, SYNCO is low and the timer pins are high-impedance; afterwards SYNCO follows its pulse.
After a LO read on the host path the data pins carry the word that it returned. (R18, R19, R22, R33, R36, R509, R510)
-/
def Obligations.PinsCarryTheirLevels : Prop :=
  ∀ s : State,
    (∀ hcs hrd : Bool, hcs = true ∨ hrd = true ∨ s.pathUp .host = false → s.hdPins hcs hrd = none) ∧
    (s.pathUp .host = true → s.hdPins false false = some s.host.last) ∧
    (∀ hcs : Bool, s.hwaitPin hcs = .off ↔ (hcs = true ∨ s.pathUp .host = false)) ∧
    (s.pathUp .host = true →
      (s.hirqPin = .low ↔ (s.reg R.IRQ_STAT_LO &&& s.reg R.IRQ_EN_LO ≠ 0 ∨ s.reg R.IRQ_STAT_HI &&& s.reg R.IRQ_EN_HI ≠ 0)) ∧
      (s.hnmiPin = .low ↔ s.reg R.NMI_STAT ≠ 0)) ∧
    (s.pathUp .host = false → s.hirqPin = .off ∧ s.hnmiPin = .off) ∧
    (s.pwr.boot = 0 ∨ s.flag F.PWR_STAT_AVDDG = false → s.syncoPin = .off ∧ ∀ n, s.gtPad n = .off) ∧
    (1 ≤ s.pwr.boot → s.flag F.PWR_STAT_AVDDG = true →
      (s.pwr.boot < 6 ∨ s.pwr.rstLow = true → s.syncoPin = .low ∧ ∀ n, s.gtPad n = .off) ∧
      (6 ≤ s.pwr.boot → s.pwr.rstLow = false → s.syncoPin = (if s.pwm.synco then .high else .low))) ∧
    (s.pathUp .host = true → s.Settled → ∀ off : BitVec 7, off ≠ 0 → s.host.page < 0x11 → pairLo s.host.page off.toNat = true →
      ∀ r, regDef s.host.page off.toNat = some r → ∀ i, s.indexes s.host.page r.count = [i] →
      Ends (.pairLoRead .host off) s (fun t =>
        t.hdPins false false = some (s.word .host s.host.page off.toNat i &&& fieldsMask r.flds)))

/-- On a path that responds, with no record unsettled. With SYS_UNLOCK open: a write of LMP_MAP stages its word for
the lamp that LMP_SEL names; a write of LMP_CFG pairs its word with the mapping staged for that lamp, or with the one
already paired where none is, and takes the staged one; both leave the registers; opening copies the tables in force
into the edit copy and sets EDIT; closing an open edit copy that passes the checks sets TABPEND, one that fails sets
TABERR and LMP_TERR with the code and the word and clears TABPEND; saving sets SAVEPEND where the vault has room and
VLT_ERR code 3 where not. Closed, and for a close without an open edit copy, no register and no table changes. (R28,
R48, R50, R53, R432) -/
def Obligations.LampMappingsAndTablesAreStaged : Prop :=
  ∀ (p : Path) (v : Word) (s : State), s.Settled → s.pathUp p = true →
    (s.unlocked p = true →
      Ends (.lmpMapWrite p v) s (fun t => t.regs = s.regs ∧
        t.lmp = { s.lmp with smap := s.lmp.smap.set (s.fld F.LMP_SEL_LAMP) (some v) }) ∧
      Ends (.lmpCfgWrite p v) s (fun t => t.regs = s.regs ∧
        let l := s.fld F.LMP_SEL_LAMP
        let map := (s.lmp.smap.getD l none).or ((s.lmp.scfg.getD l none).bind Prod.snd)
        t.lmp = { s.lmp with scfg := s.lmp.scfg.set l (some (v &&& 0x0737, map)), smap := s.lmp.smap.set l none }) ∧
      Ends (.lmpTabOpen p) s (fun t => t.flag F.LMP_STAT_EDIT = true ∧ t.lmp = { s.lmp with edit := s.lmp.active }) ∧
      (s.flag F.LMP_STAT_EDIT = true →
        (s.lmpFail s.lmp.edit = none → Ends (.lmpTabClose p) s (fun t => t.flag F.LMP_STAT_TABPEND = true ∧
          t.lmp = s.lmp)) ∧
        (∀ c a, s.lmpFail s.lmp.edit = some (c, a) → Ends (.lmpTabClose p) s (fun t =>
          t.flag F.LMP_STAT_TABERR = true ∧ t.reg R.LMP_TERR = BitVec.ofNat 16 (c * 4096 + a) ∧
          t.flag F.LMP_STAT_TABPEND = false ∧ t.flag F.LMP_STAT_EDIT = true ∧ t.lmp = s.lmp))) ∧
      (s.flag F.LMP_STAT_EDIT = false → Ends (.lmpTabClose p) s (fun t => t.regs = s.regs ∧ t.lmp = s.lmp)) ∧
      (s.vRoom 2 = true → Ends (.lmpTabSave p) s (fun t => t.flag F.LMP_STAT_SAVEPEND = true)) ∧
      (s.vRoom 2 = false → Ends (.lmpTabSave p) s (fun t => t.fld F.VLT_ERR_CODE = 3 ∧
        t.flag F.VLT_STAT_REFUSED = true ∧ t.vlt = s.vlt))) ∧
    (s.unlocked p = false →
      ∀ c ∈ [Instr.lmpMapWrite p v, .lmpCfgWrite p v, .lmpTabOpen p, .lmpTabClose p, .lmpTabSave p],
        Ends c s (fun t => t.regs = s.regs ∧ t.lmp = s.lmp ∧ t.vlt = s.vlt))

/-- With no record unsettled and the state in its form. A fade tick outside START leaves no request and no staged
mapping waiting, clears both TABPEND bits and chooses LIT-RUN or LIT-IDLE; it is skipped before replay ends, in reset,
past a declared mains loss and in a hold that stops the engine. A minute past the last one evaluated is evaluated:
each entry that fires on it asks for its plate at level 1. A pending start whose instant has come is due. Slots whose
hold has run out, by slot, by rule or by gesture, are empty, the lamps of other rules stay. A gesture that is complete
2 s after mains returned clears the taps and raises HC39; with GESEN and action 1 it asks for its plate at level 6;
more than 4 taps post event 0x004 with the count. A node that has missed LOSST benches enters LOSS, which asks for its
plate at level 7. Where its condition does not hold each leaves the state as it was. (R81, R86, R88, R95, R100, R102,
R103, R105, R334) -/
def Obligations.TimedEffectsOfTheFadeEngine : Prop :=
  ∀ s : State, s.Settled → s.Shape →
    (6 ≤ s.pwr.boot → s.pwr.loss ≤ 1 → s.pwr.rstLow = false → (s.holdActive && s.flag F.HOLD_CTL_FDE) = false →
      (s.fld F.SYS_MODE_STATE ≠ 0 ∨ s.pwr.leave = true) →
      Ends .fadeTick s (fun t => t.fde.reqs = [] ∧ t.flag F.FDE_STAT_TABPEND = false ∧
        t.flag F.LMP_STAT_TABPEND = false ∧ (t.fld F.SYS_MODE_STATE = 1 ∨ t.fld F.SYS_MODE_STATE = 2) ∧
        (∀ l, l < 8 → t.lmp.scfg.getD l none = none))) ∧
    (s.pwr.boot < 6 ∨ 1 < s.pwr.loss ∨ s.pwr.rstLow = true ∨ (s.holdActive && s.flag F.HOLD_CTL_FDE) = true →
      exec .fadeTick s = .next s) ∧
    (s.flag F.FDE_STAT_TVALID = true → s.tim.jump = false → s.fde.replay = false →
      (∀ m, s.fde.minute = some m → m < s.localMinute →
        Ends .scheduleMinute s (fun t => t.fde.minute = some s.localMinute)) ∧
      (s.fde.minute = some (s.localMinute - 1) → s.flag F.FDE_CTL_SCHEN = true → 0 ≤ s.localMinute → ∀ e, e < 128 →
        fireMinute s.fde.active e (s.localMinute.toNat / 1440) = some (s.localMinute.toNat % 1440) →
        Ends .scheduleMinute s (fun t => ∃ q ∈ t.fde.reqs, q.lvl = 1 ∧ q.start = .now ∧
          q.plate = some (s.entryPlate e (getBits (fdeAt s.fde.active 2 (8 * e + 1)) 15 8)))) ∧
      (∀ m, s.fde.minute = some m → s.localMinute ≤ m → exec .scheduleMinute s = .next s) ∧
      (s.fde.minute = none → exec .scheduleMinute s = .next s)) ∧
    (s.flag F.FDE_STAT_TVALID = false ∨ s.tim.jump = true ∨ s.fde.replay = true → exec .scheduleMinute s = .next s) ∧
    (∀ (l : Fin 8) y, (s.flamp l).pend = some y → ∀ i, y.2.1 = .instant i →
      (s.dueNow (.instant i) = true → Ends (.timedStartDue l) s (fun t => (t.flamp l).due = true ∧
        (t.flamp l).pend = (s.flamp l).pend)) ∧
      (s.dueNow (.instant i) = false → exec (.timedStartDue l) s = .next s)) ∧
    (∀ l k : Fin 8, (∀ x, (s.flamp l).slot k = some x → x.holdOver = true →
        Ends (.slotHoldExpiry l k) s (fun t => (t.flamp l).slot k = none ∧ ∀ m, m ≠ l.val → t.flamp m = s.flamp m)) ∧
      ((∀ x, (s.flamp l).slot k = some x → x.holdOver = false) → exec (.slotHoldExpiry l k) s = .next s)) ∧
    (∀ r : Fin 32, Ends (.ruleHoldEnd r) s (fun t => ∀ l, l < 8 →
      (∀ x, (s.flamp l).slot 2 = some x → x.rule = some r.val → x.holdOver = true → (t.flamp l).slot 2 = none) ∧
      ((∀ x, (s.flamp l).slot 2 = some x → ¬ (x.rule = some r.val ∧ x.holdOver = true)) → t.flamp l = s.flamp l))) ∧
    (∀ l : Fin 8, (∀ x, (s.flamp l).slot 6 = some x → s.gesExpired x.wrote = true →
        Ends (.gestureHoldExpiry l) s (fun t => (t.flamp l).slot 6 = none ∧ ∀ m, m ≠ l.val → t.flamp m = s.flamp m)) ∧
      ((∀ x, (s.flamp l).slot 6 = some x → s.gesExpired x.wrote = false) → exec (.gestureHoldExpiry l) s = .next s)) ∧
    (s.keep.taps ≠ 0 → s.keep.off = false → s.pwr.boot ≠ 0 → s.keep.lastRet + 2 * 2 ^ 48 ≤ s.keep.elapsed →
      Ends .gestureComplete s (fun t => t.keep.taps = 0 ∧ (s.flag F.FDE_CTL_GESEN = false → t.fde = s.fde)) ∧
      (4 < s.keep.taps → s.q6 = [] → Ends .gestureComplete s (fun t => t.fde = s.fde ∧
        ∃ r ∈ t.q6, r.cls = 9 ∧ r.ev = 4 ∧ r.detail = s.keep.taps % 65536)) ∧
      (s.keep.taps ≤ 4 → s.flag F.FDE_CTL_GESEN = true →
        getBits (fdeAt s.fde.active 6 (s.keep.taps - 1)) 15 12 = 1 →
        Ends .gestureComplete s (fun t => ∃ q ∈ t.fde.reqs, q.lvl = 6 ∧ q.start = .now ∧ q.plate =
          some { plate := getBits (fdeAt s.fde.active 6 (s.keep.taps - 1)) 7 0, mask := s.fld F.FDE_GES_LAMPS }))) ∧
    (s.keep.taps = 0 ∨ s.keep.off = true ∨ s.pwr.boot = 0 ∨ s.keep.elapsed < s.keep.lastRet + 2 * 2 ^ 48 →
      exec .gestureComplete s = .next s) ∧
    (s.fld F.FDE_LOSS_LOSST ≠ 0 → s.isHead = false → s.fld F.FDE_LOSS_LOSST ≤ (s.reg R.MAC_BSINCE).toNat →
      s.flag F.FDE_STAT_LOSS = false → Ends .lossEntry s (fun t => t.flag F.FDE_STAT_LOSS = true ∧
        t.flag F.FDE_STAT_LOSSCH = true ∧ t.fde.lossM = s.fld F.FDE_LOSSM_LAMPS ∧ ∃ q ∈ t.fde.reqs, q.lvl = 7 ∧
        q.plate = some { plate := s.fld F.FDE_LOSS_PLATE, mask := s.fld F.FDE_LOSSM_LAMPS })) ∧
    (s.fld F.FDE_LOSS_LOSST = 0 ∨ s.isHead = true ∨ (s.reg R.MAC_BSINCE).toNat < s.fld F.FDE_LOSS_LOSST ∨
      s.flag F.FDE_STAT_LOSS = true → exec .lossEntry s = .next s)

/-- On a path that responds, with no record unsettled. On the host path without a host a command of FDE_RCMD reads
NOHOST; with no lamp in FDE_RMASK, or a timed form with more than 999 ms, it reads INVALID; both queue nothing. Either
way an earlier command of the path no longer answers in its FDE_RSTAT (FdeState.forget). Any other reads PENDING and
queues one request of the path's owner level, with the start that its form names: for values one and the same for each
lamp of the mask, for a plate a reference whose words are read when the request is taken; RELEASE queues the release.
With SYS_UNLOCK open the tables open, close (TABPEND, or TABERR with FDE_TERR and FDE_TERRA and TABPEND cleared) and
save as page LMP does; closed they do nothing. (R87, R88, R89, R107, R110) -/
def Obligations.LampRequestsAndFadeTables : Prop :=
  ∀ (p : Path) (plate : Byte) (s : State), s.Settled → s.pathUp p = true →
    let mask := s.fld F.FDE_RMASK_LAMPS
    let ms := s.fld F.FDE_RMS_MS
    let w := (s.reg R.FDE_RT).toNat
    let hold := (s.reg R.FDE_RHOLD).toNat
    let at_ := StartAt.instant (instantMs (s.pair R.FDE_RTIME_LO) ms)
    let vals := (maskLamps mask).map (fun l => (l, valueReq (s.reg R.FDE_RB) (s.reg R.FDE_RC1) (s.reg R.FDE_RC2) w
      (s.reg R.FDE_RFLG) hold))
    let plat : PlateRef := { plate := plate.toNat, mask := mask, fade := if w = 65535 then none else some w, hold := hold }
    (∀ c ∈ [Instr.fdeRcmdApply p, .fdeRcmdApplyAt p, .fdeRcmdApplyEvr p, .fdeRcmdPlate p plate, .fdeRcmdPlateAt p plate,
        .fdeRcmdPlateEvr p plate, .fdeRcmdRelease p],
      (p = .host → s.flag F.SYS_MODE_HOST = false →
        Ends c s (fun t => (t.path p).rstat = 6 ∧ t.fde = s.fde.forget p ∧ t.regs = s.regs)) ∧
      ((p = .host → s.flag F.SYS_MODE_HOST = true) → mask = 0 →
        Ends c s (fun t => (t.path p).rstat = 5 ∧ t.fde = s.fde.forget p ∧ t.regs = s.regs))) ∧
    ((p = .host → s.flag F.SYS_MODE_HOST = true) → 999 < ms → ∀ c ∈ [Instr.fdeRcmdApplyAt p, .fdeRcmdPlateAt p plate],
      Ends c s (fun t => (t.path p).rstat = 5 ∧ t.fde = s.fde.forget p ∧ t.regs = s.regs)) ∧
    ((p = .host → s.flag F.SYS_MODE_HOST = true) → mask ≠ 0 →
      (∀ x ∈ [(Instr.fdeRcmdApply p, StartAt.now, true), (.fdeRcmdApplyAt p, at_, true), (.fdeRcmdApplyEvr p, .evr, true),
          (.fdeRcmdPlate p plate, .now, false), (.fdeRcmdPlateAt p plate, at_, false), (.fdeRcmdPlateEvr p plate, .evr, false)],
        (x.2.1 = at_ → ms ≤ 999) →
        Ends x.1 s (fun t => (t.path p).rstat = 1 ∧ t.regs = s.regs ∧
          { t.fde with reqs := s.fde.reqs } = { s.fde.forget p with reqs := s.fde.reqs } ∧
          ∃ q : QReq, t.fde.reqs = (s.fde.forget p).reqs ++ [q] ∧ q.lvl = pathLevel p ∧ q.start = x.2.1 ∧
            q.lamps = (if x.2.2 then vals else []) ∧ q.plate = (if x.2.2 then none else some plat) ∧
            q.by_ = some p ∧ q.reply = none)) ∧
      Ends (.fdeRcmdRelease p) s (fun t => (t.path p).rstat = 1 ∧ t.regs = s.regs ∧
        t.fde = { s.fde.forget p with rels := (s.fde.forget p).rels ++ [(pathLevel p, mask, w, some p, none)] })) ∧
    (s.unlocked p = true →
      Ends (.fdeTabOpen p) s (fun t => t.flag F.FDE_STAT_EDIT = true ∧ t.fde = { s.fde with edit := s.fde.active }) ∧
      (s.flag F.FDE_STAT_EDIT = true →
        (fdeFail s.fde.edit = none → Ends (.fdeTabClose p) s (fun t => t.flag F.FDE_STAT_TABPEND = true ∧ t.fde = s.fde)) ∧
        (∀ c k a, fdeFail s.fde.edit = some (c, k, a) → Ends (.fdeTabClose p) s (fun t =>
          t.flag F.FDE_STAT_TABERR = true ∧ t.reg R.FDE_TERR = BitVec.ofNat 16 (c * 4096 + k) ∧
          t.reg R.FDE_TERRA = BitVec.ofNat 16 a ∧ t.flag F.FDE_STAT_TABPEND = false ∧ t.flag F.FDE_STAT_EDIT = true ∧ t.fde = s.fde))) ∧
      (s.flag F.FDE_STAT_EDIT = false → Ends (.fdeTabClose p) s (fun t => t.regs = s.regs ∧ t.fde = s.fde)) ∧
      (s.vRoom 2 = true → Ends (.fdeTabSave p) s (fun t => t.flag F.FDE_STAT_SAVEPEND = true)) ∧
      (s.vRoom 2 = false → Ends (.fdeTabSave p) s (fun t => t.fld F.VLT_ERR_CODE = 3 ∧ t.vlt = s.vlt))) ∧
    (s.unlocked p = false → ∀ c ∈ [Instr.fdeTabOpen p, .fdeTabClose p, .fdeTabSave p],
      Ends c s (fun t => t.regs = s.regs ∧ t.fde = s.fde ∧ t.vlt = s.vlt))

/-- With no record unsettled and the state in its form. A write of PWM_ENA stores it; a channel whose bit rises begins
a soft start, and runs from its phase where it may start (State.mayStart but for the bit), one whose bit falls stops
with both gates low, others stay. A shadow write stores its word for each selected channel; for CMPA, or with GRP = 0,
it makes the set pending where the channel is enabled and loads it where not. Count 0 comes after PER with nothing of
the period undone: it loads a pending set unless UPD is mid-period alone, drives HG low where the gates are off or
safe, and shows GATED where the burst gate is shut. The mid-period load point loads the pending set, and cuts the
period with PCUT where the new PER lies at or below it. CMPA, CMPB and PER are reached once a period with nothing due
before, and raise their event where enabled and the prescaler reads 0; CMPA ends HG, CMPB ends blanking. Other
channels stay. Where its condition does not hold a command leaves the state as it was. A source that pulsed within the
last 2 cycles gives no second pulse (R38). (R112, R113, R114, R115, R116, R117, R123, R125, R127, R128, R129, R143) -/
def Obligations.SwitchingPeriodsRunAndLoadTheirSets : Prop :=
  ∀ s : State, s.Settled → s.Shape →
    (∀ (p : Path) (v : Word), s.pathUp p = true →
      Ends (.pwmEnaWrite p v) s (fun t => t.reg R.PWM_ENA = v ∧ ∀ n, n < 16 →
        (v.getLsbD n = true → s.bit R.PWM_ENA n = false → t.flag (F.CUR_CSTAT_SSL.at n) = true) ∧
        (v.getLsbD n = true → s.bit R.PWM_ENA n = false → s.litRun = true → s.clk.good = true → s.lat n = 0 →
          s.flag F.PWR_STAT_VDRVG = true → s.pwr.loss < 2 → (s.chan n).run = false →
          (t.chan n).run = true ∧ (t.chan n).cnt = (s.reg (R.PWM_PHS + n)).toNat % ((s.chan n).per + 1)) ∧
        (v.getLsbD n = false → s.bit R.PWM_ENA n = true → (t.chan n).run = false ∧ (t.chan n).hg = false ∧
          (t.chan n).lg = false) ∧
        (v.getLsbD n = s.bit R.PWM_ENA n → t.chan n = s.chan n)) ∧
      ∀ r : ShadowReg, Ends (.pwmShadowWrite p r v) s (fun t => ∀ n, n < 16 →
        (n ∈ s.pwmSel → t.reg (shadowKey r + n) = (if r = .fine then v &&& 0xF else v) ∧
          (r = .cmpa ∨ s.flag (F.PWM_CTL_GRP.at n) = false →
            (s.bit R.PWM_ENA n = true → t.flag (F.PWM_STAT_PEND.at n) = true ∧ t.chan n = s.chan n) ∧
            (s.bit R.PWM_ENA n = false → t.flag (F.PWM_STAT_PEND.at n) = false ∧
              (t.chan n).per = clampPer (t.reg (R.PWM_PER + n)).toNat ∧
              (t.chan n).cmpa = (t.reg (R.PWM_CMPA + n)).toNat ∧ (t.chan n).cmpb = (t.reg (R.PWM_CMPB + n)).toNat))) ∧
        (n ∉ s.pwmSel → t.reg (shadowKey r + n) = s.reg (shadowKey r + n) ∧ t.chan n = s.chan n))) ∧
    (∀ n : Fin 16,
      let c := s.chan n
      (∀ b, if s.ticking n = true ∧ c.pHit = true ∧ s.stops n = [] ∧ s.midWaits n = false then
        Ends (.pwmZero n b) s (fun t => (t.chan n).cnt = 0 ∧ (t.chan n).run = true ∧ (t.chan n).aHit = false ∧
          (t.chan n).bHit = false ∧ (t.chan n).pHit = false ∧ (t.chan n).upd = s.updOf n ∧
          (s.flag (F.PWM_STAT_PEND.at n) = true → c.upd ≠ 1 → t.flag (F.PWM_STAT_PEND.at n) = false ∧
            (t.chan n).per = clampPer (s.reg (R.PWM_PER + n)).toNat ∧ (t.chan n).cmpa = (s.reg (R.PWM_CMPA + n)).toNat ∧
            (t.chan n).cmpb = (s.reg (R.PWM_CMPB + n)).toNat ∧ (t.chan n).fine = s.fld (F.PWM_FINE_FINE.at n)) ∧
          (s.flag (F.PWM_STAT_PEND.at n) = false ∨ c.upd = 1 → (t.chan n).per = c.per ∧
            (t.chan n).cmpa = c.cmpa ∧ (t.chan n).cmpb = c.cmpb) ∧
          (s.gatesOff n = true ∨ s.chanSafe n = true → (t.chan n).hg = false ∧ (t.chan n).hgDue = false) ∧
          (s.gateShut n = true → t.flag (F.PWM_STAT_GATED.at n) = true) ∧
          ∀ m, m ≠ n.val → t.chan m = s.chan m)
        else exec (.pwmZero n b) s = .next s) ∧
      (if s.midMay n = true then
        Ends (.pwmMidLoad n) s (fun t => t.flag (F.PWM_STAT_PEND.at n) = false ∧
          (t.chan n).per = clampPer (s.reg (R.PWM_PER + n)).toNat ∧ (t.chan n).cmpa = (s.reg (R.PWM_CMPA + n)).toNat ∧
          (t.chan n).cmpb = (s.reg (R.PWM_CMPB + n)).toNat ∧
          (clampPer (s.reg (R.PWM_PER + n)).toNat ≤ c.per / 2 → (t.chan n).cnt = 0 ∧
            t.flag (F.PWM_STAT_PCUT.at n) = true) ∧
          (c.per / 2 < clampPer (s.reg (R.PWM_PER + n)).toNat →
            if c.hg = true ∧ c.fHg ≠ 2 ∧ (s.reg (R.PWM_CMPA + n)).toNat ≤ c.per / 2 then
              (t.chan n).hg = false ∧ (t.chan n).ended = 1 ∧ (t.chan n).cnt = c.per / 2 + 1
            else (t.chan n).hg = c.hg ∧ (t.chan n).cnt = c.per / 2) ∧
          ∀ m, m ≠ n.val → t.chan m = s.chan m)
        else exec (.pwmMidLoad n) s = .next s) ∧
      (if s.ticking n = true ∧ c.pHit = false ∧ s.reach n c.per = true then
        Ends (.pwmPeriod n) s (fun t => t.chan n = { c.goto c.per with pHit := true } ∧
          (s.flag (F.PWM_EVCTL_PERE.at n) = true → c.psc = 0 → s.rested (0x20 + n) = true → t.pulsed (0x20 + n) = true) ∧
          ∀ m, m ≠ n.val → t.chan m = s.chan m)
        else exec (.pwmPeriod n) s = .next s) ∧
      (if s.ticking n = true ∧ c.aHit = false ∧ s.reach n c.cmpa = true then
        Ends (.pwmCmpa n) s (fun t => t.regs = s.regs ∧ (t.chan n).cnt = c.cmpa ∧ (t.chan n).aHit = true ∧
          (if c.hg = true ∧ c.fHg ≠ 2 ∧ s.timed n = true then (t.chan n).hg = false ∧ (t.chan n).ended = 1 ∧
            (t.chan n).lgDue = (c.fLg != 1) ∧ (t.chan n).hgOff = c.cmpa else (t.chan n).hg = c.hg ∧ (t.chan n).lg = c.lg) ∧
          (s.flag (F.PWM_EVCTL_CMPAE.at n) = true → c.psc = 0 → s.rested (0x30 + n) = true → t.pulsed (0x30 + n) = true) ∧
          ∀ m, m ≠ n.val → t.chan m = s.chan m)
        else exec (.pwmCmpa n) s = .next s) ∧
      (if s.ticking n = true ∧ c.bHit = false ∧ s.reach n c.cmpb = true then
        Ends (.pwmCmpb n) s (fun t => t.regs = s.regs ∧
          t.chan n = { c.goto c.cmpb with bHit := true, armed := !c.burn } ∧
          (s.flag (F.PWM_EVCTL_CMPBE.at n) = true → c.psc = 0 → s.rested (0x40 + n) = true → t.pulsed (0x40 + n) = true) ∧
          ∀ m, m ≠ n.val → t.chan m = s.chan m)
        else exec (.pwmCmpb n) s = .next s))

/-- With no record unsettled and the state in its form, for a channel whose timing governs its gates and that comes to
the count v with nothing due before: the peak comparator past blanking in peak mode ends HG (with CMPB below CMPA, or
in a burnish period); SW low turns a pending LG on and measures DTHL; LG sensed low after it was commanded off is
noted, whatever governs the gates, and starts the DTMIN wait of a pending HG; its end turns HG on and measures DTLH
where LG was commanded off in this period, or forgoes it at or past CMPA; DTMAX after the command turns the pending
gate on regardless, measures DTMAX and sets DTCAP; zero current with ZCD turns LG off; BRN_W after its LG rose the
burnish pulse ends and HG is pending unless CMPA is 0, HG is forced off or the bootstrap comparator is active. The
bootstrap comparator withdraws a pending HG, sets BSTLOW and posts event 0x007 of class 3. Other channels stay. Where
the condition does not hold each leaves the state as it was. (R116, R118, R119, R120, R121, R122, R131, R133, R151,
R539) -/
def Obligations.GatesTurnAtTheirConditions : Prop :=
  ∀ s : State, s.Settled → s.Shape → ∀ (n : Fin 16) (v : Word),
    let c := s.chan n
    let t0 := v.toNat
    let at_ := if c.frozen then c.cnt else t0
    let up := s.timed n && s.reach n t0
    let cap := s.fld (F.PWM_DT_DTMAX.at n)
    (if up = true ∧ c.hg = true ∧ c.fHg ≠ 2 ∧ s.flag (F.PWM_CTL_MODE.at n) = false ∧ c.unblanked t0 = true ∧
        (c.burn = true ∨ c.cmpb < c.cmpa) then
      Ends (.peakComparatorEnd n v) s (fun t => (t.chan n).hg = false ∧ (t.chan n).ended = 2 ∧ (t.chan n).cnt = at_ ∧
        (t.chan n).hgOff = t0 ∧ (t.chan n).lgDue = (c.fLg != 1) ∧ t.regs = s.regs ∧ ∀ m, m ≠ n.val → t.chan m = s.chan m)
    else exec (.peakComparatorEnd n v) s = .next s) ∧
    (if up = true ∧ c.lgDue = true ∧ c.zcd = false then
      Ends (.swSensedLow n v) s (fun t => (t.chan n).lg = true ∧ (t.chan n).lgDue = false ∧ (t.chan n).lgOn = t0 ∧
        t.fld (F.PWM_DTMEAS_DTHL.at n) = min (t0 - c.hgOff).toNat 255 ∧ ∀ m, m ≠ n.val → t.chan m = s.chan m)
    else exec (.swSensedLow n v) s = .next s) ∧
    (let still := !c.run || (c.frozen && !c.forced1)
      let w := if still then c.cnt else t0
      if c.lg = false ∧ c.lgLow = none ∧ (still = true ∨ s.reach n t0 = true) then
      Ends (.lgSensedLow n v) s (fun t => t.chan n =
        { (if still then c else c.goto t0) with
          lgLow := some (w : Int)
          hgAt := if c.hgDue then some (w + s.fld (F.PWM_DT_DTMIN.at n) : Nat) else c.hgAt } ∧ t.regs = s.regs ∧
        ∀ m, m ≠ n.val → t.chan m = s.chan m)
    else exec (.lgSensedLow n v) s = .next s) ∧
    (c.hgAt = none → exec (.hgTurnOn n v) s = .next s) ∧
    (∀ a, c.hgAt = some a → if up = true ∧ c.hgDue = true ∧ t0 = max c.cnt a.toNat then
      Ends (.hgTurnOn n v) s (fun t => (t.chan n).hgDue = false ∧ (t.chan n).hgAt = none ∧
        (if c.fHg ≠ 2 ∧ c.cmpa ≤ t0 then (t.chan n).hg = c.hg ∧ (t.chan n).lgDue = (c.fLg != 1 && !c.burn) else
          (t.chan n).hg = true ∧ (t.chan n).rose = true ∧ (t.chan n).hgOn = t0 ∧
            (c.lgFell = true → t.fld (F.PWM_DTMEAS_DTLH.at n) = min (t0 - c.lgOff).toNat 255)) ∧
        ∀ m, m ≠ n.val → t.chan m = s.chan m)
    else exec (.hgTurnOn n v) s = .next s) ∧
    (if up = true ∧ c.lgDue = true ∧ c.zcd = false ∧ t0 = max c.cnt (c.hgOff + cap).toNat then
      Ends (.dtmaxExpiry n v) s (fun t => (t.chan n).lg = true ∧ (t.chan n).lgDue = false ∧
        t.flag (F.PWM_STAT_DTCAP.at n) = true ∧ t.fld (F.PWM_DTMEAS_DTHL.at n) = min cap 255 ∧
        ∀ m, m ≠ n.val → t.chan m = s.chan m)
    else if up = true ∧ c.hgDue = true ∧ t0 = max c.cnt (c.lgOff + cap).toNat then
      Ends (.dtmaxExpiry n v) s (fun t => (t.chan n).hgDue = false ∧ t.flag (F.PWM_STAT_DTCAP.at n) = true ∧
        (c.fHg = 2 ∨ t0 < c.cmpa → (t.chan n).hg = true ∧
          (c.lgFell = true → t.fld (F.PWM_DTMEAS_DTLH.at n) = min cap 255)) ∧ ∀ m, m ≠ n.val → t.chan m = s.chan m)
    else exec (.dtmaxExpiry n v) s = .next s) ∧
    (if up = true ∧ s.flag (F.PWM_CTL_ZCD.at n) = true ∧ c.lg = true ∧ (c.burn && !c.rose) = false ∧ c.fLg ≠ 2 then
      Ends (.zeroCurrentDetect n v) s (fun t => (t.chan n).lg = false ∧ (t.chan n).lgDue = false ∧ (t.chan n).zcd = true ∧
        (t.chan n).td = (t0 - c.hgOff).toNat ∧ t.regs = s.regs ∧ ∀ m, m ≠ n.val → t.chan m = s.chan m)
    else exec (.zeroCurrentDetect n v) s = .next s) ∧
    (∀ b, let e := max c.cnt (c.lgOn + s.fld (F.PWM_BRN_BRN_W.at n)).toNat
      if s.timed n = true ∧ s.reach n e = true ∧ c.burn = true ∧ c.lg = true ∧ c.rose = false ∧ c.fLg ≠ 2 then
      Ends (.burnishEnd n b) s (fun t => (t.chan n).lg = false ∧ (t.chan n).lgOff = e ∧
        (t.chan n).hgDue = (c.cmpa != 0 && c.fHg != 1 && !b) ∧ t.regs = s.regs ∧ ∀ m, m ≠ n.val → t.chan m = s.chan m)
    else exec (.burnishEnd n b) s = .next s) ∧
    (if s.coreOn = true then
      Ends (.bootstrapUvlo n) s (fun t => t.chan n = { c with bst := true, bstOn := true, hgDue := false, hgAt := none } ∧
        t.flag (F.PWM_STAT_BSTLOW.at n) = true ∧ (∀ m, m ≠ n.val → t.chan m = s.chan m) ∧
        (s.q6.length < 64 → ∃ r ∈ t.q6, r.cls = 3 ∧ r.ev = 7 ∧ r.detail = n.val))
    else exec (.bootstrapUvlo n) s = .next s)

/-- With no record unsettled and the state in its form. A write of PWM_FORCE with a reserved or double-on code stores
nothing, sets FERR and posts event 0x004 of class 3; any other is stored and armed for each selected channel. An armed
force with FORCE_AT = 1 waits for the boundary of a running channel; any other takes effect: where an order of R503
stands above it, or the channel does not run, it is only kept; else a forced-off gate is off and forcing one gate on
turns the other off. An over-current past blanking, a string over-voltage and an enabled TRIP pin latch their bit of
the channel: HG off, TRIPPED, TRIPSUM, and a retry wait or a lock; a string over-voltage after 8 periods without
current control marks it OPEN. LINKUV, LINKOV where enabled, and OT latch theirs on all channels, with the other
global sources then live; with the core off each only shows its live flag. Otherwise each leaves the state, or the
latches, as they were. (R116, R134, R135, R136, R137, R138, R139, R141, R171, R173, R174, R390) -/
def Obligations.ForcesAndTripsSetTheirLatches : Prop :=
  ∀ s : State, s.Settled → s.Shape →
    (∀ (p : Path) (v : Word), s.pathUp p = true → Ends (.pwmForceWrite p v) s (fun t => ∀ n, n < 16 → n ∈ s.pwmSel →
      let h := getBits v 3 2
      let l := getBits v 1 0
      if h = 3 ∨ l = 3 ∨ (h = 2 ∧ l = 2) then t.flag (F.PWM_STAT_FERR.at n) = true ∧
        t.reg (R.PWM_FORCE + n) = s.reg (R.PWM_FORCE + n) ∧ t.chan n = s.chan n ∧
        (s.q6 = [] → ∃ r ∈ t.q6, r.cls = 3 ∧ r.ev = 4 ∧ r.detail = n)
      else t.reg (R.PWM_FORCE + n) = v &&& 0x1F ∧ t.chan n = { s.chan n with fNew := some (h, l) })) ∧
    (∀ n : Fin 16, (s.chan n).fNew = none ∨ (s.flag (F.PWM_FORCE_FORCE_AT.at n) = true ∧ (s.chan n).run = true) →
      exec (.forceEffect n) s = .next s) ∧
    (∀ (n : Fin 16), ∀ x, (s.chan n).fNew = some x →
      s.flag (F.PWM_FORCE_FORCE_AT.at n) = false ∨ (s.chan n).run = false → Ends (.forceEffect n) s (fun t =>
      (t.chan n).fHg = x.1 ∧ (t.chan n).fLg = x.2 ∧ (t.chan n).fNew = none ∧ t.regs = s.regs ∧
      (∀ m, m ≠ n.val → t.chan m = s.chan m) ∧
      (s.chanSafe n = true ∨ s.gatesOff n = true ∨ (s.chan n).run = false →
        t.chan n = { s.chan n with fHg := x.1, fLg := x.2, fNew := none }) ∧
      (s.chanSafe n = false → s.gatesOff n = false → (s.chan n).run = true →
        (x.1 = 1 ∨ x.2 = 2 → (t.chan n).hg = false) ∧ (x.2 = 2 → (t.chan n).hgDue = false) ∧
        (x.2 = 1 → (t.chan n).lg = false ∧ (t.chan n).lgDue = false) ∧ (x.1 = 2 → x.2 ≠ 2 → (t.chan n).lg = false)))) ∧
    (∀ n : Fin 16, ∀ x ∈ [(Instr.overcurrentTrip n, (s.ocAt n).isSome, 0),
        (.stringOvervoltageTrip n, s.coreOn, 1)],
      (x.2.1 = false → exec x.1 s = .next s) ∧
      (x.2.1 = true → (s.lat n).getLsbD x.2.2 = false → Ends x.1 s (fun t => (t.lat n).getLsbD x.2.2 = true ∧
        (t.chan n).hg = false ∧ (t.chan n).restart = false ∧ t.flag (F.PWM_STAT_TRIPPED.at n) = true ∧
        t.bit R.PWM_TRIPSUM n = true ∧
        (x.2.2 = 1 → 8 ≤ (s.chan n).cmpaRun → t.flag (F.CUR_CSTAT_OPENL.at n) = true) ∧
        (x.2.2 = 0 ∨ (s.chan n).cmpaRun < 8 → s.lockedOff n = false → s.flag (F.CUR_CSTAT_WAITL.at n) = false →
          if s.fld F.CUR_CTL_RMAX ≤ s.fld (F.CUR_CSTAT_RCNT.at n) then t.flag (F.CUR_CSTAT_LOCKL.at n) = true
          else t.flag (F.CUR_CSTAT_WAITL.at n) = true) ∧
        ∀ m, m < 16 → m ≠ n.val → t.lat m = s.lat m)) ∧
      (x.2.1 = true → (s.lat n).getLsbD x.2.2 = true → Ends x.1 s (fun t => ∀ m, m < 16 → t.lat m = s.lat m))) ∧
    (∀ k : Fin 4, if s.pwmClk = true ∧ s.bit (R.PWM_TRIPSRC0 + 64 * k.val) 15 = true ∧ s.tripBlanked k = false then
      Ends (.tripPinActive k) s (fun t => ∀ n, n < 16 →
        if s.bit (R.PWM_TRIPMSK0 + 64 * k.val) n then (t.lat n).getLsbD (2 + k) = true else t.lat n = s.lat n)
      else exec (.tripPinActive k) s = .next s) ∧
    (∀ v : Byte, if s.coreOn = true then
      let live (uv ov ot : Bool) (b : Nat) : Bool := (b == 6 && uv && s.flag F.PWM_GTRIP_LINKUV) ||
        (b == 7 && ov && s.flag F.PWM_GTRIP_LINKOV) || (b == 8 && ot)
      let u := s.flag F.PWR_STAT_LINKUVL
      let o := s.flag F.PWR_STAT_LINKOVL
      Ends (.linkUndervoltage v) s (fun t => t.flag F.PWR_STAT_LINKUVL = true ∧ t.flag F.PWR_STAT_LINKUV = true ∧
        ∀ n, n < 16 → ∀ b, b < 16 → (t.lat n).getLsbD b = ((s.lat n).getLsbD b || live true o s.pwm.otLive b)) ∧
      Ends (.linkOvervoltage v) s (fun t => t.flag F.PWR_STAT_LINKOVL = true ∧ t.flag F.PWR_STAT_LINKOV = true ∧
        ∀ n, n < 16 → ∀ b, b < 16 → (t.lat n).getLsbD b = ((s.lat n).getLsbD b || live u true s.pwm.otLive b)) ∧
      Ends .overtemperature s (fun t => t.pwm.otLive = true ∧ ∀ n, n < 16 →
        (∀ b, b < 16 → (t.lat n).getLsbD b = ((s.lat n).getLsbD b || live u o true b)) ∧
        ((s.lat n).getLsbD 8 = false → (t.chan n).hg = false))
      else Ends (.linkUndervoltage v) s (fun t => t.flag F.PWR_STAT_LINKUVL = true ∧ ∀ n, n < 16 → t.lat n = s.lat n) ∧
        Ends (.linkOvervoltage v) s (fun t => t.flag F.PWR_STAT_LINKOVL = true ∧ ∀ n, n < 16 → t.lat n = s.lat n) ∧
        Ends .overtemperature s (fun t => t.pwm.otLive = true ∧ ∀ n, n < 16 → t.lat n = s.lat n))

/-- With no record unsettled and the state in its form. TRIP_CLEAR empties the latch of each selected channel that
holds none of the active sources, which restarts where it runs, and sets CLRREF of the others. The source that has
been inactive longest has then been so for 1 ms; with AUTO every latch that holds only global sources of which that is
true, none of them active, clears, and no other does. A global source that goes inactive clears its live flag and is
last of those that wait. The storm window restarts without bench timing. A frozen channel that times out goes to its
safe levels and posts event 0x005 of class 3. A SYNCI edge with SIEN loads PWM_PHS modulo PER + 1 into each masked
counter that runs; without it no channel changes. A PHREF pulse on an edge that passed a multiple of CUR_DPER
(State.phrefDue) reaches the fabric and the phase source follows. Otherwise each leaves the state as it was. (R140,
R141, R142, R144, R167, R168, R336) -/
def Obligations.TripsClearAndPhasesFollow : Prop :=
  ∀ s : State, s.Settled → s.Shape →
    (∀ (p : Path) (oc ov : Word) (pins : BitVec 4), s.pathUp p = true →
      Ends (.tripClear p oc ov pins) s (fun t => ∀ n, n < 16 →
        (n ∈ s.pwmSel → s.lat n ≠ 0 → s.activeBits n oc ov pins = 0 →
          t.lat n = 0 ∧ t.flag (F.PWM_STAT_TRIPPED.at n) = false ∧ ((s.chan n).run = true → (t.chan n).restart = true)) ∧
        (n ∈ s.pwmSel → s.activeBits n oc ov pins ≠ 0 → t.lat n = s.lat n ∧ t.flag (F.PWM_STAT_CLRREF.at n) = true) ∧
        (n ∉ s.pwmSel ∨ s.lat n = 0 → t.lat n = s.lat n ∧ t.chan n = s.chan n))) ∧
    (s.coreOn = true → Ends .globalTripAutoClear s (fun t =>
      t.pwm.waiting = s.pwm.waiting.drop 1 ∧ t.pwm.quiet = s.pwm.quiet ++ s.pwm.waiting.take 1 ∧
      ∀ n, n < 16 →
        if s.flag F.PWM_GTRIP_AUTO = true ∧ s.lat n ≠ 0 ∧ s.activeBits n 0 0 0 = 0 ∧
          (∀ b, b < 16 → (s.lat n).getLsbD b = true → 6 ≤ b ∧ b ≤ 8 ∧ b ∈ s.pwm.quiet ++ s.pwm.waiting.take 1) then t.lat n = 0
        else t.lat n = s.lat n)) ∧
    (s.coreOn = false → exec .globalTripAutoClear s = .next s) ∧
    (∀ x ∈ [(GlobalSrc.linkuv, 6), (.linkov, 7), (.ot, 8)], Ends (.globalTripSourceInactive x.1) s (fun t =>
      t.pwm.waiting = s.pwm.waiting.filter (· != x.2) ++ [x.2] ∧ (x.1 = .linkuv → t.flag F.PWR_STAT_LINKUVL = false) ∧
      (x.1 = .linkov → t.flag F.PWR_STAT_LINKOVL = false) ∧ (x.1 = .ot → t.pwm.otLive = false) ∧
      t.pwm.chans = s.pwm.chans)) ∧
    (if s.coreOn = true ∧ s.benchTimed = false then
      Ends .stormWindowRestart s (fun t => t.fld F.PWM_STORM_CNT = 0 ∧ t.pwm = { s.pwm with stormed := false } ∧
        t.fld F.PWM_STORM_TRIP_STORM = s.fld F.PWM_STORM_TRIP_STORM)
      else exec .stormWindowRestart s = .next s) ∧
    (∀ n : Fin 16, if (s.chan n).frozen = true ∧ s.flag (F.PWM_STAT_HOLDSAFE.at n) = false then
      Ends (.pwmHoldTimeout n) s (fun t => t.flag (F.PWM_STAT_HOLDSAFE.at n) = true ∧ (t.chan n).hg = false ∧
        (t.chan n).lg = s.flag (F.PWM_SAFE_LGS.at n) ∧ (∀ m, m ≠ n.val → t.chan m = s.chan m) ∧
        (s.q6.length < 64 → ∃ r ∈ t.q6, r.cls = 3 ∧ r.ev = 5 ∧ r.detail = n.val))
      else exec (.pwmHoldTimeout n) s = .next s) ∧
    (if s.coreOn = true then
      Ends .synciEdge s (fun t => t.pwm.synciAt = some s.cyc ∧ t.fld F.CUR_STAT_PHSRC =
          (s.modPwm (fun q => { q with synciAt := some s.cyc })).phaseAvail ∧ ∀ n, n < 16 →
        if s.flag F.PWM_SYNC_SIEN = true ∧ s.bit R.PWM_SYNCMSK n = true ∧ s.ticking n = true then
          (t.chan n).cnt = (s.reg (R.PWM_PHS + n)).toNat % ((s.chan n).per + 1) ∧ (t.chan n).burn = ((t.chan n).burn &&
            decide ((s.reg (R.PWM_PHS + n)).toNat % ((s.chan n).per + 1) = 0))
        else t.chan n = s.chan n) ∧
      (s.phrefDue = false → exec .phrefPulse s = .next s) ∧
      (s.phrefDue = true → Ends .phrefPulse s (fun t => t.tim.phrefAt = some s.cyc ∧
        (s.rested 0x6D = true → t.pulsed 0x6D = true) ∧
        t.pwm.chans = s.pwm.chans ∧ t.fld F.CUR_STAT_PHSRC = s.phaseAvail))
      else exec .synciEdge s = .next s ∧ exec .phrefPulse s = .next s)

/-- With no record unsettled and the state in its form. In LIT-RUN a dimming period of a lamp begins where the source
in use marks one and no change of source passes it over: for each channel of that lamp CUR_DRIVE shows the smaller of
the DRIVE taken and the soft-start ceiling, a soft start whose ceiling is full ends, and the lamp's stipple index
moves on by 1 modulo 16; the channels of other lamps stay; with every enabled, unlocked channel running under a full
ceiling it is first light. (Not where a stall of the realiser in the last 1 ms makes the period a repetition, R406.) A
start that is not due, or is passed over, changes no channel. A retry that is due counts and clears the latch, or,
with an own source active, is refused; with RMAX reached the wait ends. CUR_LOCKCLR opens a locked channel with an
empty latch and zeroes its count and trim; 60 s of running zero the count. Otherwise each leaves the state as it was.
(R158, R161, R162, R167, R168, R169, R173, R174, R175, R396, R397) -/
def Obligations.DimmingPeriodsAndRetries : Prop :=
  ∀ s : State, s.Settled → s.Shape →
    (∀ g : Fin 9, if s.litRun = true then
      (s.phaseUpdate.dimDueNow g = false ∨ s.phaseUpdate.dimPass g = true → Ends (.dimmingPeriodStart g) s (fun t =>
        t.fld F.CUR_STAT_PHSRC = s.phaseAvail ∧ t.pwm.chans = s.pwm.chans ∧ t.pwm.stip = s.pwm.stip ∧
        (∀ n, n < 16 → t.pair (R.CUR_DRIVE_LO + n) = s.pair (R.CUR_DRIVE_LO + n)) ∧
        (s.phaseUpdate.dimDueNow g = true → t.pwm.dimDue = s.phaseUpdate.pwm.dimDue.set g none))) ∧
      (s.phaseUpdate.dimDueNow g = true → s.phaseUpdate.dimPass g = false →
        Ends (.dimmingPeriodStart g) s (fun t => (∀ n, n < 16 → s.groupOf n = g →
            (s.pwm.dimRep.getD g false = false ∨ s.pwm.stallAt + 61440 < s.cyc →
              t.pair (R.CUR_DRIVE_LO + n) = min (s.takenDrive n) (s.ceiling n) % 2 ^ 32) ∧
            (s.pwm.dimRep.getD g false = false ∨ s.pwm.stallAt + 61440 < s.cyc → s.ceiling n = 0xFFFFF → t.flag (F.CUR_CSTAT_SSL.at n) = false)) ∧
          (∀ n, n < 16 → s.groupOf n ≠ g → t.chan n = s.chan n ∧
            t.pair (R.CUR_DRIVE_LO + n) = s.pair (R.CUR_DRIVE_LO + n)) ∧
          t.pwm.stip = s.pwm.stip.set g ((s.pwm.stip.getD g 0 + 1) % 16) ∧
          (s.pwr.light = false → (∀ n, n < 16 → s.bit R.PWM_ENA n = true → s.lockedOff n = false →
              s.flag (F.CUR_CSTAT_SSL.at n) = false ∧ (s.chan n).run = true ∧ (s.chan n).restart = false) →
            t.pwr.light = true)))
      else exec (.dimmingPeriodStart g) s = .next s) ∧
    (∀ (n : Fin 16) (oc ov : Bool) (pins : BitVec 4),
      let w (b : Bool) : Word := if b then 0xFFFF else 0
      let k := s.fld (F.CUR_CSTAT_RCNT.at n) + 1
      if s.coreOn = true ∧ s.flag (F.CUR_CSTAT_WAITL.at n) = true ∧ s.lat n &&& ownBits ≠ 0 ∧ s.lockedOff n = false then
        (s.fld F.CUR_CTL_RMAX < k → Ends (.retryDue n oc ov pins) s (fun t =>
          t.flag (F.CUR_CSTAT_WAITL.at n) = false ∧ t.lat n = s.lat n ∧ t.pwm = s.pwm)) ∧
        (k ≤ s.fld F.CUR_CTL_RMAX → s.activeBits n (w oc) (w ov) pins = 0 → Ends (.retryDue n oc ov pins) s (fun t =>
          t.lat n = 0 ∧ ((s.chan n).run = true → (t.chan n).restart = true) ∧ t.flag (F.CUR_CSTAT_RETRY.at n) = true ∧
          (k < 16 → t.fld (F.CUR_CSTAT_RCNT.at n) = k))) ∧
        (k ≤ s.fld F.CUR_CTL_RMAX → s.activeBits n (w oc) (w ov) pins ≠ 0 → Ends (.retryDue n oc ov pins) s (fun t =>
          t.lat n = s.lat n ∧ t.flag (F.CUR_CSTAT_RREF.at n) = true ∧
          t.flag (F.CUR_CSTAT_WAITL.at n) = decide (k < s.fld F.CUR_CTL_RMAX)))
      else exec (.retryDue n oc ov pins) s = .next s) ∧
    (∀ n : Fin 16, if s.lat n = 0 ∧ (s.chan n).run = true then
      Ends (.retryCountReset n) s (fun t => t.fld (F.CUR_CSTAT_RCNT.at n) = 0 ∧ t.pwm = s.pwm)
      else exec (.retryCountReset n) s = .next s) ∧
    (∀ (p : Path) (oc ov : Word) (pins : BitVec 4), s.pathUp p = true →
      Ends (.lockClear p oc ov pins) s (fun t => ∀ n, n < 16 → n ∈ s.curSel →
        (s.lat n = 0 ∨ s.activeBits n oc ov pins = 0 → t.flag (F.CUR_CSTAT_OPENL.at n) = false ∧
          t.flag (F.CUR_CSTAT_LOCKL.at n) = false ∧ t.fld (F.CUR_CSTAT_RCNT.at n) = 0 ∧ t.lat n = 0 ∧
          t.reg (R.CUR_TRIMV + n) = 0 ∧ (s.lockedOff n = true → (s.chan n).run = true → (t.chan n).restart = true)) ∧
        (s.lat n ≠ 0 → s.activeBits n oc ov pins ≠ 0 → t.lat n = s.lat n ∧ t.flag (F.PWM_STAT_CLRREF.at n) = true)))

/-- With no record unsettled and the state in its form. The count of mid on-time (Chan.midOn: half the last on-time
past the rise of HG) of a period that may be captured waits as a capture of that channel's current at this edge:
outside a proof slot at the first such period past a re-arming instant, in one in the last probe cycle. A hold that
times out loses its oldest waiting value and sets HLOST. A completed slot, while the converter runs, is calibration in
slot 63 of 64, else the first of the waiting captures, the user sequence and the round schedule, and takes only that
one. A current capture whose period has ended counts in its round; any other waits for that end with its result. With
Q7AUTO each user result enters Q7 as it is made. The user sequence ends when its last input is converted: BUSY clears
and source 0x68 pulses. At the end of a round a channel measured twice on each hold publishes its mean voltage, its
sums start at 0, 92 conversions fall due, and a checked table replaces the one in force. Otherwise each leaves the
state as it was. A source that pulsed within the last 2 cycles gives no second pulse (R38). (R154, R180, R181, R182,
R183, R185, R186, R187, R212, R213) -/
def Obligations.HoldsConversionsAndRounds : Prop :=
  ∀ s : State, s.Settled → s.Shape →
    (∀ n : Fin 16,
      let c := s.chan n
      let due := s.armsDue (8 * 2 ^ s.fld F.HLT_SCFG_CRATE)
      let taken : Capture := { ch := n, at_ := s.cyc, amp := c.amp, thr := c.thr, per := c.per,
                               trim := s.flag (F.CUR_CCFG_TRIMEN.at n) && !s.flag (F.PWM_CTL_MODE.at n),
                               proof := (s.inSlot n).isSome }
      (c.midOn = none → exec (.currentHoldCapture n) s = .next s) ∧
      (∀ w, c.midOn = some w → if s.ticking n = true ∧ s.reach n w = true then
        Ends (.currentHoldCapture n) s (fun t => t.chan n = { c.goto w with cap := true } ∧ t.regs = s.regs ∧
          (if s.mayCapture n = true ∧ (if (s.inSlot n).isSome = true then c.probe = true else (s.hchan n).armI < due) then
            t.hlt.waiting = s.hlt.waiting ++ [taken] ∧ ((s.inSlot n).isSome = false → (t.hchan n).armI = due)
          else t.hlt = s.hlt) ∧
          ∀ m, m < 16 → m ≠ n.val → t.hchan m = s.hchan m ∧ t.chan m = s.chan m)
      else exec (.currentHoldCapture n) s = .next s)) ∧
    (∀ (n : Fin 16) (volt : Bool),
      let mine := fun x : Capture => x.ch == n.val && x.volt == volt
      (∀ x, s.hlt.waiting.find? mine = some x → Ends (.holdCaptureTimeout n volt) s (fun t =>
        t.hlt = { s.hlt with waiting := s.hlt.waiting.erase x, lost := s.hlt.lost + 1 } ∧
        t.flag F.HLT_STAT_HLOST = true)) ∧
      (s.hlt.waiting.find? mine = none → exec (.holdCaptureTimeout n volt) s = .next s)) ∧
    (∀ raw : BitVec 14, (s.hltOn = false → exec (.conversionDone raw) s = .next s) ∧
      (s.hltOn = true → Ends (.conversionDone raw) s (fun t => t.hlt.slot = s.hlt.slot + 1 ∧
        (s.hlt.slot % 64 = 63 → t.hlt.waiting = s.hlt.waiting ∧ t.hlt.user = s.hlt.user ∧ t.hlt.due = s.hlt.due ∧
          t.hlt.nextRef = !s.hlt.nextRef) ∧
        (s.hlt.slot % 64 ≠ 63 → t.hlt.waiting = s.hlt.waiting.tail ∧ t.hlt.nextRef = s.hlt.nextRef ∧
          t.hlt.offset = s.hlt.offset ∧ t.hlt.gain = s.hlt.gain ∧
          (s.hlt.waiting = [] → t.hlt.user = s.hlt.user.tail ∧
            (s.hlt.user = [] → t.hlt.due = s.hlt.due - 1 ∧
              (0 < s.hlt.due → t.hlt.pos = (s.hlt.pos + 1) % 92)) ∧
            (s.hlt.user ≠ [] → t.hlt.due = s.hlt.due ∧ t.hlt.made = s.hlt.made + 1 ∧
              t.hlt.lastUs % 16384 = (s.resultOf (s.hlt.user.headD 0) raw % 16384).toNat ∧
              (s.flag F.HLT_CTL_Q7AUTO = true → s.q7.length < 256 → t.q7 = s.q7 ++ [t.hlt.lastUs]) ∧
              (s.flag F.HLT_CTL_Q7AUTO = true → 256 ≤ s.q7.length → t.q7 = s.q7 ∧ t.flag F.HLT_STAT_Q7OVF = true) ∧
              (s.flag F.HLT_CTL_Q7AUTO = false → t.q7 = s.q7))) ∧
          (∀ x, s.hlt.waiting.head? = some x → t.hlt.user = s.hlt.user ∧ t.hlt.due = s.hlt.due ∧
            (x.ch < 16 → x.volt = true → (t.hchan x.ch).nV = (s.hchan x.ch).nV + 1 ∧
              (t.hchan x.ch).sumV = (s.hchan x.ch).sumV + (s.resultOf (0x10 + x.ch) raw).toNat) ∧
            (x.ch < 16 → x.volt = false → x.past = true → (t.hchan x.ch).nI = (s.hchan x.ch).nI + 1 ∧
              (t.hchan x.ch).aSum = (s.hchan x.ch).aSum + x.amp ∧ t.hlt.held = s.hlt.held) ∧
            (x.volt = false → x.past = false → t.hlt.chans = s.hlt.chans ∧
              t.hlt.held = s.hlt.held ++ [{ x with code := some (s.resultOf x.ch raw) }])))))) ∧
    (if s.flag F.HLT_USCTL_BUSY = true ∧ s.hlt.user = [] then
      Ends .userSeqEnd s (fun t => t.flag F.HLT_USCTL_BUSY = false ∧ (s.rested 0x68 = true → t.pulsed 0x68 = true) ∧ t.q7 = s.q7 ∧ t.hlt = s.hlt)
      else exec .userSeqEnd s = .next s) ∧
    (s.hltOn = false → exec .roundEnd s = .next s) ∧
    (s.hltOn = true → Ends .roundEnd s (fun t => t.hlt.slot = 0 ∧ t.hlt.roundAt = s.cyc ∧ t.hlt.lost = 0 ∧
      t.hlt.due = s.hlt.due + 92 ∧ t.hlt.waiting = s.hlt.waiting ∧
      (s.hlt.due ≠ 0 → t.flag F.HLT_STAT_SOVR = true) ∧
      (s.flag F.HLT_STAT_TABPEND = true → t.hlt.active = s.hlt.edit ∧ t.flag F.HLT_STAT_TABPEND = false ∧
        t.flag F.HLT_STAT_EDIT = false) ∧
      (s.flag F.HLT_STAT_TABPEND = false → t.hlt.active = s.hlt.active) ∧
      ∀ n, n < 16 → (t.hchan n).nI = 0 ∧ (t.hchan n).nV = 0 ∧ (t.hchan n).armI = 0 ∧ (t.hchan n).armV = 0 ∧
        (2 ≤ (s.hchan n).nI → 2 ≤ (s.hchan n).nV → s.flag F.PWR_STAT_AVDDG = true → t.reg (R.HLT_VS + n) =
          BitVec.ofNat 16 (clampInt 0 65535 (divRound ((s.hchan n).sumV * 4 : Nat) (s.hchan n).nV)).toNat)))

/-- With no record unsettled and the state in its form. A request for a channel without a run, with no latch, not
locked off, whose four points rise from its floor on starts a run now in LIT-RUN where its effective DRIVE is not 0,
otherwise a dark run where DARKOK allows, and else defers it; any other request changes nothing of the channel. A slot
starts at the front of the plan with 8 rounds to come. A run with no slot left ends: accepted, where every point has
16 captures of each hold, the fit's slope is not negative and each point lies within 1 %, it makes the model valid
with the fitted resistance, zeroes LEDCNT and hands the vault a record; else the model stays and event 0x004 of class
4 is posted. The 24 h limit abandons a run with event 0x005. Otherwise each leaves the state as it was. (R190, R191,
R194, R195, R196, R197, R198, R199, R201) -/
def Obligations.ProofRunsAreAskedTakenAndEnded : Prop :=
  ∀ s : State, s.Settled → s.Shape →
    let rising (n : Nat) : Prop := s.proofAmp 0 < s.proofAmp 1 ∧ s.proofAmp 1 < s.proofAmp 2 ∧
      s.proofAmp 2 < s.proofAmp 3 ∧ s.fld (F.CUR_FLOOR_FLOOR.at n) ≤ s.proofAmp 0
    let fit (n : Nat) : Prop := (s.hchan n).run = none ∧ s.lat n = 0 ∧ s.lockedOff n = false ∧ rising n
    let answered (n : Nat) (t : State) : Prop :=
      (fit n → s.litRun = true → s.effDrive n ≠ 0 → (t.hchan n).run = some { startAt := s.cyc } ∧
        t.bit R.HLT_PRFACT n = true ∧ t.bit R.HLT_PRFDEF n = false) ∧
      (fit n → ¬ (s.litRun = true ∧ s.effDrive n ≠ 0) → s.flag F.HLT_PROOF_DARKOK = true →
        (t.hchan n).run = some { dark := true, startAt := s.cyc } ∧ t.bit R.HLT_PRFACT n = true) ∧
      (fit n → ¬ (s.litRun = true ∧ s.effDrive n ≠ 0) → s.flag F.HLT_PROOF_DARKOK = false → t.hchan n = s.hchan n ∧
        t.bit R.HLT_PRFDEF n = true ∧ (s.bit R.HLT_PRFDEF n = false → s.q6.length ≤ 48 →
          ∃ r ∈ t.q6, r.cls = 4 ∧ r.ev = 6 ∧ r.detail = n)) ∧
      (¬ fit n → t.hchan n = s.hchan n ∧ t.bit R.HLT_PRFDEF n = s.bit R.HLT_PRFDEF n)
    (∀ (p : Path) (v : Word), s.pathUp p = true → Ends (.proofRunRequest p v) s (fun t => ∀ n, n < 16 →
      (v.getLsbD n = true → answered n t) ∧
      (v.getLsbD n = false → t.hchan n = s.hchan n ∧ t.bit R.HLT_PRFDEF n = s.bit R.HLT_PRFDEF n))) ∧
    (∀ n : Fin 16, (s.fld F.HLT_PROOF_AUTOD = 0 → exec (.proofAutoDue n) s = .next s) ∧
      (s.fld F.HLT_PROOF_AUTOD ≠ 0 → Ends (.proofAutoDue n) s (fun t => answered n t ∧
        ∀ m, m < 16 → m ≠ n.val → t.hchan m = s.hchan m))) ∧
    (∀ n : Fin 16, ((s.hchan n).run = none → exec (.proofSlotStart n) s = .next s ∧ exec (.proofRunEnd n) s = .next s ∧
        exec (.proofRunTimeout n) s = .next s) ∧
      (∀ r, (s.hchan n).run = some r →
        (∀ p l, r.plan = p :: l → r.slot = none → s.holdActive = false → Ends (.proofSlotStart n) s (fun t =>
          t.regs = s.regs ∧ (t.hchan n).run =
            some { r with slot := some p, plan := l, rounds := 8, periods := 0, unreach := 0, now := {} })) ∧
        (r.slot.isSome = true ∨ r.plan = [] ∨ s.holdActive = true → exec (.proofSlotStart n) s = .next s) ∧
        (r.slot.isSome = true ∨ r.plan ≠ [] → exec (.proofRunEnd n) s = .next s) ∧
        Ends (.proofRunTimeout n) s (fun t => (t.hchan n).run = none ∧ t.bit R.HLT_PRFACT n = false ∧
          t.reg (R.HLT_V0 + n) = s.reg (R.HLT_V0 + n) ∧ t.reg (R.HLT_R + n) = s.reg (R.HLT_R + n) ∧
          t.reg (R.HLT_MDL + n) = s.reg (R.HLT_MDL + n) ∧
          (s.q6.length < 64 → ∃ e ∈ t.q6, e.cls = 4 ∧ e.ev = 5 ∧ e.detail = n.val)) ∧
        (r.slot = none → r.plan = [] →
          let rs := max 1 (s.reg (R.HLT_RS + n)).toNat
          let ps := r.points.map (ProofPoint.pair rs)
          let full := r.points.all (fun p => decide (16 ≤ p.nI) && decide (16 ≤ p.nV))
          let near (a b : Rat) : Bool := ps.all (fun p =>
            decide (ratMax ((p.2 : Rat) - (a + b * p.1)) (-((p.2 : Rat) - (a + b * p.1))) * 100 ≤ (p.2 : Rat)))
          (∀ a b, fitLine ps = some (a, b) → full = true → 0 ≤ b → near a b = true →
            Ends (.proofRunEnd n) s (fun t => (t.hchan n).run = none ∧ t.bit R.HLT_PRFACT n = false ∧
              t.flag (F.HLT_MDL_VALID.at n) = true ∧ t.fld (F.HLT_LEDCNT_N.at n) = 0 ∧
              t.reg (R.HLT_R + n) = BitVec.ofNat 16 (clampInt 0 65535 (ratRound (b * 1000))).toNat ∧
              t.vlt.buf = s.vlt.buf ++ [.record (recModel + n) (t.modelBytes n)] ∧
              (s.q6.length ≤ 62 → ∃ e ∈ t.q6, e.cls = 4 ∧ e.ev = 3 ∧ e.detail = n.val))) ∧
          ((full = false ∨ fitLine ps = none ∨ (fitLine ps).any (fun f => decide (f.2 < 0) || !near f.1 f.2) = true) →
            Ends (.proofRunEnd n) s (fun t => (t.hchan n).run = none ∧ t.bit R.HLT_PRFACT n = false ∧
              t.reg (R.HLT_V0 + n) = s.reg (R.HLT_V0 + n) ∧ t.reg (R.HLT_R + n) = s.reg (R.HLT_R + n) ∧
              t.reg (R.HLT_MDL + n) = s.reg (R.HLT_MDL + n) ∧ t.vlt = { s.vlt with dropped := t.vlt.dropped } ∧
              (s.q6.length < 64 → ∃ e ∈ t.q6, e.cls = 4 ∧ e.ev = 4 ∧ e.detail = n.val))))))

/-- On a path that responds, with no record unsettled and the state in its form. For each channel that HLT_SEL
reaches, all of them under the broadcast value, LEDRST zeroes LEDCNT and clears the LEDSHORT level, MCLR makes the
model invalid, a relearn starts the 64 rounds of the dead-time baseline; other channels keep theirs. With SYS_UNLOCK
open the table opens, closes (TABPEND, or TABERR without it and HLT_TERR for the first word that fails) and is queued
for saving, or refused with VLT_ERR 3 for want of room; closed, nothing changes. The stress record enters the commit
buffer with the stress of all channels; a whole hour counted with a DRIVE on channel n raises hatch counter HC(4 + n)
by 1 and no other; without one nothing changes. (R53, R201, R204, R207, R210, R213, R450, R451) -/
def Obligations.HealthCommandsAndTables : Prop :=
  ∀ s : State, s.Settled → s.Shape →
    (∀ p : Path, s.pathUp p = true →
      Ends (.ledrst p) s (fun t => ∀ n, n < 16 →
        (n ∈ s.hltSel → t.fld (F.HLT_LEDCNT_N.at n) = 0 ∧ t.bit (R.HLT_CCLS + n) 10 = false) ∧
        (n ∉ s.hltSel → t.reg (R.HLT_LEDCNT + n) = s.reg (R.HLT_LEDCNT + n) ∧
          t.reg (R.HLT_CCLS + n) = s.reg (R.HLT_CCLS + n))) ∧
      Ends (.mclr p) s (fun t => ∀ n, n < 16 →
        (n ∈ s.hltSel → t.flag (F.HLT_MDL_VALID.at n) = false) ∧
        (n ∉ s.hltSel → t.reg (R.HLT_MDL + n) = s.reg (R.HLT_MDL + n))) ∧
      Ends (.dtrefRelearn p) s (fun t => t.regs = s.regs ∧ ∀ n, n < 16 →
        (n ∈ s.hltSel → t.hchan n = { s.hchan n with learn := some (0, 0, 0) }) ∧
        (n ∉ s.hltSel → t.hchan n = s.hchan n)) ∧
      (s.unlocked p = true →
        Ends (.hltTabOpen p) s (fun t => t.flag F.HLT_STAT_EDIT = true ∧ t.hlt = { s.hlt with edit := s.hlt.active }) ∧
        (s.flag F.HLT_STAT_EDIT = false → Ends (.hltTabClose p) s (fun t => t.regs = s.regs ∧ t.hlt = s.hlt)) ∧
        (s.flag F.HLT_STAT_EDIT = true →
          ((∀ a, a < 32 → hltWordFail s.hlt.edit a = none) → Ends (.hltTabClose p) s (fun t =>
            t.flag F.HLT_STAT_TABPEND = true ∧ t.hlt = s.hlt)) ∧
          (∀ a c, a < 32 → hltWordFail s.hlt.edit a = some c → (∀ b, b < a → hltWordFail s.hlt.edit b = none) →
            Ends (.hltTabClose p) s (fun t => t.flag F.HLT_STAT_TABERR = true ∧
              t.reg R.HLT_TERR = BitVec.ofNat 16 (c * 4096 + a) ∧
              t.flag F.HLT_STAT_TABPEND = false ∧ t.hlt = s.hlt))) ∧
        (s.vRoom 2 = true → Ends (.hltTabSave p) s (fun t => t.flag F.HLT_STAT_SAVEPEND = true)) ∧
        (s.vRoom 2 = false → Ends (.hltTabSave p) s (fun t => t.fld F.VLT_ERR_CODE = 3 ∧
          t.flag F.VLT_STAT_REFUSED = true ∧ t.vlt = s.vlt))) ∧
      (s.unlocked p = false → ∀ c ∈ [Instr.hltTabOpen p, .hltTabClose p, .hltTabSave p],
        Ends c s (fun t => t.regs = s.regs ∧ t.hlt = s.hlt ∧ t.vlt = s.vlt))) ∧
    (let fits := s.vRoom (10 + s.stressBytes.length) = true ∧ s.vlt.wait = []
     (fits → s.vlt.buf ≠ [] → Ends .stressRecordDue s (fun t => t.vlt.clean = false ∧
       (t.vlt.buf = s.vlt.buf ++ [.record recStress s.stressBytes] ∨ t.vlt.commit.isSome = true))) ∧
     (fits → Ends .stressRecordDue s (fun t => t.vlt.clean = false)) ∧
     (¬ fits → Ends .stressRecordDue s (fun t => t.regs = s.regs ∧ t.vlt.buf = s.vlt.buf ∧
       t.vlt.wait = s.vlt.wait ++ [(recStress, s.stressBytes)]))) ∧
    (∀ n : Fin 16, (3600000 ≤ (s.hchan n).onMs → Ends (.channelOnHour n) s (fun t => t.regs = s.regs ∧
      (s.vlt.hatBad = false → t.hat (4 + n) = (s.hat (4 + n) + 1) % 2 ^ 32) ∧
      (t.hchan n).onMs = (s.hchan n).onMs - 3600000 ∧ ∀ m, m ≠ 4 + n.val → t.hat m = s.hat m)) ∧
      ((s.hchan n).onMs < 3600000 → exec (.channelOnHour n) s = .next s))

/-- With no record unsettled and the state in its form. A rising edge of ZCS moves the filtered period by a sixteenth;
after 8 good periods within 45 to 65 Hz ZCV is 1 and MPER shows the period, otherwise ZCV is 0; no edge for 1.5
courses clears both. At its place on the grid a course start counts COURSE on modulo 64, forms the prefix from the
course's length and pulses 0x6A; course 0 makes the bench start due, which takes PHY_BAND and the written mask into
use, counts MAC_BENCH on (from a notice that waits, that notice's number) and pulses 0x6B. A relay sends its beacon in
the slot of its tier on a free line. A valid beacon of the parent sets BVALID, zeroes BSINCE and records its SNR; a
head that hears a takeover beacon yields. A deputy counts one missed bench in position 12 of course 0, and on the last
its takeover beacon is due; BVALID ends past its limit of benches; LISTEN benches without another head make a HEAD
acting; a nominal bench counts BSINCE. Where its condition does not hold each leaves the state as it was. A source
that pulsed within the last 2 cycles gives no second pulse (R38). (R220, R221, R222, R225, R255, R261, R262, R263,
R278, R279, R366, R505) -/
def Obligations.TheGridAndItsBeacons : Prop :=
  ∀ s : State, s.Settled → s.Shape →
    (∀ (rising : Bool) (us : Nat), s.pwr.boot < 4 → exec (.zcsEdge rising us) s = .next s) ∧
    (4 ≤ s.pwr.boot → ∀ us : Nat,
      let e := s.cyc - us * 6144 / 100
      Ends (.zcsEdge false us) s (fun t => t = { s with phy := { s.phy with zcEdge := e } }) ∧
      (s.phy.zcRaw = none → Ends (.zcsEdge true us) s (fun t => t.regs = s.regs ∧ t.phy.zcEdge = e ∧
        t.phy.zcRaw = some e ∧ t.phy.zcAt.isSome = true ∧ t.phy.zcGood = 0)) ∧
      (∀ raw, s.phy.zcRaw = some raw →
        let x := cyclesZc (e - raw)
        let per := if s.phy.zcPer = 0 then x else ((s.phy.zcPer : Int) + divRound ((x : Int) - (s.phy.zcPer : Int)) 16).toNat
        let good := if 50 * ((x : Int) - per).natAbs ≤ per ∧ 2 * x ≤ 3 * per then min 8 (s.phy.zcGood + 1) else 0
        let valid := good = 8 ∧ 1000000 * 65536 ≤ 65 * per ∧ 45 * per ≤ 1000000 * 65536
        Ends (.zcsEdge true us) s (fun t => t.phy.zcPer = per ∧ t.phy.zcGood = good ∧ t.phy.zcRaw = some e ∧
          (valid → t.flag F.PHY_STAT_ZCV = true ∧ t.fld F.PHY_MPER_T = (per + 32768) / 65536 % 65536) ∧
          (¬ valid → t.flag F.PHY_STAT_ZCV = false)))) ∧
    (if s.phy.zcEdge + 60 * s.phy.nc ≤ s.cyc then
      Ends .zcsTimeout s (fun t => t.flag F.PHY_STAT_ZCV = false ∧
        t.phy = { s.phy with zcPer := 0, zcGood := 0, zcAt := none, zcRaw := none } ∧
        (s.flag F.PHY_STAT_ZCV = true → t.flag F.PHY_STAT_ZCLOSS = true ∧ t.fld F.PHY_MPER_T = 0))
      else exec .zcsTimeout s = .next s) ∧
    (∀ pre : BitVec 24,
      let c := (s.fld F.MAC_GRID_COURSE + 1) % 64
      (¬ (s.phyOn = true ∧ s.courseNext ≤ s.cyc) → exec (.courseStart pre) s = .next s) ∧
      (s.phyOn = true → s.courseNext ≤ s.cyc →
        Ends (.courseStart pre) s (fun t => t.fld F.MAC_GRID_COURSE = c ∧ t.phy.courseAt = s.courseNext ∧
          (s.rested 0x6A = true → t.pulsed 0x6A = true) ∧ (s.flag F.PHY_STAT_ZCV = true → t.phy.nc = s.phy.zcPer * 768 / 65536000) ∧
          (c = 0 → t.mac.benchDue = true) ∧ (c ≠ 0 → t.npos = s.npos) ∧
          ((t.phy.nc - 512 * t.npos) / t.npos < 256 → t.fld F.PHY_CP_CP = (t.phy.nc - 512 * t.npos) / t.npos)))) ∧
    (let due := 4 ≤ s.pwr.boot ∧ s.phyOn = true ∧ s.mac.benchDue = true
     (¬ due → exec .benchStart s = .next s) ∧
     (due → Ends .benchStart s (fun t => (s.rested 0x6B = true → t.pulsed 0x6B = true) ∧ t.mac.benchDue = false ∧
      t.phy.band = s.fld F.PHY_BAND_A + 2 * s.fld F.PHY_BAND_BCD + 4 * s.fld F.PHY_BAND_X ∧
      (s.benchTimed = true ∨ (s.transmitting = false ∧ s.receiving = false) → t.phy.mask = s.phy.maskNew) ∧ t.phy.ilim = 0 ∧ t.mac.notice = none ∧ t.mac.heard = false ∧ t.sec.fails = 0 ∧
      (s.mac.notice = none → t.bench = (s.bench + 1) % 2 ^ 32) ∧
      (∀ n, s.mac.notice = some n → s.isHead = false → s.mac.noticed = false → s.mac.counted = false →
        t.bench = (n.bench + 1) % 2 ^ 32) ∧
      (s.mac.roleNew = none → s.isHead = false → s.flag F.MAC_STAT_BVALID = true →
        t.fld F.MAC_BSINCE_N = min (s.fld F.MAC_BSINCE_N + 1) 65535) ∧
      (s.mac.roleNew = some 2 → t.act = 2)))) ∧
    (let due := s.act = 1 ∧ s.mayTx = true ∧ s.inRelaySlot = true
     (¬ due → exec .relayBeaconSend s = .next s) ∧
     (due → s.lineFree = false ∨ s.pwr.extest = true → exec .relayBeaconSend s = .next s) ∧
     (due → s.lineFree = true → s.pwr.extest = false → s.flag F.PWR_STAT_VLDG = true →
       Ends .relayBeaconSend s (fun t => t.regs = s.regs ∧ t.phy.txHdr = shortHeader (s.beaconBits 2) ∧
         t.phy.txBytes = [] ∧ t.phy.txEnd = s.posNow + s.framePos 0)) ∧
     (due → s.lineFree = true → s.pwr.extest = false → s.flag F.PWR_STAT_VLDG = false →
       Ends .relayBeaconSend s (fun t => t.phy = s.phy ∧ t.flag F.PHY_STAT_VLDUV = true))) ∧
    (∀ (x : BitVec 29) (course : BitVec 6) (posn : BitVec 5) (ago : Nat) (snr : Byte),
      let kind := x.toNat / 2 ^ 27
      let blo := x.toNat / 2 ^ 25 % 4
      (s.macOn = false ∨ s.transmitting = true →
        exec (.beaconReceive x course posn ago snr) s = .next s) ∧
      (s.macOn = true → s.transmitting = false → kind = 3 →
        Ends (.beaconReceive x course posn ago snr) s (fun t => t.regs = s.regs ∧ t.mac = s.mac)) ∧
      (s.macOn = true → s.transmitting = false → kind ≠ 3 → s.isHead = false → (kind = 1 → s.mac.heard = false) →
        s.short ≠ 0x3FF → s.parentBeacon kind blo course.toNat posn.toNat = true → (s.mac.noticed = true → blo = s.bench % 4) →
        Ends (.beaconReceive x course posn ago snr) s (fun t => t.flag F.MAC_STAT_BVALID = true ∧
          t.fld F.MAC_BSINCE_N = 0 ∧ t.mac.snr = snr.toNat ∧ t.mac.counted = true ∧ t.flag F.FDE_STAT_LOSS = false ∧
          (kind = 0 → t.mac.heard = true) ∧ (s.mac.noticed = false → t.bench = s.bench / 4 * 4 + blo))) ∧
      (s.macOn = true → s.transmitting = false → kind = 1 → course = 1 → s.isHead = true → s.mac.listen = none →
        s.mac.sentHead = true → Ends (.beaconReceive x course posn ago snr) s (fun t => t.act = 2 ∧
          t.flag F.MAC_STAT_YIELD = true ∧ (s.q6.length < 64 → ∃ r ∈ t.q6, r.cls = 5 ∧ r.ev = 0x42)))) ∧
    (let due := s.macOn = true ∧ s.act = 2 ∧ s.flag F.MAC_STAT_BVALID = true ∧ s.mac.heard = false ∧ s.mac.missed = false ∧
       s.fld F.MAC_GRID_COURSE = 0 ∧ 12 ≤ s.posn
     (¬ due → exec .beaconMiss s = .next s) ∧
     (due → Ends .beaconMiss s (fun t => t.act = 2 ∧ t.mac.misses = s.mac.misses + 1 ∧ t.mac.missed = true ∧
       t.mac.takeDue = decide (max 1 (s.fld F.MAC_DEP_MISS) ≤ s.mac.misses + 1) ∧ t.flag F.MAC_STAT_BMISS = true ∧
       (s.q6.length < 64 → ∃ r ∈ t.q6, r.cls = 5 ∧ r.ev = 0x40 ∧ r.detail = s.bench % 65536)))) ∧
    (let past := s.flag F.MAC_STAT_BVALID = true ∧
       (if s.fld F.MAC_PARENT_PTIER = 0 then 16 else 64) < s.fld F.MAC_BSINCE_N
     (¬ past → exec .bvalidTimeout s = .next s) ∧
     (past → Ends .bvalidTimeout s (fun t => t.flag F.MAC_STAT_BVALID = false ∧
       (s.mac.roleNew = none → t.mac = s.mac) ∧ (s.mac.roleNew = some 2 → t.act = 2) ∧
       (s.q6.length < 64 → ∃ r ∈ t.q6, r.cls = 5 ∧ r.ev = 0x44 ∧ r.detail = s.fld F.MAC_BSINCE_N)))) ∧
    (s.mac.listen = none ∨ s.macOn = false → exec .headListenEnd s = .next s) ∧
    (∀ n, s.mac.listen = some n → s.macOn = true →
      let l := max 1 (s.fld F.MAC_DEP_LISTEN)
      (n < l ∨ (n = l ∧ s.benchPos < s.mac.listenAt) → exec .headListenEnd s = .next s) ∧
      (l < n ∨ (n = l ∧ s.mac.listenAt ≤ s.benchPos) → Ends .headListenEnd s (fun t => t.act = 3 ∧ t.mac.listen = none ∧
        t.mac.newHead = true ∧ (s.isHead = false → t.fld F.MAC_HEAD_A = s.short ∧ t.mac.grants = [])))) ∧
    (if 4 ≤ s.pwr.boot ∧ s.benchTimed = false then
      Ends .nominalBenchElapsed s (fun t => t.fld F.MAC_BSINCE_N = min (s.fld F.MAC_BSINCE_N + 1) 65535 ∧ t.mac = s.mac)
      else exec .nominalBenchElapsed s = .next s)

/-- With no record unsettled and the state in its form. A header with a wrong CRC, or one the node cannot take, sets
HDRERR and leaves the line busy over the symbols it announces; one that fits is kept, and the reception lasts its
symbols. A frame of the announced length with a wrong FCS counts in MAC_RXERR and no more; one of another segment, and
one already seen, change no ring. A command frame for this node that passes its checks (protected and verified, or of
a group that needs none) counts in MAC_RXCNT, is remembered by SRC and sequence, and enters Q0 where urgent, else Q1,
as its last entry; where that ring is full it is dropped with OVF and not remembered. Nothing is received while the
node transmits or its line is off. A current limit during a transmission sets ILIM and counts the frame once for the
bench; VLD low clears VLDG and, with the core on, sets VLDUV, ends the transmission and posts event 0x007 of class 5;
a map LIFE minutes old becomes invalid, with LIFE 0 none does. (R215, R216, R217, R233, R245, R252, R265, R272, R281,
R387) -/
def Obligations.HeadersFramesAndTheDriver : Prop :=
  ∀ s : State, s.Settled → s.Shape →
    (∀ hdr : BitVec 40,
      let h := hdr.toNat
      let mode := h / 2 ^ 37 % 8
      let bands := bandsOf (h / 2 ^ 34 % 8)
      let code := h / 2 ^ 32 % 4
      let nsym := h / 2 ^ 18 % 2048
      (s.phyOn = false ∨ s.transmitting = true → exec (.headerReceive hdr) s = .next s) ∧
      (s.phyOn = true → s.transmitting = false →
        (headerCrc h ≠ h % 256 → Ends (.headerReceive hdr) s (fun t => t.phy.rxHdr = none ∧
          t.flag F.PHY_STAT_HDRERR = true ∧ (mode ≠ 4 → s.posNow + nsym ≤ t.phy.busyEnd))) ∧
        (headerCrc h = h % 256 → mode = 4 → Ends (.headerReceive hdr) s (fun t => t.phy.rxHdr = none ∧
          t.phy.busyEnd = s.phy.busyEnd ∧ t.flag F.PHY_STAT_HDRERR = s.flag F.PHY_STAT_HDRERR)) ∧
        (headerCrc h = h % 256 → mode = 3 ∨ 4 < mode ∨ (mode ≤ 2 ∧ (code = 3 ∨ bands = 0)) ∨ (mode < 2 ∧ code ≠ 0) →
          Ends (.headerReceive hdr) s (fun t => t.phy.rxHdr = none ∧ t.flag F.PHY_STAT_HDRERR = true ∧
            s.posNow + nsym ≤ t.phy.busyEnd)) ∧
        (headerCrc h = h % 256 → mode < 2 → code = 0 → bands ≠ 0 → bands &&& s.rxBand = bands →
          Ends (.headerReceive hdr) s (fun t => t.phy.rxHdr = some h ∧ t.phy.rxEnd = s.posNow + nsym ∧
            t.phy.busyEnd = max s.phy.busyEnd (s.posNow + nsym) ∧
            t.flag F.PHY_STAT_HDRERR = s.flag F.PHY_STAT_HDRERR)))) ∧
    (∀ (robo : Bool) (bytes : List Byte),
      let n := bytes.length - 4
      let fcs := crc32 (bytes.take n)
      let due := s.macOn = true ∧ s.transmitting = false ∧ s.phy.rxHdr.any (hdrAnnounces robo bytes.length) = true
      (¬ due → exec (.frameReceive robo bytes) s = .next s) ∧
      (due →
        (bytes.length < 16 ∨ fcs ≠ ofBytes (bytes.drop n) → Ends (.frameReceive robo bytes) s (fun t =>
          t.reg R.MAC_RXERR = s.reg R.MAC_RXERR + 1 ∧ t.reg R.MAC_RXCNT = s.reg R.MAC_RXCNT ∧ t.mac = s.mac)) ∧
        (∀ f rest, parseHdr (bytes.take n) = some (f, rest) → 16 ≤ bytes.length → fcs = ofBytes (bytes.drop n) →
          (f.seg ≠ s.reg R.MAC_SEG → s.short ≠ 0x3FF → Ends (.frameReceive robo bytes) s (fun t => t.mac = s.mac ∧
            t.reg R.MAC_RXCNT = s.reg R.MAC_RXCNT)) ∧
          (f.seg = s.reg R.MAC_SEG → s.hopMine f = true ∨ f.hopdst = 0x3FF →
            ((f.src.toNat, f.seq.toNat) ∈ s.mac.seen → Ends (.frameReceive robo bytes) s (fun t =>
              t.mac = { s.mac with ackDue := t.mac.ackDue } ∧ t.reg R.MAC_RXCNT = s.reg R.MAC_RXCNT)) ∧
            ((f.src.toNat, f.seq.toNat) ∉ s.mac.seen → f.typ = 0 → f.dmode ≠ 3 → s.forMe f = true →
              let k := if f.urg then 0 else 1
              let p := if f.ackreq then s.payloadRx.busyAck s.phy.rxEnd else s.payloadRx
              let w := p.modMac (fun m => { m with ackDue := match p.ackFor f (fcs % 65536) false with
                | some a => some a
                | none => m.ackDue })
              (s.ringFull k = false →
                (f.sec = false → 0xF0 ≤ (rest.headD 0).toNat → Ends (.frameReceive robo bytes) s (fun t =>
                  t.reg R.MAC_RXCNT = s.reg R.MAC_RXCNT + 1 ∧
                  t.mac.seen = ((f.src.toNat, f.seq.toNat) :: s.mac.seen).take 32 ∧
                  t.ring k = s.ring k ++ [{ f := { f with args := rest, sec := false, kid := 0 }, snr := w.phy.snr }])) ∧
                (∀ v pay kid, f.sec = true → w.verifyFrame f rest = (v, some (pay, kid)) →
                  Ends (.frameReceive robo bytes) s (fun t => t.reg R.MAC_RXCNT = s.reg R.MAC_RXCNT + 1 ∧
                    t.mac.seen = ((f.src.toNat, f.seq.toNat) :: s.mac.seen).take 32 ∧
                    t.ring k = s.ring k ++ [{ f := { f with args := pay, sec := true, kid := BitVec.ofNat 8 kid },
                                              kid := some (BitVec.ofNat 8 kid), snr := w.phy.snr }]))) ∧
              (s.ringFull k = true → s.act ≠ 1 → f.sec = false → 0xF0 ≤ (rest.headD 0).toNat →
                Ends (.frameReceive robo bytes) s (fun t => t.reg R.MAC_RXCNT = s.reg R.MAC_RXCNT ∧
                  t.mac.seen = s.mac.seen ∧ t.ring k = s.ring k ∧ t.flag F.MAC_STAT_OVF = true)) ∧
              (∀ v, f.sec = true → w.verifyFrame f rest = (v, none) → Ends (.frameReceive robo bytes) s (fun t =>
                t.ring k = s.ring k ∧ t.reg R.MAC_RXCNT = s.reg R.MAC_RXCNT))))))) ∧
    (s.transmitting = false → exec .driverCurrentLimit s = .next s) ∧
    (s.transmitting = true → Ends .driverCurrentLimit s (fun t => t.flag F.PHY_STAT_ILIM = true ∧ t.q6 = s.q6 ∧
      (s.phy.ilimAt = s.phy.txEnd → t.phy = s.phy) ∧
      (s.phy.ilimAt ≠ s.phy.txEnd → t.phy = { s.phy with ilim := s.phy.ilim + 1, ilimAt := s.phy.txEnd }))) ∧
    (∀ level : Byte, if 2 ≤ s.pwr.boot ∧ s.pwr.rstLow = false then
      Ends (.vldUndervoltage level) s (fun t => t.flag F.PWR_STAT_VLDG = false ∧
        t.flag F.PWR_STAT_VLDUV = true ∧ t.transmitting = false ∧
        (s.q6.length < 64 → ∃ r ∈ t.q6, r.cls = 5 ∧ r.ev = 7 ∧ r.detail = level.toNat))
      else Ends (.vldUndervoltage level) s (fun t => t.flag F.PWR_STAT_VLDG = false ∧ t.phy = s.phy ∧ t.q6 = s.q6)) ∧
    (∀ e : Fin 32,
      let due := s.fld F.PHY_TMCFG_LIFE ≠ 0 ∧
        spGet zeroNat s.phy.txAt e + s.fld F.PHY_TMCFG_LIFE * 60 * 61440000 ≤ s.cyc
      (¬ due → exec (.toneMapExpiry e) s = .next s) ∧
      (due → Ends (.toneMapExpiry e) s (fun t => mapValid (txMapOf t.phy e) = false ∧
        t.regs = s.regs ∧ ∀ d, d < 32 → d ≠ e.val → txMapOf t.phy d = txMapOf s.phy d)))

/-- With no record unsettled and the state in its form. At a slot boundary of a free line past its busy span, after
exactly as many idle slots since its draw as were drawn for its rank, each of which the frame might have used, the
frame of highest rank that may begin and fits goes out with header, protected bytes and FCS and MAC_TXCNT counts; one
that asks for an acknowledgement stays at the head of its queue and its FCS is awaited to the end of its span, any
other leaves its ring; otherwise nothing changes. The acknowledgement due is sent where its span begins and not later.
One received in time for a frame awaited takes it out of its queue, or with STAT 01 counts as a failed attempt, as
does the end of its span with nothing; a failed attempt counts the tries, and past RETRY drops the frame, sets TXFAIL
and counts MAC_ACKFCNT. A due tone-map request, and a join request whose wait is over, enter Q2 where it has room; the
join wait doubles up to 256 benches. Otherwise each leaves the state as it was. (R257, R258, R264, R265, R266, R267,
R275, R302, R305) -/
def Obligations.FramesContendAndAreAcknowledged : Prop :=
  ∀ s : State, s.Settled → s.Shape →
    let fails (k : Nat) (e : Ent) (t : State) : Prop :=
      (e.tries < s.fld F.MAC_TXCFG_RETRY → t.queueHead k = some { e with tries := e.tries + 1 } ∧ t.regs = s.regs) ∧
      (s.fld F.MAC_TXCFG_RETRY ≤ e.tries → (t.ring (queueRing k)).length + 1 = (s.ring (queueRing k)).length ∧
        t.flag F.MAC_STAT_TXFAIL = true ∧ t.reg R.MAC_ACKFCNT = s.reg R.MAC_ACKFCNT + 1)
    (∀ n : Nat,
      let free := s.mayTx = true ∧ s.lineFree = true ∧ s.phy.busyEnd ≤ s.posNow ∧ s.atStart = true ∧ s.posn % 3 = 0
      (¬ free ∨ s.pick = none → exec (.contentionTxStart n) s = .next s) ∧
      (∀ k r e, s.pick = some (k, r, e) →
        let pos := (s.txPos (s.txMode e) (e.len (decide (k = 3)))).2
        let may (a : Nat) : Bool := s.mayBegin a r && s.fits a pos e.f.ackreq
        let lim := s.benchPos + max s.mac.drawAt (max s.phy.busyEnd (max s.phy.txEnd s.phy.rxEnd)) - s.posNow
        let ok := slotsOk r n = true ∧ idleSlots s.npos may lim (n + 1) s.benchPos = n ∧ may s.benchPos = true
        (¬ ok → exec (.contentionTxStart n) s = .next s) ∧
        (free → ok → s.flag F.PWR_STAT_VLDG = true →
          e.f.sec = false ∨ k = 3 ∨ e.sent.isSome = true ∨ s.mayProtect = true →
          ∀ b t0, s.frameBytes e (decide (k = 3)) = (t0, some b) →
            let plain := frameHdr e.f ++ b
            Ends (.contentionTxStart n) s (fun t => t.reg R.MAC_TXCNT = s.reg R.MAC_TXCNT + 1 ∧
              t.phy.txBytes = plain ++ toBytes 4 (crc32 plain) ∧ t.phy.txFrom = s.posNow ∧
              (e.f.ackreq = true → t.mac.waitAck = s.mac.waitAck ++ [(k, crc32 plain % 65536, t.ackSpan t.phy.txEnd + 26)] ∧
                (t.ring (queueRing k)).length = (s.ring (queueRing k)).length) ∧
              (e.f.ackreq = false → (t.ring (queueRing k)).length + 1 = (s.ring (queueRing k)).length))))) ∧
    (s.mac.ackDue = none → exec .ackSend s = .next s) ∧
    (∀ st chk at_, s.mac.ackDue = some (st, chk, at_) →
      (s.posNow < at_ → exec .ackSend s = .next s) ∧
      (at_ < s.posNow ∨ (at_ = s.posNow ∧ s.atStart = false) → Ends .ackSend s (fun t =>
        t = { s with mac := { s.mac with ackDue := none } })) ∧
      (at_ = s.posNow → s.atStart = true → Ends .ackSend s (fun t => t.mac = { s.mac with ackDue := none } ∧
        (s.macOn = true → s.flag F.PHY_CTL_TXDIS = false → s.pwr.extest = false → s.mac.listen = none →
          s.lineFree = true → s.flag F.PWR_STAT_VLDG = true → t.regs = s.regs ∧
          t.phy.txHdr = shortHeader (3 * 2 ^ 27 + st * 2 ^ 25 + chk % 65536 * 2 ^ 9))))) ∧
    (∀ x : BitVec 29,
      let st := x.toNat / 2 ^ 25 % 4
      let found := s.mac.waitAck.find? (fun w => w.2.1 == x.toNat / 2 ^ 9 % 65536 && decide (s.posNow ≤ w.2.2))
      let rx : State := { s with phy := { s.phy with rxEnd := s.posNow } }
      (s.macOn = false ∨ s.transmitting = true → exec (.ackReceive x) s = .next s) ∧
      (s.macOn = true → s.transmitting = false → found = none ∨ x.toNat / 2 ^ 27 ≠ 3 ∨ st = 3 →
        Ends (.ackReceive x) s (fun t => t = rx)) ∧
      (∀ w, found = some w → ∀ e, s.queueHead w.1 = some e →
        s.macOn = true → s.transmitting = false → x.toNat / 2 ^ 27 = 3 →
        (st = 0 ∨ st = 2 → Ends (.ackReceive x) s (fun t => w ∉ t.mac.waitAck ∧
          (t.ring (queueRing w.1)).length + 1 = (s.ring (queueRing w.1)).length)) ∧
        (st = 1 → Ends (.ackReceive x) s (fun t => w ∉ t.mac.waitAck ∧ fails w.1 e t)))) ∧
    (s.mac.waitAck = [] ∨ s.macOn = false → exec .ackSpanEnd s = .next s) ∧
    (∀ w l, s.mac.waitAck = w :: l → s.macOn = true →
      (s.posNow < w.2.2 → exec .ackSpanEnd s = .next s) ∧
      (w.2.2 ≤ s.posNow → ∀ e, s.queueHead w.1 = some e →
        Ends .ackSpanEnd s (fun t => t.mac.waitAck = l ∧ fails w.1 e t))) ∧
    (let pa := s.fld F.MAC_PARENT_PARENT
     let gap := (if s.fld F.PHY_TMCFG_LIFE = 0 then 10 else s.fld F.PHY_TMCFG_LIFE) * 60 * 61440000
     let due := s.macOn = true ∧ s.flag F.CMD_CTL_TMAUTO = true ∧ pa ≠ 0x3FF ∧ s.txMapFor pa = none ∧
       ∀ t, s.mac.tmAt = some t → t + gap ≤ s.cyc
     (¬ due → exec .tmAutoRequest s = .next s) ∧
     (due → Ends .tmAutoRequest s (fun t => t.mac.tmAt = some s.cyc ∧ (s.ringFull 2 = true → t.mac.q2 = s.mac.q2) ∧
       (s.ringFull 2 = false → ∃ e, t.mac.q2 = s.mac.q2 ++ [e] ∧ e.f.args.headD 0 = 0x76 ∧ e.f.dst.toNat = pa ∧
         e.f.ackreq = true)))) ∧
    (if s.macOn = true ∧ s.fld F.MAC_STAT_JST = 1 ∧ s.flag F.MAC_CTL_JOINEN = true ∧ s.mac.joinWait ≤ s.mac.joinAge then
      Ends .joinRetryDue s (fun t => t.mac.joinWait = min 256 (2 * s.mac.joinWait) ∧ t.mac.joinAge = 0 ∧
        t.fld F.CMD_RSEQ_RSEQ = (s.fld F.CMD_RSEQ_RSEQ + 1) % 256 ∧
        (s.ringFull 2 = false → ∃ e, t.mac.q2 = s.mac.q2 ++ [e] ∧ e.f.args.headD 0 = 0x70 ∧ e.f.sec = false))
      else exec .joinRetryDue s = .next s)

/-- On a path that responds, with no record unsettled and the state in its form. With SYS_UNLOCK open a write of
MAC_ROLE with another role stores it: with bench timing it waits for the next bench start, without it the node acts on
it at once, a HEAD listening first; closed, or with the same role, nothing changes. On the host path RDATA of ring Q4
and Q7 reads the words of the oldest entry in order, 0x0000 past it or of an empty ring; a write of RDATA on ring Q5
adds a word to the entry being built; POP takes the oldest entry; PUSH empties what was built and adds the completed
frame as the last of Q5, with this node's SRC and the next sequence, or sets FMTERR; ABORT empties it. The remote
path, and other rings, change nothing and read 0x0000. (R271, R276, R278, R280, R283, R291, R538) -/
def Obligations.RolesAndTheRingPort : Prop :=
  ∀ (p : Path) (s : State), s.Settled → s.Shape → s.pathUp p = true →
    let ring := s.fld F.MAC_RSEL_RING
    (∀ v : Word,
      let r := v.toNat % 4
      (s.unlocked p = false ∨ s.fld F.MAC_ROLE_ROLE = r →
        Ends (.roleWrite p v) s (fun t => t.regs = s.regs ∧ t.mac = s.mac)) ∧
      (s.unlocked p = true → s.fld F.MAC_ROLE_ROLE ≠ r → Ends (.roleWrite p v) s (fun t => t.fld F.MAC_ROLE_ROLE = r ∧
        (r = 3 → s.act = 3 → t.act = 3 ∧ t.mac = { s.mac with roleNew := none }) ∧
        (r ≠ 3 ∨ s.act ≠ 3 → s.benchTimed = true → t.act = s.act ∧
          t.mac = { s.mac with roleNew := some r }) ∧
        (s.benchTimed = false → r = 3 → s.act ≠ 3 → t.act = 0 ∧
          t.mac = { s.mac with listen := some 0, listenAt := s.benchPos }) ∧
        (s.benchTimed = false → r = 0 ∨ r = 2 → t.act = r ∧ t.mac = { s.mac with listen := none }) ∧
        (s.benchTimed = false → r = 1 → s.fld F.MAC_PARENT_PTIER < 8 ∨ s.fld F.MAC_PARENT_PARENT = 0x3FF →
          t.act = 1) ∧
        (s.benchTimed = false → r = 1 → 8 ≤ s.fld F.MAC_PARENT_PTIER → s.fld F.MAC_PARENT_PARENT ≠ 0x3FF →
          t.act = 0 ∧ t.flag F.MAC_STAT_TIERX = true)))) ∧
    (∀ e l, s.mac.q4 = e :: l → p = .host → ring = 4 → Ends (.ringDataRead p) s (fun t => t.regs = s.regs ∧
      (t.path p).last = e.words.getD s.mac.rd 0 ∧ t.mac = { s.mac with rd := s.mac.rd + 1 })) ∧
    (∀ w l, s.q7 = w :: l → p = .host → ring = 7 → Ends (.ringDataRead p) s (fun t => t.regs = s.regs ∧ t.q7 = s.q7 ∧
      (s.mac.rd7 = 0 → (t.path p).last = BitVec.ofNat 16 (w / 65536)) ∧
      (s.mac.rd7 = 1 → (t.path p).last = BitVec.ofNat 16 w) ∧ (1 < s.mac.rd7 → (t.path p).last = 0) ∧
      t.mac = { s.mac with rd7 := s.mac.rd7 + 1 })) ∧
    (p = .remote ∨ (ring ≠ 4 ∧ ring ≠ 7) ∨ (ring = 4 ∧ s.mac.q4 = []) ∨ (ring = 7 ∧ s.q7 = []) →
      Ends (.ringDataRead p) s (fun t => (t.path p).last = 0 ∧ t.mac = s.mac ∧ t.regs = s.regs)) ∧
    (∀ v : Word, (p = .host → ring = 5 → Ends (.ringDataWrite p v) s (fun t => t.regs = s.regs ∧
        t.mac = { s.mac with build := s.mac.build ++ [v] })) ∧
      (p = .remote ∨ ring ≠ 5 → Ends (.ringDataWrite p v) s (fun t => t.regs = s.regs ∧ t.mac = s.mac))) ∧
    (p = .host → ring = 4 → Ends (.ringPop p) s (fun t => t.mac = { s.mac with q4 := s.mac.q4.tail, rd := 0 } ∧
      t.regs = s.regs)) ∧
    (p = .host → ring = 7 → Ends (.ringPop p) s (fun t => t.q7 = s.q7.tail ∧ t.mac = { s.mac with rd7 := 0 } ∧
      t.regs = s.regs)) ∧
    (p = .remote ∨ (ring ≠ 4 ∧ ring ≠ 7) → Ends (.ringPop p) s (fun t => t.mac = s.mac ∧ t.q7 = s.q7 ∧ t.regs = s.regs)) ∧
    (p = .host → ring = 5 → Ends (.ringAbort p) s (fun t => t.mac = { s.mac with build := [] } ∧ t.regs = s.regs)) ∧
    (p = .remote ∨ ring ≠ 5 → ∀ c ∈ [Instr.ringPush p, .ringAbort p],
      Ends c s (fun t => t.mac = s.mac ∧ t.regs = s.regs)) ∧
    (p = .host → ring = 5 →
      let b := (wordsBytes (s.mac.build.drop 1)).take (getBits (s.mac.build.headD 0) 15 8 + 1)
      (parseHdr b = none → Ends (.ringPush p) s (fun t => t.mac = { s.mac with build := [] } ∧
        t.flag F.MAC_STAT_FMTERR = true)) ∧
      (∀ f pay, parseHdr b = some (f, pay) →
        (2 < f.typ.toNat ∨ 220 < pay.length ∨ s.ringFull 5 = true → Ends (.ringPush p) s (fun t =>
          t.mac = { s.mac with build := [] } ∧ t.flag F.MAC_STAT_FMTERR = true)) ∧
        (f.typ.toNat ≤ 2 → pay.length ≤ 220 → s.ringFull 5 = false → f.typ ≠ 0 ∨ s.flag F.CMD_CTL_LOOP = false →
          Ends (.ringPush p) s (fun t => t.mac.build = [] ∧ t.mac.seq = (s.mac.seq + 1) % 4096 ∧
            ∃ e, t.mac.q5 = s.mac.q5 ++ [e] ∧ e.f.args = pay ∧ e.f.dst = f.dst ∧ e.f.typ = f.typ ∧
              e.f.src = BitVec.ofNat 10 s.short ∧ e.f.seq = BitVec.ofNat 12 s.mac.seq ∧ e.f.seg = s.reg R.MAC_SEG))))

/-- For every line command that the command engine answers, with its opcode, key classes and whether only the acting
head may send it, and every state with no record unsettled: with the engine off nothing changes. What waits in front
of it in rings Q0 and Q1 goes first: frames of no opcode are refused, and where another frame then stands in front
nothing more happens. Where a frame that was not looped has no protection it is dropped after its ring is left: it
does not count, and CMD_LAST stays. Otherwise it counts in CMD_CNT, and ends refused, counted and shown in CMD_LAST,
with BADOPC where it is no COMMAND, else with KEY where its key class is not accepted, else with DENIED where it does
not come from the acting head, else with BADLEN where it has no payload; lamps, tables, switching, time and flash are
then as they were. (R288, R289, R290, R291, R293, R296, R298, R299, R301, R306, R309, R316) -/
def Obligations.LineCommandsAreCheckedInOrder : Prop :=
  ∀ (s : State) (f : LineFrame), s.Settled →
    ∀ x ∈ [(Instr.setCmd f, 0x00, [clsNet, clsGroup], false), (.setAt f, 0x01, [clsNet, clsGroup], false),
      (.setEvr f, 0x02, [clsNet, clsGroup], false), (.plate f, 0x03, [clsNet, clsGroup], false),
      (.plateAt f, 0x04, [clsNet, clsGroup], false), (.plateEvr f, 0x05, [clsNet, clsGroup], false),
      (.release f, 0x06, [clsNet, clsGroup], false), (.event f, 0x08, [clsNet, clsGroup], false),
      (.grpSet f, 0x20, [clsAdmin], true), (.grpAdd f, 0x21, [clsAdmin], true), (.grpDel f, 0x22, [clsAdmin], true),
      (.posSet f, 0x23, [clsAdmin], true), (.tabOpen f, 0x28, [clsAdmin], true), (.tabWrite f, 0x29, [clsAdmin], true),
      (.tabClose f, 0x2A, [clsAdmin], true), (.tabSave f, 0x2B, [clsAdmin], true), (.plateWr f, 0x2C, [clsAdmin], true),
      (.cfgSave f, 0x2D, [clsAdmin], true), (.qStatus f, 0x40, [clsNet], true), (.qLamp f, 0x41, [clsNet], true),
      (.qHealth f, 0x42, [clsNet], true), (.qEnergy f, 0x43, [clsNet], true), (.qHatch f, 0x44, [clsNet], true),
      (.qEvents f, 0x45, [clsNet], true), (.qGauge f, 0x46, [clsNet], true), (.qTime f, 0x47, [clsNet], true),
      (.qVersion f, 0x48, [clsNet], true), (.qLink f, 0x49, [clsNet], true), (.rd f, 0x60, [clsAdmin], true),
      (.wr f, 0x61, [clsAdmin], true), (.wrl f, 0x62, [clsAdmin], true), (.addrSet f, 0x72, [clsNet], true),
      (.roleSet f, 0x73, [clsNet], true), (.rsvGrant f, 0x74, [clsNet], true), (.rsvSet f, 0x75, [clsNet], true),
      (.tmReq f, 0x76, [clsNet], false), (.tmResp f, 0x77, [clsNet], false), (.offsetSet f, 0x78, [clsNet], true),
      (.leave f, 0x79, [clsNet], true), (.tmAsk f, 0x7A, [clsNet], true), (.bBegin f, 0x80, [clsNet], true),
      (.bBlock f, 0x81, [clsNet], true), (.bRepair f, 0x82, [clsNet], true), (.bCommit f, 0x83, [clsNet], true),
      (.bAbort f, 0x84, [clsNet], true), (.proof f, 0x90, [clsNet], true), (.cert f, 0x91, [clsNet], true),
      (.mbStat f, 0xAF, [clsNet], false)],
      let c := x.1
      let opc := x.2.1
      let t0 := (s.tabFlush.takeFrame opc f).1
      let kept (t : State) : Prop := t.fde = t0.fde ∧ t.lmp = t0.lmp ∧ t.hlt = t0.hlt ∧ t.pwm = t0.pwm ∧ t.tim = t0.tim ∧
        t.vlt.flash = t0.vlt.flash ∧ t.sec = t0.sec
      let refused (code : Nat) : Prop := Ends c s (fun t => t.reg R.CMD_CNT = t0.reg R.CMD_CNT + 1 ∧
        Answers (s.took opc f) t (s.replyTo opc f) code [] ∧ kept t)
      let wrongClass := f.sec = true ∧ x.2.2.1.contains (kidClass f.kid.toNat) = false
      let stranger := x.2.2.2 = true ∧ f.src.toNat ≠ t0.fld F.MAC_HEAD_A
      (s.cmdOn = false → exec c s = .next s) ∧
      (s.cmdOn = true → (s.tabFlush.takeFrame opc f).2 = none → Ends c s (fun t =>
        t.reg R.CMD_CNT = t0.reg R.CMD_CNT ∧ t.reg R.CMD_LAST = t0.reg R.CMD_LAST ∧ t.mac = t0.mac ∧ kept t)) ∧
      (∀ loop snr, (s.tabFlush.takeFrame opc f).2 = some (loop, snr) → s.cmdOn = true →
      (f.sec = false → loop = false → Ends c s (fun t => t.reg R.CMD_CNT = t0.reg R.CMD_CNT ∧
        t.reg R.CMD_LAST = t0.reg R.CMD_LAST ∧ t.mac = t0.mac ∧ kept t)) ∧
      (f.sec = true ∨ loop = true →
        (f.typ ≠ 0 → refused cBadOpc) ∧
        (f.typ = 0 → loop = false → wrongClass → refused cKey) ∧
        (f.typ = 0 → loop = false → ¬ wrongClass → stranger → refused cDenied) ∧
        (f.typ = 0 → loop = true ∨ (¬ wrongClass ∧ ¬ stranger) → f.args = [] → refused cBadLen)))

/-- For a lamp command that passes the checks, and every state with no record unsettled: SET and PLATE of their three
forms, well formed and naming a lamp, queue one request at level 3, or 5 where urgent, with the start of their form
(now, the instant given, destination 0x22), with the value for each lamp of the mask or the plate to be read, to be
answered when it is decided; RELEASE queues the release of its lamps at that level; EVENT queues the event with its
position and instant and ends with code 0. One of the wrong length ends refused with BADLEN, one without a lamp, with
more than 999 ms or with reserved flags with RANGE, and nothing is queued. (R287, R292, R293, R294, R295) -/
def Obligations.LampCommandsAsk : Prop :=
  ∀ (s : State) (f : LineFrame), s.Settled →
    let a := f.args.drop 1
    let w (i : Nat) : Word := BitVec.ofNat 16 (numAt a (1 + 2 * i) 2)
    let mask := numAt a 0 1
    let lvl := if f.urg then 5 else 3
    let at_ (i : Nat) : StartAt := .instant (instantMs (numAt a i 4) (numAt a (i + 4) 2))
    let cls := [clsNet, clsGroup]
    let vals := (maskLamps mask).map (fun l => (l, valueReq (w 0) (w 1) (w 2) (w 3).toNat (w 4) (w 5).toNat))
    (∀ x ∈ [(Instr.setCmd f, 0x00, 13, StartAt.now), (.setAt f, 0x01, 19, at_ 13), (.setEvr f, 0x02, 13, .evr)],
      let u := s.took x.2.1 f
      s.passes x.2.1 cls false f = true →
        (a.length ≠ x.2.2.1 → Ends x.1 s (fun t => t.fde = u.fde ∧ Answers u t (s.replyTo x.2.1 f) cBadLen [])) ∧
        (a.length = x.2.2.1 → mask = 0 ∨ (x.2.1 = 1 ∧ 999 < numAt a 17 2) ∨ (w 4).toNat % 512 ≠ 0 → Ends x.1 s (fun t =>
          t.fde = u.fde ∧ Answers u t (s.replyTo x.2.1 f) cRange [])) ∧
        (a.length = x.2.2.1 → mask ≠ 0 → (x.2.1 = 1 → numAt a 17 2 ≤ 999) → (w 4).toNat % 512 = 0 → Ends x.1 s (fun t =>
          t.reg R.CMD_CNT = u.reg R.CMD_CNT ∧ t.reg R.CMD_LAST = BitVec.ofNat 16 (x.2.1 * 256) ∧
          t.fde = { u.fde with reqs := t.fde.reqs } ∧
          ∃ q, t.fde.reqs = u.fde.reqs ++ [q] ∧ q.lvl = lvl ∧ q.start = x.2.2.2 ∧ q.lamps = vals ∧ q.plate = none ∧
            q.reply = some (s.replyTo x.2.1 f)))) ∧
    (∀ x ∈ [(Instr.plate f, 0x03, 6, StartAt.now), (.plateAt f, 0x04, 12, at_ 6), (.plateEvr f, 0x05, 6, .evr)],
      let u := s.took x.2.1 f
      s.passes x.2.1 cls false f = true →
        (a.length ≠ x.2.2.1 → Ends x.1 s (fun t => t.fde = u.fde ∧ Answers u t (s.replyTo x.2.1 f) cBadLen [])) ∧
        (a.length = x.2.2.1 → mask = 0 ∨ (x.2.1 = 4 ∧ 999 < numAt a 10 2) → Ends x.1 s (fun t =>
          t.fde = u.fde ∧ Answers u t (s.replyTo x.2.1 f) cRange [])) ∧
        (a.length = x.2.2.1 → mask ≠ 0 → (x.2.1 = 4 → numAt a 10 2 ≤ 999) → Ends x.1 s (fun t =>
          t.fde = { u.fde with reqs := t.fde.reqs } ∧
          ∃ q, t.fde.reqs = u.fde.reqs ++ [q] ∧ q.lvl = lvl ∧ q.start = x.2.2.2 ∧
            q.lamps = [] ∧ q.plate = some { plate := numAt a 1 1, mask := mask, hold := numAt a 2 2
                                            fade := if numAt a 4 2 = 65535 then none else some (numAt a 4 2) } ∧
            q.reply = some (s.replyTo x.2.1 f)))) ∧
    (let u := s.took 0x06 f
     s.passes 0x06 cls false f = true →
      (a.length ≠ 3 → Ends (.release f) s (fun t => t.fde = u.fde ∧ Answers u t (s.replyTo 0x06 f) cBadLen [])) ∧
      (a.length = 3 → mask = 0 → Ends (.release f) s (fun t => t.fde = u.fde ∧ Answers u t (s.replyTo 0x06 f) cRange [])) ∧
      (a.length = 3 → mask ≠ 0 → Ends (.release f) s (fun t => t.fde = { u.fde with
        rels := u.fde.rels ++ [(lvl, mask, numAt a 1 2, none, some (s.replyTo 0x06 f))] }))) ∧
    (let u := s.took 0x08 f
     let flg := numAt a 3 1
     let bad := 2 ≤ flg ∨ 999 < numAt a 8 2 ∨ (flg = 0 ∧ (numAt a 4 4 ≠ 0 ∨ numAt a 8 2 ≠ 0))
     s.passes 0x08 cls false f = true →
      (a.length ≠ 10 → Ends (.event f) s (fun t => t.fde = u.fde ∧ Answers u t (s.replyTo 0x08 f) cBadLen [])) ∧
      (a.length = 10 → bad → Ends (.event f) s (fun t => t.fde = u.fde ∧ Answers u t (s.replyTo 0x08 f) cRange [])) ∧
      (a.length = 10 → ¬ bad → Ends (.event f) s (fun t => Answers u t (s.replyTo 0x08 f) cOk [] ∧
        t.fde = { u.fde with events := u.fde.events ++ [{
          typ := numAt a 0 1, pos := numAt a 1 2, rx := u.tim.now, valid := u.timeValid,
          at_ := if flg = 1 then some (instantMs (numAt a 4 4) (numAt a 8 2)) else none }] })))

/-- For a configuration command from the acting head that passes the checks, and every state with no record unsettled:
GRP_SET writes the four group words, GRP_ADD and GRP_DEL set and clear one bit, POS_SET writes MAC_POS; TAB_OPEN opens
the edit copy of a page, TAB_WRITE puts its first 32 words into an open one of LMP or HLT from its address on, further
words wait for later bursts and the answer with them, TAB_CLOSE closes it, with CHECK where it fails; TAB_SAVE and
CFG_SAVE queue their save where the vault has room, and end with BUSY where not; PLATE_WR hands on a plate that
passes. A wrong length ends refused with BADLEN; a group above 63 and a page without tables end with RANGE, a table
not open with STATE. Each that is done ends with code 0. (R271, R296, R297, R442) -/
def Obligations.ConfigurationCommandsWrite : Prop :=
  ∀ (s : State) (f : LineFrame), s.Settled →
    let a := f.args.drop 1
    let go (opc : Nat) : Prop := s.passes opc [clsAdmin] true f = true
    let u (opc : Nat) : State := s.took opc f
    let ends (c : Instr) (opc code : Nat) (P : State → Prop) : Prop :=
      Ends c s (fun t => Answers (u opc) t (s.replyTo opc f) code [] ∧ P t)
    let page := numAt a 0 1
    let tab := page = 6 ∨ page = 7 ∨ page = 8
    (∀ x ∈ [(Instr.grpSet f, 0x20, 8), (.grpAdd f, 0x21, 1), (.grpDel f, 0x22, 1), (.posSet f, 0x23, 2), (.tabOpen f, 0x28, 1),
        (.tabClose f, 0x2A, 1), (.tabSave f, 0x2B, 1), (.plateWr f, 0x2C, 65), (.cfgSave f, 0x2D, 0)],
      go x.2.1 → a.length ≠ x.2.2 → ends x.1 x.2.1 cBadLen (fun t => t.fde = (u x.2.1).fde ∧ t.lmp = (u x.2.1).lmp ∧
        t.vlt.buf = (u x.2.1).vlt.buf)) ∧
    (go 0x20 → a.length = 8 → ends (.grpSet f) 0x20 0 (fun t => ∀ i, i < 4 →
      t.reg (R.MAC_GRP0 + 64 * i) = BitVec.ofNat 16 (numAt a (6 - 2 * i) 2))) ∧
    (∀ x ∈ [(Instr.grpAdd f, 0x21, true), (.grpDel f, 0x22, false)], go x.2.1 → a.length = 1 →
      let g := numAt a 0 1
      (64 ≤ g → ends x.1 x.2.1 cRange (fun _ => True)) ∧
      (g < 64 → ends x.1 x.2.1 0 (fun t => ∀ k, k < 64 → t.bit (R.MAC_GRP0 + 64 * (k / 16)) (k % 16) =
        if k = g then x.2.2 else (u x.2.1).bit (R.MAC_GRP0 + 64 * (k / 16)) (k % 16)))) ∧
    (go 0x23 → a.length = 2 → ends (.posSet f) 0x23 0 (fun t => t.reg R.MAC_POS = BitVec.ofNat 16 (numAt a 0 2))) ∧
    (∀ x ∈ [(Instr.tabOpen f, 0x28), (.tabClose f, 0x2A), (.tabSave f, 0x2B)], go x.2 → a.length = 1 → ¬ tab →
      ends x.1 x.2 cRange (fun t => t.fde = (u x.2).fde ∧ t.lmp = (u x.2).lmp ∧ t.vlt.buf = (u x.2).vlt.buf)) ∧
    (go 0x28 → a.length = 1 → tab → ends (.tabOpen f) 0x28 0 (fun t => t.editOpen page = true ∧
      (page = 6 → t.lmp.edit = (u 0x28).lmp.active) ∧ (page = 7 → t.fde.edit = (u 0x28).fde.active) ∧
      (page = 8 → t.hlt.edit = (u 0x28).hlt.active))) ∧
    (go 0x29 → 5 ≤ a.length → a.length = 5 + 2 * numAt a 4 1 →
      let n := numAt a 4 1
      let addr := numAt a 2 2
      let waits (t : State) : Prop := 32 < n → t.cmd.rest = (bytesWords (a.drop 5)).drop 32 ∧
        t.cmd.restTo = some (s.replyTo 0x29 f)
      (¬ tab ∨ n = 0 ∨ 96 < n ∨ (page ≠ 7 ∧ numAt a 1 1 ≠ 0) ∨ 15 < numAt a 1 1 →
        ends (.tabWrite f) 0x29 cRange (fun t => t.lmp = (u 0x29).lmp ∧ t.hlt = (u 0x29).hlt)) ∧
      (tab → n ≠ 0 → n ≤ 96 → (page ≠ 7 → numAt a 1 1 = 0) → numAt a 1 1 ≤ 15 → (u 0x29).editOpen page = false →
        ends (.tabWrite f) 0x29 cState (fun t => t.lmp = (u 0x29).lmp ∧ t.hlt = (u 0x29).hlt)) ∧
      (n ≠ 0 → n ≤ 96 → numAt a 1 1 = 0 → page = 6 → (u 0x29).editOpen 6 = true → addr + n ≤ lmpWords →
        Ends (.tabWrite f) s (fun t => (n ≤ 32 → Answers (u 0x29) t (s.replyTo 0x29 f) 0 []) ∧ waits t ∧
          ∀ i, i < n → i < 32 → lmpAt t.lmp.edit (addr + i) = BitVec.ofNat 16 (numAt a (5 + 2 * i) 2))) ∧
      (n ≠ 0 → n ≤ 96 → numAt a 1 1 = 0 → page = 8 → (u 0x29).editOpen 8 = true → addr + n ≤ hltWords →
        Ends (.tabWrite f) s (fun t => (n ≤ 32 → Answers (u 0x29) t (s.replyTo 0x29 f) 0 []) ∧ waits t ∧
          ∀ i, i < n → i < 32 → spGet hltDefault t.hlt.edit (addr + i) = BitVec.ofNat 16 (numAt a (5 + 2 * i) 2)))) ∧
    (go 0x2A → a.length = 1 → tab →
      ((u 0x2A).editOpen page = false → ends (.tabClose f) 0x2A cState (fun _ => True)) ∧
      ((u 0x2A).editOpen page = true → (u 0x2A).editPasses page = true → ends (.tabClose f) 0x2A 0 (fun t =>
        (page = 6 → t.flag F.LMP_STAT_TABPEND = true) ∧ (page = 7 → t.flag F.FDE_STAT_TABPEND = true) ∧
        (page = 8 → t.flag F.HLT_STAT_TABPEND = true))) ∧
      ((u 0x2A).editOpen page = true → (u 0x2A).editPasses page = false → Ends (.tabClose f) s (fun t =>
        Answers (u 0x2A) t (s.replyTo 0x2A f) cCheck (t.failWords page) ∧
        (page = 6 → t.flag F.LMP_STAT_TABERR = true) ∧ (page = 7 → t.flag F.FDE_STAT_TABERR = true) ∧
        (page = 8 → t.flag F.HLT_STAT_TABERR = true)))) ∧
    (go 0x2B → a.length = 1 → tab →
      ((u 0x2B).vRoom 2 = false → ends (.tabSave f) 0x2B cBusy (fun t => t.vlt.buf = (u 0x2B).vlt.buf)) ∧
      ((u 0x2B).vRoom 2 = true → ends (.tabSave f) 0x2B 0 (fun t =>
        (page = 6 → t.flag F.LMP_STAT_SAVEPEND = true) ∧ (page = 7 → t.flag F.FDE_STAT_SAVEPEND = true) ∧
        (page = 8 → t.flag F.HLT_STAT_SAVEPEND = true)))) ∧
    (go 0x2C → a.length = 65 →
      let ws := bytesWords (a.drop 1)
      ((u 0x2C).vRoom 64 = false → ends (.plateWr f) 0x2C cBusy (fun t => t.vlt.buf = (u 0x2C).vlt.buf)) ∧
      ((u 0x2C).vRoom 64 = true → (plateFail ws).isNone = true →
        ends (.plateWr f) 0x2C 0 (fun t => t.plateWords page = ws))) ∧
    (go 0x2D → a.length = 0 →
      ((u 0x2D).vRoom 2 = false → ends (.cfgSave f) 0x2D cBusy (fun t => t.vlt.buf = (u 0x2D).vlt.buf)) ∧
      ((u 0x2D).vRoom 2 = true → ends (.cfgSave f) 0x2D 0 (fun t => t.vlt.buf.any (fun e => match e with
        | .bank true 0 b => b.cfg == (u 0x2D).cfgBody
        | _ => false) = true)))

/-- For a query or register access from the acting head that passes the checks, and every state with no record
unsettled: each of the ten queries and MB_STAT, of its length and within its range, ends with code 0 and its body as
DATA; out of range with RANGE, of another length with BADLEN, in both cases without DATA. RD of one word answers what
a read on the remote path gives. WR and WRL of one word to a register of a field-by-field page, other than page SYS
and CMD, that is not locked store the merge of R2, answer IGN 0 and post event 0x081 of class 5 with the page; a word
that is not applied, to a locked register or one the line may not write, ends with its code, with its bit of IGN set
and no locked field changed. (R290, R298, R299, R300, R310, R311, R312) -/
def Obligations.QueriesAnswerTheirBodies : Prop :=
  ∀ (s : State) (f : LineFrame), s.Settled →
    let a := f.args.drop 1
    let u (opc : Nat) : State := s.took opc f
    (∀ x ∈ [(Instr.qStatus f, 0x40, 0, true, (u 0x40).statusBody),
        (.qLamp f, 0x41, 1, decide (numAt a 0 1 < 8),
          let l := numAt a 0 1
          wordsBytes [(u 0x41).reg (R.LMP_BOUT + l), (u 0x41).reg (R.LMP_UOUT + l), (u 0x41).reg (R.LMP_VOUT + l),
            (u 0x41).fdeOwn l]),
        (.qHealth f, 0x42, 2, true, (u 0x42).healthBody (numAt a 0 2)), (.qEnergy f, 0x43, 0, true, (u 0x43).energyBody),
        (.qHatch f, 0x44, 2, decide (1 ≤ numAt a 1 1 ∧ numAt a 1 1 ≤ 16 ∧ numAt a 0 1 + numAt a 1 1 ≤ 64),
          (List.range (numAt a 1 1)).flatMap (fun i => toBytes 4 ((u 0x44).hat (numAt a 0 1 + i)))),
        (.qEvents f, 0x45, 3, decide (numAt a 0 2 < 8192 ∧ 1 ≤ numAt a 2 1 ∧ numAt a 2 1 ≤ 12),
          (u 0x45).eventsBody (numAt a 0 2) (numAt a 2 1)),
        (.qGauge f, 0x46, 0, true, toBytes 4 ((u 0x46).storeEnergy ((u 0x46).reg R.KEEP_VSTORE).toNat) ++
          toBytes 4 ((u 0x46).hat 38) ++ toBytes 4 ((u 0x46).pair R.KEEP_EHARV_LO) ++
          wordBytes ((u 0x46).reg R.KEEP_VSTORE) ++ wordBytes ((u 0x46).reg R.KEEP_VCELL)),
        (.qTime f, 0x47, 0, true, toBytes 4 (secOf (u 0x47).tim.now) ++ toBytes 4 (fracOf (u 0x47).tim.now) ++
          wordBytes ((u 0x47).word .remote 12 0x02 0)),
        (.qVersion f, 0x48, 0, true, wordBytes ((u 0x48).reg R.SYS_ID) ++ wordBytes ((u 0x48).reg R.SYS_REV) ++ euiBytes ++
          wordBytes ((u 0x48).reg R.SYS_BOOT) ++ toBytes 4 ((u 0x48).hat 3)),
        (.qLink f, 0x49, 0, true, wordsBytes [(u 0x49).word .remote 10 0x04 0, (u 0x49).reg R.MAC_PARENT,
          (u 0x49).reg R.MAC_BSINCE, (u 0x49).reg R.PHY_PHS, (u 0x49).reg R.MAC_RXERR, (u 0x49).reg R.MAC_ACKFCNT] ++
          toBytes 1 (u 0x49).mac.snr),
        (.mbStat f, 0xAF, 0, true, toBytes 1 ((u 0xAF).fld F.SYS_MODE_HOST) ++ toBytes 1 ((u 0xAF).ringFill 4) ++
          toBytes 1 ((u 0xAF).ringFill 5))],
      s.passes x.2.1 [clsNet] (x.2.1 != 0xAF) f = true →
        (a.length ≠ x.2.2.1 → Ends x.1 s (fun t => Answers (u x.2.1) t (s.replyTo x.2.1 f) cBadLen [])) ∧
        (a.length = x.2.2.1 → x.2.2.2.1 = false → Ends x.1 s (fun t =>
          Answers (u x.2.1) t (s.replyTo x.2.1 f) cRange [])) ∧
        (a.length = x.2.2.1 → x.2.2.2.1 = true → Ends x.1 s (fun t =>
          Answers (u x.2.1) t (s.replyTo x.2.1 f) cOk x.2.2.2.2))) ∧
    (s.passes 0x60 [clsAdmin] true f = true → a.length = 4 →
      (blockOk a = false → Ends (.rd f) s (fun t => Answers (u 0x60) t (s.replyTo 0x60 f) cRange [])) ∧
      (blockOk a = true → numAt a 2 1 = 1 → Ends (.rd f) s (fun t =>
        Answers (u 0x60) t (s.replyTo 0x60 f) cOk (wordBytes
          (((u 0x60).modPath .remote (fun q => { q with page := numAt a 0 1 })).readReg .remote (numAt a 0 1)
            (numAt a 1 1)).2)))) ∧
    (∀ x ∈ [(Instr.wr f, 0x61, decide (a.length = 6 ∧ blockOk a = true ∧ numAt a 2 1 = 1), numAt a 0 1, numAt a 1 1,
          numAt a 4 2),
        (.wrl f, 0x62, decide (a.length = 5 ∧ numAt a 0 1 = 1), numAt a 1 1, numAt a 2 1, numAt a 3 2)],
      let page := x.2.2.2.1
      let off := x.2.2.2.2.1
      let v : Word := BitVec.ofNat 16 x.2.2.2.2.2
      let k := regKey page off 0
      let w := u x.2.1
      s.passes x.2.1 [clsAdmin] true f = true → x.2.2.1 = true → page < 0x11 → 0 < off → off < 0x80 →
        page ∉ [0, 10, 11] →
        (∀ r, regDef page off = some r → r.count = 1 → PlainRegister page off = true →
          (w.remoteMark page off v = none → Ends x.1 s (fun t =>
            Answers w t (s.replyTo x.2.1 f) cOk [0, 0, 0, 0] ∧ t.reg k = w.mergedWord .remote page off 0 r v ∧
            (s.q6.length + w.posted.length < 60 → ∃ e ∈ t.q6, e.cls = 5 ∧ e.ev = 0x81 ∧ e.detail = page))) ∧
          (∀ code, w.remoteMark page off v = some code → Ends x.1 s (fun t =>
            Answers w t (s.replyTo x.2.1 f) code [0, 0, 0, 1] ∧ t.reg k = w.mergedWord .remote page off 0 r v))))

/-- With no record unsettled. JOIN_REQ enters Q4 of an acting head with a host, counts in MAC_DROPCNT without one, and
does nothing elsewhere. A JOIN_RESP from the acting head, passed or while JOINING without protection, for this EUI
while JOINING takes the address and JOINED, or on refusal UNJOINED and a bar of 256 benches; for another it changes
neither. ADDR_SET and LEAVE take effect when their response leaves Q2, at once where none waits there; ROLE_SET writes
the role; RSV_SET writes the entry and RSV_GRANT at the head adds the grant, where its courses are free; OFFSET_SET
writes TIM_OFFSET, held to -900 to 900, where OFSN allows and the node is no acting head. TM_REQ over one hop is
answered by TM_RESP, TM_RESP with a map from a neighbour that was asked writes it for its sender, TM_ASK sends TM_REQ;
over more hops the first two do nothing. Out of range each ends with RANGE, RSV_GRANT away from the head with STATE.
(R268, R301, R302, R303, R304, R305, R337, R471) -/
def Obligations.NetworkCommandsManageTheNode : Prop :=
  ∀ (s : State) (f : LineFrame), s.Settled →
    let a := f.args.drop 1
    let go (opc : Nat) (head : Bool) : Prop := s.passes opc [clsNet] head f = true
    let u (opc : Nat) : State := s.took opc f
    let ends (c : Instr) (opc code : Nat) (P : State → Prop) : Prop :=
      Ends c s (fun t => t.reg R.CMD_LAST = BitVec.ofNat 16 (opc * 256 + code) ∧ P t)
    (s.pathUp .remote = false ∨ s.isHead = false ∨ f.typ ≠ 1 → exec (.joinReq f) s = .next s) ∧
    (s.pathUp .remote = true → s.isHead = true → f.typ = 1 → s.forMe f = true → f.sec = false ∨ kidClass f.kid.toNat = clsNet →
      (s.flag F.SYS_MODE_HOST = true → s.ringFull 4 = false → Ends (.joinReq f) s (fun t =>
        ∃ e, t.mac.q4 = s.mac.q4 ++ [e] ∧ e.f.args = 0x70 :: f.args ∧ e.f.src = f.src)) ∧
      (s.flag F.SYS_MODE_HOST = false → Ends (.joinReq f) s (fun t => t.mac.q4 = s.mac.q4 ∧
        t.reg R.MAC_DROPCNT = s.reg R.MAC_DROPCNT + 1))) ∧
    (go 0x71 true ∨ (s.cmdOn = true ∧ f.typ = 0 ∧ f.sec = false ∧ s.fld F.MAC_STAT_JST = 1 ∧
        (s.tabFlush.takeFrame 0x71 f).2.isSome = true ∧
        f.src.toNat = (s.tabFlush.takeFrame 0x71 f).1.fld F.MAC_HEAD_A) → a.length = 13 →
      let mine := a.take 8 = euiBytes ∧ (u 0x71).fld F.MAC_STAT_JST = 1
      (mine → numAt a 8 1 = 0 → ends (.joinResp f) 0x71 0 (fun t => t.short = numAt a 9 2 % 1024 ∧
        t.fld F.MAC_STAT_JST = 2 ∧ ((u 0x71).reg R.MAC_SEG = 0xFFFF → t.reg R.MAC_SEG = BitVec.ofNat 16 (numAt a 11 2)) ∧
        ((u 0x71).reg R.MAC_SEG ≠ 0xFFFF → t.reg R.MAC_SEG = (u 0x71).reg R.MAC_SEG))) ∧
      (mine → numAt a 8 1 = 1 → ends (.joinResp f) 0x71 0 (fun t => t.short = (u 0x71).short ∧
        t.fld F.MAC_STAT_JST = 0 ∧ t.mac.barred = 256)) ∧
      (¬ mine → ends (.joinResp f) 0x71 0 (fun t => t.short = (u 0x71).short ∧
        t.fld F.MAC_STAT_JST = (u 0x71).fld F.MAC_STAT_JST))) ∧
    (go 0x72 true → a.length = 2 →
      let n := numAt a 0 2
      (n = 0 ∨ 1022 < n → ends (.addrSet f) 0x72 cRange (fun t => t.short = (u 0x72).short)) ∧
      (1 ≤ n → n ≤ 1022 →
        (toOne f = false → ends (.addrSet f) 0x72 0 (fun t => t.short = n)) ∧
        (toOne f = true → (s.replyTo 0x72 f).loop = false → (u 0x72).isHead = false → (u 0x72).ringFull 2 = false →
          ends (.addrSet f) 0x72 0 (fun t => t.short = (u 0x72).short ∧
            ∃ e, t.mac.q2 = (u 0x72).mac.q2 ++ [e] ∧ e.after = 1 ∧ e.arg = n)))) ∧
    (go 0x73 true → a.length = 1 →
      (3 < numAt a 0 1 → ends (.roleSet f) 0x73 cRange (fun t => t.fld F.MAC_ROLE_ROLE = (u 0x73).fld F.MAC_ROLE_ROLE)) ∧
      (numAt a 0 1 ≤ 3 → ends (.roleSet f) 0x73 0 (fun t => t.fld F.MAC_ROLE_ROLE = numAt a 0 1))) ∧
    (go 0x74 true → a.length = 5 →
      let w := u 0x74
      let tg := numAt a 0 2
      let ix := numAt a 2 1
      let st := numAt a 3 1
      let ln := numAt a 4 1
      let others := w.mac.grants.filter (fun g => !(g.1 == tg && g.2.1 == ix))
      let inh := if (courseRuns w.inheritedBits).contains (st, ln) then courseSub w.inheritedBits (courseBits st ln)
        else w.inheritedBits
      (w.isHead = false → ends (.rsvGrant f) 0x74 cState (fun t => t.mac.grants = w.mac.grants)) ∧
      (w.isHead = true → 1023 ≤ tg ∨ 3 < ix ∨ 16 < ln ∨ (ln ≠ 0 ∧ (st < 4 ∨ 60 < st + ln)) →
        ends (.rsvGrant f) 0x74 cRange (fun t => t.mac.grants = w.mac.grants)) ∧
      (w.isHead = true → tg < 1023 → ix ≤ 3 → 1 ≤ ln → ln ≤ 16 → 4 ≤ st → st + ln ≤ 60 →
        let free := (grantBits others ||| inh ||| courseBits 50 10) &&& courseBits st ln = 0 ∧
          others.length + (courseRuns inh).length + 2 ≤ 28
        (free → ends (.rsvGrant f) 0x74 0 (fun t => t.mac.grants = others ++ [(tg, ix, st, ln)])) ∧
        (¬ free → ends (.rsvGrant f) 0x74 cNoSpace (fun t => t.mac.grants = w.mac.grants)))) ∧
    (go 0x75 true → a.length = 3 →
      let i := numAt a 0 1
      let st := numAt a 1 1
      let ln := numAt a 2 1
      (3 < i ∨ 16 < ln ∨ (ln ≠ 0 ∧ (st < 4 ∨ 60 < st + ln)) → ends (.rsvSet f) 0x75 cRange (fun _ => True)) ∧
      (i ≤ 3 → 1 ≤ ln → ln ≤ 16 → 4 ≤ st → st + ln ≤ 60 → ends (.rsvSet f) 0x75 0 (fun t =>
        t.flag (F.MAC_RSV_VALID.at i) = true ∧ t.fld (F.MAC_RSV_START.at i) = st ∧
        t.fld (F.MAC_RSV_LEN.at i) = ln - 1 ∧ nthOf t.mac.rsvOk i = false)) ∧
      (i ≤ 3 → ln = 0 → ends (.rsvSet f) 0x75 0 (fun t => t.flag (F.MAC_RSV_VALID.at i) = false))) ∧
    (go 0x76 false →
      ((u 0x76).oneHop f = false → ends (.tmReq f) 0x76 0 (fun t => t.mac = (u 0x76).mac ∧ t.phy = (u 0x76).phy)) ∧
      ((u 0x76).oneHop f = true → a.length = 33 → numAt a 0 1 ≤ 7 → (∀ b ∈ a.drop 1, b = 0) →
        (u 0x76).ringFull 2 = false → ends (.tmReq f) 0x76 0 (fun t => ∃ e, t.mac.q2 = (u 0x76).mac.q2 ++ [e] ∧
          e.f.args.take 2 = [0x77, f.args.headD 0] ∧ e.f.dst = f.src ∧ e.f.ackreq = true))) ∧
    (go 0x77 false →
      ((u 0x77).oneHop f = false → ends (.tmResp f) 0x77 0 (fun t => t.phy = (u 0x77).phy)) ∧
      ((u 0x77).oneHop f = true → f.src.toNat ∉ (u 0x77).mac.asked → ends (.tmResp f) 0x77 cDenied (fun t =>
        t.phy = (u 0x77).phy)) ∧
      ((u 0x77).oneHop f = true → f.src.toNat ∈ (u 0x77).mac.asked → a.length = 81 → numAt a 0 1 = 1 → ends (.tmResp f) 0x77 0 (fun t =>
        ∃ e, e < 32 ∧ txMapOf t.phy e = (bytesWords (a.drop 1)).set 1 (BitVec.ofNat 16 f.src.toNat)))) ∧
    (go 0x78 true → a.length = 2 → ends (.offsetSet f) 0x78 0 (fun t => t.reg R.TIM_OFFSET =
      if (u 0x78).flag F.TIM_CTL_OFSN = true ∧ (u 0x78).isHead = false then
        BitVec.ofInt 16 (clampInt (-900) 900 (signed 16 (numAt a 0 2)))
      else (u 0x78).reg R.TIM_OFFSET)) ∧
    (go 0x79 true → a.length = 0 →
      (toOne f = false → ends (.leave f) 0x79 0 (fun t => t.short = 0x3FF ∧ t.fld F.MAC_STAT_JST = 0)) ∧
      (toOne f = true → (s.replyTo 0x79 f).loop = false → (u 0x79).isHead = false → (u 0x79).ringFull 2 = false →
        ends (.leave f) 0x79 0 (fun t => t.short = (u 0x79).short ∧
          ∃ e, t.mac.q2 = (u 0x79).mac.q2 ++ [e] ∧ e.after = 2))) ∧
    (go 0x7A true → a.length = 2 →
      let n := numAt a 0 2
      (n = 0 ∨ 1022 < n → ends (.tmAsk f) 0x7A cRange (fun _ => True)) ∧
      (1 ≤ n → n ≤ 1022 → (u 0x7A).ringFull 2 = false → ends (.tmAsk f) 0x7A 0 (fun t =>
        ∃ e ∈ t.mac.q2, e.f.args.headD 0 = 0x76 ∧ e.f.dst.toNat = n)))

/-- With no record unsettled, for a bundle command from the acting head that passes the checks. B_BEGIN of a new
handle erases the staging and opens the transfer; another while one is open ends with BUSY, a length of 0 or past 64
KiB with RANGE. B_BLOCK stores a block not yet received and counts it; the last makes the transfer COMPLETE; any other
is discarded. B_REPAIR answers the count and the bitmap of what is missing. B_COMMIT of a complete transfer hands it
to the security engine; where it cannot it ends with BUSY or STATE, which return an open transfer to IDLE, or with
BMISSING, which does not. B_ABORT ends the transfer of its handle, and always with code 0. The commit's end waits for
the vault to take the bundle up, shows its result in CMD_BCODE, and ends the transfer, unless it was ended before, and
then fails; where it passes, the version floor is the bundle's version and the CFG or TAB bank is installed. The reset
of an applied bundle is a soft reset; without one to apply, and without a commit, nothing happens. (R289, R306, R307,
R308, R455, R475, R476, R477) -/
def Obligations.BundlesAreTransferredAndCommitted : Prop :=
  ∀ (s : State) (f : LineFrame), s.Settled →
    let a := f.args.drop 1
    let go (opc : Nat) : Prop := s.passes opc [clsNet] true f = true
    let u (opc : Nat) : State := s.took opc f
    let ends (c : Instr) (opc code : Nat) (data : List Byte) (P : State → Prop) : Prop :=
      Ends c s (fun t => Answers (u opc) t (s.replyTo opc f) code data ∧ P t)
    let h := numAt a 0 1
    (go 0x80 → a.length = 5 →
      let w := u 0x80
      let len := numAt a 1 4
      (len = 0 ∨ 65536 < len → ends (.bBegin f) 0x80 cRange [] (fun t => t.vlt.flash = w.vlt.flash)) ∧
      (1 ≤ len → len ≤ 65536 →
        (w.bxferIs h = true → ends (.bBegin f) 0x80 (if w.pair R.CMD_BLEN_LO = len then 0 else cRange) [] (fun t =>
          t.vlt.flash = w.vlt.flash ∧ t.cmd = w.cmd)) ∧
        (w.bxferIs h = false → w.fld F.CMD_STAT_BST ≠ 0 → ends (.bBegin f) 0x80 cBusy [] (fun t =>
          t.vlt.flash = w.vlt.flash ∧ t.cmd = w.cmd)) ∧
        (w.fld F.CMD_STAT_BST = 0 → w.vRoom 58 = false → ends (.bBegin f) 0x80 cNoSpace [] (fun t =>
          t.vlt.flash = w.vlt.flash ∧ t.cmd = w.cmd)) ∧
        (w.fld F.CMD_STAT_BST = 0 → w.vRoom 58 = true → ends (.bBegin f) 0x80 0 [] (fun t =>
          t.fld F.CMD_STAT_BST = 1 ∧ t.fld F.CMD_BHDL_HDL = h ∧ t.pair R.CMD_BLEN_LO = len ∧ t.fld F.CMD_BRCV_N = 0 ∧
          t.fld F.CMD_BNBLK_N = blockCount len ∧ t.cmd.got = [] ∧
          (∀ i, i < 65536 → t.vlt.byte (fltStg + i) = 0xFF) ∧
          ∀ b, b < fltStg ∨ fltStg + 65536 ≤ b → t.vlt.byte b = w.vlt.byte b)))) ∧
    (go 0x81 →
      let w := u 0x81
      let i := numAt a 1 2
      let len := w.pair R.CMD_BLEN_LO
      let want := if i + 1 = blockCount len then len - 192 * i else 192
      let taken := 3 ≤ a.length ∧ w.bxferIs h = true ∧ w.fld F.CMD_STAT_BST = 1 ∧ i < blockCount len ∧
        a.length = 3 + want ∧ i ∉ w.cmd.got
      (¬ taken → ends (.bBlock f) 0x81 0 [] (fun t => t.vlt.flash = w.vlt.flash ∧ t.cmd = w.cmd ∧
        t.fld F.CMD_STAT_BST = w.fld F.CMD_STAT_BST)) ∧
      (taken → ends (.bBlock f) 0x81 0 [] (fun t => t.cmd.got = w.cmd.got ++ [i] ∧
        (∀ j, j < want → t.vlt.byte (fltStg + 192 * i + j) = a.getD (3 + j) 0) ∧
        (∀ b, b < fltStg + 192 * i ∨ fltStg + 192 * i + want ≤ b → t.vlt.byte b = w.vlt.byte b) ∧
        (w.cmd.got.length < 511 → t.fld F.CMD_BRCV_N = w.cmd.got.length + 1) ∧
        t.fld F.CMD_STAT_BST = if w.cmd.got.length + 1 = blockCount len then 2 else 1))) ∧
    (go 0x82 → a.length = 1 →
      let w := u 0x82
      let nb := w.fld F.CMD_BNBLK_N
      (w.bxferIs h = false → ends (.bRepair f) 0x82 cState [] (fun _ => True)) ∧
      (w.bxferIs h = true → ends (.bRepair f) 0x82 0 (toBytes 2 (w.fld F.CMD_BRCV_N) ++ bytesOf ((nb + 7) / 8)
        ((List.range (8 * ((nb + 7) / 8))).map (fun i => decide (i < nb) && !w.cmd.got.contains i))) (fun _ => True))) ∧
    (go 0x83 → a.length = 1 →
      let w := u 0x83
      let bst := w.fld F.CMD_STAT_BST
      let idle (t : State) : Prop := t.sec = w.sec ∧ t.fld F.CMD_STAT_BST = if bst = 3 then 3 else 0
      (w.signBusy = true → ends (.bCommit f) 0x83 cBusy [] (fun t => idle t ∧ t.fld F.CMD_BCODE_CODE = cBusy)) ∧
      (w.signBusy = false → w.bxferIs h = false → ends (.bCommit f) 0x83 cState [] idle) ∧
      (w.signBusy = false → w.bxferIs h = true → bst ≠ 2 → ends (.bCommit f) 0x83 cBMissing []
        (fun t => t.sec = w.sec ∧ t.fld F.CMD_STAT_BST = bst ∧ t.fld F.CMD_BCODE_CODE = cBMissing)) ∧
      (w.signBusy = false → w.bxferIs h = true → bst = 2 → Ends (.bCommit f) s (fun t =>
        t.fld F.CMD_STAT_BST = 3 ∧ t.sec.commit = some { reply := some (s.replyTo 0x83 f) } ∧
        t.reg R.CMD_LAST = 0x8300))) ∧
    (go 0x84 → a.length = 1 →
      let w := u 0x84
      (w.bxferIs h = false → ends (.bAbort f) 0x84 0 [] (fun t => t.cmd = w.cmd)) ∧
      (w.bxferIs h = true → ends (.bAbort f) 0x84 0 [] (fun t =>
        t.fld F.CMD_STAT_BST = 0 ∧ t.fld F.CMD_BHDL_HDL = 0 ∧ t.cmd.got = []))) ∧
    (s.sec.commit = none ∨ s.vaultFree = false → exec .bCommitDone s = .next s) ∧
    (∀ j, s.sec.commit = some j → s.vaultFree = true →
      let b := if s.fld F.CMD_STAT_BST = 3 then s.staged else []
      let ended := if s.fld F.CMD_STAT_BST = 3 then 0 else s.fld F.CMD_STAT_BST
      (∀ v c d, s.bundleCheck b = (v, .inl (c, d)) → Ends .bCommitDone s (fun t => t.sec.commit = none ∧
        t.fld F.CMD_STAT_BST = ended ∧ t.fld F.CMD_BCODE_CODE = c % 256 ∧ t.flag F.CMD_STAT_BNDFAIL = true ∧
        t.vlt.cfgBank = s.vlt.cfgBank ∧ t.vlt.tabBank = s.vlt.tabBank ∧ t.hat 3 = s.hat 3)) ∧
      (∀ v hd body, s.bundleCheck b = (v, .inr (hd, body)) → v.bundleReady body = false →
        exec .bCommitDone s = .next s) ∧
      (∀ v hd body, s.bundleCheck b = (v, .inr (hd, body)) → v.bundleReady body = true → Ends .bCommitDone s (fun t => t.sec.commit = none ∧
        t.fld F.CMD_STAT_BST = ended ∧ t.fld F.CMD_BCODE_CODE = 0 ∧ t.flag F.CMD_STAT_BNDOK = true ∧
        (s.vlt.hatBad = false → hd.version < 2 ^ 32 → t.hat 3 = hd.version) ∧
        (∀ l, body = .cfg l → s.vlt.cfgBank.length = 2 → t.vlt.cfgBank.getD (1 - s.fld F.SYS_BOOT_CFGBANK) none =
          some { version := hd.version, saves := 0, digest := hd.digest, cfg := l } ∧
          t.fld F.SYS_BOOT_CFGBANK = 1 - s.fld F.SYS_BOOT_CFGBANK) ∧
        (∀ l, body = .tab l → s.vlt.tabBank.length = 2 → t.vlt.tabBank.getD (1 - s.fld F.SYS_BOOT_TABBANK) none =
          some { version := hd.version, saves := 0, digest := hd.digest, tab := l } ∧ t.vlt.tabDue = true)))) ∧
    (s.cmd.apply = false → exec .bundleApplyReset s = .next s) ∧
    (s.cmd.apply = true → Ends .bundleApplyReset s (fun t => t.pwr.boot = 4 ∧ t.pwr.softRst = true ∧ t.mac = {} ∧
      t.fde = {} ∧ t.fld F.PWR_LRST_CAUSE = 5))

/-- With no record unsettled. A passed PROOF with its 16 bytes of challenge starts one proof with the body of R480,
and ends with BUSY while one or a commit runs, with STATE where the part cannot sign. The end of the signature frees
the engine: a host's proof is the body followed by its signature in table 0x4 with result OK, the line's goes out as a
report where its command was sent to this node alone. CERT answers the bytes asked for, or RANGE. The end of an alarm
gap with no event in it, or of an alarm no longer enabled, closes the gap; with events it makes one alarm that carries
their count and keeps the gap. A minute that is due, with reports on, joined and timed, makes the ENERGY and HEALTH
reports that fall in it, or skips them where Q2 is full; a minute taken before makes none. (R309, R311, R313, R314,
R315, R463, R480) -/
def Obligations.ProofsAlarmsAndReports : Prop :=
  ∀ (s : State) (f : LineFrame), s.Settled →
    let a := f.args.drop 1
    (let w := s.took 0x90 f
     let r := s.replyTo 0x90 f
     s.passes 0x90 [clsNet] true f = true →
      (a.length ≠ 16 → Ends (.proof f) s (fun t => Answers w t r cBadLen [] ∧ t.sec = w.sec)) ∧
      (a.length = 16 → w.signBusy = true → Ends (.proof f) s (fun t => Answers w t r cBusy [] ∧ t.sec = w.sec)) ∧
      (a.length = 16 → w.signBusy = false → w.sec.life = 0 ∨ w.testsFailed = true → Ends (.proof f) s (fun t =>
        Answers w t r cState [] ∧ t.sec = w.sec)) ∧
      (a.length = 16 → w.signBusy = false → w.sec.life ≠ 0 → w.testsFailed = false → Ends (.proof f) s (fun t =>
        t.sec = { w.sec with proof := some { reply := some r, body := w.proofBody a } } ∧
        t.reg R.CMD_LAST = 0x9000 ∧ t.mac = w.mac))) ∧
    (s.sec.proof = none → exec .proofSignDone s = .next s) ∧
    (∀ j, s.sec.proof = some j → Ends .proofSignDone s (fun t => t.sec.proof = none ∧ t.free = s.free + 1 ∧
      (j.reply = none → t.sec.body = s.proofSigned j.body ∧ t.reg R.SEC_RESULT = 0x8000 ∧ t.sec.cmdRun = false) ∧
      (∀ r, j.reply = some r → r.short = true → r.loop = false → s.isHead = false → s.ringFull 2 = false →
        ∃ e, t.mac.q2 = s.mac.q2 ++ [e] ∧ e.f.args.take 2 = [0xC5, r.tag] ∧
          e.f.args.drop 6 = s.proofSigned j.body) ∧
      (∀ r, j.reply = some r → r.short = false → t.mac = s.mac))) ∧
    (s.passes 0x91 [clsNet] true f = true → a.length = 3 →
      let o := numAt a 0 2
      let n := numAt a 2 1
      let bad := n = 0 ∨ 192 < n ∨ min Config.certLen 768 < o + n
      (bad → Ends (.cert f) s (fun t => Answers (s.took 0x91 f) t (s.replyTo 0x91 f) cRange [])) ∧
      (¬ bad → Ends (.cert f) s (fun t => Answers (s.took 0x91 f) t (s.replyTo 0x91 f) 0
        ((List.range n).map (fun i => certByte (o + i)))))) ∧
    (∀ b : Fin 13, s.cmd.alarms.length = 13 →
      let x := nthOf s.cmd.alarms b
      (x.gap = false → exec (.alarmGapEnd b) s = .next s) ∧
      (x.gap = true → x.n = 0 ∨ s.flag F.CMD_CTL_ALMEN = false ∨ s.bit R.CMD_ALM b = false → Ends (.alarmGapEnd b) s (fun t => t.regs = s.regs ∧ t.mac = s.mac ∧
        nthOf t.cmd.alarms b = { x with gap := false })) ∧
      (x.gap = true → x.n ≠ 0 → s.flag F.CMD_CTL_ALMEN = true → s.bit R.CMD_ALM b = true → Ends (.alarmGapEnd b) s (fun t => nthOf t.cmd.alarms b = { x with n := 0 } ∧
        (s.isHead = false → s.ringFull 2 = false → ∃ e, t.mac.q2 = s.mac.q2 ++ [e] ∧ e.f.urg = true ∧
          e.f.args.headD 0 = 0xC2 ∧ (e.f.args.drop 6).take 3 = toBytes 1 b ++ toBytes 2 (min x.n 0xFFFF)) ∧
        (s.isHead = false → s.ringFull 2 = true → (∀ e ∈ s.mac.q2, e.f.urg = true) →
          t.mac.q2 = s.mac.q2 ∧ t.flag F.CMD_STAT_ALMDROP = true)))) ∧
    (let m := if s.timeValid = true then secOf s.tim.now / 60 else (s.cyc - s.pwr.litAt) / (60 * 61440000)
     let ph := if s.timeValid = true then s.short else 0
     let e := (s.reg R.CMD_EPER).toNat
     let h := (s.reg R.CMD_HPER).toNat
     let due := s.reports = true ∧ s.cmd.minute ≠ some m ∧ (s.timeValid = true ∨ m ≠ 0)
     (¬ due → exec .periodicReportMinute s = .next s) ∧
     (due → Ends .periodicReportMinute s (fun t => t.cmd.minute = some m ∧
       (s.isHead = false → s.mac.q2.length < 31 → (t.mac.q2.drop s.mac.q2.length).map (fun x => x.f.args.headD 0) =
         (if e ≠ 0 ∧ m % e = ph % e then [0xC3] else []) ++ (if h ≠ 0 ∧ m % h = ph % h then [0xC4] else [])) ∧
       (s.isHead = false → s.ringFull 2 = true → (e ≠ 0 ∧ m % e = ph % e) ∨ (h ≠ 0 ∧ m % h = ph % h) →
         t.mac.q2 = s.mac.q2 ∧ t.flag F.CMD_STAT_RSKIP = true))))

/-- On the host port where it responds, with no record unsettled, for every write of SYS_CTL with GO = 1. Without the
key of a soft reset: while HOST = 0, HOST becomes 1, the watchdog's time starts at this edge, and the expected kick
becomes 0x5A5A; lamp ownership, which the fade engine holds, is as it was. While HOST = 1 the GO bit changes nothing:
STATE, the watchdog's timer and the expected kick are unchanged. In both the word's HOLD bit is taken, and where it is
the one in force every other register keeps its value. With the key the word is a soft reset. On the remote path
neither bit is taken. (R43) -/
def Obligations.GoDeclaresAHost : Prop :=
  ∀ (v : Word) (s : State), s.Settled → s.pathUp .host = true → v.getLsbD 0 = true →
    (softKey v = false → s.flag F.SYS_MODE_HOST = false → Ends (.go .host v) s (fun t =>
      t.flag F.SYS_MODE_HOST = true ∧ t.pwr.kickAt = s.cyc ∧ t.pwr.kick = 0x5A5A ∧ t.fde = s.fde ∧
      t.flag F.SYS_CTL_HOLD = v.getLsbD 2 ∧
      (v.getLsbD 2 = s.flag F.SYS_CTL_HOLD → ∀ k, k ≠ R.SYS_MODE → t.reg k = s.reg k))) ∧
    (softKey v = false → s.flag F.SYS_MODE_HOST = true → Ends (.go .host v) s (fun t =>
      t.flag F.SYS_MODE_HOST = true ∧ t.pwr.kickAt = s.pwr.kickAt ∧ t.pwr.kick = s.pwr.kick ∧ t.fde = s.fde ∧
      t.fld F.SYS_MODE_STATE = s.fld F.SYS_MODE_STATE ∧ t.flag F.SYS_CTL_HOLD = v.getLsbD 2 ∧
      (v.getLsbD 2 = s.flag F.SYS_CTL_HOLD → ∀ k, t.reg k = s.reg k))) ∧
    (softKey v = true → Ends (.go .host v) s (fun t => t.pwr.softRst = true ∧ t.pwr.boot = 4 ∧
      t.fld F.PWR_LRST_CAUSE = 5)) ∧
    (∀ w : Word, Ends (.go .remote w) s (fun t => (softKey w = false → t.regs = s.regs ∧ t.pwr = s.pwr)))

/-- On a path that responds, with page SYS selected and no record unsettled, for every word written to IRQ_EN_LO,
alone or with a high half staged under R30: both halves of IRQ_STAT hold what they held, whatever bits the write
clears; and where a bit that is set in IRQ_STAT is 1 in the word written to its enable, HIRQ# is low in the next
state, so one set while it was disabled asserts as soon as it is enabled. Where no bit that is set is enabled by the
words now held, HIRQ# is high. (R34) -/
def Obligations.EnablesGateTheInterruptPin : Prop :=
  ∀ (p : Path) (v : Word) (s : State), s.Settled → s.pathUp p = true → (s.path p).page = 0 →
    ((∀ hi, (s.path p).stage ≠ some (s.pairTag 0 0x0A, hi)) → Ends (.pairLoWrite p 0x0A v) s (fun t =>
      t.reg R.IRQ_STAT_LO = s.reg R.IRQ_STAT_LO ∧ t.reg R.IRQ_STAT_HI = s.reg R.IRQ_STAT_HI ∧
      (∀ i, (s.reg R.IRQ_STAT_LO).getLsbD i = true → v.getLsbD i = true → t.hirqLow = true) ∧
      (s.reg R.IRQ_STAT_LO &&& v = 0 → s.reg R.IRQ_STAT_HI &&& s.reg R.IRQ_EN_HI = 0 → t.hirqLow = false))) ∧
    (∀ hi, (s.path p).stage = some (s.pairTag 0 0x0A, hi) → Ends (.pairLoWrite p 0x0A v) s (fun t =>
      t.reg R.IRQ_STAT_LO = s.reg R.IRQ_STAT_LO ∧ t.reg R.IRQ_STAT_HI = s.reg R.IRQ_STAT_HI ∧
      (∀ i, (s.reg R.IRQ_STAT_LO).getLsbD i = true → v.getLsbD i = true → t.hirqLow = true) ∧
      (∀ i, (s.reg R.IRQ_STAT_HI).getLsbD i = true → hi.getLsbD i = true → t.hirqLow = true) ∧
      (s.reg R.IRQ_STAT_LO &&& v = 0 → s.reg R.IRQ_STAT_HI &&& hi = 0 → t.hirqLow = false)))

/-- With no record unsettled. On a path that responds: SET with the unlock open loads TIM_SETS and TIM_SETF, sets
SETDONE, posts 0x005, and leaves ACQUIRE, at a head without PPSV HOLDOVER; SETCAP and its cancel set and clear SETP;
closed, none changes a register. A read of TIM_SEC_LO returns the low seconds, latches the high ones and snapshots the
fraction of the same instant. Arming takes the alarm's registers; an armed alarm that is due pulses its source, sets
its bit and, by REP, moves to its first time after now or disarms. PPSV without an edge for more than 1 s and 100 us
is lost: it clears PPSV, posts 0x006, and puts a head whose time is valid in HOLDOVER. HOLDOVER is entered from LOCKED
and ACQUIRE after HOB benches without an offset, away from the head, with 0x002. Past a multiple of 64 s while
disciplined on XO the keep-alive counter takes network time and TIM_KFERR shows E0. KEEP_SENSE in KEEP with KTS takes
temperature and VSTORE, and KEEP_STAT.SRC follows. The main counter resumes on XO. Where its condition does not hold
each leaves the state as it was. A source that pulsed within the last 2 cycles gives no second pulse (R38). (R321,
R325, R328, R330, R331, R333, R335, R338) -/
def Obligations.TimeIsSetReadAndKept : Prop :=
  ∀ s : State, s.Settled →
    (∀ p : Path, s.pathUp p = true →
      (s.unlocked p = true →
        Ends (.timeSet p) s (fun t =>
          t.tim.now = instant (s.pair R.TIM_SETS_LO) (s.pair R.TIM_SETF_LO) ∧
          t.fld F.TIM_STAT_STATE = (if s.isHead = true ∧ s.flag F.TIM_FLG_PPSV = false then 3 else 1) ∧
          t.flag F.TIM_EVT_SETDONE = true ∧ t.tim.afterSet = !s.isHead ∧
          (s.flag F.TIM_FLG_IRCF = true → t.keep.ka = t.tim.now / 2 ^ 24 % 2 ^ 80) ∧
          (s.q6.length < 63 → ∃ r ∈ t.q6, r.cls = 6 ∧ r.ev = 5 ∧ r.detail = 0)) ∧
        Ends (.timeSetcap p) s (fun t => t.flag F.TIM_FLG_SETP = true ∧ t.tim = s.tim) ∧
        Ends (.setcapCancel p) s (fun t => t.flag F.TIM_FLG_SETP = false ∧ t.tim = s.tim)) ∧
      (s.unlocked p = false → ∀ c ∈ [Instr.timeSet p, .timeSetcap p, .setcapCancel p],
        Ends c s (fun t => t.regs = s.regs ∧ t.tim = s.tim)) ∧
      Ends (.timSecRead p) s (fun t => (t.path p).last = BitVec.ofNat 16 (secOf s.tim.now) ∧
        (t.path p).latch = BitVec.ofNat 16 (secOf s.tim.now / 65536) ∧ (t.path p).latchTag = some R.TIM_SEC_LO ∧
        (t.path p).snapF = fracOf s.tim.now ∧ t.tim = s.tim ∧ t.regs = s.regs) ∧
      (∀ (n : Fin 4) (v : Word), Ends (.alarmArm p n v) s (fun t => t.reg (alCtl n) = v &&& 0xBFFF ∧
        (∀ k, k ≠ alCtl n → t.reg k = s.reg k) ∧
        (v.getLsbD 15 = false → t.tim = s.tim) ∧
        (v.getLsbD 15 = true → t.tim.alarmAt = s.tim.alarmAt.set n (instant (s.pair (R.TIM_AL0S_LO + 512 * n))
          (s.pair (R.TIM_AL0F_LO + 512 * n))) ∧ t.tim.alarmMs = s.tim.alarmMs.set n 0 ∧ t.tim.now = s.tim.now)))) ∧
    (∀ p : Path, s.pathUp p = false → exec (.timeSet p) s = .next s ∧ exec (.timSecRead p) s = .next s) ∧
    (∀ n : Fin 4,
      let at_ := s.tim.alarmAt.getD n 0
      let ms := s.tim.alarmMs.getD n 0
      let rep := (s.reg (alCtl n)).toNat % 2 ^ 14
      let due := s.bit (alCtl n) 15 = true ∧ alarmDue s.tim.now at_ ms = true
      (¬ due → exec (.alarmFire n) s = .next s) ∧
      (due → Ends (.alarmFire n) s (fun t => (s.rested (0x6E + n.val) = true → t.pulsed (0x6E + n.val) = true) ∧ t.bit R.TIM_EVT n = true ∧
        (rep = 0 → t.bit (alCtl n) 15 = false ∧ t.tim = s.tim) ∧
        (rep ≠ 0 →
          let k := ((s.tim.now - at_) * 1000 - ms * 2 ^ 72) / (rep * 2 ^ 72)
          t.bit (alCtl n) 15 = true ∧ t.tim = { s.tim with alarmMs := s.tim.alarmMs.set n (ms + (k + 1) * rep) } ∧
          alarmDue s.tim.now at_ (ms + (k + 1) * rep) = false ∧ alarmDue s.tim.now at_ (ms + k * rep) = true)))) ∧
    (s.flag F.TIM_FLG_PPSV = false ∨ s.ppsLate = false → exec .ppsLost s = .next s) ∧
    (s.flag F.TIM_FLG_PPSV = true → s.ppsLate = true → Ends .ppsLost s (fun t => t.flag F.TIM_FLG_PPSV = false ∧
      t.fld F.TIM_STAT_STATE = (if s.isHead = true ∧ s.timeValid = true then 3 else s.fld F.TIM_STAT_STATE) ∧
      (s.q6.length < 63 → ∃ r ∈ t.q6, r.cls = 6 ∧ r.ev = 6))) ∧
    (let on := (s.fld F.TIM_STAT_STATE = 1 ∨ s.fld F.TIM_STAT_STATE = 2) ∧ s.isHead = false ∧
       s.fld F.TIM_LIM_HOB ≤ s.tim.noTheta
     (¬ on → exec .holdoverEntry s = .next s) ∧
     (on → Ends .holdoverEntry s (fun t => t.fld F.TIM_STAT_STATE = 3 ∧ t.tim = { s.tim with lockRun := 0 } ∧
       (s.fld F.TIM_STAT_STATE = 2 → t.flag F.TIM_EVT_LOCKCH = true) ∧
       (s.q6.length < 64 → ∃ r ∈ t.q6, r.cls = 6 ∧ r.ev = 2 ∧ r.detail = s.fld F.TIM_STAT_STATE)))) ∧
    (let span := 64 * 2 ^ 72
     let on := (s.fld F.TIM_STAT_STATE = 2 ∨ s.fld F.TIM_STAT_STATE = 3) ∧ s.flag F.TIM_FLG_IRCF = false ∧
       s.tim.now % span < 2 ^ 72 / 16384 ∧ s.tim.now / span ≠ s.keep.winStart / span
     (¬ on → exec .kaCalibrationWindow s = .next s) ∧
     (on → Ends .kaCalibrationWindow s (fun t => t.keep.ka = s.tim.now / 2 ^ 24 % 2 ^ 80 ∧ t.tim = s.tim ∧
       t.keep.winStart = s.tim.now ∧ t.keep.winEdges = 0 ∧
       (2 ^ 72 / 16384 ≤ s.keep.winStart % (64 * 2 ^ 72) → t.keep.e0 = s.keep.e0) ∧
       t.reg R.TIM_KFERR = BitVec.ofNat 16 (satCode 16 (divRound t.keep.e0 1000)) ∧
       ∀ k, k ≠ R.TIM_KFERR → t.reg k = s.reg k))) ∧
    (∀ temp vstore : Word,
      let on := s.pwr.boot = 0 ∧ s.keep.deep.getLsbD 2 = true
      (¬ on → exec (.keepSense temp vstore) s = .next s) ∧
      (on → Ends (.keepSense temp vstore) s (fun t => t.keep = { s.keep with temp := temp.toInt } ∧
        t.reg R.KEEP_VSTORE = vstore ∧ t.fld F.KEEP_STAT_SRC =
          (if s.vauxUsed = true then 0 else if s.keep.cell = true ∧ vstore < s.reg R.KEEP_VCELL then 2 else 1) ∧
        ∀ k, k ≠ R.KEEP_VSTORE → k ≠ R.KEEP_STAT → t.reg k = s.reg k))) ∧
    (let on := 4 ≤ s.pwr.boot ∧ s.flag F.CLK_STAT_ROOTSRC = true ∧ s.clk.handover = false ∧ s.flag F.TIM_FLG_IRCF = true
     (¬ on → exec .timeCountResume s = .next s) ∧
     (on → Ends .timeCountResume s (fun t => t.flag F.TIM_FLG_IRCF = false ∧ t.tim = s.tim ∧ t.keep.ka = s.keep.ka)))

/-- With no record unsettled and the state in its form. On a path that responds GTU_ENA starts a channel whose bit
rises, stops one whose bit is 0, keeps every count, and leaves the others; a 1 written to GTU_TRG triggers its channel
where that is alive. A pending value takes force once its 2 ticks have passed, the others wait, and a TOP below the
count sets TCUT. A compare value that the last step of a running, unfrozen channel reached matches: it acts on OUT,
sets CM0 or CM1 with its interrupt where enabled, and pulses its source, both values where both are met; a value that
no step reached does nothing. A trigger that has arrived counts under CLKSRC 3, clears the count under RESET and
START, captures where the channel captures triggers, and is used up even where the channel is not alive. A new pin
level is taken where the pin's own output does not hold it off, counts on its edge under CLKSRC 1 and 2, and captures
where enabled. A channel that slept with a start mark is advanced by the elapsed keep-alive time, with CATCH, and MISS
where a compare was passed. Where its condition does not hold each leaves the state as it was. A source that pulsed
within the last 2 cycles gives no second pulse (R38). (R343, R344, R345, R346, R348, R349, R350, R353, R356) -/
def Obligations.TimersStartCountMatchAndCatchUp : Prop :=
  ∀ s : State, s.Settled → s.Shape →
    (∀ (p : Path) (v : Word), s.pathUp p = true →
      Ends (.gtuEnaWrite p v) s (fun t => t.reg R.GTU_ENA = v &&& 0xFF ∧ (∀ k, k ≠ R.GTU_ENA → t.reg k = s.reg k) ∧
        ∀ n, n < 8 → (t.gt n).cnt = (s.gt n).cnt ∧ (t.gt n).top = (s.gt n).top ∧
          (v.getLsbD n = true → (s.reg R.GTU_ENA).getLsbD n = false → (t.gt n).run = true ∧ (t.gt n).sub = 0 ∧ (t.gt n).trig = false ∧
            (t.gt n).edges = 0 ∧ (t.gt n).going = false ∧ (t.gt n).out = s.flag (F.GTU_PIN_INIT.at n)) ∧
          (v.getLsbD n = false → (t.gt n).run = false) ∧
          (v.getLsbD n = true → (s.reg R.GTU_ENA).getLsbD n = true → t.gt n = s.gt n)) ∧
      Ends (.gtuTrgWrite p v) s (fun t => t.regs = s.regs ∧ ∀ n, n < 8 →
        t.gt n = { s.gt n with trig := (v.getLsbD n && (s.gtAlive n || s.gtSlow n)) || (s.gt n).trig })) ∧
    (∀ n : Fin 8,
      let c := s.gt n
      let stepped := if c.top ≤ c.cnt then 0 else c.cnt + 1
      let captured (t : State) : Prop := t.pair (cell R.GTU_CAP_LO n) = c.cnt % 2 ^ 32 ∧ (s.rested (0x60 + n) = true → t.pulsed (0x60 + n) = true) ∧
        t.flag (F.GTU_CSTAT_CAP.at n) = true ∧
        (s.flag (F.GTU_CSTAT_CAP.at n) = true → t.flag (F.GTU_CSTAT_CAPOVR.at n) = true)
      let due (p : Option (Nat × Nat)) (v : Nat) : Prop := p = some (v, 2)
      Ends (.gtValueEffect n) s (fun t => (t.gt n).cnt = c.cnt ∧
        (∀ v, due c.nTop v → (t.gt n).top = v ∧ (t.gt n).nTop = none ∧
          (v < c.cnt → t.flag (F.GTU_CSTAT_TCUT.at n) = true) ∧ (c.cnt ≤ v → t.regs = s.regs)) ∧
        (c.nTop.all (fun e => e.2 != 2) = true → (t.gt n).top = c.top ∧ (t.gt n).nTop = c.nTop ∧ t.regs = s.regs) ∧
        (∀ v, due c.n0 v → (t.gt n).c0 = v ∧ (t.gt n).n0 = none) ∧
        (c.n0.all (fun e => e.2 != 2) = true → (t.gt n).c0 = c.c0 ∧ (t.gt n).n0 = c.n0) ∧
        (∀ v, due c.n1 v → (t.gt n).c1 = v ∧ (t.gt n).n1 = none) ∧
        (c.n1.all (fun e => e.2 != 2) = true → (t.gt n).c1 = c.c1 ∧ (t.gt n).n1 = c.n1)) ∧
      (∀ m0 m1 : Bool,
        let a0 := s.reg (R.GTU_ACT0 + n)
        let a1 := s.reg (R.GTU_ACT1 + n)
        let hit0 := c.reached c.c0
        let hit1 := c.reached c.c1
        let met := c.run = true ∧ s.gtFrozen n = false ∧ ((m0 = true ∧ hit0 = true) ∨ (m1 = true ∧ hit1 = true))
        let o0 := if hit0 = true then pinAct (getBits a0 1 0) c.out else c.out
        (¬ met → exec (.gtCompareMatch n m0 m1) s = .next s) ∧
        (met → Ends (.gtCompareMatch n m0 m1) s (fun t => (t.gt n).cnt = c.cnt ∧ (t.gt n).adv = 0 ∧
          (t.gt n).out = (if hit1 = true then pinAct (getBits a1 1 0) o0 else o0) ∧
          (hit0 = true → t.flag (F.GTU_CSTAT_CM0.at n) = true ∧ (s.rested (0x50 + n) = true → t.pulsed (0x50 + n) = true) ∧
            (s.flag (F.GTU_CSTAT_CM0.at n) = false → a0.getLsbD 15 = true → t.bit R.IRQ_STAT_HI (3 + n) = true) ∧
            (a0.getLsbD 12 = true → s.gtAlive (getBits a0 10 8) = true → (t.gt (getBits a0 10 8)).trig = true)) ∧
          (hit0 = false → t.flag (F.GTU_CSTAT_CM0.at n) = s.flag (F.GTU_CSTAT_CM0.at n)) ∧
          (hit1 = true → t.flag (F.GTU_CSTAT_CM1.at n) = true ∧ (s.rested (0x58 + n) = true → t.pulsed (0x58 + n) = true) ∧
            (s.gtSmode n = 3 → (t.gt n).going = false)) ∧
          (hit1 = false → t.flag (F.GTU_CSTAT_CM1.at n) = s.flag (F.GTU_CSTAT_CM1.at n))))) ∧
      (let takes := s.flag (F.GTU_CAPCTL_EN.at n) = true ∧ s.flag (F.GTU_CAPCTL_SRC.at n) = true
       (c.trig = false → exec (.gtTrigger n) s = .next s) ∧
       (c.trig = true → s.gtAlive n = false → s.gtSlow n = false → Ends (.gtTrigger n) s (fun t => t.regs = s.regs ∧
         t.gt n = { c with trig := false })) ∧
       (c.trig = true → s.gtAlive n = true → Ends (.gtTrigger n) s (fun t => (t.gt n).trig = false ∧
         (s.fld (F.GTU_CTL_CLKSRC.at n) = 3 → s.gtRuns n = true → (t.gt n).cnt = stepped) ∧
         (s.gtSmode n = 1 → (t.gt n).cnt = 0) ∧
         (s.gtSmode n = 3 → (t.gt n).cnt = 0 ∧ (t.gt n).going = true) ∧
         (takes → s.fld (F.GTU_CAPCTL_EPS.at n) ≤ c.edges → captured t) ∧
         (takes → c.edges < s.fld (F.GTU_CAPCTL_EPS.at n) → (t.gt n).edges = c.edges + 1 ∧ t.regs = s.regs)))) ∧
      (∀ level : Bool,
        let u := s.modGt n (fun x => { x with level := level })
        let takes := s.flag (F.GTU_CAPCTL_EN.at n) = true ∧ s.flag (F.GTU_CAPCTL_SRC.at n) = false ∧
          (level = true → s.fld (F.GTU_CAPCTL_EDGE.at n) % 2 = 1) ∧ (level = false → 2 ≤ s.fld (F.GTU_CAPCTL_EDGE.at n))
        (s.coreOn = false ∨ c.level = level ∨ s.gtAccepts n = false → exec (.gtPinEdge n level) s = .next s) ∧
        (s.coreOn = true → c.level ≠ level → s.gtAccepts n = true → Ends (.gtPinEdge n level) s (fun t => (t.gt n).level = level ∧
          (s.gtAlive n = false → t.regs = s.regs ∧ (t.gt n).cnt = c.cnt) ∧
          (s.gtAlive n = true → (t.gt n).cnt =
            if s.fld (F.GTU_CTL_CLKSRC.at n) = (if level then 1 else 2) ∧ u.gtRuns n = true then stepped else c.cnt) ∧
          (s.gtAlive n = true → takes → s.fld (F.GTU_CAPCTL_EPS.at n) ≤ c.edges → captured t)))) ∧
      (let due := c.k0.isSome = true ∧ c.run = true ∧ c.stop = true ∧ 6 ≤ s.pwr.boot ∧ s.fld F.SYS_MODE_STATE ≠ 2
       (¬ due → exec (.gtCatchUp n) s = .next s) ∧
       (∀ k, due → c.k0 = some k →
         let f := s.gtScaled n ((s.keep.ka + 2 ^ 80 - k) % 2 ^ 80) + c.frac
         Ends (.gtCatchUp n) s (fun t => (t.gt n).cnt = (c.cnt + f / 65536) % (c.top + 1) ∧
           (t.gt n).frac = f % 65536 ∧ (t.gt n).stop = false ∧ (t.gt n).k0 = none ∧
           t.flag (F.GTU_CSTAT_CATCH.at n) = true ∧
           (f / 65536 ≠ 0 → gtSkipped c c.c0 (f / 65536) = true ∨ gtSkipped c c.c1 (f / 65536) = true →
             t.flag (F.GTU_CSTAT_MISS.at n) = true)))))

/-- With no record unsettled and the state in its form. A window shows its count: on XO an in-range one changes no
more, another makes XO fail; before, eight in range within 1 of each other qualify XO and begin the handover, a first
one at once and a return where XORET asks, and a failed one restarts the sequence. The handover's end makes XO the
root, stops IRC without IRC_KEEP, and marks a return. A failed XO, by count or missing edge: ROOTSRC, XOQ and PLLLK
clear, FALLCNT counts, XOF sets, and the counter follows keep-alive time. IRC accepted, and IRC running, raise CLKF.
The PLL's first lock opens the port; a relock clears the clock-loss latch of every channel. IRC outside 2 % sets IRCF,
and at its first check after a fallback is clock-fatal: reset cause 6, held at the fourth in a row until the retry.
Lost lock sets PLLF; no relock is clock-fatal. RETXO hands back, at once or when the PLL has locked again. The retry
needs VAUX good. KXO's failure moves to KRC, four good windows move back. Where its condition does not hold each
leaves the state as it was. (R362, R363, R364, R365, R367, R369, R370, R371, R372, R374, R375, R376) -/
def Obligations.ReferencesAreWatchedAndHandedOver : Prop :=
  ∀ s : State, s.Settled → s.Shape →
    let fails (t : State) : Prop := t.flag F.CLK_STAT_ROOTSRC = false ∧ t.flag F.CLK_STAT_XOQ = false ∧
      t.flag F.CLK_STAT_PLLLK = false ∧ t.flag F.CLK_STAT_IRCON = true ∧ t.flag F.CLK_STAT_XOF = true ∧
      t.reg R.CLK_FALLCNT = s.reg R.CLK_FALLCNT + 1 ∧ t.clk.good = false ∧ t.clk.fellBack = true ∧
      t.clk.handover = false ∧ t.flag F.TIM_FLG_IRCF = true ∧
      (s.flag F.CLK_STAT_IRCON = true → t.flag F.NMI_STAT_CLKF = true) ∧
      (s.flag F.CLK_STAT_IRCON = false → t.clk.ircSettling = true) ∧
      (s.fld F.TIM_STAT_STATE = 2 → t.fld F.TIM_STAT_STATE = 3) ∧ ∀ n, n < 16 → (t.lat n).getLsbD 9 = true
    let fatal (t : State) : Prop := t.pwr.boot = 1 ∧ t.fld F.PWR_LRST_CAUSE = 6 ∧ t.flag F.CLK_LAST_FATAL = true ∧
      t.clk.fatalRow = s.clk.fatalRow + 1 ∧ t.clk.fatalHeld = decide (3 ≤ s.clk.fatalRow) ∧ t.q6 = []
    (∀ cnt : Word,
      let n := cnt.toNat
      let on := s.coreOn = true ∧ s.flag F.CLK_STAT_IRCON = true ∧ s.clk.ircSettling = false
      let band := 1004 ≤ n ∧ n ≤ 1044
      let near := ∀ p, s.clk.xoPrev = some p → n ≤ p + 1 ∧ p ≤ n + 1
      (¬ on → exec (.xoWindow cnt) s = .next s) ∧
      (on → s.flag F.CLK_STAT_ROOTSRC = true → band → Ends (.xoWindow cnt) s (fun t => t.reg R.CLK_XOCNT = cnt ∧
        t.clk = { s.clk with xoPrev := some n } ∧ ∀ k, k ≠ R.CLK_XOCNT → t.reg k = s.reg k)) ∧
      (on → s.flag F.CLK_STAT_ROOTSRC = true → ¬ band → Ends (.xoWindow cnt) s (fun t => t.reg R.CLK_XOCNT = cnt ∧ fails t)) ∧
      (on → s.flag F.CLK_STAT_ROOTSRC = false → s.clk.handover = true → Ends (.xoWindow cnt) s (fun t =>
        t.reg R.CLK_XOCNT = cnt ∧ t.clk = { s.clk with xoPrev := some n })) ∧
      (on → s.flag F.CLK_STAT_ROOTSRC = false → s.clk.handover = false →
        (band ∧ near → s.clk.xoRun ≠ 7 → Ends (.xoWindow cnt) s (fun t => t.reg R.CLK_XOCNT = cnt ∧
          t.clk = { s.clk with xoPrev := some n, xoRun := min 8 (s.clk.xoRun + 1) })) ∧
        (band ∧ near → s.clk.xoRun = 7 → Ends (.xoWindow cnt) s (fun t => t.flag F.CLK_STAT_XOQ = true ∧
          t.clk.xoRun = 8 ∧
          (t.clk.handover = true ↔ s.clk.good = true ∧
            (s.clk.fellBack = true → s.flag F.CLK_CTL_XORET = true ∨ s.clk.retDue = true)) ∧
          (t.clk.handover = true → t.clk.ret = s.clk.fellBack))) ∧
        (¬ (band ∧ near) → Ends (.xoWindow cnt) s (fun t => t.reg R.CLK_XOCNT = cnt ∧ t.flag F.CLK_STAT_XOQ = false ∧
          t.clk = { s.clk with xoPrev := some n, xoRun := 0 })))) ∧
    (s.clk.handover = false → exec .handoverDone s = .next s) ∧
    (s.clk.handover = true → Ends .handoverDone s (fun t => t.flag F.CLK_STAT_ROOTSRC = true ∧
      t.clk = { s.clk with handover := false, ret := false, fellBack := false } ∧
      t.flag F.CLK_STAT_IRCON = (s.flag F.CLK_CTL_IRC_KEEP && s.flag F.CLK_STAT_IRCON) ∧
      (s.clk.ret = true → t.flag F.CLK_STAT_RET = true) ∧
      (s.isHead = true → t.mac.listen = some 0) ∧
      (s.q6.length < 64 → ∃ r ∈ t.q6, r.cls = 1 ∧ r.ev = if s.clk.ret then 3 else 1))) ∧
    (let due := s.coreOn = true ∧ s.flag F.CLK_STAT_XOQ = false ∧ s.flag F.CLK_STAT_ROOTSRC = false ∧
       s.clk.fellBack = false
     (¬ due → exec .xoTimeout s = .next s) ∧
     (due → Ends .xoTimeout s (fun t => t.flag F.CLK_STAT_XOTO = true ∧ t.clk = s.clk ∧
       (s.q6.length < 64 → ∃ r ∈ t.q6, r.cls = 1 ∧ r.ev = 7)))) ∧
    (s.coreOn = false → exec .xoMissingEdge s = .next s) ∧
    (s.coreOn = true → s.flag F.CLK_STAT_ROOTSRC = true ∨ s.clk.handover = true → Ends .xoMissingEdge s fails) ∧
    (s.coreOn = true → s.flag F.CLK_STAT_ROOTSRC = false → s.clk.handover = false → Ends .xoMissingEdge s (fun t =>
      t.flag F.CLK_STAT_XOQ = false ∧ t.clk = { s.clk with xoRun := 0, xoPrev := none })) ∧
    (s.clk.ircSettling = false → exec .ircAccepted s = .next s) ∧
    (s.clk.ircSettling = true → Ends .ircAccepted s (fun t => t.flag F.NMI_STAT_CLKF = true ∧
      t.clk = { s.clk with ircSettling := false })) ∧
    (s.pwr.boot ≠ 3 → exec .pllLocked s = .next s) ∧
    (s.pwr.boot = 3 → Ends .pllLocked s (fun t => t.pwr = { s.pwr with boot := 4 } ∧ t.flag F.CLK_STAT_PLLLK = true ∧
      t.clk.good = true ∧ (s.flag F.CLK_STAT_XOQ = true → s.clk.fellBack = false → t.clk.handover = true))) ∧
    (let due := 4 ≤ s.pwr.boot ∧ s.clk.good = false ∧ s.clk.ircSettling = false
     (¬ due → exec .clockGood s = .next s) ∧
     (due → Ends .clockGood s (fun t => t.clk.good = true ∧ t.clk.relock = false ∧
       (s.flag F.CLK_STAT_XOQ = false ∨ s.flag F.CLK_STAT_ROOTSRC = true → t.clk = { s.clk with good := true, relock := false }) ∧
       (s.flag F.CLK_STAT_XOQ = true → s.flag F.CLK_STAT_ROOTSRC = false →
         s.clk.fellBack = false ∨ s.flag F.CLK_CTL_XORET = true ∨ s.clk.retDue = true → t.clk.handover = true) ∧
       t.flag F.CLK_STAT_PLLLK = true ∧ ∀ n, n < 16 → (t.lat n).getLsbD 9 = false))) ∧
    (∀ cnt : Word,
      let on := s.coreOn = true ∧ s.flag F.CLK_STAT_IRCON = true ∧ s.clk.ircSettling = false ∧ s.flag F.CLK_STAT_KSRC = false
      let good := 2940 ≤ cnt.toNat ∧ cnt.toNat ≤ 3060
      (¬ on → exec (.ircCheck cnt) s = .next s) ∧
      (on → good → Ends (.ircCheck cnt) s (fun t => t.reg R.CLK_IRCCNT = cnt ∧ t.flag F.CLK_STAT_IRCQ = true ∧
        t.clk = { s.clk with firstCheck := false })) ∧
      (on → ¬ good → s.clk.firstCheck = false → Ends (.ircCheck cnt) s (fun t => t.reg R.CLK_IRCCNT = cnt ∧
        t.flag F.CLK_STAT_IRCQ = false ∧ t.flag F.CLK_STAT_IRCF = true ∧ t.clk = s.clk ∧
        (s.q6.length < 64 → ∃ r ∈ t.q6, r.cls = 1 ∧ r.ev = 4 ∧ r.detail = cnt.toNat % 4096))) ∧
      (on → ¬ good → s.clk.firstCheck = true → Ends (.ircCheck cnt) s fatal)) ∧
    (let on := s.clk.fatalHeld = true ∧ s.pwr.boot = 1 ∧ s.pwr.rstLow = false ∧ s.pwr.loss = 0
     (¬ on → exec .fatalRetry s = .next s) ∧
     (on → Ends .fatalRetry s (fun t => t.clk = { s.clk with fatalHeld := false } ∧ t.pwr.boot = 1 ∧
       t.pwr.litAt = s.cyc))) ∧
    (let on := 4 ≤ s.pwr.boot ∧ s.clk.good = true
     (¬ on → exec .pllLockLoss s = .next s) ∧
     (on → Ends .pllLockLoss s (fun t => t.clk = { s.clk with good := false, relock := true } ∧
       t.flag F.CLK_STAT_PLLLK = false ∧ t.flag F.CLK_STAT_PLLF = true ∧ ∀ n, n < 16 → (t.lat n).getLsbD 9 = true))) ∧
    (s.clk.relock = false → exec .pllRelockTimeout s = .next s) ∧
    (s.clk.relock = true → Ends .pllRelockTimeout s fatal) ∧
    (∀ p : Path, s.pathUp p = true →
      let may := s.flag F.CLK_STAT_XOQ = true ∧ s.flag F.CLK_STAT_ROOTSRC = false ∧ s.clk.handover = false ∧
        s.clk.fellBack = true
      (may → s.clk.good = false → Ends (.retxo p) s (fun t => t.clk = { s.clk with retDue := true } ∧ t.regs = s.regs)) ∧
      (may → s.clk.good = true → Ends (.retxo p) s (fun t => t.clk = { s.clk with handover := true, ret := true } ∧ t.transmitting = false)) ∧
      (¬ may → Ends (.retxo p) s (fun t => t.clk = s.clk ∧ t.regs = s.regs))) ∧
    (s.flag F.CLK_STAT_KSRC = true → exec .kxoFail s = .next s) ∧
    (s.flag F.CLK_STAT_KSRC = false → Ends .kxoFail s (fun t => t.flag F.CLK_STAT_KSRC = true ∧
      t.flag F.TIM_FLG_KRC = true ∧ t.keep.ka = s.keep.ka ∧ t.clk = { s.clk with kxoRun := 0 } ∧
      (s.coreOn = true → t.flag F.CLK_STAT_KXOF = true ∧ (s.q6.length < 64 → ∃ r ∈ t.q6, r.cls = 1 ∧ r.ev = 5)) ∧
      (s.coreOn = false → s.keep.held.length < 15 → ∃ r ∈ t.keep.held, r.cls = 1 ∧ r.ev = 5))) ∧
    (∀ cnt : Nat,
      let on := 4 ≤ s.pwr.boot ∧ s.flag F.CLK_STAT_ROOTSRC = true ∧ s.flag F.CLK_STAT_KSRC = true
      let near := 61433856 ≤ cnt ∧ cnt ≤ 61446144
      (¬ on → exec (.kxoWindow cnt) s = .next s) ∧
      (on → ¬ near → Ends (.kxoWindow cnt) s (fun t => t.clk = { s.clk with kxoRun := 0 } ∧ t.regs = s.regs)) ∧
      (on → near → s.clk.kxoRun ≠ 3 → Ends (.kxoWindow cnt) s (fun t => t.regs = s.regs ∧
        t.clk = { s.clk with kxoRun := s.clk.kxoRun + 1 })) ∧
      (on → near → s.clk.kxoRun = 3 → Ends (.kxoWindow cnt) s (fun t => t.flag F.CLK_STAT_KSRC = false ∧
        t.flag F.TIM_FLG_KRC = false ∧ t.clk = { s.clk with kxoRun := 0 } ∧
        (s.q6.length < 64 → ∃ r ∈ t.q6, r.cls = 1 ∧ r.ev = 6)))) ∧
    (s.pwr.boot < 4 → exec .spreadApply s = .next s) ∧
    (4 ≤ s.pwr.boot → Ends .spreadApply s (fun t => t.clk = { s.clk with spread := s.reg R.CLK_SPREAD } ∧ t.regs = s.regs))

/-- With no record unsettled. VAUX good outside LIT starts step 1: STRAP, VAUXG, the cause in SYS_RSTC and PWR_LRST,
HC1 counts, and VKA comes from VAUX; the interruption is classed by its length, CLS and T shown, taps kept, counted or
dropped. In a mains-loss sequence it notes the return, and where a reset left an interruption open it ends that. The
core's release needs RST# high and no fatal hold, and posts 0x003 of class 2. The time load takes the keep-alive
counter and HOLDOVER where KAV, else 0 and UNSET, sets IRCF and KATIME. The vault's recovery ends at step 5 with the
recorder started, keep RAM's records handed over, and VREC saying whether the commit begun was completed, or rolled
back after a record of it had been programmed. Replay ends at step 6; a standalone node then leaves START. Where its
condition does not hold each leaves the state as it was. (R101, R322, R333, R362, R392, R395, R396, R402, R404, R425,
R440, R451) -/
def Obligations.StartUpRunsItsSteps : Prop :=
  ∀ s : State, s.Settled →
    (∀ strap : Bool,
      let ms := (s.keep.elapsed - s.keep.offStart) * 1000 / 2 ^ 48
      (s.pwr.boot = 0 → s.pwr.loss = 0 → Ends (.vauxGood strap) s (fun t => t.pwr.boot = 1 ∧ t.pwr.strap = strap ∧
        t.flag F.SYS_MODE_STRAP = strap ∧ t.flag F.PWR_STAT_VAUXG = true ∧ t.fld F.KEEP_STAT_SRC = 0 ∧
        t.clk = { s.clk with fatalHeld := false } ∧
        (s.pwr.cause = 0 → t.flag F.SYS_RSTC_KPOR = true ∧ t.fld F.PWR_LRST_CAUSE = 0) ∧
        (s.pwr.cause = 1 → t.flag F.SYS_RSTC_VRET = true ∧ t.fld F.PWR_LRST_CAUSE = 1) ∧
        (s.vlt.hatBad = false → s.pwr.cause ≠ 4 → t.hat 1 = (s.hat 1 + 1) % 2 ^ 32) ∧
        (s.keep.off = true → t.keep.off = false) ∧
        (s.keep.off = false → 3 ∉ s.keep.bad → t.keep.taps = s.keep.taps) ∧
        (s.keep.off = true → 3 ∉ s.keep.bad → s.keep.deep.getLsbD 1 = true → 2 * s.keep.offKrc ≤ s.keep.offEdges →
          t.fld F.KEEP_OFFT_T = min 0x3FFF (ms / 10) ∧
          (ms < 150 → t.fld F.KEEP_OFFT_CLS = 0 ∧ t.keep.taps = s.keep.taps) ∧
          (150 ≤ ms → ms ≤ 900 → t.fld F.KEEP_OFFT_CLS = 1 ∧ t.keep.taps = min 5 (s.keep.taps + 1)) ∧
          (900 < ms → ms ≤ 3000 → t.fld F.KEEP_OFFT_CLS = 2 ∧ t.keep.taps = 0) ∧
          (3000 < ms → t.fld F.KEEP_OFFT_CLS = 3 ∧ t.keep.taps = 0)))) ∧
      (s.pwr.boot ≠ 0 → 1 ≤ s.pwr.loss → s.pwr.vauxBack = false → Ends (.vauxGood strap) s (fun t =>
        t.pwr = { s.pwr with vauxBack := true, strap := strap } ∧ t.flag F.PWR_STAT_VAUXG = true)) ∧
      (s.pwr.boot ≠ 0 → s.pwr.loss = 0 → s.keep.off = true → Ends (.vauxGood strap) s (fun t => t.pwr = s.pwr ∧
        t.keep.off = false ∧ t.flag F.PWR_STAT_VAUXG = true)) ∧
      (s.pwr.boot ≠ 0 → (s.pwr.loss = 0 ∧ s.keep.off = false) ∨ (1 ≤ s.pwr.loss ∧ s.pwr.vauxBack = true) →
        exec (.vauxGood strap) s = .next s)) ∧
    (let due := s.pwr.boot = 1 ∧ s.pwr.rstLow = false ∧ s.clk.fatalHeld = false
     (¬ due → exec .coreResetRelease s = .next s) ∧
     (due → Ends .coreResetRelease s (fun t => t.pwr = { s.pwr with boot := 2 } ∧
       t.clk = { s.clk with ircAt := s.cyc, fatalEv := none } ∧
       (s.q6.length < 63 → ∃ r ∈ t.q6, r.cls = 2 ∧ r.ev = 3 ∧ r.detail = s.fld F.PWR_LRST_CAUSE)))) ∧
    (s.pwr.boot ≠ 2 → exec .kaTimeLoad s = .next s) ∧
    (s.pwr.boot = 2 → Ends .kaTimeLoad s (fun t => t.pwr = { s.pwr with boot := 3 } ∧
      t.tim.now = (if s.flag F.TIM_FLG_KAV then kaInstant s.keep.ka else 0) ∧ t.tim.fromKeep = s.flag F.TIM_FLG_KAV ∧
      t.fld F.TIM_STAT_STATE = (if s.flag F.TIM_FLG_KAV then 3 else 0) ∧
      t.flag F.SYS_BOOT_KATIME = s.flag F.TIM_FLG_KAV ∧ t.flag F.TIM_FLG_IRCF = true ∧
      (s.q6.length < 64 → ∃ r ∈ t.q6, r.cls = 6 ∧ r.ev = 4 ∧ r.detail = if s.flag F.TIM_FLG_KAV then 1 else 0))) ∧
    (let due := s.pwr.boot = 4 ∧ s.pwr.loss = 0 ∧ s.pwr.rstLow = false
     (¬ due → exec .vaultRecoveryEnd s = .next s) ∧
     (due → Ends .vaultRecoveryEnd s (fun t => t.pwr.boot = 5 ∧ t.vlt.recUp = true ∧ t.sec.tests = 1 ∧
       t.keep.held = [] ∧ t.keep.missed = 0 ∧ t.keep.lost = 0 ∧ (∀ a ∈ t.keep.bad, a ∉ [0, 4, 6, 7, 8]) ∧
       (s.vlt.begun = false → t.fld F.SYS_BOOT_VREC = s.fld F.SYS_BOOT_VREC) ∧
       (s.vlt.begun = true → s.vlt.commit.isSome = true → 0 ∉ s.keep.bad → 7 ∉ s.keep.bad →
         t.fld F.SYS_BOOT_VREC = 1) ∧
       (s.vlt.begun = true → s.vlt.commit = none ∨ 0 ∈ s.keep.bad ∨ 7 ∈ s.keep.bad → t.vlt.begun = false ∧
         t.fld F.SYS_BOOT_VREC = if s.vlt.cutAt = 0 then s.fld F.SYS_BOOT_VREC else 2)))) ∧
    (let due := s.pwr.boot = 5 ∧ s.pwr.loss = 0 ∧ s.pwr.rstLow = false
     (¬ due → exec .replayEnd s = .next s) ∧
     (due → Ends .replayEnd s (fun t => t.pwr.boot = 6 ∧ 5 ∉ t.keep.bad ∧
       (s.flag F.SYS_MODE_STRAP = false → t.pwr.leave = true ∧ t.flag F.SYS_BOOT_STANDALONE = true))))

/-- With no record unsettled. A loss that holds raises VAUXW, begins the interruption, abandons the transmission and
stops the charger. The keep-alive counter then takes network time, every channel stops, and a vault with anything in
its buffer asks. The answer grants where the store holds request and reserve; else RSVREF, a held record 0x003 and the
vault as it was. Step 7 enters KEEP with a held record and CLK_GATE_DEEP as it stands, shows the burst's use where
granted, or, where VAUX is back, starts at once with cause 2. A brown-out enters KEEP with cause 4; RST# low holds
step 1, and its release starts with cause 3; in KEEP neither starts anything; a warning raises BOR. The keep-alive
power-on reset clears keep RAM, clocks and time. Each such reset leaves the fade engine, MAC and Q6 as after reset.
Where its condition does not hold each leaves the state as it was. (R332, R398, R400, R402, R403, R404, R405, R411,
R421, R422, R423) -/
def Obligations.MainsLossAndResetsLeaveTheNode : Prop :=
  ∀ s : State, s.Settled → s.Shape →
    let fresh (t : State) : Prop := t.fde = {} ∧ t.mac = {} ∧ t.q6 = [] ∧ t.q7 = [] ∧ t.fabric = [] ∧ t.host = {} ∧
      t.remote = {} ∧ ∀ n, n < 16 → (t.chan n).hg = false ∧ (t.chan n).lg = false
    (∀ zcs : Bool,
      (s.lossHolds zcs = false → zcs = true → exec (.mainsLoss zcs) s = .next s) ∧
      (zcs = false → 1 ≤ s.pwr.loss ∨ s.pwr.boot = 0 → Ends (.mainsLoss false) s (fun t => t.pwr.loss = s.pwr.loss ∧
        t.flag F.PWR_STAT_VAUXG = false ∧ (1 ≤ s.pwr.loss → t.pwr.vauxBack = false))) ∧
      (s.lossHolds zcs = true → Ends (.mainsLoss zcs) s (fun t => t.pwr.loss = 1 ∧ t.pwr.lossZcs = zcs ∧
        t.pwr.vauxBack = false ∧ t.pwr.asked = false ∧ t.pwr.granted = false ∧
        t.flag F.NMI_STAT_VAUXW = true ∧ t.keep.off = true ∧
        (s.keep.off = false → t.keep.offStart = s.keep.elapsed) ∧ (zcs = false → t.flag F.PWR_STAT_VAUXG = false) ∧
        t.transmitting = false ∧ t.flag F.KEEP_STAT_CHG = false ∧ t.fld F.KEEP_STAT_SRC ≠ 0 ∧
        (s.keep.held.length < 15 → ∃ r ∈ t.keep.held, r.cls = 2 ∧ r.ev = 1 ∧ r.detail = if zcs then 1 else 0)))) ∧
    (s.pwr.loss ≠ 1 → exec .keepTimeLoad s = .next s) ∧
    (s.pwr.loss = 1 → Ends .keepTimeLoad s (fun t => t.pwr.loss = 2 ∧
      (3 ≤ s.pwr.boot → t.flag F.TIM_FLG_KAV = s.timeValid) ∧
      (s.pwr.boot < 3 → t.flag F.TIM_FLG_KAV = s.flag F.TIM_FLG_KAV ∧ t.keep.ka = s.keep.ka) ∧
      (3 ≤ s.pwr.boot → s.flag F.TIM_FLG_IRCF = false → t.keep.ka = s.tim.now / 2 ^ 24 % 2 ^ 80) ∧
      (∀ n, n < 16 → (t.chan n).run = false ∧ (t.chan n).hg = false ∧ (t.chan n).lg = false) ∧
      (s.vlt.buf = [] → t.pwr.asked = s.pwr.asked ∧ t.q6 = [] ∧ t.keep.lost = s.keep.lost + s.q6.length) ∧
      (s.vlt.buf ≠ [] → t.pwr.asked = true))) ∧
    (∀ v : Word,
      let due := s.pwr.loss = 2 ∧ s.pwr.asked = true
      let enough := s.pair R.KEEP_RSVREQ_LO + (s.reg R.KEEP_RESERVE).toNat * 1000 ≤ s.storeEnergy v.toNat
      (¬ due → exec (.reservationAnswer v) s = .next s) ∧
      (due → enough → Ends (.reservationAnswer v) s (fun t => t.reg R.KEEP_VSTORE = v ∧ t.pwr.loss = 3 ∧
        t.pwr.granted = true ∧ t.pwr.energy = s.storeEnergy v.toNat)) ∧
      (due → ¬ enough → Ends (.reservationAnswer v) s (fun t => t.reg R.KEEP_VSTORE = v ∧ t.pwr.loss = 3 ∧
        t.pwr.granted = s.pwr.granted ∧ t.vlt = s.vlt ∧ t.flag F.KEEP_STAT_RSVREF = true ∧ t.q6 = [] ∧
        t.keep.lost = s.keep.lost + s.q6.length ∧
        (s.keep.held.length < 15 → ∃ r ∈ t.keep.held, r.cls = 0xB ∧ r.ev = 3 ∧
          r.detail = min 0xFFFF (s.pair R.KEEP_RSVREQ_LO / 1000)))) ∧
      (s.burstEnded = false → exec (.keepEntry v) s = .next s) ∧
      (s.burstEnded = true → Ends (.keepEntry v) s (fun t => t.reg R.KEEP_VSTORE = v ∧ fresh t ∧
        (s.pwr.granted = true → t.pair R.KEEP_RSVUSE_LO =
          (s.pwr.energy - s.storeEnergy v.toNat) % 2 ^ 32) ∧
        (s.pwr.vauxBack = false → t.pwr.boot = 0 ∧ t.pwr.cause = 1 ∧ t.keep.deep = s.reg R.CLK_GATE_DEEP ∧ (s.keep.held.length < 15 →
          ∃ r ∈ t.keep.held, r.cls = 2 ∧ r.ev = 2 ∧
            r.detail = if s.pwr.granted then 0 else if s.pwr.asked then 1 else 2)) ∧
        (s.pwr.vauxBack = true → t.pwr.boot = 1 ∧ t.fld F.PWR_LRST_CAUSE = 2 ∧ t.flag F.PWR_STAT_VAUXG = true)))) ∧
    (s.pwr.boot = 0 → exec .coreBrownout s = .next s) ∧
    (s.pwr.boot ≠ 0 → Ends .coreBrownout s (fun t => t.pwr.boot = 0 ∧ t.pwr.cause = 4 ∧ fresh t ∧
      t.keep.deep = s.reg R.CLK_GATE_DEEP ∧ t.flag F.SYS_RSTC_BOR = true ∧ t.fld F.PWR_LRST_CAUSE = 4)) ∧
    (s.coreOn = false → exec .borWarning s = .next s) ∧
    (s.coreOn = true → Ends .borWarning s (fun t => t.flag F.NMI_STAT_BOR = true ∧
      ∀ k, k ≠ R.NMI_STAT → t.reg k = s.reg k)) ∧
    (s.pwr.rstLow = true → exec .rstAssert s = .next s) ∧
    (s.pwr.rstLow = false → Ends .rstAssert s (fun t => t.pwr.rstLow = true ∧
      (s.pwr.boot = 0 → t = { s with pwr := { s.pwr with rstLow := true } }) ∧
      (s.pwr.boot ≠ 0 → t.pwr.boot = 1 ∧ fresh t))) ∧
    (∀ strap : Bool, (s.pwr.rstLow = false → exec (.rstRelease strap) s = .next s) ∧
      (s.pwr.rstLow = true → s.pwr.boot = 0 → Ends (.rstRelease strap) s (fun t =>
        t = { s with pwr := { s.pwr with rstLow := false } })) ∧
      (s.pwr.rstLow = true → s.pwr.boot ≠ 0 → Ends (.rstRelease strap) s (fun t => t.pwr.rstLow = false ∧
        t.pwr.boot = 1 ∧ t.flag F.SYS_MODE_STRAP = strap ∧ t.flag F.SYS_RSTC_PIN = true ∧ t.fld F.PWR_LRST_CAUSE = 3))) ∧
    Ends .kaPowerOnReset s (fun t => t.pwr.boot = 0 ∧ t.pwr.cause = 0 ∧ t.keep = {} ∧ t.clk = {} ∧ t.tim = {} ∧ fresh t)

/-- With no record unsettled and the state in its form. Each rail's loss clears its good flag and, where the core
runs, sets its sticky bit and posts; its return sets the flag, and with VDRV every running channel restarts, and one
disabled or tripped stays off, marked to restart. An engine that stalls with its enable set is named in SYS_RSTC and
restarts: the fade engine holds what each lamp shows and is due to replay, the security engine's cache empties. VSTORE
below 2.3 V sets STLOW; a good cell that CELLEN allows is selected, a low one is let go and sets CELLLOW; above 2.8 V
the cell is released. At KEEP_VMAX FULL sets and charging stops, 50 mV below it resumes. The MPP ratio sets KEEP_MPP,
clamped with MPPERR. A gauge second shows its class and adds harvested energy and cell charge, whole parts into HC37
and HC38. Hour ticks count HC0, LIT hours HC2. EXTEST stands while active. Where its condition does not hold each
leaves the state as it was. (R387, R389, R391, R406, R408, R412, R414, R415, R418, R419, R451, R512) -/
def Obligations.RailsEnginesAndTheStore : Prop :=
  ∀ s : State, s.Settled → s.Shape →
    (∀ level : Byte, Ends (.vdrvUndervoltage level) s (fun t => t.flag F.PWR_STAT_VDRVG = false ∧
      (s.coreOn = true → t.flag F.PWR_STAT_VDRVUV = true ∧
        (s.q6.length < 64 → ∃ r ∈ t.q6, r.cls = 2 ∧ r.ev = 4 ∧ r.detail = level.toNat)) ∧
      ∀ n, n < 16 → t.lat n = s.lat n)) ∧
    (s.flag F.PWR_STAT_VDRVG = true → exec .vdrvGood s = .next s) ∧
    (s.flag F.PWR_STAT_VDRVG = false → Ends .vdrvGood s (fun t => t.flag F.PWR_STAT_VDRVG = true ∧
      (∀ n, n < 16 → ((s.chan n).run = true → t.chan n = { s.chan n with restart := true }) ∧
        ((s.chan n).run = false → s.bit R.PWM_ENA n = false ∨ s.lat n ≠ 0 →
          t.chan n = { s.chan n with restart := (s.chan n).restart || s.pwr.vdrvUv })) ∧
      (s.coreOn = true → s.pwr.vdrvUv = true → s.q6.length < 64 → ∃ r ∈ t.q6, r.cls = 2 ∧ r.ev = 5))) ∧
    (∀ level : Word, Ends (.avddOutOfRange level) s (fun t => t.flag F.PWR_STAT_AVDDG = false ∧ t.tim = s.tim ∧
      t.phy = s.phy ∧ t.fde = s.fde ∧ (s.coreOn = true → t.flag F.PWR_STAT_AVDDF = true ∧
        (s.q6.length < 64 → ∃ r ∈ t.q6, r.cls = 2 ∧ r.ev = 0xA ∧ r.detail = level.toNat)))) ∧
    Ends .avddGood s (fun t => t.flag F.PWR_STAT_AVDDG = true ∧ ∀ k, k ≠ R.PWR_STAT → t.reg k = s.reg k) ∧
    Ends .vldGood s (fun t => t.flag F.PWR_STAT_VLDG = true ∧ ∀ k, k ≠ R.PWR_STAT → t.reg k = s.reg k) ∧
    Ends .vhioLoss s (fun t => t.flag F.PWR_STAT_VHIOG = false ∧ t.pathUp .host = false) ∧
    Ends .vhioGood s (fun t => t.flag F.PWR_STAT_VHIOG = true ∧ t.pathUp .host = t.pathUp .remote) ∧
    (∀ on : Bool, (on = true → s.coreOn = false → exec (.jtagExtest on) s = .next s) ∧
      (on = false ∨ s.coreOn = true → Ends (.jtagExtest on) s (fun t => t.pwr = { s.pwr with extest := on } ∧
        t.regs = s.regs ∧ (on = true → t.transmitting = false)))) ∧
    (∀ e : Engine,
      let due := 4 ≤ s.pwr.boot ∧ s.pwr.rstLow = false ∧ s.bit R.PWR_STALLEN (engineBit e) = true
      (¬ due → exec (.engineStall e) s = .next s) ∧
      (due → Ends (.engineStall e) s (fun t => t.flag F.SYS_RSTC_STALL = true ∧
        t.fld F.SYS_RSTC_STALLPG = enginePage e ∧ t.tim = s.tim ∧
        (e ≠ .fde → t.fde = s.fde) ∧ (e ≠ .sec → t.sec.cache = s.sec.cache) ∧
        (e = .fde → t.fde.reqs = [] ∧ t.fde.replay = true ∧ ∀ l, l < 8 → (t.flamp l).shown = (s.flamp l).shown ∧
          ∀ k, 1 ≤ k → k < 8 → (t.flamp l).slot k = none) ∧
        (e = .sec → t.sec.cache = [] ∧ t.sec.kdata = []) ∧
        ((e ≠ .hlt ∧ e ≠ .phy ∧ e ≠ .mac) → s.q6.length < 64 →
          ∃ r ∈ t.q6, r.cls = 2 ∧ r.ev = 8 ∧ r.detail = enginePage e)))) ∧
    (∀ v c : Word,
      let take := 2500 ≤ c.toNat ∧ s.flag F.KEEP_CTL_CELLEN = true ∧ s.keep.cell = false
      (2300 ≤ v.toNat → exec (.cellSelect v c) s = .next s) ∧
      (v.toNat < 2300 → Ends (.cellSelect v c) s (fun t => t.reg R.KEEP_VSTORE = v ∧ t.reg R.KEEP_VCELL = c ∧
        t.flag F.KEEP_STAT_STLOW = true ∧ (c.toNat < 2500 → t.flag F.KEEP_STAT_CELLLOW = true) ∧
        (take → t.flag F.KEEP_STAT_CELLSW = true ∧ t.keep.cell = true) ∧
        (¬ take → t.keep.cell = (s.keep.cell && decide (2500 ≤ c.toNat))))) ∧
      (v.toNat ≤ 2800 ∨ s.keep.cell = false → exec (.cellRelease v) s = .next s) ∧
      (2800 < v.toNat → s.keep.cell = true → Ends (.cellRelease v) s (fun t => t.reg R.KEEP_VSTORE = v ∧
        t.keep.cell = false ∧ t.fld F.KEEP_STAT_SRC ≠ 2)) ∧
      (v.toNat < 10 * s.fld F.KEEP_VMAX_V → exec (.storeFull v) s = .next s) ∧
      (10 * s.fld F.KEEP_VMAX_V ≤ v.toNat → Ends (.storeFull v) s (fun t => t.reg R.KEEP_VSTORE = v ∧
        t.flag F.KEEP_STAT_FULL = true ∧ t.flag F.KEEP_STAT_CHG = false ∧ t.flag F.KEEP_STAT_HACT = false)) ∧
      (10 * s.fld F.KEEP_VMAX_V < v.toNat + 50 → exec (.storeChargeResume v) s = .next s) ∧
      (v.toNat + 50 ≤ 10 * s.fld F.KEEP_VMAX_V → Ends (.storeChargeResume v) s (fun t => t.reg R.KEEP_VSTORE = v ∧
        t.flag F.KEEP_STAT_FULL = false ∧ (t.flag F.KEEP_STAT_CHG = true ↔
          s.vauxUsed = true ∧ s.pwr.loss = 0 ∧ s.flag F.KEEP_CTL_CHGEN = true)))) ∧
    (∀ x : Word,
      let on := s.flag F.KEEP_CTL_HEN = true ∧ (s.pwr.boot ≠ 0 ∨ s.keep.deep.getLsbD 0 = true)
      (¬ on → exec (.mppUpdate x) s = .next s) ∧
      (on → 1024 ≤ 50 * x.toNat → 10 * x.toNat ≤ 4096 → Ends (.mppUpdate x) s (fun t =>
        (t.reg R.KEEP_MPP).toNat = (5000 * x.toNat + 512) / 1024 ∧ ∀ k, k ≠ R.KEEP_MPP → t.reg k = s.reg k)) ∧
      (on → 50 * x.toNat < 1024 → Ends (.mppUpdate x) s (fun t => t.reg R.KEEP_MPP = 100 ∧
        t.flag F.KEEP_STAT_MPPERR = true)) ∧
      (on → 4096 < 10 * x.toNat → Ends (.mppUpdate x) s (fun t => t.reg R.KEEP_MPP = 2000 ∧
        t.flag F.KEEP_STAT_MPPERR = true))) ∧
    (∀ (cls : Fin 16) (uj : Nat),
      let cell := s.keep.cellPart + (if s.fld F.KEEP_STAT_SRC = 2 then cls.val + 1 else 0)
      let e := if s.harvests then uj else 0
      Ends (.gaugeSecond cls uj) s (fun t => t.fld F.KEEP_LOAD_CLASS = cls ∧
        t.pair R.KEEP_EHARV_LO = (s.pair R.KEEP_EHARV_LO + e) % 2 ^ 32 ∧ t.flag F.KEEP_STAT_HACT = decide (e ≠ 0) ∧
        t.keep = { s.keep with cellPart := cell % 720000, harvPart := (s.keep.harvPart + e) % 36000000 } ∧
        (s.vlt.hatBad = false → t.hat 38 = (s.hat 38 + cell / 720000) % 2 ^ 32 ∧
          t.hat 37 = (s.hat 37 + (s.keep.harvPart + e) / 36000000) % 2 ^ 32))) ∧
    (s.keep.elapsed / (3600 * 2 ^ 48) ≤ s.keep.hours → exec .hourTick s = .next s) ∧
    (s.keep.hours < s.keep.elapsed / (3600 * 2 ^ 48) → Ends .hourTick s (fun t => t.regs = s.regs ∧
      t.keep = { s.keep with hours := s.keep.hours + 1 } ∧ (s.vlt.hatBad = false → t.hat 0 = (s.hat 0 + 1) % 2 ^ 32))) ∧
    (s.pwr.boot = 0 ∨ s.keep.litEdges < 3600 * 32768 → exec .litHour s = .next s) ∧
    (s.pwr.boot ≠ 0 → 3600 * 32768 ≤ s.keep.litEdges → Ends .litHour s (fun t => t.regs = s.regs ∧
      (s.vlt.hatBad = false → t.hat 2 = (s.hat 2 + 1) % 2 ^ 32)))

/-- With no record unsettled. A free vault with records waiting and no commit starts one at the delay's end or by
COMMIT, which during a commit is refused with 3. The commit's end frees its entries under a higher number, with
VLTDONE where enabled. For an operation with no other and no record waiting: a rewrite's end leaves its sector's new
image, a seal reset empties LOG_SFILL; a bank build swaps the active bank, ends its default and its page's SAVEPEND; a
LEG write programs the losing copy and shows the winner; a USR erase erases its sector; a write that fails sets CODE
6, INTEG and NMI VLTF, posts 0x006, and the vault goes on without the operation, else the fold, else the commit. A
fold's end raises the epoch, sets WEAR from 180 000 on, posts 0x005 and changes no counter. An erase deferred from
recovery clears the header case. Where its condition does not hold each leaves the state as it was. (R436, R437, R441,
R442, R444, R447, R453, R454, R457, R492) -/
def Obligations.TheVaultEndsItsOperations : Prop :=
  ∀ s : State, s.Settled →
    let recs := bufRecords s.vlt.buf
    let alone := s.vlt.wait = [] ∧ ∀ e ∈ dropFirstOp s.vlt.buf, e.isOp = false
    let doneIrq (t : State) : Prop := s.flag F.VLT_IRQEN_DONE = true → t.flag F.IRQ_STAT_HI_VLTDONE = true
    (let may := s.vaultFree = true ∧ s.vlt.commit = none ∧ recs ≠ []
     let begins (t : State) : Prop := t.regs = s.regs ∧ t.vlt = { s.vlt with commit := some recs.length, begun := true }
     (¬ may → exec .commitDelayExpiry s = .next s) ∧ (may → Ends .commitDelayExpiry s begins) ∧
     ∀ p : Path, s.pathUp p = true →
       (may → Ends (.vltCommit p) s begins) ∧
       (s.vlt.commit.isSome = true → Ends (.vltCommit p) s (fun t => t.vlt = s.vlt ∧ t.fld F.VLT_ERR_CODE = 3 ∧
         t.flag F.VLT_STAT_REFUSED = true)) ∧
       (s.vlt.commit = none → ¬ may → Ends (.vltCommit p) s (fun t => t.vlt = s.vlt ∧ t.regs = s.regs))) ∧
    (s.vlt.commit = none ∨ (s.vaultFree = false ∧ s.pwr.granted = false) → exec .commitDone s = .next s) ∧
    (∀ n, s.vlt.commit = some n → s.vaultFree = true → Ends .commitDone s (fun t =>
      (s.vlt.wait = [] → t.vlt.buf = dropRecords n s.vlt.buf) ∧ t.vlt.commit = none ∧ s.vlt.vnum < t.vlt.cnum ∧ t.vlt.flash = s.vlt.flash ∧
      doneIrq t)) ∧
    ((∀ e, s.vlt.op = some e → e.isRewrite = false) ∨ s.vaultFree = false → exec .sectorRewriteDone s = .next s) ∧
    (∀ e, s.vlt.op = some e → e.isRewrite = true → s.vaultFree = true → alone → Ends .sectorRewriteDone s (fun t =>
      t.vlt.op = none ∧ t.vlt.scr = none ∧ t.vlt.buf = dropFirstOp s.vlt.buf ∧ doneIrq t ∧
      (s.vlt.scr = none → t.vlt.flash = (s.vlt.apply e).flash) ∧ (s.vlt.scr.isSome = true → t.vlt.flash = s.vlt.flash) ∧
      (∀ b, e = .sealReset b → t.fld F.LOG_SFILL_N = 0 ∧ t.vlt.sealing = false))) ∧
    ((∀ c o b, s.vlt.op ≠ some (.bank c o b)) ∨ s.vaultFree = false → exec .bankBuildDone s = .next s) ∧
    (∀ c o b, s.vlt.op = some (.bank c o b) → s.vaultFree = true → alone → Ends .bankBuildDone s (fun t =>
      t.vlt.op = none ∧ t.vlt.buf = dropFirstOp s.vlt.buf ∧ doneIrq t ∧
      (c = true → t.fld F.SYS_BOOT_CFGBANK = 1 - s.fld F.SYS_BOOT_CFGBANK ∧ t.flag F.SYS_BOOT_CFGDEF = false ∧
        t.fld F.SYS_BOOT_TABBANK = s.fld F.SYS_BOOT_TABBANK) ∧
      (c = false → t.fld F.SYS_BOOT_TABBANK = 1 - s.fld F.SYS_BOOT_TABBANK ∧ t.flag F.SYS_BOOT_TABDEF = false ∧
        t.fld F.SYS_BOOT_CFGBANK = s.fld F.SYS_BOOT_CFGBANK) ∧
      (o = 6 → t.flag F.LMP_STAT_SAVEPEND = false) ∧ (o = 7 → t.flag F.FDE_STAT_SAVEPEND = false) ∧
      (o = 8 → t.flag F.HLT_STAT_SAVEPEND = false))) ∧
    (s.vlt.fold = none ∨ s.vaultFree = false → exec .foldDone s = .next s) ∧
    (∀ nb, s.vlt.fold = some nb → s.vaultFree = true → Ends .foldDone s (fun t => t.vlt.epoch = s.vlt.epoch + 1 ∧
      (180000 ≤ s.vlt.epoch + 1 → t.flag F.VLT_STAT_WEAR = true) ∧
      (nb = foldBases s.vlt → s.vlt.hatTag ≤ s.vlt.epoch → ∀ n, n < 64 → t.hat n = s.hat n) ∧
      (s.q6.length < 64 → ∃ r ∈ t.q6, r.cls = 7 ∧ r.ev = 5 ∧ r.detail = (s.vlt.epoch + 1) % 65536))) ∧
    ((∀ ws, s.vlt.op ≠ some (.legWrite ws)) ∨ s.vaultFree = false → exec .legWriteDone s = .next s) ∧
    (∀ ws, s.vlt.op = some (.legWrite ws) → s.vaultFree = true → alone → Ends .legWriteDone s (fun t =>
      t.vlt.op = none ∧ t.vlt.flash = (s.vlt.legProgram ws).flash ∧ doneIrq t ∧
      t.flag F.VLT_STAT_LEGDEF = t.vlt.legWinner.1.isNone ∧ t.flag F.VLT_STAT_LEGWIN = (t.vlt.legWinner.1 == some 1) ∧
      ∀ c, t.vlt.legWinner.1 = some c → t.reg R.VLT_LEGSEQ = t.vlt.legSeq c)) ∧
    (s.vaultFree = false → exec .sectorEraseDone s = .next s) ∧
    (∀ k, s.vaultFree = true → s.vlt.op = some (.usrErase k) → alone → Ends .sectorEraseDone s (fun t =>
      t.vlt.op = none ∧ t.regs = s.regs ∧ (∀ b, fltUsr + 4096 * k ≤ b → b < fltUsr + 4096 * k + 4096 → t.vlt.byte b = 0xFF) ∧
      ∀ b, b < fltUsr + 4096 * k ∨ fltUsr + 4096 * k + 4096 ≤ b → t.vlt.byte b = s.vlt.byte b)) ∧
    (s.vaultFree = true → (∀ k, s.vlt.op ≠ some (.usrErase k)) →
      (s.vlt.hatCut = 0 → exec .sectorEraseDone s = .next s) ∧
      (s.vlt.hatCut ≠ 0 → Ends .sectorEraseDone s (fun t => t.vlt.hatCut = 0 ∧ t.vlt.flash = s.vlt.flash ∧
        t.regs = s.regs))) ∧
    (s.pwr.boot < 4 → exec .flashVerifyFail s = .next s) ∧
    (4 ≤ s.pwr.boot → Ends .flashVerifyFail s (fun t => t.fld F.VLT_ERR_CODE = 6 ∧ t.flag F.VLT_STAT_INTEG = true ∧
      t.flag F.NMI_STAT_VLTF = true ∧ (s.q6.length < 64 → ∃ r ∈ t.q6, r.cls = 7 ∧ r.ev = 6 ∧ r.detail = 1) ∧
      (s.vlt.op.isSome = true → alone → t.vlt.op = none ∧ t.vlt.buf = dropFirstOp s.vlt.buf ∧
        t.vlt.flash = s.vlt.flash) ∧
      (s.vlt.op = none → s.vlt.fold.isSome = true → t.vlt.fold = none ∧ t.vlt.commit = s.vlt.commit) ∧
      (∀ n, s.vlt.op = none → s.vlt.fold = none → s.vlt.commit = some n → t.vlt.commit = none ∧
        (s.vlt.wait = [] → t.vlt.buf = dropRecords n s.vlt.buf))))

/-- On a path that responds, with no record unsettled. A command that needs another region selected is refused with 5,
on a closed region with 1, without the unlock it needs with 2, past the end with 4, without room or with a LEG write
waiting with 3; each refusal sets REFUSED and leaves the vault. PGWR queues the page buffer and empties it, with an
empty buffer does nothing; ERASE queues the sector of VLT_RADDR; LEGWR queues the edit buffer; LEGLOAD takes the
winner's words, or blanks; LOCK closes the region on its path; SETPWD takes the four words as the new password, at
once and as a record. The fourth word judges a closed region: right, it opens on the path and the count is 0; wrong,
it counts, locks out for its delay, sets PWERR and posts 0x008. While locked out a word is ignored. RSEL restarts the
sequence on both paths, 3 is 0. HAT_INC counts a host counter, any other is refused with 7. Time-outs close a region
or end the lockout. (R444, R445, R446, R447, R449, R452) -/
def Obligations.RawRegionsPasswordsAndHatches : Prop :=
  ∀ (p : Path) (s : State), s.Settled →
    (Ends .passwordLockoutEnd s (fun t => t.keep = { s.keep with pwLock := false } ∧ t.regs = s.regs) ∧
     ∀ r : Fin 3, Ends (.regionTimeout p r) s (fun t => (t.path p).regOpen = (s.path p).regOpen.filter (· != r.val) ∧
       t.regs = s.regs ∧ ∀ q, q ≠ p → t.path q = s.path q)) ∧
    (s.pathUp p = true →
      let refused (code : Nat) (t : State) : Prop := t.fld F.VLT_ERR_CODE = code ∧ t.flag F.VLT_STAT_REFUSED = true ∧
        t.vlt = s.vlt
      let queued (e : VEntry) (t : State) : Prop :=
        (s.vaultFree = false → t.vlt.buf = s.vlt.buf ++ [e] ∧ t.vlt.op = s.vlt.op) ∧
        (s.vaultFree = true → s.vlt.op = none → (∀ x ∈ s.vlt.buf, x.isOp = false) → e.direct s.vlt = false →
          t.vlt.buf = s.vlt.buf ++ [e] ∧ t.vlt.op = some e ∧ t.vlt.flash = s.vlt.flash)
      let r := s.rsel
      let opened := s.rawOpen p r = true
      let unl := s.unlocked p = true
      (r ≠ 0 → Ends (.pgwr p) s (refused 5)) ∧ (r = 0 → ¬ opened → Ends (.pgwr p) s (refused 1)) ∧
      (r = 0 → opened → s.vlt.usrBuf = [] → Ends (.pgwr p) s (fun t => t.vlt = s.vlt ∧ t.regs = s.regs)) ∧
      (r = 0 → opened → s.vlt.usrBuf ≠ [] → s.vRoom 128 = false → Ends (.pgwr p) s (refused 3)) ∧
      (r = 0 → opened → s.vlt.usrBuf ≠ [] → s.vRoom 128 = true → Ends (.pgwr p) s (fun t => t.vlt.usrBuf = [] ∧
        t.regs = s.regs ∧ queued (.usrPage s.vlt.usrBuf) t ∧
        (s.vaultFree = true → s.vlt.op = none → (∀ x ∈ s.vlt.buf, x.isOp = false) →
          VEntry.direct s.vlt (.usrPage s.vlt.usrBuf) = true → s.vlt.scr = none → t.vlt.buf = s.vlt.buf ∧
          t.vlt.flash = (s.vlt.putCells fltUsr s.vlt.usrBuf).flash))) ∧
      (¬ unl → Ends (.vltErase p) s (refused 2)) ∧ (unl → r ≠ 0 → Ends (.vltErase p) s (refused 5)) ∧
      (unl → r = 0 → ¬ opened → Ends (.vltErase p) s (refused 1)) ∧
      (unl → r = 0 → opened →
        let a := (s.reg R.VLT_RADDR).toNat
        (0x8000 ≤ a → Ends (.vltErase p) s (refused 4)) ∧
        (a < 0x8000 → s.vRoom 2 = false → Ends (.vltErase p) s (refused 3)) ∧
        (a < 0x8000 → s.vRoom 2 = true → Ends (.vltErase p) s (queued (.usrErase (a / 2048))))) ∧
      (r ≠ 1 → Ends (.legwr p) s (refused 5) ∧ Ends (.legload p) s (refused 5)) ∧
      (r = 1 → ¬ opened → Ends (.legwr p) s (refused 1) ∧ Ends (.legload p) s (refused 1)) ∧
      (r = 1 → opened →
        (legBusy s.vlt.buf = true ∨ s.vRoom 1020 = false → Ends (.legwr p) s (refused 3)) ∧
        (legBusy s.vlt.buf = false → s.vRoom 1020 = true → Ends (.legwr p) s
          (queued (.legWrite (spRead blankWord s.vlt.legBuf 0 510)))) ∧
        Ends (.legload p) s (fun t => t.regs = s.regs ∧ t.vlt.flash = s.vlt.flash ∧ ∀ i, i < 512 →
          spGet blankWord t.vlt.legBuf i = (match s.vlt.legWinner.1 with
            | some c => s.vlt.word (legBase c + 2 * i)
            | none => 0xFFFF))) ∧
      Ends (.vltLock p) s (fun t => (t.path p).regOpen = (s.path p).regOpen.filter (· != r) ∧ t.regs = s.regs ∧
        t.vlt = s.vlt) ∧
      (let l := (s.path p).pwWords
       let w := pwOf (l.drop (l.length - 4))
       (¬ unl → Ends (.setpwd p) s (refused 2)) ∧ (unl → ¬ opened → Ends (.setpwd p) s (refused 1)) ∧
       (unl → opened → l.length < 4 → Ends (.setpwd p) s (refused 5)) ∧
       (unl → opened → 4 ≤ l.length → s.vRoom 19 = false → Ends (.setpwd p) s (refused 3)) ∧
       (unl → opened → 4 ≤ l.length → s.vRoom 19 = true → Ends (.setpwd p) s (fun t => t.vlt.pw = s.vlt.pw.set r w ∧
         r ∈ (t.path p).regOpen ∧ (s.vlt.wait = [] →
            t.vlt.buf = s.vlt.buf ++ [.record recPwd (BitVec.ofNat 8 r :: toBytes 8 w.toNat)])))) ∧
      (∀ v : Word,
        let l := (s.path p).pwWords ++ [v]
        let l := if l.length = 8 then l.drop 4 else l
        (s.keep.pwLock = true → Ends (.passwordWord p v) s (fun t => (t.path p).pwWords = (s.path p).pwWords ∧
          (t.path p).regOpen = (s.path p).regOpen ∧ t.keep = s.keep ∧ t.regs = s.regs)) ∧
        (s.keep.pwLock = false → l.length ≠ 4 ∨ opened → Ends (.passwordWord p v) s (fun t => (t.path p).pwWords = l ∧
          (t.path p).regOpen = (s.path p).regOpen ∧ t.keep = s.keep ∧ t.regs = s.regs)) ∧
        (s.keep.pwLock = false → l.length = 4 → ¬ opened → pwOf l = s.vlt.pw.getD r 0 → Ends (.passwordWord p v) s
          (fun t => t.rawOpen p r = true ∧ t.keep = { s.keep with pwWrong := 0 } ∧ t.regs = s.regs)) ∧
        (s.keep.pwLock = false → l.length = 4 → ¬ opened → pwOf l ≠ s.vlt.pw.getD r 0 → Ends (.passwordWord p v) s
          (fun t => t.rawOpen p r = false ∧ t.keep = { s.keep with
              pwWrong := s.keep.pwWrong + 1, pwLock := true,
              pwUntil := s.keep.elapsed + min (2 ^ min s.keep.pwWrong 12) 3600 * 2 ^ 48 } ∧
            t.flag F.VLT_STAT_PWERR = true ∧
            (s.q6.length < 64 → ∃ x ∈ t.q6, x.cls = 7 ∧ x.ev = 8 ∧ x.detail = r))) ∧
        Ends (.rawRegionSelect p v) s (fun t => (∀ q, (t.path q).pwWords = []) ∧
          t.fld F.VLT_RSEL_REG = (if v.toNat % 4 = 3 then 0 else v.toNat % 4) ∧
          ∀ k, k ≠ R.VLT_RSEL → t.reg k = s.reg k)) ∧
      (42 ≤ s.fld F.HAT_SEL_HC → Ends (.hatInc p) s (fun t => (s.fld F.HAT_SEL_HC ≠ 62 → t.regs = s.regs) ∧
        (s.vlt.hatBad = false → t.hat (s.fld F.HAT_SEL_HC) = (s.hat (s.fld F.HAT_SEL_HC) + 1) % 2 ^ 32))) ∧
      (s.fld F.HAT_SEL_HC < 42 → Ends (.hatInc p) s (refused 7)))

/-- On a path that responds, with no record unsettled. LOADKEY, COMMISSION and RETIRE on the remote path change
nothing; any command with SYS_UNLOCK closed, and the lifecycle pair without key 0xA7, only clear SEC_KDATA. While the
engine is busy each answers BUSY. LOADKEY answers STATE outside SHIPPED, RANGE for words that fit no key of the class
or a KID held elsewhere, BUSY without room, and else queues the wrapped key for its slot; ERASEKEY queues an empty
record. COMMISSION from SHIPPED with ADMIN, VERIFY and BUNDLE held begins its burn, RETIRE from SHIPPED or
COMMISSIONED; else STATE. The burn's end takes the new state, posts 0x004 and completes; a retirement erases every
slot first. PROOF begins, or answers STATE; SELFTEST begins, or answers BUSY; its end sets STOK, or clears it, fails
the engine, sets STFAIL and posts 0x001. SAVEDIR queues the directory. A key word is added, up to 33; a slot select
clears them. A failed health test of a running core sets STFAIL. (R461, R462, R465, R466, R471, R479, R480, R481,
R482, R484, R485) -/
def Obligations.SecurityCommandsAnswer : Prop :=
  ∀ (s : State), s.Settled →
    let res (c : Nat) (t : State) : Prop := t.reg R.SEC_RESULT = BitVec.ofNat 16 (32768 + c)
    let begun (t : State) : Prop := t.reg R.SEC_RESULT = 0 ∧ t.sec.cmdRun = true ∧ t.sec.kdata = []
    let cleared := { s.sec with kdata := [] }
    (∀ v : Word, s.pathUp .remote = true → ∀ c ∈ [Instr.loadkey .remote, .commission .remote v, .retire .remote v],
      Ends c s (fun t => t.regs = s.regs ∧ t.sec = s.sec ∧ t.vlt = s.vlt)) ∧
    (∀ (p : Path) (v : Word), s.pathUp p = true →
      (s.unlocked p = false →
        (∀ c ∈ [Instr.erasekey p, .secProof p, .selftest p, .savedir p], Ends c s (fun t => t.regs = s.regs ∧
          t.sec = cleared ∧ t.vlt = s.vlt)) ∧
        (p = .host → ∀ c ∈ [Instr.loadkey p, .commission p v, .retire p v], Ends c s (fun t => t.regs = s.regs ∧
          t.sec = cleared ∧ t.vlt = s.vlt))) ∧
      (s.unlocked p = true → s.secBusy = true →
        (∀ c ∈ [Instr.erasekey p, .secProof p, .selftest p, .savedir p], Ends c s (fun t => res cBusy t ∧
          t.sec = cleared ∧ t.vlt = s.vlt)) ∧
        (p = .host → Ends (.loadkey p) s (fun t => res cBusy t ∧ t.sec = cleared ∧ t.vlt = s.vlt))) ∧
      (s.unlocked p = true → s.secBusy = false →
        let n := s.fld F.SEC_SLOT_SEL_SLOT
        (s.vRoom 10 = true → Ends (.erasekey p) s (fun t => begun t ∧ (s.vlt.wait = [] → t.vlt.buf = s.vlt.buf ++ [.record (recKeyBlob + n) []]))) ∧
        (s.vRoom 10 = false → Ends (.erasekey p) s (fun t => res cBusy t ∧ t.vlt = s.vlt)) ∧
        (s.sec.life = 0 ∨ s.sec.failed = true → Ends (.secProof p) s (fun t => res cState t ∧ t.sec.proof = none)) ∧
        (s.sec.life ≠ 0 → s.sec.failed = false → Ends (.secProof p) s (fun t => begun t ∧ t.sec.proof.isSome = true)) ∧
        (s.sec.tests ≠ 0 → Ends (.selftest p) s (fun t => res cBusy t ∧ t.sec.tests = s.sec.tests)) ∧
        (s.sec.tests = 0 → Ends (.selftest p) s (fun t => begun t ∧ t.sec.tests = 2)) ∧
        (s.vRoom 2 = false → Ends (.savedir p) s (fun t => res cBusy t ∧ t.vlt = s.vlt)) ∧
        (s.vRoom 2 = true → Ends (.savedir p) s (fun t => res cOk t ∧
          (s.vaultFree = false → ∃ b, t.vlt.buf = s.vlt.buf ++ [.bank false 15 b]) ∧
          (s.vaultFree = true → s.vlt.op = none → (∀ x ∈ s.vlt.buf, x.isOp = false) →
            ∃ b, t.vlt.op = some (.bank false 15 b)))) ∧
        (p = .host →
          let kid := s.fld F.SEC_KID_KID
          let fits := keyFits (kidClass kid) s.sec.kdata = true ∧ (s.slotOf kid).any (· != n) = false
          let blob := blobPayload kid (wordsBytes s.sec.kdata)
          (s.sec.life ≠ 1 → Ends (.loadkey p) s (fun t => res cState t ∧ t.vlt = s.vlt)) ∧
          (s.sec.life = 1 → ¬ fits → Ends (.loadkey p) s (fun t => res cRange t ∧ t.vlt = s.vlt)) ∧
          (s.sec.life = 1 → fits → s.vRoom (10 + blob.length) = false → Ends (.loadkey p) s (fun t => res cBusy t ∧
            t.vlt = s.vlt)) ∧
          (s.sec.life = 1 → fits → s.vRoom (10 + blob.length) = true → Ends (.loadkey p) s (fun t => begun t ∧
            (s.vlt.wait = [] → t.vlt.buf = s.vlt.buf ++ [.record (recKeyBlob + n) blob]))) ∧
          (getBits v 15 8 ≠ 0xA7 → ∀ c ∈ [Instr.commission p v, .retire p v], Ends c s (fun t => t.regs = s.regs ∧
            t.sec = cleared)) ∧
          (getBits v 15 8 = 0xA7 →
            let may := s.sec.life = 1 ∧ s.holdsClass clsAdmin = true ∧ s.holdsClass clsVerify = true ∧
              s.holdsClass clsBundle = true
            (may → Ends (.commission p v) s (fun t => begun t ∧ t.sec.burn = some 2 ∧ t.sec.life = 1)) ∧
            (¬ may → Ends (.commission p v) s (fun t => res cState t ∧ t.sec.burn = s.sec.burn)) ∧
            (s.sec.life = 1 ∨ s.sec.life = 2 → Ends (.retire p v) s (fun t => begun t ∧ t.sec.burn = some 3)) ∧
            (s.sec.life ≠ 1 → s.sec.life ≠ 2 → Ends (.retire p v) s (fun t => res cState t ∧
              t.sec.burn = s.sec.burn))))) ∧
      Ends (.secKdataWrite p v) s (fun t => t.regs = s.regs ∧
        t.sec.kdata = if s.sec.kdata.length < 33 then s.sec.kdata ++ [v] else s.sec.kdata) ∧
      Ends (.secSlotSelect p v) s (fun t => t.fld F.SEC_SLOT_SEL_SLOT = v.toNat % 8 ∧ t.sec = cleared)) ∧
    (s.sec.burn = none → exec .fuseBurnDone s = .next s) ∧
    (∀ c, s.sec.burn = some c → Ends .fuseBurnDone s (fun t => t.sec.life = c ∧ t.sec.burn = none ∧
      (s.q6.length < 64 → ∃ r ∈ t.q6, r.cls = 8 ∧ r.ev = 4 ∧ r.detail = c % 65536) ∧
      (c ≠ 3 ∨ s.loadedSlots = [] → res cOk t ∧ t.sec.cmdRun = false ∧ t.vlt.buf = s.vlt.buf) ∧
      (c = 3 → s.loadedSlots ≠ [] → s.vRoom (10 * s.loadedSlots.length) = true → t.sec.cmdRun = s.sec.cmdRun ∧
        (s.vlt.wait = [] → t.vlt.buf = s.vlt.buf ++ s.loadedSlots.map (fun n => .record (recKeyBlob + n) []))) ∧
      (c = 3 → s.vRoom (10 * s.loadedSlots.length) = false → t.sec.wipe = true ∧ res cOk t))) ∧
    (s.sec.tests = 0 → ∀ fail, exec (.selftestEnd fail) s = .next s) ∧
    (s.sec.tests ≠ 0 →
      Ends (.selftestEnd none) s (fun t => t.flag F.SEC_STAT_STOK = true ∧ t.sec.failed = false ∧ t.sec.tests = 0 ∧
        (s.sec.tests = 2 → res cOk t ∧ t.sec.cmdRun = false)) ∧
      ∀ k : Fin 6, Ends (.selftestEnd (some k)) s (fun t => t.flag F.SEC_STAT_STOK = false ∧ t.sec.failed = true ∧
        t.sec.tests = 0 ∧ t.flag F.SEC_STAT_STFAIL = true ∧ (s.sec.tests = 2 → res cOk t) ∧
        (s.sec.tests ≠ 2 → t.flag F.SYS_BOOT_STFAIL = true) ∧
        (s.q6.length < 64 → ∃ r ∈ t.q6, r.cls = 8 ∧ r.ev = 1 ∧ r.detail = k.val))) ∧
    (s.coreOn = false → exec .healthTestFail s = .next s) ∧
    (s.coreOn = true → Ends .healthTestFail s (fun t => t.flag F.SEC_STAT_STFAIL = true ∧ t.sec = s.sec))

/-- With no record unsettled. With the recorder running, a record in Q6 and the head's slot blank, the oldest leaves
Q6 and the rest stays in order; LOG_HEAD moves to the next ring slot, from 8191 to 64, LOG_WCNT counts, and below 64
and outside a seal reset LOG_SFILL rises, at 64 with SFULL. Where the head enters no new sector, the head's slot, and
the sealed slot where one is taken, read as the record's eight words, with SL in both. Otherwise nothing changes. On a
path that responds with the unlock open, 0x5EA1 to LOG_SEAL begins a seal reset where none runs; another word, a
closed unlock or one that runs changes nothing. A write of LOG_HPOST posts the event of class 0xA with the detail of
LOG_HDET. (R486, R489, R491, R492, R495) -/
def Obligations.RecordsAreTakenSealedAndPosted : Prop :=
  ∀ s : State, s.Settled →
    let h := s.fld F.LOG_HEAD_SLOT
    let f := s.fld F.LOG_SFILL_N
    let sl := decide (f < 64) && !s.vlt.sealing
    let may := s.recRuns = true ∧ s.vlt.blank (slotAddr h) 16 = true
    (s.q6 = [] ∨ ¬ may → exec .recorderTake s = .next s) ∧
    (∀ x l, s.q6 = x :: l → may → Ends .recorderTake s (fun t => (∃ l', t.q6 = l ++ l') ∧
      t.fld F.LOG_HEAD_SLOT = (if 8191 ≤ h then 64 else h + 1) ∧
      t.pair R.LOG_WCNT_LO = (s.pair R.LOG_WCNT_LO + 1) % 2 ^ 32 ∧
      t.fld F.LOG_SFILL_N = (if sl then f + 1 else f) ∧ (sl = true → f = 63 → t.flag F.LOG_STAT_SFULL = true) ∧
      ((h + 1) % 256 ≠ 0 → h < 8191 → h ≠ 63 →
        (∀ i, i < 8 → t.vlt.word (slotAddr h + 2 * i) = (x.words sl).getD i 0) ∧
        (sl = true → ∀ i, i < 8 → t.vlt.word (slotAddr f + 2 * i) = (x.words true).getD i 0)))) ∧
    (∀ (p : Path) (v : Word), s.pathUp p = true →
      let goes := s.unlocked p = true ∧ v = 0x5EA1 ∧ s.vlt.sealing = false
      (¬ goes → Ends (.sealReset p v) s (fun t => t.vlt = s.vlt ∧ t.regs = s.regs)) ∧
      (goes → Ends (.sealReset p v) s (fun t => t.vlt.sealing = true ∧ t.regs = s.regs ∧
        (s.vaultFree = false → s.pwr.loss < 2 → t.vlt.buf = s.vlt.buf ++ [.sealReset (p == .remote)]) ∧
        (s.vaultFree = true → s.vlt.op = none → (∀ e ∈ s.vlt.buf, e.isOp = false) →
          t.vlt.op = some (.sealReset (p == .remote))))) ∧
      (s.q6.length < 64 → Ends (.hostEventPost p v) s (fun t => ∃ r ∈ t.q6, r.cls = 0xA ∧ r.ev = v.toNat % 4096 ∧
        r.detail = (s.reg R.LOG_HDET).toNat)) ∧
      (64 ≤ s.q6.length → Ends (.hostEventPost p v) s (fun t => t.q6 = s.q6 ∧ t.flag F.LOG_STAT_Q6OVF = true ∧
        t.vlt.dropped = s.vlt.dropped + 1)))

/-- With no record unsettled and the state of its shape, each command named here answers a next state wherever the
condition written before it holds, and that state has the effect written behind it: the unlock word, the event pulses
and their ends; the watchdog, hold and the timed effects of the fade engine; the gate edges of a period, forces, trips
and their clearing; captures, conversions and rounds; the grid, beacons, frames and the ring port; the settings of
time; the general timers; the references; start-up, loss and reset; rails, energy store and hours; tables and their
saves, switching edges, raw regions, hatches, keys, the recorder and the vault's operations; the line commands of
tables, groups, addresses, roles, bundles and proofs. A source that pulsed within the last 2 cycles gives no second
pulse (R38). (R32, R37, R43, R86, R118, R137, R161, R256, R347, R389, R395, 02_register_model.md) -/
def Obligations.CommandsCompleteWithTheirOwnEffect : Prop :=
  ∀ s : State, s.Settled → s.Shape →
    (∀ p : Path, s.pathUp p = true →
      Ends (.unlockWrite p 0x5A17) s (fun t => (t.path p).armed = true) ∧
      ((s.path p).armed = true → Ends (.unlockWrite p 0xC3E8) s (fun t => (t.path p).opened = true)) ∧
      (∀ v : Word, Ends (.gtuEnaWrite p v) s (fun t => t.reg R.GTU_ENA = v &&& 0xFF) ∧
        Ends (.gtuTrgWrite p v) s (fun t => t.regs = s.regs ∧ ∀ n, n < 8 →
          v.getLsbD n = true → s.gtAlive n = true → (t.gt n).trig = true) ∧
        (softKey v = true → Ends (.softReset p v) s (fun t => t.pwr.softRst = true ∧ t.fld F.PWR_LRST_CAUSE = 5)) ∧
        (p = .host → s.hwdArmed = true → v = s.pwr.kick → Ends (.hwdKick p v) s (fun t => t.pwr.kickAt = s.cyc)) ∧
        (s.unlocked p = true → s.fld F.MAC_ROLE_ROLE ≠ v.toNat % 4 →
          Ends (.roleWrite p v) s (fun t => t.fld F.MAC_ROLE_ROLE = v.toNat % 4)) ∧
        (p = .host → s.fld F.MAC_RSEL_RING = 5 → Ends (.ringDataWrite p v) s (fun t => t.mac.build = s.mac.build ++ [v]) ∧
          Ends (.ringAbort p) s (fun t => t.mac.build = [])) ∧
        (p = .host → s.fld F.MAC_RSEL_RING = 4 → Ends (.ringPop p) s (fun t => t.mac.q4 = s.mac.q4.tail) ∧
          ∀ e l, s.mac.q4 = e :: l → Ends (.ringDataRead p) s (fun t => (t.path p).last = e.words.getD s.mac.rd 0)) ∧
        Ends (.pwmForceWrite p v) s (fun t => ∀ n, n < 16 → n ∈ s.pwmSel → getBits v 3 2 < 2 → getBits v 1 0 < 2 →
          t.reg (R.PWM_FORCE + n) = v &&& 0x1F)) ∧
      (∀ (oc ov : Word) (pins : BitVec 4),
        Ends (.tripClear p oc ov pins) s (fun t => ∀ n, n < 16 → n ∈ s.pwmSel → s.lat n ≠ 0 →
          s.activeBits n oc ov pins = 0 → t.lat n = 0) ∧
        Ends (.lockClear p oc ov pins) s (fun t => ∀ n, n < 16 → n ∈ s.curSel → s.activeBits n oc ov pins = 0 →
          t.flag (F.CUR_CSTAT_LOCKL.at n) = false)) ∧
      Ends (.timSecRead p) s (fun t => (t.path p).last = BitVec.ofNat 16 (secOf s.tim.now)) ∧
      (s.unlocked p = true → Ends (.timeSet p) s (fun t => t.flag F.TIM_EVT_SETDONE = true) ∧
        Ends (.timeSetcap p) s (fun t => t.flag F.TIM_FLG_SETP = true) ∧
        Ends (.setcapCancel p) s (fun t => t.flag F.TIM_FLG_SETP = false)) ∧
      (∀ (n : Fin 4) (v : Word), Ends (.alarmArm p n v) s (fun t => t.reg (alCtl n) = v &&& 0xBFFF))) ∧
    (∀ p : Path, Ends (.unlockTimeout p) s (fun t => (t.path p).opened = false)) ∧
    (∀ src : Byte, 4 ≤ s.pwr.boot → s.pwr.rstLow = false → fabricSource src.toNat = true →
      ∀ e, s.fabric.find? (fun x => x.1 == src.toNat) = some e →
        Ends (.eventFabricPulse src) s (fun t => t.fabric = s.fabric.erase e ∧ t.actedAt = e.2)) ∧
    (∀ n : Fin 8, s.gtu.length = 8 → Ends (.gtPinPulseEnd n) s (fun t => (t.gt n).pulse = false)) ∧
    Ends .syncoPulseEnd s (fun t => t.pwm.synco = false) ∧
    (s.coreOn = true →
      (∀ j : Bool, Ends (.holdBegin j) s (fun t => (if j then t.pwr.jtagHold else t.flag F.SYS_CTL_HOLD) = true) ∧
        Ends (.holdEnd j) s (fun t => (if j then t.pwr.jtagHold else t.flag F.SYS_CTL_HOLD) = false)) ∧
      (s.hwdArmed = true → Ends .hwdExpiry s (fun t => t.flag F.HWD_CTL_EXP = true)) ∧
      Ends .globalTripAutoClear s (fun t => t.pwm.waiting = s.pwm.waiting.drop 1) ∧
      Ends .synciEdge s (fun t => t.pwm.synciAt = some s.cyc) ∧
      (s.phrefDue = true → Ends .phrefPulse s (fun t => t.tim.phrefAt = some s.cyc)) ∧
      (s.benchTimed = false → Ends .stormWindowRestart s (fun t => t.fld F.PWM_STORM_CNT = 0)) ∧
      Ends .borWarning s (fun t => t.flag F.NMI_STAT_BOR = true) ∧
      (∀ v : Byte, Ends (.linkUndervoltage v) s (fun t => t.flag F.PWR_STAT_LINKUV = true) ∧
        Ends (.linkOvervoltage v) s (fun t => t.flag F.PWR_STAT_LINKOV = true)) ∧
      Ends .overtemperature s (fun t => t.pwm.otLive = true)) ∧
    (s.awaitsGo = true → Ends .hwdBootTimeout s (fun t => t.flag F.SYS_BOOT_STANDALONE = true)) ∧
    (6 ≤ s.pwr.boot → s.pwr.loss ≤ 1 → s.pwr.rstLow = false → (s.holdActive && s.flag F.HOLD_CTL_FDE) = false →
      s.fld F.SYS_MODE_STATE ≠ 0 → Ends .fadeTick s (fun t => t.fde.reqs = [])) ∧
    (s.flag F.FDE_STAT_TVALID = true → s.tim.jump = false → s.fde.replay = false →
      ∀ m, s.fde.minute = some m → m < s.localMinute →
        Ends .scheduleMinute s (fun t => t.fde.minute = some s.localMinute)) ∧
    (∀ (l : Fin 8) y i, (s.flamp l).pend = some y → y.2.1 = .instant i → s.dueNow (.instant i) = true →
      Ends (.timedStartDue l) s (fun t => (t.flamp l).due = true)) ∧
    (∀ (l k : Fin 8) x, (s.flamp l).slot k = some x → x.holdOver = true →
      Ends (.slotHoldExpiry l k) s (fun t => (t.flamp l).slot k = none)) ∧
    (∀ (l : Fin 8) x, (s.flamp l).slot 6 = some x → s.gesExpired x.wrote = true →
      Ends (.gestureHoldExpiry l) s (fun t => (t.flamp l).slot 6 = none)) ∧
    (∀ r : Fin 32, Ends (.ruleHoldEnd r) s (fun t => ∀ l, l < 8 → ∀ x, (s.flamp l).slot 2 = some x →
      x.rule = some r.val → x.holdOver = true → (t.flamp l).slot 2 = none)) ∧
    (s.keep.taps ≠ 0 → s.keep.off = false → s.pwr.boot ≠ 0 → s.keep.lastRet + 2 * 2 ^ 48 ≤ s.keep.elapsed →
      Ends .gestureComplete s (fun t => t.keep.taps = 0)) ∧
    (s.fld F.FDE_LOSS_LOSST ≠ 0 → s.isHead = false → s.fld F.FDE_LOSS_LOSST ≤ (s.reg R.MAC_BSINCE).toNat →
      s.flag F.FDE_STAT_LOSS = false → Ends .lossEntry s (fun t => t.flag F.FDE_STAT_LOSS = true)) ∧
    (∀ (n : Fin 16) (v : Word),
      let c := s.chan n
      let t0 := v.toNat
      let up := s.timed n && s.reach n t0
      let cap := s.fld (F.PWM_DT_DTMAX.at n)
      (up = true → c.hg = true → c.fHg ≠ 2 → s.flag (F.PWM_CTL_MODE.at n) = false → c.unblanked t0 = true →
        c.burn = true ∨ c.cmpb < c.cmpa → Ends (.peakComparatorEnd n v) s (fun t => (t.chan n).hg = false)) ∧
      (up = true → c.lgDue = true → c.zcd = false → Ends (.swSensedLow n v) s (fun t => (t.chan n).lg = true)) ∧
      (c.lg = false → c.lgLow = none → s.reach n t0 = true → Ends (.lgSensedLow n v) s (fun t =>
        (t.chan n).lgLow.isSome = true)) ∧
      (∀ a, c.hgAt = some a → up = true → c.hgDue = true → t0 = max c.cnt a.toNat → c.fHg = 2 ∨ t0 < c.cmpa →
        Ends (.hgTurnOn n v) s (fun t => (t.chan n).hg = true)) ∧
      (up = true → c.lgDue = true → c.zcd = false → t0 = max c.cnt (c.hgOff + cap).toNat →
        Ends (.dtmaxExpiry n v) s (fun t => (t.chan n).lg = true ∧ t.flag (F.PWM_STAT_DTCAP.at n) = true)) ∧
      (up = true → s.flag (F.PWM_CTL_ZCD.at n) = true → c.lg = true → (c.burn && !c.rose) = false → c.fLg ≠ 2 →
        Ends (.zeroCurrentDetect n v) s (fun t => (t.chan n).lg = false ∧ (t.chan n).zcd = true)) ∧
      (∀ b, s.timed n = true → s.reach n (max c.cnt (c.lgOn + s.fld (F.PWM_BRN_BRN_W.at n)).toNat) = true →
        c.burn = true → c.lg = true → c.rose = false → c.fLg ≠ 2 →
        Ends (.burnishEnd n b) s (fun t => (t.chan n).lg = false)) ∧
      (s.coreOn = true → Ends (.bootstrapUvlo n) s (fun t => t.flag (F.PWM_STAT_BSTLOW.at n) = true)) ∧
      (∀ x, c.fNew = some x → s.flag (F.PWM_FORCE_FORCE_AT.at n) = false → Ends (.forceEffect n) s (fun t =>
        (t.chan n).fHg = x.1 ∧ (t.chan n).fLg = x.2)) ∧
      ((s.ocAt n).isSome = true → Ends (.overcurrentTrip n) s (fun t => (s.lat n).getLsbD 0 = false →
        (t.lat n).getLsbD 0 = true ∧ (t.chan n).hg = false)) ∧
      (s.coreOn = true → Ends (.stringOvervoltageTrip n) s (fun t => (s.lat n).getLsbD 1 = false →
        (t.lat n).getLsbD 1 = true ∧ (t.chan n).hg = false)) ∧
      (c.frozen = true → s.flag (F.PWM_STAT_HOLDSAFE.at n) = false → Ends (.pwmHoldTimeout n) s (fun t =>
        t.flag (F.PWM_STAT_HOLDSAFE.at n) = true ∧ (t.chan n).hg = false)) ∧
      (s.lat n = 0 → c.run = true → Ends (.retryCountReset n) s (fun t => t.fld (F.CUR_CSTAT_RCNT.at n) = 0)) ∧
      (∀ (oc ov : Bool) (pins : BitVec 4), s.coreOn = true → s.flag (F.CUR_CSTAT_WAITL.at n) = true →
        s.lat n &&& ownBits ≠ 0 → s.lockedOff n = false → s.fld (F.CUR_CSTAT_RCNT.at n) < s.fld F.CUR_CTL_RMAX →
        s.activeBits n (if oc then 0xFFFF else 0) (if ov then 0xFFFF else 0) pins = 0 →
        Ends (.retryDue n oc ov pins) s (fun t => t.lat n = 0 ∧ t.flag (F.CUR_CSTAT_RETRY.at n) = true)) ∧
      (∀ w, c.midOn = some w → s.ticking n = true → s.reach n w = true →
        Ends (.currentHoldCapture n) s (fun t => (t.chan n).cap = true)) ∧
      (∀ volt x, s.hlt.waiting.find? (fun y => y.ch == n.val && y.volt == volt) = some x →
        Ends (.holdCaptureTimeout n volt) s (fun t => t.hlt.waiting = s.hlt.waiting.erase x)) ∧
      (∀ r, (s.hchan n).run = some r →
        (∀ q l, r.plan = q :: l → r.slot = none → s.holdActive = false →
          Ends (.proofSlotStart n) s (fun t => (t.hchan n).run =
            some { r with slot := some q, plan := l, rounds := 8, periods := 0, unreach := 0, now := {} })) ∧
        (r.slot = none → r.plan = [] → Ends (.proofRunEnd n) s (fun t => (t.hchan n).run = none)) ∧
        Ends (.proofRunTimeout n) s (fun t => (t.hchan n).run = none))) ∧
    (∀ k : Fin 4, s.pwmClk = true → s.bit (R.PWM_TRIPSRC0 + 64 * k.val) 15 = true → s.tripBlanked k = false →
      Ends (.tripPinActive k) s (fun t => ∀ n, n < 16 → s.bit (R.PWM_TRIPMSK0 + 64 * k.val) n = true →
        (t.lat n).getLsbD (2 + k) = true)) ∧
    (∀ x ∈ [(GlobalSrc.linkuv, 6), (.linkov, 7), (.ot, 8)], Ends (.globalTripSourceInactive x.1) s (fun t =>
      t.pwm.waiting = s.pwm.waiting.filter (· != x.2) ++ [x.2])) ∧
    (∀ g : Fin 9, s.litRun = true → s.phaseUpdate.dimDueNow g = true → s.phaseUpdate.dimPass g = false →
      Ends (.dimmingPeriodStart g) s (fun t => t.pwm.stip = s.pwm.stip.set g ((s.pwm.stip.getD g 0 + 1) % 16))) ∧
    (s.hltOn = true → (∀ raw : BitVec 14, Ends (.conversionDone raw) s (fun t => t.hlt.slot = s.hlt.slot + 1)) ∧
      Ends .roundEnd s (fun t => t.hlt.slot = 0 ∧ t.hlt.roundAt = s.cyc)) ∧
    (s.flag F.HLT_USCTL_BUSY = true → s.hlt.user = [] →
      Ends .userSeqEnd s (fun t => t.flag F.HLT_USCTL_BUSY = false)) ∧
    (∀ us : Nat, 4 ≤ s.pwr.boot → Ends (.zcsEdge true us) s (fun t =>
      t.phy.zcRaw = some (s.cyc - us * 6144 / 100))) ∧
    (s.phy.zcEdge + 60 * s.phy.nc ≤ s.cyc → Ends .zcsTimeout s (fun t => t.flag F.PHY_STAT_ZCV = false)) ∧
    (∀ pre : BitVec 24, s.phyOn = true → s.courseNext ≤ s.cyc →
      Ends (.courseStart pre) s (fun t => t.fld F.MAC_GRID_COURSE = (s.fld F.MAC_GRID_COURSE + 1) % 64)) ∧
    (4 ≤ s.pwr.boot → s.phyOn = true → s.mac.benchDue = true →
      Ends .benchStart s (fun t => t.mac.benchDue = false ∧ (s.rested 0x6B = true → t.pulsed 0x6B = true))) ∧
    (s.macOn = true → s.transmitting = false →
      (∀ (x : BitVec 29) (course : BitVec 6) (posn : BitVec 5) (ago : Nat) (snr : Byte), x.toNat / 2 ^ 27 = 0 →
        s.isHead = false → s.short ≠ 0x3FF → s.parentBeacon 0 (x.toNat / 2 ^ 25 % 4) course.toNat posn.toNat = true →
        s.mac.noticed = false →
        Ends (.beaconReceive x course posn ago snr) s (fun t => t.flag F.MAC_STAT_BVALID = true ∧ t.mac.heard = true)) ∧
      (∀ (robo : Bool) (bytes : List Byte), s.phy.rxHdr.any (hdrAnnounces robo bytes.length) = true →
        crc32 (bytes.take (bytes.length - 4)) ≠ ofBytes (bytes.drop (bytes.length - 4)) →
        Ends (.frameReceive robo bytes) s (fun t => t.reg R.MAC_RXERR = s.reg R.MAC_RXERR + 1))) ∧
    (∀ hdr : BitVec 40, s.phyOn = true → s.transmitting = false → headerCrc hdr.toNat ≠ hdr.toNat % 256 →
      Ends (.headerReceive hdr) s (fun t => t.flag F.PHY_STAT_HDRERR = true)) ∧
    (s.act = 1 → s.mayTx = true → s.inRelaySlot = true → s.lineFree = true → s.pwr.extest = false →
      s.flag F.PWR_STAT_VLDG = true →
      Ends .relayBeaconSend s (fun t => t.phy.txHdr = shortHeader (s.beaconBits 2))) ∧
    (s.macOn = true → s.act = 2 → s.flag F.MAC_STAT_BVALID = true → s.mac.heard = false → s.mac.missed = false →
      s.fld F.MAC_GRID_COURSE = 0 → 12 ≤ s.posn →
      Ends .beaconMiss s (fun t => t.mac.misses = s.mac.misses + 1)) ∧
    (s.flag F.MAC_STAT_BVALID = true → (if s.fld F.MAC_PARENT_PTIER = 0 then 16 else 64) < s.fld F.MAC_BSINCE_N →
      Ends .bvalidTimeout s (fun t => t.flag F.MAC_STAT_BVALID = false)) ∧
    (∀ n, s.mac.listen = some n → s.macOn = true → max 1 (s.fld F.MAC_DEP_LISTEN) < n →
      Ends .headListenEnd s (fun t => t.act = 3)) ∧
    (4 ≤ s.pwr.boot → s.benchTimed = false → Ends .nominalBenchElapsed s (fun t =>
      t.fld F.MAC_BSINCE_N = min (s.fld F.MAC_BSINCE_N + 1) 65535)) ∧
    (∀ st chk at_, s.mac.ackDue = some (st, chk, at_) → at_ ≤ s.posNow →
      Ends .ackSend s (fun t => t.mac.ackDue = none)) ∧
    (∀ w l e, s.mac.waitAck = w :: l → s.macOn = true → w.2.2 ≤ s.posNow → s.queueHead w.1 = some e →
      Ends .ackSpanEnd s (fun t => t.mac.waitAck = l)) ∧
    (s.transmitting = true → Ends .driverCurrentLimit s (fun t => t.flag F.PHY_STAT_ILIM = true)) ∧
    (∀ level : Byte, 2 ≤ s.pwr.boot → s.pwr.rstLow = false →
      Ends (.vldUndervoltage level) s (fun t => t.flag F.PWR_STAT_VLDUV = true)) ∧
    (s.macOn = true → s.fld F.MAC_STAT_JST = 1 → s.flag F.MAC_CTL_JOINEN = true → s.mac.joinWait ≤ s.mac.joinAge →
      Ends .joinRetryDue s (fun t => t.mac.joinWait = min 256 (2 * s.mac.joinWait) ∧ t.mac.joinAge = 0)) ∧
    (∀ n : Fin 4, s.bit (alCtl n) 15 = true → alarmDue s.tim.now (s.tim.alarmAt.getD n 0) (s.tim.alarmMs.getD n 0) = true →
      Ends (.alarmFire n) s (fun t => t.bit R.TIM_EVT n = true)) ∧
    (s.flag F.TIM_FLG_PPSV = true → s.ppsLate = true → Ends .ppsLost s (fun t => t.flag F.TIM_FLG_PPSV = false)) ∧
    (s.fld F.TIM_STAT_STATE = 2 → s.isHead = false → s.fld F.TIM_LIM_HOB ≤ s.tim.noTheta →
      Ends .holdoverEntry s (fun t => t.fld F.TIM_STAT_STATE = 3)) ∧
    (∀ n : Fin 8,
      let c := s.gt n
      (∀ v, c.nTop = some (v, 2) → Ends (.gtValueEffect n) s (fun t => (t.gt n).top = v)) ∧
      (c.run = true → s.gtFrozen n = false → c.reached c.c0 = true →
        Ends (.gtCompareMatch n true false) s (fun t => t.flag (F.GTU_CSTAT_CM0.at n) = true)) ∧
      (c.trig = true → Ends (.gtTrigger n) s (fun t => s.gtSlow n = false → (t.gt n).trig = false)) ∧
      (∀ level : Bool, s.coreOn = true → c.level ≠ level → s.gtAccepts n = true →
        Ends (.gtPinEdge n level) s (fun t => (t.gt n).level = level)) ∧
      (c.k0.isSome = true → c.run = true → c.stop = true → 6 ≤ s.pwr.boot → s.fld F.SYS_MODE_STATE ≠ 2 →
        Ends (.gtCatchUp n) s (fun t => (t.gt n).stop = false ∧ t.flag (F.GTU_CSTAT_CATCH.at n) = true))) ∧
    (s.clk.handover = true → Ends .handoverDone s (fun t => t.flag F.CLK_STAT_ROOTSRC = true)) ∧
    (s.coreOn = true → s.flag F.CLK_STAT_ROOTSRC = true →
      Ends .xoMissingEdge s (fun t => t.flag F.CLK_STAT_XOF = true ∧ t.flag F.CLK_STAT_ROOTSRC = false)) ∧
    (s.clk.ircSettling = true → Ends .ircAccepted s (fun t => t.clk.ircSettling = false)) ∧
    (s.pwr.boot = 3 → Ends .pllLocked s (fun t => t.flag F.CLK_STAT_PLLLK = true)) ∧
    (4 ≤ s.pwr.boot → s.clk.good = true → Ends .pllLockLoss s (fun t => t.flag F.CLK_STAT_PLLF = true)) ∧
    (s.clk.relock = true → Ends .pllRelockTimeout s (fun t => t.flag F.CLK_LAST_FATAL = true)) ∧
    (s.flag F.CLK_STAT_KSRC = false → Ends .kxoFail s (fun t => t.flag F.CLK_STAT_KSRC = true)) ∧
    (∀ strap : Bool,
      (s.pwr.boot = 0 → s.pwr.loss = 0 → Ends (.vauxGood strap) s (fun t => t.pwr.boot = 1)) ∧
      (s.pwr.rstLow = true → Ends (.rstRelease strap) s (fun t => t.pwr.rstLow = false))) ∧
    (s.pwr.boot = 1 → s.pwr.rstLow = false → s.clk.fatalHeld = false →
      Ends .coreResetRelease s (fun t => t.pwr.boot = 2)) ∧
    (s.pwr.boot = 2 → Ends .kaTimeLoad s (fun t => t.pwr.boot = 3)) ∧
    (s.pwr.boot = 4 → s.pwr.loss = 0 → s.pwr.rstLow = false → Ends .vaultRecoveryEnd s (fun t => t.pwr.boot = 5)) ∧
    (s.pwr.boot = 5 → s.pwr.loss = 0 → s.pwr.rstLow = false → Ends .replayEnd s (fun t => t.pwr.boot = 6)) ∧
    (∀ zcs : Bool, s.lossHolds zcs = true → Ends (.mainsLoss zcs) s (fun t => t.pwr.loss = 1)) ∧
    (s.pwr.loss = 1 → Ends .keepTimeLoad s (fun t => t.pwr.loss = 2)) ∧
    (∀ v : Word, (s.pwr.loss = 2 → s.pwr.asked = true → Ends (.reservationAnswer v) s (fun t => t.pwr.loss = 3)) ∧
      (s.burstEnded = true → Ends (.keepEntry v) s (fun t => t.reg R.KEEP_VSTORE = v))) ∧
    (s.pwr.boot ≠ 0 → Ends .coreBrownout s (fun t => t.pwr.boot = 0 ∧ t.pwr.cause = 4)) ∧
    (s.pwr.rstLow = false → Ends .rstAssert s (fun t => t.pwr.rstLow = true)) ∧
    Ends .kaPowerOnReset s (fun t => t.pwr.boot = 0 ∧ t.keep = {}) ∧
    (∀ b : Byte, Ends (.vdrvUndervoltage b) s (fun t => t.flag F.PWR_STAT_VDRVG = false)) ∧
    (s.flag F.PWR_STAT_VDRVG = false → Ends .vdrvGood s (fun t => t.flag F.PWR_STAT_VDRVG = true)) ∧
    (∀ w : Word, Ends (.avddOutOfRange w) s (fun t => t.flag F.PWR_STAT_AVDDG = false) ∧
      (w.toNat < 2300 → ∀ c, Ends (.cellSelect w c) s (fun t => t.flag F.KEEP_STAT_STLOW = true)) ∧
      (2800 < w.toNat → s.keep.cell = true → Ends (.cellRelease w) s (fun t => t.keep.cell = false)) ∧
      (10 * s.fld F.KEEP_VMAX_V ≤ w.toNat → Ends (.storeFull w) s (fun t => t.flag F.KEEP_STAT_FULL = true)) ∧
      (w.toNat + 50 ≤ 10 * s.fld F.KEEP_VMAX_V →
        Ends (.storeChargeResume w) s (fun t => t.flag F.KEEP_STAT_FULL = false))) ∧
    Ends .avddGood s (fun t => t.flag F.PWR_STAT_AVDDG = true) ∧
    Ends .vldGood s (fun t => t.flag F.PWR_STAT_VLDG = true) ∧
    Ends .vhioLoss s (fun t => t.flag F.PWR_STAT_VHIOG = false) ∧
    Ends .vhioGood s (fun t => t.flag F.PWR_STAT_VHIOG = true) ∧
    Ends (.jtagExtest false) s (fun t => t.pwr.extest = false) ∧
    (∀ e : Engine, 4 ≤ s.pwr.boot → s.pwr.rstLow = false → s.bit R.PWR_STALLEN (engineBit e) = true →
      Ends (.engineStall e) s (fun t => t.flag F.SYS_RSTC_STALL = true ∧ t.fld F.SYS_RSTC_STALLPG = enginePage e)) ∧
    (∀ (cls : Fin 16) (uj : Nat), Ends (.gaugeSecond cls uj) s (fun t => t.fld F.KEEP_LOAD_CLASS = cls)) ∧
    (∀ x : Word, s.flag F.KEEP_CTL_HEN = true → s.pwr.boot ≠ 0 → 1024 ≤ 50 * x.toNat → 10 * x.toNat ≤ 4096 →
      Ends (.mppUpdate x) s (fun t => (t.reg R.KEEP_MPP).toNat = (5000 * x.toNat + 512) / 1024)) ∧
    (s.keep.hours < s.keep.elapsed / (3600 * 2 ^ 48) →
      Ends .hourTick s (fun t => t.keep.hours = s.keep.hours + 1)) ∧
    (s.pwr.boot ≠ 0 → 3600 * 32768 ≤ s.keep.litEdges → Ends .litHour s (fun t => t.regs = s.regs ∧
      (s.vlt.hatBad = false → t.hat 2 = (s.hat 2 + 1) % 2 ^ 32))) ∧
    (∀ (p : Path) (v : Word), s.pathUp p = true →
      (s.unlocked p = true →
        Ends (.lmpMapWrite p v) s (fun t => t.lmp.smap = s.lmp.smap.set (s.fld F.LMP_SEL_LAMP) (some v)) ∧
        Ends (.lmpCfgWrite p v) s (fun t => t.lmp.smap = s.lmp.smap.set (s.fld F.LMP_SEL_LAMP) none) ∧
        Ends (.lmpTabOpen p) s (fun t => t.lmp.edit = s.lmp.active) ∧
        Ends (.fdeTabOpen p) s (fun t => t.fde.edit = s.fde.active) ∧
        Ends (.hltTabOpen p) s (fun t => t.hlt.edit = s.hlt.active) ∧
        (s.flag F.LMP_STAT_EDIT = true → s.lmpFail s.lmp.edit = none →
          Ends (.lmpTabClose p) s (fun t => t.flag F.LMP_STAT_TABPEND = true)) ∧
        (s.flag F.FDE_STAT_EDIT = true → fdeFail s.fde.edit = none →
          Ends (.fdeTabClose p) s (fun t => t.flag F.FDE_STAT_TABPEND = true)) ∧
        (s.flag F.HLT_STAT_EDIT = true → (∀ a, a < 32 → hltWordFail s.hlt.edit a = none) →
          Ends (.hltTabClose p) s (fun t => t.flag F.HLT_STAT_TABPEND = true)) ∧
        (s.vRoom 2 = true → Ends (.lmpTabSave p) s (fun t => t.flag F.LMP_STAT_SAVEPEND = true) ∧
          Ends (.fdeTabSave p) s (fun t => t.flag F.FDE_STAT_SAVEPEND = true) ∧
          Ends (.hltTabSave p) s (fun t => t.flag F.HLT_STAT_SAVEPEND = true))) ∧
      Ends (.pwmEnaWrite p v) s (fun t => t.reg R.PWM_ENA = v) ∧
      (∀ r : ShadowReg, Ends (.pwmShadowWrite p r v) s (fun t => ∀ n, n < 16 → n ∈ s.pwmSel →
        t.reg (shadowKey r + n) = if r = .fine then v &&& 0xF else v)) ∧
      Ends (.ledrst p) s (fun t => ∀ n, n < 16 → n ∈ s.hltSel → t.fld (F.HLT_LEDCNT_N.at n) = 0) ∧
      Ends (.mclr p) s (fun t => ∀ n, n < 16 → n ∈ s.hltSel → t.flag (F.HLT_MDL_VALID.at n) = false) ∧
      Ends (.dtrefRelearn p) s (fun t => ∀ n, n < 16 → n ∈ s.hltSel → (t.hchan n).learn = some (0, 0, 0)) ∧
      Ends (.vltLock p) s (fun t => (t.path p).regOpen = (s.path p).regOpen.filter (· != s.rsel)) ∧
      (s.keep.pwLock = false → (s.path p).pwWords.length < 3 →
        Ends (.passwordWord p v) s (fun t => (t.path p).pwWords = (s.path p).pwWords ++ [v])) ∧
      Ends (.rawRegionSelect p v) s (fun t => (t.path p).pwWords = [] ∧
        t.fld F.VLT_RSEL_REG = if v.toNat % 4 = 3 then 0 else v.toNat % 4) ∧
      (s.rsel = 0 → s.rawOpen p 0 = true → s.vlt.usrBuf ≠ [] → s.vRoom 128 = true →
        Ends (.pgwr p) s (fun t => t.vlt.usrBuf = [])) ∧
      (s.unlocked p = true → s.rsel = 0 → s.rawOpen p 0 = true → (s.reg R.VLT_RADDR).toNat < 0x8000 →
        s.vRoom 2 = true → s.vaultFree = false →
        Ends (.vltErase p) s (fun t => t.vlt.buf = s.vlt.buf ++ [.usrErase ((s.reg R.VLT_RADDR).toNat / 2048)])) ∧
      (s.rsel = 1 → s.rawOpen p 1 = true →
        (legBusy s.vlt.buf = false → s.vRoom 1020 = true → s.vaultFree = false → Ends (.legwr p) s (fun t =>
          t.vlt.buf = s.vlt.buf ++ [.legWrite (spRead blankWord s.vlt.legBuf 0 510)])) ∧
        Ends (.legload p) s (fun t => ∀ i, i < 512 → spGet blankWord t.vlt.legBuf i =
          (match s.vlt.legWinner.1 with
            | some c => s.vlt.word (legBase c + 2 * i)
            | none => 0xFFFF))) ∧
      (s.unlocked p = true → s.rawOpen p s.rsel = true → 4 ≤ (s.path p).pwWords.length → s.vRoom 19 = true →
        Ends (.setpwd p) s (fun t => t.vlt.pw = s.vlt.pw.set s.rsel
          (pwOf ((s.path p).pwWords.drop ((s.path p).pwWords.length - 4))))) ∧
      (42 ≤ s.fld F.HAT_SEL_HC → s.vlt.hatBad = false → Ends (.hatInc p) s (fun t =>
        t.hat (s.fld F.HAT_SEL_HC) = (s.hat (s.fld F.HAT_SEL_HC) + 1) % 2 ^ 32)) ∧
      (s.vaultFree = true → s.vlt.commit = none → bufRecords s.vlt.buf ≠ [] →
        Ends (.vltCommit p) s (fun t => t.vlt.commit = some (bufRecords s.vlt.buf).length)) ∧
      Ends (.secKdataWrite p v) s (fun t => t.sec.kdata =
        if s.sec.kdata.length < 33 then s.sec.kdata ++ [v] else s.sec.kdata) ∧
      Ends (.secSlotSelect p v) s (fun t => t.fld F.SEC_SLOT_SEL_SLOT = v.toNat % 8) ∧
      (s.unlocked p = true → s.secBusy = false →
        (s.vRoom 10 = true → Ends (.erasekey p) s (fun t => t.sec.cmdRun = true)) ∧
        (s.sec.life ≠ 0 → s.sec.failed = false → Ends (.secProof p) s (fun t => t.sec.proof.isSome = true)) ∧
        (s.sec.tests = 0 → Ends (.selftest p) s (fun t => t.sec.tests = 2)) ∧
        (s.vRoom 2 = true → Ends (.savedir p) s (fun t => t.reg R.SEC_RESULT = BitVec.ofNat 16 (32768 + cOk))) ∧
        (p = .host → s.sec.life = 1 → keyFits (kidClass (s.fld F.SEC_KID_KID)) s.sec.kdata = true →
          (s.slotOf (s.fld F.SEC_KID_KID)).any (· != s.fld F.SEC_SLOT_SEL_SLOT) = false →
          s.vRoom (10 + (blobPayload (s.fld F.SEC_KID_KID) (wordsBytes s.sec.kdata)).length) = true →
          Ends (.loadkey p) s (fun t => t.sec.cmdRun = true ∧ t.sec.kdata = [])) ∧
        (p = .host → getBits v 15 8 = 0xA7 → s.sec.life = 1 →
          (s.holdsClass clsAdmin = true → s.holdsClass clsVerify = true → s.holdsClass clsBundle = true →
            Ends (.commission p v) s (fun t => t.sec.burn = some 2)) ∧
          Ends (.retire p v) s (fun t => t.sec.burn = some 3))) ∧
      (s.unlocked p = true → v = 0x5EA1 → s.vlt.sealing = false →
        Ends (.sealReset p v) s (fun t => t.vlt.sealing = true)) ∧
      (s.q6.length < 64 → Ends (.hostEventPost p v) s (fun t => ∃ r ∈ t.q6, r.cls = 0xA ∧ r.ev = v.toNat % 4096)) ∧
      (s.clk.good = true → s.flag F.CLK_STAT_XOQ = true → s.flag F.CLK_STAT_ROOTSRC = false →
        s.clk.handover = false → s.clk.fellBack = true → Ends (.retxo p) s (fun t => t.clk.handover = true))) ∧
    (∀ n : Fin 16,
      let c := s.chan n
      (s.ticking n = true → c.pHit = true → s.stops n = [] → s.midWaits n = false →
        ∀ b, Ends (.pwmZero n b) s (fun t => (t.chan n).cnt = 0 ∧ (t.chan n).pHit = false)) ∧
      (s.midMay n = true → Ends (.pwmMidLoad n) s (fun t => t.flag (F.PWM_STAT_PEND.at n) = false)) ∧
      (s.ticking n = true →
        (c.pHit = false → s.reach n c.per = true → Ends (.pwmPeriod n) s (fun t => (t.chan n).pHit = true)) ∧
        (c.aHit = false → s.reach n c.cmpa = true → Ends (.pwmCmpa n) s (fun t => (t.chan n).aHit = true)) ∧
        (c.bHit = false → s.reach n c.cmpb = true → Ends (.pwmCmpb n) s (fun t => (t.chan n).bHit = true))) ∧
      (3600000 ≤ (s.hchan n).onMs → Ends (.channelOnHour n) s (fun t =>
        (t.hchan n).onMs = (s.hchan n).onMs - 3600000))) ∧
    (∀ p : Path, ∀ r : Fin 3, Ends (.regionTimeout p r) s (fun t =>
      (t.path p).regOpen = (s.path p).regOpen.filter (· != r.val))) ∧
    Ends .passwordLockoutEnd s (fun t => t.keep.pwLock = false) ∧
    (s.vRoom (10 + s.stressBytes.length) = true → s.vlt.wait = [] →
      Ends .stressRecordDue s (fun t => t.vlt.clean = false)) ∧
    (∀ c, s.sec.burn = some c → Ends .fuseBurnDone s (fun t => t.sec.life = c ∧ t.sec.burn = none)) ∧
    (s.sec.tests ≠ 0 → Ends (.selftestEnd none) s (fun t => t.flag F.SEC_STAT_STOK = true)) ∧
    (s.coreOn = true → Ends .healthTestFail s (fun t => t.flag F.SEC_STAT_STFAIL = true)) ∧
    (s.q6 ≠ [] → s.recRuns = true → s.vlt.blank (slotAddr (s.fld F.LOG_HEAD_SLOT)) 16 = true →
      Ends .recorderTake s (fun t => t.fld F.LOG_HEAD_SLOT =
        if 8191 ≤ s.fld F.LOG_HEAD_SLOT then 64 else s.fld F.LOG_HEAD_SLOT + 1)) ∧
    (s.vaultFree = true →
      (s.vlt.commit = none → bufRecords s.vlt.buf ≠ [] →
        Ends .commitDelayExpiry s (fun t => t.vlt.commit = some (bufRecords s.vlt.buf).length)) ∧
      (s.vlt.commit.isSome = true → Ends .commitDone s (fun t => t.vlt.commit = none ∧ s.vlt.vnum < t.vlt.cnum)) ∧
      (s.vlt.fold.isSome = true → Ends .foldDone s (fun t => t.vlt.epoch = s.vlt.epoch + 1)) ∧
      (s.vlt.wait = [] → (∀ e ∈ dropFirstOp s.vlt.buf, e.isOp = false) → ∀ e, s.vlt.op = some e →
        (e.isRewrite = true → Ends .sectorRewriteDone s (fun t => t.vlt.op = none ∧ t.vlt.scr = none)) ∧
        (∀ c o b, e = .bank c o b → Ends .bankBuildDone s (fun t => t.vlt.op = none)) ∧
        (∀ ws, e = .legWrite ws → Ends .legWriteDone s (fun t => t.vlt.op = none)) ∧
        (∀ k, e = .usrErase k → Ends .sectorEraseDone s (fun t => t.vlt.op = none)))) ∧
    (4 ≤ s.pwr.boot → Ends .flashVerifyFail s (fun t => t.flag F.VLT_STAT_INTEG = true)) ∧
    (∀ cnt : Word, s.coreOn = true → s.flag F.CLK_STAT_IRCON = true → s.clk.ircSettling = false →
      Ends (.xoWindow cnt) s (fun t => t.reg R.CLK_XOCNT = cnt) ∧
      (s.flag F.CLK_STAT_KSRC = false → s.clk.firstCheck = false →
        Ends (.ircCheck cnt) s (fun t => t.reg R.CLK_IRCCNT = cnt))) ∧
    (s.coreOn = true → s.flag F.CLK_STAT_XOQ = false → s.flag F.CLK_STAT_ROOTSRC = false → s.clk.fellBack = false →
      Ends .xoTimeout s (fun t => t.flag F.CLK_STAT_XOTO = true)) ∧
    (4 ≤ s.pwr.boot → s.clk.good = false → s.clk.ircSettling = false →
      Ends .clockGood s (fun t => t.clk.good = true)) ∧
    (s.clk.fatalHeld = true → s.pwr.boot = 1 → s.pwr.rstLow = false → s.pwr.loss = 0 →
      Ends .fatalRetry s (fun t => t.clk.fatalHeld = false)) ∧
    (4 ≤ s.pwr.boot → Ends .spreadApply s (fun t => t.clk.spread = s.reg R.CLK_SPREAD) ∧
      ∀ cnt : Nat, s.flag F.CLK_STAT_ROOTSRC = true → s.flag F.CLK_STAT_KSRC = true → s.clk.kxoRun = 3 →
        61433856 ≤ cnt → cnt ≤ 61446144 → Ends (.kxoWindow cnt) s (fun t => t.flag F.CLK_STAT_KSRC = false)) ∧
    (4 ≤ s.pwr.boot → s.flag F.CLK_STAT_ROOTSRC = true → s.clk.handover = false → s.flag F.TIM_FLG_IRCF = true →
      Ends .timeCountResume s (fun t => t.flag F.TIM_FLG_IRCF = false)) ∧
    (∀ temp vstore : Word, s.pwr.boot = 0 → s.keep.deep.getLsbD 2 = true →
      Ends (.keepSense temp vstore) s (fun t => t.keep.temp = temp.toInt ∧ t.reg R.KEEP_VSTORE = vstore)) ∧
    (∀ e : Fin 32, s.fld F.PHY_TMCFG_LIFE ≠ 0 →
      spGet zeroNat s.phy.txAt e + s.fld F.PHY_TMCFG_LIFE * 60 * 61440000 ≤ s.cyc →
      Ends (.toneMapExpiry e) s (fun t => mapValid (txMapOf t.phy e) = false)) ∧
    (∀ f : LineFrame,
      let a := f.args.drop 1
      let x := numAt a 0 1
      let n := numAt a 0 2
      let u (opc : Nat) : State := s.took opc f
      let admin (opc len : Nat) : Prop := s.passes opc [clsAdmin] true f = true ∧ a.length = len
      let net (opc len : Nat) : Prop := s.passes opc [clsNet] true f = true ∧ a.length = len
      let tab := x = 6 ∨ x = 7 ∨ x = 8
      (admin 0x20 8 → Ends (.grpSet f) s (fun t => t.reg R.MAC_GRP0 = BitVec.ofNat 16 (numAt a 6 2))) ∧
      (admin 0x23 2 → Ends (.posSet f) s (fun t => t.reg R.MAC_POS = BitVec.ofNat 16 n)) ∧
      (admin 0x28 1 → tab → Ends (.tabOpen f) s (fun t => t.editOpen x = true)) ∧
      (admin 0x2A 1 → tab → (u 0x2A).editOpen x = true → (u 0x2A).editPasses x = true →
        Ends (.tabClose f) s (fun t => t.reg R.CMD_LAST = 0x2A00)) ∧
      (admin 0x2B 1 → tab → (u 0x2B).vRoom 2 = true → Ends (.tabSave f) s (fun t => t.reg R.CMD_LAST = 0x2B00)) ∧
      (admin 0x2C 65 → (u 0x2C).vRoom 64 = true → (plateFail (bytesWords (a.drop 1))).isNone = true →
        Ends (.plateWr f) s (fun t => t.plateWords x = bytesWords (a.drop 1))) ∧
      (admin 0x2D 0 → (u 0x2D).vRoom 2 = true → Ends (.cfgSave f) s (fun t => t.reg R.CMD_LAST = 0x2D00)) ∧
      (s.passes 0x60 [clsAdmin] true f = true → a.length = 4 → blockOk a = true → numAt a 2 1 = 1 →
        Ends (.rd f) s (fun t => t.reg R.CMD_LAST = 0x6000)) ∧
      (net 0x72 2 → 1 ≤ n → n ≤ 1022 → toOne f = false → Ends (.addrSet f) s (fun t => t.short = n)) ∧
      (net 0x73 1 → x ≤ 3 → Ends (.roleSet f) s (fun t => t.fld F.MAC_ROLE_ROLE = x)) ∧
      (net 0x75 3 → x ≤ 3 → numAt a 2 1 = 0 → Ends (.rsvSet f) s (fun t => t.flag (F.MAC_RSV_VALID.at x) = false)) ∧
      (net 0x78 2 → Ends (.offsetSet f) s (fun t => t.reg R.CMD_LAST = 0x7800)) ∧
      (net 0x79 0 → toOne f = false → Ends (.leave f) s (fun t => t.short = 0x3FF)) ∧
      (net 0x80 5 → 1 ≤ numAt a 1 4 → numAt a 1 4 ≤ 65536 → (u 0x80).fld F.CMD_STAT_BST = 0 → (u 0x80).vRoom 58 = true →
        Ends (.bBegin f) s (fun t => t.fld F.CMD_STAT_BST = 1 ∧ t.fld F.CMD_BHDL_HDL = x)) ∧
      (net 0x84 1 → (u 0x84).bxferIs x = true → Ends (.bAbort f) s (fun t => t.fld F.CMD_STAT_BST = 0)) ∧
      (net 0x90 16 → (u 0x90).signBusy = false → (u 0x90).sec.life ≠ 0 → (u 0x90).testsFailed = false →
        Ends (.proof f) s (fun t => t.sec.proof.isSome = true)) ∧
      (net 0x91 3 → numAt a 2 1 ≠ 0 → numAt a 2 1 ≤ 192 → n + numAt a 2 1 ≤ min Config.certLen 768 →
        Ends (.cert f) s (fun t => t.reg R.CMD_LAST = 0x9100))) ∧
    (∀ j, s.sec.proof = some j → Ends .proofSignDone s (fun t => t.sec.proof = none)) ∧
    (s.cmd.apply = true → Ends .bundleApplyReset s (fun t => t.pwr.softRst = true ∧ t.fld F.PWR_LRST_CAUSE = 5)) ∧
    (∀ b : Fin 13, s.cmd.alarms.length = 13 → (nthOf s.cmd.alarms b).gap = true → (nthOf s.cmd.alarms b).n = 0 →
      Ends (.alarmGapEnd b) s (fun t => (nthOf t.cmd.alarms b).gap = false)) ∧
    (s.reports = true → s.timeValid = true → s.cmd.minute ≠ some (secOf s.tim.now / 60) →
      Ends .periodicReportMinute s (fun t => t.cmd.minute = some (secOf s.tim.now / 60)))

/-- For each command named and every state from which it ends in a next state, every register but those listed beside
it and every part of the state but those listed, among them every byte of the flash where the flash is not listed,
holds what it held. A register listed may change at any index. (R25, R32, R38, R39, R42) -/
def Obligations.FrameOfPorts : Prop :=
  ∀ (c : Instr) (s t : State), exec c s = .next t →
    match c with
    | .pairLoRead _ _ | .pairHiRead _ _ | .tableDataRead _ _ =>
        OnlyTouches (recordRegs ++ [R.LMP_TADDR, R.FDE_TADDR, R.HLT_TADDR, R.PHY_TADDR, R.VLT_ERR,
          R.VLT_RADDR, R.SEC_TADDR]) (recordParts ++ [.host, .mac, .remote, .vlt]) s t
    | .unlockWrite _ _ | .unlockTimeout _ =>
        OnlyTouches (recordRegs) (recordParts ++ [.host, .remote]) s t
    | .eventFabricPulse _ =>
        OnlyTouches (recordRegs ++ [R.HLT_STAT, R.HLT_USCTL]) (recordParts ++ [.acted, .actedAt, .fabric,
          .fde, .gtu, .hlt, .pulses, .pwm, .q7]) s t
    | .gtPinPulseEnd _ =>
        OnlyTouches (recordRegs) (recordParts ++ [.gtu]) s t
    | .syncoPulseEnd =>
        OnlyTouches (recordRegs) (recordParts ++ [.pwm]) s t
    | .holdBegin _ | .holdEnd _ =>
        OnlyTouches (recordRegs ++ [R.SYS_CTL, R.PWM_STAT]) (recordParts ++ [.pwm, .pwr]) s t
    | .hwdKick _ _ =>
        OnlyTouches (recordRegs ++ [R.HWD_CTL]) (recordParts ++ [.host, .pwr, .remote]) s t
    | .hwdExpiry =>
        OnlyTouches (recordRegs ++ [R.SYS_MODE, R.SYS_RSTC, R.HWD_CTL]) (recordParts ++ [.fde]) s t
    | .hwdBootTimeout =>
        OnlyTouches (recordRegs ++ [R.SYS_MODE, R.SYS_RSTC, R.SYS_BOOT, R.HWD_CTL]) (recordParts ++ [.fde,
          .pwr]) s t
    | _ => True

/-- For each command named and every state from which it ends in a next state, every register but those listed beside
it and every part of the state but those listed, among them every byte of the flash where the flash is not listed,
holds what it held. A register listed may change at any index. (R48, R81, R95, R107) -/
def Obligations.FrameOfLighting : Prop :=
  ∀ (c : Instr) (s t : State), exec c s = .next t →
    match c with
    | .lmpMapWrite _ _ | .lmpCfgWrite _ _ =>
        OnlyTouches (recordRegs) (recordParts ++ [.host, .lmp, .remote]) s t
    | .lmpTabOpen _ =>
        OnlyTouches (recordRegs ++ [R.LMP_STAT]) (recordParts ++ [.host, .lmp, .remote]) s t
    | .lmpTabClose _ =>
        OnlyTouches (recordRegs ++ [R.LMP_STAT, R.LMP_TERR]) (recordParts ++ [.host, .remote]) s t
    | .lmpTabSave _ | .fdeTabSave _ =>
        OnlyTouches (recordRegs ++ [R.LMP_STAT, R.FDE_STAT, R.HLT_STAT, R.VLT_STAT, R.VLT_ERR]) (recordParts
          ++ [.flash, .host, .last, .remote, .vlt]) s t
    | .fadeTick =>
        OnlyTouches (recordRegs ++ [R.SYS_MODE, R.PWM_STAT, R.CUR_TRIMV, R.CUR_CSTAT, R.LMP_STAT, R.LMP_CFG,
          R.LMP_MAP, R.LMP_FREFA, R.LMP_BOUT, R.LMP_UOUT, R.LMP_VOUT, R.LMP_TEMP, R.LMP_RATIO, R.LMP_LSTAT,
          R.FDE_STAT, R.FDE_LSTAT, R.FDE_PROG, R.FDE_TGTB, R.HLT_PRFACT, R.HLT_PRFDEF, R.MAC_STAT, R.MAC_ROLE,
          R.MAC_SHORT, R.MAC_ACKFCNT, R.CMD_STAT, R.CMD_LAST, R.CMD_REFCNT]) (recordParts ++ [.cmd, .fabric,
          .fde, .free, .gtu, .hlt, .host, .keep, .lmp, .mac, .phy, .pulses, .pwm, .pwr, .remote, .sec, .tim,
          .vlt]) s t
    | .scheduleMinute | .timedStartDue _ | .slotHoldExpiry _ _ | .ruleHoldEnd _ | .gestureHoldExpiry _ =>
        OnlyTouches (recordRegs) (recordParts ++ [.fde]) s t
    | .gestureComplete =>
        OnlyTouches (recordRegs) (recordParts ++ [.fde, .keep, .last, .vlt]) s t
    | .lossEntry =>
        OnlyTouches (recordRegs ++ [R.FDE_STAT, R.FDE_IRQEN]) (recordParts ++ [.fde]) s t
    | .fdeRcmdApply _ | .fdeRcmdApplyAt _ | .fdeRcmdApplyEvr _ | .fdeRcmdPlate _ _ | .fdeRcmdPlateAt _ _ |
      .fdeRcmdPlateEvr _ _ | .fdeRcmdRelease _ =>
        OnlyTouches (recordRegs) (recordParts ++ [.fde, .host, .remote]) s t
    | .fdeTabOpen _ =>
        OnlyTouches (recordRegs ++ [R.FDE_STAT]) (recordParts ++ [.fde, .host, .remote]) s t
    | .fdeTabClose _ =>
        OnlyTouches (recordRegs ++ [R.FDE_STAT, R.FDE_IRQEN, R.FDE_TERR, R.FDE_TERRA]) (recordParts ++ [.host,
          .remote]) s t
    | _ => True

/-- For each command named and every state from which it ends in a next state, every register but those listed beside
it and every part of the state but those listed, among them every byte of the flash where the flash is not listed,
holds what it held. A register listed may change at any index. (R112, R123, R125, R129, R142) -/
def Obligations.FrameOfSwitching : Prop :=
  ∀ (c : Instr) (s t : State), exec c s = .next t →
    match c with
    | .pwmEnaWrite _ _ =>
        OnlyTouches (recordRegs ++ [R.PWM_ENA, R.PWM_STAT, R.CUR_TRIMV, R.CUR_CSTAT]) (recordParts ++
          [.fabric, .hlt, .host, .pulses, .pwm, .remote]) s t
    | .pwmShadowWrite _ _ _ =>
        OnlyTouches (recordRegs ++ [R.PWM_PER, R.PWM_CMPA, R.PWM_CMPB, R.PWM_FINE, R.PWM_STAT]) (recordParts
          ++ [.host, .pwm, .remote]) s t
    | .pwmZero _ _ | .pwmMidLoad _ =>
        OnlyTouches (recordRegs ++ [R.PWM_STAT, R.CUR_TRIMV, R.CUR_CSTAT]) (recordParts ++ [.fabric, .hlt,
          .pulses, .pwm]) s t
    | .pwmPeriod _ =>
        OnlyTouches (recordRegs) (recordParts ++ [.fabric, .hlt, .pulses, .pwm]) s t
    | .pwmCmpa _ | .pwmCmpb _ =>
        OnlyTouches (recordRegs) (recordParts ++ [.fabric, .pulses, .pwm]) s t
    | .peakComparatorEnd _ _ | .lgSensedLow _ _ | .zeroCurrentDetect _ _ | .burnishEnd _ _ | .forceEffect _ =>
        OnlyTouches (recordRegs) (recordParts ++ [.pwm]) s t
    | .swSensedLow _ _ | .hgTurnOn _ _ =>
        OnlyTouches (recordRegs ++ [R.PWM_DTMEAS]) (recordParts ++ [.pwm]) s t
    | .dtmaxExpiry _ _ =>
        OnlyTouches (recordRegs ++ [R.PWM_STAT, R.PWM_DTMEAS]) (recordParts ++ [.pwm]) s t
    | .bootstrapUvlo _ =>
        OnlyTouches (recordRegs ++ [R.PWM_STAT]) (recordParts ++ [.hlt, .pwm]) s t
    | .pwmForceWrite _ _ =>
        OnlyTouches (recordRegs ++ [R.PWM_FORCE, R.PWM_STAT]) (recordParts ++ [.host, .pwm, .remote]) s t
    | .pwmHoldTimeout _ =>
        OnlyTouches (recordRegs ++ [R.PWM_STAT]) (recordParts ++ [.pwm]) s t
    | .synciEdge =>
        OnlyTouches (recordRegs ++ [R.PWM_STAT, R.CUR_STAT, R.CUR_TRIMV, R.CUR_CSTAT]) (recordParts ++
          [.fabric, .hlt, .pulses, .pwm]) s t
    | .phrefPulse =>
        OnlyTouches (recordRegs ++ [R.CUR_STAT]) (recordParts ++ [.fabric, .pulses, .pwm, .tim]) s t
    | .globalTripSourceInactive _ =>
        OnlyTouches (recordRegs ++ [R.PWR_STAT]) (recordParts ++ [.pwm]) s t
    | .dimmingPeriodStart _ =>
        OnlyTouches (recordRegs ++ [R.PWR_TFL, R.CUR_STAT, R.CUR_DRIVE_LO, R.CUR_DRIVE_HI, R.CUR_AMP,
          R.CUR_BURST, R.CUR_FINAL, R.CUR_KP, R.CUR_CSTAT, R.HLT_PRFACT, R.HLT_PRFDEF]) (recordParts ++ [.clk,
          .hlt, .pwm, .pwr]) s t
    | _ => True

/-- For each command named and every state from which it ends in a next state, every register but those listed beside
it and every part of the state but those listed, among them every byte of the flash where the flash is not listed,
holds what it held. A register listed may change at any index. (R135, R138, R140, R141) -/
def Obligations.FrameOfTrips : Prop :=
  ∀ (c : Instr) (s t : State), exec c s = .next t →
    match c with
    | .overcurrentTrip _ | .stringOvervoltageTrip _ | .tripPinActive _ =>
        OnlyTouches (recordRegs ++ [R.NMI_STAT, R.PWM_TRIPSUM, R.PWM_STORM, R.PWM_STAT, R.PWM_TRIPLAT,
          R.CUR_CSTAT, R.HLT_PRFACT]) (recordParts ++ [.fabric, .hlt, .last, .pulses, .pwm, .vlt]) s t
    | .linkUndervoltage _ | .linkOvervoltage _ =>
        OnlyTouches (recordRegs ++ [R.NMI_STAT, R.PWR_STAT, R.PWM_TRIPSUM, R.PWM_STORM, R.PWM_STAT,
          R.PWM_TRIPLAT, R.HLT_PRFACT]) (recordParts ++ [.fabric, .hlt, .last, .pulses, .pwm, .vlt]) s t
    | .overtemperature =>
        OnlyTouches (recordRegs ++ [R.NMI_STAT, R.PWM_TRIPSUM, R.PWM_STORM, R.PWM_STAT, R.PWM_TRIPLAT,
          R.HLT_PRFACT]) (recordParts ++ [.fabric, .hlt, .last, .pulses, .pwm, .vlt]) s t
    | .tripClear _ _ _ _ =>
        OnlyTouches (recordRegs ++ [R.PWM_TRIPSUM, R.PWM_STAT, R.PWM_TRIPLAT, R.CUR_CSTAT]) (recordParts ++
          [.fabric, .hlt, .host, .pulses, .pwm, .remote]) s t
    | .globalTripAutoClear | .retryDue _ _ _ _ =>
        OnlyTouches (recordRegs ++ [R.PWM_TRIPSUM, R.PWM_STAT, R.PWM_TRIPLAT, R.CUR_CSTAT]) (recordParts ++
          [.fabric, .hlt, .pulses, .pwm]) s t
    | .stormWindowRestart =>
        OnlyTouches (recordRegs ++ [R.PWM_STORM]) (recordParts ++ [.pwm]) s t
    | .retryCountReset _ =>
        OnlyTouches (recordRegs ++ [R.CUR_CSTAT]) (recordParts) s t
    | .lockClear _ _ _ _ =>
        OnlyTouches (recordRegs ++ [R.PWM_TRIPSUM, R.PWM_STAT, R.PWM_TRIPLAT, R.CUR_TRIMV, R.CUR_CSTAT])
          (recordParts ++ [.fabric, .hlt, .host, .pulses, .pwm, .remote]) s t
    | _ => True

/-- For each command named and every state from which it ends in a next state, every register but those listed beside
it and every part of the state but those listed, among them every byte of the flash where the flash is not listed,
holds what it held. A register listed may change at any index. (R180, R187, R192, R200) -/
def Obligations.FrameOfHealth : Prop :=
  ∀ (c : Instr) (s t : State), exec c s = .next t →
    match c with
    | .currentHoldCapture _ =>
        OnlyTouches (recordRegs) (recordParts ++ [.hlt, .pwm]) s t
    | .holdCaptureTimeout _ _ =>
        OnlyTouches (recordRegs ++ [R.HLT_STAT]) (recordParts ++ [.flash, .hlt, .vlt]) s t
    | .conversionDone _ =>
        OnlyTouches (recordRegs ++ [R.KEEP_STAT, R.KEEP_VSTORE, R.KEEP_VCELL, R.CUR_TRIMV, R.CUR_CSTAT,
          R.HLT_STAT]) (recordParts ++ [.hlt, .q7]) s t
    | .userSeqEnd =>
        OnlyTouches (recordRegs ++ [R.HLT_USCTL]) (recordParts ++ [.fabric, .pulses]) s t
    | .roundEnd =>
        OnlyTouches (recordRegs ++ [R.PWR_STAT, R.CUR_CSTAT, R.HLT_STAT, R.HLT_PRFACT, R.HLT_NTC0, R.HLT_NTC1,
          R.HLT_NTC2, R.HLT_NTC3, R.HLT_TDIE, R.HLT_PLINK_LO, R.HLT_PLINK_HI, R.HLT_ELINKR, R.HLT_V0,
          R.HLT_ION, R.HLT_VS, R.HLT_RESID, R.HLT_CRES, R.HLT_CCLS, R.HLT_LEDCNT, R.HLT_MFR, R.HLT_STRS_LO,
          R.HLT_STRS_HI, R.HLT_POUT_LO, R.HLT_POUT_HI, R.HLT_EOUTR, R.HLT_DTREF]) (recordParts ++ [.free,
          .hlt, .keep, .last, .pwm, .pwr, .vlt]) s t
    | .proofRunRequest _ _ =>
        OnlyTouches (recordRegs ++ [R.HLT_PRFACT, R.HLT_PRFDEF]) (recordParts ++ [.hlt, .host, .remote]) s t
    | .proofAutoDue _ =>
        OnlyTouches (recordRegs ++ [R.HLT_PRFACT, R.HLT_PRFDEF]) (recordParts ++ [.hlt]) s t
    | .proofSlotStart _ =>
        OnlyTouches (recordRegs) (recordParts ++ [.hlt]) s t
    | .proofRunEnd _ =>
        OnlyTouches (recordRegs ++ [R.HLT_PRFACT, R.HLT_V0, R.HLT_R, R.HLT_KT, R.HLT_MDL, R.HLT_LEDCNT])
          (recordParts ++ [.hlt, .pwm, .vlt]) s t
    | .proofRunTimeout _ =>
        OnlyTouches (recordRegs ++ [R.HLT_PRFACT]) (recordParts ++ [.hlt, .pwm]) s t
    | .ledrst _ =>
        OnlyTouches (recordRegs ++ [R.HLT_CCLS, R.HLT_LEDCNT]) (recordParts ++ [.host, .remote]) s t
    | .mclr _ =>
        OnlyTouches (recordRegs ++ [R.HLT_MDL]) (recordParts ++ [.host, .remote]) s t
    | .dtrefRelearn _ =>
        OnlyTouches (recordRegs) (recordParts ++ [.hlt, .host, .remote]) s t
    | .hltTabOpen _ =>
        OnlyTouches (recordRegs ++ [R.HLT_STAT]) (recordParts ++ [.hlt, .host, .remote]) s t
    | .hltTabClose _ =>
        OnlyTouches (recordRegs ++ [R.HLT_STAT, R.HLT_TERR]) (recordParts ++ [.host, .remote]) s t
    | .hltTabSave _ =>
        OnlyTouches (recordRegs ++ [R.LMP_STAT, R.FDE_STAT, R.HLT_STAT, R.VLT_STAT, R.VLT_ERR]) (recordParts
          ++ [.flash, .host, .last, .remote, .vlt]) s t
    | .stressRecordDue =>
        OnlyTouches (recordRegs) (recordParts ++ [.vlt]) s t
    | .channelOnHour _ =>
        OnlyTouches (recordRegs) (recordParts ++ [.hlt, .last, .vlt]) s t
    | _ => True

/-- For each command named and every state from which it ends in a next state, every register but those listed beside
it and every part of the state but those listed, among them every byte of the flash where the flash is not listed,
holds what it held. A register listed may change at any index. (R214, R228, R248, R270) -/
def Obligations.FrameOfLine : Prop :=
  ∀ (c : Instr) (s t : State), exec c s = .next t →
    match c with
    | .zcsEdge _ _ | .zcsTimeout =>
        OnlyTouches (recordRegs ++ [R.PHY_STAT, R.PHY_MPER]) (recordParts ++ [.phy]) s t
    | .courseStart _ =>
        OnlyTouches (recordRegs ++ [R.NMI_STAT, R.PHY_STAT, R.PHY_AGC, R.PHY_CP, R.MAC_STAT, R.MAC_SHORT,
          R.MAC_GRID, R.MAC_TXCNT, R.MAC_ACKFCNT, R.SEC_STAT]) (recordParts ++ [.cmd, .fabric, .free, .last,
          .mac, .phy, .pulses, .sec, .vlt]) s t
    | .benchStart =>
        OnlyTouches (recordRegs ++ [R.PWM_STORM, R.FDE_STAT, R.FDE_IRQEN, R.PHY_STAT, R.PHY_NMASK_LO,
          R.PHY_NMASK_HI, R.MAC_STAT, R.MAC_ROLE, R.MAC_BENCH_LO, R.MAC_BENCH_HI, R.MAC_DEPA, R.MAC_BSINCE,
          R.MAC_RMAP0, R.MAC_RMAP1, R.MAC_RMAP2, R.MAC_RMAP3, R.CMD_STAT, R.CMD_RSEQ, R.TIM_STAT, R.TIM_EVT,
          R.TIM_OFFSET, R.TIM_THETA, R.TIM_FREQ_LO, R.TIM_FREQ_HI]) (recordParts ++ [.fabric, .fde, .keep,
          .mac, .phy, .pulses, .pwm, .sec, .tim]) s t
    | .relayBeaconSend | .driverCurrentLimit =>
        OnlyTouches (recordRegs ++ [R.PHY_STAT]) (recordParts ++ [.phy]) s t
    | .headerReceive _ =>
        OnlyTouches (recordRegs ++ [R.PHY_STAT, R.PHY_AGC]) (recordParts ++ [.free, .phy]) s t
    | .frameReceive _ _ =>
        OnlyTouches (recordRegs ++ [R.NMI_STAT, R.PHY_STAT, R.MAC_STAT, R.MAC_ROLE, R.MAC_PARENT, R.MAC_HEAD,
          R.MAC_RXCNT, R.MAC_DROPCNT, R.MAC_RXERR, R.CMD_STAT, R.CMD_REFCNT, R.CMD_RSEQ, R.TIM_STAT,
          R.TIM_EVT, R.TIM_THETA, R.TIM_FREQ_LO, R.TIM_FREQ_HI, R.SEC_STAT, R.SEC_DROPKEY, R.SEC_DROPSRC,
          R.SEC_DROPRPL, R.SEC_DROPMIC]) (recordParts ++ [.fabric, .free, .keep, .mac, .phy, .pulses, .sec,
          .tim, .vlt]) s t
    | .beaconReceive _ _ _ _ _ =>
        OnlyTouches (recordRegs ++ [R.FDE_STAT, R.FDE_IRQEN, R.PHY_STAT, R.PHY_PHS, R.MAC_STAT, R.MAC_ROLE,
          R.MAC_BENCH_LO, R.MAC_BENCH_HI, R.MAC_GRID, R.MAC_BSINCE, R.TIM_STAT, R.TIM_EVT, R.TIM_THETA,
          R.TIM_FREQ_LO, R.TIM_FREQ_HI]) (recordParts ++ [.fde, .keep, .mac, .phy, .tim]) s t
    | .beaconMiss =>
        OnlyTouches (recordRegs ++ [R.MAC_STAT]) (recordParts ++ [.mac]) s t
    | .bvalidTimeout =>
        OnlyTouches (recordRegs ++ [R.MAC_STAT, R.MAC_ROLE]) (recordParts ++ [.mac]) s t
    | .headListenEnd =>
        OnlyTouches (recordRegs ++ [R.MAC_ROLE, R.MAC_HEAD, R.TIM_STAT, R.TIM_EVT]) (recordParts ++ [.mac,
          .tim]) s t
    | .contentionTxStart _ =>
        OnlyTouches (recordRegs ++ [R.NMI_STAT, R.PHY_STAT, R.MAC_STAT, R.MAC_SHORT, R.MAC_TXCNT,
          R.MAC_ACKFCNT, R.SEC_STAT]) (recordParts ++ [.cmd, .last, .mac, .phy, .sec, .vlt]) s t
    | .ackSend =>
        OnlyTouches (recordRegs ++ [R.PHY_STAT]) (recordParts ++ [.mac, .phy]) s t
    | .ackReceive _ =>
        OnlyTouches (recordRegs ++ [R.MAC_STAT, R.MAC_SHORT, R.MAC_ACKFCNT]) (recordParts ++ [.cmd, .mac,
          .phy, .sec, .vlt]) s t
    | .ackSpanEnd =>
        OnlyTouches (recordRegs ++ [R.MAC_STAT, R.MAC_SHORT, R.MAC_ACKFCNT]) (recordParts ++ [.cmd, .mac,
          .sec, .vlt]) s t
    | .vldUndervoltage _ =>
        OnlyTouches (recordRegs ++ [R.PWR_STAT]) (recordParts ++ [.phy]) s t
    | .toneMapExpiry _ =>
        OnlyTouches (recordRegs) (recordParts ++ [.phy]) s t
    | .tmAutoRequest =>
        OnlyTouches (recordRegs) (recordParts ++ [.fabric, .mac, .pulses]) s t
    | .joinRetryDue =>
        OnlyTouches (recordRegs ++ [R.CMD_RSEQ]) (recordParts ++ [.fabric, .mac, .pulses]) s t
    | .roleWrite _ _ =>
        OnlyTouches (recordRegs ++ [R.MAC_STAT, R.MAC_ROLE]) (recordParts ++ [.host, .mac, .remote]) s t
    | .ringDataRead _ | .ringDataWrite _ _ | .ringAbort _ =>
        OnlyTouches (recordRegs) (recordParts ++ [.host, .mac, .remote]) s t
    | .ringPop _ =>
        OnlyTouches (recordRegs) (recordParts ++ [.host, .mac, .q7, .remote]) s t
    | .ringPush _ =>
        OnlyTouches (recordRegs ++ [R.MAC_STAT]) (recordParts ++ [.fabric, .host, .mac, .pulses, .remote]) s t
    | .nominalBenchElapsed =>
        OnlyTouches (recordRegs ++ [R.MAC_BSINCE]) (recordParts ++ [.tim]) s t
    | .vldGood =>
        OnlyTouches (recordRegs ++ [R.PWR_STAT]) (recordParts) s t
    | _ => True

/-- For each command named and every state from which it ends in a next state, every register but those listed beside
it and every part of the state but those listed, among them every byte of the flash where the flash is not listed,
holds what it held. A register listed may change at any index. (R287, R291, R293, R304) -/
def Obligations.FrameOfLineCommands : Prop :=
  ∀ (c : Instr) (s t : State), exec c s = .next t →
    match c with
    | .setCmd _ | .setAt _ | .setEvr _ | .plate _ | .plateAt _ | .plateEvr _ | .release _ | .event _ =>
        OnlyTouches (recordRegs ++ [R.MAC_STAT, R.MAC_SHORT, R.CMD_STAT, R.CMD_LAST, R.CMD_CNT, R.CMD_REFCNT]
          ++ s.tabRegs) (recordParts ++ [.cmd, .fabric, .fde, .mac, .pulses, .sec, .vlt] ++ s.tabParts) s t
    | .cfgSave _ =>
        OnlyTouches (recordRegs ++ [R.LMP_STAT, R.FDE_STAT, R.HLT_STAT, R.MAC_STAT, R.MAC_SHORT, R.CMD_STAT,
          R.CMD_LAST, R.CMD_CNT, R.CMD_REFCNT, R.VLT_STAT, R.VLT_ERR] ++ s.tabRegs) (recordParts ++ [.cmd,
          .fabric, .flash, .last, .mac, .pulses, .sec, .vlt] ++ s.tabParts) s t
    | .qStatus _ | .qLamp _ | .qHealth _ | .qEnergy _ | .qHatch _ | .qEvents _ | .qGauge _ | .qTime _ |
      .qVersion _ | .qLink _ | .addrSet _ | .leave _ | .tmAsk _ | .bRepair _ | .proof _ | .cert _ | .mbStat _ =>
        OnlyTouches (recordRegs ++ [R.MAC_STAT, R.MAC_SHORT, R.CMD_STAT, R.CMD_LAST, R.CMD_CNT, R.CMD_REFCNT]
          ++ s.tabRegs) (recordParts ++ [.cmd, .fabric, .mac, .pulses, .sec, .vlt] ++ s.tabParts) s t
    | .rd _ =>
        OnlyTouches (recordRegs ++ [R.LMP_TADDR, R.FDE_TADDR, R.HLT_TADDR, R.PHY_TADDR, R.MAC_STAT,
          R.MAC_SHORT, R.CMD_STAT, R.CMD_LAST, R.CMD_CNT, R.CMD_REFCNT, R.VLT_ERR, R.VLT_RADDR, R.SEC_TADDR]
          ++ s.tabRegs) (recordParts ++ [.cmd, .fabric, .host, .mac, .pulses, .remote, .sec, .vlt] ++
          s.tabParts) s t
    | .joinReq _ =>
        OnlyTouches (recordRegs ++ [R.MAC_STAT, R.MAC_ROLE, R.MAC_PARENT, R.MAC_HEAD, R.MAC_DROPCNT,
          R.CMD_STAT, R.CMD_REFCNT, R.CMD_RSEQ, R.TIM_STAT, R.TIM_EVT, R.TIM_THETA, R.TIM_FREQ_LO,
          R.TIM_FREQ_HI]) (recordParts ++ [.fabric, .keep, .mac, .pulses, .sec, .tim, .vlt]) s t
    | .joinResp _ =>
        OnlyTouches (recordRegs ++ [R.MAC_STAT, R.MAC_SEG, R.MAC_SHORT, R.CMD_STAT, R.CMD_LAST, R.CMD_CNT,
          R.CMD_REFCNT] ++ s.tabRegs) (recordParts ++ [.cmd, .fabric, .mac, .pulses, .sec, .vlt] ++
          s.tabParts) s t
    | .roleSet _ =>
        OnlyTouches (recordRegs ++ [R.MAC_STAT, R.MAC_ROLE, R.MAC_SHORT, R.CMD_STAT, R.CMD_LAST, R.CMD_CNT,
          R.CMD_REFCNT] ++ s.tabRegs) (recordParts ++ [.cmd, .fabric, .mac, .pulses, .sec, .vlt] ++
          s.tabParts) s t
    | .rsvGrant _ | .rsvSet _ =>
        OnlyTouches (recordRegs ++ [R.MAC_STAT, R.MAC_SHORT, R.MAC_RSV, R.CMD_STAT, R.CMD_LAST, R.CMD_CNT,
          R.CMD_REFCNT] ++ s.tabRegs) (recordParts ++ [.cmd, .fabric, .mac, .pulses, .sec, .vlt] ++
          s.tabParts) s t
    | .tmReq _ | .tmResp _ =>
        OnlyTouches (recordRegs ++ [R.MAC_STAT, R.MAC_SHORT, R.CMD_STAT, R.CMD_LAST, R.CMD_CNT, R.CMD_REFCNT]
          ++ s.tabRegs) (recordParts ++ [.cmd, .fabric, .mac, .phy, .pulses, .sec, .vlt] ++ s.tabParts) s t
    | .offsetSet _ =>
        OnlyTouches (recordRegs ++ [R.MAC_STAT, R.MAC_SHORT, R.CMD_STAT, R.CMD_LAST, R.CMD_CNT, R.CMD_REFCNT,
          R.TIM_OFFSET] ++ s.tabRegs) (recordParts ++ [.cmd, .fabric, .mac, .pulses, .sec, .tim, .vlt] ++
          s.tabParts) s t
    | .bBegin _ =>
        OnlyTouches (recordRegs ++ [R.MAC_STAT, R.MAC_SHORT, R.CMD_STAT, R.CMD_LAST, R.CMD_CNT, R.CMD_REFCNT,
          R.CMD_BHDL, R.CMD_BLEN_LO, R.CMD_BLEN_HI, R.CMD_BRCV, R.CMD_BNBLK] ++ s.tabRegs) (recordParts ++
          [.cmd, .fabric, .flash, .mac, .pulses, .sec, .vlt] ++ s.tabParts) s t
    | .bBlock _ =>
        OnlyTouches (recordRegs ++ [R.MAC_STAT, R.MAC_SHORT, R.CMD_STAT, R.CMD_LAST, R.CMD_CNT, R.CMD_REFCNT,
          R.CMD_BRCV] ++ s.tabRegs) (recordParts ++ [.cmd, .fabric, .flash, .last, .mac, .pulses, .sec, .vlt]
          ++ s.tabParts) s t
    | .bCommit _ =>
        OnlyTouches (recordRegs ++ [R.NMI_STAT, R.MAC_STAT, R.MAC_SHORT, R.CMD_STAT, R.CMD_LAST, R.CMD_CNT,
          R.CMD_REFCNT, R.CMD_BHDL, R.CMD_BLEN_LO, R.CMD_BLEN_HI, R.CMD_BRCV, R.CMD_BNBLK, R.CMD_BCODE] ++
          s.tabRegs) (recordParts ++ [.cmd, .fabric, .mac, .pulses, .sec, .vlt] ++ s.tabParts) s t
    | .bCommitDone =>
        OnlyTouches (recordRegs ++ [R.SYS_BOOT, R.NMI_STAT, R.MAC_STAT, R.MAC_SHORT, R.CMD_STAT, R.CMD_LAST,
          R.CMD_REFCNT, R.CMD_BHDL, R.CMD_BLEN_LO, R.CMD_BLEN_HI, R.CMD_BRCV, R.CMD_BNBLK, R.CMD_BCODE,
          R.SEC_RESULT]) (recordParts ++ [.cmd, .fabric, .flash, .last, .mac, .pulses, .sec, .vlt]) s t
    | .bAbort _ =>
        OnlyTouches (recordRegs ++ [R.MAC_STAT, R.MAC_SHORT, R.CMD_STAT, R.CMD_LAST, R.CMD_CNT, R.CMD_REFCNT,
          R.CMD_BHDL, R.CMD_BLEN_LO, R.CMD_BLEN_HI, R.CMD_BRCV, R.CMD_BNBLK] ++ s.tabRegs) (recordParts ++
          [.cmd, .fabric, .mac, .pulses, .sec, .vlt] ++ s.tabParts) s t
    | .proofSignDone =>
        OnlyTouches (recordRegs ++ [R.MAC_STAT, R.SEC_RESULT]) (recordParts ++ [.fabric, .free, .mac, .pulses,
          .sec]) s t
    | .alarmGapEnd _ =>
        OnlyTouches (recordRegs ++ [R.MAC_STAT, R.MAC_SHORT, R.CMD_STAT, R.CMD_RSEQ]) (recordParts ++ [.cmd,
          .fabric, .mac, .pulses, .sec, .vlt]) s t
    | .periodicReportMinute =>
        OnlyTouches (recordRegs ++ [R.MAC_STAT, R.CMD_STAT, R.CMD_RSEQ]) (recordParts ++ [.cmd, .fabric, .mac,
          .pulses]) s t
    | _ => True

/-- For each command named and every state from which it ends in a next state, every register but those listed beside
it and every part of the state but those listed, among them every byte of the flash where the flash is not listed,
holds what it held. A register listed may change at any index. (R321, R325, R335, R346) -/
def Obligations.FrameOfTimeAndTimers : Prop :=
  ∀ (c : Instr) (s t : State), exec c s = .next t →
    match c with
    | .holdoverEntry =>
        OnlyTouches (recordRegs ++ [R.TIM_STAT, R.TIM_EVT]) (recordParts ++ [.tim]) s t
    | .timeSet _ | .timeSetcap _ | .setcapCancel _ =>
        OnlyTouches (recordRegs ++ [R.TIM_STAT, R.TIM_EVT, R.TIM_FLG]) (recordParts ++ [.host, .keep, .mac,
          .remote, .tim]) s t
    | .ppsLost =>
        OnlyTouches (recordRegs ++ [R.TIM_STAT, R.TIM_EVT, R.TIM_FLG]) (recordParts ++ [.tim]) s t
    | .timSecRead _ =>
        OnlyTouches (recordRegs) (recordParts ++ [.host, .remote]) s t
    | .alarmArm _ _ _ =>
        OnlyTouches (recordRegs ++ [R.TIM_AL0CTL, R.TIM_AL1CTL, R.TIM_AL2CTL, R.TIM_AL3CTL]) (recordParts ++
          [.host, .remote, .tim]) s t
    | .alarmFire _ =>
        OnlyTouches (recordRegs ++ [R.TIM_EVT, R.TIM_AL0CTL, R.TIM_AL1CTL, R.TIM_AL2CTL, R.TIM_AL3CTL])
          (recordParts ++ [.fabric, .pulses, .tim]) s t
    | .kaCalibrationWindow =>
        OnlyTouches (recordRegs ++ [R.TIM_KFERR]) (recordParts ++ [.keep]) s t
    | .keepSense _ _ =>
        OnlyTouches (recordRegs ++ [R.KEEP_STAT, R.KEEP_VSTORE]) (recordParts ++ [.keep]) s t
    | .timeCountResume =>
        OnlyTouches (recordRegs ++ [R.MAC_STAT, R.MAC_ROLE, R.MAC_SHORT, R.MAC_ACKFCNT, R.TIM_FLG])
          (recordParts ++ [.clk, .cmd, .keep, .mac, .phy, .sec, .vlt]) s t
    | .gtuEnaWrite _ _ =>
        OnlyTouches (recordRegs ++ [R.GTU_ENA]) (recordParts ++ [.gtu, .host, .remote]) s t
    | .gtValueEffect _ | .gtCatchUp _ =>
        OnlyTouches (recordRegs ++ [R.GTU_IE, R.GTU_CSTAT]) (recordParts ++ [.gtu]) s t
    | .gtCompareMatch _ _ _ =>
        OnlyTouches (recordRegs ++ [R.HLT_STAT, R.HLT_USCTL, R.GTU_CSTAT]) (recordParts ++ [.fabric, .gtu,
          .hlt, .pulses, .q7]) s t
    | .gtTrigger _ | .gtPinEdge _ _ =>
        OnlyTouches (recordRegs ++ [R.TIM_STAT, R.TIM_EVT, R.TIM_FLG, R.TIM_THETA, R.TIM_FREQ_LO,
          R.TIM_FREQ_HI, R.TIM_CAPS_LO, R.TIM_CAPS_HI, R.TIM_CAPF_LO, R.TIM_CAPF_HI, R.GTU_IE, R.GTU_CAP_LO,
          R.GTU_CAP_HI, R.GTU_CSTAT]) (recordParts ++ [.fabric, .gtu, .keep, .mac, .pulses, .tim]) s t
    | .gtuTrgWrite _ _ =>
        OnlyTouches (recordRegs) (recordParts ++ [.gtu, .host, .remote]) s t
    | _ => True

/-- For each command named and every state from which it ends in a next state, every register but those listed beside
it and every part of the state but those listed, among them every byte of the flash where the flash is not listed,
holds what it held. A register listed may change at any index. (R361, R375, R387, R411) -/
def Obligations.FrameOfClocksAndPower : Prop :=
  ∀ (c : Instr) (s t : State), exec c s = .next t →
    match c with
    | .xoWindow _ =>
        OnlyTouches (recordRegs ++ [R.NMI_STAT, R.CLK_STAT, R.CLK_XOCNT, R.CLK_FALLCNT, R.PWM_TRIPSUM,
          R.PWM_STORM, R.PWM_STAT, R.PWM_TRIPLAT, R.HLT_PRFACT, R.MAC_STAT, R.MAC_ROLE, R.MAC_SHORT,
          R.MAC_ACKFCNT, R.TIM_STAT, R.TIM_EVT, R.TIM_FLG]) (recordParts ++ [.clk, .cmd, .fabric, .hlt, .last,
          .mac, .phy, .pulses, .pwm, .sec, .tim, .vlt]) s t
    | .handoverDone =>
        OnlyTouches (recordRegs ++ [R.CLK_STAT, R.MAC_STAT, R.MAC_ROLE, R.MAC_SHORT, R.MAC_ACKFCNT])
          (recordParts ++ [.clk, .cmd, .mac, .phy, .sec, .vlt]) s t
    | .xoTimeout =>
        OnlyTouches (recordRegs ++ [R.CLK_STAT]) (recordParts) s t
    | .xoMissingEdge =>
        OnlyTouches (recordRegs ++ [R.NMI_STAT, R.CLK_STAT, R.CLK_FALLCNT, R.PWM_TRIPSUM, R.PWM_STORM,
          R.PWM_STAT, R.PWM_TRIPLAT, R.HLT_PRFACT, R.MAC_STAT, R.MAC_ROLE, R.MAC_SHORT, R.MAC_ACKFCNT,
          R.TIM_STAT, R.TIM_EVT, R.TIM_FLG]) (recordParts ++ [.clk, .cmd, .fabric, .hlt, .last, .mac, .phy,
          .pulses, .pwm, .sec, .tim, .vlt]) s t
    | .ircAccepted =>
        OnlyTouches (recordRegs ++ [R.NMI_STAT]) (recordParts ++ [.clk]) s t
    | .pllLocked =>
        OnlyTouches (recordRegs ++ [R.CLK_STAT, R.MAC_STAT, R.MAC_ROLE, R.MAC_SHORT, R.MAC_ACKFCNT])
          (recordParts ++ [.clk, .cmd, .mac, .phy, .pwr, .sec, .vlt]) s t
    | .clockGood =>
        OnlyTouches (recordRegs ++ [R.CLK_STAT, R.PWM_TRIPSUM, R.PWM_STAT, R.PWM_TRIPLAT, R.CUR_CSTAT,
          R.MAC_STAT, R.MAC_ROLE, R.MAC_SHORT, R.MAC_ACKFCNT]) (recordParts ++ [.clk, .cmd, .fabric, .hlt,
          .mac, .phy, .pulses, .pwm, .sec, .vlt]) s t
    | .fatalRetry =>
        OnlyTouches (recordRegs ++ [R.KEEP_STAT, R.TIM_FLG, R.TIM_KFERR, R.TIM_FREQ_LO, R.TIM_FREQ_HI])
          (recordParts ++ [.clk, .gtu, .keep, .pwr, .sec, .vlt]) s t
    | .pllLockLoss =>
        OnlyTouches (recordRegs ++ [R.NMI_STAT, R.CLK_STAT, R.PWM_TRIPSUM, R.PWM_STORM, R.PWM_STAT,
          R.PWM_TRIPLAT, R.HLT_PRFACT]) (recordParts ++ [.clk, .fabric, .hlt, .last, .pulses, .pwm, .vlt]) s t
    | .retxo _ =>
        OnlyTouches (recordRegs ++ [R.MAC_STAT, R.MAC_ROLE, R.MAC_SHORT, R.MAC_ACKFCNT]) (recordParts ++
          [.clk, .cmd, .host, .mac, .phy, .remote, .sec, .vlt]) s t
    | .kxoFail =>
        OnlyTouches (recordRegs ++ [R.CLK_STAT, R.TIM_FLG]) (recordParts ++ [.clk, .keep]) s t
    | .kxoWindow _ =>
        OnlyTouches (recordRegs ++ [R.CLK_STAT, R.TIM_FLG]) (recordParts ++ [.clk]) s t
    | .spreadApply =>
        OnlyTouches (recordRegs) (recordParts ++ [.clk]) s t
    | .vauxGood _ =>
        OnlyTouches (recordRegs ++ [R.SYS_MODE, R.SYS_RSTC, R.PWR_STAT, R.PWR_LRST, R.KEEP_STAT, R.KEEP_OFFT,
          R.TIM_FLG, R.TIM_KFERR, R.TIM_FREQ_LO, R.TIM_FREQ_HI]) (recordParts ++ [.clk, .gtu, .keep, .last,
          .pwr, .sec, .vlt]) s t
    | .coreResetRelease =>
        OnlyTouches (recordRegs ++ [R.NMI_STAT, R.PWR_STAT, R.PWM_TRIPSUM, R.PWM_STORM, R.PWM_STAT,
          R.PWM_TRIPLAT, R.HLT_PRFACT]) (recordParts ++ [.clk, .fabric, .hlt, .last, .pulses, .pwm, .pwr,
          .vlt]) s t
    | .kaTimeLoad =>
        OnlyTouches (recordRegs ++ [R.SYS_BOOT, R.TIM_STAT, R.TIM_FLG]) (recordParts ++ [.gtu, .keep, .pwr,
          .tim]) s t
    | .vaultRecoveryEnd =>
        OnlyTouches (recordRegs ++ [R.SYS_BOOT, R.NMI_STAT, R.PWR_TREC, R.PWM_STAT, R.CUR_TRIMV, R.CUR_CSTAT,
          R.HLT_MFR, R.HLT_STRS_LO, R.HLT_STRS_HI, R.CMD_STAT, R.CMD_BHDL, R.CMD_BLEN_LO, R.CMD_BLEN_HI,
          R.CMD_BRCV, R.CMD_BNBLK, R.VLT_STAT, R.VLT_LEGSEQ, R.SEC_STAT, R.LOG_HEAD]) (recordParts ++ [.cmd,
          .fabric, .flash, .hlt, .keep, .last, .pulses, .pwm, .pwr, .sec, .vlt]) s t
    | .mainsLoss _ =>
        OnlyTouches (recordRegs ++ [R.NMI_STAT, R.PWR_STAT, R.KEEP_STAT, R.PWM_STAT, R.CUR_TRIMV, R.CUR_CSTAT,
          R.LMP_STAT, R.FDE_STAT, R.HLT_STAT, R.HLT_PRFACT, R.MAC_STAT, R.MAC_SHORT, R.MAC_ACKFCNT,
          R.VLT_STAT, R.VLT_ERR]) (recordParts ++ [.cmd, .fabric, .flash, .free, .hlt, .keep, .last, .mac,
          .phy, .pulses, .pwm, .pwr, .sec, .vlt]) s t
    | .keepTimeLoad =>
        OnlyTouches (recordRegs ++ [R.KEEP_RSVREQ_LO, R.KEEP_RSVREQ_HI, R.TIM_FLG]) (recordParts ++ [.gtu,
          .keep, .pwm, .pwr, .vlt]) s t
    | .reservationAnswer _ =>
        OnlyTouches (recordRegs ++ [R.KEEP_STAT, R.KEEP_VSTORE, R.LOG_HEAD, R.LOG_SFILL, R.LOG_WCNT_LO,
          R.LOG_WCNT_HI]) (recordParts ++ [.flash, .keep, .last, .pwr, .vlt]) s t
    | .borWarning =>
        OnlyTouches (recordRegs ++ [R.NMI_STAT]) (recordParts ++ [.pwr]) s t
    | .rstRelease _ =>
        OnlyTouches (recordRegs ++ [R.SYS_MODE, R.SYS_RSTC, R.PWR_LRST, R.KEEP_STAT, R.TIM_FLG, R.TIM_KFERR,
          R.TIM_FREQ_LO, R.TIM_FREQ_HI]) (recordParts ++ [.gtu, .keep, .pwr, .sec, .vlt]) s t
    | .vdrvUndervoltage _ =>
        OnlyTouches (recordRegs ++ [R.PWR_STAT]) (recordParts ++ [.pwm, .pwr]) s t
    | .vdrvGood =>
        OnlyTouches (recordRegs ++ [R.PWR_STAT, R.PWM_STAT, R.CUR_CSTAT]) (recordParts ++ [.fabric, .hlt,
          .pulses, .pwm, .pwr]) s t
    | .avddOutOfRange _ | .avddGood | .vhioLoss | .vhioGood =>
        OnlyTouches (recordRegs ++ [R.PWR_STAT]) (recordParts) s t
    | .engineStall _ =>
        OnlyTouches (recordRegs ++ [R.SYS_RSTC, R.NMI_STAT, R.PWM_STAT, R.CUR_TRIMV, R.CUR_CSTAT,
          R.HLT_PRFACT, R.MAC_STAT, R.MAC_SHORT, R.MAC_ACKFCNT, R.VLT_STAT, R.VLT_ERR]) (recordParts ++ [.cmd,
          .fabric, .fde, .flash, .free, .hlt, .last, .lmp, .mac, .phy, .pulses, .pwm, .sec, .vlt]) s t
    | .cellSelect _ _ =>
        OnlyTouches (recordRegs ++ [R.KEEP_STAT, R.KEEP_VSTORE, R.KEEP_VCELL]) (recordParts ++ [.keep]) s t
    | .cellRelease _ =>
        OnlyTouches (recordRegs ++ [R.KEEP_STAT, R.KEEP_VSTORE]) (recordParts ++ [.keep]) s t
    | .storeFull _ | .storeChargeResume _ =>
        OnlyTouches (recordRegs ++ [R.KEEP_STAT, R.KEEP_VSTORE]) (recordParts) s t
    | .mppUpdate _ =>
        OnlyTouches (recordRegs ++ [R.KEEP_STAT, R.KEEP_MPP]) (recordParts ++ [.keep]) s t
    | .gaugeSecond _ _ =>
        OnlyTouches (recordRegs ++ [R.KEEP_STAT, R.KEEP_EHARV_LO, R.KEEP_EHARV_HI, R.KEEP_LOAD]) (recordParts
          ++ [.keep, .last, .vlt]) s t
    | .jtagExtest _ =>
        OnlyTouches (recordRegs) (recordParts ++ [.pwr]) s t
    | _ => True

/-- For each command named and every state from which it ends in a next state, every register but those listed beside
it and every part of the state but those listed, among them every byte of the flash where the flash is not listed,
holds what it held. A register listed may change at any index. (R432, R436, R445, R450, R486) -/
def Obligations.FrameOfVault : Prop :=
  ∀ (c : Instr) (s t : State), exec c s = .next t →
    match c with
    | .hourTick | .litHour =>
        OnlyTouches (recordRegs) (recordParts ++ [.keep, .last, .vlt]) s t
    | .commitDelayExpiry =>
        OnlyTouches (recordRegs) (recordParts ++ [.vlt]) s t
    | .commitDone =>
        OnlyTouches (recordRegs ++ [R.SEC_RESULT]) (recordParts ++ [.sec, .vlt]) s t
    | .sectorRewriteDone =>
        OnlyTouches (recordRegs ++ [R.LOG_SFILL]) (recordParts ++ [.flash, .last, .vlt]) s t
    | .bankBuildDone =>
        OnlyTouches (recordRegs ++ [R.SYS_BOOT, R.LMP_STAT, R.FDE_STAT, R.HLT_STAT]) (recordParts ++ [.flash,
          .last, .vlt]) s t
    | .foldDone =>
        OnlyTouches (recordRegs ++ [R.VLT_STAT]) (recordParts ++ [.last, .vlt]) s t
    | .flashVerifyFail =>
        OnlyTouches (recordRegs ++ [R.NMI_STAT, R.LMP_STAT, R.FDE_STAT, R.HLT_STAT, R.VLT_STAT, R.VLT_ERR])
          (recordParts ++ [.flash, .last, .vlt]) s t
    | .vltCommit _ | .pgwr _ | .vltErase _ | .legwr _ | .vltLock _ | .setpwd _ | .legload _ =>
        OnlyTouches (recordRegs ++ [R.VLT_STAT, R.VLT_ERR]) (recordParts ++ [.flash, .host, .last, .remote,
          .vlt]) s t
    | .passwordWord _ _ =>
        OnlyTouches (recordRegs ++ [R.VLT_STAT]) (recordParts ++ [.host, .keep, .remote]) s t
    | .passwordLockoutEnd =>
        OnlyTouches (recordRegs) (recordParts ++ [.keep]) s t
    | .regionTimeout _ _ | .hostEventPost _ _ =>
        OnlyTouches (recordRegs) (recordParts ++ [.host, .remote]) s t
    | .rawRegionSelect _ _ =>
        OnlyTouches (recordRegs ++ [R.VLT_RSEL]) (recordParts ++ [.host, .remote]) s t
    | .hatInc _ =>
        OnlyTouches (recordRegs ++ [R.VLT_STAT, R.VLT_ERR, R.SEC_STAT]) (recordParts ++ [.host, .last,
          .remote, .vlt]) s t
    | .legWriteDone =>
        OnlyTouches (recordRegs ++ [R.VLT_STAT, R.VLT_ERR, R.VLT_LEGSEQ]) (recordParts ++ [.flash, .last,
          .vlt]) s t
    | .sectorEraseDone =>
        OnlyTouches (recordRegs) (recordParts ++ [.flash, .last, .vlt]) s t
    | .recorderTake =>
        OnlyTouches (recordRegs ++ [R.MAC_STAT, R.MAC_SHORT, R.CMD_STAT, R.CMD_RSEQ, R.LOG_HEAD, R.LOG_SFILL,
          R.LOG_WCNT_LO, R.LOG_WCNT_HI]) (recordParts ++ [.cmd, .fabric, .flash, .last, .mac, .pulses, .sec,
          .vlt]) s t
    | .sealReset _ _ =>
        OnlyTouches (recordRegs) (recordParts ++ [.flash, .host, .last, .remote, .vlt]) s t
    | _ => True

/-- For each command named and every state from which it ends in a next state, every register but those listed beside
it and every part of the state but those listed, among them every byte of the flash where the flash is not listed,
holds what it held. A register listed may change at any index. (R458, R465, R473) -/
def Obligations.FrameOfSecurity : Prop :=
  ∀ (c : Instr) (s t : State), exec c s = .next t →
    match c with
    | .loadkey _ | .erasekey _ | .commission _ _ | .retire _ _ | .secProof _ | .selftest _ | .savedir _ =>
        OnlyTouches (recordRegs ++ [R.LMP_STAT, R.FDE_STAT, R.HLT_STAT, R.VLT_STAT, R.VLT_ERR, R.SEC_RESULT])
          (recordParts ++ [.flash, .host, .last, .remote, .sec, .vlt]) s t
    | .fuseBurnDone =>
        OnlyTouches (recordRegs ++ [R.SEC_RESULT]) (recordParts ++ [.sec, .vlt]) s t
    | .selftestEnd _ =>
        OnlyTouches (recordRegs ++ [R.SYS_BOOT, R.SEC_STAT, R.SEC_RESULT]) (recordParts ++ [.sec]) s t
    | .secKdataWrite _ _ =>
        OnlyTouches (recordRegs) (recordParts ++ [.host, .remote, .sec]) s t
    | .secSlotSelect _ _ =>
        OnlyTouches (recordRegs ++ [R.SEC_SLOT_SEL]) (recordParts ++ [.host, .remote, .sec]) s t
    | .healthTestFail =>
        OnlyTouches (recordRegs ++ [R.SEC_STAT]) (recordParts) s t
    | _ => True
end

