-- ==== Sys2Proof/Laws/Sparse.lean ====
section
/-! SUPPORT. The laws of the sparse stores: a read after a write to the same key gives what was written, a write leaves
every other key alone, and every operation keeps the canonical form. -/

namespace Sys2Proof.Machine

variable {α : Type}

theorem spGet_spDrop_self (d : Nat → α) (l : List (Nat × α)) (k : Nat) : spGet d (spDrop l k) k = d k := by
  induction l with
  | nil => rfl
  | cons e l ih =>
    obtain ⟨j, v⟩ := e
    by_cases h : j = k
    · simpa [spDrop, h] using ih
    · simpa [spDrop, spGet, h] using ih

theorem spGet_spDrop_other (d : Nat → α) (l : List (Nat × α)) {k k' : Nat} (h : k' ≠ k) :
    spGet d (spDrop l k) k' = spGet d l k' := by
  induction l with
  | nil => rfl
  | cons e l ih =>
    obtain ⟨j, v⟩ := e
    by_cases hj : j = k
    · have : j ≠ k' := fun hh => h (hh.symm.trans hj)
      simpa [spDrop, spGet, hj, this, Ne.symm h] using ih
    · by_cases hk : j = k'
      · simp [spDrop, spGet, hk, h]
      · simpa [spDrop, spGet, hj, hk] using ih

theorem spGet_spPut_self (d : Nat → α) (l : List (Nat × α)) (k : Nat) (v : α) : spGet d (spPut l k v) k = v := by
  induction l with
  | nil => simp [spPut, spGet]
  | cons e l ih =>
    obtain ⟨j, w⟩ := e
    by_cases h : j = k
    · simp [spPut, spGet, h]
    · by_cases hlt : k < j
      · simp [spPut, spGet, h, hlt]
      · simpa [spPut, spGet, h, hlt] using ih

theorem spGet_spPut_other (d : Nat → α) (l : List (Nat × α)) {k k' : Nat} (v : α) (h : k' ≠ k) :
    spGet d (spPut l k v) k' = spGet d l k' := by
  induction l with
  | nil => simp [spPut, spGet, Ne.symm h]
  | cons e l ih =>
    obtain ⟨j, w⟩ := e
    by_cases hj : j = k
    · have : j ≠ k' := fun hh => h (hh.symm.trans hj)
      simp [spPut, spGet, hj, Ne.symm h]
    · by_cases hlt : k < j
      · simp [spPut, spGet, hj, hlt, Ne.symm h]
      · by_cases hk : j = k'
        · subst hk; simp [spPut, spGet, hj, hlt]
        · simpa [spPut, spGet, hj, hlt, hk] using ih

/-- A read after a write to the same key. -/
@[simp] theorem spGet_spSet_self [DecidableEq α] (d : Nat → α) (l : List (Nat × α)) (k : Nat) (v : α) :
    spGet d (spSet d l k v) k = v := by
  unfold spSet
  split
  · rename_i h; rw [spGet_spDrop_self, h]
  · exact spGet_spPut_self d l k v

/-- A write leaves every other key alone. -/
theorem spGet_spSet_other [DecidableEq α] (d : Nat → α) (l : List (Nat × α)) {k k' : Nat} (v : α) (h : k' ≠ k) :
    spGet d (spSet d l k v) k' = spGet d l k' := by
  unfold spSet
  split
  · exact spGet_spDrop_other d l h
  · exact spGet_spPut_other d l v h

theorem spRising_mono {l : List (Nat × α)} {a b : Nat} (h : a ≤ b) (hl : spRising b l = true) : spRising a l = true := by
  cases l with
  | nil => rfl
  | cons e l =>
    obtain ⟨j, v⟩ := e
    simp [spRising] at hl ⊢
    exact ⟨by omega, hl.2⟩

theorem spRising_spDrop {l : List (Nat × α)} {a k : Nat} (hl : spRising a l = true) : spRising a (spDrop l k) = true := by
  induction l generalizing a with
  | nil => rfl
  | cons e l ih =>
    obtain ⟨j, v⟩ := e
    simp [spRising] at hl
    by_cases h : j = k
    · simpa [spDrop, h] using ih (spRising_mono (by omega) hl.2)
    · simp [spDrop, h, spRising, hl.1, ih hl.2]

theorem spRising_spPut {l : List (Nat × α)} {a k : Nat} (v : α) (ha : a ≤ k) (hl : spRising a l = true) :
    spRising a (spPut l k v) = true := by
  induction l generalizing a with
  | nil => simp [spPut, spRising, ha]
  | cons e l ih =>
    obtain ⟨j, w⟩ := e
    simp [spRising] at hl
    by_cases h : j = k
    · subst h; simp [spPut, spRising, hl]
    · by_cases hlt : k < j
      · simp [spPut, h, hlt, spRising, ha, hl.2]
        try omega
      · simp [spPut, h, hlt, spRising, hl.1]
        exact ih (by omega) hl.2

theorem spDrop_subset {l : List (Nat × α)} {k : Nat} {e : Nat × α} (h : e ∈ spDrop l k) : e ∈ l := by
  induction l with
  | nil => exact h
  | cons x l ih =>
    obtain ⟨j, v⟩ := x
    by_cases hj : j = k
    · simp [spDrop, hj] at h; exact List.mem_cons_of_mem _ (ih h)
    · simp [spDrop, hj] at h
      rcases h with h | h
      · simp [h]
      · exact List.mem_cons_of_mem _ (ih h)

theorem spPut_subset {l : List (Nat × α)} {k : Nat} {v : α} {e : Nat × α} (h : e ∈ spPut l k v) :
    e = (k, v) ∨ e ∈ l := by
  induction l with
  | nil => simpa [spPut] using h
  | cons x l ih =>
    obtain ⟨j, w⟩ := x
    by_cases hj : j = k
    · simp [spPut, hj] at h; rcases h with h | h <;> simp [h]
    · by_cases hlt : k < j
      · simp [spPut, hj, hlt] at h; rcases h with h | h | h <;> simp [h]
      · simp [spPut, hj, hlt] at h
        rcases h with h | h
        · simp [h]
        · rcases ih h with h | h <;> simp [h]

/-- The form holds of a store with nothing listed. -/
@[simp] theorem spWf_nil [DecidableEq α] (d : Nat → α) : spWf d [] = true := rfl

/-- A write keeps the canonical form. -/
theorem spWf_spSet [DecidableEq α] (d : Nat → α) {l : List (Nat × α)} (k : Nat) (v : α) (h : spWf d l = true) :
    spWf d (spSet d l k v) = true := by
  simp only [spWf, Bool.and_eq_true, List.all_eq_true, decide_eq_true_eq] at h ⊢
  unfold spSet
  split
  · exact ⟨spRising_spDrop h.1, fun e he => h.2 e (spDrop_subset he)⟩
  · rename_i hv
    refine ⟨spRising_spPut v (Nat.zero_le k) h.1, fun e he => ?_⟩
    rcases spPut_subset he with rfl | he
    · exact hv
    · exact h.2 e he

/-- Writing a run of values keeps the canonical form. -/
theorem spWf_spSetAll [DecidableEq α] (d : Nat → α) (vs : List α) {l : List (Nat × α)} (k : Nat)
    (h : spWf d l = true) : spWf d (spSetAll d l k vs) = true := by
  induction vs generalizing l k with
  | nil => exact h
  | cons v vs ih => exact ih (k + 1) (spWf_spSet d k v h)

theorem spRising_filter {l : List (Nat × α)} {a : Nat} (p : Nat × α → Bool) (h : spRising a l = true) :
    spRising a (l.filter p) = true := by
  induction l generalizing a with
  | nil => rfl
  | cons e l ih =>
    obtain ⟨j, v⟩ := e
    simp [spRising] at h
    by_cases hp : p (j, v)
    · simp [hp, spRising, h.1, ih h.2]
    · simpa [hp] using ih (spRising_mono (by omega) h.2)

/-- Taking entries away keeps the canonical form. -/
theorem spWf_filter [DecidableEq α] (d : Nat → α) {l : List (Nat × α)} (p : Nat × α → Bool) (h : spWf d l = true) :
    spWf d (l.filter p) = true := by
  simp only [spWf, Bool.and_eq_true, List.all_eq_true, decide_eq_true_eq] at h ⊢
  exact ⟨spRising_filter p h.1, fun e he => h.2 e (List.mem_filter.mp he).1⟩

/-- Removing a run of keys keeps the canonical form. -/
theorem spWf_spClear [DecidableEq α] (d : Nat → α) {l : List (Nat × α)} (lo n : Nat) (h : spWf d l = true) :
    spWf d (spClear l lo n) = true := spWf_filter d _ h

/-! A block of values written at once. -/

theorem spRising_append {l m : List (Nat × α)} {a b : Nat} (hab : a ≤ b) (hl : spRising a l = true)
    (hb : ∀ e ∈ l, e.1 < b) (hm : spRising b m = true) : spRising a (l ++ m) = true := by
  induction l generalizing a with
  | nil => exact spRising_mono hab hm
  | cons e l ih =>
    obtain ⟨j, v⟩ := e
    simp [spRising] at hl
    have hj : j < b := hb (j, v) (by simp)
    simp [spRising, hl.1, ih hj hl.2 (fun e he => hb e (by simp [he]))]

theorem spRising_filter_ge {l : List (Nat × α)} {a b : Nat} (h : spRising a l = true) :
    spRising b (l.filter (fun e => decide (b ≤ e.1))) = true := by
  induction l generalizing a with
  | nil => rfl
  | cons e l ih =>
    obtain ⟨j, v⟩ := e
    simp [spRising] at h
    by_cases hb : b ≤ j
    · have := spRising_filter (fun e : Nat × α => decide (b ≤ e.1)) h.2
      simp [hb, spRising, this]
    · simpa [hb] using ih h.2

theorem spRising_zipIdx (vs : List α) (k : Nat) : spRising k ((vs.zipIdx k).map (fun e => (e.2, e.1))) = true := by
  induction vs generalizing k with
  | nil => rfl
  | cons v vs ih => simp [List.zipIdx_cons, spRising, ih]

/-- A block written keeps the canonical form. -/
theorem spWf_spBlock [DecidableEq α] (d : Nat → α) {l : List (Nat × α)} (k : Nat) (vs : List α) (h : spWf d l = true) :
    spWf d (spBlock d l k vs) = true := by
  simp only [spWf, Bool.and_eq_true, List.all_eq_true, decide_eq_true_eq] at h ⊢
  have hz : ∀ e ∈ (vs.zipIdx k).map (fun e => (e.2, e.1)), e.1 < k + vs.length := by
    intro e he
    simp only [List.mem_map] at he
    obtain ⟨x, hx, rfl⟩ := he
    have := List.mem_zipIdx hx
    omega
  unfold spBlock
  refine ⟨spRising_append (b := k + vs.length) (by omega) (spRising_append (b := k) (by omega) (spRising_filter _ h.1) ?_
    (spRising_filter _ (spRising_zipIdx vs k))) ?_ (spRising_filter_ge h.1), ?_⟩
  · intro e he
    simpa using (List.mem_filter.mp he).2
  · intro e he
    rcases List.mem_append.mp he with he | he
    · have := (List.mem_filter.mp he).2
      simp at this; omega
    · exact hz e (List.mem_filter.mp he).1
  · intro e he
    rcases List.mem_append.mp he with he | he
    · rcases List.mem_append.mp he with he | he
      · exact h.2 e (List.mem_filter.mp he).1
      · simpa using (List.mem_filter.mp he).2
    · exact h.2 e (List.mem_filter.mp he).1

/-- Equal readings are equal lists: two canonical stores that read alike at every key are the same data. -/
theorem spWf_ext [DecidableEq α] (d : Nat → α) {l m : List (Nat × α)} (hl : spWf d l = true) (hm : spWf d m = true)
    (h : ∀ k, spGet d l k = spGet d m k) : l = m := by
  have key : ∀ (l m : List (Nat × α)) (a b : Nat), spRising a l = true → spRising b m = true →
      (∀ e ∈ l, e.2 ≠ d e.1) → (∀ e ∈ m, e.2 ≠ d e.1) → (∀ k, spGet d l k = spGet d m k) → l = m := by
    have low : ∀ (l : List (Nat × α)) (a k : Nat), spRising a l = true → k < a → spGet d l k = d k := by
      intro l
      induction l with
      | nil => intros; rfl
      | cons e l ih =>
        obtain ⟨j, v⟩ := e
        intro a k hr hk
        simp [spRising] at hr
        have : j ≠ k := by omega
        simpa [spGet, this] using ih (j + 1) k hr.2 (by omega)
    intro l
    induction l with
    | nil =>
      intro m a b _ hrm _ hm h
      cases m with
      | nil => rfl
      | cons e m =>
        obtain ⟨j, v⟩ := e
        have := h j
        simp [spGet] at this
        exact absurd this.symm (hm (j, v) (by simp))
    | cons e l ih =>
      obtain ⟨j, v⟩ := e
      intro m a b hrl hrm hl hm h
      cases m with
      | nil =>
        have := h j
        simp [spGet] at this
        exact absurd this (hl (j, v) (by simp))
      | cons e' m =>
        obtain ⟨i, w⟩ := e'
        simp [spRising] at hrl hrm
        have hij : j = i := by
          rcases Nat.lt_trichotomy j i with hlt | heq | hgt
          · have := h j
            have hne : i ≠ j := by omega
            rw [spGet, if_pos rfl, spGet, if_neg hne, low m (i + 1) j hrm.2 (by omega)] at this
            exact absurd this (hl (j, v) (by simp))
          · exact heq
          · have := h i
            have hne : j ≠ i := by omega
            rw [spGet, if_neg hne, spGet, if_pos rfl, low l (j + 1) i hrl.2 (by omega)] at this
            exact absurd this.symm (hm (i, w) (by simp))
        subst hij
        have hv : v = w := by simpa [spGet] using h j
        subst hv
        rw [ih m (j + 1) (j + 1) hrl.2 hrm.2 (fun e he => hl e (by simp [he])) (fun e he => hm e (by simp [he]))]
        intro k
        by_cases hk : j = k
        · subst hk; rw [low l (j + 1) j hrl.2 (by omega), low m (j + 1) j hrm.2 (by omega)]
        · simpa [spGet, hk] using h k
  simp only [spWf, Bool.and_eq_true, List.all_eq_true, decide_eq_true_eq] at hl hm
  exact key l m 0 0 hl.1 hm.1 hl.2 hm.2 h

/-! The fixed lists. -/

@[simp] theorem modNth_length (l : List α) (i : Nat) (f : α → α) : (modNth l i f).length = l.length := by
  induction l generalizing i with
  | nil => rfl
  | cons x xs ih => cases i <;> simp [modNth, ih]

theorem nthOf_modNth_self [Inhabited α] {l : List α} {i : Nat} (f : α → α) (h : i < l.length) :
    nthOf (modNth l i f) i = f (nthOf l i) := by
  induction l generalizing i with
  | nil => simp at h
  | cons x xs ih =>
    cases i with
    | zero => simp [modNth, nthOf]
    | succ i => simpa [modNth, nthOf] using ih (by simpa using h)

theorem nthOf_modNth_other [Inhabited α] (l : List α) {i j : Nat} (f : α → α) (h : j ≠ i) :
    nthOf (modNth l i f) j = nthOf l j := by
  induction l generalizing i j with
  | nil => rfl
  | cons x xs ih =>
    cases i with
    | zero =>
      cases j with
      | zero => exact absurd rfl h
      | succ j => simp [modNth, nthOf]
    | succ i =>
      cases j with
      | zero => simp [modNth, nthOf]
      | succ j => simpa [modNth, nthOf] using ih (by omega)

end Sys2Proof.Machine
end

