-- ==== Sys2Proof/Laws/State.lean ====
section
/-! SUPPORT. One lemma for each field under each update of State: what the update sets, and what it leaves alone. -/

namespace Sys2Proof.Machine

variable (s : State)

@[simp] theorem State.setReg_host (k : Nat) (v : Word) : (s.setReg k v).host = s.host := rfl
@[simp] theorem State.setReg_remote (k : Nat) (v : Word) : (s.setReg k v).remote = s.remote := rfl
@[simp] theorem State.setReg_fabric (k : Nat) (v : Word) : (s.setReg k v).fabric = s.fabric := rfl
@[simp] theorem State.setReg_acted (k : Nat) (v : Word) : (s.setReg k v).acted = s.acted := rfl
@[simp] theorem State.setReg_actedAt (k : Nat) (v : Word) : (s.setReg k v).actedAt = s.actedAt := rfl
@[simp] theorem State.setReg_pulses (k : Nat) (v : Word) : (s.setReg k v).pulses = s.pulses := rfl
@[simp] theorem State.setReg_posted (k : Nat) (v : Word) : (s.setReg k v).posted = s.posted := rfl
@[simp] theorem State.setReg_q6 (k : Nat) (v : Word) : (s.setReg k v).q6 = s.q6 := rfl
@[simp] theorem State.setReg_q7 (k : Nat) (v : Word) : (s.setReg k v).q7 = s.q7 := rfl
@[simp] theorem State.setReg_clk (k : Nat) (v : Word) : (s.setReg k v).clk = s.clk := rfl
@[simp] theorem State.setReg_tim (k : Nat) (v : Word) : (s.setReg k v).tim = s.tim := rfl
@[simp] theorem State.setReg_keep (k : Nat) (v : Word) : (s.setReg k v).keep = s.keep := rfl
@[simp] theorem State.setReg_pwr (k : Nat) (v : Word) : (s.setReg k v).pwr = s.pwr := rfl
@[simp] theorem State.setReg_vlt (k : Nat) (v : Word) : (s.setReg k v).vlt = s.vlt := rfl
@[simp] theorem State.setReg_pwm (k : Nat) (v : Word) : (s.setReg k v).pwm = s.pwm := rfl
@[simp] theorem State.setReg_lmp (k : Nat) (v : Word) : (s.setReg k v).lmp = s.lmp := rfl
@[simp] theorem State.setReg_fde (k : Nat) (v : Word) : (s.setReg k v).fde = s.fde := rfl
@[simp] theorem State.setReg_hlt (k : Nat) (v : Word) : (s.setReg k v).hlt = s.hlt := rfl
@[simp] theorem State.setReg_phy (k : Nat) (v : Word) : (s.setReg k v).phy = s.phy := rfl
@[simp] theorem State.setReg_mac (k : Nat) (v : Word) : (s.setReg k v).mac = s.mac := rfl
@[simp] theorem State.setReg_gtu (k : Nat) (v : Word) : (s.setReg k v).gtu = s.gtu := rfl
@[simp] theorem State.setReg_sec (k : Nat) (v : Word) : (s.setReg k v).sec = s.sec := rfl
@[simp] theorem State.setReg_cmd (k : Nat) (v : Word) : (s.setReg k v).cmd = s.cmd := rfl
@[simp] theorem State.setReg_cyc (k : Nat) (v : Word) : (s.setReg k v).cyc = s.cyc := rfl
@[simp] theorem State.setReg_free (k : Nat) (v : Word) : (s.setReg k v).free = s.free := rfl
@[simp] theorem State.setReg_pending (k : Nat) (v : Word) : (s.setReg k v).pending = s.pending := rfl

@[simp] theorem State.modVlt_regs (f : VltState → VltState) : (s.modVlt f).regs = s.regs := rfl
@[simp] theorem State.modVlt_host (f : VltState → VltState) : (s.modVlt f).host = s.host := rfl
@[simp] theorem State.modVlt_remote (f : VltState → VltState) : (s.modVlt f).remote = s.remote := rfl
@[simp] theorem State.modVlt_fabric (f : VltState → VltState) : (s.modVlt f).fabric = s.fabric := rfl
@[simp] theorem State.modVlt_acted (f : VltState → VltState) : (s.modVlt f).acted = s.acted := rfl
@[simp] theorem State.modVlt_actedAt (f : VltState → VltState) : (s.modVlt f).actedAt = s.actedAt := rfl
@[simp] theorem State.modVlt_pulses (f : VltState → VltState) : (s.modVlt f).pulses = s.pulses := rfl
@[simp] theorem State.modVlt_posted (f : VltState → VltState) : (s.modVlt f).posted = s.posted := rfl
@[simp] theorem State.modVlt_q6 (f : VltState → VltState) : (s.modVlt f).q6 = s.q6 := rfl
@[simp] theorem State.modVlt_q7 (f : VltState → VltState) : (s.modVlt f).q7 = s.q7 := rfl
@[simp] theorem State.modVlt_clk (f : VltState → VltState) : (s.modVlt f).clk = s.clk := rfl
@[simp] theorem State.modVlt_tim (f : VltState → VltState) : (s.modVlt f).tim = s.tim := rfl
@[simp] theorem State.modVlt_keep (f : VltState → VltState) : (s.modVlt f).keep = s.keep := rfl
@[simp] theorem State.modVlt_pwr (f : VltState → VltState) : (s.modVlt f).pwr = s.pwr := rfl
@[simp] theorem State.modVlt_vlt (f : VltState → VltState) : (s.modVlt f).vlt = f s.vlt := rfl
@[simp] theorem State.modVlt_pwm (f : VltState → VltState) : (s.modVlt f).pwm = s.pwm := rfl
@[simp] theorem State.modVlt_lmp (f : VltState → VltState) : (s.modVlt f).lmp = s.lmp := rfl
@[simp] theorem State.modVlt_fde (f : VltState → VltState) : (s.modVlt f).fde = s.fde := rfl
@[simp] theorem State.modVlt_hlt (f : VltState → VltState) : (s.modVlt f).hlt = s.hlt := rfl
@[simp] theorem State.modVlt_phy (f : VltState → VltState) : (s.modVlt f).phy = s.phy := rfl
@[simp] theorem State.modVlt_mac (f : VltState → VltState) : (s.modVlt f).mac = s.mac := rfl
@[simp] theorem State.modVlt_gtu (f : VltState → VltState) : (s.modVlt f).gtu = s.gtu := rfl
@[simp] theorem State.modVlt_sec (f : VltState → VltState) : (s.modVlt f).sec = s.sec := rfl
@[simp] theorem State.modVlt_cmd (f : VltState → VltState) : (s.modVlt f).cmd = s.cmd := rfl
@[simp] theorem State.modVlt_cyc (f : VltState → VltState) : (s.modVlt f).cyc = s.cyc := rfl
@[simp] theorem State.modVlt_free (f : VltState → VltState) : (s.modVlt f).free = s.free := rfl
@[simp] theorem State.modVlt_pending (f : VltState → VltState) : (s.modVlt f).pending = s.pending := rfl

@[simp] theorem State.modPwm_regs (f : PwmState → PwmState) : (s.modPwm f).regs = s.regs := rfl
@[simp] theorem State.modPwm_host (f : PwmState → PwmState) : (s.modPwm f).host = s.host := rfl
@[simp] theorem State.modPwm_remote (f : PwmState → PwmState) : (s.modPwm f).remote = s.remote := rfl
@[simp] theorem State.modPwm_fabric (f : PwmState → PwmState) : (s.modPwm f).fabric = s.fabric := rfl
@[simp] theorem State.modPwm_acted (f : PwmState → PwmState) : (s.modPwm f).acted = s.acted := rfl
@[simp] theorem State.modPwm_actedAt (f : PwmState → PwmState) : (s.modPwm f).actedAt = s.actedAt := rfl
@[simp] theorem State.modPwm_pulses (f : PwmState → PwmState) : (s.modPwm f).pulses = s.pulses := rfl
@[simp] theorem State.modPwm_posted (f : PwmState → PwmState) : (s.modPwm f).posted = s.posted := rfl
@[simp] theorem State.modPwm_q6 (f : PwmState → PwmState) : (s.modPwm f).q6 = s.q6 := rfl
@[simp] theorem State.modPwm_q7 (f : PwmState → PwmState) : (s.modPwm f).q7 = s.q7 := rfl
@[simp] theorem State.modPwm_clk (f : PwmState → PwmState) : (s.modPwm f).clk = s.clk := rfl
@[simp] theorem State.modPwm_tim (f : PwmState → PwmState) : (s.modPwm f).tim = s.tim := rfl
@[simp] theorem State.modPwm_keep (f : PwmState → PwmState) : (s.modPwm f).keep = s.keep := rfl
@[simp] theorem State.modPwm_pwr (f : PwmState → PwmState) : (s.modPwm f).pwr = s.pwr := rfl
@[simp] theorem State.modPwm_vlt (f : PwmState → PwmState) : (s.modPwm f).vlt = s.vlt := rfl
@[simp] theorem State.modPwm_pwm (f : PwmState → PwmState) : (s.modPwm f).pwm = f s.pwm := rfl
@[simp] theorem State.modPwm_lmp (f : PwmState → PwmState) : (s.modPwm f).lmp = s.lmp := rfl
@[simp] theorem State.modPwm_fde (f : PwmState → PwmState) : (s.modPwm f).fde = s.fde := rfl
@[simp] theorem State.modPwm_hlt (f : PwmState → PwmState) : (s.modPwm f).hlt = s.hlt := rfl
@[simp] theorem State.modPwm_phy (f : PwmState → PwmState) : (s.modPwm f).phy = s.phy := rfl
@[simp] theorem State.modPwm_mac (f : PwmState → PwmState) : (s.modPwm f).mac = s.mac := rfl
@[simp] theorem State.modPwm_gtu (f : PwmState → PwmState) : (s.modPwm f).gtu = s.gtu := rfl
@[simp] theorem State.modPwm_sec (f : PwmState → PwmState) : (s.modPwm f).sec = s.sec := rfl
@[simp] theorem State.modPwm_cmd (f : PwmState → PwmState) : (s.modPwm f).cmd = s.cmd := rfl
@[simp] theorem State.modPwm_cyc (f : PwmState → PwmState) : (s.modPwm f).cyc = s.cyc := rfl
@[simp] theorem State.modPwm_free (f : PwmState → PwmState) : (s.modPwm f).free = s.free := rfl
@[simp] theorem State.modPwm_pending (f : PwmState → PwmState) : (s.modPwm f).pending = s.pending := rfl

@[simp] theorem State.modLmp_regs (f : LmpState → LmpState) : (s.modLmp f).regs = s.regs := rfl
@[simp] theorem State.modLmp_host (f : LmpState → LmpState) : (s.modLmp f).host = s.host := rfl
@[simp] theorem State.modLmp_remote (f : LmpState → LmpState) : (s.modLmp f).remote = s.remote := rfl
@[simp] theorem State.modLmp_fabric (f : LmpState → LmpState) : (s.modLmp f).fabric = s.fabric := rfl
@[simp] theorem State.modLmp_acted (f : LmpState → LmpState) : (s.modLmp f).acted = s.acted := rfl
@[simp] theorem State.modLmp_actedAt (f : LmpState → LmpState) : (s.modLmp f).actedAt = s.actedAt := rfl
@[simp] theorem State.modLmp_pulses (f : LmpState → LmpState) : (s.modLmp f).pulses = s.pulses := rfl
@[simp] theorem State.modLmp_posted (f : LmpState → LmpState) : (s.modLmp f).posted = s.posted := rfl
@[simp] theorem State.modLmp_q6 (f : LmpState → LmpState) : (s.modLmp f).q6 = s.q6 := rfl
@[simp] theorem State.modLmp_q7 (f : LmpState → LmpState) : (s.modLmp f).q7 = s.q7 := rfl
@[simp] theorem State.modLmp_clk (f : LmpState → LmpState) : (s.modLmp f).clk = s.clk := rfl
@[simp] theorem State.modLmp_tim (f : LmpState → LmpState) : (s.modLmp f).tim = s.tim := rfl
@[simp] theorem State.modLmp_keep (f : LmpState → LmpState) : (s.modLmp f).keep = s.keep := rfl
@[simp] theorem State.modLmp_pwr (f : LmpState → LmpState) : (s.modLmp f).pwr = s.pwr := rfl
@[simp] theorem State.modLmp_vlt (f : LmpState → LmpState) : (s.modLmp f).vlt = s.vlt := rfl
@[simp] theorem State.modLmp_pwm (f : LmpState → LmpState) : (s.modLmp f).pwm = s.pwm := rfl
@[simp] theorem State.modLmp_lmp (f : LmpState → LmpState) : (s.modLmp f).lmp = f s.lmp := rfl
@[simp] theorem State.modLmp_fde (f : LmpState → LmpState) : (s.modLmp f).fde = s.fde := rfl
@[simp] theorem State.modLmp_hlt (f : LmpState → LmpState) : (s.modLmp f).hlt = s.hlt := rfl
@[simp] theorem State.modLmp_phy (f : LmpState → LmpState) : (s.modLmp f).phy = s.phy := rfl
@[simp] theorem State.modLmp_mac (f : LmpState → LmpState) : (s.modLmp f).mac = s.mac := rfl
@[simp] theorem State.modLmp_gtu (f : LmpState → LmpState) : (s.modLmp f).gtu = s.gtu := rfl
@[simp] theorem State.modLmp_sec (f : LmpState → LmpState) : (s.modLmp f).sec = s.sec := rfl
@[simp] theorem State.modLmp_cmd (f : LmpState → LmpState) : (s.modLmp f).cmd = s.cmd := rfl
@[simp] theorem State.modLmp_cyc (f : LmpState → LmpState) : (s.modLmp f).cyc = s.cyc := rfl
@[simp] theorem State.modLmp_free (f : LmpState → LmpState) : (s.modLmp f).free = s.free := rfl
@[simp] theorem State.modLmp_pending (f : LmpState → LmpState) : (s.modLmp f).pending = s.pending := rfl

@[simp] theorem State.modFde_regs (f : FdeState → FdeState) : (s.modFde f).regs = s.regs := rfl
@[simp] theorem State.modFde_host (f : FdeState → FdeState) : (s.modFde f).host = s.host := rfl
@[simp] theorem State.modFde_remote (f : FdeState → FdeState) : (s.modFde f).remote = s.remote := rfl
@[simp] theorem State.modFde_fabric (f : FdeState → FdeState) : (s.modFde f).fabric = s.fabric := rfl
@[simp] theorem State.modFde_acted (f : FdeState → FdeState) : (s.modFde f).acted = s.acted := rfl
@[simp] theorem State.modFde_actedAt (f : FdeState → FdeState) : (s.modFde f).actedAt = s.actedAt := rfl
@[simp] theorem State.modFde_pulses (f : FdeState → FdeState) : (s.modFde f).pulses = s.pulses := rfl
@[simp] theorem State.modFde_posted (f : FdeState → FdeState) : (s.modFde f).posted = s.posted := rfl
@[simp] theorem State.modFde_q6 (f : FdeState → FdeState) : (s.modFde f).q6 = s.q6 := rfl
@[simp] theorem State.modFde_q7 (f : FdeState → FdeState) : (s.modFde f).q7 = s.q7 := rfl
@[simp] theorem State.modFde_clk (f : FdeState → FdeState) : (s.modFde f).clk = s.clk := rfl
@[simp] theorem State.modFde_tim (f : FdeState → FdeState) : (s.modFde f).tim = s.tim := rfl
@[simp] theorem State.modFde_keep (f : FdeState → FdeState) : (s.modFde f).keep = s.keep := rfl
@[simp] theorem State.modFde_pwr (f : FdeState → FdeState) : (s.modFde f).pwr = s.pwr := rfl
@[simp] theorem State.modFde_vlt (f : FdeState → FdeState) : (s.modFde f).vlt = s.vlt := rfl
@[simp] theorem State.modFde_pwm (f : FdeState → FdeState) : (s.modFde f).pwm = s.pwm := rfl
@[simp] theorem State.modFde_lmp (f : FdeState → FdeState) : (s.modFde f).lmp = s.lmp := rfl
@[simp] theorem State.modFde_fde (f : FdeState → FdeState) : (s.modFde f).fde = f s.fde := rfl
@[simp] theorem State.modFde_hlt (f : FdeState → FdeState) : (s.modFde f).hlt = s.hlt := rfl
@[simp] theorem State.modFde_phy (f : FdeState → FdeState) : (s.modFde f).phy = s.phy := rfl
@[simp] theorem State.modFde_mac (f : FdeState → FdeState) : (s.modFde f).mac = s.mac := rfl
@[simp] theorem State.modFde_gtu (f : FdeState → FdeState) : (s.modFde f).gtu = s.gtu := rfl
@[simp] theorem State.modFde_sec (f : FdeState → FdeState) : (s.modFde f).sec = s.sec := rfl
@[simp] theorem State.modFde_cmd (f : FdeState → FdeState) : (s.modFde f).cmd = s.cmd := rfl
@[simp] theorem State.modFde_cyc (f : FdeState → FdeState) : (s.modFde f).cyc = s.cyc := rfl
@[simp] theorem State.modFde_free (f : FdeState → FdeState) : (s.modFde f).free = s.free := rfl
@[simp] theorem State.modFde_pending (f : FdeState → FdeState) : (s.modFde f).pending = s.pending := rfl

@[simp] theorem State.modHlt_regs (f : HltState → HltState) : (s.modHlt f).regs = s.regs := rfl
@[simp] theorem State.modHlt_host (f : HltState → HltState) : (s.modHlt f).host = s.host := rfl
@[simp] theorem State.modHlt_remote (f : HltState → HltState) : (s.modHlt f).remote = s.remote := rfl
@[simp] theorem State.modHlt_fabric (f : HltState → HltState) : (s.modHlt f).fabric = s.fabric := rfl
@[simp] theorem State.modHlt_acted (f : HltState → HltState) : (s.modHlt f).acted = s.acted := rfl
@[simp] theorem State.modHlt_actedAt (f : HltState → HltState) : (s.modHlt f).actedAt = s.actedAt := rfl
@[simp] theorem State.modHlt_pulses (f : HltState → HltState) : (s.modHlt f).pulses = s.pulses := rfl
@[simp] theorem State.modHlt_posted (f : HltState → HltState) : (s.modHlt f).posted = s.posted := rfl
@[simp] theorem State.modHlt_q6 (f : HltState → HltState) : (s.modHlt f).q6 = s.q6 := rfl
@[simp] theorem State.modHlt_q7 (f : HltState → HltState) : (s.modHlt f).q7 = s.q7 := rfl
@[simp] theorem State.modHlt_clk (f : HltState → HltState) : (s.modHlt f).clk = s.clk := rfl
@[simp] theorem State.modHlt_tim (f : HltState → HltState) : (s.modHlt f).tim = s.tim := rfl
@[simp] theorem State.modHlt_keep (f : HltState → HltState) : (s.modHlt f).keep = s.keep := rfl
@[simp] theorem State.modHlt_pwr (f : HltState → HltState) : (s.modHlt f).pwr = s.pwr := rfl
@[simp] theorem State.modHlt_vlt (f : HltState → HltState) : (s.modHlt f).vlt = s.vlt := rfl
@[simp] theorem State.modHlt_pwm (f : HltState → HltState) : (s.modHlt f).pwm = s.pwm := rfl
@[simp] theorem State.modHlt_lmp (f : HltState → HltState) : (s.modHlt f).lmp = s.lmp := rfl
@[simp] theorem State.modHlt_fde (f : HltState → HltState) : (s.modHlt f).fde = s.fde := rfl
@[simp] theorem State.modHlt_hlt (f : HltState → HltState) : (s.modHlt f).hlt = f s.hlt := rfl
@[simp] theorem State.modHlt_phy (f : HltState → HltState) : (s.modHlt f).phy = s.phy := rfl
@[simp] theorem State.modHlt_mac (f : HltState → HltState) : (s.modHlt f).mac = s.mac := rfl
@[simp] theorem State.modHlt_gtu (f : HltState → HltState) : (s.modHlt f).gtu = s.gtu := rfl
@[simp] theorem State.modHlt_sec (f : HltState → HltState) : (s.modHlt f).sec = s.sec := rfl
@[simp] theorem State.modHlt_cmd (f : HltState → HltState) : (s.modHlt f).cmd = s.cmd := rfl
@[simp] theorem State.modHlt_cyc (f : HltState → HltState) : (s.modHlt f).cyc = s.cyc := rfl
@[simp] theorem State.modHlt_free (f : HltState → HltState) : (s.modHlt f).free = s.free := rfl
@[simp] theorem State.modHlt_pending (f : HltState → HltState) : (s.modHlt f).pending = s.pending := rfl

@[simp] theorem State.modPhy_regs (f : PhyState → PhyState) : (s.modPhy f).regs = s.regs := rfl
@[simp] theorem State.modPhy_host (f : PhyState → PhyState) : (s.modPhy f).host = s.host := rfl
@[simp] theorem State.modPhy_remote (f : PhyState → PhyState) : (s.modPhy f).remote = s.remote := rfl
@[simp] theorem State.modPhy_fabric (f : PhyState → PhyState) : (s.modPhy f).fabric = s.fabric := rfl
@[simp] theorem State.modPhy_acted (f : PhyState → PhyState) : (s.modPhy f).acted = s.acted := rfl
@[simp] theorem State.modPhy_actedAt (f : PhyState → PhyState) : (s.modPhy f).actedAt = s.actedAt := rfl
@[simp] theorem State.modPhy_pulses (f : PhyState → PhyState) : (s.modPhy f).pulses = s.pulses := rfl
@[simp] theorem State.modPhy_posted (f : PhyState → PhyState) : (s.modPhy f).posted = s.posted := rfl
@[simp] theorem State.modPhy_q6 (f : PhyState → PhyState) : (s.modPhy f).q6 = s.q6 := rfl
@[simp] theorem State.modPhy_q7 (f : PhyState → PhyState) : (s.modPhy f).q7 = s.q7 := rfl
@[simp] theorem State.modPhy_clk (f : PhyState → PhyState) : (s.modPhy f).clk = s.clk := rfl
@[simp] theorem State.modPhy_tim (f : PhyState → PhyState) : (s.modPhy f).tim = s.tim := rfl
@[simp] theorem State.modPhy_keep (f : PhyState → PhyState) : (s.modPhy f).keep = s.keep := rfl
@[simp] theorem State.modPhy_pwr (f : PhyState → PhyState) : (s.modPhy f).pwr = s.pwr := rfl
@[simp] theorem State.modPhy_vlt (f : PhyState → PhyState) : (s.modPhy f).vlt = s.vlt := rfl
@[simp] theorem State.modPhy_pwm (f : PhyState → PhyState) : (s.modPhy f).pwm = s.pwm := rfl
@[simp] theorem State.modPhy_lmp (f : PhyState → PhyState) : (s.modPhy f).lmp = s.lmp := rfl
@[simp] theorem State.modPhy_fde (f : PhyState → PhyState) : (s.modPhy f).fde = s.fde := rfl
@[simp] theorem State.modPhy_hlt (f : PhyState → PhyState) : (s.modPhy f).hlt = s.hlt := rfl
@[simp] theorem State.modPhy_phy (f : PhyState → PhyState) : (s.modPhy f).phy = f s.phy := rfl
@[simp] theorem State.modPhy_mac (f : PhyState → PhyState) : (s.modPhy f).mac = s.mac := rfl
@[simp] theorem State.modPhy_gtu (f : PhyState → PhyState) : (s.modPhy f).gtu = s.gtu := rfl
@[simp] theorem State.modPhy_sec (f : PhyState → PhyState) : (s.modPhy f).sec = s.sec := rfl
@[simp] theorem State.modPhy_cmd (f : PhyState → PhyState) : (s.modPhy f).cmd = s.cmd := rfl
@[simp] theorem State.modPhy_cyc (f : PhyState → PhyState) : (s.modPhy f).cyc = s.cyc := rfl
@[simp] theorem State.modPhy_free (f : PhyState → PhyState) : (s.modPhy f).free = s.free := rfl
@[simp] theorem State.modPhy_pending (f : PhyState → PhyState) : (s.modPhy f).pending = s.pending := rfl

@[simp] theorem State.modMac_regs (f : MacState → MacState) : (s.modMac f).regs = s.regs := rfl
@[simp] theorem State.modMac_host (f : MacState → MacState) : (s.modMac f).host = s.host := rfl
@[simp] theorem State.modMac_remote (f : MacState → MacState) : (s.modMac f).remote = s.remote := rfl
@[simp] theorem State.modMac_fabric (f : MacState → MacState) : (s.modMac f).fabric = s.fabric := rfl
@[simp] theorem State.modMac_acted (f : MacState → MacState) : (s.modMac f).acted = s.acted := rfl
@[simp] theorem State.modMac_actedAt (f : MacState → MacState) : (s.modMac f).actedAt = s.actedAt := rfl
@[simp] theorem State.modMac_pulses (f : MacState → MacState) : (s.modMac f).pulses = s.pulses := rfl
@[simp] theorem State.modMac_posted (f : MacState → MacState) : (s.modMac f).posted = s.posted := rfl
@[simp] theorem State.modMac_q6 (f : MacState → MacState) : (s.modMac f).q6 = s.q6 := rfl
@[simp] theorem State.modMac_q7 (f : MacState → MacState) : (s.modMac f).q7 = s.q7 := rfl
@[simp] theorem State.modMac_clk (f : MacState → MacState) : (s.modMac f).clk = s.clk := rfl
@[simp] theorem State.modMac_tim (f : MacState → MacState) : (s.modMac f).tim = s.tim := rfl
@[simp] theorem State.modMac_keep (f : MacState → MacState) : (s.modMac f).keep = s.keep := rfl
@[simp] theorem State.modMac_pwr (f : MacState → MacState) : (s.modMac f).pwr = s.pwr := rfl
@[simp] theorem State.modMac_vlt (f : MacState → MacState) : (s.modMac f).vlt = s.vlt := rfl
@[simp] theorem State.modMac_pwm (f : MacState → MacState) : (s.modMac f).pwm = s.pwm := rfl
@[simp] theorem State.modMac_lmp (f : MacState → MacState) : (s.modMac f).lmp = s.lmp := rfl
@[simp] theorem State.modMac_fde (f : MacState → MacState) : (s.modMac f).fde = s.fde := rfl
@[simp] theorem State.modMac_hlt (f : MacState → MacState) : (s.modMac f).hlt = s.hlt := rfl
@[simp] theorem State.modMac_phy (f : MacState → MacState) : (s.modMac f).phy = s.phy := rfl
@[simp] theorem State.modMac_mac (f : MacState → MacState) : (s.modMac f).mac = f s.mac := rfl
@[simp] theorem State.modMac_gtu (f : MacState → MacState) : (s.modMac f).gtu = s.gtu := rfl
@[simp] theorem State.modMac_sec (f : MacState → MacState) : (s.modMac f).sec = s.sec := rfl
@[simp] theorem State.modMac_cmd (f : MacState → MacState) : (s.modMac f).cmd = s.cmd := rfl
@[simp] theorem State.modMac_cyc (f : MacState → MacState) : (s.modMac f).cyc = s.cyc := rfl
@[simp] theorem State.modMac_free (f : MacState → MacState) : (s.modMac f).free = s.free := rfl
@[simp] theorem State.modMac_pending (f : MacState → MacState) : (s.modMac f).pending = s.pending := rfl

@[simp] theorem State.modTim_regs (f : TimState → TimState) : (s.modTim f).regs = s.regs := rfl
@[simp] theorem State.modTim_host (f : TimState → TimState) : (s.modTim f).host = s.host := rfl
@[simp] theorem State.modTim_remote (f : TimState → TimState) : (s.modTim f).remote = s.remote := rfl
@[simp] theorem State.modTim_fabric (f : TimState → TimState) : (s.modTim f).fabric = s.fabric := rfl
@[simp] theorem State.modTim_acted (f : TimState → TimState) : (s.modTim f).acted = s.acted := rfl
@[simp] theorem State.modTim_actedAt (f : TimState → TimState) : (s.modTim f).actedAt = s.actedAt := rfl
@[simp] theorem State.modTim_pulses (f : TimState → TimState) : (s.modTim f).pulses = s.pulses := rfl
@[simp] theorem State.modTim_posted (f : TimState → TimState) : (s.modTim f).posted = s.posted := rfl
@[simp] theorem State.modTim_q6 (f : TimState → TimState) : (s.modTim f).q6 = s.q6 := rfl
@[simp] theorem State.modTim_q7 (f : TimState → TimState) : (s.modTim f).q7 = s.q7 := rfl
@[simp] theorem State.modTim_clk (f : TimState → TimState) : (s.modTim f).clk = s.clk := rfl
@[simp] theorem State.modTim_tim (f : TimState → TimState) : (s.modTim f).tim = f s.tim := rfl
@[simp] theorem State.modTim_keep (f : TimState → TimState) : (s.modTim f).keep = s.keep := rfl
@[simp] theorem State.modTim_pwr (f : TimState → TimState) : (s.modTim f).pwr = s.pwr := rfl
@[simp] theorem State.modTim_vlt (f : TimState → TimState) : (s.modTim f).vlt = s.vlt := rfl
@[simp] theorem State.modTim_pwm (f : TimState → TimState) : (s.modTim f).pwm = s.pwm := rfl
@[simp] theorem State.modTim_lmp (f : TimState → TimState) : (s.modTim f).lmp = s.lmp := rfl
@[simp] theorem State.modTim_fde (f : TimState → TimState) : (s.modTim f).fde = s.fde := rfl
@[simp] theorem State.modTim_hlt (f : TimState → TimState) : (s.modTim f).hlt = s.hlt := rfl
@[simp] theorem State.modTim_phy (f : TimState → TimState) : (s.modTim f).phy = s.phy := rfl
@[simp] theorem State.modTim_mac (f : TimState → TimState) : (s.modTim f).mac = s.mac := rfl
@[simp] theorem State.modTim_gtu (f : TimState → TimState) : (s.modTim f).gtu = s.gtu := rfl
@[simp] theorem State.modTim_sec (f : TimState → TimState) : (s.modTim f).sec = s.sec := rfl
@[simp] theorem State.modTim_cmd (f : TimState → TimState) : (s.modTim f).cmd = s.cmd := rfl
@[simp] theorem State.modTim_cyc (f : TimState → TimState) : (s.modTim f).cyc = s.cyc := rfl
@[simp] theorem State.modTim_free (f : TimState → TimState) : (s.modTim f).free = s.free := rfl
@[simp] theorem State.modTim_pending (f : TimState → TimState) : (s.modTim f).pending = s.pending := rfl

@[simp] theorem State.modKeep_regs (f : KeepState → KeepState) : (s.modKeep f).regs = s.regs := rfl
@[simp] theorem State.modKeep_host (f : KeepState → KeepState) : (s.modKeep f).host = s.host := rfl
@[simp] theorem State.modKeep_remote (f : KeepState → KeepState) : (s.modKeep f).remote = s.remote := rfl
@[simp] theorem State.modKeep_fabric (f : KeepState → KeepState) : (s.modKeep f).fabric = s.fabric := rfl
@[simp] theorem State.modKeep_acted (f : KeepState → KeepState) : (s.modKeep f).acted = s.acted := rfl
@[simp] theorem State.modKeep_actedAt (f : KeepState → KeepState) : (s.modKeep f).actedAt = s.actedAt := rfl
@[simp] theorem State.modKeep_pulses (f : KeepState → KeepState) : (s.modKeep f).pulses = s.pulses := rfl
@[simp] theorem State.modKeep_posted (f : KeepState → KeepState) : (s.modKeep f).posted = s.posted := rfl
@[simp] theorem State.modKeep_q6 (f : KeepState → KeepState) : (s.modKeep f).q6 = s.q6 := rfl
@[simp] theorem State.modKeep_q7 (f : KeepState → KeepState) : (s.modKeep f).q7 = s.q7 := rfl
@[simp] theorem State.modKeep_clk (f : KeepState → KeepState) : (s.modKeep f).clk = s.clk := rfl
@[simp] theorem State.modKeep_tim (f : KeepState → KeepState) : (s.modKeep f).tim = s.tim := rfl
@[simp] theorem State.modKeep_keep (f : KeepState → KeepState) : (s.modKeep f).keep = f s.keep := rfl
@[simp] theorem State.modKeep_pwr (f : KeepState → KeepState) : (s.modKeep f).pwr = s.pwr := rfl
@[simp] theorem State.modKeep_vlt (f : KeepState → KeepState) : (s.modKeep f).vlt = s.vlt := rfl
@[simp] theorem State.modKeep_pwm (f : KeepState → KeepState) : (s.modKeep f).pwm = s.pwm := rfl
@[simp] theorem State.modKeep_lmp (f : KeepState → KeepState) : (s.modKeep f).lmp = s.lmp := rfl
@[simp] theorem State.modKeep_fde (f : KeepState → KeepState) : (s.modKeep f).fde = s.fde := rfl
@[simp] theorem State.modKeep_hlt (f : KeepState → KeepState) : (s.modKeep f).hlt = s.hlt := rfl
@[simp] theorem State.modKeep_phy (f : KeepState → KeepState) : (s.modKeep f).phy = s.phy := rfl
@[simp] theorem State.modKeep_mac (f : KeepState → KeepState) : (s.modKeep f).mac = s.mac := rfl
@[simp] theorem State.modKeep_gtu (f : KeepState → KeepState) : (s.modKeep f).gtu = s.gtu := rfl
@[simp] theorem State.modKeep_sec (f : KeepState → KeepState) : (s.modKeep f).sec = s.sec := rfl
@[simp] theorem State.modKeep_cmd (f : KeepState → KeepState) : (s.modKeep f).cmd = s.cmd := rfl
@[simp] theorem State.modKeep_cyc (f : KeepState → KeepState) : (s.modKeep f).cyc = s.cyc := rfl
@[simp] theorem State.modKeep_free (f : KeepState → KeepState) : (s.modKeep f).free = s.free := rfl
@[simp] theorem State.modKeep_pending (f : KeepState → KeepState) : (s.modKeep f).pending = s.pending := rfl

@[simp] theorem State.modPwr_regs (f : PwrState → PwrState) : (s.modPwr f).regs = s.regs := rfl
@[simp] theorem State.modPwr_host (f : PwrState → PwrState) : (s.modPwr f).host = s.host := rfl
@[simp] theorem State.modPwr_remote (f : PwrState → PwrState) : (s.modPwr f).remote = s.remote := rfl
@[simp] theorem State.modPwr_fabric (f : PwrState → PwrState) : (s.modPwr f).fabric = s.fabric := rfl
@[simp] theorem State.modPwr_acted (f : PwrState → PwrState) : (s.modPwr f).acted = s.acted := rfl
@[simp] theorem State.modPwr_actedAt (f : PwrState → PwrState) : (s.modPwr f).actedAt = s.actedAt := rfl
@[simp] theorem State.modPwr_pulses (f : PwrState → PwrState) : (s.modPwr f).pulses = s.pulses := rfl
@[simp] theorem State.modPwr_posted (f : PwrState → PwrState) : (s.modPwr f).posted = s.posted := rfl
@[simp] theorem State.modPwr_q6 (f : PwrState → PwrState) : (s.modPwr f).q6 = s.q6 := rfl
@[simp] theorem State.modPwr_q7 (f : PwrState → PwrState) : (s.modPwr f).q7 = s.q7 := rfl
@[simp] theorem State.modPwr_clk (f : PwrState → PwrState) : (s.modPwr f).clk = s.clk := rfl
@[simp] theorem State.modPwr_tim (f : PwrState → PwrState) : (s.modPwr f).tim = s.tim := rfl
@[simp] theorem State.modPwr_keep (f : PwrState → PwrState) : (s.modPwr f).keep = s.keep := rfl
@[simp] theorem State.modPwr_pwr (f : PwrState → PwrState) : (s.modPwr f).pwr = f s.pwr := rfl
@[simp] theorem State.modPwr_vlt (f : PwrState → PwrState) : (s.modPwr f).vlt = s.vlt := rfl
@[simp] theorem State.modPwr_pwm (f : PwrState → PwrState) : (s.modPwr f).pwm = s.pwm := rfl
@[simp] theorem State.modPwr_lmp (f : PwrState → PwrState) : (s.modPwr f).lmp = s.lmp := rfl
@[simp] theorem State.modPwr_fde (f : PwrState → PwrState) : (s.modPwr f).fde = s.fde := rfl
@[simp] theorem State.modPwr_hlt (f : PwrState → PwrState) : (s.modPwr f).hlt = s.hlt := rfl
@[simp] theorem State.modPwr_phy (f : PwrState → PwrState) : (s.modPwr f).phy = s.phy := rfl
@[simp] theorem State.modPwr_mac (f : PwrState → PwrState) : (s.modPwr f).mac = s.mac := rfl
@[simp] theorem State.modPwr_gtu (f : PwrState → PwrState) : (s.modPwr f).gtu = s.gtu := rfl
@[simp] theorem State.modPwr_sec (f : PwrState → PwrState) : (s.modPwr f).sec = s.sec := rfl
@[simp] theorem State.modPwr_cmd (f : PwrState → PwrState) : (s.modPwr f).cmd = s.cmd := rfl
@[simp] theorem State.modPwr_cyc (f : PwrState → PwrState) : (s.modPwr f).cyc = s.cyc := rfl
@[simp] theorem State.modPwr_free (f : PwrState → PwrState) : (s.modPwr f).free = s.free := rfl
@[simp] theorem State.modPwr_pending (f : PwrState → PwrState) : (s.modPwr f).pending = s.pending := rfl

@[simp] theorem State.modClk_regs (f : ClkState → ClkState) : (s.modClk f).regs = s.regs := rfl
@[simp] theorem State.modClk_host (f : ClkState → ClkState) : (s.modClk f).host = s.host := rfl
@[simp] theorem State.modClk_remote (f : ClkState → ClkState) : (s.modClk f).remote = s.remote := rfl
@[simp] theorem State.modClk_fabric (f : ClkState → ClkState) : (s.modClk f).fabric = s.fabric := rfl
@[simp] theorem State.modClk_acted (f : ClkState → ClkState) : (s.modClk f).acted = s.acted := rfl
@[simp] theorem State.modClk_actedAt (f : ClkState → ClkState) : (s.modClk f).actedAt = s.actedAt := rfl
@[simp] theorem State.modClk_pulses (f : ClkState → ClkState) : (s.modClk f).pulses = s.pulses := rfl
@[simp] theorem State.modClk_posted (f : ClkState → ClkState) : (s.modClk f).posted = s.posted := rfl
@[simp] theorem State.modClk_q6 (f : ClkState → ClkState) : (s.modClk f).q6 = s.q6 := rfl
@[simp] theorem State.modClk_q7 (f : ClkState → ClkState) : (s.modClk f).q7 = s.q7 := rfl
@[simp] theorem State.modClk_clk (f : ClkState → ClkState) : (s.modClk f).clk = f s.clk := rfl
@[simp] theorem State.modClk_tim (f : ClkState → ClkState) : (s.modClk f).tim = s.tim := rfl
@[simp] theorem State.modClk_keep (f : ClkState → ClkState) : (s.modClk f).keep = s.keep := rfl
@[simp] theorem State.modClk_pwr (f : ClkState → ClkState) : (s.modClk f).pwr = s.pwr := rfl
@[simp] theorem State.modClk_vlt (f : ClkState → ClkState) : (s.modClk f).vlt = s.vlt := rfl
@[simp] theorem State.modClk_pwm (f : ClkState → ClkState) : (s.modClk f).pwm = s.pwm := rfl
@[simp] theorem State.modClk_lmp (f : ClkState → ClkState) : (s.modClk f).lmp = s.lmp := rfl
@[simp] theorem State.modClk_fde (f : ClkState → ClkState) : (s.modClk f).fde = s.fde := rfl
@[simp] theorem State.modClk_hlt (f : ClkState → ClkState) : (s.modClk f).hlt = s.hlt := rfl
@[simp] theorem State.modClk_phy (f : ClkState → ClkState) : (s.modClk f).phy = s.phy := rfl
@[simp] theorem State.modClk_mac (f : ClkState → ClkState) : (s.modClk f).mac = s.mac := rfl
@[simp] theorem State.modClk_gtu (f : ClkState → ClkState) : (s.modClk f).gtu = s.gtu := rfl
@[simp] theorem State.modClk_sec (f : ClkState → ClkState) : (s.modClk f).sec = s.sec := rfl
@[simp] theorem State.modClk_cmd (f : ClkState → ClkState) : (s.modClk f).cmd = s.cmd := rfl
@[simp] theorem State.modClk_cyc (f : ClkState → ClkState) : (s.modClk f).cyc = s.cyc := rfl
@[simp] theorem State.modClk_free (f : ClkState → ClkState) : (s.modClk f).free = s.free := rfl
@[simp] theorem State.modClk_pending (f : ClkState → ClkState) : (s.modClk f).pending = s.pending := rfl

@[simp] theorem State.modSec_regs (f : SecState → SecState) : (s.modSec f).regs = s.regs := rfl
@[simp] theorem State.modSec_host (f : SecState → SecState) : (s.modSec f).host = s.host := rfl
@[simp] theorem State.modSec_remote (f : SecState → SecState) : (s.modSec f).remote = s.remote := rfl
@[simp] theorem State.modSec_fabric (f : SecState → SecState) : (s.modSec f).fabric = s.fabric := rfl
@[simp] theorem State.modSec_acted (f : SecState → SecState) : (s.modSec f).acted = s.acted := rfl
@[simp] theorem State.modSec_actedAt (f : SecState → SecState) : (s.modSec f).actedAt = s.actedAt := rfl
@[simp] theorem State.modSec_pulses (f : SecState → SecState) : (s.modSec f).pulses = s.pulses := rfl
@[simp] theorem State.modSec_posted (f : SecState → SecState) : (s.modSec f).posted = s.posted := rfl
@[simp] theorem State.modSec_q6 (f : SecState → SecState) : (s.modSec f).q6 = s.q6 := rfl
@[simp] theorem State.modSec_q7 (f : SecState → SecState) : (s.modSec f).q7 = s.q7 := rfl
@[simp] theorem State.modSec_clk (f : SecState → SecState) : (s.modSec f).clk = s.clk := rfl
@[simp] theorem State.modSec_tim (f : SecState → SecState) : (s.modSec f).tim = s.tim := rfl
@[simp] theorem State.modSec_keep (f : SecState → SecState) : (s.modSec f).keep = s.keep := rfl
@[simp] theorem State.modSec_pwr (f : SecState → SecState) : (s.modSec f).pwr = s.pwr := rfl
@[simp] theorem State.modSec_vlt (f : SecState → SecState) : (s.modSec f).vlt = s.vlt := rfl
@[simp] theorem State.modSec_pwm (f : SecState → SecState) : (s.modSec f).pwm = s.pwm := rfl
@[simp] theorem State.modSec_lmp (f : SecState → SecState) : (s.modSec f).lmp = s.lmp := rfl
@[simp] theorem State.modSec_fde (f : SecState → SecState) : (s.modSec f).fde = s.fde := rfl
@[simp] theorem State.modSec_hlt (f : SecState → SecState) : (s.modSec f).hlt = s.hlt := rfl
@[simp] theorem State.modSec_phy (f : SecState → SecState) : (s.modSec f).phy = s.phy := rfl
@[simp] theorem State.modSec_mac (f : SecState → SecState) : (s.modSec f).mac = s.mac := rfl
@[simp] theorem State.modSec_gtu (f : SecState → SecState) : (s.modSec f).gtu = s.gtu := rfl
@[simp] theorem State.modSec_sec (f : SecState → SecState) : (s.modSec f).sec = f s.sec := rfl
@[simp] theorem State.modSec_cmd (f : SecState → SecState) : (s.modSec f).cmd = s.cmd := rfl
@[simp] theorem State.modSec_cyc (f : SecState → SecState) : (s.modSec f).cyc = s.cyc := rfl
@[simp] theorem State.modSec_free (f : SecState → SecState) : (s.modSec f).free = s.free := rfl
@[simp] theorem State.modSec_pending (f : SecState → SecState) : (s.modSec f).pending = s.pending := rfl

@[simp] theorem State.modCmd_regs (f : CmdState → CmdState) : (s.modCmd f).regs = s.regs := rfl
@[simp] theorem State.modCmd_host (f : CmdState → CmdState) : (s.modCmd f).host = s.host := rfl
@[simp] theorem State.modCmd_remote (f : CmdState → CmdState) : (s.modCmd f).remote = s.remote := rfl
@[simp] theorem State.modCmd_fabric (f : CmdState → CmdState) : (s.modCmd f).fabric = s.fabric := rfl
@[simp] theorem State.modCmd_acted (f : CmdState → CmdState) : (s.modCmd f).acted = s.acted := rfl
@[simp] theorem State.modCmd_actedAt (f : CmdState → CmdState) : (s.modCmd f).actedAt = s.actedAt := rfl
@[simp] theorem State.modCmd_pulses (f : CmdState → CmdState) : (s.modCmd f).pulses = s.pulses := rfl
@[simp] theorem State.modCmd_posted (f : CmdState → CmdState) : (s.modCmd f).posted = s.posted := rfl
@[simp] theorem State.modCmd_q6 (f : CmdState → CmdState) : (s.modCmd f).q6 = s.q6 := rfl
@[simp] theorem State.modCmd_q7 (f : CmdState → CmdState) : (s.modCmd f).q7 = s.q7 := rfl
@[simp] theorem State.modCmd_clk (f : CmdState → CmdState) : (s.modCmd f).clk = s.clk := rfl
@[simp] theorem State.modCmd_tim (f : CmdState → CmdState) : (s.modCmd f).tim = s.tim := rfl
@[simp] theorem State.modCmd_keep (f : CmdState → CmdState) : (s.modCmd f).keep = s.keep := rfl
@[simp] theorem State.modCmd_pwr (f : CmdState → CmdState) : (s.modCmd f).pwr = s.pwr := rfl
@[simp] theorem State.modCmd_vlt (f : CmdState → CmdState) : (s.modCmd f).vlt = s.vlt := rfl
@[simp] theorem State.modCmd_pwm (f : CmdState → CmdState) : (s.modCmd f).pwm = s.pwm := rfl
@[simp] theorem State.modCmd_lmp (f : CmdState → CmdState) : (s.modCmd f).lmp = s.lmp := rfl
@[simp] theorem State.modCmd_fde (f : CmdState → CmdState) : (s.modCmd f).fde = s.fde := rfl
@[simp] theorem State.modCmd_hlt (f : CmdState → CmdState) : (s.modCmd f).hlt = s.hlt := rfl
@[simp] theorem State.modCmd_phy (f : CmdState → CmdState) : (s.modCmd f).phy = s.phy := rfl
@[simp] theorem State.modCmd_mac (f : CmdState → CmdState) : (s.modCmd f).mac = s.mac := rfl
@[simp] theorem State.modCmd_gtu (f : CmdState → CmdState) : (s.modCmd f).gtu = s.gtu := rfl
@[simp] theorem State.modCmd_sec (f : CmdState → CmdState) : (s.modCmd f).sec = s.sec := rfl
@[simp] theorem State.modCmd_cmd (f : CmdState → CmdState) : (s.modCmd f).cmd = f s.cmd := rfl
@[simp] theorem State.modCmd_cyc (f : CmdState → CmdState) : (s.modCmd f).cyc = s.cyc := rfl
@[simp] theorem State.modCmd_free (f : CmdState → CmdState) : (s.modCmd f).free = s.free := rfl
@[simp] theorem State.modCmd_pending (f : CmdState → CmdState) : (s.modCmd f).pending = s.pending := rfl

@[simp] theorem State.modChan_regs (n : Nat) (f : Chan → Chan) : (s.modChan n f).regs = s.regs := rfl
@[simp] theorem State.modChan_host (n : Nat) (f : Chan → Chan) : (s.modChan n f).host = s.host := rfl
@[simp] theorem State.modChan_remote (n : Nat) (f : Chan → Chan) : (s.modChan n f).remote = s.remote := rfl
@[simp] theorem State.modChan_fabric (n : Nat) (f : Chan → Chan) : (s.modChan n f).fabric = s.fabric := rfl
@[simp] theorem State.modChan_acted (n : Nat) (f : Chan → Chan) : (s.modChan n f).acted = s.acted := rfl
@[simp] theorem State.modChan_actedAt (n : Nat) (f : Chan → Chan) : (s.modChan n f).actedAt = s.actedAt := rfl
@[simp] theorem State.modChan_pulses (n : Nat) (f : Chan → Chan) : (s.modChan n f).pulses = s.pulses := rfl
@[simp] theorem State.modChan_posted (n : Nat) (f : Chan → Chan) : (s.modChan n f).posted = s.posted := rfl
@[simp] theorem State.modChan_q6 (n : Nat) (f : Chan → Chan) : (s.modChan n f).q6 = s.q6 := rfl
@[simp] theorem State.modChan_q7 (n : Nat) (f : Chan → Chan) : (s.modChan n f).q7 = s.q7 := rfl
@[simp] theorem State.modChan_clk (n : Nat) (f : Chan → Chan) : (s.modChan n f).clk = s.clk := rfl
@[simp] theorem State.modChan_tim (n : Nat) (f : Chan → Chan) : (s.modChan n f).tim = s.tim := rfl
@[simp] theorem State.modChan_keep (n : Nat) (f : Chan → Chan) : (s.modChan n f).keep = s.keep := rfl
@[simp] theorem State.modChan_pwr (n : Nat) (f : Chan → Chan) : (s.modChan n f).pwr = s.pwr := rfl
@[simp] theorem State.modChan_vlt (n : Nat) (f : Chan → Chan) : (s.modChan n f).vlt = s.vlt := rfl
@[simp] theorem State.modChan_lmp (n : Nat) (f : Chan → Chan) : (s.modChan n f).lmp = s.lmp := rfl
@[simp] theorem State.modChan_fde (n : Nat) (f : Chan → Chan) : (s.modChan n f).fde = s.fde := rfl
@[simp] theorem State.modChan_hlt (n : Nat) (f : Chan → Chan) : (s.modChan n f).hlt = s.hlt := rfl
@[simp] theorem State.modChan_phy (n : Nat) (f : Chan → Chan) : (s.modChan n f).phy = s.phy := rfl
@[simp] theorem State.modChan_mac (n : Nat) (f : Chan → Chan) : (s.modChan n f).mac = s.mac := rfl
@[simp] theorem State.modChan_gtu (n : Nat) (f : Chan → Chan) : (s.modChan n f).gtu = s.gtu := rfl
@[simp] theorem State.modChan_sec (n : Nat) (f : Chan → Chan) : (s.modChan n f).sec = s.sec := rfl
@[simp] theorem State.modChan_cmd (n : Nat) (f : Chan → Chan) : (s.modChan n f).cmd = s.cmd := rfl
@[simp] theorem State.modChan_cyc (n : Nat) (f : Chan → Chan) : (s.modChan n f).cyc = s.cyc := rfl
@[simp] theorem State.modChan_free (n : Nat) (f : Chan → Chan) : (s.modChan n f).free = s.free := rfl
@[simp] theorem State.modChan_pending (n : Nat) (f : Chan → Chan) : (s.modChan n f).pending = s.pending := rfl

@[simp] theorem State.modFlamp_regs (n : Nat) (f : FLamp → FLamp) : (s.modFlamp n f).regs = s.regs := rfl
@[simp] theorem State.modFlamp_host (n : Nat) (f : FLamp → FLamp) : (s.modFlamp n f).host = s.host := rfl
@[simp] theorem State.modFlamp_remote (n : Nat) (f : FLamp → FLamp) : (s.modFlamp n f).remote = s.remote := rfl
@[simp] theorem State.modFlamp_fabric (n : Nat) (f : FLamp → FLamp) : (s.modFlamp n f).fabric = s.fabric := rfl
@[simp] theorem State.modFlamp_acted (n : Nat) (f : FLamp → FLamp) : (s.modFlamp n f).acted = s.acted := rfl
@[simp] theorem State.modFlamp_actedAt (n : Nat) (f : FLamp → FLamp) : (s.modFlamp n f).actedAt = s.actedAt := rfl
@[simp] theorem State.modFlamp_pulses (n : Nat) (f : FLamp → FLamp) : (s.modFlamp n f).pulses = s.pulses := rfl
@[simp] theorem State.modFlamp_posted (n : Nat) (f : FLamp → FLamp) : (s.modFlamp n f).posted = s.posted := rfl
@[simp] theorem State.modFlamp_q6 (n : Nat) (f : FLamp → FLamp) : (s.modFlamp n f).q6 = s.q6 := rfl
@[simp] theorem State.modFlamp_q7 (n : Nat) (f : FLamp → FLamp) : (s.modFlamp n f).q7 = s.q7 := rfl
@[simp] theorem State.modFlamp_clk (n : Nat) (f : FLamp → FLamp) : (s.modFlamp n f).clk = s.clk := rfl
@[simp] theorem State.modFlamp_tim (n : Nat) (f : FLamp → FLamp) : (s.modFlamp n f).tim = s.tim := rfl
@[simp] theorem State.modFlamp_keep (n : Nat) (f : FLamp → FLamp) : (s.modFlamp n f).keep = s.keep := rfl
@[simp] theorem State.modFlamp_pwr (n : Nat) (f : FLamp → FLamp) : (s.modFlamp n f).pwr = s.pwr := rfl
@[simp] theorem State.modFlamp_vlt (n : Nat) (f : FLamp → FLamp) : (s.modFlamp n f).vlt = s.vlt := rfl
@[simp] theorem State.modFlamp_pwm (n : Nat) (f : FLamp → FLamp) : (s.modFlamp n f).pwm = s.pwm := rfl
@[simp] theorem State.modFlamp_lmp (n : Nat) (f : FLamp → FLamp) : (s.modFlamp n f).lmp = s.lmp := rfl
@[simp] theorem State.modFlamp_hlt (n : Nat) (f : FLamp → FLamp) : (s.modFlamp n f).hlt = s.hlt := rfl
@[simp] theorem State.modFlamp_phy (n : Nat) (f : FLamp → FLamp) : (s.modFlamp n f).phy = s.phy := rfl
@[simp] theorem State.modFlamp_mac (n : Nat) (f : FLamp → FLamp) : (s.modFlamp n f).mac = s.mac := rfl
@[simp] theorem State.modFlamp_gtu (n : Nat) (f : FLamp → FLamp) : (s.modFlamp n f).gtu = s.gtu := rfl
@[simp] theorem State.modFlamp_sec (n : Nat) (f : FLamp → FLamp) : (s.modFlamp n f).sec = s.sec := rfl
@[simp] theorem State.modFlamp_cmd (n : Nat) (f : FLamp → FLamp) : (s.modFlamp n f).cmd = s.cmd := rfl
@[simp] theorem State.modFlamp_cyc (n : Nat) (f : FLamp → FLamp) : (s.modFlamp n f).cyc = s.cyc := rfl
@[simp] theorem State.modFlamp_free (n : Nat) (f : FLamp → FLamp) : (s.modFlamp n f).free = s.free := rfl
@[simp] theorem State.modFlamp_pending (n : Nat) (f : FLamp → FLamp) : (s.modFlamp n f).pending = s.pending := rfl

@[simp] theorem State.modHchan_regs (n : Nat) (f : HChan → HChan) : (s.modHchan n f).regs = s.regs := rfl
@[simp] theorem State.modHchan_host (n : Nat) (f : HChan → HChan) : (s.modHchan n f).host = s.host := rfl
@[simp] theorem State.modHchan_remote (n : Nat) (f : HChan → HChan) : (s.modHchan n f).remote = s.remote := rfl
@[simp] theorem State.modHchan_fabric (n : Nat) (f : HChan → HChan) : (s.modHchan n f).fabric = s.fabric := rfl
@[simp] theorem State.modHchan_acted (n : Nat) (f : HChan → HChan) : (s.modHchan n f).acted = s.acted := rfl
@[simp] theorem State.modHchan_actedAt (n : Nat) (f : HChan → HChan) : (s.modHchan n f).actedAt = s.actedAt := rfl
@[simp] theorem State.modHchan_pulses (n : Nat) (f : HChan → HChan) : (s.modHchan n f).pulses = s.pulses := rfl
@[simp] theorem State.modHchan_posted (n : Nat) (f : HChan → HChan) : (s.modHchan n f).posted = s.posted := rfl
@[simp] theorem State.modHchan_q6 (n : Nat) (f : HChan → HChan) : (s.modHchan n f).q6 = s.q6 := rfl
@[simp] theorem State.modHchan_q7 (n : Nat) (f : HChan → HChan) : (s.modHchan n f).q7 = s.q7 := rfl
@[simp] theorem State.modHchan_clk (n : Nat) (f : HChan → HChan) : (s.modHchan n f).clk = s.clk := rfl
@[simp] theorem State.modHchan_tim (n : Nat) (f : HChan → HChan) : (s.modHchan n f).tim = s.tim := rfl
@[simp] theorem State.modHchan_keep (n : Nat) (f : HChan → HChan) : (s.modHchan n f).keep = s.keep := rfl
@[simp] theorem State.modHchan_pwr (n : Nat) (f : HChan → HChan) : (s.modHchan n f).pwr = s.pwr := rfl
@[simp] theorem State.modHchan_vlt (n : Nat) (f : HChan → HChan) : (s.modHchan n f).vlt = s.vlt := rfl
@[simp] theorem State.modHchan_pwm (n : Nat) (f : HChan → HChan) : (s.modHchan n f).pwm = s.pwm := rfl
@[simp] theorem State.modHchan_lmp (n : Nat) (f : HChan → HChan) : (s.modHchan n f).lmp = s.lmp := rfl
@[simp] theorem State.modHchan_fde (n : Nat) (f : HChan → HChan) : (s.modHchan n f).fde = s.fde := rfl
@[simp] theorem State.modHchan_phy (n : Nat) (f : HChan → HChan) : (s.modHchan n f).phy = s.phy := rfl
@[simp] theorem State.modHchan_mac (n : Nat) (f : HChan → HChan) : (s.modHchan n f).mac = s.mac := rfl
@[simp] theorem State.modHchan_gtu (n : Nat) (f : HChan → HChan) : (s.modHchan n f).gtu = s.gtu := rfl
@[simp] theorem State.modHchan_sec (n : Nat) (f : HChan → HChan) : (s.modHchan n f).sec = s.sec := rfl
@[simp] theorem State.modHchan_cmd (n : Nat) (f : HChan → HChan) : (s.modHchan n f).cmd = s.cmd := rfl
@[simp] theorem State.modHchan_cyc (n : Nat) (f : HChan → HChan) : (s.modHchan n f).cyc = s.cyc := rfl
@[simp] theorem State.modHchan_free (n : Nat) (f : HChan → HChan) : (s.modHchan n f).free = s.free := rfl
@[simp] theorem State.modHchan_pending (n : Nat) (f : HChan → HChan) : (s.modHchan n f).pending = s.pending := rfl

@[simp] theorem State.modGt_regs (n : Nat) (f : GtChan → GtChan) : (s.modGt n f).regs = s.regs := rfl
@[simp] theorem State.modGt_host (n : Nat) (f : GtChan → GtChan) : (s.modGt n f).host = s.host := rfl
@[simp] theorem State.modGt_remote (n : Nat) (f : GtChan → GtChan) : (s.modGt n f).remote = s.remote := rfl
@[simp] theorem State.modGt_fabric (n : Nat) (f : GtChan → GtChan) : (s.modGt n f).fabric = s.fabric := rfl
@[simp] theorem State.modGt_acted (n : Nat) (f : GtChan → GtChan) : (s.modGt n f).acted = s.acted := rfl
@[simp] theorem State.modGt_actedAt (n : Nat) (f : GtChan → GtChan) : (s.modGt n f).actedAt = s.actedAt := rfl
@[simp] theorem State.modGt_pulses (n : Nat) (f : GtChan → GtChan) : (s.modGt n f).pulses = s.pulses := rfl
@[simp] theorem State.modGt_posted (n : Nat) (f : GtChan → GtChan) : (s.modGt n f).posted = s.posted := rfl
@[simp] theorem State.modGt_q6 (n : Nat) (f : GtChan → GtChan) : (s.modGt n f).q6 = s.q6 := rfl
@[simp] theorem State.modGt_q7 (n : Nat) (f : GtChan → GtChan) : (s.modGt n f).q7 = s.q7 := rfl
@[simp] theorem State.modGt_clk (n : Nat) (f : GtChan → GtChan) : (s.modGt n f).clk = s.clk := rfl
@[simp] theorem State.modGt_tim (n : Nat) (f : GtChan → GtChan) : (s.modGt n f).tim = s.tim := rfl
@[simp] theorem State.modGt_keep (n : Nat) (f : GtChan → GtChan) : (s.modGt n f).keep = s.keep := rfl
@[simp] theorem State.modGt_pwr (n : Nat) (f : GtChan → GtChan) : (s.modGt n f).pwr = s.pwr := rfl
@[simp] theorem State.modGt_vlt (n : Nat) (f : GtChan → GtChan) : (s.modGt n f).vlt = s.vlt := rfl
@[simp] theorem State.modGt_pwm (n : Nat) (f : GtChan → GtChan) : (s.modGt n f).pwm = s.pwm := rfl
@[simp] theorem State.modGt_lmp (n : Nat) (f : GtChan → GtChan) : (s.modGt n f).lmp = s.lmp := rfl
@[simp] theorem State.modGt_fde (n : Nat) (f : GtChan → GtChan) : (s.modGt n f).fde = s.fde := rfl
@[simp] theorem State.modGt_hlt (n : Nat) (f : GtChan → GtChan) : (s.modGt n f).hlt = s.hlt := rfl
@[simp] theorem State.modGt_phy (n : Nat) (f : GtChan → GtChan) : (s.modGt n f).phy = s.phy := rfl
@[simp] theorem State.modGt_mac (n : Nat) (f : GtChan → GtChan) : (s.modGt n f).mac = s.mac := rfl
@[simp] theorem State.modGt_sec (n : Nat) (f : GtChan → GtChan) : (s.modGt n f).sec = s.sec := rfl
@[simp] theorem State.modGt_cmd (n : Nat) (f : GtChan → GtChan) : (s.modGt n f).cmd = s.cmd := rfl
@[simp] theorem State.modGt_cyc (n : Nat) (f : GtChan → GtChan) : (s.modGt n f).cyc = s.cyc := rfl
@[simp] theorem State.modGt_free (n : Nat) (f : GtChan → GtChan) : (s.modGt n f).free = s.free := rfl
@[simp] theorem State.modGt_pending (n : Nat) (f : GtChan → GtChan) : (s.modGt n f).pending = s.pending := rfl

@[simp] theorem State.post_regs (c e d : Nat) : (s.post c e d).regs = s.regs := rfl
@[simp] theorem State.post_host (c e d : Nat) : (s.post c e d).host = s.host := rfl
@[simp] theorem State.post_remote (c e d : Nat) : (s.post c e d).remote = s.remote := rfl
@[simp] theorem State.post_fabric (c e d : Nat) : (s.post c e d).fabric = s.fabric := rfl
@[simp] theorem State.post_acted (c e d : Nat) : (s.post c e d).acted = s.acted := rfl
@[simp] theorem State.post_actedAt (c e d : Nat) : (s.post c e d).actedAt = s.actedAt := rfl
@[simp] theorem State.post_pulses (c e d : Nat) : (s.post c e d).pulses = s.pulses := rfl
@[simp] theorem State.post_posted (c e d : Nat) : (s.post c e d).posted = s.posted ++ [s.stamp c e d] := rfl
@[simp] theorem State.post_q6 (c e d : Nat) : (s.post c e d).q6 = s.q6 := rfl
@[simp] theorem State.post_q7 (c e d : Nat) : (s.post c e d).q7 = s.q7 := rfl
@[simp] theorem State.post_clk (c e d : Nat) : (s.post c e d).clk = s.clk := rfl
@[simp] theorem State.post_tim (c e d : Nat) : (s.post c e d).tim = s.tim := rfl
@[simp] theorem State.post_keep (c e d : Nat) : (s.post c e d).keep = s.keep := rfl
@[simp] theorem State.post_pwr (c e d : Nat) : (s.post c e d).pwr = s.pwr := rfl
@[simp] theorem State.post_vlt (c e d : Nat) : (s.post c e d).vlt = s.vlt := rfl
@[simp] theorem State.post_pwm (c e d : Nat) : (s.post c e d).pwm = s.pwm := rfl
@[simp] theorem State.post_lmp (c e d : Nat) : (s.post c e d).lmp = s.lmp := rfl
@[simp] theorem State.post_fde (c e d : Nat) : (s.post c e d).fde = s.fde := rfl
@[simp] theorem State.post_hlt (c e d : Nat) : (s.post c e d).hlt = s.hlt := rfl
@[simp] theorem State.post_phy (c e d : Nat) : (s.post c e d).phy = s.phy := rfl
@[simp] theorem State.post_mac (c e d : Nat) : (s.post c e d).mac = s.mac := rfl
@[simp] theorem State.post_gtu (c e d : Nat) : (s.post c e d).gtu = s.gtu := rfl
@[simp] theorem State.post_sec (c e d : Nat) : (s.post c e d).sec = s.sec := rfl
@[simp] theorem State.post_cmd (c e d : Nat) : (s.post c e d).cmd = s.cmd := rfl
@[simp] theorem State.post_cyc (c e d : Nat) : (s.post c e d).cyc = s.cyc := rfl
@[simp] theorem State.post_free (c e d : Nat) : (s.post c e d).free = s.free := rfl
@[simp] theorem State.post_pending (c e d : Nat) : (s.post c e d).pending = s.pending := rfl

@[simp] theorem State.useFree_regs : (s.useFree).regs = s.regs := rfl
@[simp] theorem State.useFree_host : (s.useFree).host = s.host := rfl
@[simp] theorem State.useFree_remote : (s.useFree).remote = s.remote := rfl
@[simp] theorem State.useFree_fabric : (s.useFree).fabric = s.fabric := rfl
@[simp] theorem State.useFree_acted : (s.useFree).acted = s.acted := rfl
@[simp] theorem State.useFree_actedAt : (s.useFree).actedAt = s.actedAt := rfl
@[simp] theorem State.useFree_pulses : (s.useFree).pulses = s.pulses := rfl
@[simp] theorem State.useFree_posted : (s.useFree).posted = s.posted := rfl
@[simp] theorem State.useFree_q6 : (s.useFree).q6 = s.q6 := rfl
@[simp] theorem State.useFree_q7 : (s.useFree).q7 = s.q7 := rfl
@[simp] theorem State.useFree_clk : (s.useFree).clk = s.clk := rfl
@[simp] theorem State.useFree_tim : (s.useFree).tim = s.tim := rfl
@[simp] theorem State.useFree_keep : (s.useFree).keep = s.keep := rfl
@[simp] theorem State.useFree_pwr : (s.useFree).pwr = s.pwr := rfl
@[simp] theorem State.useFree_vlt : (s.useFree).vlt = s.vlt := rfl
@[simp] theorem State.useFree_pwm : (s.useFree).pwm = s.pwm := rfl
@[simp] theorem State.useFree_lmp : (s.useFree).lmp = s.lmp := rfl
@[simp] theorem State.useFree_fde : (s.useFree).fde = s.fde := rfl
@[simp] theorem State.useFree_hlt : (s.useFree).hlt = s.hlt := rfl
@[simp] theorem State.useFree_phy : (s.useFree).phy = s.phy := rfl
@[simp] theorem State.useFree_mac : (s.useFree).mac = s.mac := rfl
@[simp] theorem State.useFree_gtu : (s.useFree).gtu = s.gtu := rfl
@[simp] theorem State.useFree_sec : (s.useFree).sec = s.sec := rfl
@[simp] theorem State.useFree_cmd : (s.useFree).cmd = s.cmd := rfl
@[simp] theorem State.useFree_cyc : (s.useFree).cyc = s.cyc := rfl
@[simp] theorem State.useFree_free : (s.useFree).free = s.free + 1 := rfl
@[simp] theorem State.useFree_pending : (s.useFree).pending = s.pending := rfl

@[simp] theorem State.setFld_host (g : Fld) (v : Nat) : (s.setFld g v).host = s.host := rfl
@[simp] theorem State.setFld_remote (g : Fld) (v : Nat) : (s.setFld g v).remote = s.remote := rfl
@[simp] theorem State.setFld_fabric (g : Fld) (v : Nat) : (s.setFld g v).fabric = s.fabric := rfl
@[simp] theorem State.setFld_acted (g : Fld) (v : Nat) : (s.setFld g v).acted = s.acted := rfl
@[simp] theorem State.setFld_actedAt (g : Fld) (v : Nat) : (s.setFld g v).actedAt = s.actedAt := rfl
@[simp] theorem State.setFld_pulses (g : Fld) (v : Nat) : (s.setFld g v).pulses = s.pulses := rfl
@[simp] theorem State.setFld_posted (g : Fld) (v : Nat) : (s.setFld g v).posted = s.posted := rfl
@[simp] theorem State.setFld_q6 (g : Fld) (v : Nat) : (s.setFld g v).q6 = s.q6 := rfl
@[simp] theorem State.setFld_q7 (g : Fld) (v : Nat) : (s.setFld g v).q7 = s.q7 := rfl
@[simp] theorem State.setFld_clk (g : Fld) (v : Nat) : (s.setFld g v).clk = s.clk := rfl
@[simp] theorem State.setFld_tim (g : Fld) (v : Nat) : (s.setFld g v).tim = s.tim := rfl
@[simp] theorem State.setFld_keep (g : Fld) (v : Nat) : (s.setFld g v).keep = s.keep := rfl
@[simp] theorem State.setFld_pwr (g : Fld) (v : Nat) : (s.setFld g v).pwr = s.pwr := rfl
@[simp] theorem State.setFld_vlt (g : Fld) (v : Nat) : (s.setFld g v).vlt = s.vlt := rfl
@[simp] theorem State.setFld_pwm (g : Fld) (v : Nat) : (s.setFld g v).pwm = s.pwm := rfl
@[simp] theorem State.setFld_lmp (g : Fld) (v : Nat) : (s.setFld g v).lmp = s.lmp := rfl
@[simp] theorem State.setFld_fde (g : Fld) (v : Nat) : (s.setFld g v).fde = s.fde := rfl
@[simp] theorem State.setFld_hlt (g : Fld) (v : Nat) : (s.setFld g v).hlt = s.hlt := rfl
@[simp] theorem State.setFld_phy (g : Fld) (v : Nat) : (s.setFld g v).phy = s.phy := rfl
@[simp] theorem State.setFld_mac (g : Fld) (v : Nat) : (s.setFld g v).mac = s.mac := rfl
@[simp] theorem State.setFld_gtu (g : Fld) (v : Nat) : (s.setFld g v).gtu = s.gtu := rfl
@[simp] theorem State.setFld_sec (g : Fld) (v : Nat) : (s.setFld g v).sec = s.sec := rfl
@[simp] theorem State.setFld_cmd (g : Fld) (v : Nat) : (s.setFld g v).cmd = s.cmd := rfl
@[simp] theorem State.setFld_cyc (g : Fld) (v : Nat) : (s.setFld g v).cyc = s.cyc := rfl
@[simp] theorem State.setFld_free (g : Fld) (v : Nat) : (s.setFld g v).free = s.free := rfl
@[simp] theorem State.setFld_pending (g : Fld) (v : Nat) : (s.setFld g v).pending = s.pending := rfl

@[simp] theorem State.setFlag_host (g : Fld) (b : Bool) : (s.setFlag g b).host = s.host := rfl
@[simp] theorem State.setFlag_remote (g : Fld) (b : Bool) : (s.setFlag g b).remote = s.remote := rfl
@[simp] theorem State.setFlag_fabric (g : Fld) (b : Bool) : (s.setFlag g b).fabric = s.fabric := rfl
@[simp] theorem State.setFlag_acted (g : Fld) (b : Bool) : (s.setFlag g b).acted = s.acted := rfl
@[simp] theorem State.setFlag_actedAt (g : Fld) (b : Bool) : (s.setFlag g b).actedAt = s.actedAt := rfl
@[simp] theorem State.setFlag_pulses (g : Fld) (b : Bool) : (s.setFlag g b).pulses = s.pulses := rfl
@[simp] theorem State.setFlag_posted (g : Fld) (b : Bool) : (s.setFlag g b).posted = s.posted := rfl
@[simp] theorem State.setFlag_q6 (g : Fld) (b : Bool) : (s.setFlag g b).q6 = s.q6 := rfl
@[simp] theorem State.setFlag_q7 (g : Fld) (b : Bool) : (s.setFlag g b).q7 = s.q7 := rfl
@[simp] theorem State.setFlag_clk (g : Fld) (b : Bool) : (s.setFlag g b).clk = s.clk := rfl
@[simp] theorem State.setFlag_tim (g : Fld) (b : Bool) : (s.setFlag g b).tim = s.tim := rfl
@[simp] theorem State.setFlag_keep (g : Fld) (b : Bool) : (s.setFlag g b).keep = s.keep := rfl
@[simp] theorem State.setFlag_pwr (g : Fld) (b : Bool) : (s.setFlag g b).pwr = s.pwr := rfl
@[simp] theorem State.setFlag_vlt (g : Fld) (b : Bool) : (s.setFlag g b).vlt = s.vlt := rfl
@[simp] theorem State.setFlag_pwm (g : Fld) (b : Bool) : (s.setFlag g b).pwm = s.pwm := rfl
@[simp] theorem State.setFlag_lmp (g : Fld) (b : Bool) : (s.setFlag g b).lmp = s.lmp := rfl
@[simp] theorem State.setFlag_fde (g : Fld) (b : Bool) : (s.setFlag g b).fde = s.fde := rfl
@[simp] theorem State.setFlag_hlt (g : Fld) (b : Bool) : (s.setFlag g b).hlt = s.hlt := rfl
@[simp] theorem State.setFlag_phy (g : Fld) (b : Bool) : (s.setFlag g b).phy = s.phy := rfl
@[simp] theorem State.setFlag_mac (g : Fld) (b : Bool) : (s.setFlag g b).mac = s.mac := rfl
@[simp] theorem State.setFlag_gtu (g : Fld) (b : Bool) : (s.setFlag g b).gtu = s.gtu := rfl
@[simp] theorem State.setFlag_sec (g : Fld) (b : Bool) : (s.setFlag g b).sec = s.sec := rfl
@[simp] theorem State.setFlag_cmd (g : Fld) (b : Bool) : (s.setFlag g b).cmd = s.cmd := rfl
@[simp] theorem State.setFlag_cyc (g : Fld) (b : Bool) : (s.setFlag g b).cyc = s.cyc := rfl
@[simp] theorem State.setFlag_free (g : Fld) (b : Bool) : (s.setFlag g b).free = s.free := rfl
@[simp] theorem State.setFlag_pending (g : Fld) (b : Bool) : (s.setFlag g b).pending = s.pending := rfl

@[simp] theorem State.setBit_host (k i : Nat) (b : Bool) : (s.setBit k i b).host = s.host := rfl
@[simp] theorem State.setBit_remote (k i : Nat) (b : Bool) : (s.setBit k i b).remote = s.remote := rfl
@[simp] theorem State.setBit_fabric (k i : Nat) (b : Bool) : (s.setBit k i b).fabric = s.fabric := rfl
@[simp] theorem State.setBit_acted (k i : Nat) (b : Bool) : (s.setBit k i b).acted = s.acted := rfl
@[simp] theorem State.setBit_actedAt (k i : Nat) (b : Bool) : (s.setBit k i b).actedAt = s.actedAt := rfl
@[simp] theorem State.setBit_pulses (k i : Nat) (b : Bool) : (s.setBit k i b).pulses = s.pulses := rfl
@[simp] theorem State.setBit_posted (k i : Nat) (b : Bool) : (s.setBit k i b).posted = s.posted := rfl
@[simp] theorem State.setBit_q6 (k i : Nat) (b : Bool) : (s.setBit k i b).q6 = s.q6 := rfl
@[simp] theorem State.setBit_q7 (k i : Nat) (b : Bool) : (s.setBit k i b).q7 = s.q7 := rfl
@[simp] theorem State.setBit_clk (k i : Nat) (b : Bool) : (s.setBit k i b).clk = s.clk := rfl
@[simp] theorem State.setBit_tim (k i : Nat) (b : Bool) : (s.setBit k i b).tim = s.tim := rfl
@[simp] theorem State.setBit_keep (k i : Nat) (b : Bool) : (s.setBit k i b).keep = s.keep := rfl
@[simp] theorem State.setBit_pwr (k i : Nat) (b : Bool) : (s.setBit k i b).pwr = s.pwr := rfl
@[simp] theorem State.setBit_vlt (k i : Nat) (b : Bool) : (s.setBit k i b).vlt = s.vlt := rfl
@[simp] theorem State.setBit_pwm (k i : Nat) (b : Bool) : (s.setBit k i b).pwm = s.pwm := rfl
@[simp] theorem State.setBit_lmp (k i : Nat) (b : Bool) : (s.setBit k i b).lmp = s.lmp := rfl
@[simp] theorem State.setBit_fde (k i : Nat) (b : Bool) : (s.setBit k i b).fde = s.fde := rfl
@[simp] theorem State.setBit_hlt (k i : Nat) (b : Bool) : (s.setBit k i b).hlt = s.hlt := rfl
@[simp] theorem State.setBit_phy (k i : Nat) (b : Bool) : (s.setBit k i b).phy = s.phy := rfl
@[simp] theorem State.setBit_mac (k i : Nat) (b : Bool) : (s.setBit k i b).mac = s.mac := rfl
@[simp] theorem State.setBit_gtu (k i : Nat) (b : Bool) : (s.setBit k i b).gtu = s.gtu := rfl
@[simp] theorem State.setBit_sec (k i : Nat) (b : Bool) : (s.setBit k i b).sec = s.sec := rfl
@[simp] theorem State.setBit_cmd (k i : Nat) (b : Bool) : (s.setBit k i b).cmd = s.cmd := rfl
@[simp] theorem State.setBit_cyc (k i : Nat) (b : Bool) : (s.setBit k i b).cyc = s.cyc := rfl
@[simp] theorem State.setBit_free (k i : Nat) (b : Bool) : (s.setBit k i b).free = s.free := rfl
@[simp] theorem State.setBit_pending (k i : Nat) (b : Bool) : (s.setBit k i b).pending = s.pending := rfl

@[simp] theorem State.setPair_host (k v : Nat) : (s.setPair k v).host = s.host := rfl
@[simp] theorem State.setPair_remote (k v : Nat) : (s.setPair k v).remote = s.remote := rfl
@[simp] theorem State.setPair_fabric (k v : Nat) : (s.setPair k v).fabric = s.fabric := rfl
@[simp] theorem State.setPair_acted (k v : Nat) : (s.setPair k v).acted = s.acted := rfl
@[simp] theorem State.setPair_actedAt (k v : Nat) : (s.setPair k v).actedAt = s.actedAt := rfl
@[simp] theorem State.setPair_pulses (k v : Nat) : (s.setPair k v).pulses = s.pulses := rfl
@[simp] theorem State.setPair_posted (k v : Nat) : (s.setPair k v).posted = s.posted := rfl
@[simp] theorem State.setPair_q6 (k v : Nat) : (s.setPair k v).q6 = s.q6 := rfl
@[simp] theorem State.setPair_q7 (k v : Nat) : (s.setPair k v).q7 = s.q7 := rfl
@[simp] theorem State.setPair_clk (k v : Nat) : (s.setPair k v).clk = s.clk := rfl
@[simp] theorem State.setPair_tim (k v : Nat) : (s.setPair k v).tim = s.tim := rfl
@[simp] theorem State.setPair_keep (k v : Nat) : (s.setPair k v).keep = s.keep := rfl
@[simp] theorem State.setPair_pwr (k v : Nat) : (s.setPair k v).pwr = s.pwr := rfl
@[simp] theorem State.setPair_vlt (k v : Nat) : (s.setPair k v).vlt = s.vlt := rfl
@[simp] theorem State.setPair_pwm (k v : Nat) : (s.setPair k v).pwm = s.pwm := rfl
@[simp] theorem State.setPair_lmp (k v : Nat) : (s.setPair k v).lmp = s.lmp := rfl
@[simp] theorem State.setPair_fde (k v : Nat) : (s.setPair k v).fde = s.fde := rfl
@[simp] theorem State.setPair_hlt (k v : Nat) : (s.setPair k v).hlt = s.hlt := rfl
@[simp] theorem State.setPair_phy (k v : Nat) : (s.setPair k v).phy = s.phy := rfl
@[simp] theorem State.setPair_mac (k v : Nat) : (s.setPair k v).mac = s.mac := rfl
@[simp] theorem State.setPair_gtu (k v : Nat) : (s.setPair k v).gtu = s.gtu := rfl
@[simp] theorem State.setPair_sec (k v : Nat) : (s.setPair k v).sec = s.sec := rfl
@[simp] theorem State.setPair_cmd (k v : Nat) : (s.setPair k v).cmd = s.cmd := rfl
@[simp] theorem State.setPair_cyc (k v : Nat) : (s.setPair k v).cyc = s.cyc := rfl
@[simp] theorem State.setPair_free (k v : Nat) : (s.setPair k v).free = s.free := rfl
@[simp] theorem State.setPair_pending (k v : Nat) : (s.setPair k v).pending = s.pending := rfl

@[simp] theorem State.incReg_host (k : Nat) : (s.incReg k).host = s.host := rfl
@[simp] theorem State.incReg_remote (k : Nat) : (s.incReg k).remote = s.remote := rfl
@[simp] theorem State.incReg_fabric (k : Nat) : (s.incReg k).fabric = s.fabric := rfl
@[simp] theorem State.incReg_acted (k : Nat) : (s.incReg k).acted = s.acted := rfl
@[simp] theorem State.incReg_actedAt (k : Nat) : (s.incReg k).actedAt = s.actedAt := rfl
@[simp] theorem State.incReg_pulses (k : Nat) : (s.incReg k).pulses = s.pulses := rfl
@[simp] theorem State.incReg_posted (k : Nat) : (s.incReg k).posted = s.posted := rfl
@[simp] theorem State.incReg_q6 (k : Nat) : (s.incReg k).q6 = s.q6 := rfl
@[simp] theorem State.incReg_q7 (k : Nat) : (s.incReg k).q7 = s.q7 := rfl
@[simp] theorem State.incReg_clk (k : Nat) : (s.incReg k).clk = s.clk := rfl
@[simp] theorem State.incReg_tim (k : Nat) : (s.incReg k).tim = s.tim := rfl
@[simp] theorem State.incReg_keep (k : Nat) : (s.incReg k).keep = s.keep := rfl
@[simp] theorem State.incReg_pwr (k : Nat) : (s.incReg k).pwr = s.pwr := rfl
@[simp] theorem State.incReg_vlt (k : Nat) : (s.incReg k).vlt = s.vlt := rfl
@[simp] theorem State.incReg_pwm (k : Nat) : (s.incReg k).pwm = s.pwm := rfl
@[simp] theorem State.incReg_lmp (k : Nat) : (s.incReg k).lmp = s.lmp := rfl
@[simp] theorem State.incReg_fde (k : Nat) : (s.incReg k).fde = s.fde := rfl
@[simp] theorem State.incReg_hlt (k : Nat) : (s.incReg k).hlt = s.hlt := rfl
@[simp] theorem State.incReg_phy (k : Nat) : (s.incReg k).phy = s.phy := rfl
@[simp] theorem State.incReg_mac (k : Nat) : (s.incReg k).mac = s.mac := rfl
@[simp] theorem State.incReg_gtu (k : Nat) : (s.incReg k).gtu = s.gtu := rfl
@[simp] theorem State.incReg_sec (k : Nat) : (s.incReg k).sec = s.sec := rfl
@[simp] theorem State.incReg_cmd (k : Nat) : (s.incReg k).cmd = s.cmd := rfl
@[simp] theorem State.incReg_cyc (k : Nat) : (s.incReg k).cyc = s.cyc := rfl
@[simp] theorem State.incReg_free (k : Nat) : (s.incReg k).free = s.free := rfl
@[simp] theorem State.incReg_pending (k : Nat) : (s.incReg k).pending = s.pending := rfl

theorem State.onWrite_up {p : Path} {f : State → State} (h : s.pathUp p = true) :
    s.onWrite p f = f (s.modPath p (fun q => { q with armed := false })) := by simp [State.onWrite, h]

end Sys2Proof.Machine
end

