-- ==== Sys2Proof/Laws/Ops.lean ====
section
/-! SUPPORT. What the shared operations do: a register read after a write, fields of a word, paths, interrupts, and the
settling of records that ends every command. -/

namespace Sys2Proof.Machine

/-! Fields of a word. -/

theorem testBit_fieldMask (hi lo i : Nat) (h : i < 16) : (fieldMask hi lo).getLsbD i = (decide (lo ≤ i) && decide (i < lo + (hi - lo + 1))) := by
  simp only [fieldMask, BitVec.getLsbD_shiftLeft, BitVec.getLsbD_ofNat, Nat.testBit_two_pow_sub_one, h, decide_true, Bool.true_and]
  generalize hi - lo + 1 = w
  by_cases h1 : lo ≤ i
  · have : i - lo < 16 := by omega
    simp [h1, this, show ¬ i < lo by omega]
    omega
  · simp [h1]
theorem getLsbD_setBits (w : Word) (hi lo v i : Nat) (h : i < 16) :
    (setBits w hi lo v).getLsbD i = if lo ≤ i ∧ i < lo + (hi - lo + 1) then v.testBit (i - lo) else w.getLsbD i := by
  simp only [setBits, BitVec.getLsbD_or, BitVec.getLsbD_and, BitVec.getLsbD_not, testBit_fieldMask hi lo i h, BitVec.getLsbD_shiftLeft,
    BitVec.getLsbD_ofNat]
  by_cases h1 : lo ≤ i
  · have : i - lo < 16 := by omega
    by_cases h2 : i < lo + (hi - lo + 1) <;> simp [h1, h2, h, this, show ¬ i < lo by omega]
  · simp [h1, h]

theorem testBit_getBits (w : Word) (hi lo i : Nat) :
    (getBits w hi lo).testBit i = (decide (i < hi - lo + 1) && w.getLsbD (lo + i)) := by
  simp only [getBits, Nat.testBit_mod_two_pow, BitVec.testBit_toNat, BitVec.getLsbD_ushiftRight]

/-- A field reads what was last written into it, cut to its width. -/
theorem getBits_setBits_self (w : Word) {hi lo : Nat} (v : Nat) (h : hi < 16) (hl : lo ≤ hi) :
    getBits (setBits w hi lo v) hi lo = v % 2 ^ (hi - lo + 1) := by
  apply Nat.eq_of_testBit_eq
  intro i
  rw [testBit_getBits, Nat.testBit_mod_two_pow]
  by_cases hi' : i < hi - lo + 1
  · rw [getLsbD_setBits _ _ _ _ _ (by omega), if_pos ⟨by omega, by omega⟩]
    simp [hi']
  · simp [hi']

/-- Writing a field leaves the other fields of the word alone. -/
theorem getBits_setBits_other (w : Word) {hi lo hi' lo' : Nat} (v : Nat) (hl : lo ≤ hi) (hl' : lo' ≤ hi') (h' : hi' < 16)
    (hd : hi < lo' ∨ hi' < lo) : getBits (setBits w hi lo v) hi' lo' = getBits w hi' lo' := by
  apply Nat.eq_of_testBit_eq
  intro i
  rw [testBit_getBits, testBit_getBits]
  by_cases hi2 : i < hi' - lo' + 1
  · rw [getLsbD_setBits _ _ _ _ _ (by omega), if_neg (by omega)]
  · simp [hi2]

/-! Registers. -/

@[simp] theorem State.reg_setReg_self (s : State) (k : Nat) (v : Word) : (s.setReg k v).reg k = v :=
  spGet_spSet_self _ _ _ _

@[simp] theorem State.reg_setReg_of_ne (s : State) {k j : Nat} (v : Word) (h : j ≠ k) : (s.setReg k v).reg j = s.reg j :=
  spGet_spSet_other _ _ _ h

@[simp] theorem State.reg_setFld_of_ne (s : State) {f : Fld} {j : Nat} (v : Nat) (h : j ≠ f.key) :
    (s.setFld f v).reg j = s.reg j := s.reg_setReg_of_ne _ h

@[simp] theorem State.reg_setFlag_of_ne (s : State) {f : Fld} {j : Nat} (b : Bool) (h : j ≠ f.key) :
    (s.setFlag f b).reg j = s.reg j := s.reg_setReg_of_ne _ h

@[simp] theorem State.reg_setBit_of_ne (s : State) {k j : Nat} (i : Nat) (b : Bool) (h : j ≠ k) :
    (s.setBit k i b).reg j = s.reg j := s.reg_setReg_of_ne _ h

theorem State.reg_setFld_self (s : State) (f : Fld) (v : Nat) :
    (s.setFld f v).reg f.key = setBits (s.reg f.key) f.hi f.lo v := s.reg_setReg_self _ _

@[simp] theorem State.fld_setReg_of_ne (s : State) {g : Fld} {k : Nat} (v : Word) (h : g.key ≠ k) :
    (s.setReg k v).fld g = s.fld g := by simp [State.fld, h]

@[simp] theorem State.flag_setReg_of_ne (s : State) {g : Fld} {k : Nat} (v : Word) (h : g.key ≠ k) :
    (s.setReg k v).flag g = s.flag g := by simp [State.flag, h]

/-- A field reads what was last written into it. -/
theorem State.fld_setFld_self (s : State) {f : Fld} (v : Nat) (h : f.hi < 16) (hl : f.lo ≤ f.hi) :
    (s.setFld f v).fld f = v % 2 ^ (f.hi - f.lo + 1) := by
  simp only [State.fld, State.reg_setFld_self]
  exact getBits_setBits_self _ _ h hl

@[simp] theorem State.fld_setFld_of_ne (s : State) {f g : Fld} (v : Nat) (h : g.key ≠ f.key) :
    (s.setFld f v).fld g = s.fld g := by simp [State.fld, h]

/-- Writing a field leaves the other fields of its register alone. -/
theorem State.fld_setFld_other (s : State) {f g : Fld} (v : Nat) (hk : g.key = f.key) (hl : f.lo ≤ f.hi) (hl' : g.lo ≤ g.hi)
    (h' : g.hi < 16) (hd : f.hi < g.lo ∨ g.hi < f.lo) : (s.setFld f v).fld g = s.fld g := by
  simp only [State.fld, hk, State.reg_setFld_self]
  exact getBits_setBits_other _ _ hl hl' h' hd

@[simp] theorem State.flag_setFld_of_ne (s : State) {f g : Fld} (v : Nat) (h : g.key ≠ f.key) :
    (s.setFld f v).flag g = s.flag g := by simp [State.flag, h]

@[simp] theorem State.fld_setFlag_of_ne (s : State) {f g : Fld} (b : Bool) (h : g.key ≠ f.key) :
    (s.setFlag f b).fld g = s.fld g := s.fld_setFld_of_ne _ h

@[simp] theorem State.flag_setFlag_of_ne (s : State) {f g : Fld} (b : Bool) (h : g.key ≠ f.key) :
    (s.setFlag f b).flag g = s.flag g := s.flag_setFld_of_ne _ h

/-- A one-bit field reads what was last set. -/
theorem State.flag_setFlag_self (s : State) {f : Fld} (b : Bool) (h : f.hi < 16) (hl : f.lo = f.hi) :
    (s.setFlag f b).flag f = b := by
  simp only [State.flag, State.setFlag]
  rw [State.fld_setFld_self s _ h (by omega)]
  simp only [hl, Nat.sub_self]
  cases b <;> rfl

theorem State.flag_setFlag_other (s : State) {f g : Fld} (b : Bool) (hk : g.key = f.key) (hl : f.lo ≤ f.hi) (hl' : g.lo ≤ g.hi)
    (h' : g.hi < 16) (hd : f.hi < g.lo ∨ g.hi < f.lo) : (s.setFlag f b).flag g = s.flag g := by
  simp only [State.flag, State.setFlag]
  rw [State.fld_setFld_other s _ hk hl hl' h' hd]

theorem State.fld_setFlag_other (s : State) {f g : Fld} (b : Bool) (hk : g.key = f.key) (hl : f.lo ≤ f.hi) (hl' : g.lo ≤ g.hi)
    (h' : g.hi < 16) (hd : f.hi < g.lo ∨ g.hi < f.lo) : (s.setFlag f b).fld g = s.fld g := by
  simp only [State.setFlag]
  rw [State.fld_setFld_other s _ hk hl hl' h' hd]

@[simp] theorem State.reg_modVlt (s : State) (f : VltState → VltState) (k : Nat) : (s.modVlt f).reg k = s.reg k := rfl
@[simp] theorem State.fld_modVlt (s : State) (f : VltState → VltState) (g : Fld) : (s.modVlt f).fld g = s.fld g := rfl
@[simp] theorem State.flag_modVlt (s : State) (f : VltState → VltState) (g : Fld) : (s.modVlt f).flag g = s.flag g := rfl
@[simp] theorem State.bit_modVlt (s : State) (f : VltState → VltState) (k i : Nat) : (s.modVlt f).bit k i = s.bit k i := rfl
@[simp] theorem State.reg_modPwm (s : State) (f : PwmState → PwmState) (k : Nat) : (s.modPwm f).reg k = s.reg k := rfl
@[simp] theorem State.fld_modPwm (s : State) (f : PwmState → PwmState) (g : Fld) : (s.modPwm f).fld g = s.fld g := rfl
@[simp] theorem State.flag_modPwm (s : State) (f : PwmState → PwmState) (g : Fld) : (s.modPwm f).flag g = s.flag g := rfl
@[simp] theorem State.bit_modPwm (s : State) (f : PwmState → PwmState) (k i : Nat) : (s.modPwm f).bit k i = s.bit k i := rfl
@[simp] theorem State.reg_modLmp (s : State) (f : LmpState → LmpState) (k : Nat) : (s.modLmp f).reg k = s.reg k := rfl
@[simp] theorem State.fld_modLmp (s : State) (f : LmpState → LmpState) (g : Fld) : (s.modLmp f).fld g = s.fld g := rfl
@[simp] theorem State.flag_modLmp (s : State) (f : LmpState → LmpState) (g : Fld) : (s.modLmp f).flag g = s.flag g := rfl
@[simp] theorem State.bit_modLmp (s : State) (f : LmpState → LmpState) (k i : Nat) : (s.modLmp f).bit k i = s.bit k i := rfl
@[simp] theorem State.reg_modFde (s : State) (f : FdeState → FdeState) (k : Nat) : (s.modFde f).reg k = s.reg k := rfl
@[simp] theorem State.fld_modFde (s : State) (f : FdeState → FdeState) (g : Fld) : (s.modFde f).fld g = s.fld g := rfl
@[simp] theorem State.flag_modFde (s : State) (f : FdeState → FdeState) (g : Fld) : (s.modFde f).flag g = s.flag g := rfl
@[simp] theorem State.bit_modFde (s : State) (f : FdeState → FdeState) (k i : Nat) : (s.modFde f).bit k i = s.bit k i := rfl
@[simp] theorem State.reg_modHlt (s : State) (f : HltState → HltState) (k : Nat) : (s.modHlt f).reg k = s.reg k := rfl
@[simp] theorem State.fld_modHlt (s : State) (f : HltState → HltState) (g : Fld) : (s.modHlt f).fld g = s.fld g := rfl
@[simp] theorem State.flag_modHlt (s : State) (f : HltState → HltState) (g : Fld) : (s.modHlt f).flag g = s.flag g := rfl
@[simp] theorem State.bit_modHlt (s : State) (f : HltState → HltState) (k i : Nat) : (s.modHlt f).bit k i = s.bit k i := rfl
@[simp] theorem State.reg_modPhy (s : State) (f : PhyState → PhyState) (k : Nat) : (s.modPhy f).reg k = s.reg k := rfl
@[simp] theorem State.fld_modPhy (s : State) (f : PhyState → PhyState) (g : Fld) : (s.modPhy f).fld g = s.fld g := rfl
@[simp] theorem State.flag_modPhy (s : State) (f : PhyState → PhyState) (g : Fld) : (s.modPhy f).flag g = s.flag g := rfl
@[simp] theorem State.bit_modPhy (s : State) (f : PhyState → PhyState) (k i : Nat) : (s.modPhy f).bit k i = s.bit k i := rfl
@[simp] theorem State.reg_modMac (s : State) (f : MacState → MacState) (k : Nat) : (s.modMac f).reg k = s.reg k := rfl
@[simp] theorem State.fld_modMac (s : State) (f : MacState → MacState) (g : Fld) : (s.modMac f).fld g = s.fld g := rfl
@[simp] theorem State.flag_modMac (s : State) (f : MacState → MacState) (g : Fld) : (s.modMac f).flag g = s.flag g := rfl
@[simp] theorem State.bit_modMac (s : State) (f : MacState → MacState) (k i : Nat) : (s.modMac f).bit k i = s.bit k i := rfl
@[simp] theorem State.reg_modTim (s : State) (f : TimState → TimState) (k : Nat) : (s.modTim f).reg k = s.reg k := rfl
@[simp] theorem State.fld_modTim (s : State) (f : TimState → TimState) (g : Fld) : (s.modTim f).fld g = s.fld g := rfl
@[simp] theorem State.flag_modTim (s : State) (f : TimState → TimState) (g : Fld) : (s.modTim f).flag g = s.flag g := rfl
@[simp] theorem State.bit_modTim (s : State) (f : TimState → TimState) (k i : Nat) : (s.modTim f).bit k i = s.bit k i := rfl
@[simp] theorem State.reg_modKeep (s : State) (f : KeepState → KeepState) (k : Nat) : (s.modKeep f).reg k = s.reg k := rfl
@[simp] theorem State.fld_modKeep (s : State) (f : KeepState → KeepState) (g : Fld) : (s.modKeep f).fld g = s.fld g := rfl
@[simp] theorem State.flag_modKeep (s : State) (f : KeepState → KeepState) (g : Fld) : (s.modKeep f).flag g = s.flag g := rfl
@[simp] theorem State.bit_modKeep (s : State) (f : KeepState → KeepState) (k i : Nat) : (s.modKeep f).bit k i = s.bit k i := rfl
@[simp] theorem State.reg_modPwr (s : State) (f : PwrState → PwrState) (k : Nat) : (s.modPwr f).reg k = s.reg k := rfl
@[simp] theorem State.fld_modPwr (s : State) (f : PwrState → PwrState) (g : Fld) : (s.modPwr f).fld g = s.fld g := rfl
@[simp] theorem State.flag_modPwr (s : State) (f : PwrState → PwrState) (g : Fld) : (s.modPwr f).flag g = s.flag g := rfl
@[simp] theorem State.bit_modPwr (s : State) (f : PwrState → PwrState) (k i : Nat) : (s.modPwr f).bit k i = s.bit k i := rfl
@[simp] theorem State.reg_modClk (s : State) (f : ClkState → ClkState) (k : Nat) : (s.modClk f).reg k = s.reg k := rfl
@[simp] theorem State.fld_modClk (s : State) (f : ClkState → ClkState) (g : Fld) : (s.modClk f).fld g = s.fld g := rfl
@[simp] theorem State.flag_modClk (s : State) (f : ClkState → ClkState) (g : Fld) : (s.modClk f).flag g = s.flag g := rfl
@[simp] theorem State.bit_modClk (s : State) (f : ClkState → ClkState) (k i : Nat) : (s.modClk f).bit k i = s.bit k i := rfl
@[simp] theorem State.reg_modSec (s : State) (f : SecState → SecState) (k : Nat) : (s.modSec f).reg k = s.reg k := rfl
@[simp] theorem State.fld_modSec (s : State) (f : SecState → SecState) (g : Fld) : (s.modSec f).fld g = s.fld g := rfl
@[simp] theorem State.flag_modSec (s : State) (f : SecState → SecState) (g : Fld) : (s.modSec f).flag g = s.flag g := rfl
@[simp] theorem State.bit_modSec (s : State) (f : SecState → SecState) (k i : Nat) : (s.modSec f).bit k i = s.bit k i := rfl
@[simp] theorem State.reg_modCmd (s : State) (f : CmdState → CmdState) (k : Nat) : (s.modCmd f).reg k = s.reg k := rfl
@[simp] theorem State.fld_modCmd (s : State) (f : CmdState → CmdState) (g : Fld) : (s.modCmd f).fld g = s.fld g := rfl
@[simp] theorem State.flag_modCmd (s : State) (f : CmdState → CmdState) (g : Fld) : (s.modCmd f).flag g = s.flag g := rfl
@[simp] theorem State.bit_modCmd (s : State) (f : CmdState → CmdState) (k i : Nat) : (s.modCmd f).bit k i = s.bit k i := rfl
@[simp] theorem State.reg_modChan (s : State) (n : Nat) (f : Chan → Chan) (k : Nat) : (s.modChan n f).reg k = s.reg k := rfl
@[simp] theorem State.fld_modChan (s : State) (n : Nat) (f : Chan → Chan) (g : Fld) : (s.modChan n f).fld g = s.fld g := rfl
@[simp] theorem State.flag_modChan (s : State) (n : Nat) (f : Chan → Chan) (g : Fld) : (s.modChan n f).flag g = s.flag g := rfl
@[simp] theorem State.bit_modChan (s : State) (n : Nat) (f : Chan → Chan) (k i : Nat) : (s.modChan n f).bit k i = s.bit k i := rfl
@[simp] theorem State.reg_modFlamp (s : State) (n : Nat) (f : FLamp → FLamp) (k : Nat) : (s.modFlamp n f).reg k = s.reg k := rfl
@[simp] theorem State.fld_modFlamp (s : State) (n : Nat) (f : FLamp → FLamp) (g : Fld) : (s.modFlamp n f).fld g = s.fld g := rfl
@[simp] theorem State.flag_modFlamp (s : State) (n : Nat) (f : FLamp → FLamp) (g : Fld) : (s.modFlamp n f).flag g = s.flag g := rfl
@[simp] theorem State.bit_modFlamp (s : State) (n : Nat) (f : FLamp → FLamp) (k i : Nat) : (s.modFlamp n f).bit k i = s.bit k i := rfl
@[simp] theorem State.reg_modHchan (s : State) (n : Nat) (f : HChan → HChan) (k : Nat) : (s.modHchan n f).reg k = s.reg k := rfl
@[simp] theorem State.fld_modHchan (s : State) (n : Nat) (f : HChan → HChan) (g : Fld) : (s.modHchan n f).fld g = s.fld g := rfl
@[simp] theorem State.flag_modHchan (s : State) (n : Nat) (f : HChan → HChan) (g : Fld) : (s.modHchan n f).flag g = s.flag g := rfl
@[simp] theorem State.bit_modHchan (s : State) (n : Nat) (f : HChan → HChan) (k i : Nat) : (s.modHchan n f).bit k i = s.bit k i := rfl
@[simp] theorem State.reg_modGt (s : State) (n : Nat) (f : GtChan → GtChan) (k : Nat) : (s.modGt n f).reg k = s.reg k := rfl
@[simp] theorem State.fld_modGt (s : State) (n : Nat) (f : GtChan → GtChan) (g : Fld) : (s.modGt n f).fld g = s.fld g := rfl
@[simp] theorem State.flag_modGt (s : State) (n : Nat) (f : GtChan → GtChan) (g : Fld) : (s.modGt n f).flag g = s.flag g := rfl
@[simp] theorem State.bit_modGt (s : State) (n : Nat) (f : GtChan → GtChan) (k i : Nat) : (s.modGt n f).bit k i = s.bit k i := rfl
@[simp] theorem State.reg_post (s : State) (c e d : Nat) (k : Nat) : (s.post c e d).reg k = s.reg k := rfl
@[simp] theorem State.fld_post (s : State) (c e d : Nat) (g : Fld) : (s.post c e d).fld g = s.fld g := rfl
@[simp] theorem State.flag_post (s : State) (c e d : Nat) (g : Fld) : (s.post c e d).flag g = s.flag g := rfl
@[simp] theorem State.bit_post (s : State) (c e d : Nat) (k i : Nat) : (s.post c e d).bit k i = s.bit k i := rfl
@[simp] theorem State.reg_useFree (s : State) (k : Nat) : (s.useFree).reg k = s.reg k := rfl
@[simp] theorem State.fld_useFree (s : State) (g : Fld) : (s.useFree).fld g = s.fld g := rfl
@[simp] theorem State.flag_useFree (s : State) (g : Fld) : (s.useFree).flag g = s.flag g := rfl
@[simp] theorem State.bit_useFree (s : State) (k i : Nat) : (s.useFree).bit k i = s.bit k i := rfl

@[simp] theorem State.reg_modPath (s : State) (p : Path) (f : PathState → PathState) (k : Nat) : (s.modPath p f).reg k = s.reg k := by
  cases p <;> rfl
@[simp] theorem State.fld_modPath (s : State) (p : Path) (f : PathState → PathState) (g : Fld) : (s.modPath p f).fld g = s.fld g := by
  cases p <;> rfl
@[simp] theorem State.flag_modPath (s : State) (p : Path) (f : PathState → PathState) (g : Fld) : (s.modPath p f).flag g = s.flag g := by
  cases p <;> rfl
@[simp] theorem State.path_modPath (s : State) (p : Path) (f : PathState → PathState) : (s.modPath p f).path p = f (s.path p) := by
  cases p <;> rfl

@[simp] theorem State.modPath_regs (s : State) (p : Path) (f : PathState → PathState) : (s.modPath p f).regs = s.regs := by cases p <;> rfl
@[simp] theorem State.modPath_fabric (s : State) (p : Path) (f : PathState → PathState) : (s.modPath p f).fabric = s.fabric := by cases p <;> rfl
@[simp] theorem State.modPath_posted (s : State) (p : Path) (f : PathState → PathState) : (s.modPath p f).posted = s.posted := by cases p <;> rfl
@[simp] theorem State.modPath_q6 (s : State) (p : Path) (f : PathState → PathState) : (s.modPath p f).q6 = s.q6 := by cases p <;> rfl
@[simp] theorem State.modPath_q7 (s : State) (p : Path) (f : PathState → PathState) : (s.modPath p f).q7 = s.q7 := by cases p <;> rfl
@[simp] theorem State.modPath_clk (s : State) (p : Path) (f : PathState → PathState) : (s.modPath p f).clk = s.clk := by cases p <;> rfl
@[simp] theorem State.modPath_tim (s : State) (p : Path) (f : PathState → PathState) : (s.modPath p f).tim = s.tim := by cases p <;> rfl
@[simp] theorem State.modPath_keep (s : State) (p : Path) (f : PathState → PathState) : (s.modPath p f).keep = s.keep := by cases p <;> rfl
@[simp] theorem State.modPath_pwr (s : State) (p : Path) (f : PathState → PathState) : (s.modPath p f).pwr = s.pwr := by cases p <;> rfl
@[simp] theorem State.modPath_vlt (s : State) (p : Path) (f : PathState → PathState) : (s.modPath p f).vlt = s.vlt := by cases p <;> rfl
@[simp] theorem State.modPath_pwm (s : State) (p : Path) (f : PathState → PathState) : (s.modPath p f).pwm = s.pwm := by cases p <;> rfl
@[simp] theorem State.modPath_lmp (s : State) (p : Path) (f : PathState → PathState) : (s.modPath p f).lmp = s.lmp := by cases p <;> rfl
@[simp] theorem State.modPath_fde (s : State) (p : Path) (f : PathState → PathState) : (s.modPath p f).fde = s.fde := by cases p <;> rfl
@[simp] theorem State.modPath_hlt (s : State) (p : Path) (f : PathState → PathState) : (s.modPath p f).hlt = s.hlt := by cases p <;> rfl
@[simp] theorem State.modPath_phy (s : State) (p : Path) (f : PathState → PathState) : (s.modPath p f).phy = s.phy := by cases p <;> rfl
@[simp] theorem State.modPath_mac (s : State) (p : Path) (f : PathState → PathState) : (s.modPath p f).mac = s.mac := by cases p <;> rfl
@[simp] theorem State.modPath_gtu (s : State) (p : Path) (f : PathState → PathState) : (s.modPath p f).gtu = s.gtu := by cases p <;> rfl
@[simp] theorem State.modPath_sec (s : State) (p : Path) (f : PathState → PathState) : (s.modPath p f).sec = s.sec := by cases p <;> rfl
@[simp] theorem State.modPath_cmd (s : State) (p : Path) (f : PathState → PathState) : (s.modPath p f).cmd = s.cmd := by cases p <;> rfl
@[simp] theorem State.modPath_cyc (s : State) (p : Path) (f : PathState → PathState) : (s.modPath p f).cyc = s.cyc := by cases p <;> rfl
@[simp] theorem State.modPath_free (s : State) (p : Path) (f : PathState → PathState) : (s.modPath p f).free = s.free := by cases p <;> rfl
@[simp] theorem State.modPath_pending (s : State) (p : Path) (f : PathState → PathState) : (s.modPath p f).pending = s.pending := by cases p <;> rfl

/-! The channels of the fixed lists. -/

theorem State.chan_modChan_self (s : State) {n : Nat} (f : Chan → Chan) (h : n < s.pwm.chans.length) :
    (s.modChan n f).chan n = f (s.chan n) := nthOf_modNth_self f h

theorem State.chan_modChan_other (s : State) {n m : Nat} (f : Chan → Chan) (h : m ≠ n) :
    (s.modChan n f).chan m = s.chan m := nthOf_modNth_other _ f h

theorem State.flamp_modFlamp_self (s : State) {n : Nat} (f : FLamp → FLamp) (h : n < s.fde.lamps.length) :
    (s.modFlamp n f).flamp n = f (s.flamp n) := nthOf_modNth_self f h

theorem State.hchan_modHchan_self (s : State) {n : Nat} (f : HChan → HChan) (h : n < s.hlt.chans.length) :
    (s.modHchan n f).hchan n = f (s.hchan n) := nthOf_modNth_self f h

theorem State.gt_modGt_self (s : State) {n : Nat} (f : GtChan → GtChan) (h : n < s.gtu.length) :
    (s.modGt n f).gt n = f (s.gt n) := nthOf_modNth_self f h

@[simp] theorem State.chan_setReg (s : State) (k : Nat) (v : Word) (n : Nat) : (s.setReg k v).chan n = s.chan n := rfl
@[simp] theorem State.flamp_setReg (s : State) (k : Nat) (v : Word) (n : Nat) : (s.setReg k v).flamp n = s.flamp n := rfl
@[simp] theorem State.hchan_setReg (s : State) (k : Nat) (v : Word) (n : Nat) : (s.setReg k v).hchan n = s.hchan n := rfl
@[simp] theorem State.gt_setReg (s : State) (k : Nat) (v : Word) (n : Nat) : (s.setReg k v).gt n = s.gt n := rfl
@[simp] theorem State.chan_setFld (s : State) (g : Fld) (v : Nat) (n : Nat) : (s.setFld g v).chan n = s.chan n := rfl
@[simp] theorem State.flamp_setFld (s : State) (g : Fld) (v : Nat) (n : Nat) : (s.setFld g v).flamp n = s.flamp n := rfl
@[simp] theorem State.hchan_setFld (s : State) (g : Fld) (v : Nat) (n : Nat) : (s.setFld g v).hchan n = s.hchan n := rfl
@[simp] theorem State.gt_setFld (s : State) (g : Fld) (v : Nat) (n : Nat) : (s.setFld g v).gt n = s.gt n := rfl
@[simp] theorem State.chan_setFlag (s : State) (g : Fld) (b : Bool) (n : Nat) : (s.setFlag g b).chan n = s.chan n := rfl
@[simp] theorem State.flamp_setFlag (s : State) (g : Fld) (b : Bool) (n : Nat) : (s.setFlag g b).flamp n = s.flamp n := rfl
@[simp] theorem State.hchan_setFlag (s : State) (g : Fld) (b : Bool) (n : Nat) : (s.setFlag g b).hchan n = s.hchan n := rfl
@[simp] theorem State.gt_setFlag (s : State) (g : Fld) (b : Bool) (n : Nat) : (s.setFlag g b).gt n = s.gt n := rfl

/-! Settling. -/

/-- The registers that the settling of records may change: the ring interrupt of Q6 and the recorder's drop count, status
and interrupt. -/
abbrev settleKeys : List Nat := [R.IRQ_STAT_LO, R.IRQ_STAT_HI, R.LOG_DROP, R.LOG_STAT]

@[simp] theorem State.enterQ6_host (s : State) (r : EvRec) : (s.enterQ6 r).host = s.host := by
  unfold State.enterQ6 State.irq State.stick State.satInc
  dsimp only
  repeat' split
  all_goals rfl

@[simp] theorem State.enterQ6_remote (s : State) (r : EvRec) : (s.enterQ6 r).remote = s.remote := by
  unfold State.enterQ6 State.irq State.stick State.satInc
  dsimp only
  repeat' split
  all_goals rfl

@[simp] theorem State.enterQ6_fabric (s : State) (r : EvRec) : (s.enterQ6 r).fabric = s.fabric := by
  unfold State.enterQ6 State.irq State.stick State.satInc
  dsimp only
  repeat' split
  all_goals rfl

@[simp] theorem State.enterQ6_posted (s : State) (r : EvRec) : (s.enterQ6 r).posted = s.posted := by
  unfold State.enterQ6 State.irq State.stick State.satInc
  dsimp only
  repeat' split
  all_goals rfl

@[simp] theorem State.enterQ6_q7 (s : State) (r : EvRec) : (s.enterQ6 r).q7 = s.q7 := by
  unfold State.enterQ6 State.irq State.stick State.satInc
  dsimp only
  repeat' split
  all_goals rfl

@[simp] theorem State.enterQ6_clk (s : State) (r : EvRec) : (s.enterQ6 r).clk = s.clk := by
  unfold State.enterQ6 State.irq State.stick State.satInc
  dsimp only
  repeat' split
  all_goals rfl

@[simp] theorem State.enterQ6_tim (s : State) (r : EvRec) : (s.enterQ6 r).tim = s.tim := by
  unfold State.enterQ6 State.irq State.stick State.satInc
  dsimp only
  repeat' split
  all_goals rfl

@[simp] theorem State.enterQ6_keep (s : State) (r : EvRec) : (s.enterQ6 r).keep = s.keep := by
  unfold State.enterQ6 State.irq State.stick State.satInc
  dsimp only
  repeat' split
  all_goals rfl

@[simp] theorem State.enterQ6_pwr (s : State) (r : EvRec) : (s.enterQ6 r).pwr = s.pwr := by
  unfold State.enterQ6 State.irq State.stick State.satInc
  dsimp only
  repeat' split
  all_goals rfl

@[simp] theorem State.enterQ6_pwm (s : State) (r : EvRec) : (s.enterQ6 r).pwm = s.pwm := by
  unfold State.enterQ6 State.irq State.stick State.satInc
  dsimp only
  repeat' split
  all_goals rfl

@[simp] theorem State.enterQ6_lmp (s : State) (r : EvRec) : (s.enterQ6 r).lmp = s.lmp := by
  unfold State.enterQ6 State.irq State.stick State.satInc
  dsimp only
  repeat' split
  all_goals rfl

@[simp] theorem State.enterQ6_fde (s : State) (r : EvRec) : (s.enterQ6 r).fde = s.fde := by
  unfold State.enterQ6 State.irq State.stick State.satInc
  dsimp only
  repeat' split
  all_goals rfl

@[simp] theorem State.enterQ6_hlt (s : State) (r : EvRec) : (s.enterQ6 r).hlt = s.hlt := by
  unfold State.enterQ6 State.irq State.stick State.satInc
  dsimp only
  repeat' split
  all_goals rfl

@[simp] theorem State.enterQ6_phy (s : State) (r : EvRec) : (s.enterQ6 r).phy = s.phy := by
  unfold State.enterQ6 State.irq State.stick State.satInc
  dsimp only
  repeat' split
  all_goals rfl

@[simp] theorem State.enterQ6_mac (s : State) (r : EvRec) : (s.enterQ6 r).mac = s.mac := by
  unfold State.enterQ6 State.irq State.stick State.satInc
  dsimp only
  repeat' split
  all_goals rfl

@[simp] theorem State.enterQ6_gtu (s : State) (r : EvRec) : (s.enterQ6 r).gtu = s.gtu := by
  unfold State.enterQ6 State.irq State.stick State.satInc
  dsimp only
  repeat' split
  all_goals rfl

@[simp] theorem State.enterQ6_sec (s : State) (r : EvRec) : (s.enterQ6 r).sec = s.sec := by
  unfold State.enterQ6 State.irq State.stick State.satInc
  dsimp only
  repeat' split
  all_goals rfl

@[simp] theorem State.enterQ6_cmd (s : State) (r : EvRec) : (s.enterQ6 r).cmd = s.cmd := by
  unfold State.enterQ6 State.irq State.stick State.satInc
  dsimp only
  repeat' split
  all_goals rfl

@[simp] theorem State.enterQ6_cyc (s : State) (r : EvRec) : (s.enterQ6 r).cyc = s.cyc := by
  unfold State.enterQ6 State.irq State.stick State.satInc
  dsimp only
  repeat' split
  all_goals rfl

@[simp] theorem State.enterQ6_free (s : State) (r : EvRec) : (s.enterQ6 r).free = s.free := by
  unfold State.enterQ6 State.irq State.stick State.satInc
  dsimp only
  repeat' split
  all_goals rfl

@[simp] theorem State.enterQ6_pending (s : State) (r : EvRec) : (s.enterQ6 r).pending = s.pending := by
  unfold State.enterQ6 State.irq State.stick State.satInc
  dsimp only
  repeat' split
  all_goals rfl


theorem foldl_enterQ6_frame {α : Type} (g : State → α) (h : ∀ s r, g (State.enterQ6 s r) = g s) (l : List EvRec) (s : State) :
    g (l.foldl State.enterQ6 s) = g s := by
  induction l generalizing s with
  | nil => rfl
  | cons r l ih => exact (ih _).trans (h s r)

@[simp] theorem settle_host (s : State) : (settle s).host = s.host := foldl_enterQ6_frame State.host State.enterQ6_host _ _
@[simp] theorem settle_remote (s : State) : (settle s).remote = s.remote := foldl_enterQ6_frame State.remote State.enterQ6_remote _ _
@[simp] theorem settle_fabric (s : State) : (settle s).fabric = s.fabric := foldl_enterQ6_frame State.fabric State.enterQ6_fabric _ _
@[simp] theorem settle_q7 (s : State) : (settle s).q7 = s.q7 := foldl_enterQ6_frame State.q7 State.enterQ6_q7 _ _
@[simp] theorem settle_clk (s : State) : (settle s).clk = s.clk := foldl_enterQ6_frame State.clk State.enterQ6_clk _ _
@[simp] theorem settle_tim (s : State) : (settle s).tim = s.tim := foldl_enterQ6_frame State.tim State.enterQ6_tim _ _
@[simp] theorem settle_keep (s : State) : (settle s).keep = s.keep := foldl_enterQ6_frame State.keep State.enterQ6_keep _ _
@[simp] theorem settle_pwr (s : State) : (settle s).pwr = s.pwr := foldl_enterQ6_frame State.pwr State.enterQ6_pwr _ _
@[simp] theorem settle_pwm (s : State) : (settle s).pwm = s.pwm := foldl_enterQ6_frame State.pwm State.enterQ6_pwm _ _
@[simp] theorem settle_lmp (s : State) : (settle s).lmp = s.lmp := foldl_enterQ6_frame State.lmp State.enterQ6_lmp _ _
@[simp] theorem settle_fde (s : State) : (settle s).fde = s.fde := foldl_enterQ6_frame State.fde State.enterQ6_fde _ _
@[simp] theorem settle_hlt (s : State) : (settle s).hlt = s.hlt := foldl_enterQ6_frame State.hlt State.enterQ6_hlt _ _
@[simp] theorem settle_phy (s : State) : (settle s).phy = s.phy := foldl_enterQ6_frame State.phy State.enterQ6_phy _ _
@[simp] theorem settle_mac (s : State) : (settle s).mac = s.mac := foldl_enterQ6_frame State.mac State.enterQ6_mac _ _
@[simp] theorem settle_gtu (s : State) : (settle s).gtu = s.gtu := foldl_enterQ6_frame State.gtu State.enterQ6_gtu _ _
@[simp] theorem settle_sec (s : State) : (settle s).sec = s.sec := foldl_enterQ6_frame State.sec State.enterQ6_sec _ _
@[simp] theorem settle_cmd (s : State) : (settle s).cmd = s.cmd := foldl_enterQ6_frame State.cmd State.enterQ6_cmd _ _
@[simp] theorem settle_cyc (s : State) : (settle s).cyc = s.cyc := foldl_enterQ6_frame State.cyc State.enterQ6_cyc _ _
@[simp] theorem settle_free (s : State) : (settle s).free = s.free := foldl_enterQ6_frame State.free State.enterQ6_free _ _
@[simp] theorem settle_pending (s : State) : (settle s).pending = s.pending := foldl_enterQ6_frame State.pending State.enterQ6_pending _ _

@[simp] theorem settle_posted (s : State) : (settle s).posted = [] := foldl_enterQ6_frame State.posted State.enterQ6_posted _ _

theorem State.enterQ6_reg (s : State) (r : EvRec) {k : Nat} (h : k ∉ settleKeys) : (s.enterQ6 r).reg k = s.reg k := by
  simp only [settleKeys, List.mem_cons, List.not_mem_nil, or_false, not_or] at h
  obtain ⟨h1, h2, h3, h4⟩ := h
  have e : ∀ (t : State) n, (t.irq n).reg k = t.reg k := by
    intro t n; unfold State.irq; split <;> simp [h1, h2]
  unfold State.enterQ6
  split
  · rw [e]; rfl
  · have e2 : (s.satInc F.LOG_DROP_N).reg k = s.reg k := by
      unfold State.satInc; dsimp only; split
      · exact s.reg_setFld_of_ne _ h3
      · rfl
    have e3 : ∀ t : State, (t.stick R.LOG_STAT R.LOG_IRQEN irqLog F.LOG_STAT_Q6OVF.mask).reg k = t.reg k := by
      intro t; unfold State.stick; dsimp only; split
      · exact t.reg_setReg_of_ne _ h4
      · rw [e]; exact t.reg_setReg_of_ne _ h4
    exact (e3 _).trans e2

/-- Settling leaves every register alone but those of settleKeys. -/
@[simp] theorem settle_reg (s : State) {k : Nat} (h : k ∉ settleKeys) : (settle s).reg k = s.reg k :=
  foldl_enterQ6_frame (fun t => t.reg k) (fun t r => t.enterQ6_reg r h) _ _

@[simp] theorem settle_fld (s : State) {g : Fld} (h : g.key ∉ settleKeys) : (settle s).fld g = s.fld g := by
  simp only [State.fld, settle_reg s h]

@[simp] theorem settle_flag (s : State) {g : Fld} (h : g.key ∉ settleKeys) : (settle s).flag g = s.flag g := by
  simp only [State.flag, settle_fld s h]

/-- With no record posted there is nothing to settle. -/
theorem settle_of_posted_nil {s : State} (h : s.posted = []) : settle s = s := by
  cases s; simp_all [settle, sortRecs]

/-- The vault changes in its drop count only. -/
theorem settle_vlt_flash (s : State) : (settle s).vlt.flash = s.vlt.flash := by
  refine foldl_enterQ6_frame (fun t => t.vlt.flash) (fun t r => ?_) _ _
  unfold State.enterQ6 State.irq State.stick State.satInc
  dsimp only
  repeat' split
  all_goals rfl

end Sys2Proof.Machine
end

