-- ==== Sys2Proof/Laws/Access.lean ====
section
/-! SUPPORT. Register access: a plain register's write is the merge of R2, for each page. -/

namespace Sys2Proof.Machine

variable {off : Nat} (s : State) (p : Path) (v : Word)

theorem State.writeSys_plain (h : PlainRegister 0 off = true) : s.writeSys p off v = s.mergeReg p 0 off 0 v := by
  unfold State.writeSys
  split <;> first | (exact absurd h (by decide)) | rfl

theorem State.writeClk_plain (h : PlainRegister 1 off = true) : s.writeClk p off v = s.mergeReg p 1 off 0 v := by
  unfold State.writeClk
  split <;> first | (exact absurd h (by decide)) | rfl

theorem State.writePwr_plain (h : PlainRegister 2 off = true) : s.writePwr p off v = s.mergeReg p 2 off 0 v := by
  unfold State.writePwr
  split <;> first | (exact absurd h (by decide)) | rfl

theorem State.writeKeep_plain (h : PlainRegister 3 off = true) : s.writeKeep p off v = s.mergeReg p 3 off 0 v := by
  unfold State.writeKeep
  split <;> first | (exact absurd h (by decide)) | rfl

theorem State.writePwm_plain (h : PlainRegister 4 off = true) : s.writePwm p off v = s.mergeReg p 4 off 0 v := by
  unfold State.writePwm
  split <;> first | (exact absurd h (by decide)) | rfl

theorem State.writeCur_plain (h : PlainRegister 5 off = true) : s.writeCur p off v = s.mergeReg p 5 off 0 v := by
  unfold State.writeCur
  split <;> first | (exact absurd h (by decide)) | rfl

theorem State.writeLmp_plain (h : PlainRegister 6 off = true) : s.writeLmp p off v = s.mergeReg p 6 off 0 v := by
  unfold State.writeLmp
  split <;> first | (exact absurd h (by decide)) | rfl

theorem State.writeFde_plain (h : PlainRegister 7 off = true) : s.writeFde p off v = s.mergeReg p 7 off 0 v := by
  unfold State.writeFde
  split <;> first | (exact absurd h (by decide)) | rfl

theorem State.writeHlt_plain (h : PlainRegister 8 off = true) : s.writeHlt p off v = s.mergeReg p 8 off 0 v := by
  unfold State.writeHlt
  split <;> first | (exact absurd h (by decide)) | rfl

theorem State.writePhy_plain (h : PlainRegister 9 off = true) : s.writePhy p off v = s.mergeReg p 9 off 0 v := by
  unfold State.writePhy
  split <;> first | (exact absurd h (by decide)) | rfl

theorem State.writeMac_plain (h : PlainRegister 10 off = true) : s.writeMac p off v = s.mergeReg p 10 off 0 v := by
  unfold State.writeMac
  split <;> first | (exact absurd h (by decide)) | rfl

theorem State.writeTim_plain (h : PlainRegister 12 off = true) : s.writeTim p off v = s.mergeReg p 12 off 0 v := by
  unfold State.writeTim
  split <;> first | (exact absurd h (by decide)) | rfl

theorem State.writeGtu_plain (h : PlainRegister 13 off = true) : s.writeGtu p off v = s.mergeReg p 13 off 0 v := by
  unfold State.writeGtu
  split <;> first | (exact absurd h (by decide)) | rfl

theorem State.writeVlt_plain (h : PlainRegister 14 off = true) : s.writeVlt p off v = s.mergeReg p 14 off 0 v := by
  unfold State.writeVlt
  split <;> first | (exact absurd h (by decide)) | rfl

theorem State.writeSec_plain (h : PlainRegister 15 off = true) : s.writeSec p off v = s.mergeReg p 15 off 0 v := by
  unfold State.writeSec
  split <;> first | (exact absurd h (by decide)) | rfl

theorem State.writeLog_plain (h : PlainRegister 16 off = true) : s.writeLog p off v = s.mergeReg p 16 off 0 v := by
  unfold State.writeLog
  split <;> first | (exact absurd h (by decide)) | rfl

/-- A plain register's write is the merge of R2. -/
theorem State.plainWrite_plain {page : Nat} (h : PlainRegister page off = true) :
    s.plainWrite p page off v = s.mergeReg p page off 0 v := by
  unfold State.plainWrite
  split
  · exact s.writeSys_plain p v h
  · exact s.writeClk_plain p v h
  · exact s.writePwr_plain p v h
  · exact s.writeKeep_plain p v h
  · exact s.writePwm_plain p v h
  · exact s.writeCur_plain p v h
  · exact s.writeLmp_plain p v h
  · exact s.writeFde_plain p v h
  · exact s.writeHlt_plain p v h
  · exact s.writePhy_plain p v h
  · exact s.writeMac_plain p v h
  · exact s.writeTim_plain p v h
  · exact s.writeGtu_plain p v h
  · exact s.writeVlt_plain p v h
  · exact s.writeSec_plain p v h
  · exact s.writeLog_plain p v h
  · rfl

theorem State.indexWrite_plain {page i : Nat} (h : PlainRegister page off = true) :
    s.indexWrite p page off i v = s.mergeReg p page off i v := by
  unfold State.indexWrite
  split <;> first | (exact absurd h (by decide)) | rfl

/-- What the merge of a register stores, and that it leaves every other register alone. -/
theorem State.mergeReg_of_some {page i : Nat} {r : RegDef} (hd : regDef page off = some r) :
    s.mergeReg p page off i v = s.setReg (regKey page off i) (s.mergedWord p page off i r v) := by
  simp only [State.mergeReg, hd]

end Sys2Proof.Machine
end

