-- ==== Sys2Proof/Laws/Keeps.lean ====
section
/-! SUPPORT. The relation `Keeps s t`: t has the queue of s, and the shape of s where s has one. Every operation of the
model keeps; the files Laws/Keeps*.lean prove it operation by operation, and a step's invariant follows. -/

namespace Sys2Proof.Machine

/-- Both parts of the flash are canonical. -/
abbrev VltState.Kept (v : VltState) : Prop := Memory.wf v.flash = true ∧ Memory.wf v.own = true

/-- `t` has the queue of `s`, and its shape where `s` has one. -/
def Keeps (s t : State) : Prop := t.pending = s.pending ∧ (s.Shape → t.Shape)

theorem Keeps.refl (s : State) : Keeps s s := ⟨rfl, id⟩

theorem Keeps.trans {s t u : State} (h : Keeps s t) (g : Keeps t u) : Keeps s u := ⟨g.1.trans h.1, fun x => g.2 (h.2 x)⟩

theorem Keeps.ite {s a b : State} {c : Prop} [Decidable c] (ha : Keeps s a) (hb : Keeps s b) :
    Keeps s (if c then a else b) := by
  split <;> assumption

theorem Keeps.foldl {α : Type} {s t : State} {l : List α} {f : State → α → State}
    (h : ∀ u x, Keeps s u → Keeps s (f u x)) (ht : Keeps s t) : Keeps s (l.foldl f t) := by
  induction l generalizing t with
  | nil => exact ht
  | cons x l ih => exact ih (h t x ht)

theorem Keeps.foldlFst {α β : Type} {s t : State} {b : β} {l : List α} {f : State × β → α → State × β}
    (h : ∀ u x, Keeps s u.1 → Keeps s (f u x).1) (ht : Keeps s t) : Keeps s (l.foldl f (t, b)).1 := by
  have : ∀ (l : List α) (p : State × β), Keeps s p.1 → Keeps s (l.foldl f p).1 := by
    intro l
    induction l with
    | nil => exact fun _ h => h
    | cons x l ih => exact fun p hp => ih _ (h p x hp)
  exact this l (t, b) ht

theorem Keeps.setReg {s t : State} {k : Nat} {v : Word} (h : Keeps s t) : Keeps s (t.setReg k v) :=
  ⟨h.1, fun x => { h.2 x with regs := spWf_spSet _ _ _ (h.2 x).regs }⟩

/-- An update that leaves the register file, the flash, Q6 and the fixed lists alone. -/
theorem Keeps.mk_iff {s t : State} {host remote fabric acted actedAt pulses posted q7 clk tim keep pwr lmp phy mac sec cmd cyc free} :
    Keeps s (State.mk t.regs host remote fabric acted actedAt pulses posted t.q6 q7 clk tim keep pwr t.vlt t.pwm lmp t.fde t.hlt phy mac t.gtu
      sec cmd cyc free t.pending) ↔ Keeps s t := by
  constructor <;> exact fun h => ⟨h.1, fun x => ⟨(h.2 x).1, (h.2 x).2, (h.2 x).3, (h.2 x).4, (h.2 x).5, (h.2 x).6, (h.2 x).7, (h.2 x).8⟩⟩

/-- The same where the vault changes beside its flash. -/
theorem Keeps.mkVlt_iff {s t : State} {host remote fabric acted actedAt pulses posted q7 clk tim keep pwr lmp phy mac sec cmd cyc free
      last hatAt recs keys recHead recTail keyHead keyTail cnum vnum clean begun cutAt buf wait commit op scr
      cfgBank tabBank lostBuf tabDue cfgSeen tabSeen pw legBuf usrBuf past hatBase hatMark hatHeld hatTag
      hatNext fold epoch hatSec basePos hatCut hatBad recUp sealing dropped torn} :
    Keeps s (State.mk t.regs host remote fabric acted actedAt pulses posted t.q6 q7 clk tim keep pwr
      (VltState.mk t.vlt.flash t.vlt.own last hatAt recs keys recHead recTail keyHead keyTail cnum vnum clean
        begun cutAt buf wait commit op scr cfgBank tabBank lostBuf tabDue cfgSeen tabSeen pw legBuf usrBuf past
        hatBase hatMark hatHeld hatTag hatNext fold epoch hatSec basePos hatCut hatBad recUp sealing dropped
        torn)
      t.pwm lmp t.fde t.hlt phy mac t.gtu sec cmd cyc free t.pending) ↔ Keeps s t := by
  constructor <;> exact fun h => ⟨h.1, fun x => ⟨(h.2 x).1, (h.2 x).2, (h.2 x).3, (h.2 x).4, (h.2 x).5, (h.2 x).6, (h.2 x).7, (h.2 x).8⟩⟩

/-- An update that keeps the forms and the lengths. -/
theorem Keeps.mk' {s t : State} {regs host remote fabric acted actedAt pulses posted q6 q7 clk tim keep pwr vlt pwm lmp fde hlt phy mac gtu
      sec cmd cyc free} (h : Keeps s t) (hr : spWf regReset t.regs = true → spWf regReset regs = true)
    (hv : t.vlt.Kept → vlt.Kept) (hq : t.q6.length ≤ 64 → q6.length ≤ 64)
    (hp : t.pwm.chans.length = 16 → pwm.chans.length = 16) (hf : t.fde.lamps.length = 8 → fde.lamps.length = 8)
    (hh : t.hlt.chans.length = 16 → hlt.chans.length = 16) (hg : t.gtu.length = 8 → gtu.length = 8) :
    Keeps s (State.mk regs host remote fabric acted actedAt pulses posted q6 q7 clk tim keep pwr vlt pwm lmp fde hlt phy mac gtu
      sec cmd cyc free t.pending) :=
  ⟨h.1, fun x => let y := h.2 x; let z := hv ⟨y.2, y.3⟩; ⟨hr y.1, z.1, z.2, hq y.4, hp y.5, hf y.6, hh y.7, hg y.8⟩⟩

/-- Q6 gets shorter. -/
theorem Keeps.q6Less {s t : State} {l : List EvRec} (h : Keeps s t) (hl : l.length ≤ t.q6.length) :
    Keeps s { t with q6 := l } := Keeps.mk' h id id (fun x => Nat.le_trans hl x) id id id id

/-- The state of a pair that an equation takes apart. -/
theorem Keeps.ofEq {s t : State} {β : Type} {p : State × β} {w : β} (e : p = (t, w)) (h : Keeps s p.1) : Keeps s t := by
  rw [e] at h; exact h

theorem Keeps.modVlt {s t : State} {f : VltState → VltState} (h : Keeps s t)
    (hf : ∀ v : VltState, v.Kept → (f v).Kept) : Keeps s (t.modVlt f) :=
  Keeps.mk' h id (hf _) id id id id id

theorem Keeps.modPwm {s t : State} {f : PwmState → PwmState} (h : Keeps s t)
    (hf : ∀ p : PwmState, p.chans.length = 16 → (f p).chans.length = 16) : Keeps s (t.modPwm f) :=
  Keeps.mk' h id id id (hf _) id id id

theorem Keeps.modChan {s t : State} {n : Nat} {f : Chan → Chan} (h : Keeps s t) : Keeps s (t.modChan n f) :=
  Keeps.mk' h id id id (by simp) id id id

theorem Keeps.modFde {s t : State} {f : FdeState → FdeState} (h : Keeps s t)
    (hf : ∀ p : FdeState, p.lamps.length = 8 → (f p).lamps.length = 8) : Keeps s (t.modFde f) :=
  Keeps.mk' h id id id id (hf _) id id

theorem Keeps.modFlamp {s t : State} {n : Nat} {f : FLamp → FLamp} (h : Keeps s t) : Keeps s (t.modFlamp n f) :=
  Keeps.mk' h id id id id (by simp) id id

theorem Keeps.modHlt {s t : State} {f : HltState → HltState} (h : Keeps s t)
    (hf : ∀ p : HltState, p.chans.length = 16 → (f p).chans.length = 16) : Keeps s (t.modHlt f) :=
  Keeps.mk' h id id id id id (hf _) id

theorem Keeps.modHchan {s t : State} {n : Nat} {f : HChan → HChan} (h : Keeps s t) : Keeps s (t.modHchan n f) :=
  Keeps.mk' h id id id id id (by simp) id

theorem Keeps.modGt {s t : State} {n : Nat} {f : GtChan → GtChan} (h : Keeps s t) : Keeps s (t.modGt n f) :=
  Keeps.mk' h id id id id id id (by simp)

theorem spClear_flash_wf {m : List Host.Cell} {a n : Nat} (h : Memory.wf m = true) : Memory.wf (spClear m a n) = true :=
  spWf_spClear _ _ _ h

/-- A keeping function applied for each member of a list, the member first. -/
theorem Keeps.forChans {s t : State} {f : Nat → State → State} (h : Keeps s t)
    (hf : ∀ n u, Keeps s u → Keeps s (f n u)) : Keeps s (t.forChans f) := Keeps.foldl (fun u n hu => hf n u hu) h

theorem Keeps.forGts {s t : State} {f : Nat → State → State} (h : Keeps s t)
    (hf : ∀ n u, Keeps s u → Keeps s (f n u)) : Keeps s (t.forGts f) := Keeps.foldl (fun u n hu => hf n u hu) h

end Sys2Proof.Machine
end

