-- ==== Sys2Proof/Laws/KeepsOps.lean ====
section
/-! SUPPORT. Every operation of Machine/Ops.lean keeps the queue and the shape of the state. -/

namespace Sys2Proof.Machine

theorem State.setFld_keeps {s0 : State} {s : State} {f : Fld} {v : Nat} (hk : Keeps s0 s) :
    Keeps s0 (State.setFld s f v) := by
  unfold State.setFld
  try dsimp only
  repeat' (with_reducible first
    | assumption
    | exact Keeps.refl _
    | intro _
    | apply Keeps.setReg
    | (refine Keeps.ofEq (by assumption) ?_)
    | apply Keeps.ite
    | apply Keeps.foldl
    | apply Keeps.foldlFst
    | apply Keeps.setReg
    | simp only [Keeps.mk_iff]
    | simp only [Keeps.mkVlt_iff]
    | split)
  all_goals first
    | exact id
    | (intro _ hq; exact hq)
    | (intro _; rfl)
    | (intro _ hq; simp [hq]; done)
    | (intro hq; simp [hq]; done)
    | (simp_all; done)
    | (simp; done)

theorem State.setFlag_keeps {s0 : State} {s : State} {f : Fld} {b : Bool} (hk : Keeps s0 s) :
    Keeps s0 (State.setFlag s f b) := by
  unfold State.setFlag
  try dsimp only
  repeat' (with_reducible first
    | assumption
    | exact Keeps.refl _
    | intro _
    | apply State.setFld_keeps
    | (refine Keeps.ofEq (by assumption) ?_)
    | apply Keeps.ite
    | apply Keeps.foldl
    | apply Keeps.foldlFst
    | apply Keeps.setReg
    | simp only [Keeps.mk_iff]
    | simp only [Keeps.mkVlt_iff]
    | split)
  all_goals first
    | exact id
    | (intro _ hq; exact hq)
    | (intro _; rfl)
    | (intro _ hq; simp [hq]; done)
    | (intro hq; simp [hq]; done)
    | (simp_all; done)
    | (simp; done)

theorem State.setBit_keeps {s0 : State} {s : State} {k : Nat} {i : Nat} {b : Bool} (hk : Keeps s0 s) :
    Keeps s0 (State.setBit s k i b) := by
  unfold State.setBit
  try dsimp only
  repeat' (with_reducible first
    | assumption
    | exact Keeps.refl _
    | intro _
    | apply Keeps.setReg
    | (refine Keeps.ofEq (by assumption) ?_)
    | apply Keeps.ite
    | apply Keeps.foldl
    | apply Keeps.foldlFst
    | apply Keeps.setReg
    | simp only [Keeps.mk_iff]
    | simp only [Keeps.mkVlt_iff]
    | split)
  all_goals first
    | exact id
    | (intro _ hq; exact hq)
    | (intro _; rfl)
    | (intro _ hq; simp [hq]; done)
    | (intro hq; simp [hq]; done)
    | (simp_all; done)
    | (simp; done)

theorem State.setPair_keeps {s0 : State} {s : State} {k : Nat} {v : Nat} (hk : Keeps s0 s) :
    Keeps s0 (State.setPair s k v) := by
  unfold State.setPair
  try dsimp only
  repeat' (with_reducible first
    | assumption
    | exact Keeps.refl _
    | intro _
    | apply Keeps.setReg
    | (refine Keeps.ofEq (by assumption) ?_)
    | apply Keeps.ite
    | apply Keeps.foldl
    | apply Keeps.foldlFst
    | apply Keeps.setReg
    | simp only [Keeps.mk_iff]
    | simp only [Keeps.mkVlt_iff]
    | split)
  all_goals first
    | exact id
    | (intro _ hq; exact hq)
    | (intro _; rfl)
    | (intro _ hq; simp [hq]; done)
    | (intro hq; simp [hq]; done)
    | (simp_all; done)
    | (simp; done)

theorem State.satInc_keeps {s0 : State} {s : State} {f : Fld} (hk : Keeps s0 s) :
    Keeps s0 (State.satInc s f) := by
  unfold State.satInc
  try dsimp only
  repeat' (with_reducible first
    | assumption
    | exact Keeps.refl _
    | intro _
    | apply State.setFld_keeps
    | (refine Keeps.ofEq (by assumption) ?_)
    | apply Keeps.ite
    | apply Keeps.foldl
    | apply Keeps.foldlFst
    | apply Keeps.setReg
    | simp only [Keeps.mk_iff]
    | simp only [Keeps.mkVlt_iff]
    | split)
  all_goals first
    | exact id
    | (intro _ hq; exact hq)
    | (intro _; rfl)
    | (intro _ hq; simp [hq]; done)
    | (intro hq; simp [hq]; done)
    | (simp_all; done)
    | (simp; done)

theorem State.incReg_keeps {s0 : State} {s : State} {k : Nat} (hk : Keeps s0 s) :
    Keeps s0 (State.incReg s k) := by
  unfold State.incReg
  try dsimp only
  repeat' (with_reducible first
    | assumption
    | exact Keeps.refl _
    | intro _
    | apply Keeps.setReg
    | (refine Keeps.ofEq (by assumption) ?_)
    | apply Keeps.ite
    | apply Keeps.foldl
    | apply Keeps.foldlFst
    | apply Keeps.setReg
    | simp only [Keeps.mk_iff]
    | simp only [Keeps.mkVlt_iff]
    | split)
  all_goals first
    | exact id
    | (intro _ hq; exact hq)
    | (intro _; rfl)
    | (intro _ hq; simp [hq]; done)
    | (intro hq; simp [hq]; done)
    | (simp_all; done)
    | (simp; done)

theorem State.useFree_keeps {s0 : State} {s : State} (hk : Keeps s0 s) :
    Keeps s0 (State.useFree s) := by
  unfold State.useFree
  try dsimp only
  repeat' (with_reducible first
    | assumption
    | exact Keeps.refl _
    | intro _
    | (refine Keeps.ofEq (by assumption) ?_)
    | apply Keeps.ite
    | apply Keeps.foldl
    | apply Keeps.foldlFst
    | apply Keeps.setReg
    | simp only [Keeps.mk_iff]
    | simp only [Keeps.mkVlt_iff]
    | split)
  all_goals first
    | exact id
    | (intro _ hq; exact hq)
    | (intro _; rfl)
    | (intro _ hq; simp [hq]; done)
    | (intro hq; simp [hq]; done)
    | (simp_all; done)
    | (simp; done)

theorem State.modPath_keeps {s0 : State} {s : State} {p : Path} {f : PathState → PathState} (hk : Keeps s0 s) :
    Keeps s0 (State.modPath s p f) := by
  unfold State.modPath
  try dsimp only
  repeat' (with_reducible first
    | assumption
    | exact Keeps.refl _
    | intro _
    | (refine Keeps.ofEq (by assumption) ?_)
    | apply Keeps.ite
    | apply Keeps.foldl
    | apply Keeps.foldlFst
    | apply Keeps.setReg
    | simp only [Keeps.mk_iff]
    | simp only [Keeps.mkVlt_iff]
    | split)
  all_goals first
    | exact id
    | (intro _ hq; exact hq)
    | (intro _; rfl)
    | (intro _ hq; simp [hq]; done)
    | (intro hq; simp [hq]; done)
    | (simp_all; done)
    | (simp; done)

theorem State.onWrite_keeps {s0 : State} {s : State} {p : Path} {f : State → State} (hk : Keeps s0 s) (hf : ∀ u0, Keeps s0 u0 → Keeps s0 (f u0)) :
    Keeps s0 (State.onWrite s p f) := by
  unfold State.onWrite
  try dsimp only
  repeat' (with_reducible first
    | assumption
    | exact Keeps.refl _
    | intro _
    | apply State.modPath_keeps
    | apply hf
    | (refine Keeps.ofEq (by assumption) ?_)
    | apply Keeps.ite
    | apply Keeps.foldl
    | apply Keeps.foldlFst
    | apply Keeps.setReg
    | simp only [Keeps.mk_iff]
    | simp only [Keeps.mkVlt_iff]
    | split)
  all_goals first
    | exact id
    | (intro _ hq; exact hq)
    | (intro _; rfl)
    | (intro _ hq; simp [hq]; done)
    | (intro hq; simp [hq]; done)
    | (simp_all; done)
    | (simp; done)

theorem State.irq_keeps {s0 : State} {s : State} {n : Nat} (hk : Keeps s0 s) :
    Keeps s0 (State.irq s n) := by
  unfold State.irq
  try dsimp only
  repeat' (with_reducible first
    | assumption
    | exact Keeps.refl _
    | intro _
    | apply State.setBit_keeps
    | (refine Keeps.ofEq (by assumption) ?_)
    | apply Keeps.ite
    | apply Keeps.foldl
    | apply Keeps.foldlFst
    | apply Keeps.setReg
    | simp only [Keeps.mk_iff]
    | simp only [Keeps.mkVlt_iff]
    | split)
  all_goals first
    | exact id
    | (intro _ hq; exact hq)
    | (intro _; rfl)
    | (intro _ hq; simp [hq]; done)
    | (intro hq; simp [hq]; done)
    | (simp_all; done)
    | (simp; done)

theorem State.nmi_keeps {s0 : State} {s : State} {f : Fld} (hk : Keeps s0 s) :
    Keeps s0 (State.nmi s f) := by
  unfold State.nmi
  try dsimp only
  repeat' (with_reducible first
    | assumption
    | exact Keeps.refl _
    | intro _
    | apply State.setFlag_keeps
    | (refine Keeps.ofEq (by assumption) ?_)
    | apply Keeps.ite
    | apply Keeps.foldl
    | apply Keeps.foldlFst
    | apply Keeps.setReg
    | simp only [Keeps.mk_iff]
    | simp only [Keeps.mkVlt_iff]
    | split)
  all_goals first
    | exact id
    | (intro _ hq; exact hq)
    | (intro _; rfl)
    | (intro _ hq; simp [hq]; done)
    | (intro hq; simp [hq]; done)
    | (simp_all; done)
    | (simp; done)

theorem State.stick_keeps {s0 : State} {s : State} {stat : Nat} {en : Nat} {irq : Nat} {m : Word} (hk : Keeps s0 s) :
    Keeps s0 (State.stick s stat en irq m) := by
  unfold State.stick
  try dsimp only
  repeat' (with_reducible first
    | assumption
    | exact Keeps.refl _
    | intro _
    | apply Keeps.setReg
    | apply State.irq_keeps
    | (refine Keeps.ofEq (by assumption) ?_)
    | apply Keeps.ite
    | apply Keeps.foldl
    | apply Keeps.foldlFst
    | apply Keeps.setReg
    | simp only [Keeps.mk_iff]
    | simp only [Keeps.mkVlt_iff]
    | split)
  all_goals first
    | exact id
    | (intro _ hq; exact hq)
    | (intro _; rfl)
    | (intro _ hq; simp [hq]; done)
    | (intro hq; simp [hq]; done)
    | (simp_all; done)
    | (simp; done)

theorem State.enterQ6_keeps {s0 : State} {s : State} {r : EvRec} (hk : Keeps s0 s) : Keeps s0 (s.enterQ6 r) := by
  unfold State.enterQ6
  split
  · rename_i hl
    exact State.irq_keeps (Keeps.mk' hk id id (fun _ => by simp; omega) id id id id)
  · dsimp only
    simp only [Keeps.mkVlt_iff]
    exact State.stick_keeps (State.satInc_keeps hk)

theorem State.pulse_keeps {s0 : State} {s : State} {src : Nat} (hk : Keeps s0 s) :
    Keeps s0 (State.pulse s src) := by
  unfold State.pulse
  try dsimp only
  repeat' (with_reducible first
    | assumption
    | exact Keeps.refl _
    | intro _
    | (refine Keeps.ofEq (by assumption) ?_)
    | apply Keeps.ite
    | apply Keeps.foldl
    | apply Keeps.foldlFst
    | apply Keeps.setReg
    | simp only [Keeps.mk_iff]
    | simp only [Keeps.mkVlt_iff]
    | split)
  all_goals first
    | exact id
    | (intro _ hq; exact hq)
    | (intro _; rfl)
    | (intro _ hq; simp [hq]; done)
    | (intro hq; simp [hq]; done)
    | (simp_all; done)
    | (simp; done)

theorem State.post_keeps {s0 : State} {s : State} {cls : Nat} {ev : Nat} {detail : Nat} (hk : Keeps s0 s) :
    Keeps s0 (State.post s cls ev detail) := by
  unfold State.post
  try dsimp only
  repeat' (with_reducible first
    | assumption
    | exact Keeps.refl _
    | intro _
    | (refine Keeps.ofEq (by assumption) ?_)
    | apply Keeps.ite
    | apply Keeps.foldl
    | apply Keeps.foldlFst
    | apply Keeps.setReg
    | simp only [Keeps.mk_iff]
    | simp only [Keeps.mkVlt_iff]
    | split)
  all_goals first
    | exact id
    | (intro _ hq; exact hq)
    | (intro _; rfl)
    | (intro _ hq; simp [hq]; done)
    | (intro hq; simp [hq]; done)
    | (simp_all; done)
    | (simp; done)

theorem State.holdRec_keeps {s0 : State} {s : State} {r : EvRec} (hk : Keeps s0 s) :
    Keeps s0 (State.holdRec s r) := by
  unfold State.holdRec
  try dsimp only
  repeat' (with_reducible first
    | assumption
    | exact Keeps.refl _
    | intro _
    | (refine Keeps.ofEq (by assumption) ?_)
    | apply Keeps.ite
    | apply Keeps.foldl
    | apply Keeps.foldlFst
    | apply Keeps.setReg
    | simp only [Keeps.mk_iff]
    | simp only [Keeps.mkVlt_iff]
    | split)
  all_goals first
    | exact id
    | (intro _ hq; exact hq)
    | (intro _; rfl)
    | (intro _ hq; simp [hq]; done)
    | (intro hq; simp [hq]; done)
    | (simp_all; done)
    | (simp; done)

theorem settle_keeps {s0 : State} {s : State} (hk : Keeps s0 s) :
    Keeps s0 (settle s) := by
  unfold settle
  try dsimp only
  repeat' (with_reducible first
    | assumption
    | exact Keeps.refl _
    | intro _
    | apply State.enterQ6_keeps
    | apply State.enterQ6_keeps
    | (refine Keeps.ofEq (by assumption) ?_)
    | apply Keeps.ite
    | apply Keeps.foldl
    | apply Keeps.foldlFst
    | apply Keeps.setReg
    | simp only [Keeps.mk_iff]
    | simp only [Keeps.mkVlt_iff]
    | split)
  all_goals first
    | exact id
    | (intro _ hq; exact hq)
    | (intro _; rfl)
    | (intro _ hq; simp [hq]; done)
    | (intro hq; simp [hq]; done)
    | (simp_all; done)
    | (simp; done)

end Sys2Proof.Machine
end

