-- ==== Sys2Proof/Laws/KeepsVault.lean ====
section
/-! SUPPORT. Every operation of Machine/Vault.lean keeps the queue and the shape of the state. -/

namespace Sys2Proof.Machine

theorem VltState.putWord_kept {v : VltState} {a : Nat} {w : Word} (h : v.Kept) :
    (v.putWord a w).Kept := ⟨spWf_spSet _ _ _ (spWf_spSet _ _ _ h.1), h.2⟩


theorem VltState.putWords_kept {v : VltState} {a : Nat} {l : List Word} (h : v.Kept) :
    (v.putWords a l).Kept := by
  induction l generalizing v a with
  | nil => exact h
  | cons w l ih => exact ih (VltState.putWord_kept h)


theorem VltState.putCells_kept {v : VltState} {a : Nat} {l : List (Nat × Word)} (h : v.Kept) :
    (v.putCells a l).Kept := by
  induction l generalizing v with
  | nil => exact h
  | cons w l ih => exact ih (VltState.putWord_kept h)


theorem VltState.putBytes_kept {v : VltState} {a : Nat} {l : List Byte} (h : v.Kept) :
    (v.putBytes a l).Kept := ⟨spWf_spSetAll _ _ _ h.1, h.2⟩


theorem VltState.erase_kept {v : VltState} {a n : Nat} (h : v.Kept) :
    (v.erase a n).Kept := ⟨spWf_spClear _ _ _ h.1, h.2⟩


theorem VltState.putOwn_kept {v : VltState} {a : Nat} {l : List Byte} (h : v.Kept) :
    (v.putOwn a l).Kept := ⟨h.1, spWf_spBlock _ _ _ h.2⟩


theorem VltState.eraseOwn_kept {v : VltState} {a n : Nat} (h : v.Kept) :
    (v.eraseOwn a n).Kept := ⟨h.1, spWf_spClear _ _ _ h.2⟩


theorem VltState.program_kept {v : VltState} {r : NRec} (h : v.Kept) :
    (v.program r).Kept := VltState.putOwn_kept h


theorem VltState.journal_kept {v : VltState} {l : List (Bool × Nat × Nat)} {b : Bool} (h : v.Kept) :
    (v.journal l b).Kept := VltState.program_kept h


theorem programAll_kept {v : VltState} {l : List NRec} (h : v.Kept) : (l.foldl VltState.program v).Kept := by
  induction l generalizing v with
  | nil => exact h
  | cons r l ih => exact ih (VltState.program_kept h)


theorem VltState.place_kept {v : VltState} {es : List (Nat × List Byte)} (h : v.Kept) :
    (v.place es).1.Kept := programAll_kept h


theorem VltState.commitNow_kept {v : VltState} {es : List (Nat × List Byte)} {l : List VEntry} (h : v.Kept) :
    (v.commitNow es l).Kept := VltState.journal_kept (VltState.place_kept h)


theorem VltState.ownCommit_kept {v : VltState} {k : Nat} {p : List Byte} {l : List VEntry} (h : v.Kept) :
    (v.ownCommit k p l).Kept := VltState.commitNow_kept h


theorem VltState.compactRec_kept {v : VltState}  (h : v.Kept) :
    (v.compactRec).Kept := VltState.eraseOwn_kept (VltState.commitNow_kept h)


theorem VltState.compactKey_kept {v : VltState}  (h : v.Kept) :
    (v.compactKey).Kept := VltState.eraseOwn_kept (VltState.commitNow_kept h)


theorem VltState.compact_kept {v : VltState}  (h : v.Kept) :
    (v.compact).Kept := by
  have key : ∀ a : VltState, a.Kept →
      (if a.keyTail + 512 < a.keyHead + 256 ∧ a.keyTail + 256 ≤ a.keyHead then a.compactKey else a).Kept := by
    intro a ha
    split
    · exact VltState.compactKey_kept ha
    · exact ha
  unfold VltState.compact
  apply key
  split
  · exact VltState.compactRec_kept h
  · exact h


theorem VltState.apply_kept {v : VltState} {e : VEntry} (h : v.Kept) :
    (v.apply e).Kept := by
  cases e with
  | plate p ws => exact VltState.putWords_kept h
  | usrPage cells => exact VltState.putCells_kept h
  | usrErase k => exact VltState.erase_kept h
  | sealReset r => exact VltState.erase_kept h
  | logSector0 => exact VltState.erase_kept h
  | record _ _ => exact h
  | legWrite _ => exact h
  | bank _ _ _ => exact h


theorem kickN_kept {n : Nat} {v : VltState} (h : v.Kept) : (kickN n v).Kept := by
  induction n generalizing v with
  | zero => exact h
  | succ n ih =>
    unfold kickN
    split
    · split
      · exact ih (VltState.apply_kept h)
      · exact h
    · exact h


theorem VltState.setBank_kept {v : VltState} {c : Bool} {n : Nat} {b : Option Bank} (h : v.Kept) :
    (v.setBank c n b).Kept := by
  unfold VltState.setBank
  split <;> exact h


theorem VltState.bankClear_kept {v : VltState} {c : Bool} {n : Nat} (h : v.Kept) :
    (v.bankClear c n).Kept := VltState.setBank_kept (VltState.eraseOwn_kept h)


theorem VltState.hold_kept {v : VltState} {n k : Nat} (h : v.Kept) :
    (v.hold n k).Kept := h


theorem VltState.hatMarkUp_kept {v : VltState} {n k : Nat} (h : v.Kept) :
    (v.hatMarkUp n k).Kept := VltState.hold_kept (VltState.putOwn_kept h)


theorem VltState.hatFlush_kept {v : VltState}  (h : v.Kept) :
    (v.hatFlush).Kept := by
  unfold VltState.hatFlush
  generalize v.held = l
  induction l generalizing v with
  | nil => exact h
  | cons x l ih => exact ih (VltState.hatMarkUp_kept h)


theorem VltState.foldSet_kept {v : VltState} {nb : List (Nat × Nat)} (h : v.Kept) :
    (v.foldSet nb).Kept := by
  unfold VltState.foldSet
  dsimp only
  have h1 : (if v.basePos % 10 = 0 then v.eraseOwn (baseSetAt v.basePos) 4096 else v).Kept := by
    split
    · exact VltState.eraseOwn_kept h
    · exact h
  exact VltState.putOwn_kept (VltState.eraseOwn_kept h1)


theorem VltState.heldAll_kept {v : VltState}  (h : v.Kept) :
    (v.heldAll).Kept := h


theorem VltState.hatHead_kept {v : VltState}  (h : v.Kept) :
    (v.hatHead).Kept := VltState.putOwn_kept h


theorem VltState.foldEnd_kept {v : VltState} {nb : List (Nat × Nat)} (h : v.Kept) :
    (v.foldEnd nb).Kept := by
  unfold VltState.foldEnd
  dsimp only
  apply VltState.hatFlush_kept
  apply VltState.heldAll_kept
  split
  · exact VltState.eraseOwn_kept (VltState.eraseOwn_kept (VltState.hatHead_kept (VltState.foldSet_kept h)))
  · exact VltState.eraseOwn_kept (VltState.hatHead_kept (VltState.foldSet_kept h))


theorem VltState.hatErase_kept {v : VltState}  (h : v.Kept) :
    (v.hatErase).Kept := by
  unfold VltState.hatErase
  dsimp only
  apply VltState.hatFlush_kept
  split
  · exact VltState.hatHead_kept (VltState.eraseOwn_kept h)
  · exact VltState.eraseOwn_kept h


theorem VltState.unwrite_kept {v : VltState}  (h : v.Kept) :
    (v.unwrite).Kept := ⟨spWf_filter _ _ h.1, spWf_filter _ _ h.2⟩


theorem State.compactDue_keeps {s0 : State} {s : State} (hk : Keeps s0 s) :
    Keeps s0 (State.compactDue s) := by
  unfold State.compactDue
  try dsimp only
  repeat' (with_reducible first
    | assumption
    | exact Keeps.refl _
    | intro _
    | apply Keeps.modVlt
    | apply VltState.compact_kept
    | (refine Keeps.ofEq (by assumption) ?_)
    | apply Keeps.ite
    | apply Keeps.foldl
    | apply Keeps.foldlFst
    | apply Keeps.setReg
    | simp only [Keeps.mk_iff]
    | simp only [Keeps.mkVlt_iff]
    | split)
  all_goals first
    | exact id
    | (intro _ hq; exact hq)
    | (intro _; rfl)
    | (intro _ hq; simp [hq]; done)
    | (intro hq; simp [hq]; done)
    | (simp_all; done)
    | (simp; done)

theorem State.vEnter_keeps {s0 : State} {s : State} {e : VEntry} (hk : Keeps s0 s) :
    Keeps s0 (State.vEnter s e) := by
  unfold State.vEnter
  try dsimp only
  repeat' (with_reducible first
    | assumption
    | exact Keeps.refl _
    | intro _
    | apply Keeps.modVlt
    | apply State.compactDue_keeps
    | apply VltState.journal_kept
    | (refine Keeps.ofEq (by assumption) ?_)
    | apply Keeps.ite
    | apply Keeps.foldl
    | apply Keeps.foldlFst
    | apply Keeps.setReg
    | simp only [Keeps.mk_iff]
    | simp only [Keeps.mkVlt_iff]
    | split)
  all_goals first
    | exact id
    | (intro _ hq; exact hq)
    | (intro _; rfl)
    | (intro _ hq; simp [hq]; done)
    | (intro hq; simp [hq]; done)
    | (simp_all; done)
    | (simp; done)

theorem State.vDone_keeps {s0 : State} {s : State} (hk : Keeps s0 s) :
    Keeps s0 (State.vDone s) := by
  unfold State.vDone
  try dsimp only
  repeat' (with_reducible first
    | assumption
    | exact Keeps.refl _
    | intro _
    | apply State.irq_keeps
    | (refine Keeps.ofEq (by assumption) ?_)
    | apply Keeps.ite
    | apply Keeps.foldl
    | apply Keeps.foldlFst
    | apply Keeps.setReg
    | simp only [Keeps.mk_iff]
    | simp only [Keeps.mkVlt_iff]
    | split)
  all_goals first
    | exact id
    | (intro _ hq; exact hq)
    | (intro _; rfl)
    | (intro _ hq; simp [hq]; done)
    | (intro hq; simp [hq]; done)
    | (simp_all; done)
    | (simp; done)

theorem State.vWaiting_keeps {s0 : State} {s : State} (hk : Keeps s0 s) :
    Keeps s0 (State.vWaiting s) := by
  unfold State.vWaiting
  try dsimp only
  repeat' (with_reducible first
    | assumption
    | exact Keeps.refl _
    | intro _
    | apply Keeps.modVlt
    | apply State.vEnter_keeps
    | (refine Keeps.ofEq (by assumption) ?_)
    | apply Keeps.ite
    | apply Keeps.foldl
    | apply Keeps.foldlFst
    | apply Keeps.setReg
    | simp only [Keeps.mk_iff]
    | simp only [Keeps.mkVlt_iff]
    | split)
  all_goals first
    | exact id
    | (intro _ hq; exact hq)
    | (intro _; rfl)
    | (intro _ hq; simp [hq]; done)
    | (intro hq; simp [hq]; done)
    | (simp_all; done)
    | (simp; done)

theorem State.commitEnd_keeps {s0 : State} {s : State} {n : Nat} (hk : Keeps s0 s) :
    Keeps s0 (State.commitEnd s n) := by
  unfold State.commitEnd
  try dsimp only
  repeat' (with_reducible first
    | assumption
    | exact Keeps.refl _
    | intro _
    | apply Keeps.modVlt
    | apply State.compactDue_keeps
    | apply State.vDone_keeps
    | apply State.vWaiting_keeps
    | apply VltState.commitNow_kept
    | (refine Keeps.ofEq (by assumption) ?_)
    | apply Keeps.ite
    | apply Keeps.foldl
    | apply Keeps.foldlFst
    | apply Keeps.setReg
    | simp only [Keeps.mk_iff]
    | simp only [Keeps.mkVlt_iff]
    | split)
  all_goals first
    | exact id
    | (intro _ hq; exact hq)
    | (intro _; rfl)
    | (intro _ hq; simp [hq]; done)
    | (intro hq; simp [hq]; done)
    | (simp_all; done)
    | (simp; done)

theorem State.commitStart_keeps {s0 : State} {s : State} (hk : Keeps s0 s) :
    Keeps s0 (State.commitStart s) := by
  unfold State.commitStart
  try dsimp only
  repeat' (with_reducible first
    | assumption
    | exact Keeps.refl _
    | intro _
    | apply Keeps.modVlt
    | (refine Keeps.ofEq (by assumption) ?_)
    | apply Keeps.ite
    | apply Keeps.foldl
    | apply Keeps.foldlFst
    | apply Keeps.setReg
    | simp only [Keeps.mk_iff]
    | simp only [Keeps.mkVlt_iff]
    | split)
  all_goals first
    | exact id
    | (intro _ hq; exact hq)
    | (intro _; rfl)
    | (intro _ hq; simp [hq]; done)
    | (intro hq; simp [hq]; done)
    | (simp_all; done)
    | (simp; done)

theorem State.commitFull_keeps {s0 : State} {s : State} (hk : Keeps s0 s) :
    Keeps s0 (State.commitFull s) := by
  unfold State.commitFull
  try dsimp only
  repeat' (with_reducible first
    | assumption
    | exact Keeps.refl _
    | intro _
    | apply State.commitStart_keeps
    | (refine Keeps.ofEq (by assumption) ?_)
    | apply Keeps.ite
    | apply Keeps.foldl
    | apply Keeps.foldlFst
    | apply Keeps.setReg
    | simp only [Keeps.mk_iff]
    | simp only [Keeps.mkVlt_iff]
    | split)
  all_goals first
    | exact id
    | (intro _ hq; exact hq)
    | (intro _; rfl)
    | (intro _ hq; simp [hq]; done)
    | (intro hq; simp [hq]; done)
    | (simp_all; done)
    | (simp; done)

theorem State.vRecord_keeps {s0 : State} {s : State} {typ : Nat} {payload : List Byte} (hk : Keeps s0 s) :
    Keeps s0 (State.vRecord s typ payload) := by
  unfold State.vRecord
  try dsimp only
  repeat' (with_reducible first
    | assumption
    | exact Keeps.refl _
    | intro _
    | apply Keeps.modVlt
    | apply State.vEnter_keeps
    | apply State.commitFull_keeps
    | (refine Keeps.ofEq (by assumption) ?_)
    | apply Keeps.ite
    | apply Keeps.foldl
    | apply Keeps.foldlFst
    | apply Keeps.setReg
    | simp only [Keeps.mk_iff]
    | simp only [Keeps.mkVlt_iff]
    | split)
  all_goals first
    | exact id
    | (intro _ hq; exact hq)
    | (intro _; rfl)
    | (intro _ hq; simp [hq]; done)
    | (intro hq; simp [hq]; done)
    | (simp_all; done)
    | (simp; done)

theorem State.vStick_keeps {s0 : State} {s : State} {f : Fld} (hk : Keeps s0 s) :
    Keeps s0 (State.vStick s f) := by
  unfold State.vStick
  try dsimp only
  repeat' (with_reducible first
    | assumption
    | exact Keeps.refl _
    | intro _
    | apply State.stick_keeps
    | (refine Keeps.ofEq (by assumption) ?_)
    | apply Keeps.ite
    | apply Keeps.foldl
    | apply Keeps.foldlFst
    | apply Keeps.setReg
    | simp only [Keeps.mk_iff]
    | simp only [Keeps.mkVlt_iff]
    | split)
  all_goals first
    | exact id
    | (intro _ hq; exact hq)
    | (intro _; rfl)
    | (intro _ hq; simp [hq]; done)
    | (intro hq; simp [hq]; done)
    | (simp_all; done)
    | (simp; done)

theorem State.vRefuse_keeps {s0 : State} {s : State} {code : Nat} (hk : Keeps s0 s) :
    Keeps s0 (State.vRefuse s code) := by
  unfold State.vRefuse
  try dsimp only
  repeat' (with_reducible first
    | assumption
    | exact Keeps.refl _
    | intro _
    | apply State.setFld_keeps
    | apply State.vStick_keeps
    | (refine Keeps.ofEq (by assumption) ?_)
    | apply Keeps.ite
    | apply Keeps.foldl
    | apply Keeps.foldlFst
    | apply Keeps.setReg
    | simp only [Keeps.mk_iff]
    | simp only [Keeps.mkVlt_iff]
    | split)
  all_goals first
    | exact id
    | (intro _ hq; exact hq)
    | (intro _; rfl)
    | (intro _ hq; simp [hq]; done)
    | (intro hq; simp [hq]; done)
    | (simp_all; done)
    | (simp; done)

theorem State.vIntegrity_keeps {s0 : State} {s : State} {detail : Nat} (hk : Keeps s0 s) :
    Keeps s0 (State.vIntegrity s detail) := by
  unfold State.vIntegrity
  try dsimp only
  repeat' (with_reducible first
    | assumption
    | exact Keeps.refl _
    | intro _
    | apply State.nmi_keeps
    | apply State.post_keeps
    | apply State.vStick_keeps
    | (refine Keeps.ofEq (by assumption) ?_)
    | apply Keeps.ite
    | apply Keeps.foldl
    | apply Keeps.foldlFst
    | apply Keeps.setReg
    | simp only [Keeps.mk_iff]
    | simp only [Keeps.mkVlt_iff]
    | split)
  all_goals first
    | exact id
    | (intro _ hq; exact hq)
    | (intro _; rfl)
    | (intro _ hq; simp [hq]; done)
    | (intro hq; simp [hq]; done)
    | (simp_all; done)
    | (simp; done)

theorem State.vKick_keeps {s0 : State} {s : State} (hk : Keeps s0 s) :
    Keeps s0 (State.vKick s) := by
  unfold State.vKick
  try dsimp only
  repeat' (with_reducible first
    | assumption
    | exact Keeps.refl _
    | intro _
    | apply Keeps.modVlt
    | apply kickN_kept
    | (refine Keeps.ofEq (by assumption) ?_)
    | apply Keeps.ite
    | apply Keeps.foldl
    | apply Keeps.foldlFst
    | apply Keeps.setReg
    | simp only [Keeps.mk_iff]
    | simp only [Keeps.mkVlt_iff]
    | split)
  all_goals first
    | exact id
    | (intro _ hq; exact hq)
    | (intro _; rfl)
    | (intro _ hq; simp [hq]; done)
    | (intro hq; simp [hq]; done)
    | (simp_all; done)
    | (simp; done)

theorem State.vOperate_keeps {s0 : State} {s : State} {e : VEntry} (hk : Keeps s0 s) :
    Keeps s0 (State.vOperate s e) := by
  unfold State.vOperate
  try dsimp only
  repeat' (with_reducible first
    | assumption
    | exact Keeps.refl _
    | intro _
    | apply State.vEnter_keeps
    | apply State.vKick_keeps
    | (refine Keeps.ofEq (by assumption) ?_)
    | apply Keeps.ite
    | apply Keeps.foldl
    | apply Keeps.foldlFst
    | apply Keeps.setReg
    | simp only [Keeps.mk_iff]
    | simp only [Keeps.mkVlt_iff]
    | split)
  all_goals first
    | exact id
    | (intro _ hq; exact hq)
    | (intro _; rfl)
    | (intro _ hq; simp [hq]; done)
    | (intro hq; simp [hq]; done)
    | (simp_all; done)
    | (simp; done)

theorem State.opEnd_keeps {s0 : State} {s : State} (hk : Keeps s0 s) :
    Keeps s0 (State.opEnd s) := by
  unfold State.opEnd
  try dsimp only
  repeat' (with_reducible first
    | assumption
    | exact Keeps.refl _
    | intro _
    | apply Keeps.modVlt
    | apply State.compactDue_keeps
    | apply State.vWaiting_keeps
    | apply State.vKick_keeps
    | (refine Keeps.ofEq (by assumption) ?_)
    | apply Keeps.ite
    | apply Keeps.foldl
    | apply Keeps.foldlFst
    | apply Keeps.setReg
    | simp only [Keeps.mk_iff]
    | simp only [Keeps.mkVlt_iff]
    | split)
  all_goals first
    | exact id
    | (intro _ hq; exact hq)
    | (intro _; rfl)
    | (intro _ hq; simp [hq]; done)
    | (intro hq; simp [hq]; done)
    | (simp_all; done)
    | (simp; done)

theorem State.foldStart_keeps {s0 : State} {s : State} (hk : Keeps s0 s) :
    Keeps s0 (State.foldStart s) := by
  unfold State.foldStart
  try dsimp only
  repeat' (with_reducible first
    | assumption
    | exact Keeps.refl _
    | intro _
    | apply Keeps.modVlt
    | (refine Keeps.ofEq (by assumption) ?_)
    | apply Keeps.ite
    | apply Keeps.foldl
    | apply Keeps.foldlFst
    | apply Keeps.setReg
    | simp only [Keeps.mk_iff]
    | simp only [Keeps.mkVlt_iff]
    | split)
  all_goals first
    | exact id
    | (intro _ hq; exact hq)
    | (intro _; rfl)
    | (intro _ hq; simp [hq]; done)
    | (intro hq; simp [hq]; done)
    | (simp_all; done)
    | (simp; done)

theorem State.hatInc_keeps {s0 : State} {s : State} {n : Nat} {k : Nat} (hk : Keeps s0 s) :
    Keeps s0 (State.hatInc s n k) := by
  unfold State.hatInc
  try dsimp only
  repeat' (with_reducible first
    | assumption
    | exact Keeps.refl _
    | intro _
    | apply Keeps.modVlt
    | apply State.foldStart_keeps
    | apply VltState.hold_kept
    | apply VltState.hatMarkUp_kept
    | (refine Keeps.ofEq (by assumption) ?_)
    | apply Keeps.ite
    | apply Keeps.foldl
    | apply Keeps.foldlFst
    | apply Keeps.setReg
    | simp only [Keeps.mk_iff]
    | simp only [Keeps.mkVlt_iff]
    | split)
  all_goals first
    | exact id
    | (intro _ hq; exact hq)
    | (intro _; rfl)
    | (intro _ hq; simp [hq]; done)
    | (intro hq; simp [hq]; done)
    | (simp_all; done)
    | (simp; done)

theorem State.floorRaise_keeps {s0 : State} {s : State} {k : Nat} (hk : Keeps s0 s) :
    Keeps s0 (State.floorRaise s k) := by
  unfold State.floorRaise
  try dsimp only
  repeat' (with_reducible first
    | assumption
    | exact Keeps.refl _
    | intro _
    | apply State.hatInc_keeps
    | (refine Keeps.ofEq (by assumption) ?_)
    | apply Keeps.ite
    | apply Keeps.foldl
    | apply Keeps.foldlFst
    | apply Keeps.setReg
    | simp only [Keeps.mk_iff]
    | simp only [Keeps.mkVlt_iff]
    | split)
  all_goals first
    | exact id
    | (intro _ hq; exact hq)
    | (intro _; rfl)
    | (intro _ hq; simp [hq]; done)
    | (intro hq; simp [hq]; done)
    | (simp_all; done)
    | (simp; done)

end Sys2Proof.Machine
end

