-- ==== Sys2Proof/Laws/KeepsTime.lean ====
section
/-! SUPPORT. Every operation of Machine/Time.lean keeps the queue and the shape of the state. -/

namespace Sys2Proof.Machine

theorem State.modTim_keeps {s0 : State} {s : State} {f : TimState → TimState} (hk : Keeps s0 s) :
    Keeps s0 (State.modTim s f) := by
  unfold State.modTim
  try dsimp only
  repeat' (with_reducible first
    | assumption
    | exact Keeps.refl _
    | intro _
    | (refine Keeps.ofEq (by assumption) ?_)
    | apply Keeps.ite
    | apply Keeps.foldl
    | apply Keeps.foldlFst
    | apply Keeps.setReg
    | simp only [Keeps.mk_iff]
    | simp only [Keeps.mkVlt_iff]
    | split)
  all_goals first
    | exact id
    | (intro _ hq; exact hq)
    | (intro _; rfl)
    | (intro _ hq; simp [hq]; done)
    | (intro hq; simp [hq]; done)
    | (simp_all; done)
    | (simp; done)

theorem State.modKeep_keeps {s0 : State} {s : State} {f : KeepState → KeepState} (hk : Keeps s0 s) :
    Keeps s0 (State.modKeep s f) := by
  unfold State.modKeep
  try dsimp only
  repeat' (with_reducible first
    | assumption
    | exact Keeps.refl _
    | intro _
    | (refine Keeps.ofEq (by assumption) ?_)
    | apply Keeps.ite
    | apply Keeps.foldl
    | apply Keeps.foldlFst
    | apply Keeps.setReg
    | simp only [Keeps.mk_iff]
    | simp only [Keeps.mkVlt_iff]
    | split)
  all_goals first
    | exact id
    | (intro _ hq; exact hq)
    | (intro _; rfl)
    | (intro _ hq; simp [hq]; done)
    | (intro hq; simp [hq]; done)
    | (simp_all; done)
    | (simp; done)

theorem State.timEvt_keeps {s0 : State} {s : State} {f : Fld} (hk : Keeps s0 s) :
    Keeps s0 (State.timEvt s f) := by
  unfold State.timEvt
  try dsimp only
  repeat' (with_reducible first
    | assumption
    | exact Keeps.refl _
    | intro _
    | apply State.stick_keeps
    | (refine Keeps.ofEq (by assumption) ?_)
    | apply Keeps.ite
    | apply Keeps.foldl
    | apply Keeps.foldlFst
    | apply Keeps.setReg
    | simp only [Keeps.mk_iff]
    | simp only [Keeps.mkVlt_iff]
    | split)
  all_goals first
    | exact id
    | (intro _ hq; exact hq)
    | (intro _; rfl)
    | (intro _ hq; simp [hq]; done)
    | (intro hq; simp [hq]; done)
    | (simp_all; done)
    | (simp; done)

theorem State.timSet_keeps {s0 : State} {s : State} {st : Nat} (hk : Keeps s0 s) :
    Keeps s0 (State.timSet s st) := by
  unfold State.timSet
  try dsimp only
  repeat' (with_reducible first
    | assumption
    | exact Keeps.refl _
    | intro _
    | apply State.setFld_keeps
    | apply State.post_keeps
    | apply State.modTim_keeps
    | apply State.timEvt_keeps
    | (refine Keeps.ofEq (by assumption) ?_)
    | apply Keeps.ite
    | apply Keeps.foldl
    | apply Keeps.foldlFst
    | apply Keeps.setReg
    | simp only [Keeps.mk_iff]
    | simp only [Keeps.mkVlt_iff]
    | split)
  all_goals first
    | exact id
    | (intro _ hq; exact hq)
    | (intro _; rfl)
    | (intro _ hq; simp [hq]; done)
    | (intro hq; simp [hq]; done)
    | (simp_all; done)
    | (simp; done)

theorem State.moveTime_keeps {s0 : State} {s : State} {t : Nat} (hk : Keeps s0 s) :
    Keeps s0 (State.moveTime s t) := by
  unfold State.moveTime
  try dsimp only
  repeat' (with_reducible first
    | assumption
    | exact Keeps.refl _
    | intro _
    | apply State.modTim_keeps
    | apply State.modKeep_keeps
    | (refine Keeps.ofEq (by assumption) ?_)
    | apply Keeps.ite
    | apply Keeps.foldl
    | apply Keeps.foldlFst
    | apply Keeps.setReg
    | simp only [Keeps.mk_iff]
    | simp only [Keeps.mkVlt_iff]
    | split)
  all_goals first
    | exact id
    | (intro _ hq; exact hq)
    | (intro _; rfl)
    | (intro _ hq; simp [hq]; done)
    | (intro hq; simp [hq]; done)
    | (simp_all; done)
    | (simp; done)

theorem State.timStepBy_keeps {s0 : State} {s : State} {theta : Int} (hk : Keeps s0 s) :
    Keeps s0 (State.timStepBy s theta) := by
  unfold State.timStepBy
  try dsimp only
  repeat' (with_reducible first
    | assumption
    | exact Keeps.refl _
    | intro _
    | apply State.post_keeps
    | apply State.modTim_keeps
    | apply State.timEvt_keeps
    | apply State.timSet_keeps
    | apply State.moveTime_keeps
    | (refine Keeps.ofEq (by assumption) ?_)
    | apply Keeps.ite
    | apply Keeps.foldl
    | apply Keeps.foldlFst
    | apply Keeps.setReg
    | simp only [Keeps.mk_iff]
    | simp only [Keeps.mkVlt_iff]
    | split)
  all_goals first
    | exact id
    | (intro _ hq; exact hq)
    | (intro _; rfl)
    | (intro _ hq; simp [hq]; done)
    | (intro hq; simp [hq]; done)
    | (simp_all; done)
    | (simp; done)

theorem State.timAccept_keeps {s0 : State} {s : State} {theta : Int} {i : Int} (hk : Keeps s0 s) :
    Keeps s0 (State.timAccept s theta i) := by
  unfold State.timAccept
  try dsimp only
  repeat' (with_reducible first
    | assumption
    | exact Keeps.refl _
    | intro _
    | apply State.setPair_keeps
    | apply State.modTim_keeps
    | apply State.timSet_keeps
    | (refine Keeps.ofEq (by assumption) ?_)
    | apply Keeps.ite
    | apply Keeps.foldl
    | apply Keeps.foldlFst
    | apply Keeps.setReg
    | simp only [Keeps.mk_iff]
    | simp only [Keeps.mkVlt_iff]
    | split)
  all_goals first
    | exact id
    | (intro _ hq; exact hq)
    | (intro _; rfl)
    | (intro _ hq; simp [hq]; done)
    | (intro hq; simp [hq]; done)
    | (simp_all; done)
    | (simp; done)

theorem State.timTheta_keeps {s0 : State} {s : State} {theta : Int} {i : Option Nat} (hk : Keeps s0 s) :
    Keeps s0 (State.timTheta s theta i) := by
  unfold State.timTheta
  try dsimp only
  repeat' (with_reducible first
    | assumption
    | exact Keeps.refl _
    | intro _
    | apply State.setFld_keeps
    | apply State.modTim_keeps
    | apply State.timStepBy_keeps
    | apply State.timAccept_keeps
    | (refine Keeps.ofEq (by assumption) ?_)
    | apply Keeps.ite
    | apply Keeps.foldl
    | apply Keeps.foldlFst
    | apply Keeps.setReg
    | simp only [Keeps.mk_iff]
    | simp only [Keeps.mkVlt_iff]
    | split)
  all_goals first
    | exact id
    | (intro _ hq; exact hq)
    | (intro _; rfl)
    | (intro _ hq; simp [hq]; done)
    | (intro hq; simp [hq]; done)
    | (simp_all; done)
    | (simp; done)

theorem State.timLoad_keeps {s0 : State} {s : State} {t : Nat} {d : Nat} (hk : Keeps s0 s) :
    Keeps s0 (State.timLoad s t d) := by
  unfold State.timLoad
  try dsimp only
  repeat' (with_reducible first
    | assumption
    | exact Keeps.refl _
    | intro _
    | apply State.post_keeps
    | apply State.modTim_keeps
    | apply State.timEvt_keeps
    | apply State.timSet_keeps
    | apply State.moveTime_keeps
    | (refine Keeps.ofEq (by assumption) ?_)
    | apply Keeps.ite
    | apply Keeps.foldl
    | apply Keeps.foldlFst
    | apply Keeps.setReg
    | simp only [Keeps.mk_iff]
    | simp only [Keeps.mkVlt_iff]
    | split)
  all_goals first
    | exact id
    | (intro _ hq; exact hq)
    | (intro _; rfl)
    | (intro _ hq; simp [hq]; done)
    | (intro hq; simp [hq]; done)
    | (simp_all; done)
    | (simp; done)

theorem State.timHeadNow_keeps {s0 : State} {s : State} (hk : Keeps s0 s) :
    Keeps s0 (State.timHeadNow s) := by
  unfold State.timHeadNow
  try dsimp only
  repeat' (with_reducible first
    | assumption
    | exact Keeps.refl _
    | intro _
    | apply State.timSet_keeps
    | (refine Keeps.ofEq (by assumption) ?_)
    | apply Keeps.ite
    | apply Keeps.foldl
    | apply Keeps.foldlFst
    | apply Keeps.setReg
    | simp only [Keeps.mk_iff]
    | simp only [Keeps.mkVlt_iff]
    | split)
  all_goals first
    | exact id
    | (intro _ hq; exact hq)
    | (intro _; rfl)
    | (intro _ hq; simp [hq]; done)
    | (intro hq; simp [hq]; done)
    | (simp_all; done)
    | (simp; done)

theorem State.timCmd_keeps {s0 : State} {s : State} {p : Path} {code : Nat} (hk : Keeps s0 s) :
    Keeps s0 (State.timCmd s p code) := by
  unfold State.timCmd
  try dsimp only
  repeat' (with_reducible first
    | assumption
    | exact Keeps.refl _
    | intro _
    | apply State.setFlag_keeps
    | apply State.timLoad_keeps
    | (refine Keeps.ofEq (by assumption) ?_)
    | apply Keeps.ite
    | apply Keeps.foldl
    | apply Keeps.foldlFst
    | apply Keeps.setReg
    | simp only [Keeps.mk_iff]
    | simp only [Keeps.mkVlt_iff]
    | split)
  all_goals first
    | exact id
    | (intro _ hq; exact hq)
    | (intro _; rfl)
    | (intro _ hq; simp [hq]; done)
    | (intro hq; simp [hq]; done)
    | (simp_all; done)
    | (simp; done)

theorem State.timCapture_keeps {s0 : State} {s : State} {n : Nat} (hk : Keeps s0 s) :
    Keeps s0 (State.timCapture s n) := by
  unfold State.timCapture
  try dsimp only
  repeat' (with_reducible first
    | assumption
    | exact Keeps.refl _
    | intro _
    | apply State.setFlag_keeps
    | apply State.setPair_keeps
    | apply State.post_keeps
    | apply State.modTim_keeps
    | apply State.timTheta_keeps
    | apply State.timLoad_keeps
    | apply State.timHeadNow_keeps
    | (refine Keeps.ofEq (by assumption) ?_)
    | apply Keeps.ite
    | apply Keeps.foldl
    | apply Keeps.foldlFst
    | apply Keeps.setReg
    | simp only [Keeps.mk_iff]
    | simp only [Keeps.mkVlt_iff]
    | split)
  all_goals first
    | exact id
    | (intro _ hq; exact hq)
    | (intro _; rfl)
    | (intro _ hq; simp [hq]; done)
    | (intro hq; simp [hq]; done)
    | (simp_all; done)
    | (simp; done)

theorem State.offsetMoved_keeps {s0 : State} {s : State} {old : Word} (hk : Keeps s0 s) :
    Keeps s0 (State.offsetMoved s old) := by
  unfold State.offsetMoved
  try dsimp only
  repeat' (with_reducible first
    | assumption
    | exact Keeps.refl _
    | intro _
    | apply State.modTim_keeps
    | (refine Keeps.ofEq (by assumption) ?_)
    | apply Keeps.ite
    | apply Keeps.foldl
    | apply Keeps.foldlFst
    | apply Keeps.setReg
    | simp only [Keeps.mk_iff]
    | simp only [Keeps.mkVlt_iff]
    | split)
  all_goals first
    | exact id
    | (intro _ hq; exact hq)
    | (intro _; rfl)
    | (intro _ hq; simp [hq]; done)
    | (intro hq; simp [hq]; done)
    | (simp_all; done)
    | (simp; done)

theorem State.offsetTake_keeps {s0 : State} {s : State} {v : Word} (hk : Keeps s0 s) :
    Keeps s0 (State.offsetTake s v) := by
  unfold State.offsetTake
  try dsimp only
  repeat' (with_reducible first
    | assumption
    | exact Keeps.refl _
    | intro _
    | apply Keeps.setReg
    | apply State.offsetMoved_keeps
    | (refine Keeps.ofEq (by assumption) ?_)
    | apply Keeps.ite
    | apply Keeps.foldl
    | apply Keeps.foldlFst
    | apply Keeps.setReg
    | simp only [Keeps.mk_iff]
    | simp only [Keeps.mkVlt_iff]
    | split)
  all_goals first
    | exact id
    | (intro _ hq; exact hq)
    | (intro _; rfl)
    | (intro _ hq; simp [hq]; done)
    | (intro hq; simp [hq]; done)
    | (simp_all; done)
    | (simp; done)

theorem State.alarmWrite_keeps {s0 : State} {s : State} {n : Nat} {v : Word} (hk : Keeps s0 s) :
    Keeps s0 (State.alarmWrite s n v) := by
  unfold State.alarmWrite
  try dsimp only
  repeat' (with_reducible first
    | assumption
    | exact Keeps.refl _
    | intro _
    | apply Keeps.setReg
    | apply State.modTim_keeps
    | (refine Keeps.ofEq (by assumption) ?_)
    | apply Keeps.ite
    | apply Keeps.foldl
    | apply Keeps.foldlFst
    | apply Keeps.setReg
    | simp only [Keeps.mk_iff]
    | simp only [Keeps.mkVlt_iff]
    | split)
  all_goals first
    | exact id
    | (intro _ hq; exact hq)
    | (intro _; rfl)
    | (intro _ hq; simp [hq]; done)
    | (intro hq; simp [hq]; done)
    | (simp_all; done)
    | (simp; done)

theorem State.alarmFire_keeps {s0 : State} {s : State} {n : Nat} (hk : Keeps s0 s) :
    Keeps s0 (State.alarmFire s n) := by
  unfold State.alarmFire
  try dsimp only
  repeat' (with_reducible first
    | assumption
    | exact Keeps.refl _
    | intro _
    | apply State.setBit_keeps
    | apply State.stick_keeps
    | apply State.pulse_keeps
    | apply State.modTim_keeps
    | (refine Keeps.ofEq (by assumption) ?_)
    | apply Keeps.ite
    | apply Keeps.foldl
    | apply Keeps.foldlFst
    | apply Keeps.setReg
    | simp only [Keeps.mk_iff]
    | simp only [Keeps.mkVlt_iff]
    | split)
  all_goals first
    | exact id
    | (intro _ hq; exact hq)
    | (intro _; rfl)
    | (intro _ hq; simp [hq]; done)
    | (intro hq; simp [hq]; done)
    | (simp_all; done)
    | (simp; done)

theorem State.kaEdge_keeps {s0 : State} {s : State} (hk : Keeps s0 s) :
    Keeps s0 (State.kaEdge s) := by
  unfold State.kaEdge
  try dsimp only
  repeat' (with_reducible first
    | assumption
    | exact Keeps.refl _
    | intro _
    | apply State.modTim_keeps
    | apply State.modKeep_keeps
    | (refine Keeps.ofEq (by assumption) ?_)
    | apply Keeps.ite
    | apply Keeps.foldl
    | apply Keeps.foldlFst
    | apply Keeps.setReg
    | simp only [Keeps.mk_iff]
    | simp only [Keeps.mkVlt_iff]
    | split)
  all_goals first
    | exact id
    | (intro _ hq; exact hq)
    | (intro _; rfl)
    | (intro _ hq; simp [hq]; done)
    | (intro hq; simp [hq]; done)
    | (simp_all; done)
    | (simp; done)

theorem State.kaCalibrate_keeps {s0 : State} {s : State} (hk : Keeps s0 s) :
    Keeps s0 (State.kaCalibrate s) := by
  unfold State.kaCalibrate
  try dsimp only
  repeat' (with_reducible first
    | assumption
    | exact Keeps.refl _
    | intro _
    | apply Keeps.setReg
    | apply State.modKeep_keeps
    | (refine Keeps.ofEq (by assumption) ?_)
    | apply Keeps.ite
    | apply Keeps.foldl
    | apply Keeps.foldlFst
    | apply Keeps.setReg
    | simp only [Keeps.mk_iff]
    | simp only [Keeps.mkVlt_iff]
    | split)
  all_goals first
    | exact id
    | (intro _ hq; exact hq)
    | (intro _; rfl)
    | (intro _ hq; simp [hq]; done)
    | (intro hq; simp [hq]; done)
    | (simp_all; done)
    | (simp; done)

theorem State.timEdge_keeps {s0 : State} {s : State} (hk : Keeps s0 s) :
    Keeps s0 (State.timEdge s) := by
  unfold State.timEdge
  try dsimp only
  repeat' (with_reducible first
    | assumption
    | exact Keeps.refl _
    | intro _
    | (refine Keeps.ofEq (by assumption) ?_)
    | apply Keeps.ite
    | apply Keeps.foldl
    | apply Keeps.foldlFst
    | apply Keeps.setReg
    | simp only [Keeps.mk_iff]
    | simp only [Keeps.mkVlt_iff]
    | split)
  all_goals first
    | exact id
    | (intro _ hq; exact hq)
    | (intro _; rfl)
    | (intro _ hq; simp [hq]; done)
    | (intro hq; simp [hq]; done)
    | (simp_all; done)
    | (simp; done)

theorem State.keepLive_keeps {s0 : State} {s : State} (hk : Keeps s0 s) :
    Keeps s0 (State.keepLive s) := by
  unfold State.keepLive
  try dsimp only
  repeat' (with_reducible first
    | assumption
    | exact Keeps.refl _
    | intro _
    | apply State.setFld_keeps
    | apply State.setFlag_keeps
    | (refine Keeps.ofEq (by assumption) ?_)
    | apply Keeps.ite
    | apply Keeps.foldl
    | apply Keeps.foldlFst
    | apply Keeps.setReg
    | simp only [Keeps.mk_iff]
    | simp only [Keeps.mkVlt_iff]
    | split)
  all_goals first
    | exact id
    | (intro _ hq; exact hq)
    | (intro _; rfl)
    | (intro _ hq; simp [hq]; done)
    | (intro hq; simp [hq]; done)
    | (simp_all; done)
    | (simp; done)

theorem State.thetaBench_keeps {s0 : State} {s : State} {bench : Nat} (hk : Keeps s0 s) :
    Keeps s0 (State.thetaBench s bench) := by
  unfold State.thetaBench
  try dsimp only
  repeat' (with_reducible first
    | assumption
    | exact Keeps.refl _
    | intro _
    | apply State.modTim_keeps
    | (refine Keeps.ofEq (by assumption) ?_)
    | apply Keeps.ite
    | apply Keeps.foldl
    | apply Keeps.foldlFst
    | apply Keeps.setReg
    | simp only [Keeps.mk_iff]
    | simp only [Keeps.mkVlt_iff]
    | split)
  all_goals first
    | exact id
    | (intro _ hq; exact hq)
    | (intro _; rfl)
    | (intro _ hq; simp [hq]; done)
    | (intro hq; simp [hq]; done)
    | (simp_all; done)
    | (simp; done)

theorem State.readTimSec_keeps {s0 : State} {s : State} {p : Path} (hk : Keeps s0 s) :
    Keeps s0 (State.readTimSec s p) := by
  unfold State.readTimSec
  try dsimp only
  repeat' (with_reducible first
    | assumption
    | exact Keeps.refl _
    | intro _
    | apply State.modPath_keeps
    | (refine Keeps.ofEq (by assumption) ?_)
    | apply Keeps.ite
    | apply Keeps.foldl
    | apply Keeps.foldlFst
    | apply Keeps.setReg
    | simp only [Keeps.mk_iff]
    | simp only [Keeps.mkVlt_iff]
    | split)
  all_goals first
    | exact id
    | (intro _ hq; exact hq)
    | (intro _; rfl)
    | (intro _ hq; simp [hq]; done)
    | (intro hq; simp [hq]; done)
    | (simp_all; done)
    | (simp; done)

end Sys2Proof.Machine
end

