-- ==== Sys2Proof/Laws/KeepsPwm.lean ====
section
/-! SUPPORT. Every operation of Machine/Pwm.lean keeps the queue and the shape of the state. -/

namespace Sys2Proof.Machine

theorem State.pwmStick_keeps {s0 : State} {s : State} {n : Nat} {f : Fld} (hk : Keeps s0 s) :
    Keeps s0 (State.pwmStick s n f) := by
  unfold State.pwmStick
  try dsimp only
  repeat' (with_reducible first
    | assumption
    | exact Keeps.refl _
    | intro _
    | apply State.stick_keeps
    | (refine Keeps.ofEq (by assumption) ?_)
    | apply Keeps.ite
    | apply Keeps.foldl
    | apply Keeps.foldlFst
    | apply Keeps.setReg
    | simp only [Keeps.mk_iff]
    | simp only [Keeps.mkVlt_iff]
    | split)
  all_goals first
    | exact id
    | (intro _ hq; exact hq)
    | (intro _; rfl)
    | (intro _ hq; simp [hq]; done)
    | (intro hq; simp [hq]; done)
    | (simp_all; done)
    | (simp; done)

theorem State.pwmEdge_keeps {s0 : State} {s : State} {n : Nat} (hk : Keeps s0 s) :
    Keeps s0 (State.pwmEdge s n) := by
  unfold State.pwmEdge
  try dsimp only
  repeat' (with_reducible first
    | assumption
    | exact Keeps.refl _
    | intro _
    | apply Keeps.modChan
    | (refine Keeps.ofEq (by assumption) ?_)
    | apply Keeps.ite
    | apply Keeps.foldl
    | apply Keeps.foldlFst
    | apply Keeps.setReg
    | simp only [Keeps.mk_iff]
    | simp only [Keeps.mkVlt_iff]
    | split)
  all_goals first
    | exact id
    | (intro _ hq; exact hq)
    | (intro _; rfl)
    | (intro _ hq; simp [hq]; done)
    | (intro hq; simp [hq]; done)
    | (simp_all; done)
    | (simp; done)

theorem State.hltPeriodBegin_keeps {s0 : State} {s : State} {n : Nat} (hk : Keeps s0 s) :
    Keeps s0 (State.hltPeriodBegin s n) := by
  unfold State.hltPeriodBegin
  try dsimp only
  repeat' (with_reducible first
    | assumption
    | exact Keeps.refl _
    | intro _
    | apply Keeps.modHchan
    | (refine Keeps.ofEq (by assumption) ?_)
    | apply Keeps.ite
    | apply Keeps.foldl
    | apply Keeps.foldlFst
    | apply Keeps.setReg
    | simp only [Keeps.mk_iff]
    | simp only [Keeps.mkVlt_iff]
    | split)
  all_goals first
    | exact id
    | (intro _ hq; exact hq)
    | (intro _; rfl)
    | (intro _ hq; simp [hq]; done)
    | (intro hq; simp [hq]; done)
    | (simp_all; done)
    | (simp; done)

theorem State.softStart_keeps {s0 : State} {s : State} {n : Nat} (hk : Keeps s0 s) :
    Keeps s0 (State.softStart s n) := by
  unfold State.softStart
  try dsimp only
  repeat' (with_reducible first
    | assumption
    | exact Keeps.refl _
    | intro _
    | apply State.setFlag_keeps
    | apply Keeps.modChan
    | (refine Keeps.ofEq (by assumption) ?_)
    | apply Keeps.ite
    | apply Keeps.foldl
    | apply Keeps.foldlFst
    | apply Keeps.setReg
    | simp only [Keeps.mk_iff]
    | simp only [Keeps.mkVlt_iff]
    | split)
  all_goals first
    | exact id
    | (intro _ hq; exact hq)
    | (intro _; rfl)
    | (intro _ hq; simp [hq]; done)
    | (intro hq; simp [hq]; done)
    | (simp_all; done)
    | (simp; done)

theorem State.chanEvent_keeps {s0 : State} {s : State} {n : Nat} {en : Fld} {base : Nat} (hk : Keeps s0 s) :
    Keeps s0 (State.chanEvent s n en base) := by
  unfold State.chanEvent
  try dsimp only
  repeat' (with_reducible first
    | assumption
    | exact Keeps.refl _
    | intro _
    | apply State.pulse_keeps
    | (refine Keeps.ofEq (by assumption) ?_)
    | apply Keeps.ite
    | apply Keeps.foldl
    | apply Keeps.foldlFst
    | apply Keeps.setReg
    | simp only [Keeps.mk_iff]
    | simp only [Keeps.mkVlt_iff]
    | split)
  all_goals first
    | exact id
    | (intro _ hq; exact hq)
    | (intro _; rfl)
    | (intro _ hq; simp [hq]; done)
    | (intro hq; simp [hq]; done)
    | (simp_all; done)
    | (simp; done)

theorem State.zeroEvent_keeps {s0 : State} {s : State} {n : Nat} (hk : Keeps s0 s) :
    Keeps s0 (State.zeroEvent s n) := by
  unfold State.zeroEvent
  try dsimp only
  repeat' (with_reducible first
    | assumption
    | exact Keeps.refl _
    | intro _
    | apply Keeps.modChan
    | apply Keeps.modPwm
    | apply State.chanEvent_keeps
    | (refine Keeps.ofEq (by assumption) ?_)
    | apply Keeps.ite
    | apply Keeps.foldl
    | apply Keeps.foldlFst
    | apply Keeps.setReg
    | simp only [Keeps.mk_iff]
    | simp only [Keeps.mkVlt_iff]
    | split)
  all_goals first
    | exact id
    | (intro _ hq; exact hq)
    | (intro _; rfl)
    | (intro _ hq; simp [hq]; done)
    | (intro hq; simp [hq]; done)
    | (simp_all; done)
    | (simp; done)

theorem State.lgRise_keeps {s0 : State} {s : State} {n : Nat} {t : Nat} {cap : Option Nat} (hk : Keeps s0 s) :
    Keeps s0 (State.lgRise s n t cap) := by
  unfold State.lgRise
  try dsimp only
  repeat' (with_reducible first
    | assumption
    | exact Keeps.refl _
    | intro _
    | apply State.setFld_keeps
    | apply Keeps.modChan
    | (refine Keeps.ofEq (by assumption) ?_)
    | apply Keeps.ite
    | apply Keeps.foldl
    | apply Keeps.foldlFst
    | apply Keeps.setReg
    | simp only [Keeps.mk_iff]
    | simp only [Keeps.mkVlt_iff]
    | split)
  all_goals first
    | exact id
    | (intro _ hq; exact hq)
    | (intro _; rfl)
    | (intro _ hq; simp [hq]; done)
    | (intro hq; simp [hq]; done)
    | (simp_all; done)
    | (simp; done)

theorem State.hgRise_keeps {s0 : State} {s : State} {n : Nat} {t : Nat} {cap : Option Nat} (hk : Keeps s0 s) :
    Keeps s0 (State.hgRise s n t cap) := by
  unfold State.hgRise
  try dsimp only
  repeat' (with_reducible first
    | assumption
    | exact Keeps.refl _
    | intro _
    | apply State.setFld_keeps
    | apply Keeps.modChan
    | (refine Keeps.ofEq (by assumption) ?_)
    | apply Keeps.ite
    | apply Keeps.foldl
    | apply Keeps.foldlFst
    | apply Keeps.setReg
    | simp only [Keeps.mk_iff]
    | simp only [Keeps.mkVlt_iff]
    | split)
  all_goals first
    | exact id
    | (intro _ hq; exact hq)
    | (intro _; rfl)
    | (intro _ hq; simp [hq]; done)
    | (intro hq; simp [hq]; done)
    | (simp_all; done)
    | (simp; done)

theorem State.hgForgo_keeps {s0 : State} {s : State} {n : Nat} {t : Nat} (hk : Keeps s0 s) :
    Keeps s0 (State.hgForgo s n t) := by
  unfold State.hgForgo
  try dsimp only
  repeat' (with_reducible first
    | assumption
    | exact Keeps.refl _
    | intro _
    | apply Keeps.modChan
    | (refine Keeps.ofEq (by assumption) ?_)
    | apply Keeps.ite
    | apply Keeps.foldl
    | apply Keeps.foldlFst
    | apply Keeps.setReg
    | simp only [Keeps.mk_iff]
    | simp only [Keeps.mkVlt_iff]
    | split)
  all_goals first
    | exact id
    | (intro _ hq; exact hq)
    | (intro _; rfl)
    | (intro _ hq; simp [hq]; done)
    | (intro hq; simp [hq]; done)
    | (simp_all; done)
    | (simp; done)

theorem State.hgMeet_keeps {s0 : State} {s : State} {n : Nat} {t : Nat} {cap : Option Nat} (hk : Keeps s0 s) :
    Keeps s0 (State.hgMeet s n t cap) := by
  unfold State.hgMeet
  try dsimp only
  repeat' (with_reducible first
    | assumption
    | exact Keeps.refl _
    | intro _
    | apply State.hgRise_keeps
    | apply State.hgForgo_keeps
    | (refine Keeps.ofEq (by assumption) ?_)
    | apply Keeps.ite
    | apply Keeps.foldl
    | apply Keeps.foldlFst
    | apply Keeps.setReg
    | simp only [Keeps.mk_iff]
    | simp only [Keeps.mkVlt_iff]
    | split)
  all_goals first
    | exact id
    | (intro _ hq; exact hq)
    | (intro _; rfl)
    | (intro _ hq; simp [hq]; done)
    | (intro hq; simp [hq]; done)
    | (simp_all; done)
    | (simp; done)

theorem State.shadowLoad_keeps {s0 : State} {s : State} {n : Nat} (hk : Keeps s0 s) :
    Keeps s0 (State.shadowLoad s n) := by
  unfold State.shadowLoad
  try dsimp only
  repeat' (with_reducible first
    | assumption
    | exact Keeps.refl _
    | intro _
    | apply State.setFlag_keeps
    | apply Keeps.modChan
    | apply State.pwmStick_keeps
    | (refine Keeps.ofEq (by assumption) ?_)
    | apply Keeps.ite
    | apply Keeps.foldl
    | apply Keeps.foldlFst
    | apply Keeps.setReg
    | simp only [Keeps.mk_iff]
    | simp only [Keeps.mkVlt_iff]
    | split)
  all_goals first
    | exact id
    | (intro _ hq; exact hq)
    | (intro _; rfl)
    | (intro _ hq; simp [hq]; done)
    | (intro hq; simp [hq]; done)
    | (simp_all; done)
    | (simp; done)

theorem State.shadowWrite_keeps {s0 : State} {s : State} {n : Nat} {q : ShadowReg} {v : Word} (hk : Keeps s0 s) :
    Keeps s0 (State.shadowWrite s n q v) := by
  unfold State.shadowWrite
  try dsimp only
  repeat' (with_reducible first
    | assumption
    | exact Keeps.refl _
    | intro _
    | apply Keeps.setReg
    | apply State.setFlag_keeps
    | apply State.shadowLoad_keeps
    | (refine Keeps.ofEq (by assumption) ?_)
    | apply Keeps.ite
    | apply Keeps.foldl
    | apply Keeps.foldlFst
    | apply Keeps.setReg
    | simp only [Keeps.mk_iff]
    | simp only [Keeps.mkVlt_iff]
    | split)
  all_goals first
    | exact id
    | (intro _ hq; exact hq)
    | (intro _; rfl)
    | (intro _ hq; simp [hq]; done)
    | (intro hq; simp [hq]; done)
    | (simp_all; done)
    | (simp; done)

theorem State.forceTake_keeps {s0 : State} {s : State} {n : Nat} {h : Nat} {l : Nat} (hk : Keeps s0 s) :
    Keeps s0 (State.forceTake s n h l) := by
  unfold State.forceTake
  try dsimp only
  repeat' (with_reducible first
    | assumption
    | exact Keeps.refl _
    | intro _
    | apply Keeps.modChan
    | (refine Keeps.ofEq (by assumption) ?_)
    | apply Keeps.ite
    | apply Keeps.foldl
    | apply Keeps.foldlFst
    | apply Keeps.setReg
    | simp only [Keeps.mk_iff]
    | simp only [Keeps.mkVlt_iff]
    | split)
  all_goals first
    | exact id
    | (intro _ hq; exact hq)
    | (intro _; rfl)
    | (intro _ hq; simp [hq]; done)
    | (intro hq; simp [hq]; done)
    | (simp_all; done)
    | (simp; done)

theorem State.forceAgain_keeps {s0 : State} {s : State} {n : Nat} (hk : Keeps s0 s) :
    Keeps s0 (State.forceAgain s n) := by
  unfold State.forceAgain
  try dsimp only
  repeat' (with_reducible first
    | assumption
    | exact Keeps.refl _
    | intro _
    | apply Keeps.modChan
    | apply State.forceTake_keeps
    | (refine Keeps.ofEq (by assumption) ?_)
    | apply Keeps.ite
    | apply Keeps.foldl
    | apply Keeps.foldlFst
    | apply Keeps.setReg
    | simp only [Keeps.mk_iff]
    | simp only [Keeps.mkVlt_iff]
    | split)
  all_goals first
    | exact id
    | (intro _ hq; exact hq)
    | (intro _; rfl)
    | (intro _ hq; simp [hq]; done)
    | (intro hq; simp [hq]; done)
    | (simp_all; done)
    | (simp; done)

theorem State.periodEnd_keeps {s0 : State} {s : State} {n : Nat} (hk : Keeps s0 s) :
    Keeps s0 (State.periodEnd s n) := by
  unfold State.periodEnd
  try dsimp only
  repeat' (with_reducible first
    | assumption
    | exact Keeps.refl _
    | intro _
    | apply Keeps.modChan
    | (refine Keeps.ofEq (by assumption) ?_)
    | apply Keeps.ite
    | apply Keeps.foldl
    | apply Keeps.foldlFst
    | apply Keeps.setReg
    | simp only [Keeps.mk_iff]
    | simp only [Keeps.mkVlt_iff]
    | split)
  all_goals first
    | exact id
    | (intro _ hq; exact hq)
    | (intro _; rfl)
    | (intro _ hq; simp [hq]; done)
    | (intro hq; simp [hq]; done)
    | (simp_all; done)
    | (simp; done)

theorem State.zeroLoad_keeps {s0 : State} {s : State} {n : Nat} {edge : Bool} (hk : Keeps s0 s) :
    Keeps s0 (State.zeroLoad s n edge) := by
  unfold State.zeroLoad
  try dsimp only
  repeat' (with_reducible first
    | assumption
    | exact Keeps.refl _
    | intro _
    | apply Keeps.modChan
    | apply State.shadowLoad_keeps
    | (refine Keeps.ofEq (by assumption) ?_)
    | apply Keeps.ite
    | apply Keeps.foldl
    | apply Keeps.foldlFst
    | apply Keeps.setReg
    | simp only [Keeps.mk_iff]
    | simp only [Keeps.mkVlt_iff]
    | split)
  all_goals first
    | exact id
    | (intro _ hq; exact hq)
    | (intro _; rfl)
    | (intro _ hq; simp [hq]; done)
    | (intro hq; simp [hq]; done)
    | (simp_all; done)
    | (simp; done)

theorem State.zeroRestart_keeps {s0 : State} {s : State} {n : Nat} (hk : Keeps s0 s) :
    Keeps s0 (State.zeroRestart s n) := by
  unfold State.zeroRestart
  try dsimp only
  repeat' (with_reducible first
    | assumption
    | exact Keeps.refl _
    | intro _
    | apply Keeps.modChan
    | apply State.softStart_keeps
    | (refine Keeps.ofEq (by assumption) ?_)
    | apply Keeps.ite
    | apply Keeps.foldl
    | apply Keeps.foldlFst
    | apply Keeps.setReg
    | simp only [Keeps.mk_iff]
    | simp only [Keeps.mkVlt_iff]
    | split)
  all_goals first
    | exact id
    | (intro _ hq; exact hq)
    | (intro _; rfl)
    | (intro _ hq; simp [hq]; done)
    | (intro hq; simp [hq]; done)
    | (simp_all; done)
    | (simp; done)

theorem State.zeroGate_keeps {s0 : State} {s : State} {n : Nat} (hk : Keeps s0 s) :
    Keeps s0 (State.zeroGate s n) := by
  unfold State.zeroGate
  try dsimp only
  repeat' (with_reducible first
    | assumption
    | exact Keeps.refl _
    | intro _
    | apply State.setFlag_keeps
    | apply Keeps.modChan
    | (refine Keeps.ofEq (by assumption) ?_)
    | apply Keeps.ite
    | apply Keeps.foldl
    | apply Keeps.foldlFst
    | apply Keeps.setReg
    | simp only [Keeps.mk_iff]
    | simp only [Keeps.mkVlt_iff]
    | split)
  all_goals first
    | exact id
    | (intro _ hq; exact hq)
    | (intro _; rfl)
    | (intro _ hq; simp [hq]; done)
    | (intro hq; simp [hq]; done)
    | (simp_all; done)
    | (simp; done)

theorem State.zeroDrive_keeps {s0 : State} {s : State} {n : Nat} {bstLow : Bool} (hk : Keeps s0 s) :
    Keeps s0 (State.zeroDrive s n bstLow) := by
  unfold State.zeroDrive
  try dsimp only
  repeat' (with_reducible first
    | assumption
    | exact Keeps.refl _
    | intro _
    | apply Keeps.modChan
    | (refine Keeps.ofEq (by assumption) ?_)
    | apply Keeps.ite
    | apply Keeps.foldl
    | apply Keeps.foldlFst
    | apply Keeps.setReg
    | simp only [Keeps.mk_iff]
    | simp only [Keeps.mkVlt_iff]
    | split)
  all_goals first
    | exact id
    | (intro _ hq; exact hq)
    | (intro _; rfl)
    | (intro _ hq; simp [hq]; done)
    | (intro hq; simp [hq]; done)
    | (simp_all; done)
    | (simp; done)

theorem State.zeroCore_keeps {s0 : State} {s : State} {n : Nat} {bstLow : Bool} {edge : Bool} (hk : Keeps s0 s) :
    Keeps s0 (State.zeroCore s n bstLow edge) := by
  unfold State.zeroCore
  try dsimp only
  repeat' (with_reducible first
    | assumption
    | exact Keeps.refl _
    | intro _
    | apply State.hltPeriodBegin_keeps
    | apply State.zeroEvent_keeps
    | apply State.periodEnd_keeps
    | apply State.zeroLoad_keeps
    | apply State.zeroRestart_keeps
    | apply State.zeroGate_keeps
    | apply State.zeroDrive_keeps
    | (refine Keeps.ofEq (by assumption) ?_)
    | apply Keeps.ite
    | apply Keeps.foldl
    | apply Keeps.foldlFst
    | apply Keeps.setReg
    | simp only [Keeps.mk_iff]
    | simp only [Keeps.mkVlt_iff]
    | split)
  all_goals first
    | exact id
    | (intro _ hq; exact hq)
    | (intro _; rfl)
    | (intro _ hq; simp [hq]; done)
    | (intro hq; simp [hq]; done)
    | (simp_all; done)
    | (simp; done)

theorem State.chanStart_keeps {s0 : State} {s : State} {n : Nat} (hk : Keeps s0 s) :
    Keeps s0 (State.chanStart s n) := by
  unfold State.chanStart
  try dsimp only
  repeat' (with_reducible first
    | assumption
    | exact Keeps.refl _
    | intro _
    | apply Keeps.modChan
    | apply State.softStart_keeps
    | apply State.forceAgain_keeps
    | apply State.zeroCore_keeps
    | (refine Keeps.ofEq (by assumption) ?_)
    | apply Keeps.ite
    | apply Keeps.foldl
    | apply Keeps.foldlFst
    | apply Keeps.setReg
    | simp only [Keeps.mk_iff]
    | simp only [Keeps.mkVlt_iff]
    | split)
  all_goals first
    | exact id
    | (intro _ hq; exact hq)
    | (intro _; rfl)
    | (intro _ hq; simp [hq]; done)
    | (intro hq; simp [hq]; done)
    | (simp_all; done)
    | (simp; done)

theorem State.tryStart_keeps {s0 : State} {s : State} {n : Nat} (hk : Keeps s0 s) :
    Keeps s0 (State.tryStart s n) := by
  unfold State.tryStart
  try dsimp only
  repeat' (with_reducible first
    | assumption
    | exact Keeps.refl _
    | intro _
    | apply State.chanStart_keeps
    | (refine Keeps.ofEq (by assumption) ?_)
    | apply Keeps.ite
    | apply Keeps.foldl
    | apply Keeps.foldlFst
    | apply Keeps.setReg
    | simp only [Keeps.mk_iff]
    | simp only [Keeps.mkVlt_iff]
    | split)
  all_goals first
    | exact id
    | (intro _ hq; exact hq)
    | (intro _; rfl)
    | (intro _ hq; simp [hq]; done)
    | (intro hq; simp [hq]; done)
    | (simp_all; done)
    | (simp; done)

theorem State.chanStop_keeps {s0 : State} {s : State} {n : Nat} (hk : Keeps s0 s) :
    Keeps s0 (State.chanStop s n) := by
  unfold State.chanStop
  try dsimp only
  repeat' (with_reducible first
    | assumption
    | exact Keeps.refl _
    | intro _
    | apply Keeps.modChan
    | (refine Keeps.ofEq (by assumption) ?_)
    | apply Keeps.ite
    | apply Keeps.foldl
    | apply Keeps.foldlFst
    | apply Keeps.setReg
    | simp only [Keeps.mk_iff]
    | simp only [Keeps.mkVlt_iff]
    | split)
  all_goals first
    | exact id
    | (intro _ hq; exact hq)
    | (intro _; rfl)
    | (intro _ hq; simp [hq]; done)
    | (intro hq; simp [hq]; done)
    | (simp_all; done)
    | (simp; done)

theorem State.startAll_keeps {s0 : State} {s : State} (hk : Keeps s0 s) :
    Keeps s0 (State.startAll s) := by
  unfold State.startAll
  try dsimp only
  repeat' (with_reducible first
    | assumption
    | exact Keeps.refl _
    | intro _
    | apply Keeps.forChans
    | apply State.chanStart_keeps
    | (refine Keeps.ofEq (by assumption) ?_)
    | apply Keeps.ite
    | apply Keeps.foldl
    | apply Keeps.foldlFst
    | apply Keeps.setReg
    | simp only [Keeps.mk_iff]
    | simp only [Keeps.mkVlt_iff]
    | split)
  all_goals first
    | exact id
    | (intro _ hq; exact hq)
    | (intro _; rfl)
    | (intro _ hq; simp [hq]; done)
    | (intro hq; simp [hq]; done)
    | (simp_all; done)
    | (simp; done)

theorem State.stopAll_keeps {s0 : State} {s : State} (hk : Keeps s0 s) :
    Keeps s0 (State.stopAll s) := by
  unfold State.stopAll
  try dsimp only
  repeat' (with_reducible first
    | assumption
    | exact Keeps.refl _
    | intro _
    | apply Keeps.forChans
    | apply State.chanStop_keeps
    | (refine Keeps.ofEq (by assumption) ?_)
    | apply Keeps.ite
    | apply Keeps.foldl
    | apply Keeps.foldlFst
    | apply Keeps.setReg
    | simp only [Keeps.mk_iff]
    | simp only [Keeps.mkVlt_iff]
    | split)
  all_goals first
    | exact id
    | (intro _ hq; exact hq)
    | (intro _; rfl)
    | (intro _ hq; simp [hq]; done)
    | (intro hq; simp [hq]; done)
    | (simp_all; done)
    | (simp; done)

theorem State.enaWrite_keeps {s0 : State} {s : State} {v : Word} (hk : Keeps s0 s) :
    Keeps s0 (State.enaWrite s v) := by
  unfold State.enaWrite
  try dsimp only
  repeat' (with_reducible first
    | assumption
    | exact Keeps.refl _
    | intro _
    | apply Keeps.setReg
    | apply Keeps.forChans
    | apply State.softStart_keeps
    | apply State.tryStart_keeps
    | apply State.chanStop_keeps
    | (refine Keeps.ofEq (by assumption) ?_)
    | apply Keeps.ite
    | apply Keeps.foldl
    | apply Keeps.foldlFst
    | apply Keeps.setReg
    | simp only [Keeps.mk_iff]
    | simp only [Keeps.mkVlt_iff]
    | split)
  all_goals first
    | exact id
    | (intro _ hq; exact hq)
    | (intro _; rfl)
    | (intro _ hq; simp [hq]; done)
    | (intro hq; simp [hq]; done)
    | (simp_all; done)
    | (simp; done)

theorem State.midLoad_keeps {s0 : State} {s : State} {n : Nat} (hk : Keeps s0 s) :
    Keeps s0 (State.midLoad s n) := by
  unfold State.midLoad
  try dsimp only
  repeat' (with_reducible first
    | assumption
    | exact Keeps.refl _
    | intro _
    | apply Keeps.modChan
    | apply State.shadowLoad_keeps
    | (refine Keeps.ofEq (by assumption) ?_)
    | apply Keeps.ite
    | apply Keeps.foldl
    | apply Keeps.foldlFst
    | apply Keeps.setReg
    | simp only [Keeps.mk_iff]
    | simp only [Keeps.mkVlt_iff]
    | split)
  all_goals first
    | exact id
    | (intro _ hq; exact hq)
    | (intro _; rfl)
    | (intro _ hq; simp [hq]; done)
    | (intro hq; simp [hq]; done)
    | (simp_all; done)
    | (simp; done)

theorem State.cmpaHit_keeps {s0 : State} {s : State} {n : Nat} (hk : Keeps s0 s) :
    Keeps s0 (State.cmpaHit s n) := by
  unfold State.cmpaHit
  try dsimp only
  repeat' (with_reducible first
    | assumption
    | exact Keeps.refl _
    | intro _
    | apply Keeps.modChan
    | apply State.chanEvent_keeps
    | (refine Keeps.ofEq (by assumption) ?_)
    | apply Keeps.ite
    | apply Keeps.foldl
    | apply Keeps.foldlFst
    | apply Keeps.setReg
    | simp only [Keeps.mk_iff]
    | simp only [Keeps.mkVlt_iff]
    | split)
  all_goals first
    | exact id
    | (intro _ hq; exact hq)
    | (intro _; rfl)
    | (intro _ hq; simp [hq]; done)
    | (intro hq; simp [hq]; done)
    | (simp_all; done)
    | (simp; done)

theorem State.cmpbHit_keeps {s0 : State} {s : State} {n : Nat} (hk : Keeps s0 s) :
    Keeps s0 (State.cmpbHit s n) := by
  unfold State.cmpbHit
  try dsimp only
  repeat' (with_reducible first
    | assumption
    | exact Keeps.refl _
    | intro _
    | apply Keeps.modChan
    | apply State.chanEvent_keeps
    | (refine Keeps.ofEq (by assumption) ?_)
    | apply Keeps.ite
    | apply Keeps.foldl
    | apply Keeps.foldlFst
    | apply Keeps.setReg
    | simp only [Keeps.mk_iff]
    | simp only [Keeps.mkVlt_iff]
    | split)
  all_goals first
    | exact id
    | (intro _ hq; exact hq)
    | (intro _; rfl)
    | (intro _ hq; simp [hq]; done)
    | (intro hq; simp [hq]; done)
    | (simp_all; done)
    | (simp; done)

theorem State.peakEnd_keeps {s0 : State} {s : State} {n : Nat} {t : Nat} (hk : Keeps s0 s) :
    Keeps s0 (State.peakEnd s n t) := by
  unfold State.peakEnd
  try dsimp only
  repeat' (with_reducible first
    | assumption
    | exact Keeps.refl _
    | intro _
    | apply Keeps.modChan
    | (refine Keeps.ofEq (by assumption) ?_)
    | apply Keeps.ite
    | apply Keeps.foldl
    | apply Keeps.foldlFst
    | apply Keeps.setReg
    | simp only [Keeps.mk_iff]
    | simp only [Keeps.mkVlt_iff]
    | split)
  all_goals first
    | exact id
    | (intro _ hq; exact hq)
    | (intro _; rfl)
    | (intro _ hq; simp [hq]; done)
    | (intro hq; simp [hq]; done)
    | (simp_all; done)
    | (simp; done)

theorem State.swLow_keeps {s0 : State} {s : State} {n : Nat} {t : Nat} (hk : Keeps s0 s) :
    Keeps s0 (State.swLow s n t) := by
  unfold State.swLow
  try dsimp only
  repeat' (with_reducible first
    | assumption
    | exact Keeps.refl _
    | intro _
    | apply State.lgRise_keeps
    | (refine Keeps.ofEq (by assumption) ?_)
    | apply Keeps.ite
    | apply Keeps.foldl
    | apply Keeps.foldlFst
    | apply Keeps.setReg
    | simp only [Keeps.mk_iff]
    | simp only [Keeps.mkVlt_iff]
    | split)
  all_goals first
    | exact id
    | (intro _ hq; exact hq)
    | (intro _; rfl)
    | (intro _ hq; simp [hq]; done)
    | (intro hq; simp [hq]; done)
    | (simp_all; done)
    | (simp; done)

theorem State.lgSensed_keeps {s0 : State} {s : State} {n : Nat} {t : Nat} (hk : Keeps s0 s) :
    Keeps s0 (State.lgSensed s n t) := by
  unfold State.lgSensed
  try dsimp only
  repeat' (with_reducible first
    | assumption
    | exact Keeps.refl _
    | intro _
    | apply Keeps.modChan
    | (refine Keeps.ofEq (by assumption) ?_)
    | apply Keeps.ite
    | apply Keeps.foldl
    | apply Keeps.foldlFst
    | apply Keeps.setReg
    | simp only [Keeps.mk_iff]
    | simp only [Keeps.mkVlt_iff]
    | split)
  all_goals first
    | exact id
    | (intro _ hq; exact hq)
    | (intro _; rfl)
    | (intro _ hq; simp [hq]; done)
    | (intro hq; simp [hq]; done)
    | (simp_all; done)
    | (simp; done)

theorem State.hgTurnOn_keeps {s0 : State} {s : State} {n : Nat} {t : Nat} (hk : Keeps s0 s) :
    Keeps s0 (State.hgTurnOn s n t) := by
  unfold State.hgTurnOn
  try dsimp only
  repeat' (with_reducible first
    | assumption
    | exact Keeps.refl _
    | intro _
    | apply State.hgMeet_keeps
    | (refine Keeps.ofEq (by assumption) ?_)
    | apply Keeps.ite
    | apply Keeps.foldl
    | apply Keeps.foldlFst
    | apply Keeps.setReg
    | simp only [Keeps.mk_iff]
    | simp only [Keeps.mkVlt_iff]
    | split)
  all_goals first
    | exact id
    | (intro _ hq; exact hq)
    | (intro _; rfl)
    | (intro _ hq; simp [hq]; done)
    | (intro hq; simp [hq]; done)
    | (simp_all; done)
    | (simp; done)

theorem State.dtMax_keeps {s0 : State} {s : State} {n : Nat} {t : Nat} (hk : Keeps s0 s) :
    Keeps s0 (State.dtMax s n t) := by
  unfold State.dtMax
  try dsimp only
  repeat' (with_reducible first
    | assumption
    | exact Keeps.refl _
    | intro _
    | apply State.pwmStick_keeps
    | apply State.lgRise_keeps
    | apply State.hgMeet_keeps
    | (refine Keeps.ofEq (by assumption) ?_)
    | apply Keeps.ite
    | apply Keeps.foldl
    | apply Keeps.foldlFst
    | apply Keeps.setReg
    | simp only [Keeps.mk_iff]
    | simp only [Keeps.mkVlt_iff]
    | split)
  all_goals first
    | exact id
    | (intro _ hq; exact hq)
    | (intro _; rfl)
    | (intro _ hq; simp [hq]; done)
    | (intro hq; simp [hq]; done)
    | (simp_all; done)
    | (simp; done)

theorem State.zeroCurrent_keeps {s0 : State} {s : State} {n : Nat} {t : Nat} (hk : Keeps s0 s) :
    Keeps s0 (State.zeroCurrent s n t) := by
  unfold State.zeroCurrent
  try dsimp only
  repeat' (with_reducible first
    | assumption
    | exact Keeps.refl _
    | intro _
    | apply Keeps.modChan
    | (refine Keeps.ofEq (by assumption) ?_)
    | apply Keeps.ite
    | apply Keeps.foldl
    | apply Keeps.foldlFst
    | apply Keeps.setReg
    | simp only [Keeps.mk_iff]
    | simp only [Keeps.mkVlt_iff]
    | split)
  all_goals first
    | exact id
    | (intro _ hq; exact hq)
    | (intro _; rfl)
    | (intro _ hq; simp [hq]; done)
    | (intro hq; simp [hq]; done)
    | (simp_all; done)
    | (simp; done)

theorem State.burnEnd_keeps {s0 : State} {s : State} {n : Nat} {bstLow : Bool} (hk : Keeps s0 s) :
    Keeps s0 (State.burnEnd s n bstLow) := by
  unfold State.burnEnd
  try dsimp only
  repeat' (with_reducible first
    | assumption
    | exact Keeps.refl _
    | intro _
    | apply Keeps.modChan
    | (refine Keeps.ofEq (by assumption) ?_)
    | apply Keeps.ite
    | apply Keeps.foldl
    | apply Keeps.foldlFst
    | apply Keeps.setReg
    | simp only [Keeps.mk_iff]
    | simp only [Keeps.mkVlt_iff]
    | split)
  all_goals first
    | exact id
    | (intro _ hq; exact hq)
    | (intro _; rfl)
    | (intro _ hq; simp [hq]; done)
    | (intro hq; simp [hq]; done)
    | (simp_all; done)
    | (simp; done)

theorem State.bstUvlo_keeps {s0 : State} {s : State} {n : Nat} (hk : Keeps s0 s) :
    Keeps s0 (State.bstUvlo s n) := by
  unfold State.bstUvlo
  try dsimp only
  repeat' (with_reducible first
    | assumption
    | exact Keeps.refl _
    | intro _
    | apply State.post_keeps
    | apply Keeps.modChan
    | apply State.pwmStick_keeps
    | (refine Keeps.ofEq (by assumption) ?_)
    | apply Keeps.ite
    | apply Keeps.foldl
    | apply Keeps.foldlFst
    | apply Keeps.setReg
    | simp only [Keeps.mk_iff]
    | simp only [Keeps.mkVlt_iff]
    | split)
  all_goals first
    | exact id
    | (intro _ hq; exact hq)
    | (intro _; rfl)
    | (intro _ hq; simp [hq]; done)
    | (intro hq; simp [hq]; done)
    | (simp_all; done)
    | (simp; done)

theorem State.forceWrite_keeps {s0 : State} {s : State} {n : Nat} {v : Word} (hk : Keeps s0 s) :
    Keeps s0 (State.forceWrite s n v) := by
  unfold State.forceWrite
  try dsimp only
  repeat' (with_reducible first
    | assumption
    | exact Keeps.refl _
    | intro _
    | apply Keeps.setReg
    | apply State.post_keeps
    | apply Keeps.modChan
    | apply State.pwmStick_keeps
    | (refine Keeps.ofEq (by assumption) ?_)
    | apply Keeps.ite
    | apply Keeps.foldl
    | apply Keeps.foldlFst
    | apply Keeps.setReg
    | simp only [Keeps.mk_iff]
    | simp only [Keeps.mkVlt_iff]
    | split)
  all_goals first
    | exact id
    | (intro _ hq; exact hq)
    | (intro _; rfl)
    | (intro _ hq; simp [hq]; done)
    | (intro hq; simp [hq]; done)
    | (simp_all; done)
    | (simp; done)

theorem State.forceEffect_keeps {s0 : State} {s : State} {n : Nat} (hk : Keeps s0 s) :
    Keeps s0 (State.forceEffect s n) := by
  unfold State.forceEffect
  try dsimp only
  repeat' (with_reducible first
    | assumption
    | exact Keeps.refl _
    | intro _
    | apply Keeps.modChan
    | apply State.forceTake_keeps
    | (refine Keeps.ofEq (by assumption) ?_)
    | apply Keeps.ite
    | apply Keeps.foldl
    | apply Keeps.foldlFst
    | apply Keeps.setReg
    | simp only [Keeps.mk_iff]
    | simp only [Keeps.mkVlt_iff]
    | split)
  all_goals first
    | exact id
    | (intro _ hq; exact hq)
    | (intro _; rfl)
    | (intro _ hq; simp [hq]; done)
    | (intro hq; simp [hq]; done)
    | (simp_all; done)
    | (simp; done)

theorem State.countTrip_keeps {s0 : State} {s : State} (hk : Keeps s0 s) :
    Keeps s0 (State.countTrip s) := by
  unfold State.countTrip
  try dsimp only
  repeat' (with_reducible first
    | assumption
    | exact Keeps.refl _
    | intro _
    | apply State.satInc_keeps
    | apply State.nmi_keeps
    | apply State.pulse_keeps
    | apply State.post_keeps
    | apply State.hatInc_keeps
    | apply Keeps.modPwm
    | (refine Keeps.ofEq (by assumption) ?_)
    | apply Keeps.ite
    | apply Keeps.foldl
    | apply Keeps.foldlFst
    | apply Keeps.setReg
    | simp only [Keeps.mk_iff]
    | simp only [Keeps.mkVlt_iff]
    | split)
  all_goals first
    | exact id
    | (intro _ hq; exact hq)
    | (intro _; rfl)
    | (intro _ hq; simp [hq]; done)
    | (intro hq; simp [hq]; done)
    | (simp_all; done)
    | (simp; done)

theorem State.stormRestart_keeps {s0 : State} {s : State} (hk : Keeps s0 s) :
    Keeps s0 (State.stormRestart s) := by
  unfold State.stormRestart
  try dsimp only
  repeat' (with_reducible first
    | assumption
    | exact Keeps.refl _
    | intro _
    | apply State.setFld_keeps
    | apply Keeps.modPwm
    | (refine Keeps.ofEq (by assumption) ?_)
    | apply Keeps.ite
    | apply Keeps.foldl
    | apply Keeps.foldlFst
    | apply Keeps.setReg
    | simp only [Keeps.mk_iff]
    | simp only [Keeps.mkVlt_iff]
    | split)
  all_goals first
    | exact id
    | (intro _ hq; exact hq)
    | (intro _; rfl)
    | (intro _ hq; simp [hq]; done)
    | (intro hq; simp [hq]; done)
    | (simp_all; done)
    | (simp; done)

theorem State.latchBit_keeps {s0 : State} {s : State} {n : Nat} {b : Nat} (hk : Keeps s0 s) :
    Keeps s0 (State.latchBit s n b) := by
  unfold State.latchBit
  try dsimp only
  repeat' (with_reducible first
    | assumption
    | exact Keeps.refl _
    | intro _
    | apply State.setFlag_keeps
    | apply State.setBit_keeps
    | apply Keeps.modChan
    | (refine Keeps.ofEq (by assumption) ?_)
    | apply Keeps.ite
    | apply Keeps.foldl
    | apply Keeps.foldlFst
    | apply Keeps.setReg
    | simp only [Keeps.mk_iff]
    | simp only [Keeps.mkVlt_iff]
    | split)
  all_goals first
    | exact id
    | (intro _ hq; exact hq)
    | (intro _; rfl)
    | (intro _ hq; simp [hq]; done)
    | (intro hq; simp [hq]; done)
    | (simp_all; done)
    | (simp; done)

theorem State.curStick_keeps {s0 : State} {s : State} {n : Nat} {f : Fld} (hk : Keeps s0 s) :
    Keeps s0 (State.curStick s n f) := by
  unfold State.curStick
  try dsimp only
  repeat' (with_reducible first
    | assumption
    | exact Keeps.refl _
    | intro _
    | apply State.stick_keeps
    | (refine Keeps.ofEq (by assumption) ?_)
    | apply Keeps.ite
    | apply Keeps.foldl
    | apply Keeps.foldlFst
    | apply Keeps.setReg
    | simp only [Keeps.mk_iff]
    | simp only [Keeps.mkVlt_iff]
    | split)
  all_goals first
    | exact id
    | (intro _ hq; exact hq)
    | (intro _; rfl)
    | (intro _ hq; simp [hq]; done)
    | (intro hq; simp [hq]; done)
    | (simp_all; done)
    | (simp; done)

theorem State.lockOff_keeps {s0 : State} {s : State} {n : Nat} (hk : Keeps s0 s) :
    Keeps s0 (State.lockOff s n) := by
  unfold State.lockOff
  try dsimp only
  repeat' (with_reducible first
    | assumption
    | exact Keeps.refl _
    | intro _
    | apply State.setFlag_keeps
    | apply State.post_keeps
    | apply State.curStick_keeps
    | (refine Keeps.ofEq (by assumption) ?_)
    | apply Keeps.ite
    | apply Keeps.foldl
    | apply Keeps.foldlFst
    | apply Keeps.setReg
    | simp only [Keeps.mk_iff]
    | simp only [Keeps.mkVlt_iff]
    | split)
  all_goals first
    | exact id
    | (intro _ hq; exact hq)
    | (intro _; rfl)
    | (intro _ hq; simp [hq]; done)
    | (intro hq; simp [hq]; done)
    | (simp_all; done)
    | (simp; done)

theorem State.openMark_keeps {s0 : State} {s : State} {n : Nat} (hk : Keeps s0 s) :
    Keeps s0 (State.openMark s n) := by
  unfold State.openMark
  try dsimp only
  repeat' (with_reducible first
    | assumption
    | exact Keeps.refl _
    | intro _
    | apply State.setFlag_keeps
    | apply State.post_keeps
    | apply State.curStick_keeps
    | (refine Keeps.ofEq (by assumption) ?_)
    | apply Keeps.ite
    | apply Keeps.foldl
    | apply Keeps.foldlFst
    | apply Keeps.setReg
    | simp only [Keeps.mk_iff]
    | simp only [Keeps.mkVlt_iff]
    | split)
  all_goals first
    | exact id
    | (intro _ hq; exact hq)
    | (intro _; rfl)
    | (intro _ hq; simp [hq]; done)
    | (intro hq; simp [hq]; done)
    | (simp_all; done)
    | (simp; done)

theorem State.retryArm_keeps {s0 : State} {s : State} {n : Nat} (hk : Keeps s0 s) :
    Keeps s0 (State.retryArm s n) := by
  unfold State.retryArm
  try dsimp only
  repeat' (with_reducible first
    | assumption
    | exact Keeps.refl _
    | intro _
    | apply State.setFlag_keeps
    | apply State.lockOff_keeps
    | (refine Keeps.ofEq (by assumption) ?_)
    | apply Keeps.ite
    | apply Keeps.foldl
    | apply Keeps.foldlFst
    | apply Keeps.setReg
    | simp only [Keeps.mk_iff]
    | simp only [Keeps.mkVlt_iff]
    | split)
  all_goals first
    | exact id
    | (intro _ hq; exact hq)
    | (intro _; rfl)
    | (intro _ hq; simp [hq]; done)
    | (intro hq; simp [hq]; done)
    | (simp_all; done)
    | (simp; done)

theorem State.ownTrip_keeps {s0 : State} {s : State} {n : Nat} {b : Nat} (hk : Keeps s0 s) :
    Keeps s0 (State.ownTrip s n b) := by
  unfold State.ownTrip
  try dsimp only
  repeat' (with_reducible first
    | assumption
    | exact Keeps.refl _
    | intro _
    | apply State.irq_keeps
    | apply State.post_keeps
    | apply State.countTrip_keeps
    | apply State.latchBit_keeps
    | apply State.openMark_keeps
    | apply State.retryArm_keeps
    | (refine Keeps.ofEq (by assumption) ?_)
    | apply Keeps.ite
    | apply Keeps.foldl
    | apply Keeps.foldlFst
    | apply Keeps.setReg
    | simp only [Keeps.mk_iff]
    | simp only [Keeps.mkVlt_iff]
    | split)
  all_goals first
    | exact id
    | (intro _ hq; exact hq)
    | (intro _; rfl)
    | (intro _ hq; simp [hq]; done)
    | (intro hq; simp [hq]; done)
    | (simp_all; done)
    | (simp; done)

theorem State.globalTrip_keeps {s0 : State} {s : State} {b : Nat} (hk : Keeps s0 s) :
    Keeps s0 (State.globalTrip s b) := by
  unfold State.globalTrip
  try dsimp only
  repeat' (with_reducible first
    | assumption
    | exact Keeps.refl _
    | intro _
    | apply State.irq_keeps
    | apply State.post_keeps
    | apply Keeps.forChans
    | apply State.countTrip_keeps
    | apply State.latchBit_keeps
    | (refine Keeps.ofEq (by assumption) ?_)
    | apply Keeps.ite
    | apply Keeps.foldl
    | apply Keeps.foldlFst
    | apply Keeps.setReg
    | simp only [Keeps.mk_iff]
    | simp only [Keeps.mkVlt_iff]
    | split)
  all_goals first
    | exact id
    | (intro _ hq; exact hq)
    | (intro _; rfl)
    | (intro _ hq; simp [hq]; done)
    | (intro hq; simp [hq]; done)
    | (simp_all; done)
    | (simp; done)

theorem State.latchClear_keeps {s0 : State} {s : State} {n : Nat} (hk : Keeps s0 s) :
    Keeps s0 (State.latchClear s n) := by
  unfold State.latchClear
  try dsimp only
  repeat' (with_reducible first
    | assumption
    | exact Keeps.refl _
    | intro _
    | apply Keeps.setReg
    | apply State.setFlag_keeps
    | apply State.setBit_keeps
    | apply Keeps.modChan
    | apply State.forceAgain_keeps
    | apply State.tryStart_keeps
    | (refine Keeps.ofEq (by assumption) ?_)
    | apply Keeps.ite
    | apply Keeps.foldl
    | apply Keeps.foldlFst
    | apply Keeps.setReg
    | simp only [Keeps.mk_iff]
    | simp only [Keeps.mkVlt_iff]
    | split)
  all_goals first
    | exact id
    | (intro _ hq; exact hq)
    | (intro _; rfl)
    | (intro _ hq; simp [hq]; done)
    | (intro hq; simp [hq]; done)
    | (simp_all; done)
    | (simp; done)

theorem State.tryClear_keeps {s0 : State} {s : State} {n : Nat} {oc : Word} {ov : Word} {pins : BitVec 4} (hk : Keeps s0 s) :
    Keeps s0 (State.tryClear s n oc ov pins).1 := by
  unfold State.tryClear
  try dsimp only
  repeat' (with_reducible first
    | assumption
    | exact Keeps.refl _
    | intro _
    | apply State.post_keeps
    | apply State.pwmStick_keeps
    | apply State.latchClear_keeps
    | (refine Keeps.ofEq (by assumption) ?_)
    | apply Keeps.ite
    | apply Keeps.foldl
    | apply Keeps.foldlFst
    | apply Keeps.setReg
    | simp only [Keeps.mk_iff]
    | simp only [Keeps.mkVlt_iff]
    | split)
  all_goals first
    | exact id
    | (intro _ hq; exact hq)
    | (intro _; rfl)
    | (intro _ hq; simp [hq]; done)
    | (intro hq; simp [hq]; done)
    | (simp_all; done)
    | (simp; done)

theorem State.tripClr_keeps {s0 : State} {s : State} {n : Nat} {oc : Word} {ov : Word} {pins : BitVec 4} (hk : Keeps s0 s) :
    Keeps s0 (State.tripClr s n oc ov pins) := by
  unfold State.tripClr
  try dsimp only
  repeat' (with_reducible first
    | assumption
    | exact Keeps.refl _
    | intro _
    | (apply State.tryClear_keeps)
    | (refine Keeps.ofEq (by assumption) ?_)
    | apply Keeps.ite
    | apply Keeps.foldl
    | apply Keeps.foldlFst
    | apply Keeps.setReg
    | simp only [Keeps.mk_iff]
    | simp only [Keeps.mkVlt_iff]
    | split)
  all_goals first
    | exact id
    | (intro _ hq; exact hq)
    | (intro _; rfl)
    | (intro _ hq; simp [hq]; done)
    | (intro hq; simp [hq]; done)
    | (simp_all; done)
    | (simp; done)

theorem State.autoClear_keeps {s0 : State} {s : State} (hk : Keeps s0 s) :
    Keeps s0 (State.autoClear s) := by
  unfold State.autoClear
  try dsimp only
  repeat' (with_reducible first
    | assumption
    | exact Keeps.refl _
    | intro _
    | apply Keeps.modPwm
    | apply Keeps.forChans
    | apply State.latchClear_keeps
    | (refine Keeps.ofEq (by assumption) ?_)
    | apply Keeps.ite
    | apply Keeps.foldl
    | apply Keeps.foldlFst
    | apply Keeps.setReg
    | simp only [Keeps.mk_iff]
    | simp only [Keeps.mkVlt_iff]
    | split)
  all_goals first
    | exact id
    | (intro _ hq; exact hq)
    | (intro _; rfl)
    | (intro _ hq; simp [hq]; done)
    | (intro hq; simp [hq]; done)
    | (simp_all; done)
    | (simp; done)

theorem State.clockClear_keeps {s0 : State} {s : State} (hk : Keeps s0 s) :
    Keeps s0 (State.clockClear s) := by
  unfold State.clockClear
  try dsimp only
  repeat' (with_reducible first
    | assumption
    | exact Keeps.refl _
    | intro _
    | apply State.setBit_keeps
    | apply Keeps.forChans
    | apply State.latchClear_keeps
    | (refine Keeps.ofEq (by assumption) ?_)
    | apply Keeps.ite
    | apply Keeps.foldl
    | apply Keeps.foldlFst
    | apply Keeps.setReg
    | simp only [Keeps.mk_iff]
    | simp only [Keeps.mkVlt_iff]
    | split)
  all_goals first
    | exact id
    | (intro _ hq; exact hq)
    | (intro _; rfl)
    | (intro _ hq; simp [hq]; done)
    | (intro hq; simp [hq]; done)
    | (simp_all; done)
    | (simp; done)

theorem State.chanFreeze_keeps {s0 : State} {s : State} {n : Nat} (hk : Keeps s0 s) :
    Keeps s0 (State.chanFreeze s n) := by
  unfold State.chanFreeze
  try dsimp only
  repeat' (with_reducible first
    | assumption
    | exact Keeps.refl _
    | intro _
    | apply Keeps.modChan
    | (refine Keeps.ofEq (by assumption) ?_)
    | apply Keeps.ite
    | apply Keeps.foldl
    | apply Keeps.foldlFst
    | apply Keeps.setReg
    | simp only [Keeps.mk_iff]
    | simp only [Keeps.mkVlt_iff]
    | split)
  all_goals first
    | exact id
    | (intro _ hq; exact hq)
    | (intro _; rfl)
    | (intro _ hq; simp [hq]; done)
    | (intro hq; simp [hq]; done)
    | (simp_all; done)
    | (simp; done)

theorem State.chanResume_keeps {s0 : State} {s : State} {n : Nat} (hk : Keeps s0 s) :
    Keeps s0 (State.chanResume s n) := by
  unfold State.chanResume
  try dsimp only
  repeat' (with_reducible first
    | assumption
    | exact Keeps.refl _
    | intro _
    | apply State.setFlag_keeps
    | apply Keeps.modChan
    | (refine Keeps.ofEq (by assumption) ?_)
    | apply Keeps.ite
    | apply Keeps.foldl
    | apply Keeps.foldlFst
    | apply Keeps.setReg
    | simp only [Keeps.mk_iff]
    | simp only [Keeps.mkVlt_iff]
    | split)
  all_goals first
    | exact id
    | (intro _ hq; exact hq)
    | (intro _; rfl)
    | (intro _ hq; simp [hq]; done)
    | (intro hq; simp [hq]; done)
    | (simp_all; done)
    | (simp; done)

theorem State.pwmHold_keeps {s0 : State} {s : State} (hk : Keeps s0 s) :
    Keeps s0 (State.pwmHold s) := by
  unfold State.pwmHold
  try dsimp only
  repeat' (with_reducible first
    | assumption
    | exact Keeps.refl _
    | intro _
    | apply Keeps.forChans
    | apply State.chanFreeze_keeps
    | (refine Keeps.ofEq (by assumption) ?_)
    | apply Keeps.ite
    | apply Keeps.foldl
    | apply Keeps.foldlFst
    | apply Keeps.setReg
    | simp only [Keeps.mk_iff]
    | simp only [Keeps.mkVlt_iff]
    | split)
  all_goals first
    | exact id
    | (intro _ hq; exact hq)
    | (intro _; rfl)
    | (intro _ hq; simp [hq]; done)
    | (intro hq; simp [hq]; done)
    | (simp_all; done)
    | (simp; done)

theorem State.pwmResume_keeps {s0 : State} {s : State} (hk : Keeps s0 s) :
    Keeps s0 (State.pwmResume s) := by
  unfold State.pwmResume
  try dsimp only
  repeat' (with_reducible first
    | assumption
    | exact Keeps.refl _
    | intro _
    | apply Keeps.forChans
    | apply State.chanResume_keeps
    | (refine Keeps.ofEq (by assumption) ?_)
    | apply Keeps.ite
    | apply Keeps.foldl
    | apply Keeps.foldlFst
    | apply Keeps.setReg
    | simp only [Keeps.mk_iff]
    | simp only [Keeps.mkVlt_iff]
    | split)
  all_goals first
    | exact id
    | (intro _ hq; exact hq)
    | (intro _; rfl)
    | (intro _ hq; simp [hq]; done)
    | (intro hq; simp [hq]; done)
    | (simp_all; done)
    | (simp; done)

theorem State.holdTimeout_keeps {s0 : State} {s : State} {n : Nat} (hk : Keeps s0 s) :
    Keeps s0 (State.holdTimeout s n) := by
  unfold State.holdTimeout
  try dsimp only
  repeat' (with_reducible first
    | assumption
    | exact Keeps.refl _
    | intro _
    | apply State.setFlag_keeps
    | apply State.post_keeps
    | apply Keeps.modChan
    | (refine Keeps.ofEq (by assumption) ?_)
    | apply Keeps.ite
    | apply Keeps.foldl
    | apply Keeps.foldlFst
    | apply Keeps.setReg
    | simp only [Keeps.mk_iff]
    | simp only [Keeps.mkVlt_iff]
    | split)
  all_goals first
    | exact id
    | (intro _ hq; exact hq)
    | (intro _; rfl)
    | (intro _ hq; simp [hq]; done)
    | (intro hq; simp [hq]; done)
    | (simp_all; done)
    | (simp; done)

end Sys2Proof.Machine
end

