-- ==== Sys2Proof/Laws/KeepsCur.lean ====
section
/-! SUPPORT. Every operation of Machine/Cur.lean keeps the queue and the shape of the state. -/

namespace Sys2Proof.Machine

theorem State.realise_keeps {s0 : State} {s : State} {n : Nat} {d : Nat} {x : Split} {kp : Nat} (hk : Keeps s0 s) :
    Keeps s0 (State.realise s n d x kp) := by
  unfold State.realise
  try dsimp only
  repeat' (with_reducible first
    | assumption
    | exact Keeps.refl _
    | intro _
    | apply Keeps.setReg
    | apply State.setPair_keeps
    | apply Keeps.modChan
    | (refine Keeps.ofEq (by assumption) ?_)
    | apply Keeps.ite
    | apply Keeps.foldl
    | apply Keeps.foldlFst
    | apply Keeps.setReg
    | simp only [Keeps.mk_iff]
    | simp only [Keeps.mkVlt_iff]
    | split)
  all_goals first
    | exact id
    | (intro _ hq; exact hq)
    | (intro _; rfl)
    | (intro _ hq; simp [hq]; done)
    | (intro hq; simp [hq]; done)
    | (simp_all; done)
    | (simp; done)

theorem State.dimChannel_keeps {s0 : State} {s : State} {n : Nat} {m : Nat} {force : Option Nat} (hk : Keeps s0 s) :
    Keeps s0 (State.dimChannel s n m force) := by
  unfold State.dimChannel
  try dsimp only
  repeat' (with_reducible first
    | assumption
    | exact Keeps.refl _
    | intro _
    | apply State.setFlag_keeps
    | apply State.realise_keeps
    | (refine Keeps.ofEq (by assumption) ?_)
    | apply Keeps.ite
    | apply Keeps.foldl
    | apply Keeps.foldlFst
    | apply Keeps.setReg
    | simp only [Keeps.mk_iff]
    | simp only [Keeps.mkVlt_iff]
    | split)
  all_goals first
    | exact id
    | (intro _ hq; exact hq)
    | (intro _; rfl)
    | (intro _ hq; simp [hq]; done)
    | (intro hq; simp [hq]; done)
    | (simp_all; done)
    | (simp; done)

theorem State.phaseUpdate_keeps {s0 : State} {s : State} (hk : Keeps s0 s) :
    Keeps s0 (State.phaseUpdate s) := by
  unfold State.phaseUpdate
  try dsimp only
  repeat' (with_reducible first
    | assumption
    | exact Keeps.refl _
    | intro _
    | apply State.setFld_keeps
    | apply State.setFlag_keeps
    | apply State.irq_keeps
    | apply State.post_keeps
    | apply Keeps.modPwm
    | (refine Keeps.ofEq (by assumption) ?_)
    | apply Keeps.ite
    | apply Keeps.foldl
    | apply Keeps.foldlFst
    | apply Keeps.setReg
    | simp only [Keeps.mk_iff]
    | simp only [Keeps.mkVlt_iff]
    | split)
  all_goals first
    | exact id
    | (intro _ hq; exact hq)
    | (intro _; rfl)
    | (intro _ hq; simp [hq]; done)
    | (intro hq; simp [hq]; done)
    | (simp_all; done)
    | (simp; done)

theorem State.dimMark_keeps {s0 : State} {s : State} (hk : Keeps s0 s) :
    Keeps s0 (State.dimMark s) := by
  unfold State.dimMark
  try dsimp only
  repeat' (with_reducible first
    | assumption
    | exact Keeps.refl _
    | intro _
    | apply Keeps.modPwm
    | (refine Keeps.ofEq (by assumption) ?_)
    | apply Keeps.ite
    | apply Keeps.foldl
    | apply Keeps.foldlFst
    | apply Keeps.setReg
    | simp only [Keeps.mk_iff]
    | simp only [Keeps.mkVlt_iff]
    | split)
  all_goals first
    | exact id
    | (intro _ hq; exact hq)
    | (intro _; rfl)
    | (intro _ hq; simp [hq]; done)
    | (intro hq; simp [hq]; done)
    | (simp_all; done)
    | (simp; done)

theorem State.phrefMark_keeps {s0 : State} {s : State} (hk : Keeps s0 s) :
    Keeps s0 (State.phrefMark s) := by
  unfold State.phrefMark
  try dsimp only
  repeat' (with_reducible first
    | assumption
    | exact Keeps.refl _
    | intro _
    | apply State.phaseUpdate_keeps
    | apply State.dimMark_keeps
    | (refine Keeps.ofEq (by assumption) ?_)
    | apply Keeps.ite
    | apply Keeps.foldl
    | apply Keeps.foldlFst
    | apply Keeps.setReg
    | simp only [Keeps.mk_iff]
    | simp only [Keeps.mkVlt_iff]
    | split)
  all_goals first
    | exact id
    | (intro _ hq; exact hq)
    | (intro _; rfl)
    | (intro _ hq; simp [hq]; done)
    | (intro hq; simp [hq]; done)
    | (simp_all; done)
    | (simp; done)

theorem State.synciMark_keeps {s0 : State} {s : State} (hk : Keeps s0 s) :
    Keeps s0 (State.synciMark s) := by
  unfold State.synciMark
  try dsimp only
  repeat' (with_reducible first
    | assumption
    | exact Keeps.refl _
    | intro _
    | apply Keeps.modPwm
    | apply State.phaseUpdate_keeps
    | apply State.dimMark_keeps
    | (refine Keeps.ofEq (by assumption) ?_)
    | apply Keeps.ite
    | apply Keeps.foldl
    | apply Keeps.foldlFst
    | apply Keeps.setReg
    | simp only [Keeps.mk_iff]
    | simp only [Keeps.mkVlt_iff]
    | split)
  all_goals first
    | exact id
    | (intro _ hq; exact hq)
    | (intro _; rfl)
    | (intro _ hq; simp [hq]; done)
    | (intro hq; simp [hq]; done)
    | (simp_all; done)
    | (simp; done)

theorem State.dperMoved_keeps {s0 : State} {s : State} {old : Word} (hk : Keeps s0 s) :
    Keeps s0 (State.dperMoved s old) := by
  unfold State.dperMoved
  try dsimp only
  repeat' (with_reducible first
    | assumption
    | exact Keeps.refl _
    | intro _
    | apply Keeps.modChan
    | apply Keeps.forChans
    | (refine Keeps.ofEq (by assumption) ?_)
    | apply Keeps.ite
    | apply Keeps.foldl
    | apply Keeps.foldlFst
    | apply Keeps.setReg
    | simp only [Keeps.mk_iff]
    | simp only [Keeps.mkVlt_iff]
    | split)
  all_goals first
    | exact id
    | (intro _ hq; exact hq)
    | (intro _; rfl)
    | (intro _ hq; simp [hq]; done)
    | (intro hq; simp [hq]; done)
    | (simp_all; done)
    | (simp; done)

theorem State.trimUpdate_keeps {s0 : State} {s : State} {n : Nat} {avg : Int} {a : Nat} {skip : Bool} (hk : Keeps s0 s) :
    Keeps s0 (State.trimUpdate s n avg a skip) := by
  unfold State.trimUpdate
  try dsimp only
  repeat' (with_reducible first
    | assumption
    | exact Keeps.refl _
    | intro _
    | apply Keeps.setReg
    | apply State.post_keeps
    | apply State.curStick_keeps
    | (refine Keeps.ofEq (by assumption) ?_)
    | apply Keeps.ite
    | apply Keeps.foldl
    | apply Keeps.foldlFst
    | apply Keeps.setReg
    | simp only [Keeps.mk_iff]
    | simp only [Keeps.mkVlt_iff]
    | split)
  all_goals first
    | exact id
    | (intro _ hq; exact hq)
    | (intro _; rfl)
    | (intro _ hq; simp [hq]; done)
    | (intro hq; simp [hq]; done)
    | (simp_all; done)
    | (simp; done)

theorem State.retry_keeps {s0 : State} {s : State} {n : Nat} {oc : Bool} {ov : Bool} {pins : BitVec 4} (hk : Keeps s0 s) :
    Keeps s0 (State.retry s n oc ov pins) := by
  unfold State.retry
  try dsimp only
  repeat' (with_reducible first
    | assumption
    | exact Keeps.refl _
    | intro _
    | apply State.setFld_keeps
    | apply State.setFlag_keeps
    | apply State.post_keeps
    | apply State.curStick_keeps
    | (apply State.tryClear_keeps)
    | (refine Keeps.ofEq (by assumption) ?_)
    | apply Keeps.ite
    | apply Keeps.foldl
    | apply Keeps.foldlFst
    | apply Keeps.setReg
    | simp only [Keeps.mk_iff]
    | simp only [Keeps.mkVlt_iff]
    | split)
  all_goals first
    | exact id
    | (intro _ hq; exact hq)
    | (intro _; rfl)
    | (intro _ hq; simp [hq]; done)
    | (intro hq; simp [hq]; done)
    | (simp_all; done)
    | (simp; done)

theorem State.retryReset_keeps {s0 : State} {s : State} {n : Nat} (hk : Keeps s0 s) :
    Keeps s0 (State.retryReset s n) := by
  unfold State.retryReset
  try dsimp only
  repeat' (with_reducible first
    | assumption
    | exact Keeps.refl _
    | intro _
    | apply State.setFld_keeps
    | (refine Keeps.ofEq (by assumption) ?_)
    | apply Keeps.ite
    | apply Keeps.foldl
    | apply Keeps.foldlFst
    | apply Keeps.setReg
    | simp only [Keeps.mk_iff]
    | simp only [Keeps.mkVlt_iff]
    | split)
  all_goals first
    | exact id
    | (intro _ hq; exact hq)
    | (intro _; rfl)
    | (intro _ hq; simp [hq]; done)
    | (intro hq; simp [hq]; done)
    | (simp_all; done)
    | (simp; done)

theorem State.lockClr_keeps {s0 : State} {s : State} {n : Nat} {oc : Word} {ov : Word} {pins : BitVec 4} (hk : Keeps s0 s) :
    Keeps s0 (State.lockClr s n oc ov pins) := by
  unfold State.lockClr
  try dsimp only
  repeat' (with_reducible first
    | assumption
    | exact Keeps.refl _
    | intro _
    | apply Keeps.setReg
    | apply State.setFld_keeps
    | apply State.setFlag_keeps
    | apply State.post_keeps
    | apply Keeps.modChan
    | (apply State.tryClear_keeps)
    | (refine Keeps.ofEq (by assumption) ?_)
    | apply Keeps.ite
    | apply Keeps.foldl
    | apply Keeps.foldlFst
    | apply Keeps.setReg
    | simp only [Keeps.mk_iff]
    | simp only [Keeps.mkVlt_iff]
    | split)
  all_goals first
    | exact id
    | (intro _ hq; exact hq)
    | (intro _; rfl)
    | (intro _ hq; simp [hq]; done)
    | (intro hq; simp [hq]; done)
    | (simp_all; done)
    | (simp; done)

end Sys2Proof.Machine
end

