-- ==== Sys2Proof/Laws/KeepsLmp.lean ====
section
/-! SUPPORT. Every operation of Machine/Lmp.lean keeps the queue and the shape of the state. -/

namespace Sys2Proof.Machine

theorem State.lampStick_keeps {s0 : State} {s : State} {l : Nat} {f : Fld} {ev : Option (Nat × Nat)} (hk : Keeps s0 s) :
    Keeps s0 (State.lampStick s l f ev) := by
  unfold State.lampStick
  try dsimp only
  repeat' (with_reducible first
    | assumption
    | exact Keeps.refl _
    | intro _
    | apply State.stick_keeps
    | apply State.post_keeps
    | (refine Keeps.ofEq (by assumption) ?_)
    | apply Keeps.ite
    | apply Keeps.foldl
    | apply Keeps.foldlFst
    | apply Keeps.setReg
    | simp only [Keeps.mk_iff]
    | simp only [Keeps.mkVlt_iff]
    | split)
  all_goals first
    | exact id
    | (intro _ hq; exact hq)
    | (intro _; rfl)
    | (intro _ hq; simp [hq]; done)
    | (intro hq; simp [hq]; done)
    | (simp_all; done)
    | (simp; done)

theorem State.modLmp_keeps {s0 : State} {s : State} {f : LmpState → LmpState} (hk : Keeps s0 s) :
    Keeps s0 (State.modLmp s f) := by
  unfold State.modLmp
  try dsimp only
  repeat' (with_reducible first
    | assumption
    | exact Keeps.refl _
    | intro _
    | (refine Keeps.ofEq (by assumption) ?_)
    | apply Keeps.ite
    | apply Keeps.foldl
    | apply Keeps.foldlFst
    | apply Keeps.setReg
    | simp only [Keeps.mk_iff]
    | simp only [Keeps.mkVlt_iff]
    | split)
  all_goals first
    | exact id
    | (intro _ hq; exact hq)
    | (intro _; rfl)
    | (intro _ hq; simp [hq]; done)
    | (intro hq; simp [hq]; done)
    | (simp_all; done)
    | (simp; done)

theorem State.lmpMapWrite_keeps {s0 : State} {s : State} {l : Nat} {v : Word} (hk : Keeps s0 s) :
    Keeps s0 (State.lmpMapWrite s l v) := by
  unfold State.lmpMapWrite
  try dsimp only
  repeat' (with_reducible first
    | assumption
    | exact Keeps.refl _
    | intro _
    | apply State.modLmp_keeps
    | (refine Keeps.ofEq (by assumption) ?_)
    | apply Keeps.ite
    | apply Keeps.foldl
    | apply Keeps.foldlFst
    | apply Keeps.setReg
    | simp only [Keeps.mk_iff]
    | simp only [Keeps.mkVlt_iff]
    | split)
  all_goals first
    | exact id
    | (intro _ hq; exact hq)
    | (intro _; rfl)
    | (intro _ hq; simp [hq]; done)
    | (intro hq; simp [hq]; done)
    | (simp_all; done)
    | (simp; done)

theorem State.lmpCfgWrite_keeps {s0 : State} {s : State} {l : Nat} {v : Word} (hk : Keeps s0 s) :
    Keeps s0 (State.lmpCfgWrite s l v) := by
  unfold State.lmpCfgWrite
  try dsimp only
  repeat' (with_reducible first
    | assumption
    | exact Keeps.refl _
    | intro _
    | apply State.modLmp_keeps
    | (refine Keeps.ofEq (by assumption) ?_)
    | apply Keeps.ite
    | apply Keeps.foldl
    | apply Keeps.foldlFst
    | apply Keeps.setReg
    | simp only [Keeps.mk_iff]
    | simp only [Keeps.mkVlt_iff]
    | split)
  all_goals first
    | exact id
    | (intro _ hq; exact hq)
    | (intro _; rfl)
    | (intro _ hq; simp [hq]; done)
    | (intro hq; simp [hq]; done)
    | (simp_all; done)
    | (simp; done)

theorem State.mapCheck_keeps {s0 : State} {s : State} {l : Nat} (hk : Keeps s0 s) :
    Keeps s0 (State.mapCheck s l) := by
  unfold State.mapCheck
  try dsimp only
  repeat' (with_reducible first
    | assumption
    | exact Keeps.refl _
    | intro _
    | apply Keeps.setReg
    | apply State.lampStick_keeps
    | apply State.modLmp_keeps
    | (refine Keeps.ofEq (by assumption) ?_)
    | apply Keeps.ite
    | apply Keeps.foldl
    | apply Keeps.foldlFst
    | apply Keeps.setReg
    | simp only [Keeps.mk_iff]
    | simp only [Keeps.mkVlt_iff]
    | split)
  all_goals first
    | exact id
    | (intro _ hq; exact hq)
    | (intro _; rfl)
    | (intro _ hq; simp [hq]; done)
    | (intro hq; simp [hq]; done)
    | (simp_all; done)
    | (simp; done)

theorem State.lmpOpen_keeps {s0 : State} {s : State} (hk : Keeps s0 s) :
    Keeps s0 (State.lmpOpen s) := by
  unfold State.lmpOpen
  try dsimp only
  repeat' (with_reducible first
    | assumption
    | exact Keeps.refl _
    | intro _
    | apply State.setFlag_keeps
    | apply State.modLmp_keeps
    | (refine Keeps.ofEq (by assumption) ?_)
    | apply Keeps.ite
    | apply Keeps.foldl
    | apply Keeps.foldlFst
    | apply Keeps.setReg
    | simp only [Keeps.mk_iff]
    | simp only [Keeps.mkVlt_iff]
    | split)
  all_goals first
    | exact id
    | (intro _ hq; exact hq)
    | (intro _; rfl)
    | (intro _ hq; simp [hq]; done)
    | (intro hq; simp [hq]; done)
    | (simp_all; done)
    | (simp; done)

theorem State.lmpClose_keeps {s0 : State} {s : State} (hk : Keeps s0 s) :
    Keeps s0 (State.lmpClose s) := by
  unfold State.lmpClose
  try dsimp only
  repeat' (with_reducible first
    | assumption
    | exact Keeps.refl _
    | intro _
    | apply Keeps.setReg
    | apply State.setFlag_keeps
    | apply State.irq_keeps
    | apply State.post_keeps
    | (refine Keeps.ofEq (by assumption) ?_)
    | apply Keeps.ite
    | apply Keeps.foldl
    | apply Keeps.foldlFst
    | apply Keeps.setReg
    | simp only [Keeps.mk_iff]
    | simp only [Keeps.mkVlt_iff]
    | split)
  all_goals first
    | exact id
    | (intro _ hq; exact hq)
    | (intro _; rfl)
    | (intro _ hq; simp [hq]; done)
    | (intro hq; simp [hq]; done)
    | (simp_all; done)
    | (simp; done)

theorem State.lmpSwap_keeps {s0 : State} {s : State} (hk : Keeps s0 s) :
    Keeps s0 (State.lmpSwap s) := by
  unfold State.lmpSwap
  try dsimp only
  repeat' (with_reducible first
    | assumption
    | exact Keeps.refl _
    | intro _
    | apply State.setFlag_keeps
    | apply State.modLmp_keeps
    | (refine Keeps.ofEq (by assumption) ?_)
    | apply Keeps.ite
    | apply Keeps.foldl
    | apply Keeps.foldlFst
    | apply Keeps.setReg
    | simp only [Keeps.mk_iff]
    | simp only [Keeps.mkVlt_iff]
    | split)
  all_goals first
    | exact id
    | (intro _ hq; exact hq)
    | (intro _; rfl)
    | (intro _ hq; simp [hq]; done)
    | (intro hq; simp [hq]; done)
    | (simp_all; done)
    | (simp; done)

theorem State.setDrive_keeps {s0 : State} {s : State} {n : Nat} {d : Nat} (hk : Keeps s0 s) :
    Keeps s0 (State.setDrive s n d) := by
  unfold State.setDrive
  try dsimp only
  repeat' (with_reducible first
    | assumption
    | exact Keeps.refl _
    | intro _
    | apply Keeps.modPwm
    | (refine Keeps.ofEq (by assumption) ?_)
    | apply Keeps.ite
    | apply Keeps.foldl
    | apply Keeps.foldlFst
    | apply Keeps.setReg
    | simp only [Keeps.mk_iff]
    | simp only [Keeps.mkVlt_iff]
    | split)
  all_goals first
    | exact id
    | (intro _ hq; exact hq)
    | (intro _; rfl)
    | (intro _ hq; simp [hq]; done)
    | (intro hq; simp [hq]; done)
    | (simp_all; done)
    | (simp; done)

theorem State.useFrees_keeps {s0 : State} {s : State} {n : Nat} (hk : Keeps s0 s) :
    Keeps s0 (State.useFrees s n) := by
  unfold State.useFrees
  try dsimp only
  repeat' (with_reducible first
    | assumption
    | exact Keeps.refl _
    | intro _
    | (refine Keeps.ofEq (by assumption) ?_)
    | apply Keeps.ite
    | apply Keeps.foldl
    | apply Keeps.foldlFst
    | apply Keeps.setReg
    | simp only [Keeps.mk_iff]
    | simp only [Keeps.mkVlt_iff]
    | split)
  all_goals first
    | exact id
    | (intro _ hq; exact hq)
    | (intro _; rfl)
    | (intro _ hq; simp [hq]; done)
    | (intro hq; simp [hq]; done)
    | (simp_all; done)
    | (simp; done)

theorem State.solved_keeps {s0 s : State} {k : Nat} {es : List Emitter} {wp t : UV} (hk : Keeps s0 s) :
    Keeps s0 (s.solved k es wp t).2 := by
  have h : ∀ n, Keeps s0 (s.useFrees n) := fun _ => State.useFrees_keeps hk
  unfold State.solved
  dsimp only
  split <;> split <;> first | exact hk | exact h _ | exact State.useFrees_keeps (h _)

theorem State.fractions_keeps {s0 s : State} {ys : List Rat} {es : List Emitter} {ms : List Rat} {r : Rat}
    (hk : Keeps s0 s) : Keeps s0 (s.fractions ys es ms r).2 := by
  unfold State.fractions
  dsimp only
  split
  · exact hk
  · exact State.useFrees_keeps hk

theorem State.lampTold_keeps {s0 : State} {s : State} {l : Nat} {b : Nat} {t16 : Int} {bad : Bool} (hk : Keeps s0 s) :
    Keeps s0 (State.lampTold s l b t16 bad) := by
  unfold State.lampTold
  try dsimp only
  repeat' (with_reducible first
    | assumption
    | exact Keeps.refl _
    | intro _
    | apply Keeps.setReg
    | apply State.setFlag_keeps
    | apply State.lampStick_keeps
    | (refine Keeps.ofEq (by assumption) ?_)
    | apply Keeps.ite
    | apply Keeps.foldl
    | apply Keeps.foldlFst
    | apply Keeps.setReg
    | simp only [Keeps.mk_iff]
    | simp only [Keeps.mkVlt_iff]
    | split)
  all_goals first
    | exact id
    | (intro _ hq; exact hq)
    | (intro _; rfl)
    | (intro _ hq; simp [hq]; done)
    | (intro hq; simp [hq]; done)
    | (simp_all; done)
    | (simp; done)

theorem State.lampGamut_keeps {s0 : State} {s : State} {l : Nat} {q : UV} {gam : Bool} (hk : Keeps s0 s) :
    Keeps s0 (State.lampGamut s l q gam) := by
  unfold State.lampGamut
  try dsimp only
  repeat' (with_reducible first
    | assumption
    | exact Keeps.refl _
    | intro _
    | apply Keeps.setReg
    | apply State.setFlag_keeps
    | apply State.lampStick_keeps
    | (refine Keeps.ofEq (by assumption) ?_)
    | apply Keeps.ite
    | apply Keeps.foldl
    | apply Keeps.foldlFst
    | apply Keeps.setReg
    | simp only [Keeps.mk_iff]
    | simp only [Keeps.mkVlt_iff]
    | split)
  all_goals first
    | exact id
    | (intro _ hq; exact hq)
    | (intro _; rfl)
    | (intro _ hq; simp [hq]; done)
    | (intro hq; simp [hq]; done)
    | (simp_all; done)
    | (simp; done)

theorem State.lampRatio_keeps {s0 : State} {s : State} {l : Nat} {r : Rat} (hk : Keeps s0 s) :
    Keeps s0 (State.lampRatio s l r) := by
  unfold State.lampRatio
  try dsimp only
  repeat' (with_reducible first
    | assumption
    | exact Keeps.refl _
    | intro _
    | apply Keeps.setReg
    | apply State.setFlag_keeps
    | apply State.lampStick_keeps
    | (refine Keeps.ofEq (by assumption) ?_)
    | apply Keeps.ite
    | apply Keeps.foldl
    | apply Keeps.foldlFst
    | apply Keeps.setReg
    | simp only [Keeps.mk_iff]
    | simp only [Keeps.mkVlt_iff]
    | split)
  all_goals first
    | exact id
    | (intro _ hq; exact hq)
    | (intro _; rfl)
    | (intro _ hq; simp [hq]; done)
    | (intro hq; simp [hq]; done)
    | (simp_all; done)
    | (simp; done)

theorem State.lampDrive_keeps {s0 : State} {s : State} {l : Nat} {dark : Bool} {fr : List Rat} (hk : Keeps s0 s) :
    Keeps s0 (State.lampDrive s l dark fr) := by
  unfold State.lampDrive
  try dsimp only
  repeat' (with_reducible first
    | assumption
    | exact Keeps.refl _
    | intro _
    | apply State.setFlag_keeps
    | apply State.lampStick_keeps
    | apply State.setDrive_keeps
    | (refine Keeps.ofEq (by assumption) ?_)
    | apply Keeps.ite
    | apply Keeps.foldl
    | apply Keeps.foldlFst
    | apply Keeps.setReg
    | simp only [Keeps.mk_iff]
    | simp only [Keeps.mkVlt_iff]
    | split)
  all_goals first
    | exact id
    | (intro _ hq; exact hq)
    | (intro _; rfl)
    | (intro _ hq; simp [hq]; done)
    | (intro hq; simp [hq]; done)
    | (simp_all; done)
    | (simp; done)

theorem State.solveLamp_keeps {s0 : State} {s : State} {l : Nat} {x : Shown} (hk : Keeps s0 s) :
    Keeps s0 (State.solveLamp s l x) := by
  unfold State.solveLamp
  try dsimp only
  repeat' (with_reducible first
    | assumption
    | exact Keeps.refl _
    | intro _
    | apply State.lampTold_keeps
    | apply State.lampGamut_keeps
    | apply State.lampRatio_keeps
    | apply State.lampDrive_keeps
    | apply State.solved_keeps
    | apply State.fractions_keeps
    | (refine Keeps.ofEq (by assumption) ?_)
    | apply Keeps.ite
    | apply Keeps.foldl
    | apply Keeps.foldlFst
    | apply Keeps.setReg
    | simp only [Keeps.mk_iff]
    | simp only [Keeps.mkVlt_iff]
    | split)
  all_goals first
    | exact id
    | (intro _ hq; exact hq)
    | (intro _; rfl)
    | (intro _ hq; simp [hq]; done)
    | (intro hq; simp [hq]; done)
    | (simp_all; done)
    | (simp; done)

theorem State.solve_keeps {s0 : State} {s : State} {show_ : List Shown} (hk : Keeps s0 s) :
    Keeps s0 (State.solve s show_) := by
  unfold State.solve
  try dsimp only
  repeat' (with_reducible first
    | assumption
    | exact Keeps.refl _
    | intro _
    | apply Keeps.forChans
    | apply State.setDrive_keeps
    | apply State.solveLamp_keeps
    | (refine Keeps.ofEq (by assumption) ?_)
    | apply Keeps.ite
    | apply Keeps.foldl
    | apply Keeps.foldlFst
    | apply Keeps.setReg
    | simp only [Keeps.mk_iff]
    | simp only [Keeps.mkVlt_iff]
    | split)
  all_goals first
    | exact id
    | (intro _ hq; exact hq)
    | (intro _; rfl)
    | (intro _ hq; simp [hq]; done)
    | (intro hq; simp [hq]; done)
    | (simp_all; done)
    | (simp; done)

end Sys2Proof.Machine
end

