-- ==== Sys2Proof/Laws/KeepsVaultCmd.lean ====
section
/-! SUPPORT. Every operation of Machine/VaultCmd.lean keeps the queue and the shape of the state. -/

namespace Sys2Proof.Machine

theorem State.sealClear_keeps {s0 : State} {s : State} {e : VEntry} (h : Keeps s0 s) :
    Keeps s0 (State.sealClear s e) := by
  unfold State.sealClear
  split
  · exact Keeps.modVlt h (fun _ hq => hq)
  · exact h


theorem VltState.legProgram_kept {v : VltState} {ws : List Word} (h : v.Kept) :
    (v.legProgram ws).Kept := VltState.putWord_kept (VltState.putWords_kept (VltState.erase_kept h))


theorem VltState.scratch_kept {v : VltState} {e : VEntry} {n : Nat} (h : v.Kept) :
    (v.scratch e n).Kept := VltState.putOwn_kept (VltState.eraseOwn_kept h)


theorem VltState.scrCommit_kept {v : VltState} {e : VEntry} (h : v.Kept) :
    (v.scrCommit e).Kept := VltState.ownCommit_kept (VltState.scratch_kept h)


theorem State.rawWrite_keeps {s0 : State} {s : State} {r : Nat} {a : Nat} {v : Word} (hk : Keeps s0 s) :
    Keeps s0 (State.rawWrite s r a v) := by
  unfold State.rawWrite
  try dsimp only
  repeat' (with_reducible first
    | assumption
    | exact Keeps.refl _
    | intro _
    | apply Keeps.modVlt
    | (refine Keeps.ofEq (by assumption) ?_)
    | apply Keeps.ite
    | apply Keeps.foldl
    | apply Keeps.foldlFst
    | apply Keeps.setReg
    | simp only [Keeps.mk_iff]
    | simp only [Keeps.mkVlt_iff]
    | split)
  all_goals first
    | exact id
    | (intro _ hq; exact hq)
    | (intro _; rfl)
    | (intro _ hq; simp [hq]; done)
    | (intro hq; simp [hq]; done)
    | (simp_all; done)
    | (simp; done)

theorem State.rselWrite_keeps {s0 : State} {s : State} {v : Word} (hk : Keeps s0 s) :
    Keeps s0 (State.rselWrite s v) := by
  unfold State.rselWrite
  try dsimp only
  repeat' (with_reducible first
    | assumption
    | exact Keeps.refl _
    | intro _
    | apply State.setFld_keeps
    | apply State.modPath_keeps
    | (refine Keeps.ofEq (by assumption) ?_)
    | apply Keeps.ite
    | apply Keeps.foldl
    | apply Keeps.foldlFst
    | apply Keeps.setReg
    | simp only [Keeps.mk_iff]
    | simp only [Keeps.mkVlt_iff]
    | split)
  all_goals first
    | exact id
    | (intro _ hq; exact hq)
    | (intro _; rfl)
    | (intro _ hq; simp [hq]; done)
    | (intro hq; simp [hq]; done)
    | (simp_all; done)
    | (simp; done)

theorem State.pwWrong_keeps {s0 : State} {s : State} {r : Nat} (hk : Keeps s0 s) :
    Keeps s0 (State.pwWrong s r) := by
  unfold State.pwWrong
  try dsimp only
  repeat' (with_reducible first
    | assumption
    | exact Keeps.refl _
    | intro _
    | apply State.post_keeps
    | apply State.vStick_keeps
    | apply State.modKeep_keeps
    | (refine Keeps.ofEq (by assumption) ?_)
    | apply Keeps.ite
    | apply Keeps.foldl
    | apply Keeps.foldlFst
    | apply Keeps.setReg
    | simp only [Keeps.mk_iff]
    | simp only [Keeps.mkVlt_iff]
    | split)
  all_goals first
    | exact id
    | (intro _ hq; exact hq)
    | (intro _; rfl)
    | (intro _ hq; simp [hq]; done)
    | (intro hq; simp [hq]; done)
    | (simp_all; done)
    | (simp; done)

theorem State.pwdWrite_keeps {s0 : State} {s : State} {p : Path} {v : Word} (hk : Keeps s0 s) :
    Keeps s0 (State.pwdWrite s p v) := by
  unfold State.pwdWrite
  try dsimp only
  repeat' (with_reducible first
    | assumption
    | exact Keeps.refl _
    | intro _
    | apply State.modPath_keeps
    | apply State.modKeep_keeps
    | apply State.pwWrong_keeps
    | (refine Keeps.ofEq (by assumption) ?_)
    | apply Keeps.ite
    | apply Keeps.foldl
    | apply Keeps.foldlFst
    | apply Keeps.setReg
    | simp only [Keeps.mk_iff]
    | simp only [Keeps.mkVlt_iff]
    | split)
  all_goals first
    | exact id
    | (intro _ hq; exact hq)
    | (intro _; rfl)
    | (intro _ hq; simp [hq]; done)
    | (intro hq; simp [hq]; done)
    | (simp_all; done)
    | (simp; done)

theorem State.setPwd_keeps {s0 : State} {s : State} {p : Path} (hk : Keeps s0 s) :
    Keeps s0 (State.setPwd s p) := by
  unfold State.setPwd
  try dsimp only
  repeat' (with_reducible first
    | assumption
    | exact Keeps.refl _
    | intro _
    | apply State.modPath_keeps
    | apply Keeps.modVlt
    | apply State.vRecord_keeps
    | apply State.vRefuse_keeps
    | (refine Keeps.ofEq (by assumption) ?_)
    | apply Keeps.ite
    | apply Keeps.foldl
    | apply Keeps.foldlFst
    | apply Keeps.setReg
    | simp only [Keeps.mk_iff]
    | simp only [Keeps.mkVlt_iff]
    | split)
  all_goals first
    | exact id
    | (intro _ hq; exact hq)
    | (intro _; rfl)
    | (intro _ hq; simp [hq]; done)
    | (intro hq; simp [hq]; done)
    | (simp_all; done)
    | (simp; done)

theorem State.vltLock_keeps {s0 : State} {s : State} {p : Path} (hk : Keeps s0 s) :
    Keeps s0 (State.vltLock s p) := by
  unfold State.vltLock
  try dsimp only
  repeat' (with_reducible first
    | assumption
    | exact Keeps.refl _
    | intro _
    | apply State.modPath_keeps
    | (refine Keeps.ofEq (by assumption) ?_)
    | apply Keeps.ite
    | apply Keeps.foldl
    | apply Keeps.foldlFst
    | apply Keeps.setReg
    | simp only [Keeps.mk_iff]
    | simp only [Keeps.mkVlt_iff]
    | split)
  all_goals first
    | exact id
    | (intro _ hq; exact hq)
    | (intro _; rfl)
    | (intro _ hq; simp [hq]; done)
    | (intro hq; simp [hq]; done)
    | (simp_all; done)
    | (simp; done)

theorem State.rawCmd_keeps {s0 : State} {s : State} {p : Path} {r : Nat} {f : State → State} (hk : Keeps s0 s) (hf : ∀ u0, Keeps s0 u0 → Keeps s0 (f u0)) :
    Keeps s0 (State.rawCmd s p r f) := by
  unfold State.rawCmd
  try dsimp only
  repeat' (with_reducible first
    | assumption
    | exact Keeps.refl _
    | intro _
    | apply State.vRefuse_keeps
    | apply hf
    | (refine Keeps.ofEq (by assumption) ?_)
    | apply Keeps.ite
    | apply Keeps.foldl
    | apply Keeps.foldlFst
    | apply Keeps.setReg
    | simp only [Keeps.mk_iff]
    | simp only [Keeps.mkVlt_iff]
    | split)
  all_goals first
    | exact id
    | (intro _ hq; exact hq)
    | (intro _; rfl)
    | (intro _ hq; simp [hq]; done)
    | (intro hq; simp [hq]; done)
    | (simp_all; done)
    | (simp; done)

theorem State.pageWrite_keeps {s0 : State} {s : State} {p : Path} (hk : Keeps s0 s) :
    Keeps s0 (State.pageWrite s p) := by
  unfold State.pageWrite
  try dsimp only
  repeat' (with_reducible first
    | assumption
    | exact Keeps.refl _
    | intro _
    | apply Keeps.modVlt
    | apply State.vRefuse_keeps
    | apply State.vOperate_keeps
    | apply State.rawCmd_keeps
    | (refine Keeps.ofEq (by assumption) ?_)
    | apply Keeps.ite
    | apply Keeps.foldl
    | apply Keeps.foldlFst
    | apply Keeps.setReg
    | simp only [Keeps.mk_iff]
    | simp only [Keeps.mkVlt_iff]
    | split)
  all_goals first
    | exact id
    | (intro _ hq; exact hq)
    | (intro _; rfl)
    | (intro _ hq; simp [hq]; done)
    | (intro hq; simp [hq]; done)
    | (simp_all; done)
    | (simp; done)

theorem State.sectorErase_keeps {s0 : State} {s : State} {p : Path} (hk : Keeps s0 s) :
    Keeps s0 (State.sectorErase s p) := by
  unfold State.sectorErase
  try dsimp only
  repeat' (with_reducible first
    | assumption
    | exact Keeps.refl _
    | intro _
    | apply State.vRefuse_keeps
    | apply State.vOperate_keeps
    | apply State.rawCmd_keeps
    | (refine Keeps.ofEq (by assumption) ?_)
    | apply Keeps.ite
    | apply Keeps.foldl
    | apply Keeps.foldlFst
    | apply Keeps.setReg
    | simp only [Keeps.mk_iff]
    | simp only [Keeps.mkVlt_iff]
    | split)
  all_goals first
    | exact id
    | (intro _ hq; exact hq)
    | (intro _; rfl)
    | (intro _ hq; simp [hq]; done)
    | (intro hq; simp [hq]; done)
    | (simp_all; done)
    | (simp; done)

theorem State.legShow_keeps {s0 : State} {s : State} (hk : Keeps s0 s) :
    Keeps s0 (State.legShow s) := by
  unfold State.legShow
  try dsimp only
  repeat' (with_reducible first
    | assumption
    | exact Keeps.refl _
    | intro _
    | apply Keeps.setReg
    | apply State.setFlag_keeps
    | (refine Keeps.ofEq (by assumption) ?_)
    | apply Keeps.ite
    | apply Keeps.foldl
    | apply Keeps.foldlFst
    | apply Keeps.setReg
    | simp only [Keeps.mk_iff]
    | simp only [Keeps.mkVlt_iff]
    | split)
  all_goals first
    | exact id
    | (intro _ hq; exact hq)
    | (intro _; rfl)
    | (intro _ hq; simp [hq]; done)
    | (intro hq; simp [hq]; done)
    | (simp_all; done)
    | (simp; done)

theorem State.legJudge_keeps {s0 : State} {s : State} (hk : Keeps s0 s) :
    Keeps s0 (State.legJudge s) := by
  unfold State.legJudge
  try dsimp only
  repeat' (with_reducible first
    | assumption
    | exact Keeps.refl _
    | intro _
    | apply State.post_keeps
    | apply State.vStick_keeps
    | apply State.legShow_keeps
    | (refine Keeps.ofEq (by assumption) ?_)
    | apply Keeps.ite
    | apply Keeps.foldl
    | apply Keeps.foldlFst
    | apply Keeps.setReg
    | simp only [Keeps.mk_iff]
    | simp only [Keeps.mkVlt_iff]
    | split)
  all_goals first
    | exact id
    | (intro _ hq; exact hq)
    | (intro _; rfl)
    | (intro _ hq; simp [hq]; done)
    | (intro hq; simp [hq]; done)
    | (simp_all; done)
    | (simp; done)

theorem State.legLoad_keeps {s0 : State} {s : State} {p : Path} (hk : Keeps s0 s) :
    Keeps s0 (State.legLoad s p) := by
  unfold State.legLoad
  try dsimp only
  repeat' (with_reducible first
    | assumption
    | exact Keeps.refl _
    | intro _
    | apply Keeps.modVlt
    | apply State.rawCmd_keeps
    | (refine Keeps.ofEq (by assumption) ?_)
    | apply Keeps.ite
    | apply Keeps.foldl
    | apply Keeps.foldlFst
    | apply Keeps.setReg
    | simp only [Keeps.mk_iff]
    | simp only [Keeps.mkVlt_iff]
    | split)
  all_goals first
    | exact id
    | (intro _ hq; exact hq)
    | (intro _; rfl)
    | (intro _ hq; simp [hq]; done)
    | (intro hq; simp [hq]; done)
    | (simp_all; done)
    | (simp; done)

theorem State.legWrite_keeps {s0 : State} {s : State} {p : Path} (hk : Keeps s0 s) :
    Keeps s0 (State.legWrite s p) := by
  unfold State.legWrite
  try dsimp only
  repeat' (with_reducible first
    | assumption
    | exact Keeps.refl _
    | intro _
    | apply State.vRefuse_keeps
    | apply State.vOperate_keeps
    | apply State.rawCmd_keeps
    | (refine Keeps.ofEq (by assumption) ?_)
    | apply Keeps.ite
    | apply Keeps.foldl
    | apply Keeps.foldlFst
    | apply Keeps.setReg
    | simp only [Keeps.mk_iff]
    | simp only [Keeps.mkVlt_iff]
    | split)
  all_goals first
    | exact id
    | (intro _ hq; exact hq)
    | (intro _; rfl)
    | (intro _ hq; simp [hq]; done)
    | (intro hq; simp [hq]; done)
    | (simp_all; done)
    | (simp; done)

theorem State.legDone_keeps {s0 : State} {s : State} (hk : Keeps s0 s) :
    Keeps s0 (State.legDone s) := by
  unfold State.legDone
  try dsimp only
  repeat' (with_reducible first
    | assumption
    | exact Keeps.refl _
    | intro _
    | apply Keeps.modVlt
    | apply State.vDone_keeps
    | apply State.opEnd_keeps
    | apply State.legShow_keeps
    | apply State.legWrite_keeps
    | apply VltState.legProgram_kept
    | (refine Keeps.ofEq (by assumption) ?_)
    | apply Keeps.ite
    | apply Keeps.foldl
    | apply Keeps.foldlFst
    | apply Keeps.setReg
    | simp only [Keeps.mk_iff]
    | simp only [Keeps.mkVlt_iff]
    | split)
  all_goals first
    | exact id
    | (intro _ hq; exact hq)
    | (intro _; rfl)
    | (intro _ hq; simp [hq]; done)
    | (intro hq; simp [hq]; done)
    | (simp_all; done)
    | (simp; done)

theorem State.sealDone_keeps {s0 : State} {s : State} {remote : Bool} (hk : Keeps s0 s) :
    Keeps s0 (State.sealDone s remote) := by
  unfold State.sealDone
  try dsimp only
  repeat' (with_reducible first
    | assumption
    | exact Keeps.refl _
    | intro _
    | apply State.setFld_keeps
    | apply State.post_keeps
    | apply Keeps.modVlt
    | (refine Keeps.ofEq (by assumption) ?_)
    | apply Keeps.ite
    | apply Keeps.foldl
    | apply Keeps.foldlFst
    | apply Keeps.setReg
    | simp only [Keeps.mk_iff]
    | simp only [Keeps.mkVlt_iff]
    | split)
  all_goals first
    | exact id
    | (intro _ hq; exact hq)
    | (intro _; rfl)
    | (intro _ hq; simp [hq]; done)
    | (intro hq; simp [hq]; done)
    | (simp_all; done)
    | (simp; done)

theorem State.rewriteDone_keeps {s0 : State} {s : State} (hk : Keeps s0 s) :
    Keeps s0 (State.rewriteDone s) := by
  unfold State.rewriteDone
  try dsimp only
  repeat' (with_reducible first
    | assumption
    | exact Keeps.refl _
    | intro _
    | apply State.post_keeps
    | apply Keeps.modVlt
    | apply State.vDone_keeps
    | apply State.opEnd_keeps
    | apply State.sealDone_keeps
    | apply VltState.ownCommit_kept
    | apply VltState.apply_kept
    | apply VltState.scrCommit_kept
    | (refine Keeps.ofEq (by assumption) ?_)
    | apply Keeps.ite
    | apply Keeps.foldl
    | apply Keeps.foldlFst
    | apply Keeps.setReg
    | simp only [Keeps.mk_iff]
    | simp only [Keeps.mkVlt_iff]
    | split)
  all_goals first
    | exact id
    | (intro _ hq; exact hq)
    | (intro _; rfl)
    | (intro _ hq; simp [hq]; done)
    | (intro hq; simp [hq]; done)
    | (simp_all; done)
    | (simp; done)

theorem State.eraseDone_keeps {s0 : State} {s : State} (hk : Keeps s0 s) :
    Keeps s0 (State.eraseDone s) := by
  unfold State.eraseDone
  try dsimp only
  repeat' (with_reducible first
    | assumption
    | exact Keeps.refl _
    | intro _
    | apply Keeps.modVlt
    | apply State.opEnd_keeps
    | apply State.foldStart_keeps
    | apply VltState.apply_kept
    | apply VltState.hatErase_kept
    | (refine Keeps.ofEq (by assumption) ?_)
    | apply Keeps.ite
    | apply Keeps.foldl
    | apply Keeps.foldlFst
    | apply Keeps.setReg
    | simp only [Keeps.mk_iff]
    | simp only [Keeps.mkVlt_iff]
    | split)
  all_goals first
    | exact id
    | (intro _ hq; exact hq)
    | (intro _; rfl)
    | (intro _ hq; simp [hq]; done)
    | (intro hq; simp [hq]; done)
    | (simp_all; done)
    | (simp; done)

theorem State.foldPost_keeps {s0 : State} {s : State} (hk : Keeps s0 s) :
    Keeps s0 (State.foldPost s) := by
  unfold State.foldPost
  try dsimp only
  repeat' (with_reducible first
    | assumption
    | exact Keeps.refl _
    | intro _
    | apply State.post_keeps
    | apply State.vStick_keeps
    | (refine Keeps.ofEq (by assumption) ?_)
    | apply Keeps.ite
    | apply Keeps.foldl
    | apply Keeps.foldlFst
    | apply Keeps.setReg
    | simp only [Keeps.mk_iff]
    | simp only [Keeps.mkVlt_iff]
    | split)
  all_goals first
    | exact id
    | (intro _ hq; exact hq)
    | (intro _; rfl)
    | (intro _ hq; simp [hq]; done)
    | (intro hq; simp [hq]; done)
    | (simp_all; done)
    | (simp; done)

theorem State.foldDone_keeps {s0 : State} {s : State} (hk : Keeps s0 s) :
    Keeps s0 (State.foldDone s) := by
  unfold State.foldDone
  try dsimp only
  repeat' (with_reducible first
    | assumption
    | exact Keeps.refl _
    | intro _
    | apply Keeps.modVlt
    | apply State.foldStart_keeps
    | apply State.foldPost_keeps
    | apply VltState.foldEnd_kept
    | (refine Keeps.ofEq (by assumption) ?_)
    | apply Keeps.ite
    | apply Keeps.foldl
    | apply Keeps.foldlFst
    | apply Keeps.setReg
    | simp only [Keeps.mk_iff]
    | simp only [Keeps.mkVlt_iff]
    | split)
  all_goals first
    | exact id
    | (intro _ hq; exact hq)
    | (intro _; rfl)
    | (intro _ hq; simp [hq]; done)
    | (intro hq; simp [hq]; done)
    | (simp_all; done)
    | (simp; done)

theorem State.saveShow_keeps {s0 : State} {s : State} (hk : Keeps s0 s) :
    Keeps s0 (State.saveShow s) := by
  unfold State.saveShow
  try dsimp only
  repeat' (with_reducible first
    | assumption
    | exact Keeps.refl _
    | intro _
    | apply State.setFlag_keeps
    | (refine Keeps.ofEq (by assumption) ?_)
    | apply Keeps.ite
    | apply Keeps.foldl
    | apply Keeps.foldlFst
    | apply Keeps.setReg
    | simp only [Keeps.mk_iff]
    | simp only [Keeps.mkVlt_iff]
    | split)
  all_goals first
    | exact id
    | (intro _ hq; exact hq)
    | (intro _; rfl)
    | (intro _ hq; simp [hq]; done)
    | (intro hq; simp [hq]; done)
    | (simp_all; done)
    | (simp; done)

theorem State.verifyFail_keeps {s0 : State} {s : State} (hk : Keeps s0 s) :
    Keeps s0 (State.verifyFail s) := by
  unfold State.verifyFail
  try dsimp only
  repeat' (with_reducible first
    | assumption
    | exact Keeps.refl _
    | intro _
    | apply State.setFld_keeps
    | apply Keeps.modVlt
    | apply State.vWaiting_keeps
    | apply State.vIntegrity_keeps
    | apply State.opEnd_keeps
    | apply State.cutAt_keeps
    | apply State.saveShow_keeps
    | apply State.sealClear_keeps
    | apply VltState.heldAll_kept
    | apply VltState.unwrite_kept
    | (refine Keeps.ofEq (by assumption) ?_)
    | apply Keeps.ite
    | apply Keeps.foldl
    | apply Keeps.foldlFst
    | apply Keeps.setReg
    | simp only [Keeps.mk_iff]
    | simp only [Keeps.mkVlt_iff]
    | split)
  all_goals first
    | exact id
    | (intro _ hq; exact hq)
    | (intro _; rfl)
    | (intro _ hq; simp [hq]; done)
    | (intro hq; simp [hq]; done)
    | (simp_all; done)
    | (simp; done)

theorem State.commitDone_keeps {s0 : State} {s : State} (hk : Keeps s0 s) :
    Keeps s0 (State.commitDone s) := by
  unfold State.commitDone
  try dsimp only
  repeat' (with_reducible first
    | assumption
    | exact Keeps.refl _
    | intro _
    | apply State.commitEnd_keeps
    | apply State.commitStart_keeps
    | apply State.commitFull_keeps
    | (refine Keeps.ofEq (by assumption) ?_)
    | apply Keeps.ite
    | apply Keeps.foldl
    | apply Keeps.foldlFst
    | apply Keeps.setReg
    | simp only [Keeps.mk_iff]
    | simp only [Keeps.mkVlt_iff]
    | split)
  all_goals first
    | exact id
    | (intro _ hq; exact hq)
    | (intro _; rfl)
    | (intro _ hq; simp [hq]; done)
    | (intro hq; simp [hq]; done)
    | (simp_all; done)
    | (simp; done)

theorem State.vltCmd_keeps {s0 : State} {s : State} {p : Path} {code : Nat} (hk : Keeps s0 s) :
    Keeps s0 (State.vltCmd s p code) := by
  unfold State.vltCmd
  try dsimp only
  repeat' (with_reducible first
    | assumption
    | exact Keeps.refl _
    | intro _
    | apply State.commitStart_keeps
    | apply State.vRefuse_keeps
    | apply State.setPwd_keeps
    | apply State.vltLock_keeps
    | apply State.pageWrite_keeps
    | apply State.sectorErase_keeps
    | apply State.legLoad_keeps
    | apply State.legWrite_keeps
    | (refine Keeps.ofEq (by assumption) ?_)
    | apply Keeps.ite
    | apply Keeps.foldl
    | apply Keeps.foldlFst
    | apply Keeps.setReg
    | simp only [Keeps.mk_iff]
    | simp only [Keeps.mkVlt_iff]
    | split)
  all_goals first
    | exact id
    | (intro _ hq; exact hq)
    | (intro _; rfl)
    | (intro _ hq; simp [hq]; done)
    | (intro hq; simp [hq]; done)
    | (simp_all; done)
    | (simp; done)

theorem State.hatWrite_keeps {s0 : State} {s : State} (hk : Keeps s0 s) :
    Keeps s0 (State.hatWrite s) := by
  unfold State.hatWrite
  try dsimp only
  repeat' (with_reducible first
    | assumption
    | exact Keeps.refl _
    | intro _
    | apply State.stick_keeps
    | apply State.post_keeps
    | apply State.vRefuse_keeps
    | apply State.hatInc_keeps
    | (refine Keeps.ofEq (by assumption) ?_)
    | apply Keeps.ite
    | apply Keeps.foldl
    | apply Keeps.foldlFst
    | apply Keeps.setReg
    | simp only [Keeps.mk_iff]
    | simp only [Keeps.mkVlt_iff]
    | split)
  all_goals first
    | exact id
    | (intro _ hq; exact hq)
    | (intro _; rfl)
    | (intro _ hq; simp [hq]; done)
    | (intro hq; simp [hq]; done)
    | (simp_all; done)
    | (simp; done)

end Sys2Proof.Machine
end

