-- ==== Sys2Proof/Laws/KeepsReset.lean ====
section
/-! SUPPORT. Every operation of Machine/Reset.lean keeps the queue and the shape of the state. -/

namespace Sys2Proof.Machine

theorem VltState.foldTorn_kept {v : VltState} {nb : List (Nat × Nat)} {k x : Nat} (h : v.Kept) :
    (v.foldTorn nb k x).Kept := by
  unfold VltState.foldTorn
  have hs : VltState.Kept { v.heldAll with fold := none } := h
  have hn : (v.foldSet nb).Kept := VltState.foldSet_kept h
  generalize v.foldSet nb = new at hn
  generalize VltState.heldAll v = w at hs
  dsimp only
  split
  · exact hs
  · split
    · exact hs
    · exact VltState.putOwn_kept hs
  · exact VltState.putOwn_kept (VltState.eraseOwn_kept hs)
  · exact hn
  · exact VltState.putOwn_kept (VltState.heldAll_kept hn)
  · exact VltState.putOwn_kept (VltState.hatHead_kept (VltState.heldAll_kept hn))


theorem VltState.cellTear_kept {v : VltState} {w : Nat} (h : v.Kept) :
    (v.cellTear w).Kept := by
  unfold VltState.cellTear
  split
  · split
    · exact h
    · dsimp only
      split
      · exact VltState.hold_kept (VltState.putOwn_kept h)
      · exact VltState.putOwn_kept h
  · exact h


theorem VltState.orphan_kept {v : VltState}  (h : v.Kept) :
    (v.orphan).Kept := by
  unfold VltState.orphan
  dsimp only
  split <;> exact h


theorem VltState.bufLost_kept {v : VltState}  (h : v.Kept) :
    (v.bufLost).Kept := VltState.orphan_kept h


theorem State.modClk_keeps {s0 : State} {s : State} {f : ClkState → ClkState} (hk : Keeps s0 s) :
    Keeps s0 (State.modClk s f) := by
  unfold State.modClk
  try dsimp only
  repeat' (with_reducible first
    | assumption
    | exact Keeps.refl _
    | intro _
    | (refine Keeps.ofEq (by assumption) ?_)
    | apply Keeps.ite
    | apply Keeps.foldl
    | apply Keeps.foldlFst
    | apply Keeps.setReg
    | simp only [Keeps.mk_iff]
    | simp only [Keeps.mkVlt_iff]
    | split)
  all_goals first
    | exact id
    | (intro _ hq; exact hq)
    | (intro _; rfl)
    | (intro _ hq; simp [hq]; done)
    | (intro hq; simp [hq]; done)
    | (simp_all; done)
    | (simp; done)

theorem State.modPwr_keeps {s0 : State} {s : State} {f : PwrState → PwrState} (hk : Keeps s0 s) :
    Keeps s0 (State.modPwr s f) := by
  unfold State.modPwr
  try dsimp only
  repeat' (with_reducible first
    | assumption
    | exact Keeps.refl _
    | intro _
    | (refine Keeps.ofEq (by assumption) ?_)
    | apply Keeps.ite
    | apply Keeps.foldl
    | apply Keeps.foldlFst
    | apply Keeps.setReg
    | simp only [Keeps.mk_iff]
    | simp only [Keeps.mkVlt_iff]
    | split)
  all_goals first
    | exact id
    | (intro _ hq; exact hq)
    | (intro _; rfl)
    | (intro _ hq; simp [hq]; done)
    | (intro hq; simp [hq]; done)
    | (simp_all; done)
    | (simp; done)

theorem State.foldCut_keeps {s0 : State} {s : State} (hk : Keeps s0 s) :
    Keeps s0 (State.foldCut s) := by
  unfold State.foldCut
  try dsimp only
  repeat' (with_reducible first
    | assumption
    | exact Keeps.refl _
    | intro _
    | apply State.useFree_keeps
    | apply Keeps.modVlt
    | apply State.foldPost_keeps
    | apply VltState.foldTorn_kept
    | (refine Keeps.ofEq (by assumption) ?_)
    | apply Keeps.ite
    | apply Keeps.foldl
    | apply Keeps.foldlFst
    | apply Keeps.setReg
    | simp only [Keeps.mk_iff]
    | simp only [Keeps.mkVlt_iff]
    | split)
  all_goals first
    | exact id
    | (intro _ hq; exact hq)
    | (intro _; rfl)
    | (intro _ hq; simp [hq]; done)
    | (intro hq; simp [hq]; done)
    | (simp_all; done)
    | (simp; done)

theorem State.commitCut_keeps {s0 : State} {s : State} (hk : Keeps s0 s) :
    Keeps s0 (State.commitCut s) := by
  unfold State.commitCut
  split
  · exact hk
  · split
    · exact Keeps.modVlt (State.useFree_keeps hk) (fun _ hq => ⟨hq.1, (VltState.place_kept hq).2⟩)
    · exact hk

theorem State.opCut_keeps {s0 : State} {s : State} {e : VEntry} (hk : Keeps s0 s) :
    Keeps s0 (State.opCut s e) := by
  unfold State.opCut
  try dsimp only
  repeat' (with_reducible first
    | assumption
    | exact Keeps.refl _
    | intro _
    | apply State.useFree_keeps
    | apply Keeps.modVlt
    | apply State.legWrite_keeps
    | apply VltState.erase_kept
    | apply VltState.bankClear_kept
    | apply VltState.scratch_kept
    | apply VltState.scrCommit_kept
    | (refine Keeps.ofEq (by assumption) ?_)
    | apply Keeps.ite
    | apply Keeps.foldl
    | apply Keeps.foldlFst
    | apply Keeps.setReg
    | simp only [Keeps.mk_iff]
    | simp only [Keeps.mkVlt_iff]
    | split)
  all_goals first
    | exact id
    | (intro _ hq; exact hq)
    | (intro _; rfl)
    | (intro _ hq; simp [hq]; done)
    | (intro hq; simp [hq]; done)
    | (simp_all; done)
    | (simp; done)

theorem State.vaultCut_keeps {s0 : State} {s : State} (hk : Keeps s0 s) :
    Keeps s0 (State.vaultCut s) := by
  unfold State.vaultCut
  try dsimp only
  repeat' (with_reducible first
    | assumption
    | exact Keeps.refl _
    | intro _
    | apply State.foldCut_keeps
    | apply State.commitCut_keeps
    | apply State.opCut_keeps
    | (refine Keeps.ofEq (by assumption) ?_)
    | apply Keeps.ite
    | apply Keeps.foldl
    | apply Keeps.foldlFst
    | apply Keeps.setReg
    | simp only [Keeps.mk_iff]
    | simp only [Keeps.mkVlt_iff]
    | split)
  all_goals first
    | exact id
    | (intro _ hq; exact hq)
    | (intro _; rfl)
    | (intro _ hq; simp [hq]; done)
    | (intro hq; simp [hq]; done)
    | (simp_all; done)
    | (simp; done)

theorem State.cellCut_keeps {s0 : State} {s : State} (hk : Keeps s0 s) :
    Keeps s0 (State.cellCut s) := by
  unfold State.cellCut
  try dsimp only
  repeat' (with_reducible first
    | assumption
    | exact Keeps.refl _
    | intro _
    | apply State.useFree_keeps
    | apply Keeps.modVlt
    | apply VltState.cellTear_kept
    | (refine Keeps.ofEq (by assumption) ?_)
    | apply Keeps.ite
    | apply Keeps.foldl
    | apply Keeps.foldlFst
    | apply Keeps.setReg
    | simp only [Keeps.mk_iff]
    | simp only [Keeps.mkVlt_iff]
    | split)
  all_goals first
    | exact id
    | (intro _ hq; exact hq)
    | (intro _; rfl)
    | (intro _ hq; simp [hq]; done)
    | (intro hq; simp [hq]; done)
    | (simp_all; done)
    | (simp; done)

theorem State.cutOff_keeps {s0 : State} {s : State} {soft : Bool} (hk : Keeps s0 s) :
    Keeps s0 (State.cutOff s soft) := by
  unfold State.cutOff
  try dsimp only
  repeat' (with_reducible first
    | assumption
    | exact Keeps.refl _
    | intro _
    | apply State.vaultCut_keeps
    | apply State.cellCut_keeps
    | (refine Keeps.ofEq (by assumption) ?_)
    | apply Keeps.ite
    | apply Keeps.foldl
    | apply Keeps.foldlFst
    | apply Keeps.setReg
    | simp only [Keeps.mk_iff]
    | simp only [Keeps.mkVlt_iff]
    | split)
  all_goals first
    | exact id
    | (intro _ hq; exact hq)
    | (intro _; rfl)
    | (intro _ hq; simp [hq]; done)
    | (intro hq; simp [hq]; done)
    | (simp_all; done)
    | (simp; done)

theorem State.coreReset_keeps {s0 : State} {s : State} {soft : Bool} (hk : Keeps s0 s) :
    Keeps s0 (State.coreReset s soft) := by
  unfold State.coreReset
  dsimp only
  repeat' (with_reducible first
    | apply State.saveShow_keeps
    | apply State.setFlag_keeps
    | apply Keeps.setReg
    | apply State.setFld_keeps
    | apply Keeps.ite)
  all_goals
    refine Keeps.mk' (t := s.cutOff soft) (State.cutOff_keeps hk) (spWf_filter _ _) id ?_ ?_ ?_ ?_ ?_
    · exact fun _ => Nat.zero_le _
    · exact fun _ => rfl
    · exact fun _ => rfl
    · exact fun _ => rfl
    · exact fun x => by simpa using x

theorem State.lrst_keeps {s0 : State} {s : State} {cause : Nat} (hk : Keeps s0 s) :
    Keeps s0 (State.lrst s cause) := by
  unfold State.lrst
  try dsimp only
  repeat' (with_reducible first
    | assumption
    | exact Keeps.refl _
    | intro _
    | apply State.setFld_keeps
    | (refine Keeps.ofEq (by assumption) ?_)
    | apply Keeps.ite
    | apply Keeps.foldl
    | apply Keeps.foldlFst
    | apply Keeps.setReg
    | simp only [Keeps.mk_iff]
    | simp only [Keeps.mkVlt_iff]
    | split)
  all_goals first
    | exact id
    | (intro _ hq; exact hq)
    | (intro _; rfl)
    | (intro _ hq; simp [hq]; done)
    | (intro hq; simp [hq]; done)
    | (simp_all; done)
    | (simp; done)

theorem State.areaClear_keeps {s0 : State} {s : State} {a : Nat} (hk : Keeps s0 s) :
    Keeps s0 (State.areaClear s a) := by
  unfold State.areaClear
  try dsimp only
  repeat' (with_reducible first
    | assumption
    | exact Keeps.refl _
    | intro _
    | apply Keeps.setReg
    | apply State.setFlag_keeps
    | apply Keeps.modVlt
    | apply State.modKeep_keeps
    | apply State.pwWrong_keeps
    | apply State.modSec_keeps
    | apply VltState.bufLost_kept
    | (refine Keeps.ofEq (by assumption) ?_)
    | apply Keeps.ite
    | apply Keeps.foldl
    | apply Keeps.foldlFst
    | apply Keeps.setReg
    | simp only [Keeps.mk_iff]
    | simp only [Keeps.mkVlt_iff]
    | split
    | exact Keeps.mk' hk id id id id id id (fun h => by simpa using h))
  all_goals first
    | exact id
    | (intro _ hq; exact hq)
    | (intro _; rfl)
    | (intro _ hq; simp [hq]; done)
    | (intro hq; simp [hq]; done)
    | (simp_all; done)
    | (simp; done)

theorem State.kramCheck_keeps {s0 : State} {s : State} (hk : Keeps s0 s) :
    Keeps s0 (State.kramCheck s) := by
  unfold State.kramCheck
  try dsimp only
  repeat' (with_reducible first
    | assumption
    | exact Keeps.refl _
    | intro _
    | apply State.stick_keeps
    | apply State.holdRec_keeps
    | apply State.modKeep_keeps
    | apply State.areaClear_keeps
    | (refine Keeps.ofEq (by assumption) ?_)
    | apply Keeps.ite
    | apply Keeps.foldl
    | apply Keeps.foldlFst
    | apply Keeps.setReg
    | simp only [Keeps.mk_iff]
    | simp only [Keeps.mkVlt_iff]
    | split)
  all_goals first
    | exact id
    | (intro _ hq; exact hq)
    | (intro _; rfl)
    | (intro _ hq; simp [hq]; done)
    | (intro hq; simp [hq]; done)
    | (simp_all; done)
    | (simp; done)

theorem State.ircKeep_keeps {s0 : State} {s : State} (hk : Keeps s0 s) :
    Keeps s0 (State.ircKeep s) := by
  unfold State.ircKeep
  try dsimp only
  repeat' (with_reducible first
    | assumption
    | exact Keeps.refl _
    | intro _
    | apply State.setFlag_keeps
    | apply State.handover_keeps
    | (refine Keeps.ofEq (by assumption) ?_)
    | apply Keeps.ite
    | apply Keeps.foldl
    | apply Keeps.foldlFst
    | apply Keeps.setReg
    | simp only [Keeps.mk_iff]
    | simp only [Keeps.mkVlt_iff]
    | split)
  all_goals first
    | exact id
    | (intro _ hq; exact hq)
    | (intro _; rfl)
    | (intro _ hq; simp [hq]; done)
    | (intro hq; simp [hq]; done)
    | (simp_all; done)
    | (simp; done)

theorem State.litEntry_keeps {s0 : State} {s : State} {b : Nat} (hk : Keeps s0 s) :
    Keeps s0 (State.litEntry s b) := by
  unfold State.litEntry
  try dsimp only
  repeat' (with_reducible first
    | assumption
    | exact Keeps.refl _
    | intro _
    | apply State.modPwr_keeps
    | apply State.kramCheck_keeps
    | (refine Keeps.ofEq (by assumption) ?_)
    | apply Keeps.ite
    | apply Keeps.foldl
    | apply Keeps.foldlFst
    | apply Keeps.setReg
    | simp only [Keeps.mk_iff]
    | simp only [Keeps.mkVlt_iff]
    | split)
  all_goals first
    | exact id
    | (intro _ hq; exact hq)
    | (intro _; rfl)
    | (intro _ hq; simp [hq]; done)
    | (intro hq; simp [hq]; done)
    | (simp_all; done)
    | (simp; done)

theorem State.linkSticky_keeps {s0 : State} {s : State} (hk : Keeps s0 s) :
    Keeps s0 (State.linkSticky s) := by
  unfold State.linkSticky
  try dsimp only
  repeat' (with_reducible first
    | assumption
    | exact Keeps.refl _
    | intro _
    | apply State.pwrStick_keeps
    | (refine Keeps.ofEq (by assumption) ?_)
    | apply Keeps.ite
    | apply Keeps.foldl
    | apply Keeps.foldlFst
    | apply Keeps.setReg
    | simp only [Keeps.mk_iff]
    | simp only [Keeps.mkVlt_iff]
    | split)
  all_goals first
    | exact id
    | (intro _ hq; exact hq)
    | (intro _; rfl)
    | (intro _ hq; simp [hq]; done)
    | (intro hq; simp [hq]; done)
    | (simp_all; done)
    | (simp; done)

theorem State.softReset_keeps {s0 : State} {s : State} (hk : Keeps s0 s) :
    Keeps s0 (State.softReset s) := by
  unfold State.softReset
  try dsimp only
  repeat' (with_reducible first
    | assumption
    | exact Keeps.refl _
    | intro _
    | apply State.post_keeps
    | apply State.globalLevels_keeps
    | apply State.modPwr_keeps
    | apply State.coreReset_keeps
    | apply State.lrst_keeps
    | apply State.ircKeep_keeps
    | apply State.litEntry_keeps
    | apply State.linkSticky_keeps
    | (refine Keeps.ofEq (by assumption) ?_)
    | apply Keeps.ite
    | apply Keeps.foldl
    | apply Keeps.foldlFst
    | apply Keeps.setReg
    | simp only [Keeps.mk_iff]
    | simp only [Keeps.mkVlt_iff]
    | split)
  all_goals first
    | exact id
    | (intro _ hq; exact hq)
    | (intro _; rfl)
    | (intro _ hq; simp [hq]; done)
    | (intro hq; simp [hq]; done)
    | (simp_all; done)
    | (simp; done)

theorem State.clockFatal_keeps {s0 : State} {s : State} (hk : Keeps s0 s) :
    Keeps s0 (State.clockFatal s) := by
  unfold State.clockFatal
  try dsimp only
  repeat' (with_reducible first
    | assumption
    | exact Keeps.refl _
    | intro _
    | apply State.setFlag_keeps
    | apply State.satInc_keeps
    | apply State.modClk_keeps
    | apply State.coreReset_keeps
    | apply State.lrst_keeps
    | apply State.litEntry_keeps
    | (refine Keeps.ofEq (by assumption) ?_)
    | apply Keeps.ite
    | apply Keeps.foldl
    | apply Keeps.foldlFst
    | apply Keeps.setReg
    | simp only [Keeps.mk_iff]
    | simp only [Keeps.mkVlt_iff]
    | split)
  all_goals first
    | exact id
    | (intro _ hq; exact hq)
    | (intro _; rfl)
    | (intro _ hq; simp [hq]; done)
    | (intro hq; simp [hq]; done)
    | (simp_all; done)
    | (simp; done)

theorem State.kaReset_keeps {s0 : State} {s : State} (hk : Keeps s0 s) :
    Keeps s0 (State.kaReset s) := by
  unfold State.kaReset
  dsimp only
  apply State.modPwr_keeps
  apply Keeps.setReg
  exact Keeps.mk' (t := s.coreReset false) (State.coreReset_keeps hk) (spWf_filter _ _) (fun h => VltState.bufLost_kept h) id id id id (fun _ => rfl)

end Sys2Proof.Machine
end

