-- ==== Sys2Proof/Laws/KeepsKeep.lean ====
section
/-! SUPPORT. Every operation of Machine/Keep.lean keeps the queue and the shape of the state. -/

namespace Sys2Proof.Machine

theorem State.gaugeTick_keeps {s0 : State} {s : State} {cls : Nat} {uj : Nat} (hk : Keeps s0 s) :
    Keeps s0 (State.gaugeTick s cls uj) := by
  unfold State.gaugeTick
  try dsimp only
  repeat' (with_reducible first
    | assumption
    | exact Keeps.refl _
    | intro _
    | apply State.setFld_keeps
    | apply State.setFlag_keeps
    | apply State.setPair_keeps
    | apply State.hatInc_keeps
    | apply State.modKeep_keeps
    | (refine Keeps.ofEq (by assumption) ?_)
    | apply Keeps.ite
    | apply Keeps.foldl
    | apply Keeps.foldlFst
    | apply Keeps.setReg
    | simp only [Keeps.mk_iff]
    | simp only [Keeps.mkVlt_iff]
    | split)
  all_goals first
    | exact id
    | (intro _ hq; exact hq)
    | (intro _; rfl)
    | (intro _ hq; simp [hq]; done)
    | (intro hq; simp [hq]; done)
    | (simp_all; done)
    | (simp; done)

theorem State.cellNeeded_keeps {s0 : State} {s : State} {vstore : Word} {vcell : Word} (hk : Keeps s0 s) :
    Keeps s0 (State.cellNeeded s vstore vcell) := by
  unfold State.cellNeeded
  try dsimp only
  repeat' (with_reducible first
    | assumption
    | exact Keeps.refl _
    | intro _
    | apply Keeps.setReg
    | apply State.modKeep_keeps
    | apply State.keepLive_keeps
    | apply State.postOrHold_keeps
    | apply State.keepStick_keeps
    | (refine Keeps.ofEq (by assumption) ?_)
    | apply Keeps.ite
    | apply Keeps.foldl
    | apply Keeps.foldlFst
    | apply Keeps.setReg
    | simp only [Keeps.mk_iff]
    | simp only [Keeps.mkVlt_iff]
    | split)
  all_goals first
    | exact id
    | (intro _ hq; exact hq)
    | (intro _; rfl)
    | (intro _ hq; simp [hq]; done)
    | (intro hq; simp [hq]; done)
    | (simp_all; done)
    | (simp; done)

theorem State.mppRead_keeps {s0 : State} {s : State} {x : Nat} (hk : Keeps s0 s) :
    Keeps s0 (State.mppRead s x) := by
  unfold State.mppRead
  try dsimp only
  repeat' (with_reducible first
    | assumption
    | exact Keeps.refl _
    | intro _
    | apply Keeps.setReg
    | apply State.postOrHold_keeps
    | apply State.keepStick_keeps
    | (refine Keeps.ofEq (by assumption) ?_)
    | apply Keeps.ite
    | apply Keeps.foldl
    | apply Keeps.foldlFst
    | apply Keeps.setReg
    | simp only [Keeps.mk_iff]
    | simp only [Keeps.mkVlt_iff]
    | split)
  all_goals first
    | exact id
    | (intro _ hq; exact hq)
    | (intro _; rfl)
    | (intro _ hq; simp [hq]; done)
    | (intro hq; simp [hq]; done)
    | (simp_all; done)
    | (simp; done)

end Sys2Proof.Machine
end

