-- ==== Sys2Proof/Laws/KeepsAccess.lean ====
section
/-! SUPPORT. Every operation of Machine/Access.lean keeps the queue and the shape of the state. -/

namespace Sys2Proof.Machine

theorem State.lmpPut_keeps {s0 : State} {s : State} {a : Nat} {v : Word} (hk : Keeps s0 s) :
    Keeps s0 (State.lmpPut s a v) := by
  unfold State.lmpPut
  try dsimp only
  repeat' (with_reducible first
    | assumption
    | exact Keeps.refl _
    | intro _
    | apply State.modLmp_keeps
    | (refine Keeps.ofEq (by assumption) ?_)
    | apply Keeps.ite
    | apply Keeps.foldl
    | apply Keeps.foldlFst
    | apply Keeps.setReg
    | simp only [Keeps.mk_iff]
    | simp only [Keeps.mkVlt_iff]
    | split)
  all_goals first
    | exact id
    | (intro _ hq; exact hq)
    | (intro _; rfl)
    | (intro _ hq; simp [hq]; done)
    | (intro hq; simp [hq]; done)
    | (simp_all; done)
    | (simp; done)

theorem State.fdePut_keeps {s0 : State} {s : State} {p : Path} {a : Nat} {v : Word} (hk : Keeps s0 s) :
    Keeps s0 (State.fdePut s p a v) := by
  unfold State.fdePut
  try dsimp only
  repeat' (with_reducible first
    | assumption
    | exact Keeps.refl _
    | intro _
    | apply Keeps.modFde
    | apply State.plateWrite_keeps
    | (refine Keeps.ofEq (by assumption) ?_)
    | apply Keeps.ite
    | apply Keeps.foldl
    | apply Keeps.foldlFst
    | apply Keeps.setReg
    | simp only [Keeps.mk_iff]
    | simp only [Keeps.mkVlt_iff]
    | split)
  all_goals first
    | exact id
    | (intro _ hq; exact hq)
    | (intro _; rfl)
    | (intro _ hq; simp [hq]; done)
    | (intro hq; simp [hq]; done)
    | (simp_all; done)
    | (simp; done)

theorem State.hltPut_keeps {s0 : State} {s : State} {a : Nat} {v : Word} (hk : Keeps s0 s) :
    Keeps s0 (State.hltPut s a v) := by
  unfold State.hltPut
  try dsimp only
  repeat' (with_reducible first
    | assumption
    | exact Keeps.refl _
    | intro _
    | apply Keeps.modHlt
    | (refine Keeps.ofEq (by assumption) ?_)
    | apply Keeps.ite
    | apply Keeps.foldl
    | apply Keeps.foldlFst
    | apply Keeps.setReg
    | simp only [Keeps.mk_iff]
    | simp only [Keeps.mkVlt_iff]
    | split)
  all_goals first
    | exact id
    | (intro _ hq; exact hq)
    | (intro _; rfl)
    | (intro _ hq; simp [hq]; done)
    | (intro hq; simp [hq]; done)
    | (simp_all; done)
    | (simp; done)

theorem State.tablePut_keeps {s0 : State} {s : State} {p : Path} {page : Nat} {a : Nat} {v : Word} (hk : Keeps s0 s) :
    Keeps s0 (State.tablePut s p page a v) := by
  unfold State.tablePut
  try dsimp only
  repeat' (with_reducible first
    | assumption
    | exact Keeps.refl _
    | intro _
    | apply State.rawWrite_keeps
    | apply State.phyTablePut_keeps
    | apply State.modSec_keeps
    | apply State.dirPut_keeps
    | apply State.lmpPut_keeps
    | apply State.fdePut_keeps
    | apply State.hltPut_keeps
    | (refine Keeps.ofEq (by assumption) ?_)
    | apply Keeps.ite
    | apply Keeps.foldl
    | apply Keeps.foldlFst
    | apply Keeps.setReg
    | simp only [Keeps.mk_iff]
    | simp only [Keeps.mkVlt_iff]
    | split)
  all_goals first
    | exact id
    | (intro _ hq; exact hq)
    | (intro _; rfl)
    | (intro _ hq; simp [hq]; done)
    | (intro hq; simp [hq]; done)
    | (simp_all; done)
    | (simp; done)

theorem State.rawMark_keeps {s0 : State} {s : State} {p : Path} {page : Nat} (hk : Keeps s0 s) :
    Keeps s0 (State.rawMark s p page) := by
  unfold State.rawMark
  try dsimp only
  repeat' (with_reducible first
    | assumption
    | exact Keeps.refl _
    | intro _
    | apply State.setFld_keeps
    | (refine Keeps.ofEq (by assumption) ?_)
    | apply Keeps.ite
    | apply Keeps.foldl
    | apply Keeps.foldlFst
    | apply Keeps.setReg
    | simp only [Keeps.mk_iff]
    | simp only [Keeps.mkVlt_iff]
    | split)
  all_goals first
    | exact id
    | (intro _ hq; exact hq)
    | (intro _; rfl)
    | (intro _ hq; simp [hq]; done)
    | (intro hq; simp [hq]; done)
    | (simp_all; done)
    | (simp; done)

theorem State.portStep_keeps {s0 : State} {s : State} {f : Fld} {width : Nat} {a : Nat} (hk : Keeps s0 s) :
    Keeps s0 (State.portStep s f width a) := by
  unfold State.portStep
  try dsimp only
  repeat' (with_reducible first
    | assumption
    | exact Keeps.refl _
    | intro _
    | apply State.setFld_keeps
    | apply Keeps.modVlt
    | (refine Keeps.ofEq (by assumption) ?_)
    | apply Keeps.ite
    | apply Keeps.foldl
    | apply Keeps.foldlFst
    | apply Keeps.setReg
    | simp only [Keeps.mk_iff]
    | simp only [Keeps.mkVlt_iff]
    | split)
  all_goals first
    | exact id
    | (intro _ hq; exact hq)
    | (intro _; rfl)
    | (intro _ hq; simp [hq]; done)
    | (intro hq; simp [hq]; done)
    | (simp_all; done)
    | (simp; done)

theorem State.tableRead_keeps {s0 : State} {s : State} {p : Path} {page : Nat} {f : Fld} {width : Nat} (hk : Keeps s0 s) :
    Keeps s0 (State.tableRead s p page f width).1 := by
  unfold State.tableRead
  try dsimp only
  repeat' (with_reducible first
    | assumption
    | exact Keeps.refl _
    | intro _
    | apply State.rawMark_keeps
    | apply State.portStep_keeps
    | (refine Keeps.ofEq (by assumption) ?_)
    | apply Keeps.ite
    | apply Keeps.foldl
    | apply Keeps.foldlFst
    | apply Keeps.setReg
    | simp only [Keeps.mk_iff]
    | simp only [Keeps.mkVlt_iff]
    | split)
  all_goals first
    | exact id
    | (intro _ hq; exact hq)
    | (intro _; rfl)
    | (intro _ hq; simp [hq]; done)
    | (intro hq; simp [hq]; done)
    | (simp_all; done)
    | (simp; done)

theorem State.tableWrite_keeps {s0 : State} {s : State} {p : Path} {page : Nat} {f : Fld} {width : Nat} {v : Word} (hk : Keeps s0 s) :
    Keeps s0 (State.tableWrite s p page f width v) := by
  unfold State.tableWrite
  try dsimp only
  repeat' (with_reducible first
    | assumption
    | exact Keeps.refl _
    | intro _
    | apply State.setFld_keeps
    | apply State.tablePut_keeps
    | apply State.rawMark_keeps
    | apply State.portStep_keeps
    | (refine Keeps.ofEq (by assumption) ?_)
    | apply Keeps.ite
    | apply Keeps.foldl
    | apply Keeps.foldlFst
    | apply Keeps.setReg
    | simp only [Keeps.mk_iff]
    | simp only [Keeps.mkVlt_iff]
    | split)
  all_goals first
    | exact id
    | (intro _ hq; exact hq)
    | (intro _; rfl)
    | (intro _ hq; simp [hq]; done)
    | (intro hq; simp [hq]; done)
    | (simp_all; done)
    | (simp; done)

theorem State.readReg_keeps {s0 : State} {s : State} {p : Path} {page : Nat} {off : Nat} (hk : Keeps s0 s) :
    Keeps s0 (State.readReg s p page off).1 := by
  unfold State.readReg
  try dsimp only
  repeat' (with_reducible first
    | assumption
    | exact Keeps.refl _
    | intro _
    | apply State.modPath_keeps
    | apply State.readTimSec_keeps
    | apply State.rdataRead_keeps
    | (apply State.tableRead_keeps)
    | (refine Keeps.ofEq (by assumption) ?_)
    | apply Keeps.ite
    | apply Keeps.foldl
    | apply Keeps.foldlFst
    | apply Keeps.setReg
    | simp only [Keeps.mk_iff]
    | simp only [Keeps.mkVlt_iff]
    | split)
  all_goals first
    | exact id
    | (intro _ hq; exact hq)
    | (intro _; rfl)
    | (intro _ hq; simp [hq]; done)
    | (intro hq; simp [hq]; done)
    | (simp_all; done)
    | (simp; done)

theorem State.readPath_keeps {s0 : State} {s : State} {p : Path} {page : Nat} {off : Nat} (hk : Keeps s0 s) :
    Keeps s0 (State.readPath s p page off) := by
  unfold State.readPath
  try dsimp only
  repeat' (with_reducible first
    | assumption
    | exact Keeps.refl _
    | intro _
    | apply State.modPath_keeps
    | (apply State.readReg_keeps)
    | (refine Keeps.ofEq (by assumption) ?_)
    | apply Keeps.ite
    | apply Keeps.foldl
    | apply Keeps.foldlFst
    | apply Keeps.setReg
    | simp only [Keeps.mk_iff]
    | simp only [Keeps.mkVlt_iff]
    | split)
  all_goals first
    | exact id
    | (intro _ hq; exact hq)
    | (intro _; rfl)
    | (intro _ hq; simp [hq]; done)
    | (intro hq; simp [hq]; done)
    | (simp_all; done)
    | (simp; done)

theorem State.mergeReg_keeps {s0 : State} {s : State} {p : Path} {page : Nat} {off : Nat} {i : Nat} {v : Word} (hk : Keeps s0 s) :
    Keeps s0 (State.mergeReg s p page off i v) := by
  unfold State.mergeReg
  try dsimp only
  repeat' (with_reducible first
    | assumption
    | exact Keeps.refl _
    | intro _
    | apply Keeps.setReg
    | (refine Keeps.ofEq (by assumption) ?_)
    | apply Keeps.ite
    | apply Keeps.foldl
    | apply Keeps.foldlFst
    | apply Keeps.setReg
    | simp only [Keeps.mk_iff]
    | simp only [Keeps.mkVlt_iff]
    | split)
  all_goals first
    | exact id
    | (intro _ hq; exact hq)
    | (intro _; rfl)
    | (intro _ hq; simp [hq]; done)
    | (intro hq; simp [hq]; done)
    | (simp_all; done)
    | (simp; done)

theorem State.unlockWrite_keeps {s0 : State} {s : State} {p : Path} {v : Word} (hk : Keeps s0 s) :
    Keeps s0 (State.unlockWrite s p v) := by
  unfold State.unlockWrite
  try dsimp only
  repeat' (with_reducible first
    | assumption
    | exact Keeps.refl _
    | intro _
    | apply State.modPath_keeps
    | (refine Keeps.ofEq (by assumption) ?_)
    | apply Keeps.ite
    | apply Keeps.foldl
    | apply Keeps.foldlFst
    | apply Keeps.setReg
    | simp only [Keeps.mk_iff]
    | simp only [Keeps.mkVlt_iff]
    | split)
  all_goals first
    | exact id
    | (intro _ hq; exact hq)
    | (intro _; rfl)
    | (intro _ hq; simp [hq]; done)
    | (intro hq; simp [hq]; done)
    | (simp_all; done)
    | (simp; done)

theorem State.nmiClear_keeps {s0 : State} {s : State} {p : Path} {v : Word} (hk : Keeps s0 s) :
    Keeps s0 (State.nmiClear s p v) := by
  unfold State.nmiClear
  try dsimp only
  repeat' (with_reducible first
    | assumption
    | exact Keeps.refl _
    | intro _
    | apply State.useFree_keeps
    | apply State.nmi_keeps
    | apply State.modPwr_keeps
    | apply State.mergeReg_keeps
    | (refine Keeps.ofEq (by assumption) ?_)
    | apply Keeps.ite
    | apply Keeps.foldl
    | apply Keeps.foldlFst
    | apply Keeps.setReg
    | simp only [Keeps.mk_iff]
    | simp only [Keeps.mkVlt_iff]
    | split)
  all_goals first
    | exact id
    | (intro _ hq; exact hq)
    | (intro _; rfl)
    | (intro _ hq; simp [hq]; done)
    | (intro hq; simp [hq]; done)
    | (simp_all; done)
    | (simp; done)

theorem State.tctl_keeps {s0 : State} {s : State} {p : Path} {page : Nat} {code : Nat} (hk : Keeps s0 s) :
    Keeps s0 (State.tctl s p page code) := by
  unfold State.tctl
  try dsimp only
  repeat' (with_reducible first
    | assumption
    | exact Keeps.refl _
    | intro _
    | apply State.lmpOpen_keeps
    | apply State.lmpClose_keeps
    | apply State.fdeOpen_keeps
    | apply State.fdeClose_keeps
    | apply State.hltOpen_keeps
    | apply State.hltClose_keeps
    | apply State.lmpSave_keeps
    | apply State.fdeSave_keeps
    | apply State.hltSave_keeps
    | (refine Keeps.ofEq (by assumption) ?_)
    | apply Keeps.ite
    | apply Keeps.foldl
    | apply Keeps.foldlFst
    | apply Keeps.setReg
    | simp only [Keeps.mk_iff]
    | simp only [Keeps.mkVlt_iff]
    | split)
  all_goals first
    | exact id
    | (intro _ hq; exact hq)
    | (intro _; rfl)
    | (intro _ hq; simp [hq]; done)
    | (intro hq; simp [hq]; done)
    | (simp_all; done)
    | (simp; done)

theorem State.clearFree_keeps {s0 : State} {s : State} {f : State → Word → Word → BitVec 4 → State} (hk : Keeps s0 s) (hf : ∀ u0 u1 u2 u3, Keeps s0 u0 → Keeps s0 (f u0 u1 u2 u3)) :
    Keeps s0 (State.clearFree s f) := by
  unfold State.clearFree
  try dsimp only
  repeat' (with_reducible first
    | assumption
    | exact Keeps.refl _
    | intro _
    | apply State.useFree_keeps
    | apply hf
    | (refine Keeps.ofEq (by assumption) ?_)
    | apply Keeps.ite
    | apply Keeps.foldl
    | apply Keeps.foldlFst
    | apply Keeps.setReg
    | simp only [Keeps.mk_iff]
    | simp only [Keeps.mkVlt_iff]
    | split)
  all_goals first
    | exact id
    | (intro _ hq; exact hq)
    | (intro _; rfl)
    | (intro _ hq; simp [hq]; done)
    | (intro hq; simp [hq]; done)
    | (simp_all; done)
    | (simp; done)

theorem State.portAddr_keeps {s0 : State} {s : State} {p : Path} {page : Nat} {off : Nat} {v : Word} (hk : Keeps s0 s) :
    Keeps s0 (State.portAddr s p page off v) := by
  unfold State.portAddr
  try dsimp only
  repeat' (with_reducible first
    | assumption
    | exact Keeps.refl _
    | intro _
    | apply Keeps.modVlt
    | apply State.mergeReg_keeps
    | (refine Keeps.ofEq (by assumption) ?_)
    | apply Keeps.ite
    | apply Keeps.foldl
    | apply Keeps.foldlFst
    | apply Keeps.setReg
    | simp only [Keeps.mk_iff]
    | simp only [Keeps.mkVlt_iff]
    | split)
  all_goals first
    | exact id
    | (intro _ hq; exact hq)
    | (intro _; rfl)
    | (intro _ hq; simp [hq]; done)
    | (intro hq; simp [hq]; done)
    | (simp_all; done)
    | (simp; done)

theorem State.cctl_keeps {s0 : State} {s : State} {n : Nat} {v : Word} (hk : Keeps s0 s) :
    Keeps s0 (State.cctl s n v) := by
  unfold State.cctl
  try dsimp only
  repeat' (with_reducible first
    | assumption
    | exact Keeps.refl _
    | intro _
    | apply State.ledRst_keeps
    | apply State.modelClr_keeps
    | apply State.dtRelearn_keeps
    | (refine Keeps.ofEq (by assumption) ?_)
    | apply Keeps.ite
    | apply Keeps.foldl
    | apply Keeps.foldlFst
    | apply Keeps.setReg
    | simp only [Keeps.mk_iff]
    | simp only [Keeps.mkVlt_iff]
    | split)
  all_goals first
    | exact id
    | (intro _ hq; exact hq)
    | (intro _; rfl)
    | (intro _ hq; simp [hq]; done)
    | (intro hq; simp [hq]; done)
    | (simp_all; done)
    | (simp; done)

theorem State.shortWrite_keeps {s0 : State} {s : State} {a : Nat} (hk : Keeps s0 s) :
    Keeps s0 (State.shortWrite s a) := by
  unfold State.shortWrite
  try dsimp only
  repeat' (with_reducible first
    | assumption
    | exact Keeps.refl _
    | intro _
    | apply State.setShort_keeps
    | apply State.seqStart_keeps
    | apply State.joinState_keeps
    | (refine Keeps.ofEq (by assumption) ?_)
    | apply Keeps.ite
    | apply Keeps.foldl
    | apply Keeps.foldlFst
    | apply Keeps.setReg
    | simp only [Keeps.mk_iff]
    | simp only [Keeps.mkVlt_iff]
    | split)
  all_goals first
    | exact id
    | (intro _ hq; exact hq)
    | (intro _; rfl)
    | (intro _ hq; simp [hq]; done)
    | (intro hq; simp [hq]; done)
    | (simp_all; done)
    | (simp; done)

theorem State.writeSys_keeps {s0 : State} {s : State} {p : Path} {off : Nat} {v : Word} (hk : Keeps s0 s) :
    Keeps s0 (State.writeSys s p off v) := by
  unfold State.writeSys
  try dsimp only
  repeat' (with_reducible first
    | assumption
    | exact Keeps.refl _
    | intro _
    | apply State.holdChange_keeps
    | apply State.hwdKick_keeps
    | apply State.sysCtl_keeps
    | apply State.mergeReg_keeps
    | apply State.unlockWrite_keeps
    | apply State.nmiClear_keeps
    | (refine Keeps.ofEq (by assumption) ?_)
    | apply Keeps.ite
    | apply Keeps.foldl
    | apply Keeps.foldlFst
    | apply Keeps.setReg
    | simp only [Keeps.mk_iff]
    | simp only [Keeps.mkVlt_iff]
    | split)
  all_goals first
    | exact id
    | (intro _ hq; exact hq)
    | (intro _; rfl)
    | (intro _ hq; simp [hq]; done)
    | (intro hq; simp [hq]; done)
    | (simp_all; done)
    | (simp; done)

theorem State.gateWrite_keeps {s0 : State} {s : State} {p : Path} {off : Nat} {v : Word} (hk : Keeps s0 s) :
    Keeps s0 (State.gateWrite s p off v) := by
  unfold State.gateWrite
  try dsimp only
  repeat' (with_reducible first
    | assumption
    | exact Keeps.refl _
    | intro _
    | apply State.lineStop_keeps
    | apply State.mergeReg_keeps
    | (refine Keeps.ofEq (by assumption) ?_)
    | apply Keeps.ite
    | apply Keeps.foldl
    | apply Keeps.foldlFst
    | apply Keeps.setReg
    | simp only [Keeps.mk_iff]
    | simp only [Keeps.mkVlt_iff]
    | split)
  all_goals first
    | exact id
    | (intro _ hq; exact hq)
    | (intro _; rfl)
    | (intro _ hq; simp [hq]; done)
    | (intro hq; simp [hq]; done)
    | (simp_all; done)
    | (simp; done)

theorem State.writeClk_keeps {s0 : State} {s : State} {p : Path} {off : Nat} {v : Word} (hk : Keeps s0 s) :
    Keeps s0 (State.writeClk s p off v) := by
  unfold State.writeClk
  try dsimp only
  repeat' (with_reducible first
    | assumption
    | exact Keeps.refl _
    | intro _
    | apply State.ircKeep_keeps
    | apply State.clkCmd_keeps
    | apply State.spreadNow_keeps
    | apply State.mergeReg_keeps
    | apply State.gateWrite_keeps
    | (refine Keeps.ofEq (by assumption) ?_)
    | apply Keeps.ite
    | apply Keeps.foldl
    | apply Keeps.foldlFst
    | apply Keeps.setReg
    | simp only [Keeps.mk_iff]
    | simp only [Keeps.mkVlt_iff]
    | split)
  all_goals first
    | exact id
    | (intro _ hq; exact hq)
    | (intro _; rfl)
    | (intro _ hq; simp [hq]; done)
    | (intro hq; simp [hq]; done)
    | (simp_all; done)
    | (simp; done)

theorem State.writePwr_keeps {s0 : State} {s : State} {p : Path} {off : Nat} {v : Word} (hk : Keeps s0 s) :
    Keeps s0 (State.writePwr s p off v) := by
  unfold State.writePwr
  try dsimp only
  repeat' (with_reducible first
    | assumption
    | exact Keeps.refl _
    | intro _
    | apply State.setFld_keeps
    | apply State.mergeReg_keeps
    | (refine Keeps.ofEq (by assumption) ?_)
    | apply Keeps.ite
    | apply Keeps.foldl
    | apply Keeps.foldlFst
    | apply Keeps.setReg
    | simp only [Keeps.mk_iff]
    | simp only [Keeps.mkVlt_iff]
    | split)
  all_goals first
    | exact id
    | (intro _ hq; exact hq)
    | (intro _; rfl)
    | (intro _ hq; simp [hq]; done)
    | (intro hq; simp [hq]; done)
    | (simp_all; done)
    | (simp; done)

theorem State.writeKeep_keeps {s0 : State} {s : State} {p : Path} {off : Nat} {v : Word} (hk : Keeps s0 s) :
    Keeps s0 (State.writeKeep s p off v) := by
  unfold State.writeKeep
  try dsimp only
  repeat' (with_reducible first
    | assumption
    | exact Keeps.refl _
    | intro _
    | apply State.keepLive_keeps
    | apply State.mergeReg_keeps
    | (refine Keeps.ofEq (by assumption) ?_)
    | apply Keeps.ite
    | apply Keeps.foldl
    | apply Keeps.foldlFst
    | apply Keeps.setReg
    | simp only [Keeps.mk_iff]
    | simp only [Keeps.mkVlt_iff]
    | split)
  all_goals first
    | exact id
    | (intro _ hq; exact hq)
    | (intro _; rfl)
    | (intro _ hq; simp [hq]; done)
    | (intro hq; simp [hq]; done)
    | (simp_all; done)
    | (simp; done)

theorem State.writePwm_keeps {s0 : State} {s : State} {p : Path} {off : Nat} {v : Word} (hk : Keeps s0 s) :
    Keeps s0 (State.writePwm s p off v) := by
  unfold State.writePwm
  try dsimp only
  repeat' (with_reducible first
    | assumption
    | exact Keeps.refl _
    | intro _
    | apply State.enaSet_keeps
    | apply State.globalLevels_keeps
    | apply State.mergeReg_keeps
    | (refine Keeps.ofEq (by assumption) ?_)
    | apply Keeps.ite
    | apply Keeps.foldl
    | apply Keeps.foldlFst
    | apply Keeps.setReg
    | simp only [Keeps.mk_iff]
    | simp only [Keeps.mkVlt_iff]
    | split)
  all_goals first
    | exact id
    | (intro _ hq; exact hq)
    | (intro _; rfl)
    | (intro _ hq; simp [hq]; done)
    | (intro hq; simp [hq]; done)
    | (simp_all; done)
    | (simp; done)

theorem State.writeCur_keeps {s0 : State} {s : State} {p : Path} {off : Nat} {v : Word} (hk : Keeps s0 s) :
    Keeps s0 (State.writeCur s p off v) := by
  unfold State.writeCur
  try dsimp only
  repeat' (with_reducible first
    | assumption
    | exact Keeps.refl _
    | intro _
    | apply State.dperMoved_keeps
    | apply State.mergeReg_keeps
    | (refine Keeps.ofEq (by assumption) ?_)
    | apply Keeps.ite
    | apply Keeps.foldl
    | apply Keeps.foldlFst
    | apply Keeps.setReg
    | simp only [Keeps.mk_iff]
    | simp only [Keeps.mkVlt_iff]
    | split)
  all_goals first
    | exact id
    | (intro _ hq; exact hq)
    | (intro _; rfl)
    | (intro _ hq; simp [hq]; done)
    | (intro hq; simp [hq]; done)
    | (simp_all; done)
    | (simp; done)

theorem State.writeLmp_keeps {s0 : State} {s : State} {p : Path} {off : Nat} {v : Word} (hk : Keeps s0 s) :
    Keeps s0 (State.writeLmp s p off v) := by
  unfold State.writeLmp
  try dsimp only
  repeat' (with_reducible first
    | assumption
    | exact Keeps.refl _
    | intro _
    | apply State.mergeReg_keeps
    | apply State.tctl_keeps
    | apply State.portAddr_keeps
    | (refine Keeps.ofEq (by assumption) ?_)
    | apply Keeps.ite
    | apply Keeps.foldl
    | apply Keeps.foldlFst
    | apply Keeps.setReg
    | simp only [Keeps.mk_iff]
    | simp only [Keeps.mkVlt_iff]
    | split)
  all_goals first
    | exact id
    | (intro _ hq; exact hq)
    | (intro _; rfl)
    | (intro _ hq; simp [hq]; done)
    | (intro hq; simp [hq]; done)
    | (simp_all; done)
    | (simp; done)

theorem State.writeFde_keeps {s0 : State} {s : State} {p : Path} {off : Nat} {v : Word} (hk : Keeps s0 s) :
    Keeps s0 (State.writeFde s p off v) := by
  unfold State.writeFde
  try dsimp only
  repeat' (with_reducible first
    | assumption
    | exact Keeps.refl _
    | intro _
    | apply Keeps.modFde
    | apply State.rcmd_keeps
    | apply State.mergeReg_keeps
    | apply State.tctl_keeps
    | apply State.portAddr_keeps
    | apply State.replay_keeps
    | (refine Keeps.ofEq (by assumption) ?_)
    | apply Keeps.ite
    | apply Keeps.foldl
    | apply Keeps.foldlFst
    | apply Keeps.setReg
    | simp only [Keeps.mk_iff]
    | simp only [Keeps.mkVlt_iff]
    | split)
  all_goals first
    | exact id
    | (intro _ hq; exact hq)
    | (intro _; rfl)
    | (intro _ hq; simp [hq]; done)
    | (intro hq; simp [hq]; done)
    | (simp_all; done)
    | (simp; done)

theorem State.writeHlt_keeps {s0 : State} {s : State} {p : Path} {off : Nat} {v : Word} (hk : Keeps s0 s) :
    Keeps s0 (State.writeHlt s p off v) := by
  unfold State.writeHlt
  try dsimp only
  repeat' (with_reducible first
    | assumption
    | exact Keeps.refl _
    | intro _
    | apply Keeps.forChans
    | apply State.proofRequest_keeps
    | apply State.mergeReg_keeps
    | apply State.tctl_keeps
    | apply State.portAddr_keeps
    | (refine Keeps.ofEq (by assumption) ?_)
    | apply Keeps.ite
    | apply Keeps.foldl
    | apply Keeps.foldlFst
    | apply Keeps.setReg
    | simp only [Keeps.mk_iff]
    | simp only [Keeps.mkVlt_iff]
    | split)
  all_goals first
    | exact id
    | (intro _ hq; exact hq)
    | (intro _; rfl)
    | (intro _ hq; simp [hq]; done)
    | (intro hq; simp [hq]; done)
    | (simp_all; done)
    | (simp; done)

theorem State.writePhy_keeps {s0 : State} {s : State} {p : Path} {off : Nat} {v : Word} (hk : Keeps s0 s) :
    Keeps s0 (State.writePhy s p off v) := by
  unfold State.writePhy
  try dsimp only
  repeat' (with_reducible first
    | assumption
    | exact Keeps.refl _
    | intro _
    | apply State.mergeReg_keeps
    | apply State.portAddr_keeps
    | (refine Keeps.ofEq (by assumption) ?_)
    | apply Keeps.ite
    | apply Keeps.foldl
    | apply Keeps.foldlFst
    | apply Keeps.setReg
    | simp only [Keeps.mk_iff]
    | simp only [Keeps.mkVlt_iff]
    | split)
  all_goals first
    | exact id
    | (intro _ hq; exact hq)
    | (intro _; rfl)
    | (intro _ hq; simp [hq]; done)
    | (intro hq; simp [hq]; done)
    | (simp_all; done)
    | (simp; done)

theorem State.writeMac_keeps {s0 : State} {s : State} {p : Path} {off : Nat} {v : Word} (hk : Keeps s0 s) :
    Keeps s0 (State.writeMac s p off v) := by
  unfold State.writeMac
  try dsimp only
  repeat' (with_reducible first
    | assumption
    | exact Keeps.refl _
    | intro _
    | apply State.roleWrite_keeps
    | apply State.rdataWrite_keeps
    | apply State.rctlWrite_keeps
    | apply State.mergeReg_keeps
    | apply State.shortWrite_keeps
    | (refine Keeps.ofEq (by assumption) ?_)
    | apply Keeps.ite
    | apply Keeps.foldl
    | apply Keeps.foldlFst
    | apply Keeps.setReg
    | simp only [Keeps.mk_iff]
    | simp only [Keeps.mkVlt_iff]
    | split)
  all_goals first
    | exact id
    | (intro _ hq; exact hq)
    | (intro _; rfl)
    | (intro _ hq; simp [hq]; done)
    | (intro hq; simp [hq]; done)
    | (simp_all; done)
    | (simp; done)

theorem State.writeTim_keeps {s0 : State} {s : State} {p : Path} {off : Nat} {v : Word} (hk : Keeps s0 s) :
    Keeps s0 (State.writeTim s p off v) := by
  unfold State.writeTim
  try dsimp only
  repeat' (with_reducible first
    | assumption
    | exact Keeps.refl _
    | intro _
    | apply State.timCmd_keeps
    | apply State.offsetMoved_keeps
    | apply State.alarmWrite_keeps
    | apply State.mergeReg_keeps
    | (refine Keeps.ofEq (by assumption) ?_)
    | apply Keeps.ite
    | apply Keeps.foldl
    | apply Keeps.foldlFst
    | apply Keeps.setReg
    | simp only [Keeps.mk_iff]
    | simp only [Keeps.mkVlt_iff]
    | split)
  all_goals first
    | exact id
    | (intro _ hq; exact hq)
    | (intro _; rfl)
    | (intro _ hq; simp [hq]; done)
    | (intro hq; simp [hq]; done)
    | (simp_all; done)
    | (simp; done)

theorem State.writeGtu_keeps {s0 : State} {s : State} {p : Path} {off : Nat} {v : Word} (hk : Keeps s0 s) :
    Keeps s0 (State.writeGtu s p off v) := by
  unfold State.writeGtu
  try dsimp only
  repeat' (with_reducible first
    | assumption
    | exact Keeps.refl _
    | intro _
    | apply State.gtuEna_keeps
    | apply State.gtuTrg_keeps
    | apply State.mergeReg_keeps
    | (refine Keeps.ofEq (by assumption) ?_)
    | apply Keeps.ite
    | apply Keeps.foldl
    | apply Keeps.foldlFst
    | apply Keeps.setReg
    | simp only [Keeps.mk_iff]
    | simp only [Keeps.mkVlt_iff]
    | split)
  all_goals first
    | exact id
    | (intro _ hq; exact hq)
    | (intro _; rfl)
    | (intro _ hq; simp [hq]; done)
    | (intro hq; simp [hq]; done)
    | (simp_all; done)
    | (simp; done)

theorem State.writeVlt_keeps {s0 : State} {s : State} {p : Path} {off : Nat} {v : Word} (hk : Keeps s0 s) :
    Keeps s0 (State.writeVlt s p off v) := by
  unfold State.writeVlt
  try dsimp only
  repeat' (with_reducible first
    | assumption
    | exact Keeps.refl _
    | intro _
    | apply State.rselWrite_keeps
    | apply State.pwdWrite_keeps
    | apply State.vltCmd_keeps
    | apply State.mergeReg_keeps
    | apply State.portAddr_keeps
    | (refine Keeps.ofEq (by assumption) ?_)
    | apply Keeps.ite
    | apply Keeps.foldl
    | apply Keeps.foldlFst
    | apply Keeps.setReg
    | simp only [Keeps.mk_iff]
    | simp only [Keeps.mkVlt_iff]
    | split)
  all_goals first
    | exact id
    | (intro _ hq; exact hq)
    | (intro _; rfl)
    | (intro _ hq; simp [hq]; done)
    | (intro hq; simp [hq]; done)
    | (simp_all; done)
    | (simp; done)

theorem State.writeSec_keeps {s0 : State} {s : State} {p : Path} {off : Nat} {v : Word} (hk : Keeps s0 s) :
    Keeps s0 (State.writeSec s p off v) := by
  unfold State.writeSec
  try dsimp only
  repeat' (with_reducible first
    | assumption
    | exact Keeps.refl _
    | intro _
    | apply State.secCmd_keeps
    | apply State.kdataWrite_keeps
    | apply State.slotSelect_keeps
    | apply State.mergeReg_keeps
    | apply State.portAddr_keeps
    | (refine Keeps.ofEq (by assumption) ?_)
    | apply Keeps.ite
    | apply Keeps.foldl
    | apply Keeps.foldlFst
    | apply Keeps.setReg
    | simp only [Keeps.mk_iff]
    | simp only [Keeps.mkVlt_iff]
    | split)
  all_goals first
    | exact id
    | (intro _ hq; exact hq)
    | (intro _; rfl)
    | (intro _ hq; simp [hq]; done)
    | (intro hq; simp [hq]; done)
    | (simp_all; done)
    | (simp; done)

theorem State.writeLog_keeps {s0 : State} {s : State} {p : Path} {off : Nat} {v : Word} (hk : Keeps s0 s) :
    Keeps s0 (State.writeLog s p off v) := by
  unfold State.writeLog
  try dsimp only
  repeat' (with_reducible first
    | assumption
    | exact Keeps.refl _
    | intro _
    | apply State.sealWrite_keeps
    | apply State.hostPost_keeps
    | apply State.mergeReg_keeps
    | (refine Keeps.ofEq (by assumption) ?_)
    | apply Keeps.ite
    | apply Keeps.foldl
    | apply Keeps.foldlFst
    | apply Keeps.setReg
    | simp only [Keeps.mk_iff]
    | simp only [Keeps.mkVlt_iff]
    | split)
  all_goals first
    | exact id
    | (intro _ hq; exact hq)
    | (intro _; rfl)
    | (intro _ hq; simp [hq]; done)
    | (intro hq; simp [hq]; done)
    | (simp_all; done)
    | (simp; done)

theorem State.plainWrite_keeps {s0 : State} {s : State} {p : Path} {page : Nat} {off : Nat} {v : Word} (hk : Keeps s0 s) :
    Keeps s0 (State.plainWrite s p page off v) := by
  unfold State.plainWrite
  try dsimp only
  repeat' (with_reducible first
    | assumption
    | exact Keeps.refl _
    | intro _
    | apply State.mergeReg_keeps
    | apply State.writeSys_keeps
    | apply State.writeClk_keeps
    | apply State.writePwr_keeps
    | apply State.writeKeep_keeps
    | apply State.writePwm_keeps
    | apply State.writeCur_keeps
    | apply State.writeLmp_keeps
    | apply State.writeFde_keeps
    | apply State.writeHlt_keeps
    | apply State.writePhy_keeps
    | apply State.writeMac_keeps
    | apply State.writeTim_keeps
    | apply State.writeGtu_keeps
    | apply State.writeVlt_keeps
    | apply State.writeSec_keeps
    | apply State.writeLog_keeps
    | (refine Keeps.ofEq (by assumption) ?_)
    | apply Keeps.ite
    | apply Keeps.foldl
    | apply Keeps.foldlFst
    | apply Keeps.setReg
    | simp only [Keeps.mk_iff]
    | simp only [Keeps.mkVlt_iff]
    | split)
  all_goals first
    | exact id
    | (intro _ hq; exact hq)
    | (intro _; rfl)
    | (intro _ hq; simp [hq]; done)
    | (intro hq; simp [hq]; done)
    | (simp_all; done)
    | (simp; done)

theorem State.indexWrite_keeps {s0 : State} {s : State} {p : Path} {page : Nat} {off : Nat} {i : Nat} {v : Word} (hk : Keeps s0 s) :
    Keeps s0 (State.indexWrite s p page off i v) := by
  unfold State.indexWrite
  try dsimp only
  repeat' (with_reducible first
    | assumption
    | exact Keeps.refl _
    | intro _
    | apply Keeps.setReg
    | apply Keeps.modChan
    | apply State.shadowWrite_keeps
    | apply State.forceWrite_keeps
    | apply State.tripClr_keeps
    | apply State.chanFreeze_keeps
    | apply State.chanResume_keeps
    | apply State.lockClr_keeps
    | apply State.lmpMapWrite_keeps
    | apply State.lmpCfgWrite_keeps
    | apply Keeps.modGt
    | apply State.hatWrite_keeps
    | apply State.mergeReg_keeps
    | apply State.clearFree_keeps
    | apply State.cctl_keeps
    | (refine Keeps.ofEq (by assumption) ?_)
    | apply Keeps.ite
    | apply Keeps.foldl
    | apply Keeps.foldlFst
    | apply Keeps.setReg
    | simp only [Keeps.mk_iff]
    | simp only [Keeps.mkVlt_iff]
    | split)
  all_goals first
    | exact id
    | (intro _ hq; exact hq)
    | (intro _; rfl)
    | (intro _ hq; simp [hq]; done)
    | (intro hq; simp [hq]; done)
    | (simp_all; done)
    | (simp; done)

theorem State.pairWrite_keeps {s0 : State} {s : State} {p : Path} {page : Nat} {off : Nat} {i : Nat} {lo : Word} {hi : Option Word} (hk : Keeps s0 s) :
    Keeps s0 (State.pairWrite s p page off i lo hi) := by
  unfold State.pairWrite
  try dsimp only
  repeat' (with_reducible first
    | assumption
    | exact Keeps.refl _
    | intro _
    | apply State.gtValue_keeps
    | apply State.mergeReg_keeps
    | (refine Keeps.ofEq (by assumption) ?_)
    | apply Keeps.ite
    | apply Keeps.foldl
    | apply Keeps.foldlFst
    | apply Keeps.setReg
    | simp only [Keeps.mk_iff]
    | simp only [Keeps.mkVlt_iff]
    | split)
  all_goals first
    | exact id
    | (intro _ hq; exact hq)
    | (intro _; rfl)
    | (intro _ hq; simp [hq]; done)
    | (intro hq; simp [hq]; done)
    | (simp_all; done)
    | (simp; done)

theorem State.writeReg_keeps {s0 : State} {s : State} {p : Path} {page : Nat} {off : Nat} {v : Word} (hk : Keeps s0 s) :
    Keeps s0 (State.writeReg s p page off v) := by
  unfold State.writeReg
  try dsimp only
  repeat' (with_reducible first
    | assumption
    | exact Keeps.refl _
    | intro _
    | apply State.modPath_keeps
    | apply State.tableWrite_keeps
    | apply State.plainWrite_keeps
    | apply State.indexWrite_keeps
    | apply State.pairWrite_keeps
    | (refine Keeps.ofEq (by assumption) ?_)
    | apply Keeps.ite
    | apply Keeps.foldl
    | apply Keeps.foldlFst
    | apply Keeps.setReg
    | simp only [Keeps.mk_iff]
    | simp only [Keeps.mkVlt_iff]
    | split)
  all_goals first
    | exact id
    | (intro _ hq; exact hq)
    | (intro _; rfl)
    | (intro _ hq; simp [hq]; done)
    | (intro hq; simp [hq]; done)
    | (simp_all; done)
    | (simp; done)

theorem State.pathRead_keeps {s0 : State} {s : State} {p : Path} {off : BitVec 7} (hk : Keeps s0 s) :
    Keeps s0 (State.pathRead s p off) := by
  unfold State.pathRead
  try dsimp only
  repeat' (with_reducible first
    | assumption
    | exact Keeps.refl _
    | intro _
    | apply State.readPath_keeps
    | (refine Keeps.ofEq (by assumption) ?_)
    | apply Keeps.ite
    | apply Keeps.foldl
    | apply Keeps.foldlFst
    | apply Keeps.setReg
    | simp only [Keeps.mk_iff]
    | simp only [Keeps.mkVlt_iff]
    | split)
  all_goals first
    | exact id
    | (intro _ hq; exact hq)
    | (intro _; rfl)
    | (intro _ hq; simp [hq]; done)
    | (intro hq; simp [hq]; done)
    | (simp_all; done)
    | (simp; done)

end Sys2Proof.Machine
end

