-- ==== Sys2Proof/Laws/KeepsRecover.lean ====
section
/-! SUPPORT. Every operation of Machine/Recover.lean keeps the queue and the shape of the state. -/

namespace Sys2Proof.Machine

theorem VltState.scan_kept {v : VltState}  (h : v.Kept) :
    (v.scan).Kept := h


theorem VltState.resume_kept {v : VltState} {es : List (Nat × List Byte)} {l : List VEntry} (h : v.Kept) :
    (v.resume es l).Kept := by
  unfold VltState.resume
  exact VltState.journal_kept (VltState.place_kept h)


theorem VltState.voidNext_kept {v : VltState}  (h : v.Kept) :
    (v.voidNext).Kept := VltState.program_kept h


theorem zeroCells_kept {v : VltState} {l : List Nat} (h : v.Kept) : (l.foldl (fun u a => u.putOwn a [0, 0]) v).Kept := by
  induction l generalizing v with
  | nil => exact h
  | cons a l ih => exact ih (VltState.putOwn_kept h)


theorem VltState.hatCells_kept {v : VltState} {l : List Nat} (h : v.Kept) :
    (v.hatCells l).Kept := by
  unfold VltState.hatCells
  dsimp only
  split <;> split <;> first | exact zeroCells_kept h | exact h


theorem VltState.hatMend_kept {v : VltState} {l : List Nat} (h : v.Kept) :
    (v.hatMend l).Kept := by
  have hc := VltState.hatCells_kept (l := l) h
  unfold VltState.hatMend
  generalize v.hatCells l = w at hc ⊢
  dsimp only
  split
  · split
    · exact VltState.hatHead_kept hc
    · exact hc
  · exact hc


theorem VltState.hatNew_kept {v : VltState}  (h : v.Kept) :
    (v.hatNew).Kept := VltState.heldAll_kept (VltState.hatHead_kept (VltState.putOwn_kept h))


theorem State.modCmd_keeps {s0 : State} {s : State} {f : CmdState → CmdState} (hk : Keeps s0 s) :
    Keeps s0 (State.modCmd s f) := by
  unfold State.modCmd
  try dsimp only
  repeat' (with_reducible first
    | assumption
    | exact Keeps.refl _
    | intro _
    | (refine Keeps.ofEq (by assumption) ?_)
    | apply Keeps.ite
    | apply Keeps.foldl
    | apply Keeps.foldlFst
    | apply Keeps.setReg
    | simp only [Keeps.mk_iff]
    | simp only [Keeps.mkVlt_iff]
    | split)
  all_goals first
    | exact id
    | (intro _ hq; exact hq)
    | (intro _; rfl)
    | (intro _ hq; simp [hq]; done)
    | (intro hq; simp [hq]; done)
    | (simp_all; done)
    | (simp; done)

theorem State.bxferLoad_keeps {s0 : State} {s : State} {l : List Byte} (hk : Keeps s0 s) :
    Keeps s0 (State.bxferLoad s l) := by
  unfold State.bxferLoad
  try dsimp only
  repeat' (with_reducible first
    | assumption
    | exact Keeps.refl _
    | intro _
    | apply State.setFld_keeps
    | apply State.setPair_keeps
    | apply State.modCmd_keeps
    | (refine Keeps.ofEq (by assumption) ?_)
    | apply Keeps.ite
    | apply Keeps.foldl
    | apply Keeps.foldlFst
    | apply Keeps.setReg
    | simp only [Keeps.mk_iff]
    | simp only [Keeps.mkVlt_iff]
    | split)
  all_goals first
    | exact id
    | (intro _ hq; exact hq)
    | (intro _; rfl)
    | (intro _ hq; simp [hq]; done)
    | (intro hq; simp [hq]; done)
    | (simp_all; done)
    | (simp; done)

theorem State.bxferPut_keeps {s0 : State} {s : State} (hk : Keeps s0 s) :
    Keeps s0 (State.bxferPut s) := by
  unfold State.bxferPut
  try dsimp only
  repeat' (with_reducible first
    | assumption
    | exact Keeps.refl _
    | intro _
    | apply Keeps.modVlt
    | apply State.vRecord_keeps
    | (refine Keeps.ofEq (by assumption) ?_)
    | apply Keeps.ite
    | apply Keeps.foldl
    | apply Keeps.foldlFst
    | apply Keeps.setReg
    | simp only [Keeps.mk_iff]
    | simp only [Keeps.mkVlt_iff]
    | split)
  all_goals first
    | exact id
    | (intro _ hq; exact hq)
    | (intro _; rfl)
    | (intro _ hq; simp [hq]; done)
    | (intro hq; simp [hq]; done)
    | (simp_all; done)
    | (simp; done)

theorem State.bxferIdle_keeps {s0 : State} {s : State} (hk : Keeps s0 s) :
    Keeps s0 (State.bxferIdle s) := by
  unfold State.bxferIdle
  try dsimp only
  repeat' (with_reducible first
    | assumption
    | exact Keeps.refl _
    | intro _
    | apply State.setFld_keeps
    | apply State.setPair_keeps
    | apply State.modCmd_keeps
    | apply State.bxferPut_keeps
    | (refine Keeps.ofEq (by assumption) ?_)
    | apply Keeps.ite
    | apply Keeps.foldl
    | apply Keeps.foldlFst
    | apply Keeps.setReg
    | simp only [Keeps.mk_iff]
    | simp only [Keeps.mkVlt_iff]
    | split)
  all_goals first
    | exact id
    | (intro _ hq; exact hq)
    | (intro _; rfl)
    | (intro _ hq; simp [hq]; done)
    | (intro hq; simp [hq]; done)
    | (simp_all; done)
    | (simp; done)

theorem State.recoverCommit_keeps {s0 : State} {s : State} {n : Nat} (hk : Keeps s0 s) :
    Keeps s0 (State.recoverCommit s n) := by
  unfold State.recoverCommit
  try dsimp only
  repeat' (with_reducible first
    | assumption
    | exact Keeps.refl _
    | intro _
    | apply State.setFld_keeps
    | apply State.post_keeps
    | apply Keeps.modVlt
    | apply State.slotsDone_keeps
    | apply VltState.resume_kept
    | (refine Keeps.ofEq (by assumption) ?_)
    | apply Keeps.ite
    | apply Keeps.foldl
    | apply Keeps.foldlFst
    | apply Keeps.setReg
    | simp only [Keeps.mk_iff]
    | simp only [Keeps.mkVlt_iff]
    | split)
  all_goals first
    | exact id
    | (intro _ hq; exact hq)
    | (intro _; rfl)
    | (intro _ hq; simp [hq]; done)
    | (intro hq; simp [hq]; done)
    | (simp_all; done)
    | (simp; done)

theorem State.rollBack_keeps {s0 : State} {s : State} (hk : Keeps s0 s) :
    Keeps s0 (State.rollBack s) := by
  unfold State.rollBack
  try dsimp only
  repeat' (with_reducible first
    | assumption
    | exact Keeps.refl _
    | intro _
    | apply State.setFld_keeps
    | apply State.post_keeps
    | apply Keeps.modVlt
    | apply State.vStick_keeps
    | apply State.cutAt_keeps
    | apply VltState.orphan_kept
    | apply VltState.voidNext_kept
    | (refine Keeps.ofEq (by assumption) ?_)
    | apply Keeps.ite
    | apply Keeps.foldl
    | apply Keeps.foldlFst
    | apply Keeps.setReg
    | simp only [Keeps.mk_iff]
    | simp only [Keeps.mkVlt_iff]
    | split)
  all_goals first
    | exact id
    | (intro _ hq; exact hq)
    | (intro _; rfl)
    | (intro _ hq; simp [hq]; done)
    | (intro hq; simp [hq]; done)
    | (simp_all; done)
    | (simp; done)

theorem State.settleBank_keeps {s0 : State} {s : State} {cfg : Bool} (hk : Keeps s0 s) :
    Keeps s0 (State.settleBank s cfg) := by
  unfold State.settleBank
  try dsimp only
  repeat' (with_reducible first
    | assumption
    | exact Keeps.refl _
    | intro _
    | apply State.setFld_keeps
    | apply State.setFlag_keeps
    | apply State.vIntegrity_keeps
    | (refine Keeps.ofEq (by assumption) ?_)
    | apply Keeps.ite
    | apply Keeps.foldl
    | apply Keeps.foldlFst
    | apply Keeps.setReg
    | simp only [Keeps.mk_iff]
    | simp only [Keeps.mkVlt_iff]
    | split)
  all_goals first
    | exact id
    | (intro _ hq; exact hq)
    | (intro _; rfl)
    | (intro _ hq; simp [hq]; done)
    | (intro hq; simp [hq]; done)
    | (simp_all; done)
    | (simp; done)

theorem State.hatRepair_keeps {s0 : State} {s : State} (hk : Keeps s0 s) :
    Keeps s0 (State.hatRepair s) := by
  unfold State.hatRepair
  try dsimp only
  repeat' (with_reducible first
    | assumption
    | exact Keeps.refl _
    | intro _
    | apply State.post_keeps
    | apply Keeps.modVlt
    | apply State.vStick_keeps
    | apply State.vIntegrity_keeps
    | apply VltState.hatFlush_kept
    | apply VltState.hatMend_kept
    | apply VltState.hatNew_kept
    | (refine Keeps.ofEq (by assumption) ?_)
    | apply Keeps.ite
    | apply Keeps.foldl
    | apply Keeps.foldlFst
    | apply Keeps.setReg
    | simp only [Keeps.mk_iff]
    | simp only [Keeps.mkVlt_iff]
    | split)
  all_goals first
    | exact id
    | (intro _ hq; exact hq)
    | (intro _; rfl)
    | (intro _ hq; simp [hq]; done)
    | (intro hq; simp [hq]; done)
    | (simp_all; done)
    | (simp; done)

theorem State.scrServe_keeps {s0 : State} {s : State} (hk : Keeps s0 s) :
    Keeps s0 (State.scrServe s) := by
  unfold State.scrServe
  try dsimp only
  repeat' (with_reducible first
    | assumption
    | exact Keeps.refl _
    | intro _
    | apply Keeps.modVlt
    | apply VltState.apply_kept
    | (refine Keeps.ofEq (by assumption) ?_)
    | apply Keeps.ite
    | apply Keeps.foldl
    | apply Keeps.foldlFst
    | apply Keeps.setReg
    | simp only [Keeps.mk_iff]
    | simp only [Keeps.mkVlt_iff]
    | split)
  all_goals first
    | exact id
    | (intro _ hq; exact hq)
    | (intro _; rfl)
    | (intro _ hq; simp [hq]; done)
    | (intro hq; simp [hq]; done)
    | (simp_all; done)
    | (simp; done)

theorem State.retentionLost_keeps {s0 : State} {s : State} {kept : Bool} (hk : Keeps s0 s) :
    Keeps s0 (State.retentionLost s kept) := by
  unfold State.retentionLost
  try dsimp only
  repeat' (with_reducible first
    | assumption
    | exact Keeps.refl _
    | intro _
    | apply State.setFlag_keeps
    | apply State.post_keeps
    | apply Keeps.modVlt
    | apply State.bxferLoad_keeps
    | apply State.bxferPut_keeps
    | apply VltState.journal_kept
    | (refine Keeps.ofEq (by assumption) ?_)
    | apply Keeps.ite
    | apply Keeps.foldl
    | apply Keeps.foldlFst
    | apply Keeps.setReg
    | simp only [Keeps.mk_iff]
    | simp only [Keeps.mkVlt_iff]
    | split)
  all_goals first
    | exact id
    | (intro _ hq; exact hq)
    | (intro _; rfl)
    | (intro _ hq; simp [hq]; done)
    | (intro hq; simp [hq]; done)
    | (simp_all; done)
    | (simp; done)

theorem State.windowsLoad_keeps {s0 : State} {s : State} {kept : Bool} (hk : Keeps s0 s) :
    Keeps s0 (State.windowsLoad s kept) := by
  unfold State.windowsLoad
  try dsimp only
  repeat' (with_reducible first
    | assumption
    | exact Keeps.refl _
    | intro _
    | apply State.modSec_keeps
    | (refine Keeps.ofEq (by assumption) ?_)
    | apply Keeps.ite
    | apply Keeps.foldl
    | apply Keeps.foldlFst
    | apply Keeps.setReg
    | simp only [Keeps.mk_iff]
    | simp only [Keeps.mkVlt_iff]
    | split)
  all_goals first
    | exact id
    | (intro _ hq; exact hq)
    | (intro _; rfl)
    | (intro _ hq; simp [hq]; done)
    | (intro hq; simp [hq]; done)
    | (simp_all; done)
    | (simp; done)

theorem State.stressLoad_keeps {s0 : State} {s : State} (hk : Keeps s0 s) :
    Keeps s0 (State.stressLoad s) := by
  unfold State.stressLoad
  try dsimp only
  repeat' (with_reducible first
    | assumption
    | exact Keeps.refl _
    | intro _
    | apply Keeps.forChans
    | apply State.stressTake_keeps
    | (refine Keeps.ofEq (by assumption) ?_)
    | apply Keeps.ite
    | apply Keeps.foldl
    | apply Keeps.foldlFst
    | apply Keeps.setReg
    | simp only [Keeps.mk_iff]
    | simp only [Keeps.mkVlt_iff]
    | split)
  all_goals first
    | exact id
    | (intro _ hq; exact hq)
    | (intro _; rfl)
    | (intro _ hq; simp [hq]; done)
    | (intro hq; simp [hq]; done)
    | (simp_all; done)
    | (simp; done)

theorem State.recover_keeps {s0 : State} {s : State} (hk : Keeps s0 s) :
    Keeps s0 (State.recover s) := by
  unfold State.recover
  try dsimp only
  repeat' (with_reducible first
    | assumption
    | exact Keeps.refl _
    | intro _
    | apply Keeps.setReg
    | apply Keeps.modVlt
    | apply State.modKeep_keeps
    | apply State.legJudge_keeps
    | apply State.recStart_keeps
    | apply State.modSec_keeps
    | apply State.fcEpoch_keeps
    | apply State.modPwr_keeps
    | apply State.wipeSlots_keeps
    | apply State.recoverCommit_keeps
    | apply State.rollBack_keeps
    | apply State.settleBank_keeps
    | apply State.hatRepair_keeps
    | apply State.scrServe_keeps
    | apply State.retentionLost_keeps
    | apply State.windowsLoad_keeps
    | apply State.stressLoad_keeps
    | apply VltState.scan_kept
    | (refine Keeps.ofEq (by assumption) ?_)
    | apply Keeps.ite
    | apply Keeps.foldl
    | apply Keeps.foldlFst
    | apply Keeps.setReg
    | simp only [Keeps.mk_iff]
    | simp only [Keeps.mkVlt_iff]
    | split)
  all_goals first
    | exact id
    | (intro _ hq; exact hq)
    | (intro _; rfl)
    | (intro _ hq; simp [hq]; done)
    | (intro hq; simp [hq]; done)
    | (simp_all; done)
    | (simp; done)

theorem State.tablesLoad_keeps {s0 : State} {s : State} {l : List (Nat × List Word)} (hk : Keeps s0 s) :
    Keeps s0 (State.tablesLoad s l) := by
  unfold State.tablesLoad
  try dsimp only
  repeat' (with_reducible first
    | assumption
    | exact Keeps.refl _
    | intro _
    | apply Keeps.modHlt
    | apply State.modLmp_keeps
    | apply Keeps.modFde
    | (refine Keeps.ofEq (by assumption) ?_)
    | apply Keeps.ite
    | apply Keeps.foldl
    | apply Keeps.foldlFst
    | apply Keeps.setReg
    | simp only [Keeps.mk_iff]
    | simp only [Keeps.mkVlt_iff]
    | split)
  all_goals first
    | exact id
    | (intro _ hq; exact hq)
    | (intro _; rfl)
    | (intro _ hq; simp [hq]; done)
    | (intro hq; simp [hq]; done)
    | (simp_all; done)
    | (simp; done)

theorem State.replayEntry1_keeps {s0 : State} {s : State} {e : Nat × Word} (hk : Keeps s0 s) :
    Keeps s0 (State.replayEntry1 s e) := by
  unfold State.replayEntry1
  try dsimp only
  repeat' (with_reducible first
    | assumption
    | exact Keeps.refl _
    | intro _
    | apply Keeps.setReg
    | apply State.setFld_keeps
    | apply State.modPath_keeps
    | apply State.setShort_keeps
    | apply State.relayTier_keeps
    | apply State.writeReg_keeps
    | (refine Keeps.ofEq (by assumption) ?_)
    | apply Keeps.ite
    | apply Keeps.foldl
    | apply Keeps.foldlFst
    | apply Keeps.setReg
    | simp only [Keeps.mk_iff]
    | simp only [Keeps.mkVlt_iff]
    | split)
  all_goals first
    | exact id
    | (intro _ hq; exact hq)
    | (intro _; rfl)
    | (intro _ hq; simp [hq]; done)
    | (intro hq; simp [hq]; done)
    | (simp_all; done)
    | (simp; done)

theorem State.replayCfg_keeps {s0 : State} {s : State} {l : List (Nat × Word)} (hk : Keeps s0 s) :
    Keeps s0 (State.replayCfg s l) := by
  unfold State.replayCfg
  try dsimp only
  repeat' (with_reducible first
    | assumption
    | exact Keeps.refl _
    | intro _
    | apply Keeps.setReg
    | apply Keeps.modVlt
    | apply State.replayEntry1_keeps
    | (refine Keeps.ofEq (by assumption) ?_)
    | apply Keeps.ite
    | apply Keeps.foldl
    | apply Keeps.foldlFst
    | apply Keeps.setReg
    | simp only [Keeps.mk_iff]
    | simp only [Keeps.mkVlt_iff]
    | split)
  all_goals first
    | exact id
    | (intro _ hq; exact hq)
    | (intro _; rfl)
    | (intro _ hq; simp [hq]; done)
    | (intro hq; simp [hq]; done)
    | (simp_all; done)
    | (simp; done)

theorem State.modelsLoad_keeps {s0 : State} {s : State} (hk : Keeps s0 s) :
    Keeps s0 (State.modelsLoad s) := by
  unfold State.modelsLoad
  try dsimp only
  repeat' (with_reducible first
    | assumption
    | exact Keeps.refl _
    | intro _
    | apply State.modelTake_keeps
    | (refine Keeps.ofEq (by assumption) ?_)
    | apply Keeps.ite
    | apply Keeps.foldl
    | apply Keeps.foldlFst
    | apply Keeps.setReg
    | simp only [Keeps.mk_iff]
    | simp only [Keeps.mkVlt_iff]
    | split)
  all_goals first
    | exact id
    | (intro _ hq; exact hq)
    | (intro _; rfl)
    | (intro _ hq; simp [hq]; done)
    | (intro hq; simp [hq]; done)
    | (simp_all; done)
    | (simp; done)

theorem State.phyLoad_keeps {s0 : State} {s : State} (hk : Keeps s0 s) :
    Keeps s0 (State.phyLoad s) := by
  unfold State.phyLoad
  try dsimp only
  repeat' (with_reducible first
    | assumption
    | exact Keeps.refl _
    | intro _
    | apply State.modPhy_keeps
    | (refine Keeps.ofEq (by assumption) ?_)
    | apply Keeps.ite
    | apply Keeps.foldl
    | apply Keeps.foldlFst
    | apply Keeps.setReg
    | simp only [Keeps.mk_iff]
    | simp only [Keeps.mkVlt_iff]
    | split)
  all_goals first
    | exact id
    | (intro _ hq; exact hq)
    | (intro _; rfl)
    | (intro _ hq; simp [hq]; done)
    | (intro hq; simp [hq]; done)
    | (simp_all; done)
    | (simp; done)

theorem State.vaultResume_keeps {s0 : State} {s : State} (hk : Keeps s0 s) :
    Keeps s0 (State.vaultResume s) := by
  unfold State.vaultResume
  try dsimp only
  repeat' (with_reducible first
    | assumption
    | exact Keeps.refl _
    | intro _
    | apply State.compactDue_keeps
    | apply State.commitStart_keeps
    | apply State.vKick_keeps
    | apply State.foldStart_keeps
    | (refine Keeps.ofEq (by assumption) ?_)
    | apply Keeps.ite
    | apply Keeps.foldl
    | apply Keeps.foldlFst
    | apply Keeps.setReg
    | simp only [Keeps.mk_iff]
    | simp only [Keeps.mkVlt_iff]
    | split)
  all_goals first
    | exact id
    | (intro _ hq; exact hq)
    | (intro _; rfl)
    | (intro _ hq; simp [hq]; done)
    | (intro hq; simp [hq]; done)
    | (simp_all; done)
    | (simp; done)

theorem State.replay_keeps {s0 : State} {s : State} (hk : Keeps s0 s) :
    Keeps s0 (State.replay s) := by
  unfold State.replay
  try dsimp only
  repeat' (with_reducible first
    | assumption
    | exact Keeps.refl _
    | intro _
    | apply Keeps.setReg
    | apply State.setFlag_keeps
    | apply State.modKeep_keeps
    | apply State.gtuReplay_keeps
    | apply State.modSec_keeps
    | apply State.dirSet_keeps
    | apply State.seqStart_keeps
    | apply State.modPwr_keeps
    | apply State.tablesLoad_keeps
    | apply State.replayCfg_keeps
    | apply State.modelsLoad_keeps
    | apply State.phyLoad_keeps
    | apply State.vaultResume_keeps
    | (refine Keeps.ofEq (by assumption) ?_)
    | apply Keeps.ite
    | apply Keeps.foldl
    | apply Keeps.foldlFst
    | apply Keeps.setReg
    | simp only [Keeps.mk_iff]
    | simp only [Keeps.mkVlt_iff]
    | split)
  all_goals first
    | exact id
    | (intro _ hq; exact hq)
    | (intro _; rfl)
    | (intro _ hq; simp [hq]; done)
    | (intro hq; simp [hq]; done)
    | (simp_all; done)
    | (simp; done)

theorem State.engineRestart_keeps {s0 : State} {s : State} {e : Engine} (hk : Keeps s0 s) :
    Keeps s0 (State.engineRestart s e) := by
  unfold State.engineRestart
  try dsimp only
  repeat' (with_reducible first
    | assumption
    | exact Keeps.refl _
    | intro _
    | apply Keeps.modVlt
    | apply State.vKick_keeps
    | apply State.foldStart_keeps
    | apply Keeps.modPwm
    | apply Keeps.modHlt
    | apply State.modLmp_keeps
    | apply Keeps.modFde
    | apply State.proofAllOff_keeps
    | apply State.modSec_keeps
    | apply State.modMac_keeps
    | apply State.ackNone_keeps
    | apply State.lineAbandon_keeps
    | apply State.vaultCut_keeps
    | apply State.hatRepair_keeps
    | apply State.scrServe_keeps
    | apply State.alarms_keeps
    | (refine Keeps.ofEq (by assumption) ?_)
    | apply Keeps.ite
    | apply Keeps.foldl
    | apply Keeps.foldlFst
    | apply Keeps.setReg
    | simp only [Keeps.mk_iff]
    | simp only [Keeps.mkVlt_iff]
    | split
    | (unfold FdeState.restart; dsimp only; simpa))
  all_goals first
    | exact id
    | (intro _ hq; exact hq)
    | (intro _; rfl)
    | (intro _ hq; simp [hq]; done)
    | (intro hq; simp [hq]; done)
    | (simp_all; done)
    | (simp; done)

end Sys2Proof.Machine
end

