-- ==== Sys2Proof/Laws/KeepsCmd.lean ====
section
/-! SUPPORT. Every operation of Machine/Cmd.lean keeps the queue and the shape of the state. -/

namespace Sys2Proof.Machine

theorem State.cmdStick_keeps {s0 : State} {s : State} {f : Fld} (hk : Keeps s0 s) :
    Keeps s0 (State.cmdStick s f) := by
  unfold State.cmdStick
  try dsimp only
  repeat' (with_reducible first
    | assumption
    | exact Keeps.refl _
    | intro _
    | apply State.stick_keeps
    | (refine Keeps.ofEq (by assumption) ?_)
    | apply Keeps.ite
    | apply Keeps.foldl
    | apply Keeps.foldlFst
    | apply Keeps.setReg
    | simp only [Keeps.mk_iff]
    | simp only [Keeps.mkVlt_iff]
    | split)
  all_goals first
    | exact id
    | (intro _ hq; exact hq)
    | (intro _; rfl)
    | (intro _ hq; simp [hq]; done)
    | (intro hq; simp [hq]; done)
    | (simp_all; done)
    | (simp; done)

theorem State.respond_keeps {s0 : State} {s : State} {r : Reply} {code : Nat} {data : List Byte} {after : Nat} {arg : Nat} (hk : Keeps s0 s) :
    Keeps s0 (State.respond s r code data after arg) := by
  unfold State.respond
  try dsimp only
  repeat' (with_reducible first
    | assumption
    | exact Keeps.refl _
    | intro _
    | apply State.ringAdd_keeps
    | apply State.ringIn_keeps
    | (apply State.originate_keeps)
    | apply State.leftQ2_keeps
    | (refine Keeps.ofEq (by assumption) ?_)
    | apply Keeps.ite
    | apply Keeps.foldl
    | apply Keeps.foldlFst
    | apply Keeps.setReg
    | simp only [Keeps.mk_iff]
    | simp only [Keeps.mkVlt_iff]
    | split)
  all_goals first
    | exact id
    | (intro _ hq; exact hq)
    | (intro _; rfl)
    | (intro _ hq; simp [hq]; done)
    | (intro hq; simp [hq]; done)
    | (simp_all; done)
    | (simp; done)

theorem State.cmdFinish_keeps {s0 : State} {s : State} {r : Reply} {code : Nat} {data : List Byte} {after : Nat} {arg : Nat} (hk : Keeps s0 s) :
    Keeps s0 (State.cmdFinish s r code data after arg) := by
  unfold State.cmdFinish
  try dsimp only
  repeat' (with_reducible first
    | assumption
    | exact Keeps.refl _
    | intro _
    | apply State.setFld_keeps
    | apply State.incReg_keeps
    | apply State.post_keeps
    | apply State.cmdStick_keeps
    | apply State.respond_keeps
    | (refine Keeps.ofEq (by assumption) ?_)
    | apply Keeps.ite
    | apply Keeps.foldl
    | apply Keeps.foldlFst
    | apply Keeps.setReg
    | simp only [Keeps.mk_iff]
    | simp only [Keeps.mkVlt_iff]
    | split)
  all_goals first
    | exact id
    | (intro _ hq; exact hq)
    | (intro _; rfl)
    | (intro _ hq; simp [hq]; done)
    | (intro hq; simp [hq]; done)
    | (simp_all; done)
    | (simp; done)

theorem refuse_keeps {s0 : State} {s : State} {code : Nat} (hk : Keeps s0 s) :
    Keeps s0 (refuse s code).s := by
  unfold refuse
  try dsimp only
  repeat' (with_reducible first
    | assumption
    | exact Keeps.refl _
    | intro _
    | dsimp only
    | (refine Keeps.ofEq (by assumption) ?_)
    | apply Keeps.ite
    | apply Keeps.foldl
    | apply Keeps.foldlFst
    | apply Keeps.setReg
    | simp only [Keeps.mk_iff]
    | simp only [Keeps.mkVlt_iff]
    | split)
  all_goals first
    | exact id
    | (intro _ hq; exact hq)
    | (intro _; rfl)
    | (intro _ hq; simp [hq]; done)
    | (intro hq; simp [hq]; done)
    | (simp_all; done)
    | (simp; done)

theorem sized_keeps {s0 s : State} {a : List Byte} {n : Nat} {k : CmdOut} (hk : Keeps s0 s) (ho : Keeps s0 k.s) :
    Keeps s0 (sized s a n k).s := by
  unfold sized
  split
  · exact ho
  · exact hk

theorem State.remoteWrite_keeps {s0 : State} {s : State} {page : Nat} {off : Nat} {v : Word} (hk : Keeps s0 s) :
    Keeps s0 (State.remoteWrite s page off v) := by
  unfold State.remoteWrite
  try dsimp only
  repeat' (with_reducible first
    | assumption
    | exact Keeps.refl _
    | intro _
    | apply State.modPath_keeps
    | apply State.writeReg_keeps
    | (refine Keeps.ofEq (by assumption) ?_)
    | apply Keeps.ite
    | apply Keeps.foldl
    | apply Keeps.foldlFst
    | apply Keeps.setReg
    | simp only [Keeps.mk_iff]
    | simp only [Keeps.mkVlt_iff]
    | split)
  all_goals first
    | exact id
    | (intro _ hq; exact hq)
    | (intro _; rfl)
    | (intro _ hq; simp [hq]; done)
    | (intro hq; simp [hq]; done)
    | (simp_all; done)
    | (simp; done)

theorem State.openBurst_keeps {s0 : State} {s : State} {f : State → State} (hk : Keeps s0 s) (hf : ∀ u0, Keeps s0 u0 → Keeps s0 (f u0)) :
    Keeps s0 (State.openBurst s f) := by
  unfold State.openBurst
  try dsimp only
  repeat' (with_reducible first
    | assumption
    | exact Keeps.refl _
    | intro _
    | apply State.modPath_keeps
    | apply hf
    | (refine Keeps.ofEq (by assumption) ?_)
    | apply Keeps.ite
    | apply Keeps.foldl
    | apply Keeps.foldlFst
    | apply Keeps.setReg
    | simp only [Keeps.mk_iff]
    | simp only [Keeps.mkVlt_iff]
    | split)
  all_goals first
    | exact id
    | (intro _ hq; exact hq)
    | (intro _; rfl)
    | (intro _ hq; simp [hq]; done)
    | (intro hq; simp [hq]; done)
    | (simp_all; done)
    | (simp; done)

theorem State.tabWord_keeps {s0 : State} {s : State} {page : Nat} {w : Word} (hk : Keeps s0 s) :
    Keeps s0 (State.tabWord s page w) := by
  unfold State.tabWord
  try dsimp only
  repeat' (with_reducible first
    | assumption
    | exact Keeps.refl _
    | intro _
    | apply State.modPath_keeps
    | apply State.lmpPut_keeps
    | apply State.fdePut_keeps
    | apply State.hltPut_keeps
    | apply State.portStep_keeps
    | (refine Keeps.ofEq (by assumption) ?_)
    | apply Keeps.ite
    | apply Keeps.foldl
    | apply Keeps.foldlFst
    | apply Keeps.setReg
    | simp only [Keeps.mk_iff]
    | simp only [Keeps.mkVlt_iff]
    | split)
  all_goals first
    | exact id
    | (intro _ hq; exact hq)
    | (intro _; rfl)
    | (intro _ hq; simp [hq]; done)
    | (intro hq; simp [hq]; done)
    | (simp_all; done)
    | (simp; done)

theorem State.tabBurst_keeps {s0 : State} {s : State} (hk : Keeps s0 s) :
    Keeps s0 (State.tabBurst s) := by
  unfold State.tabBurst
  try dsimp only
  repeat' (with_reducible first
    | assumption
    | exact Keeps.refl _
    | intro _
    | apply State.cmdFinish_keeps
    | apply State.openBurst_keeps
    | apply State.tabWord_keeps
    | (refine Keeps.ofEq (by assumption) ?_)
    | apply Keeps.ite
    | apply Keeps.foldl
    | apply Keeps.foldlFst
    | apply Keeps.setReg
    | simp only [Keeps.mk_iff]
    | simp only [Keeps.mkVlt_iff]
    | split)
  all_goals first
    | exact id
    | (intro _ hq; exact hq)
    | (intro _; rfl)
    | (intro _ hq; simp [hq]; done)
    | (intro hq; simp [hq]; done)
    | (simp_all; done)
    | (simp; done)

theorem State.tabFlush_keeps {s0 : State} {s : State} (hk : Keeps s0 s) :
    Keeps s0 (State.tabFlush s) := by
  unfold State.tabFlush
  try dsimp only
  repeat' (with_reducible first
    | assumption
    | exact Keeps.refl _
    | intro _
    | apply State.tabBurst_keeps
    | (refine Keeps.ofEq (by assumption) ?_)
    | apply Keeps.ite
    | apply Keeps.foldl
    | apply Keeps.foldlFst
    | apply Keeps.setReg
    | simp only [Keeps.mk_iff]
    | simp only [Keeps.mkVlt_iff]
    | split)
  all_goals first
    | exact id
    | (intro _ hq; exact hq)
    | (intro _; rfl)
    | (intro _ hq; simp [hq]; done)
    | (intro hq; simp [hq]; done)
    | (simp_all; done)
    | (simp; done)

theorem State.refuseUndefined_keeps {s0 : State} {s : State} (hk : Keeps s0 s) :
    Keeps s0 (State.refuseUndefined s) := by
  unfold State.refuseUndefined
  try dsimp only
  repeat' (with_reducible first
    | assumption
    | exact Keeps.refl _
    | intro _
    | apply State.setFld_keeps
    | apply State.incReg_keeps
    | apply State.setRing_keeps
    | apply State.cmdFinish_keeps
    | (refine Keeps.ofEq (by assumption) ?_)
    | apply Keeps.ite
    | apply Keeps.foldl
    | apply Keeps.foldlFst
    | apply Keeps.setReg
    | simp only [Keeps.mk_iff]
    | simp only [Keeps.mkVlt_iff]
    | split)
  all_goals first
    | exact id
    | (intro _ hq; exact hq)
    | (intro _; rfl)
    | (intro _ hq; simp [hq]; done)
    | (intro hq; simp [hq]; done)
    | (simp_all; done)
    | (simp; done)

theorem State.refuseAhead_keeps {s0 s : State} {n : Nat} (hk : Keeps s0 s) : Keeps s0 (State.refuseAhead n s) := by
  induction n generalizing s with
  | zero => exact hk
  | succ n ih => exact ih (State.refuseUndefined_keeps hk)

theorem State.takeFrame_keeps {s0 : State} {s : State} {opc : Nat} {f : LineFrame} (hk : Keeps s0 s) :
    Keeps s0 (State.takeFrame s opc f).1 := by
  unfold State.takeFrame
  try dsimp only
  repeat' (with_reducible first
    | assumption
    | exact Keeps.refl _
    | intro _
    | apply State.setRing_keeps
    | apply State.refuseAhead_keeps
    | (refine Keeps.ofEq (by assumption) ?_)
    | apply Keeps.ite
    | apply Keeps.foldl
    | apply Keeps.foldlFst
    | apply Keeps.setReg
    | simp only [Keeps.mk_iff]
    | simp only [Keeps.mkVlt_iff]
    | split)
  all_goals first
    | exact id
    | (intro _ hq; exact hq)
    | (intro _; rfl)
    | (intro _ hq; simp [hq]; done)
    | (intro hq; simp [hq]; done)
    | (simp_all; done)
    | (simp; done)

theorem State.lineCmd_keeps {s0 : State} {s : State} {opc : Nat} {cls : List Nat} {head : Bool} {plain : Bool} {f : LineFrame} {body : State → Reply → List Byte → CmdOut} (hk : Keeps s0 s) (hbody : ∀ u r a, Keeps s0 u → Keeps s0 (body u r a).s) :
    Keeps s0 (State.lineCmd s opc cls head plain f body) := by
  unfold State.lineCmd
  try dsimp only
  repeat' (with_reducible first
    | assumption
    | exact Keeps.refl _
    | intro _
    | apply State.setFld_keeps
    | apply State.incReg_keeps
    | apply State.cmdFinish_keeps
    | apply State.tabFlush_keeps
    | (apply State.takeFrame_keeps)
    | apply hbody
    | dsimp only
    | (refine Keeps.ofEq (by assumption) ?_)
    | apply Keeps.ite
    | apply Keeps.foldl
    | apply Keeps.foldlFst
    | apply Keeps.setReg
    | simp only [Keeps.mk_iff]
    | simp only [Keeps.mkVlt_iff]
    | split)
  all_goals first
    | exact id
    | (intro _ hq; exact hq)
    | (intro _; rfl)
    | (intro _ hq; simp [hq]; done)
    | (intro hq; simp [hq]; done)
    | (simp_all; done)
    | (simp; done)

theorem setLine_keeps {s0 : State} {kind : Nat} {s : State} {r : Reply} {a : List Byte} (hk : Keeps s0 s) :
    Keeps s0 (setLine kind s r a).s := by
  unfold setLine
  try dsimp only
  repeat' (with_reducible first
    | assumption
    | exact Keeps.refl _
    | intro _
    | apply State.request_keeps
    | apply refuse_keeps
    | apply sized_keeps
    | dsimp only
    | (refine Keeps.ofEq (by assumption) ?_)
    | apply Keeps.ite
    | apply Keeps.foldl
    | apply Keeps.foldlFst
    | apply Keeps.setReg
    | simp only [Keeps.mk_iff]
    | simp only [Keeps.mkVlt_iff]
    | split)
  all_goals first
    | exact id
    | (intro _ hq; exact hq)
    | (intro _; rfl)
    | (intro _ hq; simp [hq]; done)
    | (intro hq; simp [hq]; done)
    | (simp_all; done)
    | (simp; done)

theorem plateLine_keeps {s0 : State} {kind : Nat} {s : State} {r : Reply} {a : List Byte} (hk : Keeps s0 s) :
    Keeps s0 (plateLine kind s r a).s := by
  unfold plateLine
  try dsimp only
  repeat' (with_reducible first
    | assumption
    | exact Keeps.refl _
    | intro _
    | apply State.request_keeps
    | apply refuse_keeps
    | apply sized_keeps
    | apply VltState.hold_kept
    | dsimp only
    | (refine Keeps.ofEq (by assumption) ?_)
    | apply Keeps.ite
    | apply Keeps.foldl
    | apply Keeps.foldlFst
    | apply Keeps.setReg
    | simp only [Keeps.mk_iff]
    | simp only [Keeps.mkVlt_iff]
    | split)
  all_goals first
    | exact id
    | (intro _ hq; exact hq)
    | (intro _; rfl)
    | (intro _ hq; simp [hq]; done)
    | (intro hq; simp [hq]; done)
    | (simp_all; done)
    | (simp; done)

theorem releaseLine_keeps {s0 : State} {s : State} {r : Reply} {a : List Byte} (hk : Keeps s0 s) :
    Keeps s0 (releaseLine s r a).s := by
  unfold releaseLine
  try dsimp only
  repeat' (with_reducible first
    | assumption
    | exact Keeps.refl _
    | intro _
    | apply State.releaseReq_keeps
    | apply refuse_keeps
    | apply sized_keeps
    | dsimp only
    | (refine Keeps.ofEq (by assumption) ?_)
    | apply Keeps.ite
    | apply Keeps.foldl
    | apply Keeps.foldlFst
    | apply Keeps.setReg
    | simp only [Keeps.mk_iff]
    | simp only [Keeps.mkVlt_iff]
    | split)
  all_goals first
    | exact id
    | (intro _ hq; exact hq)
    | (intro _; rfl)
    | (intro _ hq; simp [hq]; done)
    | (intro hq; simp [hq]; done)
    | (simp_all; done)
    | (simp; done)

theorem eventLine_keeps {s0 : State} {s : State} {x1 : Reply} {a : List Byte} (hk : Keeps s0 s) :
    Keeps s0 (eventLine s x1 a).s := by
  unfold eventLine
  try dsimp only
  repeat' (with_reducible first
    | assumption
    | exact Keeps.refl _
    | intro _
    | apply Keeps.modFde
    | apply refuse_keeps
    | apply sized_keeps
    | dsimp only
    | (refine Keeps.ofEq (by assumption) ?_)
    | apply Keeps.ite
    | apply Keeps.foldl
    | apply Keeps.foldlFst
    | apply Keeps.setReg
    | simp only [Keeps.mk_iff]
    | simp only [Keeps.mkVlt_iff]
    | split)
  all_goals first
    | exact id
    | (intro _ hq; exact hq)
    | (intro _; rfl)
    | (intro _ hq; simp [hq]; done)
    | (intro hq; simp [hq]; done)
    | (simp_all; done)
    | (simp; done)

theorem State.lampAnswer_keeps {s0 : State} {s : State} {r : Reply} {code : Nat} {refm : Nat} (hk : Keeps s0 s) :
    Keeps s0 (State.lampAnswer s r code refm) := by
  unfold State.lampAnswer
  try dsimp only
  repeat' (with_reducible first
    | assumption
    | exact Keeps.refl _
    | intro _
    | apply State.cmdFinish_keeps
    | (refine Keeps.ofEq (by assumption) ?_)
    | apply Keeps.ite
    | apply Keeps.foldl
    | apply Keeps.foldlFst
    | apply Keeps.setReg
    | simp only [Keeps.mk_iff]
    | simp only [Keeps.mkVlt_iff]
    | split)
  all_goals first
    | exact id
    | (intro _ hq; exact hq)
    | (intro _; rfl)
    | (intro _ hq; simp [hq]; done)
    | (intro hq; simp [hq]; done)
    | (simp_all; done)
    | (simp; done)

theorem grpSetLine_keeps {s0 : State} {s : State} {x1 : Reply} {a : List Byte} (hk : Keeps s0 s) :
    Keeps s0 (grpSetLine s x1 a).s := by
  unfold grpSetLine
  try dsimp only
  repeat' (with_reducible first
    | assumption
    | exact Keeps.refl _
    | intro _
    | apply sized_keeps
    | apply State.remoteWrite_keeps
    | apply State.openBurst_keeps
    | dsimp only
    | (refine Keeps.ofEq (by assumption) ?_)
    | apply Keeps.ite
    | apply Keeps.foldl
    | apply Keeps.foldlFst
    | apply Keeps.setReg
    | simp only [Keeps.mk_iff]
    | simp only [Keeps.mkVlt_iff]
    | split)
  all_goals first
    | exact id
    | (intro _ hq; exact hq)
    | (intro _; rfl)
    | (intro _ hq; simp [hq]; done)
    | (intro hq; simp [hq]; done)
    | (simp_all; done)
    | (simp; done)

theorem grpBitLine_keeps {s0 : State} {on : Bool} {s : State} {x2 : Reply} {a : List Byte} (hk : Keeps s0 s) :
    Keeps s0 (grpBitLine on s x2 a).s := by
  unfold grpBitLine
  try dsimp only
  repeat' (with_reducible first
    | assumption
    | exact Keeps.refl _
    | intro _
    | apply refuse_keeps
    | apply sized_keeps
    | apply State.remoteWrite_keeps
    | apply State.openBurst_keeps
    | dsimp only
    | (refine Keeps.ofEq (by assumption) ?_)
    | apply Keeps.ite
    | apply Keeps.foldl
    | apply Keeps.foldlFst
    | apply Keeps.setReg
    | simp only [Keeps.mk_iff]
    | simp only [Keeps.mkVlt_iff]
    | split)
  all_goals first
    | exact id
    | (intro _ hq; exact hq)
    | (intro _; rfl)
    | (intro _ hq; simp [hq]; done)
    | (intro hq; simp [hq]; done)
    | (simp_all; done)
    | (simp; done)

theorem posSetLine_keeps {s0 : State} {s : State} {x1 : Reply} {a : List Byte} (hk : Keeps s0 s) :
    Keeps s0 (posSetLine s x1 a).s := by
  unfold posSetLine
  try dsimp only
  repeat' (with_reducible first
    | assumption
    | exact Keeps.refl _
    | intro _
    | apply sized_keeps
    | apply State.remoteWrite_keeps
    | apply State.openBurst_keeps
    | dsimp only
    | (refine Keeps.ofEq (by assumption) ?_)
    | apply Keeps.ite
    | apply Keeps.foldl
    | apply Keeps.foldlFst
    | apply Keeps.setReg
    | simp only [Keeps.mk_iff]
    | simp only [Keeps.mkVlt_iff]
    | split)
  all_goals first
    | exact id
    | (intro _ hq; exact hq)
    | (intro _; rfl)
    | (intro _ hq; simp [hq]; done)
    | (intro hq; simp [hq]; done)
    | (simp_all; done)
    | (simp; done)

theorem tabOpenLine_keeps {s0 : State} {s : State} {x1 : Reply} {a : List Byte} (hk : Keeps s0 s) :
    Keeps s0 (tabOpenLine s x1 a).s := by
  unfold tabOpenLine
  try dsimp only
  repeat' (with_reducible first
    | assumption
    | exact Keeps.refl _
    | intro _
    | apply refuse_keeps
    | apply sized_keeps
    | apply State.remoteWrite_keeps
    | apply State.openBurst_keeps
    | dsimp only
    | (refine Keeps.ofEq (by assumption) ?_)
    | apply Keeps.ite
    | apply Keeps.foldl
    | apply Keeps.foldlFst
    | apply Keeps.setReg
    | simp only [Keeps.mk_iff]
    | simp only [Keeps.mkVlt_iff]
    | split)
  all_goals first
    | exact id
    | (intro _ hq; exact hq)
    | (intro _; rfl)
    | (intro _ hq; simp [hq]; done)
    | (intro hq; simp [hq]; done)
    | (simp_all; done)
    | (simp; done)

theorem tabWriteLine_keeps {s0 : State} {s : State} {r : Reply} {a : List Byte} (hk : Keeps s0 s) :
    Keeps s0 (tabWriteLine s r a).s := by
  unfold tabWriteLine
  try dsimp only
  repeat' (with_reducible first
    | assumption
    | exact Keeps.refl _
    | intro _
    | apply refuse_keeps
    | apply State.remoteWrite_keeps
    | apply State.openBurst_keeps
    | apply State.tabWord_keeps
    | dsimp only
    | (refine Keeps.ofEq (by assumption) ?_)
    | apply Keeps.ite
    | apply Keeps.foldl
    | apply Keeps.foldlFst
    | apply Keeps.setReg
    | simp only [Keeps.mk_iff]
    | simp only [Keeps.mkVlt_iff]
    | split)
  all_goals first
    | exact id
    | (intro _ hq; exact hq)
    | (intro _; rfl)
    | (intro _ hq; simp [hq]; done)
    | (intro hq; simp [hq]; done)
    | (simp_all; done)
    | (simp; done)

theorem tabCloseLine_keeps {s0 : State} {s : State} {x1 : Reply} {a : List Byte} (hk : Keeps s0 s) :
    Keeps s0 (tabCloseLine s x1 a).s := by
  unfold tabCloseLine
  try dsimp only
  repeat' (with_reducible first
    | assumption
    | exact Keeps.refl _
    | intro _
    | apply refuse_keeps
    | apply sized_keeps
    | apply State.remoteWrite_keeps
    | apply State.openBurst_keeps
    | dsimp only
    | (refine Keeps.ofEq (by assumption) ?_)
    | apply Keeps.ite
    | apply Keeps.foldl
    | apply Keeps.foldlFst
    | apply Keeps.setReg
    | simp only [Keeps.mk_iff]
    | simp only [Keeps.mkVlt_iff]
    | split)
  all_goals first
    | exact id
    | (intro _ hq; exact hq)
    | (intro _; rfl)
    | (intro _ hq; simp [hq]; done)
    | (intro hq; simp [hq]; done)
    | (simp_all; done)
    | (simp; done)

theorem tabSaveLine_keeps {s0 : State} {s : State} {x1 : Reply} {a : List Byte} (hk : Keeps s0 s) :
    Keeps s0 (tabSaveLine s x1 a).s := by
  unfold tabSaveLine
  try dsimp only
  repeat' (with_reducible first
    | assumption
    | exact Keeps.refl _
    | intro _
    | apply refuse_keeps
    | apply sized_keeps
    | apply State.remoteWrite_keeps
    | apply State.openBurst_keeps
    | dsimp only
    | (refine Keeps.ofEq (by assumption) ?_)
    | apply Keeps.ite
    | apply Keeps.foldl
    | apply Keeps.foldlFst
    | apply Keeps.setReg
    | simp only [Keeps.mk_iff]
    | simp only [Keeps.mkVlt_iff]
    | split)
  all_goals first
    | exact id
    | (intro _ hq; exact hq)
    | (intro _; rfl)
    | (intro _ hq; simp [hq]; done)
    | (intro hq; simp [hq]; done)
    | (simp_all; done)
    | (simp; done)

theorem plateWrLine_keeps {s0 : State} {s : State} {x1 : Reply} {a : List Byte} (hk : Keeps s0 s) :
    Keeps s0 (plateWrLine s x1 a).s := by
  unfold plateWrLine
  try dsimp only
  repeat' (with_reducible first
    | assumption
    | exact Keeps.refl _
    | intro _
    | apply refuse_keeps
    | apply sized_keeps
    | apply State.remoteWrite_keeps
    | apply State.openBurst_keeps
    | dsimp only
    | (refine Keeps.ofEq (by assumption) ?_)
    | apply Keeps.ite
    | apply Keeps.foldl
    | apply Keeps.foldlFst
    | apply Keeps.setReg
    | simp only [Keeps.mk_iff]
    | simp only [Keeps.mkVlt_iff]
    | split)
  all_goals first
    | exact id
    | (intro _ hq; exact hq)
    | (intro _; rfl)
    | (intro _ hq; simp [hq]; done)
    | (intro hq; simp [hq]; done)
    | (simp_all; done)
    | (simp; done)

theorem cfgSaveLine_keeps {s0 : State} {s : State} {x1 : Reply} {a : List Byte} (hk : Keeps s0 s) :
    Keeps s0 (cfgSaveLine s x1 a).s := by
  unfold cfgSaveLine
  try dsimp only
  repeat' (with_reducible first
    | assumption
    | exact Keeps.refl _
    | intro _
    | apply State.cfgSaveStart_keeps
    | apply refuse_keeps
    | apply sized_keeps
    | dsimp only
    | (refine Keeps.ofEq (by assumption) ?_)
    | apply Keeps.ite
    | apply Keeps.foldl
    | apply Keeps.foldlFst
    | apply Keeps.setReg
    | simp only [Keeps.mk_iff]
    | simp only [Keeps.mkVlt_iff]
    | split)
  all_goals first
    | exact id
    | (intro _ hq; exact hq)
    | (intro _; rfl)
    | (intro _ hq; simp [hq]; done)
    | (intro hq; simp [hq]; done)
    | (simp_all; done)
    | (simp; done)

theorem State.makeReport_keeps {s0 : State} {s : State} {opc : Nat} {urg : Bool} {body : List Byte} (hk : Keeps s0 s) :
    Keeps s0 (State.makeReport s opc urg body) := by
  unfold State.makeReport
  try dsimp only
  repeat' (with_reducible first
    | assumption
    | exact Keeps.refl _
    | intro _
    | apply State.setFld_keeps
    | apply State.ringIn_keeps
    | (apply State.originate_keeps)
    | apply State.toQ2_keeps
    | (refine Keeps.ofEq (by assumption) ?_)
    | apply Keeps.ite
    | apply Keeps.foldl
    | apply Keeps.foldlFst
    | apply Keeps.setReg
    | simp only [Keeps.mk_iff]
    | simp only [Keeps.mkVlt_iff]
    | split)
  all_goals first
    | exact id
    | (intro _ hq; exact hq)
    | (intro _; rfl)
    | (intro _ hq; simp [hq]; done)
    | (intro hq; simp [hq]; done)
    | (simp_all; done)
    | (simp; done)

theorem query_keeps {s0 : State} {n : Nat} {ok : List Byte → Bool} {f : State → List Byte → List Byte} {s : State} {x4 : Reply} {a : List Byte} (hk : Keeps s0 s) :
    Keeps s0 (query n ok f s x4 a).s := by
  unfold query
  try dsimp only
  repeat' (with_reducible first
    | assumption
    | exact Keeps.refl _
    | intro _
    | apply refuse_keeps
    | apply sized_keeps
    | dsimp only
    | (refine Keeps.ofEq (by assumption) ?_)
    | apply Keeps.ite
    | apply Keeps.foldl
    | apply Keeps.foldlFst
    | apply Keeps.setReg
    | simp only [Keeps.mk_iff]
    | simp only [Keeps.mkVlt_iff]
    | split)
  all_goals first
    | exact id
    | (intro _ hq; exact hq)
    | (intro _; rfl)
    | (intro _ hq; simp [hq]; done)
    | (intro hq; simp [hq]; done)
    | (simp_all; done)
    | (simp; done)

theorem qStatusLine_keeps {s0 : State} {s : State} {r : Reply} {a : List Byte} (hk : Keeps s0 s) :
    Keeps s0 (qStatusLine s r a).s := by
  unfold qStatusLine
  try dsimp only
  repeat' (with_reducible first
    | assumption
    | exact Keeps.refl _
    | intro _
    | apply query_keeps
    | dsimp only
    | (refine Keeps.ofEq (by assumption) ?_)
    | apply Keeps.ite
    | apply Keeps.foldl
    | apply Keeps.foldlFst
    | apply Keeps.setReg
    | simp only [Keeps.mk_iff]
    | simp only [Keeps.mkVlt_iff]
    | split)
  all_goals first
    | exact id
    | (intro _ hq; exact hq)
    | (intro _; rfl)
    | (intro _ hq; simp [hq]; done)
    | (intro hq; simp [hq]; done)
    | (simp_all; done)
    | (simp; done)

theorem qLampLine_keeps {s0 : State} {s : State} {r : Reply} {a : List Byte} (hk : Keeps s0 s) :
    Keeps s0 (qLampLine s r a).s := by
  unfold qLampLine
  try dsimp only
  repeat' (with_reducible first
    | assumption
    | exact Keeps.refl _
    | intro _
    | apply query_keeps
    | dsimp only
    | (refine Keeps.ofEq (by assumption) ?_)
    | apply Keeps.ite
    | apply Keeps.foldl
    | apply Keeps.foldlFst
    | apply Keeps.setReg
    | simp only [Keeps.mk_iff]
    | simp only [Keeps.mkVlt_iff]
    | split)
  all_goals first
    | exact id
    | (intro _ hq; exact hq)
    | (intro _; rfl)
    | (intro _ hq; simp [hq]; done)
    | (intro hq; simp [hq]; done)
    | (simp_all; done)
    | (simp; done)

theorem qHealthLine_keeps {s0 : State} {s : State} {r : Reply} {a : List Byte} (hk : Keeps s0 s) :
    Keeps s0 (qHealthLine s r a).s := by
  unfold qHealthLine
  try dsimp only
  repeat' (with_reducible first
    | assumption
    | exact Keeps.refl _
    | intro _
    | apply query_keeps
    | dsimp only
    | (refine Keeps.ofEq (by assumption) ?_)
    | apply Keeps.ite
    | apply Keeps.foldl
    | apply Keeps.foldlFst
    | apply Keeps.setReg
    | simp only [Keeps.mk_iff]
    | simp only [Keeps.mkVlt_iff]
    | split)
  all_goals first
    | exact id
    | (intro _ hq; exact hq)
    | (intro _; rfl)
    | (intro _ hq; simp [hq]; done)
    | (intro hq; simp [hq]; done)
    | (simp_all; done)
    | (simp; done)

theorem qEnergyLine_keeps {s0 : State} {s : State} {r : Reply} {a : List Byte} (hk : Keeps s0 s) :
    Keeps s0 (qEnergyLine s r a).s := by
  unfold qEnergyLine
  try dsimp only
  repeat' (with_reducible first
    | assumption
    | exact Keeps.refl _
    | intro _
    | apply query_keeps
    | dsimp only
    | (refine Keeps.ofEq (by assumption) ?_)
    | apply Keeps.ite
    | apply Keeps.foldl
    | apply Keeps.foldlFst
    | apply Keeps.setReg
    | simp only [Keeps.mk_iff]
    | simp only [Keeps.mkVlt_iff]
    | split)
  all_goals first
    | exact id
    | (intro _ hq; exact hq)
    | (intro _; rfl)
    | (intro _ hq; simp [hq]; done)
    | (intro hq; simp [hq]; done)
    | (simp_all; done)
    | (simp; done)

theorem qHatchLine_keeps {s0 : State} {s : State} {r : Reply} {a : List Byte} (hk : Keeps s0 s) :
    Keeps s0 (qHatchLine s r a).s := by
  unfold qHatchLine
  try dsimp only
  repeat' (with_reducible first
    | assumption
    | exact Keeps.refl _
    | intro _
    | apply query_keeps
    | dsimp only
    | (refine Keeps.ofEq (by assumption) ?_)
    | apply Keeps.ite
    | apply Keeps.foldl
    | apply Keeps.foldlFst
    | apply Keeps.setReg
    | simp only [Keeps.mk_iff]
    | simp only [Keeps.mkVlt_iff]
    | split)
  all_goals first
    | exact id
    | (intro _ hq; exact hq)
    | (intro _; rfl)
    | (intro _ hq; simp [hq]; done)
    | (intro hq; simp [hq]; done)
    | (simp_all; done)
    | (simp; done)

theorem qEventsLine_keeps {s0 : State} {s : State} {r : Reply} {a : List Byte} (hk : Keeps s0 s) :
    Keeps s0 (qEventsLine s r a).s := by
  unfold qEventsLine
  try dsimp only
  repeat' (with_reducible first
    | assumption
    | exact Keeps.refl _
    | intro _
    | apply query_keeps
    | dsimp only
    | (refine Keeps.ofEq (by assumption) ?_)
    | apply Keeps.ite
    | apply Keeps.foldl
    | apply Keeps.foldlFst
    | apply Keeps.setReg
    | simp only [Keeps.mk_iff]
    | simp only [Keeps.mkVlt_iff]
    | split)
  all_goals first
    | exact id
    | (intro _ hq; exact hq)
    | (intro _; rfl)
    | (intro _ hq; simp [hq]; done)
    | (intro hq; simp [hq]; done)
    | (simp_all; done)
    | (simp; done)

theorem qGaugeLine_keeps {s0 : State} {s : State} {r : Reply} {a : List Byte} (hk : Keeps s0 s) :
    Keeps s0 (qGaugeLine s r a).s := by
  unfold qGaugeLine
  try dsimp only
  repeat' (with_reducible first
    | assumption
    | exact Keeps.refl _
    | intro _
    | apply query_keeps
    | dsimp only
    | (refine Keeps.ofEq (by assumption) ?_)
    | apply Keeps.ite
    | apply Keeps.foldl
    | apply Keeps.foldlFst
    | apply Keeps.setReg
    | simp only [Keeps.mk_iff]
    | simp only [Keeps.mkVlt_iff]
    | split)
  all_goals first
    | exact id
    | (intro _ hq; exact hq)
    | (intro _; rfl)
    | (intro _ hq; simp [hq]; done)
    | (intro hq; simp [hq]; done)
    | (simp_all; done)
    | (simp; done)

theorem qTimeLine_keeps {s0 : State} {s : State} {r : Reply} {a : List Byte} (hk : Keeps s0 s) :
    Keeps s0 (qTimeLine s r a).s := by
  unfold qTimeLine
  try dsimp only
  repeat' (with_reducible first
    | assumption
    | exact Keeps.refl _
    | intro _
    | apply query_keeps
    | dsimp only
    | (refine Keeps.ofEq (by assumption) ?_)
    | apply Keeps.ite
    | apply Keeps.foldl
    | apply Keeps.foldlFst
    | apply Keeps.setReg
    | simp only [Keeps.mk_iff]
    | simp only [Keeps.mkVlt_iff]
    | split)
  all_goals first
    | exact id
    | (intro _ hq; exact hq)
    | (intro _; rfl)
    | (intro _ hq; simp [hq]; done)
    | (intro hq; simp [hq]; done)
    | (simp_all; done)
    | (simp; done)

theorem qVersionLine_keeps {s0 : State} {s : State} {r : Reply} {a : List Byte} (hk : Keeps s0 s) :
    Keeps s0 (qVersionLine s r a).s := by
  unfold qVersionLine
  try dsimp only
  repeat' (with_reducible first
    | assumption
    | exact Keeps.refl _
    | intro _
    | apply query_keeps
    | dsimp only
    | (refine Keeps.ofEq (by assumption) ?_)
    | apply Keeps.ite
    | apply Keeps.foldl
    | apply Keeps.foldlFst
    | apply Keeps.setReg
    | simp only [Keeps.mk_iff]
    | simp only [Keeps.mkVlt_iff]
    | split)
  all_goals first
    | exact id
    | (intro _ hq; exact hq)
    | (intro _; rfl)
    | (intro _ hq; simp [hq]; done)
    | (intro hq; simp [hq]; done)
    | (simp_all; done)
    | (simp; done)

theorem qLinkLine_keeps {s0 : State} {s : State} {r : Reply} {a : List Byte} (hk : Keeps s0 s) :
    Keeps s0 (qLinkLine s r a).s := by
  unfold qLinkLine
  try dsimp only
  repeat' (with_reducible first
    | assumption
    | exact Keeps.refl _
    | intro _
    | apply query_keeps
    | dsimp only
    | (refine Keeps.ofEq (by assumption) ?_)
    | apply Keeps.ite
    | apply Keeps.foldl
    | apply Keeps.foldlFst
    | apply Keeps.setReg
    | simp only [Keeps.mk_iff]
    | simp only [Keeps.mkVlt_iff]
    | split)
  all_goals first
    | exact id
    | (intro _ hq; exact hq)
    | (intro _; rfl)
    | (intro _ hq; simp [hq]; done)
    | (intro hq; simp [hq]; done)
    | (simp_all; done)
    | (simp; done)

theorem rdLine_keeps {s0 : State} {s : State} {x1 : Reply} {a : List Byte} (hk : Keeps s0 s) :
    Keeps s0 (rdLine s x1 a).s := by
  unfold rdLine
  try dsimp only
  repeat' (with_reducible first
    | assumption
    | exact Keeps.refl _
    | intro _
    | apply State.modPath_keeps
    | (apply State.readReg_keeps)
    | apply refuse_keeps
    | apply sized_keeps
    | dsimp only
    | (refine Keeps.ofEq (by assumption) ?_)
    | apply Keeps.ite
    | apply Keeps.foldl
    | apply Keeps.foldlFst
    | apply Keeps.setReg
    | simp only [Keeps.mk_iff]
    | simp only [Keeps.mkVlt_iff]
    | split)
  all_goals first
    | exact id
    | (intro _ hq; exact hq)
    | (intro _; rfl)
    | (intro _ hq; simp [hq]; done)
    | (intro hq; simp [hq]; done)
    | (simp_all; done)
    | (simp; done)

theorem State.applyWords_keeps {s0 : State} {s : State} {l : List (Nat × Nat × Word)} (hk : Keeps s0 s) :
    Keeps s0 (State.applyWords s l).1 := by
  unfold State.applyWords
  try dsimp only
  repeat' (with_reducible first
    | assumption
    | exact Keeps.refl _
    | intro _
    | apply State.remoteWrite_keeps
    | (refine Keeps.ofEq (by assumption) ?_)
    | apply Keeps.ite
    | apply Keeps.foldl
    | apply Keeps.foldlFst
    | apply Keeps.setReg
    | simp only [Keeps.mk_iff]
    | simp only [Keeps.mkVlt_iff]
    | split)
  all_goals first
    | exact id
    | (intro _ hq; exact hq)
    | (intro _; rfl)
    | (intro _ hq; simp [hq]; done)
    | (intro hq; simp [hq]; done)
    | (simp_all; done)
    | (simp; done)

theorem writesOut_keeps {s0 s : State} {x : State × List (Option Nat) × Option Nat} (hk : Keeps s0 x.1) :
    Keeps s0 (writesOut s x).s := by
  obtain ⟨t, marks, first⟩ := x
  unfold writesOut
  dsimp only
  split
  · exact Keeps.ite hk (State.post_keeps hk)
  · exact hk

theorem wrLine_keeps {s0 : State} {s : State} {x1 : Reply} {a : List Byte} (hk : Keeps s0 s) :
    Keeps s0 (wrLine s x1 a).s := by
  unfold wrLine
  try dsimp only
  repeat' (with_reducible first
    | assumption
    | exact Keeps.refl _
    | intro _
    | apply refuse_keeps
    | (apply State.applyWords_keeps)
    | apply writesOut_keeps
    | dsimp only
    | (refine Keeps.ofEq (by assumption) ?_)
    | apply Keeps.ite
    | apply Keeps.foldl
    | apply Keeps.foldlFst
    | apply Keeps.setReg
    | simp only [Keeps.mk_iff]
    | simp only [Keeps.mkVlt_iff]
    | split)
  all_goals first
    | exact id
    | (intro _ hq; exact hq)
    | (intro _; rfl)
    | (intro _ hq; simp [hq]; done)
    | (intro hq; simp [hq]; done)
    | (simp_all; done)
    | (simp; done)

theorem wrlLine_keeps {s0 : State} {s : State} {x1 : Reply} {a : List Byte} (hk : Keeps s0 s) :
    Keeps s0 (wrlLine s x1 a).s := by
  unfold wrlLine
  try dsimp only
  repeat' (with_reducible first
    | assumption
    | exact Keeps.refl _
    | intro _
    | apply refuse_keeps
    | (apply State.applyWords_keeps)
    | apply writesOut_keeps
    | dsimp only
    | (refine Keeps.ofEq (by assumption) ?_)
    | apply Keeps.ite
    | apply Keeps.foldl
    | apply Keeps.foldlFst
    | apply Keeps.setReg
    | simp only [Keeps.mk_iff]
    | simp only [Keeps.mkVlt_iff]
    | split)
  all_goals first
    | exact id
    | (intro _ hq; exact hq)
    | (intro _; rfl)
    | (intro _ hq; simp [hq]; done)
    | (intro hq; simp [hq]; done)
    | (simp_all; done)
    | (simp; done)

end Sys2Proof.Machine
end

