-- ==== Sys2Proof/Laws/KeepsNet.lean ====
section
/-! SUPPORT. Every operation of Machine/Net.lean keeps the queue and the shape of the state. -/

namespace Sys2Proof.Machine

theorem State.joinReq_keeps {s0 : State} {s : State} {f : LineFrame} (hk : Keeps s0 s) :
    Keeps s0 (State.joinReq s f) := by
  unfold State.joinReq
  try dsimp only
  repeat' (with_reducible first
    | assumption
    | exact Keeps.refl _
    | intro _
    | apply State.learnJoin_keeps
    | apply State.deliver_keeps
    | (refine Keeps.ofEq (by assumption) ?_)
    | apply Keeps.ite
    | apply Keeps.foldl
    | apply Keeps.foldlFst
    | apply Keeps.setReg
    | simp only [Keeps.mk_iff]
    | simp only [Keeps.mkVlt_iff]
    | split)
  all_goals first
    | exact id
    | (intro _ hq; exact hq)
    | (intro _; rfl)
    | (intro _ hq; simp [hq]; done)
    | (intro hq; simp [hq]; done)
    | (simp_all; done)
    | (simp; done)

theorem joinRespLine_keeps {s0 : State} {s : State} {x1 : Reply} {a : List Byte} (hk : Keeps s0 s) :
    Keeps s0 (joinRespLine s x1 a).s := by
  unfold joinRespLine
  try dsimp only
  repeat' (with_reducible first
    | assumption
    | exact Keeps.refl _
    | intro _
    | apply Keeps.setReg
    | apply State.setShort_keeps
    | apply State.modMac_keeps
    | apply State.joinState_keeps
    | apply sized_keeps
    | dsimp only
    | (refine Keeps.ofEq (by assumption) ?_)
    | apply Keeps.ite
    | apply Keeps.foldl
    | apply Keeps.foldlFst
    | apply Keeps.setReg
    | simp only [Keeps.mk_iff]
    | simp only [Keeps.mkVlt_iff]
    | split)
  all_goals first
    | exact id
    | (intro _ hq; exact hq)
    | (intro _; rfl)
    | (intro _ hq; simp [hq]; done)
    | (intro hq; simp [hq]; done)
    | (simp_all; done)
    | (simp; done)

theorem addrSetLine_keeps {s0 : State} {s : State} {x1 : Reply} {a : List Byte} (hk : Keeps s0 s) :
    Keeps s0 (addrSetLine s x1 a).s := by
  unfold addrSetLine
  try dsimp only
  repeat' (with_reducible first
    | assumption
    | exact Keeps.refl _
    | intro _
    | apply refuse_keeps
    | apply sized_keeps
    | dsimp only
    | (refine Keeps.ofEq (by assumption) ?_)
    | apply Keeps.ite
    | apply Keeps.foldl
    | apply Keeps.foldlFst
    | apply Keeps.setReg
    | simp only [Keeps.mk_iff]
    | simp only [Keeps.mkVlt_iff]
    | split)
  all_goals first
    | exact id
    | (intro _ hq; exact hq)
    | (intro _; rfl)
    | (intro _ hq; simp [hq]; done)
    | (intro hq; simp [hq]; done)
    | (simp_all; done)
    | (simp; done)

theorem leaveLine_keeps {s0 : State} {s : State} {x1 : Reply} {a : List Byte} (hk : Keeps s0 s) :
    Keeps s0 (leaveLine s x1 a).s := by
  unfold leaveLine
  try dsimp only
  repeat' (with_reducible first
    | assumption
    | exact Keeps.refl _
    | intro _
    | apply sized_keeps
    | dsimp only
    | (refine Keeps.ofEq (by assumption) ?_)
    | apply Keeps.ite
    | apply Keeps.foldl
    | apply Keeps.foldlFst
    | apply Keeps.setReg
    | simp only [Keeps.mk_iff]
    | simp only [Keeps.mkVlt_iff]
    | split)
  all_goals first
    | exact id
    | (intro _ hq; exact hq)
    | (intro _; rfl)
    | (intro _ hq; simp [hq]; done)
    | (intro hq; simp [hq]; done)
    | (simp_all; done)
    | (simp; done)

theorem roleSetLine_keeps {s0 : State} {s : State} {x1 : Reply} {a : List Byte} (hk : Keeps s0 s) :
    Keeps s0 (roleSetLine s x1 a).s := by
  unfold roleSetLine
  try dsimp only
  repeat' (with_reducible first
    | assumption
    | exact Keeps.refl _
    | intro _
    | apply State.roleWrite_keeps
    | apply refuse_keeps
    | apply sized_keeps
    | dsimp only
    | (refine Keeps.ofEq (by assumption) ?_)
    | apply Keeps.ite
    | apply Keeps.foldl
    | apply Keeps.foldlFst
    | apply Keeps.setReg
    | simp only [Keeps.mk_iff]
    | simp only [Keeps.mkVlt_iff]
    | split)
  all_goals first
    | exact id
    | (intro _ hq; exact hq)
    | (intro _; rfl)
    | (intro _ hq; simp [hq]; done)
    | (intro hq; simp [hq]; done)
    | (simp_all; done)
    | (simp; done)

theorem offsetSetLine_keeps {s0 : State} {s : State} {x1 : Reply} {a : List Byte} (hk : Keeps s0 s) :
    Keeps s0 (offsetSetLine s x1 a).s := by
  unfold offsetSetLine
  try dsimp only
  repeat' (with_reducible first
    | assumption
    | exact Keeps.refl _
    | intro _
    | apply State.offsetTake_keeps
    | apply sized_keeps
    | dsimp only
    | (refine Keeps.ofEq (by assumption) ?_)
    | apply Keeps.ite
    | apply Keeps.foldl
    | apply Keeps.foldlFst
    | apply Keeps.setReg
    | simp only [Keeps.mk_iff]
    | simp only [Keeps.mkVlt_iff]
    | split)
  all_goals first
    | exact id
    | (intro _ hq; exact hq)
    | (intro _; rfl)
    | (intro _ hq; simp [hq]; done)
    | (intro hq; simp [hq]; done)
    | (simp_all; done)
    | (simp; done)

theorem State.setGrants_keeps {s0 : State} {s : State} {l : List (Nat × Nat × Nat × Nat)} {inherited : Nat} (hk : Keeps s0 s) :
    Keeps s0 (State.setGrants s l inherited) := by
  unfold State.setGrants
  try dsimp only
  repeat' (with_reducible first
    | assumption
    | exact Keeps.refl _
    | intro _
    | apply State.modMac_keeps
    | (refine Keeps.ofEq (by assumption) ?_)
    | apply Keeps.ite
    | apply Keeps.foldl
    | apply Keeps.foldlFst
    | apply Keeps.setReg
    | simp only [Keeps.mk_iff]
    | simp only [Keeps.mkVlt_iff]
    | split)
  all_goals first
    | exact id
    | (intro _ hq; exact hq)
    | (intro _; rfl)
    | (intro _ hq; simp [hq]; done)
    | (intro hq; simp [hq]; done)
    | (simp_all; done)
    | (simp; done)

theorem State.rsvPut_keeps {s0 : State} {s : State} {i : Nat} {start : Nat} {len : Nat} (hk : Keeps s0 s) :
    Keeps s0 (State.rsvPut s i start len) := by
  unfold State.rsvPut
  try dsimp only
  repeat' (with_reducible first
    | assumption
    | exact Keeps.refl _
    | intro _
    | apply State.setFld_keeps
    | apply State.setFlag_keeps
    | apply State.modMac_keeps
    | (refine Keeps.ofEq (by assumption) ?_)
    | apply Keeps.ite
    | apply Keeps.foldl
    | apply Keeps.foldlFst
    | apply Keeps.setReg
    | simp only [Keeps.mk_iff]
    | simp only [Keeps.mkVlt_iff]
    | split)
  all_goals first
    | exact id
    | (intro _ hq; exact hq)
    | (intro _; rfl)
    | (intro _ hq; simp [hq]; done)
    | (intro hq; simp [hq]; done)
    | (simp_all; done)
    | (simp; done)

theorem State.rsvSend_keeps {s0 : State} {s : State} {target : Nat} {i : Nat} {start : Nat} {len : Nat} (hk : Keeps s0 s) :
    Keeps s0 (State.rsvSend s target i start len) := by
  unfold State.rsvSend
  try dsimp only
  repeat' (with_reducible first
    | assumption
    | exact Keeps.refl _
    | intro _
    | (apply State.originate_keeps)
    | apply State.toQ2_keeps
    | apply State.rsvPut_keeps
    | (refine Keeps.ofEq (by assumption) ?_)
    | apply Keeps.ite
    | apply Keeps.foldl
    | apply Keeps.foldlFst
    | apply Keeps.setReg
    | simp only [Keeps.mk_iff]
    | simp only [Keeps.mkVlt_iff]
    | split)
  all_goals first
    | exact id
    | (intro _ hq; exact hq)
    | (intro _; rfl)
    | (intro _ hq; simp [hq]; done)
    | (intro hq; simp [hq]; done)
    | (simp_all; done)
    | (simp; done)

theorem grantRefused_keeps {s0 : State} {s : State} {target : Nat} {code : Nat} (hk : Keeps s0 s) :
    Keeps s0 (grantRefused s target code).s := by
  unfold grantRefused
  try dsimp only
  repeat' (with_reducible first
    | assumption
    | exact Keeps.refl _
    | intro _
    | apply State.post_keeps
    | dsimp only
    | (refine Keeps.ofEq (by assumption) ?_)
    | apply Keeps.ite
    | apply Keeps.foldl
    | apply Keeps.foldlFst
    | apply Keeps.setReg
    | simp only [Keeps.mk_iff]
    | simp only [Keeps.mkVlt_iff]
    | split)
  all_goals first
    | exact id
    | (intro _ hq; exact hq)
    | (intro _; rfl)
    | (intro _ hq; simp [hq]; done)
    | (intro hq; simp [hq]; done)
    | (simp_all; done)
    | (simp; done)

theorem rsvGrantLine_keeps {s0 : State} {s : State} {x1 : Reply} {a : List Byte} (hk : Keeps s0 s) :
    Keeps s0 (rsvGrantLine s x1 a).s := by
  unfold rsvGrantLine
  try dsimp only
  repeat' (with_reducible first
    | assumption
    | exact Keeps.refl _
    | intro _
    | apply refuse_keeps
    | apply sized_keeps
    | apply State.setGrants_keeps
    | apply State.rsvSend_keeps
    | apply grantRefused_keeps
    | dsimp only
    | (refine Keeps.ofEq (by assumption) ?_)
    | apply Keeps.ite
    | apply Keeps.foldl
    | apply Keeps.foldlFst
    | apply Keeps.setReg
    | simp only [Keeps.mk_iff]
    | simp only [Keeps.mkVlt_iff]
    | split)
  all_goals first
    | exact id
    | (intro _ hq; exact hq)
    | (intro _; rfl)
    | (intro _ hq; simp [hq]; done)
    | (intro hq; simp [hq]; done)
    | (simp_all; done)
    | (simp; done)

theorem rsvSetLine_keeps {s0 : State} {s : State} {x1 : Reply} {a : List Byte} (hk : Keeps s0 s) :
    Keeps s0 (rsvSetLine s x1 a).s := by
  unfold rsvSetLine
  try dsimp only
  repeat' (with_reducible first
    | assumption
    | exact Keeps.refl _
    | intro _
    | apply refuse_keeps
    | apply sized_keeps
    | apply State.rsvPut_keeps
    | dsimp only
    | (refine Keeps.ofEq (by assumption) ?_)
    | apply Keeps.ite
    | apply Keeps.foldl
    | apply Keeps.foldlFst
    | apply Keeps.setReg
    | simp only [Keeps.mk_iff]
    | simp only [Keeps.mkVlt_iff]
    | split)
  all_goals first
    | exact id
    | (intro _ hq; exact hq)
    | (intro _; rfl)
    | (intro _ hq; simp [hq]; done)
    | (intro hq; simp [hq]; done)
    | (simp_all; done)
    | (simp; done)

theorem tmReqLine_keeps {s0 : State} {f : LineFrame} {s : State} {r : Reply} {a : List Byte} (hk : Keeps s0 s) :
    Keeps s0 (tmReqLine f s r a).s := by
  unfold tmReqLine
  try dsimp only
  repeat' (with_reducible first
    | assumption
    | exact Keeps.refl _
    | intro _
    | (apply State.buildMap_keeps)
    | (apply State.originate_keeps)
    | apply State.toQ2_keeps
    | apply refuse_keeps
    | apply sized_keeps
    | dsimp only
    | (refine Keeps.ofEq (by assumption) ?_)
    | apply Keeps.ite
    | apply Keeps.foldl
    | apply Keeps.foldlFst
    | apply Keeps.setReg
    | simp only [Keeps.mk_iff]
    | simp only [Keeps.mkVlt_iff]
    | split)
  all_goals first
    | exact id
    | (intro _ hq; exact hq)
    | (intro _; rfl)
    | (intro _ hq; simp [hq]; done)
    | (intro hq; simp [hq]; done)
    | (simp_all; done)
    | (simp; done)

theorem tmRespLine_keeps {s0 : State} {f : LineFrame} {s : State} {x2 : Reply} {a : List Byte} (hk : Keeps s0 s) :
    Keeps s0 (tmRespLine f s x2 a).s := by
  unfold tmRespLine
  try dsimp only
  repeat' (with_reducible first
    | assumption
    | exact Keeps.refl _
    | intro _
    | apply State.txMapStore_keeps
    | apply State.modMac_keeps
    | apply refuse_keeps
    | dsimp only
    | (refine Keeps.ofEq (by assumption) ?_)
    | apply Keeps.ite
    | apply Keeps.foldl
    | apply Keeps.foldlFst
    | apply Keeps.setReg
    | simp only [Keeps.mk_iff]
    | simp only [Keeps.mkVlt_iff]
    | split)
  all_goals first
    | exact id
    | (intro _ hq; exact hq)
    | (intro _; rfl)
    | (intro _ hq; simp [hq]; done)
    | (intro hq; simp [hq]; done)
    | (simp_all; done)
    | (simp; done)

theorem tmAskLine_keeps {s0 : State} {s : State} {x1 : Reply} {a : List Byte} (hk : Keeps s0 s) :
    Keeps s0 (tmAskLine s x1 a).s := by
  unfold tmAskLine
  try dsimp only
  repeat' (with_reducible first
    | assumption
    | exact Keeps.refl _
    | intro _
    | apply State.tmRequest_keeps
    | apply refuse_keeps
    | apply sized_keeps
    | dsimp only
    | (refine Keeps.ofEq (by assumption) ?_)
    | apply Keeps.ite
    | apply Keeps.foldl
    | apply Keeps.foldlFst
    | apply Keeps.setReg
    | simp only [Keeps.mk_iff]
    | simp only [Keeps.mkVlt_iff]
    | split)
  all_goals first
    | exact id
    | (intro _ hq; exact hq)
    | (intro _; rfl)
    | (intro _ hq; simp [hq]; done)
    | (intro hq; simp [hq]; done)
    | (simp_all; done)
    | (simp; done)

theorem mbStatLine_keeps {s0 : State} {s : State} {r : Reply} {a : List Byte} (hk : Keeps s0 s) :
    Keeps s0 (mbStatLine s r a).s := by
  unfold mbStatLine
  try dsimp only
  repeat' (with_reducible first
    | assumption
    | exact Keeps.refl _
    | intro _
    | apply query_keeps
    | dsimp only
    | (refine Keeps.ofEq (by assumption) ?_)
    | apply Keeps.ite
    | apply Keeps.foldl
    | apply Keeps.foldlFst
    | apply Keeps.setReg
    | simp only [Keeps.mk_iff]
    | simp only [Keeps.mkVlt_iff]
    | split)
  all_goals first
    | exact id
    | (intro _ hq; exact hq)
    | (intro _; rfl)
    | (intro _ hq; simp [hq]; done)
    | (intro hq; simp [hq]; done)
    | (simp_all; done)
    | (simp; done)

end Sys2Proof.Machine
end

