-- ==== Sys2Proof/Laws/KeepsBundle.lean ====
section
/-! SUPPORT. Every operation of Machine/Bundle.lean keeps the queue and the shape of the state. -/

namespace Sys2Proof.Machine

theorem bBeginLine_keeps {s0 : State} {s : State} {x1 : Reply} {a : List Byte} (hk : Keeps s0 s) :
    Keeps s0 (bBeginLine s x1 a).s := by
  unfold bBeginLine
  try dsimp only
  repeat' (with_reducible first
    | assumption
    | exact Keeps.refl _
    | intro _
    | apply State.setFld_keeps
    | apply State.setPair_keeps
    | apply State.post_keeps
    | apply Keeps.modVlt
    | apply State.modCmd_keeps
    | apply State.bxferPut_keeps
    | apply refuse_keeps
    | apply sized_keeps
    | apply VltState.erase_kept
    | dsimp only
    | (refine Keeps.ofEq (by assumption) ?_)
    | apply Keeps.ite
    | apply Keeps.foldl
    | apply Keeps.foldlFst
    | apply Keeps.setReg
    | simp only [Keeps.mk_iff]
    | simp only [Keeps.mkVlt_iff]
    | split)
  all_goals first
    | exact id
    | (intro _ hq; exact hq)
    | (intro _; rfl)
    | (intro _ hq; simp [hq]; done)
    | (intro hq; simp [hq]; done)
    | (simp_all; done)
    | (simp; done)

theorem bBlockLine_keeps {s0 : State} {s : State} {x1 : Reply} {a : List Byte} (hk : Keeps s0 s) :
    Keeps s0 (bBlockLine s x1 a).s := by
  unfold bBlockLine
  try dsimp only
  repeat' (with_reducible first
    | assumption
    | exact Keeps.refl _
    | intro _
    | apply State.setFld_keeps
    | apply Keeps.modVlt
    | apply State.modCmd_keeps
    | apply State.bxferPut_keeps
    | apply VltState.putBytes_kept
    | dsimp only
    | (refine Keeps.ofEq (by assumption) ?_)
    | apply Keeps.ite
    | apply Keeps.foldl
    | apply Keeps.foldlFst
    | apply Keeps.setReg
    | simp only [Keeps.mk_iff]
    | simp only [Keeps.mkVlt_iff]
    | split)
  all_goals first
    | exact id
    | (intro _ hq; exact hq)
    | (intro _; rfl)
    | (intro _ hq; simp [hq]; done)
    | (intro hq; simp [hq]; done)
    | (simp_all; done)
    | (simp; done)

theorem bRepairLine_keeps {s0 : State} {s : State} {x1 : Reply} {a : List Byte} (hk : Keeps s0 s) :
    Keeps s0 (bRepairLine s x1 a).s := by
  unfold bRepairLine
  try dsimp only
  repeat' (with_reducible first
    | assumption
    | exact Keeps.refl _
    | intro _
    | apply refuse_keeps
    | apply sized_keeps
    | dsimp only
    | (refine Keeps.ofEq (by assumption) ?_)
    | apply Keeps.ite
    | apply Keeps.foldl
    | apply Keeps.foldlFst
    | apply Keeps.setReg
    | simp only [Keeps.mk_iff]
    | simp only [Keeps.mkVlt_iff]
    | split)
  all_goals first
    | exact id
    | (intro _ hq; exact hq)
    | (intro _; rfl)
    | (intro _ hq; simp [hq]; done)
    | (intro hq; simp [hq]; done)
    | (simp_all; done)
    | (simp; done)

theorem bAbortLine_keeps {s0 : State} {s : State} {x1 : Reply} {a : List Byte} (hk : Keeps s0 s) :
    Keeps s0 (bAbortLine s x1 a).s := by
  unfold bAbortLine
  try dsimp only
  repeat' (with_reducible first
    | assumption
    | exact Keeps.refl _
    | intro _
    | apply State.bxferIdle_keeps
    | apply sized_keeps
    | dsimp only
    | (refine Keeps.ofEq (by assumption) ?_)
    | apply Keeps.ite
    | apply Keeps.foldl
    | apply Keeps.foldlFst
    | apply Keeps.setReg
    | simp only [Keeps.mk_iff]
    | simp only [Keeps.mkVlt_iff]
    | split)
  all_goals first
    | exact id
    | (intro _ hq; exact hq)
    | (intro _; rfl)
    | (intro _ hq; simp [hq]; done)
    | (intro hq; simp [hq]; done)
    | (simp_all; done)
    | (simp; done)

theorem State.kidKey_keeps {s0 : State} {s : State} {kid : Nat} {cls : Nat} (hk : Keeps s0 s) :
    Keeps s0 (State.kidKey s kid cls).1 := by
  unfold State.kidKey
  try dsimp only
  repeat' (with_reducible first
    | assumption
    | exact Keeps.refl _
    | intro _
    | (apply State.slotKey_keeps)
    | (refine Keeps.ofEq (by assumption) ?_)
    | apply Keeps.ite
    | apply Keeps.foldl
    | apply Keeps.foldlFst
    | apply Keeps.setReg
    | simp only [Keeps.mk_iff]
    | simp only [Keeps.mkVlt_iff]
    | split)
  all_goals first
    | exact id
    | (intro _ hq; exact hq)
    | (intro _; rfl)
    | (intro _ hq; simp [hq]; done)
    | (intro hq; simp [hq]; done)
    | (simp_all; done)
    | (simp; done)

theorem State.keysParse_keeps {s0 : State} {n : Nat} {s t : State} {b : List Byte} {kids : List (Option Nat)}
    {x : List (Option Nat) × List (Nat × List Byte)} (e : State.keysParse n s b kids = some (t, x)) (hk : Keeps s0 s) :
    Keeps s0 t := by
  induction n generalizing s b kids t x with
  | zero => simp [State.keysParse] at e
  | succ n ih =>
    unfold State.keysParse at e
    split at e
    · simp at e
    · simp at e
    · rename_i m _ _ hm
      obtain rfl : n = m := by omega
      split at e
      · obtain ⟨rfl, -⟩ := by simpa using e
        exact hk
      · split at e
        · split at e
          · simp at e
          · split at e
            · simp at e
            · rename_i u bk hu
              have hu' := Keeps.ofEq hu (State.kidKey_keeps hk)
              split at e
              · simp only [Option.map_eq_some_iff] at e
                obtain ⟨⟨y1, y2⟩, hy, he⟩ := e
                obtain ⟨rfl, -⟩ := by simpa using he
                exact ih hy hu'
              · dsimp only at e
                split at e
                · simp at e
                · split at e
                  · simp at e
                  · simp only [Option.map_eq_some_iff] at e
                    obtain ⟨⟨y1, y2⟩, hy, he⟩ := e
                    obtain ⟨rfl, -⟩ := by simpa using he
                    exact ih hy hu'
        · simp at e

theorem State.bundleCheck_keeps {s0 : State} {s : State} {b : List Byte} (hk : Keeps s0 s) :
    Keeps s0 (State.bundleCheck s b).1 := by
  unfold State.bundleCheck
  try dsimp only
  repeat' (with_reducible first
    | assumption
    | exact Keeps.refl _
    | intro _
    | (apply State.kidKey_keeps)
    | (refine Keeps.ofEq (by assumption) ?_)
    | apply Keeps.ite
    | apply Keeps.foldl
    | apply Keeps.foldlFst
    | apply Keeps.setReg
    | simp only [Keeps.mk_iff]
    | simp only [Keeps.mkVlt_iff]
    | split
    | (refine State.keysParse_keeps (by assumption) ?_))
  all_goals first
    | exact id
    | (intro _ hq; exact hq)
    | (intro _; rfl)
    | (intro _ hq; simp [hq]; done)
    | (intro hq; simp [hq]; done)
    | (simp_all; done)
    | (simp; done)

theorem bCommitLine_keeps {s0 : State} {s : State} {r : Reply} {a : List Byte} (hk : Keeps s0 s) :
    Keeps s0 (bCommitLine s r a).s := by
  unfold bCommitLine
  try dsimp only
  repeat' (with_reducible first
    | assumption
    | exact Keeps.refl _
    | intro _
    | apply State.setFld_keeps
    | apply State.modSec_keeps
    | apply State.bxferIdle_keeps
    | apply sized_keeps
    | (apply State.bundleCheck_keeps)
    | apply State.idle_keeps
    | dsimp only
    | (refine Keeps.ofEq (by assumption) ?_)
    | apply Keeps.ite
    | apply Keeps.foldl
    | apply Keeps.foldlFst
    | apply Keeps.setReg
    | simp only [Keeps.mk_iff]
    | simp only [Keeps.mkVlt_iff]
    | split)
  all_goals first
    | exact id
    | (intro _ hq; exact hq)
    | (intro _; rfl)
    | (intro _ hq; simp [hq]; done)
    | (intro hq; simp [hq]; done)
    | (simp_all; done)
    | (simp; done)

theorem State.bundleBank_keeps {s0 : State} {s : State} {cfg : Bool} {b : Bank} {body : List Byte} (hk : Keeps s0 s) :
    Keeps s0 (State.bundleBank s cfg b body) := by
  unfold State.bundleBank
  try dsimp only
  repeat' (with_reducible first
    | assumption
    | exact Keeps.refl _
    | intro _
    | apply Keeps.modVlt
    | apply State.vEnter_keeps
    | apply State.vDone_keeps
    | apply State.opEnd_keeps
    | apply State.bankInstall_keeps
    | (refine Keeps.ofEq (by assumption) ?_)
    | apply Keeps.ite
    | apply Keeps.foldl
    | apply Keeps.foldlFst
    | apply Keeps.setReg
    | simp only [Keeps.mk_iff]
    | simp only [Keeps.mkVlt_iff]
    | split)
  all_goals first
    | exact id
    | (intro _ hq; exact hq)
    | (intro _; rfl)
    | (intro _ hq; simp [hq]; done)
    | (intro hq; simp [hq]; done)
    | (simp_all; done)
    | (simp; done)

theorem State.bundleKeys_keeps {s0 : State} {s : State} {l : List (Nat × List Byte)} (hk : Keeps s0 s) :
    Keeps s0 (State.bundleKeys s l) := by
  unfold State.bundleKeys
  try dsimp only
  repeat' (with_reducible first
    | assumption
    | exact Keeps.refl _
    | intro _
    | apply State.commitEnd_keeps
    | apply State.vRecord_keeps
    | apply State.secDone_keeps
    | apply State.slotsDone_keeps
    | (refine Keeps.ofEq (by assumption) ?_)
    | apply Keeps.ite
    | apply Keeps.foldl
    | apply Keeps.foldlFst
    | apply Keeps.setReg
    | simp only [Keeps.mk_iff]
    | simp only [Keeps.mkVlt_iff]
    | split)
  all_goals first
    | exact id
    | (intro _ hq; exact hq)
    | (intro _; rfl)
    | (intro _ hq; simp [hq]; done)
    | (intro hq; simp [hq]; done)
    | (simp_all; done)
    | (simp; done)

theorem State.bundleApply_keeps {s0 : State} {s : State} {h : BundleHdr} {b : BundleBody} {body : List Byte} (hk : Keeps s0 s) :
    Keeps s0 (State.bundleApply s h b body) := by
  unfold State.bundleApply
  try dsimp only
  repeat' (with_reducible first
    | assumption
    | exact Keeps.refl _
    | intro _
    | apply Keeps.modVlt
    | apply State.floorRaise_keeps
    | apply State.bundleBank_keeps
    | apply State.bundleKeys_keeps
    | (refine Keeps.ofEq (by assumption) ?_)
    | apply Keeps.ite
    | apply Keeps.foldl
    | apply Keeps.foldlFst
    | apply Keeps.setReg
    | simp only [Keeps.mk_iff]
    | simp only [Keeps.mkVlt_iff]
    | split)
  all_goals first
    | exact id
    | (intro _ hq; exact hq)
    | (intro _; rfl)
    | (intro _ hq; simp [hq]; done)
    | (intro hq; simp [hq]; done)
    | (simp_all; done)
    | (simp; done)

theorem State.bundleResult_keeps {s0 : State} {s : State} {j : SecJob} {c : Nat} {after : Nat} {d : List Byte} (hk : Keeps s0 s) :
    Keeps s0 (State.bundleResult s j c after d) := by
  unfold State.bundleResult
  try dsimp only
  repeat' (with_reducible first
    | assumption
    | exact Keeps.refl _
    | intro _
    | apply State.setFld_keeps
    | apply State.modSec_keeps
    | apply State.bxferIdle_keeps
    | apply State.cmdFinish_keeps
    | (refine Keeps.ofEq (by assumption) ?_)
    | apply Keeps.ite
    | apply Keeps.foldl
    | apply Keeps.foldlFst
    | apply Keeps.setReg
    | simp only [Keeps.mk_iff]
    | simp only [Keeps.mkVlt_iff]
    | split)
  all_goals first
    | exact id
    | (intro _ hq; exact hq)
    | (intro _; rfl)
    | (intro _ hq; simp [hq]; done)
    | (intro hq; simp [hq]; done)
    | (simp_all; done)
    | (simp; done)

theorem State.bundleDone_keeps {s0 : State} {s : State} (hk : Keeps s0 s) :
    Keeps s0 (State.bundleDone s) := by
  unfold State.bundleDone
  try dsimp only
  repeat' (with_reducible first
    | assumption
    | exact Keeps.refl _
    | intro _
    | apply State.post_keeps
    | apply State.cmdStick_keeps
    | (apply State.bundleCheck_keeps)
    | apply State.bundleApply_keeps
    | apply State.bundleResult_keeps
    | apply VltState.apply_kept
    | (refine Keeps.ofEq (by assumption) ?_)
    | apply Keeps.ite
    | apply Keeps.foldl
    | apply Keeps.foldlFst
    | apply Keeps.setReg
    | simp only [Keeps.mk_iff]
    | simp only [Keeps.mkVlt_iff]
    | split)
  all_goals first
    | exact id
    | (intro _ hq; exact hq)
    | (intro _; rfl)
    | (intro _ hq; simp [hq]; done)
    | (intro hq; simp [hq]; done)
    | (simp_all; done)
    | (simp; done)

theorem proofLine_keeps {s0 : State} {s : State} {r : Reply} {a : List Byte} (hk : Keeps s0 s) :
    Keeps s0 (proofLine s r a).s := by
  unfold proofLine
  try dsimp only
  repeat' (with_reducible first
    | assumption
    | exact Keeps.refl _
    | intro _
    | (apply State.signStart_keeps)
    | apply refuse_keeps
    | apply sized_keeps
    | dsimp only
    | (refine Keeps.ofEq (by assumption) ?_)
    | apply Keeps.ite
    | apply Keeps.foldl
    | apply Keeps.foldlFst
    | apply Keeps.setReg
    | simp only [Keeps.mk_iff]
    | simp only [Keeps.mkVlt_iff]
    | split)
  all_goals first
    | exact id
    | (intro _ hq; exact hq)
    | (intro _; rfl)
    | (intro _ hq; simp [hq]; done)
    | (intro hq; simp [hq]; done)
    | (simp_all; done)
    | (simp; done)

theorem State.proofReport_keeps {s0 : State} {s : State} {r : Reply} {body : List Byte} (hk : Keeps s0 s) :
    Keeps s0 (State.proofReport s r body) := by
  unfold State.proofReport
  try dsimp only
  repeat' (with_reducible first
    | assumption
    | exact Keeps.refl _
    | intro _
    | apply State.ringIn_keeps
    | (apply State.originate_keeps)
    | apply State.toQ2_keeps
    | (refine Keeps.ofEq (by assumption) ?_)
    | apply Keeps.ite
    | apply Keeps.foldl
    | apply Keeps.foldlFst
    | apply Keeps.setReg
    | simp only [Keeps.mk_iff]
    | simp only [Keeps.mkVlt_iff]
    | split)
  all_goals first
    | exact id
    | (intro _ hq; exact hq)
    | (intro _; rfl)
    | (intro _ hq; simp [hq]; done)
    | (intro hq; simp [hq]; done)
    | (simp_all; done)
    | (simp; done)

theorem State.proofDone_keeps {s0 : State} {s : State} (hk : Keeps s0 s) :
    Keeps s0 (State.proofDone s) := by
  unfold State.proofDone
  try dsimp only
  repeat' (with_reducible first
    | assumption
    | exact Keeps.refl _
    | intro _
    | apply State.useFree_keeps
    | apply State.post_keeps
    | apply State.modSec_keeps
    | apply State.secDone_keeps
    | apply State.proofReport_keeps
    | (refine Keeps.ofEq (by assumption) ?_)
    | apply Keeps.ite
    | apply Keeps.foldl
    | apply Keeps.foldlFst
    | apply Keeps.setReg
    | simp only [Keeps.mk_iff]
    | simp only [Keeps.mkVlt_iff]
    | split)
  all_goals first
    | exact id
    | (intro _ hq; exact hq)
    | (intro _; rfl)
    | (intro _ hq; simp [hq]; done)
    | (intro hq; simp [hq]; done)
    | (simp_all; done)
    | (simp; done)

theorem certLine_keeps {s0 : State} {s : State} {x1 : Reply} {a : List Byte} (hk : Keeps s0 s) :
    Keeps s0 (certLine s x1 a).s := by
  unfold certLine
  try dsimp only
  repeat' (with_reducible first
    | assumption
    | exact Keeps.refl _
    | intro _
    | apply refuse_keeps
    | apply sized_keeps
    | dsimp only
    | (refine Keeps.ofEq (by assumption) ?_)
    | apply Keeps.ite
    | apply Keeps.foldl
    | apply Keeps.foldlFst
    | apply Keeps.setReg
    | simp only [Keeps.mk_iff]
    | simp only [Keeps.mkVlt_iff]
    | split)
  all_goals first
    | exact id
    | (intro _ hq; exact hq)
    | (intro _; rfl)
    | (intro _ hq; simp [hq]; done)
    | (intro hq; simp [hq]; done)
    | (simp_all; done)
    | (simp; done)

theorem State.dropRoutine_keeps {s0 : State} {s : State} (hk : Keeps s0 s) :
    Keeps s0 (State.dropRoutine s) := by
  unfold State.dropRoutine
  try dsimp only
  repeat' (with_reducible first
    | assumption
    | exact Keeps.refl _
    | intro _
    | apply State.modMac_keeps
    | apply State.setRing_keeps
    | apply State.leftQ2_keeps
    | (refine Keeps.ofEq (by assumption) ?_)
    | apply Keeps.ite
    | apply Keeps.foldl
    | apply Keeps.foldlFst
    | apply Keeps.setReg
    | simp only [Keeps.mk_iff]
    | simp only [Keeps.mkVlt_iff]
    | split)
  all_goals first
    | exact id
    | (intro _ hq; exact hq)
    | (intro _; rfl)
    | (intro _ hq; simp [hq]; done)
    | (intro hq; simp [hq]; done)
    | (simp_all; done)
    | (simp; done)

theorem State.alarmSend_keeps {s0 : State} {s : State} {b : Nat} {n : Nat} {x : EvRec} {sl : Bool} (hk : Keeps s0 s) :
    Keeps s0 (State.alarmSend s b n x sl) := by
  unfold State.alarmSend
  try dsimp only
  repeat' (with_reducible first
    | assumption
    | exact Keeps.refl _
    | intro _
    | apply State.post_keeps
    | apply State.cmdStick_keeps
    | apply State.makeReport_keeps
    | apply State.dropRoutine_keeps
    | (refine Keeps.ofEq (by assumption) ?_)
    | apply Keeps.ite
    | apply Keeps.foldl
    | apply Keeps.foldlFst
    | apply Keeps.setReg
    | simp only [Keeps.mk_iff]
    | simp only [Keeps.mkVlt_iff]
    | split)
  all_goals first
    | exact id
    | (intro _ hq; exact hq)
    | (intro _; rfl)
    | (intro _ hq; simp [hq]; done)
    | (intro hq; simp [hq]; done)
    | (simp_all; done)
    | (simp; done)

theorem State.modAlarm_keeps {s0 : State} {s : State} {b : Nat} {f : Alarm → Alarm} (hk : Keeps s0 s) :
    Keeps s0 (State.modAlarm s b f) := by
  unfold State.modAlarm
  try dsimp only
  repeat' (with_reducible first
    | assumption
    | exact Keeps.refl _
    | intro _
    | apply State.modCmd_keeps
    | apply State.alarms_keeps
    | (refine Keeps.ofEq (by assumption) ?_)
    | apply Keeps.ite
    | apply Keeps.foldl
    | apply Keeps.foldlFst
    | apply Keeps.setReg
    | simp only [Keeps.mk_iff]
    | simp only [Keeps.mkVlt_iff]
    | split)
  all_goals first
    | exact id
    | (intro _ hq; exact hq)
    | (intro _; rfl)
    | (intro _ hq; simp [hq]; done)
    | (intro hq; simp [hq]; done)
    | (simp_all; done)
    | (simp; done)

theorem State.alarmMeet_keeps {s0 : State} {s : State} {x : EvRec} {sl : Bool} {b : Nat} (hk : Keeps s0 s) :
    Keeps s0 (State.alarmMeet s x sl b) := by
  unfold State.alarmMeet
  try dsimp only
  repeat' (with_reducible first
    | assumption
    | exact Keeps.refl _
    | intro _
    | apply State.alarmSend_keeps
    | apply State.modAlarm_keeps
    | apply State.alarms_keeps
    | (refine Keeps.ofEq (by assumption) ?_)
    | apply Keeps.ite
    | apply Keeps.foldl
    | apply Keeps.foldlFst
    | apply Keeps.setReg
    | simp only [Keeps.mk_iff]
    | simp only [Keeps.mkVlt_iff]
    | split)
  all_goals first
    | exact id
    | (intro _ hq; exact hq)
    | (intro _; rfl)
    | (intro _ hq; simp [hq]; done)
    | (intro hq; simp [hq]; done)
    | (simp_all; done)
    | (simp; done)

theorem State.alarms_keeps {s0 : State} {s : State} {x : EvRec} {sl : Bool} (hk : Keeps s0 s) :
    Keeps s0 (State.alarms s x sl) := by
  unfold State.alarms
  try dsimp only
  repeat' (with_reducible first
    | assumption
    | exact Keeps.refl _
    | intro _
    | apply State.alarmMeet_keeps
    | (refine Keeps.ofEq (by assumption) ?_)
    | apply Keeps.ite
    | apply Keeps.foldl
    | apply Keeps.foldlFst
    | apply Keeps.setReg
    | simp only [Keeps.mk_iff]
    | simp only [Keeps.mkVlt_iff]
    | split)
  all_goals first
    | exact id
    | (intro _ hq; exact hq)
    | (intro _; rfl)
    | (intro _ hq; simp [hq]; done)
    | (intro hq; simp [hq]; done)
    | (simp_all; done)
    | (simp; done)

theorem State.recorderTake_keeps {s0 : State} {s : State} (hk : Keeps s0 s) :
    Keeps s0 (State.recorderTake s) := by
  unfold State.recorderTake
  try dsimp only
  repeat' (with_reducible first
    | assumption
    | exact Keeps.refl _
    | intro _
    | (apply State.recTake_keeps)
    | apply State.alarms_keeps
    | (refine Keeps.ofEq (by assumption) ?_)
    | apply Keeps.ite
    | apply Keeps.foldl
    | apply Keeps.foldlFst
    | apply Keeps.setReg
    | simp only [Keeps.mk_iff]
    | simp only [Keeps.mkVlt_iff]
    | split)
  all_goals first
    | exact id
    | (intro _ hq; exact hq)
    | (intro _; rfl)
    | (intro _ hq; simp [hq]; done)
    | (intro hq; simp [hq]; done)
    | (simp_all; done)
    | (simp; done)

theorem State.alarmGapEnd_keeps {s0 : State} {s : State} {b : Nat} (hk : Keeps s0 s) :
    Keeps s0 (State.alarmGapEnd s b) := by
  unfold State.alarmGapEnd
  try dsimp only
  repeat' (with_reducible first
    | assumption
    | exact Keeps.refl _
    | intro _
    | apply State.alarmSend_keeps
    | apply State.modAlarm_keeps
    | apply State.alarms_keeps
    | (refine Keeps.ofEq (by assumption) ?_)
    | apply Keeps.ite
    | apply Keeps.foldl
    | apply Keeps.foldlFst
    | apply Keeps.setReg
    | simp only [Keeps.mk_iff]
    | simp only [Keeps.mkVlt_iff]
    | split)
  all_goals first
    | exact id
    | (intro _ hq; exact hq)
    | (intro _; rfl)
    | (intro _ hq; simp [hq]; done)
    | (intro hq; simp [hq]; done)
    | (simp_all; done)
    | (simp; done)

theorem State.periodic_keeps {s0 : State} {s : State} {opc : Nat} {body : List Byte} (hk : Keeps s0 s) :
    Keeps s0 (State.periodic s opc body) := by
  unfold State.periodic
  try dsimp only
  repeat' (with_reducible first
    | assumption
    | exact Keeps.refl _
    | intro _
    | apply State.post_keeps
    | apply State.cmdStick_keeps
    | apply State.makeReport_keeps
    | (refine Keeps.ofEq (by assumption) ?_)
    | apply Keeps.ite
    | apply Keeps.foldl
    | apply Keeps.foldlFst
    | apply Keeps.setReg
    | simp only [Keeps.mk_iff]
    | simp only [Keeps.mkVlt_iff]
    | split)
  all_goals first
    | exact id
    | (intro _ hq; exact hq)
    | (intro _; rfl)
    | (intro _ hq; simp [hq]; done)
    | (intro hq; simp [hq]; done)
    | (simp_all; done)
    | (simp; done)

theorem State.statusDue_keeps {s0 : State} {s : State} (hk : Keeps s0 s) :
    Keeps s0 (State.statusDue s) := by
  unfold State.statusDue
  try dsimp only
  repeat' (with_reducible first
    | assumption
    | exact Keeps.refl _
    | intro _
    | apply State.periodic_keeps
    | (refine Keeps.ofEq (by assumption) ?_)
    | apply Keeps.ite
    | apply Keeps.foldl
    | apply Keeps.foldlFst
    | apply Keeps.setReg
    | simp only [Keeps.mk_iff]
    | simp only [Keeps.mkVlt_iff]
    | split)
  all_goals first
    | exact id
    | (intro _ hq; exact hq)
    | (intro _; rfl)
    | (intro _ hq; simp [hq]; done)
    | (intro hq; simp [hq]; done)
    | (simp_all; done)
    | (simp; done)

theorem State.minuteReports_keeps {s0 : State} {s : State} (hk : Keeps s0 s) :
    Keeps s0 (State.minuteReports s) := by
  unfold State.minuteReports
  try dsimp only
  repeat' (with_reducible first
    | assumption
    | exact Keeps.refl _
    | intro _
    | apply State.modCmd_keeps
    | apply State.periodic_keeps
    | (refine Keeps.ofEq (by assumption) ?_)
    | apply Keeps.ite
    | apply Keeps.foldl
    | apply Keeps.foldlFst
    | apply Keeps.setReg
    | simp only [Keeps.mk_iff]
    | simp only [Keeps.mkVlt_iff]
    | split)
  all_goals first
    | exact id
    | (intro _ hq; exact hq)
    | (intro _; rfl)
    | (intro _ hq; simp [hq]; done)
    | (intro hq; simp [hq]; done)
    | (simp_all; done)
    | (simp; done)

theorem State.benchStart_keeps {s0 : State} {s : State} (hk : Keeps s0 s) :
    Keeps s0 (State.benchStart s) := by
  unfold State.benchStart
  try dsimp only
  repeat' (with_reducible first
    | assumption
    | exact Keeps.refl _
    | intro _
    | apply State.pulse_keeps
    | apply State.stormRestart_keeps
    | apply State.phyBench_keeps
    | apply State.secBench_keeps
    | apply State.macBench_keeps
    | apply State.statusDue_keeps
    | (refine Keeps.ofEq (by assumption) ?_)
    | apply Keeps.ite
    | apply Keeps.foldl
    | apply Keeps.foldlFst
    | apply Keeps.setReg
    | simp only [Keeps.mk_iff]
    | simp only [Keeps.mkVlt_iff]
    | split)
  all_goals first
    | exact id
    | (intro _ hq; exact hq)
    | (intro _; rfl)
    | (intro _ hq; simp [hq]; done)
    | (intro hq; simp [hq]; done)
    | (simp_all; done)
    | (simp; done)

end Sys2Proof.Machine
end

