-- ==== Sys2Proof/Laws/KeepsTick.lean ====
section
/-! SUPPORT. Every operation of Machine/Tick.lean keeps the queue and the shape of the state. -/

namespace Sys2Proof.Machine

theorem State.fabricDest_keeps {s0 : State} {s : State} {d : Nat} (hk : Keeps s0 s) :
    Keeps s0 (State.fabricDest s d) := by
  unfold State.fabricDest
  try dsimp only
  repeat' (with_reducible first
    | assumption
    | exact Keeps.refl _
    | intro _
    | apply State.irq_keeps
    | apply Keeps.modPwm
    | apply Keeps.modFlamp
    | apply State.userStart_keeps
    | apply State.pushLatest_keeps
    | apply State.gtKick_keeps
    | apply State.gtPulse_keeps
    | (refine Keeps.ofEq (by assumption) ?_)
    | apply Keeps.ite
    | apply Keeps.foldl
    | apply Keeps.foldlFst
    | apply Keeps.setReg
    | simp only [Keeps.mk_iff]
    | simp only [Keeps.mkVlt_iff]
    | split)
  all_goals first
    | exact id
    | (intro _ hq; exact hq)
    | (intro _; rfl)
    | (intro _ hq; simp [hq]; done)
    | (intro hq; simp [hq]; done)
    | (simp_all; done)
    | (simp; done)

theorem State.fabricTake_keeps {s0 : State} {s : State} {e : Nat × Nat} (hk : Keeps s0 s) :
    Keeps s0 (State.fabricTake s e) := by
  unfold State.fabricTake
  try dsimp only
  repeat' (with_reducible first
    | assumption
    | exact Keeps.refl _
    | intro _
    | apply VltState.erase_kept
    | (refine Keeps.ofEq (by assumption) ?_)
    | apply Keeps.ite
    | apply Keeps.foldl
    | apply Keeps.foldlFst
    | apply Keeps.setReg
    | simp only [Keeps.mk_iff]
    | simp only [Keeps.mkVlt_iff]
    | split)
  all_goals first
    | exact id
    | (intro _ hq; exact hq)
    | (intro _; rfl)
    | (intro _ hq; simp [hq]; done)
    | (intro hq; simp [hq]; done)
    | (simp_all; done)
    | (simp; done)

theorem State.fabricPulse_keeps {s0 : State} {s : State} {src : Nat} (hk : Keeps s0 s) :
    Keeps s0 (State.fabricPulse s src) := by
  unfold State.fabricPulse
  try dsimp only
  repeat' (with_reducible first
    | assumption
    | exact Keeps.refl _
    | intro _
    | apply State.pulse_keeps
    | apply State.fabricDest_keeps
    | apply State.fabricTake_keeps
    | (refine Keeps.ofEq (by assumption) ?_)
    | apply Keeps.ite
    | apply Keeps.foldl
    | apply Keeps.foldlFst
    | apply Keeps.setReg
    | simp only [Keeps.mk_iff]
    | simp only [Keeps.mkVlt_iff]
    | split)
  all_goals first
    | exact id
    | (intro _ hq; exact hq)
    | (intro _; rfl)
    | (intro _ hq; simp [hq]; done)
    | (intro hq; simp [hq]; done)
    | (simp_all; done)
    | (simp; done)

theorem State.dirSwap_keeps {s0 : State} {s : State} {new : List (Nat × Word)} (hk : Keeps s0 s) :
    Keeps s0 (State.dirSwap s new) := by
  unfold State.dirSwap
  try dsimp only
  repeat' (with_reducible first
    | assumption
    | exact Keeps.refl _
    | intro _
    | apply State.modSec_keeps
    | apply State.windowClear_keeps
    | apply State.dirSet_keeps
    | (refine Keeps.ofEq (by assumption) ?_)
    | apply Keeps.ite
    | apply Keeps.foldl
    | apply Keeps.foldlFst
    | apply Keeps.setReg
    | simp only [Keeps.mk_iff]
    | simp only [Keeps.mkVlt_iff]
    | split)
  all_goals first
    | exact id
    | (intro _ hq; exact hq)
    | (intro _; rfl)
    | (intro _ hq; simp [hq]; done)
    | (intro hq; simp [hq]; done)
    | (simp_all; done)
    | (simp; done)

theorem State.tabSwap_keeps {s0 : State} {s : State} (hk : Keeps s0 s) :
    Keeps s0 (State.tabSwap s) := by
  unfold State.tabSwap
  try dsimp only
  repeat' (with_reducible first
    | assumption
    | exact Keeps.refl _
    | intro _
    | apply Keeps.modVlt
    | apply Keeps.modFde
    | apply State.tablesLoad_keeps
    | apply State.replay_keeps
    | apply State.dirSwap_keeps
    | (refine Keeps.ofEq (by assumption) ?_)
    | apply Keeps.ite
    | apply Keeps.foldl
    | apply Keeps.foldlFst
    | apply Keeps.setReg
    | simp only [Keeps.mk_iff]
    | simp only [Keeps.mkVlt_iff]
    | split)
  all_goals first
    | exact id
    | (intro _ hq; exact hq)
    | (intro _; rfl)
    | (intro _ hq; simp [hq]; done)
    | (intro hq; simp [hq]; done)
    | (simp_all; done)
    | (simp; done)

theorem State.litDecide_keeps {s0 : State} {s : State} {old : Nat} (hk : Keeps s0 s) :
    Keeps s0 (State.litDecide s old) := by
  unfold State.litDecide
  try dsimp only
  repeat' (with_reducible first
    | assumption
    | exact Keeps.refl _
    | intro _
    | apply State.setFld_keeps
    | apply Keeps.forChans
    | apply State.startAll_keeps
    | apply State.stopAll_keeps
    | apply State.proofFirst_keeps
    | apply State.capturesClose_keeps
    | apply State.gtuIdle_keeps
    | apply State.lineStop_keeps
    | (refine Keeps.ofEq (by assumption) ?_)
    | apply Keeps.ite
    | apply Keeps.foldl
    | apply Keeps.foldlFst
    | apply Keeps.setReg
    | simp only [Keeps.mk_iff]
    | simp only [Keeps.mkVlt_iff]
    | split)
  all_goals first
    | exact id
    | (intro _ hq; exact hq)
    | (intro _; rfl)
    | (intro _ hq; simp [hq]; done)
    | (intro hq; simp [hq]; done)
    | (simp_all; done)
    | (simp; done)

theorem State.lampTick_keeps {s0 : State} {s : State} (hk : Keeps s0 s) :
    Keeps s0 (State.lampTick s) := by
  unfold State.lampTick
  try dsimp only
  repeat' (with_reducible first
    | assumption
    | exact Keeps.refl _
    | intro _
    | apply State.modKeep_keeps
    | apply State.fdeTick_keeps
    | (refine Keeps.ofEq (by assumption) ?_)
    | apply Keeps.ite
    | apply Keeps.foldl
    | apply Keeps.foldlFst
    | apply Keeps.setReg
    | simp only [Keeps.mk_iff]
    | simp only [Keeps.mkVlt_iff]
    | split)
  all_goals first
    | exact id
    | (intro _ hq; exact hq)
    | (intro _; rfl)
    | (intro _ hq; simp [hq]; done)
    | (intro hq; simp [hq]; done)
    | (simp_all; done)
    | (simp; done)

theorem State.lampAnswers_keeps {s0 : State} {s : State} (hk : Keeps s0 s) :
    Keeps s0 (State.lampAnswers s) := by
  unfold State.lampAnswers
  try dsimp only
  repeat' (with_reducible first
    | assumption
    | exact Keeps.refl _
    | intro _
    | apply Keeps.modFde
    | apply State.lampAnswer_keeps
    | (refine Keeps.ofEq (by assumption) ?_)
    | apply Keeps.ite
    | apply Keeps.foldl
    | apply Keeps.foldlFst
    | apply Keeps.setReg
    | simp only [Keeps.mk_iff]
    | simp only [Keeps.mkVlt_iff]
    | split)
  all_goals first
    | exact id
    | (intro _ hq; exact hq)
    | (intro _; rfl)
    | (intro _ hq; simp [hq]; done)
    | (intro hq; simp [hq]; done)
    | (simp_all; done)
    | (simp; done)

theorem State.mappings_keeps {s0 : State} {s : State} (hk : Keeps s0 s) :
    Keeps s0 (State.mappings s) := by
  unfold State.mappings
  try dsimp only
  repeat' (with_reducible first
    | assumption
    | exact Keeps.refl _
    | intro _
    | apply Keeps.forChans
    | apply State.mapCheck_keeps
    | apply State.proofAbandon_keeps
    | (refine Keeps.ofEq (by assumption) ?_)
    | apply Keeps.ite
    | apply Keeps.foldl
    | apply Keeps.foldlFst
    | apply Keeps.setReg
    | simp only [Keeps.mk_iff]
    | simp only [Keeps.mkVlt_iff]
    | split)
  all_goals first
    | exact id
    | (intro _ hq; exact hq)
    | (intro _; rfl)
    | (intro _ hq; simp [hq]; done)
    | (intro hq; simp [hq]; done)
    | (simp_all; done)
    | (simp; done)

theorem State.fadeTick_keeps {s0 : State} {s : State} (hk : Keeps s0 s) :
    Keeps s0 (State.fadeTick s) := by
  unfold State.fadeTick
  try dsimp only
  repeat' (with_reducible first
    | assumption
    | exact Keeps.refl _
    | intro _
    | apply State.pulse_keeps
    | apply State.lmpSwap_keeps
    | apply State.solve_keeps
    | apply State.fdeSwap_keeps
    | apply State.tvalidSet_keeps
    | apply State.powerOn_keeps
    | apply State.modPwr_keeps
    | apply State.tabSwap_keeps
    | apply State.litDecide_keeps
    | apply State.lampTick_keeps
    | apply State.lampAnswers_keeps
    | apply State.mappings_keeps
    | (refine Keeps.ofEq (by assumption) ?_)
    | apply Keeps.ite
    | apply Keeps.foldl
    | apply Keeps.foldlFst
    | apply Keeps.setReg
    | simp only [Keeps.mk_iff]
    | simp only [Keeps.mkVlt_iff]
    | split)
  all_goals first
    | exact id
    | (intro _ hq; exact hq)
    | (intro _; rfl)
    | (intro _ hq; simp [hq]; done)
    | (intro hq; simp [hq]; done)
    | (simp_all; done)
    | (simp; done)

end Sys2Proof.Machine
end

