-- ==== Sys2Proof/Laws/KeepsIdle.lean ====
section
/-! SUPPORT. Every operation of Machine/Idle.lean keeps the queue and the shape of the state. -/

namespace Sys2Proof.Machine

theorem State.kxoEdge_keeps {s0 : State} {s : State} (hk : Keeps s0 s) :
    Keeps s0 (State.kxoEdge s) := by
  unfold State.kxoEdge
  try dsimp only
  repeat' (with_reducible first
    | assumption
    | exact Keeps.refl _
    | intro _
    | apply State.kaEdge_keeps
    | apply Keeps.forGts
    | apply State.gtKxo_keeps
    | (refine Keeps.ofEq (by assumption) ?_)
    | apply Keeps.ite
    | apply Keeps.foldl
    | apply Keeps.foldlFst
    | apply Keeps.setReg
    | simp only [Keeps.mk_iff]
    | simp only [Keeps.mkVlt_iff]
    | split)
  all_goals first
    | exact id
    | (intro _ hq; exact hq)
    | (intro _; rfl)
    | (intro _ hq; simp [hq]; done)
    | (intro hq; simp [hq]; done)
    | (simp_all; done)
    | (simp; done)

theorem State.sysEdge_keeps {s0 : State} {s : State} (hk : Keeps s0 s) :
    Keeps s0 (State.sysEdge s) := by
  unfold State.sysEdge
  try dsimp only
  repeat' (with_reducible first
    | assumption
    | exact Keeps.refl _
    | intro _
    | apply State.timEdge_keeps
    | apply Keeps.forChans
    | apply State.pwmEdge_keeps
    | apply Keeps.forGts
    | apply State.gtEdge_keeps
    | (refine Keeps.ofEq (by assumption) ?_)
    | apply Keeps.ite
    | apply Keeps.foldl
    | apply Keeps.foldlFst
    | apply Keeps.setReg
    | simp only [Keeps.mk_iff]
    | simp only [Keeps.mkVlt_iff]
    | split)
  all_goals first
    | exact id
    | (intro _ hq; exact hq)
    | (intro _; rfl)
    | (intro _ hq; simp [hq]; done)
    | (intro hq; simp [hq]; done)
    | (simp_all; done)
    | (simp; done)

theorem State.litEdge_keeps {s0 : State} {s : State} (hk : Keeps s0 s) :
    Keeps s0 (State.litEdge s) := by
  unfold State.litEdge
  try dsimp only
  repeat' (with_reducible first
    | assumption
    | exact Keeps.refl _
    | intro _
    | apply State.modKeep_keeps
    | apply State.lineEdge_keeps
    | apply State.tabBurst_keeps
    | apply State.refuseUndefined_keeps
    | apply State.kxoEdge_keeps
    | apply State.sysEdge_keeps
    | (refine Keeps.ofEq (by assumption) ?_)
    | apply Keeps.ite
    | apply Keeps.foldl
    | apply Keeps.foldlFst
    | apply Keeps.setReg
    | simp only [Keeps.mk_iff]
    | simp only [Keeps.mkVlt_iff]
    | split)
  all_goals first
    | exact id
    | (intro _ hq; exact hq)
    | (intro _; rfl)
    | (intro _ hq; simp [hq]; done)
    | (intro hq; simp [hq]; done)
    | (simp_all; done)
    | (simp; done)

theorem State.idle_keeps {s0 : State} {s : State} (hk : Keeps s0 s) :
    Keeps s0 (State.idle s) := by
  unfold State.idle
  try dsimp only
  repeat' (with_reducible first
    | assumption
    | exact Keeps.refl _
    | intro _
    | apply settle_keeps
    | apply State.kaEdge_keeps
    | apply State.litEdge_keeps
    | (refine Keeps.ofEq (by assumption) ?_)
    | apply Keeps.ite
    | apply Keeps.foldl
    | apply Keeps.foldlFst
    | apply Keeps.setReg
    | simp only [Keeps.mk_iff]
    | simp only [Keeps.mkVlt_iff]
    | split)
  all_goals first
    | exact id
    | (intro _ hq; exact hq)
    | (intro _; rfl)
    | (intro _ hq; simp [hq]; done)
    | (intro hq; simp [hq]; done)
    | (simp_all; done)
    | (simp; done)

end Sys2Proof.Machine
end

