-- ==== Sys2Proof/WellFormed.lean ====
section
/-! DEFINITION. What an operand of a command may be beyond its type: the lengths that R270 gives the bytes of a frame. -/

namespace Sys2Proof

/-- The longest frame of R270, in bytes. -/
def frameMax : Nat := 256

/-- The longest payload of R270, in bytes; its first byte is the opcode (R287). -/
def payloadMax : Nat := 220

/-- The payload of a line command, opcode byte and arguments, is at most 220 bytes (R270). -/
def LineFrame.fits (f : LineFrame) : Bool := decide (f.args.length + 1 ≤ payloadMax)

/-- The operands of a command are ones the line can carry. Every other operand is bounded by its type. -/
def Instr.wf : Instr → Bool
  | .frameReceive _ bytes => decide (bytes.length ≤ frameMax)
  | .registerWrite _ _ _ => true
  | .pairLoRead _ _ => true
  | .pairHiRead _ _ => true
  | .pairHiWrite _ _ _ => true
  | .pairLoWrite _ _ _ => true
  | .tableDataRead _ _ => true
  | .tableDataWrite _ _ _ => true
  | .tableAddrWrite _ _ _ => true
  | .unlockWrite _ _ => true
  | .unlockTimeout _ => true
  | .eventFabricPulse _ => true
  | .gtPinPulseEnd _ => true
  | .syncoPulseEnd => true
  | .go _ _ => true
  | .softReset _ _ => true
  | .holdBegin _ => true
  | .holdEnd _ => true
  | .hwdKick _ _ => true
  | .hwdExpiry => true
  | .hwdBootTimeout => true
  | .lmpMapWrite _ _ => true
  | .lmpCfgWrite _ _ => true
  | .lmpTabOpen _ => true
  | .lmpTabClose _ => true
  | .lmpTabSave _ => true
  | .fadeTick => true
  | .scheduleMinute => true
  | .timedStartDue _ => true
  | .slotHoldExpiry _ _ => true
  | .ruleHoldEnd _ => true
  | .gestureHoldExpiry _ => true
  | .gestureComplete => true
  | .lossEntry => true
  | .fdeRcmdApply _ => true
  | .fdeRcmdApplyAt _ => true
  | .fdeRcmdApplyEvr _ => true
  | .fdeRcmdPlate _ _ => true
  | .fdeRcmdPlateAt _ _ => true
  | .fdeRcmdPlateEvr _ _ => true
  | .fdeRcmdRelease _ => true
  | .fdeTabOpen _ => true
  | .fdeTabClose _ => true
  | .fdeTabSave _ => true
  | .pwmEnaWrite _ _ => true
  | .pwmShadowWrite _ _ _ => true
  | .pwmZero _ _ => true
  | .pwmMidLoad _ => true
  | .pwmPeriod _ => true
  | .pwmCmpa _ => true
  | .pwmCmpb _ => true
  | .peakComparatorEnd _ _ => true
  | .swSensedLow _ _ => true
  | .lgSensedLow _ _ => true
  | .hgTurnOn _ _ => true
  | .dtmaxExpiry _ _ => true
  | .zeroCurrentDetect _ _ => true
  | .burnishEnd _ _ => true
  | .bootstrapUvlo _ => true
  | .pwmForceWrite _ _ => true
  | .forceEffect _ => true
  | .overcurrentTrip _ => true
  | .stringOvervoltageTrip _ => true
  | .tripPinActive _ => true
  | .linkUndervoltage _ => true
  | .linkOvervoltage _ => true
  | .overtemperature => true
  | .tripClear _ _ _ _ => true
  | .globalTripAutoClear => true
  | .stormWindowRestart => true
  | .pwmHoldTimeout _ => true
  | .synciEdge => true
  | .phrefPulse => true
  | .dimmingPeriodStart _ => true
  | .retryDue _ _ _ _ => true
  | .retryCountReset _ => true
  | .lockClear _ _ _ _ => true
  | .currentHoldCapture _ => true
  | .holdCaptureTimeout _ _ => true
  | .conversionDone _ => true
  | .userSeqEnd => true
  | .roundEnd => true
  | .proofRunRequest _ _ => true
  | .proofAutoDue _ => true
  | .proofSlotStart _ => true
  | .proofRunEnd _ => true
  | .proofRunTimeout _ => true
  | .ledrst _ => true
  | .mclr _ => true
  | .dtrefRelearn _ => true
  | .hltTabOpen _ => true
  | .hltTabClose _ => true
  | .hltTabSave _ => true
  | .stressRecordDue => true
  | .channelOnHour _ => true
  | .zcsEdge _ _ => true
  | .zcsTimeout => true
  | .courseStart _ => true
  | .benchStart => true
  | .relayBeaconSend => true
  | .headerReceive _ => true
  | .beaconReceive _ _ _ _ _ => true
  | .beaconMiss => true
  | .bvalidTimeout => true
  | .headListenEnd => true
  | .contentionTxStart _ => true
  | .ackSend => true
  | .ackReceive _ => true
  | .ackSpanEnd => true
  | .vldUndervoltage _ => true
  | .toneMapExpiry _ => true
  | .tmAutoRequest => true
  | .joinRetryDue => true
  | .roleWrite _ _ => true
  | .ringDataRead _ => true
  | .ringDataWrite _ _ => true
  | .ringPop _ => true
  | .ringPush _ => true
  | .ringAbort _ => true
  | .setCmd f => f.fits
  | .setAt f => f.fits
  | .setEvr f => f.fits
  | .plate f => f.fits
  | .plateAt f => f.fits
  | .plateEvr f => f.fits
  | .release f => f.fits
  | .event f => f.fits
  | .grpSet f => f.fits
  | .grpAdd f => f.fits
  | .grpDel f => f.fits
  | .posSet f => f.fits
  | .tabOpen f => f.fits
  | .tabWrite f => f.fits
  | .tabClose f => f.fits
  | .tabSave f => f.fits
  | .plateWr f => f.fits
  | .cfgSave f => f.fits
  | .qStatus f => f.fits
  | .qLamp f => f.fits
  | .qHealth f => f.fits
  | .qEnergy f => f.fits
  | .qHatch f => f.fits
  | .qEvents f => f.fits
  | .qGauge f => f.fits
  | .qTime f => f.fits
  | .qVersion f => f.fits
  | .qLink f => f.fits
  | .rd f => f.fits
  | .wr f => f.fits
  | .wrl f => f.fits
  | .joinReq f => f.fits
  | .joinResp f => f.fits
  | .addrSet f => f.fits
  | .roleSet f => f.fits
  | .rsvGrant f => f.fits
  | .rsvSet f => f.fits
  | .tmReq f => f.fits
  | .tmResp f => f.fits
  | .offsetSet f => f.fits
  | .leave f => f.fits
  | .tmAsk f => f.fits
  | .bBegin f => f.fits
  | .bBlock f => f.fits
  | .bRepair f => f.fits
  | .bCommit f => f.fits
  | .bCommitDone => true
  | .bAbort f => f.fits
  | .bundleApplyReset => true
  | .proof f => f.fits
  | .proofSignDone => true
  | .cert f => f.fits
  | .mbStat f => f.fits
  | .alarmGapEnd _ => true
  | .periodicReportMinute => true
  | .holdoverEntry => true
  | .timeSet _ => true
  | .timeSetcap _ => true
  | .setcapCancel _ => true
  | .ppsLost => true
  | .timSecRead _ => true
  | .alarmArm _ _ _ => true
  | .alarmFire _ => true
  | .kaCalibrationWindow => true
  | .keepSense _ _ => true
  | .timeCountResume => true
  | .gtuEnaWrite _ _ => true
  | .gtValueEffect _ => true
  | .gtCompareMatch _ _ _ => true
  | .gtTrigger _ => true
  | .gtuTrgWrite _ _ => true
  | .gtPinEdge _ _ => true
  | .gtCatchUp _ => true
  | .xoWindow _ => true
  | .handoverDone => true
  | .xoTimeout => true
  | .xoMissingEdge => true
  | .ircAccepted => true
  | .pllLocked => true
  | .clockGood => true
  | .ircCheck _ => true
  | .fatalRetry => true
  | .pllLockLoss => true
  | .pllRelockTimeout => true
  | .retxo _ => true
  | .kxoFail => true
  | .kxoWindow _ => true
  | .spreadApply => true
  | .vauxGood _ => true
  | .coreResetRelease => true
  | .kaTimeLoad => true
  | .vaultRecoveryEnd => true
  | .replayEnd => true
  | .mainsLoss _ => true
  | .keepTimeLoad => true
  | .reservationAnswer _ => true
  | .keepEntry _ => true
  | .coreBrownout => true
  | .borWarning => true
  | .rstAssert => true
  | .rstRelease _ => true
  | .kaPowerOnReset => true
  | .vdrvUndervoltage _ => true
  | .vdrvGood => true
  | .avddOutOfRange _ => true
  | .engineStall _ => true
  | .cellSelect _ _ => true
  | .cellRelease _ => true
  | .storeFull _ => true
  | .storeChargeResume _ => true
  | .mppUpdate _ => true
  | .gaugeSecond _ _ => true
  | .hourTick => true
  | .litHour => true
  | .commitDelayExpiry => true
  | .commitDone => true
  | .sectorRewriteDone => true
  | .bankBuildDone => true
  | .foldDone => true
  | .flashVerifyFail => true
  | .vltCommit _ => true
  | .pgwr _ => true
  | .vltErase _ => true
  | .legwr _ => true
  | .vltLock _ => true
  | .setpwd _ => true
  | .legload _ => true
  | .passwordWord _ _ => true
  | .passwordLockoutEnd => true
  | .regionTimeout _ _ => true
  | .rawRegionSelect _ _ => true
  | .hatInc _ => true
  | .loadkey _ => true
  | .erasekey _ => true
  | .commission _ _ => true
  | .retire _ _ => true
  | .fuseBurnDone => true
  | .secProof _ => true
  | .selftest _ => true
  | .selftestEnd _ => true
  | .savedir _ => true
  | .secKdataWrite _ _ => true
  | .secSlotSelect _ _ => true
  | .healthTestFail => true
  | .recorderTake => true
  | .sealReset _ _ => true
  | .hostEventPost _ _ => true
  | .vldGood => true
  | .avddGood => true
  | .vhioLoss => true
  | .vhioGood => true
  | .globalTripSourceInactive _ => true
  | .nominalBenchElapsed => true
  | .legWriteDone => true
  | .sectorEraseDone => true
  | .driverCurrentLimit => true
  | .jtagExtest _ => true

end Sys2Proof
end

