-- ==== Sys2Proof/Laws/PerInstr.lean ====
section
/-! SUPPORT. One lemma per constructor of Instr: a well-formed command brings no more bytes than the longest frame of R270 holds. -/

namespace Sys2Proof.Laws.Carried

/-- The bytes of a frame or of a payload that a command brings with it. -/
def bytes : Instr → Nat
  | .frameReceive _ b => b.length
  | .setCmd f => f.args.length + 1
  | .setAt f => f.args.length + 1
  | .setEvr f => f.args.length + 1
  | .plate f => f.args.length + 1
  | .plateAt f => f.args.length + 1
  | .plateEvr f => f.args.length + 1
  | .release f => f.args.length + 1
  | .event f => f.args.length + 1
  | .grpSet f => f.args.length + 1
  | .grpAdd f => f.args.length + 1
  | .grpDel f => f.args.length + 1
  | .posSet f => f.args.length + 1
  | .tabOpen f => f.args.length + 1
  | .tabWrite f => f.args.length + 1
  | .tabClose f => f.args.length + 1
  | .tabSave f => f.args.length + 1
  | .plateWr f => f.args.length + 1
  | .cfgSave f => f.args.length + 1
  | .qStatus f => f.args.length + 1
  | .qLamp f => f.args.length + 1
  | .qHealth f => f.args.length + 1
  | .qEnergy f => f.args.length + 1
  | .qHatch f => f.args.length + 1
  | .qEvents f => f.args.length + 1
  | .qGauge f => f.args.length + 1
  | .qTime f => f.args.length + 1
  | .qVersion f => f.args.length + 1
  | .qLink f => f.args.length + 1
  | .rd f => f.args.length + 1
  | .wr f => f.args.length + 1
  | .wrl f => f.args.length + 1
  | .joinReq f => f.args.length + 1
  | .joinResp f => f.args.length + 1
  | .addrSet f => f.args.length + 1
  | .roleSet f => f.args.length + 1
  | .rsvGrant f => f.args.length + 1
  | .rsvSet f => f.args.length + 1
  | .tmReq f => f.args.length + 1
  | .tmResp f => f.args.length + 1
  | .offsetSet f => f.args.length + 1
  | .leave f => f.args.length + 1
  | .tmAsk f => f.args.length + 1
  | .bBegin f => f.args.length + 1
  | .bBlock f => f.args.length + 1
  | .bRepair f => f.args.length + 1
  | .bCommit f => f.args.length + 1
  | .bAbort f => f.args.length + 1
  | .proof f => f.args.length + 1
  | .cert f => f.args.length + 1
  | .mbStat f => f.args.length + 1
  | _ => 0

/-- A well-formed command brings at most the 256 bytes of the longest frame. -/
def Statement (i : Instr) : Prop := i.wf = true → bytes i ≤ frameMax

theorem of_fits {f : LineFrame} (h : f.fits = true) : f.args.length + 1 ≤ frameMax :=
  Nat.le_trans (of_decide_eq_true h) (by decide)

theorem registerWrite (p : Path) (off : BitVec 7) (v : Word) : Statement (.registerWrite p off v) :=
  fun _ => Nat.zero_le _
theorem pairLoRead (p : Path) (off : BitVec 7) : Statement (.pairLoRead p off) := fun _ => Nat.zero_le _
theorem pairHiRead (p : Path) (off : BitVec 7) : Statement (.pairHiRead p off) := fun _ => Nat.zero_le _
theorem pairHiWrite (p : Path) (off : BitVec 7) (v : Word) : Statement (.pairHiWrite p off v) := fun _ => Nat.zero_le _
theorem pairLoWrite (p : Path) (off : BitVec 7) (v : Word) : Statement (.pairLoWrite p off v) := fun _ => Nat.zero_le _
theorem tableDataRead (p : Path) (off : BitVec 7) : Statement (.tableDataRead p off) := fun _ => Nat.zero_le _
theorem tableDataWrite (p : Path) (off : BitVec 7) (v : Word) : Statement (.tableDataWrite p off v) :=
  fun _ => Nat.zero_le _
theorem tableAddrWrite (p : Path) (off : BitVec 7) (v : Word) : Statement (.tableAddrWrite p off v) :=
  fun _ => Nat.zero_le _
theorem unlockWrite (p : Path) (v : Word) : Statement (.unlockWrite p v) := fun _ => Nat.zero_le _
theorem unlockTimeout (p : Path) : Statement (.unlockTimeout p) := fun _ => Nat.zero_le _
theorem eventFabricPulse (src : Byte) : Statement (.eventFabricPulse src) := fun _ => Nat.zero_le _
theorem gtPinPulseEnd (n : Fin 8) : Statement (.gtPinPulseEnd n) := fun _ => Nat.zero_le _
theorem syncoPulseEnd : Statement (.syncoPulseEnd) := fun _ => Nat.zero_le _
theorem go (p : Path) (v : Word) : Statement (.go p v) := fun _ => Nat.zero_le _
theorem softReset (p : Path) (v : Word) : Statement (.softReset p v) := fun _ => Nat.zero_le _
theorem holdBegin (jtag : Bool) : Statement (.holdBegin jtag) := fun _ => Nat.zero_le _
theorem holdEnd (jtag : Bool) : Statement (.holdEnd jtag) := fun _ => Nat.zero_le _
theorem hwdKick (p : Path) (v : Word) : Statement (.hwdKick p v) := fun _ => Nat.zero_le _
theorem hwdExpiry : Statement (.hwdExpiry) := fun _ => Nat.zero_le _
theorem hwdBootTimeout : Statement (.hwdBootTimeout) := fun _ => Nat.zero_le _
theorem lmpMapWrite (p : Path) (v : Word) : Statement (.lmpMapWrite p v) := fun _ => Nat.zero_le _
theorem lmpCfgWrite (p : Path) (v : Word) : Statement (.lmpCfgWrite p v) := fun _ => Nat.zero_le _
theorem lmpTabOpen (p : Path) : Statement (.lmpTabOpen p) := fun _ => Nat.zero_le _
theorem lmpTabClose (p : Path) : Statement (.lmpTabClose p) := fun _ => Nat.zero_le _
theorem lmpTabSave (p : Path) : Statement (.lmpTabSave p) := fun _ => Nat.zero_le _
theorem fadeTick : Statement (.fadeTick) := fun _ => Nat.zero_le _
theorem scheduleMinute : Statement (.scheduleMinute) := fun _ => Nat.zero_le _
theorem timedStartDue (l : Fin 8) : Statement (.timedStartDue l) := fun _ => Nat.zero_le _
theorem slotHoldExpiry (l : Fin 8) (lvl : Fin 8) : Statement (.slotHoldExpiry l lvl) := fun _ => Nat.zero_le _
theorem ruleHoldEnd (r : Fin 32) : Statement (.ruleHoldEnd r) := fun _ => Nat.zero_le _
theorem gestureHoldExpiry (l : Fin 8) : Statement (.gestureHoldExpiry l) := fun _ => Nat.zero_le _
theorem gestureComplete : Statement (.gestureComplete) := fun _ => Nat.zero_le _
theorem lossEntry : Statement (.lossEntry) := fun _ => Nat.zero_le _
theorem fdeRcmdApply (p : Path) : Statement (.fdeRcmdApply p) := fun _ => Nat.zero_le _
theorem fdeRcmdApplyAt (p : Path) : Statement (.fdeRcmdApplyAt p) := fun _ => Nat.zero_le _
theorem fdeRcmdApplyEvr (p : Path) : Statement (.fdeRcmdApplyEvr p) := fun _ => Nat.zero_le _
theorem fdeRcmdPlate (p : Path) (plate : Byte) : Statement (.fdeRcmdPlate p plate) := fun _ => Nat.zero_le _
theorem fdeRcmdPlateAt (p : Path) (plate : Byte) : Statement (.fdeRcmdPlateAt p plate) := fun _ => Nat.zero_le _
theorem fdeRcmdPlateEvr (p : Path) (plate : Byte) : Statement (.fdeRcmdPlateEvr p plate) := fun _ => Nat.zero_le _
theorem fdeRcmdRelease (p : Path) : Statement (.fdeRcmdRelease p) := fun _ => Nat.zero_le _
theorem fdeTabOpen (p : Path) : Statement (.fdeTabOpen p) := fun _ => Nat.zero_le _
theorem fdeTabClose (p : Path) : Statement (.fdeTabClose p) := fun _ => Nat.zero_le _
theorem fdeTabSave (p : Path) : Statement (.fdeTabSave p) := fun _ => Nat.zero_le _
theorem pwmEnaWrite (p : Path) (v : Word) : Statement (.pwmEnaWrite p v) := fun _ => Nat.zero_le _
theorem pwmShadowWrite (p : Path) (r : ShadowReg) (v : Word) : Statement (.pwmShadowWrite p r v) :=
  fun _ => Nat.zero_le _
theorem pwmZero (n : Fin 16) (bstLow : Bool) : Statement (.pwmZero n bstLow) := fun _ => Nat.zero_le _
theorem pwmMidLoad (n : Fin 16) : Statement (.pwmMidLoad n) := fun _ => Nat.zero_le _
theorem pwmPeriod (n : Fin 16) : Statement (.pwmPeriod n) := fun _ => Nat.zero_le _
theorem pwmCmpa (n : Fin 16) : Statement (.pwmCmpa n) := fun _ => Nat.zero_le _
theorem pwmCmpb (n : Fin 16) : Statement (.pwmCmpb n) := fun _ => Nat.zero_le _
theorem peakComparatorEnd (n : Fin 16) (cnt : Word) : Statement (.peakComparatorEnd n cnt) := fun _ => Nat.zero_le _
theorem swSensedLow (n : Fin 16) (cnt : Word) : Statement (.swSensedLow n cnt) := fun _ => Nat.zero_le _
theorem lgSensedLow (n : Fin 16) (cnt : Word) : Statement (.lgSensedLow n cnt) := fun _ => Nat.zero_le _
theorem hgTurnOn (n : Fin 16) (cnt : Word) : Statement (.hgTurnOn n cnt) := fun _ => Nat.zero_le _
theorem dtmaxExpiry (n : Fin 16) (cnt : Word) : Statement (.dtmaxExpiry n cnt) := fun _ => Nat.zero_le _
theorem zeroCurrentDetect (n : Fin 16) (cnt : Word) : Statement (.zeroCurrentDetect n cnt) := fun _ => Nat.zero_le _
theorem burnishEnd (n : Fin 16) (bstLow : Bool) : Statement (.burnishEnd n bstLow) := fun _ => Nat.zero_le _
theorem bootstrapUvlo (n : Fin 16) : Statement (.bootstrapUvlo n) := fun _ => Nat.zero_le _
theorem pwmForceWrite (p : Path) (v : Word) : Statement (.pwmForceWrite p v) := fun _ => Nat.zero_le _
theorem forceEffect (n : Fin 16) : Statement (.forceEffect n) := fun _ => Nat.zero_le _
theorem overcurrentTrip (n : Fin 16) : Statement (.overcurrentTrip n) := fun _ => Nat.zero_le _
theorem stringOvervoltageTrip (n : Fin 16) : Statement (.stringOvervoltageTrip n) := fun _ => Nat.zero_le _
theorem tripPinActive (t : Fin 4) : Statement (.tripPinActive t) := fun _ => Nat.zero_le _
theorem linkUndervoltage (level : Byte) : Statement (.linkUndervoltage level) := fun _ => Nat.zero_le _
theorem linkOvervoltage (level : Byte) : Statement (.linkOvervoltage level) := fun _ => Nat.zero_le _
theorem overtemperature : Statement (.overtemperature) := fun _ => Nat.zero_le _
theorem tripClear (p : Path) (oc ov : Word) (pins : BitVec 4) : Statement (.tripClear p oc ov pins) :=
  fun _ => Nat.zero_le _
theorem globalTripAutoClear : Statement (.globalTripAutoClear) := fun _ => Nat.zero_le _
theorem stormWindowRestart : Statement (.stormWindowRestart) := fun _ => Nat.zero_le _
theorem pwmHoldTimeout (n : Fin 16) : Statement (.pwmHoldTimeout n) := fun _ => Nat.zero_le _
theorem synciEdge : Statement (.synciEdge) := fun _ => Nat.zero_le _
theorem phrefPulse : Statement (.phrefPulse) := fun _ => Nat.zero_le _
theorem dimmingPeriodStart (g : Fin 9) : Statement (.dimmingPeriodStart g) := fun _ => Nat.zero_le _
theorem retryDue (n : Fin 16) (oc ov : Bool) (pins : BitVec 4) : Statement (.retryDue n oc ov pins) :=
  fun _ => Nat.zero_le _
theorem retryCountReset (n : Fin 16) : Statement (.retryCountReset n) := fun _ => Nat.zero_le _
theorem lockClear (p : Path) (oc ov : Word) (pins : BitVec 4) : Statement (.lockClear p oc ov pins) :=
  fun _ => Nat.zero_le _
theorem currentHoldCapture (n : Fin 16) : Statement (.currentHoldCapture n) := fun _ => Nat.zero_le _
theorem holdCaptureTimeout (n : Fin 16) (volt : Bool) : Statement (.holdCaptureTimeout n volt) :=
  fun _ => Nat.zero_le _
theorem conversionDone (raw : BitVec 14) : Statement (.conversionDone raw) := fun _ => Nat.zero_le _
theorem userSeqEnd : Statement (.userSeqEnd) := fun _ => Nat.zero_le _
theorem roundEnd : Statement (.roundEnd) := fun _ => Nat.zero_le _
theorem proofRunRequest (p : Path) (v : Word) : Statement (.proofRunRequest p v) := fun _ => Nat.zero_le _
theorem proofAutoDue (n : Fin 16) : Statement (.proofAutoDue n) := fun _ => Nat.zero_le _
theorem proofSlotStart (n : Fin 16) : Statement (.proofSlotStart n) := fun _ => Nat.zero_le _
theorem proofRunEnd (n : Fin 16) : Statement (.proofRunEnd n) := fun _ => Nat.zero_le _
theorem proofRunTimeout (n : Fin 16) : Statement (.proofRunTimeout n) := fun _ => Nat.zero_le _
theorem ledrst (p : Path) : Statement (.ledrst p) := fun _ => Nat.zero_le _
theorem mclr (p : Path) : Statement (.mclr p) := fun _ => Nat.zero_le _
theorem dtrefRelearn (p : Path) : Statement (.dtrefRelearn p) := fun _ => Nat.zero_le _
theorem hltTabOpen (p : Path) : Statement (.hltTabOpen p) := fun _ => Nat.zero_le _
theorem hltTabClose (p : Path) : Statement (.hltTabClose p) := fun _ => Nat.zero_le _
theorem hltTabSave (p : Path) : Statement (.hltTabSave p) := fun _ => Nat.zero_le _
theorem stressRecordDue : Statement (.stressRecordDue) := fun _ => Nat.zero_le _
theorem channelOnHour (n : Fin 16) : Statement (.channelOnHour n) := fun _ => Nat.zero_le _
theorem zcsEdge (rising : Bool) (us : Nat) : Statement (.zcsEdge rising us) := fun _ => Nat.zero_le _
theorem zcsTimeout : Statement (.zcsTimeout) := fun _ => Nat.zero_le _
theorem courseStart (pre : BitVec 24) : Statement (.courseStart pre) := fun _ => Nat.zero_le _
theorem benchStart : Statement (.benchStart) := fun _ => Nat.zero_le _
theorem relayBeaconSend : Statement (.relayBeaconSend) := fun _ => Nat.zero_le _
theorem headerReceive (hdr : BitVec 40) : Statement (.headerReceive hdr) := fun _ => Nat.zero_le _
theorem frameReceive (robo : Bool) (bytes : List Byte) : Statement (.frameReceive robo bytes) :=
  fun h => of_decide_eq_true h
theorem beaconReceive (short : BitVec 29) (course : BitVec 6) (posn : BitVec 5) (ago : Nat) (snr : Byte) : Statement (.beaconReceive short course posn ago snr) :=
  fun _ => Nat.zero_le _
theorem beaconMiss : Statement (.beaconMiss) := fun _ => Nat.zero_le _
theorem bvalidTimeout : Statement (.bvalidTimeout) := fun _ => Nat.zero_le _
theorem headListenEnd : Statement (.headListenEnd) := fun _ => Nat.zero_le _
theorem contentionTxStart (n : Nat) : Statement (.contentionTxStart n) := fun _ => Nat.zero_le _
theorem ackSend : Statement (.ackSend) := fun _ => Nat.zero_le _
theorem ackReceive (short : BitVec 29) : Statement (.ackReceive short) := fun _ => Nat.zero_le _
theorem ackSpanEnd : Statement (.ackSpanEnd) := fun _ => Nat.zero_le _
theorem vldUndervoltage (level : Byte) : Statement (.vldUndervoltage level) := fun _ => Nat.zero_le _
theorem toneMapExpiry (e : Fin 32) : Statement (.toneMapExpiry e) := fun _ => Nat.zero_le _
theorem tmAutoRequest : Statement (.tmAutoRequest) := fun _ => Nat.zero_le _
theorem joinRetryDue : Statement (.joinRetryDue) := fun _ => Nat.zero_le _
theorem roleWrite (p : Path) (v : Word) : Statement (.roleWrite p v) := fun _ => Nat.zero_le _
theorem ringDataRead (p : Path) : Statement (.ringDataRead p) := fun _ => Nat.zero_le _
theorem ringDataWrite (p : Path) (v : Word) : Statement (.ringDataWrite p v) := fun _ => Nat.zero_le _
theorem ringPop (p : Path) : Statement (.ringPop p) := fun _ => Nat.zero_le _
theorem ringPush (p : Path) : Statement (.ringPush p) := fun _ => Nat.zero_le _
theorem ringAbort (p : Path) : Statement (.ringAbort p) := fun _ => Nat.zero_le _
theorem setCmd (f : LineFrame) : Statement (.setCmd f) := fun h => of_fits h
theorem setAt (f : LineFrame) : Statement (.setAt f) := fun h => of_fits h
theorem setEvr (f : LineFrame) : Statement (.setEvr f) := fun h => of_fits h
theorem plate (f : LineFrame) : Statement (.plate f) := fun h => of_fits h
theorem plateAt (f : LineFrame) : Statement (.plateAt f) := fun h => of_fits h
theorem plateEvr (f : LineFrame) : Statement (.plateEvr f) := fun h => of_fits h
theorem release (f : LineFrame) : Statement (.release f) := fun h => of_fits h
theorem event (f : LineFrame) : Statement (.event f) := fun h => of_fits h
theorem grpSet (f : LineFrame) : Statement (.grpSet f) := fun h => of_fits h
theorem grpAdd (f : LineFrame) : Statement (.grpAdd f) := fun h => of_fits h
theorem grpDel (f : LineFrame) : Statement (.grpDel f) := fun h => of_fits h
theorem posSet (f : LineFrame) : Statement (.posSet f) := fun h => of_fits h
theorem tabOpen (f : LineFrame) : Statement (.tabOpen f) := fun h => of_fits h
theorem tabWrite (f : LineFrame) : Statement (.tabWrite f) := fun h => of_fits h
theorem tabClose (f : LineFrame) : Statement (.tabClose f) := fun h => of_fits h
theorem tabSave (f : LineFrame) : Statement (.tabSave f) := fun h => of_fits h
theorem plateWr (f : LineFrame) : Statement (.plateWr f) := fun h => of_fits h
theorem cfgSave (f : LineFrame) : Statement (.cfgSave f) := fun h => of_fits h
theorem qStatus (f : LineFrame) : Statement (.qStatus f) := fun h => of_fits h
theorem qLamp (f : LineFrame) : Statement (.qLamp f) := fun h => of_fits h
theorem qHealth (f : LineFrame) : Statement (.qHealth f) := fun h => of_fits h
theorem qEnergy (f : LineFrame) : Statement (.qEnergy f) := fun h => of_fits h
theorem qHatch (f : LineFrame) : Statement (.qHatch f) := fun h => of_fits h
theorem qEvents (f : LineFrame) : Statement (.qEvents f) := fun h => of_fits h
theorem qGauge (f : LineFrame) : Statement (.qGauge f) := fun h => of_fits h
theorem qTime (f : LineFrame) : Statement (.qTime f) := fun h => of_fits h
theorem qVersion (f : LineFrame) : Statement (.qVersion f) := fun h => of_fits h
theorem qLink (f : LineFrame) : Statement (.qLink f) := fun h => of_fits h
theorem rd (f : LineFrame) : Statement (.rd f) := fun h => of_fits h
theorem wr (f : LineFrame) : Statement (.wr f) := fun h => of_fits h
theorem wrl (f : LineFrame) : Statement (.wrl f) := fun h => of_fits h
theorem joinReq (f : LineFrame) : Statement (.joinReq f) := fun h => of_fits h
theorem joinResp (f : LineFrame) : Statement (.joinResp f) := fun h => of_fits h
theorem addrSet (f : LineFrame) : Statement (.addrSet f) := fun h => of_fits h
theorem roleSet (f : LineFrame) : Statement (.roleSet f) := fun h => of_fits h
theorem rsvGrant (f : LineFrame) : Statement (.rsvGrant f) := fun h => of_fits h
theorem rsvSet (f : LineFrame) : Statement (.rsvSet f) := fun h => of_fits h
theorem tmReq (f : LineFrame) : Statement (.tmReq f) := fun h => of_fits h
theorem tmResp (f : LineFrame) : Statement (.tmResp f) := fun h => of_fits h
theorem offsetSet (f : LineFrame) : Statement (.offsetSet f) := fun h => of_fits h
theorem leave (f : LineFrame) : Statement (.leave f) := fun h => of_fits h
theorem tmAsk (f : LineFrame) : Statement (.tmAsk f) := fun h => of_fits h
theorem bBegin (f : LineFrame) : Statement (.bBegin f) := fun h => of_fits h
theorem bBlock (f : LineFrame) : Statement (.bBlock f) := fun h => of_fits h
theorem bRepair (f : LineFrame) : Statement (.bRepair f) := fun h => of_fits h
theorem bCommit (f : LineFrame) : Statement (.bCommit f) := fun h => of_fits h
theorem bCommitDone : Statement (.bCommitDone) := fun _ => Nat.zero_le _
theorem bAbort (f : LineFrame) : Statement (.bAbort f) := fun h => of_fits h
theorem bundleApplyReset : Statement (.bundleApplyReset) := fun _ => Nat.zero_le _
theorem proof (f : LineFrame) : Statement (.proof f) := fun h => of_fits h
theorem proofSignDone : Statement (.proofSignDone) := fun _ => Nat.zero_le _
theorem cert (f : LineFrame) : Statement (.cert f) := fun h => of_fits h
theorem mbStat (f : LineFrame) : Statement (.mbStat f) := fun h => of_fits h
theorem alarmGapEnd (b : Fin 13) : Statement (.alarmGapEnd b) := fun _ => Nat.zero_le _
theorem periodicReportMinute : Statement (.periodicReportMinute) := fun _ => Nat.zero_le _
theorem holdoverEntry : Statement (.holdoverEntry) := fun _ => Nat.zero_le _
theorem timeSet (p : Path) : Statement (.timeSet p) := fun _ => Nat.zero_le _
theorem timeSetcap (p : Path) : Statement (.timeSetcap p) := fun _ => Nat.zero_le _
theorem setcapCancel (p : Path) : Statement (.setcapCancel p) := fun _ => Nat.zero_le _
theorem ppsLost : Statement (.ppsLost) := fun _ => Nat.zero_le _
theorem timSecRead (p : Path) : Statement (.timSecRead p) := fun _ => Nat.zero_le _
theorem alarmArm (p : Path) (n : Fin 4) (v : Word) : Statement (.alarmArm p n v) := fun _ => Nat.zero_le _
theorem alarmFire (n : Fin 4) : Statement (.alarmFire n) := fun _ => Nat.zero_le _
theorem kaCalibrationWindow : Statement (.kaCalibrationWindow) := fun _ => Nat.zero_le _
theorem keepSense (temp : Word) (vstore : Word) : Statement (.keepSense temp vstore) := fun _ => Nat.zero_le _
theorem timeCountResume : Statement (.timeCountResume) := fun _ => Nat.zero_le _
theorem gtuEnaWrite (p : Path) (v : Word) : Statement (.gtuEnaWrite p v) := fun _ => Nat.zero_le _
theorem gtValueEffect (n : Fin 8) : Statement (.gtValueEffect n) := fun _ => Nat.zero_le _
theorem gtCompareMatch (n : Fin 8) (m0 m1 : Bool) : Statement (.gtCompareMatch n m0 m1) := fun _ => Nat.zero_le _
theorem gtTrigger (n : Fin 8) : Statement (.gtTrigger n) := fun _ => Nat.zero_le _
theorem gtuTrgWrite (p : Path) (v : Word) : Statement (.gtuTrgWrite p v) := fun _ => Nat.zero_le _
theorem gtPinEdge (n : Fin 8) (level : Bool) : Statement (.gtPinEdge n level) := fun _ => Nat.zero_le _
theorem gtCatchUp (n : Fin 8) : Statement (.gtCatchUp n) := fun _ => Nat.zero_le _
theorem xoWindow (cnt : Word) : Statement (.xoWindow cnt) := fun _ => Nat.zero_le _
theorem handoverDone : Statement (.handoverDone) := fun _ => Nat.zero_le _
theorem xoTimeout : Statement (.xoTimeout) := fun _ => Nat.zero_le _
theorem xoMissingEdge : Statement (.xoMissingEdge) := fun _ => Nat.zero_le _
theorem ircAccepted : Statement (.ircAccepted) := fun _ => Nat.zero_le _
theorem pllLocked : Statement (.pllLocked) := fun _ => Nat.zero_le _
theorem clockGood : Statement (.clockGood) := fun _ => Nat.zero_le _
theorem ircCheck (cnt : Word) : Statement (.ircCheck cnt) := fun _ => Nat.zero_le _
theorem fatalRetry : Statement (.fatalRetry) := fun _ => Nat.zero_le _
theorem pllLockLoss : Statement (.pllLockLoss) := fun _ => Nat.zero_le _
theorem pllRelockTimeout : Statement (.pllRelockTimeout) := fun _ => Nat.zero_le _
theorem retxo (p : Path) : Statement (.retxo p) := fun _ => Nat.zero_le _
theorem kxoFail : Statement (.kxoFail) := fun _ => Nat.zero_le _
theorem kxoWindow (cnt : Nat) : Statement (.kxoWindow cnt) := fun _ => Nat.zero_le _
theorem spreadApply : Statement (.spreadApply) := fun _ => Nat.zero_le _
theorem vauxGood (strap : Bool) : Statement (.vauxGood strap) := fun _ => Nat.zero_le _
theorem coreResetRelease : Statement (.coreResetRelease) := fun _ => Nat.zero_le _
theorem kaTimeLoad : Statement (.kaTimeLoad) := fun _ => Nat.zero_le _
theorem vaultRecoveryEnd : Statement (.vaultRecoveryEnd) := fun _ => Nat.zero_le _
theorem replayEnd : Statement (.replayEnd) := fun _ => Nat.zero_le _
theorem mainsLoss (zcs : Bool) : Statement (.mainsLoss zcs) := fun _ => Nat.zero_le _
theorem keepTimeLoad : Statement (.keepTimeLoad) := fun _ => Nat.zero_le _
theorem reservationAnswer (vstore : Word) : Statement (.reservationAnswer vstore) := fun _ => Nat.zero_le _
theorem keepEntry (vstore : Word) : Statement (.keepEntry vstore) := fun _ => Nat.zero_le _
theorem coreBrownout : Statement (.coreBrownout) := fun _ => Nat.zero_le _
theorem borWarning : Statement (.borWarning) := fun _ => Nat.zero_le _
theorem rstAssert : Statement (.rstAssert) := fun _ => Nat.zero_le _
theorem rstRelease (strap : Bool) : Statement (.rstRelease strap) := fun _ => Nat.zero_le _
theorem kaPowerOnReset : Statement (.kaPowerOnReset) := fun _ => Nat.zero_le _
theorem vdrvUndervoltage (level : Byte) : Statement (.vdrvUndervoltage level) := fun _ => Nat.zero_le _
theorem vdrvGood : Statement (.vdrvGood) := fun _ => Nat.zero_le _
theorem avddOutOfRange (level : Word) : Statement (.avddOutOfRange level) := fun _ => Nat.zero_le _
theorem engineStall (e : Engine) : Statement (.engineStall e) := fun _ => Nat.zero_le _
theorem cellSelect (vstore vcell : Word) : Statement (.cellSelect vstore vcell) := fun _ => Nat.zero_le _
theorem cellRelease (vstore : Word) : Statement (.cellRelease vstore) := fun _ => Nat.zero_le _
theorem storeFull (vstore : Word) : Statement (.storeFull vstore) := fun _ => Nat.zero_le _
theorem storeChargeResume (vstore : Word) : Statement (.storeChargeResume vstore) := fun _ => Nat.zero_le _
theorem mppUpdate (ratio : Word) : Statement (.mppUpdate ratio) := fun _ => Nat.zero_le _
theorem gaugeSecond (cls : Fin 16) (uj : Nat) : Statement (.gaugeSecond cls uj) := fun _ => Nat.zero_le _
theorem hourTick : Statement (.hourTick) := fun _ => Nat.zero_le _
theorem litHour : Statement (.litHour) := fun _ => Nat.zero_le _
theorem commitDelayExpiry : Statement (.commitDelayExpiry) := fun _ => Nat.zero_le _
theorem commitDone : Statement (.commitDone) := fun _ => Nat.zero_le _
theorem sectorRewriteDone : Statement (.sectorRewriteDone) := fun _ => Nat.zero_le _
theorem bankBuildDone : Statement (.bankBuildDone) := fun _ => Nat.zero_le _
theorem foldDone : Statement (.foldDone) := fun _ => Nat.zero_le _
theorem flashVerifyFail : Statement (.flashVerifyFail) := fun _ => Nat.zero_le _
theorem vltCommit (p : Path) : Statement (.vltCommit p) := fun _ => Nat.zero_le _
theorem pgwr (p : Path) : Statement (.pgwr p) := fun _ => Nat.zero_le _
theorem vltErase (p : Path) : Statement (.vltErase p) := fun _ => Nat.zero_le _
theorem legwr (p : Path) : Statement (.legwr p) := fun _ => Nat.zero_le _
theorem vltLock (p : Path) : Statement (.vltLock p) := fun _ => Nat.zero_le _
theorem setpwd (p : Path) : Statement (.setpwd p) := fun _ => Nat.zero_le _
theorem legload (p : Path) : Statement (.legload p) := fun _ => Nat.zero_le _
theorem passwordWord (p : Path) (v : Word) : Statement (.passwordWord p v) := fun _ => Nat.zero_le _
theorem passwordLockoutEnd : Statement (.passwordLockoutEnd) := fun _ => Nat.zero_le _
theorem regionTimeout (p : Path) (r : Fin 3) : Statement (.regionTimeout p r) := fun _ => Nat.zero_le _
theorem rawRegionSelect (p : Path) (v : Word) : Statement (.rawRegionSelect p v) := fun _ => Nat.zero_le _
theorem hatInc (p : Path) : Statement (.hatInc p) := fun _ => Nat.zero_le _
theorem loadkey (p : Path) : Statement (.loadkey p) := fun _ => Nat.zero_le _
theorem erasekey (p : Path) : Statement (.erasekey p) := fun _ => Nat.zero_le _
theorem commission (p : Path) (v : Word) : Statement (.commission p v) := fun _ => Nat.zero_le _
theorem retire (p : Path) (v : Word) : Statement (.retire p v) := fun _ => Nat.zero_le _
theorem fuseBurnDone : Statement (.fuseBurnDone) := fun _ => Nat.zero_le _
theorem secProof (p : Path) : Statement (.secProof p) := fun _ => Nat.zero_le _
theorem selftest (p : Path) : Statement (.selftest p) := fun _ => Nat.zero_le _
theorem selftestEnd (fail : Option (Fin 6)) : Statement (.selftestEnd fail) := fun _ => Nat.zero_le _
theorem savedir (p : Path) : Statement (.savedir p) := fun _ => Nat.zero_le _
theorem secKdataWrite (p : Path) (v : Word) : Statement (.secKdataWrite p v) := fun _ => Nat.zero_le _
theorem secSlotSelect (p : Path) (v : Word) : Statement (.secSlotSelect p v) := fun _ => Nat.zero_le _
theorem healthTestFail : Statement (.healthTestFail) := fun _ => Nat.zero_le _
theorem recorderTake : Statement (.recorderTake) := fun _ => Nat.zero_le _
theorem sealReset (p : Path) (v : Word) : Statement (.sealReset p v) := fun _ => Nat.zero_le _
theorem hostEventPost (p : Path) (v : Word) : Statement (.hostEventPost p v) := fun _ => Nat.zero_le _
theorem vldGood : Statement (.vldGood) := fun _ => Nat.zero_le _
theorem avddGood : Statement (.avddGood) := fun _ => Nat.zero_le _
theorem vhioLoss : Statement (.vhioLoss) := fun _ => Nat.zero_le _
theorem vhioGood : Statement (.vhioGood) := fun _ => Nat.zero_le _
theorem globalTripSourceInactive (src : GlobalSrc) : Statement (.globalTripSourceInactive src) :=
  fun _ => Nat.zero_le _
theorem nominalBenchElapsed : Statement (.nominalBenchElapsed) := fun _ => Nat.zero_le _
theorem legWriteDone : Statement (.legWriteDone) := fun _ => Nat.zero_le _
theorem sectorEraseDone : Statement (.sectorEraseDone) := fun _ => Nat.zero_le _
theorem driverCurrentLimit : Statement (.driverCurrentLimit) := fun _ => Nat.zero_le _
theorem jtagExtest (active : Bool) : Statement (.jtagExtest active) := fun _ => Nat.zero_le _

end Sys2Proof.Laws.Carried
end

