-- ==== Sys2Proof/Laws/Touch.lean ====
section
/-! SUPPORT. The relation `Touch m s t`: t differs from s at most in the registers and parts of the mask m. Masks are
numbers, a bit for each register and each part, so that inclusion is one bit operation. The files Laws/Touch*.lean give
every operation its mask and prove it; the frames of the commands follow. -/

namespace Sys2Proof.Machine

/-- The bit of a register, by its first key, and of a part. -/
abbrev rbit (k : Nat) : Nat := 1 <<< (k / 64)
def Part.idx : Part → Nat
  | .host => 2304
  | .remote => 2305
  | .fabric => 2306
  | .posted => 2307
  | .q6 => 2308
  | .q7 => 2309
  | .clk => 2310
  | .tim => 2311
  | .keep => 2312
  | .pwr => 2313
  | .flash => 2314
  | .drops => 2315
  | .vlt => 2316
  | .pwm => 2317
  | .lmp => 2318
  | .fde => 2319
  | .hlt => 2320
  | .phy => 2321
  | .mac => 2322
  | .gtu => 2323
  | .sec => 2324
  | .cmd => 2325
  | .cyc => 2326
  | .free => 2327
  | .acted => 2328
  | .actedAt => 2329
  | .pulses => 2330
  | .last => 2331
abbrev Part.bit (p : Part) : Nat := 1 <<< p.idx

/-- The mask has the register `r` (a key divided by 64). -/
abbrev Has (m r : Nat) : Prop := m.testBit r = true
/-- Every bit of `a` is in `b`. -/
abbrev Sub (a b : Nat) : Prop := a &&& b = a

theorem Has.sub {a b r : Nat} (h : Has a r) (g : Sub a b) : Has b r := by
  unfold Has Sub at *
  rw [← g, Nat.testBit_and] at h
  simp_all

theorem Sub.trans {a b c : Nat} (h : Sub a b) (g : Sub b c) : Sub a c := by
  unfold Sub at *
  rw [← h, Nat.and_assoc, g]

theorem Sub.refl (a : Nat) : Sub a a := Nat.and_self a

theorem Has.at {m i : Nat} {f : Fld} (h0 : f.key % 64 = 0) (h : Has m (f.key / 64)) : Has m ((f.at i).key / 64) := by
  have : (f.at i).key / 64 = f.key / 64 := by simp only [Fld.at, cell]; omega
  rw [this]; exact h

theorem Has.cell {m i k : Nat} (h0 : k % 64 = 0) (h : Has m (k / 64)) : Has m (cell k i / 64) := by
  have : Sys2Proof.cell k i / 64 = k / 64 := by simp only [Sys2Proof.cell]; omega
  rw [this]; exact h

theorem Has.cellNext {m i k : Nat} (h0 : k % 64 = 0) (h : Has m ((k + 64) / 64)) : Has m ((Sys2Proof.cell k i + 64) / 64) := by
  have : (Sys2Proof.cell k i + 64) / 64 = (k + 64) / 64 := by simp only [Sys2Proof.cell]; omega
  rw [this]; exact h

theorem Has.ite {m : Nat} {a b : Fld} {c : Prop} [Decidable c] (ha : Has m (a.key / 64)) (hb : Has m (b.key / 64)) :
    Has m ((if c then a else b).key / 64) := by split <;> assumption

/-- `t` differs from `s` at most in what the mask names. -/
def Touch (m : Nat) (s t : State) : Prop :=
  (∀ k, k / 64 < 2304 → m.testBit (k / 64) = false → t.reg k = s.reg k) ∧ ∀ p : Part, m.testBit p.idx = false → p.same s t

theorem Part.same_refl (s : State) (p : Part) : p.same s s := by cases p <;> rfl

theorem Part.same_trans {s t u : State} {p : Part} (h : p.same s t) (g : p.same t u) : p.same s u := by
  cases p <;> exact Eq.trans g h

theorem Touch.refl {m : Nat} {s : State} : Touch m s s := ⟨fun _ _ _ => rfl, fun p _ => p.same_refl s⟩

theorem Touch.trans {m : Nat} {s t u : State} (h : Touch m s t) (g : Touch m t u) : Touch m s u :=
  ⟨fun k hl hk => (g.1 k hl hk).trans (h.1 k hl hk), fun p hp => Part.same_trans (h.2 p hp) (g.2 p hp)⟩

theorem Touch.mono {a b : Nat} {s t : State} (h : Touch a s t) (g : Sub a b) : Touch b s t := by
  have e : ∀ i, b.testBit i = false → a.testBit i = false := by
    intro i hi
    have : (a &&& b).testBit i = a.testBit i := by rw [g]
    simpa [Nat.testBit_and, hi] using this.symm
  exact ⟨fun k hl hk => h.1 k hl (e _ hk), fun p hp => h.2 p (e _ hp)⟩

theorem Touch.ite {m : Nat} {s a b : State} {c : Prop} [Decidable c] (ha : Touch m s a) (hb : Touch m s b) :
    Touch m s (if c then a else b) := by
  split <;> assumption

theorem Touch.foldl {α : Type} {m : Nat} {s t : State} {l : List α} {f : State → α → State}
    (h : ∀ u x, Touch m s u → Touch m s (f u x)) (ht : Touch m s t) : Touch m s (l.foldl f t) := by
  induction l generalizing t with
  | nil => exact ht
  | cons x l ih => exact ih (h t x ht)

theorem Touch.foldlFst {α β : Type} {m : Nat} {s t : State} {b : β} {l : List α} {f : State × β → α → State × β}
    (h : ∀ u x, Touch m s u.1 → Touch m s (f u x).1) (ht : Touch m s t) : Touch m s (l.foldl f (t, b)).1 := by
  have : ∀ (l : List α) (p : State × β), Touch m s p.1 → Touch m s (l.foldl f p).1 := by
    intro l
    induction l with
    | nil => exact fun _ h => h
    | cons x l ih => exact fun p hp => ih _ (h p x hp)
  exact this l (t, b) ht

theorem Touch.ofEq {m : Nat} {s t : State} {β : Type} {p : State × β} {w : β} (e : p = (t, w)) (h : Touch m s p.1) :
    Touch m s t := by
  rw [e] at h; exact h

theorem Touch.setReg {m : Nat} {s t : State} {k : Nat} {v : Word} (h : Touch m s t) (hk : Has m (k / 64)) :
    Touch m s (t.setReg k v) := by
  refine ⟨fun j hl hj => ?_, fun p hp => Part.same_trans (h.2 p hp) (by cases p <;> rfl)⟩
  have : j ≠ k := by rintro rfl; rw [Has, hj] at hk; exact absurd hk (by decide)
  rw [State.reg_setReg_of_ne _ _ this]; exact h.1 j hl hj

/-- `Touch` of an update of the parts, in a form that a rewrite finds. -/
def TouchMk (m : Nat) (s t : State) (host : PathState) (remote : PathState) (fabric : List (Nat × Nat)) (acted : List Nat) (actedAt : Nat) (pulses : List (Nat × Nat)) (posted : List EvRec) (q6 : List EvRec) (q7 : List Nat) (clk : ClkState) (tim : TimState) (keep : KeepState) (pwr : PwrState) (vlt : VltState) (pwm : PwmState) (lmp : LmpState) (fde : FdeState) (hlt : HltState) (phy : PhyState) (mac : MacState) (gtu : List GtChan) (sec : SecState) (cmd : CmdState) (cyc : Nat) (free : Nat) : Prop :=
  Touch m s (State.mk t.regs host remote fabric acted actedAt pulses posted q6 q7 clk tim keep pwr vlt pwm lmp fde hlt phy mac gtu sec cmd cyc free t.pending)

theorem Touch.mk_iff {m : Nat} {s t : State} {host remote fabric acted actedAt pulses posted q6 q7 clk tim keep pwr vlt pwm lmp fde hlt phy mac gtu sec cmd cyc free} :
    Touch m s (State.mk t.regs host remote fabric acted actedAt pulses posted q6 q7 clk tim keep pwr vlt pwm lmp fde hlt phy mac gtu sec cmd cyc free t.pending) ↔ TouchMk m s t host remote fabric acted actedAt pulses posted q6 q7 clk tim keep pwr vlt pwm lmp fde hlt phy mac gtu sec cmd cyc free := Iff.rfl

theorem TouchMk.intro {m : Nat} {s t : State} {host remote fabric acted actedAt pulses posted q6 q7 clk tim keep pwr vlt pwm lmp fde hlt phy mac gtu sec cmd cyc free} (h : Touch m s t)
    (hhost : Has m Part.host.idx ∨ host = t.host)
    (hremote : Has m Part.remote.idx ∨ remote = t.remote)
    (hfabric : Has m Part.fabric.idx ∨ fabric = t.fabric)
    (hacted : Has m Part.acted.idx ∨ acted = t.acted)
    (hactedAt : Has m Part.actedAt.idx ∨ actedAt = t.actedAt)
    (hpulses : Has m Part.pulses.idx ∨ pulses = t.pulses)
    (hposted : Has m Part.posted.idx ∨ posted = t.posted)
    (hq6 : Has m Part.q6.idx ∨ q6 = t.q6)
    (hq7 : Has m Part.q7.idx ∨ q7 = t.q7)
    (hclk : Has m Part.clk.idx ∨ clk = t.clk)
    (htim : Has m Part.tim.idx ∨ tim = t.tim)
    (hkeep : Has m Part.keep.idx ∨ keep = t.keep)
    (hpwr : Has m Part.pwr.idx ∨ pwr = t.pwr)
    (hflash : Has m Part.flash.idx ∨ vlt.flash = t.vlt.flash)
    (hlast : Has m Part.last.idx ∨ vlt.last = t.vlt.last)
    (hdrops : Has m Part.drops.idx ∨ vlt.dropped = t.vlt.dropped)
    (hvlt : Has m Part.vlt.idx ∨ { vlt with flash := [], last := [], dropped := 0 } = { t.vlt with flash := [], last := [], dropped := 0 })
    (hpwm : Has m Part.pwm.idx ∨ pwm = t.pwm)
    (hlmp : Has m Part.lmp.idx ∨ lmp = t.lmp)
    (hfde : Has m Part.fde.idx ∨ fde = t.fde)
    (hhlt : Has m Part.hlt.idx ∨ hlt = t.hlt)
    (hphy : Has m Part.phy.idx ∨ phy = t.phy)
    (hmac : Has m Part.mac.idx ∨ mac = t.mac)
    (hgtu : Has m Part.gtu.idx ∨ gtu = t.gtu)
    (hsec : Has m Part.sec.idx ∨ sec = t.sec)
    (hcmd : Has m Part.cmd.idx ∨ cmd = t.cmd)
    (hcyc : Has m Part.cyc.idx ∨ cyc = t.cyc)
    (hfree : Has m Part.free.idx ∨ free = t.free) :
    TouchMk m s t host remote fabric acted actedAt pulses posted q6 q7 clk tim keep pwr vlt pwm lmp fde hlt phy mac gtu sec cmd cyc free := by
  refine ⟨fun k hl hk => h.1 k hl hk, fun p hp => Part.same_trans (h.2 p hp) ?_⟩
  cases p with
  | host =>
    rcases hhost with g | g
    · exact absurd g (by rw [Has, hp]; decide)
    · exact g
  | remote =>
    rcases hremote with g | g
    · exact absurd g (by rw [Has, hp]; decide)
    · exact g
  | fabric =>
    rcases hfabric with g | g
    · exact absurd g (by rw [Has, hp]; decide)
    · exact g
  | acted =>
    rcases hacted with g | g
    · exact absurd g (by rw [Has, hp]; decide)
    · exact g
  | actedAt =>
    rcases hactedAt with g | g
    · exact absurd g (by rw [Has, hp]; decide)
    · exact g
  | pulses =>
    rcases hpulses with g | g
    · exact absurd g (by rw [Has, hp]; decide)
    · exact g
  | posted =>
    rcases hposted with g | g
    · exact absurd g (by rw [Has, hp]; decide)
    · exact g
  | q6 =>
    rcases hq6 with g | g
    · exact absurd g (by rw [Has, hp]; decide)
    · exact g
  | q7 =>
    rcases hq7 with g | g
    · exact absurd g (by rw [Has, hp]; decide)
    · exact g
  | clk =>
    rcases hclk with g | g
    · exact absurd g (by rw [Has, hp]; decide)
    · exact g
  | tim =>
    rcases htim with g | g
    · exact absurd g (by rw [Has, hp]; decide)
    · exact g
  | keep =>
    rcases hkeep with g | g
    · exact absurd g (by rw [Has, hp]; decide)
    · exact g
  | pwr =>
    rcases hpwr with g | g
    · exact absurd g (by rw [Has, hp]; decide)
    · exact g
  | flash =>
    rcases hflash with g | g
    · exact absurd g (by rw [Has, hp]; decide)
    · exact g
  | last =>
    rcases hlast with g | g
    · exact absurd g (by rw [Has, hp]; decide)
    · exact g
  | drops =>
    rcases hdrops with g | g
    · exact absurd g (by rw [Has, hp]; decide)
    · exact g
  | vlt =>
    rcases hvlt with g | g
    · exact absurd g (by rw [Has, hp]; decide)
    · exact g
  | pwm =>
    rcases hpwm with g | g
    · exact absurd g (by rw [Has, hp]; decide)
    · exact g
  | lmp =>
    rcases hlmp with g | g
    · exact absurd g (by rw [Has, hp]; decide)
    · exact g
  | fde =>
    rcases hfde with g | g
    · exact absurd g (by rw [Has, hp]; decide)
    · exact g
  | hlt =>
    rcases hhlt with g | g
    · exact absurd g (by rw [Has, hp]; decide)
    · exact g
  | phy =>
    rcases hphy with g | g
    · exact absurd g (by rw [Has, hp]; decide)
    · exact g
  | mac =>
    rcases hmac with g | g
    · exact absurd g (by rw [Has, hp]; decide)
    · exact g
  | gtu =>
    rcases hgtu with g | g
    · exact absurd g (by rw [Has, hp]; decide)
    · exact g
  | sec =>
    rcases hsec with g | g
    · exact absurd g (by rw [Has, hp]; decide)
    · exact g
  | cmd =>
    rcases hcmd with g | g
    · exact absurd g (by rw [Has, hp]; decide)
    · exact g
  | cyc =>
    rcases hcyc with g | g
    · exact absurd g (by rw [Has, hp]; decide)
    · exact g
  | free =>
    rcases hfree with g | g
    · exact absurd g (by rw [Has, hp]; decide)
    · exact g

/-- Every register. -/
def allRegs : Nat := (1 <<< 2304) - 1

theorem ones_testBit {n r : Nat} (h : r < n) : ((1 <<< n) - 1).testBit r = true := by
  rw [Nat.one_shiftLeft, Nat.testBit_two_pow_sub_one]; simpa using h

theorem allRegs_has {m r : Nat} (h : r < 2304) (ha : Sub allRegs m) : Has m r :=
  Has.sub (a := allRegs) (ones_testBit h) ha

/-- An update of the parts and of every register. -/
theorem Touch.mkAll {m : Nat} {s t : State} {regs host remote fabric acted actedAt pulses posted q6 q7 clk tim keep pwr vlt pwm lmp fde hlt phy mac gtu sec cmd cyc free} (h : Touch m s t) (ha : Sub allRegs m)
    (hhost : Has m Part.host.idx ∨ host = t.host)
    (hremote : Has m Part.remote.idx ∨ remote = t.remote)
    (hfabric : Has m Part.fabric.idx ∨ fabric = t.fabric)
    (hacted : Has m Part.acted.idx ∨ acted = t.acted)
    (hactedAt : Has m Part.actedAt.idx ∨ actedAt = t.actedAt)
    (hpulses : Has m Part.pulses.idx ∨ pulses = t.pulses)
    (hposted : Has m Part.posted.idx ∨ posted = t.posted)
    (hq6 : Has m Part.q6.idx ∨ q6 = t.q6)
    (hq7 : Has m Part.q7.idx ∨ q7 = t.q7)
    (hclk : Has m Part.clk.idx ∨ clk = t.clk)
    (htim : Has m Part.tim.idx ∨ tim = t.tim)
    (hkeep : Has m Part.keep.idx ∨ keep = t.keep)
    (hpwr : Has m Part.pwr.idx ∨ pwr = t.pwr)
    (hflash : Has m Part.flash.idx ∨ vlt.flash = t.vlt.flash)
    (hlast : Has m Part.last.idx ∨ vlt.last = t.vlt.last)
    (hdrops : Has m Part.drops.idx ∨ vlt.dropped = t.vlt.dropped)
    (hvlt : Has m Part.vlt.idx ∨ { vlt with flash := [], last := [], dropped := 0 } = { t.vlt with flash := [], last := [], dropped := 0 })
    (hpwm : Has m Part.pwm.idx ∨ pwm = t.pwm)
    (hlmp : Has m Part.lmp.idx ∨ lmp = t.lmp)
    (hfde : Has m Part.fde.idx ∨ fde = t.fde)
    (hhlt : Has m Part.hlt.idx ∨ hlt = t.hlt)
    (hphy : Has m Part.phy.idx ∨ phy = t.phy)
    (hmac : Has m Part.mac.idx ∨ mac = t.mac)
    (hgtu : Has m Part.gtu.idx ∨ gtu = t.gtu)
    (hsec : Has m Part.sec.idx ∨ sec = t.sec)
    (hcmd : Has m Part.cmd.idx ∨ cmd = t.cmd)
    (hcyc : Has m Part.cyc.idx ∨ cyc = t.cyc)
    (hfree : Has m Part.free.idx ∨ free = t.free) :
    Touch m s (State.mk regs host remote fabric acted actedAt pulses posted q6 q7 clk tim keep pwr vlt pwm lmp fde hlt phy mac gtu sec cmd cyc free t.pending) := by
  refine ⟨fun k hl hk => absurd (allRegs_has hl ha) (by rw [Has, hk]; decide), fun p hp => Part.same_trans (h.2 p hp) ?_⟩
  cases p with
  | host =>
    rcases hhost with g | g
    · exact absurd g (by rw [Has, hp]; decide)
    · exact g
  | remote =>
    rcases hremote with g | g
    · exact absurd g (by rw [Has, hp]; decide)
    · exact g
  | fabric =>
    rcases hfabric with g | g
    · exact absurd g (by rw [Has, hp]; decide)
    · exact g
  | acted =>
    rcases hacted with g | g
    · exact absurd g (by rw [Has, hp]; decide)
    · exact g
  | actedAt =>
    rcases hactedAt with g | g
    · exact absurd g (by rw [Has, hp]; decide)
    · exact g
  | pulses =>
    rcases hpulses with g | g
    · exact absurd g (by rw [Has, hp]; decide)
    · exact g
  | posted =>
    rcases hposted with g | g
    · exact absurd g (by rw [Has, hp]; decide)
    · exact g
  | q6 =>
    rcases hq6 with g | g
    · exact absurd g (by rw [Has, hp]; decide)
    · exact g
  | q7 =>
    rcases hq7 with g | g
    · exact absurd g (by rw [Has, hp]; decide)
    · exact g
  | clk =>
    rcases hclk with g | g
    · exact absurd g (by rw [Has, hp]; decide)
    · exact g
  | tim =>
    rcases htim with g | g
    · exact absurd g (by rw [Has, hp]; decide)
    · exact g
  | keep =>
    rcases hkeep with g | g
    · exact absurd g (by rw [Has, hp]; decide)
    · exact g
  | pwr =>
    rcases hpwr with g | g
    · exact absurd g (by rw [Has, hp]; decide)
    · exact g
  | flash =>
    rcases hflash with g | g
    · exact absurd g (by rw [Has, hp]; decide)
    · exact g
  | last =>
    rcases hlast with g | g
    · exact absurd g (by rw [Has, hp]; decide)
    · exact g
  | drops =>
    rcases hdrops with g | g
    · exact absurd g (by rw [Has, hp]; decide)
    · exact g
  | vlt =>
    rcases hvlt with g | g
    · exact absurd g (by rw [Has, hp]; decide)
    · exact g
  | pwm =>
    rcases hpwm with g | g
    · exact absurd g (by rw [Has, hp]; decide)
    · exact g
  | lmp =>
    rcases hlmp with g | g
    · exact absurd g (by rw [Has, hp]; decide)
    · exact g
  | fde =>
    rcases hfde with g | g
    · exact absurd g (by rw [Has, hp]; decide)
    · exact g
  | hlt =>
    rcases hhlt with g | g
    · exact absurd g (by rw [Has, hp]; decide)
    · exact g
  | phy =>
    rcases hphy with g | g
    · exact absurd g (by rw [Has, hp]; decide)
    · exact g
  | mac =>
    rcases hmac with g | g
    · exact absurd g (by rw [Has, hp]; decide)
    · exact g
  | gtu =>
    rcases hgtu with g | g
    · exact absurd g (by rw [Has, hp]; decide)
    · exact g
  | sec =>
    rcases hsec with g | g
    · exact absurd g (by rw [Has, hp]; decide)
    · exact g
  | cmd =>
    rcases hcmd with g | g
    · exact absurd g (by rw [Has, hp]; decide)
    · exact g
  | cyc =>
    rcases hcyc with g | g
    · exact absurd g (by rw [Has, hp]; decide)
    · exact g
  | free =>
    rcases hfree with g | g
    · exact absurd g (by rw [Has, hp]; decide)
    · exact g

theorem Touch.setRegAll {m : Nat} {s t : State} {k : Nat} {v : Word} (h : Touch m s t) (ha : Sub allRegs m) :
    Touch m s (t.setReg k v) := by
  refine ⟨fun j hl hj => absurd (allRegs_has hl ha) (by rw [Has, hj]; decide), fun p hp => Part.same_trans (h.2 p hp) ?_⟩
  cases p <;> rfl

theorem Touch.modPwm {m : Nat} {s t : State} {f : PwmState → PwmState} (h : Touch m s t) (hp : Has m Part.pwm.idx) :
    Touch m s (t.modPwm f) := by
  unfold State.modPwm
  rw [Touch.mk_iff]; apply TouchMk.intro h
  all_goals first | exact .inr rfl | exact .inl hp

theorem Touch.modFde {m : Nat} {s t : State} {f : FdeState → FdeState} (h : Touch m s t) (hp : Has m Part.fde.idx) :
    Touch m s (t.modFde f) := by
  unfold State.modFde
  rw [Touch.mk_iff]; apply TouchMk.intro h
  all_goals first | exact .inr rfl | exact .inl hp

theorem Touch.modHlt {m : Nat} {s t : State} {f : HltState → HltState} (h : Touch m s t) (hp : Has m Part.hlt.idx) :
    Touch m s (t.modHlt f) := by
  unfold State.modHlt
  rw [Touch.mk_iff]; apply TouchMk.intro h
  all_goals first | exact .inr rfl | exact .inl hp

theorem Touch.modVlt {m : Nat} {s t : State} {f : VltState → VltState} (h : Touch m s t) (hv : Has m Part.vlt.idx)
    (hf : Has m Part.flash.idx ∨ ∀ v, (f v).flash = v.flash) (hl : Has m Part.last.idx ∨ ∀ v, (f v).last = v.last) (hd : Has m Part.drops.idx ∨ ∀ v, (f v).dropped = v.dropped) :
    Touch m s (t.modVlt f) := by
  unfold State.modVlt
  rw [Touch.mk_iff]; apply TouchMk.intro h
  case hvlt => exact .inl hv
  case hflash => exact hf.imp id (fun g => g _)
  case hlast => exact hl.imp id (fun g => g _)
  case hdrops => exact hd.imp id (fun g => g _)
  all_goals exact .inr rfl

theorem Touch.modChan {m : Nat} {s t : State} {n : Nat} {f : Chan → Chan} (h : Touch m s t) (hp : Has m Part.pwm.idx) :
    Touch m s (t.modChan n f) := by
  unfold State.modChan
  try unfold State.modPwm
  rw [Touch.mk_iff]; apply TouchMk.intro h
  all_goals first | exact .inr rfl | exact .inl hp

theorem Touch.modFlamp {m : Nat} {s t : State} {n : Nat} {f : FLamp → FLamp} (h : Touch m s t) (hp : Has m Part.fde.idx) :
    Touch m s (t.modFlamp n f) := by
  unfold State.modFlamp
  try unfold State.modFde
  rw [Touch.mk_iff]; apply TouchMk.intro h
  all_goals first | exact .inr rfl | exact .inl hp

theorem Touch.modHchan {m : Nat} {s t : State} {n : Nat} {f : HChan → HChan} (h : Touch m s t) (hp : Has m Part.hlt.idx) :
    Touch m s (t.modHchan n f) := by
  unfold State.modHchan
  try unfold State.modHlt
  rw [Touch.mk_iff]; apply TouchMk.intro h
  all_goals first | exact .inr rfl | exact .inl hp

theorem Touch.modGt {m : Nat} {s t : State} {n : Nat} {f : GtChan → GtChan} (h : Touch m s t) (hp : Has m Part.gtu.idx) :
    Touch m s (t.modGt n f) := by
  unfold State.modGt
  try unfold State.modGt
  rw [Touch.mk_iff]; apply TouchMk.intro h
  all_goals first | exact .inr rfl | exact .inl hp

theorem Touch.forChans {m : Nat} {s t : State} {f : Nat → State → State} (h : Touch m s t)
    (hf : ∀ n u, Touch m s u → Touch m s (f n u)) : Touch m s (t.forChans f) := Touch.foldl (fun u n hu => hf n u hu) h

theorem Touch.forGts {m : Nat} {s t : State} {f : Nat → State → State} (h : Touch m s t)
    (hf : ∀ n u, Touch m s u → Touch m s (f n u)) : Touch m s (t.forGts f) := Touch.foldl (fun u n hu => hf n u hu) h

end Sys2Proof.Machine
end

