-- ==== Sys2Proof/Laws/TouchOps.lean ====
section
/-! SUPPORT. What each operation of Machine/Ops.lean may change: its mask, and the proof that it changes nothing else. -/

namespace Sys2Proof.Machine

set_option linter.unusedSimpArgs false
set_option Elab.async false

theorem State.setFld_touch {msk : Nat} {s0 s : State} {f : Fld} {v : Nat} (hk : Touch msk s0 s) (hf : Has msk (f.key / 64)) :
    Touch msk s0 (s.setFld f v) := hk.setReg hf

theorem State.setFlag_touch {msk : Nat} {s0 s : State} {f : Fld} {b : Bool} (hk : Touch msk s0 s) (hf : Has msk (f.key / 64)) :
    Touch msk s0 (s.setFlag f b) := hk.setReg hf

theorem State.nmi_touch {msk : Nat} {s0 s : State} {f : Fld} (hk : Touch msk s0 s) (hf : Has msk (f.key / 64)) :
    Touch msk s0 (s.nmi f) := hk.setReg hf

theorem State.setBit_touch {msk : Nat} {s0 s : State} {k i : Nat} {b : Bool} (hk : Touch msk s0 s) (hf : Has msk (k / 64)) :
    Touch msk s0 (s.setBit k i b) := hk.setReg hf

theorem State.incReg_touch {msk : Nat} {s0 s : State} {k : Nat} (hk : Touch msk s0 s) (hf : Has msk (k / 64)) :
    Touch msk s0 (s.incReg k) := hk.setReg hf

theorem State.setPair_touch {msk : Nat} {s0 s : State} {k v : Nat} (hk : Touch msk s0 s) (hf : Has msk (k / 64))
    (hg : Has msk ((k + 64) / 64)) : Touch msk s0 (s.setPair k v) := (hk.setReg hf).setReg hg

theorem State.satInc_touch {msk : Nat} {s0 s : State} {f : Fld} (hk : Touch msk s0 s) (hf : Has msk (f.key / 64)) :
    Touch msk s0 (s.satInc f) := by
  unfold State.satInc
  exact Touch.ite (hk.setReg hf) hk


def State.useFreeMask : Nat :=
  Part.free.bit

theorem State.useFree_touch {msk : Nat} {s0 : State} {s : State} (hk : Touch msk s0 s) (hm : Sub State.useFreeMask msk) :
    Touch msk s0 (State.useFree s) := by
  unfold State.useFree
  try dsimp only
  repeat' (with_reducible first
    | assumption
    | exact Touch.refl
    | intro _
    | (simp only [Touch.mk_iff]; apply TouchMk.intro))
  all_goals with_reducible first
    | exact .inr rfl
    | exact Sub.trans (b := State.useFreeMask) (by decide +kernel) hm
    | exact Has.sub (a := State.useFreeMask) (by decide +kernel) hm
    | exact .inl (Has.sub (a := State.useFreeMask) (by decide +kernel) hm)
    | exact Has.at (by decide) (Has.sub (a := State.useFreeMask) (by decide +kernel) hm)
    | exact Has.cell (by decide) (Has.sub (a := State.useFreeMask) (by decide +kernel) hm)
    | exact Has.cellNext (by decide) (Has.sub (a := State.useFreeMask) (by decide +kernel) hm)
    | exact Has.ite (Has.sub (a := State.useFreeMask) (by decide +kernel) hm) (Has.sub (a := State.useFreeMask) (by decide +kernel) hm)
    | exact .inr (fun _ => rfl)
    | (intro _; rfl)
    | (intro _; simp; done)
    | (simp; assumption)
    | (refine .inr (fun _ => ?_); simp; done)
    | (refine .inr (fun _ => ?_); (repeat' split) <;> first | rfl | (simp; done))
    | (simp; done)

def State.modPathMask : Nat :=
  Part.host.bit ||| Part.remote.bit

theorem State.modPath_touch {msk : Nat} {s0 : State} {s : State} {p : Path} {f : PathState → PathState} (hk : Touch msk s0 s) (hm : Sub State.modPathMask msk) :
    Touch msk s0 (State.modPath s p f) := by
  unfold State.modPath
  try dsimp only
  repeat' (with_reducible first
    | assumption
    | exact Touch.refl
    | intro _
    | (refine Touch.ofEq (by assumption) ?_)
    | (simp only [Touch.mk_iff]; apply TouchMk.intro)
    | split)
  all_goals with_reducible first
    | exact .inr rfl
    | exact Sub.trans (b := State.modPathMask) (by decide +kernel) hm
    | exact Has.sub (a := State.modPathMask) (by decide +kernel) hm
    | exact .inl (Has.sub (a := State.modPathMask) (by decide +kernel) hm)
    | exact Has.at (by decide) (Has.sub (a := State.modPathMask) (by decide +kernel) hm)
    | exact Has.cell (by decide) (Has.sub (a := State.modPathMask) (by decide +kernel) hm)
    | exact Has.cellNext (by decide) (Has.sub (a := State.modPathMask) (by decide +kernel) hm)
    | exact Has.ite (Has.sub (a := State.modPathMask) (by decide +kernel) hm) (Has.sub (a := State.modPathMask) (by decide +kernel) hm)
    | exact .inr (fun _ => rfl)
    | (intro _; rfl)
    | (intro _; simp; done)
    | (simp; assumption)
    | (refine .inr (fun _ => ?_); simp; done)
    | (refine .inr (fun _ => ?_); (repeat' split) <;> first | rfl | (simp; done))
    | (simp; done)

def State.onWriteMask : Nat :=
  State.modPathMask

theorem State.onWrite_touch {msk : Nat} {s0 : State} {s : State} {p : Path} {f : State → State} (hk : Touch msk s0 s) (hm : Sub State.onWriteMask msk) (hf : ∀ u0, Touch msk s0 u0 → Touch msk s0 (f u0)) :
    Touch msk s0 (State.onWrite s p f) := by
  unfold State.onWrite
  try dsimp only
  repeat' (with_reducible first
    | assumption
    | exact Touch.refl
    | intro _
    | apply State.modPath_touch
    | apply hf
    | apply Touch.ite
    | split)
  all_goals with_reducible first
    | exact .inr rfl
    | exact Sub.trans (b := State.onWriteMask) (by decide +kernel) hm
    | exact Has.sub (a := State.onWriteMask) (by decide +kernel) hm
    | exact .inl (Has.sub (a := State.onWriteMask) (by decide +kernel) hm)
    | exact Has.at (by decide) (Has.sub (a := State.onWriteMask) (by decide +kernel) hm)
    | exact Has.cell (by decide) (Has.sub (a := State.onWriteMask) (by decide +kernel) hm)
    | exact Has.cellNext (by decide) (Has.sub (a := State.onWriteMask) (by decide +kernel) hm)
    | exact Has.ite (Has.sub (a := State.onWriteMask) (by decide +kernel) hm) (Has.sub (a := State.onWriteMask) (by decide +kernel) hm)
    | exact .inr (fun _ => rfl)
    | (intro _; rfl)
    | (intro _; simp; done)
    | (simp; assumption)
    | (refine .inr (fun _ => ?_); simp; done)
    | (refine .inr (fun _ => ?_); (repeat' split) <;> first | rfl | (simp; done))
    | (simp; done)

def State.irqMask : Nat :=
  rbit R.IRQ_STAT_LO ||| rbit R.IRQ_STAT_HI

theorem State.irq_touch {msk : Nat} {s0 : State} {s : State} {n : Nat} (hk : Touch msk s0 s) (hm : Sub State.irqMask msk) :
    Touch msk s0 (State.irq s n) := by
  unfold State.irq
  try dsimp only
  repeat' (with_reducible first
    | assumption
    | exact Touch.refl
    | intro _
    | apply State.setBit_touch
    | apply Touch.ite
    | split)
  all_goals with_reducible first
    | exact .inr rfl
    | exact Sub.trans (b := State.irqMask) (by decide +kernel) hm
    | exact Has.sub (a := State.irqMask) (by decide +kernel) hm
    | exact .inl (Has.sub (a := State.irqMask) (by decide +kernel) hm)
    | exact Has.at (by decide) (Has.sub (a := State.irqMask) (by decide +kernel) hm)
    | exact Has.cell (by decide) (Has.sub (a := State.irqMask) (by decide +kernel) hm)
    | exact Has.cellNext (by decide) (Has.sub (a := State.irqMask) (by decide +kernel) hm)
    | exact Has.ite (Has.sub (a := State.irqMask) (by decide +kernel) hm) (Has.sub (a := State.irqMask) (by decide +kernel) hm)
    | exact .inr (fun _ => rfl)
    | (intro _; rfl)
    | (intro _; simp; done)
    | (simp; assumption)
    | (refine .inr (fun _ => ?_); simp; done)
    | (refine .inr (fun _ => ?_); (repeat' split) <;> first | rfl | (simp; done))
    | (simp; done)

def State.stickMask : Nat :=
  State.irqMask

theorem State.stick_touch {msk : Nat} {s0 : State} {s : State} {stat : Nat} {en : Nat} {irq : Nat} {m : Word} (hk : Touch msk s0 s) (hm : Sub State.stickMask msk) (hstat : Has msk (stat / 64)) :
    Touch msk s0 (State.stick s stat en irq m) := by
  unfold State.stick
  try dsimp only
  repeat' (with_reducible first
    | assumption
    | exact Touch.refl
    | intro _
    | apply Touch.setReg
    | apply State.irq_touch
    | apply Touch.ite
    | apply Touch.setReg
    | split)
  all_goals with_reducible first
    | exact .inr rfl
    | exact Sub.trans (b := State.stickMask) (by decide +kernel) hm
    | exact Has.sub (a := State.stickMask) (by decide +kernel) hm
    | exact .inl (Has.sub (a := State.stickMask) (by decide +kernel) hm)
    | exact Has.at (by decide) (Has.sub (a := State.stickMask) (by decide +kernel) hm)
    | exact Has.cell (by decide) (Has.sub (a := State.stickMask) (by decide +kernel) hm)
    | exact Has.cellNext (by decide) (Has.sub (a := State.stickMask) (by decide +kernel) hm)
    | exact Has.ite (Has.sub (a := State.stickMask) (by decide +kernel) hm) (Has.sub (a := State.stickMask) (by decide +kernel) hm)
    | exact .inr (fun _ => rfl)
    | (intro _; rfl)
    | (intro _; simp; done)
    | (simp; assumption)
    | (refine .inr (fun _ => ?_); simp; done)
    | (refine .inr (fun _ => ?_); (repeat' split) <;> first | rfl | (simp; done))
    | (simp; done)

def State.pulseMask : Nat :=
  Part.fabric.bit ||| Part.pulses.bit

theorem State.pulse_touch {msk : Nat} {s0 : State} {s : State} {src : Nat} (hk : Touch msk s0 s) (hm : Sub State.pulseMask msk) :
    Touch msk s0 (State.pulse s src) := by
  unfold State.pulse
  try dsimp only
  repeat' (with_reducible first
    | assumption
    | exact Touch.refl
    | intro _
    | apply Touch.ite
    | (simp only [Touch.mk_iff]; apply TouchMk.intro)
    | split)
  all_goals with_reducible first
    | exact .inr rfl
    | exact Sub.trans (b := State.pulseMask) (by decide +kernel) hm
    | exact Has.sub (a := State.pulseMask) (by decide +kernel) hm
    | exact .inl (Has.sub (a := State.pulseMask) (by decide +kernel) hm)
    | exact Has.at (by decide) (Has.sub (a := State.pulseMask) (by decide +kernel) hm)
    | exact Has.cell (by decide) (Has.sub (a := State.pulseMask) (by decide +kernel) hm)
    | exact Has.cellNext (by decide) (Has.sub (a := State.pulseMask) (by decide +kernel) hm)
    | exact Has.ite (Has.sub (a := State.pulseMask) (by decide +kernel) hm) (Has.sub (a := State.pulseMask) (by decide +kernel) hm)
    | exact .inr (fun _ => rfl)
    | (intro _; rfl)
    | (intro _; simp; done)
    | (simp; assumption)
    | (refine .inr (fun _ => ?_); simp; done)
    | (refine .inr (fun _ => ?_); (repeat' split) <;> first | rfl | (simp; done))
    | (simp; done)

def State.postMask : Nat :=
  Part.posted.bit

theorem State.post_touch {msk : Nat} {s0 : State} {s : State} {cls : Nat} {ev : Nat} {detail : Nat} (hk : Touch msk s0 s) (hm : Sub State.postMask msk) :
    Touch msk s0 (State.post s cls ev detail) := by
  unfold State.post
  try dsimp only
  repeat' (with_reducible first
    | assumption
    | exact Touch.refl
    | intro _
    | (simp only [Touch.mk_iff]; apply TouchMk.intro))
  all_goals with_reducible first
    | exact .inr rfl
    | exact Sub.trans (b := State.postMask) (by decide +kernel) hm
    | exact Has.sub (a := State.postMask) (by decide +kernel) hm
    | exact .inl (Has.sub (a := State.postMask) (by decide +kernel) hm)
    | exact Has.at (by decide) (Has.sub (a := State.postMask) (by decide +kernel) hm)
    | exact Has.cell (by decide) (Has.sub (a := State.postMask) (by decide +kernel) hm)
    | exact Has.cellNext (by decide) (Has.sub (a := State.postMask) (by decide +kernel) hm)
    | exact Has.ite (Has.sub (a := State.postMask) (by decide +kernel) hm) (Has.sub (a := State.postMask) (by decide +kernel) hm)
    | exact .inr (fun _ => rfl)
    | (intro _; rfl)
    | (intro _; simp; done)
    | (simp; assumption)
    | (refine .inr (fun _ => ?_); simp; done)
    | (refine .inr (fun _ => ?_); (repeat' split) <;> first | rfl | (simp; done))
    | (simp; done)

def State.holdRecMask : Nat :=
  Part.keep.bit

theorem State.holdRec_touch {msk : Nat} {s0 : State} {s : State} {r : EvRec} (hk : Touch msk s0 s) (hm : Sub State.holdRecMask msk) :
    Touch msk s0 (State.holdRec s r) := by
  unfold State.holdRec
  try dsimp only
  repeat' (with_reducible first
    | assumption
    | exact Touch.refl
    | intro _
    | apply Touch.ite
    | (simp only [Touch.mk_iff]; apply TouchMk.intro)
    | split)
  all_goals with_reducible first
    | exact .inr rfl
    | exact Sub.trans (b := State.holdRecMask) (by decide +kernel) hm
    | exact Has.sub (a := State.holdRecMask) (by decide +kernel) hm
    | exact .inl (Has.sub (a := State.holdRecMask) (by decide +kernel) hm)
    | exact Has.at (by decide) (Has.sub (a := State.holdRecMask) (by decide +kernel) hm)
    | exact Has.cell (by decide) (Has.sub (a := State.holdRecMask) (by decide +kernel) hm)
    | exact Has.cellNext (by decide) (Has.sub (a := State.holdRecMask) (by decide +kernel) hm)
    | exact Has.ite (Has.sub (a := State.holdRecMask) (by decide +kernel) hm) (Has.sub (a := State.holdRecMask) (by decide +kernel) hm)
    | exact .inr (fun _ => rfl)
    | (intro _; rfl)
    | (intro _; simp; done)
    | (simp; assumption)
    | (refine .inr (fun _ => ?_); simp; done)
    | (refine .inr (fun _ => ?_); (repeat' split) <;> first | rfl | (simp; done))
    | (simp; done)

def State.enterQ6Mask : Nat :=
  State.irqMask ||| State.stickMask ||| rbit R.LOG_STAT ||| rbit R.LOG_DROP ||| Part.drops.bit ||| Part.q6.bit

theorem State.enterQ6_touch {msk : Nat} {s0 : State} {s : State} {r : EvRec} (hk : Touch msk s0 s) (hm : Sub State.enterQ6Mask msk) :
    Touch msk s0 (State.enterQ6 s r) := by
  unfold State.enterQ6
  try dsimp only
  repeat' (with_reducible first
    | assumption
    | exact Touch.refl
    | intro _
    | apply State.irq_touch
    | apply State.stick_touch
    | apply State.satInc_touch
    | apply Touch.ite
    | (simp only [Touch.mk_iff]; apply TouchMk.intro)
    | split)
  all_goals with_reducible first
    | exact .inr rfl
    | exact Sub.trans (b := State.enterQ6Mask) (by decide +kernel) hm
    | exact Has.sub (a := State.enterQ6Mask) (by decide +kernel) hm
    | exact .inl (Has.sub (a := State.enterQ6Mask) (by decide +kernel) hm)
    | exact Has.at (by decide) (Has.sub (a := State.enterQ6Mask) (by decide +kernel) hm)
    | exact Has.cell (by decide) (Has.sub (a := State.enterQ6Mask) (by decide +kernel) hm)
    | exact Has.cellNext (by decide) (Has.sub (a := State.enterQ6Mask) (by decide +kernel) hm)
    | exact Has.ite (Has.sub (a := State.enterQ6Mask) (by decide +kernel) hm) (Has.sub (a := State.enterQ6Mask) (by decide +kernel) hm)
    | exact .inr (fun _ => rfl)
    | (intro _; rfl)
    | (intro _; simp; done)
    | (simp; assumption)
    | (refine .inr (fun _ => ?_); simp; done)
    | (refine .inr (fun _ => ?_); (repeat' split) <;> first | rfl | (simp; done))
    | (simp; done)

def settleMask : Nat :=
  State.enterQ6Mask ||| Part.posted.bit

theorem settle_touch {msk : Nat} {s0 : State} {s : State} (hk : Touch msk s0 s) (hm : Sub settleMask msk) :
    Touch msk s0 (settle s) := by
  unfold settle
  try dsimp only
  repeat' (with_reducible first
    | assumption
    | exact Touch.refl
    | intro _
    | apply State.enterQ6_touch
    | apply Touch.foldl
    | apply Touch.foldlFst
    | (simp only [Touch.mk_iff]; apply TouchMk.intro))
  all_goals with_reducible first
    | exact .inr rfl
    | exact Sub.trans (b := settleMask) (by decide +kernel) hm
    | exact Has.sub (a := settleMask) (by decide +kernel) hm
    | exact .inl (Has.sub (a := settleMask) (by decide +kernel) hm)
    | exact Has.at (by decide) (Has.sub (a := settleMask) (by decide +kernel) hm)
    | exact Has.cell (by decide) (Has.sub (a := settleMask) (by decide +kernel) hm)
    | exact Has.cellNext (by decide) (Has.sub (a := settleMask) (by decide +kernel) hm)
    | exact Has.ite (Has.sub (a := settleMask) (by decide +kernel) hm) (Has.sub (a := settleMask) (by decide +kernel) hm)
    | exact .inr (fun _ => rfl)
    | (intro _; rfl)
    | (intro _; simp; done)
    | (simp; assumption)
    | (refine .inr (fun _ => ?_); simp; done)
    | (refine .inr (fun _ => ?_); (repeat' split) <;> first | rfl | (simp; done))
    | (simp; done)

end Sys2Proof.Machine
end

