-- ==== Sys2Proof/Laws/TouchVault.lean ====
section
/-! SUPPORT. What each operation of Machine/Vault.lean may change: its mask, and the proof that it changes nothing else. -/

namespace Sys2Proof.Machine

set_option linter.unusedSimpArgs false
set_option Elab.async false

@[simp] theorem VltState.putWord_last {v : VltState} {a : Nat} {w : Word} : (v.putWord a w).last = v.last := rfl


@[simp] theorem VltState.putWord_dropped {v : VltState} {a : Nat} {w : Word} : (v.putWord a w).dropped = v.dropped := rfl


@[simp] theorem VltState.putWords_last {v : VltState} {a : Nat} {l : List Word} : (v.putWords a l).last = v.last := by
  induction l generalizing v a with
  | nil => rfl
  | cons w l ih => exact ih


@[simp] theorem VltState.putWords_dropped {v : VltState} {a : Nat} {l : List Word} : (v.putWords a l).dropped = v.dropped := by
  induction l generalizing v a with
  | nil => rfl
  | cons w l ih => exact ih


@[simp] theorem VltState.putCells_last {v : VltState} {a : Nat} {l : List (Nat × Word)} : (v.putCells a l).last = v.last := by
  induction l generalizing v with
  | nil => rfl
  | cons w l ih => exact ih


@[simp] theorem VltState.putCells_dropped {v : VltState} {a : Nat} {l : List (Nat × Word)} : (v.putCells a l).dropped = v.dropped := by
  induction l generalizing v with
  | nil => rfl
  | cons w l ih => exact ih


@[simp] theorem VltState.putBytes_last {v : VltState} {a : Nat} {l : List Byte} : (v.putBytes a l).last = v.last := rfl


@[simp] theorem VltState.putBytes_dropped {v : VltState} {a : Nat} {l : List Byte} : (v.putBytes a l).dropped = v.dropped := rfl


@[simp] theorem VltState.erase_last {v : VltState} {a n : Nat} : (v.erase a n).last = v.last := rfl


@[simp] theorem VltState.erase_dropped {v : VltState} {a n : Nat} : (v.erase a n).dropped = v.dropped := rfl


@[simp] theorem VltState.putOwn_flash {v : VltState} {a : Nat} {l : List Byte} : (v.putOwn a l).flash = v.flash := rfl


@[simp] theorem VltState.putOwn_last {v : VltState} {a : Nat} {l : List Byte} : (v.putOwn a l).last = v.last := rfl


@[simp] theorem VltState.putOwn_dropped {v : VltState} {a : Nat} {l : List Byte} : (v.putOwn a l).dropped = v.dropped := rfl


@[simp] theorem VltState.eraseOwn_flash {v : VltState} {a n : Nat} : (v.eraseOwn a n).flash = v.flash := rfl


@[simp] theorem VltState.eraseOwn_last {v : VltState} {a n : Nat} : (v.eraseOwn a n).last = v.last := rfl


@[simp] theorem VltState.eraseOwn_dropped {v : VltState} {a n : Nat} : (v.eraseOwn a n).dropped = v.dropped := rfl


@[simp] theorem VltState.program_flash {v : VltState} {r : NRec} : (v.program r).flash = v.flash := rfl


@[simp] theorem VltState.program_last {v : VltState} {r : NRec} : (v.program r).last = v.last := rfl


@[simp] theorem VltState.program_dropped {v : VltState} {r : NRec} : (v.program r).dropped = v.dropped := rfl


@[simp] theorem VltState.journal_flash {v : VltState} {l : List (Bool × Nat × Nat)} {b : Bool} : (v.journal l b).flash = v.flash := rfl


@[simp] theorem VltState.journal_last {v : VltState} {l : List (Bool × Nat × Nat)} {b : Bool} : (v.journal l b).last = v.last := rfl


@[simp] theorem VltState.journal_dropped {v : VltState} {l : List (Bool × Nat × Nat)} {b : Bool} : (v.journal l b).dropped = v.dropped := rfl


@[simp] theorem VltState.place1_flash {v : VltState} {es : List (Nat × List Byte)} : ((v.place es).1).flash = v.flash := by
  have key : ∀ (l : List NRec) (v : VltState), (l.foldl VltState.program v).flash = v.flash := by
    intro l
    induction l with
    | nil => exact fun _ => rfl
    | cons r l ih => exact fun v => ih _
  exact key _ v


@[simp] theorem VltState.place1_last {v : VltState} {es : List (Nat × List Byte)} : ((v.place es).1).last = v.last := by
  have key : ∀ (l : List NRec) (v : VltState), (l.foldl VltState.program v).last = v.last := by
    intro l
    induction l with
    | nil => exact fun _ => rfl
    | cons r l ih => exact fun v => ih _
  exact key _ v


@[simp] theorem VltState.place1_dropped {v : VltState} {es : List (Nat × List Byte)} : ((v.place es).1).dropped = v.dropped := by
  have key : ∀ (l : List NRec) (v : VltState), (l.foldl VltState.program v).dropped = v.dropped := by
    intro l
    induction l with
    | nil => exact fun _ => rfl
    | cons r l ih => exact fun v => ih _
  exact key _ v


@[simp] theorem VltState.commitNow_flash {v : VltState} {es : List (Nat × List Byte)} {l : List VEntry} : (v.commitNow es l).flash = v.flash := VltState.place1_flash


@[simp] theorem VltState.commitNow_last {v : VltState} {es : List (Nat × List Byte)} {l : List VEntry} : (v.commitNow es l).last = v.last := VltState.place1_last


@[simp] theorem VltState.commitNow_dropped {v : VltState} {es : List (Nat × List Byte)} {l : List VEntry} : (v.commitNow es l).dropped = v.dropped := VltState.place1_dropped


@[simp] theorem VltState.ownCommit_flash {v : VltState} {k : Nat} {p : List Byte} {l : List VEntry} : (v.ownCommit k p l).flash = v.flash := VltState.commitNow_flash


@[simp] theorem VltState.ownCommit_last {v : VltState} {k : Nat} {p : List Byte} {l : List VEntry} : (v.ownCommit k p l).last = v.last := VltState.commitNow_last


@[simp] theorem VltState.ownCommit_dropped {v : VltState} {k : Nat} {p : List Byte} {l : List VEntry} : (v.ownCommit k p l).dropped = v.dropped := VltState.commitNow_dropped


@[simp] theorem VltState.compactRec_flash {v : VltState}  : (v.compactRec).flash = v.flash := VltState.commitNow_flash (l := v.buf)


@[simp] theorem VltState.compactRec_last {v : VltState}  : (v.compactRec).last = v.last := VltState.commitNow_last (l := v.buf)


@[simp] theorem VltState.compactRec_dropped {v : VltState}  : (v.compactRec).dropped = v.dropped := VltState.commitNow_dropped (l := v.buf)


@[simp] theorem VltState.compactKey_flash {v : VltState}  : (v.compactKey).flash = v.flash := VltState.commitNow_flash (l := v.buf)


@[simp] theorem VltState.compactKey_last {v : VltState}  : (v.compactKey).last = v.last := VltState.commitNow_last (l := v.buf)


@[simp] theorem VltState.compactKey_dropped {v : VltState}  : (v.compactKey).dropped = v.dropped := VltState.commitNow_dropped (l := v.buf)


@[simp] theorem VltState.compact_flash {v : VltState}  : (v.compact).flash = v.flash := by
  have key : ∀ a : VltState, a.flash = v.flash →
      (if a.keyTail + 512 < a.keyHead + 256 ∧ a.keyTail + 256 ≤ a.keyHead then a.compactKey else a).flash = v.flash := by
    intro a ha
    split
    · exact VltState.compactKey_flash.trans ha
    · exact ha
  unfold VltState.compact
  apply key
  split
  · exact VltState.compactRec_flash
  · rfl


@[simp] theorem VltState.compact_last {v : VltState}  : (v.compact).last = v.last := by
  have key : ∀ a : VltState, a.last = v.last →
      (if a.keyTail + 512 < a.keyHead + 256 ∧ a.keyTail + 256 ≤ a.keyHead then a.compactKey else a).last = v.last := by
    intro a ha
    split
    · exact VltState.compactKey_last.trans ha
    · exact ha
  unfold VltState.compact
  apply key
  split
  · exact VltState.compactRec_last
  · rfl


@[simp] theorem VltState.compact_dropped {v : VltState}  : (v.compact).dropped = v.dropped := by
  have key : ∀ a : VltState, a.dropped = v.dropped →
      (if a.keyTail + 512 < a.keyHead + 256 ∧ a.keyTail + 256 ≤ a.keyHead then a.compactKey else a).dropped = v.dropped := by
    intro a ha
    split
    · exact VltState.compactKey_dropped.trans ha
    · exact ha
  unfold VltState.compact
  apply key
  split
  · exact VltState.compactRec_dropped
  · rfl


@[simp] theorem VltState.apply_last {v : VltState} {e : VEntry} : (v.apply e).last = v.last := by
  cases e <;> simp [VltState.apply]


@[simp] theorem VltState.apply_dropped {v : VltState} {e : VEntry} : (v.apply e).dropped = v.dropped := by
  cases e <;> simp [VltState.apply]


@[simp] theorem VltState.setBank_flash {v : VltState} {c : Bool} {n : Nat} {b : Option Bank} : (v.setBank c n b).flash = v.flash := by
  unfold VltState.setBank
  try dsimp only
  repeat' split
  all_goals first | rfl | (simp; done)


@[simp] theorem VltState.setBank_last {v : VltState} {c : Bool} {n : Nat} {b : Option Bank} : (v.setBank c n b).last = v.last := by
  unfold VltState.setBank
  try dsimp only
  repeat' split
  all_goals first | rfl | (simp; done)


@[simp] theorem VltState.setBank_dropped {v : VltState} {c : Bool} {n : Nat} {b : Option Bank} : (v.setBank c n b).dropped = v.dropped := by
  unfold VltState.setBank
  try dsimp only
  repeat' split
  all_goals first | rfl | (simp; done)


@[simp] theorem VltState.bankClear_flash {v : VltState} {c : Bool} {n : Nat} : (v.bankClear c n).flash = v.flash := VltState.setBank_flash


@[simp] theorem VltState.bankClear_last {v : VltState} {c : Bool} {n : Nat} : (v.bankClear c n).last = v.last := VltState.setBank_last


@[simp] theorem VltState.bankClear_dropped {v : VltState} {c : Bool} {n : Nat} : (v.bankClear c n).dropped = v.dropped := VltState.setBank_dropped


@[simp] theorem VltState.hold_flash {v : VltState} {n k : Nat} : (v.hold n k).flash = v.flash := rfl


@[simp] theorem VltState.hold_last {v : VltState} {n k : Nat} : (v.hold n k).last = v.last := rfl


@[simp] theorem VltState.hold_dropped {v : VltState} {n k : Nat} : (v.hold n k).dropped = v.dropped := rfl


@[simp] theorem VltState.hatMarkUp_flash {v : VltState} {n k : Nat} : (v.hatMarkUp n k).flash = v.flash := rfl


@[simp] theorem VltState.hatMarkUp_dropped {v : VltState} {n k : Nat} : (v.hatMarkUp n k).dropped = v.dropped := rfl


@[simp] theorem VltState.hatFlush_flash {v : VltState}  : (v.hatFlush).flash = v.flash := by
  unfold VltState.hatFlush
  generalize v.held = l
  induction l generalizing v with
  | nil => rfl
  | cons x l ih => exact ih


@[simp] theorem VltState.hatFlush_dropped {v : VltState}  : (v.hatFlush).dropped = v.dropped := by
  unfold VltState.hatFlush
  generalize v.held = l
  induction l generalizing v with
  | nil => rfl
  | cons x l ih => exact ih


@[simp] theorem VltState.foldSet_flash {v : VltState} {nb : List (Nat × Nat)} : (v.foldSet nb).flash = v.flash := by
  unfold VltState.foldSet
  try dsimp only
  repeat' split
  all_goals first | rfl | (simp; done)


@[simp] theorem VltState.foldSet_dropped {v : VltState} {nb : List (Nat × Nat)} : (v.foldSet nb).dropped = v.dropped := by
  unfold VltState.foldSet
  try dsimp only
  repeat' split
  all_goals first | rfl | (simp; done)


@[simp] theorem VltState.heldAll_flash {v : VltState}  : (v.heldAll).flash = v.flash := rfl


@[simp] theorem VltState.heldAll_last {v : VltState}  : (v.heldAll).last = v.last := rfl


@[simp] theorem VltState.heldAll_dropped {v : VltState}  : (v.heldAll).dropped = v.dropped := rfl


@[simp] theorem VltState.hatHead_flash {v : VltState}  : (v.hatHead).flash = v.flash := rfl


@[simp] theorem VltState.hatHead_last {v : VltState}  : (v.hatHead).last = v.last := rfl


@[simp] theorem VltState.hatHead_dropped {v : VltState}  : (v.hatHead).dropped = v.dropped := rfl


@[simp] theorem VltState.foldEnd_flash {v : VltState} {nb : List (Nat × Nat)} : (v.foldEnd nb).flash = v.flash := by
  unfold VltState.foldEnd
  dsimp only
  rw [VltState.hatFlush_flash, VltState.heldAll_flash]
  split <;> exact VltState.foldSet_flash (nb := nb)


@[simp] theorem VltState.foldEnd_dropped {v : VltState} {nb : List (Nat × Nat)} : (v.foldEnd nb).dropped = v.dropped := by
  unfold VltState.foldEnd
  dsimp only
  rw [VltState.hatFlush_dropped, VltState.heldAll_dropped]
  split <;> exact VltState.foldSet_dropped (nb := nb)


@[simp] theorem VltState.hatErase_flash {v : VltState}  : (v.hatErase).flash = v.flash := by
  unfold VltState.hatErase
  dsimp only
  rw [VltState.hatFlush_flash]
  split <;> rfl


@[simp] theorem VltState.hatErase_dropped {v : VltState}  : (v.hatErase).dropped = v.dropped := by
  unfold VltState.hatErase
  dsimp only
  rw [VltState.hatFlush_dropped]
  split <;> rfl


@[simp] theorem VltState.unwrite_dropped {v : VltState}  : (v.unwrite).dropped = v.dropped := rfl


@[simp] theorem kickN_dropped {n : Nat} {v : VltState} : (kickN n v).dropped = v.dropped := by
  induction n generalizing v with
  | zero => rfl
  | succ n ih =>
    unfold kickN
    split
    · split
      · rw [ih]; simp
      · rfl
    · rfl


def State.compactDueMask : Nat :=
  Part.vlt.bit

theorem State.compactDue_touch {msk : Nat} {s0 : State} {s : State} (hk : Touch msk s0 s) (hm : Sub State.compactDueMask msk) :
    Touch msk s0 (State.compactDue s) := by
  unfold State.compactDue
  try dsimp only
  repeat' (with_reducible first
    | assumption
    | exact Touch.refl
    | intro _
    | apply Touch.modVlt
    | apply Touch.ite
    | split)
  all_goals with_reducible first
    | exact .inr (fun _ => VltState.compact_flash)
    | exact .inr (fun _ => VltState.compact_last)
    | exact .inr (fun _ => VltState.compact_dropped)
    | exact .inr rfl
    | exact Sub.trans (b := State.compactDueMask) (by decide +kernel) hm
    | exact Has.sub (a := State.compactDueMask) (by decide +kernel) hm
    | exact .inl (Has.sub (a := State.compactDueMask) (by decide +kernel) hm)
    | exact Has.at (by decide) (Has.sub (a := State.compactDueMask) (by decide +kernel) hm)
    | exact Has.cell (by decide) (Has.sub (a := State.compactDueMask) (by decide +kernel) hm)
    | exact Has.cellNext (by decide) (Has.sub (a := State.compactDueMask) (by decide +kernel) hm)
    | exact Has.ite (Has.sub (a := State.compactDueMask) (by decide +kernel) hm) (Has.sub (a := State.compactDueMask) (by decide +kernel) hm)
    | exact .inr (fun _ => rfl)
    | (intro _; rfl)
    | (intro _; simp; done)
    | (simp; assumption)
    | (refine .inr (fun _ => ?_); simp; done)
    | (refine .inr (fun _ => ?_); (repeat' split) <;> first | rfl | (simp; done))
    | (simp; done)

def State.vEnterMask : Nat :=
  State.compactDueMask ||| Part.vlt.bit

theorem State.vEnter_touch {msk : Nat} {s0 : State} {s : State} {e : VEntry} (hk : Touch msk s0 s) (hm : Sub State.vEnterMask msk) :
    Touch msk s0 (State.vEnter s e) := by
  unfold State.vEnter
  try dsimp only
  repeat' (with_reducible first
    | assumption
    | exact Touch.refl
    | intro _
    | apply Touch.modVlt
    | apply State.compactDue_touch
    | apply Touch.ite
    | split)
  all_goals with_reducible first
    | exact .inr rfl
    | exact Sub.trans (b := State.vEnterMask) (by decide +kernel) hm
    | exact Has.sub (a := State.vEnterMask) (by decide +kernel) hm
    | exact .inl (Has.sub (a := State.vEnterMask) (by decide +kernel) hm)
    | exact Has.at (by decide) (Has.sub (a := State.vEnterMask) (by decide +kernel) hm)
    | exact Has.cell (by decide) (Has.sub (a := State.vEnterMask) (by decide +kernel) hm)
    | exact Has.cellNext (by decide) (Has.sub (a := State.vEnterMask) (by decide +kernel) hm)
    | exact Has.ite (Has.sub (a := State.vEnterMask) (by decide +kernel) hm) (Has.sub (a := State.vEnterMask) (by decide +kernel) hm)
    | exact .inr (fun _ => rfl)
    | (intro _; rfl)
    | (intro _; simp; done)
    | (simp; assumption)
    | (refine .inr (fun _ => ?_); simp; done)
    | (refine .inr (fun _ => ?_); (repeat' split) <;> first | rfl | (simp; done))
    | (simp; done)

def State.vDoneMask : Nat :=
  State.irqMask

theorem State.vDone_touch {msk : Nat} {s0 : State} {s : State} (hk : Touch msk s0 s) (hm : Sub State.vDoneMask msk) :
    Touch msk s0 (State.vDone s) := by
  unfold State.vDone
  try dsimp only
  repeat' (with_reducible first
    | assumption
    | exact Touch.refl
    | intro _
    | apply State.irq_touch
    | apply Touch.ite
    | split)
  all_goals with_reducible first
    | exact .inr rfl
    | exact Sub.trans (b := State.vDoneMask) (by decide +kernel) hm
    | exact Has.sub (a := State.vDoneMask) (by decide +kernel) hm
    | exact .inl (Has.sub (a := State.vDoneMask) (by decide +kernel) hm)
    | exact Has.at (by decide) (Has.sub (a := State.vDoneMask) (by decide +kernel) hm)
    | exact Has.cell (by decide) (Has.sub (a := State.vDoneMask) (by decide +kernel) hm)
    | exact Has.cellNext (by decide) (Has.sub (a := State.vDoneMask) (by decide +kernel) hm)
    | exact Has.ite (Has.sub (a := State.vDoneMask) (by decide +kernel) hm) (Has.sub (a := State.vDoneMask) (by decide +kernel) hm)
    | exact .inr (fun _ => rfl)
    | (intro _; rfl)
    | (intro _; simp; done)
    | (simp; assumption)
    | (refine .inr (fun _ => ?_); simp; done)
    | (refine .inr (fun _ => ?_); (repeat' split) <;> first | rfl | (simp; done))
    | (simp; done)

def State.vWaitingMask : Nat :=
  State.vEnterMask ||| Part.vlt.bit

theorem State.vWaiting_touch {msk : Nat} {s0 : State} {s : State} (hk : Touch msk s0 s) (hm : Sub State.vWaitingMask msk) :
    Touch msk s0 (State.vWaiting s) := by
  unfold State.vWaiting
  try dsimp only
  repeat' (with_reducible first
    | assumption
    | exact Touch.refl
    | intro _
    | apply Touch.modVlt
    | apply State.vEnter_touch
    | apply Touch.ite
    | apply Touch.foldl
    | apply Touch.foldlFst
    | split)
  all_goals with_reducible first
    | exact .inr rfl
    | exact Sub.trans (b := State.vWaitingMask) (by decide +kernel) hm
    | exact Has.sub (a := State.vWaitingMask) (by decide +kernel) hm
    | exact .inl (Has.sub (a := State.vWaitingMask) (by decide +kernel) hm)
    | exact Has.at (by decide) (Has.sub (a := State.vWaitingMask) (by decide +kernel) hm)
    | exact Has.cell (by decide) (Has.sub (a := State.vWaitingMask) (by decide +kernel) hm)
    | exact Has.cellNext (by decide) (Has.sub (a := State.vWaitingMask) (by decide +kernel) hm)
    | exact Has.ite (Has.sub (a := State.vWaitingMask) (by decide +kernel) hm) (Has.sub (a := State.vWaitingMask) (by decide +kernel) hm)
    | exact .inr (fun _ => rfl)
    | (intro _; rfl)
    | (intro _; simp; done)
    | (simp; assumption)
    | (refine .inr (fun _ => ?_); simp; done)
    | (refine .inr (fun _ => ?_); (repeat' split) <;> first | rfl | (simp; done))
    | (simp; done)

def State.commitEndMask : Nat :=
  State.compactDueMask ||| State.vDoneMask ||| State.vWaitingMask ||| Part.vlt.bit

theorem State.commitEnd_touch {msk : Nat} {s0 : State} {s : State} {n : Nat} (hk : Touch msk s0 s) (hm : Sub State.commitEndMask msk) :
    Touch msk s0 (State.commitEnd s n) := by
  unfold State.commitEnd
  try dsimp only
  repeat' (with_reducible first
    | assumption
    | exact Touch.refl
    | intro _
    | apply Touch.modVlt
    | apply State.compactDue_touch
    | apply State.vDone_touch
    | apply State.vWaiting_touch)
  all_goals with_reducible first
    | exact .inr rfl
    | exact Sub.trans (b := State.commitEndMask) (by decide +kernel) hm
    | exact Has.sub (a := State.commitEndMask) (by decide +kernel) hm
    | exact .inl (Has.sub (a := State.commitEndMask) (by decide +kernel) hm)
    | exact Has.at (by decide) (Has.sub (a := State.commitEndMask) (by decide +kernel) hm)
    | exact Has.cell (by decide) (Has.sub (a := State.commitEndMask) (by decide +kernel) hm)
    | exact Has.cellNext (by decide) (Has.sub (a := State.commitEndMask) (by decide +kernel) hm)
    | exact Has.ite (Has.sub (a := State.commitEndMask) (by decide +kernel) hm) (Has.sub (a := State.commitEndMask) (by decide +kernel) hm)
    | exact .inr (fun _ => rfl)
    | (intro _; rfl)
    | (intro _; simp; done)
    | (simp; assumption)
    | (refine .inr (fun _ => ?_); simp; done)
    | (refine .inr (fun _ => ?_); (repeat' split) <;> first | rfl | (simp; done))
    | (simp; done)

def State.commitStartMask : Nat :=
  Part.vlt.bit

theorem State.commitStart_touch {msk : Nat} {s0 : State} {s : State} (hk : Touch msk s0 s) (hm : Sub State.commitStartMask msk) :
    Touch msk s0 (State.commitStart s) := by
  unfold State.commitStart
  try dsimp only
  repeat' (with_reducible first
    | assumption
    | exact Touch.refl
    | intro _
    | apply Touch.modVlt
    | apply Touch.ite
    | split)
  all_goals with_reducible first
    | exact .inr rfl
    | exact Sub.trans (b := State.commitStartMask) (by decide +kernel) hm
    | exact Has.sub (a := State.commitStartMask) (by decide +kernel) hm
    | exact .inl (Has.sub (a := State.commitStartMask) (by decide +kernel) hm)
    | exact Has.at (by decide) (Has.sub (a := State.commitStartMask) (by decide +kernel) hm)
    | exact Has.cell (by decide) (Has.sub (a := State.commitStartMask) (by decide +kernel) hm)
    | exact Has.cellNext (by decide) (Has.sub (a := State.commitStartMask) (by decide +kernel) hm)
    | exact Has.ite (Has.sub (a := State.commitStartMask) (by decide +kernel) hm) (Has.sub (a := State.commitStartMask) (by decide +kernel) hm)
    | exact .inr (fun _ => rfl)
    | (intro _; rfl)
    | (intro _; simp; done)
    | (simp; assumption)
    | (refine .inr (fun _ => ?_); simp; done)
    | (refine .inr (fun _ => ?_); (repeat' split) <;> first | rfl | (simp; done))
    | (simp; done)

def State.commitFullMask : Nat :=
  State.commitStartMask

theorem State.commitFull_touch {msk : Nat} {s0 : State} {s : State} (hk : Touch msk s0 s) (hm : Sub State.commitFullMask msk) :
    Touch msk s0 (State.commitFull s) := by
  unfold State.commitFull
  try dsimp only
  repeat' (with_reducible first
    | assumption
    | exact Touch.refl
    | intro _
    | apply State.commitStart_touch
    | (refine Touch.ofEq (by assumption) ?_)
    | apply Touch.ite
    | split)
  all_goals with_reducible first
    | exact .inr rfl
    | exact Sub.trans (b := State.commitFullMask) (by decide +kernel) hm
    | exact Has.sub (a := State.commitFullMask) (by decide +kernel) hm
    | exact .inl (Has.sub (a := State.commitFullMask) (by decide +kernel) hm)
    | exact Has.at (by decide) (Has.sub (a := State.commitFullMask) (by decide +kernel) hm)
    | exact Has.cell (by decide) (Has.sub (a := State.commitFullMask) (by decide +kernel) hm)
    | exact Has.cellNext (by decide) (Has.sub (a := State.commitFullMask) (by decide +kernel) hm)
    | exact Has.ite (Has.sub (a := State.commitFullMask) (by decide +kernel) hm) (Has.sub (a := State.commitFullMask) (by decide +kernel) hm)
    | exact .inr (fun _ => rfl)
    | (intro _; rfl)
    | (intro _; simp; done)
    | (simp; assumption)
    | (refine .inr (fun _ => ?_); simp; done)
    | (refine .inr (fun _ => ?_); (repeat' split) <;> first | rfl | (simp; done))
    | (simp; done)

def State.vRecordMask : Nat :=
  State.vEnterMask ||| State.commitFullMask ||| Part.vlt.bit

theorem State.vRecord_touch {msk : Nat} {s0 : State} {s : State} {typ : Nat} {payload : List Byte} (hk : Touch msk s0 s) (hm : Sub State.vRecordMask msk) :
    Touch msk s0 (State.vRecord s typ payload) := by
  unfold State.vRecord
  try dsimp only
  repeat' (with_reducible first
    | assumption
    | exact Touch.refl
    | intro _
    | apply Touch.modVlt
    | apply State.vEnter_touch
    | apply State.commitFull_touch
    | apply Touch.ite
    | split)
  all_goals with_reducible first
    | exact .inr rfl
    | exact Sub.trans (b := State.vRecordMask) (by decide +kernel) hm
    | exact Has.sub (a := State.vRecordMask) (by decide +kernel) hm
    | exact .inl (Has.sub (a := State.vRecordMask) (by decide +kernel) hm)
    | exact Has.at (by decide) (Has.sub (a := State.vRecordMask) (by decide +kernel) hm)
    | exact Has.cell (by decide) (Has.sub (a := State.vRecordMask) (by decide +kernel) hm)
    | exact Has.cellNext (by decide) (Has.sub (a := State.vRecordMask) (by decide +kernel) hm)
    | exact Has.ite (Has.sub (a := State.vRecordMask) (by decide +kernel) hm) (Has.sub (a := State.vRecordMask) (by decide +kernel) hm)
    | exact .inr (fun _ => rfl)
    | (intro _; rfl)
    | (intro _; simp; done)
    | (simp; assumption)
    | (refine .inr (fun _ => ?_); simp; done)
    | (refine .inr (fun _ => ?_); (repeat' split) <;> first | rfl | (simp; done))
    | (simp; done)

def State.vStickMask : Nat :=
  State.stickMask ||| rbit R.VLT_STAT

theorem State.vStick_touch {msk : Nat} {s0 : State} {s : State} {f : Fld} (hk : Touch msk s0 s) (hm : Sub State.vStickMask msk) :
    Touch msk s0 (State.vStick s f) := by
  unfold State.vStick
  try dsimp only
  repeat' (with_reducible first
    | assumption
    | exact Touch.refl
    | intro _
    | apply State.stick_touch)
  all_goals with_reducible first
    | exact .inr rfl
    | exact Sub.trans (b := State.vStickMask) (by decide +kernel) hm
    | exact Has.sub (a := State.vStickMask) (by decide +kernel) hm
    | exact .inl (Has.sub (a := State.vStickMask) (by decide +kernel) hm)
    | exact Has.at (by decide) (Has.sub (a := State.vStickMask) (by decide +kernel) hm)
    | exact Has.cell (by decide) (Has.sub (a := State.vStickMask) (by decide +kernel) hm)
    | exact Has.cellNext (by decide) (Has.sub (a := State.vStickMask) (by decide +kernel) hm)
    | exact Has.ite (Has.sub (a := State.vStickMask) (by decide +kernel) hm) (Has.sub (a := State.vStickMask) (by decide +kernel) hm)
    | exact .inr (fun _ => rfl)
    | (intro _; rfl)
    | (intro _; simp; done)
    | (simp; assumption)
    | (refine .inr (fun _ => ?_); simp; done)
    | (refine .inr (fun _ => ?_); (repeat' split) <;> first | rfl | (simp; done))
    | (simp; done)

def State.vRefuseMask : Nat :=
  State.vStickMask ||| rbit R.VLT_ERR

theorem State.vRefuse_touch {msk : Nat} {s0 : State} {s : State} {code : Nat} (hk : Touch msk s0 s) (hm : Sub State.vRefuseMask msk) :
    Touch msk s0 (State.vRefuse s code) := by
  unfold State.vRefuse
  try dsimp only
  repeat' (with_reducible first
    | assumption
    | exact Touch.refl
    | intro _
    | apply State.vStick_touch
    | apply State.setFld_touch)
  all_goals with_reducible first
    | exact .inr rfl
    | exact Sub.trans (b := State.vRefuseMask) (by decide +kernel) hm
    | exact Has.sub (a := State.vRefuseMask) (by decide +kernel) hm
    | exact .inl (Has.sub (a := State.vRefuseMask) (by decide +kernel) hm)
    | exact Has.at (by decide) (Has.sub (a := State.vRefuseMask) (by decide +kernel) hm)
    | exact Has.cell (by decide) (Has.sub (a := State.vRefuseMask) (by decide +kernel) hm)
    | exact Has.cellNext (by decide) (Has.sub (a := State.vRefuseMask) (by decide +kernel) hm)
    | exact Has.ite (Has.sub (a := State.vRefuseMask) (by decide +kernel) hm) (Has.sub (a := State.vRefuseMask) (by decide +kernel) hm)
    | exact .inr (fun _ => rfl)
    | (intro _; rfl)
    | (intro _; simp; done)
    | (simp; assumption)
    | (refine .inr (fun _ => ?_); simp; done)
    | (refine .inr (fun _ => ?_); (repeat' split) <;> first | rfl | (simp; done))
    | (simp; done)

def State.vIntegrityMask : Nat :=
  State.postMask ||| State.vStickMask ||| rbit R.NMI_STAT

theorem State.vIntegrity_touch {msk : Nat} {s0 : State} {s : State} {detail : Nat} (hk : Touch msk s0 s) (hm : Sub State.vIntegrityMask msk) :
    Touch msk s0 (State.vIntegrity s detail) := by
  unfold State.vIntegrity
  try dsimp only
  repeat' (with_reducible first
    | assumption
    | exact Touch.refl
    | intro _
    | apply State.post_touch
    | apply State.vStick_touch
    | apply State.nmi_touch)
  all_goals with_reducible first
    | exact .inr rfl
    | exact Sub.trans (b := State.vIntegrityMask) (by decide +kernel) hm
    | exact Has.sub (a := State.vIntegrityMask) (by decide +kernel) hm
    | exact .inl (Has.sub (a := State.vIntegrityMask) (by decide +kernel) hm)
    | exact Has.at (by decide) (Has.sub (a := State.vIntegrityMask) (by decide +kernel) hm)
    | exact Has.cell (by decide) (Has.sub (a := State.vIntegrityMask) (by decide +kernel) hm)
    | exact Has.cellNext (by decide) (Has.sub (a := State.vIntegrityMask) (by decide +kernel) hm)
    | exact Has.ite (Has.sub (a := State.vIntegrityMask) (by decide +kernel) hm) (Has.sub (a := State.vIntegrityMask) (by decide +kernel) hm)
    | exact .inr (fun _ => rfl)
    | (intro _; rfl)
    | (intro _; simp; done)
    | (simp; assumption)
    | (refine .inr (fun _ => ?_); simp; done)
    | (refine .inr (fun _ => ?_); (repeat' split) <;> first | rfl | (simp; done))
    | (simp; done)

def State.vKickMask : Nat :=
  Part.flash.bit ||| Part.last.bit ||| Part.vlt.bit

theorem State.vKick_touch {msk : Nat} {s0 : State} {s : State} (hk : Touch msk s0 s) (hm : Sub State.vKickMask msk) :
    Touch msk s0 (State.vKick s) := by
  unfold State.vKick
  try dsimp only
  repeat' (with_reducible first
    | assumption
    | exact Touch.refl
    | intro _
    | apply Touch.modVlt
    | apply Touch.ite
    | split)
  all_goals with_reducible first
    | exact .inr rfl
    | exact Sub.trans (b := State.vKickMask) (by decide +kernel) hm
    | exact Has.sub (a := State.vKickMask) (by decide +kernel) hm
    | exact .inl (Has.sub (a := State.vKickMask) (by decide +kernel) hm)
    | exact Has.at (by decide) (Has.sub (a := State.vKickMask) (by decide +kernel) hm)
    | exact Has.cell (by decide) (Has.sub (a := State.vKickMask) (by decide +kernel) hm)
    | exact Has.cellNext (by decide) (Has.sub (a := State.vKickMask) (by decide +kernel) hm)
    | exact Has.ite (Has.sub (a := State.vKickMask) (by decide +kernel) hm) (Has.sub (a := State.vKickMask) (by decide +kernel) hm)
    | exact .inr (fun _ => rfl)
    | (intro _; rfl)
    | (intro _; simp; done)
    | (simp; assumption)
    | (refine .inr (fun _ => ?_); simp; done)
    | (refine .inr (fun _ => ?_); (repeat' split) <;> first | rfl | (simp; done))
    | (simp; done)

def State.vOperateMask : Nat :=
  State.vEnterMask ||| State.vKickMask

theorem State.vOperate_touch {msk : Nat} {s0 : State} {s : State} {e : VEntry} (hk : Touch msk s0 s) (hm : Sub State.vOperateMask msk) :
    Touch msk s0 (State.vOperate s e) := by
  unfold State.vOperate
  try dsimp only
  repeat' (with_reducible first
    | assumption
    | exact Touch.refl
    | intro _
    | apply State.vEnter_touch
    | apply State.vKick_touch)
  all_goals with_reducible first
    | exact .inr rfl
    | exact Sub.trans (b := State.vOperateMask) (by decide +kernel) hm
    | exact Has.sub (a := State.vOperateMask) (by decide +kernel) hm
    | exact .inl (Has.sub (a := State.vOperateMask) (by decide +kernel) hm)
    | exact Has.at (by decide) (Has.sub (a := State.vOperateMask) (by decide +kernel) hm)
    | exact Has.cell (by decide) (Has.sub (a := State.vOperateMask) (by decide +kernel) hm)
    | exact Has.cellNext (by decide) (Has.sub (a := State.vOperateMask) (by decide +kernel) hm)
    | exact Has.ite (Has.sub (a := State.vOperateMask) (by decide +kernel) hm) (Has.sub (a := State.vOperateMask) (by decide +kernel) hm)
    | exact .inr (fun _ => rfl)
    | (intro _; rfl)
    | (intro _; simp; done)
    | (simp; assumption)
    | (refine .inr (fun _ => ?_); simp; done)
    | (refine .inr (fun _ => ?_); (repeat' split) <;> first | rfl | (simp; done))
    | (simp; done)

def State.opEndMask : Nat :=
  State.compactDueMask ||| State.vWaitingMask ||| State.vKickMask ||| Part.vlt.bit

theorem State.opEnd_touch {msk : Nat} {s0 : State} {s : State} (hk : Touch msk s0 s) (hm : Sub State.opEndMask msk) :
    Touch msk s0 (State.opEnd s) := by
  unfold State.opEnd
  try dsimp only
  repeat' (with_reducible first
    | assumption
    | exact Touch.refl
    | intro _
    | apply Touch.modVlt
    | apply State.compactDue_touch
    | apply State.vWaiting_touch
    | apply State.vKick_touch)
  all_goals with_reducible first
    | exact .inr rfl
    | exact Sub.trans (b := State.opEndMask) (by decide +kernel) hm
    | exact Has.sub (a := State.opEndMask) (by decide +kernel) hm
    | exact .inl (Has.sub (a := State.opEndMask) (by decide +kernel) hm)
    | exact Has.at (by decide) (Has.sub (a := State.opEndMask) (by decide +kernel) hm)
    | exact Has.cell (by decide) (Has.sub (a := State.opEndMask) (by decide +kernel) hm)
    | exact Has.cellNext (by decide) (Has.sub (a := State.opEndMask) (by decide +kernel) hm)
    | exact Has.ite (Has.sub (a := State.opEndMask) (by decide +kernel) hm) (Has.sub (a := State.opEndMask) (by decide +kernel) hm)
    | exact .inr (fun _ => rfl)
    | (intro _; rfl)
    | (intro _; simp; done)
    | (simp; assumption)
    | (refine .inr (fun _ => ?_); simp; done)
    | (refine .inr (fun _ => ?_); (repeat' split) <;> first | rfl | (simp; done))
    | (simp; done)

def State.foldStartMask : Nat :=
  Part.vlt.bit

theorem State.foldStart_touch {msk : Nat} {s0 : State} {s : State} (hk : Touch msk s0 s) (hm : Sub State.foldStartMask msk) :
    Touch msk s0 (State.foldStart s) := by
  unfold State.foldStart
  try dsimp only
  repeat' (with_reducible first
    | assumption
    | exact Touch.refl
    | intro _
    | apply Touch.modVlt
    | apply Touch.ite
    | apply Touch.foldl
    | apply Touch.foldlFst
    | split)
  all_goals with_reducible first
    | exact .inr rfl
    | exact Sub.trans (b := State.foldStartMask) (by decide +kernel) hm
    | exact Has.sub (a := State.foldStartMask) (by decide +kernel) hm
    | exact .inl (Has.sub (a := State.foldStartMask) (by decide +kernel) hm)
    | exact Has.at (by decide) (Has.sub (a := State.foldStartMask) (by decide +kernel) hm)
    | exact Has.cell (by decide) (Has.sub (a := State.foldStartMask) (by decide +kernel) hm)
    | exact Has.cellNext (by decide) (Has.sub (a := State.foldStartMask) (by decide +kernel) hm)
    | exact Has.ite (Has.sub (a := State.foldStartMask) (by decide +kernel) hm) (Has.sub (a := State.foldStartMask) (by decide +kernel) hm)
    | exact .inr (fun _ => rfl)
    | (intro _; rfl)
    | (intro _; simp; done)
    | (simp; assumption)
    | (refine .inr (fun _ => ?_); simp; done)
    | (refine .inr (fun _ => ?_); (repeat' split) <;> first | rfl | (simp; done))
    | (simp; done)

def State.hatIncMask : Nat :=
  State.foldStartMask ||| Part.last.bit ||| Part.vlt.bit

theorem State.hatInc_touch {msk : Nat} {s0 : State} {s : State} {n : Nat} {k : Nat} (hk : Touch msk s0 s) (hm : Sub State.hatIncMask msk) :
    Touch msk s0 (State.hatInc s n k) := by
  unfold State.hatInc
  try dsimp only
  repeat' (with_reducible first
    | assumption
    | exact Touch.refl
    | intro _
    | apply Touch.modVlt
    | apply State.foldStart_touch
    | apply Touch.ite
    | apply Touch.foldl
    | apply Touch.foldlFst
    | split)
  all_goals with_reducible first
    | exact .inr rfl
    | exact Sub.trans (b := State.hatIncMask) (by decide +kernel) hm
    | exact Has.sub (a := State.hatIncMask) (by decide +kernel) hm
    | exact .inl (Has.sub (a := State.hatIncMask) (by decide +kernel) hm)
    | exact Has.at (by decide) (Has.sub (a := State.hatIncMask) (by decide +kernel) hm)
    | exact Has.cell (by decide) (Has.sub (a := State.hatIncMask) (by decide +kernel) hm)
    | exact Has.cellNext (by decide) (Has.sub (a := State.hatIncMask) (by decide +kernel) hm)
    | exact Has.ite (Has.sub (a := State.hatIncMask) (by decide +kernel) hm) (Has.sub (a := State.hatIncMask) (by decide +kernel) hm)
    | exact .inr (fun _ => rfl)
    | (intro _; rfl)
    | (intro _; simp; done)
    | (simp; assumption)
    | (refine .inr (fun _ => ?_); simp; done)
    | (refine .inr (fun _ => ?_); (repeat' split) <;> first | rfl | (simp; done))
    | (simp; done)

def State.floorRaiseMask : Nat :=
  State.hatIncMask

theorem State.floorRaise_touch {msk : Nat} {s0 : State} {s : State} {k : Nat} (hk : Touch msk s0 s) (hm : Sub State.floorRaiseMask msk) :
    Touch msk s0 (State.floorRaise s k) := by
  unfold State.floorRaise
  try dsimp only
  repeat' (with_reducible first
    | assumption
    | exact Touch.refl
    | intro _
    | apply State.hatInc_touch)
  all_goals with_reducible first
    | exact .inr rfl
    | exact Sub.trans (b := State.floorRaiseMask) (by decide +kernel) hm
    | exact Has.sub (a := State.floorRaiseMask) (by decide +kernel) hm
    | exact .inl (Has.sub (a := State.floorRaiseMask) (by decide +kernel) hm)
    | exact Has.at (by decide) (Has.sub (a := State.floorRaiseMask) (by decide +kernel) hm)
    | exact Has.cell (by decide) (Has.sub (a := State.floorRaiseMask) (by decide +kernel) hm)
    | exact Has.cellNext (by decide) (Has.sub (a := State.floorRaiseMask) (by decide +kernel) hm)
    | exact Has.ite (Has.sub (a := State.floorRaiseMask) (by decide +kernel) hm) (Has.sub (a := State.floorRaiseMask) (by decide +kernel) hm)
    | exact .inr (fun _ => rfl)
    | (intro _; rfl)
    | (intro _; simp; done)
    | (simp; assumption)
    | (refine .inr (fun _ => ?_); simp; done)
    | (refine .inr (fun _ => ?_); (repeat' split) <;> first | rfl | (simp; done))
    | (simp; done)

end Sys2Proof.Machine
end

