-- ==== Sys2Proof/Laws/TouchTime.lean ====
section
/-! SUPPORT. What each operation of Machine/Time.lean may change: its mask, and the proof that it changes nothing else. -/

namespace Sys2Proof.Machine

set_option linter.unusedSimpArgs false
set_option Elab.async false

theorem alCtl_has {msk n : Nat} (h0 : Has msk (R.TIM_AL0CTL / 64)) (h1 : Has msk (R.TIM_AL1CTL / 64))
    (h2 : Has msk (R.TIM_AL2CTL / 64)) (h3 : Has msk (R.TIM_AL3CTL / 64)) : Has msk (alCtl n / 64) := by
  unfold alCtl
  rcases (show n % 4 = 0 ∨ n % 4 = 1 ∨ n % 4 = 2 ∨ n % 4 = 3 by omega) with h | h | h | h <;> rw [h]
  · exact h0
  · exact h1
  · exact h2
  · exact h3


def State.modTimMask : Nat :=
  Part.tim.bit

theorem State.modTim_touch {msk : Nat} {s0 : State} {s : State} {f : TimState → TimState} (hk : Touch msk s0 s) (hm : Sub State.modTimMask msk) :
    Touch msk s0 (State.modTim s f) := by
  unfold State.modTim
  try dsimp only
  repeat' (with_reducible first
    | assumption
    | exact Touch.refl
    | intro _
    | (simp only [Touch.mk_iff]; apply TouchMk.intro))
  all_goals with_reducible first
    | exact .inr rfl
    | exact Sub.trans (b := State.modTimMask) (by decide +kernel) hm
    | exact Has.sub (a := State.modTimMask) (by decide +kernel) hm
    | exact .inl (Has.sub (a := State.modTimMask) (by decide +kernel) hm)
    | exact Has.at (by decide) (Has.sub (a := State.modTimMask) (by decide +kernel) hm)
    | exact Has.cell (by decide) (Has.sub (a := State.modTimMask) (by decide +kernel) hm)
    | exact Has.cellNext (by decide) (Has.sub (a := State.modTimMask) (by decide +kernel) hm)
    | exact Has.ite (Has.sub (a := State.modTimMask) (by decide +kernel) hm) (Has.sub (a := State.modTimMask) (by decide +kernel) hm)
    | exact .inr (fun _ => rfl)
    | (intro _; rfl)
    | (intro _; simp; done)
    | (simp; assumption)
    | (refine .inr (fun _ => ?_); simp; done)
    | (refine .inr (fun _ => ?_); (repeat' split) <;> first | rfl | (simp; done))
    | (simp; done)

def State.modKeepMask : Nat :=
  Part.keep.bit

theorem State.modKeep_touch {msk : Nat} {s0 : State} {s : State} {f : KeepState → KeepState} (hk : Touch msk s0 s) (hm : Sub State.modKeepMask msk) :
    Touch msk s0 (State.modKeep s f) := by
  unfold State.modKeep
  try dsimp only
  repeat' (with_reducible first
    | assumption
    | exact Touch.refl
    | intro _
    | (simp only [Touch.mk_iff]; apply TouchMk.intro))
  all_goals with_reducible first
    | exact .inr rfl
    | exact Sub.trans (b := State.modKeepMask) (by decide +kernel) hm
    | exact Has.sub (a := State.modKeepMask) (by decide +kernel) hm
    | exact .inl (Has.sub (a := State.modKeepMask) (by decide +kernel) hm)
    | exact Has.at (by decide) (Has.sub (a := State.modKeepMask) (by decide +kernel) hm)
    | exact Has.cell (by decide) (Has.sub (a := State.modKeepMask) (by decide +kernel) hm)
    | exact Has.cellNext (by decide) (Has.sub (a := State.modKeepMask) (by decide +kernel) hm)
    | exact Has.ite (Has.sub (a := State.modKeepMask) (by decide +kernel) hm) (Has.sub (a := State.modKeepMask) (by decide +kernel) hm)
    | exact .inr (fun _ => rfl)
    | (intro _; rfl)
    | (intro _; simp; done)
    | (simp; assumption)
    | (refine .inr (fun _ => ?_); simp; done)
    | (refine .inr (fun _ => ?_); (repeat' split) <;> first | rfl | (simp; done))
    | (simp; done)

def State.timEvtMask : Nat :=
  State.stickMask ||| rbit R.TIM_EVT

theorem State.timEvt_touch {msk : Nat} {s0 : State} {s : State} {f : Fld} (hk : Touch msk s0 s) (hm : Sub State.timEvtMask msk) :
    Touch msk s0 (State.timEvt s f) := by
  unfold State.timEvt
  try dsimp only
  repeat' (with_reducible first
    | assumption
    | exact Touch.refl
    | intro _
    | apply State.stick_touch)
  all_goals with_reducible first
    | exact .inr rfl
    | exact Sub.trans (b := State.timEvtMask) (by decide +kernel) hm
    | exact Has.sub (a := State.timEvtMask) (by decide +kernel) hm
    | exact .inl (Has.sub (a := State.timEvtMask) (by decide +kernel) hm)
    | exact Has.at (by decide) (Has.sub (a := State.timEvtMask) (by decide +kernel) hm)
    | exact Has.cell (by decide) (Has.sub (a := State.timEvtMask) (by decide +kernel) hm)
    | exact Has.cellNext (by decide) (Has.sub (a := State.timEvtMask) (by decide +kernel) hm)
    | exact Has.ite (Has.sub (a := State.timEvtMask) (by decide +kernel) hm) (Has.sub (a := State.timEvtMask) (by decide +kernel) hm)
    | exact .inr (fun _ => rfl)
    | (intro _; rfl)
    | (intro _; simp; done)
    | (simp; assumption)
    | (refine .inr (fun _ => ?_); simp; done)
    | (refine .inr (fun _ => ?_); (repeat' split) <;> first | rfl | (simp; done))
    | (simp; done)

def State.timSetMask : Nat :=
  State.postMask ||| State.modTimMask ||| State.timEvtMask ||| rbit R.TIM_STAT

theorem State.timSet_touch {msk : Nat} {s0 : State} {s : State} {st : Nat} (hk : Touch msk s0 s) (hm : Sub State.timSetMask msk) :
    Touch msk s0 (State.timSet s st) := by
  unfold State.timSet
  try dsimp only
  repeat' (with_reducible first
    | assumption
    | exact Touch.refl
    | intro _
    | apply State.post_touch
    | apply State.modTim_touch
    | apply State.timEvt_touch
    | apply State.setFld_touch
    | apply Touch.ite
    | split)
  all_goals with_reducible first
    | exact .inr rfl
    | exact Sub.trans (b := State.timSetMask) (by decide +kernel) hm
    | exact Has.sub (a := State.timSetMask) (by decide +kernel) hm
    | exact .inl (Has.sub (a := State.timSetMask) (by decide +kernel) hm)
    | exact Has.at (by decide) (Has.sub (a := State.timSetMask) (by decide +kernel) hm)
    | exact Has.cell (by decide) (Has.sub (a := State.timSetMask) (by decide +kernel) hm)
    | exact Has.cellNext (by decide) (Has.sub (a := State.timSetMask) (by decide +kernel) hm)
    | exact Has.ite (Has.sub (a := State.timSetMask) (by decide +kernel) hm) (Has.sub (a := State.timSetMask) (by decide +kernel) hm)
    | exact .inr (fun _ => rfl)
    | (intro _; rfl)
    | (intro _; simp; done)
    | (simp; assumption)
    | (refine .inr (fun _ => ?_); simp; done)
    | (refine .inr (fun _ => ?_); (repeat' split) <;> first | rfl | (simp; done))
    | (simp; done)

def State.moveTimeMask : Nat :=
  State.modTimMask ||| State.modKeepMask ||| Part.mac.bit

theorem State.moveTime_touch {msk : Nat} {s0 : State} {s : State} {t : Nat} (hk : Touch msk s0 s) (hm : Sub State.moveTimeMask msk) :
    Touch msk s0 (State.moveTime s t) := by
  unfold State.moveTime
  try dsimp only
  repeat' (with_reducible first
    | assumption
    | exact Touch.refl
    | intro _
    | apply State.modTim_touch
    | apply State.modKeep_touch
    | apply Touch.ite
    | (simp only [Touch.mk_iff]; apply TouchMk.intro)
    | split)
  all_goals with_reducible first
    | exact .inr rfl
    | exact Sub.trans (b := State.moveTimeMask) (by decide +kernel) hm
    | exact Has.sub (a := State.moveTimeMask) (by decide +kernel) hm
    | exact .inl (Has.sub (a := State.moveTimeMask) (by decide +kernel) hm)
    | exact Has.at (by decide) (Has.sub (a := State.moveTimeMask) (by decide +kernel) hm)
    | exact Has.cell (by decide) (Has.sub (a := State.moveTimeMask) (by decide +kernel) hm)
    | exact Has.cellNext (by decide) (Has.sub (a := State.moveTimeMask) (by decide +kernel) hm)
    | exact Has.ite (Has.sub (a := State.moveTimeMask) (by decide +kernel) hm) (Has.sub (a := State.moveTimeMask) (by decide +kernel) hm)
    | exact .inr (fun _ => rfl)
    | (intro _; rfl)
    | (intro _; simp; done)
    | (simp; assumption)
    | (refine .inr (fun _ => ?_); simp; done)
    | (refine .inr (fun _ => ?_); (repeat' split) <;> first | rfl | (simp; done))
    | (simp; done)

def State.timStepByMask : Nat :=
  State.postMask ||| State.modTimMask ||| State.timEvtMask ||| State.timSetMask ||| State.moveTimeMask

theorem State.timStepBy_touch {msk : Nat} {s0 : State} {s : State} {theta : Int} (hk : Touch msk s0 s) (hm : Sub State.timStepByMask msk) :
    Touch msk s0 (State.timStepBy s theta) := by
  unfold State.timStepBy
  try dsimp only
  repeat' (with_reducible first
    | assumption
    | exact Touch.refl
    | intro _
    | apply State.post_touch
    | apply State.modTim_touch
    | apply State.timEvt_touch
    | apply State.timSet_touch
    | apply State.moveTime_touch
    | apply Touch.ite
    | split)
  all_goals with_reducible first
    | exact .inr rfl
    | exact Sub.trans (b := State.timStepByMask) (by decide +kernel) hm
    | exact Has.sub (a := State.timStepByMask) (by decide +kernel) hm
    | exact .inl (Has.sub (a := State.timStepByMask) (by decide +kernel) hm)
    | exact Has.at (by decide) (Has.sub (a := State.timStepByMask) (by decide +kernel) hm)
    | exact Has.cell (by decide) (Has.sub (a := State.timStepByMask) (by decide +kernel) hm)
    | exact Has.cellNext (by decide) (Has.sub (a := State.timStepByMask) (by decide +kernel) hm)
    | exact Has.ite (Has.sub (a := State.timStepByMask) (by decide +kernel) hm) (Has.sub (a := State.timStepByMask) (by decide +kernel) hm)
    | exact .inr (fun _ => rfl)
    | (intro _; rfl)
    | (intro _; simp; done)
    | (simp; assumption)
    | (refine .inr (fun _ => ?_); simp; done)
    | (refine .inr (fun _ => ?_); (repeat' split) <;> first | rfl | (simp; done))
    | (simp; done)

def State.timAcceptMask : Nat :=
  State.modTimMask ||| State.timSetMask ||| rbit R.TIM_FREQ_LO ||| rbit R.TIM_FREQ_HI

theorem State.timAccept_touch {msk : Nat} {s0 : State} {s : State} {theta : Int} {i : Int} (hk : Touch msk s0 s) (hm : Sub State.timAcceptMask msk) :
    Touch msk s0 (State.timAccept s theta i) := by
  unfold State.timAccept
  try dsimp only
  repeat' (with_reducible first
    | assumption
    | exact Touch.refl
    | intro _
    | apply State.modTim_touch
    | apply State.timSet_touch
    | apply State.setPair_touch
    | apply Touch.ite
    | split)
  all_goals with_reducible first
    | exact .inr rfl
    | exact Sub.trans (b := State.timAcceptMask) (by decide +kernel) hm
    | exact Has.sub (a := State.timAcceptMask) (by decide +kernel) hm
    | exact .inl (Has.sub (a := State.timAcceptMask) (by decide +kernel) hm)
    | exact Has.at (by decide) (Has.sub (a := State.timAcceptMask) (by decide +kernel) hm)
    | exact Has.cell (by decide) (Has.sub (a := State.timAcceptMask) (by decide +kernel) hm)
    | exact Has.cellNext (by decide) (Has.sub (a := State.timAcceptMask) (by decide +kernel) hm)
    | exact Has.ite (Has.sub (a := State.timAcceptMask) (by decide +kernel) hm) (Has.sub (a := State.timAcceptMask) (by decide +kernel) hm)
    | exact .inr (fun _ => rfl)
    | (intro _; rfl)
    | (intro _; simp; done)
    | (simp; assumption)
    | (refine .inr (fun _ => ?_); simp; done)
    | (refine .inr (fun _ => ?_); (repeat' split) <;> first | rfl | (simp; done))
    | (simp; done)

def State.timThetaMask : Nat :=
  State.modTimMask ||| State.timStepByMask ||| State.timAcceptMask ||| rbit R.TIM_THETA

theorem State.timTheta_touch {msk : Nat} {s0 : State} {s : State} {theta : Int} {i : Option Nat} (hk : Touch msk s0 s) (hm : Sub State.timThetaMask msk) :
    Touch msk s0 (State.timTheta s theta i) := by
  unfold State.timTheta
  try dsimp only
  repeat' (with_reducible first
    | assumption
    | exact Touch.refl
    | intro _
    | apply State.modTim_touch
    | apply State.timStepBy_touch
    | apply State.timAccept_touch
    | apply State.setFld_touch
    | (refine Touch.ofEq (by assumption) ?_)
    | apply Touch.ite
    | split)
  all_goals with_reducible first
    | exact .inr rfl
    | exact Sub.trans (b := State.timThetaMask) (by decide +kernel) hm
    | exact Has.sub (a := State.timThetaMask) (by decide +kernel) hm
    | exact .inl (Has.sub (a := State.timThetaMask) (by decide +kernel) hm)
    | exact Has.at (by decide) (Has.sub (a := State.timThetaMask) (by decide +kernel) hm)
    | exact Has.cell (by decide) (Has.sub (a := State.timThetaMask) (by decide +kernel) hm)
    | exact Has.cellNext (by decide) (Has.sub (a := State.timThetaMask) (by decide +kernel) hm)
    | exact Has.ite (Has.sub (a := State.timThetaMask) (by decide +kernel) hm) (Has.sub (a := State.timThetaMask) (by decide +kernel) hm)
    | exact .inr (fun _ => rfl)
    | (intro _; rfl)
    | (intro _; simp; done)
    | (simp; assumption)
    | (refine .inr (fun _ => ?_); simp; done)
    | (refine .inr (fun _ => ?_); (repeat' split) <;> first | rfl | (simp; done))
    | (simp; done)

def State.timLoadMask : Nat :=
  State.postMask ||| State.modTimMask ||| State.timEvtMask ||| State.timSetMask ||| State.moveTimeMask

theorem State.timLoad_touch {msk : Nat} {s0 : State} {s : State} {t : Nat} {d : Nat} (hk : Touch msk s0 s) (hm : Sub State.timLoadMask msk) :
    Touch msk s0 (State.timLoad s t d) := by
  unfold State.timLoad
  try dsimp only
  repeat' (with_reducible first
    | assumption
    | exact Touch.refl
    | intro _
    | apply State.post_touch
    | apply State.modTim_touch
    | apply State.timEvt_touch
    | apply State.timSet_touch
    | apply State.moveTime_touch
    | apply Touch.ite
    | split)
  all_goals with_reducible first
    | exact .inr rfl
    | exact Sub.trans (b := State.timLoadMask) (by decide +kernel) hm
    | exact Has.sub (a := State.timLoadMask) (by decide +kernel) hm
    | exact .inl (Has.sub (a := State.timLoadMask) (by decide +kernel) hm)
    | exact Has.at (by decide) (Has.sub (a := State.timLoadMask) (by decide +kernel) hm)
    | exact Has.cell (by decide) (Has.sub (a := State.timLoadMask) (by decide +kernel) hm)
    | exact Has.cellNext (by decide) (Has.sub (a := State.timLoadMask) (by decide +kernel) hm)
    | exact Has.ite (Has.sub (a := State.timLoadMask) (by decide +kernel) hm) (Has.sub (a := State.timLoadMask) (by decide +kernel) hm)
    | exact .inr (fun _ => rfl)
    | (intro _; rfl)
    | (intro _; simp; done)
    | (simp; assumption)
    | (refine .inr (fun _ => ?_); simp; done)
    | (refine .inr (fun _ => ?_); (repeat' split) <;> first | rfl | (simp; done))
    | (simp; done)

def State.timHeadNowMask : Nat :=
  State.timSetMask

theorem State.timHeadNow_touch {msk : Nat} {s0 : State} {s : State} (hk : Touch msk s0 s) (hm : Sub State.timHeadNowMask msk) :
    Touch msk s0 (State.timHeadNow s) := by
  unfold State.timHeadNow
  try dsimp only
  repeat' (with_reducible first
    | assumption
    | exact Touch.refl
    | intro _
    | apply State.timSet_touch
    | apply Touch.ite
    | split)
  all_goals with_reducible first
    | exact .inr rfl
    | exact Sub.trans (b := State.timHeadNowMask) (by decide +kernel) hm
    | exact Has.sub (a := State.timHeadNowMask) (by decide +kernel) hm
    | exact .inl (Has.sub (a := State.timHeadNowMask) (by decide +kernel) hm)
    | exact Has.at (by decide) (Has.sub (a := State.timHeadNowMask) (by decide +kernel) hm)
    | exact Has.cell (by decide) (Has.sub (a := State.timHeadNowMask) (by decide +kernel) hm)
    | exact Has.cellNext (by decide) (Has.sub (a := State.timHeadNowMask) (by decide +kernel) hm)
    | exact Has.ite (Has.sub (a := State.timHeadNowMask) (by decide +kernel) hm) (Has.sub (a := State.timHeadNowMask) (by decide +kernel) hm)
    | exact .inr (fun _ => rfl)
    | (intro _; rfl)
    | (intro _; simp; done)
    | (simp; assumption)
    | (refine .inr (fun _ => ?_); simp; done)
    | (refine .inr (fun _ => ?_); (repeat' split) <;> first | rfl | (simp; done))
    | (simp; done)

def State.timCmdMask : Nat :=
  State.timLoadMask ||| rbit R.TIM_FLG

theorem State.timCmd_touch {msk : Nat} {s0 : State} {s : State} {p : Path} {code : Nat} (hk : Touch msk s0 s) (hm : Sub State.timCmdMask msk) :
    Touch msk s0 (State.timCmd s p code) := by
  unfold State.timCmd
  try dsimp only
  repeat' (with_reducible first
    | assumption
    | exact Touch.refl
    | intro _
    | apply State.timLoad_touch
    | apply State.setFlag_touch
    | (refine Touch.ofEq (by assumption) ?_)
    | apply Touch.ite
    | split)
  all_goals with_reducible first
    | exact .inr rfl
    | exact Sub.trans (b := State.timCmdMask) (by decide +kernel) hm
    | exact Has.sub (a := State.timCmdMask) (by decide +kernel) hm
    | exact .inl (Has.sub (a := State.timCmdMask) (by decide +kernel) hm)
    | exact Has.at (by decide) (Has.sub (a := State.timCmdMask) (by decide +kernel) hm)
    | exact Has.cell (by decide) (Has.sub (a := State.timCmdMask) (by decide +kernel) hm)
    | exact Has.cellNext (by decide) (Has.sub (a := State.timCmdMask) (by decide +kernel) hm)
    | exact Has.ite (Has.sub (a := State.timCmdMask) (by decide +kernel) hm) (Has.sub (a := State.timCmdMask) (by decide +kernel) hm)
    | exact .inr (fun _ => rfl)
    | (intro _; rfl)
    | (intro _; simp; done)
    | (simp; assumption)
    | (refine .inr (fun _ => ?_); simp; done)
    | (refine .inr (fun _ => ?_); (repeat' split) <;> first | rfl | (simp; done))
    | (simp; done)

def State.timCaptureMask : Nat :=
  State.postMask ||| State.modTimMask ||| State.timThetaMask ||| State.timLoadMask ||| State.timHeadNowMask ||| rbit
    R.TIM_FLG ||| rbit R.TIM_CAPS_LO ||| rbit R.TIM_CAPS_HI ||| rbit R.TIM_CAPF_LO ||| rbit R.TIM_CAPF_HI

theorem State.timCapture_touch {msk : Nat} {s0 : State} {s : State} {n : Nat} (hk : Touch msk s0 s) (hm : Sub State.timCaptureMask msk) :
    Touch msk s0 (State.timCapture s n) := by
  unfold State.timCapture
  try dsimp only
  repeat' (with_reducible first
    | assumption
    | exact Touch.refl
    | intro _
    | apply State.post_touch
    | apply State.modTim_touch
    | apply State.timTheta_touch
    | apply State.timLoad_touch
    | apply State.timHeadNow_touch
    | apply State.setFlag_touch
    | apply State.setPair_touch
    | (refine Touch.ofEq (by assumption) ?_)
    | apply Touch.ite
    | split)
  all_goals with_reducible first
    | exact .inr rfl
    | exact Sub.trans (b := State.timCaptureMask) (by decide +kernel) hm
    | exact Has.sub (a := State.timCaptureMask) (by decide +kernel) hm
    | exact .inl (Has.sub (a := State.timCaptureMask) (by decide +kernel) hm)
    | exact Has.at (by decide) (Has.sub (a := State.timCaptureMask) (by decide +kernel) hm)
    | exact Has.cell (by decide) (Has.sub (a := State.timCaptureMask) (by decide +kernel) hm)
    | exact Has.cellNext (by decide) (Has.sub (a := State.timCaptureMask) (by decide +kernel) hm)
    | exact Has.ite (Has.sub (a := State.timCaptureMask) (by decide +kernel) hm) (Has.sub (a := State.timCaptureMask) (by decide +kernel) hm)
    | exact .inr (fun _ => rfl)
    | (intro _; rfl)
    | (intro _; simp; done)
    | (simp; assumption)
    | (refine .inr (fun _ => ?_); simp; done)
    | (refine .inr (fun _ => ?_); (repeat' split) <;> first | rfl | (simp; done))
    | (simp; done)

def State.offsetMovedMask : Nat :=
  State.modTimMask

theorem State.offsetMoved_touch {msk : Nat} {s0 : State} {s : State} {old : Word} (hk : Touch msk s0 s) (hm : Sub State.offsetMovedMask msk) :
    Touch msk s0 (State.offsetMoved s old) := by
  unfold State.offsetMoved
  try dsimp only
  repeat' (with_reducible first
    | assumption
    | exact Touch.refl
    | intro _
    | apply State.modTim_touch
    | apply Touch.ite
    | split)
  all_goals with_reducible first
    | exact .inr rfl
    | exact Sub.trans (b := State.offsetMovedMask) (by decide +kernel) hm
    | exact Has.sub (a := State.offsetMovedMask) (by decide +kernel) hm
    | exact .inl (Has.sub (a := State.offsetMovedMask) (by decide +kernel) hm)
    | exact Has.at (by decide) (Has.sub (a := State.offsetMovedMask) (by decide +kernel) hm)
    | exact Has.cell (by decide) (Has.sub (a := State.offsetMovedMask) (by decide +kernel) hm)
    | exact Has.cellNext (by decide) (Has.sub (a := State.offsetMovedMask) (by decide +kernel) hm)
    | exact Has.ite (Has.sub (a := State.offsetMovedMask) (by decide +kernel) hm) (Has.sub (a := State.offsetMovedMask) (by decide +kernel) hm)
    | exact .inr (fun _ => rfl)
    | (intro _; rfl)
    | (intro _; simp; done)
    | (simp; assumption)
    | (refine .inr (fun _ => ?_); simp; done)
    | (refine .inr (fun _ => ?_); (repeat' split) <;> first | rfl | (simp; done))
    | (simp; done)

def State.offsetTakeMask : Nat :=
  State.offsetMovedMask ||| rbit R.TIM_OFFSET

theorem State.offsetTake_touch {msk : Nat} {s0 : State} {s : State} {v : Word} (hk : Touch msk s0 s) (hm : Sub State.offsetTakeMask msk) :
    Touch msk s0 (State.offsetTake s v) := by
  unfold State.offsetTake
  try dsimp only
  repeat' (with_reducible first
    | assumption
    | exact Touch.refl
    | intro _
    | apply Touch.setReg
    | apply State.offsetMoved_touch
    | apply Touch.setReg)
  all_goals with_reducible first
    | exact .inr rfl
    | exact Sub.trans (b := State.offsetTakeMask) (by decide +kernel) hm
    | exact Has.sub (a := State.offsetTakeMask) (by decide +kernel) hm
    | exact .inl (Has.sub (a := State.offsetTakeMask) (by decide +kernel) hm)
    | exact Has.at (by decide) (Has.sub (a := State.offsetTakeMask) (by decide +kernel) hm)
    | exact Has.cell (by decide) (Has.sub (a := State.offsetTakeMask) (by decide +kernel) hm)
    | exact Has.cellNext (by decide) (Has.sub (a := State.offsetTakeMask) (by decide +kernel) hm)
    | exact Has.ite (Has.sub (a := State.offsetTakeMask) (by decide +kernel) hm) (Has.sub (a := State.offsetTakeMask) (by decide +kernel) hm)
    | exact .inr (fun _ => rfl)
    | (intro _; rfl)
    | (intro _; simp; done)
    | (simp; assumption)
    | (refine .inr (fun _ => ?_); simp; done)
    | (refine .inr (fun _ => ?_); (repeat' split) <;> first | rfl | (simp; done))
    | (simp; done)

def State.alarmWriteMask : Nat :=
  State.modTimMask ||| rbit R.TIM_AL0CTL ||| rbit R.TIM_AL1CTL ||| rbit R.TIM_AL2CTL ||| rbit R.TIM_AL3CTL

theorem State.alarmWrite_touch {msk : Nat} {s0 : State} {s : State} {n : Nat} {v : Word} (hk : Touch msk s0 s) (hm : Sub State.alarmWriteMask msk) :
    Touch msk s0 (State.alarmWrite s n v) := by
  unfold State.alarmWrite
  try dsimp only
  repeat' (with_reducible first
    | assumption
    | exact Touch.refl
    | intro _
    | apply Touch.setReg
    | apply State.modTim_touch
    | apply Touch.ite
    | apply Touch.setReg
    | split)
  all_goals with_reducible first
    | exact alCtl_has (Has.sub (a := State.alarmWriteMask) (by decide +kernel) hm) (Has.sub (a := State.alarmWriteMask) (by decide +kernel) hm) (Has.sub (a := State.alarmWriteMask) (by decide +kernel) hm) (Has.sub (a := State.alarmWriteMask) (by decide +kernel) hm)
    | exact .inr rfl
    | exact Sub.trans (b := State.alarmWriteMask) (by decide +kernel) hm
    | exact Has.sub (a := State.alarmWriteMask) (by decide +kernel) hm
    | exact .inl (Has.sub (a := State.alarmWriteMask) (by decide +kernel) hm)
    | exact Has.at (by decide) (Has.sub (a := State.alarmWriteMask) (by decide +kernel) hm)
    | exact Has.cell (by decide) (Has.sub (a := State.alarmWriteMask) (by decide +kernel) hm)
    | exact Has.cellNext (by decide) (Has.sub (a := State.alarmWriteMask) (by decide +kernel) hm)
    | exact Has.ite (Has.sub (a := State.alarmWriteMask) (by decide +kernel) hm) (Has.sub (a := State.alarmWriteMask) (by decide +kernel) hm)
    | exact .inr (fun _ => rfl)
    | (intro _; rfl)
    | (intro _; simp; done)
    | (simp; assumption)
    | (refine .inr (fun _ => ?_); simp; done)
    | (refine .inr (fun _ => ?_); (repeat' split) <;> first | rfl | (simp; done))
    | (simp; done)

def State.alarmFireMask : Nat :=
  State.stickMask ||| State.pulseMask ||| State.modTimMask ||| rbit R.TIM_EVT ||| rbit R.TIM_AL0CTL ||| rbit
    R.TIM_AL1CTL ||| rbit R.TIM_AL2CTL ||| rbit R.TIM_AL3CTL

theorem State.alarmFire_touch {msk : Nat} {s0 : State} {s : State} {n : Nat} (hk : Touch msk s0 s) (hm : Sub State.alarmFireMask msk) :
    Touch msk s0 (State.alarmFire s n) := by
  unfold State.alarmFire
  try dsimp only
  repeat' (with_reducible first
    | assumption
    | exact Touch.refl
    | intro _
    | apply State.stick_touch
    | apply State.pulse_touch
    | apply State.modTim_touch
    | apply State.setBit_touch
    | apply Touch.ite
    | split)
  all_goals with_reducible first
    | exact alCtl_has (Has.sub (a := State.alarmFireMask) (by decide +kernel) hm) (Has.sub (a := State.alarmFireMask) (by decide +kernel) hm) (Has.sub (a := State.alarmFireMask) (by decide +kernel) hm) (Has.sub (a := State.alarmFireMask) (by decide +kernel) hm)
    | exact .inr rfl
    | exact Sub.trans (b := State.alarmFireMask) (by decide +kernel) hm
    | exact Has.sub (a := State.alarmFireMask) (by decide +kernel) hm
    | exact .inl (Has.sub (a := State.alarmFireMask) (by decide +kernel) hm)
    | exact Has.at (by decide) (Has.sub (a := State.alarmFireMask) (by decide +kernel) hm)
    | exact Has.cell (by decide) (Has.sub (a := State.alarmFireMask) (by decide +kernel) hm)
    | exact Has.cellNext (by decide) (Has.sub (a := State.alarmFireMask) (by decide +kernel) hm)
    | exact Has.ite (Has.sub (a := State.alarmFireMask) (by decide +kernel) hm) (Has.sub (a := State.alarmFireMask) (by decide +kernel) hm)
    | exact .inr (fun _ => rfl)
    | (intro _; rfl)
    | (intro _; simp; done)
    | (simp; assumption)
    | (refine .inr (fun _ => ?_); simp; done)
    | (refine .inr (fun _ => ?_); (repeat' split) <;> first | rfl | (simp; done))
    | (simp; done)

def State.kaEdgeMask : Nat :=
  State.modTimMask ||| State.modKeepMask

theorem State.kaEdge_touch {msk : Nat} {s0 : State} {s : State} (hk : Touch msk s0 s) (hm : Sub State.kaEdgeMask msk) :
    Touch msk s0 (State.kaEdge s) := by
  unfold State.kaEdge
  try dsimp only
  repeat' (with_reducible first
    | assumption
    | exact Touch.refl
    | intro _
    | apply State.modTim_touch
    | apply State.modKeep_touch
    | apply Touch.ite
    | split)
  all_goals with_reducible first
    | exact .inr rfl
    | exact Sub.trans (b := State.kaEdgeMask) (by decide +kernel) hm
    | exact Has.sub (a := State.kaEdgeMask) (by decide +kernel) hm
    | exact .inl (Has.sub (a := State.kaEdgeMask) (by decide +kernel) hm)
    | exact Has.at (by decide) (Has.sub (a := State.kaEdgeMask) (by decide +kernel) hm)
    | exact Has.cell (by decide) (Has.sub (a := State.kaEdgeMask) (by decide +kernel) hm)
    | exact Has.cellNext (by decide) (Has.sub (a := State.kaEdgeMask) (by decide +kernel) hm)
    | exact Has.ite (Has.sub (a := State.kaEdgeMask) (by decide +kernel) hm) (Has.sub (a := State.kaEdgeMask) (by decide +kernel) hm)
    | exact .inr (fun _ => rfl)
    | (intro _; rfl)
    | (intro _; simp; done)
    | (simp; assumption)
    | (refine .inr (fun _ => ?_); simp; done)
    | (refine .inr (fun _ => ?_); (repeat' split) <;> first | rfl | (simp; done))
    | (simp; done)

def State.kaCalibrateMask : Nat :=
  State.modKeepMask ||| rbit R.TIM_KFERR

theorem State.kaCalibrate_touch {msk : Nat} {s0 : State} {s : State} (hk : Touch msk s0 s) (hm : Sub State.kaCalibrateMask msk) :
    Touch msk s0 (State.kaCalibrate s) := by
  unfold State.kaCalibrate
  try dsimp only
  repeat' (with_reducible first
    | assumption
    | exact Touch.refl
    | intro _
    | apply Touch.setReg
    | apply State.modKeep_touch
    | apply Touch.ite
    | apply Touch.setReg
    | split)
  all_goals with_reducible first
    | exact .inr rfl
    | exact Sub.trans (b := State.kaCalibrateMask) (by decide +kernel) hm
    | exact Has.sub (a := State.kaCalibrateMask) (by decide +kernel) hm
    | exact .inl (Has.sub (a := State.kaCalibrateMask) (by decide +kernel) hm)
    | exact Has.at (by decide) (Has.sub (a := State.kaCalibrateMask) (by decide +kernel) hm)
    | exact Has.cell (by decide) (Has.sub (a := State.kaCalibrateMask) (by decide +kernel) hm)
    | exact Has.cellNext (by decide) (Has.sub (a := State.kaCalibrateMask) (by decide +kernel) hm)
    | exact Has.ite (Has.sub (a := State.kaCalibrateMask) (by decide +kernel) hm) (Has.sub (a := State.kaCalibrateMask) (by decide +kernel) hm)
    | exact .inr (fun _ => rfl)
    | (intro _; rfl)
    | (intro _; simp; done)
    | (simp; assumption)
    | (refine .inr (fun _ => ?_); simp; done)
    | (refine .inr (fun _ => ?_); (repeat' split) <;> first | rfl | (simp; done))
    | (simp; done)

def State.timEdgeMask : Nat :=
  Part.tim.bit

theorem State.timEdge_touch {msk : Nat} {s0 : State} {s : State} (hk : Touch msk s0 s) (hm : Sub State.timEdgeMask msk) :
    Touch msk s0 (State.timEdge s) := by
  unfold State.timEdge
  try dsimp only
  repeat' (with_reducible first
    | assumption
    | exact Touch.refl
    | intro _
    | apply Touch.ite
    | (simp only [Touch.mk_iff]; apply TouchMk.intro)
    | split)
  all_goals with_reducible first
    | exact .inr rfl
    | exact Sub.trans (b := State.timEdgeMask) (by decide +kernel) hm
    | exact Has.sub (a := State.timEdgeMask) (by decide +kernel) hm
    | exact .inl (Has.sub (a := State.timEdgeMask) (by decide +kernel) hm)
    | exact Has.at (by decide) (Has.sub (a := State.timEdgeMask) (by decide +kernel) hm)
    | exact Has.cell (by decide) (Has.sub (a := State.timEdgeMask) (by decide +kernel) hm)
    | exact Has.cellNext (by decide) (Has.sub (a := State.timEdgeMask) (by decide +kernel) hm)
    | exact Has.ite (Has.sub (a := State.timEdgeMask) (by decide +kernel) hm) (Has.sub (a := State.timEdgeMask) (by decide +kernel) hm)
    | exact .inr (fun _ => rfl)
    | (intro _; rfl)
    | (intro _; simp; done)
    | (simp; assumption)
    | (refine .inr (fun _ => ?_); simp; done)
    | (refine .inr (fun _ => ?_); (repeat' split) <;> first | rfl | (simp; done))
    | (simp; done)

def State.keepLiveMask : Nat :=
  rbit R.KEEP_STAT

theorem State.keepLive_touch {msk : Nat} {s0 : State} {s : State} (hk : Touch msk s0 s) (hm : Sub State.keepLiveMask msk) :
    Touch msk s0 (State.keepLive s) := by
  unfold State.keepLive
  try dsimp only
  repeat' (with_reducible first
    | assumption
    | exact Touch.refl
    | intro _
    | apply State.setFld_touch
    | apply State.setFlag_touch
    | apply Touch.ite
    | split)
  all_goals with_reducible first
    | exact .inr rfl
    | exact Sub.trans (b := State.keepLiveMask) (by decide +kernel) hm
    | exact Has.sub (a := State.keepLiveMask) (by decide +kernel) hm
    | exact .inl (Has.sub (a := State.keepLiveMask) (by decide +kernel) hm)
    | exact Has.at (by decide) (Has.sub (a := State.keepLiveMask) (by decide +kernel) hm)
    | exact Has.cell (by decide) (Has.sub (a := State.keepLiveMask) (by decide +kernel) hm)
    | exact Has.cellNext (by decide) (Has.sub (a := State.keepLiveMask) (by decide +kernel) hm)
    | exact Has.ite (Has.sub (a := State.keepLiveMask) (by decide +kernel) hm) (Has.sub (a := State.keepLiveMask) (by decide +kernel) hm)
    | exact .inr (fun _ => rfl)
    | (intro _; rfl)
    | (intro _; simp; done)
    | (simp; assumption)
    | (refine .inr (fun _ => ?_); simp; done)
    | (refine .inr (fun _ => ?_); (repeat' split) <;> first | rfl | (simp; done))
    | (simp; done)

def State.thetaBenchMask : Nat :=
  State.modTimMask

theorem State.thetaBench_touch {msk : Nat} {s0 : State} {s : State} {bench : Nat} (hk : Touch msk s0 s) (hm : Sub State.thetaBenchMask msk) :
    Touch msk s0 (State.thetaBench s bench) := by
  unfold State.thetaBench
  try dsimp only
  repeat' (with_reducible first
    | assumption
    | exact Touch.refl
    | intro _
    | apply State.modTim_touch
    | apply Touch.ite
    | split)
  all_goals with_reducible first
    | exact .inr rfl
    | exact Sub.trans (b := State.thetaBenchMask) (by decide +kernel) hm
    | exact Has.sub (a := State.thetaBenchMask) (by decide +kernel) hm
    | exact .inl (Has.sub (a := State.thetaBenchMask) (by decide +kernel) hm)
    | exact Has.at (by decide) (Has.sub (a := State.thetaBenchMask) (by decide +kernel) hm)
    | exact Has.cell (by decide) (Has.sub (a := State.thetaBenchMask) (by decide +kernel) hm)
    | exact Has.cellNext (by decide) (Has.sub (a := State.thetaBenchMask) (by decide +kernel) hm)
    | exact Has.ite (Has.sub (a := State.thetaBenchMask) (by decide +kernel) hm) (Has.sub (a := State.thetaBenchMask) (by decide +kernel) hm)
    | exact .inr (fun _ => rfl)
    | (intro _; rfl)
    | (intro _; simp; done)
    | (simp; assumption)
    | (refine .inr (fun _ => ?_); simp; done)
    | (refine .inr (fun _ => ?_); (repeat' split) <;> first | rfl | (simp; done))
    | (simp; done)

def State.readTimSecMask : Nat :=
  State.modPathMask

theorem State.readTimSec_touch {msk : Nat} {s0 : State} {s : State} {p : Path} (hk : Touch msk s0 s) (hm : Sub State.readTimSecMask msk) :
    Touch msk s0 (State.readTimSec s p) := by
  unfold State.readTimSec
  try dsimp only
  repeat' (with_reducible first
    | assumption
    | exact Touch.refl
    | intro _
    | apply State.modPath_touch)
  all_goals with_reducible first
    | exact .inr rfl
    | exact Sub.trans (b := State.readTimSecMask) (by decide +kernel) hm
    | exact Has.sub (a := State.readTimSecMask) (by decide +kernel) hm
    | exact .inl (Has.sub (a := State.readTimSecMask) (by decide +kernel) hm)
    | exact Has.at (by decide) (Has.sub (a := State.readTimSecMask) (by decide +kernel) hm)
    | exact Has.cell (by decide) (Has.sub (a := State.readTimSecMask) (by decide +kernel) hm)
    | exact Has.cellNext (by decide) (Has.sub (a := State.readTimSecMask) (by decide +kernel) hm)
    | exact Has.ite (Has.sub (a := State.readTimSecMask) (by decide +kernel) hm) (Has.sub (a := State.readTimSecMask) (by decide +kernel) hm)
    | exact .inr (fun _ => rfl)
    | (intro _; rfl)
    | (intro _; simp; done)
    | (simp; assumption)
    | (refine .inr (fun _ => ?_); simp; done)
    | (refine .inr (fun _ => ?_); (repeat' split) <;> first | rfl | (simp; done))
    | (simp; done)

end Sys2Proof.Machine
end

