-- ==== Sys2Proof/Laws/TouchPwm.lean ====
section
/-! SUPPORT. What each operation of Machine/Pwm.lean may change: its mask, and the proof that it changes nothing else. -/

namespace Sys2Proof.Machine

set_option linter.unusedSimpArgs false
set_option Elab.async false

theorem shadowKey_has {msk n : Nat} {q : ShadowReg} (h0 : Has msk (R.PWM_PER / 64)) (h1 : Has msk (R.PWM_CMPA / 64))
    (h2 : Has msk (R.PWM_CMPB / 64)) (h3 : Has msk (R.PWM_FINE / 64)) : Has msk (cell (shadowKey q) n / 64) := by
  cases q
  · exact Has.cell (by decide) h0
  · exact Has.cell (by decide) h1
  · exact Has.cell (by decide) h2
  · exact Has.cell (by decide) h3


def State.pwmStickMask : Nat :=
  State.stickMask ||| rbit R.PWM_STAT

theorem State.pwmStick_touch {msk : Nat} {s0 : State} {s : State} {n : Nat} {f : Fld} (hk : Touch msk s0 s) (hm : Sub State.pwmStickMask msk) :
    Touch msk s0 (State.pwmStick s n f) := by
  unfold State.pwmStick
  try dsimp only
  repeat' (with_reducible first
    | assumption
    | exact Touch.refl
    | intro _
    | apply State.stick_touch)
  all_goals with_reducible first
    | exact .inr rfl
    | exact Sub.trans (b := State.pwmStickMask) (by decide +kernel) hm
    | exact Has.sub (a := State.pwmStickMask) (by decide +kernel) hm
    | exact .inl (Has.sub (a := State.pwmStickMask) (by decide +kernel) hm)
    | exact Has.at (by decide) (Has.sub (a := State.pwmStickMask) (by decide +kernel) hm)
    | exact Has.cell (by decide) (Has.sub (a := State.pwmStickMask) (by decide +kernel) hm)
    | exact Has.cellNext (by decide) (Has.sub (a := State.pwmStickMask) (by decide +kernel) hm)
    | exact Has.ite (Has.sub (a := State.pwmStickMask) (by decide +kernel) hm) (Has.sub (a := State.pwmStickMask) (by decide +kernel) hm)
    | exact .inr (fun _ => rfl)
    | (intro _; rfl)
    | (intro _; simp; done)
    | (simp; assumption)
    | (refine .inr (fun _ => ?_); simp; done)
    | (refine .inr (fun _ => ?_); (repeat' split) <;> first | rfl | (simp; done))
    | (simp; done)

def State.pwmEdgeMask : Nat :=
  Part.pwm.bit

theorem State.pwmEdge_touch {msk : Nat} {s0 : State} {s : State} {n : Nat} (hk : Touch msk s0 s) (hm : Sub State.pwmEdgeMask msk) :
    Touch msk s0 (State.pwmEdge s n) := by
  unfold State.pwmEdge
  try dsimp only
  repeat' (with_reducible first
    | assumption
    | exact Touch.refl
    | intro _
    | apply Touch.modChan
    | apply Touch.ite
    | split)
  all_goals with_reducible first
    | exact .inr rfl
    | exact Sub.trans (b := State.pwmEdgeMask) (by decide +kernel) hm
    | exact Has.sub (a := State.pwmEdgeMask) (by decide +kernel) hm
    | exact .inl (Has.sub (a := State.pwmEdgeMask) (by decide +kernel) hm)
    | exact Has.at (by decide) (Has.sub (a := State.pwmEdgeMask) (by decide +kernel) hm)
    | exact Has.cell (by decide) (Has.sub (a := State.pwmEdgeMask) (by decide +kernel) hm)
    | exact Has.cellNext (by decide) (Has.sub (a := State.pwmEdgeMask) (by decide +kernel) hm)
    | exact Has.ite (Has.sub (a := State.pwmEdgeMask) (by decide +kernel) hm) (Has.sub (a := State.pwmEdgeMask) (by decide +kernel) hm)
    | exact .inr (fun _ => rfl)
    | (intro _; rfl)
    | (intro _; simp; done)
    | (simp; assumption)
    | (refine .inr (fun _ => ?_); simp; done)
    | (refine .inr (fun _ => ?_); (repeat' split) <;> first | rfl | (simp; done))
    | (simp; done)

def State.hltPeriodBeginMask : Nat :=
  Part.hlt.bit

theorem State.hltPeriodBegin_touch {msk : Nat} {s0 : State} {s : State} {n : Nat} (hk : Touch msk s0 s) (hm : Sub State.hltPeriodBeginMask msk) :
    Touch msk s0 (State.hltPeriodBegin s n) := by
  unfold State.hltPeriodBegin
  try dsimp only
  repeat' (with_reducible first
    | assumption
    | exact Touch.refl
    | intro _
    | apply Touch.modHchan
    | apply Touch.ite
    | split)
  all_goals with_reducible first
    | exact .inr rfl
    | exact Sub.trans (b := State.hltPeriodBeginMask) (by decide +kernel) hm
    | exact Has.sub (a := State.hltPeriodBeginMask) (by decide +kernel) hm
    | exact .inl (Has.sub (a := State.hltPeriodBeginMask) (by decide +kernel) hm)
    | exact Has.at (by decide) (Has.sub (a := State.hltPeriodBeginMask) (by decide +kernel) hm)
    | exact Has.cell (by decide) (Has.sub (a := State.hltPeriodBeginMask) (by decide +kernel) hm)
    | exact Has.cellNext (by decide) (Has.sub (a := State.hltPeriodBeginMask) (by decide +kernel) hm)
    | exact Has.ite (Has.sub (a := State.hltPeriodBeginMask) (by decide +kernel) hm) (Has.sub (a := State.hltPeriodBeginMask) (by decide +kernel) hm)
    | exact .inr (fun _ => rfl)
    | (intro _; rfl)
    | (intro _; simp; done)
    | (simp; assumption)
    | (refine .inr (fun _ => ?_); simp; done)
    | (refine .inr (fun _ => ?_); (repeat' split) <;> first | rfl | (simp; done))
    | (simp; done)

def State.softStartMask : Nat :=
  rbit R.CUR_CSTAT ||| Part.pwm.bit

theorem State.softStart_touch {msk : Nat} {s0 : State} {s : State} {n : Nat} (hk : Touch msk s0 s) (hm : Sub State.softStartMask msk) :
    Touch msk s0 (State.softStart s n) := by
  unfold State.softStart
  try dsimp only
  repeat' (with_reducible first
    | assumption
    | exact Touch.refl
    | intro _
    | apply Touch.modChan
    | apply State.setFlag_touch)
  all_goals with_reducible first
    | exact .inr rfl
    | exact Sub.trans (b := State.softStartMask) (by decide +kernel) hm
    | exact Has.sub (a := State.softStartMask) (by decide +kernel) hm
    | exact .inl (Has.sub (a := State.softStartMask) (by decide +kernel) hm)
    | exact Has.at (by decide) (Has.sub (a := State.softStartMask) (by decide +kernel) hm)
    | exact Has.cell (by decide) (Has.sub (a := State.softStartMask) (by decide +kernel) hm)
    | exact Has.cellNext (by decide) (Has.sub (a := State.softStartMask) (by decide +kernel) hm)
    | exact Has.ite (Has.sub (a := State.softStartMask) (by decide +kernel) hm) (Has.sub (a := State.softStartMask) (by decide +kernel) hm)
    | exact .inr (fun _ => rfl)
    | (intro _; rfl)
    | (intro _; simp; done)
    | (simp; assumption)
    | (refine .inr (fun _ => ?_); simp; done)
    | (refine .inr (fun _ => ?_); (repeat' split) <;> first | rfl | (simp; done))
    | (simp; done)

def State.chanEventMask : Nat :=
  State.pulseMask

theorem State.chanEvent_touch {msk : Nat} {s0 : State} {s : State} {n : Nat} {en : Fld} {base : Nat} (hk : Touch msk s0 s) (hm : Sub State.chanEventMask msk) :
    Touch msk s0 (State.chanEvent s n en base) := by
  unfold State.chanEvent
  try dsimp only
  repeat' (with_reducible first
    | assumption
    | exact Touch.refl
    | intro _
    | apply State.pulse_touch
    | apply Touch.ite
    | split)
  all_goals with_reducible first
    | exact .inr rfl
    | exact Sub.trans (b := State.chanEventMask) (by decide +kernel) hm
    | exact Has.sub (a := State.chanEventMask) (by decide +kernel) hm
    | exact .inl (Has.sub (a := State.chanEventMask) (by decide +kernel) hm)
    | exact Has.at (by decide) (Has.sub (a := State.chanEventMask) (by decide +kernel) hm)
    | exact Has.cell (by decide) (Has.sub (a := State.chanEventMask) (by decide +kernel) hm)
    | exact Has.cellNext (by decide) (Has.sub (a := State.chanEventMask) (by decide +kernel) hm)
    | exact Has.ite (Has.sub (a := State.chanEventMask) (by decide +kernel) hm) (Has.sub (a := State.chanEventMask) (by decide +kernel) hm)
    | exact .inr (fun _ => rfl)
    | (intro _; rfl)
    | (intro _; simp; done)
    | (simp; assumption)
    | (refine .inr (fun _ => ?_); simp; done)
    | (refine .inr (fun _ => ?_); (repeat' split) <;> first | rfl | (simp; done))
    | (simp; done)

def State.zeroEventMask : Nat :=
  State.chanEventMask ||| Part.pwm.bit

theorem State.zeroEvent_touch {msk : Nat} {s0 : State} {s : State} {n : Nat} (hk : Touch msk s0 s) (hm : Sub State.zeroEventMask msk) :
    Touch msk s0 (State.zeroEvent s n) := by
  unfold State.zeroEvent
  try dsimp only
  repeat' (with_reducible first
    | assumption
    | exact Touch.refl
    | intro _
    | apply Touch.modChan
    | apply Touch.modPwm
    | apply State.chanEvent_touch
    | apply Touch.ite
    | split)
  all_goals with_reducible first
    | exact .inr rfl
    | exact Sub.trans (b := State.zeroEventMask) (by decide +kernel) hm
    | exact Has.sub (a := State.zeroEventMask) (by decide +kernel) hm
    | exact .inl (Has.sub (a := State.zeroEventMask) (by decide +kernel) hm)
    | exact Has.at (by decide) (Has.sub (a := State.zeroEventMask) (by decide +kernel) hm)
    | exact Has.cell (by decide) (Has.sub (a := State.zeroEventMask) (by decide +kernel) hm)
    | exact Has.cellNext (by decide) (Has.sub (a := State.zeroEventMask) (by decide +kernel) hm)
    | exact Has.ite (Has.sub (a := State.zeroEventMask) (by decide +kernel) hm) (Has.sub (a := State.zeroEventMask) (by decide +kernel) hm)
    | exact .inr (fun _ => rfl)
    | (intro _; rfl)
    | (intro _; simp; done)
    | (simp; assumption)
    | (refine .inr (fun _ => ?_); simp; done)
    | (refine .inr (fun _ => ?_); (repeat' split) <;> first | rfl | (simp; done))
    | (simp; done)

def State.lgRiseMask : Nat :=
  rbit R.PWM_DTMEAS ||| Part.pwm.bit

theorem State.lgRise_touch {msk : Nat} {s0 : State} {s : State} {n : Nat} {t : Nat} {cap : Option Nat} (hk : Touch msk s0 s) (hm : Sub State.lgRiseMask msk) :
    Touch msk s0 (State.lgRise s n t cap) := by
  unfold State.lgRise
  try dsimp only
  repeat' (with_reducible first
    | assumption
    | exact Touch.refl
    | intro _
    | apply Touch.modChan
    | apply State.setFld_touch)
  all_goals with_reducible first
    | exact .inr rfl
    | exact Sub.trans (b := State.lgRiseMask) (by decide +kernel) hm
    | exact Has.sub (a := State.lgRiseMask) (by decide +kernel) hm
    | exact .inl (Has.sub (a := State.lgRiseMask) (by decide +kernel) hm)
    | exact Has.at (by decide) (Has.sub (a := State.lgRiseMask) (by decide +kernel) hm)
    | exact Has.cell (by decide) (Has.sub (a := State.lgRiseMask) (by decide +kernel) hm)
    | exact Has.cellNext (by decide) (Has.sub (a := State.lgRiseMask) (by decide +kernel) hm)
    | exact Has.ite (Has.sub (a := State.lgRiseMask) (by decide +kernel) hm) (Has.sub (a := State.lgRiseMask) (by decide +kernel) hm)
    | exact .inr (fun _ => rfl)
    | (intro _; rfl)
    | (intro _; simp; done)
    | (simp; assumption)
    | (refine .inr (fun _ => ?_); simp; done)
    | (refine .inr (fun _ => ?_); (repeat' split) <;> first | rfl | (simp; done))
    | (simp; done)

def State.hgRiseMask : Nat :=
  rbit R.PWM_DTMEAS ||| Part.pwm.bit

theorem State.hgRise_touch {msk : Nat} {s0 : State} {s : State} {n : Nat} {t : Nat} {cap : Option Nat} (hk : Touch msk s0 s) (hm : Sub State.hgRiseMask msk) :
    Touch msk s0 (State.hgRise s n t cap) := by
  unfold State.hgRise
  try dsimp only
  repeat' (with_reducible first
    | assumption
    | exact Touch.refl
    | intro _
    | apply Touch.modChan
    | apply State.setFld_touch
    | apply Touch.ite
    | split)
  all_goals with_reducible first
    | exact .inr rfl
    | exact Sub.trans (b := State.hgRiseMask) (by decide +kernel) hm
    | exact Has.sub (a := State.hgRiseMask) (by decide +kernel) hm
    | exact .inl (Has.sub (a := State.hgRiseMask) (by decide +kernel) hm)
    | exact Has.at (by decide) (Has.sub (a := State.hgRiseMask) (by decide +kernel) hm)
    | exact Has.cell (by decide) (Has.sub (a := State.hgRiseMask) (by decide +kernel) hm)
    | exact Has.cellNext (by decide) (Has.sub (a := State.hgRiseMask) (by decide +kernel) hm)
    | exact Has.ite (Has.sub (a := State.hgRiseMask) (by decide +kernel) hm) (Has.sub (a := State.hgRiseMask) (by decide +kernel) hm)
    | exact .inr (fun _ => rfl)
    | (intro _; rfl)
    | (intro _; simp; done)
    | (simp; assumption)
    | (refine .inr (fun _ => ?_); simp; done)
    | (refine .inr (fun _ => ?_); (repeat' split) <;> first | rfl | (simp; done))
    | (simp; done)

def State.hgForgoMask : Nat :=
  Part.pwm.bit

theorem State.hgForgo_touch {msk : Nat} {s0 : State} {s : State} {n : Nat} {t : Nat} (hk : Touch msk s0 s) (hm : Sub State.hgForgoMask msk) :
    Touch msk s0 (State.hgForgo s n t) := by
  unfold State.hgForgo
  try dsimp only
  repeat' (with_reducible first
    | assumption
    | exact Touch.refl
    | intro _
    | apply Touch.modChan)
  all_goals with_reducible first
    | exact .inr rfl
    | exact Sub.trans (b := State.hgForgoMask) (by decide +kernel) hm
    | exact Has.sub (a := State.hgForgoMask) (by decide +kernel) hm
    | exact .inl (Has.sub (a := State.hgForgoMask) (by decide +kernel) hm)
    | exact Has.at (by decide) (Has.sub (a := State.hgForgoMask) (by decide +kernel) hm)
    | exact Has.cell (by decide) (Has.sub (a := State.hgForgoMask) (by decide +kernel) hm)
    | exact Has.cellNext (by decide) (Has.sub (a := State.hgForgoMask) (by decide +kernel) hm)
    | exact Has.ite (Has.sub (a := State.hgForgoMask) (by decide +kernel) hm) (Has.sub (a := State.hgForgoMask) (by decide +kernel) hm)
    | exact .inr (fun _ => rfl)
    | (intro _; rfl)
    | (intro _; simp; done)
    | (simp; assumption)
    | (refine .inr (fun _ => ?_); simp; done)
    | (refine .inr (fun _ => ?_); (repeat' split) <;> first | rfl | (simp; done))
    | (simp; done)

def State.hgMeetMask : Nat :=
  State.hgRiseMask ||| State.hgForgoMask

theorem State.hgMeet_touch {msk : Nat} {s0 : State} {s : State} {n : Nat} {t : Nat} {cap : Option Nat} (hk : Touch msk s0 s) (hm : Sub State.hgMeetMask msk) :
    Touch msk s0 (State.hgMeet s n t cap) := by
  unfold State.hgMeet
  try dsimp only
  repeat' (with_reducible first
    | assumption
    | exact Touch.refl
    | intro _
    | apply State.hgRise_touch
    | apply State.hgForgo_touch
    | apply Touch.ite
    | split)
  all_goals with_reducible first
    | exact .inr rfl
    | exact Sub.trans (b := State.hgMeetMask) (by decide +kernel) hm
    | exact Has.sub (a := State.hgMeetMask) (by decide +kernel) hm
    | exact .inl (Has.sub (a := State.hgMeetMask) (by decide +kernel) hm)
    | exact Has.at (by decide) (Has.sub (a := State.hgMeetMask) (by decide +kernel) hm)
    | exact Has.cell (by decide) (Has.sub (a := State.hgMeetMask) (by decide +kernel) hm)
    | exact Has.cellNext (by decide) (Has.sub (a := State.hgMeetMask) (by decide +kernel) hm)
    | exact Has.ite (Has.sub (a := State.hgMeetMask) (by decide +kernel) hm) (Has.sub (a := State.hgMeetMask) (by decide +kernel) hm)
    | exact .inr (fun _ => rfl)
    | (intro _; rfl)
    | (intro _; simp; done)
    | (simp; assumption)
    | (refine .inr (fun _ => ?_); simp; done)
    | (refine .inr (fun _ => ?_); (repeat' split) <;> first | rfl | (simp; done))
    | (simp; done)

def State.shadowLoadMask : Nat :=
  State.pwmStickMask ||| rbit R.PWM_STAT ||| Part.pwm.bit

theorem State.shadowLoad_touch {msk : Nat} {s0 : State} {s : State} {n : Nat} (hk : Touch msk s0 s) (hm : Sub State.shadowLoadMask msk) :
    Touch msk s0 (State.shadowLoad s n) := by
  unfold State.shadowLoad
  try dsimp only
  repeat' (with_reducible first
    | assumption
    | exact Touch.refl
    | intro _
    | apply Touch.modChan
    | apply State.pwmStick_touch
    | apply State.setFlag_touch
    | apply Touch.ite
    | split)
  all_goals with_reducible first
    | exact .inr rfl
    | exact Sub.trans (b := State.shadowLoadMask) (by decide +kernel) hm
    | exact Has.sub (a := State.shadowLoadMask) (by decide +kernel) hm
    | exact .inl (Has.sub (a := State.shadowLoadMask) (by decide +kernel) hm)
    | exact Has.at (by decide) (Has.sub (a := State.shadowLoadMask) (by decide +kernel) hm)
    | exact Has.cell (by decide) (Has.sub (a := State.shadowLoadMask) (by decide +kernel) hm)
    | exact Has.cellNext (by decide) (Has.sub (a := State.shadowLoadMask) (by decide +kernel) hm)
    | exact Has.ite (Has.sub (a := State.shadowLoadMask) (by decide +kernel) hm) (Has.sub (a := State.shadowLoadMask) (by decide +kernel) hm)
    | exact .inr (fun _ => rfl)
    | (intro _; rfl)
    | (intro _; simp; done)
    | (simp; assumption)
    | (refine .inr (fun _ => ?_); simp; done)
    | (refine .inr (fun _ => ?_); (repeat' split) <;> first | rfl | (simp; done))
    | (simp; done)

def State.shadowWriteMask : Nat :=
  State.shadowLoadMask ||| rbit R.PWM_PER ||| rbit R.PWM_CMPA ||| rbit R.PWM_CMPB ||| rbit R.PWM_FINE ||| rbit
    R.PWM_STAT

theorem State.shadowWrite_touch {msk : Nat} {s0 : State} {s : State} {n : Nat} {q : ShadowReg} {v : Word} (hk : Touch msk s0 s) (hm : Sub State.shadowWriteMask msk) :
    Touch msk s0 (State.shadowWrite s n q v) := by
  unfold State.shadowWrite
  try dsimp only
  repeat' (with_reducible first
    | assumption
    | exact Touch.refl
    | intro _
    | apply Touch.setReg
    | apply State.shadowLoad_touch
    | apply State.setFlag_touch
    | apply Touch.ite
    | apply Touch.setReg
    | split)
  all_goals with_reducible first
    | exact shadowKey_has (Has.sub (a := State.shadowWriteMask) (by decide +kernel) hm) (Has.sub (a := State.shadowWriteMask) (by decide +kernel) hm) (Has.sub (a := State.shadowWriteMask) (by decide +kernel) hm) (Has.sub (a := State.shadowWriteMask) (by decide +kernel) hm)
    | exact .inr rfl
    | exact Sub.trans (b := State.shadowWriteMask) (by decide +kernel) hm
    | exact Has.sub (a := State.shadowWriteMask) (by decide +kernel) hm
    | exact .inl (Has.sub (a := State.shadowWriteMask) (by decide +kernel) hm)
    | exact Has.at (by decide) (Has.sub (a := State.shadowWriteMask) (by decide +kernel) hm)
    | exact Has.cell (by decide) (Has.sub (a := State.shadowWriteMask) (by decide +kernel) hm)
    | exact Has.cellNext (by decide) (Has.sub (a := State.shadowWriteMask) (by decide +kernel) hm)
    | exact Has.ite (Has.sub (a := State.shadowWriteMask) (by decide +kernel) hm) (Has.sub (a := State.shadowWriteMask) (by decide +kernel) hm)
    | exact .inr (fun _ => rfl)
    | (intro _; rfl)
    | (intro _; simp; done)
    | (simp; assumption)
    | (refine .inr (fun _ => ?_); simp; done)
    | (refine .inr (fun _ => ?_); (repeat' split) <;> first | rfl | (simp; done))
    | (simp; done)

def State.forceTakeMask : Nat :=
  Part.pwm.bit

theorem State.forceTake_touch {msk : Nat} {s0 : State} {s : State} {n : Nat} {h : Nat} {l : Nat} (hk : Touch msk s0 s) (hm : Sub State.forceTakeMask msk) :
    Touch msk s0 (State.forceTake s n h l) := by
  unfold State.forceTake
  try dsimp only
  repeat' (with_reducible first
    | assumption
    | exact Touch.refl
    | intro _
    | apply Touch.modChan
    | apply Touch.ite
    | split)
  all_goals with_reducible first
    | exact .inr rfl
    | exact Sub.trans (b := State.forceTakeMask) (by decide +kernel) hm
    | exact Has.sub (a := State.forceTakeMask) (by decide +kernel) hm
    | exact .inl (Has.sub (a := State.forceTakeMask) (by decide +kernel) hm)
    | exact Has.at (by decide) (Has.sub (a := State.forceTakeMask) (by decide +kernel) hm)
    | exact Has.cell (by decide) (Has.sub (a := State.forceTakeMask) (by decide +kernel) hm)
    | exact Has.cellNext (by decide) (Has.sub (a := State.forceTakeMask) (by decide +kernel) hm)
    | exact Has.ite (Has.sub (a := State.forceTakeMask) (by decide +kernel) hm) (Has.sub (a := State.forceTakeMask) (by decide +kernel) hm)
    | exact .inr (fun _ => rfl)
    | (intro _; rfl)
    | (intro _; simp; done)
    | (simp; assumption)
    | (refine .inr (fun _ => ?_); simp; done)
    | (refine .inr (fun _ => ?_); (repeat' split) <;> first | rfl | (simp; done))
    | (simp; done)

def State.forceAgainMask : Nat :=
  State.forceTakeMask ||| Part.pwm.bit

theorem State.forceAgain_touch {msk : Nat} {s0 : State} {s : State} {n : Nat} (hk : Touch msk s0 s) (hm : Sub State.forceAgainMask msk) :
    Touch msk s0 (State.forceAgain s n) := by
  unfold State.forceAgain
  try dsimp only
  repeat' (with_reducible first
    | assumption
    | exact Touch.refl
    | intro _
    | apply Touch.modChan
    | apply State.forceTake_touch
    | apply Touch.ite
    | split)
  all_goals with_reducible first
    | exact .inr rfl
    | exact Sub.trans (b := State.forceAgainMask) (by decide +kernel) hm
    | exact Has.sub (a := State.forceAgainMask) (by decide +kernel) hm
    | exact .inl (Has.sub (a := State.forceAgainMask) (by decide +kernel) hm)
    | exact Has.at (by decide) (Has.sub (a := State.forceAgainMask) (by decide +kernel) hm)
    | exact Has.cell (by decide) (Has.sub (a := State.forceAgainMask) (by decide +kernel) hm)
    | exact Has.cellNext (by decide) (Has.sub (a := State.forceAgainMask) (by decide +kernel) hm)
    | exact Has.ite (Has.sub (a := State.forceAgainMask) (by decide +kernel) hm) (Has.sub (a := State.forceAgainMask) (by decide +kernel) hm)
    | exact .inr (fun _ => rfl)
    | (intro _; rfl)
    | (intro _; simp; done)
    | (simp; assumption)
    | (refine .inr (fun _ => ?_); simp; done)
    | (refine .inr (fun _ => ?_); (repeat' split) <;> first | rfl | (simp; done))
    | (simp; done)

def State.periodEndMask : Nat :=
  Part.pwm.bit

theorem State.periodEnd_touch {msk : Nat} {s0 : State} {s : State} {n : Nat} (hk : Touch msk s0 s) (hm : Sub State.periodEndMask msk) :
    Touch msk s0 (State.periodEnd s n) := by
  unfold State.periodEnd
  try dsimp only
  repeat' (with_reducible first
    | assumption
    | exact Touch.refl
    | intro _
    | apply Touch.modChan
    | apply Touch.ite
    | split)
  all_goals with_reducible first
    | exact .inr rfl
    | exact Sub.trans (b := State.periodEndMask) (by decide +kernel) hm
    | exact Has.sub (a := State.periodEndMask) (by decide +kernel) hm
    | exact .inl (Has.sub (a := State.periodEndMask) (by decide +kernel) hm)
    | exact Has.at (by decide) (Has.sub (a := State.periodEndMask) (by decide +kernel) hm)
    | exact Has.cell (by decide) (Has.sub (a := State.periodEndMask) (by decide +kernel) hm)
    | exact Has.cellNext (by decide) (Has.sub (a := State.periodEndMask) (by decide +kernel) hm)
    | exact Has.ite (Has.sub (a := State.periodEndMask) (by decide +kernel) hm) (Has.sub (a := State.periodEndMask) (by decide +kernel) hm)
    | exact .inr (fun _ => rfl)
    | (intro _; rfl)
    | (intro _; simp; done)
    | (simp; assumption)
    | (refine .inr (fun _ => ?_); simp; done)
    | (refine .inr (fun _ => ?_); (repeat' split) <;> first | rfl | (simp; done))
    | (simp; done)

def State.zeroLoadMask : Nat :=
  State.shadowLoadMask ||| Part.pwm.bit

theorem State.zeroLoad_touch {msk : Nat} {s0 : State} {s : State} {n : Nat} {edge : Bool} (hk : Touch msk s0 s) (hm : Sub State.zeroLoadMask msk) :
    Touch msk s0 (State.zeroLoad s n edge) := by
  unfold State.zeroLoad
  try dsimp only
  repeat' (with_reducible first
    | assumption
    | exact Touch.refl
    | intro _
    | apply Touch.modChan
    | apply State.shadowLoad_touch
    | (refine Touch.ofEq (by assumption) ?_)
    | apply Touch.ite
    | split)
  all_goals with_reducible first
    | exact .inr rfl
    | exact Sub.trans (b := State.zeroLoadMask) (by decide +kernel) hm
    | exact Has.sub (a := State.zeroLoadMask) (by decide +kernel) hm
    | exact .inl (Has.sub (a := State.zeroLoadMask) (by decide +kernel) hm)
    | exact Has.at (by decide) (Has.sub (a := State.zeroLoadMask) (by decide +kernel) hm)
    | exact Has.cell (by decide) (Has.sub (a := State.zeroLoadMask) (by decide +kernel) hm)
    | exact Has.cellNext (by decide) (Has.sub (a := State.zeroLoadMask) (by decide +kernel) hm)
    | exact Has.ite (Has.sub (a := State.zeroLoadMask) (by decide +kernel) hm) (Has.sub (a := State.zeroLoadMask) (by decide +kernel) hm)
    | exact .inr (fun _ => rfl)
    | (intro _; rfl)
    | (intro _; simp; done)
    | (simp; assumption)
    | (refine .inr (fun _ => ?_); simp; done)
    | (refine .inr (fun _ => ?_); (repeat' split) <;> first | rfl | (simp; done))
    | (simp; done)

def State.zeroRestartMask : Nat :=
  State.softStartMask ||| Part.pwm.bit

theorem State.zeroRestart_touch {msk : Nat} {s0 : State} {s : State} {n : Nat} (hk : Touch msk s0 s) (hm : Sub State.zeroRestartMask msk) :
    Touch msk s0 (State.zeroRestart s n) := by
  unfold State.zeroRestart
  try dsimp only
  repeat' (with_reducible first
    | assumption
    | exact Touch.refl
    | intro _
    | apply Touch.modChan
    | apply State.softStart_touch
    | apply Touch.ite
    | split)
  all_goals with_reducible first
    | exact .inr rfl
    | exact Sub.trans (b := State.zeroRestartMask) (by decide +kernel) hm
    | exact Has.sub (a := State.zeroRestartMask) (by decide +kernel) hm
    | exact .inl (Has.sub (a := State.zeroRestartMask) (by decide +kernel) hm)
    | exact Has.at (by decide) (Has.sub (a := State.zeroRestartMask) (by decide +kernel) hm)
    | exact Has.cell (by decide) (Has.sub (a := State.zeroRestartMask) (by decide +kernel) hm)
    | exact Has.cellNext (by decide) (Has.sub (a := State.zeroRestartMask) (by decide +kernel) hm)
    | exact Has.ite (Has.sub (a := State.zeroRestartMask) (by decide +kernel) hm) (Has.sub (a := State.zeroRestartMask) (by decide +kernel) hm)
    | exact .inr (fun _ => rfl)
    | (intro _; rfl)
    | (intro _; simp; done)
    | (simp; assumption)
    | (refine .inr (fun _ => ?_); simp; done)
    | (refine .inr (fun _ => ?_); (repeat' split) <;> first | rfl | (simp; done))
    | (simp; done)

def State.zeroGateMask : Nat :=
  rbit R.PWM_STAT ||| Part.pwm.bit

theorem State.zeroGate_touch {msk : Nat} {s0 : State} {s : State} {n : Nat} (hk : Touch msk s0 s) (hm : Sub State.zeroGateMask msk) :
    Touch msk s0 (State.zeroGate s n) := by
  unfold State.zeroGate
  try dsimp only
  repeat' (with_reducible first
    | assumption
    | exact Touch.refl
    | intro _
    | apply Touch.modChan
    | apply State.setFlag_touch
    | (refine Touch.ofEq (by assumption) ?_)
    | apply Touch.ite
    | split)
  all_goals with_reducible first
    | exact .inr rfl
    | exact Sub.trans (b := State.zeroGateMask) (by decide +kernel) hm
    | exact Has.sub (a := State.zeroGateMask) (by decide +kernel) hm
    | exact .inl (Has.sub (a := State.zeroGateMask) (by decide +kernel) hm)
    | exact Has.at (by decide) (Has.sub (a := State.zeroGateMask) (by decide +kernel) hm)
    | exact Has.cell (by decide) (Has.sub (a := State.zeroGateMask) (by decide +kernel) hm)
    | exact Has.cellNext (by decide) (Has.sub (a := State.zeroGateMask) (by decide +kernel) hm)
    | exact Has.ite (Has.sub (a := State.zeroGateMask) (by decide +kernel) hm) (Has.sub (a := State.zeroGateMask) (by decide +kernel) hm)
    | exact .inr (fun _ => rfl)
    | (intro _; rfl)
    | (intro _; simp; done)
    | (simp; assumption)
    | (refine .inr (fun _ => ?_); simp; done)
    | (refine .inr (fun _ => ?_); (repeat' split) <;> first | rfl | (simp; done))
    | (simp; done)

def State.zeroDriveMask : Nat :=
  Part.pwm.bit

theorem State.zeroDrive_touch {msk : Nat} {s0 : State} {s : State} {n : Nat} {bstLow : Bool} (hk : Touch msk s0 s) (hm : Sub State.zeroDriveMask msk) :
    Touch msk s0 (State.zeroDrive s n bstLow) := by
  unfold State.zeroDrive
  try dsimp only
  repeat' (with_reducible first
    | assumption
    | exact Touch.refl
    | intro _
    | apply Touch.modChan
    | apply Touch.ite
    | split)
  all_goals with_reducible first
    | exact .inr rfl
    | exact Sub.trans (b := State.zeroDriveMask) (by decide +kernel) hm
    | exact Has.sub (a := State.zeroDriveMask) (by decide +kernel) hm
    | exact .inl (Has.sub (a := State.zeroDriveMask) (by decide +kernel) hm)
    | exact Has.at (by decide) (Has.sub (a := State.zeroDriveMask) (by decide +kernel) hm)
    | exact Has.cell (by decide) (Has.sub (a := State.zeroDriveMask) (by decide +kernel) hm)
    | exact Has.cellNext (by decide) (Has.sub (a := State.zeroDriveMask) (by decide +kernel) hm)
    | exact Has.ite (Has.sub (a := State.zeroDriveMask) (by decide +kernel) hm) (Has.sub (a := State.zeroDriveMask) (by decide +kernel) hm)
    | exact .inr (fun _ => rfl)
    | (intro _; rfl)
    | (intro _; simp; done)
    | (simp; assumption)
    | (refine .inr (fun _ => ?_); simp; done)
    | (refine .inr (fun _ => ?_); (repeat' split) <;> first | rfl | (simp; done))
    | (simp; done)

def State.zeroCoreMask : Nat :=
  State.hltPeriodBeginMask ||| State.zeroEventMask ||| State.periodEndMask ||| State.zeroLoadMask |||
    State.zeroRestartMask ||| State.zeroGateMask ||| State.zeroDriveMask

theorem State.zeroCore_touch {msk : Nat} {s0 : State} {s : State} {n : Nat} {bstLow : Bool} {edge : Bool} (hk : Touch msk s0 s) (hm : Sub State.zeroCoreMask msk) :
    Touch msk s0 (State.zeroCore s n bstLow edge) := by
  unfold State.zeroCore
  try dsimp only
  repeat' (with_reducible first
    | assumption
    | exact Touch.refl
    | intro _
    | apply State.hltPeriodBegin_touch
    | apply State.zeroEvent_touch
    | apply State.periodEnd_touch
    | apply State.zeroLoad_touch
    | apply State.zeroRestart_touch
    | apply State.zeroGate_touch
    | apply State.zeroDrive_touch)
  all_goals with_reducible first
    | exact .inr rfl
    | exact Sub.trans (b := State.zeroCoreMask) (by decide +kernel) hm
    | exact Has.sub (a := State.zeroCoreMask) (by decide +kernel) hm
    | exact .inl (Has.sub (a := State.zeroCoreMask) (by decide +kernel) hm)
    | exact Has.at (by decide) (Has.sub (a := State.zeroCoreMask) (by decide +kernel) hm)
    | exact Has.cell (by decide) (Has.sub (a := State.zeroCoreMask) (by decide +kernel) hm)
    | exact Has.cellNext (by decide) (Has.sub (a := State.zeroCoreMask) (by decide +kernel) hm)
    | exact Has.ite (Has.sub (a := State.zeroCoreMask) (by decide +kernel) hm) (Has.sub (a := State.zeroCoreMask) (by decide +kernel) hm)
    | exact .inr (fun _ => rfl)
    | (intro _; rfl)
    | (intro _; simp; done)
    | (simp; assumption)
    | (refine .inr (fun _ => ?_); simp; done)
    | (refine .inr (fun _ => ?_); (repeat' split) <;> first | rfl | (simp; done))
    | (simp; done)

def State.chanStartMask : Nat :=
  State.softStartMask ||| State.forceAgainMask ||| State.zeroCoreMask ||| Part.pwm.bit

theorem State.chanStart_touch {msk : Nat} {s0 : State} {s : State} {n : Nat} (hk : Touch msk s0 s) (hm : Sub State.chanStartMask msk) :
    Touch msk s0 (State.chanStart s n) := by
  unfold State.chanStart
  try dsimp only
  repeat' (with_reducible first
    | assumption
    | exact Touch.refl
    | intro _
    | apply Touch.modChan
    | apply State.softStart_touch
    | apply State.forceAgain_touch
    | apply State.zeroCore_touch
    | apply Touch.ite
    | split)
  all_goals with_reducible first
    | exact .inr rfl
    | exact Sub.trans (b := State.chanStartMask) (by decide +kernel) hm
    | exact Has.sub (a := State.chanStartMask) (by decide +kernel) hm
    | exact .inl (Has.sub (a := State.chanStartMask) (by decide +kernel) hm)
    | exact Has.at (by decide) (Has.sub (a := State.chanStartMask) (by decide +kernel) hm)
    | exact Has.cell (by decide) (Has.sub (a := State.chanStartMask) (by decide +kernel) hm)
    | exact Has.cellNext (by decide) (Has.sub (a := State.chanStartMask) (by decide +kernel) hm)
    | exact Has.ite (Has.sub (a := State.chanStartMask) (by decide +kernel) hm) (Has.sub (a := State.chanStartMask) (by decide +kernel) hm)
    | exact .inr (fun _ => rfl)
    | (intro _; rfl)
    | (intro _; simp; done)
    | (simp; assumption)
    | (refine .inr (fun _ => ?_); simp; done)
    | (refine .inr (fun _ => ?_); (repeat' split) <;> first | rfl | (simp; done))
    | (simp; done)

def State.tryStartMask : Nat :=
  State.chanStartMask

theorem State.tryStart_touch {msk : Nat} {s0 : State} {s : State} {n : Nat} (hk : Touch msk s0 s) (hm : Sub State.tryStartMask msk) :
    Touch msk s0 (State.tryStart s n) := by
  unfold State.tryStart
  try dsimp only
  repeat' (with_reducible first
    | assumption
    | exact Touch.refl
    | intro _
    | apply State.chanStart_touch
    | apply Touch.ite
    | split)
  all_goals with_reducible first
    | exact .inr rfl
    | exact Sub.trans (b := State.tryStartMask) (by decide +kernel) hm
    | exact Has.sub (a := State.tryStartMask) (by decide +kernel) hm
    | exact .inl (Has.sub (a := State.tryStartMask) (by decide +kernel) hm)
    | exact Has.at (by decide) (Has.sub (a := State.tryStartMask) (by decide +kernel) hm)
    | exact Has.cell (by decide) (Has.sub (a := State.tryStartMask) (by decide +kernel) hm)
    | exact Has.cellNext (by decide) (Has.sub (a := State.tryStartMask) (by decide +kernel) hm)
    | exact Has.ite (Has.sub (a := State.tryStartMask) (by decide +kernel) hm) (Has.sub (a := State.tryStartMask) (by decide +kernel) hm)
    | exact .inr (fun _ => rfl)
    | (intro _; rfl)
    | (intro _; simp; done)
    | (simp; assumption)
    | (refine .inr (fun _ => ?_); simp; done)
    | (refine .inr (fun _ => ?_); (repeat' split) <;> first | rfl | (simp; done))
    | (simp; done)

def State.chanStopMask : Nat :=
  Part.pwm.bit

theorem State.chanStop_touch {msk : Nat} {s0 : State} {s : State} {n : Nat} (hk : Touch msk s0 s) (hm : Sub State.chanStopMask msk) :
    Touch msk s0 (State.chanStop s n) := by
  unfold State.chanStop
  try dsimp only
  repeat' (with_reducible first
    | assumption
    | exact Touch.refl
    | intro _
    | apply Touch.modChan)
  all_goals with_reducible first
    | exact .inr rfl
    | exact Sub.trans (b := State.chanStopMask) (by decide +kernel) hm
    | exact Has.sub (a := State.chanStopMask) (by decide +kernel) hm
    | exact .inl (Has.sub (a := State.chanStopMask) (by decide +kernel) hm)
    | exact Has.at (by decide) (Has.sub (a := State.chanStopMask) (by decide +kernel) hm)
    | exact Has.cell (by decide) (Has.sub (a := State.chanStopMask) (by decide +kernel) hm)
    | exact Has.cellNext (by decide) (Has.sub (a := State.chanStopMask) (by decide +kernel) hm)
    | exact Has.ite (Has.sub (a := State.chanStopMask) (by decide +kernel) hm) (Has.sub (a := State.chanStopMask) (by decide +kernel) hm)
    | exact .inr (fun _ => rfl)
    | (intro _; rfl)
    | (intro _; simp; done)
    | (simp; assumption)
    | (refine .inr (fun _ => ?_); simp; done)
    | (refine .inr (fun _ => ?_); (repeat' split) <;> first | rfl | (simp; done))
    | (simp; done)

def State.startAllMask : Nat :=
  State.chanStartMask

theorem State.startAll_touch {msk : Nat} {s0 : State} {s : State} (hk : Touch msk s0 s) (hm : Sub State.startAllMask msk) :
    Touch msk s0 (State.startAll s) := by
  unfold State.startAll
  try dsimp only
  repeat' (with_reducible first
    | assumption
    | exact Touch.refl
    | intro _
    | apply Touch.forChans
    | apply State.chanStart_touch
    | apply Touch.ite
    | split)
  all_goals with_reducible first
    | exact .inr rfl
    | exact Sub.trans (b := State.startAllMask) (by decide +kernel) hm
    | exact Has.sub (a := State.startAllMask) (by decide +kernel) hm
    | exact .inl (Has.sub (a := State.startAllMask) (by decide +kernel) hm)
    | exact Has.at (by decide) (Has.sub (a := State.startAllMask) (by decide +kernel) hm)
    | exact Has.cell (by decide) (Has.sub (a := State.startAllMask) (by decide +kernel) hm)
    | exact Has.cellNext (by decide) (Has.sub (a := State.startAllMask) (by decide +kernel) hm)
    | exact Has.ite (Has.sub (a := State.startAllMask) (by decide +kernel) hm) (Has.sub (a := State.startAllMask) (by decide +kernel) hm)
    | exact .inr (fun _ => rfl)
    | (intro _; rfl)
    | (intro _; simp; done)
    | (simp; assumption)
    | (refine .inr (fun _ => ?_); simp; done)
    | (refine .inr (fun _ => ?_); (repeat' split) <;> first | rfl | (simp; done))
    | (simp; done)

def State.stopAllMask : Nat :=
  State.chanStopMask

theorem State.stopAll_touch {msk : Nat} {s0 : State} {s : State} (hk : Touch msk s0 s) (hm : Sub State.stopAllMask msk) :
    Touch msk s0 (State.stopAll s) := by
  unfold State.stopAll
  try dsimp only
  repeat' (with_reducible first
    | assumption
    | exact Touch.refl
    | intro _
    | apply Touch.forChans
    | apply State.chanStop_touch)
  all_goals with_reducible first
    | exact .inr rfl
    | exact Sub.trans (b := State.stopAllMask) (by decide +kernel) hm
    | exact Has.sub (a := State.stopAllMask) (by decide +kernel) hm
    | exact .inl (Has.sub (a := State.stopAllMask) (by decide +kernel) hm)
    | exact Has.at (by decide) (Has.sub (a := State.stopAllMask) (by decide +kernel) hm)
    | exact Has.cell (by decide) (Has.sub (a := State.stopAllMask) (by decide +kernel) hm)
    | exact Has.cellNext (by decide) (Has.sub (a := State.stopAllMask) (by decide +kernel) hm)
    | exact Has.ite (Has.sub (a := State.stopAllMask) (by decide +kernel) hm) (Has.sub (a := State.stopAllMask) (by decide +kernel) hm)
    | exact .inr (fun _ => rfl)
    | (intro _; rfl)
    | (intro _; simp; done)
    | (simp; assumption)
    | (refine .inr (fun _ => ?_); simp; done)
    | (refine .inr (fun _ => ?_); (repeat' split) <;> first | rfl | (simp; done))
    | (simp; done)

def State.enaWriteMask : Nat :=
  State.softStartMask ||| State.tryStartMask ||| State.chanStopMask ||| rbit R.PWM_ENA

theorem State.enaWrite_touch {msk : Nat} {s0 : State} {s : State} {v : Word} (hk : Touch msk s0 s) (hm : Sub State.enaWriteMask msk) :
    Touch msk s0 (State.enaWrite s v) := by
  unfold State.enaWrite
  try dsimp only
  repeat' (with_reducible first
    | assumption
    | exact Touch.refl
    | intro _
    | apply Touch.setReg
    | apply Touch.forChans
    | apply State.softStart_touch
    | apply State.tryStart_touch
    | apply State.chanStop_touch
    | apply Touch.ite
    | apply Touch.setReg
    | split)
  all_goals with_reducible first
    | exact .inr rfl
    | exact Sub.trans (b := State.enaWriteMask) (by decide +kernel) hm
    | exact Has.sub (a := State.enaWriteMask) (by decide +kernel) hm
    | exact .inl (Has.sub (a := State.enaWriteMask) (by decide +kernel) hm)
    | exact Has.at (by decide) (Has.sub (a := State.enaWriteMask) (by decide +kernel) hm)
    | exact Has.cell (by decide) (Has.sub (a := State.enaWriteMask) (by decide +kernel) hm)
    | exact Has.cellNext (by decide) (Has.sub (a := State.enaWriteMask) (by decide +kernel) hm)
    | exact Has.ite (Has.sub (a := State.enaWriteMask) (by decide +kernel) hm) (Has.sub (a := State.enaWriteMask) (by decide +kernel) hm)
    | exact .inr (fun _ => rfl)
    | (intro _; rfl)
    | (intro _; simp; done)
    | (simp; assumption)
    | (refine .inr (fun _ => ?_); simp; done)
    | (refine .inr (fun _ => ?_); (repeat' split) <;> first | rfl | (simp; done))
    | (simp; done)

def State.midLoadMask : Nat :=
  State.shadowLoadMask ||| Part.pwm.bit

theorem State.midLoad_touch {msk : Nat} {s0 : State} {s : State} {n : Nat} (hk : Touch msk s0 s) (hm : Sub State.midLoadMask msk) :
    Touch msk s0 (State.midLoad s n) := by
  unfold State.midLoad
  try dsimp only
  repeat' (with_reducible first
    | assumption
    | exact Touch.refl
    | intro _
    | apply Touch.modChan
    | apply State.shadowLoad_touch
    | apply Touch.ite
    | split)
  all_goals with_reducible first
    | exact .inr rfl
    | exact Sub.trans (b := State.midLoadMask) (by decide +kernel) hm
    | exact Has.sub (a := State.midLoadMask) (by decide +kernel) hm
    | exact .inl (Has.sub (a := State.midLoadMask) (by decide +kernel) hm)
    | exact Has.at (by decide) (Has.sub (a := State.midLoadMask) (by decide +kernel) hm)
    | exact Has.cell (by decide) (Has.sub (a := State.midLoadMask) (by decide +kernel) hm)
    | exact Has.cellNext (by decide) (Has.sub (a := State.midLoadMask) (by decide +kernel) hm)
    | exact Has.ite (Has.sub (a := State.midLoadMask) (by decide +kernel) hm) (Has.sub (a := State.midLoadMask) (by decide +kernel) hm)
    | exact .inr (fun _ => rfl)
    | (intro _; rfl)
    | (intro _; simp; done)
    | (simp; assumption)
    | (refine .inr (fun _ => ?_); simp; done)
    | (refine .inr (fun _ => ?_); (repeat' split) <;> first | rfl | (simp; done))
    | (simp; done)

def State.cmpaHitMask : Nat :=
  State.chanEventMask ||| Part.pwm.bit

theorem State.cmpaHit_touch {msk : Nat} {s0 : State} {s : State} {n : Nat} (hk : Touch msk s0 s) (hm : Sub State.cmpaHitMask msk) :
    Touch msk s0 (State.cmpaHit s n) := by
  unfold State.cmpaHit
  try dsimp only
  repeat' (with_reducible first
    | assumption
    | exact Touch.refl
    | intro _
    | apply Touch.modChan
    | apply State.chanEvent_touch
    | apply Touch.ite
    | split)
  all_goals with_reducible first
    | exact .inr rfl
    | exact Sub.trans (b := State.cmpaHitMask) (by decide +kernel) hm
    | exact Has.sub (a := State.cmpaHitMask) (by decide +kernel) hm
    | exact .inl (Has.sub (a := State.cmpaHitMask) (by decide +kernel) hm)
    | exact Has.at (by decide) (Has.sub (a := State.cmpaHitMask) (by decide +kernel) hm)
    | exact Has.cell (by decide) (Has.sub (a := State.cmpaHitMask) (by decide +kernel) hm)
    | exact Has.cellNext (by decide) (Has.sub (a := State.cmpaHitMask) (by decide +kernel) hm)
    | exact Has.ite (Has.sub (a := State.cmpaHitMask) (by decide +kernel) hm) (Has.sub (a := State.cmpaHitMask) (by decide +kernel) hm)
    | exact .inr (fun _ => rfl)
    | (intro _; rfl)
    | (intro _; simp; done)
    | (simp; assumption)
    | (refine .inr (fun _ => ?_); simp; done)
    | (refine .inr (fun _ => ?_); (repeat' split) <;> first | rfl | (simp; done))
    | (simp; done)

def State.cmpbHitMask : Nat :=
  State.chanEventMask ||| Part.pwm.bit

theorem State.cmpbHit_touch {msk : Nat} {s0 : State} {s : State} {n : Nat} (hk : Touch msk s0 s) (hm : Sub State.cmpbHitMask msk) :
    Touch msk s0 (State.cmpbHit s n) := by
  unfold State.cmpbHit
  try dsimp only
  repeat' (with_reducible first
    | assumption
    | exact Touch.refl
    | intro _
    | apply Touch.modChan
    | apply State.chanEvent_touch
    | apply Touch.ite
    | split)
  all_goals with_reducible first
    | exact .inr rfl
    | exact Sub.trans (b := State.cmpbHitMask) (by decide +kernel) hm
    | exact Has.sub (a := State.cmpbHitMask) (by decide +kernel) hm
    | exact .inl (Has.sub (a := State.cmpbHitMask) (by decide +kernel) hm)
    | exact Has.at (by decide) (Has.sub (a := State.cmpbHitMask) (by decide +kernel) hm)
    | exact Has.cell (by decide) (Has.sub (a := State.cmpbHitMask) (by decide +kernel) hm)
    | exact Has.cellNext (by decide) (Has.sub (a := State.cmpbHitMask) (by decide +kernel) hm)
    | exact Has.ite (Has.sub (a := State.cmpbHitMask) (by decide +kernel) hm) (Has.sub (a := State.cmpbHitMask) (by decide +kernel) hm)
    | exact .inr (fun _ => rfl)
    | (intro _; rfl)
    | (intro _; simp; done)
    | (simp; assumption)
    | (refine .inr (fun _ => ?_); simp; done)
    | (refine .inr (fun _ => ?_); (repeat' split) <;> first | rfl | (simp; done))
    | (simp; done)

def State.peakEndMask : Nat :=
  Part.pwm.bit

theorem State.peakEnd_touch {msk : Nat} {s0 : State} {s : State} {n : Nat} {t : Nat} (hk : Touch msk s0 s) (hm : Sub State.peakEndMask msk) :
    Touch msk s0 (State.peakEnd s n t) := by
  unfold State.peakEnd
  try dsimp only
  repeat' (with_reducible first
    | assumption
    | exact Touch.refl
    | intro _
    | apply Touch.modChan
    | apply Touch.ite
    | split)
  all_goals with_reducible first
    | exact .inr rfl
    | exact Sub.trans (b := State.peakEndMask) (by decide +kernel) hm
    | exact Has.sub (a := State.peakEndMask) (by decide +kernel) hm
    | exact .inl (Has.sub (a := State.peakEndMask) (by decide +kernel) hm)
    | exact Has.at (by decide) (Has.sub (a := State.peakEndMask) (by decide +kernel) hm)
    | exact Has.cell (by decide) (Has.sub (a := State.peakEndMask) (by decide +kernel) hm)
    | exact Has.cellNext (by decide) (Has.sub (a := State.peakEndMask) (by decide +kernel) hm)
    | exact Has.ite (Has.sub (a := State.peakEndMask) (by decide +kernel) hm) (Has.sub (a := State.peakEndMask) (by decide +kernel) hm)
    | exact .inr (fun _ => rfl)
    | (intro _; rfl)
    | (intro _; simp; done)
    | (simp; assumption)
    | (refine .inr (fun _ => ?_); simp; done)
    | (refine .inr (fun _ => ?_); (repeat' split) <;> first | rfl | (simp; done))
    | (simp; done)

def State.swLowMask : Nat :=
  State.lgRiseMask

theorem State.swLow_touch {msk : Nat} {s0 : State} {s : State} {n : Nat} {t : Nat} (hk : Touch msk s0 s) (hm : Sub State.swLowMask msk) :
    Touch msk s0 (State.swLow s n t) := by
  unfold State.swLow
  try dsimp only
  repeat' (with_reducible first
    | assumption
    | exact Touch.refl
    | intro _
    | apply State.lgRise_touch
    | apply Touch.ite
    | split)
  all_goals with_reducible first
    | exact .inr rfl
    | exact Sub.trans (b := State.swLowMask) (by decide +kernel) hm
    | exact Has.sub (a := State.swLowMask) (by decide +kernel) hm
    | exact .inl (Has.sub (a := State.swLowMask) (by decide +kernel) hm)
    | exact Has.at (by decide) (Has.sub (a := State.swLowMask) (by decide +kernel) hm)
    | exact Has.cell (by decide) (Has.sub (a := State.swLowMask) (by decide +kernel) hm)
    | exact Has.cellNext (by decide) (Has.sub (a := State.swLowMask) (by decide +kernel) hm)
    | exact Has.ite (Has.sub (a := State.swLowMask) (by decide +kernel) hm) (Has.sub (a := State.swLowMask) (by decide +kernel) hm)
    | exact .inr (fun _ => rfl)
    | (intro _; rfl)
    | (intro _; simp; done)
    | (simp; assumption)
    | (refine .inr (fun _ => ?_); simp; done)
    | (refine .inr (fun _ => ?_); (repeat' split) <;> first | rfl | (simp; done))
    | (simp; done)

def State.lgSensedMask : Nat :=
  Part.pwm.bit

theorem State.lgSensed_touch {msk : Nat} {s0 : State} {s : State} {n : Nat} {t : Nat} (hk : Touch msk s0 s) (hm : Sub State.lgSensedMask msk) :
    Touch msk s0 (State.lgSensed s n t) := by
  unfold State.lgSensed
  try dsimp only
  repeat' (with_reducible first
    | assumption
    | exact Touch.refl
    | intro _
    | apply Touch.modChan
    | apply Touch.ite
    | split)
  all_goals with_reducible first
    | exact .inr rfl
    | exact Sub.trans (b := State.lgSensedMask) (by decide +kernel) hm
    | exact Has.sub (a := State.lgSensedMask) (by decide +kernel) hm
    | exact .inl (Has.sub (a := State.lgSensedMask) (by decide +kernel) hm)
    | exact Has.at (by decide) (Has.sub (a := State.lgSensedMask) (by decide +kernel) hm)
    | exact Has.cell (by decide) (Has.sub (a := State.lgSensedMask) (by decide +kernel) hm)
    | exact Has.cellNext (by decide) (Has.sub (a := State.lgSensedMask) (by decide +kernel) hm)
    | exact Has.ite (Has.sub (a := State.lgSensedMask) (by decide +kernel) hm) (Has.sub (a := State.lgSensedMask) (by decide +kernel) hm)
    | exact .inr (fun _ => rfl)
    | (intro _; rfl)
    | (intro _; simp; done)
    | (simp; assumption)
    | (refine .inr (fun _ => ?_); simp; done)
    | (refine .inr (fun _ => ?_); (repeat' split) <;> first | rfl | (simp; done))
    | (simp; done)

def State.hgTurnOnMask : Nat :=
  State.hgMeetMask

theorem State.hgTurnOn_touch {msk : Nat} {s0 : State} {s : State} {n : Nat} {t : Nat} (hk : Touch msk s0 s) (hm : Sub State.hgTurnOnMask msk) :
    Touch msk s0 (State.hgTurnOn s n t) := by
  unfold State.hgTurnOn
  try dsimp only
  repeat' (with_reducible first
    | assumption
    | exact Touch.refl
    | intro _
    | apply State.hgMeet_touch
    | (refine Touch.ofEq (by assumption) ?_)
    | apply Touch.ite
    | split)
  all_goals with_reducible first
    | exact .inr rfl
    | exact Sub.trans (b := State.hgTurnOnMask) (by decide +kernel) hm
    | exact Has.sub (a := State.hgTurnOnMask) (by decide +kernel) hm
    | exact .inl (Has.sub (a := State.hgTurnOnMask) (by decide +kernel) hm)
    | exact Has.at (by decide) (Has.sub (a := State.hgTurnOnMask) (by decide +kernel) hm)
    | exact Has.cell (by decide) (Has.sub (a := State.hgTurnOnMask) (by decide +kernel) hm)
    | exact Has.cellNext (by decide) (Has.sub (a := State.hgTurnOnMask) (by decide +kernel) hm)
    | exact Has.ite (Has.sub (a := State.hgTurnOnMask) (by decide +kernel) hm) (Has.sub (a := State.hgTurnOnMask) (by decide +kernel) hm)
    | exact .inr (fun _ => rfl)
    | (intro _; rfl)
    | (intro _; simp; done)
    | (simp; assumption)
    | (refine .inr (fun _ => ?_); simp; done)
    | (refine .inr (fun _ => ?_); (repeat' split) <;> first | rfl | (simp; done))
    | (simp; done)

def State.dtMaxMask : Nat :=
  State.pwmStickMask ||| State.lgRiseMask ||| State.hgMeetMask

theorem State.dtMax_touch {msk : Nat} {s0 : State} {s : State} {n : Nat} {t : Nat} (hk : Touch msk s0 s) (hm : Sub State.dtMaxMask msk) :
    Touch msk s0 (State.dtMax s n t) := by
  unfold State.dtMax
  try dsimp only
  repeat' (with_reducible first
    | assumption
    | exact Touch.refl
    | intro _
    | apply State.pwmStick_touch
    | apply State.lgRise_touch
    | apply State.hgMeet_touch
    | apply Touch.ite
    | split)
  all_goals with_reducible first
    | exact .inr rfl
    | exact Sub.trans (b := State.dtMaxMask) (by decide +kernel) hm
    | exact Has.sub (a := State.dtMaxMask) (by decide +kernel) hm
    | exact .inl (Has.sub (a := State.dtMaxMask) (by decide +kernel) hm)
    | exact Has.at (by decide) (Has.sub (a := State.dtMaxMask) (by decide +kernel) hm)
    | exact Has.cell (by decide) (Has.sub (a := State.dtMaxMask) (by decide +kernel) hm)
    | exact Has.cellNext (by decide) (Has.sub (a := State.dtMaxMask) (by decide +kernel) hm)
    | exact Has.ite (Has.sub (a := State.dtMaxMask) (by decide +kernel) hm) (Has.sub (a := State.dtMaxMask) (by decide +kernel) hm)
    | exact .inr (fun _ => rfl)
    | (intro _; rfl)
    | (intro _; simp; done)
    | (simp; assumption)
    | (refine .inr (fun _ => ?_); simp; done)
    | (refine .inr (fun _ => ?_); (repeat' split) <;> first | rfl | (simp; done))
    | (simp; done)

def State.zeroCurrentMask : Nat :=
  Part.pwm.bit

theorem State.zeroCurrent_touch {msk : Nat} {s0 : State} {s : State} {n : Nat} {t : Nat} (hk : Touch msk s0 s) (hm : Sub State.zeroCurrentMask msk) :
    Touch msk s0 (State.zeroCurrent s n t) := by
  unfold State.zeroCurrent
  try dsimp only
  repeat' (with_reducible first
    | assumption
    | exact Touch.refl
    | intro _
    | apply Touch.modChan
    | apply Touch.ite
    | split)
  all_goals with_reducible first
    | exact .inr rfl
    | exact Sub.trans (b := State.zeroCurrentMask) (by decide +kernel) hm
    | exact Has.sub (a := State.zeroCurrentMask) (by decide +kernel) hm
    | exact .inl (Has.sub (a := State.zeroCurrentMask) (by decide +kernel) hm)
    | exact Has.at (by decide) (Has.sub (a := State.zeroCurrentMask) (by decide +kernel) hm)
    | exact Has.cell (by decide) (Has.sub (a := State.zeroCurrentMask) (by decide +kernel) hm)
    | exact Has.cellNext (by decide) (Has.sub (a := State.zeroCurrentMask) (by decide +kernel) hm)
    | exact Has.ite (Has.sub (a := State.zeroCurrentMask) (by decide +kernel) hm) (Has.sub (a := State.zeroCurrentMask) (by decide +kernel) hm)
    | exact .inr (fun _ => rfl)
    | (intro _; rfl)
    | (intro _; simp; done)
    | (simp; assumption)
    | (refine .inr (fun _ => ?_); simp; done)
    | (refine .inr (fun _ => ?_); (repeat' split) <;> first | rfl | (simp; done))
    | (simp; done)

def State.burnEndMask : Nat :=
  Part.pwm.bit

theorem State.burnEnd_touch {msk : Nat} {s0 : State} {s : State} {n : Nat} {bstLow : Bool} (hk : Touch msk s0 s) (hm : Sub State.burnEndMask msk) :
    Touch msk s0 (State.burnEnd s n bstLow) := by
  unfold State.burnEnd
  try dsimp only
  repeat' (with_reducible first
    | assumption
    | exact Touch.refl
    | intro _
    | apply Touch.modChan
    | apply Touch.ite
    | split)
  all_goals with_reducible first
    | exact .inr rfl
    | exact Sub.trans (b := State.burnEndMask) (by decide +kernel) hm
    | exact Has.sub (a := State.burnEndMask) (by decide +kernel) hm
    | exact .inl (Has.sub (a := State.burnEndMask) (by decide +kernel) hm)
    | exact Has.at (by decide) (Has.sub (a := State.burnEndMask) (by decide +kernel) hm)
    | exact Has.cell (by decide) (Has.sub (a := State.burnEndMask) (by decide +kernel) hm)
    | exact Has.cellNext (by decide) (Has.sub (a := State.burnEndMask) (by decide +kernel) hm)
    | exact Has.ite (Has.sub (a := State.burnEndMask) (by decide +kernel) hm) (Has.sub (a := State.burnEndMask) (by decide +kernel) hm)
    | exact .inr (fun _ => rfl)
    | (intro _; rfl)
    | (intro _; simp; done)
    | (simp; assumption)
    | (refine .inr (fun _ => ?_); simp; done)
    | (refine .inr (fun _ => ?_); (repeat' split) <;> first | rfl | (simp; done))
    | (simp; done)

def State.bstUvloMask : Nat :=
  State.postMask ||| State.pwmStickMask ||| Part.pwm.bit

theorem State.bstUvlo_touch {msk : Nat} {s0 : State} {s : State} {n : Nat} (hk : Touch msk s0 s) (hm : Sub State.bstUvloMask msk) :
    Touch msk s0 (State.bstUvlo s n) := by
  unfold State.bstUvlo
  try dsimp only
  repeat' (with_reducible first
    | assumption
    | exact Touch.refl
    | intro _
    | apply State.post_touch
    | apply Touch.modChan
    | apply State.pwmStick_touch)
  all_goals with_reducible first
    | exact .inr rfl
    | exact Sub.trans (b := State.bstUvloMask) (by decide +kernel) hm
    | exact Has.sub (a := State.bstUvloMask) (by decide +kernel) hm
    | exact .inl (Has.sub (a := State.bstUvloMask) (by decide +kernel) hm)
    | exact Has.at (by decide) (Has.sub (a := State.bstUvloMask) (by decide +kernel) hm)
    | exact Has.cell (by decide) (Has.sub (a := State.bstUvloMask) (by decide +kernel) hm)
    | exact Has.cellNext (by decide) (Has.sub (a := State.bstUvloMask) (by decide +kernel) hm)
    | exact Has.ite (Has.sub (a := State.bstUvloMask) (by decide +kernel) hm) (Has.sub (a := State.bstUvloMask) (by decide +kernel) hm)
    | exact .inr (fun _ => rfl)
    | (intro _; rfl)
    | (intro _; simp; done)
    | (simp; assumption)
    | (refine .inr (fun _ => ?_); simp; done)
    | (refine .inr (fun _ => ?_); (repeat' split) <;> first | rfl | (simp; done))
    | (simp; done)

def State.forceWriteMask : Nat :=
  State.postMask ||| State.pwmStickMask ||| rbit R.PWM_FORCE ||| Part.pwm.bit

theorem State.forceWrite_touch {msk : Nat} {s0 : State} {s : State} {n : Nat} {v : Word} (hk : Touch msk s0 s) (hm : Sub State.forceWriteMask msk) :
    Touch msk s0 (State.forceWrite s n v) := by
  unfold State.forceWrite
  try dsimp only
  repeat' (with_reducible first
    | assumption
    | exact Touch.refl
    | intro _
    | apply Touch.setReg
    | apply State.post_touch
    | apply Touch.modChan
    | apply State.pwmStick_touch
    | apply Touch.ite
    | apply Touch.setReg
    | split)
  all_goals with_reducible first
    | exact .inr rfl
    | exact Sub.trans (b := State.forceWriteMask) (by decide +kernel) hm
    | exact Has.sub (a := State.forceWriteMask) (by decide +kernel) hm
    | exact .inl (Has.sub (a := State.forceWriteMask) (by decide +kernel) hm)
    | exact Has.at (by decide) (Has.sub (a := State.forceWriteMask) (by decide +kernel) hm)
    | exact Has.cell (by decide) (Has.sub (a := State.forceWriteMask) (by decide +kernel) hm)
    | exact Has.cellNext (by decide) (Has.sub (a := State.forceWriteMask) (by decide +kernel) hm)
    | exact Has.ite (Has.sub (a := State.forceWriteMask) (by decide +kernel) hm) (Has.sub (a := State.forceWriteMask) (by decide +kernel) hm)
    | exact .inr (fun _ => rfl)
    | (intro _; rfl)
    | (intro _; simp; done)
    | (simp; assumption)
    | (refine .inr (fun _ => ?_); simp; done)
    | (refine .inr (fun _ => ?_); (repeat' split) <;> first | rfl | (simp; done))
    | (simp; done)

def State.forceEffectMask : Nat :=
  State.forceTakeMask ||| Part.pwm.bit

theorem State.forceEffect_touch {msk : Nat} {s0 : State} {s : State} {n : Nat} (hk : Touch msk s0 s) (hm : Sub State.forceEffectMask msk) :
    Touch msk s0 (State.forceEffect s n) := by
  unfold State.forceEffect
  try dsimp only
  repeat' (with_reducible first
    | assumption
    | exact Touch.refl
    | intro _
    | apply Touch.modChan
    | apply State.forceTake_touch
    | (refine Touch.ofEq (by assumption) ?_)
    | apply Touch.ite
    | split)
  all_goals with_reducible first
    | exact .inr rfl
    | exact Sub.trans (b := State.forceEffectMask) (by decide +kernel) hm
    | exact Has.sub (a := State.forceEffectMask) (by decide +kernel) hm
    | exact .inl (Has.sub (a := State.forceEffectMask) (by decide +kernel) hm)
    | exact Has.at (by decide) (Has.sub (a := State.forceEffectMask) (by decide +kernel) hm)
    | exact Has.cell (by decide) (Has.sub (a := State.forceEffectMask) (by decide +kernel) hm)
    | exact Has.cellNext (by decide) (Has.sub (a := State.forceEffectMask) (by decide +kernel) hm)
    | exact Has.ite (Has.sub (a := State.forceEffectMask) (by decide +kernel) hm) (Has.sub (a := State.forceEffectMask) (by decide +kernel) hm)
    | exact .inr (fun _ => rfl)
    | (intro _; rfl)
    | (intro _; simp; done)
    | (simp; assumption)
    | (refine .inr (fun _ => ?_); simp; done)
    | (refine .inr (fun _ => ?_); (repeat' split) <;> first | rfl | (simp; done))
    | (simp; done)

def State.countTripMask : Nat :=
  State.pulseMask ||| State.postMask ||| State.hatIncMask ||| rbit R.NMI_STAT ||| rbit R.PWM_STORM ||| Part.pwm.bit

theorem State.countTrip_touch {msk : Nat} {s0 : State} {s : State} (hk : Touch msk s0 s) (hm : Sub State.countTripMask msk) :
    Touch msk s0 (State.countTrip s) := by
  unfold State.countTrip
  try dsimp only
  repeat' (with_reducible first
    | assumption
    | exact Touch.refl
    | intro _
    | apply State.pulse_touch
    | apply State.post_touch
    | apply State.hatInc_touch
    | apply Touch.modPwm
    | apply State.satInc_touch
    | apply State.nmi_touch
    | apply Touch.ite
    | split)
  all_goals with_reducible first
    | exact .inr rfl
    | exact Sub.trans (b := State.countTripMask) (by decide +kernel) hm
    | exact Has.sub (a := State.countTripMask) (by decide +kernel) hm
    | exact .inl (Has.sub (a := State.countTripMask) (by decide +kernel) hm)
    | exact Has.at (by decide) (Has.sub (a := State.countTripMask) (by decide +kernel) hm)
    | exact Has.cell (by decide) (Has.sub (a := State.countTripMask) (by decide +kernel) hm)
    | exact Has.cellNext (by decide) (Has.sub (a := State.countTripMask) (by decide +kernel) hm)
    | exact Has.ite (Has.sub (a := State.countTripMask) (by decide +kernel) hm) (Has.sub (a := State.countTripMask) (by decide +kernel) hm)
    | exact .inr (fun _ => rfl)
    | (intro _; rfl)
    | (intro _; simp; done)
    | (simp; assumption)
    | (refine .inr (fun _ => ?_); simp; done)
    | (refine .inr (fun _ => ?_); (repeat' split) <;> first | rfl | (simp; done))
    | (simp; done)

def State.stormRestartMask : Nat :=
  rbit R.PWM_STORM ||| Part.pwm.bit

theorem State.stormRestart_touch {msk : Nat} {s0 : State} {s : State} (hk : Touch msk s0 s) (hm : Sub State.stormRestartMask msk) :
    Touch msk s0 (State.stormRestart s) := by
  unfold State.stormRestart
  try dsimp only
  repeat' (with_reducible first
    | assumption
    | exact Touch.refl
    | intro _
    | apply Touch.modPwm
    | apply State.setFld_touch)
  all_goals with_reducible first
    | exact .inr rfl
    | exact Sub.trans (b := State.stormRestartMask) (by decide +kernel) hm
    | exact Has.sub (a := State.stormRestartMask) (by decide +kernel) hm
    | exact .inl (Has.sub (a := State.stormRestartMask) (by decide +kernel) hm)
    | exact Has.at (by decide) (Has.sub (a := State.stormRestartMask) (by decide +kernel) hm)
    | exact Has.cell (by decide) (Has.sub (a := State.stormRestartMask) (by decide +kernel) hm)
    | exact Has.cellNext (by decide) (Has.sub (a := State.stormRestartMask) (by decide +kernel) hm)
    | exact Has.ite (Has.sub (a := State.stormRestartMask) (by decide +kernel) hm) (Has.sub (a := State.stormRestartMask) (by decide +kernel) hm)
    | exact .inr (fun _ => rfl)
    | (intro _; rfl)
    | (intro _; simp; done)
    | (simp; assumption)
    | (refine .inr (fun _ => ?_); simp; done)
    | (refine .inr (fun _ => ?_); (repeat' split) <;> first | rfl | (simp; done))
    | (simp; done)

def State.latchBitMask : Nat :=
  rbit R.PWM_TRIPSUM ||| rbit R.PWM_STAT ||| rbit R.PWM_TRIPLAT ||| Part.pwm.bit

theorem State.latchBit_touch {msk : Nat} {s0 : State} {s : State} {n : Nat} {b : Nat} (hk : Touch msk s0 s) (hm : Sub State.latchBitMask msk) :
    Touch msk s0 (State.latchBit s n b) := by
  unfold State.latchBit
  try dsimp only
  repeat' (with_reducible first
    | assumption
    | exact Touch.refl
    | intro _
    | apply Touch.modChan
    | apply State.setFlag_touch
    | apply State.setBit_touch)
  all_goals with_reducible first
    | exact .inr rfl
    | exact Sub.trans (b := State.latchBitMask) (by decide +kernel) hm
    | exact Has.sub (a := State.latchBitMask) (by decide +kernel) hm
    | exact .inl (Has.sub (a := State.latchBitMask) (by decide +kernel) hm)
    | exact Has.at (by decide) (Has.sub (a := State.latchBitMask) (by decide +kernel) hm)
    | exact Has.cell (by decide) (Has.sub (a := State.latchBitMask) (by decide +kernel) hm)
    | exact Has.cellNext (by decide) (Has.sub (a := State.latchBitMask) (by decide +kernel) hm)
    | exact Has.ite (Has.sub (a := State.latchBitMask) (by decide +kernel) hm) (Has.sub (a := State.latchBitMask) (by decide +kernel) hm)
    | exact .inr (fun _ => rfl)
    | (intro _; rfl)
    | (intro _; simp; done)
    | (simp; assumption)
    | (refine .inr (fun _ => ?_); simp; done)
    | (refine .inr (fun _ => ?_); (repeat' split) <;> first | rfl | (simp; done))
    | (simp; done)

def State.curStickMask : Nat :=
  State.stickMask ||| rbit R.CUR_CSTAT

theorem State.curStick_touch {msk : Nat} {s0 : State} {s : State} {n : Nat} {f : Fld} (hk : Touch msk s0 s) (hm : Sub State.curStickMask msk) :
    Touch msk s0 (State.curStick s n f) := by
  unfold State.curStick
  try dsimp only
  repeat' (with_reducible first
    | assumption
    | exact Touch.refl
    | intro _
    | apply State.stick_touch)
  all_goals with_reducible first
    | exact .inr rfl
    | exact Sub.trans (b := State.curStickMask) (by decide +kernel) hm
    | exact Has.sub (a := State.curStickMask) (by decide +kernel) hm
    | exact .inl (Has.sub (a := State.curStickMask) (by decide +kernel) hm)
    | exact Has.at (by decide) (Has.sub (a := State.curStickMask) (by decide +kernel) hm)
    | exact Has.cell (by decide) (Has.sub (a := State.curStickMask) (by decide +kernel) hm)
    | exact Has.cellNext (by decide) (Has.sub (a := State.curStickMask) (by decide +kernel) hm)
    | exact Has.ite (Has.sub (a := State.curStickMask) (by decide +kernel) hm) (Has.sub (a := State.curStickMask) (by decide +kernel) hm)
    | exact .inr (fun _ => rfl)
    | (intro _; rfl)
    | (intro _; simp; done)
    | (simp; assumption)
    | (refine .inr (fun _ => ?_); simp; done)
    | (refine .inr (fun _ => ?_); (repeat' split) <;> first | rfl | (simp; done))
    | (simp; done)

def State.lockOffMask : Nat :=
  State.postMask ||| State.curStickMask ||| rbit R.CUR_CSTAT

theorem State.lockOff_touch {msk : Nat} {s0 : State} {s : State} {n : Nat} (hk : Touch msk s0 s) (hm : Sub State.lockOffMask msk) :
    Touch msk s0 (State.lockOff s n) := by
  unfold State.lockOff
  try dsimp only
  repeat' (with_reducible first
    | assumption
    | exact Touch.refl
    | intro _
    | apply State.post_touch
    | apply State.curStick_touch
    | apply State.setFlag_touch)
  all_goals with_reducible first
    | exact .inr rfl
    | exact Sub.trans (b := State.lockOffMask) (by decide +kernel) hm
    | exact Has.sub (a := State.lockOffMask) (by decide +kernel) hm
    | exact .inl (Has.sub (a := State.lockOffMask) (by decide +kernel) hm)
    | exact Has.at (by decide) (Has.sub (a := State.lockOffMask) (by decide +kernel) hm)
    | exact Has.cell (by decide) (Has.sub (a := State.lockOffMask) (by decide +kernel) hm)
    | exact Has.cellNext (by decide) (Has.sub (a := State.lockOffMask) (by decide +kernel) hm)
    | exact Has.ite (Has.sub (a := State.lockOffMask) (by decide +kernel) hm) (Has.sub (a := State.lockOffMask) (by decide +kernel) hm)
    | exact .inr (fun _ => rfl)
    | (intro _; rfl)
    | (intro _; simp; done)
    | (simp; assumption)
    | (refine .inr (fun _ => ?_); simp; done)
    | (refine .inr (fun _ => ?_); (repeat' split) <;> first | rfl | (simp; done))
    | (simp; done)

def State.openMarkMask : Nat :=
  State.postMask ||| State.curStickMask ||| rbit R.CUR_CSTAT

theorem State.openMark_touch {msk : Nat} {s0 : State} {s : State} {n : Nat} (hk : Touch msk s0 s) (hm : Sub State.openMarkMask msk) :
    Touch msk s0 (State.openMark s n) := by
  unfold State.openMark
  try dsimp only
  repeat' (with_reducible first
    | assumption
    | exact Touch.refl
    | intro _
    | apply State.post_touch
    | apply State.curStick_touch
    | apply State.setFlag_touch)
  all_goals with_reducible first
    | exact .inr rfl
    | exact Sub.trans (b := State.openMarkMask) (by decide +kernel) hm
    | exact Has.sub (a := State.openMarkMask) (by decide +kernel) hm
    | exact .inl (Has.sub (a := State.openMarkMask) (by decide +kernel) hm)
    | exact Has.at (by decide) (Has.sub (a := State.openMarkMask) (by decide +kernel) hm)
    | exact Has.cell (by decide) (Has.sub (a := State.openMarkMask) (by decide +kernel) hm)
    | exact Has.cellNext (by decide) (Has.sub (a := State.openMarkMask) (by decide +kernel) hm)
    | exact Has.ite (Has.sub (a := State.openMarkMask) (by decide +kernel) hm) (Has.sub (a := State.openMarkMask) (by decide +kernel) hm)
    | exact .inr (fun _ => rfl)
    | (intro _; rfl)
    | (intro _; simp; done)
    | (simp; assumption)
    | (refine .inr (fun _ => ?_); simp; done)
    | (refine .inr (fun _ => ?_); (repeat' split) <;> first | rfl | (simp; done))
    | (simp; done)

def State.retryArmMask : Nat :=
  State.lockOffMask ||| rbit R.CUR_CSTAT

theorem State.retryArm_touch {msk : Nat} {s0 : State} {s : State} {n : Nat} (hk : Touch msk s0 s) (hm : Sub State.retryArmMask msk) :
    Touch msk s0 (State.retryArm s n) := by
  unfold State.retryArm
  try dsimp only
  repeat' (with_reducible first
    | assumption
    | exact Touch.refl
    | intro _
    | apply State.lockOff_touch
    | apply State.setFlag_touch
    | apply Touch.ite
    | split)
  all_goals with_reducible first
    | exact .inr rfl
    | exact Sub.trans (b := State.retryArmMask) (by decide +kernel) hm
    | exact Has.sub (a := State.retryArmMask) (by decide +kernel) hm
    | exact .inl (Has.sub (a := State.retryArmMask) (by decide +kernel) hm)
    | exact Has.at (by decide) (Has.sub (a := State.retryArmMask) (by decide +kernel) hm)
    | exact Has.cell (by decide) (Has.sub (a := State.retryArmMask) (by decide +kernel) hm)
    | exact Has.cellNext (by decide) (Has.sub (a := State.retryArmMask) (by decide +kernel) hm)
    | exact Has.ite (Has.sub (a := State.retryArmMask) (by decide +kernel) hm) (Has.sub (a := State.retryArmMask) (by decide +kernel) hm)
    | exact .inr (fun _ => rfl)
    | (intro _; rfl)
    | (intro _; simp; done)
    | (simp; assumption)
    | (refine .inr (fun _ => ?_); simp; done)
    | (refine .inr (fun _ => ?_); (repeat' split) <;> first | rfl | (simp; done))
    | (simp; done)

def State.ownTripMask : Nat :=
  State.irqMask ||| State.postMask ||| State.countTripMask ||| State.latchBitMask ||| State.openMarkMask |||
    State.retryArmMask

theorem State.ownTrip_touch {msk : Nat} {s0 : State} {s : State} {n : Nat} {b : Nat} (hk : Touch msk s0 s) (hm : Sub State.ownTripMask msk) :
    Touch msk s0 (State.ownTrip s n b) := by
  unfold State.ownTrip
  try dsimp only
  repeat' (with_reducible first
    | assumption
    | exact Touch.refl
    | intro _
    | apply State.irq_touch
    | apply State.post_touch
    | apply State.countTrip_touch
    | apply State.latchBit_touch
    | apply State.openMark_touch
    | apply State.retryArm_touch
    | apply Touch.ite
    | split)
  all_goals with_reducible first
    | exact .inr rfl
    | exact Sub.trans (b := State.ownTripMask) (by decide +kernel) hm
    | exact Has.sub (a := State.ownTripMask) (by decide +kernel) hm
    | exact .inl (Has.sub (a := State.ownTripMask) (by decide +kernel) hm)
    | exact Has.at (by decide) (Has.sub (a := State.ownTripMask) (by decide +kernel) hm)
    | exact Has.cell (by decide) (Has.sub (a := State.ownTripMask) (by decide +kernel) hm)
    | exact Has.cellNext (by decide) (Has.sub (a := State.ownTripMask) (by decide +kernel) hm)
    | exact Has.ite (Has.sub (a := State.ownTripMask) (by decide +kernel) hm) (Has.sub (a := State.ownTripMask) (by decide +kernel) hm)
    | exact .inr (fun _ => rfl)
    | (intro _; rfl)
    | (intro _; simp; done)
    | (simp; assumption)
    | (refine .inr (fun _ => ?_); simp; done)
    | (refine .inr (fun _ => ?_); (repeat' split) <;> first | rfl | (simp; done))
    | (simp; done)

def State.globalTripMask : Nat :=
  State.irqMask ||| State.postMask ||| State.countTripMask ||| State.latchBitMask

theorem State.globalTrip_touch {msk : Nat} {s0 : State} {s : State} {b : Nat} (hk : Touch msk s0 s) (hm : Sub State.globalTripMask msk) :
    Touch msk s0 (State.globalTrip s b) := by
  unfold State.globalTrip
  try dsimp only
  repeat' (with_reducible first
    | assumption
    | exact Touch.refl
    | intro _
    | apply State.irq_touch
    | apply State.post_touch
    | apply Touch.forChans
    | apply State.countTrip_touch
    | apply State.latchBit_touch
    | apply Touch.ite
    | apply Touch.foldl
    | apply Touch.foldlFst
    | split)
  all_goals with_reducible first
    | exact .inr rfl
    | exact Sub.trans (b := State.globalTripMask) (by decide +kernel) hm
    | exact Has.sub (a := State.globalTripMask) (by decide +kernel) hm
    | exact .inl (Has.sub (a := State.globalTripMask) (by decide +kernel) hm)
    | exact Has.at (by decide) (Has.sub (a := State.globalTripMask) (by decide +kernel) hm)
    | exact Has.cell (by decide) (Has.sub (a := State.globalTripMask) (by decide +kernel) hm)
    | exact Has.cellNext (by decide) (Has.sub (a := State.globalTripMask) (by decide +kernel) hm)
    | exact Has.ite (Has.sub (a := State.globalTripMask) (by decide +kernel) hm) (Has.sub (a := State.globalTripMask) (by decide +kernel) hm)
    | exact .inr (fun _ => rfl)
    | (intro _; rfl)
    | (intro _; simp; done)
    | (simp; assumption)
    | (refine .inr (fun _ => ?_); simp; done)
    | (refine .inr (fun _ => ?_); (repeat' split) <;> first | rfl | (simp; done))
    | (simp; done)

def State.latchClearMask : Nat :=
  State.forceAgainMask ||| State.tryStartMask ||| rbit R.PWM_TRIPSUM ||| rbit R.PWM_STAT ||| rbit R.PWM_TRIPLAT |||
    rbit R.CUR_CSTAT ||| Part.pwm.bit

theorem State.latchClear_touch {msk : Nat} {s0 : State} {s : State} {n : Nat} (hk : Touch msk s0 s) (hm : Sub State.latchClearMask msk) :
    Touch msk s0 (State.latchClear s n) := by
  unfold State.latchClear
  try dsimp only
  repeat' (with_reducible first
    | assumption
    | exact Touch.refl
    | intro _
    | apply Touch.setReg
    | apply Touch.modChan
    | apply State.forceAgain_touch
    | apply State.tryStart_touch
    | apply State.setFlag_touch
    | apply State.setBit_touch
    | apply Touch.ite
    | apply Touch.setReg
    | split)
  all_goals with_reducible first
    | exact .inr rfl
    | exact Sub.trans (b := State.latchClearMask) (by decide +kernel) hm
    | exact Has.sub (a := State.latchClearMask) (by decide +kernel) hm
    | exact .inl (Has.sub (a := State.latchClearMask) (by decide +kernel) hm)
    | exact Has.at (by decide) (Has.sub (a := State.latchClearMask) (by decide +kernel) hm)
    | exact Has.cell (by decide) (Has.sub (a := State.latchClearMask) (by decide +kernel) hm)
    | exact Has.cellNext (by decide) (Has.sub (a := State.latchClearMask) (by decide +kernel) hm)
    | exact Has.ite (Has.sub (a := State.latchClearMask) (by decide +kernel) hm) (Has.sub (a := State.latchClearMask) (by decide +kernel) hm)
    | exact .inr (fun _ => rfl)
    | (intro _; rfl)
    | (intro _; simp; done)
    | (simp; assumption)
    | (refine .inr (fun _ => ?_); simp; done)
    | (refine .inr (fun _ => ?_); (repeat' split) <;> first | rfl | (simp; done))
    | (simp; done)

def State.tryClearMask : Nat :=
  State.postMask ||| State.pwmStickMask ||| State.latchClearMask

theorem State.tryClear_touch {msk : Nat} {s0 : State} {s : State} {n : Nat} {oc : Word} {ov : Word} {pins : BitVec 4} (hk : Touch msk s0 s) (hm : Sub State.tryClearMask msk) :
    Touch msk s0 (State.tryClear s n oc ov pins).1 := by
  unfold State.tryClear
  try dsimp only
  repeat' (with_reducible first
    | assumption
    | exact Touch.refl
    | intro _
    | apply State.post_touch
    | apply State.pwmStick_touch
    | apply State.latchClear_touch
    | apply Touch.ite
    | split)
  all_goals with_reducible first
    | exact .inr rfl
    | exact Sub.trans (b := State.tryClearMask) (by decide +kernel) hm
    | exact Has.sub (a := State.tryClearMask) (by decide +kernel) hm
    | exact .inl (Has.sub (a := State.tryClearMask) (by decide +kernel) hm)
    | exact Has.at (by decide) (Has.sub (a := State.tryClearMask) (by decide +kernel) hm)
    | exact Has.cell (by decide) (Has.sub (a := State.tryClearMask) (by decide +kernel) hm)
    | exact Has.cellNext (by decide) (Has.sub (a := State.tryClearMask) (by decide +kernel) hm)
    | exact Has.ite (Has.sub (a := State.tryClearMask) (by decide +kernel) hm) (Has.sub (a := State.tryClearMask) (by decide +kernel) hm)
    | exact .inr (fun _ => rfl)
    | (intro _; rfl)
    | (intro _; simp; done)
    | (simp; assumption)
    | (refine .inr (fun _ => ?_); simp; done)
    | (refine .inr (fun _ => ?_); (repeat' split) <;> first | rfl | (simp; done))
    | (simp; done)

def State.tripClrMask : Nat :=
  State.tryClearMask

theorem State.tripClr_touch {msk : Nat} {s0 : State} {s : State} {n : Nat} {oc : Word} {ov : Word} {pins : BitVec 4} (hk : Touch msk s0 s) (hm : Sub State.tripClrMask msk) :
    Touch msk s0 (State.tripClr s n oc ov pins) := by
  unfold State.tripClr
  try dsimp only
  repeat' (with_reducible first
    | assumption
    | exact Touch.refl
    | intro _
    | apply State.tryClear_touch
    | apply Touch.ite
    | split)
  all_goals with_reducible first
    | exact .inr rfl
    | exact Sub.trans (b := State.tripClrMask) (by decide +kernel) hm
    | exact Has.sub (a := State.tripClrMask) (by decide +kernel) hm
    | exact .inl (Has.sub (a := State.tripClrMask) (by decide +kernel) hm)
    | exact Has.at (by decide) (Has.sub (a := State.tripClrMask) (by decide +kernel) hm)
    | exact Has.cell (by decide) (Has.sub (a := State.tripClrMask) (by decide +kernel) hm)
    | exact Has.cellNext (by decide) (Has.sub (a := State.tripClrMask) (by decide +kernel) hm)
    | exact Has.ite (Has.sub (a := State.tripClrMask) (by decide +kernel) hm) (Has.sub (a := State.tripClrMask) (by decide +kernel) hm)
    | exact .inr (fun _ => rfl)
    | (intro _; rfl)
    | (intro _; simp; done)
    | (simp; assumption)
    | (refine .inr (fun _ => ?_); simp; done)
    | (refine .inr (fun _ => ?_); (repeat' split) <;> first | rfl | (simp; done))
    | (simp; done)

def State.autoClearMask : Nat :=
  State.latchClearMask ||| Part.pwm.bit

theorem State.autoClear_touch {msk : Nat} {s0 : State} {s : State} (hk : Touch msk s0 s) (hm : Sub State.autoClearMask msk) :
    Touch msk s0 (State.autoClear s) := by
  unfold State.autoClear
  try dsimp only
  repeat' (with_reducible first
    | assumption
    | exact Touch.refl
    | intro _
    | apply Touch.modPwm
    | apply Touch.forChans
    | apply State.latchClear_touch
    | apply Touch.ite
    | apply Touch.foldl
    | apply Touch.foldlFst
    | split)
  all_goals with_reducible first
    | exact .inr rfl
    | exact Sub.trans (b := State.autoClearMask) (by decide +kernel) hm
    | exact Has.sub (a := State.autoClearMask) (by decide +kernel) hm
    | exact .inl (Has.sub (a := State.autoClearMask) (by decide +kernel) hm)
    | exact Has.at (by decide) (Has.sub (a := State.autoClearMask) (by decide +kernel) hm)
    | exact Has.cell (by decide) (Has.sub (a := State.autoClearMask) (by decide +kernel) hm)
    | exact Has.cellNext (by decide) (Has.sub (a := State.autoClearMask) (by decide +kernel) hm)
    | exact Has.ite (Has.sub (a := State.autoClearMask) (by decide +kernel) hm) (Has.sub (a := State.autoClearMask) (by decide +kernel) hm)
    | exact .inr (fun _ => rfl)
    | (intro _; rfl)
    | (intro _; simp; done)
    | (simp; assumption)
    | (refine .inr (fun _ => ?_); simp; done)
    | (refine .inr (fun _ => ?_); (repeat' split) <;> first | rfl | (simp; done))
    | (simp; done)

def State.clockClearMask : Nat :=
  State.latchClearMask ||| rbit R.PWM_TRIPLAT

theorem State.clockClear_touch {msk : Nat} {s0 : State} {s : State} (hk : Touch msk s0 s) (hm : Sub State.clockClearMask msk) :
    Touch msk s0 (State.clockClear s) := by
  unfold State.clockClear
  try dsimp only
  repeat' (with_reducible first
    | assumption
    | exact Touch.refl
    | intro _
    | apply Touch.forChans
    | apply State.latchClear_touch
    | apply State.setBit_touch
    | apply Touch.ite
    | split)
  all_goals with_reducible first
    | exact .inr rfl
    | exact Sub.trans (b := State.clockClearMask) (by decide +kernel) hm
    | exact Has.sub (a := State.clockClearMask) (by decide +kernel) hm
    | exact .inl (Has.sub (a := State.clockClearMask) (by decide +kernel) hm)
    | exact Has.at (by decide) (Has.sub (a := State.clockClearMask) (by decide +kernel) hm)
    | exact Has.cell (by decide) (Has.sub (a := State.clockClearMask) (by decide +kernel) hm)
    | exact Has.cellNext (by decide) (Has.sub (a := State.clockClearMask) (by decide +kernel) hm)
    | exact Has.ite (Has.sub (a := State.clockClearMask) (by decide +kernel) hm) (Has.sub (a := State.clockClearMask) (by decide +kernel) hm)
    | exact .inr (fun _ => rfl)
    | (intro _; rfl)
    | (intro _; simp; done)
    | (simp; assumption)
    | (refine .inr (fun _ => ?_); simp; done)
    | (refine .inr (fun _ => ?_); (repeat' split) <;> first | rfl | (simp; done))
    | (simp; done)

def State.chanFreezeMask : Nat :=
  Part.pwm.bit

theorem State.chanFreeze_touch {msk : Nat} {s0 : State} {s : State} {n : Nat} (hk : Touch msk s0 s) (hm : Sub State.chanFreezeMask msk) :
    Touch msk s0 (State.chanFreeze s n) := by
  unfold State.chanFreeze
  try dsimp only
  repeat' (with_reducible first
    | assumption
    | exact Touch.refl
    | intro _
    | apply Touch.modChan
    | apply Touch.ite
    | split)
  all_goals with_reducible first
    | exact .inr rfl
    | exact Sub.trans (b := State.chanFreezeMask) (by decide +kernel) hm
    | exact Has.sub (a := State.chanFreezeMask) (by decide +kernel) hm
    | exact .inl (Has.sub (a := State.chanFreezeMask) (by decide +kernel) hm)
    | exact Has.at (by decide) (Has.sub (a := State.chanFreezeMask) (by decide +kernel) hm)
    | exact Has.cell (by decide) (Has.sub (a := State.chanFreezeMask) (by decide +kernel) hm)
    | exact Has.cellNext (by decide) (Has.sub (a := State.chanFreezeMask) (by decide +kernel) hm)
    | exact Has.ite (Has.sub (a := State.chanFreezeMask) (by decide +kernel) hm) (Has.sub (a := State.chanFreezeMask) (by decide +kernel) hm)
    | exact .inr (fun _ => rfl)
    | (intro _; rfl)
    | (intro _; simp; done)
    | (simp; assumption)
    | (refine .inr (fun _ => ?_); simp; done)
    | (refine .inr (fun _ => ?_); (repeat' split) <;> first | rfl | (simp; done))
    | (simp; done)

def State.chanResumeMask : Nat :=
  rbit R.PWM_STAT ||| Part.pwm.bit

theorem State.chanResume_touch {msk : Nat} {s0 : State} {s : State} {n : Nat} (hk : Touch msk s0 s) (hm : Sub State.chanResumeMask msk) :
    Touch msk s0 (State.chanResume s n) := by
  unfold State.chanResume
  try dsimp only
  repeat' (with_reducible first
    | assumption
    | exact Touch.refl
    | intro _
    | apply Touch.modChan
    | apply State.setFlag_touch
    | apply Touch.ite
    | split)
  all_goals with_reducible first
    | exact .inr rfl
    | exact Sub.trans (b := State.chanResumeMask) (by decide +kernel) hm
    | exact Has.sub (a := State.chanResumeMask) (by decide +kernel) hm
    | exact .inl (Has.sub (a := State.chanResumeMask) (by decide +kernel) hm)
    | exact Has.at (by decide) (Has.sub (a := State.chanResumeMask) (by decide +kernel) hm)
    | exact Has.cell (by decide) (Has.sub (a := State.chanResumeMask) (by decide +kernel) hm)
    | exact Has.cellNext (by decide) (Has.sub (a := State.chanResumeMask) (by decide +kernel) hm)
    | exact Has.ite (Has.sub (a := State.chanResumeMask) (by decide +kernel) hm) (Has.sub (a := State.chanResumeMask) (by decide +kernel) hm)
    | exact .inr (fun _ => rfl)
    | (intro _; rfl)
    | (intro _; simp; done)
    | (simp; assumption)
    | (refine .inr (fun _ => ?_); simp; done)
    | (refine .inr (fun _ => ?_); (repeat' split) <;> first | rfl | (simp; done))
    | (simp; done)

def State.pwmHoldMask : Nat :=
  State.chanFreezeMask

theorem State.pwmHold_touch {msk : Nat} {s0 : State} {s : State} (hk : Touch msk s0 s) (hm : Sub State.pwmHoldMask msk) :
    Touch msk s0 (State.pwmHold s) := by
  unfold State.pwmHold
  try dsimp only
  repeat' (with_reducible first
    | assumption
    | exact Touch.refl
    | intro _
    | apply Touch.forChans
    | apply State.chanFreeze_touch
    | apply Touch.ite
    | split)
  all_goals with_reducible first
    | exact .inr rfl
    | exact Sub.trans (b := State.pwmHoldMask) (by decide +kernel) hm
    | exact Has.sub (a := State.pwmHoldMask) (by decide +kernel) hm
    | exact .inl (Has.sub (a := State.pwmHoldMask) (by decide +kernel) hm)
    | exact Has.at (by decide) (Has.sub (a := State.pwmHoldMask) (by decide +kernel) hm)
    | exact Has.cell (by decide) (Has.sub (a := State.pwmHoldMask) (by decide +kernel) hm)
    | exact Has.cellNext (by decide) (Has.sub (a := State.pwmHoldMask) (by decide +kernel) hm)
    | exact Has.ite (Has.sub (a := State.pwmHoldMask) (by decide +kernel) hm) (Has.sub (a := State.pwmHoldMask) (by decide +kernel) hm)
    | exact .inr (fun _ => rfl)
    | (intro _; rfl)
    | (intro _; simp; done)
    | (simp; assumption)
    | (refine .inr (fun _ => ?_); simp; done)
    | (refine .inr (fun _ => ?_); (repeat' split) <;> first | rfl | (simp; done))
    | (simp; done)

def State.pwmResumeMask : Nat :=
  State.chanResumeMask

theorem State.pwmResume_touch {msk : Nat} {s0 : State} {s : State} (hk : Touch msk s0 s) (hm : Sub State.pwmResumeMask msk) :
    Touch msk s0 (State.pwmResume s) := by
  unfold State.pwmResume
  try dsimp only
  repeat' (with_reducible first
    | assumption
    | exact Touch.refl
    | intro _
    | apply Touch.forChans
    | apply State.chanResume_touch)
  all_goals with_reducible first
    | exact .inr rfl
    | exact Sub.trans (b := State.pwmResumeMask) (by decide +kernel) hm
    | exact Has.sub (a := State.pwmResumeMask) (by decide +kernel) hm
    | exact .inl (Has.sub (a := State.pwmResumeMask) (by decide +kernel) hm)
    | exact Has.at (by decide) (Has.sub (a := State.pwmResumeMask) (by decide +kernel) hm)
    | exact Has.cell (by decide) (Has.sub (a := State.pwmResumeMask) (by decide +kernel) hm)
    | exact Has.cellNext (by decide) (Has.sub (a := State.pwmResumeMask) (by decide +kernel) hm)
    | exact Has.ite (Has.sub (a := State.pwmResumeMask) (by decide +kernel) hm) (Has.sub (a := State.pwmResumeMask) (by decide +kernel) hm)
    | exact .inr (fun _ => rfl)
    | (intro _; rfl)
    | (intro _; simp; done)
    | (simp; assumption)
    | (refine .inr (fun _ => ?_); simp; done)
    | (refine .inr (fun _ => ?_); (repeat' split) <;> first | rfl | (simp; done))
    | (simp; done)

def State.holdTimeoutMask : Nat :=
  State.postMask ||| rbit R.PWM_STAT ||| Part.pwm.bit

theorem State.holdTimeout_touch {msk : Nat} {s0 : State} {s : State} {n : Nat} (hk : Touch msk s0 s) (hm : Sub State.holdTimeoutMask msk) :
    Touch msk s0 (State.holdTimeout s n) := by
  unfold State.holdTimeout
  try dsimp only
  repeat' (with_reducible first
    | assumption
    | exact Touch.refl
    | intro _
    | apply State.post_touch
    | apply Touch.modChan
    | apply State.setFlag_touch
    | apply Touch.ite
    | split)
  all_goals with_reducible first
    | exact .inr rfl
    | exact Sub.trans (b := State.holdTimeoutMask) (by decide +kernel) hm
    | exact Has.sub (a := State.holdTimeoutMask) (by decide +kernel) hm
    | exact .inl (Has.sub (a := State.holdTimeoutMask) (by decide +kernel) hm)
    | exact Has.at (by decide) (Has.sub (a := State.holdTimeoutMask) (by decide +kernel) hm)
    | exact Has.cell (by decide) (Has.sub (a := State.holdTimeoutMask) (by decide +kernel) hm)
    | exact Has.cellNext (by decide) (Has.sub (a := State.holdTimeoutMask) (by decide +kernel) hm)
    | exact Has.ite (Has.sub (a := State.holdTimeoutMask) (by decide +kernel) hm) (Has.sub (a := State.holdTimeoutMask) (by decide +kernel) hm)
    | exact .inr (fun _ => rfl)
    | (intro _; rfl)
    | (intro _; simp; done)
    | (simp; assumption)
    | (refine .inr (fun _ => ?_); simp; done)
    | (refine .inr (fun _ => ?_); (repeat' split) <;> first | rfl | (simp; done))
    | (simp; done)

end Sys2Proof.Machine
end

