-- ==== Sys2Proof/Laws/TouchCur.lean ====
section
/-! SUPPORT. What each operation of Machine/Cur.lean may change: its mask, and the proof that it changes nothing else. -/

namespace Sys2Proof.Machine

set_option linter.unusedSimpArgs false
set_option Elab.async false

def State.realiseMask : Nat :=
  rbit R.CUR_DRIVE_LO ||| rbit R.CUR_DRIVE_HI ||| rbit R.CUR_AMP ||| rbit R.CUR_BURST ||| rbit R.CUR_FINAL ||| rbit
    R.CUR_KP ||| Part.pwm.bit

theorem State.realise_touch {msk : Nat} {s0 : State} {s : State} {n : Nat} {d : Nat} {x : Split} {kp : Nat} (hk : Touch msk s0 s) (hm : Sub State.realiseMask msk) :
    Touch msk s0 (State.realise s n d x kp) := by
  unfold State.realise
  try dsimp only
  repeat' (with_reducible first
    | assumption
    | exact Touch.refl
    | intro _
    | apply Touch.setReg
    | apply Touch.modChan
    | apply State.setPair_touch
    | apply Touch.ite
    | apply Touch.setReg
    | split)
  all_goals with_reducible first
    | exact .inr rfl
    | exact Sub.trans (b := State.realiseMask) (by decide +kernel) hm
    | exact Has.sub (a := State.realiseMask) (by decide +kernel) hm
    | exact .inl (Has.sub (a := State.realiseMask) (by decide +kernel) hm)
    | exact Has.at (by decide) (Has.sub (a := State.realiseMask) (by decide +kernel) hm)
    | exact Has.cell (by decide) (Has.sub (a := State.realiseMask) (by decide +kernel) hm)
    | exact Has.cellNext (by decide) (Has.sub (a := State.realiseMask) (by decide +kernel) hm)
    | exact Has.ite (Has.sub (a := State.realiseMask) (by decide +kernel) hm) (Has.sub (a := State.realiseMask) (by decide +kernel) hm)
    | exact .inr (fun _ => rfl)
    | (intro _; rfl)
    | (intro _; simp; done)
    | (simp; assumption)
    | (refine .inr (fun _ => ?_); simp; done)
    | (refine .inr (fun _ => ?_); (repeat' split) <;> first | rfl | (simp; done))
    | (simp; done)

def State.dimChannelMask : Nat :=
  State.realiseMask ||| rbit R.CUR_CSTAT

theorem State.dimChannel_touch {msk : Nat} {s0 : State} {s : State} {n : Nat} {m : Nat} {force : Option Nat} (hk : Touch msk s0 s) (hm : Sub State.dimChannelMask msk) :
    Touch msk s0 (State.dimChannel s n m force) := by
  unfold State.dimChannel
  try dsimp only
  repeat' (with_reducible first
    | assumption
    | exact Touch.refl
    | intro _
    | apply State.realise_touch
    | apply State.setFlag_touch
    | (refine Touch.ofEq (by assumption) ?_)
    | apply Touch.ite
    | split)
  all_goals with_reducible first
    | exact .inr rfl
    | exact Sub.trans (b := State.dimChannelMask) (by decide +kernel) hm
    | exact Has.sub (a := State.dimChannelMask) (by decide +kernel) hm
    | exact .inl (Has.sub (a := State.dimChannelMask) (by decide +kernel) hm)
    | exact Has.at (by decide) (Has.sub (a := State.dimChannelMask) (by decide +kernel) hm)
    | exact Has.cell (by decide) (Has.sub (a := State.dimChannelMask) (by decide +kernel) hm)
    | exact Has.cellNext (by decide) (Has.sub (a := State.dimChannelMask) (by decide +kernel) hm)
    | exact Has.ite (Has.sub (a := State.dimChannelMask) (by decide +kernel) hm) (Has.sub (a := State.dimChannelMask) (by decide +kernel) hm)
    | exact .inr (fun _ => rfl)
    | (intro _; rfl)
    | (intro _; simp; done)
    | (simp; assumption)
    | (refine .inr (fun _ => ?_); simp; done)
    | (refine .inr (fun _ => ?_); (repeat' split) <;> first | rfl | (simp; done))
    | (simp; done)

def State.phaseUpdateMask : Nat :=
  State.irqMask ||| State.postMask ||| rbit R.CUR_STAT ||| Part.pwm.bit

theorem State.phaseUpdate_touch {msk : Nat} {s0 : State} {s : State} (hk : Touch msk s0 s) (hm : Sub State.phaseUpdateMask msk) :
    Touch msk s0 (State.phaseUpdate s) := by
  unfold State.phaseUpdate
  try dsimp only
  repeat' (with_reducible first
    | assumption
    | exact Touch.refl
    | intro _
    | apply State.irq_touch
    | apply State.post_touch
    | apply Touch.modPwm
    | apply State.setFld_touch
    | apply State.setFlag_touch
    | apply Touch.ite
    | split)
  all_goals with_reducible first
    | exact .inr rfl
    | exact Sub.trans (b := State.phaseUpdateMask) (by decide +kernel) hm
    | exact Has.sub (a := State.phaseUpdateMask) (by decide +kernel) hm
    | exact .inl (Has.sub (a := State.phaseUpdateMask) (by decide +kernel) hm)
    | exact Has.at (by decide) (Has.sub (a := State.phaseUpdateMask) (by decide +kernel) hm)
    | exact Has.cell (by decide) (Has.sub (a := State.phaseUpdateMask) (by decide +kernel) hm)
    | exact Has.cellNext (by decide) (Has.sub (a := State.phaseUpdateMask) (by decide +kernel) hm)
    | exact Has.ite (Has.sub (a := State.phaseUpdateMask) (by decide +kernel) hm) (Has.sub (a := State.phaseUpdateMask) (by decide +kernel) hm)
    | exact .inr (fun _ => rfl)
    | (intro _; rfl)
    | (intro _; simp; done)
    | (simp; assumption)
    | (refine .inr (fun _ => ?_); simp; done)
    | (refine .inr (fun _ => ?_); (repeat' split) <;> first | rfl | (simp; done))
    | (simp; done)

def State.dimMarkMask : Nat :=
  Part.pwm.bit

theorem State.dimMark_touch {msk : Nat} {s0 : State} {s : State} (hk : Touch msk s0 s) (hm : Sub State.dimMarkMask msk) :
    Touch msk s0 (State.dimMark s) := by
  unfold State.dimMark
  try dsimp only
  repeat' (with_reducible first
    | assumption
    | exact Touch.refl
    | intro _
    | apply Touch.modPwm)
  all_goals with_reducible first
    | exact .inr rfl
    | exact Sub.trans (b := State.dimMarkMask) (by decide +kernel) hm
    | exact Has.sub (a := State.dimMarkMask) (by decide +kernel) hm
    | exact .inl (Has.sub (a := State.dimMarkMask) (by decide +kernel) hm)
    | exact Has.at (by decide) (Has.sub (a := State.dimMarkMask) (by decide +kernel) hm)
    | exact Has.cell (by decide) (Has.sub (a := State.dimMarkMask) (by decide +kernel) hm)
    | exact Has.cellNext (by decide) (Has.sub (a := State.dimMarkMask) (by decide +kernel) hm)
    | exact Has.ite (Has.sub (a := State.dimMarkMask) (by decide +kernel) hm) (Has.sub (a := State.dimMarkMask) (by decide +kernel) hm)
    | exact .inr (fun _ => rfl)
    | (intro _; rfl)
    | (intro _; simp; done)
    | (simp; assumption)
    | (refine .inr (fun _ => ?_); simp; done)
    | (refine .inr (fun _ => ?_); (repeat' split) <;> first | rfl | (simp; done))
    | (simp; done)

def State.phrefMarkMask : Nat :=
  State.phaseUpdateMask ||| State.dimMarkMask

theorem State.phrefMark_touch {msk : Nat} {s0 : State} {s : State} (hk : Touch msk s0 s) (hm : Sub State.phrefMarkMask msk) :
    Touch msk s0 (State.phrefMark s) := by
  unfold State.phrefMark
  try dsimp only
  repeat' (with_reducible first
    | assumption
    | exact Touch.refl
    | intro _
    | apply State.phaseUpdate_touch
    | apply State.dimMark_touch
    | apply Touch.ite
    | split)
  all_goals with_reducible first
    | exact .inr rfl
    | exact Sub.trans (b := State.phrefMarkMask) (by decide +kernel) hm
    | exact Has.sub (a := State.phrefMarkMask) (by decide +kernel) hm
    | exact .inl (Has.sub (a := State.phrefMarkMask) (by decide +kernel) hm)
    | exact Has.at (by decide) (Has.sub (a := State.phrefMarkMask) (by decide +kernel) hm)
    | exact Has.cell (by decide) (Has.sub (a := State.phrefMarkMask) (by decide +kernel) hm)
    | exact Has.cellNext (by decide) (Has.sub (a := State.phrefMarkMask) (by decide +kernel) hm)
    | exact Has.ite (Has.sub (a := State.phrefMarkMask) (by decide +kernel) hm) (Has.sub (a := State.phrefMarkMask) (by decide +kernel) hm)
    | exact .inr (fun _ => rfl)
    | (intro _; rfl)
    | (intro _; simp; done)
    | (simp; assumption)
    | (refine .inr (fun _ => ?_); simp; done)
    | (refine .inr (fun _ => ?_); (repeat' split) <;> first | rfl | (simp; done))
    | (simp; done)

def State.synciMarkMask : Nat :=
  State.phaseUpdateMask ||| State.dimMarkMask ||| Part.pwm.bit

theorem State.synciMark_touch {msk : Nat} {s0 : State} {s : State} (hk : Touch msk s0 s) (hm : Sub State.synciMarkMask msk) :
    Touch msk s0 (State.synciMark s) := by
  unfold State.synciMark
  try dsimp only
  repeat' (with_reducible first
    | assumption
    | exact Touch.refl
    | intro _
    | apply Touch.modPwm
    | apply State.phaseUpdate_touch
    | apply State.dimMark_touch
    | apply Touch.ite
    | split)
  all_goals with_reducible first
    | exact .inr rfl
    | exact Sub.trans (b := State.synciMarkMask) (by decide +kernel) hm
    | exact Has.sub (a := State.synciMarkMask) (by decide +kernel) hm
    | exact .inl (Has.sub (a := State.synciMarkMask) (by decide +kernel) hm)
    | exact Has.at (by decide) (Has.sub (a := State.synciMarkMask) (by decide +kernel) hm)
    | exact Has.cell (by decide) (Has.sub (a := State.synciMarkMask) (by decide +kernel) hm)
    | exact Has.cellNext (by decide) (Has.sub (a := State.synciMarkMask) (by decide +kernel) hm)
    | exact Has.ite (Has.sub (a := State.synciMarkMask) (by decide +kernel) hm) (Has.sub (a := State.synciMarkMask) (by decide +kernel) hm)
    | exact .inr (fun _ => rfl)
    | (intro _; rfl)
    | (intro _; simp; done)
    | (simp; assumption)
    | (refine .inr (fun _ => ?_); simp; done)
    | (refine .inr (fun _ => ?_); (repeat' split) <;> first | rfl | (simp; done))
    | (simp; done)

def State.dperMovedMask : Nat :=
  Part.pwm.bit

theorem State.dperMoved_touch {msk : Nat} {s0 : State} {s : State} {old : Word} (hk : Touch msk s0 s) (hm : Sub State.dperMovedMask msk) :
    Touch msk s0 (State.dperMoved s old) := by
  unfold State.dperMoved
  try dsimp only
  repeat' (with_reducible first
    | assumption
    | exact Touch.refl
    | intro _
    | apply Touch.modChan
    | apply Touch.forChans
    | apply Touch.ite
    | split)
  all_goals with_reducible first
    | exact .inr rfl
    | exact Sub.trans (b := State.dperMovedMask) (by decide +kernel) hm
    | exact Has.sub (a := State.dperMovedMask) (by decide +kernel) hm
    | exact .inl (Has.sub (a := State.dperMovedMask) (by decide +kernel) hm)
    | exact Has.at (by decide) (Has.sub (a := State.dperMovedMask) (by decide +kernel) hm)
    | exact Has.cell (by decide) (Has.sub (a := State.dperMovedMask) (by decide +kernel) hm)
    | exact Has.cellNext (by decide) (Has.sub (a := State.dperMovedMask) (by decide +kernel) hm)
    | exact Has.ite (Has.sub (a := State.dperMovedMask) (by decide +kernel) hm) (Has.sub (a := State.dperMovedMask) (by decide +kernel) hm)
    | exact .inr (fun _ => rfl)
    | (intro _; rfl)
    | (intro _; simp; done)
    | (simp; assumption)
    | (refine .inr (fun _ => ?_); simp; done)
    | (refine .inr (fun _ => ?_); (repeat' split) <;> first | rfl | (simp; done))
    | (simp; done)

def State.trimUpdateMask : Nat :=
  State.postMask ||| State.curStickMask ||| rbit R.CUR_TRIMV

theorem State.trimUpdate_touch {msk : Nat} {s0 : State} {s : State} {n : Nat} {avg : Int} {a : Nat} {skip : Bool} (hk : Touch msk s0 s) (hm : Sub State.trimUpdateMask msk) :
    Touch msk s0 (State.trimUpdate s n avg a skip) := by
  unfold State.trimUpdate
  try dsimp only
  repeat' (with_reducible first
    | assumption
    | exact Touch.refl
    | intro _
    | apply Touch.setReg
    | apply State.post_touch
    | apply State.curStick_touch
    | apply Touch.ite
    | apply Touch.setReg
    | split)
  all_goals with_reducible first
    | exact .inr rfl
    | exact Sub.trans (b := State.trimUpdateMask) (by decide +kernel) hm
    | exact Has.sub (a := State.trimUpdateMask) (by decide +kernel) hm
    | exact .inl (Has.sub (a := State.trimUpdateMask) (by decide +kernel) hm)
    | exact Has.at (by decide) (Has.sub (a := State.trimUpdateMask) (by decide +kernel) hm)
    | exact Has.cell (by decide) (Has.sub (a := State.trimUpdateMask) (by decide +kernel) hm)
    | exact Has.cellNext (by decide) (Has.sub (a := State.trimUpdateMask) (by decide +kernel) hm)
    | exact Has.ite (Has.sub (a := State.trimUpdateMask) (by decide +kernel) hm) (Has.sub (a := State.trimUpdateMask) (by decide +kernel) hm)
    | exact .inr (fun _ => rfl)
    | (intro _; rfl)
    | (intro _; simp; done)
    | (simp; assumption)
    | (refine .inr (fun _ => ?_); simp; done)
    | (refine .inr (fun _ => ?_); (repeat' split) <;> first | rfl | (simp; done))
    | (simp; done)

def State.retryMask : Nat :=
  State.postMask ||| State.curStickMask ||| State.tryClearMask ||| rbit R.CUR_CSTAT

theorem State.retry_touch {msk : Nat} {s0 : State} {s : State} {n : Nat} {oc : Bool} {ov : Bool} {pins : BitVec 4} (hk : Touch msk s0 s) (hm : Sub State.retryMask msk) :
    Touch msk s0 (State.retry s n oc ov pins) := by
  unfold State.retry
  try dsimp only
  repeat' (with_reducible first
    | assumption
    | exact Touch.refl
    | intro _
    | apply State.post_touch
    | apply State.curStick_touch
    | apply State.tryClear_touch
    | apply State.setFld_touch
    | apply State.setFlag_touch
    | (refine Touch.ofEq (by assumption) ?_)
    | apply Touch.ite
    | split)
  all_goals with_reducible first
    | exact .inr rfl
    | exact Sub.trans (b := State.retryMask) (by decide +kernel) hm
    | exact Has.sub (a := State.retryMask) (by decide +kernel) hm
    | exact .inl (Has.sub (a := State.retryMask) (by decide +kernel) hm)
    | exact Has.at (by decide) (Has.sub (a := State.retryMask) (by decide +kernel) hm)
    | exact Has.cell (by decide) (Has.sub (a := State.retryMask) (by decide +kernel) hm)
    | exact Has.cellNext (by decide) (Has.sub (a := State.retryMask) (by decide +kernel) hm)
    | exact Has.ite (Has.sub (a := State.retryMask) (by decide +kernel) hm) (Has.sub (a := State.retryMask) (by decide +kernel) hm)
    | exact .inr (fun _ => rfl)
    | (intro _; rfl)
    | (intro _; simp; done)
    | (simp; assumption)
    | (refine .inr (fun _ => ?_); simp; done)
    | (refine .inr (fun _ => ?_); (repeat' split) <;> first | rfl | (simp; done))
    | (simp; done)

def State.retryResetMask : Nat :=
  rbit R.CUR_CSTAT

theorem State.retryReset_touch {msk : Nat} {s0 : State} {s : State} {n : Nat} (hk : Touch msk s0 s) (hm : Sub State.retryResetMask msk) :
    Touch msk s0 (State.retryReset s n) := by
  unfold State.retryReset
  try dsimp only
  repeat' (with_reducible first
    | assumption
    | exact Touch.refl
    | intro _
    | apply State.setFld_touch
    | apply Touch.ite
    | split)
  all_goals with_reducible first
    | exact .inr rfl
    | exact Sub.trans (b := State.retryResetMask) (by decide +kernel) hm
    | exact Has.sub (a := State.retryResetMask) (by decide +kernel) hm
    | exact .inl (Has.sub (a := State.retryResetMask) (by decide +kernel) hm)
    | exact Has.at (by decide) (Has.sub (a := State.retryResetMask) (by decide +kernel) hm)
    | exact Has.cell (by decide) (Has.sub (a := State.retryResetMask) (by decide +kernel) hm)
    | exact Has.cellNext (by decide) (Has.sub (a := State.retryResetMask) (by decide +kernel) hm)
    | exact Has.ite (Has.sub (a := State.retryResetMask) (by decide +kernel) hm) (Has.sub (a := State.retryResetMask) (by decide +kernel) hm)
    | exact .inr (fun _ => rfl)
    | (intro _; rfl)
    | (intro _; simp; done)
    | (simp; assumption)
    | (refine .inr (fun _ => ?_); simp; done)
    | (refine .inr (fun _ => ?_); (repeat' split) <;> first | rfl | (simp; done))
    | (simp; done)

def State.lockClrMask : Nat :=
  State.postMask ||| State.tryClearMask ||| rbit R.CUR_TRIMV ||| rbit R.CUR_CSTAT ||| Part.pwm.bit

theorem State.lockClr_touch {msk : Nat} {s0 : State} {s : State} {n : Nat} {oc : Word} {ov : Word} {pins : BitVec 4} (hk : Touch msk s0 s) (hm : Sub State.lockClrMask msk) :
    Touch msk s0 (State.lockClr s n oc ov pins) := by
  unfold State.lockClr
  try dsimp only
  repeat' (with_reducible first
    | assumption
    | exact Touch.refl
    | intro _
    | apply Touch.setReg
    | apply State.post_touch
    | apply Touch.modChan
    | apply State.tryClear_touch
    | apply State.setFld_touch
    | apply State.setFlag_touch
    | (refine Touch.ofEq (by assumption) ?_)
    | apply Touch.ite
    | apply Touch.setReg
    | split)
  all_goals with_reducible first
    | exact .inr rfl
    | exact Sub.trans (b := State.lockClrMask) (by decide +kernel) hm
    | exact Has.sub (a := State.lockClrMask) (by decide +kernel) hm
    | exact .inl (Has.sub (a := State.lockClrMask) (by decide +kernel) hm)
    | exact Has.at (by decide) (Has.sub (a := State.lockClrMask) (by decide +kernel) hm)
    | exact Has.cell (by decide) (Has.sub (a := State.lockClrMask) (by decide +kernel) hm)
    | exact Has.cellNext (by decide) (Has.sub (a := State.lockClrMask) (by decide +kernel) hm)
    | exact Has.ite (Has.sub (a := State.lockClrMask) (by decide +kernel) hm) (Has.sub (a := State.lockClrMask) (by decide +kernel) hm)
    | exact .inr (fun _ => rfl)
    | (intro _; rfl)
    | (intro _; simp; done)
    | (simp; assumption)
    | (refine .inr (fun _ => ?_); simp; done)
    | (refine .inr (fun _ => ?_); (repeat' split) <;> first | rfl | (simp; done))
    | (simp; done)

end Sys2Proof.Machine
end

