-- ==== Sys2Proof/Laws/TouchLmp.lean ====
section
/-! SUPPORT. What each operation of Machine/Lmp.lean may change: its mask, and the proof that it changes nothing else. -/

namespace Sys2Proof.Machine

set_option linter.unusedSimpArgs false
set_option Elab.async false

def State.lampStickMask : Nat :=
  State.stickMask ||| State.postMask ||| rbit R.LMP_LSTAT

theorem State.lampStick_touch {msk : Nat} {s0 : State} {s : State} {l : Nat} {f : Fld} {ev : Option (Nat × Nat)} (hk : Touch msk s0 s) (hm : Sub State.lampStickMask msk) (hf : Has msk (f.key / 64)) :
    Touch msk s0 (State.lampStick s l f ev) := by
  unfold State.lampStick
  try dsimp only
  repeat' (with_reducible first
    | assumption
    | exact Touch.refl
    | intro _
    | apply State.stick_touch
    | apply State.post_touch
    | (refine Touch.ofEq (by assumption) ?_)
    | split)
  all_goals with_reducible first
    | exact .inr rfl
    | exact Sub.trans (b := State.lampStickMask) (by decide +kernel) hm
    | exact Has.sub (a := State.lampStickMask) (by decide +kernel) hm
    | exact .inl (Has.sub (a := State.lampStickMask) (by decide +kernel) hm)
    | exact Has.at (by decide) (Has.sub (a := State.lampStickMask) (by decide +kernel) hm)
    | exact Has.cell (by decide) (Has.sub (a := State.lampStickMask) (by decide +kernel) hm)
    | exact Has.cellNext (by decide) (Has.sub (a := State.lampStickMask) (by decide +kernel) hm)
    | exact Has.ite (Has.sub (a := State.lampStickMask) (by decide +kernel) hm) (Has.sub (a := State.lampStickMask) (by decide +kernel) hm)
    | exact .inr (fun _ => rfl)
    | (intro _; rfl)
    | (intro _; simp; done)
    | (simp; assumption)
    | (refine .inr (fun _ => ?_); simp; done)
    | (refine .inr (fun _ => ?_); (repeat' split) <;> first | rfl | (simp; done))
    | (simp; done)

def State.modLmpMask : Nat :=
  Part.lmp.bit

theorem State.modLmp_touch {msk : Nat} {s0 : State} {s : State} {f : LmpState → LmpState} (hk : Touch msk s0 s) (hm : Sub State.modLmpMask msk) :
    Touch msk s0 (State.modLmp s f) := by
  unfold State.modLmp
  try dsimp only
  repeat' (with_reducible first
    | assumption
    | exact Touch.refl
    | intro _
    | (simp only [Touch.mk_iff]; apply TouchMk.intro))
  all_goals with_reducible first
    | exact .inr rfl
    | exact Sub.trans (b := State.modLmpMask) (by decide +kernel) hm
    | exact Has.sub (a := State.modLmpMask) (by decide +kernel) hm
    | exact .inl (Has.sub (a := State.modLmpMask) (by decide +kernel) hm)
    | exact Has.at (by decide) (Has.sub (a := State.modLmpMask) (by decide +kernel) hm)
    | exact Has.cell (by decide) (Has.sub (a := State.modLmpMask) (by decide +kernel) hm)
    | exact Has.cellNext (by decide) (Has.sub (a := State.modLmpMask) (by decide +kernel) hm)
    | exact Has.ite (Has.sub (a := State.modLmpMask) (by decide +kernel) hm) (Has.sub (a := State.modLmpMask) (by decide +kernel) hm)
    | exact .inr (fun _ => rfl)
    | (intro _; rfl)
    | (intro _; simp; done)
    | (simp; assumption)
    | (refine .inr (fun _ => ?_); simp; done)
    | (refine .inr (fun _ => ?_); (repeat' split) <;> first | rfl | (simp; done))
    | (simp; done)

def State.lmpMapWriteMask : Nat :=
  State.modLmpMask

theorem State.lmpMapWrite_touch {msk : Nat} {s0 : State} {s : State} {l : Nat} {v : Word} (hk : Touch msk s0 s) (hm : Sub State.lmpMapWriteMask msk) :
    Touch msk s0 (State.lmpMapWrite s l v) := by
  unfold State.lmpMapWrite
  try dsimp only
  repeat' (with_reducible first
    | assumption
    | exact Touch.refl
    | intro _
    | apply State.modLmp_touch)
  all_goals with_reducible first
    | exact .inr rfl
    | exact Sub.trans (b := State.lmpMapWriteMask) (by decide +kernel) hm
    | exact Has.sub (a := State.lmpMapWriteMask) (by decide +kernel) hm
    | exact .inl (Has.sub (a := State.lmpMapWriteMask) (by decide +kernel) hm)
    | exact Has.at (by decide) (Has.sub (a := State.lmpMapWriteMask) (by decide +kernel) hm)
    | exact Has.cell (by decide) (Has.sub (a := State.lmpMapWriteMask) (by decide +kernel) hm)
    | exact Has.cellNext (by decide) (Has.sub (a := State.lmpMapWriteMask) (by decide +kernel) hm)
    | exact Has.ite (Has.sub (a := State.lmpMapWriteMask) (by decide +kernel) hm) (Has.sub (a := State.lmpMapWriteMask) (by decide +kernel) hm)
    | exact .inr (fun _ => rfl)
    | (intro _; rfl)
    | (intro _; simp; done)
    | (simp; assumption)
    | (refine .inr (fun _ => ?_); simp; done)
    | (refine .inr (fun _ => ?_); (repeat' split) <;> first | rfl | (simp; done))
    | (simp; done)

def State.lmpCfgWriteMask : Nat :=
  State.modLmpMask

theorem State.lmpCfgWrite_touch {msk : Nat} {s0 : State} {s : State} {l : Nat} {v : Word} (hk : Touch msk s0 s) (hm : Sub State.lmpCfgWriteMask msk) :
    Touch msk s0 (State.lmpCfgWrite s l v) := by
  unfold State.lmpCfgWrite
  try dsimp only
  repeat' (with_reducible first
    | assumption
    | exact Touch.refl
    | intro _
    | apply State.modLmp_touch)
  all_goals with_reducible first
    | exact .inr rfl
    | exact Sub.trans (b := State.lmpCfgWriteMask) (by decide +kernel) hm
    | exact Has.sub (a := State.lmpCfgWriteMask) (by decide +kernel) hm
    | exact .inl (Has.sub (a := State.lmpCfgWriteMask) (by decide +kernel) hm)
    | exact Has.at (by decide) (Has.sub (a := State.lmpCfgWriteMask) (by decide +kernel) hm)
    | exact Has.cell (by decide) (Has.sub (a := State.lmpCfgWriteMask) (by decide +kernel) hm)
    | exact Has.cellNext (by decide) (Has.sub (a := State.lmpCfgWriteMask) (by decide +kernel) hm)
    | exact Has.ite (Has.sub (a := State.lmpCfgWriteMask) (by decide +kernel) hm) (Has.sub (a := State.lmpCfgWriteMask) (by decide +kernel) hm)
    | exact .inr (fun _ => rfl)
    | (intro _; rfl)
    | (intro _; simp; done)
    | (simp; assumption)
    | (refine .inr (fun _ => ?_); simp; done)
    | (refine .inr (fun _ => ?_); (repeat' split) <;> first | rfl | (simp; done))
    | (simp; done)

def State.mapCheckMask : Nat :=
  State.lampStickMask ||| State.modLmpMask ||| rbit R.LMP_CFG ||| rbit R.LMP_MAP ||| rbit R.LMP_LSTAT

theorem State.mapCheck_touch {msk : Nat} {s0 : State} {s : State} {l : Nat} (hk : Touch msk s0 s) (hm : Sub State.mapCheckMask msk) :
    Touch msk s0 (State.mapCheck s l) := by
  unfold State.mapCheck
  try dsimp only
  repeat' (with_reducible first
    | assumption
    | exact Touch.refl
    | intro _
    | apply Touch.setReg
    | apply State.lampStick_touch
    | apply State.modLmp_touch
    | (refine Touch.ofEq (by assumption) ?_)
    | apply Touch.ite
    | apply Touch.setReg
    | split)
  all_goals with_reducible first
    | exact .inr rfl
    | exact Sub.trans (b := State.mapCheckMask) (by decide +kernel) hm
    | exact Has.sub (a := State.mapCheckMask) (by decide +kernel) hm
    | exact .inl (Has.sub (a := State.mapCheckMask) (by decide +kernel) hm)
    | exact Has.at (by decide) (Has.sub (a := State.mapCheckMask) (by decide +kernel) hm)
    | exact Has.cell (by decide) (Has.sub (a := State.mapCheckMask) (by decide +kernel) hm)
    | exact Has.cellNext (by decide) (Has.sub (a := State.mapCheckMask) (by decide +kernel) hm)
    | exact Has.ite (Has.sub (a := State.mapCheckMask) (by decide +kernel) hm) (Has.sub (a := State.mapCheckMask) (by decide +kernel) hm)
    | exact .inr (fun _ => rfl)
    | (intro _; rfl)
    | (intro _; simp; done)
    | (simp; assumption)
    | (refine .inr (fun _ => ?_); simp; done)
    | (refine .inr (fun _ => ?_); (repeat' split) <;> first | rfl | (simp; done))
    | (simp; done)

def State.lmpOpenMask : Nat :=
  State.modLmpMask ||| rbit R.LMP_STAT

theorem State.lmpOpen_touch {msk : Nat} {s0 : State} {s : State} (hk : Touch msk s0 s) (hm : Sub State.lmpOpenMask msk) :
    Touch msk s0 (State.lmpOpen s) := by
  unfold State.lmpOpen
  try dsimp only
  repeat' (with_reducible first
    | assumption
    | exact Touch.refl
    | intro _
    | apply State.modLmp_touch
    | apply State.setFlag_touch)
  all_goals with_reducible first
    | exact .inr rfl
    | exact Sub.trans (b := State.lmpOpenMask) (by decide +kernel) hm
    | exact Has.sub (a := State.lmpOpenMask) (by decide +kernel) hm
    | exact .inl (Has.sub (a := State.lmpOpenMask) (by decide +kernel) hm)
    | exact Has.at (by decide) (Has.sub (a := State.lmpOpenMask) (by decide +kernel) hm)
    | exact Has.cell (by decide) (Has.sub (a := State.lmpOpenMask) (by decide +kernel) hm)
    | exact Has.cellNext (by decide) (Has.sub (a := State.lmpOpenMask) (by decide +kernel) hm)
    | exact Has.ite (Has.sub (a := State.lmpOpenMask) (by decide +kernel) hm) (Has.sub (a := State.lmpOpenMask) (by decide +kernel) hm)
    | exact .inr (fun _ => rfl)
    | (intro _; rfl)
    | (intro _; simp; done)
    | (simp; assumption)
    | (refine .inr (fun _ => ?_); simp; done)
    | (refine .inr (fun _ => ?_); (repeat' split) <;> first | rfl | (simp; done))
    | (simp; done)

def State.lmpCloseMask : Nat :=
  State.irqMask ||| State.postMask ||| rbit R.LMP_STAT ||| rbit R.LMP_TERR

theorem State.lmpClose_touch {msk : Nat} {s0 : State} {s : State} (hk : Touch msk s0 s) (hm : Sub State.lmpCloseMask msk) :
    Touch msk s0 (State.lmpClose s) := by
  unfold State.lmpClose
  try dsimp only
  repeat' (with_reducible first
    | assumption
    | exact Touch.refl
    | intro _
    | apply Touch.setReg
    | apply State.irq_touch
    | apply State.post_touch
    | apply State.setFlag_touch
    | (refine Touch.ofEq (by assumption) ?_)
    | apply Touch.ite
    | apply Touch.setReg
    | split)
  all_goals with_reducible first
    | exact .inr rfl
    | exact Sub.trans (b := State.lmpCloseMask) (by decide +kernel) hm
    | exact Has.sub (a := State.lmpCloseMask) (by decide +kernel) hm
    | exact .inl (Has.sub (a := State.lmpCloseMask) (by decide +kernel) hm)
    | exact Has.at (by decide) (Has.sub (a := State.lmpCloseMask) (by decide +kernel) hm)
    | exact Has.cell (by decide) (Has.sub (a := State.lmpCloseMask) (by decide +kernel) hm)
    | exact Has.cellNext (by decide) (Has.sub (a := State.lmpCloseMask) (by decide +kernel) hm)
    | exact Has.ite (Has.sub (a := State.lmpCloseMask) (by decide +kernel) hm) (Has.sub (a := State.lmpCloseMask) (by decide +kernel) hm)
    | exact .inr (fun _ => rfl)
    | (intro _; rfl)
    | (intro _; simp; done)
    | (simp; assumption)
    | (refine .inr (fun _ => ?_); simp; done)
    | (refine .inr (fun _ => ?_); (repeat' split) <;> first | rfl | (simp; done))
    | (simp; done)

def State.lmpSwapMask : Nat :=
  State.modLmpMask ||| rbit R.LMP_STAT

theorem State.lmpSwap_touch {msk : Nat} {s0 : State} {s : State} (hk : Touch msk s0 s) (hm : Sub State.lmpSwapMask msk) :
    Touch msk s0 (State.lmpSwap s) := by
  unfold State.lmpSwap
  try dsimp only
  repeat' (with_reducible first
    | assumption
    | exact Touch.refl
    | intro _
    | apply State.modLmp_touch
    | apply State.setFlag_touch
    | apply Touch.ite
    | split)
  all_goals with_reducible first
    | exact .inr rfl
    | exact Sub.trans (b := State.lmpSwapMask) (by decide +kernel) hm
    | exact Has.sub (a := State.lmpSwapMask) (by decide +kernel) hm
    | exact .inl (Has.sub (a := State.lmpSwapMask) (by decide +kernel) hm)
    | exact Has.at (by decide) (Has.sub (a := State.lmpSwapMask) (by decide +kernel) hm)
    | exact Has.cell (by decide) (Has.sub (a := State.lmpSwapMask) (by decide +kernel) hm)
    | exact Has.cellNext (by decide) (Has.sub (a := State.lmpSwapMask) (by decide +kernel) hm)
    | exact Has.ite (Has.sub (a := State.lmpSwapMask) (by decide +kernel) hm) (Has.sub (a := State.lmpSwapMask) (by decide +kernel) hm)
    | exact .inr (fun _ => rfl)
    | (intro _; rfl)
    | (intro _; simp; done)
    | (simp; assumption)
    | (refine .inr (fun _ => ?_); simp; done)
    | (refine .inr (fun _ => ?_); (repeat' split) <;> first | rfl | (simp; done))
    | (simp; done)

def State.setDriveMask : Nat :=
  Part.pwm.bit

theorem State.setDrive_touch {msk : Nat} {s0 : State} {s : State} {n : Nat} {d : Nat} (hk : Touch msk s0 s) (hm : Sub State.setDriveMask msk) :
    Touch msk s0 (State.setDrive s n d) := by
  unfold State.setDrive
  try dsimp only
  repeat' (with_reducible first
    | assumption
    | exact Touch.refl
    | intro _
    | apply Touch.modPwm)
  all_goals with_reducible first
    | exact .inr rfl
    | exact Sub.trans (b := State.setDriveMask) (by decide +kernel) hm
    | exact Has.sub (a := State.setDriveMask) (by decide +kernel) hm
    | exact .inl (Has.sub (a := State.setDriveMask) (by decide +kernel) hm)
    | exact Has.at (by decide) (Has.sub (a := State.setDriveMask) (by decide +kernel) hm)
    | exact Has.cell (by decide) (Has.sub (a := State.setDriveMask) (by decide +kernel) hm)
    | exact Has.cellNext (by decide) (Has.sub (a := State.setDriveMask) (by decide +kernel) hm)
    | exact Has.ite (Has.sub (a := State.setDriveMask) (by decide +kernel) hm) (Has.sub (a := State.setDriveMask) (by decide +kernel) hm)
    | exact .inr (fun _ => rfl)
    | (intro _; rfl)
    | (intro _; simp; done)
    | (simp; assumption)
    | (refine .inr (fun _ => ?_); simp; done)
    | (refine .inr (fun _ => ?_); (repeat' split) <;> first | rfl | (simp; done))
    | (simp; done)

def State.useFreesMask : Nat :=
  Part.free.bit

theorem State.useFrees_touch {msk : Nat} {s0 : State} {s : State} {n : Nat} (hk : Touch msk s0 s) (hm : Sub State.useFreesMask msk) :
    Touch msk s0 (State.useFrees s n) := by
  unfold State.useFrees
  try dsimp only
  repeat' (with_reducible first
    | assumption
    | exact Touch.refl
    | intro _
    | (simp only [Touch.mk_iff]; apply TouchMk.intro))
  all_goals with_reducible first
    | exact .inr rfl
    | exact Sub.trans (b := State.useFreesMask) (by decide +kernel) hm
    | exact Has.sub (a := State.useFreesMask) (by decide +kernel) hm
    | exact .inl (Has.sub (a := State.useFreesMask) (by decide +kernel) hm)
    | exact Has.at (by decide) (Has.sub (a := State.useFreesMask) (by decide +kernel) hm)
    | exact Has.cell (by decide) (Has.sub (a := State.useFreesMask) (by decide +kernel) hm)
    | exact Has.cellNext (by decide) (Has.sub (a := State.useFreesMask) (by decide +kernel) hm)
    | exact Has.ite (Has.sub (a := State.useFreesMask) (by decide +kernel) hm) (Has.sub (a := State.useFreesMask) (by decide +kernel) hm)
    | exact .inr (fun _ => rfl)
    | (intro _; rfl)
    | (intro _; simp; done)
    | (simp; assumption)
    | (refine .inr (fun _ => ?_); simp; done)
    | (refine .inr (fun _ => ?_); (repeat' split) <;> first | rfl | (simp; done))
    | (simp; done)

def State.solvedMask : Nat :=
  State.useFreesMask

theorem State.solved_touch {msk : Nat} {s0 s : State} {k : Nat} {es : List Emitter} {wp t : UV} (hk : Touch msk s0 s)
    (hm : Sub State.solvedMask msk) : Touch msk s0 (s.solved k es wp t).2 := by
  have g : ∀ n u, Touch msk s0 u → Touch msk s0 (State.useFrees u n) :=
    fun _ _ h => State.useFrees_touch h (Sub.trans (b := State.solvedMask) (by decide +kernel) hm)
  unfold State.solved
  dsimp only
  split <;> split <;> first | exact hk | exact g _ _ hk | exact g _ _ (g _ _ hk)

def State.fractionsMask : Nat :=
  State.useFreesMask

theorem State.fractions_touch {msk : Nat} {s0 s : State} {ys : List Rat} {es : List Emitter} {ms : List Rat} {r : Rat}
    (hk : Touch msk s0 s) (hm : Sub State.fractionsMask msk) : Touch msk s0 (s.fractions ys es ms r).2 := by
  unfold State.fractions
  dsimp only
  split
  · exact hk
  · exact State.useFrees_touch hk (Sub.trans (b := State.fractionsMask) (by decide +kernel) hm)

def State.lampToldMask : Nat :=
  State.lampStickMask ||| rbit R.LMP_CFG ||| rbit R.LMP_FREFA ||| rbit R.LMP_BOUT ||| rbit R.LMP_TEMP ||| rbit
    R.LMP_LSTAT

theorem State.lampTold_touch {msk : Nat} {s0 : State} {s : State} {l : Nat} {b : Nat} {t16 : Int} {bad : Bool} (hk : Touch msk s0 s) (hm : Sub State.lampToldMask msk) :
    Touch msk s0 (State.lampTold s l b t16 bad) := by
  unfold State.lampTold
  try dsimp only
  repeat' (with_reducible first
    | assumption
    | exact Touch.refl
    | intro _
    | apply Touch.setReg
    | apply State.lampStick_touch
    | apply State.setFlag_touch
    | (refine Touch.ofEq (by assumption) ?_)
    | apply Touch.ite
    | apply Touch.setReg
    | split)
  all_goals with_reducible first
    | exact .inr rfl
    | exact Sub.trans (b := State.lampToldMask) (by decide +kernel) hm
    | exact Has.sub (a := State.lampToldMask) (by decide +kernel) hm
    | exact .inl (Has.sub (a := State.lampToldMask) (by decide +kernel) hm)
    | exact Has.at (by decide) (Has.sub (a := State.lampToldMask) (by decide +kernel) hm)
    | exact Has.cell (by decide) (Has.sub (a := State.lampToldMask) (by decide +kernel) hm)
    | exact Has.cellNext (by decide) (Has.sub (a := State.lampToldMask) (by decide +kernel) hm)
    | exact Has.ite (Has.sub (a := State.lampToldMask) (by decide +kernel) hm) (Has.sub (a := State.lampToldMask) (by decide +kernel) hm)
    | exact .inr (fun _ => rfl)
    | (intro _; rfl)
    | (intro _; simp; done)
    | (simp; assumption)
    | (refine .inr (fun _ => ?_); simp; done)
    | (refine .inr (fun _ => ?_); (repeat' split) <;> first | rfl | (simp; done))
    | (simp; done)

def State.lampGamutMask : Nat :=
  State.lampStickMask ||| rbit R.LMP_UOUT ||| rbit R.LMP_VOUT ||| rbit R.LMP_LSTAT

theorem State.lampGamut_touch {msk : Nat} {s0 : State} {s : State} {l : Nat} {q : UV} {gam : Bool} (hk : Touch msk s0 s) (hm : Sub State.lampGamutMask msk) :
    Touch msk s0 (State.lampGamut s l q gam) := by
  unfold State.lampGamut
  try dsimp only
  repeat' (with_reducible first
    | assumption
    | exact Touch.refl
    | intro _
    | apply Touch.setReg
    | apply State.lampStick_touch
    | apply State.setFlag_touch
    | apply Touch.ite
    | apply Touch.setReg
    | split)
  all_goals with_reducible first
    | exact .inr rfl
    | exact Sub.trans (b := State.lampGamutMask) (by decide +kernel) hm
    | exact Has.sub (a := State.lampGamutMask) (by decide +kernel) hm
    | exact .inl (Has.sub (a := State.lampGamutMask) (by decide +kernel) hm)
    | exact Has.at (by decide) (Has.sub (a := State.lampGamutMask) (by decide +kernel) hm)
    | exact Has.cell (by decide) (Has.sub (a := State.lampGamutMask) (by decide +kernel) hm)
    | exact Has.cellNext (by decide) (Has.sub (a := State.lampGamutMask) (by decide +kernel) hm)
    | exact Has.ite (Has.sub (a := State.lampGamutMask) (by decide +kernel) hm) (Has.sub (a := State.lampGamutMask) (by decide +kernel) hm)
    | exact .inr (fun _ => rfl)
    | (intro _; rfl)
    | (intro _; simp; done)
    | (simp; assumption)
    | (refine .inr (fun _ => ?_); simp; done)
    | (refine .inr (fun _ => ?_); (repeat' split) <;> first | rfl | (simp; done))
    | (simp; done)

def State.lampRatioMask : Nat :=
  State.lampStickMask ||| rbit R.LMP_RATIO ||| rbit R.LMP_LSTAT

theorem State.lampRatio_touch {msk : Nat} {s0 : State} {s : State} {l : Nat} {r : Rat} (hk : Touch msk s0 s) (hm : Sub State.lampRatioMask msk) :
    Touch msk s0 (State.lampRatio s l r) := by
  unfold State.lampRatio
  try dsimp only
  repeat' (with_reducible first
    | assumption
    | exact Touch.refl
    | intro _
    | apply Touch.setReg
    | apply State.lampStick_touch
    | apply State.setFlag_touch
    | apply Touch.ite
    | apply Touch.setReg
    | split)
  all_goals with_reducible first
    | exact .inr rfl
    | exact Sub.trans (b := State.lampRatioMask) (by decide +kernel) hm
    | exact Has.sub (a := State.lampRatioMask) (by decide +kernel) hm
    | exact .inl (Has.sub (a := State.lampRatioMask) (by decide +kernel) hm)
    | exact Has.at (by decide) (Has.sub (a := State.lampRatioMask) (by decide +kernel) hm)
    | exact Has.cell (by decide) (Has.sub (a := State.lampRatioMask) (by decide +kernel) hm)
    | exact Has.cellNext (by decide) (Has.sub (a := State.lampRatioMask) (by decide +kernel) hm)
    | exact Has.ite (Has.sub (a := State.lampRatioMask) (by decide +kernel) hm) (Has.sub (a := State.lampRatioMask) (by decide +kernel) hm)
    | exact .inr (fun _ => rfl)
    | (intro _; rfl)
    | (intro _; simp; done)
    | (simp; assumption)
    | (refine .inr (fun _ => ?_); simp; done)
    | (refine .inr (fun _ => ?_); (repeat' split) <;> first | rfl | (simp; done))
    | (simp; done)

def State.lampDriveMask : Nat :=
  State.lampStickMask ||| State.setDriveMask ||| rbit R.LMP_LSTAT

theorem State.lampDrive_touch {msk : Nat} {s0 : State} {s : State} {l : Nat} {dark : Bool} {fr : List Rat} (hk : Touch msk s0 s) (hm : Sub State.lampDriveMask msk) :
    Touch msk s0 (State.lampDrive s l dark fr) := by
  unfold State.lampDrive
  try dsimp only
  repeat' (with_reducible first
    | assumption
    | exact Touch.refl
    | intro _
    | apply State.lampStick_touch
    | apply State.setDrive_touch
    | apply State.setFlag_touch
    | apply Touch.ite
    | apply Touch.foldl
    | apply Touch.foldlFst
    | split)
  all_goals with_reducible first
    | exact .inr rfl
    | exact Sub.trans (b := State.lampDriveMask) (by decide +kernel) hm
    | exact Has.sub (a := State.lampDriveMask) (by decide +kernel) hm
    | exact .inl (Has.sub (a := State.lampDriveMask) (by decide +kernel) hm)
    | exact Has.at (by decide) (Has.sub (a := State.lampDriveMask) (by decide +kernel) hm)
    | exact Has.cell (by decide) (Has.sub (a := State.lampDriveMask) (by decide +kernel) hm)
    | exact Has.cellNext (by decide) (Has.sub (a := State.lampDriveMask) (by decide +kernel) hm)
    | exact Has.ite (Has.sub (a := State.lampDriveMask) (by decide +kernel) hm) (Has.sub (a := State.lampDriveMask) (by decide +kernel) hm)
    | exact .inr (fun _ => rfl)
    | (intro _; rfl)
    | (intro _; simp; done)
    | (simp; assumption)
    | (refine .inr (fun _ => ?_); simp; done)
    | (refine .inr (fun _ => ?_); (repeat' split) <;> first | rfl | (simp; done))
    | (simp; done)

def State.solveLampMask : Nat :=
  State.lampToldMask ||| State.lampGamutMask ||| State.lampRatioMask ||| State.lampDriveMask ||| State.solvedMask
    ||| State.fractionsMask

theorem State.solveLamp_touch {msk : Nat} {s0 : State} {s : State} {l : Nat} {x : Shown} (hk : Touch msk s0 s) (hm : Sub State.solveLampMask msk) :
    Touch msk s0 (State.solveLamp s l x) := by
  unfold State.solveLamp
  try dsimp only
  repeat' (with_reducible first
    | assumption
    | exact Touch.refl
    | intro _
    | apply State.lampTold_touch
    | apply State.lampGamut_touch
    | apply State.lampRatio_touch
    | apply State.lampDrive_touch
    | apply State.solved_touch
    | apply State.fractions_touch
    | apply Touch.ite
    | split)
  all_goals with_reducible first
    | exact .inr rfl
    | exact Sub.trans (b := State.solveLampMask) (by decide +kernel) hm
    | exact Has.sub (a := State.solveLampMask) (by decide +kernel) hm
    | exact .inl (Has.sub (a := State.solveLampMask) (by decide +kernel) hm)
    | exact Has.at (by decide) (Has.sub (a := State.solveLampMask) (by decide +kernel) hm)
    | exact Has.cell (by decide) (Has.sub (a := State.solveLampMask) (by decide +kernel) hm)
    | exact Has.cellNext (by decide) (Has.sub (a := State.solveLampMask) (by decide +kernel) hm)
    | exact Has.ite (Has.sub (a := State.solveLampMask) (by decide +kernel) hm) (Has.sub (a := State.solveLampMask) (by decide +kernel) hm)
    | exact .inr (fun _ => rfl)
    | (intro _; rfl)
    | (intro _; simp; done)
    | (simp; assumption)
    | (refine .inr (fun _ => ?_); simp; done)
    | (refine .inr (fun _ => ?_); (repeat' split) <;> first | rfl | (simp; done))
    | (simp; done)

def State.solveMask : Nat :=
  State.setDriveMask ||| State.solveLampMask

theorem State.solve_touch {msk : Nat} {s0 : State} {s : State} {show_ : List Shown} (hk : Touch msk s0 s) (hm : Sub State.solveMask msk) :
    Touch msk s0 (State.solve s show_) := by
  unfold State.solve
  try dsimp only
  repeat' (with_reducible first
    | assumption
    | exact Touch.refl
    | intro _
    | apply Touch.forChans
    | apply State.setDrive_touch
    | apply State.solveLamp_touch
    | apply Touch.ite
    | apply Touch.foldl
    | apply Touch.foldlFst
    | split)
  all_goals with_reducible first
    | exact .inr rfl
    | exact Sub.trans (b := State.solveMask) (by decide +kernel) hm
    | exact Has.sub (a := State.solveMask) (by decide +kernel) hm
    | exact .inl (Has.sub (a := State.solveMask) (by decide +kernel) hm)
    | exact Has.at (by decide) (Has.sub (a := State.solveMask) (by decide +kernel) hm)
    | exact Has.cell (by decide) (Has.sub (a := State.solveMask) (by decide +kernel) hm)
    | exact Has.cellNext (by decide) (Has.sub (a := State.solveMask) (by decide +kernel) hm)
    | exact Has.ite (Has.sub (a := State.solveMask) (by decide +kernel) hm) (Has.sub (a := State.solveMask) (by decide +kernel) hm)
    | exact .inr (fun _ => rfl)
    | (intro _; rfl)
    | (intro _; simp; done)
    | (simp; assumption)
    | (refine .inr (fun _ => ?_); simp; done)
    | (refine .inr (fun _ => ?_); (repeat' split) <;> first | rfl | (simp; done))
    | (simp; done)

end Sys2Proof.Machine
end

