-- ==== Sys2Proof/Laws/TouchFde.lean ====
section
/-! SUPPORT. What each operation of Machine/Fde.lean may change: its mask, and the proof that it changes nothing else. -/

namespace Sys2Proof.Machine

set_option linter.unusedSimpArgs false
set_option Elab.async false

def State.fdeLstickMask : Nat :=
  State.stickMask ||| rbit R.FDE_LSTAT

theorem State.fdeLstick_touch {msk : Nat} {s0 : State} {s : State} {l : Nat} {f : Fld} (hk : Touch msk s0 s) (hm : Sub State.fdeLstickMask msk) :
    Touch msk s0 (State.fdeLstick s l f) := by
  unfold State.fdeLstick
  try dsimp only
  repeat' (with_reducible first
    | assumption
    | exact Touch.refl
    | intro _
    | apply State.stick_touch)
  all_goals with_reducible first
    | exact .inr rfl
    | exact Sub.trans (b := State.fdeLstickMask) (by decide +kernel) hm
    | exact Has.sub (a := State.fdeLstickMask) (by decide +kernel) hm
    | exact .inl (Has.sub (a := State.fdeLstickMask) (by decide +kernel) hm)
    | exact Has.at (by decide) (Has.sub (a := State.fdeLstickMask) (by decide +kernel) hm)
    | exact Has.cell (by decide) (Has.sub (a := State.fdeLstickMask) (by decide +kernel) hm)
    | exact Has.cellNext (by decide) (Has.sub (a := State.fdeLstickMask) (by decide +kernel) hm)
    | exact Has.ite (Has.sub (a := State.fdeLstickMask) (by decide +kernel) hm) (Has.sub (a := State.fdeLstickMask) (by decide +kernel) hm)
    | exact .inr (fun _ => rfl)
    | (intro _; rfl)
    | (intro _; simp; done)
    | (simp; assumption)
    | (refine .inr (fun _ => ?_); simp; done)
    | (refine .inr (fun _ => ?_); (repeat' split) <;> first | rfl | (simp; done))
    | (simp; done)

def State.fdeStickMask : Nat :=
  State.irqMask

theorem State.fdeStick_touch {msk : Nat} {s0 : State} {s : State} {f : Fld} {en : Fld} (hk : Touch msk s0 s) (hm : Sub State.fdeStickMask msk) (hf : Has msk (f.key / 64)) :
    Touch msk s0 (State.fdeStick s f en) := by
  unfold State.fdeStick
  try dsimp only
  repeat' (with_reducible first
    | assumption
    | exact Touch.refl
    | intro _
    | apply State.irq_touch
    | apply State.setFlag_touch
    | apply Touch.ite
    | split)
  all_goals with_reducible first
    | exact .inr rfl
    | exact Sub.trans (b := State.fdeStickMask) (by decide +kernel) hm
    | exact Has.sub (a := State.fdeStickMask) (by decide +kernel) hm
    | exact .inl (Has.sub (a := State.fdeStickMask) (by decide +kernel) hm)
    | exact Has.at (by decide) (Has.sub (a := State.fdeStickMask) (by decide +kernel) hm)
    | exact Has.cell (by decide) (Has.sub (a := State.fdeStickMask) (by decide +kernel) hm)
    | exact Has.cellNext (by decide) (Has.sub (a := State.fdeStickMask) (by decide +kernel) hm)
    | exact Has.ite (Has.sub (a := State.fdeStickMask) (by decide +kernel) hm) (Has.sub (a := State.fdeStickMask) (by decide +kernel) hm)
    | exact .inr (fun _ => rfl)
    | (intro _; rfl)
    | (intro _; simp; done)
    | (simp; assumption)
    | (refine .inr (fun _ => ?_); simp; done)
    | (refine .inr (fun _ => ?_); (repeat' split) <;> first | rfl | (simp; done))
    | (simp; done)

def State.slotEmptyMask : Nat :=
  Part.fde.bit

theorem State.slotEmpty_touch {msk : Nat} {s0 : State} {s : State} {l : Nat} {k : Nat} {w : Nat} (hk : Touch msk s0 s) (hm : Sub State.slotEmptyMask msk) :
    Touch msk s0 (State.slotEmpty s l k w) := by
  unfold State.slotEmpty
  try dsimp only
  repeat' (with_reducible first
    | assumption
    | exact Touch.refl
    | intro _
    | apply Touch.modFlamp
    | apply Touch.ite
    | split)
  all_goals with_reducible first
    | exact .inr rfl
    | exact Sub.trans (b := State.slotEmptyMask) (by decide +kernel) hm
    | exact Has.sub (a := State.slotEmptyMask) (by decide +kernel) hm
    | exact .inl (Has.sub (a := State.slotEmptyMask) (by decide +kernel) hm)
    | exact Has.at (by decide) (Has.sub (a := State.slotEmptyMask) (by decide +kernel) hm)
    | exact Has.cell (by decide) (Has.sub (a := State.slotEmptyMask) (by decide +kernel) hm)
    | exact Has.cellNext (by decide) (Has.sub (a := State.slotEmptyMask) (by decide +kernel) hm)
    | exact Has.ite (Has.sub (a := State.slotEmptyMask) (by decide +kernel) hm) (Has.sub (a := State.slotEmptyMask) (by decide +kernel) hm)
    | exact .inr (fun _ => rfl)
    | (intro _; rfl)
    | (intro _; simp; done)
    | (simp; assumption)
    | (refine .inr (fun _ => ?_); simp; done)
    | (refine .inr (fun _ => ?_); (repeat' split) <;> first | rfl | (simp; done))
    | (simp; done)

def State.slotWriteMask : Nat :=
  State.fdeLstickMask ||| Part.fde.bit

theorem State.slotWrite_touch {msk : Nat} {s0 : State} {s : State} {l : Nat} {k : Nat} {q : LampReq} (hk : Touch msk s0 s) (hm : Sub State.slotWriteMask msk) :
    Touch msk s0 (State.slotWrite s l k q).1 := by
  unfold State.slotWrite
  try dsimp only
  repeat' (with_reducible first
    | assumption
    | exact Touch.refl
    | intro _
    | apply Touch.modFlamp
    | apply State.fdeLstick_touch
    | (refine Touch.ofEq (by assumption) ?_)
    | apply Touch.ite
    | split)
  all_goals with_reducible first
    | exact .inr rfl
    | exact Sub.trans (b := State.slotWriteMask) (by decide +kernel) hm
    | exact Has.sub (a := State.slotWriteMask) (by decide +kernel) hm
    | exact .inl (Has.sub (a := State.slotWriteMask) (by decide +kernel) hm)
    | exact Has.at (by decide) (Has.sub (a := State.slotWriteMask) (by decide +kernel) hm)
    | exact Has.cell (by decide) (Has.sub (a := State.slotWriteMask) (by decide +kernel) hm)
    | exact Has.cellNext (by decide) (Has.sub (a := State.slotWriteMask) (by decide +kernel) hm)
    | exact Has.ite (Has.sub (a := State.slotWriteMask) (by decide +kernel) hm) (Has.sub (a := State.slotWriteMask) (by decide +kernel) hm)
    | exact .inr (fun _ => rfl)
    | (intro _; rfl)
    | (intro _; simp; done)
    | (simp; assumption)
    | (refine .inr (fun _ => ?_); simp; done)
    | (refine .inr (fun _ => ?_); (repeat' split) <;> first | rfl | (simp; done))
    | (simp; done)

def State.takeLampMask : Nat :=
  State.fdeLstickMask ||| State.slotWriteMask ||| Part.fde.bit

theorem State.takeLamp_touch {msk : Nat} {s0 : State} {s : State} {q : QReq} {l : Nat} {r : LampReq} (hk : Touch msk s0 s) (hm : Sub State.takeLampMask msk) :
    Touch msk s0 (State.takeLamp s q l r).1 := by
  unfold State.takeLamp
  try dsimp only
  repeat' (with_reducible first
    | assumption
    | exact Touch.refl
    | intro _
    | apply Touch.modFlamp
    | apply State.fdeLstick_touch
    | apply State.slotWrite_touch
    | (refine Touch.ofEq (by assumption) ?_)
    | apply Touch.ite
    | split)
  all_goals with_reducible first
    | exact .inr rfl
    | exact Sub.trans (b := State.takeLampMask) (by decide +kernel) hm
    | exact Has.sub (a := State.takeLampMask) (by decide +kernel) hm
    | exact .inl (Has.sub (a := State.takeLampMask) (by decide +kernel) hm)
    | exact Has.at (by decide) (Has.sub (a := State.takeLampMask) (by decide +kernel) hm)
    | exact Has.cell (by decide) (Has.sub (a := State.takeLampMask) (by decide +kernel) hm)
    | exact Has.cellNext (by decide) (Has.sub (a := State.takeLampMask) (by decide +kernel) hm)
    | exact Has.ite (Has.sub (a := State.takeLampMask) (by decide +kernel) hm) (Has.sub (a := State.takeLampMask) (by decide +kernel) hm)
    | exact .inr (fun _ => rfl)
    | (intro _; rfl)
    | (intro _; simp; done)
    | (simp; assumption)
    | (refine .inr (fun _ => ?_); simp; done)
    | (refine .inr (fun _ => ?_); (repeat' split) <;> first | rfl | (simp; done))
    | (simp; done)

def State.answerMask : Nat :=
  State.modPathMask ||| Part.fde.bit

theorem State.answer_touch {msk : Nat} {s0 : State} {s : State} {by_ : Option Path} {reply : Option Reply} {code : Nat} {refm : Nat} {late : Bool} (hk : Touch msk s0 s) (hm : Sub State.answerMask msk) :
    Touch msk s0 (State.answer s by_ reply code refm late) := by
  unfold State.answer
  try dsimp only
  repeat' (with_reducible first
    | assumption
    | exact Touch.refl
    | intro _
    | apply State.modPath_touch
    | apply Touch.modFde
    | (refine Touch.ofEq (by assumption) ?_)
    | apply Touch.ite
    | split)
  all_goals with_reducible first
    | exact .inr rfl
    | exact Sub.trans (b := State.answerMask) (by decide +kernel) hm
    | exact Has.sub (a := State.answerMask) (by decide +kernel) hm
    | exact .inl (Has.sub (a := State.answerMask) (by decide +kernel) hm)
    | exact Has.at (by decide) (Has.sub (a := State.answerMask) (by decide +kernel) hm)
    | exact Has.cell (by decide) (Has.sub (a := State.answerMask) (by decide +kernel) hm)
    | exact Has.cellNext (by decide) (Has.sub (a := State.answerMask) (by decide +kernel) hm)
    | exact Has.ite (Has.sub (a := State.answerMask) (by decide +kernel) hm) (Has.sub (a := State.answerMask) (by decide +kernel) hm)
    | exact .inr (fun _ => rfl)
    | (intro _; rfl)
    | (intro _; simp; done)
    | (simp; assumption)
    | (refine .inr (fun _ => ?_); simp; done)
    | (refine .inr (fun _ => ?_); (repeat' split) <;> first | rfl | (simp; done))
    | (simp; done)

def State.takeReqMask : Nat :=
  State.takeLampMask ||| State.answerMask

theorem State.takeReq_touch {msk : Nat} {s0 : State} {s : State} {q : QReq} (hk : Touch msk s0 s) (hm : Sub State.takeReqMask msk) :
    Touch msk s0 (State.takeReq s q) := by
  unfold State.takeReq
  try dsimp only
  repeat' (with_reducible first
    | assumption
    | exact Touch.refl
    | intro _
    | apply State.takeLamp_touch
    | apply State.answer_touch
    | (refine Touch.ofEq (by assumption) ?_)
    | apply Touch.ite
    | apply Touch.foldl
    | apply Touch.foldlFst
    | split)
  all_goals with_reducible first
    | exact .inr rfl
    | exact Sub.trans (b := State.takeReqMask) (by decide +kernel) hm
    | exact Has.sub (a := State.takeReqMask) (by decide +kernel) hm
    | exact .inl (Has.sub (a := State.takeReqMask) (by decide +kernel) hm)
    | exact Has.at (by decide) (Has.sub (a := State.takeReqMask) (by decide +kernel) hm)
    | exact Has.cell (by decide) (Has.sub (a := State.takeReqMask) (by decide +kernel) hm)
    | exact Has.cellNext (by decide) (Has.sub (a := State.takeReqMask) (by decide +kernel) hm)
    | exact Has.ite (Has.sub (a := State.takeReqMask) (by decide +kernel) hm) (Has.sub (a := State.takeReqMask) (by decide +kernel) hm)
    | exact .inr (fun _ => rfl)
    | (intro _; rfl)
    | (intro _; simp; done)
    | (simp; assumption)
    | (refine .inr (fun _ => ?_); simp; done)
    | (refine .inr (fun _ => ?_); (repeat' split) <;> first | rfl | (simp; done))
    | (simp; done)

def State.requestMask : Nat :=
  Part.fde.bit

theorem State.request_touch {msk : Nat} {s0 : State} {s : State} {q : QReq} (hk : Touch msk s0 s) (hm : Sub State.requestMask msk) :
    Touch msk s0 (State.request s q) := by
  unfold State.request
  try dsimp only
  repeat' (with_reducible first
    | assumption
    | exact Touch.refl
    | intro _
    | apply Touch.modFde
    | (refine Touch.ofEq (by assumption) ?_)
    | split)
  all_goals with_reducible first
    | exact .inr rfl
    | exact Sub.trans (b := State.requestMask) (by decide +kernel) hm
    | exact Has.sub (a := State.requestMask) (by decide +kernel) hm
    | exact .inl (Has.sub (a := State.requestMask) (by decide +kernel) hm)
    | exact Has.at (by decide) (Has.sub (a := State.requestMask) (by decide +kernel) hm)
    | exact Has.cell (by decide) (Has.sub (a := State.requestMask) (by decide +kernel) hm)
    | exact Has.cellNext (by decide) (Has.sub (a := State.requestMask) (by decide +kernel) hm)
    | exact Has.ite (Has.sub (a := State.requestMask) (by decide +kernel) hm) (Has.sub (a := State.requestMask) (by decide +kernel) hm)
    | exact .inr (fun _ => rfl)
    | (intro _; rfl)
    | (intro _; simp; done)
    | (simp; assumption)
    | (refine .inr (fun _ => ?_); simp; done)
    | (refine .inr (fun _ => ?_); (repeat' split) <;> first | rfl | (simp; done))
    | (simp; done)

def State.releaseReqMask : Nat :=
  Part.fde.bit

theorem State.releaseReq_touch {msk : Nat} {s0 : State} {s : State} {lvl : Nat} {mask : Nat} {w : Nat} {by_ : Option Path} {reply : Option Reply} (hk : Touch msk s0 s) (hm : Sub State.releaseReqMask msk) :
    Touch msk s0 (State.releaseReq s lvl mask w by_ reply) := by
  unfold State.releaseReq
  try dsimp only
  repeat' (with_reducible first
    | assumption
    | exact Touch.refl
    | intro _
    | apply Touch.modFde)
  all_goals with_reducible first
    | exact .inr rfl
    | exact Sub.trans (b := State.releaseReqMask) (by decide +kernel) hm
    | exact Has.sub (a := State.releaseReqMask) (by decide +kernel) hm
    | exact .inl (Has.sub (a := State.releaseReqMask) (by decide +kernel) hm)
    | exact Has.at (by decide) (Has.sub (a := State.releaseReqMask) (by decide +kernel) hm)
    | exact Has.cell (by decide) (Has.sub (a := State.releaseReqMask) (by decide +kernel) hm)
    | exact Has.cellNext (by decide) (Has.sub (a := State.releaseReqMask) (by decide +kernel) hm)
    | exact Has.ite (Has.sub (a := State.releaseReqMask) (by decide +kernel) hm) (Has.sub (a := State.releaseReqMask) (by decide +kernel) hm)
    | exact .inr (fun _ => rfl)
    | (intro _; rfl)
    | (intro _; simp; done)
    | (simp; assumption)
    | (refine .inr (fun _ => ?_); simp; done)
    | (refine .inr (fun _ => ?_); (repeat' split) <;> first | rfl | (simp; done))
    | (simp; done)

def State.rcmdMask : Nat :=
  State.modPathMask ||| State.requestMask ||| State.releaseReqMask ||| Part.fde.bit

theorem State.rcmd_touch {msk : Nat} {s0 : State} {s : State} {p : Path} {cmd : Nat} {plate : Nat} (hk : Touch msk s0 s) (hm : Sub State.rcmdMask msk) :
    Touch msk s0 (State.rcmd s p cmd plate) := by
  unfold State.rcmd
  try dsimp only
  repeat' (with_reducible first
    | assumption
    | exact Touch.refl
    | intro _
    | apply State.modPath_touch
    | apply Touch.modFde
    | apply State.request_touch
    | apply State.releaseReq_touch
    | apply Touch.ite
    | split)
  all_goals with_reducible first
    | exact .inr rfl
    | exact Sub.trans (b := State.rcmdMask) (by decide +kernel) hm
    | exact Has.sub (a := State.rcmdMask) (by decide +kernel) hm
    | exact .inl (Has.sub (a := State.rcmdMask) (by decide +kernel) hm)
    | exact Has.at (by decide) (Has.sub (a := State.rcmdMask) (by decide +kernel) hm)
    | exact Has.cell (by decide) (Has.sub (a := State.rcmdMask) (by decide +kernel) hm)
    | exact Has.cellNext (by decide) (Has.sub (a := State.rcmdMask) (by decide +kernel) hm)
    | exact Has.ite (Has.sub (a := State.rcmdMask) (by decide +kernel) hm) (Has.sub (a := State.rcmdMask) (by decide +kernel) hm)
    | exact .inr (fun _ => rfl)
    | (intro _; rfl)
    | (intro _; simp; done)
    | (simp; assumption)
    | (refine .inr (fun _ => ?_); simp; done)
    | (refine .inr (fun _ => ?_); (repeat' split) <;> first | rfl | (simp; done))
    | (simp; done)

def State.plateCheckMask : Nat :=
  State.postMask ||| State.vRefuseMask ||| State.vOperateMask ||| State.fdeStickMask ||| rbit R.FDE_STAT ||| rbit
    R.FDE_IRQEN ||| rbit R.FDE_TERR ||| rbit R.FDE_TERRA

theorem State.plateCheck_touch {msk : Nat} {s0 : State} {s : State} {p : Nat} {ws : List Word} (hk : Touch msk s0 s) (hm : Sub State.plateCheckMask msk) :
    Touch msk s0 (State.plateCheck s p ws) := by
  unfold State.plateCheck
  try dsimp only
  repeat' (with_reducible first
    | assumption
    | exact Touch.refl
    | intro _
    | apply Touch.setReg
    | apply State.post_touch
    | apply State.vRefuse_touch
    | apply State.vOperate_touch
    | apply State.fdeStick_touch
    | (refine Touch.ofEq (by assumption) ?_)
    | apply Touch.ite
    | apply Touch.setReg
    | split)
  all_goals with_reducible first
    | exact .inr rfl
    | exact Sub.trans (b := State.plateCheckMask) (by decide +kernel) hm
    | exact Has.sub (a := State.plateCheckMask) (by decide +kernel) hm
    | exact .inl (Has.sub (a := State.plateCheckMask) (by decide +kernel) hm)
    | exact Has.at (by decide) (Has.sub (a := State.plateCheckMask) (by decide +kernel) hm)
    | exact Has.cell (by decide) (Has.sub (a := State.plateCheckMask) (by decide +kernel) hm)
    | exact Has.cellNext (by decide) (Has.sub (a := State.plateCheckMask) (by decide +kernel) hm)
    | exact Has.ite (Has.sub (a := State.plateCheckMask) (by decide +kernel) hm) (Has.sub (a := State.plateCheckMask) (by decide +kernel) hm)
    | exact .inr (fun _ => rfl)
    | (intro _; rfl)
    | (intro _; simp; done)
    | (simp; assumption)
    | (refine .inr (fun _ => ?_); simp; done)
    | (refine .inr (fun _ => ?_); (repeat' split) <;> first | rfl | (simp; done))
    | (simp; done)

def State.plateWriteMask : Nat :=
  State.plateCheckMask ||| Part.fde.bit

theorem State.plateWrite_touch {msk : Nat} {s0 : State} {s : State} {a : Nat} {v : Word} (hk : Touch msk s0 s) (hm : Sub State.plateWriteMask msk) :
    Touch msk s0 (State.plateWrite s a v) := by
  unfold State.plateWrite
  try dsimp only
  repeat' (with_reducible first
    | assumption
    | exact Touch.refl
    | intro _
    | apply Touch.modFde
    | apply State.plateCheck_touch
    | (refine Touch.ofEq (by assumption) ?_)
    | apply Touch.ite
    | split)
  all_goals with_reducible first
    | exact .inr rfl
    | exact Sub.trans (b := State.plateWriteMask) (by decide +kernel) hm
    | exact Has.sub (a := State.plateWriteMask) (by decide +kernel) hm
    | exact .inl (Has.sub (a := State.plateWriteMask) (by decide +kernel) hm)
    | exact Has.at (by decide) (Has.sub (a := State.plateWriteMask) (by decide +kernel) hm)
    | exact Has.cell (by decide) (Has.sub (a := State.plateWriteMask) (by decide +kernel) hm)
    | exact Has.cellNext (by decide) (Has.sub (a := State.plateWriteMask) (by decide +kernel) hm)
    | exact Has.ite (Has.sub (a := State.plateWriteMask) (by decide +kernel) hm) (Has.sub (a := State.plateWriteMask) (by decide +kernel) hm)
    | exact .inr (fun _ => rfl)
    | (intro _; rfl)
    | (intro _; simp; done)
    | (simp; assumption)
    | (refine .inr (fun _ => ?_); simp; done)
    | (refine .inr (fun _ => ?_); (repeat' split) <;> first | rfl | (simp; done))
    | (simp; done)

def State.fdeOpenMask : Nat :=
  rbit R.FDE_STAT ||| Part.fde.bit

theorem State.fdeOpen_touch {msk : Nat} {s0 : State} {s : State} (hk : Touch msk s0 s) (hm : Sub State.fdeOpenMask msk) :
    Touch msk s0 (State.fdeOpen s) := by
  unfold State.fdeOpen
  try dsimp only
  repeat' (with_reducible first
    | assumption
    | exact Touch.refl
    | intro _
    | apply Touch.modFde
    | apply State.setFlag_touch)
  all_goals with_reducible first
    | exact .inr rfl
    | exact Sub.trans (b := State.fdeOpenMask) (by decide +kernel) hm
    | exact Has.sub (a := State.fdeOpenMask) (by decide +kernel) hm
    | exact .inl (Has.sub (a := State.fdeOpenMask) (by decide +kernel) hm)
    | exact Has.at (by decide) (Has.sub (a := State.fdeOpenMask) (by decide +kernel) hm)
    | exact Has.cell (by decide) (Has.sub (a := State.fdeOpenMask) (by decide +kernel) hm)
    | exact Has.cellNext (by decide) (Has.sub (a := State.fdeOpenMask) (by decide +kernel) hm)
    | exact Has.ite (Has.sub (a := State.fdeOpenMask) (by decide +kernel) hm) (Has.sub (a := State.fdeOpenMask) (by decide +kernel) hm)
    | exact .inr (fun _ => rfl)
    | (intro _; rfl)
    | (intro _; simp; done)
    | (simp; assumption)
    | (refine .inr (fun _ => ?_); simp; done)
    | (refine .inr (fun _ => ?_); (repeat' split) <;> first | rfl | (simp; done))
    | (simp; done)

def State.fdeCloseMask : Nat :=
  State.postMask ||| State.fdeStickMask ||| rbit R.FDE_STAT ||| rbit R.FDE_IRQEN ||| rbit R.FDE_TERR ||| rbit
    R.FDE_TERRA

theorem State.fdeClose_touch {msk : Nat} {s0 : State} {s : State} (hk : Touch msk s0 s) (hm : Sub State.fdeCloseMask msk) :
    Touch msk s0 (State.fdeClose s) := by
  unfold State.fdeClose
  try dsimp only
  repeat' (with_reducible first
    | assumption
    | exact Touch.refl
    | intro _
    | apply Touch.setReg
    | apply State.post_touch
    | apply State.fdeStick_touch
    | apply State.setFlag_touch
    | (refine Touch.ofEq (by assumption) ?_)
    | apply Touch.ite
    | apply Touch.setReg
    | split)
  all_goals with_reducible first
    | exact .inr rfl
    | exact Sub.trans (b := State.fdeCloseMask) (by decide +kernel) hm
    | exact Has.sub (a := State.fdeCloseMask) (by decide +kernel) hm
    | exact .inl (Has.sub (a := State.fdeCloseMask) (by decide +kernel) hm)
    | exact Has.at (by decide) (Has.sub (a := State.fdeCloseMask) (by decide +kernel) hm)
    | exact Has.cell (by decide) (Has.sub (a := State.fdeCloseMask) (by decide +kernel) hm)
    | exact Has.cellNext (by decide) (Has.sub (a := State.fdeCloseMask) (by decide +kernel) hm)
    | exact Has.ite (Has.sub (a := State.fdeCloseMask) (by decide +kernel) hm) (Has.sub (a := State.fdeCloseMask) (by decide +kernel) hm)
    | exact .inr (fun _ => rfl)
    | (intro _; rfl)
    | (intro _; simp; done)
    | (simp; assumption)
    | (refine .inr (fun _ => ?_); simp; done)
    | (refine .inr (fun _ => ?_); (repeat' split) <;> first | rfl | (simp; done))
    | (simp; done)

def State.fdeSwapMask : Nat :=
  rbit R.FDE_STAT ||| Part.fde.bit

theorem State.fdeSwap_touch {msk : Nat} {s0 : State} {s : State} (hk : Touch msk s0 s) (hm : Sub State.fdeSwapMask msk) :
    Touch msk s0 (State.fdeSwap s) := by
  unfold State.fdeSwap
  try dsimp only
  repeat' (with_reducible first
    | assumption
    | exact Touch.refl
    | intro _
    | apply Touch.modFde
    | apply State.setFlag_touch
    | apply Touch.ite
    | split)
  all_goals with_reducible first
    | exact .inr rfl
    | exact Sub.trans (b := State.fdeSwapMask) (by decide +kernel) hm
    | exact Has.sub (a := State.fdeSwapMask) (by decide +kernel) hm
    | exact .inl (Has.sub (a := State.fdeSwapMask) (by decide +kernel) hm)
    | exact Has.at (by decide) (Has.sub (a := State.fdeSwapMask) (by decide +kernel) hm)
    | exact Has.cell (by decide) (Has.sub (a := State.fdeSwapMask) (by decide +kernel) hm)
    | exact Has.cellNext (by decide) (Has.sub (a := State.fdeSwapMask) (by decide +kernel) hm)
    | exact Has.ite (Has.sub (a := State.fdeSwapMask) (by decide +kernel) hm) (Has.sub (a := State.fdeSwapMask) (by decide +kernel) hm)
    | exact .inr (fun _ => rfl)
    | (intro _; rfl)
    | (intro _; simp; done)
    | (simp; assumption)
    | (refine .inr (fun _ => ?_); simp; done)
    | (refine .inr (fun _ => ?_); (repeat' split) <;> first | rfl | (simp; done))
    | (simp; done)

def State.minuteEvalMask : Nat :=
  State.requestMask

theorem State.minuteEval_touch {msk : Nat} {s0 : State} {s : State} {m : Int} (hk : Touch msk s0 s) (hm : Sub State.minuteEvalMask msk) :
    Touch msk s0 (State.minuteEval s m) := by
  unfold State.minuteEval
  try dsimp only
  repeat' (with_reducible first
    | assumption
    | exact Touch.refl
    | intro _
    | apply State.request_touch
    | apply Touch.ite
    | apply Touch.foldl
    | apply Touch.foldlFst
    | split)
  all_goals with_reducible first
    | exact .inr rfl
    | exact Sub.trans (b := State.minuteEvalMask) (by decide +kernel) hm
    | exact Has.sub (a := State.minuteEvalMask) (by decide +kernel) hm
    | exact .inl (Has.sub (a := State.minuteEvalMask) (by decide +kernel) hm)
    | exact Has.at (by decide) (Has.sub (a := State.minuteEvalMask) (by decide +kernel) hm)
    | exact Has.cell (by decide) (Has.sub (a := State.minuteEvalMask) (by decide +kernel) hm)
    | exact Has.cellNext (by decide) (Has.sub (a := State.minuteEvalMask) (by decide +kernel) hm)
    | exact Has.ite (Has.sub (a := State.minuteEvalMask) (by decide +kernel) hm) (Has.sub (a := State.minuteEvalMask) (by decide +kernel) hm)
    | exact .inr (fun _ => rfl)
    | (intro _; rfl)
    | (intro _; simp; done)
    | (simp; assumption)
    | (refine .inr (fun _ => ?_); simp; done)
    | (refine .inr (fun _ => ?_); (repeat' split) <;> first | rfl | (simp; done))
    | (simp; done)

theorem State.minutesEval_touch {msk : Nat} {s0 : State} {s : State} {m : Int} {n : Nat} (hk : Touch msk s0 s)
    (hm : Sub State.minuteEvalMask msk) : Touch msk s0 (State.minutesEval s m n) := by
  induction n generalizing s m with
  | zero => exact hk
  | succ n ih => exact ih (State.minuteEval_touch hk hm)

def State.minutesDueMask : Nat :=
  State.minuteEvalMask ||| Part.fde.bit

theorem State.minutesDue_touch {msk : Nat} {s0 : State} {s : State} (hk : Touch msk s0 s) (hm : Sub State.minutesDueMask msk) :
    Touch msk s0 (State.minutesDue s) := by
  unfold State.minutesDue
  try dsimp only
  repeat' (with_reducible first
    | assumption
    | exact Touch.refl
    | intro _
    | apply Touch.modFde
    | apply State.minutesEval_touch
    | (refine Touch.ofEq (by assumption) ?_)
    | apply Touch.ite
    | split)
  all_goals with_reducible first
    | exact .inr rfl
    | exact Sub.trans (b := State.minutesDueMask) (by decide +kernel) hm
    | exact Has.sub (a := State.minutesDueMask) (by decide +kernel) hm
    | exact .inl (Has.sub (a := State.minutesDueMask) (by decide +kernel) hm)
    | exact Has.at (by decide) (Has.sub (a := State.minutesDueMask) (by decide +kernel) hm)
    | exact Has.cell (by decide) (Has.sub (a := State.minutesDueMask) (by decide +kernel) hm)
    | exact Has.cellNext (by decide) (Has.sub (a := State.minutesDueMask) (by decide +kernel) hm)
    | exact Has.ite (Has.sub (a := State.minutesDueMask) (by decide +kernel) hm) (Has.sub (a := State.minutesDueMask) (by decide +kernel) hm)
    | exact .inr (fun _ => rfl)
    | (intro _; rfl)
    | (intro _; simp; done)
    | (simp; assumption)
    | (refine .inr (fun _ => ?_); simp; done)
    | (refine .inr (fun _ => ?_); (repeat' split) <;> first | rfl | (simp; done))
    | (simp; done)

def State.scheduleReplayMask : Nat :=
  State.postMask ||| State.requestMask

theorem State.scheduleReplay_touch {msk : Nat} {s0 : State} {s : State} (hk : Touch msk s0 s) (hm : Sub State.scheduleReplayMask msk) :
    Touch msk s0 (State.scheduleReplay s) := by
  unfold State.scheduleReplay
  try dsimp only
  repeat' (with_reducible first
    | assumption
    | exact Touch.refl
    | intro _
    | apply State.post_touch
    | apply State.request_touch
    | (refine Touch.ofEq (by assumption) ?_)
    | apply Touch.ite
    | split)
  all_goals with_reducible first
    | exact .inr rfl
    | exact Sub.trans (b := State.scheduleReplayMask) (by decide +kernel) hm
    | exact Has.sub (a := State.scheduleReplayMask) (by decide +kernel) hm
    | exact .inl (Has.sub (a := State.scheduleReplayMask) (by decide +kernel) hm)
    | exact Has.at (by decide) (Has.sub (a := State.scheduleReplayMask) (by decide +kernel) hm)
    | exact Has.cell (by decide) (Has.sub (a := State.scheduleReplayMask) (by decide +kernel) hm)
    | exact Has.cellNext (by decide) (Has.sub (a := State.scheduleReplayMask) (by decide +kernel) hm)
    | exact Has.ite (Has.sub (a := State.scheduleReplayMask) (by decide +kernel) hm) (Has.sub (a := State.scheduleReplayMask) (by decide +kernel) hm)
    | exact .inr (fun _ => rfl)
    | (intro _; rfl)
    | (intro _; simp; done)
    | (simp; assumption)
    | (refine .inr (fun _ => ?_); simp; done)
    | (refine .inr (fun _ => ?_); (repeat' split) <;> first | rfl | (simp; done))
    | (simp; done)

def State.tvalidSetMask : Nat :=
  rbit R.FDE_STAT

theorem State.tvalidSet_touch {msk : Nat} {s0 : State} {s : State} (hk : Touch msk s0 s) (hm : Sub State.tvalidSetMask msk) :
    Touch msk s0 (State.tvalidSet s) := by
  unfold State.tvalidSet
  try dsimp only
  repeat' (with_reducible first
    | assumption
    | exact Touch.refl
    | intro _
    | apply State.setFlag_touch
    | apply Touch.ite
    | split)
  all_goals with_reducible first
    | exact .inr rfl
    | exact Sub.trans (b := State.tvalidSetMask) (by decide +kernel) hm
    | exact Has.sub (a := State.tvalidSetMask) (by decide +kernel) hm
    | exact .inl (Has.sub (a := State.tvalidSetMask) (by decide +kernel) hm)
    | exact Has.at (by decide) (Has.sub (a := State.tvalidSetMask) (by decide +kernel) hm)
    | exact Has.cell (by decide) (Has.sub (a := State.tvalidSetMask) (by decide +kernel) hm)
    | exact Has.cellNext (by decide) (Has.sub (a := State.tvalidSetMask) (by decide +kernel) hm)
    | exact Has.ite (Has.sub (a := State.tvalidSetMask) (by decide +kernel) hm) (Has.sub (a := State.tvalidSetMask) (by decide +kernel) hm)
    | exact .inr (fun _ => rfl)
    | (intro _; rfl)
    | (intro _; simp; done)
    | (simp; assumption)
    | (refine .inr (fun _ => ?_); simp; done)
    | (refine .inr (fun _ => ?_); (repeat' split) <;> first | rfl | (simp; done))
    | (simp; done)

def State.scheduleTickMask : Nat :=
  State.modTimMask ||| State.minutesDueMask ||| State.scheduleReplayMask ||| State.tvalidSetMask ||| Part.fde.bit

theorem State.scheduleTick_touch {msk : Nat} {s0 : State} {s : State} (hk : Touch msk s0 s) (hm : Sub State.scheduleTickMask msk) :
    Touch msk s0 (State.scheduleTick s) := by
  unfold State.scheduleTick
  try dsimp only
  repeat' (with_reducible first
    | assumption
    | exact Touch.refl
    | intro _
    | apply State.modTim_touch
    | apply Touch.modFde
    | apply State.minutesDue_touch
    | apply State.scheduleReplay_touch
    | apply State.tvalidSet_touch
    | apply Touch.ite
    | split)
  all_goals with_reducible first
    | exact .inr rfl
    | exact Sub.trans (b := State.scheduleTickMask) (by decide +kernel) hm
    | exact Has.sub (a := State.scheduleTickMask) (by decide +kernel) hm
    | exact .inl (Has.sub (a := State.scheduleTickMask) (by decide +kernel) hm)
    | exact Has.at (by decide) (Has.sub (a := State.scheduleTickMask) (by decide +kernel) hm)
    | exact Has.cell (by decide) (Has.sub (a := State.scheduleTickMask) (by decide +kernel) hm)
    | exact Has.cellNext (by decide) (Has.sub (a := State.scheduleTickMask) (by decide +kernel) hm)
    | exact Has.ite (Has.sub (a := State.scheduleTickMask) (by decide +kernel) hm) (Has.sub (a := State.scheduleTickMask) (by decide +kernel) hm)
    | exact .inr (fun _ => rfl)
    | (intro _; rfl)
    | (intro _; simp; done)
    | (simp; assumption)
    | (refine .inr (fun _ => ?_); simp; done)
    | (refine .inr (fun _ => ?_); (repeat' split) <;> first | rfl | (simp; done))
    | (simp; done)

def State.ruleFireMask : Nat :=
  State.fdeLstickMask ||| Part.fde.bit

theorem State.ruleFire_touch {msk : Nat} {s0 : State} {s : State} {e : NetEvent} {r : Nat} (hk : Touch msk s0 s) (hm : Sub State.ruleFireMask msk) :
    Touch msk s0 (State.ruleFire s e r) := by
  unfold State.ruleFire
  try dsimp only
  repeat' (with_reducible first
    | assumption
    | exact Touch.refl
    | intro _
    | apply Touch.modFde
    | apply State.fdeLstick_touch
    | (refine Touch.ofEq (by assumption) ?_)
    | apply Touch.ite
    | apply Touch.foldl
    | apply Touch.foldlFst
    | split)
  all_goals with_reducible first
    | exact .inr rfl
    | exact Sub.trans (b := State.ruleFireMask) (by decide +kernel) hm
    | exact Has.sub (a := State.ruleFireMask) (by decide +kernel) hm
    | exact .inl (Has.sub (a := State.ruleFireMask) (by decide +kernel) hm)
    | exact Has.at (by decide) (Has.sub (a := State.ruleFireMask) (by decide +kernel) hm)
    | exact Has.cell (by decide) (Has.sub (a := State.ruleFireMask) (by decide +kernel) hm)
    | exact Has.cellNext (by decide) (Has.sub (a := State.ruleFireMask) (by decide +kernel) hm)
    | exact Has.ite (Has.sub (a := State.ruleFireMask) (by decide +kernel) hm) (Has.sub (a := State.ruleFireMask) (by decide +kernel) hm)
    | exact .inr (fun _ => rfl)
    | (intro _; rfl)
    | (intro _; simp; done)
    | (simp; assumption)
    | (refine .inr (fun _ => ?_); simp; done)
    | (refine .inr (fun _ => ?_); (repeat' split) <;> first | rfl | (simp; done))
    | (simp; done)

def State.rulesTickMask : Nat :=
  State.ruleFireMask ||| Part.fde.bit

theorem State.rulesTick_touch {msk : Nat} {s0 : State} {s : State} (hk : Touch msk s0 s) (hm : Sub State.rulesTickMask msk) :
    Touch msk s0 (State.rulesTick s) := by
  unfold State.rulesTick
  try dsimp only
  repeat' (with_reducible first
    | assumption
    | exact Touch.refl
    | intro _
    | apply Touch.modFde
    | apply State.ruleFire_touch
    | apply Touch.ite
    | apply Touch.foldl
    | apply Touch.foldlFst
    | split)
  all_goals with_reducible first
    | exact .inr rfl
    | exact Sub.trans (b := State.rulesTickMask) (by decide +kernel) hm
    | exact Has.sub (a := State.rulesTickMask) (by decide +kernel) hm
    | exact .inl (Has.sub (a := State.rulesTickMask) (by decide +kernel) hm)
    | exact Has.at (by decide) (Has.sub (a := State.rulesTickMask) (by decide +kernel) hm)
    | exact Has.cell (by decide) (Has.sub (a := State.rulesTickMask) (by decide +kernel) hm)
    | exact Has.cellNext (by decide) (Has.sub (a := State.rulesTickMask) (by decide +kernel) hm)
    | exact Has.ite (Has.sub (a := State.rulesTickMask) (by decide +kernel) hm) (Has.sub (a := State.rulesTickMask) (by decide +kernel) hm)
    | exact .inr (fun _ => rfl)
    | (intro _; rfl)
    | (intro _; simp; done)
    | (simp; assumption)
    | (refine .inr (fun _ => ?_); simp; done)
    | (refine .inr (fun _ => ?_); (repeat' split) <;> first | rfl | (simp; done))
    | (simp; done)

def State.ruleHoldEndMask : Nat :=
  State.slotEmptyMask

theorem State.ruleHoldEnd_touch {msk : Nat} {s0 : State} {s : State} {r : Nat} (hk : Touch msk s0 s) (hm : Sub State.ruleHoldEndMask msk) :
    Touch msk s0 (State.ruleHoldEnd s r) := by
  unfold State.ruleHoldEnd
  try dsimp only
  repeat' (with_reducible first
    | assumption
    | exact Touch.refl
    | intro _
    | apply State.slotEmpty_touch
    | (refine Touch.ofEq (by assumption) ?_)
    | apply Touch.ite
    | apply Touch.foldl
    | apply Touch.foldlFst
    | split)
  all_goals with_reducible first
    | exact .inr rfl
    | exact Sub.trans (b := State.ruleHoldEndMask) (by decide +kernel) hm
    | exact Has.sub (a := State.ruleHoldEndMask) (by decide +kernel) hm
    | exact .inl (Has.sub (a := State.ruleHoldEndMask) (by decide +kernel) hm)
    | exact Has.at (by decide) (Has.sub (a := State.ruleHoldEndMask) (by decide +kernel) hm)
    | exact Has.cell (by decide) (Has.sub (a := State.ruleHoldEndMask) (by decide +kernel) hm)
    | exact Has.cellNext (by decide) (Has.sub (a := State.ruleHoldEndMask) (by decide +kernel) hm)
    | exact Has.ite (Has.sub (a := State.ruleHoldEndMask) (by decide +kernel) hm) (Has.sub (a := State.ruleHoldEndMask) (by decide +kernel) hm)
    | exact .inr (fun _ => rfl)
    | (intro _; rfl)
    | (intro _; simp; done)
    | (simp; assumption)
    | (refine .inr (fun _ => ?_); simp; done)
    | (refine .inr (fun _ => ?_); (repeat' split) <;> first | rfl | (simp; done))
    | (simp; done)

def State.holdEndMask : Nat :=
  State.slotEmptyMask

theorem State.holdEnd_touch {msk : Nat} {s0 : State} {s : State} {l : Nat} {k : Nat} (hk : Touch msk s0 s) (hm : Sub State.holdEndMask msk) :
    Touch msk s0 (State.holdEnd s l k) := by
  unfold State.holdEnd
  try dsimp only
  repeat' (with_reducible first
    | assumption
    | exact Touch.refl
    | intro _
    | apply State.slotEmpty_touch
    | (refine Touch.ofEq (by assumption) ?_)
    | apply Touch.ite
    | split)
  all_goals with_reducible first
    | exact .inr rfl
    | exact Sub.trans (b := State.holdEndMask) (by decide +kernel) hm
    | exact Has.sub (a := State.holdEndMask) (by decide +kernel) hm
    | exact .inl (Has.sub (a := State.holdEndMask) (by decide +kernel) hm)
    | exact Has.at (by decide) (Has.sub (a := State.holdEndMask) (by decide +kernel) hm)
    | exact Has.cell (by decide) (Has.sub (a := State.holdEndMask) (by decide +kernel) hm)
    | exact Has.cellNext (by decide) (Has.sub (a := State.holdEndMask) (by decide +kernel) hm)
    | exact Has.ite (Has.sub (a := State.holdEndMask) (by decide +kernel) hm) (Has.sub (a := State.holdEndMask) (by decide +kernel) hm)
    | exact .inr (fun _ => rfl)
    | (intro _; rfl)
    | (intro _; simp; done)
    | (simp; assumption)
    | (refine .inr (fun _ => ?_); simp; done)
    | (refine .inr (fun _ => ?_); (repeat' split) <;> first | rfl | (simp; done))
    | (simp; done)

def State.gestureActMask : Nat :=
  State.postMask ||| State.requestMask ||| State.releaseReqMask

theorem State.gestureAct_touch {msk : Nat} {s0 : State} {s : State} {n : Nat} (hk : Touch msk s0 s) (hm : Sub State.gestureActMask msk) :
    Touch msk s0 (State.gestureAct s n) := by
  unfold State.gestureAct
  try dsimp only
  repeat' (with_reducible first
    | assumption
    | exact Touch.refl
    | intro _
    | apply State.post_touch
    | apply State.request_touch
    | apply State.releaseReq_touch
    | (refine Touch.ofEq (by assumption) ?_)
    | apply Touch.ite
    | split)
  all_goals with_reducible first
    | exact .inr rfl
    | exact Sub.trans (b := State.gestureActMask) (by decide +kernel) hm
    | exact Has.sub (a := State.gestureActMask) (by decide +kernel) hm
    | exact .inl (Has.sub (a := State.gestureActMask) (by decide +kernel) hm)
    | exact Has.at (by decide) (Has.sub (a := State.gestureActMask) (by decide +kernel) hm)
    | exact Has.cell (by decide) (Has.sub (a := State.gestureActMask) (by decide +kernel) hm)
    | exact Has.cellNext (by decide) (Has.sub (a := State.gestureActMask) (by decide +kernel) hm)
    | exact Has.ite (Has.sub (a := State.gestureActMask) (by decide +kernel) hm) (Has.sub (a := State.gestureActMask) (by decide +kernel) hm)
    | exact .inr (fun _ => rfl)
    | (intro _; rfl)
    | (intro _; simp; done)
    | (simp; assumption)
    | (refine .inr (fun _ => ?_); simp; done)
    | (refine .inr (fun _ => ?_); (repeat' split) <;> first | rfl | (simp; done))
    | (simp; done)

def State.lossEnterMask : Nat :=
  State.postMask ||| State.fdeStickMask ||| State.requestMask ||| rbit R.FDE_STAT ||| rbit R.FDE_IRQEN |||
    Part.fde.bit

theorem State.lossEnter_touch {msk : Nat} {s0 : State} {s : State} (hk : Touch msk s0 s) (hm : Sub State.lossEnterMask msk) :
    Touch msk s0 (State.lossEnter s) := by
  unfold State.lossEnter
  try dsimp only
  repeat' (with_reducible first
    | assumption
    | exact Touch.refl
    | intro _
    | apply State.post_touch
    | apply Touch.modFde
    | apply State.fdeStick_touch
    | apply State.request_touch
    | apply State.setFlag_touch
    | apply Touch.ite
    | split)
  all_goals with_reducible first
    | exact .inr rfl
    | exact Sub.trans (b := State.lossEnterMask) (by decide +kernel) hm
    | exact Has.sub (a := State.lossEnterMask) (by decide +kernel) hm
    | exact .inl (Has.sub (a := State.lossEnterMask) (by decide +kernel) hm)
    | exact Has.at (by decide) (Has.sub (a := State.lossEnterMask) (by decide +kernel) hm)
    | exact Has.cell (by decide) (Has.sub (a := State.lossEnterMask) (by decide +kernel) hm)
    | exact Has.cellNext (by decide) (Has.sub (a := State.lossEnterMask) (by decide +kernel) hm)
    | exact Has.ite (Has.sub (a := State.lossEnterMask) (by decide +kernel) hm) (Has.sub (a := State.lossEnterMask) (by decide +kernel) hm)
    | exact .inr (fun _ => rfl)
    | (intro _; rfl)
    | (intro _; simp; done)
    | (simp; assumption)
    | (refine .inr (fun _ => ?_); simp; done)
    | (refine .inr (fun _ => ?_); (repeat' split) <;> first | rfl | (simp; done))
    | (simp; done)

def State.lossExitMask : Nat :=
  State.postMask ||| State.fdeStickMask ||| State.releaseReqMask ||| rbit R.FDE_STAT ||| rbit R.FDE_IRQEN |||
    Part.fde.bit

theorem State.lossExit_touch {msk : Nat} {s0 : State} {s : State} (hk : Touch msk s0 s) (hm : Sub State.lossExitMask msk) :
    Touch msk s0 (State.lossExit s) := by
  unfold State.lossExit
  try dsimp only
  repeat' (with_reducible first
    | assumption
    | exact Touch.refl
    | intro _
    | apply State.post_touch
    | apply Touch.modFde
    | apply State.fdeStick_touch
    | apply State.releaseReq_touch
    | apply State.setFlag_touch
    | apply Touch.ite
    | split)
  all_goals with_reducible first
    | exact .inr rfl
    | exact Sub.trans (b := State.lossExitMask) (by decide +kernel) hm
    | exact Has.sub (a := State.lossExitMask) (by decide +kernel) hm
    | exact .inl (Has.sub (a := State.lossExitMask) (by decide +kernel) hm)
    | exact Has.at (by decide) (Has.sub (a := State.lossExitMask) (by decide +kernel) hm)
    | exact Has.cell (by decide) (Has.sub (a := State.lossExitMask) (by decide +kernel) hm)
    | exact Has.cellNext (by decide) (Has.sub (a := State.lossExitMask) (by decide +kernel) hm)
    | exact Has.ite (Has.sub (a := State.lossExitMask) (by decide +kernel) hm) (Has.sub (a := State.lossExitMask) (by decide +kernel) hm)
    | exact .inr (fun _ => rfl)
    | (intro _; rfl)
    | (intro _; simp; done)
    | (simp; assumption)
    | (refine .inr (fun _ => ?_); simp; done)
    | (refine .inr (fun _ => ?_); (repeat' split) <;> first | rfl | (simp; done))
    | (simp; done)

def State.powerOnMask : Nat :=
  State.postMask ||| State.modKeepMask ||| State.slotWriteMask ||| Part.drops.bit ||| Part.fde.bit

theorem State.powerOn_touch {msk : Nat} {s0 : State} {s : State} {ret : Bool} {short : Bool} (hk : Touch msk s0 s) (hm : Sub State.powerOnMask msk) :
    Touch msk s0 (State.powerOn s ret short) := by
  unfold State.powerOn
  try dsimp only
  repeat' (with_reducible first
    | assumption
    | exact Touch.refl
    | intro _
    | apply State.post_touch
    | apply State.modKeep_touch
    | apply Touch.modFde
    | apply Touch.modFlamp
    | apply State.slotWrite_touch
    | (refine Touch.ofEq (by assumption) ?_)
    | apply Touch.ite
    | apply Touch.foldl
    | apply Touch.foldlFst
    | split)
  all_goals with_reducible first
    | exact .inr rfl
    | exact Sub.trans (b := State.powerOnMask) (by decide +kernel) hm
    | exact Has.sub (a := State.powerOnMask) (by decide +kernel) hm
    | exact .inl (Has.sub (a := State.powerOnMask) (by decide +kernel) hm)
    | exact Has.at (by decide) (Has.sub (a := State.powerOnMask) (by decide +kernel) hm)
    | exact Has.cell (by decide) (Has.sub (a := State.powerOnMask) (by decide +kernel) hm)
    | exact Has.cellNext (by decide) (Has.sub (a := State.powerOnMask) (by decide +kernel) hm)
    | exact Has.ite (Has.sub (a := State.powerOnMask) (by decide +kernel) hm) (Has.sub (a := State.powerOnMask) (by decide +kernel) hm)
    | exact .inr (fun _ => rfl)
    | (intro _; rfl)
    | (intro _; simp; done)
    | (simp; assumption)
    | (refine .inr (fun _ => ?_); simp; done)
    | (refine .inr (fun _ => ?_); (repeat' split) <;> first | rfl | (simp; done))
    | (simp; done)

def State.tickReleasesMask : Nat :=
  State.slotEmptyMask ||| State.answerMask ||| Part.fde.bit

theorem State.tickReleases_touch {msk : Nat} {s0 : State} {s : State} (hk : Touch msk s0 s) (hm : Sub State.tickReleasesMask msk) :
    Touch msk s0 (State.tickReleases s) := by
  unfold State.tickReleases
  try dsimp only
  repeat' (with_reducible first
    | assumption
    | exact Touch.refl
    | intro _
    | apply Touch.modFde
    | apply State.slotEmpty_touch
    | apply State.answer_touch
    | apply Touch.foldl
    | apply Touch.foldlFst)
  all_goals with_reducible first
    | exact .inr rfl
    | exact Sub.trans (b := State.tickReleasesMask) (by decide +kernel) hm
    | exact Has.sub (a := State.tickReleasesMask) (by decide +kernel) hm
    | exact .inl (Has.sub (a := State.tickReleasesMask) (by decide +kernel) hm)
    | exact Has.at (by decide) (Has.sub (a := State.tickReleasesMask) (by decide +kernel) hm)
    | exact Has.cell (by decide) (Has.sub (a := State.tickReleasesMask) (by decide +kernel) hm)
    | exact Has.cellNext (by decide) (Has.sub (a := State.tickReleasesMask) (by decide +kernel) hm)
    | exact Has.ite (Has.sub (a := State.tickReleasesMask) (by decide +kernel) hm) (Has.sub (a := State.tickReleasesMask) (by decide +kernel) hm)
    | exact .inr (fun _ => rfl)
    | (intro _; rfl)
    | (intro _; simp; done)
    | (simp; assumption)
    | (refine .inr (fun _ => ?_); simp; done)
    | (refine .inr (fun _ => ?_); (repeat' split) <;> first | rfl | (simp; done))
    | (simp; done)

def State.tickPendingMask : Nat :=
  State.slotWriteMask ||| Part.fde.bit

theorem State.tickPending_touch {msk : Nat} {s0 : State} {s : State} (hk : Touch msk s0 s) (hm : Sub State.tickPendingMask msk) :
    Touch msk s0 (State.tickPending s) := by
  unfold State.tickPending
  try dsimp only
  repeat' (with_reducible first
    | assumption
    | exact Touch.refl
    | intro _
    | apply Touch.modFlamp
    | apply State.slotWrite_touch
    | (refine Touch.ofEq (by assumption) ?_)
    | apply Touch.ite
    | apply Touch.foldl
    | apply Touch.foldlFst
    | split)
  all_goals with_reducible first
    | exact .inr rfl
    | exact Sub.trans (b := State.tickPendingMask) (by decide +kernel) hm
    | exact Has.sub (a := State.tickPendingMask) (by decide +kernel) hm
    | exact .inl (Has.sub (a := State.tickPendingMask) (by decide +kernel) hm)
    | exact Has.at (by decide) (Has.sub (a := State.tickPendingMask) (by decide +kernel) hm)
    | exact Has.cell (by decide) (Has.sub (a := State.tickPendingMask) (by decide +kernel) hm)
    | exact Has.cellNext (by decide) (Has.sub (a := State.tickPendingMask) (by decide +kernel) hm)
    | exact Has.ite (Has.sub (a := State.tickPendingMask) (by decide +kernel) hm) (Has.sub (a := State.tickPendingMask) (by decide +kernel) hm)
    | exact .inr (fun _ => rfl)
    | (intro _; rfl)
    | (intro _; simp; done)
    | (simp; assumption)
    | (refine .inr (fun _ => ?_); simp; done)
    | (refine .inr (fun _ => ?_); (repeat' split) <;> first | rfl | (simp; done))
    | (simp; done)

def State.tickRequestsMask : Nat :=
  State.takeReqMask ||| Part.fde.bit

theorem State.tickRequests_touch {msk : Nat} {s0 : State} {s : State} (hk : Touch msk s0 s) (hm : Sub State.tickRequestsMask msk) :
    Touch msk s0 (State.tickRequests s) := by
  unfold State.tickRequests
  try dsimp only
  repeat' (with_reducible first
    | assumption
    | exact Touch.refl
    | intro _
    | apply Touch.modFde
    | apply State.takeReq_touch
    | apply Touch.foldl
    | apply Touch.foldlFst)
  all_goals with_reducible first
    | exact .inr rfl
    | exact Sub.trans (b := State.tickRequestsMask) (by decide +kernel) hm
    | exact Has.sub (a := State.tickRequestsMask) (by decide +kernel) hm
    | exact .inl (Has.sub (a := State.tickRequestsMask) (by decide +kernel) hm)
    | exact Has.at (by decide) (Has.sub (a := State.tickRequestsMask) (by decide +kernel) hm)
    | exact Has.cell (by decide) (Has.sub (a := State.tickRequestsMask) (by decide +kernel) hm)
    | exact Has.cellNext (by decide) (Has.sub (a := State.tickRequestsMask) (by decide +kernel) hm)
    | exact Has.ite (Has.sub (a := State.tickRequestsMask) (by decide +kernel) hm) (Has.sub (a := State.tickRequestsMask) (by decide +kernel) hm)
    | exact .inr (fun _ => rfl)
    | (intro _; rfl)
    | (intro _; simp; done)
    | (simp; assumption)
    | (refine .inr (fun _ => ?_); simp; done)
    | (refine .inr (fun _ => ?_); (repeat' split) <;> first | rfl | (simp; done))
    | (simp; done)

def State.tickShowMask : Nat :=
  rbit R.FDE_PROG ||| rbit R.FDE_TGTB ||| Part.fde.bit

theorem State.tickShow_touch {msk : Nat} {s0 : State} {s : State} {l : Nat} (hk : Touch msk s0 s) (hm : Sub State.tickShowMask msk) :
    Touch msk s0 (State.tickShow s l) := by
  unfold State.tickShow
  try dsimp only
  repeat' (with_reducible first
    | assumption
    | exact Touch.refl
    | intro _
    | apply Touch.setReg
    | apply Touch.modFlamp
    | (refine Touch.ofEq (by assumption) ?_)
    | apply Touch.ite
    | apply Touch.setReg
    | split)
  all_goals with_reducible first
    | exact .inr rfl
    | exact Sub.trans (b := State.tickShowMask) (by decide +kernel) hm
    | exact Has.sub (a := State.tickShowMask) (by decide +kernel) hm
    | exact .inl (Has.sub (a := State.tickShowMask) (by decide +kernel) hm)
    | exact Has.at (by decide) (Has.sub (a := State.tickShowMask) (by decide +kernel) hm)
    | exact Has.cell (by decide) (Has.sub (a := State.tickShowMask) (by decide +kernel) hm)
    | exact Has.cellNext (by decide) (Has.sub (a := State.tickShowMask) (by decide +kernel) hm)
    | exact Has.ite (Has.sub (a := State.tickShowMask) (by decide +kernel) hm) (Has.sub (a := State.tickShowMask) (by decide +kernel) hm)
    | exact .inr (fun _ => rfl)
    | (intro _; rfl)
    | (intro _; simp; done)
    | (simp; assumption)
    | (refine .inr (fun _ => ?_); simp; done)
    | (refine .inr (fun _ => ?_); (repeat' split) <;> first | rfl | (simp; done))
    | (simp; done)

def State.keepShownMask : Nat :=
  State.modKeepMask

theorem State.keepShown_touch {msk : Nat} {s0 : State} {s : State} (hk : Touch msk s0 s) (hm : Sub State.keepShownMask msk) :
    Touch msk s0 (State.keepShown s) := by
  unfold State.keepShown
  try dsimp only
  repeat' (with_reducible first
    | assumption
    | exact Touch.refl
    | intro _
    | apply State.modKeep_touch)
  all_goals with_reducible first
    | exact .inr rfl
    | exact Sub.trans (b := State.keepShownMask) (by decide +kernel) hm
    | exact Has.sub (a := State.keepShownMask) (by decide +kernel) hm
    | exact .inl (Has.sub (a := State.keepShownMask) (by decide +kernel) hm)
    | exact Has.at (by decide) (Has.sub (a := State.keepShownMask) (by decide +kernel) hm)
    | exact Has.cell (by decide) (Has.sub (a := State.keepShownMask) (by decide +kernel) hm)
    | exact Has.cellNext (by decide) (Has.sub (a := State.keepShownMask) (by decide +kernel) hm)
    | exact Has.ite (Has.sub (a := State.keepShownMask) (by decide +kernel) hm) (Has.sub (a := State.keepShownMask) (by decide +kernel) hm)
    | exact .inr (fun _ => rfl)
    | (intro _; rfl)
    | (intro _; simp; done)
    | (simp; assumption)
    | (refine .inr (fun _ => ?_); simp; done)
    | (refine .inr (fun _ => ?_); (repeat' split) <;> first | rfl | (simp; done))
    | (simp; done)

def State.fdeTickMask : Nat :=
  State.scheduleTickMask ||| State.rulesTickMask ||| State.tickReleasesMask ||| State.tickPendingMask |||
    State.tickRequestsMask ||| State.tickShowMask ||| State.keepShownMask

theorem State.fdeTick_touch {msk : Nat} {s0 : State} {s : State} (hk : Touch msk s0 s) (hm : Sub State.fdeTickMask msk) :
    Touch msk s0 (State.fdeTick s) := by
  unfold State.fdeTick
  try dsimp only
  repeat' (with_reducible first
    | assumption
    | exact Touch.refl
    | intro _
    | apply State.scheduleTick_touch
    | apply State.rulesTick_touch
    | apply State.tickReleases_touch
    | apply State.tickPending_touch
    | apply State.tickRequests_touch
    | apply State.tickShow_touch
    | apply State.keepShown_touch
    | apply Touch.foldl
    | apply Touch.foldlFst)
  all_goals with_reducible first
    | exact .inr rfl
    | exact Sub.trans (b := State.fdeTickMask) (by decide +kernel) hm
    | exact Has.sub (a := State.fdeTickMask) (by decide +kernel) hm
    | exact .inl (Has.sub (a := State.fdeTickMask) (by decide +kernel) hm)
    | exact Has.at (by decide) (Has.sub (a := State.fdeTickMask) (by decide +kernel) hm)
    | exact Has.cell (by decide) (Has.sub (a := State.fdeTickMask) (by decide +kernel) hm)
    | exact Has.cellNext (by decide) (Has.sub (a := State.fdeTickMask) (by decide +kernel) hm)
    | exact Has.ite (Has.sub (a := State.fdeTickMask) (by decide +kernel) hm) (Has.sub (a := State.fdeTickMask) (by decide +kernel) hm)
    | exact .inr (fun _ => rfl)
    | (intro _; rfl)
    | (intro _; simp; done)
    | (simp; assumption)
    | (refine .inr (fun _ => ?_); simp; done)
    | (refine .inr (fun _ => ?_); (repeat' split) <;> first | rfl | (simp; done))
    | (simp; done)

end Sys2Proof.Machine
end

