-- ==== Sys2Proof/Laws/TouchHlt.lean ====
section
/-! SUPPORT. What each operation of Machine/Hlt.lean may change: its mask, and the proof that it changes nothing else. -/

namespace Sys2Proof.Machine

set_option linter.unusedSimpArgs false
set_option Elab.async false

theorem ntcKey_has {msk k : Nat} (h0 : Has msk (R.HLT_NTC0 / 64)) (h1 : Has msk (R.HLT_NTC1 / 64))
    (h2 : Has msk (R.HLT_NTC2 / 64)) (h3 : Has msk (R.HLT_NTC3 / 64)) : Has msk ((R.HLT_NTC0 + 64 * (k % 4)) / 64) := by
  rcases (show k % 4 = 0 ∨ k % 4 = 1 ∨ k % 4 = 2 ∨ k % 4 = 3 by omega) with h | h | h | h <;> rw [h]
  · exact h0
  · exact h1
  · exact h2
  · exact h3


def State.hltStickMask : Nat :=
  State.stickMask ||| rbit R.HLT_STAT

theorem State.hltStick_touch {msk : Nat} {s0 : State} {s : State} {f : Fld} (hk : Touch msk s0 s) (hm : Sub State.hltStickMask msk) :
    Touch msk s0 (State.hltStick s f) := by
  unfold State.hltStick
  try dsimp only
  repeat' (with_reducible first
    | assumption
    | exact Touch.refl
    | intro _
    | apply State.stick_touch)
  all_goals with_reducible first
    | exact .inr rfl
    | exact Sub.trans (b := State.hltStickMask) (by decide +kernel) hm
    | exact Has.sub (a := State.hltStickMask) (by decide +kernel) hm
    | exact .inl (Has.sub (a := State.hltStickMask) (by decide +kernel) hm)
    | exact Has.at (by decide) (Has.sub (a := State.hltStickMask) (by decide +kernel) hm)
    | exact Has.cell (by decide) (Has.sub (a := State.hltStickMask) (by decide +kernel) hm)
    | exact Has.cellNext (by decide) (Has.sub (a := State.hltStickMask) (by decide +kernel) hm)
    | exact Has.ite (Has.sub (a := State.hltStickMask) (by decide +kernel) hm) (Has.sub (a := State.hltStickMask) (by decide +kernel) hm)
    | exact .inr (fun _ => rfl)
    | (intro _; rfl)
    | (intro _; simp; done)
    | (simp; assumption)
    | (refine .inr (fun _ => ?_); simp; done)
    | (refine .inr (fun _ => ?_); (repeat' split) <;> first | rfl | (simp; done))
    | (simp; done)

def State.hltOpenMask : Nat :=
  rbit R.HLT_STAT ||| Part.hlt.bit

theorem State.hltOpen_touch {msk : Nat} {s0 : State} {s : State} (hk : Touch msk s0 s) (hm : Sub State.hltOpenMask msk) :
    Touch msk s0 (State.hltOpen s) := by
  unfold State.hltOpen
  try dsimp only
  repeat' (with_reducible first
    | assumption
    | exact Touch.refl
    | intro _
    | apply Touch.modHlt
    | apply State.setFlag_touch)
  all_goals with_reducible first
    | exact .inr rfl
    | exact Sub.trans (b := State.hltOpenMask) (by decide +kernel) hm
    | exact Has.sub (a := State.hltOpenMask) (by decide +kernel) hm
    | exact .inl (Has.sub (a := State.hltOpenMask) (by decide +kernel) hm)
    | exact Has.at (by decide) (Has.sub (a := State.hltOpenMask) (by decide +kernel) hm)
    | exact Has.cell (by decide) (Has.sub (a := State.hltOpenMask) (by decide +kernel) hm)
    | exact Has.cellNext (by decide) (Has.sub (a := State.hltOpenMask) (by decide +kernel) hm)
    | exact Has.ite (Has.sub (a := State.hltOpenMask) (by decide +kernel) hm) (Has.sub (a := State.hltOpenMask) (by decide +kernel) hm)
    | exact .inr (fun _ => rfl)
    | (intro _; rfl)
    | (intro _; simp; done)
    | (simp; assumption)
    | (refine .inr (fun _ => ?_); simp; done)
    | (refine .inr (fun _ => ?_); (repeat' split) <;> first | rfl | (simp; done))
    | (simp; done)

def State.hltCloseMask : Nat :=
  State.hltStickMask ||| rbit R.HLT_STAT ||| rbit R.HLT_TERR

theorem State.hltClose_touch {msk : Nat} {s0 : State} {s : State} (hk : Touch msk s0 s) (hm : Sub State.hltCloseMask msk) :
    Touch msk s0 (State.hltClose s) := by
  unfold State.hltClose
  try dsimp only
  repeat' (with_reducible first
    | assumption
    | exact Touch.refl
    | intro _
    | apply Touch.setReg
    | apply State.hltStick_touch
    | apply State.setFlag_touch
    | (refine Touch.ofEq (by assumption) ?_)
    | apply Touch.ite
    | apply Touch.setReg
    | split)
  all_goals with_reducible first
    | exact .inr rfl
    | exact Sub.trans (b := State.hltCloseMask) (by decide +kernel) hm
    | exact Has.sub (a := State.hltCloseMask) (by decide +kernel) hm
    | exact .inl (Has.sub (a := State.hltCloseMask) (by decide +kernel) hm)
    | exact Has.at (by decide) (Has.sub (a := State.hltCloseMask) (by decide +kernel) hm)
    | exact Has.cell (by decide) (Has.sub (a := State.hltCloseMask) (by decide +kernel) hm)
    | exact Has.cellNext (by decide) (Has.sub (a := State.hltCloseMask) (by decide +kernel) hm)
    | exact Has.ite (Has.sub (a := State.hltCloseMask) (by decide +kernel) hm) (Has.sub (a := State.hltCloseMask) (by decide +kernel) hm)
    | exact .inr (fun _ => rfl)
    | (intro _; rfl)
    | (intro _; simp; done)
    | (simp; assumption)
    | (refine .inr (fun _ => ?_); simp; done)
    | (refine .inr (fun _ => ?_); (repeat' split) <;> first | rfl | (simp; done))
    | (simp; done)

def State.hltSwapMask : Nat :=
  rbit R.HLT_STAT ||| Part.hlt.bit

theorem State.hltSwap_touch {msk : Nat} {s0 : State} {s : State} (hk : Touch msk s0 s) (hm : Sub State.hltSwapMask msk) :
    Touch msk s0 (State.hltSwap s) := by
  unfold State.hltSwap
  try dsimp only
  repeat' (with_reducible first
    | assumption
    | exact Touch.refl
    | intro _
    | apply Touch.modHlt
    | apply State.setFlag_touch
    | apply Touch.ite
    | split)
  all_goals with_reducible first
    | exact .inr rfl
    | exact Sub.trans (b := State.hltSwapMask) (by decide +kernel) hm
    | exact Has.sub (a := State.hltSwapMask) (by decide +kernel) hm
    | exact .inl (Has.sub (a := State.hltSwapMask) (by decide +kernel) hm)
    | exact Has.at (by decide) (Has.sub (a := State.hltSwapMask) (by decide +kernel) hm)
    | exact Has.cell (by decide) (Has.sub (a := State.hltSwapMask) (by decide +kernel) hm)
    | exact Has.cellNext (by decide) (Has.sub (a := State.hltSwapMask) (by decide +kernel) hm)
    | exact Has.ite (Has.sub (a := State.hltSwapMask) (by decide +kernel) hm) (Has.sub (a := State.hltSwapMask) (by decide +kernel) hm)
    | exact .inr (fun _ => rfl)
    | (intro _; rfl)
    | (intro _; simp; done)
    | (simp; assumption)
    | (refine .inr (fun _ => ?_); simp; done)
    | (refine .inr (fun _ => ?_); (repeat' split) <;> first | rfl | (simp; done))
    | (simp; done)

def State.proofDropMask : Nat :=
  rbit R.HLT_PRFACT ||| Part.hlt.bit ||| Part.pwm.bit

theorem State.proofDrop_touch {msk : Nat} {s0 : State} {s : State} {n : Nat} (hk : Touch msk s0 s) (hm : Sub State.proofDropMask msk) :
    Touch msk s0 (State.proofDrop s n) := by
  unfold State.proofDrop
  try dsimp only
  repeat' (with_reducible first
    | assumption
    | exact Touch.refl
    | intro _
    | apply Touch.modChan
    | apply Touch.modHchan
    | apply State.setBit_touch)
  all_goals with_reducible first
    | exact .inr rfl
    | exact Sub.trans (b := State.proofDropMask) (by decide +kernel) hm
    | exact Has.sub (a := State.proofDropMask) (by decide +kernel) hm
    | exact .inl (Has.sub (a := State.proofDropMask) (by decide +kernel) hm)
    | exact Has.at (by decide) (Has.sub (a := State.proofDropMask) (by decide +kernel) hm)
    | exact Has.cell (by decide) (Has.sub (a := State.proofDropMask) (by decide +kernel) hm)
    | exact Has.cellNext (by decide) (Has.sub (a := State.proofDropMask) (by decide +kernel) hm)
    | exact Has.ite (Has.sub (a := State.proofDropMask) (by decide +kernel) hm) (Has.sub (a := State.proofDropMask) (by decide +kernel) hm)
    | exact .inr (fun _ => rfl)
    | (intro _; rfl)
    | (intro _; simp; done)
    | (simp; assumption)
    | (refine .inr (fun _ => ?_); simp; done)
    | (refine .inr (fun _ => ?_); (repeat' split) <;> first | rfl | (simp; done))
    | (simp; done)

def State.proofAbandonMask : Nat :=
  State.postMask ||| State.proofDropMask

theorem State.proofAbandon_touch {msk : Nat} {s0 : State} {s : State} {n : Nat} (hk : Touch msk s0 s) (hm : Sub State.proofAbandonMask msk) :
    Touch msk s0 (State.proofAbandon s n) := by
  unfold State.proofAbandon
  try dsimp only
  repeat' (with_reducible first
    | assumption
    | exact Touch.refl
    | intro _
    | apply State.post_touch
    | apply State.proofDrop_touch
    | apply Touch.ite
    | split)
  all_goals with_reducible first
    | exact .inr rfl
    | exact Sub.trans (b := State.proofAbandonMask) (by decide +kernel) hm
    | exact Has.sub (a := State.proofAbandonMask) (by decide +kernel) hm
    | exact .inl (Has.sub (a := State.proofAbandonMask) (by decide +kernel) hm)
    | exact Has.at (by decide) (Has.sub (a := State.proofAbandonMask) (by decide +kernel) hm)
    | exact Has.cell (by decide) (Has.sub (a := State.proofAbandonMask) (by decide +kernel) hm)
    | exact Has.cellNext (by decide) (Has.sub (a := State.proofAbandonMask) (by decide +kernel) hm)
    | exact Has.ite (Has.sub (a := State.proofAbandonMask) (by decide +kernel) hm) (Has.sub (a := State.proofAbandonMask) (by decide +kernel) hm)
    | exact .inr (fun _ => rfl)
    | (intro _; rfl)
    | (intro _; simp; done)
    | (simp; assumption)
    | (refine .inr (fun _ => ?_); simp; done)
    | (refine .inr (fun _ => ?_); (repeat' split) <;> first | rfl | (simp; done))
    | (simp; done)

def State.proofTripsMask : Nat :=
  State.proofAbandonMask

theorem State.proofTrips_touch {msk : Nat} {s0 : State} {s : State} (hk : Touch msk s0 s) (hm : Sub State.proofTripsMask msk) :
    Touch msk s0 (State.proofTrips s) := by
  unfold State.proofTrips
  try dsimp only
  repeat' (with_reducible first
    | assumption
    | exact Touch.refl
    | intro _
    | apply Touch.forChans
    | apply State.proofAbandon_touch
    | apply Touch.ite
    | split)
  all_goals with_reducible first
    | exact .inr rfl
    | exact Sub.trans (b := State.proofTripsMask) (by decide +kernel) hm
    | exact Has.sub (a := State.proofTripsMask) (by decide +kernel) hm
    | exact .inl (Has.sub (a := State.proofTripsMask) (by decide +kernel) hm)
    | exact Has.at (by decide) (Has.sub (a := State.proofTripsMask) (by decide +kernel) hm)
    | exact Has.cell (by decide) (Has.sub (a := State.proofTripsMask) (by decide +kernel) hm)
    | exact Has.cellNext (by decide) (Has.sub (a := State.proofTripsMask) (by decide +kernel) hm)
    | exact Has.ite (Has.sub (a := State.proofTripsMask) (by decide +kernel) hm) (Has.sub (a := State.proofTripsMask) (by decide +kernel) hm)
    | exact .inr (fun _ => rfl)
    | (intro _; rfl)
    | (intro _; simp; done)
    | (simp; assumption)
    | (refine .inr (fun _ => ?_); simp; done)
    | (refine .inr (fun _ => ?_); (repeat' split) <;> first | rfl | (simp; done))
    | (simp; done)

def State.proofAllOffMask : Nat :=
  State.proofAbandonMask

theorem State.proofAllOff_touch {msk : Nat} {s0 : State} {s : State} (hk : Touch msk s0 s) (hm : Sub State.proofAllOffMask msk) :
    Touch msk s0 (State.proofAllOff s) := by
  unfold State.proofAllOff
  try dsimp only
  repeat' (with_reducible first
    | assumption
    | exact Touch.refl
    | intro _
    | apply Touch.forChans
    | apply State.proofAbandon_touch)
  all_goals with_reducible first
    | exact .inr rfl
    | exact Sub.trans (b := State.proofAllOffMask) (by decide +kernel) hm
    | exact Has.sub (a := State.proofAllOffMask) (by decide +kernel) hm
    | exact .inl (Has.sub (a := State.proofAllOffMask) (by decide +kernel) hm)
    | exact Has.at (by decide) (Has.sub (a := State.proofAllOffMask) (by decide +kernel) hm)
    | exact Has.cell (by decide) (Has.sub (a := State.proofAllOffMask) (by decide +kernel) hm)
    | exact Has.cellNext (by decide) (Has.sub (a := State.proofAllOffMask) (by decide +kernel) hm)
    | exact Has.ite (Has.sub (a := State.proofAllOffMask) (by decide +kernel) hm) (Has.sub (a := State.proofAllOffMask) (by decide +kernel) hm)
    | exact .inr (fun _ => rfl)
    | (intro _; rfl)
    | (intro _; simp; done)
    | (simp; assumption)
    | (refine .inr (fun _ => ?_); simp; done)
    | (refine .inr (fun _ => ?_); (repeat' split) <;> first | rfl | (simp; done))
    | (simp; done)

def State.proofStartMask : Nat :=
  rbit R.HLT_PRFACT ||| rbit R.HLT_PRFDEF ||| Part.hlt.bit

theorem State.proofStart_touch {msk : Nat} {s0 : State} {s : State} {n : Nat} {dark : Bool} (hk : Touch msk s0 s) (hm : Sub State.proofStartMask msk) :
    Touch msk s0 (State.proofStart s n dark) := by
  unfold State.proofStart
  try dsimp only
  repeat' (with_reducible first
    | assumption
    | exact Touch.refl
    | intro _
    | apply Touch.modHchan
    | apply State.setBit_touch)
  all_goals with_reducible first
    | exact .inr rfl
    | exact Sub.trans (b := State.proofStartMask) (by decide +kernel) hm
    | exact Has.sub (a := State.proofStartMask) (by decide +kernel) hm
    | exact .inl (Has.sub (a := State.proofStartMask) (by decide +kernel) hm)
    | exact Has.at (by decide) (Has.sub (a := State.proofStartMask) (by decide +kernel) hm)
    | exact Has.cell (by decide) (Has.sub (a := State.proofStartMask) (by decide +kernel) hm)
    | exact Has.cellNext (by decide) (Has.sub (a := State.proofStartMask) (by decide +kernel) hm)
    | exact Has.ite (Has.sub (a := State.proofStartMask) (by decide +kernel) hm) (Has.sub (a := State.proofStartMask) (by decide +kernel) hm)
    | exact .inr (fun _ => rfl)
    | (intro _; rfl)
    | (intro _; simp; done)
    | (simp; assumption)
    | (refine .inr (fun _ => ?_); simp; done)
    | (refine .inr (fun _ => ?_); (repeat' split) <;> first | rfl | (simp; done))
    | (simp; done)

def State.proofRequestMask : Nat :=
  State.postMask ||| State.proofStartMask ||| rbit R.HLT_PRFDEF

theorem State.proofRequest_touch {msk : Nat} {s0 : State} {s : State} {n : Nat} (hk : Touch msk s0 s) (hm : Sub State.proofRequestMask msk) :
    Touch msk s0 (State.proofRequest s n) := by
  unfold State.proofRequest
  try dsimp only
  repeat' (with_reducible first
    | assumption
    | exact Touch.refl
    | intro _
    | apply State.post_touch
    | apply State.proofStart_touch
    | apply State.setBit_touch
    | apply Touch.ite
    | split)
  all_goals with_reducible first
    | exact .inr rfl
    | exact Sub.trans (b := State.proofRequestMask) (by decide +kernel) hm
    | exact Has.sub (a := State.proofRequestMask) (by decide +kernel) hm
    | exact .inl (Has.sub (a := State.proofRequestMask) (by decide +kernel) hm)
    | exact Has.at (by decide) (Has.sub (a := State.proofRequestMask) (by decide +kernel) hm)
    | exact Has.cell (by decide) (Has.sub (a := State.proofRequestMask) (by decide +kernel) hm)
    | exact Has.cellNext (by decide) (Has.sub (a := State.proofRequestMask) (by decide +kernel) hm)
    | exact Has.ite (Has.sub (a := State.proofRequestMask) (by decide +kernel) hm) (Has.sub (a := State.proofRequestMask) (by decide +kernel) hm)
    | exact .inr (fun _ => rfl)
    | (intro _; rfl)
    | (intro _; simp; done)
    | (simp; assumption)
    | (refine .inr (fun _ => ?_); simp; done)
    | (refine .inr (fun _ => ?_); (repeat' split) <;> first | rfl | (simp; done))
    | (simp; done)

def State.proofFirstMask : Nat :=
  State.proofRequestMask ||| Part.hlt.bit

theorem State.proofFirst_touch {msk : Nat} {s0 : State} {s : State} (hk : Touch msk s0 s) (hm : Sub State.proofFirstMask msk) :
    Touch msk s0 (State.proofFirst s) := by
  unfold State.proofFirst
  try dsimp only
  repeat' (with_reducible first
    | assumption
    | exact Touch.refl
    | intro _
    | apply Touch.forChans
    | apply Touch.modHlt
    | apply State.proofRequest_touch
    | apply Touch.ite
    | split)
  all_goals with_reducible first
    | exact .inr rfl
    | exact Sub.trans (b := State.proofFirstMask) (by decide +kernel) hm
    | exact Has.sub (a := State.proofFirstMask) (by decide +kernel) hm
    | exact .inl (Has.sub (a := State.proofFirstMask) (by decide +kernel) hm)
    | exact Has.at (by decide) (Has.sub (a := State.proofFirstMask) (by decide +kernel) hm)
    | exact Has.cell (by decide) (Has.sub (a := State.proofFirstMask) (by decide +kernel) hm)
    | exact Has.cellNext (by decide) (Has.sub (a := State.proofFirstMask) (by decide +kernel) hm)
    | exact Has.ite (Has.sub (a := State.proofFirstMask) (by decide +kernel) hm) (Has.sub (a := State.proofFirstMask) (by decide +kernel) hm)
    | exact .inr (fun _ => rfl)
    | (intro _; rfl)
    | (intro _; simp; done)
    | (simp; assumption)
    | (refine .inr (fun _ => ?_); simp; done)
    | (refine .inr (fun _ => ?_); (repeat' split) <;> first | rfl | (simp; done))
    | (simp; done)

def State.captureMask : Nat :=
  Part.hlt.bit

theorem State.capture_touch {msk : Nat} {s0 : State} {s : State} {n : Nat} {volt : Bool} (hk : Touch msk s0 s) (hm : Sub State.captureMask msk) :
    Touch msk s0 (State.capture s n volt) := by
  unfold State.capture
  try dsimp only
  repeat' (with_reducible first
    | assumption
    | exact Touch.refl
    | intro _
    | apply Touch.modHlt)
  all_goals with_reducible first
    | exact .inr rfl
    | exact Sub.trans (b := State.captureMask) (by decide +kernel) hm
    | exact Has.sub (a := State.captureMask) (by decide +kernel) hm
    | exact .inl (Has.sub (a := State.captureMask) (by decide +kernel) hm)
    | exact Has.at (by decide) (Has.sub (a := State.captureMask) (by decide +kernel) hm)
    | exact Has.cell (by decide) (Has.sub (a := State.captureMask) (by decide +kernel) hm)
    | exact Has.cellNext (by decide) (Has.sub (a := State.captureMask) (by decide +kernel) hm)
    | exact Has.ite (Has.sub (a := State.captureMask) (by decide +kernel) hm) (Has.sub (a := State.captureMask) (by decide +kernel) hm)
    | exact .inr (fun _ => rfl)
    | (intro _; rfl)
    | (intro _; simp; done)
    | (simp; assumption)
    | (refine .inr (fun _ => ?_); simp; done)
    | (refine .inr (fun _ => ?_); (repeat' split) <;> first | rfl | (simp; done))
    | (simp; done)

def State.holdCaptureMask : Nat :=
  State.captureMask ||| Part.hlt.bit

theorem State.holdCapture_touch {msk : Nat} {s0 : State} {s : State} {n : Nat} {volt : Bool} (hk : Touch msk s0 s) (hm : Sub State.holdCaptureMask msk) :
    Touch msk s0 (State.holdCapture s n volt) := by
  unfold State.holdCapture
  try dsimp only
  repeat' (with_reducible first
    | assumption
    | exact Touch.refl
    | intro _
    | apply Touch.modHchan
    | apply State.capture_touch
    | apply Touch.ite
    | split)
  all_goals with_reducible first
    | exact .inr rfl
    | exact Sub.trans (b := State.holdCaptureMask) (by decide +kernel) hm
    | exact Has.sub (a := State.holdCaptureMask) (by decide +kernel) hm
    | exact .inl (Has.sub (a := State.holdCaptureMask) (by decide +kernel) hm)
    | exact Has.at (by decide) (Has.sub (a := State.holdCaptureMask) (by decide +kernel) hm)
    | exact Has.cell (by decide) (Has.sub (a := State.holdCaptureMask) (by decide +kernel) hm)
    | exact Has.cellNext (by decide) (Has.sub (a := State.holdCaptureMask) (by decide +kernel) hm)
    | exact Has.ite (Has.sub (a := State.holdCaptureMask) (by decide +kernel) hm) (Has.sub (a := State.holdCaptureMask) (by decide +kernel) hm)
    | exact .inr (fun _ => rfl)
    | (intro _; rfl)
    | (intro _; simp; done)
    | (simp; assumption)
    | (refine .inr (fun _ => ?_); simp; done)
    | (refine .inr (fun _ => ?_); (repeat' split) <;> first | rfl | (simp; done))
    | (simp; done)

def State.currentCaptureMask : Nat :=
  State.holdCaptureMask ||| Part.pwm.bit

theorem State.currentCapture_touch {msk : Nat} {s0 : State} {s : State} {n : Nat} (hk : Touch msk s0 s) (hm : Sub State.currentCaptureMask msk) :
    Touch msk s0 (State.currentCapture s n) := by
  unfold State.currentCapture
  try dsimp only
  repeat' (with_reducible first
    | assumption
    | exact Touch.refl
    | intro _
    | apply Touch.modChan
    | apply State.holdCapture_touch
    | (refine Touch.ofEq (by assumption) ?_)
    | apply Touch.ite
    | split)
  all_goals with_reducible first
    | exact .inr rfl
    | exact Sub.trans (b := State.currentCaptureMask) (by decide +kernel) hm
    | exact Has.sub (a := State.currentCaptureMask) (by decide +kernel) hm
    | exact .inl (Has.sub (a := State.currentCaptureMask) (by decide +kernel) hm)
    | exact Has.at (by decide) (Has.sub (a := State.currentCaptureMask) (by decide +kernel) hm)
    | exact Has.cell (by decide) (Has.sub (a := State.currentCaptureMask) (by decide +kernel) hm)
    | exact Has.cellNext (by decide) (Has.sub (a := State.currentCaptureMask) (by decide +kernel) hm)
    | exact Has.ite (Has.sub (a := State.currentCaptureMask) (by decide +kernel) hm) (Has.sub (a := State.currentCaptureMask) (by decide +kernel) hm)
    | exact .inr (fun _ => rfl)
    | (intro _; rfl)
    | (intro _; simp; done)
    | (simp; assumption)
    | (refine .inr (fun _ => ?_); simp; done)
    | (refine .inr (fun _ => ?_); (repeat' split) <;> first | rfl | (simp; done))
    | (simp; done)

def State.calibrateMask : Nat :=
  State.postMask ||| State.hltStickMask ||| rbit R.HLT_STAT ||| Part.hlt.bit

theorem State.calibrate_touch {msk : Nat} {s0 : State} {s : State} {raw : BitVec 14} (hk : Touch msk s0 s) (hm : Sub State.calibrateMask msk) :
    Touch msk s0 (State.calibrate s raw) := by
  unfold State.calibrate
  try dsimp only
  repeat' (with_reducible first
    | assumption
    | exact Touch.refl
    | intro _
    | apply State.post_touch
    | apply Touch.modHlt
    | apply State.hltStick_touch
    | apply State.setFlag_touch
    | apply Touch.ite
    | split)
  all_goals with_reducible first
    | exact .inr rfl
    | exact Sub.trans (b := State.calibrateMask) (by decide +kernel) hm
    | exact Has.sub (a := State.calibrateMask) (by decide +kernel) hm
    | exact .inl (Has.sub (a := State.calibrateMask) (by decide +kernel) hm)
    | exact Has.at (by decide) (Has.sub (a := State.calibrateMask) (by decide +kernel) hm)
    | exact Has.cell (by decide) (Has.sub (a := State.calibrateMask) (by decide +kernel) hm)
    | exact Has.cellNext (by decide) (Has.sub (a := State.calibrateMask) (by decide +kernel) hm)
    | exact Has.ite (Has.sub (a := State.calibrateMask) (by decide +kernel) hm) (Has.sub (a := State.calibrateMask) (by decide +kernel) hm)
    | exact .inr (fun _ => rfl)
    | (intro _; rfl)
    | (intro _; simp; done)
    | (simp; assumption)
    | (refine .inr (fun _ => ?_); simp; done)
    | (refine .inr (fun _ => ?_); (repeat' split) <;> first | rfl | (simp; done))
    | (simp; done)

def State.deliverIMask : Nat :=
  State.trimUpdateMask ||| Part.hlt.bit

theorem State.deliverI_touch {msk : Nat} {s0 : State} {s : State} {f : Capture} {code : Int} (hk : Touch msk s0 s) (hm : Sub State.deliverIMask msk) :
    Touch msk s0 (State.deliverI s f code) := by
  unfold State.deliverI
  try dsimp only
  repeat' (with_reducible first
    | assumption
    | exact Touch.refl
    | intro _
    | apply Touch.modHchan
    | apply State.trimUpdate_touch
    | (refine Touch.ofEq (by assumption) ?_)
    | apply Touch.ite
    | split)
  all_goals with_reducible first
    | exact .inr rfl
    | exact Sub.trans (b := State.deliverIMask) (by decide +kernel) hm
    | exact Has.sub (a := State.deliverIMask) (by decide +kernel) hm
    | exact .inl (Has.sub (a := State.deliverIMask) (by decide +kernel) hm)
    | exact Has.at (by decide) (Has.sub (a := State.deliverIMask) (by decide +kernel) hm)
    | exact Has.cell (by decide) (Has.sub (a := State.deliverIMask) (by decide +kernel) hm)
    | exact Has.cellNext (by decide) (Has.sub (a := State.deliverIMask) (by decide +kernel) hm)
    | exact Has.ite (Has.sub (a := State.deliverIMask) (by decide +kernel) hm) (Has.sub (a := State.deliverIMask) (by decide +kernel) hm)
    | exact .inr (fun _ => rfl)
    | (intro _; rfl)
    | (intro _; simp; done)
    | (simp; assumption)
    | (refine .inr (fun _ => ?_); simp; done)
    | (refine .inr (fun _ => ?_); (repeat' split) <;> first | rfl | (simp; done))
    | (simp; done)

def State.deliverVMask : Nat :=
  Part.hlt.bit

theorem State.deliverV_touch {msk : Nat} {s0 : State} {s : State} {x : Capture} {code : Int} (hk : Touch msk s0 s) (hm : Sub State.deliverVMask msk) :
    Touch msk s0 (State.deliverV s x code) := by
  unfold State.deliverV
  try dsimp only
  repeat' (with_reducible first
    | assumption
    | exact Touch.refl
    | intro _
    | apply Touch.modHchan
    | apply Touch.ite
    | split)
  all_goals with_reducible first
    | exact .inr rfl
    | exact Sub.trans (b := State.deliverVMask) (by decide +kernel) hm
    | exact Has.sub (a := State.deliverVMask) (by decide +kernel) hm
    | exact .inl (Has.sub (a := State.deliverVMask) (by decide +kernel) hm)
    | exact Has.at (by decide) (Has.sub (a := State.deliverVMask) (by decide +kernel) hm)
    | exact Has.cell (by decide) (Has.sub (a := State.deliverVMask) (by decide +kernel) hm)
    | exact Has.cellNext (by decide) (Has.sub (a := State.deliverVMask) (by decide +kernel) hm)
    | exact Has.ite (Has.sub (a := State.deliverVMask) (by decide +kernel) hm) (Has.sub (a := State.deliverVMask) (by decide +kernel) hm)
    | exact .inr (fun _ => rfl)
    | (intro _; rfl)
    | (intro _; simp; done)
    | (simp; assumption)
    | (refine .inr (fun _ => ?_); simp; done)
    | (refine .inr (fun _ => ?_); (repeat' split) <;> first | rfl | (simp; done))
    | (simp; done)

def State.capturesCloseMask : Nat :=
  State.deliverIMask ||| Part.hlt.bit

theorem State.capturesClose_touch {msk : Nat} {s0 : State} {s : State} {n : Nat} (hk : Touch msk s0 s) (hm : Sub State.capturesCloseMask msk) :
    Touch msk s0 (State.capturesClose s n) := by
  unfold State.capturesClose
  try dsimp only
  repeat' (with_reducible first
    | assumption
    | exact Touch.refl
    | intro _
    | apply Touch.modHlt
    | apply State.deliverI_touch
    | apply Touch.foldl
    | apply Touch.foldlFst)
  all_goals with_reducible first
    | exact .inr rfl
    | exact Sub.trans (b := State.capturesCloseMask) (by decide +kernel) hm
    | exact Has.sub (a := State.capturesCloseMask) (by decide +kernel) hm
    | exact .inl (Has.sub (a := State.capturesCloseMask) (by decide +kernel) hm)
    | exact Has.at (by decide) (Has.sub (a := State.capturesCloseMask) (by decide +kernel) hm)
    | exact Has.cell (by decide) (Has.sub (a := State.capturesCloseMask) (by decide +kernel) hm)
    | exact Has.cellNext (by decide) (Has.sub (a := State.capturesCloseMask) (by decide +kernel) hm)
    | exact Has.ite (Has.sub (a := State.capturesCloseMask) (by decide +kernel) hm) (Has.sub (a := State.capturesCloseMask) (by decide +kernel) hm)
    | exact .inr (fun _ => rfl)
    | (intro _; rfl)
    | (intro _; simp; done)
    | (simp; assumption)
    | (refine .inr (fun _ => ?_); simp; done)
    | (refine .inr (fun _ => ?_); (repeat' split) <;> first | rfl | (simp; done))
    | (simp; done)

def State.hltPeriodEndMask : Nat :=
  State.capturesCloseMask ||| Part.hlt.bit

theorem State.hltPeriodEnd_touch {msk : Nat} {s0 : State} {s : State} {n : Nat} (hk : Touch msk s0 s) (hm : Sub State.hltPeriodEndMask msk) :
    Touch msk s0 (State.hltPeriodEnd s n) := by
  unfold State.hltPeriodEnd
  try dsimp only
  repeat' (with_reducible first
    | assumption
    | exact Touch.refl
    | intro _
    | apply Touch.modHchan
    | apply State.capturesClose_touch
    | (refine Touch.ofEq (by assumption) ?_)
    | apply Touch.ite
    | split)
  all_goals with_reducible first
    | exact .inr rfl
    | exact Sub.trans (b := State.hltPeriodEndMask) (by decide +kernel) hm
    | exact Has.sub (a := State.hltPeriodEndMask) (by decide +kernel) hm
    | exact .inl (Has.sub (a := State.hltPeriodEndMask) (by decide +kernel) hm)
    | exact Has.at (by decide) (Has.sub (a := State.hltPeriodEndMask) (by decide +kernel) hm)
    | exact Has.cell (by decide) (Has.sub (a := State.hltPeriodEndMask) (by decide +kernel) hm)
    | exact Has.cellNext (by decide) (Has.sub (a := State.hltPeriodEndMask) (by decide +kernel) hm)
    | exact Has.ite (Has.sub (a := State.hltPeriodEndMask) (by decide +kernel) hm) (Has.sub (a := State.hltPeriodEndMask) (by decide +kernel) hm)
    | exact .inr (fun _ => rfl)
    | (intro _; rfl)
    | (intro _; simp; done)
    | (simp; assumption)
    | (refine .inr (fun _ => ?_); simp; done)
    | (refine .inr (fun _ => ?_); (repeat' split) <;> first | rfl | (simp; done))
    | (simp; done)

def State.deliverSchedMask : Nat :=
  State.keepLiveMask ||| rbit R.KEEP_VSTORE ||| rbit R.KEEP_VCELL ||| Part.hlt.bit

theorem State.deliverSched_touch {msk : Nat} {s0 : State} {s : State} {input : Nat} {v : Int} (hk : Touch msk s0 s) (hm : Sub State.deliverSchedMask msk) :
    Touch msk s0 (State.deliverSched s input v) := by
  unfold State.deliverSched
  try dsimp only
  repeat' (with_reducible first
    | assumption
    | exact Touch.refl
    | intro _
    | apply Touch.setReg
    | apply State.keepLive_touch
    | apply Touch.modHlt
    | apply Touch.modHchan
    | apply Touch.ite
    | apply Touch.setReg
    | split)
  all_goals with_reducible first
    | exact .inr rfl
    | exact Sub.trans (b := State.deliverSchedMask) (by decide +kernel) hm
    | exact Has.sub (a := State.deliverSchedMask) (by decide +kernel) hm
    | exact .inl (Has.sub (a := State.deliverSchedMask) (by decide +kernel) hm)
    | exact Has.at (by decide) (Has.sub (a := State.deliverSchedMask) (by decide +kernel) hm)
    | exact Has.cell (by decide) (Has.sub (a := State.deliverSchedMask) (by decide +kernel) hm)
    | exact Has.cellNext (by decide) (Has.sub (a := State.deliverSchedMask) (by decide +kernel) hm)
    | exact Has.ite (Has.sub (a := State.deliverSchedMask) (by decide +kernel) hm) (Has.sub (a := State.deliverSchedMask) (by decide +kernel) hm)
    | exact .inr (fun _ => rfl)
    | (intro _; rfl)
    | (intro _; simp; done)
    | (simp; assumption)
    | (refine .inr (fun _ => ?_); simp; done)
    | (refine .inr (fun _ => ?_); (repeat' split) <;> first | rfl | (simp; done))
    | (simp; done)

def State.pushQ7Mask : Nat :=
  State.irqMask ||| State.hltStickMask ||| Part.q7.bit

theorem State.pushQ7_touch {msk : Nat} {s0 : State} {s : State} {w : Nat} (hk : Touch msk s0 s) (hm : Sub State.pushQ7Mask msk) :
    Touch msk s0 (State.pushQ7 s w) := by
  unfold State.pushQ7
  try dsimp only
  repeat' (with_reducible first
    | assumption
    | exact Touch.refl
    | intro _
    | apply State.irq_touch
    | apply State.hltStick_touch
    | apply Touch.ite
    | (simp only [Touch.mk_iff]; apply TouchMk.intro)
    | split)
  all_goals with_reducible first
    | exact .inr rfl
    | exact Sub.trans (b := State.pushQ7Mask) (by decide +kernel) hm
    | exact Has.sub (a := State.pushQ7Mask) (by decide +kernel) hm
    | exact .inl (Has.sub (a := State.pushQ7Mask) (by decide +kernel) hm)
    | exact Has.at (by decide) (Has.sub (a := State.pushQ7Mask) (by decide +kernel) hm)
    | exact Has.cell (by decide) (Has.sub (a := State.pushQ7Mask) (by decide +kernel) hm)
    | exact Has.cellNext (by decide) (Has.sub (a := State.pushQ7Mask) (by decide +kernel) hm)
    | exact Has.ite (Has.sub (a := State.pushQ7Mask) (by decide +kernel) hm) (Has.sub (a := State.pushQ7Mask) (by decide +kernel) hm)
    | exact .inr (fun _ => rfl)
    | (intro _; rfl)
    | (intro _; simp; done)
    | (simp; assumption)
    | (refine .inr (fun _ => ?_); simp; done)
    | (refine .inr (fun _ => ?_); (repeat' split) <;> first | rfl | (simp; done))
    | (simp; done)

def State.conversionMask : Nat :=
  State.calibrateMask ||| State.deliverIMask ||| State.deliverVMask ||| State.deliverSchedMask ||| State.pushQ7Mask
    ||| Part.hlt.bit

theorem State.conversion_touch {msk : Nat} {s0 : State} {s : State} {raw : BitVec 14} (hk : Touch msk s0 s) (hm : Sub State.conversionMask msk) :
    Touch msk s0 (State.conversion s raw) := by
  unfold State.conversion
  try dsimp only
  repeat' (with_reducible first
    | assumption
    | exact Touch.refl
    | intro _
    | apply Touch.modHlt
    | apply State.calibrate_touch
    | apply State.deliverI_touch
    | apply State.deliverV_touch
    | apply State.deliverSched_touch
    | apply State.pushQ7_touch
    | (refine Touch.ofEq (by assumption) ?_)
    | apply Touch.ite
    | split)
  all_goals with_reducible first
    | exact .inr rfl
    | exact Sub.trans (b := State.conversionMask) (by decide +kernel) hm
    | exact Has.sub (a := State.conversionMask) (by decide +kernel) hm
    | exact .inl (Has.sub (a := State.conversionMask) (by decide +kernel) hm)
    | exact Has.at (by decide) (Has.sub (a := State.conversionMask) (by decide +kernel) hm)
    | exact Has.cell (by decide) (Has.sub (a := State.conversionMask) (by decide +kernel) hm)
    | exact Has.cellNext (by decide) (Has.sub (a := State.conversionMask) (by decide +kernel) hm)
    | exact Has.ite (Has.sub (a := State.conversionMask) (by decide +kernel) hm) (Has.sub (a := State.conversionMask) (by decide +kernel) hm)
    | exact .inr (fun _ => rfl)
    | (intro _; rfl)
    | (intro _; simp; done)
    | (simp; assumption)
    | (refine .inr (fun _ => ?_); simp; done)
    | (refine .inr (fun _ => ?_); (repeat' split) <;> first | rfl | (simp; done))
    | (simp; done)

def State.userStartMask : Nat :=
  State.hltStickMask ||| rbit R.HLT_USCTL ||| Part.hlt.bit

theorem State.userStart_touch {msk : Nat} {s0 : State} {s : State} (hk : Touch msk s0 s) (hm : Sub State.userStartMask msk) :
    Touch msk s0 (State.userStart s) := by
  unfold State.userStart
  try dsimp only
  repeat' (with_reducible first
    | assumption
    | exact Touch.refl
    | intro _
    | apply Touch.modHlt
    | apply State.hltStick_touch
    | apply State.setFlag_touch
    | apply Touch.ite
    | split)
  all_goals with_reducible first
    | exact .inr rfl
    | exact Sub.trans (b := State.userStartMask) (by decide +kernel) hm
    | exact Has.sub (a := State.userStartMask) (by decide +kernel) hm
    | exact .inl (Has.sub (a := State.userStartMask) (by decide +kernel) hm)
    | exact Has.at (by decide) (Has.sub (a := State.userStartMask) (by decide +kernel) hm)
    | exact Has.cell (by decide) (Has.sub (a := State.userStartMask) (by decide +kernel) hm)
    | exact Has.cellNext (by decide) (Has.sub (a := State.userStartMask) (by decide +kernel) hm)
    | exact Has.ite (Has.sub (a := State.userStartMask) (by decide +kernel) hm) (Has.sub (a := State.userStartMask) (by decide +kernel) hm)
    | exact .inr (fun _ => rfl)
    | (intro _; rfl)
    | (intro _; simp; done)
    | (simp; assumption)
    | (refine .inr (fun _ => ?_); simp; done)
    | (refine .inr (fun _ => ?_); (repeat' split) <;> first | rfl | (simp; done))
    | (simp; done)

def State.pushLatestMask : Nat :=
  State.pushQ7Mask

theorem State.pushLatest_touch {msk : Nat} {s0 : State} {s : State} (hk : Touch msk s0 s) (hm : Sub State.pushLatestMask msk) :
    Touch msk s0 (State.pushLatest s) := by
  unfold State.pushLatest
  try dsimp only
  repeat' (with_reducible first
    | assumption
    | exact Touch.refl
    | intro _
    | apply State.pushQ7_touch)
  all_goals with_reducible first
    | exact .inr rfl
    | exact Sub.trans (b := State.pushLatestMask) (by decide +kernel) hm
    | exact Has.sub (a := State.pushLatestMask) (by decide +kernel) hm
    | exact .inl (Has.sub (a := State.pushLatestMask) (by decide +kernel) hm)
    | exact Has.at (by decide) (Has.sub (a := State.pushLatestMask) (by decide +kernel) hm)
    | exact Has.cell (by decide) (Has.sub (a := State.pushLatestMask) (by decide +kernel) hm)
    | exact Has.cellNext (by decide) (Has.sub (a := State.pushLatestMask) (by decide +kernel) hm)
    | exact Has.ite (Has.sub (a := State.pushLatestMask) (by decide +kernel) hm) (Has.sub (a := State.pushLatestMask) (by decide +kernel) hm)
    | exact .inr (fun _ => rfl)
    | (intro _; rfl)
    | (intro _; simp; done)
    | (simp; assumption)
    | (refine .inr (fun _ => ?_); simp; done)
    | (refine .inr (fun _ => ?_); (repeat' split) <;> first | rfl | (simp; done))
    | (simp; done)

def State.userEndMask : Nat :=
  State.pulseMask ||| rbit R.HLT_USCTL

theorem State.userEnd_touch {msk : Nat} {s0 : State} {s : State} (hk : Touch msk s0 s) (hm : Sub State.userEndMask msk) :
    Touch msk s0 (State.userEnd s) := by
  unfold State.userEnd
  try dsimp only
  repeat' (with_reducible first
    | assumption
    | exact Touch.refl
    | intro _
    | apply State.pulse_touch
    | apply State.setFlag_touch
    | apply Touch.ite
    | split)
  all_goals with_reducible first
    | exact .inr rfl
    | exact Sub.trans (b := State.userEndMask) (by decide +kernel) hm
    | exact Has.sub (a := State.userEndMask) (by decide +kernel) hm
    | exact .inl (Has.sub (a := State.userEndMask) (by decide +kernel) hm)
    | exact Has.at (by decide) (Has.sub (a := State.userEndMask) (by decide +kernel) hm)
    | exact Has.cell (by decide) (Has.sub (a := State.userEndMask) (by decide +kernel) hm)
    | exact Has.cellNext (by decide) (Has.sub (a := State.userEndMask) (by decide +kernel) hm)
    | exact Has.ite (Has.sub (a := State.userEndMask) (by decide +kernel) hm) (Has.sub (a := State.userEndMask) (by decide +kernel) hm)
    | exact .inr (fun _ => rfl)
    | (intro _; rfl)
    | (intro _; simp; done)
    | (simp; assumption)
    | (refine .inr (fun _ => ?_); simp; done)
    | (refine .inr (fun _ => ?_); (repeat' split) <;> first | rfl | (simp; done))
    | (simp; done)

def State.slotStartMask : Nat :=
  Part.hlt.bit

theorem State.slotStart_touch {msk : Nat} {s0 : State} {s : State} {n : Nat} (hk : Touch msk s0 s) (hm : Sub State.slotStartMask msk) :
    Touch msk s0 (State.slotStart s n) := by
  unfold State.slotStart
  try dsimp only
  repeat' (with_reducible first
    | assumption
    | exact Touch.refl
    | intro _
    | apply Touch.modHchan
    | (refine Touch.ofEq (by assumption) ?_)
    | apply Touch.ite
    | split)
  all_goals with_reducible first
    | exact .inr rfl
    | exact Sub.trans (b := State.slotStartMask) (by decide +kernel) hm
    | exact Has.sub (a := State.slotStartMask) (by decide +kernel) hm
    | exact .inl (Has.sub (a := State.slotStartMask) (by decide +kernel) hm)
    | exact Has.at (by decide) (Has.sub (a := State.slotStartMask) (by decide +kernel) hm)
    | exact Has.cell (by decide) (Has.sub (a := State.slotStartMask) (by decide +kernel) hm)
    | exact Has.cellNext (by decide) (Has.sub (a := State.slotStartMask) (by decide +kernel) hm)
    | exact Has.ite (Has.sub (a := State.slotStartMask) (by decide +kernel) hm) (Has.sub (a := State.slotStartMask) (by decide +kernel) hm)
    | exact .inr (fun _ => rfl)
    | (intro _; rfl)
    | (intro _; simp; done)
    | (simp; assumption)
    | (refine .inr (fun _ => ?_); simp; done)
    | (refine .inr (fun _ => ?_); (repeat' split) <;> first | rfl | (simp; done))
    | (simp; done)

def State.dimStartMask : Nat :=
  State.dimChannelMask ||| State.proofStartMask ||| Part.hlt.bit ||| Part.pwm.bit

theorem State.dimStart_touch {msk : Nat} {s0 : State} {s : State} {n : Nat} {m : Nat} (hk : Touch msk s0 s) (hm : Sub State.dimStartMask msk) :
    Touch msk s0 (State.dimStart s n m) := by
  unfold State.dimStart
  try dsimp only
  repeat' (with_reducible first
    | assumption
    | exact Touch.refl
    | intro _
    | apply Touch.modChan
    | apply Touch.modHchan
    | apply State.dimChannel_touch
    | apply State.proofStart_touch
    | (refine Touch.ofEq (by assumption) ?_)
    | apply Touch.ite
    | split)
  all_goals with_reducible first
    | exact .inr rfl
    | exact Sub.trans (b := State.dimStartMask) (by decide +kernel) hm
    | exact Has.sub (a := State.dimStartMask) (by decide +kernel) hm
    | exact .inl (Has.sub (a := State.dimStartMask) (by decide +kernel) hm)
    | exact Has.at (by decide) (Has.sub (a := State.dimStartMask) (by decide +kernel) hm)
    | exact Has.cell (by decide) (Has.sub (a := State.dimStartMask) (by decide +kernel) hm)
    | exact Has.cellNext (by decide) (Has.sub (a := State.dimStartMask) (by decide +kernel) hm)
    | exact Has.ite (Has.sub (a := State.dimStartMask) (by decide +kernel) hm) (Has.sub (a := State.dimStartMask) (by decide +kernel) hm)
    | exact .inr (fun _ => rfl)
    | (intro _; rfl)
    | (intro _; simp; done)
    | (simp; assumption)
    | (refine .inr (fun _ => ?_); simp; done)
    | (refine .inr (fun _ => ?_); (repeat' split) <;> first | rfl | (simp; done))
    | (simp; done)

def State.modelTakeMask : Nat :=
  rbit R.HLT_V0 ||| rbit R.HLT_R ||| rbit R.HLT_KT ||| rbit R.HLT_MDL ||| Part.hlt.bit

theorem State.modelTake_touch {msk : Nat} {s0 : State} {s : State} {n : Nat} {p : List Byte} (hk : Touch msk s0 s) (hm : Sub State.modelTakeMask msk) :
    Touch msk s0 (State.modelTake s n p) := by
  unfold State.modelTake
  try dsimp only
  repeat' (with_reducible first
    | assumption
    | exact Touch.refl
    | intro _
    | apply Touch.setReg
    | apply Touch.modHchan
    | apply Touch.ite
    | apply Touch.setReg
    | split)
  all_goals with_reducible first
    | exact .inr rfl
    | exact Sub.trans (b := State.modelTakeMask) (by decide +kernel) hm
    | exact Has.sub (a := State.modelTakeMask) (by decide +kernel) hm
    | exact .inl (Has.sub (a := State.modelTakeMask) (by decide +kernel) hm)
    | exact Has.at (by decide) (Has.sub (a := State.modelTakeMask) (by decide +kernel) hm)
    | exact Has.cell (by decide) (Has.sub (a := State.modelTakeMask) (by decide +kernel) hm)
    | exact Has.cellNext (by decide) (Has.sub (a := State.modelTakeMask) (by decide +kernel) hm)
    | exact Has.ite (Has.sub (a := State.modelTakeMask) (by decide +kernel) hm) (Has.sub (a := State.modelTakeMask) (by decide +kernel) hm)
    | exact .inr (fun _ => rfl)
    | (intro _; rfl)
    | (intro _; simp; done)
    | (simp; assumption)
    | (refine .inr (fun _ => ?_); simp; done)
    | (refine .inr (fun _ => ?_); (repeat' split) <;> first | rfl | (simp; done))
    | (simp; done)

def State.proofEndMask : Nat :=
  State.postMask ||| State.vRecordMask ||| State.proofDropMask ||| rbit R.HLT_V0 ||| rbit R.HLT_R ||| rbit R.HLT_KT
    ||| rbit R.HLT_MDL ||| rbit R.HLT_LEDCNT ||| Part.hlt.bit

theorem State.proofEnd_touch {msk : Nat} {s0 : State} {s : State} {n : Nat} (hk : Touch msk s0 s) (hm : Sub State.proofEndMask msk) :
    Touch msk s0 (State.proofEnd s n) := by
  unfold State.proofEnd
  try dsimp only
  repeat' (with_reducible first
    | assumption
    | exact Touch.refl
    | intro _
    | apply Touch.setReg
    | apply State.post_touch
    | apply State.vRecord_touch
    | apply Touch.modHchan
    | apply State.proofDrop_touch
    | apply State.setFld_touch
    | (refine Touch.ofEq (by assumption) ?_)
    | apply Touch.ite
    | apply Touch.setReg
    | split)
  all_goals with_reducible first
    | exact .inr rfl
    | exact Sub.trans (b := State.proofEndMask) (by decide +kernel) hm
    | exact Has.sub (a := State.proofEndMask) (by decide +kernel) hm
    | exact .inl (Has.sub (a := State.proofEndMask) (by decide +kernel) hm)
    | exact Has.at (by decide) (Has.sub (a := State.proofEndMask) (by decide +kernel) hm)
    | exact Has.cell (by decide) (Has.sub (a := State.proofEndMask) (by decide +kernel) hm)
    | exact Has.cellNext (by decide) (Has.sub (a := State.proofEndMask) (by decide +kernel) hm)
    | exact Has.ite (Has.sub (a := State.proofEndMask) (by decide +kernel) hm) (Has.sub (a := State.proofEndMask) (by decide +kernel) hm)
    | exact .inr (fun _ => rfl)
    | (intro _; rfl)
    | (intro _; simp; done)
    | (simp; assumption)
    | (refine .inr (fun _ => ?_); simp; done)
    | (refine .inr (fun _ => ?_); (repeat' split) <;> first | rfl | (simp; done))
    | (simp; done)

def State.publishMask : Nat :=
  Part.hlt.bit

theorem State.publish_touch {msk : Nat} {s0 : State} {s : State} {k : Nat} {reg : Nat} {t : Int} {seen : Bool} (hk : Touch msk s0 s) (hm : Sub State.publishMask msk) (hreg : Has msk (reg / 64)) :
    Touch msk s0 (State.publish s k reg t seen) := by
  unfold State.publish
  try dsimp only
  repeat' (with_reducible first
    | assumption
    | exact Touch.refl
    | intro _
    | apply Touch.setReg
    | apply Touch.modHlt
    | apply Touch.ite
    | apply Touch.setReg
    | split)
  all_goals with_reducible first
    | exact .inr rfl
    | exact Sub.trans (b := State.publishMask) (by decide +kernel) hm
    | exact Has.sub (a := State.publishMask) (by decide +kernel) hm
    | exact .inl (Has.sub (a := State.publishMask) (by decide +kernel) hm)
    | exact Has.at (by decide) (Has.sub (a := State.publishMask) (by decide +kernel) hm)
    | exact Has.cell (by decide) (Has.sub (a := State.publishMask) (by decide +kernel) hm)
    | exact Has.cellNext (by decide) (Has.sub (a := State.publishMask) (by decide +kernel) hm)
    | exact Has.ite (Has.sub (a := State.publishMask) (by decide +kernel) hm) (Has.sub (a := State.publishMask) (by decide +kernel) hm)
    | exact .inr (fun _ => rfl)
    | (intro _; rfl)
    | (intro _; simp; done)
    | (simp; assumption)
    | (refine .inr (fun _ => ?_); simp; done)
    | (refine .inr (fun _ => ?_); (repeat' split) <;> first | rfl | (simp; done))
    | (simp; done)

def State.ntcPublishMask : Nat :=
  State.useFreeMask ||| State.postMask ||| State.publishMask ||| rbit R.HLT_NTC0 ||| rbit R.HLT_NTC1 ||| rbit
    R.HLT_NTC2 ||| rbit R.HLT_NTC3 ||| Part.hlt.bit

theorem State.ntcPublish_touch {msk : Nat} {s0 : State} {s : State} {k : Nat} (hk : Touch msk s0 s) (hm : Sub State.ntcPublishMask msk) :
    Touch msk s0 (State.ntcPublish s k) := by
  unfold State.ntcPublish
  try dsimp only
  repeat' (with_reducible first
    | assumption
    | exact Touch.refl
    | intro _
    | apply State.useFree_touch
    | apply State.post_touch
    | apply Touch.modHlt
    | apply State.publish_touch
    | (refine Touch.ofEq (by assumption) ?_)
    | apply Touch.ite
    | split)
  all_goals with_reducible first
    | exact ntcKey_has (Has.sub (a := State.ntcPublishMask) (by decide +kernel) hm) (Has.sub (a := State.ntcPublishMask) (by decide +kernel) hm) (Has.sub (a := State.ntcPublishMask) (by decide +kernel) hm) (Has.sub (a := State.ntcPublishMask) (by decide +kernel) hm)
    | exact .inr rfl
    | exact Sub.trans (b := State.ntcPublishMask) (by decide +kernel) hm
    | exact Has.sub (a := State.ntcPublishMask) (by decide +kernel) hm
    | exact .inl (Has.sub (a := State.ntcPublishMask) (by decide +kernel) hm)
    | exact Has.at (by decide) (Has.sub (a := State.ntcPublishMask) (by decide +kernel) hm)
    | exact Has.cell (by decide) (Has.sub (a := State.ntcPublishMask) (by decide +kernel) hm)
    | exact Has.cellNext (by decide) (Has.sub (a := State.ntcPublishMask) (by decide +kernel) hm)
    | exact Has.ite (Has.sub (a := State.ntcPublishMask) (by decide +kernel) hm) (Has.sub (a := State.ntcPublishMask) (by decide +kernel) hm)
    | exact .inr (fun _ => rfl)
    | (intro _; rfl)
    | (intro _; simp; done)
    | (simp; assumption)
    | (refine .inr (fun _ => ?_); simp; done)
    | (refine .inr (fun _ => ?_); (repeat' split) <;> first | rfl | (simp; done))
    | (simp; done)

def State.diePublishMask : Nat :=
  State.modKeepMask ||| State.publishMask ||| rbit R.HLT_TDIE ||| Part.hlt.bit

theorem State.diePublish_touch {msk : Nat} {s0 : State} {s : State} (hk : Touch msk s0 s) (hm : Sub State.diePublishMask msk) :
    Touch msk s0 (State.diePublish s) := by
  unfold State.diePublish
  try dsimp only
  repeat' (with_reducible first
    | assumption
    | exact Touch.refl
    | intro _
    | apply State.modKeep_touch
    | apply Touch.modHlt
    | apply State.publish_touch
    | (refine Touch.ofEq (by assumption) ?_)
    | split)
  all_goals with_reducible first
    | exact .inr rfl
    | exact Sub.trans (b := State.diePublishMask) (by decide +kernel) hm
    | exact Has.sub (a := State.diePublishMask) (by decide +kernel) hm
    | exact .inl (Has.sub (a := State.diePublishMask) (by decide +kernel) hm)
    | exact Has.at (by decide) (Has.sub (a := State.diePublishMask) (by decide +kernel) hm)
    | exact Has.cell (by decide) (Has.sub (a := State.diePublishMask) (by decide +kernel) hm)
    | exact Has.cellNext (by decide) (Has.sub (a := State.diePublishMask) (by decide +kernel) hm)
    | exact Has.ite (Has.sub (a := State.diePublishMask) (by decide +kernel) hm) (Has.sub (a := State.diePublishMask) (by decide +kernel) hm)
    | exact .inr (fun _ => rfl)
    | (intro _; rfl)
    | (intro _; simp; done)
    | (simp; assumption)
    | (refine .inr (fun _ => ?_); simp; done)
    | (refine .inr (fun _ => ?_); (repeat' split) <;> first | rfl | (simp; done))
    | (simp; done)

def State.classAssertMask : Nat :=
  State.irqMask ||| State.postMask ||| State.lockOffMask ||| State.proofAbandonMask ||| rbit R.HLT_CCLS

theorem State.classAssert_touch {msk : Nat} {s0 : State} {s : State} {n : Nat} {k : Nat} (hk : Touch msk s0 s) (hm : Sub State.classAssertMask msk) :
    Touch msk s0 (State.classAssert s n k) := by
  unfold State.classAssert
  try dsimp only
  repeat' (with_reducible first
    | assumption
    | exact Touch.refl
    | intro _
    | apply State.irq_touch
    | apply State.post_touch
    | apply State.lockOff_touch
    | apply State.proofAbandon_touch
    | apply State.setBit_touch
    | apply Touch.ite
    | split)
  all_goals with_reducible first
    | exact .inr rfl
    | exact Sub.trans (b := State.classAssertMask) (by decide +kernel) hm
    | exact Has.sub (a := State.classAssertMask) (by decide +kernel) hm
    | exact .inl (Has.sub (a := State.classAssertMask) (by decide +kernel) hm)
    | exact Has.at (by decide) (Has.sub (a := State.classAssertMask) (by decide +kernel) hm)
    | exact Has.cell (by decide) (Has.sub (a := State.classAssertMask) (by decide +kernel) hm)
    | exact Has.cellNext (by decide) (Has.sub (a := State.classAssertMask) (by decide +kernel) hm)
    | exact Has.ite (Has.sub (a := State.classAssertMask) (by decide +kernel) hm) (Has.sub (a := State.classAssertMask) (by decide +kernel) hm)
    | exact .inr (fun _ => rfl)
    | (intro _; rfl)
    | (intro _; simp; done)
    | (simp; assumption)
    | (refine .inr (fun _ => ?_); simp; done)
    | (refine .inr (fun _ => ?_); (repeat' split) <;> first | rfl | (simp; done))
    | (simp; done)

def State.classClearMask : Nat :=
  State.postMask ||| rbit R.HLT_CCLS

theorem State.classClear_touch {msk : Nat} {s0 : State} {s : State} {n : Nat} {k : Nat} (hk : Touch msk s0 s) (hm : Sub State.classClearMask msk) :
    Touch msk s0 (State.classClear s n k) := by
  unfold State.classClear
  try dsimp only
  repeat' (with_reducible first
    | assumption
    | exact Touch.refl
    | intro _
    | apply State.post_touch
    | apply State.setBit_touch
    | apply Touch.ite
    | split)
  all_goals with_reducible first
    | exact .inr rfl
    | exact Sub.trans (b := State.classClearMask) (by decide +kernel) hm
    | exact Has.sub (a := State.classClearMask) (by decide +kernel) hm
    | exact .inl (Has.sub (a := State.classClearMask) (by decide +kernel) hm)
    | exact Has.at (by decide) (Has.sub (a := State.classClearMask) (by decide +kernel) hm)
    | exact Has.cell (by decide) (Has.sub (a := State.classClearMask) (by decide +kernel) hm)
    | exact Has.cellNext (by decide) (Has.sub (a := State.classClearMask) (by decide +kernel) hm)
    | exact Has.ite (Has.sub (a := State.classClearMask) (by decide +kernel) hm) (Has.sub (a := State.classClearMask) (by decide +kernel) hm)
    | exact .inr (fun _ => rfl)
    | (intro _; rfl)
    | (intro _; simp; done)
    | (simp; assumption)
    | (refine .inr (fun _ => ?_); simp; done)
    | (refine .inr (fun _ => ?_); (repeat' split) <;> first | rfl | (simp; done))
    | (simp; done)

def State.classRoundMask : Nat :=
  State.classAssertMask ||| State.classClearMask ||| Part.hlt.bit

theorem State.classRound_touch {msk : Nat} {s0 : State} {s : State} {n : Nat} {k : Nat} {cond : Bool} {clear : Bool} (hk : Touch msk s0 s) (hm : Sub State.classRoundMask msk) :
    Touch msk s0 (State.classRound s n k cond clear) := by
  unfold State.classRound
  try dsimp only
  repeat' (with_reducible first
    | assumption
    | exact Touch.refl
    | intro _
    | apply Touch.modHchan
    | apply State.classAssert_touch
    | apply State.classClear_touch
    | apply Touch.ite
    | split)
  all_goals with_reducible first
    | exact .inr rfl
    | exact Sub.trans (b := State.classRoundMask) (by decide +kernel) hm
    | exact Has.sub (a := State.classRoundMask) (by decide +kernel) hm
    | exact .inl (Has.sub (a := State.classRoundMask) (by decide +kernel) hm)
    | exact Has.at (by decide) (Has.sub (a := State.classRoundMask) (by decide +kernel) hm)
    | exact Has.cell (by decide) (Has.sub (a := State.classRoundMask) (by decide +kernel) hm)
    | exact Has.cellNext (by decide) (Has.sub (a := State.classRoundMask) (by decide +kernel) hm)
    | exact Has.ite (Has.sub (a := State.classRoundMask) (by decide +kernel) hm) (Has.sub (a := State.classRoundMask) (by decide +kernel) hm)
    | exact .inr (fun _ => rfl)
    | (intro _; rfl)
    | (intro _; simp; done)
    | (simp; assumption)
    | (refine .inr (fun _ => ?_); simp; done)
    | (refine .inr (fun _ => ?_); (repeat' split) <;> first | rfl | (simp; done))
    | (simp; done)

def State.ledStepMask : Nat :=
  State.classAssertMask ||| rbit R.HLT_V0 ||| rbit R.HLT_LEDCNT ||| Part.hlt.bit

theorem State.ledStep_touch {msk : Nat} {s0 : State} {s : State} {n : Nat} {base : Int} {res : Int} (hk : Touch msk s0 s) (hm : Sub State.ledStepMask msk) :
    Touch msk s0 (State.ledStep s n base res) := by
  unfold State.ledStep
  try dsimp only
  repeat' (with_reducible first
    | assumption
    | exact Touch.refl
    | intro _
    | apply Touch.setReg
    | apply Touch.modHchan
    | apply State.classAssert_touch
    | apply State.setFld_touch
    | (refine Touch.ofEq (by assumption) ?_)
    | apply Touch.setReg
    | split)
  all_goals with_reducible first
    | exact .inr rfl
    | exact Sub.trans (b := State.ledStepMask) (by decide +kernel) hm
    | exact Has.sub (a := State.ledStepMask) (by decide +kernel) hm
    | exact .inl (Has.sub (a := State.ledStepMask) (by decide +kernel) hm)
    | exact Has.at (by decide) (Has.sub (a := State.ledStepMask) (by decide +kernel) hm)
    | exact Has.cell (by decide) (Has.sub (a := State.ledStepMask) (by decide +kernel) hm)
    | exact Has.cellNext (by decide) (Has.sub (a := State.ledStepMask) (by decide +kernel) hm)
    | exact Has.ite (Has.sub (a := State.ledStepMask) (by decide +kernel) hm) (Has.sub (a := State.ledStepMask) (by decide +kernel) hm)
    | exact .inr (fun _ => rfl)
    | (intro _; rfl)
    | (intro _; simp; done)
    | (simp; assumption)
    | (refine .inr (fun _ => ?_); simp; done)
    | (refine .inr (fun _ => ?_); (repeat' split) <;> first | rfl | (simp; done))
    | (simp; done)

def State.energyAddMask : Nat :=
  State.hatIncMask

theorem State.energyAdd_touch {msk : Nat} {s0 : State} {s : State} {acc : Int} {nj : Int} {hc : Nat} (hk : Touch msk s0 s) (hm : Sub State.energyAddMask msk) :
    Touch msk s0 (State.energyAdd s acc nj hc).1 := by
  unfold State.energyAdd
  try dsimp only
  repeat' (with_reducible first
    | assumption
    | exact Touch.refl
    | intro _
    | apply State.hatInc_touch
    | apply Touch.ite
    | split)
  all_goals with_reducible first
    | exact .inr rfl
    | exact Sub.trans (b := State.energyAddMask) (by decide +kernel) hm
    | exact Has.sub (a := State.energyAddMask) (by decide +kernel) hm
    | exact .inl (Has.sub (a := State.energyAddMask) (by decide +kernel) hm)
    | exact Has.at (by decide) (Has.sub (a := State.energyAddMask) (by decide +kernel) hm)
    | exact Has.cell (by decide) (Has.sub (a := State.energyAddMask) (by decide +kernel) hm)
    | exact Has.cellNext (by decide) (Has.sub (a := State.energyAddMask) (by decide +kernel) hm)
    | exact Has.ite (Has.sub (a := State.energyAddMask) (by decide +kernel) hm) (Has.sub (a := State.energyAddMask) (by decide +kernel) hm)
    | exact .inr (fun _ => rfl)
    | (intro _; rfl)
    | (intro _; simp; done)
    | (simp; assumption)
    | (refine .inr (fun _ => ?_); simp; done)
    | (refine .inr (fun _ => ?_); (repeat' split) <;> first | rfl | (simp; done))
    | (simp; done)

def State.driftRoundMask : Nat :=
  State.classClearMask ||| State.classRoundMask ||| Part.hlt.bit

theorem State.driftRound_touch {msk : Nat} {s0 : State} {s : State} {n : Nat} {drift : Bool} {within : Bool} (hk : Touch msk s0 s) (hm : Sub State.driftRoundMask msk) :
    Touch msk s0 (State.driftRound s n drift within) := by
  unfold State.driftRound
  try dsimp only
  repeat' (with_reducible first
    | assumption
    | exact Touch.refl
    | intro _
    | apply Touch.modHchan
    | apply State.classClear_touch
    | apply State.classRound_touch
    | apply Touch.ite
    | split)
  all_goals with_reducible first
    | exact .inr rfl
    | exact Sub.trans (b := State.driftRoundMask) (by decide +kernel) hm
    | exact Has.sub (a := State.driftRoundMask) (by decide +kernel) hm
    | exact .inl (Has.sub (a := State.driftRoundMask) (by decide +kernel) hm)
    | exact Has.at (by decide) (Has.sub (a := State.driftRoundMask) (by decide +kernel) hm)
    | exact Has.cell (by decide) (Has.sub (a := State.driftRoundMask) (by decide +kernel) hm)
    | exact Has.cellNext (by decide) (Has.sub (a := State.driftRoundMask) (by decide +kernel) hm)
    | exact Has.ite (Has.sub (a := State.driftRoundMask) (by decide +kernel) hm) (Has.sub (a := State.driftRoundMask) (by decide +kernel) hm)
    | exact .inr (fun _ => rfl)
    | (intro _; rfl)
    | (intro _; simp; done)
    | (simp; assumption)
    | (refine .inr (fun _ => ?_); simp; done)
    | (refine .inr (fun _ => ?_); (repeat' split) <;> first | rfl | (simp; done))
    | (simp; done)

def State.modelRoundMask : Nat :=
  State.classRoundMask ||| State.ledStepMask ||| State.driftRoundMask ||| Part.hlt.bit

theorem State.modelRound_touch {msk : Nat} {s0 : State} {s : State} {n : Nat} {h : HChan} {res : Int} (hk : Touch msk s0 s) (hm : Sub State.modelRoundMask msk) :
    Touch msk s0 (State.modelRound s n h res) := by
  unfold State.modelRound
  try dsimp only
  repeat' (with_reducible first
    | assumption
    | exact Touch.refl
    | intro _
    | apply Touch.modHchan
    | apply State.classRound_touch
    | apply State.ledStep_touch
    | apply State.driftRound_touch
    | apply Touch.ite
    | split)
  all_goals with_reducible first
    | exact .inr rfl
    | exact Sub.trans (b := State.modelRoundMask) (by decide +kernel) hm
    | exact Has.sub (a := State.modelRoundMask) (by decide +kernel) hm
    | exact .inl (Has.sub (a := State.modelRoundMask) (by decide +kernel) hm)
    | exact Has.at (by decide) (Has.sub (a := State.modelRoundMask) (by decide +kernel) hm)
    | exact Has.cell (by decide) (Has.sub (a := State.modelRoundMask) (by decide +kernel) hm)
    | exact Has.cellNext (by decide) (Has.sub (a := State.modelRoundMask) (by decide +kernel) hm)
    | exact Has.ite (Has.sub (a := State.modelRoundMask) (by decide +kernel) hm) (Has.sub (a := State.modelRoundMask) (by decide +kernel) hm)
    | exact .inr (fun _ => rfl)
    | (intro _; rfl)
    | (intro _; simp; done)
    | (simp; assumption)
    | (refine .inr (fun _ => ?_); simp; done)
    | (refine .inr (fun _ => ?_); (repeat' split) <;> first | rfl | (simp; done))
    | (simp; done)

def State.driverRoundMask : Nat :=
  State.classRoundMask

theorem State.driverRound_touch {msk : Nat} {s0 : State} {s : State} {n : Nat} {h : HChan} (hk : Touch msk s0 s) (hm : Sub State.driverRoundMask msk) :
    Touch msk s0 (State.driverRound s n h) := by
  unfold State.driverRound
  try dsimp only
  repeat' (with_reducible first
    | assumption
    | exact Touch.refl
    | intro _
    | apply State.classRound_touch
    | (refine Touch.ofEq (by assumption) ?_)
    | apply Touch.ite
    | split)
  all_goals with_reducible first
    | exact .inr rfl
    | exact Sub.trans (b := State.driverRoundMask) (by decide +kernel) hm
    | exact Has.sub (a := State.driverRoundMask) (by decide +kernel) hm
    | exact .inl (Has.sub (a := State.driverRoundMask) (by decide +kernel) hm)
    | exact Has.at (by decide) (Has.sub (a := State.driverRoundMask) (by decide +kernel) hm)
    | exact Has.cell (by decide) (Has.sub (a := State.driverRoundMask) (by decide +kernel) hm)
    | exact Has.cellNext (by decide) (Has.sub (a := State.driverRoundMask) (by decide +kernel) hm)
    | exact Has.ite (Has.sub (a := State.driverRoundMask) (by decide +kernel) hm) (Has.sub (a := State.driverRoundMask) (by decide +kernel) hm)
    | exact .inr (fun _ => rfl)
    | (intro _; rfl)
    | (intro _; simp; done)
    | (simp; assumption)
    | (refine .inr (fun _ => ?_); simp; done)
    | (refine .inr (fun _ => ?_); (repeat' split) <;> first | rfl | (simp; done))
    | (simp; done)

def State.gateRoundMask : Nat :=
  State.classRoundMask ||| rbit R.HLT_DTREF ||| Part.hlt.bit

theorem State.gateRound_touch {msk : Nat} {s0 : State} {s : State} {n : Nat} {h : HChan} (hk : Touch msk s0 s) (hm : Sub State.gateRoundMask msk) :
    Touch msk s0 (State.gateRound s n h) := by
  unfold State.gateRound
  try dsimp only
  repeat' (with_reducible first
    | assumption
    | exact Touch.refl
    | intro _
    | apply Touch.modHchan
    | apply State.classRound_touch
    | apply State.setFld_touch
    | (refine Touch.ofEq (by assumption) ?_)
    | apply Touch.ite
    | split)
  all_goals with_reducible first
    | exact .inr rfl
    | exact Sub.trans (b := State.gateRoundMask) (by decide +kernel) hm
    | exact Has.sub (a := State.gateRoundMask) (by decide +kernel) hm
    | exact .inl (Has.sub (a := State.gateRoundMask) (by decide +kernel) hm)
    | exact Has.at (by decide) (Has.sub (a := State.gateRoundMask) (by decide +kernel) hm)
    | exact Has.cell (by decide) (Has.sub (a := State.gateRoundMask) (by decide +kernel) hm)
    | exact Has.cellNext (by decide) (Has.sub (a := State.gateRoundMask) (by decide +kernel) hm)
    | exact Has.ite (Has.sub (a := State.gateRoundMask) (by decide +kernel) hm) (Has.sub (a := State.gateRoundMask) (by decide +kernel) hm)
    | exact .inr (fun _ => rfl)
    | (intro _; rfl)
    | (intro _; simp; done)
    | (simp; assumption)
    | (refine .inr (fun _ => ?_); simp; done)
    | (refine .inr (fun _ => ?_); (repeat' split) <;> first | rfl | (simp; done))
    | (simp; done)

def State.measuredRoundMask : Nat :=
  State.classRoundMask ||| State.modelRoundMask ||| State.driverRoundMask ||| State.gateRoundMask ||| rbit R.HLT_ION
    ||| rbit R.HLT_VS ||| rbit R.HLT_RESID ||| Part.hlt.bit

theorem State.measuredRound_touch {msk : Nat} {s0 : State} {s : State} {n : Nat} {h : HChan} {temp : Int} (hk : Touch msk s0 s) (hm : Sub State.measuredRoundMask msk) :
    Touch msk s0 (State.measuredRound s n h temp) := by
  unfold State.measuredRound
  try dsimp only
  repeat' (with_reducible first
    | assumption
    | exact Touch.refl
    | intro _
    | apply Touch.setReg
    | apply Touch.modHchan
    | apply State.classRound_touch
    | apply State.modelRound_touch
    | apply State.driverRound_touch
    | apply State.gateRound_touch
    | apply Touch.setReg)
  all_goals with_reducible first
    | exact .inr rfl
    | exact Sub.trans (b := State.measuredRoundMask) (by decide +kernel) hm
    | exact Has.sub (a := State.measuredRoundMask) (by decide +kernel) hm
    | exact .inl (Has.sub (a := State.measuredRoundMask) (by decide +kernel) hm)
    | exact Has.at (by decide) (Has.sub (a := State.measuredRoundMask) (by decide +kernel) hm)
    | exact Has.cell (by decide) (Has.sub (a := State.measuredRoundMask) (by decide +kernel) hm)
    | exact Has.cellNext (by decide) (Has.sub (a := State.measuredRoundMask) (by decide +kernel) hm)
    | exact Has.ite (Has.sub (a := State.measuredRoundMask) (by decide +kernel) hm) (Has.sub (a := State.measuredRoundMask) (by decide +kernel) hm)
    | exact .inr (fun _ => rfl)
    | (intro _; rfl)
    | (intro _; simp; done)
    | (simp; assumption)
    | (refine .inr (fun _ => ?_); simp; done)
    | (refine .inr (fun _ => ?_); (repeat' split) <;> first | rfl | (simp; done))
    | (simp; done)

def State.stressShowMask : Nat :=
  rbit R.HLT_MFR ||| rbit R.HLT_STRS_LO ||| rbit R.HLT_STRS_HI ||| Part.hlt.bit

theorem State.stressShow_touch {msk : Nat} {s0 : State} {s : State} {n : Nat} (hk : Touch msk s0 s) (hm : Sub State.stressShowMask msk) :
    Touch msk s0 (State.stressShow s n) := by
  unfold State.stressShow
  try dsimp only
  repeat' (with_reducible first
    | assumption
    | exact Touch.refl
    | intro _
    | apply Touch.setReg
    | apply Touch.modHchan
    | apply State.setPair_touch
    | apply Touch.setReg)
  all_goals with_reducible first
    | exact .inr rfl
    | exact Sub.trans (b := State.stressShowMask) (by decide +kernel) hm
    | exact Has.sub (a := State.stressShowMask) (by decide +kernel) hm
    | exact .inl (Has.sub (a := State.stressShowMask) (by decide +kernel) hm)
    | exact Has.at (by decide) (Has.sub (a := State.stressShowMask) (by decide +kernel) hm)
    | exact Has.cell (by decide) (Has.sub (a := State.stressShowMask) (by decide +kernel) hm)
    | exact Has.cellNext (by decide) (Has.sub (a := State.stressShowMask) (by decide +kernel) hm)
    | exact Has.ite (Has.sub (a := State.stressShowMask) (by decide +kernel) hm) (Has.sub (a := State.stressShowMask) (by decide +kernel) hm)
    | exact .inr (fun _ => rfl)
    | (intro _; rfl)
    | (intro _; simp; done)
    | (simp; assumption)
    | (refine .inr (fun _ => ?_); simp; done)
    | (refine .inr (fun _ => ?_); (repeat' split) <;> first | rfl | (simp; done))
    | (simp; done)

def State.stressTakeMask : Nat :=
  State.stressShowMask ||| Part.hlt.bit

theorem State.stressTake_touch {msk : Nat} {s0 : State} {s : State} {n : Nat} {v : Nat} (hk : Touch msk s0 s) (hm : Sub State.stressTakeMask msk) :
    Touch msk s0 (State.stressTake s n v) := by
  unfold State.stressTake
  try dsimp only
  repeat' (with_reducible first
    | assumption
    | exact Touch.refl
    | intro _
    | apply Touch.modHchan
    | apply State.stressShow_touch)
  all_goals with_reducible first
    | exact .inr rfl
    | exact Sub.trans (b := State.stressTakeMask) (by decide +kernel) hm
    | exact Has.sub (a := State.stressTakeMask) (by decide +kernel) hm
    | exact .inl (Has.sub (a := State.stressTakeMask) (by decide +kernel) hm)
    | exact Has.at (by decide) (Has.sub (a := State.stressTakeMask) (by decide +kernel) hm)
    | exact Has.cell (by decide) (Has.sub (a := State.stressTakeMask) (by decide +kernel) hm)
    | exact Has.cellNext (by decide) (Has.sub (a := State.stressTakeMask) (by decide +kernel) hm)
    | exact Has.ite (Has.sub (a := State.stressTakeMask) (by decide +kernel) hm) (Has.sub (a := State.stressTakeMask) (by decide +kernel) hm)
    | exact .inr (fun _ => rfl)
    | (intro _; rfl)
    | (intro _; simp; done)
    | (simp; assumption)
    | (refine .inr (fun _ => ?_); simp; done)
    | (refine .inr (fun _ => ?_); (repeat' split) <;> first | rfl | (simp; done))
    | (simp; done)

def State.chanRoundMask : Nat :=
  State.classAssertMask ||| State.classClearMask ||| State.classRoundMask ||| State.energyAddMask |||
    State.measuredRoundMask ||| State.stressShowMask ||| rbit R.HLT_CRES ||| rbit R.HLT_POUT_LO ||| rbit
    R.HLT_POUT_HI ||| rbit R.HLT_EOUTR ||| Part.hlt.bit

theorem State.chanRound_touch {msk : Nat} {s0 : State} {s : State} {n : Nat} (hk : Touch msk s0 s) (hm : Sub State.chanRoundMask msk) :
    Touch msk s0 (State.chanRound s n) := by
  unfold State.chanRound
  try dsimp only
  repeat' (with_reducible first
    | assumption
    | exact Touch.refl
    | intro _
    | apply Touch.setReg
    | apply Touch.modHchan
    | apply State.classAssert_touch
    | apply State.classClear_touch
    | apply State.classRound_touch
    | apply State.energyAdd_touch
    | apply State.measuredRound_touch
    | apply State.stressShow_touch
    | apply State.setPair_touch
    | (refine Touch.ofEq (by assumption) ?_)
    | apply Touch.ite
    | apply Touch.setReg
    | split)
  all_goals with_reducible first
    | exact .inr rfl
    | exact Sub.trans (b := State.chanRoundMask) (by decide +kernel) hm
    | exact Has.sub (a := State.chanRoundMask) (by decide +kernel) hm
    | exact .inl (Has.sub (a := State.chanRoundMask) (by decide +kernel) hm)
    | exact Has.at (by decide) (Has.sub (a := State.chanRoundMask) (by decide +kernel) hm)
    | exact Has.cell (by decide) (Has.sub (a := State.chanRoundMask) (by decide +kernel) hm)
    | exact Has.cellNext (by decide) (Has.sub (a := State.chanRoundMask) (by decide +kernel) hm)
    | exact Has.ite (Has.sub (a := State.chanRoundMask) (by decide +kernel) hm) (Has.sub (a := State.chanRoundMask) (by decide +kernel) hm)
    | exact .inr (fun _ => rfl)
    | (intro _; rfl)
    | (intro _; simp; done)
    | (simp; assumption)
    | (refine .inr (fun _ => ?_); simp; done)
    | (refine .inr (fun _ => ?_); (repeat' split) <;> first | rfl | (simp; done))
    | (simp; done)

def State.linkRoundMask : Nat :=
  State.useFreeMask ||| State.energyAddMask ||| rbit R.HLT_PLINK_LO ||| rbit R.HLT_PLINK_HI ||| rbit R.HLT_ELINKR
    ||| Part.hlt.bit

theorem State.linkRound_touch {msk : Nat} {s0 : State} {s : State} (hk : Touch msk s0 s) (hm : Sub State.linkRoundMask msk) :
    Touch msk s0 (State.linkRound s) := by
  unfold State.linkRound
  try dsimp only
  repeat' (with_reducible first
    | assumption
    | exact Touch.refl
    | intro _
    | apply Touch.setReg
    | apply State.useFree_touch
    | apply Touch.modHlt
    | apply State.energyAdd_touch
    | apply State.setPair_touch
    | (refine Touch.ofEq (by assumption) ?_)
    | apply Touch.ite
    | apply Touch.setReg
    | split)
  all_goals with_reducible first
    | exact .inr rfl
    | exact Sub.trans (b := State.linkRoundMask) (by decide +kernel) hm
    | exact Has.sub (a := State.linkRoundMask) (by decide +kernel) hm
    | exact .inl (Has.sub (a := State.linkRoundMask) (by decide +kernel) hm)
    | exact Has.at (by decide) (Has.sub (a := State.linkRoundMask) (by decide +kernel) hm)
    | exact Has.cell (by decide) (Has.sub (a := State.linkRoundMask) (by decide +kernel) hm)
    | exact Has.cellNext (by decide) (Has.sub (a := State.linkRoundMask) (by decide +kernel) hm)
    | exact Has.ite (Has.sub (a := State.linkRoundMask) (by decide +kernel) hm) (Has.sub (a := State.linkRoundMask) (by decide +kernel) hm)
    | exact .inr (fun _ => rfl)
    | (intro _; rfl)
    | (intro _; simp; done)
    | (simp; assumption)
    | (refine .inr (fun _ => ?_); simp; done)
    | (refine .inr (fun _ => ?_); (repeat' split) <;> first | rfl | (simp; done))
    | (simp; done)

def State.vauxRoundMask : Nat :=
  rbit R.PWR_STAT ||| Part.pwr.bit

theorem State.vauxRound_touch {msk : Nat} {s0 : State} {s : State} (hk : Touch msk s0 s) (hm : Sub State.vauxRoundMask msk) :
    Touch msk s0 (State.vauxRound s) := by
  unfold State.vauxRound
  try dsimp only
  repeat' (with_reducible first
    | assumption
    | exact Touch.refl
    | intro _
    | apply State.setFlag_touch
    | (refine Touch.ofEq (by assumption) ?_)
    | apply Touch.foldl
    | apply Touch.foldlFst
    | (simp only [Touch.mk_iff]; apply TouchMk.intro)
    | split)
  all_goals with_reducible first
    | exact .inr rfl
    | exact Sub.trans (b := State.vauxRoundMask) (by decide +kernel) hm
    | exact Has.sub (a := State.vauxRoundMask) (by decide +kernel) hm
    | exact .inl (Has.sub (a := State.vauxRoundMask) (by decide +kernel) hm)
    | exact Has.at (by decide) (Has.sub (a := State.vauxRoundMask) (by decide +kernel) hm)
    | exact Has.cell (by decide) (Has.sub (a := State.vauxRoundMask) (by decide +kernel) hm)
    | exact Has.cellNext (by decide) (Has.sub (a := State.vauxRoundMask) (by decide +kernel) hm)
    | exact Has.ite (Has.sub (a := State.vauxRoundMask) (by decide +kernel) hm) (Has.sub (a := State.vauxRoundMask) (by decide +kernel) hm)
    | exact .inr (fun _ => rfl)
    | (intro _; rfl)
    | (intro _; simp; done)
    | (simp; assumption)
    | (refine .inr (fun _ => ?_); simp; done)
    | (refine .inr (fun _ => ?_); (repeat' split) <;> first | rfl | (simp; done))
    | (simp; done)

def State.roundEndMask : Nat :=
  State.postMask ||| State.hltStickMask ||| State.hltSwapMask ||| State.ntcPublishMask ||| State.diePublishMask |||
    State.chanRoundMask ||| State.linkRoundMask ||| State.vauxRoundMask ||| Part.hlt.bit

theorem State.roundEnd_touch {msk : Nat} {s0 : State} {s : State} (hk : Touch msk s0 s) (hm : Sub State.roundEndMask msk) :
    Touch msk s0 (State.roundEnd s) := by
  unfold State.roundEnd
  try dsimp only
  repeat' (with_reducible first
    | assumption
    | exact Touch.refl
    | intro _
    | apply State.post_touch
    | apply Touch.forChans
    | apply Touch.modHlt
    | apply State.hltStick_touch
    | apply State.hltSwap_touch
    | apply State.ntcPublish_touch
    | apply State.diePublish_touch
    | apply State.chanRound_touch
    | apply State.linkRound_touch
    | apply State.vauxRound_touch
    | apply Touch.ite
    | apply Touch.foldl
    | apply Touch.foldlFst
    | split)
  all_goals with_reducible first
    | exact .inr rfl
    | exact Sub.trans (b := State.roundEndMask) (by decide +kernel) hm
    | exact Has.sub (a := State.roundEndMask) (by decide +kernel) hm
    | exact .inl (Has.sub (a := State.roundEndMask) (by decide +kernel) hm)
    | exact Has.at (by decide) (Has.sub (a := State.roundEndMask) (by decide +kernel) hm)
    | exact Has.cell (by decide) (Has.sub (a := State.roundEndMask) (by decide +kernel) hm)
    | exact Has.cellNext (by decide) (Has.sub (a := State.roundEndMask) (by decide +kernel) hm)
    | exact Has.ite (Has.sub (a := State.roundEndMask) (by decide +kernel) hm) (Has.sub (a := State.roundEndMask) (by decide +kernel) hm)
    | exact .inr (fun _ => rfl)
    | (intro _; rfl)
    | (intro _; simp; done)
    | (simp; assumption)
    | (refine .inr (fun _ => ?_); simp; done)
    | (refine .inr (fun _ => ?_); (repeat' split) <;> first | rfl | (simp; done))
    | (simp; done)

def State.ledRstMask : Nat :=
  State.classClearMask ||| rbit R.HLT_LEDCNT

theorem State.ledRst_touch {msk : Nat} {s0 : State} {s : State} {n : Nat} (hk : Touch msk s0 s) (hm : Sub State.ledRstMask msk) :
    Touch msk s0 (State.ledRst s n) := by
  unfold State.ledRst
  try dsimp only
  repeat' (with_reducible first
    | assumption
    | exact Touch.refl
    | intro _
    | apply State.classClear_touch
    | apply State.setFld_touch)
  all_goals with_reducible first
    | exact .inr rfl
    | exact Sub.trans (b := State.ledRstMask) (by decide +kernel) hm
    | exact Has.sub (a := State.ledRstMask) (by decide +kernel) hm
    | exact .inl (Has.sub (a := State.ledRstMask) (by decide +kernel) hm)
    | exact Has.at (by decide) (Has.sub (a := State.ledRstMask) (by decide +kernel) hm)
    | exact Has.cell (by decide) (Has.sub (a := State.ledRstMask) (by decide +kernel) hm)
    | exact Has.cellNext (by decide) (Has.sub (a := State.ledRstMask) (by decide +kernel) hm)
    | exact Has.ite (Has.sub (a := State.ledRstMask) (by decide +kernel) hm) (Has.sub (a := State.ledRstMask) (by decide +kernel) hm)
    | exact .inr (fun _ => rfl)
    | (intro _; rfl)
    | (intro _; simp; done)
    | (simp; assumption)
    | (refine .inr (fun _ => ?_); simp; done)
    | (refine .inr (fun _ => ?_); (repeat' split) <;> first | rfl | (simp; done))
    | (simp; done)

def State.modelClrMask : Nat :=
  rbit R.HLT_MDL

theorem State.modelClr_touch {msk : Nat} {s0 : State} {s : State} {n : Nat} (hk : Touch msk s0 s) (hm : Sub State.modelClrMask msk) :
    Touch msk s0 (State.modelClr s n) := by
  unfold State.modelClr
  try dsimp only
  repeat' (with_reducible first
    | assumption
    | exact Touch.refl
    | intro _
    | apply State.setFlag_touch)
  all_goals with_reducible first
    | exact .inr rfl
    | exact Sub.trans (b := State.modelClrMask) (by decide +kernel) hm
    | exact Has.sub (a := State.modelClrMask) (by decide +kernel) hm
    | exact .inl (Has.sub (a := State.modelClrMask) (by decide +kernel) hm)
    | exact Has.at (by decide) (Has.sub (a := State.modelClrMask) (by decide +kernel) hm)
    | exact Has.cell (by decide) (Has.sub (a := State.modelClrMask) (by decide +kernel) hm)
    | exact Has.cellNext (by decide) (Has.sub (a := State.modelClrMask) (by decide +kernel) hm)
    | exact Has.ite (Has.sub (a := State.modelClrMask) (by decide +kernel) hm) (Has.sub (a := State.modelClrMask) (by decide +kernel) hm)
    | exact .inr (fun _ => rfl)
    | (intro _; rfl)
    | (intro _; simp; done)
    | (simp; assumption)
    | (refine .inr (fun _ => ?_); simp; done)
    | (refine .inr (fun _ => ?_); (repeat' split) <;> first | rfl | (simp; done))
    | (simp; done)

def State.dtRelearnMask : Nat :=
  Part.hlt.bit

theorem State.dtRelearn_touch {msk : Nat} {s0 : State} {s : State} {n : Nat} (hk : Touch msk s0 s) (hm : Sub State.dtRelearnMask msk) :
    Touch msk s0 (State.dtRelearn s n) := by
  unfold State.dtRelearn
  try dsimp only
  repeat' (with_reducible first
    | assumption
    | exact Touch.refl
    | intro _
    | apply Touch.modHchan)
  all_goals with_reducible first
    | exact .inr rfl
    | exact Sub.trans (b := State.dtRelearnMask) (by decide +kernel) hm
    | exact Has.sub (a := State.dtRelearnMask) (by decide +kernel) hm
    | exact .inl (Has.sub (a := State.dtRelearnMask) (by decide +kernel) hm)
    | exact Has.at (by decide) (Has.sub (a := State.dtRelearnMask) (by decide +kernel) hm)
    | exact Has.cell (by decide) (Has.sub (a := State.dtRelearnMask) (by decide +kernel) hm)
    | exact Has.cellNext (by decide) (Has.sub (a := State.dtRelearnMask) (by decide +kernel) hm)
    | exact Has.ite (Has.sub (a := State.dtRelearnMask) (by decide +kernel) hm) (Has.sub (a := State.dtRelearnMask) (by decide +kernel) hm)
    | exact .inr (fun _ => rfl)
    | (intro _; rfl)
    | (intro _; simp; done)
    | (simp; assumption)
    | (refine .inr (fun _ => ?_); simp; done)
    | (refine .inr (fun _ => ?_); (repeat' split) <;> first | rfl | (simp; done))
    | (simp; done)

end Sys2Proof.Machine
end

