-- ==== Sys2Proof/Laws/TouchTrips.lean ====
section
/-! SUPPORT. What each operation of Machine/Trips.lean may change: its mask, and the proof that it changes nothing else. -/

namespace Sys2Proof.Machine

set_option linter.unusedSimpArgs false
set_option Elab.async false

def State.enaSetMask : Nat :=
  State.enaWriteMask ||| State.capturesCloseMask

theorem State.enaSet_touch {msk : Nat} {s0 : State} {s : State} {v : Word} (hk : Touch msk s0 s) (hm : Sub State.enaSetMask msk) :
    Touch msk s0 (State.enaSet s v) := by
  unfold State.enaSet
  try dsimp only
  repeat' (with_reducible first
    | assumption
    | exact Touch.refl
    | intro _
    | apply Touch.forChans
    | apply State.enaWrite_touch
    | apply State.capturesClose_touch
    | apply Touch.ite
    | split)
  all_goals with_reducible first
    | exact .inr rfl
    | exact Sub.trans (b := State.enaSetMask) (by decide +kernel) hm
    | exact Has.sub (a := State.enaSetMask) (by decide +kernel) hm
    | exact .inl (Has.sub (a := State.enaSetMask) (by decide +kernel) hm)
    | exact Has.at (by decide) (Has.sub (a := State.enaSetMask) (by decide +kernel) hm)
    | exact Has.cell (by decide) (Has.sub (a := State.enaSetMask) (by decide +kernel) hm)
    | exact Has.cellNext (by decide) (Has.sub (a := State.enaSetMask) (by decide +kernel) hm)
    | exact Has.ite (Has.sub (a := State.enaSetMask) (by decide +kernel) hm) (Has.sub (a := State.enaSetMask) (by decide +kernel) hm)
    | exact .inr (fun _ => rfl)
    | (intro _; rfl)
    | (intro _; simp; done)
    | (simp; assumption)
    | (refine .inr (fun _ => ?_); simp; done)
    | (refine .inr (fun _ => ?_); (repeat' split) <;> first | rfl | (simp; done))
    | (simp; done)

def State.boundaryMask : Nat :=
  State.zeroCoreMask ||| State.hltPeriodEndMask

theorem State.boundary_touch {msk : Nat} {s0 : State} {s : State} {n : Nat} {bstLow : Bool} {edge : Bool} (hk : Touch msk s0 s) (hm : Sub State.boundaryMask msk) :
    Touch msk s0 (State.boundary s n bstLow edge) := by
  unfold State.boundary
  try dsimp only
  repeat' (with_reducible first
    | assumption
    | exact Touch.refl
    | intro _
    | apply State.zeroCore_touch
    | apply State.hltPeriodEnd_touch)
  all_goals with_reducible first
    | exact .inr rfl
    | exact Sub.trans (b := State.boundaryMask) (by decide +kernel) hm
    | exact Has.sub (a := State.boundaryMask) (by decide +kernel) hm
    | exact .inl (Has.sub (a := State.boundaryMask) (by decide +kernel) hm)
    | exact Has.at (by decide) (Has.sub (a := State.boundaryMask) (by decide +kernel) hm)
    | exact Has.cell (by decide) (Has.sub (a := State.boundaryMask) (by decide +kernel) hm)
    | exact Has.cellNext (by decide) (Has.sub (a := State.boundaryMask) (by decide +kernel) hm)
    | exact Has.ite (Has.sub (a := State.boundaryMask) (by decide +kernel) hm) (Has.sub (a := State.boundaryMask) (by decide +kernel) hm)
    | exact .inr (fun _ => rfl)
    | (intro _; rfl)
    | (intro _; simp; done)
    | (simp; assumption)
    | (refine .inr (fun _ => ?_); simp; done)
    | (refine .inr (fun _ => ?_); (repeat' split) <;> first | rfl | (simp; done))
    | (simp; done)

def State.cutAtMask : Nat :=
  State.pwmStickMask ||| State.shadowLoadMask ||| State.boundaryMask ||| Part.pwm.bit

theorem State.cutAt_touch {msk : Nat} {s0 : State} {s : State} {n : Nat} {m : Nat} (hk : Touch msk s0 s) (hm : Sub State.cutAtMask msk) :
    Touch msk s0 (State.cutAt s n m) := by
  unfold State.cutAt
  try dsimp only
  repeat' (with_reducible first
    | assumption
    | exact Touch.refl
    | intro _
    | apply Touch.modChan
    | apply State.pwmStick_touch
    | apply State.shadowLoad_touch
    | apply State.boundary_touch
    | apply Touch.ite
    | split)
  all_goals with_reducible first
    | exact .inr rfl
    | exact Sub.trans (b := State.cutAtMask) (by decide +kernel) hm
    | exact Has.sub (a := State.cutAtMask) (by decide +kernel) hm
    | exact .inl (Has.sub (a := State.cutAtMask) (by decide +kernel) hm)
    | exact Has.at (by decide) (Has.sub (a := State.cutAtMask) (by decide +kernel) hm)
    | exact Has.cell (by decide) (Has.sub (a := State.cutAtMask) (by decide +kernel) hm)
    | exact Has.cellNext (by decide) (Has.sub (a := State.cutAtMask) (by decide +kernel) hm)
    | exact Has.ite (Has.sub (a := State.cutAtMask) (by decide +kernel) hm) (Has.sub (a := State.cutAtMask) (by decide +kernel) hm)
    | exact .inr (fun _ => rfl)
    | (intro _; rfl)
    | (intro _; simp; done)
    | (simp; assumption)
    | (refine .inr (fun _ => ?_); simp; done)
    | (refine .inr (fun _ => ?_); (repeat' split) <;> first | rfl | (simp; done))
    | (simp; done)

def State.perHitMask : Nat :=
  State.chanEventMask ||| State.holdCaptureMask ||| Part.pwm.bit

theorem State.perHit_touch {msk : Nat} {s0 : State} {s : State} {n : Nat} (hk : Touch msk s0 s) (hm : Sub State.perHitMask msk) :
    Touch msk s0 (State.perHit s n) := by
  unfold State.perHit
  try dsimp only
  repeat' (with_reducible first
    | assumption
    | exact Touch.refl
    | intro _
    | apply Touch.modChan
    | apply State.chanEvent_touch
    | apply State.holdCapture_touch
    | apply Touch.ite
    | split)
  all_goals with_reducible first
    | exact .inr rfl
    | exact Sub.trans (b := State.perHitMask) (by decide +kernel) hm
    | exact Has.sub (a := State.perHitMask) (by decide +kernel) hm
    | exact .inl (Has.sub (a := State.perHitMask) (by decide +kernel) hm)
    | exact Has.at (by decide) (Has.sub (a := State.perHitMask) (by decide +kernel) hm)
    | exact Has.cell (by decide) (Has.sub (a := State.perHitMask) (by decide +kernel) hm)
    | exact Has.cellNext (by decide) (Has.sub (a := State.perHitMask) (by decide +kernel) hm)
    | exact Has.ite (Has.sub (a := State.perHitMask) (by decide +kernel) hm) (Has.sub (a := State.perHitMask) (by decide +kernel) hm)
    | exact .inr (fun _ => rfl)
    | (intro _; rfl)
    | (intro _; simp; done)
    | (simp; assumption)
    | (refine .inr (fun _ => ?_); simp; done)
    | (refine .inr (fun _ => ?_); (repeat' split) <;> first | rfl | (simp; done))
    | (simp; done)

def State.pwrStickMask : Nat :=
  State.stickMask ||| rbit R.PWR_STAT

theorem State.pwrStick_touch {msk : Nat} {s0 : State} {s : State} {f : Fld} (hk : Touch msk s0 s) (hm : Sub State.pwrStickMask msk) :
    Touch msk s0 (State.pwrStick s f) := by
  unfold State.pwrStick
  try dsimp only
  repeat' (with_reducible first
    | assumption
    | exact Touch.refl
    | intro _
    | apply State.stick_touch)
  all_goals with_reducible first
    | exact .inr rfl
    | exact Sub.trans (b := State.pwrStickMask) (by decide +kernel) hm
    | exact Has.sub (a := State.pwrStickMask) (by decide +kernel) hm
    | exact .inl (Has.sub (a := State.pwrStickMask) (by decide +kernel) hm)
    | exact Has.at (by decide) (Has.sub (a := State.pwrStickMask) (by decide +kernel) hm)
    | exact Has.cell (by decide) (Has.sub (a := State.pwrStickMask) (by decide +kernel) hm)
    | exact Has.cellNext (by decide) (Has.sub (a := State.pwrStickMask) (by decide +kernel) hm)
    | exact Has.ite (Has.sub (a := State.pwrStickMask) (by decide +kernel) hm) (Has.sub (a := State.pwrStickMask) (by decide +kernel) hm)
    | exact .inr (fun _ => rfl)
    | (intro _; rfl)
    | (intro _; simp; done)
    | (simp; assumption)
    | (refine .inr (fun _ => ?_); simp; done)
    | (refine .inr (fun _ => ?_); (repeat' split) <;> first | rfl | (simp; done))
    | (simp; done)

def State.globalLiveMask : Nat :=
  Part.pwm.bit

theorem State.globalLive_touch {msk : Nat} {s0 : State} {s : State} {b : Nat} (hk : Touch msk s0 s) (hm : Sub State.globalLiveMask msk) :
    Touch msk s0 (State.globalLive s b) := by
  unfold State.globalLive
  try dsimp only
  repeat' (with_reducible first
    | assumption
    | exact Touch.refl
    | intro _
    | apply Touch.modPwm)
  all_goals with_reducible first
    | exact .inr rfl
    | exact Sub.trans (b := State.globalLiveMask) (by decide +kernel) hm
    | exact Has.sub (a := State.globalLiveMask) (by decide +kernel) hm
    | exact .inl (Has.sub (a := State.globalLiveMask) (by decide +kernel) hm)
    | exact Has.at (by decide) (Has.sub (a := State.globalLiveMask) (by decide +kernel) hm)
    | exact Has.cell (by decide) (Has.sub (a := State.globalLiveMask) (by decide +kernel) hm)
    | exact Has.cellNext (by decide) (Has.sub (a := State.globalLiveMask) (by decide +kernel) hm)
    | exact Has.ite (Has.sub (a := State.globalLiveMask) (by decide +kernel) hm) (Has.sub (a := State.globalLiveMask) (by decide +kernel) hm)
    | exact .inr (fun _ => rfl)
    | (intro _; rfl)
    | (intro _; simp; done)
    | (simp; assumption)
    | (refine .inr (fun _ => ?_); simp; done)
    | (refine .inr (fun _ => ?_); (repeat' split) <;> first | rfl | (simp; done))
    | (simp; done)

def State.globalLevelsMask : Nat :=
  State.globalTripMask ||| State.proofTripsMask

theorem State.globalLevels_touch {msk : Nat} {s0 : State} {s : State} (hk : Touch msk s0 s) (hm : Sub State.globalLevelsMask msk) :
    Touch msk s0 (State.globalLevels s) := by
  unfold State.globalLevels
  try dsimp only
  repeat' (with_reducible first
    | assumption
    | exact Touch.refl
    | intro _
    | apply State.globalTrip_touch
    | apply State.proofTrips_touch
    | apply Touch.ite
    | split)
  all_goals with_reducible first
    | exact .inr rfl
    | exact Sub.trans (b := State.globalLevelsMask) (by decide +kernel) hm
    | exact Has.sub (a := State.globalLevelsMask) (by decide +kernel) hm
    | exact .inl (Has.sub (a := State.globalLevelsMask) (by decide +kernel) hm)
    | exact Has.at (by decide) (Has.sub (a := State.globalLevelsMask) (by decide +kernel) hm)
    | exact Has.cell (by decide) (Has.sub (a := State.globalLevelsMask) (by decide +kernel) hm)
    | exact Has.cellNext (by decide) (Has.sub (a := State.globalLevelsMask) (by decide +kernel) hm)
    | exact Has.ite (Has.sub (a := State.globalLevelsMask) (by decide +kernel) hm) (Has.sub (a := State.globalLevelsMask) (by decide +kernel) hm)
    | exact .inr (fun _ => rfl)
    | (intro _; rfl)
    | (intro _; simp; done)
    | (simp; assumption)
    | (refine .inr (fun _ => ?_); simp; done)
    | (refine .inr (fun _ => ?_); (repeat' split) <;> first | rfl | (simp; done))
    | (simp; done)

def State.syncLoadMask : Nat :=
  State.boundaryMask ||| Part.pwm.bit

theorem State.syncLoad_touch {msk : Nat} {s0 : State} {s : State} (hk : Touch msk s0 s) (hm : Sub State.syncLoadMask msk) :
    Touch msk s0 (State.syncLoad s) := by
  unfold State.syncLoad
  try dsimp only
  repeat' (with_reducible first
    | assumption
    | exact Touch.refl
    | intro _
    | apply Touch.modChan
    | apply Touch.forChans
    | apply State.boundary_touch
    | apply Touch.ite
    | split)
  all_goals with_reducible first
    | exact .inr rfl
    | exact Sub.trans (b := State.syncLoadMask) (by decide +kernel) hm
    | exact Has.sub (a := State.syncLoadMask) (by decide +kernel) hm
    | exact .inl (Has.sub (a := State.syncLoadMask) (by decide +kernel) hm)
    | exact Has.at (by decide) (Has.sub (a := State.syncLoadMask) (by decide +kernel) hm)
    | exact Has.cell (by decide) (Has.sub (a := State.syncLoadMask) (by decide +kernel) hm)
    | exact Has.cellNext (by decide) (Has.sub (a := State.syncLoadMask) (by decide +kernel) hm)
    | exact Has.ite (Has.sub (a := State.syncLoadMask) (by decide +kernel) hm) (Has.sub (a := State.syncLoadMask) (by decide +kernel) hm)
    | exact .inr (fun _ => rfl)
    | (intro _; rfl)
    | (intro _; simp; done)
    | (simp; assumption)
    | (refine .inr (fun _ => ?_); simp; done)
    | (refine .inr (fun _ => ?_); (repeat' split) <;> first | rfl | (simp; done))
    | (simp; done)

def State.firstLightMask : Nat :=
  rbit R.PWR_TFL ||| Part.clk.bit ||| Part.pwr.bit

theorem State.firstLight_touch {msk : Nat} {s0 : State} {s : State} (hk : Touch msk s0 s) (hm : Sub State.firstLightMask msk) :
    Touch msk s0 (State.firstLight s) := by
  unfold State.firstLight
  try dsimp only
  repeat' (with_reducible first
    | assumption
    | exact Touch.refl
    | intro _
    | apply State.setFld_touch
    | apply Touch.ite
    | (simp only [Touch.mk_iff]; apply TouchMk.intro)
    | split)
  all_goals with_reducible first
    | exact .inr rfl
    | exact Sub.trans (b := State.firstLightMask) (by decide +kernel) hm
    | exact Has.sub (a := State.firstLightMask) (by decide +kernel) hm
    | exact .inl (Has.sub (a := State.firstLightMask) (by decide +kernel) hm)
    | exact Has.at (by decide) (Has.sub (a := State.firstLightMask) (by decide +kernel) hm)
    | exact Has.cell (by decide) (Has.sub (a := State.firstLightMask) (by decide +kernel) hm)
    | exact Has.cellNext (by decide) (Has.sub (a := State.firstLightMask) (by decide +kernel) hm)
    | exact Has.ite (Has.sub (a := State.firstLightMask) (by decide +kernel) hm) (Has.sub (a := State.firstLightMask) (by decide +kernel) hm)
    | exact .inr (fun _ => rfl)
    | (intro _; rfl)
    | (intro _; simp; done)
    | (simp; assumption)
    | (refine .inr (fun _ => ?_); simp; done)
    | (refine .inr (fun _ => ?_); (repeat' split) <;> first | rfl | (simp; done))
    | (simp; done)

def State.dimAgainMask : Nat :=
  Part.pwm.bit

theorem State.dimAgain_touch {msk : Nat} {s0 : State} {s : State} {n : Nat} (hk : Touch msk s0 s) (hm : Sub State.dimAgainMask msk) :
    Touch msk s0 (State.dimAgain s n) := by
  unfold State.dimAgain
  try dsimp only
  repeat' (with_reducible first
    | assumption
    | exact Touch.refl
    | intro _
    | apply Touch.modChan
    | apply Touch.ite
    | split)
  all_goals with_reducible first
    | exact .inr rfl
    | exact Sub.trans (b := State.dimAgainMask) (by decide +kernel) hm
    | exact Has.sub (a := State.dimAgainMask) (by decide +kernel) hm
    | exact .inl (Has.sub (a := State.dimAgainMask) (by decide +kernel) hm)
    | exact Has.at (by decide) (Has.sub (a := State.dimAgainMask) (by decide +kernel) hm)
    | exact Has.cell (by decide) (Has.sub (a := State.dimAgainMask) (by decide +kernel) hm)
    | exact Has.cellNext (by decide) (Has.sub (a := State.dimAgainMask) (by decide +kernel) hm)
    | exact Has.ite (Has.sub (a := State.dimAgainMask) (by decide +kernel) hm) (Has.sub (a := State.dimAgainMask) (by decide +kernel) hm)
    | exact .inr (fun _ => rfl)
    | (intro _; rfl)
    | (intro _; simp; done)
    | (simp; assumption)
    | (refine .inr (fun _ => ?_); simp; done)
    | (refine .inr (fun _ => ?_); (repeat' split) <;> first | rfl | (simp; done))
    | (simp; done)

def State.dimPeriodMask : Nat :=
  State.dimStartMask ||| State.firstLightMask ||| State.dimAgainMask ||| Part.pwm.bit

theorem State.dimPeriod_touch {msk : Nat} {s0 : State} {s : State} {g : Nat} (hk : Touch msk s0 s) (hm : Sub State.dimPeriodMask msk) :
    Touch msk s0 (State.dimPeriod s g) := by
  unfold State.dimPeriod
  try dsimp only
  repeat' (with_reducible first
    | assumption
    | exact Touch.refl
    | intro _
    | apply Touch.modPwm
    | apply Touch.forChans
    | apply State.dimStart_touch
    | apply State.firstLight_touch
    | apply State.dimAgain_touch
    | apply Touch.ite
    | split)
  all_goals with_reducible first
    | exact .inr rfl
    | exact Sub.trans (b := State.dimPeriodMask) (by decide +kernel) hm
    | exact Has.sub (a := State.dimPeriodMask) (by decide +kernel) hm
    | exact .inl (Has.sub (a := State.dimPeriodMask) (by decide +kernel) hm)
    | exact Has.at (by decide) (Has.sub (a := State.dimPeriodMask) (by decide +kernel) hm)
    | exact Has.cell (by decide) (Has.sub (a := State.dimPeriodMask) (by decide +kernel) hm)
    | exact Has.cellNext (by decide) (Has.sub (a := State.dimPeriodMask) (by decide +kernel) hm)
    | exact Has.ite (Has.sub (a := State.dimPeriodMask) (by decide +kernel) hm) (Has.sub (a := State.dimPeriodMask) (by decide +kernel) hm)
    | exact .inr (fun _ => rfl)
    | (intro _; rfl)
    | (intro _; simp; done)
    | (simp; assumption)
    | (refine .inr (fun _ => ?_); simp; done)
    | (refine .inr (fun _ => ?_); (repeat' split) <;> first | rfl | (simp; done))
    | (simp; done)

end Sys2Proof.Machine
end

