-- ==== Sys2Proof/Laws/TouchGtu.lean ====
section
/-! SUPPORT. What each operation of Machine/Gtu.lean may change: its mask, and the proof that it changes nothing else. -/

namespace Sys2Proof.Machine

set_option linter.unusedSimpArgs false
set_option Elab.async false

def State.gtStickMask : Nat :=
  State.irqMask

theorem State.gtStick_touch {msk : Nat} {s0 s : State} {n : Nat} {f : Fld} {en : Bool} (hk : Touch msk s0 s)
    (hm : Sub State.gtStickMask msk) (hf : ∀ n, Has msk ((f.at n).key / 64)) : Touch msk s0 (State.gtStick s n f en) := by
  unfold State.gtStick
  dsimp only
  apply Touch.ite
  · exact State.irq_touch (State.setFlag_touch hk (hf n)) (Sub.trans (b := State.gtStickMask) (by decide +kernel) hm)
  · exact State.setFlag_touch hk (hf n)

def State.gtStepMask : Nat :=
  Part.gtu.bit

theorem State.gtStep_touch {msk : Nat} {s0 : State} {s : State} {n : Nat} (hk : Touch msk s0 s) (hm : Sub State.gtStepMask msk) :
    Touch msk s0 (State.gtStep s n) := by
  unfold State.gtStep
  try dsimp only
  repeat' (with_reducible first
    | assumption
    | exact Touch.refl
    | intro _
    | apply Touch.modGt
    | apply Touch.ite
    | split)
  all_goals with_reducible first
    | exact .inr rfl
    | exact Sub.trans (b := State.gtStepMask) (by decide +kernel) hm
    | exact Has.sub (a := State.gtStepMask) (by decide +kernel) hm
    | exact .inl (Has.sub (a := State.gtStepMask) (by decide +kernel) hm)
    | exact Has.at (by decide) (Has.sub (a := State.gtStepMask) (by decide +kernel) hm)
    | exact Has.cell (by decide) (Has.sub (a := State.gtStepMask) (by decide +kernel) hm)
    | exact Has.cellNext (by decide) (Has.sub (a := State.gtStepMask) (by decide +kernel) hm)
    | exact Has.ite (Has.sub (a := State.gtStepMask) (by decide +kernel) hm) (Has.sub (a := State.gtStepMask) (by decide +kernel) hm)
    | exact .inr (fun _ => rfl)
    | (intro _; rfl)
    | (intro _; simp; done)
    | (simp; assumption)
    | (refine .inr (fun _ => ?_); simp; done)
    | (refine .inr (fun _ => ?_); (repeat' split) <;> first | rfl | (simp; done))
    | (simp; done)

def State.gtKickMask : Nat :=
  Part.gtu.bit

theorem State.gtKick_touch {msk : Nat} {s0 : State} {s : State} {n : Nat} (hk : Touch msk s0 s) (hm : Sub State.gtKickMask msk) :
    Touch msk s0 (State.gtKick s n) := by
  unfold State.gtKick
  try dsimp only
  repeat' (with_reducible first
    | assumption
    | exact Touch.refl
    | intro _
    | apply Touch.modGt
    | apply Touch.ite
    | split)
  all_goals with_reducible first
    | exact .inr rfl
    | exact Sub.trans (b := State.gtKickMask) (by decide +kernel) hm
    | exact Has.sub (a := State.gtKickMask) (by decide +kernel) hm
    | exact .inl (Has.sub (a := State.gtKickMask) (by decide +kernel) hm)
    | exact Has.at (by decide) (Has.sub (a := State.gtKickMask) (by decide +kernel) hm)
    | exact Has.cell (by decide) (Has.sub (a := State.gtKickMask) (by decide +kernel) hm)
    | exact Has.cellNext (by decide) (Has.sub (a := State.gtKickMask) (by decide +kernel) hm)
    | exact Has.ite (Has.sub (a := State.gtKickMask) (by decide +kernel) hm) (Has.sub (a := State.gtKickMask) (by decide +kernel) hm)
    | exact .inr (fun _ => rfl)
    | (intro _; rfl)
    | (intro _; simp; done)
    | (simp; assumption)
    | (refine .inr (fun _ => ?_); simp; done)
    | (refine .inr (fun _ => ?_); (repeat' split) <;> first | rfl | (simp; done))
    | (simp; done)

def State.gtEdgeMask : Nat :=
  State.gtStepMask ||| Part.gtu.bit

theorem State.gtEdge_touch {msk : Nat} {s0 : State} {s : State} {n : Nat} (hk : Touch msk s0 s) (hm : Sub State.gtEdgeMask msk) :
    Touch msk s0 (State.gtEdge s n) := by
  unfold State.gtEdge
  try dsimp only
  repeat' (with_reducible first
    | assumption
    | exact Touch.refl
    | intro _
    | apply Touch.modGt
    | apply State.gtStep_touch
    | (refine Touch.ofEq (by assumption) ?_)
    | apply Touch.ite
    | split)
  all_goals with_reducible first
    | exact .inr rfl
    | exact Sub.trans (b := State.gtEdgeMask) (by decide +kernel) hm
    | exact Has.sub (a := State.gtEdgeMask) (by decide +kernel) hm
    | exact .inl (Has.sub (a := State.gtEdgeMask) (by decide +kernel) hm)
    | exact Has.at (by decide) (Has.sub (a := State.gtEdgeMask) (by decide +kernel) hm)
    | exact Has.cell (by decide) (Has.sub (a := State.gtEdgeMask) (by decide +kernel) hm)
    | exact Has.cellNext (by decide) (Has.sub (a := State.gtEdgeMask) (by decide +kernel) hm)
    | exact Has.ite (Has.sub (a := State.gtEdgeMask) (by decide +kernel) hm) (Has.sub (a := State.gtEdgeMask) (by decide +kernel) hm)
    | exact .inr (fun _ => rfl)
    | (intro _; rfl)
    | (intro _; simp; done)
    | (simp; assumption)
    | (refine .inr (fun _ => ?_); simp; done)
    | (refine .inr (fun _ => ?_); (repeat' split) <;> first | rfl | (simp; done))
    | (simp; done)

def State.gtuIdleMask : Nat :=
  Part.gtu.bit

theorem State.gtuIdle_touch {msk : Nat} {s0 : State} {s : State} (hk : Touch msk s0 s) (hm : Sub State.gtuIdleMask msk) :
    Touch msk s0 (State.gtuIdle s) := by
  unfold State.gtuIdle
  try dsimp only
  repeat' (with_reducible first
    | assumption
    | exact Touch.refl
    | intro _
    | apply Touch.modGt
    | apply Touch.forGts
    | apply Touch.ite
    | split)
  all_goals with_reducible first
    | exact .inr rfl
    | exact Sub.trans (b := State.gtuIdleMask) (by decide +kernel) hm
    | exact Has.sub (a := State.gtuIdleMask) (by decide +kernel) hm
    | exact .inl (Has.sub (a := State.gtuIdleMask) (by decide +kernel) hm)
    | exact Has.at (by decide) (Has.sub (a := State.gtuIdleMask) (by decide +kernel) hm)
    | exact Has.cell (by decide) (Has.sub (a := State.gtuIdleMask) (by decide +kernel) hm)
    | exact Has.cellNext (by decide) (Has.sub (a := State.gtuIdleMask) (by decide +kernel) hm)
    | exact Has.ite (Has.sub (a := State.gtuIdleMask) (by decide +kernel) hm) (Has.sub (a := State.gtuIdleMask) (by decide +kernel) hm)
    | exact .inr (fun _ => rfl)
    | (intro _; rfl)
    | (intro _; simp; done)
    | (simp; assumption)
    | (refine .inr (fun _ => ?_); simp; done)
    | (refine .inr (fun _ => ?_); (repeat' split) <;> first | rfl | (simp; done))
    | (simp; done)

def State.gtKxoMask : Nat :=
  Part.gtu.bit

theorem State.gtKxo_touch {msk : Nat} {s0 : State} {s : State} {n : Nat} {d : Nat} (hk : Touch msk s0 s) (hm : Sub State.gtKxoMask msk) :
    Touch msk s0 (State.gtKxo s n d) := by
  unfold State.gtKxo
  try dsimp only
  repeat' (with_reducible first
    | assumption
    | exact Touch.refl
    | intro _
    | apply Touch.modGt
    | apply Touch.ite
    | split)
  all_goals with_reducible first
    | exact .inr rfl
    | exact Sub.trans (b := State.gtKxoMask) (by decide +kernel) hm
    | exact Has.sub (a := State.gtKxoMask) (by decide +kernel) hm
    | exact .inl (Has.sub (a := State.gtKxoMask) (by decide +kernel) hm)
    | exact Has.at (by decide) (Has.sub (a := State.gtKxoMask) (by decide +kernel) hm)
    | exact Has.cell (by decide) (Has.sub (a := State.gtKxoMask) (by decide +kernel) hm)
    | exact Has.cellNext (by decide) (Has.sub (a := State.gtKxoMask) (by decide +kernel) hm)
    | exact Has.ite (Has.sub (a := State.gtKxoMask) (by decide +kernel) hm) (Has.sub (a := State.gtKxoMask) (by decide +kernel) hm)
    | exact .inr (fun _ => rfl)
    | (intro _; rfl)
    | (intro _; simp; done)
    | (simp; assumption)
    | (refine .inr (fun _ => ?_); simp; done)
    | (refine .inr (fun _ => ?_); (repeat' split) <;> first | rfl | (simp; done))
    | (simp; done)

def State.gtuKeepMask : Nat :=
  Part.gtu.bit

theorem State.gtuKeep_touch {msk : Nat} {s0 : State} {s : State} (hk : Touch msk s0 s) (hm : Sub State.gtuKeepMask msk) :
    Touch msk s0 (State.gtuKeep s) := by
  unfold State.gtuKeep
  try dsimp only
  repeat' (with_reducible first
    | assumption
    | exact Touch.refl
    | intro _
    | apply Touch.modGt
    | apply Touch.forGts
    | apply Touch.ite
    | split)
  all_goals with_reducible first
    | exact .inr rfl
    | exact Sub.trans (b := State.gtuKeepMask) (by decide +kernel) hm
    | exact Has.sub (a := State.gtuKeepMask) (by decide +kernel) hm
    | exact .inl (Has.sub (a := State.gtuKeepMask) (by decide +kernel) hm)
    | exact Has.at (by decide) (Has.sub (a := State.gtuKeepMask) (by decide +kernel) hm)
    | exact Has.cell (by decide) (Has.sub (a := State.gtuKeepMask) (by decide +kernel) hm)
    | exact Has.cellNext (by decide) (Has.sub (a := State.gtuKeepMask) (by decide +kernel) hm)
    | exact Has.ite (Has.sub (a := State.gtuKeepMask) (by decide +kernel) hm) (Has.sub (a := State.gtuKeepMask) (by decide +kernel) hm)
    | exact .inr (fun _ => rfl)
    | (intro _; rfl)
    | (intro _; simp; done)
    | (simp; assumption)
    | (refine .inr (fun _ => ?_); simp; done)
    | (refine .inr (fun _ => ?_); (repeat' split) <;> first | rfl | (simp; done))
    | (simp; done)

def State.gtStartMask : Nat :=
  Part.gtu.bit

theorem State.gtStart_touch {msk : Nat} {s0 : State} {s : State} {n : Nat} (hk : Touch msk s0 s) (hm : Sub State.gtStartMask msk) :
    Touch msk s0 (State.gtStart s n) := by
  unfold State.gtStart
  try dsimp only
  repeat' (with_reducible first
    | assumption
    | exact Touch.refl
    | intro _
    | apply Touch.modGt)
  all_goals with_reducible first
    | exact .inr rfl
    | exact Sub.trans (b := State.gtStartMask) (by decide +kernel) hm
    | exact Has.sub (a := State.gtStartMask) (by decide +kernel) hm
    | exact .inl (Has.sub (a := State.gtStartMask) (by decide +kernel) hm)
    | exact Has.at (by decide) (Has.sub (a := State.gtStartMask) (by decide +kernel) hm)
    | exact Has.cell (by decide) (Has.sub (a := State.gtStartMask) (by decide +kernel) hm)
    | exact Has.cellNext (by decide) (Has.sub (a := State.gtStartMask) (by decide +kernel) hm)
    | exact Has.ite (Has.sub (a := State.gtStartMask) (by decide +kernel) hm) (Has.sub (a := State.gtStartMask) (by decide +kernel) hm)
    | exact .inr (fun _ => rfl)
    | (intro _; rfl)
    | (intro _; simp; done)
    | (simp; assumption)
    | (refine .inr (fun _ => ?_); simp; done)
    | (refine .inr (fun _ => ?_); (repeat' split) <;> first | rfl | (simp; done))
    | (simp; done)

def State.gtuEnaMask : Nat :=
  State.gtStartMask ||| rbit R.GTU_ENA ||| Part.gtu.bit

theorem State.gtuEna_touch {msk : Nat} {s0 : State} {s : State} {v : Word} (hk : Touch msk s0 s) (hm : Sub State.gtuEnaMask msk) :
    Touch msk s0 (State.gtuEna s v) := by
  unfold State.gtuEna
  try dsimp only
  repeat' (with_reducible first
    | assumption
    | exact Touch.refl
    | intro _
    | apply Touch.setReg
    | apply Touch.modGt
    | apply Touch.forGts
    | apply State.gtStart_touch
    | apply Touch.ite
    | apply Touch.setReg
    | split)
  all_goals with_reducible first
    | exact .inr rfl
    | exact Sub.trans (b := State.gtuEnaMask) (by decide +kernel) hm
    | exact Has.sub (a := State.gtuEnaMask) (by decide +kernel) hm
    | exact .inl (Has.sub (a := State.gtuEnaMask) (by decide +kernel) hm)
    | exact Has.at (by decide) (Has.sub (a := State.gtuEnaMask) (by decide +kernel) hm)
    | exact Has.cell (by decide) (Has.sub (a := State.gtuEnaMask) (by decide +kernel) hm)
    | exact Has.cellNext (by decide) (Has.sub (a := State.gtuEnaMask) (by decide +kernel) hm)
    | exact Has.ite (Has.sub (a := State.gtuEnaMask) (by decide +kernel) hm) (Has.sub (a := State.gtuEnaMask) (by decide +kernel) hm)
    | exact .inr (fun _ => rfl)
    | (intro _; rfl)
    | (intro _; simp; done)
    | (simp; assumption)
    | (refine .inr (fun _ => ?_); simp; done)
    | (refine .inr (fun _ => ?_); (repeat' split) <;> first | rfl | (simp; done))
    | (simp; done)

def State.gtuReplayMask : Nat :=
  State.gtStartMask ||| Part.gtu.bit

theorem State.gtuReplay_touch {msk : Nat} {s0 : State} {s : State} {kept : List GtChan} (hk : Touch msk s0 s) (hm : Sub State.gtuReplayMask msk) :
    Touch msk s0 (State.gtuReplay s kept) := by
  unfold State.gtuReplay
  try dsimp only
  repeat' (with_reducible first
    | assumption
    | exact Touch.refl
    | intro _
    | apply Touch.modGt
    | apply Touch.forGts
    | apply State.gtStart_touch
    | apply Touch.ite
    | split)
  all_goals with_reducible first
    | exact .inr rfl
    | exact Sub.trans (b := State.gtuReplayMask) (by decide +kernel) hm
    | exact Has.sub (a := State.gtuReplayMask) (by decide +kernel) hm
    | exact .inl (Has.sub (a := State.gtuReplayMask) (by decide +kernel) hm)
    | exact Has.at (by decide) (Has.sub (a := State.gtuReplayMask) (by decide +kernel) hm)
    | exact Has.cell (by decide) (Has.sub (a := State.gtuReplayMask) (by decide +kernel) hm)
    | exact Has.cellNext (by decide) (Has.sub (a := State.gtuReplayMask) (by decide +kernel) hm)
    | exact Has.ite (Has.sub (a := State.gtuReplayMask) (by decide +kernel) hm) (Has.sub (a := State.gtuReplayMask) (by decide +kernel) hm)
    | exact .inr (fun _ => rfl)
    | (intro _; rfl)
    | (intro _; simp; done)
    | (simp; assumption)
    | (refine .inr (fun _ => ?_); simp; done)
    | (refine .inr (fun _ => ?_); (repeat' split) <;> first | rfl | (simp; done))
    | (simp; done)

def State.gtEffectMask : Nat :=
  State.gtStickMask ||| rbit R.GTU_IE ||| rbit R.GTU_CSTAT ||| Part.gtu.bit

theorem State.gtEffect_touch {msk : Nat} {s0 : State} {s : State} {n : Nat} (hk : Touch msk s0 s) (hm : Sub State.gtEffectMask msk) :
    Touch msk s0 (State.gtEffect s n) := by
  unfold State.gtEffect
  try dsimp only
  repeat' (with_reducible first
    | assumption
    | exact Touch.refl
    | intro _
    | apply Touch.modGt
    | apply State.gtStick_touch
    | apply Touch.ite
    | split)
  all_goals with_reducible first
    | exact .inr rfl
    | exact Sub.trans (b := State.gtEffectMask) (by decide +kernel) hm
    | exact Has.sub (a := State.gtEffectMask) (by decide +kernel) hm
    | exact .inl (Has.sub (a := State.gtEffectMask) (by decide +kernel) hm)
    | exact Has.at (by decide) (Has.sub (a := State.gtEffectMask) (by decide +kernel) hm)
    | exact Has.cell (by decide) (Has.sub (a := State.gtEffectMask) (by decide +kernel) hm)
    | exact Has.cellNext (by decide) (Has.sub (a := State.gtEffectMask) (by decide +kernel) hm)
    | exact Has.ite (Has.sub (a := State.gtEffectMask) (by decide +kernel) hm) (Has.sub (a := State.gtEffectMask) (by decide +kernel) hm)
    | exact .inr (fun _ => rfl)
    | (intro _; rfl)
    | (intro _; simp; done)
    | (simp; assumption)
    | (refine .inr (fun _ => ?_); simp; done)
    | (refine .inr (fun _ => ?_); (repeat' split) <;> first | rfl | (simp; done))
    | (simp; done)

def State.gtValueMask : Nat :=
  State.gtEffectMask ||| Part.gtu.bit

theorem State.gtValue_touch {msk : Nat} {s0 : State} {s : State} {n : Nat} {which : Nat} {v : Nat} (hk : Touch msk s0 s) (hm : Sub State.gtValueMask msk) :
    Touch msk s0 (State.gtValue s n which v) := by
  unfold State.gtValue
  try dsimp only
  repeat' (with_reducible first
    | assumption
    | exact Touch.refl
    | intro _
    | apply Touch.modGt
    | apply State.gtEffect_touch
    | (refine Touch.ofEq (by assumption) ?_)
    | apply Touch.ite
    | split)
  all_goals with_reducible first
    | exact .inr rfl
    | exact Sub.trans (b := State.gtValueMask) (by decide +kernel) hm
    | exact Has.sub (a := State.gtValueMask) (by decide +kernel) hm
    | exact .inl (Has.sub (a := State.gtValueMask) (by decide +kernel) hm)
    | exact Has.at (by decide) (Has.sub (a := State.gtValueMask) (by decide +kernel) hm)
    | exact Has.cell (by decide) (Has.sub (a := State.gtValueMask) (by decide +kernel) hm)
    | exact Has.cellNext (by decide) (Has.sub (a := State.gtValueMask) (by decide +kernel) hm)
    | exact Has.ite (Has.sub (a := State.gtValueMask) (by decide +kernel) hm) (Has.sub (a := State.gtValueMask) (by decide +kernel) hm)
    | exact .inr (fun _ => rfl)
    | (intro _; rfl)
    | (intro _; simp; done)
    | (simp; assumption)
    | (refine .inr (fun _ => ?_); simp; done)
    | (refine .inr (fun _ => ?_); (repeat' split) <;> first | rfl | (simp; done))
    | (simp; done)

def State.gtActsMask : Nat :=
  State.pulseMask ||| State.userStartMask ||| State.pushLatestMask ||| State.gtStickMask ||| State.gtKickMask |||
    rbit R.GTU_CSTAT ||| Part.gtu.bit

theorem State.gtActs_touch {msk : Nat} {s0 : State} {s : State} {n : Nat} {k : Nat} (hk : Touch msk s0 s) (hm : Sub State.gtActsMask msk) :
    Touch msk s0 (State.gtActs s n k) := by
  unfold State.gtActs
  try dsimp only
  repeat' (with_reducible first
    | assumption
    | exact Touch.refl
    | intro _
    | apply State.pulse_touch
    | apply State.userStart_touch
    | apply State.pushLatest_touch
    | apply Touch.modGt
    | apply State.gtStick_touch
    | apply State.gtKick_touch
    | apply Touch.ite
    | split)
  all_goals with_reducible first
    | exact .inr rfl
    | exact Sub.trans (b := State.gtActsMask) (by decide +kernel) hm
    | exact Has.sub (a := State.gtActsMask) (by decide +kernel) hm
    | exact .inl (Has.sub (a := State.gtActsMask) (by decide +kernel) hm)
    | exact Has.at (by decide) (Has.sub (a := State.gtActsMask) (by decide +kernel) hm)
    | exact Has.cell (by decide) (Has.sub (a := State.gtActsMask) (by decide +kernel) hm)
    | exact Has.cellNext (by decide) (Has.sub (a := State.gtActsMask) (by decide +kernel) hm)
    | exact Has.ite (Has.sub (a := State.gtActsMask) (by decide +kernel) hm) (Has.sub (a := State.gtActsMask) (by decide +kernel) hm)
    | exact .inr (fun _ => rfl)
    | (intro _; rfl)
    | (intro _; simp; done)
    | (simp; assumption)
    | (refine .inr (fun _ => ?_); simp; done)
    | (refine .inr (fun _ => ?_); (repeat' split) <;> first | rfl | (simp; done))
    | (simp; done)

def State.gtMatchMask : Nat :=
  State.gtActsMask ||| Part.gtu.bit

theorem State.gtMatch_touch {msk : Nat} {s0 : State} {s : State} {n : Nat} {m0 : Bool} {m1 : Bool} (hk : Touch msk s0 s) (hm : Sub State.gtMatchMask msk) :
    Touch msk s0 (State.gtMatch s n m0 m1) := by
  unfold State.gtMatch
  try dsimp only
  repeat' (with_reducible first
    | assumption
    | exact Touch.refl
    | intro _
    | apply Touch.modGt
    | apply State.gtActs_touch
    | apply Touch.ite
    | split)
  all_goals with_reducible first
    | exact .inr rfl
    | exact Sub.trans (b := State.gtMatchMask) (by decide +kernel) hm
    | exact Has.sub (a := State.gtMatchMask) (by decide +kernel) hm
    | exact .inl (Has.sub (a := State.gtMatchMask) (by decide +kernel) hm)
    | exact Has.at (by decide) (Has.sub (a := State.gtMatchMask) (by decide +kernel) hm)
    | exact Has.cell (by decide) (Has.sub (a := State.gtMatchMask) (by decide +kernel) hm)
    | exact Has.cellNext (by decide) (Has.sub (a := State.gtMatchMask) (by decide +kernel) hm)
    | exact Has.ite (Has.sub (a := State.gtMatchMask) (by decide +kernel) hm) (Has.sub (a := State.gtMatchMask) (by decide +kernel) hm)
    | exact .inr (fun _ => rfl)
    | (intro _; rfl)
    | (intro _; simp; done)
    | (simp; assumption)
    | (refine .inr (fun _ => ?_); simp; done)
    | (refine .inr (fun _ => ?_); (repeat' split) <;> first | rfl | (simp; done))
    | (simp; done)

def State.gtCaptureMask : Nat :=
  State.pulseMask ||| State.timCaptureMask ||| State.gtStickMask ||| rbit R.GTU_IE ||| rbit R.GTU_CAP_LO ||| rbit
    R.GTU_CAP_HI ||| rbit R.GTU_CSTAT ||| Part.gtu.bit

theorem State.gtCapture_touch {msk : Nat} {s0 : State} {s : State} {n : Nat} (hk : Touch msk s0 s) (hm : Sub State.gtCaptureMask msk) :
    Touch msk s0 (State.gtCapture s n) := by
  unfold State.gtCapture
  try dsimp only
  repeat' (with_reducible first
    | assumption
    | exact Touch.refl
    | intro _
    | apply State.pulse_touch
    | apply State.timCapture_touch
    | apply Touch.modGt
    | apply State.gtStick_touch
    | apply State.setPair_touch
    | apply Touch.ite
    | split)
  all_goals with_reducible first
    | exact .inr rfl
    | exact Sub.trans (b := State.gtCaptureMask) (by decide +kernel) hm
    | exact Has.sub (a := State.gtCaptureMask) (by decide +kernel) hm
    | exact .inl (Has.sub (a := State.gtCaptureMask) (by decide +kernel) hm)
    | exact Has.at (by decide) (Has.sub (a := State.gtCaptureMask) (by decide +kernel) hm)
    | exact Has.cell (by decide) (Has.sub (a := State.gtCaptureMask) (by decide +kernel) hm)
    | exact Has.cellNext (by decide) (Has.sub (a := State.gtCaptureMask) (by decide +kernel) hm)
    | exact Has.ite (Has.sub (a := State.gtCaptureMask) (by decide +kernel) hm) (Has.sub (a := State.gtCaptureMask) (by decide +kernel) hm)
    | exact .inr (fun _ => rfl)
    | (intro _; rfl)
    | (intro _; simp; done)
    | (simp; assumption)
    | (refine .inr (fun _ => ?_); simp; done)
    | (refine .inr (fun _ => ?_); (repeat' split) <;> first | rfl | (simp; done))
    | (simp; done)

def State.gtTrigMask : Nat :=
  State.gtStepMask ||| State.gtCaptureMask ||| Part.gtu.bit

theorem State.gtTrig_touch {msk : Nat} {s0 : State} {s : State} {n : Nat} (hk : Touch msk s0 s) (hm : Sub State.gtTrigMask msk) :
    Touch msk s0 (State.gtTrig s n) := by
  unfold State.gtTrig
  try dsimp only
  repeat' (with_reducible first
    | assumption
    | exact Touch.refl
    | intro _
    | apply Touch.modGt
    | apply State.gtStep_touch
    | apply State.gtCapture_touch
    | (refine Touch.ofEq (by assumption) ?_)
    | apply Touch.ite
    | split)
  all_goals with_reducible first
    | exact .inr rfl
    | exact Sub.trans (b := State.gtTrigMask) (by decide +kernel) hm
    | exact Has.sub (a := State.gtTrigMask) (by decide +kernel) hm
    | exact .inl (Has.sub (a := State.gtTrigMask) (by decide +kernel) hm)
    | exact Has.at (by decide) (Has.sub (a := State.gtTrigMask) (by decide +kernel) hm)
    | exact Has.cell (by decide) (Has.sub (a := State.gtTrigMask) (by decide +kernel) hm)
    | exact Has.cellNext (by decide) (Has.sub (a := State.gtTrigMask) (by decide +kernel) hm)
    | exact Has.ite (Has.sub (a := State.gtTrigMask) (by decide +kernel) hm) (Has.sub (a := State.gtTrigMask) (by decide +kernel) hm)
    | exact .inr (fun _ => rfl)
    | (intro _; rfl)
    | (intro _; simp; done)
    | (simp; assumption)
    | (refine .inr (fun _ => ?_); simp; done)
    | (refine .inr (fun _ => ?_); (repeat' split) <;> first | rfl | (simp; done))
    | (simp; done)

def State.gtPinMask : Nat :=
  State.gtStepMask ||| State.gtCaptureMask ||| Part.gtu.bit

theorem State.gtPin_touch {msk : Nat} {s0 : State} {s : State} {n : Nat} {level : Bool} (hk : Touch msk s0 s) (hm : Sub State.gtPinMask msk) :
    Touch msk s0 (State.gtPin s n level) := by
  unfold State.gtPin
  try dsimp only
  repeat' (with_reducible first
    | assumption
    | exact Touch.refl
    | intro _
    | apply Touch.modGt
    | apply State.gtStep_touch
    | apply State.gtCapture_touch
    | apply Touch.ite
    | split)
  all_goals with_reducible first
    | exact .inr rfl
    | exact Sub.trans (b := State.gtPinMask) (by decide +kernel) hm
    | exact Has.sub (a := State.gtPinMask) (by decide +kernel) hm
    | exact .inl (Has.sub (a := State.gtPinMask) (by decide +kernel) hm)
    | exact Has.at (by decide) (Has.sub (a := State.gtPinMask) (by decide +kernel) hm)
    | exact Has.cell (by decide) (Has.sub (a := State.gtPinMask) (by decide +kernel) hm)
    | exact Has.cellNext (by decide) (Has.sub (a := State.gtPinMask) (by decide +kernel) hm)
    | exact Has.ite (Has.sub (a := State.gtPinMask) (by decide +kernel) hm) (Has.sub (a := State.gtPinMask) (by decide +kernel) hm)
    | exact .inr (fun _ => rfl)
    | (intro _; rfl)
    | (intro _; simp; done)
    | (simp; assumption)
    | (refine .inr (fun _ => ?_); simp; done)
    | (refine .inr (fun _ => ?_); (repeat' split) <;> first | rfl | (simp; done))
    | (simp; done)

def State.gtPulseMask : Nat :=
  Part.gtu.bit

theorem State.gtPulse_touch {msk : Nat} {s0 : State} {s : State} {n : Nat} (hk : Touch msk s0 s) (hm : Sub State.gtPulseMask msk) :
    Touch msk s0 (State.gtPulse s n) := by
  unfold State.gtPulse
  try dsimp only
  repeat' (with_reducible first
    | assumption
    | exact Touch.refl
    | intro _
    | apply Touch.modGt
    | apply Touch.ite
    | split)
  all_goals with_reducible first
    | exact .inr rfl
    | exact Sub.trans (b := State.gtPulseMask) (by decide +kernel) hm
    | exact Has.sub (a := State.gtPulseMask) (by decide +kernel) hm
    | exact .inl (Has.sub (a := State.gtPulseMask) (by decide +kernel) hm)
    | exact Has.at (by decide) (Has.sub (a := State.gtPulseMask) (by decide +kernel) hm)
    | exact Has.cell (by decide) (Has.sub (a := State.gtPulseMask) (by decide +kernel) hm)
    | exact Has.cellNext (by decide) (Has.sub (a := State.gtPulseMask) (by decide +kernel) hm)
    | exact Has.ite (Has.sub (a := State.gtPulseMask) (by decide +kernel) hm) (Has.sub (a := State.gtPulseMask) (by decide +kernel) hm)
    | exact .inr (fun _ => rfl)
    | (intro _; rfl)
    | (intro _; simp; done)
    | (simp; assumption)
    | (refine .inr (fun _ => ?_); simp; done)
    | (refine .inr (fun _ => ?_); (repeat' split) <;> first | rfl | (simp; done))
    | (simp; done)

def State.gtCatchMask : Nat :=
  State.gtStickMask ||| rbit R.GTU_IE ||| rbit R.GTU_CSTAT ||| Part.gtu.bit

theorem State.gtCatch_touch {msk : Nat} {s0 : State} {s : State} {n : Nat} (hk : Touch msk s0 s) (hm : Sub State.gtCatchMask msk) :
    Touch msk s0 (State.gtCatch s n) := by
  unfold State.gtCatch
  try dsimp only
  repeat' (with_reducible first
    | assumption
    | exact Touch.refl
    | intro _
    | apply Touch.modGt
    | apply State.gtStick_touch
    | (refine Touch.ofEq (by assumption) ?_)
    | apply Touch.ite
    | split)
  all_goals with_reducible first
    | exact .inr rfl
    | exact Sub.trans (b := State.gtCatchMask) (by decide +kernel) hm
    | exact Has.sub (a := State.gtCatchMask) (by decide +kernel) hm
    | exact .inl (Has.sub (a := State.gtCatchMask) (by decide +kernel) hm)
    | exact Has.at (by decide) (Has.sub (a := State.gtCatchMask) (by decide +kernel) hm)
    | exact Has.cell (by decide) (Has.sub (a := State.gtCatchMask) (by decide +kernel) hm)
    | exact Has.cellNext (by decide) (Has.sub (a := State.gtCatchMask) (by decide +kernel) hm)
    | exact Has.ite (Has.sub (a := State.gtCatchMask) (by decide +kernel) hm) (Has.sub (a := State.gtCatchMask) (by decide +kernel) hm)
    | exact .inr (fun _ => rfl)
    | (intro _; rfl)
    | (intro _; simp; done)
    | (simp; assumption)
    | (refine .inr (fun _ => ?_); simp; done)
    | (refine .inr (fun _ => ?_); (repeat' split) <;> first | rfl | (simp; done))
    | (simp; done)

def State.gtuTrgMask : Nat :=
  State.gtKickMask

theorem State.gtuTrg_touch {msk : Nat} {s0 : State} {s : State} {v : Word} (hk : Touch msk s0 s) (hm : Sub State.gtuTrgMask msk) :
    Touch msk s0 (State.gtuTrg s v) := by
  unfold State.gtuTrg
  try dsimp only
  repeat' (with_reducible first
    | assumption
    | exact Touch.refl
    | intro _
    | apply Touch.forGts
    | apply State.gtKick_touch
    | apply Touch.ite
    | split)
  all_goals with_reducible first
    | exact .inr rfl
    | exact Sub.trans (b := State.gtuTrgMask) (by decide +kernel) hm
    | exact Has.sub (a := State.gtuTrgMask) (by decide +kernel) hm
    | exact .inl (Has.sub (a := State.gtuTrgMask) (by decide +kernel) hm)
    | exact Has.at (by decide) (Has.sub (a := State.gtuTrgMask) (by decide +kernel) hm)
    | exact Has.cell (by decide) (Has.sub (a := State.gtuTrgMask) (by decide +kernel) hm)
    | exact Has.cellNext (by decide) (Has.sub (a := State.gtuTrgMask) (by decide +kernel) hm)
    | exact Has.ite (Has.sub (a := State.gtuTrgMask) (by decide +kernel) hm) (Has.sub (a := State.gtuTrgMask) (by decide +kernel) hm)
    | exact .inr (fun _ => rfl)
    | (intro _; rfl)
    | (intro _; simp; done)
    | (simp; assumption)
    | (refine .inr (fun _ => ?_); simp; done)
    | (refine .inr (fun _ => ?_); (repeat' split) <;> first | rfl | (simp; done))
    | (simp; done)

end Sys2Proof.Machine
end

