-- ==== Sys2Proof/Laws/TouchVaultCmd.lean ====
section
/-! SUPPORT. What each operation of Machine/VaultCmd.lean may change: its mask, and the proof that it changes nothing else. -/

namespace Sys2Proof.Machine

set_option linter.unusedSimpArgs false
set_option Elab.async false

@[simp] theorem VltState.legProgram_last {v : VltState} {ws : List Word} : (v.legProgram ws).last = v.last := by
  simp [VltState.legProgram]


@[simp] theorem VltState.legProgram_dropped {v : VltState} {ws : List Word} : (v.legProgram ws).dropped = v.dropped := by
  simp [VltState.legProgram]


@[simp] theorem VltState.scratch_flash {v : VltState} {e : VEntry} {n : Nat} : (v.scratch e n).flash = v.flash := rfl


@[simp] theorem VltState.scratch_last {v : VltState} {e : VEntry} {n : Nat} : (v.scratch e n).last = v.last := rfl


@[simp] theorem VltState.scratch_dropped {v : VltState} {e : VEntry} {n : Nat} : (v.scratch e n).dropped = v.dropped := rfl


@[simp] theorem VltState.scrCommit_flash {v : VltState} {e : VEntry} : (v.scrCommit e).flash = v.flash := VltState.ownCommit_flash


@[simp] theorem VltState.scrCommit_last {v : VltState} {e : VEntry} : (v.scrCommit e).last = v.last := VltState.ownCommit_last


@[simp] theorem VltState.scrCommit_dropped {v : VltState} {e : VEntry} : (v.scrCommit e).dropped = v.dropped := VltState.ownCommit_dropped


def State.rawWriteMask : Nat :=
  Part.vlt.bit

theorem State.rawWrite_touch {msk : Nat} {s0 : State} {s : State} {r : Nat} {a : Nat} {v : Word} (hk : Touch msk s0 s) (hm : Sub State.rawWriteMask msk) :
    Touch msk s0 (State.rawWrite s r a v) := by
  unfold State.rawWrite
  try dsimp only
  repeat' (with_reducible first
    | assumption
    | exact Touch.refl
    | intro _
    | apply Touch.modVlt
    | (refine Touch.ofEq (by assumption) ?_)
    | split)
  all_goals with_reducible first
    | exact .inr rfl
    | exact Sub.trans (b := State.rawWriteMask) (by decide +kernel) hm
    | exact Has.sub (a := State.rawWriteMask) (by decide +kernel) hm
    | exact .inl (Has.sub (a := State.rawWriteMask) (by decide +kernel) hm)
    | exact Has.at (by decide) (Has.sub (a := State.rawWriteMask) (by decide +kernel) hm)
    | exact Has.cell (by decide) (Has.sub (a := State.rawWriteMask) (by decide +kernel) hm)
    | exact Has.cellNext (by decide) (Has.sub (a := State.rawWriteMask) (by decide +kernel) hm)
    | exact Has.ite (Has.sub (a := State.rawWriteMask) (by decide +kernel) hm) (Has.sub (a := State.rawWriteMask) (by decide +kernel) hm)
    | exact .inr (fun _ => rfl)
    | (intro _; rfl)
    | (intro _; simp; done)
    | (simp; assumption)
    | (refine .inr (fun _ => ?_); simp; done)
    | (refine .inr (fun _ => ?_); (repeat' split) <;> first | rfl | (simp; done))
    | (simp; done)

def State.rselWriteMask : Nat :=
  State.modPathMask ||| rbit R.VLT_RSEL

theorem State.rselWrite_touch {msk : Nat} {s0 : State} {s : State} {v : Word} (hk : Touch msk s0 s) (hm : Sub State.rselWriteMask msk) :
    Touch msk s0 (State.rselWrite s v) := by
  unfold State.rselWrite
  try dsimp only
  repeat' (with_reducible first
    | assumption
    | exact Touch.refl
    | intro _
    | apply State.modPath_touch
    | apply State.setFld_touch
    | apply Touch.ite
    | split)
  all_goals with_reducible first
    | exact .inr rfl
    | exact Sub.trans (b := State.rselWriteMask) (by decide +kernel) hm
    | exact Has.sub (a := State.rselWriteMask) (by decide +kernel) hm
    | exact .inl (Has.sub (a := State.rselWriteMask) (by decide +kernel) hm)
    | exact Has.at (by decide) (Has.sub (a := State.rselWriteMask) (by decide +kernel) hm)
    | exact Has.cell (by decide) (Has.sub (a := State.rselWriteMask) (by decide +kernel) hm)
    | exact Has.cellNext (by decide) (Has.sub (a := State.rselWriteMask) (by decide +kernel) hm)
    | exact Has.ite (Has.sub (a := State.rselWriteMask) (by decide +kernel) hm) (Has.sub (a := State.rselWriteMask) (by decide +kernel) hm)
    | exact .inr (fun _ => rfl)
    | (intro _; rfl)
    | (intro _; simp; done)
    | (simp; assumption)
    | (refine .inr (fun _ => ?_); simp; done)
    | (refine .inr (fun _ => ?_); (repeat' split) <;> first | rfl | (simp; done))
    | (simp; done)

def State.pwWrongMask : Nat :=
  State.postMask ||| State.vStickMask ||| State.modKeepMask

theorem State.pwWrong_touch {msk : Nat} {s0 : State} {s : State} {r : Nat} (hk : Touch msk s0 s) (hm : Sub State.pwWrongMask msk) :
    Touch msk s0 (State.pwWrong s r) := by
  unfold State.pwWrong
  try dsimp only
  repeat' (with_reducible first
    | assumption
    | exact Touch.refl
    | intro _
    | apply State.post_touch
    | apply State.vStick_touch
    | apply State.modKeep_touch)
  all_goals with_reducible first
    | exact .inr rfl
    | exact Sub.trans (b := State.pwWrongMask) (by decide +kernel) hm
    | exact Has.sub (a := State.pwWrongMask) (by decide +kernel) hm
    | exact .inl (Has.sub (a := State.pwWrongMask) (by decide +kernel) hm)
    | exact Has.at (by decide) (Has.sub (a := State.pwWrongMask) (by decide +kernel) hm)
    | exact Has.cell (by decide) (Has.sub (a := State.pwWrongMask) (by decide +kernel) hm)
    | exact Has.cellNext (by decide) (Has.sub (a := State.pwWrongMask) (by decide +kernel) hm)
    | exact Has.ite (Has.sub (a := State.pwWrongMask) (by decide +kernel) hm) (Has.sub (a := State.pwWrongMask) (by decide +kernel) hm)
    | exact .inr (fun _ => rfl)
    | (intro _; rfl)
    | (intro _; simp; done)
    | (simp; assumption)
    | (refine .inr (fun _ => ?_); simp; done)
    | (refine .inr (fun _ => ?_); (repeat' split) <;> first | rfl | (simp; done))
    | (simp; done)

def State.pwdWriteMask : Nat :=
  State.modPathMask ||| State.modKeepMask ||| State.pwWrongMask

theorem State.pwdWrite_touch {msk : Nat} {s0 : State} {s : State} {p : Path} {v : Word} (hk : Touch msk s0 s) (hm : Sub State.pwdWriteMask msk) :
    Touch msk s0 (State.pwdWrite s p v) := by
  unfold State.pwdWrite
  try dsimp only
  repeat' (with_reducible first
    | assumption
    | exact Touch.refl
    | intro _
    | apply State.modPath_touch
    | apply State.modKeep_touch
    | apply State.pwWrong_touch
    | apply Touch.ite
    | split)
  all_goals with_reducible first
    | exact .inr rfl
    | exact Sub.trans (b := State.pwdWriteMask) (by decide +kernel) hm
    | exact Has.sub (a := State.pwdWriteMask) (by decide +kernel) hm
    | exact .inl (Has.sub (a := State.pwdWriteMask) (by decide +kernel) hm)
    | exact Has.at (by decide) (Has.sub (a := State.pwdWriteMask) (by decide +kernel) hm)
    | exact Has.cell (by decide) (Has.sub (a := State.pwdWriteMask) (by decide +kernel) hm)
    | exact Has.cellNext (by decide) (Has.sub (a := State.pwdWriteMask) (by decide +kernel) hm)
    | exact Has.ite (Has.sub (a := State.pwdWriteMask) (by decide +kernel) hm) (Has.sub (a := State.pwdWriteMask) (by decide +kernel) hm)
    | exact .inr (fun _ => rfl)
    | (intro _; rfl)
    | (intro _; simp; done)
    | (simp; assumption)
    | (refine .inr (fun _ => ?_); simp; done)
    | (refine .inr (fun _ => ?_); (repeat' split) <;> first | rfl | (simp; done))
    | (simp; done)

def State.setPwdMask : Nat :=
  State.modPathMask ||| State.vRecordMask ||| State.vRefuseMask ||| Part.vlt.bit

theorem State.setPwd_touch {msk : Nat} {s0 : State} {s : State} {p : Path} (hk : Touch msk s0 s) (hm : Sub State.setPwdMask msk) :
    Touch msk s0 (State.setPwd s p) := by
  unfold State.setPwd
  try dsimp only
  repeat' (with_reducible first
    | assumption
    | exact Touch.refl
    | intro _
    | apply State.modPath_touch
    | apply Touch.modVlt
    | apply State.vRecord_touch
    | apply State.vRefuse_touch
    | apply Touch.ite
    | split)
  all_goals with_reducible first
    | exact .inr rfl
    | exact Sub.trans (b := State.setPwdMask) (by decide +kernel) hm
    | exact Has.sub (a := State.setPwdMask) (by decide +kernel) hm
    | exact .inl (Has.sub (a := State.setPwdMask) (by decide +kernel) hm)
    | exact Has.at (by decide) (Has.sub (a := State.setPwdMask) (by decide +kernel) hm)
    | exact Has.cell (by decide) (Has.sub (a := State.setPwdMask) (by decide +kernel) hm)
    | exact Has.cellNext (by decide) (Has.sub (a := State.setPwdMask) (by decide +kernel) hm)
    | exact Has.ite (Has.sub (a := State.setPwdMask) (by decide +kernel) hm) (Has.sub (a := State.setPwdMask) (by decide +kernel) hm)
    | exact .inr (fun _ => rfl)
    | (intro _; rfl)
    | (intro _; simp; done)
    | (simp; assumption)
    | (refine .inr (fun _ => ?_); simp; done)
    | (refine .inr (fun _ => ?_); (repeat' split) <;> first | rfl | (simp; done))
    | (simp; done)

def State.vltLockMask : Nat :=
  State.modPathMask

theorem State.vltLock_touch {msk : Nat} {s0 : State} {s : State} {p : Path} (hk : Touch msk s0 s) (hm : Sub State.vltLockMask msk) :
    Touch msk s0 (State.vltLock s p) := by
  unfold State.vltLock
  try dsimp only
  repeat' (with_reducible first
    | assumption
    | exact Touch.refl
    | intro _
    | apply State.modPath_touch)
  all_goals with_reducible first
    | exact .inr rfl
    | exact Sub.trans (b := State.vltLockMask) (by decide +kernel) hm
    | exact Has.sub (a := State.vltLockMask) (by decide +kernel) hm
    | exact .inl (Has.sub (a := State.vltLockMask) (by decide +kernel) hm)
    | exact Has.at (by decide) (Has.sub (a := State.vltLockMask) (by decide +kernel) hm)
    | exact Has.cell (by decide) (Has.sub (a := State.vltLockMask) (by decide +kernel) hm)
    | exact Has.cellNext (by decide) (Has.sub (a := State.vltLockMask) (by decide +kernel) hm)
    | exact Has.ite (Has.sub (a := State.vltLockMask) (by decide +kernel) hm) (Has.sub (a := State.vltLockMask) (by decide +kernel) hm)
    | exact .inr (fun _ => rfl)
    | (intro _; rfl)
    | (intro _; simp; done)
    | (simp; assumption)
    | (refine .inr (fun _ => ?_); simp; done)
    | (refine .inr (fun _ => ?_); (repeat' split) <;> first | rfl | (simp; done))
    | (simp; done)

def State.rawCmdMask : Nat :=
  State.vRefuseMask

theorem State.rawCmd_touch {msk : Nat} {s0 : State} {s : State} {p : Path} {r : Nat} {f : State → State} (hk : Touch msk s0 s) (hm : Sub State.rawCmdMask msk) (hf : ∀ u0, Touch msk s0 u0 → Touch msk s0 (f u0)) :
    Touch msk s0 (State.rawCmd s p r f) := by
  unfold State.rawCmd
  try dsimp only
  repeat' (with_reducible first
    | assumption
    | exact Touch.refl
    | intro _
    | apply State.vRefuse_touch
    | apply hf
    | apply Touch.ite
    | split)
  all_goals with_reducible first
    | exact .inr rfl
    | exact Sub.trans (b := State.rawCmdMask) (by decide +kernel) hm
    | exact Has.sub (a := State.rawCmdMask) (by decide +kernel) hm
    | exact .inl (Has.sub (a := State.rawCmdMask) (by decide +kernel) hm)
    | exact Has.at (by decide) (Has.sub (a := State.rawCmdMask) (by decide +kernel) hm)
    | exact Has.cell (by decide) (Has.sub (a := State.rawCmdMask) (by decide +kernel) hm)
    | exact Has.cellNext (by decide) (Has.sub (a := State.rawCmdMask) (by decide +kernel) hm)
    | exact Has.ite (Has.sub (a := State.rawCmdMask) (by decide +kernel) hm) (Has.sub (a := State.rawCmdMask) (by decide +kernel) hm)
    | exact .inr (fun _ => rfl)
    | (intro _; rfl)
    | (intro _; simp; done)
    | (simp; assumption)
    | (refine .inr (fun _ => ?_); simp; done)
    | (refine .inr (fun _ => ?_); (repeat' split) <;> first | rfl | (simp; done))
    | (simp; done)

def State.pageWriteMask : Nat :=
  State.vRefuseMask ||| State.vOperateMask ||| State.rawCmdMask ||| Part.vlt.bit

theorem State.pageWrite_touch {msk : Nat} {s0 : State} {s : State} {p : Path} (hk : Touch msk s0 s) (hm : Sub State.pageWriteMask msk) :
    Touch msk s0 (State.pageWrite s p) := by
  unfold State.pageWrite
  try dsimp only
  repeat' (with_reducible first
    | assumption
    | exact Touch.refl
    | intro _
    | apply Touch.modVlt
    | apply State.vRefuse_touch
    | apply State.vOperate_touch
    | apply State.rawCmd_touch
    | apply Touch.ite
    | split)
  all_goals with_reducible first
    | exact .inr rfl
    | exact Sub.trans (b := State.pageWriteMask) (by decide +kernel) hm
    | exact Has.sub (a := State.pageWriteMask) (by decide +kernel) hm
    | exact .inl (Has.sub (a := State.pageWriteMask) (by decide +kernel) hm)
    | exact Has.at (by decide) (Has.sub (a := State.pageWriteMask) (by decide +kernel) hm)
    | exact Has.cell (by decide) (Has.sub (a := State.pageWriteMask) (by decide +kernel) hm)
    | exact Has.cellNext (by decide) (Has.sub (a := State.pageWriteMask) (by decide +kernel) hm)
    | exact Has.ite (Has.sub (a := State.pageWriteMask) (by decide +kernel) hm) (Has.sub (a := State.pageWriteMask) (by decide +kernel) hm)
    | exact .inr (fun _ => rfl)
    | (intro _; rfl)
    | (intro _; simp; done)
    | (simp; assumption)
    | (refine .inr (fun _ => ?_); simp; done)
    | (refine .inr (fun _ => ?_); (repeat' split) <;> first | rfl | (simp; done))
    | (simp; done)

def State.sectorEraseMask : Nat :=
  State.vRefuseMask ||| State.vOperateMask ||| State.rawCmdMask

theorem State.sectorErase_touch {msk : Nat} {s0 : State} {s : State} {p : Path} (hk : Touch msk s0 s) (hm : Sub State.sectorEraseMask msk) :
    Touch msk s0 (State.sectorErase s p) := by
  unfold State.sectorErase
  try dsimp only
  repeat' (with_reducible first
    | assumption
    | exact Touch.refl
    | intro _
    | apply State.vRefuse_touch
    | apply State.vOperate_touch
    | apply State.rawCmd_touch
    | apply Touch.ite
    | split)
  all_goals with_reducible first
    | exact .inr rfl
    | exact Sub.trans (b := State.sectorEraseMask) (by decide +kernel) hm
    | exact Has.sub (a := State.sectorEraseMask) (by decide +kernel) hm
    | exact .inl (Has.sub (a := State.sectorEraseMask) (by decide +kernel) hm)
    | exact Has.at (by decide) (Has.sub (a := State.sectorEraseMask) (by decide +kernel) hm)
    | exact Has.cell (by decide) (Has.sub (a := State.sectorEraseMask) (by decide +kernel) hm)
    | exact Has.cellNext (by decide) (Has.sub (a := State.sectorEraseMask) (by decide +kernel) hm)
    | exact Has.ite (Has.sub (a := State.sectorEraseMask) (by decide +kernel) hm) (Has.sub (a := State.sectorEraseMask) (by decide +kernel) hm)
    | exact .inr (fun _ => rfl)
    | (intro _; rfl)
    | (intro _; simp; done)
    | (simp; assumption)
    | (refine .inr (fun _ => ?_); simp; done)
    | (refine .inr (fun _ => ?_); (repeat' split) <;> first | rfl | (simp; done))
    | (simp; done)

def State.legShowMask : Nat :=
  rbit R.VLT_STAT ||| rbit R.VLT_LEGSEQ

theorem State.legShow_touch {msk : Nat} {s0 : State} {s : State} (hk : Touch msk s0 s) (hm : Sub State.legShowMask msk) :
    Touch msk s0 (State.legShow s) := by
  unfold State.legShow
  try dsimp only
  repeat' (with_reducible first
    | assumption
    | exact Touch.refl
    | intro _
    | apply Touch.setReg
    | apply State.setFlag_touch
    | (refine Touch.ofEq (by assumption) ?_)
    | apply Touch.setReg
    | split)
  all_goals with_reducible first
    | exact .inr rfl
    | exact Sub.trans (b := State.legShowMask) (by decide +kernel) hm
    | exact Has.sub (a := State.legShowMask) (by decide +kernel) hm
    | exact .inl (Has.sub (a := State.legShowMask) (by decide +kernel) hm)
    | exact Has.at (by decide) (Has.sub (a := State.legShowMask) (by decide +kernel) hm)
    | exact Has.cell (by decide) (Has.sub (a := State.legShowMask) (by decide +kernel) hm)
    | exact Has.cellNext (by decide) (Has.sub (a := State.legShowMask) (by decide +kernel) hm)
    | exact Has.ite (Has.sub (a := State.legShowMask) (by decide +kernel) hm) (Has.sub (a := State.legShowMask) (by decide +kernel) hm)
    | exact .inr (fun _ => rfl)
    | (intro _; rfl)
    | (intro _; simp; done)
    | (simp; assumption)
    | (refine .inr (fun _ => ?_); simp; done)
    | (refine .inr (fun _ => ?_); (repeat' split) <;> first | rfl | (simp; done))
    | (simp; done)

def State.legJudgeMask : Nat :=
  State.postMask ||| State.vStickMask ||| State.legShowMask

theorem State.legJudge_touch {msk : Nat} {s0 : State} {s : State} (hk : Touch msk s0 s) (hm : Sub State.legJudgeMask msk) :
    Touch msk s0 (State.legJudge s) := by
  unfold State.legJudge
  try dsimp only
  repeat' (with_reducible first
    | assumption
    | exact Touch.refl
    | intro _
    | apply State.post_touch
    | apply State.vStick_touch
    | apply State.legShow_touch
    | apply Touch.ite
    | split)
  all_goals with_reducible first
    | exact .inr rfl
    | exact Sub.trans (b := State.legJudgeMask) (by decide +kernel) hm
    | exact Has.sub (a := State.legJudgeMask) (by decide +kernel) hm
    | exact .inl (Has.sub (a := State.legJudgeMask) (by decide +kernel) hm)
    | exact Has.at (by decide) (Has.sub (a := State.legJudgeMask) (by decide +kernel) hm)
    | exact Has.cell (by decide) (Has.sub (a := State.legJudgeMask) (by decide +kernel) hm)
    | exact Has.cellNext (by decide) (Has.sub (a := State.legJudgeMask) (by decide +kernel) hm)
    | exact Has.ite (Has.sub (a := State.legJudgeMask) (by decide +kernel) hm) (Has.sub (a := State.legJudgeMask) (by decide +kernel) hm)
    | exact .inr (fun _ => rfl)
    | (intro _; rfl)
    | (intro _; simp; done)
    | (simp; assumption)
    | (refine .inr (fun _ => ?_); simp; done)
    | (refine .inr (fun _ => ?_); (repeat' split) <;> first | rfl | (simp; done))
    | (simp; done)

def State.legLoadMask : Nat :=
  State.rawCmdMask ||| Part.vlt.bit

theorem State.legLoad_touch {msk : Nat} {s0 : State} {s : State} {p : Path} (hk : Touch msk s0 s) (hm : Sub State.legLoadMask msk) :
    Touch msk s0 (State.legLoad s p) := by
  unfold State.legLoad
  try dsimp only
  repeat' (with_reducible first
    | assumption
    | exact Touch.refl
    | intro _
    | apply Touch.modVlt
    | apply State.rawCmd_touch
    | (refine Touch.ofEq (by assumption) ?_)
    | split)
  all_goals with_reducible first
    | exact .inr rfl
    | exact Sub.trans (b := State.legLoadMask) (by decide +kernel) hm
    | exact Has.sub (a := State.legLoadMask) (by decide +kernel) hm
    | exact .inl (Has.sub (a := State.legLoadMask) (by decide +kernel) hm)
    | exact Has.at (by decide) (Has.sub (a := State.legLoadMask) (by decide +kernel) hm)
    | exact Has.cell (by decide) (Has.sub (a := State.legLoadMask) (by decide +kernel) hm)
    | exact Has.cellNext (by decide) (Has.sub (a := State.legLoadMask) (by decide +kernel) hm)
    | exact Has.ite (Has.sub (a := State.legLoadMask) (by decide +kernel) hm) (Has.sub (a := State.legLoadMask) (by decide +kernel) hm)
    | exact .inr (fun _ => rfl)
    | (intro _; rfl)
    | (intro _; simp; done)
    | (simp; assumption)
    | (refine .inr (fun _ => ?_); simp; done)
    | (refine .inr (fun _ => ?_); (repeat' split) <;> first | rfl | (simp; done))
    | (simp; done)

def State.legWriteMask : Nat :=
  State.vRefuseMask ||| State.vOperateMask ||| State.rawCmdMask

theorem State.legWrite_touch {msk : Nat} {s0 : State} {s : State} {p : Path} (hk : Touch msk s0 s) (hm : Sub State.legWriteMask msk) :
    Touch msk s0 (State.legWrite s p) := by
  unfold State.legWrite
  try dsimp only
  repeat' (with_reducible first
    | assumption
    | exact Touch.refl
    | intro _
    | apply State.vRefuse_touch
    | apply State.vOperate_touch
    | apply State.rawCmd_touch
    | apply Touch.ite
    | split)
  all_goals with_reducible first
    | exact .inr rfl
    | exact Sub.trans (b := State.legWriteMask) (by decide +kernel) hm
    | exact Has.sub (a := State.legWriteMask) (by decide +kernel) hm
    | exact .inl (Has.sub (a := State.legWriteMask) (by decide +kernel) hm)
    | exact Has.at (by decide) (Has.sub (a := State.legWriteMask) (by decide +kernel) hm)
    | exact Has.cell (by decide) (Has.sub (a := State.legWriteMask) (by decide +kernel) hm)
    | exact Has.cellNext (by decide) (Has.sub (a := State.legWriteMask) (by decide +kernel) hm)
    | exact Has.ite (Has.sub (a := State.legWriteMask) (by decide +kernel) hm) (Has.sub (a := State.legWriteMask) (by decide +kernel) hm)
    | exact .inr (fun _ => rfl)
    | (intro _; rfl)
    | (intro _; simp; done)
    | (simp; assumption)
    | (refine .inr (fun _ => ?_); simp; done)
    | (refine .inr (fun _ => ?_); (repeat' split) <;> first | rfl | (simp; done))
    | (simp; done)

def State.legDoneMask : Nat :=
  State.vDoneMask ||| State.opEndMask ||| State.legShowMask ||| State.legWriteMask ||| Part.flash.bit |||
    Part.vlt.bit

theorem State.legDone_touch {msk : Nat} {s0 : State} {s : State} (hk : Touch msk s0 s) (hm : Sub State.legDoneMask msk) :
    Touch msk s0 (State.legDone s) := by
  unfold State.legDone
  try dsimp only
  repeat' (with_reducible first
    | assumption
    | exact Touch.refl
    | intro _
    | apply Touch.modVlt
    | apply State.vDone_touch
    | apply State.opEnd_touch
    | apply State.legShow_touch
    | apply State.legWrite_touch
    | (refine Touch.ofEq (by assumption) ?_)
    | apply Touch.ite
    | split)
  all_goals with_reducible first
    | exact .inr rfl
    | exact Sub.trans (b := State.legDoneMask) (by decide +kernel) hm
    | exact Has.sub (a := State.legDoneMask) (by decide +kernel) hm
    | exact .inl (Has.sub (a := State.legDoneMask) (by decide +kernel) hm)
    | exact Has.at (by decide) (Has.sub (a := State.legDoneMask) (by decide +kernel) hm)
    | exact Has.cell (by decide) (Has.sub (a := State.legDoneMask) (by decide +kernel) hm)
    | exact Has.cellNext (by decide) (Has.sub (a := State.legDoneMask) (by decide +kernel) hm)
    | exact Has.ite (Has.sub (a := State.legDoneMask) (by decide +kernel) hm) (Has.sub (a := State.legDoneMask) (by decide +kernel) hm)
    | exact .inr (fun _ => rfl)
    | (intro _; rfl)
    | (intro _; simp; done)
    | (simp; assumption)
    | (refine .inr (fun _ => ?_); simp; done)
    | (refine .inr (fun _ => ?_); (repeat' split) <;> first | rfl | (simp; done))
    | (simp; done)

def State.sealDoneMask : Nat :=
  State.postMask ||| rbit R.LOG_SFILL ||| Part.vlt.bit

theorem State.sealDone_touch {msk : Nat} {s0 : State} {s : State} {remote : Bool} (hk : Touch msk s0 s) (hm : Sub State.sealDoneMask msk) :
    Touch msk s0 (State.sealDone s remote) := by
  unfold State.sealDone
  try dsimp only
  repeat' (with_reducible first
    | assumption
    | exact Touch.refl
    | intro _
    | apply State.post_touch
    | apply Touch.modVlt
    | apply State.setFld_touch
    | apply Touch.ite
    | split)
  all_goals with_reducible first
    | exact .inr rfl
    | exact Sub.trans (b := State.sealDoneMask) (by decide +kernel) hm
    | exact Has.sub (a := State.sealDoneMask) (by decide +kernel) hm
    | exact .inl (Has.sub (a := State.sealDoneMask) (by decide +kernel) hm)
    | exact Has.at (by decide) (Has.sub (a := State.sealDoneMask) (by decide +kernel) hm)
    | exact Has.cell (by decide) (Has.sub (a := State.sealDoneMask) (by decide +kernel) hm)
    | exact Has.cellNext (by decide) (Has.sub (a := State.sealDoneMask) (by decide +kernel) hm)
    | exact Has.ite (Has.sub (a := State.sealDoneMask) (by decide +kernel) hm) (Has.sub (a := State.sealDoneMask) (by decide +kernel) hm)
    | exact .inr (fun _ => rfl)
    | (intro _; rfl)
    | (intro _; simp; done)
    | (simp; assumption)
    | (refine .inr (fun _ => ?_); simp; done)
    | (refine .inr (fun _ => ?_); (repeat' split) <;> first | rfl | (simp; done))
    | (simp; done)

def State.rewriteDoneMask : Nat :=
  State.postMask ||| State.vDoneMask ||| State.opEndMask ||| State.sealDoneMask ||| Part.flash.bit ||| Part.vlt.bit

theorem State.rewriteDone_touch {msk : Nat} {s0 : State} {s : State} (hk : Touch msk s0 s) (hm : Sub State.rewriteDoneMask msk) :
    Touch msk s0 (State.rewriteDone s) := by
  unfold State.rewriteDone
  try dsimp only
  repeat' (with_reducible first
    | assumption
    | exact Touch.refl
    | intro _
    | apply State.post_touch
    | apply Touch.modVlt
    | apply State.vDone_touch
    | apply State.opEnd_touch
    | apply State.sealDone_touch
    | (refine Touch.ofEq (by assumption) ?_)
    | apply Touch.ite
    | split)
  all_goals with_reducible first
    | exact .inr rfl
    | exact Sub.trans (b := State.rewriteDoneMask) (by decide +kernel) hm
    | exact Has.sub (a := State.rewriteDoneMask) (by decide +kernel) hm
    | exact .inl (Has.sub (a := State.rewriteDoneMask) (by decide +kernel) hm)
    | exact Has.at (by decide) (Has.sub (a := State.rewriteDoneMask) (by decide +kernel) hm)
    | exact Has.cell (by decide) (Has.sub (a := State.rewriteDoneMask) (by decide +kernel) hm)
    | exact Has.cellNext (by decide) (Has.sub (a := State.rewriteDoneMask) (by decide +kernel) hm)
    | exact Has.ite (Has.sub (a := State.rewriteDoneMask) (by decide +kernel) hm) (Has.sub (a := State.rewriteDoneMask) (by decide +kernel) hm)
    | exact .inr (fun _ => rfl)
    | (intro _; rfl)
    | (intro _; simp; done)
    | (simp; assumption)
    | (refine .inr (fun _ => ?_); simp; done)
    | (refine .inr (fun _ => ?_); (repeat' split) <;> first | rfl | (simp; done))
    | (simp; done)

def State.eraseDoneMask : Nat :=
  State.opEndMask ||| State.foldStartMask ||| Part.flash.bit ||| Part.last.bit ||| Part.vlt.bit

theorem State.eraseDone_touch {msk : Nat} {s0 : State} {s : State} (hk : Touch msk s0 s) (hm : Sub State.eraseDoneMask msk) :
    Touch msk s0 (State.eraseDone s) := by
  unfold State.eraseDone
  try dsimp only
  repeat' (with_reducible first
    | assumption
    | exact Touch.refl
    | intro _
    | apply Touch.modVlt
    | apply State.opEnd_touch
    | apply State.foldStart_touch
    | (refine Touch.ofEq (by assumption) ?_)
    | apply Touch.ite
    | apply Touch.foldl
    | apply Touch.foldlFst
    | split)
  all_goals with_reducible first
    | exact .inr rfl
    | exact Sub.trans (b := State.eraseDoneMask) (by decide +kernel) hm
    | exact Has.sub (a := State.eraseDoneMask) (by decide +kernel) hm
    | exact .inl (Has.sub (a := State.eraseDoneMask) (by decide +kernel) hm)
    | exact Has.at (by decide) (Has.sub (a := State.eraseDoneMask) (by decide +kernel) hm)
    | exact Has.cell (by decide) (Has.sub (a := State.eraseDoneMask) (by decide +kernel) hm)
    | exact Has.cellNext (by decide) (Has.sub (a := State.eraseDoneMask) (by decide +kernel) hm)
    | exact Has.ite (Has.sub (a := State.eraseDoneMask) (by decide +kernel) hm) (Has.sub (a := State.eraseDoneMask) (by decide +kernel) hm)
    | exact .inr (fun _ => rfl)
    | (intro _; rfl)
    | (intro _; simp; done)
    | (simp; assumption)
    | (refine .inr (fun _ => ?_); simp; done)
    | (refine .inr (fun _ => ?_); (repeat' split) <;> first | rfl | (simp; done))
    | (simp; done)

def State.foldPostMask : Nat :=
  State.postMask ||| State.vStickMask

theorem State.foldPost_touch {msk : Nat} {s0 : State} {s : State} (hk : Touch msk s0 s) (hm : Sub State.foldPostMask msk) :
    Touch msk s0 (State.foldPost s) := by
  unfold State.foldPost
  try dsimp only
  repeat' (with_reducible first
    | assumption
    | exact Touch.refl
    | intro _
    | apply State.post_touch
    | apply State.vStick_touch
    | apply Touch.ite
    | split)
  all_goals with_reducible first
    | exact .inr rfl
    | exact Sub.trans (b := State.foldPostMask) (by decide +kernel) hm
    | exact Has.sub (a := State.foldPostMask) (by decide +kernel) hm
    | exact .inl (Has.sub (a := State.foldPostMask) (by decide +kernel) hm)
    | exact Has.at (by decide) (Has.sub (a := State.foldPostMask) (by decide +kernel) hm)
    | exact Has.cell (by decide) (Has.sub (a := State.foldPostMask) (by decide +kernel) hm)
    | exact Has.cellNext (by decide) (Has.sub (a := State.foldPostMask) (by decide +kernel) hm)
    | exact Has.ite (Has.sub (a := State.foldPostMask) (by decide +kernel) hm) (Has.sub (a := State.foldPostMask) (by decide +kernel) hm)
    | exact .inr (fun _ => rfl)
    | (intro _; rfl)
    | (intro _; simp; done)
    | (simp; assumption)
    | (refine .inr (fun _ => ?_); simp; done)
    | (refine .inr (fun _ => ?_); (repeat' split) <;> first | rfl | (simp; done))
    | (simp; done)

def State.foldDoneMask : Nat :=
  State.foldStartMask ||| State.foldPostMask ||| Part.last.bit ||| Part.vlt.bit

theorem State.foldDone_touch {msk : Nat} {s0 : State} {s : State} (hk : Touch msk s0 s) (hm : Sub State.foldDoneMask msk) :
    Touch msk s0 (State.foldDone s) := by
  unfold State.foldDone
  try dsimp only
  repeat' (with_reducible first
    | assumption
    | exact Touch.refl
    | intro _
    | apply Touch.modVlt
    | apply State.foldStart_touch
    | apply State.foldPost_touch
    | (refine Touch.ofEq (by assumption) ?_)
    | apply Touch.ite
    | apply Touch.foldl
    | apply Touch.foldlFst
    | split)
  all_goals with_reducible first
    | exact .inr rfl
    | exact Sub.trans (b := State.foldDoneMask) (by decide +kernel) hm
    | exact Has.sub (a := State.foldDoneMask) (by decide +kernel) hm
    | exact .inl (Has.sub (a := State.foldDoneMask) (by decide +kernel) hm)
    | exact Has.at (by decide) (Has.sub (a := State.foldDoneMask) (by decide +kernel) hm)
    | exact Has.cell (by decide) (Has.sub (a := State.foldDoneMask) (by decide +kernel) hm)
    | exact Has.cellNext (by decide) (Has.sub (a := State.foldDoneMask) (by decide +kernel) hm)
    | exact Has.ite (Has.sub (a := State.foldDoneMask) (by decide +kernel) hm) (Has.sub (a := State.foldDoneMask) (by decide +kernel) hm)
    | exact .inr (fun _ => rfl)
    | (intro _; rfl)
    | (intro _; simp; done)
    | (simp; assumption)
    | (refine .inr (fun _ => ?_); simp; done)
    | (refine .inr (fun _ => ?_); (repeat' split) <;> first | rfl | (simp; done))
    | (simp; done)

def State.saveShowMask : Nat :=
  rbit R.LMP_STAT ||| rbit R.FDE_STAT ||| rbit R.HLT_STAT

theorem State.saveShow_touch {msk : Nat} {s0 : State} {s : State} (hk : Touch msk s0 s) (hm : Sub State.saveShowMask msk) :
    Touch msk s0 (State.saveShow s) := by
  unfold State.saveShow
  try dsimp only
  repeat' (with_reducible first
    | assumption
    | exact Touch.refl
    | intro _
    | apply State.setFlag_touch)
  all_goals with_reducible first
    | exact .inr rfl
    | exact Sub.trans (b := State.saveShowMask) (by decide +kernel) hm
    | exact Has.sub (a := State.saveShowMask) (by decide +kernel) hm
    | exact .inl (Has.sub (a := State.saveShowMask) (by decide +kernel) hm)
    | exact Has.at (by decide) (Has.sub (a := State.saveShowMask) (by decide +kernel) hm)
    | exact Has.cell (by decide) (Has.sub (a := State.saveShowMask) (by decide +kernel) hm)
    | exact Has.cellNext (by decide) (Has.sub (a := State.saveShowMask) (by decide +kernel) hm)
    | exact Has.ite (Has.sub (a := State.saveShowMask) (by decide +kernel) hm) (Has.sub (a := State.saveShowMask) (by decide +kernel) hm)
    | exact .inr (fun _ => rfl)
    | (intro _; rfl)
    | (intro _; simp; done)
    | (simp; assumption)
    | (refine .inr (fun _ => ?_); simp; done)
    | (refine .inr (fun _ => ?_); (repeat' split) <;> first | rfl | (simp; done))
    | (simp; done)

def State.sealClearMask : Nat :=
  Part.vlt.bit

theorem State.sealClear_touch {msk : Nat} {s0 : State} {s : State} {e : VEntry} (hk : Touch msk s0 s)
    (hm : Sub State.sealClearMask msk) : Touch msk s0 (State.sealClear s e) := by
  unfold State.sealClear
  split
  · exact Touch.modVlt hk (Has.sub (a := State.sealClearMask) (by decide +kernel) hm) (.inr fun _ => rfl) (.inr fun _ => rfl) (.inr fun _ => rfl)
  · exact hk

def State.verifyFailMask : Nat :=
  State.vWaitingMask ||| State.vIntegrityMask ||| State.opEndMask ||| State.saveShowMask ||| State.sealClearMask |||
    rbit R.VLT_ERR ||| Part.flash.bit ||| Part.last.bit ||| Part.vlt.bit

theorem State.verifyFail_touch {msk : Nat} {s0 : State} {s : State} (hk : Touch msk s0 s) (hm : Sub State.verifyFailMask msk) :
    Touch msk s0 (State.verifyFail s) := by
  unfold State.verifyFail
  try dsimp only
  repeat' (with_reducible first
    | assumption
    | exact Touch.refl
    | intro _
    | apply Touch.modVlt
    | apply State.vWaiting_touch
    | apply State.vIntegrity_touch
    | apply State.opEnd_touch
    | apply State.saveShow_touch
    | apply State.sealClear_touch
    | apply State.setFld_touch
    | (refine Touch.ofEq (by assumption) ?_)
    | apply Touch.ite
    | apply Touch.foldl
    | apply Touch.foldlFst
    | split)
  all_goals with_reducible first
    | exact .inr rfl
    | exact Sub.trans (b := State.verifyFailMask) (by decide +kernel) hm
    | exact Has.sub (a := State.verifyFailMask) (by decide +kernel) hm
    | exact .inl (Has.sub (a := State.verifyFailMask) (by decide +kernel) hm)
    | exact Has.at (by decide) (Has.sub (a := State.verifyFailMask) (by decide +kernel) hm)
    | exact Has.cell (by decide) (Has.sub (a := State.verifyFailMask) (by decide +kernel) hm)
    | exact Has.cellNext (by decide) (Has.sub (a := State.verifyFailMask) (by decide +kernel) hm)
    | exact Has.ite (Has.sub (a := State.verifyFailMask) (by decide +kernel) hm) (Has.sub (a := State.verifyFailMask) (by decide +kernel) hm)
    | exact .inr (fun _ => rfl)
    | (intro _; rfl)
    | (intro _; simp; done)
    | (simp; assumption)
    | (refine .inr (fun _ => ?_); simp; done)
    | (refine .inr (fun _ => ?_); (repeat' split) <;> first | rfl | (simp; done))
    | (simp; done)

def State.commitDoneMask : Nat :=
  State.commitEndMask ||| State.commitStartMask ||| State.commitFullMask

theorem State.commitDone_touch {msk : Nat} {s0 : State} {s : State} (hk : Touch msk s0 s) (hm : Sub State.commitDoneMask msk) :
    Touch msk s0 (State.commitDone s) := by
  unfold State.commitDone
  try dsimp only
  repeat' (with_reducible first
    | assumption
    | exact Touch.refl
    | intro _
    | apply State.commitEnd_touch
    | apply State.commitStart_touch
    | apply State.commitFull_touch
    | (refine Touch.ofEq (by assumption) ?_)
    | apply Touch.ite
    | split)
  all_goals with_reducible first
    | exact .inr rfl
    | exact Sub.trans (b := State.commitDoneMask) (by decide +kernel) hm
    | exact Has.sub (a := State.commitDoneMask) (by decide +kernel) hm
    | exact .inl (Has.sub (a := State.commitDoneMask) (by decide +kernel) hm)
    | exact Has.at (by decide) (Has.sub (a := State.commitDoneMask) (by decide +kernel) hm)
    | exact Has.cell (by decide) (Has.sub (a := State.commitDoneMask) (by decide +kernel) hm)
    | exact Has.cellNext (by decide) (Has.sub (a := State.commitDoneMask) (by decide +kernel) hm)
    | exact Has.ite (Has.sub (a := State.commitDoneMask) (by decide +kernel) hm) (Has.sub (a := State.commitDoneMask) (by decide +kernel) hm)
    | exact .inr (fun _ => rfl)
    | (intro _; rfl)
    | (intro _; simp; done)
    | (simp; assumption)
    | (refine .inr (fun _ => ?_); simp; done)
    | (refine .inr (fun _ => ?_); (repeat' split) <;> first | rfl | (simp; done))
    | (simp; done)

def State.vltCmdMask : Nat :=
  State.commitStartMask ||| State.vRefuseMask ||| State.setPwdMask ||| State.vltLockMask ||| State.pageWriteMask |||
    State.sectorEraseMask ||| State.legLoadMask ||| State.legWriteMask

theorem State.vltCmd_touch {msk : Nat} {s0 : State} {s : State} {p : Path} {code : Nat} (hk : Touch msk s0 s) (hm : Sub State.vltCmdMask msk) :
    Touch msk s0 (State.vltCmd s p code) := by
  unfold State.vltCmd
  try dsimp only
  repeat' (with_reducible first
    | assumption
    | exact Touch.refl
    | intro _
    | apply State.commitStart_touch
    | apply State.vRefuse_touch
    | apply State.setPwd_touch
    | apply State.vltLock_touch
    | apply State.pageWrite_touch
    | apply State.sectorErase_touch
    | apply State.legLoad_touch
    | apply State.legWrite_touch
    | (refine Touch.ofEq (by assumption) ?_)
    | apply Touch.ite
    | split)
  all_goals with_reducible first
    | exact .inr rfl
    | exact Sub.trans (b := State.vltCmdMask) (by decide +kernel) hm
    | exact Has.sub (a := State.vltCmdMask) (by decide +kernel) hm
    | exact .inl (Has.sub (a := State.vltCmdMask) (by decide +kernel) hm)
    | exact Has.at (by decide) (Has.sub (a := State.vltCmdMask) (by decide +kernel) hm)
    | exact Has.cell (by decide) (Has.sub (a := State.vltCmdMask) (by decide +kernel) hm)
    | exact Has.cellNext (by decide) (Has.sub (a := State.vltCmdMask) (by decide +kernel) hm)
    | exact Has.ite (Has.sub (a := State.vltCmdMask) (by decide +kernel) hm) (Has.sub (a := State.vltCmdMask) (by decide +kernel) hm)
    | exact .inr (fun _ => rfl)
    | (intro _; rfl)
    | (intro _; simp; done)
    | (simp; assumption)
    | (refine .inr (fun _ => ?_); simp; done)
    | (refine .inr (fun _ => ?_); (repeat' split) <;> first | rfl | (simp; done))
    | (simp; done)

def State.hatWriteMask : Nat :=
  State.stickMask ||| State.postMask ||| State.vRefuseMask ||| State.hatIncMask ||| rbit R.SEC_STAT

theorem State.hatWrite_touch {msk : Nat} {s0 : State} {s : State} (hk : Touch msk s0 s) (hm : Sub State.hatWriteMask msk) :
    Touch msk s0 (State.hatWrite s) := by
  unfold State.hatWrite
  try dsimp only
  repeat' (with_reducible first
    | assumption
    | exact Touch.refl
    | intro _
    | apply State.stick_touch
    | apply State.post_touch
    | apply State.vRefuse_touch
    | apply State.hatInc_touch
    | apply Touch.ite
    | split)
  all_goals with_reducible first
    | exact .inr rfl
    | exact Sub.trans (b := State.hatWriteMask) (by decide +kernel) hm
    | exact Has.sub (a := State.hatWriteMask) (by decide +kernel) hm
    | exact .inl (Has.sub (a := State.hatWriteMask) (by decide +kernel) hm)
    | exact Has.at (by decide) (Has.sub (a := State.hatWriteMask) (by decide +kernel) hm)
    | exact Has.cell (by decide) (Has.sub (a := State.hatWriteMask) (by decide +kernel) hm)
    | exact Has.cellNext (by decide) (Has.sub (a := State.hatWriteMask) (by decide +kernel) hm)
    | exact Has.ite (Has.sub (a := State.hatWriteMask) (by decide +kernel) hm) (Has.sub (a := State.hatWriteMask) (by decide +kernel) hm)
    | exact .inr (fun _ => rfl)
    | (intro _; rfl)
    | (intro _; simp; done)
    | (simp; assumption)
    | (refine .inr (fun _ => ?_); simp; done)
    | (refine .inr (fun _ => ?_); (repeat' split) <;> first | rfl | (simp; done))
    | (simp; done)

end Sys2Proof.Machine
end

