-- ==== Sys2Proof/Laws/TouchRecorder.lean ====
section
/-! SUPPORT. What each operation of Machine/Recorder.lean may change: its mask, and the proof that it changes nothing else. -/

namespace Sys2Proof.Machine

set_option linter.unusedSimpArgs false
set_option Elab.async false

def State.logStickMask : Nat :=
  State.stickMask ||| rbit R.LOG_STAT

theorem State.logStick_touch {msk : Nat} {s0 : State} {s : State} {f : Fld} (hk : Touch msk s0 s) (hm : Sub State.logStickMask msk) :
    Touch msk s0 (State.logStick s f) := by
  unfold State.logStick
  try dsimp only
  repeat' (with_reducible first
    | assumption
    | exact Touch.refl
    | intro _
    | apply State.stick_touch)
  all_goals with_reducible first
    | exact .inr rfl
    | exact Sub.trans (b := State.logStickMask) (by decide +kernel) hm
    | exact Has.sub (a := State.logStickMask) (by decide +kernel) hm
    | exact .inl (Has.sub (a := State.logStickMask) (by decide +kernel) hm)
    | exact Has.at (by decide) (Has.sub (a := State.logStickMask) (by decide +kernel) hm)
    | exact Has.cell (by decide) (Has.sub (a := State.logStickMask) (by decide +kernel) hm)
    | exact Has.cellNext (by decide) (Has.sub (a := State.logStickMask) (by decide +kernel) hm)
    | exact Has.ite (Has.sub (a := State.logStickMask) (by decide +kernel) hm) (Has.sub (a := State.logStickMask) (by decide +kernel) hm)
    | exact .inr (fun _ => rfl)
    | (intro _; rfl)
    | (intro _; simp; done)
    | (simp; assumption)
    | (refine .inr (fun _ => ?_); simp; done)
    | (refine .inr (fun _ => ?_); (repeat' split) <;> first | rfl | (simp; done))
    | (simp; done)

def State.logAheadMask : Nat :=
  State.vOperateMask ||| State.logStickMask ||| Part.flash.bit ||| Part.vlt.bit

theorem State.logAhead_touch {msk : Nat} {s0 : State} {s : State} {h : Nat} (hk : Touch msk s0 s) (hm : Sub State.logAheadMask msk) :
    Touch msk s0 (State.logAhead s h) := by
  unfold State.logAhead
  try dsimp only
  repeat' (with_reducible first
    | assumption
    | exact Touch.refl
    | intro _
    | apply Touch.modVlt
    | apply State.vOperate_touch
    | apply State.logStick_touch
    | apply Touch.ite
    | split)
  all_goals with_reducible first
    | exact .inr rfl
    | exact Sub.trans (b := State.logAheadMask) (by decide +kernel) hm
    | exact Has.sub (a := State.logAheadMask) (by decide +kernel) hm
    | exact .inl (Has.sub (a := State.logAheadMask) (by decide +kernel) hm)
    | exact Has.at (by decide) (Has.sub (a := State.logAheadMask) (by decide +kernel) hm)
    | exact Has.cell (by decide) (Has.sub (a := State.logAheadMask) (by decide +kernel) hm)
    | exact Has.cellNext (by decide) (Has.sub (a := State.logAheadMask) (by decide +kernel) hm)
    | exact Has.ite (Has.sub (a := State.logAheadMask) (by decide +kernel) hm) (Has.sub (a := State.logAheadMask) (by decide +kernel) hm)
    | exact .inr (fun _ => rfl)
    | (intro _; rfl)
    | (intro _; simp; done)
    | (simp; assumption)
    | (refine .inr (fun _ => ?_); simp; done)
    | (refine .inr (fun _ => ?_); (repeat' split) <;> first | rfl | (simp; done))
    | (simp; done)

def State.logWriteMask : Nat :=
  State.logStickMask ||| State.logAheadMask ||| rbit R.LOG_HEAD ||| rbit R.LOG_SFILL ||| rbit R.LOG_WCNT_LO ||| rbit
    R.LOG_WCNT_HI ||| Part.flash.bit ||| Part.last.bit ||| Part.vlt.bit

theorem State.logWrite_touch {msk : Nat} {s0 : State} {s : State} {x : EvRec} (hk : Touch msk s0 s) (hm : Sub State.logWriteMask msk) :
    Touch msk s0 (State.logWrite s x) := by
  unfold State.logWrite
  try dsimp only
  repeat' (with_reducible first
    | assumption
    | exact Touch.refl
    | intro _
    | apply Touch.modVlt
    | apply State.logStick_touch
    | apply State.logAhead_touch
    | apply State.setFld_touch
    | apply State.setPair_touch
    | apply Touch.ite
    | split)
  all_goals with_reducible first
    | exact .inr rfl
    | exact Sub.trans (b := State.logWriteMask) (by decide +kernel) hm
    | exact Has.sub (a := State.logWriteMask) (by decide +kernel) hm
    | exact .inl (Has.sub (a := State.logWriteMask) (by decide +kernel) hm)
    | exact Has.at (by decide) (Has.sub (a := State.logWriteMask) (by decide +kernel) hm)
    | exact Has.cell (by decide) (Has.sub (a := State.logWriteMask) (by decide +kernel) hm)
    | exact Has.cellNext (by decide) (Has.sub (a := State.logWriteMask) (by decide +kernel) hm)
    | exact Has.ite (Has.sub (a := State.logWriteMask) (by decide +kernel) hm) (Has.sub (a := State.logWriteMask) (by decide +kernel) hm)
    | exact .inr (fun _ => rfl)
    | (intro _; rfl)
    | (intro _; simp; done)
    | (simp; assumption)
    | (refine .inr (fun _ => ?_); simp; done)
    | (refine .inr (fun _ => ?_); (repeat' split) <;> first | rfl | (simp; done))
    | (simp; done)

def State.overflowEndMask : Nat :=
  State.postMask ||| Part.drops.bit ||| Part.vlt.bit

theorem State.overflowEnd_touch {msk : Nat} {s0 : State} {s : State} (hk : Touch msk s0 s) (hm : Sub State.overflowEndMask msk) :
    Touch msk s0 (State.overflowEnd s) := by
  unfold State.overflowEnd
  try dsimp only
  repeat' (with_reducible first
    | assumption
    | exact Touch.refl
    | intro _
    | apply State.post_touch
    | apply Touch.modVlt
    | apply Touch.ite
    | split)
  all_goals with_reducible first
    | exact .inr rfl
    | exact Sub.trans (b := State.overflowEndMask) (by decide +kernel) hm
    | exact Has.sub (a := State.overflowEndMask) (by decide +kernel) hm
    | exact .inl (Has.sub (a := State.overflowEndMask) (by decide +kernel) hm)
    | exact Has.at (by decide) (Has.sub (a := State.overflowEndMask) (by decide +kernel) hm)
    | exact Has.cell (by decide) (Has.sub (a := State.overflowEndMask) (by decide +kernel) hm)
    | exact Has.cellNext (by decide) (Has.sub (a := State.overflowEndMask) (by decide +kernel) hm)
    | exact Has.ite (Has.sub (a := State.overflowEndMask) (by decide +kernel) hm) (Has.sub (a := State.overflowEndMask) (by decide +kernel) hm)
    | exact .inr (fun _ => rfl)
    | (intro _; rfl)
    | (intro _; simp; done)
    | (simp; assumption)
    | (refine .inr (fun _ => ?_); simp; done)
    | (refine .inr (fun _ => ?_); (repeat' split) <;> first | rfl | (simp; done))
    | (simp; done)

def State.recTakeMask : Nat :=
  State.logWriteMask ||| State.overflowEndMask ||| Part.q6.bit

theorem State.recTake_touch {msk : Nat} {s0 : State} {s : State} (hk : Touch msk s0 s) (hm : Sub State.recTakeMask msk) :
    Touch msk s0 (State.recTake s).1 := by
  unfold State.recTake
  try dsimp only
  repeat' (with_reducible first
    | assumption
    | exact Touch.refl
    | intro _
    | apply State.logWrite_touch
    | apply State.overflowEnd_touch
    | (refine Touch.ofEq (by assumption) ?_)
    | apply Touch.ite
    | (simp only [Touch.mk_iff]; apply TouchMk.intro)
    | split)
  all_goals with_reducible first
    | exact .inr rfl
    | exact Sub.trans (b := State.recTakeMask) (by decide +kernel) hm
    | exact Has.sub (a := State.recTakeMask) (by decide +kernel) hm
    | exact .inl (Has.sub (a := State.recTakeMask) (by decide +kernel) hm)
    | exact Has.at (by decide) (Has.sub (a := State.recTakeMask) (by decide +kernel) hm)
    | exact Has.cell (by decide) (Has.sub (a := State.recTakeMask) (by decide +kernel) hm)
    | exact Has.cellNext (by decide) (Has.sub (a := State.recTakeMask) (by decide +kernel) hm)
    | exact Has.ite (Has.sub (a := State.recTakeMask) (by decide +kernel) hm) (Has.sub (a := State.recTakeMask) (by decide +kernel) hm)
    | exact .inr (fun _ => rfl)
    | (intro _; rfl)
    | (intro _; simp; done)
    | (simp; assumption)
    | (refine .inr (fun _ => ?_); simp; done)
    | (refine .inr (fun _ => ?_); (repeat' split) <;> first | rfl | (simp; done))
    | (simp; done)

def State.recStartMask : Nat :=
  State.postMask ||| State.enterQ6Mask ||| State.modKeepMask ||| State.logStickMask ||| State.logAheadMask ||| rbit
    R.LOG_HEAD ||| Part.q6.bit ||| Part.vlt.bit

theorem State.recStart_touch {msk : Nat} {s0 : State} {s : State} (hk : Touch msk s0 s) (hm : Sub State.recStartMask msk) :
    Touch msk s0 (State.recStart s) := by
  unfold State.recStart
  try dsimp only
  repeat' (with_reducible first
    | assumption
    | exact Touch.refl
    | intro _
    | apply State.post_touch
    | apply State.enterQ6_touch
    | apply Touch.modVlt
    | apply State.modKeep_touch
    | apply State.logStick_touch
    | apply State.logAhead_touch
    | apply State.setFld_touch
    | (refine Touch.ofEq (by assumption) ?_)
    | apply Touch.ite
    | apply Touch.foldl
    | apply Touch.foldlFst
    | (simp only [Touch.mk_iff]; apply TouchMk.intro)
    | split)
  all_goals with_reducible first
    | exact .inr rfl
    | exact Sub.trans (b := State.recStartMask) (by decide +kernel) hm
    | exact Has.sub (a := State.recStartMask) (by decide +kernel) hm
    | exact .inl (Has.sub (a := State.recStartMask) (by decide +kernel) hm)
    | exact Has.at (by decide) (Has.sub (a := State.recStartMask) (by decide +kernel) hm)
    | exact Has.cell (by decide) (Has.sub (a := State.recStartMask) (by decide +kernel) hm)
    | exact Has.cellNext (by decide) (Has.sub (a := State.recStartMask) (by decide +kernel) hm)
    | exact Has.ite (Has.sub (a := State.recStartMask) (by decide +kernel) hm) (Has.sub (a := State.recStartMask) (by decide +kernel) hm)
    | exact .inr (fun _ => rfl)
    | (intro _; rfl)
    | (intro _; simp; done)
    | (simp; assumption)
    | (refine .inr (fun _ => ?_); simp; done)
    | (refine .inr (fun _ => ?_); (repeat' split) <;> first | rfl | (simp; done))
    | (simp; done)

def State.q6LostMask : Nat :=
  State.modKeepMask ||| Part.q6.bit

theorem State.q6Lost_touch {msk : Nat} {s0 : State} {s : State} (hk : Touch msk s0 s) (hm : Sub State.q6LostMask msk) :
    Touch msk s0 (State.q6Lost s) := by
  unfold State.q6Lost
  try dsimp only
  repeat' (with_reducible first
    | assumption
    | exact Touch.refl
    | intro _
    | apply State.modKeep_touch
    | (simp only [Touch.mk_iff]; apply TouchMk.intro))
  all_goals with_reducible first
    | exact .inr rfl
    | exact Sub.trans (b := State.q6LostMask) (by decide +kernel) hm
    | exact Has.sub (a := State.q6LostMask) (by decide +kernel) hm
    | exact .inl (Has.sub (a := State.q6LostMask) (by decide +kernel) hm)
    | exact Has.at (by decide) (Has.sub (a := State.q6LostMask) (by decide +kernel) hm)
    | exact Has.cell (by decide) (Has.sub (a := State.q6LostMask) (by decide +kernel) hm)
    | exact Has.cellNext (by decide) (Has.sub (a := State.q6LostMask) (by decide +kernel) hm)
    | exact Has.ite (Has.sub (a := State.q6LostMask) (by decide +kernel) hm) (Has.sub (a := State.q6LostMask) (by decide +kernel) hm)
    | exact .inr (fun _ => rfl)
    | (intro _; rfl)
    | (intro _; simp; done)
    | (simp; assumption)
    | (refine .inr (fun _ => ?_); simp; done)
    | (refine .inr (fun _ => ?_); (repeat' split) <;> first | rfl | (simp; done))
    | (simp; done)

def State.q6BurstMask : Nat :=
  State.logWriteMask ||| Part.q6.bit

theorem State.q6Burst_touch {msk : Nat} {s0 : State} {s : State} (hk : Touch msk s0 s) (hm : Sub State.q6BurstMask msk) :
    Touch msk s0 (State.q6Burst s) := by
  unfold State.q6Burst
  try dsimp only
  repeat' (with_reducible first
    | assumption
    | exact Touch.refl
    | intro _
    | apply State.logWrite_touch
    | apply Touch.foldl
    | apply Touch.foldlFst
    | (simp only [Touch.mk_iff]; apply TouchMk.intro))
  all_goals with_reducible first
    | exact .inr rfl
    | exact Sub.trans (b := State.q6BurstMask) (by decide +kernel) hm
    | exact Has.sub (a := State.q6BurstMask) (by decide +kernel) hm
    | exact .inl (Has.sub (a := State.q6BurstMask) (by decide +kernel) hm)
    | exact Has.at (by decide) (Has.sub (a := State.q6BurstMask) (by decide +kernel) hm)
    | exact Has.cell (by decide) (Has.sub (a := State.q6BurstMask) (by decide +kernel) hm)
    | exact Has.cellNext (by decide) (Has.sub (a := State.q6BurstMask) (by decide +kernel) hm)
    | exact Has.ite (Has.sub (a := State.q6BurstMask) (by decide +kernel) hm) (Has.sub (a := State.q6BurstMask) (by decide +kernel) hm)
    | exact .inr (fun _ => rfl)
    | (intro _; rfl)
    | (intro _; simp; done)
    | (simp; assumption)
    | (refine .inr (fun _ => ?_); simp; done)
    | (refine .inr (fun _ => ?_); (repeat' split) <;> first | rfl | (simp; done))
    | (simp; done)

def State.sealWriteMask : Nat :=
  State.vOperateMask ||| Part.vlt.bit

theorem State.sealWrite_touch {msk : Nat} {s0 : State} {s : State} {p : Path} {v : Word} (hk : Touch msk s0 s) (hm : Sub State.sealWriteMask msk) :
    Touch msk s0 (State.sealWrite s p v) := by
  unfold State.sealWrite
  try dsimp only
  repeat' (with_reducible first
    | assumption
    | exact Touch.refl
    | intro _
    | apply Touch.modVlt
    | apply State.vOperate_touch
    | apply Touch.ite
    | split)
  all_goals with_reducible first
    | exact .inr rfl
    | exact Sub.trans (b := State.sealWriteMask) (by decide +kernel) hm
    | exact Has.sub (a := State.sealWriteMask) (by decide +kernel) hm
    | exact .inl (Has.sub (a := State.sealWriteMask) (by decide +kernel) hm)
    | exact Has.at (by decide) (Has.sub (a := State.sealWriteMask) (by decide +kernel) hm)
    | exact Has.cell (by decide) (Has.sub (a := State.sealWriteMask) (by decide +kernel) hm)
    | exact Has.cellNext (by decide) (Has.sub (a := State.sealWriteMask) (by decide +kernel) hm)
    | exact Has.ite (Has.sub (a := State.sealWriteMask) (by decide +kernel) hm) (Has.sub (a := State.sealWriteMask) (by decide +kernel) hm)
    | exact .inr (fun _ => rfl)
    | (intro _; rfl)
    | (intro _; simp; done)
    | (simp; assumption)
    | (refine .inr (fun _ => ?_); simp; done)
    | (refine .inr (fun _ => ?_); (repeat' split) <;> first | rfl | (simp; done))
    | (simp; done)

def State.hostPostMask : Nat :=
  State.postMask

theorem State.hostPost_touch {msk : Nat} {s0 : State} {s : State} {v : Word} (hk : Touch msk s0 s) (hm : Sub State.hostPostMask msk) :
    Touch msk s0 (State.hostPost s v) := by
  unfold State.hostPost
  try dsimp only
  repeat' (with_reducible first
    | assumption
    | exact Touch.refl
    | intro _
    | apply State.post_touch)
  all_goals with_reducible first
    | exact .inr rfl
    | exact Sub.trans (b := State.hostPostMask) (by decide +kernel) hm
    | exact Has.sub (a := State.hostPostMask) (by decide +kernel) hm
    | exact .inl (Has.sub (a := State.hostPostMask) (by decide +kernel) hm)
    | exact Has.at (by decide) (Has.sub (a := State.hostPostMask) (by decide +kernel) hm)
    | exact Has.cell (by decide) (Has.sub (a := State.hostPostMask) (by decide +kernel) hm)
    | exact Has.cellNext (by decide) (Has.sub (a := State.hostPostMask) (by decide +kernel) hm)
    | exact Has.ite (Has.sub (a := State.hostPostMask) (by decide +kernel) hm) (Has.sub (a := State.hostPostMask) (by decide +kernel) hm)
    | exact .inr (fun _ => rfl)
    | (intro _; rfl)
    | (intro _; simp; done)
    | (simp; assumption)
    | (refine .inr (fun _ => ?_); simp; done)
    | (refine .inr (fun _ => ?_); (repeat' split) <;> first | rfl | (simp; done))
    | (simp; done)

end Sys2Proof.Machine
end

