-- ==== Sys2Proof/Laws/TouchPhy.lean ====
section
/-! SUPPORT. What each operation of Machine/Phy.lean may change: its mask, and the proof that it changes nothing else. -/

namespace Sys2Proof.Machine

set_option linter.unusedSimpArgs false
set_option Elab.async false

def State.modPhyMask : Nat :=
  Part.phy.bit

theorem State.modPhy_touch {msk : Nat} {s0 : State} {s : State} {f : PhyState → PhyState} (hk : Touch msk s0 s) (hm : Sub State.modPhyMask msk) :
    Touch msk s0 (State.modPhy s f) := by
  unfold State.modPhy
  try dsimp only
  repeat' (with_reducible first
    | assumption
    | exact Touch.refl
    | intro _
    | (simp only [Touch.mk_iff]; apply TouchMk.intro))
  all_goals with_reducible first
    | exact .inr rfl
    | exact Sub.trans (b := State.modPhyMask) (by decide +kernel) hm
    | exact Has.sub (a := State.modPhyMask) (by decide +kernel) hm
    | exact .inl (Has.sub (a := State.modPhyMask) (by decide +kernel) hm)
    | exact Has.at (by decide) (Has.sub (a := State.modPhyMask) (by decide +kernel) hm)
    | exact Has.cell (by decide) (Has.sub (a := State.modPhyMask) (by decide +kernel) hm)
    | exact Has.cellNext (by decide) (Has.sub (a := State.modPhyMask) (by decide +kernel) hm)
    | exact Has.ite (Has.sub (a := State.modPhyMask) (by decide +kernel) hm) (Has.sub (a := State.modPhyMask) (by decide +kernel) hm)
    | exact .inr (fun _ => rfl)
    | (intro _; rfl)
    | (intro _; simp; done)
    | (simp; assumption)
    | (refine .inr (fun _ => ?_); simp; done)
    | (refine .inr (fun _ => ?_); (repeat' split) <;> first | rfl | (simp; done))
    | (simp; done)

def State.phyStickMask : Nat :=
  State.stickMask ||| rbit R.PHY_STAT

theorem State.phyStick_touch {msk : Nat} {s0 : State} {s : State} {f : Fld} (hk : Touch msk s0 s) (hm : Sub State.phyStickMask msk) :
    Touch msk s0 (State.phyStick s f) := by
  unfold State.phyStick
  try dsimp only
  repeat' (with_reducible first
    | assumption
    | exact Touch.refl
    | intro _
    | apply State.stick_touch)
  all_goals with_reducible first
    | exact .inr rfl
    | exact Sub.trans (b := State.phyStickMask) (by decide +kernel) hm
    | exact Has.sub (a := State.phyStickMask) (by decide +kernel) hm
    | exact .inl (Has.sub (a := State.phyStickMask) (by decide +kernel) hm)
    | exact Has.at (by decide) (Has.sub (a := State.phyStickMask) (by decide +kernel) hm)
    | exact Has.cell (by decide) (Has.sub (a := State.phyStickMask) (by decide +kernel) hm)
    | exact Has.cellNext (by decide) (Has.sub (a := State.phyStickMask) (by decide +kernel) hm)
    | exact Has.ite (Has.sub (a := State.phyStickMask) (by decide +kernel) hm) (Has.sub (a := State.phyStickMask) (by decide +kernel) hm)
    | exact .inr (fun _ => rfl)
    | (intro _; rfl)
    | (intro _; simp; done)
    | (simp; assumption)
    | (refine .inr (fun _ => ?_); simp; done)
    | (refine .inr (fun _ => ?_); (repeat' split) <;> first | rfl | (simp; done))
    | (simp; done)

def State.courseLenMask : Nat :=
  State.modPhyMask ||| rbit R.PHY_CP

theorem State.courseLen_touch {msk : Nat} {s0 : State} {s : State} {nc : Nat} {at_ : Nat} {base : Nat} (hk : Touch msk s0 s) (hm : Sub State.courseLenMask msk) :
    Touch msk s0 (State.courseLen s nc at_ base) := by
  unfold State.courseLen
  try dsimp only
  repeat' (with_reducible first
    | assumption
    | exact Touch.refl
    | intro _
    | apply State.modPhy_touch
    | apply State.setFld_touch)
  all_goals with_reducible first
    | exact .inr rfl
    | exact Sub.trans (b := State.courseLenMask) (by decide +kernel) hm
    | exact Has.sub (a := State.courseLenMask) (by decide +kernel) hm
    | exact .inl (Has.sub (a := State.courseLenMask) (by decide +kernel) hm)
    | exact Has.at (by decide) (Has.sub (a := State.courseLenMask) (by decide +kernel) hm)
    | exact Has.cell (by decide) (Has.sub (a := State.courseLenMask) (by decide +kernel) hm)
    | exact Has.cellNext (by decide) (Has.sub (a := State.courseLenMask) (by decide +kernel) hm)
    | exact Has.ite (Has.sub (a := State.courseLenMask) (by decide +kernel) hm) (Has.sub (a := State.courseLenMask) (by decide +kernel) hm)
    | exact .inr (fun _ => rfl)
    | (intro _; rfl)
    | (intro _; simp; done)
    | (simp; assumption)
    | (refine .inr (fun _ => ?_); simp; done)
    | (refine .inr (fun _ => ?_); (repeat' split) <;> first | rfl | (simp; done))
    | (simp; done)

def State.planPickMask : Nat :=
  rbit R.PHY_STAT

theorem State.planPick_touch {msk : Nat} {s0 : State} {s : State} (hk : Touch msk s0 s) (hm : Sub State.planPickMask msk) :
    Touch msk s0 (State.planPick s) := by
  unfold State.planPick
  try dsimp only
  repeat' (with_reducible first
    | assumption
    | exact Touch.refl
    | intro _
    | apply State.setFld_touch
    | (refine Touch.ofEq (by assumption) ?_)
    | apply Touch.ite
    | split)
  all_goals with_reducible first
    | exact .inr rfl
    | exact Sub.trans (b := State.planPickMask) (by decide +kernel) hm
    | exact Has.sub (a := State.planPickMask) (by decide +kernel) hm
    | exact .inl (Has.sub (a := State.planPickMask) (by decide +kernel) hm)
    | exact Has.at (by decide) (Has.sub (a := State.planPickMask) (by decide +kernel) hm)
    | exact Has.cell (by decide) (Has.sub (a := State.planPickMask) (by decide +kernel) hm)
    | exact Has.cellNext (by decide) (Has.sub (a := State.planPickMask) (by decide +kernel) hm)
    | exact Has.ite (Has.sub (a := State.planPickMask) (by decide +kernel) hm) (Has.sub (a := State.planPickMask) (by decide +kernel) hm)
    | exact .inr (fun _ => rfl)
    | (intro _; rfl)
    | (intro _; simp; done)
    | (simp; assumption)
    | (refine .inr (fun _ => ?_); simp; done)
    | (refine .inr (fun _ => ?_); (repeat' split) <;> first | rfl | (simp; done))
    | (simp; done)

def State.zcLostMask : Nat :=
  State.postMask ||| State.phyStickMask ||| rbit R.PHY_STAT ||| rbit R.PHY_MPER

theorem State.zcLost_touch {msk : Nat} {s0 : State} {s : State} (hk : Touch msk s0 s) (hm : Sub State.zcLostMask msk) :
    Touch msk s0 (State.zcLost s) := by
  unfold State.zcLost
  try dsimp only
  repeat' (with_reducible first
    | assumption
    | exact Touch.refl
    | intro _
    | apply State.post_touch
    | apply State.phyStick_touch
    | apply State.setFld_touch
    | apply State.setFlag_touch
    | apply Touch.ite
    | split)
  all_goals with_reducible first
    | exact .inr rfl
    | exact Sub.trans (b := State.zcLostMask) (by decide +kernel) hm
    | exact Has.sub (a := State.zcLostMask) (by decide +kernel) hm
    | exact .inl (Has.sub (a := State.zcLostMask) (by decide +kernel) hm)
    | exact Has.at (by decide) (Has.sub (a := State.zcLostMask) (by decide +kernel) hm)
    | exact Has.cell (by decide) (Has.sub (a := State.zcLostMask) (by decide +kernel) hm)
    | exact Has.cellNext (by decide) (Has.sub (a := State.zcLostMask) (by decide +kernel) hm)
    | exact Has.ite (Has.sub (a := State.zcLostMask) (by decide +kernel) hm) (Has.sub (a := State.zcLostMask) (by decide +kernel) hm)
    | exact .inr (fun _ => rfl)
    | (intro _; rfl)
    | (intro _; simp; done)
    | (simp; assumption)
    | (refine .inr (fun _ => ?_); simp; done)
    | (refine .inr (fun _ => ?_); (repeat' split) <;> first | rfl | (simp; done))
    | (simp; done)

def State.zcRiseMask : Nat :=
  State.postMask ||| State.modPhyMask ||| State.zcLostMask ||| rbit R.PHY_STAT ||| rbit R.PHY_MPER

theorem State.zcRise_touch {msk : Nat} {s0 : State} {s : State} {e : Nat} (hk : Touch msk s0 s) (hm : Sub State.zcRiseMask msk) :
    Touch msk s0 (State.zcRise s e) := by
  unfold State.zcRise
  try dsimp only
  repeat' (with_reducible first
    | assumption
    | exact Touch.refl
    | intro _
    | apply State.post_touch
    | apply State.modPhy_touch
    | apply State.zcLost_touch
    | apply State.setFld_touch
    | apply State.setFlag_touch
    | (refine Touch.ofEq (by assumption) ?_)
    | apply Touch.ite
    | split)
  all_goals with_reducible first
    | exact .inr rfl
    | exact Sub.trans (b := State.zcRiseMask) (by decide +kernel) hm
    | exact Has.sub (a := State.zcRiseMask) (by decide +kernel) hm
    | exact .inl (Has.sub (a := State.zcRiseMask) (by decide +kernel) hm)
    | exact Has.at (by decide) (Has.sub (a := State.zcRiseMask) (by decide +kernel) hm)
    | exact Has.cell (by decide) (Has.sub (a := State.zcRiseMask) (by decide +kernel) hm)
    | exact Has.cellNext (by decide) (Has.sub (a := State.zcRiseMask) (by decide +kernel) hm)
    | exact Has.ite (Has.sub (a := State.zcRiseMask) (by decide +kernel) hm) (Has.sub (a := State.zcRiseMask) (by decide +kernel) hm)
    | exact .inr (fun _ => rfl)
    | (intro _; rfl)
    | (intro _; simp; done)
    | (simp; assumption)
    | (refine .inr (fun _ => ?_); simp; done)
    | (refine .inr (fun _ => ?_); (repeat' split) <;> first | rfl | (simp; done))
    | (simp; done)

def State.zcTimeoutMask : Nat :=
  State.modPhyMask ||| State.zcLostMask

theorem State.zcTimeout_touch {msk : Nat} {s0 : State} {s : State} (hk : Touch msk s0 s) (hm : Sub State.zcTimeoutMask msk) :
    Touch msk s0 (State.zcTimeout s) := by
  unfold State.zcTimeout
  try dsimp only
  repeat' (with_reducible first
    | assumption
    | exact Touch.refl
    | intro _
    | apply State.modPhy_touch
    | apply State.zcLost_touch
    | apply Touch.ite
    | split)
  all_goals with_reducible first
    | exact .inr rfl
    | exact Sub.trans (b := State.zcTimeoutMask) (by decide +kernel) hm
    | exact Has.sub (a := State.zcTimeoutMask) (by decide +kernel) hm
    | exact .inl (Has.sub (a := State.zcTimeoutMask) (by decide +kernel) hm)
    | exact Has.at (by decide) (Has.sub (a := State.zcTimeoutMask) (by decide +kernel) hm)
    | exact Has.cell (by decide) (Has.sub (a := State.zcTimeoutMask) (by decide +kernel) hm)
    | exact Has.cellNext (by decide) (Has.sub (a := State.zcTimeoutMask) (by decide +kernel) hm)
    | exact Has.ite (Has.sub (a := State.zcTimeoutMask) (by decide +kernel) hm) (Has.sub (a := State.zcTimeoutMask) (by decide +kernel) hm)
    | exact .inr (fun _ => rfl)
    | (intro _; rfl)
    | (intro _; simp; done)
    | (simp; assumption)
    | (refine .inr (fun _ => ?_); simp; done)
    | (refine .inr (fun _ => ?_); (repeat' split) <;> first | rfl | (simp; done))
    | (simp; done)

def State.phaseLearnMask : Nat :=
  State.postMask ||| State.modPhyMask ||| State.phyStickMask ||| rbit R.PHY_PHS

theorem State.phaseLearn_touch {msk : Nat} {s0 : State} {s : State} {start : Int} (hk : Touch msk s0 s) (hm : Sub State.phaseLearnMask msk) :
    Touch msk s0 (State.phaseLearn s start) := by
  unfold State.phaseLearn
  try dsimp only
  repeat' (with_reducible first
    | assumption
    | exact Touch.refl
    | intro _
    | apply State.post_touch
    | apply State.modPhy_touch
    | apply State.phyStick_touch
    | apply State.setFld_touch
    | apply State.setFlag_touch
    | apply Touch.ite
    | split)
  all_goals with_reducible first
    | exact .inr rfl
    | exact Sub.trans (b := State.phaseLearnMask) (by decide +kernel) hm
    | exact Has.sub (a := State.phaseLearnMask) (by decide +kernel) hm
    | exact .inl (Has.sub (a := State.phaseLearnMask) (by decide +kernel) hm)
    | exact Has.at (by decide) (Has.sub (a := State.phaseLearnMask) (by decide +kernel) hm)
    | exact Has.cell (by decide) (Has.sub (a := State.phaseLearnMask) (by decide +kernel) hm)
    | exact Has.cellNext (by decide) (Has.sub (a := State.phaseLearnMask) (by decide +kernel) hm)
    | exact Has.ite (Has.sub (a := State.phaseLearnMask) (by decide +kernel) hm) (Has.sub (a := State.phaseLearnMask) (by decide +kernel) hm)
    | exact .inr (fun _ => rfl)
    | (intro _; rfl)
    | (intro _; simp; done)
    | (simp; assumption)
    | (refine .inr (fun _ => ?_); simp; done)
    | (refine .inr (fun _ => ?_); (repeat' split) <;> first | rfl | (simp; done))
    | (simp; done)

def State.txBeginMask : Nat :=
  State.modPhyMask

theorem State.txBegin_touch {msk : Nat} {s0 : State} {s : State} {hdr : Nat} {bytes : List Byte} {map : List Word} {pos : Nat} (hk : Touch msk s0 s) (hm : Sub State.txBeginMask msk) :
    Touch msk s0 (State.txBegin s hdr bytes map pos) := by
  unfold State.txBegin
  try dsimp only
  repeat' (with_reducible first
    | assumption
    | exact Touch.refl
    | intro _
    | apply State.modPhy_touch)
  all_goals with_reducible first
    | exact .inr rfl
    | exact Sub.trans (b := State.txBeginMask) (by decide +kernel) hm
    | exact Has.sub (a := State.txBeginMask) (by decide +kernel) hm
    | exact .inl (Has.sub (a := State.txBeginMask) (by decide +kernel) hm)
    | exact Has.at (by decide) (Has.sub (a := State.txBeginMask) (by decide +kernel) hm)
    | exact Has.cell (by decide) (Has.sub (a := State.txBeginMask) (by decide +kernel) hm)
    | exact Has.cellNext (by decide) (Has.sub (a := State.txBeginMask) (by decide +kernel) hm)
    | exact Has.ite (Has.sub (a := State.txBeginMask) (by decide +kernel) hm) (Has.sub (a := State.txBeginMask) (by decide +kernel) hm)
    | exact .inr (fun _ => rfl)
    | (intro _; rfl)
    | (intro _; simp; done)
    | (simp; assumption)
    | (refine .inr (fun _ => ?_); simp; done)
    | (refine .inr (fun _ => ?_); (repeat' split) <;> first | rfl | (simp; done))
    | (simp; done)

def State.txStopMask : Nat :=
  State.modPhyMask

theorem State.txStop_touch {msk : Nat} {s0 : State} {s : State} (hk : Touch msk s0 s) (hm : Sub State.txStopMask msk) :
    Touch msk s0 (State.txStop s) := by
  unfold State.txStop
  try dsimp only
  repeat' (with_reducible first
    | assumption
    | exact Touch.refl
    | intro _
    | apply State.modPhy_touch)
  all_goals with_reducible first
    | exact .inr rfl
    | exact Sub.trans (b := State.txStopMask) (by decide +kernel) hm
    | exact Has.sub (a := State.txStopMask) (by decide +kernel) hm
    | exact .inl (Has.sub (a := State.txStopMask) (by decide +kernel) hm)
    | exact Has.at (by decide) (Has.sub (a := State.txStopMask) (by decide +kernel) hm)
    | exact Has.cell (by decide) (Has.sub (a := State.txStopMask) (by decide +kernel) hm)
    | exact Has.cellNext (by decide) (Has.sub (a := State.txStopMask) (by decide +kernel) hm)
    | exact Has.ite (Has.sub (a := State.txStopMask) (by decide +kernel) hm) (Has.sub (a := State.txStopMask) (by decide +kernel) hm)
    | exact .inr (fun _ => rfl)
    | (intro _; rfl)
    | (intro _; simp; done)
    | (simp; assumption)
    | (refine .inr (fun _ => ?_); simp; done)
    | (refine .inr (fun _ => ?_); (repeat' split) <;> first | rfl | (simp; done))
    | (simp; done)

def State.busyAckMask : Nat :=
  State.modPhyMask

theorem State.busyAck_touch {msk : Nat} {s0 : State} {s : State} {e : Nat} (hk : Touch msk s0 s) (hm : Sub State.busyAckMask msk) :
    Touch msk s0 (State.busyAck s e) := by
  unfold State.busyAck
  try dsimp only
  repeat' (with_reducible first
    | assumption
    | exact Touch.refl
    | intro _
    | apply State.modPhy_touch)
  all_goals with_reducible first
    | exact .inr rfl
    | exact Sub.trans (b := State.busyAckMask) (by decide +kernel) hm
    | exact Has.sub (a := State.busyAckMask) (by decide +kernel) hm
    | exact .inl (Has.sub (a := State.busyAckMask) (by decide +kernel) hm)
    | exact Has.at (by decide) (Has.sub (a := State.busyAckMask) (by decide +kernel) hm)
    | exact Has.cell (by decide) (Has.sub (a := State.busyAckMask) (by decide +kernel) hm)
    | exact Has.cellNext (by decide) (Has.sub (a := State.busyAckMask) (by decide +kernel) hm)
    | exact Has.ite (Has.sub (a := State.busyAckMask) (by decide +kernel) hm) (Has.sub (a := State.busyAckMask) (by decide +kernel) hm)
    | exact .inr (fun _ => rfl)
    | (intro _; rfl)
    | (intro _; simp; done)
    | (simp; assumption)
    | (refine .inr (fun _ => ?_); simp; done)
    | (refine .inr (fun _ => ?_); (repeat' split) <;> first | rfl | (simp; done))
    | (simp; done)

def State.busyForMask : Nat :=
  State.modPhyMask

theorem State.busyFor_touch {msk : Nat} {s0 : State} {s : State} {n : Nat} (hk : Touch msk s0 s) (hm : Sub State.busyForMask msk) :
    Touch msk s0 (State.busyFor s n) := by
  unfold State.busyFor
  try dsimp only
  repeat' (with_reducible first
    | assumption
    | exact Touch.refl
    | intro _
    | apply State.modPhy_touch)
  all_goals with_reducible first
    | exact .inr rfl
    | exact Sub.trans (b := State.busyForMask) (by decide +kernel) hm
    | exact Has.sub (a := State.busyForMask) (by decide +kernel) hm
    | exact .inl (Has.sub (a := State.busyForMask) (by decide +kernel) hm)
    | exact Has.at (by decide) (Has.sub (a := State.busyForMask) (by decide +kernel) hm)
    | exact Has.cell (by decide) (Has.sub (a := State.busyForMask) (by decide +kernel) hm)
    | exact Has.cellNext (by decide) (Has.sub (a := State.busyForMask) (by decide +kernel) hm)
    | exact Has.ite (Has.sub (a := State.busyForMask) (by decide +kernel) hm) (Has.sub (a := State.busyForMask) (by decide +kernel) hm)
    | exact .inr (fun _ => rfl)
    | (intro _; rfl)
    | (intro _; simp; done)
    | (simp; assumption)
    | (refine .inr (fun _ => ?_); simp; done)
    | (refine .inr (fun _ => ?_); (repeat' split) <;> first | rfl | (simp; done))
    | (simp; done)

def State.rxNowMask : Nat :=
  State.modPhyMask

theorem State.rxNow_touch {msk : Nat} {s0 : State} {s : State} (hk : Touch msk s0 s) (hm : Sub State.rxNowMask msk) :
    Touch msk s0 (State.rxNow s) := by
  unfold State.rxNow
  try dsimp only
  repeat' (with_reducible first
    | assumption
    | exact Touch.refl
    | intro _
    | apply State.modPhy_touch)
  all_goals with_reducible first
    | exact .inr rfl
    | exact Sub.trans (b := State.rxNowMask) (by decide +kernel) hm
    | exact Has.sub (a := State.rxNowMask) (by decide +kernel) hm
    | exact .inl (Has.sub (a := State.rxNowMask) (by decide +kernel) hm)
    | exact Has.at (by decide) (Has.sub (a := State.rxNowMask) (by decide +kernel) hm)
    | exact Has.cell (by decide) (Has.sub (a := State.rxNowMask) (by decide +kernel) hm)
    | exact Has.cellNext (by decide) (Has.sub (a := State.rxNowMask) (by decide +kernel) hm)
    | exact Has.ite (Has.sub (a := State.rxNowMask) (by decide +kernel) hm) (Has.sub (a := State.rxNowMask) (by decide +kernel) hm)
    | exact .inr (fun _ => rfl)
    | (intro _; rfl)
    | (intro _; simp; done)
    | (simp; assumption)
    | (refine .inr (fun _ => ?_); simp; done)
    | (refine .inr (fun _ => ?_); (repeat' split) <;> first | rfl | (simp; done))
    | (simp; done)

def State.gainSettleMask : Nat :=
  State.useFreeMask ||| rbit R.PHY_AGC

theorem State.gainSettle_touch {msk : Nat} {s0 : State} {s : State} (hk : Touch msk s0 s) (hm : Sub State.gainSettleMask msk) :
    Touch msk s0 (State.gainSettle s) := by
  unfold State.gainSettle
  try dsimp only
  repeat' (with_reducible first
    | assumption
    | exact Touch.refl
    | intro _
    | apply State.useFree_touch
    | apply State.setFld_touch
    | apply Touch.ite
    | split)
  all_goals with_reducible first
    | exact .inr rfl
    | exact Sub.trans (b := State.gainSettleMask) (by decide +kernel) hm
    | exact Has.sub (a := State.gainSettleMask) (by decide +kernel) hm
    | exact .inl (Has.sub (a := State.gainSettleMask) (by decide +kernel) hm)
    | exact Has.at (by decide) (Has.sub (a := State.gainSettleMask) (by decide +kernel) hm)
    | exact Has.cell (by decide) (Has.sub (a := State.gainSettleMask) (by decide +kernel) hm)
    | exact Has.cellNext (by decide) (Has.sub (a := State.gainSettleMask) (by decide +kernel) hm)
    | exact Has.ite (Has.sub (a := State.gainSettleMask) (by decide +kernel) hm) (Has.sub (a := State.gainSettleMask) (by decide +kernel) hm)
    | exact .inr (fun _ => rfl)
    | (intro _; rfl)
    | (intro _; simp; done)
    | (simp; assumption)
    | (refine .inr (fun _ => ?_); simp; done)
    | (refine .inr (fun _ => ?_); (repeat' split) <;> first | rfl | (simp; done))
    | (simp; done)

def State.gainFrameMask : Nat :=
  State.modPhyMask ||| State.gainSettleMask

theorem State.gainFrame_touch {msk : Nat} {s0 : State} {s : State} (hk : Touch msk s0 s) (hm : Sub State.gainFrameMask msk) :
    Touch msk s0 (State.gainFrame s) := by
  unfold State.gainFrame
  try dsimp only
  repeat' (with_reducible first
    | assumption
    | exact Touch.refl
    | intro _
    | apply State.modPhy_touch
    | apply State.gainSettle_touch
    | apply Touch.ite
    | split)
  all_goals with_reducible first
    | exact .inr rfl
    | exact Sub.trans (b := State.gainFrameMask) (by decide +kernel) hm
    | exact Has.sub (a := State.gainFrameMask) (by decide +kernel) hm
    | exact .inl (Has.sub (a := State.gainFrameMask) (by decide +kernel) hm)
    | exact Has.at (by decide) (Has.sub (a := State.gainFrameMask) (by decide +kernel) hm)
    | exact Has.cell (by decide) (Has.sub (a := State.gainFrameMask) (by decide +kernel) hm)
    | exact Has.cellNext (by decide) (Has.sub (a := State.gainFrameMask) (by decide +kernel) hm)
    | exact Has.ite (Has.sub (a := State.gainFrameMask) (by decide +kernel) hm) (Has.sub (a := State.gainFrameMask) (by decide +kernel) hm)
    | exact .inr (fun _ => rfl)
    | (intro _; rfl)
    | (intro _; simp; done)
    | (simp; assumption)
    | (refine .inr (fun _ => ?_); simp; done)
    | (refine .inr (fun _ => ?_); (repeat' split) <;> first | rfl | (simp; done))
    | (simp; done)

def State.clipDrawMask : Nat :=
  State.useFreeMask ||| State.phyStickMask

theorem State.clipDraw_touch {msk : Nat} {s0 : State} {s : State} (hk : Touch msk s0 s) (hm : Sub State.clipDrawMask msk) :
    Touch msk s0 (State.clipDraw s) := by
  unfold State.clipDraw
  try dsimp only
  repeat' (with_reducible first
    | assumption
    | exact Touch.refl
    | intro _
    | apply State.useFree_touch
    | apply State.phyStick_touch
    | apply Touch.ite
    | split)
  all_goals with_reducible first
    | exact .inr rfl
    | exact Sub.trans (b := State.clipDrawMask) (by decide +kernel) hm
    | exact Has.sub (a := State.clipDrawMask) (by decide +kernel) hm
    | exact .inl (Has.sub (a := State.clipDrawMask) (by decide +kernel) hm)
    | exact Has.at (by decide) (Has.sub (a := State.clipDrawMask) (by decide +kernel) hm)
    | exact Has.cell (by decide) (Has.sub (a := State.clipDrawMask) (by decide +kernel) hm)
    | exact Has.cellNext (by decide) (Has.sub (a := State.clipDrawMask) (by decide +kernel) hm)
    | exact Has.ite (Has.sub (a := State.clipDrawMask) (by decide +kernel) hm) (Has.sub (a := State.clipDrawMask) (by decide +kernel) hm)
    | exact .inr (fun _ => rfl)
    | (intro _; rfl)
    | (intro _; simp; done)
    | (simp; assumption)
    | (refine .inr (fun _ => ?_); simp; done)
    | (refine .inr (fun _ => ?_); (repeat' split) <;> first | rfl | (simp; done))
    | (simp; done)

def State.headerRxMask : Nat :=
  State.modPhyMask ||| State.phyStickMask ||| State.busyAckMask ||| State.busyForMask ||| State.rxNowMask |||
    State.gainFrameMask ||| State.clipDrawMask

theorem State.headerRx_touch {msk : Nat} {s0 : State} {s : State} {h : Nat} (hk : Touch msk s0 s) (hm : Sub State.headerRxMask msk) :
    Touch msk s0 (State.headerRx s h) := by
  unfold State.headerRx
  try dsimp only
  repeat' (with_reducible first
    | assumption
    | exact Touch.refl
    | intro _
    | apply State.modPhy_touch
    | apply State.phyStick_touch
    | apply State.busyAck_touch
    | apply State.busyFor_touch
    | apply State.rxNow_touch
    | apply State.gainFrame_touch
    | apply State.clipDraw_touch
    | apply Touch.ite
    | split)
  all_goals with_reducible first
    | exact .inr rfl
    | exact Sub.trans (b := State.headerRxMask) (by decide +kernel) hm
    | exact Has.sub (a := State.headerRxMask) (by decide +kernel) hm
    | exact .inl (Has.sub (a := State.headerRxMask) (by decide +kernel) hm)
    | exact Has.at (by decide) (Has.sub (a := State.headerRxMask) (by decide +kernel) hm)
    | exact Has.cell (by decide) (Has.sub (a := State.headerRxMask) (by decide +kernel) hm)
    | exact Has.cellNext (by decide) (Has.sub (a := State.headerRxMask) (by decide +kernel) hm)
    | exact Has.ite (Has.sub (a := State.headerRxMask) (by decide +kernel) hm) (Has.sub (a := State.headerRxMask) (by decide +kernel) hm)
    | exact .inr (fun _ => rfl)
    | (intro _; rfl)
    | (intro _; simp; done)
    | (simp; assumption)
    | (refine .inr (fun _ => ?_); simp; done)
    | (refine .inr (fun _ => ?_); (repeat' split) <;> first | rfl | (simp; done))
    | (simp; done)

def State.payloadRxMask : Nat :=
  State.modPhyMask ||| State.clipDrawMask ||| Part.free.bit

theorem State.payloadRx_touch {msk : Nat} {s0 : State} {s : State} (hk : Touch msk s0 s) (hm : Sub State.payloadRxMask msk) :
    Touch msk s0 (State.payloadRx s) := by
  unfold State.payloadRx
  try dsimp only
  repeat' (with_reducible first
    | assumption
    | exact Touch.refl
    | intro _
    | apply State.modPhy_touch
    | apply State.clipDraw_touch
    | (refine Touch.ofEq (by assumption) ?_)
    | apply Touch.ite
    | apply Touch.foldl
    | apply Touch.foldlFst
    | (simp only [Touch.mk_iff]; apply TouchMk.intro)
    | split)
  all_goals with_reducible first
    | exact .inr rfl
    | exact Sub.trans (b := State.payloadRxMask) (by decide +kernel) hm
    | exact Has.sub (a := State.payloadRxMask) (by decide +kernel) hm
    | exact .inl (Has.sub (a := State.payloadRxMask) (by decide +kernel) hm)
    | exact Has.at (by decide) (Has.sub (a := State.payloadRxMask) (by decide +kernel) hm)
    | exact Has.cell (by decide) (Has.sub (a := State.payloadRxMask) (by decide +kernel) hm)
    | exact Has.cellNext (by decide) (Has.sub (a := State.payloadRxMask) (by decide +kernel) hm)
    | exact Has.ite (Has.sub (a := State.payloadRxMask) (by decide +kernel) hm) (Has.sub (a := State.payloadRxMask) (by decide +kernel) hm)
    | exact .inr (fun _ => rfl)
    | (intro _; rfl)
    | (intro _; simp; done)
    | (simp; assumption)
    | (refine .inr (fun _ => ?_); simp; done)
    | (refine .inr (fun _ => ?_); (repeat' split) <;> first | rfl | (simp; done))
    | (simp; done)

def State.selfApplyMask : Nat :=
  State.postMask ||| State.modPhyMask ||| State.phyStickMask

theorem State.selfApply_touch {msk : Nat} {s0 : State} {s : State} (hk : Touch msk s0 s) (hm : Sub State.selfApplyMask msk) :
    Touch msk s0 (State.selfApply s) := by
  unfold State.selfApply
  try dsimp only
  repeat' (with_reducible first
    | assumption
    | exact Touch.refl
    | intro _
    | apply State.post_touch
    | apply State.modPhy_touch
    | apply State.phyStick_touch
    | apply Touch.ite
    | split)
  all_goals with_reducible first
    | exact .inr rfl
    | exact Sub.trans (b := State.selfApplyMask) (by decide +kernel) hm
    | exact Has.sub (a := State.selfApplyMask) (by decide +kernel) hm
    | exact .inl (Has.sub (a := State.selfApplyMask) (by decide +kernel) hm)
    | exact Has.at (by decide) (Has.sub (a := State.selfApplyMask) (by decide +kernel) hm)
    | exact Has.cell (by decide) (Has.sub (a := State.selfApplyMask) (by decide +kernel) hm)
    | exact Has.cellNext (by decide) (Has.sub (a := State.selfApplyMask) (by decide +kernel) hm)
    | exact Has.ite (Has.sub (a := State.selfApplyMask) (by decide +kernel) hm) (Has.sub (a := State.selfApplyMask) (by decide +kernel) hm)
    | exact .inr (fun _ => rfl)
    | (intro _; rfl)
    | (intro _; simp; done)
    | (simp; assumption)
    | (refine .inr (fun _ => ?_); simp; done)
    | (refine .inr (fun _ => ?_); (repeat' split) <;> first | rfl | (simp; done))
    | (simp; done)

def State.noiseCourseMask : Nat :=
  State.modPhyMask ||| State.gainSettleMask ||| Part.free.bit

theorem State.noiseCourse_touch {msk : Nat} {s0 : State} {s : State} {pre : Nat} (hk : Touch msk s0 s) (hm : Sub State.noiseCourseMask msk) :
    Touch msk s0 (State.noiseCourse s pre) := by
  unfold State.noiseCourse
  try dsimp only
  repeat' (with_reducible first
    | assumption
    | exact Touch.refl
    | intro _
    | apply State.modPhy_touch
    | apply State.gainSettle_touch
    | apply Touch.ite
    | (simp only [Touch.mk_iff]; apply TouchMk.intro)
    | split)
  all_goals with_reducible first
    | exact .inr rfl
    | exact Sub.trans (b := State.noiseCourseMask) (by decide +kernel) hm
    | exact Has.sub (a := State.noiseCourseMask) (by decide +kernel) hm
    | exact .inl (Has.sub (a := State.noiseCourseMask) (by decide +kernel) hm)
    | exact Has.at (by decide) (Has.sub (a := State.noiseCourseMask) (by decide +kernel) hm)
    | exact Has.cell (by decide) (Has.sub (a := State.noiseCourseMask) (by decide +kernel) hm)
    | exact Has.cellNext (by decide) (Has.sub (a := State.noiseCourseMask) (by decide +kernel) hm)
    | exact Has.ite (Has.sub (a := State.noiseCourseMask) (by decide +kernel) hm) (Has.sub (a := State.noiseCourseMask) (by decide +kernel) hm)
    | exact .inr (fun _ => rfl)
    | (intro _; rfl)
    | (intro _; simp; done)
    | (simp; assumption)
    | (refine .inr (fun _ => ?_); simp; done)
    | (refine .inr (fun _ => ?_); (repeat' split) <;> first | rfl | (simp; done))
    | (simp; done)

def State.noiseFlagsMask : Nat :=
  rbit R.PHY_NMASK_LO ||| rbit R.PHY_NMASK_HI

theorem State.noiseFlags_touch {msk : Nat} {s0 : State} {s : State} (hk : Touch msk s0 s) (hm : Sub State.noiseFlagsMask msk) :
    Touch msk s0 (State.noiseFlags s) := by
  unfold State.noiseFlags
  try dsimp only
  repeat' (with_reducible first
    | assumption
    | exact Touch.refl
    | intro _
    | apply State.setFld_touch
    | apply Touch.ite
    | apply Touch.foldl
    | apply Touch.foldlFst
    | split)
  all_goals with_reducible first
    | exact .inr rfl
    | exact Sub.trans (b := State.noiseFlagsMask) (by decide +kernel) hm
    | exact Has.sub (a := State.noiseFlagsMask) (by decide +kernel) hm
    | exact .inl (Has.sub (a := State.noiseFlagsMask) (by decide +kernel) hm)
    | exact Has.at (by decide) (Has.sub (a := State.noiseFlagsMask) (by decide +kernel) hm)
    | exact Has.cell (by decide) (Has.sub (a := State.noiseFlagsMask) (by decide +kernel) hm)
    | exact Has.cellNext (by decide) (Has.sub (a := State.noiseFlagsMask) (by decide +kernel) hm)
    | exact Has.ite (Has.sub (a := State.noiseFlagsMask) (by decide +kernel) hm) (Has.sub (a := State.noiseFlagsMask) (by decide +kernel) hm)
    | exact .inr (fun _ => rfl)
    | (intro _; rfl)
    | (intro _; simp; done)
    | (simp; assumption)
    | (refine .inr (fun _ => ?_); simp; done)
    | (refine .inr (fun _ => ?_); (repeat' split) <;> first | rfl | (simp; done))
    | (simp; done)

def State.txMapDropMask : Nat :=
  State.modPhyMask

theorem State.txMapDrop_touch {msk : Nat} {s0 : State} {s : State} {e : Nat} (hk : Touch msk s0 s) (hm : Sub State.txMapDropMask msk) :
    Touch msk s0 (State.txMapDrop s e) := by
  unfold State.txMapDrop
  try dsimp only
  repeat' (with_reducible first
    | assumption
    | exact Touch.refl
    | intro _
    | apply State.modPhy_touch)
  all_goals with_reducible first
    | exact .inr rfl
    | exact Sub.trans (b := State.txMapDropMask) (by decide +kernel) hm
    | exact Has.sub (a := State.txMapDropMask) (by decide +kernel) hm
    | exact .inl (Has.sub (a := State.txMapDropMask) (by decide +kernel) hm)
    | exact Has.at (by decide) (Has.sub (a := State.txMapDropMask) (by decide +kernel) hm)
    | exact Has.cell (by decide) (Has.sub (a := State.txMapDropMask) (by decide +kernel) hm)
    | exact Has.cellNext (by decide) (Has.sub (a := State.txMapDropMask) (by decide +kernel) hm)
    | exact Has.ite (Has.sub (a := State.txMapDropMask) (by decide +kernel) hm) (Has.sub (a := State.txMapDropMask) (by decide +kernel) hm)
    | exact .inr (fun _ => rfl)
    | (intro _; rfl)
    | (intro _; simp; done)
    | (simp; assumption)
    | (refine .inr (fun _ => ?_); simp; done)
    | (refine .inr (fun _ => ?_); (repeat' split) <;> first | rfl | (simp; done))
    | (simp; done)

def State.txMapsCheckMask : Nat :=
  State.txMapDropMask

theorem State.txMapsCheck_touch {msk : Nat} {s0 : State} {s : State} (hk : Touch msk s0 s) (hm : Sub State.txMapsCheckMask msk) :
    Touch msk s0 (State.txMapsCheck s) := by
  unfold State.txMapsCheck
  try dsimp only
  repeat' (with_reducible first
    | assumption
    | exact Touch.refl
    | intro _
    | apply State.txMapDrop_touch
    | apply Touch.ite
    | apply Touch.foldl
    | apply Touch.foldlFst
    | split)
  all_goals with_reducible first
    | exact .inr rfl
    | exact Sub.trans (b := State.txMapsCheckMask) (by decide +kernel) hm
    | exact Has.sub (a := State.txMapsCheckMask) (by decide +kernel) hm
    | exact .inl (Has.sub (a := State.txMapsCheckMask) (by decide +kernel) hm)
    | exact Has.at (by decide) (Has.sub (a := State.txMapsCheckMask) (by decide +kernel) hm)
    | exact Has.cell (by decide) (Has.sub (a := State.txMapsCheckMask) (by decide +kernel) hm)
    | exact Has.cellNext (by decide) (Has.sub (a := State.txMapsCheckMask) (by decide +kernel) hm)
    | exact Has.ite (Has.sub (a := State.txMapsCheckMask) (by decide +kernel) hm) (Has.sub (a := State.txMapsCheckMask) (by decide +kernel) hm)
    | exact .inr (fun _ => rfl)
    | (intro _; rfl)
    | (intro _; simp; done)
    | (simp; assumption)
    | (refine .inr (fun _ => ?_); simp; done)
    | (refine .inr (fun _ => ?_); (repeat' split) <;> first | rfl | (simp; done))
    | (simp; done)

def State.buildMapMask : Nat :=
  State.modPhyMask

theorem State.buildMap_touch {msk : Nat} {s0 : State} {s : State} {a : Nat} {bands : Nat} (hk : Touch msk s0 s) (hm : Sub State.buildMapMask msk) :
    Touch msk s0 (State.buildMap s a bands).1 := by
  unfold State.buildMap
  try dsimp only
  repeat' (with_reducible first
    | assumption
    | exact Touch.refl
    | intro _
    | apply State.modPhy_touch
    | (refine Touch.ofEq (by assumption) ?_)
    | apply Touch.ite
    | split)
  all_goals with_reducible first
    | exact .inr rfl
    | exact Sub.trans (b := State.buildMapMask) (by decide +kernel) hm
    | exact Has.sub (a := State.buildMapMask) (by decide +kernel) hm
    | exact .inl (Has.sub (a := State.buildMapMask) (by decide +kernel) hm)
    | exact Has.at (by decide) (Has.sub (a := State.buildMapMask) (by decide +kernel) hm)
    | exact Has.cell (by decide) (Has.sub (a := State.buildMapMask) (by decide +kernel) hm)
    | exact Has.cellNext (by decide) (Has.sub (a := State.buildMapMask) (by decide +kernel) hm)
    | exact Has.ite (Has.sub (a := State.buildMapMask) (by decide +kernel) hm) (Has.sub (a := State.buildMapMask) (by decide +kernel) hm)
    | exact .inr (fun _ => rfl)
    | (intro _; rfl)
    | (intro _; simp; done)
    | (simp; assumption)
    | (refine .inr (fun _ => ?_); simp; done)
    | (refine .inr (fun _ => ?_); (repeat' split) <;> first | rfl | (simp; done))
    | (simp; done)

def State.txMapStoreMask : Nat :=
  State.modPhyMask

theorem State.txMapStore_touch {msk : Nat} {s0 : State} {s : State} {a : Nat} {ws : List Word} (hk : Touch msk s0 s) (hm : Sub State.txMapStoreMask msk) :
    Touch msk s0 (State.txMapStore s a ws) := by
  unfold State.txMapStore
  try dsimp only
  repeat' (with_reducible first
    | assumption
    | exact Touch.refl
    | intro _
    | apply State.modPhy_touch
    | (refine Touch.ofEq (by assumption) ?_)
    | split)
  all_goals with_reducible first
    | exact .inr rfl
    | exact Sub.trans (b := State.txMapStoreMask) (by decide +kernel) hm
    | exact Has.sub (a := State.txMapStoreMask) (by decide +kernel) hm
    | exact .inl (Has.sub (a := State.txMapStoreMask) (by decide +kernel) hm)
    | exact Has.at (by decide) (Has.sub (a := State.txMapStoreMask) (by decide +kernel) hm)
    | exact Has.cell (by decide) (Has.sub (a := State.txMapStoreMask) (by decide +kernel) hm)
    | exact Has.cellNext (by decide) (Has.sub (a := State.txMapStoreMask) (by decide +kernel) hm)
    | exact Has.ite (Has.sub (a := State.txMapStoreMask) (by decide +kernel) hm) (Has.sub (a := State.txMapStoreMask) (by decide +kernel) hm)
    | exact .inr (fun _ => rfl)
    | (intro _; rfl)
    | (intro _; simp; done)
    | (simp; assumption)
    | (refine .inr (fun _ => ?_); simp; done)
    | (refine .inr (fun _ => ?_); (repeat' split) <;> first | rfl | (simp; done))
    | (simp; done)

def State.txMapExpireMask : Nat :=
  State.txMapDropMask

theorem State.txMapExpire_touch {msk : Nat} {s0 : State} {s : State} {e : Nat} (hk : Touch msk s0 s) (hm : Sub State.txMapExpireMask msk) :
    Touch msk s0 (State.txMapExpire s e) := by
  unfold State.txMapExpire
  try dsimp only
  repeat' (with_reducible first
    | assumption
    | exact Touch.refl
    | intro _
    | apply State.txMapDrop_touch
    | apply Touch.ite
    | split)
  all_goals with_reducible first
    | exact .inr rfl
    | exact Sub.trans (b := State.txMapExpireMask) (by decide +kernel) hm
    | exact Has.sub (a := State.txMapExpireMask) (by decide +kernel) hm
    | exact .inl (Has.sub (a := State.txMapExpireMask) (by decide +kernel) hm)
    | exact Has.at (by decide) (Has.sub (a := State.txMapExpireMask) (by decide +kernel) hm)
    | exact Has.cell (by decide) (Has.sub (a := State.txMapExpireMask) (by decide +kernel) hm)
    | exact Has.cellNext (by decide) (Has.sub (a := State.txMapExpireMask) (by decide +kernel) hm)
    | exact Has.ite (Has.sub (a := State.txMapExpireMask) (by decide +kernel) hm) (Has.sub (a := State.txMapExpireMask) (by decide +kernel) hm)
    | exact .inr (fun _ => rfl)
    | (intro _; rfl)
    | (intro _; simp; done)
    | (simp; assumption)
    | (refine .inr (fun _ => ?_); simp; done)
    | (refine .inr (fun _ => ?_); (repeat' split) <;> first | rfl | (simp; done))
    | (simp; done)

def State.maskTakeMask : Nat :=
  State.modPhyMask

theorem State.maskTake_touch {msk : Nat} {s0 : State} {s : State} (hk : Touch msk s0 s) (hm : Sub State.maskTakeMask msk) :
    Touch msk s0 (State.maskTake s) := by
  unfold State.maskTake
  try dsimp only
  repeat' (with_reducible first
    | assumption
    | exact Touch.refl
    | intro _
    | apply State.modPhy_touch
    | apply Touch.ite
    | split)
  all_goals with_reducible first
    | exact .inr rfl
    | exact Sub.trans (b := State.maskTakeMask) (by decide +kernel) hm
    | exact Has.sub (a := State.maskTakeMask) (by decide +kernel) hm
    | exact .inl (Has.sub (a := State.maskTakeMask) (by decide +kernel) hm)
    | exact Has.at (by decide) (Has.sub (a := State.maskTakeMask) (by decide +kernel) hm)
    | exact Has.cell (by decide) (Has.sub (a := State.maskTakeMask) (by decide +kernel) hm)
    | exact Has.cellNext (by decide) (Has.sub (a := State.maskTakeMask) (by decide +kernel) hm)
    | exact Has.ite (Has.sub (a := State.maskTakeMask) (by decide +kernel) hm) (Has.sub (a := State.maskTakeMask) (by decide +kernel) hm)
    | exact .inr (fun _ => rfl)
    | (intro _; rfl)
    | (intro _; simp; done)
    | (simp; assumption)
    | (refine .inr (fun _ => ?_); simp; done)
    | (refine .inr (fun _ => ?_); (repeat' split) <;> first | rfl | (simp; done))
    | (simp; done)

def State.phyTablePutMask : Nat :=
  State.modPhyMask ||| State.maskTakeMask

theorem State.phyTablePut_touch {msk : Nat} {s0 : State} {s : State} {unlocked : Bool} {tsel : Nat} {a : Nat} {v : Word} (hk : Touch msk s0 s) (hm : Sub State.phyTablePutMask msk) :
    Touch msk s0 (State.phyTablePut s unlocked tsel a v) := by
  unfold State.phyTablePut
  try dsimp only
  repeat' (with_reducible first
    | assumption
    | exact Touch.refl
    | intro _
    | apply State.modPhy_touch
    | apply State.maskTake_touch
    | (refine Touch.ofEq (by assumption) ?_)
    | apply Touch.ite
    | split)
  all_goals with_reducible first
    | exact .inr rfl
    | exact Sub.trans (b := State.phyTablePutMask) (by decide +kernel) hm
    | exact Has.sub (a := State.phyTablePutMask) (by decide +kernel) hm
    | exact .inl (Has.sub (a := State.phyTablePutMask) (by decide +kernel) hm)
    | exact Has.at (by decide) (Has.sub (a := State.phyTablePutMask) (by decide +kernel) hm)
    | exact Has.cell (by decide) (Has.sub (a := State.phyTablePutMask) (by decide +kernel) hm)
    | exact Has.cellNext (by decide) (Has.sub (a := State.phyTablePutMask) (by decide +kernel) hm)
    | exact Has.ite (Has.sub (a := State.phyTablePutMask) (by decide +kernel) hm) (Has.sub (a := State.phyTablePutMask) (by decide +kernel) hm)
    | exact .inr (fun _ => rfl)
    | (intro _; rfl)
    | (intro _; simp; done)
    | (simp; assumption)
    | (refine .inr (fun _ => ?_); simp; done)
    | (refine .inr (fun _ => ?_); (repeat' split) <;> first | rfl | (simp; done))
    | (simp; done)

def State.ilimReportMask : Nat :=
  State.postMask ||| State.modPhyMask

theorem State.ilimReport_touch {msk : Nat} {s0 : State} {s : State} (hk : Touch msk s0 s) (hm : Sub State.ilimReportMask msk) :
    Touch msk s0 (State.ilimReport s) := by
  unfold State.ilimReport
  try dsimp only
  repeat' (with_reducible first
    | assumption
    | exact Touch.refl
    | intro _
    | apply State.post_touch
    | apply State.modPhy_touch
    | apply Touch.ite
    | split)
  all_goals with_reducible first
    | exact .inr rfl
    | exact Sub.trans (b := State.ilimReportMask) (by decide +kernel) hm
    | exact Has.sub (a := State.ilimReportMask) (by decide +kernel) hm
    | exact .inl (Has.sub (a := State.ilimReportMask) (by decide +kernel) hm)
    | exact Has.at (by decide) (Has.sub (a := State.ilimReportMask) (by decide +kernel) hm)
    | exact Has.cell (by decide) (Has.sub (a := State.ilimReportMask) (by decide +kernel) hm)
    | exact Has.cellNext (by decide) (Has.sub (a := State.ilimReportMask) (by decide +kernel) hm)
    | exact Has.ite (Has.sub (a := State.ilimReportMask) (by decide +kernel) hm) (Has.sub (a := State.ilimReportMask) (by decide +kernel) hm)
    | exact .inr (fun _ => rfl)
    | (intro _; rfl)
    | (intro _; simp; done)
    | (simp; assumption)
    | (refine .inr (fun _ => ?_); simp; done)
    | (refine .inr (fun _ => ?_); (repeat' split) <;> first | rfl | (simp; done))
    | (simp; done)

def State.phyBenchMask : Nat :=
  State.modPhyMask ||| State.selfApplyMask ||| State.noiseFlagsMask ||| State.txMapsCheckMask ||| State.maskTakeMask
    ||| State.ilimReportMask

theorem State.phyBench_touch {msk : Nat} {s0 : State} {s : State} (hk : Touch msk s0 s) (hm : Sub State.phyBenchMask msk) :
    Touch msk s0 (State.phyBench s) := by
  unfold State.phyBench
  try dsimp only
  repeat' (with_reducible first
    | assumption
    | exact Touch.refl
    | intro _
    | apply State.modPhy_touch
    | apply State.selfApply_touch
    | apply State.noiseFlags_touch
    | apply State.txMapsCheck_touch
    | apply State.maskTake_touch
    | apply State.ilimReport_touch
    | apply Touch.ite
    | split)
  all_goals with_reducible first
    | exact .inr rfl
    | exact Sub.trans (b := State.phyBenchMask) (by decide +kernel) hm
    | exact Has.sub (a := State.phyBenchMask) (by decide +kernel) hm
    | exact .inl (Has.sub (a := State.phyBenchMask) (by decide +kernel) hm)
    | exact Has.at (by decide) (Has.sub (a := State.phyBenchMask) (by decide +kernel) hm)
    | exact Has.cell (by decide) (Has.sub (a := State.phyBenchMask) (by decide +kernel) hm)
    | exact Has.cellNext (by decide) (Has.sub (a := State.phyBenchMask) (by decide +kernel) hm)
    | exact Has.ite (Has.sub (a := State.phyBenchMask) (by decide +kernel) hm) (Has.sub (a := State.phyBenchMask) (by decide +kernel) hm)
    | exact .inr (fun _ => rfl)
    | (intro _; rfl)
    | (intro _; simp; done)
    | (simp; assumption)
    | (refine .inr (fun _ => ?_); simp; done)
    | (refine .inr (fun _ => ?_); (repeat' split) <;> first | rfl | (simp; done))
    | (simp; done)

def State.vldShortMask : Nat :=
  State.phyStickMask

theorem State.vldShort_touch {msk : Nat} {s0 : State} {s : State} (hk : Touch msk s0 s) (hm : Sub State.vldShortMask msk) :
    Touch msk s0 (State.vldShort s) := by
  unfold State.vldShort
  try dsimp only
  repeat' (with_reducible first
    | assumption
    | exact Touch.refl
    | intro _
    | apply State.phyStick_touch)
  all_goals with_reducible first
    | exact .inr rfl
    | exact Sub.trans (b := State.vldShortMask) (by decide +kernel) hm
    | exact Has.sub (a := State.vldShortMask) (by decide +kernel) hm
    | exact .inl (Has.sub (a := State.vldShortMask) (by decide +kernel) hm)
    | exact Has.at (by decide) (Has.sub (a := State.vldShortMask) (by decide +kernel) hm)
    | exact Has.cell (by decide) (Has.sub (a := State.vldShortMask) (by decide +kernel) hm)
    | exact Has.cellNext (by decide) (Has.sub (a := State.vldShortMask) (by decide +kernel) hm)
    | exact Has.ite (Has.sub (a := State.vldShortMask) (by decide +kernel) hm) (Has.sub (a := State.vldShortMask) (by decide +kernel) hm)
    | exact .inr (fun _ => rfl)
    | (intro _; rfl)
    | (intro _; simp; done)
    | (simp; assumption)
    | (refine .inr (fun _ => ?_); simp; done)
    | (refine .inr (fun _ => ?_); (repeat' split) <;> first | rfl | (simp; done))
    | (simp; done)

def State.zcEdgeMask : Nat :=
  State.modPhyMask ||| State.zcRiseMask

theorem State.zcEdge_touch {msk : Nat} {s0 : State} {s : State} {rising : Bool} {e : Nat} (hk : Touch msk s0 s) (hm : Sub State.zcEdgeMask msk) :
    Touch msk s0 (State.zcEdge s rising e) := by
  unfold State.zcEdge
  try dsimp only
  repeat' (with_reducible first
    | assumption
    | exact Touch.refl
    | intro _
    | apply State.modPhy_touch
    | apply State.zcRise_touch
    | apply Touch.ite
    | split)
  all_goals with_reducible first
    | exact .inr rfl
    | exact Sub.trans (b := State.zcEdgeMask) (by decide +kernel) hm
    | exact Has.sub (a := State.zcEdgeMask) (by decide +kernel) hm
    | exact .inl (Has.sub (a := State.zcEdgeMask) (by decide +kernel) hm)
    | exact Has.at (by decide) (Has.sub (a := State.zcEdgeMask) (by decide +kernel) hm)
    | exact Has.cell (by decide) (Has.sub (a := State.zcEdgeMask) (by decide +kernel) hm)
    | exact Has.cellNext (by decide) (Has.sub (a := State.zcEdgeMask) (by decide +kernel) hm)
    | exact Has.ite (Has.sub (a := State.zcEdgeMask) (by decide +kernel) hm) (Has.sub (a := State.zcEdgeMask) (by decide +kernel) hm)
    | exact .inr (fun _ => rfl)
    | (intro _; rfl)
    | (intro _; simp; done)
    | (simp; assumption)
    | (refine .inr (fun _ => ?_); simp; done)
    | (refine .inr (fun _ => ?_); (repeat' split) <;> first | rfl | (simp; done))
    | (simp; done)

end Sys2Proof.Machine
end

