-- ==== Sys2Proof/Laws/TouchSec.lean ====
section
/-! SUPPORT. What each operation of Machine/Sec.lean may change: its mask, and the proof that it changes nothing else. -/

namespace Sys2Proof.Machine

set_option linter.unusedSimpArgs false
set_option Elab.async false

def State.modSecMask : Nat :=
  Part.sec.bit

theorem State.modSec_touch {msk : Nat} {s0 : State} {s : State} {f : SecState → SecState} (hk : Touch msk s0 s) (hm : Sub State.modSecMask msk) :
    Touch msk s0 (State.modSec s f) := by
  unfold State.modSec
  try dsimp only
  repeat' (with_reducible first
    | assumption
    | exact Touch.refl
    | intro _
    | (simp only [Touch.mk_iff]; apply TouchMk.intro))
  all_goals with_reducible first
    | exact .inr rfl
    | exact Sub.trans (b := State.modSecMask) (by decide +kernel) hm
    | exact Has.sub (a := State.modSecMask) (by decide +kernel) hm
    | exact .inl (Has.sub (a := State.modSecMask) (by decide +kernel) hm)
    | exact Has.at (by decide) (Has.sub (a := State.modSecMask) (by decide +kernel) hm)
    | exact Has.cell (by decide) (Has.sub (a := State.modSecMask) (by decide +kernel) hm)
    | exact Has.cellNext (by decide) (Has.sub (a := State.modSecMask) (by decide +kernel) hm)
    | exact Has.ite (Has.sub (a := State.modSecMask) (by decide +kernel) hm) (Has.sub (a := State.modSecMask) (by decide +kernel) hm)
    | exact .inr (fun _ => rfl)
    | (intro _; rfl)
    | (intro _; simp; done)
    | (simp; assumption)
    | (refine .inr (fun _ => ?_); simp; done)
    | (refine .inr (fun _ => ?_); (repeat' split) <;> first | rfl | (simp; done))
    | (simp; done)

def State.secStickMask : Nat :=
  State.stickMask ||| rbit R.SEC_STAT

theorem State.secStick_touch {msk : Nat} {s0 : State} {s : State} {f : Fld} (hk : Touch msk s0 s) (hm : Sub State.secStickMask msk) :
    Touch msk s0 (State.secStick s f) := by
  unfold State.secStick
  try dsimp only
  repeat' (with_reducible first
    | assumption
    | exact Touch.refl
    | intro _
    | apply State.stick_touch)
  all_goals with_reducible first
    | exact .inr rfl
    | exact Sub.trans (b := State.secStickMask) (by decide +kernel) hm
    | exact Has.sub (a := State.secStickMask) (by decide +kernel) hm
    | exact .inl (Has.sub (a := State.secStickMask) (by decide +kernel) hm)
    | exact Has.at (by decide) (Has.sub (a := State.secStickMask) (by decide +kernel) hm)
    | exact Has.cell (by decide) (Has.sub (a := State.secStickMask) (by decide +kernel) hm)
    | exact Has.cellNext (by decide) (Has.sub (a := State.secStickMask) (by decide +kernel) hm)
    | exact Has.ite (Has.sub (a := State.secStickMask) (by decide +kernel) hm) (Has.sub (a := State.secStickMask) (by decide +kernel) hm)
    | exact .inr (fun _ => rfl)
    | (intro _; rfl)
    | (intro _; simp; done)
    | (simp; assumption)
    | (refine .inr (fun _ => ?_); simp; done)
    | (refine .inr (fun _ => ?_); (repeat' split) <;> first | rfl | (simp; done))
    | (simp; done)

def State.slotKeyMask : Nat :=
  State.postMask ||| State.modSecMask ||| rbit R.NMI_STAT

theorem State.slotKey_touch {msk : Nat} {s0 : State} {s : State} {n : Nat} (hk : Touch msk s0 s) (hm : Sub State.slotKeyMask msk) :
    Touch msk s0 (State.slotKey s n).1 := by
  unfold State.slotKey
  try dsimp only
  repeat' (with_reducible first
    | assumption
    | exact Touch.refl
    | intro _
    | apply State.post_touch
    | apply State.modSec_touch
    | apply State.nmi_touch
    | (refine Touch.ofEq (by assumption) ?_)
    | apply Touch.ite
    | split)
  all_goals with_reducible first
    | exact .inr rfl
    | exact Sub.trans (b := State.slotKeyMask) (by decide +kernel) hm
    | exact Has.sub (a := State.slotKeyMask) (by decide +kernel) hm
    | exact .inl (Has.sub (a := State.slotKeyMask) (by decide +kernel) hm)
    | exact Has.at (by decide) (Has.sub (a := State.slotKeyMask) (by decide +kernel) hm)
    | exact Has.cell (by decide) (Has.sub (a := State.slotKeyMask) (by decide +kernel) hm)
    | exact Has.cellNext (by decide) (Has.sub (a := State.slotKeyMask) (by decide +kernel) hm)
    | exact Has.ite (Has.sub (a := State.slotKeyMask) (by decide +kernel) hm) (Has.sub (a := State.slotKeyMask) (by decide +kernel) hm)
    | exact .inr (fun _ => rfl)
    | (intro _; rfl)
    | (intro _; simp; done)
    | (simp; assumption)
    | (refine .inr (fun _ => ?_); simp; done)
    | (refine .inr (fun _ => ?_); (repeat' split) <;> first | rfl | (simp; done))
    | (simp; done)

def State.slotFreshMask : Nat :=
  State.modSecMask

theorem State.slotFresh_touch {msk : Nat} {s0 : State} {s : State} {n : Nat} (hk : Touch msk s0 s) (hm : Sub State.slotFreshMask msk) :
    Touch msk s0 (State.slotFresh s n) := by
  unfold State.slotFresh
  try dsimp only
  repeat' (with_reducible first
    | assumption
    | exact Touch.refl
    | intro _
    | apply State.modSec_touch)
  all_goals with_reducible first
    | exact .inr rfl
    | exact Sub.trans (b := State.slotFreshMask) (by decide +kernel) hm
    | exact Has.sub (a := State.slotFreshMask) (by decide +kernel) hm
    | exact .inl (Has.sub (a := State.slotFreshMask) (by decide +kernel) hm)
    | exact Has.at (by decide) (Has.sub (a := State.slotFreshMask) (by decide +kernel) hm)
    | exact Has.cell (by decide) (Has.sub (a := State.slotFreshMask) (by decide +kernel) hm)
    | exact Has.cellNext (by decide) (Has.sub (a := State.slotFreshMask) (by decide +kernel) hm)
    | exact Has.ite (Has.sub (a := State.slotFreshMask) (by decide +kernel) hm) (Has.sub (a := State.slotFreshMask) (by decide +kernel) hm)
    | exact .inr (fun _ => rfl)
    | (intro _; rfl)
    | (intro _; simp; done)
    | (simp; assumption)
    | (refine .inr (fun _ => ?_); simp; done)
    | (refine .inr (fun _ => ?_); (repeat' split) <;> first | rfl | (simp; done))
    | (simp; done)

def State.fcEpochMask : Nat :=
  State.postMask ||| State.hatIncMask ||| State.modSecMask ||| State.secStickMask

theorem State.fcEpoch_touch {msk : Nat} {s0 : State} {s : State} (hk : Touch msk s0 s) (hm : Sub State.fcEpochMask msk) :
    Touch msk s0 (State.fcEpoch s) := by
  unfold State.fcEpoch
  try dsimp only
  repeat' (with_reducible first
    | assumption
    | exact Touch.refl
    | intro _
    | apply State.post_touch
    | apply State.hatInc_touch
    | apply State.modSec_touch
    | apply State.secStick_touch
    | apply Touch.ite
    | split)
  all_goals with_reducible first
    | exact .inr rfl
    | exact Sub.trans (b := State.fcEpochMask) (by decide +kernel) hm
    | exact Has.sub (a := State.fcEpochMask) (by decide +kernel) hm
    | exact .inl (Has.sub (a := State.fcEpochMask) (by decide +kernel) hm)
    | exact Has.at (by decide) (Has.sub (a := State.fcEpochMask) (by decide +kernel) hm)
    | exact Has.cell (by decide) (Has.sub (a := State.fcEpochMask) (by decide +kernel) hm)
    | exact Has.cellNext (by decide) (Has.sub (a := State.fcEpochMask) (by decide +kernel) hm)
    | exact Has.ite (Has.sub (a := State.fcEpochMask) (by decide +kernel) hm) (Has.sub (a := State.fcEpochMask) (by decide +kernel) hm)
    | exact .inr (fun _ => rfl)
    | (intro _; rfl)
    | (intro _; simp; done)
    | (simp; assumption)
    | (refine .inr (fun _ => ?_); simp; done)
    | (refine .inr (fun _ => ?_); (repeat' split) <;> first | rfl | (simp; done))
    | (simp; done)

def State.fcUseMask : Nat :=
  State.modSecMask ||| State.fcEpochMask

theorem State.fcUse_touch {msk : Nat} {s0 : State} {s : State} (hk : Touch msk s0 s) (hm : Sub State.fcUseMask msk) :
    Touch msk s0 (State.fcUse s) := by
  unfold State.fcUse
  try dsimp only
  repeat' (with_reducible first
    | assumption
    | exact Touch.refl
    | intro _
    | apply State.modSec_touch
    | apply State.fcEpoch_touch
    | apply Touch.ite
    | split)
  all_goals with_reducible first
    | exact .inr rfl
    | exact Sub.trans (b := State.fcUseMask) (by decide +kernel) hm
    | exact Has.sub (a := State.fcUseMask) (by decide +kernel) hm
    | exact .inl (Has.sub (a := State.fcUseMask) (by decide +kernel) hm)
    | exact Has.at (by decide) (Has.sub (a := State.fcUseMask) (by decide +kernel) hm)
    | exact Has.cell (by decide) (Has.sub (a := State.fcUseMask) (by decide +kernel) hm)
    | exact Has.cellNext (by decide) (Has.sub (a := State.fcUseMask) (by decide +kernel) hm)
    | exact Has.ite (Has.sub (a := State.fcUseMask) (by decide +kernel) hm) (Has.sub (a := State.fcUseMask) (by decide +kernel) hm)
    | exact .inr (fun _ => rfl)
    | (intro _; rfl)
    | (intro _; simp; done)
    | (simp; assumption)
    | (refine .inr (fun _ => ?_); simp; done)
    | (refine .inr (fun _ => ?_); (repeat' split) <;> first | rfl | (simp; done))
    | (simp; done)

def State.protectFrameMask : Nat :=
  State.slotKeyMask ||| State.fcUseMask

theorem State.protectFrame_touch {msk : Nat} {s0 : State} {s : State} {f : LineFrame} {kid : Nat} (hk : Touch msk s0 s) (hm : Sub State.protectFrameMask msk) :
    Touch msk s0 (State.protectFrame s f kid).1 := by
  unfold State.protectFrame
  try dsimp only
  repeat' (with_reducible first
    | assumption
    | exact Touch.refl
    | intro _
    | apply State.slotKey_touch
    | apply State.fcUse_touch
    | (refine Touch.ofEq (by assumption) ?_)
    | split)
  all_goals with_reducible first
    | exact .inr rfl
    | exact Sub.trans (b := State.protectFrameMask) (by decide +kernel) hm
    | exact Has.sub (a := State.protectFrameMask) (by decide +kernel) hm
    | exact .inl (Has.sub (a := State.protectFrameMask) (by decide +kernel) hm)
    | exact Has.at (by decide) (Has.sub (a := State.protectFrameMask) (by decide +kernel) hm)
    | exact Has.cell (by decide) (Has.sub (a := State.protectFrameMask) (by decide +kernel) hm)
    | exact Has.cellNext (by decide) (Has.sub (a := State.protectFrameMask) (by decide +kernel) hm)
    | exact Has.ite (Has.sub (a := State.protectFrameMask) (by decide +kernel) hm) (Has.sub (a := State.protectFrameMask) (by decide +kernel) hm)
    | exact .inr (fun _ => rfl)
    | (intro _; rfl)
    | (intro _; simp; done)
    | (simp; assumption)
    | (refine .inr (fun _ => ?_); simp; done)
    | (refine .inr (fun _ => ?_); (repeat' split) <;> first | rfl | (simp; done))
    | (simp; done)

def State.floorQueueMask : Nat :=
  State.vRecordMask

theorem State.floorQueue_touch {msk : Nat} {s0 : State} {s : State} {a : Nat} (hk : Touch msk s0 s) (hm : Sub State.floorQueueMask msk) :
    Touch msk s0 (State.floorQueue s a) := by
  unfold State.floorQueue
  try dsimp only
  repeat' (with_reducible first
    | assumption
    | exact Touch.refl
    | intro _
    | apply State.vRecord_touch)
  all_goals with_reducible first
    | exact .inr rfl
    | exact Sub.trans (b := State.floorQueueMask) (by decide +kernel) hm
    | exact Has.sub (a := State.floorQueueMask) (by decide +kernel) hm
    | exact .inl (Has.sub (a := State.floorQueueMask) (by decide +kernel) hm)
    | exact Has.at (by decide) (Has.sub (a := State.floorQueueMask) (by decide +kernel) hm)
    | exact Has.cell (by decide) (Has.sub (a := State.floorQueueMask) (by decide +kernel) hm)
    | exact Has.cellNext (by decide) (Has.sub (a := State.floorQueueMask) (by decide +kernel) hm)
    | exact Has.ite (Has.sub (a := State.floorQueueMask) (by decide +kernel) hm) (Has.sub (a := State.floorQueueMask) (by decide +kernel) hm)
    | exact .inr (fun _ => rfl)
    | (intro _; rfl)
    | (intro _; simp; done)
    | (simp; assumption)
    | (refine .inr (fun _ => ?_); simp; done)
    | (refine .inr (fun _ => ?_); (repeat' split) <;> first | rfl | (simp; done))
    | (simp; done)

def State.windowClearMask : Nat :=
  State.modSecMask ||| State.floorQueueMask

theorem State.windowClear_touch {msk : Nat} {s0 : State} {s : State} {a : Nat} (hk : Touch msk s0 s) (hm : Sub State.windowClearMask msk) :
    Touch msk s0 (State.windowClear s a) := by
  unfold State.windowClear
  try dsimp only
  repeat' (with_reducible first
    | assumption
    | exact Touch.refl
    | intro _
    | apply State.modSec_touch
    | apply State.floorQueue_touch
    | apply Touch.ite
    | split)
  all_goals with_reducible first
    | exact .inr rfl
    | exact Sub.trans (b := State.windowClearMask) (by decide +kernel) hm
    | exact Has.sub (a := State.windowClearMask) (by decide +kernel) hm
    | exact .inl (Has.sub (a := State.windowClearMask) (by decide +kernel) hm)
    | exact Has.at (by decide) (Has.sub (a := State.windowClearMask) (by decide +kernel) hm)
    | exact Has.cell (by decide) (Has.sub (a := State.windowClearMask) (by decide +kernel) hm)
    | exact Has.cellNext (by decide) (Has.sub (a := State.windowClearMask) (by decide +kernel) hm)
    | exact Has.ite (Has.sub (a := State.windowClearMask) (by decide +kernel) hm) (Has.sub (a := State.windowClearMask) (by decide +kernel) hm)
    | exact .inr (fun _ => rfl)
    | (intro _; rfl)
    | (intro _; simp; done)
    | (simp; assumption)
    | (refine .inr (fun _ => ?_); simp; done)
    | (refine .inr (fun _ => ?_); (repeat' split) <;> first | rfl | (simp; done))
    | (simp; done)

def State.dirPutMask : Nat :=
  State.modSecMask ||| State.windowClearMask

theorem State.dirPut_touch {msk : Nat} {s0 : State} {s : State} {w : Nat} {v : Word} (hk : Touch msk s0 s) (hm : Sub State.dirPutMask msk) :
    Touch msk s0 (State.dirPut s w v) := by
  unfold State.dirPut
  try dsimp only
  repeat' (with_reducible first
    | assumption
    | exact Touch.refl
    | intro _
    | apply State.modSec_touch
    | apply State.windowClear_touch
    | apply Touch.ite
    | split)
  all_goals with_reducible first
    | exact .inr rfl
    | exact Sub.trans (b := State.dirPutMask) (by decide +kernel) hm
    | exact Has.sub (a := State.dirPutMask) (by decide +kernel) hm
    | exact .inl (Has.sub (a := State.dirPutMask) (by decide +kernel) hm)
    | exact Has.at (by decide) (Has.sub (a := State.dirPutMask) (by decide +kernel) hm)
    | exact Has.cell (by decide) (Has.sub (a := State.dirPutMask) (by decide +kernel) hm)
    | exact Has.cellNext (by decide) (Has.sub (a := State.dirPutMask) (by decide +kernel) hm)
    | exact Has.ite (Has.sub (a := State.dirPutMask) (by decide +kernel) hm) (Has.sub (a := State.dirPutMask) (by decide +kernel) hm)
    | exact .inr (fun _ => rfl)
    | (intro _; rfl)
    | (intro _; simp; done)
    | (simp; assumption)
    | (refine .inr (fun _ => ?_); simp; done)
    | (refine .inr (fun _ => ?_); (repeat' split) <;> first | rfl | (simp; done))
    | (simp; done)

def State.dirSetMask : Nat :=
  State.dirPutMask

theorem State.dirSet_touch {msk : Nat} {s0 : State} {s : State} {a : Nat} {eui : List Byte} (hk : Touch msk s0 s) (hm : Sub State.dirSetMask msk) :
    Touch msk s0 (State.dirSet s a eui) := by
  unfold State.dirSet
  try dsimp only
  repeat' (with_reducible first
    | assumption
    | exact Touch.refl
    | intro _
    | apply State.dirPut_touch
    | apply Touch.foldl
    | apply Touch.foldlFst)
  all_goals with_reducible first
    | exact .inr rfl
    | exact Sub.trans (b := State.dirSetMask) (by decide +kernel) hm
    | exact Has.sub (a := State.dirSetMask) (by decide +kernel) hm
    | exact .inl (Has.sub (a := State.dirSetMask) (by decide +kernel) hm)
    | exact Has.at (by decide) (Has.sub (a := State.dirSetMask) (by decide +kernel) hm)
    | exact Has.cell (by decide) (Has.sub (a := State.dirSetMask) (by decide +kernel) hm)
    | exact Has.cellNext (by decide) (Has.sub (a := State.dirSetMask) (by decide +kernel) hm)
    | exact Has.ite (Has.sub (a := State.dirSetMask) (by decide +kernel) hm) (Has.sub (a := State.dirSetMask) (by decide +kernel) hm)
    | exact .inr (fun _ => rfl)
    | (intro _; rfl)
    | (intro _; simp; done)
    | (simp; assumption)
    | (refine .inr (fun _ => ?_); simp; done)
    | (refine .inr (fun _ => ?_); (repeat' split) <;> first | rfl | (simp; done))
    | (simp; done)

def State.setShortMask : Nat :=
  State.dirSetMask ||| rbit R.MAC_SHORT

theorem State.setShort_touch {msk : Nat} {s0 : State} {s : State} {a : Nat} (hk : Touch msk s0 s) (hm : Sub State.setShortMask msk) :
    Touch msk s0 (State.setShort s a) := by
  unfold State.setShort
  try dsimp only
  repeat' (with_reducible first
    | assumption
    | exact Touch.refl
    | intro _
    | apply State.dirSet_touch
    | apply State.setFld_touch
    | apply Touch.ite
    | split)
  all_goals with_reducible first
    | exact .inr rfl
    | exact Sub.trans (b := State.setShortMask) (by decide +kernel) hm
    | exact Has.sub (a := State.setShortMask) (by decide +kernel) hm
    | exact .inl (Has.sub (a := State.setShortMask) (by decide +kernel) hm)
    | exact Has.at (by decide) (Has.sub (a := State.setShortMask) (by decide +kernel) hm)
    | exact Has.cell (by decide) (Has.sub (a := State.setShortMask) (by decide +kernel) hm)
    | exact Has.cellNext (by decide) (Has.sub (a := State.setShortMask) (by decide +kernel) hm)
    | exact Has.ite (Has.sub (a := State.setShortMask) (by decide +kernel) hm) (Has.sub (a := State.setShortMask) (by decide +kernel) hm)
    | exact .inr (fun _ => rfl)
    | (intro _; rfl)
    | (intro _; simp; done)
    | (simp; assumption)
    | (refine .inr (fun _ => ?_); simp; done)
    | (refine .inr (fun _ => ?_); (repeat' split) <;> first | rfl | (simp; done))
    | (simp; done)

def State.windowMoveMask : Nat :=
  State.modSecMask ||| State.floorQueueMask

theorem State.windowMove_touch {msk : Nat} {s0 : State} {s : State} {a : Nat} {c : Nat} (hk : Touch msk s0 s) (hm : Sub State.windowMoveMask msk) :
    Touch msk s0 (State.windowMove s a c) := by
  unfold State.windowMove
  try dsimp only
  repeat' (with_reducible first
    | assumption
    | exact Touch.refl
    | intro _
    | apply State.modSec_touch
    | apply State.floorQueue_touch
    | apply Touch.ite
    | split)
  all_goals with_reducible first
    | exact .inr rfl
    | exact Sub.trans (b := State.windowMoveMask) (by decide +kernel) hm
    | exact Has.sub (a := State.windowMoveMask) (by decide +kernel) hm
    | exact .inl (Has.sub (a := State.windowMoveMask) (by decide +kernel) hm)
    | exact Has.at (by decide) (Has.sub (a := State.windowMoveMask) (by decide +kernel) hm)
    | exact Has.cell (by decide) (Has.sub (a := State.windowMoveMask) (by decide +kernel) hm)
    | exact Has.cellNext (by decide) (Has.sub (a := State.windowMoveMask) (by decide +kernel) hm)
    | exact Has.ite (Has.sub (a := State.windowMoveMask) (by decide +kernel) hm) (Has.sub (a := State.windowMoveMask) (by decide +kernel) hm)
    | exact .inr (fun _ => rfl)
    | (intro _; rfl)
    | (intro _; simp; done)
    | (simp; assumption)
    | (refine .inr (fun _ => ?_); simp; done)
    | (refine .inr (fun _ => ?_); (repeat' split) <;> first | rfl | (simp; done))
    | (simp; done)

def State.secFailMask : Nat :=
  State.modSecMask ||| State.secStickMask ||| rbit R.SEC_DROPKEY ||| rbit R.SEC_DROPSRC ||| rbit R.SEC_DROPRPL |||
    rbit R.SEC_DROPMIC

theorem State.secFail_touch {msk : Nat} {s0 : State} {s : State} {i : Nat} (hk : Touch msk s0 s) (hm : Sub State.secFailMask msk) :
    Touch msk s0 (State.secFail s i) := by
  unfold State.secFail
  try dsimp only
  repeat' (with_reducible first
    | assumption
    | exact Touch.refl
    | intro _
    | apply State.modSec_touch
    | apply State.secStick_touch
    | apply State.incReg_touch
    | (refine Touch.ofEq (by assumption) ?_)
    | split)
  all_goals with_reducible first
    | exact .inr rfl
    | exact Sub.trans (b := State.secFailMask) (by decide +kernel) hm
    | exact Has.sub (a := State.secFailMask) (by decide +kernel) hm
    | exact .inl (Has.sub (a := State.secFailMask) (by decide +kernel) hm)
    | exact Has.at (by decide) (Has.sub (a := State.secFailMask) (by decide +kernel) hm)
    | exact Has.cell (by decide) (Has.sub (a := State.secFailMask) (by decide +kernel) hm)
    | exact Has.cellNext (by decide) (Has.sub (a := State.secFailMask) (by decide +kernel) hm)
    | exact Has.ite (Has.sub (a := State.secFailMask) (by decide +kernel) hm) (Has.sub (a := State.secFailMask) (by decide +kernel) hm)
    | exact .inr (fun _ => rfl)
    | (intro _; rfl)
    | (intro _; simp; done)
    | (simp; assumption)
    | (refine .inr (fun _ => ?_); simp; done)
    | (refine .inr (fun _ => ?_); (repeat' split) <;> first | rfl | (simp; done))
    | (simp; done)

def State.secBenchMask : Nat :=
  State.postMask ||| State.modSecMask

theorem State.secBench_touch {msk : Nat} {s0 : State} {s : State} (hk : Touch msk s0 s) (hm : Sub State.secBenchMask msk) :
    Touch msk s0 (State.secBench s) := by
  unfold State.secBench
  try dsimp only
  repeat' (with_reducible first
    | assumption
    | exact Touch.refl
    | intro _
    | apply State.post_touch
    | apply State.modSec_touch
    | apply Touch.ite
    | split)
  all_goals with_reducible first
    | exact .inr rfl
    | exact Sub.trans (b := State.secBenchMask) (by decide +kernel) hm
    | exact Has.sub (a := State.secBenchMask) (by decide +kernel) hm
    | exact .inl (Has.sub (a := State.secBenchMask) (by decide +kernel) hm)
    | exact Has.at (by decide) (Has.sub (a := State.secBenchMask) (by decide +kernel) hm)
    | exact Has.cell (by decide) (Has.sub (a := State.secBenchMask) (by decide +kernel) hm)
    | exact Has.cellNext (by decide) (Has.sub (a := State.secBenchMask) (by decide +kernel) hm)
    | exact Has.ite (Has.sub (a := State.secBenchMask) (by decide +kernel) hm) (Has.sub (a := State.secBenchMask) (by decide +kernel) hm)
    | exact .inr (fun _ => rfl)
    | (intro _; rfl)
    | (intro _; simp; done)
    | (simp; assumption)
    | (refine .inr (fun _ => ?_); simp; done)
    | (refine .inr (fun _ => ?_); (repeat' split) <;> first | rfl | (simp; done))
    | (simp; done)

def State.verifyFrameMask : Nat :=
  State.slotKeyMask ||| State.windowMoveMask ||| State.secFailMask

theorem State.verifyFrame_touch {msk : Nat} {s0 : State} {s : State} {f : LineFrame} {rest : List Byte} (hk : Touch msk s0 s) (hm : Sub State.verifyFrameMask msk) :
    Touch msk s0 (State.verifyFrame s f rest).1 := by
  unfold State.verifyFrame
  try dsimp only
  repeat' (with_reducible first
    | assumption
    | exact Touch.refl
    | intro _
    | apply State.slotKey_touch
    | apply State.windowMove_touch
    | apply State.secFail_touch
    | (refine Touch.ofEq (by assumption) ?_)
    | apply Touch.ite
    | split)
  all_goals with_reducible first
    | exact .inr rfl
    | exact Sub.trans (b := State.verifyFrameMask) (by decide +kernel) hm
    | exact Has.sub (a := State.verifyFrameMask) (by decide +kernel) hm
    | exact .inl (Has.sub (a := State.verifyFrameMask) (by decide +kernel) hm)
    | exact Has.at (by decide) (Has.sub (a := State.verifyFrameMask) (by decide +kernel) hm)
    | exact Has.cell (by decide) (Has.sub (a := State.verifyFrameMask) (by decide +kernel) hm)
    | exact Has.cellNext (by decide) (Has.sub (a := State.verifyFrameMask) (by decide +kernel) hm)
    | exact Has.ite (Has.sub (a := State.verifyFrameMask) (by decide +kernel) hm) (Has.sub (a := State.verifyFrameMask) (by decide +kernel) hm)
    | exact .inr (fun _ => rfl)
    | (intro _; rfl)
    | (intro _; simp; done)
    | (simp; assumption)
    | (refine .inr (fun _ => ?_); simp; done)
    | (refine .inr (fun _ => ?_); (repeat' split) <;> first | rfl | (simp; done))
    | (simp; done)

def State.protectFailMask : Nat :=
  State.stickMask ||| State.modSecMask ||| rbit R.MAC_STAT

theorem State.protectFail_touch {msk : Nat} {s0 : State} {s : State} (hk : Touch msk s0 s) (hm : Sub State.protectFailMask msk) :
    Touch msk s0 (State.protectFail s) := by
  unfold State.protectFail
  try dsimp only
  repeat' (with_reducible first
    | assumption
    | exact Touch.refl
    | intro _
    | apply State.stick_touch
    | apply State.modSec_touch)
  all_goals with_reducible first
    | exact .inr rfl
    | exact Sub.trans (b := State.protectFailMask) (by decide +kernel) hm
    | exact Has.sub (a := State.protectFailMask) (by decide +kernel) hm
    | exact .inl (Has.sub (a := State.protectFailMask) (by decide +kernel) hm)
    | exact Has.at (by decide) (Has.sub (a := State.protectFailMask) (by decide +kernel) hm)
    | exact Has.cell (by decide) (Has.sub (a := State.protectFailMask) (by decide +kernel) hm)
    | exact Has.cellNext (by decide) (Has.sub (a := State.protectFailMask) (by decide +kernel) hm)
    | exact Has.ite (Has.sub (a := State.protectFailMask) (by decide +kernel) hm) (Has.sub (a := State.protectFailMask) (by decide +kernel) hm)
    | exact .inr (fun _ => rfl)
    | (intro _; rfl)
    | (intro _; simp; done)
    | (simp; assumption)
    | (refine .inr (fun _ => ?_); simp; done)
    | (refine .inr (fun _ => ?_); (repeat' split) <;> first | rfl | (simp; done))
    | (simp; done)

end Sys2Proof.Machine
end

