-- ==== Sys2Proof/Laws/TouchMac.lean ====
section
/-! SUPPORT. What each operation of Machine/Mac.lean may change: its mask, and the proof that it changes nothing else. -/

namespace Sys2Proof.Machine

set_option linter.unusedSimpArgs false
set_option Elab.async false

theorem rmapKey_has {msk k : Nat} (h0 : Has msk (R.MAC_RMAP0 / 64)) (h1 : Has msk (R.MAC_RMAP1 / 64))
    (h2 : Has msk (R.MAC_RMAP2 / 64)) (h3 : Has msk (R.MAC_RMAP3 / 64)) : Has msk ((R.MAC_RMAP0 + 64 * (k % 4)) / 64) := by
  rcases (show k % 4 = 0 ∨ k % 4 = 1 ∨ k % 4 = 2 ∨ k % 4 = 3 by omega) with h | h | h | h <;> rw [h]
  · exact h0
  · exact h1
  · exact h2
  · exact h3


def State.modMacMask : Nat :=
  Part.mac.bit

theorem State.modMac_touch {msk : Nat} {s0 : State} {s : State} {f : MacState → MacState} (hk : Touch msk s0 s) (hm : Sub State.modMacMask msk) :
    Touch msk s0 (State.modMac s f) := by
  unfold State.modMac
  try dsimp only
  repeat' (with_reducible first
    | assumption
    | exact Touch.refl
    | intro _
    | (simp only [Touch.mk_iff]; apply TouchMk.intro))
  all_goals with_reducible first
    | exact .inr rfl
    | exact Sub.trans (b := State.modMacMask) (by decide +kernel) hm
    | exact Has.sub (a := State.modMacMask) (by decide +kernel) hm
    | exact .inl (Has.sub (a := State.modMacMask) (by decide +kernel) hm)
    | exact Has.at (by decide) (Has.sub (a := State.modMacMask) (by decide +kernel) hm)
    | exact Has.cell (by decide) (Has.sub (a := State.modMacMask) (by decide +kernel) hm)
    | exact Has.cellNext (by decide) (Has.sub (a := State.modMacMask) (by decide +kernel) hm)
    | exact Has.ite (Has.sub (a := State.modMacMask) (by decide +kernel) hm) (Has.sub (a := State.modMacMask) (by decide +kernel) hm)
    | exact .inr (fun _ => rfl)
    | (intro _; rfl)
    | (intro _; simp; done)
    | (simp; assumption)
    | (refine .inr (fun _ => ?_); simp; done)
    | (refine .inr (fun _ => ?_); (repeat' split) <;> first | rfl | (simp; done))
    | (simp; done)

def State.macStickMask : Nat :=
  State.stickMask ||| rbit R.MAC_STAT

theorem State.macStick_touch {msk : Nat} {s0 : State} {s : State} {f : Fld} (hk : Touch msk s0 s) (hm : Sub State.macStickMask msk) :
    Touch msk s0 (State.macStick s f) := by
  unfold State.macStick
  try dsimp only
  repeat' (with_reducible first
    | assumption
    | exact Touch.refl
    | intro _
    | apply State.stick_touch)
  all_goals with_reducible first
    | exact .inr rfl
    | exact Sub.trans (b := State.macStickMask) (by decide +kernel) hm
    | exact Has.sub (a := State.macStickMask) (by decide +kernel) hm
    | exact .inl (Has.sub (a := State.macStickMask) (by decide +kernel) hm)
    | exact Has.at (by decide) (Has.sub (a := State.macStickMask) (by decide +kernel) hm)
    | exact Has.cell (by decide) (Has.sub (a := State.macStickMask) (by decide +kernel) hm)
    | exact Has.cellNext (by decide) (Has.sub (a := State.macStickMask) (by decide +kernel) hm)
    | exact Has.ite (Has.sub (a := State.macStickMask) (by decide +kernel) hm) (Has.sub (a := State.macStickMask) (by decide +kernel) hm)
    | exact .inr (fun _ => rfl)
    | (intro _; rfl)
    | (intro _; simp; done)
    | (simp; assumption)
    | (refine .inr (fun _ => ?_); simp; done)
    | (refine .inr (fun _ => ?_); (repeat' split) <;> first | rfl | (simp; done))
    | (simp; done)

def State.setRingMask : Nat :=
  State.modMacMask

theorem State.setRing_touch {msk : Nat} {s0 : State} {s : State} {r : Nat} {l : List Ent} (hk : Touch msk s0 s) (hm : Sub State.setRingMask msk) :
    Touch msk s0 (State.setRing s r l) := by
  unfold State.setRing
  try dsimp only
  repeat' (with_reducible first
    | assumption
    | exact Touch.refl
    | intro _
    | apply State.modMac_touch
    | (refine Touch.ofEq (by assumption) ?_)
    | split)
  all_goals with_reducible first
    | exact .inr rfl
    | exact Sub.trans (b := State.setRingMask) (by decide +kernel) hm
    | exact Has.sub (a := State.setRingMask) (by decide +kernel) hm
    | exact .inl (Has.sub (a := State.setRingMask) (by decide +kernel) hm)
    | exact Has.at (by decide) (Has.sub (a := State.setRingMask) (by decide +kernel) hm)
    | exact Has.cell (by decide) (Has.sub (a := State.setRingMask) (by decide +kernel) hm)
    | exact Has.cellNext (by decide) (Has.sub (a := State.setRingMask) (by decide +kernel) hm)
    | exact Has.ite (Has.sub (a := State.setRingMask) (by decide +kernel) hm) (Has.sub (a := State.setRingMask) (by decide +kernel) hm)
    | exact .inr (fun _ => rfl)
    | (intro _; rfl)
    | (intro _; simp; done)
    | (simp; assumption)
    | (refine .inr (fun _ => ?_); simp; done)
    | (refine .inr (fun _ => ?_); (repeat' split) <;> first | rfl | (simp; done))
    | (simp; done)

def State.drawMask : Nat :=
  State.modMacMask

theorem State.draw_touch {msk : Nat} {s0 : State} {s : State} (hk : Touch msk s0 s) (hm : Sub State.drawMask msk) :
    Touch msk s0 (State.draw s) := by
  unfold State.draw
  try dsimp only
  repeat' (with_reducible first
    | assumption
    | exact Touch.refl
    | intro _
    | apply State.modMac_touch)
  all_goals with_reducible first
    | exact .inr rfl
    | exact Sub.trans (b := State.drawMask) (by decide +kernel) hm
    | exact Has.sub (a := State.drawMask) (by decide +kernel) hm
    | exact .inl (Has.sub (a := State.drawMask) (by decide +kernel) hm)
    | exact Has.at (by decide) (Has.sub (a := State.drawMask) (by decide +kernel) hm)
    | exact Has.cell (by decide) (Has.sub (a := State.drawMask) (by decide +kernel) hm)
    | exact Has.cellNext (by decide) (Has.sub (a := State.drawMask) (by decide +kernel) hm)
    | exact Has.ite (Has.sub (a := State.drawMask) (by decide +kernel) hm) (Has.sub (a := State.drawMask) (by decide +kernel) hm)
    | exact .inr (fun _ => rfl)
    | (intro _; rfl)
    | (intro _; simp; done)
    | (simp; assumption)
    | (refine .inr (fun _ => ?_); simp; done)
    | (refine .inr (fun _ => ?_); (repeat' split) <;> first | rfl | (simp; done))
    | (simp; done)

def State.ringAddMask : Nat :=
  State.irqMask ||| State.pulseMask ||| State.setRingMask ||| State.drawMask

theorem State.ringAdd_touch {msk : Nat} {s0 : State} {s : State} {r : Nat} {e : Ent} (hk : Touch msk s0 s) (hm : Sub State.ringAddMask msk) :
    Touch msk s0 (State.ringAdd s r e) := by
  unfold State.ringAdd
  try dsimp only
  repeat' (with_reducible first
    | assumption
    | exact Touch.refl
    | intro _
    | apply State.irq_touch
    | apply State.pulse_touch
    | apply State.setRing_touch
    | apply State.draw_touch
    | apply Touch.ite
    | split)
  all_goals with_reducible first
    | exact .inr rfl
    | exact Sub.trans (b := State.ringAddMask) (by decide +kernel) hm
    | exact Has.sub (a := State.ringAddMask) (by decide +kernel) hm
    | exact .inl (Has.sub (a := State.ringAddMask) (by decide +kernel) hm)
    | exact Has.at (by decide) (Has.sub (a := State.ringAddMask) (by decide +kernel) hm)
    | exact Has.cell (by decide) (Has.sub (a := State.ringAddMask) (by decide +kernel) hm)
    | exact Has.cellNext (by decide) (Has.sub (a := State.ringAddMask) (by decide +kernel) hm)
    | exact Has.ite (Has.sub (a := State.ringAddMask) (by decide +kernel) hm) (Has.sub (a := State.ringAddMask) (by decide +kernel) hm)
    | exact .inr (fun _ => rfl)
    | (intro _; rfl)
    | (intro _; simp; done)
    | (simp; assumption)
    | (refine .inr (fun _ => ?_); simp; done)
    | (refine .inr (fun _ => ?_); (repeat' split) <;> first | rfl | (simp; done))
    | (simp; done)

def State.ringInMask : Nat :=
  State.postMask ||| State.macStickMask ||| State.ringAddMask

theorem State.ringIn_touch {msk : Nat} {s0 : State} {s : State} {r : Nat} {e : Ent} (hk : Touch msk s0 s) (hm : Sub State.ringInMask msk) :
    Touch msk s0 (State.ringIn s r e) := by
  unfold State.ringIn
  try dsimp only
  repeat' (with_reducible first
    | assumption
    | exact Touch.refl
    | intro _
    | apply State.post_touch
    | apply State.macStick_touch
    | apply State.ringAdd_touch
    | apply Touch.ite
    | split)
  all_goals with_reducible first
    | exact .inr rfl
    | exact Sub.trans (b := State.ringInMask) (by decide +kernel) hm
    | exact Has.sub (a := State.ringInMask) (by decide +kernel) hm
    | exact .inl (Has.sub (a := State.ringInMask) (by decide +kernel) hm)
    | exact Has.at (by decide) (Has.sub (a := State.ringInMask) (by decide +kernel) hm)
    | exact Has.cell (by decide) (Has.sub (a := State.ringInMask) (by decide +kernel) hm)
    | exact Has.cellNext (by decide) (Has.sub (a := State.ringInMask) (by decide +kernel) hm)
    | exact Has.ite (Has.sub (a := State.ringInMask) (by decide +kernel) hm) (Has.sub (a := State.ringInMask) (by decide +kernel) hm)
    | exact .inr (fun _ => rfl)
    | (intro _; rfl)
    | (intro _; simp; done)
    | (simp; assumption)
    | (refine .inr (fun _ => ?_); simp; done)
    | (refine .inr (fun _ => ?_); (repeat' split) <;> first | rfl | (simp; done))
    | (simp; done)

def State.originateMask : Nat :=
  State.modMacMask

theorem State.originate_touch {msk : Nat} {s0 : State} {s : State} {f : LineFrame} {hopdst : Nat} (hk : Touch msk s0 s) (hm : Sub State.originateMask msk) :
    Touch msk s0 (State.originate s f hopdst).1 := by
  unfold State.originate
  try dsimp only
  repeat' (with_reducible first
    | assumption
    | exact Touch.refl
    | intro _
    | apply State.modMac_touch)
  all_goals with_reducible first
    | exact .inr rfl
    | exact Sub.trans (b := State.originateMask) (by decide +kernel) hm
    | exact Has.sub (a := State.originateMask) (by decide +kernel) hm
    | exact .inl (Has.sub (a := State.originateMask) (by decide +kernel) hm)
    | exact Has.at (by decide) (Has.sub (a := State.originateMask) (by decide +kernel) hm)
    | exact Has.cell (by decide) (Has.sub (a := State.originateMask) (by decide +kernel) hm)
    | exact Has.cellNext (by decide) (Has.sub (a := State.originateMask) (by decide +kernel) hm)
    | exact Has.ite (Has.sub (a := State.originateMask) (by decide +kernel) hm) (Has.sub (a := State.originateMask) (by decide +kernel) hm)
    | exact .inr (fun _ => rfl)
    | (intro _; rfl)
    | (intro _; simp; done)
    | (simp; assumption)
    | (refine .inr (fun _ => ?_); simp; done)
    | (refine .inr (fun _ => ?_); (repeat' split) <;> first | rfl | (simp; done))
    | (simp; done)

def State.toQ2Mask : Nat :=
  State.ringAddMask

theorem State.toQ2_touch {msk : Nat} {s0 : State} {s : State} {e : Ent} (hk : Touch msk s0 s) (hm : Sub State.toQ2Mask msk) :
    Touch msk s0 (State.toQ2 s e) := by
  unfold State.toQ2
  try dsimp only
  repeat' (with_reducible first
    | assumption
    | exact Touch.refl
    | intro _
    | apply State.ringAdd_touch
    | apply Touch.ite
    | split)
  all_goals with_reducible first
    | exact .inr rfl
    | exact Sub.trans (b := State.toQ2Mask) (by decide +kernel) hm
    | exact Has.sub (a := State.toQ2Mask) (by decide +kernel) hm
    | exact .inl (Has.sub (a := State.toQ2Mask) (by decide +kernel) hm)
    | exact Has.at (by decide) (Has.sub (a := State.toQ2Mask) (by decide +kernel) hm)
    | exact Has.cell (by decide) (Has.sub (a := State.toQ2Mask) (by decide +kernel) hm)
    | exact Has.cellNext (by decide) (Has.sub (a := State.toQ2Mask) (by decide +kernel) hm)
    | exact Has.ite (Has.sub (a := State.toQ2Mask) (by decide +kernel) hm) (Has.sub (a := State.toQ2Mask) (by decide +kernel) hm)
    | exact .inr (fun _ => rfl)
    | (intro _; rfl)
    | (intro _; simp; done)
    | (simp; assumption)
    | (refine .inr (fun _ => ?_); simp; done)
    | (refine .inr (fun _ => ?_); (repeat' split) <;> first | rfl | (simp; done))
    | (simp; done)

def State.seqStartMask : Nat :=
  State.modMacMask

theorem State.seqStart_touch {msk : Nat} {s0 : State} {s : State} (hk : Touch msk s0 s) (hm : Sub State.seqStartMask msk) :
    Touch msk s0 (State.seqStart s) := by
  unfold State.seqStart
  try dsimp only
  repeat' (with_reducible first
    | assumption
    | exact Touch.refl
    | intro _
    | apply State.modMac_touch
    | apply Touch.ite
    | split)
  all_goals with_reducible first
    | exact .inr rfl
    | exact Sub.trans (b := State.seqStartMask) (by decide +kernel) hm
    | exact Has.sub (a := State.seqStartMask) (by decide +kernel) hm
    | exact .inl (Has.sub (a := State.seqStartMask) (by decide +kernel) hm)
    | exact Has.at (by decide) (Has.sub (a := State.seqStartMask) (by decide +kernel) hm)
    | exact Has.cell (by decide) (Has.sub (a := State.seqStartMask) (by decide +kernel) hm)
    | exact Has.cellNext (by decide) (Has.sub (a := State.seqStartMask) (by decide +kernel) hm)
    | exact Has.ite (Has.sub (a := State.seqStartMask) (by decide +kernel) hm) (Has.sub (a := State.seqStartMask) (by decide +kernel) hm)
    | exact .inr (fun _ => rfl)
    | (intro _; rfl)
    | (intro _; simp; done)
    | (simp; assumption)
    | (refine .inr (fun _ => ?_); simp; done)
    | (refine .inr (fun _ => ?_); (repeat' split) <;> first | rfl | (simp; done))
    | (simp; done)

def State.joinStateMask : Nat :=
  State.postMask ||| State.macStickMask ||| rbit R.MAC_STAT

theorem State.joinState_touch {msk : Nat} {s0 : State} {s : State} {j : Nat} (hk : Touch msk s0 s) (hm : Sub State.joinStateMask msk) :
    Touch msk s0 (State.joinState s j) := by
  unfold State.joinState
  try dsimp only
  repeat' (with_reducible first
    | assumption
    | exact Touch.refl
    | intro _
    | apply State.post_touch
    | apply State.macStick_touch
    | apply State.setFld_touch
    | apply Touch.ite
    | split)
  all_goals with_reducible first
    | exact .inr rfl
    | exact Sub.trans (b := State.joinStateMask) (by decide +kernel) hm
    | exact Has.sub (a := State.joinStateMask) (by decide +kernel) hm
    | exact .inl (Has.sub (a := State.joinStateMask) (by decide +kernel) hm)
    | exact Has.at (by decide) (Has.sub (a := State.joinStateMask) (by decide +kernel) hm)
    | exact Has.cell (by decide) (Has.sub (a := State.joinStateMask) (by decide +kernel) hm)
    | exact Has.cellNext (by decide) (Has.sub (a := State.joinStateMask) (by decide +kernel) hm)
    | exact Has.ite (Has.sub (a := State.joinStateMask) (by decide +kernel) hm) (Has.sub (a := State.joinStateMask) (by decide +kernel) hm)
    | exact .inr (fun _ => rfl)
    | (intro _; rfl)
    | (intro _; simp; done)
    | (simp; assumption)
    | (refine .inr (fun _ => ?_); simp; done)
    | (refine .inr (fun _ => ?_); (repeat' split) <;> first | rfl | (simp; done))
    | (simp; done)

def State.leftQ2Mask : Nat :=
  State.setShortMask ||| State.modMacMask ||| State.seqStartMask ||| State.joinStateMask ||| Part.cmd.bit

theorem State.leftQ2_touch {msk : Nat} {s0 : State} {s : State} {e : Ent} (hk : Touch msk s0 s) (hm : Sub State.leftQ2Mask msk) :
    Touch msk s0 (State.leftQ2 s e) := by
  unfold State.leftQ2
  try dsimp only
  repeat' (with_reducible first
    | assumption
    | exact Touch.refl
    | intro _
    | apply State.setShort_touch
    | apply State.modMac_touch
    | apply State.seqStart_touch
    | apply State.joinState_touch
    | (refine Touch.ofEq (by assumption) ?_)
    | (simp only [Touch.mk_iff]; apply TouchMk.intro)
    | split)
  all_goals with_reducible first
    | exact .inr rfl
    | exact Sub.trans (b := State.leftQ2Mask) (by decide +kernel) hm
    | exact Has.sub (a := State.leftQ2Mask) (by decide +kernel) hm
    | exact .inl (Has.sub (a := State.leftQ2Mask) (by decide +kernel) hm)
    | exact Has.at (by decide) (Has.sub (a := State.leftQ2Mask) (by decide +kernel) hm)
    | exact Has.cell (by decide) (Has.sub (a := State.leftQ2Mask) (by decide +kernel) hm)
    | exact Has.cellNext (by decide) (Has.sub (a := State.leftQ2Mask) (by decide +kernel) hm)
    | exact Has.ite (Has.sub (a := State.leftQ2Mask) (by decide +kernel) hm) (Has.sub (a := State.leftQ2Mask) (by decide +kernel) hm)
    | exact .inr (fun _ => rfl)
    | (intro _; rfl)
    | (intro _; simp; done)
    | (simp; assumption)
    | (refine .inr (fun _ => ?_); simp; done)
    | (refine .inr (fun _ => ?_); (repeat' split) <;> first | rfl | (simp; done))
    | (simp; done)

def State.modHeadMask : Nat :=
  State.setRingMask

theorem State.modHead_touch {msk : Nat} {s0 : State} {s : State} {k : Nat} {f : Ent → Option Ent} (hk : Touch msk s0 s) (hm : Sub State.modHeadMask msk) :
    Touch msk s0 (State.modHead s k f) := by
  unfold State.modHead
  try dsimp only
  repeat' (with_reducible first
    | assumption
    | exact Touch.refl
    | intro _
    | apply State.setRing_touch
    | (refine Touch.ofEq (by assumption) ?_)
    | split)
  all_goals with_reducible first
    | exact .inr rfl
    | exact Sub.trans (b := State.modHeadMask) (by decide +kernel) hm
    | exact Has.sub (a := State.modHeadMask) (by decide +kernel) hm
    | exact .inl (Has.sub (a := State.modHeadMask) (by decide +kernel) hm)
    | exact Has.at (by decide) (Has.sub (a := State.modHeadMask) (by decide +kernel) hm)
    | exact Has.cell (by decide) (Has.sub (a := State.modHeadMask) (by decide +kernel) hm)
    | exact Has.cellNext (by decide) (Has.sub (a := State.modHeadMask) (by decide +kernel) hm)
    | exact Has.ite (Has.sub (a := State.modHeadMask) (by decide +kernel) hm) (Has.sub (a := State.modHeadMask) (by decide +kernel) hm)
    | exact .inr (fun _ => rfl)
    | (intro _; rfl)
    | (intro _; simp; done)
    | (simp; assumption)
    | (refine .inr (fun _ => ?_); simp; done)
    | (refine .inr (fun _ => ?_); (repeat' split) <;> first | rfl | (simp; done))
    | (simp; done)

def State.dropHeadMask : Nat :=
  State.drawMask ||| State.leftQ2Mask ||| State.modHeadMask

theorem State.dropHead_touch {msk : Nat} {s0 : State} {s : State} {k : Nat} (hk : Touch msk s0 s) (hm : Sub State.dropHeadMask msk) :
    Touch msk s0 (State.dropHead s k) := by
  unfold State.dropHead
  try dsimp only
  repeat' (with_reducible first
    | assumption
    | exact Touch.refl
    | intro _
    | apply State.draw_touch
    | apply State.leftQ2_touch
    | apply State.modHead_touch
    | (refine Touch.ofEq (by assumption) ?_)
    | split)
  all_goals with_reducible first
    | exact .inr rfl
    | exact Sub.trans (b := State.dropHeadMask) (by decide +kernel) hm
    | exact Has.sub (a := State.dropHeadMask) (by decide +kernel) hm
    | exact .inl (Has.sub (a := State.dropHeadMask) (by decide +kernel) hm)
    | exact Has.at (by decide) (Has.sub (a := State.dropHeadMask) (by decide +kernel) hm)
    | exact Has.cell (by decide) (Has.sub (a := State.dropHeadMask) (by decide +kernel) hm)
    | exact Has.cellNext (by decide) (Has.sub (a := State.dropHeadMask) (by decide +kernel) hm)
    | exact Has.ite (Has.sub (a := State.dropHeadMask) (by decide +kernel) hm) (Has.sub (a := State.dropHeadMask) (by decide +kernel) hm)
    | exact .inr (fun _ => rfl)
    | (intro _; rfl)
    | (intro _; simp; done)
    | (simp; assumption)
    | (refine .inr (fun _ => ?_); simp; done)
    | (refine .inr (fun _ => ?_); (repeat' split) <;> first | rfl | (simp; done))
    | (simp; done)

def State.sendShortMask : Nat :=
  State.txBeginMask ||| State.vldShortMask

theorem State.sendShort_touch {msk : Nat} {s0 : State} {s : State} {x : Nat} (hk : Touch msk s0 s) (hm : Sub State.sendShortMask msk) :
    Touch msk s0 (State.sendShort s x).1 := by
  unfold State.sendShort
  try dsimp only
  repeat' (with_reducible first
    | assumption
    | exact Touch.refl
    | intro _
    | apply State.txBegin_touch
    | apply State.vldShort_touch
    | apply Touch.ite
    | split)
  all_goals with_reducible first
    | exact .inr rfl
    | exact Sub.trans (b := State.sendShortMask) (by decide +kernel) hm
    | exact Has.sub (a := State.sendShortMask) (by decide +kernel) hm
    | exact .inl (Has.sub (a := State.sendShortMask) (by decide +kernel) hm)
    | exact Has.at (by decide) (Has.sub (a := State.sendShortMask) (by decide +kernel) hm)
    | exact Has.cell (by decide) (Has.sub (a := State.sendShortMask) (by decide +kernel) hm)
    | exact Has.cellNext (by decide) (Has.sub (a := State.sendShortMask) (by decide +kernel) hm)
    | exact Has.ite (Has.sub (a := State.sendShortMask) (by decide +kernel) hm) (Has.sub (a := State.sendShortMask) (by decide +kernel) hm)
    | exact .inr (fun _ => rfl)
    | (intro _; rfl)
    | (intro _; simp; done)
    | (simp; assumption)
    | (refine .inr (fun _ => ?_); simp; done)
    | (refine .inr (fun _ => ?_); (repeat' split) <;> first | rfl | (simp; done))
    | (simp; done)

def State.frameBytesMask : Nat :=
  State.protectFrameMask

theorem State.frameBytes_touch {msk : Nat} {s0 : State} {s : State} {e : Ent} {raw : Bool} (hk : Touch msk s0 s) (hm : Sub State.frameBytesMask msk) :
    Touch msk s0 (State.frameBytes s e raw).1 := by
  unfold State.frameBytes
  try dsimp only
  repeat' (with_reducible first
    | assumption
    | exact Touch.refl
    | intro _
    | apply State.protectFrame_touch
    | (refine Touch.ofEq (by assumption) ?_)
    | apply Touch.ite
    | split)
  all_goals with_reducible first
    | exact .inr rfl
    | exact Sub.trans (b := State.frameBytesMask) (by decide +kernel) hm
    | exact Has.sub (a := State.frameBytesMask) (by decide +kernel) hm
    | exact .inl (Has.sub (a := State.frameBytesMask) (by decide +kernel) hm)
    | exact Has.at (by decide) (Has.sub (a := State.frameBytesMask) (by decide +kernel) hm)
    | exact Has.cell (by decide) (Has.sub (a := State.frameBytesMask) (by decide +kernel) hm)
    | exact Has.cellNext (by decide) (Has.sub (a := State.frameBytesMask) (by decide +kernel) hm)
    | exact Has.ite (Has.sub (a := State.frameBytesMask) (by decide +kernel) hm) (Has.sub (a := State.frameBytesMask) (by decide +kernel) hm)
    | exact .inr (fun _ => rfl)
    | (intro _; rfl)
    | (intro _; simp; done)
    | (simp; assumption)
    | (refine .inr (fun _ => ?_); simp; done)
    | (refine .inr (fun _ => ?_); (repeat' split) <;> first | rfl | (simp; done))
    | (simp; done)

def State.lineTxMask : Nat :=
  State.modPhyMask ||| State.txBeginMask ||| State.busyAckMask ||| rbit R.MAC_TXCNT

theorem State.lineTx_touch {msk : Nat} {s0 : State} {s : State} {md : Nat × Nat × Nat × Nat × Option Nat} {bytes : List Byte} {ackreq : Bool} (hk : Touch msk s0 s) (hm : Sub State.lineTxMask msk) :
    Touch msk s0 (State.lineTx s md bytes ackreq) := by
  unfold State.lineTx
  try dsimp only
  repeat' (with_reducible first
    | assumption
    | exact Touch.refl
    | intro _
    | apply State.modPhy_touch
    | apply State.txBegin_touch
    | apply State.busyAck_touch
    | apply State.incReg_touch
    | (refine Touch.ofEq (by assumption) ?_)
    | apply Touch.ite
    | split)
  all_goals with_reducible first
    | exact .inr rfl
    | exact Sub.trans (b := State.lineTxMask) (by decide +kernel) hm
    | exact Has.sub (a := State.lineTxMask) (by decide +kernel) hm
    | exact .inl (Has.sub (a := State.lineTxMask) (by decide +kernel) hm)
    | exact Has.at (by decide) (Has.sub (a := State.lineTxMask) (by decide +kernel) hm)
    | exact Has.cell (by decide) (Has.sub (a := State.lineTxMask) (by decide +kernel) hm)
    | exact Has.cellNext (by decide) (Has.sub (a := State.lineTxMask) (by decide +kernel) hm)
    | exact Has.ite (Has.sub (a := State.lineTxMask) (by decide +kernel) hm) (Has.sub (a := State.lineTxMask) (by decide +kernel) hm)
    | exact .inr (fun _ => rfl)
    | (intro _; rfl)
    | (intro _; simp; done)
    | (simp; assumption)
    | (refine .inr (fun _ => ?_); simp; done)
    | (refine .inr (fun _ => ?_); (repeat' split) <;> first | rfl | (simp; done))
    | (simp; done)

def State.attemptFailedMask : Nat :=
  State.postMask ||| State.macStickMask ||| State.drawMask ||| State.modHeadMask ||| State.dropHeadMask ||| rbit
    R.MAC_ACKFCNT

theorem State.attemptFailed_touch {msk : Nat} {s0 : State} {s : State} {k : Nat} (hk : Touch msk s0 s) (hm : Sub State.attemptFailedMask msk) :
    Touch msk s0 (State.attemptFailed s k) := by
  unfold State.attemptFailed
  try dsimp only
  repeat' (with_reducible first
    | assumption
    | exact Touch.refl
    | intro _
    | apply State.post_touch
    | apply State.macStick_touch
    | apply State.draw_touch
    | apply State.modHead_touch
    | apply State.dropHead_touch
    | apply State.incReg_touch
    | (refine Touch.ofEq (by assumption) ?_)
    | apply Touch.ite
    | split)
  all_goals with_reducible first
    | exact .inr rfl
    | exact Sub.trans (b := State.attemptFailedMask) (by decide +kernel) hm
    | exact Has.sub (a := State.attemptFailedMask) (by decide +kernel) hm
    | exact .inl (Has.sub (a := State.attemptFailedMask) (by decide +kernel) hm)
    | exact Has.at (by decide) (Has.sub (a := State.attemptFailedMask) (by decide +kernel) hm)
    | exact Has.cell (by decide) (Has.sub (a := State.attemptFailedMask) (by decide +kernel) hm)
    | exact Has.cellNext (by decide) (Has.sub (a := State.attemptFailedMask) (by decide +kernel) hm)
    | exact Has.ite (Has.sub (a := State.attemptFailedMask) (by decide +kernel) hm) (Has.sub (a := State.attemptFailedMask) (by decide +kernel) hm)
    | exact .inr (fun _ => rfl)
    | (intro _; rfl)
    | (intro _; simp; done)
    | (simp; assumption)
    | (refine .inr (fun _ => ?_); simp; done)
    | (refine .inr (fun _ => ?_); (repeat' split) <;> first | rfl | (simp; done))
    | (simp; done)

def State.sendHeadMask : Nat :=
  State.vldShortMask ||| State.protectFailMask ||| State.modMacMask ||| State.leftQ2Mask ||| State.modHeadMask |||
    State.dropHeadMask ||| State.frameBytesMask ||| State.lineTxMask ||| State.attemptFailedMask

theorem State.sendHead_touch {msk : Nat} {s0 : State} {s : State} {k : Nat} (hk : Touch msk s0 s) (hm : Sub State.sendHeadMask msk) :
    Touch msk s0 (State.sendHead s k) := by
  unfold State.sendHead
  try dsimp only
  repeat' (with_reducible first
    | assumption
    | exact Touch.refl
    | intro _
    | apply State.vldShort_touch
    | apply State.protectFail_touch
    | apply State.modMac_touch
    | apply State.leftQ2_touch
    | apply State.modHead_touch
    | apply State.dropHead_touch
    | apply State.frameBytes_touch
    | apply State.lineTx_touch
    | apply State.attemptFailed_touch
    | (refine Touch.ofEq (by assumption) ?_)
    | apply Touch.ite
    | split)
  all_goals with_reducible first
    | exact .inr rfl
    | exact Sub.trans (b := State.sendHeadMask) (by decide +kernel) hm
    | exact Has.sub (a := State.sendHeadMask) (by decide +kernel) hm
    | exact .inl (Has.sub (a := State.sendHeadMask) (by decide +kernel) hm)
    | exact Has.at (by decide) (Has.sub (a := State.sendHeadMask) (by decide +kernel) hm)
    | exact Has.cell (by decide) (Has.sub (a := State.sendHeadMask) (by decide +kernel) hm)
    | exact Has.cellNext (by decide) (Has.sub (a := State.sendHeadMask) (by decide +kernel) hm)
    | exact Has.ite (Has.sub (a := State.sendHeadMask) (by decide +kernel) hm) (Has.sub (a := State.sendHeadMask) (by decide +kernel) hm)
    | exact .inr (fun _ => rfl)
    | (intro _; rfl)
    | (intro _; simp; done)
    | (simp; assumption)
    | (refine .inr (fun _ => ?_); simp; done)
    | (refine .inr (fun _ => ?_); (repeat' split) <;> first | rfl | (simp; done))
    | (simp; done)

def State.contendMask : Nat :=
  State.drawMask ||| State.sendHeadMask

theorem State.contend_touch {msk : Nat} {s0 : State} {s : State} {n : Nat} (hk : Touch msk s0 s) (hm : Sub State.contendMask msk) :
    Touch msk s0 (State.contend s n) := by
  unfold State.contend
  try dsimp only
  repeat' (with_reducible first
    | assumption
    | exact Touch.refl
    | intro _
    | apply State.draw_touch
    | apply State.sendHead_touch
    | (refine Touch.ofEq (by assumption) ?_)
    | apply Touch.ite
    | split)
  all_goals with_reducible first
    | exact .inr rfl
    | exact Sub.trans (b := State.contendMask) (by decide +kernel) hm
    | exact Has.sub (a := State.contendMask) (by decide +kernel) hm
    | exact .inl (Has.sub (a := State.contendMask) (by decide +kernel) hm)
    | exact Has.at (by decide) (Has.sub (a := State.contendMask) (by decide +kernel) hm)
    | exact Has.cell (by decide) (Has.sub (a := State.contendMask) (by decide +kernel) hm)
    | exact Has.cellNext (by decide) (Has.sub (a := State.contendMask) (by decide +kernel) hm)
    | exact Has.ite (Has.sub (a := State.contendMask) (by decide +kernel) hm) (Has.sub (a := State.contendMask) (by decide +kernel) hm)
    | exact .inr (fun _ => rfl)
    | (intro _; rfl)
    | (intro _; simp; done)
    | (simp; assumption)
    | (refine .inr (fun _ => ?_); simp; done)
    | (refine .inr (fun _ => ?_); (repeat' split) <;> first | rfl | (simp; done))
    | (simp; done)

def State.reserveAtMask : Nat :=
  State.modMacMask

theorem State.reserveAt_touch {msk : Nat} {s0 : State} {s : State} {a : Nat} (hk : Touch msk s0 s) (hm : Sub State.reserveAtMask msk) :
    Touch msk s0 (State.reserveAt s a) := by
  unfold State.reserveAt
  try dsimp only
  repeat' (with_reducible first
    | assumption
    | exact Touch.refl
    | intro _
    | apply State.modMac_touch)
  all_goals with_reducible first
    | exact .inr rfl
    | exact Sub.trans (b := State.reserveAtMask) (by decide +kernel) hm
    | exact Has.sub (a := State.reserveAtMask) (by decide +kernel) hm
    | exact .inl (Has.sub (a := State.reserveAtMask) (by decide +kernel) hm)
    | exact Has.at (by decide) (Has.sub (a := State.reserveAtMask) (by decide +kernel) hm)
    | exact Has.cell (by decide) (Has.sub (a := State.reserveAtMask) (by decide +kernel) hm)
    | exact Has.cellNext (by decide) (Has.sub (a := State.reserveAtMask) (by decide +kernel) hm)
    | exact Has.ite (Has.sub (a := State.reserveAtMask) (by decide +kernel) hm) (Has.sub (a := State.reserveAtMask) (by decide +kernel) hm)
    | exact .inr (fun _ => rfl)
    | (intro _; rfl)
    | (intro _; simp; done)
    | (simp; assumption)
    | (refine .inr (fun _ => ?_); simp; done)
    | (refine .inr (fun _ => ?_); (repeat' split) <;> first | rfl | (simp; done))
    | (simp; done)

def State.reserveNextMask : Nat :=
  State.modMacMask ||| State.sendHeadMask ||| State.reserveAtMask

theorem State.reserveNext_touch {msk : Nat} {s0 : State} {s : State} (hk : Touch msk s0 s) (hm : Sub State.reserveNextMask msk) :
    Touch msk s0 (State.reserveNext s) := by
  unfold State.reserveNext
  try dsimp only
  repeat' (with_reducible first
    | assumption
    | exact Touch.refl
    | intro _
    | apply State.modMac_touch
    | apply State.sendHead_touch
    | apply State.reserveAt_touch
    | (refine Touch.ofEq (by assumption) ?_)
    | apply Touch.ite
    | apply Touch.foldl
    | apply Touch.foldlFst
    | split)
  all_goals with_reducible first
    | exact .inr rfl
    | exact Sub.trans (b := State.reserveNextMask) (by decide +kernel) hm
    | exact Has.sub (a := State.reserveNextMask) (by decide +kernel) hm
    | exact .inl (Has.sub (a := State.reserveNextMask) (by decide +kernel) hm)
    | exact Has.at (by decide) (Has.sub (a := State.reserveNextMask) (by decide +kernel) hm)
    | exact Has.cell (by decide) (Has.sub (a := State.reserveNextMask) (by decide +kernel) hm)
    | exact Has.cellNext (by decide) (Has.sub (a := State.reserveNextMask) (by decide +kernel) hm)
    | exact Has.ite (Has.sub (a := State.reserveNextMask) (by decide +kernel) hm) (Has.sub (a := State.reserveNextMask) (by decide +kernel) hm)
    | exact .inr (fun _ => rfl)
    | (intro _; rfl)
    | (intro _; simp; done)
    | (simp; assumption)
    | (refine .inr (fun _ => ?_); simp; done)
    | (refine .inr (fun _ => ?_); (repeat' split) <;> first | rfl | (simp; done))
    | (simp; done)

def State.beaconCountsMask : Nat :=
  rbit R.MAC_STAT ||| rbit R.MAC_BSINCE

theorem State.beaconCounts_touch {msk : Nat} {s0 : State} {s : State} (hk : Touch msk s0 s) (hm : Sub State.beaconCountsMask msk) :
    Touch msk s0 (State.beaconCounts s) := by
  unfold State.beaconCounts
  try dsimp only
  repeat' (with_reducible first
    | assumption
    | exact Touch.refl
    | intro _
    | apply State.setFld_touch
    | apply State.setFlag_touch)
  all_goals with_reducible first
    | exact .inr rfl
    | exact Sub.trans (b := State.beaconCountsMask) (by decide +kernel) hm
    | exact Has.sub (a := State.beaconCountsMask) (by decide +kernel) hm
    | exact .inl (Has.sub (a := State.beaconCountsMask) (by decide +kernel) hm)
    | exact Has.at (by decide) (Has.sub (a := State.beaconCountsMask) (by decide +kernel) hm)
    | exact Has.cell (by decide) (Has.sub (a := State.beaconCountsMask) (by decide +kernel) hm)
    | exact Has.cellNext (by decide) (Has.sub (a := State.beaconCountsMask) (by decide +kernel) hm)
    | exact Has.ite (Has.sub (a := State.beaconCountsMask) (by decide +kernel) hm) (Has.sub (a := State.beaconCountsMask) (by decide +kernel) hm)
    | exact .inr (fun _ => rfl)
    | (intro _; rfl)
    | (intro _; simp; done)
    | (simp; assumption)
    | (refine .inr (fun _ => ?_); simp; done)
    | (refine .inr (fun _ => ?_); (repeat' split) <;> first | rfl | (simp; done))
    | (simp; done)

def State.headAddrMask : Nat :=
  rbit R.MAC_HEAD

theorem State.headAddr_touch {msk : Nat} {s0 : State} {s : State} (hk : Touch msk s0 s) (hm : Sub State.headAddrMask msk) :
    Touch msk s0 (State.headAddr s) := by
  unfold State.headAddr
  try dsimp only
  repeat' (with_reducible first
    | assumption
    | exact Touch.refl
    | intro _
    | apply State.setFld_touch
    | apply Touch.ite
    | split)
  all_goals with_reducible first
    | exact .inr rfl
    | exact Sub.trans (b := State.headAddrMask) (by decide +kernel) hm
    | exact Has.sub (a := State.headAddrMask) (by decide +kernel) hm
    | exact .inl (Has.sub (a := State.headAddrMask) (by decide +kernel) hm)
    | exact Has.at (by decide) (Has.sub (a := State.headAddrMask) (by decide +kernel) hm)
    | exact Has.cell (by decide) (Has.sub (a := State.headAddrMask) (by decide +kernel) hm)
    | exact Has.cellNext (by decide) (Has.sub (a := State.headAddrMask) (by decide +kernel) hm)
    | exact Has.ite (Has.sub (a := State.headAddrMask) (by decide +kernel) hm) (Has.sub (a := State.headAddrMask) (by decide +kernel) hm)
    | exact .inr (fun _ => rfl)
    | (intro _; rfl)
    | (intro _; simp; done)
    | (simp; assumption)
    | (refine .inr (fun _ => ?_); simp; done)
    | (refine .inr (fun _ => ?_); (repeat' split) <;> first | rfl | (simp; done))
    | (simp; done)

def State.headBeaconMask : Nat :=
  State.lossExitMask ||| State.modMacMask ||| State.sendShortMask ||| State.beaconCountsMask

theorem State.headBeacon_touch {msk : Nat} {s0 : State} {s : State} (hk : Touch msk s0 s) (hm : Sub State.headBeaconMask msk) :
    Touch msk s0 (State.headBeacon s) := by
  unfold State.headBeacon
  try dsimp only
  repeat' (with_reducible first
    | assumption
    | exact Touch.refl
    | intro _
    | apply State.lossExit_touch
    | apply State.modMac_touch
    | apply State.sendShort_touch
    | apply State.beaconCounts_touch
    | apply Touch.ite
    | split)
  all_goals with_reducible first
    | exact .inr rfl
    | exact Sub.trans (b := State.headBeaconMask) (by decide +kernel) hm
    | exact Has.sub (a := State.headBeaconMask) (by decide +kernel) hm
    | exact .inl (Has.sub (a := State.headBeaconMask) (by decide +kernel) hm)
    | exact Has.at (by decide) (Has.sub (a := State.headBeaconMask) (by decide +kernel) hm)
    | exact Has.cell (by decide) (Has.sub (a := State.headBeaconMask) (by decide +kernel) hm)
    | exact Has.cellNext (by decide) (Has.sub (a := State.headBeaconMask) (by decide +kernel) hm)
    | exact Has.ite (Has.sub (a := State.headBeaconMask) (by decide +kernel) hm) (Has.sub (a := State.headBeaconMask) (by decide +kernel) hm)
    | exact .inr (fun _ => rfl)
    | (intro _; rfl)
    | (intro _; simp; done)
    | (simp; assumption)
    | (refine .inr (fun _ => ?_); simp; done)
    | (refine .inr (fun _ => ?_); (repeat' split) <;> first | rfl | (simp; done))
    | (simp; done)

def State.beaconThetaMask : Nat :=
  State.timThetaMask

theorem State.beaconTheta_touch {msk : Nat} {s0 : State} {s : State} {tb : Nat} {l : Nat} (hk : Touch msk s0 s) (hm : Sub State.beaconThetaMask msk) :
    Touch msk s0 (State.beaconTheta s tb l) := by
  unfold State.beaconTheta
  try dsimp only
  repeat' (with_reducible first
    | assumption
    | exact Touch.refl
    | intro _
    | apply State.timTheta_touch)
  all_goals with_reducible first
    | exact .inr rfl
    | exact Sub.trans (b := State.beaconThetaMask) (by decide +kernel) hm
    | exact Has.sub (a := State.beaconThetaMask) (by decide +kernel) hm
    | exact .inl (Has.sub (a := State.beaconThetaMask) (by decide +kernel) hm)
    | exact Has.at (by decide) (Has.sub (a := State.beaconThetaMask) (by decide +kernel) hm)
    | exact Has.cell (by decide) (Has.sub (a := State.beaconThetaMask) (by decide +kernel) hm)
    | exact Has.cellNext (by decide) (Has.sub (a := State.beaconThetaMask) (by decide +kernel) hm)
    | exact Has.ite (Has.sub (a := State.beaconThetaMask) (by decide +kernel) hm) (Has.sub (a := State.beaconThetaMask) (by decide +kernel) hm)
    | exact .inr (fun _ => rfl)
    | (intro _; rfl)
    | (intro _; simp; done)
    | (simp; assumption)
    | (refine .inr (fun _ => ?_); simp; done)
    | (refine .inr (fun _ => ?_); (repeat' split) <;> first | rfl | (simp; done))
    | (simp; done)

def State.gridFromMask : Nat :=
  State.modPhyMask ||| rbit R.MAC_GRID

theorem State.gridFrom_touch {msk : Nat} {s0 : State} {s : State} {start : Int} {course : Nat} (hk : Touch msk s0 s) (hm : Sub State.gridFromMask msk) :
    Touch msk s0 (State.gridFrom s start course) := by
  unfold State.gridFrom
  try dsimp only
  repeat' (with_reducible first
    | assumption
    | exact Touch.refl
    | intro _
    | apply State.modPhy_touch
    | apply State.setFld_touch
    | apply Touch.ite
    | split)
  all_goals with_reducible first
    | exact .inr rfl
    | exact Sub.trans (b := State.gridFromMask) (by decide +kernel) hm
    | exact Has.sub (a := State.gridFromMask) (by decide +kernel) hm
    | exact .inl (Has.sub (a := State.gridFromMask) (by decide +kernel) hm)
    | exact Has.at (by decide) (Has.sub (a := State.gridFromMask) (by decide +kernel) hm)
    | exact Has.cell (by decide) (Has.sub (a := State.gridFromMask) (by decide +kernel) hm)
    | exact Has.cellNext (by decide) (Has.sub (a := State.gridFromMask) (by decide +kernel) hm)
    | exact Has.ite (Has.sub (a := State.gridFromMask) (by decide +kernel) hm) (Has.sub (a := State.gridFromMask) (by decide +kernel) hm)
    | exact .inr (fun _ => rfl)
    | (intro _; rfl)
    | (intro _; simp; done)
    | (simp; assumption)
    | (refine .inr (fun _ => ?_); simp; done)
    | (refine .inr (fun _ => ?_); (repeat' split) <;> first | rfl | (simp; done))
    | (simp; done)

def State.beaconValidMask : Nat :=
  State.lossExitMask ||| State.modMacMask ||| State.beaconCountsMask ||| State.beaconThetaMask ||| rbit
    R.MAC_BENCH_LO ||| rbit R.MAC_BENCH_HI

theorem State.beaconValid_touch {msk : Nat} {s0 : State} {s : State} {blo : Nat} {sec0 : Nat} {frac : Nat} {course : Nat} {half : Nat} {ago : Nat} {snr : Nat} (hk : Touch msk s0 s) (hm : Sub State.beaconValidMask msk) :
    Touch msk s0 (State.beaconValid s blo sec0 frac course half ago snr) := by
  unfold State.beaconValid
  try dsimp only
  repeat' (with_reducible first
    | assumption
    | exact Touch.refl
    | intro _
    | apply State.lossExit_touch
    | apply State.modMac_touch
    | apply State.beaconCounts_touch
    | apply State.beaconTheta_touch
    | apply State.setPair_touch
    | (refine Touch.ofEq (by assumption) ?_)
    | apply Touch.ite
    | split)
  all_goals with_reducible first
    | exact .inr rfl
    | exact Sub.trans (b := State.beaconValidMask) (by decide +kernel) hm
    | exact Has.sub (a := State.beaconValidMask) (by decide +kernel) hm
    | exact .inl (Has.sub (a := State.beaconValidMask) (by decide +kernel) hm)
    | exact Has.at (by decide) (Has.sub (a := State.beaconValidMask) (by decide +kernel) hm)
    | exact Has.cell (by decide) (Has.sub (a := State.beaconValidMask) (by decide +kernel) hm)
    | exact Has.cellNext (by decide) (Has.sub (a := State.beaconValidMask) (by decide +kernel) hm)
    | exact Has.ite (Has.sub (a := State.beaconValidMask) (by decide +kernel) hm) (Has.sub (a := State.beaconValidMask) (by decide +kernel) hm)
    | exact .inr (fun _ => rfl)
    | (intro _; rfl)
    | (intro _; simp; done)
    | (simp; assumption)
    | (refine .inr (fun _ => ?_); simp; done)
    | (refine .inr (fun _ => ?_); (repeat' split) <;> first | rfl | (simp; done))
    | (simp; done)

def State.beaconLateMask : Nat :=
  State.modMacMask ||| State.beaconThetaMask

theorem State.beaconLate_touch {msk : Nat} {s0 : State} {s : State} (hk : Touch msk s0 s) (hm : Sub State.beaconLateMask msk) :
    Touch msk s0 (State.beaconLate s) := by
  unfold State.beaconLate
  try dsimp only
  repeat' (with_reducible first
    | assumption
    | exact Touch.refl
    | intro _
    | apply State.modMac_touch
    | apply State.beaconTheta_touch
    | (refine Touch.ofEq (by assumption) ?_)
    | split)
  all_goals with_reducible first
    | exact .inr rfl
    | exact Sub.trans (b := State.beaconLateMask) (by decide +kernel) hm
    | exact Has.sub (a := State.beaconLateMask) (by decide +kernel) hm
    | exact .inl (Has.sub (a := State.beaconLateMask) (by decide +kernel) hm)
    | exact Has.at (by decide) (Has.sub (a := State.beaconLateMask) (by decide +kernel) hm)
    | exact Has.cell (by decide) (Has.sub (a := State.beaconLateMask) (by decide +kernel) hm)
    | exact Has.cellNext (by decide) (Has.sub (a := State.beaconLateMask) (by decide +kernel) hm)
    | exact Has.ite (Has.sub (a := State.beaconLateMask) (by decide +kernel) hm) (Has.sub (a := State.beaconLateMask) (by decide +kernel) hm)
    | exact .inr (fun _ => rfl)
    | (intro _; rfl)
    | (intro _; simp; done)
    | (simp; assumption)
    | (refine .inr (fun _ => ?_); simp; done)
    | (refine .inr (fun _ => ?_); (repeat' split) <;> first | rfl | (simp; done))
    | (simp; done)

def State.listenYieldMask : Nat :=
  State.postMask ||| State.modMacMask ||| State.macStickMask ||| rbit R.MAC_ROLE

theorem State.listenYield_touch {msk : Nat} {s0 : State} {s : State} {src : Nat} (hk : Touch msk s0 s) (hm : Sub State.listenYieldMask msk) :
    Touch msk s0 (State.listenYield s src) := by
  unfold State.listenYield
  try dsimp only
  repeat' (with_reducible first
    | assumption
    | exact Touch.refl
    | intro _
    | apply State.post_touch
    | apply State.modMac_touch
    | apply State.macStick_touch
    | apply State.setFld_touch
    | apply Touch.ite
    | split)
  all_goals with_reducible first
    | exact .inr rfl
    | exact Sub.trans (b := State.listenYieldMask) (by decide +kernel) hm
    | exact Has.sub (a := State.listenYieldMask) (by decide +kernel) hm
    | exact .inl (Has.sub (a := State.listenYieldMask) (by decide +kernel) hm)
    | exact Has.at (by decide) (Has.sub (a := State.listenYieldMask) (by decide +kernel) hm)
    | exact Has.cell (by decide) (Has.sub (a := State.listenYieldMask) (by decide +kernel) hm)
    | exact Has.cellNext (by decide) (Has.sub (a := State.listenYieldMask) (by decide +kernel) hm)
    | exact Has.ite (Has.sub (a := State.listenYieldMask) (by decide +kernel) hm) (Has.sub (a := State.listenYieldMask) (by decide +kernel) hm)
    | exact .inr (fun _ => rfl)
    | (intro _; rfl)
    | (intro _; simp; done)
    | (simp; assumption)
    | (refine .inr (fun _ => ?_); simp; done)
    | (refine .inr (fun _ => ?_); (repeat' split) <;> first | rfl | (simp; done))
    | (simp; done)

def State.beaconRxMask : Nat :=
  State.postMask ||| State.phaseLearnMask ||| State.modMacMask ||| State.macStickMask ||| State.gridFromMask |||
    State.beaconValidMask ||| State.listenYieldMask ||| rbit R.MAC_ROLE

theorem State.beaconRx_touch {msk : Nat} {s0 : State} {s : State} {x : Nat} {course : Nat} {posn : Nat} {ago : Nat} {snr : Nat} (hk : Touch msk s0 s) (hm : Sub State.beaconRxMask msk) :
    Touch msk s0 (State.beaconRx s x course posn ago snr) := by
  unfold State.beaconRx
  try dsimp only
  repeat' (with_reducible first
    | assumption
    | exact Touch.refl
    | intro _
    | apply State.post_touch
    | apply State.phaseLearn_touch
    | apply State.modMac_touch
    | apply State.macStick_touch
    | apply State.gridFrom_touch
    | apply State.beaconValid_touch
    | apply State.listenYield_touch
    | apply State.setFld_touch
    | (refine Touch.ofEq (by assumption) ?_)
    | apply Touch.ite
    | split)
  all_goals with_reducible first
    | exact .inr rfl
    | exact Sub.trans (b := State.beaconRxMask) (by decide +kernel) hm
    | exact Has.sub (a := State.beaconRxMask) (by decide +kernel) hm
    | exact .inl (Has.sub (a := State.beaconRxMask) (by decide +kernel) hm)
    | exact Has.at (by decide) (Has.sub (a := State.beaconRxMask) (by decide +kernel) hm)
    | exact Has.cell (by decide) (Has.sub (a := State.beaconRxMask) (by decide +kernel) hm)
    | exact Has.cellNext (by decide) (Has.sub (a := State.beaconRxMask) (by decide +kernel) hm)
    | exact Has.ite (Has.sub (a := State.beaconRxMask) (by decide +kernel) hm) (Has.sub (a := State.beaconRxMask) (by decide +kernel) hm)
    | exact .inr (fun _ => rfl)
    | (intro _; rfl)
    | (intro _; simp; done)
    | (simp; assumption)
    | (refine .inr (fun _ => ?_); simp; done)
    | (refine .inr (fun _ => ?_); (repeat' split) <;> first | rfl | (simp; done))
    | (simp; done)

def State.setRmapMask : Nat :=
  rbit R.MAC_RMAP0 ||| rbit R.MAC_RMAP1 ||| rbit R.MAC_RMAP2 ||| rbit R.MAC_RMAP3

theorem State.setRmap_touch {msk : Nat} {s0 : State} {s : State} {m : Nat} (hk : Touch msk s0 s) (hm : Sub State.setRmapMask msk) :
    Touch msk s0 (State.setRmap s m) := by
  unfold State.setRmap
  try dsimp only
  repeat' (with_reducible first
    | assumption
    | exact Touch.refl
    | intro _
    | apply Touch.setReg
    | apply Touch.foldl
    | apply Touch.foldlFst
    | apply Touch.setReg)
  all_goals with_reducible first
    | exact rmapKey_has (Has.sub (a := State.setRmapMask) (by decide +kernel) hm) (Has.sub (a := State.setRmapMask) (by decide +kernel) hm) (Has.sub (a := State.setRmapMask) (by decide +kernel) hm) (Has.sub (a := State.setRmapMask) (by decide +kernel) hm)
    | exact .inr rfl
    | exact Sub.trans (b := State.setRmapMask) (by decide +kernel) hm
    | exact Has.sub (a := State.setRmapMask) (by decide +kernel) hm
    | exact .inl (Has.sub (a := State.setRmapMask) (by decide +kernel) hm)
    | exact Has.at (by decide) (Has.sub (a := State.setRmapMask) (by decide +kernel) hm)
    | exact Has.cell (by decide) (Has.sub (a := State.setRmapMask) (by decide +kernel) hm)
    | exact Has.cellNext (by decide) (Has.sub (a := State.setRmapMask) (by decide +kernel) hm)
    | exact Has.ite (Has.sub (a := State.setRmapMask) (by decide +kernel) hm) (Has.sub (a := State.setRmapMask) (by decide +kernel) hm)
    | exact .inr (fun _ => rfl)
    | (intro _; rfl)
    | (intro _; simp; done)
    | (simp; assumption)
    | (refine .inr (fun _ => ?_); simp; done)
    | (refine .inr (fun _ => ?_); (repeat' split) <;> first | rfl | (simp; done))
    | (simp; done)

def State.noticeSendMask : Nat :=
  State.vldShortMask ||| State.protectFrameMask ||| State.protectFailMask ||| State.modMacMask |||
    State.originateMask ||| State.lineTxMask

theorem State.noticeSend_touch {msk : Nat} {s0 : State} {s : State} (hk : Touch msk s0 s) (hm : Sub State.noticeSendMask msk) :
    Touch msk s0 (State.noticeSend s) := by
  unfold State.noticeSend
  try dsimp only
  repeat' (with_reducible first
    | assumption
    | exact Touch.refl
    | intro _
    | apply State.vldShort_touch
    | apply State.protectFrame_touch
    | apply State.protectFail_touch
    | apply State.modMac_touch
    | apply State.originate_touch
    | apply State.lineTx_touch
    | (refine Touch.ofEq (by assumption) ?_)
    | apply Touch.ite
    | split)
  all_goals with_reducible first
    | exact .inr rfl
    | exact Sub.trans (b := State.noticeSendMask) (by decide +kernel) hm
    | exact Has.sub (a := State.noticeSendMask) (by decide +kernel) hm
    | exact .inl (Has.sub (a := State.noticeSendMask) (by decide +kernel) hm)
    | exact Has.at (by decide) (Has.sub (a := State.noticeSendMask) (by decide +kernel) hm)
    | exact Has.cell (by decide) (Has.sub (a := State.noticeSendMask) (by decide +kernel) hm)
    | exact Has.cellNext (by decide) (Has.sub (a := State.noticeSendMask) (by decide +kernel) hm)
    | exact Has.ite (Has.sub (a := State.noticeSendMask) (by decide +kernel) hm) (Has.sub (a := State.noticeSendMask) (by decide +kernel) hm)
    | exact .inr (fun _ => rfl)
    | (intro _; rfl)
    | (intro _; simp; done)
    | (simp; assumption)
    | (refine .inr (fun _ => ?_); simp; done)
    | (refine .inr (fun _ => ?_); (repeat' split) <;> first | rfl | (simp; done))
    | (simp; done)

def State.relayTierMask : Nat :=
  State.postMask ||| State.macStickMask ||| rbit R.MAC_ROLE

theorem State.relayTier_touch {msk : Nat} {s0 : State} {s : State} (hk : Touch msk s0 s) (hm : Sub State.relayTierMask msk) :
    Touch msk s0 (State.relayTier s) := by
  unfold State.relayTier
  try dsimp only
  repeat' (with_reducible first
    | assumption
    | exact Touch.refl
    | intro _
    | apply State.post_touch
    | apply State.macStick_touch
    | apply State.setFld_touch
    | apply Touch.ite
    | split)
  all_goals with_reducible first
    | exact .inr rfl
    | exact Sub.trans (b := State.relayTierMask) (by decide +kernel) hm
    | exact Has.sub (a := State.relayTierMask) (by decide +kernel) hm
    | exact .inl (Has.sub (a := State.relayTierMask) (by decide +kernel) hm)
    | exact Has.at (by decide) (Has.sub (a := State.relayTierMask) (by decide +kernel) hm)
    | exact Has.cell (by decide) (Has.sub (a := State.relayTierMask) (by decide +kernel) hm)
    | exact Has.cellNext (by decide) (Has.sub (a := State.relayTierMask) (by decide +kernel) hm)
    | exact Has.ite (Has.sub (a := State.relayTierMask) (by decide +kernel) hm) (Has.sub (a := State.relayTierMask) (by decide +kernel) hm)
    | exact .inr (fun _ => rfl)
    | (intro _; rfl)
    | (intro _; simp; done)
    | (simp; assumption)
    | (refine .inr (fun _ => ?_); simp; done)
    | (refine .inr (fun _ => ?_); (repeat' split) <;> first | rfl | (simp; done))
    | (simp; done)

def State.joinRequestMask : Nat :=
  State.modMacMask ||| State.originateMask ||| State.toQ2Mask ||| rbit R.CMD_RSEQ

theorem State.joinRequest_touch {msk : Nat} {s0 : State} {s : State} (hk : Touch msk s0 s) (hm : Sub State.joinRequestMask msk) :
    Touch msk s0 (State.joinRequest s) := by
  unfold State.joinRequest
  try dsimp only
  repeat' (with_reducible first
    | assumption
    | exact Touch.refl
    | intro _
    | apply State.modMac_touch
    | apply State.originate_touch
    | apply State.toQ2_touch
    | apply State.setFld_touch)
  all_goals with_reducible first
    | exact .inr rfl
    | exact Sub.trans (b := State.joinRequestMask) (by decide +kernel) hm
    | exact Has.sub (a := State.joinRequestMask) (by decide +kernel) hm
    | exact .inl (Has.sub (a := State.joinRequestMask) (by decide +kernel) hm)
    | exact Has.at (by decide) (Has.sub (a := State.joinRequestMask) (by decide +kernel) hm)
    | exact Has.cell (by decide) (Has.sub (a := State.joinRequestMask) (by decide +kernel) hm)
    | exact Has.cellNext (by decide) (Has.sub (a := State.joinRequestMask) (by decide +kernel) hm)
    | exact Has.ite (Has.sub (a := State.joinRequestMask) (by decide +kernel) hm) (Has.sub (a := State.joinRequestMask) (by decide +kernel) hm)
    | exact .inr (fun _ => rfl)
    | (intro _; rfl)
    | (intro _; simp; done)
    | (simp; assumption)
    | (refine .inr (fun _ => ?_); simp; done)
    | (refine .inr (fun _ => ?_); (repeat' split) <;> first | rfl | (simp; done))
    | (simp; done)

def State.joinFromMask : Nat :=
  State.modMacMask ||| State.joinStateMask ||| State.relayTierMask ||| State.joinRequestMask ||| rbit R.MAC_PARENT

theorem State.joinFrom_touch {msk : Nat} {s0 : State} {s : State} {f : LineFrame} (hk : Touch msk s0 s) (hm : Sub State.joinFromMask msk) :
    Touch msk s0 (State.joinFrom s f) := by
  unfold State.joinFrom
  try dsimp only
  repeat' (with_reducible first
    | assumption
    | exact Touch.refl
    | intro _
    | apply State.modMac_touch
    | apply State.joinState_touch
    | apply State.relayTier_touch
    | apply State.joinRequest_touch
    | apply State.setFld_touch
    | (refine Touch.ofEq (by assumption) ?_)
    | apply Touch.ite
    | apply Touch.foldl
    | apply Touch.foldlFst
    | split)
  all_goals with_reducible first
    | exact .inr rfl
    | exact Sub.trans (b := State.joinFromMask) (by decide +kernel) hm
    | exact Has.sub (a := State.joinFromMask) (by decide +kernel) hm
    | exact .inl (Has.sub (a := State.joinFromMask) (by decide +kernel) hm)
    | exact Has.at (by decide) (Has.sub (a := State.joinFromMask) (by decide +kernel) hm)
    | exact Has.cell (by decide) (Has.sub (a := State.joinFromMask) (by decide +kernel) hm)
    | exact Has.cellNext (by decide) (Has.sub (a := State.joinFromMask) (by decide +kernel) hm)
    | exact Has.ite (Has.sub (a := State.joinFromMask) (by decide +kernel) hm) (Has.sub (a := State.joinFromMask) (by decide +kernel) hm)
    | exact .inr (fun _ => rfl)
    | (intro _; rfl)
    | (intro _; simp; done)
    | (simp; assumption)
    | (refine .inr (fun _ => ?_); simp; done)
    | (refine .inr (fun _ => ?_); (repeat' split) <;> first | rfl | (simp; done))
    | (simp; done)

def State.noticeThetaMask : Nat :=
  State.modMacMask ||| State.beaconThetaMask

theorem State.noticeTheta_touch {msk : Nat} {s0 : State} {s : State} {n : Notice} (hk : Touch msk s0 s) (hm : Sub State.noticeThetaMask msk) :
    Touch msk s0 (State.noticeTheta s n) := by
  unfold State.noticeTheta
  try dsimp only
  repeat' (with_reducible first
    | assumption
    | exact Touch.refl
    | intro _
    | apply State.modMac_touch
    | apply State.beaconTheta_touch
    | (refine Touch.ofEq (by assumption) ?_)
    | apply Touch.ite
    | split)
  all_goals with_reducible first
    | exact .inr rfl
    | exact Sub.trans (b := State.noticeThetaMask) (by decide +kernel) hm
    | exact Has.sub (a := State.noticeThetaMask) (by decide +kernel) hm
    | exact .inl (Has.sub (a := State.noticeThetaMask) (by decide +kernel) hm)
    | exact Has.at (by decide) (Has.sub (a := State.noticeThetaMask) (by decide +kernel) hm)
    | exact Has.cell (by decide) (Has.sub (a := State.noticeThetaMask) (by decide +kernel) hm)
    | exact Has.cellNext (by decide) (Has.sub (a := State.noticeThetaMask) (by decide +kernel) hm)
    | exact Has.ite (Has.sub (a := State.noticeThetaMask) (by decide +kernel) hm) (Has.sub (a := State.noticeThetaMask) (by decide +kernel) hm)
    | exact .inr (fun _ => rfl)
    | (intro _; rfl)
    | (intro _; simp; done)
    | (simp; assumption)
    | (refine .inr (fun _ => ?_); simp; done)
    | (refine .inr (fun _ => ?_); (repeat' split) <;> first | rfl | (simp; done))
    | (simp; done)

def State.noticeRxMask : Nat :=
  State.modMacMask ||| State.listenYieldMask ||| State.joinFromMask ||| State.noticeThetaMask ||| rbit R.MAC_HEAD

theorem State.noticeRx_touch {msk : Nat} {s0 : State} {s : State} {f : LineFrame} {pay : List Byte} (hk : Touch msk s0 s) (hm : Sub State.noticeRxMask msk) :
    Touch msk s0 (State.noticeRx s f pay) := by
  unfold State.noticeRx
  try dsimp only
  repeat' (with_reducible first
    | assumption
    | exact Touch.refl
    | intro _
    | apply State.modMac_touch
    | apply State.listenYield_touch
    | apply State.joinFrom_touch
    | apply State.noticeTheta_touch
    | apply State.setFld_touch
    | (refine Touch.ofEq (by assumption) ?_)
    | apply Touch.ite
    | split)
  all_goals with_reducible first
    | exact .inr rfl
    | exact Sub.trans (b := State.noticeRxMask) (by decide +kernel) hm
    | exact Has.sub (a := State.noticeRxMask) (by decide +kernel) hm
    | exact .inl (Has.sub (a := State.noticeRxMask) (by decide +kernel) hm)
    | exact Has.at (by decide) (Has.sub (a := State.noticeRxMask) (by decide +kernel) hm)
    | exact Has.cell (by decide) (Has.sub (a := State.noticeRxMask) (by decide +kernel) hm)
    | exact Has.cellNext (by decide) (Has.sub (a := State.noticeRxMask) (by decide +kernel) hm)
    | exact Has.ite (Has.sub (a := State.noticeRxMask) (by decide +kernel) hm) (Has.sub (a := State.noticeRxMask) (by decide +kernel) hm)
    | exact .inr (fun _ => rfl)
    | (intro _; rfl)
    | (intro _; simp; done)
    | (simp; assumption)
    | (refine .inr (fun _ => ?_); simp; done)
    | (refine .inr (fun _ => ?_); (repeat' split) <;> first | rfl | (simp; done))
    | (simp; done)

def State.noticeEffectMask : Nat :=
  State.offsetTakeMask ||| State.modMacMask ||| State.setRmapMask ||| rbit R.MAC_BENCH_LO ||| rbit R.MAC_BENCH_HI
    ||| rbit R.MAC_DEPA

theorem State.noticeEffect_touch {msk : Nat} {s0 : State} {s : State} (hk : Touch msk s0 s) (hm : Sub State.noticeEffectMask msk) :
    Touch msk s0 (State.noticeEffect s) := by
  unfold State.noticeEffect
  try dsimp only
  repeat' (with_reducible first
    | assumption
    | exact Touch.refl
    | intro _
    | apply State.offsetTake_touch
    | apply State.modMac_touch
    | apply State.setRmap_touch
    | apply State.setFld_touch
    | apply State.setPair_touch
    | (refine Touch.ofEq (by assumption) ?_)
    | apply Touch.ite
    | split)
  all_goals with_reducible first
    | exact .inr rfl
    | exact Sub.trans (b := State.noticeEffectMask) (by decide +kernel) hm
    | exact Has.sub (a := State.noticeEffectMask) (by decide +kernel) hm
    | exact .inl (Has.sub (a := State.noticeEffectMask) (by decide +kernel) hm)
    | exact Has.at (by decide) (Has.sub (a := State.noticeEffectMask) (by decide +kernel) hm)
    | exact Has.cell (by decide) (Has.sub (a := State.noticeEffectMask) (by decide +kernel) hm)
    | exact Has.cellNext (by decide) (Has.sub (a := State.noticeEffectMask) (by decide +kernel) hm)
    | exact Has.ite (Has.sub (a := State.noticeEffectMask) (by decide +kernel) hm) (Has.sub (a := State.noticeEffectMask) (by decide +kernel) hm)
    | exact .inr (fun _ => rfl)
    | (intro _; rfl)
    | (intro _; simp; done)
    | (simp; assumption)
    | (refine .inr (fun _ => ?_); simp; done)
    | (refine .inr (fun _ => ?_); (repeat' split) <;> first | rfl | (simp; done))
    | (simp; done)

def State.applyRoleMask : Nat :=
  State.modMacMask ||| State.relayTierMask ||| rbit R.MAC_ROLE

theorem State.applyRole_touch {msk : Nat} {s0 : State} {s : State} {r : Nat} (hk : Touch msk s0 s) (hm : Sub State.applyRoleMask msk) :
    Touch msk s0 (State.applyRole s r) := by
  unfold State.applyRole
  try dsimp only
  repeat' (with_reducible first
    | assumption
    | exact Touch.refl
    | intro _
    | apply State.modMac_touch
    | apply State.relayTier_touch
    | apply State.setFld_touch
    | apply Touch.ite
    | split)
  all_goals with_reducible first
    | exact .inr rfl
    | exact Sub.trans (b := State.applyRoleMask) (by decide +kernel) hm
    | exact Has.sub (a := State.applyRoleMask) (by decide +kernel) hm
    | exact .inl (Has.sub (a := State.applyRoleMask) (by decide +kernel) hm)
    | exact Has.at (by decide) (Has.sub (a := State.applyRoleMask) (by decide +kernel) hm)
    | exact Has.cell (by decide) (Has.sub (a := State.applyRoleMask) (by decide +kernel) hm)
    | exact Has.cellNext (by decide) (Has.sub (a := State.applyRoleMask) (by decide +kernel) hm)
    | exact Has.ite (Has.sub (a := State.applyRoleMask) (by decide +kernel) hm) (Has.sub (a := State.applyRoleMask) (by decide +kernel) hm)
    | exact .inr (fun _ => rfl)
    | (intro _; rfl)
    | (intro _; simp; done)
    | (simp; assumption)
    | (refine .inr (fun _ => ?_); simp; done)
    | (refine .inr (fun _ => ?_); (repeat' split) <;> first | rfl | (simp; done))
    | (simp; done)

def State.roleWriteMask : Nat :=
  State.modMacMask ||| State.applyRoleMask ||| rbit R.MAC_ROLE

theorem State.roleWrite_touch {msk : Nat} {s0 : State} {s : State} {unlocked : Bool} {v : Nat} (hk : Touch msk s0 s) (hm : Sub State.roleWriteMask msk) :
    Touch msk s0 (State.roleWrite s unlocked v) := by
  unfold State.roleWrite
  try dsimp only
  repeat' (with_reducible first
    | assumption
    | exact Touch.refl
    | intro _
    | apply State.modMac_touch
    | apply State.applyRole_touch
    | apply State.setFld_touch
    | apply Touch.ite
    | split)
  all_goals with_reducible first
    | exact .inr rfl
    | exact Sub.trans (b := State.roleWriteMask) (by decide +kernel) hm
    | exact Has.sub (a := State.roleWriteMask) (by decide +kernel) hm
    | exact .inl (Has.sub (a := State.roleWriteMask) (by decide +kernel) hm)
    | exact Has.at (by decide) (Has.sub (a := State.roleWriteMask) (by decide +kernel) hm)
    | exact Has.cell (by decide) (Has.sub (a := State.roleWriteMask) (by decide +kernel) hm)
    | exact Has.cellNext (by decide) (Has.sub (a := State.roleWriteMask) (by decide +kernel) hm)
    | exact Has.ite (Has.sub (a := State.roleWriteMask) (by decide +kernel) hm) (Has.sub (a := State.roleWriteMask) (by decide +kernel) hm)
    | exact .inr (fun _ => rfl)
    | (intro _; rfl)
    | (intro _; simp; done)
    | (simp; assumption)
    | (refine .inr (fun _ => ?_); simp; done)
    | (refine .inr (fun _ => ?_); (repeat' split) <;> first | rfl | (simp; done))
    | (simp; done)

def State.roleTakeMask : Nat :=
  State.modMacMask ||| State.applyRoleMask

theorem State.roleTake_touch {msk : Nat} {s0 : State} {s : State} (hk : Touch msk s0 s) (hm : Sub State.roleTakeMask msk) :
    Touch msk s0 (State.roleTake s) := by
  unfold State.roleTake
  try dsimp only
  repeat' (with_reducible first
    | assumption
    | exact Touch.refl
    | intro _
    | apply State.modMac_touch
    | apply State.applyRole_touch
    | (refine Touch.ofEq (by assumption) ?_)
    | split)
  all_goals with_reducible first
    | exact .inr rfl
    | exact Sub.trans (b := State.roleTakeMask) (by decide +kernel) hm
    | exact Has.sub (a := State.roleTakeMask) (by decide +kernel) hm
    | exact .inl (Has.sub (a := State.roleTakeMask) (by decide +kernel) hm)
    | exact Has.at (by decide) (Has.sub (a := State.roleTakeMask) (by decide +kernel) hm)
    | exact Has.cell (by decide) (Has.sub (a := State.roleTakeMask) (by decide +kernel) hm)
    | exact Has.cellNext (by decide) (Has.sub (a := State.roleTakeMask) (by decide +kernel) hm)
    | exact Has.ite (Has.sub (a := State.roleTakeMask) (by decide +kernel) hm) (Has.sub (a := State.roleTakeMask) (by decide +kernel) hm)
    | exact .inr (fun _ => rfl)
    | (intro _; rfl)
    | (intro _; simp; done)
    | (simp; assumption)
    | (refine .inr (fun _ => ?_); simp; done)
    | (refine .inr (fun _ => ?_); (repeat' split) <;> first | rfl | (simp; done))
    | (simp; done)

def State.becomeHeadMask : Nat :=
  State.timHeadNowMask ||| State.modMacMask ||| State.headAddrMask ||| rbit R.MAC_ROLE

theorem State.becomeHead_touch {msk : Nat} {s0 : State} {s : State} (hk : Touch msk s0 s) (hm : Sub State.becomeHeadMask msk) :
    Touch msk s0 (State.becomeHead s) := by
  unfold State.becomeHead
  try dsimp only
  repeat' (with_reducible first
    | assumption
    | exact Touch.refl
    | intro _
    | apply State.timHeadNow_touch
    | apply State.modMac_touch
    | apply State.headAddr_touch
    | apply State.setFld_touch)
  all_goals with_reducible first
    | exact .inr rfl
    | exact Sub.trans (b := State.becomeHeadMask) (by decide +kernel) hm
    | exact Has.sub (a := State.becomeHeadMask) (by decide +kernel) hm
    | exact .inl (Has.sub (a := State.becomeHeadMask) (by decide +kernel) hm)
    | exact Has.at (by decide) (Has.sub (a := State.becomeHeadMask) (by decide +kernel) hm)
    | exact Has.cell (by decide) (Has.sub (a := State.becomeHeadMask) (by decide +kernel) hm)
    | exact Has.cellNext (by decide) (Has.sub (a := State.becomeHeadMask) (by decide +kernel) hm)
    | exact Has.ite (Has.sub (a := State.becomeHeadMask) (by decide +kernel) hm) (Has.sub (a := State.becomeHeadMask) (by decide +kernel) hm)
    | exact .inr (fun _ => rfl)
    | (intro _; rfl)
    | (intro _; simp; done)
    | (simp; assumption)
    | (refine .inr (fun _ => ?_); simp; done)
    | (refine .inr (fun _ => ?_); (repeat' split) <;> first | rfl | (simp; done))
    | (simp; done)

def State.listenEndMask : Nat :=
  State.modMacMask ||| State.becomeHeadMask

theorem State.listenEnd_touch {msk : Nat} {s0 : State} {s : State} (hk : Touch msk s0 s) (hm : Sub State.listenEndMask msk) :
    Touch msk s0 (State.listenEnd s) := by
  unfold State.listenEnd
  try dsimp only
  repeat' (with_reducible first
    | assumption
    | exact Touch.refl
    | intro _
    | apply State.modMac_touch
    | apply State.becomeHead_touch
    | (refine Touch.ofEq (by assumption) ?_)
    | apply Touch.ite
    | split)
  all_goals with_reducible first
    | exact .inr rfl
    | exact Sub.trans (b := State.listenEndMask) (by decide +kernel) hm
    | exact Has.sub (a := State.listenEndMask) (by decide +kernel) hm
    | exact .inl (Has.sub (a := State.listenEndMask) (by decide +kernel) hm)
    | exact Has.at (by decide) (Has.sub (a := State.listenEndMask) (by decide +kernel) hm)
    | exact Has.cell (by decide) (Has.sub (a := State.listenEndMask) (by decide +kernel) hm)
    | exact Has.cellNext (by decide) (Has.sub (a := State.listenEndMask) (by decide +kernel) hm)
    | exact Has.ite (Has.sub (a := State.listenEndMask) (by decide +kernel) hm) (Has.sub (a := State.listenEndMask) (by decide +kernel) hm)
    | exact .inr (fun _ => rfl)
    | (intro _; rfl)
    | (intro _; simp; done)
    | (simp; assumption)
    | (refine .inr (fun _ => ?_); simp; done)
    | (refine .inr (fun _ => ?_); (repeat' split) <;> first | rfl | (simp; done))
    | (simp; done)

def State.beaconMissMask : Nat :=
  State.postMask ||| State.modMacMask ||| State.macStickMask

theorem State.beaconMiss_touch {msk : Nat} {s0 : State} {s : State} (hk : Touch msk s0 s) (hm : Sub State.beaconMissMask msk) :
    Touch msk s0 (State.beaconMiss s) := by
  unfold State.beaconMiss
  try dsimp only
  repeat' (with_reducible first
    | assumption
    | exact Touch.refl
    | intro _
    | apply State.post_touch
    | apply State.modMac_touch
    | apply State.macStick_touch
    | apply Touch.ite
    | split)
  all_goals with_reducible first
    | exact .inr rfl
    | exact Sub.trans (b := State.beaconMissMask) (by decide +kernel) hm
    | exact Has.sub (a := State.beaconMissMask) (by decide +kernel) hm
    | exact .inl (Has.sub (a := State.beaconMissMask) (by decide +kernel) hm)
    | exact Has.at (by decide) (Has.sub (a := State.beaconMissMask) (by decide +kernel) hm)
    | exact Has.cell (by decide) (Has.sub (a := State.beaconMissMask) (by decide +kernel) hm)
    | exact Has.cellNext (by decide) (Has.sub (a := State.beaconMissMask) (by decide +kernel) hm)
    | exact Has.ite (Has.sub (a := State.beaconMissMask) (by decide +kernel) hm) (Has.sub (a := State.beaconMissMask) (by decide +kernel) hm)
    | exact .inr (fun _ => rfl)
    | (intro _; rfl)
    | (intro _; simp; done)
    | (simp; assumption)
    | (refine .inr (fun _ => ?_); simp; done)
    | (refine .inr (fun _ => ?_); (repeat' split) <;> first | rfl | (simp; done))
    | (simp; done)

def State.takeoverSendMask : Nat :=
  State.modMacMask ||| State.sendShortMask

theorem State.takeoverSend_touch {msk : Nat} {s0 : State} {s : State} (hk : Touch msk s0 s) (hm : Sub State.takeoverSendMask msk) :
    Touch msk s0 (State.takeoverSend s) := by
  unfold State.takeoverSend
  try dsimp only
  repeat' (with_reducible first
    | assumption
    | exact Touch.refl
    | intro _
    | apply State.modMac_touch
    | apply State.sendShort_touch
    | apply Touch.ite
    | split)
  all_goals with_reducible first
    | exact .inr rfl
    | exact Sub.trans (b := State.takeoverSendMask) (by decide +kernel) hm
    | exact Has.sub (a := State.takeoverSendMask) (by decide +kernel) hm
    | exact .inl (Has.sub (a := State.takeoverSendMask) (by decide +kernel) hm)
    | exact Has.at (by decide) (Has.sub (a := State.takeoverSendMask) (by decide +kernel) hm)
    | exact Has.cell (by decide) (Has.sub (a := State.takeoverSendMask) (by decide +kernel) hm)
    | exact Has.cellNext (by decide) (Has.sub (a := State.takeoverSendMask) (by decide +kernel) hm)
    | exact Has.ite (Has.sub (a := State.takeoverSendMask) (by decide +kernel) hm) (Has.sub (a := State.takeoverSendMask) (by decide +kernel) hm)
    | exact .inr (fun _ => rfl)
    | (intro _; rfl)
    | (intro _; simp; done)
    | (simp; assumption)
    | (refine .inr (fun _ => ?_); simp; done)
    | (refine .inr (fun _ => ?_); (repeat' split) <;> first | rfl | (simp; done))
    | (simp; done)

def State.takeoverMask : Nat :=
  State.postMask ||| State.hatIncMask ||| State.lossExitMask ||| State.modMacMask ||| State.macStickMask |||
    State.beaconCountsMask ||| State.becomeHeadMask

theorem State.takeover_touch {msk : Nat} {s0 : State} {s : State} (hk : Touch msk s0 s) (hm : Sub State.takeoverMask msk) :
    Touch msk s0 (State.takeover s) := by
  unfold State.takeover
  try dsimp only
  repeat' (with_reducible first
    | assumption
    | exact Touch.refl
    | intro _
    | apply State.post_touch
    | apply State.hatInc_touch
    | apply State.lossExit_touch
    | apply State.modMac_touch
    | apply State.macStick_touch
    | apply State.beaconCounts_touch
    | apply State.becomeHead_touch
    | apply Touch.ite
    | split)
  all_goals with_reducible first
    | exact .inr rfl
    | exact Sub.trans (b := State.takeoverMask) (by decide +kernel) hm
    | exact Has.sub (a := State.takeoverMask) (by decide +kernel) hm
    | exact .inl (Has.sub (a := State.takeoverMask) (by decide +kernel) hm)
    | exact Has.at (by decide) (Has.sub (a := State.takeoverMask) (by decide +kernel) hm)
    | exact Has.cell (by decide) (Has.sub (a := State.takeoverMask) (by decide +kernel) hm)
    | exact Has.cellNext (by decide) (Has.sub (a := State.takeoverMask) (by decide +kernel) hm)
    | exact Has.ite (Has.sub (a := State.takeoverMask) (by decide +kernel) hm) (Has.sub (a := State.takeoverMask) (by decide +kernel) hm)
    | exact .inr (fun _ => rfl)
    | (intro _; rfl)
    | (intro _; simp; done)
    | (simp; assumption)
    | (refine .inr (fun _ => ?_); simp; done)
    | (refine .inr (fun _ => ?_); (repeat' split) <;> first | rfl | (simp; done))
    | (simp; done)

def State.relayMask : Nat :=
  State.modMacMask ||| State.ringInMask

theorem State.relay_touch {msk : Nat} {s0 : State} {s : State} {f : LineFrame} {raw : List Byte} {dst : Nat} (hk : Touch msk s0 s) (hm : Sub State.relayMask msk) :
    Touch msk s0 (State.relay s f raw dst) := by
  unfold State.relay
  try dsimp only
  repeat' (with_reducible first
    | assumption
    | exact Touch.refl
    | intro _
    | apply State.modMac_touch
    | apply State.ringIn_touch
    | apply Touch.ite
    | split)
  all_goals with_reducible first
    | exact .inr rfl
    | exact Sub.trans (b := State.relayMask) (by decide +kernel) hm
    | exact Has.sub (a := State.relayMask) (by decide +kernel) hm
    | exact .inl (Has.sub (a := State.relayMask) (by decide +kernel) hm)
    | exact Has.at (by decide) (Has.sub (a := State.relayMask) (by decide +kernel) hm)
    | exact Has.cell (by decide) (Has.sub (a := State.relayMask) (by decide +kernel) hm)
    | exact Has.cellNext (by decide) (Has.sub (a := State.relayMask) (by decide +kernel) hm)
    | exact Has.ite (Has.sub (a := State.relayMask) (by decide +kernel) hm) (Has.sub (a := State.relayMask) (by decide +kernel) hm)
    | exact .inr (fun _ => rfl)
    | (intro _; rfl)
    | (intro _; simp; done)
    | (simp; assumption)
    | (refine .inr (fun _ => ?_); simp; done)
    | (refine .inr (fun _ => ?_); (repeat' split) <;> first | rfl | (simp; done))
    | (simp; done)

def State.learnJoinMask : Nat :=
  State.dirSetMask

theorem State.learnJoin_touch {msk : Nat} {s0 : State} {s : State} {f : LineFrame} {pay : List Byte} {viaNet : Bool} (hk : Touch msk s0 s) (hm : Sub State.learnJoinMask msk) :
    Touch msk s0 (State.learnJoin s f pay viaNet) := by
  unfold State.learnJoin
  try dsimp only
  repeat' (with_reducible first
    | assumption
    | exact Touch.refl
    | intro _
    | apply State.dirSet_touch
    | apply Touch.ite
    | split)
  all_goals with_reducible first
    | exact .inr rfl
    | exact Sub.trans (b := State.learnJoinMask) (by decide +kernel) hm
    | exact Has.sub (a := State.learnJoinMask) (by decide +kernel) hm
    | exact .inl (Has.sub (a := State.learnJoinMask) (by decide +kernel) hm)
    | exact Has.at (by decide) (Has.sub (a := State.learnJoinMask) (by decide +kernel) hm)
    | exact Has.cell (by decide) (Has.sub (a := State.learnJoinMask) (by decide +kernel) hm)
    | exact Has.cellNext (by decide) (Has.sub (a := State.learnJoinMask) (by decide +kernel) hm)
    | exact Has.ite (Has.sub (a := State.learnJoinMask) (by decide +kernel) hm) (Has.sub (a := State.learnJoinMask) (by decide +kernel) hm)
    | exact .inr (fun _ => rfl)
    | (intro _; rfl)
    | (intro _; simp; done)
    | (simp; assumption)
    | (refine .inr (fun _ => ?_); simp; done)
    | (refine .inr (fun _ => ?_); (repeat' split) <;> first | rfl | (simp; done))
    | (simp; done)

def State.frameRefuseMask : Nat :=
  State.stickMask ||| State.postMask ||| rbit R.CMD_STAT ||| rbit R.CMD_REFCNT

theorem State.frameRefuse_touch {msk : Nat} {s0 : State} {s : State} {opc : Nat} {code : Nat} (hk : Touch msk s0 s) (hm : Sub State.frameRefuseMask msk) :
    Touch msk s0 (State.frameRefuse s opc code) := by
  unfold State.frameRefuse
  try dsimp only
  repeat' (with_reducible first
    | assumption
    | exact Touch.refl
    | intro _
    | apply State.stick_touch
    | apply State.post_touch
    | apply State.incReg_touch)
  all_goals with_reducible first
    | exact .inr rfl
    | exact Sub.trans (b := State.frameRefuseMask) (by decide +kernel) hm
    | exact Has.sub (a := State.frameRefuseMask) (by decide +kernel) hm
    | exact .inl (Has.sub (a := State.frameRefuseMask) (by decide +kernel) hm)
    | exact Has.at (by decide) (Has.sub (a := State.frameRefuseMask) (by decide +kernel) hm)
    | exact Has.cell (by decide) (Has.sub (a := State.frameRefuseMask) (by decide +kernel) hm)
    | exact Has.cellNext (by decide) (Has.sub (a := State.frameRefuseMask) (by decide +kernel) hm)
    | exact Has.ite (Has.sub (a := State.frameRefuseMask) (by decide +kernel) hm) (Has.sub (a := State.frameRefuseMask) (by decide +kernel) hm)
    | exact .inr (fun _ => rfl)
    | (intro _; rfl)
    | (intro _; simp; done)
    | (simp; assumption)
    | (refine .inr (fun _ => ?_); simp; done)
    | (refine .inr (fun _ => ?_); (repeat' split) <;> first | rfl | (simp; done))
    | (simp; done)

def State.deliverMask : Nat :=
  State.ringInMask ||| State.noticeRxMask ||| State.frameRefuseMask ||| rbit R.MAC_DROPCNT

theorem State.deliver_touch {msk : Nat} {s0 : State} {s : State} {f : LineFrame} {pay : List Byte} {kid : Option Nat} (hk : Touch msk s0 s) (hm : Sub State.deliverMask msk) :
    Touch msk s0 (State.deliver s f pay kid) := by
  unfold State.deliver
  try dsimp only
  repeat' (with_reducible first
    | assumption
    | exact Touch.refl
    | intro _
    | apply State.ringIn_touch
    | apply State.noticeRx_touch
    | apply State.frameRefuse_touch
    | apply State.incReg_touch
    | (refine Touch.ofEq (by assumption) ?_)
    | apply Touch.ite
    | (simp only [Touch.mk_iff]; apply TouchMk.intro)
    | split)
  all_goals with_reducible first
    | exact .inr rfl
    | exact Sub.trans (b := State.deliverMask) (by decide +kernel) hm
    | exact Has.sub (a := State.deliverMask) (by decide +kernel) hm
    | exact .inl (Has.sub (a := State.deliverMask) (by decide +kernel) hm)
    | exact Has.at (by decide) (Has.sub (a := State.deliverMask) (by decide +kernel) hm)
    | exact Has.cell (by decide) (Has.sub (a := State.deliverMask) (by decide +kernel) hm)
    | exact Has.cellNext (by decide) (Has.sub (a := State.deliverMask) (by decide +kernel) hm)
    | exact Has.ite (Has.sub (a := State.deliverMask) (by decide +kernel) hm) (Has.sub (a := State.deliverMask) (by decide +kernel) hm)
    | exact .inr (fun _ => rfl)
    | (intro _; rfl)
    | (intro _; simp; done)
    | (simp; assumption)
    | (refine .inr (fun _ => ?_); simp; done)
    | (refine .inr (fun _ => ?_); (repeat' split) <;> first | rfl | (simp; done))
    | (simp; done)

def State.frameRxMask : Nat :=
  State.busyAckMask ||| State.verifyFrameMask ||| State.modMacMask ||| State.macStickMask ||| State.relayMask |||
    State.learnJoinMask ||| State.deliverMask ||| rbit R.MAC_RXCNT ||| rbit R.MAC_RXERR

theorem State.frameRx_touch {msk : Nat} {s0 : State} {s : State} {bytes : List Byte} (hk : Touch msk s0 s) (hm : Sub State.frameRxMask msk) :
    Touch msk s0 (State.frameRx s bytes) := by
  unfold State.frameRx
  try dsimp only
  repeat' (with_reducible first
    | assumption
    | exact Touch.refl
    | intro _
    | apply State.busyAck_touch
    | apply State.verifyFrame_touch
    | apply State.modMac_touch
    | apply State.macStick_touch
    | apply State.relay_touch
    | apply State.learnJoin_touch
    | apply State.deliver_touch
    | apply State.incReg_touch
    | (refine Touch.ofEq (by assumption) ?_)
    | apply Touch.ite
    | (simp only [Touch.mk_iff]; apply TouchMk.intro)
    | split)
  all_goals with_reducible first
    | exact .inr rfl
    | exact Sub.trans (b := State.frameRxMask) (by decide +kernel) hm
    | exact Has.sub (a := State.frameRxMask) (by decide +kernel) hm
    | exact .inl (Has.sub (a := State.frameRxMask) (by decide +kernel) hm)
    | exact Has.at (by decide) (Has.sub (a := State.frameRxMask) (by decide +kernel) hm)
    | exact Has.cell (by decide) (Has.sub (a := State.frameRxMask) (by decide +kernel) hm)
    | exact Has.cellNext (by decide) (Has.sub (a := State.frameRxMask) (by decide +kernel) hm)
    | exact Has.ite (Has.sub (a := State.frameRxMask) (by decide +kernel) hm) (Has.sub (a := State.frameRxMask) (by decide +kernel) hm)
    | exact .inr (fun _ => rfl)
    | (intro _; rfl)
    | (intro _; simp; done)
    | (simp; assumption)
    | (refine .inr (fun _ => ?_); simp; done)
    | (refine .inr (fun _ => ?_); (repeat' split) <;> first | rfl | (simp; done))
    | (simp; done)

def State.ackTxMask : Nat :=
  State.modMacMask ||| State.sendShortMask

theorem State.ackTx_touch {msk : Nat} {s0 : State} {s : State} (hk : Touch msk s0 s) (hm : Sub State.ackTxMask msk) :
    Touch msk s0 (State.ackTx s) := by
  unfold State.ackTx
  try dsimp only
  repeat' (with_reducible first
    | assumption
    | exact Touch.refl
    | intro _
    | apply State.modMac_touch
    | apply State.sendShort_touch
    | (refine Touch.ofEq (by assumption) ?_)
    | apply Touch.ite
    | split)
  all_goals with_reducible first
    | exact .inr rfl
    | exact Sub.trans (b := State.ackTxMask) (by decide +kernel) hm
    | exact Has.sub (a := State.ackTxMask) (by decide +kernel) hm
    | exact .inl (Has.sub (a := State.ackTxMask) (by decide +kernel) hm)
    | exact Has.at (by decide) (Has.sub (a := State.ackTxMask) (by decide +kernel) hm)
    | exact Has.cell (by decide) (Has.sub (a := State.ackTxMask) (by decide +kernel) hm)
    | exact Has.cellNext (by decide) (Has.sub (a := State.ackTxMask) (by decide +kernel) hm)
    | exact Has.ite (Has.sub (a := State.ackTxMask) (by decide +kernel) hm) (Has.sub (a := State.ackTxMask) (by decide +kernel) hm)
    | exact .inr (fun _ => rfl)
    | (intro _; rfl)
    | (intro _; simp; done)
    | (simp; assumption)
    | (refine .inr (fun _ => ?_); simp; done)
    | (refine .inr (fun _ => ?_); (repeat' split) <;> first | rfl | (simp; done))
    | (simp; done)

def State.ackRxMask : Nat :=
  State.rxNowMask ||| State.modMacMask ||| State.dropHeadMask ||| State.attemptFailedMask

theorem State.ackRx_touch {msk : Nat} {s0 : State} {s : State} {x : Nat} (hk : Touch msk s0 s) (hm : Sub State.ackRxMask msk) :
    Touch msk s0 (State.ackRx s x) := by
  unfold State.ackRx
  try dsimp only
  repeat' (with_reducible first
    | assumption
    | exact Touch.refl
    | intro _
    | apply State.rxNow_touch
    | apply State.modMac_touch
    | apply State.dropHead_touch
    | apply State.attemptFailed_touch
    | (refine Touch.ofEq (by assumption) ?_)
    | apply Touch.ite
    | split)
  all_goals with_reducible first
    | exact .inr rfl
    | exact Sub.trans (b := State.ackRxMask) (by decide +kernel) hm
    | exact Has.sub (a := State.ackRxMask) (by decide +kernel) hm
    | exact .inl (Has.sub (a := State.ackRxMask) (by decide +kernel) hm)
    | exact Has.at (by decide) (Has.sub (a := State.ackRxMask) (by decide +kernel) hm)
    | exact Has.cell (by decide) (Has.sub (a := State.ackRxMask) (by decide +kernel) hm)
    | exact Has.cellNext (by decide) (Has.sub (a := State.ackRxMask) (by decide +kernel) hm)
    | exact Has.ite (Has.sub (a := State.ackRxMask) (by decide +kernel) hm) (Has.sub (a := State.ackRxMask) (by decide +kernel) hm)
    | exact .inr (fun _ => rfl)
    | (intro _; rfl)
    | (intro _; simp; done)
    | (simp; assumption)
    | (refine .inr (fun _ => ?_); simp; done)
    | (refine .inr (fun _ => ?_); (repeat' split) <;> first | rfl | (simp; done))
    | (simp; done)

def State.ackNoneMask : Nat :=
  State.modMacMask ||| State.attemptFailedMask

theorem State.ackNone_touch {msk : Nat} {s0 : State} {s : State} (hk : Touch msk s0 s) (hm : Sub State.ackNoneMask msk) :
    Touch msk s0 (State.ackNone s) := by
  unfold State.ackNone
  try dsimp only
  repeat' (with_reducible first
    | assumption
    | exact Touch.refl
    | intro _
    | apply State.modMac_touch
    | apply State.attemptFailed_touch
    | (refine Touch.ofEq (by assumption) ?_)
    | split)
  all_goals with_reducible first
    | exact .inr rfl
    | exact Sub.trans (b := State.ackNoneMask) (by decide +kernel) hm
    | exact Has.sub (a := State.ackNoneMask) (by decide +kernel) hm
    | exact .inl (Has.sub (a := State.ackNoneMask) (by decide +kernel) hm)
    | exact Has.at (by decide) (Has.sub (a := State.ackNoneMask) (by decide +kernel) hm)
    | exact Has.cell (by decide) (Has.sub (a := State.ackNoneMask) (by decide +kernel) hm)
    | exact Has.cellNext (by decide) (Has.sub (a := State.ackNoneMask) (by decide +kernel) hm)
    | exact Has.ite (Has.sub (a := State.ackNoneMask) (by decide +kernel) hm) (Has.sub (a := State.ackNoneMask) (by decide +kernel) hm)
    | exact .inr (fun _ => rfl)
    | (intro _; rfl)
    | (intro _; simp; done)
    | (simp; assumption)
    | (refine .inr (fun _ => ?_); simp; done)
    | (refine .inr (fun _ => ?_); (repeat' split) <;> first | rfl | (simp; done))
    | (simp; done)

def State.ackOverMask : Nat :=
  State.ackNoneMask

theorem State.ackOver_touch {msk : Nat} {s0 : State} {s : State} (hk : Touch msk s0 s) (hm : Sub State.ackOverMask msk) :
    Touch msk s0 (State.ackOver s) := by
  unfold State.ackOver
  try dsimp only
  repeat' (with_reducible first
    | assumption
    | exact Touch.refl
    | intro _
    | apply State.ackNone_touch
    | (refine Touch.ofEq (by assumption) ?_)
    | apply Touch.ite
    | split)
  all_goals with_reducible first
    | exact .inr rfl
    | exact Sub.trans (b := State.ackOverMask) (by decide +kernel) hm
    | exact Has.sub (a := State.ackOverMask) (by decide +kernel) hm
    | exact .inl (Has.sub (a := State.ackOverMask) (by decide +kernel) hm)
    | exact Has.at (by decide) (Has.sub (a := State.ackOverMask) (by decide +kernel) hm)
    | exact Has.cell (by decide) (Has.sub (a := State.ackOverMask) (by decide +kernel) hm)
    | exact Has.cellNext (by decide) (Has.sub (a := State.ackOverMask) (by decide +kernel) hm)
    | exact Has.ite (Has.sub (a := State.ackOverMask) (by decide +kernel) hm) (Has.sub (a := State.ackOverMask) (by decide +kernel) hm)
    | exact .inr (fun _ => rfl)
    | (intro _; rfl)
    | (intro _; simp; done)
    | (simp; assumption)
    | (refine .inr (fun _ => ?_); simp; done)
    | (refine .inr (fun _ => ?_); (repeat' split) <;> first | rfl | (simp; done))
    | (simp; done)

def State.lineAbandonMask : Nat :=
  State.modPhyMask ||| State.txStopMask ||| State.modMacMask ||| State.ackNoneMask

theorem State.lineAbandon_touch {msk : Nat} {s0 : State} {s : State} (hk : Touch msk s0 s) (hm : Sub State.lineAbandonMask msk) :
    Touch msk s0 (State.lineAbandon s) := by
  unfold State.lineAbandon
  try dsimp only
  repeat' (with_reducible first
    | assumption
    | exact Touch.refl
    | intro _
    | apply State.modPhy_touch
    | apply State.txStop_touch
    | apply State.modMac_touch
    | apply State.ackNone_touch
    | apply Touch.ite
    | split)
  all_goals with_reducible first
    | exact .inr rfl
    | exact Sub.trans (b := State.lineAbandonMask) (by decide +kernel) hm
    | exact Has.sub (a := State.lineAbandonMask) (by decide +kernel) hm
    | exact .inl (Has.sub (a := State.lineAbandonMask) (by decide +kernel) hm)
    | exact Has.at (by decide) (Has.sub (a := State.lineAbandonMask) (by decide +kernel) hm)
    | exact Has.cell (by decide) (Has.sub (a := State.lineAbandonMask) (by decide +kernel) hm)
    | exact Has.cellNext (by decide) (Has.sub (a := State.lineAbandonMask) (by decide +kernel) hm)
    | exact Has.ite (Has.sub (a := State.lineAbandonMask) (by decide +kernel) hm) (Has.sub (a := State.lineAbandonMask) (by decide +kernel) hm)
    | exact .inr (fun _ => rfl)
    | (intro _; rfl)
    | (intro _; simp; done)
    | (simp; assumption)
    | (refine .inr (fun _ => ?_); simp; done)
    | (refine .inr (fun _ => ?_); (repeat' split) <;> first | rfl | (simp; done))
    | (simp; done)

def State.lineStopMask : Nat :=
  State.roleTakeMask ||| State.lineAbandonMask

theorem State.lineStop_touch {msk : Nat} {s0 : State} {s : State} (hk : Touch msk s0 s) (hm : Sub State.lineStopMask msk) :
    Touch msk s0 (State.lineStop s) := by
  unfold State.lineStop
  try dsimp only
  repeat' (with_reducible first
    | assumption
    | exact Touch.refl
    | intro _
    | apply State.roleTake_touch
    | apply State.lineAbandon_touch)
  all_goals with_reducible first
    | exact .inr rfl
    | exact Sub.trans (b := State.lineStopMask) (by decide +kernel) hm
    | exact Has.sub (a := State.lineStopMask) (by decide +kernel) hm
    | exact .inl (Has.sub (a := State.lineStopMask) (by decide +kernel) hm)
    | exact Has.at (by decide) (Has.sub (a := State.lineStopMask) (by decide +kernel) hm)
    | exact Has.cell (by decide) (Has.sub (a := State.lineStopMask) (by decide +kernel) hm)
    | exact Has.cellNext (by decide) (Has.sub (a := State.lineStopMask) (by decide +kernel) hm)
    | exact Has.ite (Has.sub (a := State.lineStopMask) (by decide +kernel) hm) (Has.sub (a := State.lineStopMask) (by decide +kernel) hm)
    | exact .inr (fun _ => rfl)
    | (intro _; rfl)
    | (intro _; simp; done)
    | (simp; assumption)
    | (refine .inr (fun _ => ?_); simp; done)
    | (refine .inr (fun _ => ?_); (repeat' split) <;> first | rfl | (simp; done))
    | (simp; done)

def State.bsinceUpMask : Nat :=
  rbit R.MAC_BSINCE

theorem State.bsinceUp_touch {msk : Nat} {s0 : State} {s : State} (hk : Touch msk s0 s) (hm : Sub State.bsinceUpMask msk) :
    Touch msk s0 (State.bsinceUp s) := by
  unfold State.bsinceUp
  try dsimp only
  repeat' (with_reducible first
    | assumption
    | exact Touch.refl
    | intro _
    | apply State.satInc_touch)
  all_goals with_reducible first
    | exact .inr rfl
    | exact Sub.trans (b := State.bsinceUpMask) (by decide +kernel) hm
    | exact Has.sub (a := State.bsinceUpMask) (by decide +kernel) hm
    | exact .inl (Has.sub (a := State.bsinceUpMask) (by decide +kernel) hm)
    | exact Has.at (by decide) (Has.sub (a := State.bsinceUpMask) (by decide +kernel) hm)
    | exact Has.cell (by decide) (Has.sub (a := State.bsinceUpMask) (by decide +kernel) hm)
    | exact Has.cellNext (by decide) (Has.sub (a := State.bsinceUpMask) (by decide +kernel) hm)
    | exact Has.ite (Has.sub (a := State.bsinceUpMask) (by decide +kernel) hm) (Has.sub (a := State.bsinceUpMask) (by decide +kernel) hm)
    | exact .inr (fun _ => rfl)
    | (intro _; rfl)
    | (intro _; simp; done)
    | (simp; assumption)
    | (refine .inr (fun _ => ?_); simp; done)
    | (refine .inr (fun _ => ?_); (repeat' split) <;> first | rfl | (simp; done))
    | (simp; done)

def State.macBenchMask : Nat :=
  State.thetaBenchMask ||| State.modMacMask ||| State.headBeaconMask ||| State.beaconLateMask |||
    State.noticeEffectMask ||| State.roleTakeMask ||| State.bsinceUpMask ||| rbit R.MAC_BENCH_LO ||| rbit
    R.MAC_BENCH_HI

theorem State.macBench_touch {msk : Nat} {s0 : State} {s : State} (hk : Touch msk s0 s) (hm : Sub State.macBenchMask msk) :
    Touch msk s0 (State.macBench s) := by
  unfold State.macBench
  try dsimp only
  repeat' (with_reducible first
    | assumption
    | exact Touch.refl
    | intro _
    | apply State.thetaBench_touch
    | apply State.modMac_touch
    | apply State.headBeacon_touch
    | apply State.beaconLate_touch
    | apply State.noticeEffect_touch
    | apply State.roleTake_touch
    | apply State.bsinceUp_touch
    | apply State.setPair_touch
    | apply Touch.ite
    | split)
  all_goals with_reducible first
    | exact .inr rfl
    | exact Sub.trans (b := State.macBenchMask) (by decide +kernel) hm
    | exact Has.sub (a := State.macBenchMask) (by decide +kernel) hm
    | exact .inl (Has.sub (a := State.macBenchMask) (by decide +kernel) hm)
    | exact Has.at (by decide) (Has.sub (a := State.macBenchMask) (by decide +kernel) hm)
    | exact Has.cell (by decide) (Has.sub (a := State.macBenchMask) (by decide +kernel) hm)
    | exact Has.cellNext (by decide) (Has.sub (a := State.macBenchMask) (by decide +kernel) hm)
    | exact Has.ite (Has.sub (a := State.macBenchMask) (by decide +kernel) hm) (Has.sub (a := State.macBenchMask) (by decide +kernel) hm)
    | exact .inr (fun _ => rfl)
    | (intro _; rfl)
    | (intro _; simp; done)
    | (simp; assumption)
    | (refine .inr (fun _ => ?_); simp; done)
    | (refine .inr (fun _ => ?_); (repeat' split) <;> first | rfl | (simp; done))
    | (simp; done)

def State.courseFormMask : Nat :=
  State.courseLenMask ||| State.planPickMask ||| State.noiseCourseMask ||| State.modMacMask ||| rbit R.MAC_GRID

theorem State.courseForm_touch {msk : Nat} {s0 : State} {s : State} {pre : Nat} (hk : Touch msk s0 s) (hm : Sub State.courseFormMask msk) :
    Touch msk s0 (State.courseForm s pre) := by
  unfold State.courseForm
  try dsimp only
  repeat' (with_reducible first
    | assumption
    | exact Touch.refl
    | intro _
    | apply State.courseLen_touch
    | apply State.planPick_touch
    | apply State.noiseCourse_touch
    | apply State.modMac_touch
    | apply State.setFld_touch
    | apply Touch.ite
    | split)
  all_goals with_reducible first
    | exact .inr rfl
    | exact Sub.trans (b := State.courseFormMask) (by decide +kernel) hm
    | exact Has.sub (a := State.courseFormMask) (by decide +kernel) hm
    | exact .inl (Has.sub (a := State.courseFormMask) (by decide +kernel) hm)
    | exact Has.at (by decide) (Has.sub (a := State.courseFormMask) (by decide +kernel) hm)
    | exact Has.cell (by decide) (Has.sub (a := State.courseFormMask) (by decide +kernel) hm)
    | exact Has.cellNext (by decide) (Has.sub (a := State.courseFormMask) (by decide +kernel) hm)
    | exact Has.ite (Has.sub (a := State.courseFormMask) (by decide +kernel) hm) (Has.sub (a := State.courseFormMask) (by decide +kernel) hm)
    | exact .inr (fun _ => rfl)
    | (intro _; rfl)
    | (intro _; simp; done)
    | (simp; assumption)
    | (refine .inr (fun _ => ?_); simp; done)
    | (refine .inr (fun _ => ?_); (repeat' split) <;> first | rfl | (simp; done))
    | (simp; done)

def State.courseBeginMask : Nat :=
  State.pulseMask ||| State.reserveAtMask ||| State.reserveNextMask ||| State.noticeSendMask |||
    State.courseFormMask

theorem State.courseBegin_touch {msk : Nat} {s0 : State} {s : State} {pre : Nat} (hk : Touch msk s0 s) (hm : Sub State.courseBeginMask msk) :
    Touch msk s0 (State.courseBegin s pre) := by
  unfold State.courseBegin
  try dsimp only
  repeat' (with_reducible first
    | assumption
    | exact Touch.refl
    | intro _
    | apply State.pulse_touch
    | apply State.reserveAt_touch
    | apply State.reserveNext_touch
    | apply State.noticeSend_touch
    | apply State.courseForm_touch
    | apply Touch.ite
    | split)
  all_goals with_reducible first
    | exact .inr rfl
    | exact Sub.trans (b := State.courseBeginMask) (by decide +kernel) hm
    | exact Has.sub (a := State.courseBeginMask) (by decide +kernel) hm
    | exact .inl (Has.sub (a := State.courseBeginMask) (by decide +kernel) hm)
    | exact Has.at (by decide) (Has.sub (a := State.courseBeginMask) (by decide +kernel) hm)
    | exact Has.cell (by decide) (Has.sub (a := State.courseBeginMask) (by decide +kernel) hm)
    | exact Has.cellNext (by decide) (Has.sub (a := State.courseBeginMask) (by decide +kernel) hm)
    | exact Has.ite (Has.sub (a := State.courseBeginMask) (by decide +kernel) hm) (Has.sub (a := State.courseBeginMask) (by decide +kernel) hm)
    | exact .inr (fun _ => rfl)
    | (intro _; rfl)
    | (intro _; simp; done)
    | (simp; assumption)
    | (refine .inr (fun _ => ?_); simp; done)
    | (refine .inr (fun _ => ?_); (repeat' split) <;> first | rfl | (simp; done))
    | (simp; done)

def State.lineEdgeMask : Nat :=
  State.maskTakeMask ||| State.reserveNextMask ||| State.takeoverSendMask ||| State.takeoverMask

theorem State.lineEdge_touch {msk : Nat} {s0 : State} {s : State} (hk : Touch msk s0 s) (hm : Sub State.lineEdgeMask msk) :
    Touch msk s0 (State.lineEdge s) := by
  unfold State.lineEdge
  try dsimp only
  repeat' (with_reducible first
    | assumption
    | exact Touch.refl
    | intro _
    | apply State.maskTake_touch
    | apply State.reserveNext_touch
    | apply State.takeoverSend_touch
    | apply State.takeover_touch
    | apply Touch.ite
    | split)
  all_goals with_reducible first
    | exact .inr rfl
    | exact Sub.trans (b := State.lineEdgeMask) (by decide +kernel) hm
    | exact Has.sub (a := State.lineEdgeMask) (by decide +kernel) hm
    | exact .inl (Has.sub (a := State.lineEdgeMask) (by decide +kernel) hm)
    | exact Has.at (by decide) (Has.sub (a := State.lineEdgeMask) (by decide +kernel) hm)
    | exact Has.cell (by decide) (Has.sub (a := State.lineEdgeMask) (by decide +kernel) hm)
    | exact Has.cellNext (by decide) (Has.sub (a := State.lineEdgeMask) (by decide +kernel) hm)
    | exact Has.ite (Has.sub (a := State.lineEdgeMask) (by decide +kernel) hm) (Has.sub (a := State.lineEdgeMask) (by decide +kernel) hm)
    | exact .inr (fun _ => rfl)
    | (intro _; rfl)
    | (intro _; simp; done)
    | (simp; assumption)
    | (refine .inr (fun _ => ?_); simp; done)
    | (refine .inr (fun _ => ?_); (repeat' split) <;> first | rfl | (simp; done))
    | (simp; done)

def State.rdataReadMask : Nat :=
  State.modPathMask ||| State.modMacMask

theorem State.rdataRead_touch {msk : Nat} {s0 : State} {s : State} {p : Path} (hk : Touch msk s0 s) (hm : Sub State.rdataReadMask msk) :
    Touch msk s0 (State.rdataRead s p) := by
  unfold State.rdataRead
  try dsimp only
  repeat' (with_reducible first
    | assumption
    | exact Touch.refl
    | intro _
    | apply State.modPath_touch
    | apply State.modMac_touch
    | (refine Touch.ofEq (by assumption) ?_)
    | apply Touch.ite
    | split)
  all_goals with_reducible first
    | exact .inr rfl
    | exact Sub.trans (b := State.rdataReadMask) (by decide +kernel) hm
    | exact Has.sub (a := State.rdataReadMask) (by decide +kernel) hm
    | exact .inl (Has.sub (a := State.rdataReadMask) (by decide +kernel) hm)
    | exact Has.at (by decide) (Has.sub (a := State.rdataReadMask) (by decide +kernel) hm)
    | exact Has.cell (by decide) (Has.sub (a := State.rdataReadMask) (by decide +kernel) hm)
    | exact Has.cellNext (by decide) (Has.sub (a := State.rdataReadMask) (by decide +kernel) hm)
    | exact Has.ite (Has.sub (a := State.rdataReadMask) (by decide +kernel) hm) (Has.sub (a := State.rdataReadMask) (by decide +kernel) hm)
    | exact .inr (fun _ => rfl)
    | (intro _; rfl)
    | (intro _; simp; done)
    | (simp; assumption)
    | (refine .inr (fun _ => ?_); simp; done)
    | (refine .inr (fun _ => ?_); (repeat' split) <;> first | rfl | (simp; done))
    | (simp; done)

def State.rdataWriteMask : Nat :=
  State.modMacMask

theorem State.rdataWrite_touch {msk : Nat} {s0 : State} {s : State} {p : Path} {v : Word} (hk : Touch msk s0 s) (hm : Sub State.rdataWriteMask msk) :
    Touch msk s0 (State.rdataWrite s p v) := by
  unfold State.rdataWrite
  try dsimp only
  repeat' (with_reducible first
    | assumption
    | exact Touch.refl
    | intro _
    | apply State.modMac_touch
    | apply Touch.ite
    | split)
  all_goals with_reducible first
    | exact .inr rfl
    | exact Sub.trans (b := State.rdataWriteMask) (by decide +kernel) hm
    | exact Has.sub (a := State.rdataWriteMask) (by decide +kernel) hm
    | exact .inl (Has.sub (a := State.rdataWriteMask) (by decide +kernel) hm)
    | exact Has.at (by decide) (Has.sub (a := State.rdataWriteMask) (by decide +kernel) hm)
    | exact Has.cell (by decide) (Has.sub (a := State.rdataWriteMask) (by decide +kernel) hm)
    | exact Has.cellNext (by decide) (Has.sub (a := State.rdataWriteMask) (by decide +kernel) hm)
    | exact Has.ite (Has.sub (a := State.rdataWriteMask) (by decide +kernel) hm) (Has.sub (a := State.rdataWriteMask) (by decide +kernel) hm)
    | exact .inr (fun _ => rfl)
    | (intro _; rfl)
    | (intro _; simp; done)
    | (simp; assumption)
    | (refine .inr (fun _ => ?_); simp; done)
    | (refine .inr (fun _ => ?_); (repeat' split) <;> first | rfl | (simp; done))
    | (simp; done)

def State.popRingMask : Nat :=
  State.modMacMask ||| Part.mac.bit ||| Part.q7.bit

theorem State.popRing_touch {msk : Nat} {s0 : State} {s : State} {p : Path} (hk : Touch msk s0 s) (hm : Sub State.popRingMask msk) :
    Touch msk s0 (State.popRing s p) := by
  unfold State.popRing
  try dsimp only
  repeat' (with_reducible first
    | assumption
    | exact Touch.refl
    | intro _
    | apply State.modMac_touch
    | apply Touch.ite
    | (simp only [Touch.mk_iff]; apply TouchMk.intro)
    | split)
  all_goals with_reducible first
    | exact .inr rfl
    | exact Sub.trans (b := State.popRingMask) (by decide +kernel) hm
    | exact Has.sub (a := State.popRingMask) (by decide +kernel) hm
    | exact .inl (Has.sub (a := State.popRingMask) (by decide +kernel) hm)
    | exact Has.at (by decide) (Has.sub (a := State.popRingMask) (by decide +kernel) hm)
    | exact Has.cell (by decide) (Has.sub (a := State.popRingMask) (by decide +kernel) hm)
    | exact Has.cellNext (by decide) (Has.sub (a := State.popRingMask) (by decide +kernel) hm)
    | exact Has.ite (Has.sub (a := State.popRingMask) (by decide +kernel) hm) (Has.sub (a := State.popRingMask) (by decide +kernel) hm)
    | exact .inr (fun _ => rfl)
    | (intro _; rfl)
    | (intro _; simp; done)
    | (simp; assumption)
    | (refine .inr (fun _ => ?_); simp; done)
    | (refine .inr (fun _ => ?_); (repeat' split) <;> first | rfl | (simp; done))
    | (simp; done)

def State.pushRingMask : Nat :=
  State.modMacMask ||| State.macStickMask ||| State.ringAddMask ||| State.ringInMask ||| State.originateMask

theorem State.pushRing_touch {msk : Nat} {s0 : State} {s : State} {p : Path} (hk : Touch msk s0 s) (hm : Sub State.pushRingMask msk) :
    Touch msk s0 (State.pushRing s p) := by
  unfold State.pushRing
  try dsimp only
  repeat' (with_reducible first
    | assumption
    | exact Touch.refl
    | intro _
    | apply State.modMac_touch
    | apply State.macStick_touch
    | apply State.ringAdd_touch
    | apply State.ringIn_touch
    | apply State.originate_touch
    | (refine Touch.ofEq (by assumption) ?_)
    | apply Touch.ite
    | split)
  all_goals with_reducible first
    | exact .inr rfl
    | exact Sub.trans (b := State.pushRingMask) (by decide +kernel) hm
    | exact Has.sub (a := State.pushRingMask) (by decide +kernel) hm
    | exact .inl (Has.sub (a := State.pushRingMask) (by decide +kernel) hm)
    | exact Has.at (by decide) (Has.sub (a := State.pushRingMask) (by decide +kernel) hm)
    | exact Has.cell (by decide) (Has.sub (a := State.pushRingMask) (by decide +kernel) hm)
    | exact Has.cellNext (by decide) (Has.sub (a := State.pushRingMask) (by decide +kernel) hm)
    | exact Has.ite (Has.sub (a := State.pushRingMask) (by decide +kernel) hm) (Has.sub (a := State.pushRingMask) (by decide +kernel) hm)
    | exact .inr (fun _ => rfl)
    | (intro _; rfl)
    | (intro _; simp; done)
    | (simp; assumption)
    | (refine .inr (fun _ => ?_); simp; done)
    | (refine .inr (fun _ => ?_); (repeat' split) <;> first | rfl | (simp; done))
    | (simp; done)

def State.abortRingMask : Nat :=
  State.modMacMask

theorem State.abortRing_touch {msk : Nat} {s0 : State} {s : State} {p : Path} (hk : Touch msk s0 s) (hm : Sub State.abortRingMask msk) :
    Touch msk s0 (State.abortRing s p) := by
  unfold State.abortRing
  try dsimp only
  repeat' (with_reducible first
    | assumption
    | exact Touch.refl
    | intro _
    | apply State.modMac_touch
    | apply Touch.ite
    | split)
  all_goals with_reducible first
    | exact .inr rfl
    | exact Sub.trans (b := State.abortRingMask) (by decide +kernel) hm
    | exact Has.sub (a := State.abortRingMask) (by decide +kernel) hm
    | exact .inl (Has.sub (a := State.abortRingMask) (by decide +kernel) hm)
    | exact Has.at (by decide) (Has.sub (a := State.abortRingMask) (by decide +kernel) hm)
    | exact Has.cell (by decide) (Has.sub (a := State.abortRingMask) (by decide +kernel) hm)
    | exact Has.cellNext (by decide) (Has.sub (a := State.abortRingMask) (by decide +kernel) hm)
    | exact Has.ite (Has.sub (a := State.abortRingMask) (by decide +kernel) hm) (Has.sub (a := State.abortRingMask) (by decide +kernel) hm)
    | exact .inr (fun _ => rfl)
    | (intro _; rfl)
    | (intro _; simp; done)
    | (simp; assumption)
    | (refine .inr (fun _ => ?_); simp; done)
    | (refine .inr (fun _ => ?_); (repeat' split) <;> first | rfl | (simp; done))
    | (simp; done)

def State.rctlWriteMask : Nat :=
  State.popRingMask ||| State.pushRingMask ||| State.abortRingMask

theorem State.rctlWrite_touch {msk : Nat} {s0 : State} {s : State} {p : Path} {c : Nat} (hk : Touch msk s0 s) (hm : Sub State.rctlWriteMask msk) :
    Touch msk s0 (State.rctlWrite s p c) := by
  unfold State.rctlWrite
  try dsimp only
  repeat' (with_reducible first
    | assumption
    | exact Touch.refl
    | intro _
    | apply State.popRing_touch
    | apply State.pushRing_touch
    | apply State.abortRing_touch
    | (refine Touch.ofEq (by assumption) ?_)
    | split)
  all_goals with_reducible first
    | exact .inr rfl
    | exact Sub.trans (b := State.rctlWriteMask) (by decide +kernel) hm
    | exact Has.sub (a := State.rctlWriteMask) (by decide +kernel) hm
    | exact .inl (Has.sub (a := State.rctlWriteMask) (by decide +kernel) hm)
    | exact Has.at (by decide) (Has.sub (a := State.rctlWriteMask) (by decide +kernel) hm)
    | exact Has.cell (by decide) (Has.sub (a := State.rctlWriteMask) (by decide +kernel) hm)
    | exact Has.cellNext (by decide) (Has.sub (a := State.rctlWriteMask) (by decide +kernel) hm)
    | exact Has.ite (Has.sub (a := State.rctlWriteMask) (by decide +kernel) hm) (Has.sub (a := State.rctlWriteMask) (by decide +kernel) hm)
    | exact .inr (fun _ => rfl)
    | (intro _; rfl)
    | (intro _; simp; done)
    | (simp; assumption)
    | (refine .inr (fun _ => ?_); simp; done)
    | (refine .inr (fun _ => ?_); (repeat' split) <;> first | rfl | (simp; done))
    | (simp; done)

def State.tmRequestMask : Nat :=
  State.modMacMask ||| State.originateMask ||| State.toQ2Mask

theorem State.tmRequest_touch {msk : Nat} {s0 : State} {s : State} {a : Nat} {bands : Nat} (hk : Touch msk s0 s) (hm : Sub State.tmRequestMask msk) :
    Touch msk s0 (State.tmRequest s a bands) := by
  unfold State.tmRequest
  try dsimp only
  repeat' (with_reducible first
    | assumption
    | exact Touch.refl
    | intro _
    | apply State.modMac_touch
    | apply State.originate_touch
    | apply State.toQ2_touch)
  all_goals with_reducible first
    | exact .inr rfl
    | exact Sub.trans (b := State.tmRequestMask) (by decide +kernel) hm
    | exact Has.sub (a := State.tmRequestMask) (by decide +kernel) hm
    | exact .inl (Has.sub (a := State.tmRequestMask) (by decide +kernel) hm)
    | exact Has.at (by decide) (Has.sub (a := State.tmRequestMask) (by decide +kernel) hm)
    | exact Has.cell (by decide) (Has.sub (a := State.tmRequestMask) (by decide +kernel) hm)
    | exact Has.cellNext (by decide) (Has.sub (a := State.tmRequestMask) (by decide +kernel) hm)
    | exact Has.ite (Has.sub (a := State.tmRequestMask) (by decide +kernel) hm) (Has.sub (a := State.tmRequestMask) (by decide +kernel) hm)
    | exact .inr (fun _ => rfl)
    | (intro _; rfl)
    | (intro _; simp; done)
    | (simp; assumption)
    | (refine .inr (fun _ => ?_); simp; done)
    | (refine .inr (fun _ => ?_); (repeat' split) <;> first | rfl | (simp; done))
    | (simp; done)

def State.tmAutoMask : Nat :=
  State.modMacMask ||| State.tmRequestMask

theorem State.tmAuto_touch {msk : Nat} {s0 : State} {s : State} (hk : Touch msk s0 s) (hm : Sub State.tmAutoMask msk) :
    Touch msk s0 (State.tmAuto s) := by
  unfold State.tmAuto
  try dsimp only
  repeat' (with_reducible first
    | assumption
    | exact Touch.refl
    | intro _
    | apply State.modMac_touch
    | apply State.tmRequest_touch
    | (refine Touch.ofEq (by assumption) ?_)
    | apply Touch.ite
    | split)
  all_goals with_reducible first
    | exact .inr rfl
    | exact Sub.trans (b := State.tmAutoMask) (by decide +kernel) hm
    | exact Has.sub (a := State.tmAutoMask) (by decide +kernel) hm
    | exact .inl (Has.sub (a := State.tmAutoMask) (by decide +kernel) hm)
    | exact Has.at (by decide) (Has.sub (a := State.tmAutoMask) (by decide +kernel) hm)
    | exact Has.cell (by decide) (Has.sub (a := State.tmAutoMask) (by decide +kernel) hm)
    | exact Has.cellNext (by decide) (Has.sub (a := State.tmAutoMask) (by decide +kernel) hm)
    | exact Has.ite (Has.sub (a := State.tmAutoMask) (by decide +kernel) hm) (Has.sub (a := State.tmAutoMask) (by decide +kernel) hm)
    | exact .inr (fun _ => rfl)
    | (intro _; rfl)
    | (intro _; simp; done)
    | (simp; assumption)
    | (refine .inr (fun _ => ?_); simp; done)
    | (refine .inr (fun _ => ?_); (repeat' split) <;> first | rfl | (simp; done))
    | (simp; done)

end Sys2Proof.Machine
end

