-- ==== Sys2Proof/Laws/TouchReset.lean ====
section
/-! SUPPORT. What each operation of Machine/Reset.lean may change: its mask, and the proof that it changes nothing else. -/

namespace Sys2Proof.Machine

set_option linter.unusedSimpArgs false
set_option Elab.async false

@[simp] theorem VltState.foldTorn_flash {v : VltState} {nb : List (Nat × Nat)} {k x : Nat} : (v.foldTorn nb k x).flash = v.flash := by
  have hn := VltState.foldSet_flash (v := v) (nb := nb)
  unfold VltState.foldTorn
  generalize v.foldSet nb = new at hn
  dsimp only
  repeat' split
  all_goals first | rfl | exact hn


@[simp] theorem VltState.foldTorn_dropped {v : VltState} {nb : List (Nat × Nat)} {k x : Nat} : (v.foldTorn nb k x).dropped = v.dropped := by
  have hn := VltState.foldSet_dropped (v := v) (nb := nb)
  unfold VltState.foldTorn
  generalize v.foldSet nb = new at hn
  dsimp only
  repeat' split
  all_goals first | rfl | exact hn


@[simp] theorem VltState.cellTear_flash {v : VltState} {w : Nat} : (v.cellTear w).flash = v.flash := by
  unfold VltState.cellTear
  try dsimp only
  repeat' split
  all_goals first | rfl | (simp; done)


@[simp] theorem VltState.cellTear_dropped {v : VltState} {w : Nat} : (v.cellTear w).dropped = v.dropped := by
  unfold VltState.cellTear
  try dsimp only
  repeat' split
  all_goals first | rfl | (simp; done)


@[simp] theorem VltState.orphan_flash {v : VltState}  : (v.orphan).flash = v.flash := by
  unfold VltState.orphan
  try dsimp only
  repeat' split
  all_goals first | rfl | (simp; done)


@[simp] theorem VltState.orphan_last {v : VltState}  : (v.orphan).last = v.last := by
  unfold VltState.orphan
  try dsimp only
  repeat' split
  all_goals first | rfl | (simp; done)


@[simp] theorem VltState.orphan_dropped {v : VltState}  : (v.orphan).dropped = v.dropped := by
  unfold VltState.orphan
  try dsimp only
  repeat' split
  all_goals first | rfl | (simp; done)


@[simp] theorem VltState.bufLost_flash {v : VltState}  : (v.bufLost).flash = v.flash := VltState.orphan_flash


@[simp] theorem VltState.bufLost_last {v : VltState}  : (v.bufLost).last = v.last := VltState.orphan_last


@[simp] theorem VltState.bufLost_dropped {v : VltState}  : (v.bufLost).dropped = v.dropped := VltState.orphan_dropped


def State.modClkMask : Nat :=
  Part.clk.bit

theorem State.modClk_touch {msk : Nat} {s0 : State} {s : State} {f : ClkState → ClkState} (hk : Touch msk s0 s) (hm : Sub State.modClkMask msk) :
    Touch msk s0 (State.modClk s f) := by
  unfold State.modClk
  try dsimp only
  repeat' (with_reducible first
    | assumption
    | exact Touch.refl
    | intro _
    | (simp only [Touch.mk_iff]; apply TouchMk.intro))
  all_goals with_reducible first
    | exact .inr rfl
    | exact Sub.trans (b := State.modClkMask) (by decide +kernel) hm
    | exact Has.sub (a := State.modClkMask) (by decide +kernel) hm
    | exact .inl (Has.sub (a := State.modClkMask) (by decide +kernel) hm)
    | exact Has.at (by decide) (Has.sub (a := State.modClkMask) (by decide +kernel) hm)
    | exact Has.cell (by decide) (Has.sub (a := State.modClkMask) (by decide +kernel) hm)
    | exact Has.cellNext (by decide) (Has.sub (a := State.modClkMask) (by decide +kernel) hm)
    | exact Has.ite (Has.sub (a := State.modClkMask) (by decide +kernel) hm) (Has.sub (a := State.modClkMask) (by decide +kernel) hm)
    | exact .inr (fun _ => rfl)
    | (intro _; rfl)
    | (intro _; simp; done)
    | (simp; assumption)
    | (refine .inr (fun _ => ?_); simp; done)
    | (refine .inr (fun _ => ?_); (repeat' split) <;> first | rfl | (simp; done))
    | (simp; done)

def State.modPwrMask : Nat :=
  Part.pwr.bit

theorem State.modPwr_touch {msk : Nat} {s0 : State} {s : State} {f : PwrState → PwrState} (hk : Touch msk s0 s) (hm : Sub State.modPwrMask msk) :
    Touch msk s0 (State.modPwr s f) := by
  unfold State.modPwr
  try dsimp only
  repeat' (with_reducible first
    | assumption
    | exact Touch.refl
    | intro _
    | (simp only [Touch.mk_iff]; apply TouchMk.intro))
  all_goals with_reducible first
    | exact .inr rfl
    | exact Sub.trans (b := State.modPwrMask) (by decide +kernel) hm
    | exact Has.sub (a := State.modPwrMask) (by decide +kernel) hm
    | exact .inl (Has.sub (a := State.modPwrMask) (by decide +kernel) hm)
    | exact Has.at (by decide) (Has.sub (a := State.modPwrMask) (by decide +kernel) hm)
    | exact Has.cell (by decide) (Has.sub (a := State.modPwrMask) (by decide +kernel) hm)
    | exact Has.cellNext (by decide) (Has.sub (a := State.modPwrMask) (by decide +kernel) hm)
    | exact Has.ite (Has.sub (a := State.modPwrMask) (by decide +kernel) hm) (Has.sub (a := State.modPwrMask) (by decide +kernel) hm)
    | exact .inr (fun _ => rfl)
    | (intro _; rfl)
    | (intro _; simp; done)
    | (simp; assumption)
    | (refine .inr (fun _ => ?_); simp; done)
    | (refine .inr (fun _ => ?_); (repeat' split) <;> first | rfl | (simp; done))
    | (simp; done)

def State.foldCutMask : Nat :=
  State.useFreeMask ||| State.foldPostMask ||| Part.last.bit ||| Part.vlt.bit

theorem State.foldCut_touch {msk : Nat} {s0 : State} {s : State} (hk : Touch msk s0 s) (hm : Sub State.foldCutMask msk) :
    Touch msk s0 (State.foldCut s) := by
  unfold State.foldCut
  try dsimp only
  repeat' (with_reducible first
    | assumption
    | exact Touch.refl
    | intro _
    | apply State.useFree_touch
    | apply Touch.modVlt
    | apply State.foldPost_touch
    | (refine Touch.ofEq (by assumption) ?_)
    | apply Touch.ite
    | apply Touch.foldl
    | apply Touch.foldlFst
    | split)
  all_goals with_reducible first
    | exact .inr rfl
    | exact Sub.trans (b := State.foldCutMask) (by decide +kernel) hm
    | exact Has.sub (a := State.foldCutMask) (by decide +kernel) hm
    | exact .inl (Has.sub (a := State.foldCutMask) (by decide +kernel) hm)
    | exact Has.at (by decide) (Has.sub (a := State.foldCutMask) (by decide +kernel) hm)
    | exact Has.cell (by decide) (Has.sub (a := State.foldCutMask) (by decide +kernel) hm)
    | exact Has.cellNext (by decide) (Has.sub (a := State.foldCutMask) (by decide +kernel) hm)
    | exact Has.ite (Has.sub (a := State.foldCutMask) (by decide +kernel) hm) (Has.sub (a := State.foldCutMask) (by decide +kernel) hm)
    | exact .inr (fun _ => rfl)
    | (intro _; rfl)
    | (intro _; simp; done)
    | (simp; assumption)
    | (refine .inr (fun _ => ?_); simp; done)
    | (refine .inr (fun _ => ?_); (repeat' split) <;> first | rfl | (simp; done))
    | (simp; done)

def State.commitCutMask : Nat :=
  State.useFreeMask ||| State.cutAtMask ||| Part.vlt.bit

theorem State.commitCut_touch {msk : Nat} {s0 : State} {s : State} (hk : Touch msk s0 s) (hm : Sub State.commitCutMask msk) :
    Touch msk s0 (State.commitCut s) := by
  unfold State.commitCut
  try dsimp only
  repeat' (with_reducible first
    | assumption
    | exact Touch.refl
    | intro _
    | apply State.useFree_touch
    | apply Touch.modVlt
    | apply State.cutAt_touch
    | (refine Touch.ofEq (by assumption) ?_)
    | apply Touch.ite
    | split)
  all_goals with_reducible first
    | exact .inr rfl
    | exact Sub.trans (b := State.commitCutMask) (by decide +kernel) hm
    | exact Has.sub (a := State.commitCutMask) (by decide +kernel) hm
    | exact .inl (Has.sub (a := State.commitCutMask) (by decide +kernel) hm)
    | exact Has.at (by decide) (Has.sub (a := State.commitCutMask) (by decide +kernel) hm)
    | exact Has.cell (by decide) (Has.sub (a := State.commitCutMask) (by decide +kernel) hm)
    | exact Has.cellNext (by decide) (Has.sub (a := State.commitCutMask) (by decide +kernel) hm)
    | exact Has.ite (Has.sub (a := State.commitCutMask) (by decide +kernel) hm) (Has.sub (a := State.commitCutMask) (by decide +kernel) hm)
    | exact .inr (fun _ => rfl)
    | (intro _; rfl)
    | (intro _; simp; done)
    | (simp; assumption)
    | (refine .inr (fun _ => ?_); simp; done)
    | (refine .inr (fun _ => ?_); (repeat' split) <;> first | rfl | (simp; done))
    | (simp; done)

def State.opCutMask : Nat :=
  State.useFreeMask ||| State.legWriteMask ||| Part.flash.bit ||| Part.vlt.bit

theorem State.opCut_touch {msk : Nat} {s0 : State} {s : State} {e : VEntry} (hk : Touch msk s0 s) (hm : Sub State.opCutMask msk) :
    Touch msk s0 (State.opCut s e) := by
  unfold State.opCut
  try dsimp only
  repeat' (with_reducible first
    | assumption
    | exact Touch.refl
    | intro _
    | apply State.useFree_touch
    | apply Touch.modVlt
    | apply State.legWrite_touch
    | (refine Touch.ofEq (by assumption) ?_)
    | apply Touch.ite
    | split)
  all_goals with_reducible first
    | exact .inr rfl
    | exact Sub.trans (b := State.opCutMask) (by decide +kernel) hm
    | exact Has.sub (a := State.opCutMask) (by decide +kernel) hm
    | exact .inl (Has.sub (a := State.opCutMask) (by decide +kernel) hm)
    | exact Has.at (by decide) (Has.sub (a := State.opCutMask) (by decide +kernel) hm)
    | exact Has.cell (by decide) (Has.sub (a := State.opCutMask) (by decide +kernel) hm)
    | exact Has.cellNext (by decide) (Has.sub (a := State.opCutMask) (by decide +kernel) hm)
    | exact Has.ite (Has.sub (a := State.opCutMask) (by decide +kernel) hm) (Has.sub (a := State.opCutMask) (by decide +kernel) hm)
    | exact .inr (fun _ => rfl)
    | (intro _; rfl)
    | (intro _; simp; done)
    | (simp; assumption)
    | (refine .inr (fun _ => ?_); simp; done)
    | (refine .inr (fun _ => ?_); (repeat' split) <;> first | rfl | (simp; done))
    | (simp; done)

def State.vaultCutMask : Nat :=
  State.foldCutMask ||| State.commitCutMask ||| State.opCutMask

theorem State.vaultCut_touch {msk : Nat} {s0 : State} {s : State} (hk : Touch msk s0 s) (hm : Sub State.vaultCutMask msk) :
    Touch msk s0 (State.vaultCut s) := by
  unfold State.vaultCut
  try dsimp only
  repeat' (with_reducible first
    | assumption
    | exact Touch.refl
    | intro _
    | apply State.foldCut_touch
    | apply State.commitCut_touch
    | apply State.opCut_touch
    | (refine Touch.ofEq (by assumption) ?_)
    | apply Touch.foldl
    | apply Touch.foldlFst
    | split)
  all_goals with_reducible first
    | exact .inr rfl
    | exact Sub.trans (b := State.vaultCutMask) (by decide +kernel) hm
    | exact Has.sub (a := State.vaultCutMask) (by decide +kernel) hm
    | exact .inl (Has.sub (a := State.vaultCutMask) (by decide +kernel) hm)
    | exact Has.at (by decide) (Has.sub (a := State.vaultCutMask) (by decide +kernel) hm)
    | exact Has.cell (by decide) (Has.sub (a := State.vaultCutMask) (by decide +kernel) hm)
    | exact Has.cellNext (by decide) (Has.sub (a := State.vaultCutMask) (by decide +kernel) hm)
    | exact Has.ite (Has.sub (a := State.vaultCutMask) (by decide +kernel) hm) (Has.sub (a := State.vaultCutMask) (by decide +kernel) hm)
    | exact .inr (fun _ => rfl)
    | (intro _; rfl)
    | (intro _; simp; done)
    | (simp; assumption)
    | (refine .inr (fun _ => ?_); simp; done)
    | (refine .inr (fun _ => ?_); (repeat' split) <;> first | rfl | (simp; done))
    | (simp; done)

def State.cellCutMask : Nat :=
  State.useFreeMask ||| Part.last.bit ||| Part.vlt.bit

theorem State.cellCut_touch {msk : Nat} {s0 : State} {s : State} (hk : Touch msk s0 s) (hm : Sub State.cellCutMask msk) :
    Touch msk s0 (State.cellCut s) := by
  unfold State.cellCut
  try dsimp only
  repeat' (with_reducible first
    | assumption
    | exact Touch.refl
    | intro _
    | apply State.useFree_touch
    | apply Touch.modVlt
    | apply Touch.ite
    | split)
  all_goals with_reducible first
    | exact .inr rfl
    | exact Sub.trans (b := State.cellCutMask) (by decide +kernel) hm
    | exact Has.sub (a := State.cellCutMask) (by decide +kernel) hm
    | exact .inl (Has.sub (a := State.cellCutMask) (by decide +kernel) hm)
    | exact Has.at (by decide) (Has.sub (a := State.cellCutMask) (by decide +kernel) hm)
    | exact Has.cell (by decide) (Has.sub (a := State.cellCutMask) (by decide +kernel) hm)
    | exact Has.cellNext (by decide) (Has.sub (a := State.cellCutMask) (by decide +kernel) hm)
    | exact Has.ite (Has.sub (a := State.cellCutMask) (by decide +kernel) hm) (Has.sub (a := State.cellCutMask) (by decide +kernel) hm)
    | exact .inr (fun _ => rfl)
    | (intro _; rfl)
    | (intro _; simp; done)
    | (simp; assumption)
    | (refine .inr (fun _ => ?_); simp; done)
    | (refine .inr (fun _ => ?_); (repeat' split) <;> first | rfl | (simp; done))
    | (simp; done)

def State.cutOffMask : Nat :=
  State.vaultCutMask ||| State.cellCutMask

theorem State.cutOff_touch {msk : Nat} {s0 : State} {s : State} {soft : Bool} (hk : Touch msk s0 s) (hm : Sub State.cutOffMask msk) :
    Touch msk s0 (State.cutOff s soft) := by
  unfold State.cutOff
  try dsimp only
  repeat' (with_reducible first
    | assumption
    | exact Touch.refl
    | intro _
    | apply State.vaultCut_touch
    | apply State.cellCut_touch
    | apply Touch.ite
    | split)
  all_goals with_reducible first
    | exact .inr rfl
    | exact Sub.trans (b := State.cutOffMask) (by decide +kernel) hm
    | exact Has.sub (a := State.cutOffMask) (by decide +kernel) hm
    | exact .inl (Has.sub (a := State.cutOffMask) (by decide +kernel) hm)
    | exact Has.at (by decide) (Has.sub (a := State.cutOffMask) (by decide +kernel) hm)
    | exact Has.cell (by decide) (Has.sub (a := State.cutOffMask) (by decide +kernel) hm)
    | exact Has.cellNext (by decide) (Has.sub (a := State.cutOffMask) (by decide +kernel) hm)
    | exact Has.ite (Has.sub (a := State.cutOffMask) (by decide +kernel) hm) (Has.sub (a := State.cutOffMask) (by decide +kernel) hm)
    | exact .inr (fun _ => rfl)
    | (intro _; rfl)
    | (intro _; simp; done)
    | (simp; assumption)
    | (refine .inr (fun _ => ?_); simp; done)
    | (refine .inr (fun _ => ?_); (repeat' split) <;> first | rfl | (simp; done))
    | (simp; done)

def State.coreResetMask : Nat :=
  State.saveShowMask ||| State.cutOffMask ||| allRegs ||| Part.acted.bit ||| Part.clk.bit ||| Part.cmd.bit |||
    Part.drops.bit ||| Part.fabric.bit ||| Part.fde.bit ||| Part.free.bit ||| Part.gtu.bit ||| Part.hlt.bit |||
    Part.host.bit ||| Part.keep.bit ||| Part.lmp.bit ||| Part.mac.bit ||| Part.phy.bit ||| Part.posted.bit |||
    Part.pulses.bit ||| Part.pwm.bit ||| Part.pwr.bit ||| Part.q6.bit ||| Part.q7.bit ||| Part.remote.bit |||
    Part.sec.bit ||| Part.tim.bit ||| Part.vlt.bit

theorem State.coreReset_touch {msk : Nat} {s0 : State} {s : State} {soft : Bool} (hk : Touch msk s0 s) (hm : Sub State.coreResetMask msk) :
    Touch msk s0 (State.coreReset s soft) := by
  unfold State.coreReset
  dsimp only
  repeat' (with_reducible first
    | apply State.saveShow_touch
    | apply State.setFlag_touch
    | apply Touch.setReg
    | apply State.setFld_touch
    | apply State.modPwr_touch
    | apply Touch.ite
    | apply Touch.mkAll (t := s.cutOff soft) (State.cutOff_touch hk (Sub.trans (b := State.coreResetMask) (by decide +kernel) hm)))
  all_goals with_reducible first
    | exact .inr rfl
    | exact Sub.trans (b := State.coreResetMask) (by decide +kernel) hm
    | exact Has.sub (a := State.coreResetMask) (by decide +kernel) hm
    | exact .inl (Has.sub (a := State.coreResetMask) (by decide +kernel) hm)
    | exact Has.at (by decide) (Has.sub (a := State.coreResetMask) (by decide +kernel) hm)
    | exact Has.cell (by decide) (Has.sub (a := State.coreResetMask) (by decide +kernel) hm)
    | exact Has.cellNext (by decide) (Has.sub (a := State.coreResetMask) (by decide +kernel) hm)
    | exact Has.ite (Has.sub (a := State.coreResetMask) (by decide +kernel) hm) (Has.sub (a := State.coreResetMask) (by decide +kernel) hm)
    | exact .inr (fun _ => rfl)
    | (intro _; rfl)
    | (intro _; simp; done)
    | (simp; assumption)
    | (refine .inr (fun _ => ?_); simp; done)
    | (refine .inr (fun _ => ?_); (repeat' split) <;> first | rfl | (simp; done))
    | (simp; done)

def State.lrstMask : Nat :=
  rbit R.PWR_LRST

theorem State.lrst_touch {msk : Nat} {s0 : State} {s : State} {cause : Nat} (hk : Touch msk s0 s) (hm : Sub State.lrstMask msk) :
    Touch msk s0 (State.lrst s cause) := by
  unfold State.lrst
  try dsimp only
  repeat' (with_reducible first
    | assumption
    | exact Touch.refl
    | intro _
    | apply State.setFld_touch)
  all_goals with_reducible first
    | exact .inr rfl
    | exact Sub.trans (b := State.lrstMask) (by decide +kernel) hm
    | exact Has.sub (a := State.lrstMask) (by decide +kernel) hm
    | exact .inl (Has.sub (a := State.lrstMask) (by decide +kernel) hm)
    | exact Has.at (by decide) (Has.sub (a := State.lrstMask) (by decide +kernel) hm)
    | exact Has.cell (by decide) (Has.sub (a := State.lrstMask) (by decide +kernel) hm)
    | exact Has.cellNext (by decide) (Has.sub (a := State.lrstMask) (by decide +kernel) hm)
    | exact Has.ite (Has.sub (a := State.lrstMask) (by decide +kernel) hm) (Has.sub (a := State.lrstMask) (by decide +kernel) hm)
    | exact .inr (fun _ => rfl)
    | (intro _; rfl)
    | (intro _; simp; done)
    | (simp; assumption)
    | (refine .inr (fun _ => ?_); simp; done)
    | (refine .inr (fun _ => ?_); (repeat' split) <;> first | rfl | (simp; done))
    | (simp; done)

def State.areaClearMask : Nat :=
  State.modKeepMask ||| State.modSecMask ||| rbit R.TIM_FLG ||| rbit R.TIM_KFERR ||| rbit R.TIM_FREQ_LO ||| rbit
    R.TIM_FREQ_HI ||| Part.gtu.bit ||| Part.vlt.bit

theorem State.areaClear_touch {msk : Nat} {s0 : State} {s : State} {a : Nat} (hk : Touch msk s0 s) (hm : Sub State.areaClearMask msk) :
    Touch msk s0 (State.areaClear s a) := by
  unfold State.areaClear
  try dsimp only
  repeat' (with_reducible first
    | assumption
    | exact Touch.refl
    | intro _
    | apply Touch.setReg
    | apply Touch.modVlt
    | apply State.modKeep_touch
    | apply State.modSec_touch
    | apply State.setFlag_touch
    | (refine Touch.ofEq (by assumption) ?_)
    | apply Touch.ite
    | apply Touch.setReg
    | (simp only [Touch.mk_iff]; apply TouchMk.intro)
    | split)
  all_goals with_reducible first
    | exact .inr rfl
    | exact Sub.trans (b := State.areaClearMask) (by decide +kernel) hm
    | exact Has.sub (a := State.areaClearMask) (by decide +kernel) hm
    | exact .inl (Has.sub (a := State.areaClearMask) (by decide +kernel) hm)
    | exact Has.at (by decide) (Has.sub (a := State.areaClearMask) (by decide +kernel) hm)
    | exact Has.cell (by decide) (Has.sub (a := State.areaClearMask) (by decide +kernel) hm)
    | exact Has.cellNext (by decide) (Has.sub (a := State.areaClearMask) (by decide +kernel) hm)
    | exact Has.ite (Has.sub (a := State.areaClearMask) (by decide +kernel) hm) (Has.sub (a := State.areaClearMask) (by decide +kernel) hm)
    | exact .inr (fun _ => rfl)
    | (intro _; rfl)
    | (intro _; simp; done)
    | (simp; assumption)
    | (refine .inr (fun _ => ?_); simp; done)
    | (refine .inr (fun _ => ?_); (repeat' split) <;> first | rfl | (simp; done))
    | (simp; done)

def State.kramCheckMask : Nat :=
  State.stickMask ||| State.holdRecMask ||| State.modKeepMask ||| State.areaClearMask ||| rbit R.KEEP_STAT

theorem State.kramCheck_touch {msk : Nat} {s0 : State} {s : State} (hk : Touch msk s0 s) (hm : Sub State.kramCheckMask msk) :
    Touch msk s0 (State.kramCheck s) := by
  unfold State.kramCheck
  try dsimp only
  repeat' (with_reducible first
    | assumption
    | exact Touch.refl
    | intro _
    | apply State.stick_touch
    | apply State.holdRec_touch
    | apply State.modKeep_touch
    | apply State.areaClear_touch
    | apply Touch.ite
    | apply Touch.foldl
    | apply Touch.foldlFst
    | split)
  all_goals with_reducible first
    | exact .inr rfl
    | exact Sub.trans (b := State.kramCheckMask) (by decide +kernel) hm
    | exact Has.sub (a := State.kramCheckMask) (by decide +kernel) hm
    | exact .inl (Has.sub (a := State.kramCheckMask) (by decide +kernel) hm)
    | exact Has.at (by decide) (Has.sub (a := State.kramCheckMask) (by decide +kernel) hm)
    | exact Has.cell (by decide) (Has.sub (a := State.kramCheckMask) (by decide +kernel) hm)
    | exact Has.cellNext (by decide) (Has.sub (a := State.kramCheckMask) (by decide +kernel) hm)
    | exact Has.ite (Has.sub (a := State.kramCheckMask) (by decide +kernel) hm) (Has.sub (a := State.kramCheckMask) (by decide +kernel) hm)
    | exact .inr (fun _ => rfl)
    | (intro _; rfl)
    | (intro _; simp; done)
    | (simp; assumption)
    | (refine .inr (fun _ => ?_); simp; done)
    | (refine .inr (fun _ => ?_); (repeat' split) <;> first | rfl | (simp; done))
    | (simp; done)

def State.ircKeepMask : Nat :=
  rbit R.CLK_STAT

theorem State.ircKeep_touch {msk : Nat} {s0 : State} {s : State} (hk : Touch msk s0 s) (hm : Sub State.ircKeepMask msk) :
    Touch msk s0 (State.ircKeep s) := by
  unfold State.ircKeep
  try dsimp only
  repeat' (with_reducible first
    | assumption
    | exact Touch.refl
    | intro _
    | apply State.setFlag_touch
    | apply Touch.ite
    | split)
  all_goals with_reducible first
    | exact .inr rfl
    | exact Sub.trans (b := State.ircKeepMask) (by decide +kernel) hm
    | exact Has.sub (a := State.ircKeepMask) (by decide +kernel) hm
    | exact .inl (Has.sub (a := State.ircKeepMask) (by decide +kernel) hm)
    | exact Has.at (by decide) (Has.sub (a := State.ircKeepMask) (by decide +kernel) hm)
    | exact Has.cell (by decide) (Has.sub (a := State.ircKeepMask) (by decide +kernel) hm)
    | exact Has.cellNext (by decide) (Has.sub (a := State.ircKeepMask) (by decide +kernel) hm)
    | exact Has.ite (Has.sub (a := State.ircKeepMask) (by decide +kernel) hm) (Has.sub (a := State.ircKeepMask) (by decide +kernel) hm)
    | exact .inr (fun _ => rfl)
    | (intro _; rfl)
    | (intro _; simp; done)
    | (simp; assumption)
    | (refine .inr (fun _ => ?_); simp; done)
    | (refine .inr (fun _ => ?_); (repeat' split) <;> first | rfl | (simp; done))
    | (simp; done)

def State.litEntryMask : Nat :=
  State.modPwrMask ||| State.kramCheckMask

theorem State.litEntry_touch {msk : Nat} {s0 : State} {s : State} {b : Nat} (hk : Touch msk s0 s) (hm : Sub State.litEntryMask msk) :
    Touch msk s0 (State.litEntry s b) := by
  unfold State.litEntry
  try dsimp only
  repeat' (with_reducible first
    | assumption
    | exact Touch.refl
    | intro _
    | apply State.modPwr_touch
    | apply State.kramCheck_touch)
  all_goals with_reducible first
    | exact .inr rfl
    | exact Sub.trans (b := State.litEntryMask) (by decide +kernel) hm
    | exact Has.sub (a := State.litEntryMask) (by decide +kernel) hm
    | exact .inl (Has.sub (a := State.litEntryMask) (by decide +kernel) hm)
    | exact Has.at (by decide) (Has.sub (a := State.litEntryMask) (by decide +kernel) hm)
    | exact Has.cell (by decide) (Has.sub (a := State.litEntryMask) (by decide +kernel) hm)
    | exact Has.cellNext (by decide) (Has.sub (a := State.litEntryMask) (by decide +kernel) hm)
    | exact Has.ite (Has.sub (a := State.litEntryMask) (by decide +kernel) hm) (Has.sub (a := State.litEntryMask) (by decide +kernel) hm)
    | exact .inr (fun _ => rfl)
    | (intro _; rfl)
    | (intro _; simp; done)
    | (simp; assumption)
    | (refine .inr (fun _ => ?_); simp; done)
    | (refine .inr (fun _ => ?_); (repeat' split) <;> first | rfl | (simp; done))
    | (simp; done)

def State.linkStickyMask : Nat :=
  State.pwrStickMask

theorem State.linkSticky_touch {msk : Nat} {s0 : State} {s : State} (hk : Touch msk s0 s) (hm : Sub State.linkStickyMask msk) :
    Touch msk s0 (State.linkSticky s) := by
  unfold State.linkSticky
  try dsimp only
  repeat' (with_reducible first
    | assumption
    | exact Touch.refl
    | intro _
    | apply State.pwrStick_touch
    | apply Touch.ite
    | split)
  all_goals with_reducible first
    | exact .inr rfl
    | exact Sub.trans (b := State.linkStickyMask) (by decide +kernel) hm
    | exact Has.sub (a := State.linkStickyMask) (by decide +kernel) hm
    | exact .inl (Has.sub (a := State.linkStickyMask) (by decide +kernel) hm)
    | exact Has.at (by decide) (Has.sub (a := State.linkStickyMask) (by decide +kernel) hm)
    | exact Has.cell (by decide) (Has.sub (a := State.linkStickyMask) (by decide +kernel) hm)
    | exact Has.cellNext (by decide) (Has.sub (a := State.linkStickyMask) (by decide +kernel) hm)
    | exact Has.ite (Has.sub (a := State.linkStickyMask) (by decide +kernel) hm) (Has.sub (a := State.linkStickyMask) (by decide +kernel) hm)
    | exact .inr (fun _ => rfl)
    | (intro _; rfl)
    | (intro _; simp; done)
    | (simp; assumption)
    | (refine .inr (fun _ => ?_); simp; done)
    | (refine .inr (fun _ => ?_); (repeat' split) <;> first | rfl | (simp; done))
    | (simp; done)

def State.softResetMask : Nat :=
  State.postMask ||| State.globalLevelsMask ||| State.modPwrMask ||| State.coreResetMask ||| State.lrstMask |||
    State.ircKeepMask ||| State.litEntryMask ||| State.linkStickyMask

theorem State.softReset_touch {msk : Nat} {s0 : State} {s : State} (hk : Touch msk s0 s) (hm : Sub State.softResetMask msk) :
    Touch msk s0 (State.softReset s) := by
  unfold State.softReset
  try dsimp only
  repeat' (with_reducible first
    | assumption
    | exact Touch.refl
    | intro _
    | apply State.post_touch
    | apply State.globalLevels_touch
    | apply State.modPwr_touch
    | apply State.coreReset_touch
    | apply State.lrst_touch
    | apply State.ircKeep_touch
    | apply State.litEntry_touch
    | apply State.linkSticky_touch)
  all_goals with_reducible first
    | exact .inr rfl
    | exact Sub.trans (b := State.softResetMask) (by decide +kernel) hm
    | exact Has.sub (a := State.softResetMask) (by decide +kernel) hm
    | exact .inl (Has.sub (a := State.softResetMask) (by decide +kernel) hm)
    | exact Has.at (by decide) (Has.sub (a := State.softResetMask) (by decide +kernel) hm)
    | exact Has.cell (by decide) (Has.sub (a := State.softResetMask) (by decide +kernel) hm)
    | exact Has.cellNext (by decide) (Has.sub (a := State.softResetMask) (by decide +kernel) hm)
    | exact Has.ite (Has.sub (a := State.softResetMask) (by decide +kernel) hm) (Has.sub (a := State.softResetMask) (by decide +kernel) hm)
    | exact .inr (fun _ => rfl)
    | (intro _; rfl)
    | (intro _; simp; done)
    | (simp; assumption)
    | (refine .inr (fun _ => ?_); simp; done)
    | (refine .inr (fun _ => ?_); (repeat' split) <;> first | rfl | (simp; done))
    | (simp; done)

def State.clockFatalMask : Nat :=
  State.modClkMask ||| State.coreResetMask ||| State.lrstMask ||| State.litEntryMask ||| rbit R.CLK_LAST

theorem State.clockFatal_touch {msk : Nat} {s0 : State} {s : State} (hk : Touch msk s0 s) (hm : Sub State.clockFatalMask msk) :
    Touch msk s0 (State.clockFatal s) := by
  unfold State.clockFatal
  try dsimp only
  repeat' (with_reducible first
    | assumption
    | exact Touch.refl
    | intro _
    | apply State.modClk_touch
    | apply State.coreReset_touch
    | apply State.lrst_touch
    | apply State.litEntry_touch
    | apply State.setFlag_touch
    | apply State.satInc_touch)
  all_goals with_reducible first
    | exact .inr rfl
    | exact Sub.trans (b := State.clockFatalMask) (by decide +kernel) hm
    | exact Has.sub (a := State.clockFatalMask) (by decide +kernel) hm
    | exact .inl (Has.sub (a := State.clockFatalMask) (by decide +kernel) hm)
    | exact Has.at (by decide) (Has.sub (a := State.clockFatalMask) (by decide +kernel) hm)
    | exact Has.cell (by decide) (Has.sub (a := State.clockFatalMask) (by decide +kernel) hm)
    | exact Has.cellNext (by decide) (Has.sub (a := State.clockFatalMask) (by decide +kernel) hm)
    | exact Has.ite (Has.sub (a := State.clockFatalMask) (by decide +kernel) hm) (Has.sub (a := State.clockFatalMask) (by decide +kernel) hm)
    | exact .inr (fun _ => rfl)
    | (intro _; rfl)
    | (intro _; simp; done)
    | (simp; assumption)
    | (refine .inr (fun _ => ?_); simp; done)
    | (refine .inr (fun _ => ?_); (repeat' split) <;> first | rfl | (simp; done))
    | (simp; done)

def State.kaResetMask : Nat :=
  State.modPwrMask ||| State.coreResetMask ||| allRegs ||| Part.clk.bit ||| Part.drops.bit ||| Part.gtu.bit |||
    Part.keep.bit ||| Part.sec.bit ||| Part.tim.bit ||| Part.vlt.bit

theorem State.kaReset_touch {msk : Nat} {s0 : State} {s : State} (hk : Touch msk s0 s) (hm : Sub State.kaResetMask msk) :
    Touch msk s0 (State.kaReset s) := by
  unfold State.kaReset
  dsimp only
  repeat' (with_reducible first
    | apply State.saveShow_touch
    | apply State.setFlag_touch
    | apply Touch.setReg
    | apply State.setFld_touch
    | apply State.modPwr_touch
    | apply Touch.ite
    | apply Touch.mkAll (t := s.coreReset false) (State.coreReset_touch hk (Sub.trans (b := State.kaResetMask) (by decide +kernel) hm)))
  all_goals with_reducible first
    | exact .inr rfl
    | exact Sub.trans (b := State.kaResetMask) (by decide +kernel) hm
    | exact Has.sub (a := State.kaResetMask) (by decide +kernel) hm
    | exact .inl (Has.sub (a := State.kaResetMask) (by decide +kernel) hm)
    | exact Has.at (by decide) (Has.sub (a := State.kaResetMask) (by decide +kernel) hm)
    | exact Has.cell (by decide) (Has.sub (a := State.kaResetMask) (by decide +kernel) hm)
    | exact Has.cellNext (by decide) (Has.sub (a := State.kaResetMask) (by decide +kernel) hm)
    | exact Has.ite (Has.sub (a := State.kaResetMask) (by decide +kernel) hm) (Has.sub (a := State.kaResetMask) (by decide +kernel) hm)
    | exact .inr (fun _ => rfl)
    | (intro _; rfl)
    | (intro _; simp; done)
    | (simp; assumption)
    | (refine .inr (fun _ => ?_); simp; done)
    | (refine .inr (fun _ => ?_); (repeat' split) <;> first | rfl | (simp; done))
    | (simp; done)

end Sys2Proof.Machine
end

