-- ==== Sys2Proof/Laws/TouchClk.lean ====
section
/-! SUPPORT. What each operation of Machine/Clk.lean may change: its mask, and the proof that it changes nothing else. -/

namespace Sys2Proof.Machine

set_option linter.unusedSimpArgs false
set_option Elab.async false

def State.clkStickMask : Nat :=
  State.stickMask ||| rbit R.CLK_STAT

theorem State.clkStick_touch {msk : Nat} {s0 : State} {s : State} {f : Fld} (hk : Touch msk s0 s) (hm : Sub State.clkStickMask msk) :
    Touch msk s0 (State.clkStick s f) := by
  unfold State.clkStick
  try dsimp only
  repeat' (with_reducible first
    | assumption
    | exact Touch.refl
    | intro _
    | apply State.stick_touch)
  all_goals with_reducible first
    | exact .inr rfl
    | exact Sub.trans (b := State.clkStickMask) (by decide +kernel) hm
    | exact Has.sub (a := State.clkStickMask) (by decide +kernel) hm
    | exact .inl (Has.sub (a := State.clkStickMask) (by decide +kernel) hm)
    | exact Has.at (by decide) (Has.sub (a := State.clkStickMask) (by decide +kernel) hm)
    | exact Has.cell (by decide) (Has.sub (a := State.clkStickMask) (by decide +kernel) hm)
    | exact Has.cellNext (by decide) (Has.sub (a := State.clkStickMask) (by decide +kernel) hm)
    | exact Has.ite (Has.sub (a := State.clkStickMask) (by decide +kernel) hm) (Has.sub (a := State.clkStickMask) (by decide +kernel) hm)
    | exact .inr (fun _ => rfl)
    | (intro _; rfl)
    | (intro _; simp; done)
    | (simp; assumption)
    | (refine .inr (fun _ => ?_); simp; done)
    | (refine .inr (fun _ => ?_); (repeat' split) <;> first | rfl | (simp; done))
    | (simp; done)

def State.postOrHoldMask : Nat :=
  State.postMask ||| State.holdRecMask

theorem State.postOrHold_touch {msk : Nat} {s0 : State} {s : State} {cls : Nat} {ev : Nat} {detail : Nat} (hk : Touch msk s0 s) (hm : Sub State.postOrHoldMask msk) :
    Touch msk s0 (State.postOrHold s cls ev detail) := by
  unfold State.postOrHold
  try dsimp only
  repeat' (with_reducible first
    | assumption
    | exact Touch.refl
    | intro _
    | apply State.post_touch
    | apply State.holdRec_touch
    | apply Touch.ite
    | split)
  all_goals with_reducible first
    | exact .inr rfl
    | exact Sub.trans (b := State.postOrHoldMask) (by decide +kernel) hm
    | exact Has.sub (a := State.postOrHoldMask) (by decide +kernel) hm
    | exact .inl (Has.sub (a := State.postOrHoldMask) (by decide +kernel) hm)
    | exact Has.at (by decide) (Has.sub (a := State.postOrHoldMask) (by decide +kernel) hm)
    | exact Has.cell (by decide) (Has.sub (a := State.postOrHoldMask) (by decide +kernel) hm)
    | exact Has.cellNext (by decide) (Has.sub (a := State.postOrHoldMask) (by decide +kernel) hm)
    | exact Has.ite (Has.sub (a := State.postOrHoldMask) (by decide +kernel) hm) (Has.sub (a := State.postOrHoldMask) (by decide +kernel) hm)
    | exact .inr (fun _ => rfl)
    | (intro _; rfl)
    | (intro _; simp; done)
    | (simp; assumption)
    | (refine .inr (fun _ => ?_); simp; done)
    | (refine .inr (fun _ => ?_); (repeat' split) <;> first | rfl | (simp; done))
    | (simp; done)

def State.handoverMask : Nat :=
  State.lineStopMask ||| State.modClkMask

theorem State.handover_touch {msk : Nat} {s0 : State} {s : State} {ret : Bool} (hk : Touch msk s0 s) (hm : Sub State.handoverMask msk) :
    Touch msk s0 (State.handover s ret) := by
  unfold State.handover
  try dsimp only
  repeat' (with_reducible first
    | assumption
    | exact Touch.refl
    | intro _
    | apply State.lineStop_touch
    | apply State.modClk_touch)
  all_goals with_reducible first
    | exact .inr rfl
    | exact Sub.trans (b := State.handoverMask) (by decide +kernel) hm
    | exact Has.sub (a := State.handoverMask) (by decide +kernel) hm
    | exact .inl (Has.sub (a := State.handoverMask) (by decide +kernel) hm)
    | exact Has.at (by decide) (Has.sub (a := State.handoverMask) (by decide +kernel) hm)
    | exact Has.cell (by decide) (Has.sub (a := State.handoverMask) (by decide +kernel) hm)
    | exact Has.cellNext (by decide) (Has.sub (a := State.handoverMask) (by decide +kernel) hm)
    | exact Has.ite (Has.sub (a := State.handoverMask) (by decide +kernel) hm) (Has.sub (a := State.handoverMask) (by decide +kernel) hm)
    | exact .inr (fun _ => rfl)
    | (intro _; rfl)
    | (intro _; simp; done)
    | (simp; assumption)
    | (refine .inr (fun _ => ?_); simp; done)
    | (refine .inr (fun _ => ?_); (repeat' split) <;> first | rfl | (simp; done))
    | (simp; done)

def State.xoQualifiedMask : Nat :=
  State.handoverMask ||| rbit R.CLK_STAT

theorem State.xoQualified_touch {msk : Nat} {s0 : State} {s : State} (hk : Touch msk s0 s) (hm : Sub State.xoQualifiedMask msk) :
    Touch msk s0 (State.xoQualified s) := by
  unfold State.xoQualified
  try dsimp only
  repeat' (with_reducible first
    | assumption
    | exact Touch.refl
    | intro _
    | apply State.handover_touch
    | apply State.setFlag_touch
    | apply Touch.ite
    | split)
  all_goals with_reducible first
    | exact .inr rfl
    | exact Sub.trans (b := State.xoQualifiedMask) (by decide +kernel) hm
    | exact Has.sub (a := State.xoQualifiedMask) (by decide +kernel) hm
    | exact .inl (Has.sub (a := State.xoQualifiedMask) (by decide +kernel) hm)
    | exact Has.at (by decide) (Has.sub (a := State.xoQualifiedMask) (by decide +kernel) hm)
    | exact Has.cell (by decide) (Has.sub (a := State.xoQualifiedMask) (by decide +kernel) hm)
    | exact Has.cellNext (by decide) (Has.sub (a := State.xoQualifiedMask) (by decide +kernel) hm)
    | exact Has.ite (Has.sub (a := State.xoQualifiedMask) (by decide +kernel) hm) (Has.sub (a := State.xoQualifiedMask) (by decide +kernel) hm)
    | exact .inr (fun _ => rfl)
    | (intro _; rfl)
    | (intro _; simp; done)
    | (simp; assumption)
    | (refine .inr (fun _ => ?_); simp; done)
    | (refine .inr (fun _ => ?_); (repeat' split) <;> first | rfl | (simp; done))
    | (simp; done)

def State.timFollowMask : Nat :=
  State.timSetMask ||| rbit R.TIM_FLG

theorem State.timFollow_touch {msk : Nat} {s0 : State} {s : State} (hk : Touch msk s0 s) (hm : Sub State.timFollowMask msk) :
    Touch msk s0 (State.timFollow s) := by
  unfold State.timFollow
  try dsimp only
  repeat' (with_reducible first
    | assumption
    | exact Touch.refl
    | intro _
    | apply State.timSet_touch
    | apply State.setFlag_touch
    | apply Touch.ite
    | split)
  all_goals with_reducible first
    | exact .inr rfl
    | exact Sub.trans (b := State.timFollowMask) (by decide +kernel) hm
    | exact Has.sub (a := State.timFollowMask) (by decide +kernel) hm
    | exact .inl (Has.sub (a := State.timFollowMask) (by decide +kernel) hm)
    | exact Has.at (by decide) (Has.sub (a := State.timFollowMask) (by decide +kernel) hm)
    | exact Has.cell (by decide) (Has.sub (a := State.timFollowMask) (by decide +kernel) hm)
    | exact Has.cellNext (by decide) (Has.sub (a := State.timFollowMask) (by decide +kernel) hm)
    | exact Has.ite (Has.sub (a := State.timFollowMask) (by decide +kernel) hm) (Has.sub (a := State.timFollowMask) (by decide +kernel) hm)
    | exact .inr (fun _ => rfl)
    | (intro _; rfl)
    | (intro _; simp; done)
    | (simp; assumption)
    | (refine .inr (fun _ => ?_); simp; done)
    | (refine .inr (fun _ => ?_); (repeat' split) <;> first | rfl | (simp; done))
    | (simp; done)

def State.xoFailMask : Nat :=
  State.postMask ||| State.globalTripMask ||| State.proofTripsMask ||| State.lineStopMask ||| State.modClkMask |||
    State.clkStickMask ||| State.timFollowMask ||| rbit R.NMI_STAT ||| rbit R.CLK_STAT ||| rbit R.CLK_FALLCNT

theorem State.xoFail_touch {msk : Nat} {s0 : State} {s : State} {detail : Nat} (hk : Touch msk s0 s) (hm : Sub State.xoFailMask msk) :
    Touch msk s0 (State.xoFail s detail) := by
  unfold State.xoFail
  try dsimp only
  repeat' (with_reducible first
    | assumption
    | exact Touch.refl
    | intro _
    | apply State.post_touch
    | apply State.globalTrip_touch
    | apply State.proofTrips_touch
    | apply State.lineStop_touch
    | apply State.modClk_touch
    | apply State.clkStick_touch
    | apply State.timFollow_touch
    | apply State.setFlag_touch
    | apply State.incReg_touch
    | apply State.nmi_touch
    | apply Touch.ite
    | split)
  all_goals with_reducible first
    | exact .inr rfl
    | exact Sub.trans (b := State.xoFailMask) (by decide +kernel) hm
    | exact Has.sub (a := State.xoFailMask) (by decide +kernel) hm
    | exact .inl (Has.sub (a := State.xoFailMask) (by decide +kernel) hm)
    | exact Has.at (by decide) (Has.sub (a := State.xoFailMask) (by decide +kernel) hm)
    | exact Has.cell (by decide) (Has.sub (a := State.xoFailMask) (by decide +kernel) hm)
    | exact Has.cellNext (by decide) (Has.sub (a := State.xoFailMask) (by decide +kernel) hm)
    | exact Has.ite (Has.sub (a := State.xoFailMask) (by decide +kernel) hm) (Has.sub (a := State.xoFailMask) (by decide +kernel) hm)
    | exact .inr (fun _ => rfl)
    | (intro _; rfl)
    | (intro _; simp; done)
    | (simp; assumption)
    | (refine .inr (fun _ => ?_); simp; done)
    | (refine .inr (fun _ => ?_); (repeat' split) <;> first | rfl | (simp; done))
    | (simp; done)

def State.xoWindowMask : Nat :=
  State.modClkMask ||| State.handoverMask ||| State.xoQualifiedMask ||| State.xoFailMask ||| rbit R.CLK_STAT |||
    rbit R.CLK_XOCNT

theorem State.xoWindow_touch {msk : Nat} {s0 : State} {s : State} {n : Nat} (hk : Touch msk s0 s) (hm : Sub State.xoWindowMask msk) :
    Touch msk s0 (State.xoWindow s n) := by
  unfold State.xoWindow
  try dsimp only
  repeat' (with_reducible first
    | assumption
    | exact Touch.refl
    | intro _
    | apply Touch.setReg
    | apply State.modClk_touch
    | apply State.handover_touch
    | apply State.xoQualified_touch
    | apply State.xoFail_touch
    | apply State.setFlag_touch
    | (refine Touch.ofEq (by assumption) ?_)
    | apply Touch.ite
    | apply Touch.setReg
    | split)
  all_goals with_reducible first
    | exact .inr rfl
    | exact Sub.trans (b := State.xoWindowMask) (by decide +kernel) hm
    | exact Has.sub (a := State.xoWindowMask) (by decide +kernel) hm
    | exact .inl (Has.sub (a := State.xoWindowMask) (by decide +kernel) hm)
    | exact Has.at (by decide) (Has.sub (a := State.xoWindowMask) (by decide +kernel) hm)
    | exact Has.cell (by decide) (Has.sub (a := State.xoWindowMask) (by decide +kernel) hm)
    | exact Has.cellNext (by decide) (Has.sub (a := State.xoWindowMask) (by decide +kernel) hm)
    | exact Has.ite (Has.sub (a := State.xoWindowMask) (by decide +kernel) hm) (Has.sub (a := State.xoWindowMask) (by decide +kernel) hm)
    | exact .inr (fun _ => rfl)
    | (intro _; rfl)
    | (intro _; simp; done)
    | (simp; assumption)
    | (refine .inr (fun _ => ?_); simp; done)
    | (refine .inr (fun _ => ?_); (repeat' split) <;> first | rfl | (simp; done))
    | (simp; done)

def State.handoverEndMask : Nat :=
  State.postMask ||| State.modMacMask ||| State.modClkMask ||| State.clkStickMask ||| rbit R.CLK_STAT

theorem State.handoverEnd_touch {msk : Nat} {s0 : State} {s : State} (hk : Touch msk s0 s) (hm : Sub State.handoverEndMask msk) :
    Touch msk s0 (State.handoverEnd s) := by
  unfold State.handoverEnd
  try dsimp only
  repeat' (with_reducible first
    | assumption
    | exact Touch.refl
    | intro _
    | apply State.post_touch
    | apply State.modMac_touch
    | apply State.modClk_touch
    | apply State.clkStick_touch
    | apply State.setFlag_touch
    | apply Touch.ite
    | split)
  all_goals with_reducible first
    | exact .inr rfl
    | exact Sub.trans (b := State.handoverEndMask) (by decide +kernel) hm
    | exact Has.sub (a := State.handoverEndMask) (by decide +kernel) hm
    | exact .inl (Has.sub (a := State.handoverEndMask) (by decide +kernel) hm)
    | exact Has.at (by decide) (Has.sub (a := State.handoverEndMask) (by decide +kernel) hm)
    | exact Has.cell (by decide) (Has.sub (a := State.handoverEndMask) (by decide +kernel) hm)
    | exact Has.cellNext (by decide) (Has.sub (a := State.handoverEndMask) (by decide +kernel) hm)
    | exact Has.ite (Has.sub (a := State.handoverEndMask) (by decide +kernel) hm) (Has.sub (a := State.handoverEndMask) (by decide +kernel) hm)
    | exact .inr (fun _ => rfl)
    | (intro _; rfl)
    | (intro _; simp; done)
    | (simp; assumption)
    | (refine .inr (fun _ => ?_); simp; done)
    | (refine .inr (fun _ => ?_); (repeat' split) <;> first | rfl | (simp; done))
    | (simp; done)

def State.retXoMask : Nat :=
  State.modClkMask ||| State.handoverMask

theorem State.retXo_touch {msk : Nat} {s0 : State} {s : State} (hk : Touch msk s0 s) (hm : Sub State.retXoMask msk) :
    Touch msk s0 (State.retXo s) := by
  unfold State.retXo
  try dsimp only
  repeat' (with_reducible first
    | assumption
    | exact Touch.refl
    | intro _
    | apply State.modClk_touch
    | apply State.handover_touch
    | apply Touch.ite
    | split)
  all_goals with_reducible first
    | exact .inr rfl
    | exact Sub.trans (b := State.retXoMask) (by decide +kernel) hm
    | exact Has.sub (a := State.retXoMask) (by decide +kernel) hm
    | exact .inl (Has.sub (a := State.retXoMask) (by decide +kernel) hm)
    | exact Has.at (by decide) (Has.sub (a := State.retXoMask) (by decide +kernel) hm)
    | exact Has.cell (by decide) (Has.sub (a := State.retXoMask) (by decide +kernel) hm)
    | exact Has.cellNext (by decide) (Has.sub (a := State.retXoMask) (by decide +kernel) hm)
    | exact Has.ite (Has.sub (a := State.retXoMask) (by decide +kernel) hm) (Has.sub (a := State.retXoMask) (by decide +kernel) hm)
    | exact .inr (fun _ => rfl)
    | (intro _; rfl)
    | (intro _; simp; done)
    | (simp; assumption)
    | (refine .inr (fun _ => ?_); simp; done)
    | (refine .inr (fun _ => ?_); (repeat' split) <;> first | rfl | (simp; done))
    | (simp; done)

def State.clkCmdMask : Nat :=
  State.retXoMask

theorem State.clkCmd_touch {msk : Nat} {s0 : State} {s : State} {v : Word} (hk : Touch msk s0 s) (hm : Sub State.clkCmdMask msk) :
    Touch msk s0 (State.clkCmd s v) := by
  unfold State.clkCmd
  try dsimp only
  repeat' (with_reducible first
    | assumption
    | exact Touch.refl
    | intro _
    | apply State.retXo_touch
    | apply Touch.ite
    | split)
  all_goals with_reducible first
    | exact .inr rfl
    | exact Sub.trans (b := State.clkCmdMask) (by decide +kernel) hm
    | exact Has.sub (a := State.clkCmdMask) (by decide +kernel) hm
    | exact .inl (Has.sub (a := State.clkCmdMask) (by decide +kernel) hm)
    | exact Has.at (by decide) (Has.sub (a := State.clkCmdMask) (by decide +kernel) hm)
    | exact Has.cell (by decide) (Has.sub (a := State.clkCmdMask) (by decide +kernel) hm)
    | exact Has.cellNext (by decide) (Has.sub (a := State.clkCmdMask) (by decide +kernel) hm)
    | exact Has.ite (Has.sub (a := State.clkCmdMask) (by decide +kernel) hm) (Has.sub (a := State.clkCmdMask) (by decide +kernel) hm)
    | exact .inr (fun _ => rfl)
    | (intro _; rfl)
    | (intro _; simp; done)
    | (simp; assumption)
    | (refine .inr (fun _ => ?_); simp; done)
    | (refine .inr (fun _ => ?_); (repeat' split) <;> first | rfl | (simp; done))
    | (simp; done)

def State.ircCheckMask : Nat :=
  State.postMask ||| State.modClkMask ||| State.clockFatalMask ||| State.clkStickMask ||| rbit R.CLK_STAT ||| rbit
    R.CLK_IRCCNT

theorem State.ircCheck_touch {msk : Nat} {s0 : State} {s : State} {n : Nat} (hk : Touch msk s0 s) (hm : Sub State.ircCheckMask msk) :
    Touch msk s0 (State.ircCheck s n) := by
  unfold State.ircCheck
  try dsimp only
  repeat' (with_reducible first
    | assumption
    | exact Touch.refl
    | intro _
    | apply Touch.setReg
    | apply State.post_touch
    | apply State.modClk_touch
    | apply State.clockFatal_touch
    | apply State.clkStick_touch
    | apply State.setFlag_touch
    | apply Touch.ite
    | apply Touch.setReg
    | split)
  all_goals with_reducible first
    | exact .inr rfl
    | exact Sub.trans (b := State.ircCheckMask) (by decide +kernel) hm
    | exact Has.sub (a := State.ircCheckMask) (by decide +kernel) hm
    | exact .inl (Has.sub (a := State.ircCheckMask) (by decide +kernel) hm)
    | exact Has.at (by decide) (Has.sub (a := State.ircCheckMask) (by decide +kernel) hm)
    | exact Has.cell (by decide) (Has.sub (a := State.ircCheckMask) (by decide +kernel) hm)
    | exact Has.cellNext (by decide) (Has.sub (a := State.ircCheckMask) (by decide +kernel) hm)
    | exact Has.ite (Has.sub (a := State.ircCheckMask) (by decide +kernel) hm) (Has.sub (a := State.ircCheckMask) (by decide +kernel) hm)
    | exact .inr (fun _ => rfl)
    | (intro _; rfl)
    | (intro _; simp; done)
    | (simp; assumption)
    | (refine .inr (fun _ => ?_); simp; done)
    | (refine .inr (fun _ => ?_); (repeat' split) <;> first | rfl | (simp; done))
    | (simp; done)

def State.spreadNowMask : Nat :=
  State.modClkMask

theorem State.spreadNow_touch {msk : Nat} {s0 : State} {s : State} (hk : Touch msk s0 s) (hm : Sub State.spreadNowMask msk) :
    Touch msk s0 (State.spreadNow s) := by
  unfold State.spreadNow
  try dsimp only
  repeat' (with_reducible first
    | assumption
    | exact Touch.refl
    | intro _
    | apply State.modClk_touch)
  all_goals with_reducible first
    | exact .inr rfl
    | exact Sub.trans (b := State.spreadNowMask) (by decide +kernel) hm
    | exact Has.sub (a := State.spreadNowMask) (by decide +kernel) hm
    | exact .inl (Has.sub (a := State.spreadNowMask) (by decide +kernel) hm)
    | exact Has.at (by decide) (Has.sub (a := State.spreadNowMask) (by decide +kernel) hm)
    | exact Has.cell (by decide) (Has.sub (a := State.spreadNowMask) (by decide +kernel) hm)
    | exact Has.cellNext (by decide) (Has.sub (a := State.spreadNowMask) (by decide +kernel) hm)
    | exact Has.ite (Has.sub (a := State.spreadNowMask) (by decide +kernel) hm) (Has.sub (a := State.spreadNowMask) (by decide +kernel) hm)
    | exact .inr (fun _ => rfl)
    | (intro _; rfl)
    | (intro _; simp; done)
    | (simp; assumption)
    | (refine .inr (fun _ => ?_); simp; done)
    | (refine .inr (fun _ => ?_); (repeat' split) <;> first | rfl | (simp; done))
    | (simp; done)

end Sys2Proof.Machine
end

