-- ==== Sys2Proof/Laws/TouchPower.lean ====
section
/-! SUPPORT. What each operation of Machine/Power.lean may change: its mask, and the proof that it changes nothing else. -/

namespace Sys2Proof.Machine

set_option linter.unusedSimpArgs false
set_option Elab.async false

def State.keepStickMask : Nat :=
  State.stickMask ||| rbit R.KEEP_STAT

theorem State.keepStick_touch {msk : Nat} {s0 : State} {s : State} {f : Fld} (hk : Touch msk s0 s) (hm : Sub State.keepStickMask msk) :
    Touch msk s0 (State.keepStick s f) := by
  unfold State.keepStick
  try dsimp only
  repeat' (with_reducible first
    | assumption
    | exact Touch.refl
    | intro _
    | apply State.stick_touch)
  all_goals with_reducible first
    | exact .inr rfl
    | exact Sub.trans (b := State.keepStickMask) (by decide +kernel) hm
    | exact Has.sub (a := State.keepStickMask) (by decide +kernel) hm
    | exact .inl (Has.sub (a := State.keepStickMask) (by decide +kernel) hm)
    | exact Has.at (by decide) (Has.sub (a := State.keepStickMask) (by decide +kernel) hm)
    | exact Has.cell (by decide) (Has.sub (a := State.keepStickMask) (by decide +kernel) hm)
    | exact Has.cellNext (by decide) (Has.sub (a := State.keepStickMask) (by decide +kernel) hm)
    | exact Has.ite (Has.sub (a := State.keepStickMask) (by decide +kernel) hm) (Has.sub (a := State.keepStickMask) (by decide +kernel) hm)
    | exact .inr (fun _ => rfl)
    | (intro _; rfl)
    | (intro _; simp; done)
    | (simp; assumption)
    | (refine .inr (fun _ => ?_); simp; done)
    | (refine .inr (fun _ => ?_); (repeat' split) <;> first | rfl | (simp; done))
    | (simp; done)

def State.interruptEndMask : Nat :=
  State.holdRecMask ||| State.modKeepMask ||| rbit R.KEEP_OFFT ||| Part.drops.bit

theorem State.interruptEnd_touch {msk : Nat} {s0 : State} {s : State} {ges : Bool} (hk : Touch msk s0 s) (hm : Sub State.interruptEndMask msk) :
    Touch msk s0 (State.interruptEnd s ges) := by
  unfold State.interruptEnd
  try dsimp only
  repeat' (with_reducible first
    | assumption
    | exact Touch.refl
    | intro _
    | apply State.holdRec_touch
    | apply State.modKeep_touch
    | apply State.setFld_touch
    | apply Touch.ite
    | split)
  all_goals with_reducible first
    | exact .inr rfl
    | exact Sub.trans (b := State.interruptEndMask) (by decide +kernel) hm
    | exact Has.sub (a := State.interruptEndMask) (by decide +kernel) hm
    | exact .inl (Has.sub (a := State.interruptEndMask) (by decide +kernel) hm)
    | exact Has.at (by decide) (Has.sub (a := State.interruptEndMask) (by decide +kernel) hm)
    | exact Has.cell (by decide) (Has.sub (a := State.interruptEndMask) (by decide +kernel) hm)
    | exact Has.cellNext (by decide) (Has.sub (a := State.interruptEndMask) (by decide +kernel) hm)
    | exact Has.ite (Has.sub (a := State.interruptEndMask) (by decide +kernel) hm) (Has.sub (a := State.interruptEndMask) (by decide +kernel) hm)
    | exact .inr (fun _ => rfl)
    | (intro _; rfl)
    | (intro _; simp; done)
    | (simp; assumption)
    | (refine .inr (fun _ => ?_); simp; done)
    | (refine .inr (fun _ => ?_); (repeat' split) <;> first | rfl | (simp; done))
    | (simp; done)

def State.vauxStartMask : Nat :=
  State.hatIncMask ||| State.keepLiveMask ||| State.modClkMask ||| State.modPwrMask ||| State.lrstMask |||
    State.litEntryMask ||| rbit R.SYS_MODE ||| rbit R.SYS_RSTC ||| rbit R.PWR_STAT

theorem State.vauxStart_touch {msk : Nat} {s0 : State} {s : State} {cause : Nat} {strap : Bool} (hk : Touch msk s0 s) (hm : Sub State.vauxStartMask msk) :
    Touch msk s0 (State.vauxStart s cause strap) := by
  unfold State.vauxStart
  try dsimp only
  repeat' (with_reducible first
    | assumption
    | exact Touch.refl
    | intro _
    | apply State.hatInc_touch
    | apply State.keepLive_touch
    | apply State.modClk_touch
    | apply State.modPwr_touch
    | apply State.lrst_touch
    | apply State.litEntry_touch
    | apply State.setFlag_touch
    | apply Touch.ite
    | split)
  all_goals with_reducible first
    | exact .inr rfl
    | exact Sub.trans (b := State.vauxStartMask) (by decide +kernel) hm
    | exact Has.sub (a := State.vauxStartMask) (by decide +kernel) hm
    | exact .inl (Has.sub (a := State.vauxStartMask) (by decide +kernel) hm)
    | exact Has.at (by decide) (Has.sub (a := State.vauxStartMask) (by decide +kernel) hm)
    | exact Has.cell (by decide) (Has.sub (a := State.vauxStartMask) (by decide +kernel) hm)
    | exact Has.cellNext (by decide) (Has.sub (a := State.vauxStartMask) (by decide +kernel) hm)
    | exact Has.ite (Has.sub (a := State.vauxStartMask) (by decide +kernel) hm) (Has.sub (a := State.vauxStartMask) (by decide +kernel) hm)
    | exact .inr (fun _ => rfl)
    | (intro _; rfl)
    | (intro _; simp; done)
    | (simp; assumption)
    | (refine .inr (fun _ => ?_); simp; done)
    | (refine .inr (fun _ => ?_); (repeat' split) <;> first | rfl | (simp; done))
    | (simp; done)

def State.buildGoneMask : Nat :=
  State.postMask

theorem State.buildGone_touch {msk : Nat} {s0 : State} {s : State} {cfg : Bool} (hk : Touch msk s0 s) (hm : Sub State.buildGoneMask msk) :
    Touch msk s0 (State.buildGone s cfg) := by
  unfold State.buildGone
  try dsimp only
  repeat' (with_reducible first
    | assumption
    | exact Touch.refl
    | intro _
    | apply State.post_touch
    | apply Touch.ite
    | split)
  all_goals with_reducible first
    | exact .inr rfl
    | exact Sub.trans (b := State.buildGoneMask) (by decide +kernel) hm
    | exact Has.sub (a := State.buildGoneMask) (by decide +kernel) hm
    | exact .inl (Has.sub (a := State.buildGoneMask) (by decide +kernel) hm)
    | exact Has.at (by decide) (Has.sub (a := State.buildGoneMask) (by decide +kernel) hm)
    | exact Has.cell (by decide) (Has.sub (a := State.buildGoneMask) (by decide +kernel) hm)
    | exact Has.cellNext (by decide) (Has.sub (a := State.buildGoneMask) (by decide +kernel) hm)
    | exact Has.ite (Has.sub (a := State.buildGoneMask) (by decide +kernel) hm) (Has.sub (a := State.buildGoneMask) (by decide +kernel) hm)
    | exact .inr (fun _ => rfl)
    | (intro _; rfl)
    | (intro _; simp; done)
    | (simp; assumption)
    | (refine .inr (fun _ => ?_); simp; done)
    | (refine .inr (fun _ => ?_); (repeat' split) <;> first | rfl | (simp; done))
    | (simp; done)

def State.bundleCutMask : Nat :=
  State.useFreeMask ||| State.floorRaiseMask ||| State.modSecMask ||| State.buildGoneMask ||| Part.vlt.bit

theorem State.bundleCut_touch {msk : Nat} {s0 : State} {s : State} (hk : Touch msk s0 s) (hm : Sub State.bundleCutMask msk) :
    Touch msk s0 (State.bundleCut s) := by
  unfold State.bundleCut
  try dsimp only
  repeat' (with_reducible first
    | assumption
    | exact Touch.refl
    | intro _
    | apply State.useFree_touch
    | apply Touch.modVlt
    | apply State.floorRaise_touch
    | apply State.modSec_touch
    | apply State.buildGone_touch
    | (refine Touch.ofEq (by assumption) ?_)
    | apply Touch.ite
    | split)
  all_goals with_reducible first
    | exact .inr rfl
    | exact Sub.trans (b := State.bundleCutMask) (by decide +kernel) hm
    | exact Has.sub (a := State.bundleCutMask) (by decide +kernel) hm
    | exact .inl (Has.sub (a := State.bundleCutMask) (by decide +kernel) hm)
    | exact Has.at (by decide) (Has.sub (a := State.bundleCutMask) (by decide +kernel) hm)
    | exact Has.cell (by decide) (Has.sub (a := State.bundleCutMask) (by decide +kernel) hm)
    | exact Has.cellNext (by decide) (Has.sub (a := State.bundleCutMask) (by decide +kernel) hm)
    | exact Has.ite (Has.sub (a := State.bundleCutMask) (by decide +kernel) hm) (Has.sub (a := State.bundleCutMask) (by decide +kernel) hm)
    | exact .inr (fun _ => rfl)
    | (intro _; rfl)
    | (intro _; simp; done)
    | (simp; assumption)
    | (refine .inr (fun _ => ?_); simp; done)
    | (refine .inr (fun _ => ?_); (repeat' split) <;> first | rfl | (simp; done))
    | (simp; done)

def State.buildsAbandonMask : Nat :=
  State.saveShowMask ||| State.buildGoneMask ||| State.bundleCutMask ||| Part.vlt.bit

theorem State.buildsAbandon_touch {msk : Nat} {s0 : State} {s : State} (hk : Touch msk s0 s) (hm : Sub State.buildsAbandonMask msk) :
    Touch msk s0 (State.buildsAbandon s) := by
  unfold State.buildsAbandon
  try dsimp only
  repeat' (with_reducible first
    | assumption
    | exact Touch.refl
    | intro _
    | apply Touch.modVlt
    | apply State.saveShow_touch
    | apply State.buildGone_touch
    | apply State.bundleCut_touch
    | (refine Touch.ofEq (by assumption) ?_)
    | apply Touch.foldl
    | apply Touch.foldlFst
    | split)
  all_goals with_reducible first
    | exact .inr rfl
    | exact Sub.trans (b := State.buildsAbandonMask) (by decide +kernel) hm
    | exact Has.sub (a := State.buildsAbandonMask) (by decide +kernel) hm
    | exact .inl (Has.sub (a := State.buildsAbandonMask) (by decide +kernel) hm)
    | exact Has.at (by decide) (Has.sub (a := State.buildsAbandonMask) (by decide +kernel) hm)
    | exact Has.cell (by decide) (Has.sub (a := State.buildsAbandonMask) (by decide +kernel) hm)
    | exact Has.cellNext (by decide) (Has.sub (a := State.buildsAbandonMask) (by decide +kernel) hm)
    | exact Has.ite (Has.sub (a := State.buildsAbandonMask) (by decide +kernel) hm) (Has.sub (a := State.buildsAbandonMask) (by decide +kernel) hm)
    | exact .inr (fun _ => rfl)
    | (intro _; rfl)
    | (intro _; simp; done)
    | (simp; assumption)
    | (refine .inr (fun _ => ?_); simp; done)
    | (refine .inr (fun _ => ?_); (repeat' split) <;> first | rfl | (simp; done))
    | (simp; done)

def State.offBeginMask : Nat :=
  State.modKeepMask

theorem State.offBegin_touch {msk : Nat} {s0 : State} {s : State} (hk : Touch msk s0 s) (hm : Sub State.offBeginMask msk) :
    Touch msk s0 (State.offBegin s) := by
  unfold State.offBegin
  try dsimp only
  repeat' (with_reducible first
    | assumption
    | exact Touch.refl
    | intro _
    | apply State.modKeep_touch
    | apply Touch.ite
    | split)
  all_goals with_reducible first
    | exact .inr rfl
    | exact Sub.trans (b := State.offBeginMask) (by decide +kernel) hm
    | exact Has.sub (a := State.offBeginMask) (by decide +kernel) hm
    | exact .inl (Has.sub (a := State.offBeginMask) (by decide +kernel) hm)
    | exact Has.at (by decide) (Has.sub (a := State.offBeginMask) (by decide +kernel) hm)
    | exact Has.cell (by decide) (Has.sub (a := State.offBeginMask) (by decide +kernel) hm)
    | exact Has.cellNext (by decide) (Has.sub (a := State.offBeginMask) (by decide +kernel) hm)
    | exact Has.ite (Has.sub (a := State.offBeginMask) (by decide +kernel) hm) (Has.sub (a := State.offBeginMask) (by decide +kernel) hm)
    | exact .inr (fun _ => rfl)
    | (intro _; rfl)
    | (intro _; simp; done)
    | (simp; assumption)
    | (refine .inr (fun _ => ?_); simp; done)
    | (refine .inr (fun _ => ?_); (repeat' split) <;> first | rfl | (simp; done))
    | (simp; done)

def State.mainsLossMask : Nat :=
  State.holdRecMask ||| State.keepLiveMask ||| State.proofAllOffMask ||| State.lineAbandonMask ||| State.modPwrMask
    ||| State.vaultCutMask ||| State.buildsAbandonMask ||| State.offBeginMask ||| rbit R.NMI_STAT ||| rbit
    R.PWR_STAT

theorem State.mainsLoss_touch {msk : Nat} {s0 : State} {s : State} {zcs : Bool} (hk : Touch msk s0 s) (hm : Sub State.mainsLossMask msk) :
    Touch msk s0 (State.mainsLoss s zcs) := by
  unfold State.mainsLoss
  try dsimp only
  repeat' (with_reducible first
    | assumption
    | exact Touch.refl
    | intro _
    | apply State.holdRec_touch
    | apply State.keepLive_touch
    | apply State.proofAllOff_touch
    | apply State.lineAbandon_touch
    | apply State.modPwr_touch
    | apply State.vaultCut_touch
    | apply State.buildsAbandon_touch
    | apply State.offBegin_touch
    | apply State.setFlag_touch
    | apply State.nmi_touch
    | apply Touch.ite
    | split)
  all_goals with_reducible first
    | exact .inr rfl
    | exact Sub.trans (b := State.mainsLossMask) (by decide +kernel) hm
    | exact Has.sub (a := State.mainsLossMask) (by decide +kernel) hm
    | exact .inl (Has.sub (a := State.mainsLossMask) (by decide +kernel) hm)
    | exact Has.at (by decide) (Has.sub (a := State.mainsLossMask) (by decide +kernel) hm)
    | exact Has.cell (by decide) (Has.sub (a := State.mainsLossMask) (by decide +kernel) hm)
    | exact Has.cellNext (by decide) (Has.sub (a := State.mainsLossMask) (by decide +kernel) hm)
    | exact Has.ite (Has.sub (a := State.mainsLossMask) (by decide +kernel) hm) (Has.sub (a := State.mainsLossMask) (by decide +kernel) hm)
    | exact .inr (fun _ => rfl)
    | (intro _; rfl)
    | (intro _; simp; done)
    | (simp; assumption)
    | (refine .inr (fun _ => ?_); simp; done)
    | (refine .inr (fun _ => ?_); (repeat' split) <;> first | rfl | (simp; done))
    | (simp; done)

def State.reserveMask : Nat :=
  State.modPwrMask ||| rbit R.KEEP_RSVREQ_LO ||| rbit R.KEEP_RSVREQ_HI

theorem State.reserve_touch {msk : Nat} {s0 : State} {s : State} (hk : Touch msk s0 s) (hm : Sub State.reserveMask msk) :
    Touch msk s0 (State.reserve s) := by
  unfold State.reserve
  try dsimp only
  repeat' (with_reducible first
    | assumption
    | exact Touch.refl
    | intro _
    | apply State.modPwr_touch
    | apply State.setPair_touch)
  all_goals with_reducible first
    | exact .inr rfl
    | exact Sub.trans (b := State.reserveMask) (by decide +kernel) hm
    | exact Has.sub (a := State.reserveMask) (by decide +kernel) hm
    | exact .inl (Has.sub (a := State.reserveMask) (by decide +kernel) hm)
    | exact Has.at (by decide) (Has.sub (a := State.reserveMask) (by decide +kernel) hm)
    | exact Has.cell (by decide) (Has.sub (a := State.reserveMask) (by decide +kernel) hm)
    | exact Has.cellNext (by decide) (Has.sub (a := State.reserveMask) (by decide +kernel) hm)
    | exact Has.ite (Has.sub (a := State.reserveMask) (by decide +kernel) hm) (Has.sub (a := State.reserveMask) (by decide +kernel) hm)
    | exact .inr (fun _ => rfl)
    | (intro _; rfl)
    | (intro _; simp; done)
    | (simp; assumption)
    | (refine .inr (fun _ => ?_); simp; done)
    | (refine .inr (fun _ => ?_); (repeat' split) <;> first | rfl | (simp; done))
    | (simp; done)

def State.keepTimeLoadMask : Nat :=
  State.vRecordMask ||| State.modKeepMask ||| State.stopAllMask ||| State.gtuKeepMask ||| State.q6LostMask |||
    State.modPwrMask ||| State.reserveMask ||| rbit R.TIM_FLG

theorem State.keepTimeLoad_touch {msk : Nat} {s0 : State} {s : State} (hk : Touch msk s0 s) (hm : Sub State.keepTimeLoadMask msk) :
    Touch msk s0 (State.keepTimeLoad s) := by
  unfold State.keepTimeLoad
  try dsimp only
  repeat' (with_reducible first
    | assumption
    | exact Touch.refl
    | intro _
    | apply State.vRecord_touch
    | apply State.modKeep_touch
    | apply State.stopAll_touch
    | apply State.gtuKeep_touch
    | apply State.q6Lost_touch
    | apply State.modPwr_touch
    | apply State.reserve_touch
    | apply State.setFlag_touch
    | apply Touch.ite
    | split)
  all_goals with_reducible first
    | exact .inr rfl
    | exact Sub.trans (b := State.keepTimeLoadMask) (by decide +kernel) hm
    | exact Has.sub (a := State.keepTimeLoadMask) (by decide +kernel) hm
    | exact .inl (Has.sub (a := State.keepTimeLoadMask) (by decide +kernel) hm)
    | exact Has.at (by decide) (Has.sub (a := State.keepTimeLoadMask) (by decide +kernel) hm)
    | exact Has.cell (by decide) (Has.sub (a := State.keepTimeLoadMask) (by decide +kernel) hm)
    | exact Has.cellNext (by decide) (Has.sub (a := State.keepTimeLoadMask) (by decide +kernel) hm)
    | exact Has.ite (Has.sub (a := State.keepTimeLoadMask) (by decide +kernel) hm) (Has.sub (a := State.keepTimeLoadMask) (by decide +kernel) hm)
    | exact .inr (fun _ => rfl)
    | (intro _; rfl)
    | (intro _; simp; done)
    | (simp; assumption)
    | (refine .inr (fun _ => ?_); simp; done)
    | (refine .inr (fun _ => ?_); (repeat' split) <;> first | rfl | (simp; done))
    | (simp; done)

def State.reserveAnswerMask : Nat :=
  State.holdRecMask ||| State.commitStartMask ||| State.keepLiveMask ||| State.q6LostMask ||| State.q6BurstMask |||
    State.modPwrMask ||| State.keepStickMask ||| rbit R.KEEP_VSTORE ||| Part.last.bit ||| Part.vlt.bit

theorem State.reserveAnswer_touch {msk : Nat} {s0 : State} {s : State} {vstore : Word} (hk : Touch msk s0 s) (hm : Sub State.reserveAnswerMask msk) :
    Touch msk s0 (State.reserveAnswer s vstore) := by
  unfold State.reserveAnswer
  try dsimp only
  repeat' (with_reducible first
    | assumption
    | exact Touch.refl
    | intro _
    | apply Touch.setReg
    | apply State.holdRec_touch
    | apply Touch.modVlt
    | apply State.commitStart_touch
    | apply State.keepLive_touch
    | apply State.q6Lost_touch
    | apply State.q6Burst_touch
    | apply State.modPwr_touch
    | apply State.keepStick_touch
    | apply Touch.ite
    | apply Touch.setReg
    | split)
  all_goals with_reducible first
    | exact .inr rfl
    | exact Sub.trans (b := State.reserveAnswerMask) (by decide +kernel) hm
    | exact Has.sub (a := State.reserveAnswerMask) (by decide +kernel) hm
    | exact .inl (Has.sub (a := State.reserveAnswerMask) (by decide +kernel) hm)
    | exact Has.at (by decide) (Has.sub (a := State.reserveAnswerMask) (by decide +kernel) hm)
    | exact Has.cell (by decide) (Has.sub (a := State.reserveAnswerMask) (by decide +kernel) hm)
    | exact Has.cellNext (by decide) (Has.sub (a := State.reserveAnswerMask) (by decide +kernel) hm)
    | exact Has.ite (Has.sub (a := State.reserveAnswerMask) (by decide +kernel) hm) (Has.sub (a := State.reserveAnswerMask) (by decide +kernel) hm)
    | exact .inr (fun _ => rfl)
    | (intro _; rfl)
    | (intro _; simp; done)
    | (simp; assumption)
    | (refine .inr (fun _ => ?_); simp; done)
    | (refine .inr (fun _ => ?_); (repeat' split) <;> first | rfl | (simp; done))
    | (simp; done)

def State.keepEnterMask : Nat :=
  State.holdRecMask ||| State.modKeepMask ||| State.keepLiveMask ||| State.modPwrMask ||| State.coreResetMask |||
    State.vauxStartMask ||| rbit R.KEEP_VSTORE ||| rbit R.KEEP_RSVUSE_LO ||| rbit R.KEEP_RSVUSE_HI

theorem State.keepEnter_touch {msk : Nat} {s0 : State} {s : State} {vstore : Word} (hk : Touch msk s0 s) (hm : Sub State.keepEnterMask msk) :
    Touch msk s0 (State.keepEnter s vstore) := by
  unfold State.keepEnter
  try dsimp only
  repeat' (with_reducible first
    | assumption
    | exact Touch.refl
    | intro _
    | apply Touch.setReg
    | apply State.holdRec_touch
    | apply State.modKeep_touch
    | apply State.keepLive_touch
    | apply State.modPwr_touch
    | apply State.coreReset_touch
    | apply State.vauxStart_touch
    | apply State.setPair_touch
    | apply Touch.ite
    | apply Touch.setReg
    | split)
  all_goals with_reducible first
    | exact .inr rfl
    | exact Sub.trans (b := State.keepEnterMask) (by decide +kernel) hm
    | exact Has.sub (a := State.keepEnterMask) (by decide +kernel) hm
    | exact .inl (Has.sub (a := State.keepEnterMask) (by decide +kernel) hm)
    | exact Has.at (by decide) (Has.sub (a := State.keepEnterMask) (by decide +kernel) hm)
    | exact Has.cell (by decide) (Has.sub (a := State.keepEnterMask) (by decide +kernel) hm)
    | exact Has.cellNext (by decide) (Has.sub (a := State.keepEnterMask) (by decide +kernel) hm)
    | exact Has.ite (Has.sub (a := State.keepEnterMask) (by decide +kernel) hm) (Has.sub (a := State.keepEnterMask) (by decide +kernel) hm)
    | exact .inr (fun _ => rfl)
    | (intro _; rfl)
    | (intro _; simp; done)
    | (simp; assumption)
    | (refine .inr (fun _ => ?_); simp; done)
    | (refine .inr (fun _ => ?_); (repeat' split) <;> first | rfl | (simp; done))
    | (simp; done)

def State.holdChangeMask : Nat :=
  State.pwmHoldMask ||| State.pwmResumeMask

theorem State.holdChange_touch {msk : Nat} {s0 : State} {s : State} {f : State → State} (hk : Touch msk s0 s) (hm : Sub State.holdChangeMask msk) (hf : ∀ u0, Touch msk s0 u0 → Touch msk s0 (f u0)) :
    Touch msk s0 (State.holdChange s f) := by
  unfold State.holdChange
  try dsimp only
  repeat' (with_reducible first
    | assumption
    | exact Touch.refl
    | intro _
    | apply State.pwmHold_touch
    | apply State.pwmResume_touch
    | apply hf
    | apply Touch.ite
    | split)
  all_goals with_reducible first
    | exact .inr rfl
    | exact Sub.trans (b := State.holdChangeMask) (by decide +kernel) hm
    | exact Has.sub (a := State.holdChangeMask) (by decide +kernel) hm
    | exact .inl (Has.sub (a := State.holdChangeMask) (by decide +kernel) hm)
    | exact Has.at (by decide) (Has.sub (a := State.holdChangeMask) (by decide +kernel) hm)
    | exact Has.cell (by decide) (Has.sub (a := State.holdChangeMask) (by decide +kernel) hm)
    | exact Has.cellNext (by decide) (Has.sub (a := State.holdChangeMask) (by decide +kernel) hm)
    | exact Has.ite (Has.sub (a := State.holdChangeMask) (by decide +kernel) hm) (Has.sub (a := State.holdChangeMask) (by decide +kernel) hm)
    | exact .inr (fun _ => rfl)
    | (intro _; rfl)
    | (intro _; simp; done)
    | (simp; assumption)
    | (refine .inr (fun _ => ?_); simp; done)
    | (refine .inr (fun _ => ?_); (repeat' split) <;> first | rfl | (simp; done))
    | (simp; done)

def State.hwdKickMask : Nat :=
  State.modPwrMask ||| rbit R.HWD_CTL

theorem State.hwdKick_touch {msk : Nat} {s0 : State} {s : State} {v : Word} (hk : Touch msk s0 s) (hm : Sub State.hwdKickMask msk) :
    Touch msk s0 (State.hwdKick s v) := by
  unfold State.hwdKick
  try dsimp only
  repeat' (with_reducible first
    | assumption
    | exact Touch.refl
    | intro _
    | apply State.modPwr_touch
    | apply State.setFlag_touch
    | apply Touch.ite
    | split)
  all_goals with_reducible first
    | exact .inr rfl
    | exact Sub.trans (b := State.hwdKickMask) (by decide +kernel) hm
    | exact Has.sub (a := State.hwdKickMask) (by decide +kernel) hm
    | exact .inl (Has.sub (a := State.hwdKickMask) (by decide +kernel) hm)
    | exact Has.at (by decide) (Has.sub (a := State.hwdKickMask) (by decide +kernel) hm)
    | exact Has.cell (by decide) (Has.sub (a := State.hwdKickMask) (by decide +kernel) hm)
    | exact Has.cellNext (by decide) (Has.sub (a := State.hwdKickMask) (by decide +kernel) hm)
    | exact Has.ite (Has.sub (a := State.hwdKickMask) (by decide +kernel) hm) (Has.sub (a := State.hwdKickMask) (by decide +kernel) hm)
    | exact .inr (fun _ => rfl)
    | (intro _; rfl)
    | (intro _; simp; done)
    | (simp; assumption)
    | (refine .inr (fun _ => ?_); simp; done)
    | (refine .inr (fun _ => ?_); (repeat' split) <;> first | rfl | (simp; done))
    | (simp; done)

def State.goWriteMask : Nat :=
  State.modPwrMask ||| rbit R.SYS_MODE

theorem State.goWrite_touch {msk : Nat} {s0 : State} {s : State} (hk : Touch msk s0 s) (hm : Sub State.goWriteMask msk) :
    Touch msk s0 (State.goWrite s) := by
  unfold State.goWrite
  try dsimp only
  repeat' (with_reducible first
    | assumption
    | exact Touch.refl
    | intro _
    | apply State.modPwr_touch
    | apply State.setFlag_touch
    | apply Touch.ite
    | split)
  all_goals with_reducible first
    | exact .inr rfl
    | exact Sub.trans (b := State.goWriteMask) (by decide +kernel) hm
    | exact Has.sub (a := State.goWriteMask) (by decide +kernel) hm
    | exact .inl (Has.sub (a := State.goWriteMask) (by decide +kernel) hm)
    | exact Has.at (by decide) (Has.sub (a := State.goWriteMask) (by decide +kernel) hm)
    | exact Has.cell (by decide) (Has.sub (a := State.goWriteMask) (by decide +kernel) hm)
    | exact Has.cellNext (by decide) (Has.sub (a := State.goWriteMask) (by decide +kernel) hm)
    | exact Has.ite (Has.sub (a := State.goWriteMask) (by decide +kernel) hm) (Has.sub (a := State.goWriteMask) (by decide +kernel) hm)
    | exact .inr (fun _ => rfl)
    | (intro _; rfl)
    | (intro _; simp; done)
    | (simp; assumption)
    | (refine .inr (fun _ => ?_); simp; done)
    | (refine .inr (fun _ => ?_); (repeat' split) <;> first | rfl | (simp; done))
    | (simp; done)

def State.sysCtlMask : Nat :=
  State.softResetMask ||| State.holdChangeMask ||| State.goWriteMask ||| rbit R.SYS_CTL

theorem State.sysCtl_touch {msk : Nat} {s0 : State} {s : State} {p : Path} {v : Word} (hk : Touch msk s0 s) (hm : Sub State.sysCtlMask msk) :
    Touch msk s0 (State.sysCtl s p v) := by
  unfold State.sysCtl
  try dsimp only
  repeat' (with_reducible first
    | assumption
    | exact Touch.refl
    | intro _
    | apply State.softReset_touch
    | apply State.holdChange_touch
    | apply State.goWrite_touch
    | apply State.setFlag_touch
    | apply Touch.ite
    | split)
  all_goals with_reducible first
    | exact .inr rfl
    | exact Sub.trans (b := State.sysCtlMask) (by decide +kernel) hm
    | exact Has.sub (a := State.sysCtlMask) (by decide +kernel) hm
    | exact .inl (Has.sub (a := State.sysCtlMask) (by decide +kernel) hm)
    | exact Has.at (by decide) (Has.sub (a := State.sysCtlMask) (by decide +kernel) hm)
    | exact Has.cell (by decide) (Has.sub (a := State.sysCtlMask) (by decide +kernel) hm)
    | exact Has.cellNext (by decide) (Has.sub (a := State.sysCtlMask) (by decide +kernel) hm)
    | exact Has.ite (Has.sub (a := State.sysCtlMask) (by decide +kernel) hm) (Has.sub (a := State.sysCtlMask) (by decide +kernel) hm)
    | exact .inr (fun _ => rfl)
    | (intro _; rfl)
    | (intro _; simp; done)
    | (simp; assumption)
    | (refine .inr (fun _ => ?_); simp; done)
    | (refine .inr (fun _ => ?_); (repeat' split) <;> first | rfl | (simp; done))
    | (simp; done)

def State.failoverMask : Nat :=
  State.slotEmptyMask ||| rbit R.SYS_MODE ||| rbit R.SYS_RSTC ||| rbit R.HWD_CTL

theorem State.failover_touch {msk : Nat} {s0 : State} {s : State} (hk : Touch msk s0 s) (hm : Sub State.failoverMask msk) :
    Touch msk s0 (State.failover s) := by
  unfold State.failover
  try dsimp only
  repeat' (with_reducible first
    | assumption
    | exact Touch.refl
    | intro _
    | apply State.slotEmpty_touch
    | apply State.setFlag_touch
    | apply Touch.foldl
    | apply Touch.foldlFst)
  all_goals with_reducible first
    | exact .inr rfl
    | exact Sub.trans (b := State.failoverMask) (by decide +kernel) hm
    | exact Has.sub (a := State.failoverMask) (by decide +kernel) hm
    | exact .inl (Has.sub (a := State.failoverMask) (by decide +kernel) hm)
    | exact Has.at (by decide) (Has.sub (a := State.failoverMask) (by decide +kernel) hm)
    | exact Has.cell (by decide) (Has.sub (a := State.failoverMask) (by decide +kernel) hm)
    | exact Has.cellNext (by decide) (Has.sub (a := State.failoverMask) (by decide +kernel) hm)
    | exact Has.ite (Has.sub (a := State.failoverMask) (by decide +kernel) hm) (Has.sub (a := State.failoverMask) (by decide +kernel) hm)
    | exact .inr (fun _ => rfl)
    | (intro _; rfl)
    | (intro _; simp; done)
    | (simp; assumption)
    | (refine .inr (fun _ => ?_); simp; done)
    | (refine .inr (fun _ => ?_); (repeat' split) <;> first | rfl | (simp; done))
    | (simp; done)

def State.vauxFallMask : Nat :=
  State.holdRecMask ||| State.keepLiveMask ||| State.modPwrMask ||| State.offBeginMask ||| rbit R.PWR_STAT

theorem State.vauxFall_touch {msk : Nat} {s0 : State} {s : State} (hk : Touch msk s0 s) (hm : Sub State.vauxFallMask msk) :
    Touch msk s0 (State.vauxFall s) := by
  unfold State.vauxFall
  try dsimp only
  repeat' (with_reducible first
    | assumption
    | exact Touch.refl
    | intro _
    | apply State.holdRec_touch
    | apply State.keepLive_touch
    | apply State.modPwr_touch
    | apply State.offBegin_touch
    | apply State.setFlag_touch
    | apply Touch.ite
    | split)
  all_goals with_reducible first
    | exact .inr rfl
    | exact Sub.trans (b := State.vauxFallMask) (by decide +kernel) hm
    | exact Has.sub (a := State.vauxFallMask) (by decide +kernel) hm
    | exact .inl (Has.sub (a := State.vauxFallMask) (by decide +kernel) hm)
    | exact Has.at (by decide) (Has.sub (a := State.vauxFallMask) (by decide +kernel) hm)
    | exact Has.cell (by decide) (Has.sub (a := State.vauxFallMask) (by decide +kernel) hm)
    | exact Has.cellNext (by decide) (Has.sub (a := State.vauxFallMask) (by decide +kernel) hm)
    | exact Has.ite (Has.sub (a := State.vauxFallMask) (by decide +kernel) hm) (Has.sub (a := State.vauxFallMask) (by decide +kernel) hm)
    | exact .inr (fun _ => rfl)
    | (intro _; rfl)
    | (intro _; simp; done)
    | (simp; assumption)
    | (refine .inr (fun _ => ?_); simp; done)
    | (refine .inr (fun _ => ?_); (repeat' split) <;> first | rfl | (simp; done))
    | (simp; done)

end Sys2Proof.Machine
end

