-- ==== Sys2Proof/Laws/TouchKeep.lean ====
section
/-! SUPPORT. What each operation of Machine/Keep.lean may change: its mask, and the proof that it changes nothing else. -/

namespace Sys2Proof.Machine

set_option linter.unusedSimpArgs false
set_option Elab.async false

def State.gaugeTickMask : Nat :=
  State.hatIncMask ||| State.modKeepMask ||| rbit R.KEEP_STAT ||| rbit R.KEEP_EHARV_LO ||| rbit R.KEEP_EHARV_HI |||
    rbit R.KEEP_LOAD

theorem State.gaugeTick_touch {msk : Nat} {s0 : State} {s : State} {cls : Nat} {uj : Nat} (hk : Touch msk s0 s) (hm : Sub State.gaugeTickMask msk) :
    Touch msk s0 (State.gaugeTick s cls uj) := by
  unfold State.gaugeTick
  try dsimp only
  repeat' (with_reducible first
    | assumption
    | exact Touch.refl
    | intro _
    | apply State.hatInc_touch
    | apply State.modKeep_touch
    | apply State.setFld_touch
    | apply State.setFlag_touch
    | apply State.setPair_touch
    | apply Touch.ite
    | split)
  all_goals with_reducible first
    | exact .inr rfl
    | exact Sub.trans (b := State.gaugeTickMask) (by decide +kernel) hm
    | exact Has.sub (a := State.gaugeTickMask) (by decide +kernel) hm
    | exact .inl (Has.sub (a := State.gaugeTickMask) (by decide +kernel) hm)
    | exact Has.at (by decide) (Has.sub (a := State.gaugeTickMask) (by decide +kernel) hm)
    | exact Has.cell (by decide) (Has.sub (a := State.gaugeTickMask) (by decide +kernel) hm)
    | exact Has.cellNext (by decide) (Has.sub (a := State.gaugeTickMask) (by decide +kernel) hm)
    | exact Has.ite (Has.sub (a := State.gaugeTickMask) (by decide +kernel) hm) (Has.sub (a := State.gaugeTickMask) (by decide +kernel) hm)
    | exact .inr (fun _ => rfl)
    | (intro _; rfl)
    | (intro _; simp; done)
    | (simp; assumption)
    | (refine .inr (fun _ => ?_); simp; done)
    | (refine .inr (fun _ => ?_); (repeat' split) <;> first | rfl | (simp; done))
    | (simp; done)

def State.cellNeededMask : Nat :=
  State.modKeepMask ||| State.keepLiveMask ||| State.postOrHoldMask ||| State.keepStickMask ||| rbit R.KEEP_VSTORE
    ||| rbit R.KEEP_VCELL

theorem State.cellNeeded_touch {msk : Nat} {s0 : State} {s : State} {vstore : Word} {vcell : Word} (hk : Touch msk s0 s) (hm : Sub State.cellNeededMask msk) :
    Touch msk s0 (State.cellNeeded s vstore vcell) := by
  unfold State.cellNeeded
  try dsimp only
  repeat' (with_reducible first
    | assumption
    | exact Touch.refl
    | intro _
    | apply Touch.setReg
    | apply State.modKeep_touch
    | apply State.keepLive_touch
    | apply State.postOrHold_touch
    | apply State.keepStick_touch
    | apply Touch.ite
    | apply Touch.setReg
    | split)
  all_goals with_reducible first
    | exact .inr rfl
    | exact Sub.trans (b := State.cellNeededMask) (by decide +kernel) hm
    | exact Has.sub (a := State.cellNeededMask) (by decide +kernel) hm
    | exact .inl (Has.sub (a := State.cellNeededMask) (by decide +kernel) hm)
    | exact Has.at (by decide) (Has.sub (a := State.cellNeededMask) (by decide +kernel) hm)
    | exact Has.cell (by decide) (Has.sub (a := State.cellNeededMask) (by decide +kernel) hm)
    | exact Has.cellNext (by decide) (Has.sub (a := State.cellNeededMask) (by decide +kernel) hm)
    | exact Has.ite (Has.sub (a := State.cellNeededMask) (by decide +kernel) hm) (Has.sub (a := State.cellNeededMask) (by decide +kernel) hm)
    | exact .inr (fun _ => rfl)
    | (intro _; rfl)
    | (intro _; simp; done)
    | (simp; assumption)
    | (refine .inr (fun _ => ?_); simp; done)
    | (refine .inr (fun _ => ?_); (repeat' split) <;> first | rfl | (simp; done))
    | (simp; done)

def State.mppReadMask : Nat :=
  State.postOrHoldMask ||| State.keepStickMask ||| rbit R.KEEP_MPP

theorem State.mppRead_touch {msk : Nat} {s0 : State} {s : State} {x : Nat} (hk : Touch msk s0 s) (hm : Sub State.mppReadMask msk) :
    Touch msk s0 (State.mppRead s x) := by
  unfold State.mppRead
  try dsimp only
  repeat' (with_reducible first
    | assumption
    | exact Touch.refl
    | intro _
    | apply Touch.setReg
    | apply State.postOrHold_touch
    | apply State.keepStick_touch
    | apply Touch.ite
    | apply Touch.setReg
    | split)
  all_goals with_reducible first
    | exact .inr rfl
    | exact Sub.trans (b := State.mppReadMask) (by decide +kernel) hm
    | exact Has.sub (a := State.mppReadMask) (by decide +kernel) hm
    | exact .inl (Has.sub (a := State.mppReadMask) (by decide +kernel) hm)
    | exact Has.at (by decide) (Has.sub (a := State.mppReadMask) (by decide +kernel) hm)
    | exact Has.cell (by decide) (Has.sub (a := State.mppReadMask) (by decide +kernel) hm)
    | exact Has.cellNext (by decide) (Has.sub (a := State.mppReadMask) (by decide +kernel) hm)
    | exact Has.ite (Has.sub (a := State.mppReadMask) (by decide +kernel) hm) (Has.sub (a := State.mppReadMask) (by decide +kernel) hm)
    | exact .inr (fun _ => rfl)
    | (intro _; rfl)
    | (intro _; simp; done)
    | (simp; assumption)
    | (refine .inr (fun _ => ?_); simp; done)
    | (refine .inr (fun _ => ?_); (repeat' split) <;> first | rfl | (simp; done))
    | (simp; done)

end Sys2Proof.Machine
end

