-- ==== Sys2Proof/Laws/TouchSave.lean ====
section
/-! SUPPORT. What each operation of Machine/Save.lean may change: its mask, and the proof that it changes nothing else. -/

namespace Sys2Proof.Machine

set_option linter.unusedSimpArgs false
set_option Elab.async false

@[simp] theorem VltState.bankPut_flash {v : VltState} {c : Bool} {n : Nat} {b : Bank} {l : List Byte} : (v.bankPut c n b l).flash = v.flash := by
  simp [VltState.bankPut]


@[simp] theorem VltState.bankPut_last {v : VltState} {c : Bool} {n : Nat} {b : Bank} {l : List Byte} : (v.bankPut c n b l).last = v.last := by
  simp [VltState.bankPut]


@[simp] theorem VltState.bankPut_dropped {v : VltState} {c : Bool} {n : Nat} {b : Bank} {l : List Byte} : (v.bankPut c n b l).dropped = v.dropped := by
  simp [VltState.bankPut]


def State.queueSaveMask : Nat :=
  State.vRefuseMask ||| State.vOperateMask ||| State.saveShowMask

theorem State.queueSave_touch {msk : Nat} {s0 : State} {s : State} {cfg : Bool} {owner : Nat} {b : Bank} (hk : Touch msk s0 s) (hm : Sub State.queueSaveMask msk) :
    Touch msk s0 (State.queueSave s cfg owner b) := by
  unfold State.queueSave
  try dsimp only
  repeat' (with_reducible first
    | assumption
    | exact Touch.refl
    | intro _
    | apply State.vRefuse_touch
    | apply State.vOperate_touch
    | apply State.saveShow_touch
    | apply Touch.ite
    | split)
  all_goals with_reducible first
    | exact .inr rfl
    | exact Sub.trans (b := State.queueSaveMask) (by decide +kernel) hm
    | exact Has.sub (a := State.queueSaveMask) (by decide +kernel) hm
    | exact .inl (Has.sub (a := State.queueSaveMask) (by decide +kernel) hm)
    | exact Has.at (by decide) (Has.sub (a := State.queueSaveMask) (by decide +kernel) hm)
    | exact Has.cell (by decide) (Has.sub (a := State.queueSaveMask) (by decide +kernel) hm)
    | exact Has.cellNext (by decide) (Has.sub (a := State.queueSaveMask) (by decide +kernel) hm)
    | exact Has.ite (Has.sub (a := State.queueSaveMask) (by decide +kernel) hm) (Has.sub (a := State.queueSaveMask) (by decide +kernel) hm)
    | exact .inr (fun _ => rfl)
    | (intro _; rfl)
    | (intro _; simp; done)
    | (simp; assumption)
    | (refine .inr (fun _ => ?_); simp; done)
    | (refine .inr (fun _ => ?_); (repeat' split) <;> first | rfl | (simp; done))
    | (simp; done)

def State.lmpSaveMask : Nat :=
  State.queueSaveMask

theorem State.lmpSave_touch {msk : Nat} {s0 : State} {s : State} (hk : Touch msk s0 s) (hm : Sub State.lmpSaveMask msk) :
    Touch msk s0 (State.lmpSave s) := by
  unfold State.lmpSave
  try dsimp only
  repeat' (with_reducible first
    | assumption
    | exact Touch.refl
    | intro _
    | apply State.queueSave_touch)
  all_goals with_reducible first
    | exact .inr rfl
    | exact Sub.trans (b := State.lmpSaveMask) (by decide +kernel) hm
    | exact Has.sub (a := State.lmpSaveMask) (by decide +kernel) hm
    | exact .inl (Has.sub (a := State.lmpSaveMask) (by decide +kernel) hm)
    | exact Has.at (by decide) (Has.sub (a := State.lmpSaveMask) (by decide +kernel) hm)
    | exact Has.cell (by decide) (Has.sub (a := State.lmpSaveMask) (by decide +kernel) hm)
    | exact Has.cellNext (by decide) (Has.sub (a := State.lmpSaveMask) (by decide +kernel) hm)
    | exact Has.ite (Has.sub (a := State.lmpSaveMask) (by decide +kernel) hm) (Has.sub (a := State.lmpSaveMask) (by decide +kernel) hm)
    | exact .inr (fun _ => rfl)
    | (intro _; rfl)
    | (intro _; simp; done)
    | (simp; assumption)
    | (refine .inr (fun _ => ?_); simp; done)
    | (refine .inr (fun _ => ?_); (repeat' split) <;> first | rfl | (simp; done))
    | (simp; done)

def State.fdeSaveMask : Nat :=
  State.queueSaveMask

theorem State.fdeSave_touch {msk : Nat} {s0 : State} {s : State} (hk : Touch msk s0 s) (hm : Sub State.fdeSaveMask msk) :
    Touch msk s0 (State.fdeSave s) := by
  unfold State.fdeSave
  try dsimp only
  repeat' (with_reducible first
    | assumption
    | exact Touch.refl
    | intro _
    | apply State.queueSave_touch)
  all_goals with_reducible first
    | exact .inr rfl
    | exact Sub.trans (b := State.fdeSaveMask) (by decide +kernel) hm
    | exact Has.sub (a := State.fdeSaveMask) (by decide +kernel) hm
    | exact .inl (Has.sub (a := State.fdeSaveMask) (by decide +kernel) hm)
    | exact Has.at (by decide) (Has.sub (a := State.fdeSaveMask) (by decide +kernel) hm)
    | exact Has.cell (by decide) (Has.sub (a := State.fdeSaveMask) (by decide +kernel) hm)
    | exact Has.cellNext (by decide) (Has.sub (a := State.fdeSaveMask) (by decide +kernel) hm)
    | exact Has.ite (Has.sub (a := State.fdeSaveMask) (by decide +kernel) hm) (Has.sub (a := State.fdeSaveMask) (by decide +kernel) hm)
    | exact .inr (fun _ => rfl)
    | (intro _; rfl)
    | (intro _; simp; done)
    | (simp; assumption)
    | (refine .inr (fun _ => ?_); simp; done)
    | (refine .inr (fun _ => ?_); (repeat' split) <;> first | rfl | (simp; done))
    | (simp; done)

def State.hltSaveMask : Nat :=
  State.queueSaveMask

theorem State.hltSave_touch {msk : Nat} {s0 : State} {s : State} (hk : Touch msk s0 s) (hm : Sub State.hltSaveMask msk) :
    Touch msk s0 (State.hltSave s) := by
  unfold State.hltSave
  try dsimp only
  repeat' (with_reducible first
    | assumption
    | exact Touch.refl
    | intro _
    | apply State.queueSave_touch)
  all_goals with_reducible first
    | exact .inr rfl
    | exact Sub.trans (b := State.hltSaveMask) (by decide +kernel) hm
    | exact Has.sub (a := State.hltSaveMask) (by decide +kernel) hm
    | exact .inl (Has.sub (a := State.hltSaveMask) (by decide +kernel) hm)
    | exact Has.at (by decide) (Has.sub (a := State.hltSaveMask) (by decide +kernel) hm)
    | exact Has.cell (by decide) (Has.sub (a := State.hltSaveMask) (by decide +kernel) hm)
    | exact Has.cellNext (by decide) (Has.sub (a := State.hltSaveMask) (by decide +kernel) hm)
    | exact Has.ite (Has.sub (a := State.hltSaveMask) (by decide +kernel) hm) (Has.sub (a := State.hltSaveMask) (by decide +kernel) hm)
    | exact .inr (fun _ => rfl)
    | (intro _; rfl)
    | (intro _; simp; done)
    | (simp; assumption)
    | (refine .inr (fun _ => ?_); simp; done)
    | (refine .inr (fun _ => ?_); (repeat' split) <;> first | rfl | (simp; done))
    | (simp; done)

def State.dirSaveMask : Nat :=
  State.queueSaveMask

theorem State.dirSave_touch {msk : Nat} {s0 : State} {s : State} (hk : Touch msk s0 s) (hm : Sub State.dirSaveMask msk) :
    Touch msk s0 (State.dirSave s) := by
  unfold State.dirSave
  try dsimp only
  repeat' (with_reducible first
    | assumption
    | exact Touch.refl
    | intro _
    | apply State.queueSave_touch)
  all_goals with_reducible first
    | exact .inr rfl
    | exact Sub.trans (b := State.dirSaveMask) (by decide +kernel) hm
    | exact Has.sub (a := State.dirSaveMask) (by decide +kernel) hm
    | exact .inl (Has.sub (a := State.dirSaveMask) (by decide +kernel) hm)
    | exact Has.at (by decide) (Has.sub (a := State.dirSaveMask) (by decide +kernel) hm)
    | exact Has.cell (by decide) (Has.sub (a := State.dirSaveMask) (by decide +kernel) hm)
    | exact Has.cellNext (by decide) (Has.sub (a := State.dirSaveMask) (by decide +kernel) hm)
    | exact Has.ite (Has.sub (a := State.dirSaveMask) (by decide +kernel) hm) (Has.sub (a := State.dirSaveMask) (by decide +kernel) hm)
    | exact .inr (fun _ => rfl)
    | (intro _; rfl)
    | (intro _; simp; done)
    | (simp; assumption)
    | (refine .inr (fun _ => ?_); simp; done)
    | (refine .inr (fun _ => ?_); (repeat' split) <;> first | rfl | (simp; done))
    | (simp; done)

def State.cfgSaveStartMask : Nat :=
  State.queueSaveMask

theorem State.cfgSaveStart_touch {msk : Nat} {s0 : State} {s : State} (hk : Touch msk s0 s) (hm : Sub State.cfgSaveStartMask msk) :
    Touch msk s0 (State.cfgSaveStart s) := by
  unfold State.cfgSaveStart
  try dsimp only
  repeat' (with_reducible first
    | assumption
    | exact Touch.refl
    | intro _
    | apply State.queueSave_touch)
  all_goals with_reducible first
    | exact .inr rfl
    | exact Sub.trans (b := State.cfgSaveStartMask) (by decide +kernel) hm
    | exact Has.sub (a := State.cfgSaveStartMask) (by decide +kernel) hm
    | exact .inl (Has.sub (a := State.cfgSaveStartMask) (by decide +kernel) hm)
    | exact Has.at (by decide) (Has.sub (a := State.cfgSaveStartMask) (by decide +kernel) hm)
    | exact Has.cell (by decide) (Has.sub (a := State.cfgSaveStartMask) (by decide +kernel) hm)
    | exact Has.cellNext (by decide) (Has.sub (a := State.cfgSaveStartMask) (by decide +kernel) hm)
    | exact Has.ite (Has.sub (a := State.cfgSaveStartMask) (by decide +kernel) hm) (Has.sub (a := State.cfgSaveStartMask) (by decide +kernel) hm)
    | exact .inr (fun _ => rfl)
    | (intro _; rfl)
    | (intro _; simp; done)
    | (simp; assumption)
    | (refine .inr (fun _ => ?_); simp; done)
    | (refine .inr (fun _ => ?_); (repeat' split) <;> first | rfl | (simp; done))
    | (simp; done)

def State.bankInstallMask : Nat :=
  rbit R.SYS_BOOT ||| Part.vlt.bit

theorem State.bankInstall_touch {msk : Nat} {s0 : State} {s : State} {cfg : Bool} {b : Bank} {body : List Byte} (hk : Touch msk s0 s) (hm : Sub State.bankInstallMask msk) :
    Touch msk s0 (State.bankInstall s cfg b body) := by
  unfold State.bankInstall
  try dsimp only
  repeat' (with_reducible first
    | assumption
    | exact Touch.refl
    | intro _
    | apply Touch.modVlt
    | apply State.setFld_touch
    | apply State.setFlag_touch
    | apply Touch.ite
    | split)
  all_goals with_reducible first
    | exact .inr rfl
    | exact Sub.trans (b := State.bankInstallMask) (by decide +kernel) hm
    | exact Has.sub (a := State.bankInstallMask) (by decide +kernel) hm
    | exact .inl (Has.sub (a := State.bankInstallMask) (by decide +kernel) hm)
    | exact Has.at (by decide) (Has.sub (a := State.bankInstallMask) (by decide +kernel) hm)
    | exact Has.cell (by decide) (Has.sub (a := State.bankInstallMask) (by decide +kernel) hm)
    | exact Has.cellNext (by decide) (Has.sub (a := State.bankInstallMask) (by decide +kernel) hm)
    | exact Has.ite (Has.sub (a := State.bankInstallMask) (by decide +kernel) hm) (Has.sub (a := State.bankInstallMask) (by decide +kernel) hm)
    | exact .inr (fun _ => rfl)
    | (intro _; rfl)
    | (intro _; simp; done)
    | (simp; assumption)
    | (refine .inr (fun _ => ?_); simp; done)
    | (refine .inr (fun _ => ?_); (repeat' split) <;> first | rfl | (simp; done))
    | (simp; done)

def State.bankDoneMask : Nat :=
  State.vDoneMask ||| State.opEndMask ||| State.saveShowMask ||| State.bankInstallMask

theorem State.bankDone_touch {msk : Nat} {s0 : State} {s : State} (hk : Touch msk s0 s) (hm : Sub State.bankDoneMask msk) :
    Touch msk s0 (State.bankDone s) := by
  unfold State.bankDone
  try dsimp only
  repeat' (with_reducible first
    | assumption
    | exact Touch.refl
    | intro _
    | apply State.vDone_touch
    | apply State.opEnd_touch
    | apply State.saveShow_touch
    | apply State.bankInstall_touch
    | (refine Touch.ofEq (by assumption) ?_)
    | apply Touch.ite
    | split)
  all_goals with_reducible first
    | exact .inr rfl
    | exact Sub.trans (b := State.bankDoneMask) (by decide +kernel) hm
    | exact Has.sub (a := State.bankDoneMask) (by decide +kernel) hm
    | exact .inl (Has.sub (a := State.bankDoneMask) (by decide +kernel) hm)
    | exact Has.at (by decide) (Has.sub (a := State.bankDoneMask) (by decide +kernel) hm)
    | exact Has.cell (by decide) (Has.sub (a := State.bankDoneMask) (by decide +kernel) hm)
    | exact Has.cellNext (by decide) (Has.sub (a := State.bankDoneMask) (by decide +kernel) hm)
    | exact Has.ite (Has.sub (a := State.bankDoneMask) (by decide +kernel) hm) (Has.sub (a := State.bankDoneMask) (by decide +kernel) hm)
    | exact .inr (fun _ => rfl)
    | (intro _; rfl)
    | (intro _; simp; done)
    | (simp; assumption)
    | (refine .inr (fun _ => ?_); simp; done)
    | (refine .inr (fun _ => ?_); (repeat' split) <;> first | rfl | (simp; done))
    | (simp; done)

end Sys2Proof.Machine
end

