-- ==== Sys2Proof/Laws/TouchSecCmd.lean ====
section
/-! SUPPORT. What each operation of Machine/SecCmd.lean may change: its mask, and the proof that it changes nothing else. -/

namespace Sys2Proof.Machine

set_option linter.unusedSimpArgs false
set_option Elab.async false

def State.secDoneMask : Nat :=
  State.irqMask ||| State.modSecMask ||| rbit R.SEC_RESULT

theorem State.secDone_touch {msk : Nat} {s0 : State} {s : State} {code : Nat} (hk : Touch msk s0 s) (hm : Sub State.secDoneMask msk) :
    Touch msk s0 (State.secDone s code) := by
  unfold State.secDone
  try dsimp only
  repeat' (with_reducible first
    | assumption
    | exact Touch.refl
    | intro _
    | apply Touch.setReg
    | apply State.irq_touch
    | apply State.modSec_touch
    | apply Touch.ite
    | apply Touch.setReg
    | split)
  all_goals with_reducible first
    | exact .inr rfl
    | exact Sub.trans (b := State.secDoneMask) (by decide +kernel) hm
    | exact Has.sub (a := State.secDoneMask) (by decide +kernel) hm
    | exact .inl (Has.sub (a := State.secDoneMask) (by decide +kernel) hm)
    | exact Has.at (by decide) (Has.sub (a := State.secDoneMask) (by decide +kernel) hm)
    | exact Has.cell (by decide) (Has.sub (a := State.secDoneMask) (by decide +kernel) hm)
    | exact Has.cellNext (by decide) (Has.sub (a := State.secDoneMask) (by decide +kernel) hm)
    | exact Has.ite (Has.sub (a := State.secDoneMask) (by decide +kernel) hm) (Has.sub (a := State.secDoneMask) (by decide +kernel) hm)
    | exact .inr (fun _ => rfl)
    | (intro _; rfl)
    | (intro _; simp; done)
    | (simp; assumption)
    | (refine .inr (fun _ => ?_); simp; done)
    | (refine .inr (fun _ => ?_); (repeat' split) <;> first | rfl | (simp; done))
    | (simp; done)

def State.secBeginMask : Nat :=
  State.modSecMask ||| rbit R.SEC_RESULT

theorem State.secBegin_touch {msk : Nat} {s0 : State} {s : State} (hk : Touch msk s0 s) (hm : Sub State.secBeginMask msk) :
    Touch msk s0 (State.secBegin s) := by
  unfold State.secBegin
  try dsimp only
  repeat' (with_reducible first
    | assumption
    | exact Touch.refl
    | intro _
    | apply Touch.setReg
    | apply State.modSec_touch
    | apply Touch.setReg)
  all_goals with_reducible first
    | exact .inr rfl
    | exact Sub.trans (b := State.secBeginMask) (by decide +kernel) hm
    | exact Has.sub (a := State.secBeginMask) (by decide +kernel) hm
    | exact .inl (Has.sub (a := State.secBeginMask) (by decide +kernel) hm)
    | exact Has.at (by decide) (Has.sub (a := State.secBeginMask) (by decide +kernel) hm)
    | exact Has.cell (by decide) (Has.sub (a := State.secBeginMask) (by decide +kernel) hm)
    | exact Has.cellNext (by decide) (Has.sub (a := State.secBeginMask) (by decide +kernel) hm)
    | exact Has.ite (Has.sub (a := State.secBeginMask) (by decide +kernel) hm) (Has.sub (a := State.secBeginMask) (by decide +kernel) hm)
    | exact .inr (fun _ => rfl)
    | (intro _; rfl)
    | (intro _; simp; done)
    | (simp; assumption)
    | (refine .inr (fun _ => ?_); simp; done)
    | (refine .inr (fun _ => ?_); (repeat' split) <;> first | rfl | (simp; done))
    | (simp; done)

def State.slotsDoneMask : Nat :=
  State.postMask ||| State.slotFreshMask

theorem State.slotsDone_touch {msk : Nat} {s0 : State} {s : State} {v : VltState} {l : List (Nat × List Byte)} (hk : Touch msk s0 s) (hm : Sub State.slotsDoneMask msk) :
    Touch msk s0 (State.slotsDone s v l) := by
  unfold State.slotsDone
  try dsimp only
  repeat' (with_reducible first
    | assumption
    | exact Touch.refl
    | intro _
    | apply State.post_touch
    | apply State.slotFresh_touch
    | (refine Touch.ofEq (by assumption) ?_)
    | apply Touch.foldl
    | apply Touch.foldlFst
    | split)
  all_goals with_reducible first
    | exact .inr rfl
    | exact Sub.trans (b := State.slotsDoneMask) (by decide +kernel) hm
    | exact Has.sub (a := State.slotsDoneMask) (by decide +kernel) hm
    | exact .inl (Has.sub (a := State.slotsDoneMask) (by decide +kernel) hm)
    | exact Has.at (by decide) (Has.sub (a := State.slotsDoneMask) (by decide +kernel) hm)
    | exact Has.cell (by decide) (Has.sub (a := State.slotsDoneMask) (by decide +kernel) hm)
    | exact Has.cellNext (by decide) (Has.sub (a := State.slotsDoneMask) (by decide +kernel) hm)
    | exact Has.ite (Has.sub (a := State.slotsDoneMask) (by decide +kernel) hm) (Has.sub (a := State.slotsDoneMask) (by decide +kernel) hm)
    | exact .inr (fun _ => rfl)
    | (intro _; rfl)
    | (intro _; simp; done)
    | (simp; assumption)
    | (refine .inr (fun _ => ?_); simp; done)
    | (refine .inr (fun _ => ?_); (repeat' split) <;> first | rfl | (simp; done))
    | (simp; done)

def State.commitKeysMask : Nat :=
  State.commitDoneMask ||| State.secDoneMask ||| State.slotsDoneMask

theorem State.commitKeys_touch {msk : Nat} {s0 : State} {s : State} (hk : Touch msk s0 s) (hm : Sub State.commitKeysMask msk) :
    Touch msk s0 (State.commitKeys s) := by
  unfold State.commitKeys
  try dsimp only
  repeat' (with_reducible first
    | assumption
    | exact Touch.refl
    | intro _
    | apply State.commitDone_touch
    | apply State.secDone_touch
    | apply State.slotsDone_touch
    | apply Touch.ite
    | split)
  all_goals with_reducible first
    | exact .inr rfl
    | exact Sub.trans (b := State.commitKeysMask) (by decide +kernel) hm
    | exact Has.sub (a := State.commitKeysMask) (by decide +kernel) hm
    | exact .inl (Has.sub (a := State.commitKeysMask) (by decide +kernel) hm)
    | exact Has.at (by decide) (Has.sub (a := State.commitKeysMask) (by decide +kernel) hm)
    | exact Has.cell (by decide) (Has.sub (a := State.commitKeysMask) (by decide +kernel) hm)
    | exact Has.cellNext (by decide) (Has.sub (a := State.commitKeysMask) (by decide +kernel) hm)
    | exact Has.ite (Has.sub (a := State.commitKeysMask) (by decide +kernel) hm) (Has.sub (a := State.commitKeysMask) (by decide +kernel) hm)
    | exact .inr (fun _ => rfl)
    | (intro _; rfl)
    | (intro _; simp; done)
    | (simp; assumption)
    | (refine .inr (fun _ => ?_); simp; done)
    | (refine .inr (fun _ => ?_); (repeat' split) <;> first | rfl | (simp; done))
    | (simp; done)

def State.slotRecordMask : Nat :=
  State.vRecordMask ||| State.secDoneMask ||| State.secBeginMask

theorem State.slotRecord_touch {msk : Nat} {s0 : State} {s : State} {n : Nat} {payload : List Byte} (hk : Touch msk s0 s) (hm : Sub State.slotRecordMask msk) :
    Touch msk s0 (State.slotRecord s n payload) := by
  unfold State.slotRecord
  try dsimp only
  repeat' (with_reducible first
    | assumption
    | exact Touch.refl
    | intro _
    | apply State.vRecord_touch
    | apply State.secDone_touch
    | apply State.secBegin_touch
    | apply Touch.ite
    | split)
  all_goals with_reducible first
    | exact .inr rfl
    | exact Sub.trans (b := State.slotRecordMask) (by decide +kernel) hm
    | exact Has.sub (a := State.slotRecordMask) (by decide +kernel) hm
    | exact .inl (Has.sub (a := State.slotRecordMask) (by decide +kernel) hm)
    | exact Has.at (by decide) (Has.sub (a := State.slotRecordMask) (by decide +kernel) hm)
    | exact Has.cell (by decide) (Has.sub (a := State.slotRecordMask) (by decide +kernel) hm)
    | exact Has.cellNext (by decide) (Has.sub (a := State.slotRecordMask) (by decide +kernel) hm)
    | exact Has.ite (Has.sub (a := State.slotRecordMask) (by decide +kernel) hm) (Has.sub (a := State.slotRecordMask) (by decide +kernel) hm)
    | exact .inr (fun _ => rfl)
    | (intro _; rfl)
    | (intro _; simp; done)
    | (simp; assumption)
    | (refine .inr (fun _ => ?_); simp; done)
    | (refine .inr (fun _ => ?_); (repeat' split) <;> first | rfl | (simp; done))
    | (simp; done)

def State.loadKeyMask : Nat :=
  State.secDoneMask ||| State.slotRecordMask

theorem State.loadKey_touch {msk : Nat} {s0 : State} {s : State} {ws : List Word} (hk : Touch msk s0 s) (hm : Sub State.loadKeyMask msk) :
    Touch msk s0 (State.loadKey s ws) := by
  unfold State.loadKey
  try dsimp only
  repeat' (with_reducible first
    | assumption
    | exact Touch.refl
    | intro _
    | apply State.secDone_touch
    | apply State.slotRecord_touch
    | apply Touch.ite
    | split)
  all_goals with_reducible first
    | exact .inr rfl
    | exact Sub.trans (b := State.loadKeyMask) (by decide +kernel) hm
    | exact Has.sub (a := State.loadKeyMask) (by decide +kernel) hm
    | exact .inl (Has.sub (a := State.loadKeyMask) (by decide +kernel) hm)
    | exact Has.at (by decide) (Has.sub (a := State.loadKeyMask) (by decide +kernel) hm)
    | exact Has.cell (by decide) (Has.sub (a := State.loadKeyMask) (by decide +kernel) hm)
    | exact Has.cellNext (by decide) (Has.sub (a := State.loadKeyMask) (by decide +kernel) hm)
    | exact Has.ite (Has.sub (a := State.loadKeyMask) (by decide +kernel) hm) (Has.sub (a := State.loadKeyMask) (by decide +kernel) hm)
    | exact .inr (fun _ => rfl)
    | (intro _; rfl)
    | (intro _; simp; done)
    | (simp; assumption)
    | (refine .inr (fun _ => ?_); simp; done)
    | (refine .inr (fun _ => ?_); (repeat' split) <;> first | rfl | (simp; done))
    | (simp; done)

def State.eraseKeyMask : Nat :=
  State.slotRecordMask

theorem State.eraseKey_touch {msk : Nat} {s0 : State} {s : State} (hk : Touch msk s0 s) (hm : Sub State.eraseKeyMask msk) :
    Touch msk s0 (State.eraseKey s) := by
  unfold State.eraseKey
  try dsimp only
  repeat' (with_reducible first
    | assumption
    | exact Touch.refl
    | intro _
    | apply State.slotRecord_touch)
  all_goals with_reducible first
    | exact .inr rfl
    | exact Sub.trans (b := State.eraseKeyMask) (by decide +kernel) hm
    | exact Has.sub (a := State.eraseKeyMask) (by decide +kernel) hm
    | exact .inl (Has.sub (a := State.eraseKeyMask) (by decide +kernel) hm)
    | exact Has.at (by decide) (Has.sub (a := State.eraseKeyMask) (by decide +kernel) hm)
    | exact Has.cell (by decide) (Has.sub (a := State.eraseKeyMask) (by decide +kernel) hm)
    | exact Has.cellNext (by decide) (Has.sub (a := State.eraseKeyMask) (by decide +kernel) hm)
    | exact Has.ite (Has.sub (a := State.eraseKeyMask) (by decide +kernel) hm) (Has.sub (a := State.eraseKeyMask) (by decide +kernel) hm)
    | exact .inr (fun _ => rfl)
    | (intro _; rfl)
    | (intro _; simp; done)
    | (simp; assumption)
    | (refine .inr (fun _ => ?_); simp; done)
    | (refine .inr (fun _ => ?_); (repeat' split) <;> first | rfl | (simp; done))
    | (simp; done)

def State.commissionMask : Nat :=
  State.modSecMask ||| State.secDoneMask ||| State.secBeginMask

theorem State.commission_touch {msk : Nat} {s0 : State} {s : State} (hk : Touch msk s0 s) (hm : Sub State.commissionMask msk) :
    Touch msk s0 (State.commission s) := by
  unfold State.commission
  try dsimp only
  repeat' (with_reducible first
    | assumption
    | exact Touch.refl
    | intro _
    | apply State.modSec_touch
    | apply State.secDone_touch
    | apply State.secBegin_touch
    | apply Touch.ite
    | split)
  all_goals with_reducible first
    | exact .inr rfl
    | exact Sub.trans (b := State.commissionMask) (by decide +kernel) hm
    | exact Has.sub (a := State.commissionMask) (by decide +kernel) hm
    | exact .inl (Has.sub (a := State.commissionMask) (by decide +kernel) hm)
    | exact Has.at (by decide) (Has.sub (a := State.commissionMask) (by decide +kernel) hm)
    | exact Has.cell (by decide) (Has.sub (a := State.commissionMask) (by decide +kernel) hm)
    | exact Has.cellNext (by decide) (Has.sub (a := State.commissionMask) (by decide +kernel) hm)
    | exact Has.ite (Has.sub (a := State.commissionMask) (by decide +kernel) hm) (Has.sub (a := State.commissionMask) (by decide +kernel) hm)
    | exact .inr (fun _ => rfl)
    | (intro _; rfl)
    | (intro _; simp; done)
    | (simp; assumption)
    | (refine .inr (fun _ => ?_); simp; done)
    | (refine .inr (fun _ => ?_); (repeat' split) <;> first | rfl | (simp; done))
    | (simp; done)

def State.retireMask : Nat :=
  State.modSecMask ||| State.secDoneMask ||| State.secBeginMask

theorem State.retire_touch {msk : Nat} {s0 : State} {s : State} (hk : Touch msk s0 s) (hm : Sub State.retireMask msk) :
    Touch msk s0 (State.retire s) := by
  unfold State.retire
  try dsimp only
  repeat' (with_reducible first
    | assumption
    | exact Touch.refl
    | intro _
    | apply State.modSec_touch
    | apply State.secDone_touch
    | apply State.secBegin_touch
    | apply Touch.ite
    | split)
  all_goals with_reducible first
    | exact .inr rfl
    | exact Sub.trans (b := State.retireMask) (by decide +kernel) hm
    | exact Has.sub (a := State.retireMask) (by decide +kernel) hm
    | exact .inl (Has.sub (a := State.retireMask) (by decide +kernel) hm)
    | exact Has.at (by decide) (Has.sub (a := State.retireMask) (by decide +kernel) hm)
    | exact Has.cell (by decide) (Has.sub (a := State.retireMask) (by decide +kernel) hm)
    | exact Has.cellNext (by decide) (Has.sub (a := State.retireMask) (by decide +kernel) hm)
    | exact Has.ite (Has.sub (a := State.retireMask) (by decide +kernel) hm) (Has.sub (a := State.retireMask) (by decide +kernel) hm)
    | exact .inr (fun _ => rfl)
    | (intro _; rfl)
    | (intro _; simp; done)
    | (simp; assumption)
    | (refine .inr (fun _ => ?_); simp; done)
    | (refine .inr (fun _ => ?_); (repeat' split) <;> first | rfl | (simp; done))
    | (simp; done)

def State.wipeSlotsMask : Nat :=
  State.vRecordMask ||| State.modSecMask

theorem State.wipeSlots_touch {msk : Nat} {s0 : State} {s : State} (hk : Touch msk s0 s) (hm : Sub State.wipeSlotsMask msk) :
    Touch msk s0 (State.wipeSlots s) := by
  unfold State.wipeSlots
  try dsimp only
  repeat' (with_reducible first
    | assumption
    | exact Touch.refl
    | intro _
    | apply State.vRecord_touch
    | apply State.modSec_touch
    | apply Touch.ite
    | apply Touch.foldl
    | apply Touch.foldlFst
    | split)
  all_goals with_reducible first
    | exact .inr rfl
    | exact Sub.trans (b := State.wipeSlotsMask) (by decide +kernel) hm
    | exact Has.sub (a := State.wipeSlotsMask) (by decide +kernel) hm
    | exact .inl (Has.sub (a := State.wipeSlotsMask) (by decide +kernel) hm)
    | exact Has.at (by decide) (Has.sub (a := State.wipeSlotsMask) (by decide +kernel) hm)
    | exact Has.cell (by decide) (Has.sub (a := State.wipeSlotsMask) (by decide +kernel) hm)
    | exact Has.cellNext (by decide) (Has.sub (a := State.wipeSlotsMask) (by decide +kernel) hm)
    | exact Has.ite (Has.sub (a := State.wipeSlotsMask) (by decide +kernel) hm) (Has.sub (a := State.wipeSlotsMask) (by decide +kernel) hm)
    | exact .inr (fun _ => rfl)
    | (intro _; rfl)
    | (intro _; simp; done)
    | (simp; assumption)
    | (refine .inr (fun _ => ?_); simp; done)
    | (refine .inr (fun _ => ?_); (repeat' split) <;> first | rfl | (simp; done))
    | (simp; done)

def State.burnDoneMask : Nat :=
  State.postMask ||| State.modSecMask ||| State.secDoneMask ||| State.wipeSlotsMask

theorem State.burnDone_touch {msk : Nat} {s0 : State} {s : State} (hk : Touch msk s0 s) (hm : Sub State.burnDoneMask msk) :
    Touch msk s0 (State.burnDone s) := by
  unfold State.burnDone
  try dsimp only
  repeat' (with_reducible first
    | assumption
    | exact Touch.refl
    | intro _
    | apply State.post_touch
    | apply State.modSec_touch
    | apply State.secDone_touch
    | apply State.wipeSlots_touch
    | (refine Touch.ofEq (by assumption) ?_)
    | apply Touch.ite
    | split)
  all_goals with_reducible first
    | exact .inr rfl
    | exact Sub.trans (b := State.burnDoneMask) (by decide +kernel) hm
    | exact Has.sub (a := State.burnDoneMask) (by decide +kernel) hm
    | exact .inl (Has.sub (a := State.burnDoneMask) (by decide +kernel) hm)
    | exact Has.at (by decide) (Has.sub (a := State.burnDoneMask) (by decide +kernel) hm)
    | exact Has.cell (by decide) (Has.sub (a := State.burnDoneMask) (by decide +kernel) hm)
    | exact Has.cellNext (by decide) (Has.sub (a := State.burnDoneMask) (by decide +kernel) hm)
    | exact Has.ite (Has.sub (a := State.burnDoneMask) (by decide +kernel) hm) (Has.sub (a := State.burnDoneMask) (by decide +kernel) hm)
    | exact .inr (fun _ => rfl)
    | (intro _; rfl)
    | (intro _; simp; done)
    | (simp; assumption)
    | (refine .inr (fun _ => ?_); simp; done)
    | (refine .inr (fun _ => ?_); (repeat' split) <;> first | rfl | (simp; done))
    | (simp; done)

def State.signStartMask : Nat :=
  State.modSecMask

theorem State.signStart_touch {msk : Nat} {s0 : State} {s : State} {reply : Option Reply} {chal : List Byte} (hk : Touch msk s0 s) (hm : Sub State.signStartMask msk) :
    Touch msk s0 (State.signStart s reply chal).1 := by
  unfold State.signStart
  try dsimp only
  repeat' (with_reducible first
    | assumption
    | exact Touch.refl
    | intro _
    | apply State.modSec_touch
    | apply Touch.ite
    | split)
  all_goals with_reducible first
    | exact .inr rfl
    | exact Sub.trans (b := State.signStartMask) (by decide +kernel) hm
    | exact Has.sub (a := State.signStartMask) (by decide +kernel) hm
    | exact .inl (Has.sub (a := State.signStartMask) (by decide +kernel) hm)
    | exact Has.at (by decide) (Has.sub (a := State.signStartMask) (by decide +kernel) hm)
    | exact Has.cell (by decide) (Has.sub (a := State.signStartMask) (by decide +kernel) hm)
    | exact Has.cellNext (by decide) (Has.sub (a := State.signStartMask) (by decide +kernel) hm)
    | exact Has.ite (Has.sub (a := State.signStartMask) (by decide +kernel) hm) (Has.sub (a := State.signStartMask) (by decide +kernel) hm)
    | exact .inr (fun _ => rfl)
    | (intro _; rfl)
    | (intro _; simp; done)
    | (simp; assumption)
    | (refine .inr (fun _ => ?_); simp; done)
    | (refine .inr (fun _ => ?_); (repeat' split) <;> first | rfl | (simp; done))
    | (simp; done)

def State.secProofCmdMask : Nat :=
  State.secDoneMask ||| State.secBeginMask ||| State.signStartMask

theorem State.secProofCmd_touch {msk : Nat} {s0 : State} {s : State} (hk : Touch msk s0 s) (hm : Sub State.secProofCmdMask msk) :
    Touch msk s0 (State.secProofCmd s) := by
  unfold State.secProofCmd
  try dsimp only
  repeat' (with_reducible first
    | assumption
    | exact Touch.refl
    | intro _
    | apply State.secDone_touch
    | apply State.secBegin_touch
    | apply State.signStart_touch
    | (refine Touch.ofEq (by assumption) ?_)
    | split)
  all_goals with_reducible first
    | exact .inr rfl
    | exact Sub.trans (b := State.secProofCmdMask) (by decide +kernel) hm
    | exact Has.sub (a := State.secProofCmdMask) (by decide +kernel) hm
    | exact .inl (Has.sub (a := State.secProofCmdMask) (by decide +kernel) hm)
    | exact Has.at (by decide) (Has.sub (a := State.secProofCmdMask) (by decide +kernel) hm)
    | exact Has.cell (by decide) (Has.sub (a := State.secProofCmdMask) (by decide +kernel) hm)
    | exact Has.cellNext (by decide) (Has.sub (a := State.secProofCmdMask) (by decide +kernel) hm)
    | exact Has.ite (Has.sub (a := State.secProofCmdMask) (by decide +kernel) hm) (Has.sub (a := State.secProofCmdMask) (by decide +kernel) hm)
    | exact .inr (fun _ => rfl)
    | (intro _; rfl)
    | (intro _; simp; done)
    | (simp; assumption)
    | (refine .inr (fun _ => ?_); simp; done)
    | (refine .inr (fun _ => ?_); (repeat' split) <;> first | rfl | (simp; done))
    | (simp; done)

def State.selfTestMask : Nat :=
  State.modSecMask ||| State.secDoneMask ||| State.secBeginMask

theorem State.selfTest_touch {msk : Nat} {s0 : State} {s : State} (hk : Touch msk s0 s) (hm : Sub State.selfTestMask msk) :
    Touch msk s0 (State.selfTest s) := by
  unfold State.selfTest
  try dsimp only
  repeat' (with_reducible first
    | assumption
    | exact Touch.refl
    | intro _
    | apply State.modSec_touch
    | apply State.secDone_touch
    | apply State.secBegin_touch
    | apply Touch.ite
    | split)
  all_goals with_reducible first
    | exact .inr rfl
    | exact Sub.trans (b := State.selfTestMask) (by decide +kernel) hm
    | exact Has.sub (a := State.selfTestMask) (by decide +kernel) hm
    | exact .inl (Has.sub (a := State.selfTestMask) (by decide +kernel) hm)
    | exact Has.at (by decide) (Has.sub (a := State.selfTestMask) (by decide +kernel) hm)
    | exact Has.cell (by decide) (Has.sub (a := State.selfTestMask) (by decide +kernel) hm)
    | exact Has.cellNext (by decide) (Has.sub (a := State.selfTestMask) (by decide +kernel) hm)
    | exact Has.ite (Has.sub (a := State.selfTestMask) (by decide +kernel) hm) (Has.sub (a := State.selfTestMask) (by decide +kernel) hm)
    | exact .inr (fun _ => rfl)
    | (intro _; rfl)
    | (intro _; simp; done)
    | (simp; assumption)
    | (refine .inr (fun _ => ?_); simp; done)
    | (refine .inr (fun _ => ?_); (repeat' split) <;> first | rfl | (simp; done))
    | (simp; done)

def State.testsEndMask : Nat :=
  State.postMask ||| State.modSecMask ||| State.secStickMask ||| State.secDoneMask ||| rbit R.SYS_BOOT ||| rbit
    R.SEC_STAT

theorem State.testsEnd_touch {msk : Nat} {s0 : State} {s : State} {fail : Option (Fin 6)} (hk : Touch msk s0 s) (hm : Sub State.testsEndMask msk) :
    Touch msk s0 (State.testsEnd s fail) := by
  unfold State.testsEnd
  try dsimp only
  repeat' (with_reducible first
    | assumption
    | exact Touch.refl
    | intro _
    | apply State.post_touch
    | apply State.modSec_touch
    | apply State.secStick_touch
    | apply State.secDone_touch
    | apply State.setFlag_touch
    | (refine Touch.ofEq (by assumption) ?_)
    | apply Touch.ite
    | split)
  all_goals with_reducible first
    | exact .inr rfl
    | exact Sub.trans (b := State.testsEndMask) (by decide +kernel) hm
    | exact Has.sub (a := State.testsEndMask) (by decide +kernel) hm
    | exact .inl (Has.sub (a := State.testsEndMask) (by decide +kernel) hm)
    | exact Has.at (by decide) (Has.sub (a := State.testsEndMask) (by decide +kernel) hm)
    | exact Has.cell (by decide) (Has.sub (a := State.testsEndMask) (by decide +kernel) hm)
    | exact Has.cellNext (by decide) (Has.sub (a := State.testsEndMask) (by decide +kernel) hm)
    | exact Has.ite (Has.sub (a := State.testsEndMask) (by decide +kernel) hm) (Has.sub (a := State.testsEndMask) (by decide +kernel) hm)
    | exact .inr (fun _ => rfl)
    | (intro _; rfl)
    | (intro _; simp; done)
    | (simp; assumption)
    | (refine .inr (fun _ => ?_); simp; done)
    | (refine .inr (fun _ => ?_); (repeat' split) <;> first | rfl | (simp; done))
    | (simp; done)

def State.secCmdMask : Nat :=
  State.modSecMask ||| State.dirSaveMask ||| State.secDoneMask ||| State.loadKeyMask ||| State.eraseKeyMask |||
    State.commissionMask ||| State.retireMask ||| State.secProofCmdMask ||| State.selfTestMask

theorem State.secCmd_touch {msk : Nat} {s0 : State} {s : State} {p : Path} {unlocked : Bool} {v : Word} (hk : Touch msk s0 s) (hm : Sub State.secCmdMask msk) :
    Touch msk s0 (State.secCmd s p unlocked v) := by
  unfold State.secCmd
  try dsimp only
  repeat' (with_reducible first
    | assumption
    | exact Touch.refl
    | intro _
    | apply State.modSec_touch
    | apply State.dirSave_touch
    | apply State.secDone_touch
    | apply State.loadKey_touch
    | apply State.eraseKey_touch
    | apply State.commission_touch
    | apply State.retire_touch
    | apply State.secProofCmd_touch
    | apply State.selfTest_touch
    | (refine Touch.ofEq (by assumption) ?_)
    | apply Touch.ite
    | split)
  all_goals with_reducible first
    | exact .inr rfl
    | exact Sub.trans (b := State.secCmdMask) (by decide +kernel) hm
    | exact Has.sub (a := State.secCmdMask) (by decide +kernel) hm
    | exact .inl (Has.sub (a := State.secCmdMask) (by decide +kernel) hm)
    | exact Has.at (by decide) (Has.sub (a := State.secCmdMask) (by decide +kernel) hm)
    | exact Has.cell (by decide) (Has.sub (a := State.secCmdMask) (by decide +kernel) hm)
    | exact Has.cellNext (by decide) (Has.sub (a := State.secCmdMask) (by decide +kernel) hm)
    | exact Has.ite (Has.sub (a := State.secCmdMask) (by decide +kernel) hm) (Has.sub (a := State.secCmdMask) (by decide +kernel) hm)
    | exact .inr (fun _ => rfl)
    | (intro _; rfl)
    | (intro _; simp; done)
    | (simp; assumption)
    | (refine .inr (fun _ => ?_); simp; done)
    | (refine .inr (fun _ => ?_); (repeat' split) <;> first | rfl | (simp; done))
    | (simp; done)

def State.kdataWriteMask : Nat :=
  State.modSecMask

theorem State.kdataWrite_touch {msk : Nat} {s0 : State} {s : State} {v : Word} (hk : Touch msk s0 s) (hm : Sub State.kdataWriteMask msk) :
    Touch msk s0 (State.kdataWrite s v) := by
  unfold State.kdataWrite
  try dsimp only
  repeat' (with_reducible first
    | assumption
    | exact Touch.refl
    | intro _
    | apply State.modSec_touch
    | apply Touch.ite
    | split)
  all_goals with_reducible first
    | exact .inr rfl
    | exact Sub.trans (b := State.kdataWriteMask) (by decide +kernel) hm
    | exact Has.sub (a := State.kdataWriteMask) (by decide +kernel) hm
    | exact .inl (Has.sub (a := State.kdataWriteMask) (by decide +kernel) hm)
    | exact Has.at (by decide) (Has.sub (a := State.kdataWriteMask) (by decide +kernel) hm)
    | exact Has.cell (by decide) (Has.sub (a := State.kdataWriteMask) (by decide +kernel) hm)
    | exact Has.cellNext (by decide) (Has.sub (a := State.kdataWriteMask) (by decide +kernel) hm)
    | exact Has.ite (Has.sub (a := State.kdataWriteMask) (by decide +kernel) hm) (Has.sub (a := State.kdataWriteMask) (by decide +kernel) hm)
    | exact .inr (fun _ => rfl)
    | (intro _; rfl)
    | (intro _; simp; done)
    | (simp; assumption)
    | (refine .inr (fun _ => ?_); simp; done)
    | (refine .inr (fun _ => ?_); (repeat' split) <;> first | rfl | (simp; done))
    | (simp; done)

def State.slotSelectMask : Nat :=
  State.modSecMask ||| rbit R.SEC_SLOT_SEL

theorem State.slotSelect_touch {msk : Nat} {s0 : State} {s : State} {v : Word} (hk : Touch msk s0 s) (hm : Sub State.slotSelectMask msk) :
    Touch msk s0 (State.slotSelect s v) := by
  unfold State.slotSelect
  try dsimp only
  repeat' (with_reducible first
    | assumption
    | exact Touch.refl
    | intro _
    | apply State.modSec_touch
    | apply State.setFld_touch)
  all_goals with_reducible first
    | exact .inr rfl
    | exact Sub.trans (b := State.slotSelectMask) (by decide +kernel) hm
    | exact Has.sub (a := State.slotSelectMask) (by decide +kernel) hm
    | exact .inl (Has.sub (a := State.slotSelectMask) (by decide +kernel) hm)
    | exact Has.at (by decide) (Has.sub (a := State.slotSelectMask) (by decide +kernel) hm)
    | exact Has.cell (by decide) (Has.sub (a := State.slotSelectMask) (by decide +kernel) hm)
    | exact Has.cellNext (by decide) (Has.sub (a := State.slotSelectMask) (by decide +kernel) hm)
    | exact Has.ite (Has.sub (a := State.slotSelectMask) (by decide +kernel) hm) (Has.sub (a := State.slotSelectMask) (by decide +kernel) hm)
    | exact .inr (fun _ => rfl)
    | (intro _; rfl)
    | (intro _; simp; done)
    | (simp; assumption)
    | (refine .inr (fun _ => ?_); simp; done)
    | (refine .inr (fun _ => ?_); (repeat' split) <;> first | rfl | (simp; done))
    | (simp; done)

def State.secWriteMask : Nat :=
  State.onWriteMask ||| State.secCmdMask

theorem State.secWrite_touch {msk : Nat} {s0 : State} {s : State} {p : Path} {v : Word} (hk : Touch msk s0 s) (hm : Sub State.secWriteMask msk) :
    Touch msk s0 (State.secWrite s p v) := by
  unfold State.secWrite
  try dsimp only
  repeat' (with_reducible first
    | assumption
    | exact Touch.refl
    | intro _
    | apply State.onWrite_touch
    | apply State.secCmd_touch)
  all_goals with_reducible first
    | exact .inr rfl
    | exact Sub.trans (b := State.secWriteMask) (by decide +kernel) hm
    | exact Has.sub (a := State.secWriteMask) (by decide +kernel) hm
    | exact .inl (Has.sub (a := State.secWriteMask) (by decide +kernel) hm)
    | exact Has.at (by decide) (Has.sub (a := State.secWriteMask) (by decide +kernel) hm)
    | exact Has.cell (by decide) (Has.sub (a := State.secWriteMask) (by decide +kernel) hm)
    | exact Has.cellNext (by decide) (Has.sub (a := State.secWriteMask) (by decide +kernel) hm)
    | exact Has.ite (Has.sub (a := State.secWriteMask) (by decide +kernel) hm) (Has.sub (a := State.secWriteMask) (by decide +kernel) hm)
    | exact .inr (fun _ => rfl)
    | (intro _; rfl)
    | (intro _; simp; done)
    | (simp; assumption)
    | (refine .inr (fun _ => ?_); simp; done)
    | (refine .inr (fun _ => ?_); (repeat' split) <;> first | rfl | (simp; done))
    | (simp; done)

end Sys2Proof.Machine
end

