-- ==== Sys2Proof/Laws/TouchAccess.lean ====
section
/-! SUPPORT. What each operation of Machine/Access.lean may change: its mask, and the proof that it changes nothing else. -/

namespace Sys2Proof.Machine

set_option linter.unusedSimpArgs false
set_option Elab.async false

theorem tablePort_has {msk page o w : Nat} {f : Fld} (e : tablePort page = some (o, f, w))
    (h0 : Has msk (R.LMP_TADDR / 64)) (h1 : Has msk (R.FDE_TADDR / 64)) (h2 : Has msk (R.HLT_TADDR / 64))
    (h3 : Has msk (R.PHY_TADDR / 64)) (h4 : Has msk (R.VLT_RADDR / 64)) (h5 : Has msk (R.SEC_TADDR / 64)) :
    Has msk (f.key / 64) := by
  unfold tablePort at e
  split at e
  · cases e; exact h0
  · cases e; exact h1
  · cases e; exact h2
  · cases e; exact h3
  · cases e; exact h4
  · cases e; exact h5
  · cases e


def State.lmpPutMask : Nat :=
  State.modLmpMask

theorem State.lmpPut_touch {msk : Nat} {s0 : State} {s : State} {a : Nat} {v : Word} (hk : Touch msk s0 s) (hm : Sub State.lmpPutMask msk) :
    Touch msk s0 (State.lmpPut s a v) := by
  unfold State.lmpPut
  try dsimp only
  repeat' (with_reducible first
    | assumption
    | exact Touch.refl
    | intro _
    | apply State.modLmp_touch
    | apply Touch.ite
    | split)
  all_goals with_reducible first
    | exact .inr rfl
    | exact Sub.trans (b := State.lmpPutMask) (by decide +kernel) hm
    | exact Has.sub (a := State.lmpPutMask) (by decide +kernel) hm
    | exact .inl (Has.sub (a := State.lmpPutMask) (by decide +kernel) hm)
    | exact Has.at (by decide) (Has.sub (a := State.lmpPutMask) (by decide +kernel) hm)
    | exact Has.cell (by decide) (Has.sub (a := State.lmpPutMask) (by decide +kernel) hm)
    | exact Has.cellNext (by decide) (Has.sub (a := State.lmpPutMask) (by decide +kernel) hm)
    | exact Has.ite (Has.sub (a := State.lmpPutMask) (by decide +kernel) hm) (Has.sub (a := State.lmpPutMask) (by decide +kernel) hm)
    | exact .inr (fun _ => rfl)
    | (intro _; rfl)
    | (intro _; simp; done)
    | (simp; assumption)
    | (refine .inr (fun _ => ?_); simp; done)
    | (refine .inr (fun _ => ?_); (repeat' split) <;> first | rfl | (simp; done))
    | (simp; done)

def State.fdePutMask : Nat :=
  State.plateWriteMask ||| Part.fde.bit

theorem State.fdePut_touch {msk : Nat} {s0 : State} {s : State} {p : Path} {a : Nat} {v : Word} (hk : Touch msk s0 s) (hm : Sub State.fdePutMask msk) :
    Touch msk s0 (State.fdePut s p a v) := by
  unfold State.fdePut
  try dsimp only
  repeat' (with_reducible first
    | assumption
    | exact Touch.refl
    | intro _
    | apply Touch.modFde
    | apply State.plateWrite_touch
    | apply Touch.ite
    | split)
  all_goals with_reducible first
    | exact .inr rfl
    | exact Sub.trans (b := State.fdePutMask) (by decide +kernel) hm
    | exact Has.sub (a := State.fdePutMask) (by decide +kernel) hm
    | exact .inl (Has.sub (a := State.fdePutMask) (by decide +kernel) hm)
    | exact Has.at (by decide) (Has.sub (a := State.fdePutMask) (by decide +kernel) hm)
    | exact Has.cell (by decide) (Has.sub (a := State.fdePutMask) (by decide +kernel) hm)
    | exact Has.cellNext (by decide) (Has.sub (a := State.fdePutMask) (by decide +kernel) hm)
    | exact Has.ite (Has.sub (a := State.fdePutMask) (by decide +kernel) hm) (Has.sub (a := State.fdePutMask) (by decide +kernel) hm)
    | exact .inr (fun _ => rfl)
    | (intro _; rfl)
    | (intro _; simp; done)
    | (simp; assumption)
    | (refine .inr (fun _ => ?_); simp; done)
    | (refine .inr (fun _ => ?_); (repeat' split) <;> first | rfl | (simp; done))
    | (simp; done)

def State.hltPutMask : Nat :=
  Part.hlt.bit

theorem State.hltPut_touch {msk : Nat} {s0 : State} {s : State} {a : Nat} {v : Word} (hk : Touch msk s0 s) (hm : Sub State.hltPutMask msk) :
    Touch msk s0 (State.hltPut s a v) := by
  unfold State.hltPut
  try dsimp only
  repeat' (with_reducible first
    | assumption
    | exact Touch.refl
    | intro _
    | apply Touch.modHlt
    | apply Touch.ite
    | split)
  all_goals with_reducible first
    | exact .inr rfl
    | exact Sub.trans (b := State.hltPutMask) (by decide +kernel) hm
    | exact Has.sub (a := State.hltPutMask) (by decide +kernel) hm
    | exact .inl (Has.sub (a := State.hltPutMask) (by decide +kernel) hm)
    | exact Has.at (by decide) (Has.sub (a := State.hltPutMask) (by decide +kernel) hm)
    | exact Has.cell (by decide) (Has.sub (a := State.hltPutMask) (by decide +kernel) hm)
    | exact Has.cellNext (by decide) (Has.sub (a := State.hltPutMask) (by decide +kernel) hm)
    | exact Has.ite (Has.sub (a := State.hltPutMask) (by decide +kernel) hm) (Has.sub (a := State.hltPutMask) (by decide +kernel) hm)
    | exact .inr (fun _ => rfl)
    | (intro _; rfl)
    | (intro _; simp; done)
    | (simp; assumption)
    | (refine .inr (fun _ => ?_); simp; done)
    | (refine .inr (fun _ => ?_); (repeat' split) <;> first | rfl | (simp; done))
    | (simp; done)

def State.tablePutMask : Nat :=
  State.rawWriteMask ||| State.phyTablePutMask ||| State.modSecMask ||| State.dirPutMask ||| State.lmpPutMask |||
    State.fdePutMask ||| State.hltPutMask

theorem State.tablePut_touch {msk : Nat} {s0 : State} {s : State} {p : Path} {page : Nat} {a : Nat} {v : Word} (hk : Touch msk s0 s) (hm : Sub State.tablePutMask msk) :
    Touch msk s0 (State.tablePut s p page a v) := by
  unfold State.tablePut
  try dsimp only
  repeat' (with_reducible first
    | assumption
    | exact Touch.refl
    | intro _
    | apply State.rawWrite_touch
    | apply State.phyTablePut_touch
    | apply State.modSec_touch
    | apply State.dirPut_touch
    | apply State.lmpPut_touch
    | apply State.fdePut_touch
    | apply State.hltPut_touch
    | (refine Touch.ofEq (by assumption) ?_)
    | apply Touch.ite
    | split)
  all_goals with_reducible first
    | exact .inr rfl
    | exact Sub.trans (b := State.tablePutMask) (by decide +kernel) hm
    | exact Has.sub (a := State.tablePutMask) (by decide +kernel) hm
    | exact .inl (Has.sub (a := State.tablePutMask) (by decide +kernel) hm)
    | exact Has.at (by decide) (Has.sub (a := State.tablePutMask) (by decide +kernel) hm)
    | exact Has.cell (by decide) (Has.sub (a := State.tablePutMask) (by decide +kernel) hm)
    | exact Has.cellNext (by decide) (Has.sub (a := State.tablePutMask) (by decide +kernel) hm)
    | exact Has.ite (Has.sub (a := State.tablePutMask) (by decide +kernel) hm) (Has.sub (a := State.tablePutMask) (by decide +kernel) hm)
    | exact .inr (fun _ => rfl)
    | (intro _; rfl)
    | (intro _; simp; done)
    | (simp; assumption)
    | (refine .inr (fun _ => ?_); simp; done)
    | (refine .inr (fun _ => ?_); (repeat' split) <;> first | rfl | (simp; done))
    | (simp; done)

def State.rawMarkMask : Nat :=
  rbit R.VLT_ERR

theorem State.rawMark_touch {msk : Nat} {s0 : State} {s : State} {p : Path} {page : Nat} (hk : Touch msk s0 s) (hm : Sub State.rawMarkMask msk) :
    Touch msk s0 (State.rawMark s p page) := by
  unfold State.rawMark
  try dsimp only
  repeat' (with_reducible first
    | assumption
    | exact Touch.refl
    | intro _
    | apply State.setFld_touch
    | apply Touch.ite
    | split)
  all_goals with_reducible first
    | exact .inr rfl
    | exact Sub.trans (b := State.rawMarkMask) (by decide +kernel) hm
    | exact Has.sub (a := State.rawMarkMask) (by decide +kernel) hm
    | exact .inl (Has.sub (a := State.rawMarkMask) (by decide +kernel) hm)
    | exact Has.at (by decide) (Has.sub (a := State.rawMarkMask) (by decide +kernel) hm)
    | exact Has.cell (by decide) (Has.sub (a := State.rawMarkMask) (by decide +kernel) hm)
    | exact Has.cellNext (by decide) (Has.sub (a := State.rawMarkMask) (by decide +kernel) hm)
    | exact Has.ite (Has.sub (a := State.rawMarkMask) (by decide +kernel) hm) (Has.sub (a := State.rawMarkMask) (by decide +kernel) hm)
    | exact .inr (fun _ => rfl)
    | (intro _; rfl)
    | (intro _; simp; done)
    | (simp; assumption)
    | (refine .inr (fun _ => ?_); simp; done)
    | (refine .inr (fun _ => ?_); (repeat' split) <;> first | rfl | (simp; done))
    | (simp; done)

def State.portStepMask : Nat :=
  Part.vlt.bit

theorem State.portStep_touch {msk : Nat} {s0 : State} {s : State} {f : Fld} {width : Nat} {a : Nat} (hk : Touch msk s0 s) (hm : Sub State.portStepMask msk) (hf : Has msk (f.key / 64)) :
    Touch msk s0 (State.portStep s f width a) := by
  unfold State.portStep
  try dsimp only
  repeat' (with_reducible first
    | assumption
    | exact Touch.refl
    | intro _
    | apply Touch.modVlt
    | apply State.setFld_touch
    | apply Touch.ite
    | split)
  all_goals with_reducible first
    | exact .inr rfl
    | exact Sub.trans (b := State.portStepMask) (by decide +kernel) hm
    | exact Has.sub (a := State.portStepMask) (by decide +kernel) hm
    | exact .inl (Has.sub (a := State.portStepMask) (by decide +kernel) hm)
    | exact Has.at (by decide) (Has.sub (a := State.portStepMask) (by decide +kernel) hm)
    | exact Has.cell (by decide) (Has.sub (a := State.portStepMask) (by decide +kernel) hm)
    | exact Has.cellNext (by decide) (Has.sub (a := State.portStepMask) (by decide +kernel) hm)
    | exact Has.ite (Has.sub (a := State.portStepMask) (by decide +kernel) hm) (Has.sub (a := State.portStepMask) (by decide +kernel) hm)
    | exact .inr (fun _ => rfl)
    | (intro _; rfl)
    | (intro _; simp; done)
    | (simp; assumption)
    | (refine .inr (fun _ => ?_); simp; done)
    | (refine .inr (fun _ => ?_); (repeat' split) <;> first | rfl | (simp; done))
    | (simp; done)

def State.tableReadMask : Nat :=
  State.rawMarkMask ||| State.portStepMask

theorem State.tableRead_touch {msk : Nat} {s0 : State} {s : State} {p : Path} {page : Nat} {f : Fld} {width : Nat} (hk : Touch msk s0 s) (hm : Sub State.tableReadMask msk) (hf : Has msk (f.key / 64)) :
    Touch msk s0 (State.tableRead s p page f width).1 := by
  unfold State.tableRead
  try dsimp only
  repeat' (with_reducible first
    | assumption
    | exact Touch.refl
    | intro _
    | apply State.rawMark_touch
    | apply State.portStep_touch
    | apply Touch.ite
    | split)
  all_goals with_reducible first
    | exact .inr rfl
    | exact Sub.trans (b := State.tableReadMask) (by decide +kernel) hm
    | exact Has.sub (a := State.tableReadMask) (by decide +kernel) hm
    | exact .inl (Has.sub (a := State.tableReadMask) (by decide +kernel) hm)
    | exact Has.at (by decide) (Has.sub (a := State.tableReadMask) (by decide +kernel) hm)
    | exact Has.cell (by decide) (Has.sub (a := State.tableReadMask) (by decide +kernel) hm)
    | exact Has.cellNext (by decide) (Has.sub (a := State.tableReadMask) (by decide +kernel) hm)
    | exact Has.ite (Has.sub (a := State.tableReadMask) (by decide +kernel) hm) (Has.sub (a := State.tableReadMask) (by decide +kernel) hm)
    | exact .inr (fun _ => rfl)
    | (intro _; rfl)
    | (intro _; simp; done)
    | (simp; assumption)
    | (refine .inr (fun _ => ?_); simp; done)
    | (refine .inr (fun _ => ?_); (repeat' split) <;> first | rfl | (simp; done))
    | (simp; done)

def State.tableWriteMask : Nat :=
  State.tablePutMask ||| State.rawMarkMask ||| State.portStepMask

theorem State.tableWrite_touch {msk : Nat} {s0 : State} {s : State} {p : Path} {page : Nat} {f : Fld} {width : Nat} {v : Word} (hk : Touch msk s0 s) (hm : Sub State.tableWriteMask msk) (hf : Has msk (f.key / 64)) :
    Touch msk s0 (State.tableWrite s p page f width v) := by
  unfold State.tableWrite
  try dsimp only
  repeat' (with_reducible first
    | assumption
    | exact Touch.refl
    | intro _
    | apply State.tablePut_touch
    | apply State.rawMark_touch
    | apply State.portStep_touch
    | apply State.setFld_touch
    | apply Touch.ite
    | split)
  all_goals with_reducible first
    | exact .inr rfl
    | exact Sub.trans (b := State.tableWriteMask) (by decide +kernel) hm
    | exact Has.sub (a := State.tableWriteMask) (by decide +kernel) hm
    | exact .inl (Has.sub (a := State.tableWriteMask) (by decide +kernel) hm)
    | exact Has.at (by decide) (Has.sub (a := State.tableWriteMask) (by decide +kernel) hm)
    | exact Has.cell (by decide) (Has.sub (a := State.tableWriteMask) (by decide +kernel) hm)
    | exact Has.cellNext (by decide) (Has.sub (a := State.tableWriteMask) (by decide +kernel) hm)
    | exact Has.ite (Has.sub (a := State.tableWriteMask) (by decide +kernel) hm) (Has.sub (a := State.tableWriteMask) (by decide +kernel) hm)
    | exact .inr (fun _ => rfl)
    | (intro _; rfl)
    | (intro _; simp; done)
    | (simp; assumption)
    | (refine .inr (fun _ => ?_); simp; done)
    | (refine .inr (fun _ => ?_); (repeat' split) <;> first | rfl | (simp; done))
    | (simp; done)

def State.readRegMask : Nat :=
  State.modPathMask ||| State.readTimSecMask ||| State.rdataReadMask ||| State.tableReadMask ||| rbit R.LMP_TADDR
    ||| rbit R.FDE_TADDR ||| rbit R.HLT_TADDR ||| rbit R.PHY_TADDR ||| rbit R.VLT_RADDR ||| rbit R.SEC_TADDR

theorem State.readReg_touch {msk : Nat} {s0 : State} {s : State} {p : Path} {page : Nat} {off : Nat} (hk : Touch msk s0 s) (hm : Sub State.readRegMask msk) :
    Touch msk s0 (State.readReg s p page off).1 := by
  unfold State.readReg
  try dsimp only
  repeat' (with_reducible first
    | assumption
    | exact Touch.refl
    | intro _
    | apply State.modPath_touch
    | apply State.readTimSec_touch
    | apply State.rdataRead_touch
    | apply State.tableRead_touch
    | (refine Touch.ofEq (by assumption) ?_)
    | apply Touch.ite
    | split)
  all_goals with_reducible first
    | exact tablePort_has (by assumption) (Has.sub (a := State.readRegMask) (by decide +kernel) hm) (Has.sub (a := State.readRegMask) (by decide +kernel) hm) (Has.sub (a := State.readRegMask) (by decide +kernel) hm) (Has.sub (a := State.readRegMask) (by decide +kernel) hm) (Has.sub (a := State.readRegMask) (by decide +kernel) hm) (Has.sub (a := State.readRegMask) (by decide +kernel) hm)
    | exact .inr rfl
    | exact Sub.trans (b := State.readRegMask) (by decide +kernel) hm
    | exact Has.sub (a := State.readRegMask) (by decide +kernel) hm
    | exact .inl (Has.sub (a := State.readRegMask) (by decide +kernel) hm)
    | exact Has.at (by decide) (Has.sub (a := State.readRegMask) (by decide +kernel) hm)
    | exact Has.cell (by decide) (Has.sub (a := State.readRegMask) (by decide +kernel) hm)
    | exact Has.cellNext (by decide) (Has.sub (a := State.readRegMask) (by decide +kernel) hm)
    | exact Has.ite (Has.sub (a := State.readRegMask) (by decide +kernel) hm) (Has.sub (a := State.readRegMask) (by decide +kernel) hm)
    | exact .inr (fun _ => rfl)
    | (intro _; rfl)
    | (intro _; simp; done)
    | (simp; assumption)
    | (refine .inr (fun _ => ?_); simp; done)
    | (refine .inr (fun _ => ?_); (repeat' split) <;> first | rfl | (simp; done))
    | (simp; done)

def State.readPathMask : Nat :=
  State.modPathMask ||| State.readRegMask

theorem State.readPath_touch {msk : Nat} {s0 : State} {s : State} {p : Path} {page : Nat} {off : Nat} (hk : Touch msk s0 s) (hm : Sub State.readPathMask msk) :
    Touch msk s0 (State.readPath s p page off) := by
  unfold State.readPath
  try dsimp only
  repeat' (with_reducible first
    | assumption
    | exact Touch.refl
    | intro _
    | apply State.modPath_touch
    | apply State.readReg_touch
    | (refine Touch.ofEq (by assumption) ?_)
    | split)
  all_goals with_reducible first
    | exact .inr rfl
    | exact Sub.trans (b := State.readPathMask) (by decide +kernel) hm
    | exact Has.sub (a := State.readPathMask) (by decide +kernel) hm
    | exact .inl (Has.sub (a := State.readPathMask) (by decide +kernel) hm)
    | exact Has.at (by decide) (Has.sub (a := State.readPathMask) (by decide +kernel) hm)
    | exact Has.cell (by decide) (Has.sub (a := State.readPathMask) (by decide +kernel) hm)
    | exact Has.cellNext (by decide) (Has.sub (a := State.readPathMask) (by decide +kernel) hm)
    | exact Has.ite (Has.sub (a := State.readPathMask) (by decide +kernel) hm) (Has.sub (a := State.readPathMask) (by decide +kernel) hm)
    | exact .inr (fun _ => rfl)
    | (intro _; rfl)
    | (intro _; simp; done)
    | (simp; assumption)
    | (refine .inr (fun _ => ?_); simp; done)
    | (refine .inr (fun _ => ?_); (repeat' split) <;> first | rfl | (simp; done))
    | (simp; done)

def State.mergeRegMask : Nat :=
  allRegs

theorem State.mergeReg_touch {msk : Nat} {s0 : State} {s : State} {p : Path} {page : Nat} {off : Nat} {i : Nat} {v : Word} (hk : Touch msk s0 s) (hm : Sub State.mergeRegMask msk) :
    Touch msk s0 (State.mergeReg s p page off i v) := by
  unfold State.mergeReg
  split
  · exact hk
  · exact Touch.setRegAll hk hm

def State.unlockWriteMask : Nat :=
  State.modPathMask

theorem State.unlockWrite_touch {msk : Nat} {s0 : State} {s : State} {p : Path} {v : Word} (hk : Touch msk s0 s) (hm : Sub State.unlockWriteMask msk) :
    Touch msk s0 (State.unlockWrite s p v) := by
  unfold State.unlockWrite
  try dsimp only
  repeat' (with_reducible first
    | assumption
    | exact Touch.refl
    | intro _
    | apply State.modPath_touch
    | apply Touch.ite
    | split)
  all_goals with_reducible first
    | exact .inr rfl
    | exact Sub.trans (b := State.unlockWriteMask) (by decide +kernel) hm
    | exact Has.sub (a := State.unlockWriteMask) (by decide +kernel) hm
    | exact .inl (Has.sub (a := State.unlockWriteMask) (by decide +kernel) hm)
    | exact Has.at (by decide) (Has.sub (a := State.unlockWriteMask) (by decide +kernel) hm)
    | exact Has.cell (by decide) (Has.sub (a := State.unlockWriteMask) (by decide +kernel) hm)
    | exact Has.cellNext (by decide) (Has.sub (a := State.unlockWriteMask) (by decide +kernel) hm)
    | exact Has.ite (Has.sub (a := State.unlockWriteMask) (by decide +kernel) hm) (Has.sub (a := State.unlockWriteMask) (by decide +kernel) hm)
    | exact .inr (fun _ => rfl)
    | (intro _; rfl)
    | (intro _; simp; done)
    | (simp; assumption)
    | (refine .inr (fun _ => ?_); simp; done)
    | (refine .inr (fun _ => ?_); (repeat' split) <;> first | rfl | (simp; done))
    | (simp; done)

def State.nmiClearMask : Nat :=
  State.useFreeMask ||| State.modPwrMask ||| State.mergeRegMask ||| rbit R.NMI_STAT

theorem State.nmiClear_touch {msk : Nat} {s0 : State} {s : State} {p : Path} {v : Word} (hk : Touch msk s0 s) (hm : Sub State.nmiClearMask msk) :
    Touch msk s0 (State.nmiClear s p v) := by
  unfold State.nmiClear
  try dsimp only
  repeat' (with_reducible first
    | assumption
    | exact Touch.refl
    | intro _
    | apply State.useFree_touch
    | apply State.modPwr_touch
    | apply State.mergeReg_touch
    | apply State.nmi_touch
    | apply Touch.ite
    | split)
  all_goals with_reducible first
    | exact .inr rfl
    | exact Sub.trans (b := State.nmiClearMask) (by decide +kernel) hm
    | exact Has.sub (a := State.nmiClearMask) (by decide +kernel) hm
    | exact .inl (Has.sub (a := State.nmiClearMask) (by decide +kernel) hm)
    | exact Has.at (by decide) (Has.sub (a := State.nmiClearMask) (by decide +kernel) hm)
    | exact Has.cell (by decide) (Has.sub (a := State.nmiClearMask) (by decide +kernel) hm)
    | exact Has.cellNext (by decide) (Has.sub (a := State.nmiClearMask) (by decide +kernel) hm)
    | exact Has.ite (Has.sub (a := State.nmiClearMask) (by decide +kernel) hm) (Has.sub (a := State.nmiClearMask) (by decide +kernel) hm)
    | exact .inr (fun _ => rfl)
    | (intro _; rfl)
    | (intro _; simp; done)
    | (simp; assumption)
    | (refine .inr (fun _ => ?_); simp; done)
    | (refine .inr (fun _ => ?_); (repeat' split) <;> first | rfl | (simp; done))
    | (simp; done)

def State.tctlMask : Nat :=
  State.lmpOpenMask ||| State.lmpCloseMask ||| State.fdeOpenMask ||| State.fdeCloseMask ||| State.hltOpenMask |||
    State.hltCloseMask ||| State.lmpSaveMask ||| State.fdeSaveMask ||| State.hltSaveMask

theorem State.tctl_touch {msk : Nat} {s0 : State} {s : State} {p : Path} {page : Nat} {code : Nat} (hk : Touch msk s0 s) (hm : Sub State.tctlMask msk) :
    Touch msk s0 (State.tctl s p page code) := by
  unfold State.tctl
  try dsimp only
  repeat' (with_reducible first
    | assumption
    | exact Touch.refl
    | intro _
    | apply State.lmpOpen_touch
    | apply State.lmpClose_touch
    | apply State.fdeOpen_touch
    | apply State.fdeClose_touch
    | apply State.hltOpen_touch
    | apply State.hltClose_touch
    | apply State.lmpSave_touch
    | apply State.fdeSave_touch
    | apply State.hltSave_touch
    | (refine Touch.ofEq (by assumption) ?_)
    | apply Touch.ite
    | split)
  all_goals with_reducible first
    | exact .inr rfl
    | exact Sub.trans (b := State.tctlMask) (by decide +kernel) hm
    | exact Has.sub (a := State.tctlMask) (by decide +kernel) hm
    | exact .inl (Has.sub (a := State.tctlMask) (by decide +kernel) hm)
    | exact Has.at (by decide) (Has.sub (a := State.tctlMask) (by decide +kernel) hm)
    | exact Has.cell (by decide) (Has.sub (a := State.tctlMask) (by decide +kernel) hm)
    | exact Has.cellNext (by decide) (Has.sub (a := State.tctlMask) (by decide +kernel) hm)
    | exact Has.ite (Has.sub (a := State.tctlMask) (by decide +kernel) hm) (Has.sub (a := State.tctlMask) (by decide +kernel) hm)
    | exact .inr (fun _ => rfl)
    | (intro _; rfl)
    | (intro _; simp; done)
    | (simp; assumption)
    | (refine .inr (fun _ => ?_); simp; done)
    | (refine .inr (fun _ => ?_); (repeat' split) <;> first | rfl | (simp; done))
    | (simp; done)

def State.clearFreeMask : Nat :=
  State.useFreeMask

theorem State.clearFree_touch {msk : Nat} {s0 : State} {s : State} {f : State → Word → Word → BitVec 4 → State} (hk : Touch msk s0 s) (hm : Sub State.clearFreeMask msk) (hf : ∀ u0 u1 u2 u3, Touch msk s0 u0 → Touch msk s0 (f u0 u1 u2 u3)) :
    Touch msk s0 (State.clearFree s f) := by
  unfold State.clearFree
  try dsimp only
  repeat' (with_reducible first
    | assumption
    | exact Touch.refl
    | intro _
    | apply State.useFree_touch
    | apply hf)
  all_goals with_reducible first
    | exact .inr rfl
    | exact Sub.trans (b := State.clearFreeMask) (by decide +kernel) hm
    | exact Has.sub (a := State.clearFreeMask) (by decide +kernel) hm
    | exact .inl (Has.sub (a := State.clearFreeMask) (by decide +kernel) hm)
    | exact Has.at (by decide) (Has.sub (a := State.clearFreeMask) (by decide +kernel) hm)
    | exact Has.cell (by decide) (Has.sub (a := State.clearFreeMask) (by decide +kernel) hm)
    | exact Has.cellNext (by decide) (Has.sub (a := State.clearFreeMask) (by decide +kernel) hm)
    | exact Has.ite (Has.sub (a := State.clearFreeMask) (by decide +kernel) hm) (Has.sub (a := State.clearFreeMask) (by decide +kernel) hm)
    | exact .inr (fun _ => rfl)
    | (intro _; rfl)
    | (intro _; simp; done)
    | (simp; assumption)
    | (refine .inr (fun _ => ?_); simp; done)
    | (refine .inr (fun _ => ?_); (repeat' split) <;> first | rfl | (simp; done))
    | (simp; done)

def State.portAddrMask : Nat :=
  State.mergeRegMask ||| Part.vlt.bit

theorem State.portAddr_touch {msk : Nat} {s0 : State} {s : State} {p : Path} {page : Nat} {off : Nat} {v : Word} (hk : Touch msk s0 s) (hm : Sub State.portAddrMask msk) :
    Touch msk s0 (State.portAddr s p page off v) := by
  unfold State.portAddr
  try dsimp only
  repeat' (with_reducible first
    | assumption
    | exact Touch.refl
    | intro _
    | apply Touch.modVlt
    | apply State.mergeReg_touch)
  all_goals with_reducible first
    | exact .inr rfl
    | exact Sub.trans (b := State.portAddrMask) (by decide +kernel) hm
    | exact Has.sub (a := State.portAddrMask) (by decide +kernel) hm
    | exact .inl (Has.sub (a := State.portAddrMask) (by decide +kernel) hm)
    | exact Has.at (by decide) (Has.sub (a := State.portAddrMask) (by decide +kernel) hm)
    | exact Has.cell (by decide) (Has.sub (a := State.portAddrMask) (by decide +kernel) hm)
    | exact Has.cellNext (by decide) (Has.sub (a := State.portAddrMask) (by decide +kernel) hm)
    | exact Has.ite (Has.sub (a := State.portAddrMask) (by decide +kernel) hm) (Has.sub (a := State.portAddrMask) (by decide +kernel) hm)
    | exact .inr (fun _ => rfl)
    | (intro _; rfl)
    | (intro _; simp; done)
    | (simp; assumption)
    | (refine .inr (fun _ => ?_); simp; done)
    | (refine .inr (fun _ => ?_); (repeat' split) <;> first | rfl | (simp; done))
    | (simp; done)

def State.cctlMask : Nat :=
  State.ledRstMask ||| State.modelClrMask ||| State.dtRelearnMask

theorem State.cctl_touch {msk : Nat} {s0 : State} {s : State} {n : Nat} {v : Word} (hk : Touch msk s0 s) (hm : Sub State.cctlMask msk) :
    Touch msk s0 (State.cctl s n v) := by
  unfold State.cctl
  try dsimp only
  repeat' (with_reducible first
    | assumption
    | exact Touch.refl
    | intro _
    | apply State.ledRst_touch
    | apply State.modelClr_touch
    | apply State.dtRelearn_touch
    | apply Touch.ite
    | split)
  all_goals with_reducible first
    | exact .inr rfl
    | exact Sub.trans (b := State.cctlMask) (by decide +kernel) hm
    | exact Has.sub (a := State.cctlMask) (by decide +kernel) hm
    | exact .inl (Has.sub (a := State.cctlMask) (by decide +kernel) hm)
    | exact Has.at (by decide) (Has.sub (a := State.cctlMask) (by decide +kernel) hm)
    | exact Has.cell (by decide) (Has.sub (a := State.cctlMask) (by decide +kernel) hm)
    | exact Has.cellNext (by decide) (Has.sub (a := State.cctlMask) (by decide +kernel) hm)
    | exact Has.ite (Has.sub (a := State.cctlMask) (by decide +kernel) hm) (Has.sub (a := State.cctlMask) (by decide +kernel) hm)
    | exact .inr (fun _ => rfl)
    | (intro _; rfl)
    | (intro _; simp; done)
    | (simp; assumption)
    | (refine .inr (fun _ => ?_); simp; done)
    | (refine .inr (fun _ => ?_); (repeat' split) <;> first | rfl | (simp; done))
    | (simp; done)

def State.shortWriteMask : Nat :=
  State.setShortMask ||| State.seqStartMask ||| State.joinStateMask

theorem State.shortWrite_touch {msk : Nat} {s0 : State} {s : State} {a : Nat} (hk : Touch msk s0 s) (hm : Sub State.shortWriteMask msk) :
    Touch msk s0 (State.shortWrite s a) := by
  unfold State.shortWrite
  try dsimp only
  repeat' (with_reducible first
    | assumption
    | exact Touch.refl
    | intro _
    | apply State.setShort_touch
    | apply State.seqStart_touch
    | apply State.joinState_touch
    | apply Touch.ite
    | split)
  all_goals with_reducible first
    | exact .inr rfl
    | exact Sub.trans (b := State.shortWriteMask) (by decide +kernel) hm
    | exact Has.sub (a := State.shortWriteMask) (by decide +kernel) hm
    | exact .inl (Has.sub (a := State.shortWriteMask) (by decide +kernel) hm)
    | exact Has.at (by decide) (Has.sub (a := State.shortWriteMask) (by decide +kernel) hm)
    | exact Has.cell (by decide) (Has.sub (a := State.shortWriteMask) (by decide +kernel) hm)
    | exact Has.cellNext (by decide) (Has.sub (a := State.shortWriteMask) (by decide +kernel) hm)
    | exact Has.ite (Has.sub (a := State.shortWriteMask) (by decide +kernel) hm) (Has.sub (a := State.shortWriteMask) (by decide +kernel) hm)
    | exact .inr (fun _ => rfl)
    | (intro _; rfl)
    | (intro _; simp; done)
    | (simp; assumption)
    | (refine .inr (fun _ => ?_); simp; done)
    | (refine .inr (fun _ => ?_); (repeat' split) <;> first | rfl | (simp; done))
    | (simp; done)

def State.writeSysMask : Nat :=
  State.holdChangeMask ||| State.hwdKickMask ||| State.sysCtlMask ||| State.mergeRegMask ||| State.unlockWriteMask
    ||| State.nmiClearMask

theorem State.writeSys_touch {msk : Nat} {s0 : State} {s : State} {p : Path} {off : Nat} {v : Word} (hk : Touch msk s0 s) (hm : Sub State.writeSysMask msk) :
    Touch msk s0 (State.writeSys s p off v) := by
  unfold State.writeSys
  try dsimp only
  repeat' (with_reducible first
    | assumption
    | exact Touch.refl
    | intro _
    | apply State.holdChange_touch
    | apply State.hwdKick_touch
    | apply State.sysCtl_touch
    | apply State.mergeReg_touch
    | apply State.unlockWrite_touch
    | apply State.nmiClear_touch
    | (refine Touch.ofEq (by assumption) ?_)
    | apply Touch.ite
    | split)
  all_goals with_reducible first
    | exact .inr rfl
    | exact Sub.trans (b := State.writeSysMask) (by decide +kernel) hm
    | exact Has.sub (a := State.writeSysMask) (by decide +kernel) hm
    | exact .inl (Has.sub (a := State.writeSysMask) (by decide +kernel) hm)
    | exact Has.at (by decide) (Has.sub (a := State.writeSysMask) (by decide +kernel) hm)
    | exact Has.cell (by decide) (Has.sub (a := State.writeSysMask) (by decide +kernel) hm)
    | exact Has.cellNext (by decide) (Has.sub (a := State.writeSysMask) (by decide +kernel) hm)
    | exact Has.ite (Has.sub (a := State.writeSysMask) (by decide +kernel) hm) (Has.sub (a := State.writeSysMask) (by decide +kernel) hm)
    | exact .inr (fun _ => rfl)
    | (intro _; rfl)
    | (intro _; simp; done)
    | (simp; assumption)
    | (refine .inr (fun _ => ?_); simp; done)
    | (refine .inr (fun _ => ?_); (repeat' split) <;> first | rfl | (simp; done))
    | (simp; done)

def State.gateWriteMask : Nat :=
  State.lineStopMask ||| State.mergeRegMask

theorem State.gateWrite_touch {msk : Nat} {s0 : State} {s : State} {p : Path} {off : Nat} {v : Word} (hk : Touch msk s0 s) (hm : Sub State.gateWriteMask msk) :
    Touch msk s0 (State.gateWrite s p off v) := by
  unfold State.gateWrite
  try dsimp only
  repeat' (with_reducible first
    | assumption
    | exact Touch.refl
    | intro _
    | apply State.lineStop_touch
    | apply State.mergeReg_touch
    | apply Touch.ite
    | split)
  all_goals with_reducible first
    | exact .inr rfl
    | exact Sub.trans (b := State.gateWriteMask) (by decide +kernel) hm
    | exact Has.sub (a := State.gateWriteMask) (by decide +kernel) hm
    | exact .inl (Has.sub (a := State.gateWriteMask) (by decide +kernel) hm)
    | exact Has.at (by decide) (Has.sub (a := State.gateWriteMask) (by decide +kernel) hm)
    | exact Has.cell (by decide) (Has.sub (a := State.gateWriteMask) (by decide +kernel) hm)
    | exact Has.cellNext (by decide) (Has.sub (a := State.gateWriteMask) (by decide +kernel) hm)
    | exact Has.ite (Has.sub (a := State.gateWriteMask) (by decide +kernel) hm) (Has.sub (a := State.gateWriteMask) (by decide +kernel) hm)
    | exact .inr (fun _ => rfl)
    | (intro _; rfl)
    | (intro _; simp; done)
    | (simp; assumption)
    | (refine .inr (fun _ => ?_); simp; done)
    | (refine .inr (fun _ => ?_); (repeat' split) <;> first | rfl | (simp; done))
    | (simp; done)

def State.writeClkMask : Nat :=
  State.ircKeepMask ||| State.clkCmdMask ||| State.spreadNowMask ||| State.mergeRegMask ||| State.gateWriteMask

theorem State.writeClk_touch {msk : Nat} {s0 : State} {s : State} {p : Path} {off : Nat} {v : Word} (hk : Touch msk s0 s) (hm : Sub State.writeClkMask msk) :
    Touch msk s0 (State.writeClk s p off v) := by
  unfold State.writeClk
  try dsimp only
  repeat' (with_reducible first
    | assumption
    | exact Touch.refl
    | intro _
    | apply State.ircKeep_touch
    | apply State.clkCmd_touch
    | apply State.spreadNow_touch
    | apply State.mergeReg_touch
    | apply State.gateWrite_touch
    | (refine Touch.ofEq (by assumption) ?_)
    | apply Touch.ite
    | split)
  all_goals with_reducible first
    | exact .inr rfl
    | exact Sub.trans (b := State.writeClkMask) (by decide +kernel) hm
    | exact Has.sub (a := State.writeClkMask) (by decide +kernel) hm
    | exact .inl (Has.sub (a := State.writeClkMask) (by decide +kernel) hm)
    | exact Has.at (by decide) (Has.sub (a := State.writeClkMask) (by decide +kernel) hm)
    | exact Has.cell (by decide) (Has.sub (a := State.writeClkMask) (by decide +kernel) hm)
    | exact Has.cellNext (by decide) (Has.sub (a := State.writeClkMask) (by decide +kernel) hm)
    | exact Has.ite (Has.sub (a := State.writeClkMask) (by decide +kernel) hm) (Has.sub (a := State.writeClkMask) (by decide +kernel) hm)
    | exact .inr (fun _ => rfl)
    | (intro _; rfl)
    | (intro _; simp; done)
    | (simp; assumption)
    | (refine .inr (fun _ => ?_); simp; done)
    | (refine .inr (fun _ => ?_); (repeat' split) <;> first | rfl | (simp; done))
    | (simp; done)

def State.writePwrMask : Nat :=
  State.mergeRegMask ||| rbit R.PWR_LINKOV

theorem State.writePwr_touch {msk : Nat} {s0 : State} {s : State} {p : Path} {off : Nat} {v : Word} (hk : Touch msk s0 s) (hm : Sub State.writePwrMask msk) :
    Touch msk s0 (State.writePwr s p off v) := by
  unfold State.writePwr
  try dsimp only
  repeat' (with_reducible first
    | assumption
    | exact Touch.refl
    | intro _
    | apply State.mergeReg_touch
    | apply State.setFld_touch
    | (refine Touch.ofEq (by assumption) ?_)
    | split)
  all_goals with_reducible first
    | exact .inr rfl
    | exact Sub.trans (b := State.writePwrMask) (by decide +kernel) hm
    | exact Has.sub (a := State.writePwrMask) (by decide +kernel) hm
    | exact .inl (Has.sub (a := State.writePwrMask) (by decide +kernel) hm)
    | exact Has.at (by decide) (Has.sub (a := State.writePwrMask) (by decide +kernel) hm)
    | exact Has.cell (by decide) (Has.sub (a := State.writePwrMask) (by decide +kernel) hm)
    | exact Has.cellNext (by decide) (Has.sub (a := State.writePwrMask) (by decide +kernel) hm)
    | exact Has.ite (Has.sub (a := State.writePwrMask) (by decide +kernel) hm) (Has.sub (a := State.writePwrMask) (by decide +kernel) hm)
    | exact .inr (fun _ => rfl)
    | (intro _; rfl)
    | (intro _; simp; done)
    | (simp; assumption)
    | (refine .inr (fun _ => ?_); simp; done)
    | (refine .inr (fun _ => ?_); (repeat' split) <;> first | rfl | (simp; done))
    | (simp; done)

def State.writeKeepMask : Nat :=
  State.keepLiveMask ||| State.mergeRegMask

theorem State.writeKeep_touch {msk : Nat} {s0 : State} {s : State} {p : Path} {off : Nat} {v : Word} (hk : Touch msk s0 s) (hm : Sub State.writeKeepMask msk) :
    Touch msk s0 (State.writeKeep s p off v) := by
  unfold State.writeKeep
  try dsimp only
  repeat' (with_reducible first
    | assumption
    | exact Touch.refl
    | intro _
    | apply State.keepLive_touch
    | apply State.mergeReg_touch
    | (refine Touch.ofEq (by assumption) ?_)
    | split)
  all_goals with_reducible first
    | exact .inr rfl
    | exact Sub.trans (b := State.writeKeepMask) (by decide +kernel) hm
    | exact Has.sub (a := State.writeKeepMask) (by decide +kernel) hm
    | exact .inl (Has.sub (a := State.writeKeepMask) (by decide +kernel) hm)
    | exact Has.at (by decide) (Has.sub (a := State.writeKeepMask) (by decide +kernel) hm)
    | exact Has.cell (by decide) (Has.sub (a := State.writeKeepMask) (by decide +kernel) hm)
    | exact Has.cellNext (by decide) (Has.sub (a := State.writeKeepMask) (by decide +kernel) hm)
    | exact Has.ite (Has.sub (a := State.writeKeepMask) (by decide +kernel) hm) (Has.sub (a := State.writeKeepMask) (by decide +kernel) hm)
    | exact .inr (fun _ => rfl)
    | (intro _; rfl)
    | (intro _; simp; done)
    | (simp; assumption)
    | (refine .inr (fun _ => ?_); simp; done)
    | (refine .inr (fun _ => ?_); (repeat' split) <;> first | rfl | (simp; done))
    | (simp; done)

def State.writePwmMask : Nat :=
  State.enaSetMask ||| State.globalLevelsMask ||| State.mergeRegMask

theorem State.writePwm_touch {msk : Nat} {s0 : State} {s : State} {p : Path} {off : Nat} {v : Word} (hk : Touch msk s0 s) (hm : Sub State.writePwmMask msk) :
    Touch msk s0 (State.writePwm s p off v) := by
  unfold State.writePwm
  try dsimp only
  repeat' (with_reducible first
    | assumption
    | exact Touch.refl
    | intro _
    | apply State.enaSet_touch
    | apply State.globalLevels_touch
    | apply State.mergeReg_touch
    | (refine Touch.ofEq (by assumption) ?_)
    | split)
  all_goals with_reducible first
    | exact .inr rfl
    | exact Sub.trans (b := State.writePwmMask) (by decide +kernel) hm
    | exact Has.sub (a := State.writePwmMask) (by decide +kernel) hm
    | exact .inl (Has.sub (a := State.writePwmMask) (by decide +kernel) hm)
    | exact Has.at (by decide) (Has.sub (a := State.writePwmMask) (by decide +kernel) hm)
    | exact Has.cell (by decide) (Has.sub (a := State.writePwmMask) (by decide +kernel) hm)
    | exact Has.cellNext (by decide) (Has.sub (a := State.writePwmMask) (by decide +kernel) hm)
    | exact Has.ite (Has.sub (a := State.writePwmMask) (by decide +kernel) hm) (Has.sub (a := State.writePwmMask) (by decide +kernel) hm)
    | exact .inr (fun _ => rfl)
    | (intro _; rfl)
    | (intro _; simp; done)
    | (simp; assumption)
    | (refine .inr (fun _ => ?_); simp; done)
    | (refine .inr (fun _ => ?_); (repeat' split) <;> first | rfl | (simp; done))
    | (simp; done)

def State.writeCurMask : Nat :=
  State.dperMovedMask ||| State.mergeRegMask

theorem State.writeCur_touch {msk : Nat} {s0 : State} {s : State} {p : Path} {off : Nat} {v : Word} (hk : Touch msk s0 s) (hm : Sub State.writeCurMask msk) :
    Touch msk s0 (State.writeCur s p off v) := by
  unfold State.writeCur
  try dsimp only
  repeat' (with_reducible first
    | assumption
    | exact Touch.refl
    | intro _
    | apply State.dperMoved_touch
    | apply State.mergeReg_touch
    | (refine Touch.ofEq (by assumption) ?_)
    | split)
  all_goals with_reducible first
    | exact .inr rfl
    | exact Sub.trans (b := State.writeCurMask) (by decide +kernel) hm
    | exact Has.sub (a := State.writeCurMask) (by decide +kernel) hm
    | exact .inl (Has.sub (a := State.writeCurMask) (by decide +kernel) hm)
    | exact Has.at (by decide) (Has.sub (a := State.writeCurMask) (by decide +kernel) hm)
    | exact Has.cell (by decide) (Has.sub (a := State.writeCurMask) (by decide +kernel) hm)
    | exact Has.cellNext (by decide) (Has.sub (a := State.writeCurMask) (by decide +kernel) hm)
    | exact Has.ite (Has.sub (a := State.writeCurMask) (by decide +kernel) hm) (Has.sub (a := State.writeCurMask) (by decide +kernel) hm)
    | exact .inr (fun _ => rfl)
    | (intro _; rfl)
    | (intro _; simp; done)
    | (simp; assumption)
    | (refine .inr (fun _ => ?_); simp; done)
    | (refine .inr (fun _ => ?_); (repeat' split) <;> first | rfl | (simp; done))
    | (simp; done)

def State.writeLmpMask : Nat :=
  State.mergeRegMask ||| State.tctlMask ||| State.portAddrMask

theorem State.writeLmp_touch {msk : Nat} {s0 : State} {s : State} {p : Path} {off : Nat} {v : Word} (hk : Touch msk s0 s) (hm : Sub State.writeLmpMask msk) :
    Touch msk s0 (State.writeLmp s p off v) := by
  unfold State.writeLmp
  try dsimp only
  repeat' (with_reducible first
    | assumption
    | exact Touch.refl
    | intro _
    | apply State.mergeReg_touch
    | apply State.tctl_touch
    | apply State.portAddr_touch
    | (refine Touch.ofEq (by assumption) ?_)
    | split)
  all_goals with_reducible first
    | exact .inr rfl
    | exact Sub.trans (b := State.writeLmpMask) (by decide +kernel) hm
    | exact Has.sub (a := State.writeLmpMask) (by decide +kernel) hm
    | exact .inl (Has.sub (a := State.writeLmpMask) (by decide +kernel) hm)
    | exact Has.at (by decide) (Has.sub (a := State.writeLmpMask) (by decide +kernel) hm)
    | exact Has.cell (by decide) (Has.sub (a := State.writeLmpMask) (by decide +kernel) hm)
    | exact Has.cellNext (by decide) (Has.sub (a := State.writeLmpMask) (by decide +kernel) hm)
    | exact Has.ite (Has.sub (a := State.writeLmpMask) (by decide +kernel) hm) (Has.sub (a := State.writeLmpMask) (by decide +kernel) hm)
    | exact .inr (fun _ => rfl)
    | (intro _; rfl)
    | (intro _; simp; done)
    | (simp; assumption)
    | (refine .inr (fun _ => ?_); simp; done)
    | (refine .inr (fun _ => ?_); (repeat' split) <;> first | rfl | (simp; done))
    | (simp; done)

def State.writeFdeMask : Nat :=
  State.rcmdMask ||| State.mergeRegMask ||| State.tctlMask ||| State.portAddrMask ||| Part.fde.bit

theorem State.writeFde_touch {msk : Nat} {s0 : State} {s : State} {p : Path} {off : Nat} {v : Word} (hk : Touch msk s0 s) (hm : Sub State.writeFdeMask msk) :
    Touch msk s0 (State.writeFde s p off v) := by
  unfold State.writeFde
  try dsimp only
  repeat' (with_reducible first
    | assumption
    | exact Touch.refl
    | intro _
    | apply Touch.modFde
    | apply State.rcmd_touch
    | apply State.mergeReg_touch
    | apply State.tctl_touch
    | apply State.portAddr_touch
    | (refine Touch.ofEq (by assumption) ?_)
    | apply Touch.ite
    | split)
  all_goals with_reducible first
    | exact .inr rfl
    | exact Sub.trans (b := State.writeFdeMask) (by decide +kernel) hm
    | exact Has.sub (a := State.writeFdeMask) (by decide +kernel) hm
    | exact .inl (Has.sub (a := State.writeFdeMask) (by decide +kernel) hm)
    | exact Has.at (by decide) (Has.sub (a := State.writeFdeMask) (by decide +kernel) hm)
    | exact Has.cell (by decide) (Has.sub (a := State.writeFdeMask) (by decide +kernel) hm)
    | exact Has.cellNext (by decide) (Has.sub (a := State.writeFdeMask) (by decide +kernel) hm)
    | exact Has.ite (Has.sub (a := State.writeFdeMask) (by decide +kernel) hm) (Has.sub (a := State.writeFdeMask) (by decide +kernel) hm)
    | exact .inr (fun _ => rfl)
    | (intro _; rfl)
    | (intro _; simp; done)
    | (simp; assumption)
    | (refine .inr (fun _ => ?_); simp; done)
    | (refine .inr (fun _ => ?_); (repeat' split) <;> first | rfl | (simp; done))
    | (simp; done)

def State.writeHltMask : Nat :=
  State.proofRequestMask ||| State.mergeRegMask ||| State.tctlMask ||| State.portAddrMask

theorem State.writeHlt_touch {msk : Nat} {s0 : State} {s : State} {p : Path} {off : Nat} {v : Word} (hk : Touch msk s0 s) (hm : Sub State.writeHltMask msk) :
    Touch msk s0 (State.writeHlt s p off v) := by
  unfold State.writeHlt
  try dsimp only
  repeat' (with_reducible first
    | assumption
    | exact Touch.refl
    | intro _
    | apply Touch.forChans
    | apply State.proofRequest_touch
    | apply State.mergeReg_touch
    | apply State.tctl_touch
    | apply State.portAddr_touch
    | (refine Touch.ofEq (by assumption) ?_)
    | apply Touch.ite
    | split)
  all_goals with_reducible first
    | exact .inr rfl
    | exact Sub.trans (b := State.writeHltMask) (by decide +kernel) hm
    | exact Has.sub (a := State.writeHltMask) (by decide +kernel) hm
    | exact .inl (Has.sub (a := State.writeHltMask) (by decide +kernel) hm)
    | exact Has.at (by decide) (Has.sub (a := State.writeHltMask) (by decide +kernel) hm)
    | exact Has.cell (by decide) (Has.sub (a := State.writeHltMask) (by decide +kernel) hm)
    | exact Has.cellNext (by decide) (Has.sub (a := State.writeHltMask) (by decide +kernel) hm)
    | exact Has.ite (Has.sub (a := State.writeHltMask) (by decide +kernel) hm) (Has.sub (a := State.writeHltMask) (by decide +kernel) hm)
    | exact .inr (fun _ => rfl)
    | (intro _; rfl)
    | (intro _; simp; done)
    | (simp; assumption)
    | (refine .inr (fun _ => ?_); simp; done)
    | (refine .inr (fun _ => ?_); (repeat' split) <;> first | rfl | (simp; done))
    | (simp; done)

def State.writePhyMask : Nat :=
  State.mergeRegMask ||| State.portAddrMask

theorem State.writePhy_touch {msk : Nat} {s0 : State} {s : State} {p : Path} {off : Nat} {v : Word} (hk : Touch msk s0 s) (hm : Sub State.writePhyMask msk) :
    Touch msk s0 (State.writePhy s p off v) := by
  unfold State.writePhy
  try dsimp only
  repeat' (with_reducible first
    | assumption
    | exact Touch.refl
    | intro _
    | apply State.mergeReg_touch
    | apply State.portAddr_touch
    | (refine Touch.ofEq (by assumption) ?_)
    | split)
  all_goals with_reducible first
    | exact .inr rfl
    | exact Sub.trans (b := State.writePhyMask) (by decide +kernel) hm
    | exact Has.sub (a := State.writePhyMask) (by decide +kernel) hm
    | exact .inl (Has.sub (a := State.writePhyMask) (by decide +kernel) hm)
    | exact Has.at (by decide) (Has.sub (a := State.writePhyMask) (by decide +kernel) hm)
    | exact Has.cell (by decide) (Has.sub (a := State.writePhyMask) (by decide +kernel) hm)
    | exact Has.cellNext (by decide) (Has.sub (a := State.writePhyMask) (by decide +kernel) hm)
    | exact Has.ite (Has.sub (a := State.writePhyMask) (by decide +kernel) hm) (Has.sub (a := State.writePhyMask) (by decide +kernel) hm)
    | exact .inr (fun _ => rfl)
    | (intro _; rfl)
    | (intro _; simp; done)
    | (simp; assumption)
    | (refine .inr (fun _ => ?_); simp; done)
    | (refine .inr (fun _ => ?_); (repeat' split) <;> first | rfl | (simp; done))
    | (simp; done)

def State.writeMacMask : Nat :=
  State.roleWriteMask ||| State.rdataWriteMask ||| State.rctlWriteMask ||| State.mergeRegMask |||
    State.shortWriteMask

theorem State.writeMac_touch {msk : Nat} {s0 : State} {s : State} {p : Path} {off : Nat} {v : Word} (hk : Touch msk s0 s) (hm : Sub State.writeMacMask msk) :
    Touch msk s0 (State.writeMac s p off v) := by
  unfold State.writeMac
  try dsimp only
  repeat' (with_reducible first
    | assumption
    | exact Touch.refl
    | intro _
    | apply State.roleWrite_touch
    | apply State.rdataWrite_touch
    | apply State.rctlWrite_touch
    | apply State.mergeReg_touch
    | apply State.shortWrite_touch
    | (refine Touch.ofEq (by assumption) ?_)
    | apply Touch.ite
    | split)
  all_goals with_reducible first
    | exact .inr rfl
    | exact Sub.trans (b := State.writeMacMask) (by decide +kernel) hm
    | exact Has.sub (a := State.writeMacMask) (by decide +kernel) hm
    | exact .inl (Has.sub (a := State.writeMacMask) (by decide +kernel) hm)
    | exact Has.at (by decide) (Has.sub (a := State.writeMacMask) (by decide +kernel) hm)
    | exact Has.cell (by decide) (Has.sub (a := State.writeMacMask) (by decide +kernel) hm)
    | exact Has.cellNext (by decide) (Has.sub (a := State.writeMacMask) (by decide +kernel) hm)
    | exact Has.ite (Has.sub (a := State.writeMacMask) (by decide +kernel) hm) (Has.sub (a := State.writeMacMask) (by decide +kernel) hm)
    | exact .inr (fun _ => rfl)
    | (intro _; rfl)
    | (intro _; simp; done)
    | (simp; assumption)
    | (refine .inr (fun _ => ?_); simp; done)
    | (refine .inr (fun _ => ?_); (repeat' split) <;> first | rfl | (simp; done))
    | (simp; done)

def State.writeTimMask : Nat :=
  State.timCmdMask ||| State.offsetMovedMask ||| State.alarmWriteMask ||| State.mergeRegMask

theorem State.writeTim_touch {msk : Nat} {s0 : State} {s : State} {p : Path} {off : Nat} {v : Word} (hk : Touch msk s0 s) (hm : Sub State.writeTimMask msk) :
    Touch msk s0 (State.writeTim s p off v) := by
  unfold State.writeTim
  try dsimp only
  repeat' (with_reducible first
    | assumption
    | exact Touch.refl
    | intro _
    | apply State.timCmd_touch
    | apply State.offsetMoved_touch
    | apply State.alarmWrite_touch
    | apply State.mergeReg_touch
    | (refine Touch.ofEq (by assumption) ?_)
    | split)
  all_goals with_reducible first
    | exact .inr rfl
    | exact Sub.trans (b := State.writeTimMask) (by decide +kernel) hm
    | exact Has.sub (a := State.writeTimMask) (by decide +kernel) hm
    | exact .inl (Has.sub (a := State.writeTimMask) (by decide +kernel) hm)
    | exact Has.at (by decide) (Has.sub (a := State.writeTimMask) (by decide +kernel) hm)
    | exact Has.cell (by decide) (Has.sub (a := State.writeTimMask) (by decide +kernel) hm)
    | exact Has.cellNext (by decide) (Has.sub (a := State.writeTimMask) (by decide +kernel) hm)
    | exact Has.ite (Has.sub (a := State.writeTimMask) (by decide +kernel) hm) (Has.sub (a := State.writeTimMask) (by decide +kernel) hm)
    | exact .inr (fun _ => rfl)
    | (intro _; rfl)
    | (intro _; simp; done)
    | (simp; assumption)
    | (refine .inr (fun _ => ?_); simp; done)
    | (refine .inr (fun _ => ?_); (repeat' split) <;> first | rfl | (simp; done))
    | (simp; done)

def State.writeGtuMask : Nat :=
  State.gtuEnaMask ||| State.gtuTrgMask ||| State.mergeRegMask

theorem State.writeGtu_touch {msk : Nat} {s0 : State} {s : State} {p : Path} {off : Nat} {v : Word} (hk : Touch msk s0 s) (hm : Sub State.writeGtuMask msk) :
    Touch msk s0 (State.writeGtu s p off v) := by
  unfold State.writeGtu
  try dsimp only
  repeat' (with_reducible first
    | assumption
    | exact Touch.refl
    | intro _
    | apply State.gtuEna_touch
    | apply State.gtuTrg_touch
    | apply State.mergeReg_touch
    | (refine Touch.ofEq (by assumption) ?_)
    | split)
  all_goals with_reducible first
    | exact .inr rfl
    | exact Sub.trans (b := State.writeGtuMask) (by decide +kernel) hm
    | exact Has.sub (a := State.writeGtuMask) (by decide +kernel) hm
    | exact .inl (Has.sub (a := State.writeGtuMask) (by decide +kernel) hm)
    | exact Has.at (by decide) (Has.sub (a := State.writeGtuMask) (by decide +kernel) hm)
    | exact Has.cell (by decide) (Has.sub (a := State.writeGtuMask) (by decide +kernel) hm)
    | exact Has.cellNext (by decide) (Has.sub (a := State.writeGtuMask) (by decide +kernel) hm)
    | exact Has.ite (Has.sub (a := State.writeGtuMask) (by decide +kernel) hm) (Has.sub (a := State.writeGtuMask) (by decide +kernel) hm)
    | exact .inr (fun _ => rfl)
    | (intro _; rfl)
    | (intro _; simp; done)
    | (simp; assumption)
    | (refine .inr (fun _ => ?_); simp; done)
    | (refine .inr (fun _ => ?_); (repeat' split) <;> first | rfl | (simp; done))
    | (simp; done)

def State.writeVltMask : Nat :=
  State.rselWriteMask ||| State.pwdWriteMask ||| State.vltCmdMask ||| State.mergeRegMask ||| State.portAddrMask

theorem State.writeVlt_touch {msk : Nat} {s0 : State} {s : State} {p : Path} {off : Nat} {v : Word} (hk : Touch msk s0 s) (hm : Sub State.writeVltMask msk) :
    Touch msk s0 (State.writeVlt s p off v) := by
  unfold State.writeVlt
  try dsimp only
  repeat' (with_reducible first
    | assumption
    | exact Touch.refl
    | intro _
    | apply State.rselWrite_touch
    | apply State.pwdWrite_touch
    | apply State.vltCmd_touch
    | apply State.mergeReg_touch
    | apply State.portAddr_touch
    | (refine Touch.ofEq (by assumption) ?_)
    | split)
  all_goals with_reducible first
    | exact .inr rfl
    | exact Sub.trans (b := State.writeVltMask) (by decide +kernel) hm
    | exact Has.sub (a := State.writeVltMask) (by decide +kernel) hm
    | exact .inl (Has.sub (a := State.writeVltMask) (by decide +kernel) hm)
    | exact Has.at (by decide) (Has.sub (a := State.writeVltMask) (by decide +kernel) hm)
    | exact Has.cell (by decide) (Has.sub (a := State.writeVltMask) (by decide +kernel) hm)
    | exact Has.cellNext (by decide) (Has.sub (a := State.writeVltMask) (by decide +kernel) hm)
    | exact Has.ite (Has.sub (a := State.writeVltMask) (by decide +kernel) hm) (Has.sub (a := State.writeVltMask) (by decide +kernel) hm)
    | exact .inr (fun _ => rfl)
    | (intro _; rfl)
    | (intro _; simp; done)
    | (simp; assumption)
    | (refine .inr (fun _ => ?_); simp; done)
    | (refine .inr (fun _ => ?_); (repeat' split) <;> first | rfl | (simp; done))
    | (simp; done)

def State.writeSecMask : Nat :=
  State.secCmdMask ||| State.kdataWriteMask ||| State.slotSelectMask ||| State.mergeRegMask ||| State.portAddrMask

theorem State.writeSec_touch {msk : Nat} {s0 : State} {s : State} {p : Path} {off : Nat} {v : Word} (hk : Touch msk s0 s) (hm : Sub State.writeSecMask msk) :
    Touch msk s0 (State.writeSec s p off v) := by
  unfold State.writeSec
  try dsimp only
  repeat' (with_reducible first
    | assumption
    | exact Touch.refl
    | intro _
    | apply State.secCmd_touch
    | apply State.kdataWrite_touch
    | apply State.slotSelect_touch
    | apply State.mergeReg_touch
    | apply State.portAddr_touch
    | (refine Touch.ofEq (by assumption) ?_)
    | split)
  all_goals with_reducible first
    | exact .inr rfl
    | exact Sub.trans (b := State.writeSecMask) (by decide +kernel) hm
    | exact Has.sub (a := State.writeSecMask) (by decide +kernel) hm
    | exact .inl (Has.sub (a := State.writeSecMask) (by decide +kernel) hm)
    | exact Has.at (by decide) (Has.sub (a := State.writeSecMask) (by decide +kernel) hm)
    | exact Has.cell (by decide) (Has.sub (a := State.writeSecMask) (by decide +kernel) hm)
    | exact Has.cellNext (by decide) (Has.sub (a := State.writeSecMask) (by decide +kernel) hm)
    | exact Has.ite (Has.sub (a := State.writeSecMask) (by decide +kernel) hm) (Has.sub (a := State.writeSecMask) (by decide +kernel) hm)
    | exact .inr (fun _ => rfl)
    | (intro _; rfl)
    | (intro _; simp; done)
    | (simp; assumption)
    | (refine .inr (fun _ => ?_); simp; done)
    | (refine .inr (fun _ => ?_); (repeat' split) <;> first | rfl | (simp; done))
    | (simp; done)

def State.writeLogMask : Nat :=
  State.sealWriteMask ||| State.hostPostMask ||| State.mergeRegMask

theorem State.writeLog_touch {msk : Nat} {s0 : State} {s : State} {p : Path} {off : Nat} {v : Word} (hk : Touch msk s0 s) (hm : Sub State.writeLogMask msk) :
    Touch msk s0 (State.writeLog s p off v) := by
  unfold State.writeLog
  try dsimp only
  repeat' (with_reducible first
    | assumption
    | exact Touch.refl
    | intro _
    | apply State.sealWrite_touch
    | apply State.hostPost_touch
    | apply State.mergeReg_touch
    | (refine Touch.ofEq (by assumption) ?_)
    | split)
  all_goals with_reducible first
    | exact .inr rfl
    | exact Sub.trans (b := State.writeLogMask) (by decide +kernel) hm
    | exact Has.sub (a := State.writeLogMask) (by decide +kernel) hm
    | exact .inl (Has.sub (a := State.writeLogMask) (by decide +kernel) hm)
    | exact Has.at (by decide) (Has.sub (a := State.writeLogMask) (by decide +kernel) hm)
    | exact Has.cell (by decide) (Has.sub (a := State.writeLogMask) (by decide +kernel) hm)
    | exact Has.cellNext (by decide) (Has.sub (a := State.writeLogMask) (by decide +kernel) hm)
    | exact Has.ite (Has.sub (a := State.writeLogMask) (by decide +kernel) hm) (Has.sub (a := State.writeLogMask) (by decide +kernel) hm)
    | exact .inr (fun _ => rfl)
    | (intro _; rfl)
    | (intro _; simp; done)
    | (simp; assumption)
    | (refine .inr (fun _ => ?_); simp; done)
    | (refine .inr (fun _ => ?_); (repeat' split) <;> first | rfl | (simp; done))
    | (simp; done)

def State.plainWriteMask : Nat :=
  State.mergeRegMask ||| State.writeSysMask ||| State.writeClkMask ||| State.writePwrMask ||| State.writeKeepMask
    ||| State.writePwmMask ||| State.writeCurMask ||| State.writeLmpMask ||| State.writeFdeMask |||
    State.writeHltMask ||| State.writePhyMask ||| State.writeMacMask ||| State.writeTimMask ||| State.writeGtuMask
    ||| State.writeVltMask ||| State.writeSecMask ||| State.writeLogMask

theorem State.plainWrite_touch {msk : Nat} {s0 : State} {s : State} {p : Path} {page : Nat} {off : Nat} {v : Word} (hk : Touch msk s0 s) (hm : Sub State.plainWriteMask msk) :
    Touch msk s0 (State.plainWrite s p page off v) := by
  unfold State.plainWrite
  try dsimp only
  repeat' (with_reducible first
    | assumption
    | exact Touch.refl
    | intro _
    | apply State.mergeReg_touch
    | apply State.writeSys_touch
    | apply State.writeClk_touch
    | apply State.writePwr_touch
    | apply State.writeKeep_touch
    | apply State.writePwm_touch
    | apply State.writeCur_touch
    | apply State.writeLmp_touch
    | apply State.writeFde_touch
    | apply State.writeHlt_touch
    | apply State.writePhy_touch
    | apply State.writeMac_touch
    | apply State.writeTim_touch
    | apply State.writeGtu_touch
    | apply State.writeVlt_touch
    | apply State.writeSec_touch
    | apply State.writeLog_touch
    | (refine Touch.ofEq (by assumption) ?_)
    | split)
  all_goals with_reducible first
    | exact .inr rfl
    | exact Sub.trans (b := State.plainWriteMask) (by decide +kernel) hm
    | exact Has.sub (a := State.plainWriteMask) (by decide +kernel) hm
    | exact .inl (Has.sub (a := State.plainWriteMask) (by decide +kernel) hm)
    | exact Has.at (by decide) (Has.sub (a := State.plainWriteMask) (by decide +kernel) hm)
    | exact Has.cell (by decide) (Has.sub (a := State.plainWriteMask) (by decide +kernel) hm)
    | exact Has.cellNext (by decide) (Has.sub (a := State.plainWriteMask) (by decide +kernel) hm)
    | exact Has.ite (Has.sub (a := State.plainWriteMask) (by decide +kernel) hm) (Has.sub (a := State.plainWriteMask) (by decide +kernel) hm)
    | exact .inr (fun _ => rfl)
    | (intro _; rfl)
    | (intro _; simp; done)
    | (simp; assumption)
    | (refine .inr (fun _ => ?_); simp; done)
    | (refine .inr (fun _ => ?_); (repeat' split) <;> first | rfl | (simp; done))
    | (simp; done)

def State.indexWriteMask : Nat :=
  State.shadowWriteMask ||| State.forceWriteMask ||| State.tripClrMask ||| State.chanFreezeMask |||
    State.chanResumeMask ||| State.lockClrMask ||| State.lmpMapWriteMask ||| State.lmpCfgWriteMask |||
    State.hatWriteMask ||| State.mergeRegMask ||| State.clearFreeMask ||| State.cctlMask ||| rbit R.CUR_TRIMV |||
    Part.gtu.bit ||| Part.pwm.bit

theorem State.indexWrite_touch {msk : Nat} {s0 : State} {s : State} {p : Path} {page : Nat} {off : Nat} {i : Nat} {v : Word} (hk : Touch msk s0 s) (hm : Sub State.indexWriteMask msk) :
    Touch msk s0 (State.indexWrite s p page off i v) := by
  unfold State.indexWrite
  try dsimp only
  repeat' (with_reducible first
    | assumption
    | exact Touch.refl
    | intro _
    | apply Touch.setReg
    | apply Touch.modChan
    | apply State.shadowWrite_touch
    | apply State.forceWrite_touch
    | apply State.tripClr_touch
    | apply State.chanFreeze_touch
    | apply State.chanResume_touch
    | apply State.lockClr_touch
    | apply State.lmpMapWrite_touch
    | apply State.lmpCfgWrite_touch
    | apply Touch.modGt
    | apply State.hatWrite_touch
    | apply State.mergeReg_touch
    | apply State.clearFree_touch
    | apply State.cctl_touch
    | (refine Touch.ofEq (by assumption) ?_)
    | apply Touch.ite
    | apply Touch.setReg
    | split)
  all_goals with_reducible first
    | exact .inr rfl
    | exact Sub.trans (b := State.indexWriteMask) (by decide +kernel) hm
    | exact Has.sub (a := State.indexWriteMask) (by decide +kernel) hm
    | exact .inl (Has.sub (a := State.indexWriteMask) (by decide +kernel) hm)
    | exact Has.at (by decide) (Has.sub (a := State.indexWriteMask) (by decide +kernel) hm)
    | exact Has.cell (by decide) (Has.sub (a := State.indexWriteMask) (by decide +kernel) hm)
    | exact Has.cellNext (by decide) (Has.sub (a := State.indexWriteMask) (by decide +kernel) hm)
    | exact Has.ite (Has.sub (a := State.indexWriteMask) (by decide +kernel) hm) (Has.sub (a := State.indexWriteMask) (by decide +kernel) hm)
    | exact .inr (fun _ => rfl)
    | (intro _; rfl)
    | (intro _; simp; done)
    | (simp; assumption)
    | (refine .inr (fun _ => ?_); simp; done)
    | (refine .inr (fun _ => ?_); (repeat' split) <;> first | rfl | (simp; done))
    | (simp; done)

def State.pairWriteMask : Nat :=
  State.gtValueMask ||| State.mergeRegMask

theorem State.pairWrite_touch {msk : Nat} {s0 : State} {s : State} {p : Path} {page : Nat} {off : Nat} {i : Nat} {lo : Word} {hi : Option Word} (hk : Touch msk s0 s) (hm : Sub State.pairWriteMask msk) :
    Touch msk s0 (State.pairWrite s p page off i lo hi) := by
  unfold State.pairWrite
  try dsimp only
  repeat' (with_reducible first
    | assumption
    | exact Touch.refl
    | intro _
    | apply State.gtValue_touch
    | apply State.mergeReg_touch
    | (refine Touch.ofEq (by assumption) ?_)
    | apply Touch.ite
    | split)
  all_goals with_reducible first
    | exact .inr rfl
    | exact Sub.trans (b := State.pairWriteMask) (by decide +kernel) hm
    | exact Has.sub (a := State.pairWriteMask) (by decide +kernel) hm
    | exact .inl (Has.sub (a := State.pairWriteMask) (by decide +kernel) hm)
    | exact Has.at (by decide) (Has.sub (a := State.pairWriteMask) (by decide +kernel) hm)
    | exact Has.cell (by decide) (Has.sub (a := State.pairWriteMask) (by decide +kernel) hm)
    | exact Has.cellNext (by decide) (Has.sub (a := State.pairWriteMask) (by decide +kernel) hm)
    | exact Has.ite (Has.sub (a := State.pairWriteMask) (by decide +kernel) hm) (Has.sub (a := State.pairWriteMask) (by decide +kernel) hm)
    | exact .inr (fun _ => rfl)
    | (intro _; rfl)
    | (intro _; simp; done)
    | (simp; assumption)
    | (refine .inr (fun _ => ?_); simp; done)
    | (refine .inr (fun _ => ?_); (repeat' split) <;> first | rfl | (simp; done))
    | (simp; done)

def State.writeRegMask : Nat :=
  State.modPathMask ||| State.tableWriteMask ||| State.plainWriteMask ||| State.indexWriteMask |||
    State.pairWriteMask ||| rbit R.LMP_TADDR ||| rbit R.FDE_TADDR ||| rbit R.HLT_TADDR ||| rbit R.PHY_TADDR ||| rbit
    R.VLT_RADDR ||| rbit R.SEC_TADDR

theorem State.writeReg_touch {msk : Nat} {s0 : State} {s : State} {p : Path} {page : Nat} {off : Nat} {v : Word} (hk : Touch msk s0 s) (hm : Sub State.writeRegMask msk) :
    Touch msk s0 (State.writeReg s p page off v) := by
  unfold State.writeReg
  try dsimp only
  repeat' (with_reducible first
    | assumption
    | exact Touch.refl
    | intro _
    | apply State.modPath_touch
    | apply State.tableWrite_touch
    | apply State.plainWrite_touch
    | apply State.indexWrite_touch
    | apply State.pairWrite_touch
    | (refine Touch.ofEq (by assumption) ?_)
    | apply Touch.ite
    | apply Touch.foldl
    | apply Touch.foldlFst
    | split)
  all_goals with_reducible first
    | exact tablePort_has (by assumption) (Has.sub (a := State.writeRegMask) (by decide +kernel) hm) (Has.sub (a := State.writeRegMask) (by decide +kernel) hm) (Has.sub (a := State.writeRegMask) (by decide +kernel) hm) (Has.sub (a := State.writeRegMask) (by decide +kernel) hm) (Has.sub (a := State.writeRegMask) (by decide +kernel) hm) (Has.sub (a := State.writeRegMask) (by decide +kernel) hm)
    | exact .inr rfl
    | exact Sub.trans (b := State.writeRegMask) (by decide +kernel) hm
    | exact Has.sub (a := State.writeRegMask) (by decide +kernel) hm
    | exact .inl (Has.sub (a := State.writeRegMask) (by decide +kernel) hm)
    | exact Has.at (by decide) (Has.sub (a := State.writeRegMask) (by decide +kernel) hm)
    | exact Has.cell (by decide) (Has.sub (a := State.writeRegMask) (by decide +kernel) hm)
    | exact Has.cellNext (by decide) (Has.sub (a := State.writeRegMask) (by decide +kernel) hm)
    | exact Has.ite (Has.sub (a := State.writeRegMask) (by decide +kernel) hm) (Has.sub (a := State.writeRegMask) (by decide +kernel) hm)
    | exact .inr (fun _ => rfl)
    | (intro _; rfl)
    | (intro _; simp; done)
    | (simp; assumption)
    | (refine .inr (fun _ => ?_); simp; done)
    | (refine .inr (fun _ => ?_); (repeat' split) <;> first | rfl | (simp; done))
    | (simp; done)

def State.pathReadMask : Nat :=
  State.readPathMask

theorem State.pathRead_touch {msk : Nat} {s0 : State} {s : State} {p : Path} {off : BitVec 7} (hk : Touch msk s0 s) (hm : Sub State.pathReadMask msk) :
    Touch msk s0 (State.pathRead s p off) := by
  unfold State.pathRead
  try dsimp only
  repeat' (with_reducible first
    | assumption
    | exact Touch.refl
    | intro _
    | apply State.readPath_touch
    | apply Touch.ite
    | split)
  all_goals with_reducible first
    | exact .inr rfl
    | exact Sub.trans (b := State.pathReadMask) (by decide +kernel) hm
    | exact Has.sub (a := State.pathReadMask) (by decide +kernel) hm
    | exact .inl (Has.sub (a := State.pathReadMask) (by decide +kernel) hm)
    | exact Has.at (by decide) (Has.sub (a := State.pathReadMask) (by decide +kernel) hm)
    | exact Has.cell (by decide) (Has.sub (a := State.pathReadMask) (by decide +kernel) hm)
    | exact Has.cellNext (by decide) (Has.sub (a := State.pathReadMask) (by decide +kernel) hm)
    | exact Has.ite (Has.sub (a := State.pathReadMask) (by decide +kernel) hm) (Has.sub (a := State.pathReadMask) (by decide +kernel) hm)
    | exact .inr (fun _ => rfl)
    | (intro _; rfl)
    | (intro _; simp; done)
    | (simp; assumption)
    | (refine .inr (fun _ => ?_); simp; done)
    | (refine .inr (fun _ => ?_); (repeat' split) <;> first | rfl | (simp; done))
    | (simp; done)

end Sys2Proof.Machine
end

