-- ==== Sys2Proof/Laws/TouchRecover.lean ====
section
/-! SUPPORT. What each operation of Machine/Recover.lean may change: its mask, and the proof that it changes nothing else. -/

namespace Sys2Proof.Machine

set_option linter.unusedSimpArgs false
set_option Elab.async false

@[simp] theorem VltState.scan_flash {v : VltState}  : (v.scan).flash = v.flash := rfl


@[simp] theorem VltState.scan_last {v : VltState}  : (v.scan).last = v.last := rfl


@[simp] theorem VltState.scan_dropped {v : VltState}  : (v.scan).dropped = v.dropped := rfl


@[simp] theorem VltState.resume_flash {v : VltState} {es : List (Nat × List Byte)} {l : List VEntry} : (v.resume es l).flash = v.flash := by
  unfold VltState.resume
  exact VltState.place1_flash


@[simp] theorem VltState.resume_last {v : VltState} {es : List (Nat × List Byte)} {l : List VEntry} : (v.resume es l).last = v.last := by
  unfold VltState.resume
  exact VltState.place1_last


@[simp] theorem VltState.resume_dropped {v : VltState} {es : List (Nat × List Byte)} {l : List VEntry} : (v.resume es l).dropped = v.dropped := by
  unfold VltState.resume
  exact VltState.place1_dropped


@[simp] theorem VltState.voidNext_flash {v : VltState}  : (v.voidNext).flash = v.flash := rfl


@[simp] theorem VltState.voidNext_last {v : VltState}  : (v.voidNext).last = v.last := rfl


@[simp] theorem VltState.voidNext_dropped {v : VltState}  : (v.voidNext).dropped = v.dropped := rfl


@[simp] theorem VltState.hatCells_flash {v : VltState} {l : List Nat} : (v.hatCells l).flash = v.flash := by
  have key : ∀ (l : List Nat) (v : VltState), (l.foldl (fun u a => u.putOwn a [0, 0]) v).flash = v.flash := by
    intro l
    induction l with
    | nil => exact fun _ => rfl
    | cons r l ih => exact fun v => ih _
  unfold VltState.hatCells
  dsimp only
  split <;> split <;> first | exact key _ _ | rfl


@[simp] theorem VltState.hatCells_last {v : VltState} {l : List Nat} : (v.hatCells l).last = v.last := by
  have key : ∀ (l : List Nat) (v : VltState), (l.foldl (fun u a => u.putOwn a [0, 0]) v).last = v.last := by
    intro l
    induction l with
    | nil => exact fun _ => rfl
    | cons r l ih => exact fun v => ih _
  unfold VltState.hatCells
  dsimp only
  split <;> split <;> first | exact key _ _ | rfl


@[simp] theorem VltState.hatCells_dropped {v : VltState} {l : List Nat} : (v.hatCells l).dropped = v.dropped := by
  have key : ∀ (l : List Nat) (v : VltState), (l.foldl (fun u a => u.putOwn a [0, 0]) v).dropped = v.dropped := by
    intro l
    induction l with
    | nil => exact fun _ => rfl
    | cons r l ih => exact fun v => ih _
  unfold VltState.hatCells
  dsimp only
  split <;> split <;> first | exact key _ _ | rfl


@[simp] theorem VltState.hatMend_flash {v : VltState} {l : List Nat} : (v.hatMend l).flash = v.flash := by
  have hc := VltState.hatCells_flash (v := v) (l := l)
  unfold VltState.hatMend
  generalize v.hatCells l = w at hc ⊢
  dsimp only
  repeat' split
  all_goals exact hc


@[simp] theorem VltState.hatMend_last {v : VltState} {l : List Nat} : (v.hatMend l).last = v.last := by
  have hc := VltState.hatCells_last (v := v) (l := l)
  unfold VltState.hatMend
  generalize v.hatCells l = w at hc ⊢
  dsimp only
  repeat' split
  all_goals exact hc


@[simp] theorem VltState.hatMend_dropped {v : VltState} {l : List Nat} : (v.hatMend l).dropped = v.dropped := by
  have hc := VltState.hatCells_dropped (v := v) (l := l)
  unfold VltState.hatMend
  generalize v.hatCells l = w at hc ⊢
  dsimp only
  repeat' split
  all_goals exact hc


@[simp] theorem VltState.hatNew_flash {v : VltState}  : (v.hatNew).flash = v.flash := rfl


@[simp] theorem VltState.hatNew_last {v : VltState}  : (v.hatNew).last = v.last := rfl


@[simp] theorem VltState.hatNew_dropped {v : VltState}  : (v.hatNew).dropped = v.dropped := rfl


def State.modCmdMask : Nat :=
  Part.cmd.bit

theorem State.modCmd_touch {msk : Nat} {s0 : State} {s : State} {f : CmdState → CmdState} (hk : Touch msk s0 s) (hm : Sub State.modCmdMask msk) :
    Touch msk s0 (State.modCmd s f) := by
  unfold State.modCmd
  try dsimp only
  repeat' (with_reducible first
    | assumption
    | exact Touch.refl
    | intro _
    | (simp only [Touch.mk_iff]; apply TouchMk.intro))
  all_goals with_reducible first
    | exact .inr rfl
    | exact Sub.trans (b := State.modCmdMask) (by decide +kernel) hm
    | exact Has.sub (a := State.modCmdMask) (by decide +kernel) hm
    | exact .inl (Has.sub (a := State.modCmdMask) (by decide +kernel) hm)
    | exact Has.at (by decide) (Has.sub (a := State.modCmdMask) (by decide +kernel) hm)
    | exact Has.cell (by decide) (Has.sub (a := State.modCmdMask) (by decide +kernel) hm)
    | exact Has.cellNext (by decide) (Has.sub (a := State.modCmdMask) (by decide +kernel) hm)
    | exact Has.ite (Has.sub (a := State.modCmdMask) (by decide +kernel) hm) (Has.sub (a := State.modCmdMask) (by decide +kernel) hm)
    | exact .inr (fun _ => rfl)
    | (intro _; rfl)
    | (intro _; simp; done)
    | (simp; assumption)
    | (refine .inr (fun _ => ?_); simp; done)
    | (refine .inr (fun _ => ?_); (repeat' split) <;> first | rfl | (simp; done))
    | (simp; done)

def State.bxferLoadMask : Nat :=
  State.modCmdMask ||| rbit R.CMD_STAT ||| rbit R.CMD_BHDL ||| rbit R.CMD_BLEN_LO ||| rbit R.CMD_BLEN_HI ||| rbit
    R.CMD_BRCV ||| rbit R.CMD_BNBLK

theorem State.bxferLoad_touch {msk : Nat} {s0 : State} {s : State} {l : List Byte} (hk : Touch msk s0 s) (hm : Sub State.bxferLoadMask msk) :
    Touch msk s0 (State.bxferLoad s l) := by
  unfold State.bxferLoad
  try dsimp only
  repeat' (with_reducible first
    | assumption
    | exact Touch.refl
    | intro _
    | apply State.modCmd_touch
    | apply State.setFld_touch
    | apply State.setPair_touch
    | (refine Touch.ofEq (by assumption) ?_)
    | apply Touch.ite
    | split)
  all_goals with_reducible first
    | exact .inr rfl
    | exact Sub.trans (b := State.bxferLoadMask) (by decide +kernel) hm
    | exact Has.sub (a := State.bxferLoadMask) (by decide +kernel) hm
    | exact .inl (Has.sub (a := State.bxferLoadMask) (by decide +kernel) hm)
    | exact Has.at (by decide) (Has.sub (a := State.bxferLoadMask) (by decide +kernel) hm)
    | exact Has.cell (by decide) (Has.sub (a := State.bxferLoadMask) (by decide +kernel) hm)
    | exact Has.cellNext (by decide) (Has.sub (a := State.bxferLoadMask) (by decide +kernel) hm)
    | exact Has.ite (Has.sub (a := State.bxferLoadMask) (by decide +kernel) hm) (Has.sub (a := State.bxferLoadMask) (by decide +kernel) hm)
    | exact .inr (fun _ => rfl)
    | (intro _; rfl)
    | (intro _; simp; done)
    | (simp; assumption)
    | (refine .inr (fun _ => ?_); simp; done)
    | (refine .inr (fun _ => ?_); (repeat' split) <;> first | rfl | (simp; done))
    | (simp; done)

def State.bxferPutMask : Nat :=
  State.vRecordMask ||| Part.vlt.bit

theorem State.bxferPut_touch {msk : Nat} {s0 : State} {s : State} (hk : Touch msk s0 s) (hm : Sub State.bxferPutMask msk) :
    Touch msk s0 (State.bxferPut s) := by
  unfold State.bxferPut
  try dsimp only
  repeat' (with_reducible first
    | assumption
    | exact Touch.refl
    | intro _
    | apply Touch.modVlt
    | apply State.vRecord_touch
    | apply Touch.ite
    | split)
  all_goals with_reducible first
    | exact .inr rfl
    | exact Sub.trans (b := State.bxferPutMask) (by decide +kernel) hm
    | exact Has.sub (a := State.bxferPutMask) (by decide +kernel) hm
    | exact .inl (Has.sub (a := State.bxferPutMask) (by decide +kernel) hm)
    | exact Has.at (by decide) (Has.sub (a := State.bxferPutMask) (by decide +kernel) hm)
    | exact Has.cell (by decide) (Has.sub (a := State.bxferPutMask) (by decide +kernel) hm)
    | exact Has.cellNext (by decide) (Has.sub (a := State.bxferPutMask) (by decide +kernel) hm)
    | exact Has.ite (Has.sub (a := State.bxferPutMask) (by decide +kernel) hm) (Has.sub (a := State.bxferPutMask) (by decide +kernel) hm)
    | exact .inr (fun _ => rfl)
    | (intro _; rfl)
    | (intro _; simp; done)
    | (simp; assumption)
    | (refine .inr (fun _ => ?_); simp; done)
    | (refine .inr (fun _ => ?_); (repeat' split) <;> first | rfl | (simp; done))
    | (simp; done)

def State.bxferIdleMask : Nat :=
  State.modCmdMask ||| State.bxferPutMask ||| rbit R.CMD_STAT ||| rbit R.CMD_BHDL ||| rbit R.CMD_BLEN_LO ||| rbit
    R.CMD_BLEN_HI ||| rbit R.CMD_BRCV ||| rbit R.CMD_BNBLK

theorem State.bxferIdle_touch {msk : Nat} {s0 : State} {s : State} (hk : Touch msk s0 s) (hm : Sub State.bxferIdleMask msk) :
    Touch msk s0 (State.bxferIdle s) := by
  unfold State.bxferIdle
  try dsimp only
  repeat' (with_reducible first
    | assumption
    | exact Touch.refl
    | intro _
    | apply State.modCmd_touch
    | apply State.bxferPut_touch
    | apply State.setFld_touch
    | apply State.setPair_touch)
  all_goals with_reducible first
    | exact .inr rfl
    | exact Sub.trans (b := State.bxferIdleMask) (by decide +kernel) hm
    | exact Has.sub (a := State.bxferIdleMask) (by decide +kernel) hm
    | exact .inl (Has.sub (a := State.bxferIdleMask) (by decide +kernel) hm)
    | exact Has.at (by decide) (Has.sub (a := State.bxferIdleMask) (by decide +kernel) hm)
    | exact Has.cell (by decide) (Has.sub (a := State.bxferIdleMask) (by decide +kernel) hm)
    | exact Has.cellNext (by decide) (Has.sub (a := State.bxferIdleMask) (by decide +kernel) hm)
    | exact Has.ite (Has.sub (a := State.bxferIdleMask) (by decide +kernel) hm) (Has.sub (a := State.bxferIdleMask) (by decide +kernel) hm)
    | exact .inr (fun _ => rfl)
    | (intro _; rfl)
    | (intro _; simp; done)
    | (simp; assumption)
    | (refine .inr (fun _ => ?_); simp; done)
    | (refine .inr (fun _ => ?_); (repeat' split) <;> first | rfl | (simp; done))
    | (simp; done)

def State.recoverCommitMask : Nat :=
  State.postMask ||| State.slotsDoneMask ||| rbit R.SYS_BOOT ||| Part.vlt.bit

theorem State.recoverCommit_touch {msk : Nat} {s0 : State} {s : State} {n : Nat} (hk : Touch msk s0 s) (hm : Sub State.recoverCommitMask msk) :
    Touch msk s0 (State.recoverCommit s n) := by
  unfold State.recoverCommit
  try dsimp only
  repeat' (with_reducible first
    | assumption
    | exact Touch.refl
    | intro _
    | apply State.post_touch
    | apply Touch.modVlt
    | apply State.slotsDone_touch
    | apply State.setFld_touch)
  all_goals with_reducible first
    | exact .inr rfl
    | exact Sub.trans (b := State.recoverCommitMask) (by decide +kernel) hm
    | exact Has.sub (a := State.recoverCommitMask) (by decide +kernel) hm
    | exact .inl (Has.sub (a := State.recoverCommitMask) (by decide +kernel) hm)
    | exact Has.at (by decide) (Has.sub (a := State.recoverCommitMask) (by decide +kernel) hm)
    | exact Has.cell (by decide) (Has.sub (a := State.recoverCommitMask) (by decide +kernel) hm)
    | exact Has.cellNext (by decide) (Has.sub (a := State.recoverCommitMask) (by decide +kernel) hm)
    | exact Has.ite (Has.sub (a := State.recoverCommitMask) (by decide +kernel) hm) (Has.sub (a := State.recoverCommitMask) (by decide +kernel) hm)
    | exact .inr (fun _ => rfl)
    | (intro _; rfl)
    | (intro _; simp; done)
    | (simp; assumption)
    | (refine .inr (fun _ => ?_); simp; done)
    | (refine .inr (fun _ => ?_); (repeat' split) <;> first | rfl | (simp; done))
    | (simp; done)

def State.rollBackMask : Nat :=
  State.postMask ||| State.vStickMask ||| State.cutAtMask ||| rbit R.SYS_BOOT ||| Part.vlt.bit

theorem State.rollBack_touch {msk : Nat} {s0 : State} {s : State} (hk : Touch msk s0 s) (hm : Sub State.rollBackMask msk) :
    Touch msk s0 (State.rollBack s) := by
  unfold State.rollBack
  try dsimp only
  repeat' (with_reducible first
    | assumption
    | exact Touch.refl
    | intro _
    | apply State.post_touch
    | apply Touch.modVlt
    | apply State.vStick_touch
    | apply State.cutAt_touch
    | apply State.setFld_touch
    | apply Touch.ite
    | split)
  all_goals with_reducible first
    | exact .inr rfl
    | exact Sub.trans (b := State.rollBackMask) (by decide +kernel) hm
    | exact Has.sub (a := State.rollBackMask) (by decide +kernel) hm
    | exact .inl (Has.sub (a := State.rollBackMask) (by decide +kernel) hm)
    | exact Has.at (by decide) (Has.sub (a := State.rollBackMask) (by decide +kernel) hm)
    | exact Has.cell (by decide) (Has.sub (a := State.rollBackMask) (by decide +kernel) hm)
    | exact Has.cellNext (by decide) (Has.sub (a := State.rollBackMask) (by decide +kernel) hm)
    | exact Has.ite (Has.sub (a := State.rollBackMask) (by decide +kernel) hm) (Has.sub (a := State.rollBackMask) (by decide +kernel) hm)
    | exact .inr (fun _ => rfl)
    | (intro _; rfl)
    | (intro _; simp; done)
    | (simp; assumption)
    | (refine .inr (fun _ => ?_); simp; done)
    | (refine .inr (fun _ => ?_); (repeat' split) <;> first | rfl | (simp; done))
    | (simp; done)

def State.settleBankMask : Nat :=
  State.vIntegrityMask ||| rbit R.SYS_BOOT

theorem State.settleBank_touch {msk : Nat} {s0 : State} {s : State} {cfg : Bool} (hk : Touch msk s0 s) (hm : Sub State.settleBankMask msk) :
    Touch msk s0 (State.settleBank s cfg) := by
  unfold State.settleBank
  try dsimp only
  repeat' (with_reducible first
    | assumption
    | exact Touch.refl
    | intro _
    | apply State.vIntegrity_touch
    | apply State.setFld_touch
    | apply State.setFlag_touch
    | apply Touch.ite
    | split)
  all_goals with_reducible first
    | exact .inr rfl
    | exact Sub.trans (b := State.settleBankMask) (by decide +kernel) hm
    | exact Has.sub (a := State.settleBankMask) (by decide +kernel) hm
    | exact .inl (Has.sub (a := State.settleBankMask) (by decide +kernel) hm)
    | exact Has.at (by decide) (Has.sub (a := State.settleBankMask) (by decide +kernel) hm)
    | exact Has.cell (by decide) (Has.sub (a := State.settleBankMask) (by decide +kernel) hm)
    | exact Has.cellNext (by decide) (Has.sub (a := State.settleBankMask) (by decide +kernel) hm)
    | exact Has.ite (Has.sub (a := State.settleBankMask) (by decide +kernel) hm) (Has.sub (a := State.settleBankMask) (by decide +kernel) hm)
    | exact .inr (fun _ => rfl)
    | (intro _; rfl)
    | (intro _; simp; done)
    | (simp; assumption)
    | (refine .inr (fun _ => ?_); simp; done)
    | (refine .inr (fun _ => ?_); (repeat' split) <;> first | rfl | (simp; done))
    | (simp; done)

def State.hatRepairMask : Nat :=
  State.postMask ||| State.vStickMask ||| State.vIntegrityMask ||| Part.last.bit ||| Part.vlt.bit

theorem State.hatRepair_touch {msk : Nat} {s0 : State} {s : State} (hk : Touch msk s0 s) (hm : Sub State.hatRepairMask msk) :
    Touch msk s0 (State.hatRepair s) := by
  unfold State.hatRepair
  try dsimp only
  repeat' (with_reducible first
    | assumption
    | exact Touch.refl
    | intro _
    | apply State.post_touch
    | apply Touch.modVlt
    | apply State.vStick_touch
    | apply State.vIntegrity_touch
    | apply Touch.ite
    | apply Touch.foldl
    | apply Touch.foldlFst
    | split)
  all_goals with_reducible first
    | exact .inr rfl
    | exact Sub.trans (b := State.hatRepairMask) (by decide +kernel) hm
    | exact Has.sub (a := State.hatRepairMask) (by decide +kernel) hm
    | exact .inl (Has.sub (a := State.hatRepairMask) (by decide +kernel) hm)
    | exact Has.at (by decide) (Has.sub (a := State.hatRepairMask) (by decide +kernel) hm)
    | exact Has.cell (by decide) (Has.sub (a := State.hatRepairMask) (by decide +kernel) hm)
    | exact Has.cellNext (by decide) (Has.sub (a := State.hatRepairMask) (by decide +kernel) hm)
    | exact Has.ite (Has.sub (a := State.hatRepairMask) (by decide +kernel) hm) (Has.sub (a := State.hatRepairMask) (by decide +kernel) hm)
    | exact .inr (fun _ => rfl)
    | (intro _; rfl)
    | (intro _; simp; done)
    | (simp; assumption)
    | (refine .inr (fun _ => ?_); simp; done)
    | (refine .inr (fun _ => ?_); (repeat' split) <;> first | rfl | (simp; done))
    | (simp; done)

def State.scrServeMask : Nat :=
  Part.flash.bit ||| Part.vlt.bit

theorem State.scrServe_touch {msk : Nat} {s0 : State} {s : State} (hk : Touch msk s0 s) (hm : Sub State.scrServeMask msk) :
    Touch msk s0 (State.scrServe s) := by
  unfold State.scrServe
  try dsimp only
  repeat' (with_reducible first
    | assumption
    | exact Touch.refl
    | intro _
    | apply Touch.modVlt
    | (refine Touch.ofEq (by assumption) ?_)
    | apply Touch.ite
    | split)
  all_goals with_reducible first
    | exact .inr rfl
    | exact Sub.trans (b := State.scrServeMask) (by decide +kernel) hm
    | exact Has.sub (a := State.scrServeMask) (by decide +kernel) hm
    | exact .inl (Has.sub (a := State.scrServeMask) (by decide +kernel) hm)
    | exact Has.at (by decide) (Has.sub (a := State.scrServeMask) (by decide +kernel) hm)
    | exact Has.cell (by decide) (Has.sub (a := State.scrServeMask) (by decide +kernel) hm)
    | exact Has.cellNext (by decide) (Has.sub (a := State.scrServeMask) (by decide +kernel) hm)
    | exact Has.ite (Has.sub (a := State.scrServeMask) (by decide +kernel) hm) (Has.sub (a := State.scrServeMask) (by decide +kernel) hm)
    | exact .inr (fun _ => rfl)
    | (intro _; rfl)
    | (intro _; simp; done)
    | (simp; assumption)
    | (refine .inr (fun _ => ?_); simp; done)
    | (refine .inr (fun _ => ?_); (repeat' split) <;> first | rfl | (simp; done))
    | (simp; done)

def State.retentionLostMask : Nat :=
  State.postMask ||| State.bxferLoadMask ||| State.bxferPutMask ||| rbit R.SYS_BOOT ||| Part.vlt.bit

theorem State.retentionLost_touch {msk : Nat} {s0 : State} {s : State} {kept : Bool} (hk : Touch msk s0 s) (hm : Sub State.retentionLostMask msk) :
    Touch msk s0 (State.retentionLost s kept) := by
  unfold State.retentionLost
  try dsimp only
  repeat' (with_reducible first
    | assumption
    | exact Touch.refl
    | intro _
    | apply State.post_touch
    | apply Touch.modVlt
    | apply State.bxferLoad_touch
    | apply State.bxferPut_touch
    | apply State.setFlag_touch
    | (refine Touch.ofEq (by assumption) ?_)
    | apply Touch.ite
    | split)
  all_goals with_reducible first
    | exact .inr rfl
    | exact Sub.trans (b := State.retentionLostMask) (by decide +kernel) hm
    | exact Has.sub (a := State.retentionLostMask) (by decide +kernel) hm
    | exact .inl (Has.sub (a := State.retentionLostMask) (by decide +kernel) hm)
    | exact Has.at (by decide) (Has.sub (a := State.retentionLostMask) (by decide +kernel) hm)
    | exact Has.cell (by decide) (Has.sub (a := State.retentionLostMask) (by decide +kernel) hm)
    | exact Has.cellNext (by decide) (Has.sub (a := State.retentionLostMask) (by decide +kernel) hm)
    | exact Has.ite (Has.sub (a := State.retentionLostMask) (by decide +kernel) hm) (Has.sub (a := State.retentionLostMask) (by decide +kernel) hm)
    | exact .inr (fun _ => rfl)
    | (intro _; rfl)
    | (intro _; simp; done)
    | (simp; assumption)
    | (refine .inr (fun _ => ?_); simp; done)
    | (refine .inr (fun _ => ?_); (repeat' split) <;> first | rfl | (simp; done))
    | (simp; done)

def State.windowsLoadMask : Nat :=
  State.modSecMask

theorem State.windowsLoad_touch {msk : Nat} {s0 : State} {s : State} {kept : Bool} (hk : Touch msk s0 s) (hm : Sub State.windowsLoadMask msk) :
    Touch msk s0 (State.windowsLoad s kept) := by
  unfold State.windowsLoad
  try dsimp only
  repeat' (with_reducible first
    | assumption
    | exact Touch.refl
    | intro _
    | apply State.modSec_touch
    | apply Touch.ite
    | apply Touch.foldl
    | apply Touch.foldlFst
    | split)
  all_goals with_reducible first
    | exact .inr rfl
    | exact Sub.trans (b := State.windowsLoadMask) (by decide +kernel) hm
    | exact Has.sub (a := State.windowsLoadMask) (by decide +kernel) hm
    | exact .inl (Has.sub (a := State.windowsLoadMask) (by decide +kernel) hm)
    | exact Has.at (by decide) (Has.sub (a := State.windowsLoadMask) (by decide +kernel) hm)
    | exact Has.cell (by decide) (Has.sub (a := State.windowsLoadMask) (by decide +kernel) hm)
    | exact Has.cellNext (by decide) (Has.sub (a := State.windowsLoadMask) (by decide +kernel) hm)
    | exact Has.ite (Has.sub (a := State.windowsLoadMask) (by decide +kernel) hm) (Has.sub (a := State.windowsLoadMask) (by decide +kernel) hm)
    | exact .inr (fun _ => rfl)
    | (intro _; rfl)
    | (intro _; simp; done)
    | (simp; assumption)
    | (refine .inr (fun _ => ?_); simp; done)
    | (refine .inr (fun _ => ?_); (repeat' split) <;> first | rfl | (simp; done))
    | (simp; done)

def State.stressLoadMask : Nat :=
  State.stressTakeMask

theorem State.stressLoad_touch {msk : Nat} {s0 : State} {s : State} (hk : Touch msk s0 s) (hm : Sub State.stressLoadMask msk) :
    Touch msk s0 (State.stressLoad s) := by
  unfold State.stressLoad
  try dsimp only
  repeat' (with_reducible first
    | assumption
    | exact Touch.refl
    | intro _
    | apply Touch.forChans
    | apply State.stressTake_touch
    | (refine Touch.ofEq (by assumption) ?_)
    | split)
  all_goals with_reducible first
    | exact .inr rfl
    | exact Sub.trans (b := State.stressLoadMask) (by decide +kernel) hm
    | exact Has.sub (a := State.stressLoadMask) (by decide +kernel) hm
    | exact .inl (Has.sub (a := State.stressLoadMask) (by decide +kernel) hm)
    | exact Has.at (by decide) (Has.sub (a := State.stressLoadMask) (by decide +kernel) hm)
    | exact Has.cell (by decide) (Has.sub (a := State.stressLoadMask) (by decide +kernel) hm)
    | exact Has.cellNext (by decide) (Has.sub (a := State.stressLoadMask) (by decide +kernel) hm)
    | exact Has.ite (Has.sub (a := State.stressLoadMask) (by decide +kernel) hm) (Has.sub (a := State.stressLoadMask) (by decide +kernel) hm)
    | exact .inr (fun _ => rfl)
    | (intro _; rfl)
    | (intro _; simp; done)
    | (simp; assumption)
    | (refine .inr (fun _ => ?_); simp; done)
    | (refine .inr (fun _ => ?_); (repeat' split) <;> first | rfl | (simp; done))
    | (simp; done)

def State.recoverMask : Nat :=
  State.modKeepMask ||| State.legJudgeMask ||| State.recStartMask ||| State.modSecMask ||| State.fcEpochMask |||
    State.modPwrMask ||| State.wipeSlotsMask ||| State.recoverCommitMask ||| State.rollBackMask |||
    State.settleBankMask ||| State.hatRepairMask ||| State.scrServeMask ||| State.retentionLostMask |||
    State.windowsLoadMask ||| State.stressLoadMask ||| rbit R.PWR_TREC ||| Part.vlt.bit

theorem State.recover_touch {msk : Nat} {s0 : State} {s : State} (hk : Touch msk s0 s) (hm : Sub State.recoverMask msk) :
    Touch msk s0 (State.recover s) := by
  unfold State.recover
  try dsimp only
  repeat' (with_reducible first
    | assumption
    | exact Touch.refl
    | intro _
    | apply Touch.setReg
    | apply Touch.modVlt
    | apply State.modKeep_touch
    | apply State.legJudge_touch
    | apply State.recStart_touch
    | apply State.modSec_touch
    | apply State.fcEpoch_touch
    | apply State.modPwr_touch
    | apply State.wipeSlots_touch
    | apply State.recoverCommit_touch
    | apply State.rollBack_touch
    | apply State.settleBank_touch
    | apply State.hatRepair_touch
    | apply State.scrServe_touch
    | apply State.retentionLost_touch
    | apply State.windowsLoad_touch
    | apply State.stressLoad_touch
    | (refine Touch.ofEq (by assumption) ?_)
    | apply Touch.ite
    | apply Touch.setReg
    | split)
  all_goals with_reducible first
    | exact .inr rfl
    | exact Sub.trans (b := State.recoverMask) (by decide +kernel) hm
    | exact Has.sub (a := State.recoverMask) (by decide +kernel) hm
    | exact .inl (Has.sub (a := State.recoverMask) (by decide +kernel) hm)
    | exact Has.at (by decide) (Has.sub (a := State.recoverMask) (by decide +kernel) hm)
    | exact Has.cell (by decide) (Has.sub (a := State.recoverMask) (by decide +kernel) hm)
    | exact Has.cellNext (by decide) (Has.sub (a := State.recoverMask) (by decide +kernel) hm)
    | exact Has.ite (Has.sub (a := State.recoverMask) (by decide +kernel) hm) (Has.sub (a := State.recoverMask) (by decide +kernel) hm)
    | exact .inr (fun _ => rfl)
    | (intro _; rfl)
    | (intro _; simp; done)
    | (simp; assumption)
    | (refine .inr (fun _ => ?_); simp; done)
    | (refine .inr (fun _ => ?_); (repeat' split) <;> first | rfl | (simp; done))
    | (simp; done)

def State.tablesLoadMask : Nat :=
  State.modLmpMask ||| Part.fde.bit ||| Part.hlt.bit

theorem State.tablesLoad_touch {msk : Nat} {s0 : State} {s : State} {l : List (Nat × List Word)} (hk : Touch msk s0 s) (hm : Sub State.tablesLoadMask msk) :
    Touch msk s0 (State.tablesLoad s l) := by
  unfold State.tablesLoad
  try dsimp only
  repeat' (with_reducible first
    | assumption
    | exact Touch.refl
    | intro _
    | apply Touch.modHlt
    | apply State.modLmp_touch
    | apply Touch.modFde)
  all_goals with_reducible first
    | exact .inr rfl
    | exact Sub.trans (b := State.tablesLoadMask) (by decide +kernel) hm
    | exact Has.sub (a := State.tablesLoadMask) (by decide +kernel) hm
    | exact .inl (Has.sub (a := State.tablesLoadMask) (by decide +kernel) hm)
    | exact Has.at (by decide) (Has.sub (a := State.tablesLoadMask) (by decide +kernel) hm)
    | exact Has.cell (by decide) (Has.sub (a := State.tablesLoadMask) (by decide +kernel) hm)
    | exact Has.cellNext (by decide) (Has.sub (a := State.tablesLoadMask) (by decide +kernel) hm)
    | exact Has.ite (Has.sub (a := State.tablesLoadMask) (by decide +kernel) hm) (Has.sub (a := State.tablesLoadMask) (by decide +kernel) hm)
    | exact .inr (fun _ => rfl)
    | (intro _; rfl)
    | (intro _; simp; done)
    | (simp; assumption)
    | (refine .inr (fun _ => ?_); simp; done)
    | (refine .inr (fun _ => ?_); (repeat' split) <;> first | rfl | (simp; done))
    | (simp; done)

def State.replayEntry1Mask : Nat :=
  State.modPathMask ||| State.setShortMask ||| State.relayTierMask ||| State.writeRegMask ||| rbit R.PWM_ENA |||
    rbit R.MAC_STAT ||| rbit R.MAC_PARENT ||| rbit R.GTU_ENA

theorem State.replayEntry1_touch {msk : Nat} {s0 : State} {s : State} {e : Nat × Word} (hk : Touch msk s0 s) (hm : Sub State.replayEntry1Mask msk) :
    Touch msk s0 (State.replayEntry1 s e) := by
  unfold State.replayEntry1
  try dsimp only
  repeat' (with_reducible first
    | assumption
    | exact Touch.refl
    | intro _
    | apply Touch.setReg
    | apply State.modPath_touch
    | apply State.setShort_touch
    | apply State.relayTier_touch
    | apply State.writeReg_touch
    | apply State.setFld_touch
    | apply Touch.ite
    | apply Touch.setReg
    | split)
  all_goals with_reducible first
    | exact .inr rfl
    | exact Sub.trans (b := State.replayEntry1Mask) (by decide +kernel) hm
    | exact Has.sub (a := State.replayEntry1Mask) (by decide +kernel) hm
    | exact .inl (Has.sub (a := State.replayEntry1Mask) (by decide +kernel) hm)
    | exact Has.at (by decide) (Has.sub (a := State.replayEntry1Mask) (by decide +kernel) hm)
    | exact Has.cell (by decide) (Has.sub (a := State.replayEntry1Mask) (by decide +kernel) hm)
    | exact Has.cellNext (by decide) (Has.sub (a := State.replayEntry1Mask) (by decide +kernel) hm)
    | exact Has.ite (Has.sub (a := State.replayEntry1Mask) (by decide +kernel) hm) (Has.sub (a := State.replayEntry1Mask) (by decide +kernel) hm)
    | exact .inr (fun _ => rfl)
    | (intro _; rfl)
    | (intro _; simp; done)
    | (simp; assumption)
    | (refine .inr (fun _ => ?_); simp; done)
    | (refine .inr (fun _ => ?_); (repeat' split) <;> first | rfl | (simp; done))
    | (simp; done)

def State.replayCfgMask : Nat :=
  State.replayEntry1Mask ||| Part.host.bit ||| Part.vlt.bit

theorem State.replayCfg_touch {msk : Nat} {s0 : State} {s : State} {l : List (Nat × Word)} (hk : Touch msk s0 s) (hm : Sub State.replayCfgMask msk) :
    Touch msk s0 (State.replayCfg s l) := by
  unfold State.replayCfg
  dsimp only
  apply Touch.modVlt
  · simp only [Touch.mk_iff]
    apply TouchMk.intro
    · apply Touch.foldl
      · exact fun u x hu => Touch.setRegAll hu (Sub.trans (b := State.replayCfgMask) (by decide +kernel) hm)
      · apply Touch.foldl
        · exact fun u x hu => State.replayEntry1_touch hu (Sub.trans (b := State.replayCfgMask) (by decide +kernel) hm)
        · simp only [Touch.mk_iff]
          apply TouchMk.intro hk
          all_goals with_reducible first | exact .inr rfl | exact .inl (Has.sub (a := State.replayCfgMask) (by decide +kernel) hm)
    all_goals with_reducible first | exact .inr rfl | exact .inl (Has.sub (a := State.replayCfgMask) (by decide +kernel) hm)
  · exact (Has.sub (a := State.replayCfgMask) (by decide +kernel) hm)
  · exact .inr fun _ => rfl
  · exact .inr fun _ => rfl
  · exact .inr fun _ => rfl

def State.modelsLoadMask : Nat :=
  State.modelTakeMask

theorem State.modelsLoad_touch {msk : Nat} {s0 : State} {s : State} (hk : Touch msk s0 s) (hm : Sub State.modelsLoadMask msk) :
    Touch msk s0 (State.modelsLoad s) := by
  unfold State.modelsLoad
  try dsimp only
  repeat' (with_reducible first
    | assumption
    | exact Touch.refl
    | intro _
    | apply State.modelTake_touch
    | (refine Touch.ofEq (by assumption) ?_)
    | apply Touch.foldl
    | apply Touch.foldlFst
    | split)
  all_goals with_reducible first
    | exact .inr rfl
    | exact Sub.trans (b := State.modelsLoadMask) (by decide +kernel) hm
    | exact Has.sub (a := State.modelsLoadMask) (by decide +kernel) hm
    | exact .inl (Has.sub (a := State.modelsLoadMask) (by decide +kernel) hm)
    | exact Has.at (by decide) (Has.sub (a := State.modelsLoadMask) (by decide +kernel) hm)
    | exact Has.cell (by decide) (Has.sub (a := State.modelsLoadMask) (by decide +kernel) hm)
    | exact Has.cellNext (by decide) (Has.sub (a := State.modelsLoadMask) (by decide +kernel) hm)
    | exact Has.ite (Has.sub (a := State.modelsLoadMask) (by decide +kernel) hm) (Has.sub (a := State.modelsLoadMask) (by decide +kernel) hm)
    | exact .inr (fun _ => rfl)
    | (intro _; rfl)
    | (intro _; simp; done)
    | (simp; assumption)
    | (refine .inr (fun _ => ?_); simp; done)
    | (refine .inr (fun _ => ?_); (repeat' split) <;> first | rfl | (simp; done))
    | (simp; done)

def State.phyLoadMask : Nat :=
  State.modPhyMask

theorem State.phyLoad_touch {msk : Nat} {s0 : State} {s : State} (hk : Touch msk s0 s) (hm : Sub State.phyLoadMask msk) :
    Touch msk s0 (State.phyLoad s) := by
  unfold State.phyLoad
  try dsimp only
  repeat' (with_reducible first
    | assumption
    | exact Touch.refl
    | intro _
    | apply State.modPhy_touch)
  all_goals with_reducible first
    | exact .inr rfl
    | exact Sub.trans (b := State.phyLoadMask) (by decide +kernel) hm
    | exact Has.sub (a := State.phyLoadMask) (by decide +kernel) hm
    | exact .inl (Has.sub (a := State.phyLoadMask) (by decide +kernel) hm)
    | exact Has.at (by decide) (Has.sub (a := State.phyLoadMask) (by decide +kernel) hm)
    | exact Has.cell (by decide) (Has.sub (a := State.phyLoadMask) (by decide +kernel) hm)
    | exact Has.cellNext (by decide) (Has.sub (a := State.phyLoadMask) (by decide +kernel) hm)
    | exact Has.ite (Has.sub (a := State.phyLoadMask) (by decide +kernel) hm) (Has.sub (a := State.phyLoadMask) (by decide +kernel) hm)
    | exact .inr (fun _ => rfl)
    | (intro _; rfl)
    | (intro _; simp; done)
    | (simp; assumption)
    | (refine .inr (fun _ => ?_); simp; done)
    | (refine .inr (fun _ => ?_); (repeat' split) <;> first | rfl | (simp; done))
    | (simp; done)

def State.vaultResumeMask : Nat :=
  State.compactDueMask ||| State.commitStartMask ||| State.vKickMask ||| State.foldStartMask

theorem State.vaultResume_touch {msk : Nat} {s0 : State} {s : State} (hk : Touch msk s0 s) (hm : Sub State.vaultResumeMask msk) :
    Touch msk s0 (State.vaultResume s) := by
  unfold State.vaultResume
  try dsimp only
  repeat' (with_reducible first
    | assumption
    | exact Touch.refl
    | intro _
    | apply State.compactDue_touch
    | apply State.commitStart_touch
    | apply State.vKick_touch
    | apply State.foldStart_touch
    | apply Touch.ite
    | apply Touch.foldl
    | apply Touch.foldlFst
    | split)
  all_goals with_reducible first
    | exact .inr rfl
    | exact Sub.trans (b := State.vaultResumeMask) (by decide +kernel) hm
    | exact Has.sub (a := State.vaultResumeMask) (by decide +kernel) hm
    | exact .inl (Has.sub (a := State.vaultResumeMask) (by decide +kernel) hm)
    | exact Has.at (by decide) (Has.sub (a := State.vaultResumeMask) (by decide +kernel) hm)
    | exact Has.cell (by decide) (Has.sub (a := State.vaultResumeMask) (by decide +kernel) hm)
    | exact Has.cellNext (by decide) (Has.sub (a := State.vaultResumeMask) (by decide +kernel) hm)
    | exact Has.ite (Has.sub (a := State.vaultResumeMask) (by decide +kernel) hm) (Has.sub (a := State.vaultResumeMask) (by decide +kernel) hm)
    | exact .inr (fun _ => rfl)
    | (intro _; rfl)
    | (intro _; simp; done)
    | (simp; assumption)
    | (refine .inr (fun _ => ?_); simp; done)
    | (refine .inr (fun _ => ?_); (repeat' split) <;> first | rfl | (simp; done))
    | (simp; done)

def State.replayMask : Nat :=
  State.modKeepMask ||| State.gtuReplayMask ||| State.modSecMask ||| State.dirSetMask ||| State.seqStartMask |||
    State.modPwrMask ||| State.tablesLoadMask ||| State.replayCfgMask ||| State.modelsLoadMask ||| State.phyLoadMask
    ||| State.vaultResumeMask ||| rbit R.SYS_BOOT ||| rbit R.PWR_TRPL

theorem State.replay_touch {msk : Nat} {s0 : State} {s : State} (hk : Touch msk s0 s) (hm : Sub State.replayMask msk) :
    Touch msk s0 (State.replay s) := by
  unfold State.replay
  try dsimp only
  repeat' (with_reducible first
    | assumption
    | exact Touch.refl
    | intro _
    | apply Touch.setReg
    | apply State.modKeep_touch
    | apply State.gtuReplay_touch
    | apply State.modSec_touch
    | apply State.dirSet_touch
    | apply State.seqStart_touch
    | apply State.modPwr_touch
    | apply State.tablesLoad_touch
    | apply State.replayCfg_touch
    | apply State.modelsLoad_touch
    | apply State.phyLoad_touch
    | apply State.vaultResume_touch
    | apply State.setFlag_touch
    | apply Touch.ite
    | apply Touch.setReg
    | split)
  all_goals with_reducible first
    | exact .inr rfl
    | exact Sub.trans (b := State.replayMask) (by decide +kernel) hm
    | exact Has.sub (a := State.replayMask) (by decide +kernel) hm
    | exact .inl (Has.sub (a := State.replayMask) (by decide +kernel) hm)
    | exact Has.at (by decide) (Has.sub (a := State.replayMask) (by decide +kernel) hm)
    | exact Has.cell (by decide) (Has.sub (a := State.replayMask) (by decide +kernel) hm)
    | exact Has.cellNext (by decide) (Has.sub (a := State.replayMask) (by decide +kernel) hm)
    | exact Has.ite (Has.sub (a := State.replayMask) (by decide +kernel) hm) (Has.sub (a := State.replayMask) (by decide +kernel) hm)
    | exact .inr (fun _ => rfl)
    | (intro _; rfl)
    | (intro _; simp; done)
    | (simp; assumption)
    | (refine .inr (fun _ => ?_); simp; done)
    | (refine .inr (fun _ => ?_); (repeat' split) <;> first | rfl | (simp; done))
    | (simp; done)

def State.engineRestartMask : Nat :=
  State.vKickMask ||| State.foldStartMask ||| State.modLmpMask ||| State.proofAllOffMask ||| State.modSecMask |||
    State.modMacMask ||| State.ackNoneMask ||| State.lineAbandonMask ||| State.vaultCutMask ||| State.hatRepairMask
    ||| State.scrServeMask ||| Part.cmd.bit ||| Part.drops.bit ||| Part.fde.bit ||| Part.hlt.bit ||| Part.pwm.bit
    ||| Part.vlt.bit

theorem State.engineRestart_touch {msk : Nat} {s0 : State} {s : State} {e : Engine} (hk : Touch msk s0 s) (hm : Sub State.engineRestartMask msk) :
    Touch msk s0 (State.engineRestart s e) := by
  unfold State.engineRestart
  try dsimp only
  repeat' (with_reducible first
    | assumption
    | exact Touch.refl
    | intro _
    | apply Touch.modVlt
    | apply State.vKick_touch
    | apply State.foldStart_touch
    | apply Touch.modPwm
    | apply Touch.modHlt
    | apply State.modLmp_touch
    | apply Touch.modFde
    | apply State.proofAllOff_touch
    | apply State.modSec_touch
    | apply State.modMac_touch
    | apply State.ackNone_touch
    | apply State.lineAbandon_touch
    | apply State.vaultCut_touch
    | apply State.hatRepair_touch
    | apply State.scrServe_touch
    | (refine Touch.ofEq (by assumption) ?_)
    | apply Touch.ite
    | apply Touch.foldl
    | apply Touch.foldlFst
    | (simp only [Touch.mk_iff]; apply TouchMk.intro)
    | split)
  all_goals with_reducible first
    | exact .inr rfl
    | exact Sub.trans (b := State.engineRestartMask) (by decide +kernel) hm
    | exact Has.sub (a := State.engineRestartMask) (by decide +kernel) hm
    | exact .inl (Has.sub (a := State.engineRestartMask) (by decide +kernel) hm)
    | exact Has.at (by decide) (Has.sub (a := State.engineRestartMask) (by decide +kernel) hm)
    | exact Has.cell (by decide) (Has.sub (a := State.engineRestartMask) (by decide +kernel) hm)
    | exact Has.cellNext (by decide) (Has.sub (a := State.engineRestartMask) (by decide +kernel) hm)
    | exact Has.ite (Has.sub (a := State.engineRestartMask) (by decide +kernel) hm) (Has.sub (a := State.engineRestartMask) (by decide +kernel) hm)
    | exact .inr (fun _ => rfl)
    | (intro _; rfl)
    | (intro _; simp; done)
    | (simp; assumption)
    | (refine .inr (fun _ => ?_); simp; done)
    | (refine .inr (fun _ => ?_); (repeat' split) <;> first | rfl | (simp; done))
    | (simp; done)

end Sys2Proof.Machine
end

