-- ==== Sys2Proof/Laws/TouchCmd.lean ====
section
/-! SUPPORT. What each operation of Machine/Cmd.lean may change: its mask, and the proof that it changes nothing else. -/

namespace Sys2Proof.Machine

set_option linter.unusedSimpArgs false
set_option Elab.async false

def State.cmdStickMask : Nat :=
  State.stickMask ||| rbit R.CMD_STAT

theorem State.cmdStick_touch {msk : Nat} {s0 : State} {s : State} {f : Fld} (hk : Touch msk s0 s) (hm : Sub State.cmdStickMask msk) :
    Touch msk s0 (State.cmdStick s f) := by
  unfold State.cmdStick
  try dsimp only
  repeat' (with_reducible first
    | assumption
    | exact Touch.refl
    | intro _
    | apply State.stick_touch)
  all_goals with_reducible first
    | exact .inr rfl
    | exact Sub.trans (b := State.cmdStickMask) (by decide +kernel) hm
    | exact Has.sub (a := State.cmdStickMask) (by decide +kernel) hm
    | exact .inl (Has.sub (a := State.cmdStickMask) (by decide +kernel) hm)
    | exact Has.at (by decide) (Has.sub (a := State.cmdStickMask) (by decide +kernel) hm)
    | exact Has.cell (by decide) (Has.sub (a := State.cmdStickMask) (by decide +kernel) hm)
    | exact Has.cellNext (by decide) (Has.sub (a := State.cmdStickMask) (by decide +kernel) hm)
    | exact Has.ite (Has.sub (a := State.cmdStickMask) (by decide +kernel) hm) (Has.sub (a := State.cmdStickMask) (by decide +kernel) hm)
    | exact .inr (fun _ => rfl)
    | (intro _; rfl)
    | (intro _; simp; done)
    | (simp; assumption)
    | (refine .inr (fun _ => ?_); simp; done)
    | (refine .inr (fun _ => ?_); (repeat' split) <;> first | rfl | (simp; done))
    | (simp; done)

def State.respondMask : Nat :=
  State.ringAddMask ||| State.ringInMask ||| State.originateMask ||| State.leftQ2Mask

theorem State.respond_touch {msk : Nat} {s0 : State} {s : State} {r : Reply} {code : Nat} {data : List Byte} {after : Nat} {arg : Nat} (hk : Touch msk s0 s) (hm : Sub State.respondMask msk) :
    Touch msk s0 (State.respond s r code data after arg) := by
  unfold State.respond
  try dsimp only
  repeat' (with_reducible first
    | assumption
    | exact Touch.refl
    | intro _
    | apply State.ringAdd_touch
    | apply State.ringIn_touch
    | apply State.originate_touch
    | apply State.leftQ2_touch
    | apply Touch.ite
    | split)
  all_goals with_reducible first
    | exact .inr rfl
    | exact Sub.trans (b := State.respondMask) (by decide +kernel) hm
    | exact Has.sub (a := State.respondMask) (by decide +kernel) hm
    | exact .inl (Has.sub (a := State.respondMask) (by decide +kernel) hm)
    | exact Has.at (by decide) (Has.sub (a := State.respondMask) (by decide +kernel) hm)
    | exact Has.cell (by decide) (Has.sub (a := State.respondMask) (by decide +kernel) hm)
    | exact Has.cellNext (by decide) (Has.sub (a := State.respondMask) (by decide +kernel) hm)
    | exact Has.ite (Has.sub (a := State.respondMask) (by decide +kernel) hm) (Has.sub (a := State.respondMask) (by decide +kernel) hm)
    | exact .inr (fun _ => rfl)
    | (intro _; rfl)
    | (intro _; simp; done)
    | (simp; assumption)
    | (refine .inr (fun _ => ?_); simp; done)
    | (refine .inr (fun _ => ?_); (repeat' split) <;> first | rfl | (simp; done))
    | (simp; done)

def State.cmdFinishMask : Nat :=
  State.postMask ||| State.cmdStickMask ||| State.respondMask ||| rbit R.CMD_LAST ||| rbit R.CMD_REFCNT

theorem State.cmdFinish_touch {msk : Nat} {s0 : State} {s : State} {r : Reply} {code : Nat} {data : List Byte} {after : Nat} {arg : Nat} (hk : Touch msk s0 s) (hm : Sub State.cmdFinishMask msk) :
    Touch msk s0 (State.cmdFinish s r code data after arg) := by
  unfold State.cmdFinish
  try dsimp only
  repeat' (with_reducible first
    | assumption
    | exact Touch.refl
    | intro _
    | apply State.post_touch
    | apply State.cmdStick_touch
    | apply State.respond_touch
    | apply State.setFld_touch
    | apply State.incReg_touch
    | apply Touch.ite
    | split)
  all_goals with_reducible first
    | exact .inr rfl
    | exact Sub.trans (b := State.cmdFinishMask) (by decide +kernel) hm
    | exact Has.sub (a := State.cmdFinishMask) (by decide +kernel) hm
    | exact .inl (Has.sub (a := State.cmdFinishMask) (by decide +kernel) hm)
    | exact Has.at (by decide) (Has.sub (a := State.cmdFinishMask) (by decide +kernel) hm)
    | exact Has.cell (by decide) (Has.sub (a := State.cmdFinishMask) (by decide +kernel) hm)
    | exact Has.cellNext (by decide) (Has.sub (a := State.cmdFinishMask) (by decide +kernel) hm)
    | exact Has.ite (Has.sub (a := State.cmdFinishMask) (by decide +kernel) hm) (Has.sub (a := State.cmdFinishMask) (by decide +kernel) hm)
    | exact .inr (fun _ => rfl)
    | (intro _; rfl)
    | (intro _; simp; done)
    | (simp; assumption)
    | (refine .inr (fun _ => ?_); simp; done)
    | (refine .inr (fun _ => ?_); (repeat' split) <;> first | rfl | (simp; done))
    | (simp; done)

def refuseMask : Nat :=
  0

theorem refuse_touch {msk : Nat} {s0 : State} {s : State} {code : Nat} (hk : Touch msk s0 s) (hm : Sub refuseMask msk) :
    Touch msk s0 (refuse s code).s := by
  unfold refuse
  try dsimp only
  repeat' (with_reducible first
    | assumption
    | exact Touch.refl
    | intro _
    | dsimp only)
  all_goals with_reducible first
    | exact .inr rfl
    | exact Sub.trans (b := refuseMask) (by decide +kernel) hm
    | exact Has.sub (a := refuseMask) (by decide +kernel) hm
    | exact .inl (Has.sub (a := refuseMask) (by decide +kernel) hm)
    | exact Has.at (by decide) (Has.sub (a := refuseMask) (by decide +kernel) hm)
    | exact Has.cell (by decide) (Has.sub (a := refuseMask) (by decide +kernel) hm)
    | exact Has.cellNext (by decide) (Has.sub (a := refuseMask) (by decide +kernel) hm)
    | exact Has.ite (Has.sub (a := refuseMask) (by decide +kernel) hm) (Has.sub (a := refuseMask) (by decide +kernel) hm)
    | exact .inr (fun _ => rfl)
    | (intro _; rfl)
    | (intro _; simp; done)
    | (simp; assumption)
    | (refine .inr (fun _ => ?_); simp; done)
    | (refine .inr (fun _ => ?_); (repeat' split) <;> first | rfl | (simp; done))
    | (simp; done)

def sizedMask : Nat :=
  0

theorem sized_touch {msk : Nat} {s0 s : State} {a : List Byte} {n : Nat} {k : CmdOut} (hk : Touch msk s0 s)
    (hm : Sub sizedMask msk) (ho : Touch msk s0 k.s) : Touch msk s0 (sized s a n k).s := by
  unfold sized
  split
  · exact ho
  · exact hk

def State.remoteWriteMask : Nat :=
  State.modPathMask ||| State.writeRegMask

theorem State.remoteWrite_touch {msk : Nat} {s0 : State} {s : State} {page : Nat} {off : Nat} {v : Word} (hk : Touch msk s0 s) (hm : Sub State.remoteWriteMask msk) :
    Touch msk s0 (State.remoteWrite s page off v) := by
  unfold State.remoteWrite
  try dsimp only
  repeat' (with_reducible first
    | assumption
    | exact Touch.refl
    | intro _
    | apply State.modPath_touch
    | apply State.writeReg_touch)
  all_goals with_reducible first
    | exact .inr rfl
    | exact Sub.trans (b := State.remoteWriteMask) (by decide +kernel) hm
    | exact Has.sub (a := State.remoteWriteMask) (by decide +kernel) hm
    | exact .inl (Has.sub (a := State.remoteWriteMask) (by decide +kernel) hm)
    | exact Has.at (by decide) (Has.sub (a := State.remoteWriteMask) (by decide +kernel) hm)
    | exact Has.cell (by decide) (Has.sub (a := State.remoteWriteMask) (by decide +kernel) hm)
    | exact Has.cellNext (by decide) (Has.sub (a := State.remoteWriteMask) (by decide +kernel) hm)
    | exact Has.ite (Has.sub (a := State.remoteWriteMask) (by decide +kernel) hm) (Has.sub (a := State.remoteWriteMask) (by decide +kernel) hm)
    | exact .inr (fun _ => rfl)
    | (intro _; rfl)
    | (intro _; simp; done)
    | (simp; assumption)
    | (refine .inr (fun _ => ?_); simp; done)
    | (refine .inr (fun _ => ?_); (repeat' split) <;> first | rfl | (simp; done))
    | (simp; done)

def State.openBurstMask : Nat :=
  State.modPathMask

theorem State.openBurst_touch {msk : Nat} {s0 : State} {s : State} {f : State → State} (hk : Touch msk s0 s) (hm : Sub State.openBurstMask msk) (hf : ∀ u0, Touch msk s0 u0 → Touch msk s0 (f u0)) :
    Touch msk s0 (State.openBurst s f) := by
  unfold State.openBurst
  try dsimp only
  repeat' (with_reducible first
    | assumption
    | exact Touch.refl
    | intro _
    | apply State.modPath_touch
    | apply hf)
  all_goals with_reducible first
    | exact .inr rfl
    | exact Sub.trans (b := State.openBurstMask) (by decide +kernel) hm
    | exact Has.sub (a := State.openBurstMask) (by decide +kernel) hm
    | exact .inl (Has.sub (a := State.openBurstMask) (by decide +kernel) hm)
    | exact Has.at (by decide) (Has.sub (a := State.openBurstMask) (by decide +kernel) hm)
    | exact Has.cell (by decide) (Has.sub (a := State.openBurstMask) (by decide +kernel) hm)
    | exact Has.cellNext (by decide) (Has.sub (a := State.openBurstMask) (by decide +kernel) hm)
    | exact Has.ite (Has.sub (a := State.openBurstMask) (by decide +kernel) hm) (Has.sub (a := State.openBurstMask) (by decide +kernel) hm)
    | exact .inr (fun _ => rfl)
    | (intro _; rfl)
    | (intro _; simp; done)
    | (simp; assumption)
    | (refine .inr (fun _ => ?_); simp; done)
    | (refine .inr (fun _ => ?_); (repeat' split) <;> first | rfl | (simp; done))
    | (simp; done)

def State.tabWordMask : Nat :=
  State.modPathMask ||| State.lmpPutMask ||| State.fdePutMask ||| State.hltPutMask ||| State.portStepMask ||| rbit
    R.LMP_TADDR ||| rbit R.FDE_TADDR ||| rbit R.HLT_TADDR

theorem State.tabWord_touch {msk : Nat} {s0 : State} {s : State} {page : Nat} {w : Word} (hk : Touch msk s0 s) (hm : Sub State.tabWordMask msk) :
    Touch msk s0 (State.tabWord s page w) := by
  unfold State.tabWord
  try dsimp only
  repeat' (with_reducible first
    | assumption
    | exact Touch.refl
    | intro _
    | apply State.modPath_touch
    | apply State.lmpPut_touch
    | apply State.fdePut_touch
    | apply State.hltPut_touch
    | apply State.portStep_touch
    | (refine Touch.ofEq (by assumption) ?_)
    | apply Touch.ite
    | split)
  all_goals with_reducible first
    | exact .inr rfl
    | exact Sub.trans (b := State.tabWordMask) (by decide +kernel) hm
    | exact Has.sub (a := State.tabWordMask) (by decide +kernel) hm
    | exact .inl (Has.sub (a := State.tabWordMask) (by decide +kernel) hm)
    | exact Has.at (by decide) (Has.sub (a := State.tabWordMask) (by decide +kernel) hm)
    | exact Has.cell (by decide) (Has.sub (a := State.tabWordMask) (by decide +kernel) hm)
    | exact Has.cellNext (by decide) (Has.sub (a := State.tabWordMask) (by decide +kernel) hm)
    | exact Has.ite (Has.sub (a := State.tabWordMask) (by decide +kernel) hm) (Has.sub (a := State.tabWordMask) (by decide +kernel) hm)
    | exact .inr (fun _ => rfl)
    | (intro _; rfl)
    | (intro _; simp; done)
    | (simp; assumption)
    | (refine .inr (fun _ => ?_); simp; done)
    | (refine .inr (fun _ => ?_); (repeat' split) <;> first | rfl | (simp; done))
    | (simp; done)

def State.tabBurstMask : Nat :=
  State.cmdFinishMask ||| State.openBurstMask ||| State.tabWordMask ||| Part.cmd.bit

theorem State.tabBurst_touch {msk : Nat} {s0 : State} {s : State} (hk : Touch msk s0 s) (hm : Sub State.tabBurstMask msk) :
    Touch msk s0 (State.tabBurst s) := by
  unfold State.tabBurst
  try dsimp only
  repeat' (with_reducible first
    | assumption
    | exact Touch.refl
    | intro _
    | apply State.cmdFinish_touch
    | apply State.openBurst_touch
    | apply State.tabWord_touch
    | (refine Touch.ofEq (by assumption) ?_)
    | apply Touch.ite
    | apply Touch.foldl
    | apply Touch.foldlFst
    | (simp only [Touch.mk_iff]; apply TouchMk.intro)
    | split)
  all_goals with_reducible first
    | exact .inr rfl
    | exact Sub.trans (b := State.tabBurstMask) (by decide +kernel) hm
    | exact Has.sub (a := State.tabBurstMask) (by decide +kernel) hm
    | exact .inl (Has.sub (a := State.tabBurstMask) (by decide +kernel) hm)
    | exact Has.at (by decide) (Has.sub (a := State.tabBurstMask) (by decide +kernel) hm)
    | exact Has.cell (by decide) (Has.sub (a := State.tabBurstMask) (by decide +kernel) hm)
    | exact Has.cellNext (by decide) (Has.sub (a := State.tabBurstMask) (by decide +kernel) hm)
    | exact Has.ite (Has.sub (a := State.tabBurstMask) (by decide +kernel) hm) (Has.sub (a := State.tabBurstMask) (by decide +kernel) hm)
    | exact .inr (fun _ => rfl)
    | (intro _; rfl)
    | (intro _; simp; done)
    | (simp; assumption)
    | (refine .inr (fun _ => ?_); simp; done)
    | (refine .inr (fun _ => ?_); (repeat' split) <;> first | rfl | (simp; done))
    | (simp; done)

def State.tabFlushMask : Nat :=
  State.tabBurstMask

theorem State.tabFlush_touch {msk : Nat} {s0 : State} {s : State} (hk : Touch msk s0 s) (hm : Sub State.tabFlushMask msk) :
    Touch msk s0 (State.tabFlush s) := by
  unfold State.tabFlush
  try dsimp only
  repeat' (with_reducible first
    | assumption
    | exact Touch.refl
    | intro _
    | apply State.tabBurst_touch)
  all_goals with_reducible first
    | exact .inr rfl
    | exact Sub.trans (b := State.tabFlushMask) (by decide +kernel) hm
    | exact Has.sub (a := State.tabFlushMask) (by decide +kernel) hm
    | exact .inl (Has.sub (a := State.tabFlushMask) (by decide +kernel) hm)
    | exact Has.at (by decide) (Has.sub (a := State.tabFlushMask) (by decide +kernel) hm)
    | exact Has.cell (by decide) (Has.sub (a := State.tabFlushMask) (by decide +kernel) hm)
    | exact Has.cellNext (by decide) (Has.sub (a := State.tabFlushMask) (by decide +kernel) hm)
    | exact Has.ite (Has.sub (a := State.tabFlushMask) (by decide +kernel) hm) (Has.sub (a := State.tabFlushMask) (by decide +kernel) hm)
    | exact .inr (fun _ => rfl)
    | (intro _; rfl)
    | (intro _; simp; done)
    | (simp; assumption)
    | (refine .inr (fun _ => ?_); simp; done)
    | (refine .inr (fun _ => ?_); (repeat' split) <;> first | rfl | (simp; done))
    | (simp; done)

def State.refuseUndefinedMask : Nat :=
  State.setRingMask ||| State.cmdFinishMask ||| rbit R.CMD_LAST ||| rbit R.CMD_CNT

theorem State.refuseUndefined_touch {msk : Nat} {s0 : State} {s : State} (hk : Touch msk s0 s) (hm : Sub State.refuseUndefinedMask msk) :
    Touch msk s0 (State.refuseUndefined s) := by
  unfold State.refuseUndefined
  try dsimp only
  repeat' (with_reducible first
    | assumption
    | exact Touch.refl
    | intro _
    | apply State.setRing_touch
    | apply State.cmdFinish_touch
    | apply State.setFld_touch
    | apply State.incReg_touch
    | (refine Touch.ofEq (by assumption) ?_)
    | apply Touch.ite
    | split)
  all_goals with_reducible first
    | exact .inr rfl
    | exact Sub.trans (b := State.refuseUndefinedMask) (by decide +kernel) hm
    | exact Has.sub (a := State.refuseUndefinedMask) (by decide +kernel) hm
    | exact .inl (Has.sub (a := State.refuseUndefinedMask) (by decide +kernel) hm)
    | exact Has.at (by decide) (Has.sub (a := State.refuseUndefinedMask) (by decide +kernel) hm)
    | exact Has.cell (by decide) (Has.sub (a := State.refuseUndefinedMask) (by decide +kernel) hm)
    | exact Has.cellNext (by decide) (Has.sub (a := State.refuseUndefinedMask) (by decide +kernel) hm)
    | exact Has.ite (Has.sub (a := State.refuseUndefinedMask) (by decide +kernel) hm) (Has.sub (a := State.refuseUndefinedMask) (by decide +kernel) hm)
    | exact .inr (fun _ => rfl)
    | (intro _; rfl)
    | (intro _; simp; done)
    | (simp; assumption)
    | (refine .inr (fun _ => ?_); simp; done)
    | (refine .inr (fun _ => ?_); (repeat' split) <;> first | rfl | (simp; done))
    | (simp; done)

def State.refuseAheadMask : Nat :=
  State.refuseUndefinedMask

theorem State.refuseAhead_touch {msk : Nat} {s0 s : State} {n : Nat} (hk : Touch msk s0 s)
    (hm : Sub State.refuseAheadMask msk) : Touch msk s0 (State.refuseAhead n s) := by
  induction n generalizing s with
  | zero => exact hk
  | succ n ih => exact ih (State.refuseUndefined_touch hk (Sub.trans (b := State.refuseAheadMask) (by decide +kernel) hm))

def State.takeFrameMask : Nat :=
  State.setRingMask ||| State.refuseAheadMask

theorem State.takeFrame_touch {msk : Nat} {s0 : State} {s : State} {opc : Nat} {f : LineFrame} (hk : Touch msk s0 s) (hm : Sub State.takeFrameMask msk) :
    Touch msk s0 (State.takeFrame s opc f).1 := by
  unfold State.takeFrame
  try dsimp only
  repeat' (with_reducible first
    | assumption
    | exact Touch.refl
    | intro _
    | apply State.setRing_touch
    | apply State.refuseAhead_touch
    | (refine Touch.ofEq (by assumption) ?_)
    | apply Touch.ite
    | split)
  all_goals with_reducible first
    | exact .inr rfl
    | exact Sub.trans (b := State.takeFrameMask) (by decide +kernel) hm
    | exact Has.sub (a := State.takeFrameMask) (by decide +kernel) hm
    | exact .inl (Has.sub (a := State.takeFrameMask) (by decide +kernel) hm)
    | exact Has.at (by decide) (Has.sub (a := State.takeFrameMask) (by decide +kernel) hm)
    | exact Has.cell (by decide) (Has.sub (a := State.takeFrameMask) (by decide +kernel) hm)
    | exact Has.cellNext (by decide) (Has.sub (a := State.takeFrameMask) (by decide +kernel) hm)
    | exact Has.ite (Has.sub (a := State.takeFrameMask) (by decide +kernel) hm) (Has.sub (a := State.takeFrameMask) (by decide +kernel) hm)
    | exact .inr (fun _ => rfl)
    | (intro _; rfl)
    | (intro _; simp; done)
    | (simp; assumption)
    | (refine .inr (fun _ => ?_); simp; done)
    | (refine .inr (fun _ => ?_); (repeat' split) <;> first | rfl | (simp; done))
    | (simp; done)

def State.lineCmdMask : Nat :=
  State.cmdFinishMask ||| State.takeFrameMask ||| rbit R.CMD_LAST ||| rbit R.CMD_CNT

@[simp] theorem State.tabFlush_rest {s : State} (h : s.cmd.rest = []) : s.tabFlush = s := by
  simp [State.tabFlush, State.tabBurst, h]

theorem State.lineCmd_touch {msk : Nat} {s0 s : State} {opc : Nat} {cls : List Nat} {head plain : Bool} {f : LineFrame}
    {body : State → Reply → List Byte → CmdOut} (hk : Touch msk s0 s) (hm : Sub State.lineCmdMask msk)
    (hr : s.cmd.rest = [] ∨ Sub State.tabFlushMask msk) (hbody : ∀ u r a, Touch msk s0 u → Touch msk s0 (body u r a).s) :
    Touch msk s0 (State.lineCmd s opc cls head plain f body) := by
  have ht : Touch msk s0 s.tabFlush :=
    hr.elim (fun h => (State.tabFlush_rest h).symm ▸ hk) (fun h => State.tabFlush_touch hk h)
  unfold State.lineCmd
  generalize s.tabFlush = u at ht
  dsimp only
  repeat' (with_reducible first
    | assumption
    | exact Touch.refl
    | intro _
    | apply State.cmdFinish_touch
    | apply State.takeFrame_touch
    | apply hbody
    | dsimp only
    | apply State.setFld_touch
    | apply State.incReg_touch
    | (refine Touch.ofEq (by assumption) ?_)
    | apply Touch.ite
    | split)
  all_goals with_reducible first
    | exact Sub.trans (b := State.lineCmdMask) (by decide +kernel) hm
    | exact Has.sub (a := State.lineCmdMask) (by decide +kernel) hm

def setLineMask : Nat :=
  State.requestMask

theorem setLine_touch {msk : Nat} {s0 : State} {kind : Nat} {s : State} {r : Reply} {a : List Byte} (hk : Touch msk s0 s) (hm : Sub setLineMask msk) :
    Touch msk s0 (setLine kind s r a).s := by
  unfold setLine
  try dsimp only
  repeat' (with_reducible first
    | assumption
    | exact Touch.refl
    | intro _
    | apply State.request_touch
    | apply refuse_touch
    | apply sized_touch
    | dsimp only
    | apply Touch.ite
    | split)
  all_goals with_reducible first
    | exact .inr rfl
    | exact Sub.trans (b := setLineMask) (by decide +kernel) hm
    | exact Has.sub (a := setLineMask) (by decide +kernel) hm
    | exact .inl (Has.sub (a := setLineMask) (by decide +kernel) hm)
    | exact Has.at (by decide) (Has.sub (a := setLineMask) (by decide +kernel) hm)
    | exact Has.cell (by decide) (Has.sub (a := setLineMask) (by decide +kernel) hm)
    | exact Has.cellNext (by decide) (Has.sub (a := setLineMask) (by decide +kernel) hm)
    | exact Has.ite (Has.sub (a := setLineMask) (by decide +kernel) hm) (Has.sub (a := setLineMask) (by decide +kernel) hm)
    | exact .inr (fun _ => rfl)
    | (intro _; rfl)
    | (intro _; simp; done)
    | (simp; assumption)
    | (refine .inr (fun _ => ?_); simp; done)
    | (refine .inr (fun _ => ?_); (repeat' split) <;> first | rfl | (simp; done))
    | (simp; done)

def plateLineMask : Nat :=
  State.requestMask

theorem plateLine_touch {msk : Nat} {s0 : State} {kind : Nat} {s : State} {r : Reply} {a : List Byte} (hk : Touch msk s0 s) (hm : Sub plateLineMask msk) :
    Touch msk s0 (plateLine kind s r a).s := by
  unfold plateLine
  try dsimp only
  repeat' (with_reducible first
    | assumption
    | exact Touch.refl
    | intro _
    | apply State.request_touch
    | apply refuse_touch
    | apply sized_touch
    | dsimp only
    | apply Touch.ite
    | split)
  all_goals with_reducible first
    | exact .inr rfl
    | exact Sub.trans (b := plateLineMask) (by decide +kernel) hm
    | exact Has.sub (a := plateLineMask) (by decide +kernel) hm
    | exact .inl (Has.sub (a := plateLineMask) (by decide +kernel) hm)
    | exact Has.at (by decide) (Has.sub (a := plateLineMask) (by decide +kernel) hm)
    | exact Has.cell (by decide) (Has.sub (a := plateLineMask) (by decide +kernel) hm)
    | exact Has.cellNext (by decide) (Has.sub (a := plateLineMask) (by decide +kernel) hm)
    | exact Has.ite (Has.sub (a := plateLineMask) (by decide +kernel) hm) (Has.sub (a := plateLineMask) (by decide +kernel) hm)
    | exact .inr (fun _ => rfl)
    | (intro _; rfl)
    | (intro _; simp; done)
    | (simp; assumption)
    | (refine .inr (fun _ => ?_); simp; done)
    | (refine .inr (fun _ => ?_); (repeat' split) <;> first | rfl | (simp; done))
    | (simp; done)

def releaseLineMask : Nat :=
  State.releaseReqMask

theorem releaseLine_touch {msk : Nat} {s0 : State} {s : State} {r : Reply} {a : List Byte} (hk : Touch msk s0 s) (hm : Sub releaseLineMask msk) :
    Touch msk s0 (releaseLine s r a).s := by
  unfold releaseLine
  try dsimp only
  repeat' (with_reducible first
    | assumption
    | exact Touch.refl
    | intro _
    | apply State.releaseReq_touch
    | apply refuse_touch
    | apply sized_touch
    | dsimp only
    | apply Touch.ite
    | split)
  all_goals with_reducible first
    | exact .inr rfl
    | exact Sub.trans (b := releaseLineMask) (by decide +kernel) hm
    | exact Has.sub (a := releaseLineMask) (by decide +kernel) hm
    | exact .inl (Has.sub (a := releaseLineMask) (by decide +kernel) hm)
    | exact Has.at (by decide) (Has.sub (a := releaseLineMask) (by decide +kernel) hm)
    | exact Has.cell (by decide) (Has.sub (a := releaseLineMask) (by decide +kernel) hm)
    | exact Has.cellNext (by decide) (Has.sub (a := releaseLineMask) (by decide +kernel) hm)
    | exact Has.ite (Has.sub (a := releaseLineMask) (by decide +kernel) hm) (Has.sub (a := releaseLineMask) (by decide +kernel) hm)
    | exact .inr (fun _ => rfl)
    | (intro _; rfl)
    | (intro _; simp; done)
    | (simp; assumption)
    | (refine .inr (fun _ => ?_); simp; done)
    | (refine .inr (fun _ => ?_); (repeat' split) <;> first | rfl | (simp; done))
    | (simp; done)

def eventLineMask : Nat :=
  Part.fde.bit

theorem eventLine_touch {msk : Nat} {s0 : State} {s : State} {x1 : Reply} {a : List Byte} (hk : Touch msk s0 s) (hm : Sub eventLineMask msk) :
    Touch msk s0 (eventLine s x1 a).s := by
  unfold eventLine
  try dsimp only
  repeat' (with_reducible first
    | assumption
    | exact Touch.refl
    | intro _
    | apply Touch.modFde
    | apply refuse_touch
    | apply sized_touch
    | dsimp only
    | apply Touch.ite
    | split)
  all_goals with_reducible first
    | exact .inr rfl
    | exact Sub.trans (b := eventLineMask) (by decide +kernel) hm
    | exact Has.sub (a := eventLineMask) (by decide +kernel) hm
    | exact .inl (Has.sub (a := eventLineMask) (by decide +kernel) hm)
    | exact Has.at (by decide) (Has.sub (a := eventLineMask) (by decide +kernel) hm)
    | exact Has.cell (by decide) (Has.sub (a := eventLineMask) (by decide +kernel) hm)
    | exact Has.cellNext (by decide) (Has.sub (a := eventLineMask) (by decide +kernel) hm)
    | exact Has.ite (Has.sub (a := eventLineMask) (by decide +kernel) hm) (Has.sub (a := eventLineMask) (by decide +kernel) hm)
    | exact .inr (fun _ => rfl)
    | (intro _; rfl)
    | (intro _; simp; done)
    | (simp; assumption)
    | (refine .inr (fun _ => ?_); simp; done)
    | (refine .inr (fun _ => ?_); (repeat' split) <;> first | rfl | (simp; done))
    | (simp; done)

def State.lampAnswerMask : Nat :=
  State.cmdFinishMask

theorem State.lampAnswer_touch {msk : Nat} {s0 : State} {s : State} {r : Reply} {code : Nat} {refm : Nat} (hk : Touch msk s0 s) (hm : Sub State.lampAnswerMask msk) :
    Touch msk s0 (State.lampAnswer s r code refm) := by
  unfold State.lampAnswer
  try dsimp only
  repeat' (with_reducible first
    | assumption
    | exact Touch.refl
    | intro _
    | apply State.cmdFinish_touch
    | (refine Touch.ofEq (by assumption) ?_)
    | split)
  all_goals with_reducible first
    | exact .inr rfl
    | exact Sub.trans (b := State.lampAnswerMask) (by decide +kernel) hm
    | exact Has.sub (a := State.lampAnswerMask) (by decide +kernel) hm
    | exact .inl (Has.sub (a := State.lampAnswerMask) (by decide +kernel) hm)
    | exact Has.at (by decide) (Has.sub (a := State.lampAnswerMask) (by decide +kernel) hm)
    | exact Has.cell (by decide) (Has.sub (a := State.lampAnswerMask) (by decide +kernel) hm)
    | exact Has.cellNext (by decide) (Has.sub (a := State.lampAnswerMask) (by decide +kernel) hm)
    | exact Has.ite (Has.sub (a := State.lampAnswerMask) (by decide +kernel) hm) (Has.sub (a := State.lampAnswerMask) (by decide +kernel) hm)
    | exact .inr (fun _ => rfl)
    | (intro _; rfl)
    | (intro _; simp; done)
    | (simp; assumption)
    | (refine .inr (fun _ => ?_); simp; done)
    | (refine .inr (fun _ => ?_); (repeat' split) <;> first | rfl | (simp; done))
    | (simp; done)

def grpSetLineMask : Nat :=
  State.remoteWriteMask ||| State.openBurstMask

theorem grpSetLine_touch {msk : Nat} {s0 : State} {s : State} {x1 : Reply} {a : List Byte} (hk : Touch msk s0 s) (hm : Sub grpSetLineMask msk) :
    Touch msk s0 (grpSetLine s x1 a).s := by
  unfold grpSetLine
  try dsimp only
  repeat' (with_reducible first
    | assumption
    | exact Touch.refl
    | intro _
    | apply sized_touch
    | apply State.remoteWrite_touch
    | apply State.openBurst_touch
    | dsimp only
    | apply Touch.foldl
    | apply Touch.foldlFst)
  all_goals with_reducible first
    | exact .inr rfl
    | exact Sub.trans (b := grpSetLineMask) (by decide +kernel) hm
    | exact Has.sub (a := grpSetLineMask) (by decide +kernel) hm
    | exact .inl (Has.sub (a := grpSetLineMask) (by decide +kernel) hm)
    | exact Has.at (by decide) (Has.sub (a := grpSetLineMask) (by decide +kernel) hm)
    | exact Has.cell (by decide) (Has.sub (a := grpSetLineMask) (by decide +kernel) hm)
    | exact Has.cellNext (by decide) (Has.sub (a := grpSetLineMask) (by decide +kernel) hm)
    | exact Has.ite (Has.sub (a := grpSetLineMask) (by decide +kernel) hm) (Has.sub (a := grpSetLineMask) (by decide +kernel) hm)
    | exact .inr (fun _ => rfl)
    | (intro _; rfl)
    | (intro _; simp; done)
    | (simp; assumption)
    | (refine .inr (fun _ => ?_); simp; done)
    | (refine .inr (fun _ => ?_); (repeat' split) <;> first | rfl | (simp; done))
    | (simp; done)

def grpBitLineMask : Nat :=
  State.remoteWriteMask ||| State.openBurstMask

theorem grpBitLine_touch {msk : Nat} {s0 : State} {on : Bool} {s : State} {x2 : Reply} {a : List Byte} (hk : Touch msk s0 s) (hm : Sub grpBitLineMask msk) :
    Touch msk s0 (grpBitLine on s x2 a).s := by
  unfold grpBitLine
  try dsimp only
  repeat' (with_reducible first
    | assumption
    | exact Touch.refl
    | intro _
    | apply refuse_touch
    | apply sized_touch
    | apply State.remoteWrite_touch
    | apply State.openBurst_touch
    | dsimp only
    | apply Touch.ite
    | split)
  all_goals with_reducible first
    | exact .inr rfl
    | exact Sub.trans (b := grpBitLineMask) (by decide +kernel) hm
    | exact Has.sub (a := grpBitLineMask) (by decide +kernel) hm
    | exact .inl (Has.sub (a := grpBitLineMask) (by decide +kernel) hm)
    | exact Has.at (by decide) (Has.sub (a := grpBitLineMask) (by decide +kernel) hm)
    | exact Has.cell (by decide) (Has.sub (a := grpBitLineMask) (by decide +kernel) hm)
    | exact Has.cellNext (by decide) (Has.sub (a := grpBitLineMask) (by decide +kernel) hm)
    | exact Has.ite (Has.sub (a := grpBitLineMask) (by decide +kernel) hm) (Has.sub (a := grpBitLineMask) (by decide +kernel) hm)
    | exact .inr (fun _ => rfl)
    | (intro _; rfl)
    | (intro _; simp; done)
    | (simp; assumption)
    | (refine .inr (fun _ => ?_); simp; done)
    | (refine .inr (fun _ => ?_); (repeat' split) <;> first | rfl | (simp; done))
    | (simp; done)

def posSetLineMask : Nat :=
  State.remoteWriteMask ||| State.openBurstMask

theorem posSetLine_touch {msk : Nat} {s0 : State} {s : State} {x1 : Reply} {a : List Byte} (hk : Touch msk s0 s) (hm : Sub posSetLineMask msk) :
    Touch msk s0 (posSetLine s x1 a).s := by
  unfold posSetLine
  try dsimp only
  repeat' (with_reducible first
    | assumption
    | exact Touch.refl
    | intro _
    | apply sized_touch
    | apply State.remoteWrite_touch
    | apply State.openBurst_touch
    | dsimp only)
  all_goals with_reducible first
    | exact .inr rfl
    | exact Sub.trans (b := posSetLineMask) (by decide +kernel) hm
    | exact Has.sub (a := posSetLineMask) (by decide +kernel) hm
    | exact .inl (Has.sub (a := posSetLineMask) (by decide +kernel) hm)
    | exact Has.at (by decide) (Has.sub (a := posSetLineMask) (by decide +kernel) hm)
    | exact Has.cell (by decide) (Has.sub (a := posSetLineMask) (by decide +kernel) hm)
    | exact Has.cellNext (by decide) (Has.sub (a := posSetLineMask) (by decide +kernel) hm)
    | exact Has.ite (Has.sub (a := posSetLineMask) (by decide +kernel) hm) (Has.sub (a := posSetLineMask) (by decide +kernel) hm)
    | exact .inr (fun _ => rfl)
    | (intro _; rfl)
    | (intro _; simp; done)
    | (simp; assumption)
    | (refine .inr (fun _ => ?_); simp; done)
    | (refine .inr (fun _ => ?_); (repeat' split) <;> first | rfl | (simp; done))
    | (simp; done)

def tabOpenLineMask : Nat :=
  State.remoteWriteMask ||| State.openBurstMask

theorem tabOpenLine_touch {msk : Nat} {s0 : State} {s : State} {x1 : Reply} {a : List Byte} (hk : Touch msk s0 s) (hm : Sub tabOpenLineMask msk) :
    Touch msk s0 (tabOpenLine s x1 a).s := by
  unfold tabOpenLine
  try dsimp only
  repeat' (with_reducible first
    | assumption
    | exact Touch.refl
    | intro _
    | apply refuse_touch
    | apply sized_touch
    | apply State.remoteWrite_touch
    | apply State.openBurst_touch
    | dsimp only
    | apply Touch.ite
    | split)
  all_goals with_reducible first
    | exact .inr rfl
    | exact Sub.trans (b := tabOpenLineMask) (by decide +kernel) hm
    | exact Has.sub (a := tabOpenLineMask) (by decide +kernel) hm
    | exact .inl (Has.sub (a := tabOpenLineMask) (by decide +kernel) hm)
    | exact Has.at (by decide) (Has.sub (a := tabOpenLineMask) (by decide +kernel) hm)
    | exact Has.cell (by decide) (Has.sub (a := tabOpenLineMask) (by decide +kernel) hm)
    | exact Has.cellNext (by decide) (Has.sub (a := tabOpenLineMask) (by decide +kernel) hm)
    | exact Has.ite (Has.sub (a := tabOpenLineMask) (by decide +kernel) hm) (Has.sub (a := tabOpenLineMask) (by decide +kernel) hm)
    | exact .inr (fun _ => rfl)
    | (intro _; rfl)
    | (intro _; simp; done)
    | (simp; assumption)
    | (refine .inr (fun _ => ?_); simp; done)
    | (refine .inr (fun _ => ?_); (repeat' split) <;> first | rfl | (simp; done))
    | (simp; done)

def tabWriteLineMask : Nat :=
  State.remoteWriteMask ||| State.openBurstMask ||| State.tabWordMask ||| Part.cmd.bit

theorem tabWriteLine_touch {msk : Nat} {s0 : State} {s : State} {r : Reply} {a : List Byte} (hk : Touch msk s0 s) (hm : Sub tabWriteLineMask msk) :
    Touch msk s0 (tabWriteLine s r a).s := by
  unfold tabWriteLine
  try dsimp only
  repeat' (with_reducible first
    | assumption
    | exact Touch.refl
    | intro _
    | apply refuse_touch
    | apply State.remoteWrite_touch
    | apply State.openBurst_touch
    | apply State.tabWord_touch
    | dsimp only
    | apply Touch.ite
    | apply Touch.foldl
    | apply Touch.foldlFst
    | (simp only [Touch.mk_iff]; apply TouchMk.intro)
    | split)
  all_goals with_reducible first
    | exact .inr rfl
    | exact Sub.trans (b := tabWriteLineMask) (by decide +kernel) hm
    | exact Has.sub (a := tabWriteLineMask) (by decide +kernel) hm
    | exact .inl (Has.sub (a := tabWriteLineMask) (by decide +kernel) hm)
    | exact Has.at (by decide) (Has.sub (a := tabWriteLineMask) (by decide +kernel) hm)
    | exact Has.cell (by decide) (Has.sub (a := tabWriteLineMask) (by decide +kernel) hm)
    | exact Has.cellNext (by decide) (Has.sub (a := tabWriteLineMask) (by decide +kernel) hm)
    | exact Has.ite (Has.sub (a := tabWriteLineMask) (by decide +kernel) hm) (Has.sub (a := tabWriteLineMask) (by decide +kernel) hm)
    | exact .inr (fun _ => rfl)
    | (intro _; rfl)
    | (intro _; simp; done)
    | (simp; assumption)
    | (refine .inr (fun _ => ?_); simp; done)
    | (refine .inr (fun _ => ?_); (repeat' split) <;> first | rfl | (simp; done))
    | (simp; done)

def tabCloseLineMask : Nat :=
  State.remoteWriteMask ||| State.openBurstMask

theorem tabCloseLine_touch {msk : Nat} {s0 : State} {s : State} {x1 : Reply} {a : List Byte} (hk : Touch msk s0 s) (hm : Sub tabCloseLineMask msk) :
    Touch msk s0 (tabCloseLine s x1 a).s := by
  unfold tabCloseLine
  try dsimp only
  repeat' (with_reducible first
    | assumption
    | exact Touch.refl
    | intro _
    | apply refuse_touch
    | apply sized_touch
    | apply State.remoteWrite_touch
    | apply State.openBurst_touch
    | dsimp only
    | apply Touch.ite
    | split)
  all_goals with_reducible first
    | exact .inr rfl
    | exact Sub.trans (b := tabCloseLineMask) (by decide +kernel) hm
    | exact Has.sub (a := tabCloseLineMask) (by decide +kernel) hm
    | exact .inl (Has.sub (a := tabCloseLineMask) (by decide +kernel) hm)
    | exact Has.at (by decide) (Has.sub (a := tabCloseLineMask) (by decide +kernel) hm)
    | exact Has.cell (by decide) (Has.sub (a := tabCloseLineMask) (by decide +kernel) hm)
    | exact Has.cellNext (by decide) (Has.sub (a := tabCloseLineMask) (by decide +kernel) hm)
    | exact Has.ite (Has.sub (a := tabCloseLineMask) (by decide +kernel) hm) (Has.sub (a := tabCloseLineMask) (by decide +kernel) hm)
    | exact .inr (fun _ => rfl)
    | (intro _; rfl)
    | (intro _; simp; done)
    | (simp; assumption)
    | (refine .inr (fun _ => ?_); simp; done)
    | (refine .inr (fun _ => ?_); (repeat' split) <;> first | rfl | (simp; done))
    | (simp; done)

def tabSaveLineMask : Nat :=
  State.remoteWriteMask ||| State.openBurstMask

theorem tabSaveLine_touch {msk : Nat} {s0 : State} {s : State} {x1 : Reply} {a : List Byte} (hk : Touch msk s0 s) (hm : Sub tabSaveLineMask msk) :
    Touch msk s0 (tabSaveLine s x1 a).s := by
  unfold tabSaveLine
  try dsimp only
  repeat' (with_reducible first
    | assumption
    | exact Touch.refl
    | intro _
    | apply refuse_touch
    | apply sized_touch
    | apply State.remoteWrite_touch
    | apply State.openBurst_touch
    | dsimp only
    | apply Touch.ite
    | split)
  all_goals with_reducible first
    | exact .inr rfl
    | exact Sub.trans (b := tabSaveLineMask) (by decide +kernel) hm
    | exact Has.sub (a := tabSaveLineMask) (by decide +kernel) hm
    | exact .inl (Has.sub (a := tabSaveLineMask) (by decide +kernel) hm)
    | exact Has.at (by decide) (Has.sub (a := tabSaveLineMask) (by decide +kernel) hm)
    | exact Has.cell (by decide) (Has.sub (a := tabSaveLineMask) (by decide +kernel) hm)
    | exact Has.cellNext (by decide) (Has.sub (a := tabSaveLineMask) (by decide +kernel) hm)
    | exact Has.ite (Has.sub (a := tabSaveLineMask) (by decide +kernel) hm) (Has.sub (a := tabSaveLineMask) (by decide +kernel) hm)
    | exact .inr (fun _ => rfl)
    | (intro _; rfl)
    | (intro _; simp; done)
    | (simp; assumption)
    | (refine .inr (fun _ => ?_); simp; done)
    | (refine .inr (fun _ => ?_); (repeat' split) <;> first | rfl | (simp; done))
    | (simp; done)

def plateWrLineMask : Nat :=
  State.remoteWriteMask ||| State.openBurstMask

theorem plateWrLine_touch {msk : Nat} {s0 : State} {s : State} {x1 : Reply} {a : List Byte} (hk : Touch msk s0 s) (hm : Sub plateWrLineMask msk) :
    Touch msk s0 (plateWrLine s x1 a).s := by
  unfold plateWrLine
  try dsimp only
  repeat' (with_reducible first
    | assumption
    | exact Touch.refl
    | intro _
    | apply refuse_touch
    | apply sized_touch
    | apply State.remoteWrite_touch
    | apply State.openBurst_touch
    | dsimp only
    | apply Touch.ite
    | apply Touch.foldl
    | apply Touch.foldlFst
    | split)
  all_goals with_reducible first
    | exact .inr rfl
    | exact Sub.trans (b := plateWrLineMask) (by decide +kernel) hm
    | exact Has.sub (a := plateWrLineMask) (by decide +kernel) hm
    | exact .inl (Has.sub (a := plateWrLineMask) (by decide +kernel) hm)
    | exact Has.at (by decide) (Has.sub (a := plateWrLineMask) (by decide +kernel) hm)
    | exact Has.cell (by decide) (Has.sub (a := plateWrLineMask) (by decide +kernel) hm)
    | exact Has.cellNext (by decide) (Has.sub (a := plateWrLineMask) (by decide +kernel) hm)
    | exact Has.ite (Has.sub (a := plateWrLineMask) (by decide +kernel) hm) (Has.sub (a := plateWrLineMask) (by decide +kernel) hm)
    | exact .inr (fun _ => rfl)
    | (intro _; rfl)
    | (intro _; simp; done)
    | (simp; assumption)
    | (refine .inr (fun _ => ?_); simp; done)
    | (refine .inr (fun _ => ?_); (repeat' split) <;> first | rfl | (simp; done))
    | (simp; done)

def cfgSaveLineMask : Nat :=
  State.cfgSaveStartMask

theorem cfgSaveLine_touch {msk : Nat} {s0 : State} {s : State} {x1 : Reply} {a : List Byte} (hk : Touch msk s0 s) (hm : Sub cfgSaveLineMask msk) :
    Touch msk s0 (cfgSaveLine s x1 a).s := by
  unfold cfgSaveLine
  try dsimp only
  repeat' (with_reducible first
    | assumption
    | exact Touch.refl
    | intro _
    | apply State.cfgSaveStart_touch
    | apply refuse_touch
    | apply sized_touch
    | dsimp only
    | apply Touch.ite
    | split)
  all_goals with_reducible first
    | exact .inr rfl
    | exact Sub.trans (b := cfgSaveLineMask) (by decide +kernel) hm
    | exact Has.sub (a := cfgSaveLineMask) (by decide +kernel) hm
    | exact .inl (Has.sub (a := cfgSaveLineMask) (by decide +kernel) hm)
    | exact Has.at (by decide) (Has.sub (a := cfgSaveLineMask) (by decide +kernel) hm)
    | exact Has.cell (by decide) (Has.sub (a := cfgSaveLineMask) (by decide +kernel) hm)
    | exact Has.cellNext (by decide) (Has.sub (a := cfgSaveLineMask) (by decide +kernel) hm)
    | exact Has.ite (Has.sub (a := cfgSaveLineMask) (by decide +kernel) hm) (Has.sub (a := cfgSaveLineMask) (by decide +kernel) hm)
    | exact .inr (fun _ => rfl)
    | (intro _; rfl)
    | (intro _; simp; done)
    | (simp; assumption)
    | (refine .inr (fun _ => ?_); simp; done)
    | (refine .inr (fun _ => ?_); (repeat' split) <;> first | rfl | (simp; done))
    | (simp; done)

def State.makeReportMask : Nat :=
  State.ringInMask ||| State.originateMask ||| State.toQ2Mask ||| rbit R.CMD_RSEQ

theorem State.makeReport_touch {msk : Nat} {s0 : State} {s : State} {opc : Nat} {urg : Bool} {body : List Byte} (hk : Touch msk s0 s) (hm : Sub State.makeReportMask msk) :
    Touch msk s0 (State.makeReport s opc urg body) := by
  unfold State.makeReport
  try dsimp only
  repeat' (with_reducible first
    | assumption
    | exact Touch.refl
    | intro _
    | apply State.ringIn_touch
    | apply State.originate_touch
    | apply State.toQ2_touch
    | apply State.setFld_touch
    | apply Touch.ite
    | split)
  all_goals with_reducible first
    | exact .inr rfl
    | exact Sub.trans (b := State.makeReportMask) (by decide +kernel) hm
    | exact Has.sub (a := State.makeReportMask) (by decide +kernel) hm
    | exact .inl (Has.sub (a := State.makeReportMask) (by decide +kernel) hm)
    | exact Has.at (by decide) (Has.sub (a := State.makeReportMask) (by decide +kernel) hm)
    | exact Has.cell (by decide) (Has.sub (a := State.makeReportMask) (by decide +kernel) hm)
    | exact Has.cellNext (by decide) (Has.sub (a := State.makeReportMask) (by decide +kernel) hm)
    | exact Has.ite (Has.sub (a := State.makeReportMask) (by decide +kernel) hm) (Has.sub (a := State.makeReportMask) (by decide +kernel) hm)
    | exact .inr (fun _ => rfl)
    | (intro _; rfl)
    | (intro _; simp; done)
    | (simp; assumption)
    | (refine .inr (fun _ => ?_); simp; done)
    | (refine .inr (fun _ => ?_); (repeat' split) <;> first | rfl | (simp; done))
    | (simp; done)

def queryMask : Nat :=
  0

theorem query_touch {msk : Nat} {s0 : State} {n : Nat} {ok : List Byte → Bool} {f : State → List Byte → List Byte} {s : State} {x4 : Reply} {a : List Byte} (hk : Touch msk s0 s) (hm : Sub queryMask msk) :
    Touch msk s0 (query n ok f s x4 a).s := by
  unfold query
  try dsimp only
  repeat' (with_reducible first
    | assumption
    | exact Touch.refl
    | intro _
    | apply refuse_touch
    | apply sized_touch
    | dsimp only
    | apply Touch.ite
    | split)
  all_goals with_reducible first
    | exact .inr rfl
    | exact Sub.trans (b := queryMask) (by decide +kernel) hm
    | exact Has.sub (a := queryMask) (by decide +kernel) hm
    | exact .inl (Has.sub (a := queryMask) (by decide +kernel) hm)
    | exact Has.at (by decide) (Has.sub (a := queryMask) (by decide +kernel) hm)
    | exact Has.cell (by decide) (Has.sub (a := queryMask) (by decide +kernel) hm)
    | exact Has.cellNext (by decide) (Has.sub (a := queryMask) (by decide +kernel) hm)
    | exact Has.ite (Has.sub (a := queryMask) (by decide +kernel) hm) (Has.sub (a := queryMask) (by decide +kernel) hm)
    | exact .inr (fun _ => rfl)
    | (intro _; rfl)
    | (intro _; simp; done)
    | (simp; assumption)
    | (refine .inr (fun _ => ?_); simp; done)
    | (refine .inr (fun _ => ?_); (repeat' split) <;> first | rfl | (simp; done))
    | (simp; done)

def qStatusLineMask : Nat :=
  0

theorem qStatusLine_touch {msk : Nat} {s0 : State} {s : State} {r : Reply} {a : List Byte} (hk : Touch msk s0 s) (hm : Sub qStatusLineMask msk) :
    Touch msk s0 (qStatusLine s r a).s := by
  unfold qStatusLine
  try dsimp only
  repeat' (with_reducible first
    | assumption
    | exact Touch.refl
    | intro _
    | apply query_touch
    | dsimp only)
  all_goals with_reducible first
    | exact .inr rfl
    | exact Sub.trans (b := qStatusLineMask) (by decide +kernel) hm
    | exact Has.sub (a := qStatusLineMask) (by decide +kernel) hm
    | exact .inl (Has.sub (a := qStatusLineMask) (by decide +kernel) hm)
    | exact Has.at (by decide) (Has.sub (a := qStatusLineMask) (by decide +kernel) hm)
    | exact Has.cell (by decide) (Has.sub (a := qStatusLineMask) (by decide +kernel) hm)
    | exact Has.cellNext (by decide) (Has.sub (a := qStatusLineMask) (by decide +kernel) hm)
    | exact Has.ite (Has.sub (a := qStatusLineMask) (by decide +kernel) hm) (Has.sub (a := qStatusLineMask) (by decide +kernel) hm)
    | exact .inr (fun _ => rfl)
    | (intro _; rfl)
    | (intro _; simp; done)
    | (simp; assumption)
    | (refine .inr (fun _ => ?_); simp; done)
    | (refine .inr (fun _ => ?_); (repeat' split) <;> first | rfl | (simp; done))
    | (simp; done)

def qLampLineMask : Nat :=
  0

theorem qLampLine_touch {msk : Nat} {s0 : State} {s : State} {r : Reply} {a : List Byte} (hk : Touch msk s0 s) (hm : Sub qLampLineMask msk) :
    Touch msk s0 (qLampLine s r a).s := by
  unfold qLampLine
  try dsimp only
  repeat' (with_reducible first
    | assumption
    | exact Touch.refl
    | intro _
    | apply query_touch
    | dsimp only)
  all_goals with_reducible first
    | exact .inr rfl
    | exact Sub.trans (b := qLampLineMask) (by decide +kernel) hm
    | exact Has.sub (a := qLampLineMask) (by decide +kernel) hm
    | exact .inl (Has.sub (a := qLampLineMask) (by decide +kernel) hm)
    | exact Has.at (by decide) (Has.sub (a := qLampLineMask) (by decide +kernel) hm)
    | exact Has.cell (by decide) (Has.sub (a := qLampLineMask) (by decide +kernel) hm)
    | exact Has.cellNext (by decide) (Has.sub (a := qLampLineMask) (by decide +kernel) hm)
    | exact Has.ite (Has.sub (a := qLampLineMask) (by decide +kernel) hm) (Has.sub (a := qLampLineMask) (by decide +kernel) hm)
    | exact .inr (fun _ => rfl)
    | (intro _; rfl)
    | (intro _; simp; done)
    | (simp; assumption)
    | (refine .inr (fun _ => ?_); simp; done)
    | (refine .inr (fun _ => ?_); (repeat' split) <;> first | rfl | (simp; done))
    | (simp; done)

def qHealthLineMask : Nat :=
  0

theorem qHealthLine_touch {msk : Nat} {s0 : State} {s : State} {r : Reply} {a : List Byte} (hk : Touch msk s0 s) (hm : Sub qHealthLineMask msk) :
    Touch msk s0 (qHealthLine s r a).s := by
  unfold qHealthLine
  try dsimp only
  repeat' (with_reducible first
    | assumption
    | exact Touch.refl
    | intro _
    | apply query_touch
    | dsimp only)
  all_goals with_reducible first
    | exact .inr rfl
    | exact Sub.trans (b := qHealthLineMask) (by decide +kernel) hm
    | exact Has.sub (a := qHealthLineMask) (by decide +kernel) hm
    | exact .inl (Has.sub (a := qHealthLineMask) (by decide +kernel) hm)
    | exact Has.at (by decide) (Has.sub (a := qHealthLineMask) (by decide +kernel) hm)
    | exact Has.cell (by decide) (Has.sub (a := qHealthLineMask) (by decide +kernel) hm)
    | exact Has.cellNext (by decide) (Has.sub (a := qHealthLineMask) (by decide +kernel) hm)
    | exact Has.ite (Has.sub (a := qHealthLineMask) (by decide +kernel) hm) (Has.sub (a := qHealthLineMask) (by decide +kernel) hm)
    | exact .inr (fun _ => rfl)
    | (intro _; rfl)
    | (intro _; simp; done)
    | (simp; assumption)
    | (refine .inr (fun _ => ?_); simp; done)
    | (refine .inr (fun _ => ?_); (repeat' split) <;> first | rfl | (simp; done))
    | (simp; done)

def qEnergyLineMask : Nat :=
  0

theorem qEnergyLine_touch {msk : Nat} {s0 : State} {s : State} {r : Reply} {a : List Byte} (hk : Touch msk s0 s) (hm : Sub qEnergyLineMask msk) :
    Touch msk s0 (qEnergyLine s r a).s := by
  unfold qEnergyLine
  try dsimp only
  repeat' (with_reducible first
    | assumption
    | exact Touch.refl
    | intro _
    | apply query_touch
    | dsimp only)
  all_goals with_reducible first
    | exact .inr rfl
    | exact Sub.trans (b := qEnergyLineMask) (by decide +kernel) hm
    | exact Has.sub (a := qEnergyLineMask) (by decide +kernel) hm
    | exact .inl (Has.sub (a := qEnergyLineMask) (by decide +kernel) hm)
    | exact Has.at (by decide) (Has.sub (a := qEnergyLineMask) (by decide +kernel) hm)
    | exact Has.cell (by decide) (Has.sub (a := qEnergyLineMask) (by decide +kernel) hm)
    | exact Has.cellNext (by decide) (Has.sub (a := qEnergyLineMask) (by decide +kernel) hm)
    | exact Has.ite (Has.sub (a := qEnergyLineMask) (by decide +kernel) hm) (Has.sub (a := qEnergyLineMask) (by decide +kernel) hm)
    | exact .inr (fun _ => rfl)
    | (intro _; rfl)
    | (intro _; simp; done)
    | (simp; assumption)
    | (refine .inr (fun _ => ?_); simp; done)
    | (refine .inr (fun _ => ?_); (repeat' split) <;> first | rfl | (simp; done))
    | (simp; done)

def qHatchLineMask : Nat :=
  0

theorem qHatchLine_touch {msk : Nat} {s0 : State} {s : State} {r : Reply} {a : List Byte} (hk : Touch msk s0 s) (hm : Sub qHatchLineMask msk) :
    Touch msk s0 (qHatchLine s r a).s := by
  unfold qHatchLine
  try dsimp only
  repeat' (with_reducible first
    | assumption
    | exact Touch.refl
    | intro _
    | apply query_touch
    | dsimp only)
  all_goals with_reducible first
    | exact .inr rfl
    | exact Sub.trans (b := qHatchLineMask) (by decide +kernel) hm
    | exact Has.sub (a := qHatchLineMask) (by decide +kernel) hm
    | exact .inl (Has.sub (a := qHatchLineMask) (by decide +kernel) hm)
    | exact Has.at (by decide) (Has.sub (a := qHatchLineMask) (by decide +kernel) hm)
    | exact Has.cell (by decide) (Has.sub (a := qHatchLineMask) (by decide +kernel) hm)
    | exact Has.cellNext (by decide) (Has.sub (a := qHatchLineMask) (by decide +kernel) hm)
    | exact Has.ite (Has.sub (a := qHatchLineMask) (by decide +kernel) hm) (Has.sub (a := qHatchLineMask) (by decide +kernel) hm)
    | exact .inr (fun _ => rfl)
    | (intro _; rfl)
    | (intro _; simp; done)
    | (simp; assumption)
    | (refine .inr (fun _ => ?_); simp; done)
    | (refine .inr (fun _ => ?_); (repeat' split) <;> first | rfl | (simp; done))
    | (simp; done)

def qEventsLineMask : Nat :=
  0

theorem qEventsLine_touch {msk : Nat} {s0 : State} {s : State} {r : Reply} {a : List Byte} (hk : Touch msk s0 s) (hm : Sub qEventsLineMask msk) :
    Touch msk s0 (qEventsLine s r a).s := by
  unfold qEventsLine
  try dsimp only
  repeat' (with_reducible first
    | assumption
    | exact Touch.refl
    | intro _
    | apply query_touch
    | dsimp only)
  all_goals with_reducible first
    | exact .inr rfl
    | exact Sub.trans (b := qEventsLineMask) (by decide +kernel) hm
    | exact Has.sub (a := qEventsLineMask) (by decide +kernel) hm
    | exact .inl (Has.sub (a := qEventsLineMask) (by decide +kernel) hm)
    | exact Has.at (by decide) (Has.sub (a := qEventsLineMask) (by decide +kernel) hm)
    | exact Has.cell (by decide) (Has.sub (a := qEventsLineMask) (by decide +kernel) hm)
    | exact Has.cellNext (by decide) (Has.sub (a := qEventsLineMask) (by decide +kernel) hm)
    | exact Has.ite (Has.sub (a := qEventsLineMask) (by decide +kernel) hm) (Has.sub (a := qEventsLineMask) (by decide +kernel) hm)
    | exact .inr (fun _ => rfl)
    | (intro _; rfl)
    | (intro _; simp; done)
    | (simp; assumption)
    | (refine .inr (fun _ => ?_); simp; done)
    | (refine .inr (fun _ => ?_); (repeat' split) <;> first | rfl | (simp; done))
    | (simp; done)

def qGaugeLineMask : Nat :=
  0

theorem qGaugeLine_touch {msk : Nat} {s0 : State} {s : State} {r : Reply} {a : List Byte} (hk : Touch msk s0 s) (hm : Sub qGaugeLineMask msk) :
    Touch msk s0 (qGaugeLine s r a).s := by
  unfold qGaugeLine
  try dsimp only
  repeat' (with_reducible first
    | assumption
    | exact Touch.refl
    | intro _
    | apply query_touch
    | dsimp only)
  all_goals with_reducible first
    | exact .inr rfl
    | exact Sub.trans (b := qGaugeLineMask) (by decide +kernel) hm
    | exact Has.sub (a := qGaugeLineMask) (by decide +kernel) hm
    | exact .inl (Has.sub (a := qGaugeLineMask) (by decide +kernel) hm)
    | exact Has.at (by decide) (Has.sub (a := qGaugeLineMask) (by decide +kernel) hm)
    | exact Has.cell (by decide) (Has.sub (a := qGaugeLineMask) (by decide +kernel) hm)
    | exact Has.cellNext (by decide) (Has.sub (a := qGaugeLineMask) (by decide +kernel) hm)
    | exact Has.ite (Has.sub (a := qGaugeLineMask) (by decide +kernel) hm) (Has.sub (a := qGaugeLineMask) (by decide +kernel) hm)
    | exact .inr (fun _ => rfl)
    | (intro _; rfl)
    | (intro _; simp; done)
    | (simp; assumption)
    | (refine .inr (fun _ => ?_); simp; done)
    | (refine .inr (fun _ => ?_); (repeat' split) <;> first | rfl | (simp; done))
    | (simp; done)

def qTimeLineMask : Nat :=
  0

theorem qTimeLine_touch {msk : Nat} {s0 : State} {s : State} {r : Reply} {a : List Byte} (hk : Touch msk s0 s) (hm : Sub qTimeLineMask msk) :
    Touch msk s0 (qTimeLine s r a).s := by
  unfold qTimeLine
  try dsimp only
  repeat' (with_reducible first
    | assumption
    | exact Touch.refl
    | intro _
    | apply query_touch
    | dsimp only)
  all_goals with_reducible first
    | exact .inr rfl
    | exact Sub.trans (b := qTimeLineMask) (by decide +kernel) hm
    | exact Has.sub (a := qTimeLineMask) (by decide +kernel) hm
    | exact .inl (Has.sub (a := qTimeLineMask) (by decide +kernel) hm)
    | exact Has.at (by decide) (Has.sub (a := qTimeLineMask) (by decide +kernel) hm)
    | exact Has.cell (by decide) (Has.sub (a := qTimeLineMask) (by decide +kernel) hm)
    | exact Has.cellNext (by decide) (Has.sub (a := qTimeLineMask) (by decide +kernel) hm)
    | exact Has.ite (Has.sub (a := qTimeLineMask) (by decide +kernel) hm) (Has.sub (a := qTimeLineMask) (by decide +kernel) hm)
    | exact .inr (fun _ => rfl)
    | (intro _; rfl)
    | (intro _; simp; done)
    | (simp; assumption)
    | (refine .inr (fun _ => ?_); simp; done)
    | (refine .inr (fun _ => ?_); (repeat' split) <;> first | rfl | (simp; done))
    | (simp; done)

def qVersionLineMask : Nat :=
  0

theorem qVersionLine_touch {msk : Nat} {s0 : State} {s : State} {r : Reply} {a : List Byte} (hk : Touch msk s0 s) (hm : Sub qVersionLineMask msk) :
    Touch msk s0 (qVersionLine s r a).s := by
  unfold qVersionLine
  try dsimp only
  repeat' (with_reducible first
    | assumption
    | exact Touch.refl
    | intro _
    | apply query_touch
    | dsimp only)
  all_goals with_reducible first
    | exact .inr rfl
    | exact Sub.trans (b := qVersionLineMask) (by decide +kernel) hm
    | exact Has.sub (a := qVersionLineMask) (by decide +kernel) hm
    | exact .inl (Has.sub (a := qVersionLineMask) (by decide +kernel) hm)
    | exact Has.at (by decide) (Has.sub (a := qVersionLineMask) (by decide +kernel) hm)
    | exact Has.cell (by decide) (Has.sub (a := qVersionLineMask) (by decide +kernel) hm)
    | exact Has.cellNext (by decide) (Has.sub (a := qVersionLineMask) (by decide +kernel) hm)
    | exact Has.ite (Has.sub (a := qVersionLineMask) (by decide +kernel) hm) (Has.sub (a := qVersionLineMask) (by decide +kernel) hm)
    | exact .inr (fun _ => rfl)
    | (intro _; rfl)
    | (intro _; simp; done)
    | (simp; assumption)
    | (refine .inr (fun _ => ?_); simp; done)
    | (refine .inr (fun _ => ?_); (repeat' split) <;> first | rfl | (simp; done))
    | (simp; done)

def qLinkLineMask : Nat :=
  0

theorem qLinkLine_touch {msk : Nat} {s0 : State} {s : State} {r : Reply} {a : List Byte} (hk : Touch msk s0 s) (hm : Sub qLinkLineMask msk) :
    Touch msk s0 (qLinkLine s r a).s := by
  unfold qLinkLine
  try dsimp only
  repeat' (with_reducible first
    | assumption
    | exact Touch.refl
    | intro _
    | apply query_touch
    | dsimp only)
  all_goals with_reducible first
    | exact .inr rfl
    | exact Sub.trans (b := qLinkLineMask) (by decide +kernel) hm
    | exact Has.sub (a := qLinkLineMask) (by decide +kernel) hm
    | exact .inl (Has.sub (a := qLinkLineMask) (by decide +kernel) hm)
    | exact Has.at (by decide) (Has.sub (a := qLinkLineMask) (by decide +kernel) hm)
    | exact Has.cell (by decide) (Has.sub (a := qLinkLineMask) (by decide +kernel) hm)
    | exact Has.cellNext (by decide) (Has.sub (a := qLinkLineMask) (by decide +kernel) hm)
    | exact Has.ite (Has.sub (a := qLinkLineMask) (by decide +kernel) hm) (Has.sub (a := qLinkLineMask) (by decide +kernel) hm)
    | exact .inr (fun _ => rfl)
    | (intro _; rfl)
    | (intro _; simp; done)
    | (simp; assumption)
    | (refine .inr (fun _ => ?_); simp; done)
    | (refine .inr (fun _ => ?_); (repeat' split) <;> first | rfl | (simp; done))
    | (simp; done)

def rdLineMask : Nat :=
  State.modPathMask ||| State.readRegMask

theorem rdLine_touch {msk : Nat} {s0 : State} {s : State} {x1 : Reply} {a : List Byte} (hk : Touch msk s0 s) (hm : Sub rdLineMask msk) :
    Touch msk s0 (rdLine s x1 a).s := by
  unfold rdLine
  try dsimp only
  repeat' (with_reducible first
    | assumption
    | exact Touch.refl
    | intro _
    | apply State.modPath_touch
    | apply State.readReg_touch
    | apply refuse_touch
    | apply sized_touch
    | dsimp only
    | (refine Touch.ofEq (by assumption) ?_)
    | apply Touch.ite
    | apply Touch.foldl
    | apply Touch.foldlFst
    | split)
  all_goals with_reducible first
    | exact .inr rfl
    | exact Sub.trans (b := rdLineMask) (by decide +kernel) hm
    | exact Has.sub (a := rdLineMask) (by decide +kernel) hm
    | exact .inl (Has.sub (a := rdLineMask) (by decide +kernel) hm)
    | exact Has.at (by decide) (Has.sub (a := rdLineMask) (by decide +kernel) hm)
    | exact Has.cell (by decide) (Has.sub (a := rdLineMask) (by decide +kernel) hm)
    | exact Has.cellNext (by decide) (Has.sub (a := rdLineMask) (by decide +kernel) hm)
    | exact Has.ite (Has.sub (a := rdLineMask) (by decide +kernel) hm) (Has.sub (a := rdLineMask) (by decide +kernel) hm)
    | exact .inr (fun _ => rfl)
    | (intro _; rfl)
    | (intro _; simp; done)
    | (simp; assumption)
    | (refine .inr (fun _ => ?_); simp; done)
    | (refine .inr (fun _ => ?_); (repeat' split) <;> first | rfl | (simp; done))
    | (simp; done)

def State.applyWordsMask : Nat :=
  State.remoteWriteMask

theorem State.applyWords_touch {msk : Nat} {s0 : State} {s : State} {l : List (Nat × Nat × Word)} (hk : Touch msk s0 s) (hm : Sub State.applyWordsMask msk) :
    Touch msk s0 (State.applyWords s l).1 := by
  unfold State.applyWords
  try dsimp only
  repeat' (with_reducible first
    | assumption
    | exact Touch.refl
    | intro _
    | apply State.remoteWrite_touch
    | (refine Touch.ofEq (by assumption) ?_)
    | apply Touch.ite
    | apply Touch.foldl
    | apply Touch.foldlFst
    | split)
  all_goals with_reducible first
    | exact .inr rfl
    | exact Sub.trans (b := State.applyWordsMask) (by decide +kernel) hm
    | exact Has.sub (a := State.applyWordsMask) (by decide +kernel) hm
    | exact .inl (Has.sub (a := State.applyWordsMask) (by decide +kernel) hm)
    | exact Has.at (by decide) (Has.sub (a := State.applyWordsMask) (by decide +kernel) hm)
    | exact Has.cell (by decide) (Has.sub (a := State.applyWordsMask) (by decide +kernel) hm)
    | exact Has.cellNext (by decide) (Has.sub (a := State.applyWordsMask) (by decide +kernel) hm)
    | exact Has.ite (Has.sub (a := State.applyWordsMask) (by decide +kernel) hm) (Has.sub (a := State.applyWordsMask) (by decide +kernel) hm)
    | exact .inr (fun _ => rfl)
    | (intro _; rfl)
    | (intro _; simp; done)
    | (simp; assumption)
    | (refine .inr (fun _ => ?_); simp; done)
    | (refine .inr (fun _ => ?_); (repeat' split) <;> first | rfl | (simp; done))
    | (simp; done)

def writesOutMask : Nat :=
  State.postMask

theorem writesOut_touch {msk : Nat} {s0 s : State} {x : State × List (Option Nat) × Option Nat}
    (hk : Touch msk s0 x.1) (hm : Sub writesOutMask msk) : Touch msk s0 (writesOut s x).s := by
  obtain ⟨t, marks, first⟩ := x
  unfold writesOut
  dsimp only
  split
  · exact Touch.ite hk (State.post_touch hk (Sub.trans (b := writesOutMask) (by decide +kernel) hm))
  · exact hk

def wrLineMask : Nat :=
  State.applyWordsMask ||| writesOutMask

theorem wrLine_touch {msk : Nat} {s0 : State} {s : State} {x1 : Reply} {a : List Byte} (hk : Touch msk s0 s) (hm : Sub wrLineMask msk) :
    Touch msk s0 (wrLine s x1 a).s := by
  unfold wrLine
  try dsimp only
  repeat' (with_reducible first
    | assumption
    | exact Touch.refl
    | intro _
    | apply refuse_touch
    | apply State.applyWords_touch
    | apply writesOut_touch
    | dsimp only
    | apply Touch.ite
    | split)
  all_goals with_reducible first
    | exact .inr rfl
    | exact Sub.trans (b := wrLineMask) (by decide +kernel) hm
    | exact Has.sub (a := wrLineMask) (by decide +kernel) hm
    | exact .inl (Has.sub (a := wrLineMask) (by decide +kernel) hm)
    | exact Has.at (by decide) (Has.sub (a := wrLineMask) (by decide +kernel) hm)
    | exact Has.cell (by decide) (Has.sub (a := wrLineMask) (by decide +kernel) hm)
    | exact Has.cellNext (by decide) (Has.sub (a := wrLineMask) (by decide +kernel) hm)
    | exact Has.ite (Has.sub (a := wrLineMask) (by decide +kernel) hm) (Has.sub (a := wrLineMask) (by decide +kernel) hm)
    | exact .inr (fun _ => rfl)
    | (intro _; rfl)
    | (intro _; simp; done)
    | (simp; assumption)
    | (refine .inr (fun _ => ?_); simp; done)
    | (refine .inr (fun _ => ?_); (repeat' split) <;> first | rfl | (simp; done))
    | (simp; done)

def wrlLineMask : Nat :=
  State.applyWordsMask ||| writesOutMask

theorem wrlLine_touch {msk : Nat} {s0 : State} {s : State} {x1 : Reply} {a : List Byte} (hk : Touch msk s0 s) (hm : Sub wrlLineMask msk) :
    Touch msk s0 (wrlLine s x1 a).s := by
  unfold wrlLine
  try dsimp only
  repeat' (with_reducible first
    | assumption
    | exact Touch.refl
    | intro _
    | apply refuse_touch
    | apply State.applyWords_touch
    | apply writesOut_touch
    | dsimp only
    | apply Touch.ite
    | split)
  all_goals with_reducible first
    | exact .inr rfl
    | exact Sub.trans (b := wrlLineMask) (by decide +kernel) hm
    | exact Has.sub (a := wrlLineMask) (by decide +kernel) hm
    | exact .inl (Has.sub (a := wrlLineMask) (by decide +kernel) hm)
    | exact Has.at (by decide) (Has.sub (a := wrlLineMask) (by decide +kernel) hm)
    | exact Has.cell (by decide) (Has.sub (a := wrlLineMask) (by decide +kernel) hm)
    | exact Has.cellNext (by decide) (Has.sub (a := wrlLineMask) (by decide +kernel) hm)
    | exact Has.ite (Has.sub (a := wrlLineMask) (by decide +kernel) hm) (Has.sub (a := wrlLineMask) (by decide +kernel) hm)
    | exact .inr (fun _ => rfl)
    | (intro _; rfl)
    | (intro _; simp; done)
    | (simp; assumption)
    | (refine .inr (fun _ => ?_); simp; done)
    | (refine .inr (fun _ => ?_); (repeat' split) <;> first | rfl | (simp; done))
    | (simp; done)

end Sys2Proof.Machine
end

