-- ==== Sys2Proof/Laws/TouchNet.lean ====
section
/-! SUPPORT. What each operation of Machine/Net.lean may change: its mask, and the proof that it changes nothing else. -/

namespace Sys2Proof.Machine

set_option linter.unusedSimpArgs false
set_option Elab.async false

def State.joinReqMask : Nat :=
  State.learnJoinMask ||| State.deliverMask

theorem State.joinReq_touch {msk : Nat} {s0 : State} {s : State} {f : LineFrame} (hk : Touch msk s0 s) (hm : Sub State.joinReqMask msk) :
    Touch msk s0 (State.joinReq s f) := by
  unfold State.joinReq
  try dsimp only
  repeat' (with_reducible first
    | assumption
    | exact Touch.refl
    | intro _
    | apply State.learnJoin_touch
    | apply State.deliver_touch
    | apply Touch.ite
    | split)
  all_goals with_reducible first
    | exact .inr rfl
    | exact Sub.trans (b := State.joinReqMask) (by decide +kernel) hm
    | exact Has.sub (a := State.joinReqMask) (by decide +kernel) hm
    | exact .inl (Has.sub (a := State.joinReqMask) (by decide +kernel) hm)
    | exact Has.at (by decide) (Has.sub (a := State.joinReqMask) (by decide +kernel) hm)
    | exact Has.cell (by decide) (Has.sub (a := State.joinReqMask) (by decide +kernel) hm)
    | exact Has.cellNext (by decide) (Has.sub (a := State.joinReqMask) (by decide +kernel) hm)
    | exact Has.ite (Has.sub (a := State.joinReqMask) (by decide +kernel) hm) (Has.sub (a := State.joinReqMask) (by decide +kernel) hm)
    | exact .inr (fun _ => rfl)
    | (intro _; rfl)
    | (intro _; simp; done)
    | (simp; assumption)
    | (refine .inr (fun _ => ?_); simp; done)
    | (refine .inr (fun _ => ?_); (repeat' split) <;> first | rfl | (simp; done))
    | (simp; done)

def joinRespLineMask : Nat :=
  State.setShortMask ||| State.modMacMask ||| State.joinStateMask ||| rbit R.MAC_SEG

theorem joinRespLine_touch {msk : Nat} {s0 : State} {s : State} {x1 : Reply} {a : List Byte} (hk : Touch msk s0 s) (hm : Sub joinRespLineMask msk) :
    Touch msk s0 (joinRespLine s x1 a).s := by
  unfold joinRespLine
  try dsimp only
  repeat' (with_reducible first
    | assumption
    | exact Touch.refl
    | intro _
    | apply Touch.setReg
    | apply State.setShort_touch
    | apply State.modMac_touch
    | apply State.joinState_touch
    | apply sized_touch
    | dsimp only
    | apply Touch.ite
    | apply Touch.setReg
    | split)
  all_goals with_reducible first
    | exact .inr rfl
    | exact Sub.trans (b := joinRespLineMask) (by decide +kernel) hm
    | exact Has.sub (a := joinRespLineMask) (by decide +kernel) hm
    | exact .inl (Has.sub (a := joinRespLineMask) (by decide +kernel) hm)
    | exact Has.at (by decide) (Has.sub (a := joinRespLineMask) (by decide +kernel) hm)
    | exact Has.cell (by decide) (Has.sub (a := joinRespLineMask) (by decide +kernel) hm)
    | exact Has.cellNext (by decide) (Has.sub (a := joinRespLineMask) (by decide +kernel) hm)
    | exact Has.ite (Has.sub (a := joinRespLineMask) (by decide +kernel) hm) (Has.sub (a := joinRespLineMask) (by decide +kernel) hm)
    | exact .inr (fun _ => rfl)
    | (intro _; rfl)
    | (intro _; simp; done)
    | (simp; assumption)
    | (refine .inr (fun _ => ?_); simp; done)
    | (refine .inr (fun _ => ?_); (repeat' split) <;> first | rfl | (simp; done))
    | (simp; done)

def addrSetLineMask : Nat :=
  0

theorem addrSetLine_touch {msk : Nat} {s0 : State} {s : State} {x1 : Reply} {a : List Byte} (hk : Touch msk s0 s) (hm : Sub addrSetLineMask msk) :
    Touch msk s0 (addrSetLine s x1 a).s := by
  unfold addrSetLine
  try dsimp only
  repeat' (with_reducible first
    | assumption
    | exact Touch.refl
    | intro _
    | apply refuse_touch
    | apply sized_touch
    | dsimp only
    | apply Touch.ite
    | split)
  all_goals with_reducible first
    | exact .inr rfl
    | exact Sub.trans (b := addrSetLineMask) (by decide +kernel) hm
    | exact Has.sub (a := addrSetLineMask) (by decide +kernel) hm
    | exact .inl (Has.sub (a := addrSetLineMask) (by decide +kernel) hm)
    | exact Has.at (by decide) (Has.sub (a := addrSetLineMask) (by decide +kernel) hm)
    | exact Has.cell (by decide) (Has.sub (a := addrSetLineMask) (by decide +kernel) hm)
    | exact Has.cellNext (by decide) (Has.sub (a := addrSetLineMask) (by decide +kernel) hm)
    | exact Has.ite (Has.sub (a := addrSetLineMask) (by decide +kernel) hm) (Has.sub (a := addrSetLineMask) (by decide +kernel) hm)
    | exact .inr (fun _ => rfl)
    | (intro _; rfl)
    | (intro _; simp; done)
    | (simp; assumption)
    | (refine .inr (fun _ => ?_); simp; done)
    | (refine .inr (fun _ => ?_); (repeat' split) <;> first | rfl | (simp; done))
    | (simp; done)

def leaveLineMask : Nat :=
  0

theorem leaveLine_touch {msk : Nat} {s0 : State} {s : State} {x1 : Reply} {a : List Byte} (hk : Touch msk s0 s) (hm : Sub leaveLineMask msk) :
    Touch msk s0 (leaveLine s x1 a).s := by
  unfold leaveLine
  try dsimp only
  repeat' (with_reducible first
    | assumption
    | exact Touch.refl
    | intro _
    | apply sized_touch
    | dsimp only)
  all_goals with_reducible first
    | exact .inr rfl
    | exact Sub.trans (b := leaveLineMask) (by decide +kernel) hm
    | exact Has.sub (a := leaveLineMask) (by decide +kernel) hm
    | exact .inl (Has.sub (a := leaveLineMask) (by decide +kernel) hm)
    | exact Has.at (by decide) (Has.sub (a := leaveLineMask) (by decide +kernel) hm)
    | exact Has.cell (by decide) (Has.sub (a := leaveLineMask) (by decide +kernel) hm)
    | exact Has.cellNext (by decide) (Has.sub (a := leaveLineMask) (by decide +kernel) hm)
    | exact Has.ite (Has.sub (a := leaveLineMask) (by decide +kernel) hm) (Has.sub (a := leaveLineMask) (by decide +kernel) hm)
    | exact .inr (fun _ => rfl)
    | (intro _; rfl)
    | (intro _; simp; done)
    | (simp; assumption)
    | (refine .inr (fun _ => ?_); simp; done)
    | (refine .inr (fun _ => ?_); (repeat' split) <;> first | rfl | (simp; done))
    | (simp; done)

def roleSetLineMask : Nat :=
  State.roleWriteMask

theorem roleSetLine_touch {msk : Nat} {s0 : State} {s : State} {x1 : Reply} {a : List Byte} (hk : Touch msk s0 s) (hm : Sub roleSetLineMask msk) :
    Touch msk s0 (roleSetLine s x1 a).s := by
  unfold roleSetLine
  try dsimp only
  repeat' (with_reducible first
    | assumption
    | exact Touch.refl
    | intro _
    | apply State.roleWrite_touch
    | apply refuse_touch
    | apply sized_touch
    | dsimp only
    | apply Touch.ite
    | split)
  all_goals with_reducible first
    | exact .inr rfl
    | exact Sub.trans (b := roleSetLineMask) (by decide +kernel) hm
    | exact Has.sub (a := roleSetLineMask) (by decide +kernel) hm
    | exact .inl (Has.sub (a := roleSetLineMask) (by decide +kernel) hm)
    | exact Has.at (by decide) (Has.sub (a := roleSetLineMask) (by decide +kernel) hm)
    | exact Has.cell (by decide) (Has.sub (a := roleSetLineMask) (by decide +kernel) hm)
    | exact Has.cellNext (by decide) (Has.sub (a := roleSetLineMask) (by decide +kernel) hm)
    | exact Has.ite (Has.sub (a := roleSetLineMask) (by decide +kernel) hm) (Has.sub (a := roleSetLineMask) (by decide +kernel) hm)
    | exact .inr (fun _ => rfl)
    | (intro _; rfl)
    | (intro _; simp; done)
    | (simp; assumption)
    | (refine .inr (fun _ => ?_); simp; done)
    | (refine .inr (fun _ => ?_); (repeat' split) <;> first | rfl | (simp; done))
    | (simp; done)

def offsetSetLineMask : Nat :=
  State.offsetTakeMask

theorem offsetSetLine_touch {msk : Nat} {s0 : State} {s : State} {x1 : Reply} {a : List Byte} (hk : Touch msk s0 s) (hm : Sub offsetSetLineMask msk) :
    Touch msk s0 (offsetSetLine s x1 a).s := by
  unfold offsetSetLine
  try dsimp only
  repeat' (with_reducible first
    | assumption
    | exact Touch.refl
    | intro _
    | apply State.offsetTake_touch
    | apply sized_touch
    | dsimp only
    | apply Touch.ite
    | split)
  all_goals with_reducible first
    | exact .inr rfl
    | exact Sub.trans (b := offsetSetLineMask) (by decide +kernel) hm
    | exact Has.sub (a := offsetSetLineMask) (by decide +kernel) hm
    | exact .inl (Has.sub (a := offsetSetLineMask) (by decide +kernel) hm)
    | exact Has.at (by decide) (Has.sub (a := offsetSetLineMask) (by decide +kernel) hm)
    | exact Has.cell (by decide) (Has.sub (a := offsetSetLineMask) (by decide +kernel) hm)
    | exact Has.cellNext (by decide) (Has.sub (a := offsetSetLineMask) (by decide +kernel) hm)
    | exact Has.ite (Has.sub (a := offsetSetLineMask) (by decide +kernel) hm) (Has.sub (a := offsetSetLineMask) (by decide +kernel) hm)
    | exact .inr (fun _ => rfl)
    | (intro _; rfl)
    | (intro _; simp; done)
    | (simp; assumption)
    | (refine .inr (fun _ => ?_); simp; done)
    | (refine .inr (fun _ => ?_); (repeat' split) <;> first | rfl | (simp; done))
    | (simp; done)

def State.setGrantsMask : Nat :=
  State.modMacMask

theorem State.setGrants_touch {msk : Nat} {s0 : State} {s : State} {l : List (Nat × Nat × Nat × Nat)} {inherited : Nat} (hk : Touch msk s0 s) (hm : Sub State.setGrantsMask msk) :
    Touch msk s0 (State.setGrants s l inherited) := by
  unfold State.setGrants
  try dsimp only
  repeat' (with_reducible first
    | assumption
    | exact Touch.refl
    | intro _
    | apply State.modMac_touch)
  all_goals with_reducible first
    | exact .inr rfl
    | exact Sub.trans (b := State.setGrantsMask) (by decide +kernel) hm
    | exact Has.sub (a := State.setGrantsMask) (by decide +kernel) hm
    | exact .inl (Has.sub (a := State.setGrantsMask) (by decide +kernel) hm)
    | exact Has.at (by decide) (Has.sub (a := State.setGrantsMask) (by decide +kernel) hm)
    | exact Has.cell (by decide) (Has.sub (a := State.setGrantsMask) (by decide +kernel) hm)
    | exact Has.cellNext (by decide) (Has.sub (a := State.setGrantsMask) (by decide +kernel) hm)
    | exact Has.ite (Has.sub (a := State.setGrantsMask) (by decide +kernel) hm) (Has.sub (a := State.setGrantsMask) (by decide +kernel) hm)
    | exact .inr (fun _ => rfl)
    | (intro _; rfl)
    | (intro _; simp; done)
    | (simp; assumption)
    | (refine .inr (fun _ => ?_); simp; done)
    | (refine .inr (fun _ => ?_); (repeat' split) <;> first | rfl | (simp; done))
    | (simp; done)

def State.rsvPutMask : Nat :=
  State.modMacMask ||| rbit R.MAC_RSV

theorem State.rsvPut_touch {msk : Nat} {s0 : State} {s : State} {i : Nat} {start : Nat} {len : Nat} (hk : Touch msk s0 s) (hm : Sub State.rsvPutMask msk) :
    Touch msk s0 (State.rsvPut s i start len) := by
  unfold State.rsvPut
  try dsimp only
  repeat' (with_reducible first
    | assumption
    | exact Touch.refl
    | intro _
    | apply State.modMac_touch
    | apply State.setFld_touch
    | apply State.setFlag_touch)
  all_goals with_reducible first
    | exact .inr rfl
    | exact Sub.trans (b := State.rsvPutMask) (by decide +kernel) hm
    | exact Has.sub (a := State.rsvPutMask) (by decide +kernel) hm
    | exact .inl (Has.sub (a := State.rsvPutMask) (by decide +kernel) hm)
    | exact Has.at (by decide) (Has.sub (a := State.rsvPutMask) (by decide +kernel) hm)
    | exact Has.cell (by decide) (Has.sub (a := State.rsvPutMask) (by decide +kernel) hm)
    | exact Has.cellNext (by decide) (Has.sub (a := State.rsvPutMask) (by decide +kernel) hm)
    | exact Has.ite (Has.sub (a := State.rsvPutMask) (by decide +kernel) hm) (Has.sub (a := State.rsvPutMask) (by decide +kernel) hm)
    | exact .inr (fun _ => rfl)
    | (intro _; rfl)
    | (intro _; simp; done)
    | (simp; assumption)
    | (refine .inr (fun _ => ?_); simp; done)
    | (refine .inr (fun _ => ?_); (repeat' split) <;> first | rfl | (simp; done))
    | (simp; done)

def State.rsvSendMask : Nat :=
  State.originateMask ||| State.toQ2Mask ||| State.rsvPutMask

theorem State.rsvSend_touch {msk : Nat} {s0 : State} {s : State} {target : Nat} {i : Nat} {start : Nat} {len : Nat} (hk : Touch msk s0 s) (hm : Sub State.rsvSendMask msk) :
    Touch msk s0 (State.rsvSend s target i start len) := by
  unfold State.rsvSend
  try dsimp only
  repeat' (with_reducible first
    | assumption
    | exact Touch.refl
    | intro _
    | apply State.originate_touch
    | apply State.toQ2_touch
    | apply State.rsvPut_touch
    | apply Touch.ite
    | split)
  all_goals with_reducible first
    | exact .inr rfl
    | exact Sub.trans (b := State.rsvSendMask) (by decide +kernel) hm
    | exact Has.sub (a := State.rsvSendMask) (by decide +kernel) hm
    | exact .inl (Has.sub (a := State.rsvSendMask) (by decide +kernel) hm)
    | exact Has.at (by decide) (Has.sub (a := State.rsvSendMask) (by decide +kernel) hm)
    | exact Has.cell (by decide) (Has.sub (a := State.rsvSendMask) (by decide +kernel) hm)
    | exact Has.cellNext (by decide) (Has.sub (a := State.rsvSendMask) (by decide +kernel) hm)
    | exact Has.ite (Has.sub (a := State.rsvSendMask) (by decide +kernel) hm) (Has.sub (a := State.rsvSendMask) (by decide +kernel) hm)
    | exact .inr (fun _ => rfl)
    | (intro _; rfl)
    | (intro _; simp; done)
    | (simp; assumption)
    | (refine .inr (fun _ => ?_); simp; done)
    | (refine .inr (fun _ => ?_); (repeat' split) <;> first | rfl | (simp; done))
    | (simp; done)

def grantRefusedMask : Nat :=
  State.postMask

theorem grantRefused_touch {msk : Nat} {s0 : State} {s : State} {target : Nat} {code : Nat} (hk : Touch msk s0 s) (hm : Sub grantRefusedMask msk) :
    Touch msk s0 (grantRefused s target code).s := by
  unfold grantRefused
  try dsimp only
  repeat' (with_reducible first
    | assumption
    | exact Touch.refl
    | intro _
    | apply State.post_touch
    | dsimp only)
  all_goals with_reducible first
    | exact .inr rfl
    | exact Sub.trans (b := grantRefusedMask) (by decide +kernel) hm
    | exact Has.sub (a := grantRefusedMask) (by decide +kernel) hm
    | exact .inl (Has.sub (a := grantRefusedMask) (by decide +kernel) hm)
    | exact Has.at (by decide) (Has.sub (a := grantRefusedMask) (by decide +kernel) hm)
    | exact Has.cell (by decide) (Has.sub (a := grantRefusedMask) (by decide +kernel) hm)
    | exact Has.cellNext (by decide) (Has.sub (a := grantRefusedMask) (by decide +kernel) hm)
    | exact Has.ite (Has.sub (a := grantRefusedMask) (by decide +kernel) hm) (Has.sub (a := grantRefusedMask) (by decide +kernel) hm)
    | exact .inr (fun _ => rfl)
    | (intro _; rfl)
    | (intro _; simp; done)
    | (simp; assumption)
    | (refine .inr (fun _ => ?_); simp; done)
    | (refine .inr (fun _ => ?_); (repeat' split) <;> first | rfl | (simp; done))
    | (simp; done)

def rsvGrantLineMask : Nat :=
  State.setGrantsMask ||| State.rsvSendMask ||| grantRefusedMask

theorem rsvGrantLine_touch {msk : Nat} {s0 : State} {s : State} {x1 : Reply} {a : List Byte} (hk : Touch msk s0 s) (hm : Sub rsvGrantLineMask msk) :
    Touch msk s0 (rsvGrantLine s x1 a).s := by
  unfold rsvGrantLine
  try dsimp only
  repeat' (with_reducible first
    | assumption
    | exact Touch.refl
    | intro _
    | apply refuse_touch
    | apply sized_touch
    | apply State.setGrants_touch
    | apply State.rsvSend_touch
    | apply grantRefused_touch
    | dsimp only
    | (refine Touch.ofEq (by assumption) ?_)
    | apply Touch.ite
    | split)
  all_goals with_reducible first
    | exact .inr rfl
    | exact Sub.trans (b := rsvGrantLineMask) (by decide +kernel) hm
    | exact Has.sub (a := rsvGrantLineMask) (by decide +kernel) hm
    | exact .inl (Has.sub (a := rsvGrantLineMask) (by decide +kernel) hm)
    | exact Has.at (by decide) (Has.sub (a := rsvGrantLineMask) (by decide +kernel) hm)
    | exact Has.cell (by decide) (Has.sub (a := rsvGrantLineMask) (by decide +kernel) hm)
    | exact Has.cellNext (by decide) (Has.sub (a := rsvGrantLineMask) (by decide +kernel) hm)
    | exact Has.ite (Has.sub (a := rsvGrantLineMask) (by decide +kernel) hm) (Has.sub (a := rsvGrantLineMask) (by decide +kernel) hm)
    | exact .inr (fun _ => rfl)
    | (intro _; rfl)
    | (intro _; simp; done)
    | (simp; assumption)
    | (refine .inr (fun _ => ?_); simp; done)
    | (refine .inr (fun _ => ?_); (repeat' split) <;> first | rfl | (simp; done))
    | (simp; done)

def rsvSetLineMask : Nat :=
  State.rsvPutMask

theorem rsvSetLine_touch {msk : Nat} {s0 : State} {s : State} {x1 : Reply} {a : List Byte} (hk : Touch msk s0 s) (hm : Sub rsvSetLineMask msk) :
    Touch msk s0 (rsvSetLine s x1 a).s := by
  unfold rsvSetLine
  try dsimp only
  repeat' (with_reducible first
    | assumption
    | exact Touch.refl
    | intro _
    | apply refuse_touch
    | apply sized_touch
    | apply State.rsvPut_touch
    | dsimp only
    | apply Touch.ite
    | split)
  all_goals with_reducible first
    | exact .inr rfl
    | exact Sub.trans (b := rsvSetLineMask) (by decide +kernel) hm
    | exact Has.sub (a := rsvSetLineMask) (by decide +kernel) hm
    | exact .inl (Has.sub (a := rsvSetLineMask) (by decide +kernel) hm)
    | exact Has.at (by decide) (Has.sub (a := rsvSetLineMask) (by decide +kernel) hm)
    | exact Has.cell (by decide) (Has.sub (a := rsvSetLineMask) (by decide +kernel) hm)
    | exact Has.cellNext (by decide) (Has.sub (a := rsvSetLineMask) (by decide +kernel) hm)
    | exact Has.ite (Has.sub (a := rsvSetLineMask) (by decide +kernel) hm) (Has.sub (a := rsvSetLineMask) (by decide +kernel) hm)
    | exact .inr (fun _ => rfl)
    | (intro _; rfl)
    | (intro _; simp; done)
    | (simp; assumption)
    | (refine .inr (fun _ => ?_); simp; done)
    | (refine .inr (fun _ => ?_); (repeat' split) <;> first | rfl | (simp; done))
    | (simp; done)

def tmReqLineMask : Nat :=
  State.buildMapMask ||| State.originateMask ||| State.toQ2Mask ||| Part.phy.bit

theorem tmReqLine_touch {msk : Nat} {s0 : State} {f : LineFrame} {s : State} {r : Reply} {a : List Byte} (hk : Touch msk s0 s) (hm : Sub tmReqLineMask msk) :
    Touch msk s0 (tmReqLine f s r a).s := by
  unfold tmReqLine
  try dsimp only
  repeat' (with_reducible first
    | assumption
    | exact Touch.refl
    | intro _
    | apply State.buildMap_touch
    | apply State.originate_touch
    | apply State.toQ2_touch
    | apply refuse_touch
    | apply sized_touch
    | dsimp only
    | (refine Touch.ofEq (by assumption) ?_)
    | apply Touch.ite
    | (simp only [Touch.mk_iff]; apply TouchMk.intro)
    | split)
  all_goals with_reducible first
    | exact .inr rfl
    | exact Sub.trans (b := tmReqLineMask) (by decide +kernel) hm
    | exact Has.sub (a := tmReqLineMask) (by decide +kernel) hm
    | exact .inl (Has.sub (a := tmReqLineMask) (by decide +kernel) hm)
    | exact Has.at (by decide) (Has.sub (a := tmReqLineMask) (by decide +kernel) hm)
    | exact Has.cell (by decide) (Has.sub (a := tmReqLineMask) (by decide +kernel) hm)
    | exact Has.cellNext (by decide) (Has.sub (a := tmReqLineMask) (by decide +kernel) hm)
    | exact Has.ite (Has.sub (a := tmReqLineMask) (by decide +kernel) hm) (Has.sub (a := tmReqLineMask) (by decide +kernel) hm)
    | exact .inr (fun _ => rfl)
    | (intro _; rfl)
    | (intro _; simp; done)
    | (simp; assumption)
    | (refine .inr (fun _ => ?_); simp; done)
    | (refine .inr (fun _ => ?_); (repeat' split) <;> first | rfl | (simp; done))
    | (simp; done)

def tmRespLineMask : Nat :=
  State.txMapStoreMask ||| State.modMacMask

theorem tmRespLine_touch {msk : Nat} {s0 : State} {f : LineFrame} {s : State} {x2 : Reply} {a : List Byte} (hk : Touch msk s0 s) (hm : Sub tmRespLineMask msk) :
    Touch msk s0 (tmRespLine f s x2 a).s := by
  unfold tmRespLine
  try dsimp only
  repeat' (with_reducible first
    | assumption
    | exact Touch.refl
    | intro _
    | apply State.txMapStore_touch
    | apply State.modMac_touch
    | apply refuse_touch
    | dsimp only
    | apply Touch.ite
    | split)
  all_goals with_reducible first
    | exact .inr rfl
    | exact Sub.trans (b := tmRespLineMask) (by decide +kernel) hm
    | exact Has.sub (a := tmRespLineMask) (by decide +kernel) hm
    | exact .inl (Has.sub (a := tmRespLineMask) (by decide +kernel) hm)
    | exact Has.at (by decide) (Has.sub (a := tmRespLineMask) (by decide +kernel) hm)
    | exact Has.cell (by decide) (Has.sub (a := tmRespLineMask) (by decide +kernel) hm)
    | exact Has.cellNext (by decide) (Has.sub (a := tmRespLineMask) (by decide +kernel) hm)
    | exact Has.ite (Has.sub (a := tmRespLineMask) (by decide +kernel) hm) (Has.sub (a := tmRespLineMask) (by decide +kernel) hm)
    | exact .inr (fun _ => rfl)
    | (intro _; rfl)
    | (intro _; simp; done)
    | (simp; assumption)
    | (refine .inr (fun _ => ?_); simp; done)
    | (refine .inr (fun _ => ?_); (repeat' split) <;> first | rfl | (simp; done))
    | (simp; done)

def tmAskLineMask : Nat :=
  State.tmRequestMask

theorem tmAskLine_touch {msk : Nat} {s0 : State} {s : State} {x1 : Reply} {a : List Byte} (hk : Touch msk s0 s) (hm : Sub tmAskLineMask msk) :
    Touch msk s0 (tmAskLine s x1 a).s := by
  unfold tmAskLine
  try dsimp only
  repeat' (with_reducible first
    | assumption
    | exact Touch.refl
    | intro _
    | apply State.tmRequest_touch
    | apply refuse_touch
    | apply sized_touch
    | dsimp only
    | apply Touch.ite
    | split)
  all_goals with_reducible first
    | exact .inr rfl
    | exact Sub.trans (b := tmAskLineMask) (by decide +kernel) hm
    | exact Has.sub (a := tmAskLineMask) (by decide +kernel) hm
    | exact .inl (Has.sub (a := tmAskLineMask) (by decide +kernel) hm)
    | exact Has.at (by decide) (Has.sub (a := tmAskLineMask) (by decide +kernel) hm)
    | exact Has.cell (by decide) (Has.sub (a := tmAskLineMask) (by decide +kernel) hm)
    | exact Has.cellNext (by decide) (Has.sub (a := tmAskLineMask) (by decide +kernel) hm)
    | exact Has.ite (Has.sub (a := tmAskLineMask) (by decide +kernel) hm) (Has.sub (a := tmAskLineMask) (by decide +kernel) hm)
    | exact .inr (fun _ => rfl)
    | (intro _; rfl)
    | (intro _; simp; done)
    | (simp; assumption)
    | (refine .inr (fun _ => ?_); simp; done)
    | (refine .inr (fun _ => ?_); (repeat' split) <;> first | rfl | (simp; done))
    | (simp; done)

def mbStatLineMask : Nat :=
  0

theorem mbStatLine_touch {msk : Nat} {s0 : State} {s : State} {r : Reply} {a : List Byte} (hk : Touch msk s0 s) (hm : Sub mbStatLineMask msk) :
    Touch msk s0 (mbStatLine s r a).s := by
  unfold mbStatLine
  try dsimp only
  repeat' (with_reducible first
    | assumption
    | exact Touch.refl
    | intro _
    | apply query_touch
    | dsimp only)
  all_goals with_reducible first
    | exact .inr rfl
    | exact Sub.trans (b := mbStatLineMask) (by decide +kernel) hm
    | exact Has.sub (a := mbStatLineMask) (by decide +kernel) hm
    | exact .inl (Has.sub (a := mbStatLineMask) (by decide +kernel) hm)
    | exact Has.at (by decide) (Has.sub (a := mbStatLineMask) (by decide +kernel) hm)
    | exact Has.cell (by decide) (Has.sub (a := mbStatLineMask) (by decide +kernel) hm)
    | exact Has.cellNext (by decide) (Has.sub (a := mbStatLineMask) (by decide +kernel) hm)
    | exact Has.ite (Has.sub (a := mbStatLineMask) (by decide +kernel) hm) (Has.sub (a := mbStatLineMask) (by decide +kernel) hm)
    | exact .inr (fun _ => rfl)
    | (intro _; rfl)
    | (intro _; simp; done)
    | (simp; assumption)
    | (refine .inr (fun _ => ?_); simp; done)
    | (refine .inr (fun _ => ?_); (repeat' split) <;> first | rfl | (simp; done))
    | (simp; done)

end Sys2Proof.Machine
end

