-- ==== Sys2Proof/Laws/TouchBundle.lean ====
section
/-! SUPPORT. What each operation of Machine/Bundle.lean may change: its mask, and the proof that it changes nothing else. -/

namespace Sys2Proof.Machine

set_option linter.unusedSimpArgs false
set_option Elab.async false

def bBeginLineMask : Nat :=
  State.postMask ||| State.modCmdMask ||| State.bxferPutMask ||| rbit R.CMD_STAT ||| rbit R.CMD_BHDL ||| rbit
    R.CMD_BLEN_LO ||| rbit R.CMD_BLEN_HI ||| rbit R.CMD_BRCV ||| rbit R.CMD_BNBLK ||| Part.flash.bit |||
    Part.vlt.bit

theorem bBeginLine_touch {msk : Nat} {s0 : State} {s : State} {x1 : Reply} {a : List Byte} (hk : Touch msk s0 s) (hm : Sub bBeginLineMask msk) :
    Touch msk s0 (bBeginLine s x1 a).s := by
  unfold bBeginLine
  try dsimp only
  repeat' (with_reducible first
    | assumption
    | exact Touch.refl
    | intro _
    | apply State.post_touch
    | apply Touch.modVlt
    | apply State.modCmd_touch
    | apply State.bxferPut_touch
    | apply refuse_touch
    | apply sized_touch
    | dsimp only
    | apply State.setFld_touch
    | apply State.setPair_touch
    | apply Touch.ite
    | split)
  all_goals with_reducible first
    | exact .inr rfl
    | exact Sub.trans (b := bBeginLineMask) (by decide +kernel) hm
    | exact Has.sub (a := bBeginLineMask) (by decide +kernel) hm
    | exact .inl (Has.sub (a := bBeginLineMask) (by decide +kernel) hm)
    | exact Has.at (by decide) (Has.sub (a := bBeginLineMask) (by decide +kernel) hm)
    | exact Has.cell (by decide) (Has.sub (a := bBeginLineMask) (by decide +kernel) hm)
    | exact Has.cellNext (by decide) (Has.sub (a := bBeginLineMask) (by decide +kernel) hm)
    | exact Has.ite (Has.sub (a := bBeginLineMask) (by decide +kernel) hm) (Has.sub (a := bBeginLineMask) (by decide +kernel) hm)
    | exact .inr (fun _ => rfl)
    | (intro _; rfl)
    | (intro _; simp; done)
    | (simp; assumption)
    | (refine .inr (fun _ => ?_); simp; done)
    | (refine .inr (fun _ => ?_); (repeat' split) <;> first | rfl | (simp; done))
    | (simp; done)

def bBlockLineMask : Nat :=
  State.modCmdMask ||| State.bxferPutMask ||| rbit R.CMD_STAT ||| rbit R.CMD_BRCV ||| Part.flash.bit |||
    Part.last.bit ||| Part.vlt.bit

theorem bBlockLine_touch {msk : Nat} {s0 : State} {s : State} {x1 : Reply} {a : List Byte} (hk : Touch msk s0 s) (hm : Sub bBlockLineMask msk) :
    Touch msk s0 (bBlockLine s x1 a).s := by
  unfold bBlockLine
  try dsimp only
  repeat' (with_reducible first
    | assumption
    | exact Touch.refl
    | intro _
    | apply Touch.modVlt
    | apply State.modCmd_touch
    | apply State.bxferPut_touch
    | dsimp only
    | apply State.setFld_touch
    | apply Touch.ite
    | split)
  all_goals with_reducible first
    | exact .inr rfl
    | exact Sub.trans (b := bBlockLineMask) (by decide +kernel) hm
    | exact Has.sub (a := bBlockLineMask) (by decide +kernel) hm
    | exact .inl (Has.sub (a := bBlockLineMask) (by decide +kernel) hm)
    | exact Has.at (by decide) (Has.sub (a := bBlockLineMask) (by decide +kernel) hm)
    | exact Has.cell (by decide) (Has.sub (a := bBlockLineMask) (by decide +kernel) hm)
    | exact Has.cellNext (by decide) (Has.sub (a := bBlockLineMask) (by decide +kernel) hm)
    | exact Has.ite (Has.sub (a := bBlockLineMask) (by decide +kernel) hm) (Has.sub (a := bBlockLineMask) (by decide +kernel) hm)
    | exact .inr (fun _ => rfl)
    | (intro _; rfl)
    | (intro _; simp; done)
    | (simp; assumption)
    | (refine .inr (fun _ => ?_); simp; done)
    | (refine .inr (fun _ => ?_); (repeat' split) <;> first | rfl | (simp; done))
    | (simp; done)

def bRepairLineMask : Nat :=
  0

theorem bRepairLine_touch {msk : Nat} {s0 : State} {s : State} {x1 : Reply} {a : List Byte} (hk : Touch msk s0 s) (hm : Sub bRepairLineMask msk) :
    Touch msk s0 (bRepairLine s x1 a).s := by
  unfold bRepairLine
  try dsimp only
  repeat' (with_reducible first
    | assumption
    | exact Touch.refl
    | intro _
    | apply refuse_touch
    | apply sized_touch
    | dsimp only
    | apply Touch.ite
    | split)
  all_goals with_reducible first
    | exact .inr rfl
    | exact Sub.trans (b := bRepairLineMask) (by decide +kernel) hm
    | exact Has.sub (a := bRepairLineMask) (by decide +kernel) hm
    | exact .inl (Has.sub (a := bRepairLineMask) (by decide +kernel) hm)
    | exact Has.at (by decide) (Has.sub (a := bRepairLineMask) (by decide +kernel) hm)
    | exact Has.cell (by decide) (Has.sub (a := bRepairLineMask) (by decide +kernel) hm)
    | exact Has.cellNext (by decide) (Has.sub (a := bRepairLineMask) (by decide +kernel) hm)
    | exact Has.ite (Has.sub (a := bRepairLineMask) (by decide +kernel) hm) (Has.sub (a := bRepairLineMask) (by decide +kernel) hm)
    | exact .inr (fun _ => rfl)
    | (intro _; rfl)
    | (intro _; simp; done)
    | (simp; assumption)
    | (refine .inr (fun _ => ?_); simp; done)
    | (refine .inr (fun _ => ?_); (repeat' split) <;> first | rfl | (simp; done))
    | (simp; done)

def bAbortLineMask : Nat :=
  State.bxferIdleMask

theorem bAbortLine_touch {msk : Nat} {s0 : State} {s : State} {x1 : Reply} {a : List Byte} (hk : Touch msk s0 s) (hm : Sub bAbortLineMask msk) :
    Touch msk s0 (bAbortLine s x1 a).s := by
  unfold bAbortLine
  try dsimp only
  repeat' (with_reducible first
    | assumption
    | exact Touch.refl
    | intro _
    | apply State.bxferIdle_touch
    | apply sized_touch
    | dsimp only
    | apply Touch.ite
    | split)
  all_goals with_reducible first
    | exact .inr rfl
    | exact Sub.trans (b := bAbortLineMask) (by decide +kernel) hm
    | exact Has.sub (a := bAbortLineMask) (by decide +kernel) hm
    | exact .inl (Has.sub (a := bAbortLineMask) (by decide +kernel) hm)
    | exact Has.at (by decide) (Has.sub (a := bAbortLineMask) (by decide +kernel) hm)
    | exact Has.cell (by decide) (Has.sub (a := bAbortLineMask) (by decide +kernel) hm)
    | exact Has.cellNext (by decide) (Has.sub (a := bAbortLineMask) (by decide +kernel) hm)
    | exact Has.ite (Has.sub (a := bAbortLineMask) (by decide +kernel) hm) (Has.sub (a := bAbortLineMask) (by decide +kernel) hm)
    | exact .inr (fun _ => rfl)
    | (intro _; rfl)
    | (intro _; simp; done)
    | (simp; assumption)
    | (refine .inr (fun _ => ?_); simp; done)
    | (refine .inr (fun _ => ?_); (repeat' split) <;> first | rfl | (simp; done))
    | (simp; done)

def State.kidKeyMask : Nat :=
  State.slotKeyMask

theorem State.kidKey_touch {msk : Nat} {s0 : State} {s : State} {kid : Nat} {cls : Nat} (hk : Touch msk s0 s) (hm : Sub State.kidKeyMask msk) :
    Touch msk s0 (State.kidKey s kid cls).1 := by
  unfold State.kidKey
  try dsimp only
  repeat' (with_reducible first
    | assumption
    | exact Touch.refl
    | intro _
    | apply State.slotKey_touch
    | (refine Touch.ofEq (by assumption) ?_)
    | apply Touch.ite
    | split)
  all_goals with_reducible first
    | exact .inr rfl
    | exact Sub.trans (b := State.kidKeyMask) (by decide +kernel) hm
    | exact Has.sub (a := State.kidKeyMask) (by decide +kernel) hm
    | exact .inl (Has.sub (a := State.kidKeyMask) (by decide +kernel) hm)
    | exact Has.at (by decide) (Has.sub (a := State.kidKeyMask) (by decide +kernel) hm)
    | exact Has.cell (by decide) (Has.sub (a := State.kidKeyMask) (by decide +kernel) hm)
    | exact Has.cellNext (by decide) (Has.sub (a := State.kidKeyMask) (by decide +kernel) hm)
    | exact Has.ite (Has.sub (a := State.kidKeyMask) (by decide +kernel) hm) (Has.sub (a := State.kidKeyMask) (by decide +kernel) hm)
    | exact .inr (fun _ => rfl)
    | (intro _; rfl)
    | (intro _; simp; done)
    | (simp; assumption)
    | (refine .inr (fun _ => ?_); simp; done)
    | (refine .inr (fun _ => ?_); (repeat' split) <;> first | rfl | (simp; done))
    | (simp; done)

def State.keysParseMask : Nat :=
  State.kidKeyMask

theorem State.keysParse_touch {msk : Nat} {s0 : State} {n : Nat} {s t : State} {b : List Byte} {kids : List (Option Nat)}
    {x : List (Option Nat) × List (Nat × List Byte)} (e : State.keysParse n s b kids = some (t, x)) (hk : Touch msk s0 s)
    (hm : Sub State.keysParseMask msk) : Touch msk s0 t := by
  induction n generalizing s b kids t x with
  | zero => simp [State.keysParse] at e
  | succ n ih =>
    unfold State.keysParse at e
    split at e
    · simp at e
    · simp at e
    · rename_i m _ _ hnm
      obtain rfl : n = m := by omega
      split at e
      · obtain ⟨rfl, -⟩ := by simpa using e
        exact hk
      · split at e
        · split at e
          · simp at e
          · split at e
            · simp at e
            · rename_i u bk hu
              have hu' := Touch.ofEq hu (State.kidKey_touch hk (Sub.trans (b := State.keysParseMask) (by decide +kernel) hm))
              split at e
              · simp only [Option.map_eq_some_iff] at e
                obtain ⟨⟨y1, y2⟩, hy, he⟩ := e
                obtain ⟨rfl, -⟩ := by simpa using he
                exact ih hy hu'
              · dsimp only at e
                split at e
                · simp at e
                · split at e
                  · simp at e
                  · simp only [Option.map_eq_some_iff] at e
                    obtain ⟨⟨y1, y2⟩, hy, he⟩ := e
                    obtain ⟨rfl, -⟩ := by simpa using he
                    exact ih hy hu'
        · simp at e

def State.bundleCheckMask : Nat :=
  State.kidKeyMask ||| State.keysParseMask

theorem State.bundleCheck_touch {msk : Nat} {s0 : State} {s : State} {b : List Byte} (hk : Touch msk s0 s) (hm : Sub State.bundleCheckMask msk) :
    Touch msk s0 (State.bundleCheck s b).1 := by
  unfold State.bundleCheck
  try dsimp only
  repeat' (with_reducible first
    | assumption
    | exact Touch.refl
    | intro _
    | apply State.kidKey_touch
    | (refine Touch.ofEq (by assumption) ?_)
    | apply Touch.ite
    | split
    | (refine State.keysParse_touch (by assumption) ?_ (Sub.trans (b := State.bundleCheckMask) (by decide +kernel) hm)))
  all_goals with_reducible first
    | exact .inr rfl
    | exact Sub.trans (b := State.bundleCheckMask) (by decide +kernel) hm
    | exact Has.sub (a := State.bundleCheckMask) (by decide +kernel) hm
    | exact .inl (Has.sub (a := State.bundleCheckMask) (by decide +kernel) hm)
    | exact Has.at (by decide) (Has.sub (a := State.bundleCheckMask) (by decide +kernel) hm)
    | exact Has.cell (by decide) (Has.sub (a := State.bundleCheckMask) (by decide +kernel) hm)
    | exact Has.cellNext (by decide) (Has.sub (a := State.bundleCheckMask) (by decide +kernel) hm)
    | exact Has.ite (Has.sub (a := State.bundleCheckMask) (by decide +kernel) hm) (Has.sub (a := State.bundleCheckMask) (by decide +kernel) hm)
    | exact .inr (fun _ => rfl)
    | (intro _; rfl)
    | (intro _; simp; done)
    | (simp; assumption)
    | (refine .inr (fun _ => ?_); simp; done)
    | (refine .inr (fun _ => ?_); (repeat' split) <;> first | rfl | (simp; done))
    | (simp; done)

def bCommitLineMask : Nat :=
  State.modSecMask ||| State.bxferIdleMask ||| State.bundleCheckMask ||| rbit R.CMD_STAT ||| rbit R.CMD_BCODE

theorem bCommitLine_touch {msk : Nat} {s0 : State} {s : State} {r : Reply} {a : List Byte} (hk : Touch msk s0 s) (hm : Sub bCommitLineMask msk) :
    Touch msk s0 (bCommitLine s r a).s := by
  unfold bCommitLine
  try dsimp only
  repeat' (with_reducible first
    | assumption
    | exact Touch.refl
    | intro _
    | apply State.modSec_touch
    | apply State.bxferIdle_touch
    | apply sized_touch
    | apply State.bundleCheck_touch
    | dsimp only
    | apply State.setFld_touch
    | (refine Touch.ofEq (by assumption) ?_)
    | apply Touch.ite
    | split)
  all_goals with_reducible first
    | exact .inr rfl
    | exact Sub.trans (b := bCommitLineMask) (by decide +kernel) hm
    | exact Has.sub (a := bCommitLineMask) (by decide +kernel) hm
    | exact .inl (Has.sub (a := bCommitLineMask) (by decide +kernel) hm)
    | exact Has.at (by decide) (Has.sub (a := bCommitLineMask) (by decide +kernel) hm)
    | exact Has.cell (by decide) (Has.sub (a := bCommitLineMask) (by decide +kernel) hm)
    | exact Has.cellNext (by decide) (Has.sub (a := bCommitLineMask) (by decide +kernel) hm)
    | exact Has.ite (Has.sub (a := bCommitLineMask) (by decide +kernel) hm) (Has.sub (a := bCommitLineMask) (by decide +kernel) hm)
    | exact .inr (fun _ => rfl)
    | (intro _; rfl)
    | (intro _; simp; done)
    | (simp; assumption)
    | (refine .inr (fun _ => ?_); simp; done)
    | (refine .inr (fun _ => ?_); (repeat' split) <;> first | rfl | (simp; done))
    | (simp; done)

def State.bundleBankMask : Nat :=
  State.vEnterMask ||| State.vDoneMask ||| State.opEndMask ||| State.bankInstallMask ||| Part.vlt.bit

theorem State.bundleBank_touch {msk : Nat} {s0 : State} {s : State} {cfg : Bool} {b : Bank} {body : List Byte} (hk : Touch msk s0 s) (hm : Sub State.bundleBankMask msk) :
    Touch msk s0 (State.bundleBank s cfg b body) := by
  unfold State.bundleBank
  try dsimp only
  repeat' (with_reducible first
    | assumption
    | exact Touch.refl
    | intro _
    | apply Touch.modVlt
    | apply State.vEnter_touch
    | apply State.vDone_touch
    | apply State.opEnd_touch
    | apply State.bankInstall_touch)
  all_goals with_reducible first
    | exact .inr rfl
    | exact Sub.trans (b := State.bundleBankMask) (by decide +kernel) hm
    | exact Has.sub (a := State.bundleBankMask) (by decide +kernel) hm
    | exact .inl (Has.sub (a := State.bundleBankMask) (by decide +kernel) hm)
    | exact Has.at (by decide) (Has.sub (a := State.bundleBankMask) (by decide +kernel) hm)
    | exact Has.cell (by decide) (Has.sub (a := State.bundleBankMask) (by decide +kernel) hm)
    | exact Has.cellNext (by decide) (Has.sub (a := State.bundleBankMask) (by decide +kernel) hm)
    | exact Has.ite (Has.sub (a := State.bundleBankMask) (by decide +kernel) hm) (Has.sub (a := State.bundleBankMask) (by decide +kernel) hm)
    | exact .inr (fun _ => rfl)
    | (intro _; rfl)
    | (intro _; simp; done)
    | (simp; assumption)
    | (refine .inr (fun _ => ?_); simp; done)
    | (refine .inr (fun _ => ?_); (repeat' split) <;> first | rfl | (simp; done))
    | (simp; done)

def State.bundleKeysMask : Nat :=
  State.commitEndMask ||| State.vRecordMask ||| State.secDoneMask ||| State.slotsDoneMask

theorem State.bundleKeys_touch {msk : Nat} {s0 : State} {s : State} {l : List (Nat × List Byte)} (hk : Touch msk s0 s) (hm : Sub State.bundleKeysMask msk) :
    Touch msk s0 (State.bundleKeys s l) := by
  unfold State.bundleKeys
  try dsimp only
  repeat' (with_reducible first
    | assumption
    | exact Touch.refl
    | intro _
    | apply State.commitEnd_touch
    | apply State.vRecord_touch
    | apply State.secDone_touch
    | apply State.slotsDone_touch
    | apply Touch.ite
    | apply Touch.foldl
    | apply Touch.foldlFst
    | split)
  all_goals with_reducible first
    | exact .inr rfl
    | exact Sub.trans (b := State.bundleKeysMask) (by decide +kernel) hm
    | exact Has.sub (a := State.bundleKeysMask) (by decide +kernel) hm
    | exact .inl (Has.sub (a := State.bundleKeysMask) (by decide +kernel) hm)
    | exact Has.at (by decide) (Has.sub (a := State.bundleKeysMask) (by decide +kernel) hm)
    | exact Has.cell (by decide) (Has.sub (a := State.bundleKeysMask) (by decide +kernel) hm)
    | exact Has.cellNext (by decide) (Has.sub (a := State.bundleKeysMask) (by decide +kernel) hm)
    | exact Has.ite (Has.sub (a := State.bundleKeysMask) (by decide +kernel) hm) (Has.sub (a := State.bundleKeysMask) (by decide +kernel) hm)
    | exact .inr (fun _ => rfl)
    | (intro _; rfl)
    | (intro _; simp; done)
    | (simp; assumption)
    | (refine .inr (fun _ => ?_); simp; done)
    | (refine .inr (fun _ => ?_); (repeat' split) <;> first | rfl | (simp; done))
    | (simp; done)

def State.bundleApplyMask : Nat :=
  State.floorRaiseMask ||| State.bundleBankMask ||| State.bundleKeysMask ||| Part.vlt.bit

theorem State.bundleApply_touch {msk : Nat} {s0 : State} {s : State} {h : BundleHdr} {b : BundleBody} {body : List Byte} (hk : Touch msk s0 s) (hm : Sub State.bundleApplyMask msk) :
    Touch msk s0 (State.bundleApply s h b body) := by
  unfold State.bundleApply
  try dsimp only
  repeat' (with_reducible first
    | assumption
    | exact Touch.refl
    | intro _
    | apply Touch.modVlt
    | apply State.floorRaise_touch
    | apply State.bundleBank_touch
    | apply State.bundleKeys_touch
    | (refine Touch.ofEq (by assumption) ?_)
    | apply Touch.ite
    | split)
  all_goals with_reducible first
    | exact .inr rfl
    | exact Sub.trans (b := State.bundleApplyMask) (by decide +kernel) hm
    | exact Has.sub (a := State.bundleApplyMask) (by decide +kernel) hm
    | exact .inl (Has.sub (a := State.bundleApplyMask) (by decide +kernel) hm)
    | exact Has.at (by decide) (Has.sub (a := State.bundleApplyMask) (by decide +kernel) hm)
    | exact Has.cell (by decide) (Has.sub (a := State.bundleApplyMask) (by decide +kernel) hm)
    | exact Has.cellNext (by decide) (Has.sub (a := State.bundleApplyMask) (by decide +kernel) hm)
    | exact Has.ite (Has.sub (a := State.bundleApplyMask) (by decide +kernel) hm) (Has.sub (a := State.bundleApplyMask) (by decide +kernel) hm)
    | exact .inr (fun _ => rfl)
    | (intro _; rfl)
    | (intro _; simp; done)
    | (simp; assumption)
    | (refine .inr (fun _ => ?_); simp; done)
    | (refine .inr (fun _ => ?_); (repeat' split) <;> first | rfl | (simp; done))
    | (simp; done)

def State.bundleResultMask : Nat :=
  State.modSecMask ||| State.bxferIdleMask ||| State.cmdFinishMask ||| rbit R.CMD_BCODE

theorem State.bundleResult_touch {msk : Nat} {s0 : State} {s : State} {j : SecJob} {c : Nat} {after : Nat} {d : List Byte} (hk : Touch msk s0 s) (hm : Sub State.bundleResultMask msk) :
    Touch msk s0 (State.bundleResult s j c after d) := by
  unfold State.bundleResult
  try dsimp only
  repeat' (with_reducible first
    | assumption
    | exact Touch.refl
    | intro _
    | apply State.modSec_touch
    | apply State.bxferIdle_touch
    | apply State.cmdFinish_touch
    | apply State.setFld_touch
    | apply Touch.ite
    | split)
  all_goals with_reducible first
    | exact .inr rfl
    | exact Sub.trans (b := State.bundleResultMask) (by decide +kernel) hm
    | exact Has.sub (a := State.bundleResultMask) (by decide +kernel) hm
    | exact .inl (Has.sub (a := State.bundleResultMask) (by decide +kernel) hm)
    | exact Has.at (by decide) (Has.sub (a := State.bundleResultMask) (by decide +kernel) hm)
    | exact Has.cell (by decide) (Has.sub (a := State.bundleResultMask) (by decide +kernel) hm)
    | exact Has.cellNext (by decide) (Has.sub (a := State.bundleResultMask) (by decide +kernel) hm)
    | exact Has.ite (Has.sub (a := State.bundleResultMask) (by decide +kernel) hm) (Has.sub (a := State.bundleResultMask) (by decide +kernel) hm)
    | exact .inr (fun _ => rfl)
    | (intro _; rfl)
    | (intro _; simp; done)
    | (simp; assumption)
    | (refine .inr (fun _ => ?_); simp; done)
    | (refine .inr (fun _ => ?_); (repeat' split) <;> first | rfl | (simp; done))
    | (simp; done)

def State.bundleDoneMask : Nat :=
  State.postMask ||| State.cmdStickMask ||| State.bundleCheckMask ||| State.bundleApplyMask |||
    State.bundleResultMask

theorem State.bundleDone_touch {msk : Nat} {s0 : State} {s : State} (hk : Touch msk s0 s) (hm : Sub State.bundleDoneMask msk) :
    Touch msk s0 (State.bundleDone s) := by
  unfold State.bundleDone
  try dsimp only
  repeat' (with_reducible first
    | assumption
    | exact Touch.refl
    | intro _
    | apply State.post_touch
    | apply State.cmdStick_touch
    | apply State.bundleCheck_touch
    | apply State.bundleApply_touch
    | apply State.bundleResult_touch
    | (refine Touch.ofEq (by assumption) ?_)
    | apply Touch.ite
    | split)
  all_goals with_reducible first
    | exact .inr rfl
    | exact Sub.trans (b := State.bundleDoneMask) (by decide +kernel) hm
    | exact Has.sub (a := State.bundleDoneMask) (by decide +kernel) hm
    | exact .inl (Has.sub (a := State.bundleDoneMask) (by decide +kernel) hm)
    | exact Has.at (by decide) (Has.sub (a := State.bundleDoneMask) (by decide +kernel) hm)
    | exact Has.cell (by decide) (Has.sub (a := State.bundleDoneMask) (by decide +kernel) hm)
    | exact Has.cellNext (by decide) (Has.sub (a := State.bundleDoneMask) (by decide +kernel) hm)
    | exact Has.ite (Has.sub (a := State.bundleDoneMask) (by decide +kernel) hm) (Has.sub (a := State.bundleDoneMask) (by decide +kernel) hm)
    | exact .inr (fun _ => rfl)
    | (intro _; rfl)
    | (intro _; simp; done)
    | (simp; assumption)
    | (refine .inr (fun _ => ?_); simp; done)
    | (refine .inr (fun _ => ?_); (repeat' split) <;> first | rfl | (simp; done))
    | (simp; done)

def proofLineMask : Nat :=
  State.signStartMask

theorem proofLine_touch {msk : Nat} {s0 : State} {s : State} {r : Reply} {a : List Byte} (hk : Touch msk s0 s) (hm : Sub proofLineMask msk) :
    Touch msk s0 (proofLine s r a).s := by
  unfold proofLine
  try dsimp only
  repeat' (with_reducible first
    | assumption
    | exact Touch.refl
    | intro _
    | apply State.signStart_touch
    | apply refuse_touch
    | apply sized_touch
    | dsimp only
    | (refine Touch.ofEq (by assumption) ?_)
    | split)
  all_goals with_reducible first
    | exact .inr rfl
    | exact Sub.trans (b := proofLineMask) (by decide +kernel) hm
    | exact Has.sub (a := proofLineMask) (by decide +kernel) hm
    | exact .inl (Has.sub (a := proofLineMask) (by decide +kernel) hm)
    | exact Has.at (by decide) (Has.sub (a := proofLineMask) (by decide +kernel) hm)
    | exact Has.cell (by decide) (Has.sub (a := proofLineMask) (by decide +kernel) hm)
    | exact Has.cellNext (by decide) (Has.sub (a := proofLineMask) (by decide +kernel) hm)
    | exact Has.ite (Has.sub (a := proofLineMask) (by decide +kernel) hm) (Has.sub (a := proofLineMask) (by decide +kernel) hm)
    | exact .inr (fun _ => rfl)
    | (intro _; rfl)
    | (intro _; simp; done)
    | (simp; assumption)
    | (refine .inr (fun _ => ?_); simp; done)
    | (refine .inr (fun _ => ?_); (repeat' split) <;> first | rfl | (simp; done))
    | (simp; done)

def State.proofReportMask : Nat :=
  State.ringInMask ||| State.originateMask ||| State.toQ2Mask

theorem State.proofReport_touch {msk : Nat} {s0 : State} {s : State} {r : Reply} {body : List Byte} (hk : Touch msk s0 s) (hm : Sub State.proofReportMask msk) :
    Touch msk s0 (State.proofReport s r body) := by
  unfold State.proofReport
  try dsimp only
  repeat' (with_reducible first
    | assumption
    | exact Touch.refl
    | intro _
    | apply State.ringIn_touch
    | apply State.originate_touch
    | apply State.toQ2_touch
    | apply Touch.ite
    | split)
  all_goals with_reducible first
    | exact .inr rfl
    | exact Sub.trans (b := State.proofReportMask) (by decide +kernel) hm
    | exact Has.sub (a := State.proofReportMask) (by decide +kernel) hm
    | exact .inl (Has.sub (a := State.proofReportMask) (by decide +kernel) hm)
    | exact Has.at (by decide) (Has.sub (a := State.proofReportMask) (by decide +kernel) hm)
    | exact Has.cell (by decide) (Has.sub (a := State.proofReportMask) (by decide +kernel) hm)
    | exact Has.cellNext (by decide) (Has.sub (a := State.proofReportMask) (by decide +kernel) hm)
    | exact Has.ite (Has.sub (a := State.proofReportMask) (by decide +kernel) hm) (Has.sub (a := State.proofReportMask) (by decide +kernel) hm)
    | exact .inr (fun _ => rfl)
    | (intro _; rfl)
    | (intro _; simp; done)
    | (simp; assumption)
    | (refine .inr (fun _ => ?_); simp; done)
    | (refine .inr (fun _ => ?_); (repeat' split) <;> first | rfl | (simp; done))
    | (simp; done)

def State.proofDoneMask : Nat :=
  State.useFreeMask ||| State.postMask ||| State.modSecMask ||| State.secDoneMask ||| State.proofReportMask

theorem State.proofDone_touch {msk : Nat} {s0 : State} {s : State} (hk : Touch msk s0 s) (hm : Sub State.proofDoneMask msk) :
    Touch msk s0 (State.proofDone s) := by
  unfold State.proofDone
  try dsimp only
  repeat' (with_reducible first
    | assumption
    | exact Touch.refl
    | intro _
    | apply State.useFree_touch
    | apply State.post_touch
    | apply State.modSec_touch
    | apply State.secDone_touch
    | apply State.proofReport_touch
    | (refine Touch.ofEq (by assumption) ?_)
    | split)
  all_goals with_reducible first
    | exact .inr rfl
    | exact Sub.trans (b := State.proofDoneMask) (by decide +kernel) hm
    | exact Has.sub (a := State.proofDoneMask) (by decide +kernel) hm
    | exact .inl (Has.sub (a := State.proofDoneMask) (by decide +kernel) hm)
    | exact Has.at (by decide) (Has.sub (a := State.proofDoneMask) (by decide +kernel) hm)
    | exact Has.cell (by decide) (Has.sub (a := State.proofDoneMask) (by decide +kernel) hm)
    | exact Has.cellNext (by decide) (Has.sub (a := State.proofDoneMask) (by decide +kernel) hm)
    | exact Has.ite (Has.sub (a := State.proofDoneMask) (by decide +kernel) hm) (Has.sub (a := State.proofDoneMask) (by decide +kernel) hm)
    | exact .inr (fun _ => rfl)
    | (intro _; rfl)
    | (intro _; simp; done)
    | (simp; assumption)
    | (refine .inr (fun _ => ?_); simp; done)
    | (refine .inr (fun _ => ?_); (repeat' split) <;> first | rfl | (simp; done))
    | (simp; done)

def certLineMask : Nat :=
  0

theorem certLine_touch {msk : Nat} {s0 : State} {s : State} {x1 : Reply} {a : List Byte} (hk : Touch msk s0 s) (hm : Sub certLineMask msk) :
    Touch msk s0 (certLine s x1 a).s := by
  unfold certLine
  try dsimp only
  repeat' (with_reducible first
    | assumption
    | exact Touch.refl
    | intro _
    | apply refuse_touch
    | apply sized_touch
    | dsimp only
    | apply Touch.ite
    | split)
  all_goals with_reducible first
    | exact .inr rfl
    | exact Sub.trans (b := certLineMask) (by decide +kernel) hm
    | exact Has.sub (a := certLineMask) (by decide +kernel) hm
    | exact .inl (Has.sub (a := certLineMask) (by decide +kernel) hm)
    | exact Has.at (by decide) (Has.sub (a := certLineMask) (by decide +kernel) hm)
    | exact Has.cell (by decide) (Has.sub (a := certLineMask) (by decide +kernel) hm)
    | exact Has.cellNext (by decide) (Has.sub (a := certLineMask) (by decide +kernel) hm)
    | exact Has.ite (Has.sub (a := certLineMask) (by decide +kernel) hm) (Has.sub (a := certLineMask) (by decide +kernel) hm)
    | exact .inr (fun _ => rfl)
    | (intro _; rfl)
    | (intro _; simp; done)
    | (simp; assumption)
    | (refine .inr (fun _ => ?_); simp; done)
    | (refine .inr (fun _ => ?_); (repeat' split) <;> first | rfl | (simp; done))
    | (simp; done)

def State.dropRoutineMask : Nat :=
  State.modMacMask ||| State.setRingMask ||| State.leftQ2Mask

theorem State.dropRoutine_touch {msk : Nat} {s0 : State} {s : State} (hk : Touch msk s0 s) (hm : Sub State.dropRoutineMask msk) :
    Touch msk s0 (State.dropRoutine s) := by
  unfold State.dropRoutine
  try dsimp only
  repeat' (with_reducible first
    | assumption
    | exact Touch.refl
    | intro _
    | apply State.modMac_touch
    | apply State.setRing_touch
    | apply State.leftQ2_touch
    | (refine Touch.ofEq (by assumption) ?_)
    | apply Touch.ite
    | split)
  all_goals with_reducible first
    | exact .inr rfl
    | exact Sub.trans (b := State.dropRoutineMask) (by decide +kernel) hm
    | exact Has.sub (a := State.dropRoutineMask) (by decide +kernel) hm
    | exact .inl (Has.sub (a := State.dropRoutineMask) (by decide +kernel) hm)
    | exact Has.at (by decide) (Has.sub (a := State.dropRoutineMask) (by decide +kernel) hm)
    | exact Has.cell (by decide) (Has.sub (a := State.dropRoutineMask) (by decide +kernel) hm)
    | exact Has.cellNext (by decide) (Has.sub (a := State.dropRoutineMask) (by decide +kernel) hm)
    | exact Has.ite (Has.sub (a := State.dropRoutineMask) (by decide +kernel) hm) (Has.sub (a := State.dropRoutineMask) (by decide +kernel) hm)
    | exact .inr (fun _ => rfl)
    | (intro _; rfl)
    | (intro _; simp; done)
    | (simp; assumption)
    | (refine .inr (fun _ => ?_); simp; done)
    | (refine .inr (fun _ => ?_); (repeat' split) <;> first | rfl | (simp; done))
    | (simp; done)

def State.alarmSendMask : Nat :=
  State.postMask ||| State.cmdStickMask ||| State.makeReportMask ||| State.dropRoutineMask

theorem State.alarmSend_touch {msk : Nat} {s0 : State} {s : State} {b : Nat} {n : Nat} {x : EvRec} {sl : Bool} (hk : Touch msk s0 s) (hm : Sub State.alarmSendMask msk) :
    Touch msk s0 (State.alarmSend s b n x sl) := by
  unfold State.alarmSend
  try dsimp only
  repeat' (with_reducible first
    | assumption
    | exact Touch.refl
    | intro _
    | apply State.post_touch
    | apply State.cmdStick_touch
    | apply State.makeReport_touch
    | apply State.dropRoutine_touch
    | apply Touch.ite
    | split)
  all_goals with_reducible first
    | exact .inr rfl
    | exact Sub.trans (b := State.alarmSendMask) (by decide +kernel) hm
    | exact Has.sub (a := State.alarmSendMask) (by decide +kernel) hm
    | exact .inl (Has.sub (a := State.alarmSendMask) (by decide +kernel) hm)
    | exact Has.at (by decide) (Has.sub (a := State.alarmSendMask) (by decide +kernel) hm)
    | exact Has.cell (by decide) (Has.sub (a := State.alarmSendMask) (by decide +kernel) hm)
    | exact Has.cellNext (by decide) (Has.sub (a := State.alarmSendMask) (by decide +kernel) hm)
    | exact Has.ite (Has.sub (a := State.alarmSendMask) (by decide +kernel) hm) (Has.sub (a := State.alarmSendMask) (by decide +kernel) hm)
    | exact .inr (fun _ => rfl)
    | (intro _; rfl)
    | (intro _; simp; done)
    | (simp; assumption)
    | (refine .inr (fun _ => ?_); simp; done)
    | (refine .inr (fun _ => ?_); (repeat' split) <;> first | rfl | (simp; done))
    | (simp; done)

def State.modAlarmMask : Nat :=
  State.modCmdMask

theorem State.modAlarm_touch {msk : Nat} {s0 : State} {s : State} {b : Nat} {f : Alarm → Alarm} (hk : Touch msk s0 s) (hm : Sub State.modAlarmMask msk) :
    Touch msk s0 (State.modAlarm s b f) := by
  unfold State.modAlarm
  try dsimp only
  repeat' (with_reducible first
    | assumption
    | exact Touch.refl
    | intro _
    | apply State.modCmd_touch)
  all_goals with_reducible first
    | exact .inr rfl
    | exact Sub.trans (b := State.modAlarmMask) (by decide +kernel) hm
    | exact Has.sub (a := State.modAlarmMask) (by decide +kernel) hm
    | exact .inl (Has.sub (a := State.modAlarmMask) (by decide +kernel) hm)
    | exact Has.at (by decide) (Has.sub (a := State.modAlarmMask) (by decide +kernel) hm)
    | exact Has.cell (by decide) (Has.sub (a := State.modAlarmMask) (by decide +kernel) hm)
    | exact Has.cellNext (by decide) (Has.sub (a := State.modAlarmMask) (by decide +kernel) hm)
    | exact Has.ite (Has.sub (a := State.modAlarmMask) (by decide +kernel) hm) (Has.sub (a := State.modAlarmMask) (by decide +kernel) hm)
    | exact .inr (fun _ => rfl)
    | (intro _; rfl)
    | (intro _; simp; done)
    | (simp; assumption)
    | (refine .inr (fun _ => ?_); simp; done)
    | (refine .inr (fun _ => ?_); (repeat' split) <;> first | rfl | (simp; done))
    | (simp; done)

def State.alarmMeetMask : Nat :=
  State.alarmSendMask ||| State.modAlarmMask

theorem State.alarmMeet_touch {msk : Nat} {s0 : State} {s : State} {x : EvRec} {sl : Bool} {b : Nat} (hk : Touch msk s0 s) (hm : Sub State.alarmMeetMask msk) :
    Touch msk s0 (State.alarmMeet s x sl b) := by
  unfold State.alarmMeet
  try dsimp only
  repeat' (with_reducible first
    | assumption
    | exact Touch.refl
    | intro _
    | apply State.alarmSend_touch
    | apply State.modAlarm_touch
    | apply Touch.ite
    | split)
  all_goals with_reducible first
    | exact .inr rfl
    | exact Sub.trans (b := State.alarmMeetMask) (by decide +kernel) hm
    | exact Has.sub (a := State.alarmMeetMask) (by decide +kernel) hm
    | exact .inl (Has.sub (a := State.alarmMeetMask) (by decide +kernel) hm)
    | exact Has.at (by decide) (Has.sub (a := State.alarmMeetMask) (by decide +kernel) hm)
    | exact Has.cell (by decide) (Has.sub (a := State.alarmMeetMask) (by decide +kernel) hm)
    | exact Has.cellNext (by decide) (Has.sub (a := State.alarmMeetMask) (by decide +kernel) hm)
    | exact Has.ite (Has.sub (a := State.alarmMeetMask) (by decide +kernel) hm) (Has.sub (a := State.alarmMeetMask) (by decide +kernel) hm)
    | exact .inr (fun _ => rfl)
    | (intro _; rfl)
    | (intro _; simp; done)
    | (simp; assumption)
    | (refine .inr (fun _ => ?_); simp; done)
    | (refine .inr (fun _ => ?_); (repeat' split) <;> first | rfl | (simp; done))
    | (simp; done)

def State.alarmsMask : Nat :=
  State.alarmMeetMask

theorem State.alarms_touch {msk : Nat} {s0 : State} {s : State} {x : EvRec} {sl : Bool} (hk : Touch msk s0 s) (hm : Sub State.alarmsMask msk) :
    Touch msk s0 (State.alarms s x sl) := by
  unfold State.alarms
  try dsimp only
  repeat' (with_reducible first
    | assumption
    | exact Touch.refl
    | intro _
    | apply State.alarmMeet_touch
    | apply Touch.ite
    | apply Touch.foldl
    | apply Touch.foldlFst
    | split)
  all_goals with_reducible first
    | exact .inr rfl
    | exact Sub.trans (b := State.alarmsMask) (by decide +kernel) hm
    | exact Has.sub (a := State.alarmsMask) (by decide +kernel) hm
    | exact .inl (Has.sub (a := State.alarmsMask) (by decide +kernel) hm)
    | exact Has.at (by decide) (Has.sub (a := State.alarmsMask) (by decide +kernel) hm)
    | exact Has.cell (by decide) (Has.sub (a := State.alarmsMask) (by decide +kernel) hm)
    | exact Has.cellNext (by decide) (Has.sub (a := State.alarmsMask) (by decide +kernel) hm)
    | exact Has.ite (Has.sub (a := State.alarmsMask) (by decide +kernel) hm) (Has.sub (a := State.alarmsMask) (by decide +kernel) hm)
    | exact .inr (fun _ => rfl)
    | (intro _; rfl)
    | (intro _; simp; done)
    | (simp; assumption)
    | (refine .inr (fun _ => ?_); simp; done)
    | (refine .inr (fun _ => ?_); (repeat' split) <;> first | rfl | (simp; done))
    | (simp; done)

def State.recorderTakeMask : Nat :=
  State.recTakeMask ||| State.alarmsMask

theorem State.recorderTake_touch {msk : Nat} {s0 : State} {s : State} (hk : Touch msk s0 s) (hm : Sub State.recorderTakeMask msk) :
    Touch msk s0 (State.recorderTake s) := by
  unfold State.recorderTake
  try dsimp only
  repeat' (with_reducible first
    | assumption
    | exact Touch.refl
    | intro _
    | apply State.recTake_touch
    | apply State.alarms_touch
    | (refine Touch.ofEq (by assumption) ?_)
    | split)
  all_goals with_reducible first
    | exact .inr rfl
    | exact Sub.trans (b := State.recorderTakeMask) (by decide +kernel) hm
    | exact Has.sub (a := State.recorderTakeMask) (by decide +kernel) hm
    | exact .inl (Has.sub (a := State.recorderTakeMask) (by decide +kernel) hm)
    | exact Has.at (by decide) (Has.sub (a := State.recorderTakeMask) (by decide +kernel) hm)
    | exact Has.cell (by decide) (Has.sub (a := State.recorderTakeMask) (by decide +kernel) hm)
    | exact Has.cellNext (by decide) (Has.sub (a := State.recorderTakeMask) (by decide +kernel) hm)
    | exact Has.ite (Has.sub (a := State.recorderTakeMask) (by decide +kernel) hm) (Has.sub (a := State.recorderTakeMask) (by decide +kernel) hm)
    | exact .inr (fun _ => rfl)
    | (intro _; rfl)
    | (intro _; simp; done)
    | (simp; assumption)
    | (refine .inr (fun _ => ?_); simp; done)
    | (refine .inr (fun _ => ?_); (repeat' split) <;> first | rfl | (simp; done))
    | (simp; done)

def State.alarmGapEndMask : Nat :=
  State.alarmSendMask ||| State.modAlarmMask ||| State.alarmsMask

theorem State.alarmGapEnd_touch {msk : Nat} {s0 : State} {s : State} {b : Nat} (hk : Touch msk s0 s) (hm : Sub State.alarmGapEndMask msk) :
    Touch msk s0 (State.alarmGapEnd s b) := by
  unfold State.alarmGapEnd
  try dsimp only
  repeat' (with_reducible first
    | assumption
    | exact Touch.refl
    | intro _
    | apply State.alarmSend_touch
    | apply State.modAlarm_touch
    | apply State.alarms_touch
    | apply Touch.ite
    | split)
  all_goals with_reducible first
    | exact .inr rfl
    | exact Sub.trans (b := State.alarmGapEndMask) (by decide +kernel) hm
    | exact Has.sub (a := State.alarmGapEndMask) (by decide +kernel) hm
    | exact .inl (Has.sub (a := State.alarmGapEndMask) (by decide +kernel) hm)
    | exact Has.at (by decide) (Has.sub (a := State.alarmGapEndMask) (by decide +kernel) hm)
    | exact Has.cell (by decide) (Has.sub (a := State.alarmGapEndMask) (by decide +kernel) hm)
    | exact Has.cellNext (by decide) (Has.sub (a := State.alarmGapEndMask) (by decide +kernel) hm)
    | exact Has.ite (Has.sub (a := State.alarmGapEndMask) (by decide +kernel) hm) (Has.sub (a := State.alarmGapEndMask) (by decide +kernel) hm)
    | exact .inr (fun _ => rfl)
    | (intro _; rfl)
    | (intro _; simp; done)
    | (simp; assumption)
    | (refine .inr (fun _ => ?_); simp; done)
    | (refine .inr (fun _ => ?_); (repeat' split) <;> first | rfl | (simp; done))
    | (simp; done)

def State.periodicMask : Nat :=
  State.postMask ||| State.cmdStickMask ||| State.makeReportMask

theorem State.periodic_touch {msk : Nat} {s0 : State} {s : State} {opc : Nat} {body : List Byte} (hk : Touch msk s0 s) (hm : Sub State.periodicMask msk) :
    Touch msk s0 (State.periodic s opc body) := by
  unfold State.periodic
  try dsimp only
  repeat' (with_reducible first
    | assumption
    | exact Touch.refl
    | intro _
    | apply State.post_touch
    | apply State.cmdStick_touch
    | apply State.makeReport_touch
    | apply Touch.ite
    | split)
  all_goals with_reducible first
    | exact .inr rfl
    | exact Sub.trans (b := State.periodicMask) (by decide +kernel) hm
    | exact Has.sub (a := State.periodicMask) (by decide +kernel) hm
    | exact .inl (Has.sub (a := State.periodicMask) (by decide +kernel) hm)
    | exact Has.at (by decide) (Has.sub (a := State.periodicMask) (by decide +kernel) hm)
    | exact Has.cell (by decide) (Has.sub (a := State.periodicMask) (by decide +kernel) hm)
    | exact Has.cellNext (by decide) (Has.sub (a := State.periodicMask) (by decide +kernel) hm)
    | exact Has.ite (Has.sub (a := State.periodicMask) (by decide +kernel) hm) (Has.sub (a := State.periodicMask) (by decide +kernel) hm)
    | exact .inr (fun _ => rfl)
    | (intro _; rfl)
    | (intro _; simp; done)
    | (simp; assumption)
    | (refine .inr (fun _ => ?_); simp; done)
    | (refine .inr (fun _ => ?_); (repeat' split) <;> first | rfl | (simp; done))
    | (simp; done)

def State.statusDueMask : Nat :=
  State.periodicMask

theorem State.statusDue_touch {msk : Nat} {s0 : State} {s : State} (hk : Touch msk s0 s) (hm : Sub State.statusDueMask msk) :
    Touch msk s0 (State.statusDue s) := by
  unfold State.statusDue
  try dsimp only
  repeat' (with_reducible first
    | assumption
    | exact Touch.refl
    | intro _
    | apply State.periodic_touch
    | apply Touch.ite
    | split)
  all_goals with_reducible first
    | exact .inr rfl
    | exact Sub.trans (b := State.statusDueMask) (by decide +kernel) hm
    | exact Has.sub (a := State.statusDueMask) (by decide +kernel) hm
    | exact .inl (Has.sub (a := State.statusDueMask) (by decide +kernel) hm)
    | exact Has.at (by decide) (Has.sub (a := State.statusDueMask) (by decide +kernel) hm)
    | exact Has.cell (by decide) (Has.sub (a := State.statusDueMask) (by decide +kernel) hm)
    | exact Has.cellNext (by decide) (Has.sub (a := State.statusDueMask) (by decide +kernel) hm)
    | exact Has.ite (Has.sub (a := State.statusDueMask) (by decide +kernel) hm) (Has.sub (a := State.statusDueMask) (by decide +kernel) hm)
    | exact .inr (fun _ => rfl)
    | (intro _; rfl)
    | (intro _; simp; done)
    | (simp; assumption)
    | (refine .inr (fun _ => ?_); simp; done)
    | (refine .inr (fun _ => ?_); (repeat' split) <;> first | rfl | (simp; done))
    | (simp; done)

def State.minuteReportsMask : Nat :=
  State.modCmdMask ||| State.periodicMask

theorem State.minuteReports_touch {msk : Nat} {s0 : State} {s : State} (hk : Touch msk s0 s) (hm : Sub State.minuteReportsMask msk) :
    Touch msk s0 (State.minuteReports s) := by
  unfold State.minuteReports
  try dsimp only
  repeat' (with_reducible first
    | assumption
    | exact Touch.refl
    | intro _
    | apply State.modCmd_touch
    | apply State.periodic_touch
    | apply Touch.ite
    | split)
  all_goals with_reducible first
    | exact .inr rfl
    | exact Sub.trans (b := State.minuteReportsMask) (by decide +kernel) hm
    | exact Has.sub (a := State.minuteReportsMask) (by decide +kernel) hm
    | exact .inl (Has.sub (a := State.minuteReportsMask) (by decide +kernel) hm)
    | exact Has.at (by decide) (Has.sub (a := State.minuteReportsMask) (by decide +kernel) hm)
    | exact Has.cell (by decide) (Has.sub (a := State.minuteReportsMask) (by decide +kernel) hm)
    | exact Has.cellNext (by decide) (Has.sub (a := State.minuteReportsMask) (by decide +kernel) hm)
    | exact Has.ite (Has.sub (a := State.minuteReportsMask) (by decide +kernel) hm) (Has.sub (a := State.minuteReportsMask) (by decide +kernel) hm)
    | exact .inr (fun _ => rfl)
    | (intro _; rfl)
    | (intro _; simp; done)
    | (simp; assumption)
    | (refine .inr (fun _ => ?_); simp; done)
    | (refine .inr (fun _ => ?_); (repeat' split) <;> first | rfl | (simp; done))
    | (simp; done)

def State.benchStartMask : Nat :=
  State.pulseMask ||| State.stormRestartMask ||| State.phyBenchMask ||| State.secBenchMask ||| State.macBenchMask
    ||| State.statusDueMask

theorem State.benchStart_touch {msk : Nat} {s0 : State} {s : State} (hk : Touch msk s0 s) (hm : Sub State.benchStartMask msk) :
    Touch msk s0 (State.benchStart s) := by
  unfold State.benchStart
  try dsimp only
  repeat' (with_reducible first
    | assumption
    | exact Touch.refl
    | intro _
    | apply State.pulse_touch
    | apply State.stormRestart_touch
    | apply State.phyBench_touch
    | apply State.secBench_touch
    | apply State.macBench_touch
    | apply State.statusDue_touch
    | apply Touch.ite
    | split)
  all_goals with_reducible first
    | exact .inr rfl
    | exact Sub.trans (b := State.benchStartMask) (by decide +kernel) hm
    | exact Has.sub (a := State.benchStartMask) (by decide +kernel) hm
    | exact .inl (Has.sub (a := State.benchStartMask) (by decide +kernel) hm)
    | exact Has.at (by decide) (Has.sub (a := State.benchStartMask) (by decide +kernel) hm)
    | exact Has.cell (by decide) (Has.sub (a := State.benchStartMask) (by decide +kernel) hm)
    | exact Has.cellNext (by decide) (Has.sub (a := State.benchStartMask) (by decide +kernel) hm)
    | exact Has.ite (Has.sub (a := State.benchStartMask) (by decide +kernel) hm) (Has.sub (a := State.benchStartMask) (by decide +kernel) hm)
    | exact .inr (fun _ => rfl)
    | (intro _; rfl)
    | (intro _; simp; done)
    | (simp; assumption)
    | (refine .inr (fun _ => ?_); simp; done)
    | (refine .inr (fun _ => ?_); (repeat' split) <;> first | rfl | (simp; done))
    | (simp; done)

end Sys2Proof.Machine
end

