-- ==== Sys2Proof/Laws/TouchTick.lean ====
section
/-! SUPPORT. What each operation of Machine/Tick.lean may change: its mask, and the proof that it changes nothing else. -/

namespace Sys2Proof.Machine

set_option linter.unusedSimpArgs false
set_option Elab.async false

def State.fabricDestMask : Nat :=
  State.irqMask ||| State.userStartMask ||| State.pushLatestMask ||| State.gtKickMask ||| State.gtPulseMask |||
    Part.fde.bit ||| Part.pwm.bit

theorem State.fabricDest_touch {msk : Nat} {s0 : State} {s : State} {d : Nat} (hk : Touch msk s0 s) (hm : Sub State.fabricDestMask msk) :
    Touch msk s0 (State.fabricDest s d) := by
  unfold State.fabricDest
  try dsimp only
  repeat' (with_reducible first
    | assumption
    | exact Touch.refl
    | intro _
    | apply State.irq_touch
    | apply Touch.modPwm
    | apply Touch.modFlamp
    | apply State.userStart_touch
    | apply State.pushLatest_touch
    | apply State.gtKick_touch
    | apply State.gtPulse_touch
    | (refine Touch.ofEq (by assumption) ?_)
    | apply Touch.ite
    | apply Touch.foldl
    | apply Touch.foldlFst
    | split)
  all_goals with_reducible first
    | exact .inr rfl
    | exact Sub.trans (b := State.fabricDestMask) (by decide +kernel) hm
    | exact Has.sub (a := State.fabricDestMask) (by decide +kernel) hm
    | exact .inl (Has.sub (a := State.fabricDestMask) (by decide +kernel) hm)
    | exact Has.at (by decide) (Has.sub (a := State.fabricDestMask) (by decide +kernel) hm)
    | exact Has.cell (by decide) (Has.sub (a := State.fabricDestMask) (by decide +kernel) hm)
    | exact Has.cellNext (by decide) (Has.sub (a := State.fabricDestMask) (by decide +kernel) hm)
    | exact Has.ite (Has.sub (a := State.fabricDestMask) (by decide +kernel) hm) (Has.sub (a := State.fabricDestMask) (by decide +kernel) hm)
    | exact .inr (fun _ => rfl)
    | (intro _; rfl)
    | (intro _; simp; done)
    | (simp; assumption)
    | (refine .inr (fun _ => ?_); simp; done)
    | (refine .inr (fun _ => ?_); (repeat' split) <;> first | rfl | (simp; done))
    | (simp; done)

def State.fabricTakeMask : Nat :=
  Part.acted.bit ||| Part.actedAt.bit ||| Part.fabric.bit

theorem State.fabricTake_touch {msk : Nat} {s0 : State} {s : State} {e : Nat × Nat} (hk : Touch msk s0 s) (hm : Sub State.fabricTakeMask msk) :
    Touch msk s0 (State.fabricTake s e) := by
  unfold State.fabricTake
  try dsimp only
  repeat' (with_reducible first
    | assumption
    | exact Touch.refl
    | intro _
    | apply Touch.ite
    | (simp only [Touch.mk_iff]; apply TouchMk.intro)
    | split)
  all_goals with_reducible first
    | exact .inr rfl
    | exact Sub.trans (b := State.fabricTakeMask) (by decide +kernel) hm
    | exact Has.sub (a := State.fabricTakeMask) (by decide +kernel) hm
    | exact .inl (Has.sub (a := State.fabricTakeMask) (by decide +kernel) hm)
    | exact Has.at (by decide) (Has.sub (a := State.fabricTakeMask) (by decide +kernel) hm)
    | exact Has.cell (by decide) (Has.sub (a := State.fabricTakeMask) (by decide +kernel) hm)
    | exact Has.cellNext (by decide) (Has.sub (a := State.fabricTakeMask) (by decide +kernel) hm)
    | exact Has.ite (Has.sub (a := State.fabricTakeMask) (by decide +kernel) hm) (Has.sub (a := State.fabricTakeMask) (by decide +kernel) hm)
    | exact .inr (fun _ => rfl)
    | (intro _; rfl)
    | (intro _; simp; done)
    | (simp; assumption)
    | (refine .inr (fun _ => ?_); simp; done)
    | (refine .inr (fun _ => ?_); (repeat' split) <;> first | rfl | (simp; done))
    | (simp; done)

def State.fabricPulseMask : Nat :=
  State.pulseMask ||| State.fabricDestMask ||| State.fabricTakeMask ||| Part.acted.bit

theorem State.fabricPulse_touch {msk : Nat} {s0 : State} {s : State} {src : Nat} (hk : Touch msk s0 s) (hm : Sub State.fabricPulseMask msk) :
    Touch msk s0 (State.fabricPulse s src) := by
  unfold State.fabricPulse
  try dsimp only
  repeat' (with_reducible first
    | assumption
    | exact Touch.refl
    | intro _
    | apply State.pulse_touch
    | apply State.fabricDest_touch
    | apply State.fabricTake_touch
    | (refine Touch.ofEq (by assumption) ?_)
    | apply Touch.ite
    | apply Touch.foldl
    | apply Touch.foldlFst
    | (simp only [Touch.mk_iff]; apply TouchMk.intro)
    | split)
  all_goals with_reducible first
    | exact .inr rfl
    | exact Sub.trans (b := State.fabricPulseMask) (by decide +kernel) hm
    | exact Has.sub (a := State.fabricPulseMask) (by decide +kernel) hm
    | exact .inl (Has.sub (a := State.fabricPulseMask) (by decide +kernel) hm)
    | exact Has.at (by decide) (Has.sub (a := State.fabricPulseMask) (by decide +kernel) hm)
    | exact Has.cell (by decide) (Has.sub (a := State.fabricPulseMask) (by decide +kernel) hm)
    | exact Has.cellNext (by decide) (Has.sub (a := State.fabricPulseMask) (by decide +kernel) hm)
    | exact Has.ite (Has.sub (a := State.fabricPulseMask) (by decide +kernel) hm) (Has.sub (a := State.fabricPulseMask) (by decide +kernel) hm)
    | exact .inr (fun _ => rfl)
    | (intro _; rfl)
    | (intro _; simp; done)
    | (simp; assumption)
    | (refine .inr (fun _ => ?_); simp; done)
    | (refine .inr (fun _ => ?_); (repeat' split) <;> first | rfl | (simp; done))
    | (simp; done)

def State.dirSwapMask : Nat :=
  State.modSecMask ||| State.windowClearMask ||| State.dirSetMask

theorem State.dirSwap_touch {msk : Nat} {s0 : State} {s : State} {new : List (Nat × Word)} (hk : Touch msk s0 s) (hm : Sub State.dirSwapMask msk) :
    Touch msk s0 (State.dirSwap s new) := by
  unfold State.dirSwap
  try dsimp only
  repeat' (with_reducible first
    | assumption
    | exact Touch.refl
    | intro _
    | apply State.modSec_touch
    | apply State.windowClear_touch
    | apply State.dirSet_touch
    | apply Touch.ite
    | apply Touch.foldl
    | apply Touch.foldlFst
    | split)
  all_goals with_reducible first
    | exact .inr rfl
    | exact Sub.trans (b := State.dirSwapMask) (by decide +kernel) hm
    | exact Has.sub (a := State.dirSwapMask) (by decide +kernel) hm
    | exact .inl (Has.sub (a := State.dirSwapMask) (by decide +kernel) hm)
    | exact Has.at (by decide) (Has.sub (a := State.dirSwapMask) (by decide +kernel) hm)
    | exact Has.cell (by decide) (Has.sub (a := State.dirSwapMask) (by decide +kernel) hm)
    | exact Has.cellNext (by decide) (Has.sub (a := State.dirSwapMask) (by decide +kernel) hm)
    | exact Has.ite (Has.sub (a := State.dirSwapMask) (by decide +kernel) hm) (Has.sub (a := State.dirSwapMask) (by decide +kernel) hm)
    | exact .inr (fun _ => rfl)
    | (intro _; rfl)
    | (intro _; simp; done)
    | (simp; assumption)
    | (refine .inr (fun _ => ?_); simp; done)
    | (refine .inr (fun _ => ?_); (repeat' split) <;> first | rfl | (simp; done))
    | (simp; done)

def State.tabSwapMask : Nat :=
  State.tablesLoadMask ||| State.dirSwapMask ||| Part.fde.bit ||| Part.vlt.bit

theorem State.tabSwap_touch {msk : Nat} {s0 : State} {s : State} (hk : Touch msk s0 s) (hm : Sub State.tabSwapMask msk) :
    Touch msk s0 (State.tabSwap s) := by
  unfold State.tabSwap
  try dsimp only
  repeat' (with_reducible first
    | assumption
    | exact Touch.refl
    | intro _
    | apply Touch.modVlt
    | apply Touch.modFde
    | apply State.tablesLoad_touch
    | apply State.dirSwap_touch
    | apply Touch.ite
    | split)
  all_goals with_reducible first
    | exact .inr rfl
    | exact Sub.trans (b := State.tabSwapMask) (by decide +kernel) hm
    | exact Has.sub (a := State.tabSwapMask) (by decide +kernel) hm
    | exact .inl (Has.sub (a := State.tabSwapMask) (by decide +kernel) hm)
    | exact Has.at (by decide) (Has.sub (a := State.tabSwapMask) (by decide +kernel) hm)
    | exact Has.cell (by decide) (Has.sub (a := State.tabSwapMask) (by decide +kernel) hm)
    | exact Has.cellNext (by decide) (Has.sub (a := State.tabSwapMask) (by decide +kernel) hm)
    | exact Has.ite (Has.sub (a := State.tabSwapMask) (by decide +kernel) hm) (Has.sub (a := State.tabSwapMask) (by decide +kernel) hm)
    | exact .inr (fun _ => rfl)
    | (intro _; rfl)
    | (intro _; simp; done)
    | (simp; assumption)
    | (refine .inr (fun _ => ?_); simp; done)
    | (refine .inr (fun _ => ?_); (repeat' split) <;> first | rfl | (simp; done))
    | (simp; done)

def State.litDecideMask : Nat :=
  State.startAllMask ||| State.stopAllMask ||| State.proofFirstMask ||| State.capturesCloseMask |||
    State.gtuIdleMask ||| State.lineStopMask ||| rbit R.SYS_MODE

theorem State.litDecide_touch {msk : Nat} {s0 : State} {s : State} {old : Nat} (hk : Touch msk s0 s) (hm : Sub State.litDecideMask msk) :
    Touch msk s0 (State.litDecide s old) := by
  unfold State.litDecide
  try dsimp only
  repeat' (with_reducible first
    | assumption
    | exact Touch.refl
    | intro _
    | apply Touch.forChans
    | apply State.startAll_touch
    | apply State.stopAll_touch
    | apply State.proofFirst_touch
    | apply State.capturesClose_touch
    | apply State.gtuIdle_touch
    | apply State.lineStop_touch
    | apply State.setFld_touch
    | apply Touch.ite
    | split)
  all_goals with_reducible first
    | exact .inr rfl
    | exact Sub.trans (b := State.litDecideMask) (by decide +kernel) hm
    | exact Has.sub (a := State.litDecideMask) (by decide +kernel) hm
    | exact .inl (Has.sub (a := State.litDecideMask) (by decide +kernel) hm)
    | exact Has.at (by decide) (Has.sub (a := State.litDecideMask) (by decide +kernel) hm)
    | exact Has.cell (by decide) (Has.sub (a := State.litDecideMask) (by decide +kernel) hm)
    | exact Has.cellNext (by decide) (Has.sub (a := State.litDecideMask) (by decide +kernel) hm)
    | exact Has.ite (Has.sub (a := State.litDecideMask) (by decide +kernel) hm) (Has.sub (a := State.litDecideMask) (by decide +kernel) hm)
    | exact .inr (fun _ => rfl)
    | (intro _; rfl)
    | (intro _; simp; done)
    | (simp; assumption)
    | (refine .inr (fun _ => ?_); simp; done)
    | (refine .inr (fun _ => ?_); (repeat' split) <;> first | rfl | (simp; done))
    | (simp; done)

def State.lampTickMask : Nat :=
  State.modKeepMask ||| State.fdeTickMask

theorem State.lampTick_touch {msk : Nat} {s0 : State} {s : State} (hk : Touch msk s0 s) (hm : Sub State.lampTickMask msk) :
    Touch msk s0 (State.lampTick s) := by
  unfold State.lampTick
  try dsimp only
  repeat' (with_reducible first
    | assumption
    | exact Touch.refl
    | intro _
    | apply State.modKeep_touch
    | apply State.fdeTick_touch
    | apply Touch.ite
    | split)
  all_goals with_reducible first
    | exact .inr rfl
    | exact Sub.trans (b := State.lampTickMask) (by decide +kernel) hm
    | exact Has.sub (a := State.lampTickMask) (by decide +kernel) hm
    | exact .inl (Has.sub (a := State.lampTickMask) (by decide +kernel) hm)
    | exact Has.at (by decide) (Has.sub (a := State.lampTickMask) (by decide +kernel) hm)
    | exact Has.cell (by decide) (Has.sub (a := State.lampTickMask) (by decide +kernel) hm)
    | exact Has.cellNext (by decide) (Has.sub (a := State.lampTickMask) (by decide +kernel) hm)
    | exact Has.ite (Has.sub (a := State.lampTickMask) (by decide +kernel) hm) (Has.sub (a := State.lampTickMask) (by decide +kernel) hm)
    | exact .inr (fun _ => rfl)
    | (intro _; rfl)
    | (intro _; simp; done)
    | (simp; assumption)
    | (refine .inr (fun _ => ?_); simp; done)
    | (refine .inr (fun _ => ?_); (repeat' split) <;> first | rfl | (simp; done))
    | (simp; done)

def State.lampAnswersMask : Nat :=
  State.lampAnswerMask ||| Part.fde.bit

theorem State.lampAnswers_touch {msk : Nat} {s0 : State} {s : State} (hk : Touch msk s0 s) (hm : Sub State.lampAnswersMask msk) :
    Touch msk s0 (State.lampAnswers s) := by
  unfold State.lampAnswers
  try dsimp only
  repeat' (with_reducible first
    | assumption
    | exact Touch.refl
    | intro _
    | apply Touch.modFde
    | apply State.lampAnswer_touch
    | apply Touch.foldl
    | apply Touch.foldlFst)
  all_goals with_reducible first
    | exact .inr rfl
    | exact Sub.trans (b := State.lampAnswersMask) (by decide +kernel) hm
    | exact Has.sub (a := State.lampAnswersMask) (by decide +kernel) hm
    | exact .inl (Has.sub (a := State.lampAnswersMask) (by decide +kernel) hm)
    | exact Has.at (by decide) (Has.sub (a := State.lampAnswersMask) (by decide +kernel) hm)
    | exact Has.cell (by decide) (Has.sub (a := State.lampAnswersMask) (by decide +kernel) hm)
    | exact Has.cellNext (by decide) (Has.sub (a := State.lampAnswersMask) (by decide +kernel) hm)
    | exact Has.ite (Has.sub (a := State.lampAnswersMask) (by decide +kernel) hm) (Has.sub (a := State.lampAnswersMask) (by decide +kernel) hm)
    | exact .inr (fun _ => rfl)
    | (intro _; rfl)
    | (intro _; simp; done)
    | (simp; assumption)
    | (refine .inr (fun _ => ?_); simp; done)
    | (refine .inr (fun _ => ?_); (repeat' split) <;> first | rfl | (simp; done))
    | (simp; done)

def State.mappingsMask : Nat :=
  State.mapCheckMask ||| State.proofAbandonMask

theorem State.mappings_touch {msk : Nat} {s0 : State} {s : State} (hk : Touch msk s0 s) (hm : Sub State.mappingsMask msk) :
    Touch msk s0 (State.mappings s) := by
  unfold State.mappings
  try dsimp only
  repeat' (with_reducible first
    | assumption
    | exact Touch.refl
    | intro _
    | apply Touch.forChans
    | apply State.mapCheck_touch
    | apply State.proofAbandon_touch
    | apply Touch.ite
    | apply Touch.foldl
    | apply Touch.foldlFst
    | split)
  all_goals with_reducible first
    | exact .inr rfl
    | exact Sub.trans (b := State.mappingsMask) (by decide +kernel) hm
    | exact Has.sub (a := State.mappingsMask) (by decide +kernel) hm
    | exact .inl (Has.sub (a := State.mappingsMask) (by decide +kernel) hm)
    | exact Has.at (by decide) (Has.sub (a := State.mappingsMask) (by decide +kernel) hm)
    | exact Has.cell (by decide) (Has.sub (a := State.mappingsMask) (by decide +kernel) hm)
    | exact Has.cellNext (by decide) (Has.sub (a := State.mappingsMask) (by decide +kernel) hm)
    | exact Has.ite (Has.sub (a := State.mappingsMask) (by decide +kernel) hm) (Has.sub (a := State.mappingsMask) (by decide +kernel) hm)
    | exact .inr (fun _ => rfl)
    | (intro _; rfl)
    | (intro _; simp; done)
    | (simp; assumption)
    | (refine .inr (fun _ => ?_); simp; done)
    | (refine .inr (fun _ => ?_); (repeat' split) <;> first | rfl | (simp; done))
    | (simp; done)

def State.fadeTickMask : Nat :=
  State.pulseMask ||| State.lmpSwapMask ||| State.solveMask ||| State.fdeSwapMask ||| State.tvalidSetMask |||
    State.powerOnMask ||| State.modPwrMask ||| State.tabSwapMask ||| State.litDecideMask ||| State.lampTickMask |||
    State.lampAnswersMask ||| State.mappingsMask

theorem State.fadeTick_touch {msk : Nat} {s0 : State} {s : State} (hk : Touch msk s0 s) (hm : Sub State.fadeTickMask msk) :
    Touch msk s0 (State.fadeTick s) := by
  unfold State.fadeTick
  try dsimp only
  repeat' (with_reducible first
    | assumption
    | exact Touch.refl
    | intro _
    | apply State.pulse_touch
    | apply State.lmpSwap_touch
    | apply State.solve_touch
    | apply State.fdeSwap_touch
    | apply State.tvalidSet_touch
    | apply State.powerOn_touch
    | apply State.modPwr_touch
    | apply State.tabSwap_touch
    | apply State.litDecide_touch
    | apply State.lampTick_touch
    | apply State.lampAnswers_touch
    | apply State.mappings_touch
    | apply Touch.ite
    | split)
  all_goals with_reducible first
    | exact .inr rfl
    | exact Sub.trans (b := State.fadeTickMask) (by decide +kernel) hm
    | exact Has.sub (a := State.fadeTickMask) (by decide +kernel) hm
    | exact .inl (Has.sub (a := State.fadeTickMask) (by decide +kernel) hm)
    | exact Has.at (by decide) (Has.sub (a := State.fadeTickMask) (by decide +kernel) hm)
    | exact Has.cell (by decide) (Has.sub (a := State.fadeTickMask) (by decide +kernel) hm)
    | exact Has.cellNext (by decide) (Has.sub (a := State.fadeTickMask) (by decide +kernel) hm)
    | exact Has.ite (Has.sub (a := State.fadeTickMask) (by decide +kernel) hm) (Has.sub (a := State.fadeTickMask) (by decide +kernel) hm)
    | exact .inr (fun _ => rfl)
    | (intro _; rfl)
    | (intro _; simp; done)
    | (simp; assumption)
    | (refine .inr (fun _ => ?_); simp; done)
    | (refine .inr (fun _ => ?_); (repeat' split) <;> first | rfl | (simp; done))
    | (simp; done)

end Sys2Proof.Machine
end

