-- ==== Sys2Proof/Laws/TouchIdle.lean ====
section
/-! SUPPORT. What each operation of Machine/Idle.lean may change: its mask, and the proof that it changes nothing else. -/

namespace Sys2Proof.Machine

set_option linter.unusedSimpArgs false
set_option Elab.async false

def State.kxoEdgeMask : Nat :=
  State.kaEdgeMask ||| State.gtKxoMask

theorem State.kxoEdge_touch {msk : Nat} {s0 : State} {s : State} (hk : Touch msk s0 s) (hm : Sub State.kxoEdgeMask msk) :
    Touch msk s0 (State.kxoEdge s) := by
  unfold State.kxoEdge
  try dsimp only
  repeat' (with_reducible first
    | assumption
    | exact Touch.refl
    | intro _
    | apply State.kaEdge_touch
    | apply Touch.forGts
    | apply State.gtKxo_touch)
  all_goals with_reducible first
    | exact .inr rfl
    | exact Sub.trans (b := State.kxoEdgeMask) (by decide +kernel) hm
    | exact Has.sub (a := State.kxoEdgeMask) (by decide +kernel) hm
    | exact .inl (Has.sub (a := State.kxoEdgeMask) (by decide +kernel) hm)
    | exact Has.at (by decide) (Has.sub (a := State.kxoEdgeMask) (by decide +kernel) hm)
    | exact Has.cell (by decide) (Has.sub (a := State.kxoEdgeMask) (by decide +kernel) hm)
    | exact Has.cellNext (by decide) (Has.sub (a := State.kxoEdgeMask) (by decide +kernel) hm)
    | exact Has.ite (Has.sub (a := State.kxoEdgeMask) (by decide +kernel) hm) (Has.sub (a := State.kxoEdgeMask) (by decide +kernel) hm)
    | exact .inr (fun _ => rfl)
    | (intro _; rfl)
    | (intro _; simp; done)
    | (simp; assumption)
    | (refine .inr (fun _ => ?_); simp; done)
    | (refine .inr (fun _ => ?_); (repeat' split) <;> first | rfl | (simp; done))
    | (simp; done)

def State.sysEdgeMask : Nat :=
  State.timEdgeMask ||| State.pwmEdgeMask ||| State.gtEdgeMask

theorem State.sysEdge_touch {msk : Nat} {s0 : State} {s : State} (hk : Touch msk s0 s) (hm : Sub State.sysEdgeMask msk) :
    Touch msk s0 (State.sysEdge s) := by
  unfold State.sysEdge
  try dsimp only
  repeat' (with_reducible first
    | assumption
    | exact Touch.refl
    | intro _
    | apply State.timEdge_touch
    | apply Touch.forChans
    | apply State.pwmEdge_touch
    | apply Touch.forGts
    | apply State.gtEdge_touch
    | apply Touch.ite
    | split)
  all_goals with_reducible first
    | exact .inr rfl
    | exact Sub.trans (b := State.sysEdgeMask) (by decide +kernel) hm
    | exact Has.sub (a := State.sysEdgeMask) (by decide +kernel) hm
    | exact .inl (Has.sub (a := State.sysEdgeMask) (by decide +kernel) hm)
    | exact Has.at (by decide) (Has.sub (a := State.sysEdgeMask) (by decide +kernel) hm)
    | exact Has.cell (by decide) (Has.sub (a := State.sysEdgeMask) (by decide +kernel) hm)
    | exact Has.cellNext (by decide) (Has.sub (a := State.sysEdgeMask) (by decide +kernel) hm)
    | exact Has.ite (Has.sub (a := State.sysEdgeMask) (by decide +kernel) hm) (Has.sub (a := State.sysEdgeMask) (by decide +kernel) hm)
    | exact .inr (fun _ => rfl)
    | (intro _; rfl)
    | (intro _; simp; done)
    | (simp; assumption)
    | (refine .inr (fun _ => ?_); simp; done)
    | (refine .inr (fun _ => ?_); (repeat' split) <;> first | rfl | (simp; done))
    | (simp; done)

def State.litEdgeMask : Nat :=
  State.modKeepMask ||| State.lineEdgeMask ||| State.tabBurstMask ||| State.refuseUndefinedMask |||
    State.kxoEdgeMask ||| State.sysEdgeMask ||| Part.cyc.bit

theorem State.litEdge_touch {msk : Nat} {s0 : State} {s : State} (hk : Touch msk s0 s) (hm : Sub State.litEdgeMask msk) :
    Touch msk s0 (State.litEdge s) := by
  unfold State.litEdge
  try dsimp only
  repeat' (with_reducible first
    | assumption
    | exact Touch.refl
    | intro _
    | apply State.modKeep_touch
    | apply State.lineEdge_touch
    | apply State.tabBurst_touch
    | apply State.refuseUndefined_touch
    | apply State.kxoEdge_touch
    | apply State.sysEdge_touch
    | apply Touch.ite
    | (simp only [Touch.mk_iff]; apply TouchMk.intro)
    | split)
  all_goals with_reducible first
    | exact .inr rfl
    | exact Sub.trans (b := State.litEdgeMask) (by decide +kernel) hm
    | exact Has.sub (a := State.litEdgeMask) (by decide +kernel) hm
    | exact .inl (Has.sub (a := State.litEdgeMask) (by decide +kernel) hm)
    | exact Has.at (by decide) (Has.sub (a := State.litEdgeMask) (by decide +kernel) hm)
    | exact Has.cell (by decide) (Has.sub (a := State.litEdgeMask) (by decide +kernel) hm)
    | exact Has.cellNext (by decide) (Has.sub (a := State.litEdgeMask) (by decide +kernel) hm)
    | exact Has.ite (Has.sub (a := State.litEdgeMask) (by decide +kernel) hm) (Has.sub (a := State.litEdgeMask) (by decide +kernel) hm)
    | exact .inr (fun _ => rfl)
    | (intro _; rfl)
    | (intro _; simp; done)
    | (simp; assumption)
    | (refine .inr (fun _ => ?_); simp; done)
    | (refine .inr (fun _ => ?_); (repeat' split) <;> first | rfl | (simp; done))
    | (simp; done)

def State.idleMask : Nat :=
  settleMask ||| State.kaEdgeMask ||| State.litEdgeMask

theorem State.idle_touch {msk : Nat} {s0 : State} {s : State} (hk : Touch msk s0 s) (hm : Sub State.idleMask msk) :
    Touch msk s0 (State.idle s) := by
  unfold State.idle
  try dsimp only
  repeat' (with_reducible first
    | assumption
    | exact Touch.refl
    | intro _
    | apply settle_touch
    | apply State.kaEdge_touch
    | apply State.litEdge_touch
    | apply Touch.ite
    | split)
  all_goals with_reducible first
    | exact .inr rfl
    | exact Sub.trans (b := State.idleMask) (by decide +kernel) hm
    | exact Has.sub (a := State.idleMask) (by decide +kernel) hm
    | exact .inl (Has.sub (a := State.idleMask) (by decide +kernel) hm)
    | exact Has.at (by decide) (Has.sub (a := State.idleMask) (by decide +kernel) hm)
    | exact Has.cell (by decide) (Has.sub (a := State.idleMask) (by decide +kernel) hm)
    | exact Has.cellNext (by decide) (Has.sub (a := State.idleMask) (by decide +kernel) hm)
    | exact Has.ite (Has.sub (a := State.idleMask) (by decide +kernel) hm) (Has.sub (a := State.idleMask) (by decide +kernel) hm)
    | exact .inr (fun _ => rfl)
    | (intro _; rfl)
    | (intro _; simp; done)
    | (simp; assumption)
    | (refine .inr (fun _ => ?_); simp; done)
    | (refine .inr (fun _ => ?_); (repeat' split) <;> first | rfl | (simp; done))
    | (simp; done)

end Sys2Proof.Machine
end

