-- ==== Sys2Proof/Laws/TouchExec.lean ====
section
/-! SUPPORT. What each command may change: its mask, and the proof that it changes nothing else. -/

namespace Sys2Proof.Machine

set_option linter.unusedSimpArgs false
set_option Elab.async false

/-- The outcome, where it is a next state, differs from `s` at most in what the mask names. -/
def TouchOut (m : Nat) (s : State) (o : Host.Outcome State Fault Refusal) : Prop := ∀ t, o = .next t → Touch m s t

theorem TouchOut.done {m : Nat} {s u : State} (h : Touch m s u) (hs : Sub settleMask m) : TouchOut m s (done u) := by
  intro t e
  obtain rfl : settle u = t := by simpa [Machine.done] using e
  exact settle_touch h hs

theorem TouchOut.fault {m : Nat} {s : State} {r : Fault} : TouchOut m s (.fault r) := by
  intro t e
  simp at e

def execTimeSetMask : Nat :=
  State.onWriteMask ||| State.timCmdMask ||| settleMask

theorem execTimeSet_touch {msk : Nat} {p : Path} {s : State} (hm : Sub execTimeSetMask msk) : TouchOut msk s (execTimeSet p s) := by
  unfold execTimeSet
  try dsimp only
  repeat' (with_reducible first
    | assumption
    | exact TouchOut.fault
    | apply TouchOut.done
    | exact Touch.refl
    | intro _
    | apply State.onWrite_touch
    | apply State.timCmd_touch)
  all_goals with_reducible first
    | exact .inr rfl
    | exact Sub.trans (b := execTimeSetMask) (by decide +kernel) hm
    | exact Has.sub (a := execTimeSetMask) (by decide +kernel) hm
    | exact .inl (Has.sub (a := execTimeSetMask) (by decide +kernel) hm)
    | exact Has.at (by decide) (Has.sub (a := execTimeSetMask) (by decide +kernel) hm)
    | exact Has.cell (by decide) (Has.sub (a := execTimeSetMask) (by decide +kernel) hm)
    | exact Has.cellNext (by decide) (Has.sub (a := execTimeSetMask) (by decide +kernel) hm)
    | exact Has.ite (Has.sub (a := execTimeSetMask) (by decide +kernel) hm) (Has.sub (a := execTimeSetMask) (by decide +kernel) hm)
    | exact .inr (fun _ => rfl)
    | (intro _; rfl)
    | (intro _; simp; done)
    | (simp; assumption)
    | (refine .inr (fun _ => ?_); simp; done)
    | (refine .inr (fun _ => ?_); (repeat' split) <;> first | rfl | (simp; done))
    | (simp; done)

def execTimeSetcapMask : Nat :=
  State.onWriteMask ||| State.timCmdMask ||| settleMask

theorem execTimeSetcap_touch {msk : Nat} {p : Path} {s : State} (hm : Sub execTimeSetcapMask msk) : TouchOut msk s (execTimeSetcap p s) := by
  unfold execTimeSetcap
  try dsimp only
  repeat' (with_reducible first
    | assumption
    | exact TouchOut.fault
    | apply TouchOut.done
    | exact Touch.refl
    | intro _
    | apply State.onWrite_touch
    | apply State.timCmd_touch)
  all_goals with_reducible first
    | exact .inr rfl
    | exact Sub.trans (b := execTimeSetcapMask) (by decide +kernel) hm
    | exact Has.sub (a := execTimeSetcapMask) (by decide +kernel) hm
    | exact .inl (Has.sub (a := execTimeSetcapMask) (by decide +kernel) hm)
    | exact Has.at (by decide) (Has.sub (a := execTimeSetcapMask) (by decide +kernel) hm)
    | exact Has.cell (by decide) (Has.sub (a := execTimeSetcapMask) (by decide +kernel) hm)
    | exact Has.cellNext (by decide) (Has.sub (a := execTimeSetcapMask) (by decide +kernel) hm)
    | exact Has.ite (Has.sub (a := execTimeSetcapMask) (by decide +kernel) hm) (Has.sub (a := execTimeSetcapMask) (by decide +kernel) hm)
    | exact .inr (fun _ => rfl)
    | (intro _; rfl)
    | (intro _; simp; done)
    | (simp; assumption)
    | (refine .inr (fun _ => ?_); simp; done)
    | (refine .inr (fun _ => ?_); (repeat' split) <;> first | rfl | (simp; done))
    | (simp; done)

def execSetcapCancelMask : Nat :=
  State.onWriteMask ||| State.timCmdMask ||| settleMask

theorem execSetcapCancel_touch {msk : Nat} {p : Path} {s : State} (hm : Sub execSetcapCancelMask msk) : TouchOut msk s (execSetcapCancel p s) := by
  unfold execSetcapCancel
  try dsimp only
  repeat' (with_reducible first
    | assumption
    | exact TouchOut.fault
    | apply TouchOut.done
    | exact Touch.refl
    | intro _
    | apply State.onWrite_touch
    | apply State.timCmd_touch)
  all_goals with_reducible first
    | exact .inr rfl
    | exact Sub.trans (b := execSetcapCancelMask) (by decide +kernel) hm
    | exact Has.sub (a := execSetcapCancelMask) (by decide +kernel) hm
    | exact .inl (Has.sub (a := execSetcapCancelMask) (by decide +kernel) hm)
    | exact Has.at (by decide) (Has.sub (a := execSetcapCancelMask) (by decide +kernel) hm)
    | exact Has.cell (by decide) (Has.sub (a := execSetcapCancelMask) (by decide +kernel) hm)
    | exact Has.cellNext (by decide) (Has.sub (a := execSetcapCancelMask) (by decide +kernel) hm)
    | exact Has.ite (Has.sub (a := execSetcapCancelMask) (by decide +kernel) hm) (Has.sub (a := execSetcapCancelMask) (by decide +kernel) hm)
    | exact .inr (fun _ => rfl)
    | (intro _; rfl)
    | (intro _; simp; done)
    | (simp; assumption)
    | (refine .inr (fun _ => ?_); simp; done)
    | (refine .inr (fun _ => ?_); (repeat' split) <;> first | rfl | (simp; done))
    | (simp; done)

def execPpsLostMask : Nat :=
  State.postMask ||| State.timHeadNowMask ||| settleMask ||| rbit R.TIM_FLG

theorem execPpsLost_touch {msk : Nat} {s : State} (hm : Sub execPpsLostMask msk) : TouchOut msk s (execPpsLost s) := by
  unfold execPpsLost
  try dsimp only
  repeat' (with_reducible first
    | assumption
    | exact TouchOut.fault
    | apply TouchOut.done
    | exact Touch.refl
    | intro _
    | apply State.post_touch
    | apply State.timHeadNow_touch
    | apply State.setFlag_touch
    | apply Touch.ite
    | split)
  all_goals with_reducible first
    | exact .inr rfl
    | exact Sub.trans (b := execPpsLostMask) (by decide +kernel) hm
    | exact Has.sub (a := execPpsLostMask) (by decide +kernel) hm
    | exact .inl (Has.sub (a := execPpsLostMask) (by decide +kernel) hm)
    | exact Has.at (by decide) (Has.sub (a := execPpsLostMask) (by decide +kernel) hm)
    | exact Has.cell (by decide) (Has.sub (a := execPpsLostMask) (by decide +kernel) hm)
    | exact Has.cellNext (by decide) (Has.sub (a := execPpsLostMask) (by decide +kernel) hm)
    | exact Has.ite (Has.sub (a := execPpsLostMask) (by decide +kernel) hm) (Has.sub (a := execPpsLostMask) (by decide +kernel) hm)
    | exact .inr (fun _ => rfl)
    | (intro _; rfl)
    | (intro _; simp; done)
    | (simp; assumption)
    | (refine .inr (fun _ => ?_); simp; done)
    | (refine .inr (fun _ => ?_); (repeat' split) <;> first | rfl | (simp; done))
    | (simp; done)

def execHoldoverEntryMask : Nat :=
  State.timSetMask ||| settleMask

theorem execHoldoverEntry_touch {msk : Nat} {s : State} (hm : Sub execHoldoverEntryMask msk) : TouchOut msk s (execHoldoverEntry s) := by
  unfold execHoldoverEntry
  try dsimp only
  repeat' (with_reducible first
    | assumption
    | exact TouchOut.fault
    | apply TouchOut.done
    | exact Touch.refl
    | intro _
    | apply State.timSet_touch
    | apply Touch.ite
    | split)
  all_goals with_reducible first
    | exact .inr rfl
    | exact Sub.trans (b := execHoldoverEntryMask) (by decide +kernel) hm
    | exact Has.sub (a := execHoldoverEntryMask) (by decide +kernel) hm
    | exact .inl (Has.sub (a := execHoldoverEntryMask) (by decide +kernel) hm)
    | exact Has.at (by decide) (Has.sub (a := execHoldoverEntryMask) (by decide +kernel) hm)
    | exact Has.cell (by decide) (Has.sub (a := execHoldoverEntryMask) (by decide +kernel) hm)
    | exact Has.cellNext (by decide) (Has.sub (a := execHoldoverEntryMask) (by decide +kernel) hm)
    | exact Has.ite (Has.sub (a := execHoldoverEntryMask) (by decide +kernel) hm) (Has.sub (a := execHoldoverEntryMask) (by decide +kernel) hm)
    | exact .inr (fun _ => rfl)
    | (intro _; rfl)
    | (intro _; simp; done)
    | (simp; assumption)
    | (refine .inr (fun _ => ?_); simp; done)
    | (refine .inr (fun _ => ?_); (repeat' split) <;> first | rfl | (simp; done))
    | (simp; done)

def execAlarmArmMask : Nat :=
  State.onWriteMask ||| State.alarmWriteMask ||| settleMask

theorem execAlarmArm_touch {msk : Nat} {p : Path} {n : Fin 4} {v : Word} {s : State} (hm : Sub execAlarmArmMask msk) : TouchOut msk s (execAlarmArm p n v s) := by
  unfold execAlarmArm
  try dsimp only
  repeat' (with_reducible first
    | assumption
    | exact TouchOut.fault
    | apply TouchOut.done
    | exact Touch.refl
    | intro _
    | apply State.onWrite_touch
    | apply State.alarmWrite_touch)
  all_goals with_reducible first
    | exact .inr rfl
    | exact Sub.trans (b := execAlarmArmMask) (by decide +kernel) hm
    | exact Has.sub (a := execAlarmArmMask) (by decide +kernel) hm
    | exact .inl (Has.sub (a := execAlarmArmMask) (by decide +kernel) hm)
    | exact Has.at (by decide) (Has.sub (a := execAlarmArmMask) (by decide +kernel) hm)
    | exact Has.cell (by decide) (Has.sub (a := execAlarmArmMask) (by decide +kernel) hm)
    | exact Has.cellNext (by decide) (Has.sub (a := execAlarmArmMask) (by decide +kernel) hm)
    | exact Has.ite (Has.sub (a := execAlarmArmMask) (by decide +kernel) hm) (Has.sub (a := execAlarmArmMask) (by decide +kernel) hm)
    | exact .inr (fun _ => rfl)
    | (intro _; rfl)
    | (intro _; simp; done)
    | (simp; assumption)
    | (refine .inr (fun _ => ?_); simp; done)
    | (refine .inr (fun _ => ?_); (repeat' split) <;> first | rfl | (simp; done))
    | (simp; done)

def execAlarmFireMask : Nat :=
  State.alarmFireMask ||| settleMask

theorem execAlarmFire_touch {msk : Nat} {n : Fin 4} {s : State} (hm : Sub execAlarmFireMask msk) : TouchOut msk s (execAlarmFire n s) := by
  unfold execAlarmFire
  try dsimp only
  repeat' (with_reducible first
    | assumption
    | exact TouchOut.fault
    | apply TouchOut.done
    | exact Touch.refl
    | intro _
    | apply State.alarmFire_touch)
  all_goals with_reducible first
    | exact .inr rfl
    | exact Sub.trans (b := execAlarmFireMask) (by decide +kernel) hm
    | exact Has.sub (a := execAlarmFireMask) (by decide +kernel) hm
    | exact .inl (Has.sub (a := execAlarmFireMask) (by decide +kernel) hm)
    | exact Has.at (by decide) (Has.sub (a := execAlarmFireMask) (by decide +kernel) hm)
    | exact Has.cell (by decide) (Has.sub (a := execAlarmFireMask) (by decide +kernel) hm)
    | exact Has.cellNext (by decide) (Has.sub (a := execAlarmFireMask) (by decide +kernel) hm)
    | exact Has.ite (Has.sub (a := execAlarmFireMask) (by decide +kernel) hm) (Has.sub (a := execAlarmFireMask) (by decide +kernel) hm)
    | exact .inr (fun _ => rfl)
    | (intro _; rfl)
    | (intro _; simp; done)
    | (simp; assumption)
    | (refine .inr (fun _ => ?_); simp; done)
    | (refine .inr (fun _ => ?_); (repeat' split) <;> first | rfl | (simp; done))
    | (simp; done)

def execKaCalibrationWindowMask : Nat :=
  State.kaCalibrateMask ||| settleMask

theorem execKaCalibrationWindow_touch {msk : Nat} {s : State} (hm : Sub execKaCalibrationWindowMask msk) : TouchOut msk s (execKaCalibrationWindow s) := by
  unfold execKaCalibrationWindow
  try dsimp only
  repeat' (with_reducible first
    | assumption
    | exact TouchOut.fault
    | apply TouchOut.done
    | exact Touch.refl
    | intro _
    | apply State.kaCalibrate_touch)
  all_goals with_reducible first
    | exact .inr rfl
    | exact Sub.trans (b := execKaCalibrationWindowMask) (by decide +kernel) hm
    | exact Has.sub (a := execKaCalibrationWindowMask) (by decide +kernel) hm
    | exact .inl (Has.sub (a := execKaCalibrationWindowMask) (by decide +kernel) hm)
    | exact Has.at (by decide) (Has.sub (a := execKaCalibrationWindowMask) (by decide +kernel) hm)
    | exact Has.cell (by decide) (Has.sub (a := execKaCalibrationWindowMask) (by decide +kernel) hm)
    | exact Has.cellNext (by decide) (Has.sub (a := execKaCalibrationWindowMask) (by decide +kernel) hm)
    | exact Has.ite (Has.sub (a := execKaCalibrationWindowMask) (by decide +kernel) hm) (Has.sub (a := execKaCalibrationWindowMask) (by decide +kernel) hm)
    | exact .inr (fun _ => rfl)
    | (intro _; rfl)
    | (intro _; simp; done)
    | (simp; assumption)
    | (refine .inr (fun _ => ?_); simp; done)
    | (refine .inr (fun _ => ?_); (repeat' split) <;> first | rfl | (simp; done))
    | (simp; done)

def execTimSecReadMask : Nat :=
  State.readTimSecMask ||| settleMask

theorem execTimSecRead_touch {msk : Nat} {p : Path} {s : State} (hm : Sub execTimSecReadMask msk) : TouchOut msk s (execTimSecRead p s) := by
  unfold execTimSecRead
  try dsimp only
  repeat' (with_reducible first
    | assumption
    | exact TouchOut.fault
    | apply TouchOut.done
    | exact Touch.refl
    | intro _
    | apply State.readTimSec_touch
    | apply Touch.ite
    | split)
  all_goals with_reducible first
    | exact .inr rfl
    | exact Sub.trans (b := execTimSecReadMask) (by decide +kernel) hm
    | exact Has.sub (a := execTimSecReadMask) (by decide +kernel) hm
    | exact .inl (Has.sub (a := execTimSecReadMask) (by decide +kernel) hm)
    | exact Has.at (by decide) (Has.sub (a := execTimSecReadMask) (by decide +kernel) hm)
    | exact Has.cell (by decide) (Has.sub (a := execTimSecReadMask) (by decide +kernel) hm)
    | exact Has.cellNext (by decide) (Has.sub (a := execTimSecReadMask) (by decide +kernel) hm)
    | exact Has.ite (Has.sub (a := execTimSecReadMask) (by decide +kernel) hm) (Has.sub (a := execTimSecReadMask) (by decide +kernel) hm)
    | exact .inr (fun _ => rfl)
    | (intro _; rfl)
    | (intro _; simp; done)
    | (simp; assumption)
    | (refine .inr (fun _ => ?_); simp; done)
    | (refine .inr (fun _ => ?_); (repeat' split) <;> first | rfl | (simp; done))
    | (simp; done)

def execScheduleMinuteMask : Nat :=
  State.minutesDueMask ||| settleMask

theorem execScheduleMinute_touch {msk : Nat} {s : State} (hm : Sub execScheduleMinuteMask msk) : TouchOut msk s (execScheduleMinute s) := by
  unfold execScheduleMinute
  try dsimp only
  repeat' (with_reducible first
    | assumption
    | exact TouchOut.fault
    | apply TouchOut.done
    | exact Touch.refl
    | intro _
    | apply State.minutesDue_touch)
  all_goals with_reducible first
    | exact .inr rfl
    | exact Sub.trans (b := execScheduleMinuteMask) (by decide +kernel) hm
    | exact Has.sub (a := execScheduleMinuteMask) (by decide +kernel) hm
    | exact .inl (Has.sub (a := execScheduleMinuteMask) (by decide +kernel) hm)
    | exact Has.at (by decide) (Has.sub (a := execScheduleMinuteMask) (by decide +kernel) hm)
    | exact Has.cell (by decide) (Has.sub (a := execScheduleMinuteMask) (by decide +kernel) hm)
    | exact Has.cellNext (by decide) (Has.sub (a := execScheduleMinuteMask) (by decide +kernel) hm)
    | exact Has.ite (Has.sub (a := execScheduleMinuteMask) (by decide +kernel) hm) (Has.sub (a := execScheduleMinuteMask) (by decide +kernel) hm)
    | exact .inr (fun _ => rfl)
    | (intro _; rfl)
    | (intro _; simp; done)
    | (simp; assumption)
    | (refine .inr (fun _ => ?_); simp; done)
    | (refine .inr (fun _ => ?_); (repeat' split) <;> first | rfl | (simp; done))
    | (simp; done)

def execTimedStartDueMask : Nat :=
  settleMask ||| Part.fde.bit

theorem execTimedStartDue_touch {msk : Nat} {l : Fin 8} {s : State} (hm : Sub execTimedStartDueMask msk) : TouchOut msk s (execTimedStartDue l s) := by
  unfold execTimedStartDue
  try dsimp only
  repeat' (with_reducible first
    | assumption
    | exact TouchOut.fault
    | apply TouchOut.done
    | exact Touch.refl
    | intro _
    | apply Touch.modFlamp
    | (refine Touch.ofEq (by assumption) ?_)
    | apply Touch.ite
    | split)
  all_goals with_reducible first
    | exact .inr rfl
    | exact Sub.trans (b := execTimedStartDueMask) (by decide +kernel) hm
    | exact Has.sub (a := execTimedStartDueMask) (by decide +kernel) hm
    | exact .inl (Has.sub (a := execTimedStartDueMask) (by decide +kernel) hm)
    | exact Has.at (by decide) (Has.sub (a := execTimedStartDueMask) (by decide +kernel) hm)
    | exact Has.cell (by decide) (Has.sub (a := execTimedStartDueMask) (by decide +kernel) hm)
    | exact Has.cellNext (by decide) (Has.sub (a := execTimedStartDueMask) (by decide +kernel) hm)
    | exact Has.ite (Has.sub (a := execTimedStartDueMask) (by decide +kernel) hm) (Has.sub (a := execTimedStartDueMask) (by decide +kernel) hm)
    | exact .inr (fun _ => rfl)
    | (intro _; rfl)
    | (intro _; simp; done)
    | (simp; assumption)
    | (refine .inr (fun _ => ?_); simp; done)
    | (refine .inr (fun _ => ?_); (repeat' split) <;> first | rfl | (simp; done))
    | (simp; done)

def execSlotHoldExpiryMask : Nat :=
  State.holdEndMask ||| settleMask

theorem execSlotHoldExpiry_touch {msk : Nat} {l : Fin 8} {lvl : Fin 8} {s : State} (hm : Sub execSlotHoldExpiryMask msk) : TouchOut msk s (execSlotHoldExpiry l lvl s) := by
  unfold execSlotHoldExpiry
  try dsimp only
  repeat' (with_reducible first
    | assumption
    | exact TouchOut.fault
    | apply TouchOut.done
    | exact Touch.refl
    | intro _
    | apply State.holdEnd_touch)
  all_goals with_reducible first
    | exact .inr rfl
    | exact Sub.trans (b := execSlotHoldExpiryMask) (by decide +kernel) hm
    | exact Has.sub (a := execSlotHoldExpiryMask) (by decide +kernel) hm
    | exact .inl (Has.sub (a := execSlotHoldExpiryMask) (by decide +kernel) hm)
    | exact Has.at (by decide) (Has.sub (a := execSlotHoldExpiryMask) (by decide +kernel) hm)
    | exact Has.cell (by decide) (Has.sub (a := execSlotHoldExpiryMask) (by decide +kernel) hm)
    | exact Has.cellNext (by decide) (Has.sub (a := execSlotHoldExpiryMask) (by decide +kernel) hm)
    | exact Has.ite (Has.sub (a := execSlotHoldExpiryMask) (by decide +kernel) hm) (Has.sub (a := execSlotHoldExpiryMask) (by decide +kernel) hm)
    | exact .inr (fun _ => rfl)
    | (intro _; rfl)
    | (intro _; simp; done)
    | (simp; assumption)
    | (refine .inr (fun _ => ?_); simp; done)
    | (refine .inr (fun _ => ?_); (repeat' split) <;> first | rfl | (simp; done))
    | (simp; done)

def execRuleHoldEndMask : Nat :=
  State.ruleHoldEndMask ||| settleMask

theorem execRuleHoldEnd_touch {msk : Nat} {r : Fin 32} {s : State} (hm : Sub execRuleHoldEndMask msk) : TouchOut msk s (execRuleHoldEnd r s) := by
  unfold execRuleHoldEnd
  try dsimp only
  repeat' (with_reducible first
    | assumption
    | exact TouchOut.fault
    | apply TouchOut.done
    | exact Touch.refl
    | intro _
    | apply State.ruleHoldEnd_touch)
  all_goals with_reducible first
    | exact .inr rfl
    | exact Sub.trans (b := execRuleHoldEndMask) (by decide +kernel) hm
    | exact Has.sub (a := execRuleHoldEndMask) (by decide +kernel) hm
    | exact .inl (Has.sub (a := execRuleHoldEndMask) (by decide +kernel) hm)
    | exact Has.at (by decide) (Has.sub (a := execRuleHoldEndMask) (by decide +kernel) hm)
    | exact Has.cell (by decide) (Has.sub (a := execRuleHoldEndMask) (by decide +kernel) hm)
    | exact Has.cellNext (by decide) (Has.sub (a := execRuleHoldEndMask) (by decide +kernel) hm)
    | exact Has.ite (Has.sub (a := execRuleHoldEndMask) (by decide +kernel) hm) (Has.sub (a := execRuleHoldEndMask) (by decide +kernel) hm)
    | exact .inr (fun _ => rfl)
    | (intro _; rfl)
    | (intro _; simp; done)
    | (simp; assumption)
    | (refine .inr (fun _ => ?_); simp; done)
    | (refine .inr (fun _ => ?_); (repeat' split) <;> first | rfl | (simp; done))
    | (simp; done)

def execGestureHoldExpiryMask : Nat :=
  State.slotEmptyMask ||| settleMask

theorem execGestureHoldExpiry_touch {msk : Nat} {l : Fin 8} {s : State} (hm : Sub execGestureHoldExpiryMask msk) : TouchOut msk s (execGestureHoldExpiry l s) := by
  unfold execGestureHoldExpiry
  try dsimp only
  repeat' (with_reducible first
    | assumption
    | exact TouchOut.fault
    | apply TouchOut.done
    | exact Touch.refl
    | intro _
    | apply State.slotEmpty_touch
    | (refine Touch.ofEq (by assumption) ?_)
    | apply Touch.ite
    | split)
  all_goals with_reducible first
    | exact .inr rfl
    | exact Sub.trans (b := execGestureHoldExpiryMask) (by decide +kernel) hm
    | exact Has.sub (a := execGestureHoldExpiryMask) (by decide +kernel) hm
    | exact .inl (Has.sub (a := execGestureHoldExpiryMask) (by decide +kernel) hm)
    | exact Has.at (by decide) (Has.sub (a := execGestureHoldExpiryMask) (by decide +kernel) hm)
    | exact Has.cell (by decide) (Has.sub (a := execGestureHoldExpiryMask) (by decide +kernel) hm)
    | exact Has.cellNext (by decide) (Has.sub (a := execGestureHoldExpiryMask) (by decide +kernel) hm)
    | exact Has.ite (Has.sub (a := execGestureHoldExpiryMask) (by decide +kernel) hm) (Has.sub (a := execGestureHoldExpiryMask) (by decide +kernel) hm)
    | exact .inr (fun _ => rfl)
    | (intro _; rfl)
    | (intro _; simp; done)
    | (simp; assumption)
    | (refine .inr (fun _ => ?_); simp; done)
    | (refine .inr (fun _ => ?_); (repeat' split) <;> first | rfl | (simp; done))
    | (simp; done)

def execLossEntryMask : Nat :=
  State.lossEnterMask ||| settleMask

theorem execLossEntry_touch {msk : Nat} {s : State} (hm : Sub execLossEntryMask msk) : TouchOut msk s (execLossEntry s) := by
  unfold execLossEntry
  try dsimp only
  repeat' (with_reducible first
    | assumption
    | exact TouchOut.fault
    | apply TouchOut.done
    | exact Touch.refl
    | intro _
    | apply State.lossEnter_touch)
  all_goals with_reducible first
    | exact .inr rfl
    | exact Sub.trans (b := execLossEntryMask) (by decide +kernel) hm
    | exact Has.sub (a := execLossEntryMask) (by decide +kernel) hm
    | exact .inl (Has.sub (a := execLossEntryMask) (by decide +kernel) hm)
    | exact Has.at (by decide) (Has.sub (a := execLossEntryMask) (by decide +kernel) hm)
    | exact Has.cell (by decide) (Has.sub (a := execLossEntryMask) (by decide +kernel) hm)
    | exact Has.cellNext (by decide) (Has.sub (a := execLossEntryMask) (by decide +kernel) hm)
    | exact Has.ite (Has.sub (a := execLossEntryMask) (by decide +kernel) hm) (Has.sub (a := execLossEntryMask) (by decide +kernel) hm)
    | exact .inr (fun _ => rfl)
    | (intro _; rfl)
    | (intro _; simp; done)
    | (simp; assumption)
    | (refine .inr (fun _ => ?_); simp; done)
    | (refine .inr (fun _ => ?_); (repeat' split) <;> first | rfl | (simp; done))
    | (simp; done)

def execFdeRcmdApplyMask : Nat :=
  State.onWriteMask ||| State.rcmdMask ||| settleMask

theorem execFdeRcmdApply_touch {msk : Nat} {p : Path} {s : State} (hm : Sub execFdeRcmdApplyMask msk) : TouchOut msk s (execFdeRcmdApply p s) := by
  unfold execFdeRcmdApply
  try dsimp only
  repeat' (with_reducible first
    | assumption
    | exact TouchOut.fault
    | apply TouchOut.done
    | exact Touch.refl
    | intro _
    | apply State.onWrite_touch
    | apply State.rcmd_touch)
  all_goals with_reducible first
    | exact .inr rfl
    | exact Sub.trans (b := execFdeRcmdApplyMask) (by decide +kernel) hm
    | exact Has.sub (a := execFdeRcmdApplyMask) (by decide +kernel) hm
    | exact .inl (Has.sub (a := execFdeRcmdApplyMask) (by decide +kernel) hm)
    | exact Has.at (by decide) (Has.sub (a := execFdeRcmdApplyMask) (by decide +kernel) hm)
    | exact Has.cell (by decide) (Has.sub (a := execFdeRcmdApplyMask) (by decide +kernel) hm)
    | exact Has.cellNext (by decide) (Has.sub (a := execFdeRcmdApplyMask) (by decide +kernel) hm)
    | exact Has.ite (Has.sub (a := execFdeRcmdApplyMask) (by decide +kernel) hm) (Has.sub (a := execFdeRcmdApplyMask) (by decide +kernel) hm)
    | exact .inr (fun _ => rfl)
    | (intro _; rfl)
    | (intro _; simp; done)
    | (simp; assumption)
    | (refine .inr (fun _ => ?_); simp; done)
    | (refine .inr (fun _ => ?_); (repeat' split) <;> first | rfl | (simp; done))
    | (simp; done)

def execFdeRcmdApplyAtMask : Nat :=
  State.onWriteMask ||| State.rcmdMask ||| settleMask

theorem execFdeRcmdApplyAt_touch {msk : Nat} {p : Path} {s : State} (hm : Sub execFdeRcmdApplyAtMask msk) : TouchOut msk s (execFdeRcmdApplyAt p s) := by
  unfold execFdeRcmdApplyAt
  try dsimp only
  repeat' (with_reducible first
    | assumption
    | exact TouchOut.fault
    | apply TouchOut.done
    | exact Touch.refl
    | intro _
    | apply State.onWrite_touch
    | apply State.rcmd_touch)
  all_goals with_reducible first
    | exact .inr rfl
    | exact Sub.trans (b := execFdeRcmdApplyAtMask) (by decide +kernel) hm
    | exact Has.sub (a := execFdeRcmdApplyAtMask) (by decide +kernel) hm
    | exact .inl (Has.sub (a := execFdeRcmdApplyAtMask) (by decide +kernel) hm)
    | exact Has.at (by decide) (Has.sub (a := execFdeRcmdApplyAtMask) (by decide +kernel) hm)
    | exact Has.cell (by decide) (Has.sub (a := execFdeRcmdApplyAtMask) (by decide +kernel) hm)
    | exact Has.cellNext (by decide) (Has.sub (a := execFdeRcmdApplyAtMask) (by decide +kernel) hm)
    | exact Has.ite (Has.sub (a := execFdeRcmdApplyAtMask) (by decide +kernel) hm) (Has.sub (a := execFdeRcmdApplyAtMask) (by decide +kernel) hm)
    | exact .inr (fun _ => rfl)
    | (intro _; rfl)
    | (intro _; simp; done)
    | (simp; assumption)
    | (refine .inr (fun _ => ?_); simp; done)
    | (refine .inr (fun _ => ?_); (repeat' split) <;> first | rfl | (simp; done))
    | (simp; done)

def execFdeRcmdApplyEvrMask : Nat :=
  State.onWriteMask ||| State.rcmdMask ||| settleMask

theorem execFdeRcmdApplyEvr_touch {msk : Nat} {p : Path} {s : State} (hm : Sub execFdeRcmdApplyEvrMask msk) : TouchOut msk s (execFdeRcmdApplyEvr p s) := by
  unfold execFdeRcmdApplyEvr
  try dsimp only
  repeat' (with_reducible first
    | assumption
    | exact TouchOut.fault
    | apply TouchOut.done
    | exact Touch.refl
    | intro _
    | apply State.onWrite_touch
    | apply State.rcmd_touch)
  all_goals with_reducible first
    | exact .inr rfl
    | exact Sub.trans (b := execFdeRcmdApplyEvrMask) (by decide +kernel) hm
    | exact Has.sub (a := execFdeRcmdApplyEvrMask) (by decide +kernel) hm
    | exact .inl (Has.sub (a := execFdeRcmdApplyEvrMask) (by decide +kernel) hm)
    | exact Has.at (by decide) (Has.sub (a := execFdeRcmdApplyEvrMask) (by decide +kernel) hm)
    | exact Has.cell (by decide) (Has.sub (a := execFdeRcmdApplyEvrMask) (by decide +kernel) hm)
    | exact Has.cellNext (by decide) (Has.sub (a := execFdeRcmdApplyEvrMask) (by decide +kernel) hm)
    | exact Has.ite (Has.sub (a := execFdeRcmdApplyEvrMask) (by decide +kernel) hm) (Has.sub (a := execFdeRcmdApplyEvrMask) (by decide +kernel) hm)
    | exact .inr (fun _ => rfl)
    | (intro _; rfl)
    | (intro _; simp; done)
    | (simp; assumption)
    | (refine .inr (fun _ => ?_); simp; done)
    | (refine .inr (fun _ => ?_); (repeat' split) <;> first | rfl | (simp; done))
    | (simp; done)

def execFdeRcmdPlateMask : Nat :=
  State.onWriteMask ||| State.rcmdMask ||| settleMask

theorem execFdeRcmdPlate_touch {msk : Nat} {p : Path} {plate : Byte} {s : State} (hm : Sub execFdeRcmdPlateMask msk) : TouchOut msk s (execFdeRcmdPlate p plate s) := by
  unfold execFdeRcmdPlate
  try dsimp only
  repeat' (with_reducible first
    | assumption
    | exact TouchOut.fault
    | apply TouchOut.done
    | exact Touch.refl
    | intro _
    | apply State.onWrite_touch
    | apply State.rcmd_touch)
  all_goals with_reducible first
    | exact .inr rfl
    | exact Sub.trans (b := execFdeRcmdPlateMask) (by decide +kernel) hm
    | exact Has.sub (a := execFdeRcmdPlateMask) (by decide +kernel) hm
    | exact .inl (Has.sub (a := execFdeRcmdPlateMask) (by decide +kernel) hm)
    | exact Has.at (by decide) (Has.sub (a := execFdeRcmdPlateMask) (by decide +kernel) hm)
    | exact Has.cell (by decide) (Has.sub (a := execFdeRcmdPlateMask) (by decide +kernel) hm)
    | exact Has.cellNext (by decide) (Has.sub (a := execFdeRcmdPlateMask) (by decide +kernel) hm)
    | exact Has.ite (Has.sub (a := execFdeRcmdPlateMask) (by decide +kernel) hm) (Has.sub (a := execFdeRcmdPlateMask) (by decide +kernel) hm)
    | exact .inr (fun _ => rfl)
    | (intro _; rfl)
    | (intro _; simp; done)
    | (simp; assumption)
    | (refine .inr (fun _ => ?_); simp; done)
    | (refine .inr (fun _ => ?_); (repeat' split) <;> first | rfl | (simp; done))
    | (simp; done)

def execFdeRcmdPlateAtMask : Nat :=
  State.onWriteMask ||| State.rcmdMask ||| settleMask

theorem execFdeRcmdPlateAt_touch {msk : Nat} {p : Path} {plate : Byte} {s : State} (hm : Sub execFdeRcmdPlateAtMask msk) : TouchOut msk s (execFdeRcmdPlateAt p plate s) := by
  unfold execFdeRcmdPlateAt
  try dsimp only
  repeat' (with_reducible first
    | assumption
    | exact TouchOut.fault
    | apply TouchOut.done
    | exact Touch.refl
    | intro _
    | apply State.onWrite_touch
    | apply State.rcmd_touch)
  all_goals with_reducible first
    | exact .inr rfl
    | exact Sub.trans (b := execFdeRcmdPlateAtMask) (by decide +kernel) hm
    | exact Has.sub (a := execFdeRcmdPlateAtMask) (by decide +kernel) hm
    | exact .inl (Has.sub (a := execFdeRcmdPlateAtMask) (by decide +kernel) hm)
    | exact Has.at (by decide) (Has.sub (a := execFdeRcmdPlateAtMask) (by decide +kernel) hm)
    | exact Has.cell (by decide) (Has.sub (a := execFdeRcmdPlateAtMask) (by decide +kernel) hm)
    | exact Has.cellNext (by decide) (Has.sub (a := execFdeRcmdPlateAtMask) (by decide +kernel) hm)
    | exact Has.ite (Has.sub (a := execFdeRcmdPlateAtMask) (by decide +kernel) hm) (Has.sub (a := execFdeRcmdPlateAtMask) (by decide +kernel) hm)
    | exact .inr (fun _ => rfl)
    | (intro _; rfl)
    | (intro _; simp; done)
    | (simp; assumption)
    | (refine .inr (fun _ => ?_); simp; done)
    | (refine .inr (fun _ => ?_); (repeat' split) <;> first | rfl | (simp; done))
    | (simp; done)

def execFdeRcmdPlateEvrMask : Nat :=
  State.onWriteMask ||| State.rcmdMask ||| settleMask

theorem execFdeRcmdPlateEvr_touch {msk : Nat} {p : Path} {plate : Byte} {s : State} (hm : Sub execFdeRcmdPlateEvrMask msk) : TouchOut msk s (execFdeRcmdPlateEvr p plate s) := by
  unfold execFdeRcmdPlateEvr
  try dsimp only
  repeat' (with_reducible first
    | assumption
    | exact TouchOut.fault
    | apply TouchOut.done
    | exact Touch.refl
    | intro _
    | apply State.onWrite_touch
    | apply State.rcmd_touch)
  all_goals with_reducible first
    | exact .inr rfl
    | exact Sub.trans (b := execFdeRcmdPlateEvrMask) (by decide +kernel) hm
    | exact Has.sub (a := execFdeRcmdPlateEvrMask) (by decide +kernel) hm
    | exact .inl (Has.sub (a := execFdeRcmdPlateEvrMask) (by decide +kernel) hm)
    | exact Has.at (by decide) (Has.sub (a := execFdeRcmdPlateEvrMask) (by decide +kernel) hm)
    | exact Has.cell (by decide) (Has.sub (a := execFdeRcmdPlateEvrMask) (by decide +kernel) hm)
    | exact Has.cellNext (by decide) (Has.sub (a := execFdeRcmdPlateEvrMask) (by decide +kernel) hm)
    | exact Has.ite (Has.sub (a := execFdeRcmdPlateEvrMask) (by decide +kernel) hm) (Has.sub (a := execFdeRcmdPlateEvrMask) (by decide +kernel) hm)
    | exact .inr (fun _ => rfl)
    | (intro _; rfl)
    | (intro _; simp; done)
    | (simp; assumption)
    | (refine .inr (fun _ => ?_); simp; done)
    | (refine .inr (fun _ => ?_); (repeat' split) <;> first | rfl | (simp; done))
    | (simp; done)

def execFdeRcmdReleaseMask : Nat :=
  State.onWriteMask ||| State.rcmdMask ||| settleMask

theorem execFdeRcmdRelease_touch {msk : Nat} {p : Path} {s : State} (hm : Sub execFdeRcmdReleaseMask msk) : TouchOut msk s (execFdeRcmdRelease p s) := by
  unfold execFdeRcmdRelease
  try dsimp only
  repeat' (with_reducible first
    | assumption
    | exact TouchOut.fault
    | apply TouchOut.done
    | exact Touch.refl
    | intro _
    | apply State.onWrite_touch
    | apply State.rcmd_touch)
  all_goals with_reducible first
    | exact .inr rfl
    | exact Sub.trans (b := execFdeRcmdReleaseMask) (by decide +kernel) hm
    | exact Has.sub (a := execFdeRcmdReleaseMask) (by decide +kernel) hm
    | exact .inl (Has.sub (a := execFdeRcmdReleaseMask) (by decide +kernel) hm)
    | exact Has.at (by decide) (Has.sub (a := execFdeRcmdReleaseMask) (by decide +kernel) hm)
    | exact Has.cell (by decide) (Has.sub (a := execFdeRcmdReleaseMask) (by decide +kernel) hm)
    | exact Has.cellNext (by decide) (Has.sub (a := execFdeRcmdReleaseMask) (by decide +kernel) hm)
    | exact Has.ite (Has.sub (a := execFdeRcmdReleaseMask) (by decide +kernel) hm) (Has.sub (a := execFdeRcmdReleaseMask) (by decide +kernel) hm)
    | exact .inr (fun _ => rfl)
    | (intro _; rfl)
    | (intro _; simp; done)
    | (simp; assumption)
    | (refine .inr (fun _ => ?_); simp; done)
    | (refine .inr (fun _ => ?_); (repeat' split) <;> first | rfl | (simp; done))
    | (simp; done)

def execFdeTabOpenMask : Nat :=
  State.onWriteMask ||| State.fdeOpenMask ||| settleMask

theorem execFdeTabOpen_touch {msk : Nat} {p : Path} {s : State} (hm : Sub execFdeTabOpenMask msk) : TouchOut msk s (execFdeTabOpen p s) := by
  unfold execFdeTabOpen
  try dsimp only
  repeat' (with_reducible first
    | assumption
    | exact TouchOut.fault
    | apply TouchOut.done
    | exact Touch.refl
    | intro _
    | apply State.onWrite_touch
    | apply State.fdeOpen_touch
    | apply Touch.ite
    | split)
  all_goals with_reducible first
    | exact .inr rfl
    | exact Sub.trans (b := execFdeTabOpenMask) (by decide +kernel) hm
    | exact Has.sub (a := execFdeTabOpenMask) (by decide +kernel) hm
    | exact .inl (Has.sub (a := execFdeTabOpenMask) (by decide +kernel) hm)
    | exact Has.at (by decide) (Has.sub (a := execFdeTabOpenMask) (by decide +kernel) hm)
    | exact Has.cell (by decide) (Has.sub (a := execFdeTabOpenMask) (by decide +kernel) hm)
    | exact Has.cellNext (by decide) (Has.sub (a := execFdeTabOpenMask) (by decide +kernel) hm)
    | exact Has.ite (Has.sub (a := execFdeTabOpenMask) (by decide +kernel) hm) (Has.sub (a := execFdeTabOpenMask) (by decide +kernel) hm)
    | exact .inr (fun _ => rfl)
    | (intro _; rfl)
    | (intro _; simp; done)
    | (simp; assumption)
    | (refine .inr (fun _ => ?_); simp; done)
    | (refine .inr (fun _ => ?_); (repeat' split) <;> first | rfl | (simp; done))
    | (simp; done)

def execFdeTabCloseMask : Nat :=
  State.onWriteMask ||| State.fdeCloseMask ||| settleMask

theorem execFdeTabClose_touch {msk : Nat} {p : Path} {s : State} (hm : Sub execFdeTabCloseMask msk) : TouchOut msk s (execFdeTabClose p s) := by
  unfold execFdeTabClose
  try dsimp only
  repeat' (with_reducible first
    | assumption
    | exact TouchOut.fault
    | apply TouchOut.done
    | exact Touch.refl
    | intro _
    | apply State.onWrite_touch
    | apply State.fdeClose_touch
    | apply Touch.ite
    | split)
  all_goals with_reducible first
    | exact .inr rfl
    | exact Sub.trans (b := execFdeTabCloseMask) (by decide +kernel) hm
    | exact Has.sub (a := execFdeTabCloseMask) (by decide +kernel) hm
    | exact .inl (Has.sub (a := execFdeTabCloseMask) (by decide +kernel) hm)
    | exact Has.at (by decide) (Has.sub (a := execFdeTabCloseMask) (by decide +kernel) hm)
    | exact Has.cell (by decide) (Has.sub (a := execFdeTabCloseMask) (by decide +kernel) hm)
    | exact Has.cellNext (by decide) (Has.sub (a := execFdeTabCloseMask) (by decide +kernel) hm)
    | exact Has.ite (Has.sub (a := execFdeTabCloseMask) (by decide +kernel) hm) (Has.sub (a := execFdeTabCloseMask) (by decide +kernel) hm)
    | exact .inr (fun _ => rfl)
    | (intro _; rfl)
    | (intro _; simp; done)
    | (simp; assumption)
    | (refine .inr (fun _ => ?_); simp; done)
    | (refine .inr (fun _ => ?_); (repeat' split) <;> first | rfl | (simp; done))
    | (simp; done)

def execLmpMapWriteMask : Nat :=
  State.onWriteMask ||| State.lmpMapWriteMask ||| settleMask

theorem execLmpMapWrite_touch {msk : Nat} {p : Path} {v : Word} {s : State} (hm : Sub execLmpMapWriteMask msk) : TouchOut msk s (execLmpMapWrite p v s) := by
  unfold execLmpMapWrite
  try dsimp only
  repeat' (with_reducible first
    | assumption
    | exact TouchOut.fault
    | apply TouchOut.done
    | exact Touch.refl
    | intro _
    | apply State.onWrite_touch
    | apply State.lmpMapWrite_touch
    | apply Touch.ite
    | split)
  all_goals with_reducible first
    | exact .inr rfl
    | exact Sub.trans (b := execLmpMapWriteMask) (by decide +kernel) hm
    | exact Has.sub (a := execLmpMapWriteMask) (by decide +kernel) hm
    | exact .inl (Has.sub (a := execLmpMapWriteMask) (by decide +kernel) hm)
    | exact Has.at (by decide) (Has.sub (a := execLmpMapWriteMask) (by decide +kernel) hm)
    | exact Has.cell (by decide) (Has.sub (a := execLmpMapWriteMask) (by decide +kernel) hm)
    | exact Has.cellNext (by decide) (Has.sub (a := execLmpMapWriteMask) (by decide +kernel) hm)
    | exact Has.ite (Has.sub (a := execLmpMapWriteMask) (by decide +kernel) hm) (Has.sub (a := execLmpMapWriteMask) (by decide +kernel) hm)
    | exact .inr (fun _ => rfl)
    | (intro _; rfl)
    | (intro _; simp; done)
    | (simp; assumption)
    | (refine .inr (fun _ => ?_); simp; done)
    | (refine .inr (fun _ => ?_); (repeat' split) <;> first | rfl | (simp; done))
    | (simp; done)

def execLmpCfgWriteMask : Nat :=
  State.onWriteMask ||| State.lmpCfgWriteMask ||| settleMask

theorem execLmpCfgWrite_touch {msk : Nat} {p : Path} {v : Word} {s : State} (hm : Sub execLmpCfgWriteMask msk) : TouchOut msk s (execLmpCfgWrite p v s) := by
  unfold execLmpCfgWrite
  try dsimp only
  repeat' (with_reducible first
    | assumption
    | exact TouchOut.fault
    | apply TouchOut.done
    | exact Touch.refl
    | intro _
    | apply State.onWrite_touch
    | apply State.lmpCfgWrite_touch
    | apply Touch.ite
    | split)
  all_goals with_reducible first
    | exact .inr rfl
    | exact Sub.trans (b := execLmpCfgWriteMask) (by decide +kernel) hm
    | exact Has.sub (a := execLmpCfgWriteMask) (by decide +kernel) hm
    | exact .inl (Has.sub (a := execLmpCfgWriteMask) (by decide +kernel) hm)
    | exact Has.at (by decide) (Has.sub (a := execLmpCfgWriteMask) (by decide +kernel) hm)
    | exact Has.cell (by decide) (Has.sub (a := execLmpCfgWriteMask) (by decide +kernel) hm)
    | exact Has.cellNext (by decide) (Has.sub (a := execLmpCfgWriteMask) (by decide +kernel) hm)
    | exact Has.ite (Has.sub (a := execLmpCfgWriteMask) (by decide +kernel) hm) (Has.sub (a := execLmpCfgWriteMask) (by decide +kernel) hm)
    | exact .inr (fun _ => rfl)
    | (intro _; rfl)
    | (intro _; simp; done)
    | (simp; assumption)
    | (refine .inr (fun _ => ?_); simp; done)
    | (refine .inr (fun _ => ?_); (repeat' split) <;> first | rfl | (simp; done))
    | (simp; done)

def execLmpTabOpenMask : Nat :=
  State.onWriteMask ||| State.lmpOpenMask ||| settleMask

theorem execLmpTabOpen_touch {msk : Nat} {p : Path} {s : State} (hm : Sub execLmpTabOpenMask msk) : TouchOut msk s (execLmpTabOpen p s) := by
  unfold execLmpTabOpen
  try dsimp only
  repeat' (with_reducible first
    | assumption
    | exact TouchOut.fault
    | apply TouchOut.done
    | exact Touch.refl
    | intro _
    | apply State.onWrite_touch
    | apply State.lmpOpen_touch
    | apply Touch.ite
    | split)
  all_goals with_reducible first
    | exact .inr rfl
    | exact Sub.trans (b := execLmpTabOpenMask) (by decide +kernel) hm
    | exact Has.sub (a := execLmpTabOpenMask) (by decide +kernel) hm
    | exact .inl (Has.sub (a := execLmpTabOpenMask) (by decide +kernel) hm)
    | exact Has.at (by decide) (Has.sub (a := execLmpTabOpenMask) (by decide +kernel) hm)
    | exact Has.cell (by decide) (Has.sub (a := execLmpTabOpenMask) (by decide +kernel) hm)
    | exact Has.cellNext (by decide) (Has.sub (a := execLmpTabOpenMask) (by decide +kernel) hm)
    | exact Has.ite (Has.sub (a := execLmpTabOpenMask) (by decide +kernel) hm) (Has.sub (a := execLmpTabOpenMask) (by decide +kernel) hm)
    | exact .inr (fun _ => rfl)
    | (intro _; rfl)
    | (intro _; simp; done)
    | (simp; assumption)
    | (refine .inr (fun _ => ?_); simp; done)
    | (refine .inr (fun _ => ?_); (repeat' split) <;> first | rfl | (simp; done))
    | (simp; done)

def execLmpTabCloseMask : Nat :=
  State.onWriteMask ||| State.lmpCloseMask ||| settleMask

theorem execLmpTabClose_touch {msk : Nat} {p : Path} {s : State} (hm : Sub execLmpTabCloseMask msk) : TouchOut msk s (execLmpTabClose p s) := by
  unfold execLmpTabClose
  try dsimp only
  repeat' (with_reducible first
    | assumption
    | exact TouchOut.fault
    | apply TouchOut.done
    | exact Touch.refl
    | intro _
    | apply State.onWrite_touch
    | apply State.lmpClose_touch
    | apply Touch.ite
    | split)
  all_goals with_reducible first
    | exact .inr rfl
    | exact Sub.trans (b := execLmpTabCloseMask) (by decide +kernel) hm
    | exact Has.sub (a := execLmpTabCloseMask) (by decide +kernel) hm
    | exact .inl (Has.sub (a := execLmpTabCloseMask) (by decide +kernel) hm)
    | exact Has.at (by decide) (Has.sub (a := execLmpTabCloseMask) (by decide +kernel) hm)
    | exact Has.cell (by decide) (Has.sub (a := execLmpTabCloseMask) (by decide +kernel) hm)
    | exact Has.cellNext (by decide) (Has.sub (a := execLmpTabCloseMask) (by decide +kernel) hm)
    | exact Has.ite (Has.sub (a := execLmpTabCloseMask) (by decide +kernel) hm) (Has.sub (a := execLmpTabCloseMask) (by decide +kernel) hm)
    | exact .inr (fun _ => rfl)
    | (intro _; rfl)
    | (intro _; simp; done)
    | (simp; assumption)
    | (refine .inr (fun _ => ?_); simp; done)
    | (refine .inr (fun _ => ?_); (repeat' split) <;> first | rfl | (simp; done))
    | (simp; done)

def execCurrentHoldCaptureMask : Nat :=
  State.currentCaptureMask ||| settleMask

theorem execCurrentHoldCapture_touch {msk : Nat} {n : Fin 16} {s : State} (hm : Sub execCurrentHoldCaptureMask msk) : TouchOut msk s (execCurrentHoldCapture n s) := by
  unfold execCurrentHoldCapture
  try dsimp only
  repeat' (with_reducible first
    | assumption
    | exact TouchOut.fault
    | apply TouchOut.done
    | exact Touch.refl
    | intro _
    | apply State.currentCapture_touch)
  all_goals with_reducible first
    | exact .inr rfl
    | exact Sub.trans (b := execCurrentHoldCaptureMask) (by decide +kernel) hm
    | exact Has.sub (a := execCurrentHoldCaptureMask) (by decide +kernel) hm
    | exact .inl (Has.sub (a := execCurrentHoldCaptureMask) (by decide +kernel) hm)
    | exact Has.at (by decide) (Has.sub (a := execCurrentHoldCaptureMask) (by decide +kernel) hm)
    | exact Has.cell (by decide) (Has.sub (a := execCurrentHoldCaptureMask) (by decide +kernel) hm)
    | exact Has.cellNext (by decide) (Has.sub (a := execCurrentHoldCaptureMask) (by decide +kernel) hm)
    | exact Has.ite (Has.sub (a := execCurrentHoldCaptureMask) (by decide +kernel) hm) (Has.sub (a := execCurrentHoldCaptureMask) (by decide +kernel) hm)
    | exact .inr (fun _ => rfl)
    | (intro _; rfl)
    | (intro _; simp; done)
    | (simp; assumption)
    | (refine .inr (fun _ => ?_); simp; done)
    | (refine .inr (fun _ => ?_); (repeat' split) <;> first | rfl | (simp; done))
    | (simp; done)

def execHoldCaptureTimeoutMask : Nat :=
  State.hltStickMask ||| settleMask ||| Part.flash.bit ||| Part.hlt.bit ||| Part.vlt.bit

theorem execHoldCaptureTimeout_touch {msk : Nat} {n : Fin 16} {volt : Bool} {s : State} (hm : Sub execHoldCaptureTimeoutMask msk) : TouchOut msk s (execHoldCaptureTimeout n volt s) := by
  unfold execHoldCaptureTimeout
  try dsimp only
  repeat' (with_reducible first
    | assumption
    | exact TouchOut.fault
    | apply TouchOut.done
    | exact Touch.refl
    | intro _
    | apply Touch.modHlt
    | apply State.hltStick_touch
    | (refine Touch.ofEq (by assumption) ?_)
    | split)
  all_goals with_reducible first
    | exact .inr rfl
    | exact Sub.trans (b := execHoldCaptureTimeoutMask) (by decide +kernel) hm
    | exact Has.sub (a := execHoldCaptureTimeoutMask) (by decide +kernel) hm
    | exact .inl (Has.sub (a := execHoldCaptureTimeoutMask) (by decide +kernel) hm)
    | exact Has.at (by decide) (Has.sub (a := execHoldCaptureTimeoutMask) (by decide +kernel) hm)
    | exact Has.cell (by decide) (Has.sub (a := execHoldCaptureTimeoutMask) (by decide +kernel) hm)
    | exact Has.cellNext (by decide) (Has.sub (a := execHoldCaptureTimeoutMask) (by decide +kernel) hm)
    | exact Has.ite (Has.sub (a := execHoldCaptureTimeoutMask) (by decide +kernel) hm) (Has.sub (a := execHoldCaptureTimeoutMask) (by decide +kernel) hm)
    | exact .inr (fun _ => rfl)
    | (intro _; rfl)
    | (intro _; simp; done)
    | (simp; assumption)
    | (refine .inr (fun _ => ?_); simp; done)
    | (refine .inr (fun _ => ?_); (repeat' split) <;> first | rfl | (simp; done))
    | (simp; done)

def execConversionDoneMask : Nat :=
  State.conversionMask ||| settleMask

theorem execConversionDone_touch {msk : Nat} {raw : BitVec 14} {s : State} (hm : Sub execConversionDoneMask msk) : TouchOut msk s (execConversionDone raw s) := by
  unfold execConversionDone
  try dsimp only
  repeat' (with_reducible first
    | assumption
    | exact TouchOut.fault
    | apply TouchOut.done
    | exact Touch.refl
    | intro _
    | apply State.conversion_touch
    | apply Touch.ite
    | split)
  all_goals with_reducible first
    | exact .inr rfl
    | exact Sub.trans (b := execConversionDoneMask) (by decide +kernel) hm
    | exact Has.sub (a := execConversionDoneMask) (by decide +kernel) hm
    | exact .inl (Has.sub (a := execConversionDoneMask) (by decide +kernel) hm)
    | exact Has.at (by decide) (Has.sub (a := execConversionDoneMask) (by decide +kernel) hm)
    | exact Has.cell (by decide) (Has.sub (a := execConversionDoneMask) (by decide +kernel) hm)
    | exact Has.cellNext (by decide) (Has.sub (a := execConversionDoneMask) (by decide +kernel) hm)
    | exact Has.ite (Has.sub (a := execConversionDoneMask) (by decide +kernel) hm) (Has.sub (a := execConversionDoneMask) (by decide +kernel) hm)
    | exact .inr (fun _ => rfl)
    | (intro _; rfl)
    | (intro _; simp; done)
    | (simp; assumption)
    | (refine .inr (fun _ => ?_); simp; done)
    | (refine .inr (fun _ => ?_); (repeat' split) <;> first | rfl | (simp; done))
    | (simp; done)

def execUserSeqEndMask : Nat :=
  State.userEndMask ||| settleMask

theorem execUserSeqEnd_touch {msk : Nat} {s : State} (hm : Sub execUserSeqEndMask msk) : TouchOut msk s (execUserSeqEnd s) := by
  unfold execUserSeqEnd
  try dsimp only
  repeat' (with_reducible first
    | assumption
    | exact TouchOut.fault
    | apply TouchOut.done
    | exact Touch.refl
    | intro _
    | apply State.userEnd_touch)
  all_goals with_reducible first
    | exact .inr rfl
    | exact Sub.trans (b := execUserSeqEndMask) (by decide +kernel) hm
    | exact Has.sub (a := execUserSeqEndMask) (by decide +kernel) hm
    | exact .inl (Has.sub (a := execUserSeqEndMask) (by decide +kernel) hm)
    | exact Has.at (by decide) (Has.sub (a := execUserSeqEndMask) (by decide +kernel) hm)
    | exact Has.cell (by decide) (Has.sub (a := execUserSeqEndMask) (by decide +kernel) hm)
    | exact Has.cellNext (by decide) (Has.sub (a := execUserSeqEndMask) (by decide +kernel) hm)
    | exact Has.ite (Has.sub (a := execUserSeqEndMask) (by decide +kernel) hm) (Has.sub (a := execUserSeqEndMask) (by decide +kernel) hm)
    | exact .inr (fun _ => rfl)
    | (intro _; rfl)
    | (intro _; simp; done)
    | (simp; assumption)
    | (refine .inr (fun _ => ?_); simp; done)
    | (refine .inr (fun _ => ?_); (repeat' split) <;> first | rfl | (simp; done))
    | (simp; done)

def execRoundEndMask : Nat :=
  State.roundEndMask ||| settleMask

theorem execRoundEnd_touch {msk : Nat} {s : State} (hm : Sub execRoundEndMask msk) : TouchOut msk s (execRoundEnd s) := by
  unfold execRoundEnd
  try dsimp only
  repeat' (with_reducible first
    | assumption
    | exact TouchOut.fault
    | apply TouchOut.done
    | exact Touch.refl
    | intro _
    | apply State.roundEnd_touch)
  all_goals with_reducible first
    | exact .inr rfl
    | exact Sub.trans (b := execRoundEndMask) (by decide +kernel) hm
    | exact Has.sub (a := execRoundEndMask) (by decide +kernel) hm
    | exact .inl (Has.sub (a := execRoundEndMask) (by decide +kernel) hm)
    | exact Has.at (by decide) (Has.sub (a := execRoundEndMask) (by decide +kernel) hm)
    | exact Has.cell (by decide) (Has.sub (a := execRoundEndMask) (by decide +kernel) hm)
    | exact Has.cellNext (by decide) (Has.sub (a := execRoundEndMask) (by decide +kernel) hm)
    | exact Has.ite (Has.sub (a := execRoundEndMask) (by decide +kernel) hm) (Has.sub (a := execRoundEndMask) (by decide +kernel) hm)
    | exact .inr (fun _ => rfl)
    | (intro _; rfl)
    | (intro _; simp; done)
    | (simp; assumption)
    | (refine .inr (fun _ => ?_); simp; done)
    | (refine .inr (fun _ => ?_); (repeat' split) <;> first | rfl | (simp; done))
    | (simp; done)

def execProofRunRequestMask : Nat :=
  State.onWriteMask ||| State.proofRequestMask ||| settleMask

theorem execProofRunRequest_touch {msk : Nat} {p : Path} {v : Word} {s : State} (hm : Sub execProofRunRequestMask msk) : TouchOut msk s (execProofRunRequest p v s) := by
  unfold execProofRunRequest
  try dsimp only
  repeat' (with_reducible first
    | assumption
    | exact TouchOut.fault
    | apply TouchOut.done
    | exact Touch.refl
    | intro _
    | apply State.onWrite_touch
    | apply Touch.forChans
    | apply State.proofRequest_touch
    | apply Touch.ite
    | split)
  all_goals with_reducible first
    | exact .inr rfl
    | exact Sub.trans (b := execProofRunRequestMask) (by decide +kernel) hm
    | exact Has.sub (a := execProofRunRequestMask) (by decide +kernel) hm
    | exact .inl (Has.sub (a := execProofRunRequestMask) (by decide +kernel) hm)
    | exact Has.at (by decide) (Has.sub (a := execProofRunRequestMask) (by decide +kernel) hm)
    | exact Has.cell (by decide) (Has.sub (a := execProofRunRequestMask) (by decide +kernel) hm)
    | exact Has.cellNext (by decide) (Has.sub (a := execProofRunRequestMask) (by decide +kernel) hm)
    | exact Has.ite (Has.sub (a := execProofRunRequestMask) (by decide +kernel) hm) (Has.sub (a := execProofRunRequestMask) (by decide +kernel) hm)
    | exact .inr (fun _ => rfl)
    | (intro _; rfl)
    | (intro _; simp; done)
    | (simp; assumption)
    | (refine .inr (fun _ => ?_); simp; done)
    | (refine .inr (fun _ => ?_); (repeat' split) <;> first | rfl | (simp; done))
    | (simp; done)

def execProofAutoDueMask : Nat :=
  State.proofRequestMask ||| settleMask

theorem execProofAutoDue_touch {msk : Nat} {n : Fin 16} {s : State} (hm : Sub execProofAutoDueMask msk) : TouchOut msk s (execProofAutoDue n s) := by
  unfold execProofAutoDue
  try dsimp only
  repeat' (with_reducible first
    | assumption
    | exact TouchOut.fault
    | apply TouchOut.done
    | exact Touch.refl
    | intro _
    | apply State.proofRequest_touch
    | apply Touch.ite
    | split)
  all_goals with_reducible first
    | exact .inr rfl
    | exact Sub.trans (b := execProofAutoDueMask) (by decide +kernel) hm
    | exact Has.sub (a := execProofAutoDueMask) (by decide +kernel) hm
    | exact .inl (Has.sub (a := execProofAutoDueMask) (by decide +kernel) hm)
    | exact Has.at (by decide) (Has.sub (a := execProofAutoDueMask) (by decide +kernel) hm)
    | exact Has.cell (by decide) (Has.sub (a := execProofAutoDueMask) (by decide +kernel) hm)
    | exact Has.cellNext (by decide) (Has.sub (a := execProofAutoDueMask) (by decide +kernel) hm)
    | exact Has.ite (Has.sub (a := execProofAutoDueMask) (by decide +kernel) hm) (Has.sub (a := execProofAutoDueMask) (by decide +kernel) hm)
    | exact .inr (fun _ => rfl)
    | (intro _; rfl)
    | (intro _; simp; done)
    | (simp; assumption)
    | (refine .inr (fun _ => ?_); simp; done)
    | (refine .inr (fun _ => ?_); (repeat' split) <;> first | rfl | (simp; done))
    | (simp; done)

def execProofSlotStartMask : Nat :=
  State.slotStartMask ||| settleMask

theorem execProofSlotStart_touch {msk : Nat} {n : Fin 16} {s : State} (hm : Sub execProofSlotStartMask msk) : TouchOut msk s (execProofSlotStart n s) := by
  unfold execProofSlotStart
  try dsimp only
  repeat' (with_reducible first
    | assumption
    | exact TouchOut.fault
    | apply TouchOut.done
    | exact Touch.refl
    | intro _
    | apply State.slotStart_touch)
  all_goals with_reducible first
    | exact .inr rfl
    | exact Sub.trans (b := execProofSlotStartMask) (by decide +kernel) hm
    | exact Has.sub (a := execProofSlotStartMask) (by decide +kernel) hm
    | exact .inl (Has.sub (a := execProofSlotStartMask) (by decide +kernel) hm)
    | exact Has.at (by decide) (Has.sub (a := execProofSlotStartMask) (by decide +kernel) hm)
    | exact Has.cell (by decide) (Has.sub (a := execProofSlotStartMask) (by decide +kernel) hm)
    | exact Has.cellNext (by decide) (Has.sub (a := execProofSlotStartMask) (by decide +kernel) hm)
    | exact Has.ite (Has.sub (a := execProofSlotStartMask) (by decide +kernel) hm) (Has.sub (a := execProofSlotStartMask) (by decide +kernel) hm)
    | exact .inr (fun _ => rfl)
    | (intro _; rfl)
    | (intro _; simp; done)
    | (simp; assumption)
    | (refine .inr (fun _ => ?_); simp; done)
    | (refine .inr (fun _ => ?_); (repeat' split) <;> first | rfl | (simp; done))
    | (simp; done)

def execProofRunEndMask : Nat :=
  State.proofEndMask ||| settleMask

theorem execProofRunEnd_touch {msk : Nat} {n : Fin 16} {s : State} (hm : Sub execProofRunEndMask msk) : TouchOut msk s (execProofRunEnd n s) := by
  unfold execProofRunEnd
  try dsimp only
  repeat' (with_reducible first
    | assumption
    | exact TouchOut.fault
    | apply TouchOut.done
    | exact Touch.refl
    | intro _
    | apply State.proofEnd_touch)
  all_goals with_reducible first
    | exact .inr rfl
    | exact Sub.trans (b := execProofRunEndMask) (by decide +kernel) hm
    | exact Has.sub (a := execProofRunEndMask) (by decide +kernel) hm
    | exact .inl (Has.sub (a := execProofRunEndMask) (by decide +kernel) hm)
    | exact Has.at (by decide) (Has.sub (a := execProofRunEndMask) (by decide +kernel) hm)
    | exact Has.cell (by decide) (Has.sub (a := execProofRunEndMask) (by decide +kernel) hm)
    | exact Has.cellNext (by decide) (Has.sub (a := execProofRunEndMask) (by decide +kernel) hm)
    | exact Has.ite (Has.sub (a := execProofRunEndMask) (by decide +kernel) hm) (Has.sub (a := execProofRunEndMask) (by decide +kernel) hm)
    | exact .inr (fun _ => rfl)
    | (intro _; rfl)
    | (intro _; simp; done)
    | (simp; assumption)
    | (refine .inr (fun _ => ?_); simp; done)
    | (refine .inr (fun _ => ?_); (repeat' split) <;> first | rfl | (simp; done))
    | (simp; done)

def execProofRunTimeoutMask : Nat :=
  State.proofAbandonMask ||| settleMask

theorem execProofRunTimeout_touch {msk : Nat} {n : Fin 16} {s : State} (hm : Sub execProofRunTimeoutMask msk) : TouchOut msk s (execProofRunTimeout n s) := by
  unfold execProofRunTimeout
  try dsimp only
  repeat' (with_reducible first
    | assumption
    | exact TouchOut.fault
    | apply TouchOut.done
    | exact Touch.refl
    | intro _
    | apply State.proofAbandon_touch)
  all_goals with_reducible first
    | exact .inr rfl
    | exact Sub.trans (b := execProofRunTimeoutMask) (by decide +kernel) hm
    | exact Has.sub (a := execProofRunTimeoutMask) (by decide +kernel) hm
    | exact .inl (Has.sub (a := execProofRunTimeoutMask) (by decide +kernel) hm)
    | exact Has.at (by decide) (Has.sub (a := execProofRunTimeoutMask) (by decide +kernel) hm)
    | exact Has.cell (by decide) (Has.sub (a := execProofRunTimeoutMask) (by decide +kernel) hm)
    | exact Has.cellNext (by decide) (Has.sub (a := execProofRunTimeoutMask) (by decide +kernel) hm)
    | exact Has.ite (Has.sub (a := execProofRunTimeoutMask) (by decide +kernel) hm) (Has.sub (a := execProofRunTimeoutMask) (by decide +kernel) hm)
    | exact .inr (fun _ => rfl)
    | (intro _; rfl)
    | (intro _; simp; done)
    | (simp; assumption)
    | (refine .inr (fun _ => ?_); simp; done)
    | (refine .inr (fun _ => ?_); (repeat' split) <;> first | rfl | (simp; done))
    | (simp; done)

def execLedrstMask : Nat :=
  State.onWriteMask ||| State.ledRstMask ||| settleMask

theorem execLedrst_touch {msk : Nat} {p : Path} {s : State} (hm : Sub execLedrstMask msk) : TouchOut msk s (execLedrst p s) := by
  unfold execLedrst
  try dsimp only
  repeat' (with_reducible first
    | assumption
    | exact TouchOut.fault
    | apply TouchOut.done
    | exact Touch.refl
    | intro _
    | apply State.onWrite_touch
    | apply State.ledRst_touch
    | apply Touch.foldl
    | apply Touch.foldlFst)
  all_goals with_reducible first
    | exact .inr rfl
    | exact Sub.trans (b := execLedrstMask) (by decide +kernel) hm
    | exact Has.sub (a := execLedrstMask) (by decide +kernel) hm
    | exact .inl (Has.sub (a := execLedrstMask) (by decide +kernel) hm)
    | exact Has.at (by decide) (Has.sub (a := execLedrstMask) (by decide +kernel) hm)
    | exact Has.cell (by decide) (Has.sub (a := execLedrstMask) (by decide +kernel) hm)
    | exact Has.cellNext (by decide) (Has.sub (a := execLedrstMask) (by decide +kernel) hm)
    | exact Has.ite (Has.sub (a := execLedrstMask) (by decide +kernel) hm) (Has.sub (a := execLedrstMask) (by decide +kernel) hm)
    | exact .inr (fun _ => rfl)
    | (intro _; rfl)
    | (intro _; simp; done)
    | (simp; assumption)
    | (refine .inr (fun _ => ?_); simp; done)
    | (refine .inr (fun _ => ?_); (repeat' split) <;> first | rfl | (simp; done))
    | (simp; done)

def execMclrMask : Nat :=
  State.onWriteMask ||| State.modelClrMask ||| settleMask

theorem execMclr_touch {msk : Nat} {p : Path} {s : State} (hm : Sub execMclrMask msk) : TouchOut msk s (execMclr p s) := by
  unfold execMclr
  try dsimp only
  repeat' (with_reducible first
    | assumption
    | exact TouchOut.fault
    | apply TouchOut.done
    | exact Touch.refl
    | intro _
    | apply State.onWrite_touch
    | apply State.modelClr_touch
    | apply Touch.foldl
    | apply Touch.foldlFst)
  all_goals with_reducible first
    | exact .inr rfl
    | exact Sub.trans (b := execMclrMask) (by decide +kernel) hm
    | exact Has.sub (a := execMclrMask) (by decide +kernel) hm
    | exact .inl (Has.sub (a := execMclrMask) (by decide +kernel) hm)
    | exact Has.at (by decide) (Has.sub (a := execMclrMask) (by decide +kernel) hm)
    | exact Has.cell (by decide) (Has.sub (a := execMclrMask) (by decide +kernel) hm)
    | exact Has.cellNext (by decide) (Has.sub (a := execMclrMask) (by decide +kernel) hm)
    | exact Has.ite (Has.sub (a := execMclrMask) (by decide +kernel) hm) (Has.sub (a := execMclrMask) (by decide +kernel) hm)
    | exact .inr (fun _ => rfl)
    | (intro _; rfl)
    | (intro _; simp; done)
    | (simp; assumption)
    | (refine .inr (fun _ => ?_); simp; done)
    | (refine .inr (fun _ => ?_); (repeat' split) <;> first | rfl | (simp; done))
    | (simp; done)

def execDtrefRelearnMask : Nat :=
  State.onWriteMask ||| State.dtRelearnMask ||| settleMask

theorem execDtrefRelearn_touch {msk : Nat} {p : Path} {s : State} (hm : Sub execDtrefRelearnMask msk) : TouchOut msk s (execDtrefRelearn p s) := by
  unfold execDtrefRelearn
  try dsimp only
  repeat' (with_reducible first
    | assumption
    | exact TouchOut.fault
    | apply TouchOut.done
    | exact Touch.refl
    | intro _
    | apply State.onWrite_touch
    | apply State.dtRelearn_touch
    | apply Touch.foldl
    | apply Touch.foldlFst)
  all_goals with_reducible first
    | exact .inr rfl
    | exact Sub.trans (b := execDtrefRelearnMask) (by decide +kernel) hm
    | exact Has.sub (a := execDtrefRelearnMask) (by decide +kernel) hm
    | exact .inl (Has.sub (a := execDtrefRelearnMask) (by decide +kernel) hm)
    | exact Has.at (by decide) (Has.sub (a := execDtrefRelearnMask) (by decide +kernel) hm)
    | exact Has.cell (by decide) (Has.sub (a := execDtrefRelearnMask) (by decide +kernel) hm)
    | exact Has.cellNext (by decide) (Has.sub (a := execDtrefRelearnMask) (by decide +kernel) hm)
    | exact Has.ite (Has.sub (a := execDtrefRelearnMask) (by decide +kernel) hm) (Has.sub (a := execDtrefRelearnMask) (by decide +kernel) hm)
    | exact .inr (fun _ => rfl)
    | (intro _; rfl)
    | (intro _; simp; done)
    | (simp; assumption)
    | (refine .inr (fun _ => ?_); simp; done)
    | (refine .inr (fun _ => ?_); (repeat' split) <;> first | rfl | (simp; done))
    | (simp; done)

def execHltTabOpenMask : Nat :=
  State.onWriteMask ||| State.hltOpenMask ||| settleMask

theorem execHltTabOpen_touch {msk : Nat} {p : Path} {s : State} (hm : Sub execHltTabOpenMask msk) : TouchOut msk s (execHltTabOpen p s) := by
  unfold execHltTabOpen
  try dsimp only
  repeat' (with_reducible first
    | assumption
    | exact TouchOut.fault
    | apply TouchOut.done
    | exact Touch.refl
    | intro _
    | apply State.onWrite_touch
    | apply State.hltOpen_touch
    | apply Touch.ite
    | split)
  all_goals with_reducible first
    | exact .inr rfl
    | exact Sub.trans (b := execHltTabOpenMask) (by decide +kernel) hm
    | exact Has.sub (a := execHltTabOpenMask) (by decide +kernel) hm
    | exact .inl (Has.sub (a := execHltTabOpenMask) (by decide +kernel) hm)
    | exact Has.at (by decide) (Has.sub (a := execHltTabOpenMask) (by decide +kernel) hm)
    | exact Has.cell (by decide) (Has.sub (a := execHltTabOpenMask) (by decide +kernel) hm)
    | exact Has.cellNext (by decide) (Has.sub (a := execHltTabOpenMask) (by decide +kernel) hm)
    | exact Has.ite (Has.sub (a := execHltTabOpenMask) (by decide +kernel) hm) (Has.sub (a := execHltTabOpenMask) (by decide +kernel) hm)
    | exact .inr (fun _ => rfl)
    | (intro _; rfl)
    | (intro _; simp; done)
    | (simp; assumption)
    | (refine .inr (fun _ => ?_); simp; done)
    | (refine .inr (fun _ => ?_); (repeat' split) <;> first | rfl | (simp; done))
    | (simp; done)

def execHltTabCloseMask : Nat :=
  State.onWriteMask ||| State.hltCloseMask ||| settleMask

theorem execHltTabClose_touch {msk : Nat} {p : Path} {s : State} (hm : Sub execHltTabCloseMask msk) : TouchOut msk s (execHltTabClose p s) := by
  unfold execHltTabClose
  try dsimp only
  repeat' (with_reducible first
    | assumption
    | exact TouchOut.fault
    | apply TouchOut.done
    | exact Touch.refl
    | intro _
    | apply State.onWrite_touch
    | apply State.hltClose_touch
    | apply Touch.ite
    | split)
  all_goals with_reducible first
    | exact .inr rfl
    | exact Sub.trans (b := execHltTabCloseMask) (by decide +kernel) hm
    | exact Has.sub (a := execHltTabCloseMask) (by decide +kernel) hm
    | exact .inl (Has.sub (a := execHltTabCloseMask) (by decide +kernel) hm)
    | exact Has.at (by decide) (Has.sub (a := execHltTabCloseMask) (by decide +kernel) hm)
    | exact Has.cell (by decide) (Has.sub (a := execHltTabCloseMask) (by decide +kernel) hm)
    | exact Has.cellNext (by decide) (Has.sub (a := execHltTabCloseMask) (by decide +kernel) hm)
    | exact Has.ite (Has.sub (a := execHltTabCloseMask) (by decide +kernel) hm) (Has.sub (a := execHltTabCloseMask) (by decide +kernel) hm)
    | exact .inr (fun _ => rfl)
    | (intro _; rfl)
    | (intro _; simp; done)
    | (simp; assumption)
    | (refine .inr (fun _ => ?_); simp; done)
    | (refine .inr (fun _ => ?_); (repeat' split) <;> first | rfl | (simp; done))
    | (simp; done)

def execStressRecordDueMask : Nat :=
  State.vRecordMask ||| settleMask

theorem execStressRecordDue_touch {msk : Nat} {s : State} (hm : Sub execStressRecordDueMask msk) : TouchOut msk s (execStressRecordDue s) := by
  unfold execStressRecordDue
  try dsimp only
  repeat' (with_reducible first
    | assumption
    | exact TouchOut.fault
    | apply TouchOut.done
    | exact Touch.refl
    | intro _
    | apply State.vRecord_touch)
  all_goals with_reducible first
    | exact .inr rfl
    | exact Sub.trans (b := execStressRecordDueMask) (by decide +kernel) hm
    | exact Has.sub (a := execStressRecordDueMask) (by decide +kernel) hm
    | exact .inl (Has.sub (a := execStressRecordDueMask) (by decide +kernel) hm)
    | exact Has.at (by decide) (Has.sub (a := execStressRecordDueMask) (by decide +kernel) hm)
    | exact Has.cell (by decide) (Has.sub (a := execStressRecordDueMask) (by decide +kernel) hm)
    | exact Has.cellNext (by decide) (Has.sub (a := execStressRecordDueMask) (by decide +kernel) hm)
    | exact Has.ite (Has.sub (a := execStressRecordDueMask) (by decide +kernel) hm) (Has.sub (a := execStressRecordDueMask) (by decide +kernel) hm)
    | exact .inr (fun _ => rfl)
    | (intro _; rfl)
    | (intro _; simp; done)
    | (simp; assumption)
    | (refine .inr (fun _ => ?_); simp; done)
    | (refine .inr (fun _ => ?_); (repeat' split) <;> first | rfl | (simp; done))
    | (simp; done)

def execChannelOnHourMask : Nat :=
  State.hatIncMask ||| settleMask ||| Part.hlt.bit

theorem execChannelOnHour_touch {msk : Nat} {n : Fin 16} {s : State} (hm : Sub execChannelOnHourMask msk) : TouchOut msk s (execChannelOnHour n s) := by
  unfold execChannelOnHour
  try dsimp only
  repeat' (with_reducible first
    | assumption
    | exact TouchOut.fault
    | apply TouchOut.done
    | exact Touch.refl
    | intro _
    | apply State.hatInc_touch
    | apply Touch.modHchan
    | apply Touch.ite
    | split)
  all_goals with_reducible first
    | exact .inr rfl
    | exact Sub.trans (b := execChannelOnHourMask) (by decide +kernel) hm
    | exact Has.sub (a := execChannelOnHourMask) (by decide +kernel) hm
    | exact .inl (Has.sub (a := execChannelOnHourMask) (by decide +kernel) hm)
    | exact Has.at (by decide) (Has.sub (a := execChannelOnHourMask) (by decide +kernel) hm)
    | exact Has.cell (by decide) (Has.sub (a := execChannelOnHourMask) (by decide +kernel) hm)
    | exact Has.cellNext (by decide) (Has.sub (a := execChannelOnHourMask) (by decide +kernel) hm)
    | exact Has.ite (Has.sub (a := execChannelOnHourMask) (by decide +kernel) hm) (Has.sub (a := execChannelOnHourMask) (by decide +kernel) hm)
    | exact .inr (fun _ => rfl)
    | (intro _; rfl)
    | (intro _; simp; done)
    | (simp; assumption)
    | (refine .inr (fun _ => ?_); simp; done)
    | (refine .inr (fun _ => ?_); (repeat' split) <;> first | rfl | (simp; done))
    | (simp; done)

def execPwmEnaWriteMask : Nat :=
  State.onWriteMask ||| State.enaSetMask ||| settleMask

theorem execPwmEnaWrite_touch {msk : Nat} {p : Path} {v : Word} {s : State} (hm : Sub execPwmEnaWriteMask msk) : TouchOut msk s (execPwmEnaWrite p v s) := by
  unfold execPwmEnaWrite
  try dsimp only
  repeat' (with_reducible first
    | assumption
    | exact TouchOut.fault
    | apply TouchOut.done
    | exact Touch.refl
    | intro _
    | apply State.onWrite_touch
    | apply State.enaSet_touch)
  all_goals with_reducible first
    | exact .inr rfl
    | exact Sub.trans (b := execPwmEnaWriteMask) (by decide +kernel) hm
    | exact Has.sub (a := execPwmEnaWriteMask) (by decide +kernel) hm
    | exact .inl (Has.sub (a := execPwmEnaWriteMask) (by decide +kernel) hm)
    | exact Has.at (by decide) (Has.sub (a := execPwmEnaWriteMask) (by decide +kernel) hm)
    | exact Has.cell (by decide) (Has.sub (a := execPwmEnaWriteMask) (by decide +kernel) hm)
    | exact Has.cellNext (by decide) (Has.sub (a := execPwmEnaWriteMask) (by decide +kernel) hm)
    | exact Has.ite (Has.sub (a := execPwmEnaWriteMask) (by decide +kernel) hm) (Has.sub (a := execPwmEnaWriteMask) (by decide +kernel) hm)
    | exact .inr (fun _ => rfl)
    | (intro _; rfl)
    | (intro _; simp; done)
    | (simp; assumption)
    | (refine .inr (fun _ => ?_); simp; done)
    | (refine .inr (fun _ => ?_); (repeat' split) <;> first | rfl | (simp; done))
    | (simp; done)

def execPwmShadowWriteMask : Nat :=
  State.onWriteMask ||| State.shadowWriteMask ||| settleMask

theorem execPwmShadowWrite_touch {msk : Nat} {p : Path} {r : ShadowReg} {v : Word} {s : State} (hm : Sub execPwmShadowWriteMask msk) : TouchOut msk s (execPwmShadowWrite p r v s) := by
  unfold execPwmShadowWrite
  try dsimp only
  repeat' (with_reducible first
    | assumption
    | exact TouchOut.fault
    | apply TouchOut.done
    | exact Touch.refl
    | intro _
    | apply State.onWrite_touch
    | apply State.shadowWrite_touch
    | apply Touch.foldl
    | apply Touch.foldlFst)
  all_goals with_reducible first
    | exact .inr rfl
    | exact Sub.trans (b := execPwmShadowWriteMask) (by decide +kernel) hm
    | exact Has.sub (a := execPwmShadowWriteMask) (by decide +kernel) hm
    | exact .inl (Has.sub (a := execPwmShadowWriteMask) (by decide +kernel) hm)
    | exact Has.at (by decide) (Has.sub (a := execPwmShadowWriteMask) (by decide +kernel) hm)
    | exact Has.cell (by decide) (Has.sub (a := execPwmShadowWriteMask) (by decide +kernel) hm)
    | exact Has.cellNext (by decide) (Has.sub (a := execPwmShadowWriteMask) (by decide +kernel) hm)
    | exact Has.ite (Has.sub (a := execPwmShadowWriteMask) (by decide +kernel) hm) (Has.sub (a := execPwmShadowWriteMask) (by decide +kernel) hm)
    | exact .inr (fun _ => rfl)
    | (intro _; rfl)
    | (intro _; simp; done)
    | (simp; assumption)
    | (refine .inr (fun _ => ?_); simp; done)
    | (refine .inr (fun _ => ?_); (repeat' split) <;> first | rfl | (simp; done))
    | (simp; done)

def execPwmZeroMask : Nat :=
  State.boundaryMask ||| settleMask

theorem execPwmZero_touch {msk : Nat} {n : Fin 16} {bstLow : Bool} {s : State} (hm : Sub execPwmZeroMask msk) : TouchOut msk s (execPwmZero n bstLow s) := by
  unfold execPwmZero
  try dsimp only
  repeat' (with_reducible first
    | assumption
    | exact TouchOut.fault
    | apply TouchOut.done
    | exact Touch.refl
    | intro _
    | apply State.boundary_touch
    | apply Touch.ite
    | split)
  all_goals with_reducible first
    | exact .inr rfl
    | exact Sub.trans (b := execPwmZeroMask) (by decide +kernel) hm
    | exact Has.sub (a := execPwmZeroMask) (by decide +kernel) hm
    | exact .inl (Has.sub (a := execPwmZeroMask) (by decide +kernel) hm)
    | exact Has.at (by decide) (Has.sub (a := execPwmZeroMask) (by decide +kernel) hm)
    | exact Has.cell (by decide) (Has.sub (a := execPwmZeroMask) (by decide +kernel) hm)
    | exact Has.cellNext (by decide) (Has.sub (a := execPwmZeroMask) (by decide +kernel) hm)
    | exact Has.ite (Has.sub (a := execPwmZeroMask) (by decide +kernel) hm) (Has.sub (a := execPwmZeroMask) (by decide +kernel) hm)
    | exact .inr (fun _ => rfl)
    | (intro _; rfl)
    | (intro _; simp; done)
    | (simp; assumption)
    | (refine .inr (fun _ => ?_); simp; done)
    | (refine .inr (fun _ => ?_); (repeat' split) <;> first | rfl | (simp; done))
    | (simp; done)

def execPwmMidLoadMask : Nat :=
  State.midLoadMask ||| State.cutAtMask ||| settleMask

theorem execPwmMidLoad_touch {msk : Nat} {n : Fin 16} {s : State} (hm : Sub execPwmMidLoadMask msk) : TouchOut msk s (execPwmMidLoad n s) := by
  unfold execPwmMidLoad
  try dsimp only
  repeat' (with_reducible first
    | assumption
    | exact TouchOut.fault
    | apply TouchOut.done
    | exact Touch.refl
    | intro _
    | apply State.midLoad_touch
    | apply State.cutAt_touch
    | apply Touch.ite
    | split)
  all_goals with_reducible first
    | exact .inr rfl
    | exact Sub.trans (b := execPwmMidLoadMask) (by decide +kernel) hm
    | exact Has.sub (a := execPwmMidLoadMask) (by decide +kernel) hm
    | exact .inl (Has.sub (a := execPwmMidLoadMask) (by decide +kernel) hm)
    | exact Has.at (by decide) (Has.sub (a := execPwmMidLoadMask) (by decide +kernel) hm)
    | exact Has.cell (by decide) (Has.sub (a := execPwmMidLoadMask) (by decide +kernel) hm)
    | exact Has.cellNext (by decide) (Has.sub (a := execPwmMidLoadMask) (by decide +kernel) hm)
    | exact Has.ite (Has.sub (a := execPwmMidLoadMask) (by decide +kernel) hm) (Has.sub (a := execPwmMidLoadMask) (by decide +kernel) hm)
    | exact .inr (fun _ => rfl)
    | (intro _; rfl)
    | (intro _; simp; done)
    | (simp; assumption)
    | (refine .inr (fun _ => ?_); simp; done)
    | (refine .inr (fun _ => ?_); (repeat' split) <;> first | rfl | (simp; done))
    | (simp; done)

def execPwmPeriodMask : Nat :=
  State.perHitMask ||| settleMask

theorem execPwmPeriod_touch {msk : Nat} {n : Fin 16} {s : State} (hm : Sub execPwmPeriodMask msk) : TouchOut msk s (execPwmPeriod n s) := by
  unfold execPwmPeriod
  try dsimp only
  repeat' (with_reducible first
    | assumption
    | exact TouchOut.fault
    | apply TouchOut.done
    | exact Touch.refl
    | intro _
    | apply State.perHit_touch)
  all_goals with_reducible first
    | exact .inr rfl
    | exact Sub.trans (b := execPwmPeriodMask) (by decide +kernel) hm
    | exact Has.sub (a := execPwmPeriodMask) (by decide +kernel) hm
    | exact .inl (Has.sub (a := execPwmPeriodMask) (by decide +kernel) hm)
    | exact Has.at (by decide) (Has.sub (a := execPwmPeriodMask) (by decide +kernel) hm)
    | exact Has.cell (by decide) (Has.sub (a := execPwmPeriodMask) (by decide +kernel) hm)
    | exact Has.cellNext (by decide) (Has.sub (a := execPwmPeriodMask) (by decide +kernel) hm)
    | exact Has.ite (Has.sub (a := execPwmPeriodMask) (by decide +kernel) hm) (Has.sub (a := execPwmPeriodMask) (by decide +kernel) hm)
    | exact .inr (fun _ => rfl)
    | (intro _; rfl)
    | (intro _; simp; done)
    | (simp; assumption)
    | (refine .inr (fun _ => ?_); simp; done)
    | (refine .inr (fun _ => ?_); (repeat' split) <;> first | rfl | (simp; done))
    | (simp; done)

def execPwmCmpaMask : Nat :=
  State.cmpaHitMask ||| settleMask

theorem execPwmCmpa_touch {msk : Nat} {n : Fin 16} {s : State} (hm : Sub execPwmCmpaMask msk) : TouchOut msk s (execPwmCmpa n s) := by
  unfold execPwmCmpa
  try dsimp only
  repeat' (with_reducible first
    | assumption
    | exact TouchOut.fault
    | apply TouchOut.done
    | exact Touch.refl
    | intro _
    | apply State.cmpaHit_touch)
  all_goals with_reducible first
    | exact .inr rfl
    | exact Sub.trans (b := execPwmCmpaMask) (by decide +kernel) hm
    | exact Has.sub (a := execPwmCmpaMask) (by decide +kernel) hm
    | exact .inl (Has.sub (a := execPwmCmpaMask) (by decide +kernel) hm)
    | exact Has.at (by decide) (Has.sub (a := execPwmCmpaMask) (by decide +kernel) hm)
    | exact Has.cell (by decide) (Has.sub (a := execPwmCmpaMask) (by decide +kernel) hm)
    | exact Has.cellNext (by decide) (Has.sub (a := execPwmCmpaMask) (by decide +kernel) hm)
    | exact Has.ite (Has.sub (a := execPwmCmpaMask) (by decide +kernel) hm) (Has.sub (a := execPwmCmpaMask) (by decide +kernel) hm)
    | exact .inr (fun _ => rfl)
    | (intro _; rfl)
    | (intro _; simp; done)
    | (simp; assumption)
    | (refine .inr (fun _ => ?_); simp; done)
    | (refine .inr (fun _ => ?_); (repeat' split) <;> first | rfl | (simp; done))
    | (simp; done)

def execPwmCmpbMask : Nat :=
  State.cmpbHitMask ||| settleMask

theorem execPwmCmpb_touch {msk : Nat} {n : Fin 16} {s : State} (hm : Sub execPwmCmpbMask msk) : TouchOut msk s (execPwmCmpb n s) := by
  unfold execPwmCmpb
  try dsimp only
  repeat' (with_reducible first
    | assumption
    | exact TouchOut.fault
    | apply TouchOut.done
    | exact Touch.refl
    | intro _
    | apply State.cmpbHit_touch)
  all_goals with_reducible first
    | exact .inr rfl
    | exact Sub.trans (b := execPwmCmpbMask) (by decide +kernel) hm
    | exact Has.sub (a := execPwmCmpbMask) (by decide +kernel) hm
    | exact .inl (Has.sub (a := execPwmCmpbMask) (by decide +kernel) hm)
    | exact Has.at (by decide) (Has.sub (a := execPwmCmpbMask) (by decide +kernel) hm)
    | exact Has.cell (by decide) (Has.sub (a := execPwmCmpbMask) (by decide +kernel) hm)
    | exact Has.cellNext (by decide) (Has.sub (a := execPwmCmpbMask) (by decide +kernel) hm)
    | exact Has.ite (Has.sub (a := execPwmCmpbMask) (by decide +kernel) hm) (Has.sub (a := execPwmCmpbMask) (by decide +kernel) hm)
    | exact .inr (fun _ => rfl)
    | (intro _; rfl)
    | (intro _; simp; done)
    | (simp; assumption)
    | (refine .inr (fun _ => ?_); simp; done)
    | (refine .inr (fun _ => ?_); (repeat' split) <;> first | rfl | (simp; done))
    | (simp; done)

def execPeakComparatorEndMask : Nat :=
  State.peakEndMask ||| settleMask

theorem execPeakComparatorEnd_touch {msk : Nat} {n : Fin 16} {cnt : Word} {s : State} (hm : Sub execPeakComparatorEndMask msk) : TouchOut msk s (execPeakComparatorEnd n cnt s) := by
  unfold execPeakComparatorEnd
  try dsimp only
  repeat' (with_reducible first
    | assumption
    | exact TouchOut.fault
    | apply TouchOut.done
    | exact Touch.refl
    | intro _
    | apply State.peakEnd_touch)
  all_goals with_reducible first
    | exact .inr rfl
    | exact Sub.trans (b := execPeakComparatorEndMask) (by decide +kernel) hm
    | exact Has.sub (a := execPeakComparatorEndMask) (by decide +kernel) hm
    | exact .inl (Has.sub (a := execPeakComparatorEndMask) (by decide +kernel) hm)
    | exact Has.at (by decide) (Has.sub (a := execPeakComparatorEndMask) (by decide +kernel) hm)
    | exact Has.cell (by decide) (Has.sub (a := execPeakComparatorEndMask) (by decide +kernel) hm)
    | exact Has.cellNext (by decide) (Has.sub (a := execPeakComparatorEndMask) (by decide +kernel) hm)
    | exact Has.ite (Has.sub (a := execPeakComparatorEndMask) (by decide +kernel) hm) (Has.sub (a := execPeakComparatorEndMask) (by decide +kernel) hm)
    | exact .inr (fun _ => rfl)
    | (intro _; rfl)
    | (intro _; simp; done)
    | (simp; assumption)
    | (refine .inr (fun _ => ?_); simp; done)
    | (refine .inr (fun _ => ?_); (repeat' split) <;> first | rfl | (simp; done))
    | (simp; done)

def execSwSensedLowMask : Nat :=
  State.swLowMask ||| settleMask

theorem execSwSensedLow_touch {msk : Nat} {n : Fin 16} {cnt : Word} {s : State} (hm : Sub execSwSensedLowMask msk) : TouchOut msk s (execSwSensedLow n cnt s) := by
  unfold execSwSensedLow
  try dsimp only
  repeat' (with_reducible first
    | assumption
    | exact TouchOut.fault
    | apply TouchOut.done
    | exact Touch.refl
    | intro _
    | apply State.swLow_touch)
  all_goals with_reducible first
    | exact .inr rfl
    | exact Sub.trans (b := execSwSensedLowMask) (by decide +kernel) hm
    | exact Has.sub (a := execSwSensedLowMask) (by decide +kernel) hm
    | exact .inl (Has.sub (a := execSwSensedLowMask) (by decide +kernel) hm)
    | exact Has.at (by decide) (Has.sub (a := execSwSensedLowMask) (by decide +kernel) hm)
    | exact Has.cell (by decide) (Has.sub (a := execSwSensedLowMask) (by decide +kernel) hm)
    | exact Has.cellNext (by decide) (Has.sub (a := execSwSensedLowMask) (by decide +kernel) hm)
    | exact Has.ite (Has.sub (a := execSwSensedLowMask) (by decide +kernel) hm) (Has.sub (a := execSwSensedLowMask) (by decide +kernel) hm)
    | exact .inr (fun _ => rfl)
    | (intro _; rfl)
    | (intro _; simp; done)
    | (simp; assumption)
    | (refine .inr (fun _ => ?_); simp; done)
    | (refine .inr (fun _ => ?_); (repeat' split) <;> first | rfl | (simp; done))
    | (simp; done)

def execLgSensedLowMask : Nat :=
  State.lgSensedMask ||| settleMask

theorem execLgSensedLow_touch {msk : Nat} {n : Fin 16} {cnt : Word} {s : State} (hm : Sub execLgSensedLowMask msk) : TouchOut msk s (execLgSensedLow n cnt s) := by
  unfold execLgSensedLow
  try dsimp only
  repeat' (with_reducible first
    | assumption
    | exact TouchOut.fault
    | apply TouchOut.done
    | exact Touch.refl
    | intro _
    | apply State.lgSensed_touch)
  all_goals with_reducible first
    | exact .inr rfl
    | exact Sub.trans (b := execLgSensedLowMask) (by decide +kernel) hm
    | exact Has.sub (a := execLgSensedLowMask) (by decide +kernel) hm
    | exact .inl (Has.sub (a := execLgSensedLowMask) (by decide +kernel) hm)
    | exact Has.at (by decide) (Has.sub (a := execLgSensedLowMask) (by decide +kernel) hm)
    | exact Has.cell (by decide) (Has.sub (a := execLgSensedLowMask) (by decide +kernel) hm)
    | exact Has.cellNext (by decide) (Has.sub (a := execLgSensedLowMask) (by decide +kernel) hm)
    | exact Has.ite (Has.sub (a := execLgSensedLowMask) (by decide +kernel) hm) (Has.sub (a := execLgSensedLowMask) (by decide +kernel) hm)
    | exact .inr (fun _ => rfl)
    | (intro _; rfl)
    | (intro _; simp; done)
    | (simp; assumption)
    | (refine .inr (fun _ => ?_); simp; done)
    | (refine .inr (fun _ => ?_); (repeat' split) <;> first | rfl | (simp; done))
    | (simp; done)

def execHgTurnOnMask : Nat :=
  State.hgTurnOnMask ||| settleMask

theorem execHgTurnOn_touch {msk : Nat} {n : Fin 16} {cnt : Word} {s : State} (hm : Sub execHgTurnOnMask msk) : TouchOut msk s (execHgTurnOn n cnt s) := by
  unfold execHgTurnOn
  try dsimp only
  repeat' (with_reducible first
    | assumption
    | exact TouchOut.fault
    | apply TouchOut.done
    | exact Touch.refl
    | intro _
    | apply State.hgTurnOn_touch)
  all_goals with_reducible first
    | exact .inr rfl
    | exact Sub.trans (b := execHgTurnOnMask) (by decide +kernel) hm
    | exact Has.sub (a := execHgTurnOnMask) (by decide +kernel) hm
    | exact .inl (Has.sub (a := execHgTurnOnMask) (by decide +kernel) hm)
    | exact Has.at (by decide) (Has.sub (a := execHgTurnOnMask) (by decide +kernel) hm)
    | exact Has.cell (by decide) (Has.sub (a := execHgTurnOnMask) (by decide +kernel) hm)
    | exact Has.cellNext (by decide) (Has.sub (a := execHgTurnOnMask) (by decide +kernel) hm)
    | exact Has.ite (Has.sub (a := execHgTurnOnMask) (by decide +kernel) hm) (Has.sub (a := execHgTurnOnMask) (by decide +kernel) hm)
    | exact .inr (fun _ => rfl)
    | (intro _; rfl)
    | (intro _; simp; done)
    | (simp; assumption)
    | (refine .inr (fun _ => ?_); simp; done)
    | (refine .inr (fun _ => ?_); (repeat' split) <;> first | rfl | (simp; done))
    | (simp; done)

def execDtmaxExpiryMask : Nat :=
  State.dtMaxMask ||| settleMask

theorem execDtmaxExpiry_touch {msk : Nat} {n : Fin 16} {cnt : Word} {s : State} (hm : Sub execDtmaxExpiryMask msk) : TouchOut msk s (execDtmaxExpiry n cnt s) := by
  unfold execDtmaxExpiry
  try dsimp only
  repeat' (with_reducible first
    | assumption
    | exact TouchOut.fault
    | apply TouchOut.done
    | exact Touch.refl
    | intro _
    | apply State.dtMax_touch)
  all_goals with_reducible first
    | exact .inr rfl
    | exact Sub.trans (b := execDtmaxExpiryMask) (by decide +kernel) hm
    | exact Has.sub (a := execDtmaxExpiryMask) (by decide +kernel) hm
    | exact .inl (Has.sub (a := execDtmaxExpiryMask) (by decide +kernel) hm)
    | exact Has.at (by decide) (Has.sub (a := execDtmaxExpiryMask) (by decide +kernel) hm)
    | exact Has.cell (by decide) (Has.sub (a := execDtmaxExpiryMask) (by decide +kernel) hm)
    | exact Has.cellNext (by decide) (Has.sub (a := execDtmaxExpiryMask) (by decide +kernel) hm)
    | exact Has.ite (Has.sub (a := execDtmaxExpiryMask) (by decide +kernel) hm) (Has.sub (a := execDtmaxExpiryMask) (by decide +kernel) hm)
    | exact .inr (fun _ => rfl)
    | (intro _; rfl)
    | (intro _; simp; done)
    | (simp; assumption)
    | (refine .inr (fun _ => ?_); simp; done)
    | (refine .inr (fun _ => ?_); (repeat' split) <;> first | rfl | (simp; done))
    | (simp; done)

def execZeroCurrentDetectMask : Nat :=
  State.zeroCurrentMask ||| settleMask

theorem execZeroCurrentDetect_touch {msk : Nat} {n : Fin 16} {cnt : Word} {s : State} (hm : Sub execZeroCurrentDetectMask msk) : TouchOut msk s (execZeroCurrentDetect n cnt s) := by
  unfold execZeroCurrentDetect
  try dsimp only
  repeat' (with_reducible first
    | assumption
    | exact TouchOut.fault
    | apply TouchOut.done
    | exact Touch.refl
    | intro _
    | apply State.zeroCurrent_touch)
  all_goals with_reducible first
    | exact .inr rfl
    | exact Sub.trans (b := execZeroCurrentDetectMask) (by decide +kernel) hm
    | exact Has.sub (a := execZeroCurrentDetectMask) (by decide +kernel) hm
    | exact .inl (Has.sub (a := execZeroCurrentDetectMask) (by decide +kernel) hm)
    | exact Has.at (by decide) (Has.sub (a := execZeroCurrentDetectMask) (by decide +kernel) hm)
    | exact Has.cell (by decide) (Has.sub (a := execZeroCurrentDetectMask) (by decide +kernel) hm)
    | exact Has.cellNext (by decide) (Has.sub (a := execZeroCurrentDetectMask) (by decide +kernel) hm)
    | exact Has.ite (Has.sub (a := execZeroCurrentDetectMask) (by decide +kernel) hm) (Has.sub (a := execZeroCurrentDetectMask) (by decide +kernel) hm)
    | exact .inr (fun _ => rfl)
    | (intro _; rfl)
    | (intro _; simp; done)
    | (simp; assumption)
    | (refine .inr (fun _ => ?_); simp; done)
    | (refine .inr (fun _ => ?_); (repeat' split) <;> first | rfl | (simp; done))
    | (simp; done)

def execBurnishEndMask : Nat :=
  State.burnEndMask ||| settleMask

theorem execBurnishEnd_touch {msk : Nat} {n : Fin 16} {bstLow : Bool} {s : State} (hm : Sub execBurnishEndMask msk) : TouchOut msk s (execBurnishEnd n bstLow s) := by
  unfold execBurnishEnd
  try dsimp only
  repeat' (with_reducible first
    | assumption
    | exact TouchOut.fault
    | apply TouchOut.done
    | exact Touch.refl
    | intro _
    | apply State.burnEnd_touch)
  all_goals with_reducible first
    | exact .inr rfl
    | exact Sub.trans (b := execBurnishEndMask) (by decide +kernel) hm
    | exact Has.sub (a := execBurnishEndMask) (by decide +kernel) hm
    | exact .inl (Has.sub (a := execBurnishEndMask) (by decide +kernel) hm)
    | exact Has.at (by decide) (Has.sub (a := execBurnishEndMask) (by decide +kernel) hm)
    | exact Has.cell (by decide) (Has.sub (a := execBurnishEndMask) (by decide +kernel) hm)
    | exact Has.cellNext (by decide) (Has.sub (a := execBurnishEndMask) (by decide +kernel) hm)
    | exact Has.ite (Has.sub (a := execBurnishEndMask) (by decide +kernel) hm) (Has.sub (a := execBurnishEndMask) (by decide +kernel) hm)
    | exact .inr (fun _ => rfl)
    | (intro _; rfl)
    | (intro _; simp; done)
    | (simp; assumption)
    | (refine .inr (fun _ => ?_); simp; done)
    | (refine .inr (fun _ => ?_); (repeat' split) <;> first | rfl | (simp; done))
    | (simp; done)

def execBootstrapUvloMask : Nat :=
  State.bstUvloMask ||| settleMask ||| Part.hlt.bit

theorem execBootstrapUvlo_touch {msk : Nat} {n : Fin 16} {s : State} (hm : Sub execBootstrapUvloMask msk) : TouchOut msk s (execBootstrapUvlo n s) := by
  unfold execBootstrapUvlo
  try dsimp only
  repeat' (with_reducible first
    | assumption
    | exact TouchOut.fault
    | apply TouchOut.done
    | exact Touch.refl
    | intro _
    | apply Touch.modHchan
    | apply State.bstUvlo_touch
    | apply Touch.ite
    | split)
  all_goals with_reducible first
    | exact .inr rfl
    | exact Sub.trans (b := execBootstrapUvloMask) (by decide +kernel) hm
    | exact Has.sub (a := execBootstrapUvloMask) (by decide +kernel) hm
    | exact .inl (Has.sub (a := execBootstrapUvloMask) (by decide +kernel) hm)
    | exact Has.at (by decide) (Has.sub (a := execBootstrapUvloMask) (by decide +kernel) hm)
    | exact Has.cell (by decide) (Has.sub (a := execBootstrapUvloMask) (by decide +kernel) hm)
    | exact Has.cellNext (by decide) (Has.sub (a := execBootstrapUvloMask) (by decide +kernel) hm)
    | exact Has.ite (Has.sub (a := execBootstrapUvloMask) (by decide +kernel) hm) (Has.sub (a := execBootstrapUvloMask) (by decide +kernel) hm)
    | exact .inr (fun _ => rfl)
    | (intro _; rfl)
    | (intro _; simp; done)
    | (simp; assumption)
    | (refine .inr (fun _ => ?_); simp; done)
    | (refine .inr (fun _ => ?_); (repeat' split) <;> first | rfl | (simp; done))
    | (simp; done)

def execPwmForceWriteMask : Nat :=
  State.onWriteMask ||| State.forceWriteMask ||| settleMask

theorem execPwmForceWrite_touch {msk : Nat} {p : Path} {v : Word} {s : State} (hm : Sub execPwmForceWriteMask msk) : TouchOut msk s (execPwmForceWrite p v s) := by
  unfold execPwmForceWrite
  try dsimp only
  repeat' (with_reducible first
    | assumption
    | exact TouchOut.fault
    | apply TouchOut.done
    | exact Touch.refl
    | intro _
    | apply State.onWrite_touch
    | apply State.forceWrite_touch
    | apply Touch.foldl
    | apply Touch.foldlFst)
  all_goals with_reducible first
    | exact .inr rfl
    | exact Sub.trans (b := execPwmForceWriteMask) (by decide +kernel) hm
    | exact Has.sub (a := execPwmForceWriteMask) (by decide +kernel) hm
    | exact .inl (Has.sub (a := execPwmForceWriteMask) (by decide +kernel) hm)
    | exact Has.at (by decide) (Has.sub (a := execPwmForceWriteMask) (by decide +kernel) hm)
    | exact Has.cell (by decide) (Has.sub (a := execPwmForceWriteMask) (by decide +kernel) hm)
    | exact Has.cellNext (by decide) (Has.sub (a := execPwmForceWriteMask) (by decide +kernel) hm)
    | exact Has.ite (Has.sub (a := execPwmForceWriteMask) (by decide +kernel) hm) (Has.sub (a := execPwmForceWriteMask) (by decide +kernel) hm)
    | exact .inr (fun _ => rfl)
    | (intro _; rfl)
    | (intro _; simp; done)
    | (simp; assumption)
    | (refine .inr (fun _ => ?_); simp; done)
    | (refine .inr (fun _ => ?_); (repeat' split) <;> first | rfl | (simp; done))
    | (simp; done)

def execForceEffectMask : Nat :=
  State.forceEffectMask ||| settleMask

theorem execForceEffect_touch {msk : Nat} {n : Fin 16} {s : State} (hm : Sub execForceEffectMask msk) : TouchOut msk s (execForceEffect n s) := by
  unfold execForceEffect
  try dsimp only
  repeat' (with_reducible first
    | assumption
    | exact TouchOut.fault
    | apply TouchOut.done
    | exact Touch.refl
    | intro _
    | apply State.forceEffect_touch)
  all_goals with_reducible first
    | exact .inr rfl
    | exact Sub.trans (b := execForceEffectMask) (by decide +kernel) hm
    | exact Has.sub (a := execForceEffectMask) (by decide +kernel) hm
    | exact .inl (Has.sub (a := execForceEffectMask) (by decide +kernel) hm)
    | exact Has.at (by decide) (Has.sub (a := execForceEffectMask) (by decide +kernel) hm)
    | exact Has.cell (by decide) (Has.sub (a := execForceEffectMask) (by decide +kernel) hm)
    | exact Has.cellNext (by decide) (Has.sub (a := execForceEffectMask) (by decide +kernel) hm)
    | exact Has.ite (Has.sub (a := execForceEffectMask) (by decide +kernel) hm) (Has.sub (a := execForceEffectMask) (by decide +kernel) hm)
    | exact .inr (fun _ => rfl)
    | (intro _; rfl)
    | (intro _; simp; done)
    | (simp; assumption)
    | (refine .inr (fun _ => ?_); simp; done)
    | (refine .inr (fun _ => ?_); (repeat' split) <;> first | rfl | (simp; done))
    | (simp; done)

def execOvercurrentTripMask : Nat :=
  State.ownTripMask ||| State.proofTripsMask ||| settleMask ||| Part.pwm.bit

theorem execOvercurrentTrip_touch {msk : Nat} {n : Fin 16} {s : State} (hm : Sub execOvercurrentTripMask msk) : TouchOut msk s (execOvercurrentTrip n s) := by
  unfold execOvercurrentTrip
  try dsimp only
  repeat' (with_reducible first
    | assumption
    | exact TouchOut.fault
    | apply TouchOut.done
    | exact Touch.refl
    | intro _
    | apply Touch.modChan
    | apply State.ownTrip_touch
    | apply State.proofTrips_touch
    | (refine Touch.ofEq (by assumption) ?_)
    | split)
  all_goals with_reducible first
    | exact .inr rfl
    | exact Sub.trans (b := execOvercurrentTripMask) (by decide +kernel) hm
    | exact Has.sub (a := execOvercurrentTripMask) (by decide +kernel) hm
    | exact .inl (Has.sub (a := execOvercurrentTripMask) (by decide +kernel) hm)
    | exact Has.at (by decide) (Has.sub (a := execOvercurrentTripMask) (by decide +kernel) hm)
    | exact Has.cell (by decide) (Has.sub (a := execOvercurrentTripMask) (by decide +kernel) hm)
    | exact Has.cellNext (by decide) (Has.sub (a := execOvercurrentTripMask) (by decide +kernel) hm)
    | exact Has.ite (Has.sub (a := execOvercurrentTripMask) (by decide +kernel) hm) (Has.sub (a := execOvercurrentTripMask) (by decide +kernel) hm)
    | exact .inr (fun _ => rfl)
    | (intro _; rfl)
    | (intro _; simp; done)
    | (simp; assumption)
    | (refine .inr (fun _ => ?_); simp; done)
    | (refine .inr (fun _ => ?_); (repeat' split) <;> first | rfl | (simp; done))
    | (simp; done)

def execStringOvervoltageTripMask : Nat :=
  State.ownTripMask ||| State.proofTripsMask ||| settleMask

theorem execStringOvervoltageTrip_touch {msk : Nat} {n : Fin 16} {s : State} (hm : Sub execStringOvervoltageTripMask msk) : TouchOut msk s (execStringOvervoltageTrip n s) := by
  unfold execStringOvervoltageTrip
  try dsimp only
  repeat' (with_reducible first
    | assumption
    | exact TouchOut.fault
    | apply TouchOut.done
    | exact Touch.refl
    | intro _
    | apply State.ownTrip_touch
    | apply State.proofTrips_touch
    | apply Touch.ite
    | split)
  all_goals with_reducible first
    | exact .inr rfl
    | exact Sub.trans (b := execStringOvervoltageTripMask) (by decide +kernel) hm
    | exact Has.sub (a := execStringOvervoltageTripMask) (by decide +kernel) hm
    | exact .inl (Has.sub (a := execStringOvervoltageTripMask) (by decide +kernel) hm)
    | exact Has.at (by decide) (Has.sub (a := execStringOvervoltageTripMask) (by decide +kernel) hm)
    | exact Has.cell (by decide) (Has.sub (a := execStringOvervoltageTripMask) (by decide +kernel) hm)
    | exact Has.cellNext (by decide) (Has.sub (a := execStringOvervoltageTripMask) (by decide +kernel) hm)
    | exact Has.ite (Has.sub (a := execStringOvervoltageTripMask) (by decide +kernel) hm) (Has.sub (a := execStringOvervoltageTripMask) (by decide +kernel) hm)
    | exact .inr (fun _ => rfl)
    | (intro _; rfl)
    | (intro _; simp; done)
    | (simp; assumption)
    | (refine .inr (fun _ => ?_); simp; done)
    | (refine .inr (fun _ => ?_); (repeat' split) <;> first | rfl | (simp; done))
    | (simp; done)

def execTripPinActiveMask : Nat :=
  State.ownTripMask ||| State.proofTripsMask ||| settleMask

theorem execTripPinActive_touch {msk : Nat} {t : Fin 4} {s : State} (hm : Sub execTripPinActiveMask msk) : TouchOut msk s (execTripPinActive t s) := by
  unfold execTripPinActive
  try dsimp only
  repeat' (with_reducible first
    | assumption
    | exact TouchOut.fault
    | apply TouchOut.done
    | exact Touch.refl
    | intro _
    | apply Touch.forChans
    | apply State.ownTrip_touch
    | apply State.proofTrips_touch
    | apply Touch.ite
    | split)
  all_goals with_reducible first
    | exact .inr rfl
    | exact Sub.trans (b := execTripPinActiveMask) (by decide +kernel) hm
    | exact Has.sub (a := execTripPinActiveMask) (by decide +kernel) hm
    | exact .inl (Has.sub (a := execTripPinActiveMask) (by decide +kernel) hm)
    | exact Has.at (by decide) (Has.sub (a := execTripPinActiveMask) (by decide +kernel) hm)
    | exact Has.cell (by decide) (Has.sub (a := execTripPinActiveMask) (by decide +kernel) hm)
    | exact Has.cellNext (by decide) (Has.sub (a := execTripPinActiveMask) (by decide +kernel) hm)
    | exact Has.ite (Has.sub (a := execTripPinActiveMask) (by decide +kernel) hm) (Has.sub (a := execTripPinActiveMask) (by decide +kernel) hm)
    | exact .inr (fun _ => rfl)
    | (intro _; rfl)
    | (intro _; simp; done)
    | (simp; assumption)
    | (refine .inr (fun _ => ?_); simp; done)
    | (refine .inr (fun _ => ?_); (repeat' split) <;> first | rfl | (simp; done))
    | (simp; done)

def execLinkUndervoltageMask : Nat :=
  State.postMask ||| State.pwrStickMask ||| State.globalLiveMask ||| State.globalLevelsMask ||| settleMask ||| rbit
    R.PWR_STAT

theorem execLinkUndervoltage_touch {msk : Nat} {level : Byte} {s : State} (hm : Sub execLinkUndervoltageMask msk) : TouchOut msk s (execLinkUndervoltage level s) := by
  unfold execLinkUndervoltage
  try dsimp only
  repeat' (with_reducible first
    | assumption
    | exact TouchOut.fault
    | apply TouchOut.done
    | exact Touch.refl
    | intro _
    | apply State.post_touch
    | apply State.pwrStick_touch
    | apply State.globalLive_touch
    | apply State.globalLevels_touch
    | apply State.setFlag_touch
    | apply Touch.ite
    | split)
  all_goals with_reducible first
    | exact .inr rfl
    | exact Sub.trans (b := execLinkUndervoltageMask) (by decide +kernel) hm
    | exact Has.sub (a := execLinkUndervoltageMask) (by decide +kernel) hm
    | exact .inl (Has.sub (a := execLinkUndervoltageMask) (by decide +kernel) hm)
    | exact Has.at (by decide) (Has.sub (a := execLinkUndervoltageMask) (by decide +kernel) hm)
    | exact Has.cell (by decide) (Has.sub (a := execLinkUndervoltageMask) (by decide +kernel) hm)
    | exact Has.cellNext (by decide) (Has.sub (a := execLinkUndervoltageMask) (by decide +kernel) hm)
    | exact Has.ite (Has.sub (a := execLinkUndervoltageMask) (by decide +kernel) hm) (Has.sub (a := execLinkUndervoltageMask) (by decide +kernel) hm)
    | exact .inr (fun _ => rfl)
    | (intro _; rfl)
    | (intro _; simp; done)
    | (simp; assumption)
    | (refine .inr (fun _ => ?_); simp; done)
    | (refine .inr (fun _ => ?_); (repeat' split) <;> first | rfl | (simp; done))
    | (simp; done)

def execLinkOvervoltageMask : Nat :=
  State.postMask ||| State.pwrStickMask ||| State.globalLiveMask ||| State.globalLevelsMask ||| settleMask ||| rbit
    R.PWR_STAT

theorem execLinkOvervoltage_touch {msk : Nat} {level : Byte} {s : State} (hm : Sub execLinkOvervoltageMask msk) : TouchOut msk s (execLinkOvervoltage level s) := by
  unfold execLinkOvervoltage
  try dsimp only
  repeat' (with_reducible first
    | assumption
    | exact TouchOut.fault
    | apply TouchOut.done
    | exact Touch.refl
    | intro _
    | apply State.post_touch
    | apply State.pwrStick_touch
    | apply State.globalLive_touch
    | apply State.globalLevels_touch
    | apply State.setFlag_touch
    | apply Touch.ite
    | split)
  all_goals with_reducible first
    | exact .inr rfl
    | exact Sub.trans (b := execLinkOvervoltageMask) (by decide +kernel) hm
    | exact Has.sub (a := execLinkOvervoltageMask) (by decide +kernel) hm
    | exact .inl (Has.sub (a := execLinkOvervoltageMask) (by decide +kernel) hm)
    | exact Has.at (by decide) (Has.sub (a := execLinkOvervoltageMask) (by decide +kernel) hm)
    | exact Has.cell (by decide) (Has.sub (a := execLinkOvervoltageMask) (by decide +kernel) hm)
    | exact Has.cellNext (by decide) (Has.sub (a := execLinkOvervoltageMask) (by decide +kernel) hm)
    | exact Has.ite (Has.sub (a := execLinkOvervoltageMask) (by decide +kernel) hm) (Has.sub (a := execLinkOvervoltageMask) (by decide +kernel) hm)
    | exact .inr (fun _ => rfl)
    | (intro _; rfl)
    | (intro _; simp; done)
    | (simp; assumption)
    | (refine .inr (fun _ => ?_); simp; done)
    | (refine .inr (fun _ => ?_); (repeat' split) <;> first | rfl | (simp; done))
    | (simp; done)

def execOvertemperatureMask : Nat :=
  State.globalLiveMask ||| State.globalLevelsMask ||| settleMask ||| Part.pwm.bit

theorem execOvertemperature_touch {msk : Nat} {s : State} (hm : Sub execOvertemperatureMask msk) : TouchOut msk s (execOvertemperature s) := by
  unfold execOvertemperature
  try dsimp only
  repeat' (with_reducible first
    | assumption
    | exact TouchOut.fault
    | apply TouchOut.done
    | exact Touch.refl
    | intro _
    | apply Touch.modPwm
    | apply State.globalLive_touch
    | apply State.globalLevels_touch
    | apply Touch.ite
    | split)
  all_goals with_reducible first
    | exact .inr rfl
    | exact Sub.trans (b := execOvertemperatureMask) (by decide +kernel) hm
    | exact Has.sub (a := execOvertemperatureMask) (by decide +kernel) hm
    | exact .inl (Has.sub (a := execOvertemperatureMask) (by decide +kernel) hm)
    | exact Has.at (by decide) (Has.sub (a := execOvertemperatureMask) (by decide +kernel) hm)
    | exact Has.cell (by decide) (Has.sub (a := execOvertemperatureMask) (by decide +kernel) hm)
    | exact Has.cellNext (by decide) (Has.sub (a := execOvertemperatureMask) (by decide +kernel) hm)
    | exact Has.ite (Has.sub (a := execOvertemperatureMask) (by decide +kernel) hm) (Has.sub (a := execOvertemperatureMask) (by decide +kernel) hm)
    | exact .inr (fun _ => rfl)
    | (intro _; rfl)
    | (intro _; simp; done)
    | (simp; assumption)
    | (refine .inr (fun _ => ?_); simp; done)
    | (refine .inr (fun _ => ?_); (repeat' split) <;> first | rfl | (simp; done))
    | (simp; done)

def execGlobalTripSourceInactiveMask : Nat :=
  State.globalLiveMask ||| settleMask ||| rbit R.PWR_STAT ||| Part.pwm.bit

theorem execGlobalTripSourceInactive_touch {msk : Nat} {src : GlobalSrc} {s : State} (hm : Sub execGlobalTripSourceInactiveMask msk) : TouchOut msk s (execGlobalTripSourceInactive src s) := by
  unfold execGlobalTripSourceInactive
  try dsimp only
  repeat' (with_reducible first
    | assumption
    | exact TouchOut.fault
    | apply TouchOut.done
    | exact Touch.refl
    | intro _
    | apply Touch.modPwm
    | apply State.globalLive_touch
    | apply State.setFlag_touch
    | (refine Touch.ofEq (by assumption) ?_)
    | split)
  all_goals with_reducible first
    | exact .inr rfl
    | exact Sub.trans (b := execGlobalTripSourceInactiveMask) (by decide +kernel) hm
    | exact Has.sub (a := execGlobalTripSourceInactiveMask) (by decide +kernel) hm
    | exact .inl (Has.sub (a := execGlobalTripSourceInactiveMask) (by decide +kernel) hm)
    | exact Has.at (by decide) (Has.sub (a := execGlobalTripSourceInactiveMask) (by decide +kernel) hm)
    | exact Has.cell (by decide) (Has.sub (a := execGlobalTripSourceInactiveMask) (by decide +kernel) hm)
    | exact Has.cellNext (by decide) (Has.sub (a := execGlobalTripSourceInactiveMask) (by decide +kernel) hm)
    | exact Has.ite (Has.sub (a := execGlobalTripSourceInactiveMask) (by decide +kernel) hm) (Has.sub (a := execGlobalTripSourceInactiveMask) (by decide +kernel) hm)
    | exact .inr (fun _ => rfl)
    | (intro _; rfl)
    | (intro _; simp; done)
    | (simp; assumption)
    | (refine .inr (fun _ => ?_); simp; done)
    | (refine .inr (fun _ => ?_); (repeat' split) <;> first | rfl | (simp; done))
    | (simp; done)

def execTripClearMask : Nat :=
  State.onWriteMask ||| State.tripClrMask ||| settleMask

theorem execTripClear_touch {msk : Nat} {p : Path} {oc : Word} {ov : Word} {pins : BitVec 4} {s : State} (hm : Sub execTripClearMask msk) : TouchOut msk s (execTripClear p oc ov pins s) := by
  unfold execTripClear
  try dsimp only
  repeat' (with_reducible first
    | assumption
    | exact TouchOut.fault
    | apply TouchOut.done
    | exact Touch.refl
    | intro _
    | apply State.onWrite_touch
    | apply State.tripClr_touch
    | apply Touch.foldl
    | apply Touch.foldlFst)
  all_goals with_reducible first
    | exact .inr rfl
    | exact Sub.trans (b := execTripClearMask) (by decide +kernel) hm
    | exact Has.sub (a := execTripClearMask) (by decide +kernel) hm
    | exact .inl (Has.sub (a := execTripClearMask) (by decide +kernel) hm)
    | exact Has.at (by decide) (Has.sub (a := execTripClearMask) (by decide +kernel) hm)
    | exact Has.cell (by decide) (Has.sub (a := execTripClearMask) (by decide +kernel) hm)
    | exact Has.cellNext (by decide) (Has.sub (a := execTripClearMask) (by decide +kernel) hm)
    | exact Has.ite (Has.sub (a := execTripClearMask) (by decide +kernel) hm) (Has.sub (a := execTripClearMask) (by decide +kernel) hm)
    | exact .inr (fun _ => rfl)
    | (intro _; rfl)
    | (intro _; simp; done)
    | (simp; assumption)
    | (refine .inr (fun _ => ?_); simp; done)
    | (refine .inr (fun _ => ?_); (repeat' split) <;> first | rfl | (simp; done))
    | (simp; done)

def execGlobalTripAutoClearMask : Nat :=
  State.autoClearMask ||| settleMask

theorem execGlobalTripAutoClear_touch {msk : Nat} {s : State} (hm : Sub execGlobalTripAutoClearMask msk) : TouchOut msk s (execGlobalTripAutoClear s) := by
  unfold execGlobalTripAutoClear
  try dsimp only
  repeat' (with_reducible first
    | assumption
    | exact TouchOut.fault
    | apply TouchOut.done
    | exact Touch.refl
    | intro _
    | apply State.autoClear_touch
    | apply Touch.ite
    | split)
  all_goals with_reducible first
    | exact .inr rfl
    | exact Sub.trans (b := execGlobalTripAutoClearMask) (by decide +kernel) hm
    | exact Has.sub (a := execGlobalTripAutoClearMask) (by decide +kernel) hm
    | exact .inl (Has.sub (a := execGlobalTripAutoClearMask) (by decide +kernel) hm)
    | exact Has.at (by decide) (Has.sub (a := execGlobalTripAutoClearMask) (by decide +kernel) hm)
    | exact Has.cell (by decide) (Has.sub (a := execGlobalTripAutoClearMask) (by decide +kernel) hm)
    | exact Has.cellNext (by decide) (Has.sub (a := execGlobalTripAutoClearMask) (by decide +kernel) hm)
    | exact Has.ite (Has.sub (a := execGlobalTripAutoClearMask) (by decide +kernel) hm) (Has.sub (a := execGlobalTripAutoClearMask) (by decide +kernel) hm)
    | exact .inr (fun _ => rfl)
    | (intro _; rfl)
    | (intro _; simp; done)
    | (simp; assumption)
    | (refine .inr (fun _ => ?_); simp; done)
    | (refine .inr (fun _ => ?_); (repeat' split) <;> first | rfl | (simp; done))
    | (simp; done)

def execStormWindowRestartMask : Nat :=
  State.stormRestartMask ||| settleMask

theorem execStormWindowRestart_touch {msk : Nat} {s : State} (hm : Sub execStormWindowRestartMask msk) : TouchOut msk s (execStormWindowRestart s) := by
  unfold execStormWindowRestart
  try dsimp only
  repeat' (with_reducible first
    | assumption
    | exact TouchOut.fault
    | apply TouchOut.done
    | exact Touch.refl
    | intro _
    | apply State.stormRestart_touch
    | apply Touch.ite
    | split)
  all_goals with_reducible first
    | exact .inr rfl
    | exact Sub.trans (b := execStormWindowRestartMask) (by decide +kernel) hm
    | exact Has.sub (a := execStormWindowRestartMask) (by decide +kernel) hm
    | exact .inl (Has.sub (a := execStormWindowRestartMask) (by decide +kernel) hm)
    | exact Has.at (by decide) (Has.sub (a := execStormWindowRestartMask) (by decide +kernel) hm)
    | exact Has.cell (by decide) (Has.sub (a := execStormWindowRestartMask) (by decide +kernel) hm)
    | exact Has.cellNext (by decide) (Has.sub (a := execStormWindowRestartMask) (by decide +kernel) hm)
    | exact Has.ite (Has.sub (a := execStormWindowRestartMask) (by decide +kernel) hm) (Has.sub (a := execStormWindowRestartMask) (by decide +kernel) hm)
    | exact .inr (fun _ => rfl)
    | (intro _; rfl)
    | (intro _; simp; done)
    | (simp; assumption)
    | (refine .inr (fun _ => ?_); simp; done)
    | (refine .inr (fun _ => ?_); (repeat' split) <;> first | rfl | (simp; done))
    | (simp; done)

def execPwmHoldTimeoutMask : Nat :=
  State.holdTimeoutMask ||| settleMask

theorem execPwmHoldTimeout_touch {msk : Nat} {n : Fin 16} {s : State} (hm : Sub execPwmHoldTimeoutMask msk) : TouchOut msk s (execPwmHoldTimeout n s) := by
  unfold execPwmHoldTimeout
  try dsimp only
  repeat' (with_reducible first
    | assumption
    | exact TouchOut.fault
    | apply TouchOut.done
    | exact Touch.refl
    | intro _
    | apply State.holdTimeout_touch)
  all_goals with_reducible first
    | exact .inr rfl
    | exact Sub.trans (b := execPwmHoldTimeoutMask) (by decide +kernel) hm
    | exact Has.sub (a := execPwmHoldTimeoutMask) (by decide +kernel) hm
    | exact .inl (Has.sub (a := execPwmHoldTimeoutMask) (by decide +kernel) hm)
    | exact Has.at (by decide) (Has.sub (a := execPwmHoldTimeoutMask) (by decide +kernel) hm)
    | exact Has.cell (by decide) (Has.sub (a := execPwmHoldTimeoutMask) (by decide +kernel) hm)
    | exact Has.cellNext (by decide) (Has.sub (a := execPwmHoldTimeoutMask) (by decide +kernel) hm)
    | exact Has.ite (Has.sub (a := execPwmHoldTimeoutMask) (by decide +kernel) hm) (Has.sub (a := execPwmHoldTimeoutMask) (by decide +kernel) hm)
    | exact .inr (fun _ => rfl)
    | (intro _; rfl)
    | (intro _; simp; done)
    | (simp; assumption)
    | (refine .inr (fun _ => ?_); simp; done)
    | (refine .inr (fun _ => ?_); (repeat' split) <;> first | rfl | (simp; done))
    | (simp; done)

def execSynciEdgeMask : Nat :=
  State.synciMarkMask ||| State.syncLoadMask ||| settleMask

theorem execSynciEdge_touch {msk : Nat} {s : State} (hm : Sub execSynciEdgeMask msk) : TouchOut msk s (execSynciEdge s) := by
  unfold execSynciEdge
  try dsimp only
  repeat' (with_reducible first
    | assumption
    | exact TouchOut.fault
    | apply TouchOut.done
    | exact Touch.refl
    | intro _
    | apply State.synciMark_touch
    | apply State.syncLoad_touch
    | apply Touch.ite
    | split)
  all_goals with_reducible first
    | exact .inr rfl
    | exact Sub.trans (b := execSynciEdgeMask) (by decide +kernel) hm
    | exact Has.sub (a := execSynciEdgeMask) (by decide +kernel) hm
    | exact .inl (Has.sub (a := execSynciEdgeMask) (by decide +kernel) hm)
    | exact Has.at (by decide) (Has.sub (a := execSynciEdgeMask) (by decide +kernel) hm)
    | exact Has.cell (by decide) (Has.sub (a := execSynciEdgeMask) (by decide +kernel) hm)
    | exact Has.cellNext (by decide) (Has.sub (a := execSynciEdgeMask) (by decide +kernel) hm)
    | exact Has.ite (Has.sub (a := execSynciEdgeMask) (by decide +kernel) hm) (Has.sub (a := execSynciEdgeMask) (by decide +kernel) hm)
    | exact .inr (fun _ => rfl)
    | (intro _; rfl)
    | (intro _; simp; done)
    | (simp; assumption)
    | (refine .inr (fun _ => ?_); simp; done)
    | (refine .inr (fun _ => ?_); (repeat' split) <;> first | rfl | (simp; done))
    | (simp; done)

def execSyncoPulseEndMask : Nat :=
  settleMask ||| Part.pwm.bit

theorem execSyncoPulseEnd_touch {msk : Nat} {s : State} (hm : Sub execSyncoPulseEndMask msk) : TouchOut msk s (execSyncoPulseEnd s) := by
  unfold execSyncoPulseEnd
  try dsimp only
  repeat' (with_reducible first
    | assumption
    | exact TouchOut.fault
    | apply TouchOut.done
    | exact Touch.refl
    | intro _
    | apply Touch.modPwm)
  all_goals with_reducible first
    | exact .inr rfl
    | exact Sub.trans (b := execSyncoPulseEndMask) (by decide +kernel) hm
    | exact Has.sub (a := execSyncoPulseEndMask) (by decide +kernel) hm
    | exact .inl (Has.sub (a := execSyncoPulseEndMask) (by decide +kernel) hm)
    | exact Has.at (by decide) (Has.sub (a := execSyncoPulseEndMask) (by decide +kernel) hm)
    | exact Has.cell (by decide) (Has.sub (a := execSyncoPulseEndMask) (by decide +kernel) hm)
    | exact Has.cellNext (by decide) (Has.sub (a := execSyncoPulseEndMask) (by decide +kernel) hm)
    | exact Has.ite (Has.sub (a := execSyncoPulseEndMask) (by decide +kernel) hm) (Has.sub (a := execSyncoPulseEndMask) (by decide +kernel) hm)
    | exact .inr (fun _ => rfl)
    | (intro _; rfl)
    | (intro _; simp; done)
    | (simp; assumption)
    | (refine .inr (fun _ => ?_); simp; done)
    | (refine .inr (fun _ => ?_); (repeat' split) <;> first | rfl | (simp; done))
    | (simp; done)

def execPhrefPulseMask : Nat :=
  State.pulseMask ||| State.modTimMask ||| State.phrefMarkMask ||| settleMask

theorem execPhrefPulse_touch {msk : Nat} {s : State} (hm : Sub execPhrefPulseMask msk) : TouchOut msk s (execPhrefPulse s) := by
  unfold execPhrefPulse
  try dsimp only
  repeat' (with_reducible first
    | assumption
    | exact TouchOut.fault
    | apply TouchOut.done
    | exact Touch.refl
    | intro _
    | apply State.pulse_touch
    | apply State.modTim_touch
    | apply State.phrefMark_touch
    | apply Touch.ite
    | split)
  all_goals with_reducible first
    | exact .inr rfl
    | exact Sub.trans (b := execPhrefPulseMask) (by decide +kernel) hm
    | exact Has.sub (a := execPhrefPulseMask) (by decide +kernel) hm
    | exact .inl (Has.sub (a := execPhrefPulseMask) (by decide +kernel) hm)
    | exact Has.at (by decide) (Has.sub (a := execPhrefPulseMask) (by decide +kernel) hm)
    | exact Has.cell (by decide) (Has.sub (a := execPhrefPulseMask) (by decide +kernel) hm)
    | exact Has.cellNext (by decide) (Has.sub (a := execPhrefPulseMask) (by decide +kernel) hm)
    | exact Has.ite (Has.sub (a := execPhrefPulseMask) (by decide +kernel) hm) (Has.sub (a := execPhrefPulseMask) (by decide +kernel) hm)
    | exact .inr (fun _ => rfl)
    | (intro _; rfl)
    | (intro _; simp; done)
    | (simp; assumption)
    | (refine .inr (fun _ => ?_); simp; done)
    | (refine .inr (fun _ => ?_); (repeat' split) <;> first | rfl | (simp; done))
    | (simp; done)

def execDimmingPeriodStartMask : Nat :=
  State.phaseUpdateMask ||| State.dimPeriodMask ||| settleMask ||| Part.pwm.bit

theorem execDimmingPeriodStart_touch {msk : Nat} {g : Fin 9} {s : State} (hm : Sub execDimmingPeriodStartMask msk) : TouchOut msk s (execDimmingPeriodStart g s) := by
  unfold execDimmingPeriodStart
  try dsimp only
  repeat' (with_reducible first
    | assumption
    | exact TouchOut.fault
    | apply TouchOut.done
    | exact Touch.refl
    | intro _
    | apply Touch.modPwm
    | apply State.phaseUpdate_touch
    | apply State.dimPeriod_touch
    | apply Touch.ite
    | split)
  all_goals with_reducible first
    | exact .inr rfl
    | exact Sub.trans (b := execDimmingPeriodStartMask) (by decide +kernel) hm
    | exact Has.sub (a := execDimmingPeriodStartMask) (by decide +kernel) hm
    | exact .inl (Has.sub (a := execDimmingPeriodStartMask) (by decide +kernel) hm)
    | exact Has.at (by decide) (Has.sub (a := execDimmingPeriodStartMask) (by decide +kernel) hm)
    | exact Has.cell (by decide) (Has.sub (a := execDimmingPeriodStartMask) (by decide +kernel) hm)
    | exact Has.cellNext (by decide) (Has.sub (a := execDimmingPeriodStartMask) (by decide +kernel) hm)
    | exact Has.ite (Has.sub (a := execDimmingPeriodStartMask) (by decide +kernel) hm) (Has.sub (a := execDimmingPeriodStartMask) (by decide +kernel) hm)
    | exact .inr (fun _ => rfl)
    | (intro _; rfl)
    | (intro _; simp; done)
    | (simp; assumption)
    | (refine .inr (fun _ => ?_); simp; done)
    | (refine .inr (fun _ => ?_); (repeat' split) <;> first | rfl | (simp; done))
    | (simp; done)

def execRetryDueMask : Nat :=
  State.retryMask ||| settleMask

theorem execRetryDue_touch {msk : Nat} {n : Fin 16} {oc : Bool} {ov : Bool} {pins : BitVec 4} {s : State} (hm : Sub execRetryDueMask msk) : TouchOut msk s (execRetryDue n oc ov pins s) := by
  unfold execRetryDue
  try dsimp only
  repeat' (with_reducible first
    | assumption
    | exact TouchOut.fault
    | apply TouchOut.done
    | exact Touch.refl
    | intro _
    | apply State.retry_touch
    | apply Touch.ite
    | split)
  all_goals with_reducible first
    | exact .inr rfl
    | exact Sub.trans (b := execRetryDueMask) (by decide +kernel) hm
    | exact Has.sub (a := execRetryDueMask) (by decide +kernel) hm
    | exact .inl (Has.sub (a := execRetryDueMask) (by decide +kernel) hm)
    | exact Has.at (by decide) (Has.sub (a := execRetryDueMask) (by decide +kernel) hm)
    | exact Has.cell (by decide) (Has.sub (a := execRetryDueMask) (by decide +kernel) hm)
    | exact Has.cellNext (by decide) (Has.sub (a := execRetryDueMask) (by decide +kernel) hm)
    | exact Has.ite (Has.sub (a := execRetryDueMask) (by decide +kernel) hm) (Has.sub (a := execRetryDueMask) (by decide +kernel) hm)
    | exact .inr (fun _ => rfl)
    | (intro _; rfl)
    | (intro _; simp; done)
    | (simp; assumption)
    | (refine .inr (fun _ => ?_); simp; done)
    | (refine .inr (fun _ => ?_); (repeat' split) <;> first | rfl | (simp; done))
    | (simp; done)

def execRetryCountResetMask : Nat :=
  State.retryResetMask ||| settleMask

theorem execRetryCountReset_touch {msk : Nat} {n : Fin 16} {s : State} (hm : Sub execRetryCountResetMask msk) : TouchOut msk s (execRetryCountReset n s) := by
  unfold execRetryCountReset
  try dsimp only
  repeat' (with_reducible first
    | assumption
    | exact TouchOut.fault
    | apply TouchOut.done
    | exact Touch.refl
    | intro _
    | apply State.retryReset_touch)
  all_goals with_reducible first
    | exact .inr rfl
    | exact Sub.trans (b := execRetryCountResetMask) (by decide +kernel) hm
    | exact Has.sub (a := execRetryCountResetMask) (by decide +kernel) hm
    | exact .inl (Has.sub (a := execRetryCountResetMask) (by decide +kernel) hm)
    | exact Has.at (by decide) (Has.sub (a := execRetryCountResetMask) (by decide +kernel) hm)
    | exact Has.cell (by decide) (Has.sub (a := execRetryCountResetMask) (by decide +kernel) hm)
    | exact Has.cellNext (by decide) (Has.sub (a := execRetryCountResetMask) (by decide +kernel) hm)
    | exact Has.ite (Has.sub (a := execRetryCountResetMask) (by decide +kernel) hm) (Has.sub (a := execRetryCountResetMask) (by decide +kernel) hm)
    | exact .inr (fun _ => rfl)
    | (intro _; rfl)
    | (intro _; simp; done)
    | (simp; assumption)
    | (refine .inr (fun _ => ?_); simp; done)
    | (refine .inr (fun _ => ?_); (repeat' split) <;> first | rfl | (simp; done))
    | (simp; done)

def execLockClearMask : Nat :=
  State.onWriteMask ||| State.lockClrMask ||| settleMask

theorem execLockClear_touch {msk : Nat} {p : Path} {oc : Word} {ov : Word} {pins : BitVec 4} {s : State} (hm : Sub execLockClearMask msk) : TouchOut msk s (execLockClear p oc ov pins s) := by
  unfold execLockClear
  try dsimp only
  repeat' (with_reducible first
    | assumption
    | exact TouchOut.fault
    | apply TouchOut.done
    | exact Touch.refl
    | intro _
    | apply State.onWrite_touch
    | apply State.lockClr_touch
    | apply Touch.foldl
    | apply Touch.foldlFst)
  all_goals with_reducible first
    | exact .inr rfl
    | exact Sub.trans (b := execLockClearMask) (by decide +kernel) hm
    | exact Has.sub (a := execLockClearMask) (by decide +kernel) hm
    | exact .inl (Has.sub (a := execLockClearMask) (by decide +kernel) hm)
    | exact Has.at (by decide) (Has.sub (a := execLockClearMask) (by decide +kernel) hm)
    | exact Has.cell (by decide) (Has.sub (a := execLockClearMask) (by decide +kernel) hm)
    | exact Has.cellNext (by decide) (Has.sub (a := execLockClearMask) (by decide +kernel) hm)
    | exact Has.ite (Has.sub (a := execLockClearMask) (by decide +kernel) hm) (Has.sub (a := execLockClearMask) (by decide +kernel) hm)
    | exact .inr (fun _ => rfl)
    | (intro _; rfl)
    | (intro _; simp; done)
    | (simp; assumption)
    | (refine .inr (fun _ => ?_); simp; done)
    | (refine .inr (fun _ => ?_); (repeat' split) <;> first | rfl | (simp; done))
    | (simp; done)

def execGtuEnaWriteMask : Nat :=
  State.onWriteMask ||| State.gtuEnaMask ||| settleMask

theorem execGtuEnaWrite_touch {msk : Nat} {p : Path} {v : Word} {s : State} (hm : Sub execGtuEnaWriteMask msk) : TouchOut msk s (execGtuEnaWrite p v s) := by
  unfold execGtuEnaWrite
  try dsimp only
  repeat' (with_reducible first
    | assumption
    | exact TouchOut.fault
    | apply TouchOut.done
    | exact Touch.refl
    | intro _
    | apply State.onWrite_touch
    | apply State.gtuEna_touch)
  all_goals with_reducible first
    | exact .inr rfl
    | exact Sub.trans (b := execGtuEnaWriteMask) (by decide +kernel) hm
    | exact Has.sub (a := execGtuEnaWriteMask) (by decide +kernel) hm
    | exact .inl (Has.sub (a := execGtuEnaWriteMask) (by decide +kernel) hm)
    | exact Has.at (by decide) (Has.sub (a := execGtuEnaWriteMask) (by decide +kernel) hm)
    | exact Has.cell (by decide) (Has.sub (a := execGtuEnaWriteMask) (by decide +kernel) hm)
    | exact Has.cellNext (by decide) (Has.sub (a := execGtuEnaWriteMask) (by decide +kernel) hm)
    | exact Has.ite (Has.sub (a := execGtuEnaWriteMask) (by decide +kernel) hm) (Has.sub (a := execGtuEnaWriteMask) (by decide +kernel) hm)
    | exact .inr (fun _ => rfl)
    | (intro _; rfl)
    | (intro _; simp; done)
    | (simp; assumption)
    | (refine .inr (fun _ => ?_); simp; done)
    | (refine .inr (fun _ => ?_); (repeat' split) <;> first | rfl | (simp; done))
    | (simp; done)

def execGtValueEffectMask : Nat :=
  State.gtEffectMask ||| settleMask

theorem execGtValueEffect_touch {msk : Nat} {n : Fin 8} {s : State} (hm : Sub execGtValueEffectMask msk) : TouchOut msk s (execGtValueEffect n s) := by
  unfold execGtValueEffect
  try dsimp only
  repeat' (with_reducible first
    | assumption
    | exact TouchOut.fault
    | apply TouchOut.done
    | exact Touch.refl
    | intro _
    | apply State.gtEffect_touch)
  all_goals with_reducible first
    | exact .inr rfl
    | exact Sub.trans (b := execGtValueEffectMask) (by decide +kernel) hm
    | exact Has.sub (a := execGtValueEffectMask) (by decide +kernel) hm
    | exact .inl (Has.sub (a := execGtValueEffectMask) (by decide +kernel) hm)
    | exact Has.at (by decide) (Has.sub (a := execGtValueEffectMask) (by decide +kernel) hm)
    | exact Has.cell (by decide) (Has.sub (a := execGtValueEffectMask) (by decide +kernel) hm)
    | exact Has.cellNext (by decide) (Has.sub (a := execGtValueEffectMask) (by decide +kernel) hm)
    | exact Has.ite (Has.sub (a := execGtValueEffectMask) (by decide +kernel) hm) (Has.sub (a := execGtValueEffectMask) (by decide +kernel) hm)
    | exact .inr (fun _ => rfl)
    | (intro _; rfl)
    | (intro _; simp; done)
    | (simp; assumption)
    | (refine .inr (fun _ => ?_); simp; done)
    | (refine .inr (fun _ => ?_); (repeat' split) <;> first | rfl | (simp; done))
    | (simp; done)

def execGtCompareMatchMask : Nat :=
  State.gtMatchMask ||| settleMask

theorem execGtCompareMatch_touch {msk : Nat} {n : Fin 8} {m0 : Bool} {m1 : Bool} {s : State} (hm : Sub execGtCompareMatchMask msk) : TouchOut msk s (execGtCompareMatch n m0 m1 s) := by
  unfold execGtCompareMatch
  try dsimp only
  repeat' (with_reducible first
    | assumption
    | exact TouchOut.fault
    | apply TouchOut.done
    | exact Touch.refl
    | intro _
    | apply State.gtMatch_touch)
  all_goals with_reducible first
    | exact .inr rfl
    | exact Sub.trans (b := execGtCompareMatchMask) (by decide +kernel) hm
    | exact Has.sub (a := execGtCompareMatchMask) (by decide +kernel) hm
    | exact .inl (Has.sub (a := execGtCompareMatchMask) (by decide +kernel) hm)
    | exact Has.at (by decide) (Has.sub (a := execGtCompareMatchMask) (by decide +kernel) hm)
    | exact Has.cell (by decide) (Has.sub (a := execGtCompareMatchMask) (by decide +kernel) hm)
    | exact Has.cellNext (by decide) (Has.sub (a := execGtCompareMatchMask) (by decide +kernel) hm)
    | exact Has.ite (Has.sub (a := execGtCompareMatchMask) (by decide +kernel) hm) (Has.sub (a := execGtCompareMatchMask) (by decide +kernel) hm)
    | exact .inr (fun _ => rfl)
    | (intro _; rfl)
    | (intro _; simp; done)
    | (simp; assumption)
    | (refine .inr (fun _ => ?_); simp; done)
    | (refine .inr (fun _ => ?_); (repeat' split) <;> first | rfl | (simp; done))
    | (simp; done)

def execGtTriggerMask : Nat :=
  State.gtTrigMask ||| settleMask

theorem execGtTrigger_touch {msk : Nat} {n : Fin 8} {s : State} (hm : Sub execGtTriggerMask msk) : TouchOut msk s (execGtTrigger n s) := by
  unfold execGtTrigger
  try dsimp only
  repeat' (with_reducible first
    | assumption
    | exact TouchOut.fault
    | apply TouchOut.done
    | exact Touch.refl
    | intro _
    | apply State.gtTrig_touch
    | apply Touch.ite
    | split)
  all_goals with_reducible first
    | exact .inr rfl
    | exact Sub.trans (b := execGtTriggerMask) (by decide +kernel) hm
    | exact Has.sub (a := execGtTriggerMask) (by decide +kernel) hm
    | exact .inl (Has.sub (a := execGtTriggerMask) (by decide +kernel) hm)
    | exact Has.at (by decide) (Has.sub (a := execGtTriggerMask) (by decide +kernel) hm)
    | exact Has.cell (by decide) (Has.sub (a := execGtTriggerMask) (by decide +kernel) hm)
    | exact Has.cellNext (by decide) (Has.sub (a := execGtTriggerMask) (by decide +kernel) hm)
    | exact Has.ite (Has.sub (a := execGtTriggerMask) (by decide +kernel) hm) (Has.sub (a := execGtTriggerMask) (by decide +kernel) hm)
    | exact .inr (fun _ => rfl)
    | (intro _; rfl)
    | (intro _; simp; done)
    | (simp; assumption)
    | (refine .inr (fun _ => ?_); simp; done)
    | (refine .inr (fun _ => ?_); (repeat' split) <;> first | rfl | (simp; done))
    | (simp; done)

def execGtuTrgWriteMask : Nat :=
  State.onWriteMask ||| State.gtuTrgMask ||| settleMask

theorem execGtuTrgWrite_touch {msk : Nat} {p : Path} {v : Word} {s : State} (hm : Sub execGtuTrgWriteMask msk) : TouchOut msk s (execGtuTrgWrite p v s) := by
  unfold execGtuTrgWrite
  try dsimp only
  repeat' (with_reducible first
    | assumption
    | exact TouchOut.fault
    | apply TouchOut.done
    | exact Touch.refl
    | intro _
    | apply State.onWrite_touch
    | apply State.gtuTrg_touch)
  all_goals with_reducible first
    | exact .inr rfl
    | exact Sub.trans (b := execGtuTrgWriteMask) (by decide +kernel) hm
    | exact Has.sub (a := execGtuTrgWriteMask) (by decide +kernel) hm
    | exact .inl (Has.sub (a := execGtuTrgWriteMask) (by decide +kernel) hm)
    | exact Has.at (by decide) (Has.sub (a := execGtuTrgWriteMask) (by decide +kernel) hm)
    | exact Has.cell (by decide) (Has.sub (a := execGtuTrgWriteMask) (by decide +kernel) hm)
    | exact Has.cellNext (by decide) (Has.sub (a := execGtuTrgWriteMask) (by decide +kernel) hm)
    | exact Has.ite (Has.sub (a := execGtuTrgWriteMask) (by decide +kernel) hm) (Has.sub (a := execGtuTrgWriteMask) (by decide +kernel) hm)
    | exact .inr (fun _ => rfl)
    | (intro _; rfl)
    | (intro _; simp; done)
    | (simp; assumption)
    | (refine .inr (fun _ => ?_); simp; done)
    | (refine .inr (fun _ => ?_); (repeat' split) <;> first | rfl | (simp; done))
    | (simp; done)

def execGtPinEdgeMask : Nat :=
  State.gtPinMask ||| settleMask

theorem execGtPinEdge_touch {msk : Nat} {n : Fin 8} {level : Bool} {s : State} (hm : Sub execGtPinEdgeMask msk) : TouchOut msk s (execGtPinEdge n level s) := by
  unfold execGtPinEdge
  try dsimp only
  repeat' (with_reducible first
    | assumption
    | exact TouchOut.fault
    | apply TouchOut.done
    | exact Touch.refl
    | intro _
    | apply State.gtPin_touch
    | apply Touch.ite
    | split)
  all_goals with_reducible first
    | exact .inr rfl
    | exact Sub.trans (b := execGtPinEdgeMask) (by decide +kernel) hm
    | exact Has.sub (a := execGtPinEdgeMask) (by decide +kernel) hm
    | exact .inl (Has.sub (a := execGtPinEdgeMask) (by decide +kernel) hm)
    | exact Has.at (by decide) (Has.sub (a := execGtPinEdgeMask) (by decide +kernel) hm)
    | exact Has.cell (by decide) (Has.sub (a := execGtPinEdgeMask) (by decide +kernel) hm)
    | exact Has.cellNext (by decide) (Has.sub (a := execGtPinEdgeMask) (by decide +kernel) hm)
    | exact Has.ite (Has.sub (a := execGtPinEdgeMask) (by decide +kernel) hm) (Has.sub (a := execGtPinEdgeMask) (by decide +kernel) hm)
    | exact .inr (fun _ => rfl)
    | (intro _; rfl)
    | (intro _; simp; done)
    | (simp; assumption)
    | (refine .inr (fun _ => ?_); simp; done)
    | (refine .inr (fun _ => ?_); (repeat' split) <;> first | rfl | (simp; done))
    | (simp; done)

def execGtPinPulseEndMask : Nat :=
  settleMask ||| Part.gtu.bit

theorem execGtPinPulseEnd_touch {msk : Nat} {n : Fin 8} {s : State} (hm : Sub execGtPinPulseEndMask msk) : TouchOut msk s (execGtPinPulseEnd n s) := by
  unfold execGtPinPulseEnd
  try dsimp only
  repeat' (with_reducible first
    | assumption
    | exact TouchOut.fault
    | apply TouchOut.done
    | exact Touch.refl
    | intro _
    | apply Touch.modGt)
  all_goals with_reducible first
    | exact .inr rfl
    | exact Sub.trans (b := execGtPinPulseEndMask) (by decide +kernel) hm
    | exact Has.sub (a := execGtPinPulseEndMask) (by decide +kernel) hm
    | exact .inl (Has.sub (a := execGtPinPulseEndMask) (by decide +kernel) hm)
    | exact Has.at (by decide) (Has.sub (a := execGtPinPulseEndMask) (by decide +kernel) hm)
    | exact Has.cell (by decide) (Has.sub (a := execGtPinPulseEndMask) (by decide +kernel) hm)
    | exact Has.cellNext (by decide) (Has.sub (a := execGtPinPulseEndMask) (by decide +kernel) hm)
    | exact Has.ite (Has.sub (a := execGtPinPulseEndMask) (by decide +kernel) hm) (Has.sub (a := execGtPinPulseEndMask) (by decide +kernel) hm)
    | exact .inr (fun _ => rfl)
    | (intro _; rfl)
    | (intro _; simp; done)
    | (simp; assumption)
    | (refine .inr (fun _ => ?_); simp; done)
    | (refine .inr (fun _ => ?_); (repeat' split) <;> first | rfl | (simp; done))
    | (simp; done)

def execGtCatchUpMask : Nat :=
  State.gtCatchMask ||| settleMask

theorem execGtCatchUp_touch {msk : Nat} {n : Fin 8} {s : State} (hm : Sub execGtCatchUpMask msk) : TouchOut msk s (execGtCatchUp n s) := by
  unfold execGtCatchUp
  try dsimp only
  repeat' (with_reducible first
    | assumption
    | exact TouchOut.fault
    | apply TouchOut.done
    | exact Touch.refl
    | intro _
    | apply State.gtCatch_touch)
  all_goals with_reducible first
    | exact .inr rfl
    | exact Sub.trans (b := execGtCatchUpMask) (by decide +kernel) hm
    | exact Has.sub (a := execGtCatchUpMask) (by decide +kernel) hm
    | exact .inl (Has.sub (a := execGtCatchUpMask) (by decide +kernel) hm)
    | exact Has.at (by decide) (Has.sub (a := execGtCatchUpMask) (by decide +kernel) hm)
    | exact Has.cell (by decide) (Has.sub (a := execGtCatchUpMask) (by decide +kernel) hm)
    | exact Has.cellNext (by decide) (Has.sub (a := execGtCatchUpMask) (by decide +kernel) hm)
    | exact Has.ite (Has.sub (a := execGtCatchUpMask) (by decide +kernel) hm) (Has.sub (a := execGtCatchUpMask) (by decide +kernel) hm)
    | exact .inr (fun _ => rfl)
    | (intro _; rfl)
    | (intro _; simp; done)
    | (simp; assumption)
    | (refine .inr (fun _ => ?_); simp; done)
    | (refine .inr (fun _ => ?_); (repeat' split) <;> first | rfl | (simp; done))
    | (simp; done)

def execCommitDelayExpiryMask : Nat :=
  State.commitStartMask ||| settleMask

theorem execCommitDelayExpiry_touch {msk : Nat} {s : State} (hm : Sub execCommitDelayExpiryMask msk) : TouchOut msk s (execCommitDelayExpiry s) := by
  unfold execCommitDelayExpiry
  try dsimp only
  repeat' (with_reducible first
    | assumption
    | exact TouchOut.fault
    | apply TouchOut.done
    | exact Touch.refl
    | intro _
    | apply State.commitStart_touch
    | apply Touch.ite
    | split)
  all_goals with_reducible first
    | exact .inr rfl
    | exact Sub.trans (b := execCommitDelayExpiryMask) (by decide +kernel) hm
    | exact Has.sub (a := execCommitDelayExpiryMask) (by decide +kernel) hm
    | exact .inl (Has.sub (a := execCommitDelayExpiryMask) (by decide +kernel) hm)
    | exact Has.at (by decide) (Has.sub (a := execCommitDelayExpiryMask) (by decide +kernel) hm)
    | exact Has.cell (by decide) (Has.sub (a := execCommitDelayExpiryMask) (by decide +kernel) hm)
    | exact Has.cellNext (by decide) (Has.sub (a := execCommitDelayExpiryMask) (by decide +kernel) hm)
    | exact Has.ite (Has.sub (a := execCommitDelayExpiryMask) (by decide +kernel) hm) (Has.sub (a := execCommitDelayExpiryMask) (by decide +kernel) hm)
    | exact .inr (fun _ => rfl)
    | (intro _; rfl)
    | (intro _; simp; done)
    | (simp; assumption)
    | (refine .inr (fun _ => ?_); simp; done)
    | (refine .inr (fun _ => ?_); (repeat' split) <;> first | rfl | (simp; done))
    | (simp; done)

def execSectorRewriteDoneMask : Nat :=
  State.rewriteDoneMask ||| settleMask

theorem execSectorRewriteDone_touch {msk : Nat} {s : State} (hm : Sub execSectorRewriteDoneMask msk) : TouchOut msk s (execSectorRewriteDone s) := by
  unfold execSectorRewriteDone
  try dsimp only
  repeat' (with_reducible first
    | assumption
    | exact TouchOut.fault
    | apply TouchOut.done
    | exact Touch.refl
    | intro _
    | apply State.rewriteDone_touch)
  all_goals with_reducible first
    | exact .inr rfl
    | exact Sub.trans (b := execSectorRewriteDoneMask) (by decide +kernel) hm
    | exact Has.sub (a := execSectorRewriteDoneMask) (by decide +kernel) hm
    | exact .inl (Has.sub (a := execSectorRewriteDoneMask) (by decide +kernel) hm)
    | exact Has.at (by decide) (Has.sub (a := execSectorRewriteDoneMask) (by decide +kernel) hm)
    | exact Has.cell (by decide) (Has.sub (a := execSectorRewriteDoneMask) (by decide +kernel) hm)
    | exact Has.cellNext (by decide) (Has.sub (a := execSectorRewriteDoneMask) (by decide +kernel) hm)
    | exact Has.ite (Has.sub (a := execSectorRewriteDoneMask) (by decide +kernel) hm) (Has.sub (a := execSectorRewriteDoneMask) (by decide +kernel) hm)
    | exact .inr (fun _ => rfl)
    | (intro _; rfl)
    | (intro _; simp; done)
    | (simp; assumption)
    | (refine .inr (fun _ => ?_); simp; done)
    | (refine .inr (fun _ => ?_); (repeat' split) <;> first | rfl | (simp; done))
    | (simp; done)

def execFoldDoneMask : Nat :=
  State.foldDoneMask ||| settleMask

theorem execFoldDone_touch {msk : Nat} {s : State} (hm : Sub execFoldDoneMask msk) : TouchOut msk s (execFoldDone s) := by
  unfold execFoldDone
  try dsimp only
  repeat' (with_reducible first
    | assumption
    | exact TouchOut.fault
    | apply TouchOut.done
    | exact Touch.refl
    | intro _
    | apply State.foldDone_touch
    | apply Touch.foldl
    | apply Touch.foldlFst)
  all_goals with_reducible first
    | exact .inr rfl
    | exact Sub.trans (b := execFoldDoneMask) (by decide +kernel) hm
    | exact Has.sub (a := execFoldDoneMask) (by decide +kernel) hm
    | exact .inl (Has.sub (a := execFoldDoneMask) (by decide +kernel) hm)
    | exact Has.at (by decide) (Has.sub (a := execFoldDoneMask) (by decide +kernel) hm)
    | exact Has.cell (by decide) (Has.sub (a := execFoldDoneMask) (by decide +kernel) hm)
    | exact Has.cellNext (by decide) (Has.sub (a := execFoldDoneMask) (by decide +kernel) hm)
    | exact Has.ite (Has.sub (a := execFoldDoneMask) (by decide +kernel) hm) (Has.sub (a := execFoldDoneMask) (by decide +kernel) hm)
    | exact .inr (fun _ => rfl)
    | (intro _; rfl)
    | (intro _; simp; done)
    | (simp; assumption)
    | (refine .inr (fun _ => ?_); simp; done)
    | (refine .inr (fun _ => ?_); (repeat' split) <;> first | rfl | (simp; done))
    | (simp; done)

def execFlashVerifyFailMask : Nat :=
  State.verifyFailMask ||| settleMask

theorem execFlashVerifyFail_touch {msk : Nat} {s : State} (hm : Sub execFlashVerifyFailMask msk) : TouchOut msk s (execFlashVerifyFail s) := by
  unfold execFlashVerifyFail
  try dsimp only
  repeat' (with_reducible first
    | assumption
    | exact TouchOut.fault
    | apply TouchOut.done
    | exact Touch.refl
    | intro _
    | apply State.verifyFail_touch
    | apply Touch.ite
    | split)
  all_goals with_reducible first
    | exact .inr rfl
    | exact Sub.trans (b := execFlashVerifyFailMask) (by decide +kernel) hm
    | exact Has.sub (a := execFlashVerifyFailMask) (by decide +kernel) hm
    | exact .inl (Has.sub (a := execFlashVerifyFailMask) (by decide +kernel) hm)
    | exact Has.at (by decide) (Has.sub (a := execFlashVerifyFailMask) (by decide +kernel) hm)
    | exact Has.cell (by decide) (Has.sub (a := execFlashVerifyFailMask) (by decide +kernel) hm)
    | exact Has.cellNext (by decide) (Has.sub (a := execFlashVerifyFailMask) (by decide +kernel) hm)
    | exact Has.ite (Has.sub (a := execFlashVerifyFailMask) (by decide +kernel) hm) (Has.sub (a := execFlashVerifyFailMask) (by decide +kernel) hm)
    | exact .inr (fun _ => rfl)
    | (intro _; rfl)
    | (intro _; simp; done)
    | (simp; assumption)
    | (refine .inr (fun _ => ?_); simp; done)
    | (refine .inr (fun _ => ?_); (repeat' split) <;> first | rfl | (simp; done))
    | (simp; done)

def execVltCommitMask : Nat :=
  State.onWriteMask ||| State.vltCmdMask ||| settleMask

theorem execVltCommit_touch {msk : Nat} {p : Path} {s : State} (hm : Sub execVltCommitMask msk) : TouchOut msk s (execVltCommit p s) := by
  unfold execVltCommit
  try dsimp only
  repeat' (with_reducible first
    | assumption
    | exact TouchOut.fault
    | apply TouchOut.done
    | exact Touch.refl
    | intro _
    | apply State.onWrite_touch
    | apply State.vltCmd_touch)
  all_goals with_reducible first
    | exact .inr rfl
    | exact Sub.trans (b := execVltCommitMask) (by decide +kernel) hm
    | exact Has.sub (a := execVltCommitMask) (by decide +kernel) hm
    | exact .inl (Has.sub (a := execVltCommitMask) (by decide +kernel) hm)
    | exact Has.at (by decide) (Has.sub (a := execVltCommitMask) (by decide +kernel) hm)
    | exact Has.cell (by decide) (Has.sub (a := execVltCommitMask) (by decide +kernel) hm)
    | exact Has.cellNext (by decide) (Has.sub (a := execVltCommitMask) (by decide +kernel) hm)
    | exact Has.ite (Has.sub (a := execVltCommitMask) (by decide +kernel) hm) (Has.sub (a := execVltCommitMask) (by decide +kernel) hm)
    | exact .inr (fun _ => rfl)
    | (intro _; rfl)
    | (intro _; simp; done)
    | (simp; assumption)
    | (refine .inr (fun _ => ?_); simp; done)
    | (refine .inr (fun _ => ?_); (repeat' split) <;> first | rfl | (simp; done))
    | (simp; done)

def execPgwrMask : Nat :=
  State.onWriteMask ||| State.vltCmdMask ||| settleMask

theorem execPgwr_touch {msk : Nat} {p : Path} {s : State} (hm : Sub execPgwrMask msk) : TouchOut msk s (execPgwr p s) := by
  unfold execPgwr
  try dsimp only
  repeat' (with_reducible first
    | assumption
    | exact TouchOut.fault
    | apply TouchOut.done
    | exact Touch.refl
    | intro _
    | apply State.onWrite_touch
    | apply State.vltCmd_touch)
  all_goals with_reducible first
    | exact .inr rfl
    | exact Sub.trans (b := execPgwrMask) (by decide +kernel) hm
    | exact Has.sub (a := execPgwrMask) (by decide +kernel) hm
    | exact .inl (Has.sub (a := execPgwrMask) (by decide +kernel) hm)
    | exact Has.at (by decide) (Has.sub (a := execPgwrMask) (by decide +kernel) hm)
    | exact Has.cell (by decide) (Has.sub (a := execPgwrMask) (by decide +kernel) hm)
    | exact Has.cellNext (by decide) (Has.sub (a := execPgwrMask) (by decide +kernel) hm)
    | exact Has.ite (Has.sub (a := execPgwrMask) (by decide +kernel) hm) (Has.sub (a := execPgwrMask) (by decide +kernel) hm)
    | exact .inr (fun _ => rfl)
    | (intro _; rfl)
    | (intro _; simp; done)
    | (simp; assumption)
    | (refine .inr (fun _ => ?_); simp; done)
    | (refine .inr (fun _ => ?_); (repeat' split) <;> first | rfl | (simp; done))
    | (simp; done)

def execVltEraseMask : Nat :=
  State.onWriteMask ||| State.vltCmdMask ||| settleMask

theorem execVltErase_touch {msk : Nat} {p : Path} {s : State} (hm : Sub execVltEraseMask msk) : TouchOut msk s (execVltErase p s) := by
  unfold execVltErase
  try dsimp only
  repeat' (with_reducible first
    | assumption
    | exact TouchOut.fault
    | apply TouchOut.done
    | exact Touch.refl
    | intro _
    | apply State.onWrite_touch
    | apply State.vltCmd_touch)
  all_goals with_reducible first
    | exact .inr rfl
    | exact Sub.trans (b := execVltEraseMask) (by decide +kernel) hm
    | exact Has.sub (a := execVltEraseMask) (by decide +kernel) hm
    | exact .inl (Has.sub (a := execVltEraseMask) (by decide +kernel) hm)
    | exact Has.at (by decide) (Has.sub (a := execVltEraseMask) (by decide +kernel) hm)
    | exact Has.cell (by decide) (Has.sub (a := execVltEraseMask) (by decide +kernel) hm)
    | exact Has.cellNext (by decide) (Has.sub (a := execVltEraseMask) (by decide +kernel) hm)
    | exact Has.ite (Has.sub (a := execVltEraseMask) (by decide +kernel) hm) (Has.sub (a := execVltEraseMask) (by decide +kernel) hm)
    | exact .inr (fun _ => rfl)
    | (intro _; rfl)
    | (intro _; simp; done)
    | (simp; assumption)
    | (refine .inr (fun _ => ?_); simp; done)
    | (refine .inr (fun _ => ?_); (repeat' split) <;> first | rfl | (simp; done))
    | (simp; done)

def execLegwrMask : Nat :=
  State.onWriteMask ||| State.vltCmdMask ||| settleMask

theorem execLegwr_touch {msk : Nat} {p : Path} {s : State} (hm : Sub execLegwrMask msk) : TouchOut msk s (execLegwr p s) := by
  unfold execLegwr
  try dsimp only
  repeat' (with_reducible first
    | assumption
    | exact TouchOut.fault
    | apply TouchOut.done
    | exact Touch.refl
    | intro _
    | apply State.onWrite_touch
    | apply State.vltCmd_touch)
  all_goals with_reducible first
    | exact .inr rfl
    | exact Sub.trans (b := execLegwrMask) (by decide +kernel) hm
    | exact Has.sub (a := execLegwrMask) (by decide +kernel) hm
    | exact .inl (Has.sub (a := execLegwrMask) (by decide +kernel) hm)
    | exact Has.at (by decide) (Has.sub (a := execLegwrMask) (by decide +kernel) hm)
    | exact Has.cell (by decide) (Has.sub (a := execLegwrMask) (by decide +kernel) hm)
    | exact Has.cellNext (by decide) (Has.sub (a := execLegwrMask) (by decide +kernel) hm)
    | exact Has.ite (Has.sub (a := execLegwrMask) (by decide +kernel) hm) (Has.sub (a := execLegwrMask) (by decide +kernel) hm)
    | exact .inr (fun _ => rfl)
    | (intro _; rfl)
    | (intro _; simp; done)
    | (simp; assumption)
    | (refine .inr (fun _ => ?_); simp; done)
    | (refine .inr (fun _ => ?_); (repeat' split) <;> first | rfl | (simp; done))
    | (simp; done)

def execVltLockMask : Nat :=
  State.onWriteMask ||| State.vltCmdMask ||| settleMask

theorem execVltLock_touch {msk : Nat} {p : Path} {s : State} (hm : Sub execVltLockMask msk) : TouchOut msk s (execVltLock p s) := by
  unfold execVltLock
  try dsimp only
  repeat' (with_reducible first
    | assumption
    | exact TouchOut.fault
    | apply TouchOut.done
    | exact Touch.refl
    | intro _
    | apply State.onWrite_touch
    | apply State.vltCmd_touch)
  all_goals with_reducible first
    | exact .inr rfl
    | exact Sub.trans (b := execVltLockMask) (by decide +kernel) hm
    | exact Has.sub (a := execVltLockMask) (by decide +kernel) hm
    | exact .inl (Has.sub (a := execVltLockMask) (by decide +kernel) hm)
    | exact Has.at (by decide) (Has.sub (a := execVltLockMask) (by decide +kernel) hm)
    | exact Has.cell (by decide) (Has.sub (a := execVltLockMask) (by decide +kernel) hm)
    | exact Has.cellNext (by decide) (Has.sub (a := execVltLockMask) (by decide +kernel) hm)
    | exact Has.ite (Has.sub (a := execVltLockMask) (by decide +kernel) hm) (Has.sub (a := execVltLockMask) (by decide +kernel) hm)
    | exact .inr (fun _ => rfl)
    | (intro _; rfl)
    | (intro _; simp; done)
    | (simp; assumption)
    | (refine .inr (fun _ => ?_); simp; done)
    | (refine .inr (fun _ => ?_); (repeat' split) <;> first | rfl | (simp; done))
    | (simp; done)

def execSetpwdMask : Nat :=
  State.onWriteMask ||| State.vltCmdMask ||| settleMask

theorem execSetpwd_touch {msk : Nat} {p : Path} {s : State} (hm : Sub execSetpwdMask msk) : TouchOut msk s (execSetpwd p s) := by
  unfold execSetpwd
  try dsimp only
  repeat' (with_reducible first
    | assumption
    | exact TouchOut.fault
    | apply TouchOut.done
    | exact Touch.refl
    | intro _
    | apply State.onWrite_touch
    | apply State.vltCmd_touch)
  all_goals with_reducible first
    | exact .inr rfl
    | exact Sub.trans (b := execSetpwdMask) (by decide +kernel) hm
    | exact Has.sub (a := execSetpwdMask) (by decide +kernel) hm
    | exact .inl (Has.sub (a := execSetpwdMask) (by decide +kernel) hm)
    | exact Has.at (by decide) (Has.sub (a := execSetpwdMask) (by decide +kernel) hm)
    | exact Has.cell (by decide) (Has.sub (a := execSetpwdMask) (by decide +kernel) hm)
    | exact Has.cellNext (by decide) (Has.sub (a := execSetpwdMask) (by decide +kernel) hm)
    | exact Has.ite (Has.sub (a := execSetpwdMask) (by decide +kernel) hm) (Has.sub (a := execSetpwdMask) (by decide +kernel) hm)
    | exact .inr (fun _ => rfl)
    | (intro _; rfl)
    | (intro _; simp; done)
    | (simp; assumption)
    | (refine .inr (fun _ => ?_); simp; done)
    | (refine .inr (fun _ => ?_); (repeat' split) <;> first | rfl | (simp; done))
    | (simp; done)

def execLegloadMask : Nat :=
  State.onWriteMask ||| State.vltCmdMask ||| settleMask

theorem execLegload_touch {msk : Nat} {p : Path} {s : State} (hm : Sub execLegloadMask msk) : TouchOut msk s (execLegload p s) := by
  unfold execLegload
  try dsimp only
  repeat' (with_reducible first
    | assumption
    | exact TouchOut.fault
    | apply TouchOut.done
    | exact Touch.refl
    | intro _
    | apply State.onWrite_touch
    | apply State.vltCmd_touch)
  all_goals with_reducible first
    | exact .inr rfl
    | exact Sub.trans (b := execLegloadMask) (by decide +kernel) hm
    | exact Has.sub (a := execLegloadMask) (by decide +kernel) hm
    | exact .inl (Has.sub (a := execLegloadMask) (by decide +kernel) hm)
    | exact Has.at (by decide) (Has.sub (a := execLegloadMask) (by decide +kernel) hm)
    | exact Has.cell (by decide) (Has.sub (a := execLegloadMask) (by decide +kernel) hm)
    | exact Has.cellNext (by decide) (Has.sub (a := execLegloadMask) (by decide +kernel) hm)
    | exact Has.ite (Has.sub (a := execLegloadMask) (by decide +kernel) hm) (Has.sub (a := execLegloadMask) (by decide +kernel) hm)
    | exact .inr (fun _ => rfl)
    | (intro _; rfl)
    | (intro _; simp; done)
    | (simp; assumption)
    | (refine .inr (fun _ => ?_); simp; done)
    | (refine .inr (fun _ => ?_); (repeat' split) <;> first | rfl | (simp; done))
    | (simp; done)

def execPasswordWordMask : Nat :=
  State.onWriteMask ||| State.pwdWriteMask ||| settleMask

theorem execPasswordWord_touch {msk : Nat} {p : Path} {v : Word} {s : State} (hm : Sub execPasswordWordMask msk) : TouchOut msk s (execPasswordWord p v s) := by
  unfold execPasswordWord
  try dsimp only
  repeat' (with_reducible first
    | assumption
    | exact TouchOut.fault
    | apply TouchOut.done
    | exact Touch.refl
    | intro _
    | apply State.onWrite_touch
    | apply State.pwdWrite_touch)
  all_goals with_reducible first
    | exact .inr rfl
    | exact Sub.trans (b := execPasswordWordMask) (by decide +kernel) hm
    | exact Has.sub (a := execPasswordWordMask) (by decide +kernel) hm
    | exact .inl (Has.sub (a := execPasswordWordMask) (by decide +kernel) hm)
    | exact Has.at (by decide) (Has.sub (a := execPasswordWordMask) (by decide +kernel) hm)
    | exact Has.cell (by decide) (Has.sub (a := execPasswordWordMask) (by decide +kernel) hm)
    | exact Has.cellNext (by decide) (Has.sub (a := execPasswordWordMask) (by decide +kernel) hm)
    | exact Has.ite (Has.sub (a := execPasswordWordMask) (by decide +kernel) hm) (Has.sub (a := execPasswordWordMask) (by decide +kernel) hm)
    | exact .inr (fun _ => rfl)
    | (intro _; rfl)
    | (intro _; simp; done)
    | (simp; assumption)
    | (refine .inr (fun _ => ?_); simp; done)
    | (refine .inr (fun _ => ?_); (repeat' split) <;> first | rfl | (simp; done))
    | (simp; done)

def execPasswordLockoutEndMask : Nat :=
  State.modKeepMask ||| settleMask

theorem execPasswordLockoutEnd_touch {msk : Nat} {s : State} (hm : Sub execPasswordLockoutEndMask msk) : TouchOut msk s (execPasswordLockoutEnd s) := by
  unfold execPasswordLockoutEnd
  try dsimp only
  repeat' (with_reducible first
    | assumption
    | exact TouchOut.fault
    | apply TouchOut.done
    | exact Touch.refl
    | intro _
    | apply State.modKeep_touch)
  all_goals with_reducible first
    | exact .inr rfl
    | exact Sub.trans (b := execPasswordLockoutEndMask) (by decide +kernel) hm
    | exact Has.sub (a := execPasswordLockoutEndMask) (by decide +kernel) hm
    | exact .inl (Has.sub (a := execPasswordLockoutEndMask) (by decide +kernel) hm)
    | exact Has.at (by decide) (Has.sub (a := execPasswordLockoutEndMask) (by decide +kernel) hm)
    | exact Has.cell (by decide) (Has.sub (a := execPasswordLockoutEndMask) (by decide +kernel) hm)
    | exact Has.cellNext (by decide) (Has.sub (a := execPasswordLockoutEndMask) (by decide +kernel) hm)
    | exact Has.ite (Has.sub (a := execPasswordLockoutEndMask) (by decide +kernel) hm) (Has.sub (a := execPasswordLockoutEndMask) (by decide +kernel) hm)
    | exact .inr (fun _ => rfl)
    | (intro _; rfl)
    | (intro _; simp; done)
    | (simp; assumption)
    | (refine .inr (fun _ => ?_); simp; done)
    | (refine .inr (fun _ => ?_); (repeat' split) <;> first | rfl | (simp; done))
    | (simp; done)

def execRegionTimeoutMask : Nat :=
  State.modPathMask ||| settleMask

theorem execRegionTimeout_touch {msk : Nat} {p : Path} {r : Fin 3} {s : State} (hm : Sub execRegionTimeoutMask msk) : TouchOut msk s (execRegionTimeout p r s) := by
  unfold execRegionTimeout
  try dsimp only
  repeat' (with_reducible first
    | assumption
    | exact TouchOut.fault
    | apply TouchOut.done
    | exact Touch.refl
    | intro _
    | apply State.modPath_touch)
  all_goals with_reducible first
    | exact .inr rfl
    | exact Sub.trans (b := execRegionTimeoutMask) (by decide +kernel) hm
    | exact Has.sub (a := execRegionTimeoutMask) (by decide +kernel) hm
    | exact .inl (Has.sub (a := execRegionTimeoutMask) (by decide +kernel) hm)
    | exact Has.at (by decide) (Has.sub (a := execRegionTimeoutMask) (by decide +kernel) hm)
    | exact Has.cell (by decide) (Has.sub (a := execRegionTimeoutMask) (by decide +kernel) hm)
    | exact Has.cellNext (by decide) (Has.sub (a := execRegionTimeoutMask) (by decide +kernel) hm)
    | exact Has.ite (Has.sub (a := execRegionTimeoutMask) (by decide +kernel) hm) (Has.sub (a := execRegionTimeoutMask) (by decide +kernel) hm)
    | exact .inr (fun _ => rfl)
    | (intro _; rfl)
    | (intro _; simp; done)
    | (simp; assumption)
    | (refine .inr (fun _ => ?_); simp; done)
    | (refine .inr (fun _ => ?_); (repeat' split) <;> first | rfl | (simp; done))
    | (simp; done)

def execRawRegionSelectMask : Nat :=
  State.onWriteMask ||| State.rselWriteMask ||| settleMask

theorem execRawRegionSelect_touch {msk : Nat} {p : Path} {v : Word} {s : State} (hm : Sub execRawRegionSelectMask msk) : TouchOut msk s (execRawRegionSelect p v s) := by
  unfold execRawRegionSelect
  try dsimp only
  repeat' (with_reducible first
    | assumption
    | exact TouchOut.fault
    | apply TouchOut.done
    | exact Touch.refl
    | intro _
    | apply State.onWrite_touch
    | apply State.rselWrite_touch)
  all_goals with_reducible first
    | exact .inr rfl
    | exact Sub.trans (b := execRawRegionSelectMask) (by decide +kernel) hm
    | exact Has.sub (a := execRawRegionSelectMask) (by decide +kernel) hm
    | exact .inl (Has.sub (a := execRawRegionSelectMask) (by decide +kernel) hm)
    | exact Has.at (by decide) (Has.sub (a := execRawRegionSelectMask) (by decide +kernel) hm)
    | exact Has.cell (by decide) (Has.sub (a := execRawRegionSelectMask) (by decide +kernel) hm)
    | exact Has.cellNext (by decide) (Has.sub (a := execRawRegionSelectMask) (by decide +kernel) hm)
    | exact Has.ite (Has.sub (a := execRawRegionSelectMask) (by decide +kernel) hm) (Has.sub (a := execRawRegionSelectMask) (by decide +kernel) hm)
    | exact .inr (fun _ => rfl)
    | (intro _; rfl)
    | (intro _; simp; done)
    | (simp; assumption)
    | (refine .inr (fun _ => ?_); simp; done)
    | (refine .inr (fun _ => ?_); (repeat' split) <;> first | rfl | (simp; done))
    | (simp; done)

def execHatIncMask : Nat :=
  State.onWriteMask ||| State.hatWriteMask ||| settleMask

theorem execHatInc_touch {msk : Nat} {p : Path} {s : State} (hm : Sub execHatIncMask msk) : TouchOut msk s (execHatInc p s) := by
  unfold execHatInc
  try dsimp only
  repeat' (with_reducible first
    | assumption
    | exact TouchOut.fault
    | apply TouchOut.done
    | exact Touch.refl
    | intro _
    | apply State.onWrite_touch
    | apply State.hatWrite_touch)
  all_goals with_reducible first
    | exact .inr rfl
    | exact Sub.trans (b := execHatIncMask) (by decide +kernel) hm
    | exact Has.sub (a := execHatIncMask) (by decide +kernel) hm
    | exact .inl (Has.sub (a := execHatIncMask) (by decide +kernel) hm)
    | exact Has.at (by decide) (Has.sub (a := execHatIncMask) (by decide +kernel) hm)
    | exact Has.cell (by decide) (Has.sub (a := execHatIncMask) (by decide +kernel) hm)
    | exact Has.cellNext (by decide) (Has.sub (a := execHatIncMask) (by decide +kernel) hm)
    | exact Has.ite (Has.sub (a := execHatIncMask) (by decide +kernel) hm) (Has.sub (a := execHatIncMask) (by decide +kernel) hm)
    | exact .inr (fun _ => rfl)
    | (intro _; rfl)
    | (intro _; simp; done)
    | (simp; assumption)
    | (refine .inr (fun _ => ?_); simp; done)
    | (refine .inr (fun _ => ?_); (repeat' split) <;> first | rfl | (simp; done))
    | (simp; done)

def execLegWriteDoneMask : Nat :=
  State.legDoneMask ||| settleMask

theorem execLegWriteDone_touch {msk : Nat} {s : State} (hm : Sub execLegWriteDoneMask msk) : TouchOut msk s (execLegWriteDone s) := by
  unfold execLegWriteDone
  try dsimp only
  repeat' (with_reducible first
    | assumption
    | exact TouchOut.fault
    | apply TouchOut.done
    | exact Touch.refl
    | intro _
    | apply State.legDone_touch)
  all_goals with_reducible first
    | exact .inr rfl
    | exact Sub.trans (b := execLegWriteDoneMask) (by decide +kernel) hm
    | exact Has.sub (a := execLegWriteDoneMask) (by decide +kernel) hm
    | exact .inl (Has.sub (a := execLegWriteDoneMask) (by decide +kernel) hm)
    | exact Has.at (by decide) (Has.sub (a := execLegWriteDoneMask) (by decide +kernel) hm)
    | exact Has.cell (by decide) (Has.sub (a := execLegWriteDoneMask) (by decide +kernel) hm)
    | exact Has.cellNext (by decide) (Has.sub (a := execLegWriteDoneMask) (by decide +kernel) hm)
    | exact Has.ite (Has.sub (a := execLegWriteDoneMask) (by decide +kernel) hm) (Has.sub (a := execLegWriteDoneMask) (by decide +kernel) hm)
    | exact .inr (fun _ => rfl)
    | (intro _; rfl)
    | (intro _; simp; done)
    | (simp; assumption)
    | (refine .inr (fun _ => ?_); simp; done)
    | (refine .inr (fun _ => ?_); (repeat' split) <;> first | rfl | (simp; done))
    | (simp; done)

def execSectorEraseDoneMask : Nat :=
  State.eraseDoneMask ||| settleMask

theorem execSectorEraseDone_touch {msk : Nat} {s : State} (hm : Sub execSectorEraseDoneMask msk) : TouchOut msk s (execSectorEraseDone s) := by
  unfold execSectorEraseDone
  try dsimp only
  repeat' (with_reducible first
    | assumption
    | exact TouchOut.fault
    | apply TouchOut.done
    | exact Touch.refl
    | intro _
    | apply State.eraseDone_touch)
  all_goals with_reducible first
    | exact .inr rfl
    | exact Sub.trans (b := execSectorEraseDoneMask) (by decide +kernel) hm
    | exact Has.sub (a := execSectorEraseDoneMask) (by decide +kernel) hm
    | exact .inl (Has.sub (a := execSectorEraseDoneMask) (by decide +kernel) hm)
    | exact Has.at (by decide) (Has.sub (a := execSectorEraseDoneMask) (by decide +kernel) hm)
    | exact Has.cell (by decide) (Has.sub (a := execSectorEraseDoneMask) (by decide +kernel) hm)
    | exact Has.cellNext (by decide) (Has.sub (a := execSectorEraseDoneMask) (by decide +kernel) hm)
    | exact Has.ite (Has.sub (a := execSectorEraseDoneMask) (by decide +kernel) hm) (Has.sub (a := execSectorEraseDoneMask) (by decide +kernel) hm)
    | exact .inr (fun _ => rfl)
    | (intro _; rfl)
    | (intro _; simp; done)
    | (simp; assumption)
    | (refine .inr (fun _ => ?_); simp; done)
    | (refine .inr (fun _ => ?_); (repeat' split) <;> first | rfl | (simp; done))
    | (simp; done)

def execSealResetMask : Nat :=
  State.onWriteMask ||| State.sealWriteMask ||| settleMask

theorem execSealReset_touch {msk : Nat} {p : Path} {v : Word} {s : State} (hm : Sub execSealResetMask msk) : TouchOut msk s (execSealReset p v s) := by
  unfold execSealReset
  try dsimp only
  repeat' (with_reducible first
    | assumption
    | exact TouchOut.fault
    | apply TouchOut.done
    | exact Touch.refl
    | intro _
    | apply State.onWrite_touch
    | apply State.sealWrite_touch)
  all_goals with_reducible first
    | exact .inr rfl
    | exact Sub.trans (b := execSealResetMask) (by decide +kernel) hm
    | exact Has.sub (a := execSealResetMask) (by decide +kernel) hm
    | exact .inl (Has.sub (a := execSealResetMask) (by decide +kernel) hm)
    | exact Has.at (by decide) (Has.sub (a := execSealResetMask) (by decide +kernel) hm)
    | exact Has.cell (by decide) (Has.sub (a := execSealResetMask) (by decide +kernel) hm)
    | exact Has.cellNext (by decide) (Has.sub (a := execSealResetMask) (by decide +kernel) hm)
    | exact Has.ite (Has.sub (a := execSealResetMask) (by decide +kernel) hm) (Has.sub (a := execSealResetMask) (by decide +kernel) hm)
    | exact .inr (fun _ => rfl)
    | (intro _; rfl)
    | (intro _; simp; done)
    | (simp; assumption)
    | (refine .inr (fun _ => ?_); simp; done)
    | (refine .inr (fun _ => ?_); (repeat' split) <;> first | rfl | (simp; done))
    | (simp; done)

def execHostEventPostMask : Nat :=
  State.onWriteMask ||| State.hostPostMask ||| settleMask

theorem execHostEventPost_touch {msk : Nat} {p : Path} {v : Word} {s : State} (hm : Sub execHostEventPostMask msk) : TouchOut msk s (execHostEventPost p v s) := by
  unfold execHostEventPost
  try dsimp only
  repeat' (with_reducible first
    | assumption
    | exact TouchOut.fault
    | apply TouchOut.done
    | exact Touch.refl
    | intro _
    | apply State.onWrite_touch
    | apply State.hostPost_touch)
  all_goals with_reducible first
    | exact .inr rfl
    | exact Sub.trans (b := execHostEventPostMask) (by decide +kernel) hm
    | exact Has.sub (a := execHostEventPostMask) (by decide +kernel) hm
    | exact .inl (Has.sub (a := execHostEventPostMask) (by decide +kernel) hm)
    | exact Has.at (by decide) (Has.sub (a := execHostEventPostMask) (by decide +kernel) hm)
    | exact Has.cell (by decide) (Has.sub (a := execHostEventPostMask) (by decide +kernel) hm)
    | exact Has.cellNext (by decide) (Has.sub (a := execHostEventPostMask) (by decide +kernel) hm)
    | exact Has.ite (Has.sub (a := execHostEventPostMask) (by decide +kernel) hm) (Has.sub (a := execHostEventPostMask) (by decide +kernel) hm)
    | exact .inr (fun _ => rfl)
    | (intro _; rfl)
    | (intro _; simp; done)
    | (simp; assumption)
    | (refine .inr (fun _ => ?_); simp; done)
    | (refine .inr (fun _ => ?_); (repeat' split) <;> first | rfl | (simp; done))
    | (simp; done)

def execZcsEdgeMask : Nat :=
  State.zcEdgeMask ||| settleMask

theorem execZcsEdge_touch {msk : Nat} {rising : Bool} {us : Nat} {s : State} (hm : Sub execZcsEdgeMask msk) : TouchOut msk s (execZcsEdge rising us s) := by
  unfold execZcsEdge
  try dsimp only
  repeat' (with_reducible first
    | assumption
    | exact TouchOut.fault
    | apply TouchOut.done
    | exact Touch.refl
    | intro _
    | apply State.zcEdge_touch
    | apply Touch.ite
    | split)
  all_goals with_reducible first
    | exact .inr rfl
    | exact Sub.trans (b := execZcsEdgeMask) (by decide +kernel) hm
    | exact Has.sub (a := execZcsEdgeMask) (by decide +kernel) hm
    | exact .inl (Has.sub (a := execZcsEdgeMask) (by decide +kernel) hm)
    | exact Has.at (by decide) (Has.sub (a := execZcsEdgeMask) (by decide +kernel) hm)
    | exact Has.cell (by decide) (Has.sub (a := execZcsEdgeMask) (by decide +kernel) hm)
    | exact Has.cellNext (by decide) (Has.sub (a := execZcsEdgeMask) (by decide +kernel) hm)
    | exact Has.ite (Has.sub (a := execZcsEdgeMask) (by decide +kernel) hm) (Has.sub (a := execZcsEdgeMask) (by decide +kernel) hm)
    | exact .inr (fun _ => rfl)
    | (intro _; rfl)
    | (intro _; simp; done)
    | (simp; assumption)
    | (refine .inr (fun _ => ?_); simp; done)
    | (refine .inr (fun _ => ?_); (repeat' split) <;> first | rfl | (simp; done))
    | (simp; done)

def execZcsTimeoutMask : Nat :=
  State.zcTimeoutMask ||| settleMask

theorem execZcsTimeout_touch {msk : Nat} {s : State} (hm : Sub execZcsTimeoutMask msk) : TouchOut msk s (execZcsTimeout s) := by
  unfold execZcsTimeout
  try dsimp only
  repeat' (with_reducible first
    | assumption
    | exact TouchOut.fault
    | apply TouchOut.done
    | exact Touch.refl
    | intro _
    | apply State.zcTimeout_touch)
  all_goals with_reducible first
    | exact .inr rfl
    | exact Sub.trans (b := execZcsTimeoutMask) (by decide +kernel) hm
    | exact Has.sub (a := execZcsTimeoutMask) (by decide +kernel) hm
    | exact .inl (Has.sub (a := execZcsTimeoutMask) (by decide +kernel) hm)
    | exact Has.at (by decide) (Has.sub (a := execZcsTimeoutMask) (by decide +kernel) hm)
    | exact Has.cell (by decide) (Has.sub (a := execZcsTimeoutMask) (by decide +kernel) hm)
    | exact Has.cellNext (by decide) (Has.sub (a := execZcsTimeoutMask) (by decide +kernel) hm)
    | exact Has.ite (Has.sub (a := execZcsTimeoutMask) (by decide +kernel) hm) (Has.sub (a := execZcsTimeoutMask) (by decide +kernel) hm)
    | exact .inr (fun _ => rfl)
    | (intro _; rfl)
    | (intro _; simp; done)
    | (simp; assumption)
    | (refine .inr (fun _ => ?_); simp; done)
    | (refine .inr (fun _ => ?_); (repeat' split) <;> first | rfl | (simp; done))
    | (simp; done)

def execHeaderReceiveMask : Nat :=
  State.headerRxMask ||| settleMask

theorem execHeaderReceive_touch {msk : Nat} {hdr : BitVec 40} {s : State} (hm : Sub execHeaderReceiveMask msk) : TouchOut msk s (execHeaderReceive hdr s) := by
  unfold execHeaderReceive
  try dsimp only
  repeat' (with_reducible first
    | assumption
    | exact TouchOut.fault
    | apply TouchOut.done
    | exact Touch.refl
    | intro _
    | apply State.headerRx_touch
    | apply Touch.ite
    | split)
  all_goals with_reducible first
    | exact .inr rfl
    | exact Sub.trans (b := execHeaderReceiveMask) (by decide +kernel) hm
    | exact Has.sub (a := execHeaderReceiveMask) (by decide +kernel) hm
    | exact .inl (Has.sub (a := execHeaderReceiveMask) (by decide +kernel) hm)
    | exact Has.at (by decide) (Has.sub (a := execHeaderReceiveMask) (by decide +kernel) hm)
    | exact Has.cell (by decide) (Has.sub (a := execHeaderReceiveMask) (by decide +kernel) hm)
    | exact Has.cellNext (by decide) (Has.sub (a := execHeaderReceiveMask) (by decide +kernel) hm)
    | exact Has.ite (Has.sub (a := execHeaderReceiveMask) (by decide +kernel) hm) (Has.sub (a := execHeaderReceiveMask) (by decide +kernel) hm)
    | exact .inr (fun _ => rfl)
    | (intro _; rfl)
    | (intro _; simp; done)
    | (simp; assumption)
    | (refine .inr (fun _ => ?_); simp; done)
    | (refine .inr (fun _ => ?_); (repeat' split) <;> first | rfl | (simp; done))
    | (simp; done)

def execDriverCurrentLimitMask : Nat :=
  State.modPhyMask ||| State.phyStickMask ||| settleMask

theorem execDriverCurrentLimit_touch {msk : Nat} {s : State} (hm : Sub execDriverCurrentLimitMask msk) : TouchOut msk s (execDriverCurrentLimit s) := by
  unfold execDriverCurrentLimit
  try dsimp only
  repeat' (with_reducible first
    | assumption
    | exact TouchOut.fault
    | apply TouchOut.done
    | exact Touch.refl
    | intro _
    | apply State.modPhy_touch
    | apply State.phyStick_touch
    | apply Touch.ite
    | split)
  all_goals with_reducible first
    | exact .inr rfl
    | exact Sub.trans (b := execDriverCurrentLimitMask) (by decide +kernel) hm
    | exact Has.sub (a := execDriverCurrentLimitMask) (by decide +kernel) hm
    | exact .inl (Has.sub (a := execDriverCurrentLimitMask) (by decide +kernel) hm)
    | exact Has.at (by decide) (Has.sub (a := execDriverCurrentLimitMask) (by decide +kernel) hm)
    | exact Has.cell (by decide) (Has.sub (a := execDriverCurrentLimitMask) (by decide +kernel) hm)
    | exact Has.cellNext (by decide) (Has.sub (a := execDriverCurrentLimitMask) (by decide +kernel) hm)
    | exact Has.ite (Has.sub (a := execDriverCurrentLimitMask) (by decide +kernel) hm) (Has.sub (a := execDriverCurrentLimitMask) (by decide +kernel) hm)
    | exact .inr (fun _ => rfl)
    | (intro _; rfl)
    | (intro _; simp; done)
    | (simp; assumption)
    | (refine .inr (fun _ => ?_); simp; done)
    | (refine .inr (fun _ => ?_); (repeat' split) <;> first | rfl | (simp; done))
    | (simp; done)

def execVldUndervoltageMask : Nat :=
  State.stickMask ||| State.postMask ||| State.txStopMask ||| settleMask ||| rbit R.PWR_STAT

theorem execVldUndervoltage_touch {msk : Nat} {level : Byte} {s : State} (hm : Sub execVldUndervoltageMask msk) : TouchOut msk s (execVldUndervoltage level s) := by
  unfold execVldUndervoltage
  try dsimp only
  repeat' (with_reducible first
    | assumption
    | exact TouchOut.fault
    | apply TouchOut.done
    | exact Touch.refl
    | intro _
    | apply State.stick_touch
    | apply State.post_touch
    | apply State.txStop_touch
    | apply State.setFlag_touch
    | apply Touch.ite
    | split)
  all_goals with_reducible first
    | exact .inr rfl
    | exact Sub.trans (b := execVldUndervoltageMask) (by decide +kernel) hm
    | exact Has.sub (a := execVldUndervoltageMask) (by decide +kernel) hm
    | exact .inl (Has.sub (a := execVldUndervoltageMask) (by decide +kernel) hm)
    | exact Has.at (by decide) (Has.sub (a := execVldUndervoltageMask) (by decide +kernel) hm)
    | exact Has.cell (by decide) (Has.sub (a := execVldUndervoltageMask) (by decide +kernel) hm)
    | exact Has.cellNext (by decide) (Has.sub (a := execVldUndervoltageMask) (by decide +kernel) hm)
    | exact Has.ite (Has.sub (a := execVldUndervoltageMask) (by decide +kernel) hm) (Has.sub (a := execVldUndervoltageMask) (by decide +kernel) hm)
    | exact .inr (fun _ => rfl)
    | (intro _; rfl)
    | (intro _; simp; done)
    | (simp; assumption)
    | (refine .inr (fun _ => ?_); simp; done)
    | (refine .inr (fun _ => ?_); (repeat' split) <;> first | rfl | (simp; done))
    | (simp; done)

def execVldGoodMask : Nat :=
  settleMask ||| rbit R.PWR_STAT

theorem execVldGood_touch {msk : Nat} {s : State} (hm : Sub execVldGoodMask msk) : TouchOut msk s (execVldGood s) := by
  unfold execVldGood
  try dsimp only
  repeat' (with_reducible first
    | assumption
    | exact TouchOut.fault
    | apply TouchOut.done
    | exact Touch.refl
    | intro _
    | apply State.setFlag_touch)
  all_goals with_reducible first
    | exact .inr rfl
    | exact Sub.trans (b := execVldGoodMask) (by decide +kernel) hm
    | exact Has.sub (a := execVldGoodMask) (by decide +kernel) hm
    | exact .inl (Has.sub (a := execVldGoodMask) (by decide +kernel) hm)
    | exact Has.at (by decide) (Has.sub (a := execVldGoodMask) (by decide +kernel) hm)
    | exact Has.cell (by decide) (Has.sub (a := execVldGoodMask) (by decide +kernel) hm)
    | exact Has.cellNext (by decide) (Has.sub (a := execVldGoodMask) (by decide +kernel) hm)
    | exact Has.ite (Has.sub (a := execVldGoodMask) (by decide +kernel) hm) (Has.sub (a := execVldGoodMask) (by decide +kernel) hm)
    | exact .inr (fun _ => rfl)
    | (intro _; rfl)
    | (intro _; simp; done)
    | (simp; assumption)
    | (refine .inr (fun _ => ?_); simp; done)
    | (refine .inr (fun _ => ?_); (repeat' split) <;> first | rfl | (simp; done))
    | (simp; done)

def execToneMapExpiryMask : Nat :=
  State.txMapExpireMask ||| settleMask

theorem execToneMapExpiry_touch {msk : Nat} {e : Fin 32} {s : State} (hm : Sub execToneMapExpiryMask msk) : TouchOut msk s (execToneMapExpiry e s) := by
  unfold execToneMapExpiry
  try dsimp only
  repeat' (with_reducible first
    | assumption
    | exact TouchOut.fault
    | apply TouchOut.done
    | exact Touch.refl
    | intro _
    | apply State.txMapExpire_touch)
  all_goals with_reducible first
    | exact .inr rfl
    | exact Sub.trans (b := execToneMapExpiryMask) (by decide +kernel) hm
    | exact Has.sub (a := execToneMapExpiryMask) (by decide +kernel) hm
    | exact .inl (Has.sub (a := execToneMapExpiryMask) (by decide +kernel) hm)
    | exact Has.at (by decide) (Has.sub (a := execToneMapExpiryMask) (by decide +kernel) hm)
    | exact Has.cell (by decide) (Has.sub (a := execToneMapExpiryMask) (by decide +kernel) hm)
    | exact Has.cellNext (by decide) (Has.sub (a := execToneMapExpiryMask) (by decide +kernel) hm)
    | exact Has.ite (Has.sub (a := execToneMapExpiryMask) (by decide +kernel) hm) (Has.sub (a := execToneMapExpiryMask) (by decide +kernel) hm)
    | exact .inr (fun _ => rfl)
    | (intro _; rfl)
    | (intro _; simp; done)
    | (simp; assumption)
    | (refine .inr (fun _ => ?_); simp; done)
    | (refine .inr (fun _ => ?_); (repeat' split) <;> first | rfl | (simp; done))
    | (simp; done)

def execCourseStartMask : Nat :=
  State.courseBeginMask ||| settleMask

theorem execCourseStart_touch {msk : Nat} {pre : BitVec 24} {s : State} (hm : Sub execCourseStartMask msk) : TouchOut msk s (execCourseStart pre s) := by
  unfold execCourseStart
  try dsimp only
  repeat' (with_reducible first
    | assumption
    | exact TouchOut.fault
    | apply TouchOut.done
    | exact Touch.refl
    | intro _
    | apply State.courseBegin_touch
    | apply Touch.ite
    | split)
  all_goals with_reducible first
    | exact .inr rfl
    | exact Sub.trans (b := execCourseStartMask) (by decide +kernel) hm
    | exact Has.sub (a := execCourseStartMask) (by decide +kernel) hm
    | exact .inl (Has.sub (a := execCourseStartMask) (by decide +kernel) hm)
    | exact Has.at (by decide) (Has.sub (a := execCourseStartMask) (by decide +kernel) hm)
    | exact Has.cell (by decide) (Has.sub (a := execCourseStartMask) (by decide +kernel) hm)
    | exact Has.cellNext (by decide) (Has.sub (a := execCourseStartMask) (by decide +kernel) hm)
    | exact Has.ite (Has.sub (a := execCourseStartMask) (by decide +kernel) hm) (Has.sub (a := execCourseStartMask) (by decide +kernel) hm)
    | exact .inr (fun _ => rfl)
    | (intro _; rfl)
    | (intro _; simp; done)
    | (simp; assumption)
    | (refine .inr (fun _ => ?_); simp; done)
    | (refine .inr (fun _ => ?_); (repeat' split) <;> first | rfl | (simp; done))
    | (simp; done)

def execRelayBeaconSendMask : Nat :=
  State.sendShortMask ||| settleMask

theorem execRelayBeaconSend_touch {msk : Nat} {s : State} (hm : Sub execRelayBeaconSendMask msk) : TouchOut msk s (execRelayBeaconSend s) := by
  unfold execRelayBeaconSend
  try dsimp only
  repeat' (with_reducible first
    | assumption
    | exact TouchOut.fault
    | apply TouchOut.done
    | exact Touch.refl
    | intro _
    | apply State.sendShort_touch
    | apply Touch.ite
    | split)
  all_goals with_reducible first
    | exact .inr rfl
    | exact Sub.trans (b := execRelayBeaconSendMask) (by decide +kernel) hm
    | exact Has.sub (a := execRelayBeaconSendMask) (by decide +kernel) hm
    | exact .inl (Has.sub (a := execRelayBeaconSendMask) (by decide +kernel) hm)
    | exact Has.at (by decide) (Has.sub (a := execRelayBeaconSendMask) (by decide +kernel) hm)
    | exact Has.cell (by decide) (Has.sub (a := execRelayBeaconSendMask) (by decide +kernel) hm)
    | exact Has.cellNext (by decide) (Has.sub (a := execRelayBeaconSendMask) (by decide +kernel) hm)
    | exact Has.ite (Has.sub (a := execRelayBeaconSendMask) (by decide +kernel) hm) (Has.sub (a := execRelayBeaconSendMask) (by decide +kernel) hm)
    | exact .inr (fun _ => rfl)
    | (intro _; rfl)
    | (intro _; simp; done)
    | (simp; assumption)
    | (refine .inr (fun _ => ?_); simp; done)
    | (refine .inr (fun _ => ?_); (repeat' split) <;> first | rfl | (simp; done))
    | (simp; done)

def execFrameReceiveMask : Nat :=
  State.payloadRxMask ||| State.frameRxMask ||| settleMask

theorem execFrameReceive_touch {msk : Nat} {robo : Bool} {bytes : List Byte} {s : State} (hm : Sub execFrameReceiveMask msk) : TouchOut msk s (execFrameReceive robo bytes s) := by
  unfold execFrameReceive
  try dsimp only
  repeat' (with_reducible first
    | assumption
    | exact TouchOut.fault
    | apply TouchOut.done
    | exact Touch.refl
    | intro _
    | apply State.payloadRx_touch
    | apply State.frameRx_touch
    | apply Touch.ite
    | split)
  all_goals with_reducible first
    | exact .inr rfl
    | exact Sub.trans (b := execFrameReceiveMask) (by decide +kernel) hm
    | exact Has.sub (a := execFrameReceiveMask) (by decide +kernel) hm
    | exact .inl (Has.sub (a := execFrameReceiveMask) (by decide +kernel) hm)
    | exact Has.at (by decide) (Has.sub (a := execFrameReceiveMask) (by decide +kernel) hm)
    | exact Has.cell (by decide) (Has.sub (a := execFrameReceiveMask) (by decide +kernel) hm)
    | exact Has.cellNext (by decide) (Has.sub (a := execFrameReceiveMask) (by decide +kernel) hm)
    | exact Has.ite (Has.sub (a := execFrameReceiveMask) (by decide +kernel) hm) (Has.sub (a := execFrameReceiveMask) (by decide +kernel) hm)
    | exact .inr (fun _ => rfl)
    | (intro _; rfl)
    | (intro _; simp; done)
    | (simp; assumption)
    | (refine .inr (fun _ => ?_); simp; done)
    | (refine .inr (fun _ => ?_); (repeat' split) <;> first | rfl | (simp; done))
    | (simp; done)

def execBeaconReceiveMask : Nat :=
  State.rxNowMask ||| State.beaconRxMask ||| settleMask

theorem execBeaconReceive_touch {msk : Nat} {short : BitVec 29} {course : BitVec 6} {posn : BitVec 5} {ago : Nat} {snr : Byte} {s : State} (hm : Sub execBeaconReceiveMask msk) : TouchOut msk s (execBeaconReceive short course posn ago snr s) := by
  unfold execBeaconReceive
  try dsimp only
  repeat' (with_reducible first
    | assumption
    | exact TouchOut.fault
    | apply TouchOut.done
    | exact Touch.refl
    | intro _
    | apply State.rxNow_touch
    | apply State.beaconRx_touch
    | apply Touch.ite
    | split)
  all_goals with_reducible first
    | exact .inr rfl
    | exact Sub.trans (b := execBeaconReceiveMask) (by decide +kernel) hm
    | exact Has.sub (a := execBeaconReceiveMask) (by decide +kernel) hm
    | exact .inl (Has.sub (a := execBeaconReceiveMask) (by decide +kernel) hm)
    | exact Has.at (by decide) (Has.sub (a := execBeaconReceiveMask) (by decide +kernel) hm)
    | exact Has.cell (by decide) (Has.sub (a := execBeaconReceiveMask) (by decide +kernel) hm)
    | exact Has.cellNext (by decide) (Has.sub (a := execBeaconReceiveMask) (by decide +kernel) hm)
    | exact Has.ite (Has.sub (a := execBeaconReceiveMask) (by decide +kernel) hm) (Has.sub (a := execBeaconReceiveMask) (by decide +kernel) hm)
    | exact .inr (fun _ => rfl)
    | (intro _; rfl)
    | (intro _; simp; done)
    | (simp; assumption)
    | (refine .inr (fun _ => ?_); simp; done)
    | (refine .inr (fun _ => ?_); (repeat' split) <;> first | rfl | (simp; done))
    | (simp; done)

def execBeaconMissMask : Nat :=
  State.beaconMissMask ||| settleMask

theorem execBeaconMiss_touch {msk : Nat} {s : State} (hm : Sub execBeaconMissMask msk) : TouchOut msk s (execBeaconMiss s) := by
  unfold execBeaconMiss
  try dsimp only
  repeat' (with_reducible first
    | assumption
    | exact TouchOut.fault
    | apply TouchOut.done
    | exact Touch.refl
    | intro _
    | apply State.beaconMiss_touch
    | apply Touch.ite
    | split)
  all_goals with_reducible first
    | exact .inr rfl
    | exact Sub.trans (b := execBeaconMissMask) (by decide +kernel) hm
    | exact Has.sub (a := execBeaconMissMask) (by decide +kernel) hm
    | exact .inl (Has.sub (a := execBeaconMissMask) (by decide +kernel) hm)
    | exact Has.at (by decide) (Has.sub (a := execBeaconMissMask) (by decide +kernel) hm)
    | exact Has.cell (by decide) (Has.sub (a := execBeaconMissMask) (by decide +kernel) hm)
    | exact Has.cellNext (by decide) (Has.sub (a := execBeaconMissMask) (by decide +kernel) hm)
    | exact Has.ite (Has.sub (a := execBeaconMissMask) (by decide +kernel) hm) (Has.sub (a := execBeaconMissMask) (by decide +kernel) hm)
    | exact .inr (fun _ => rfl)
    | (intro _; rfl)
    | (intro _; simp; done)
    | (simp; assumption)
    | (refine .inr (fun _ => ?_); simp; done)
    | (refine .inr (fun _ => ?_); (repeat' split) <;> first | rfl | (simp; done))
    | (simp; done)

def execBvalidTimeoutMask : Nat :=
  State.postMask ||| State.roleTakeMask ||| settleMask ||| rbit R.MAC_STAT

theorem execBvalidTimeout_touch {msk : Nat} {s : State} (hm : Sub execBvalidTimeoutMask msk) : TouchOut msk s (execBvalidTimeout s) := by
  unfold execBvalidTimeout
  try dsimp only
  repeat' (with_reducible first
    | assumption
    | exact TouchOut.fault
    | apply TouchOut.done
    | exact Touch.refl
    | intro _
    | apply State.post_touch
    | apply State.roleTake_touch
    | apply State.setFlag_touch
    | apply Touch.ite
    | split)
  all_goals with_reducible first
    | exact .inr rfl
    | exact Sub.trans (b := execBvalidTimeoutMask) (by decide +kernel) hm
    | exact Has.sub (a := execBvalidTimeoutMask) (by decide +kernel) hm
    | exact .inl (Has.sub (a := execBvalidTimeoutMask) (by decide +kernel) hm)
    | exact Has.at (by decide) (Has.sub (a := execBvalidTimeoutMask) (by decide +kernel) hm)
    | exact Has.cell (by decide) (Has.sub (a := execBvalidTimeoutMask) (by decide +kernel) hm)
    | exact Has.cellNext (by decide) (Has.sub (a := execBvalidTimeoutMask) (by decide +kernel) hm)
    | exact Has.ite (Has.sub (a := execBvalidTimeoutMask) (by decide +kernel) hm) (Has.sub (a := execBvalidTimeoutMask) (by decide +kernel) hm)
    | exact .inr (fun _ => rfl)
    | (intro _; rfl)
    | (intro _; simp; done)
    | (simp; assumption)
    | (refine .inr (fun _ => ?_); simp; done)
    | (refine .inr (fun _ => ?_); (repeat' split) <;> first | rfl | (simp; done))
    | (simp; done)

def execHeadListenEndMask : Nat :=
  State.listenEndMask ||| settleMask

theorem execHeadListenEnd_touch {msk : Nat} {s : State} (hm : Sub execHeadListenEndMask msk) : TouchOut msk s (execHeadListenEnd s) := by
  unfold execHeadListenEnd
  try dsimp only
  repeat' (with_reducible first
    | assumption
    | exact TouchOut.fault
    | apply TouchOut.done
    | exact Touch.refl
    | intro _
    | apply State.listenEnd_touch
    | apply Touch.ite
    | split)
  all_goals with_reducible first
    | exact .inr rfl
    | exact Sub.trans (b := execHeadListenEndMask) (by decide +kernel) hm
    | exact Has.sub (a := execHeadListenEndMask) (by decide +kernel) hm
    | exact .inl (Has.sub (a := execHeadListenEndMask) (by decide +kernel) hm)
    | exact Has.at (by decide) (Has.sub (a := execHeadListenEndMask) (by decide +kernel) hm)
    | exact Has.cell (by decide) (Has.sub (a := execHeadListenEndMask) (by decide +kernel) hm)
    | exact Has.cellNext (by decide) (Has.sub (a := execHeadListenEndMask) (by decide +kernel) hm)
    | exact Has.ite (Has.sub (a := execHeadListenEndMask) (by decide +kernel) hm) (Has.sub (a := execHeadListenEndMask) (by decide +kernel) hm)
    | exact .inr (fun _ => rfl)
    | (intro _; rfl)
    | (intro _; simp; done)
    | (simp; assumption)
    | (refine .inr (fun _ => ?_); simp; done)
    | (refine .inr (fun _ => ?_); (repeat' split) <;> first | rfl | (simp; done))
    | (simp; done)

def execContentionTxStartMask : Nat :=
  State.contendMask ||| settleMask

theorem execContentionTxStart_touch {msk : Nat} {n : Nat} {s : State} (hm : Sub execContentionTxStartMask msk) : TouchOut msk s (execContentionTxStart n s) := by
  unfold execContentionTxStart
  try dsimp only
  repeat' (with_reducible first
    | assumption
    | exact TouchOut.fault
    | apply TouchOut.done
    | exact Touch.refl
    | intro _
    | apply State.contend_touch)
  all_goals with_reducible first
    | exact .inr rfl
    | exact Sub.trans (b := execContentionTxStartMask) (by decide +kernel) hm
    | exact Has.sub (a := execContentionTxStartMask) (by decide +kernel) hm
    | exact .inl (Has.sub (a := execContentionTxStartMask) (by decide +kernel) hm)
    | exact Has.at (by decide) (Has.sub (a := execContentionTxStartMask) (by decide +kernel) hm)
    | exact Has.cell (by decide) (Has.sub (a := execContentionTxStartMask) (by decide +kernel) hm)
    | exact Has.cellNext (by decide) (Has.sub (a := execContentionTxStartMask) (by decide +kernel) hm)
    | exact Has.ite (Has.sub (a := execContentionTxStartMask) (by decide +kernel) hm) (Has.sub (a := execContentionTxStartMask) (by decide +kernel) hm)
    | exact .inr (fun _ => rfl)
    | (intro _; rfl)
    | (intro _; simp; done)
    | (simp; assumption)
    | (refine .inr (fun _ => ?_); simp; done)
    | (refine .inr (fun _ => ?_); (repeat' split) <;> first | rfl | (simp; done))
    | (simp; done)

def execAckSendMask : Nat :=
  State.ackTxMask ||| settleMask

theorem execAckSend_touch {msk : Nat} {s : State} (hm : Sub execAckSendMask msk) : TouchOut msk s (execAckSend s) := by
  unfold execAckSend
  try dsimp only
  repeat' (with_reducible first
    | assumption
    | exact TouchOut.fault
    | apply TouchOut.done
    | exact Touch.refl
    | intro _
    | apply State.ackTx_touch)
  all_goals with_reducible first
    | exact .inr rfl
    | exact Sub.trans (b := execAckSendMask) (by decide +kernel) hm
    | exact Has.sub (a := execAckSendMask) (by decide +kernel) hm
    | exact .inl (Has.sub (a := execAckSendMask) (by decide +kernel) hm)
    | exact Has.at (by decide) (Has.sub (a := execAckSendMask) (by decide +kernel) hm)
    | exact Has.cell (by decide) (Has.sub (a := execAckSendMask) (by decide +kernel) hm)
    | exact Has.cellNext (by decide) (Has.sub (a := execAckSendMask) (by decide +kernel) hm)
    | exact Has.ite (Has.sub (a := execAckSendMask) (by decide +kernel) hm) (Has.sub (a := execAckSendMask) (by decide +kernel) hm)
    | exact .inr (fun _ => rfl)
    | (intro _; rfl)
    | (intro _; simp; done)
    | (simp; assumption)
    | (refine .inr (fun _ => ?_); simp; done)
    | (refine .inr (fun _ => ?_); (repeat' split) <;> first | rfl | (simp; done))
    | (simp; done)

def execAckReceiveMask : Nat :=
  State.ackRxMask ||| settleMask

theorem execAckReceive_touch {msk : Nat} {short : BitVec 29} {s : State} (hm : Sub execAckReceiveMask msk) : TouchOut msk s (execAckReceive short s) := by
  unfold execAckReceive
  try dsimp only
  repeat' (with_reducible first
    | assumption
    | exact TouchOut.fault
    | apply TouchOut.done
    | exact Touch.refl
    | intro _
    | apply State.ackRx_touch
    | apply Touch.ite
    | split)
  all_goals with_reducible first
    | exact .inr rfl
    | exact Sub.trans (b := execAckReceiveMask) (by decide +kernel) hm
    | exact Has.sub (a := execAckReceiveMask) (by decide +kernel) hm
    | exact .inl (Has.sub (a := execAckReceiveMask) (by decide +kernel) hm)
    | exact Has.at (by decide) (Has.sub (a := execAckReceiveMask) (by decide +kernel) hm)
    | exact Has.cell (by decide) (Has.sub (a := execAckReceiveMask) (by decide +kernel) hm)
    | exact Has.cellNext (by decide) (Has.sub (a := execAckReceiveMask) (by decide +kernel) hm)
    | exact Has.ite (Has.sub (a := execAckReceiveMask) (by decide +kernel) hm) (Has.sub (a := execAckReceiveMask) (by decide +kernel) hm)
    | exact .inr (fun _ => rfl)
    | (intro _; rfl)
    | (intro _; simp; done)
    | (simp; assumption)
    | (refine .inr (fun _ => ?_); simp; done)
    | (refine .inr (fun _ => ?_); (repeat' split) <;> first | rfl | (simp; done))
    | (simp; done)

def execAckSpanEndMask : Nat :=
  State.ackOverMask ||| settleMask

theorem execAckSpanEnd_touch {msk : Nat} {s : State} (hm : Sub execAckSpanEndMask msk) : TouchOut msk s (execAckSpanEnd s) := by
  unfold execAckSpanEnd
  try dsimp only
  repeat' (with_reducible first
    | assumption
    | exact TouchOut.fault
    | apply TouchOut.done
    | exact Touch.refl
    | intro _
    | apply State.ackOver_touch
    | apply Touch.ite
    | split)
  all_goals with_reducible first
    | exact .inr rfl
    | exact Sub.trans (b := execAckSpanEndMask) (by decide +kernel) hm
    | exact Has.sub (a := execAckSpanEndMask) (by decide +kernel) hm
    | exact .inl (Has.sub (a := execAckSpanEndMask) (by decide +kernel) hm)
    | exact Has.at (by decide) (Has.sub (a := execAckSpanEndMask) (by decide +kernel) hm)
    | exact Has.cell (by decide) (Has.sub (a := execAckSpanEndMask) (by decide +kernel) hm)
    | exact Has.cellNext (by decide) (Has.sub (a := execAckSpanEndMask) (by decide +kernel) hm)
    | exact Has.ite (Has.sub (a := execAckSpanEndMask) (by decide +kernel) hm) (Has.sub (a := execAckSpanEndMask) (by decide +kernel) hm)
    | exact .inr (fun _ => rfl)
    | (intro _; rfl)
    | (intro _; simp; done)
    | (simp; assumption)
    | (refine .inr (fun _ => ?_); simp; done)
    | (refine .inr (fun _ => ?_); (repeat' split) <;> first | rfl | (simp; done))
    | (simp; done)

def execTmAutoRequestMask : Nat :=
  State.tmAutoMask ||| settleMask

theorem execTmAutoRequest_touch {msk : Nat} {s : State} (hm : Sub execTmAutoRequestMask msk) : TouchOut msk s (execTmAutoRequest s) := by
  unfold execTmAutoRequest
  try dsimp only
  repeat' (with_reducible first
    | assumption
    | exact TouchOut.fault
    | apply TouchOut.done
    | exact Touch.refl
    | intro _
    | apply State.tmAuto_touch)
  all_goals with_reducible first
    | exact .inr rfl
    | exact Sub.trans (b := execTmAutoRequestMask) (by decide +kernel) hm
    | exact Has.sub (a := execTmAutoRequestMask) (by decide +kernel) hm
    | exact .inl (Has.sub (a := execTmAutoRequestMask) (by decide +kernel) hm)
    | exact Has.at (by decide) (Has.sub (a := execTmAutoRequestMask) (by decide +kernel) hm)
    | exact Has.cell (by decide) (Has.sub (a := execTmAutoRequestMask) (by decide +kernel) hm)
    | exact Has.cellNext (by decide) (Has.sub (a := execTmAutoRequestMask) (by decide +kernel) hm)
    | exact Has.ite (Has.sub (a := execTmAutoRequestMask) (by decide +kernel) hm) (Has.sub (a := execTmAutoRequestMask) (by decide +kernel) hm)
    | exact .inr (fun _ => rfl)
    | (intro _; rfl)
    | (intro _; simp; done)
    | (simp; assumption)
    | (refine .inr (fun _ => ?_); simp; done)
    | (refine .inr (fun _ => ?_); (repeat' split) <;> first | rfl | (simp; done))
    | (simp; done)

def execJoinRetryDueMask : Nat :=
  State.modMacMask ||| State.joinRequestMask ||| settleMask

theorem execJoinRetryDue_touch {msk : Nat} {s : State} (hm : Sub execJoinRetryDueMask msk) : TouchOut msk s (execJoinRetryDue s) := by
  unfold execJoinRetryDue
  try dsimp only
  repeat' (with_reducible first
    | assumption
    | exact TouchOut.fault
    | apply TouchOut.done
    | exact Touch.refl
    | intro _
    | apply State.modMac_touch
    | apply State.joinRequest_touch
    | apply Touch.ite
    | split)
  all_goals with_reducible first
    | exact .inr rfl
    | exact Sub.trans (b := execJoinRetryDueMask) (by decide +kernel) hm
    | exact Has.sub (a := execJoinRetryDueMask) (by decide +kernel) hm
    | exact .inl (Has.sub (a := execJoinRetryDueMask) (by decide +kernel) hm)
    | exact Has.at (by decide) (Has.sub (a := execJoinRetryDueMask) (by decide +kernel) hm)
    | exact Has.cell (by decide) (Has.sub (a := execJoinRetryDueMask) (by decide +kernel) hm)
    | exact Has.cellNext (by decide) (Has.sub (a := execJoinRetryDueMask) (by decide +kernel) hm)
    | exact Has.ite (Has.sub (a := execJoinRetryDueMask) (by decide +kernel) hm) (Has.sub (a := execJoinRetryDueMask) (by decide +kernel) hm)
    | exact .inr (fun _ => rfl)
    | (intro _; rfl)
    | (intro _; simp; done)
    | (simp; assumption)
    | (refine .inr (fun _ => ?_); simp; done)
    | (refine .inr (fun _ => ?_); (repeat' split) <;> first | rfl | (simp; done))
    | (simp; done)

def execRoleWriteMask : Nat :=
  State.onWriteMask ||| State.roleWriteMask ||| settleMask

theorem execRoleWrite_touch {msk : Nat} {p : Path} {v : Word} {s : State} (hm : Sub execRoleWriteMask msk) : TouchOut msk s (execRoleWrite p v s) := by
  unfold execRoleWrite
  try dsimp only
  repeat' (with_reducible first
    | assumption
    | exact TouchOut.fault
    | apply TouchOut.done
    | exact Touch.refl
    | intro _
    | apply State.onWrite_touch
    | apply State.roleWrite_touch)
  all_goals with_reducible first
    | exact .inr rfl
    | exact Sub.trans (b := execRoleWriteMask) (by decide +kernel) hm
    | exact Has.sub (a := execRoleWriteMask) (by decide +kernel) hm
    | exact .inl (Has.sub (a := execRoleWriteMask) (by decide +kernel) hm)
    | exact Has.at (by decide) (Has.sub (a := execRoleWriteMask) (by decide +kernel) hm)
    | exact Has.cell (by decide) (Has.sub (a := execRoleWriteMask) (by decide +kernel) hm)
    | exact Has.cellNext (by decide) (Has.sub (a := execRoleWriteMask) (by decide +kernel) hm)
    | exact Has.ite (Has.sub (a := execRoleWriteMask) (by decide +kernel) hm) (Has.sub (a := execRoleWriteMask) (by decide +kernel) hm)
    | exact .inr (fun _ => rfl)
    | (intro _; rfl)
    | (intro _; simp; done)
    | (simp; assumption)
    | (refine .inr (fun _ => ?_); simp; done)
    | (refine .inr (fun _ => ?_); (repeat' split) <;> first | rfl | (simp; done))
    | (simp; done)

def execRingDataReadMask : Nat :=
  State.rdataReadMask ||| settleMask

theorem execRingDataRead_touch {msk : Nat} {p : Path} {s : State} (hm : Sub execRingDataReadMask msk) : TouchOut msk s (execRingDataRead p s) := by
  unfold execRingDataRead
  try dsimp only
  repeat' (with_reducible first
    | assumption
    | exact TouchOut.fault
    | apply TouchOut.done
    | exact Touch.refl
    | intro _
    | apply State.rdataRead_touch
    | apply Touch.ite
    | split)
  all_goals with_reducible first
    | exact .inr rfl
    | exact Sub.trans (b := execRingDataReadMask) (by decide +kernel) hm
    | exact Has.sub (a := execRingDataReadMask) (by decide +kernel) hm
    | exact .inl (Has.sub (a := execRingDataReadMask) (by decide +kernel) hm)
    | exact Has.at (by decide) (Has.sub (a := execRingDataReadMask) (by decide +kernel) hm)
    | exact Has.cell (by decide) (Has.sub (a := execRingDataReadMask) (by decide +kernel) hm)
    | exact Has.cellNext (by decide) (Has.sub (a := execRingDataReadMask) (by decide +kernel) hm)
    | exact Has.ite (Has.sub (a := execRingDataReadMask) (by decide +kernel) hm) (Has.sub (a := execRingDataReadMask) (by decide +kernel) hm)
    | exact .inr (fun _ => rfl)
    | (intro _; rfl)
    | (intro _; simp; done)
    | (simp; assumption)
    | (refine .inr (fun _ => ?_); simp; done)
    | (refine .inr (fun _ => ?_); (repeat' split) <;> first | rfl | (simp; done))
    | (simp; done)

def execRingDataWriteMask : Nat :=
  State.onWriteMask ||| State.rdataWriteMask ||| settleMask

theorem execRingDataWrite_touch {msk : Nat} {p : Path} {v : Word} {s : State} (hm : Sub execRingDataWriteMask msk) : TouchOut msk s (execRingDataWrite p v s) := by
  unfold execRingDataWrite
  try dsimp only
  repeat' (with_reducible first
    | assumption
    | exact TouchOut.fault
    | apply TouchOut.done
    | exact Touch.refl
    | intro _
    | apply State.onWrite_touch
    | apply State.rdataWrite_touch)
  all_goals with_reducible first
    | exact .inr rfl
    | exact Sub.trans (b := execRingDataWriteMask) (by decide +kernel) hm
    | exact Has.sub (a := execRingDataWriteMask) (by decide +kernel) hm
    | exact .inl (Has.sub (a := execRingDataWriteMask) (by decide +kernel) hm)
    | exact Has.at (by decide) (Has.sub (a := execRingDataWriteMask) (by decide +kernel) hm)
    | exact Has.cell (by decide) (Has.sub (a := execRingDataWriteMask) (by decide +kernel) hm)
    | exact Has.cellNext (by decide) (Has.sub (a := execRingDataWriteMask) (by decide +kernel) hm)
    | exact Has.ite (Has.sub (a := execRingDataWriteMask) (by decide +kernel) hm) (Has.sub (a := execRingDataWriteMask) (by decide +kernel) hm)
    | exact .inr (fun _ => rfl)
    | (intro _; rfl)
    | (intro _; simp; done)
    | (simp; assumption)
    | (refine .inr (fun _ => ?_); simp; done)
    | (refine .inr (fun _ => ?_); (repeat' split) <;> first | rfl | (simp; done))
    | (simp; done)

def execRingPopMask : Nat :=
  State.onWriteMask ||| State.popRingMask ||| settleMask

theorem execRingPop_touch {msk : Nat} {p : Path} {s : State} (hm : Sub execRingPopMask msk) : TouchOut msk s (execRingPop p s) := by
  unfold execRingPop
  try dsimp only
  repeat' (with_reducible first
    | assumption
    | exact TouchOut.fault
    | apply TouchOut.done
    | exact Touch.refl
    | intro _
    | apply State.onWrite_touch
    | apply State.popRing_touch)
  all_goals with_reducible first
    | exact .inr rfl
    | exact Sub.trans (b := execRingPopMask) (by decide +kernel) hm
    | exact Has.sub (a := execRingPopMask) (by decide +kernel) hm
    | exact .inl (Has.sub (a := execRingPopMask) (by decide +kernel) hm)
    | exact Has.at (by decide) (Has.sub (a := execRingPopMask) (by decide +kernel) hm)
    | exact Has.cell (by decide) (Has.sub (a := execRingPopMask) (by decide +kernel) hm)
    | exact Has.cellNext (by decide) (Has.sub (a := execRingPopMask) (by decide +kernel) hm)
    | exact Has.ite (Has.sub (a := execRingPopMask) (by decide +kernel) hm) (Has.sub (a := execRingPopMask) (by decide +kernel) hm)
    | exact .inr (fun _ => rfl)
    | (intro _; rfl)
    | (intro _; simp; done)
    | (simp; assumption)
    | (refine .inr (fun _ => ?_); simp; done)
    | (refine .inr (fun _ => ?_); (repeat' split) <;> first | rfl | (simp; done))
    | (simp; done)

def execRingPushMask : Nat :=
  State.onWriteMask ||| State.pushRingMask ||| settleMask

theorem execRingPush_touch {msk : Nat} {p : Path} {s : State} (hm : Sub execRingPushMask msk) : TouchOut msk s (execRingPush p s) := by
  unfold execRingPush
  try dsimp only
  repeat' (with_reducible first
    | assumption
    | exact TouchOut.fault
    | apply TouchOut.done
    | exact Touch.refl
    | intro _
    | apply State.onWrite_touch
    | apply State.pushRing_touch)
  all_goals with_reducible first
    | exact .inr rfl
    | exact Sub.trans (b := execRingPushMask) (by decide +kernel) hm
    | exact Has.sub (a := execRingPushMask) (by decide +kernel) hm
    | exact .inl (Has.sub (a := execRingPushMask) (by decide +kernel) hm)
    | exact Has.at (by decide) (Has.sub (a := execRingPushMask) (by decide +kernel) hm)
    | exact Has.cell (by decide) (Has.sub (a := execRingPushMask) (by decide +kernel) hm)
    | exact Has.cellNext (by decide) (Has.sub (a := execRingPushMask) (by decide +kernel) hm)
    | exact Has.ite (Has.sub (a := execRingPushMask) (by decide +kernel) hm) (Has.sub (a := execRingPushMask) (by decide +kernel) hm)
    | exact .inr (fun _ => rfl)
    | (intro _; rfl)
    | (intro _; simp; done)
    | (simp; assumption)
    | (refine .inr (fun _ => ?_); simp; done)
    | (refine .inr (fun _ => ?_); (repeat' split) <;> first | rfl | (simp; done))
    | (simp; done)

def execRingAbortMask : Nat :=
  State.onWriteMask ||| State.abortRingMask ||| settleMask

theorem execRingAbort_touch {msk : Nat} {p : Path} {s : State} (hm : Sub execRingAbortMask msk) : TouchOut msk s (execRingAbort p s) := by
  unfold execRingAbort
  try dsimp only
  repeat' (with_reducible first
    | assumption
    | exact TouchOut.fault
    | apply TouchOut.done
    | exact Touch.refl
    | intro _
    | apply State.onWrite_touch
    | apply State.abortRing_touch)
  all_goals with_reducible first
    | exact .inr rfl
    | exact Sub.trans (b := execRingAbortMask) (by decide +kernel) hm
    | exact Has.sub (a := execRingAbortMask) (by decide +kernel) hm
    | exact .inl (Has.sub (a := execRingAbortMask) (by decide +kernel) hm)
    | exact Has.at (by decide) (Has.sub (a := execRingAbortMask) (by decide +kernel) hm)
    | exact Has.cell (by decide) (Has.sub (a := execRingAbortMask) (by decide +kernel) hm)
    | exact Has.cellNext (by decide) (Has.sub (a := execRingAbortMask) (by decide +kernel) hm)
    | exact Has.ite (Has.sub (a := execRingAbortMask) (by decide +kernel) hm) (Has.sub (a := execRingAbortMask) (by decide +kernel) hm)
    | exact .inr (fun _ => rfl)
    | (intro _; rfl)
    | (intro _; simp; done)
    | (simp; assumption)
    | (refine .inr (fun _ => ?_); simp; done)
    | (refine .inr (fun _ => ?_); (repeat' split) <;> first | rfl | (simp; done))
    | (simp; done)

def execNominalBenchElapsedMask : Nat :=
  State.thetaBenchMask ||| State.bsinceUpMask ||| settleMask

theorem execNominalBenchElapsed_touch {msk : Nat} {s : State} (hm : Sub execNominalBenchElapsedMask msk) : TouchOut msk s (execNominalBenchElapsed s) := by
  unfold execNominalBenchElapsed
  try dsimp only
  repeat' (with_reducible first
    | assumption
    | exact TouchOut.fault
    | apply TouchOut.done
    | exact Touch.refl
    | intro _
    | apply State.thetaBench_touch
    | apply State.bsinceUp_touch
    | apply Touch.ite
    | split)
  all_goals with_reducible first
    | exact .inr rfl
    | exact Sub.trans (b := execNominalBenchElapsedMask) (by decide +kernel) hm
    | exact Has.sub (a := execNominalBenchElapsedMask) (by decide +kernel) hm
    | exact .inl (Has.sub (a := execNominalBenchElapsedMask) (by decide +kernel) hm)
    | exact Has.at (by decide) (Has.sub (a := execNominalBenchElapsedMask) (by decide +kernel) hm)
    | exact Has.cell (by decide) (Has.sub (a := execNominalBenchElapsedMask) (by decide +kernel) hm)
    | exact Has.cellNext (by decide) (Has.sub (a := execNominalBenchElapsedMask) (by decide +kernel) hm)
    | exact Has.ite (Has.sub (a := execNominalBenchElapsedMask) (by decide +kernel) hm) (Has.sub (a := execNominalBenchElapsedMask) (by decide +kernel) hm)
    | exact .inr (fun _ => rfl)
    | (intro _; rfl)
    | (intro _; simp; done)
    | (simp; assumption)
    | (refine .inr (fun _ => ?_); simp; done)
    | (refine .inr (fun _ => ?_); (repeat' split) <;> first | rfl | (simp; done))
    | (simp; done)

def execKaPowerOnResetMask : Nat :=
  State.kaResetMask ||| settleMask

theorem execKaPowerOnReset_touch {msk : Nat} {s : State} (hm : Sub execKaPowerOnResetMask msk) : TouchOut msk s (execKaPowerOnReset s) := by
  unfold execKaPowerOnReset
  try dsimp only
  repeat' (with_reducible first
    | assumption
    | exact TouchOut.fault
    | apply TouchOut.done
    | exact Touch.refl
    | intro _
    | apply State.kaReset_touch)
  all_goals with_reducible first
    | exact .inr rfl
    | exact Sub.trans (b := execKaPowerOnResetMask) (by decide +kernel) hm
    | exact Has.sub (a := execKaPowerOnResetMask) (by decide +kernel) hm
    | exact .inl (Has.sub (a := execKaPowerOnResetMask) (by decide +kernel) hm)
    | exact Has.at (by decide) (Has.sub (a := execKaPowerOnResetMask) (by decide +kernel) hm)
    | exact Has.cell (by decide) (Has.sub (a := execKaPowerOnResetMask) (by decide +kernel) hm)
    | exact Has.cellNext (by decide) (Has.sub (a := execKaPowerOnResetMask) (by decide +kernel) hm)
    | exact Has.ite (Has.sub (a := execKaPowerOnResetMask) (by decide +kernel) hm) (Has.sub (a := execKaPowerOnResetMask) (by decide +kernel) hm)
    | exact .inr (fun _ => rfl)
    | (intro _; rfl)
    | (intro _; simp; done)
    | (simp; assumption)
    | (refine .inr (fun _ => ?_); simp; done)
    | (refine .inr (fun _ => ?_); (repeat' split) <;> first | rfl | (simp; done))
    | (simp; done)

def execRstAssertMask : Nat :=
  State.modPwrMask ||| State.coreResetMask ||| settleMask

theorem execRstAssert_touch {msk : Nat} {s : State} (hm : Sub execRstAssertMask msk) : TouchOut msk s (execRstAssert s) := by
  unfold execRstAssert
  try dsimp only
  repeat' (with_reducible first
    | assumption
    | exact TouchOut.fault
    | apply TouchOut.done
    | exact Touch.refl
    | intro _
    | apply State.modPwr_touch
    | apply State.coreReset_touch
    | apply Touch.ite
    | split)
  all_goals with_reducible first
    | exact .inr rfl
    | exact Sub.trans (b := execRstAssertMask) (by decide +kernel) hm
    | exact Has.sub (a := execRstAssertMask) (by decide +kernel) hm
    | exact .inl (Has.sub (a := execRstAssertMask) (by decide +kernel) hm)
    | exact Has.at (by decide) (Has.sub (a := execRstAssertMask) (by decide +kernel) hm)
    | exact Has.cell (by decide) (Has.sub (a := execRstAssertMask) (by decide +kernel) hm)
    | exact Has.cellNext (by decide) (Has.sub (a := execRstAssertMask) (by decide +kernel) hm)
    | exact Has.ite (Has.sub (a := execRstAssertMask) (by decide +kernel) hm) (Has.sub (a := execRstAssertMask) (by decide +kernel) hm)
    | exact .inr (fun _ => rfl)
    | (intro _; rfl)
    | (intro _; simp; done)
    | (simp; assumption)
    | (refine .inr (fun _ => ?_); simp; done)
    | (refine .inr (fun _ => ?_); (repeat' split) <;> first | rfl | (simp; done))
    | (simp; done)

def execRstReleaseMask : Nat :=
  State.modPwrMask ||| State.lrstMask ||| State.litEntryMask ||| settleMask ||| rbit R.SYS_MODE ||| rbit R.SYS_RSTC

theorem execRstRelease_touch {msk : Nat} {strap : Bool} {s : State} (hm : Sub execRstReleaseMask msk) : TouchOut msk s (execRstRelease strap s) := by
  unfold execRstRelease
  try dsimp only
  repeat' (with_reducible first
    | assumption
    | exact TouchOut.fault
    | apply TouchOut.done
    | exact Touch.refl
    | intro _
    | apply State.modPwr_touch
    | apply State.lrst_touch
    | apply State.litEntry_touch
    | apply State.setFlag_touch
    | apply Touch.ite
    | split)
  all_goals with_reducible first
    | exact .inr rfl
    | exact Sub.trans (b := execRstReleaseMask) (by decide +kernel) hm
    | exact Has.sub (a := execRstReleaseMask) (by decide +kernel) hm
    | exact .inl (Has.sub (a := execRstReleaseMask) (by decide +kernel) hm)
    | exact Has.at (by decide) (Has.sub (a := execRstReleaseMask) (by decide +kernel) hm)
    | exact Has.cell (by decide) (Has.sub (a := execRstReleaseMask) (by decide +kernel) hm)
    | exact Has.cellNext (by decide) (Has.sub (a := execRstReleaseMask) (by decide +kernel) hm)
    | exact Has.ite (Has.sub (a := execRstReleaseMask) (by decide +kernel) hm) (Has.sub (a := execRstReleaseMask) (by decide +kernel) hm)
    | exact .inr (fun _ => rfl)
    | (intro _; rfl)
    | (intro _; simp; done)
    | (simp; assumption)
    | (refine .inr (fun _ => ?_); simp; done)
    | (refine .inr (fun _ => ?_); (repeat' split) <;> first | rfl | (simp; done))
    | (simp; done)

def execCoreBrownoutMask : Nat :=
  State.modKeepMask ||| State.keepLiveMask ||| State.modPwrMask ||| State.coreResetMask ||| State.lrstMask |||
    settleMask ||| rbit R.SYS_RSTC

theorem execCoreBrownout_touch {msk : Nat} {s : State} (hm : Sub execCoreBrownoutMask msk) : TouchOut msk s (execCoreBrownout s) := by
  unfold execCoreBrownout
  try dsimp only
  repeat' (with_reducible first
    | assumption
    | exact TouchOut.fault
    | apply TouchOut.done
    | exact Touch.refl
    | intro _
    | apply State.modKeep_touch
    | apply State.keepLive_touch
    | apply State.modPwr_touch
    | apply State.coreReset_touch
    | apply State.lrst_touch
    | apply State.setFlag_touch
    | apply Touch.ite
    | split)
  all_goals with_reducible first
    | exact .inr rfl
    | exact Sub.trans (b := execCoreBrownoutMask) (by decide +kernel) hm
    | exact Has.sub (a := execCoreBrownoutMask) (by decide +kernel) hm
    | exact .inl (Has.sub (a := execCoreBrownoutMask) (by decide +kernel) hm)
    | exact Has.at (by decide) (Has.sub (a := execCoreBrownoutMask) (by decide +kernel) hm)
    | exact Has.cell (by decide) (Has.sub (a := execCoreBrownoutMask) (by decide +kernel) hm)
    | exact Has.cellNext (by decide) (Has.sub (a := execCoreBrownoutMask) (by decide +kernel) hm)
    | exact Has.ite (Has.sub (a := execCoreBrownoutMask) (by decide +kernel) hm) (Has.sub (a := execCoreBrownoutMask) (by decide +kernel) hm)
    | exact .inr (fun _ => rfl)
    | (intro _; rfl)
    | (intro _; simp; done)
    | (simp; assumption)
    | (refine .inr (fun _ => ?_); simp; done)
    | (refine .inr (fun _ => ?_); (repeat' split) <;> first | rfl | (simp; done))
    | (simp; done)

def execBorWarningMask : Nat :=
  State.modPwrMask ||| settleMask ||| rbit R.NMI_STAT

theorem execBorWarning_touch {msk : Nat} {s : State} (hm : Sub execBorWarningMask msk) : TouchOut msk s (execBorWarning s) := by
  unfold execBorWarning
  try dsimp only
  repeat' (with_reducible first
    | assumption
    | exact TouchOut.fault
    | apply TouchOut.done
    | exact Touch.refl
    | intro _
    | apply State.modPwr_touch
    | apply State.nmi_touch
    | apply Touch.ite
    | split)
  all_goals with_reducible first
    | exact .inr rfl
    | exact Sub.trans (b := execBorWarningMask) (by decide +kernel) hm
    | exact Has.sub (a := execBorWarningMask) (by decide +kernel) hm
    | exact .inl (Has.sub (a := execBorWarningMask) (by decide +kernel) hm)
    | exact Has.at (by decide) (Has.sub (a := execBorWarningMask) (by decide +kernel) hm)
    | exact Has.cell (by decide) (Has.sub (a := execBorWarningMask) (by decide +kernel) hm)
    | exact Has.cellNext (by decide) (Has.sub (a := execBorWarningMask) (by decide +kernel) hm)
    | exact Has.ite (Has.sub (a := execBorWarningMask) (by decide +kernel) hm) (Has.sub (a := execBorWarningMask) (by decide +kernel) hm)
    | exact .inr (fun _ => rfl)
    | (intro _; rfl)
    | (intro _; simp; done)
    | (simp; assumption)
    | (refine .inr (fun _ => ?_); simp; done)
    | (refine .inr (fun _ => ?_); (repeat' split) <;> first | rfl | (simp; done))
    | (simp; done)

def execCoreResetReleaseMask : Nat :=
  State.postMask ||| State.globalLevelsMask ||| State.modClkMask ||| State.modPwrMask ||| State.linkStickyMask |||
    settleMask

theorem execCoreResetRelease_touch {msk : Nat} {s : State} (hm : Sub execCoreResetReleaseMask msk) : TouchOut msk s (execCoreResetRelease s) := by
  unfold execCoreResetRelease
  try dsimp only
  repeat' (with_reducible first
    | assumption
    | exact TouchOut.fault
    | apply TouchOut.done
    | exact Touch.refl
    | intro _
    | apply State.post_touch
    | apply State.globalLevels_touch
    | apply State.modClk_touch
    | apply State.modPwr_touch
    | apply State.linkSticky_touch
    | (refine Touch.ofEq (by assumption) ?_)
    | apply Touch.ite
    | split)
  all_goals with_reducible first
    | exact .inr rfl
    | exact Sub.trans (b := execCoreResetReleaseMask) (by decide +kernel) hm
    | exact Has.sub (a := execCoreResetReleaseMask) (by decide +kernel) hm
    | exact .inl (Has.sub (a := execCoreResetReleaseMask) (by decide +kernel) hm)
    | exact Has.at (by decide) (Has.sub (a := execCoreResetReleaseMask) (by decide +kernel) hm)
    | exact Has.cell (by decide) (Has.sub (a := execCoreResetReleaseMask) (by decide +kernel) hm)
    | exact Has.cellNext (by decide) (Has.sub (a := execCoreResetReleaseMask) (by decide +kernel) hm)
    | exact Has.ite (Has.sub (a := execCoreResetReleaseMask) (by decide +kernel) hm) (Has.sub (a := execCoreResetReleaseMask) (by decide +kernel) hm)
    | exact .inr (fun _ => rfl)
    | (intro _; rfl)
    | (intro _; simp; done)
    | (simp; assumption)
    | (refine .inr (fun _ => ?_); simp; done)
    | (refine .inr (fun _ => ?_); (repeat' split) <;> first | rfl | (simp; done))
    | (simp; done)

def execFatalRetryMask : Nat :=
  State.modClkMask ||| State.litEntryMask ||| settleMask

theorem execFatalRetry_touch {msk : Nat} {s : State} (hm : Sub execFatalRetryMask msk) : TouchOut msk s (execFatalRetry s) := by
  unfold execFatalRetry
  try dsimp only
  repeat' (with_reducible first
    | assumption
    | exact TouchOut.fault
    | apply TouchOut.done
    | exact Touch.refl
    | intro _
    | apply State.modClk_touch
    | apply State.litEntry_touch
    | apply Touch.ite
    | split)
  all_goals with_reducible first
    | exact .inr rfl
    | exact Sub.trans (b := execFatalRetryMask) (by decide +kernel) hm
    | exact Has.sub (a := execFatalRetryMask) (by decide +kernel) hm
    | exact .inl (Has.sub (a := execFatalRetryMask) (by decide +kernel) hm)
    | exact Has.at (by decide) (Has.sub (a := execFatalRetryMask) (by decide +kernel) hm)
    | exact Has.cell (by decide) (Has.sub (a := execFatalRetryMask) (by decide +kernel) hm)
    | exact Has.cellNext (by decide) (Has.sub (a := execFatalRetryMask) (by decide +kernel) hm)
    | exact Has.ite (Has.sub (a := execFatalRetryMask) (by decide +kernel) hm) (Has.sub (a := execFatalRetryMask) (by decide +kernel) hm)
    | exact .inr (fun _ => rfl)
    | (intro _; rfl)
    | (intro _; simp; done)
    | (simp; assumption)
    | (refine .inr (fun _ => ?_); simp; done)
    | (refine .inr (fun _ => ?_); (repeat' split) <;> first | rfl | (simp; done))
    | (simp; done)

def execXoWindowMask : Nat :=
  State.xoWindowMask ||| settleMask

theorem execXoWindow_touch {msk : Nat} {cnt : Word} {s : State} (hm : Sub execXoWindowMask msk) : TouchOut msk s (execXoWindow cnt s) := by
  unfold execXoWindow
  try dsimp only
  repeat' (with_reducible first
    | assumption
    | exact TouchOut.fault
    | apply TouchOut.done
    | exact Touch.refl
    | intro _
    | apply State.xoWindow_touch)
  all_goals with_reducible first
    | exact .inr rfl
    | exact Sub.trans (b := execXoWindowMask) (by decide +kernel) hm
    | exact Has.sub (a := execXoWindowMask) (by decide +kernel) hm
    | exact .inl (Has.sub (a := execXoWindowMask) (by decide +kernel) hm)
    | exact Has.at (by decide) (Has.sub (a := execXoWindowMask) (by decide +kernel) hm)
    | exact Has.cell (by decide) (Has.sub (a := execXoWindowMask) (by decide +kernel) hm)
    | exact Has.cellNext (by decide) (Has.sub (a := execXoWindowMask) (by decide +kernel) hm)
    | exact Has.ite (Has.sub (a := execXoWindowMask) (by decide +kernel) hm) (Has.sub (a := execXoWindowMask) (by decide +kernel) hm)
    | exact .inr (fun _ => rfl)
    | (intro _; rfl)
    | (intro _; simp; done)
    | (simp; assumption)
    | (refine .inr (fun _ => ?_); simp; done)
    | (refine .inr (fun _ => ?_); (repeat' split) <;> first | rfl | (simp; done))
    | (simp; done)

def execHandoverDoneMask : Nat :=
  State.handoverMask ||| State.handoverEndMask ||| settleMask

theorem execHandoverDone_touch {msk : Nat} {s : State} (hm : Sub execHandoverDoneMask msk) : TouchOut msk s (execHandoverDone s) := by
  unfold execHandoverDone
  try dsimp only
  repeat' (with_reducible first
    | assumption
    | exact TouchOut.fault
    | apply TouchOut.done
    | exact Touch.refl
    | intro _
    | apply State.handover_touch
    | apply State.handoverEnd_touch
    | apply Touch.ite
    | split)
  all_goals with_reducible first
    | exact .inr rfl
    | exact Sub.trans (b := execHandoverDoneMask) (by decide +kernel) hm
    | exact Has.sub (a := execHandoverDoneMask) (by decide +kernel) hm
    | exact .inl (Has.sub (a := execHandoverDoneMask) (by decide +kernel) hm)
    | exact Has.at (by decide) (Has.sub (a := execHandoverDoneMask) (by decide +kernel) hm)
    | exact Has.cell (by decide) (Has.sub (a := execHandoverDoneMask) (by decide +kernel) hm)
    | exact Has.cellNext (by decide) (Has.sub (a := execHandoverDoneMask) (by decide +kernel) hm)
    | exact Has.ite (Has.sub (a := execHandoverDoneMask) (by decide +kernel) hm) (Has.sub (a := execHandoverDoneMask) (by decide +kernel) hm)
    | exact .inr (fun _ => rfl)
    | (intro _; rfl)
    | (intro _; simp; done)
    | (simp; assumption)
    | (refine .inr (fun _ => ?_); simp; done)
    | (refine .inr (fun _ => ?_); (repeat' split) <;> first | rfl | (simp; done))
    | (simp; done)

def execXoTimeoutMask : Nat :=
  State.postMask ||| State.clkStickMask ||| settleMask

theorem execXoTimeout_touch {msk : Nat} {s : State} (hm : Sub execXoTimeoutMask msk) : TouchOut msk s (execXoTimeout s) := by
  unfold execXoTimeout
  try dsimp only
  repeat' (with_reducible first
    | assumption
    | exact TouchOut.fault
    | apply TouchOut.done
    | exact Touch.refl
    | intro _
    | apply State.post_touch
    | apply State.clkStick_touch
    | apply Touch.ite
    | split)
  all_goals with_reducible first
    | exact .inr rfl
    | exact Sub.trans (b := execXoTimeoutMask) (by decide +kernel) hm
    | exact Has.sub (a := execXoTimeoutMask) (by decide +kernel) hm
    | exact .inl (Has.sub (a := execXoTimeoutMask) (by decide +kernel) hm)
    | exact Has.at (by decide) (Has.sub (a := execXoTimeoutMask) (by decide +kernel) hm)
    | exact Has.cell (by decide) (Has.sub (a := execXoTimeoutMask) (by decide +kernel) hm)
    | exact Has.cellNext (by decide) (Has.sub (a := execXoTimeoutMask) (by decide +kernel) hm)
    | exact Has.ite (Has.sub (a := execXoTimeoutMask) (by decide +kernel) hm) (Has.sub (a := execXoTimeoutMask) (by decide +kernel) hm)
    | exact .inr (fun _ => rfl)
    | (intro _; rfl)
    | (intro _; simp; done)
    | (simp; assumption)
    | (refine .inr (fun _ => ?_); simp; done)
    | (refine .inr (fun _ => ?_); (repeat' split) <;> first | rfl | (simp; done))
    | (simp; done)

def execXoMissingEdgeMask : Nat :=
  State.modClkMask ||| State.handoverMask ||| State.xoFailMask ||| settleMask ||| rbit R.CLK_STAT

theorem execXoMissingEdge_touch {msk : Nat} {s : State} (hm : Sub execXoMissingEdgeMask msk) : TouchOut msk s (execXoMissingEdge s) := by
  unfold execXoMissingEdge
  try dsimp only
  repeat' (with_reducible first
    | assumption
    | exact TouchOut.fault
    | apply TouchOut.done
    | exact Touch.refl
    | intro _
    | apply State.modClk_touch
    | apply State.handover_touch
    | apply State.xoFail_touch
    | apply State.setFlag_touch
    | apply Touch.ite
    | split)
  all_goals with_reducible first
    | exact .inr rfl
    | exact Sub.trans (b := execXoMissingEdgeMask) (by decide +kernel) hm
    | exact Has.sub (a := execXoMissingEdgeMask) (by decide +kernel) hm
    | exact .inl (Has.sub (a := execXoMissingEdgeMask) (by decide +kernel) hm)
    | exact Has.at (by decide) (Has.sub (a := execXoMissingEdgeMask) (by decide +kernel) hm)
    | exact Has.cell (by decide) (Has.sub (a := execXoMissingEdgeMask) (by decide +kernel) hm)
    | exact Has.cellNext (by decide) (Has.sub (a := execXoMissingEdgeMask) (by decide +kernel) hm)
    | exact Has.ite (Has.sub (a := execXoMissingEdgeMask) (by decide +kernel) hm) (Has.sub (a := execXoMissingEdgeMask) (by decide +kernel) hm)
    | exact .inr (fun _ => rfl)
    | (intro _; rfl)
    | (intro _; simp; done)
    | (simp; assumption)
    | (refine .inr (fun _ => ?_); simp; done)
    | (refine .inr (fun _ => ?_); (repeat' split) <;> first | rfl | (simp; done))
    | (simp; done)

def execIrcAcceptedMask : Nat :=
  State.modClkMask ||| settleMask ||| rbit R.NMI_STAT

theorem execIrcAccepted_touch {msk : Nat} {s : State} (hm : Sub execIrcAcceptedMask msk) : TouchOut msk s (execIrcAccepted s) := by
  unfold execIrcAccepted
  try dsimp only
  repeat' (with_reducible first
    | assumption
    | exact TouchOut.fault
    | apply TouchOut.done
    | exact Touch.refl
    | intro _
    | apply State.modClk_touch
    | apply State.nmi_touch
    | apply Touch.ite
    | split)
  all_goals with_reducible first
    | exact .inr rfl
    | exact Sub.trans (b := execIrcAcceptedMask) (by decide +kernel) hm
    | exact Has.sub (a := execIrcAcceptedMask) (by decide +kernel) hm
    | exact .inl (Has.sub (a := execIrcAcceptedMask) (by decide +kernel) hm)
    | exact Has.at (by decide) (Has.sub (a := execIrcAcceptedMask) (by decide +kernel) hm)
    | exact Has.cell (by decide) (Has.sub (a := execIrcAcceptedMask) (by decide +kernel) hm)
    | exact Has.cellNext (by decide) (Has.sub (a := execIrcAcceptedMask) (by decide +kernel) hm)
    | exact Has.ite (Has.sub (a := execIrcAcceptedMask) (by decide +kernel) hm) (Has.sub (a := execIrcAcceptedMask) (by decide +kernel) hm)
    | exact .inr (fun _ => rfl)
    | (intro _; rfl)
    | (intro _; simp; done)
    | (simp; assumption)
    | (refine .inr (fun _ => ?_); simp; done)
    | (refine .inr (fun _ => ?_); (repeat' split) <;> first | rfl | (simp; done))
    | (simp; done)

def execPllLockedMask : Nat :=
  State.modClkMask ||| State.modPwrMask ||| State.xoQualifiedMask ||| settleMask ||| rbit R.CLK_STAT

theorem execPllLocked_touch {msk : Nat} {s : State} (hm : Sub execPllLockedMask msk) : TouchOut msk s (execPllLocked s) := by
  unfold execPllLocked
  try dsimp only
  repeat' (with_reducible first
    | assumption
    | exact TouchOut.fault
    | apply TouchOut.done
    | exact Touch.refl
    | intro _
    | apply State.modClk_touch
    | apply State.modPwr_touch
    | apply State.xoQualified_touch
    | apply State.setFlag_touch
    | apply Touch.ite
    | split)
  all_goals with_reducible first
    | exact .inr rfl
    | exact Sub.trans (b := execPllLockedMask) (by decide +kernel) hm
    | exact Has.sub (a := execPllLockedMask) (by decide +kernel) hm
    | exact .inl (Has.sub (a := execPllLockedMask) (by decide +kernel) hm)
    | exact Has.at (by decide) (Has.sub (a := execPllLockedMask) (by decide +kernel) hm)
    | exact Has.cell (by decide) (Has.sub (a := execPllLockedMask) (by decide +kernel) hm)
    | exact Has.cellNext (by decide) (Has.sub (a := execPllLockedMask) (by decide +kernel) hm)
    | exact Has.ite (Has.sub (a := execPllLockedMask) (by decide +kernel) hm) (Has.sub (a := execPllLockedMask) (by decide +kernel) hm)
    | exact .inr (fun _ => rfl)
    | (intro _; rfl)
    | (intro _; simp; done)
    | (simp; assumption)
    | (refine .inr (fun _ => ?_); simp; done)
    | (refine .inr (fun _ => ?_); (repeat' split) <;> first | rfl | (simp; done))
    | (simp; done)

def execClockGoodMask : Nat :=
  State.postMask ||| State.clockClearMask ||| State.modClkMask ||| State.xoQualifiedMask ||| settleMask ||| rbit
    R.CLK_STAT

theorem execClockGood_touch {msk : Nat} {s : State} (hm : Sub execClockGoodMask msk) : TouchOut msk s (execClockGood s) := by
  unfold execClockGood
  try dsimp only
  repeat' (with_reducible first
    | assumption
    | exact TouchOut.fault
    | apply TouchOut.done
    | exact Touch.refl
    | intro _
    | apply State.post_touch
    | apply State.clockClear_touch
    | apply State.modClk_touch
    | apply State.xoQualified_touch
    | apply State.setFlag_touch
    | apply Touch.ite
    | split)
  all_goals with_reducible first
    | exact .inr rfl
    | exact Sub.trans (b := execClockGoodMask) (by decide +kernel) hm
    | exact Has.sub (a := execClockGoodMask) (by decide +kernel) hm
    | exact .inl (Has.sub (a := execClockGoodMask) (by decide +kernel) hm)
    | exact Has.at (by decide) (Has.sub (a := execClockGoodMask) (by decide +kernel) hm)
    | exact Has.cell (by decide) (Has.sub (a := execClockGoodMask) (by decide +kernel) hm)
    | exact Has.cellNext (by decide) (Has.sub (a := execClockGoodMask) (by decide +kernel) hm)
    | exact Has.ite (Has.sub (a := execClockGoodMask) (by decide +kernel) hm) (Has.sub (a := execClockGoodMask) (by decide +kernel) hm)
    | exact .inr (fun _ => rfl)
    | (intro _; rfl)
    | (intro _; simp; done)
    | (simp; assumption)
    | (refine .inr (fun _ => ?_); simp; done)
    | (refine .inr (fun _ => ?_); (repeat' split) <;> first | rfl | (simp; done))
    | (simp; done)

def execIrcCheckMask : Nat :=
  State.ircCheckMask ||| settleMask

theorem execIrcCheck_touch {msk : Nat} {cnt : Word} {s : State} (hm : Sub execIrcCheckMask msk) : TouchOut msk s (execIrcCheck cnt s) := by
  unfold execIrcCheck
  try dsimp only
  repeat' (with_reducible first
    | assumption
    | exact TouchOut.fault
    | apply TouchOut.done
    | exact Touch.refl
    | intro _
    | apply State.ircCheck_touch)
  all_goals with_reducible first
    | exact .inr rfl
    | exact Sub.trans (b := execIrcCheckMask) (by decide +kernel) hm
    | exact Has.sub (a := execIrcCheckMask) (by decide +kernel) hm
    | exact .inl (Has.sub (a := execIrcCheckMask) (by decide +kernel) hm)
    | exact Has.at (by decide) (Has.sub (a := execIrcCheckMask) (by decide +kernel) hm)
    | exact Has.cell (by decide) (Has.sub (a := execIrcCheckMask) (by decide +kernel) hm)
    | exact Has.cellNext (by decide) (Has.sub (a := execIrcCheckMask) (by decide +kernel) hm)
    | exact Has.ite (Has.sub (a := execIrcCheckMask) (by decide +kernel) hm) (Has.sub (a := execIrcCheckMask) (by decide +kernel) hm)
    | exact .inr (fun _ => rfl)
    | (intro _; rfl)
    | (intro _; simp; done)
    | (simp; assumption)
    | (refine .inr (fun _ => ?_); simp; done)
    | (refine .inr (fun _ => ?_); (repeat' split) <;> first | rfl | (simp; done))
    | (simp; done)

def execPllLockLossMask : Nat :=
  State.globalTripMask ||| State.proofTripsMask ||| State.modClkMask ||| State.clkStickMask ||| settleMask ||| rbit
    R.CLK_STAT

theorem execPllLockLoss_touch {msk : Nat} {s : State} (hm : Sub execPllLockLossMask msk) : TouchOut msk s (execPllLockLoss s) := by
  unfold execPllLockLoss
  try dsimp only
  repeat' (with_reducible first
    | assumption
    | exact TouchOut.fault
    | apply TouchOut.done
    | exact Touch.refl
    | intro _
    | apply State.globalTrip_touch
    | apply State.proofTrips_touch
    | apply State.modClk_touch
    | apply State.clkStick_touch
    | apply State.setFlag_touch
    | apply Touch.ite
    | split)
  all_goals with_reducible first
    | exact .inr rfl
    | exact Sub.trans (b := execPllLockLossMask) (by decide +kernel) hm
    | exact Has.sub (a := execPllLockLossMask) (by decide +kernel) hm
    | exact .inl (Has.sub (a := execPllLockLossMask) (by decide +kernel) hm)
    | exact Has.at (by decide) (Has.sub (a := execPllLockLossMask) (by decide +kernel) hm)
    | exact Has.cell (by decide) (Has.sub (a := execPllLockLossMask) (by decide +kernel) hm)
    | exact Has.cellNext (by decide) (Has.sub (a := execPllLockLossMask) (by decide +kernel) hm)
    | exact Has.ite (Has.sub (a := execPllLockLossMask) (by decide +kernel) hm) (Has.sub (a := execPllLockLossMask) (by decide +kernel) hm)
    | exact .inr (fun _ => rfl)
    | (intro _; rfl)
    | (intro _; simp; done)
    | (simp; assumption)
    | (refine .inr (fun _ => ?_); simp; done)
    | (refine .inr (fun _ => ?_); (repeat' split) <;> first | rfl | (simp; done))
    | (simp; done)

def execPllRelockTimeoutMask : Nat :=
  State.postMask ||| State.clockFatalMask ||| settleMask

theorem execPllRelockTimeout_touch {msk : Nat} {s : State} (hm : Sub execPllRelockTimeoutMask msk) : TouchOut msk s (execPllRelockTimeout s) := by
  unfold execPllRelockTimeout
  try dsimp only
  repeat' (with_reducible first
    | assumption
    | exact TouchOut.fault
    | apply TouchOut.done
    | exact Touch.refl
    | intro _
    | apply State.post_touch
    | apply State.clockFatal_touch
    | apply Touch.ite
    | split)
  all_goals with_reducible first
    | exact .inr rfl
    | exact Sub.trans (b := execPllRelockTimeoutMask) (by decide +kernel) hm
    | exact Has.sub (a := execPllRelockTimeoutMask) (by decide +kernel) hm
    | exact .inl (Has.sub (a := execPllRelockTimeoutMask) (by decide +kernel) hm)
    | exact Has.at (by decide) (Has.sub (a := execPllRelockTimeoutMask) (by decide +kernel) hm)
    | exact Has.cell (by decide) (Has.sub (a := execPllRelockTimeoutMask) (by decide +kernel) hm)
    | exact Has.cellNext (by decide) (Has.sub (a := execPllRelockTimeoutMask) (by decide +kernel) hm)
    | exact Has.ite (Has.sub (a := execPllRelockTimeoutMask) (by decide +kernel) hm) (Has.sub (a := execPllRelockTimeoutMask) (by decide +kernel) hm)
    | exact .inr (fun _ => rfl)
    | (intro _; rfl)
    | (intro _; simp; done)
    | (simp; assumption)
    | (refine .inr (fun _ => ?_); simp; done)
    | (refine .inr (fun _ => ?_); (repeat' split) <;> first | rfl | (simp; done))
    | (simp; done)

def execRetxoMask : Nat :=
  State.onWriteMask ||| State.clkCmdMask ||| settleMask

theorem execRetxo_touch {msk : Nat} {p : Path} {s : State} (hm : Sub execRetxoMask msk) : TouchOut msk s (execRetxo p s) := by
  unfold execRetxo
  try dsimp only
  repeat' (with_reducible first
    | assumption
    | exact TouchOut.fault
    | apply TouchOut.done
    | exact Touch.refl
    | intro _
    | apply State.onWrite_touch
    | apply State.clkCmd_touch)
  all_goals with_reducible first
    | exact .inr rfl
    | exact Sub.trans (b := execRetxoMask) (by decide +kernel) hm
    | exact Has.sub (a := execRetxoMask) (by decide +kernel) hm
    | exact .inl (Has.sub (a := execRetxoMask) (by decide +kernel) hm)
    | exact Has.at (by decide) (Has.sub (a := execRetxoMask) (by decide +kernel) hm)
    | exact Has.cell (by decide) (Has.sub (a := execRetxoMask) (by decide +kernel) hm)
    | exact Has.cellNext (by decide) (Has.sub (a := execRetxoMask) (by decide +kernel) hm)
    | exact Has.ite (Has.sub (a := execRetxoMask) (by decide +kernel) hm) (Has.sub (a := execRetxoMask) (by decide +kernel) hm)
    | exact .inr (fun _ => rfl)
    | (intro _; rfl)
    | (intro _; simp; done)
    | (simp; assumption)
    | (refine .inr (fun _ => ?_); simp; done)
    | (refine .inr (fun _ => ?_); (repeat' split) <;> first | rfl | (simp; done))
    | (simp; done)

def execKxoFailMask : Nat :=
  State.modClkMask ||| State.clkStickMask ||| State.postOrHoldMask ||| settleMask ||| rbit R.CLK_STAT ||| rbit
    R.TIM_FLG

theorem execKxoFail_touch {msk : Nat} {s : State} (hm : Sub execKxoFailMask msk) : TouchOut msk s (execKxoFail s) := by
  unfold execKxoFail
  try dsimp only
  repeat' (with_reducible first
    | assumption
    | exact TouchOut.fault
    | apply TouchOut.done
    | exact Touch.refl
    | intro _
    | apply State.modClk_touch
    | apply State.clkStick_touch
    | apply State.postOrHold_touch
    | apply State.setFlag_touch
    | apply Touch.ite
    | split)
  all_goals with_reducible first
    | exact .inr rfl
    | exact Sub.trans (b := execKxoFailMask) (by decide +kernel) hm
    | exact Has.sub (a := execKxoFailMask) (by decide +kernel) hm
    | exact .inl (Has.sub (a := execKxoFailMask) (by decide +kernel) hm)
    | exact Has.at (by decide) (Has.sub (a := execKxoFailMask) (by decide +kernel) hm)
    | exact Has.cell (by decide) (Has.sub (a := execKxoFailMask) (by decide +kernel) hm)
    | exact Has.cellNext (by decide) (Has.sub (a := execKxoFailMask) (by decide +kernel) hm)
    | exact Has.ite (Has.sub (a := execKxoFailMask) (by decide +kernel) hm) (Has.sub (a := execKxoFailMask) (by decide +kernel) hm)
    | exact .inr (fun _ => rfl)
    | (intro _; rfl)
    | (intro _; simp; done)
    | (simp; assumption)
    | (refine .inr (fun _ => ?_); simp; done)
    | (refine .inr (fun _ => ?_); (repeat' split) <;> first | rfl | (simp; done))
    | (simp; done)

def execKxoWindowMask : Nat :=
  State.postMask ||| State.modClkMask ||| settleMask ||| rbit R.CLK_STAT ||| rbit R.TIM_FLG

theorem execKxoWindow_touch {msk : Nat} {cnt : Nat} {s : State} (hm : Sub execKxoWindowMask msk) : TouchOut msk s (execKxoWindow cnt s) := by
  unfold execKxoWindow
  try dsimp only
  repeat' (with_reducible first
    | assumption
    | exact TouchOut.fault
    | apply TouchOut.done
    | exact Touch.refl
    | intro _
    | apply State.post_touch
    | apply State.modClk_touch
    | apply State.setFlag_touch
    | apply Touch.ite
    | split)
  all_goals with_reducible first
    | exact .inr rfl
    | exact Sub.trans (b := execKxoWindowMask) (by decide +kernel) hm
    | exact Has.sub (a := execKxoWindowMask) (by decide +kernel) hm
    | exact .inl (Has.sub (a := execKxoWindowMask) (by decide +kernel) hm)
    | exact Has.at (by decide) (Has.sub (a := execKxoWindowMask) (by decide +kernel) hm)
    | exact Has.cell (by decide) (Has.sub (a := execKxoWindowMask) (by decide +kernel) hm)
    | exact Has.cellNext (by decide) (Has.sub (a := execKxoWindowMask) (by decide +kernel) hm)
    | exact Has.ite (Has.sub (a := execKxoWindowMask) (by decide +kernel) hm) (Has.sub (a := execKxoWindowMask) (by decide +kernel) hm)
    | exact .inr (fun _ => rfl)
    | (intro _; rfl)
    | (intro _; simp; done)
    | (simp; assumption)
    | (refine .inr (fun _ => ?_); simp; done)
    | (refine .inr (fun _ => ?_); (repeat' split) <;> first | rfl | (simp; done))
    | (simp; done)

def execSpreadApplyMask : Nat :=
  State.spreadNowMask ||| settleMask

theorem execSpreadApply_touch {msk : Nat} {s : State} (hm : Sub execSpreadApplyMask msk) : TouchOut msk s (execSpreadApply s) := by
  unfold execSpreadApply
  try dsimp only
  repeat' (with_reducible first
    | assumption
    | exact TouchOut.fault
    | apply TouchOut.done
    | exact Touch.refl
    | intro _
    | apply State.spreadNow_touch
    | apply Touch.ite
    | split)
  all_goals with_reducible first
    | exact .inr rfl
    | exact Sub.trans (b := execSpreadApplyMask) (by decide +kernel) hm
    | exact Has.sub (a := execSpreadApplyMask) (by decide +kernel) hm
    | exact .inl (Has.sub (a := execSpreadApplyMask) (by decide +kernel) hm)
    | exact Has.at (by decide) (Has.sub (a := execSpreadApplyMask) (by decide +kernel) hm)
    | exact Has.cell (by decide) (Has.sub (a := execSpreadApplyMask) (by decide +kernel) hm)
    | exact Has.cellNext (by decide) (Has.sub (a := execSpreadApplyMask) (by decide +kernel) hm)
    | exact Has.ite (Has.sub (a := execSpreadApplyMask) (by decide +kernel) hm) (Has.sub (a := execSpreadApplyMask) (by decide +kernel) hm)
    | exact .inr (fun _ => rfl)
    | (intro _; rfl)
    | (intro _; simp; done)
    | (simp; assumption)
    | (refine .inr (fun _ => ?_); simp; done)
    | (refine .inr (fun _ => ?_); (repeat' split) <;> first | rfl | (simp; done))
    | (simp; done)

def execKaTimeLoadMask : Nat :=
  State.postMask ||| State.modTimMask ||| State.modKeepMask ||| State.modPwrMask ||| settleMask ||| rbit R.SYS_BOOT
    ||| rbit R.TIM_STAT ||| rbit R.TIM_FLG ||| Part.gtu.bit

theorem execKaTimeLoad_touch {msk : Nat} {s : State} (hm : Sub execKaTimeLoadMask msk) : TouchOut msk s (execKaTimeLoad s) := by
  unfold execKaTimeLoad
  try dsimp only
  repeat' (with_reducible first
    | assumption
    | exact TouchOut.fault
    | apply TouchOut.done
    | exact Touch.refl
    | intro _
    | apply State.post_touch
    | apply State.modTim_touch
    | apply State.modKeep_touch
    | apply Touch.modGt
    | apply Touch.forGts
    | apply State.modPwr_touch
    | apply State.setFld_touch
    | apply State.setFlag_touch
    | apply Touch.ite
    | split)
  all_goals with_reducible first
    | exact .inr rfl
    | exact Sub.trans (b := execKaTimeLoadMask) (by decide +kernel) hm
    | exact Has.sub (a := execKaTimeLoadMask) (by decide +kernel) hm
    | exact .inl (Has.sub (a := execKaTimeLoadMask) (by decide +kernel) hm)
    | exact Has.at (by decide) (Has.sub (a := execKaTimeLoadMask) (by decide +kernel) hm)
    | exact Has.cell (by decide) (Has.sub (a := execKaTimeLoadMask) (by decide +kernel) hm)
    | exact Has.cellNext (by decide) (Has.sub (a := execKaTimeLoadMask) (by decide +kernel) hm)
    | exact Has.ite (Has.sub (a := execKaTimeLoadMask) (by decide +kernel) hm) (Has.sub (a := execKaTimeLoadMask) (by decide +kernel) hm)
    | exact .inr (fun _ => rfl)
    | (intro _; rfl)
    | (intro _; simp; done)
    | (simp; assumption)
    | (refine .inr (fun _ => ?_); simp; done)
    | (refine .inr (fun _ => ?_); (repeat' split) <;> first | rfl | (simp; done))
    | (simp; done)

def execTimeCountResumeMask : Nat :=
  State.modKeepMask ||| State.handoverMask ||| settleMask ||| rbit R.TIM_FLG

theorem execTimeCountResume_touch {msk : Nat} {s : State} (hm : Sub execTimeCountResumeMask msk) : TouchOut msk s (execTimeCountResume s) := by
  unfold execTimeCountResume
  try dsimp only
  repeat' (with_reducible first
    | assumption
    | exact TouchOut.fault
    | apply TouchOut.done
    | exact Touch.refl
    | intro _
    | apply State.modKeep_touch
    | apply State.handover_touch
    | apply State.setFlag_touch
    | apply Touch.ite
    | split)
  all_goals with_reducible first
    | exact .inr rfl
    | exact Sub.trans (b := execTimeCountResumeMask) (by decide +kernel) hm
    | exact Has.sub (a := execTimeCountResumeMask) (by decide +kernel) hm
    | exact .inl (Has.sub (a := execTimeCountResumeMask) (by decide +kernel) hm)
    | exact Has.at (by decide) (Has.sub (a := execTimeCountResumeMask) (by decide +kernel) hm)
    | exact Has.cell (by decide) (Has.sub (a := execTimeCountResumeMask) (by decide +kernel) hm)
    | exact Has.cellNext (by decide) (Has.sub (a := execTimeCountResumeMask) (by decide +kernel) hm)
    | exact Has.ite (Has.sub (a := execTimeCountResumeMask) (by decide +kernel) hm) (Has.sub (a := execTimeCountResumeMask) (by decide +kernel) hm)
    | exact .inr (fun _ => rfl)
    | (intro _; rfl)
    | (intro _; simp; done)
    | (simp; assumption)
    | (refine .inr (fun _ => ?_); simp; done)
    | (refine .inr (fun _ => ?_); (repeat' split) <;> first | rfl | (simp; done))
    | (simp; done)

def execVauxGoodMask : Nat :=
  State.keepLiveMask ||| State.modPwrMask ||| State.kramCheckMask ||| State.interruptEndMask ||| State.vauxStartMask
    ||| settleMask ||| rbit R.PWR_STAT

theorem execVauxGood_touch {msk : Nat} {strap : Bool} {s : State} (hm : Sub execVauxGoodMask msk) : TouchOut msk s (execVauxGood strap s) := by
  unfold execVauxGood
  try dsimp only
  repeat' (with_reducible first
    | assumption
    | exact TouchOut.fault
    | apply TouchOut.done
    | exact Touch.refl
    | intro _
    | apply State.keepLive_touch
    | apply State.modPwr_touch
    | apply State.kramCheck_touch
    | apply State.interruptEnd_touch
    | apply State.vauxStart_touch
    | apply State.setFlag_touch
    | apply Touch.ite
    | split)
  all_goals with_reducible first
    | exact .inr rfl
    | exact Sub.trans (b := execVauxGoodMask) (by decide +kernel) hm
    | exact Has.sub (a := execVauxGoodMask) (by decide +kernel) hm
    | exact .inl (Has.sub (a := execVauxGoodMask) (by decide +kernel) hm)
    | exact Has.at (by decide) (Has.sub (a := execVauxGoodMask) (by decide +kernel) hm)
    | exact Has.cell (by decide) (Has.sub (a := execVauxGoodMask) (by decide +kernel) hm)
    | exact Has.cellNext (by decide) (Has.sub (a := execVauxGoodMask) (by decide +kernel) hm)
    | exact Has.ite (Has.sub (a := execVauxGoodMask) (by decide +kernel) hm) (Has.sub (a := execVauxGoodMask) (by decide +kernel) hm)
    | exact .inr (fun _ => rfl)
    | (intro _; rfl)
    | (intro _; simp; done)
    | (simp; assumption)
    | (refine .inr (fun _ => ?_); simp; done)
    | (refine .inr (fun _ => ?_); (repeat' split) <;> first | rfl | (simp; done))
    | (simp; done)

def execMainsLossMask : Nat :=
  State.mainsLossMask ||| State.vauxFallMask ||| settleMask

theorem execMainsLoss_touch {msk : Nat} {zcs : Bool} {s : State} (hm : Sub execMainsLossMask msk) : TouchOut msk s (execMainsLoss zcs s) := by
  unfold execMainsLoss
  try dsimp only
  repeat' (with_reducible first
    | assumption
    | exact TouchOut.fault
    | apply TouchOut.done
    | exact Touch.refl
    | intro _
    | apply State.mainsLoss_touch
    | apply State.vauxFall_touch
    | apply Touch.ite
    | split)
  all_goals with_reducible first
    | exact .inr rfl
    | exact Sub.trans (b := execMainsLossMask) (by decide +kernel) hm
    | exact Has.sub (a := execMainsLossMask) (by decide +kernel) hm
    | exact .inl (Has.sub (a := execMainsLossMask) (by decide +kernel) hm)
    | exact Has.at (by decide) (Has.sub (a := execMainsLossMask) (by decide +kernel) hm)
    | exact Has.cell (by decide) (Has.sub (a := execMainsLossMask) (by decide +kernel) hm)
    | exact Has.cellNext (by decide) (Has.sub (a := execMainsLossMask) (by decide +kernel) hm)
    | exact Has.ite (Has.sub (a := execMainsLossMask) (by decide +kernel) hm) (Has.sub (a := execMainsLossMask) (by decide +kernel) hm)
    | exact .inr (fun _ => rfl)
    | (intro _; rfl)
    | (intro _; simp; done)
    | (simp; assumption)
    | (refine .inr (fun _ => ?_); simp; done)
    | (refine .inr (fun _ => ?_); (repeat' split) <;> first | rfl | (simp; done))
    | (simp; done)

def execKeepTimeLoadMask : Nat :=
  State.keepTimeLoadMask ||| settleMask

theorem execKeepTimeLoad_touch {msk : Nat} {s : State} (hm : Sub execKeepTimeLoadMask msk) : TouchOut msk s (execKeepTimeLoad s) := by
  unfold execKeepTimeLoad
  try dsimp only
  repeat' (with_reducible first
    | assumption
    | exact TouchOut.fault
    | apply TouchOut.done
    | exact Touch.refl
    | intro _
    | apply State.keepTimeLoad_touch
    | apply Touch.ite
    | split)
  all_goals with_reducible first
    | exact .inr rfl
    | exact Sub.trans (b := execKeepTimeLoadMask) (by decide +kernel) hm
    | exact Has.sub (a := execKeepTimeLoadMask) (by decide +kernel) hm
    | exact .inl (Has.sub (a := execKeepTimeLoadMask) (by decide +kernel) hm)
    | exact Has.at (by decide) (Has.sub (a := execKeepTimeLoadMask) (by decide +kernel) hm)
    | exact Has.cell (by decide) (Has.sub (a := execKeepTimeLoadMask) (by decide +kernel) hm)
    | exact Has.cellNext (by decide) (Has.sub (a := execKeepTimeLoadMask) (by decide +kernel) hm)
    | exact Has.ite (Has.sub (a := execKeepTimeLoadMask) (by decide +kernel) hm) (Has.sub (a := execKeepTimeLoadMask) (by decide +kernel) hm)
    | exact .inr (fun _ => rfl)
    | (intro _; rfl)
    | (intro _; simp; done)
    | (simp; assumption)
    | (refine .inr (fun _ => ?_); simp; done)
    | (refine .inr (fun _ => ?_); (repeat' split) <;> first | rfl | (simp; done))
    | (simp; done)

def execReservationAnswerMask : Nat :=
  State.reserveAnswerMask ||| settleMask

theorem execReservationAnswer_touch {msk : Nat} {vstore : Word} {s : State} (hm : Sub execReservationAnswerMask msk) : TouchOut msk s (execReservationAnswer vstore s) := by
  unfold execReservationAnswer
  try dsimp only
  repeat' (with_reducible first
    | assumption
    | exact TouchOut.fault
    | apply TouchOut.done
    | exact Touch.refl
    | intro _
    | apply State.reserveAnswer_touch
    | apply Touch.ite
    | split)
  all_goals with_reducible first
    | exact .inr rfl
    | exact Sub.trans (b := execReservationAnswerMask) (by decide +kernel) hm
    | exact Has.sub (a := execReservationAnswerMask) (by decide +kernel) hm
    | exact .inl (Has.sub (a := execReservationAnswerMask) (by decide +kernel) hm)
    | exact Has.at (by decide) (Has.sub (a := execReservationAnswerMask) (by decide +kernel) hm)
    | exact Has.cell (by decide) (Has.sub (a := execReservationAnswerMask) (by decide +kernel) hm)
    | exact Has.cellNext (by decide) (Has.sub (a := execReservationAnswerMask) (by decide +kernel) hm)
    | exact Has.ite (Has.sub (a := execReservationAnswerMask) (by decide +kernel) hm) (Has.sub (a := execReservationAnswerMask) (by decide +kernel) hm)
    | exact .inr (fun _ => rfl)
    | (intro _; rfl)
    | (intro _; simp; done)
    | (simp; assumption)
    | (refine .inr (fun _ => ?_); simp; done)
    | (refine .inr (fun _ => ?_); (repeat' split) <;> first | rfl | (simp; done))
    | (simp; done)

def execKeepEntryMask : Nat :=
  State.keepEnterMask ||| settleMask

theorem execKeepEntry_touch {msk : Nat} {vstore : Word} {s : State} (hm : Sub execKeepEntryMask msk) : TouchOut msk s (execKeepEntry vstore s) := by
  unfold execKeepEntry
  try dsimp only
  repeat' (with_reducible first
    | assumption
    | exact TouchOut.fault
    | apply TouchOut.done
    | exact Touch.refl
    | intro _
    | apply State.keepEnter_touch
    | apply Touch.ite
    | split)
  all_goals with_reducible first
    | exact .inr rfl
    | exact Sub.trans (b := execKeepEntryMask) (by decide +kernel) hm
    | exact Has.sub (a := execKeepEntryMask) (by decide +kernel) hm
    | exact .inl (Has.sub (a := execKeepEntryMask) (by decide +kernel) hm)
    | exact Has.at (by decide) (Has.sub (a := execKeepEntryMask) (by decide +kernel) hm)
    | exact Has.cell (by decide) (Has.sub (a := execKeepEntryMask) (by decide +kernel) hm)
    | exact Has.cellNext (by decide) (Has.sub (a := execKeepEntryMask) (by decide +kernel) hm)
    | exact Has.ite (Has.sub (a := execKeepEntryMask) (by decide +kernel) hm) (Has.sub (a := execKeepEntryMask) (by decide +kernel) hm)
    | exact .inr (fun _ => rfl)
    | (intro _; rfl)
    | (intro _; simp; done)
    | (simp; assumption)
    | (refine .inr (fun _ => ?_); simp; done)
    | (refine .inr (fun _ => ?_); (repeat' split) <;> first | rfl | (simp; done))
    | (simp; done)

def execVdrvUndervoltageMask : Nat :=
  State.postMask ||| State.pwrStickMask ||| State.modPwrMask ||| settleMask ||| rbit R.PWR_STAT ||| Part.pwm.bit

theorem execVdrvUndervoltage_touch {msk : Nat} {level : Byte} {s : State} (hm : Sub execVdrvUndervoltageMask msk) : TouchOut msk s (execVdrvUndervoltage level s) := by
  unfold execVdrvUndervoltage
  try dsimp only
  repeat' (with_reducible first
    | assumption
    | exact TouchOut.fault
    | apply TouchOut.done
    | exact Touch.refl
    | intro _
    | apply State.post_touch
    | apply Touch.modChan
    | apply Touch.forChans
    | apply State.pwrStick_touch
    | apply State.modPwr_touch
    | apply State.setFlag_touch
    | apply Touch.ite
    | split)
  all_goals with_reducible first
    | exact .inr rfl
    | exact Sub.trans (b := execVdrvUndervoltageMask) (by decide +kernel) hm
    | exact Has.sub (a := execVdrvUndervoltageMask) (by decide +kernel) hm
    | exact .inl (Has.sub (a := execVdrvUndervoltageMask) (by decide +kernel) hm)
    | exact Has.at (by decide) (Has.sub (a := execVdrvUndervoltageMask) (by decide +kernel) hm)
    | exact Has.cell (by decide) (Has.sub (a := execVdrvUndervoltageMask) (by decide +kernel) hm)
    | exact Has.cellNext (by decide) (Has.sub (a := execVdrvUndervoltageMask) (by decide +kernel) hm)
    | exact Has.ite (Has.sub (a := execVdrvUndervoltageMask) (by decide +kernel) hm) (Has.sub (a := execVdrvUndervoltageMask) (by decide +kernel) hm)
    | exact .inr (fun _ => rfl)
    | (intro _; rfl)
    | (intro _; simp; done)
    | (simp; assumption)
    | (refine .inr (fun _ => ?_); simp; done)
    | (refine .inr (fun _ => ?_); (repeat' split) <;> first | rfl | (simp; done))
    | (simp; done)

def execVdrvGoodMask : Nat :=
  State.postMask ||| State.tryStartMask ||| State.modPwrMask ||| settleMask ||| rbit R.PWR_STAT ||| Part.pwm.bit

theorem execVdrvGood_touch {msk : Nat} {s : State} (hm : Sub execVdrvGoodMask msk) : TouchOut msk s (execVdrvGood s) := by
  unfold execVdrvGood
  try dsimp only
  repeat' (with_reducible first
    | assumption
    | exact TouchOut.fault
    | apply TouchOut.done
    | exact Touch.refl
    | intro _
    | apply State.post_touch
    | apply Touch.modChan
    | apply Touch.forChans
    | apply State.tryStart_touch
    | apply State.modPwr_touch
    | apply State.setFlag_touch
    | apply Touch.ite
    | split)
  all_goals with_reducible first
    | exact .inr rfl
    | exact Sub.trans (b := execVdrvGoodMask) (by decide +kernel) hm
    | exact Has.sub (a := execVdrvGoodMask) (by decide +kernel) hm
    | exact .inl (Has.sub (a := execVdrvGoodMask) (by decide +kernel) hm)
    | exact Has.at (by decide) (Has.sub (a := execVdrvGoodMask) (by decide +kernel) hm)
    | exact Has.cell (by decide) (Has.sub (a := execVdrvGoodMask) (by decide +kernel) hm)
    | exact Has.cellNext (by decide) (Has.sub (a := execVdrvGoodMask) (by decide +kernel) hm)
    | exact Has.ite (Has.sub (a := execVdrvGoodMask) (by decide +kernel) hm) (Has.sub (a := execVdrvGoodMask) (by decide +kernel) hm)
    | exact .inr (fun _ => rfl)
    | (intro _; rfl)
    | (intro _; simp; done)
    | (simp; assumption)
    | (refine .inr (fun _ => ?_); simp; done)
    | (refine .inr (fun _ => ?_); (repeat' split) <;> first | rfl | (simp; done))
    | (simp; done)

def execAvddOutOfRangeMask : Nat :=
  State.postMask ||| State.pwrStickMask ||| settleMask ||| rbit R.PWR_STAT

theorem execAvddOutOfRange_touch {msk : Nat} {level : Word} {s : State} (hm : Sub execAvddOutOfRangeMask msk) : TouchOut msk s (execAvddOutOfRange level s) := by
  unfold execAvddOutOfRange
  try dsimp only
  repeat' (with_reducible first
    | assumption
    | exact TouchOut.fault
    | apply TouchOut.done
    | exact Touch.refl
    | intro _
    | apply State.post_touch
    | apply State.pwrStick_touch
    | apply State.setFlag_touch
    | apply Touch.ite
    | split)
  all_goals with_reducible first
    | exact .inr rfl
    | exact Sub.trans (b := execAvddOutOfRangeMask) (by decide +kernel) hm
    | exact Has.sub (a := execAvddOutOfRangeMask) (by decide +kernel) hm
    | exact .inl (Has.sub (a := execAvddOutOfRangeMask) (by decide +kernel) hm)
    | exact Has.at (by decide) (Has.sub (a := execAvddOutOfRangeMask) (by decide +kernel) hm)
    | exact Has.cell (by decide) (Has.sub (a := execAvddOutOfRangeMask) (by decide +kernel) hm)
    | exact Has.cellNext (by decide) (Has.sub (a := execAvddOutOfRangeMask) (by decide +kernel) hm)
    | exact Has.ite (Has.sub (a := execAvddOutOfRangeMask) (by decide +kernel) hm) (Has.sub (a := execAvddOutOfRangeMask) (by decide +kernel) hm)
    | exact .inr (fun _ => rfl)
    | (intro _; rfl)
    | (intro _; simp; done)
    | (simp; assumption)
    | (refine .inr (fun _ => ?_); simp; done)
    | (refine .inr (fun _ => ?_); (repeat' split) <;> first | rfl | (simp; done))
    | (simp; done)

def execAvddGoodMask : Nat :=
  settleMask ||| rbit R.PWR_STAT

theorem execAvddGood_touch {msk : Nat} {s : State} (hm : Sub execAvddGoodMask msk) : TouchOut msk s (execAvddGood s) := by
  unfold execAvddGood
  try dsimp only
  repeat' (with_reducible first
    | assumption
    | exact TouchOut.fault
    | apply TouchOut.done
    | exact Touch.refl
    | intro _
    | apply State.setFlag_touch)
  all_goals with_reducible first
    | exact .inr rfl
    | exact Sub.trans (b := execAvddGoodMask) (by decide +kernel) hm
    | exact Has.sub (a := execAvddGoodMask) (by decide +kernel) hm
    | exact .inl (Has.sub (a := execAvddGoodMask) (by decide +kernel) hm)
    | exact Has.at (by decide) (Has.sub (a := execAvddGoodMask) (by decide +kernel) hm)
    | exact Has.cell (by decide) (Has.sub (a := execAvddGoodMask) (by decide +kernel) hm)
    | exact Has.cellNext (by decide) (Has.sub (a := execAvddGoodMask) (by decide +kernel) hm)
    | exact Has.ite (Has.sub (a := execAvddGoodMask) (by decide +kernel) hm) (Has.sub (a := execAvddGoodMask) (by decide +kernel) hm)
    | exact .inr (fun _ => rfl)
    | (intro _; rfl)
    | (intro _; simp; done)
    | (simp; assumption)
    | (refine .inr (fun _ => ?_); simp; done)
    | (refine .inr (fun _ => ?_); (repeat' split) <;> first | rfl | (simp; done))
    | (simp; done)

def execVhioLossMask : Nat :=
  settleMask ||| rbit R.PWR_STAT

theorem execVhioLoss_touch {msk : Nat} {s : State} (hm : Sub execVhioLossMask msk) : TouchOut msk s (execVhioLoss s) := by
  unfold execVhioLoss
  try dsimp only
  repeat' (with_reducible first
    | assumption
    | exact TouchOut.fault
    | apply TouchOut.done
    | exact Touch.refl
    | intro _
    | apply State.setFlag_touch)
  all_goals with_reducible first
    | exact .inr rfl
    | exact Sub.trans (b := execVhioLossMask) (by decide +kernel) hm
    | exact Has.sub (a := execVhioLossMask) (by decide +kernel) hm
    | exact .inl (Has.sub (a := execVhioLossMask) (by decide +kernel) hm)
    | exact Has.at (by decide) (Has.sub (a := execVhioLossMask) (by decide +kernel) hm)
    | exact Has.cell (by decide) (Has.sub (a := execVhioLossMask) (by decide +kernel) hm)
    | exact Has.cellNext (by decide) (Has.sub (a := execVhioLossMask) (by decide +kernel) hm)
    | exact Has.ite (Has.sub (a := execVhioLossMask) (by decide +kernel) hm) (Has.sub (a := execVhioLossMask) (by decide +kernel) hm)
    | exact .inr (fun _ => rfl)
    | (intro _; rfl)
    | (intro _; simp; done)
    | (simp; assumption)
    | (refine .inr (fun _ => ?_); simp; done)
    | (refine .inr (fun _ => ?_); (repeat' split) <;> first | rfl | (simp; done))
    | (simp; done)

def execVhioGoodMask : Nat :=
  settleMask ||| rbit R.PWR_STAT

theorem execVhioGood_touch {msk : Nat} {s : State} (hm : Sub execVhioGoodMask msk) : TouchOut msk s (execVhioGood s) := by
  unfold execVhioGood
  try dsimp only
  repeat' (with_reducible first
    | assumption
    | exact TouchOut.fault
    | apply TouchOut.done
    | exact Touch.refl
    | intro _
    | apply State.setFlag_touch)
  all_goals with_reducible first
    | exact .inr rfl
    | exact Sub.trans (b := execVhioGoodMask) (by decide +kernel) hm
    | exact Has.sub (a := execVhioGoodMask) (by decide +kernel) hm
    | exact .inl (Has.sub (a := execVhioGoodMask) (by decide +kernel) hm)
    | exact Has.at (by decide) (Has.sub (a := execVhioGoodMask) (by decide +kernel) hm)
    | exact Has.cell (by decide) (Has.sub (a := execVhioGoodMask) (by decide +kernel) hm)
    | exact Has.cellNext (by decide) (Has.sub (a := execVhioGoodMask) (by decide +kernel) hm)
    | exact Has.ite (Has.sub (a := execVhioGoodMask) (by decide +kernel) hm) (Has.sub (a := execVhioGoodMask) (by decide +kernel) hm)
    | exact .inr (fun _ => rfl)
    | (intro _; rfl)
    | (intro _; simp; done)
    | (simp; assumption)
    | (refine .inr (fun _ => ?_); simp; done)
    | (refine .inr (fun _ => ?_); (repeat' split) <;> first | rfl | (simp; done))
    | (simp; done)

def execHoldBeginMask : Nat :=
  State.modPwrMask ||| State.holdChangeMask ||| settleMask ||| rbit R.SYS_CTL

theorem execHoldBegin_touch {msk : Nat} {jtag : Bool} {s : State} (hm : Sub execHoldBeginMask msk) : TouchOut msk s (execHoldBegin jtag s) := by
  unfold execHoldBegin
  try dsimp only
  repeat' (with_reducible first
    | assumption
    | exact TouchOut.fault
    | apply TouchOut.done
    | exact Touch.refl
    | intro _
    | apply State.modPwr_touch
    | apply State.holdChange_touch
    | apply State.setFlag_touch
    | apply Touch.ite
    | split)
  all_goals with_reducible first
    | exact .inr rfl
    | exact Sub.trans (b := execHoldBeginMask) (by decide +kernel) hm
    | exact Has.sub (a := execHoldBeginMask) (by decide +kernel) hm
    | exact .inl (Has.sub (a := execHoldBeginMask) (by decide +kernel) hm)
    | exact Has.at (by decide) (Has.sub (a := execHoldBeginMask) (by decide +kernel) hm)
    | exact Has.cell (by decide) (Has.sub (a := execHoldBeginMask) (by decide +kernel) hm)
    | exact Has.cellNext (by decide) (Has.sub (a := execHoldBeginMask) (by decide +kernel) hm)
    | exact Has.ite (Has.sub (a := execHoldBeginMask) (by decide +kernel) hm) (Has.sub (a := execHoldBeginMask) (by decide +kernel) hm)
    | exact .inr (fun _ => rfl)
    | (intro _; rfl)
    | (intro _; simp; done)
    | (simp; assumption)
    | (refine .inr (fun _ => ?_); simp; done)
    | (refine .inr (fun _ => ?_); (repeat' split) <;> first | rfl | (simp; done))
    | (simp; done)

def execHoldEndMask : Nat :=
  State.modPwrMask ||| State.holdChangeMask ||| settleMask ||| rbit R.SYS_CTL

theorem execHoldEnd_touch {msk : Nat} {jtag : Bool} {s : State} (hm : Sub execHoldEndMask msk) : TouchOut msk s (execHoldEnd jtag s) := by
  unfold execHoldEnd
  try dsimp only
  repeat' (with_reducible first
    | assumption
    | exact TouchOut.fault
    | apply TouchOut.done
    | exact Touch.refl
    | intro _
    | apply State.modPwr_touch
    | apply State.holdChange_touch
    | apply State.setFlag_touch
    | apply Touch.ite
    | split)
  all_goals with_reducible first
    | exact .inr rfl
    | exact Sub.trans (b := execHoldEndMask) (by decide +kernel) hm
    | exact Has.sub (a := execHoldEndMask) (by decide +kernel) hm
    | exact .inl (Has.sub (a := execHoldEndMask) (by decide +kernel) hm)
    | exact Has.at (by decide) (Has.sub (a := execHoldEndMask) (by decide +kernel) hm)
    | exact Has.cell (by decide) (Has.sub (a := execHoldEndMask) (by decide +kernel) hm)
    | exact Has.cellNext (by decide) (Has.sub (a := execHoldEndMask) (by decide +kernel) hm)
    | exact Has.ite (Has.sub (a := execHoldEndMask) (by decide +kernel) hm) (Has.sub (a := execHoldEndMask) (by decide +kernel) hm)
    | exact .inr (fun _ => rfl)
    | (intro _; rfl)
    | (intro _; simp; done)
    | (simp; assumption)
    | (refine .inr (fun _ => ?_); simp; done)
    | (refine .inr (fun _ => ?_); (repeat' split) <;> first | rfl | (simp; done))
    | (simp; done)

def execGoMask : Nat :=
  State.onWriteMask ||| State.sysCtlMask ||| settleMask

theorem execGo_touch {msk : Nat} {p : Path} {v : Word} {s : State} (hm : Sub execGoMask msk) : TouchOut msk s (execGo p v s) := by
  unfold execGo
  try dsimp only
  repeat' (with_reducible first
    | assumption
    | exact TouchOut.fault
    | apply TouchOut.done
    | exact Touch.refl
    | intro _
    | apply State.onWrite_touch
    | apply State.sysCtl_touch)
  all_goals with_reducible first
    | exact .inr rfl
    | exact Sub.trans (b := execGoMask) (by decide +kernel) hm
    | exact Has.sub (a := execGoMask) (by decide +kernel) hm
    | exact .inl (Has.sub (a := execGoMask) (by decide +kernel) hm)
    | exact Has.at (by decide) (Has.sub (a := execGoMask) (by decide +kernel) hm)
    | exact Has.cell (by decide) (Has.sub (a := execGoMask) (by decide +kernel) hm)
    | exact Has.cellNext (by decide) (Has.sub (a := execGoMask) (by decide +kernel) hm)
    | exact Has.ite (Has.sub (a := execGoMask) (by decide +kernel) hm) (Has.sub (a := execGoMask) (by decide +kernel) hm)
    | exact .inr (fun _ => rfl)
    | (intro _; rfl)
    | (intro _; simp; done)
    | (simp; assumption)
    | (refine .inr (fun _ => ?_); simp; done)
    | (refine .inr (fun _ => ?_); (repeat' split) <;> first | rfl | (simp; done))
    | (simp; done)

def execSoftResetMask : Nat :=
  State.onWriteMask ||| State.sysCtlMask ||| settleMask

theorem execSoftReset_touch {msk : Nat} {p : Path} {v : Word} {s : State} (hm : Sub execSoftResetMask msk) : TouchOut msk s (execSoftReset p v s) := by
  unfold execSoftReset
  try dsimp only
  repeat' (with_reducible first
    | assumption
    | exact TouchOut.fault
    | apply TouchOut.done
    | exact Touch.refl
    | intro _
    | apply State.onWrite_touch
    | apply State.sysCtl_touch)
  all_goals with_reducible first
    | exact .inr rfl
    | exact Sub.trans (b := execSoftResetMask) (by decide +kernel) hm
    | exact Has.sub (a := execSoftResetMask) (by decide +kernel) hm
    | exact .inl (Has.sub (a := execSoftResetMask) (by decide +kernel) hm)
    | exact Has.at (by decide) (Has.sub (a := execSoftResetMask) (by decide +kernel) hm)
    | exact Has.cell (by decide) (Has.sub (a := execSoftResetMask) (by decide +kernel) hm)
    | exact Has.cellNext (by decide) (Has.sub (a := execSoftResetMask) (by decide +kernel) hm)
    | exact Has.ite (Has.sub (a := execSoftResetMask) (by decide +kernel) hm) (Has.sub (a := execSoftResetMask) (by decide +kernel) hm)
    | exact .inr (fun _ => rfl)
    | (intro _; rfl)
    | (intro _; simp; done)
    | (simp; assumption)
    | (refine .inr (fun _ => ?_); simp; done)
    | (refine .inr (fun _ => ?_); (repeat' split) <;> first | rfl | (simp; done))
    | (simp; done)

def execHwdKickMask : Nat :=
  State.onWriteMask ||| State.hwdKickMask ||| settleMask

theorem execHwdKick_touch {msk : Nat} {p : Path} {v : Word} {s : State} (hm : Sub execHwdKickMask msk) : TouchOut msk s (execHwdKick p v s) := by
  unfold execHwdKick
  try dsimp only
  repeat' (with_reducible first
    | assumption
    | exact TouchOut.fault
    | apply TouchOut.done
    | exact Touch.refl
    | intro _
    | apply State.onWrite_touch
    | apply State.hwdKick_touch
    | apply Touch.ite
    | split)
  all_goals with_reducible first
    | exact .inr rfl
    | exact Sub.trans (b := execHwdKickMask) (by decide +kernel) hm
    | exact Has.sub (a := execHwdKickMask) (by decide +kernel) hm
    | exact .inl (Has.sub (a := execHwdKickMask) (by decide +kernel) hm)
    | exact Has.at (by decide) (Has.sub (a := execHwdKickMask) (by decide +kernel) hm)
    | exact Has.cell (by decide) (Has.sub (a := execHwdKickMask) (by decide +kernel) hm)
    | exact Has.cellNext (by decide) (Has.sub (a := execHwdKickMask) (by decide +kernel) hm)
    | exact Has.ite (Has.sub (a := execHwdKickMask) (by decide +kernel) hm) (Has.sub (a := execHwdKickMask) (by decide +kernel) hm)
    | exact .inr (fun _ => rfl)
    | (intro _; rfl)
    | (intro _; simp; done)
    | (simp; assumption)
    | (refine .inr (fun _ => ?_); simp; done)
    | (refine .inr (fun _ => ?_); (repeat' split) <;> first | rfl | (simp; done))
    | (simp; done)

def execHwdExpiryMask : Nat :=
  State.postMask ||| State.failoverMask ||| settleMask

theorem execHwdExpiry_touch {msk : Nat} {s : State} (hm : Sub execHwdExpiryMask msk) : TouchOut msk s (execHwdExpiry s) := by
  unfold execHwdExpiry
  try dsimp only
  repeat' (with_reducible first
    | assumption
    | exact TouchOut.fault
    | apply TouchOut.done
    | exact Touch.refl
    | intro _
    | apply State.post_touch
    | apply State.failover_touch
    | apply Touch.ite
    | split)
  all_goals with_reducible first
    | exact .inr rfl
    | exact Sub.trans (b := execHwdExpiryMask) (by decide +kernel) hm
    | exact Has.sub (a := execHwdExpiryMask) (by decide +kernel) hm
    | exact .inl (Has.sub (a := execHwdExpiryMask) (by decide +kernel) hm)
    | exact Has.at (by decide) (Has.sub (a := execHwdExpiryMask) (by decide +kernel) hm)
    | exact Has.cell (by decide) (Has.sub (a := execHwdExpiryMask) (by decide +kernel) hm)
    | exact Has.cellNext (by decide) (Has.sub (a := execHwdExpiryMask) (by decide +kernel) hm)
    | exact Has.ite (Has.sub (a := execHwdExpiryMask) (by decide +kernel) hm) (Has.sub (a := execHwdExpiryMask) (by decide +kernel) hm)
    | exact .inr (fun _ => rfl)
    | (intro _; rfl)
    | (intro _; simp; done)
    | (simp; assumption)
    | (refine .inr (fun _ => ?_); simp; done)
    | (refine .inr (fun _ => ?_); (repeat' split) <;> first | rfl | (simp; done))
    | (simp; done)

def execHwdBootTimeoutMask : Nat :=
  State.postMask ||| State.modPwrMask ||| State.failoverMask ||| settleMask ||| rbit R.SYS_BOOT

theorem execHwdBootTimeout_touch {msk : Nat} {s : State} (hm : Sub execHwdBootTimeoutMask msk) : TouchOut msk s (execHwdBootTimeout s) := by
  unfold execHwdBootTimeout
  try dsimp only
  repeat' (with_reducible first
    | assumption
    | exact TouchOut.fault
    | apply TouchOut.done
    | exact Touch.refl
    | intro _
    | apply State.post_touch
    | apply State.modPwr_touch
    | apply State.failover_touch
    | apply State.setFlag_touch
    | apply Touch.ite
    | split)
  all_goals with_reducible first
    | exact .inr rfl
    | exact Sub.trans (b := execHwdBootTimeoutMask) (by decide +kernel) hm
    | exact Has.sub (a := execHwdBootTimeoutMask) (by decide +kernel) hm
    | exact .inl (Has.sub (a := execHwdBootTimeoutMask) (by decide +kernel) hm)
    | exact Has.at (by decide) (Has.sub (a := execHwdBootTimeoutMask) (by decide +kernel) hm)
    | exact Has.cell (by decide) (Has.sub (a := execHwdBootTimeoutMask) (by decide +kernel) hm)
    | exact Has.cellNext (by decide) (Has.sub (a := execHwdBootTimeoutMask) (by decide +kernel) hm)
    | exact Has.ite (Has.sub (a := execHwdBootTimeoutMask) (by decide +kernel) hm) (Has.sub (a := execHwdBootTimeoutMask) (by decide +kernel) hm)
    | exact .inr (fun _ => rfl)
    | (intro _; rfl)
    | (intro _; simp; done)
    | (simp; assumption)
    | (refine .inr (fun _ => ?_); simp; done)
    | (refine .inr (fun _ => ?_); (repeat' split) <;> first | rfl | (simp; done))
    | (simp; done)

def execJtagExtestMask : Nat :=
  State.modPwrMask ||| settleMask

theorem execJtagExtest_touch {msk : Nat} {active : Bool} {s : State} (hm : Sub execJtagExtestMask msk) : TouchOut msk s (execJtagExtest active s) := by
  unfold execJtagExtest
  try dsimp only
  repeat' (with_reducible first
    | assumption
    | exact TouchOut.fault
    | apply TouchOut.done
    | exact Touch.refl
    | intro _
    | apply State.modPwr_touch
    | apply Touch.ite
    | split)
  all_goals with_reducible first
    | exact .inr rfl
    | exact Sub.trans (b := execJtagExtestMask) (by decide +kernel) hm
    | exact Has.sub (a := execJtagExtestMask) (by decide +kernel) hm
    | exact .inl (Has.sub (a := execJtagExtestMask) (by decide +kernel) hm)
    | exact Has.at (by decide) (Has.sub (a := execJtagExtestMask) (by decide +kernel) hm)
    | exact Has.cell (by decide) (Has.sub (a := execJtagExtestMask) (by decide +kernel) hm)
    | exact Has.cellNext (by decide) (Has.sub (a := execJtagExtestMask) (by decide +kernel) hm)
    | exact Has.ite (Has.sub (a := execJtagExtestMask) (by decide +kernel) hm) (Has.sub (a := execJtagExtestMask) (by decide +kernel) hm)
    | exact .inr (fun _ => rfl)
    | (intro _; rfl)
    | (intro _; simp; done)
    | (simp; assumption)
    | (refine .inr (fun _ => ?_); simp; done)
    | (refine .inr (fun _ => ?_); (repeat' split) <;> first | rfl | (simp; done))
    | (simp; done)

def execKeepSenseMask : Nat :=
  State.modKeepMask ||| State.keepLiveMask ||| settleMask ||| rbit R.KEEP_VSTORE

theorem execKeepSense_touch {msk : Nat} {temp : Word} {vstore : Word} {s : State} (hm : Sub execKeepSenseMask msk) : TouchOut msk s (execKeepSense temp vstore s) := by
  unfold execKeepSense
  try dsimp only
  repeat' (with_reducible first
    | assumption
    | exact TouchOut.fault
    | apply TouchOut.done
    | exact Touch.refl
    | intro _
    | apply Touch.setReg
    | apply State.modKeep_touch
    | apply State.keepLive_touch
    | apply Touch.ite
    | apply Touch.setReg
    | split)
  all_goals with_reducible first
    | exact .inr rfl
    | exact Sub.trans (b := execKeepSenseMask) (by decide +kernel) hm
    | exact Has.sub (a := execKeepSenseMask) (by decide +kernel) hm
    | exact .inl (Has.sub (a := execKeepSenseMask) (by decide +kernel) hm)
    | exact Has.at (by decide) (Has.sub (a := execKeepSenseMask) (by decide +kernel) hm)
    | exact Has.cell (by decide) (Has.sub (a := execKeepSenseMask) (by decide +kernel) hm)
    | exact Has.cellNext (by decide) (Has.sub (a := execKeepSenseMask) (by decide +kernel) hm)
    | exact Has.ite (Has.sub (a := execKeepSenseMask) (by decide +kernel) hm) (Has.sub (a := execKeepSenseMask) (by decide +kernel) hm)
    | exact .inr (fun _ => rfl)
    | (intro _; rfl)
    | (intro _; simp; done)
    | (simp; assumption)
    | (refine .inr (fun _ => ?_); simp; done)
    | (refine .inr (fun _ => ?_); (repeat' split) <;> first | rfl | (simp; done))
    | (simp; done)

def execCellSelectMask : Nat :=
  State.cellNeededMask ||| settleMask

theorem execCellSelect_touch {msk : Nat} {vstore : Word} {vcell : Word} {s : State} (hm : Sub execCellSelectMask msk) : TouchOut msk s (execCellSelect vstore vcell s) := by
  unfold execCellSelect
  try dsimp only
  repeat' (with_reducible first
    | assumption
    | exact TouchOut.fault
    | apply TouchOut.done
    | exact Touch.refl
    | intro _
    | apply State.cellNeeded_touch
    | apply Touch.ite
    | split)
  all_goals with_reducible first
    | exact .inr rfl
    | exact Sub.trans (b := execCellSelectMask) (by decide +kernel) hm
    | exact Has.sub (a := execCellSelectMask) (by decide +kernel) hm
    | exact .inl (Has.sub (a := execCellSelectMask) (by decide +kernel) hm)
    | exact Has.at (by decide) (Has.sub (a := execCellSelectMask) (by decide +kernel) hm)
    | exact Has.cell (by decide) (Has.sub (a := execCellSelectMask) (by decide +kernel) hm)
    | exact Has.cellNext (by decide) (Has.sub (a := execCellSelectMask) (by decide +kernel) hm)
    | exact Has.ite (Has.sub (a := execCellSelectMask) (by decide +kernel) hm) (Has.sub (a := execCellSelectMask) (by decide +kernel) hm)
    | exact .inr (fun _ => rfl)
    | (intro _; rfl)
    | (intro _; simp; done)
    | (simp; assumption)
    | (refine .inr (fun _ => ?_); simp; done)
    | (refine .inr (fun _ => ?_); (repeat' split) <;> first | rfl | (simp; done))
    | (simp; done)

def execCellReleaseMask : Nat :=
  State.modKeepMask ||| State.keepLiveMask ||| State.postOrHoldMask ||| settleMask ||| rbit R.KEEP_VSTORE

theorem execCellRelease_touch {msk : Nat} {vstore : Word} {s : State} (hm : Sub execCellReleaseMask msk) : TouchOut msk s (execCellRelease vstore s) := by
  unfold execCellRelease
  try dsimp only
  repeat' (with_reducible first
    | assumption
    | exact TouchOut.fault
    | apply TouchOut.done
    | exact Touch.refl
    | intro _
    | apply Touch.setReg
    | apply State.modKeep_touch
    | apply State.keepLive_touch
    | apply State.postOrHold_touch
    | apply Touch.ite
    | apply Touch.setReg
    | split)
  all_goals with_reducible first
    | exact .inr rfl
    | exact Sub.trans (b := execCellReleaseMask) (by decide +kernel) hm
    | exact Has.sub (a := execCellReleaseMask) (by decide +kernel) hm
    | exact .inl (Has.sub (a := execCellReleaseMask) (by decide +kernel) hm)
    | exact Has.at (by decide) (Has.sub (a := execCellReleaseMask) (by decide +kernel) hm)
    | exact Has.cell (by decide) (Has.sub (a := execCellReleaseMask) (by decide +kernel) hm)
    | exact Has.cellNext (by decide) (Has.sub (a := execCellReleaseMask) (by decide +kernel) hm)
    | exact Has.ite (Has.sub (a := execCellReleaseMask) (by decide +kernel) hm) (Has.sub (a := execCellReleaseMask) (by decide +kernel) hm)
    | exact .inr (fun _ => rfl)
    | (intro _; rfl)
    | (intro _; simp; done)
    | (simp; assumption)
    | (refine .inr (fun _ => ?_); simp; done)
    | (refine .inr (fun _ => ?_); (repeat' split) <;> first | rfl | (simp; done))
    | (simp; done)

def execStoreFullMask : Nat :=
  State.keepLiveMask ||| settleMask ||| rbit R.KEEP_STAT ||| rbit R.KEEP_VSTORE

theorem execStoreFull_touch {msk : Nat} {vstore : Word} {s : State} (hm : Sub execStoreFullMask msk) : TouchOut msk s (execStoreFull vstore s) := by
  unfold execStoreFull
  try dsimp only
  repeat' (with_reducible first
    | assumption
    | exact TouchOut.fault
    | apply TouchOut.done
    | exact Touch.refl
    | intro _
    | apply Touch.setReg
    | apply State.keepLive_touch
    | apply State.setFlag_touch
    | apply Touch.ite
    | apply Touch.setReg
    | split)
  all_goals with_reducible first
    | exact .inr rfl
    | exact Sub.trans (b := execStoreFullMask) (by decide +kernel) hm
    | exact Has.sub (a := execStoreFullMask) (by decide +kernel) hm
    | exact .inl (Has.sub (a := execStoreFullMask) (by decide +kernel) hm)
    | exact Has.at (by decide) (Has.sub (a := execStoreFullMask) (by decide +kernel) hm)
    | exact Has.cell (by decide) (Has.sub (a := execStoreFullMask) (by decide +kernel) hm)
    | exact Has.cellNext (by decide) (Has.sub (a := execStoreFullMask) (by decide +kernel) hm)
    | exact Has.ite (Has.sub (a := execStoreFullMask) (by decide +kernel) hm) (Has.sub (a := execStoreFullMask) (by decide +kernel) hm)
    | exact .inr (fun _ => rfl)
    | (intro _; rfl)
    | (intro _; simp; done)
    | (simp; assumption)
    | (refine .inr (fun _ => ?_); simp; done)
    | (refine .inr (fun _ => ?_); (repeat' split) <;> first | rfl | (simp; done))
    | (simp; done)

def execStoreChargeResumeMask : Nat :=
  State.keepLiveMask ||| settleMask ||| rbit R.KEEP_STAT ||| rbit R.KEEP_VSTORE

theorem execStoreChargeResume_touch {msk : Nat} {vstore : Word} {s : State} (hm : Sub execStoreChargeResumeMask msk) : TouchOut msk s (execStoreChargeResume vstore s) := by
  unfold execStoreChargeResume
  try dsimp only
  repeat' (with_reducible first
    | assumption
    | exact TouchOut.fault
    | apply TouchOut.done
    | exact Touch.refl
    | intro _
    | apply Touch.setReg
    | apply State.keepLive_touch
    | apply State.setFlag_touch
    | apply Touch.ite
    | apply Touch.setReg
    | split)
  all_goals with_reducible first
    | exact .inr rfl
    | exact Sub.trans (b := execStoreChargeResumeMask) (by decide +kernel) hm
    | exact Has.sub (a := execStoreChargeResumeMask) (by decide +kernel) hm
    | exact .inl (Has.sub (a := execStoreChargeResumeMask) (by decide +kernel) hm)
    | exact Has.at (by decide) (Has.sub (a := execStoreChargeResumeMask) (by decide +kernel) hm)
    | exact Has.cell (by decide) (Has.sub (a := execStoreChargeResumeMask) (by decide +kernel) hm)
    | exact Has.cellNext (by decide) (Has.sub (a := execStoreChargeResumeMask) (by decide +kernel) hm)
    | exact Has.ite (Has.sub (a := execStoreChargeResumeMask) (by decide +kernel) hm) (Has.sub (a := execStoreChargeResumeMask) (by decide +kernel) hm)
    | exact .inr (fun _ => rfl)
    | (intro _; rfl)
    | (intro _; simp; done)
    | (simp; assumption)
    | (refine .inr (fun _ => ?_); simp; done)
    | (refine .inr (fun _ => ?_); (repeat' split) <;> first | rfl | (simp; done))
    | (simp; done)

def execMppUpdateMask : Nat :=
  State.mppReadMask ||| settleMask

theorem execMppUpdate_touch {msk : Nat} {ratio : Word} {s : State} (hm : Sub execMppUpdateMask msk) : TouchOut msk s (execMppUpdate ratio s) := by
  unfold execMppUpdate
  try dsimp only
  repeat' (with_reducible first
    | assumption
    | exact TouchOut.fault
    | apply TouchOut.done
    | exact Touch.refl
    | intro _
    | apply State.mppRead_touch
    | apply Touch.ite
    | split)
  all_goals with_reducible first
    | exact .inr rfl
    | exact Sub.trans (b := execMppUpdateMask) (by decide +kernel) hm
    | exact Has.sub (a := execMppUpdateMask) (by decide +kernel) hm
    | exact .inl (Has.sub (a := execMppUpdateMask) (by decide +kernel) hm)
    | exact Has.at (by decide) (Has.sub (a := execMppUpdateMask) (by decide +kernel) hm)
    | exact Has.cell (by decide) (Has.sub (a := execMppUpdateMask) (by decide +kernel) hm)
    | exact Has.cellNext (by decide) (Has.sub (a := execMppUpdateMask) (by decide +kernel) hm)
    | exact Has.ite (Has.sub (a := execMppUpdateMask) (by decide +kernel) hm) (Has.sub (a := execMppUpdateMask) (by decide +kernel) hm)
    | exact .inr (fun _ => rfl)
    | (intro _; rfl)
    | (intro _; simp; done)
    | (simp; assumption)
    | (refine .inr (fun _ => ?_); simp; done)
    | (refine .inr (fun _ => ?_); (repeat' split) <;> first | rfl | (simp; done))
    | (simp; done)

def execGaugeSecondMask : Nat :=
  State.gaugeTickMask ||| settleMask

theorem execGaugeSecond_touch {msk : Nat} {cls : Fin 16} {uj : Nat} {s : State} (hm : Sub execGaugeSecondMask msk) : TouchOut msk s (execGaugeSecond cls uj s) := by
  unfold execGaugeSecond
  try dsimp only
  repeat' (with_reducible first
    | assumption
    | exact TouchOut.fault
    | apply TouchOut.done
    | exact Touch.refl
    | intro _
    | apply State.gaugeTick_touch)
  all_goals with_reducible first
    | exact .inr rfl
    | exact Sub.trans (b := execGaugeSecondMask) (by decide +kernel) hm
    | exact Has.sub (a := execGaugeSecondMask) (by decide +kernel) hm
    | exact .inl (Has.sub (a := execGaugeSecondMask) (by decide +kernel) hm)
    | exact Has.at (by decide) (Has.sub (a := execGaugeSecondMask) (by decide +kernel) hm)
    | exact Has.cell (by decide) (Has.sub (a := execGaugeSecondMask) (by decide +kernel) hm)
    | exact Has.cellNext (by decide) (Has.sub (a := execGaugeSecondMask) (by decide +kernel) hm)
    | exact Has.ite (Has.sub (a := execGaugeSecondMask) (by decide +kernel) hm) (Has.sub (a := execGaugeSecondMask) (by decide +kernel) hm)
    | exact .inr (fun _ => rfl)
    | (intro _; rfl)
    | (intro _; simp; done)
    | (simp; assumption)
    | (refine .inr (fun _ => ?_); simp; done)
    | (refine .inr (fun _ => ?_); (repeat' split) <;> first | rfl | (simp; done))
    | (simp; done)

def execHourTickMask : Nat :=
  State.hatIncMask ||| State.modKeepMask ||| settleMask

theorem execHourTick_touch {msk : Nat} {s : State} (hm : Sub execHourTickMask msk) : TouchOut msk s (execHourTick s) := by
  unfold execHourTick
  try dsimp only
  repeat' (with_reducible first
    | assumption
    | exact TouchOut.fault
    | apply TouchOut.done
    | exact Touch.refl
    | intro _
    | apply State.hatInc_touch
    | apply State.modKeep_touch
    | apply Touch.ite
    | split)
  all_goals with_reducible first
    | exact .inr rfl
    | exact Sub.trans (b := execHourTickMask) (by decide +kernel) hm
    | exact Has.sub (a := execHourTickMask) (by decide +kernel) hm
    | exact .inl (Has.sub (a := execHourTickMask) (by decide +kernel) hm)
    | exact Has.at (by decide) (Has.sub (a := execHourTickMask) (by decide +kernel) hm)
    | exact Has.cell (by decide) (Has.sub (a := execHourTickMask) (by decide +kernel) hm)
    | exact Has.cellNext (by decide) (Has.sub (a := execHourTickMask) (by decide +kernel) hm)
    | exact Has.ite (Has.sub (a := execHourTickMask) (by decide +kernel) hm) (Has.sub (a := execHourTickMask) (by decide +kernel) hm)
    | exact .inr (fun _ => rfl)
    | (intro _; rfl)
    | (intro _; simp; done)
    | (simp; assumption)
    | (refine .inr (fun _ => ?_); simp; done)
    | (refine .inr (fun _ => ?_); (repeat' split) <;> first | rfl | (simp; done))
    | (simp; done)

def execLitHourMask : Nat :=
  State.hatIncMask ||| State.modKeepMask ||| settleMask

theorem execLitHour_touch {msk : Nat} {s : State} (hm : Sub execLitHourMask msk) : TouchOut msk s (execLitHour s) := by
  unfold execLitHour
  try dsimp only
  repeat' (with_reducible first
    | assumption
    | exact TouchOut.fault
    | apply TouchOut.done
    | exact Touch.refl
    | intro _
    | apply State.hatInc_touch
    | apply State.modKeep_touch
    | apply Touch.ite
    | split)
  all_goals with_reducible first
    | exact .inr rfl
    | exact Sub.trans (b := execLitHourMask) (by decide +kernel) hm
    | exact Has.sub (a := execLitHourMask) (by decide +kernel) hm
    | exact .inl (Has.sub (a := execLitHourMask) (by decide +kernel) hm)
    | exact Has.at (by decide) (Has.sub (a := execLitHourMask) (by decide +kernel) hm)
    | exact Has.cell (by decide) (Has.sub (a := execLitHourMask) (by decide +kernel) hm)
    | exact Has.cellNext (by decide) (Has.sub (a := execLitHourMask) (by decide +kernel) hm)
    | exact Has.ite (Has.sub (a := execLitHourMask) (by decide +kernel) hm) (Has.sub (a := execLitHourMask) (by decide +kernel) hm)
    | exact .inr (fun _ => rfl)
    | (intro _; rfl)
    | (intro _; simp; done)
    | (simp; assumption)
    | (refine .inr (fun _ => ?_); simp; done)
    | (refine .inr (fun _ => ?_); (repeat' split) <;> first | rfl | (simp; done))
    | (simp; done)

def execGestureCompleteMask : Nat :=
  State.hatIncMask ||| State.modKeepMask ||| State.gestureActMask ||| settleMask

theorem execGestureComplete_touch {msk : Nat} {s : State} (hm : Sub execGestureCompleteMask msk) : TouchOut msk s (execGestureComplete s) := by
  unfold execGestureComplete
  try dsimp only
  repeat' (with_reducible first
    | assumption
    | exact TouchOut.fault
    | apply TouchOut.done
    | exact Touch.refl
    | intro _
    | apply State.hatInc_touch
    | apply State.modKeep_touch
    | apply State.gestureAct_touch
    | apply Touch.ite
    | split)
  all_goals with_reducible first
    | exact .inr rfl
    | exact Sub.trans (b := execGestureCompleteMask) (by decide +kernel) hm
    | exact Has.sub (a := execGestureCompleteMask) (by decide +kernel) hm
    | exact .inl (Has.sub (a := execGestureCompleteMask) (by decide +kernel) hm)
    | exact Has.at (by decide) (Has.sub (a := execGestureCompleteMask) (by decide +kernel) hm)
    | exact Has.cell (by decide) (Has.sub (a := execGestureCompleteMask) (by decide +kernel) hm)
    | exact Has.cellNext (by decide) (Has.sub (a := execGestureCompleteMask) (by decide +kernel) hm)
    | exact Has.ite (Has.sub (a := execGestureCompleteMask) (by decide +kernel) hm) (Has.sub (a := execGestureCompleteMask) (by decide +kernel) hm)
    | exact .inr (fun _ => rfl)
    | (intro _; rfl)
    | (intro _; simp; done)
    | (simp; assumption)
    | (refine .inr (fun _ => ?_); simp; done)
    | (refine .inr (fun _ => ?_); (repeat' split) <;> first | rfl | (simp; done))
    | (simp; done)

def execLmpTabSaveMask : Nat :=
  State.onWriteMask ||| State.lmpSaveMask ||| settleMask

theorem execLmpTabSave_touch {msk : Nat} {p : Path} {s : State} (hm : Sub execLmpTabSaveMask msk) : TouchOut msk s (execLmpTabSave p s) := by
  unfold execLmpTabSave
  try dsimp only
  repeat' (with_reducible first
    | assumption
    | exact TouchOut.fault
    | apply TouchOut.done
    | exact Touch.refl
    | intro _
    | apply State.onWrite_touch
    | apply State.lmpSave_touch
    | apply Touch.ite
    | split)
  all_goals with_reducible first
    | exact .inr rfl
    | exact Sub.trans (b := execLmpTabSaveMask) (by decide +kernel) hm
    | exact Has.sub (a := execLmpTabSaveMask) (by decide +kernel) hm
    | exact .inl (Has.sub (a := execLmpTabSaveMask) (by decide +kernel) hm)
    | exact Has.at (by decide) (Has.sub (a := execLmpTabSaveMask) (by decide +kernel) hm)
    | exact Has.cell (by decide) (Has.sub (a := execLmpTabSaveMask) (by decide +kernel) hm)
    | exact Has.cellNext (by decide) (Has.sub (a := execLmpTabSaveMask) (by decide +kernel) hm)
    | exact Has.ite (Has.sub (a := execLmpTabSaveMask) (by decide +kernel) hm) (Has.sub (a := execLmpTabSaveMask) (by decide +kernel) hm)
    | exact .inr (fun _ => rfl)
    | (intro _; rfl)
    | (intro _; simp; done)
    | (simp; assumption)
    | (refine .inr (fun _ => ?_); simp; done)
    | (refine .inr (fun _ => ?_); (repeat' split) <;> first | rfl | (simp; done))
    | (simp; done)

def execFdeTabSaveMask : Nat :=
  State.onWriteMask ||| State.fdeSaveMask ||| settleMask

theorem execFdeTabSave_touch {msk : Nat} {p : Path} {s : State} (hm : Sub execFdeTabSaveMask msk) : TouchOut msk s (execFdeTabSave p s) := by
  unfold execFdeTabSave
  try dsimp only
  repeat' (with_reducible first
    | assumption
    | exact TouchOut.fault
    | apply TouchOut.done
    | exact Touch.refl
    | intro _
    | apply State.onWrite_touch
    | apply State.fdeSave_touch
    | apply Touch.ite
    | split)
  all_goals with_reducible first
    | exact .inr rfl
    | exact Sub.trans (b := execFdeTabSaveMask) (by decide +kernel) hm
    | exact Has.sub (a := execFdeTabSaveMask) (by decide +kernel) hm
    | exact .inl (Has.sub (a := execFdeTabSaveMask) (by decide +kernel) hm)
    | exact Has.at (by decide) (Has.sub (a := execFdeTabSaveMask) (by decide +kernel) hm)
    | exact Has.cell (by decide) (Has.sub (a := execFdeTabSaveMask) (by decide +kernel) hm)
    | exact Has.cellNext (by decide) (Has.sub (a := execFdeTabSaveMask) (by decide +kernel) hm)
    | exact Has.ite (Has.sub (a := execFdeTabSaveMask) (by decide +kernel) hm) (Has.sub (a := execFdeTabSaveMask) (by decide +kernel) hm)
    | exact .inr (fun _ => rfl)
    | (intro _; rfl)
    | (intro _; simp; done)
    | (simp; assumption)
    | (refine .inr (fun _ => ?_); simp; done)
    | (refine .inr (fun _ => ?_); (repeat' split) <;> first | rfl | (simp; done))
    | (simp; done)

def execHltTabSaveMask : Nat :=
  State.onWriteMask ||| State.hltSaveMask ||| settleMask

theorem execHltTabSave_touch {msk : Nat} {p : Path} {s : State} (hm : Sub execHltTabSaveMask msk) : TouchOut msk s (execHltTabSave p s) := by
  unfold execHltTabSave
  try dsimp only
  repeat' (with_reducible first
    | assumption
    | exact TouchOut.fault
    | apply TouchOut.done
    | exact Touch.refl
    | intro _
    | apply State.onWrite_touch
    | apply State.hltSave_touch
    | apply Touch.ite
    | split)
  all_goals with_reducible first
    | exact .inr rfl
    | exact Sub.trans (b := execHltTabSaveMask) (by decide +kernel) hm
    | exact Has.sub (a := execHltTabSaveMask) (by decide +kernel) hm
    | exact .inl (Has.sub (a := execHltTabSaveMask) (by decide +kernel) hm)
    | exact Has.at (by decide) (Has.sub (a := execHltTabSaveMask) (by decide +kernel) hm)
    | exact Has.cell (by decide) (Has.sub (a := execHltTabSaveMask) (by decide +kernel) hm)
    | exact Has.cellNext (by decide) (Has.sub (a := execHltTabSaveMask) (by decide +kernel) hm)
    | exact Has.ite (Has.sub (a := execHltTabSaveMask) (by decide +kernel) hm) (Has.sub (a := execHltTabSaveMask) (by decide +kernel) hm)
    | exact .inr (fun _ => rfl)
    | (intro _; rfl)
    | (intro _; simp; done)
    | (simp; assumption)
    | (refine .inr (fun _ => ?_); simp; done)
    | (refine .inr (fun _ => ?_); (repeat' split) <;> first | rfl | (simp; done))
    | (simp; done)

def execBankBuildDoneMask : Nat :=
  State.bankDoneMask ||| settleMask

theorem execBankBuildDone_touch {msk : Nat} {s : State} (hm : Sub execBankBuildDoneMask msk) : TouchOut msk s (execBankBuildDone s) := by
  unfold execBankBuildDone
  try dsimp only
  repeat' (with_reducible first
    | assumption
    | exact TouchOut.fault
    | apply TouchOut.done
    | exact Touch.refl
    | intro _
    | apply State.bankDone_touch)
  all_goals with_reducible first
    | exact .inr rfl
    | exact Sub.trans (b := execBankBuildDoneMask) (by decide +kernel) hm
    | exact Has.sub (a := execBankBuildDoneMask) (by decide +kernel) hm
    | exact .inl (Has.sub (a := execBankBuildDoneMask) (by decide +kernel) hm)
    | exact Has.at (by decide) (Has.sub (a := execBankBuildDoneMask) (by decide +kernel) hm)
    | exact Has.cell (by decide) (Has.sub (a := execBankBuildDoneMask) (by decide +kernel) hm)
    | exact Has.cellNext (by decide) (Has.sub (a := execBankBuildDoneMask) (by decide +kernel) hm)
    | exact Has.ite (Has.sub (a := execBankBuildDoneMask) (by decide +kernel) hm) (Has.sub (a := execBankBuildDoneMask) (by decide +kernel) hm)
    | exact .inr (fun _ => rfl)
    | (intro _; rfl)
    | (intro _; simp; done)
    | (simp; assumption)
    | (refine .inr (fun _ => ?_); simp; done)
    | (refine .inr (fun _ => ?_); (repeat' split) <;> first | rfl | (simp; done))
    | (simp; done)

def execLoadkeyMask : Nat :=
  State.secWriteMask ||| settleMask

theorem execLoadkey_touch {msk : Nat} {p : Path} {s : State} (hm : Sub execLoadkeyMask msk) : TouchOut msk s (execLoadkey p s) := by
  unfold execLoadkey
  try dsimp only
  repeat' (with_reducible first
    | assumption
    | exact TouchOut.fault
    | apply TouchOut.done
    | exact Touch.refl
    | intro _
    | apply State.secWrite_touch)
  all_goals with_reducible first
    | exact .inr rfl
    | exact Sub.trans (b := execLoadkeyMask) (by decide +kernel) hm
    | exact Has.sub (a := execLoadkeyMask) (by decide +kernel) hm
    | exact .inl (Has.sub (a := execLoadkeyMask) (by decide +kernel) hm)
    | exact Has.at (by decide) (Has.sub (a := execLoadkeyMask) (by decide +kernel) hm)
    | exact Has.cell (by decide) (Has.sub (a := execLoadkeyMask) (by decide +kernel) hm)
    | exact Has.cellNext (by decide) (Has.sub (a := execLoadkeyMask) (by decide +kernel) hm)
    | exact Has.ite (Has.sub (a := execLoadkeyMask) (by decide +kernel) hm) (Has.sub (a := execLoadkeyMask) (by decide +kernel) hm)
    | exact .inr (fun _ => rfl)
    | (intro _; rfl)
    | (intro _; simp; done)
    | (simp; assumption)
    | (refine .inr (fun _ => ?_); simp; done)
    | (refine .inr (fun _ => ?_); (repeat' split) <;> first | rfl | (simp; done))
    | (simp; done)

def execErasekeyMask : Nat :=
  State.secWriteMask ||| settleMask

theorem execErasekey_touch {msk : Nat} {p : Path} {s : State} (hm : Sub execErasekeyMask msk) : TouchOut msk s (execErasekey p s) := by
  unfold execErasekey
  try dsimp only
  repeat' (with_reducible first
    | assumption
    | exact TouchOut.fault
    | apply TouchOut.done
    | exact Touch.refl
    | intro _
    | apply State.secWrite_touch)
  all_goals with_reducible first
    | exact .inr rfl
    | exact Sub.trans (b := execErasekeyMask) (by decide +kernel) hm
    | exact Has.sub (a := execErasekeyMask) (by decide +kernel) hm
    | exact .inl (Has.sub (a := execErasekeyMask) (by decide +kernel) hm)
    | exact Has.at (by decide) (Has.sub (a := execErasekeyMask) (by decide +kernel) hm)
    | exact Has.cell (by decide) (Has.sub (a := execErasekeyMask) (by decide +kernel) hm)
    | exact Has.cellNext (by decide) (Has.sub (a := execErasekeyMask) (by decide +kernel) hm)
    | exact Has.ite (Has.sub (a := execErasekeyMask) (by decide +kernel) hm) (Has.sub (a := execErasekeyMask) (by decide +kernel) hm)
    | exact .inr (fun _ => rfl)
    | (intro _; rfl)
    | (intro _; simp; done)
    | (simp; assumption)
    | (refine .inr (fun _ => ?_); simp; done)
    | (refine .inr (fun _ => ?_); (repeat' split) <;> first | rfl | (simp; done))
    | (simp; done)

def execCommissionMask : Nat :=
  State.secWriteMask ||| settleMask

theorem execCommission_touch {msk : Nat} {p : Path} {v : Word} {s : State} (hm : Sub execCommissionMask msk) : TouchOut msk s (execCommission p v s) := by
  unfold execCommission
  try dsimp only
  repeat' (with_reducible first
    | assumption
    | exact TouchOut.fault
    | apply TouchOut.done
    | exact Touch.refl
    | intro _
    | apply State.secWrite_touch)
  all_goals with_reducible first
    | exact .inr rfl
    | exact Sub.trans (b := execCommissionMask) (by decide +kernel) hm
    | exact Has.sub (a := execCommissionMask) (by decide +kernel) hm
    | exact .inl (Has.sub (a := execCommissionMask) (by decide +kernel) hm)
    | exact Has.at (by decide) (Has.sub (a := execCommissionMask) (by decide +kernel) hm)
    | exact Has.cell (by decide) (Has.sub (a := execCommissionMask) (by decide +kernel) hm)
    | exact Has.cellNext (by decide) (Has.sub (a := execCommissionMask) (by decide +kernel) hm)
    | exact Has.ite (Has.sub (a := execCommissionMask) (by decide +kernel) hm) (Has.sub (a := execCommissionMask) (by decide +kernel) hm)
    | exact .inr (fun _ => rfl)
    | (intro _; rfl)
    | (intro _; simp; done)
    | (simp; assumption)
    | (refine .inr (fun _ => ?_); simp; done)
    | (refine .inr (fun _ => ?_); (repeat' split) <;> first | rfl | (simp; done))
    | (simp; done)

def execRetireMask : Nat :=
  State.secWriteMask ||| settleMask

theorem execRetire_touch {msk : Nat} {p : Path} {v : Word} {s : State} (hm : Sub execRetireMask msk) : TouchOut msk s (execRetire p v s) := by
  unfold execRetire
  try dsimp only
  repeat' (with_reducible first
    | assumption
    | exact TouchOut.fault
    | apply TouchOut.done
    | exact Touch.refl
    | intro _
    | apply State.secWrite_touch)
  all_goals with_reducible first
    | exact .inr rfl
    | exact Sub.trans (b := execRetireMask) (by decide +kernel) hm
    | exact Has.sub (a := execRetireMask) (by decide +kernel) hm
    | exact .inl (Has.sub (a := execRetireMask) (by decide +kernel) hm)
    | exact Has.at (by decide) (Has.sub (a := execRetireMask) (by decide +kernel) hm)
    | exact Has.cell (by decide) (Has.sub (a := execRetireMask) (by decide +kernel) hm)
    | exact Has.cellNext (by decide) (Has.sub (a := execRetireMask) (by decide +kernel) hm)
    | exact Has.ite (Has.sub (a := execRetireMask) (by decide +kernel) hm) (Has.sub (a := execRetireMask) (by decide +kernel) hm)
    | exact .inr (fun _ => rfl)
    | (intro _; rfl)
    | (intro _; simp; done)
    | (simp; assumption)
    | (refine .inr (fun _ => ?_); simp; done)
    | (refine .inr (fun _ => ?_); (repeat' split) <;> first | rfl | (simp; done))
    | (simp; done)

def execFuseBurnDoneMask : Nat :=
  State.burnDoneMask ||| settleMask

theorem execFuseBurnDone_touch {msk : Nat} {s : State} (hm : Sub execFuseBurnDoneMask msk) : TouchOut msk s (execFuseBurnDone s) := by
  unfold execFuseBurnDone
  try dsimp only
  repeat' (with_reducible first
    | assumption
    | exact TouchOut.fault
    | apply TouchOut.done
    | exact Touch.refl
    | intro _
    | apply State.burnDone_touch)
  all_goals with_reducible first
    | exact .inr rfl
    | exact Sub.trans (b := execFuseBurnDoneMask) (by decide +kernel) hm
    | exact Has.sub (a := execFuseBurnDoneMask) (by decide +kernel) hm
    | exact .inl (Has.sub (a := execFuseBurnDoneMask) (by decide +kernel) hm)
    | exact Has.at (by decide) (Has.sub (a := execFuseBurnDoneMask) (by decide +kernel) hm)
    | exact Has.cell (by decide) (Has.sub (a := execFuseBurnDoneMask) (by decide +kernel) hm)
    | exact Has.cellNext (by decide) (Has.sub (a := execFuseBurnDoneMask) (by decide +kernel) hm)
    | exact Has.ite (Has.sub (a := execFuseBurnDoneMask) (by decide +kernel) hm) (Has.sub (a := execFuseBurnDoneMask) (by decide +kernel) hm)
    | exact .inr (fun _ => rfl)
    | (intro _; rfl)
    | (intro _; simp; done)
    | (simp; assumption)
    | (refine .inr (fun _ => ?_); simp; done)
    | (refine .inr (fun _ => ?_); (repeat' split) <;> first | rfl | (simp; done))
    | (simp; done)

def execSecProofMask : Nat :=
  State.secWriteMask ||| settleMask

theorem execSecProof_touch {msk : Nat} {p : Path} {s : State} (hm : Sub execSecProofMask msk) : TouchOut msk s (execSecProof p s) := by
  unfold execSecProof
  try dsimp only
  repeat' (with_reducible first
    | assumption
    | exact TouchOut.fault
    | apply TouchOut.done
    | exact Touch.refl
    | intro _
    | apply State.secWrite_touch)
  all_goals with_reducible first
    | exact .inr rfl
    | exact Sub.trans (b := execSecProofMask) (by decide +kernel) hm
    | exact Has.sub (a := execSecProofMask) (by decide +kernel) hm
    | exact .inl (Has.sub (a := execSecProofMask) (by decide +kernel) hm)
    | exact Has.at (by decide) (Has.sub (a := execSecProofMask) (by decide +kernel) hm)
    | exact Has.cell (by decide) (Has.sub (a := execSecProofMask) (by decide +kernel) hm)
    | exact Has.cellNext (by decide) (Has.sub (a := execSecProofMask) (by decide +kernel) hm)
    | exact Has.ite (Has.sub (a := execSecProofMask) (by decide +kernel) hm) (Has.sub (a := execSecProofMask) (by decide +kernel) hm)
    | exact .inr (fun _ => rfl)
    | (intro _; rfl)
    | (intro _; simp; done)
    | (simp; assumption)
    | (refine .inr (fun _ => ?_); simp; done)
    | (refine .inr (fun _ => ?_); (repeat' split) <;> first | rfl | (simp; done))
    | (simp; done)

def execSelftestMask : Nat :=
  State.secWriteMask ||| settleMask

theorem execSelftest_touch {msk : Nat} {p : Path} {s : State} (hm : Sub execSelftestMask msk) : TouchOut msk s (execSelftest p s) := by
  unfold execSelftest
  try dsimp only
  repeat' (with_reducible first
    | assumption
    | exact TouchOut.fault
    | apply TouchOut.done
    | exact Touch.refl
    | intro _
    | apply State.secWrite_touch)
  all_goals with_reducible first
    | exact .inr rfl
    | exact Sub.trans (b := execSelftestMask) (by decide +kernel) hm
    | exact Has.sub (a := execSelftestMask) (by decide +kernel) hm
    | exact .inl (Has.sub (a := execSelftestMask) (by decide +kernel) hm)
    | exact Has.at (by decide) (Has.sub (a := execSelftestMask) (by decide +kernel) hm)
    | exact Has.cell (by decide) (Has.sub (a := execSelftestMask) (by decide +kernel) hm)
    | exact Has.cellNext (by decide) (Has.sub (a := execSelftestMask) (by decide +kernel) hm)
    | exact Has.ite (Has.sub (a := execSelftestMask) (by decide +kernel) hm) (Has.sub (a := execSelftestMask) (by decide +kernel) hm)
    | exact .inr (fun _ => rfl)
    | (intro _; rfl)
    | (intro _; simp; done)
    | (simp; assumption)
    | (refine .inr (fun _ => ?_); simp; done)
    | (refine .inr (fun _ => ?_); (repeat' split) <;> first | rfl | (simp; done))
    | (simp; done)

def execSelftestEndMask : Nat :=
  State.testsEndMask ||| settleMask

theorem execSelftestEnd_touch {msk : Nat} {fail : Option (Fin 6)} {s : State} (hm : Sub execSelftestEndMask msk) : TouchOut msk s (execSelftestEnd fail s) := by
  unfold execSelftestEnd
  try dsimp only
  repeat' (with_reducible first
    | assumption
    | exact TouchOut.fault
    | apply TouchOut.done
    | exact Touch.refl
    | intro _
    | apply State.testsEnd_touch)
  all_goals with_reducible first
    | exact .inr rfl
    | exact Sub.trans (b := execSelftestEndMask) (by decide +kernel) hm
    | exact Has.sub (a := execSelftestEndMask) (by decide +kernel) hm
    | exact .inl (Has.sub (a := execSelftestEndMask) (by decide +kernel) hm)
    | exact Has.at (by decide) (Has.sub (a := execSelftestEndMask) (by decide +kernel) hm)
    | exact Has.cell (by decide) (Has.sub (a := execSelftestEndMask) (by decide +kernel) hm)
    | exact Has.cellNext (by decide) (Has.sub (a := execSelftestEndMask) (by decide +kernel) hm)
    | exact Has.ite (Has.sub (a := execSelftestEndMask) (by decide +kernel) hm) (Has.sub (a := execSelftestEndMask) (by decide +kernel) hm)
    | exact .inr (fun _ => rfl)
    | (intro _; rfl)
    | (intro _; simp; done)
    | (simp; assumption)
    | (refine .inr (fun _ => ?_); simp; done)
    | (refine .inr (fun _ => ?_); (repeat' split) <;> first | rfl | (simp; done))
    | (simp; done)

def execSavedirMask : Nat :=
  State.secWriteMask ||| settleMask

theorem execSavedir_touch {msk : Nat} {p : Path} {s : State} (hm : Sub execSavedirMask msk) : TouchOut msk s (execSavedir p s) := by
  unfold execSavedir
  try dsimp only
  repeat' (with_reducible first
    | assumption
    | exact TouchOut.fault
    | apply TouchOut.done
    | exact Touch.refl
    | intro _
    | apply State.secWrite_touch)
  all_goals with_reducible first
    | exact .inr rfl
    | exact Sub.trans (b := execSavedirMask) (by decide +kernel) hm
    | exact Has.sub (a := execSavedirMask) (by decide +kernel) hm
    | exact .inl (Has.sub (a := execSavedirMask) (by decide +kernel) hm)
    | exact Has.at (by decide) (Has.sub (a := execSavedirMask) (by decide +kernel) hm)
    | exact Has.cell (by decide) (Has.sub (a := execSavedirMask) (by decide +kernel) hm)
    | exact Has.cellNext (by decide) (Has.sub (a := execSavedirMask) (by decide +kernel) hm)
    | exact Has.ite (Has.sub (a := execSavedirMask) (by decide +kernel) hm) (Has.sub (a := execSavedirMask) (by decide +kernel) hm)
    | exact .inr (fun _ => rfl)
    | (intro _; rfl)
    | (intro _; simp; done)
    | (simp; assumption)
    | (refine .inr (fun _ => ?_); simp; done)
    | (refine .inr (fun _ => ?_); (repeat' split) <;> first | rfl | (simp; done))
    | (simp; done)

def execSecKdataWriteMask : Nat :=
  State.onWriteMask ||| State.kdataWriteMask ||| settleMask

theorem execSecKdataWrite_touch {msk : Nat} {p : Path} {v : Word} {s : State} (hm : Sub execSecKdataWriteMask msk) : TouchOut msk s (execSecKdataWrite p v s) := by
  unfold execSecKdataWrite
  try dsimp only
  repeat' (with_reducible first
    | assumption
    | exact TouchOut.fault
    | apply TouchOut.done
    | exact Touch.refl
    | intro _
    | apply State.onWrite_touch
    | apply State.kdataWrite_touch)
  all_goals with_reducible first
    | exact .inr rfl
    | exact Sub.trans (b := execSecKdataWriteMask) (by decide +kernel) hm
    | exact Has.sub (a := execSecKdataWriteMask) (by decide +kernel) hm
    | exact .inl (Has.sub (a := execSecKdataWriteMask) (by decide +kernel) hm)
    | exact Has.at (by decide) (Has.sub (a := execSecKdataWriteMask) (by decide +kernel) hm)
    | exact Has.cell (by decide) (Has.sub (a := execSecKdataWriteMask) (by decide +kernel) hm)
    | exact Has.cellNext (by decide) (Has.sub (a := execSecKdataWriteMask) (by decide +kernel) hm)
    | exact Has.ite (Has.sub (a := execSecKdataWriteMask) (by decide +kernel) hm) (Has.sub (a := execSecKdataWriteMask) (by decide +kernel) hm)
    | exact .inr (fun _ => rfl)
    | (intro _; rfl)
    | (intro _; simp; done)
    | (simp; assumption)
    | (refine .inr (fun _ => ?_); simp; done)
    | (refine .inr (fun _ => ?_); (repeat' split) <;> first | rfl | (simp; done))
    | (simp; done)

def execSecSlotSelectMask : Nat :=
  State.onWriteMask ||| State.slotSelectMask ||| settleMask

theorem execSecSlotSelect_touch {msk : Nat} {p : Path} {v : Word} {s : State} (hm : Sub execSecSlotSelectMask msk) : TouchOut msk s (execSecSlotSelect p v s) := by
  unfold execSecSlotSelect
  try dsimp only
  repeat' (with_reducible first
    | assumption
    | exact TouchOut.fault
    | apply TouchOut.done
    | exact Touch.refl
    | intro _
    | apply State.onWrite_touch
    | apply State.slotSelect_touch)
  all_goals with_reducible first
    | exact .inr rfl
    | exact Sub.trans (b := execSecSlotSelectMask) (by decide +kernel) hm
    | exact Has.sub (a := execSecSlotSelectMask) (by decide +kernel) hm
    | exact .inl (Has.sub (a := execSecSlotSelectMask) (by decide +kernel) hm)
    | exact Has.at (by decide) (Has.sub (a := execSecSlotSelectMask) (by decide +kernel) hm)
    | exact Has.cell (by decide) (Has.sub (a := execSecSlotSelectMask) (by decide +kernel) hm)
    | exact Has.cellNext (by decide) (Has.sub (a := execSecSlotSelectMask) (by decide +kernel) hm)
    | exact Has.ite (Has.sub (a := execSecSlotSelectMask) (by decide +kernel) hm) (Has.sub (a := execSecSlotSelectMask) (by decide +kernel) hm)
    | exact .inr (fun _ => rfl)
    | (intro _; rfl)
    | (intro _; simp; done)
    | (simp; assumption)
    | (refine .inr (fun _ => ?_); simp; done)
    | (refine .inr (fun _ => ?_); (repeat' split) <;> first | rfl | (simp; done))
    | (simp; done)

def execHealthTestFailMask : Nat :=
  State.secStickMask ||| settleMask

theorem execHealthTestFail_touch {msk : Nat} {s : State} (hm : Sub execHealthTestFailMask msk) : TouchOut msk s (execHealthTestFail s) := by
  unfold execHealthTestFail
  try dsimp only
  repeat' (with_reducible first
    | assumption
    | exact TouchOut.fault
    | apply TouchOut.done
    | exact Touch.refl
    | intro _
    | apply State.secStick_touch
    | apply Touch.ite
    | split)
  all_goals with_reducible first
    | exact .inr rfl
    | exact Sub.trans (b := execHealthTestFailMask) (by decide +kernel) hm
    | exact Has.sub (a := execHealthTestFailMask) (by decide +kernel) hm
    | exact .inl (Has.sub (a := execHealthTestFailMask) (by decide +kernel) hm)
    | exact Has.at (by decide) (Has.sub (a := execHealthTestFailMask) (by decide +kernel) hm)
    | exact Has.cell (by decide) (Has.sub (a := execHealthTestFailMask) (by decide +kernel) hm)
    | exact Has.cellNext (by decide) (Has.sub (a := execHealthTestFailMask) (by decide +kernel) hm)
    | exact Has.ite (Has.sub (a := execHealthTestFailMask) (by decide +kernel) hm) (Has.sub (a := execHealthTestFailMask) (by decide +kernel) hm)
    | exact .inr (fun _ => rfl)
    | (intro _; rfl)
    | (intro _; simp; done)
    | (simp; assumption)
    | (refine .inr (fun _ => ?_); simp; done)
    | (refine .inr (fun _ => ?_); (repeat' split) <;> first | rfl | (simp; done))
    | (simp; done)

def execCommitDoneMask : Nat :=
  State.commitKeysMask ||| settleMask

theorem execCommitDone_touch {msk : Nat} {s : State} (hm : Sub execCommitDoneMask msk) : TouchOut msk s (execCommitDone s) := by
  unfold execCommitDone
  try dsimp only
  repeat' (with_reducible first
    | assumption
    | exact TouchOut.fault
    | apply TouchOut.done
    | exact Touch.refl
    | intro _
    | apply State.commitKeys_touch)
  all_goals with_reducible first
    | exact .inr rfl
    | exact Sub.trans (b := execCommitDoneMask) (by decide +kernel) hm
    | exact Has.sub (a := execCommitDoneMask) (by decide +kernel) hm
    | exact .inl (Has.sub (a := execCommitDoneMask) (by decide +kernel) hm)
    | exact Has.at (by decide) (Has.sub (a := execCommitDoneMask) (by decide +kernel) hm)
    | exact Has.cell (by decide) (Has.sub (a := execCommitDoneMask) (by decide +kernel) hm)
    | exact Has.cellNext (by decide) (Has.sub (a := execCommitDoneMask) (by decide +kernel) hm)
    | exact Has.ite (Has.sub (a := execCommitDoneMask) (by decide +kernel) hm) (Has.sub (a := execCommitDoneMask) (by decide +kernel) hm)
    | exact .inr (fun _ => rfl)
    | (intro _; rfl)
    | (intro _; simp; done)
    | (simp; assumption)
    | (refine .inr (fun _ => ?_); simp; done)
    | (refine .inr (fun _ => ?_); (repeat' split) <;> first | rfl | (simp; done))
    | (simp; done)

def hostWriteMask : Nat :=
  State.modPathMask ||| State.writeRegMask ||| settleMask

theorem hostWrite_touch {msk : Nat} {p : Path} {off : BitVec 7} {v : Word} {s : State} (hm : Sub hostWriteMask msk) : TouchOut msk s (hostWrite p off v s) := by
  unfold hostWrite
  try dsimp only
  repeat' (with_reducible first
    | assumption
    | exact TouchOut.fault
    | apply TouchOut.done
    | exact Touch.refl
    | intro _
    | apply State.modPath_touch
    | apply State.writeReg_touch
    | apply Touch.ite
    | split)
  all_goals with_reducible first
    | exact .inr rfl
    | exact Sub.trans (b := hostWriteMask) (by decide +kernel) hm
    | exact Has.sub (a := hostWriteMask) (by decide +kernel) hm
    | exact .inl (Has.sub (a := hostWriteMask) (by decide +kernel) hm)
    | exact Has.at (by decide) (Has.sub (a := hostWriteMask) (by decide +kernel) hm)
    | exact Has.cell (by decide) (Has.sub (a := hostWriteMask) (by decide +kernel) hm)
    | exact Has.cellNext (by decide) (Has.sub (a := hostWriteMask) (by decide +kernel) hm)
    | exact Has.ite (Has.sub (a := hostWriteMask) (by decide +kernel) hm) (Has.sub (a := hostWriteMask) (by decide +kernel) hm)
    | exact .inr (fun _ => rfl)
    | (intro _; rfl)
    | (intro _; simp; done)
    | (simp; assumption)
    | (refine .inr (fun _ => ?_); simp; done)
    | (refine .inr (fun _ => ?_); (repeat' split) <;> first | rfl | (simp; done))
    | (simp; done)

def execRegisterWriteMask : Nat :=
  hostWriteMask ||| settleMask

theorem execRegisterWrite_touch {msk : Nat} {p : Path} {off : BitVec 7} {v : Word} {s : State} (hm : Sub execRegisterWriteMask msk) : TouchOut msk s (execRegisterWrite p off v s) := by
  unfold execRegisterWrite
  try dsimp only
  repeat' (with_reducible first
    | assumption
    | exact TouchOut.fault
    | apply TouchOut.done
    | apply hostWrite_touch
    | exact Touch.refl
    | intro _)
  all_goals with_reducible first
    | exact .inr rfl
    | exact Sub.trans (b := execRegisterWriteMask) (by decide +kernel) hm
    | exact Has.sub (a := execRegisterWriteMask) (by decide +kernel) hm
    | exact .inl (Has.sub (a := execRegisterWriteMask) (by decide +kernel) hm)
    | exact Has.at (by decide) (Has.sub (a := execRegisterWriteMask) (by decide +kernel) hm)
    | exact Has.cell (by decide) (Has.sub (a := execRegisterWriteMask) (by decide +kernel) hm)
    | exact Has.cellNext (by decide) (Has.sub (a := execRegisterWriteMask) (by decide +kernel) hm)
    | exact Has.ite (Has.sub (a := execRegisterWriteMask) (by decide +kernel) hm) (Has.sub (a := execRegisterWriteMask) (by decide +kernel) hm)
    | exact .inr (fun _ => rfl)
    | (intro _; rfl)
    | (intro _; simp; done)
    | (simp; assumption)
    | (refine .inr (fun _ => ?_); simp; done)
    | (refine .inr (fun _ => ?_); (repeat' split) <;> first | rfl | (simp; done))
    | (simp; done)

def execPairLoReadMask : Nat :=
  State.pathReadMask ||| settleMask

theorem execPairLoRead_touch {msk : Nat} {p : Path} {off : BitVec 7} {s : State} (hm : Sub execPairLoReadMask msk) : TouchOut msk s (execPairLoRead p off s) := by
  unfold execPairLoRead
  try dsimp only
  repeat' (with_reducible first
    | assumption
    | exact TouchOut.fault
    | apply TouchOut.done
    | exact Touch.refl
    | intro _
    | apply State.pathRead_touch)
  all_goals with_reducible first
    | exact .inr rfl
    | exact Sub.trans (b := execPairLoReadMask) (by decide +kernel) hm
    | exact Has.sub (a := execPairLoReadMask) (by decide +kernel) hm
    | exact .inl (Has.sub (a := execPairLoReadMask) (by decide +kernel) hm)
    | exact Has.at (by decide) (Has.sub (a := execPairLoReadMask) (by decide +kernel) hm)
    | exact Has.cell (by decide) (Has.sub (a := execPairLoReadMask) (by decide +kernel) hm)
    | exact Has.cellNext (by decide) (Has.sub (a := execPairLoReadMask) (by decide +kernel) hm)
    | exact Has.ite (Has.sub (a := execPairLoReadMask) (by decide +kernel) hm) (Has.sub (a := execPairLoReadMask) (by decide +kernel) hm)
    | exact .inr (fun _ => rfl)
    | (intro _; rfl)
    | (intro _; simp; done)
    | (simp; assumption)
    | (refine .inr (fun _ => ?_); simp; done)
    | (refine .inr (fun _ => ?_); (repeat' split) <;> first | rfl | (simp; done))
    | (simp; done)

def execPairHiReadMask : Nat :=
  State.pathReadMask ||| settleMask

theorem execPairHiRead_touch {msk : Nat} {p : Path} {off : BitVec 7} {s : State} (hm : Sub execPairHiReadMask msk) : TouchOut msk s (execPairHiRead p off s) := by
  unfold execPairHiRead
  try dsimp only
  repeat' (with_reducible first
    | assumption
    | exact TouchOut.fault
    | apply TouchOut.done
    | exact Touch.refl
    | intro _
    | apply State.pathRead_touch)
  all_goals with_reducible first
    | exact .inr rfl
    | exact Sub.trans (b := execPairHiReadMask) (by decide +kernel) hm
    | exact Has.sub (a := execPairHiReadMask) (by decide +kernel) hm
    | exact .inl (Has.sub (a := execPairHiReadMask) (by decide +kernel) hm)
    | exact Has.at (by decide) (Has.sub (a := execPairHiReadMask) (by decide +kernel) hm)
    | exact Has.cell (by decide) (Has.sub (a := execPairHiReadMask) (by decide +kernel) hm)
    | exact Has.cellNext (by decide) (Has.sub (a := execPairHiReadMask) (by decide +kernel) hm)
    | exact Has.ite (Has.sub (a := execPairHiReadMask) (by decide +kernel) hm) (Has.sub (a := execPairHiReadMask) (by decide +kernel) hm)
    | exact .inr (fun _ => rfl)
    | (intro _; rfl)
    | (intro _; simp; done)
    | (simp; assumption)
    | (refine .inr (fun _ => ?_); simp; done)
    | (refine .inr (fun _ => ?_); (repeat' split) <;> first | rfl | (simp; done))
    | (simp; done)

def execPairHiWriteMask : Nat :=
  hostWriteMask ||| settleMask

theorem execPairHiWrite_touch {msk : Nat} {p : Path} {off : BitVec 7} {v : Word} {s : State} (hm : Sub execPairHiWriteMask msk) : TouchOut msk s (execPairHiWrite p off v s) := by
  unfold execPairHiWrite
  try dsimp only
  repeat' (with_reducible first
    | assumption
    | exact TouchOut.fault
    | apply TouchOut.done
    | apply hostWrite_touch
    | exact Touch.refl
    | intro _)
  all_goals with_reducible first
    | exact .inr rfl
    | exact Sub.trans (b := execPairHiWriteMask) (by decide +kernel) hm
    | exact Has.sub (a := execPairHiWriteMask) (by decide +kernel) hm
    | exact .inl (Has.sub (a := execPairHiWriteMask) (by decide +kernel) hm)
    | exact Has.at (by decide) (Has.sub (a := execPairHiWriteMask) (by decide +kernel) hm)
    | exact Has.cell (by decide) (Has.sub (a := execPairHiWriteMask) (by decide +kernel) hm)
    | exact Has.cellNext (by decide) (Has.sub (a := execPairHiWriteMask) (by decide +kernel) hm)
    | exact Has.ite (Has.sub (a := execPairHiWriteMask) (by decide +kernel) hm) (Has.sub (a := execPairHiWriteMask) (by decide +kernel) hm)
    | exact .inr (fun _ => rfl)
    | (intro _; rfl)
    | (intro _; simp; done)
    | (simp; assumption)
    | (refine .inr (fun _ => ?_); simp; done)
    | (refine .inr (fun _ => ?_); (repeat' split) <;> first | rfl | (simp; done))
    | (simp; done)

def execPairLoWriteMask : Nat :=
  hostWriteMask ||| settleMask

theorem execPairLoWrite_touch {msk : Nat} {p : Path} {off : BitVec 7} {v : Word} {s : State} (hm : Sub execPairLoWriteMask msk) : TouchOut msk s (execPairLoWrite p off v s) := by
  unfold execPairLoWrite
  try dsimp only
  repeat' (with_reducible first
    | assumption
    | exact TouchOut.fault
    | apply TouchOut.done
    | apply hostWrite_touch
    | exact Touch.refl
    | intro _)
  all_goals with_reducible first
    | exact .inr rfl
    | exact Sub.trans (b := execPairLoWriteMask) (by decide +kernel) hm
    | exact Has.sub (a := execPairLoWriteMask) (by decide +kernel) hm
    | exact .inl (Has.sub (a := execPairLoWriteMask) (by decide +kernel) hm)
    | exact Has.at (by decide) (Has.sub (a := execPairLoWriteMask) (by decide +kernel) hm)
    | exact Has.cell (by decide) (Has.sub (a := execPairLoWriteMask) (by decide +kernel) hm)
    | exact Has.cellNext (by decide) (Has.sub (a := execPairLoWriteMask) (by decide +kernel) hm)
    | exact Has.ite (Has.sub (a := execPairLoWriteMask) (by decide +kernel) hm) (Has.sub (a := execPairLoWriteMask) (by decide +kernel) hm)
    | exact .inr (fun _ => rfl)
    | (intro _; rfl)
    | (intro _; simp; done)
    | (simp; assumption)
    | (refine .inr (fun _ => ?_); simp; done)
    | (refine .inr (fun _ => ?_); (repeat' split) <;> first | rfl | (simp; done))
    | (simp; done)

def execTableDataReadMask : Nat :=
  State.pathReadMask ||| settleMask

theorem execTableDataRead_touch {msk : Nat} {p : Path} {off : BitVec 7} {s : State} (hm : Sub execTableDataReadMask msk) : TouchOut msk s (execTableDataRead p off s) := by
  unfold execTableDataRead
  try dsimp only
  repeat' (with_reducible first
    | assumption
    | exact TouchOut.fault
    | apply TouchOut.done
    | exact Touch.refl
    | intro _
    | apply State.pathRead_touch)
  all_goals with_reducible first
    | exact .inr rfl
    | exact Sub.trans (b := execTableDataReadMask) (by decide +kernel) hm
    | exact Has.sub (a := execTableDataReadMask) (by decide +kernel) hm
    | exact .inl (Has.sub (a := execTableDataReadMask) (by decide +kernel) hm)
    | exact Has.at (by decide) (Has.sub (a := execTableDataReadMask) (by decide +kernel) hm)
    | exact Has.cell (by decide) (Has.sub (a := execTableDataReadMask) (by decide +kernel) hm)
    | exact Has.cellNext (by decide) (Has.sub (a := execTableDataReadMask) (by decide +kernel) hm)
    | exact Has.ite (Has.sub (a := execTableDataReadMask) (by decide +kernel) hm) (Has.sub (a := execTableDataReadMask) (by decide +kernel) hm)
    | exact .inr (fun _ => rfl)
    | (intro _; rfl)
    | (intro _; simp; done)
    | (simp; assumption)
    | (refine .inr (fun _ => ?_); simp; done)
    | (refine .inr (fun _ => ?_); (repeat' split) <;> first | rfl | (simp; done))
    | (simp; done)

def execTableDataWriteMask : Nat :=
  hostWriteMask ||| settleMask

theorem execTableDataWrite_touch {msk : Nat} {p : Path} {off : BitVec 7} {v : Word} {s : State} (hm : Sub execTableDataWriteMask msk) : TouchOut msk s (execTableDataWrite p off v s) := by
  unfold execTableDataWrite
  try dsimp only
  repeat' (with_reducible first
    | assumption
    | exact TouchOut.fault
    | apply TouchOut.done
    | apply hostWrite_touch
    | exact Touch.refl
    | intro _)
  all_goals with_reducible first
    | exact .inr rfl
    | exact Sub.trans (b := execTableDataWriteMask) (by decide +kernel) hm
    | exact Has.sub (a := execTableDataWriteMask) (by decide +kernel) hm
    | exact .inl (Has.sub (a := execTableDataWriteMask) (by decide +kernel) hm)
    | exact Has.at (by decide) (Has.sub (a := execTableDataWriteMask) (by decide +kernel) hm)
    | exact Has.cell (by decide) (Has.sub (a := execTableDataWriteMask) (by decide +kernel) hm)
    | exact Has.cellNext (by decide) (Has.sub (a := execTableDataWriteMask) (by decide +kernel) hm)
    | exact Has.ite (Has.sub (a := execTableDataWriteMask) (by decide +kernel) hm) (Has.sub (a := execTableDataWriteMask) (by decide +kernel) hm)
    | exact .inr (fun _ => rfl)
    | (intro _; rfl)
    | (intro _; simp; done)
    | (simp; assumption)
    | (refine .inr (fun _ => ?_); simp; done)
    | (refine .inr (fun _ => ?_); (repeat' split) <;> first | rfl | (simp; done))
    | (simp; done)

def execTableAddrWriteMask : Nat :=
  hostWriteMask ||| settleMask

theorem execTableAddrWrite_touch {msk : Nat} {p : Path} {off : BitVec 7} {v : Word} {s : State} (hm : Sub execTableAddrWriteMask msk) : TouchOut msk s (execTableAddrWrite p off v s) := by
  unfold execTableAddrWrite
  try dsimp only
  repeat' (with_reducible first
    | assumption
    | exact TouchOut.fault
    | apply TouchOut.done
    | apply hostWrite_touch
    | exact Touch.refl
    | intro _)
  all_goals with_reducible first
    | exact .inr rfl
    | exact Sub.trans (b := execTableAddrWriteMask) (by decide +kernel) hm
    | exact Has.sub (a := execTableAddrWriteMask) (by decide +kernel) hm
    | exact .inl (Has.sub (a := execTableAddrWriteMask) (by decide +kernel) hm)
    | exact Has.at (by decide) (Has.sub (a := execTableAddrWriteMask) (by decide +kernel) hm)
    | exact Has.cell (by decide) (Has.sub (a := execTableAddrWriteMask) (by decide +kernel) hm)
    | exact Has.cellNext (by decide) (Has.sub (a := execTableAddrWriteMask) (by decide +kernel) hm)
    | exact Has.ite (Has.sub (a := execTableAddrWriteMask) (by decide +kernel) hm) (Has.sub (a := execTableAddrWriteMask) (by decide +kernel) hm)
    | exact .inr (fun _ => rfl)
    | (intro _; rfl)
    | (intro _; simp; done)
    | (simp; assumption)
    | (refine .inr (fun _ => ?_); simp; done)
    | (refine .inr (fun _ => ?_); (repeat' split) <;> first | rfl | (simp; done))
    | (simp; done)

def execUnlockWriteMask : Nat :=
  State.unlockWriteMask ||| settleMask

theorem execUnlockWrite_touch {msk : Nat} {p : Path} {v : Word} {s : State} (hm : Sub execUnlockWriteMask msk) : TouchOut msk s (execUnlockWrite p v s) := by
  unfold execUnlockWrite
  try dsimp only
  repeat' (with_reducible first
    | assumption
    | exact TouchOut.fault
    | apply TouchOut.done
    | exact Touch.refl
    | intro _
    | apply State.unlockWrite_touch
    | apply Touch.ite
    | split)
  all_goals with_reducible first
    | exact .inr rfl
    | exact Sub.trans (b := execUnlockWriteMask) (by decide +kernel) hm
    | exact Has.sub (a := execUnlockWriteMask) (by decide +kernel) hm
    | exact .inl (Has.sub (a := execUnlockWriteMask) (by decide +kernel) hm)
    | exact Has.at (by decide) (Has.sub (a := execUnlockWriteMask) (by decide +kernel) hm)
    | exact Has.cell (by decide) (Has.sub (a := execUnlockWriteMask) (by decide +kernel) hm)
    | exact Has.cellNext (by decide) (Has.sub (a := execUnlockWriteMask) (by decide +kernel) hm)
    | exact Has.ite (Has.sub (a := execUnlockWriteMask) (by decide +kernel) hm) (Has.sub (a := execUnlockWriteMask) (by decide +kernel) hm)
    | exact .inr (fun _ => rfl)
    | (intro _; rfl)
    | (intro _; simp; done)
    | (simp; assumption)
    | (refine .inr (fun _ => ?_); simp; done)
    | (refine .inr (fun _ => ?_); (repeat' split) <;> first | rfl | (simp; done))
    | (simp; done)

def execUnlockTimeoutMask : Nat :=
  State.modPathMask ||| settleMask

theorem execUnlockTimeout_touch {msk : Nat} {p : Path} {s : State} (hm : Sub execUnlockTimeoutMask msk) : TouchOut msk s (execUnlockTimeout p s) := by
  unfold execUnlockTimeout
  try dsimp only
  repeat' (with_reducible first
    | assumption
    | exact TouchOut.fault
    | apply TouchOut.done
    | exact Touch.refl
    | intro _
    | apply State.modPath_touch)
  all_goals with_reducible first
    | exact .inr rfl
    | exact Sub.trans (b := execUnlockTimeoutMask) (by decide +kernel) hm
    | exact Has.sub (a := execUnlockTimeoutMask) (by decide +kernel) hm
    | exact .inl (Has.sub (a := execUnlockTimeoutMask) (by decide +kernel) hm)
    | exact Has.at (by decide) (Has.sub (a := execUnlockTimeoutMask) (by decide +kernel) hm)
    | exact Has.cell (by decide) (Has.sub (a := execUnlockTimeoutMask) (by decide +kernel) hm)
    | exact Has.cellNext (by decide) (Has.sub (a := execUnlockTimeoutMask) (by decide +kernel) hm)
    | exact Has.ite (Has.sub (a := execUnlockTimeoutMask) (by decide +kernel) hm) (Has.sub (a := execUnlockTimeoutMask) (by decide +kernel) hm)
    | exact .inr (fun _ => rfl)
    | (intro _; rfl)
    | (intro _; simp; done)
    | (simp; assumption)
    | (refine .inr (fun _ => ?_); simp; done)
    | (refine .inr (fun _ => ?_); (repeat' split) <;> first | rfl | (simp; done))
    | (simp; done)

def execVaultRecoveryEndMask : Nat :=
  State.recoverMask ||| settleMask

theorem execVaultRecoveryEnd_touch {msk : Nat} {s : State} (hm : Sub execVaultRecoveryEndMask msk) : TouchOut msk s (execVaultRecoveryEnd s) := by
  unfold execVaultRecoveryEnd
  try dsimp only
  repeat' (with_reducible first
    | assumption
    | exact TouchOut.fault
    | apply TouchOut.done
    | exact Touch.refl
    | intro _
    | apply State.recover_touch
    | apply Touch.ite
    | split)
  all_goals with_reducible first
    | exact .inr rfl
    | exact Sub.trans (b := execVaultRecoveryEndMask) (by decide +kernel) hm
    | exact Has.sub (a := execVaultRecoveryEndMask) (by decide +kernel) hm
    | exact .inl (Has.sub (a := execVaultRecoveryEndMask) (by decide +kernel) hm)
    | exact Has.at (by decide) (Has.sub (a := execVaultRecoveryEndMask) (by decide +kernel) hm)
    | exact Has.cell (by decide) (Has.sub (a := execVaultRecoveryEndMask) (by decide +kernel) hm)
    | exact Has.cellNext (by decide) (Has.sub (a := execVaultRecoveryEndMask) (by decide +kernel) hm)
    | exact Has.ite (Has.sub (a := execVaultRecoveryEndMask) (by decide +kernel) hm) (Has.sub (a := execVaultRecoveryEndMask) (by decide +kernel) hm)
    | exact .inr (fun _ => rfl)
    | (intro _; rfl)
    | (intro _; simp; done)
    | (simp; assumption)
    | (refine .inr (fun _ => ?_); simp; done)
    | (refine .inr (fun _ => ?_); (repeat' split) <;> first | rfl | (simp; done))
    | (simp; done)

def execReplayEndMask : Nat :=
  State.replayMask ||| settleMask

theorem execReplayEnd_touch {msk : Nat} {s : State} (hm : Sub execReplayEndMask msk) : TouchOut msk s (execReplayEnd s) := by
  unfold execReplayEnd
  try dsimp only
  repeat' (with_reducible first
    | assumption
    | exact TouchOut.fault
    | apply TouchOut.done
    | exact Touch.refl
    | intro _
    | apply State.replay_touch
    | apply Touch.ite
    | split)
  all_goals with_reducible first
    | exact .inr rfl
    | exact Sub.trans (b := execReplayEndMask) (by decide +kernel) hm
    | exact Has.sub (a := execReplayEndMask) (by decide +kernel) hm
    | exact .inl (Has.sub (a := execReplayEndMask) (by decide +kernel) hm)
    | exact Has.at (by decide) (Has.sub (a := execReplayEndMask) (by decide +kernel) hm)
    | exact Has.cell (by decide) (Has.sub (a := execReplayEndMask) (by decide +kernel) hm)
    | exact Has.cellNext (by decide) (Has.sub (a := execReplayEndMask) (by decide +kernel) hm)
    | exact Has.ite (Has.sub (a := execReplayEndMask) (by decide +kernel) hm) (Has.sub (a := execReplayEndMask) (by decide +kernel) hm)
    | exact .inr (fun _ => rfl)
    | (intro _; rfl)
    | (intro _; simp; done)
    | (simp; assumption)
    | (refine .inr (fun _ => ?_); simp; done)
    | (refine .inr (fun _ => ?_); (repeat' split) <;> first | rfl | (simp; done))
    | (simp; done)

def execEngineStallMask : Nat :=
  State.postMask ||| State.engineRestartMask ||| settleMask ||| rbit R.SYS_RSTC

theorem execEngineStall_touch {msk : Nat} {e : Engine} {s : State} (hm : Sub execEngineStallMask msk) : TouchOut msk s (execEngineStall e s) := by
  unfold execEngineStall
  try dsimp only
  repeat' (with_reducible first
    | assumption
    | exact TouchOut.fault
    | apply TouchOut.done
    | exact Touch.refl
    | intro _
    | apply State.post_touch
    | apply State.engineRestart_touch
    | apply State.setFld_touch
    | apply State.setFlag_touch
    | apply Touch.ite
    | split)
  all_goals with_reducible first
    | exact .inr rfl
    | exact Sub.trans (b := execEngineStallMask) (by decide +kernel) hm
    | exact Has.sub (a := execEngineStallMask) (by decide +kernel) hm
    | exact .inl (Has.sub (a := execEngineStallMask) (by decide +kernel) hm)
    | exact Has.at (by decide) (Has.sub (a := execEngineStallMask) (by decide +kernel) hm)
    | exact Has.cell (by decide) (Has.sub (a := execEngineStallMask) (by decide +kernel) hm)
    | exact Has.cellNext (by decide) (Has.sub (a := execEngineStallMask) (by decide +kernel) hm)
    | exact Has.ite (Has.sub (a := execEngineStallMask) (by decide +kernel) hm) (Has.sub (a := execEngineStallMask) (by decide +kernel) hm)
    | exact .inr (fun _ => rfl)
    | (intro _; rfl)
    | (intro _; simp; done)
    | (simp; assumption)
    | (refine .inr (fun _ => ?_); simp; done)
    | (refine .inr (fun _ => ?_); (repeat' split) <;> first | rfl | (simp; done))
    | (simp; done)

def lampCmdMask : Nat :=
  State.lineCmdMask ||| settleMask

theorem lampCmd_touch {msk : Nat} {opc : Nat} {body : State → Reply → List Byte → CmdOut} {f : LineFrame} {s : State} (hm : Sub lampCmdMask msk) (hr : s.cmd.rest = [] ∨ Sub State.tabFlushMask msk) (hbody : ∀ s0 u r a, Touch msk s0 u → Touch msk s0 (body u r a).s) : TouchOut msk s (lampCmd opc body f s) := by
  unfold lampCmd
  try dsimp only
  repeat' (with_reducible first
    | assumption
    | exact TouchOut.fault
    | apply TouchOut.done
    | exact Touch.refl
    | intro _
    | apply State.lineCmd_touch
    | apply hbody
    | dsimp only)
  all_goals with_reducible first
    | exact .inr rfl
    | exact Sub.trans (b := lampCmdMask) (by decide +kernel) hm
    | exact Has.sub (a := lampCmdMask) (by decide +kernel) hm
    | exact .inl (Has.sub (a := lampCmdMask) (by decide +kernel) hm)
    | exact Has.at (by decide) (Has.sub (a := lampCmdMask) (by decide +kernel) hm)
    | exact Has.cell (by decide) (Has.sub (a := lampCmdMask) (by decide +kernel) hm)
    | exact Has.cellNext (by decide) (Has.sub (a := lampCmdMask) (by decide +kernel) hm)
    | exact Has.ite (Has.sub (a := lampCmdMask) (by decide +kernel) hm) (Has.sub (a := lampCmdMask) (by decide +kernel) hm)
    | exact .inr (fun _ => rfl)
    | (intro _; rfl)
    | (intro _; simp; done)
    | (simp; assumption)
    | (refine .inr (fun _ => ?_); simp; done)
    | (refine .inr (fun _ => ?_); (repeat' split) <;> first | rfl | (simp; done))
    | (simp; done)

def adminCmdMask : Nat :=
  State.lineCmdMask ||| settleMask

theorem adminCmd_touch {msk : Nat} {opc : Nat} {body : State → Reply → List Byte → CmdOut} {f : LineFrame} {s : State} (hm : Sub adminCmdMask msk) (hr : s.cmd.rest = [] ∨ Sub State.tabFlushMask msk) (hbody : ∀ s0 u r a, Touch msk s0 u → Touch msk s0 (body u r a).s) : TouchOut msk s (adminCmd opc body f s) := by
  unfold adminCmd
  try dsimp only
  repeat' (with_reducible first
    | assumption
    | exact TouchOut.fault
    | apply TouchOut.done
    | exact Touch.refl
    | intro _
    | apply State.lineCmd_touch
    | apply hbody
    | dsimp only)
  all_goals with_reducible first
    | exact .inr rfl
    | exact Sub.trans (b := adminCmdMask) (by decide +kernel) hm
    | exact Has.sub (a := adminCmdMask) (by decide +kernel) hm
    | exact .inl (Has.sub (a := adminCmdMask) (by decide +kernel) hm)
    | exact Has.at (by decide) (Has.sub (a := adminCmdMask) (by decide +kernel) hm)
    | exact Has.cell (by decide) (Has.sub (a := adminCmdMask) (by decide +kernel) hm)
    | exact Has.cellNext (by decide) (Has.sub (a := adminCmdMask) (by decide +kernel) hm)
    | exact Has.ite (Has.sub (a := adminCmdMask) (by decide +kernel) hm) (Has.sub (a := adminCmdMask) (by decide +kernel) hm)
    | exact .inr (fun _ => rfl)
    | (intro _; rfl)
    | (intro _; simp; done)
    | (simp; assumption)
    | (refine .inr (fun _ => ?_); simp; done)
    | (refine .inr (fun _ => ?_); (repeat' split) <;> first | rfl | (simp; done))
    | (simp; done)

def headCmdMask : Nat :=
  State.lineCmdMask ||| settleMask

theorem headCmd_touch {msk : Nat} {opc : Nat} {body : State → Reply → List Byte → CmdOut} {f : LineFrame} {s : State} (hm : Sub headCmdMask msk) (hr : s.cmd.rest = [] ∨ Sub State.tabFlushMask msk) (hbody : ∀ s0 u r a, Touch msk s0 u → Touch msk s0 (body u r a).s) : TouchOut msk s (headCmd opc body f s) := by
  unfold headCmd
  try dsimp only
  repeat' (with_reducible first
    | assumption
    | exact TouchOut.fault
    | apply TouchOut.done
    | exact Touch.refl
    | intro _
    | apply State.lineCmd_touch
    | apply hbody
    | dsimp only)
  all_goals with_reducible first
    | exact .inr rfl
    | exact Sub.trans (b := headCmdMask) (by decide +kernel) hm
    | exact Has.sub (a := headCmdMask) (by decide +kernel) hm
    | exact .inl (Has.sub (a := headCmdMask) (by decide +kernel) hm)
    | exact Has.at (by decide) (Has.sub (a := headCmdMask) (by decide +kernel) hm)
    | exact Has.cell (by decide) (Has.sub (a := headCmdMask) (by decide +kernel) hm)
    | exact Has.cellNext (by decide) (Has.sub (a := headCmdMask) (by decide +kernel) hm)
    | exact Has.ite (Has.sub (a := headCmdMask) (by decide +kernel) hm) (Has.sub (a := headCmdMask) (by decide +kernel) hm)
    | exact .inr (fun _ => rfl)
    | (intro _; rfl)
    | (intro _; simp; done)
    | (simp; assumption)
    | (refine .inr (fun _ => ?_); simp; done)
    | (refine .inr (fun _ => ?_); (repeat' split) <;> first | rfl | (simp; done))
    | (simp; done)

def netCmdMask : Nat :=
  State.lineCmdMask ||| settleMask

theorem netCmd_touch {msk : Nat} {opc : Nat} {body : State → Reply → List Byte → CmdOut} {f : LineFrame} {s : State} (hm : Sub netCmdMask msk) (hr : s.cmd.rest = [] ∨ Sub State.tabFlushMask msk) (hbody : ∀ s0 u r a, Touch msk s0 u → Touch msk s0 (body u r a).s) : TouchOut msk s (netCmd opc body f s) := by
  unfold netCmd
  try dsimp only
  repeat' (with_reducible first
    | assumption
    | exact TouchOut.fault
    | apply TouchOut.done
    | exact Touch.refl
    | intro _
    | apply State.lineCmd_touch
    | apply hbody
    | dsimp only)
  all_goals with_reducible first
    | exact .inr rfl
    | exact Sub.trans (b := netCmdMask) (by decide +kernel) hm
    | exact Has.sub (a := netCmdMask) (by decide +kernel) hm
    | exact .inl (Has.sub (a := netCmdMask) (by decide +kernel) hm)
    | exact Has.at (by decide) (Has.sub (a := netCmdMask) (by decide +kernel) hm)
    | exact Has.cell (by decide) (Has.sub (a := netCmdMask) (by decide +kernel) hm)
    | exact Has.cellNext (by decide) (Has.sub (a := netCmdMask) (by decide +kernel) hm)
    | exact Has.ite (Has.sub (a := netCmdMask) (by decide +kernel) hm) (Has.sub (a := netCmdMask) (by decide +kernel) hm)
    | exact .inr (fun _ => rfl)
    | (intro _; rfl)
    | (intro _; simp; done)
    | (simp; assumption)
    | (refine .inr (fun _ => ?_); simp; done)
    | (refine .inr (fun _ => ?_); (repeat' split) <;> first | rfl | (simp; done))
    | (simp; done)

def execSetCmdMask : Nat :=
  setLineMask ||| lampCmdMask ||| settleMask

theorem execSetCmd_touch {msk : Nat} {f : LineFrame} {s : State} (hm : Sub execSetCmdMask msk) (hr : s.cmd.rest = [] ∨ Sub State.tabFlushMask msk) : TouchOut msk s (execSetCmd f s) := by
  unfold execSetCmd
  try dsimp only
  repeat' (with_reducible first
    | assumption
    | exact TouchOut.fault
    | apply TouchOut.done
    | apply lampCmd_touch
    | exact Touch.refl
    | intro _
    | apply setLine_touch)
  all_goals with_reducible first
    | exact .inr rfl
    | exact Sub.trans (b := execSetCmdMask) (by decide +kernel) hm
    | exact Has.sub (a := execSetCmdMask) (by decide +kernel) hm
    | exact .inl (Has.sub (a := execSetCmdMask) (by decide +kernel) hm)
    | exact Has.at (by decide) (Has.sub (a := execSetCmdMask) (by decide +kernel) hm)
    | exact Has.cell (by decide) (Has.sub (a := execSetCmdMask) (by decide +kernel) hm)
    | exact Has.cellNext (by decide) (Has.sub (a := execSetCmdMask) (by decide +kernel) hm)
    | exact Has.ite (Has.sub (a := execSetCmdMask) (by decide +kernel) hm) (Has.sub (a := execSetCmdMask) (by decide +kernel) hm)
    | exact .inr (fun _ => rfl)
    | (intro _; rfl)
    | (intro _; simp; done)
    | (simp; assumption)
    | (refine .inr (fun _ => ?_); simp; done)
    | (refine .inr (fun _ => ?_); (repeat' split) <;> first | rfl | (simp; done))
    | (simp; done)

def execSetAtMask : Nat :=
  setLineMask ||| lampCmdMask ||| settleMask

theorem execSetAt_touch {msk : Nat} {f : LineFrame} {s : State} (hm : Sub execSetAtMask msk) (hr : s.cmd.rest = [] ∨ Sub State.tabFlushMask msk) : TouchOut msk s (execSetAt f s) := by
  unfold execSetAt
  try dsimp only
  repeat' (with_reducible first
    | assumption
    | exact TouchOut.fault
    | apply TouchOut.done
    | apply lampCmd_touch
    | exact Touch.refl
    | intro _
    | apply setLine_touch)
  all_goals with_reducible first
    | exact .inr rfl
    | exact Sub.trans (b := execSetAtMask) (by decide +kernel) hm
    | exact Has.sub (a := execSetAtMask) (by decide +kernel) hm
    | exact .inl (Has.sub (a := execSetAtMask) (by decide +kernel) hm)
    | exact Has.at (by decide) (Has.sub (a := execSetAtMask) (by decide +kernel) hm)
    | exact Has.cell (by decide) (Has.sub (a := execSetAtMask) (by decide +kernel) hm)
    | exact Has.cellNext (by decide) (Has.sub (a := execSetAtMask) (by decide +kernel) hm)
    | exact Has.ite (Has.sub (a := execSetAtMask) (by decide +kernel) hm) (Has.sub (a := execSetAtMask) (by decide +kernel) hm)
    | exact .inr (fun _ => rfl)
    | (intro _; rfl)
    | (intro _; simp; done)
    | (simp; assumption)
    | (refine .inr (fun _ => ?_); simp; done)
    | (refine .inr (fun _ => ?_); (repeat' split) <;> first | rfl | (simp; done))
    | (simp; done)

def execSetEvrMask : Nat :=
  setLineMask ||| lampCmdMask ||| settleMask

theorem execSetEvr_touch {msk : Nat} {f : LineFrame} {s : State} (hm : Sub execSetEvrMask msk) (hr : s.cmd.rest = [] ∨ Sub State.tabFlushMask msk) : TouchOut msk s (execSetEvr f s) := by
  unfold execSetEvr
  try dsimp only
  repeat' (with_reducible first
    | assumption
    | exact TouchOut.fault
    | apply TouchOut.done
    | apply lampCmd_touch
    | exact Touch.refl
    | intro _
    | apply setLine_touch)
  all_goals with_reducible first
    | exact .inr rfl
    | exact Sub.trans (b := execSetEvrMask) (by decide +kernel) hm
    | exact Has.sub (a := execSetEvrMask) (by decide +kernel) hm
    | exact .inl (Has.sub (a := execSetEvrMask) (by decide +kernel) hm)
    | exact Has.at (by decide) (Has.sub (a := execSetEvrMask) (by decide +kernel) hm)
    | exact Has.cell (by decide) (Has.sub (a := execSetEvrMask) (by decide +kernel) hm)
    | exact Has.cellNext (by decide) (Has.sub (a := execSetEvrMask) (by decide +kernel) hm)
    | exact Has.ite (Has.sub (a := execSetEvrMask) (by decide +kernel) hm) (Has.sub (a := execSetEvrMask) (by decide +kernel) hm)
    | exact .inr (fun _ => rfl)
    | (intro _; rfl)
    | (intro _; simp; done)
    | (simp; assumption)
    | (refine .inr (fun _ => ?_); simp; done)
    | (refine .inr (fun _ => ?_); (repeat' split) <;> first | rfl | (simp; done))
    | (simp; done)

def execPlateMask : Nat :=
  plateLineMask ||| lampCmdMask ||| settleMask

theorem execPlate_touch {msk : Nat} {f : LineFrame} {s : State} (hm : Sub execPlateMask msk) (hr : s.cmd.rest = [] ∨ Sub State.tabFlushMask msk) : TouchOut msk s (execPlate f s) := by
  unfold execPlate
  try dsimp only
  repeat' (with_reducible first
    | assumption
    | exact TouchOut.fault
    | apply TouchOut.done
    | apply lampCmd_touch
    | exact Touch.refl
    | intro _
    | apply plateLine_touch)
  all_goals with_reducible first
    | exact .inr rfl
    | exact Sub.trans (b := execPlateMask) (by decide +kernel) hm
    | exact Has.sub (a := execPlateMask) (by decide +kernel) hm
    | exact .inl (Has.sub (a := execPlateMask) (by decide +kernel) hm)
    | exact Has.at (by decide) (Has.sub (a := execPlateMask) (by decide +kernel) hm)
    | exact Has.cell (by decide) (Has.sub (a := execPlateMask) (by decide +kernel) hm)
    | exact Has.cellNext (by decide) (Has.sub (a := execPlateMask) (by decide +kernel) hm)
    | exact Has.ite (Has.sub (a := execPlateMask) (by decide +kernel) hm) (Has.sub (a := execPlateMask) (by decide +kernel) hm)
    | exact .inr (fun _ => rfl)
    | (intro _; rfl)
    | (intro _; simp; done)
    | (simp; assumption)
    | (refine .inr (fun _ => ?_); simp; done)
    | (refine .inr (fun _ => ?_); (repeat' split) <;> first | rfl | (simp; done))
    | (simp; done)

def execPlateAtMask : Nat :=
  plateLineMask ||| lampCmdMask ||| settleMask

theorem execPlateAt_touch {msk : Nat} {f : LineFrame} {s : State} (hm : Sub execPlateAtMask msk) (hr : s.cmd.rest = [] ∨ Sub State.tabFlushMask msk) : TouchOut msk s (execPlateAt f s) := by
  unfold execPlateAt
  try dsimp only
  repeat' (with_reducible first
    | assumption
    | exact TouchOut.fault
    | apply TouchOut.done
    | apply lampCmd_touch
    | exact Touch.refl
    | intro _
    | apply plateLine_touch)
  all_goals with_reducible first
    | exact .inr rfl
    | exact Sub.trans (b := execPlateAtMask) (by decide +kernel) hm
    | exact Has.sub (a := execPlateAtMask) (by decide +kernel) hm
    | exact .inl (Has.sub (a := execPlateAtMask) (by decide +kernel) hm)
    | exact Has.at (by decide) (Has.sub (a := execPlateAtMask) (by decide +kernel) hm)
    | exact Has.cell (by decide) (Has.sub (a := execPlateAtMask) (by decide +kernel) hm)
    | exact Has.cellNext (by decide) (Has.sub (a := execPlateAtMask) (by decide +kernel) hm)
    | exact Has.ite (Has.sub (a := execPlateAtMask) (by decide +kernel) hm) (Has.sub (a := execPlateAtMask) (by decide +kernel) hm)
    | exact .inr (fun _ => rfl)
    | (intro _; rfl)
    | (intro _; simp; done)
    | (simp; assumption)
    | (refine .inr (fun _ => ?_); simp; done)
    | (refine .inr (fun _ => ?_); (repeat' split) <;> first | rfl | (simp; done))
    | (simp; done)

def execPlateEvrMask : Nat :=
  plateLineMask ||| lampCmdMask ||| settleMask

theorem execPlateEvr_touch {msk : Nat} {f : LineFrame} {s : State} (hm : Sub execPlateEvrMask msk) (hr : s.cmd.rest = [] ∨ Sub State.tabFlushMask msk) : TouchOut msk s (execPlateEvr f s) := by
  unfold execPlateEvr
  try dsimp only
  repeat' (with_reducible first
    | assumption
    | exact TouchOut.fault
    | apply TouchOut.done
    | apply lampCmd_touch
    | exact Touch.refl
    | intro _
    | apply plateLine_touch)
  all_goals with_reducible first
    | exact .inr rfl
    | exact Sub.trans (b := execPlateEvrMask) (by decide +kernel) hm
    | exact Has.sub (a := execPlateEvrMask) (by decide +kernel) hm
    | exact .inl (Has.sub (a := execPlateEvrMask) (by decide +kernel) hm)
    | exact Has.at (by decide) (Has.sub (a := execPlateEvrMask) (by decide +kernel) hm)
    | exact Has.cell (by decide) (Has.sub (a := execPlateEvrMask) (by decide +kernel) hm)
    | exact Has.cellNext (by decide) (Has.sub (a := execPlateEvrMask) (by decide +kernel) hm)
    | exact Has.ite (Has.sub (a := execPlateEvrMask) (by decide +kernel) hm) (Has.sub (a := execPlateEvrMask) (by decide +kernel) hm)
    | exact .inr (fun _ => rfl)
    | (intro _; rfl)
    | (intro _; simp; done)
    | (simp; assumption)
    | (refine .inr (fun _ => ?_); simp; done)
    | (refine .inr (fun _ => ?_); (repeat' split) <;> first | rfl | (simp; done))
    | (simp; done)

def execReleaseMask : Nat :=
  releaseLineMask ||| lampCmdMask ||| settleMask

theorem execRelease_touch {msk : Nat} {f : LineFrame} {s : State} (hm : Sub execReleaseMask msk) (hr : s.cmd.rest = [] ∨ Sub State.tabFlushMask msk) : TouchOut msk s (execRelease f s) := by
  unfold execRelease
  try dsimp only
  repeat' (with_reducible first
    | assumption
    | exact TouchOut.fault
    | apply TouchOut.done
    | apply lampCmd_touch
    | exact Touch.refl
    | intro _
    | apply releaseLine_touch)
  all_goals with_reducible first
    | exact .inr rfl
    | exact Sub.trans (b := execReleaseMask) (by decide +kernel) hm
    | exact Has.sub (a := execReleaseMask) (by decide +kernel) hm
    | exact .inl (Has.sub (a := execReleaseMask) (by decide +kernel) hm)
    | exact Has.at (by decide) (Has.sub (a := execReleaseMask) (by decide +kernel) hm)
    | exact Has.cell (by decide) (Has.sub (a := execReleaseMask) (by decide +kernel) hm)
    | exact Has.cellNext (by decide) (Has.sub (a := execReleaseMask) (by decide +kernel) hm)
    | exact Has.ite (Has.sub (a := execReleaseMask) (by decide +kernel) hm) (Has.sub (a := execReleaseMask) (by decide +kernel) hm)
    | exact .inr (fun _ => rfl)
    | (intro _; rfl)
    | (intro _; simp; done)
    | (simp; assumption)
    | (refine .inr (fun _ => ?_); simp; done)
    | (refine .inr (fun _ => ?_); (repeat' split) <;> first | rfl | (simp; done))
    | (simp; done)

def execEventMask : Nat :=
  eventLineMask ||| lampCmdMask ||| settleMask

theorem execEvent_touch {msk : Nat} {f : LineFrame} {s : State} (hm : Sub execEventMask msk) (hr : s.cmd.rest = [] ∨ Sub State.tabFlushMask msk) : TouchOut msk s (execEvent f s) := by
  unfold execEvent
  try dsimp only
  repeat' (with_reducible first
    | assumption
    | exact TouchOut.fault
    | apply TouchOut.done
    | apply lampCmd_touch
    | exact Touch.refl
    | intro _
    | apply eventLine_touch)
  all_goals with_reducible first
    | exact .inr rfl
    | exact Sub.trans (b := execEventMask) (by decide +kernel) hm
    | exact Has.sub (a := execEventMask) (by decide +kernel) hm
    | exact .inl (Has.sub (a := execEventMask) (by decide +kernel) hm)
    | exact Has.at (by decide) (Has.sub (a := execEventMask) (by decide +kernel) hm)
    | exact Has.cell (by decide) (Has.sub (a := execEventMask) (by decide +kernel) hm)
    | exact Has.cellNext (by decide) (Has.sub (a := execEventMask) (by decide +kernel) hm)
    | exact Has.ite (Has.sub (a := execEventMask) (by decide +kernel) hm) (Has.sub (a := execEventMask) (by decide +kernel) hm)
    | exact .inr (fun _ => rfl)
    | (intro _; rfl)
    | (intro _; simp; done)
    | (simp; assumption)
    | (refine .inr (fun _ => ?_); simp; done)
    | (refine .inr (fun _ => ?_); (repeat' split) <;> first | rfl | (simp; done))
    | (simp; done)

def execGrpSetMask : Nat :=
  grpSetLineMask ||| adminCmdMask ||| settleMask

theorem execGrpSet_touch {msk : Nat} {f : LineFrame} {s : State} (hm : Sub execGrpSetMask msk) (hr : s.cmd.rest = [] ∨ Sub State.tabFlushMask msk) : TouchOut msk s (execGrpSet f s) := by
  unfold execGrpSet
  try dsimp only
  repeat' (with_reducible first
    | assumption
    | exact TouchOut.fault
    | apply TouchOut.done
    | apply adminCmd_touch
    | exact Touch.refl
    | intro _
    | apply grpSetLine_touch)
  all_goals with_reducible first
    | exact .inr rfl
    | exact Sub.trans (b := execGrpSetMask) (by decide +kernel) hm
    | exact Has.sub (a := execGrpSetMask) (by decide +kernel) hm
    | exact .inl (Has.sub (a := execGrpSetMask) (by decide +kernel) hm)
    | exact Has.at (by decide) (Has.sub (a := execGrpSetMask) (by decide +kernel) hm)
    | exact Has.cell (by decide) (Has.sub (a := execGrpSetMask) (by decide +kernel) hm)
    | exact Has.cellNext (by decide) (Has.sub (a := execGrpSetMask) (by decide +kernel) hm)
    | exact Has.ite (Has.sub (a := execGrpSetMask) (by decide +kernel) hm) (Has.sub (a := execGrpSetMask) (by decide +kernel) hm)
    | exact .inr (fun _ => rfl)
    | (intro _; rfl)
    | (intro _; simp; done)
    | (simp; assumption)
    | (refine .inr (fun _ => ?_); simp; done)
    | (refine .inr (fun _ => ?_); (repeat' split) <;> first | rfl | (simp; done))
    | (simp; done)

def execGrpAddMask : Nat :=
  grpBitLineMask ||| adminCmdMask ||| settleMask

theorem execGrpAdd_touch {msk : Nat} {f : LineFrame} {s : State} (hm : Sub execGrpAddMask msk) (hr : s.cmd.rest = [] ∨ Sub State.tabFlushMask msk) : TouchOut msk s (execGrpAdd f s) := by
  unfold execGrpAdd
  try dsimp only
  repeat' (with_reducible first
    | assumption
    | exact TouchOut.fault
    | apply TouchOut.done
    | apply adminCmd_touch
    | exact Touch.refl
    | intro _
    | apply grpBitLine_touch)
  all_goals with_reducible first
    | exact .inr rfl
    | exact Sub.trans (b := execGrpAddMask) (by decide +kernel) hm
    | exact Has.sub (a := execGrpAddMask) (by decide +kernel) hm
    | exact .inl (Has.sub (a := execGrpAddMask) (by decide +kernel) hm)
    | exact Has.at (by decide) (Has.sub (a := execGrpAddMask) (by decide +kernel) hm)
    | exact Has.cell (by decide) (Has.sub (a := execGrpAddMask) (by decide +kernel) hm)
    | exact Has.cellNext (by decide) (Has.sub (a := execGrpAddMask) (by decide +kernel) hm)
    | exact Has.ite (Has.sub (a := execGrpAddMask) (by decide +kernel) hm) (Has.sub (a := execGrpAddMask) (by decide +kernel) hm)
    | exact .inr (fun _ => rfl)
    | (intro _; rfl)
    | (intro _; simp; done)
    | (simp; assumption)
    | (refine .inr (fun _ => ?_); simp; done)
    | (refine .inr (fun _ => ?_); (repeat' split) <;> first | rfl | (simp; done))
    | (simp; done)

def execGrpDelMask : Nat :=
  grpBitLineMask ||| adminCmdMask ||| settleMask

theorem execGrpDel_touch {msk : Nat} {f : LineFrame} {s : State} (hm : Sub execGrpDelMask msk) (hr : s.cmd.rest = [] ∨ Sub State.tabFlushMask msk) : TouchOut msk s (execGrpDel f s) := by
  unfold execGrpDel
  try dsimp only
  repeat' (with_reducible first
    | assumption
    | exact TouchOut.fault
    | apply TouchOut.done
    | apply adminCmd_touch
    | exact Touch.refl
    | intro _
    | apply grpBitLine_touch)
  all_goals with_reducible first
    | exact .inr rfl
    | exact Sub.trans (b := execGrpDelMask) (by decide +kernel) hm
    | exact Has.sub (a := execGrpDelMask) (by decide +kernel) hm
    | exact .inl (Has.sub (a := execGrpDelMask) (by decide +kernel) hm)
    | exact Has.at (by decide) (Has.sub (a := execGrpDelMask) (by decide +kernel) hm)
    | exact Has.cell (by decide) (Has.sub (a := execGrpDelMask) (by decide +kernel) hm)
    | exact Has.cellNext (by decide) (Has.sub (a := execGrpDelMask) (by decide +kernel) hm)
    | exact Has.ite (Has.sub (a := execGrpDelMask) (by decide +kernel) hm) (Has.sub (a := execGrpDelMask) (by decide +kernel) hm)
    | exact .inr (fun _ => rfl)
    | (intro _; rfl)
    | (intro _; simp; done)
    | (simp; assumption)
    | (refine .inr (fun _ => ?_); simp; done)
    | (refine .inr (fun _ => ?_); (repeat' split) <;> first | rfl | (simp; done))
    | (simp; done)

def execPosSetMask : Nat :=
  posSetLineMask ||| adminCmdMask ||| settleMask

theorem execPosSet_touch {msk : Nat} {f : LineFrame} {s : State} (hm : Sub execPosSetMask msk) (hr : s.cmd.rest = [] ∨ Sub State.tabFlushMask msk) : TouchOut msk s (execPosSet f s) := by
  unfold execPosSet
  try dsimp only
  repeat' (with_reducible first
    | assumption
    | exact TouchOut.fault
    | apply TouchOut.done
    | apply adminCmd_touch
    | exact Touch.refl
    | intro _
    | apply posSetLine_touch)
  all_goals with_reducible first
    | exact .inr rfl
    | exact Sub.trans (b := execPosSetMask) (by decide +kernel) hm
    | exact Has.sub (a := execPosSetMask) (by decide +kernel) hm
    | exact .inl (Has.sub (a := execPosSetMask) (by decide +kernel) hm)
    | exact Has.at (by decide) (Has.sub (a := execPosSetMask) (by decide +kernel) hm)
    | exact Has.cell (by decide) (Has.sub (a := execPosSetMask) (by decide +kernel) hm)
    | exact Has.cellNext (by decide) (Has.sub (a := execPosSetMask) (by decide +kernel) hm)
    | exact Has.ite (Has.sub (a := execPosSetMask) (by decide +kernel) hm) (Has.sub (a := execPosSetMask) (by decide +kernel) hm)
    | exact .inr (fun _ => rfl)
    | (intro _; rfl)
    | (intro _; simp; done)
    | (simp; assumption)
    | (refine .inr (fun _ => ?_); simp; done)
    | (refine .inr (fun _ => ?_); (repeat' split) <;> first | rfl | (simp; done))
    | (simp; done)

def execTabOpenMask : Nat :=
  tabOpenLineMask ||| adminCmdMask ||| settleMask

theorem execTabOpen_touch {msk : Nat} {f : LineFrame} {s : State} (hm : Sub execTabOpenMask msk) (hr : s.cmd.rest = [] ∨ Sub State.tabFlushMask msk) : TouchOut msk s (execTabOpen f s) := by
  unfold execTabOpen
  try dsimp only
  repeat' (with_reducible first
    | assumption
    | exact TouchOut.fault
    | apply TouchOut.done
    | apply adminCmd_touch
    | exact Touch.refl
    | intro _
    | apply tabOpenLine_touch)
  all_goals with_reducible first
    | exact .inr rfl
    | exact Sub.trans (b := execTabOpenMask) (by decide +kernel) hm
    | exact Has.sub (a := execTabOpenMask) (by decide +kernel) hm
    | exact .inl (Has.sub (a := execTabOpenMask) (by decide +kernel) hm)
    | exact Has.at (by decide) (Has.sub (a := execTabOpenMask) (by decide +kernel) hm)
    | exact Has.cell (by decide) (Has.sub (a := execTabOpenMask) (by decide +kernel) hm)
    | exact Has.cellNext (by decide) (Has.sub (a := execTabOpenMask) (by decide +kernel) hm)
    | exact Has.ite (Has.sub (a := execTabOpenMask) (by decide +kernel) hm) (Has.sub (a := execTabOpenMask) (by decide +kernel) hm)
    | exact .inr (fun _ => rfl)
    | (intro _; rfl)
    | (intro _; simp; done)
    | (simp; assumption)
    | (refine .inr (fun _ => ?_); simp; done)
    | (refine .inr (fun _ => ?_); (repeat' split) <;> first | rfl | (simp; done))
    | (simp; done)

def execTabWriteMask : Nat :=
  tabWriteLineMask ||| adminCmdMask ||| settleMask

theorem execTabWrite_touch {msk : Nat} {f : LineFrame} {s : State} (hm : Sub execTabWriteMask msk) (hr : s.cmd.rest = [] ∨ Sub State.tabFlushMask msk) : TouchOut msk s (execTabWrite f s) := by
  unfold execTabWrite
  try dsimp only
  repeat' (with_reducible first
    | assumption
    | exact TouchOut.fault
    | apply TouchOut.done
    | apply adminCmd_touch
    | exact Touch.refl
    | intro _
    | apply tabWriteLine_touch)
  all_goals with_reducible first
    | exact .inr rfl
    | exact Sub.trans (b := execTabWriteMask) (by decide +kernel) hm
    | exact Has.sub (a := execTabWriteMask) (by decide +kernel) hm
    | exact .inl (Has.sub (a := execTabWriteMask) (by decide +kernel) hm)
    | exact Has.at (by decide) (Has.sub (a := execTabWriteMask) (by decide +kernel) hm)
    | exact Has.cell (by decide) (Has.sub (a := execTabWriteMask) (by decide +kernel) hm)
    | exact Has.cellNext (by decide) (Has.sub (a := execTabWriteMask) (by decide +kernel) hm)
    | exact Has.ite (Has.sub (a := execTabWriteMask) (by decide +kernel) hm) (Has.sub (a := execTabWriteMask) (by decide +kernel) hm)
    | exact .inr (fun _ => rfl)
    | (intro _; rfl)
    | (intro _; simp; done)
    | (simp; assumption)
    | (refine .inr (fun _ => ?_); simp; done)
    | (refine .inr (fun _ => ?_); (repeat' split) <;> first | rfl | (simp; done))
    | (simp; done)

def execTabCloseMask : Nat :=
  tabCloseLineMask ||| adminCmdMask ||| settleMask

theorem execTabClose_touch {msk : Nat} {f : LineFrame} {s : State} (hm : Sub execTabCloseMask msk) (hr : s.cmd.rest = [] ∨ Sub State.tabFlushMask msk) : TouchOut msk s (execTabClose f s) := by
  unfold execTabClose
  try dsimp only
  repeat' (with_reducible first
    | assumption
    | exact TouchOut.fault
    | apply TouchOut.done
    | apply adminCmd_touch
    | exact Touch.refl
    | intro _
    | apply tabCloseLine_touch)
  all_goals with_reducible first
    | exact .inr rfl
    | exact Sub.trans (b := execTabCloseMask) (by decide +kernel) hm
    | exact Has.sub (a := execTabCloseMask) (by decide +kernel) hm
    | exact .inl (Has.sub (a := execTabCloseMask) (by decide +kernel) hm)
    | exact Has.at (by decide) (Has.sub (a := execTabCloseMask) (by decide +kernel) hm)
    | exact Has.cell (by decide) (Has.sub (a := execTabCloseMask) (by decide +kernel) hm)
    | exact Has.cellNext (by decide) (Has.sub (a := execTabCloseMask) (by decide +kernel) hm)
    | exact Has.ite (Has.sub (a := execTabCloseMask) (by decide +kernel) hm) (Has.sub (a := execTabCloseMask) (by decide +kernel) hm)
    | exact .inr (fun _ => rfl)
    | (intro _; rfl)
    | (intro _; simp; done)
    | (simp; assumption)
    | (refine .inr (fun _ => ?_); simp; done)
    | (refine .inr (fun _ => ?_); (repeat' split) <;> first | rfl | (simp; done))
    | (simp; done)

def execTabSaveMask : Nat :=
  tabSaveLineMask ||| adminCmdMask ||| settleMask

theorem execTabSave_touch {msk : Nat} {f : LineFrame} {s : State} (hm : Sub execTabSaveMask msk) (hr : s.cmd.rest = [] ∨ Sub State.tabFlushMask msk) : TouchOut msk s (execTabSave f s) := by
  unfold execTabSave
  try dsimp only
  repeat' (with_reducible first
    | assumption
    | exact TouchOut.fault
    | apply TouchOut.done
    | apply adminCmd_touch
    | exact Touch.refl
    | intro _
    | apply tabSaveLine_touch)
  all_goals with_reducible first
    | exact .inr rfl
    | exact Sub.trans (b := execTabSaveMask) (by decide +kernel) hm
    | exact Has.sub (a := execTabSaveMask) (by decide +kernel) hm
    | exact .inl (Has.sub (a := execTabSaveMask) (by decide +kernel) hm)
    | exact Has.at (by decide) (Has.sub (a := execTabSaveMask) (by decide +kernel) hm)
    | exact Has.cell (by decide) (Has.sub (a := execTabSaveMask) (by decide +kernel) hm)
    | exact Has.cellNext (by decide) (Has.sub (a := execTabSaveMask) (by decide +kernel) hm)
    | exact Has.ite (Has.sub (a := execTabSaveMask) (by decide +kernel) hm) (Has.sub (a := execTabSaveMask) (by decide +kernel) hm)
    | exact .inr (fun _ => rfl)
    | (intro _; rfl)
    | (intro _; simp; done)
    | (simp; assumption)
    | (refine .inr (fun _ => ?_); simp; done)
    | (refine .inr (fun _ => ?_); (repeat' split) <;> first | rfl | (simp; done))
    | (simp; done)

def execPlateWrMask : Nat :=
  plateWrLineMask ||| adminCmdMask ||| settleMask

theorem execPlateWr_touch {msk : Nat} {f : LineFrame} {s : State} (hm : Sub execPlateWrMask msk) (hr : s.cmd.rest = [] ∨ Sub State.tabFlushMask msk) : TouchOut msk s (execPlateWr f s) := by
  unfold execPlateWr
  try dsimp only
  repeat' (with_reducible first
    | assumption
    | exact TouchOut.fault
    | apply TouchOut.done
    | apply adminCmd_touch
    | exact Touch.refl
    | intro _
    | apply plateWrLine_touch)
  all_goals with_reducible first
    | exact .inr rfl
    | exact Sub.trans (b := execPlateWrMask) (by decide +kernel) hm
    | exact Has.sub (a := execPlateWrMask) (by decide +kernel) hm
    | exact .inl (Has.sub (a := execPlateWrMask) (by decide +kernel) hm)
    | exact Has.at (by decide) (Has.sub (a := execPlateWrMask) (by decide +kernel) hm)
    | exact Has.cell (by decide) (Has.sub (a := execPlateWrMask) (by decide +kernel) hm)
    | exact Has.cellNext (by decide) (Has.sub (a := execPlateWrMask) (by decide +kernel) hm)
    | exact Has.ite (Has.sub (a := execPlateWrMask) (by decide +kernel) hm) (Has.sub (a := execPlateWrMask) (by decide +kernel) hm)
    | exact .inr (fun _ => rfl)
    | (intro _; rfl)
    | (intro _; simp; done)
    | (simp; assumption)
    | (refine .inr (fun _ => ?_); simp; done)
    | (refine .inr (fun _ => ?_); (repeat' split) <;> first | rfl | (simp; done))
    | (simp; done)

def execCfgSaveMask : Nat :=
  cfgSaveLineMask ||| adminCmdMask ||| settleMask

theorem execCfgSave_touch {msk : Nat} {f : LineFrame} {s : State} (hm : Sub execCfgSaveMask msk) (hr : s.cmd.rest = [] ∨ Sub State.tabFlushMask msk) : TouchOut msk s (execCfgSave f s) := by
  unfold execCfgSave
  try dsimp only
  repeat' (with_reducible first
    | assumption
    | exact TouchOut.fault
    | apply TouchOut.done
    | apply adminCmd_touch
    | exact Touch.refl
    | intro _
    | apply cfgSaveLine_touch)
  all_goals with_reducible first
    | exact .inr rfl
    | exact Sub.trans (b := execCfgSaveMask) (by decide +kernel) hm
    | exact Has.sub (a := execCfgSaveMask) (by decide +kernel) hm
    | exact .inl (Has.sub (a := execCfgSaveMask) (by decide +kernel) hm)
    | exact Has.at (by decide) (Has.sub (a := execCfgSaveMask) (by decide +kernel) hm)
    | exact Has.cell (by decide) (Has.sub (a := execCfgSaveMask) (by decide +kernel) hm)
    | exact Has.cellNext (by decide) (Has.sub (a := execCfgSaveMask) (by decide +kernel) hm)
    | exact Has.ite (Has.sub (a := execCfgSaveMask) (by decide +kernel) hm) (Has.sub (a := execCfgSaveMask) (by decide +kernel) hm)
    | exact .inr (fun _ => rfl)
    | (intro _; rfl)
    | (intro _; simp; done)
    | (simp; assumption)
    | (refine .inr (fun _ => ?_); simp; done)
    | (refine .inr (fun _ => ?_); (repeat' split) <;> first | rfl | (simp; done))
    | (simp; done)

def execQStatusMask : Nat :=
  headCmdMask ||| settleMask

theorem execQStatus_touch {msk : Nat} {f : LineFrame} {s : State} (hm : Sub execQStatusMask msk) (hr : s.cmd.rest = [] ∨ Sub State.tabFlushMask msk) : TouchOut msk s (execQStatus f s) := by
  unfold execQStatus
  try dsimp only
  repeat' (with_reducible first
    | assumption
    | exact TouchOut.fault
    | apply TouchOut.done
    | apply headCmd_touch
    | exact Touch.refl
    | intro _
    | apply qStatusLine_touch)
  all_goals with_reducible first
    | exact .inr rfl
    | exact Sub.trans (b := execQStatusMask) (by decide +kernel) hm
    | exact Has.sub (a := execQStatusMask) (by decide +kernel) hm
    | exact .inl (Has.sub (a := execQStatusMask) (by decide +kernel) hm)
    | exact Has.at (by decide) (Has.sub (a := execQStatusMask) (by decide +kernel) hm)
    | exact Has.cell (by decide) (Has.sub (a := execQStatusMask) (by decide +kernel) hm)
    | exact Has.cellNext (by decide) (Has.sub (a := execQStatusMask) (by decide +kernel) hm)
    | exact Has.ite (Has.sub (a := execQStatusMask) (by decide +kernel) hm) (Has.sub (a := execQStatusMask) (by decide +kernel) hm)
    | exact .inr (fun _ => rfl)
    | (intro _; rfl)
    | (intro _; simp; done)
    | (simp; assumption)
    | (refine .inr (fun _ => ?_); simp; done)
    | (refine .inr (fun _ => ?_); (repeat' split) <;> first | rfl | (simp; done))
    | (simp; done)

def execQLampMask : Nat :=
  headCmdMask ||| settleMask

theorem execQLamp_touch {msk : Nat} {f : LineFrame} {s : State} (hm : Sub execQLampMask msk) (hr : s.cmd.rest = [] ∨ Sub State.tabFlushMask msk) : TouchOut msk s (execQLamp f s) := by
  unfold execQLamp
  try dsimp only
  repeat' (with_reducible first
    | assumption
    | exact TouchOut.fault
    | apply TouchOut.done
    | apply headCmd_touch
    | exact Touch.refl
    | intro _
    | apply qLampLine_touch)
  all_goals with_reducible first
    | exact .inr rfl
    | exact Sub.trans (b := execQLampMask) (by decide +kernel) hm
    | exact Has.sub (a := execQLampMask) (by decide +kernel) hm
    | exact .inl (Has.sub (a := execQLampMask) (by decide +kernel) hm)
    | exact Has.at (by decide) (Has.sub (a := execQLampMask) (by decide +kernel) hm)
    | exact Has.cell (by decide) (Has.sub (a := execQLampMask) (by decide +kernel) hm)
    | exact Has.cellNext (by decide) (Has.sub (a := execQLampMask) (by decide +kernel) hm)
    | exact Has.ite (Has.sub (a := execQLampMask) (by decide +kernel) hm) (Has.sub (a := execQLampMask) (by decide +kernel) hm)
    | exact .inr (fun _ => rfl)
    | (intro _; rfl)
    | (intro _; simp; done)
    | (simp; assumption)
    | (refine .inr (fun _ => ?_); simp; done)
    | (refine .inr (fun _ => ?_); (repeat' split) <;> first | rfl | (simp; done))
    | (simp; done)

def execQHealthMask : Nat :=
  headCmdMask ||| settleMask

theorem execQHealth_touch {msk : Nat} {f : LineFrame} {s : State} (hm : Sub execQHealthMask msk) (hr : s.cmd.rest = [] ∨ Sub State.tabFlushMask msk) : TouchOut msk s (execQHealth f s) := by
  unfold execQHealth
  try dsimp only
  repeat' (with_reducible first
    | assumption
    | exact TouchOut.fault
    | apply TouchOut.done
    | apply headCmd_touch
    | exact Touch.refl
    | intro _
    | apply qHealthLine_touch)
  all_goals with_reducible first
    | exact .inr rfl
    | exact Sub.trans (b := execQHealthMask) (by decide +kernel) hm
    | exact Has.sub (a := execQHealthMask) (by decide +kernel) hm
    | exact .inl (Has.sub (a := execQHealthMask) (by decide +kernel) hm)
    | exact Has.at (by decide) (Has.sub (a := execQHealthMask) (by decide +kernel) hm)
    | exact Has.cell (by decide) (Has.sub (a := execQHealthMask) (by decide +kernel) hm)
    | exact Has.cellNext (by decide) (Has.sub (a := execQHealthMask) (by decide +kernel) hm)
    | exact Has.ite (Has.sub (a := execQHealthMask) (by decide +kernel) hm) (Has.sub (a := execQHealthMask) (by decide +kernel) hm)
    | exact .inr (fun _ => rfl)
    | (intro _; rfl)
    | (intro _; simp; done)
    | (simp; assumption)
    | (refine .inr (fun _ => ?_); simp; done)
    | (refine .inr (fun _ => ?_); (repeat' split) <;> first | rfl | (simp; done))
    | (simp; done)

def execQEnergyMask : Nat :=
  headCmdMask ||| settleMask

theorem execQEnergy_touch {msk : Nat} {f : LineFrame} {s : State} (hm : Sub execQEnergyMask msk) (hr : s.cmd.rest = [] ∨ Sub State.tabFlushMask msk) : TouchOut msk s (execQEnergy f s) := by
  unfold execQEnergy
  try dsimp only
  repeat' (with_reducible first
    | assumption
    | exact TouchOut.fault
    | apply TouchOut.done
    | apply headCmd_touch
    | exact Touch.refl
    | intro _
    | apply qEnergyLine_touch)
  all_goals with_reducible first
    | exact .inr rfl
    | exact Sub.trans (b := execQEnergyMask) (by decide +kernel) hm
    | exact Has.sub (a := execQEnergyMask) (by decide +kernel) hm
    | exact .inl (Has.sub (a := execQEnergyMask) (by decide +kernel) hm)
    | exact Has.at (by decide) (Has.sub (a := execQEnergyMask) (by decide +kernel) hm)
    | exact Has.cell (by decide) (Has.sub (a := execQEnergyMask) (by decide +kernel) hm)
    | exact Has.cellNext (by decide) (Has.sub (a := execQEnergyMask) (by decide +kernel) hm)
    | exact Has.ite (Has.sub (a := execQEnergyMask) (by decide +kernel) hm) (Has.sub (a := execQEnergyMask) (by decide +kernel) hm)
    | exact .inr (fun _ => rfl)
    | (intro _; rfl)
    | (intro _; simp; done)
    | (simp; assumption)
    | (refine .inr (fun _ => ?_); simp; done)
    | (refine .inr (fun _ => ?_); (repeat' split) <;> first | rfl | (simp; done))
    | (simp; done)

def execQHatchMask : Nat :=
  headCmdMask ||| settleMask

theorem execQHatch_touch {msk : Nat} {f : LineFrame} {s : State} (hm : Sub execQHatchMask msk) (hr : s.cmd.rest = [] ∨ Sub State.tabFlushMask msk) : TouchOut msk s (execQHatch f s) := by
  unfold execQHatch
  try dsimp only
  repeat' (with_reducible first
    | assumption
    | exact TouchOut.fault
    | apply TouchOut.done
    | apply headCmd_touch
    | exact Touch.refl
    | intro _
    | apply qHatchLine_touch)
  all_goals with_reducible first
    | exact .inr rfl
    | exact Sub.trans (b := execQHatchMask) (by decide +kernel) hm
    | exact Has.sub (a := execQHatchMask) (by decide +kernel) hm
    | exact .inl (Has.sub (a := execQHatchMask) (by decide +kernel) hm)
    | exact Has.at (by decide) (Has.sub (a := execQHatchMask) (by decide +kernel) hm)
    | exact Has.cell (by decide) (Has.sub (a := execQHatchMask) (by decide +kernel) hm)
    | exact Has.cellNext (by decide) (Has.sub (a := execQHatchMask) (by decide +kernel) hm)
    | exact Has.ite (Has.sub (a := execQHatchMask) (by decide +kernel) hm) (Has.sub (a := execQHatchMask) (by decide +kernel) hm)
    | exact .inr (fun _ => rfl)
    | (intro _; rfl)
    | (intro _; simp; done)
    | (simp; assumption)
    | (refine .inr (fun _ => ?_); simp; done)
    | (refine .inr (fun _ => ?_); (repeat' split) <;> first | rfl | (simp; done))
    | (simp; done)

def execQEventsMask : Nat :=
  headCmdMask ||| settleMask

theorem execQEvents_touch {msk : Nat} {f : LineFrame} {s : State} (hm : Sub execQEventsMask msk) (hr : s.cmd.rest = [] ∨ Sub State.tabFlushMask msk) : TouchOut msk s (execQEvents f s) := by
  unfold execQEvents
  try dsimp only
  repeat' (with_reducible first
    | assumption
    | exact TouchOut.fault
    | apply TouchOut.done
    | apply headCmd_touch
    | exact Touch.refl
    | intro _
    | apply qEventsLine_touch)
  all_goals with_reducible first
    | exact .inr rfl
    | exact Sub.trans (b := execQEventsMask) (by decide +kernel) hm
    | exact Has.sub (a := execQEventsMask) (by decide +kernel) hm
    | exact .inl (Has.sub (a := execQEventsMask) (by decide +kernel) hm)
    | exact Has.at (by decide) (Has.sub (a := execQEventsMask) (by decide +kernel) hm)
    | exact Has.cell (by decide) (Has.sub (a := execQEventsMask) (by decide +kernel) hm)
    | exact Has.cellNext (by decide) (Has.sub (a := execQEventsMask) (by decide +kernel) hm)
    | exact Has.ite (Has.sub (a := execQEventsMask) (by decide +kernel) hm) (Has.sub (a := execQEventsMask) (by decide +kernel) hm)
    | exact .inr (fun _ => rfl)
    | (intro _; rfl)
    | (intro _; simp; done)
    | (simp; assumption)
    | (refine .inr (fun _ => ?_); simp; done)
    | (refine .inr (fun _ => ?_); (repeat' split) <;> first | rfl | (simp; done))
    | (simp; done)

def execQGaugeMask : Nat :=
  headCmdMask ||| settleMask

theorem execQGauge_touch {msk : Nat} {f : LineFrame} {s : State} (hm : Sub execQGaugeMask msk) (hr : s.cmd.rest = [] ∨ Sub State.tabFlushMask msk) : TouchOut msk s (execQGauge f s) := by
  unfold execQGauge
  try dsimp only
  repeat' (with_reducible first
    | assumption
    | exact TouchOut.fault
    | apply TouchOut.done
    | apply headCmd_touch
    | exact Touch.refl
    | intro _
    | apply qGaugeLine_touch)
  all_goals with_reducible first
    | exact .inr rfl
    | exact Sub.trans (b := execQGaugeMask) (by decide +kernel) hm
    | exact Has.sub (a := execQGaugeMask) (by decide +kernel) hm
    | exact .inl (Has.sub (a := execQGaugeMask) (by decide +kernel) hm)
    | exact Has.at (by decide) (Has.sub (a := execQGaugeMask) (by decide +kernel) hm)
    | exact Has.cell (by decide) (Has.sub (a := execQGaugeMask) (by decide +kernel) hm)
    | exact Has.cellNext (by decide) (Has.sub (a := execQGaugeMask) (by decide +kernel) hm)
    | exact Has.ite (Has.sub (a := execQGaugeMask) (by decide +kernel) hm) (Has.sub (a := execQGaugeMask) (by decide +kernel) hm)
    | exact .inr (fun _ => rfl)
    | (intro _; rfl)
    | (intro _; simp; done)
    | (simp; assumption)
    | (refine .inr (fun _ => ?_); simp; done)
    | (refine .inr (fun _ => ?_); (repeat' split) <;> first | rfl | (simp; done))
    | (simp; done)

def execQTimeMask : Nat :=
  headCmdMask ||| settleMask

theorem execQTime_touch {msk : Nat} {f : LineFrame} {s : State} (hm : Sub execQTimeMask msk) (hr : s.cmd.rest = [] ∨ Sub State.tabFlushMask msk) : TouchOut msk s (execQTime f s) := by
  unfold execQTime
  try dsimp only
  repeat' (with_reducible first
    | assumption
    | exact TouchOut.fault
    | apply TouchOut.done
    | apply headCmd_touch
    | exact Touch.refl
    | intro _
    | apply qTimeLine_touch)
  all_goals with_reducible first
    | exact .inr rfl
    | exact Sub.trans (b := execQTimeMask) (by decide +kernel) hm
    | exact Has.sub (a := execQTimeMask) (by decide +kernel) hm
    | exact .inl (Has.sub (a := execQTimeMask) (by decide +kernel) hm)
    | exact Has.at (by decide) (Has.sub (a := execQTimeMask) (by decide +kernel) hm)
    | exact Has.cell (by decide) (Has.sub (a := execQTimeMask) (by decide +kernel) hm)
    | exact Has.cellNext (by decide) (Has.sub (a := execQTimeMask) (by decide +kernel) hm)
    | exact Has.ite (Has.sub (a := execQTimeMask) (by decide +kernel) hm) (Has.sub (a := execQTimeMask) (by decide +kernel) hm)
    | exact .inr (fun _ => rfl)
    | (intro _; rfl)
    | (intro _; simp; done)
    | (simp; assumption)
    | (refine .inr (fun _ => ?_); simp; done)
    | (refine .inr (fun _ => ?_); (repeat' split) <;> first | rfl | (simp; done))
    | (simp; done)

def execQVersionMask : Nat :=
  headCmdMask ||| settleMask

theorem execQVersion_touch {msk : Nat} {f : LineFrame} {s : State} (hm : Sub execQVersionMask msk) (hr : s.cmd.rest = [] ∨ Sub State.tabFlushMask msk) : TouchOut msk s (execQVersion f s) := by
  unfold execQVersion
  try dsimp only
  repeat' (with_reducible first
    | assumption
    | exact TouchOut.fault
    | apply TouchOut.done
    | apply headCmd_touch
    | exact Touch.refl
    | intro _
    | apply qVersionLine_touch)
  all_goals with_reducible first
    | exact .inr rfl
    | exact Sub.trans (b := execQVersionMask) (by decide +kernel) hm
    | exact Has.sub (a := execQVersionMask) (by decide +kernel) hm
    | exact .inl (Has.sub (a := execQVersionMask) (by decide +kernel) hm)
    | exact Has.at (by decide) (Has.sub (a := execQVersionMask) (by decide +kernel) hm)
    | exact Has.cell (by decide) (Has.sub (a := execQVersionMask) (by decide +kernel) hm)
    | exact Has.cellNext (by decide) (Has.sub (a := execQVersionMask) (by decide +kernel) hm)
    | exact Has.ite (Has.sub (a := execQVersionMask) (by decide +kernel) hm) (Has.sub (a := execQVersionMask) (by decide +kernel) hm)
    | exact .inr (fun _ => rfl)
    | (intro _; rfl)
    | (intro _; simp; done)
    | (simp; assumption)
    | (refine .inr (fun _ => ?_); simp; done)
    | (refine .inr (fun _ => ?_); (repeat' split) <;> first | rfl | (simp; done))
    | (simp; done)

def execQLinkMask : Nat :=
  headCmdMask ||| settleMask

theorem execQLink_touch {msk : Nat} {f : LineFrame} {s : State} (hm : Sub execQLinkMask msk) (hr : s.cmd.rest = [] ∨ Sub State.tabFlushMask msk) : TouchOut msk s (execQLink f s) := by
  unfold execQLink
  try dsimp only
  repeat' (with_reducible first
    | assumption
    | exact TouchOut.fault
    | apply TouchOut.done
    | apply headCmd_touch
    | exact Touch.refl
    | intro _
    | apply qLinkLine_touch)
  all_goals with_reducible first
    | exact .inr rfl
    | exact Sub.trans (b := execQLinkMask) (by decide +kernel) hm
    | exact Has.sub (a := execQLinkMask) (by decide +kernel) hm
    | exact .inl (Has.sub (a := execQLinkMask) (by decide +kernel) hm)
    | exact Has.at (by decide) (Has.sub (a := execQLinkMask) (by decide +kernel) hm)
    | exact Has.cell (by decide) (Has.sub (a := execQLinkMask) (by decide +kernel) hm)
    | exact Has.cellNext (by decide) (Has.sub (a := execQLinkMask) (by decide +kernel) hm)
    | exact Has.ite (Has.sub (a := execQLinkMask) (by decide +kernel) hm) (Has.sub (a := execQLinkMask) (by decide +kernel) hm)
    | exact .inr (fun _ => rfl)
    | (intro _; rfl)
    | (intro _; simp; done)
    | (simp; assumption)
    | (refine .inr (fun _ => ?_); simp; done)
    | (refine .inr (fun _ => ?_); (repeat' split) <;> first | rfl | (simp; done))
    | (simp; done)

def execRdMask : Nat :=
  rdLineMask ||| adminCmdMask ||| settleMask

theorem execRd_touch {msk : Nat} {f : LineFrame} {s : State} (hm : Sub execRdMask msk) (hr : s.cmd.rest = [] ∨ Sub State.tabFlushMask msk) : TouchOut msk s (execRd f s) := by
  unfold execRd
  try dsimp only
  repeat' (with_reducible first
    | assumption
    | exact TouchOut.fault
    | apply TouchOut.done
    | apply adminCmd_touch
    | exact Touch.refl
    | intro _
    | apply rdLine_touch)
  all_goals with_reducible first
    | exact .inr rfl
    | exact Sub.trans (b := execRdMask) (by decide +kernel) hm
    | exact Has.sub (a := execRdMask) (by decide +kernel) hm
    | exact .inl (Has.sub (a := execRdMask) (by decide +kernel) hm)
    | exact Has.at (by decide) (Has.sub (a := execRdMask) (by decide +kernel) hm)
    | exact Has.cell (by decide) (Has.sub (a := execRdMask) (by decide +kernel) hm)
    | exact Has.cellNext (by decide) (Has.sub (a := execRdMask) (by decide +kernel) hm)
    | exact Has.ite (Has.sub (a := execRdMask) (by decide +kernel) hm) (Has.sub (a := execRdMask) (by decide +kernel) hm)
    | exact .inr (fun _ => rfl)
    | (intro _; rfl)
    | (intro _; simp; done)
    | (simp; assumption)
    | (refine .inr (fun _ => ?_); simp; done)
    | (refine .inr (fun _ => ?_); (repeat' split) <;> first | rfl | (simp; done))
    | (simp; done)

def execWrMask : Nat :=
  wrLineMask ||| adminCmdMask ||| settleMask

theorem execWr_touch {msk : Nat} {f : LineFrame} {s : State} (hm : Sub execWrMask msk) (hr : s.cmd.rest = [] ∨ Sub State.tabFlushMask msk) : TouchOut msk s (execWr f s) := by
  unfold execWr
  try dsimp only
  repeat' (with_reducible first
    | assumption
    | exact TouchOut.fault
    | apply TouchOut.done
    | apply adminCmd_touch
    | exact Touch.refl
    | intro _
    | apply wrLine_touch)
  all_goals with_reducible first
    | exact .inr rfl
    | exact Sub.trans (b := execWrMask) (by decide +kernel) hm
    | exact Has.sub (a := execWrMask) (by decide +kernel) hm
    | exact .inl (Has.sub (a := execWrMask) (by decide +kernel) hm)
    | exact Has.at (by decide) (Has.sub (a := execWrMask) (by decide +kernel) hm)
    | exact Has.cell (by decide) (Has.sub (a := execWrMask) (by decide +kernel) hm)
    | exact Has.cellNext (by decide) (Has.sub (a := execWrMask) (by decide +kernel) hm)
    | exact Has.ite (Has.sub (a := execWrMask) (by decide +kernel) hm) (Has.sub (a := execWrMask) (by decide +kernel) hm)
    | exact .inr (fun _ => rfl)
    | (intro _; rfl)
    | (intro _; simp; done)
    | (simp; assumption)
    | (refine .inr (fun _ => ?_); simp; done)
    | (refine .inr (fun _ => ?_); (repeat' split) <;> first | rfl | (simp; done))
    | (simp; done)

def execWrlMask : Nat :=
  wrlLineMask ||| adminCmdMask ||| settleMask

theorem execWrl_touch {msk : Nat} {f : LineFrame} {s : State} (hm : Sub execWrlMask msk) (hr : s.cmd.rest = [] ∨ Sub State.tabFlushMask msk) : TouchOut msk s (execWrl f s) := by
  unfold execWrl
  try dsimp only
  repeat' (with_reducible first
    | assumption
    | exact TouchOut.fault
    | apply TouchOut.done
    | apply adminCmd_touch
    | exact Touch.refl
    | intro _
    | apply wrlLine_touch)
  all_goals with_reducible first
    | exact .inr rfl
    | exact Sub.trans (b := execWrlMask) (by decide +kernel) hm
    | exact Has.sub (a := execWrlMask) (by decide +kernel) hm
    | exact .inl (Has.sub (a := execWrlMask) (by decide +kernel) hm)
    | exact Has.at (by decide) (Has.sub (a := execWrlMask) (by decide +kernel) hm)
    | exact Has.cell (by decide) (Has.sub (a := execWrlMask) (by decide +kernel) hm)
    | exact Has.cellNext (by decide) (Has.sub (a := execWrlMask) (by decide +kernel) hm)
    | exact Has.ite (Has.sub (a := execWrlMask) (by decide +kernel) hm) (Has.sub (a := execWrlMask) (by decide +kernel) hm)
    | exact .inr (fun _ => rfl)
    | (intro _; rfl)
    | (intro _; simp; done)
    | (simp; assumption)
    | (refine .inr (fun _ => ?_); simp; done)
    | (refine .inr (fun _ => ?_); (repeat' split) <;> first | rfl | (simp; done))
    | (simp; done)

def execJoinReqMask : Nat :=
  State.joinReqMask ||| settleMask

theorem execJoinReq_touch {msk : Nat} {f : LineFrame} {s : State} (hm : Sub execJoinReqMask msk) : TouchOut msk s (execJoinReq f s) := by
  unfold execJoinReq
  try dsimp only
  repeat' (with_reducible first
    | assumption
    | exact TouchOut.fault
    | apply TouchOut.done
    | exact Touch.refl
    | intro _
    | apply State.joinReq_touch)
  all_goals with_reducible first
    | exact .inr rfl
    | exact Sub.trans (b := execJoinReqMask) (by decide +kernel) hm
    | exact Has.sub (a := execJoinReqMask) (by decide +kernel) hm
    | exact .inl (Has.sub (a := execJoinReqMask) (by decide +kernel) hm)
    | exact Has.at (by decide) (Has.sub (a := execJoinReqMask) (by decide +kernel) hm)
    | exact Has.cell (by decide) (Has.sub (a := execJoinReqMask) (by decide +kernel) hm)
    | exact Has.cellNext (by decide) (Has.sub (a := execJoinReqMask) (by decide +kernel) hm)
    | exact Has.ite (Has.sub (a := execJoinReqMask) (by decide +kernel) hm) (Has.sub (a := execJoinReqMask) (by decide +kernel) hm)
    | exact .inr (fun _ => rfl)
    | (intro _; rfl)
    | (intro _; simp; done)
    | (simp; assumption)
    | (refine .inr (fun _ => ?_); simp; done)
    | (refine .inr (fun _ => ?_); (repeat' split) <;> first | rfl | (simp; done))
    | (simp; done)

def execJoinRespMask : Nat :=
  State.lineCmdMask ||| joinRespLineMask ||| settleMask

theorem execJoinResp_touch {msk : Nat} {f : LineFrame} {s : State} (hm : Sub execJoinRespMask msk) (hr : s.cmd.rest = [] ∨ Sub State.tabFlushMask msk) : TouchOut msk s (execJoinResp f s) := by
  unfold execJoinResp
  try dsimp only
  repeat' (with_reducible first
    | assumption
    | exact TouchOut.fault
    | apply TouchOut.done
    | exact Touch.refl
    | intro _
    | apply State.lineCmd_touch
    | apply joinRespLine_touch)
  all_goals with_reducible first
    | exact .inr rfl
    | exact Sub.trans (b := execJoinRespMask) (by decide +kernel) hm
    | exact Has.sub (a := execJoinRespMask) (by decide +kernel) hm
    | exact .inl (Has.sub (a := execJoinRespMask) (by decide +kernel) hm)
    | exact Has.at (by decide) (Has.sub (a := execJoinRespMask) (by decide +kernel) hm)
    | exact Has.cell (by decide) (Has.sub (a := execJoinRespMask) (by decide +kernel) hm)
    | exact Has.cellNext (by decide) (Has.sub (a := execJoinRespMask) (by decide +kernel) hm)
    | exact Has.ite (Has.sub (a := execJoinRespMask) (by decide +kernel) hm) (Has.sub (a := execJoinRespMask) (by decide +kernel) hm)
    | exact .inr (fun _ => rfl)
    | (intro _; rfl)
    | (intro _; simp; done)
    | (simp; assumption)
    | (refine .inr (fun _ => ?_); simp; done)
    | (refine .inr (fun _ => ?_); (repeat' split) <;> first | rfl | (simp; done))
    | (simp; done)

def execAddrSetMask : Nat :=
  headCmdMask ||| settleMask

theorem execAddrSet_touch {msk : Nat} {f : LineFrame} {s : State} (hm : Sub execAddrSetMask msk) (hr : s.cmd.rest = [] ∨ Sub State.tabFlushMask msk) : TouchOut msk s (execAddrSet f s) := by
  unfold execAddrSet
  try dsimp only
  repeat' (with_reducible first
    | assumption
    | exact TouchOut.fault
    | apply TouchOut.done
    | apply headCmd_touch
    | exact Touch.refl
    | intro _
    | apply addrSetLine_touch)
  all_goals with_reducible first
    | exact .inr rfl
    | exact Sub.trans (b := execAddrSetMask) (by decide +kernel) hm
    | exact Has.sub (a := execAddrSetMask) (by decide +kernel) hm
    | exact .inl (Has.sub (a := execAddrSetMask) (by decide +kernel) hm)
    | exact Has.at (by decide) (Has.sub (a := execAddrSetMask) (by decide +kernel) hm)
    | exact Has.cell (by decide) (Has.sub (a := execAddrSetMask) (by decide +kernel) hm)
    | exact Has.cellNext (by decide) (Has.sub (a := execAddrSetMask) (by decide +kernel) hm)
    | exact Has.ite (Has.sub (a := execAddrSetMask) (by decide +kernel) hm) (Has.sub (a := execAddrSetMask) (by decide +kernel) hm)
    | exact .inr (fun _ => rfl)
    | (intro _; rfl)
    | (intro _; simp; done)
    | (simp; assumption)
    | (refine .inr (fun _ => ?_); simp; done)
    | (refine .inr (fun _ => ?_); (repeat' split) <;> first | rfl | (simp; done))
    | (simp; done)

def execRoleSetMask : Nat :=
  roleSetLineMask ||| headCmdMask ||| settleMask

theorem execRoleSet_touch {msk : Nat} {f : LineFrame} {s : State} (hm : Sub execRoleSetMask msk) (hr : s.cmd.rest = [] ∨ Sub State.tabFlushMask msk) : TouchOut msk s (execRoleSet f s) := by
  unfold execRoleSet
  try dsimp only
  repeat' (with_reducible first
    | assumption
    | exact TouchOut.fault
    | apply TouchOut.done
    | apply headCmd_touch
    | exact Touch.refl
    | intro _
    | apply roleSetLine_touch)
  all_goals with_reducible first
    | exact .inr rfl
    | exact Sub.trans (b := execRoleSetMask) (by decide +kernel) hm
    | exact Has.sub (a := execRoleSetMask) (by decide +kernel) hm
    | exact .inl (Has.sub (a := execRoleSetMask) (by decide +kernel) hm)
    | exact Has.at (by decide) (Has.sub (a := execRoleSetMask) (by decide +kernel) hm)
    | exact Has.cell (by decide) (Has.sub (a := execRoleSetMask) (by decide +kernel) hm)
    | exact Has.cellNext (by decide) (Has.sub (a := execRoleSetMask) (by decide +kernel) hm)
    | exact Has.ite (Has.sub (a := execRoleSetMask) (by decide +kernel) hm) (Has.sub (a := execRoleSetMask) (by decide +kernel) hm)
    | exact .inr (fun _ => rfl)
    | (intro _; rfl)
    | (intro _; simp; done)
    | (simp; assumption)
    | (refine .inr (fun _ => ?_); simp; done)
    | (refine .inr (fun _ => ?_); (repeat' split) <;> first | rfl | (simp; done))
    | (simp; done)

def execRsvGrantMask : Nat :=
  rsvGrantLineMask ||| headCmdMask ||| settleMask

theorem execRsvGrant_touch {msk : Nat} {f : LineFrame} {s : State} (hm : Sub execRsvGrantMask msk) (hr : s.cmd.rest = [] ∨ Sub State.tabFlushMask msk) : TouchOut msk s (execRsvGrant f s) := by
  unfold execRsvGrant
  try dsimp only
  repeat' (with_reducible first
    | assumption
    | exact TouchOut.fault
    | apply TouchOut.done
    | apply headCmd_touch
    | exact Touch.refl
    | intro _
    | apply rsvGrantLine_touch)
  all_goals with_reducible first
    | exact .inr rfl
    | exact Sub.trans (b := execRsvGrantMask) (by decide +kernel) hm
    | exact Has.sub (a := execRsvGrantMask) (by decide +kernel) hm
    | exact .inl (Has.sub (a := execRsvGrantMask) (by decide +kernel) hm)
    | exact Has.at (by decide) (Has.sub (a := execRsvGrantMask) (by decide +kernel) hm)
    | exact Has.cell (by decide) (Has.sub (a := execRsvGrantMask) (by decide +kernel) hm)
    | exact Has.cellNext (by decide) (Has.sub (a := execRsvGrantMask) (by decide +kernel) hm)
    | exact Has.ite (Has.sub (a := execRsvGrantMask) (by decide +kernel) hm) (Has.sub (a := execRsvGrantMask) (by decide +kernel) hm)
    | exact .inr (fun _ => rfl)
    | (intro _; rfl)
    | (intro _; simp; done)
    | (simp; assumption)
    | (refine .inr (fun _ => ?_); simp; done)
    | (refine .inr (fun _ => ?_); (repeat' split) <;> first | rfl | (simp; done))
    | (simp; done)

def execRsvSetMask : Nat :=
  rsvSetLineMask ||| headCmdMask ||| settleMask

theorem execRsvSet_touch {msk : Nat} {f : LineFrame} {s : State} (hm : Sub execRsvSetMask msk) (hr : s.cmd.rest = [] ∨ Sub State.tabFlushMask msk) : TouchOut msk s (execRsvSet f s) := by
  unfold execRsvSet
  try dsimp only
  repeat' (with_reducible first
    | assumption
    | exact TouchOut.fault
    | apply TouchOut.done
    | apply headCmd_touch
    | exact Touch.refl
    | intro _
    | apply rsvSetLine_touch)
  all_goals with_reducible first
    | exact .inr rfl
    | exact Sub.trans (b := execRsvSetMask) (by decide +kernel) hm
    | exact Has.sub (a := execRsvSetMask) (by decide +kernel) hm
    | exact .inl (Has.sub (a := execRsvSetMask) (by decide +kernel) hm)
    | exact Has.at (by decide) (Has.sub (a := execRsvSetMask) (by decide +kernel) hm)
    | exact Has.cell (by decide) (Has.sub (a := execRsvSetMask) (by decide +kernel) hm)
    | exact Has.cellNext (by decide) (Has.sub (a := execRsvSetMask) (by decide +kernel) hm)
    | exact Has.ite (Has.sub (a := execRsvSetMask) (by decide +kernel) hm) (Has.sub (a := execRsvSetMask) (by decide +kernel) hm)
    | exact .inr (fun _ => rfl)
    | (intro _; rfl)
    | (intro _; simp; done)
    | (simp; assumption)
    | (refine .inr (fun _ => ?_); simp; done)
    | (refine .inr (fun _ => ?_); (repeat' split) <;> first | rfl | (simp; done))
    | (simp; done)

def execTmReqMask : Nat :=
  tmReqLineMask ||| netCmdMask ||| settleMask

theorem execTmReq_touch {msk : Nat} {f : LineFrame} {s : State} (hm : Sub execTmReqMask msk) (hr : s.cmd.rest = [] ∨ Sub State.tabFlushMask msk) : TouchOut msk s (execTmReq f s) := by
  unfold execTmReq
  try dsimp only
  repeat' (with_reducible first
    | assumption
    | exact TouchOut.fault
    | apply TouchOut.done
    | apply netCmd_touch
    | exact Touch.refl
    | intro _
    | apply tmReqLine_touch)
  all_goals with_reducible first
    | exact .inr rfl
    | exact Sub.trans (b := execTmReqMask) (by decide +kernel) hm
    | exact Has.sub (a := execTmReqMask) (by decide +kernel) hm
    | exact .inl (Has.sub (a := execTmReqMask) (by decide +kernel) hm)
    | exact Has.at (by decide) (Has.sub (a := execTmReqMask) (by decide +kernel) hm)
    | exact Has.cell (by decide) (Has.sub (a := execTmReqMask) (by decide +kernel) hm)
    | exact Has.cellNext (by decide) (Has.sub (a := execTmReqMask) (by decide +kernel) hm)
    | exact Has.ite (Has.sub (a := execTmReqMask) (by decide +kernel) hm) (Has.sub (a := execTmReqMask) (by decide +kernel) hm)
    | exact .inr (fun _ => rfl)
    | (intro _; rfl)
    | (intro _; simp; done)
    | (simp; assumption)
    | (refine .inr (fun _ => ?_); simp; done)
    | (refine .inr (fun _ => ?_); (repeat' split) <;> first | rfl | (simp; done))
    | (simp; done)

def execTmRespMask : Nat :=
  tmRespLineMask ||| netCmdMask ||| settleMask

theorem execTmResp_touch {msk : Nat} {f : LineFrame} {s : State} (hm : Sub execTmRespMask msk) (hr : s.cmd.rest = [] ∨ Sub State.tabFlushMask msk) : TouchOut msk s (execTmResp f s) := by
  unfold execTmResp
  try dsimp only
  repeat' (with_reducible first
    | assumption
    | exact TouchOut.fault
    | apply TouchOut.done
    | apply netCmd_touch
    | exact Touch.refl
    | intro _
    | apply tmRespLine_touch)
  all_goals with_reducible first
    | exact .inr rfl
    | exact Sub.trans (b := execTmRespMask) (by decide +kernel) hm
    | exact Has.sub (a := execTmRespMask) (by decide +kernel) hm
    | exact .inl (Has.sub (a := execTmRespMask) (by decide +kernel) hm)
    | exact Has.at (by decide) (Has.sub (a := execTmRespMask) (by decide +kernel) hm)
    | exact Has.cell (by decide) (Has.sub (a := execTmRespMask) (by decide +kernel) hm)
    | exact Has.cellNext (by decide) (Has.sub (a := execTmRespMask) (by decide +kernel) hm)
    | exact Has.ite (Has.sub (a := execTmRespMask) (by decide +kernel) hm) (Has.sub (a := execTmRespMask) (by decide +kernel) hm)
    | exact .inr (fun _ => rfl)
    | (intro _; rfl)
    | (intro _; simp; done)
    | (simp; assumption)
    | (refine .inr (fun _ => ?_); simp; done)
    | (refine .inr (fun _ => ?_); (repeat' split) <;> first | rfl | (simp; done))
    | (simp; done)

def execOffsetSetMask : Nat :=
  offsetSetLineMask ||| headCmdMask ||| settleMask

theorem execOffsetSet_touch {msk : Nat} {f : LineFrame} {s : State} (hm : Sub execOffsetSetMask msk) (hr : s.cmd.rest = [] ∨ Sub State.tabFlushMask msk) : TouchOut msk s (execOffsetSet f s) := by
  unfold execOffsetSet
  try dsimp only
  repeat' (with_reducible first
    | assumption
    | exact TouchOut.fault
    | apply TouchOut.done
    | apply headCmd_touch
    | exact Touch.refl
    | intro _
    | apply offsetSetLine_touch)
  all_goals with_reducible first
    | exact .inr rfl
    | exact Sub.trans (b := execOffsetSetMask) (by decide +kernel) hm
    | exact Has.sub (a := execOffsetSetMask) (by decide +kernel) hm
    | exact .inl (Has.sub (a := execOffsetSetMask) (by decide +kernel) hm)
    | exact Has.at (by decide) (Has.sub (a := execOffsetSetMask) (by decide +kernel) hm)
    | exact Has.cell (by decide) (Has.sub (a := execOffsetSetMask) (by decide +kernel) hm)
    | exact Has.cellNext (by decide) (Has.sub (a := execOffsetSetMask) (by decide +kernel) hm)
    | exact Has.ite (Has.sub (a := execOffsetSetMask) (by decide +kernel) hm) (Has.sub (a := execOffsetSetMask) (by decide +kernel) hm)
    | exact .inr (fun _ => rfl)
    | (intro _; rfl)
    | (intro _; simp; done)
    | (simp; assumption)
    | (refine .inr (fun _ => ?_); simp; done)
    | (refine .inr (fun _ => ?_); (repeat' split) <;> first | rfl | (simp; done))
    | (simp; done)

def execLeaveMask : Nat :=
  headCmdMask ||| settleMask

theorem execLeave_touch {msk : Nat} {f : LineFrame} {s : State} (hm : Sub execLeaveMask msk) (hr : s.cmd.rest = [] ∨ Sub State.tabFlushMask msk) : TouchOut msk s (execLeave f s) := by
  unfold execLeave
  try dsimp only
  repeat' (with_reducible first
    | assumption
    | exact TouchOut.fault
    | apply TouchOut.done
    | apply headCmd_touch
    | exact Touch.refl
    | intro _
    | apply leaveLine_touch)
  all_goals with_reducible first
    | exact .inr rfl
    | exact Sub.trans (b := execLeaveMask) (by decide +kernel) hm
    | exact Has.sub (a := execLeaveMask) (by decide +kernel) hm
    | exact .inl (Has.sub (a := execLeaveMask) (by decide +kernel) hm)
    | exact Has.at (by decide) (Has.sub (a := execLeaveMask) (by decide +kernel) hm)
    | exact Has.cell (by decide) (Has.sub (a := execLeaveMask) (by decide +kernel) hm)
    | exact Has.cellNext (by decide) (Has.sub (a := execLeaveMask) (by decide +kernel) hm)
    | exact Has.ite (Has.sub (a := execLeaveMask) (by decide +kernel) hm) (Has.sub (a := execLeaveMask) (by decide +kernel) hm)
    | exact .inr (fun _ => rfl)
    | (intro _; rfl)
    | (intro _; simp; done)
    | (simp; assumption)
    | (refine .inr (fun _ => ?_); simp; done)
    | (refine .inr (fun _ => ?_); (repeat' split) <;> first | rfl | (simp; done))
    | (simp; done)

def execTmAskMask : Nat :=
  tmAskLineMask ||| headCmdMask ||| settleMask

theorem execTmAsk_touch {msk : Nat} {f : LineFrame} {s : State} (hm : Sub execTmAskMask msk) (hr : s.cmd.rest = [] ∨ Sub State.tabFlushMask msk) : TouchOut msk s (execTmAsk f s) := by
  unfold execTmAsk
  try dsimp only
  repeat' (with_reducible first
    | assumption
    | exact TouchOut.fault
    | apply TouchOut.done
    | apply headCmd_touch
    | exact Touch.refl
    | intro _
    | apply tmAskLine_touch)
  all_goals with_reducible first
    | exact .inr rfl
    | exact Sub.trans (b := execTmAskMask) (by decide +kernel) hm
    | exact Has.sub (a := execTmAskMask) (by decide +kernel) hm
    | exact .inl (Has.sub (a := execTmAskMask) (by decide +kernel) hm)
    | exact Has.at (by decide) (Has.sub (a := execTmAskMask) (by decide +kernel) hm)
    | exact Has.cell (by decide) (Has.sub (a := execTmAskMask) (by decide +kernel) hm)
    | exact Has.cellNext (by decide) (Has.sub (a := execTmAskMask) (by decide +kernel) hm)
    | exact Has.ite (Has.sub (a := execTmAskMask) (by decide +kernel) hm) (Has.sub (a := execTmAskMask) (by decide +kernel) hm)
    | exact .inr (fun _ => rfl)
    | (intro _; rfl)
    | (intro _; simp; done)
    | (simp; assumption)
    | (refine .inr (fun _ => ?_); simp; done)
    | (refine .inr (fun _ => ?_); (repeat' split) <;> first | rfl | (simp; done))
    | (simp; done)

def execMbStatMask : Nat :=
  netCmdMask ||| settleMask

theorem execMbStat_touch {msk : Nat} {f : LineFrame} {s : State} (hm : Sub execMbStatMask msk) (hr : s.cmd.rest = [] ∨ Sub State.tabFlushMask msk) : TouchOut msk s (execMbStat f s) := by
  unfold execMbStat
  try dsimp only
  repeat' (with_reducible first
    | assumption
    | exact TouchOut.fault
    | apply TouchOut.done
    | apply netCmd_touch
    | exact Touch.refl
    | intro _
    | apply mbStatLine_touch)
  all_goals with_reducible first
    | exact .inr rfl
    | exact Sub.trans (b := execMbStatMask) (by decide +kernel) hm
    | exact Has.sub (a := execMbStatMask) (by decide +kernel) hm
    | exact .inl (Has.sub (a := execMbStatMask) (by decide +kernel) hm)
    | exact Has.at (by decide) (Has.sub (a := execMbStatMask) (by decide +kernel) hm)
    | exact Has.cell (by decide) (Has.sub (a := execMbStatMask) (by decide +kernel) hm)
    | exact Has.cellNext (by decide) (Has.sub (a := execMbStatMask) (by decide +kernel) hm)
    | exact Has.ite (Has.sub (a := execMbStatMask) (by decide +kernel) hm) (Has.sub (a := execMbStatMask) (by decide +kernel) hm)
    | exact .inr (fun _ => rfl)
    | (intro _; rfl)
    | (intro _; simp; done)
    | (simp; assumption)
    | (refine .inr (fun _ => ?_); simp; done)
    | (refine .inr (fun _ => ?_); (repeat' split) <;> first | rfl | (simp; done))
    | (simp; done)

def execBBeginMask : Nat :=
  bBeginLineMask ||| headCmdMask ||| settleMask

theorem execBBegin_touch {msk : Nat} {f : LineFrame} {s : State} (hm : Sub execBBeginMask msk) (hr : s.cmd.rest = [] ∨ Sub State.tabFlushMask msk) : TouchOut msk s (execBBegin f s) := by
  unfold execBBegin
  try dsimp only
  repeat' (with_reducible first
    | assumption
    | exact TouchOut.fault
    | apply TouchOut.done
    | apply headCmd_touch
    | exact Touch.refl
    | intro _
    | apply bBeginLine_touch)
  all_goals with_reducible first
    | exact .inr rfl
    | exact Sub.trans (b := execBBeginMask) (by decide +kernel) hm
    | exact Has.sub (a := execBBeginMask) (by decide +kernel) hm
    | exact .inl (Has.sub (a := execBBeginMask) (by decide +kernel) hm)
    | exact Has.at (by decide) (Has.sub (a := execBBeginMask) (by decide +kernel) hm)
    | exact Has.cell (by decide) (Has.sub (a := execBBeginMask) (by decide +kernel) hm)
    | exact Has.cellNext (by decide) (Has.sub (a := execBBeginMask) (by decide +kernel) hm)
    | exact Has.ite (Has.sub (a := execBBeginMask) (by decide +kernel) hm) (Has.sub (a := execBBeginMask) (by decide +kernel) hm)
    | exact .inr (fun _ => rfl)
    | (intro _; rfl)
    | (intro _; simp; done)
    | (simp; assumption)
    | (refine .inr (fun _ => ?_); simp; done)
    | (refine .inr (fun _ => ?_); (repeat' split) <;> first | rfl | (simp; done))
    | (simp; done)

def execBBlockMask : Nat :=
  bBlockLineMask ||| headCmdMask ||| settleMask

theorem execBBlock_touch {msk : Nat} {f : LineFrame} {s : State} (hm : Sub execBBlockMask msk) (hr : s.cmd.rest = [] ∨ Sub State.tabFlushMask msk) : TouchOut msk s (execBBlock f s) := by
  unfold execBBlock
  try dsimp only
  repeat' (with_reducible first
    | assumption
    | exact TouchOut.fault
    | apply TouchOut.done
    | apply headCmd_touch
    | exact Touch.refl
    | intro _
    | apply bBlockLine_touch)
  all_goals with_reducible first
    | exact .inr rfl
    | exact Sub.trans (b := execBBlockMask) (by decide +kernel) hm
    | exact Has.sub (a := execBBlockMask) (by decide +kernel) hm
    | exact .inl (Has.sub (a := execBBlockMask) (by decide +kernel) hm)
    | exact Has.at (by decide) (Has.sub (a := execBBlockMask) (by decide +kernel) hm)
    | exact Has.cell (by decide) (Has.sub (a := execBBlockMask) (by decide +kernel) hm)
    | exact Has.cellNext (by decide) (Has.sub (a := execBBlockMask) (by decide +kernel) hm)
    | exact Has.ite (Has.sub (a := execBBlockMask) (by decide +kernel) hm) (Has.sub (a := execBBlockMask) (by decide +kernel) hm)
    | exact .inr (fun _ => rfl)
    | (intro _; rfl)
    | (intro _; simp; done)
    | (simp; assumption)
    | (refine .inr (fun _ => ?_); simp; done)
    | (refine .inr (fun _ => ?_); (repeat' split) <;> first | rfl | (simp; done))
    | (simp; done)

def execBRepairMask : Nat :=
  headCmdMask ||| settleMask

theorem execBRepair_touch {msk : Nat} {f : LineFrame} {s : State} (hm : Sub execBRepairMask msk) (hr : s.cmd.rest = [] ∨ Sub State.tabFlushMask msk) : TouchOut msk s (execBRepair f s) := by
  unfold execBRepair
  try dsimp only
  repeat' (with_reducible first
    | assumption
    | exact TouchOut.fault
    | apply TouchOut.done
    | apply headCmd_touch
    | exact Touch.refl
    | intro _
    | apply bRepairLine_touch)
  all_goals with_reducible first
    | exact .inr rfl
    | exact Sub.trans (b := execBRepairMask) (by decide +kernel) hm
    | exact Has.sub (a := execBRepairMask) (by decide +kernel) hm
    | exact .inl (Has.sub (a := execBRepairMask) (by decide +kernel) hm)
    | exact Has.at (by decide) (Has.sub (a := execBRepairMask) (by decide +kernel) hm)
    | exact Has.cell (by decide) (Has.sub (a := execBRepairMask) (by decide +kernel) hm)
    | exact Has.cellNext (by decide) (Has.sub (a := execBRepairMask) (by decide +kernel) hm)
    | exact Has.ite (Has.sub (a := execBRepairMask) (by decide +kernel) hm) (Has.sub (a := execBRepairMask) (by decide +kernel) hm)
    | exact .inr (fun _ => rfl)
    | (intro _; rfl)
    | (intro _; simp; done)
    | (simp; assumption)
    | (refine .inr (fun _ => ?_); simp; done)
    | (refine .inr (fun _ => ?_); (repeat' split) <;> first | rfl | (simp; done))
    | (simp; done)

def execBCommitMask : Nat :=
  bCommitLineMask ||| headCmdMask ||| settleMask

theorem execBCommit_touch {msk : Nat} {f : LineFrame} {s : State} (hm : Sub execBCommitMask msk) (hr : s.cmd.rest = [] ∨ Sub State.tabFlushMask msk) : TouchOut msk s (execBCommit f s) := by
  unfold execBCommit
  try dsimp only
  repeat' (with_reducible first
    | assumption
    | exact TouchOut.fault
    | apply TouchOut.done
    | apply headCmd_touch
    | exact Touch.refl
    | intro _
    | apply bCommitLine_touch)
  all_goals with_reducible first
    | exact .inr rfl
    | exact Sub.trans (b := execBCommitMask) (by decide +kernel) hm
    | exact Has.sub (a := execBCommitMask) (by decide +kernel) hm
    | exact .inl (Has.sub (a := execBCommitMask) (by decide +kernel) hm)
    | exact Has.at (by decide) (Has.sub (a := execBCommitMask) (by decide +kernel) hm)
    | exact Has.cell (by decide) (Has.sub (a := execBCommitMask) (by decide +kernel) hm)
    | exact Has.cellNext (by decide) (Has.sub (a := execBCommitMask) (by decide +kernel) hm)
    | exact Has.ite (Has.sub (a := execBCommitMask) (by decide +kernel) hm) (Has.sub (a := execBCommitMask) (by decide +kernel) hm)
    | exact .inr (fun _ => rfl)
    | (intro _; rfl)
    | (intro _; simp; done)
    | (simp; assumption)
    | (refine .inr (fun _ => ?_); simp; done)
    | (refine .inr (fun _ => ?_); (repeat' split) <;> first | rfl | (simp; done))
    | (simp; done)

def execBAbortMask : Nat :=
  bAbortLineMask ||| headCmdMask ||| settleMask

theorem execBAbort_touch {msk : Nat} {f : LineFrame} {s : State} (hm : Sub execBAbortMask msk) (hr : s.cmd.rest = [] ∨ Sub State.tabFlushMask msk) : TouchOut msk s (execBAbort f s) := by
  unfold execBAbort
  try dsimp only
  repeat' (with_reducible first
    | assumption
    | exact TouchOut.fault
    | apply TouchOut.done
    | apply headCmd_touch
    | exact Touch.refl
    | intro _
    | apply bAbortLine_touch)
  all_goals with_reducible first
    | exact .inr rfl
    | exact Sub.trans (b := execBAbortMask) (by decide +kernel) hm
    | exact Has.sub (a := execBAbortMask) (by decide +kernel) hm
    | exact .inl (Has.sub (a := execBAbortMask) (by decide +kernel) hm)
    | exact Has.at (by decide) (Has.sub (a := execBAbortMask) (by decide +kernel) hm)
    | exact Has.cell (by decide) (Has.sub (a := execBAbortMask) (by decide +kernel) hm)
    | exact Has.cellNext (by decide) (Has.sub (a := execBAbortMask) (by decide +kernel) hm)
    | exact Has.ite (Has.sub (a := execBAbortMask) (by decide +kernel) hm) (Has.sub (a := execBAbortMask) (by decide +kernel) hm)
    | exact .inr (fun _ => rfl)
    | (intro _; rfl)
    | (intro _; simp; done)
    | (simp; assumption)
    | (refine .inr (fun _ => ?_); simp; done)
    | (refine .inr (fun _ => ?_); (repeat' split) <;> first | rfl | (simp; done))
    | (simp; done)

def execBCommitDoneMask : Nat :=
  State.bundleDoneMask ||| settleMask

theorem execBCommitDone_touch {msk : Nat} {s : State} (hm : Sub execBCommitDoneMask msk) : TouchOut msk s (execBCommitDone s) := by
  unfold execBCommitDone
  try dsimp only
  repeat' (with_reducible first
    | assumption
    | exact TouchOut.fault
    | apply TouchOut.done
    | exact Touch.refl
    | intro _
    | apply State.bundleDone_touch)
  all_goals with_reducible first
    | exact .inr rfl
    | exact Sub.trans (b := execBCommitDoneMask) (by decide +kernel) hm
    | exact Has.sub (a := execBCommitDoneMask) (by decide +kernel) hm
    | exact .inl (Has.sub (a := execBCommitDoneMask) (by decide +kernel) hm)
    | exact Has.at (by decide) (Has.sub (a := execBCommitDoneMask) (by decide +kernel) hm)
    | exact Has.cell (by decide) (Has.sub (a := execBCommitDoneMask) (by decide +kernel) hm)
    | exact Has.cellNext (by decide) (Has.sub (a := execBCommitDoneMask) (by decide +kernel) hm)
    | exact Has.ite (Has.sub (a := execBCommitDoneMask) (by decide +kernel) hm) (Has.sub (a := execBCommitDoneMask) (by decide +kernel) hm)
    | exact .inr (fun _ => rfl)
    | (intro _; rfl)
    | (intro _; simp; done)
    | (simp; assumption)
    | (refine .inr (fun _ => ?_); simp; done)
    | (refine .inr (fun _ => ?_); (repeat' split) <;> first | rfl | (simp; done))
    | (simp; done)

def execBundleApplyResetMask : Nat :=
  State.softResetMask ||| settleMask

theorem execBundleApplyReset_touch {msk : Nat} {s : State} (hm : Sub execBundleApplyResetMask msk) : TouchOut msk s (execBundleApplyReset s) := by
  unfold execBundleApplyReset
  try dsimp only
  repeat' (with_reducible first
    | assumption
    | exact TouchOut.fault
    | apply TouchOut.done
    | exact Touch.refl
    | intro _
    | apply State.softReset_touch
    | apply Touch.ite
    | split)
  all_goals with_reducible first
    | exact .inr rfl
    | exact Sub.trans (b := execBundleApplyResetMask) (by decide +kernel) hm
    | exact Has.sub (a := execBundleApplyResetMask) (by decide +kernel) hm
    | exact .inl (Has.sub (a := execBundleApplyResetMask) (by decide +kernel) hm)
    | exact Has.at (by decide) (Has.sub (a := execBundleApplyResetMask) (by decide +kernel) hm)
    | exact Has.cell (by decide) (Has.sub (a := execBundleApplyResetMask) (by decide +kernel) hm)
    | exact Has.cellNext (by decide) (Has.sub (a := execBundleApplyResetMask) (by decide +kernel) hm)
    | exact Has.ite (Has.sub (a := execBundleApplyResetMask) (by decide +kernel) hm) (Has.sub (a := execBundleApplyResetMask) (by decide +kernel) hm)
    | exact .inr (fun _ => rfl)
    | (intro _; rfl)
    | (intro _; simp; done)
    | (simp; assumption)
    | (refine .inr (fun _ => ?_); simp; done)
    | (refine .inr (fun _ => ?_); (repeat' split) <;> first | rfl | (simp; done))
    | (simp; done)

def execProofMask : Nat :=
  proofLineMask ||| headCmdMask ||| settleMask

theorem execProof_touch {msk : Nat} {f : LineFrame} {s : State} (hm : Sub execProofMask msk) (hr : s.cmd.rest = [] ∨ Sub State.tabFlushMask msk) : TouchOut msk s (execProof f s) := by
  unfold execProof
  try dsimp only
  repeat' (with_reducible first
    | assumption
    | exact TouchOut.fault
    | apply TouchOut.done
    | apply headCmd_touch
    | exact Touch.refl
    | intro _
    | apply proofLine_touch)
  all_goals with_reducible first
    | exact .inr rfl
    | exact Sub.trans (b := execProofMask) (by decide +kernel) hm
    | exact Has.sub (a := execProofMask) (by decide +kernel) hm
    | exact .inl (Has.sub (a := execProofMask) (by decide +kernel) hm)
    | exact Has.at (by decide) (Has.sub (a := execProofMask) (by decide +kernel) hm)
    | exact Has.cell (by decide) (Has.sub (a := execProofMask) (by decide +kernel) hm)
    | exact Has.cellNext (by decide) (Has.sub (a := execProofMask) (by decide +kernel) hm)
    | exact Has.ite (Has.sub (a := execProofMask) (by decide +kernel) hm) (Has.sub (a := execProofMask) (by decide +kernel) hm)
    | exact .inr (fun _ => rfl)
    | (intro _; rfl)
    | (intro _; simp; done)
    | (simp; assumption)
    | (refine .inr (fun _ => ?_); simp; done)
    | (refine .inr (fun _ => ?_); (repeat' split) <;> first | rfl | (simp; done))
    | (simp; done)

def execProofSignDoneMask : Nat :=
  State.proofDoneMask ||| settleMask

theorem execProofSignDone_touch {msk : Nat} {s : State} (hm : Sub execProofSignDoneMask msk) : TouchOut msk s (execProofSignDone s) := by
  unfold execProofSignDone
  try dsimp only
  repeat' (with_reducible first
    | assumption
    | exact TouchOut.fault
    | apply TouchOut.done
    | exact Touch.refl
    | intro _
    | apply State.proofDone_touch)
  all_goals with_reducible first
    | exact .inr rfl
    | exact Sub.trans (b := execProofSignDoneMask) (by decide +kernel) hm
    | exact Has.sub (a := execProofSignDoneMask) (by decide +kernel) hm
    | exact .inl (Has.sub (a := execProofSignDoneMask) (by decide +kernel) hm)
    | exact Has.at (by decide) (Has.sub (a := execProofSignDoneMask) (by decide +kernel) hm)
    | exact Has.cell (by decide) (Has.sub (a := execProofSignDoneMask) (by decide +kernel) hm)
    | exact Has.cellNext (by decide) (Has.sub (a := execProofSignDoneMask) (by decide +kernel) hm)
    | exact Has.ite (Has.sub (a := execProofSignDoneMask) (by decide +kernel) hm) (Has.sub (a := execProofSignDoneMask) (by decide +kernel) hm)
    | exact .inr (fun _ => rfl)
    | (intro _; rfl)
    | (intro _; simp; done)
    | (simp; assumption)
    | (refine .inr (fun _ => ?_); simp; done)
    | (refine .inr (fun _ => ?_); (repeat' split) <;> first | rfl | (simp; done))
    | (simp; done)

def execCertMask : Nat :=
  headCmdMask ||| settleMask

theorem execCert_touch {msk : Nat} {f : LineFrame} {s : State} (hm : Sub execCertMask msk) (hr : s.cmd.rest = [] ∨ Sub State.tabFlushMask msk) : TouchOut msk s (execCert f s) := by
  unfold execCert
  try dsimp only
  repeat' (with_reducible first
    | assumption
    | exact TouchOut.fault
    | apply TouchOut.done
    | apply headCmd_touch
    | exact Touch.refl
    | intro _
    | apply certLine_touch)
  all_goals with_reducible first
    | exact .inr rfl
    | exact Sub.trans (b := execCertMask) (by decide +kernel) hm
    | exact Has.sub (a := execCertMask) (by decide +kernel) hm
    | exact .inl (Has.sub (a := execCertMask) (by decide +kernel) hm)
    | exact Has.at (by decide) (Has.sub (a := execCertMask) (by decide +kernel) hm)
    | exact Has.cell (by decide) (Has.sub (a := execCertMask) (by decide +kernel) hm)
    | exact Has.cellNext (by decide) (Has.sub (a := execCertMask) (by decide +kernel) hm)
    | exact Has.ite (Has.sub (a := execCertMask) (by decide +kernel) hm) (Has.sub (a := execCertMask) (by decide +kernel) hm)
    | exact .inr (fun _ => rfl)
    | (intro _; rfl)
    | (intro _; simp; done)
    | (simp; assumption)
    | (refine .inr (fun _ => ?_); simp; done)
    | (refine .inr (fun _ => ?_); (repeat' split) <;> first | rfl | (simp; done))
    | (simp; done)

def execRecorderTakeMask : Nat :=
  State.recorderTakeMask ||| settleMask

theorem execRecorderTake_touch {msk : Nat} {s : State} (hm : Sub execRecorderTakeMask msk) : TouchOut msk s (execRecorderTake s) := by
  unfold execRecorderTake
  try dsimp only
  repeat' (with_reducible first
    | assumption
    | exact TouchOut.fault
    | apply TouchOut.done
    | exact Touch.refl
    | intro _
    | apply State.recorderTake_touch)
  all_goals with_reducible first
    | exact .inr rfl
    | exact Sub.trans (b := execRecorderTakeMask) (by decide +kernel) hm
    | exact Has.sub (a := execRecorderTakeMask) (by decide +kernel) hm
    | exact .inl (Has.sub (a := execRecorderTakeMask) (by decide +kernel) hm)
    | exact Has.at (by decide) (Has.sub (a := execRecorderTakeMask) (by decide +kernel) hm)
    | exact Has.cell (by decide) (Has.sub (a := execRecorderTakeMask) (by decide +kernel) hm)
    | exact Has.cellNext (by decide) (Has.sub (a := execRecorderTakeMask) (by decide +kernel) hm)
    | exact Has.ite (Has.sub (a := execRecorderTakeMask) (by decide +kernel) hm) (Has.sub (a := execRecorderTakeMask) (by decide +kernel) hm)
    | exact .inr (fun _ => rfl)
    | (intro _; rfl)
    | (intro _; simp; done)
    | (simp; assumption)
    | (refine .inr (fun _ => ?_); simp; done)
    | (refine .inr (fun _ => ?_); (repeat' split) <;> first | rfl | (simp; done))
    | (simp; done)

def execAlarmGapEndMask : Nat :=
  State.alarmGapEndMask ||| settleMask

theorem execAlarmGapEnd_touch {msk : Nat} {b : Fin 13} {s : State} (hm : Sub execAlarmGapEndMask msk) : TouchOut msk s (execAlarmGapEnd b s) := by
  unfold execAlarmGapEnd
  try dsimp only
  repeat' (with_reducible first
    | assumption
    | exact TouchOut.fault
    | apply TouchOut.done
    | exact Touch.refl
    | intro _
    | apply State.alarmGapEnd_touch)
  all_goals with_reducible first
    | exact .inr rfl
    | exact Sub.trans (b := execAlarmGapEndMask) (by decide +kernel) hm
    | exact Has.sub (a := execAlarmGapEndMask) (by decide +kernel) hm
    | exact .inl (Has.sub (a := execAlarmGapEndMask) (by decide +kernel) hm)
    | exact Has.at (by decide) (Has.sub (a := execAlarmGapEndMask) (by decide +kernel) hm)
    | exact Has.cell (by decide) (Has.sub (a := execAlarmGapEndMask) (by decide +kernel) hm)
    | exact Has.cellNext (by decide) (Has.sub (a := execAlarmGapEndMask) (by decide +kernel) hm)
    | exact Has.ite (Has.sub (a := execAlarmGapEndMask) (by decide +kernel) hm) (Has.sub (a := execAlarmGapEndMask) (by decide +kernel) hm)
    | exact .inr (fun _ => rfl)
    | (intro _; rfl)
    | (intro _; simp; done)
    | (simp; assumption)
    | (refine .inr (fun _ => ?_); simp; done)
    | (refine .inr (fun _ => ?_); (repeat' split) <;> first | rfl | (simp; done))
    | (simp; done)

def execPeriodicReportMinuteMask : Nat :=
  State.minuteReportsMask ||| settleMask

theorem execPeriodicReportMinute_touch {msk : Nat} {s : State} (hm : Sub execPeriodicReportMinuteMask msk) : TouchOut msk s (execPeriodicReportMinute s) := by
  unfold execPeriodicReportMinute
  try dsimp only
  repeat' (with_reducible first
    | assumption
    | exact TouchOut.fault
    | apply TouchOut.done
    | exact Touch.refl
    | intro _
    | apply State.minuteReports_touch)
  all_goals with_reducible first
    | exact .inr rfl
    | exact Sub.trans (b := execPeriodicReportMinuteMask) (by decide +kernel) hm
    | exact Has.sub (a := execPeriodicReportMinuteMask) (by decide +kernel) hm
    | exact .inl (Has.sub (a := execPeriodicReportMinuteMask) (by decide +kernel) hm)
    | exact Has.at (by decide) (Has.sub (a := execPeriodicReportMinuteMask) (by decide +kernel) hm)
    | exact Has.cell (by decide) (Has.sub (a := execPeriodicReportMinuteMask) (by decide +kernel) hm)
    | exact Has.cellNext (by decide) (Has.sub (a := execPeriodicReportMinuteMask) (by decide +kernel) hm)
    | exact Has.ite (Has.sub (a := execPeriodicReportMinuteMask) (by decide +kernel) hm) (Has.sub (a := execPeriodicReportMinuteMask) (by decide +kernel) hm)
    | exact .inr (fun _ => rfl)
    | (intro _; rfl)
    | (intro _; simp; done)
    | (simp; assumption)
    | (refine .inr (fun _ => ?_); simp; done)
    | (refine .inr (fun _ => ?_); (repeat' split) <;> first | rfl | (simp; done))
    | (simp; done)

def execBenchStartMask : Nat :=
  State.benchStartMask ||| settleMask

theorem execBenchStart_touch {msk : Nat} {s : State} (hm : Sub execBenchStartMask msk) : TouchOut msk s (execBenchStart s) := by
  unfold execBenchStart
  try dsimp only
  repeat' (with_reducible first
    | assumption
    | exact TouchOut.fault
    | apply TouchOut.done
    | exact Touch.refl
    | intro _
    | apply State.benchStart_touch
    | apply Touch.ite
    | split)
  all_goals with_reducible first
    | exact .inr rfl
    | exact Sub.trans (b := execBenchStartMask) (by decide +kernel) hm
    | exact Has.sub (a := execBenchStartMask) (by decide +kernel) hm
    | exact .inl (Has.sub (a := execBenchStartMask) (by decide +kernel) hm)
    | exact Has.at (by decide) (Has.sub (a := execBenchStartMask) (by decide +kernel) hm)
    | exact Has.cell (by decide) (Has.sub (a := execBenchStartMask) (by decide +kernel) hm)
    | exact Has.cellNext (by decide) (Has.sub (a := execBenchStartMask) (by decide +kernel) hm)
    | exact Has.ite (Has.sub (a := execBenchStartMask) (by decide +kernel) hm) (Has.sub (a := execBenchStartMask) (by decide +kernel) hm)
    | exact .inr (fun _ => rfl)
    | (intro _; rfl)
    | (intro _; simp; done)
    | (simp; assumption)
    | (refine .inr (fun _ => ?_); simp; done)
    | (refine .inr (fun _ => ?_); (repeat' split) <;> first | rfl | (simp; done))
    | (simp; done)

def execEventFabricPulseMask : Nat :=
  State.fabricPulseMask ||| settleMask

theorem execEventFabricPulse_touch {msk : Nat} {src : Byte} {s : State} (hm : Sub execEventFabricPulseMask msk) : TouchOut msk s (execEventFabricPulse src s) := by
  unfold execEventFabricPulse
  try dsimp only
  repeat' (with_reducible first
    | assumption
    | exact TouchOut.fault
    | apply TouchOut.done
    | exact Touch.refl
    | intro _
    | apply State.fabricPulse_touch
    | apply Touch.ite
    | split)
  all_goals with_reducible first
    | exact .inr rfl
    | exact Sub.trans (b := execEventFabricPulseMask) (by decide +kernel) hm
    | exact Has.sub (a := execEventFabricPulseMask) (by decide +kernel) hm
    | exact .inl (Has.sub (a := execEventFabricPulseMask) (by decide +kernel) hm)
    | exact Has.at (by decide) (Has.sub (a := execEventFabricPulseMask) (by decide +kernel) hm)
    | exact Has.cell (by decide) (Has.sub (a := execEventFabricPulseMask) (by decide +kernel) hm)
    | exact Has.cellNext (by decide) (Has.sub (a := execEventFabricPulseMask) (by decide +kernel) hm)
    | exact Has.ite (Has.sub (a := execEventFabricPulseMask) (by decide +kernel) hm) (Has.sub (a := execEventFabricPulseMask) (by decide +kernel) hm)
    | exact .inr (fun _ => rfl)
    | (intro _; rfl)
    | (intro _; simp; done)
    | (simp; assumption)
    | (refine .inr (fun _ => ?_); simp; done)
    | (refine .inr (fun _ => ?_); (repeat' split) <;> first | rfl | (simp; done))
    | (simp; done)

def execFadeTickMask : Nat :=
  State.fadeTickMask ||| settleMask

theorem execFadeTick_touch {msk : Nat} {s : State} (hm : Sub execFadeTickMask msk) : TouchOut msk s (execFadeTick s) := by
  unfold execFadeTick
  try dsimp only
  repeat' (with_reducible first
    | assumption
    | exact TouchOut.fault
    | apply TouchOut.done
    | exact Touch.refl
    | intro _
    | apply State.fadeTick_touch
    | apply Touch.ite
    | split)
  all_goals with_reducible first
    | exact .inr rfl
    | exact Sub.trans (b := execFadeTickMask) (by decide +kernel) hm
    | exact Has.sub (a := execFadeTickMask) (by decide +kernel) hm
    | exact .inl (Has.sub (a := execFadeTickMask) (by decide +kernel) hm)
    | exact Has.at (by decide) (Has.sub (a := execFadeTickMask) (by decide +kernel) hm)
    | exact Has.cell (by decide) (Has.sub (a := execFadeTickMask) (by decide +kernel) hm)
    | exact Has.cellNext (by decide) (Has.sub (a := execFadeTickMask) (by decide +kernel) hm)
    | exact Has.ite (Has.sub (a := execFadeTickMask) (by decide +kernel) hm) (Has.sub (a := execFadeTickMask) (by decide +kernel) hm)
    | exact .inr (fun _ => rfl)
    | (intro _; rfl)
    | (intro _; simp; done)
    | (simp; assumption)
    | (refine .inr (fun _ => ?_); simp; done)
    | (refine .inr (fun _ => ?_); (repeat' split) <;> first | rfl | (simp; done))
    | (simp; done)

end Sys2Proof.Machine
end

