-- ==== Sys2Proof/Tests/Slice0.lean ====
section
/-! SUPPORT. Tests of the model: the operands' checks, functions on their standards' vectors, the worked examples of
the spec, single commands; and for each statement with hypotheses, operands and a state that meet them, one for each
clause (theorems hyps_<statement>). Witnesses are left out for the clauses that need a value of an opaque constant: an
accepted protected frame (Config.root), a certificate range (Config.certLen), an accepted bundle. -/

open Sys2Proof Sys2Proof.Machine

namespace Sys2Proof.Tests

set_option Elab.async false
set_option linter.unusedVariables false

/-! Words and operands. -/

theorem test_no_word_spells_a_command : decodeTableWord 16 0x1234 = none := rfl
theorem test_withFetchWord_leaves_the_state : State.reset.withFetchWord 16 0x1234 = State.reset := rfl
theorem test_wf_longest_frame : (Instr.frameReceive true (List.replicate 256 0)).wf = true := by decide +kernel
theorem test_wf_refuses_a_longer_frame : (Instr.frameReceive true (List.replicate 257 0)).wf = false := by decide +kernel
theorem test_wf_longest_payload : (Instr.setCmd { args := List.replicate 219 0 }).wf = true := by decide +kernel
theorem test_wf_refuses_a_longer_payload : (Instr.setCmd { args := List.replicate 220 0 }).wf = false := by decide +kernel

/-! Functions the spec names, on the vectors of their standards (FIPS 180-4, FIPS 197, RFC 3720). -/

theorem test_sha256_abc : ofBytes (sha256 [0x61, 0x62, 0x63]) =
    0xba7816bf8f01cfea414140de5dae2223b00361a396177a9cb410ff61f20015ad := by decide +kernel
theorem test_aes128_fips197 :
    ofBytes (aesEnc (toBytes 16 0x000102030405060708090a0b0c0d0e0f) (toBytes 16 0x00112233445566778899aabbccddeeff)) =
      0x69c4e0d86a7b0430d8cdb78070b4c55a := by decide +kernel

/-! Worked examples of the spec. -/

/-- 04_fades_plates_schedules.md, the example under R78: ticks 500 and 1000 of a 2000-tick fade on CT1. -/
def fadeEx (n : Nat) : Shown :=
  mixShown { b := 10000, c := { cct := true, x := 2700, y := 0 } } { b := 50000, c := { cct := true, x := 4000, y := 0 } }
    (contourVal (romContour 1) n 2000)
theorem test_fade_example_500 : (fadeEx 500).b = 16250 ∧ (fadeEx 500).c.x = 2844 := by decide +kernel
theorem test_fade_example_1000 : (fadeEx 1000).b = 30000 ∧ (fadeEx 1000).c.x = 3224 := by decide +kernel

/-- 04_fades_plates_schedules.md, the example under R91: a plate entry of 2701 K with fade word 0xC003. -/
theorem test_plate_example :
    (plateEntry [0x8000, 0x185C, 0x9000, 0xC003] 0 none 0 none).map (fun r => (r.b, r.c.cct, r.c.x, r.c.y, r.t, r.k)) =
      some (32768, true, 2701, 0, 0xC003, 1) := by decide +kernel

/-- 03_lamps_and_colour.md, the examples under R57 (18.42 %) and R64 (the TRIO and QUAD solves). -/
theorem test_lightness_example : (lawY [] 0 32768 * 100000).floor = 18419 := by decide +kernel
/-- The same file, the example under R60, to one unit of its last digit: the table at 4000 K and 2700 K. -/
def near (a b : Rat) : Bool := decide (a - b ≤ 1 / 10000) && decide (b - a ≤ 1 / 10000)
theorem test_cct_example :
    (near (cctUV 4000 0).1.u (2251 / 10000) && near (cctUV 4000 0).1.v (5016 / 10000) &&
      near (cctUV 2700 0).1.u (2625 / 10000) && near (cctUV 2700 0).1.v (5274 / 10000)) = true := by decide +kernel
def red : Emitter := { p := { u := 54 / 100, v := 52 / 100 }, flux := 400 }
def green : Emitter := { p := { u := 6 / 100, v := 57 / 100 }, flux := 800 }
def blue : Emitter := { p := { u := 18 / 100, v := 11 / 100 }, flux := 100 }
def white : Emitter := { p := { u := 23 / 100, v := 505 / 1000 }, flux := 1000 }
theorem test_trio_example :
    (shares 3 [red, green, blue] { u := 1 / 3, v := 1 / 3 } { u := 2251 / 10000, v := 5016 / 10000 }).1.map
      (fun x => (x * 10000 + 1 / 2).floor) = [3269, 6480, 251] := by decide +kernel
theorem test_quad_example :
    (shares 4 [red, green, blue, white] white.p { u := 2625 / 10000, v := 5274 / 10000 }).1.map
      (fun x => (x * 1000 + 1 / 2).floor) = [257, 307, 0, 435] := by decide +kernel

/-- The check values of CRC-16 with 0x1021 from 0xFFFF and of CRC-32 on "123456789". -/
theorem test_crc16_check : crc16 [0x31, 0x32, 0x33, 0x34, 0x35, 0x36, 0x37, 0x38, 0x39] = 0x29B1 := by decide +kernel
theorem test_crc32_check : crc32 [0x31, 0x32, 0x33, 0x34, 0x35, 0x36, 0x37, 0x38, 0x39] = 0xCBF43926 := by decide +kernel

/-! Single steps on small states. -/

/-- The node in LIT with its host port up, with nothing else done. -/
def up : State := { pwr := { boot := 7 } }
/-- What one step leaves, looked at by `f`. -/
def after {α : Type} (c : Instr) (s : State) (f : State → α) : Option α :=
  match step { s with pending := [c] } with
  | .next t => some (f t)
  | _ => none

/-- 02_register_model.md, the example under R29: the LO half of network time latches the HI half. -/
theorem test_pair_read_example :
    after (.pairLoRead .host 0x10) { up with host := { page := 12 }, tim := { now := 0x0001FFFF * 2 ^ 72 } }
      (fun t => (t.host.last, t.host.latch)) = some (0xFFFF, 1) := by decide +kernel
theorem test_unlock_needs_the_first_word : after (.unlockWrite .host 0xC3E8) up (fun t => t.host.opened) = some false := by decide +kernel
theorem test_unlock_opens : after (.unlockWrite .host 0xC3E8) { up with host := { armed := true } } (fun t => t.host.opened) = some true := by
  decide +kernel
theorem test_go_sets_host : after (.go .host 1) up (fun t => (t.flag F.SYS_MODE_HOST, t.pwr.kick)) = some (true, 0x5A5A) := by decide +kernel
theorem test_reserved_page_faults :
    (match step { up with host := { page := 0x11 }, pending := [.registerWrite .host 4 0] } with
      | .fault .reservedPageWrite => true | _ => false) = true := by decide +kernel
theorem test_idle_counts_an_edge : (match step up with | .next t => t.cyc | _ => 0) = 1 := by decide +kernel

/-- The parts of Shape, decided. -/
theorem shaped (s : State) (h : (spWf regReset s.regs && Memory.wf s.vlt.flash && Memory.wf s.vlt.own && decide (s.q6.length ≤ 64) &&
    decide (s.pwm.chans.length = 16) && decide (s.fde.lamps.length = 8) && decide (s.hlt.chans.length = 16) &&
    decide (s.gtu.length = 8)) = true) : s.Shape := by
  simp only [Bool.and_eq_true, decide_eq_true_eq] at h
  obtain ⟨⟨⟨⟨⟨⟨⟨h1, h2⟩, h3⟩, h4⟩, h5⟩, h6⟩, h7⟩, h8⟩ := h
  exact ⟨h1, h2, h3, h4, h5, h6, h7, h8⟩

/-- A witness that the state of all reset values meets what is asked. -/
theorem atRest {P : State → Prop} (h : P {}) : ∃ s : State, s.Settled ∧ P s := ⟨{}, rfl, h⟩

/-! Witnesses of the clauses that want a particular state. -/

/-- The node in operation. -/
def node : State := { regs := [(R.MAC_SHORT, 5)], pwr := { boot := 6 } }

/-- The node with its commit buffer full. -/
def full : State := { node with vlt := { buf := List.replicate 4 (.legWrite []) ++ [.record 0 [0, 0, 0, 0, 0, 0]] } }

/-- The node with its host path unlocked. -/
def open_ (s : State) : State := { s with host := { s.host with opened := true, regOpen := [0, 1, 2] } }

/-- A command frame of key class `cls` from the head, with tag 0 and these arguments. -/
def cmdOf (cls : Nat) (args : List Byte) : LineFrame :=
  { src := 0x3FF, kid := BitVec.ofNat 8 (32 * cls), args := 0 :: args }

theorem hyps_BundlesAreTransferredAndCommitted_more :
    (∃ (s : State) (f : LineFrame), s.Settled ∧ s.passes 0x80 [clsNet] true f = true ∧ (f.args.drop 1).length = 5 ∧
      1 ≤ numAt (f.args.drop 1) 1 4 ∧ numAt (f.args.drop 1) 1 4 ≤ 65536 ∧
      (s.took 0x80 f).bxferIs (numAt (f.args.drop 1) 0 1) = true) ∧
    (∃ (s : State) (f : LineFrame), s.Settled ∧ s.passes 0x80 [clsNet] true f = true ∧ (f.args.drop 1).length = 5 ∧
      1 ≤ numAt (f.args.drop 1) 1 4 ∧ numAt (f.args.drop 1) 1 4 ≤ 65536 ∧
      (s.took 0x80 f).bxferIs (numAt (f.args.drop 1) 0 1) = false ∧ (s.took 0x80 f).fld F.CMD_STAT_BST ≠ 0) ∧
    (∃ (s : State) (f : LineFrame), s.Settled ∧ s.passes 0x80 [clsNet] true f = true ∧ (f.args.drop 1).length = 5 ∧
      1 ≤ numAt (f.args.drop 1) 1 4 ∧ numAt (f.args.drop 1) 1 4 ≤ 65536 ∧
      (s.took 0x80 f).fld F.CMD_STAT_BST = 0 ∧ (s.took 0x80 f).vRoom 58 = false) ∧
    (∃ (s : State) (f : LineFrame), s.Settled ∧ s.passes 0x80 [clsNet] true f = true ∧ (f.args.drop 1).length = 5 ∧
      1 ≤ numAt (f.args.drop 1) 1 4 ∧ numAt (f.args.drop 1) 1 4 ≤ 65536 ∧
      (s.took 0x80 f).fld F.CMD_STAT_BST = 0 ∧ (s.took 0x80 f).vRoom 58 = true) ∧
    (∃ (s : State) (f : LineFrame), s.Settled ∧ s.passes 0x81 [clsNet] true f = true ∧ 3 ≤ (f.args.drop 1).length ∧
      (s.took 0x81 f).bxferIs (numAt (f.args.drop 1) 0 1) = true ∧ (s.took 0x81 f).fld F.CMD_STAT_BST = 1 ∧
      numAt (f.args.drop 1) 1 2 < blockCount ((s.took 0x81 f).pair R.CMD_BLEN_LO) ∧
      ((f.args.drop 1).length = 3 +
        if numAt (f.args.drop 1) 1 2 + 1 = blockCount ((s.took 0x81 f).pair R.CMD_BLEN_LO) then
          (s.took 0x81 f).pair R.CMD_BLEN_LO - 192 * numAt (f.args.drop 1) 1 2 else 192) ∧
      numAt (f.args.drop 1) 1 2 ∉ (s.took 0x81 f).cmd.got) ∧
    (∃ (s : State) (f : LineFrame), s.Settled ∧ s.passes 0x83 [clsNet] true f = true ∧ (f.args.drop 1).length = 1 ∧
      (s.took 0x83 f).signBusy = false ∧ (s.took 0x83 f).bxferIs (numAt (f.args.drop 1) 0 1) = true ∧
      (s.took 0x83 f).fld F.CMD_STAT_BST = 2) :=
  ⟨⟨(node.setFld F.CMD_STAT_BST 1).setFld F.CMD_BHDL_HDL 7, cmdOf 0 [7, 0, 0, 0, 1], rfl, by decide +kernel⟩,
   ⟨(node.setFld F.CMD_STAT_BST 1).setFld F.CMD_BHDL_HDL 7, cmdOf 0 [8, 0, 1, 0, 0], rfl, by decide +kernel⟩,
   ⟨full, cmdOf 0 [8, 0, 1, 0, 0], rfl, by decide +kernel⟩,
   ⟨node, cmdOf 0 [8, 0, 1, 0, 0], rfl, by decide +kernel⟩,
   ⟨((node.setFld F.CMD_STAT_BST 1).setFld F.CMD_BHDL_HDL 7).setPair R.CMD_BLEN_LO 194, cmdOf 0 [7, 0, 1, 9, 9], rfl,
     by decide +kernel⟩,
   ⟨(node.setFld F.CMD_STAT_BST 2).setFld F.CMD_BHDL_HDL 7, cmdOf 0 [7], rfl, by decide +kernel⟩⟩

theorem hyps_ConfigurationCommandsWrite_more :
    (∃ (s : State) (f : LineFrame), s.Settled ∧ s.passes 0x2B [clsAdmin] true f = true ∧ (f.args.drop 1).length = 1 ∧
      (numAt (f.args.drop 1) 0 1 = 6 ∨ numAt (f.args.drop 1) 0 1 = 7 ∨ numAt (f.args.drop 1) 0 1 = 8) ∧
      (s.took 0x2B f).vRoom 2 = false) ∧
    (∃ (s : State) (f : LineFrame), s.Settled ∧ s.passes 0x2C [clsAdmin] true f = true ∧ (f.args.drop 1).length = 65 ∧
      (s.took 0x2C f).vRoom 64 = false) ∧
    (∃ (s : State) (f : LineFrame), s.Settled ∧ s.passes 0x2C [clsAdmin] true f = true ∧ (f.args.drop 1).length = 65 ∧
      (s.took 0x2C f).vRoom 64 = true ∧ (plateFail (bytesWords ((f.args.drop 1).drop 1))).isNone = true) ∧
    (∃ (s : State) (f : LineFrame), s.Settled ∧ s.passes 0x2D [clsAdmin] true f = true ∧ (f.args.drop 1).length = 0 ∧
      (s.took 0x2D f).vRoom 2 = false) :=
  ⟨⟨full, cmdOf 2 [8], rfl, by decide +kernel⟩, ⟨full, cmdOf 2 (List.replicate 65 0), rfl, by decide +kernel⟩,
   ⟨node, cmdOf 2 (5 :: (List.replicate 8 [0, 0, 1, 0, 0, 0, 0, 0]).flatten), rfl, by decide +kernel⟩, ⟨full, cmdOf 2 [], rfl, by decide +kernel⟩⟩

theorem hyps_EnablesGateTheInterruptPin_more :
    (∃ (p : Path) (s : State), s.Settled ∧ s.pathUp p = true ∧ (s.path p).page = 0 ∧
      ∀ hi, (s.path p).stage ≠ some (s.pairTag 0 0x0A, hi)) ∧
    (∃ (p : Path) (s : State), s.Settled ∧ s.pathUp p = true ∧ (s.path p).page = 0 ∧
      ∃ hi, (s.path p).stage = some (s.pairTag 0 0x0A, hi)) :=
  ⟨⟨.host, node, rfl, by decide +kernel, by decide +kernel, by intro hi h; cases h⟩,
   ⟨.remote, { node with remote := { stage := some (node.pairTag 0 0x0A, 3) } }, rfl, by decide +kernel, by decide +kernel,
     3, by decide +kernel⟩⟩

theorem hyps_GoAndHold_more :
    (∃ (v : Word) (s : State), s.Settled ∧ s.pathUp .host = true ∧ v.getLsbD 0 = true ∧ softKey v = true) ∧
    (∃ (s : State) (p : Path) (v : Word), s.Settled ∧ s.pathUp p = true ∧ softKey v = true) :=
  ⟨⟨0xC503, node, rfl, by decide +kernel⟩, ⟨node, .remote, 0xC502, rfl, by decide +kernel⟩⟩

theorem hyps_HealthAndTables_more :
    (∃ (s : State) (p : Path), s.Settled ∧ s.Shape ∧ s.pathUp p = true ∧ s.unlocked p = true ∧ s.vRoom 2 = false) :=
  ⟨open_ full, .host, rfl, shaped _ (by decide +kernel), by decide +kernel⟩

theorem hyps_LampCommandsAsk_more :
    (∃ (s : State) (f : LineFrame), s.Settled ∧ s.passes 0 [clsNet, clsGroup] false f = true ∧
      (f.args.drop 1).length = 13 ∧ numAt (f.args.drop 1) 0 1 ≠ 0 ∧
      (BitVec.ofNat 16 (numAt (f.args.drop 1) 9 2)).toNat % 512 = 0) ∧
    (∃ (s : State) (f : LineFrame), s.Settled ∧ s.passes 1 [clsNet, clsGroup] false f = true ∧
      (f.args.drop 1).length = 19 ∧ numAt (f.args.drop 1) 0 1 ≠ 0 ∧ numAt (f.args.drop 1) 17 2 ≤ 999 ∧
      (BitVec.ofNat 16 (numAt (f.args.drop 1) 9 2)).toNat % 512 = 0) ∧
    (∃ (s : State) (f : LineFrame), s.Settled ∧ s.passes 1 [clsNet, clsGroup] false f = true ∧
      (f.args.drop 1).length = 19 ∧ 999 < numAt (f.args.drop 1) 17 2) ∧
    (∃ (s : State) (f : LineFrame), s.Settled ∧ s.passes 2 [clsNet, clsGroup] false f = true ∧
      (f.args.drop 1).length = 13 ∧ numAt (f.args.drop 1) 0 1 ≠ 0 ∧
      (BitVec.ofNat 16 (numAt (f.args.drop 1) 9 2)).toNat % 512 = 0) ∧
    (∃ (s : State) (f : LineFrame), s.Settled ∧ s.passes 8 [clsNet, clsGroup] false f = true ∧
      (f.args.drop 1).length = 10 ∧ (2 ≤ numAt (f.args.drop 1) 3 1 ∨ 999 < numAt (f.args.drop 1) 8 2 ∨
        (numAt (f.args.drop 1) 3 1 = 0 ∧ (numAt (f.args.drop 1) 4 4 ≠ 0 ∨ numAt (f.args.drop 1) 8 2 ≠ 0)))) ∧
    (∃ (s : State) (f : LineFrame), s.Settled ∧ s.passes 8 [clsNet, clsGroup] false f = true ∧
      (f.args.drop 1).length = 10 ∧ ¬ (2 ≤ numAt (f.args.drop 1) 3 1 ∨ 999 < numAt (f.args.drop 1) 8 2 ∨
        (numAt (f.args.drop 1) 3 1 = 0 ∧ (numAt (f.args.drop 1) 4 4 ≠ 0 ∨ numAt (f.args.drop 1) 8 2 ≠ 0)))) :=
  ⟨⟨node, cmdOf 1 (1 :: List.replicate 12 0), rfl, by decide +kernel⟩,
   ⟨node, cmdOf 1 (1 :: List.replicate 16 0 ++ [3, 0xE7]), rfl, by decide +kernel⟩,
   ⟨node, cmdOf 1 (1 :: List.replicate 16 0 ++ [3, 0xE8]), rfl, by decide +kernel⟩,
   ⟨node, cmdOf 0 (0xFF :: List.replicate 12 0), rfl, by decide +kernel⟩,
   ⟨node, cmdOf 0 [1, 0, 0, 2, 0, 0, 0, 0, 0, 0], rfl, by decide +kernel⟩,
   ⟨node, cmdOf 0 [1, 0, 0, 1, 0, 0, 0, 0, 3, 0xE7], rfl, by decide +kernel⟩⟩

/-- The opcode of each answered line command, the key classes it accepts and whether only the head may send it. -/
def lineRows : List (Nat × List Nat × Bool) :=
  [0x00, 0x01, 0x02, 0x03, 0x04, 0x05, 0x06, 0x08].map (fun o => (o, [clsNet, clsGroup], false)) ++
  [0x20, 0x21, 0x22, 0x23, 0x28, 0x29, 0x2A, 0x2B, 0x2C, 0x2D, 0x60, 0x61, 0x62].map (fun o => (o, [clsAdmin], true)) ++
  [0x40, 0x41, 0x42, 0x43, 0x44, 0x45, 0x46, 0x47, 0x48, 0x49, 0x72, 0x73, 0x74, 0x75, 0x78, 0x79, 0x7A, 0x80, 0x81,
    0x82, 0x83, 0x84, 0x90, 0x91].map (fun o => (o, [clsNet], true)) ++
  [0x76, 0x77, 0xAF].map (fun o => (o, [clsNet], false))

theorem hyps_LineCommandsAreCheckedInOrder :
    (∃ s : State, s.Settled ∧ s.cmdOn = false) ∧
    (∀ x ∈ lineRows, ∃ (s : State) (f : LineFrame), s.Settled ∧ s.cmdOn = true ∧
      (s.tabFlush.takeFrame x.1 f).2 = none) ∧
    (∀ x ∈ lineRows, ∃ (s : State) (f : LineFrame) (snr : Option (Nat × Nat)), s.Settled ∧
      (s.tabFlush.takeFrame x.1 f).2 = some (false, snr) ∧ s.cmdOn = true ∧ f.sec = false) ∧
    (∀ x ∈ lineRows, ∃ (s : State) (f : LineFrame) (snr : Option (Nat × Nat)), s.Settled ∧
      (s.tabFlush.takeFrame x.1 f).2 = some (false, snr) ∧ s.cmdOn = true ∧ f.sec = true ∧ f.typ ≠ 0) ∧
    (∀ x ∈ lineRows, ∃ (s : State) (f : LineFrame) (snr : Option (Nat × Nat)), s.Settled ∧
      (s.tabFlush.takeFrame x.1 f).2 = some (false, snr) ∧ s.cmdOn = true ∧ f.sec = true ∧ f.typ = 0 ∧
      x.2.1.contains (kidClass f.kid.toNat) = false) ∧
    (∀ x ∈ lineRows, x.2.2 = true → ∃ (s : State) (f : LineFrame) (snr : Option (Nat × Nat)), s.Settled ∧
      (s.tabFlush.takeFrame x.1 f).2 = some (false, snr) ∧ s.cmdOn = true ∧ f.sec = true ∧ f.typ = 0 ∧
      x.2.1.contains (kidClass f.kid.toNat) = true ∧ f.src.toNat ≠ (s.tabFlush.takeFrame x.1 f).1.fld F.MAC_HEAD_A) ∧
    (∀ x ∈ lineRows, ∃ (s : State) (f : LineFrame) (snr : Option (Nat × Nat)), s.Settled ∧
      (s.tabFlush.takeFrame x.1 f).2 = some (false, snr) ∧ s.cmdOn = true ∧ f.sec = true ∧ f.typ = 0 ∧
      x.2.1.contains (kidClass f.kid.toNat) = true ∧ f.src.toNat = (s.tabFlush.takeFrame x.1 f).1.fld F.MAC_HEAD_A ∧
      f.args = []) ∧
    (∀ x ∈ lineRows, ∃ (s : State) (f : LineFrame) (snr : Option (Nat × Nat)), s.Settled ∧
      (s.tabFlush.takeFrame x.1 f).2 = some (true, snr) ∧ s.cmdOn = true ∧ f.sec = false ∧ f.typ = 0 ∧
      f.args = []) := by
  let own (x : Nat × List Nat × Bool) : Byte := BitVec.ofNat 8 (32 * x.2.1.headD 0)
  refine ⟨atRest (by decide +kernel),
    fun x h => ⟨{ node with mac := { q0 := [{ f := cmdOf 0 [9] }] } }, { src := 7 }, rfl, ?_⟩,
    fun x h => ⟨node, { cmdOf 0 [] with sec := false }, none, rfl, ?_⟩,
    fun x h => ⟨node, { cmdOf 0 [] with typ := 1 }, none, rfl, ?_⟩, fun x h => ⟨node, cmdOf 4 [], none, rfl, ?_⟩,
    fun x h => ?_, fun x h => ⟨node, { src := 0x3FF, kid := own x }, none, rfl, ?_⟩,
    fun x h => ⟨node.setFld F.CMD_CTL_LOOP 1, { src := 5, sec := false }, none, rfl, ?_⟩⟩
  · revert x; decide +kernel
  · revert x; decide +kernel
  · revert x; decide +kernel
  · revert x; decide +kernel
  · intro hd
    refine ⟨node, { src := 7, kid := own x }, none, rfl, ?_⟩
    revert x; decide +kernel
  · revert x; decide +kernel
  · revert x; decide +kernel

theorem hyps_NetworkCommandsManageTheNode_more :
    (∃ (s : State) (f : LineFrame), s.Settled ∧ s.passes 0x72 [clsNet] true f = true ∧ (f.args.drop 1).length = 2 ∧
      1 ≤ numAt (f.args.drop 1) 0 2 ∧ numAt (f.args.drop 1) 0 2 ≤ 1022 ∧ toOne f = true ∧
      (s.replyTo 0x72 f).loop = false ∧ (s.took 0x72 f).isHead = false ∧ (s.took 0x72 f).ringFull 2 = false) ∧
    (∃ (s : State) (f : LineFrame), s.Settled ∧ s.passes 0x77 [clsNet] false f = true ∧
      (s.took 0x77 f).oneHop f = true ∧ f.src.toNat ∈ (s.took 0x77 f).mac.asked ∧ (f.args.drop 1).length = 81 ∧
      numAt (f.args.drop 1) 0 1 = 1) :=
  ⟨⟨node, cmdOf 0 [3, 0xFE], rfl, by decide +kernel⟩,
   ⟨{ node with mac := { asked := [0x3FF] } }, { cmdOf 0 (1 :: List.replicate 80 0) with hopdst := 5 }, rfl,
     by decide +kernel⟩⟩

theorem hyps_PairAccess_more :
    (∃ (p : Path) (off : BitVec 7) (s : State) (r h : RegDef), s.Settled ∧ s.pathUp p = true ∧ (s.path p).page < 17 ∧
      pairHi (s.path p).page off.toNat = true ∧ pairLo (s.path p).page off.toNat = false ∧
      regDef (s.path p).page off.toNat = some r ∧ h = r ∧
      (s.path p).latchTag = some (s.pairTag (s.path p).page (off.toNat - 1))) ∧
    (∃ (p : Path) (off : BitVec 7) (s : State) (r h : RegDef) (hi : Word), s.Settled ∧ s.pathUp p = true ∧
      (s.path p).page < 17 ∧ (s.path p).page ≠ 13 ∧ regDef (s.path p).page off.toNat = some r ∧
      pairLo (s.path p).page off.toNat = true ∧ pairHi (s.path p).page off.toNat = false ∧
      regDef (s.path p).page (off.toNat + 1) = some h ∧ r.count = 1 ∧ h.count = 1 ∧
      (s.path p).stage = some (s.pairTag (s.path p).page off.toNat, hi)) :=
  ⟨⟨.host, 0x0B, { node with host := { latchTag := some (node.pairTag 0 0x0A) } }, _, _, rfl, by decide +kernel,
      by decide +kernel, by decide +kernel, by decide +kernel, rfl, rfl, by decide +kernel⟩,
   ⟨.host, 0x0A, { node with host := { stage := some (node.pairTag 0 0x0A, 9) } }, _, _, 9, rfl, by decide +kernel,
      by decide +kernel, by decide +kernel, rfl, by decide +kernel, by decide +kernel, rfl, by decide +kernel⟩⟩

/-- The node with page CUR selected and the broadcast value in its select. -/
def allChans : State := { node.setFld (pageSel 5) 0x1F with host := { page := 5 } }

theorem hyps_PairReadsLatchTheHighHalf_broadcast :
    ∃ (p : Path) (off : BitVec 7) (s : State) (r h : RegDef), s.Settled ∧ s.pathUp p = true ∧
      regDef (s.path p).page off.toNat = some r ∧ pairLo (s.path p).page off.toNat = true ∧
      regDef (s.path p).page (off.toNat + 1) = some h ∧ broadcasts (s.path p).page = true ∧ r.count ≠ 1 ∧
      h.count = r.count ∧ s.select (s.path p).page = 0x1F :=
  ⟨.host, 40, allChans, _, _, rfl, by decide +kernel, rfl,
    by decide +kernel, rfl, by decide +kernel⟩

/-- The node as the acting head. -/
def heading : State := (node.setFld F.MAC_ROLE_ACT 3).setFld F.MAC_HEAD_A 5

theorem hyps_NetworkCommandsManageTheNode_grant :
    (∃ (s : State) (f : LineFrame), s.Settled ∧ s.passes 0x74 [clsNet] true f = true ∧ (f.args.drop 1).length = 5 ∧
      (s.took 0x74 f).isHead = true ∧ numAt (f.args.drop 1) 0 2 < 1023 ∧ numAt (f.args.drop 1) 2 1 ≤ 3 ∧
      1 ≤ numAt (f.args.drop 1) 4 1 ∧ numAt (f.args.drop 1) 4 1 ≤ 16 ∧ 4 ≤ numAt (f.args.drop 1) 3 1 ∧
      numAt (f.args.drop 1) 3 1 + numAt (f.args.drop 1) 4 1 ≤ 60 ∧
      (grantBits (s.took 0x74 f).mac.grants ||| (s.took 0x74 f).inheritedBits ||| courseBits 50 10) &&&
        courseBits (numAt (f.args.drop 1) 3 1) (numAt (f.args.drop 1) 4 1) = 0) ∧
    (∃ (s : State) (f : LineFrame), s.Settled ∧ s.passes 0x74 [clsNet] true f = true ∧ (f.args.drop 1).length = 5 ∧
      (s.took 0x74 f).isHead = true ∧ numAt (f.args.drop 1) 0 2 < 1023 ∧ numAt (f.args.drop 1) 2 1 ≤ 3 ∧
      1 ≤ numAt (f.args.drop 1) 4 1 ∧ numAt (f.args.drop 1) 4 1 ≤ 16 ∧ 4 ≤ numAt (f.args.drop 1) 3 1 ∧
      numAt (f.args.drop 1) 3 1 + numAt (f.args.drop 1) 4 1 ≤ 60 ∧
      (grantBits (s.took 0x74 f).mac.grants ||| (s.took 0x74 f).inheritedBits ||| courseBits 50 10) &&&
        courseBits (numAt (f.args.drop 1) 3 1) (numAt (f.args.drop 1) 4 1) ≠ 0) :=
  ⟨⟨heading, { cmdOf 0 [0, 9, 3, 4, 16] with src := 5 }, rfl, by decide +kernel⟩,
   ⟨heading, { cmdOf 0 [0, 9, 0, 44, 16] with src := 5 }, rfl, by decide +kernel⟩⟩

theorem hyps_ProofsAlarmsAndReports_more :
    ∃ (s : State) (f : LineFrame), s.Settled ∧ s.passes 0x90 [clsNet] true f = true ∧ (f.args.drop 1).length = 16 ∧
      (s.took 0x90 f).signBusy = true :=
  ⟨{ node with sec := { commit := some {} } }, cmdOf 0 (List.replicate 16 0), rfl, by decide +kernel⟩

theorem hyps_RemoteWrites_more :
    (∃ (s : State) (f : LineFrame) (code : Nat), s.Settled ∧ s.passes 0x61 [clsAdmin] true f = true ∧
      (f.args.drop 1).length = 6 ∧ blockOk (f.args.drop 1) = true ∧ numAt (f.args.drop 1) 2 1 = 1 ∧
      PlainRegister (numAt (f.args.drop 1) 0 1) (numAt (f.args.drop 1) 1 1) = true ∧
      (s.took 0x61 f).remoteMark (numAt (f.args.drop 1) 0 1) (numAt (f.args.drop 1) 1 1)
        (BitVec.ofNat 16 (numAt (f.args.drop 1) 4 2)) = some code) ∧
    (∃ (s : State) (f : LineFrame) (code : Nat), s.Settled ∧ s.passes 0x62 [clsAdmin] true f = true ∧
      (f.args.drop 1).length = 5 ∧ numAt (f.args.drop 1) 0 1 = 1 ∧
      PlainRegister (numAt (f.args.drop 1) 1 1) (numAt (f.args.drop 1) 2 1) = true ∧
      (s.took 0x62 f).remoteMark (numAt (f.args.drop 1) 1 1) (numAt (f.args.drop 1) 2 1)
        (BitVec.ofNat 16 (numAt (f.args.drop 1) 3 2)) = some code) :=
  ⟨⟨node, cmdOf 2 [1, 0x08, 1, 0, 0, 1], cLocked, rfl, by decide +kernel⟩,
   ⟨node, cmdOf 2 [1, 1, 0x08, 0, 1], cLocked, rfl, by decide +kernel⟩⟩

theorem hyps_RawRegionsPasswordsAndHatches_more :
    (∃ (p : Path) (s : State), s.Settled ∧ s.pathUp p = true ∧ s.rsel = 0 ∧ s.rawOpen p s.rsel = true ∧
      s.vlt.usrBuf ≠ [] ∧ s.vRoom 128 = false) ∧
    (∃ (p : Path) (s : State), s.Settled ∧ s.pathUp p = true ∧ s.unlocked p = true ∧ s.rsel = 0 ∧
      s.rawOpen p s.rsel = true ∧ (s.reg R.VLT_RADDR).toNat < 32768 ∧ s.vRoom 2 = false) ∧
    (∃ (p : Path) (s : State), s.Settled ∧ s.pathUp p = true ∧ s.rsel = 1 ∧ s.rawOpen p s.rsel = true ∧
      (legBusy s.vlt.buf = true ∨ s.vRoom 1020 = false)) ∧
    (∃ (p : Path) (s : State), s.Settled ∧ s.pathUp p = true ∧ s.unlocked p = true ∧ s.rawOpen p s.rsel = true ∧
      4 ≤ (s.path p).pwWords.length ∧ s.vRoom 19 = false) ∧
    (∃ (p : Path) (s : State), s.Settled ∧ s.pathUp p = true ∧ s.unlocked p = true ∧ s.rawOpen p s.rsel = true ∧
      4 ≤ (s.path p).pwWords.length ∧ s.vRoom 19 = true) ∧
    (∃ (p : Path) (s : State) (v : Word), s.Settled ∧ s.pathUp p = true ∧ s.keep.pwLock = false ∧
      (s.path p).pwWords.length = 3 ∧ ¬ s.rawOpen p s.rsel = true ∧
      pwOf ((s.path p).pwWords ++ [v]) = s.vlt.pw.getD s.rsel 0) :=
  ⟨⟨.host, open_ { full with vlt := { full.vlt with usrBuf := [(0, 7)] } }, rfl, by decide +kernel⟩,
   ⟨.host, open_ full, rfl, by decide +kernel⟩,
   ⟨.host, (open_ full).setFld F.VLT_RSEL_REG 1, rfl, by decide +kernel⟩,
   ⟨.host, open_ { full with host := { pwWords := [1, 2, 3, 4] } }, rfl, by decide +kernel⟩,
   ⟨.host, open_ { node with host := { pwWords := [1, 2, 3, 4] } }, rfl, by decide +kernel⟩,
   ⟨.host, { node with host := { pwWords := [0, 0, 0] }, vlt := { pw := [5, 0, 0] } }, 5, rfl, by decide +kernel⟩⟩

/-- The node running on the fallback oscillator with XO qualified. -/
def onIrc : State :=
  { node.setReg R.CLK_STAT 0 with clk := { good := true, fellBack := true } } |>.setFlag F.CLK_STAT_XOQ true
    |>.setFlag F.CLK_STAT_IRCON true

theorem hyps_ReferencesAreWatchedAndHandedOver_more :
    (∃ (s : State) (cnt : Word), s.Settled ∧ s.Shape ∧ s.coreOn = true ∧ s.flag F.CLK_STAT_IRCON = true ∧
      s.clk.ircSettling = false ∧ s.flag F.CLK_STAT_ROOTSRC = true ∧ 1004 ≤ cnt.toNat ∧ cnt.toNat ≤ 1044) ∧
    (∃ (s : State) (cnt : Word), s.Settled ∧ s.Shape ∧ s.coreOn = true ∧ s.flag F.CLK_STAT_IRCON = true ∧
      s.clk.ircSettling = false ∧ s.flag F.CLK_STAT_ROOTSRC = false ∧ s.clk.handover = false ∧ 1004 ≤ cnt.toNat ∧
      cnt.toNat ≤ 1044 ∧ s.clk.xoPrev = some (cnt.toNat + 1) ∧ s.clk.xoRun = 7) ∧
    (∃ (s : State) (cnt : Word), s.Settled ∧ s.Shape ∧ s.coreOn = true ∧ s.flag F.CLK_STAT_IRCON = true ∧
      s.clk.ircSettling = false ∧ s.flag F.CLK_STAT_ROOTSRC = false ∧ s.clk.handover = false ∧ 1004 ≤ cnt.toNat ∧
      cnt.toNat ≤ 1044 ∧ s.clk.xoPrev = none ∧ s.clk.xoRun ≠ 7) ∧
    (∃ (s : State) (cnt : Word), s.Settled ∧ s.Shape ∧ s.coreOn = true ∧ s.flag F.CLK_STAT_IRCON = true ∧
      s.clk.ircSettling = false ∧ s.flag F.CLK_STAT_KSRC = false ∧ 2940 ≤ cnt.toNat ∧ cnt.toNat ≤ 3060) ∧
    (∃ (s : State) (p : Path), s.Settled ∧ s.Shape ∧ s.pathUp p = true ∧ s.flag F.CLK_STAT_XOQ = true ∧
      s.flag F.CLK_STAT_ROOTSRC = false ∧ s.clk.handover = false ∧ s.clk.good = true ∧ s.clk.fellBack = true) ∧
    (∃ (s : State) (cnt : Nat), s.Settled ∧ s.Shape ∧ 4 ≤ s.pwr.boot ∧ s.flag F.CLK_STAT_ROOTSRC = true ∧
      s.flag F.CLK_STAT_KSRC = true ∧ 61433856 ≤ cnt ∧ cnt ≤ 61446144 ∧ s.clk.kxoRun = 3) ∧
    (∃ (s : State) (cnt : Nat), s.Settled ∧ s.Shape ∧ 4 ≤ s.pwr.boot ∧ s.flag F.CLK_STAT_ROOTSRC = true ∧
      s.flag F.CLK_STAT_KSRC = true ∧ 61433856 ≤ cnt ∧ cnt ≤ 61446144 ∧ s.clk.kxoRun ≠ 3) :=
  ⟨⟨onIrc.setFlag F.CLK_STAT_ROOTSRC true, 1044, rfl, shaped _ (by decide +kernel), by decide +kernel⟩,
   ⟨{ onIrc with clk := { onIrc.clk with xoPrev := some 1005, xoRun := 7 } }, 1004, rfl, shaped _ (by decide +kernel),
     by decide +kernel⟩,
   ⟨onIrc, 1004, rfl, shaped _ (by decide +kernel), by decide +kernel⟩,
   ⟨onIrc, 3060, rfl, shaped _ (by decide +kernel), by decide +kernel⟩,
   ⟨onIrc, .host, rfl, shaped _ (by decide +kernel), by decide +kernel⟩,
   ⟨{ (onIrc.setFlag F.CLK_STAT_ROOTSRC true).setFlag F.CLK_STAT_KSRC true with clk := { kxoRun := 3 } }, 61446144, rfl,
     shaped _ (by decide +kernel), by decide +kernel⟩,
   ⟨(onIrc.setFlag F.CLK_STAT_ROOTSRC true).setFlag F.CLK_STAT_KSRC true, 61433856, rfl, shaped _ (by decide +kernel),
     by decide +kernel⟩⟩

/-- The node with one frame in Q4, and that ring selected. -/
def ringed : State := { node with mac := { q4 := [{ f := {} }] } } |>.setFld F.MAC_RSEL_RING 4

theorem hyps_RolesAndTheRingPort_more :
    (∃ (s : State) (e : Ent) (l : List Ent), s.Settled ∧ s.Shape ∧ s.pathUp .host = true ∧ s.mac.q4 = e :: l ∧
      s.fld F.MAC_RSEL_RING = 4) ∧
    (∃ (s : State) (w : Nat) (l : List Nat), s.Settled ∧ s.Shape ∧ s.pathUp .host = true ∧ s.q7 = w :: l ∧
      s.fld F.MAC_RSEL_RING = 7) :=
  ⟨⟨ringed, { f := {} }, [], rfl, shaped _ (by decide +kernel), by decide +kernel, rfl, by decide +kernel⟩,
   ⟨({ node with q7 := [3] } : State).setFld F.MAC_RSEL_RING 7, 3, [], rfl, shaped _ (by decide +kernel), by decide +kernel,
     rfl, by decide +kernel⟩⟩

theorem hyps_SecurityCommandsAnswer_more :
    (∃ (s : State) (p : Path), s.Settled ∧ s.pathUp p = true ∧ s.unlocked p = true ∧ s.secBusy = false ∧
      s.vRoom 10 = false ∧ s.vRoom 2 = false) ∧
    (∃ (s : State), s.Settled ∧ s.pathUp .host = true ∧ s.unlocked .host = true ∧ s.secBusy = false ∧ s.sec.life = 1 ∧
      keyFits (kidClass (s.fld F.SEC_KID_KID)) s.sec.kdata = true ∧
      (s.slotOf (s.fld F.SEC_KID_KID)).any (· != s.fld F.SEC_SLOT_SEL_SLOT) = false ∧ s.vRoom 52 = true) ∧
    (∃ (s : State), s.Settled ∧ s.pathUp .host = true ∧ s.unlocked .host = true ∧ s.secBusy = false ∧ s.sec.life = 1 ∧
      keyFits (kidClass (s.fld F.SEC_KID_KID)) s.sec.kdata = true ∧
      (s.slotOf (s.fld F.SEC_KID_KID)).any (· != s.fld F.SEC_SLOT_SEL_SLOT) = false ∧ s.vRoom 10 = false) ∧
    (∃ (s : State) (v : Word), s.Settled ∧ s.pathUp .host = true ∧ s.unlocked .host = true ∧ s.secBusy = false ∧
      getBits v 15 8 = 0xA7 ∧ s.sec.life = 1) :=
  ⟨⟨open_ full, .host, rfl, by decide +kernel⟩,
   ⟨open_ { node with sec := { kdata := List.replicate 8 1 } }, rfl, by decide +kernel⟩,
   ⟨open_ { full with sec := { kdata := List.replicate 8 1 } }, rfl, by decide +kernel⟩,
   ⟨open_ node, 0xA704, rfl, by decide +kernel⟩⟩

theorem hyps_TablePortStepsAndStopsAtTheEnd_more :
    (∃ (p : Path) (s : State) (off : BitVec 7) (f : Fld) (w : Nat), s.Settled ∧ s.pathUp p = true ∧
      (s.path p).page ≠ 14 ∧ tablePort (s.path p).page = some (off.toNat, f, w) ∧ s.portPast (s.path p).page f = false) ∧
    (∃ (p : Path) (s : State) (off : BitVec 7) (f : Fld) (w : Nat), s.Settled ∧ s.pathUp p = true ∧
      (s.path p).page ≠ 14 ∧ tablePort (s.path p).page = some (off.toNat, f, w) ∧ s.portPast (s.path p).page f = true) :=
  ⟨⟨.host, { node with host := { page := 6 } }, 0x09, F.LMP_TADDR_ADDR, 10, rfl, by decide +kernel⟩,
   ⟨.host, { node with host := { page := 6 }, vlt := { past := [F.LMP_TADDR_ADDR.key] } }, 0x09, F.LMP_TADDR_ADDR, 10, rfl,
     by decide +kernel⟩⟩

/-- A relay of tier 1 in the slot of its beacon. -/
def relaying : State :=
  { node with pwr := { boot := 6 }, phy := { posBase := 3 } } |>.setReg R.CLK_STAT 0x8000 |>.setFld F.SYS_MODE_STATE 2
    |>.setFld F.MAC_ROLE_ACT 1 |>.setFld F.MAC_PARENT_PTIER 0 |>.setFlag F.MAC_STAT_BVALID true
    |>.setFld F.MAC_GRID_COURSE 60

theorem hyps_TheGridAndItsBeacons_more :
    (∃ s : State, s.Settled ∧ s.Shape ∧ s.act = 1 ∧ s.mayTx = true ∧ s.inRelaySlot = true ∧ s.lineFree = true ∧
      s.pwr.extest = false ∧ s.flag F.PWR_STAT_VLDG = true) ∧
    (∃ s : State, s.Settled ∧ s.Shape ∧ s.act = 1 ∧ s.mayTx = true ∧ s.inRelaySlot = true ∧ s.lineFree = true ∧
      s.pwr.extest = false ∧ s.flag F.PWR_STAT_VLDG = false) ∧
    (∃ s : State, s.Settled ∧ s.Shape ∧ s.act = 1 ∧ s.mayTx = true ∧ s.inRelaySlot = true ∧
      (s.lineFree = false ∨ s.pwr.extest = true)) :=
  ⟨⟨relaying.setFlag F.PWR_STAT_VLDG true, rfl, shaped _ (by decide +kernel), by decide +kernel⟩,
   ⟨relaying.setFlag F.PWR_STAT_VLDG false, rfl, shaped _ (by decide +kernel), by decide +kernel⟩,
   ⟨{ relaying with pwr := { boot := 6, extest := true } }, rfl, shaped _ (by decide +kernel), by decide +kernel⟩⟩

/-- A frame to everyone, and a node that has received its header. -/
def toAll (sec : Bool) : LineFrame := { dmode := 2, dst := 9, src := 9, hopdst := 0x3FF, seg := 7, sec := sec }

/-- Its payload, and the bytes on the line. -/
def toAllBytes (sec : Bool) : List Byte :=
  let b := frameHdr (toAll sec) ++ [0xF0, 1, 2, 3]
  b ++ toBytes 4 (crc32 b)

def receiving (seen : List (Nat × Nat)) : State :=
  { regs := [(R.SYS_MODE, 1), (R.CLK_STAT, 0x8000), (R.MAC_SEG, 7)], pwr := { boot := 5 },
    phy := { rxHdr := some (512 * ((toAllBytes true).length - 1)) }, mac := { seen := seen }, sec := { tests := 1 } }

theorem hyps_HeadersFramesAndTheDriver_more :
    (∃ (s : State) (bytes : List Byte) (f : LineFrame) (rest : List Byte), s.Settled ∧ s.Shape ∧ s.macOn = true ∧
      s.transmitting = false ∧ s.phy.rxHdr.any (hdrAnnounces true bytes.length) = true ∧
      parseHdr (bytes.take (bytes.length - 4)) = some (f, rest) ∧ 16 ≤ bytes.length ∧
      crc32 (bytes.take (bytes.length - 4)) = ofBytes (bytes.drop (bytes.length - 4)) ∧ f.seg = s.reg R.MAC_SEG ∧
      f.hopdst = 0x3FF ∧ (f.src.toNat, f.seq.toNat) ∈ s.mac.seen) ∧
    (∃ (s : State) (bytes : List Byte) (f : LineFrame) (rest : List Byte), s.Settled ∧ s.Shape ∧ s.macOn = true ∧
      s.transmitting = false ∧ s.phy.rxHdr.any (hdrAnnounces true bytes.length) = true ∧
      parseHdr (bytes.take (bytes.length - 4)) = some (f, rest) ∧ 16 ≤ bytes.length ∧
      crc32 (bytes.take (bytes.length - 4)) = ofBytes (bytes.drop (bytes.length - 4)) ∧ f.seg = s.reg R.MAC_SEG ∧
      f.hopdst = 0x3FF ∧ (f.src.toNat, f.seq.toNat) ∉ s.mac.seen ∧ f.typ = 0 ∧ f.dmode ≠ 3 ∧ s.forMe f = true ∧
      f.sec = true ∧ s.ringFull 1 = false ∧ s.sec.tests = 1) ∧
    (∃ (s : State) (bytes : List Byte) (f : LineFrame) (rest : List Byte), s.Settled ∧ s.Shape ∧ s.macOn = true ∧
      s.transmitting = false ∧ s.phy.rxHdr.any (hdrAnnounces true bytes.length) = true ∧
      parseHdr (bytes.take (bytes.length - 4)) = some (f, rest) ∧ 16 ≤ bytes.length ∧
      crc32 (bytes.take (bytes.length - 4)) = ofBytes (bytes.drop (bytes.length - 4)) ∧ f.seg = s.reg R.MAC_SEG ∧
      f.hopdst = 0x3FF ∧ (f.src.toNat, f.seq.toNat) ∉ s.mac.seen ∧ f.typ = 0 ∧ f.dmode ≠ 3 ∧ s.forMe f = true ∧
      f.sec = false ∧ s.ringFull 1 = true ∧ s.act ≠ 1 ∧ 0xF0 ≤ (rest.headD 0).toNat) :=
  ⟨⟨receiving [(9, 0)], toAllBytes true, toAll true, [0xF0, 1, 2, 3], rfl, shaped _ (by decide +kernel),
     by decide +kernel⟩,
   ⟨receiving [], toAllBytes true, toAll true, [0xF0, 1, 2, 3], rfl, shaped _ (by decide +kernel), by decide +kernel⟩,
   ⟨{ receiving [] with mac := { q1 := List.replicate (ringDepth 1) {} } }, toAllBytes false, toAll false,
     [0xF0, 1, 2, 3], rfl, shaped _ (by decide +kernel), by decide +kernel⟩⟩

/-- The node with a frame at the head of Q2 whose acknowledgement is awaited. -/
def awaiting : State := { receiving [] with mac := { q2 := [{ f := {} }], waitAck := [(1, 5, 40)] } }

theorem hyps_FramesContendAndAreAcknowledged_more :
    (∃ (s : State) (x : BitVec 29) (w : Nat × Nat × Nat) (e : Ent), s.Settled ∧ s.Shape ∧
      s.mac.waitAck.find? (fun w => w.2.1 == x.toNat / 2 ^ 9 % 65536 && decide (s.posNow ≤ w.2.2)) = some w ∧
      s.queueHead w.1 = some e ∧ s.macOn = true ∧ s.transmitting = false ∧ x.toNat / 2 ^ 27 = 3 ∧
      x.toNat / 2 ^ 25 % 4 = 1) ∧
    (∃ (s : State) (x : BitVec 29) (w : Nat × Nat × Nat) (e : Ent), s.Settled ∧ s.Shape ∧
      s.mac.waitAck.find? (fun w => w.2.1 == x.toNat / 2 ^ 9 % 65536 && decide (s.posNow ≤ w.2.2)) = some w ∧
      s.queueHead w.1 = some e ∧ s.macOn = true ∧ s.transmitting = false ∧ x.toNat / 2 ^ 27 = 3 ∧
      x.toNat / 2 ^ 25 % 4 = 2) :=
  ⟨⟨awaiting, BitVec.ofNat 29 (3 * 2 ^ 27 + 2 ^ 25 + 5 * 2 ^ 9), (1, 5, 40), { f := {} }, rfl,
     shaped _ (by decide +kernel), by decide +kernel⟩,
   ⟨awaiting, BitVec.ofNat 29 (3 * 2 ^ 27 + 2 * 2 ^ 25 + 5 * 2 ^ 9), (1, 5, 40), { f := {} }, rfl,
     shaped _ (by decide +kernel), by decide +kernel⟩⟩

/-- Points of a proof run on a line of 1 mV a count. -/
def linePoints : List ProofPoint :=
  [1, 2, 3, 4].map (fun k => { nI := 16, sumI := (4096 * 16 * k : Nat), nV := 16, sumV := 16 * (100 * k + 1000) })

theorem hyps_ProofRunsAreAskedTakenAndEnded_more :
    ∃ (s : State) (r : ProofRun), s.Settled ∧ s.Shape ∧ (s.hchan 0).run = some r ∧ r.slot = none ∧ r.plan = [] ∧
      r.points.all (fun p => decide (16 ≤ p.nI) && decide (16 ≤ p.nV)) = true ∧
      (fitLine (r.points.map (ProofPoint.pair (max 1 (s.reg R.HLT_RS).toNat)))).any (fun f => decide (0 ≤ f.2) &&
        (r.points.map (ProofPoint.pair (max 1 (s.reg R.HLT_RS).toNat))).all (fun p =>
          decide (ratMax ((p.2 : Rat) - (f.1 + f.2 * p.1)) (-((p.2 : Rat) - (f.1 + f.2 * p.1))) * 100 ≤ (p.2 : Rat))))
        = true :=
  ⟨{ node with hlt := { chans := { run := some { plan := [], points := linePoints } } :: List.replicate 15 {} } },
    { plan := [], points := linePoints }, rfl, shaped _ (by decide +kernel), rfl, rfl, rfl, by decide +kernel⟩

theorem hyps_ProofRunsAreAskedTakenAndEnded_slot :
    ∃ (s : State) (r : ProofRun) (p : Nat) (l : List Nat), s.Settled ∧ s.Shape ∧ (s.hchan 0).run = some r ∧
      r.plan = p :: l ∧ r.slot = none ∧ s.holdActive = false :=
  ⟨{ node with hlt := { chans := { run := some { plan := [2] } } :: List.replicate 15 {} } }, { plan := [2] }, 2, [], rfl,
    shaped _ (by decide +kernel), rfl, rfl, rfl, by decide +kernel⟩

theorem hyps_RailsEnginesAndTheStore_hour :
    ∃ s : State, s.Settled ∧ s.Shape ∧ s.keep.hours < s.keep.elapsed / (3600 * 2 ^ 48) :=
  ⟨{ node with keep := { elapsed := 7200 * 2 ^ 48, hours := 1 } }, rfl, shaped _ (by decide +kernel), by decide +kernel⟩

theorem hyps_TimeIsSetReadAndKept_window :
    ∃ s : State, s.Settled ∧ (s.fld F.TIM_STAT_STATE = 2 ∨ s.fld F.TIM_STAT_STATE = 3) ∧
      s.flag F.TIM_FLG_IRCF = false ∧ s.tim.now % (64 * 2 ^ 72) < 2 ^ 72 / 16384 ∧
      s.tim.now / (64 * 2 ^ 72) ≠ s.keep.winStart / (64 * 2 ^ 72) :=
  ⟨(({ node with tim := { now := 128 * 2 ^ 72 }, keep := { winStart := 64 * 2 ^ 72 } } : State).setFld
    F.TIM_STAT_STATE 2).setFlag F.TIM_FLG_IRCF false, rfl, by decide +kernel⟩

/-- The node with every channel waiting for its retry after an own trip. -/
def retrying : State :=
  (List.range 16).foldl (fun s n => (s.setReg (R.PWM_TRIPLAT + n) 1).setFlag (F.CUR_CSTAT_WAITL.at n) true)
    ({ node with clk := { good := true } } |>.setFld F.CUR_CTL_RMAX 3)

/-- The vault at work on the entry `e`. -/
def working (e : VEntry) : State := { node with vlt := { op := some e } }

theorem hyps_CommandsCompleteWithTheirOwnEffect_more :
    (∃ s : State, s.Settled ∧ s.Shape ∧ s.pathUp .host = true ∧ s.hwdArmed = true) ∧
    (∃ (s : State) (y : Nat × StartAt × LampReq) (i : Nat), s.Settled ∧ s.Shape ∧ (s.flamp 0).pend = some y ∧
      y.2.1 = .instant i ∧ s.dueNow (.instant i) = true) ∧
    (∃ s : State, s.Settled ∧ s.Shape ∧ s.coreOn = true ∧ s.flag (F.CUR_CSTAT_WAITL.at 15) = true ∧
      s.lat 15 &&& ownBits ≠ 0 ∧ s.lockedOff 15 = false ∧ s.fld (F.CUR_CSTAT_RCNT.at 15) < s.fld F.CUR_CTL_RMAX ∧
      s.activeBits 15 0 0 0 = 0) ∧
    (∃ (s : State) (r : ProofRun) (q : Nat) (l : List Nat), s.Settled ∧ s.Shape ∧ (s.hchan 0).run = some r ∧
      r.plan = q :: l ∧ r.slot = none ∧ s.holdActive = false) ∧
    (∃ s : State, s.Settled ∧ s.Shape ∧ s.act = 1 ∧ s.mayTx = true ∧ s.inRelaySlot = true ∧ s.lineFree = true ∧
      s.pwr.extest = false ∧ s.flag F.PWR_STAT_VLDG = true) ∧
    (∃ (s : State) (w : Nat × Nat × Nat) (l : List (Nat × Nat × Nat)) (e : Ent), s.Settled ∧ s.Shape ∧
      s.mac.waitAck = w :: l ∧ s.macOn = true ∧ w.2.2 ≤ s.posNow ∧ s.queueHead w.1 = some e) ∧
    (∃ s : State, s.Settled ∧ s.Shape ∧ s.keep.hours < s.keep.elapsed / (3600 * 2 ^ 48)) ∧
    (∃ s : State, s.Settled ∧ s.Shape ∧ s.pathUp .host = true ∧ s.unlocked .host = true ∧
      s.rawOpen .host s.rsel = true ∧ 4 ≤ (s.path .host).pwWords.length ∧ s.vRoom 19 = true) ∧
    (∃ s : State, s.Settled ∧ s.Shape ∧ s.pathUp .host = true ∧ s.unlocked .host = true ∧ s.secBusy = false ∧
      s.sec.life = 1 ∧ keyFits (kidClass (s.fld F.SEC_KID_KID)) s.sec.kdata = true ∧
      (s.slotOf (s.fld F.SEC_KID_KID)).any (· != s.fld F.SEC_SLOT_SEL_SLOT) = false ∧ s.vRoom 52 = true) ∧
    (∃ (s : State) (v : Word), s.Settled ∧ s.Shape ∧ s.pathUp .host = true ∧ s.unlocked .host = true ∧
      s.secBusy = false ∧ getBits v 15 8 = 0xA7 ∧ s.sec.life = 1) ∧
    (∃ s : State, s.Settled ∧ s.Shape ∧ s.pathUp .host = true ∧ s.clk.good = true ∧ s.flag F.CLK_STAT_XOQ = true ∧
      s.flag F.CLK_STAT_ROOTSRC = false ∧ s.clk.handover = false ∧ s.clk.fellBack = true) ∧
    (∃ s : State, s.Settled ∧ s.Shape ∧ s.vaultFree = true ∧ s.vlt.wait = [] ∧
      (∀ e ∈ dropFirstOp s.vlt.buf, e.isOp = false) ∧ s.vlt.op = some (.bank true 0 {})) ∧
    (∃ s : State, s.Settled ∧ s.Shape ∧ s.vaultFree = true ∧ s.vlt.wait = [] ∧
      (∀ e ∈ dropFirstOp s.vlt.buf, e.isOp = false) ∧ s.vlt.op = some (.legWrite [])) ∧
    (∃ s : State, s.Settled ∧ s.Shape ∧ s.vaultFree = true ∧ s.vlt.wait = [] ∧
      (∀ e ∈ dropFirstOp s.vlt.buf, e.isOp = false) ∧ s.vlt.op = some (.usrErase 15)) ∧
    (∃ s : State, s.Settled ∧ s.Shape ∧ s.clk.fatalHeld = true ∧ s.pwr.boot = 1 ∧ s.pwr.rstLow = false ∧
      s.pwr.loss = 0) ∧
    (∃ s : State, s.Settled ∧ s.Shape ∧ 4 ≤ s.pwr.boot ∧ s.flag F.CLK_STAT_ROOTSRC = true ∧
      s.flag F.CLK_STAT_KSRC = true ∧ s.clk.kxoRun = 3) ∧
    (∃ (s : State) (f : LineFrame), s.Settled ∧ s.Shape ∧ s.passes 0x2C [clsAdmin] true f = true ∧
      (f.args.drop 1).length = 65 ∧ (s.took 0x2C f).vRoom 64 = true ∧
      (plateFail (bytesWords ((f.args.drop 1).drop 1))).isNone = true) ∧
    (∃ (s : State) (f : LineFrame), s.Settled ∧ s.Shape ∧ s.passes 0x80 [clsNet] true f = true ∧
      (f.args.drop 1).length = 5 ∧ 1 ≤ numAt (f.args.drop 1) 1 4 ∧ numAt (f.args.drop 1) 1 4 ≤ 65536 ∧
      (s.took 0x80 f).fld F.CMD_STAT_BST = 0 ∧ (s.took 0x80 f).vRoom 58 = true) ∧
    (∃ (s : State) (f : LineFrame), s.Settled ∧ s.Shape ∧ s.passes 0x84 [clsNet] true f = true ∧
      (f.args.drop 1).length = 1 ∧ (s.took 0x84 f).bxferIs (numAt (f.args.drop 1) 0 1) = true) ∧
    (∃ s : State, s.Settled ∧ s.Shape ∧ s.reports = true ∧ s.timeValid = true ∧
      s.cmd.minute ≠ some (secOf s.tim.now / 60)) :=
  ⟨⟨(node.setFlag F.HWD_CTL_EN true).setFlag F.SYS_MODE_HOST true, rfl, shaped _ (by decide +kernel), by decide +kernel⟩,
   ⟨node.modFlamp 0 (fun y => { y with pend := some (3, .instant 5, {}) }), (3, .instant 5, {}), 5, rfl,
     shaped _ (by decide +kernel), by decide +kernel⟩,
   ⟨retrying, rfl, shaped _ (by decide +kernel), by decide +kernel⟩,
   ⟨{ node with hlt := { chans := { run := some { plan := [2] } } :: List.replicate 15 {} } }, { plan := [2] }, 2, [],
     rfl, shaped _ (by decide +kernel), rfl, rfl, rfl, by decide +kernel⟩,
   ⟨relaying.setFlag F.PWR_STAT_VLDG true, rfl, shaped _ (by decide +kernel), by decide +kernel⟩,
   ⟨{ awaiting with mac := { awaiting.mac with waitAck := [(1, 5, 0)] } }, (1, 5, 0), [], { f := {} }, rfl,
     shaped _ (by decide +kernel), by decide +kernel⟩,
   ⟨{ node with keep := { elapsed := 3600 * 2 ^ 48 } }, rfl, shaped _ (by decide +kernel), by decide +kernel⟩,
   ⟨open_ { node with host := { pwWords := [1, 2, 3, 4] } }, rfl, shaped _ (by decide +kernel), by decide +kernel⟩,
   ⟨open_ { node with sec := { kdata := List.replicate 8 1 } }, rfl, shaped _ (by decide +kernel), by decide +kernel⟩,
   ⟨open_ node, 0xA704, rfl, shaped _ (by decide +kernel), by decide +kernel⟩,
   ⟨onIrc, rfl, shaped _ (by decide +kernel), by decide +kernel⟩,
   ⟨working (.bank true 0 {}), rfl, shaped _ (by decide +kernel), by decide +kernel⟩,
   ⟨working (.legWrite []), rfl, shaped _ (by decide +kernel), by decide +kernel⟩,
   ⟨working (.usrErase 15), rfl, shaped _ (by decide +kernel), by decide +kernel⟩,
   ⟨{ pwr := { boot := 1 }, clk := { fatalHeld := true } }, rfl, shaped _ (by decide +kernel), by decide +kernel⟩,
   ⟨{ (onIrc.setFlag F.CLK_STAT_ROOTSRC true).setFlag F.CLK_STAT_KSRC true with clk := { kxoRun := 3 } }, rfl,
     shaped _ (by decide +kernel), by decide +kernel⟩,
   ⟨node, cmdOf 2 (5 :: (List.replicate 8 [0, 0, 1, 0, 0, 0, 0, 0]).flatten), rfl, shaped _ (by decide +kernel),
     by decide +kernel⟩,
   ⟨node, cmdOf 0 [8, 0, 1, 0, 0], rfl, shaped _ (by decide +kernel), by decide +kernel⟩,
   ⟨(node.setFld F.CMD_STAT_BST 1).setFld F.CMD_BHDL_HDL 7, cmdOf 0 [7], rfl, shaped _ (by decide +kernel),
     by decide +kernel⟩,
   ⟨((node.setFlag F.CMD_CTL_RPTEN true).setFld F.MAC_STAT_JST 2 |>.setFlag F.MAC_STAT_BVALID true).setFld
     F.TIM_STAT_STATE 2, rfl, shaped _ (by decide +kernel), by decide +kernel⟩⟩

theorem hyps_EveryStepKeepsTheState :
    ∃ s t : State, s.Settled ∧ s.Shape ∧ step s = .next t :=
  ⟨{ pending := [.syncoPulseEnd] }, _, rfl, shaped _ (by decide +kernel), rfl⟩

theorem hyps_Frames :
    ∀ c ∈ [Instr.unlockTimeout .host, .fadeTick, .pwmZero 0 false, .overtemperature, .currentHoldCapture 0,
      .tmAutoRequest, .cfgSave {}, .holdoverEntry, .handoverDone, .hourTick, .fuseBurnDone], ∃ s t : State, exec c s = .next t := by
  intro c h
  refine ⟨{}, ?_⟩
  simp only [List.mem_cons, List.not_mem_nil, or_false] at h
  rcases h with h | h | h | h | h | h | h | h | h | h | h <;> subst h <;> exact ⟨_, rfl⟩

/-! Witnesses of the other clauses. -/

theorem hyps_IdleStepLetsAnEdgePass :
    (∃ s : State, s.pending = [] ∧ s.Settled ∧ s.pwr.boot ≠ 0) ∧
    (∃ s : State, s.pending = [] ∧ s.Settled ∧ s.pwr.boot = 0) :=
  ⟨
    ⟨{ pwr := { boot := 1 } }, by decide +kernel, rfl, by decide +kernel⟩,
    ⟨{}, by decide +kernel, rfl, by decide +kernel⟩⟩

theorem hyps_FieldsMergeByAccessCode :
    (∃ page : Nat, ∃ off : Nat, ∃ r : RegDef, regDef page off = some r ∧ ∃ open_ : Bool, ∃ old : Word, ∃ v : Word, ∃
      i : Nat, (∀ (f : FieldDef), f ∈ r.flds → ¬(f.lo ≤ i ∧ i ≤ f.hi))) ∧
    (∃ page : Nat, ∃ off : Nat, ∃ r : RegDef, regDef page off = some r ∧ ∃ open_ : Bool, ∃ old : Word, ∃ v : Word, ∃
      f : FieldDef, f ∈ r.flds ∧ ∃ i : Nat, f.lo ≤ i ∧ i ≤ f.hi) ∧
    (∃ s : State, ∃ p : Path, ∃ page : Nat, ∃ off : Nat, ∃ i : Nat, ∃ v : Word, ∃ r : RegDef, regDef page off = some
      r ∧ ∃ f : FieldDef, f ∈ r.flds ∧ ∃ b : Nat, f.lo ≤ b ∧ b ≤ f.hi ∧ (f.acc = Acc.ro ∨ f.acc = Acc.wt ∨ f.acc =
      Acc.lk ∧ s.unlocked p = false)) ∧
    (∃ s : State, ∃ p : Path, ∃ page : Nat, ∃ off : Nat, ∃ i : Nat, ∃ v : Word, ∃ r : RegDef, regDef page off = some
      r ∧ s.bound page off (mergeWrite r.flds (s.unlocked p) (s.reg (regKey page off i)) v) = mergeWrite r.flds
      (s.unlocked p) (s.reg (regKey page off i)) v) ∧
    (∃ s : State, ∃ p : Path, ∃ page : Nat, ∃ off : Nat, ∃ i : Nat, ∃ v : Word, ∃ r : RegDef, regDef page off = some
      r ∧ ∃ f : FieldDef, f ∈ r.flds ∧ ∃ b : Nat, f.lo ≤ b ∧ b ≤ f.hi ∧ f.acc = Acc.w1c) :=
  ⟨
    ⟨10, 1,
      { off := 1, count := 1, cfg := true, flds := [{ hi := 7, lo := 6, acc := Acc.rw, rst := 3 }, { hi := 1, lo := 1, acc := Acc.rw, rst := 1 }, { hi := 0, lo := 0, acc := Acc.lk, rst := 1 }] },
      by decide +kernel, true, 0xffff, 0xa5a5, 2,
      by decide +kernel⟩,
    ⟨10, 1,
      { off := 1, count := 1, cfg := true, flds := [{ hi := 7, lo := 6, acc := Acc.rw, rst := 3 }, { hi := 1, lo := 1, acc := Acc.rw, rst := 1 }, { hi := 0, lo := 0, acc := Acc.lk, rst := 1 }] },
      by decide +kernel, true, 0xcc, 0x69, { hi := 7, lo := 6, acc := Acc.rw, rst := 3 }, by decide +kernel, 6,
      by decide +kernel⟩,
    ⟨{}, .remote, 2, 7, 2, 0x66,
      { off := 7, count := 1, cfg := true, flds := [{ hi := 9, lo := 0, acc := Acc.lk, rst := 1023 }] },
      by decide +kernel, { hi := 9, lo := 0, acc := Acc.lk, rst := 1023 }, by decide +kernel, 2, by decide +kernel⟩,
    ⟨{}, .remote, 2, 7, 2, 0x66,
      { off := 7, count := 1, cfg := true, flds := [{ hi := 9, lo := 0, acc := Acc.lk, rst := 1023 }] },
      by decide +kernel⟩,
    ⟨{}, .host, 3, 2, 5607, 0xfa,
      { off := 2, count := 1, cfg := false, flds := [{ hi := 15, lo := 14, acc := Acc.ro, rst := 0 }, { hi := 13, lo := 13, acc := Acc.ro, rst := 0 }, { hi := 12, lo := 12, acc := Acc.ro, rst := 0 }, { hi := 11, lo := 11, acc := Acc.ro, rst := 0 }, { hi := 5, lo := 5, acc := Acc.w1c, rst := 0 }, { hi := 4, lo := 4, acc := Acc.w1c, rst := 0 }, { hi := 3, lo := 3, acc := Acc.w1c, rst := 0 }, { hi := 2, lo := 2, acc := Acc.w1c, rst := 0 }, { hi := 1, lo := 1, acc := Acc.w1c, rst := 0 }, { hi := 0, lo := 0, acc := Acc.w1c, rst := 0 }] },
      by decide +kernel, { hi := 2, lo := 2, acc := Acc.w1c, rst := 0 }, by decide +kernel, 2, by decide +kernel⟩⟩

theorem hyps_RegisterWriteTakesEffect :
    (∃ p : Path, ∃ off : BitVec 7, ∃ v : Word, ∃ s : State, s.Settled ∧ s.pathUp p = true ∧ off ≠ 0 ∧ (s.path
      p).page < 17 ∧ ∃ r : RegDef, regDef (s.path p).page off.toNat = some r ∧ PlainRegister (s.path p).page
      off.toNat = true ∧ r.count = 1) ∧
    (∃ p : Path, ∃ off : BitVec 7, ∃ v : Word, ∃ s : State, s.Settled ∧ s.pathUp p = true ∧ off ≠ 0 ∧ (s.path
      p).page < 17 ∧ regDef (s.path p).page off.toNat = none ∧ Option.any (fun q => q.fst == off.toNat) (tablePort
      (s.path p).page) = false) ∧
    (∃ p : Path, ∃ off : BitVec 7, ∃ v : Word, ∃ s : State, s.Settled ∧ s.pathUp p = true ∧ off = 0) ∧
    (∃ p : Path, ∃ off : BitVec 7, ∃ v : Word, ∃ s : State, s.Settled ∧ s.pathUp p = true ∧ off ≠ 0 ∧ (s.path
      p).page < 17 ∧ ∃ r : RegDef, regDef (s.path p).page off.toNat = some r ∧ PlainRegister (s.path p).page
      off.toNat = true ∧ r.count ≠ 1 ∧ ¬(broadcasts (s.path p).page = true ∧ s.select (s.path p).page = 31)) ∧
    (∃ p : Path, ∃ off : BitVec 7, ∃ v : Word, ∃ s : State, s.Settled ∧ s.pathUp p = true ∧ off ≠ 0 ∧ (s.path
      p).page < 17 ∧ ∃ r : RegDef, regDef (s.path p).page off.toNat = some r ∧ PlainRegister (s.path p).page
      off.toNat = true ∧ r.count ≠ 1 ∧ (broadcasts (s.path p).page = true ∧ s.select (s.path p).page = 31)) :=
  ⟨
    ⟨.remote, 0x2e, 1, { pwr := { boot := 5 } }, rfl, by decide +kernel, by decide +kernel, by decide +kernel,
      { off := 46, count := 1, cfg := false, flds := [{ hi := 15, lo := 8, acc := Acc.rw, rst := 0 }, { hi := 7, lo := 0, acc := Acc.rw, rst := 0 }] },
      by decide +kernel⟩,
    ⟨.remote, 7, 0x5a5a, { pwr := { boot := 5 } }, rfl, by decide +kernel⟩,
    ⟨.host, 0, 0x5ea1, { pwr := { boot := 5 } }, rfl, by decide +kernel⟩,
    ⟨.remote, 0x19, 0x76, { remote := { page := 6 }, pwr := { boot := 5 } }, rfl, by decide +kernel,
      by decide +kernel, by decide +kernel,
      { off := 25, count := 8, cfg := false, flds := [{ hi := 15, lo := 0, acc := Acc.ro, rst := 0 }] },
      by decide +kernel⟩,
    ⟨.host, 0x41, 1, { regs := [(R.HLT_SEL, 0x1f)], host := { page := 8 }, pwr := { boot := 5 } }, rfl,
      by decide +kernel, by decide +kernel, by decide +kernel,
      { off := 65, count := 16, cfg := false, flds := [{ hi := 7, lo := 0, acc := Acc.ro, rst := 0 }] },
      by decide +kernel⟩⟩

theorem hyps_PairReadsLatchTheHighHalf :
    (∃ p : Path, ∃ off : BitVec 7, ∃ s : State, s.Settled ∧ s.pathUp p = true ∧ (s.path p).page < 17 ∧ ∃ r : RegDef,
      regDef (s.path p).page off.toNat = some r ∧ pairLo (s.path p).page off.toNat = true ∧ ∃ h_1 : RegDef, regDef
      (s.path p).page (off.toNat + 1) = some h_1 ∧ ∃ i : Nat, s.indexes (s.path p).page r.count = [i] ∧ s.indexes
      (s.path p).page h_1.count = [i]) ∧
    (∃ p : Path, ∃ off : BitVec 7, ∃ s : State, s.Settled ∧ s.pathUp p = true ∧ (s.path p).page < 17 ∧ ∃ r : RegDef,
      regDef (s.path p).page off.toNat = some r ∧ pairHi (s.path p).page off.toNat = true ∧ pairLo (s.path p).page
      off.toNat = false ∧ (s.path p).latchTag ≠ some (s.pairTag (s.path p).page (off.toNat - 1))) :=
  ⟨
    ⟨.host, 0x2a, { host := { page := 5 }, pwr := { boot := 5 } }, rfl, by decide +kernel, by decide +kernel,
      { off := 42, count := 16, cfg := false, flds := [{ hi := 15, lo := 0, acc := Acc.ro, rst := 0 }] },
      by decide +kernel, by decide +kernel,
      { off := 43, count := 16, cfg := false, flds := [{ hi := 15, lo := 0, acc := Acc.ro, rst := 0 }] },
      by decide +kernel, 0, by decide +kernel⟩,
    ⟨.remote, 0x13, { remote := { page := 12 }, pwr := { boot := 5 } }, rfl, by decide +kernel, by decide +kernel,
      { off := 19, count := 1, cfg := false, flds := [{ hi := 15, lo := 0, acc := Acc.ro, rst := 0 }] },
      by decide +kernel⟩⟩

theorem hyps_PairWritesCommitTogether :
    (∃ p : Path, ∃ off : BitVec 7, ∃ v : Word, ∃ s : State, s.Settled ∧ s.pathUp p = true ∧ (s.path p).page < 17 ∧
      (s.path p).page ≠ 13 ∧ ∃ r : RegDef, regDef (s.path p).page off.toNat = some r ∧ pairLo (s.path p).page
      off.toNat = true ∧ pairHi (s.path p).page off.toNat = false ∧ ∃ h_1 : RegDef, regDef (s.path p).page
      (off.toNat + 1) = some h_1 ∧ r.count = 1 ∧ h_1.count = 1 ∧ (∀ (hi : Word), (s.path p).stage ≠ some (s.pairTag
      (s.path p).page off.toNat, hi))) ∧
    (∃ p : Path, ∃ off : BitVec 7, ∃ v : Word, ∃ s : State, s.Settled ∧ s.pathUp p = true ∧ (s.path p).page < 17 ∧
      (s.path p).page ≠ 13 ∧ ∃ r : RegDef, regDef (s.path p).page off.toNat = some r ∧ pairHi (s.path p).page
      off.toNat = true) :=
  ⟨
    ⟨.remote, 0x10, 0x6e, { remote := { page := 3 }, pwr := { boot := 5 } }, rfl, by decide +kernel,
      by decide +kernel, by decide +kernel,
      { off := 16, count := 1, cfg := false, flds := [{ hi := 15, lo := 0, acc := Acc.ro, rst := 0 }] },
      by decide +kernel, by decide +kernel, by decide +kernel,
      { off := 17, count := 1, cfg := false, flds := [{ hi := 15, lo := 0, acc := Acc.ro, rst := 0 }] },
      by decide +kernel⟩,
    ⟨.remote, 0x13, 0xa5a5, { remote := { page := 12 }, pwr := { boot := 5 } }, rfl, by decide +kernel,
      by decide +kernel, by decide +kernel,
      { off := 19, count := 1, cfg := false, flds := [{ hi := 15, lo := 0, acc := Acc.ro, rst := 0 }] },
      by decide +kernel⟩⟩

theorem hyps_TablePortStepsAndStopsAtTheEnd :
    ∃ p : Path, ∃ v : Word, ∃ s : State, ∃ off : BitVec 7, s.Settled ∧ s.pathUp p = true ∧ (s.path p).page ≠ 14 ∧ ∃
      f : Fld, ∃ w : Nat, tablePort (s.path p).page = some (off.toNat, f, w) ∧ s.portPast (s.path p).page f = false :=
    ⟨.remote, 0x64, { remote := { page := 6 }, pwr := { boot := 5 } }, 9, rfl, by decide +kernel, by decide +kernel,
      { key := 49664, hi := 9, lo := 0 }, 10, by decide +kernel⟩

theorem hyps_UnlockSequenceOpensOnePath :
    (∃ p : Path, ∃ v : Word, ∃ s : State, s.Settled ∧ s.pathUp p = true ∧ v ≠ 23063 ∧ (v ≠ 50152 ∨ (s.path p).armed
      = false)) ∧
    (∃ p : Path, ∃ v : Word, ∃ s : State, s.Settled ∧ s.pathUp p = true ∧ v = 23063) ∧
    (∃ p : Path, ∃ v : Word, ∃ s : State, s.Settled ∧ s.pathUp p = true ∧ ∃ off : BitVec 7, off ≠ 0 ∧ (s.path
      p).page ≠ 0 ∧ ((s.path p).page < 17 ∨ p = Path.remote)) ∧
    (∃ p : Path, ∃ v : Word, ∃ s : State, s.Settled ∧ s.pathUp p = true ∧ ∃ off : BitVec 7, off = 0) ∧
    (∃ p : Path, ∃ v : Word, ∃ s : State, s.Settled ∧ s.pathUp p = true ∧ v = 50152 ∧ (s.path p).armed = true) :=
  ⟨
    ⟨.remote, 0x96, { pwr := { boot := 5 } }, rfl, by decide +kernel⟩,
    ⟨.remote, 0x5a17, { pwr := { boot := 5 } }, rfl, by decide +kernel⟩,
    ⟨.host, 0x64, { host := { page := 1 }, pwr := { boot := 5 } }, rfl, by decide +kernel, 0x48, by decide +kernel⟩,
    ⟨.remote, 3, { pwr := { boot := 5 } }, rfl, by decide +kernel, 0, by decide +kernel⟩,
    ⟨.host, 0xc3e8, { host := { armed := true }, pwr := { boot := 5 } }, rfl, by decide +kernel⟩⟩

theorem hyps_EventPulsesReachTheirDestinations :
    (∃ s : State, s.Settled ∧ 4 ≤ s.pwr.boot ∧ s.pwr.rstLow = false ∧ ∃ src : Byte, fabricSource (BitVec.toNat src)
      = true ∧ List.find? (fun x => x.fst == BitVec.toNat src) s.fabric = none ∧ s.rested (BitVec.toNat src) = true) ∧
    (∃ s : State, s.Settled ∧ ∃ n : Fin 8, s.gtu.length = 8) ∧
    (∃ s : State, s.Settled ∧ 4 ≤ s.pwr.boot ∧ s.pwr.rstLow = false ∧ ∃ src : Byte, fabricSource (BitVec.toNat src)
      = true ∧ ∃ e : Nat × Nat, List.find? (fun x => x.fst == BitVec.toNat src) s.fabric = some e) ∧
    (∃ s : State, s.Settled ∧ 4 ≤ s.pwr.boot ∧ s.pwr.rstLow = false ∧ ∃ src : Byte, fabricSource (BitVec.toNat src)
      = false) ∧
    (∃ s : State, s.Settled ∧ (s.pwr.boot < 4 ∨ s.pwr.rstLow = true)) ∧
    (∃ s : State, s.Settled ∧ 4 ≤ s.pwr.boot ∧ s.pwr.rstLow = false ∧ ∃ src : Byte, fabricSource (BitVec.toNat src)
      = true ∧ List.find? (fun x => x.fst == BitVec.toNat src) s.fabric = none ∧ s.rested (BitVec.toNat src) =
      false) :=
  ⟨
    ⟨{ pwr := { boot := 5 } }, rfl, by decide +kernel, by decide +kernel, 0x11, by decide +kernel⟩,
    ⟨{}, rfl, 6, by decide +kernel⟩,
    ⟨{ fabric := [(19, 0)], pwr := { boot := 5 } }, rfl, by decide +kernel, by decide +kernel, 0x13,
      by decide +kernel, (19, 0), by decide +kernel⟩,
    ⟨{ pwr := { boot := 5 } }, rfl, by decide +kernel, by decide +kernel, 2, by decide +kernel⟩,
    atRest (by decide +kernel),
    ⟨{ pulses := [(22, 0)], pwr := { boot := 5 } }, rfl, by decide +kernel, by decide +kernel, 0x16,
      by decide +kernel⟩⟩

theorem hyps_PortAndHoldCommandsTakeEffect_1 :
    (∃ s : State, s.Settled ∧ ∃ p : Path, ∃ v : Word, s.pathUp p = true ∧ softKey v = false ∧ (p = Path.remote ∨
      BitVec.getLsbD v 0 = false ∨ s.flag F.SYS_MODE_HOST = true)) ∧
    (∃ s : State, s.Settled ∧ ∃ p : Path, ∃ v : Word, s.pathUp p = true ∧ softKey v = false ∧ p = Path.remote) ∧
    (∃ s : State, s.Settled ∧ ∃ p : Path, ∃ v : Word, s.pathUp p = true ∧ (p = Path.remote ∨ s.hwdArmed = false)) ∧
    (∃ s : State, s.Settled ∧ (s.hwdArmed = false ∨ s.coreOn = false)) ∧
    (∃ s : State, s.Settled ∧ s.awaitsGo = false) ∧
    (∃ s : State, s.Settled ∧ ∃ p : Path, ∃ v : Word, s.pathUp p = true ∧ softKey v = false ∧ p = Path.host ∧
      BitVec.getLsbD v 0 = true ∧ s.flag F.SYS_MODE_HOST = false) ∧
    (∃ s : State, s.Settled ∧ ∃ p : Path, ∃ v : Word, s.pathUp p = true ∧ softKey v = false ∧ p = Path.host) ∧
    (∃ s : State, s.Settled ∧ s.coreOn = true ∧ ∃ n : Nat, n < 16 ∧ s.pwm.chans.length = 16 ∧ s.holdActive = false ∧
      s.flag (F.PWM_CTL_HOLDM.at n) = true ∧ (s.chan n).run = true) :=
  ⟨
    ⟨{ pwr := { boot := 5 } }, rfl, .remote, 0xffff, by decide +kernel⟩,
    ⟨{ pwr := { boot := 5 } }, rfl, .remote, 0xffff, by decide +kernel⟩,
    ⟨{ pwr := { boot := 5 } }, rfl, .remote, 0xffff, by decide +kernel⟩,
    atRest (by decide +kernel),
    atRest (by decide +kernel),
    ⟨{ pwr := { boot := 5 } }, rfl, .host, 0x12b, by decide +kernel⟩,
    ⟨{ pwr := { boot := 5 } }, rfl, .host, 0x12b, by decide +kernel⟩,
    ⟨{ regs := [(R.PWM_CTL, 0x20)], pwr := { boot := 2 }, pwm := { chans := (((List.replicate 16 ({} : Chan)).set 0 { run := true })) } },
      rfl, by decide +kernel, 0, by decide +kernel⟩⟩

theorem hyps_PortAndHoldCommandsTakeEffect_2 :
    (∃ s : State, s.Settled ∧ s.coreOn = true ∧ s.hwdArmed = true) ∧
    (∃ s : State, s.Settled ∧ s.coreOn = false) ∧
    (∃ s : State, s.Settled ∧ s.coreOn = true ∧ ∃ n : Nat, n < 16 ∧ s.pwm.chans.length = 16 ∧ s.flag F.SYS_CTL_HOLD
      = true ∧ s.pwr.jtagHold = false) ∧
    (∃ s : State, s.Settled ∧ ∃ p : Path, ∃ v : Word, s.pathUp p = true ∧ p = Path.host ∧ s.hwdArmed = true ∧ v ≠
      s.pwr.kick) ∧
    (∃ s : State, s.Settled ∧ s.awaitsGo = true) ∧
    (∃ s : State, s.Settled ∧ ∃ p : Path, ∃ v : Word, s.pathUp p = true ∧ p = Path.host ∧ s.hwdArmed = true ∧ v =
      s.pwr.kick) :=
  ⟨
    ⟨{ regs := [(R.SYS_MODE, 8)], pwr := { boot := 2 } }, rfl, by decide +kernel⟩,
    atRest (by decide +kernel),
    ⟨{ regs := [(R.SYS_CTL, 4)], pwr := { boot := 2 } }, rfl, by decide +kernel, 0, by decide +kernel⟩,
    ⟨{ regs := [(R.SYS_MODE, 8)], pwr := { boot := 5 } }, rfl, .host, 0x64, by decide +kernel⟩,
    ⟨{ regs := [(R.SYS_MODE, 0x10)], pwr := { boot := 2 } }, rfl, by decide +kernel⟩,
    ⟨{ regs := [(R.SYS_MODE, 8)], pwr := { boot := 5 } }, rfl, .host, 0x5a5a, by decide +kernel⟩⟩

theorem hyps_PinsCarryTheirLevels :
    (∃ s : State, ∃ hcs : Bool, ∃ hrd : Bool, (hcs = true ∨ hrd = true ∨ s.pathUp Path.host = false)) ∧
    (∃ s : State, s.pathUp Path.host = false) ∧
    (∃ s : State, (s.pwr.boot = 0 ∨ s.flag F.PWR_STAT_AVDDG = false)) ∧
    (∃ s : State, s.pathUp Path.host = true) ∧
    (∃ s : State, 1 ≤ s.pwr.boot ∧ s.flag F.PWR_STAT_AVDDG = true ∧ 6 ≤ s.pwr.boot ∧ s.pwr.rstLow = false) ∧
    (∃ s : State, 1 ≤ s.pwr.boot ∧ s.flag F.PWR_STAT_AVDDG = true ∧ (s.pwr.boot < 6 ∨ s.pwr.rstLow = true)) ∧
    (∃ s : State, s.pathUp Path.host = true ∧ s.Settled ∧ ∃ off : BitVec 7, off ≠ 0 ∧ s.host.page < 17 ∧ pairLo
      s.host.page off.toNat = true ∧ ∃ r : RegDef, regDef s.host.page off.toNat = some r ∧ ∃ i : Nat, s.indexes
      s.host.page r.count = [i]) :=
  ⟨
    ⟨{}, false, false, by decide +kernel⟩,
    ⟨{}, by decide +kernel⟩,
    ⟨{}, by decide +kernel⟩,
    ⟨{ pwr := { boot := 5 } }, by decide +kernel⟩,
    ⟨{ regs := [(R.PWR_STAT, 0x800)], pwr := { boot := 7 } }, by decide +kernel⟩,
    ⟨{ regs := [(R.PWR_STAT, 0x800)], pwr := { boot := 1 } }, by decide +kernel⟩,
    ⟨{ pwr := { boot := 5 } }, by decide +kernel, rfl, 8, by decide +kernel, by decide +kernel, by decide +kernel,
      { off := 8, count := 1, cfg := false, flds := [{ hi := 15, lo := 9, acc := Acc.w1c, rst := 0 }, { hi := 8, lo := 8, acc := Acc.w1c, rst := 0 }, { hi := 7, lo := 7, acc := Acc.w1c, rst := 0 }, { hi := 6, lo := 6, acc := Acc.w1c, rst := 0 }, { hi := 5, lo := 5, acc := Acc.w1c, rst := 0 }, { hi := 4, lo := 4, acc := Acc.w1c, rst := 0 }, { hi := 3, lo := 3, acc := Acc.w1c, rst := 0 }, { hi := 2, lo := 2, acc := Acc.w1c, rst := 0 }, { hi := 1, lo := 1, acc := Acc.w1c, rst := 0 }, { hi := 0, lo := 0, acc := Acc.w1c, rst := 0 }] },
      by decide +kernel, 0, by decide +kernel⟩⟩

theorem hyps_LampMappingsAndTablesAreStaged :
    (∃ p : Path, ∃ v : Word, ∃ s : State, s.Settled ∧ s.pathUp p = true ∧ s.unlocked p = false) ∧
    (∃ p : Path, ∃ v : Word, ∃ s : State, s.Settled ∧ s.pathUp p = true ∧ s.unlocked p = true ∧ s.flag
      F.LMP_STAT_EDIT = false) ∧
    (∃ p : Path, ∃ v : Word, ∃ s : State, s.Settled ∧ s.pathUp p = true ∧ s.unlocked p = true ∧ s.vRoom 2 = true) ∧
    (∃ p : Path, ∃ v : Word, ∃ s : State, s.Settled ∧ s.pathUp p = true ∧ s.unlocked p = true ∧ s.flag
      F.LMP_STAT_EDIT = true ∧ ∃ c : Nat, ∃ a : Nat, s.lmpFail s.lmp.edit = some (c, a)) ∧
    (∃ p : Path, ∃ v : Word, ∃ s : State, s.Settled ∧ s.pathUp p = true ∧ s.unlocked p = true ∧ s.flag
      F.LMP_STAT_EDIT = true ∧ s.lmpFail s.lmp.edit = none) ∧
    (∃ p : Path, ∃ v : Word, ∃ s : State, s.Settled ∧ s.pathUp p = true ∧ s.unlocked p = true ∧ s.vRoom 2 = false) :=
  ⟨
    ⟨.remote, 0x96, { pwr := { boot := 5 } }, rfl, by decide +kernel⟩,
    ⟨.host, 0x64, { host := { opened := true }, pwr := { boot := 5 } }, rfl, by decide +kernel⟩,
    ⟨.host, 0x64, { host := { opened := true }, pwr := { boot := 5 } }, rfl, by decide +kernel⟩,
    ⟨.host, 0x66, { regs := [(R.LMP_STAT, 1), (R.LMP_CFG, 1)], host := { opened := true }, pwr := { boot := 5 } },
      rfl, by decide +kernel, by decide +kernel, by decide +kernel, 8, 0, by decide +kernel⟩,
    ⟨.remote, 0x64, { regs := [(R.LMP_STAT, 1)], remote := { opened := true }, pwr := { boot := 5 } }, rfl,
      by decide +kernel⟩,
    ⟨.host, 0xe25a, { host := { opened := true }, pwr := { boot := 5, loss := 2 } }, rfl, by decide +kernel⟩⟩

theorem hyps_TimedEffectsOfTheFadeEngine_1 :
    (∃ s : State, s.Settled ∧ s.Shape ∧ 6 ≤ s.pwr.boot ∧ s.pwr.loss ≤ 1 ∧ s.pwr.rstLow = false ∧ (s.holdActive &&
      s.flag F.HOLD_CTL_FDE) = false ∧ (s.fld F.SYS_MODE_STATE ≠ 0 ∨ s.pwr.leave = true)) ∧
    (∃ s : State, s.Settled ∧ s.Shape ∧ (s.flag F.FDE_STAT_TVALID = false ∨ s.tim.jump = true ∨ s.fde.replay =
      true)) ∧
    (∃ s : State, s.Settled ∧ s.Shape ∧ ∃ l : Fin 8, ∃ k : Fin 8, (∀ (x : Slot), (s.flamp ↑l).slot ↑k = some x →
      x.holdOver = false)) ∧
    (∃ s : State, s.Settled ∧ s.Shape ∧ ∃ l : Fin 8, (∀ (x : Slot), (s.flamp ↑l).slot 6 = some x → s.gesExpired
      x.wrote = false)) ∧
    (∃ s : State, s.Settled ∧ s.Shape ∧ s.keep.taps ≠ 0 ∧ s.keep.off = false ∧ s.pwr.boot ≠ 0 ∧ s.keep.lastRet + 2 *
      2 ^ 48 ≤ s.keep.elapsed ∧ 4 < s.keep.taps ∧ s.q6 = []) ∧
    (∃ s : State, s.Settled ∧ s.Shape ∧ (s.fld F.FDE_LOSS_LOSST = 0 ∨ s.isHead = true ∨ BitVec.toNat (s.reg
      R.MAC_BSINCE) < s.fld F.FDE_LOSS_LOSST ∨ s.flag F.FDE_STAT_LOSS = true)) ∧
    (∃ s : State, s.Settled ∧ s.Shape ∧ (s.keep.taps = 0 ∨ s.keep.off = true ∨ s.pwr.boot = 0 ∨ s.keep.elapsed <
      s.keep.lastRet + 2 * 2 ^ 48)) ∧
    (∃ s : State, s.Settled ∧ s.Shape ∧ ∃ l : Fin 8, ∃ k : Fin 8, ∃ x : Slot, (s.flamp ↑l).slot ↑k = some x ∧
      x.holdOver = true) :=
  ⟨
    ⟨{ regs := [(R.SYS_MODE, 1)], pwr := { boot := 7 } }, rfl, shaped _ (by decide +kernel), by decide +kernel⟩,
    ⟨{}, rfl, shaped _ (by decide +kernel), by decide +kernel⟩,
    ⟨{}, rfl, shaped _ (by decide +kernel), 6, 6,
      by decide +kernel⟩,
    ⟨{}, rfl, shaped _ (by decide +kernel), 0,
      by decide +kernel⟩,
    ⟨{ keep := { elapsed := 0x5641893835fc4, taps := 5 }, pwr := { boot := 1 } }, rfl, shaped _ (by decide +kernel),
      by decide +kernel⟩,
    ⟨{}, rfl, shaped _ (by decide +kernel), by decide +kernel⟩,
    ⟨{}, rfl, shaped _ (by decide +kernel), by decide +kernel⟩,
    ⟨{ fde := { lamps := (((List.replicate 8 ({} : FLamp)).set 7 { slots := [none, none, (some { age := 2, hold := 1 })] })) } },
      rfl, shaped _ (by decide +kernel), 7, 2, { age := 2, hold := 1 }, by decide +kernel⟩⟩

theorem hyps_TimedEffectsOfTheFadeEngine_2 :
    (∃ s : State, s.Settled ∧ s.Shape ∧ (s.pwr.boot < 6 ∨ 1 < s.pwr.loss ∨ s.pwr.rstLow = true ∨ (s.holdActive &&
      s.flag F.HOLD_CTL_FDE) = true)) ∧
    (∃ s : State, s.Settled ∧ s.Shape ∧ ∃ l : Fin 8, ∃ y : Nat × StartAt × LampReq, (s.flamp ↑l).pend = some y ∧ ∃ i
      : Nat, y.snd.fst = StartAt.instant i ∧ s.dueNow (StartAt.instant i) = true) ∧
    (∃ s : State, s.Settled ∧ s.Shape ∧ s.flag F.FDE_STAT_TVALID = true ∧ s.tim.jump = false ∧ s.fde.replay = false
      ∧ ∃ m : Int, s.fde.minute = some m ∧ m < s.localMinute) ∧
    (∃ s : State, s.Settled ∧ s.Shape ∧ s.flag F.FDE_STAT_TVALID = true ∧ s.tim.jump = false ∧ s.fde.replay = false
      ∧ s.fde.minute = none) ∧
    (∃ s : State, s.Settled ∧ s.Shape ∧ s.fld F.FDE_LOSS_LOSST ≠ 0 ∧ s.isHead = false ∧ s.fld F.FDE_LOSS_LOSST ≤
      BitVec.toNat (s.reg R.MAC_BSINCE) ∧ s.flag F.FDE_STAT_LOSS = false) ∧
    (∃ s : State, s.Settled ∧ s.Shape ∧ s.keep.taps ≠ 0 ∧ s.keep.off = false ∧ s.pwr.boot ≠ 0 ∧ s.keep.lastRet + 2 *
      2 ^ 48 ≤ s.keep.elapsed ∧ s.keep.taps ≤ 4 ∧ s.flag F.FDE_CTL_GESEN = true ∧ getBits (fdeAt s.fde.active 6
      (s.keep.taps - 1)) 15 12 = 1) ∧
    (∃ s : State, s.Settled ∧ s.Shape ∧ s.flag F.FDE_STAT_TVALID = true ∧ s.tim.jump = false ∧ s.fde.replay = false
      ∧ ∃ m : Int, s.fde.minute = some m ∧ s.localMinute ≤ m) ∧
    (∃ s : State, s.Settled ∧ s.Shape ∧ ∃ l : Fin 8, ∃ x : Slot, (s.flamp ↑l).slot 6 = some x ∧ s.gesExpired x.wrote
      = true) :=
  ⟨
    ⟨{}, rfl, shaped _ (by decide +kernel), by decide +kernel⟩,
    ⟨{ fde := { lamps := (((List.replicate 8 ({} : FLamp)).set 1 { pend := (some (0, ((Sys2Proof.Machine.StartAt.instant 2), {}))) })) } },
      rfl, shaped _ (by decide +kernel), 1, (0, ((StartAt.instant 2), {})), by decide +kernel, 2, by decide +kernel⟩,
    ⟨{ regs := [(R.FDE_STAT, 0x80)], tim := { now := 0x290cc16b5e80000000000 }, fde := { minute := (some 0) } },
      rfl, shaped _ (by decide +kernel), by decide +kernel, by decide +kernel, by decide +kernel, 0,
      by decide +kernel⟩,
    ⟨{ regs := [(R.FDE_STAT, 0x80)] }, rfl, shaped _ (by decide +kernel), by decide +kernel⟩,
    ⟨{ regs := [(R.FDE_LOSS, 0x8000), (R.MAC_BSINCE, 0x8000)] }, rfl, shaped _ (by decide +kernel),
      by decide +kernel⟩,
    ⟨{ keep := { elapsed := 0x6c872b021a910, taps := 3 }, pwr := { boot := 1 }, fde := { active := [(49154, 0x1000)] } },
      rfl, shaped _ (by decide +kernel), by decide +kernel⟩,
    ⟨{ regs := [(R.FDE_STAT, 0x80)], fde := { minute := (some 0) } }, rfl, shaped _ (by decide +kernel),
      by decide +kernel, by decide +kernel, by decide +kernel, 0, by decide +kernel⟩,
    ⟨{ regs := [(R.FDE_GES, 0x100)], keep := { elapsed := 0x5a71eb852dac84 }, fde := { lamps := (((List.replicate 8 ({} : FLamp)).set 3 { slots := (List.replicate 6 none ++ [(some {})]) })) } },
      rfl, shaped _ (by decide +kernel), 3, {}, by decide +kernel⟩⟩

theorem hyps_TimedEffectsOfTheFadeEngine_3 :
    ∃ s : State, s.Settled ∧ s.Shape ∧ ∃ l : Fin 8, ∃ y : Nat × StartAt × LampReq, (s.flamp ↑l).pend = some y ∧ ∃ i
      : Nat, y.snd.fst = StartAt.instant i ∧ s.dueNow (StartAt.instant i) = false :=
    ⟨{ regs := [(R.FDE_STAT, 0x80)], fde := { lamps := (((List.replicate 8 ({} : FLamp)).set 5 { pend := (some (0, ((Sys2Proof.Machine.StartAt.instant 63116), {}))) })) } },
      rfl, shaped _ (by decide +kernel), 5, (0, ((StartAt.instant 63116), {})), by decide +kernel, 63116,
      by decide +kernel⟩

theorem hyps_LampRequestsAndFadeTables_1 :
    (∃ p : Path, ∃ plate : Byte, ∃ s : State, s.Settled ∧ s.pathUp p = true ∧ (p = Path.host → s.flag
      F.SYS_MODE_HOST = true) ∧ s.fld F.FDE_RMASK_LAMPS ≠ 0 ∧ (StartAt.now = StartAt.instant (instantMs (s.pair
      R.FDE_RTIME_LO) (s.fld F.FDE_RMS_MS)) → s.fld F.FDE_RMS_MS ≤ 999)) ∧
    (∃ p : Path, ∃ plate : Byte, ∃ s : State, s.Settled ∧ s.pathUp p = true ∧ (p = Path.host → s.flag
      F.SYS_MODE_HOST = true) ∧ s.fld F.FDE_RMASK_LAMPS ≠ 0 ∧ (StartAt.instant (instantMs (s.pair R.FDE_RTIME_LO)
      (s.fld F.FDE_RMS_MS)) = StartAt.instant (instantMs (s.pair R.FDE_RTIME_LO) (s.fld F.FDE_RMS_MS)) → s.fld
      F.FDE_RMS_MS ≤ 999)) ∧
    (∃ p : Path, ∃ plate : Byte, ∃ s : State, s.Settled ∧ s.pathUp p = true ∧ (p = Path.host → s.flag
      F.SYS_MODE_HOST = true) ∧ s.fld F.FDE_RMASK_LAMPS ≠ 0 ∧ (StartAt.evr = StartAt.instant (instantMs (s.pair
      R.FDE_RTIME_LO) (s.fld F.FDE_RMS_MS)) → s.fld F.FDE_RMS_MS ≤ 999)) ∧
    (∃ p : Path, ∃ plate : Byte, ∃ s : State, s.Settled ∧ s.pathUp p = true ∧ s.unlocked p = false) ∧
    (∃ p : Path, ∃ plate : Byte, ∃ s : State, s.Settled ∧ s.pathUp p = true ∧ p = Path.host ∧ s.flag F.SYS_MODE_HOST
      = false) ∧
    (∃ p : Path, ∃ plate : Byte, ∃ s : State, s.Settled ∧ s.pathUp p = true ∧ s.unlocked p = true ∧ s.flag
      F.FDE_STAT_EDIT = false) ∧
    (∃ p : Path, ∃ plate : Byte, ∃ s : State, s.Settled ∧ s.pathUp p = true ∧ s.unlocked p = true ∧ s.vRoom 2 =
      true) ∧
    (∃ p : Path, ∃ plate : Byte, ∃ s : State, s.Settled ∧ s.pathUp p = true ∧ (p = Path.host → s.flag
      F.SYS_MODE_HOST = true) ∧ 999 < s.fld F.FDE_RMS_MS) :=
  ⟨
    ⟨.remote, 0x19, { regs := [(R.FDE_RMASK, 1)], pwr := { boot := 5 } }, rfl, by decide +kernel⟩,
    ⟨.remote, 0x19, { regs := [(R.FDE_RMASK, 1)], pwr := { boot := 5 } }, rfl, by decide +kernel⟩,
    ⟨.remote, 0x19, { regs := [(R.FDE_RMASK, 1)], pwr := { boot := 5 } }, rfl, by decide +kernel⟩,
    ⟨.remote, 0x19, { pwr := { boot := 5 } }, rfl, by decide +kernel⟩,
    ⟨.host, 0x10, { pwr := { boot := 5 } }, rfl, by decide +kernel⟩,
    ⟨.host, 0x10, { host := { opened := true }, pwr := { boot := 5 } }, rfl, by decide +kernel⟩,
    ⟨.host, 0x10, { host := { opened := true }, pwr := { boot := 5 } }, rfl, by decide +kernel⟩,
    ⟨.remote, 0x11, { regs := [(R.FDE_RMS, 0x3f0)], pwr := { boot := 5 } }, rfl, by decide +kernel⟩⟩

theorem hyps_LampRequestsAndFadeTables_2 :
    (∃ p : Path, ∃ plate : Byte, ∃ s : State, s.Settled ∧ s.pathUp p = true ∧ (p = Path.host → s.flag
      F.SYS_MODE_HOST = true) ∧ s.fld F.FDE_RMASK_LAMPS = 0) ∧
    (∃ p : Path, ∃ plate : Byte, ∃ s : State, s.Settled ∧ s.pathUp p = true ∧ s.unlocked p = true ∧ s.flag
      F.FDE_STAT_EDIT = true ∧ fdeFail s.fde.edit = none) ∧
    (∃ p : Path, ∃ plate : Byte, ∃ s : State, s.Settled ∧ s.pathUp p = true ∧ s.unlocked p = true ∧ s.vRoom 2 =
      false) ∧
    (∃ p : Path, ∃ plate : Byte, ∃ s : State, s.Settled ∧ s.pathUp p = true ∧ s.unlocked p = true ∧ s.flag
      F.FDE_STAT_EDIT = true ∧ ∃ c : Nat, ∃ k : Nat, ∃ a : Nat, fdeFail s.fde.edit = some (c, k, a)) :=
  ⟨
    ⟨.remote, 0x13, { pwr := { boot := 5 } }, rfl, by decide +kernel⟩,
    ⟨.remote, 0x10, { regs := [(R.FDE_STAT, 2)], remote := { opened := true }, pwr := { boot := 5 } }, rfl,
      by decide +kernel⟩,
    ⟨.host, 0x5a, { host := { opened := true }, pwr := { boot := 5, loss := 2 } }, rfl, by decide +kernel⟩,
    ⟨.remote, 0x12,
      { regs := [(R.FDE_STAT, 2)], remote := { opened := true }, pwr := { boot := 5 }, fde := { edit := [(2545, 0)] } },
      rfl, by decide +kernel, by decide +kernel, by decide +kernel, 1, 0, 2545, by decide +kernel⟩⟩

theorem hyps_SwitchingPeriodsRunAndLoadTheirSets_1 :
    (∃ s : State, s.Settled ∧ s.Shape ∧ ∃ p : Path, ∃ v : Word, s.pathUp p = true) ∧
    (∃ s : State, s.Settled ∧ s.Shape ∧ ∃ n : Fin 16, ∃ b : Bool, ¬(s.ticking ↑n = true ∧ (s.chan ↑n).pHit = true ∧
      s.stops ↑n = [] ∧ s.midWaits ↑n = false)) ∧
    (∃ s : State, s.Settled ∧ s.Shape ∧ ∃ n : Fin 16, ¬s.midMay ↑n = true) ∧
    (∃ s : State, s.Settled ∧ s.Shape ∧ ∃ n : Fin 16, ¬(s.ticking ↑n = true ∧ (s.chan ↑n).pHit = false ∧ s.reach
      (↑n) (s.chan ↑n).per = true)) ∧
    (∃ s : State, s.Settled ∧ s.Shape ∧ ∃ n : Fin 16, (s.ticking ↑n = true ∧ (s.chan ↑n).aHit = false ∧ s.reach (↑n)
      (s.chan ↑n).cmpa = true)) ∧
    (∃ s : State, s.Settled ∧ s.Shape ∧ ∃ n : Fin 16, ¬(s.ticking ↑n = true ∧ (s.chan ↑n).bHit = false ∧ s.reach
      (↑n) (s.chan ↑n).cmpb = true)) ∧
    (∃ s : State, s.Settled ∧ s.Shape ∧ ∃ n : Fin 16, (s.ticking ↑n = true ∧ (s.chan ↑n).pHit = false ∧ s.reach (↑n)
      (s.chan ↑n).per = true)) ∧
    (∃ s : State, s.Settled ∧ s.Shape ∧ ∃ n : Fin 16, ¬(s.ticking ↑n = true ∧ (s.chan ↑n).aHit = false ∧ s.reach
      (↑n) (s.chan ↑n).cmpa = true)) :=
  ⟨
    ⟨{ pwr := { boot := 5 } }, rfl, shaped _ (by decide +kernel), .remote, 0xffff, by decide +kernel⟩,
    ⟨{}, rfl, shaped _ (by decide +kernel), 5, true, by decide +kernel⟩,
    ⟨{}, rfl, shaped _ (by decide +kernel), 5, by decide +kernel⟩,
    ⟨{}, rfl, shaped _ (by decide +kernel), 5, by decide +kernel⟩,
    ⟨{ pwm := { chans := (((List.replicate 16 ({} : Chan)).set 5 { run := true, bHit := true })) } }, rfl, shaped _
      (by decide +kernel), 5, by decide +kernel⟩,
    ⟨{}, rfl, shaped _ (by decide +kernel), 5, by decide +kernel⟩,
    ⟨{ pwm := { chans := (((List.replicate 16 ({} : Chan)).set 3 { run := true, aHit := true, bHit := true })) } },
      rfl, shaped _ (by decide +kernel), 3, by decide +kernel⟩,
    ⟨{}, rfl, shaped _ (by decide +kernel), 3, by decide +kernel⟩⟩

theorem hyps_SwitchingPeriodsRunAndLoadTheirSets_2 :
    (∃ s : State, s.Settled ∧ s.Shape ∧ ∃ n : Fin 16, ∃ b : Bool, (s.ticking ↑n = true ∧ (s.chan ↑n).pHit = true ∧
      s.stops ↑n = [] ∧ s.midWaits ↑n = false)) ∧
    (∃ s : State, s.Settled ∧ s.Shape ∧ ∃ n : Fin 16, s.midMay ↑n = true) ∧
    (∃ s : State, s.Settled ∧ s.Shape ∧ ∃ n : Fin 16, (s.ticking ↑n = true ∧ (s.chan ↑n).bHit = false ∧ s.reach (↑n)
      (s.chan ↑n).cmpb = true)) :=
  ⟨
    ⟨{ pwm := { chans := (((List.replicate 16 ({} : Chan)).set 13 { run := true, aHit := true, bHit := true, pHit := true })) } },
      rfl, shaped _ (by decide +kernel), 13, false, by decide +kernel⟩,
    ⟨{ regs := [(R.PWM_STAT + 7, 0x40)], pwm := { chans := (((List.replicate 16 ({} : Chan)).set 7 { run := true, cnt := 299, per := 0, upd := 1 })) } },
      rfl, shaped _ (by decide +kernel), 7, by decide +kernel⟩,
    ⟨{ pwm := { chans := (((List.replicate 16 ({} : Chan)).set 2 { run := true, cmpa := 301 })) } }, rfl, shaped _
      (by decide +kernel), 2, by decide +kernel⟩⟩

theorem hyps_GatesTurnAtTheirConditions_1 :
    (∃ s : State, s.Settled ∧ s.Shape ∧ ∃ n : Fin 16, ∃ v : Word, ¬((s.timed ↑n && s.reach (↑n) (BitVec.toNat v)) =
      true ∧ (s.chan ↑n).hg = true ∧ (s.chan ↑n).fHg ≠ 2 ∧ s.flag (F.PWM_CTL_MODE.at ↑n) = false ∧ (s.chan
      ↑n).unblanked (BitVec.toNat v) = true ∧ ((s.chan ↑n).burn = true ∨ (s.chan ↑n).cmpb < (s.chan ↑n).cmpa))) ∧
    (∃ s : State, s.Settled ∧ s.Shape ∧ ∃ n : Fin 16, ∃ v : Word, ¬((s.timed ↑n && s.reach (↑n) (BitVec.toNat v)) =
      true ∧ (s.chan ↑n).lgDue = true ∧ (s.chan ↑n).zcd = false)) ∧
    (∃ s : State, s.Settled ∧ s.Shape ∧ ∃ n : Fin 16, ∃ v : Word, ((s.chan ↑n).lg = false ∧ (s.chan ↑n).lgLow = none
      ∧ ((!(s.chan ↑n).run || (s.chan ↑n).frozen && !(s.chan ↑n).forced1) = true ∨ s.reach (↑n) (BitVec.toNat v) =
      true))) ∧
    (∃ s : State, s.Settled ∧ s.Shape ∧ ∃ n : Fin 16, ∃ v : Word, (s.chan ↑n).hgAt = none) ∧
    (∃ s : State, s.Settled ∧ s.Shape ∧ ∃ n : Fin 16, ∃ v : Word, ¬((s.timed ↑n && s.reach (↑n) (BitVec.toNat v)) =
      true ∧ (s.chan ↑n).lgDue = true ∧ (s.chan ↑n).zcd = false ∧ BitVec.toNat v = max (s.chan ↑n).cnt ((s.chan
      ↑n).hgOff + ↑(s.fld (F.PWM_DT_DTMAX.at ↑n))).toNat) ∧ ¬((s.timed ↑n && s.reach (↑n) (BitVec.toNat v)) = true ∧
      (s.chan ↑n).hgDue = true ∧ BitVec.toNat v = max (s.chan ↑n).cnt ((s.chan ↑n).lgOff + ↑(s.fld
      (F.PWM_DT_DTMAX.at ↑n))).toNat)) ∧
    (∃ s : State, s.Settled ∧ s.Shape ∧ ∃ n : Fin 16, ∃ v : Word, ¬((s.timed ↑n && s.reach (↑n) (BitVec.toNat v)) =
      true ∧ s.flag (F.PWM_CTL_ZCD.at ↑n) = true ∧ (s.chan ↑n).lg = true ∧ ((s.chan ↑n).burn && !(s.chan ↑n).rose) =
      false ∧ (s.chan ↑n).fLg ≠ 2)) ∧
    (∃ s : State, s.Settled ∧ s.Shape ∧ ∃ n : Fin 16, ∃ v : Word, ∃ b : Bool, ¬(s.timed ↑n = true ∧ s.reach (↑n)
      (max (s.chan ↑n).cnt ((s.chan ↑n).lgOn + ↑(s.fld (F.PWM_BRN_BRN_W.at ↑n))).toNat) = true ∧ (s.chan ↑n).burn =
      true ∧ (s.chan ↑n).lg = true ∧ (s.chan ↑n).rose = false ∧ (s.chan ↑n).fLg ≠ 2)) ∧
    (∃ s : State, s.Settled ∧ s.Shape ∧ ∃ n : Fin 16, ∃ v : Word, s.coreOn = true) :=
  ⟨
    ⟨{}, rfl, shaped _ (by decide +kernel), 14, 0x66, by decide +kernel⟩,
    ⟨{}, rfl, shaped _ (by decide +kernel), 14, 0x66, by decide +kernel⟩,
    ⟨{ pwm := { chans := (((List.replicate 16 ({} : Chan)).set 14 { lgLow := none })) } }, rfl, shaped _
      (by decide +kernel), 14, 0x66, by decide +kernel⟩,
    ⟨{}, rfl, shaped _ (by decide +kernel), 14, 0x66, by decide +kernel⟩,
    ⟨{}, rfl, shaped _ (by decide +kernel), 14, 0x66, by decide +kernel⟩,
    ⟨{}, rfl, shaped _ (by decide +kernel), 14, 0x66, by decide +kernel⟩,
    ⟨{}, rfl, shaped _ (by decide +kernel), 14, 0x66, true, by decide +kernel⟩,
    ⟨{ pwr := { boot := 2 } }, rfl, shaped _ (by decide +kernel), 14, 0x66, by decide +kernel⟩⟩

theorem hyps_GatesTurnAtTheirConditions_2 :
    (∃ s : State, s.Settled ∧ s.Shape ∧ ∃ n : Fin 16, ∃ v : Word, ¬((s.chan ↑n).lg = false ∧ (s.chan ↑n).lgLow =
      none ∧ ((!(s.chan ↑n).run || (s.chan ↑n).frozen && !(s.chan ↑n).forced1) = true ∨ s.reach (↑n) (BitVec.toNat
      v) = true))) ∧
    (∃ s : State, s.Settled ∧ s.Shape ∧ ∃ n : Fin 16, ∃ v : Word, ∃ a : Int, (s.chan ↑n).hgAt = some a ∧ ¬((s.timed
      ↑n && s.reach (↑n) (BitVec.toNat v)) = true ∧ (s.chan ↑n).hgDue = true ∧ BitVec.toNat v = max (s.chan ↑n).cnt
      a.toNat)) ∧
    (∃ s : State, s.Settled ∧ s.Shape ∧ ∃ n : Fin 16, ∃ v : Word, ¬s.coreOn = true) ∧
    (∃ s : State, s.Settled ∧ s.Shape ∧ ∃ n : Fin 16, ∃ v : Word, ∃ b : Bool, (s.timed ↑n = true ∧ s.reach (↑n) (max
      (s.chan ↑n).cnt ((s.chan ↑n).lgOn + ↑(s.fld (F.PWM_BRN_BRN_W.at ↑n))).toNat) = true ∧ (s.chan ↑n).burn = true
      ∧ (s.chan ↑n).lg = true ∧ (s.chan ↑n).rose = false ∧ (s.chan ↑n).fLg ≠ 2)) ∧
    (∃ s : State, s.Settled ∧ s.Shape ∧ ∃ n : Fin 16, ∃ v : Word, ((s.timed ↑n && s.reach (↑n) (BitVec.toNat v)) =
      true ∧ s.flag (F.PWM_CTL_ZCD.at ↑n) = true ∧ (s.chan ↑n).lg = true ∧ ((s.chan ↑n).burn && !(s.chan ↑n).rose) =
      false ∧ (s.chan ↑n).fLg ≠ 2)) ∧
    (∃ s : State, s.Settled ∧ s.Shape ∧ ∃ n : Fin 16, ∃ v : Word, ¬((s.timed ↑n && s.reach (↑n) (BitVec.toNat v)) =
      true ∧ (s.chan ↑n).lgDue = true ∧ (s.chan ↑n).zcd = false ∧ BitVec.toNat v = max (s.chan ↑n).cnt ((s.chan
      ↑n).hgOff + ↑(s.fld (F.PWM_DT_DTMAX.at ↑n))).toNat) ∧ ((s.timed ↑n && s.reach (↑n) (BitVec.toNat v)) = true ∧
      (s.chan ↑n).hgDue = true ∧ BitVec.toNat v = max (s.chan ↑n).cnt ((s.chan ↑n).lgOff + ↑(s.fld
      (F.PWM_DT_DTMAX.at ↑n))).toNat)) ∧
    (∃ s : State, s.Settled ∧ s.Shape ∧ ∃ n : Fin 16, ∃ v : Word, ((s.timed ↑n && s.reach (↑n) (BitVec.toNat v)) =
      true ∧ (s.chan ↑n).lgDue = true ∧ (s.chan ↑n).zcd = false)) ∧
    (∃ s : State, s.Settled ∧ s.Shape ∧ ∃ n : Fin 16, ∃ v : Word, ((s.timed ↑n && s.reach (↑n) (BitVec.toNat v)) =
      true ∧ (s.chan ↑n).lgDue = true ∧ (s.chan ↑n).zcd = false ∧ BitVec.toNat v = max (s.chan ↑n).cnt ((s.chan
      ↑n).hgOff + ↑(s.fld (F.PWM_DT_DTMAX.at ↑n))).toNat)) :=
  ⟨
    ⟨{}, rfl, shaped _ (by decide +kernel), 14, 0xffff, by decide +kernel⟩,
    ⟨{ pwm := { chans := (((List.replicate 16 ({} : Chan)).set 12 { hgAt := (some 0) })) } }, rfl, shaped _
      (by decide +kernel), 12, 0x84f7, 0, by decide +kernel⟩,
    ⟨{}, rfl, shaped _ (by decide +kernel), 7, 0x82db, by decide +kernel⟩,
    ⟨{ regs := [(R.SYS_MODE, 1), (R.PWR_STAT, 0x4000), (R.PWM_ENA, 2)], pwr := { boot := 5 }, pwm := { chans := (((List.replicate 16 ({} : Chan)).set 1 { run := true, cmpa := 150, cmpb := 300, lg := true, burn := true })) } },
      rfl, shaped _ (by decide +kernel), 1, 0xffff, false, by decide +kernel⟩,
    ⟨{ regs := [(R.SYS_MODE, 1), (R.PWR_STAT, 0x4000), (R.PWM_ENA, 0x10)], pwr := { boot := 5 }, pwm := { chans := (((List.replicate 16 ({} : Chan)).set 4 { run := true, lg := true, rose := true })) } },
      rfl, shaped _ (by decide +kernel), 4, 0, by decide +kernel⟩,
    ⟨{ regs := [(R.SYS_MODE, 1), (R.PWR_STAT, 0x4000), (R.PWM_ENA, 0x200), (R.PWM_DT + 9, 0x3200)], pwr := { boot := 5 }, pwm := { chans := (((List.replicate 16 ({} : Chan)).set 9 { run := true, cmpa := 301, cmpb := 300, hgDue := true, lgOff := 100 })) } },
      rfl, shaped _ (by decide +kernel), 9, 0x96, by decide +kernel⟩,
    ⟨{ regs := [(R.SYS_MODE, 1), (R.PWR_STAT, 0x4000), (R.PWM_ENA, 0x80)], pwr := { boot := 5 }, pwm := { chans := (((List.replicate 16 ({} : Chan)).set 7 { run := true, bHit := true, cmpa := 300, lgDue := true, hgOff := 100 })) } },
      rfl, shaped _ (by decide +kernel), 7, 0x66, by decide +kernel⟩,
    ⟨{ regs := [(R.SYS_MODE, 1), (R.PWR_STAT, 0x4000), (R.PWM_ENA, 0x80), (R.PWM_DT + 7, 0)], pwr := { boot := 5 }, pwm := { chans := (((List.replicate 16 ({} : Chan)).set 7 { run := true, cnt := 102, lgDue := true })) } },
      rfl, shaped _ (by decide +kernel), 7, 0x66, by decide +kernel⟩⟩

theorem hyps_GatesTurnAtTheirConditions_3 :
    (∃ s : State, s.Settled ∧ s.Shape ∧ ∃ n : Fin 16, ∃ v : Word, ∃ a : Int, (s.chan ↑n).hgAt = some a ∧ ((s.timed
      ↑n && s.reach (↑n) (BitVec.toNat v)) = true ∧ (s.chan ↑n).hgDue = true ∧ BitVec.toNat v = max (s.chan ↑n).cnt
      a.toNat)) ∧
    (∃ s : State, s.Settled ∧ s.Shape ∧ ∃ n : Fin 16, ∃ v : Word, ((s.timed ↑n && s.reach (↑n) (BitVec.toNat v)) =
      true ∧ (s.chan ↑n).hg = true ∧ (s.chan ↑n).fHg ≠ 2 ∧ s.flag (F.PWM_CTL_MODE.at ↑n) = false ∧ (s.chan
      ↑n).unblanked (BitVec.toNat v) = true ∧ ((s.chan ↑n).burn = true ∨ (s.chan ↑n).cmpb < (s.chan ↑n).cmpa))) :=
  ⟨
    ⟨{ regs := [(R.SYS_MODE, 1), (R.PWR_STAT, 0x4000), (R.PWM_ENA, 0x80)], pwr := { boot := 5 }, pwm := { chans := (((List.replicate 16 ({} : Chan)).set 7 { run := true, cnt := 204, hgDue := true, hgAt := (some 0) })) } },
      rfl, shaped _ (by decide +kernel), 7, 0xcc, 0, by decide +kernel⟩,
    ⟨{ regs := [(R.SYS_MODE, 1), (R.PWR_STAT, 0x4000), (R.PWM_ENA, 0x800)], pwr := { boot := 5 }, pwm := { chans := (((List.replicate 16 ({} : Chan)).set 11 { run := true, bHit := true, cmpa := 301, hg := true, armed := true })) } },
      rfl, shaped _ (by decide +kernel), 11, 0xf8, by decide +kernel⟩⟩

theorem hyps_ForcesAndTripsSetTheirLatches_1 :
    (∃ s : State, s.Settled ∧ s.Shape ∧ ∃ p : Path, ∃ v : Word, s.pathUp p = true) ∧
    (∃ s : State, s.Settled ∧ s.Shape ∧ ∃ n : Fin 16, ((s.chan ↑n).fNew = none ∨ s.flag (F.PWM_FORCE_FORCE_AT.at ↑n)
      = true ∧ (s.chan ↑n).run = true)) ∧
    (∃ s : State, s.Settled ∧ s.Shape ∧ ∃ n : Fin 16, ∃ x : Nat × Nat, (s.chan ↑n).fNew = some x ∧ (s.flag
      (F.PWM_FORCE_FORCE_AT.at ↑n) = false ∨ (s.chan ↑n).run = false)) ∧
    (∃ s : State, s.Settled ∧ s.Shape ∧ ∃ n : Fin 16, (s.ocAt ↑n).isSome = false) ∧
    (∃ s : State, s.Settled ∧ s.Shape ∧ ∃ n : Fin 16, s.coreOn = true ∧ BitVec.getLsbD (s.lat ↑n) 1 = false) ∧
    (∃ s : State, s.Settled ∧ s.Shape ∧ ∃ k : Fin 4, ¬(s.pwmClk = true ∧ s.bit (R.PWM_TRIPSRC0 + 64 * ↑k) 15 = true
      ∧ s.tripBlanked ↑k = false)) ∧
    (∃ s : State, s.Settled ∧ s.Shape ∧ ∃ v : Byte, s.coreOn = true) ∧
    (∃ s : State, s.Settled ∧ s.Shape ∧ ∃ n : Fin 16, (s.ocAt ↑n).isSome = true ∧ BitVec.getLsbD (s.lat ↑n) 0 =
      false) :=
  ⟨
    ⟨{ pwr := { boot := 5 } }, rfl, shaped _ (by decide +kernel), .remote, 0xffff, by decide +kernel⟩,
    ⟨{}, rfl, shaped _ (by decide +kernel), 0, by decide +kernel⟩,
    ⟨{ pwm := { chans := (((List.replicate 16 ({} : Chan)).set 4 { fNew := (some (0, 0)) })) } }, rfl, shaped _
      (by decide +kernel), 4, (0, 0), by decide +kernel⟩,
    ⟨{}, rfl, shaped _ (by decide +kernel), 15, by decide +kernel⟩,
    ⟨{ pwr := { boot := 2 } }, rfl, shaped _ (by decide +kernel), 15, by decide +kernel⟩,
    ⟨{}, rfl, shaped _ (by decide +kernel), 0, by decide +kernel⟩,
    ⟨{ pwr := { boot := 2 } }, rfl, shaped _ (by decide +kernel), 0, by decide +kernel⟩,
    ⟨{ pwm := { chans := (((List.replicate 16 ({} : Chan)).set 4 { run := true, armed := true })) } }, rfl, shaped _
      (by decide +kernel), 4, by decide +kernel⟩⟩

theorem hyps_ForcesAndTripsSetTheirLatches_2 :
    (∃ s : State, s.Settled ∧ s.Shape ∧ ∃ k : Fin 4, (s.pwmClk = true ∧ s.bit (R.PWM_TRIPSRC0 + 64 * ↑k) 15 = true ∧
      s.tripBlanked ↑k = false)) ∧
    (∃ s : State, s.Settled ∧ s.Shape ∧ ∃ n : Fin 16, s.coreOn = false) ∧
    (∃ s : State, s.Settled ∧ s.Shape ∧ ∃ v : Byte, ¬s.coreOn = true) ∧
    (∃ s : State, s.Settled ∧ s.Shape ∧ ∃ n : Fin 16, s.coreOn = true ∧ BitVec.getLsbD (s.lat ↑n) 1 = true) ∧
    (∃ s : State, s.Settled ∧ s.Shape ∧ ∃ n : Fin 16, (s.ocAt ↑n).isSome = true ∧ BitVec.getLsbD (s.lat ↑n) 0 =
      true) :=
  ⟨
    ⟨{ regs := [(R.PWM_TRIPSRC1, 0x8004)], pwr := { boot := 5 } }, rfl, shaped _ (by decide +kernel), 1,
      by decide +kernel⟩,
    ⟨{}, rfl, shaped _ (by decide +kernel), 9, by decide +kernel⟩,
    ⟨{}, rfl, shaped _ (by decide +kernel), 0x11, by decide +kernel⟩,
    ⟨{ regs := [(R.PWM_TRIPLAT + 9, 2)], pwr := { boot := 2 } }, rfl, shaped _ (by decide +kernel), 9,
      by decide +kernel⟩,
    ⟨{ regs := [(R.PWM_TRIPLAT + 10, 1)], pwm := { chans := (((List.replicate 16 ({} : Chan)).set 10 { run := true, armed := true })) } },
      rfl, shaped _ (by decide +kernel), 10, by decide +kernel⟩⟩

theorem hyps_TripsClearAndPhasesFollow_1 :
    (∃ s : State, s.Settled ∧ s.Shape ∧ ∃ p : Path, ∃ oc : Word, ∃ ov : Word, ∃ pins : BitVec 4, s.pathUp p = true) ∧
    (∃ s : State, s.Settled ∧ s.Shape ∧ s.coreOn = true) ∧
    (∃ s : State, s.Settled ∧ s.Shape ∧ ¬(s.coreOn = true ∧ s.benchTimed = false)) ∧
    (∃ s : State, s.Settled ∧ s.Shape ∧ ∃ n : Fin 16, ¬((s.chan ↑n).frozen = true ∧ s.flag (F.PWM_STAT_HOLDSAFE.at
      ↑n) = false)) ∧
    (∃ s : State, s.Settled ∧ s.Shape ∧ s.coreOn = true ∧ s.phrefDue = false) ∧
    (∃ s : State, s.Settled ∧ s.Shape ∧ (s.coreOn = true ∧ s.benchTimed = false)) ∧
    (∃ s : State, s.Settled ∧ s.Shape ∧ ∃ n : Fin 16, ((s.chan ↑n).frozen = true ∧ s.flag (F.PWM_STAT_HOLDSAFE.at
      ↑n) = false)) ∧
    (∃ s : State, s.Settled ∧ s.Shape ∧ s.coreOn = false) :=
  ⟨
    ⟨{ pwr := { boot := 5 } }, rfl, shaped _ (by decide +kernel), .remote, 0xffff, 0x79, 5, by decide +kernel⟩,
    ⟨{ pwr := { boot := 2 } }, rfl, shaped _ (by decide +kernel), by decide +kernel⟩,
    ⟨{}, rfl, shaped _ (by decide +kernel), by decide +kernel⟩,
    ⟨{}, rfl, shaped _ (by decide +kernel), 14, by decide +kernel⟩,
    ⟨{ pwr := { boot := 2 } }, rfl, shaped _ (by decide +kernel), by decide +kernel⟩,
    ⟨{ pwr := { boot := 2 } }, rfl, shaped _ (by decide +kernel), by decide +kernel⟩,
    ⟨{ pwm := { chans := (((List.replicate 16 ({} : Chan)).set 0 { frozen := true })) } }, rfl, shaped _
      (by decide +kernel), 0, by decide +kernel⟩,
    ⟨{}, rfl, shaped _ (by decide +kernel), by decide +kernel⟩⟩

theorem hyps_TripsClearAndPhasesFollow_2 :
    (∃ s : State, s.Settled ∧ s.Shape ∧ ¬s.coreOn = true) ∧
    (∃ s : State, s.Settled ∧ s.Shape ∧ s.coreOn = true ∧ s.phrefDue = true) :=
  ⟨
    ⟨{}, rfl, shaped _ (by decide +kernel), by decide +kernel⟩,
    ⟨{ tim := { now := 0x21b36aace200000000000 }, pwr := { boot := 2 } }, rfl, shaped _ (by decide +kernel),
      by decide +kernel⟩⟩

theorem hyps_DimmingPeriodsAndRetries :
    (∃ s : State, s.Settled ∧ s.Shape ∧ ∃ g : Fin 9, s.litRun = true ∧ s.phaseUpdate.dimDueNow ↑g = true ∧
      s.phaseUpdate.dimPass ↑g = false) ∧
    (∃ s : State, s.Settled ∧ s.Shape ∧ ∃ n : Fin 16, ∃ oc : Bool, ∃ ov : Bool, ∃ pins : BitVec 4, ¬(s.coreOn = true
      ∧ s.flag (F.CUR_CSTAT_WAITL.at ↑n) = true ∧ s.lat ↑n &&& ownBits ≠ 0 ∧ s.lockedOff ↑n = false)) ∧
    (∃ s : State, s.Settled ∧ s.Shape ∧ ∃ n : Fin 16, ¬(s.lat ↑n = 0 ∧ (s.chan ↑n).run = true)) ∧
    (∃ s : State, s.Settled ∧ s.Shape ∧ ∃ n : Fin 16, (s.lat ↑n = 0 ∧ (s.chan ↑n).run = true)) ∧
    (∃ s : State, s.Settled ∧ s.Shape ∧ ∃ p : Path, ∃ oc : Word, ∃ ov : Word, ∃ pins : BitVec 4, s.pathUp p = true) ∧
    (∃ s : State, s.Settled ∧ s.Shape ∧ ∃ g : Fin 9, s.litRun = true ∧ (s.phaseUpdate.dimDueNow ↑g = false ∨
      s.phaseUpdate.dimPass ↑g = true)) ∧
    (∃ s : State, s.Settled ∧ s.Shape ∧ ∃ g : Fin 9, ¬s.litRun = true) :=
  ⟨
    ⟨{ regs := [(R.SYS_MODE, 1)], pwr := { boot := 5 } }, rfl, shaped _ (by decide +kernel), 0, by decide +kernel⟩,
    ⟨{}, rfl, shaped _ (by decide +kernel), 0, true, true, 0, by decide +kernel⟩,
    ⟨{}, rfl, shaped _ (by decide +kernel), 6, by decide +kernel⟩,
    ⟨{ pwm := { chans := (((List.replicate 16 ({} : Chan)).set 4 { run := true })) } }, rfl, shaped _
      (by decide +kernel), 4, by decide +kernel⟩,
    ⟨{ pwr := { boot := 5 } }, rfl, shaped _ (by decide +kernel), .remote, 0xffff, 0x12c, 6, by decide +kernel⟩,
    ⟨{ regs := [(R.SYS_MODE, 1)], pwr := { boot := 5 }, pwm := { dimAt := (((List.replicate 9 (none : (Option Nat))).set 6 (some 0))) } },
      rfl, shaped _ (by decide +kernel), 6, by decide +kernel⟩,
    ⟨{}, rfl, shaped _ (by decide +kernel), 5, by decide +kernel⟩⟩

theorem hyps_HoldsConversionsAndRounds_1 :
    (∃ s : State, s.Settled ∧ s.Shape ∧ ∃ n : Fin 16, (s.chan ↑n).midOn = none) ∧
    (∃ s : State, s.Settled ∧ s.Shape ∧ ∃ n : Fin 16, ∃ volt : Bool, List.find? (fun x => x.ch == ↑n && x.volt ==
      volt) s.hlt.waiting = none) ∧
    (∃ s : State, s.Settled ∧ s.Shape ∧ ∃ raw : BitVec 14, s.hltOn = true) ∧
    (∃ s : State, s.Settled ∧ s.Shape ∧ ¬(s.flag F.HLT_USCTL_BUSY = true ∧ s.hlt.user = [])) ∧
    (∃ s : State, s.Settled ∧ s.Shape ∧ s.hltOn = true) ∧
    (∃ s : State, s.Settled ∧ s.Shape ∧ ∃ n : Fin 16, ∃ volt : Bool, ∃ x : Capture, List.find? (fun x => x.ch == ↑n
      && x.volt == volt) s.hlt.waiting = some x) ∧
    (∃ s : State, s.Settled ∧ s.Shape ∧ ∃ raw : BitVec 14, s.hltOn = false) ∧
    (∃ s : State, s.Settled ∧ s.Shape ∧ (s.flag F.HLT_USCTL_BUSY = true ∧ s.hlt.user = [])) :=
  ⟨
    ⟨{}, rfl, shaped _ (by decide +kernel), 11, by decide +kernel⟩,
    ⟨{}, rfl, shaped _ (by decide +kernel), 0, true, by decide +kernel⟩,
    ⟨{ pwr := { boot := 5 } }, rfl, shaped _ (by decide +kernel), 0x29a0, by decide +kernel⟩,
    ⟨{}, rfl, shaped _ (by decide +kernel), by decide +kernel⟩,
    ⟨{ pwr := { boot := 5 } }, rfl, shaped _ (by decide +kernel), by decide +kernel⟩,
    ⟨{ hlt := { waiting := [{}] } }, rfl, shaped _ (by decide +kernel), 0, false, {}, by decide +kernel⟩,
    ⟨{}, rfl, shaped _ (by decide +kernel), 0x3fff, by decide +kernel⟩,
    ⟨{ regs := [(R.HLT_USCTL, 0x8000)] }, rfl, shaped _ (by decide +kernel), by decide +kernel⟩⟩

theorem hyps_HoldsConversionsAndRounds_2 :
    (∃ s : State, s.Settled ∧ s.Shape ∧ s.hltOn = false) ∧
    (∃ s : State, s.Settled ∧ s.Shape ∧ ∃ n : Fin 16, ∃ w : Nat, (s.chan ↑n).midOn = some w ∧ ¬(s.ticking ↑n = true
      ∧ s.reach (↑n) w = true)) ∧
    (∃ s : State, s.Settled ∧ s.Shape ∧ ∃ n : Fin 16, ∃ w : Nat, (s.chan ↑n).midOn = some w ∧ (s.ticking ↑n = true ∧
      s.reach (↑n) w = true)) :=
  ⟨
    ⟨{}, rfl, shaped _ (by decide +kernel), by decide +kernel⟩,
    ⟨{ pwm := { chans := (((List.replicate 16 ({} : Chan)).set 5 { rose := true, tPrev := (some 0) })) } }, rfl,
      shaped _ (by decide +kernel), 5, 0, by decide +kernel⟩,
    ⟨{ pwm := { chans := (((List.replicate 16 ({} : Chan)).set 14 { run := true, aHit := true, bHit := true, rose := true, tPrev := (some 0) })) } },
      rfl, shaped _ (by decide +kernel), 14, 0, by decide +kernel⟩⟩

theorem hyps_ProofRunsAreAskedTakenAndEnded :
    (∃ s : State, s.Settled ∧ s.Shape ∧ ∃ p : Path, ∃ v : Word, s.pathUp p = true) ∧
    (∃ s : State, s.Settled ∧ s.Shape ∧ ∃ n : Fin 16, s.fld F.HLT_PROOF_AUTOD = 0) ∧
    (∃ s : State, s.Settled ∧ s.Shape ∧ ∃ n : Fin 16, (s.hchan ↑n).run = none) ∧
    (∃ s : State, s.Settled ∧ s.Shape ∧ ∃ n : Fin 16, s.fld F.HLT_PROOF_AUTOD ≠ 0) ∧
    (∃ s : State, s.Settled ∧ s.Shape ∧ ∃ n : Fin 16, ∃ r : ProofRun, (s.hchan ↑n).run = some r ∧ (r.slot.isSome =
      true ∨ r.plan = [] ∨ s.holdActive = true)) ∧
    (∃ s : State, s.Settled ∧ s.Shape ∧ ∃ n : Fin 16, ∃ r : ProofRun, (s.hchan ↑n).run = some r ∧ (r.slot.isSome =
      true ∨ r.plan ≠ [])) ∧
    (∃ s : State, s.Settled ∧ s.Shape ∧ ∃ n : Fin 16, ∃ r : ProofRun, (s.hchan ↑n).run = some r ∧ r.slot = none ∧
      r.plan = [] ∧ ((r.points.all fun p => decide (16 ≤ p.nI) && decide (16 ≤ p.nV)) = false ∨ fitLine (List.map
      (ProofPoint.pair (max 1 (BitVec.toNat (s.reg (R.HLT_RS + ↑n))))) r.points) = none ∨ Option.any (fun f =>
      decide (f.snd < 0) || !(List.map (ProofPoint.pair (max 1 (BitVec.toNat (s.reg (R.HLT_RS + ↑n)))))
      r.points).all fun p => decide (ratMax (↑p.snd - (f.fst + f.snd * ↑p.fst)) (-(↑p.snd - (f.fst + f.snd *
      ↑p.fst))) * 100 ≤ ↑p.snd)) (fitLine (List.map (ProofPoint.pair (max 1 (BitVec.toNat (s.reg (R.HLT_RS + ↑n)))))
      r.points)) = true)) :=
  ⟨
    ⟨{ pwr := { boot := 5 } }, rfl, shaped _ (by decide +kernel), .remote, 0xffff, by decide +kernel⟩,
    ⟨{}, rfl, shaped _ (by decide +kernel), 0, by decide +kernel⟩,
    ⟨{}, rfl, shaped _ (by decide +kernel), 8, by decide +kernel⟩,
    ⟨{ regs := [(R.HLT_PROOF, 1)] }, rfl, shaped _ (by decide +kernel), 0, by decide +kernel⟩,
    ⟨{ hlt := { chans := (((List.replicate 16 ({} : HChan)).set 12 { run := (some { slot := (some 0) }) })) } },
      rfl, shaped _ (by decide +kernel), 12, { slot := (some 0) }, by decide +kernel⟩,
    ⟨{ hlt := { chans := (((List.replicate 16 ({} : HChan)).set 12 { run := (some {}) })) } }, rfl, shaped _
      (by decide +kernel), 12, {}, by decide +kernel⟩,
    ⟨{ hlt := { chans := (((List.replicate 16 ({} : HChan)).set 9 { run := (some { plan := [] }) })) } }, rfl,
      shaped _ (by decide +kernel), 9, { plan := [] }, by decide +kernel⟩⟩

theorem hyps_HealthCommandsAndTables_1 :
    (∃ s : State, s.Settled ∧ s.Shape ∧ ∃ p : Path, s.pathUp p = true ∧ s.unlocked p = false) ∧
    (∃ s : State, s.Settled ∧ s.Shape ∧ ¬(s.vRoom (10 + s.stressBytes.length) = true ∧ s.vlt.wait = [])) ∧
    (∃ s : State, s.Settled ∧ s.Shape ∧ ∃ n : Fin 16, (s.hchan ↑n).onMs < 3600000) ∧
    (∃ s : State, s.Settled ∧ s.Shape ∧ ∃ p : Path, s.pathUp p = true ∧ s.unlocked p = true ∧ s.flag F.HLT_STAT_EDIT
      = false) ∧
    (∃ s : State, s.Settled ∧ s.Shape ∧ ∃ p : Path, s.pathUp p = true ∧ s.unlocked p = true ∧ s.vRoom 2 = true) ∧
    (∃ s : State, s.Settled ∧ s.Shape ∧ (s.vRoom (10 + s.stressBytes.length) = true ∧ s.vlt.wait = [])) ∧
    (∃ s : State, s.Settled ∧ s.Shape ∧ ∃ n : Fin 16, 3600000 ≤ (s.hchan ↑n).onMs) ∧
    (∃ s : State, s.Settled ∧ s.Shape ∧ ∃ p : Path, s.pathUp p = true ∧ s.unlocked p = true ∧ s.flag F.HLT_STAT_EDIT
      = true ∧ (∀ (a : Nat), a < 32 → hltWordFail s.hlt.edit a = none)) :=
  ⟨
    ⟨{ pwr := { boot := 5 } }, rfl, shaped _ (by decide +kernel), .remote, by decide +kernel⟩,
    ⟨{ vlt := { wait := [(0, [])] } }, rfl, shaped _ (by decide +kernel), by decide +kernel⟩,
    ⟨{}, rfl, shaped _ (by decide +kernel), 8, by decide +kernel⟩,
    ⟨{ host := { opened := true }, pwr := { boot := 5 } }, rfl, shaped _ (by decide +kernel), .host,
      by decide +kernel⟩,
    ⟨{ host := { opened := true }, pwr := { boot := 5 } }, rfl, shaped _ (by decide +kernel), .host,
      by decide +kernel⟩,
    ⟨{}, rfl, shaped _ (by decide +kernel), by decide +kernel⟩,
    ⟨{ hlt := { chans := (((List.replicate 16 ({} : HChan)).set 10 { onMs := 0x36ee80 })) } }, rfl, shaped _
      (by decide +kernel), 10, by decide +kernel⟩,
    ⟨{ regs := [(R.HLT_STAT, 0x40)], remote := { opened := true }, pwr := { boot := 5 } }, rfl, shaped _
      (by decide +kernel), .remote, by decide +kernel⟩⟩

theorem hyps_HealthCommandsAndTables_2 :
    (∃ s : State, s.Settled ∧ s.Shape ∧ (s.vRoom (10 + s.stressBytes.length) = true ∧ s.vlt.wait = []) ∧ s.vlt.buf ≠
      []) ∧
    (∃ s : State, s.Settled ∧ s.Shape ∧ ∃ p : Path, s.pathUp p = true ∧ s.unlocked p = true ∧ s.vRoom 2 = false) ∧
    (∃ s : State, s.Settled ∧ s.Shape ∧ ∃ p : Path, s.pathUp p = true ∧ s.unlocked p = true ∧ s.flag F.HLT_STAT_EDIT
      = true ∧ ∃ a : Nat, ∃ c : Nat, a < 32 ∧ hltWordFail s.hlt.edit a = some c ∧ (∀ (b : Nat), b < a → hltWordFail
      s.hlt.edit b = none)) :=
  ⟨
    ⟨{ vlt := { buf := [(Sys2Proof.Machine.VEntry.usrPage [(1, 0x0004#16), (5, 0x14e9#16)])] } }, rfl, shaped _
      (by decide +kernel), by decide +kernel⟩,
    ⟨{ host := { opened := true }, pwr := { boot := 5, loss := 2 } }, rfl, shaped _ (by decide +kernel), .host,
      by decide +kernel⟩,
    ⟨{ regs := [(R.HLT_STAT, 0x40)], remote := { opened := true }, pwr := { boot := 5 }, hlt := { edit := [(0, 0x8000)] } },
      rfl, shaped _ (by decide +kernel), .remote, by decide +kernel, by decide +kernel, by decide +kernel, 1, 1,
      by decide +kernel⟩⟩

theorem hyps_TheGridAndItsBeacons_1 :
    (∃ s : State, s.Settled ∧ s.Shape ∧ 4 ≤ s.pwr.boot ∧ ∃ us : Nat, s.phy.zcRaw = none) ∧
    (∃ s : State, s.Settled ∧ s.Shape ∧ s.phy.zcEdge + 60 * s.phy.nc ≤ s.cyc) ∧
    (∃ s : State, s.Settled ∧ s.Shape ∧ ∃ pre : BitVec 24, ¬(s.phyOn = true ∧ s.courseNext ≤ s.cyc)) ∧
    (∃ s : State, s.Settled ∧ s.Shape ∧ (4 ≤ s.pwr.boot ∧ s.phyOn = true ∧ s.mac.benchDue = true)) ∧
    (∃ s : State, s.Settled ∧ s.Shape ∧ ¬(s.act = 1 ∧ s.mayTx = true ∧ s.inRelaySlot = true)) ∧
    (∃ s : State, s.Settled ∧ s.Shape ∧ ∃ x : BitVec 29, ∃ course : BitVec 6, ∃ posn : BitVec 5, ∃ ago : Nat, ∃ snr
      : Byte, s.macOn = true ∧ s.transmitting = false ∧ x.toNat / 2 ^ 27 = 3) ∧
    (∃ s : State, s.Settled ∧ s.Shape ∧ ¬(s.macOn = true ∧ s.act = 2 ∧ s.flag F.MAC_STAT_BVALID = true ∧ s.mac.heard
      = false ∧ s.mac.missed = false ∧ s.fld F.MAC_GRID_COURSE = 0 ∧ 12 ≤ s.posn)) ∧
    (∃ s : State, s.Settled ∧ s.Shape ∧ (s.flag F.MAC_STAT_BVALID = true ∧ (if s.fld F.MAC_PARENT_PTIER = 0 then 16
      else 64) < s.fld F.MAC_BSINCE_N)) :=
  ⟨
    ⟨{ pwr := { boot := 5 } }, rfl, shaped _ (by decide +kernel), by decide +kernel, 228, by decide +kernel⟩,
    ⟨{ cyc := 0x989765 }, rfl, shaped _ (by decide +kernel), by decide +kernel⟩,
    ⟨{}, rfl, shaped _ (by decide +kernel), 0xeccb33, by decide +kernel⟩,
    ⟨{ regs := [(R.SYS_MODE, 1), (R.CLK_STAT, 0x8000)], pwr := { boot := 5 }, mac := { benchDue := true } }, rfl,
      shaped _ (by decide +kernel), by decide +kernel⟩,
    ⟨{}, rfl, shaped _ (by decide +kernel), by decide +kernel⟩,
    ⟨{ regs := [(R.SYS_MODE, 1), (R.CLK_STAT, 0x8000)], pwr := { boot := 5 } }, rfl, shaped _ (by decide +kernel),
      0x18a3a06e, 5, 1, 0, 0x12, by decide +kernel⟩,
    ⟨{}, rfl, shaped _ (by decide +kernel), by decide +kernel⟩,
    ⟨{ regs := [(R.MAC_STAT, 0x2000), (R.MAC_BSINCE, 0x8000)] }, rfl, shaped _ (by decide +kernel),
      by decide +kernel⟩⟩

theorem hyps_TheGridAndItsBeacons_2 :
    (∃ s : State, s.Settled ∧ s.Shape ∧ (s.mac.listen = none ∨ s.macOn = false)) ∧
    (∃ s : State, s.Settled ∧ s.Shape ∧ ¬(4 ≤ s.pwr.boot ∧ s.benchTimed = false)) ∧
    (∃ s : State, s.Settled ∧ s.Shape ∧ 4 ≤ s.pwr.boot ∧ ∃ us : Nat, ∃ raw : Nat, s.phy.zcRaw = some raw) ∧
    (∃ s : State, s.Settled ∧ s.Shape ∧ ¬s.phy.zcEdge + 60 * s.phy.nc ≤ s.cyc) ∧
    (∃ s : State, s.Settled ∧ s.Shape ∧ ¬(4 ≤ s.pwr.boot ∧ s.phyOn = true ∧ s.mac.benchDue = true)) ∧
    (∃ s : State, s.Settled ∧ s.Shape ∧ ∃ x : BitVec 29, ∃ course : BitVec 6, ∃ posn : BitVec 5, ∃ ago : Nat, ∃ snr
      : Byte, (s.macOn = false ∨ s.transmitting = true)) ∧
    (∃ s : State, s.Settled ∧ s.Shape ∧ ¬(s.flag F.MAC_STAT_BVALID = true ∧ (if s.fld F.MAC_PARENT_PTIER = 0 then 16
      else 64) < s.fld F.MAC_BSINCE_N)) ∧
    (∃ s : State, s.Settled ∧ s.Shape ∧ (4 ≤ s.pwr.boot ∧ s.benchTimed = false)) :=
  ⟨
    ⟨{}, rfl, shaped _ (by decide +kernel), by decide +kernel⟩,
    ⟨{}, rfl, shaped _ (by decide +kernel), by decide +kernel⟩,
    ⟨{ pwr := { boot := 5 }, phy := { zcRaw := (some 0) } }, rfl, shaped _ (by decide +kernel), by decide +kernel,
      61, 0, by decide +kernel⟩,
    ⟨{}, rfl, shaped _ (by decide +kernel), by decide +kernel⟩,
    ⟨{}, rfl, shaped _ (by decide +kernel), by decide +kernel⟩,
    ⟨{}, rfl, shaped _ (by decide +kernel), 0xb0d886f, 5, 2, 1, 0x12, by decide +kernel⟩,
    ⟨{}, rfl, shaped _ (by decide +kernel), by decide +kernel⟩,
    ⟨{ pwr := { boot := 5 } }, rfl, shaped _ (by decide +kernel), by decide +kernel⟩⟩

theorem hyps_TheGridAndItsBeacons_3 :
    (∃ s : State, s.Settled ∧ s.Shape ∧ ∃ pre : BitVec 24, s.phyOn = true ∧ s.courseNext ≤ s.cyc) ∧
    (∃ s : State, s.Settled ∧ s.Shape ∧ ∃ x : BitVec 29, ∃ course : BitVec 6, ∃ posn : BitVec 5, ∃ ago : Nat, ∃ snr
      : Byte, s.macOn = true ∧ s.transmitting = false ∧ x.toNat / 2 ^ 27 ≠ 3 ∧ s.isHead = false ∧ (x.toNat / 2 ^ 27
      = 1 → s.mac.heard = false) ∧ s.short ≠ 1023 ∧ s.parentBeacon (x.toNat / 2 ^ 27) (x.toNat / 2 ^ 25 % 4)
      course.toNat posn.toNat = true ∧ (s.mac.noticed = true → x.toNat / 2 ^ 25 % 4 = s.bench % 4)) ∧
    (∃ s : State, s.Settled ∧ s.Shape ∧ ∃ rising : Bool, ∃ us : Nat, s.pwr.boot < 4) ∧
    (∃ s : State, s.Settled ∧ s.Shape ∧ ∃ n : Nat, s.mac.listen = some n ∧ s.macOn = true ∧ (max 1 (s.fld
      F.MAC_DEP_LISTEN) < n ∨ n = max 1 (s.fld F.MAC_DEP_LISTEN) ∧ s.mac.listenAt ≤ s.benchPos)) ∧
    (∃ s : State, s.Settled ∧ s.Shape ∧ ∃ x : BitVec 29, ∃ course : BitVec 6, ∃ posn : BitVec 5, ∃ ago : Nat, ∃ snr
      : Byte, s.macOn = true ∧ s.transmitting = false ∧ x.toNat / 2 ^ 27 = 1 ∧ course = 1 ∧ s.isHead = true ∧
      s.mac.listen = none ∧ s.mac.sentHead = true) ∧
    (∃ s : State, s.Settled ∧ s.Shape ∧ ∃ n : Nat, s.mac.listen = some n ∧ s.macOn = true ∧ (n < max 1 (s.fld
      F.MAC_DEP_LISTEN) ∨ n = max 1 (s.fld F.MAC_DEP_LISTEN) ∧ s.benchPos < s.mac.listenAt)) ∧
    (∃ s : State, s.Settled ∧ s.Shape ∧ (s.macOn = true ∧ s.act = 2 ∧ s.flag F.MAC_STAT_BVALID = true ∧ s.mac.heard
      = false ∧ s.mac.missed = false ∧ s.fld F.MAC_GRID_COURSE = 0 ∧ 12 ≤ s.posn)) ∧
    (∃ s : State, s.Settled ∧ s.Shape ∧ (s.act = 1 ∧ s.mayTx = true ∧ s.inRelaySlot = true) ∧ (s.lineFree = false ∨
      s.pwr.extest = true)) :=
  ⟨
    ⟨{ regs := [(R.SYS_MODE, 1), (R.CLK_STAT, 0x8000)], pwr := { boot := 5 }, cyc := 0xe8d53e9944 }, rfl, shaped _
      (by decide +kernel), 1, by decide +kernel⟩,
    ⟨{ regs := [(R.SYS_MODE, 1), (R.CLK_STAT, 0x8000), (R.MAC_SHORT, 0), (R.MAC_PARENT, 0)], pwr := { boot := 5 } },
      rfl, shaped _ (by decide +kernel), 0x77f29c7, 0, 4, 195, 5, by decide +kernel⟩,
    ⟨{}, rfl, shaped _ (by decide +kernel), false, 13, by decide +kernel⟩,
    ⟨{ regs := [(R.SYS_MODE, 1), (R.CLK_STAT, 0x8000)], pwr := { boot := 5 }, mac := { listen := (some 2) } }, rfl,
      shaped _ (by decide +kernel), 2, by decide +kernel⟩,
    ⟨{ regs := [(R.SYS_MODE, 1), (R.CLK_STAT, 0x8000), (R.MAC_ROLE, 0x300)], pwr := { boot := 5 }, mac := { sentHead := true } },
      rfl, shaped _ (by decide +kernel), 0xaec6481, 1, 0x1f, 911, 0x12, by decide +kernel⟩,
    ⟨{ regs := [(R.SYS_MODE, 1), (R.CLK_STAT, 0x8000)], pwr := { boot := 5 }, mac := { listen := (some 0) } }, rfl,
      shaped _ (by decide +kernel), 0, by decide +kernel⟩,
    ⟨{ regs := [(R.SYS_MODE, 1), (R.CLK_STAT, 0x8000), (R.MAC_STAT, 0x2000), (R.MAC_ROLE, 0x200)], pwr := { boot := 5 }, cyc := 0xe8d53da681 },
      rfl, shaped _ (by decide +kernel), by decide +kernel⟩,
    ⟨{ regs := [(R.SYS_MODE, 1), (R.CLK_STAT, 0x8000), (R.MAC_STAT, 0x2000), (R.MAC_ROLE, 0x100), (R.MAC_GRID, 0x3c00)], pwr := { boot := 5 }, phy := { courseAt := 0x989687, rxEnd := 1 } },
      rfl, shaped _ (by decide +kernel), by decide +kernel⟩⟩

theorem hyps_HeadersFramesAndTheDriver_1 :
    (∃ s : State, s.Settled ∧ s.Shape ∧ ∃ hdr : BitVec 40, s.phyOn = true ∧ s.transmitting = false ∧ headerCrc
      hdr.toNat = hdr.toNat % 256 ∧ (hdr.toNat / 2 ^ 37 % 8 = 3 ∨ 4 < hdr.toNat / 2 ^ 37 % 8 ∨ hdr.toNat / 2 ^ 37 %
      8 ≤ 2 ∧ (hdr.toNat / 2 ^ 32 % 4 = 3 ∨ bandsOf (hdr.toNat / 2 ^ 34 % 8) = 0) ∨ hdr.toNat / 2 ^ 37 % 8 < 2 ∧
      hdr.toNat / 2 ^ 32 % 4 ≠ 0)) ∧
    (∃ s : State, s.Settled ∧ s.Shape ∧ ∃ robo : Bool, ∃ bytes : List Byte, ¬(s.macOn = true ∧ s.transmitting =
      false ∧ Option.any (hdrAnnounces robo bytes.length) s.phy.rxHdr = true)) ∧
    (∃ s : State, s.Settled ∧ s.Shape ∧ s.transmitting = false) ∧
    (∃ s : State, s.Settled ∧ s.Shape ∧ ∃ level : Byte, (2 ≤ s.pwr.boot ∧ s.pwr.rstLow = false)) ∧
    (∃ s : State, s.Settled ∧ s.Shape ∧ ∃ e : Fin 32, ¬(s.fld F.PHY_TMCFG_LIFE ≠ 0 ∧ spGet zeroNat s.phy.txAt ↑e +
      s.fld F.PHY_TMCFG_LIFE * 60 * 61440000 ≤ s.cyc)) ∧
    (∃ s : State, s.Settled ∧ s.Shape ∧ ∃ hdr : BitVec 40, (s.phyOn = false ∨ s.transmitting = true)) ∧
    (∃ s : State, s.Settled ∧ s.Shape ∧ ∃ hdr : BitVec 40, s.phyOn = true ∧ s.transmitting = false ∧ headerCrc
      hdr.toNat = hdr.toNat % 256 ∧ hdr.toNat / 2 ^ 37 % 8 = 4) ∧
    (∃ s : State, s.Settled ∧ s.Shape ∧ ∃ e : Fin 32, (s.fld F.PHY_TMCFG_LIFE ≠ 0 ∧ spGet zeroNat s.phy.txAt ↑e +
      s.fld F.PHY_TMCFG_LIFE * 60 * 61440000 ≤ s.cyc)) :=
  ⟨
    ⟨{ regs := [(R.SYS_MODE, 1), (R.CLK_STAT, 0x8000)], pwr := { boot := 5 } }, rfl, shaped _ (by decide +kernel),
      0x600110466d, by decide +kernel⟩,
    ⟨{}, rfl, shaped _ (by decide +kernel), true, [6, 0x40, 0, 8, 4, 9, 0x14, 5, 0xf0, 0, 3, 0xff, 0x38, 0x44, 0xf6,
      0x45], by decide +kernel⟩,
    ⟨{}, rfl, shaped _ (by decide +kernel), by decide +kernel⟩,
    ⟨{ pwr := { boot := 2 } }, rfl, shaped _ (by decide +kernel), 0x10, by decide +kernel⟩,
    ⟨{}, rfl, shaped _ (by decide +kernel), 7, by decide +kernel⟩,
    ⟨{}, rfl, shaped _ (by decide +kernel), 0x9009c6005, by decide +kernel⟩,
    ⟨{ regs := [(R.SYS_MODE, 1), (R.CLK_STAT, 0x8000)], pwr := { boot := 5 } }, rfl, shaped _ (by decide +kernel),
      0x9000be5e83, by decide +kernel⟩,
    ⟨{ cyc := 0xe8d53e9944 }, rfl, shaped _ (by decide +kernel), 24, by decide +kernel⟩⟩

theorem hyps_HeadersFramesAndTheDriver_2 :
    (∃ s : State, s.Settled ∧ s.Shape ∧ ∃ hdr : BitVec 40, s.phyOn = true ∧ s.transmitting = false ∧ headerCrc
      hdr.toNat ≠ hdr.toNat % 256) ∧
    (∃ s : State, s.Settled ∧ s.Shape ∧ ∃ level : Byte, ¬(2 ≤ s.pwr.boot ∧ s.pwr.rstLow = false)) ∧
    (∃ s : State, s.Settled ∧ s.Shape ∧ ∃ hdr : BitVec 40, s.phyOn = true ∧ s.transmitting = false ∧ headerCrc
      hdr.toNat = hdr.toNat % 256 ∧ hdr.toNat / 2 ^ 37 % 8 < 2 ∧ hdr.toNat / 2 ^ 32 % 4 = 0 ∧ bandsOf (hdr.toNat / 2
      ^ 34 % 8) ≠ 0 ∧ bandsOf (hdr.toNat / 2 ^ 34 % 8) &&& s.rxBand = bandsOf (hdr.toNat / 2 ^ 34 % 8)) ∧
    (∃ s : State, s.Settled ∧ s.Shape ∧ ∃ robo : Bool, ∃ bytes : List Byte, (s.macOn = true ∧ s.transmitting = false
      ∧ Option.any (hdrAnnounces robo bytes.length) s.phy.rxHdr = true) ∧ (bytes.length < 16 ∨ crc32 (List.take
      (bytes.length - 4) bytes) ≠ ofBytes (List.drop (bytes.length - 4) bytes))) ∧
    (∃ s : State, s.Settled ∧ s.Shape ∧ s.transmitting = true) ∧
    (∃ s : State, s.Settled ∧ s.Shape ∧ ∃ robo : Bool, ∃ bytes : List Byte, (s.macOn = true ∧ s.transmitting = false
      ∧ Option.any (hdrAnnounces robo bytes.length) s.phy.rxHdr = true) ∧ ∃ f : LineFrame, ∃ rest : List Byte,
      parseHdr (List.take (bytes.length - 4) bytes) = some (f, rest) ∧ 16 ≤ bytes.length ∧ crc32 (List.take
      (bytes.length - 4) bytes) = ofBytes (List.drop (bytes.length - 4) bytes) ∧ f.seg ≠ s.reg R.MAC_SEG ∧ s.short ≠
      1023) :=
  ⟨
    ⟨{ regs := [(R.SYS_MODE, 1), (R.CLK_STAT, 0x8000)], pwr := { boot := 5 } }, rfl, shaped _ (by decide +kernel),
      0xd56a05, by decide +kernel⟩,
    ⟨{}, rfl, shaped _ (by decide +kernel), 2, by decide +kernel⟩,
    ⟨{ regs := [(R.SYS_MODE, 1), (R.CLK_STAT, 0x8000)], pwr := { boot := 5 }, phy := { bandWas := 2 } }, rfl, shaped
      _ (by decide +kernel), 0x80061d6ad, by decide +kernel⟩,
    ⟨{ regs := [(R.SYS_MODE, 1), (R.CLK_STAT, 0x8000)], pwr := { boot := 5 }, phy := { rxHdr := (some 0) } }, rfl,
      shaped _ (by decide +kernel), true, [0xc7], by decide +kernel⟩,
    ⟨{ regs := [(R.SYS_MODE, 1), (R.CLK_STAT, 0x8000)], pwr := { boot := 5 }, phy := { txEnd := 30514 } }, rfl,
      shaped _ (by decide +kernel), by decide +kernel⟩,
    ⟨{ regs := [(R.SYS_MODE, 1), (R.CLK_STAT, 0x8000), (R.MAC_SHORT, 0)], pwr := { boot := 5 }, phy := { posBase := 3047, rxHdr := (some 0x2000003a00) } },
      rfl, shaped _ (by decide +kernel), true, [0x29, 0xbc, 0, 8, 0xfc, 9, 0xfc, 9, 0, 0, 3, 0xff, 0xf5, 0x88, 6,
      0x39, 0x34, 0xff, 7, 0xff, 0xf6, 2, 0xff, 0xff, 0, 3, 0x3c, 0x3a, 0x97, 0xd0], by decide +kernel,
      { typ := 2, dir := true, dmode := 2, hops := 0xf, dst := 9, src := 9, hopdst := 0x3ff, seg := 8, seq := 0xfff },
      [0xf5, 0x88, 6, 0x39, 0x34, 0xff, 7, 0xff, 0xf6, 2, 0xff, 0xff, 0, 3], by decide +kernel⟩⟩

theorem hyps_FramesContendAndAreAcknowledged_1 :
    (∃ s : State, s.Settled ∧ s.Shape ∧ ∃ n : Nat, (¬(s.mayTx = true ∧ s.lineFree = true ∧ s.phy.busyEnd ≤ s.posNow
      ∧ s.atStart = true ∧ s.posn % 3 = 0) ∨ s.pick = none)) ∧
    (∃ s : State, s.Settled ∧ s.Shape ∧ s.mac.ackDue = none) ∧
    (∃ s : State, s.Settled ∧ s.Shape ∧ ∃ x : BitVec 29, s.macOn = true ∧ s.transmitting = false ∧ (List.find? (fun
      w => w.snd.fst == x.toNat / 2 ^ 9 % 65536 && decide (s.posNow ≤ w.snd.snd)) s.mac.waitAck = none ∨ x.toNat / 2
      ^ 27 ≠ 3 ∨ x.toNat / 2 ^ 25 % 4 = 3)) ∧
    (∃ s : State, s.Settled ∧ s.Shape ∧ (s.mac.waitAck = [] ∨ s.macOn = false)) ∧
    (∃ s : State, s.Settled ∧ s.Shape ∧ (s.macOn = true ∧ s.flag F.CMD_CTL_TMAUTO = true ∧ s.fld F.MAC_PARENT_PARENT
      ≠ 1023 ∧ s.txMapFor (s.fld F.MAC_PARENT_PARENT) = none ∧ ∀ (t : Nat), s.mac.tmAt = some t → t + (if s.fld
      F.PHY_TMCFG_LIFE = 0 then 10 else s.fld F.PHY_TMCFG_LIFE) * 60 * 61440000 ≤ s.cyc)) ∧
    (∃ s : State, s.Settled ∧ s.Shape ∧ ¬(s.macOn = true ∧ s.fld F.MAC_STAT_JST = 1 ∧ s.flag F.MAC_CTL_JOINEN = true
      ∧ s.mac.joinWait ≤ s.mac.joinAge)) ∧
    (∃ s : State, s.Settled ∧ s.Shape ∧ ∃ x : BitVec 29, (s.macOn = false ∨ s.transmitting = true)) ∧
    (∃ s : State, s.Settled ∧ s.Shape ∧ ¬(s.macOn = true ∧ s.flag F.CMD_CTL_TMAUTO = true ∧ s.fld
      F.MAC_PARENT_PARENT ≠ 1023 ∧ s.txMapFor (s.fld F.MAC_PARENT_PARENT) = none ∧ ∀ (t : Nat), s.mac.tmAt = some t
      → t + (if s.fld F.PHY_TMCFG_LIFE = 0 then 10 else s.fld F.PHY_TMCFG_LIFE) * 60 * 61440000 ≤ s.cyc)) :=
  ⟨
    ⟨{}, rfl, shaped _ (by decide +kernel), 3, by decide +kernel⟩,
    ⟨{}, rfl, shaped _ (by decide +kernel), by decide +kernel⟩,
    ⟨{ regs := [(R.SYS_MODE, 1), (R.CLK_STAT, 0x8000)], pwr := { boot := 5 } }, rfl, shaped _ (by decide +kernel),
      0x1a391556, by decide +kernel⟩,
    ⟨{}, rfl, shaped _ (by decide +kernel), by decide +kernel⟩,
    ⟨{ regs := [(R.SYS_MODE, 1), (R.CLK_STAT, 0x8000), (R.MAC_PARENT, 0)], pwr := { boot := 5 } }, rfl, shaped _
      (by decide +kernel), by decide +kernel⟩,
    ⟨{}, rfl, shaped _ (by decide +kernel), by decide +kernel⟩,
    ⟨{}, rfl, shaped _ (by decide +kernel), 0x19f5501c, by decide +kernel⟩,
    ⟨{}, rfl, shaped _ (by decide +kernel), by decide +kernel⟩⟩

theorem hyps_FramesContendAndAreAcknowledged_2 :
    (∃ s : State, s.Settled ∧ s.Shape ∧ ∃ st : Nat, ∃ chk : Nat, ∃ at_ : Nat, s.mac.ackDue = some (st, chk, at_) ∧
      (at_ < s.posNow ∨ at_ = s.posNow ∧ s.atStart = false)) ∧
    (∃ s : State, s.Settled ∧ s.Shape ∧ ∃ n : Nat, ∃ k : Nat, ∃ r : Nat, ∃ e : Ent, s.pick = some (k, r, e) ∧
      ¬(slotsOk r n = true ∧ idleSlots s.npos (fun a => s.mayBegin a r && s.fits a (s.txPos (s.txMode e) (e.len
      (decide (k = 3)))).snd e.f.ackreq) (s.benchPos + max s.mac.drawAt (max s.phy.busyEnd (max s.phy.txEnd
      s.phy.rxEnd)) - s.posNow) (n + 1) s.benchPos = n ∧ (s.mayBegin s.benchPos r && s.fits s.benchPos (s.txPos
      (s.txMode e) (e.len (decide (k = 3)))).snd e.f.ackreq) = true)) ∧
    (∃ s : State, s.Settled ∧ s.Shape ∧ ∃ st : Nat, ∃ chk : Nat, ∃ at_ : Nat, s.mac.ackDue = some (st, chk, at_) ∧
      at_ = s.posNow ∧ s.atStart = true) ∧
    (∃ s : State, s.Settled ∧ s.Shape ∧ (s.macOn = true ∧ s.fld F.MAC_STAT_JST = 1 ∧ s.flag F.MAC_CTL_JOINEN = true
      ∧ s.mac.joinWait ≤ s.mac.joinAge)) ∧
    (∃ s : State, s.Settled ∧ s.Shape ∧ ∃ st : Nat, ∃ chk : Nat, ∃ at_ : Nat, s.mac.ackDue = some (st, chk, at_) ∧
      s.posNow < at_) ∧
    (∃ s : State, s.Settled ∧ s.Shape ∧ ∃ w : Nat × Nat × Nat, ∃ l : List (Nat × Nat × Nat), s.mac.waitAck = w :: l
      ∧ s.macOn = true ∧ w.snd.snd ≤ s.posNow ∧ ∃ e : Ent, s.queueHead w.fst = some e) ∧
    (∃ s : State, s.Settled ∧ s.Shape ∧ ∃ w : Nat × Nat × Nat, ∃ l : List (Nat × Nat × Nat), s.mac.waitAck = w :: l
      ∧ s.macOn = true ∧ s.posNow < w.snd.snd) ∧
    (∃ s : State, s.Settled ∧ s.Shape ∧ ∃ n : Nat, ∃ k : Nat, ∃ r : Nat, ∃ e : Ent, s.pick = some (k, r, e) ∧
      (s.mayTx = true ∧ s.lineFree = true ∧ s.phy.busyEnd ≤ s.posNow ∧ s.atStart = true ∧ s.posn % 3 = 0) ∧ (slotsOk
      r n = true ∧ idleSlots s.npos (fun a => s.mayBegin a r && s.fits a (s.txPos (s.txMode e) (e.len (decide (k =
      3)))).snd e.f.ackreq) (s.benchPos + max s.mac.drawAt (max s.phy.busyEnd (max s.phy.txEnd s.phy.rxEnd)) -
      s.posNow) (n + 1) s.benchPos = n ∧ (s.mayBegin s.benchPos r && s.fits s.benchPos (s.txPos (s.txMode e) (e.len
      (decide (k = 3)))).snd e.f.ackreq) = true) ∧ s.flag F.PWR_STAT_VLDG = true ∧ (e.f.sec = false ∨ k = 3 ∨
      e.sent.isSome = true ∨ s.mayProtect = true) ∧ ∃ b : List Byte, ∃ t0 : State, s.frameBytes e (decide (k = 3)) =
      (t0, some b)) :=
  ⟨
    ⟨{ phy := { posBase := 1942 }, mac := { ackDue := (some (0, (0, 0))) } }, rfl, shaped _ (by decide +kernel), 0,
      0, 0, by decide +kernel⟩,
    ⟨{ mac := { q5 := [{}] } }, rfl, shaped _ (by decide +kernel), 3, 5, 2, {}, by decide +kernel⟩,
    ⟨{ regs := [(R.PHY_STAT, 0x4000)], phy := { courseAt := 0x972e88, posBase := 2537 }, mac := { ackDue := (some (0, (0, 2540))) }, cyc := 0x989688 },
      rfl, shaped _ (by decide +kernel), 0, 0, 2540, by decide +kernel⟩,
    ⟨{ regs := [(R.SYS_MODE, 1), (R.CLK_STAT, 0x8000), (R.MAC_STAT, 0x4000)], pwr := { boot := 5 }, mac := { joinAge := 8816 } },
      rfl, shaped _ (by decide +kernel), by decide +kernel⟩,
    ⟨{ mac := { ackDue := (some (0, (0, 1))) } }, rfl, shaped _ (by decide +kernel), 0, 0, 1, by decide +kernel⟩,
    ⟨{ regs := [(R.SYS_MODE, 1), (R.CLK_STAT, 0x8000)], pwr := { boot := 5 }, phy := { posBase := 2520 }, mac := { q2 := [{}], waitAck := [(1, (0, 0))] } },
      rfl, shaped _ (by decide +kernel), (1, (0, 0)), [], by decide +kernel, by decide +kernel, by decide +kernel,
      {}, by decide +kernel⟩,
    ⟨{ regs := [(R.SYS_MODE, 1), (R.CLK_STAT, 0x8000)], pwr := { boot := 5 }, mac := { waitAck := [(0, (0, 1627))] } },
      rfl, shaped _ (by decide +kernel), (0, (0, 1627)), [], by decide +kernel⟩,
    ⟨{ regs := [(R.SYS_MODE, 1), (R.CLK_STAT, 0x8000), (R.PWR_STAT, 0x2000), (R.MAC_STAT, 0x2000), (R.MAC_GRID, 0x200)], pwr := { boot := 5 }, phy := { courseAt := 0x12ed505, mask := 0xfffff }, mac := { q2 := [{ f := { urg := true, sec := false } }] }, cyc := 0x1312d05 },
      rfl, shaped _ (by decide +kernel), 0, 0, 12, { f := { urg := true, sec := false } }, by decide +kernel,
      by decide +kernel, by decide +kernel, by decide +kernel, by decide +kernel, [],
      { regs := [(R.SYS_MODE, 1), (R.CLK_STAT, 0x8000), (R.PWR_STAT, 0x2000), (R.MAC_STAT, 0x2000), (R.MAC_GRID, 0x200)], pwr := { boot := 5 }, phy := { courseAt := 0x12ed505, mask := 0xfffff }, mac := { q2 := [{ f := { urg := true, sec := false } }] }, cyc := 0x1312d05 },
      by decide +kernel⟩⟩

theorem hyps_RolesAndTheRingPort_1 :
    (∃ p : Path, ∃ s : State, s.Settled ∧ s.Shape ∧ s.pathUp p = true ∧ ∃ v : Word, (s.unlocked p = false ∨ s.fld
      F.MAC_ROLE_ROLE = BitVec.toNat v % 4)) ∧
    (∃ p : Path, ∃ s : State, s.Settled ∧ s.Shape ∧ s.pathUp p = true ∧ ∃ v : Word, s.unlocked p = true ∧ s.fld
      F.MAC_ROLE_ROLE ≠ BitVec.toNat v % 4) ∧
    (∃ p : Path, ∃ s : State, s.Settled ∧ s.Shape ∧ s.pathUp p = true ∧ (p = Path.remote ∨ s.fld F.MAC_RSEL_RING ≠ 4
      ∧ s.fld F.MAC_RSEL_RING ≠ 7 ∨ s.fld F.MAC_RSEL_RING = 4 ∧ s.mac.q4 = [] ∨ s.fld F.MAC_RSEL_RING = 7 ∧ s.q7 =
      [])) ∧
    (∃ p : Path, ∃ s : State, s.Settled ∧ s.Shape ∧ s.pathUp p = true ∧ ∃ v : Word, (p = Path.remote ∨ s.fld
      F.MAC_RSEL_RING ≠ 5)) ∧
    (∃ p : Path, ∃ s : State, s.Settled ∧ s.Shape ∧ s.pathUp p = true ∧ p = Path.host ∧ s.fld F.MAC_RSEL_RING = 4) ∧
    (∃ p : Path, ∃ s : State, s.Settled ∧ s.Shape ∧ s.pathUp p = true ∧ (p = Path.remote ∨ s.fld F.MAC_RSEL_RING ≠
      5)) ∧
    (∃ p : Path, ∃ s : State, s.Settled ∧ s.Shape ∧ s.pathUp p = true ∧ (p = Path.remote ∨ s.fld F.MAC_RSEL_RING ≠ 4
      ∧ s.fld F.MAC_RSEL_RING ≠ 7)) ∧
    (∃ p : Path, ∃ s : State, s.Settled ∧ s.Shape ∧ s.pathUp p = true ∧ p = Path.host ∧ s.fld F.MAC_RSEL_RING = 7) :=
  ⟨
    ⟨.host, { pwr := { boot := 5 } }, rfl, shaped _ (by decide +kernel), by decide +kernel, 0x1444,
      by decide +kernel⟩,
    ⟨.host, { host := { opened := true }, pwr := { boot := 5 } }, rfl, shaped _ (by decide +kernel),
      by decide +kernel, 0xffff, by decide +kernel⟩,
    ⟨.host, { pwr := { boot := 5 } }, rfl, shaped _ (by decide +kernel), by decide +kernel⟩,
    ⟨.host, { pwr := { boot := 5 } }, rfl, shaped _ (by decide +kernel), by decide +kernel, 6, by decide +kernel⟩,
    ⟨.host, { regs := [(R.MAC_RSEL, 4)], pwr := { boot := 5 } }, rfl, shaped _ (by decide +kernel),
      by decide +kernel⟩,
    ⟨.host, { pwr := { boot := 5 } }, rfl, shaped _ (by decide +kernel), by decide +kernel⟩,
    ⟨.remote, { pwr := { boot := 5 } }, rfl, shaped _ (by decide +kernel), by decide +kernel⟩,
    ⟨.host, { regs := [(R.MAC_RSEL, 7)], pwr := { boot := 5 } }, rfl, shaped _ (by decide +kernel),
      by decide +kernel⟩⟩

theorem hyps_RolesAndTheRingPort_2 :
    (∃ p : Path, ∃ s : State, s.Settled ∧ s.Shape ∧ s.pathUp p = true ∧ ∃ v : Word, p = Path.host ∧ s.fld
      F.MAC_RSEL_RING = 5) ∧
    (∃ p : Path, ∃ s : State, s.Settled ∧ s.Shape ∧ s.pathUp p = true ∧ p = Path.host ∧ s.fld F.MAC_RSEL_RING = 5) ∧
    (∃ p : Path, ∃ s : State, s.Settled ∧ s.Shape ∧ s.pathUp p = true ∧ p = Path.host ∧ s.fld F.MAC_RSEL_RING = 5 ∧
      ∃ f : LineFrame, ∃ pay : List Byte, parseHdr (List.take (getBits (s.mac.build.headD 0) 15 8 + 1) (wordsBytes
      (List.drop 1 s.mac.build))) = some (f, pay) ∧ f.typ.toNat ≤ 2 ∧ pay.length ≤ 220 ∧ s.ringFull 5 = false ∧
      (f.typ ≠ 0 ∨ s.flag F.CMD_CTL_LOOP = false)) ∧
    (∃ p : Path, ∃ s : State, s.Settled ∧ s.Shape ∧ s.pathUp p = true ∧ p = Path.host ∧ s.fld F.MAC_RSEL_RING = 5 ∧
      parseHdr (List.take (getBits (s.mac.build.headD 0) 15 8 + 1) (wordsBytes (List.drop 1 s.mac.build))) = none) ∧
    (∃ p : Path, ∃ s : State, s.Settled ∧ s.Shape ∧ s.pathUp p = true ∧ p = Path.host ∧ s.fld F.MAC_RSEL_RING = 5 ∧
      ∃ f : LineFrame, ∃ pay : List Byte, parseHdr (List.take (getBits (s.mac.build.headD 0) 15 8 + 1) (wordsBytes
      (List.drop 1 s.mac.build))) = some (f, pay) ∧ (2 < f.typ.toNat ∨ 220 < pay.length ∨ s.ringFull 5 = true)) :=
  ⟨
    ⟨.host, { regs := [(R.MAC_RSEL, 5)], pwr := { boot := 5 } }, rfl, shaped _ (by decide +kernel),
      by decide +kernel, 6, by decide +kernel⟩,
    ⟨.host, { regs := [(R.MAC_RSEL, 5)], pwr := { boot := 5 } }, rfl, shaped _ (by decide +kernel),
      by decide +kernel⟩,
    ⟨.host,
      { regs := [(R.MAC_RSEL, 5)], pwr := { boot := 5 }, mac := { build := [0x1000, 0x1000, 0, 0, 0, 0, 0] } }, rfl,
      shaped _ (by decide +kernel), by decide +kernel, by decide +kernel, by decide +kernel,
      { typ := 1, sec := false }, [], by decide +kernel⟩,
    ⟨.host, { regs := [(R.MAC_RSEL, 5)], pwr := { boot := 5 } }, rfl, shaped _ (by decide +kernel),
      by decide +kernel⟩,
    ⟨.host,
      { regs := [(R.MAC_RSEL, 5)], pwr := { boot := 5 }, mac := { build := [0x1000, 0x3000, 0, 0, 0, 0, 0] } }, rfl,
      shaped _ (by decide +kernel), by decide +kernel, by decide +kernel, by decide +kernel,
      { typ := 3, sec := false }, [], by decide +kernel⟩⟩

theorem hyps_LampCommandsAsk_1 :
    (∃ s : State, ∃ f : LineFrame, s.Settled ∧ s.passes 0 [clsNet, clsGroup] false f = true ∧ (List.drop 1
      f.args).length ≠ 13) ∧
    (∃ s : State, ∃ f : LineFrame, s.Settled ∧ s.passes 1 [clsNet, clsGroup] false f = true ∧ (List.drop 1
      f.args).length ≠ 19) ∧
    (∃ s : State, ∃ f : LineFrame, s.Settled ∧ s.passes 2 [clsNet, clsGroup] false f = true ∧ (List.drop 1
      f.args).length ≠ 13) ∧
    (∃ s : State, ∃ f : LineFrame, s.Settled ∧ s.passes 3 [clsNet, clsGroup] false f = true ∧ (List.drop 1
      f.args).length ≠ 6) ∧
    (∃ s : State, ∃ f : LineFrame, s.Settled ∧ s.passes 4 [clsNet, clsGroup] false f = true ∧ (List.drop 1
      f.args).length ≠ 12) ∧
    (∃ s : State, ∃ f : LineFrame, s.Settled ∧ s.passes 5 [clsNet, clsGroup] false f = true ∧ (List.drop 1
      f.args).length ≠ 6) ∧
    (∃ s : State, ∃ f : LineFrame, s.Settled ∧ s.passes 6 [clsNet, clsGroup] false f = true ∧ (List.drop 1
      f.args).length ≠ 3) ∧
    (∃ s : State, ∃ f : LineFrame, s.Settled ∧ s.passes 8 [clsNet, clsGroup] false f = true ∧ (List.drop 1
      f.args).length ≠ 10) :=
  ⟨
    ⟨{ pwr := { boot := 5 } },
      { urg := true, dmode := 3, dst := 0x3ff, src := 9, hopdst := 0x3ff, seg := 0xffff, seq := 2, hopsrc := 0x92, args := [6, 2, 2, 2, 5, 2, 7, 2, 5] },
      rfl, by decide +kernel⟩,
    ⟨{ pwr := { boot := 5 } },
      { urg := true, dmode := 3, dst := 0x3ff, src := 9, hopdst := 0x3ff, seg := 0xffff, seq := 2, hopsrc := 0x92, args := [6, 2, 2, 2, 5, 2, 7, 2, 5] },
      rfl, by decide +kernel⟩,
    ⟨{ pwr := { boot := 5 } },
      { urg := true, dmode := 3, dst := 0x3ff, src := 9, hopdst := 0x3ff, seg := 0xffff, seq := 2, hopsrc := 0x92, args := [6, 2, 2, 2, 5, 2, 7, 2, 5] },
      rfl, by decide +kernel⟩,
    ⟨{ pwr := { boot := 5 } },
      { urg := true, dmode := 3, dst := 0x3ff, src := 9, hopdst := 0x3ff, seg := 0xffff, seq := 2, hopsrc := 0x92, args := [6, 2, 2, 2, 5, 2, 7, 2, 5] },
      rfl, by decide +kernel⟩,
    ⟨{ pwr := { boot := 5 } },
      { urg := true, dmode := 3, dst := 0x3ff, src := 9, hopdst := 0x3ff, seg := 0xffff, seq := 2, hopsrc := 0x92, args := [6, 2, 2, 2, 5, 2, 7, 2, 5] },
      rfl, by decide +kernel⟩,
    ⟨{ pwr := { boot := 5 } },
      { urg := true, dmode := 3, dst := 0x3ff, src := 9, hopdst := 0x3ff, seg := 0xffff, seq := 2, hopsrc := 0x92, args := [6, 2, 2, 2, 5, 2, 7, 2, 5] },
      rfl, by decide +kernel⟩,
    ⟨{ pwr := { boot := 5 } },
      { urg := true, dmode := 3, dst := 0x3ff, src := 9, hopdst := 0x3ff, seg := 0xffff, seq := 2, hopsrc := 0x92, args := [6, 2, 2, 2, 5, 2, 7, 2, 5] },
      rfl, by decide +kernel⟩,
    ⟨{ pwr := { boot := 5 } },
      { urg := true, dmode := 3, dst := 0x3ff, src := 9, hopdst := 0x3ff, seg := 0xffff, seq := 2, hopsrc := 0x92, args := [6, 2, 2, 2, 5, 2, 7, 2, 5] },
      rfl, by decide +kernel⟩⟩

theorem hyps_LampCommandsAsk_2 :
    (∃ s : State, ∃ f : LineFrame, s.Settled ∧ s.passes 0 [clsNet, clsGroup] false f = true ∧ (List.drop 1
      f.args).length = 13 ∧ (numAt (List.drop 1 f.args) 0 1 = 0 ∨ 0 = 1 ∧ 999 < numAt (List.drop 1 f.args) 17 2 ∨
      (BitVec.ofNat 16 (numAt (List.drop 1 f.args) (1 + 2 * 4) 2)).toNat % 512 ≠ 0)) ∧
    (∃ s : State, ∃ f : LineFrame, s.Settled ∧ s.passes 2 [clsNet, clsGroup] false f = true ∧ (List.drop 1
      f.args).length = 13 ∧ (numAt (List.drop 1 f.args) 0 1 = 0 ∨ 2 = 1 ∧ 999 < numAt (List.drop 1 f.args) 17 2 ∨
      (BitVec.ofNat 16 (numAt (List.drop 1 f.args) (1 + 2 * 4) 2)).toNat % 512 ≠ 0)) ∧
    (∃ s : State, ∃ f : LineFrame, s.Settled ∧ s.passes 6 [clsNet, clsGroup] false f = true ∧ (List.drop 1
      f.args).length = 3 ∧ numAt (List.drop 1 f.args) 0 1 ≠ 0) ∧
    (∃ s : State, ∃ f : LineFrame, s.Settled ∧ s.passes 4 [clsNet, clsGroup] false f = true ∧ (List.drop 1
      f.args).length = 12 ∧ (numAt (List.drop 1 f.args) 0 1 = 0 ∨ 4 = 4 ∧ 999 < numAt (List.drop 1 f.args) 10 2)) ∧
    (∃ s : State, ∃ f : LineFrame, s.Settled ∧ s.passes 3 [clsNet, clsGroup] false f = true ∧ (List.drop 1
      f.args).length = 6 ∧ (numAt (List.drop 1 f.args) 0 1 = 0 ∨ 3 = 4 ∧ 999 < numAt (List.drop 1 f.args) 10 2)) ∧
    (∃ s : State, ∃ f : LineFrame, s.Settled ∧ s.passes 5 [clsNet, clsGroup] false f = true ∧ (List.drop 1
      f.args).length = 6 ∧ (numAt (List.drop 1 f.args) 0 1 = 0 ∨ 5 = 4 ∧ 999 < numAt (List.drop 1 f.args) 10 2)) ∧
    (∃ s : State, ∃ f : LineFrame, s.Settled ∧ s.passes 3 [clsNet, clsGroup] false f = true ∧ (List.drop 1
      f.args).length = 6 ∧ numAt (List.drop 1 f.args) 0 1 ≠ 0 ∧ (3 = 4 → numAt (List.drop 1 f.args) 10 2 ≤ 999)) ∧
    (∃ s : State, ∃ f : LineFrame, s.Settled ∧ s.passes 5 [clsNet, clsGroup] false f = true ∧ (List.drop 1
      f.args).length = 6 ∧ numAt (List.drop 1 f.args) 0 1 ≠ 0 ∧ (5 = 4 → numAt (List.drop 1 f.args) 10 2 ≤ 999)) :=
  ⟨
    ⟨{ regs := [(R.MAC_SHORT, 5)], pwr := { boot := 5 } },
      { ackreq := true, dir := true, dst := 7, src := 5, seg := 0xffff, seq := 0x6b2, kid := 0x40, args := ([0xff] ++ List.replicate 8 0 ++ [2, 4, 0, 4, 0]) },
      rfl, by decide +kernel⟩,
    ⟨{ regs := [(R.MAC_SHORT, 5)], pwr := { boot := 5 } },
      { ackreq := true, dir := true, dst := 7, src := 5, seg := 0xffff, seq := 0x6b2, kid := 0x40, args := ([0xff] ++ List.replicate 8 0 ++ [2, 4, 0, 4, 0]) },
      rfl, by decide +kernel⟩,
    ⟨{ pwr := { boot := 5 } },
      { hops := 0xe, dst := 7, src := 5, seg := 0xffff, seq := 0xfff, ttier := 1, kid := 2, args := [0x69, 0x29, 4, 3] },
      rfl, by decide +kernel⟩,
    ⟨{ regs := [(R.MAC_SHORT, 5)], pwr := { boot := 5 } },
      { urg := true, dmode := 2, hops := 3, dst := 7, src := 5, hopdst := 0x3ff, seg := 0xffff, seq := 0xfff, ttier := 1, kid := 0x60, args := [1, 1, 7, 0, 0, 4, 2, 0, 6, 7, 7, 7, 3] },
      rfl, by decide +kernel⟩,
    ⟨{ regs := [(R.MAC_SHORT, 5)], pwr := { boot := 5 } },
      { ackreq := true, hops := 4, dst := 5, src := 5, seg := 3, ttier := 0xf, sec := false, kid := 0x63, args := [1, 0, 2, 2, 4, 7, 1] },
      rfl, by decide +kernel⟩,
    ⟨{ regs := [(R.MAC_SHORT, 5)], pwr := { boot := 5 } },
      { ackreq := true, hops := 4, dst := 5, src := 5, seg := 3, ttier := 0xf, sec := false, kid := 0x63, args := [1, 0, 2, 2, 4, 7, 1] },
      rfl, by decide +kernel⟩,
    ⟨{ regs := [(R.MAC_SHORT, 5)], pwr := { boot := 5 } },
      { urg := true, hops := 7, dst := 7, src := 5, hopdst := 0x118, seg := 0xffff, hopsrc := 0x1f0, kid := 0xa1, args := [0, 7, 7, 1, 2, 7, 7] },
      rfl, by decide +kernel⟩,
    ⟨{ regs := [(R.MAC_SHORT, 5)], pwr := { boot := 5 } },
      { urg := true, hops := 7, dst := 7, src := 5, hopdst := 0x118, seg := 0xffff, hopsrc := 0x1f0, kid := 0xa1, args := [0, 7, 7, 1, 2, 7, 7] },
      rfl, by decide +kernel⟩⟩

theorem hyps_LampCommandsAsk_3 :
    (∃ s : State, ∃ f : LineFrame, s.Settled ∧ s.passes 6 [clsNet, clsGroup] false f = true ∧ (List.drop 1
      f.args).length = 3 ∧ numAt (List.drop 1 f.args) 0 1 = 0) ∧
    (∃ s : State, ∃ f : LineFrame, s.Settled ∧ s.passes 4 [clsNet, clsGroup] false f = true ∧ (List.drop 1
      f.args).length = 12 ∧ numAt (List.drop 1 f.args) 0 1 ≠ 0 ∧ (4 = 4 → numAt (List.drop 1 f.args) 10 2 ≤ 999)) :=
  ⟨
    ⟨{ pwr := { boot := 5 } },
      { urg := true, dir := true, dmode := 1, hops := 1, dst := 7, src := 9, seg := 3, kid := 3, args := [0, 0, 1, 5] },
      rfl, by decide +kernel⟩,
    ⟨{ pwr := { boot := 5 } },
      { dmode := 2, dst := 0x3ff, src := 5, seg := 0xffff, hopsrc := 0x3ff, kid := 2, args := [6, 3, 7, 5, 4, 3, 4, 1, 7, 0, 0, 2, 4] },
      rfl, by decide +kernel⟩⟩

theorem hyps_ConfigurationCommandsWrite_1 :
    (∃ s : State, ∃ f : LineFrame, s.Settled ∧ s.passes 32 [clsAdmin] true f = true ∧ (List.drop 1 f.args).length ≠
      8) ∧
    (∃ s : State, ∃ f : LineFrame, s.Settled ∧ s.passes 33 [clsAdmin] true f = true ∧ (List.drop 1 f.args).length ≠
      1) ∧
    (∃ s : State, ∃ f : LineFrame, s.Settled ∧ s.passes 34 [clsAdmin] true f = true ∧ (List.drop 1 f.args).length ≠
      1) ∧
    (∃ s : State, ∃ f : LineFrame, s.Settled ∧ s.passes 35 [clsAdmin] true f = true ∧ (List.drop 1 f.args).length ≠
      2) ∧
    (∃ s : State, ∃ f : LineFrame, s.Settled ∧ s.passes 40 [clsAdmin] true f = true ∧ (List.drop 1 f.args).length ≠
      1) ∧
    (∃ s : State, ∃ f : LineFrame, s.Settled ∧ s.passes 42 [clsAdmin] true f = true ∧ (List.drop 1 f.args).length ≠
      1) ∧
    (∃ s : State, ∃ f : LineFrame, s.Settled ∧ s.passes 43 [clsAdmin] true f = true ∧ (List.drop 1 f.args).length ≠
      1) ∧
    (∃ s : State, ∃ f : LineFrame, s.Settled ∧ s.passes 44 [clsAdmin] true f = true ∧ (List.drop 1 f.args).length ≠
      65) :=
  ⟨
    ⟨{ regs := [(R.MAC_SHORT, 5)], pwr := { boot := 5 } },
      { dst := 5, src := 5, seg := 0xffff, seq := 0xfff, ttier := 4, hopsrc := 0x3ff, kid := 1, args := [0x71, 6, 0, 0, 0x10, 2, 0xf8, 0x79, 0x2e, 0x65] },
      rfl, by decide +kernel⟩,
    ⟨{ regs := [(R.MAC_SHORT, 5)], pwr := { boot := 5 } },
      { dst := 5, src := 5, seg := 0xffff, seq := 0xfff, ttier := 4, hopsrc := 0x3ff, kid := 1, args := [0x71, 6, 0, 0, 0x10, 2, 0xf8, 0x79, 0x2e, 0x65] },
      rfl, by decide +kernel⟩,
    ⟨{ regs := [(R.MAC_SHORT, 5)], pwr := { boot := 5 } },
      { dst := 5, src := 5, seg := 0xffff, seq := 0xfff, ttier := 4, hopsrc := 0x3ff, kid := 1, args := [0x71, 6, 0, 0, 0x10, 2, 0xf8, 0x79, 0x2e, 0x65] },
      rfl, by decide +kernel⟩,
    ⟨{ regs := [(R.MAC_SHORT, 5)], pwr := { boot := 5 } },
      { dst := 5, src := 5, seg := 0xffff, seq := 0xfff, ttier := 4, hopsrc := 0x3ff, kid := 1, args := [0x71, 6, 0, 0, 0x10, 2, 0xf8, 0x79, 0x2e, 0x65] },
      rfl, by decide +kernel⟩,
    ⟨{ regs := [(R.MAC_SHORT, 5)], pwr := { boot := 5 } },
      { dst := 5, src := 5, seg := 0xffff, seq := 0xfff, ttier := 4, hopsrc := 0x3ff, kid := 1, args := [0x71, 6, 0, 0, 0x10, 2, 0xf8, 0x79, 0x2e, 0x65] },
      rfl, by decide +kernel⟩,
    ⟨{ regs := [(R.MAC_SHORT, 5)], pwr := { boot := 5 } },
      { dst := 5, src := 5, seg := 0xffff, seq := 0xfff, ttier := 4, hopsrc := 0x3ff, kid := 1, args := [0x71, 6, 0, 0, 0x10, 2, 0xf8, 0x79, 0x2e, 0x65] },
      rfl, by decide +kernel⟩,
    ⟨{ regs := [(R.MAC_SHORT, 5)], pwr := { boot := 5 } },
      { dst := 5, src := 5, seg := 0xffff, seq := 0xfff, ttier := 4, hopsrc := 0x3ff, kid := 1, args := [0x71, 6, 0, 0, 0x10, 2, 0xf8, 0x79, 0x2e, 0x65] },
      rfl, by decide +kernel⟩,
    ⟨{ regs := [(R.MAC_SHORT, 5)], pwr := { boot := 5 } },
      { dst := 5, src := 5, seg := 0xffff, seq := 0xfff, ttier := 4, hopsrc := 0x3ff, kid := 1, args := [0x71, 6, 0, 0, 0x10, 2, 0xf8, 0x79, 0x2e, 0x65] },
      rfl, by decide +kernel⟩⟩

theorem hyps_ConfigurationCommandsWrite_2 :
    (∃ s : State, ∃ f : LineFrame, s.Settled ∧ s.passes 45 [clsAdmin] true f = true ∧ (List.drop 1 f.args).length ≠
      0) ∧
    (∃ s : State, ∃ f : LineFrame, s.Settled ∧ s.passes 41 [clsAdmin] true f = true ∧ 5 ≤ (List.drop 1
      f.args).length ∧ (List.drop 1 f.args).length = 5 + 2 * numAt (List.drop 1 f.args) 4 1 ∧ numAt (List.drop 1
      f.args) 4 1 ≠ 0 ∧ numAt (List.drop 1 f.args) 4 1 ≤ 96 ∧ numAt (List.drop 1 f.args) 1 1 = 0 ∧ numAt (List.drop
      1 f.args) 0 1 = 6 ∧ (s.took 41 f).editOpen 6 = true ∧ numAt (List.drop 1 f.args) 2 2 + numAt (List.drop 1
      f.args) 4 1 ≤ lmpWords) ∧
    (∃ s : State, ∃ f : LineFrame, s.Settled ∧ s.passes 41 [clsAdmin] true f = true ∧ 5 ≤ (List.drop 1
      f.args).length ∧ (List.drop 1 f.args).length = 5 + 2 * numAt (List.drop 1 f.args) 4 1 ∧ (¬(numAt (List.drop 1
      f.args) 0 1 = 6 ∨ numAt (List.drop 1 f.args) 0 1 = 7 ∨ numAt (List.drop 1 f.args) 0 1 = 8) ∨ numAt (List.drop
      1 f.args) 4 1 = 0 ∨ 96 < numAt (List.drop 1 f.args) 4 1 ∨ numAt (List.drop 1 f.args) 0 1 ≠ 7 ∧ numAt
      (List.drop 1 f.args) 1 1 ≠ 0 ∨ 15 < numAt (List.drop 1 f.args) 1 1)) ∧
    (∃ s : State, ∃ f : LineFrame, s.Settled ∧ s.passes 45 [clsAdmin] true f = true ∧ (List.drop 1 f.args).length =
      0 ∧ (s.took 45 f).vRoom 2 = true) ∧
    (∃ s : State, ∃ f : LineFrame, s.Settled ∧ s.passes 35 [clsAdmin] true f = true ∧ (List.drop 1 f.args).length =
      2) ∧
    (∃ s : State, ∃ f : LineFrame, s.Settled ∧ s.passes 33 [clsAdmin] true f = true ∧ (List.drop 1 f.args).length =
      1 ∧ numAt (List.drop 1 f.args) 0 1 < 64) ∧
    (∃ s : State, ∃ f : LineFrame, s.Settled ∧ s.passes 34 [clsAdmin] true f = true ∧ (List.drop 1 f.args).length =
      1 ∧ numAt (List.drop 1 f.args) 0 1 < 64) ∧
    (∃ s : State, ∃ f : LineFrame, s.Settled ∧ s.passes 40 [clsAdmin] true f = true ∧ (List.drop 1 f.args).length =
      1 ∧ (numAt (List.drop 1 f.args) 0 1 = 6 ∨ numAt (List.drop 1 f.args) 0 1 = 7 ∨ numAt (List.drop 1 f.args) 0 1
      = 8)) :=
  ⟨
    ⟨{ regs := [(R.MAC_SHORT, 5)], pwr := { boot := 5 } },
      { dst := 5, src := 5, seg := 0xffff, seq := 0xfff, ttier := 4, hopsrc := 0x3ff, kid := 1, args := [0x71, 6, 0, 0, 0x10, 2, 0xf8, 0x79, 0x2e, 0x65] },
      rfl, by decide +kernel⟩,
    ⟨{ regs := [(R.LMP_STAT, 1), (R.MAC_SHORT, 5)], pwr := { boot := 5 } },
      { dst := 5, src := 5, seg := 0xffff, seq := 0xfff, ttier := 4, hopsrc := 0x3ff, kid := 1, args := [0x71, 6, 0, 0, 0x10, 2, 0xf8, 0x79, 0x2e, 0x65] },
      rfl, by decide +kernel⟩,
    ⟨{ regs := [(R.MAC_SHORT, 5)], pwr := { boot := 5 } },
      { dir := true, hops := 3, dst := 7, src := 5, hopdst := 0x366, seg := 0xffff, seq := 0xe14, ttier := 0xf, hopsrc := 5, kid := 0x41, args := [0x96, 1, 5, 0x1c, 4, 0] },
      rfl, by decide +kernel⟩,
    ⟨{ regs := [(R.MAC_SHORT, 5)], pwr := { boot := 5 } },
      { urg := true, ackreq := true, hops := 4, dst := 5, src := 5, hopdst := 6, seg := 0xffff, ttier := 0xf, hopsrc := 0x3ff, kid := 2, args := [0x96] },
      rfl, by decide +kernel⟩,
    ⟨{ regs := [(R.MAC_SHORT, 5)], pwr := { boot := 5 } },
      { ackreq := true, dmode := 3, dst := 7, src := 5, hopdst := 0x182, seg := 3, seq := 0xfff, ttier := 2, kid := 1, args := [0x16, 3, 3] },
      rfl, by decide +kernel⟩,
    ⟨{ regs := [(R.MAC_HEAD, 5)], pwr := { boot := 5 } },
      { dir := true, dmode := 1, dst := 7, src := 5, seg := 3, seq := 3, ttier := 6, hopsrc := 0x37b, kid := 0x41, args := [0xb3, 8] },
      rfl, by decide +kernel⟩,
    ⟨{ regs := [(R.MAC_HEAD, 5)], pwr := { boot := 5 } },
      { dir := true, dmode := 1, dst := 7, src := 5, seg := 3, seq := 3, ttier := 6, hopsrc := 0x37b, kid := 0x41, args := [0xb3, 8] },
      rfl, by decide +kernel⟩,
    ⟨{ regs := [(R.MAC_HEAD, 5)], pwr := { boot := 5 } },
      { dir := true, dmode := 1, dst := 7, src := 5, seg := 3, seq := 3, ttier := 6, hopsrc := 0x37b, kid := 0x41, args := [0xb3, 8] },
      rfl, by decide +kernel⟩⟩

theorem hyps_ConfigurationCommandsWrite_3 :
    (∃ s : State, ∃ f : LineFrame, s.Settled ∧ s.passes 42 [clsAdmin] true f = true ∧ (List.drop 1 f.args).length =
      1 ∧ (numAt (List.drop 1 f.args) 0 1 = 6 ∨ numAt (List.drop 1 f.args) 0 1 = 7 ∨ numAt (List.drop 1 f.args) 0 1
      = 8) ∧ (s.took 42 f).editOpen (numAt (List.drop 1 f.args) 0 1) = true ∧ (s.took 42 f).editPasses (numAt
      (List.drop 1 f.args) 0 1) = false) ∧
    (∃ s : State, ∃ f : LineFrame, s.Settled ∧ s.passes 43 [clsAdmin] true f = true ∧ (List.drop 1 f.args).length =
      1 ∧ (numAt (List.drop 1 f.args) 0 1 = 6 ∨ numAt (List.drop 1 f.args) 0 1 = 7 ∨ numAt (List.drop 1 f.args) 0 1
      = 8) ∧ (s.took 43 f).vRoom 2 = true) ∧
    (∃ s : State, ∃ f : LineFrame, s.Settled ∧ s.passes 32 [clsAdmin] true f = true ∧ (List.drop 1 f.args).length =
      8) ∧
    (∃ s : State, ∃ f : LineFrame, s.Settled ∧ s.passes 40 [clsAdmin] true f = true ∧ (List.drop 1 f.args).length =
      1 ∧ ¬(numAt (List.drop 1 f.args) 0 1 = 6 ∨ numAt (List.drop 1 f.args) 0 1 = 7 ∨ numAt (List.drop 1 f.args) 0 1
      = 8)) ∧
    (∃ s : State, ∃ f : LineFrame, s.Settled ∧ s.passes 42 [clsAdmin] true f = true ∧ (List.drop 1 f.args).length =
      1 ∧ ¬(numAt (List.drop 1 f.args) 0 1 = 6 ∨ numAt (List.drop 1 f.args) 0 1 = 7 ∨ numAt (List.drop 1 f.args) 0 1
      = 8)) ∧
    (∃ s : State, ∃ f : LineFrame, s.Settled ∧ s.passes 43 [clsAdmin] true f = true ∧ (List.drop 1 f.args).length =
      1 ∧ ¬(numAt (List.drop 1 f.args) 0 1 = 6 ∨ numAt (List.drop 1 f.args) 0 1 = 7 ∨ numAt (List.drop 1 f.args) 0 1
      = 8)) ∧
    (∃ s : State, ∃ f : LineFrame, s.Settled ∧ s.passes 42 [clsAdmin] true f = true ∧ (List.drop 1 f.args).length =
      1 ∧ (numAt (List.drop 1 f.args) 0 1 = 6 ∨ numAt (List.drop 1 f.args) 0 1 = 7 ∨ numAt (List.drop 1 f.args) 0 1
      = 8) ∧ (s.took 42 f).editOpen (numAt (List.drop 1 f.args) 0 1) = false) ∧
    (∃ s : State, ∃ f : LineFrame, s.Settled ∧ s.passes 42 [clsAdmin] true f = true ∧ (List.drop 1 f.args).length =
      1 ∧ (numAt (List.drop 1 f.args) 0 1 = 6 ∨ numAt (List.drop 1 f.args) 0 1 = 7 ∨ numAt (List.drop 1 f.args) 0 1
      = 8) ∧ (s.took 42 f).editOpen (numAt (List.drop 1 f.args) 0 1) = true ∧ (s.took 42 f).editPasses (numAt
      (List.drop 1 f.args) 0 1) = true) :=
  ⟨
    ⟨{ regs := [(R.HLT_STAT, 0x40), (R.MAC_HEAD, 5)], pwr := { boot := 5 }, cmd := { rest := [0, 0] } },
      { dir := true, dmode := 1, dst := 7, src := 5, seg := 3, seq := 3, ttier := 6, hopsrc := 0x37b, kid := 0x41, args := [0xb3, 8] },
      rfl, by decide +kernel⟩,
    ⟨{ regs := [(R.MAC_HEAD, 5)], pwr := { boot := 5 } },
      { dir := true, dmode := 1, dst := 7, src := 5, seg := 3, seq := 3, ttier := 6, hopsrc := 0x37b, kid := 0x41, args := [0xb3, 8] },
      rfl, by decide +kernel⟩,
    ⟨{ regs := [(R.MAC_SHORT, 5)], pwr := { boot := 5 } },
      { dir := true, dmode := 3, hops := 3, dst := 1, src := 5, hopdst := 0x3ff, seg := 0xffff, seq := 0xf9, kid := 0x40, args := [0xce, 0xfe, 0xee, 0xdc, 0xe6, 0xff, 0x9d, 4, 1] },
      rfl, by decide +kernel⟩,
    ⟨{ regs := [(R.MAC_SHORT, 5)], pwr := { boot := 5 } },
      { urg := true, dmode := 1, hops := 2, dst := 7, src := 5, hopdst := 0x39b, seg := 3, hopsrc := 0x3ff, kid := 0x43, args := [7, 2] },
      rfl, by decide +kernel⟩,
    ⟨{ regs := [(R.MAC_SHORT, 5)], pwr := { boot := 5 } },
      { urg := true, dmode := 1, hops := 2, dst := 7, src := 5, hopdst := 0x39b, seg := 3, hopsrc := 0x3ff, kid := 0x43, args := [7, 2] },
      rfl, by decide +kernel⟩,
    ⟨{ regs := [(R.MAC_SHORT, 5)], pwr := { boot := 5 } },
      { urg := true, dmode := 1, hops := 2, dst := 7, src := 5, hopdst := 0x39b, seg := 3, hopsrc := 0x3ff, kid := 0x43, args := [7, 2] },
      rfl, by decide +kernel⟩,
    ⟨{ regs := [(R.MAC_SHORT, 5)], pwr := { boot := 5 } },
      { urg := true, ackreq := true, hops := 2, dst := 7, src := 5, hopdst := 0x3ff, seg := 3, hopsrc := 3, kid := 0x42, args := [0xff, 8] },
      rfl, by decide +kernel⟩,
    ⟨{ regs := [(R.FDE_STAT, 2), (R.MAC_SHORT, 5)], pwr := { boot := 5 } },
      { ackreq := true, hops := 4, dst := 1, src := 5, hopdst := 0x1ee, seg := 3, seq := 0x65, hopsrc := 0x3ff, sec := false, kid := 2, args := [6, 7] },
      rfl, by decide +kernel⟩⟩

theorem hyps_ConfigurationCommandsWrite_4 :
    (∃ s : State, ∃ f : LineFrame, s.Settled ∧ s.passes 41 [clsAdmin] true f = true ∧ 5 ≤ (List.drop 1
      f.args).length ∧ (List.drop 1 f.args).length = 5 + 2 * numAt (List.drop 1 f.args) 4 1 ∧ (numAt (List.drop 1
      f.args) 0 1 = 6 ∨ numAt (List.drop 1 f.args) 0 1 = 7 ∨ numAt (List.drop 1 f.args) 0 1 = 8) ∧ numAt (List.drop
      1 f.args) 4 1 ≠ 0 ∧ numAt (List.drop 1 f.args) 4 1 ≤ 96 ∧ (numAt (List.drop 1 f.args) 0 1 ≠ 7 → numAt
      (List.drop 1 f.args) 1 1 = 0) ∧ numAt (List.drop 1 f.args) 1 1 ≤ 15 ∧ (s.took 41 f).editOpen (numAt (List.drop
      1 f.args) 0 1) = false) ∧
    (∃ s : State, ∃ f : LineFrame, s.Settled ∧ s.passes 33 [clsAdmin] true f = true ∧ (List.drop 1 f.args).length =
      1 ∧ 64 ≤ numAt (List.drop 1 f.args) 0 1) ∧
    (∃ s : State, ∃ f : LineFrame, s.Settled ∧ s.passes 34 [clsAdmin] true f = true ∧ (List.drop 1 f.args).length =
      1 ∧ 64 ≤ numAt (List.drop 1 f.args) 0 1) ∧
    (∃ s : State, ∃ f : LineFrame, s.Settled ∧ s.passes 41 [clsAdmin] true f = true ∧ 5 ≤ (List.drop 1
      f.args).length ∧ (List.drop 1 f.args).length = 5 + 2 * numAt (List.drop 1 f.args) 4 1 ∧ numAt (List.drop 1
      f.args) 4 1 ≠ 0 ∧ numAt (List.drop 1 f.args) 4 1 ≤ 96 ∧ numAt (List.drop 1 f.args) 1 1 = 0 ∧ numAt (List.drop
      1 f.args) 0 1 = 8 ∧ (s.took 41 f).editOpen 8 = true ∧ numAt (List.drop 1 f.args) 2 2 + numAt (List.drop 1
      f.args) 4 1 ≤ hltWords) :=
  ⟨
    ⟨{ regs := [(R.MAC_SHORT, 5)], pwr := { boot := 5 } },
      { ackreq := true, hops := 4, dst := 7, src := 5, hopdst := 1, seg := 3, ttier := 2, hopsrc := 0xf5, sec := false, kid := 2, args := [0x2a, 6, 0, 0, 5, 1, 4, 0xbf] },
      rfl, by decide +kernel⟩,
    ⟨{ regs := [(R.MAC_SHORT, 5)], pwr := { boot := 5 } },
      { dir := true, dmode := 2, hops := 0xf, dst := 0x3ff, src := 5, hopdst := 0x42, seg := 0xffff, hopsrc := 0x3ff, kid := 0xa0, args := [0xac, 0x5d] },
      rfl, by decide +kernel⟩,
    ⟨{ regs := [(R.MAC_SHORT, 5)], pwr := { boot := 5 } },
      { dir := true, dmode := 2, hops := 0xf, dst := 0x3ff, src := 5, hopdst := 0x42, seg := 0xffff, hopsrc := 0x3ff, kid := 0xa0, args := [0xac, 0x5d] },
      rfl, by decide +kernel⟩,
    ⟨{ regs := [(R.HLT_STAT, 0x40), (R.MAC_SHORT, 5)], pwr := { boot := 5 } },
      { ackreq := true, dir := true, hops := 1, dst := 7, src := 5, hopdst := 1, seg := 0xffff, seq := 0x62, ttier := 0xc, kid := 0x21, args := [3, 8, 0, 0, 5, 2, 1, 0x42, 0x48, 0x9b] },
      rfl, by decide +kernel⟩⟩

theorem hyps_QueriesAnswerTheirBodies_1 :
    (∃ s : State, ∃ f : LineFrame, s.Settled ∧ s.passes 175 [clsNet] (175 != 175) f = true ∧ (List.drop 1
      f.args).length ≠ 0) ∧
    (∃ s : State, ∃ f : LineFrame, s.Settled ∧ s.passes 64 [clsNet] (64 != 175) f = true ∧ (List.drop 1
      f.args).length ≠ 0) ∧
    (∃ s : State, ∃ f : LineFrame, s.Settled ∧ s.passes 65 [clsNet] (65 != 175) f = true ∧ (List.drop 1
      f.args).length ≠ 1) ∧
    (∃ s : State, ∃ f : LineFrame, s.Settled ∧ s.passes 66 [clsNet] (66 != 175) f = true ∧ (List.drop 1
      f.args).length ≠ 2) ∧
    (∃ s : State, ∃ f : LineFrame, s.Settled ∧ s.passes 67 [clsNet] (67 != 175) f = true ∧ (List.drop 1
      f.args).length ≠ 0) ∧
    (∃ s : State, ∃ f : LineFrame, s.Settled ∧ s.passes 68 [clsNet] (68 != 175) f = true ∧ (List.drop 1
      f.args).length ≠ 2) ∧
    (∃ s : State, ∃ f : LineFrame, s.Settled ∧ s.passes 69 [clsNet] (69 != 175) f = true ∧ (List.drop 1
      f.args).length ≠ 3) ∧
    (∃ s : State, ∃ f : LineFrame, s.Settled ∧ s.passes 70 [clsNet] (70 != 175) f = true ∧ (List.drop 1
      f.args).length ≠ 0) :=
  ⟨
    ⟨{ pwr := { boot := 5 } },
      { urg := true, dmode := 3, dst := 0x3ff, src := 9, hopdst := 0x3ff, seg := 0xffff, seq := 2, hopsrc := 0x92, args := [6, 2, 2, 2, 5, 2, 7, 2, 5] },
      rfl, by decide +kernel⟩,
    ⟨{ regs := [(R.MAC_HEAD, 5)], pwr := { boot := 5 } },
      { dmode := 1, dst := 7, src := 5, hopdst := 0x393, seg := 3, ttier := 4, kid := 1, args := ([2, 4] ++ List.replicate 32 0) },
      rfl, by decide +kernel⟩,
    ⟨{ regs := [(R.MAC_HEAD, 5)], pwr := { boot := 5 } },
      { dmode := 1, dst := 7, src := 5, hopdst := 0x393, seg := 3, ttier := 4, kid := 1, args := ([2, 4] ++ List.replicate 32 0) },
      rfl, by decide +kernel⟩,
    ⟨{ regs := [(R.MAC_HEAD, 5)], pwr := { boot := 5 } },
      { dmode := 1, dst := 7, src := 5, hopdst := 0x393, seg := 3, ttier := 4, kid := 1, args := ([2, 4] ++ List.replicate 32 0) },
      rfl, by decide +kernel⟩,
    ⟨{ regs := [(R.MAC_HEAD, 5)], pwr := { boot := 5 } },
      { dmode := 1, dst := 7, src := 5, hopdst := 0x393, seg := 3, ttier := 4, kid := 1, args := ([2, 4] ++ List.replicate 32 0) },
      rfl, by decide +kernel⟩,
    ⟨{ regs := [(R.MAC_HEAD, 5)], pwr := { boot := 5 } },
      { dmode := 1, dst := 7, src := 5, hopdst := 0x393, seg := 3, ttier := 4, kid := 1, args := ([2, 4] ++ List.replicate 32 0) },
      rfl, by decide +kernel⟩,
    ⟨{ regs := [(R.MAC_HEAD, 5)], pwr := { boot := 5 } },
      { dmode := 1, dst := 7, src := 5, hopdst := 0x393, seg := 3, ttier := 4, kid := 1, args := ([2, 4] ++ List.replicate 32 0) },
      rfl, by decide +kernel⟩,
    ⟨{ regs := [(R.MAC_HEAD, 5)], pwr := { boot := 5 } },
      { dmode := 1, dst := 7, src := 5, hopdst := 0x393, seg := 3, ttier := 4, kid := 1, args := ([2, 4] ++ List.replicate 32 0) },
      rfl, by decide +kernel⟩⟩

theorem hyps_QueriesAnswerTheirBodies_2 :
    (∃ s : State, ∃ f : LineFrame, s.Settled ∧ s.passes 71 [clsNet] (71 != 175) f = true ∧ (List.drop 1
      f.args).length ≠ 0) ∧
    (∃ s : State, ∃ f : LineFrame, s.Settled ∧ s.passes 72 [clsNet] (72 != 175) f = true ∧ (List.drop 1
      f.args).length ≠ 0) ∧
    (∃ s : State, ∃ f : LineFrame, s.Settled ∧ s.passes 73 [clsNet] (73 != 175) f = true ∧ (List.drop 1
      f.args).length ≠ 0) ∧
    (∃ s : State, ∃ f : LineFrame, s.Settled ∧ s.passes 64 [clsNet] (64 != 175) f = true ∧ (List.drop 1
      f.args).length = 0 ∧ true = true) ∧
    (∃ s : State, ∃ f : LineFrame, s.Settled ∧ s.passes 67 [clsNet] (67 != 175) f = true ∧ (List.drop 1
      f.args).length = 0 ∧ true = true) ∧
    (∃ s : State, ∃ f : LineFrame, s.Settled ∧ s.passes 70 [clsNet] (70 != 175) f = true ∧ (List.drop 1
      f.args).length = 0 ∧ true = true) ∧
    (∃ s : State, ∃ f : LineFrame, s.Settled ∧ s.passes 71 [clsNet] (71 != 175) f = true ∧ (List.drop 1
      f.args).length = 0 ∧ true = true) ∧
    (∃ s : State, ∃ f : LineFrame, s.Settled ∧ s.passes 72 [clsNet] (72 != 175) f = true ∧ (List.drop 1
      f.args).length = 0 ∧ true = true) :=
  ⟨
    ⟨{ regs := [(R.MAC_HEAD, 5)], pwr := { boot := 5 } },
      { dmode := 1, dst := 7, src := 5, hopdst := 0x393, seg := 3, ttier := 4, kid := 1, args := ([2, 4] ++ List.replicate 32 0) },
      rfl, by decide +kernel⟩,
    ⟨{ regs := [(R.MAC_HEAD, 5)], pwr := { boot := 5 } },
      { dmode := 1, dst := 7, src := 5, hopdst := 0x393, seg := 3, ttier := 4, kid := 1, args := ([2, 4] ++ List.replicate 32 0) },
      rfl, by decide +kernel⟩,
    ⟨{ regs := [(R.MAC_HEAD, 5)], pwr := { boot := 5 } },
      { dmode := 1, dst := 7, src := 5, hopdst := 0x393, seg := 3, ttier := 4, kid := 1, args := ([2, 4] ++ List.replicate 32 0) },
      rfl, by decide +kernel⟩,
    ⟨{ regs := [(R.MAC_SHORT, 5)], pwr := { boot := 5 } },
      { urg := true, ackreq := true, hops := 4, dst := 5, src := 5, hopdst := 6, seg := 0xffff, ttier := 0xf, hopsrc := 0x3ff, kid := 2, args := [0x96] },
      rfl, by decide +kernel⟩,
    ⟨{ regs := [(R.MAC_SHORT, 5)], pwr := { boot := 5 } },
      { urg := true, ackreq := true, hops := 4, dst := 5, src := 5, hopdst := 6, seg := 0xffff, ttier := 0xf, hopsrc := 0x3ff, kid := 2, args := [0x96] },
      rfl, by decide +kernel⟩,
    ⟨{ regs := [(R.MAC_SHORT, 5)], pwr := { boot := 5 } },
      { urg := true, ackreq := true, hops := 4, dst := 5, src := 5, hopdst := 6, seg := 0xffff, ttier := 0xf, hopsrc := 0x3ff, kid := 2, args := [0x96] },
      rfl, by decide +kernel⟩,
    ⟨{ regs := [(R.MAC_SHORT, 5)], pwr := { boot := 5 } },
      { urg := true, ackreq := true, hops := 4, dst := 5, src := 5, hopdst := 6, seg := 0xffff, ttier := 0xf, hopsrc := 0x3ff, kid := 2, args := [0x96] },
      rfl, by decide +kernel⟩,
    ⟨{ regs := [(R.MAC_SHORT, 5)], pwr := { boot := 5 } },
      { urg := true, ackreq := true, hops := 4, dst := 5, src := 5, hopdst := 6, seg := 0xffff, ttier := 0xf, hopsrc := 0x3ff, kid := 2, args := [0x96] },
      rfl, by decide +kernel⟩⟩

theorem hyps_QueriesAnswerTheirBodies_3 :
    (∃ s : State, ∃ f : LineFrame, s.Settled ∧ s.passes 73 [clsNet] (73 != 175) f = true ∧ (List.drop 1
      f.args).length = 0 ∧ true = true) ∧
    (∃ s : State, ∃ f : LineFrame, s.Settled ∧ s.passes 175 [clsNet] (175 != 175) f = true ∧ (List.drop 1
      f.args).length = 0 ∧ true = true) ∧
    (∃ s : State, ∃ f : LineFrame, s.Settled ∧ s.passes 66 [clsNet] (66 != 175) f = true ∧ (List.drop 1
      f.args).length = 2 ∧ true = true) ∧
    (∃ s : State, ∃ f : LineFrame, s.Settled ∧ s.passes 68 [clsNet] (68 != 175) f = true ∧ (List.drop 1
      f.args).length = 2 ∧ decide (1 ≤ numAt (List.drop 1 f.args) 1 1 ∧ numAt (List.drop 1 f.args) 1 1 ≤ 16 ∧ numAt
      (List.drop 1 f.args) 0 1 + numAt (List.drop 1 f.args) 1 1 ≤ 64) = true) ∧
    (∃ s : State, ∃ f : LineFrame, s.Settled ∧ s.passes 69 [clsNet] (69 != 175) f = true ∧ (List.drop 1
      f.args).length = 3 ∧ decide (numAt (List.drop 1 f.args) 0 2 < 8192 ∧ 1 ≤ numAt (List.drop 1 f.args) 2 1 ∧
      numAt (List.drop 1 f.args) 2 1 ≤ 12) = false) ∧
    (∃ s : State, ∃ f : LineFrame, s.Settled ∧ s.passes 68 [clsNet] (68 != 175) f = true ∧ (List.drop 1
      f.args).length = 2 ∧ decide (1 ≤ numAt (List.drop 1 f.args) 1 1 ∧ numAt (List.drop 1 f.args) 1 1 ≤ 16 ∧ numAt
      (List.drop 1 f.args) 0 1 + numAt (List.drop 1 f.args) 1 1 ≤ 64) = false) ∧
    (∃ s : State, ∃ f : LineFrame, s.Settled ∧ s.passes 96 [clsAdmin] true f = true ∧ (List.drop 1 f.args).length =
      4 ∧ blockOk (List.drop 1 f.args) = false) ∧
    (∃ s : State, ∃ f : LineFrame, s.Settled ∧ s.passes 96 [clsAdmin] true f = true ∧ (List.drop 1 f.args).length =
      4 ∧ blockOk (List.drop 1 f.args) = true ∧ numAt (List.drop 1 f.args) 2 1 = 1) :=
  ⟨
    ⟨{ regs := [(R.MAC_SHORT, 5)], pwr := { boot := 5 } },
      { urg := true, ackreq := true, hops := 4, dst := 5, src := 5, hopdst := 6, seg := 0xffff, ttier := 0xf, hopsrc := 0x3ff, kid := 2, args := [0x96] },
      rfl, by decide +kernel⟩,
    ⟨{ pwr := { boot := 5 } },
      { urg := true, ackreq := true, hops := 4, dst := 5, src := 5, hopdst := 6, seg := 0xffff, ttier := 0xf, hopsrc := 0x3ff, kid := 2, args := [0x96] },
      rfl, by decide +kernel⟩,
    ⟨{ regs := [(R.MAC_SHORT, 5)], pwr := { boot := 5 } },
      { ackreq := true, dmode := 3, dst := 7, src := 5, hopdst := 0x182, seg := 3, seq := 0xfff, ttier := 2, kid := 1, args := [0x16, 3, 3] },
      rfl, by decide +kernel⟩,
    ⟨{ regs := [(R.MAC_SHORT, 5)], pwr := { boot := 5 } },
      { ackreq := true, dmode := 3, dst := 7, src := 5, hopdst := 0x182, seg := 3, seq := 0xfff, ttier := 2, kid := 1, args := [0x16, 3, 3] },
      rfl, by decide +kernel⟩,
    ⟨{ regs := [(R.MAC_SHORT, 5)], pwr := { boot := 5 } },
      { hops := 0xe, dst := 7, src := 5, seg := 0xffff, seq := 0xfff, ttier := 1, kid := 2, args := [0x69, 0x29, 4, 3] },
      rfl, by decide +kernel⟩,
    ⟨{ regs := [(R.MAC_SHORT, 5)], pwr := { boot := 5 } },
      { dmode := 1, dst := 7, src := 5, hopdst := 1, seg := 0xffff, seq := 7, ttier := 0xa, hopsrc := 0xfe, kid := 0x43, args := [0x91, 0xff, 0] },
      rfl, by decide +kernel⟩,
    ⟨{ regs := [(R.MAC_HEAD, 5)], pwr := { boot := 5 } },
      { dir := true, hops := 1, dst := 7, src := 5, seg := 0xffff, ttier := 2, kid := 0x41, args := [0xa6, 0xff, 0, 6, 1] },
      rfl, by decide +kernel⟩,
    ⟨{ regs := [(R.MAC_SHORT, 5)], pwr := { boot := 5 } },
      { ackreq := true, hops := 3, dst := 0x3ff, src := 5, seg := 0xffff, sec := false, kid := 1, args := [3, 1, 3, 1, 0] },
      rfl, by decide +kernel⟩⟩

theorem hyps_QueriesAnswerTheirBodies_4 :
    (∃ s : State, ∃ f : LineFrame, s.Settled ∧ s.passes 65 [clsNet] (65 != 175) f = true ∧ (List.drop 1
      f.args).length = 1 ∧ decide (numAt (List.drop 1 f.args) 0 1 < 8) = true) ∧
    (∃ s : State, ∃ f : LineFrame, s.Settled ∧ s.passes 65 [clsNet] (65 != 175) f = true ∧ (List.drop 1
      f.args).length = 1 ∧ decide (numAt (List.drop 1 f.args) 0 1 < 8) = false) ∧
    (∃ s : State, ∃ f : LineFrame, s.Settled ∧ s.passes 97 [clsAdmin] true f = true ∧ decide ((List.drop 1
      f.args).length = 6 ∧ blockOk (List.drop 1 f.args) = true ∧ numAt (List.drop 1 f.args) 2 1 = 1) = true ∧ numAt
      (List.drop 1 f.args) 0 1 < 17 ∧ 0 < numAt (List.drop 1 f.args) 1 1 ∧ numAt (List.drop 1 f.args) 1 1 < 128 ∧
      ¬numAt (List.drop 1 f.args) 0 1 ∈ [0, 10, 11] ∧ ∃ r : RegDef, regDef (numAt (List.drop 1 f.args) 0 1) (numAt
      (List.drop 1 f.args) 1 1) = some r ∧ r.count = 1 ∧ PlainRegister (numAt (List.drop 1 f.args) 0 1) (numAt
      (List.drop 1 f.args) 1 1) = true ∧ (s.took 97 f).remoteMark (numAt (List.drop 1 f.args) 0 1) (numAt (List.drop
      1 f.args) 1 1) (BitVec.ofNat 16 (numAt (List.drop 1 f.args) 4 2)) = none) ∧
    (∃ s : State, ∃ f : LineFrame, s.Settled ∧ s.passes 69 [clsNet] (69 != 175) f = true ∧ (List.drop 1
      f.args).length = 3 ∧ decide (numAt (List.drop 1 f.args) 0 2 < 8192 ∧ 1 ≤ numAt (List.drop 1 f.args) 2 1 ∧
      numAt (List.drop 1 f.args) 2 1 ≤ 12) = true) ∧
    (∃ s : State, ∃ f : LineFrame, s.Settled ∧ s.passes 98 [clsAdmin] true f = true ∧ decide ((List.drop 1
      f.args).length = 5 ∧ numAt (List.drop 1 f.args) 0 1 = 1) = true ∧ numAt (List.drop 1 f.args) 1 1 < 17 ∧ 0 <
      numAt (List.drop 1 f.args) 2 1 ∧ numAt (List.drop 1 f.args) 2 1 < 128 ∧ ¬numAt (List.drop 1 f.args) 1 1 ∈ [0,
      10, 11] ∧ ∃ r : RegDef, regDef (numAt (List.drop 1 f.args) 1 1) (numAt (List.drop 1 f.args) 2 1) = some r ∧
      r.count = 1 ∧ PlainRegister (numAt (List.drop 1 f.args) 1 1) (numAt (List.drop 1 f.args) 2 1) = true ∧ (s.took
      98 f).remoteMark (numAt (List.drop 1 f.args) 1 1) (numAt (List.drop 1 f.args) 2 1) (BitVec.ofNat 16 (numAt
      (List.drop 1 f.args) 3 2)) = none) :=
  ⟨
    ⟨{ regs := [(R.MAC_HEAD, 5)], pwr := { boot := 5 } },
      { urg := true, ackreq := true, dmode := 3, hops := 0xc, dst := 5, src := 5, hopdst := 7, seg := 0xffff, seq := 0xfff, hopsrc := 0x376, args := [0xfb, 3] },
      rfl, by decide +kernel⟩,
    ⟨{ regs := [(R.MAC_SHORT, 5)], pwr := { boot := 5 } },
      { urg := true, ackreq := true, hops := 2, dst := 7, src := 5, hopdst := 0x3ff, seg := 3, hopsrc := 3, kid := 0x42, args := [0xff, 8] },
      rfl, by decide +kernel⟩,
    ⟨{ regs := [(R.MAC_SHORT, 5)], pwr := { boot := 5 } },
      { ackreq := true, dst := 1, src := 5, seg := 0xffff, seq := 0xe7, hopsrc := 6, kid := 0xa3, args := [0x50, 0xf, 0x11, 1, 0, 0x17, 4] },
      rfl, by decide +kernel, by decide +kernel, by decide +kernel, by decide +kernel, by decide +kernel,
      by decide +kernel,
      { off := 17, count := 1, cfg := false, flds := [{ hi := 9, lo := 0, acc := Acc.ro, rst := 0 }] },
      by decide +kernel⟩,
    ⟨{ regs := [(R.MAC_SHORT, 5)], pwr := { boot := 5 } },
      { hops := 5, dst := 7, src := 5, hopdst := 0x3ff, seg := 0xffff, hopsrc := 2, sec := false, kid := 3, args := [6, 0, 0, 7] },
      rfl, by decide +kernel⟩,
    ⟨{ regs := [(R.MAC_SHORT, 1)], pwr := { boot := 5 } },
      { urg := true, dir := true, hops := 0xd, dst := 5, src := 1, seg := 0xffff, hopsrc := 1, sec := false, kid := 1, args := [0xb3, 1, 8, 0x1a, 1, 0x89] },
      rfl, by decide +kernel, by decide +kernel, by decide +kernel, by decide +kernel, by decide +kernel,
      by decide +kernel,
      { off := 26, count := 1, cfg := false, flds := [{ hi := 15, lo := 0, acc := Acc.ro, rst := 400 }] },
      by decide +kernel⟩⟩

theorem hyps_NetworkCommandsManageTheNode_1 :
    (∃ s : State, ∃ f : LineFrame, s.Settled ∧ (s.pathUp Path.remote = false ∨ s.isHead = false ∨ f.typ ≠ 1)) ∧
    (∃ s : State, ∃ f : LineFrame, s.Settled ∧ s.passes 118 [clsNet] false f = true ∧ (s.took 118 f).oneHop f =
      false) ∧
    (∃ s : State, ∃ f : LineFrame, s.Settled ∧ s.passes 119 [clsNet] false f = true ∧ (s.took 119 f).oneHop f =
      false) ∧
    (∃ s : State, ∃ f : LineFrame, s.Settled ∧ s.passes 116 [clsNet] true f = true ∧ (List.drop 1 f.args).length = 5
      ∧ (s.took 116 f).isHead = false) ∧
    (∃ s : State, ∃ f : LineFrame, s.Settled ∧ (s.passes 113 [clsNet] true f = true ∨ s.cmdOn = true ∧ f.typ = 0 ∧
      f.sec = false ∧ s.fld F.MAC_STAT_JST = 1 ∧ (s.tabFlush.takeFrame 113 f).snd.isSome = true ∧ f.src.toNat =
      (s.tabFlush.takeFrame 113 f).fst.fld F.MAC_HEAD_A) ∧ (List.drop 1 f.args).length = 13 ∧ ¬(List.take 8
      (List.drop 1 f.args) = euiBytes ∧ (s.took 113 f).fld F.MAC_STAT_JST = 1)) ∧
    (∃ s : State, ∃ f : LineFrame, s.Settled ∧ s.pathUp Path.remote = true ∧ s.isHead = true ∧ f.typ = 1 ∧ s.forMe f
      = true ∧ (f.sec = false ∨ kidClass f.kid.toNat = clsNet) ∧ s.flag F.SYS_MODE_HOST = false) ∧
    (∃ s : State, ∃ f : LineFrame, s.Settled ∧ s.passes 114 [clsNet] true f = true ∧ (List.drop 1 f.args).length = 2
      ∧ 1 ≤ numAt (List.drop 1 f.args) 0 2 ∧ numAt (List.drop 1 f.args) 0 2 ≤ 1022 ∧ toOne f = false) ∧
    (∃ s : State, ∃ f : LineFrame, s.Settled ∧ s.passes 120 [clsNet] true f = true ∧ (List.drop 1 f.args).length =
      2) :=
  ⟨
    ⟨{},
      { typ := 1, urg := true, dmode := 2, hops := 0xf, dst := 7, src := 5, hopdst := 0x9b, seg := 0xffff, seq := 0x8a0, ttier := 0xf, hopsrc := 4, sec := false, kid := 0x81, args := ([6, 1] ++ List.replicate 80 0) },
      rfl, by decide +kernel⟩,
    ⟨{ pwr := { boot := 5 } },
      { urg := true, dmode := 3, dst := 0x3ff, src := 9, hopdst := 0x3ff, seg := 0xffff, seq := 2, hopsrc := 0x92, args := [6, 2, 2, 2, 5, 2, 7, 2, 5] },
      rfl, by decide +kernel⟩,
    ⟨{ pwr := { boot := 5 } },
      { urg := true, dmode := 3, dst := 0x3ff, src := 9, hopdst := 0x3ff, seg := 0xffff, seq := 2, hopsrc := 0x92, args := [6, 2, 2, 2, 5, 2, 7, 2, 5] },
      rfl, by decide +kernel⟩,
    ⟨{ regs := [(R.MAC_SHORT, 5)], pwr := { boot := 5 } },
      { dir := true, hops := 3, dst := 7, src := 5, hopdst := 0x366, seg := 0xffff, seq := 0xe14, ttier := 0xf, hopsrc := 5, kid := 0x41, args := [0x96, 1, 5, 0x1c, 4, 0] },
      rfl, by decide +kernel⟩,
    ⟨{ regs := [(R.MAC_SHORT, 5)], pwr := { boot := 5 } },
      { ackreq := true, dir := true, dst := 7, src := 5, seg := 0xffff, seq := 0x6b2, kid := 0x40, args := ([0xff] ++ List.replicate 8 0 ++ [2, 4, 0, 4, 0]) },
      rfl, by decide +kernel, by decide +kernel, fun h => absurd h.2 (by decide +kernel)⟩,
    ⟨{ regs := [(R.MAC_ROLE, 0x300)], pwr := { boot := 5 } },
      { typ := 1, ackreq := true, hops := 1, dst := 0x3ff, src := 5, hopdst := 5, seg := 3, seq := 0x23, ttier := 0xf, hopsrc := 0x3ff, sec := false, kid := 1, args := [7, 6, 5, 2, 7, 0, 3, 7, 2, 2, 7, 7, 4, 2, 5, 6, 6, 7, 0, 3, 6, 7, 6, 2, 1, 4, 2, 2, 0, 1, 6, 3, 0] },
      rfl, by decide +kernel⟩,
    ⟨{ regs := [(R.MAC_SHORT, 5)], pwr := { boot := 5 } },
      { ackreq := true, dmode := 3, dst := 7, src := 5, hopdst := 0x182, seg := 3, seq := 0xfff, ttier := 2, kid := 1, args := [0x16, 3, 3] },
      rfl, by decide +kernel⟩,
    ⟨{ regs := [(R.MAC_SHORT, 5)], pwr := { boot := 5 } },
      { ackreq := true, dmode := 3, dst := 7, src := 5, hopdst := 0x182, seg := 3, seq := 0xfff, ttier := 2, kid := 1, args := [0x16, 3, 3] },
      rfl, by decide +kernel⟩⟩

theorem hyps_NetworkCommandsManageTheNode_2 :
    (∃ s : State, ∃ f : LineFrame, s.Settled ∧ s.passes 122 [clsNet] true f = true ∧ (List.drop 1 f.args).length = 2
      ∧ 1 ≤ numAt (List.drop 1 f.args) 0 2 ∧ numAt (List.drop 1 f.args) 0 2 ≤ 1022 ∧ (s.took 122 f).ringFull 2 =
      false) ∧
    (∃ s : State, ∃ f : LineFrame, s.Settled ∧ s.passes 117 [clsNet] true f = true ∧ (List.drop 1 f.args).length = 3
      ∧ (3 < numAt (List.drop 1 f.args) 0 1 ∨ 16 < numAt (List.drop 1 f.args) 2 1 ∨ numAt (List.drop 1 f.args) 2 1 ≠
      0 ∧ (numAt (List.drop 1 f.args) 1 1 < 4 ∨ 60 < numAt (List.drop 1 f.args) 1 1 + numAt (List.drop 1 f.args) 2
      1))) ∧
    (∃ s : State, ∃ f : LineFrame, s.Settled ∧ s.passes 121 [clsNet] true f = true ∧ (List.drop 1 f.args).length = 0
      ∧ toOne f = false) ∧
    (∃ s : State, ∃ f : LineFrame, s.Settled ∧ s.pathUp Path.remote = true ∧ s.isHead = true ∧ f.typ = 1 ∧ s.forMe f
      = true ∧ (f.sec = false ∨ kidClass f.kid.toNat = clsNet) ∧ s.flag F.SYS_MODE_HOST = true ∧ s.ringFull 4 =
      false) ∧
    (∃ s : State, ∃ f : LineFrame, s.Settled ∧ s.passes 114 [clsNet] true f = true ∧ (List.drop 1 f.args).length = 2
      ∧ (numAt (List.drop 1 f.args) 0 2 = 0 ∨ 1022 < numAt (List.drop 1 f.args) 0 2)) ∧
    (∃ s : State, ∃ f : LineFrame, s.Settled ∧ s.passes 122 [clsNet] true f = true ∧ (List.drop 1 f.args).length = 2
      ∧ (numAt (List.drop 1 f.args) 0 2 = 0 ∨ 1022 < numAt (List.drop 1 f.args) 0 2)) ∧
    (∃ s : State, ∃ f : LineFrame, s.Settled ∧ s.passes 119 [clsNet] false f = true ∧ (s.took 119 f).oneHop f = true
      ∧ ¬f.src.toNat ∈ (s.took 119 f).mac.asked) ∧
    (∃ s : State, ∃ f : LineFrame, s.Settled ∧ s.passes 115 [clsNet] true f = true ∧ (List.drop 1 f.args).length = 1
      ∧ numAt (List.drop 1 f.args) 0 1 ≤ 3) :=
  ⟨
    ⟨{ regs := [(R.MAC_SHORT, 5)], pwr := { boot := 5 } },
      { ackreq := true, dmode := 3, dst := 7, src := 5, hopdst := 0x182, seg := 3, seq := 0xfff, ttier := 2, kid := 1, args := [0x16, 3, 3] },
      rfl, by decide +kernel⟩,
    ⟨{ regs := [(R.MAC_SHORT, 5)], pwr := { boot := 5 } },
      { hops := 0xe, dst := 7, src := 5, seg := 0xffff, seq := 0xfff, ttier := 1, kid := 2, args := [0x69, 0x29, 4, 3] },
      rfl, by decide +kernel⟩,
    ⟨{ regs := [(R.MAC_SHORT, 5)], pwr := { boot := 5 } },
      { dmode := 2, hops := 0xb, dst := 7, src := 5, seg := 0xffff, kid := 2, args := [0] }, rfl, by decide +kernel⟩,
    ⟨{ regs := [(R.SYS_MODE, 8), (R.MAC_ROLE, 0x300)], pwr := { boot := 5 } },
      { typ := 1, dmode := 3, hops := 8, dst := 7, src := 5, hopdst := 0xb2, seg := 3, seq := 0xfff, ttier := 0xe, hopsrc := 0x3ff, kid := 1, args := ([0xfd] ++ List.replicate 81 0) },
      rfl, by decide +kernel⟩,
    ⟨{ regs := [(R.MAC_SHORT, 5)], pwr := { boot := 5 } },
      { dmode := 1, dst := 7, src := 5, hopdst := 1, seg := 0xffff, seq := 7, ttier := 0xa, hopsrc := 0xfe, kid := 0x43, args := [0x91, 0xff, 0] },
      rfl, by decide +kernel⟩,
    ⟨{ regs := [(R.MAC_SHORT, 5)], pwr := { boot := 5 } },
      { dmode := 1, dst := 7, src := 5, hopdst := 1, seg := 0xffff, seq := 7, ttier := 0xa, hopsrc := 0xfe, kid := 0x43, args := [0x91, 0xff, 0] },
      rfl, by decide +kernel⟩,
    ⟨{ regs := [(R.MAC_SHORT, 6)], pwr := { boot := 5 } },
      { dir := true, dst := 7, src := 5, hopdst := 6, seg := 0xffff, ttier := 0xf, hopsrc := 0x6b, kid := 1, args := [7, 6, 2, 0, 6, 4, 4] },
      rfl, by decide +kernel⟩,
    ⟨{ regs := [(R.MAC_HEAD, 5)], pwr := { boot := 5 } },
      { urg := true, ackreq := true, dmode := 3, hops := 0xc, dst := 5, src := 5, hopdst := 7, seg := 0xffff, seq := 0xfff, hopsrc := 0x376, args := [0xfb, 3] },
      rfl, by decide +kernel⟩⟩

theorem hyps_NetworkCommandsManageTheNode_3 :
    (∃ s : State, ∃ f : LineFrame, s.Settled ∧ s.passes 115 [clsNet] true f = true ∧ (List.drop 1 f.args).length = 1
      ∧ 3 < numAt (List.drop 1 f.args) 0 1) ∧
    (∃ s : State, ∃ f : LineFrame, s.Settled ∧ s.passes 121 [clsNet] true f = true ∧ (List.drop 1 f.args).length = 0
      ∧ toOne f = true ∧ (s.replyTo 121 f).loop = false ∧ (s.took 121 f).isHead = false ∧ (s.took 121 f).ringFull 2
      = false) ∧
    (∃ s : State, ∃ f : LineFrame, s.Settled ∧ (s.passes 113 [clsNet] true f = true ∨ s.cmdOn = true ∧ f.typ = 0 ∧
      f.sec = false ∧ s.fld F.MAC_STAT_JST = 1 ∧ (s.tabFlush.takeFrame 113 f).snd.isSome = true ∧ f.src.toNat =
      (s.tabFlush.takeFrame 113 f).fst.fld F.MAC_HEAD_A) ∧ (List.drop 1 f.args).length = 13 ∧ (List.take 8
      (List.drop 1 f.args) = euiBytes ∧ (s.took 113 f).fld F.MAC_STAT_JST = 1) ∧ numAt (List.drop 1 f.args) 8 1 = 1) ∧
    (∃ s : State, ∃ f : LineFrame, s.Settled ∧ s.passes 118 [clsNet] false f = true ∧ (s.took 118 f).oneHop f = true
      ∧ (List.drop 1 f.args).length = 33 ∧ numAt (List.drop 1 f.args) 0 1 ≤ 7 ∧ (∀ (b : Byte), b ∈ List.drop 1
      (List.drop 1 f.args) → b = 0) ∧ (s.took 118 f).ringFull 2 = false) ∧
    (∃ s : State, ∃ f : LineFrame, s.Settled ∧ (s.passes 113 [clsNet] true f = true ∨ s.cmdOn = true ∧ f.typ = 0 ∧
      f.sec = false ∧ s.fld F.MAC_STAT_JST = 1 ∧ (s.tabFlush.takeFrame 113 f).snd.isSome = true ∧ f.src.toNat =
      (s.tabFlush.takeFrame 113 f).fst.fld F.MAC_HEAD_A) ∧ (List.drop 1 f.args).length = 13 ∧ (List.take 8
      (List.drop 1 f.args) = euiBytes ∧ (s.took 113 f).fld F.MAC_STAT_JST = 1) ∧ numAt (List.drop 1 f.args) 8 1 = 0) ∧
    (∃ s : State, ∃ f : LineFrame, s.Settled ∧ s.passes 116 [clsNet] true f = true ∧ (List.drop 1 f.args).length = 5
      ∧ (s.took 116 f).isHead = true ∧ (1023 ≤ numAt (List.drop 1 f.args) 0 2 ∨ 3 < numAt (List.drop 1 f.args) 2 1 ∨
      16 < numAt (List.drop 1 f.args) 4 1 ∨ numAt (List.drop 1 f.args) 4 1 ≠ 0 ∧ (numAt (List.drop 1 f.args) 3 1 < 4
      ∨ 60 < numAt (List.drop 1 f.args) 3 1 + numAt (List.drop 1 f.args) 4 1))) ∧
    (∃ s : State, ∃ f : LineFrame, s.Settled ∧ s.passes 114 [clsNet] true f = true ∧ (List.drop 1 f.args).length = 2
      ∧ 1 ≤ numAt (List.drop 1 f.args) 0 2 ∧ numAt (List.drop 1 f.args) 0 2 ≤ 1022 ∧ toOne f = true ∧ (s.replyTo 114
      f).loop = false ∧ (s.took 114 f).isHead = false ∧ (s.took 114 f).ringFull 2 = false) :=
  ⟨
    ⟨{ regs := [(R.MAC_SHORT, 5)], pwr := { boot := 5 } },
      { urg := true, ackreq := true, hops := 2, dst := 7, src := 5, hopdst := 0x3ff, seg := 3, hopsrc := 3, kid := 0x42, args := [0xff, 8] },
      rfl, by decide +kernel⟩,
    ⟨{ regs := [(R.MAC_HEAD, 5)], pwr := { boot := 5 } },
      { dir := true, hops := 2, dst := 7, src := 5, seg := 0xffff, seq := 3, hopsrc := 1, kid := 3, args := [0x2a] },
      rfl, by decide +kernel⟩,
    ⟨{ regs := [(R.MAC_STAT, 0x4000), (R.MAC_SHORT, 5)], pwr := { boot := 5 } },
      { urg := true, ackreq := true, dmode := 2, dst := 7, src := 5, hopdst := 0x1d0, seg := 3, ttier := 4, hopsrc := 0x96, kid := 0xc0, args := 0xff :: (euiBytes ++ [1, 0, 0, 0, 0]) },
      rfl, by decide +kernel, by decide +kernel, ⟨by rfl, by decide +kernel⟩, by decide +kernel⟩,
    ⟨{ pwr := { boot := 5 } },
      { urg := true, dst := 7, src := 5, hopdst := 0x3ff, seg := 0xffff, seq := 0xe3, hopsrc := 7, kid := 3, args := ([0xff, 4] ++ List.replicate 32 0) },
      rfl, by decide +kernel⟩,
    ⟨{ regs := [(R.MAC_STAT, 0x4000), (R.MAC_SHORT, 5)], pwr := { boot := 5 } },
      { dmode := 3, hops := 2, dst := 5, src := 5, hopdst := 2, seg := 3, seq := 0xf07, hopsrc := 6, kid := 0x42, args := 0 :: (euiBytes ++ [0, 0x88, 0, 0x88, 0]) },
      rfl, by decide +kernel, by decide +kernel, ⟨by rfl, by decide +kernel⟩, by decide +kernel⟩,
    ⟨{ regs := [(R.MAC_ROLE, 0x300), (R.MAC_SHORT, 5)], pwr := { boot := 5 } },
      { dmode := 2, hops := 1, dst := 7, src := 5, hopdst := 0x3f, seg := 0xffff, sec := false, kid := 3, args := [0xff, 1, 0xd, 0x12, 0xff, 0xff] },
      rfl, by decide +kernel⟩,
    ⟨{ regs := [(R.MAC_HEAD, 5)], pwr := { boot := 5 } },
      { hops := 4, dst := 1, src := 5, hopdst := 5, seg := 3, args := [0x1a, 3, 3] }, rfl, by decide +kernel⟩⟩

theorem hyps_BundlesAreTransferredAndCommitted_1 :
    (∃ s : State, ∃ f : LineFrame, s.Settled ∧ (s.sec.commit = none ∨ s.vaultFree = false)) ∧
    (∃ s : State, ∃ f : LineFrame, s.Settled ∧ s.cmd.apply = false) ∧
    (∃ s : State, ∃ f : LineFrame, s.Settled ∧ s.passes 129 [clsNet] true f = true ∧ ¬(3 ≤ (List.drop 1
      f.args).length ∧ (s.took 129 f).bxferIs (numAt (List.drop 1 f.args) 0 1) = true ∧ (s.took 129 f).fld
      F.CMD_STAT_BST = 1 ∧ numAt (List.drop 1 f.args) 1 2 < blockCount ((s.took 129 f).pair R.CMD_BLEN_LO) ∧
      ((List.drop 1 f.args).length = 3 + if numAt (List.drop 1 f.args) 1 2 + 1 = blockCount ((s.took 129 f).pair
      R.CMD_BLEN_LO) then (s.took 129 f).pair R.CMD_BLEN_LO - 192 * numAt (List.drop 1 f.args) 1 2 else 192) ∧
      ¬numAt (List.drop 1 f.args) 1 2 ∈ (s.took 129 f).cmd.got)) ∧
    (∃ s : State, ∃ f : LineFrame, s.Settled ∧ s.cmd.apply = true) ∧
    (∃ s : State, ∃ f : LineFrame, s.Settled ∧ ∃ j : SecJob, s.sec.commit = some j ∧ s.vaultFree = true ∧ ∃ v :
      State, ∃ c : Nat, ∃ d : List Byte, s.bundleCheck (if s.fld F.CMD_STAT_BST = 3 then s.staged else []) = (v,
      Sum.inl (c, d))) ∧
    (∃ s : State, ∃ f : LineFrame, s.Settled ∧ s.passes 128 [clsNet] true f = true ∧ (List.drop 1 f.args).length = 5
      ∧ (numAt (List.drop 1 f.args) 1 4 = 0 ∨ 65536 < numAt (List.drop 1 f.args) 1 4)) ∧
    (∃ s : State, ∃ f : LineFrame, s.Settled ∧ s.passes 128 [clsNet] true f = true ∧ (List.drop 1 f.args).length = 5
      ∧ 1 ≤ numAt (List.drop 1 f.args) 1 4 ∧ numAt (List.drop 1 f.args) 1 4 ≤ 65536 ∧ (s.took 128 f).bxferIs (numAt
      (List.drop 1 f.args) 0 1) = false ∧ (s.took 128 f).fld F.CMD_STAT_BST ≠ 0) ∧
    (∃ s : State, ∃ f : LineFrame, s.Settled ∧ s.passes 130 [clsNet] true f = true ∧ (List.drop 1 f.args).length = 1
      ∧ (s.took 130 f).bxferIs (numAt (List.drop 1 f.args) 0 1) = false) :=
  ⟨
    ⟨{}, {}, rfl, by decide +kernel⟩,
    ⟨{}, {}, rfl, by decide +kernel⟩,
    ⟨{ regs := [(R.MAC_HEAD, 5)], pwr := { boot := 5 } },
      { dmode := 1, dst := 7, src := 5, hopdst := 0x393, seg := 3, ttier := 4, kid := 1, args := ([2, 4] ++ List.replicate 32 0) },
      rfl, by decide +kernel⟩,
    ⟨{ cmd := { apply := true } }, {}, rfl, by decide +kernel⟩,
    ⟨{ pwr := { boot := 7 }, sec := { commit := (some {}) } }, {}, rfl, {}, by decide +kernel, by decide +kernel,
      { pwr := { boot := 7 }, sec := { commit := (some {}) } }, 50, [], by rfl⟩,
    ⟨{ regs := [(R.MAC_SHORT, 5)], pwr := { boot := 5 } },
      { dir := true, hops := 3, dst := 7, src := 5, hopdst := 0x366, seg := 0xffff, seq := 0xe14, ttier := 0xf, hopsrc := 5, kid := 0x41, args := [0x96, 1, 5, 0x1c, 4, 0] },
      rfl, by decide +kernel⟩,
    ⟨{ regs := [(R.MAC_SHORT, 5), (R.CMD_STAT, 0x1000)], pwr := { boot := 5 } },
      { urg := true, hops := 6, dst := 7, src := 5, hopdst := 0x92, seg := 0xffff, seq := 0x91, ttier := 0xf, hopsrc := 0x3ff, kid := 0x41, args := [0x99, 8, 0, 0, 5, 0] },
      rfl, by decide +kernel⟩,
    ⟨{ regs := [(R.MAC_HEAD, 5)], pwr := { boot := 5 } },
      { urg := true, ackreq := true, dmode := 3, hops := 0xc, dst := 5, src := 5, hopdst := 7, seg := 0xffff, seq := 0xfff, hopsrc := 0x376, args := [0xfb, 3] },
      rfl, by decide +kernel⟩⟩

theorem hyps_BundlesAreTransferredAndCommitted_2 :
    (∃ s : State, ∃ f : LineFrame, s.Settled ∧ s.passes 131 [clsNet] true f = true ∧ (List.drop 1 f.args).length = 1
      ∧ (s.took 131 f).signBusy = true) ∧
    (∃ s : State, ∃ f : LineFrame, s.Settled ∧ s.passes 132 [clsNet] true f = true ∧ (List.drop 1 f.args).length = 1
      ∧ (s.took 132 f).bxferIs (numAt (List.drop 1 f.args) 0 1) = false) ∧
    (∃ s : State, ∃ f : LineFrame, s.Settled ∧ s.passes 131 [clsNet] true f = true ∧ (List.drop 1 f.args).length = 1
      ∧ (s.took 131 f).signBusy = false ∧ (s.took 131 f).bxferIs (numAt (List.drop 1 f.args) 0 1) = false) ∧
    (∃ s : State, ∃ f : LineFrame, s.Settled ∧ s.passes 130 [clsNet] true f = true ∧ (List.drop 1 f.args).length = 1
      ∧ (s.took 130 f).bxferIs (numAt (List.drop 1 f.args) 0 1) = true) ∧
    (∃ s : State, ∃ f : LineFrame, s.Settled ∧ s.passes 132 [clsNet] true f = true ∧ (List.drop 1 f.args).length = 1
      ∧ (s.took 132 f).bxferIs (numAt (List.drop 1 f.args) 0 1) = true) ∧
    (∃ s : State, ∃ f : LineFrame, s.Settled ∧ s.passes 131 [clsNet] true f = true ∧ (List.drop 1 f.args).length = 1
      ∧ (s.took 131 f).signBusy = false ∧ (s.took 131 f).bxferIs (numAt (List.drop 1 f.args) 0 1) = true ∧ (s.took
      131 f).fld F.CMD_STAT_BST ≠ 2) ∧
    (∃ s : State, ∃ f : LineFrame, s.Settled ∧ s.passes 128 [clsNet] true f = true ∧ (List.drop 1 f.args).length = 5
      ∧ 1 ≤ numAt (List.drop 1 f.args) 1 4 ∧ numAt (List.drop 1 f.args) 1 4 ≤ 65536 ∧ (s.took 128 f).fld
      F.CMD_STAT_BST = 0 ∧ (s.took 128 f).vRoom 58 = true) ∧
    (∃ s : State, ∃ f : LineFrame, s.Settled ∧ s.passes 128 [clsNet] true f = true ∧ (List.drop 1 f.args).length = 5
      ∧ 1 ≤ numAt (List.drop 1 f.args) 1 4 ∧ numAt (List.drop 1 f.args) 1 4 ≤ 65536 ∧ (s.took 128 f).fld
      F.CMD_STAT_BST = 0 ∧ (s.took 128 f).vRoom 58 = false) :=
  ⟨
    ⟨{ regs := [(R.MAC_HEAD, 5)], pwr := { boot := 5 }, sec := { proof := (some {}) } },
      { urg := true, ackreq := true, dmode := 3, hops := 0xc, dst := 5, src := 5, hopdst := 7, seg := 0xffff, seq := 0xfff, hopsrc := 0x376, args := [0xfb, 3] },
      rfl, by decide +kernel⟩,
    ⟨{ regs := [(R.MAC_HEAD, 5)], pwr := { boot := 5 } },
      { urg := true, ackreq := true, dmode := 3, hops := 0xc, dst := 5, src := 5, hopdst := 7, seg := 0xffff, seq := 0xfff, hopsrc := 0x376, args := [0xfb, 3] },
      rfl, by decide +kernel⟩,
    ⟨{ regs := [(R.MAC_SHORT, 5)], pwr := { boot := 5 } },
      { urg := true, dmode := 1, hops := 2, dst := 7, src := 5, hopdst := 0x39b, seg := 3, hopsrc := 0x3ff, kid := 0x43, args := [7, 2] },
      rfl, by decide +kernel⟩,
    ⟨{ regs := [(R.MAC_HEAD, 5), (R.CMD_STAT, 0x1000)], pwr := { boot := 5 } },
      { dmode := 1, hops := 7, dst := 7, src := 5, hopdst := 0x3ff, seg := 0xffff, hopsrc := 2, kid := 3, args := [3, 0] },
      rfl, by decide +kernel⟩,
    ⟨{ regs := [(R.MAC_HEAD, 5), (R.CMD_STAT, 0x1000)], pwr := { boot := 5 } },
      { dmode := 1, hops := 7, dst := 7, src := 5, hopdst := 0x3ff, seg := 0xffff, hopsrc := 2, kid := 3, args := [3, 0] },
      rfl, by decide +kernel⟩,
    ⟨{ regs := [(R.MAC_SHORT, 5), (R.CMD_STAT, 0x1000)], pwr := { boot := 5 } },
      { dmode := 1, hops := 2, dst := 5, src := 5, hopdst := 7, seg := 3, seq := 0x7c, ttier := 0xc, hopsrc := 1, sec := false, args := [0x74, 0] },
      rfl, by decide +kernel⟩,
    ⟨{ regs := [(R.MAC_HEAD, 5)], pwr := { boot := 5 } },
      { ackreq := true, dir := true, dst := 5, src := 5, seg := 3, seq := 2, hopsrc := 0x3ff, kid := 3, args := [0x50, 6, 0, 0, 5, 0] },
      rfl, by decide +kernel⟩,
    ⟨{ regs := [(R.MAC_SHORT, 1)], pwr := { boot := 5, loss := 2 } },
      { dir := true, dst := 1, src := 1, hopdst := 6, seg := 0xffff, ttier := 0xf, sec := false, kid := 0x82, args := [0xff, 7, 0, 0, 5, 0] },
      rfl, by decide +kernel⟩⟩

theorem hyps_ProofsAlarmsAndReports_1 :
    (∃ s : State, ∃ f : LineFrame, s.Settled ∧ s.sec.proof = none) ∧
    (∃ s : State, ∃ f : LineFrame, s.Settled ∧ ∃ b : Fin 13, s.cmd.alarms.length = 13 ∧ (nthOf s.cmd.alarms ↑b).gap
      = false) ∧
    (∃ s : State, ∃ f : LineFrame, s.Settled ∧ ¬(s.reports = true ∧ s.cmd.minute ≠ some (if s.timeValid = true then
      secOf s.tim.now / 60 else (s.cyc - s.pwr.litAt) / (60 * 61440000)) ∧ (s.timeValid = true ∨ (if s.timeValid =
      true then secOf s.tim.now / 60 else (s.cyc - s.pwr.litAt) / (60 * 61440000)) ≠ 0))) ∧
    (∃ s : State, ∃ f : LineFrame, s.Settled ∧ ∃ j : SecJob, s.sec.proof = some j) ∧
    (∃ s : State, ∃ f : LineFrame, s.Settled ∧ s.passes 144 [clsNet] true f = true ∧ (List.drop 1 f.args).length ≠
      16) ∧
    (∃ s : State, ∃ f : LineFrame, s.Settled ∧ ∃ b : Fin 13, s.cmd.alarms.length = 13 ∧ (nthOf s.cmd.alarms ↑b).gap
      = true ∧ ((nthOf s.cmd.alarms ↑b).n = 0 ∨ s.flag F.CMD_CTL_ALMEN = false ∨ s.bit R.CMD_ALM ↑b = false)) ∧
    (∃ s : State, ∃ f : LineFrame, s.Settled ∧ ∃ b : Fin 13, s.cmd.alarms.length = 13 ∧ (nthOf s.cmd.alarms ↑b).gap
      = true ∧ (nthOf s.cmd.alarms ↑b).n ≠ 0 ∧ s.flag F.CMD_CTL_ALMEN = true ∧ s.bit R.CMD_ALM ↑b = true) ∧
    (∃ s : State, ∃ f : LineFrame, s.Settled ∧ s.passes 145 [clsNet] true f = true ∧ (List.drop 1 f.args).length = 3
      ∧ (numAt (List.drop 1 f.args) 2 1 = 0 ∨ 192 < numAt (List.drop 1 f.args) 2 1 ∨ min Config.certLen 768 < numAt
      (List.drop 1 f.args) 0 2 + numAt (List.drop 1 f.args) 2 1)) :=
  ⟨
    ⟨{}, {}, rfl, by decide +kernel⟩,
    ⟨{}, {}, rfl, 10, by decide +kernel⟩,
    ⟨{}, {}, rfl, by decide +kernel⟩,
    ⟨{ sec := { proof := (some {}) } }, {}, rfl, {}, by decide +kernel⟩,
    ⟨{ regs := [(R.MAC_HEAD, 5)], pwr := { boot := 5 } },
      { dmode := 1, dst := 7, src := 5, hopdst := 0x393, seg := 3, ttier := 4, kid := 1, args := ([2, 4] ++ List.replicate 32 0) },
      rfl, by decide +kernel⟩,
    ⟨{ cmd := { alarms := (((List.replicate 13 ({} : Alarm)).set 10 { gap := true })) } }, {}, rfl, 10,
      by decide +kernel⟩,
    ⟨{ cmd := { alarms := (((List.replicate 13 ({} : Alarm)).set 4 { gap := true, n := 1 })) } }, {}, rfl, 4,
      by decide +kernel⟩,
    ⟨{ regs := [(R.MAC_SHORT, 5)], pwr := { boot := 5 } },
      { hops := 0xe, dst := 7, src := 5, seg := 0xffff, seq := 0xfff, ttier := 1, kid := 2, args := [0x69, 0x29, 4, 3] },
      rfl, by decide +kernel, by decide +kernel, Or.inr (Or.inr (Nat.lt_of_le_of_lt (Nat.min_le_right _ _)
      (by decide +kernel)))⟩⟩

theorem hyps_ProofsAlarmsAndReports_2 :
    (∃ s : State, ∃ f : LineFrame, s.Settled ∧ s.passes 144 [clsNet] true f = true ∧ (List.drop 1 f.args).length =
      16 ∧ (s.took 144 f).signBusy = false ∧ ((s.took 144 f).sec.life = 0 ∨ (s.took 144 f).testsFailed = true)) ∧
    (∃ s : State, ∃ f : LineFrame, s.Settled ∧ (s.reports = true ∧ s.cmd.minute ≠ some (if s.timeValid = true then
      secOf s.tim.now / 60 else (s.cyc - s.pwr.litAt) / (60 * 61440000)) ∧ (s.timeValid = true ∨ (if s.timeValid =
      true then secOf s.tim.now / 60 else (s.cyc - s.pwr.litAt) / (60 * 61440000)) ≠ 0))) ∧
    (∃ s : State, ∃ f : LineFrame, s.Settled ∧ s.passes 144 [clsNet] true f = true ∧ (List.drop 1 f.args).length =
      16 ∧ (s.took 144 f).signBusy = true) ∧
    (∃ s : State, ∃ f : LineFrame, s.Settled ∧ s.passes 144 [clsNet] true f = true ∧ (List.drop 1 f.args).length =
      16 ∧ (s.took 144 f).signBusy = false ∧ (s.took 144 f).sec.life ≠ 0 ∧ (s.took 144 f).testsFailed = false) :=
  ⟨
    ⟨{ regs := [(R.MAC_SHORT, 5)], pwr := { boot := 5 }, sec := { failed := true } },
      { dir := true, hops := 0xf, dst := 5, src := 5, seg := 3, hopsrc := 0x3ff, kid := 0xc0, args := [0xff, 0xff, 0x4b, 0xe2, 0xdb, 0xf6, 0xff, 3, 1, 0x96, 0xfc, 0x6d, 2, 0x1b, 0, 0x16, 0xff] },
      rfl, by decide +kernel⟩,
    ⟨{ regs := [(R.MAC_STAT, 0xa000)], cyc := 0xe8d53da685 }, {}, rfl, by decide +kernel⟩,
    ⟨{ regs := [(R.MAC_HEAD, 5)], pwr := { boot := 5 }, sec := { commit := (some {}) } },
      { dir := true, dmode := 3, hops := 0xd, dst := 1, src := 5, seg := 0xffff, seq := 0x6cf, ttier := 1, hopsrc := 0x66, kid := 3, args := [0xfb, 0x7e, 5, 0xff, 6, 0x12, 0x79, 0xff, 0x5e, 5, 0x66, 7, 0x1a, 0xe4, 0x65, 0xff, 7] },
      rfl, by decide +kernel⟩,
    ⟨{ regs := [(R.MAC_SHORT, 5)], pwr := { boot := 5 } },
      { urg := true, dmode := 1, dst := 5, src := 5, hopdst := 0xe8, seg := 0xffff, seq := 1, kid := 0x40, args := [7, 3, 3, 4, 7, 0, 6, 3, 3, 7, 7, 5, 4, 5, 2, 3, 7] },
      rfl, by decide +kernel⟩⟩

theorem hyps_GoDeclaresAHost :
    (∃ v : Word, ∃ s : State, s.Settled ∧ s.pathUp Path.host = true ∧ BitVec.getLsbD v 0 = true ∧ softKey v = false
      ∧ s.flag F.SYS_MODE_HOST = false) ∧
    (∃ v : Word, ∃ s : State, s.Settled ∧ s.pathUp Path.host = true ∧ BitVec.getLsbD v 0 = true ∧ softKey v = false
      ∧ s.flag F.SYS_MODE_HOST = true) :=
  ⟨
    ⟨0x12b, { pwr := { boot := 5 } }, rfl, by decide +kernel⟩,
    ⟨0xa5a5, { regs := [(R.SYS_MODE, 8)], pwr := { boot := 5 } }, rfl, by decide +kernel⟩⟩

theorem hyps_EnablesGateTheInterruptPin :
    ∃ p : Path, ∃ v : Word, ∃ s : State, s.Settled ∧ s.pathUp p = true ∧ (s.path p).page = 0 ∧ (∀ (hi : Word),
      (s.path p).stage ≠ some (s.pairTag 0 10, hi)) :=
    ⟨.remote, 0x96, { pwr := { boot := 5 } }, rfl, by decide +kernel⟩

theorem hyps_TimeIsSetReadAndKept_1 :
    (∃ s : State, s.Settled ∧ ∃ p : Path, s.pathUp p = true ∧ s.unlocked p = false) ∧
    (∃ s : State, s.Settled ∧ ∃ p : Path, s.pathUp p = false) ∧
    (∃ s : State, s.Settled ∧ ∃ n : Fin 4, ¬(s.bit (alCtl ↑n) 15 = true ∧ alarmDue s.tim.now (s.tim.alarmAt.getD
      (↑n) 0) (s.tim.alarmMs.getD (↑n) 0) = true)) ∧
    (∃ s : State, s.Settled ∧ (s.flag F.TIM_FLG_PPSV = false ∨ s.ppsLate = false)) ∧
    (∃ s : State, s.Settled ∧ ¬((s.fld F.TIM_STAT_STATE = 1 ∨ s.fld F.TIM_STAT_STATE = 2) ∧ s.isHead = false ∧ s.fld
      F.TIM_LIM_HOB ≤ s.tim.noTheta)) ∧
    (∃ s : State, s.Settled ∧ ¬((s.fld F.TIM_STAT_STATE = 2 ∨ s.fld F.TIM_STAT_STATE = 3) ∧ s.flag F.TIM_FLG_IRCF =
      false ∧ s.tim.now % (64 * 2 ^ 72) < 2 ^ 72 / 16384 ∧ s.tim.now / (64 * 2 ^ 72) ≠ s.keep.winStart / (64 * 2 ^
      72))) ∧
    (∃ s : State, s.Settled ∧ ∃ temp : Word, ∃ vstore : Word, ¬(s.pwr.boot = 0 ∧ BitVec.getLsbD s.keep.deep 2 =
      true)) ∧
    (∃ s : State, s.Settled ∧ (4 ≤ s.pwr.boot ∧ s.flag F.CLK_STAT_ROOTSRC = true ∧ s.clk.handover = false ∧ s.flag
      F.TIM_FLG_IRCF = true)) :=
  ⟨
    ⟨{ pwr := { boot := 5 } }, rfl, .remote, by decide +kernel⟩,
    ⟨{}, rfl, .host, by decide +kernel⟩,
    ⟨{}, rfl, 2, by decide +kernel⟩,
    atRest (by decide +kernel),
    atRest (by decide +kernel),
    atRest (by decide +kernel),
    ⟨{ pwr := { boot := 1 } }, rfl, 1, 0x97, by decide +kernel⟩,
    ⟨{ regs := [(R.CLK_STAT, 0x8000)], pwr := { boot := 5 } }, rfl, by decide +kernel⟩⟩

theorem hyps_TimeIsSetReadAndKept_2 :
    (∃ s : State, s.Settled ∧ ¬(4 ≤ s.pwr.boot ∧ s.flag F.CLK_STAT_ROOTSRC = true ∧ s.clk.handover = false ∧ s.flag
      F.TIM_FLG_IRCF = true)) ∧
    (∃ s : State, s.Settled ∧ ∃ n : Fin 4, (s.bit (alCtl ↑n) 15 = true ∧ alarmDue s.tim.now (s.tim.alarmAt.getD (↑n)
      0) (s.tim.alarmMs.getD (↑n) 0) = true)) ∧
    (∃ s : State, s.Settled ∧ s.flag F.TIM_FLG_PPSV = true ∧ s.ppsLate = true) ∧
    (∃ s : State, s.Settled ∧ ∃ p : Path, s.pathUp p = true ∧ s.unlocked p = true) ∧
    (∃ s : State, s.Settled ∧ ((s.fld F.TIM_STAT_STATE = 1 ∨ s.fld F.TIM_STAT_STATE = 2) ∧ s.isHead = false ∧ s.fld
      F.TIM_LIM_HOB ≤ s.tim.noTheta)) ∧
    (∃ s : State, s.Settled ∧ ∃ temp : Word, ∃ vstore : Word, (s.pwr.boot = 0 ∧ BitVec.getLsbD s.keep.deep 2 =
      true)) :=
  ⟨
    atRest (by decide +kernel),
    ⟨{ regs := [(R.TIM_AL0CTL, 0x8000)] }, rfl, 0, by decide +kernel⟩,
    ⟨{ regs := [(R.TIM_FLG, 4)] }, rfl, by decide +kernel⟩,
    ⟨{ host := { opened := true }, pwr := { boot := 5 } }, rfl, .host, by decide +kernel⟩,
    ⟨{ regs := [(R.TIM_STAT, 0x4000), (R.TIM_LIM, 0)] }, rfl, by decide +kernel⟩,
    ⟨{}, rfl, 2, 0x5ea1, by decide +kernel⟩⟩

theorem hyps_TimersStartCountMatchAndCatchUp_1 :
    (∃ s : State, s.Settled ∧ s.Shape ∧ ∃ p : Path, ∃ v : Word, s.pathUp p = true) ∧
    (∃ s : State, s.Settled ∧ s.Shape ∧ ∃ n : Fin 8, ∃ m0 : Bool, ∃ m1 : Bool, ¬((s.gt ↑n).run = true ∧ s.gtFrozen
      ↑n = false ∧ (m0 = true ∧ (s.gt ↑n).reached (s.gt ↑n).c0 = true ∨ m1 = true ∧ (s.gt ↑n).reached (s.gt ↑n).c1 =
      true))) ∧
    (∃ s : State, s.Settled ∧ s.Shape ∧ ∃ n : Fin 8, (s.gt ↑n).trig = false) ∧
    (∃ s : State, s.Settled ∧ s.Shape ∧ ∃ n : Fin 8, ∃ level : Bool, s.coreOn = true ∧ (s.gt ↑n).level ≠ level ∧
      s.gtAccepts ↑n = true) ∧
    (∃ s : State, s.Settled ∧ s.Shape ∧ ∃ n : Fin 8, ¬((s.gt ↑n).k0.isSome = true ∧ (s.gt ↑n).run = true ∧ (s.gt
      ↑n).stop = true ∧ 6 ≤ s.pwr.boot ∧ s.fld F.SYS_MODE_STATE ≠ 2)) ∧
    (∃ s : State, s.Settled ∧ s.Shape ∧ ∃ n : Fin 8, ∃ level : Bool, (s.coreOn = false ∨ (s.gt ↑n).level = level ∨
      s.gtAccepts ↑n = false)) ∧
    (∃ s : State, s.Settled ∧ s.Shape ∧ ∃ n : Fin 8, (s.gt ↑n).trig = true ∧ s.gtAlive ↑n = false ∧ s.gtSlow ↑n =
      false) ∧
    (∃ s : State, s.Settled ∧ s.Shape ∧ ∃ n : Fin 8, ∃ m0 : Bool, ∃ m1 : Bool, ((s.gt ↑n).run = true ∧ s.gtFrozen ↑n
      = false ∧ (m0 = true ∧ (s.gt ↑n).reached (s.gt ↑n).c0 = true ∨ m1 = true ∧ (s.gt ↑n).reached (s.gt ↑n).c1 =
      true))) :=
  ⟨
    ⟨{ pwr := { boot := 5 } }, rfl, shaped _ (by decide +kernel), .remote, 0xffff, by decide +kernel⟩,
    ⟨{}, rfl, shaped _ (by decide +kernel), 5, true, true, by decide +kernel⟩,
    ⟨{}, rfl, shaped _ (by decide +kernel), 5, by decide +kernel⟩,
    ⟨{ pwr := { boot := 2 } }, rfl, shaped _ (by decide +kernel), 5, true, by decide +kernel⟩,
    ⟨{}, rfl, shaped _ (by decide +kernel), 5, by decide +kernel⟩,
    ⟨{}, rfl, shaped _ (by decide +kernel), 3, false, by decide +kernel⟩,
    ⟨{ gtu := (((List.replicate 8 ({} : GtChan)).set 7 { trig := true })) }, rfl, shaped _ (by decide +kernel), 7,
      by decide +kernel⟩,
    ⟨{ gtu := (((List.replicate 8 ({} : GtChan)).set 7 { run := true, top := 1, adv := 1 })) }, rfl, shaped _
      (by decide +kernel), 7, false, true, by decide +kernel⟩⟩

theorem hyps_TimersStartCountMatchAndCatchUp_2 :
    (∃ s : State, s.Settled ∧ s.Shape ∧ ∃ n : Fin 8, (s.gt ↑n).trig = true ∧ s.gtAlive ↑n = true) ∧
    (∃ s : State, s.Settled ∧ s.Shape ∧ ∃ n : Fin 8, ∃ k : Nat, ((s.gt ↑n).k0.isSome = true ∧ (s.gt ↑n).run = true ∧
      (s.gt ↑n).stop = true ∧ 6 ≤ s.pwr.boot ∧ s.fld F.SYS_MODE_STATE ≠ 2) ∧ (s.gt ↑n).k0 = some k) :=
  ⟨
    ⟨{ gtu := (((List.replicate 8 ({} : GtChan)).set 7 { run := true, trig := true })) }, rfl, shaped _
      (by decide +kernel), 7, by decide +kernel⟩,
    ⟨{ pwr := { boot := 7 }, gtu := (((List.replicate 8 ({} : GtChan)).set 2 { run := true, stop := true, k0 := (some 0) })) },
      rfl, shaped _ (by decide +kernel), 2, 0, by decide +kernel⟩⟩

theorem hyps_ReferencesAreWatchedAndHandedOver_1 :
    (∃ s : State, s.Settled ∧ s.Shape ∧ ∃ cnt : Word, (s.coreOn = true ∧ s.flag F.CLK_STAT_IRCON = true ∧
      s.clk.ircSettling = false) ∧ s.flag F.CLK_STAT_ROOTSRC = true ∧ ¬(1004 ≤ BitVec.toNat cnt ∧ BitVec.toNat cnt ≤
      1044)) ∧
    (∃ s : State, s.Settled ∧ s.Shape ∧ s.clk.handover = false) ∧
    (∃ s : State, s.Settled ∧ s.Shape ∧ ¬(s.coreOn = true ∧ s.flag F.CLK_STAT_XOQ = false ∧ s.flag
      F.CLK_STAT_ROOTSRC = false ∧ s.clk.fellBack = false)) ∧
    (∃ s : State, s.Settled ∧ s.Shape ∧ s.coreOn = true ∧ (s.flag F.CLK_STAT_ROOTSRC = true ∨ s.clk.handover =
      true)) ∧
    (∃ s : State, s.Settled ∧ s.Shape ∧ s.clk.ircSettling = false) ∧
    (∃ s : State, s.Settled ∧ s.Shape ∧ s.pwr.boot ≠ 3) ∧
    (∃ s : State, s.Settled ∧ s.Shape ∧ (4 ≤ s.pwr.boot ∧ s.clk.good = false ∧ s.clk.ircSettling = false)) ∧
    (∃ s : State, s.Settled ∧ s.Shape ∧ ∃ cnt : Word, (s.coreOn = true ∧ s.flag F.CLK_STAT_IRCON = true ∧
      s.clk.ircSettling = false ∧ s.flag F.CLK_STAT_KSRC = false) ∧ ¬(2940 ≤ BitVec.toNat cnt ∧ BitVec.toNat cnt ≤
      3060) ∧ s.clk.firstCheck = false) :=
  ⟨
    ⟨{ regs := [(R.CLK_STAT, 0x9000)], pwr := { boot := 2 } }, rfl, shaped _ (by decide +kernel), 0xffff,
      by decide +kernel⟩,
    ⟨{}, rfl, shaped _ (by decide +kernel), by decide +kernel⟩,
    ⟨{}, rfl, shaped _ (by decide +kernel), by decide +kernel⟩,
    ⟨{ regs := [(R.CLK_STAT, 0x8000)], pwr := { boot := 2 } }, rfl, shaped _ (by decide +kernel), by decide +kernel⟩,
    ⟨{}, rfl, shaped _ (by decide +kernel), by decide +kernel⟩,
    ⟨{}, rfl, shaped _ (by decide +kernel), by decide +kernel⟩,
    ⟨{ pwr := { boot := 5 } }, rfl, shaped _ (by decide +kernel), by decide +kernel⟩,
    ⟨{ pwr := { boot := 2 } }, rfl, shaped _ (by decide +kernel), 0xa5a5, by decide +kernel⟩⟩

theorem hyps_ReferencesAreWatchedAndHandedOver_2 :
    (∃ s : State, s.Settled ∧ s.Shape ∧ ¬(s.clk.fatalHeld = true ∧ s.pwr.boot = 1 ∧ s.pwr.rstLow = false ∧
      s.pwr.loss = 0)) ∧
    (∃ s : State, s.Settled ∧ s.Shape ∧ ¬(4 ≤ s.pwr.boot ∧ s.clk.good = true)) ∧
    (∃ s : State, s.Settled ∧ s.Shape ∧ s.clk.relock = false) ∧
    (∃ s : State, s.Settled ∧ s.Shape ∧ ∃ p : Path, s.pathUp p = true ∧ ¬(s.flag F.CLK_STAT_XOQ = true ∧ s.flag
      F.CLK_STAT_ROOTSRC = false ∧ s.clk.handover = false ∧ s.clk.fellBack = true)) ∧
    (∃ s : State, s.Settled ∧ s.Shape ∧ s.flag F.CLK_STAT_KSRC = false) ∧
    (∃ s : State, s.Settled ∧ s.Shape ∧ ∃ cnt : Nat, ¬(4 ≤ s.pwr.boot ∧ s.flag F.CLK_STAT_ROOTSRC = true ∧ s.flag
      F.CLK_STAT_KSRC = true)) ∧
    (∃ s : State, s.Settled ∧ s.Shape ∧ 4 ≤ s.pwr.boot) ∧
    (∃ s : State, s.Settled ∧ s.Shape ∧ ∃ cnt : Word, ¬(s.coreOn = true ∧ s.flag F.CLK_STAT_IRCON = true ∧
      s.clk.ircSettling = false)) :=
  ⟨
    ⟨{}, rfl, shaped _ (by decide +kernel), by decide +kernel⟩,
    ⟨{}, rfl, shaped _ (by decide +kernel), by decide +kernel⟩,
    ⟨{}, rfl, shaped _ (by decide +kernel), by decide +kernel⟩,
    ⟨{ pwr := { boot := 5 } }, rfl, shaped _ (by decide +kernel), .remote, by decide +kernel⟩,
    ⟨{}, rfl, shaped _ (by decide +kernel), by decide +kernel⟩,
    ⟨{}, rfl, shaped _ (by decide +kernel), 184, by decide +kernel⟩,
    ⟨{ pwr := { boot := 5 } }, rfl, shaped _ (by decide +kernel), by decide +kernel⟩,
    ⟨{}, rfl, shaped _ (by decide +kernel), 3, by decide +kernel⟩⟩

theorem hyps_ReferencesAreWatchedAndHandedOver_3 :
    (∃ s : State, s.Settled ∧ s.Shape ∧ s.clk.handover = true) ∧
    (∃ s : State, s.Settled ∧ s.Shape ∧ (s.coreOn = true ∧ s.flag F.CLK_STAT_XOQ = false ∧ s.flag F.CLK_STAT_ROOTSRC
      = false ∧ s.clk.fellBack = false)) ∧
    (∃ s : State, s.Settled ∧ s.Shape ∧ s.clk.ircSettling = true) ∧
    (∃ s : State, s.Settled ∧ s.Shape ∧ ¬(4 ≤ s.pwr.boot ∧ s.clk.good = false ∧ s.clk.ircSettling = false)) ∧
    (∃ s : State, s.Settled ∧ s.Shape ∧ ∃ cnt : Word, ¬(s.coreOn = true ∧ s.flag F.CLK_STAT_IRCON = true ∧
      s.clk.ircSettling = false ∧ s.flag F.CLK_STAT_KSRC = false)) ∧
    (∃ s : State, s.Settled ∧ s.Shape ∧ s.flag F.CLK_STAT_KSRC = true) ∧
    (∃ s : State, s.Settled ∧ s.Shape ∧ ∃ cnt : Nat, (4 ≤ s.pwr.boot ∧ s.flag F.CLK_STAT_ROOTSRC = true ∧ s.flag
      F.CLK_STAT_KSRC = true) ∧ ¬(61433856 ≤ cnt ∧ cnt ≤ 61446144)) ∧
    (∃ s : State, s.Settled ∧ s.Shape ∧ (4 ≤ s.pwr.boot ∧ s.clk.good = true)) :=
  ⟨
    ⟨{ clk := { handover := true } }, rfl, shaped _ (by decide +kernel), by decide +kernel⟩,
    ⟨{ pwr := { boot := 2 } }, rfl, shaped _ (by decide +kernel), by decide +kernel⟩,
    ⟨{ clk := { ircSettling := true } }, rfl, shaped _ (by decide +kernel), by decide +kernel⟩,
    ⟨{}, rfl, shaped _ (by decide +kernel), by decide +kernel⟩,
    ⟨{}, rfl, shaped _ (by decide +kernel), 0x18, by decide +kernel⟩,
    ⟨{ regs := [(R.CLK_STAT, 0x800)] }, rfl, shaped _ (by decide +kernel), by decide +kernel⟩,
    ⟨{ regs := [(R.CLK_STAT, 0x8800)], pwr := { boot := 5 } }, rfl, shaped _ (by decide +kernel), 79,
      by decide +kernel⟩,
    ⟨{ clk := { good := true }, pwr := { boot := 5 } }, rfl, shaped _ (by decide +kernel), by decide +kernel⟩⟩

theorem hyps_ReferencesAreWatchedAndHandedOver_4 :
    (∃ s : State, s.Settled ∧ s.Shape ∧ s.clk.relock = true) ∧
    (∃ s : State, s.Settled ∧ s.Shape ∧ s.coreOn = false) ∧
    (∃ s : State, s.Settled ∧ s.Shape ∧ ∃ cnt : Word, (s.coreOn = true ∧ s.flag F.CLK_STAT_IRCON = true ∧
      s.clk.ircSettling = false) ∧ s.flag F.CLK_STAT_ROOTSRC = false ∧ s.clk.handover = false ∧ ¬((1004 ≤
      BitVec.toNat cnt ∧ BitVec.toNat cnt ≤ 1044) ∧ ∀ (p : Nat), s.clk.xoPrev = some p → BitVec.toNat cnt ≤ p + 1 ∧
      p ≤ BitVec.toNat cnt + 1)) ∧
    (∃ s : State, s.Settled ∧ s.Shape ∧ s.coreOn = true ∧ s.flag F.CLK_STAT_ROOTSRC = false ∧ s.clk.handover =
      false) ∧
    (∃ s : State, s.Settled ∧ s.Shape ∧ ∃ cnt : Word, (s.coreOn = true ∧ s.flag F.CLK_STAT_IRCON = true ∧
      s.clk.ircSettling = false ∧ s.flag F.CLK_STAT_KSRC = false) ∧ ¬(2940 ≤ BitVec.toNat cnt ∧ BitVec.toNat cnt ≤
      3060) ∧ s.clk.firstCheck = true) ∧
    (∃ s : State, s.Settled ∧ s.Shape ∧ s.pwr.boot = 3) ∧
    (∃ s : State, s.Settled ∧ s.Shape ∧ s.pwr.boot < 4) ∧
    (∃ s : State, s.Settled ∧ s.Shape ∧ ∃ cnt : Word, (s.coreOn = true ∧ s.flag F.CLK_STAT_IRCON = true ∧
      s.clk.ircSettling = false) ∧ s.flag F.CLK_STAT_ROOTSRC = false ∧ s.clk.handover = true) :=
  ⟨
    ⟨{ clk := { relock := true } }, rfl, shaped _ (by decide +kernel), by decide +kernel⟩,
    ⟨{}, rfl, shaped _ (by decide +kernel), by decide +kernel⟩,
    ⟨{ pwr := { boot := 2 } }, rfl, shaped _ (by decide +kernel), 0xae21, by decide +kernel⟩,
    ⟨{ pwr := { boot := 2 } }, rfl, shaped _ (by decide +kernel), by decide +kernel⟩,
    ⟨{ clk := { firstCheck := true }, pwr := { boot := 2 } }, rfl, shaped _ (by decide +kernel), 0xe4d2,
      by decide +kernel⟩,
    ⟨{ pwr := { boot := 3 } }, rfl, shaped _ (by decide +kernel), by decide +kernel⟩,
    ⟨{}, rfl, shaped _ (by decide +kernel), by decide +kernel⟩,
    ⟨{ clk := { handover := true }, pwr := { boot := 2 } }, rfl, shaped _ (by decide +kernel), 0x29b9,
      by decide +kernel⟩⟩

theorem hyps_ReferencesAreWatchedAndHandedOver_5 :
    (∃ s : State, s.Settled ∧ s.Shape ∧ ∃ cnt : Word, (s.coreOn = true ∧ s.flag F.CLK_STAT_IRCON = true ∧
      s.clk.ircSettling = false) ∧ s.flag F.CLK_STAT_ROOTSRC = true ∧ (1004 ≤ BitVec.toNat cnt ∧ BitVec.toNat cnt ≤
      1044)) ∧
    (∃ s : State, s.Settled ∧ s.Shape ∧ (s.clk.fatalHeld = true ∧ s.pwr.boot = 1 ∧ s.pwr.rstLow = false ∧ s.pwr.loss
      = 0)) ∧
    (∃ s : State, s.Settled ∧ s.Shape ∧ ∃ cnt : Word, (s.coreOn = true ∧ s.flag F.CLK_STAT_IRCON = true ∧
      s.clk.ircSettling = false ∧ s.flag F.CLK_STAT_KSRC = false) ∧ (2940 ≤ BitVec.toNat cnt ∧ BitVec.toNat cnt ≤
      3060)) :=
  ⟨
    ⟨{ regs := [(R.CLK_STAT, 0x9000)], pwr := { boot := 2 } }, rfl, shaped _ (by decide +kernel), 0x3f4,
      by decide +kernel⟩,
    ⟨{ clk := { fatalHeld := true }, pwr := { boot := 1 } }, rfl, shaped _ (by decide +kernel), by decide +kernel⟩,
    ⟨{ pwr := { boot := 2 } }, rfl, shaped _ (by decide +kernel), 0xbb1, by decide +kernel⟩⟩

theorem hyps_StartUpRunsItsSteps_1 :
    (∃ s : State, s.Settled ∧ ∃ strap : Bool, s.pwr.boot ≠ 0 ∧ (s.pwr.loss = 0 ∧ s.keep.off = false ∨ 1 ≤ s.pwr.loss
      ∧ s.pwr.vauxBack = true)) ∧
    (∃ s : State, s.Settled ∧ ¬(s.pwr.boot = 1 ∧ s.pwr.rstLow = false ∧ s.clk.fatalHeld = false)) ∧
    (∃ s : State, s.Settled ∧ s.pwr.boot ≠ 2) ∧
    (∃ s : State, s.Settled ∧ ¬(s.pwr.boot = 4 ∧ s.pwr.loss = 0 ∧ s.pwr.rstLow = false)) ∧
    (∃ s : State, s.Settled ∧ ¬(s.pwr.boot = 5 ∧ s.pwr.loss = 0 ∧ s.pwr.rstLow = false)) ∧
    (∃ s : State, s.Settled ∧ ∃ strap : Bool, s.pwr.boot ≠ 0 ∧ s.pwr.loss = 0 ∧ s.keep.off = true) ∧
    (∃ s : State, s.Settled ∧ (s.pwr.boot = 4 ∧ s.pwr.loss = 0 ∧ s.pwr.rstLow = false)) ∧
    (∃ s : State, s.Settled ∧ ∃ strap : Bool, s.pwr.boot ≠ 0 ∧ 1 ≤ s.pwr.loss ∧ s.pwr.vauxBack = false) :=
  ⟨
    ⟨{ pwr := { boot := 1 } }, rfl, false, by decide +kernel⟩,
    atRest (by decide +kernel),
    atRest (by decide +kernel),
    atRest (by decide +kernel),
    atRest (by decide +kernel),
    ⟨{ keep := { off := true }, pwr := { boot := 1 } }, rfl, true, by decide +kernel⟩,
    ⟨{ pwr := { boot := 4 } }, rfl, by decide +kernel⟩,
    ⟨{ pwr := { boot := 1, loss := 1 } }, rfl, false, by decide +kernel⟩⟩

theorem hyps_StartUpRunsItsSteps_2 :
    (∃ s : State, s.Settled ∧ (s.pwr.boot = 1 ∧ s.pwr.rstLow = false ∧ s.clk.fatalHeld = false)) ∧
    (∃ s : State, s.Settled ∧ s.pwr.boot = 2) ∧
    (∃ s : State, s.Settled ∧ (s.pwr.boot = 5 ∧ s.pwr.loss = 0 ∧ s.pwr.rstLow = false)) ∧
    (∃ s : State, s.Settled ∧ ∃ strap : Bool, s.pwr.boot = 0 ∧ s.pwr.loss = 0) :=
  ⟨
    ⟨{ pwr := { boot := 1 } }, rfl, by decide +kernel⟩,
    ⟨{ pwr := { boot := 2 } }, rfl, by decide +kernel⟩,
    ⟨{ pwr := { boot := 5 } }, rfl, by decide +kernel⟩,
    ⟨{}, rfl, false, by decide +kernel⟩⟩

theorem hyps_MainsLossAndResetsLeaveTheNode_1 :
    (∃ s : State, s.Settled ∧ s.Shape ∧ ∃ zcs : Bool, s.lossHolds zcs = true) ∧
    (∃ s : State, s.Settled ∧ s.Shape ∧ s.pwr.loss ≠ 1) ∧
    (∃ s : State, s.Settled ∧ s.Shape ∧ ∃ v : Word, ¬(s.pwr.loss = 2 ∧ s.pwr.asked = true)) ∧
    (∃ s : State, s.Settled ∧ s.Shape ∧ ∃ v : Word, s.burstEnded = false) ∧
    (∃ s : State, s.Settled ∧ s.Shape ∧ s.pwr.boot ≠ 0) ∧
    (∃ s : State, s.Settled ∧ s.Shape ∧ s.coreOn = true) ∧
    (∃ s : State, s.Settled ∧ s.Shape ∧ s.pwr.rstLow = false) ∧
    (∃ s : State, s.Settled ∧ s.Shape ∧ ∃ strap : Bool, s.pwr.rstLow = false) :=
  ⟨
    ⟨{ pwr := { boot := 1 } }, rfl, shaped _ (by decide +kernel), false, by decide +kernel⟩,
    ⟨{}, rfl, shaped _ (by decide +kernel), by decide +kernel⟩,
    ⟨{}, rfl, shaped _ (by decide +kernel), 0xe9, by decide +kernel⟩,
    ⟨{}, rfl, shaped _ (by decide +kernel), 0xe9, by decide +kernel⟩,
    ⟨{ pwr := { boot := 1 } }, rfl, shaped _ (by decide +kernel), by decide +kernel⟩,
    ⟨{ pwr := { boot := 2 } }, rfl, shaped _ (by decide +kernel), by decide +kernel⟩,
    ⟨{}, rfl, shaped _ (by decide +kernel), by decide +kernel⟩,
    ⟨{}, rfl, shaped _ (by decide +kernel), false, by decide +kernel⟩⟩

theorem hyps_MainsLossAndResetsLeaveTheNode_2 :
    (∃ s : State, s.Settled ∧ s.Shape ∧ ∃ zcs : Bool, s.lossHolds zcs = false ∧ zcs = true) ∧
    (∃ s : State, s.Settled ∧ s.Shape ∧ s.coreOn = false) ∧
    (∃ s : State, s.Settled ∧ s.Shape ∧ s.pwr.rstLow = true) ∧
    (∃ s : State, s.Settled ∧ s.Shape ∧ ∃ strap : Bool, s.pwr.rstLow = true ∧ s.pwr.boot ≠ 0) ∧
    (∃ s : State, s.Settled ∧ s.Shape ∧ ∃ zcs : Bool, zcs = false ∧ (1 ≤ s.pwr.loss ∨ s.pwr.boot = 0)) ∧
    (∃ s : State, s.Settled ∧ s.Shape ∧ ∃ v : Word, s.burstEnded = true) ∧
    (∃ s : State, s.Settled ∧ s.Shape ∧ s.pwr.loss = 1) ∧
    (∃ s : State, s.Settled ∧ s.Shape ∧ ∃ v : Word, (s.pwr.loss = 2 ∧ s.pwr.asked = true) ∧ s.pair R.KEEP_RSVREQ_LO
      + BitVec.toNat (s.reg R.KEEP_RESERVE) * 1000 ≤ s.storeEnergy (BitVec.toNat v)) :=
  ⟨
    ⟨{}, rfl, shaped _ (by decide +kernel), true, by decide +kernel⟩,
    ⟨{}, rfl, shaped _ (by decide +kernel), by decide +kernel⟩,
    ⟨{ pwr := { rstLow := true } }, rfl, shaped _ (by decide +kernel), by decide +kernel⟩,
    ⟨{ pwr := { boot := 1, rstLow := true } }, rfl, shaped _ (by decide +kernel), false, by decide +kernel⟩,
    ⟨{}, rfl, shaped _ (by decide +kernel), false, by decide +kernel⟩,
    ⟨{ pwr := { loss := 2 } }, rfl, shaped _ (by decide +kernel), 0x8a, by decide +kernel⟩,
    ⟨{ pwr := { loss := 1 } }, rfl, shaped _ (by decide +kernel), by decide +kernel⟩,
    ⟨{ pwr := { loss := 2, asked := true } }, rfl, shaped _ (by decide +kernel), 0x5ea1, by decide +kernel⟩⟩

theorem hyps_MainsLossAndResetsLeaveTheNode_3 :
    (∃ s : State, s.Settled ∧ s.Shape ∧ ∃ v : Word, (s.pwr.loss = 2 ∧ s.pwr.asked = true) ∧ ¬s.pair R.KEEP_RSVREQ_LO
      + BitVec.toNat (s.reg R.KEEP_RESERVE) * 1000 ≤ s.storeEnergy (BitVec.toNat v)) ∧
    (∃ s : State, s.Settled ∧ s.Shape ∧ s.pwr.boot = 0) ∧
    (∃ s : State, s.Settled ∧ s.Shape ∧ ∃ strap : Bool, s.pwr.rstLow = true ∧ s.pwr.boot = 0) :=
  ⟨
    ⟨{ pwr := { loss := 2, asked := true } }, rfl, shaped _ (by decide +kernel), 0x12b, by decide +kernel⟩,
    ⟨{}, rfl, shaped _ (by decide +kernel), by decide +kernel⟩,
    ⟨{ pwr := { rstLow := true } }, rfl, shaped _ (by decide +kernel), true, by decide +kernel⟩⟩

theorem hyps_RailsEnginesAndTheStore_1 :
    (∃ s : State, s.Settled ∧ s.Shape ∧ s.flag F.PWR_STAT_VDRVG = false) ∧
    (∃ s : State, s.Settled ∧ s.Shape ∧ ∃ on : Bool, (on = false ∨ s.coreOn = true)) ∧
    (∃ s : State, s.Settled ∧ s.Shape ∧ ∃ e : Engine, (4 ≤ s.pwr.boot ∧ s.pwr.rstLow = false ∧ s.bit R.PWR_STALLEN
      (engineBit e) = true)) ∧
    (∃ s : State, s.Settled ∧ s.Shape ∧ ∃ e : Engine, ¬(4 ≤ s.pwr.boot ∧ s.pwr.rstLow = false ∧ s.bit R.PWR_STALLEN
      (engineBit e) = true)) ∧
    (∃ s : State, s.Settled ∧ s.Shape ∧ ∃ v : Word, ∃ c : Word, BitVec.toNat v < 2300) ∧
    (∃ s : State, s.Settled ∧ s.Shape ∧ ∃ v : Word, ∃ c : Word, (BitVec.toNat v ≤ 2800 ∨ s.keep.cell = false)) ∧
    (∃ s : State, s.Settled ∧ s.Shape ∧ ∃ v : Word, ∃ c : Word, BitVec.toNat v < 10 * s.fld F.KEEP_VMAX_V) ∧
    (∃ s : State, s.Settled ∧ s.Shape ∧ ∃ v : Word, ∃ c : Word, BitVec.toNat v + 50 ≤ 10 * s.fld F.KEEP_VMAX_V) :=
  ⟨
    ⟨{}, rfl, shaped _ (by decide +kernel), by decide +kernel⟩,
    ⟨{ pwr := { boot := 2 } }, rfl, shaped _ (by decide +kernel), true, by decide +kernel⟩,
    ⟨{ pwr := { boot := 5 } }, rfl, shaped _ (by decide +kernel), (Engine.fde), by decide +kernel⟩,
    ⟨{}, rfl, shaped _ (by decide +kernel), (Engine.phy), by decide +kernel⟩,
    ⟨{}, rfl, shaped _ (by decide +kernel), 1, 0xcc, by decide +kernel⟩,
    ⟨{}, rfl, shaped _ (by decide +kernel), 1, 0xcc, by decide +kernel⟩,
    ⟨{}, rfl, shaped _ (by decide +kernel), 1, 0xcc, by decide +kernel⟩,
    ⟨{}, rfl, shaped _ (by decide +kernel), 1, 0xcc, by decide +kernel⟩⟩

theorem hyps_RailsEnginesAndTheStore_2 :
    (∃ s : State, s.Settled ∧ s.Shape ∧ ∃ x : Word, (s.flag F.KEEP_CTL_HEN = true ∧ (s.pwr.boot ≠ 0 ∨ BitVec.getLsbD
      s.keep.deep 0 = true)) ∧ 1024 ≤ 50 * BitVec.toNat x ∧ 10 * BitVec.toNat x ≤ 4096) ∧
    (∃ s : State, s.Settled ∧ s.Shape ∧ s.keep.elapsed / (3600 * 2 ^ 48) ≤ s.keep.hours) ∧
    (∃ s : State, s.Settled ∧ s.Shape ∧ (s.pwr.boot = 0 ∨ s.keep.litEdges < 3600 * 32768)) ∧
    (∃ s : State, s.Settled ∧ s.Shape ∧ s.flag F.PWR_STAT_VDRVG = true) ∧
    (∃ s : State, s.Settled ∧ s.Shape ∧ ∃ v : Word, ∃ c : Word, 2300 ≤ BitVec.toNat v) ∧
    (∃ s : State, s.Settled ∧ s.Shape ∧ ∃ v : Word, ∃ c : Word, 2800 < BitVec.toNat v ∧ s.keep.cell = true) ∧
    (∃ s : State, s.Settled ∧ s.Shape ∧ ∃ v : Word, ∃ c : Word, 10 * s.fld F.KEEP_VMAX_V ≤ BitVec.toNat v) ∧
    (∃ s : State, s.Settled ∧ s.Shape ∧ ∃ v : Word, ∃ c : Word, 10 * s.fld F.KEEP_VMAX_V < BitVec.toNat v + 50) :=
  ⟨
    ⟨{}, rfl, shaped _ (by decide +kernel), 0x66, by decide +kernel⟩,
    ⟨{}, rfl, shaped _ (by decide +kernel), by decide +kernel⟩,
    ⟨{}, rfl, shaped _ (by decide +kernel), by decide +kernel⟩,
    ⟨{ regs := [(R.PWR_STAT, 0x4000)] }, rfl, shaped _ (by decide +kernel), by decide +kernel⟩,
    ⟨{}, rfl, shaped _ (by decide +kernel), 0xffff, 2, by decide +kernel⟩,
    ⟨{ keep := { cell := true } }, rfl, shaped _ (by decide +kernel), 0xffff, 2, by decide +kernel⟩,
    ⟨{}, rfl, shaped _ (by decide +kernel), 0xffff, 2, by decide +kernel⟩,
    ⟨{}, rfl, shaped _ (by decide +kernel), 0xffff, 2, by decide +kernel⟩⟩

theorem hyps_RailsEnginesAndTheStore_3 :
    (∃ s : State, s.Settled ∧ s.Shape ∧ ∃ x : Word, (s.flag F.KEEP_CTL_HEN = true ∧ (s.pwr.boot ≠ 0 ∨ BitVec.getLsbD
      s.keep.deep 0 = true)) ∧ 4096 < 10 * BitVec.toNat x) ∧
    (∃ s : State, s.Settled ∧ s.Shape ∧ ∃ x : Word, (s.flag F.KEEP_CTL_HEN = true ∧ (s.pwr.boot ≠ 0 ∨ BitVec.getLsbD
      s.keep.deep 0 = true)) ∧ 50 * BitVec.toNat x < 1024) ∧
    (∃ s : State, s.Settled ∧ s.Shape ∧ ∃ on : Bool, on = true ∧ s.coreOn = false) ∧
    (∃ s : State, s.Settled ∧ s.Shape ∧ ∃ x : Word, ¬(s.flag F.KEEP_CTL_HEN = true ∧ (s.pwr.boot ≠ 0 ∨
      BitVec.getLsbD s.keep.deep 0 = true))) ∧
    (∃ s : State, s.Settled ∧ s.Shape ∧ s.pwr.boot ≠ 0 ∧ 3600 * 32768 ≤ s.keep.litEdges) :=
  ⟨
    ⟨{}, rfl, shaped _ (by decide +kernel), 0x5a17, by decide +kernel⟩,
    ⟨{}, rfl, shaped _ (by decide +kernel), 0xd, by decide +kernel⟩,
    ⟨{}, rfl, shaped _ (by decide +kernel), true, by decide +kernel⟩,
    ⟨{ regs := [(R.KEEP_CTL, 0)] }, rfl, shaped _ (by decide +kernel), 0xffff, by decide +kernel⟩,
    ⟨{ keep := { litEdges := 0x53ae1fbb }, pwr := { boot := 1 } }, rfl, shaped _ (by decide +kernel),
      by decide +kernel⟩⟩

theorem hyps_TheVaultEndsItsOperations_1 :
    (∃ s : State, s.Settled ∧ ¬(s.vaultFree = true ∧ s.vlt.commit = none ∧ bufRecords s.vlt.buf ≠ [])) ∧
    (∃ s : State, s.Settled ∧ ∃ n : Nat, s.vlt.commit = some n ∧ s.vaultFree = true) ∧
    (∃ s : State, s.Settled ∧ ((∀ (e : VEntry), s.vlt.op = some e → e.isRewrite = false) ∨ s.vaultFree = false)) ∧
    (∃ s : State, s.Settled ∧ ((∀ (c : Bool) (o : Nat) (b : Bank), s.vlt.op ≠ some (VEntry.bank c o b)) ∨
      s.vaultFree = false)) ∧
    (∃ s : State, s.Settled ∧ ∃ nb : List (Nat × Nat), s.vlt.fold = some nb ∧ s.vaultFree = true) ∧
    (∃ s : State, s.Settled ∧ ((∀ (ws : List Word), s.vlt.op ≠ some (VEntry.legWrite ws)) ∨ s.vaultFree = false)) ∧
    (∃ s : State, s.Settled ∧ s.vaultFree = true ∧ (∀ (k : Nat), s.vlt.op ≠ some (VEntry.usrErase k)) ∧ s.vlt.hatCut
      = 0) ∧
    (∃ s : State, s.Settled ∧ 4 ≤ s.pwr.boot) :=
  ⟨
    atRest (by decide +kernel),
    ⟨{ pwr := { boot := 7 }, vlt := { commit := (some 0) } }, rfl, 0, by decide +kernel⟩,
    ⟨{}, rfl, Or.inl (by nofun)⟩,
    ⟨{}, rfl, Or.inl (by nofun)⟩,
    ⟨{ pwr := { boot := 7 }, vlt := { fold := (some []) } }, rfl, [], by decide +kernel⟩,
    ⟨{}, rfl, Or.inl (by nofun)⟩,
    ⟨{ pwr := { boot := 7 } }, rfl, by decide +kernel,
      (by intro x h; cases h),
      by decide +kernel⟩,
    ⟨{ pwr := { boot := 5 } }, rfl, by decide +kernel⟩⟩

theorem hyps_TheVaultEndsItsOperations_2 :
    (∃ s : State, s.Settled ∧ ∃ p : Path, s.pathUp p = true ∧ s.vlt.commit = none ∧ ¬(s.vaultFree = true ∧
      s.vlt.commit = none ∧ bufRecords s.vlt.buf ≠ [])) ∧
    (∃ s : State, s.Settled ∧ (s.vlt.commit = none ∨ s.vaultFree = false ∧ s.pwr.granted = false)) ∧
    (∃ s : State, s.Settled ∧ (s.vlt.fold = none ∨ s.vaultFree = false)) ∧
    (∃ s : State, s.Settled ∧ s.vaultFree = true ∧ (∀ (k : Nat), s.vlt.op ≠ some (VEntry.usrErase k)) ∧ s.vlt.hatCut
      ≠ 0) ∧
    (∃ s : State, s.Settled ∧ ∃ p : Path, s.pathUp p = true ∧ s.vlt.commit.isSome = true) ∧
    (∃ s : State, s.Settled ∧ (s.vaultFree = true ∧ s.vlt.commit = none ∧ bufRecords s.vlt.buf ≠ [])) ∧
    (∃ s : State, s.Settled ∧ ∃ p : Path, s.pathUp p = true ∧ (s.vaultFree = true ∧ s.vlt.commit = none ∧ bufRecords
      s.vlt.buf ≠ [])) ∧
    (∃ s : State, s.Settled ∧ ∃ k : Nat, s.vaultFree = true ∧ s.vlt.op = some (VEntry.usrErase k) ∧ (s.vlt.wait = []
      ∧ ∀ (e : VEntry), e ∈ dropFirstOp s.vlt.buf → e.isOp = false)) :=
  ⟨
    ⟨{ pwr := { boot := 5 } }, rfl, .host, by decide +kernel⟩,
    atRest (by decide +kernel),
    atRest (by decide +kernel),
    ⟨{ pwr := { boot := 7 }, vlt := { hatCut := 1 } }, rfl, by decide +kernel,
      (by intro x h; cases h),
      by decide +kernel⟩,
    ⟨{ pwr := { boot := 5 }, vlt := { commit := (some 0) } }, rfl, .remote, by decide +kernel⟩,
    ⟨{ pwr := { boot := 7 }, vlt := { buf := [(Sys2Proof.Machine.VEntry.record 1 [0x07#8, 0x02#8, 0x07#8, 0x05#8, 0x06#8, 0x04#8, 0x06#8, 0x04#8, 0x07#8, 0x02#8, 0x00#8, 0x01#8, 0x07#8, 0x07#8, 0x03#8, 0x04#8, 0x07#8, 0x03#8, 0x01#8, 0x01#8, 0x03#8, 0x07#8, 0x07#8, 0x00#8, 0x04#8, 0x03#8, 0x07#8, 0x01#8, 0x01#8, 0x07#8, 0x05#8, 0x07#8, 0x01#8, 0x03#8, 0x05#8, 0x05#8, 0x01#8, 0x07#8, 0x05#8, 0x01#8, 0x07#8, 0x03#8, 0x02#8, 0x01#8, 0x02#8, 0x05#8, 0x03#8, 0x00#8, 0x04#8, 0x01#8, 0x02#8, 0x01#8, 0x02#8, 0x04#8, 0x07#8, 0x00#8, 0x00#8, 0x07#8, 0x06#8, 0x05#8, 0x05#8, 0x05#8, 0x07#8, 0x02#8, 0x06#8])] } },
      rfl, by decide +kernel⟩,
    ⟨{ pwr := { boot := 7 }, vlt := { buf := [(Sys2Proof.Machine.VEntry.record 1 [0x07#8, 0x02#8, 0x07#8, 0x05#8, 0x06#8, 0x04#8, 0x06#8, 0x04#8, 0x07#8, 0x02#8, 0x00#8, 0x01#8, 0x07#8, 0x07#8, 0x03#8, 0x04#8, 0x07#8, 0x03#8, 0x01#8, 0x01#8, 0x03#8, 0x07#8, 0x07#8, 0x00#8, 0x04#8, 0x03#8, 0x07#8, 0x01#8, 0x01#8, 0x07#8, 0x05#8, 0x07#8, 0x01#8, 0x03#8, 0x05#8, 0x05#8, 0x01#8, 0x07#8, 0x05#8, 0x01#8, 0x07#8, 0x03#8, 0x02#8, 0x01#8, 0x02#8, 0x05#8, 0x03#8, 0x00#8, 0x04#8, 0x01#8, 0x02#8, 0x01#8, 0x02#8, 0x04#8, 0x07#8, 0x00#8, 0x00#8, 0x07#8, 0x06#8, 0x05#8, 0x05#8, 0x05#8, 0x07#8, 0x02#8, 0x06#8])] } },
      rfl, .remote, by decide +kernel⟩,
    ⟨{ pwr := { boot := 7 }, vlt := { op := (some (Sys2Proof.Machine.VEntry.usrErase 6)) } }, rfl, 6,
      by decide +kernel⟩⟩

theorem hyps_TheVaultEndsItsOperations_3 :
    (∃ s : State, s.Settled ∧ s.vaultFree = false) ∧
    (∃ s : State, s.Settled ∧ ∃ c : Bool, ∃ o : Nat, ∃ b : Bank, s.vlt.op = some (VEntry.bank c o b) ∧ s.vaultFree =
      true ∧ (s.vlt.wait = [] ∧ ∀ (e : VEntry), e ∈ dropFirstOp s.vlt.buf → e.isOp = false)) ∧
    (∃ s : State, s.Settled ∧ s.pwr.boot < 4) ∧
    (∃ s : State, s.Settled ∧ ∃ e : VEntry, s.vlt.op = some e ∧ e.isRewrite = true ∧ s.vaultFree = true ∧
      (s.vlt.wait = [] ∧ ∀ (e : VEntry), e ∈ dropFirstOp s.vlt.buf → e.isOp = false)) ∧
    (∃ s : State, s.Settled ∧ ∃ ws : List Word, s.vlt.op = some (VEntry.legWrite ws) ∧ s.vaultFree = true ∧
      (s.vlt.wait = [] ∧ ∀ (e : VEntry), e ∈ dropFirstOp s.vlt.buf → e.isOp = false)) :=
  ⟨
    atRest (by decide +kernel),
    ⟨{ pwr := { boot := 7 }, vlt := { op := (some (Sys2Proof.Machine.VEntry.bank true 8 { version := 0, saves := 1, digest := [], cfg := [(0, 0xd3d5#16), (1, 0x7a9b#16)], tab := [] })) } },
      rfl, true, 8, { saves := 1, cfg := [(0, 0xd3d5), (1, 0x7a9b)] }, by decide +kernel⟩,
    atRest (by decide +kernel),
    ⟨{ pwr := { boot := 7 }, vlt := { op := (some (Sys2Proof.Machine.VEntry.logSector0)) } }, rfl,
      (VEntry.logSector0), by decide +kernel⟩,
    ⟨{ pwr := { boot := 7 }, vlt := { op := (some (Sys2Proof.Machine.VEntry.legWrite [0x0001#16, 0x000d#16, 0x000d#16, 0x0006#16, 0x0000#16, 0x001d#16, 0x00fa#16, 0x00a6#16, 0x0064#16, 0x0007#16, 0xe6fc#16, 0x0065#16, 0x0031#16, 0xce80#16, 0x0001#16, 0x82aa#16, 0x8865#16, 0x1651#16, 0x0003#16, 0x84d0#16, 0x62db#16, 0x0098#16, 0x0050#16, 0x3c83#16, 0x0001#16, 0xc807#16, 0xffff#16, 0x0000#16, 0x114c#16, 0x0005#16, 0x8c6c#16, 0xffff#16, 0x0002#16, 0xffff#16, 0x53f7#16, 0x0005#16, 0x0002#16, 0x0000#16, 0x1c16#16, 0x0075#16, 0x0002#16, 0xffff#16, 0x0035#16, 0x0029#16, 0xffff#16, 0xffff#16, 0x003b#16, 0xffff#16, 0x005c#16, 0x0001#16, 0xffff#16, 0x2152#16, 0xffff#16, 0xffff#16, 0x00b7#16, 0xa7b9#16, 0xcd88#16, 0xffff#16, 0x0006#16, 0x0000#16, 0x0001#16, 0x0004#16, 0xc950#16, 0x0001#16, 0x0000#16, 0x00ea#16, 0x004f#16, 0x6619#16, 0x0002#16, 0x0003#16, 0x5bb4#16, 0x0003#16, 0xffff#16, 0xffff#16, 0x00bf#16, 0x0092#16, 0x00ed#16, 0xffff#16, 0xb587#16, 0xdb6e#16, 0xbb13#16, 0x0002#16, 0x0b6f#16, 0x0001#16, 0xffff#16, 0x00e1#16, 0xed9b#16, 0x0007#16, 0x0006#16, 0xffff#16, 0x00c7#16, 0x004a#16, 0x0007#16, 0x004f#16, 0x0007#16, 0x011b#16, 0xffff#16, 0x80ea#16, 0xffff#16, 0x0003#16, 0x0003#16, 0x0003#16, 0xffff#16, 0x910b#16, 0x2875#16, 0x00b7#16, 0xca8d#16, 0x0030#16, 0x0007#16, 0x0000#16, 0xffff#16, 0x00ea#16, 0x204a#16, 0x8003#16, 0xffff#16, 0xffff#16, 0xffff#16, 0x0010#16, 0x0054#16, 0xffff#16, 0x0001#16, 0x0003#16, 0x00d0#16, 0xffff#16, 0x0088#16, 0xffff#16, 0x200b#16, 0xf8a6#16, 0x3fce#16, 0xe4d9#16, 0xffff#16, 0x004d#16, 0x0099#16, 0x0001#16, 0x0005#16, 0x0077#16, 0xffff#16, 0x0001#16, 0x0001#16, 0x011c#16, 0xffff#16, 0x0002#16, 0x0006#16, 0x0005#16, 0x0003#16, 0x00bc#16, 0x0002#16, 0x0694#16, 0x00a2#16, 0x0001#16, 0xc2e5#16, 0x0003#16, 0xd7ff#16, 0x00e4#16, 0x0000#16, 0xae27#16, 0x0000#16, 0x0292#16, 0xc806#16, 0x0003#16, 0x4434#16, 0x0002#16, 0x652f#16, 0x0052#16, 0xdffd#16, 0x696b#16, 0x7a31#16, 0x00f7#16, 0x00ed#16, 0x00c5#16, 0x0000#16, 0x00d7#16, 0x00f3#16, 0x0064#16, 0x451a#16, 0x0000#16, 0xb403#16, 0x0002#16, 0xffff#16, 0xffff#16, 0x5397#16, 0x006e#16, 0xffff#16, 0x0003#16, 0x004c#16, 0x0003#16, 0x00ef#16, 0x057c#16, 0x0035#16, 0x1148#16, 0x0002#16, 0xffff#16, 0xffff#16, 0x0001#16, 0x00b5#16, 0x0013#16, 0x5f0a#16, 0xa569#16, 0x00e2#16, 0x0003#16, 0x0006#16, 0x7ee5#16, 0x008b#16, 0x9512#16, 0x0005#16, 0xffff#16, 0xffff#16, 0x0006#16, 0x0001#16, 0x870a#16, 0x0002#16, 0x0003#16, 0x0002#16, 0x0356#16, 0x0070#16, 0x0006#16, 0x0002#16, 0xffff#16, 0x0095#16, 0xffff#16, 0x3b6f#16, 0x6b66#16, 0x9601#16, 0x0000#16, 0x0001#16, 0x8439#16, 0xc3cd#16, 0x0004#16, 0x8aa4#16, 0x0061#16, 0x0001#16, 0x0005#16, 0x0001#16, 0xeeb5#16, 0x0001#16, 0xffff#16, 0xc7a1#16, 0x0001#16, 0x0399#16, 0x0000#16, 0x0007#16, 0x008f#16, 0x0000#16, 0x9e10#16, 0x002e#16, 0xffff#16, 0x00d9#16, 0xffff#16, 0x00ae#16, 0x1588#16, 0x0002#16, 0x000f#16, 0x0095#16, 0x0000#16, 0x00d4#16, 0x0029#16, 0xffff#16, 0x9e3f#16, 0x007c#16, 0x0004#16, 0x0003#16, 0x0007#16, 0xffff#16, 0x0006#16, 0x00e1#16, 0x0005#16, 0xc31f#16, 0x0004#16, 0x0004#16, 0x0039#16, 0xffff#16, 0xd903#16, 0x593c#16, 0x0060#16, 0xffff#16, 0x0003#16, 0x0003#16, 0xffff#16, 0x0017#16, 0x0001#16, 0x02e3#16, 0xffff#16, 0x0efa#16, 0x9500#16, 0xd76d#16, 0x0003#16, 0x0083#16, 0x0002#16, 0x0000#16, 0x014a#16, 0x0067#16, 0x0007#16, 0xffff#16, 0x001c#16, 0x0007#16, 0xeefb#16, 0x000d#16, 0xf11a#16, 0x008c#16, 0xffff#16, 0x0001#16, 0x0001#16, 0xc15a#16, 0xffff#16, 0xe758#16, 0x0dba#16, 0x672a#16, 0xea04#16, 0x0002#16, 0xffff#16, 0x8b8b#16, 0x00b3#16, 0x0005#16, 0x9349#16, 0x98f2#16, 0x3a2e#16, 0x8516#16, 0x8510#16, 0x3410#16, 0x2e1b#16, 0x0003#16, 0x008c#16, 0x0015#16, 0x0005#16, 0x0001#16, 0x007f#16, 0x0067#16, 0xffff#16, 0x00e7#16, 0x8e20#16, 0x00a2#16, 0xffff#16, 0x0008#16, 0x10af#16, 0x0001#16, 0x0001#16, 0x0001#16, 0x0019#16, 0xffff#16, 0x00be#16, 0x0004#16, 0x0003#16, 0x27ba#16, 0x0003#16, 0xd2c7#16, 0xbb0b#16, 0xdd9c#16, 0x0000#16, 0x00c5#16, 0x3dff#16, 0xffff#16, 0x355b#16, 0xffff#16, 0x0002#16, 0x0000#16, 0x004a#16, 0x0032#16, 0x0001#16, 0x0000#16, 0x1df6#16, 0x004b#16, 0x0002#16, 0x0002#16, 0xffff#16, 0x0097#16, 0x0001#16, 0x0000#16, 0x0848#16, 0x0002#16, 0xffff#16, 0x0406#16, 0x00b7#16, 0x002e#16, 0x0002#16, 0x0007#16, 0x003e#16, 0x00f2#16, 0x0006#16, 0x000b#16, 0x0003#16, 0x0f2f#16, 0x778e#16, 0x0000#16, 0x000e#16, 0x0003#16, 0x0003#16, 0x0092#16, 0xffff#16, 0x0074#16, 0x0008#16, 0x0000#16, 0x00ec#16, 0x0000#16, 0xffff#16, 0x7775#16, 0xbfc6#16, 0x008f#16, 0x00fd#16, 0x8e2d#16, 0x5014#16, 0xa011#16, 0xf4cb#16, 0xffff#16, 0xffff#16, 0x0002#16, 0x092d#16, 0x0001#16, 0xffff#16, 0xade1#16, 0xffff#16, 0xffff#16, 0xffff#16, 0x0001#16, 0xffff#16, 0x0004#16, 0x6d4a#16, 0xfc25#16, 0x9c77#16, 0x0007#16, 0x0088#16, 0x71ca#16, 0xffff#16, 0x2bcc#16, 0x0001#16, 0x0005#16, 0x00e3#16, 0xffff#16, 0x001d#16, 0x00de#16, 0xffff#16, 0xffff#16, 0x0003#16, 0x0003#16, 0x00e2#16, 0x000d#16, 0x0073#16, 0x0000#16, 0xa1d4#16, 0xffff#16, 0x00f4#16, 0x0005#16, 0x1fd0#16, 0xffff#16, 0xffff#16, 0x00b9#16, 0x1abb#16, 0xfe58#16, 0xffff#16, 0x0007#16, 0xa472#16, 0xffff#16, 0x0016#16, 0x3391#16, 0x0006#16, 0xd2d2#16, 0xffff#16, 0xffff#16, 0xffff#16, 0x0001#16, 0x7eac#16, 0xffff#16, 0xffff#16, 0x0000#16, 0x3d58#16, 0x0001#16, 0x0003#16, 0x4c3e#16, 0x000a#16, 0xffff#16, 0xffff#16, 0xffff#16, 0xffff#16, 0x0001#16, 0x0005#16, 0xb2e5#16, 0x0001#16, 0x0003#16, 0x00ee#16, 0x0004#16, 0x0006#16, 0x003f#16, 0x5d28#16, 0x3b76#16, 0x0004#16, 0x0001#16, 0x00b0#16, 0x0149#16, 0x0007#16, 0xffff#16, 0x81ac#16, 0x003b#16, 0x0004#16, 0x007a#16, 0xffff#16, 0x0038#16, 0x00be#16, 0xffff#16, 0x9ac9#16, 0x00b7#16, 0x0000#16, 0x5bb7#16, 0x00b1#16, 0x0000#16, 0xffff#16, 0x0000#16, 0x009e#16, 0x0096#16, 0x0047#16, 0xffff#16, 0x00a9#16])) } },
      rfl, [1, 0xd, 0xd, 6, 0, 0x1d, 0xfa, 0xa6, 0x64, 7, 0xe6fc, 0x65, 0x31, 0xce80, 1, 0x82aa, 0x8865, 0x1651, 3,
      0x84d0, 0x62db, 0x98, 0x50, 0x3c83, 1, 0xc807, 0xffff, 0, 0x114c, 5, 0x8c6c, 0xffff, 2, 0xffff, 0x53f7, 5, 2,
      0, 0x1c16, 0x75, 2, 0xffff, 0x35, 0x29, 0xffff, 0xffff, 0x3b, 0xffff, 0x5c, 1, 0xffff, 0x2152, 0xffff, 0xffff,
      0xb7, 0xa7b9, 0xcd88, 0xffff, 6, 0, 1, 4, 0xc950, 1, 0, 0xea, 0x4f, 0x6619, 2, 3, 0x5bb4, 3, 0xffff, 0xffff,
      0xbf, 0x92, 0xed, 0xffff, 0xb587, 0xdb6e, 0xbb13, 2, 0xb6f, 1, 0xffff, 0xe1, 0xed9b, 7, 6, 0xffff, 0xc7, 0x4a,
      7, 0x4f, 7, 0x11b, 0xffff, 0x80ea, 0xffff, 3, 3, 3, 0xffff, 0x910b, 0x2875, 0xb7, 0xca8d, 0x30, 7, 0, 0xffff,
      0xea, 0x204a, 0x8003, 0xffff, 0xffff, 0xffff, 0x10, 0x54, 0xffff, 1, 3, 0xd0, 0xffff, 0x88, 0xffff, 0x200b,
      0xf8a6, 0x3fce, 0xe4d9, 0xffff, 0x4d, 0x99, 1, 5, 0x77, 0xffff, 1, 1, 0x11c, 0xffff, 2, 6, 5, 3, 0xbc, 2,
      0x694, 0xa2, 1, 0xc2e5, 3, 0xd7ff, 0xe4, 0, 0xae27, 0, 0x292, 0xc806, 3, 0x4434, 2, 0x652f, 0x52, 0xdffd,
      0x696b, 0x7a31, 0xf7, 0xed, 0xc5, 0, 0xd7, 0xf3, 0x64, 0x451a, 0, 0xb403, 2, 0xffff, 0xffff, 0x5397, 0x6e,
      0xffff, 3, 0x4c, 3, 0xef, 0x57c, 0x35, 0x1148, 2, 0xffff, 0xffff, 1, 0xb5, 0x13, 0x5f0a, 0xa569, 0xe2, 3, 6,
      0x7ee5, 0x8b, 0x9512, 5, 0xffff, 0xffff, 6, 1, 0x870a, 2, 3, 2, 0x356, 0x70, 6, 2, 0xffff, 0x95, 0xffff,
      0x3b6f, 0x6b66, 0x9601, 0, 1, 0x8439, 0xc3cd, 4, 0x8aa4, 0x61, 1, 5, 1, 0xeeb5, 1, 0xffff, 0xc7a1, 1, 0x399,
      0, 7, 0x8f, 0, 0x9e10, 0x2e, 0xffff, 0xd9, 0xffff, 0xae, 0x1588, 2, 0xf, 0x95, 0, 0xd4, 0x29, 0xffff, 0x9e3f,
      0x7c, 4, 3, 7, 0xffff, 6, 0xe1, 5, 0xc31f, 4, 4, 0x39, 0xffff, 0xd903, 0x593c, 0x60, 0xffff, 3, 3, 0xffff,
      0x17, 1, 0x2e3, 0xffff, 0xefa, 0x9500, 0xd76d, 3, 0x83, 2, 0, 0x14a, 0x67, 7, 0xffff, 0x1c, 7, 0xeefb, 0xd,
      0xf11a, 0x8c, 0xffff, 1, 1, 0xc15a, 0xffff, 0xe758, 0xdba, 0x672a, 0xea04, 2, 0xffff, 0x8b8b, 0xb3, 5, 0x9349,
      0x98f2, 0x3a2e, 0x8516, 0x8510, 0x3410, 0x2e1b, 3, 0x8c, 0x15, 5, 1, 0x7f, 0x67, 0xffff, 0xe7, 0x8e20, 0xa2,
      0xffff, 8, 0x10af, 1, 1, 1, 0x19, 0xffff, 0xbe, 4, 3, 0x27ba, 3, 0xd2c7, 0xbb0b, 0xdd9c, 0, 0xc5, 0x3dff,
      0xffff, 0x355b, 0xffff, 2, 0, 0x4a, 0x32, 1, 0, 0x1df6, 0x4b, 2, 2, 0xffff, 0x97, 1, 0, 0x848, 2, 0xffff,
      0x406, 0xb7, 0x2e, 2, 7, 0x3e, 0xf2, 6, 0xb, 3, 0xf2f, 0x778e, 0, 0xe, 3, 3, 0x92, 0xffff, 0x74, 8, 0, 0xec,
      0, 0xffff, 0x7775, 0xbfc6, 0x8f, 0xfd, 0x8e2d, 0x5014, 0xa011, 0xf4cb, 0xffff, 0xffff, 2, 0x92d, 1, 0xffff,
      0xade1, 0xffff, 0xffff, 0xffff, 1, 0xffff, 4, 0x6d4a, 0xfc25, 0x9c77, 7, 0x88, 0x71ca, 0xffff, 0x2bcc, 1, 5,
      0xe3, 0xffff, 0x1d, 0xde, 0xffff, 0xffff, 3, 3, 0xe2, 0xd, 0x73, 0, 0xa1d4, 0xffff, 0xf4, 5, 0x1fd0, 0xffff,
      0xffff, 0xb9, 0x1abb, 0xfe58, 0xffff, 7, 0xa472, 0xffff, 0x16, 0x3391, 6, 0xd2d2, 0xffff, 0xffff, 0xffff, 1,
      0x7eac, 0xffff, 0xffff, 0, 0x3d58, 1, 3, 0x4c3e, 0xa, 0xffff, 0xffff, 0xffff, 0xffff, 1, 5, 0xb2e5, 1, 3,
      0xee, 4, 6, 0x3f, 0x5d28, 0x3b76, 4, 1, 0xb0, 0x149, 7, 0xffff, 0x81ac, 0x3b, 4, 0x7a, 0xffff, 0x38, 0xbe,
      0xffff, 0x9ac9, 0xb7, 0, 0x5bb7, 0xb1, 0, 0xffff, 0, 0x9e, 0x96, 0x47, 0xffff, 0xa9], by decide +kernel⟩⟩

theorem hyps_RawRegionsPasswordsAndHatches_1 :
    (∃ p : Path, ∃ s : State, s.Settled ∧ s.pathUp p = true ∧ s.rsel ≠ 0) ∧
    (∃ p : Path, ∃ s : State, s.Settled ∧ s.pathUp p = true ∧ ¬s.unlocked p = true) ∧
    (∃ p : Path, ∃ s : State, s.Settled ∧ s.pathUp p = true ∧ s.rsel = 1 ∧ ¬s.rawOpen p s.rsel = true) ∧
    (∃ p : Path, ∃ s : State, s.Settled ∧ s.pathUp p = true ∧ ∃ v : Word, s.keep.pwLock = false ∧ ((if ((s.path
      p).pwWords ++ [v]).length = 8 then List.drop 4 ((s.path p).pwWords ++ [v]) else (s.path p).pwWords ++
      [v]).length ≠ 4 ∨ s.rawOpen p s.rsel = true)) ∧
    (∃ p : Path, ∃ s : State, s.Settled ∧ s.pathUp p = true ∧ s.fld F.HAT_SEL_HC < 42) ∧
    (∃ p : Path, ∃ s : State, s.Settled ∧ s.pathUp p = true ∧ s.rsel = 0 ∧ s.rawOpen p s.rsel = true ∧ s.vlt.usrBuf
      = []) ∧
    (∃ p : Path, ∃ s : State, s.Settled ∧ s.pathUp p = true ∧ s.rsel ≠ 1) ∧
    (∃ p : Path, ∃ s : State, s.Settled ∧ s.pathUp p = true ∧ ∃ v : Word, s.keep.pwLock = true) :=
  ⟨
    ⟨.remote, { regs := [(R.VLT_RSEL, 1)], pwr := { boot := 5 } }, rfl, by decide +kernel⟩,
    ⟨.remote, { pwr := { boot := 5 } }, rfl, by decide +kernel⟩,
    ⟨.remote, { regs := [(R.VLT_RSEL, 1)], pwr := { boot := 5 }, vlt := { pw := [0, 1] } }, rfl, by decide +kernel⟩,
    ⟨.remote, { pwr := { boot := 5 } }, rfl, by decide +kernel, 0x12b, by decide +kernel⟩,
    ⟨.remote, { pwr := { boot := 5 } }, rfl, by decide +kernel⟩,
    ⟨.host, { pwr := { boot := 5 } }, rfl, by decide +kernel⟩,
    ⟨.host, { pwr := { boot := 5 } }, rfl, by decide +kernel⟩,
    ⟨.host, { keep := { pwLock := true }, pwr := { boot := 5 } }, rfl, by decide +kernel, 0xad, by decide +kernel⟩⟩

theorem hyps_RawRegionsPasswordsAndHatches_2 :
    (∃ p : Path, ∃ s : State, s.Settled ∧ s.pathUp p = true ∧ s.unlocked p = true ∧ s.rsel = 0 ∧ s.rawOpen p s.rsel
      = true ∧ BitVec.toNat (s.reg R.VLT_RADDR) < 32768 ∧ s.vRoom 2 = true) ∧
    (∃ p : Path, ∃ s : State, s.Settled ∧ s.pathUp p = true ∧ s.unlocked p = true ∧ s.rawOpen p s.rsel = true ∧
      (s.path p).pwWords.length < 4) ∧
    (∃ p : Path, ∃ s : State, s.Settled ∧ s.pathUp p = true ∧ 42 ≤ s.fld F.HAT_SEL_HC) ∧
    (∃ p : Path, ∃ s : State, s.Settled ∧ s.pathUp p = true ∧ s.rsel = 0 ∧ ¬s.rawOpen p s.rsel = true) ∧
    (∃ p : Path, ∃ s : State, s.Settled ∧ s.pathUp p = true ∧ s.unlocked p = true ∧ s.rsel ≠ 0) ∧
    (∃ p : Path, ∃ s : State, s.Settled ∧ s.pathUp p = true ∧ s.rsel = 1 ∧ s.rawOpen p s.rsel = true ∧ legBusy
      s.vlt.buf = false ∧ s.vRoom 1020 = true) ∧
    (∃ p : Path, ∃ s : State, s.Settled ∧ s.pathUp p = true ∧ s.rsel = 0 ∧ s.rawOpen p s.rsel = true ∧ s.vlt.usrBuf
      ≠ [] ∧ s.vRoom 128 = true) ∧
    (∃ p : Path, ∃ s : State, s.Settled ∧ s.pathUp p = true ∧ s.unlocked p = true ∧ s.rsel = 0 ∧ ¬s.rawOpen p s.rsel
      = true) :=
  ⟨
    ⟨.host, { host := { opened := true }, pwr := { boot := 5 } }, rfl, by decide +kernel⟩,
    ⟨.host, { host := { opened := true }, pwr := { boot := 5 } }, rfl, by decide +kernel⟩,
    ⟨.remote, { regs := [(R.HAT_SEL, 0x2c)], pwr := { boot := 5 } }, rfl, by decide +kernel⟩,
    ⟨.remote, { pwr := { boot := 5 }, vlt := { pw := [1] } }, rfl, by decide +kernel⟩,
    ⟨.host, { regs := [(R.VLT_RSEL, 1)], host := { opened := true }, pwr := { boot := 5 } }, rfl, by decide +kernel⟩,
    ⟨.host, { regs := [(R.VLT_RSEL, 1)], pwr := { boot := 5 } }, rfl, by decide +kernel⟩,
    ⟨.remote, { remote := { regOpen := [0] }, pwr := { boot := 5 }, vlt := { usrBuf := [(0, 0)] } }, rfl,
      by decide +kernel⟩,
    ⟨.remote, { remote := { opened := true }, pwr := { boot := 5 }, vlt := { pw := [1] } }, rfl, by decide +kernel⟩⟩

theorem hyps_RawRegionsPasswordsAndHatches_3 :
    (∃ p : Path, ∃ s : State, s.Settled ∧ s.pathUp p = true ∧ s.unlocked p = true ∧ ¬s.rawOpen p s.rsel = true) ∧
    (∃ p : Path, ∃ s : State, s.Settled ∧ s.pathUp p = true ∧ ∃ v : Word, s.keep.pwLock = false ∧ (if ((s.path
      p).pwWords ++ [v]).length = 8 then List.drop 4 ((s.path p).pwWords ++ [v]) else (s.path p).pwWords ++
      [v]).length = 4 ∧ ¬s.rawOpen p s.rsel = true ∧ pwOf (if ((s.path p).pwWords ++ [v]).length = 8 then List.drop
      4 ((s.path p).pwWords ++ [v]) else (s.path p).pwWords ++ [v]) ≠ s.vlt.pw.getD s.rsel 0) ∧
    (∃ p : Path, ∃ s : State, s.Settled ∧ s.pathUp p = true ∧ s.unlocked p = true ∧ s.rsel = 0 ∧ s.rawOpen p s.rsel
      = true ∧ 32768 ≤ BitVec.toNat (s.reg R.VLT_RADDR)) ∧
    (∃ p : Path, ∃ s : State, s.Settled ∧ s.pathUp p = true ∧ s.rsel = 0 ∧ s.rawOpen p s.rsel = true ∧ s.vlt.usrBuf
      ≠ [] ∧ s.vRoom 128 = false) ∧
    (∃ p : Path, ∃ s : State, s.Settled ∧ s.pathUp p = true ∧ s.unlocked p = true ∧ s.rsel = 0 ∧ s.rawOpen p s.rsel
      = true ∧ BitVec.toNat (s.reg R.VLT_RADDR) < 32768 ∧ s.vRoom 2 = false) ∧
    (∃ p : Path, ∃ s : State, s.Settled ∧ s.pathUp p = true ∧ s.rsel = 1 ∧ s.rawOpen p s.rsel = true ∧ (legBusy
      s.vlt.buf = true ∨ s.vRoom 1020 = false)) :=
  ⟨
    ⟨.remote, { remote := { opened := true }, pwr := { boot := 5 }, vlt := { pw := [1] } }, rfl, by decide +kernel⟩,
    ⟨.host, { host := { pwWords := [0, 0, 0] }, pwr := { boot := 5 }, vlt := { pw := [1] } }, rfl,
      by decide +kernel, 3, by decide +kernel⟩,
    ⟨.host, { regs := [(R.VLT_RADDR, 0x8000)], host := { opened := true }, pwr := { boot := 5 } }, rfl,
      by decide +kernel⟩,
    ⟨.remote, { pwr := { boot := 5, loss := 2 }, vlt := { usrBuf := [(0, 0)] } }, rfl, by decide +kernel⟩,
    ⟨.remote, { remote := { opened := true }, pwr := { boot := 5, loss := 2 } }, rfl, by decide +kernel⟩,
    ⟨.host, { regs := [(R.VLT_RSEL, 1)], pwr := { boot := 5, loss := 2 } }, rfl, by decide +kernel⟩⟩

theorem hyps_SecurityCommandsAnswer_1 :
    (∃ s : State, s.Settled ∧ ∃ v : Word, s.pathUp Path.remote = true) ∧
    (∃ s : State, s.Settled ∧ ∃ c : Nat, s.sec.burn = some c) ∧
    (∃ s : State, s.Settled ∧ s.sec.tests ≠ 0) ∧
    (∃ s : State, s.Settled ∧ s.coreOn = true) ∧
    (∃ s : State, s.Settled ∧ ∃ p : Path, ∃ v : Word, s.pathUp p = true ∧ s.unlocked p = true ∧ s.secBusy = false ∧
      s.vRoom 10 = true) ∧
    (∃ s : State, s.Settled ∧ ∃ p : Path, ∃ v : Word, s.pathUp p = true ∧ s.unlocked p = true ∧ s.secBusy = false ∧
      s.sec.life ≠ 0 ∧ s.sec.failed = false) ∧
    (∃ s : State, s.Settled ∧ ∃ p : Path, ∃ v : Word, s.pathUp p = true ∧ s.unlocked p = true ∧ s.secBusy = false ∧
      s.sec.tests ≠ 0) ∧
    (∃ s : State, s.Settled ∧ ∃ p : Path, ∃ v : Word, s.pathUp p = true ∧ s.unlocked p = true ∧ s.secBusy = false ∧
      s.vRoom 2 = true) :=
  ⟨
    ⟨{ pwr := { boot := 5 } }, rfl, 0xffff, by decide +kernel⟩,
    ⟨{ sec := { burn := (some 0) } }, rfl, 0, by decide +kernel⟩,
    ⟨{ sec := { tests := 1 } }, rfl, by decide +kernel⟩,
    ⟨{ pwr := { boot := 2 } }, rfl, by decide +kernel⟩,
    ⟨{ remote := { opened := true }, pwr := { boot := 5 } }, rfl, .remote, 0x12b, by decide +kernel⟩,
    ⟨{ remote := { opened := true }, pwr := { boot := 5 } }, rfl, .remote, 0x12b, by decide +kernel⟩,
    ⟨{ remote := { opened := true }, pwr := { boot := 5 }, sec := { tests := 1 } }, rfl, .remote, 0x12b,
      by decide +kernel⟩,
    ⟨{ remote := { opened := true }, pwr := { boot := 5 } }, rfl, .remote, 0x12b, by decide +kernel⟩⟩

theorem hyps_SecurityCommandsAnswer_2 :
    (∃ s : State, s.Settled ∧ s.sec.burn = none) ∧
    (∃ s : State, s.Settled ∧ s.sec.tests = 0) ∧
    (∃ s : State, s.Settled ∧ ∃ p : Path, ∃ v : Word, s.pathUp p = true ∧ s.unlocked p = true ∧ s.secBusy = false ∧
      p = Path.host ∧ s.sec.life ≠ 1) ∧
    (∃ s : State, s.Settled ∧ ∃ p : Path, ∃ v : Word, s.pathUp p = true ∧ s.unlocked p = true ∧ s.secBusy = false ∧
      p = Path.host ∧ getBits v 15 8 ≠ 167) ∧
    (∃ s : State, s.Settled ∧ ∃ p : Path, ∃ v : Word, s.pathUp p = true ∧ s.unlocked p = false ∧ p = Path.host) ∧
    (∃ s : State, s.Settled ∧ s.coreOn = false) ∧
    (∃ s : State, s.Settled ∧ ∃ p : Path, ∃ v : Word, s.pathUp p = true ∧ s.unlocked p = true ∧ s.secBusy = false ∧
      s.sec.tests = 0) ∧
    (∃ s : State, s.Settled ∧ ∃ p : Path, ∃ v : Word, s.pathUp p = true ∧ s.unlocked p = true ∧ s.secBusy = false ∧
      p = Path.host ∧ s.sec.life = 1 ∧ ¬(keyFits (kidClass (s.fld F.SEC_KID_KID)) s.sec.kdata = true ∧ Option.any
      (fun x => x != s.fld F.SEC_SLOT_SEL_SLOT) (s.slotOf (s.fld F.SEC_KID_KID)) = false)) :=
  ⟨
    atRest (by decide +kernel),
    atRest (by decide +kernel),
    ⟨{ host := { opened := true }, pwr := { boot := 5 }, sec := { life := 0 } }, rfl, .host, 4, by decide +kernel⟩,
    ⟨{ host := { opened := true }, pwr := { boot := 5 } }, rfl, .host, 4, by decide +kernel⟩,
    ⟨{ pwr := { boot := 5 } }, rfl, .host, 0xa5a5, by decide +kernel⟩,
    atRest (by decide +kernel),
    ⟨{ remote := { opened := true }, pwr := { boot := 5 } }, rfl, .remote, 0x5ea1, by decide +kernel⟩,
    ⟨{ host := { opened := true }, pwr := { boot := 5 } }, rfl, .host, 0xffff, by decide +kernel⟩⟩

theorem hyps_SecurityCommandsAnswer_3 :
    (∃ s : State, s.Settled ∧ ∃ p : Path, ∃ v : Word, s.pathUp p = true ∧ s.unlocked p = true ∧ s.secBusy = false ∧
      s.vRoom 10 = false) ∧
    (∃ s : State, s.Settled ∧ ∃ p : Path, ∃ v : Word, s.pathUp p = true ∧ s.unlocked p = true ∧ s.secBusy = false ∧
      s.vRoom 2 = false) ∧
    (∃ s : State, s.Settled ∧ ∃ p : Path, ∃ v : Word, s.pathUp p = true ∧ s.unlocked p = true ∧ s.secBusy = true ∧ p
      = Path.host) ∧
    (∃ s : State, s.Settled ∧ ∃ p : Path, ∃ v : Word, s.pathUp p = true ∧ s.unlocked p = true ∧ s.secBusy = false ∧
      (s.sec.life = 0 ∨ s.sec.failed = true)) :=
  ⟨
    ⟨{ host := { opened := true }, pwr := { boot := 5, loss := 2 } }, rfl, .host, 0x12c, by decide +kernel⟩,
    ⟨{ host := { opened := true }, pwr := { boot := 5, loss := 2 } }, rfl, .host, 0x12c, by decide +kernel⟩,
    ⟨{ host := { opened := true }, pwr := { boot := 5 }, sec := { cmdRun := true } }, rfl, .host, 0xa5a5,
      by decide +kernel⟩,
    ⟨{ host := { opened := true }, pwr := { boot := 5 }, sec := { life := 0 } }, rfl, .host, 0xc3,
      by decide +kernel⟩⟩

theorem hyps_RecordsAreTakenSealedAndPosted :
    (∃ s : State, s.Settled ∧ (s.q6 = [] ∨ ¬(s.recRuns = true ∧ s.vlt.blank (slotAddr (s.fld F.LOG_HEAD_SLOT)) 16 =
      true))) ∧
    (∃ s : State, s.Settled ∧ ∃ p : Path, ∃ v : Word, s.pathUp p = true ∧ ¬(s.unlocked p = true ∧ v = 24225 ∧
      s.vlt.sealing = false)) ∧
    (∃ s : State, s.Settled ∧ ∃ p : Path, ∃ v : Word, s.pathUp p = true ∧ s.q6.length < 64) ∧
    (∃ s : State, s.Settled ∧ ∃ p : Path, ∃ v : Word, s.pathUp p = true ∧ 64 ≤ s.q6.length) ∧
    (∃ s : State, s.Settled ∧ ∃ x : EvRec, ∃ l : List EvRec, s.q6 = x :: l ∧ (s.recRuns = true ∧ s.vlt.blank
      (slotAddr (s.fld F.LOG_HEAD_SLOT)) 16 = true)) ∧
    (∃ s : State, s.Settled ∧ ∃ p : Path, ∃ v : Word, s.pathUp p = true ∧ (s.unlocked p = true ∧ v = 24225 ∧
      s.vlt.sealing = false)) :=
  ⟨
    atRest (by decide +kernel),
    ⟨{ pwr := { boot := 5 } }, rfl, .remote, 0x64, by decide +kernel⟩,
    ⟨{ pwr := { boot := 5 } }, rfl, .remote, 0x64, by decide +kernel⟩,
    ⟨{ q6 := (List.replicate 64 {}), pwr := { boot := 5 } }, rfl, .remote, 0x5a5a, by decide +kernel⟩,
    ⟨{ q6 := [{}], vlt := { recUp := true } }, rfl, {}, [], by decide +kernel⟩,
    ⟨{ remote := { opened := true }, pwr := { boot := 5 } }, rfl, .remote, 0x5ea1, by decide +kernel⟩⟩

theorem hyps_CommandsCompleteWithTheirOwnEffect_p0 :
    (∃ s : State, s.Settled ∧ s.Shape ∧ ∃ p : Path, s.pathUp p = true ∧ s.unlocked p = true) ∧
    (∃ s : State, s.Settled ∧ s.Shape ∧ ∃ p : Path, s.pathUp p = true ∧ ∃ v : Word, s.unlocked p = true ∧ s.fld
      F.MAC_ROLE_ROLE ≠ BitVec.toNat v % 4) ∧
    (∃ s : State, s.Settled ∧ s.Shape ∧ ∃ p : Path, s.pathUp p = true ∧ ∃ v : Word, p = Path.host ∧ s.fld
      F.MAC_RSEL_RING = 5) ∧
    (∃ s : State, s.Settled ∧ s.Shape ∧ ∃ p : Path, s.pathUp p = true ∧ (s.path p).armed = true) ∧
    (∃ s : State, s.Settled ∧ s.Shape ∧ ∃ p : Path, s.pathUp p = true ∧ ∃ v : Word, p = Path.host ∧ s.fld
      F.MAC_RSEL_RING = 4 ∧ ∃ e : Ent, ∃ l : List Ent, s.mac.q4 = e :: l) ∧
    (∃ s : State, s.Settled ∧ s.Shape ∧ ∃ p : Path, s.pathUp p = true ∧ ∃ v : Word, softKey v = true) :=
  ⟨
    ⟨{ host := { opened := true }, pwr := { boot := 5 } }, rfl, shaped _ (by decide +kernel), .host,
      by decide +kernel⟩,
    ⟨{ host := { opened := true }, pwr := { boot := 5 } }, rfl, shaped _ (by decide +kernel), .host,
      by decide +kernel, 0xffff, by decide +kernel⟩,
    ⟨{ regs := [(R.MAC_RSEL, 5)], pwr := { boot := 5 } }, rfl, shaped _ (by decide +kernel), .host,
      by decide +kernel, 0x97, by decide +kernel⟩,
    ⟨{ remote := { armed := true }, pwr := { boot := 5 } }, rfl, shaped _ (by decide +kernel), .remote,
      by decide +kernel⟩,
    ⟨{ regs := [(R.MAC_RSEL, 4)], pwr := { boot := 5 }, mac := { q4 := [{}] } }, rfl, shaped _ (by decide +kernel),
      .host, by decide +kernel, 0x12c, by decide +kernel, by decide +kernel, {}, [], by decide +kernel⟩,
    ⟨{ pwr := { boot := 5 } }, rfl, shaped _ (by decide +kernel), .remote, by decide +kernel, 0xc52f,
      by decide +kernel⟩⟩

theorem hyps_CommandsCompleteWithTheirOwnEffect_p1 :
    (∃ s : State, s.Settled ∧ s.Shape ∧ ∃ src : Byte, 4 ≤ s.pwr.boot ∧ s.pwr.rstLow = false ∧ fabricSource
      (BitVec.toNat src) = true ∧ ∃ e : Nat × Nat, List.find? (fun x => x.fst == BitVec.toNat src) s.fabric = some
      e) ∧
    (∃ s : State, s.Settled ∧ s.Shape ∧ ∃ n : Fin 8, s.gtu.length = 8) ∧
    (∃ s : State, s.Settled ∧ s.Shape ∧ s.coreOn = true ∧ s.hwdArmed = true) ∧
    (∃ s : State, s.Settled ∧ s.Shape ∧ s.coreOn = true ∧ s.benchTimed = false) ∧
    (∃ s : State, s.Settled ∧ s.Shape ∧ s.coreOn = true ∧ s.phrefDue = true) ∧
    (∃ s : State, s.Settled ∧ s.Shape ∧ s.awaitsGo = true) :=
  ⟨
    ⟨{ fabric := [(19, 0)], pwr := { boot := 5 } }, rfl, shaped _ (by decide +kernel), 0x13, by decide +kernel,
      by decide +kernel, by decide +kernel, (19, 0), by decide +kernel⟩,
    ⟨{}, rfl, shaped _ (by decide +kernel), 6, by decide +kernel⟩,
    ⟨{ regs := [(R.SYS_MODE, 8)], pwr := { boot := 2 } }, rfl, shaped _ (by decide +kernel), by decide +kernel⟩,
    ⟨{ pwr := { boot := 2 } }, rfl, shaped _ (by decide +kernel), by decide +kernel⟩,
    ⟨{ tim := { now := 0x21b36aace200000000000 }, pwr := { boot := 2 } }, rfl, shaped _ (by decide +kernel),
      by decide +kernel⟩,
    ⟨{ regs := [(R.SYS_MODE, 0x10)], pwr := { boot := 2 } }, rfl, shaped _ (by decide +kernel), by decide +kernel⟩⟩

theorem hyps_CommandsCompleteWithTheirOwnEffect_p2 :
    (∃ s : State, s.Settled ∧ s.Shape ∧ 6 ≤ s.pwr.boot ∧ s.pwr.loss ≤ 1 ∧ s.pwr.rstLow = false ∧ (s.holdActive &&
      s.flag F.HOLD_CTL_FDE) = false ∧ s.fld F.SYS_MODE_STATE ≠ 0) ∧
    (∃ s : State, s.Settled ∧ s.Shape ∧ s.keep.taps ≠ 0 ∧ s.keep.off = false ∧ s.pwr.boot ≠ 0 ∧ s.keep.lastRet + 2 *
      2 ^ 48 ≤ s.keep.elapsed) ∧
    (∃ s : State, s.Settled ∧ s.Shape ∧ s.flag F.FDE_STAT_TVALID = true ∧ s.tim.jump = false ∧ s.fde.replay = false
      ∧ ∃ m : Int, s.fde.minute = some m ∧ m < s.localMinute) ∧
    (∃ s : State, s.Settled ∧ s.Shape ∧ s.fld F.FDE_LOSS_LOSST ≠ 0 ∧ s.isHead = false ∧ s.fld F.FDE_LOSS_LOSST ≤
      BitVec.toNat (s.reg R.MAC_BSINCE) ∧ s.flag F.FDE_STAT_LOSS = false) ∧
    (∃ s : State, s.Settled ∧ s.Shape ∧ ∃ l : Fin 8, ∃ k : Fin 8, ∃ x : Slot, (s.flamp ↑l).slot ↑k = some x ∧
      x.holdOver = true) ∧
    (∃ s : State, s.Settled ∧ s.Shape ∧ ∃ l : Fin 8, ∃ x : Slot, (s.flamp ↑l).slot 6 = some x ∧ s.gesExpired x.wrote
      = true) :=
  ⟨
    ⟨{ regs := [(R.SYS_MODE, 1)], pwr := { boot := 7 } }, rfl, shaped _ (by decide +kernel), by decide +kernel⟩,
    ⟨{ keep := { elapsed := 0x5641893835fc4, taps := 1 }, pwr := { boot := 1 } }, rfl, shaped _ (by decide +kernel),
      by decide +kernel⟩,
    ⟨{ regs := [(R.FDE_STAT, 0x80)], tim := { now := 0x290cc16b5e80000000000 }, fde := { minute := (some 0) } },
      rfl, shaped _ (by decide +kernel), by decide +kernel, by decide +kernel, by decide +kernel, 0,
      by decide +kernel⟩,
    ⟨{ regs := [(R.FDE_LOSS, 0x8000), (R.MAC_BSINCE, 0x8000)] }, rfl, shaped _ (by decide +kernel),
      by decide +kernel⟩,
    ⟨{ fde := { lamps := (((List.replicate 8 ({} : FLamp)).set 6 { slots := [none, none, none, (some { age := 5, hold := 1 })] })) } },
      rfl, shaped _ (by decide +kernel), 6, 3, { age := 5, hold := 1 }, by decide +kernel⟩,
    ⟨{ regs := [(R.FDE_GES, 0x100)], keep := { elapsed := 0x5a71eb852dac84 }, fde := { lamps := (((List.replicate 8 ({} : FLamp)).set 4 { slots := (List.replicate 6 none ++ [(some {})]) })) } },
      rfl, shaped _ (by decide +kernel), 4, {}, by decide +kernel⟩⟩

theorem hyps_CommandsCompleteWithTheirOwnEffect_p3_1 :
    (∃ s : State, s.Settled ∧ s.Shape ∧ ∃ n : Fin 16, ∃ v : Word, (s.chan ↑n).lg = false ∧ (s.chan ↑n).lgLow = none
      ∧ s.reach (↑n) (BitVec.toNat v) = true) ∧
    (∃ s : State, s.Settled ∧ s.Shape ∧ ∃ n : Fin 16, ∃ v : Word, s.coreOn = true) ∧
    (∃ s : State, s.Settled ∧ s.Shape ∧ ∃ n : Fin 16, ∃ v : Word, s.lat ↑n = 0 ∧ (s.chan ↑n).run = true) ∧
    (∃ s : State, s.Settled ∧ s.Shape ∧ ∃ n : Fin 16, ∃ v : Word, ∃ x : Nat × Nat, (s.chan ↑n).fNew = some x ∧
      s.flag (F.PWM_FORCE_FORCE_AT.at ↑n) = false) ∧
    (∃ s : State, s.Settled ∧ s.Shape ∧ ∃ n : Fin 16, ∃ v : Word, (s.ocAt ↑n).isSome = true) ∧
    (∃ s : State, s.Settled ∧ s.Shape ∧ ∃ n : Fin 16, ∃ v : Word, (s.chan ↑n).frozen = true ∧ s.flag
      (F.PWM_STAT_HOLDSAFE.at ↑n) = false) ∧
    (∃ s : State, s.Settled ∧ s.Shape ∧ ∃ n : Fin 16, ∃ v : Word, ∃ volt : Bool, ∃ x : Capture, List.find? (fun y =>
      y.ch == ↑n && y.volt == volt) s.hlt.waiting = some x) ∧
    (∃ s : State, s.Settled ∧ s.Shape ∧ ∃ n : Fin 16, ∃ v : Word, ∃ r : ProofRun, (s.hchan ↑n).run = some r ∧ r.slot
      = none ∧ r.plan = []) :=
  ⟨
    ⟨{ pwm := { chans := (((List.replicate 16 ({} : Chan)).set 14 { run := true, cmpa := 301, cmpb := 300, lgLow := none })) } },
      rfl, shaped _ (by decide +kernel), 14, 0x66, by decide +kernel⟩,
    ⟨{ pwr := { boot := 2 } }, rfl, shaped _ (by decide +kernel), 14, 0x66, by decide +kernel⟩,
    ⟨{ pwm := { chans := (((List.replicate 16 ({} : Chan)).set 14 { run := true })) } }, rfl, shaped _
      (by decide +kernel), 14, 0x66, by decide +kernel⟩,
    ⟨{ pwm := { chans := (((List.replicate 16 ({} : Chan)).set 12 { fNew := (some (0, 0)) })) } }, rfl, shaped _
      (by decide +kernel), 12, 0x14dd, (0, 0), by decide +kernel⟩,
    ⟨{ pwm := { chans := (((List.replicate 16 ({} : Chan)).set 5 { run := true, armed := true })) } }, rfl, shaped _
      (by decide +kernel), 5, 3, by decide +kernel⟩,
    ⟨{ pwm := { chans := (((List.replicate 16 ({} : Chan)).set 3 { frozen := true })) } }, rfl, shaped _
      (by decide +kernel), 3, 0xffff, by decide +kernel⟩,
    ⟨{ hlt := { waiting := [{}] } }, rfl, shaped _ (by decide +kernel), 0, 0xffff, false, {}, by decide +kernel⟩,
    ⟨{ hlt := { chans := (((List.replicate 16 ({} : HChan)).set 0 { run := (some { plan := [] }) })) } }, rfl,
      shaped _ (by decide +kernel), 0, 0xdc, { plan := [] }, by decide +kernel⟩⟩

theorem hyps_CommandsCompleteWithTheirOwnEffect_p3_2 :
    (∃ s : State, s.Settled ∧ s.Shape ∧ ∃ n : Fin 16, ∃ v : Word, ∃ w : Nat, (s.chan ↑n).midOn = some w ∧ s.ticking
      ↑n = true ∧ s.reach (↑n) w = true) ∧
    (∃ s : State, s.Settled ∧ s.Shape ∧ ∃ n : Fin 16, ∃ v : Word, ∃ b : Bool, s.timed ↑n = true ∧ s.reach (↑n) (max
      (s.chan ↑n).cnt ((s.chan ↑n).lgOn + ↑(s.fld (F.PWM_BRN_BRN_W.at ↑n))).toNat) = true ∧ (s.chan ↑n).burn = true
      ∧ (s.chan ↑n).lg = true ∧ (s.chan ↑n).rose = false ∧ (s.chan ↑n).fLg ≠ 2) ∧
    (∃ s : State, s.Settled ∧ s.Shape ∧ ∃ n : Fin 16, ∃ v : Word, (s.timed ↑n && s.reach (↑n) (BitVec.toNat v)) =
      true ∧ s.flag (F.PWM_CTL_ZCD.at ↑n) = true ∧ (s.chan ↑n).lg = true ∧ ((s.chan ↑n).burn && !(s.chan ↑n).rose) =
      false ∧ (s.chan ↑n).fLg ≠ 2) ∧
    (∃ s : State, s.Settled ∧ s.Shape ∧ ∃ n : Fin 16, ∃ v : Word, (s.timed ↑n && s.reach (↑n) (BitVec.toNat v)) =
      true ∧ (s.chan ↑n).lgDue = true ∧ (s.chan ↑n).zcd = false) ∧
    (∃ s : State, s.Settled ∧ s.Shape ∧ ∃ n : Fin 16, ∃ v : Word, (s.timed ↑n && s.reach (↑n) (BitVec.toNat v)) =
      true ∧ (s.chan ↑n).lgDue = true ∧ (s.chan ↑n).zcd = false ∧ BitVec.toNat v = max (s.chan ↑n).cnt ((s.chan
      ↑n).hgOff + ↑(s.fld (F.PWM_DT_DTMAX.at ↑n))).toNat) ∧
    (∃ s : State, s.Settled ∧ s.Shape ∧ ∃ n : Fin 16, ∃ v : Word, ∃ r : ProofRun, (s.hchan ↑n).run = some r ∧ ∃ q :
      Nat, ∃ l : List Nat, r.slot = none ∧ r.plan = q :: l ∧ s.holdActive = false) ∧
    (∃ s : State, s.Settled ∧ s.Shape ∧ ∃ n : Fin 16, ∃ v : Word, ∃ a : Int, (s.chan ↑n).hgAt = some a ∧ (s.timed ↑n
      && s.reach (↑n) (BitVec.toNat v)) = true ∧ (s.chan ↑n).hgDue = true ∧ BitVec.toNat v = max (s.chan ↑n).cnt
      a.toNat ∧ ((s.chan ↑n).fHg = 2 ∨ BitVec.toNat v < (s.chan ↑n).cmpa)) ∧
    (∃ s : State, s.Settled ∧ s.Shape ∧ ∃ n : Fin 16, ∃ v : Word, (s.timed ↑n && s.reach (↑n) (BitVec.toNat v)) =
      true ∧ (s.chan ↑n).hg = true ∧ (s.chan ↑n).fHg ≠ 2 ∧ s.flag (F.PWM_CTL_MODE.at ↑n) = false ∧ (s.chan
      ↑n).unblanked (BitVec.toNat v) = true ∧ ((s.chan ↑n).burn = true ∨ (s.chan ↑n).cmpb < (s.chan ↑n).cmpa)) :=
  ⟨
    ⟨{ pwm := { chans := (((List.replicate 16 ({} : Chan)).set 13 { run := true, aHit := true, cmpb := 110, rose := true, tPrev := (some 0) })) } },
      rfl, shaped _ (by decide +kernel), 13, 0x10, 0, by decide +kernel⟩,
    ⟨{ regs := [(R.SYS_MODE, 1), (R.PWR_STAT, 0x4000), (R.PWM_ENA, 2)], pwr := { boot := 5 }, pwm := { chans := (((List.replicate 16 ({} : Chan)).set 1 { run := true, cmpa := 150, cmpb := 300, lg := true, burn := true })) } },
      rfl, shaped _ (by decide +kernel), 1, 0xffff, true, by decide +kernel⟩,
    ⟨{ regs := [(R.SYS_MODE, 1), (R.PWR_STAT, 0x4000), (R.PWM_ENA, 0x10)], pwr := { boot := 5 }, pwm := { chans := (((List.replicate 16 ({} : Chan)).set 4 { run := true, lg := true, rose := true })) } },
      rfl, shaped _ (by decide +kernel), 4, 0, by decide +kernel⟩,
    ⟨{ regs := [(R.SYS_MODE, 1), (R.PWR_STAT, 0x4000), (R.PWM_ENA, 0x80)], pwr := { boot := 5 }, pwm := { chans := (((List.replicate 16 ({} : Chan)).set 7 { run := true, bHit := true, cmpa := 300, lgDue := true, hgOff := 100 })) } },
      rfl, shaped _ (by decide +kernel), 7, 0x66, by decide +kernel⟩,
    ⟨{ regs := [(R.SYS_MODE, 1), (R.PWR_STAT, 0x4000), (R.PWM_ENA, 0x80), (R.PWM_DT + 7, 0)], pwr := { boot := 5 }, pwm := { chans := (((List.replicate 16 ({} : Chan)).set 7 { run := true, cnt := 102, lgDue := true })) } },
      rfl, shaped _ (by decide +kernel), 7, 0x66, by decide +kernel⟩,
    ⟨{ hlt := { chans := (((List.replicate 16 ({} : HChan)).set 3 { run := (some { plan := [2] }) })) } }, rfl,
      shaped _ (by decide +kernel), 3, 0x12b, { plan := [2] }, by decide +kernel, 2, [], by decide +kernel⟩,
    ⟨{ regs := [(R.SYS_MODE, 1), (R.PWR_STAT, 0x4000), (R.PWM_ENA, 0x80)], pwr := { boot := 5 }, pwm := { chans := (((List.replicate 16 ({} : Chan)).set 7 { run := true, cnt := 204, cmpa := 299, hgDue := true, hgAt := (some 0) })) } },
      rfl, shaped _ (by decide +kernel), 7, 0xcc, 0, by decide +kernel⟩,
    ⟨{ regs := [(R.SYS_MODE, 1), (R.PWR_STAT, 0x4000), (R.PWM_ENA, 0x800)], pwr := { boot := 5 }, pwm := { chans := (((List.replicate 16 ({} : Chan)).set 11 { run := true, bHit := true, cmpa := 301, hg := true, armed := true })) } },
      rfl, shaped _ (by decide +kernel), 11, 0xf8, by decide +kernel⟩⟩

theorem hyps_CommandsCompleteWithTheirOwnEffect_p4_1 :
    (∃ s : State, s.Settled ∧ s.Shape ∧ ∃ g : Fin 9, s.litRun = true ∧ s.phaseUpdate.dimDueNow ↑g = true ∧
      s.phaseUpdate.dimPass ↑g = false) ∧
    (∃ s : State, s.Settled ∧ s.Shape ∧ s.hltOn = true) ∧
    (∃ s : State, s.Settled ∧ s.Shape ∧ ∃ us : Nat, 4 ≤ s.pwr.boot) ∧
    (∃ s : State, s.Settled ∧ s.Shape ∧ s.phy.zcEdge + 60 * s.phy.nc ≤ s.cyc) ∧
    (∃ s : State, s.Settled ∧ s.Shape ∧ 4 ≤ s.pwr.boot ∧ s.phyOn = true ∧ s.mac.benchDue = true) ∧
    (∃ s : State, s.Settled ∧ s.Shape ∧ s.flag F.MAC_STAT_BVALID = true ∧ (if s.fld F.MAC_PARENT_PTIER = 0 then 16
      else 64) < s.fld F.MAC_BSINCE_N) ∧
    (∃ s : State, s.Settled ∧ s.Shape ∧ ∃ pre : BitVec 24, s.phyOn = true ∧ s.courseNext ≤ s.cyc) ∧
    (∃ s : State, s.Settled ∧ s.Shape ∧ ∃ hdr : BitVec 40, s.phyOn = true ∧ s.transmitting = false ∧ headerCrc
      hdr.toNat ≠ hdr.toNat % 256) :=
  ⟨
    ⟨{ regs := [(R.SYS_MODE, 1)], pwr := { boot := 5 } }, rfl, shaped _ (by decide +kernel), 1, by decide +kernel⟩,
    ⟨{ pwr := { boot := 5 } }, rfl, shaped _ (by decide +kernel), by decide +kernel⟩,
    ⟨{ pwr := { boot := 5 } }, rfl, shaped _ (by decide +kernel), 15, by decide +kernel⟩,
    ⟨{ cyc := 0x989765 }, rfl, shaped _ (by decide +kernel), by decide +kernel⟩,
    ⟨{ regs := [(R.SYS_MODE, 1), (R.CLK_STAT, 0x8000)], pwr := { boot := 5 }, mac := { benchDue := true } }, rfl,
      shaped _ (by decide +kernel), by decide +kernel⟩,
    ⟨{ regs := [(R.MAC_STAT, 0x2000), (R.MAC_BSINCE, 0x8000)] }, rfl, shaped _ (by decide +kernel),
      by decide +kernel⟩,
    ⟨{ regs := [(R.SYS_MODE, 1), (R.CLK_STAT, 0x8000)], pwr := { boot := 5 }, cyc := 0xe8d53e9944 }, rfl, shaped _
      (by decide +kernel), 0, by decide +kernel⟩,
    ⟨{ regs := [(R.SYS_MODE, 1), (R.CLK_STAT, 0x8000)], pwr := { boot := 5 } }, rfl, shaped _ (by decide +kernel),
      0x810163cc05, by decide +kernel⟩⟩

theorem hyps_CommandsCompleteWithTheirOwnEffect_p4_2 :
    (∃ s : State, s.Settled ∧ s.Shape ∧ ∃ k : Fin 4, s.pwmClk = true ∧ s.bit (R.PWM_TRIPSRC0 + 64 * ↑k) 15 = true ∧
      s.tripBlanked ↑k = false) ∧
    (∃ s : State, s.Settled ∧ s.Shape ∧ s.flag F.HLT_USCTL_BUSY = true ∧ s.hlt.user = []) ∧
    (∃ s : State, s.Settled ∧ s.Shape ∧ s.macOn = true ∧ s.transmitting = false ∧ ∃ x : BitVec 29, ∃ course : BitVec
      6, ∃ posn : BitVec 5, ∃ ago : Nat, ∃ snr : Byte, x.toNat / 2 ^ 27 = 0 ∧ s.isHead = false ∧ s.short ≠ 1023 ∧
      s.parentBeacon 0 (x.toNat / 2 ^ 25 % 4) course.toNat posn.toNat = true ∧ s.mac.noticed = false) ∧
    (∃ s : State, s.Settled ∧ s.Shape ∧ s.macOn = true ∧ s.act = 2 ∧ s.flag F.MAC_STAT_BVALID = true ∧ s.mac.heard =
      false ∧ s.mac.missed = false ∧ s.fld F.MAC_GRID_COURSE = 0 ∧ 12 ≤ s.posn) ∧
    (∃ s : State, s.Settled ∧ s.Shape ∧ s.macOn = true ∧ s.transmitting = false ∧ ∃ robo : Bool, ∃ bytes : List
      Byte, Option.any (hdrAnnounces robo bytes.length) s.phy.rxHdr = true ∧ crc32 (List.take (bytes.length - 4)
      bytes) ≠ ofBytes (List.drop (bytes.length - 4) bytes)) :=
  ⟨
    ⟨{ regs := [(R.PWM_TRIPSRC1, 0x8003)], pwr := { boot := 5 } }, rfl, shaped _ (by decide +kernel), 1,
      by decide +kernel⟩,
    ⟨{ regs := [(R.HLT_USCTL, 0x8000)] }, rfl, shaped _ (by decide +kernel), by decide +kernel⟩,
    ⟨{ regs := [(R.SYS_MODE, 1), (R.CLK_STAT, 0x8000), (R.MAC_SHORT, 0), (R.MAC_PARENT, 0)], pwr := { boot := 5 } },
      rfl, shaped _ (by decide +kernel), by decide +kernel, by decide +kernel, 0x4dc94e8, 0, 0xb, 0, 0xff,
      by decide +kernel⟩,
    ⟨{ regs := [(R.SYS_MODE, 1), (R.CLK_STAT, 0x8000), (R.MAC_STAT, 0x2000), (R.MAC_ROLE, 0x200)], pwr := { boot := 5 }, cyc := 0xe8d53da681 },
      rfl, shaped _ (by decide +kernel), by decide +kernel⟩,
    ⟨{ regs := [(R.SYS_MODE, 1), (R.CLK_STAT, 0x8000)], pwr := { boot := 5 }, phy := { rxHdr := (some 0) } }, rfl,
      shaped _ (by decide +kernel), by decide +kernel, by decide +kernel, true, [7], by decide +kernel⟩⟩

theorem hyps_CommandsCompleteWithTheirOwnEffect_p5_1 :
    (∃ s : State, s.Settled ∧ s.Shape ∧ ∃ level : Byte, 2 ≤ s.pwr.boot ∧ s.pwr.rstLow = false) ∧
    (∃ s : State, s.Settled ∧ s.Shape ∧ ∃ n : Fin 4, s.bit (alCtl ↑n) 15 = true ∧ alarmDue s.tim.now
      (s.tim.alarmAt.getD (↑n) 0) (s.tim.alarmMs.getD (↑n) 0) = true) ∧
    (∃ s : State, s.Settled ∧ s.Shape ∧ s.flag F.TIM_FLG_PPSV = true ∧ s.ppsLate = true) ∧
    (∃ s : State, s.Settled ∧ s.Shape ∧ ∃ n : Fin 8, ∃ level : Bool, s.coreOn = true ∧ (s.gt ↑n).level ≠ level ∧
      s.gtAccepts ↑n = true) ∧
    (∃ s : State, s.Settled ∧ s.Shape ∧ 4 ≤ s.pwr.boot ∧ s.benchTimed = false) ∧
    (∃ s : State, s.Settled ∧ s.Shape ∧ s.clk.handover = true) ∧
    (∃ s : State, s.Settled ∧ s.Shape ∧ ∃ st : Nat, ∃ chk : Nat, ∃ at_ : Nat, s.mac.ackDue = some (st, chk, at_) ∧
      at_ ≤ s.posNow) ∧
    (∃ s : State, s.Settled ∧ s.Shape ∧ s.macOn = true ∧ s.fld F.MAC_STAT_JST = 1 ∧ s.flag F.MAC_CTL_JOINEN = true ∧
      s.mac.joinWait ≤ s.mac.joinAge) :=
  ⟨
    ⟨{ pwr := { boot := 2 } }, rfl, shaped _ (by decide +kernel), 0x13, by decide +kernel⟩,
    ⟨{ regs := [(R.TIM_AL0CTL, 0x8000)] }, rfl, shaped _ (by decide +kernel), 0, by decide +kernel⟩,
    ⟨{ regs := [(R.TIM_FLG, 4)] }, rfl, shaped _ (by decide +kernel), by decide +kernel⟩,
    ⟨{ pwr := { boot := 2 } }, rfl, shaped _ (by decide +kernel), 3, true, by decide +kernel⟩,
    ⟨{ pwr := { boot := 5 } }, rfl, shaped _ (by decide +kernel), by decide +kernel⟩,
    ⟨{ clk := { handover := true } }, rfl, shaped _ (by decide +kernel), by decide +kernel⟩,
    ⟨{ phy := { posBase := 1942 }, mac := { ackDue := (some (0, (0, 0))) } }, rfl, shaped _ (by decide +kernel), 0,
      0, 0, by decide +kernel⟩,
    ⟨{ regs := [(R.SYS_MODE, 1), (R.CLK_STAT, 0x8000), (R.MAC_STAT, 0x4000)], pwr := { boot := 5 }, mac := { joinAge := 8816 } },
      rfl, shaped _ (by decide +kernel), by decide +kernel⟩⟩

theorem hyps_CommandsCompleteWithTheirOwnEffect_p5_2 :
    (∃ s : State, s.Settled ∧ s.Shape ∧ ∃ n : Fin 8, (s.gt ↑n).trig = true) ∧
    (∃ s : State, s.Settled ∧ s.Shape ∧ ∃ n : Fin 8, (s.gt ↑n).run = true ∧ s.gtFrozen ↑n = false ∧ (s.gt
      ↑n).reached (s.gt ↑n).c0 = true) ∧
    (∃ s : State, s.Settled ∧ s.Shape ∧ ∃ n : Nat, s.mac.listen = some n ∧ s.macOn = true ∧ max 1 (s.fld
      F.MAC_DEP_LISTEN) < n) ∧
    (∃ s : State, s.Settled ∧ s.Shape ∧ ∃ n : Fin 8, ∃ v : Nat, (s.gt ↑n).nTop = some (v, 2)) ∧
    (∃ s : State, s.Settled ∧ s.Shape ∧ s.transmitting = true) ∧
    (∃ s : State, s.Settled ∧ s.Shape ∧ ∃ n : Fin 8, (s.gt ↑n).k0.isSome = true ∧ (s.gt ↑n).run = true ∧ (s.gt
      ↑n).stop = true ∧ 6 ≤ s.pwr.boot ∧ s.fld F.SYS_MODE_STATE ≠ 2) ∧
    (∃ s : State, s.Settled ∧ s.Shape ∧ s.fld F.TIM_STAT_STATE = 2 ∧ s.isHead = false ∧ s.fld F.TIM_LIM_HOB ≤
      s.tim.noTheta) :=
  ⟨
    ⟨{ gtu := (((List.replicate 8 ({} : GtChan)).set 3 { trig := true })) }, rfl, shaped _ (by decide +kernel), 3,
      by decide +kernel⟩,
    ⟨{ gtu := (((List.replicate 8 ({} : GtChan)).set 1 { run := true, top := 5, adv := 1 })) }, rfl, shaped _
      (by decide +kernel), 1, by decide +kernel⟩,
    ⟨{ regs := [(R.SYS_MODE, 1), (R.CLK_STAT, 0x8000)], pwr := { boot := 5 }, mac := { listen := (some 5) } }, rfl,
      shaped _ (by decide +kernel), 5, by decide +kernel⟩,
    ⟨{ gtu := (((List.replicate 8 ({} : GtChan)).set 0 { nTop := (some (9, 2)) })) }, rfl, shaped _
      (by decide +kernel), 0, 9, by decide +kernel⟩,
    ⟨{ regs := [(R.SYS_MODE, 1), (R.CLK_STAT, 0x8000)], pwr := { boot := 5 }, phy := { txEnd := 30514 } }, rfl,
      shaped _ (by decide +kernel), by decide +kernel⟩,
    ⟨{ pwr := { boot := 7 }, gtu := (((List.replicate 8 ({} : GtChan)).set 2 { run := true, stop := true, k0 := (some 0) })) },
      rfl, shaped _ (by decide +kernel), 2, by decide +kernel⟩,
    ⟨{ regs := [(R.TIM_STAT, 0x8000)], tim := { noTheta := 2 } }, rfl, shaped _ (by decide +kernel),
      by decide +kernel⟩⟩

theorem hyps_CommandsCompleteWithTheirOwnEffect_p6_1 :
    (∃ s : State, s.Settled ∧ s.Shape ∧ s.coreOn = true ∧ s.flag F.CLK_STAT_ROOTSRC = true) ∧
    (∃ s : State, s.Settled ∧ s.Shape ∧ s.flag F.CLK_STAT_KSRC = false) ∧
    (∃ s : State, s.Settled ∧ s.Shape ∧ ∃ zcs : Bool, s.lossHolds zcs = true) ∧
    (∃ s : State, s.Settled ∧ s.Shape ∧ s.clk.ircSettling = true) ∧
    (∃ s : State, s.Settled ∧ s.Shape ∧ 4 ≤ s.pwr.boot ∧ s.clk.good = true) ∧
    (∃ s : State, s.Settled ∧ s.Shape ∧ s.clk.relock = true) ∧
    (∃ s : State, s.Settled ∧ s.Shape ∧ ∃ strap : Bool, s.pwr.rstLow = true) ∧
    (∃ s : State, s.Settled ∧ s.Shape ∧ s.pwr.boot = 4 ∧ s.pwr.loss = 0 ∧ s.pwr.rstLow = false) :=
  ⟨
    ⟨{ regs := [(R.CLK_STAT, 0x8000)], pwr := { boot := 2 } }, rfl, shaped _ (by decide +kernel), by decide +kernel⟩,
    ⟨{}, rfl, shaped _ (by decide +kernel), by decide +kernel⟩,
    ⟨{ pwr := { boot := 1 } }, rfl, shaped _ (by decide +kernel), false, by decide +kernel⟩,
    ⟨{ clk := { ircSettling := true } }, rfl, shaped _ (by decide +kernel), by decide +kernel⟩,
    ⟨{ clk := { good := true }, pwr := { boot := 5 } }, rfl, shaped _ (by decide +kernel), by decide +kernel⟩,
    ⟨{ clk := { relock := true } }, rfl, shaped _ (by decide +kernel), by decide +kernel⟩,
    ⟨{ pwr := { rstLow := true } }, rfl, shaped _ (by decide +kernel), false, by decide +kernel⟩,
    ⟨{ pwr := { boot := 4 } }, rfl, shaped _ (by decide +kernel), by decide +kernel⟩⟩

theorem hyps_CommandsCompleteWithTheirOwnEffect_p6_2 :
    (∃ s : State, s.Settled ∧ s.Shape ∧ s.pwr.boot = 3) ∧
    (∃ s : State, s.Settled ∧ s.Shape ∧ ∃ v : Word, s.burstEnded = true) ∧
    (∃ s : State, s.Settled ∧ s.Shape ∧ s.pwr.loss = 1) ∧
    (∃ s : State, s.Settled ∧ s.Shape ∧ ∃ v : Word, s.pwr.loss = 2 ∧ s.pwr.asked = true) ∧
    (∃ s : State, s.Settled ∧ s.Shape ∧ s.pwr.boot = 1 ∧ s.pwr.rstLow = false ∧ s.clk.fatalHeld = false) ∧
    (∃ s : State, s.Settled ∧ s.Shape ∧ s.pwr.boot = 2) ∧
    (∃ s : State, s.Settled ∧ s.Shape ∧ s.pwr.boot = 5 ∧ s.pwr.loss = 0 ∧ s.pwr.rstLow = false) ∧
    (∃ s : State, s.Settled ∧ s.Shape ∧ ∃ strap : Bool, s.pwr.boot = 0 ∧ s.pwr.loss = 0) :=
  ⟨
    ⟨{ pwr := { boot := 3 } }, rfl, shaped _ (by decide +kernel), by decide +kernel⟩,
    ⟨{ pwr := { loss := 2 } }, rfl, shaped _ (by decide +kernel), 0x89fd, by decide +kernel⟩,
    ⟨{ pwr := { loss := 1 } }, rfl, shaped _ (by decide +kernel), by decide +kernel⟩,
    ⟨{ pwr := { loss := 2, asked := true } }, rfl, shaped _ (by decide +kernel), 0x5ea1, by decide +kernel⟩,
    ⟨{ pwr := { boot := 1 } }, rfl, shaped _ (by decide +kernel), by decide +kernel⟩,
    ⟨{ pwr := { boot := 2 } }, rfl, shaped _ (by decide +kernel), by decide +kernel⟩,
    ⟨{ pwr := { boot := 5 } }, rfl, shaped _ (by decide +kernel), by decide +kernel⟩,
    ⟨{}, rfl, shaped _ (by decide +kernel), false, by decide +kernel⟩⟩

theorem hyps_CommandsCompleteWithTheirOwnEffect_p7 :
    (∃ s : State, s.Settled ∧ s.Shape ∧ s.pwr.boot ≠ 0) ∧
    (∃ s : State, s.Settled ∧ s.Shape ∧ s.pwr.rstLow = false) ∧
    (∃ s : State, s.Settled ∧ s.Shape ∧ s.flag F.PWR_STAT_VDRVG = false) ∧
    (∃ s : State, s.Settled ∧ s.Shape ∧ ∃ w : Word, BitVec.toNat w < 2300) ∧
    (∃ s : State, s.Settled ∧ s.Shape ∧ ∃ w : Word, BitVec.toNat w + 50 ≤ 10 * s.fld F.KEEP_VMAX_V) ∧
    (∃ s : State, s.Settled ∧ s.Shape ∧ ∃ e : Engine, 4 ≤ s.pwr.boot ∧ s.pwr.rstLow = false ∧ s.bit R.PWR_STALLEN
      (engineBit e) = true) ∧
    (∃ s : State, s.Settled ∧ s.Shape ∧ ∃ w : Word, 10 * s.fld F.KEEP_VMAX_V ≤ BitVec.toNat w) ∧
    (∃ s : State, s.Settled ∧ s.Shape ∧ ∃ w : Word, 2800 < BitVec.toNat w ∧ s.keep.cell = true) :=
  ⟨
    ⟨{ pwr := { boot := 1 } }, rfl, shaped _ (by decide +kernel), by decide +kernel⟩,
    ⟨{}, rfl, shaped _ (by decide +kernel), by decide +kernel⟩,
    ⟨{}, rfl, shaped _ (by decide +kernel), by decide +kernel⟩,
    ⟨{}, rfl, shaped _ (by decide +kernel), 0xb, by decide +kernel⟩,
    ⟨{}, rfl, shaped _ (by decide +kernel), 0xb, by decide +kernel⟩,
    ⟨{ pwr := { boot := 5 } }, rfl, shaped _ (by decide +kernel), (Engine.vlt), by decide +kernel⟩,
    ⟨{}, rfl, shaped _ (by decide +kernel), 0x5a5a, by decide +kernel⟩,
    ⟨{ keep := { cell := true } }, rfl, shaped _ (by decide +kernel), 0x5a17, by decide +kernel⟩⟩

theorem hyps_CommandsCompleteWithTheirOwnEffect_p8 :
    (∃ s : State, s.Settled ∧ s.Shape ∧ ∃ x : Word, s.flag F.KEEP_CTL_HEN = true ∧ s.pwr.boot ≠ 0 ∧ 1024 ≤ 50 *
      BitVec.toNat x ∧ 10 * BitVec.toNat x ≤ 4096) ∧
    (∃ s : State, s.Settled ∧ s.Shape ∧ s.pwr.boot ≠ 0 ∧ 3600 * 32768 ≤ s.keep.litEdges) :=
  ⟨
    ⟨{ pwr := { boot := 1 } }, rfl, shaped _ (by decide +kernel), 0x43, by decide +kernel⟩,
    ⟨{ keep := { litEdges := 0x53ae1fbb }, pwr := { boot := 1 } }, rfl, shaped _ (by decide +kernel),
      by decide +kernel⟩⟩

theorem hyps_CommandsCompleteWithTheirOwnEffect_p9_1 :
    (∃ s : State, s.Settled ∧ s.Shape ∧ ∃ p : Path, ∃ v : Word, s.pathUp p = true ∧ s.unlocked p = true ∧ s.vRoom 2
      = true) ∧
    (∃ s : State, s.Settled ∧ s.Shape ∧ ∃ p : Path, ∃ v : Word, s.pathUp p = true ∧ s.keep.pwLock = false ∧ (s.path
      p).pwWords.length < 3) ∧
    (∃ s : State, s.Settled ∧ s.Shape ∧ ∃ p : Path, ∃ v : Word, s.pathUp p = true ∧ s.unlocked p = true ∧ s.secBusy
      = false ∧ s.vRoom 10 = true) ∧
    (∃ s : State, s.Settled ∧ s.Shape ∧ ∃ p : Path, ∃ v : Word, s.pathUp p = true ∧ s.unlocked p = true ∧ s.secBusy
      = false ∧ s.sec.life ≠ 0 ∧ s.sec.failed = false) ∧
    (∃ s : State, s.Settled ∧ s.Shape ∧ ∃ p : Path, ∃ v : Word, s.pathUp p = true ∧ s.unlocked p = true ∧ s.secBusy
      = false ∧ s.vRoom 2 = true) ∧
    (∃ s : State, s.Settled ∧ s.Shape ∧ ∃ p : Path, ∃ v : Word, s.pathUp p = true ∧ s.q6.length < 64) ∧
    (∃ s : State, s.Settled ∧ s.Shape ∧ ∃ p : Path, ∃ v : Word, s.pathUp p = true ∧ s.unlocked p = true ∧ v = 24225
      ∧ s.vlt.sealing = false) ∧
    (∃ s : State, s.Settled ∧ s.Shape ∧ ∃ p : Path, ∃ v : Word, s.pathUp p = true ∧ 42 ≤ s.fld F.HAT_SEL_HC ∧
      s.vlt.hatBad = false) :=
  ⟨
    ⟨{ host := { opened := true }, pwr := { boot := 5 } }, rfl, shaped _ (by decide +kernel), .host, 0x84f7,
      by decide +kernel⟩,
    ⟨{ pwr := { boot := 5 } }, rfl, shaped _ (by decide +kernel), .host, 0x84f7, by decide +kernel⟩,
    ⟨{ host := { opened := true }, pwr := { boot := 5 } }, rfl, shaped _ (by decide +kernel), .host, 0x84f7,
      by decide +kernel⟩,
    ⟨{ host := { opened := true }, pwr := { boot := 5 } }, rfl, shaped _ (by decide +kernel), .host, 0x84f7,
      by decide +kernel⟩,
    ⟨{ host := { opened := true }, pwr := { boot := 5 } }, rfl, shaped _ (by decide +kernel), .host, 0x84f7,
      by decide +kernel⟩,
    ⟨{ pwr := { boot := 5 } }, rfl, shaped _ (by decide +kernel), .host, 0x84f7, by decide +kernel⟩,
    ⟨{ host := { opened := true }, pwr := { boot := 5 } }, rfl, shaped _ (by decide +kernel), .host, 0x5ea1,
      by decide +kernel⟩,
    ⟨{ regs := [(R.HAT_SEL, 0x2c)], pwr := { boot := 5 } }, rfl, shaped _ (by decide +kernel), .remote, 3,
      by decide +kernel⟩⟩

theorem hyps_CommandsCompleteWithTheirOwnEffect_p9_2 :
    (∃ s : State, s.Settled ∧ s.Shape ∧ ∃ p : Path, ∃ v : Word, s.pathUp p = true ∧ s.rsel = 1 ∧ s.rawOpen p 1 =
      true ∧ legBusy s.vlt.buf = false ∧ s.vRoom 1020 = true ∧ s.vaultFree = false) ∧
    (∃ s : State, s.Settled ∧ s.Shape ∧ ∃ p : Path, ∃ v : Word, s.pathUp p = true ∧ s.unlocked p = true ∧ s.flag
      F.LMP_STAT_EDIT = true ∧ s.lmpFail s.lmp.edit = none) ∧
    (∃ s : State, s.Settled ∧ s.Shape ∧ ∃ p : Path, ∃ v : Word, s.pathUp p = true ∧ s.unlocked p = true ∧ s.flag
      F.FDE_STAT_EDIT = true ∧ fdeFail s.fde.edit = none) ∧
    (∃ s : State, s.Settled ∧ s.Shape ∧ ∃ p : Path, ∃ v : Word, s.pathUp p = true ∧ s.unlocked p = true ∧ s.flag
      F.HLT_STAT_EDIT = true ∧ (∀ (a : Nat), a < 32 → hltWordFail s.hlt.edit a = none)) ∧
    (∃ s : State, s.Settled ∧ s.Shape ∧ ∃ p : Path, ∃ v : Word, s.pathUp p = true ∧ s.rsel = 0 ∧ s.rawOpen p 0 =
      true ∧ s.vlt.usrBuf ≠ [] ∧ s.vRoom 128 = true) ∧
    (∃ s : State, s.Settled ∧ s.Shape ∧ ∃ p : Path, ∃ v : Word, s.pathUp p = true ∧ s.unlocked p = true ∧ s.secBusy
      = false ∧ s.sec.tests = 0) ∧
    (∃ s : State, s.Settled ∧ s.Shape ∧ ∃ p : Path, ∃ v : Word, s.pathUp p = true ∧ s.vaultFree = true ∧
      s.vlt.commit = none ∧ bufRecords s.vlt.buf ≠ []) ∧
    (∃ s : State, s.Settled ∧ s.Shape ∧ ∃ p : Path, ∃ v : Word, s.pathUp p = true ∧ s.unlocked p = true ∧ s.rsel = 0
      ∧ s.rawOpen p 0 = true ∧ BitVec.toNat (s.reg R.VLT_RADDR) < 32768 ∧ s.vRoom 2 = true ∧ s.vaultFree = false) :=
  ⟨
    ⟨{ regs := [(R.VLT_RSEL, 1)], pwr := { boot := 5 } }, rfl, shaped _ (by decide +kernel), .host, 0xffff,
      by decide +kernel⟩,
    ⟨{ regs := [(R.LMP_STAT, 1)], remote := { opened := true }, pwr := { boot := 5 } }, rfl, shaped _
      (by decide +kernel), .remote, 0x5a17, by decide +kernel⟩,
    ⟨{ regs := [(R.FDE_STAT, 2)], remote := { opened := true }, pwr := { boot := 5 } }, rfl, shaped _
      (by decide +kernel), .remote, 0x5a17, by decide +kernel⟩,
    ⟨{ regs := [(R.HLT_STAT, 0x40)], remote := { opened := true }, pwr := { boot := 5 } }, rfl, shaped _
      (by decide +kernel), .remote, 0x5a17, by decide +kernel⟩,
    ⟨{ remote := { regOpen := [0] }, pwr := { boot := 5 }, vlt := { usrBuf := [(0, 0)] } }, rfl, shaped _
      (by decide +kernel), .remote, 0x5a17, by decide +kernel⟩,
    ⟨{ host := { opened := true }, pwr := { boot := 5 } }, rfl, shaped _ (by decide +kernel), .host, 0x738f,
      by decide +kernel⟩,
    ⟨{ pwr := { boot := 7 }, vlt := { buf := [(Sys2Proof.Machine.VEntry.record 175 [0x03#8, 0x03#8, 0x01#8])] } },
      rfl, shaped _ (by decide +kernel), .remote, 0x12c, by decide +kernel⟩,
    ⟨{ remote := { opened := true }, pwr := { boot := 5 } }, rfl, shaped _ (by decide +kernel), .remote, 0xffff,
      by decide +kernel⟩⟩

theorem hyps_CommandsCompleteWithTheirOwnEffect_p10_1 :
    (∃ s : State, s.Settled ∧ s.Shape ∧ ∃ n : Fin 16, s.ticking ↑n = true ∧ (s.chan ↑n).bHit = false ∧ s.reach (↑n)
      (s.chan ↑n).cmpb = true) ∧
    (∃ s : State, s.Settled ∧ s.Shape ∧ ∃ c : Nat, s.sec.burn = some c) ∧
    (∃ s : State, s.Settled ∧ s.Shape ∧ s.coreOn = true) ∧
    (∃ s : State, s.Settled ∧ s.Shape ∧ ∃ n : Fin 16, s.ticking ↑n = true ∧ (s.chan ↑n).pHit = false ∧ s.reach (↑n)
      (s.chan ↑n).per = true) ∧
    (∃ s : State, s.Settled ∧ s.Shape ∧ s.vRoom (10 + s.stressBytes.length) = true ∧ s.vlt.wait = []) ∧
    (∃ s : State, s.Settled ∧ s.Shape ∧ s.sec.tests ≠ 0) ∧
    (∃ s : State, s.Settled ∧ s.Shape ∧ ∃ n : Fin 16, s.ticking ↑n = true ∧ (s.chan ↑n).aHit = false ∧ s.reach (↑n)
      (s.chan ↑n).cmpa = true) ∧
    (∃ s : State, s.Settled ∧ s.Shape ∧ ∃ n : Fin 16, 3600000 ≤ (s.hchan ↑n).onMs) :=
  ⟨
    ⟨{ pwm := { chans := (((List.replicate 16 ({} : Chan)).set 11 { run := true, cmpa := 300 })) } }, rfl, shaped _
      (by decide +kernel), 11, by decide +kernel⟩,
    ⟨{ sec := { burn := (some 0) } }, rfl, shaped _ (by decide +kernel), 0, by decide +kernel⟩,
    ⟨{ pwr := { boot := 2 } }, rfl, shaped _ (by decide +kernel), by decide +kernel⟩,
    ⟨{ pwm := { chans := (((List.replicate 16 ({} : Chan)).set 14 { run := true, aHit := true, bHit := true })) } },
      rfl, shaped _ (by decide +kernel), 14, by decide +kernel⟩,
    ⟨{}, rfl, shaped _ (by decide +kernel), by decide +kernel⟩,
    ⟨{ sec := { tests := 1 } }, rfl, shaped _ (by decide +kernel), by decide +kernel⟩,
    ⟨{ pwm := { chans := (((List.replicate 16 ({} : Chan)).set 3 { run := true, bHit := true })) } }, rfl, shaped _
      (by decide +kernel), 3, by decide +kernel⟩,
    ⟨{ hlt := { chans := (((List.replicate 16 ({} : HChan)).set 5 { onMs := 0x36f074 })) } }, rfl, shaped _
      (by decide +kernel), 5, by decide +kernel⟩⟩

theorem hyps_CommandsCompleteWithTheirOwnEffect_p10_2 :
    (∃ s : State, s.Settled ∧ s.Shape ∧ s.q6 ≠ [] ∧ s.recRuns = true ∧ s.vlt.blank (slotAddr (s.fld
      F.LOG_HEAD_SLOT)) 16 = true) ∧
    (∃ s : State, s.Settled ∧ s.Shape ∧ ∃ n : Fin 16, s.ticking ↑n = true ∧ (s.chan ↑n).pHit = true ∧ s.stops ↑n =
      [] ∧ s.midWaits ↑n = false) ∧
    (∃ s : State, s.Settled ∧ s.Shape ∧ ∃ n : Fin 16, s.midMay ↑n = true) :=
  ⟨
    ⟨{ q6 := [{}], vlt := { recUp := true } }, rfl, shaped _ (by decide +kernel), by decide +kernel⟩,
    ⟨{ pwm := { chans := (((List.replicate 16 ({} : Chan)).set 13 { run := true, pHit := true, per := 0, cmpa := 1 })) } },
      rfl, shaped _ (by decide +kernel), 13, by decide +kernel⟩,
    ⟨{ regs := [(R.PWM_STAT + 11, 0x40)], pwm := { chans := (((List.replicate 16 ({} : Chan)).set 11 { run := true, per := 0, upd := 1 })) } },
      rfl, shaped _ (by decide +kernel), 11, by decide +kernel⟩⟩

theorem hyps_CommandsCompleteWithTheirOwnEffect_p11_1 :
    (∃ s : State, s.Settled ∧ s.Shape ∧ 4 ≤ s.pwr.boot) ∧
    (∃ s : State, s.Settled ∧ s.Shape ∧ ∃ cnt : Word, s.coreOn = true ∧ s.flag F.CLK_STAT_IRCON = true ∧
      s.clk.ircSettling = false ∧ s.flag F.CLK_STAT_KSRC = false ∧ s.clk.firstCheck = false) ∧
    (∃ s : State, s.Settled ∧ s.Shape ∧ 4 ≤ s.pwr.boot ∧ s.clk.good = false ∧ s.clk.ircSettling = false) ∧
    (∃ s : State, s.Settled ∧ s.Shape ∧ s.coreOn = true ∧ s.flag F.CLK_STAT_XOQ = false ∧ s.flag F.CLK_STAT_ROOTSRC
      = false ∧ s.clk.fellBack = false) ∧
    (∃ s : State, s.Settled ∧ s.Shape ∧ s.vaultFree = true ∧ s.vlt.commit.isSome = true) ∧
    (∃ s : State, s.Settled ∧ s.Shape ∧ s.vaultFree = true ∧ s.vlt.fold.isSome = true) ∧
    (∃ s : State, s.Settled ∧ s.Shape ∧ 4 ≤ s.pwr.boot ∧ s.flag F.CLK_STAT_ROOTSRC = true ∧ s.clk.handover = false ∧
      s.flag F.TIM_FLG_IRCF = true) ∧
    (∃ s : State, s.Settled ∧ s.Shape ∧ s.vaultFree = true ∧ s.vlt.wait = [] ∧ (∀ (e : VEntry), e ∈ dropFirstOp
      s.vlt.buf → e.isOp = false) ∧ ∃ e : VEntry, s.vlt.op = some e ∧ e.isRewrite = true) :=
  ⟨
    ⟨{ pwr := { boot := 5 } }, rfl, shaped _ (by decide +kernel), by decide +kernel⟩,
    ⟨{ pwr := { boot := 2 } }, rfl, shaped _ (by decide +kernel), 0xffff, by decide +kernel⟩,
    ⟨{ pwr := { boot := 5 } }, rfl, shaped _ (by decide +kernel), by decide +kernel⟩,
    ⟨{ pwr := { boot := 2 } }, rfl, shaped _ (by decide +kernel), by decide +kernel⟩,
    ⟨{ pwr := { boot := 7 }, vlt := { commit := (some 0) } }, rfl, shaped _ (by decide +kernel), by decide +kernel⟩,
    ⟨{ pwr := { boot := 7 }, vlt := { fold := (some []) } }, rfl, shaped _ (by decide +kernel), by decide +kernel⟩,
    ⟨{ regs := [(R.CLK_STAT, 0x8000)], pwr := { boot := 5 } }, rfl, shaped _ (by decide +kernel), by decide +kernel⟩,
    ⟨{ pwr := { boot := 7 }, vlt := { op := (some (Sys2Proof.Machine.VEntry.plate 49 [0x5a88#16, 0xbd0c#16, 0xffff#16, 0x002b#16, 0xffff#16, 0xffff#16, 0x0003#16, 0x006a#16, 0xc9da#16, 0x0082#16, 0x2b5d#16, 0x0001#16, 0x0005#16, 0x0000#16, 0x00c0#16, 0x001d#16, 0x0093#16, 0x5305#16, 0x00fa#16, 0xffff#16, 0x17a6#16, 0x05ee#16, 0x00c2#16, 0x0088#16, 0x0000#16, 0x40be#16, 0x0003#16, 0xffff#16, 0x0000#16, 0x00d5#16, 0x0c51#16, 0x0188#16])) } },
      rfl, shaped _ (by decide +kernel), by decide +kernel, by decide +kernel,
      by decide +kernel,
      (VEntry.plate 49 [0x5a88#16, 0xbd0c#16, 0xffff#16, 0x002b#16, 0xffff#16, 0xffff#16, 0x0003#16, 0x006a#16,
      0xc9da#16, 0x0082#16, 0x2b5d#16, 0x0001#16, 0x0005#16, 0x0000#16, 0x00c0#16, 0x001d#16, 0x0093#16, 0x5305#16,
      0x00fa#16, 0xffff#16, 0x17a6#16, 0x05ee#16, 0x00c2#16, 0x0088#16, 0x0000#16, 0x40be#16, 0x0003#16, 0xffff#16,
      0x0000#16, 0x00d5#16, 0x0c51#16, 0x0188#16]), by decide +kernel⟩⟩

theorem hyps_CommandsCompleteWithTheirOwnEffect_p11_2 :
    ∃ s : State, s.Settled ∧ s.Shape ∧ s.vaultFree = true ∧ s.vlt.commit = none ∧ bufRecords s.vlt.buf ≠ [] :=
    ⟨{ pwr := { boot := 7 }, vlt := { buf := [(Sys2Proof.Machine.VEntry.record 175 [0x03#8, 0x03#8, 0x01#8])] } },
      rfl, shaped _ (by decide +kernel), by decide +kernel⟩

theorem hyps_CommandsCompleteWithTheirOwnEffect_p12 :
    (∃ s : State, s.Settled ∧ s.Shape ∧ ∃ e : Fin 32, s.fld F.PHY_TMCFG_LIFE ≠ 0 ∧ spGet zeroNat s.phy.txAt ↑e +
      s.fld F.PHY_TMCFG_LIFE * 60 * 61440000 ≤ s.cyc) ∧
    (∃ s : State, s.Settled ∧ s.Shape ∧ ∃ temp : Word, ∃ vstore : Word, s.pwr.boot = 0 ∧ BitVec.getLsbD s.keep.deep
      2 = true) :=
  ⟨
    ⟨{ cyc := 0xe8d53e9944 }, rfl, shaped _ (by decide +kernel), 29, by decide +kernel⟩,
    ⟨{}, rfl, shaped _ (by decide +kernel), 3, 0x66, by decide +kernel⟩⟩

theorem hyps_CommandsCompleteWithTheirOwnEffect_p13_1 :
    (∃ s : State, s.Settled ∧ s.Shape ∧ ∃ f : LineFrame, (s.passes 115 [clsNet] true f = true ∧ (List.drop 1
      f.args).length = 1) ∧ numAt (List.drop 1 f.args) 0 1 ≤ 3) ∧
    (∃ s : State, s.Settled ∧ s.Shape ∧ ∃ f : LineFrame, (s.passes 35 [clsAdmin] true f = true ∧ (List.drop 1
      f.args).length = 2)) ∧
    (∃ s : State, s.Settled ∧ s.Shape ∧ ∃ f : LineFrame, (s.passes 120 [clsNet] true f = true ∧ (List.drop 1
      f.args).length = 2)) ∧
    (∃ s : State, s.Settled ∧ s.Shape ∧ ∃ f : LineFrame, (s.passes 45 [clsAdmin] true f = true ∧ (List.drop 1
      f.args).length = 0) ∧ (s.took 45 f).vRoom 2 = true) ∧
    (∃ s : State, s.Settled ∧ s.Shape ∧ ∃ f : LineFrame, (s.passes 40 [clsAdmin] true f = true ∧ (List.drop 1
      f.args).length = 1) ∧ (numAt (List.drop 1 f.args) 0 1 = 6 ∨ numAt (List.drop 1 f.args) 0 1 = 7 ∨ numAt
      (List.drop 1 f.args) 0 1 = 8)) ∧
    (∃ s : State, s.Settled ∧ s.Shape ∧ ∃ f : LineFrame, (s.passes 42 [clsAdmin] true f = true ∧ (List.drop 1
      f.args).length = 1) ∧ (numAt (List.drop 1 f.args) 0 1 = 6 ∨ numAt (List.drop 1 f.args) 0 1 = 7 ∨ numAt
      (List.drop 1 f.args) 0 1 = 8) ∧ (s.took 42 f).editOpen (numAt (List.drop 1 f.args) 0 1) = true ∧ (s.took 42
      f).editPasses (numAt (List.drop 1 f.args) 0 1) = true) ∧
    (∃ s : State, s.Settled ∧ s.Shape ∧ ∃ f : LineFrame, (s.passes 43 [clsAdmin] true f = true ∧ (List.drop 1
      f.args).length = 1) ∧ (numAt (List.drop 1 f.args) 0 1 = 6 ∨ numAt (List.drop 1 f.args) 0 1 = 7 ∨ numAt
      (List.drop 1 f.args) 0 1 = 8) ∧ (s.took 43 f).vRoom 2 = true) ∧
    (∃ s : State, s.Settled ∧ s.Shape ∧ ∃ f : LineFrame, (s.passes 144 [clsNet] true f = true ∧ (List.drop 1
      f.args).length = 16) ∧ (s.took 144 f).signBusy = false ∧ (s.took 144 f).sec.life ≠ 0 ∧ (s.took 144
      f).testsFailed = false) :=
  ⟨
    ⟨{ regs := [(R.MAC_SHORT, 5)], pwr := { boot := 5 } }, rfl, shaped _ (by decide +kernel),
      { dmode := 2, dst := 7, src := 5, hopdst := 0x31f, seg := 0xffff, seq := 0xfff, hopsrc := 0xb6, kid := 0xa0, args := [0xf1, 1] },
      by decide +kernel⟩,
    ⟨{ regs := [(R.MAC_SHORT, 5)], pwr := { boot := 5 } }, rfl, shaped _ (by decide +kernel),
      { dir := true, dmode := 1, hops := 9, dst := 5, src := 5, seg := 0xffff, seq := 0x997, hopsrc := 2, kid := 0x41, args := [0, 0, 0] },
      by decide +kernel⟩,
    ⟨{ regs := [(R.MAC_SHORT, 5)], pwr := { boot := 5 } }, rfl, shaped _ (by decide +kernel),
      { dir := true, dmode := 1, hops := 9, dst := 5, src := 5, seg := 0xffff, seq := 0x997, hopsrc := 2, kid := 0x41, args := [0, 0, 0] },
      by decide +kernel⟩,
    ⟨{ regs := [(R.MAC_SHORT, 5)], pwr := { boot := 5 } }, rfl, shaped _ (by decide +kernel),
      { hops := 0xf, dst := 7, src := 5, seg := 0xffff, seq := 0x2ad, hopsrc := 3, sec := false, kid := 0x41, args := [2] },
      by decide +kernel⟩,
    ⟨{ regs := [(R.MAC_SHORT, 5)], pwr := { boot := 5 } }, rfl, shaped _ (by decide +kernel),
      { dmode := 1, hops := 5, dst := 1, src := 5, hopdst := 0x3ff, seg := 0xffff, hopsrc := 2, kid := 0x21, args := [1, 7] },
      by decide +kernel⟩,
    ⟨{ regs := [(R.FDE_STAT, 2), (R.MAC_SHORT, 5)], pwr := { boot := 5 } }, rfl, shaped _ (by decide +kernel),
      { dmode := 1, hops := 5, dst := 1, src := 5, hopdst := 0x3ff, seg := 0xffff, hopsrc := 2, kid := 0x21, args := [1, 7] },
      by decide +kernel⟩,
    ⟨{ regs := [(R.MAC_SHORT, 5)], pwr := { boot := 5 } }, rfl, shaped _ (by decide +kernel),
      { dmode := 1, hops := 5, dst := 1, src := 5, hopdst := 0x3ff, seg := 0xffff, hopsrc := 2, kid := 0x21, args := [1, 7] },
      by decide +kernel⟩,
    ⟨{ regs := [(R.MAC_HEAD, 5)], pwr := { boot := 5 } }, rfl, shaped _ (by decide +kernel),
      { urg := true, dmode := 1, dst := 7, src := 5, hopdst := 5, seg := 3, seq := 0xbc0, ttier := 0xe, hopsrc := 0xbb, kid := 2, args := [0xff, 0x94, 0xe6, 0x79, 0xd2, 0xa7, 1, 4, 0x7f, 4, 0x5a, 7, 7, 0x6e, 0xff, 0xc, 0x76] },
      by decide +kernel⟩⟩

theorem hyps_CommandsCompleteWithTheirOwnEffect_p13_2 :
    (∃ s : State, s.Settled ∧ s.Shape ∧ ∃ f : LineFrame, (s.passes 121 [clsNet] true f = true ∧ (List.drop 1
      f.args).length = 0) ∧ toOne f = false) ∧
    (∃ s : State, s.Settled ∧ s.Shape ∧ ∃ f : LineFrame, (s.passes 32 [clsAdmin] true f = true ∧ (List.drop 1
      f.args).length = 8)) ∧
    (∃ s : State, s.Settled ∧ s.Shape ∧ ∃ f : LineFrame, (s.passes 114 [clsNet] true f = true ∧ (List.drop 1
      f.args).length = 2) ∧ 1 ≤ numAt (List.drop 1 f.args) 0 2 ∧ numAt (List.drop 1 f.args) 0 2 ≤ 1022 ∧ toOne f =
      false) ∧
    (∃ s : State, s.Settled ∧ s.Shape ∧ ∃ f : LineFrame, s.passes 96 [clsAdmin] true f = true ∧ (List.drop 1
      f.args).length = 4 ∧ blockOk (List.drop 1 f.args) = true ∧ numAt (List.drop 1 f.args) 2 1 = 1) ∧
    (∃ s : State, s.Settled ∧ s.Shape ∧ ∃ f : LineFrame, (s.passes 117 [clsNet] true f = true ∧ (List.drop 1
      f.args).length = 3) ∧ numAt (List.drop 1 f.args) 0 1 ≤ 3 ∧ numAt (List.drop 1 f.args) 2 1 = 0) :=
  ⟨
    ⟨{ regs := [(R.MAC_SHORT, 5)], pwr := { boot := 5 } }, rfl, shaped _ (by decide +kernel),
      { urg := true, dst := 0x3ff, src := 5, seg := 0xffff, ttier := 3, kid := 0xa0, args := [0xff] },
      by decide +kernel⟩,
    ⟨{ regs := [(R.MAC_HEAD, 5)], pwr := { boot := 5 } }, rfl, shaped _ (by decide +kernel),
      { urg := true, hops := 5, dst := 1, src := 5, hopdst := 2, seg := 0xffff, ttier := 0xf, hopsrc := 0x156, kid := 0x41, args := [0xd3, 4, 0x1a, 0xfa, 0xd8, 3, 5, 0x5a, 0xff] },
      by decide +kernel⟩,
    ⟨{ regs := [(R.MAC_HEAD, 5)], pwr := { boot := 5 } }, rfl, shaped _ (by decide +kernel),
      { dir := true, dmode := 1, dst := 7, src := 5, seg := 0xffff, ttier := 6, kid := 1, args := [0xd8, 0, 3] },
      by decide +kernel⟩,
    ⟨{ regs := [(R.MAC_SHORT, 5)], pwr := { boot := 5 } }, rfl, shaped _ (by decide +kernel),
      { ackreq := true, hops := 9, dst := 5, src := 5, hopdst := 0xa0, seg := 0xffff, ttier := 0xf, sec := false, kid := 0x20, args := [2, 4, 0x12, 1, 0] },
      by decide +kernel⟩,
    ⟨{ regs := [(R.MAC_HEAD, 5)], pwr := { boot := 5 } }, rfl, shaped _ (by decide +kernel),
      { urg := true, ackreq := true, dmode := 2, hops := 9, dst := 7, src := 5, hopdst := 1, seg := 0xffff, seq := 1, ttier := 1, hopsrc := 2, args := [0xff, 0, 3, 0] },
      by decide +kernel⟩⟩

theorem hyps_CommandsCompleteWithTheirOwnEffect_p14 :
    (∃ s : State, s.Settled ∧ s.Shape ∧ ∃ j : SecJob, s.sec.proof = some j) ∧
    (∃ s : State, s.Settled ∧ s.Shape ∧ s.cmd.apply = true) ∧
    (∃ s : State, s.Settled ∧ s.Shape ∧ ∃ b : Fin 13, s.cmd.alarms.length = 13 ∧ (nthOf s.cmd.alarms ↑b).gap = true
      ∧ (nthOf s.cmd.alarms ↑b).n = 0) :=
  ⟨
    ⟨{ sec := { proof := (some {}) } }, rfl, shaped _ (by decide +kernel), {}, by decide +kernel⟩,
    ⟨{ cmd := { apply := true } }, rfl, shaped _ (by decide +kernel), by decide +kernel⟩,
    ⟨{ cmd := { alarms := (((List.replicate 13 ({} : Alarm)).set 6 { gap := true })) } }, rfl, shaped _
      (by decide +kernel), 6, by decide +kernel⟩⟩

end Sys2Proof.Tests
end

section
/-! PROOFS. Which commands end in a next state, and the one write that stops. -/

namespace Sys2Proof.Machine

/-! The one stop (R4). -/

/-- The path, offset and word of the five write rows of the register port; no other command has them. -/
def portWrite : Instr → Option (Path × BitVec 7 × Word)
  | .registerWrite p off v => some (p, off, v)
  | .pairHiWrite p off v => some (p, off, v)
  | .pairLoWrite p off v => some (p, off, v)
  | .tableDataWrite p off v => some (p, off, v)
  | .tableAddrWrite p off v => some (p, off, v)
  | _ => none

theorem portWrite_eq_some_iff (c : Instr) (p : Path) (off : BitVec 7) (v : Word) :
    portWrite c = some (p, off, v) ↔
      c = .registerWrite p off v ∨ c = .pairHiWrite p off v ∨ c = .pairLoWrite p off v ∨
        c = .tableDataWrite p off v ∨ c = .tableAddrWrite p off v := by
  constructor
  · unfold portWrite
    split <;> simp +contextual
  · rintro (rfl | rfl | rfl | rfl | rfl) <;> rfl

/-- The five write rows are one write of the port. -/
theorem exec_of_portWrite {c : Instr} {p : Path} {off : BitVec 7} {v : Word} (h : portWrite c = some (p, off, v))
    (s : State) : exec c s = hostWrite p off v s := by
  rcases (portWrite_eq_some_iff c p off v).mp h with rfl | rfl | rfl | rfl | rfl <;> rfl

/-- Every command but a write of the port ends in a next state. -/
theorem exec_next_of_portWrite_none {c : Instr} (h : portWrite c = none) (s : State) : ∃ t, exec c s = .next t := by
  cases c
  case registerWrite | pairHiWrite | pairLoWrite | tableDataWrite | tableAddrWrite => cases h
  all_goals exact ⟨_, rfl⟩

/-- A write of the port on the reserved pages of the host path, which R4 forbids. -/
def State.stopsWrite (s : State) (p : Path) (off : BitVec 7) : Prop :=
  s.pathUp p = true ∧ 0x11 ≤ (s.path p).page ∧ off ≠ 0 ∧ p = .host

theorem hostWrite_of_stops {s : State} {p : Path} {off : BitVec 7} (v : Word) (h : s.stopsWrite p off) :
    hostWrite p off v s = .fault .reservedPageWrite := by
  obtain ⟨hup, hpage, hoff, rfl⟩ := h
  simp only [hostWrite, hup, if_pos (And.intro hpage hoff), Bool.not_true, Bool.false_eq_true, if_false, if_true]

theorem hostWrite_next_of_not_stops {s : State} {p : Path} {off : BitVec 7} (v : Word) (h : ¬ s.stopsWrite p off) :
    ∃ t, hostWrite p off v s = .next t := by
  unfold hostWrite
  dsimp only
  split
  · exact ⟨_, rfl⟩
  · rename_i hup
    split
    · rename_i hres
      have hp : p ≠ .host := fun hp => h ⟨by simpa using hup, hres.1, hres.2, hp⟩
      exact ⟨_, if_neg hp⟩
    · exact ⟨_, rfl⟩

theorem hostWrite_fault_iff (s : State) (p : Path) (off : BitVec 7) (v : Word) :
    hostWrite p off v s = .fault .reservedPageWrite ↔ s.stopsWrite p off := by
  refine ⟨fun hf => Classical.byContradiction fun hn => ?_, hostWrite_of_stops v⟩
  obtain ⟨t, ht⟩ := hostWrite_next_of_not_stops v hn
  rw [ht] at hf
  cases hf

/-- A command stops exactly where it is a write of the port that R4 forbids. -/
theorem exec_fault_iff (c : Instr) (s : State) :
    exec c s = .fault .reservedPageWrite ↔ ∃ p off v, portWrite c = some (p, off, v) ∧ s.stopsWrite p off := by
  rcases hc : portWrite c with _ | ⟨p, off, v⟩
  · obtain ⟨t, ht⟩ := exec_next_of_portWrite_none hc s
    simp [ht]
  · simp only [exec_of_portWrite hc, hostWrite_fault_iff, Option.some.injEq, Prod.mk.injEq]
    constructor
    · exact fun h => ⟨p, off, v, ⟨rfl, rfl, rfl⟩, h⟩
    · rintro ⟨_, _, _, ⟨rfl, rfl, rfl⟩, h⟩
      exact h

theorem exec_next_or_fault (c : Instr) (s : State) :
    (∃ t, exec c s = .next t) ∨ exec c s = .fault .reservedPageWrite := by
  rcases hc : portWrite c with _ | ⟨p, off, v⟩
  · exact .inl (exec_next_of_portWrite_none hc s)
  · rw [exec_of_portWrite hc]
    by_cases h : s.stopsWrite p off
    · exact .inr (hostWrite_of_stops v h)
    · exact .inl (hostWrite_next_of_not_stops v h)

/-- Settles O5: every row but the five writes of the port ends in `done`, and those five are one host write. -/
theorem onlyReservedPageWritesStop : Obligations.OnlyReservedPageWritesStop := by
  unfold Obligations.OnlyReservedPageWritesStop
  intro c s
  refine ⟨exec_next_or_fault c s, (exec_fault_iff c s).trans ⟨?_, ?_⟩⟩
  · rintro ⟨p, off, v, hc, hup, hpage, hoff, rfl⟩
    exact ⟨off, v, hoff, hpage, hup, (portWrite_eq_some_iff c .host off v).mp hc⟩
  · rintro ⟨off, v, hoff, hpage, hup, hc⟩
    exact ⟨.host, off, v, (portWrite_eq_some_iff c .host off v).mpr hc, hup, hpage, hoff, rfl⟩

end Sys2Proof.Machine
end

section
/-! PROOFS. The merge of a written word, bit by bit, and the word that a write stores. -/

namespace Sys2Proof.Machine

/-! The merge by access code (R2). -/

/-- Two fields of a register with no bit in common. -/
abbrev FieldsDisjoint (f g : FieldDef) : Prop := f.hi < g.lo ∨ g.hi < f.lo

/-- The fields of a register are in its word and share no bit. -/
abbrev FieldsApart (l : List FieldDef) : Prop :=
  (∀ f ∈ l, f.lo ≤ f.hi ∧ f.hi < 16) ∧ l.Pairwise FieldsDisjoint

theorem layout_of_reserved {page : Nat} (h : 17 ≤ page) : layout page = [] := by
  unfold layout
  split
  case h_18 => rfl
  all_goals omega

theorem regDef_mem {page off : Nat} {r : RegDef} (h : regDef page off = some r) :
    page < 17 ∧ r ∈ layout page ∧ r.off = off := by
  have hm : r ∈ layout page := List.mem_of_find?_eq_some h
  refine ⟨Nat.lt_of_not_le fun hp => ?_, hm, ?_⟩
  · rw [layout_of_reserved hp] at hm
    cases hm
  · exact beq_iff_eq.mp (List.find?_some (p := fun r : RegDef => r.off == off) h)

theorem regDef_fieldsApart {page off : Nat} {r : RegDef} (h : regDef page off = some r) : FieldsApart r.flds := by
  have key : ∀ n < 17, ∀ r ∈ layout n, FieldsApart r.flds := by decide +kernel
  obtain ⟨hp, hm, -⟩ := regDef_mem h
  exact key page hp r hm

theorem fieldsDisjoint_of_mem_of_ne {l : List FieldDef} (h : l.Pairwise FieldsDisjoint) {f g : FieldDef} (hf : f ∈ l)
    (hg : g ∈ l) (hne : f ≠ g) : FieldsDisjoint f g := by
  induction h with
  | nil => cases hf
  | cons hd _ ih =>
    rcases List.mem_cons.mp hf with rfl | hf' <;> rcases List.mem_cons.mp hg with rfl | hg'
    · exact absurd rfl hne
    · exact hd g hg'
    · exact (hd f hf').symm
    · exact ih hf' hg'

theorem FieldsApart.eq_of_shared_bit {l : List FieldDef} (h : FieldsApart l) {f g : FieldDef} (hf : f ∈ l) (hg : g ∈ l)
    {i : Nat} (hfi : f.lo ≤ i ∧ i ≤ f.hi) (hgi : g.lo ≤ i ∧ i ≤ g.hi) : f = g := by
  refine Decidable.byContradiction fun hne => ?_
  have hd : FieldsDisjoint f g := fieldsDisjoint_of_mem_of_ne h.2 hf hg hne
  omega

theorem getLsbD_foldl_fieldMask (l : List FieldDef) (m : Word) {i : Nat} (hi : i < 16)
    (hl : ∀ f ∈ l, f.lo ≤ f.hi) :
    (l.foldl (fun m f => m ||| fieldMask f.hi f.lo) m).getLsbD i = true ↔
      m.getLsbD i = true ∨ ∃ f ∈ l, f.lo ≤ i ∧ i ≤ f.hi := by
  induction l generalizing m with
  | nil => simp
  | cons g l ih =>
    have hg : g.lo ≤ g.hi := hl g (by simp)
    have hbit : (fieldMask g.hi g.lo).getLsbD i = true ↔ g.lo ≤ i ∧ i ≤ g.hi := by
      rw [testBit_fieldMask _ _ _ hi]
      simp only [Bool.and_eq_true, decide_eq_true_eq]
      omega
    rw [List.foldl_cons, ih _ (fun f hf => hl f (by simp [hf])), BitVec.getLsbD_or, Bool.or_eq_true, hbit]
    simp only [List.mem_cons, exists_eq_or_imp, or_assoc]

/-- A bit stands in the mask of an access code where a field of that code covers it. -/
theorem getLsbD_accMask {l : List FieldDef} (h : FieldsApart l) (a : Acc) {i : Nat} (hi : i < 16) :
    (accMask l a).getLsbD i = true ↔ ∃ f ∈ l, f.acc = a ∧ f.lo ≤ i ∧ i ≤ f.hi := by
  unfold accMask
  rw [getLsbD_foldl_fieldMask _ _ hi (fun f hf => (h.1 f (List.mem_filter.mp hf).1).1)]
  simp [and_assoc]

theorem getLsbD_accMask_of_mem {l : List FieldDef} (h : FieldsApart l) {f : FieldDef} (hf : f ∈ l) {i : Nat}
    (hfi : f.lo ≤ i ∧ i ≤ f.hi) (a : Acc) : (accMask l a).getLsbD i = decide (f.acc = a) := by
  have hi : i < 16 := by have := (h.1 f hf).2; omega
  rw [Bool.eq_iff_iff, getLsbD_accMask h a hi, decide_eq_true_eq]
  constructor
  · rintro ⟨g, hg, rfl, hgi⟩
    rw [h.eq_of_shared_bit hf hg hfi hgi]
  · exact fun ha => ⟨f, hf, ha, hfi⟩

theorem getLsbD_accMask_of_no_field {l : List FieldDef} (h : FieldsApart l) {i : Nat}
    (hn : ∀ f ∈ l, ¬ (f.lo ≤ i ∧ i ≤ f.hi)) (a : Acc) : (accMask l a).getLsbD i = false := by
  by_cases hi : i < 16
  · rw [Bool.eq_false_iff, Ne, getLsbD_accMask h a hi]
    rintro ⟨f, hf, -, hfi⟩
    exact hn f hf hfi
  · exact BitVec.getLsbD_of_ge _ _ (Nat.le_of_not_lt hi)

theorem getLsbD_writeMask (l : List FieldDef) (opened : Bool) (i : Nat) :
    (writeMask l opened).getLsbD i = ((accMask l .rw).getLsbD i || (opened && (accMask l .lk).getLsbD i)) := by
  cases opened <;> simp [writeMask]

theorem mergeWrite_eq (l : List FieldDef) (opened : Bool) (old v : Word) :
    mergeWrite l opened old v =
      ((old &&& ~~~ writeMask l opened) ||| (v &&& writeMask l opened)) &&& ~~~ (v &&& accMask l .w1c) := rfl

/-- What the merge makes of a bit: the written one under the write mask, else the old one, cleared under W1C. -/
theorem getLsbD_mergeWrite (l : List FieldDef) (opened : Bool) (old v : Word) (i : Nat) :
    (mergeWrite l opened old v).getLsbD i =
      ((if (writeMask l opened).getLsbD i then v.getLsbD i else old.getLsbD i) &&
        !(v.getLsbD i && (accMask l .w1c).getLsbD i)) := by
  by_cases hi : i < 16
  · rw [mergeWrite_eq]
    simp only [BitVec.getLsbD_and, BitVec.getLsbD_or, BitVec.getLsbD_not, hi, decide_true, Bool.true_and]
    cases (writeMask l opened).getLsbD i <;> simp
  · simp [BitVec.getLsbD_of_ge _ _ (Nat.le_of_not_lt hi)]

/-- The bit that a merge stores in a field of access code `a`, from the bit held and the bit written (R2). -/
def mergedBit (a : Acc) (opened old v : Bool) : Bool :=
  match a with
  | .rw => v
  | .lk => if opened then v else old
  | .ro | .wt => old
  | .w1c => old && !v

theorem getLsbD_mergeWrite_of_mem {l : List FieldDef} (h : FieldsApart l) {f : FieldDef} (hf : f ∈ l) {i : Nat}
    (hfi : f.lo ≤ i ∧ i ≤ f.hi) (opened : Bool) (old v : Word) :
    (mergeWrite l opened old v).getLsbD i = mergedBit f.acc opened (old.getLsbD i) (v.getLsbD i) := by
  simp only [getLsbD_mergeWrite, getLsbD_writeMask, getLsbD_accMask_of_mem h hf hfi]
  cases f.acc <;> simp [mergedBit]

theorem getLsbD_mergeWrite_of_no_field {l : List FieldDef} (h : FieldsApart l) {i : Nat}
    (hn : ∀ f ∈ l, ¬ (f.lo ≤ i ∧ i ≤ f.hi)) (opened : Bool) (old v : Word) :
    (mergeWrite l opened old v).getLsbD i = old.getLsbD i := by
  simp [getLsbD_mergeWrite, getLsbD_writeMask, getLsbD_accMask_of_no_field h hn]

/-- The bounds of the Effect column reach no bit that the write may not change. -/
theorem State.getLsbD_mergedWord_of_unwritten (s : State) (p : Path) (page off i : Nat) (r : RegDef) (v : Word) {b : Nat}
    (hb : b < 16) (h : (writeMask r.flds (s.unlocked p)).getLsbD b = false) :
    (s.mergedWord p page off i r v).getLsbD b =
      (mergeWrite r.flds (s.unlocked p) (s.reg (regKey page off i)) v).getLsbD b := by
  simp only [State.mergedWord, BitVec.getLsbD_or, BitVec.getLsbD_and, BitVec.getLsbD_not, h, hb, Bool.and_false,
    Bool.false_or, Bool.not_false, decide_true, Bool.and_true]

theorem State.mergedWord_of_bound_eq (s : State) (p : Path) (page off i : Nat) (r : RegDef) (v : Word)
    (h : s.bound page off (mergeWrite r.flds (s.unlocked p) (s.reg (regKey page off i)) v) =
      mergeWrite r.flds (s.unlocked p) (s.reg (regKey page off i)) v) :
    s.mergedWord p page off i r v = mergeWrite r.flds (s.unlocked p) (s.reg (regKey page off i)) v := by
  simp only [State.mergedWord, h]
  rw [← BitVec.and_or_distrib_left, BitVec.or_not_self, BitVec.and_allOnes]

/-- The stored bit of a field that is neither RW nor LK under an open SYS_UNLOCK is the merged one. -/
theorem State.getLsbD_mergedWord_of_mem (s : State) (p : Path) {page off : Nat} (i : Nat) {r : RegDef} (v : Word)
    (hd : regDef page off = some r) {f : FieldDef} (hf : f ∈ r.flds) {b : Nat} (hfb : f.lo ≤ b ∧ b ≤ f.hi)
    (hrw : f.acc ≠ .rw) (hlk : f.acc = .lk → s.unlocked p = false) :
    (s.mergedWord p page off i r v).getLsbD b =
      mergedBit f.acc (s.unlocked p) ((s.reg (regKey page off i)).getLsbD b) (v.getLsbD b) := by
  have apart := regDef_fieldsApart hd
  have hb : b < 16 := by have := (apart.1 f hf).2; omega
  have unwritten : (writeMask r.flds (s.unlocked p)).getLsbD b = false := by
    rw [getLsbD_writeMask, getLsbD_accMask_of_mem apart hf hfb, getLsbD_accMask_of_mem apart hf hfb, decide_eq_false hrw]
    by_cases ha : f.acc = .lk
    · simp [hlk ha]
    · simp [ha]
  rw [s.getLsbD_mergedWord_of_unwritten p page off i r v hb unwritten, getLsbD_mergeWrite_of_mem apart hf hfb]

/-- Settles O6: no two fields of a register share a bit, so one access code decides each bit. -/
theorem fieldsMergeByAccessCode : Obligations.FieldsMergeByAccessCode := by
  unfold Obligations.FieldsMergeByAccessCode
  constructor
  · intro page off r hd opened old v
    have apart := regDef_fieldsApart hd
    refine ⟨fun f hf i hlo hhi => ?_, fun i hn => getLsbD_mergeWrite_of_no_field apart hn opened old v⟩
    rw [getLsbD_mergeWrite_of_mem apart hf ⟨hlo, hhi⟩]
    cases f.acc <;> rfl
  · intro s p page off i v r hd
    refine ⟨fun f hf b hlo hhi => ?_, s.mergedWord_of_bound_eq p page off i r v⟩
    have stored := s.getLsbD_mergedWord_of_mem p i v hd hf ⟨hlo, hhi⟩
    refine ⟨?_, fun ha => ?_⟩
    · rintro (ha | ha | ⟨ha, hu⟩) <;> rw [stored (by simp [ha]) (by simp [*])] <;> simp [mergedBit, *]
    · rw [stored (by simp [ha]) (by simp [ha]), ha]
      rfl

end Sys2Proof.Machine
end

section
/-! PROOFS. What a register write leaves: the page select, unassigned offsets, and the merge at the indexes a select reaches. -/

namespace Sys2Proof.Machine

/-! A write of the register port that is applied (R24, R26, R27). -/

/-- A write that is not of SYS_UNLOCK abandons an unlock sequence under way (R32). -/
def State.disarm (s : State) (p : Path) : State := s.modPath p (fun q => { q with armed := false })

@[simp] theorem State.disarm_regs (s : State) (p : Path) : (s.disarm p).regs = s.regs := s.modPath_regs p _
@[simp] theorem State.disarm_posted (s : State) (p : Path) : (s.disarm p).posted = s.posted := s.modPath_posted p _
@[simp] theorem State.disarm_reg (s : State) (p : Path) (k : Nat) : (s.disarm p).reg k = s.reg k := s.reg_modPath p _ k
@[simp] theorem State.disarm_fld (s : State) (p : Path) (f : Fld) : (s.disarm p).fld f = s.fld f := s.fld_modPath p _ f
@[simp] theorem State.disarm_armed (s : State) (p : Path) : ((s.disarm p).path p).armed = false := by simp [State.disarm]
@[simp] theorem State.disarm_unlocked (s : State) (p : Path) : (s.disarm p).unlocked p = s.unlocked p := by
  simp [State.disarm, State.unlocked]

@[simp] theorem State.disarm_indexes (s : State) (p : Path) (page count : Nat) :
    (s.disarm p).indexes page count = s.indexes page count := by
  unfold State.indexes State.select
  rw [s.disarm_fld]

/-- A register write that is applied, and that leaves no record posted, ends in the state after it. -/
theorem ends_registerWrite {p : Path} {off : BitVec 7} {s : State} (v : Word) {P : State → Prop}
    (hup : s.pathUp p = true) (hpage : off ≠ 0 → (s.path p).page < 0x11)
    (hposted : (s.writeReg p (s.path p).page off.toNat v).posted = [])
    (hP : P (s.writeReg p (s.path p).page off.toNat v)) : Ends (.registerWrite p off v) s P := by
  refine ⟨_, ?_, hP⟩
  have hres : ¬ (0x11 ≤ (s.path p).page ∧ off ≠ 0) := fun h => absurd (hpage h.2) (by omega)
  have happ : hostWrite p off v s = done (s.writeReg p (s.path p).page off.toNat v) := by
    simp only [hostWrite, hup, Bool.not_true, Bool.false_eq_true, if_false, if_neg hres]
  calc exec (.registerWrite p off v) s = hostWrite p off v s := rfl
    _ = .next (settle (s.writeReg p (s.path p).page off.toNat v)) := happ
    _ = .next (s.writeReg p (s.path p).page off.toNat v) := by rw [settle_of_posted_nil hposted]

theorem State.writeReg_page (s : State) (p : Path) (page : Nat) (v : Word) :
    s.writeReg p page 0 v = s.modPath p (fun q => { q with page := v.toNat % 32 }) := rfl

/-- A write to an offset that the page does not assign changes at most the unlock sequence (R26). -/
theorem State.writeReg_unassigned (s : State) (p : Path) {page off : Nat} (v : Word) (hoff : off ≠ 0)
    (hd : regDef page off = none) (ht : (tablePort page).any (fun q => q.1 == off) = false) :
    s.writeReg p page off v = if page = 0 ∧ off = 0x3C then s else s.disarm p := by
  unfold State.writeReg
  simp only [hoff, if_false, ht, hd, Bool.false_eq_true]
  rfl

/-- What no plain register is: half of a pair, a table's data register, SYS_UNLOCK or PWR_LINKUV. -/
theorem PlainRegister.excludes {page off : Nat} (h : PlainRegister page off = true) :
    pairLo page off = false ∧ pairHi page off = false ∧ (tablePort page).any (fun q => q.1 == off) = false ∧
      ¬ (page = 0 ∧ off = 0x3C) ∧ ¬ (page = 2 ∧ off = 0x05) := by
  have h0 : ¬ (page = 0 ∧ off = 0x3C) := by rintro ⟨rfl, rfl⟩; exact absurd h (by decide)
  have h2 : ¬ (page = 2 ∧ off = 0x05) := by rintro ⟨rfl, rfl⟩; exact absurd h (by decide)
  simp only [PlainRegister, Bool.and_eq_true, Bool.not_eq_true'] at h
  obtain ⟨⟨⟨hlo, hhi⟩, ht⟩, -⟩ := h
  exact ⟨hlo, hhi, ht, h0, h2⟩

/-- No plain register of page VLT is indexed: its indexed registers are the pair HAT_VAL and the trigger HAT_CTL. -/
theorem PlainRegister.count_of_vlt {off : Nat} {r : RegDef} (hd : regDef 14 off = some r)
    (h : PlainRegister 14 off = true) : r.count = 1 := by
  have key : ∀ r ∈ layout 14, PlainRegister 14 r.off = true → r.count = 1 := by decide +kernel
  obtain ⟨-, hm, rfl⟩ := regDef_mem hd
  exact key r hm h

/-- A plain register's write merges the word into each index that the access reaches (R2, R27). -/
theorem State.writeReg_plain (s : State) (p : Path) {page off : Nat} {r : RegDef} (v : Word) (hoff : off ≠ 0)
    (hd : regDef page off = some r) (h : PlainRegister page off = true) :
    s.writeReg p page off v =
      (s.indexes page r.count).foldl (fun t i => t.mergeReg p page off i v) (s.disarm p) := by
  obtain ⟨hlo, hhi, ht, hunlock, -⟩ := PlainRegister.excludes h
  rw [← s.disarm_indexes p]
  unfold State.writeReg
  simp only [hoff, hunlock, ht, hd, hlo, hhi, if_false, Bool.false_eq_true, State.indexWrite_plain _ _ _ h,
    State.plainWrite_plain _ _ _ h]
  by_cases hc : r.count = 1
  · simp only [hc, if_true]
    rfl
  · have hp : page ≠ 14 := by rintro rfl; exact hc (PlainRegister.count_of_vlt hd h)
    simp only [hc, hp, if_false]
    rfl

/-! Merging a word into several indexes of a register. -/

theorem regDef_count_le {page off : Nat} {r : RegDef} (h : regDef page off = some r) : r.count ≤ 64 := by
  have key : ∀ n < 17, ∀ r ∈ layout n, r.count ≤ 64 := by decide +kernel
  obtain ⟨hp, hm, -⟩ := regDef_mem h
  exact key page hp r hm

theorem regKey_inj {page off i j : Nat} (hi : i < 64) (hj : j < 64) (h : regKey page off i = regKey page off j) :
    i = j := by
  simp only [regKey, cell, Nat.mod_eq_of_lt hi, Nat.mod_eq_of_lt hj] at h
  omega

/-- A plain register is not PWR_LINKUV, the one register that a bound of the Effect column reads. -/
theorem linkuv_ne_regKey {page off : Nat} (hoff : off < 128) (h : PlainRegister page off = true) (i : Nat) :
    F.PWR_LINKUV_UV.key ≠ regKey page off i := by
  obtain ⟨-, -, -, -, hne⟩ := PlainRegister.excludes h
  have hk : F.PWR_LINKUV_UV.key = (2 * 128 + 5) * 64 := rfl
  have hi : i % 64 < 64 := Nat.mod_lt _ (by decide)
  rw [hk, regKey, cell]
  omega

/-- The word stored depends on the register's own word, the path's unlock state and PWR_LINKUV. -/
theorem State.mergedWord_congr {s t : State} {p : Path} {page off i : Nat} (r : RegDef) (v : Word)
    (hreg : t.reg (regKey page off i) = s.reg (regKey page off i)) (hu : t.unlocked p = s.unlocked p)
    (hf : t.fld F.PWR_LINKUV_UV = s.fld F.PWR_LINKUV_UV) :
    t.mergedWord p page off i r v = s.mergedWord p page off i r v := by
  simp only [State.mergedWord, State.bound, hreg, hu, hf]

/-- What a merge into the indexes `l` leaves: each of them holds its merge, every other register, the path and the
records posted are as before. -/
structure Merged (p : Path) (page off : Nat) (r : RegDef) (v : Word) (l : List Nat) (s t : State) : Prop where
  reached : ∀ i ∈ l, t.reg (regKey page off i) = s.mergedWord p page off i r v
  others  : ∀ j, (∀ i ∈ l, j ≠ regKey page off i) → t.reg j = s.reg j
  path    : t.path p = s.path p
  posted  : t.posted = s.posted

theorem State.foldl_mergeReg (p : Path) {page off : Nat} {r : RegDef} (v : Word) (hd : regDef page off = some r)
    (hoff : off < 128) (h : PlainRegister page off = true) (l : List Nat) (hl : l.Nodup) (hb : ∀ i ∈ l, i < 64)
    (s : State) : Merged p page off r v l s (l.foldl (fun t i => t.mergeReg p page off i v) s) := by
  induction l generalizing s with
  | nil => exact ⟨by simp, fun _ _ => rfl, rfl, rfl⟩
  | cons a l ih =>
    obtain ⟨hal, hl⟩ := List.nodup_cons.mp hl
    have ha : a < 64 := hb a (by simp)
    have apart : ∀ i ∈ l, regKey page off i ≠ regKey page off a := fun i hi he =>
      hal (regKey_inj (hb i (by simp [hi])) ha he ▸ hi)
    have m := ih hl (fun i hi => hb i (by simp [hi])) (s.mergeReg p page off a v)
    rw [List.foldl_cons]
    rw [s.mergeReg_of_some p v hd] at m ⊢
    refine ⟨?_, ?_, ?_, ?_⟩
    · intro i hi
      rcases List.mem_cons.mp hi with rfl | hi
      · rw [m.others _ (fun j hj => (apart j hj).symm), State.reg_setReg_self]
      · rw [m.reached i hi]
        exact State.mergedWord_congr r v (s.reg_setReg_of_ne _ (apart i hi)) rfl
          (s.fld_setReg_of_ne _ (linkuv_ne_regKey hoff h a))
    · intro j hj
      rw [m.others j (fun i hi => hj i (by simp [hi])), s.reg_setReg_of_ne _ (hj a (by simp))]
    · exact m.path
    · exact m.posted

theorem State.indexes_of_count_one (s : State) {page count : Nat} (h : count = 1) : s.indexes page count = [0] := by
  simp [State.indexes, h]

theorem State.indexes_broadcast (s : State) {page count : Nat} (h : count ≠ 1)
    (hb : broadcasts page = true ∧ s.select page = 0x1F) : s.indexes page count = List.range count := by
  simp [State.indexes, h, hb]

theorem State.indexes_select (s : State) {page count : Nat} (h : count ≠ 1)
    (hb : ¬ (broadcasts page = true ∧ s.select page = 0x1F)) :
    s.indexes page count = if s.select page < count then [s.select page] else [] := by
  simp only [State.indexes, h, hb, if_false]

/-- The indexes that an access reaches: the whole range under the broadcast select, else at most one. -/
theorem State.indexes_cases (s : State) (page count : Nat) :
    s.indexes page count = [0] ∨ s.indexes page count = List.range count ∨
      (∃ i, i < count ∧ s.indexes page count = [i]) ∨ s.indexes page count = [] := by
  by_cases hc : count = 1
  · exact .inl (s.indexes_of_count_one hc)
  · by_cases hb : broadcasts page = true ∧ s.select page = 0x1F
    · exact .inr (.inl (s.indexes_broadcast hc hb))
    · by_cases hi : s.select page < count
      · exact .inr (.inr (.inl ⟨_, hi, (s.indexes_select hc hb).trans (if_pos hi)⟩))
      · exact .inr (.inr (.inr ((s.indexes_select hc hb).trans (if_neg hi))))

theorem State.indexes_nodup (s : State) (page count : Nat) : (s.indexes page count).Nodup := by
  rcases s.indexes_cases page count with h | h | ⟨i, -, h⟩ | h <;> rw [h]
  · exact List.nodup_cons.mpr ⟨List.not_mem_nil, List.nodup_nil⟩
  · exact List.nodup_range
  · exact List.nodup_cons.mpr ⟨List.not_mem_nil, List.nodup_nil⟩
  · exact List.nodup_nil

theorem State.indexes_lt (s : State) {page count : Nat} (hc : count ≤ 64) : ∀ i ∈ s.indexes page count, i < 64 := by
  intro i hi
  rcases s.indexes_cases page count with h | h | ⟨j, hj, h⟩ | h <;> rw [h] at hi
  · rw [List.mem_singleton.mp hi]
    decide
  · exact Nat.lt_of_lt_of_le (List.mem_range.mp hi) hc
  · rw [List.mem_singleton.mp hi]
    exact Nat.lt_of_lt_of_le hj hc
  · exact absurd hi List.not_mem_nil

/-- The write of a plain register is a merge into the indexes that the access reaches. -/
theorem State.merged_writeReg (s : State) (p : Path) {page off : Nat} {r : RegDef} (v : Word) (hoff : off ≠ 0)
    (hlt : off < 128) (hd : regDef page off = some r) (h : PlainRegister page off = true) :
    Merged p page off r v (s.indexes page r.count) (s.disarm p) (s.writeReg p page off v) := by
  rw [s.writeReg_plain p v hoff hd h]
  exact State.foldl_mergeReg p v hd hlt h _ (s.indexes_nodup _ _) (s.indexes_lt (regDef_count_le hd)) _

theorem State.disarm_mergedWord (s : State) (p : Path) (page off i : Nat) (r : RegDef) (v : Word) :
    (s.disarm p).mergedWord p page off i r v = s.mergedWord p page off i r v :=
  State.mergedWord_congr r v (s.disarm_reg p _) (s.disarm_unlocked p) (s.disarm_fld p _)

/-- The registers after a write of a plain register, for the indexes `l` that it reaches. -/
theorem ends_plainWrite {p : Path} {off : BitVec 7} {v : Word} {s : State} {r : RegDef} {P : State → Prop}
    (hs : s.Settled) (hup : s.pathUp p = true) (hoff : off ≠ 0) (hpage : (s.path p).page < 0x11)
    (hd : regDef (s.path p).page off.toNat = some r) (h : PlainRegister (s.path p).page off.toNat = true)
    (hP : ∀ t : State,
      (∀ i ∈ s.indexes (s.path p).page r.count, t.reg (regKey (s.path p).page off.toNat i) =
        s.mergedWord p (s.path p).page off.toNat i r v) →
      (∀ j, (∀ i ∈ s.indexes (s.path p).page r.count, j ≠ regKey (s.path p).page off.toNat i) → t.reg j = s.reg j) →
      (s.indexes (s.path p).page r.count = [] → t.regs = s.regs) → (t.path p).armed = false → P t) :
    Ends (.registerWrite p off v) s P := by
  have hne : off.toNat ≠ 0 := BitVec.toNat_ne_iff_ne.mpr hoff
  have m := s.merged_writeReg p v hne off.isLt hd h
  refine ends_registerWrite v hup (fun _ => hpage) (m.posted.trans ((s.disarm_posted p).trans hs)) (hP _ ?_ ?_ ?_ ?_)
  · exact fun i hi => (m.reached i hi).trans (s.disarm_mergedWord p _ _ i r v)
  · exact fun j hj => (m.others j hj).trans (s.disarm_reg p j)
  · intro hnil
    rw [s.writeReg_plain p v hne hd h, hnil]
    exact s.disarm_regs p
  · rw [m.path]
    exact s.disarm_armed p

/-- Settles O7: a plain write is the merge at each index that the select reaches, on the path with its unlock sequence
abandoned. -/
theorem registerWriteTakesEffect : Obligations.RegisterWriteTakesEffect := by
  unfold Obligations.RegisterWriteTakesEffect
  intro p off v s hs hup
  refine ⟨?_, ?_, ?_, ?_⟩
  · rintro rfl
    refine ends_registerWrite v hup (fun h => absurd rfl h) ?_ ?_
    · exact (s.modPath_posted p _).trans hs
    · exact ⟨congrArg PathState.page (s.path_modPath p _), s.modPath_regs p _⟩
  · intro hoff hpage hd ht
    have hne : off.toNat ≠ 0 := BitVec.toNat_ne_iff_ne.mpr hoff
    have hw := s.writeReg_unassigned p v hne hd ht
    refine ends_registerWrite v hup (fun _ => hpage) ?_ ?_
    · rw [hw]
      split
      · exact hs
      · exact (s.disarm_posted p).trans hs
    · rw [hw]
      split
      · rfl
      · exact s.disarm_regs p
  · intro hoff hpage r hd h hc
    refine ends_plainWrite hs hup hoff hpage hd h fun t hreached hothers _ harmed => ?_
    rw [s.indexes_of_count_one hc] at hreached hothers
    exact ⟨hreached 0 (by simp), fun j hj => hothers j (by simpa using hj), harmed⟩
  · intro hoff hpage r hd h hc
    refine ⟨fun hb => ?_, fun hb => ?_⟩
    · refine ends_plainWrite hs hup hoff hpage hd h fun t hreached hothers _ _ => ?_
      rw [s.indexes_broadcast hc hb] at hreached hothers
      simp only [List.mem_range] at hreached hothers
      exact ⟨hreached, hothers⟩
    · refine ends_plainWrite hs hup hoff hpage hd h fun t hreached hothers hnone _ => ?_
      rw [s.indexes_select hc hb] at hreached hothers hnone
      refine ⟨fun hi => ?_, fun j hi hj => ?_, fun hi => hnone (if_neg (by omega))⟩
      · exact hreached _ (by simp [hi])
      · exact hothers j (by simpa [hi] using hj)

end Sys2Proof.Machine
end

section
/-! PROOFS. What a step does with the queue of commands that wait. -/

namespace Sys2Proof.Machine

/-- The command that waits first is the one a step runs, and it runs with itself taken off the queue. -/
theorem step_of_pending_cons {s : State} {c : Instr} {cs : List Instr} (h : s.pending = c :: cs) :
    step s = exec c { s with pending := cs } := by
  simp only [step, h]

/-- Settles O1: the queue of the state is `c :: cs`, and the queue that the step leaves replaces it. -/
theorem stepTakesFrontCommand : Obligations.StepTakesFrontCommand := by
  unfold Obligations.StepTakesFrontCommand
  intro c cs s
  exact step_of_pending_cons (s := { s with pending := c :: cs }) rfl

end Sys2Proof.Machine
end

section
/-! PROOFS. What the commands of the lamps and of the fade engine leave unchanged. -/

namespace Sys2Proof.Machine

/-! From a mask to a frame: the masks of the Touch lemmas read as lists of registers and of parts. -/

/-- The mask with the bits listed. -/
def bitsMask (bits : List Nat) : Nat := bits.foldr (fun i m => 1 <<< i ||| m) 0

/-- The bits of a frame: of its registers, as far as they stand before the bits of the parts, and of its parts. -/
def frameBits (regs : List Nat) (parts : List Part) : List Nat :=
  (regs.map (· / 64)).filter (· < 2304) ++ parts.map Part.idx

/-- The mask of a frame. -/
def frameMask (regs : List Nat) (parts : List Part) : Nat := bitsMask (frameBits regs parts)

theorem has_bitsMask (bits : List Nat) (i : Nat) : Has (bitsMask bits) i ↔ i ∈ bits := by
  induction bits with
  | nil => simp [bitsMask]
  | cons j bits ih =>
    have hcons : bitsMask (j :: bits) = 1 <<< j ||| bitsMask bits := rfl
    have hbit : (1 <<< j).testBit i = true ↔ i = j := by
      rw [Nat.one_shiftLeft, Nat.testBit_two_pow, decide_eq_true_iff, eq_comm]
    rw [Has, hcons, Nat.testBit_or, Bool.or_eq_true, hbit, List.mem_cons]
    exact or_congr_right ih

theorem has_frameMask {regs : List Nat} {parts : List Part} {i : Nat} (h : Has (frameMask regs parts) i) :
    (i < 2304 ∧ ∃ r ∈ regs, i = r / 64) ∨ ∃ p ∈ parts, i = p.idx := by
  rcases List.mem_append.mp ((has_bitsMask _ i).mp h) with hreg | hpart
  · obtain ⟨hmem, hlt⟩ := List.mem_filter.mp hreg
    obtain ⟨r, hr, he⟩ := List.mem_map.mp hmem
    exact .inl ⟨of_decide_eq_true hlt, r, hr, he.symm⟩
  · obtain ⟨p, hp, he⟩ := List.mem_map.mp hpart
    exact .inr ⟨p, hp, he.symm⟩

/-- The bits of the parts stand after those of the registers. -/
theorem Part.le_idx (p : Part) : 2304 ≤ p.idx := by
  cases p <;> decide

theorem Part.idx_inj {p q : Part} : p.idx = q.idx → p = q := by
  cases p <;> cases q <;> decide

/-- A state that differs at most in the mask of a frame keeps the frame. -/
theorem Touch.onlyTouches {regs : List Nat} {parts : List Part} {s t : State} (h : Touch (frameMask regs parts) s t) :
    OnlyTouches regs parts s t := by
  obtain ⟨hregs, hparts⟩ := h
  refine ⟨fun k hk hout => ?_, fun p hp => ?_⟩
  · refine hregs k (by omega) (Bool.eq_false_iff.mpr fun hbit => ?_)
    rcases has_frameMask hbit with ⟨-, r, hr, he⟩ | ⟨p, -, he⟩
    · exact hout r hr he
    · have := p.le_idx
      omega
  · refine hparts p (Bool.eq_false_iff.mpr fun hbit => ?_)
    rcases has_frameMask hbit with ⟨hlt, -⟩ | ⟨q, hq, he⟩
    · have := p.le_idx
      omega
    · exact hp (Part.idx_inj he ▸ hq)

/-- A command whose outcome differs at most in the mask of a frame keeps the frame. -/
theorem TouchOut.onlyTouches {regs : List Nat} {parts : List Part} {s t : State}
    {o : Host.Outcome State Fault Refusal} (h : TouchOut (frameMask regs parts) s o) (ho : o = .next t) :
    OnlyTouches regs parts s t :=
  (h t ho).onlyTouches

/-- Settles O51: what each command may change by its own Touch lemma lies within the mask of the frame stated for it. -/
theorem frameOfLighting : Obligations.FrameOfLighting := by
  unfold Obligations.FrameOfLighting
  intro c s t h
  cases c with
  | lmpMapWrite p v => exact (execLmpMapWrite_touch (by decide +kernel)).onlyTouches h
  | lmpCfgWrite p v => exact (execLmpCfgWrite_touch (by decide +kernel)).onlyTouches h
  | lmpTabOpen p => exact (execLmpTabOpen_touch (by decide +kernel)).onlyTouches h
  | lmpTabClose p => exact (execLmpTabClose_touch (by decide +kernel)).onlyTouches h
  | lmpTabSave p => exact (execLmpTabSave_touch (by decide +kernel)).onlyTouches h
  | fdeTabSave p => exact (execFdeTabSave_touch (by decide +kernel)).onlyTouches h
  | fadeTick => exact (execFadeTick_touch (by decide +kernel)).onlyTouches h
  | scheduleMinute => exact (execScheduleMinute_touch (by decide +kernel)).onlyTouches h
  | timedStartDue l => exact (execTimedStartDue_touch (by decide +kernel)).onlyTouches h
  | slotHoldExpiry l lvl => exact (execSlotHoldExpiry_touch (by decide +kernel)).onlyTouches h
  | ruleHoldEnd r => exact (execRuleHoldEnd_touch (by decide +kernel)).onlyTouches h
  | gestureHoldExpiry l => exact (execGestureHoldExpiry_touch (by decide +kernel)).onlyTouches h
  | gestureComplete => exact (execGestureComplete_touch (by decide +kernel)).onlyTouches h
  | lossEntry => exact (execLossEntry_touch (by decide +kernel)).onlyTouches h
  | fdeRcmdApply p => exact (execFdeRcmdApply_touch (by decide +kernel)).onlyTouches h
  | fdeRcmdApplyAt p => exact (execFdeRcmdApplyAt_touch (by decide +kernel)).onlyTouches h
  | fdeRcmdApplyEvr p => exact (execFdeRcmdApplyEvr_touch (by decide +kernel)).onlyTouches h
  | fdeRcmdPlate p k => exact (execFdeRcmdPlate_touch (by decide +kernel)).onlyTouches h
  | fdeRcmdPlateAt p k => exact (execFdeRcmdPlateAt_touch (by decide +kernel)).onlyTouches h
  | fdeRcmdPlateEvr p k => exact (execFdeRcmdPlateEvr_touch (by decide +kernel)).onlyTouches h
  | fdeRcmdRelease p => exact (execFdeRcmdRelease_touch (by decide +kernel)).onlyTouches h
  | fdeTabOpen p => exact (execFdeTabOpen_touch (by decide +kernel)).onlyTouches h
  | fdeTabClose p => exact (execFdeTabClose_touch (by decide +kernel)).onlyTouches h
  | _ => trivial

end Sys2Proof.Machine
end

section
/-! PROOFS. How a command ends, and what a register write on a path that responds leaves: shared by the proofs below. -/

namespace Sys2Proof.Machine

set_option Elab.async false

theorem State.Settled.posted {s : State} (h : s.Settled) : s.posted = [] := h

/-- A command ends in the settled state after its operation. -/
theorem ends_done {c : Instr} {s u : State} {P : State → Prop} (hc : exec c s = done u) (hP : P (settle u)) :
    Ends c s P :=
  ⟨settle u, hc, hP⟩

/-- An operation that posts no record ends in its own state. -/
theorem ends_of_posted_nil {c : Instr} {s u : State} {P : State → Prop} (hc : exec c s = done u) (hu : u.posted = [])
    (hP : P u) : Ends c s P :=
  ends_done hc (by rwa [settle_of_posted_nil hu])

theorem done_of_posted_nil {s : State} (h : s.posted = []) : done s = .next s :=
  congrArg Host.Outcome.next (settle_of_posted_nil h)

/-- A command that takes the state as it is leaves it, where no record waits. -/
theorem exec_next_of_done_self {c : Instr} {s : State} (hs : s.Settled) (hc : exec c s = done s) : exec c s = .next s :=
  hc.trans (done_of_posted_nil hs)

theorem State.onWrite_of_pathUp {s : State} {p : Path} (f : State → State) (h : s.pathUp p = true) :
    s.onWrite p f = f (s.disarm p) := by
  rw [State.onWrite, if_pos h]
  rfl

@[simp] theorem State.disarm_fde (s : State) (p : Path) : (s.disarm p).fde = s.fde := s.modPath_fde p _
@[simp] theorem State.disarm_vlt (s : State) (p : Path) : (s.disarm p).vlt = s.vlt := s.modPath_vlt p _
@[simp] theorem State.disarm_pwr (s : State) (p : Path) : (s.disarm p).pwr = s.pwr := s.modPath_pwr p _
@[simp] theorem State.disarm_flag (s : State) (p : Path) (f : Fld) : (s.disarm p).flag f = s.flag f :=
  s.flag_modPath p _ f
@[simp] theorem State.disarm_pair (s : State) (p : Path) (k : Nat) : (s.disarm p).pair k = s.pair k := by
  simp only [State.pair, State.disarm_reg]

@[simp] theorem State.path_modFde (s : State) (p : Path) (f : FdeState → FdeState) :
    (s.modFde f).path p = s.path p := by
  cases p <;> rfl

/-! Fields of one register. -/

/-- Two fields of one register with no bit in common. -/
abbrev FldApart (f g : Fld) : Prop :=
  g.key = f.key ∧ f.lo ≤ f.hi ∧ g.lo ≤ g.hi ∧ g.hi < 16 ∧ (f.hi < g.lo ∨ g.hi < f.lo)

theorem State.flag_setFlag_apart (s : State) {f g : Fld} (b : Bool) (h : FldApart f g) :
    (s.setFlag f b).flag g = s.flag g := by
  obtain ⟨hk, hl, hl', h', hd⟩ := h
  exact s.flag_setFlag_other b hk hl hl' h' hd

/-! What a mask leaves, read as equations. -/

theorem Touch.reg_eq {m : Nat} {s t : State} (h : Touch m s t) {k : Nat} (hl : k / 64 < 2304)
    (hk : m.testBit (k / 64) = false) : t.reg k = s.reg k :=
  h.1 k hl hk

theorem Touch.fld_eq {m : Nat} {s t : State} (h : Touch m s t) {f : Fld} (hl : f.key / 64 < 2304)
    (hk : m.testBit (f.key / 64) = false) : t.fld f = s.fld f := by
  simp only [State.fld, h.reg_eq hl hk]

theorem Touch.flag_eq {m : Nat} {s t : State} (h : Touch m s t) {f : Fld} (hl : f.key / 64 < 2304)
    (hk : m.testBit (f.key / 64) = false) : t.flag f = s.flag f := by
  simp only [State.flag, h.fld_eq hl hk]

theorem Touch.fde_eq {m : Nat} {s t : State} (h : Touch m s t) (hk : m.testBit Part.fde.idx = false) : t.fde = s.fde :=
  h.2 .fde hk

theorem Touch.lmp_eq {m : Nat} {s t : State} (h : Touch m s t) (hk : m.testBit Part.lmp.idx = false) : t.lmp = s.lmp :=
  h.2 .lmp hk

theorem Touch.keep_eq {m : Nat} {s t : State} (h : Touch m s t) (hk : m.testBit Part.keep.idx = false) :
    t.keep = s.keep :=
  h.2 .keep hk

theorem Touch.posted_eq {m : Nat} {s t : State} (h : Touch m s t) (hk : m.testBit Part.posted.idx = false) :
    t.posted = s.posted :=
  h.2 .posted hk

theorem Touch.q6_eq {m : Nat} {s t : State} (h : Touch m s t) (hk : m.testBit Part.q6.idx = false) : t.q6 = s.q6 :=
  h.2 .q6 hk

/-- The vault is its four parts. -/
theorem Touch.vlt_eq {m : Nat} {s t : State} (h : Touch m s t) (hflash : m.testBit Part.flash.idx = false)
    (hlast : m.testBit Part.last.idx = false) (hdrops : m.testBit Part.drops.idx = false)
    (hvlt : m.testBit Part.vlt.idx = false) : t.vlt = s.vlt := by
  have e1 : t.vlt.flash = s.vlt.flash := h.2 .flash hflash
  have e2 : t.vlt.last = s.vlt.last := h.2 .last hlast
  have e3 : t.vlt.dropped = s.vlt.dropped := h.2 .drops hdrops
  have e4 : { t.vlt with flash := [], last := [], dropped := 0 } = { s.vlt with flash := [], last := [], dropped := 0 } :=
    h.2 .vlt hvlt
  calc t.vlt = { { t.vlt with flash := [], last := [], dropped := 0 } with
        flash := t.vlt.flash, last := t.vlt.last, dropped := t.vlt.dropped } := rfl
    _ = s.vlt := by rw [e1, e2, e3, e4]

/-- Setting a sticky bit of FDE_STAT is setting the bit, and raising its interrupt where that is enabled. -/
theorem State.fdeStick_touch_setFlag (s : State) (f en : Fld) :
    Touch State.irqMask (s.setFlag f true) (s.fdeStick f en) := by
  unfold State.fdeStick
  dsimp only
  split
  · exact State.irq_touch Touch.refl (Sub.refl _)
  · exact Touch.refl

@[simp] theorem State.fdeStick_fde (s : State) (f en : Fld) : (s.fdeStick f en).fde = s.fde :=
  (s.fdeStick_touch_setFlag f en).fde_eq (by decide +kernel)

theorem State.flag_fdeStick (s : State) {f en g : Fld} (hg : g.key = R.FDE_STAT) :
    (s.fdeStick f en).flag g = (s.setFlag f true).flag g := by
  refine (s.fdeStick_touch_setFlag f en).flag_eq ?_ ?_ <;> rw [hg] <;> decide +kernel

end Sys2Proof.Machine
end

section
/-! PROOFS. What a write of FDE_RCMD queues, and the opening, closing and saving of the fade tables. -/

namespace Sys2Proof.Machine

set_option Elab.async false

/-! The answers and requests of FDE_RCMD (R88, R110). -/

/-- FDE_RSTAT of the path takes a code, and commands before this one no longer write it. -/
def State.rcmdStat (s : State) (p : Path) (c : Nat) : State :=
  (s.modFde (fun d => d.forget p)).modPath p (fun h => { h with rstat := BitVec.ofNat 16 c })

@[simp] theorem State.rcmdStat_regs (s : State) (p : Path) (c : Nat) : (s.rcmdStat p c).regs = s.regs :=
  State.modPath_regs _ p _
@[simp] theorem State.rcmdStat_posted (s : State) (p : Path) (c : Nat) : (s.rcmdStat p c).posted = s.posted :=
  State.modPath_posted _ p _
@[simp] theorem State.rcmdStat_fde (s : State) (p : Path) (c : Nat) : (s.rcmdStat p c).fde = s.fde.forget p :=
  State.modPath_fde _ p _
@[simp] theorem State.rcmdStat_rstat (s : State) (p : Path) (c : Nat) :
    ((s.rcmdStat p c).path p).rstat = BitVec.ofNat 16 c := by
  simp [State.rcmdStat]

/-- The start that the form of a command names: APPLY_AT and PLATE_AT the instant of FDE_RTIME, the EVR forms a pulse. -/
def State.rcmdStart (s : State) (cmd : Nat) : StartAt :=
  if cmd = 2 ∨ cmd = 5 then .instant (instantMs (s.pair R.FDE_RTIME_LO) (s.fld F.FDE_RMS_MS))
  else if cmd = 3 ∨ cmd = 6 then .evr else .now

/-- The request of a PLATE command: a reference, whose words are read when it is taken (R92). -/
def State.rcmdPlateReq (s : State) (p : Path) (cmd plate : Nat) : QReq :=
  { lvl := pathLevel p, start := s.rcmdStart cmd, by_ := some p,
    plate := some { plate := plate, mask := s.fld F.FDE_RMASK_LAMPS,
                    fade := if (s.reg R.FDE_RT).toNat = 65535 then none else some (s.reg R.FDE_RT).toNat,
                    hold := (s.reg R.FDE_RHOLD).toNat } }

/-- The request of an APPLY command: the values of its registers for each lamp of the mask. -/
def State.rcmdValueReq (s : State) (p : Path) (cmd : Nat) : QReq :=
  { lvl := pathLevel p, start := s.rcmdStart cmd, by_ := some p,
    lamps := (maskLamps (s.fld F.FDE_RMASK_LAMPS)).map (fun l =>
      (l, valueReq (s.reg R.FDE_RB) (s.reg R.FDE_RC1) (s.reg R.FDE_RC2) (s.reg R.FDE_RT).toNat (s.reg R.FDE_RFLG)
        (s.reg R.FDE_RHOLD).toNat)) }

/-- The host may command the fade engine: it is declared (R110). -/
abbrev State.rcmdHosted (s : State) (p : Path) : Prop := p = .host → s.flag F.SYS_MODE_HOST = true

theorem State.rcmd_of_no_host {s : State} {p : Path} {cmd : Nat} (plate : Nat) (hc : cmd ≠ 0) (hp : p = .host)
    (hh : s.flag F.SYS_MODE_HOST = false) : s.rcmd p cmd plate = s.rcmdStat p 6 := by
  simp [State.rcmd, hc, hp, hh, State.rcmdStat]

theorem State.not_rcmdNoHost {s : State} {p : Path} (hh : s.rcmdHosted p) :
    ¬ (p = .host ∧ (!s.flag F.SYS_MODE_HOST) = true) := by
  rintro ⟨hp, hf⟩
  rw [hh hp] at hf
  exact absurd hf (by decide)

theorem State.rcmd_of_invalid {s : State} {p : Path} {cmd : Nat} (plate : Nat) (hc : cmd ≠ 0) (hh : s.rcmdHosted p)
    (h : s.fld F.FDE_RMASK_LAMPS = 0 ∨ ((cmd = 2 ∨ cmd = 5) ∧ 999 < s.fld F.FDE_RMS_MS)) :
    s.rcmd p cmd plate = s.rcmdStat p 5 := by
  unfold State.rcmd
  dsimp only
  rw [if_neg hc, if_neg (State.not_rcmdNoHost hh), if_pos h]
  rfl

/-- A command that is not refused at once: what it queues for the next tick. -/
theorem State.rcmd_of_taken {s : State} {p : Path} {cmd : Nat} (plate : Nat) (hc : cmd ≠ 0) (hh : s.rcmdHosted p)
    (hm : s.fld F.FDE_RMASK_LAMPS ≠ 0) (hms : cmd = 2 ∨ cmd = 5 → s.fld F.FDE_RMS_MS ≤ 999) :
    s.rcmd p cmd plate =
      if cmd = 7 then
        (s.rcmdStat p 1).releaseReq (pathLevel p) (s.fld F.FDE_RMASK_LAMPS) (s.reg R.FDE_RT).toNat (some p) none
      else if 4 ≤ cmd then (s.rcmdStat p 1).request (s.rcmdPlateReq p cmd plate)
      else (s.rcmdStat p 1).request (s.rcmdValueReq p cmd) := by
  have hvalid : ¬ (s.fld F.FDE_RMASK_LAMPS = 0 ∨ ((cmd = 2 ∨ cmd = 5) ∧ 999 < s.fld F.FDE_RMS_MS)) := by
    rintro (h | ⟨h, hlt⟩)
    · exact hm h
    · exact absurd (hms h) (by omega)
  unfold State.rcmd
  dsimp only
  rw [if_neg hc, if_neg (State.not_rcmdNoHost hh), if_neg hvalid]
  rfl

/-- A request is the last of those that wait, marked late where its instant has passed (R89). -/
theorem State.request_fde (s : State) (q : QReq) :
    ∃ late, (s.request q).fde = { s.fde with reqs := s.fde.reqs ++ [{ q with late := late }] } :=
  ⟨_, rfl⟩

@[simp] theorem State.request_regs (s : State) (q : QReq) : (s.request q).regs = s.regs := rfl
@[simp] theorem State.request_posted (s : State) (q : QReq) : (s.request q).posted = s.posted := rfl
@[simp] theorem State.request_path (s : State) (q : QReq) (p : Path) : (s.request q).path p = s.path p :=
  s.path_modFde p _

/-- Between `s` and `t` the command of FDE_RCMD on path `p` was refused with code `c` and queued nothing. -/
structure RcmdRefused (s t : State) (p : Path) (c : Nat) : Prop where
  rstat : (t.path p).rstat = BitVec.ofNat 16 c
  fde   : t.fde = s.fde.forget p
  regs  : t.regs = s.regs

/-- Between `s` and `t` the command of FDE_RCMD on path `p` was taken and queued `q`, late or not. -/
structure RcmdQueued (s t : State) (p : Path) (q : QReq) : Prop where
  rstat : (t.path p).rstat = 1
  regs  : t.regs = s.regs
  fde   : ∃ late, t.fde = { s.fde.forget p with reqs := (s.fde.forget p).reqs ++ [{ q with late := late }] }

section
variable {s : State} {p : Path}

theorem State.rcmdHosted_disarm (hh : s.rcmdHosted p) : (s.disarm p).rcmdHosted p :=
  fun hp => (s.disarm_flag p _).trans (hh hp)

theorem rcmdRefused_rcmdStat (c : Nat) : RcmdRefused s ((s.disarm p).rcmdStat p c) p c :=
  ⟨State.rcmdStat_rstat _ p c, by simp, by simp⟩

theorem rcmdQueued_request (q : QReq) : RcmdQueued s (((s.disarm p).rcmdStat p 1).request q) p q := by
  refine ⟨by simp, by simp, ?_⟩
  obtain ⟨late, h⟩ := ((s.disarm p).rcmdStat p 1).request_fde q
  refine ⟨late, ?_⟩
  rw [h, State.rcmdStat_fde, State.disarm_fde]

/-- A command of FDE_RCMD is a write of the register, with the code of its form. -/
theorem exec_rcmd {plate : Byte} (s : State) {c : Instr}
    (hc : c ∈ [Instr.fdeRcmdApply p, .fdeRcmdApplyAt p, .fdeRcmdApplyEvr p, .fdeRcmdPlate p plate,
      .fdeRcmdPlateAt p plate, .fdeRcmdPlateEvr p plate, .fdeRcmdRelease p]) :
    ∃ cmd pl, cmd ≠ 0 ∧ exec c s = done (s.onWrite p (fun t => t.rcmd p cmd pl)) := by
  simp only [List.mem_cons, List.not_mem_nil, or_false] at hc
  rcases hc with rfl | rfl | rfl | rfl | rfl | rfl | rfl
  · exact ⟨1, 0, by decide, rfl⟩
  · exact ⟨2, 0, by decide, rfl⟩
  · exact ⟨3, 0, by decide, rfl⟩
  · exact ⟨4, plate.toNat, by decide, rfl⟩
  · exact ⟨5, plate.toNat, by decide, rfl⟩
  · exact ⟨6, plate.toNat, by decide, rfl⟩
  · exact ⟨7, 0, by decide, rfl⟩

/-- The two timed commands are codes 2 and 5. -/
theorem exec_rcmd_timed {plate : Byte} (s : State) {c : Instr}
    (hc : c ∈ [Instr.fdeRcmdApplyAt p, .fdeRcmdPlateAt p plate]) :
    ∃ cmd pl, (cmd = 2 ∨ cmd = 5) ∧ exec c s = done (s.onWrite p (fun t => t.rcmd p cmd pl)) := by
  simp only [List.mem_cons, List.not_mem_nil, or_false] at hc
  rcases hc with rfl | rfl
  · exact ⟨2, 0, .inl rfl, rfl⟩
  · exact ⟨5, plate.toNat, .inr rfl, rfl⟩

/-- The commands that request something, with their starts, and whether they bring values (`true`) or name a plate. -/
abbrev rcmdForms (s : State) (p : Path) (plate : Byte) : List (Instr × StartAt × Bool) :=
  let at_ := StartAt.instant (instantMs (s.pair R.FDE_RTIME_LO) (s.fld F.FDE_RMS_MS))
  [(Instr.fdeRcmdApply p, StartAt.now, true), (.fdeRcmdApplyAt p, at_, true), (.fdeRcmdApplyEvr p, .evr, true),
    (.fdeRcmdPlate p plate, .now, false), (.fdeRcmdPlateAt p plate, at_, false), (.fdeRcmdPlateEvr p plate, .evr, false)]

theorem exec_rcmd_form {plate : Byte} (s : State) {x : Instr × StartAt × Bool} (hx : x ∈ rcmdForms s p plate) :
    ∃ cmd pl, cmd ≠ 0 ∧ cmd < 7 ∧ exec x.1 s = done (s.onWrite p (fun t => t.rcmd p cmd pl)) ∧
      x.2.1 = s.rcmdStart cmd ∧ ((x.2.2 = true ∧ cmd < 4) ∨ (x.2.2 = false ∧ 4 ≤ cmd ∧ pl = plate.toNat)) := by
  simp only [List.mem_cons, List.not_mem_nil, or_false] at hx
  rcases hx with rfl | rfl | rfl | rfl | rfl | rfl
  · exact ⟨1, 0, by decide, by decide, rfl, rfl, .inl ⟨rfl, by decide⟩⟩
  · exact ⟨2, 0, by decide, by decide, rfl, rfl, .inl ⟨rfl, by decide⟩⟩
  · exact ⟨3, 0, by decide, by decide, rfl, rfl, .inl ⟨rfl, by decide⟩⟩
  · exact ⟨4, plate.toNat, by decide, by decide, rfl, rfl, .inr ⟨rfl, by decide, rfl⟩⟩
  · exact ⟨5, plate.toNat, by decide, by decide, rfl, rfl, .inr ⟨rfl, by decide, rfl⟩⟩
  · exact ⟨6, plate.toNat, by decide, by decide, rfl, rfl, .inr ⟨rfl, by decide, rfl⟩⟩

variable {c : Instr} {cmd plate : Nat} {P : State → Prop}

/-- A command refused at once ends as it is answered. -/
theorem ends_rcmd_refused {code : Nat} (hs : s.Settled) (hup : s.pathUp p = true)
    (hc : exec c s = done (s.onWrite p (fun t => t.rcmd p cmd plate)))
    (hr : (s.disarm p).rcmd p cmd plate = (s.disarm p).rcmdStat p code)
    (hP : ∀ t, RcmdRefused s t p code → P t) : Ends c s P := by
  rw [State.onWrite_of_pathUp _ hup, hr] at hc
  exact ends_of_posted_nil hc (by simpa using hs.posted) (hP _ (rcmdRefused_rcmdStat code))

theorem ends_rcmd_invalid (hs : s.Settled) (hup : s.pathUp p = true)
    (hc : exec c s = done (s.onWrite p (fun t => t.rcmd p cmd plate))) (h0 : cmd ≠ 0) (hh : s.rcmdHosted p)
    (hbad : s.fld F.FDE_RMASK_LAMPS = 0 ∨ ((cmd = 2 ∨ cmd = 5) ∧ 999 < s.fld F.FDE_RMS_MS))
    (hP : ∀ t, RcmdRefused s t p 5 → P t) : Ends c s P :=
  ends_rcmd_refused hs hup hc
    (State.rcmd_of_invalid plate h0 (State.rcmdHosted_disarm hh) (by simpa only [State.disarm_fld] using hbad)) hP

/-- What a command that is taken leaves, by what it queues. -/
theorem ends_rcmd_taken (hs : s.Settled) (hup : s.pathUp p = true)
    (hc : exec c s = done (s.onWrite p (fun t => t.rcmd p cmd plate))) (h0 : cmd ≠ 0) (hh : s.rcmdHosted p)
    (hm : s.fld F.FDE_RMASK_LAMPS ≠ 0) (hms : cmd = 2 ∨ cmd = 5 → s.fld F.FDE_RMS_MS ≤ 999) (h7 : cmd < 7)
    (hP : ∀ t, RcmdQueued s t p (if 4 ≤ cmd then s.rcmdPlateReq p cmd plate else s.rcmdValueReq p cmd) → P t) :
    Ends c s P := by
  have hr := State.rcmd_of_taken (s := s.disarm p) plate h0 (State.rcmdHosted_disarm hh)
    (by simpa only [State.disarm_fld] using hm) (by simpa only [State.disarm_fld] using hms)
  have hq : (s.disarm p).rcmdPlateReq p cmd plate = s.rcmdPlateReq p cmd plate := by
    simp [State.rcmdPlateReq, State.rcmdStart]
  have hv : (s.disarm p).rcmdValueReq p cmd = s.rcmdValueReq p cmd := by
    simp [State.rcmdValueReq, State.rcmdStart]
  rw [if_neg (by omega : ¬ cmd = 7), hq, hv] at hr
  rw [State.onWrite_of_pathUp _ hup, hr] at hc
  split at hc
  · next h4 => rw [if_pos h4] at hP; exact ends_of_posted_nil hc (by simpa using hs.posted) (hP _ (rcmdQueued_request _))
  · next h4 => rw [if_neg h4] at hP; exact ends_of_posted_nil hc (by simpa using hs.posted) (hP _ (rcmdQueued_request _))

theorem ends_rcmd_release (hs : s.Settled) (hup : s.pathUp p = true) (hh : s.rcmdHosted p)
    (hm : s.fld F.FDE_RMASK_LAMPS ≠ 0) :
    Ends (.fdeRcmdRelease p) s (fun t => (t.path p).rstat = 1 ∧ t.regs = s.regs ∧
      t.fde = { s.fde.forget p with rels := (s.fde.forget p).rels ++
        [(pathLevel p, s.fld F.FDE_RMASK_LAMPS, (s.reg R.FDE_RT).toNat, some p, none)] }) := by
  have hr := State.rcmd_of_taken (s := s.disarm p) (cmd := 7) 0 (by decide) (State.rcmdHosted_disarm hh)
    (by simpa only [State.disarm_fld] using hm) (fun h => absurd h (by decide))
  rw [if_pos rfl] at hr
  have hc : exec (.fdeRcmdRelease p) s = done (s.onWrite p (fun t => t.rcmd p 7 0)) := rfl
  rw [State.onWrite_of_pathUp _ hup, hr] at hc
  exact ends_of_posted_nil hc (by simpa [State.releaseReq] using hs.posted) (by simp [State.releaseReq])

end

/-! The fade tables (R107). -/

section
variable {s : State} {p : Path}

/-- What a locked path writes to the port of the fade tables is without effect. -/
theorem ends_fdeTab_locked (hs : s.Settled) (hup : s.pathUp p = true) (hu : s.unlocked p = false) {c : Instr}
    (hc : c ∈ [Instr.fdeTabOpen p, .fdeTabClose p, .fdeTabSave p]) :
    Ends c s (fun t => t.regs = s.regs ∧ t.fde = s.fde ∧ t.vlt = s.vlt) := by
  have key : ∀ f : State → State, exec c s = done (s.onWrite p (fun t => if t.unlocked p then f t else t)) →
      Ends c s (fun t => t.regs = s.regs ∧ t.fde = s.fde ∧ t.vlt = s.vlt) := by
    intro f hf
    rw [State.onWrite_of_pathUp _ hup, State.disarm_unlocked, hu, if_neg (by decide)] at hf
    exact ends_of_posted_nil hf ((s.disarm_posted p).trans hs) ⟨s.disarm_regs p, s.disarm_fde p, s.disarm_vlt p⟩
  simp only [List.mem_cons, List.not_mem_nil, or_false] at hc
  rcases hc with rfl | rfl | rfl
  · exact key State.fdeOpen rfl
  · exact key State.fdeClose rfl
  · exact key State.fdeSave rfl

/-- A command of the port on an unlocked path ends as its operation does. -/
theorem exec_fdeTab_unlocked {c : Instr} (f : State → State) (hup : s.pathUp p = true) (hu : s.unlocked p = true)
    (hf : exec c s = done (s.onWrite p (fun t => if t.unlocked p then f t else t))) :
    exec c s = done (f (s.disarm p)) := by
  rwa [State.onWrite_of_pathUp _ hup, State.disarm_unlocked, hu, if_pos rfl] at hf

theorem State.fdeClose_of_passed {s : State} (hedit : s.flag F.FDE_STAT_EDIT = true) (hf : fdeFail s.fde.edit = none) :
    s.fdeClose = s.setFlag F.FDE_STAT_TABPEND true := by
  simp [State.fdeClose, hedit, hf]

/-- FDE_STAT, FDE_TERR and FDE_TERRA as a failed check leaves them, before TABERR is raised. -/
def State.fdeTerr (s : State) (c k a : Nat) : State :=
  ((s.setFlag F.FDE_STAT_TABPEND false).setReg R.FDE_TERR (BitVec.ofNat 16 (c * 4096 + k))).setReg R.FDE_TERRA
    (BitVec.ofNat 16 a)

theorem State.fdeClose_of_failed {s : State} (hedit : s.flag F.FDE_STAT_EDIT = true) {c k a : Nat}
    (hf : fdeFail s.fde.edit = some (c, k, a)) :
    s.fdeClose = ((s.fdeTerr c k a).fdeStick F.FDE_STAT_TABERR F.FDE_IRQEN_TABERR).post 9 6 (c * 4096 + k) := by
  simp [State.fdeClose, hedit, hf, State.fdeTerr]

theorem State.disarm_fdeFail (s : State) (p : Path) : fdeFail (s.disarm p).fde.edit = fdeFail s.fde.edit :=
  congrArg (fun d : FdeState => fdeFail d.edit) (s.disarm_fde p)

/-- What a close that finds a failing word leaves (R54, R107). -/
structure FdeCloseFailed (s t : State) (c k a : Nat) : Prop where
  taberr  : t.flag F.FDE_STAT_TABERR = true
  terr    : t.reg R.FDE_TERR = BitVec.ofNat 16 (c * 4096 + k)
  terra   : t.reg R.FDE_TERRA = BitVec.ofNat 16 a
  tabpend : t.flag F.FDE_STAT_TABPEND = false
  edit    : t.flag F.FDE_STAT_EDIT = s.flag F.FDE_STAT_EDIT
  fde     : t.fde = s.fde

/-- The words that the check reports stand beside FDE_STAT. -/
theorem State.reg_fdeStick_of_ne {s : State} {f en : Fld} {k : Nat} (hf : f.key = R.FDE_STAT)
    (hk : k = R.FDE_TERR ∨ k = R.FDE_TERRA) : (s.fdeStick f en).reg k = s.reg k := by
  have hirq : (s.fdeStick f en).reg k = (s.setFlag f true).reg k := by
    refine (s.fdeStick_touch_setFlag f en).reg_eq ?_ ?_ <;> rcases hk with rfl | rfl <;> decide +kernel
  refine hirq.trans (s.reg_setFlag_of_ne true ?_)
  rcases hk with rfl | rfl <;> rw [hf] <;> decide

theorem fdeCloseFailed_settle (s : State) (c k a : Nat) :
    FdeCloseFailed s (settle (((s.fdeTerr c k a).fdeStick F.FDE_STAT_TABERR F.FDE_IRQEN_TABERR).post 9 6
      (c * 4096 + k))) c k a := by
  refine ⟨?_, ?_, ?_, ?_, ?_, ?_⟩
  · rw [settle_flag _ (by decide), State.flag_post, State.flag_fdeStick _ rfl]
    exact State.flag_setFlag_self _ _ (by decide) rfl
  · rw [settle_reg _ (by decide), State.reg_post, State.reg_fdeStick_of_ne rfl (.inl rfl)]
    exact ((State.reg_setReg_of_ne _ _ (by decide)).trans (State.reg_setReg_self _ _ _))
  · rw [settle_reg _ (by decide), State.reg_post, State.reg_fdeStick_of_ne rfl (.inr rfl)]
    exact State.reg_setReg_self _ _ _
  · rw [settle_flag _ (by decide), State.flag_post, State.flag_fdeStick _ rfl, State.flag_setFlag_apart _ _ (by decide)]
    simp only [State.fdeTerr]
    rw [State.flag_setReg_of_ne _ _ (by decide), State.flag_setReg_of_ne _ _ (by decide)]
    exact State.flag_setFlag_self _ _ (by decide) rfl
  · rw [settle_flag _ (by decide), State.flag_post, State.flag_fdeStick _ rfl, State.flag_setFlag_apart _ _ (by decide)]
    simp only [State.fdeTerr]
    rw [State.flag_setReg_of_ne _ _ (by decide), State.flag_setReg_of_ne _ _ (by decide)]
    exact State.flag_setFlag_apart _ _ (by decide)
  · rw [settle_fde, State.post_fde, State.fdeStick_fde]
    rfl

/-! A save waits in the commit buffer (R107, R434). -/

/-- The first operation alone leaves the buffer list. -/
theorem mem_dropFirstOp {l : List VEntry} {e x : VEntry} (hfirst : l.find? VEntry.isOp = some x) (hne : e ≠ x)
    (h : e ∈ l) : e ∈ dropFirstOp l := by
  induction l with
  | nil => cases h
  | cons y l ih =>
    cases hy : y.isOp with
    | true =>
      obtain rfl : y = x := by simpa [List.find?_cons, hy] using hfirst
      simpa [dropFirstOp, hy, hne] using h
    | false =>
      have hfirst' : l.find? VEntry.isOp = some x := by simpa [List.find?_cons, hy] using hfirst
      rcases List.mem_cons.mp h with rfl | h
      · simp [dropFirstOp, hy]
      · simp [dropFirstOp, hy, ih hfirst' h]

/-- The vault's own work takes no entry out of the buffer but those that it carries out at once. -/
theorem mem_kickN (n : Nat) {v : VltState} {e : VEntry} (hop : ∀ w : VltState, e.direct w = false)
    (h : e ∈ v.buf) : e ∈ (kickN n v).buf := by
  induction n generalizing v with
  | zero => exact h
  | succ n ih =>
    unfold kickN
    split
    · next x _ hfirst =>
      split
      · next hdirect =>
        have hne : e ≠ x := by
          rintro rfl
          rw [hop] at hdirect
          exact absurd hdirect.1 (by decide)
        exact ih (mem_dropFirstOp hfirst hne h)
      · exact h
    · exact h

theorem State.mem_buf_vEnter (s : State) (e : VEntry) (hl : s.pwr.loss < 2) : e ∈ (s.vEnter e).vlt.buf := by
  rw [State.vEnter, if_neg (by omega)]
  simp

theorem State.mem_buf_vOperate (s : State) {e : VEntry} (hop : ∀ w : VltState, e.direct w = false)
    (hl : s.pwr.loss < 2) : e ∈ (s.vOperate e).vlt.buf := by
  unfold State.vOperate State.vKick
  split
  · exact mem_kickN _ hop (s.mem_buf_vEnter e hl)
  · exact s.mem_buf_vEnter e hl

theorem VltState.saves_of_mem {v : VltState} {owner : Nat} {b : Bank} (h : .bank false owner b ∈ v.buf) :
    v.saves owner = true :=
  List.any_eq_true.mpr ⟨_, h, beq_self_eq_true owner⟩

theorem State.flag_saveShow_fde (s : State) : s.saveShow.flag F.FDE_STAT_SAVEPEND = s.vlt.saves 7 := by
  unfold State.saveShow
  rw [State.flag_setFlag_of_ne _ _ (by decide)]
  exact State.flag_setFlag_self _ _ (by decide) rfl

theorem State.vRoom_loss {s : State} {n : Nat} (h : s.vRoom n = true) : s.pwr.loss < 2 := by
  simp only [State.vRoom, Bool.and_eq_true, decide_eq_true_eq] at h
  exact h.1

/-- With room in the commit buffer the save waits, and SAVEPEND shows it. -/
theorem State.flag_fdeSave_of_room {s : State} (h : s.vRoom 2 = true) :
    s.fdeSave.flag F.FDE_STAT_SAVEPEND = true := by
  rw [State.fdeSave, State.queueSave, if_pos h, State.flag_saveShow_fde]
  exact VltState.saves_of_mem (s.mem_buf_vOperate (fun _ => rfl) (State.vRoom_loss h))

theorem State.fdeSave_of_full {s : State} (h : s.vRoom 2 = false) : s.fdeSave = s.vRefuse 3 := by
  rw [State.fdeSave, State.queueSave, if_neg (by simp [h])]

/-- A refusal changes VLT_ERR and the status beside it, and no part of the state. -/
theorem State.vRefuse_touch_setFld (s : State) (code : Nat) :
    Touch State.vStickMask (s.setFld F.VLT_ERR_CODE code) (s.vRefuse code) :=
  State.vStick_touch Touch.refl (Sub.refl _)

theorem State.fld_vRefuse (s : State) (code : Nat) : (s.vRefuse code).fld F.VLT_ERR_CODE = code % 2 ^ 4 :=
  ((s.vRefuse_touch_setFld code).fld_eq (by decide) (by decide +kernel)).trans
    (s.fld_setFld_self code (by decide) (by decide))

@[simp] theorem State.vRefuse_vlt (s : State) (code : Nat) : (s.vRefuse code).vlt = s.vlt :=
  (s.vRefuse_touch_setFld code).vlt_eq (by decide +kernel) (by decide +kernel) (by decide +kernel) (by decide +kernel)

@[simp] theorem State.vRefuse_posted (s : State) (code : Nat) : (s.vRefuse code).posted = s.posted :=
  (s.vRefuse_touch_setFld code).posted_eq (by decide +kernel)

@[simp] theorem State.disarm_vRoom (s : State) (p : Path) (n : Nat) : (s.disarm p).vRoom n = s.vRoom n := by
  simp only [State.vRoom, State.disarm_pwr, State.disarm_vlt]

theorem ends_fdeTabOpen (hs : s.Settled) (hup : s.pathUp p = true) (hu : s.unlocked p = true) :
    Ends (.fdeTabOpen p) s (fun t => t.flag F.FDE_STAT_EDIT = true ∧ t.fde = { s.fde with edit := s.fde.active }) := by
  refine ends_of_posted_nil (exec_fdeTab_unlocked State.fdeOpen hup hu rfl) ?_ ⟨?_, ?_⟩
  · exact (s.disarm_posted p).trans hs
  · exact State.flag_setFlag_self _ _ (by decide) rfl
  · simp [State.fdeOpen]

theorem ends_fdeTabClose_unedited (hs : s.Settled) (hup : s.pathUp p = true) (hu : s.unlocked p = true)
    (hedit : s.flag F.FDE_STAT_EDIT = false) :
    Ends (.fdeTabClose p) s (fun t => t.regs = s.regs ∧ t.fde = s.fde) := by
  have hc := exec_fdeTab_unlocked (c := .fdeTabClose p) State.fdeClose hup hu rfl
  rw [State.fdeClose, State.disarm_flag, hedit, if_pos (by decide)] at hc
  exact ends_of_posted_nil hc ((s.disarm_posted p).trans hs) ⟨s.disarm_regs p, s.disarm_fde p⟩

theorem ends_fdeTabClose_passed (hs : s.Settled) (hup : s.pathUp p = true) (hu : s.unlocked p = true)
    (hedit : s.flag F.FDE_STAT_EDIT = true) (hf : fdeFail s.fde.edit = none) :
    Ends (.fdeTabClose p) s (fun t => t.flag F.FDE_STAT_TABPEND = true ∧ t.fde = s.fde) := by
  have hc := exec_fdeTab_unlocked (c := .fdeTabClose p) State.fdeClose hup hu rfl
  rw [State.fdeClose_of_passed ((s.disarm_flag p _).trans hedit) ((s.disarm_fdeFail p).trans hf)] at hc
  refine ends_of_posted_nil hc ((s.disarm_posted p).trans hs) ⟨?_, s.disarm_fde p⟩
  exact State.flag_setFlag_self _ _ (by decide) rfl

theorem ends_fdeTabClose_failed (hup : s.pathUp p = true) (hu : s.unlocked p = true)
    (hedit : s.flag F.FDE_STAT_EDIT = true) {c k a : Nat} (hf : fdeFail s.fde.edit = some (c, k, a)) :
    Ends (.fdeTabClose p) s (fun t => FdeCloseFailed (s.disarm p) t c k a) := by
  have hc := exec_fdeTab_unlocked (c := .fdeTabClose p) State.fdeClose hup hu rfl
  rw [State.fdeClose_of_failed ((s.disarm_flag p _).trans hedit) ((s.disarm_fdeFail p).trans hf)] at hc
  exact ends_done hc (fdeCloseFailed_settle (s.disarm p) c k a)

theorem ends_fdeTabSave_room (hup : s.pathUp p = true) (hu : s.unlocked p = true) (hr : s.vRoom 2 = true) :
    Ends (.fdeTabSave p) s (fun t => t.flag F.FDE_STAT_SAVEPEND = true) := by
  refine ends_done (exec_fdeTab_unlocked State.fdeSave hup hu rfl) ?_
  rw [settle_flag _ (by decide)]
  exact State.flag_fdeSave_of_room (by rwa [State.disarm_vRoom])

theorem ends_fdeTabSave_full (hs : s.Settled) (hup : s.pathUp p = true) (hu : s.unlocked p = true)
    (hr : s.vRoom 2 = false) :
    Ends (.fdeTabSave p) s (fun t => t.fld F.VLT_ERR_CODE = 3 ∧ t.vlt = s.vlt) := by
  have hc := exec_fdeTab_unlocked (c := .fdeTabSave p) State.fdeSave hup hu rfl
  rw [State.fdeSave_of_full (by rwa [State.disarm_vRoom])] at hc
  exact ends_of_posted_nil hc (by simpa using hs.posted) ⟨State.fld_vRefuse _ 3, by simp⟩

end

/-- Settles O17: a command of FDE_RCMD is refused at once or queues one request or release, and the port of the fade tables
acts on an unlocked path alone. -/
theorem lampRequestsAndFadeTables : Obligations.LampRequestsAndFadeTables := by
  unfold Obligations.LampRequestsAndFadeTables
  intro p plate s hs hup
  refine ⟨fun c hc => ?_, fun hh hms c hc => ?_, fun hh hm => ⟨fun x hx hms => ?_, ?_⟩, fun hu => ?_, fun hu c hc => ?_⟩
  · obtain ⟨cmd, pl, h0, he⟩ := exec_rcmd s hc
    refine ⟨fun hp hh => ?_, fun hh hm => ?_⟩
    · have hr : (s.disarm p).rcmd p cmd pl = (s.disarm p).rcmdStat p 6 :=
        State.rcmd_of_no_host pl h0 hp ((s.disarm_flag p _).trans hh)
      exact ends_rcmd_refused hs hup he hr fun t h => ⟨h.rstat, h.fde, h.regs⟩
    · exact ends_rcmd_invalid hs hup he h0 hh (.inl hm) fun t h => ⟨h.rstat, h.fde, h.regs⟩
  · obtain ⟨cmd, pl, hcmd, he⟩ := exec_rcmd_timed s hc
    exact ends_rcmd_invalid hs hup he (by omega) hh (.inr ⟨hcmd, hms⟩) fun t h => ⟨h.rstat, h.fde, h.regs⟩
  · obtain ⟨cmd, pl, h0, h7, he, hstart, hform⟩ := exec_rcmd_form s hx
    have htimed : cmd = 2 ∨ cmd = 5 → s.fld F.FDE_RMS_MS ≤ 999 := fun h =>
      hms (hstart.trans (if_pos h))
    refine ends_rcmd_taken hs hup he h0 hh hm htimed h7 fun t ⟨hrstat, hregs, late, hfde⟩ => ?_
    refine ⟨hrstat, hregs, ?_, _, by rw [hfde], ?_⟩
    · rw [hfde]
    · rcases hform with ⟨hv, hlt⟩ | ⟨hv, hge, rfl⟩
      · rw [if_neg (by omega), hv]
        exact ⟨rfl, hstart.symm, rfl, rfl, rfl, rfl⟩
      · rw [if_pos hge, hv]
        exact ⟨rfl, hstart.symm, rfl, rfl, rfl, rfl⟩
  · exact ends_rcmd_release hs hup hh hm
  · refine ⟨ends_fdeTabOpen hs hup hu, fun hedit => ⟨ends_fdeTabClose_passed hs hup hu hedit, fun c k a hf => ?_⟩,
      ends_fdeTabClose_unedited hs hup hu, ends_fdeTabSave_room hup hu, ends_fdeTabSave_full hs hup hu⟩
    obtain ⟨t, ht, h⟩ := ends_fdeTabClose_failed hup hu hedit hf
    exact ⟨t, ht, h.taberr, h.terr, h.terra, h.tabpend, h.edit.trans ((s.disarm_flag p _).trans hedit),
      h.fde.trans (s.disarm_fde p)⟩
  · exact ends_fdeTab_locked hs hup hu hc

end Sys2Proof.Machine
end

section
/-! PROOFS. The requests that the fade engine makes of itself, and the slots that it empties. -/

namespace Sys2Proof.Machine

set_option Elab.async false

/-! Requests (R92). -/

/-- A request of a plate at a level waits, to start with the next tick. -/
def State.Asks (t : State) (lvl : Nat) (plate : PlateRef) : Prop :=
  ∃ q ∈ t.fde.reqs, q.lvl = lvl ∧ q.start = .now ∧ q.plate = some plate

theorem State.Asks.mono {t u : State} {lvl : Nat} {plate : PlateRef} (h : t.Asks lvl plate)
    (hsub : ∀ q ∈ t.fde.reqs, q ∈ u.fde.reqs) : u.Asks lvl plate := by
  obtain ⟨q, hq, hrest⟩ := h
  exact ⟨q, hsub q hq, hrest⟩

theorem State.Asks.of_fde_eq {t u : State} {lvl : Nat} {plate : PlateRef} (h : t.Asks lvl plate)
    (he : u.fde = t.fde) : u.Asks lvl plate :=
  h.mono fun q hq => by rwa [he]

theorem State.mem_request {s : State} {q : QReq} (r : QReq) (h : q ∈ s.fde.reqs) : q ∈ (s.request r).fde.reqs :=
  List.mem_append_left _ h

theorem State.asks_request (s : State) (lvl : Nat) (plate : PlateRef) :
    (s.request { lvl := lvl, plate := some plate }).Asks lvl plate :=
  ⟨_, List.mem_append_right _ (List.mem_singleton_self _), rfl, rfl, rfl⟩

/-! Slots (R85, R86). -/

theorem State.flamp_modFlamp_of_ne (s : State) {l m : Nat} (f : FLamp → FLamp) (h : m ≠ l) :
    (s.modFlamp l f).flamp m = s.flamp m :=
  nthOf_modNth_other _ f h

@[simp] theorem State.modFlamp_lamps_length (s : State) (l : Nat) (f : FLamp → FLamp) :
    (s.modFlamp l f).fde.lamps.length = s.fde.lamps.length :=
  modNth_length _ l f

theorem getD_set_none {α : Type} (l : List (Option α)) (i : Nat) : (l.set i none).getD i none = none := by
  simp only [List.getD_eq_getElem?_getD, List.getElem?_set]
  split
  · split <;> rfl
  · contradiction

section
variable (s : State) (l k w : Nat)

theorem State.flamp_slotEmpty_of_ne {m : Nat} (h : m ≠ l) : (s.slotEmpty l k w).flamp m = s.flamp m := by
  unfold State.slotEmpty
  dsimp only
  split
  · rfl
  · split
    · rw [State.flamp_modFlamp_of_ne _ _ h, State.flamp_modFlamp_of_ne _ _ h]
    · exact State.flamp_modFlamp_of_ne _ _ h

@[simp] theorem State.slotEmpty_lamps_length : (s.slotEmpty l k w).fde.lamps.length = s.fde.lamps.length := by
  unfold State.slotEmpty
  dsimp only
  split
  · rfl
  · split <;> simp

@[simp] theorem State.slotEmpty_posted : (s.slotEmpty l k w).posted = s.posted :=
  (State.slotEmpty_touch Touch.refl (Sub.refl _)).posted_eq (by decide +kernel)

theorem State.slot_slotEmpty_self (h : l < s.fde.lamps.length) : ((s.slotEmpty l k w).flamp l).slot k = none := by
  unfold State.slotEmpty
  dsimp only
  split
  · next hnone => exact Option.isNone_iff_eq_none.mp hnone
  · split
    · rw [State.flamp_modFlamp_self _ _ (by simpa using h), State.flamp_modFlamp_self _ _ h]
      exact getD_set_none _ k
    · rw [State.flamp_modFlamp_self _ _ h]
      exact getD_set_none _ k

end

/-- A slot that is emptied, and the lamps beside it. -/
theorem ends_slotEmpty {c : Instr} {s : State} {l k w : Nat} (hs : s.Settled) (hl : l < s.fde.lamps.length)
    (hc : exec c s = done (s.slotEmpty l k w)) :
    Ends c s (fun t => (t.flamp l).slot k = none ∧ ∀ m, m ≠ l → t.flamp m = s.flamp m) :=
  ends_of_posted_nil hc (by simpa using hs.posted)
    ⟨s.slot_slotEmpty_self l k w hl, fun _ hm => s.flamp_slotEmpty_of_ne l k w hm⟩

/-- Lamp `l` after a pass over several lamps, each step of which changes its own lamp at most. -/
theorem flamp_foldl_of_not_mem {f : State → Nat → State} (hother : ∀ t l m, m ≠ l → (f t l).flamp m = t.flamp m)
    {ls : List Nat} {l : Nat} (h : l ∉ ls) (s : State) : (ls.foldl f s).flamp l = s.flamp l := by
  induction ls generalizing s with
  | nil => rfl
  | cons a ls ih =>
    obtain ⟨hne, hmem⟩ := not_or.mp (mt List.mem_cons.mpr h)
    exact (ih hmem _).trans (hother s a l hne)

theorem flamp_foldl_of_mem {f : State → Nat → State} (hother : ∀ t l m, m ≠ l → (f t l).flamp m = t.flamp m)
    (hlen : ∀ t l, (f t l).fde.lamps.length = t.fde.lamps.length) {ls : List Nat} (hnd : ls.Nodup) {l : Nat}
    (h : l ∈ ls) (s : State) :
    ∃ u : State, u.flamp l = s.flamp l ∧ u.fde.lamps.length = s.fde.lamps.length ∧
      (ls.foldl f s).flamp l = (f u l).flamp l := by
  induction ls generalizing s with
  | nil => cases h
  | cons a ls ih =>
    obtain ⟨ha, hnd⟩ := List.nodup_cons.mp hnd
    rcases List.mem_cons.mp h with rfl | h
    · exact ⟨s, rfl, rfl, flamp_foldl_of_not_mem hother ha _⟩
    · obtain ⟨u, hu, hul, he⟩ := ih hnd h (f s a)
      have hne : l ≠ a := fun e => ha (e ▸ h)
      exact ⟨u, hu.trans (hother s a l hne), hul.trans (hlen s a), he⟩

/-- The end of rule `r`'s hold at lamp `l`, in a state `t` reached from `s` by the lamps before (R100). -/
def State.ruleEmpty (s : State) (r w : Nat) (t : State) (l : Nat) : State :=
  match (s.flamp l).slot 2 with
  | some x => if x.rule = some r ∧ x.holdOver then t.slotEmpty l 2 w else t
  | none => t

/-- The word that rule `r` reverts with. -/
def State.revertWord (s : State) (r : Nat) : Nat :=
  if (fdeAt s.fde.active 3 (8 * r + 6)).toNat = 65535 then (s.reg R.FDE_REL).toNat
  else (fdeAt s.fde.active 3 (8 * r + 6)).toNat

theorem State.ruleHoldEnd_eq (s : State) (r : Nat) :
    s.ruleHoldEnd r = (List.range 8).foldl (s.ruleEmpty r (s.revertWord r)) s := rfl

section
variable {s : State} {r w l : Nat}

theorem State.ruleEmpty_of_over (t : State) {x : Slot} (hx : (s.flamp l).slot 2 = some x) (hr : x.rule = some r)
    (ho : x.holdOver = true) : s.ruleEmpty r w t l = t.slotEmpty l 2 w := by
  simp [State.ruleEmpty, hx, hr, ho]

theorem State.ruleEmpty_of_not_over (t : State)
    (h : ∀ x, (s.flamp l).slot 2 = some x → ¬ (x.rule = some r ∧ x.holdOver = true)) : s.ruleEmpty r w t l = t := by
  unfold State.ruleEmpty
  split
  · next x hx => exact if_neg (h x hx)
  · rfl

/-- A step of the pass is the emptying of a slot or nothing. -/
theorem State.ruleEmpty_cases (s : State) (r w : Nat) (t : State) (l : Nat) :
    s.ruleEmpty r w t l = t.slotEmpty l 2 w ∨ s.ruleEmpty r w t l = t := by
  unfold State.ruleEmpty
  split
  · split
    · exact .inl rfl
    · exact .inr rfl
  · exact .inr rfl

theorem State.flamp_ruleEmpty_of_ne (t : State) (l m : Nat) (h : m ≠ l) :
    (s.ruleEmpty r w t l).flamp m = t.flamp m := by
  rcases s.ruleEmpty_cases r w t l with he | he <;> rw [he]
  exact t.flamp_slotEmpty_of_ne l 2 w h

theorem State.ruleEmpty_lamps_length (t : State) (l : Nat) :
    (s.ruleEmpty r w t l).fde.lamps.length = t.fde.lamps.length := by
  rcases s.ruleEmpty_cases r w t l with he | he <;> rw [he]
  exact t.slotEmpty_lamps_length l 2 w

/-- Lamp `l` after the end of rule `r`'s hold is as its own step of the pass leaves it. -/
theorem State.flamp_ruleHoldEnd (s : State) (r : Nat) (hl : l < 8) :
    ∃ u : State, u.flamp l = s.flamp l ∧ u.fde.lamps.length = s.fde.lamps.length ∧
      (s.ruleHoldEnd r).flamp l = (s.ruleEmpty r (s.revertWord r) u l).flamp l := by
  rw [State.ruleHoldEnd_eq]
  exact flamp_foldl_of_mem State.flamp_ruleEmpty_of_ne State.ruleEmpty_lamps_length List.nodup_range
    (List.mem_range.mpr hl) s

end

theorem ends_ruleHoldEnd {s : State} (hs : s.Settled) (hlen : s.fde.lamps.length = 8) (r : Fin 32) :
    Ends (.ruleHoldEnd r) s (fun t => ∀ l, l < 8 →
      (∀ x, (s.flamp l).slot 2 = some x → x.rule = some r.val → x.holdOver = true → (t.flamp l).slot 2 = none) ∧
      ((∀ x, (s.flamp l).slot 2 = some x → ¬ (x.rule = some r.val ∧ x.holdOver = true)) → t.flamp l = s.flamp l)) := by
  have hposted : (s.ruleHoldEnd r).posted = [] :=
    ((State.ruleHoldEnd_touch Touch.refl (Sub.refl _)).posted_eq (by decide +kernel)).trans hs.posted
  refine ends_of_posted_nil rfl hposted fun l hl => ?_
  obtain ⟨u, hu, hul, he⟩ := s.flamp_ruleHoldEnd r hl
  refine ⟨fun x hx hr ho => ?_, fun h => ?_⟩
  · rw [he, State.ruleEmpty_of_over u hx hr ho]
    exact u.slot_slotEmpty_self l 2 _ (by omega)
  · rw [he, State.ruleEmpty_of_not_over u h, hu]

/-! Ends of holds and starts that are due. -/

section
variable {s : State}

/-- The word that the end of a slot's hold reverts with (R86). -/
def State.holdWord (s : State) (x : Slot) : Nat :=
  let w := match x.rule with
    | some r => (fdeAt s.fde.active 3 (8 * r + 6)).toNat
    | none => 65535
  if w = 65535 then (s.reg R.FDE_REL).toNat else w

theorem State.holdEnd_of_over {l k : Nat} {x : Slot} (hx : (s.flamp l).slot k = some x) (ho : x.holdOver = true) :
    s.holdEnd l k = s.slotEmpty l k (s.holdWord x) := by
  unfold State.holdEnd
  split
  · next y hy =>
    obtain rfl : y = x := Option.some.inj (hy.symm.trans hx)
    rw [ho]
    rfl
  · next hnone => exact absurd (hx.symm.trans hnone) (by simp)

theorem State.holdEnd_of_not_over {l k : Nat} (h : ∀ x, (s.flamp l).slot k = some x → x.holdOver = false) :
    s.holdEnd l k = s := by
  unfold State.holdEnd
  split
  · next x hx => rw [h x hx]; rfl
  · rfl

theorem ends_slotHoldExpiry (hs : s.Settled) (hlen : s.fde.lamps.length = 8) (l k : Fin 8) {x : Slot}
    (hx : (s.flamp l).slot k = some x) (ho : x.holdOver = true) :
    Ends (.slotHoldExpiry l k) s (fun t => (t.flamp l).slot k = none ∧ ∀ m, m ≠ l.val → t.flamp m = s.flamp m) :=
  ends_slotEmpty hs (by omega) (congrArg done (State.holdEnd_of_over hx ho))

theorem exec_slotHoldExpiry_of_not_over (hs : s.Settled) (l k : Fin 8)
    (h : ∀ x, (s.flamp l).slot k = some x → x.holdOver = false) : exec (.slotHoldExpiry l k) s = .next s :=
  exec_next_of_done_self hs (congrArg done (State.holdEnd_of_not_over h))

theorem ends_gestureHoldExpiry (hs : s.Settled) (hlen : s.fde.lamps.length = 8) (l : Fin 8) {x : Slot}
    (hx : (s.flamp l).slot 6 = some x) (ho : s.gesExpired x.wrote = true) :
    Ends (.gestureHoldExpiry l) s (fun t => (t.flamp l).slot 6 = none ∧ ∀ m, m ≠ l.val → t.flamp m = s.flamp m) := by
  have hc : exec (.gestureHoldExpiry l) s = done (s.slotEmpty l 6 (s.reg R.FDE_REL).toNat) := by
    change execGestureHoldExpiry l s = _
    simp only [execGestureHoldExpiry, hx, ho, if_true]
  exact ends_slotEmpty hs (by omega) hc

theorem exec_gestureHoldExpiry_of_not_over (hs : s.Settled) (l : Fin 8)
    (h : ∀ x, (s.flamp l).slot 6 = some x → s.gesExpired x.wrote = false) : exec (.gestureHoldExpiry l) s = .next s := by
  refine exec_next_of_done_self hs ?_
  change execGestureHoldExpiry l s = _
  unfold execGestureHoldExpiry
  split
  · next x hx => rw [h x hx]; rfl
  · rfl

theorem exec_timedStartDue {l : Fin 8} {y : Nat × StartAt × LampReq} (hy : (s.flamp l).pend = some y) {i : Nat}
    (hi : y.2.1 = .instant i) :
    exec (.timedStartDue l) s =
      done (if s.dueNow (.instant i) then s.modFlamp l (fun z => { z with due := true }) else s) := by
  obtain ⟨k, st, q⟩ := y
  obtain rfl : st = .instant i := hi
  change execTimedStartDue l s = _
  simp only [execTimedStartDue, hy]

theorem ends_timedStartDue (hs : s.Settled) (hlen : s.fde.lamps.length = 8) {l : Fin 8} {y : Nat × StartAt × LampReq}
    (hy : (s.flamp l).pend = some y) {i : Nat} (hi : y.2.1 = .instant i) (hd : s.dueNow (.instant i) = true) :
    Ends (.timedStartDue l) s (fun t => (t.flamp l).due = true ∧ (t.flamp l).pend = (s.flamp l).pend) := by
  have hc := exec_timedStartDue hy hi
  rw [if_pos hd] at hc
  have hlamp := s.flamp_modFlamp_self (fun z => { z with due := true }) (n := l) (by omega)
  exact ends_of_posted_nil hc hs ⟨by rw [hlamp], by rw [hlamp]⟩

theorem exec_timedStartDue_of_not_due (hs : s.Settled) {l : Fin 8} {y : Nat × StartAt × LampReq}
    (hy : (s.flamp l).pend = some y) {i : Nat} (hi : y.2.1 = .instant i) (hd : s.dueNow (.instant i) = false) :
    exec (.timedStartDue l) s = .next s := by
  refine exec_next_of_done_self hs ((exec_timedStartDue hy hi).trans ?_)
  rw [if_neg (by simp [hd])]

end

end Sys2Proof.Machine
end

section
/-! PROOFS. Schedule minutes, gestures and LOSS: what each asks of the fade engine. -/

namespace Sys2Proof.Machine

set_option Elab.async false

/-! Schedule minutes (R95, R334). -/

section
variable {s : State}

/-- Schedule entry `e` on local minute `m`, in a state `t` reached from `s` by the entries before. -/
def State.fireEntry (s : State) (m : Int) (t : State) (e : Nat) : State :=
  if fireMinute s.fde.active e (m.toNat / 1440) = some (m.toNat % 1440) then
    t.request { lvl := 1, plate := some (t.entryPlate e (getBits (fdeAt s.fde.active 2 (8 * e + 1)) 15 8)) }
  else t

theorem State.minuteEval_eq {m : Int} (hsch : s.flag F.FDE_CTL_SCHEN = true) (hm : 0 ≤ m) :
    s.minuteEval m = (List.range 128).foldl (s.fireEntry m) s := by
  rw [State.minuteEval, if_pos ⟨hsch, hm⟩]
  rfl

theorem State.fireEntry_active (m : Int) (t : State) (e : Nat) : (s.fireEntry m t e).fde.active = t.fde.active := by
  unfold State.fireEntry
  split <;> rfl

theorem State.mem_fireEntry {m : Int} {t : State} {e : Nat} {q : QReq} (h : q ∈ t.fde.reqs) :
    q ∈ (s.fireEntry m t e).fde.reqs := by
  unfold State.fireEntry
  split
  · exact State.mem_request _ h
  · exact h

theorem State.mem_foldl_fireEntry {m : Int} {t : State} {es : List Nat} {q : QReq} (h : q ∈ t.fde.reqs) :
    q ∈ (es.foldl (s.fireEntry m) t).fde.reqs := by
  induction es generalizing t with
  | nil => exact h
  | cons e es ih => exact ih (State.mem_fireEntry h)

/-- The plate that schedule entry `e` names, for the lamps that it names (R94). -/
abbrev State.firePlate (s : State) (e : Nat) : PlateRef :=
  s.entryPlate e (getBits (fdeAt s.fde.active 2 (8 * e + 1)) 15 8)

theorem State.fireEntry_asks {m : Int} {t : State} {e : Nat} (hact : t.fde.active = s.fde.active)
    (hfire : fireMinute s.fde.active e (m.toNat / 1440) = some (m.toNat % 1440)) :
    (s.fireEntry m t e).Asks 1 (s.firePlate e) := by
  have hplate : t.entryPlate e (getBits (fdeAt s.fde.active 2 (8 * e + 1)) 15 8) = s.firePlate e := by
    simp only [State.entryPlate, hact]
  rw [State.fireEntry, if_pos hfire, hplate]
  exact t.asks_request 1 _

/-- An entry of those evaluated that fires asks for its plate. -/
theorem State.foldl_fireEntry_asks {m : Int} {t : State} {es : List Nat} {e : Nat} (he : e ∈ es)
    (hact : t.fde.active = s.fde.active)
    (hfire : fireMinute s.fde.active e (m.toNat / 1440) = some (m.toNat % 1440)) :
    (es.foldl (s.fireEntry m) t).Asks 1 (s.firePlate e) := by
  induction es generalizing t with
  | nil => cases he
  | cons a es ih =>
    rcases List.mem_cons.mp he with rfl | he
    · rw [List.foldl_cons]
      exact (State.fireEntry_asks hact hfire).mono fun q hq => State.mem_foldl_fireEntry hq
    · exact ih he ((State.fireEntry_active m t a).trans hact)

theorem State.minuteEval_asks {m : Int} {e : Nat} (hsch : s.flag F.FDE_CTL_SCHEN = true) (hm : 0 ≤ m) (he : e < 128)
    (hfire : fireMinute s.fde.active e (m.toNat / 1440) = some (m.toNat % 1440)) :
    (s.minuteEval m).Asks 1 (s.firePlate e) := by
  rw [State.minuteEval_eq hsch hm]
  exact State.foldl_fireEntry_asks (List.mem_range.mpr he) rfl hfire

/-- Minutes are evaluated now: network time has been valid, and no replay follows on the next tick (R96). -/
abbrev State.minutesOn (s : State) : Prop :=
  s.flag F.FDE_STAT_TVALID = true ∧ s.tim.jump = false ∧ s.fde.replay = false

theorem State.minutesDue_of_off
    (h : s.flag F.FDE_STAT_TVALID = false ∨ s.tim.jump = true ∨ s.fde.replay = true) : s.minutesDue = s := by
  rw [State.minutesDue, if_pos (by simpa using h)]

theorem State.not_minutesOff (h : s.minutesOn) :
    ¬ ((!s.flag F.FDE_STAT_TVALID) = true ∨ s.tim.jump = true ∨ s.fde.replay = true) := by
  obtain ⟨htv, hj, hr⟩ := h
  simp [htv, hj, hr]

theorem State.minutesDue_of_last (h : s.minutesOn) {last : Int} (hm : s.fde.minute = some last) :
    s.minutesDue =
      if last < s.localMinute then
        (s.minutesEval (last + 1) (s.localMinute - last).toNat).modFde (fun d => { d with minute := some s.localMinute })
      else s := by
  rw [State.minutesDue, if_neg (State.not_minutesOff h)]
  simp only [hm]

theorem State.minutesDue_of_none (h : s.minutesOn) (hm : s.fde.minute = none) : s.minutesDue = s := by
  rw [State.minutesDue, if_neg (State.not_minutesOff h)]
  simp only [hm]

theorem State.minutesDue_posted (s : State) : s.minutesDue.posted = s.posted :=
  (State.minutesDue_touch Touch.refl (Sub.refl _)).posted_eq (by decide +kernel)

theorem ends_scheduleMinute {P : State → Prop} (hs : s.Settled) (hP : P s.minutesDue) : Ends .scheduleMinute s P :=
  ends_of_posted_nil rfl (s.minutesDue_posted.trans hs) hP

theorem exec_scheduleMinute_of_self (hs : s.Settled) (h : s.minutesDue = s) : exec .scheduleMinute s = .next s :=
  exec_next_of_done_self hs (congrArg done h)

/-- The minute after the last one evaluated is the present one: it alone is evaluated. -/
theorem State.minutesDue_asks (h : s.minutesOn) (hm : s.fde.minute = some (s.localMinute - 1))
    (hsch : s.flag F.FDE_CTL_SCHEN = true) (h0 : 0 ≤ s.localMinute) {e : Nat} (he : e < 128)
    (hfire : fireMinute s.fde.active e (s.localMinute.toNat / 1440) = some (s.localMinute.toNat % 1440)) :
    s.minutesDue.Asks 1 (s.firePlate e) := by
  have hn : (s.localMinute - (s.localMinute - 1)).toNat = 1 := by omega
  rw [State.minutesDue_of_last h hm, if_pos (by omega), hn, Int.sub_add_cancel]
  exact (State.minuteEval_asks hsch h0 he hfire).mono fun q hq => hq

end

/-! Gestures (R101, R102). -/

/-- One record posted enters Q6 behind what it holds. -/
theorem settle_q6_of_posted_one {s : State} {r : EvRec} (hp : s.posted = [r]) (hq : s.q6.length < 64) :
    (settle s).q6 = s.q6 ++ [r] := by
  have hirq : ∀ (u : State) n, (u.irq n).q6 = u.q6 := fun u n =>
    (State.irq_touch Touch.refl (Sub.refl _)).q6_eq (by decide +kernel)
  simp only [settle, hp, sortRecs, List.foldl_cons, List.foldl_nil, insertRec, State.enterQ6]
  rw [if_pos hq, hirq]

section
variable {s : State}

/-- A gesture is complete (R101): taps counted, and 2 s passed since the last return of mains. -/
abbrev State.gestureDone (s : State) : Prop :=
  s.keep.taps ≠ 0 ∧ s.keep.off = false ∧ s.pwr.boot ≠ 0 ∧ s.keep.lastRet + 2 * 2 ^ 48 ≤ s.keep.elapsed

/-- The taps are taken, and HC39 rises for 1 to 4 of them (R425). -/
def State.gestureTaken (s : State) : State :=
  let t := s.modKeep (fun k => { k with taps := 0 })
  if s.keep.taps ≤ 4 then t.hatInc 39 1 else t

theorem exec_gestureComplete (h : s.gestureDone) :
    exec .gestureComplete s = done (s.gestureTaken.gestureAct s.keep.taps) := by
  obtain ⟨htaps, hoff, hboot, ht⟩ := h
  have hn : ¬ (s.keep.taps = 0 ∨ s.keep.off = true ∨ s.pwr.boot = 0 ∨ s.keep.elapsed < s.keep.lastRet + 2 * 2 ^ 48) := by
    simp only [htaps, hoff, hboot, false_or, Bool.false_eq_true]
    omega
  change execGestureComplete s = _
  unfold execGestureComplete
  dsimp only
  rw [if_neg hn]
  rfl

theorem exec_gestureComplete_of_not_done (hs : s.Settled)
    (h : s.keep.taps = 0 ∨ s.keep.off = true ∨ s.pwr.boot = 0 ∨ s.keep.elapsed < s.keep.lastRet + 2 * 2 ^ 48) :
    exec .gestureComplete s = .next s := by
  refine exec_next_of_done_self hs ?_
  change execGestureComplete s = _
  unfold execGestureComplete
  dsimp only
  rw [if_pos h]

/-- Taking the taps leaves the fade engine, its registers and the records; the vault takes the increment. -/
theorem State.gestureTaken_touch (s : State) :
    Touch State.hatIncMask (s.modKeep (fun k => { k with taps := 0 })) s.gestureTaken := by
  unfold State.gestureTaken
  dsimp only
  split
  · exact State.hatInc_touch Touch.refl (Sub.refl _)
  · exact Touch.refl

theorem State.gestureTaken_fde (s : State) : s.gestureTaken.fde = s.fde :=
  (s.gestureTaken_touch.fde_eq (by decide +kernel)).trans rfl

theorem State.gestureTaken_posted (s : State) : s.gestureTaken.posted = s.posted :=
  (s.gestureTaken_touch.posted_eq (by decide +kernel)).trans rfl

theorem State.gestureTaken_q6 (s : State) : s.gestureTaken.q6 = s.q6 :=
  (s.gestureTaken_touch.q6_eq (by decide +kernel)).trans rfl

theorem State.gestureTaken_taps (s : State) : s.gestureTaken.keep.taps = 0 :=
  congrArg KeepState.taps (s.gestureTaken_touch.keep_eq (by decide +kernel))

theorem State.gestureTaken_flag (s : State) {f : Fld} (h : f.key = R.FDE_CTL) :
    s.gestureTaken.flag f = s.flag f :=
  (s.gestureTaken_touch.flag_eq (by rw [h]; decide) (by rw [h]; decide +kernel)).trans rfl

theorem State.gestureTaken_fld (s : State) {f : Fld} (h : f.key = R.FDE_GES) : s.gestureTaken.fld f = s.fld f :=
  (s.gestureTaken_touch.fld_eq (by rw [h]; decide) (by rw [h]; decide +kernel)).trans rfl

theorem State.gestureAct_of_many {n : Nat} (h : 4 < n) : s.gestureAct n = s.post 9 4 n := by
  rw [State.gestureAct, if_pos h]

theorem State.gestureAct_of_off {n : Nat} (hn : n ≤ 4) (h : s.flag F.FDE_CTL_GESEN = false) : s.gestureAct n = s := by
  rw [State.gestureAct, if_neg (by omega), if_pos (by simp [h])]

/-- Action 1 asks for its plate at level 6. -/
theorem State.gestureAct_asks {n : Nat} (h0 : n ≠ 0) (hn : n ≤ 4) (hen : s.flag F.FDE_CTL_GESEN = true)
    (hact : getBits (fdeAt s.fde.active 6 (n - 1)) 15 12 = 1) :
    (s.gestureAct n).Asks 6
      { plate := getBits (fdeAt s.fde.active 6 (n - 1)) 7 0, mask := s.fld F.FDE_GES_LAMPS } := by
  rw [State.gestureAct, if_neg (by omega), if_neg (by simp [h0, hen])]
  simp only [hact]
  exact (s.asks_request 6 _).of_fde_eq rfl

theorem State.gestureAct_keep (s : State) (n : Nat) : (s.gestureAct n).keep = s.keep :=
  (State.gestureAct_touch Touch.refl (Sub.refl _)).keep_eq (by decide +kernel)

theorem State.gestureAct_fde_of_many_or_off {n : Nat} (h : 4 < n ∨ s.flag F.FDE_CTL_GESEN = false) :
    (s.gestureAct n).fde = s.fde := by
  by_cases hn : 4 < n
  · rw [State.gestureAct_of_many hn]
    rfl
  · rw [State.gestureAct_of_off (by omega) (h.resolve_left hn)]

theorem ends_gestureComplete (h : s.gestureDone) :
    Ends .gestureComplete s (fun t => t.keep.taps = 0 ∧ (s.flag F.FDE_CTL_GESEN = false → t.fde = s.fde)) := by
  refine ends_done (exec_gestureComplete h) ⟨?_, fun hen => ?_⟩
  · rw [settle_keep, State.gestureAct_keep, s.gestureTaken_taps]
  · rw [settle_fde, State.gestureAct_fde_of_many_or_off (.inr ((s.gestureTaken_flag rfl).trans hen)),
      s.gestureTaken_fde]

/-- A gesture of more than 4 taps is logged and does nothing else (R101, R109). -/
theorem ends_gestureComplete_many (hs : s.Settled) (h : s.gestureDone) (hn : 4 < s.keep.taps) (hq : s.q6 = []) :
    Ends .gestureComplete s (fun t => t.fde = s.fde ∧
      ∃ r ∈ t.q6, r.cls = 9 ∧ r.ev = 4 ∧ r.detail = s.keep.taps % 65536) := by
  refine ends_done (exec_gestureComplete h) ⟨?_, ?_⟩
  · rw [settle_fde, State.gestureAct_fde_of_many_or_off (.inl hn), s.gestureTaken_fde]
  · have hposted : (s.gestureTaken.post 9 4 s.keep.taps).posted = [s.gestureTaken.stamp 9 4 s.keep.taps] := by
      simp only [State.post, s.gestureTaken_posted, hs.posted, List.nil_append]
    have hlen : (s.gestureTaken.post 9 4 s.keep.taps).q6.length < 64 := by
      rw [State.post_q6, s.gestureTaken_q6, hq]
      decide
    rw [State.gestureAct_of_many hn, settle_q6_of_posted_one hposted hlen]
    exact ⟨_, List.mem_append_right _ (List.mem_singleton_self _), rfl, rfl, rfl⟩

theorem ends_gestureComplete_apply (h : s.gestureDone) (hn : s.keep.taps ≤ 4)
    (hen : s.flag F.FDE_CTL_GESEN = true) (hact : getBits (fdeAt s.fde.active 6 (s.keep.taps - 1)) 15 12 = 1) :
    Ends .gestureComplete s (fun t => t.Asks 6
      { plate := getBits (fdeAt s.fde.active 6 (s.keep.taps - 1)) 7 0, mask := s.fld F.FDE_GES_LAMPS }) := by
  have hasks := State.gestureAct_asks (s := s.gestureTaken) h.1 hn ((s.gestureTaken_flag rfl).trans hen)
    (by rw [s.gestureTaken_fde]; exact hact)
  rw [s.gestureTaken_fde, s.gestureTaken_fld rfl] at hasks
  exact ends_done (exec_gestureComplete h) (hasks.of_fde_eq (settle_fde _))

end

/-! LOSS (R105). -/

section
variable {s : State}

/-- The node has missed as many benches as FDE_LOSS says, and is not in LOSS. -/
abbrev State.lossDue (s : State) : Prop :=
  s.fld F.FDE_LOSS_LOSST ≠ 0 ∧ s.isHead = false ∧ s.fld F.FDE_LOSS_LOSST ≤ (s.reg R.MAC_BSINCE).toNat ∧
    s.flag F.FDE_STAT_LOSS = false

/-- LOSS with its request, before its sticky bit and its record. -/
def State.lossTaken (s : State) : State :=
  ((s.request { lvl := 7, plate := some { plate := s.fld F.FDE_LOSS_PLATE, mask := s.fld F.FDE_LOSSM_LAMPS } }).modFde
    (fun d => { d with lossM := s.fld F.FDE_LOSSM_LAMPS })).setFlag F.FDE_STAT_LOSS true

theorem State.lossEnter_of_due (h : s.lossDue) :
    s.lossEnter = (s.lossTaken.fdeStick F.FDE_STAT_LOSSCH F.FDE_IRQEN_LOSSCH).post 9 1 (s.fld F.FDE_LOSSM_LAMPS) := by
  obtain ⟨hn, hh, hb, hl⟩ := h
  unfold State.lossEnter
  dsimp only
  rw [if_pos ⟨hn, by simp [hh], hb, by simp [hl]⟩]
  rfl

theorem State.lossEnter_of_not_due (h : s.fld F.FDE_LOSS_LOSST = 0 ∨ s.isHead = true ∨
    (s.reg R.MAC_BSINCE).toNat < s.fld F.FDE_LOSS_LOSST ∨ s.flag F.FDE_STAT_LOSS = true) : s.lossEnter = s := by
  unfold State.lossEnter
  dsimp only
  rw [if_neg]
  rintro ⟨hn, hh, hb, hl⟩
  rcases h with h | h | h | h
  · exact hn h
  · simp [h] at hh
  · omega
  · simp [h] at hl

theorem ends_lossEntry (h : s.lossDue) :
    Ends .lossEntry s (fun t => t.flag F.FDE_STAT_LOSS = true ∧ t.flag F.FDE_STAT_LOSSCH = true ∧
      t.fde.lossM = s.fld F.FDE_LOSSM_LAMPS ∧
      t.Asks 7 { plate := s.fld F.FDE_LOSS_PLATE, mask := s.fld F.FDE_LOSSM_LAMPS }) := by
  refine ends_done (congrArg done (State.lossEnter_of_due h)) ⟨?_, ?_, ?_, ?_⟩
  · rw [settle_flag _ (by decide), State.flag_post, State.flag_fdeStick _ rfl, State.flag_setFlag_apart _ _ (by decide)]
    exact State.flag_setFlag_self _ _ (by decide) rfl
  · rw [settle_flag _ (by decide), State.flag_post, State.flag_fdeStick _ rfl]
    exact State.flag_setFlag_self _ _ (by decide) rfl
  · rw [settle_fde, State.post_fde, State.fdeStick_fde]
    rfl
  · exact (s.asks_request 7 _).mono fun q hq => by rwa [settle_fde, State.post_fde, State.fdeStick_fde]

end

end Sys2Proof.Machine
end

section
/-! PROOFS. The fade tick: its swaps and mappings, what the fade engine takes, and the choice of LIT-RUN or LIT-IDLE. -/

namespace Sys2Proof.Machine

set_option Elab.async false

theorem foldl_frame {α β γ : Type} {f : β → α → β} (g : β → γ) (h : ∀ b a, g (f b a) = g b) (l : List α) (b : β) :
    g (l.foldl f b) = g b := by
  induction l generalizing b with
  | nil => rfl
  | cons a l ih => exact (ih _).trans (h b a)

/-! The requests that wait are taken, and none enters (R87). -/

theorem State.fdeLstick_fde (s : State) (l : Nat) (f : Fld) : (s.fdeLstick l f).fde = s.fde :=
  (State.fdeLstick_touch Touch.refl (Sub.refl _)).fde_eq (by decide +kernel)

theorem State.slotWrite_reqs (s : State) (l k : Nat) (q : LampReq) : (s.slotWrite l k q).1.fde.reqs = s.fde.reqs := by
  unfold State.slotWrite
  dsimp only
  split
  · exact (congrArg FdeState.reqs (State.fdeLstick_fde _ _ _)).trans rfl
  · rfl

theorem State.takeLamp_reqs (s : State) (q : QReq) (l : Nat) (r : LampReq) :
    (s.takeLamp q l r).1.fde.reqs = s.fde.reqs := by
  have hstick : ∀ (c : Prop) [Decidable c] (f : Fld), (if c then s.fdeLstick l f else s).fde.reqs = s.fde.reqs := by
    intro c _ f
    split
    · exact congrArg FdeState.reqs (s.fdeLstick_fde l f)
    · rfl
  unfold State.takeLamp
  split
  · exact (State.slotWrite_reqs _ l q.lvl r).trans (hstick _ _)
  · exact hstick _ _

theorem State.answer_reqs (s : State) (by_ : Option Path) (reply : Option Reply) (code refm : Nat) (late : Bool) :
    (s.answer by_ reply code refm late).fde.reqs = s.fde.reqs := by
  unfold State.answer
  cases by_ <;> cases reply <;> simp

theorem State.takeReq_reqs (s : State) (q : QReq) : (s.takeReq q).fde.reqs = s.fde.reqs := by
  unfold State.takeReq
  refine (State.answer_reqs _ _ _ _ _ _).trans ?_
  exact foldl_frame (fun acc : State × Nat × Bool => acc.1.fde.reqs) (fun acc e => acc.1.takeLamp_reqs q e.1 e.2) _ _

theorem State.tickRequests_reqs (s : State) : s.tickRequests.fde.reqs = [] :=
  foldl_frame (fun t : State => t.fde.reqs) State.takeReq_reqs _ _

theorem State.tickShow_reqs (s : State) (l : Nat) : (s.tickShow l).fde.reqs = s.fde.reqs := by
  unfold State.tickShow
  rfl

theorem State.keepShown_fde (s : State) : s.keepShown.fde = s.fde := rfl

theorem State.fdeTick_reqs (s : State) : s.fdeTick.fde.reqs = [] := by
  have hshow : ∀ u : State, ((List.range 8).foldl State.tickShow u).fde.reqs = u.fde.reqs :=
    foldl_frame (fun t : State => t.fde.reqs) State.tickShow_reqs _
  rw [State.fdeTick, State.keepShown_fde, hshow, State.tickRequests_reqs]

theorem State.lampTick_reqs (s : State) : s.lampTick.fde.reqs = [] := by
  unfold State.lampTick
  dsimp only
  split
  · exact s.fdeTick_reqs
  · rw [State.modKeep_fde, s.fdeTick_reqs]

theorem State.lampAnswers_reqs (s : State) : s.lampAnswers.fde.reqs = s.fde.reqs := by
  have h : Touch State.lampAnswerMask (s.modFde (fun d => { d with results := [] })) s.lampAnswers :=
    Touch.foldl (fun _ _ hu => State.lampAnswer_touch hu (Sub.refl _)) Touch.refl
  exact (congrArg FdeState.reqs (h.fde_eq (by decide +kernel))).trans rfl

/-! The swaps of checked tables (R54, R108). -/

theorem State.flag_lmpSwap (s : State) : s.lmpSwap.flag F.LMP_STAT_TABPEND = false := by
  unfold State.lmpSwap
  split
  · exact State.flag_setFlag_self _ _ (by decide) rfl
  · next h => exact Bool.eq_false_iff.mpr h

theorem State.flag_fdeSwap (s : State) : s.fdeSwap.flag F.FDE_STAT_TABPEND = false := by
  unfold State.fdeSwap
  split
  · exact State.flag_setFlag_self _ _ (by decide) rfl
  · next h => exact Bool.eq_false_iff.mpr h

/-! The mappings submitted (R48). -/

theorem getD_set_none_eq_ite {α : Type} (l : List (Option α)) (i k : Nat) :
    (l.set i none).getD k none = if k = i then none else l.getD k none := by
  split
  · next h => rw [h, getD_set_none]
  · next h => simp only [List.getD_eq_getElem?_getD, List.getElem?_set_ne (Ne.symm h)]

/-- The check of lamp `l` takes the mapping that waits for it, whatever comes of it. -/
theorem State.mapCheck_scfg (s : State) (l k : Nat) :
    (s.mapCheck l).lmp.scfg.getD k none = if k = l then none else s.lmp.scfg.getD k none := by
  unfold State.mapCheck
  split
  · next hnone =>
    split
    · next h => rw [h, hnone]
    · rfl
  · dsimp only
    split
    · exact getD_set_none_eq_ite s.lmp.scfg l k
    · have hstick : Touch (State.lampStickMask ||| rbit R.LMP_LSTAT) (s.modLmp (fun m => { m with scfg := m.scfg.set l none }))
          ((s.modLmp (fun m => { m with scfg := m.scfg.set l none })).lampStick l F.LMP_LSTAT_MAPERR (some (0x40, l))) :=
        State.lampStick_touch Touch.refl (by decide +kernel) (by decide +kernel)
      rw [hstick.lmp_eq (by decide +kernel)]
      exact getD_set_none_eq_ite s.lmp.scfg l k

theorem State.foldl_mapCheck_scfg (ls : List Nat) (s : State) (k : Nat) :
    (ls.foldl State.mapCheck s).lmp.scfg.getD k none = if k ∈ ls then none else s.lmp.scfg.getD k none := by
  induction ls generalizing s with
  | nil => simp
  | cons l ls ih =>
    rw [List.foldl_cons, ih, State.mapCheck_scfg]
    by_cases h : k = l <;> simp [h]

theorem State.mappings_scfg (s : State) {l : Nat} (hl : l < 8) : s.mappings.lmp.scfg.getD l none = none := by
  have h : Touch State.proofAbandonMask ((List.range 8).foldl State.mapCheck s) s.mappings :=
    Touch.forChans Touch.refl fun n u hu => Touch.ite (State.proofAbandon_touch hu (Sub.refl _)) hu
  rw [h.lmp_eq (by decide +kernel), State.foldl_mapCheck_scfg, if_pos (List.mem_range.mpr hl)]

/-! The tick in its stages. -/

section
variable (s : State)

/-- The state after the swaps and the mappings of a tick. -/
def State.tickSwapped : State := ((s.pulse 0x69).tabSwap.lmpSwap.fdeSwap).mappings

/-- Then with level 0 and the kept slots written, on the first tick after START (R103). -/
def State.tickEntered : State :=
  if s.fld F.SYS_MODE_STATE = 0 then
    (s.tickSwapped.modPwr (fun p => { p with leave := false })).powerOn (!s.keep.bad.contains 2)
      (decide (s.keep.handed < 3))
  else s.tickSwapped

/-- Then with the fade engine's tick, the solve of each lamp and the answers, before LIT-RUN or LIT-IDLE is chosen. -/
def State.tickLit : State :=
  (s.tickEntered.lampTick.solve (s.tickEntered.lampTick.fde.lamps.map FLamp.shown)).lampAnswers

theorem State.fadeTick_eq (h : s.fld F.SYS_MODE_STATE ≠ 0 ∨ s.pwr.leave = true) :
    s.fadeTick = s.tickLit.litDecide (s.fld F.SYS_MODE_STATE) := by
  have hlit : ¬ (s.fld F.SYS_MODE_STATE = 0 ∧ (!s.pwr.leave) = true) := by
    rintro ⟨h0, hl⟩
    rcases h with h | h
    · exact h h0
    · simp [h] at hl
  unfold State.fadeTick
  dsimp only
  rw [if_neg hlit]
  rfl

/-- What the swaps and mappings may change. -/
def State.tickSwappedMask : Nat :=
  State.pulseMask ||| State.tabSwapMask ||| State.lmpSwapMask ||| State.fdeSwapMask ||| State.mappingsMask

theorem State.tickSwapped_touch : Touch State.tickSwappedMask s s.tickSwapped := by
  refine State.mappings_touch (State.fdeSwap_touch (State.lmpSwap_touch (State.tabSwap_touch
    (State.pulse_touch Touch.refl ?_) ?_) ?_) ?_) ?_ <;> decide +kernel

/-- What the power-on writes may change. -/
def State.tickEnteredMask : Nat := State.modPwrMask ||| State.powerOnMask

theorem State.tickEntered_touch : Touch State.tickEnteredMask s.tickSwapped s.tickEntered := by
  unfold State.tickEntered
  split
  · refine State.powerOn_touch (State.modPwr_touch Touch.refl ?_) ?_ <;> decide +kernel
  · exact Touch.refl

/-- What the solve and the answers may change. -/
def State.tickSolvedMask : Nat := State.solveMask ||| State.lampAnswersMask

theorem State.tickSolved_touch : Touch State.tickSolvedMask s.tickEntered.lampTick s.tickLit := by
  refine State.lampAnswers_touch (State.solve_touch Touch.refl ?_) ?_ <;> decide +kernel

/-- What the tick may change from its swaps to the choice of LIT-RUN or LIT-IDLE. -/
def State.tickLitMask : Nat := State.tickEnteredMask ||| State.lampTickMask ||| State.tickSolvedMask

theorem State.tickLit_touch : Touch State.tickLitMask s.tickSwapped s.tickLit := by
  have h1 : Touch State.tickLitMask s.tickSwapped s.tickEntered := s.tickEntered_touch.mono (by decide +kernel)
  have h2 : Touch State.tickLitMask s.tickSwapped s.tickEntered.lampTick := State.lampTick_touch h1 (by decide +kernel)
  exact h2.trans (s.tickSolved_touch.mono (by decide +kernel))

theorem State.tickLit_reqs : s.tickLit.fde.reqs = [] := by
  have hsolve : ∀ (u : State) sh, (u.solve sh).fde = u.fde := fun u sh =>
    (State.solve_touch Touch.refl (Sub.refl _)).fde_eq (by decide +kernel)
  rw [State.tickLit, State.lampAnswers_reqs, hsolve, State.lampTick_reqs]

theorem State.tickLit_scfg {l : Nat} (hl : l < 8) : s.tickLit.lmp.scfg.getD l none = none := by
  rw [s.tickLit_touch.lmp_eq (by decide +kernel)]
  exact State.mappings_scfg _ hl

theorem State.tickLit_lmpTabpend : s.tickLit.flag F.LMP_STAT_TABPEND = false := by
  have h : Touch (State.fdeSwapMask ||| State.mappingsMask) (s.pulse 0x69).tabSwap.lmpSwap s.tickSwapped := by
    refine State.mappings_touch (State.fdeSwap_touch Touch.refl ?_) ?_ <;> decide +kernel
  rw [s.tickLit_touch.flag_eq (by decide) (by decide +kernel), h.flag_eq (by decide) (by decide +kernel)]
  exact State.flag_lmpSwap _

/-- The schedules' part of a tick changes FDE_STAT by TVALID alone. -/
theorem State.scheduleTick_tabpend : s.scheduleTick.flag F.FDE_STAT_TABPEND = s.flag F.FDE_STAT_TABPEND := by
  have htv : s.tvalidSet.flag F.FDE_STAT_TABPEND = s.flag F.FDE_STAT_TABPEND := by
    unfold State.tvalidSet
    split
    · exact State.flag_setFlag_apart _ _ (by decide)
    · rfl
  have hrest : Touch (State.modTimMask ||| State.scheduleReplayMask ||| State.minutesDueMask ||| Part.fde.bit)
      s.tvalidSet s.scheduleTick := by
    have htim : ∀ f, Touch (State.modTimMask ||| State.scheduleReplayMask ||| State.minutesDueMask ||| Part.fde.bit)
        s.tvalidSet (s.tvalidSet.modTim f) := fun f => State.modTim_touch Touch.refl (by decide +kernel)
    unfold State.scheduleTick
    dsimp only
    split
    · exact htim _
    · split
      · exact State.scheduleReplay_touch (Touch.modFde (htim _) (by decide +kernel)) (by decide +kernel)
      · split
        · exact State.minutesDue_touch (htim _) (by decide +kernel)
        · exact htim _
  exact (hrest.flag_eq (by decide) (by decide +kernel)).trans htv

/-- What the tick of the fade engine may change after the schedules. -/
def State.fdeStepsMask : Nat :=
  State.rulesTickMask ||| State.tickReleasesMask ||| State.tickPendingMask ||| State.tickRequestsMask |||
    State.tickShowMask ||| State.keepShownMask

theorem State.fdeTick_tabpend : s.fdeTick.flag F.FDE_STAT_TABPEND = s.flag F.FDE_STAT_TABPEND := by
  have h : Touch State.fdeStepsMask s.scheduleTick s.fdeTick := by
    refine State.keepShown_touch (Touch.foldl (fun u l hu => State.tickShow_touch hu ?_) (State.tickRequests_touch
      (State.tickPending_touch (State.tickReleases_touch (State.rulesTick_touch Touch.refl ?_) ?_) ?_) ?_)) ?_ <;>
      decide +kernel
  exact (h.flag_eq (by decide) (by decide +kernel)).trans s.scheduleTick_tabpend

theorem State.lampTick_tabpend : s.lampTick.flag F.FDE_STAT_TABPEND = s.flag F.FDE_STAT_TABPEND := by
  unfold State.lampTick
  dsimp only
  split
  · exact s.fdeTick_tabpend
  · rw [State.flag_modKeep, s.fdeTick_tabpend]

theorem State.tickLit_fdeTabpend : s.tickLit.flag F.FDE_STAT_TABPEND = false := by
  have hmap : Touch State.mappingsMask (s.pulse 0x69).tabSwap.lmpSwap.fdeSwap s.tickSwapped :=
    State.mappings_touch Touch.refl (Sub.refl _)
  rw [s.tickSolved_touch.flag_eq (by decide) (by decide +kernel), State.lampTick_tabpend,
    s.tickEntered_touch.flag_eq (by decide) (by decide +kernel), hmap.flag_eq (by decide) (by decide +kernel)]
  exact State.flag_fdeSwap _

theorem State.tickLit_state : s.tickLit.fld F.SYS_MODE_STATE = s.fld F.SYS_MODE_STATE :=
  (s.tickLit_touch.fld_eq (by decide) (by decide +kernel)).trans
    (s.tickSwapped_touch.fld_eq (by decide) (by decide +kernel))

/-! LIT-RUN or LIT-IDLE (R14, R394). -/

/-- What the choice changes beside SYS_MODE.STATE. -/
def State.litStepsMask : Nat :=
  State.startAllMask ||| State.stopAllMask ||| State.proofFirstMask ||| State.capturesCloseMask |||
    State.gtuIdleMask ||| State.lineStopMask

/-- The state that a tick chooses: 1 LIT-RUN, 2 LIT-IDLE. -/
def State.litChoice : Nat := if s.busyLight then 1 else 2

theorem State.litChoice_cases : s.litChoice = 1 ∨ s.litChoice = 2 := by
  unfold State.litChoice
  split
  · exact .inl rfl
  · exact .inr rfl

theorem State.litDecide_of_eq {old : Nat} (h : s.litChoice = old) : s.litDecide old = s := by
  rw [State.litDecide]
  exact if_pos h

theorem State.litDecide_touch_of_ne {old : Nat} (h : s.litChoice ≠ old) :
    Touch State.litStepsMask (s.setFld F.SYS_MODE_STATE s.litChoice) (s.litDecide old) := by
  rw [State.litDecide]
  refine (congrArg (Touch _ _) (if_neg h)).mpr ?_
  have hsteps : Touch State.litStepsMask (s.setFld F.SYS_MODE_STATE s.litChoice)
      (if s.litChoice = 1 then (s.setFld F.SYS_MODE_STATE s.litChoice).startAll.proofFirst
       else ((s.setFld F.SYS_MODE_STATE s.litChoice).forChans (fun n u => u.capturesClose n)).stopAll.gtuIdle) := by
    split
    · refine State.proofFirst_touch (State.startAll_touch Touch.refl ?_) ?_ <;> decide +kernel
    · refine State.gtuIdle_touch (State.stopAll_touch (Touch.forChans Touch.refl
        fun n u hu => State.capturesClose_touch hu ?_) ?_) ?_ <;> decide +kernel
  exact Touch.ite (State.lineStop_touch hsteps (by decide +kernel)) hsteps

theorem State.litDecide_state :
    (s.litDecide (s.fld F.SYS_MODE_STATE)).fld F.SYS_MODE_STATE = 1 ∨
      (s.litDecide (s.fld F.SYS_MODE_STATE)).fld F.SYS_MODE_STATE = 2 := by
  by_cases h : s.litChoice = s.fld F.SYS_MODE_STATE
  · rw [s.litDecide_of_eq h, ← h]
    exact s.litChoice_cases
  · rw [(s.litDecide_touch_of_ne h).fld_eq (by decide) (by decide +kernel),
      State.fld_setFld_self _ _ (by decide) (by decide)]
    rcases s.litChoice_cases with hc | hc <;> rw [hc] <;> decide

end

/-- The tick is taken: replay has ended, the core runs, and no hold stops the fade engine (R39, R74). -/
abbrev State.tickTaken (s : State) : Prop :=
  6 ≤ s.pwr.boot ∧ s.pwr.loss ≤ 1 ∧ s.pwr.rstLow = false ∧ (s.holdActive && s.flag F.HOLD_CTL_FDE) = false

theorem exec_fadeTick_of_taken {s : State} (h : s.tickTaken) : exec .fadeTick s = done s.fadeTick := by
  obtain ⟨hb, hl, hr, hh⟩ := h
  refine congrArg done (if_pos ⟨hb, hl, ?_, ?_⟩)
  · simp [hr]
  · simp only [hh, Bool.not_false]

theorem exec_fadeTick_of_skipped {s : State} (hs : s.Settled)
    (h : s.pwr.boot < 6 ∨ 1 < s.pwr.loss ∨ s.pwr.rstLow = true ∨ (s.holdActive && s.flag F.HOLD_CTL_FDE) = true) :
    exec .fadeTick s = .next s := by
  refine exec_next_of_done_self hs (congrArg done (if_neg ?_))
  rintro ⟨hb, hl, hr, hh⟩
  rcases h with h | h | h | h
  · omega
  · omega
  · simp [h] at hr
  · simp [h] at hh

theorem ends_fadeTick {s : State} (h : s.tickTaken) (hlit : s.fld F.SYS_MODE_STATE ≠ 0 ∨ s.pwr.leave = true) :
    Ends .fadeTick s (fun t => t.fde.reqs = [] ∧ t.flag F.FDE_STAT_TABPEND = false ∧
      t.flag F.LMP_STAT_TABPEND = false ∧ (t.fld F.SYS_MODE_STATE = 1 ∨ t.fld F.SYS_MODE_STATE = 2) ∧
      (∀ l, l < 8 → t.lmp.scfg.getD l none = none)) := by
  have hdecide : Touch State.litDecideMask s.tickLit (s.tickLit.litDecide (s.fld F.SYS_MODE_STATE)) :=
    State.litDecide_touch Touch.refl (Sub.refl _)
  refine ends_done (exec_fadeTick_of_taken h) ?_
  rw [s.fadeTick_eq hlit]
  refine ⟨?_, ?_, ?_, ?_, fun l hl => ?_⟩
  · rw [settle_fde, hdecide.fde_eq (by decide +kernel), s.tickLit_reqs]
  · rw [settle_flag _ (by decide), hdecide.flag_eq (by decide) (by decide +kernel), s.tickLit_fdeTabpend]
  · rw [settle_flag _ (by decide), hdecide.flag_eq (by decide) (by decide +kernel), s.tickLit_lmpTabpend]
  · rw [settle_fld _ (by decide), ← s.tickLit_state]
    exact s.tickLit.litDecide_state
  · rw [settle_lmp, hdecide.lmp_eq (by decide +kernel), s.tickLit_scfg hl]

/-- Settles O16: the tick by its stages, and each other effect by the one lemma for where it is due and the one for where it is
not. -/
theorem timedEffectsOfTheFadeEngine : Obligations.TimedEffectsOfTheFadeEngine := by
  unfold Obligations.TimedEffectsOfTheFadeEngine
  intro s hs hshape
  have hlen : s.fde.lamps.length = 8 := hshape.lamps
  refine ⟨fun hb hl hr hh hlit => ends_fadeTick ⟨hb, hl, hr, hh⟩ hlit, exec_fadeTick_of_skipped hs, fun htv hj hr => ?_,
    fun hoff => exec_scheduleMinute_of_self hs (State.minutesDue_of_off hoff), fun l y hy i hi => ?_, fun l k => ?_,
    ends_ruleHoldEnd hs hlen, fun l => ?_, fun htaps hoff hboot ht => ?_, exec_gestureComplete_of_not_done hs,
    fun hn hhead hb hloss => ?_,
    fun h => exec_next_of_done_self hs (congrArg done (State.lossEnter_of_not_due h))⟩
  · have hon : s.minutesOn := ⟨htv, hj, hr⟩
    refine ⟨fun m hm hlt => ?_, fun hm hsch h0 e he hfire => ?_, fun m hm hle => ?_, fun hm => ?_⟩
    · refine ends_scheduleMinute hs ?_
      rw [State.minutesDue_of_last hon hm, if_pos hlt]
      rfl
    · exact ends_scheduleMinute hs (State.minutesDue_asks hon hm hsch h0 he hfire)
    · refine exec_scheduleMinute_of_self hs ?_
      rw [State.minutesDue_of_last hon hm, if_neg (by omega)]
    · exact exec_scheduleMinute_of_self hs (State.minutesDue_of_none hon hm)
  · exact ⟨ends_timedStartDue hs hlen hy hi, exec_timedStartDue_of_not_due hs hy hi⟩
  · exact ⟨fun x hx ho => ends_slotHoldExpiry hs hlen l k hx ho, exec_slotHoldExpiry_of_not_over hs l k⟩
  · exact ⟨fun x hx ho => ends_gestureHoldExpiry hs hlen l hx ho, exec_gestureHoldExpiry_of_not_over hs l⟩
  · have hdone : s.gestureDone := ⟨htaps, hoff, hboot, ht⟩
    exact ⟨ends_gestureComplete hdone, ends_gestureComplete_many hs hdone, ends_gestureComplete_apply hdone⟩
  · obtain ⟨t, ht, hflag, hch, hlamps, q, hq, hlvl, -, hplate⟩ := ends_lossEntry ⟨hn, hhead, hb, hloss⟩
    exact ⟨t, ht, hflag, hch, hlamps, q, hq, hlvl, hplate⟩

end Sys2Proof.Machine
end

section
/-! PROOFS. What VAUX good does with the taps that an interruption counted. -/

namespace Sys2Proof.Machine

set_option Elab.async false

/-- Refutes O42: the sixth tap of a gesture is counted like those before it (R101: one of more than 4 taps is discarded only
where the gesture ends), while the statement holds the count at 5. The node is in KEEP with five taps counted, and the
interruption that VAUX good ends has lasted 500 ms. -/
theorem not_startUpRunsItsSteps : ¬ Obligations.StartUpRunsItsSteps := by
  unfold Obligations.StartUpRunsItsSteps
  intro h
  let s : State := { keep := { off := true, elapsed := 2 ^ 47, taps := 5, bad := [] } }
  have hsix : (settle ((s.kramCheck.interruptEnd (s.keep.deep.getLsbD 1)).vauxStart
      (s.kramCheck.interruptEnd (s.keep.deep.getLsbD 1)).pwr.cause false)).keep.taps = 6 := by decide +kernel
  obtain ⟨hgood, -⟩ := h s rfl
  obtain ⟨hstart, -⟩ := hgood false
  obtain ⟨t, ht, -, -, -, -, -, -, -, -, -, -, -, hclass⟩ := hstart rfl rfl
  obtain ⟨-, -, htap, -, -⟩ := hclass rfl (by decide) (by decide) (by decide)
  obtain ⟨-, hfive⟩ := htap (by decide) (by decide)
  injection ht with ht
  rw [← ht] at hfive
  exact absurd (hsix.symm.trans hfive) (by decide)

end Sys2Proof.Machine
end

section
/-! PROOFS. What the commands of the health analyser leave unchanged, and a proof run that ends while the commit buffer is
full. -/

namespace Sys2Proof.Machine

/-- Settles O54: what each command may change by its own Touch lemma lies within the mask of the frame stated for it. -/
theorem frameOfHealth : Obligations.FrameOfHealth := by
  unfold Obligations.FrameOfHealth
  intro c s t h
  cases c with
  | currentHoldCapture n => exact (execCurrentHoldCapture_touch (by decide +kernel)).onlyTouches h
  | holdCaptureTimeout n volt => exact (execHoldCaptureTimeout_touch (by decide +kernel)).onlyTouches h
  | conversionDone raw => exact (execConversionDone_touch (by decide +kernel)).onlyTouches h
  | userSeqEnd => exact (execUserSeqEnd_touch (by decide +kernel)).onlyTouches h
  | roundEnd => exact (execRoundEnd_touch (by decide +kernel)).onlyTouches h
  | proofRunRequest p v => exact (execProofRunRequest_touch (by decide +kernel)).onlyTouches h
  | proofAutoDue n => exact (execProofAutoDue_touch (by decide +kernel)).onlyTouches h
  | proofSlotStart n => exact (execProofSlotStart_touch (by decide +kernel)).onlyTouches h
  | proofRunEnd n => exact (execProofRunEnd_touch (by decide +kernel)).onlyTouches h
  | proofRunTimeout n => exact (execProofRunTimeout_touch (by decide +kernel)).onlyTouches h
  | ledrst p => exact (execLedrst_touch (by decide +kernel)).onlyTouches h
  | mclr p => exact (execMclr_touch (by decide +kernel)).onlyTouches h
  | dtrefRelearn p => exact (execDtrefRelearn_touch (by decide +kernel)).onlyTouches h
  | hltTabOpen p => exact (execHltTabOpen_touch (by decide +kernel)).onlyTouches h
  | hltTabClose p => exact (execHltTabClose_touch (by decide +kernel)).onlyTouches h
  | hltTabSave p => exact (execHltTabSave_touch (by decide +kernel)).onlyTouches h
  | stressRecordDue => exact (execStressRecordDue_touch (by decide +kernel)).onlyTouches h
  | channelOnHour n => exact (execChannelOnHour_touch (by decide +kernel)).onlyTouches h
  | _ => trivial

/-- Refutes O24: the record of an accepted run (R197) that finds no room in the 4 KiB commit buffer waits outside it
(R434, `State.vRecord`), while the statement has every accepted run add its record to the buffer. The buffer is full with 32
pages of the USR region, and the run of channel 0, whose points lie on the line of 4 V and 160 uV per uA, has no slot left. -/
theorem not_proofRunsAreAskedTakenAndEnded : ¬ Obligations.ProofRunsAreAskedTakenAndEnded := by
  unfold Obligations.ProofRunsAreAskedTakenAndEnded
  intro h
  let point (k : Nat) : ProofPoint := { nI := 16, sumI := (4096 * 16 * k : Nat), nV := 16, sumV := 16 * (1000 + 100 * k) }
  let run : ProofRun := { plan := [], points := [point 1, point 2, point 3, point 4] }
  let s : State := { pwr := { boot := 6 }, vlt := { buf := List.replicate 32 (.usrPage []) },
                     hlt := { chans := { run := some run } :: List.replicate 15 {} } }
  have hshape : s.Shape := by constructor <;> decide +kernel
  have hstays : (settle (s.proofEnd 0)).vlt.buf = s.vlt.buf := by decide +kernel
  obtain ⟨-, -, hchans⟩ := h s rfl hshape
  obtain ⟨-, hrun⟩ := hchans 0
  obtain ⟨-, -, -, -, hend⟩ := hrun run rfl
  obtain ⟨haccepted, -⟩ := hend rfl rfl
  obtain ⟨t, ht, -, -, -, -, -, hbuf, -⟩ :=
    haccepted 4000000 160 (by decide +kernel) (by decide +kernel) (by decide +kernel) (by decide +kernel)
  injection ht with ht
  rw [← ht] at hbuf
  exact List.cons_ne_nil _ _ (List.self_eq_append_right.mp (hstays.symm.trans hbuf))

end Sys2Proof.Machine
end
